-- ==== Sys2Proof/Word.lean ====
section
/-! DEFINITION. The word and byte types of the module's registers and memories (R16) and their plainest arithmetic. -/

namespace Sys2Proof

/-- One byte of memory or of a frame. -/
abbrev Byte := BitVec 8

/-- One 32-bit register (R16: all registers are 32 bits wide). -/
abbrev Word := BitVec 32

/-- The number that little-endian bytes spell. -/
def leNat : List Byte → Nat
  | [] => 0
  | b :: bs => b.toNat + 256 * leNat bs

/-- The `n` little-endian bytes of a number, cut to `n` bytes. -/
def leBytes : Nat → Nat → List Byte
  | 0, _ => []
  | n + 1, v => BitVec.ofNat 8 v :: leBytes n (v / 256)

/-- Bit `i` of a number. -/
abbrev bitOf (v i : Nat) : Bool := v.testBit i

/-- 1 for true, 0 for false, as a register bit shows it. -/
def b2n (b : Bool) : Nat := if b then 1 else 0

end Sys2Proof
end

