-- ==== Sys2Proof/Syntax.lean ====
section
/-! DEFINITION. The commands of the KRY-VPM9 block, one constructor per row of spec/opcode_table.json, in the
table's order, and the types of their operands. The table gives no operands; each constructor carries what its rule
takes from outside the module (a bus value, a frame, a pin reading, an image's check facts). The first operand `dt` of
every constructor is the module time in ns that has passed since the previous command (assumption 1). -/

namespace Sys2Proof

/-- Requester classes of the firewall (R243), in the order of their class bits. -/
inductive Cls where
  | t | l | ap | as | c | x | d
  deriving DecidableEq, Repr

/-- A requester: its class (R243) and a number: that of an application core, of a Courier channel, of a stack position, and for
the Triad how many VFENCEs had timed out when it issued the access (R121). -/
structure Requester where
  cls : Cls
  core : Nat
  deriving DecidableEq, Repr

/-- The causes of a module reset (R579). -/
inductive ResetCause where
  | powerApplied | orderly | restart | conservator | overTemp
  deriving DecidableEq, Repr

/-- What the coding plug answers when it is read during reset (R566 to R568). -/
structure PlugRead where
  present : Bool
  pins : Nat
  memory : Option (List Byte)
  deriving DecidableEq, Repr

/-- What the outside gives at a module reset: the backup domain's clock and state (R52, R556), the coding plug
(R568) and the value drawn from the random source for LCS_NONCE (R500). -/
structure ResetEnv where
  bkKept : Bool
  rtc : Nat
  bkCount : Nat
  vcap : Nat
  vbak : Nat
  plug : PlugRead
  nonceLo : BitVec 64
  nonceHi : BitVec 64
  deriving DecidableEq, Repr

/-- One voted transaction as a lane presents it (R98). -/
structure Txn where
  kind : Nat
  addr : Nat
  data : Nat
  be : Nat
  attr : Nat
  deriving DecidableEq, Repr

/-- What the lanes place in their outbound queues before the decision (R99), in program order, and whether the two voters
agree on their results (R102). -/
structure Ballot where
  ta : List Txn
  tb : List Txn
  tc : List Txn
  votersAgree : Bool
  deriving DecidableEq, Repr

/-- The architectural state of a Triad lane, as the state record lists it (R90, R118): x1 to x31, f0 to f31, pc, fcsr, the 11
CSRs from mstatus to minstret, pmpcfg0 and pmpcfg2, pmpaddr0 to pmpaddr15. A value that a list does not reach is 0. -/
structure LaneRegs where
  x : List (BitVec 64) := []
  f : List (BitVec 64) := []
  pc : BitVec 64 := 0
  fcsr : BitVec 64 := 0
  csrs : List (BitVec 64) := []
  pmpcfg : List (BitVec 64) := []
  pmpaddr : List (BitVec 64) := []
  deriving DecidableEq, Repr, Inhabited

/-- The items that enter the Triad (R94). -/
inductive Inbound where
  | readResponse (data status : Nat)
  | interrupt (message : Nat)
  | timeRead (ofs : Nat)
  | garnetStatus (ofs : Nat)
  | instrResult (value : Nat)
  deriving DecidableEq, Repr

/-- An Inventory announcement (R80). -/
structure Announce where
  version : Nat
  snapId : Nat
  instant : Nat
  origin : Nat
  deriving DecidableEq, Repr

/-- The queues that are read through the POP page (R240). -/
inductive PopQueue where
  | tsq (q : Fin 9)
  | crr (c : Fin 16)
  | arc
  deriving DecidableEq, Repr

/-- The privilege mode in which an instruction issues. -/
inductive Priv where
  | machine | user
  deriving DecidableEq, Repr

/-- The modes of an application core (R223). -/
inductive CoreMode where
  | machine | supervisor | user
  deriving DecidableEq, Repr, Inhabited

/-- An application core at an access (R223): its number, its mode, its address translation register satp, and whether supervisor
mode may reach the pages of user mode (sstatus.SUM of the RISC-V privileged specification). -/
structure CoreAt where
  core : Fin 8
  mode : CoreMode
  satp : BitVec 64
  sum : Bool
  deriving DecidableEq, Repr

/-- What Garnet sees of its outputs and of itself in one evaluation cycle (R132, R150), and the readback of TP1 and TP0
(R179). -/
structure GarnetSense where
  differ : Bool
  oscOver : Bool
  hsDriven : BitVec 4
  lsDriven : BitVec 4
  loadSupply : Bool
  tp : BitVec 2
  grst : Bool
  deriving DecidableEq, Repr

/-- The parts of Garnet's start-up check that pass (R135). -/
structure GarnetCheck where
  image : Bool
  compare : Bool
  testPulses : Bool
  readback : Bool
  deriving DecidableEq, Repr

/-- High side or low side of a safe output pair (R136). -/
inductive PairSide where
  | hs | ls
  deriving DecidableEq, Repr

/-- The kinds of output fault of R150. -/
inductive OutputFault where
  | overload | hsDriven | lsDriven
  deriving DecidableEq, Repr

/-- The standard function blocks (R199, R201). -/
inductive FbKind where
  | ton | tof | tp | rTrig | fTrig | ctu | ctd | ctud
  deriving DecidableEq, Repr

/-- A scan of an instance by the body of a task (R199 to R202): its path and its inputs: IN, CLK, CU or a CTD's CD, and a CTUD's CD,
R, LD, PT in ns, PV. -/
structure FbScan where
  path : Nat
  a : Bool
  b : Bool
  r : Bool
  l : Bool
  pt : Nat
  pv : Int
  deriving DecidableEq, Repr

/-- An instance of a function block (R199 to R205): the previous values of its inputs (none before the first scan), the TIM_MONO
at which a running timer started, the outputs Q (QU) and QD, ET and CV, the REL_MT of its last scan, and whether it resumes at
the first release after a warm restart. -/
structure FbInst where
  kind : FbKind
  prevA : Option Bool := none
  prevB : Option Bool := none
  start : Option Int := none
  q : Bool := false
  q2 : Bool := false
  et : Nat := 0
  cv : Int := 0
  relMt : Nat := 0
  resume : Bool := false
  deriving DecidableEq, Repr

/-- An instance that a program declares (R203, R211): its task, path, type version and RETAIN attribute, and the address at which
the executive keeps its data. -/
structure FbDecl where
  task : Fin 16
  path : Nat
  ver : Nat
  kind : FbKind
  retain : Bool
  at_ : Nat
  deriving DecidableEq, Repr

/-- The staged change of R207: what of it the hardware cannot read from the task tables. Forces by their PATHID with their new
offset (R216), the instances of the affected tasks, the paths of other instances that are dropped, the variables of another type
with their path, address and initial value, and the values written to the retain partition for variables that gain RETAIN, by
offset (R211). -/
structure ChangePackage where
  codeChanged : BitVec 16
  programId : BitVec 256
  layoutHash : BitVec 256
  survivingPaths : List (Nat × Nat)
  instances : List FbDecl
  droppedInstances : List Nat
  initVars : List (Nat × Nat × List Byte)
  retainWrites : List (Nat × List Byte)
  deriving DecidableEq, Repr, Inhabited

/-- What the runtime finds at a start (R203, R204, R206): the program being started with the hash of its retain layout, the
stored format, whether the used part of the retain partition reads without an uncorrectable error, the instances that the
program declares, and the initial values of the outputs, of the retained variables, and by address of all others. -/
structure StartInfo where
  programId : BitVec 256
  layoutHash : BitVec 256
  fmtVer : Nat
  retainEccOk : Bool
  instances : List FbDecl
  initialOutputs : List (Fin 16 × List Byte)
  initialRetain : List Byte
  initialVars : List (Nat × List Byte)
  deriving DecidableEq, Repr

/-- An error in the release of a task (R193): the snapshot read of an entry of its input map, or the copy of an entry of its
output map. -/
structure ImageError where
  task : Fin 16
  out : Bool
  index : Nat
  deriving DecidableEq, Repr

/-- Kinds of L1 error of a Triad lane (R91). -/
inductive L1Error where
  | single | uncorrectable
  deriving DecidableEq, Repr

/-- Errors of the application cores' caches (R227): corrected ones; an uncorrectable one that arises in a dirty line; and the
load of such a line by a core, or its read by a device. -/
inductive CacheError where
  | l1Corrected
  | l2Corrected
  | dirtyLine (addr : Nat)
  | coreLoad (core : Fin 8) (addr : Nat)
  | deviceRead (addr : Nat)
  deriving DecidableEq, Repr

/-- The requesters and kinds of traffic of the fabric's classes (R247). -/
inductive FabSrc where
  | triad | gar
  | imageEngine | outputEngine | walira | ethLaunch | trdpPublication | measRing
  | catStaging | courier (c : Fin 16) | replica | trdpSubscription
  | core (c : Fin 8) | tcLoan | ethernet | serial | cascade | archive | provenance | selfTest | lifecycle
  deriving DecidableEq, Repr

/-- A fabric request (R247): requester, target and acceptance instant. The queue in which Courier's channels wait for Courier
itself is a target too, with the number 0xFFFF (R248, R400; DESIGN CHOICE, assumption 123). -/
structure FabReq where
  src : FabSrc
  target : Nat
  accepted : Nat
  id : Nat
  deriving DecidableEq, Repr

/-- The blocks that keep a catalogue (R31). -/
inductive CatBlk where
  | fio | meas | wal | trdp | mvb | can | ser
  deriving DecidableEq, Repr

/-- The blocks that keep descriptor rings (R38). -/
inductive RingBlk where
  | eth | mvb | can | ser | crr | arc | prv
  deriving DecidableEq, Repr

/-- The serial bus blocks (R384). -/
inductive SerBlk where
  | mvb | can | ser
  deriving DecidableEq, Repr

/-- How a memory read by a device ends (R36, R193, R408). -/
inductive ReadEnd where
  | ok | ecc | addr | firewall
  deriving DecidableEq, Repr

/-- A reading of a field input terminal (R254, R261): its voltage in mV, the input current in µA, and whether that current is at
its limit. -/
structure InReading where
  mv : Nat
  ua : Nat
  limited : Bool
  deriving DecidableEq, Repr

/-- One serial fallback frame as it arrives (R267, R268): its CRC and refresh index, and what the couplers of the group show
that it is compared with. The states it carries are those it was built with. -/
structure FallbackFrame where
  crcOk : Bool
  index : Fin 16
  couplers : BitVec 16
  couplersValid : BitVec 16
  deriving DecidableEq, Repr

/-- A Walira frame as it arrives (R319): its start and its end relative to the cycle start of the node, and its header. -/
structure WalFrame where
  startOfs : Int
  endOfs : Int
  txError : Bool
  crcOk : Bool
  headerSeen : Bool
  version : Nat
  flags : Nat
  slot : Nat
  node : Nat
  schedId : Nat
  cycle : Nat
  upDly : Nat
  rank : Nat
  claimId : Nat
  len : Nat
  payload : List Byte
  deriving DecidableEq, Repr

/-- An Ethernet frame at a port (R347, R349): bytes without FCS, from the destination address on. -/
structure EthFrame where
  bytes : List Byte
  fcsOk : Bool
  bufferFull : Bool
  isGptp : Bool
  deriving DecidableEq, Repr

/-- The copies of one MVB frame instant on lines A and B (R385). -/
structure MvbInstant where
  validA : Bool
  validB : Bool
  messageData : Bool
  deviceStatus : Bool
  port : Nat
  data : List Byte
  fifoFull : Bool
  deriving DecidableEq, Repr

/-- A master frame of the MVB (R384, R390): a request of the process data of a port, or of the status of a device. -/
inductive MvbMaster where
  | port (n : Nat)
  | device (addr : Nat)
  deriving DecidableEq, Repr

/-- Which queued frame of a serial bus starts (R390, R392): that of a catalogue entry, or the first of a controller's ring. -/
inductive SerWho where
  | entry (e : Nat)
  | ring (u : Fin 4)
  deriving DecidableEq, Repr

/-- What a CAN controller was in an error (R394): the transmitter, the transmitter in a case in which ISO 11898-1 leaves its
counter alone, or a receiver. -/
inductive CanErr where
  | transmitter
  | exempt
  | receiver
  deriving DecidableEq, Repr

/-- A correctly ended CAN frame (R391). -/
structure CanFrame where
  ident : Nat
  ide : Bool
  fdf : Bool
  brs : Bool
  fifoFull : Bool
  data : List Byte
  deriving DecidableEq, Repr

/-- A delimited SER frame (R395). -/
structure SerFrame where
  errorFree : Bool
  fifoFull : Bool
  data : List Byte
  deriving DecidableEq, Repr

/-- What happens to a Cascade link (R427, R428). -/
inductive LinkEvent where
  | trains
  | comesUp (neighbour width gen : Nat) (reach : BitVec 8)
  | beyond (reach : BitVec 8)
  | goesDown
  deriving DecidableEq, Repr

/-- An inbound Cascade transaction at the far module (R430, R431, R442): the sender's position, a posted write with its
bytes, a read of `size` bytes, or an AMO of `size` bytes with its operation (as in `Txn.kind`) and operand bytes; an interrupt
message is a posted write to a mailbox, with the message (R433, R439). -/
structure CscTxn where
  pos : Nat
  write : Bool
  amo : Bool
  amoOp : Nat
  offset : Nat
  size : Nat
  bytes : List Byte
  mailbox : Option (Nat × Nat) := none
  deriving DecidableEq, Repr

/-- What the master reads of a member's bank when it collects a stack's shadows (R441). -/
structure InvSlot where
  state : Nat
  mt : Nat
  seq : Nat
  info : Nat
  counters : List Nat
  deriving DecidableEq, Repr

/-- One occurrence from an event port (R453). -/
structure Occurrence where
  src : Nat
  code : Nat
  sev : Nat
  coll : Nat
  mt : Nat
  payload : List Byte
  deriving DecidableEq, Repr

/-- What the two modules of a pair tell each other of their identity (R485 codes 1 and 6). -/
structure Peer where
  paired : Bool
  side : Nat
  code : Nat
  deriving DecidableEq, Repr

/-- A module-originated or posted Provenance record (R538). -/
structure PrvRec where
  mt : Nat
  kind : Nat
  port : Nat
  session : Nat
  user : Nat
  reservedOk : Bool
  object : List Byte
  oldHash : Nat
  newHash : Nat
  deriving DecidableEq, Repr

/-- Where PRV takes a record from (R540). -/
inductive PrvSource where
  | ring (q : Fin 2)
  | port
  deriving DecidableEq, Repr

/-- What only the outside can tell at a beat edge: the offset measured for a step (R71), publication records that are
being written (R372), image reads that end with an error (R193), what a cold start of a new custodian finds (R487), and the
field channels whose coupler shows the other state than it should (R260, R268). -/
structure EdgeEnv where
  stepDelta : Int
  tornEntries : List Nat
  imageErrors : List ImageError
  cold : StartInfo
  couplersWrong : BitVec 32
  deriving DecidableEq, Repr

/-- What a gPTP Sync with its follow-up at a port says beside the offset that it measures (R58): the domain, and of its
grandmaster the identity, priority1 and whether it precedes this module's clock in the best master clock comparison where
priority1 is equal. -/
structure GptpSync where
  domain : Fin 256
  gm : BitVec 64
  prio1 : Byte
  ahead : Bool
  deriving DecidableEq, Repr

/-- A pulse at PPS_IN (R61): the edge that it begins with, and its width in ns. -/
structure PpsPulse where
  rising : Bool
  width : Nat
  deriving DecidableEq, Repr

/-- The lanes' state records at a VSYNC (R118, R119): `none` of a lane that presents nothing. -/
structure LaneRecords where
  ta : Option LaneRegs
  tb : Option LaneRegs
  tc : Option LaneRegs
  deriving DecidableEq, Repr

/-- A write of RTS_DONE at the end of a task body (R194): the cycle that it names, and the scans of function blocks in the body
(R199 to R202). -/
structure TaskDone where
  cycle : BitVec 16
  scans : List FbScan
  deriving DecidableEq, Repr

/-- What the checker of a Paired pair compares (R224): the transaction of each of its two cores, and whether they differ in
anything else. -/
structure PairCompare where
  even : Option Txn
  odd : Option Txn
  otherwise : Bool
  deriving DecidableEq, Repr

/-- A refresh instant of a group of field I/O (R266): the group, and its output couplers that have shown no valid pattern for 5 µs,
with the time in ns since the last one. -/
structure FioRefresh where
  group : Fin 2
  silent : List (Fin 16 × Nat)
  deriving DecidableEq, Repr

/-- A datagram for Conservator mode (R530, R531): its source, with the UDP port in bits 15 to 0 and the address above, and its
bytes. -/
structure CvDatagram where
  source : Nat
  msg : List Byte
  deriving DecidableEq, Repr

/-- The commands: one constructor per row of the table, in its order. -/
inductive Instr where
  -- start-up (R45, R204, R462, R509, R512, R547)
  | powerApplied (dt vin : Nat) (env : ResetEnv)
  | moduleReset (dt : Nat) (cause : ResetCause) (env : ResetEnv)
  | startupLbistComplete (dt : Nat) (failed : List (Fin 27 × Fin 16)) (ms : Nat)
  | romBoot (dt : Nat)
  | docentStart (dt : Nat)
  | runtimeStart (dt : Nat) (info : StartInfo)
  | arcStartCarry (dt : Nat)
  -- time (R53 to R89)
  | beatEdge (dt : Nat) (env : EdgeEnv)
  | gptpSyncRx (dt : Nat) (offset : Int) (sync : GptpSync)
  | ppsInPulse (dt : Nat) (pulse : PpsPulse)
  | refLost (dt : Nat)
  | firstLockTimeout (dt : Nat)
  | timStepAccept (dt : Nat) (req : Requester) (key : Byte) (accept : Bool)
  | popTsqMetaRead (dt : Nat) (req : Requester) (q : Fin 9) (wide : Bool)
  | popResponseAccepted (dt : Nat) (q : PopQueue)
  | popResponseDiscarded (dt : Nat) (q : PopQueue)
  | launchTimeReached (dt : Nat) (port : Fin 11) (queue : Fin 8)
  | invAnnouncementRx (dt : Nat) (a : Announce)
  | invAnnGo (dt : Nat) (req : Requester) (go : Bool)
  -- Triad (R90 to R131)
  | voteDecision (dt : Nat) (b : Ballot)
  | voteTimeout (dt : Nat) (b : Ballot)
  | triadL1Uncorrectable (dt : Nat) (lane : Fin 3) (e : L1Error) (addr : Nat)
  | boundaryItemCapture (dt : Nat) (item : Inbound) (parityErr : BitVec 3)
  | voterProbe (dt : Nat) (failing : BitVec 8)
  | vsync (dt : Nat) (word : BitVec 32) (priv : Priv) (onApp : Bool) (recs : LaneRecords) (agree : Bool) (back : Nat)
  | vsyncDeadline (dt : Nat)
  | vfence (dt : Nat) (word : BitVec 32) (priv : Priv) (onApp : Bool)
  | vfenceComplete (dt : Nat) (acked : Bool)
  | vfenceTimeout (dt : Nat)
  | triadReintWrite (dt : Nat) (req : Requester) (lane : Fin 4)
  | triadSafereqWrite (dt : Nat) (req : Requester) (key reason : Byte)
  | triadLoanRequest (dt : Nat) (req : Requester)
  | triadLoanCancel (dt : Nat) (req : Requester)
  | triadLoanretWrite (dt : Nat) (req : Requester) (ret : Bool)
  | tcLoanException (dt : Nat)
  -- Garnet (R132 to R179)
  | garnetSupplyRise (dt : Nat)
  | garnetStartupCheckDone (dt : Nat) (chk : GarnetCheck)
  | garnetEvalCycle (dt : Nat) (sense : GarnetSense)
  | safetyInputFilterExpiry (dt : Nat) (input : Fin 8) (chanB : Bool) (level : Bool)
  | discrepancyFault (dt : Nat) (inst : Fin 8)
  | testPulse (dt : Nat) (tp : Fin 2) (patternOk : Bool) (reads : BitVec 16)
  | garnetConfigCheck (dt : Nat) (intact : Bool)
  | garAckWrite (dt : Nat) (req : Requester) (insts : BitVec 8)
  | offpulseTest (dt : Nat) (pair : Fin 4) (side : PairSide)
  | offpulsePulseEnd (dt : Nat) (pair : Fin 4) (fell : Bool)
  | outputOverload (dt : Nat) (pair : Fin 4) (kind : OutputFault)
  | feedbackTimeout (dt : Nat) (pair : Fin 4)
  | garBrktestWrite (dt : Nat) (req : Requester) (key : Byte) (pair : Fin 4)
  | brakeTestFbTimeout (dt : Nat) (pair : Fin 4)
  | brakeTestPass (dt : Nat) (pair : Fin 4)
  | brakeTestAbortEnd (dt : Nat) (pair : Fin 4)
  | brakeTestDue (dt : Nat) (pair : Fin 4)
  | garPermitWrite (dt : Nat) (req : Requester) (seq : Byte) (rel : BitVec 4)
  | garWithdrawWrite (dt : Nat) (req : Requester) (pairs : BitVec 4)
  | permitLost (dt : Nat) (pair : Fin 4)
  | permitMidpointToggle (dt : Nat)
  | grstRelease (dt : Nat) (width : Nat) (sense : GarnetSense)
  | custodyEnableFall (dt : Nat)
  | holdTimeout (dt : Nat) (pair : Fin 4)
  | cfgOpen (dt : Nat) (req : Requester)
  | cfgEnterLockout (dt : Nat) (req : Requester)
  | cfgLoad (dt : Nat) (req : Requester) (chunk : Nat)
  | cfgReadback (dt : Nat) (req : Requester) (chunk : Nat)
  | cfgAccept (dt : Nat) (req : Requester)
  | cfgDiscard (dt : Nat) (req : Requester)
  | cfgClose (dt : Nat) (req : Requester)
  | cfgSetpw (dt : Nat) (req : Requester)
  | garCfgcmdComplete (dt : Nat)
  | garSessionTimeout (dt : Nat)
  | garAuthBlockExpiry (dt : Nat)
  | pendingImageExpiry (dt : Nat)
  -- cyclic runtime (R180 to R221)
  | taskReady (dt : Nat) (task : Fin 16)
  | rtsDoneWrite (dt : Nat) (req : Requester) (task : Fin 16) (done : TaskDone)
  | rtsOcArm (dt : Nat) (req : Requester) (pkg : ChangePackage)
  | rtsOcCancel (dt : Nat) (req : Requester)
  | rtsForceupdWrite (dt : Nat) (req : Requester) (index : Fin 256)
  -- application cores and fabric (R222 to R251)
  | apcPairMismatch (dt : Nat) (pair : Fin 4) (cmp : PairCompare)
  | apcRestartWrite (dt : Nat) (req : Requester) (key : Byte) (cores : BitVec 8)
  | apcFence (dt : Nat) (core : Fin 8)
  | releaseStore (dt : Nat) (core : CoreAt) (addr : Nat) (bytes : List Byte)
  | cacheEccUncorrectable (dt : Nat) (e : CacheError)
  | fabricGrant (dt : Nat) (arrivals : List FabReq) (target : Nat)
  | fabricAgePromotion (dt : Nat) (id : Nat)
  -- catalogues, rings, registers (R17, R31 to R42)
  | catalogueInvalidate (dt : Nat) (req : Requester) (blk : CatBlk) (index : BitVec 16)
  | catalogueStagingReadDone (dt : Nat) (blk : CatBlk) (index : Nat) (ended : ReadEnd)
  | catalogueEnableWrite (dt : Nat) (req : Requester) (blk : CatBlk)
  | ringProducer (dt : Nat) (req : Requester) (blk : RingBlk) (ring tail : BitVec 16)
  | ringEnableWrite (dt : Nat) (req : Requester) (blk : RingBlk) (ring : Nat) (value : Word)
  | registerWrite (dt : Nat) (req : Requester) (addr size : Nat) (value : BitVec 64)
  -- field I/O (R252 to R277)
  | fieldSupplyChange (dt : Nat) (group : Fin 2) (vf : Int)
  | antiglitchExpiry (dt : Nat) (ch : Fin 32) (reading : InReading)
  | debounceExpiry (dt : Nat) (ch : Fin 32)
  | supgapTimeout (dt : Nat) (ch : Fin 32)
  | fioThermal (dt : Nat) (ch : Fin 32)
  | thermalRestart (dt : Nat) (ch : Fin 32)
  | fioGroupOverload (dt : Nat) (group : Fin 2)
  | groupOverloadEnd (dt : Nat) (group : Fin 2)
  | ovlClear (dt : Nat) (group : Fin 2)
  | outputDiagTest (dt : Nat) (ch : Fin 32) (withTest withoutTest : Nat) (current : Bool)
  | fallbackRefresh (dt : Nat) (refresh : FioRefresh)
  | inboundFrameRx (dt : Nat) (group : Fin 2) (frame : FallbackFrame)
  | outboundFrameRx (dt : Nat) (group : Fin 2) (frame : FallbackFrame)
  | outputWatchdogExpiry (dt : Nat) (ch : Fin 32)
  | failHoldExpiry (dt : Nat) (ch : Fin 32)
  -- measurement (R278 to R311)
  | sincOutput (dt : Nat) (ch : Fin 16) (bits : BitVec 64)
  | measOutputReady (dt : Nat) (ch : Fin 16)
  | measStuck (dt : Nat) (ch : Fin 16)
  | streamUnstuck (dt : Nat) (ch : Fin 16)
  | measRingrdWrite (dt : Nat) (req : Requester) (ch : Fin 16) (value : BitVec 64)
  | syncInEdge (dt : Nat) (rising : Bool) (width : Nat)
  | measSyncNow (dt : Nat) (req : Requester) (key : Byte)
  | measSyncArm (dt : Nat) (req : Requester) (key : Byte)
  | measSyncDisarm (dt : Nat) (req : Requester) (key : Byte)
  | measSync (dt : Nat)
  | measPllLost (dt : Nat)
  | measPllLocked (dt : Nat)
  -- Walira (R312 to R345)
  | linkDelayExchange (dt : Nat) (port : Fin 4) (delay : BitVec 16)
  | walLink (dt : Nat) (port : Fin 4) (up : Bool)
  | walFrameRx (dt : Nat) (port : Fin 4) (frame : WalFrame)
  | walSlotTx (dt : Nat) (chan : Fin 2) (entry : Fin 64)
  | guardianCut (dt : Nat) (chan : Fin 2)
  | walGuardClk (dt : Nat) (port : Fin 4) (interval : Nat)
  | forwardCut (dt : Nat) (port : Fin 4)
  | walListenTimeout (dt : Nat) (chan : Fin 2)
  | contentionWindowEnd (dt : Nat) (chan : Fin 2)
  | walBackoff (dt : Nat) (chan : Fin 2)
  -- Ethernet and TRDP (R346 to R383)
  | ethFrameRx (dt : Nat) (port : Fin 11) (frame : EthFrame)
  | ethFrameTxStart (dt : Nat) (port : Fin 11)
  | ethTxComplete (dt : Nat) (port : Fin 11)
  | ethTxDescTaken (dt : Nat) (ring : Fin 18) (ended : ReadEnd)
  | ethRxRingDelivery (dt : Nat) (ring : Fin 18)
  | ethRingDisable (dt : Nat) (req : Requester) (ring : Fin 18)
  | frameAged (dt : Nat) (port : Fin 11) (queue : Fin 8)
  | fdbEntryAged (dt : Nat) (mac vid : Nat)
  | gateIntervalEnd (dt : Nat) (port : Fin 8)
  | ethGclCommit (dt : Nat) (req : Requester) (port : Fin 8) (value : Word)
  | ethGclSwitch (dt : Nat) (port : Fin 8)
  | frerResetTimeout (dt : Nat) (i : Fin 128)
  | ethLink (dt : Nat) (port : Fin 11) (up : Bool) (speed : Fin 3)
  | trdpTelegramRx (dt : Nat) (host : Fin 2) (frame : List Byte)
  -- serial buses (R384 to R398)
  | mvbFrameInstant (dt : Nat) (m : MvbInstant)
  | mvbMasterFrame (dt : Nat) (poll : MvbMaster)
  | canFrameRx (dt : Nat) (u : Fin 4) (f : CanFrame)
  | serialTxLaunch (dt : Nat) (blk : SerBlk) (who : SerWho)
  | serialTxDone (dt : Nat) (blk : SerBlk) (u : Fin 4)
  | serTxStale (dt : Nat) (u : Fin 4)
  | canErrorFrame (dt : Nat) (u : Fin 4) (role : CanErr) (more : Nat)
  | canBusoffRecovery (dt : Nat) (u : Fin 4)
  | serFrameEnd (dt : Nat) (u : Fin 4) (f : SerFrame)
  | serOverrun (dt : Nat) (u : Fin 4)
  -- Courier and Loupe (R399 to R426)
  | crrChainStart (dt : Nat) (c : Fin 16)
  | crrDescriptorTaken (dt : Nat) (c : Fin 16) (ended : ReadEnd)
  | crrDescriptorDone (dt : Nat) (c : Fin 16) (far : List Byte) (farWord : Nat)
  | crrMoveError (dt : Nat) (c : Fin 16) (ended : ReadEnd) (bytesMoved : Nat) (far : List Byte)
  | crrReadbackDone (dt : Nat) (c : Fin 16) (equal : Bool)
  | crrRingDisable (dt : Nat) (req : Requester) (c : Fin 16) (bytesMoved : Nat) (far : List Byte)
  | popCrrMetaRead (dt : Nat) (req : Requester) (c : Fin 16) (wide : Bool)
  | lpeEnable (dt : Nat) (req : Requester) (u : Fin 8) (value : Word)
  | lpeDisable (dt : Nat) (req : Requester) (u : Fin 8)
  | lpeRestart (dt : Nat) (req : Requester) (mask : Word)
  | lpeUnitEnd (dt : Nat) (u : Fin 8) (unit : List Byte)
  -- Cascade (R427 to R446)
  | cscLink (dt : Nat) (down : Fin 2) (e : LinkEvent)
  | cscMemberRx (dt : Nat) (vec : BitVec 8)
  | cscInboundTransaction (dt : Nat) (down : Fin 2) (t : CscTxn)
  | cscCompletionRx (dt : Nat) (down : Fin 2) (tag status : Nat) (data : List Byte)
  | cscReadTimeout (dt : Nat) (down : Fin 2) (tag : Nat)
  | cscLockReq (dt : Nat) (pos : Fin 8)
  | cscLockRelease (dt : Nat)
  | cscLockWatchdog (dt : Nat) (asTarget : Bool)
  | cscAuditRx (dt : Nat) (down : Fin 2) (consumed : List Nat)
  | cscSyncAtRx (dt : Nat) (instant : Nat)
  | cscAnnounceRx (dt : Nat) (a : Announce)
  | cscInvCollected (dt : Nat) (slots : List InvSlot)
  -- Archive (R447 to R470)
  | arcOccurrence (dt : Nat) (port : Fin 27)
  | arcWriteDescriptor (dt : Nat) (ring : Fin 8) (ended : ReadEnd)
  | arcCommitAgeExpiry (dt : Nat) (unit : Nat)
  | arcUnitCommit (dt : Nat)
  | arcCommitDone (dt : Nat)
  | arcSealWrite (dt : Nat) (req : Requester) (mask : BitVec 64)
  | arcUnsealWrite (dt : Nat) (req : Requester) (mask : BitVec 64)
  | arcSealExpired (dt : Nat) (coll : Fin 64)
  | arcReadDescriptor (dt : Nat) (ring : Fin 2)
  | popArcNextRead (dt : Nat) (req : Requester) (wide : Bool)
  | arcEraseWrite (dt : Nat) (req : Requester) (key : Byte) (coll : Fin 64)
  -- redundant pair (R471 to R496)
  | farwireReading (dt : Nat) (mv : Nat)
  | blockedRecovery (dt : Nat)
  | custodyEnableLoss (dt : Nat)
  | custodyClaim (dt : Nat)
  | claimCheck (dt : Nat) (mv : Nat)
  | custodyNegotiation (dt : Nat)
  | custodyNegotiationDelay (dt : Nat)
  | replicaShipDeadline (dt : Nat) (shipped : Nat)
  | replicaFrameRx (dt : Nat) (peer : Peer) (frame : List Byte)
  | replicaCopyOnWrite (dt : Nat) (line : Nat)
  | replicaLinkChange (dt : Nat) (up : Bool)
  | rplHandoverArm (dt : Nat) (req : Requester) (key : Byte)
  | rplHandoverCancel (dt : Nat) (req : Requester) (key : Byte)
  | handoverDeadline (dt : Nat)
  -- life-cycle, self-test, Conservator, Provenance (R497 to R546)
  | lcsCmdTransition (dt : Nat) (req : Requester) (key arg : Byte) (nonceLo nonceHi : BitVec 64)
  | lcsCmdRevoke (dt : Nat) (req : Requester) (key arg : Byte) (nonceLo nonceHi : BitVec 64)
  | lcsCmdWriteFw (dt : Nat) (req : Requester) (key : Byte) (written verified : Bool)
  | lcsCmdWriteDocent (dt : Nat) (req : Requester) (key : Byte) (written verified : Bool)
  | lcsCmdWriteBootcfg (dt : Nat) (req : Requester) (key : Byte) (written verified : Bool)
  | lcsCmdCommitFw (dt : Nat) (req : Requester) (key : Byte)
  | lcsCmdRestart (dt : Nat) (req : Requester) (key : Byte)
  | lcsCmdVerify (dt : Nat) (req : Requester) (key arg : Byte)
  | lcsCmdComplete (dt : Nat)
  | steReqWrite (dt : Nat) (req : Requester) (key : Byte) (blk : BitVec 8) (unit : Fin 16)
  | steTest (dt : Nat) (passed : Bool) (sig : BitVec 64)
  | cvHello (dt : Nat) (m : CvDatagram)
  | cvBegin (dt addr port : Nat) (msg : List Byte)
  | cvData (dt addr port : Nat) (msg : List Byte)
  | cvEnd (dt source : Nat) (msg : List Byte)
  | cvWriteDone (dt : Nat) (written : Bool)
  | cvReset (dt : Nat) (m : CvDatagram)
  | cvAbort (dt : Nat) (m : CvDatagram)
  | cvSessionTimeout (dt : Nat)
  | prvRecordPost (dt : Nat) (src : PrvSource)
  | prvModuleRecord (dt : Nat) (r : PrvRec)
  | prvCommit (dt : Nat)
  | prvRdseqWrite (dt : Nat) (req : Requester) (seq : BitVec 64)
  -- power (R547 to R576) and the rows the table adds at its end
  | pwrPfw (dt : Nat) (vin : Nat)
  | pwrPfwClear (dt : Nat) (vin : Nat)
  | pwrNvStop (dt : Nat) (vhold : Nat)
  | orderlyReset (dt : Nat)
  | pwrOvervoltage (dt : Nat) (vin : Nat)
  | overvoltageReconnect (dt : Nat) (vin : Nat)
  | pwrVinRange (dt : Nat) (high : Bool) (vin : Nat)
  | pwrTempWarn (dt : Nat) (temp : Int)
  | pwrOvertemp (dt : Nat) (temp : Int)
  | sysPlugFault (dt : Nat)
  | holdupCharged (dt : Nat) (vhold : Nat)
  | tempwarnClear (dt : Nat) (temp : Int)
  | overtempRelease (dt : Nat) (temp : Int) (env : ResetEnv)
  | garnetSupplyLoss (dt : Nat)
  | cscLockGrantRx (dt : Nat) (retried : Bool)
  | tamperLatchSet (dt : Nat)
  deriving DecidableEq, Repr

end Sys2Proof
end

