-- ==== Sys2Proof/Config.lean ====
section
/-! DEFINITION. What an implementation of the module fixes: the reset values of the register tables, with the values the
model names where a table gives none (DESIGN CHOICE, assumption 3), what unlisted memory reads as (assumption 4), and
the free values the spec leaves open: opaque constants, so that nothing can be proved of their value. -/

namespace Sys2Proof.Config

/-- One row of the reset table: the words `addr + i * stride` for `i < count` reset to `value`. -/
structure ResetRow where
  addr : Nat
  count : Nat
  stride : Nat
  value : Nat
  deriving DecidableEq, Repr

/-- Reset values other than 0, by register word (block index × 0x10000 + offset), from the Reset columns of the register
tables. A word the table lists as "—" is marked "names a choice": DESIGN CHOICE (assumption 3), unsafe. -/
def resetTable : List ResetRow := [
  ⟨0x10028, 1, 0x4, 0x10⟩,   -- TIM_CTL
  ⟨0x1002C, 1, 0x4, 0x2710⟩,   -- TIM_JUMPLIMIT
  ⟨0x10070, 1, 0x4, 0xFF00⟩,   -- TIM_GPTPCFG
  ⟨0x180014, 1, 0x4, 0x186A0⟩,   -- INV_COMID
  ⟨0x60004, 1, 0x4, 0x1⟩,   -- RTS_POLICY
  ⟨0x40000, 1, 0x4, 0x14⟩,   -- FAB_AGE
  ⟨0x40100, 27, 0x4, 0xD⟩,   -- FAB_FWWR
  ⟨0x4040C, 32, 0x20, 0x1⟩,   -- FAB_RGN_ATTR
  ⟨0x40410, 32, 0x20, 0x7D007D⟩,   -- FAB_RGN_MASK
  ⟨0x90014, 1, 0x4, 0x190⟩,   -- WAL_GUARD
  ⟨0x90070, 1, 0x4, 0x190⟩,   -- WAL_LINKNOM
  ⟨0xA0000, 1, 0x4, 0x12C⟩,   -- ETH_AGETIME
  ⟨0xA0100, 9, 0x10, 0x1203⟩,   -- ETH_PORTCFG
  ⟨0xA0190, 1, 0x4, 0x1003⟩,   -- ETH_PORTCFG_9 (LEARN reads 0)
  ⟨0xA0210, 18, 0x30, 0x4⟩,   -- ETH_RCTL
  ⟨0xB0014, 1, 0x4, 0x1⟩,   -- TRDP_INVCFG
  ⟨0xC0810, 2, 0x30, 0x4⟩,   -- MVB_RCTL
  ⟨0xD0810, 8, 0x30, 0x4⟩,   -- CAN_RCTL
  ⟨0xE0810, 8, 0x30, 0x4⟩,   -- SER_RCTL
  ⟨0xC0010, 1, 0x4, 0x30000⟩,   -- MVB_CFG
  ⟨0xD0060, 4, 0x10, 0xA⟩,   -- CAN_CTL
  ⟨0xE0060, 4, 0x10, 0x40000⟩,   -- SER_CFG
  ⟨0xE0064, 4, 0x10, 0x100⟩,   -- SER_BAUD
  ⟨0xF0110, 16, 0x40, 0x4⟩,   -- CRR_RCTL
  ⟨0xF0114, 16, 0x40, 0xF⟩,   -- CRR_CFG
  ⟨0xF0610, 16, 0x20, 0x20⟩,   -- CRR_CHKCFG
  ⟨0x100100, 8, 0x80, 0x20⟩,   -- LPE_CFG
  ⟨0x110000, 1, 0x4, 0x10⟩,   -- CSC_STATUS (names a choice: MASTER [4] = 1, POS [2:0] = 0)
  ⟨0x110004, 1, 0x4, 0x1⟩,   -- CSC_MEMBERS (names a choice: VEC [7:0] = 1)
  ⟨0x110008, 1, 0x4, 0x3⟩,   -- CSC_CTL
  ⟨0x11000C, 1, 0x4, 0x3E8⟩,   -- CSC_RDTIMEOUT
  ⟨0x120000, 1, 0x4, 0x10⟩,   -- ARC_STATUS
  ⟨0x120004, 1, 0x4, 0x3C⟩,   -- ARC_COMMITAGE
  ⟨0x120008, 1, 0x4, 0xA⟩,   -- ARC_SEALLIM
  ⟨0x120110, 10, 0x40, 0x4⟩,   -- ARC_RCTL
  ⟨0x120114, 10, 0x40, 0x1000100⟩,   -- ARC_RSRC
  ⟨0x121000, 64, 0x80, 0x800003E8⟩,   -- ARC_CCFG
  ⟨0x130004, 1, 0x4, 0x4⟩,   -- RPL_CFG
  ⟨0x15002C, 1, 0x4, 0x1⟩,   -- LCS_KEYS (names a choice: PRESENT [3:0] = 1)
  ⟨0x150040, 1, 0x4, 0x1⟩,   -- LCS_SERIAL (names a choice: SERIAL [63:0] = 1)
  ⟨0x170000, 1, 0x4, 0x1000⟩,   -- PRV_STATUS (names a choice: FREE [12:0] = 4096)
  ⟨0x170008, 1, 0x4, 0x1⟩,   -- PRV_NEXTSEQ (names a choice: SEQ [63:0] = 1)
  ⟨0x170010, 1, 0x4, 0x1⟩,   -- PRV_OLDEST (names a choice: SEQ [63:0] = 1)
  ⟨0x170110, 2, 0x40, 0x4⟩,   -- PRV_RCTL
  ⟨0x160000, 1, 0x4, 0x1000⟩,   -- PWR_STATUS (names a choice: BKLOST [12] = 1, VBAK_OK [11] = 0)
  ⟨0x0, 1, 0x4, 0xA190102⟩,   -- SYS_IDENT (names a choice: ISSUE [15:8] = 1, CODE [1:0] = 2)
  ⟨0x4, 1, 0x4, 0x20100848⟩,   -- SYS_CAP0
  ⟨0x8, 1, 0x4, 0x4040110⟩,   -- SYS_CAP1
  ⟨0x10, 1, 0x4, 0x1⟩,   -- SYS_SERIAL (names a choice: SERIAL [63:0] = 1)
  ⟨0xA4004, 1, 0x4, 0x83FF03FF⟩   -- ETH_VLAN_1
]

/-- Whether a reset row gives the word at an address. -/
def ResetRow.covers (r : ResetRow) (a : Nat) : Bool :=
  decide (r.addr ≤ a) && (a - r.addr) % r.stride == 0 && decide ((a - r.addr) / r.stride < r.count)

/-- The reset value of every register word: the table's, else 0. -/
def resetWord (a : Nat) : Word :=
  match resetTable.find? (fun r => r.covers a) with
  | some r => BitVec.ofNat 32 r.value
  | none => 0

/-- What a byte of memory that nothing has written reads as: 0. DESIGN CHOICE (assumption 4), unsafe. -/
def memByte : Byte := 0

/-- Which cause a failed test-pulse or readback check at Garnet's start-up sets (R135), which the spec does not give: the
oscillator difference in place of the comparison error. A free choice of the two results. -/
opaque checkCauseOsc : Bool → Bool → Bool

/-- How the event of the safe state codes the states of the lanes (R105), which the spec does not give: a free value of the
masked lanes, the retired lanes and whether TC is on Loan. -/
opaque laneStates : Nat → Nat → Bool → BitVec 32

/-- The servo's frequency and phase parts after a measurement (R63): the spec gives no control law. Free values, in
units of 1/65,536 ppm, applied to a counter that is used once per value. -/
opaque servoFreq : Nat → Int
opaque servoPhase : Nat → Int

/-- Whether a line that a core had written was still only in its L1 when the L1 was discarded (R225): the spec promises no
time of write-back. A free choice per line number. -/
opaque lineWrittenBack : Nat → Nat → Bool

/-- How a Provenance record names the object changed (R538): the spec gives no form but for KIND 6. A free value of the
kind and of the number that tells objects of the kind apart. -/
opaque objectId : Nat → Nat → BitVec 256

/-- A SHA-256 over content whose byte form the spec does not give (R538). A free value, used once per value. -/
opaque contentHash : Nat → BitVec 256

/-- The session number that INFO gives (R533): any non-zero number. A free value, used once per session. -/
opaque cvSession : Nat → BitVec 32

/-- What the body of a boot configuration says (R508), whose layout the spec does not give: the pairs that are Paired, the
reset vector of each core, the field-voltage class, LOAN_PERMIT and the Conservator's IPv4 address. Free values of the
body. -/
opaque bootPaired : List Byte → BitVec 4
opaque bootVector : List Byte → Nat → BitVec 40
opaque bootClass : List Byte → Bool
opaque bootLoan : List Byte → Bool
opaque bootIp : List Byte → BitVec 32

/-- The configuration and retained data after a migration to another format (R525): the conversion is not given. A free
value per byte of the retain partition: the old content, the two formats and the offset. -/
opaque migrated : List Byte → Nat → Nat → Nat → BitVec 8

/-- The gates that an operative gate list without entries opens (R353). A free value. -/
opaque emptyGates : BitVec 8

/-- The fixed latencies of the service port between its MAC and its reference plane, in ns (R359): the spec gives no number. -/
opaque svcIngress : BitVec 16
opaque svcEgress : BitVec 16

/-- The class that FAB_FWLAST shows for the RTS engines, which are in none (R243, R246). A free value. -/
opaque engineClass : BitVec 3

/-- The salt drawn for a new password (R173). A free value, used once per value. -/
opaque salt : Nat → BitVec 128

/-- Whether a password is the one with which Garnet is delivered, which the spec does not give. -/
opaque deliveredPassword : List Byte → Bool

/-- The FIR output of a preset over the sinc outputs of its input span (R285): the coefficient sets are not given. A free
value, the same for the same preset and inputs. -/
opaque firOutput : Nat → List Nat → Int

/-- The bounds within 0.1 % of α × 2^48, by preset and corner 0.1, 1, 10 Hz: α = 1 − exp(−2π fc / output rate) (R292). -/
def dcAlphaBounds : List (List (Nat × Nat)) := [
  [(2760597197, 2766123917), (27604752411, 27660017179), (275925607949, 276478011567)],
  [(11042226177, 11064332734), (110402750963, 110623777490), (1102078955850, 1104285320125)],
  [(44166303061, 44254724087), (441350992635, 442234578204), (4382467268484, 4391240976729)],
  [(176623594108, 176977194896), (1761251948105, 1764777978031), (17124299744773, 17158582627143)]]

/-- The α that the module computes, as a free value without its bounds. -/
opaque dcAlphaRaw : Nat → Nat → Nat

/-- α × 2^48 as the module computes it: anywhere within 0.1 % (R292). -/
def dcAlpha (preset corner : Nat) : Nat :=
  let b := (dcAlphaBounds.getD preset []).getD corner (0, 0)
  b.1 + dcAlphaRaw preset corner % (b.2 - b.1 + 1)

/-- Whether a core sets the accessed and dirty bits of a page table entry itself, or raises a page fault for the lack of one: the
RISC-V privileged specification leaves the choice (R223). A free value. -/
opaque pteUpdates : Bool

/-- Whether a quotient whose rounding the spec does not give is rounded up: a free choice by numerator and divisor. -/
opaque roundUp : Int → Nat → Bool

/-- The factory calibration of an internal channel in current mode (R295): gain and offset are not given. Free values. -/
opaque factoryGain : Nat → BitVec 32
opaque factoryOfs : Nat → BitVec 32

/-- The credits that a Cascade link end issues at flow-control initialisation, by port and type (R444). Free values. -/
opaque cscCredits : Nat → Nat → Nat

/-- Bytes of the headers of frames that the module builds itself and that the spec does not give (R366, R380): type of
service, identification and time to live of IPv4, the UDP source port, and the session fields of message data. Free values,
by frame and byte. -/
opaque wireByte : Nat → Nat → BitVec 8

/-- The receive error counter after a good frame while it was above 127 (R394): ISO 11898-1 lets it be any value from 119 to
127. A free value, as a distance from 119. -/
opaque canRec : Nat → Nat

/-- A byte that a device reads of another module, or of a register block, where its bytes are no state of this model (R430,
R455). A free value, by use and place. -/
opaque farByte : Nat → Nat → BitVec 8

/-- Where the working copy and the record of a TRDP entry lie in the engine's working area (R367, R370), which the spec does not
give. Free values, by entry. -/
opaque trdpCopyOfs : Nat → Nat
opaque trdpRecOfs : Nat → Nat

/-- Where Docent loads the firmware in DDR, what of a Docent image its run-time part is, and where boot state and that part lie in
the boot-state part of MRAM (R498, R509, R521), none of which the spec gives. Free values. -/
opaque firmwareAt : Nat
opaque docentPart : List Byte → List Byte
opaque bootPlace : Nat → Nat

/-- The CRC-32 that a Walira frame arrived with where it is wrong (R313), by clock and frame. A free value. -/
opaque walCrcIn : Nat → List Byte → BitVec 32

/-- The input power in units of 0.01 W that PWR_PIN shows at a time (R550, R576), which nothing in the spec computes. A free
value. -/
opaque inputPower : Nat → BitVec 16

/-- The largest body of a Docent image or a boot configuration (R506), which the spec does not give. A free value. -/
opaque imageLimit : Nat → Nat

/-- Whether an AMO whose link went down while it waited for its lock had been answered with LOCK_RETRY (R443). A free value. -/
opaque lockRetried : Nat → Bool

/-- How many posted writes the link partner had not acknowledged when a link went down (R444). A free value, used once. -/
opaque cscUnacked : Nat → Nat

/-- What a register write that is a command leaves to its row (assumption 35): the staged change that it arms, the nonces, whether
the store takes an image and whether its read-back verifies, and how many bytes a copy of Courier had written when its channel
was disabled. Free values, each used once. -/
opaque stagedChange : Nat → ChangePackage
opaque nonce : Nat → BitVec 64 × BitVec 64
opaque storeTakes : Nat → Bool
opaque storeVerifies : Nat → Bool
opaque crrWritten : Nat → Nat

end Sys2Proof.Config
end

