-- ==== Sys2Proof/Machine/State.lean ====
section
/-! DEFINITION. The state of the module as plain data: the register file, the memory, the counts of module time, and the
queues, timers and working copies of each block. -/

namespace Sys2Proof.Machine

/-- Why a command stops the machine. -/
inductive Fault where
  /-- An operand lies outside what the command can carry (`Instr.wf` is false): no such command exists at the module.
  Raised by the meanings of the rows that `Instr.wf` restricts. Safe: the machine stops. -/
  | illFormed
  deriving DecidableEq, Repr

/-- Why a command has no meaning. -/
inductive Refusal where
  /-- The row has no meaning in this model yet. Raised by `exec` alone. Safe: the machine stops. -/
  | notModelled (mnemonic : String)
  deriving DecidableEq, Repr

/-- A bit field of a register: the word's address, the lowest bit and the width (R16). -/
structure Field where
  addr : Nat
  lo : Nat
  len : Nat
  deriving DecidableEq, Repr

/-- A table of like things by number, sparse and in one canonical form: numbers rising, no entry equal to `default`. -/
abbrev Tab (α : Type) := List (Nat × α)

/-- Exceptions that the module raises in a core (R27, R93, R117, R227, R239, R246), and the one that its own Sv39 translation
raises (R223). -/
inductive CoreExc where
  | illegalInstruction
  | accessFault
  | storePageFault
  deriving DecidableEq, Repr

/-- What the module answered to the last access: a status code of R581, an exception in the requesting core, the value
read, or the result register of VSYNC and VFENCE. -/
structure Resp where
  status : Nat := 0
  exc : Option CoreExc := none
  data : Nat := 0
  deriving DecidableEq, Repr, Inhabited

/-- Time (R50, R53, R63 to R71). `clock` is the time since power-up on the module's own oscillator; `edgeAt` is the MT
of the next beat edge; `freq` and `phase` are the parts of the rate correction that apply now, `freqNext` and
`phaseNext` those that apply from the next edge (R63); `gained` is the offset closed since TIM_REFOFS was measured, in
ns × 65,536,000,000 (R68). -/
structure TimeSt where
  mt : Nat := 0
  mono : Nat := 0
  beat : Nat := 0
  beatSeq : Nat := 0
  clock : Nat := 0
  edgeAt : Nat := 250000
  edgeStart : Nat := 0
  freq : Int := 0
  phase : Int := 0
  freqNext : Int := 0
  phaseNext : Int := 0
  gained : Int := 0
  refPresent : Bool := false
  grandmaster : Nat := 0
  refusedFor : Option Nat := none
  firstLockDone : Bool := false
  lockStart : Option Nat := none
  lockOver : Bool := false
  ppsLock : Bool := false
  ppsLast : Option Nat := none
  ppsOutUntil : Option Nat := none
  deriving DecidableEq, Repr

/-- An entry of a transmit timestamp queue (R74). -/
structure TsEntry where
  tag : Nat
  seq : Nat
  ts : Nat
  deriving DecidableEq, Repr

/-- A transmit timestamp queue (R73 to R75). -/
structure TsQueue where
  entries : List TsEntry := []
  nextSeq : Nat := 0
  deriving DecidableEq, Repr, Inhabited

/-- Inventory snapshots (R82 to R86): the pending table and what each shadow bank holds, by counter index. -/
structure InvSt where
  pending : List (Nat × Nat) := []
  bank0 : Tab Nat := []
  bank1 : Tab Nat := []
  lastBank : Option Nat := none
  deriving DecidableEq, Repr

/-- A PMP entry as the spec describes it (R125): first byte and the byte after the last, read, write, execute, locked. -/
structure PmpEntry where
  lo : Nat
  hi : Nat
  r : Bool
  w : Bool
  x : Bool
  locked : Bool
  deriving DecidableEq, Repr

/-- TC on Loan as R125 starts it: in machine mode, with its registers, the first two of its PMP entries preset and locked, the
others free (`none`), and the loan window. -/
structure LoanCore where
  machine : Bool
  regs : LaneRegs
  pmp : List (Option PmpEntry)
  windowLo : Nat
  windowHi : Nat
  deriving DecidableEq, Repr

/-- What kind of item the boundary sample register holds (R94). -/
inductive BoundaryKind where
  | readResponse
  | interrupt
  | time
  | garnet
  | result
  deriving DecidableEq, Repr

/-- An item as captured at the boundary (R94): its value, with a status for a read response. -/
structure BoundaryItem where
  kind : BoundaryKind
  data : Nat
  status : Nat
  deriving DecidableEq, Repr

/-- What is local to a Triad lane (R90, R95): its registers as of its last VSYNC, its outbound queue, the lines in its L1
caches as (line, bytes), oldest first, and whether its branch predictors hold anything. -/
structure LaneSt where
  regs : LaneRegs := {}
  queue : List Txn := []
  l1d : List (Nat × List Byte) := []
  l1i : List (Nat × List Byte) := []
  predicts : Bool := false
  deriving DecidableEq, Repr, Inhabited

/-- The Triad (R90 to R128): the lanes, the dissents of the last hour as (lane, MONO), the item in the boundary sample register
and what each lane took of it, the VSYNC of the beat, the VFENCE in progress, the first error that a target acknowledged since the last one, the VFENCEs that have
timed out, the reintegration in progress as (lane, MONO at
its edge, Loan return), the Loan requests with the MONO at which they reached the block, and whether a Loan has lost its
backing. -/
structure TriadSt where
  lanes : Tab LaneSt := []
  dissents : List (Nat × Nat) := []
  retireDue : List Nat := []
  txnIndex : Nat := 0
  sample : Option BoundaryItem := none
  laneIn : Tab (Option BoundaryItem) := []
  loadFault : Bool := false
  reservation : Option Nat := none
  vsyncDone : Bool := false
  vfenceAt : Option Nat := none
  vfenceRd : Nat := 0
  ackErr : Option Nat := none
  vfEra : Nat := 0
  reint : Option (Nat × Nat × Bool) := none
  reintEdge : Nat := 0
  loanReqAt : Option Nat := none
  loanEnd : Option (Nat × Nat) := none
  loanReturnDue : Bool := false
  loanLost : Bool := false
  tcFailed : Bool := false
  loanTc : Option LoanCore := none
  irq : List Nat := []
  deriving DecidableEq, Repr

/-- A request waiting in the fabric (R247, R248): `cls` is the class it is granted in. -/
structure FabWait where
  req : FabReq
  cls : Nat
  deriving DecidableEq, Repr

/-- An application core (R223, R226): the address at which it last started, its mode, and its Sv39 translation. -/
structure AppCore where
  pc : Nat := 0
  mode : CoreMode := .machine
  satp : BitVec 64 := 0
  deriving DecidableEq, Repr, Inhabited

/-- What a core does only once an earlier load of it has been performed (R231, R232, R238): a store, a FENCE, a pop read. -/
inductive Parked where
  | store (addr : Nat) (bytes : List Byte)
  | fence
  | pop (q : PopQueue) (reg : Nat) (wide : Bool)
  deriving DecidableEq, Repr

/-- Application cores and fabric (R222 to R249): store buffers of R231 as (address, bytes); what waits for a load of its core,
in program order (R232); for the lines that a pair may still hold only in its L1, the bytes they replaced, as (core, address,
byte) (R225); dirty lines with an uncorrectable error (R227); the fabric's requests, and the Courier channels in the order in
which they last had a turn (R400); and the writes of devices to register words that take effect at the next edge, by class. -/
structure AppSt where
  storeBuf : Tab (List (Nat × List Byte)) := []
  parked : List (Nat × Parked) := []
  l1Undo : List (Nat × Nat × Byte) := []
  badLines : List Nat := []
  waits : List FabWait := []
  granted : Option Nat := none
  turns : List Nat := []
  devRegs : List (Cls × Nat × List Byte) := []
  cores : Tab AppCore := []
  rgnEff : List (Nat × Word) := []
  deriving DecidableEq, Repr

/-- A descriptor that has been taken and not completed (R40): status and lateness once it has ended. -/
structure TxPend where
  desc : Nat
  ended : Option (Nat × Nat)
  deriving DecidableEq, Repr

/-- The state of one descriptor ring (R38 to R41): next slot the device consumes, tail, the place and phase of the next
completion, and on a transmit ring the taken descriptors whose completions are not written, in the order posted. -/
structure RingSt where
  head : Nat := 0
  tail : Nat := 0
  cidx : Nat := 0
  cphase : Bool := true
  pend : List TxPend := []
  deriving DecidableEq, Repr, Inhabited

/-- A staged change of a catalogue entry (R33, R34): its index, the BEATSEQ of its edge, and the bytes once read. -/
structure CatStage where
  idx : Nat
  target : Nat
  data : Option (List Byte)
  deriving DecidableEq, Repr

/-- A catalogue (R31 to R36): whether it is in use and with how many entries, the working copy, the staged changes, the
edge of an enable with the entries still to be read and those read, and whether a disable waits for its edge. -/
structure CatSt where
  inUse : Bool := false
  count : Nat := 0
  working : Tab (List Byte) := []
  staged : List CatStage := []
  enabling : Option Nat := none
  toRead : List Nat := []
  gotten : Tab (List Byte) := []
  disabling : Bool := false
  deriving DecidableEq, Repr, Inhabited

/-- A record of the Archive (R449, R458). `origSeq`, `origCrc` and `origLen` are those of the first record of its chain. -/
structure ArcRec where
  pos : Nat
  src : Nat
  code : Nat
  sev : Nat
  cont : Bool
  rep : Nat
  seq : Nat
  lastDt : Nat
  mt : Nat
  payload : List Byte
  deriving DecidableEq, Repr

/-- A pop read in flight with what it returned and, of the Archive, which record that is; and those that wait for it (R241,
R242, R466). -/
structure PopSt where
  inFlight : Option Requester := none
  data : Nat := 0
  record : Option ArcRec := none
  waiting : List Requester := []
  deriving DecidableEq, Repr, Inhabited

/-- A staging unit of the Archive (R459, R463): the records of one collection, or held occurrences (`holds`). `since` is
the clock at which it was opened, `used` its bytes in use, `placed` the records placed in it since the last reset. -/
structure ArcUnit where
  id : Nat
  coll : Nat
  since : Nat
  holds : Bool
  recs : List ArcRec
  used : Nat
  placed : Nat
  deriving DecidableEq, Repr

/-- The last record of a source since reset (R456), with the original of its chain (R458) and the last merge (R457). -/
structure ArcLast where
  coll : Nat
  pos : Nat
  code : Nat
  sev : Nat
  len : Nat
  crc : Nat
  origSeq : Nat
  seq : Nat
  mt : Nat
  rep : Nat
  lastDt : Nat
  deriving DecidableEq, Repr

/-- The Archive (R447 to R468): the event ports' queues, the sources' next SEQ, the stored records of each collection and the
bytes that removals have freed in it, less what has committed beyond its units, the staging units in the order in which they were opened, the held occurrences in
arrival order with their unit, the units whose commit is due in order and the one whose commit runs, the last record of each
source, the seals' starts on MONO, the occurrences of ended seals that wait for a unit, with whether the ledger counts them,
and whether staging was carried through a reset. -/
structure ArcSt where
  ports : Tab (List Occurrence) := []
  seqs : Tab Nat := []
  store : Tab (List ArcRec) := []
  freed : Tab Int := []
  units : List ArcUnit := []
  held : List (Nat × Occurrence) := []
  nextUnit : Nat := 0
  dueOrder : List Nat := []
  committing : Option Nat := none
  last : Tab (Option ArcLast) := []
  sealAt : Tab Nat := []
  releasing : List (Bool × Occurrence) := []
  carry : Bool := false
  deriving DecidableEq, Repr

/-- A Provenance record that PRV has taken (R538), with the clock at which it was staged. -/
structure PrvStored where
  seq : Nat
  flags : Nat
  lcState : Nat
  takenAt : Nat
  body : PrvRec
  deriving DecidableEq, Repr

/-- Provenance (R537 to R542): the port queue, and the staged and the committed records in SEQ order. -/
structure PrvSt where
  port : List PrvRec := []
  staged : List PrvStored := []
  stored : List PrvStored := []
  deriving DecidableEq, Repr

/-- Readings of the far Custody wire (R473). -/
inductive FarWire where
  | released | claimed | stuckHigh | stuckLow | openWire | short
  deriving DecidableEq, Repr

/-- The voltage bands of a Custody wire (R473). -/
inductive WireBand where
  | released | high | low | openWire | short
  deriving DecidableEq, Repr

/-- A claim of custody in progress (R475): the clock at which the wire went HIGH, whether it began from STUCK, whether it is a
cold takeover (R487), and for one at start-up the clock at which negotiation started (R477). -/
structure Claim where
  startAt : Nat
  stuck : Bool
  cold : Bool
  boot : Option Nat
  deriving DecidableEq, Repr

/-- A replicated line as it was received: number, bytes, BEAT, and the place of its record in the staging area. Lines are
area × 2^28 + index (R482). -/
structure RplLine where
  line : Nat
  bytes : List Byte
  beat : Nat
  slot : Nat
  deriving DecidableEq, Repr

/-- Redundant pair (R471 to R492): the own wire; the reading of the far wire, the band of its level since a clock and the last
band that held; the claim and the negotiation; what is known of the partner, with the packages it confirmed by clock; the
snapshot in progress, dirty lines and walker lines apart, with its beat, MONO and wraps; the clock since which the far wire reads
RELEASED or STUCK; the frames sent last and their sequence number; the walkers; the staged
lines; the planned switch-over; and the resumption that waits for its edge as (clock of custody, cold). -/
structure RplSt where
  driving : Bool := false
  level : Bool := false
  latched : Bool := false
  claim : Option Claim := none
  begunStuck : Bool := false
  negotiating : Option Nat := none
  goodSince : Nat := 0
  farSince : Option Nat := none
  reading : FarWire := .released
  band : Option WireBand := none
  bandAt : Nat := 0
  took : Option WireBand := none
  partnerFault : Bool := false
  linkSeen : Bool := false
  peer : Option Peer := none
  ackWorked : Bool := false
  lastAck : Option Nat := none
  ackPkgs : List (Nat × Nat) := []
  ackSent : Bool := false
  peerElig : Bool := false
  peerMode : Nat := 0
  mismatch : Bool := false
  peerProg : Option Nat := none
  resume : Option (Nat × Bool) := none
  snapMonoFar : Nat := 0
  snapMonoOwn : Nat := 0
  dirty : List Nat := []
  snap : List Nat := []
  walk : List Nat := []
  captured : List (Nat × List Byte) := []
  snapVoid : Bool := false
  snapOpen : Bool := false
  snapBeat : Nat := 0
  snapMono : Nat := 0
  snapWraps : Nat := 0
  fseq : Nat := 0
  wire : List (List Byte) := []
  mainPos : Nat := 0
  sidePos : Nat := 0
  staged : List RplLine := []
  stagedFrames : Nat := 0
  gotMain : Bool := false
  gotSide : Bool := false
  passFrom : Option Nat := none
  handover : Option Nat := none
  handoverRun : Bool := false
  duoTried : Bool := false
  wasElig : Bool := false
  noTakeoverSaid : Bool := false
  deriving DecidableEq, Repr

/-- What the switch knows of a frame: ingress port and time, classification, stream handle and tags (R349, R356, R359). -/
structure RxMeta where
  inPort : Nat
  ts : Nat
  vid : Nat
  pcp : Nat
  stream : Nat
  tagged : Bool
  rtag : Bool
  deriving DecidableEq, Repr

/-- Where a queued frame comes from: another port, the descriptor of a transmit ring, a publication, an announcement. -/
inductive TxOrigin where
  | switched
  | ring (r desc : Nat)
  | trdp (host entry : Nat)
  | announce
  deriving DecidableEq, Repr

/-- A frame in an egress queue (R352, R360): its bytes without FCS, the clock at which it was queued, its launch time and
tolerance, the tag of a requested timestamp, its origin, and its lateness and the clock of its start once it is on the wire
(R78, R421). -/
structure EthQ where
  bytes : List Byte
  since : Nat
  launch : Option Nat
  tol : Nat
  tsTag : Option Nat
  origin : TxOrigin
  rx : RxMeta
  late : Nat := 0
  sentAt : Nat := 0
  deriving DecidableEq, Repr

/-- A learnt address (R350) with the clock of its last traffic. -/
structure FdbEnt where
  mac : Nat
  vid : Nat
  port : Nat
  seenAt : Nat
  deriving DecidableEq, Repr

/-- A flow meter's two buckets in bits × 1,000,000, and the clock of their last fill (R357). -/
structure MeterSt where
  ready : Bool := false
  ctok : Nat := 0
  etok : Nat := 0
  lastAt : Nat := 0
  deriving DecidableEq, Repr, Inhabited

/-- A vector recovery function (R358): whether it has taken a frame, the newest number, and the history as a bit mask. -/
structure FrerSt where
  started : Bool := false
  newest : Nat := 0
  hist : Nat := 0
  lastAt : Nat := 0
  deriving DecidableEq, Repr, Inhabited

/-- A gate list in operation (R353, R355): running entry and the MT at which its interval began, the cycle exponent, and a
pending commit as (bank, CTEXP, MT of its cycle start). -/
structure GclSt where
  idx : Nat := 0
  startMt : Nat := 0
  ctexp : Nat := 0
  pend : Option (Nat × Nat × Nat) := none
  deriving DecidableEq, Repr, Inhabited

/-- The Ethernet switch (R346 to R365): egress queues by port × 8 + queue, the frame on each wire, learnt addresses,
meters, sequence generation and recovery, gate lists, and the link of the service port. Queue 88 holds the frames that the service port received for ring 17; `engine` the frames that wait in the TRDP
engine for processing, by host (R366, R373). -/
structure EthSt where
  svcUp : Bool := false
  queues : Tab (List EthQ) := []
  sending : Tab (Option EthQ) := []
  fdb : List FdbEnt := []
  meters : Tab MeterSt := []
  frerSeq : Tab Nat := []
  frer : Tab FrerSt := []
  gcl : Tab GclSt := []
  engine : Tab (List EthQ) := []
  deriving DecidableEq, Repr

/-- A data record with its supervision (R370, R375, R388, R389), shared by TRDP, MVB, CAN and SER: `hits` deliveries in
the running beat, `lastSeq` and `actSeq` the BEATSEQ of the last delivery and of activation, `relSeq` that of the last due
instant, `pubSeq` the next sequence counter, and `sent` the dataset of the last due instant. -/
structure DataRec where
  valid : Bool := false
  timeout : Bool := false
  fresh : Bool := false
  count : Nat := 0
  rlen : Nat := 0
  seq : Option Nat := none
  rxmt : Nat := 0
  age : Nat := 0
  data : List Byte := []
  hits : Nat := 0
  lastSeq : Option Nat := none
  actSeq : Nat := 0
  relSeq : Option Nat := none
  pubSeq : Nat := 0
  sent : List Byte := []
  deriving DecidableEq, Repr, Inhabited

/-- A queued frame of a serial bus (R390, R392): block index, controller, its catalogue entry or ring descriptor, its
bytes and identifier, and the MT from which it may start. -/
structure SerTx where
  blk : Nat
  unit : Nat
  entry : Option Nat
  desc : Nat
  data : List Byte
  ident : Nat
  launch : Nat
  cust : Bool
  started : Bool
  deriving DecidableEq, Repr

/-- TRDP and the serial buses: data records by block × 65536 + entry, the serial frames queued, the consecutive good and bad
copies of each MVB line (R385), the controllers enabled at the last edge as a mask by block (R387), and the clock from which
each SER line has been idle (R390, R395), and the clock until which each SER port has driven its line (R395). -/
structure BusSt where
  recs : Tab DataRec := []
  queue : List SerTx := []
  mvbBad : Tab Nat := []
  mvbGood : Tab Nat := []
  seenOn : Tab Nat := []
  idleFrom : Tab Nat := []
  driven : Tab Nat := []
  deriving DecidableEq, Repr

/-- Where the module is in its start-up sequence (R509). -/
inductive BootPhase where
  | off
  | lbist
  | rom
  | docent
  | executive
  | firmware
  | conservator
  deriving DecidableEq, Repr

/-- A signed image (R505): its header of 256 bytes, the public key of 97 bytes, and the body. -/
structure Image where
  header : List Byte
  key : List Byte
  body : List Byte
  deriving DecidableEq, Repr

/-- A verified image as it is stored (R505, R520). -/
structure Stored where
  image : Image
  age : Nat
  deriving DecidableEq, Repr

/-- What a life-cycle command does when it completes (R500 to R527, R545); a write knows the SHA-256 of what it replaces. -/
inductive LcsAct where
  | nothing
  | transition (src dst slot : Nat)
  | revoke (slot : Nat)
  | firmware (img : Image) (old : Nat)
  | docent (copy : Nat) (img : Image) (old : Nat)
  | bootCfg (copy : Nat) (img : Image) (old : Nat)
  | commit
  | restart
  deriving DecidableEq, Repr

/-- A life-cycle command in progress (R500, R521): its number, the result it will show, what it does when it completes,
and the nonce that is drawn then. -/
structure LcsBusy where
  cmd : Nat
  result : Nat
  act : LcsAct
  nonce : Option (Nat × Nat)
  deriving DecidableEq, Repr

/-- An accepted transition that waits for its edge (R501), with the MONO of its command's completion. -/
structure LcsTrans where
  src : Nat
  dst : Nat
  slot : Nat
  at_ : Nat
  deriving DecidableEq, Repr

/-- The summary of a Conservator session (R529): the cause of the entry, the kind written, the result and the SHA-384 of the image. -/
structure CvSummary where
  cause : Nat
  kind : Nat
  result : Nat
  hash : Nat
  deriving DecidableEq, Repr

/-- Start-up, life-cycle and update (R497 to R528): boot state, the stores with their write order, the fuses, the
SHA-384 hashes of the key slots, the running
firmware, the command in progress, the accepted transitions that wait for their edge, oldest first, the clock at which step 3
of the start ended, and what boot state keeps of Conservator mode. -/
structure LcsSt where
  phase : BootPhase := .lbist
  startOnlyFail : Bool := false
  classMismatch : Bool := false
  bootCfg0 : Option Stored := none
  bootCfg1 : Option Stored := none
  docent0 : Option Stored := none
  docent1 : Option Stored := none
  docentNext : Nat := 0
  firmware : Option Stored := none
  running : Option Image := none
  storeOrder : Nat := 0
  writing : Bool := false
  mfgFuse : Bool := false
  retiredFuse : Bool := false
  keyHash : Tab Nat := []
  fwCommitted : Bool := false
  oldCopy : Option (Nat × List Host.Cell) := none
  busy : Option LcsBusy := none
  transition : List LcsTrans := []
  runAt : Nat := 0
  tamperLatch : Bool := false
  started : Bool := false
  ipConservator : Nat := 0xA9FE4D01
  cvCause : Option Nat := none
  cvSummary : List CvSummary := []
  deriving DecidableEq, Repr

/-- A response of Conservator mode (R531, R532): type, session, sequence number, offset, status and payload. -/
structure CvResp where
  type : Nat
  session : Nat
  seq : Nat
  offset : Nat
  status : Nat
  payload : List Byte
  deriving DecidableEq, Repr

/-- Conservator mode (R529 to R535): the open session with its source, the last request and its response, the image being
collected, whether it is being checked and written, whether a RESET has been accepted, and the last message that was sent,
with its destination. -/
structure CvSt where
  session : Option (Nat × Nat) := none
  lastAt : Nat := 0
  lastSeq : Option Nat := none
  lastResp : Option CvResp := none
  kind : Option Nat := none
  total : Nat := 0
  expected : Nat := 0
  data : List Byte := []
  working : Bool := false
  result : Option Nat := none
  resetDue : Bool := false
  sent : Option (Nat × List Byte) := none
  deriving DecidableEq, Repr

/-- A brake test that runs (R152, R153): the clock at its start, the clock at which "applied" was seen, and whether it has
been aborted. -/
structure GarTest where
  start : Nat
  applied : Option Nat
  aborted : Bool
  deriving DecidableEq, Repr

/-- A safe output pair of Garnet (R148 to R160, R167), with clocks: whether both switches are commanded closed, the next
off-pulse test and its second half, the pulse in progress (high side?), the feedback awaited ("applied"?), the start of a
hold, the brake test, the last permit edge with the good intervals since, and the operating time from which BTDUE runs. -/
structure GarPair where
  closed : Bool := false
  opNext : Nat := 0
  opLow : Option Nat := none
  pulse : Option (Bool × Nat) := none
  feedback : Option (Bool × Nat) := none
  hold : Option Nat := none
  test : Option GarTest := none
  lastEdge : Option Nat := none
  good : Nat := 0
  btBase : Option Nat := none
  deriving DecidableEq, Repr, Inhabited

/-- What an instance remembers (R143 to R145): whether a restart acknowledgement is awaited, when the first hand was actuated
and whether both must be released, and since when a sequence is implausible. -/
structure GarInst where
  needAck : Bool := true
  handAt : Option Nat := none
  handsBlocked : Bool := true
  implSince : Option Nat := none
  deriving DecidableEq, Repr, Inhabited

/-- Garnet and its interface (R132 to R179): its store and operating time, inputs, instances and pairs, the global causes
that have cleared, the permit and brake-test writes that wait with their BEATSEQ, and the configuration session. Of a
channel's test pulses it keeps the bad and the good periods in a row, and whether the running period is good (1) or bad
(2). -/
structure GarSt where
  powered : Bool := true
  opAcc : Nat := 0
  powerAt : Nat := 0
  active : Option (List Byte) := none
  pending : Option (List Byte) := none
  chunks : List Nat := []
  pendAt : Nat := 0
  discSince : Tab (Option Nat) := []
  tpBad : Tab Nat := []
  tpGood : Tab Nat := []
  tpNow : Tab Nat := []
  pairs : Tab GarPair := []
  insts : Tab GarInst := []
  clearable : Nat := 0
  diffCycles : Nat := 0
  staged : List (Nat × Nat) := []
  brkReq : List (Nat × Nat) := []
  toggled : Nat := 0
  midDone : Bool := false
  session : Option (Nat × Nat) := none
  fails : Nat := 0
  blockUntil : Option Nat := none
  password : Option (Nat × BitVec 256) := none
  logSeq : Nat := 0
  busy : Option (Nat × Nat) := none
  deriving DecidableEq, Repr

/-- A task of the runtime (R180 to R198): the BEATSEQ of its last release, and the one from which EDGES counts where R181 starts
afresh; REL_MONO, REL_MT and CYCLE; whether the cycle runs, is ready, has begun to execute, waits for its deadline with or
without an accepted RTS_DONE; and the marks of its next header. -/
structure RtsTask where
  rel : Option Nat := none
  relWas : Option Int := none
  relMono : Nat := 0
  relMt : Nat := 0
  cycle : Nat := 0
  running : Bool := false
  ready : Bool := false
  begun : Bool := false
  judged : Bool := true
  accepted : Bool := false
  late : Bool := false
  first : Bool := false
  warm : Bool := false
  changed : Bool := false
  mid : Bool := false
  skips : Nat := 0
  deriving DecidableEq, Repr, Inhabited

/-- An armed online change (R207): the package, the affected tasks, and the MONO of the arm write. -/
structure RtsChange where
  pkg : ChangePackage
  affected : List Nat
  at_ : Nat
  deriving DecidableEq, Repr

/-- The runtime (R180 to R221): tasks, what the destinations hold by block × 65536 + entry, the forces in effect by index
as the 32 bytes of their entry, those that a module reset ended and the next start logs, the force updates that wait with the
BEATSEQ of their edge, the armed change, the task that executes, the function-block instances that the program declares, the
BEATSEQ of the edge at which the last stretched beat ended, and whether every cycle since the start was clean. -/
structure RtsSt where
  tasks : Tab RtsTask := []
  outs : Tab (List Byte) := []
  forces : Tab (List Byte) := []
  endedForces : Tab (List Byte) := []
  forcePend : List (Nat × Nat) := []
  change : Option RtsChange := none
  exec : Option Nat := none
  decls : List FbDecl := []
  stretchSeq : Option Nat := none
  clean : Bool := true
  deriving DecidableEq, Repr

/-- A field channel's isolated side and checks (R257 to R275). Configuration: mode, OLD_EN, FAIL = HOLD, DEBOUNCE, WDT,
HOLDT. Input: anti-glitch level, band of the supervised network (4 between bands), the clock since which it holds, the
filtered state, SUPGAP, the MT of the last change. Output: latch, clock of the last refresh, fail state with its clock,
opened, entered the fail state in this beat. Diagnoses: shut down, current limit, OPEN_LOAD, SHORT_VF, the last result with
its clock. Crossing: the coupler shows a valid pattern, CPLFAULT, consecutive disagreements, XCHK running and shown. -/
structure FioCh where
  mode : Nat := 0
  oldEn : Bool := false
  hold : Bool := false
  deb : Nat := 0
  wdt : Nat := 0
  holdt : Nat := 0
  level : Bool := false
  net : Nat := 4
  since : Nat := 0
  filt : Nat := 0
  supgap : Bool := false
  chgMt : Nat := 0
  latch : Bool := false
  refAt : Option Nat := none
  failAt : Option Nat := none
  opened : Bool := false
  failedNow : Bool := false
  therm : Bool := false
  curlim : Bool := false
  openLoad : Bool := false
  shortVf : Bool := false
  lastDiag : Nat := 0
  diagAt : Option Nat := none
  cplOk : Bool := true
  cplHeld : Option Bool := none
  cplFault : Bool := false
  dis : Nat := 0
  xchk : Bool := false
  xchkShown : Bool := false
  cfgErr : Bool := false
  lost : Bool := false
  deriving DecidableEq, Repr, Inhabited

/-- A group of field channels (R255, R263, R266, R267): VF in 0.1 V, its outputs off after an overload since a clock; the
refresh index, whether its instant was a beat edge, the states in the outbound and the inbound frame on their way, and for the
frames of the last beat edge its MT with the commanded states before it and the filtered states at it; the directions in which
the running refresh gave a valid frame, and the consecutive bad refreshes in each direction and good ones in both. -/
structure FioGrp where
  vf : Int := 0
  ovlOff : Bool := false
  ovlAt : Nat := 0
  started : Bool := false
  index : Nat := 0
  atEdge : Bool := false
  outStates : Option Nat := none
  inStates : Option Nat := none
  edgeFrame : Option (Nat × Nat × Nat) := none
  gotIn : Bool := false
  gotOut : Bool := false
  badIn : Nat := 0
  badOut : Nat := 0
  good : Nat := 0
  deriving DecidableEq, Repr, Inhabited

/-- Field I/O (R252 to R277): channels, groups, and the entries that took effect while the logic side was in reset (R274). -/
structure FioSt where
  ch : Tab FioCh := []
  grp : Tab FioGrp := []
  missed : List Nat := []
  deriving DecidableEq, Repr

/-- An output of a measurement channel (R286, R295 to R300): timestamp, value, flags, its number in MEAS_PRODUCED, the MT
from which an edge delivers it, and the ring it goes to as (base, log2 of the size). -/
structure MeasOut where
  ts : Nat
  value : Int
  flags : Nat
  num : Nat
  due : Nat
  ring : Option (Nat × Nat)
  deriving DecidableEq, Repr

/-- A measurement channel (R278 to R300): enabled, preset, current mode, the run's start with the next output's number; the
sinc stage's four integrators and four comb delays, its recent outputs newest first with their count; the DC estimate in
output units × 2^16, the sum of outputs 0 to 7, whether the recursion already goes on; the working entries and the freezes
by the MT from which they apply, newest first; outputs ready and not delivered, the frozen output and the last batch. -/
structure MeasCh where
  en : Bool := false
  preset : Nat := 0
  mode : Nat := 0
  run : Option Nat := none
  j : Nat := 0
  integ : List Nat := [0, 0, 0, 0]
  comb : List Nat := [0, 0, 0, 0]
  sincs : List Nat := []
  sincN : Nat := 0
  est : Int := 0
  sum : Int := 0
  recur : Bool := false
  confs : List (Nat × List Byte) := []
  frz : List (Nat × Bool) := []
  ready : List MeasOut := []
  frozen : Option MeasOut := none
  batch : List MeasOut := []
  cfgErr : Bool := false
  deriving DecidableEq, Repr, Inhabited

/-- The measurement chain (R279, R294, R302 to R307): channels, the armed instant, the requested SYNCs as (instant, source),
the clock of the last SYNC_IN edge, the instant of the last SYNC, the clock until which SYNC_OUT is high, MEAS_FREEZE writes
that wait with the BEATSEQ of their edge and the bits in effect, and whether MCLK has ever been locked. -/
structure MeasSt where
  ch : Tab MeasCh := []
  armed : Option Nat := none
  syncs : List (Nat × Nat) := []
  lastPin : Option Nat := none
  lastSync : Option Nat := none
  syncOutUntil : Option Nat := none
  frzPend : List (Nat × Nat) := []
  frzNow : Nat := 0
  wasLocked : Bool := false
  deriving DecidableEq, Repr

/-- A cold-start frame in the contention window (R330): rank, position, cycle, on the node's own grid, own frame. -/
structure WalCs where
  rank : Nat
  pos : Nat
  cycle : Nat
  onGrid : Bool
  own : Bool
  deriving DecidableEq, Repr

/-- A frame on its way through the node (R313, R322): the port it arrives on, its bytes as they leave the other port, the
clocks of its start and end and of its end limit, and whether it leaves with a transmit error. -/
structure WalFwd where
  port : Nat
  wire : List Byte
  start : Nat
  until_ : Nat
  limit : Nat
  bad : Bool
  crcOk : Bool
  deriving DecidableEq, Repr

/-- A Walira channel (R313 to R333): the clock of the last frame start heard or of entry into LISTEN or BACKOFF; the
contention window with the frames in it; a leader's c0 and whether another node was heard in the second cycle; consecutive
consistent cycles, the edges that end no whole cycle since INTEGRATE, and whether the running cycle is consistent; sync
deviations as (position, ns, NT); good cycles in PASSIVE; cycles without a frame or a sync frame; the running cycle's
membership; the ports that the guardian blocks in this cycle and the next; the rest of a cycle ended by a step; the leader's
position; the entry in transmission, with the clock of the own frame's end; UPDLY by position; the clock of the last
cold-start frame; the last own frame as sent, and whether it ended with a transmit error; the frames that pass through. -/
structure WalChan where
  heardAt : Nat := 0
  window : Option Nat := none
  seen : List WalCs := []
  leading : Option Nat := none
  gotOther : Bool := false
  cons : Nat := 0
  skip : Nat := 0
  consNow : Bool := false
  devs : List (Nat × Int × Bool) := []
  passGood : Nat := 0
  noFrame : Nat := 0
  noSync : Nat := 0
  heardNow : Bool := false
  syncNow : Bool := false
  members : Nat := 0
  block : Nat := 0
  blockNext : Nat := 0
  stepped : Bool := false
  leaderPos : Nat := 0
  sending : Option Nat := none
  sendUntil : Nat := 0
  upDly : Tab (Option Nat) := []
  lastCs : Option Nat := none
  wire : List Byte := []
  wireErr : Bool := false
  csSent : Bool := false
  fwd : List WalFwd := []
  deriving DecidableEq, Repr, Inhabited

/-- A Walira entry's data record (R337, R341, R342): the received image, what arrived for the slot in the running cycle, the
latched payload to send, whether the node sent in the slot in the running cycle, whether that frame did not end well, whether
it was aborted for another's, and whether the claim is released. -/
structure WalRec where
  valid : Bool := false
  reason : Nat := 1
  src : Nat := 0
  flags : Nat := 0
  age : Nat := 0
  cycle : Nat := 0
  payload : List Byte := []
  now : Option Nat := none
  nowSrc : Nat := 0
  nowFlags : Nat := 0
  nowCycle : Nat := 0
  nowData : List Byte := []
  tx : List Byte := []
  sent : Bool := false
  aborted : Bool := false
  clashed : Bool := false
  released : Bool := false
  deriving DecidableEq, Repr, Inhabited

/-- Walira (R312 to R345): channels, records, and whether the guard or SPAN was written since the last edge. -/
structure WalSt where
  ch : Tab WalChan := []
  recs : Tab WalRec := []
  recheck : Bool := false
  deriving DecidableEq, Repr

/-- Where a Courier descriptor is (R402 to R410): its read is under way, its data moves, or its read-back is out. -/
inductive CrrStage where
  | fetch
  | move
  | readback
  deriving DecidableEq, Repr

/-- A chain of Courier in progress (R402 to R411): head slot, address of the descriptor to be read or in progress, its 64
bytes, its stage, descriptors taken, the completion status so far, whether one had IRQ, the running check value, the check
configuration of the chain, what a read-back must find as (address, bytes) with the flags and status so far, and the clock
from which the descriptor moves. -/
structure CrrChain where
  slot : Nat
  addr : Nat
  desc : List Byte := []
  stage : CrrStage := .fetch
  taken : Nat := 0
  status : Nat := 0
  irq : Bool := false
  running : Option Nat := none
  cfg : Nat := 0
  poly : Nat := 0
  init : Nat := 0
  expect : List (Nat × List Byte) := []
  flags : Nat := 0
  result : Nat := 0
  movedAt : Nat := 0
  deriving DecidableEq, Repr

/-- Courier (R399 to R418): the chain in progress of each channel, and the completions not popped as (bytes 0 to 7 as the
META word shows them, bytes 8 to 15). -/
structure CrrSt where
  chain : Tab (Option CrrChain) := []
  popq : Tab (List (Nat × Nat)) := []
  deriving DecidableEq, Repr

/-- A read or AMO for another module: its port, its requester, and the bytes it asks for (R433, R434). -/
structure CscAsk where
  port : Nat
  req : Requester
  amo : Bool
  addr : Nat
  len : Nat
  deriving DecidableEq, Repr

/-- One that Cascade has sent and that is open: its tag, and the clock of its sending (R434, R437). -/
structure CscTag where
  ask : CscAsk
  tag : Nat
  at_ : Nat
  deriving DecidableEq, Repr

/-- What a completion brought a Courier channel or the collection of shadows, and its status (R434, R437, R441). -/
structure CscGot where
  req : Requester
  addr : Nat
  status : Nat
  bytes : List Byte
  deriving DecidableEq, Repr

/-- Cascade (R427 to R446): open reads and AMOs, those that wait for a tag, what came for Courier and the collection, the
membership of the next edge, posted transactions sent since each link came up, the credits that this end has consumed by port
and type and the content of its last AUDIT (R444); far AMOs that wait for a lock as (position, requester, address, bytes), the
target whose lock is held; as a target: the holder with the clock of its grant, whether its AMO was accepted, those that wait,
the clock of each position's last request, for each position those to be served before it again, and inbound requests that wait
for the lock, with their port as long as its credits count; Inventory collections that wait as (bank, SNAP_ID). -/
structure CscSt where
  tags : List CscTag := []
  readQ : List CscAsk := []
  got : List CscGot := []
  membersNext : Option Nat := none
  sent : Tab Nat := []
  used : Tab Nat := []
  audits : Tab (List Nat) := []
  amoQ : List (Nat × Requester × Nat × Nat) := []
  lockHeld : Option Nat := none
  lockBy : Option (Nat × Nat) := none
  amoDone : Bool := false
  waiting : List Nat := []
  reqAt : Tab Nat := []
  debt : Tab (List Nat) := []
  inWait : List (Option Nat × CscTxn) := []
  collect : List (Nat × Nat) := []
  deriving DecidableEq, Repr

/-- A doorbell for a unit under test, which acts when the test ends (R517). -/
inductive Deferred where
  | ring (blk : RingBlk) (ring tail : Nat)
  | lpeRestart (mask : Nat)
  | invalidate (blk : CatBlk) (index cls : Nat)
  deriving DecidableEq, Repr

/-- Supply and backup domain (R547 to R556, R574): the clocks at which PFW and NV_STOP were asserted, and whether the
module is held in reset for over-temperature. -/
structure PwrSt where
  pfwAt : Option Nat := none
  nvStopAt : Option Nat := none
  heldHot : Bool := false
  tempSeen : Bool := false
  x1Connected : Bool := true
  bkAt : Nat := 0
  deriving DecidableEq, Repr

/-- What a Loupe unit holds beside its running value (R420, R421): the clock from which it takes units of data, and the units
that have passed in per-unit mode and not ended. -/
structure LpeUnit where
  from_ : Nat := 0
  passed : List (List Byte) := []
  deriving DecidableEq, Repr, Inhabited

/-- `lpe` holds the running value of each enabled Loupe unit (R420 to R422), `steWas` the state that an application pair
under test had before (R516).

The state of the module: the commands that wait, the register file, the memory, the answer to the last access, the
number of the next free value, and each block's own state. -/
structure State where
  pending : List Instr := []
  regs : List (Nat × Word) := []
  mem : List Host.Cell := []
  resp : Resp := {}
  freeCtr : Nat := 0
  time : TimeSt := {}
  tsq : Tab TsQueue := []
  pops : Tab PopSt := []
  inv : InvSt := {}
  triad : TriadSt := {}
  app : AppSt := {}
  rings : Tab RingSt := []
  cats : Tab CatSt := []
  mbox : Tab (List Nat) := []
  arc : ArcSt := {}
  prv : PrvSt := {}
  rpl : RplSt := {}
  eth : EthSt := {}
  bus : BusSt := {}
  gar : GarSt := {}
  rts : RtsSt := {}
  fio : FioSt := {}
  meas : MeasSt := {}
  wal : WalSt := {}
  crr : CrrSt := {}
  lpe : Tab (Option Nat) := []
  lpeUnits : Tab LpeUnit := []
  csc : CscSt := {}
  lcs : LcsSt := {}
  cv : CvSt := {}
  deferred : List Deferred := []
  steWas : Nat := 0
  pwr : PwrSt := {}
  deriving DecidableEq, Repr

/-- The module right after the first reset, at power-up (R45, R52, R498, R556, R579): every register at the value of the
register tables, memory with nothing listed, module time at 0 because the backup domain holds no time, in start-up LBIST and
in the state MANUFACTURE, with two occurrences at the event ports: SYS_RESET with cause 0 and no NV_STOP on record, and
PWR_BACKUP_LOST (DESIGN CHOICE of a first power-up, assumption 3). -/
def State.reset : State :=
  { arc := {
      ports := [(0, [⟨1, 0x0102, 2, 60, 0, [0, 0, 0, 0, 0, 0, 0, 0, 0, 0, 0, 0]⟩]), (22, [⟨23, 0x1708, 3, 59, 0, [0, 0, 0, 0]⟩])]
      carry := true } }

end Sys2Proof.Machine
end

