-- ==== Sys2Proof/Machine/Regs.lean ====
section
/-! DEFINITION. The registers the spec gives the module: the word address of each (block index of R30 times 0x10000,
plus the offset of its block's table), the bit fields of each, and the writable bits of each for REGISTER_WRITE (R17).
Every name is the spec's; an index letter of a name is a parameter. -/

namespace Sys2Proof.Machine

/-! ### Register addresses (R31, R87 to R89, R129, R179, R219 to R220, R250 to R251, R277, R311, R344, R382 to R383,
R397 to R398, R418, R424 to R425, R446, R466, R470, R495, R544 to R546, R576, R578) -/

namespace Reg
abbrev FIO_CATBASE_LO : Nat := 0x70020
abbrev MEAS_CATBASE_LO : Nat := 0x80020
abbrev WAL_CATBASE_LO : Nat := 0x90020
abbrev TRDP_CATBASE_LO : Nat := 0xB0020
abbrev MVB_CATBASE_LO : Nat := 0xC0020
abbrev CAN_CATBASE_LO : Nat := 0xD0020
abbrev SER_CATBASE_LO : Nat := 0xE0020
abbrev FIO_CATBASE_HI : Nat := 0x70024
abbrev MEAS_CATBASE_HI : Nat := 0x80024
abbrev WAL_CATBASE_HI : Nat := 0x90024
abbrev TRDP_CATBASE_HI : Nat := 0xB0024
abbrev MVB_CATBASE_HI : Nat := 0xC0024
abbrev CAN_CATBASE_HI : Nat := 0xD0024
abbrev SER_CATBASE_HI : Nat := 0xE0024
abbrev FIO_CATCOUNT : Nat := 0x70028
abbrev MEAS_CATCOUNT : Nat := 0x80028
abbrev WAL_CATCOUNT : Nat := 0x90028
abbrev TRDP_CATCOUNT : Nat := 0xB0028
abbrev MVB_CATCOUNT : Nat := 0xC0028
abbrev CAN_CATCOUNT : Nat := 0xD0028
abbrev SER_CATCOUNT : Nat := 0xE0028
abbrev FIO_CATCTL : Nat := 0x7002C
abbrev MEAS_CATCTL : Nat := 0x8002C
abbrev WAL_CATCTL : Nat := 0x9002C
abbrev TRDP_CATCTL : Nat := 0xB002C
abbrev MVB_CATCTL : Nat := 0xC002C
abbrev CAN_CATCTL : Nat := 0xD002C
abbrev SER_CATCTL : Nat := 0xE002C
abbrev FIO_CATEDGE : Nat := 0x70030
abbrev MEAS_CATEDGE : Nat := 0x80030
abbrev WAL_CATEDGE : Nat := 0x90030
abbrev TRDP_CATEDGE : Nat := 0xB0030
abbrev MVB_CATEDGE : Nat := 0xC0030
abbrev CAN_CATEDGE : Nat := 0xD0030
abbrev SER_CATEDGE : Nat := 0xE0030
abbrev FIO_CATREFUSED : Nat := 0x70038
abbrev MEAS_CATREFUSED : Nat := 0x80038
abbrev WAL_CATREFUSED : Nat := 0x90038
abbrev TRDP_CATREFUSED : Nat := 0xB0038
abbrev MVB_CATREFUSED : Nat := 0xC0038
abbrev CAN_CATREFUSED : Nat := 0xD0038
abbrev SER_CATREFUSED : Nat := 0xE0038
abbrev FIO_CATERR : Nat := 0x70040
abbrev MEAS_CATERR : Nat := 0x80040
abbrev WAL_CATERR : Nat := 0x90040
abbrev TRDP_CATERR : Nat := 0xB0040
abbrev MVB_CATERR : Nat := 0xC0040
abbrev CAN_CATERR : Nat := 0xD0040
abbrev SER_CATERR : Nat := 0xE0040
abbrev TIM_MT : Nat := 0x10000
abbrev TIM_MONO : Nat := 0x10008
abbrev TIM_BEAT : Nat := 0x10010
abbrev TIM_BEATSEQ : Nat := 0x10018
abbrev TIM_STATUS : Nat := 0x10020
abbrev TIM_FLAGS : Nat := 0x10024
abbrev TIM_CTL : Nat := 0x10028
abbrev TIM_JUMPLIMIT : Nat := 0x1002C
abbrev TIM_REFOFS : Nat := 0x10030
abbrev TIM_RATE : Nat := 0x10038
abbrev TIM_STEPCTL : Nat := 0x1003C
abbrev TIM_LASTSTEP : Nat := 0x10040
abbrev TIM_LASTSTEP_MT : Nat := 0x10048
abbrev TIM_JUMPREFUSED : Nat := 0x10050
abbrev TIM_STEPS : Nat := 0x10058
abbrev TIM_REFLOSS : Nat := 0x10060
abbrev TIM_PPS_SEC : Nat := 0x10068
abbrev TIM_GPTPCFG : Nat := 0x10070
abbrev TIM_TSQREQ (p : Nat) : Nat := 0x10400 + p * 0x20
abbrev TIM_TSQPOP (p : Nat) : Nat := 0x10408 + p * 0x20
abbrev TIM_TSQOVF (p : Nat) : Nat := 0x10410 + p * 0x20
abbrev TIM_TSQDEPTH (p : Nat) : Nat := 0x10418 + p * 0x20
abbrev POP_TSQ_META (p : Nat) : Nat := 0x1A0000 + p * 0x10
abbrev POP_TSQ_TS (p : Nat) : Nat := 0x1A0008 + p * 0x10
abbrev INV_ANN_ID : Nat := 0x180000
abbrev INV_ANN_MT : Nat := 0x180008
abbrev INV_ANN_GO : Nat := 0x180010
abbrev INV_COMID : Nat := 0x180014
abbrev INV_STATUS : Nat := 0x180018
abbrev INV_HOLD : Nat := 0x180020
abbrev INV_ANNRX : Nat := 0x180028
abbrev INV_ANNACCEPT : Nat := 0x180030
abbrev INV_ANNDUP : Nat := 0x180038
abbrev INV_ANNREFUSED : Nat := 0x180040
abbrev INV_CAPTURES : Nat := 0x180048
abbrev INV_CAPREFUSED : Nat := 0x180050
abbrev INV_B_ID (b : Nat) : Nat := 0x180100 + b * 0x20
abbrev INV_B_MT (b : Nat) : Nat := 0x180108 + b * 0x20
abbrev INV_B_SEQ (b : Nat) : Nat := 0x180110 + b * 0x20
abbrev INV_B_INFO (b : Nat) : Nat := 0x180118 + b * 0x20
abbrev INV_B_CNT (b i : Nat) : Nat := 0x181000 + b * 0x6000 + i * 0x8
abbrev TRIAD_STATUS : Nat := 0x20000
abbrev TRIAD_SAFECAUSE : Nat := 0x20004
abbrev TRIAD_SAFEREQ : Nat := 0x20008
abbrev TRIAD_REINT : Nat := 0x2000C
abbrev TRIAD_LOAN : Nat := 0x20010
abbrev TRIAD_LOANSTAT : Nat := 0x20014
abbrev TRIAD_LOANRET : Nat := 0x20018
abbrev TRIAD_LOANCFG : Nat := 0x2001C
abbrev TRIAD_LOANENTRY : Nat := 0x20020
abbrev TRIAD_LOANBASE : Nat := 0x20028
abbrev TRIAD_LOANSIZE : Nat := 0x2002C
abbrev TRIAD_DISWIN : Nat := 0x20030
abbrev TRIAD_PROBESTAT : Nat := 0x20034
abbrev TRIAD_LASTDIS_ADDR : Nat := 0x20040
abbrev TRIAD_LASTDIS_INFO : Nat := 0x20048
abbrev TRIAD_LASTDIS_MT : Nat := 0x20050
abbrev TRIAD_DISSENTS_TA : Nat := 0x20100
abbrev TRIAD_DISSENTS_TB : Nat := 0x20108
abbrev TRIAD_DISSENTS_TC : Nat := 0x20110
abbrev TRIAD_LATENT : Nat := 0x20118
abbrev TRIAD_REINTS : Nat := 0x20120
abbrev TRIAD_PROBES : Nat := 0x20128
abbrev TRIAD_VSYNCS : Nat := 0x20130
abbrev TRIAD_VFERR : Nat := 0x20138
abbrev TRIAD_TXVOTED : Nat := 0x20140
abbrev TRIAD_LOANS : Nat := 0x20148
abbrev TRIAD_LOANFW : Nat := 0x20150
abbrev TRIAD_L1CORR : Nat := 0x20158
abbrev GAR_STATUS : Nat := 0x50000
abbrev GAR_GCAUSE : Nat := 0x50004
abbrev GAR_CFGCHK : Nat := 0x50008
abbrev GAR_PENDCHK : Nat := 0x5000C
abbrev GAR_INPUTS : Nat := 0x50010
abbrev GAR_OUTPUTS : Nat := 0x50014
abbrev GAR_PERMSTAT : Nat := 0x50018
abbrev GAR_INST (i : Nat) : Nat := 0x50020 + i * 0x4
abbrev GAR_PERMIT : Nat := 0x50040
abbrev GAR_WITHDRAW : Nat := 0x50044
abbrev GAR_ACK : Nat := 0x50048
abbrev GAR_BRKTEST : Nat := 0x5004C
abbrev GAR_BRKRES : Nat := 0x50050
abbrev GAR_BRKMS (x : Nat) : Nat := 0x50060 + x * 0x4
abbrev GAR_COND : Nat := 0x50070
abbrev GAR_CFGCMD : Nat := 0x50080
abbrev GAR_CFGRES : Nat := 0x50084
abbrev GAR_PERMWR : Nat := 0x50100
abbrev GAR_PERMACC : Nat := 0x50108
abbrev GAR_PERMREFUSED : Nat := 0x50110
abbrev GAR_PERMLOSS : Nat := 0x50118
abbrev GAR_LOCKOUTS : Nat := 0x50120
abbrev GAR_RESETS : Nat := 0x50128
abbrev GAR_RSTREJ : Nat := 0x50130
abbrev GAR_RSTREFUSED : Nat := 0x50138
abbrev GAR_HOLDS : Nat := 0x50140
abbrev GAR_OFFPULSES : Nat := 0x50148
abbrev GAR_BRKTESTS : Nat := 0x50150
abbrev GAR_AUTHFAIL : Nat := 0x50158
abbrev GAR_CFGWIN : Nat := 0x51000
abbrev GAR_LOG (e : Nat) : Nat := 0x52000 + e * 0x40
abbrev RTS_STATE : Nat := 0x60000
abbrev RTS_POLICY : Nat := 0x60004
abbrev RTS_IMGBASE_LO : Nat := 0x60008
abbrev RTS_IMGBASE_HI : Nat := 0x6000C
abbrev RTS_TABSEL : Nat := 0x60010
abbrev RTS_RELEASED : Nat := 0x60014
abbrev RTS_BUSY : Nat := 0x60018
abbrev RTS_STOPPED : Nat := 0x6001C
abbrev RTS_PROGID : Nat := 0x60020
abbrev RTS_DONE : Nat := 0x60028
abbrev RTS_OCCTL : Nat := 0x6002C
abbrev RTS_OCTARGET : Nat := 0x60030
abbrev RTS_OCSTAT : Nat := 0x60038
abbrev RTS_OCBEAT : Nat := 0x6003C
abbrev RTS_FORCEUPD : Nat := 0x60040
abbrev RTS_FORCESTAT : Nat := 0x60044
abbrev RTS_DONEREFUSED : Nat := 0x60048
abbrev RTS_IMGERR : Nat := 0x60050
abbrev RTS_CHANGES : Nat := 0x60058
abbrev RTS_FORCEREFUSED : Nat := 0x60060
abbrev RTS_FORCEREMOVED : Nat := 0x60068
abbrev RTS_RELEASES (t : Nat) : Nat := 0x60100 + t * 0x40
abbrev RTS_COMMITS (t : Nat) : Nat := 0x60108 + t * 0x40
abbrev RTS_LATE (t : Nat) : Nat := 0x60110 + t * 0x40
abbrev RTS_OVERRUNS (t : Nat) : Nat := 0x60118 + t * 0x40
abbrev RTS_SKIPS (t : Nat) : Nat := 0x60120 + t * 0x40
abbrev RTS_CONSEC (t : Nat) : Nat := 0x60128 + t * 0x40
abbrev APC_PAIRCFG : Nat := 0x30000
abbrev APC_PAIRSTAT : Nat := 0x30004
abbrev APC_RESTART : Nat := 0x30008
abbrev APC_RESETVEC (c : Nat) : Nat := 0x30040 + c * 0x8
abbrev APC_MISMATCH (p : Nat) : Nat := 0x30100 + p * 0x10
abbrev APC_LASTMIS (p : Nat) : Nat := 0x30108 + p * 0x10
abbrev APC_RESTARTS (c : Nat) : Nat := 0x30180 + c * 0x8
abbrev APC_L1CORR : Nat := 0x301C0
abbrev APC_L2CORR : Nat := 0x301C8
abbrev APC_ECCUNCORR : Nat := 0x301D0
abbrev FAB_AGE : Nat := 0x40000
abbrev FAB_FWLAST_ADDR : Nat := 0x40010
abbrev FAB_FWLAST_INFO : Nat := 0x40018
abbrev FAB_FWREFUSED : Nat := 0x40020
abbrev FAB_PROMOTED : Nat := 0x40028
abbrev FAB_MAXWAIT : Nat := 0x40030
abbrev FAB_GRANTS_C (c : Nat) : Nat := 0x40040 + c * 0x8
abbrev FAB_FWWR (i : Nat) : Nat := 0x40100 + i * 0x4
abbrev FAB_RGN_BASE (r : Nat) : Nat := 0x40400 + r * 0x20
abbrev FAB_RGN_SIZE (r : Nat) : Nat := 0x40408 + r * 0x20
abbrev FAB_RGN_ATTR (r : Nat) : Nat := 0x4040C + r * 0x20
abbrev FAB_RGN_MASK (r : Nat) : Nat := 0x40410 + r * 0x20
abbrev FIO_CLASS : Nat := 0x70000
abbrev FIO_EVCOLL : Nat := 0x70004
abbrev FIO_GSTAT (g : Nat) : Nat := 0x70008 + g * 0x4
abbrev FIO_CFGINVALID : Nat := 0x70050
abbrev FIO_CHSTAT (c : Nat) : Nat := 0x70100 + c * 0x4
abbrev FIO_TRIPS (c : Nat) : Nat := 0x70200 + c * 0x20
abbrev FIO_XDIS (c : Nat) : Nat := 0x70208 + c * 0x20
abbrev FIO_WDEXP (c : Nat) : Nat := 0x70210 + c * 0x20
abbrev FIO_CHG (c : Nat) : Nat := 0x70218 + c * 0x20
abbrev FIO_SERRX (g : Nat) : Nat := 0x70800 + g * 0x40
abbrev FIO_SEROK (g : Nat) : Nat := 0x70808 + g * 0x40
abbrev FIO_SERCRC (g : Nat) : Nat := 0x70810 + g * 0x40
abbrev FIO_SERSEQ (g : Nat) : Nat := 0x70818 + g * 0x40
abbrev FIO_SEROCRC (g : Nat) : Nat := 0x70820 + g * 0x40
abbrev FIO_SERLOSS (g : Nat) : Nat := 0x70828 + g * 0x40
abbrev FIO_OVLTRIP (g : Nat) : Nat := 0x70830 + g * 0x40
abbrev FIO_REVERSALS (g : Nat) : Nat := 0x70838 + g * 0x40
abbrev MEAS_STATUS : Nat := 0x80000
abbrev MEAS_SYNCCTL : Nat := 0x80004
abbrev MEAS_SYNCCMD : Nat := 0x80008
abbrev MEAS_FREEZE : Nat := 0x8000C
abbrev MEAS_EVCOLL : Nat := 0x80010
abbrev MEAS_SYNCAT : Nat := 0x80018
abbrev MEAS_ANCHOR : Nat := 0x80050
abbrev MEAS_SYNCS : Nat := 0x80058
abbrev MEAS_SYNCIGN : Nat := 0x80060
abbrev MEAS_SYNCMISSED : Nat := 0x80068
abbrev MEAS_PLLLOSS : Nat := 0x80070
abbrev MEAS_CFGINVALID : Nat := 0x80078
abbrev MEAS_CHSTAT (m : Nat) : Nat := 0x80100 + m * 0x4
abbrev MEAS_DCEST (m : Nat) : Nat := 0x80200 + m * 0x4
abbrev MEAS_FCALGAIN (m : Nat) : Nat := 0x802C0 + m * 0x8
abbrev MEAS_FCALOFS (m : Nat) : Nat := 0x802C4 + m * 0x8
abbrev MEAS_PRODUCED (m : Nat) : Nat := 0x80400 + m * 0x40
abbrev MEAS_WRITTEN (m : Nat) : Nat := 0x80408 + m * 0x40
abbrev MEAS_RINGRD (m : Nat) : Nat := 0x80410 + m * 0x40
abbrev MEAS_RINGOVF (m : Nat) : Nat := 0x80418 + m * 0x40
abbrev MEAS_RDERR (m : Nat) : Nat := 0x80420 + m * 0x40
abbrev MEAS_CLIPS (m : Nat) : Nat := 0x80428 + m * 0x40
abbrev MEAS_SATS (m : Nat) : Nat := 0x80430 + m * 0x40
abbrev WAL_STATUS : Nat := 0x90000
abbrev WAL_CTL : Nat := 0x90004
abbrev WAL_NODECFG : Nat := 0x90008
abbrev WAL_SCHEDID : Nat := 0x9000C
abbrev WAL_SCHEDCHK : Nat := 0x90010
abbrev WAL_GUARD : Nat := 0x90014
abbrev WAL_SPAN : Nat := 0x90018
abbrev WAL_EVCOLL : Nat := 0x9001C
abbrev WAL_MEMBER (c : Nat) : Nat := 0x90050 + c * 0x4
abbrev WAL_CORR (c : Nat) : Nat := 0x90058 + c * 0x4
abbrev WAL_LINKDLY (x : Nat) : Nat := 0x90060 + x * 0x4
abbrev WAL_LINKNOM : Nat := 0x90070
abbrev WAL_RXFRAMES (c : Nat) : Nat := 0x90100 + c * 0x100
abbrev WAL_DELIVERED (c : Nat) : Nat := 0x90108 + c * 0x100
abbrev WAL_FWDONLY (c : Nat) : Nat := 0x90110 + c * 0x100
abbrev WAL_CRCERR (c : Nat) : Nat := 0x90118 + c * 0x100
abbrev WAL_HDRERR (c : Nat) : Nat := 0x90120 + c * 0x100
abbrev WAL_OOW (c : Nat) : Nat := 0x90128 + c * 0x100
abbrev WAL_ABORTED (c : Nat) : Nat := 0x90130 + c * 0x100
abbrev WAL_CONFLICT (c : Nat) : Nat := 0x90138 + c * 0x100
abbrev WAL_NOTACTIVE (c : Nat) : Nat := 0x90140 + c * 0x100
abbrev WAL_CSFRAMES (c : Nat) : Nat := 0x90148 + c * 0x100
abbrev WAL_TXFRAMES (c : Nat) : Nat := 0x90150 + c * 0x100
abbrev WAL_TXCUT (c : Nat) : Nat := 0x90158 + c * 0x100
abbrev WAL_FWDCUT (c : Nat) : Nat := 0x90160 + c * 0x100
abbrev WAL_COLDSTARTS (c : Nat) : Nat := 0x90168 + c * 0x100
abbrev WAL_BACKOFFS (c : Nat) : Nat := 0x90170 + c * 0x100
abbrev WAL_INTEGRATIONS (c : Nat) : Nat := 0x90178 + c * 0x100
abbrev WAL_PASSIVES (c : Nat) : Nat := 0x90180 + c * 0x100
abbrev WAL_GUARDCLK (c : Nat) : Nat := 0x90188 + c * 0x100
abbrev WAL_NOSYNC (c : Nat) : Nat := 0x90190 + c * 0x100
abbrev WAL_SLOTSTAT (e : Nat) : Nat := 0x90400 + e * 0x4
abbrev ETH_AGETIME : Nat := 0xA0000
abbrev ETH_EVCOLL : Nat := 0xA0004
abbrev ETH_MAC (h : Nat) : Nat := 0xA0008 + h * 0x8
abbrev ETH_DBERR : Nat := 0xA0060
abbrev ETH_PORTCFG (p : Nat) : Nat := 0xA0100 + p * 0x10
abbrev ETH_PORTSTAT (p : Nat) : Nat := 0xA0104 + p * 0x10
abbrev ETH_LAT (p : Nat) : Nat := 0xA0108 + p * 0x10
abbrev ETH_RBASE (r : Nat) : Nat := 0xA0200 + r * 0x30
abbrev ETH_RCBASE (r : Nat) : Nat := 0xA0208 + r * 0x30
abbrev ETH_RCTL (r : Nat) : Nat := 0xA0210 + r * 0x30
abbrev ETH_LTTOL (r : Nat) : Nat := 0xA0214 + r * 0x30
abbrev ETH_RPOSTED (r : Nat) : Nat := 0xA0218 + r * 0x30
abbrev ETH_RCOMPL (r : Nat) : Nat := 0xA0220 + r * 0x30
abbrev ETH_RXFRAMES (p : Nat) : Nat := 0xA1000 + p * 0x100
abbrev ETH_RXDELIV (p : Nat) : Nat := 0xA1008 + p * 0x100
abbrev ETH_RXDROP (p r : Nat) : Nat := 0xA1008 + p * 0x100 + r * 0x8
abbrev ETH_TXOFFERED (p : Nat) : Nat := 0xA1080 + p * 0x100
abbrev ETH_TXSENT (p : Nat) : Nat := 0xA1088 + p * 0x100
abbrev ETH_TXDROP (p r : Nat) : Nat := 0xA1088 + p * 0x100 + r * 0x8
abbrev ETH_TXLATE (p : Nat) : Nat := 0xA10B8 + p * 0x100
abbrev ETH_SF (i : Nat) : Nat := 0xA2000 + i * 0x10
abbrev ETH_FM (i : Nat) : Nat := 0xA3000 + i * 0x10
abbrev ETH_FRER (i : Nat) : Nat := 0xA3800 + i * 0x10
abbrev ETH_VLAN (v : Nat) : Nat := 0xA4000 + v * 0x4
abbrev ETH_GCL (p b e : Nat) : Nat := 0xA8000 + p * 0x800 + b * 0x400 + e * 0x8
abbrev ETH_GCLCTL (p : Nat) : Nat := 0xAC000 + p * 0x10
abbrev ETH_FDBS (i : Nat) : Nat := 0xAD000 + i * 0x10
abbrev TRDP_STATUS : Nat := 0xB0000
abbrev TRDP_HOSTIP (h : Nat) : Nat := 0xB0004 + h * 0x4
abbrev TRDP_LTTOL : Nat := 0xB000C
abbrev TRDP_INVGRP : Nat := 0xB0010
abbrev TRDP_INVCFG : Nat := 0xB0014
abbrev TRDP_EVCOLL : Nat := 0xB0018
abbrev TRDP_WORKBASE : Nat := 0xB0050
abbrev TRDP_RXTEL (h : Nat) : Nat := 0xB0100 + h * 0x80
abbrev TRDP_DELIV (h : Nat) : Nat := 0xB0108 + h * 0x80
abbrev TRDP_INVRX (h : Nat) : Nat := 0xB0110 + h * 0x80
abbrev TRDP_RXDROP (h r : Nat) : Nat := 0xB0110 + h * 0x80 + r * 0x8
abbrev TRDP_PUBDUE (h : Nat) : Nat := 0xB0200 + h * 0x40
abbrev TRDP_PUBOFFERED (h : Nat) : Nat := 0xB0208 + h * 0x40
abbrev TRDP_PUBNOCUST (h : Nat) : Nat := 0xB0210 + h * 0x40
abbrev TRDP_PUBMISSED (h : Nat) : Nat := 0xB0218 + h * 0x40
abbrev TRDP_PUBLATE (h : Nat) : Nat := 0xB0220 + h * 0x40
abbrev TRDP_PUBTORN (h : Nat) : Nat := 0xB0228 + h * 0x40
abbrev TRDP_TIMEOUTS (h : Nat) : Nat := 0xB0230 + h * 0x40
abbrev TRDP_ENTSTAT (e : Nat) : Nat := 0xB4000 + e * 0x4
abbrev MVB_EVCOLL : Nat := 0xC0004
abbrev CAN_EVCOLL : Nat := 0xD0004
abbrev SER_EVCOLL : Nat := 0xE0004
abbrev MVB_DBERR : Nat := 0xC0008
abbrev CAN_DBERR : Nat := 0xD0008
abbrev SER_DBERR : Nat := 0xE0008
abbrev MVB_RXFRAMES (u : Nat) : Nat := 0xC0100 + u * 0x100
abbrev CAN_RXFRAMES (u : Nat) : Nat := 0xD0100 + u * 0x100
abbrev SER_RXFRAMES (u : Nat) : Nat := 0xE0100 + u * 0x100
abbrev MVB_DELIV (u : Nat) : Nat := 0xC0108 + u * 0x100
abbrev CAN_DELIV (u : Nat) : Nat := 0xD0108 + u * 0x100
abbrev SER_DELIV (u : Nat) : Nat := 0xE0108 + u * 0x100
abbrev MVB_RXDROP (u r : Nat) : Nat := 0xC0108 + u * 0x100 + r * 0x8
abbrev CAN_RXDROP (u r : Nat) : Nat := 0xD0108 + u * 0x100 + r * 0x8
abbrev SER_RXDROP (u r : Nat) : Nat := 0xE0108 + u * 0x100 + r * 0x8
abbrev MVB_TXOFFERED (u : Nat) : Nat := 0xC0140 + u * 0x100
abbrev CAN_TXOFFERED (u : Nat) : Nat := 0xD0140 + u * 0x100
abbrev SER_TXOFFERED (u : Nat) : Nat := 0xE0140 + u * 0x100
abbrev MVB_TXSENT (u : Nat) : Nat := 0xC0148 + u * 0x100
abbrev CAN_TXSENT (u : Nat) : Nat := 0xD0148 + u * 0x100
abbrev SER_TXSENT (u : Nat) : Nat := 0xE0148 + u * 0x100
abbrev MVB_TXDROP (u r : Nat) : Nat := 0xC0148 + u * 0x100 + r * 0x8
abbrev CAN_TXDROP (u r : Nat) : Nat := 0xD0148 + u * 0x100 + r * 0x8
abbrev SER_TXDROP (u r : Nat) : Nat := 0xE0148 + u * 0x100 + r * 0x8
abbrev MVB_TXNOCUST (u : Nat) : Nat := 0xC0160 + u * 0x100
abbrev CAN_TXNOCUST (u : Nat) : Nat := 0xD0160 + u * 0x100
abbrev SER_TXNOCUST (u : Nat) : Nat := 0xE0160 + u * 0x100
abbrev MVB_TIMEOUTS (u : Nat) : Nat := 0xC0168 + u * 0x100
abbrev CAN_TIMEOUTS (u : Nat) : Nat := 0xD0168 + u * 0x100
abbrev SER_TIMEOUTS (u : Nat) : Nat := 0xE0168 + u * 0x100
abbrev MVB_RBASE (q : Nat) : Nat := 0xC0800 + q * 0x30
abbrev CAN_RBASE (q : Nat) : Nat := 0xD0800 + q * 0x30
abbrev SER_RBASE (q : Nat) : Nat := 0xE0800 + q * 0x30
abbrev MVB_RCBASE (q : Nat) : Nat := 0xC0808 + q * 0x30
abbrev CAN_RCBASE (q : Nat) : Nat := 0xD0808 + q * 0x30
abbrev SER_RCBASE (q : Nat) : Nat := 0xE0808 + q * 0x30
abbrev MVB_RCTL (q : Nat) : Nat := 0xC0810 + q * 0x30
abbrev CAN_RCTL (q : Nat) : Nat := 0xD0810 + q * 0x30
abbrev SER_RCTL (q : Nat) : Nat := 0xE0810 + q * 0x30
abbrev MVB_RPOSTED (q : Nat) : Nat := 0xC0818 + q * 0x30
abbrev CAN_RPOSTED (q : Nat) : Nat := 0xD0818 + q * 0x30
abbrev SER_RPOSTED (q : Nat) : Nat := 0xE0818 + q * 0x30
abbrev MVB_RCOMPL (q : Nat) : Nat := 0xC0820 + q * 0x30
abbrev CAN_RCOMPL (q : Nat) : Nat := 0xD0820 + q * 0x30
abbrev SER_RCOMPL (q : Nat) : Nat := 0xE0820 + q * 0x30
abbrev MVB_ENTSTAT (e : Nat) : Nat := 0xC2000 + e * 0x4
abbrev CAN_ENTSTAT (e : Nat) : Nat := 0xD2000 + e * 0x4
abbrev SER_ENTSTAT (e : Nat) : Nat := 0xE2000 + e * 0x4
abbrev MVB_CFG : Nat := 0xC0010
abbrev MVB_LINESTAT : Nat := 0xC0014
abbrev MVB_LINEERR (x : Nat) : Nat := 0xC0060 + x * 0x8
abbrev MVB_LINESWITCH : Nat := 0xC0070
abbrev CAN_CTL (u : Nat) : Nat := 0xD0060 + u * 0x10
abbrev CAN_NBT (u : Nat) : Nat := 0xD0064 + u * 0x10
abbrev CAN_DBT (u : Nat) : Nat := 0xD0068 + u * 0x10
abbrev CAN_ERR (u : Nat) : Nat := 0xD006C + u * 0x10
abbrev CAN_BUSOFF (u : Nat) : Nat := 0xD0170 + u * 0x100
abbrev CAN_ERRFRAMES (u : Nat) : Nat := 0xD0178 + u * 0x100
abbrev SER_CFG (u : Nat) : Nat := 0xE0060 + u * 0x10
abbrev SER_BAUD (u : Nat) : Nat := 0xE0064 + u * 0x10
abbrev POP_CRR_META (c : Nat) : Nat := 0x1A0100 + c * 0x10
abbrev POP_CRR_INFO (c : Nat) : Nat := 0x1A0108 + c * 0x10
abbrev CRR_BUSY : Nat := 0xF0000
abbrev CRR_DBERR : Nat := 0xF0008
abbrev CRR_RBASE (c : Nat) : Nat := 0xF0100 + c * 0x40
abbrev CRR_RCBASE (c : Nat) : Nat := 0xF0108 + c * 0x40
abbrev CRR_RCTL (c : Nat) : Nat := 0xF0110 + c * 0x40
abbrev CRR_CFG (c : Nat) : Nat := 0xF0114 + c * 0x40
abbrev CRR_CHSTAT (c : Nat) : Nat := 0xF0118 + c * 0x40
abbrev CRR_RPOSTED (c : Nat) : Nat := 0xF0120 + c * 0x40
abbrev CRR_RCOMPL (c : Nat) : Nat := 0xF0128 + c * 0x40
abbrev CRR_CPOP (c : Nat) : Nat := 0xF0130 + c * 0x40
abbrev CRR_DESCS (c : Nat) : Nat := 0xF0138 + c * 0x40
abbrev CRR_CHKPOLY (c : Nat) : Nat := 0xF0600 + c * 0x20
abbrev CRR_CHKINIT (c : Nat) : Nat := 0xF0608 + c * 0x20
abbrev CRR_CHKCFG (c : Nat) : Nat := 0xF0610 + c * 0x20
abbrev CRR_WBS (c : Nat) : Nat := 0xF0A00 + c * 0x10
abbrev CRR_ERRS (c : Nat) : Nat := 0xF0A08 + c * 0x10
abbrev LPE_CFG (u : Nat) : Nat := 0x100100 + u * 0x80
abbrev LPE_POLY (u : Nat) : Nat := 0x100108 + u * 0x80
abbrev LPE_INIT (u : Nat) : Nat := 0x100110 + u * 0x80
abbrev LPE_WINBASE (u : Nat) : Nat := 0x100118 + u * 0x80
abbrev LPE_WINLEN (u : Nat) : Nat := 0x100120 + u * 0x80
abbrev LPE_SKIPSPAN (u : Nat) : Nat := 0x100128 + u * 0x80
abbrev LPE_RES (u : Nat) : Nat := 0x100130 + u * 0x80
abbrev LPE_LAST (u : Nat) : Nat := 0x100138 + u * 0x80
abbrev LPE_UNITS (u : Nat) : Nat := 0x100140 + u * 0x80
abbrev LPE_BYTES (u : Nat) : Nat := 0x100148 + u * 0x80
abbrev CSC_STATUS : Nat := 0x110000
abbrev CSC_MEMBERS : Nat := 0x110004
abbrev CSC_CTL : Nat := 0x110008
abbrev CSC_RDTIMEOUT : Nat := 0x11000C
abbrev CSC_INVBASE : Nat := 0x110010
abbrev CSC_INVDONE : Nat := 0x110018
abbrev CSC_EVCOLL : Nat := 0x11001C
abbrev CSC_LOCKS : Nat := 0x110020
abbrev CSC_LOCKRETRY : Nat := 0x110028
abbrev CSC_LOCKWD : Nat := 0x110030
abbrev CSC_INPWREF : Nat := 0x110038
abbrev CSC_LINK (d : Nat) : Nat := 0x110100 + d * 0x200
abbrev CSC_TXPW (d : Nat) : Nat := 0x110108 + d * 0x200
abbrev CSC_RXPW (d : Nat) : Nat := 0x110110 + d * 0x200
abbrev CSC_TXNP (d : Nat) : Nat := 0x110118 + d * 0x200
abbrev CSC_TXCPL (d : Nat) : Nat := 0x110120 + d * 0x200
abbrev CSC_RDTO (d : Nat) : Nat := 0x110128 + d * 0x200
abbrev CSC_LATECPL (d : Nat) : Nat := 0x110130 + d * 0x200
abbrev CSC_RETRAIN (d : Nat) : Nat := 0x110138 + d * 0x200
abbrev CSC_CREDERR (d : Nat) : Nat := 0x110140 + d * 0x200
abbrev CSC_PWLOST (d : Nat) : Nat := 0x110148 + d * 0x200
abbrev CSC_RXCPL (d : Nat) : Nat := 0x110150 + d * 0x200
abbrev CSC_CREDISS (d k : Nat) : Nat := 0x110180 + d * 0x200 + k * 0x18
abbrev CSC_CREDRET (d k : Nat) : Nat := 0x110188 + d * 0x200 + k * 0x18
abbrev CSC_CREDHELD (d k : Nat) : Nat := 0x110190 + d * 0x200 + k * 0x18
abbrev POP_ARC_NEXT : Nat := 0x1A1000
abbrev POP_ARC_POS : Nat := 0x1A1008
abbrev POP_ARC_REC : Nat := 0x1A2000
abbrev ARC_STATUS : Nat := 0x120000
abbrev ARC_COMMITAGE : Nat := 0x120004
abbrev ARC_SEALLIM : Nat := 0x120008
abbrev ARC_ERASE : Nat := 0x12000C
abbrev ARC_SEAL : Nat := 0x120010
abbrev ARC_UNSEAL : Nat := 0x120018
abbrev ARC_RDCOLL : Nat := 0x120020
abbrev ARC_RDPOS : Nat := 0x120028
abbrev ARC_DBERR : Nat := 0x120030
abbrev ARC_BADDESC : Nat := 0x120038
abbrev ARC_RBASE (q : Nat) : Nat := 0x120100 + q * 0x40
abbrev ARC_RCBASE (q : Nat) : Nat := 0x120108 + q * 0x40
abbrev ARC_RCTL (q : Nat) : Nat := 0x120110 + q * 0x40
abbrev ARC_RSRC (q : Nat) : Nat := 0x120114 + q * 0x40
abbrev ARC_RPOSTED (q : Nat) : Nat := 0x120118 + q * 0x40
abbrev ARC_RCOMPL (q : Nat) : Nat := 0x120120 + q * 0x40
abbrev ARC_CCFG (k : Nat) : Nat := 0x121000 + k * 0x80
abbrev ARC_CSTAT (k : Nat) : Nat := 0x121004 + k * 0x80
abbrev ARC_OLDEST (k : Nat) : Nat := 0x121008 + k * 0x80
abbrev ARC_NEXTPOS (k : Nat) : Nat := 0x121010 + k * 0x80
abbrev ARC_SEALPOS (k : Nat) : Nat := 0x121018 + k * 0x80
abbrev ARC_OFFERED (k : Nat) : Nat := 0x121020 + k * 0x80
abbrev ARC_RECORDED (k : Nat) : Nat := 0x121028 + k * 0x80
abbrev ARC_MERGED (k : Nat) : Nat := 0x121030 + k * 0x80
abbrev ARC_REFUSED (k : Nat) : Nat := 0x121038 + k * 0x80
abbrev ARC_STAGED (k : Nat) : Nat := 0x121040 + k * 0x80
abbrev ARC_CARRIED (k : Nat) : Nat := 0x121048 + k * 0x80
abbrev ARC_REMOVED (k : Nat) : Nat := 0x121050 + k * 0x80
abbrev RPL_STATUS : Nat := 0x130000
abbrev RPL_CFG : Nat := 0x130004
abbrev RPL_CTL : Nat := 0x130008
abbrev RPL_HOSTAT : Nat := 0x13000C
abbrev RPL_HOTARGET : Nat := 0x130010
abbrev RPL_PKGID : Nat := 0x130018
abbrev RPL_PEERPKG : Nat := 0x13001C
abbrev RPL_STAGEBASE : Nat := 0x130020
abbrev RPL_LASTBEAT : Nat := 0x130028
abbrev RPL_MONOOFS : Nat := 0x130030
abbrev RPL_TAKEOVER_MT : Nat := 0x130038
abbrev RPL_CLAIMS : Nat := 0x130100
abbrev RPL_CLAIMLOST : Nat := 0x130108
abbrev RPL_TAKEOVERS : Nat := 0x130110
abbrev RPL_HANDOVERS : Nat := 0x130118
abbrev RPL_RELEASES : Nat := 0x130120
abbrev RPL_BLOCKS : Nat := 0x130128
abbrev RPL_BEHINDS : Nat := 0x130130
abbrev RPL_RESYNCS : Nat := 0x130138
abbrev RPL_TXFRAMES : Nat := 0x130140
abbrev RPL_RXFRAMES : Nat := 0x130148
abbrev RPL_RXAPPLIED : Nat := 0x130150
abbrev RPL_RXCRC : Nat := 0x130158
abbrev RPL_RXVOID : Nat := 0x130160
abbrev RPL_MARKERS : Nat := 0x130168
abbrev RPL_COWFULL : Nat := 0x130170
abbrev STE_STATUS : Nat := 0x140000
abbrev STE_REQ : Nat := 0x140004
abbrev STE_RESULT : Nat := 0x140008
abbrev STE_SIG : Nat := 0x140010
abbrev STE_STARTFAIL : Nat := 0x140018
abbrev STE_STARTMS : Nat := 0x14001C
abbrev STE_TESTS : Nat := 0x140020
abbrev STE_FAILS : Nat := 0x140028
abbrev STE_REFUSED : Nat := 0x140030
abbrev STE_BLOCKEDACC : Nat := 0x140038
abbrev STE_FAILMAP (i : Nat) : Nat := 0x140100 + i * 0x4
abbrev LCS_STATE : Nat := 0x150000
abbrev LCS_CMD : Nat := 0x150004
abbrev LCS_CMDRES : Nat := 0x150008
abbrev LCS_NONCE_LO : Nat := 0x150010
abbrev LCS_NONCE_HI : Nat := 0x150018
abbrev LCS_SRCADDR : Nat := 0x150020
abbrev LCS_SRCLEN : Nat := 0x150028
abbrev LCS_KEYS : Nat := 0x15002C
abbrev LCS_BOOTINFO : Nat := 0x150030
abbrev LCS_FWVER : Nat := 0x150034
abbrev LCS_ROLLBACK : Nat := 0x150038
abbrev LCS_FMT : Nat := 0x15003C
abbrev LCS_SERIAL : Nat := 0x150040
abbrev LCS_TRANSITIONS : Nat := 0x150048
abbrev LCS_CMDREFUSED : Nat := 0x150050
abbrev LCS_IMAGES : Nat := 0x150058
abbrev LCS_CVENTRIES : Nat := 0x150060
abbrev LCS_TOKWIN : Nat := 0x151000
abbrev PRV_STATUS : Nat := 0x170000
abbrev PRV_NEXTSEQ : Nat := 0x170008
abbrev PRV_OLDEST : Nat := 0x170010
abbrev PRV_RDSEQ : Nat := 0x170018
abbrev PRV_OFFERED : Nat := 0x170020
abbrev PRV_RECORDS : Nat := 0x170028
abbrev PRV_REFUSED : Nat := 0x170030
abbrev PRV_LOST : Nat := 0x170038
abbrev PRV_DBERR : Nat := 0x170040
abbrev PRV_RBASE (q : Nat) : Nat := 0x170100 + q * 0x40
abbrev PRV_RCBASE (q : Nat) : Nat := 0x170108 + q * 0x40
abbrev PRV_RCTL (q : Nat) : Nat := 0x170110 + q * 0x40
abbrev PRV_RPOSTED (q : Nat) : Nat := 0x170118 + q * 0x40
abbrev PRV_RCOMPL (q : Nat) : Nat := 0x170120 + q * 0x40
abbrev PRV_RDWIN : Nat := 0x171000
abbrev PWR_STATUS : Nat := 0x160000
abbrev PWR_VIN : Nat := 0x160004
abbrev PWR_VHOLD : Nat := 0x160008
abbrev PWR_VBK : Nat := 0x16000C
abbrev PWR_TEMP : Nat := 0x160010
abbrev PWR_PIN : Nat := 0x160014
abbrev PWR_PFWIRQ : Nat := 0x160018
abbrev PWR_LASTDIP : Nat := 0x16001C
abbrev PWR_LASTNVSTOP : Nat := 0x160020
abbrev PWR_BKCOUNT : Nat := 0x160028
abbrev PWR_PFWS : Nat := 0x160030
abbrev PWR_PFWCLEARS : Nat := 0x160038
abbrev PWR_OVDISCS : Nat := 0x160040
abbrev PWR_TEMPWARNS : Nat := 0x160048
abbrev SYS_IDENT : Nat := 0x00000
abbrev SYS_CAP0 : Nat := 0x00004
abbrev SYS_CAP1 : Nat := 0x00008
abbrev SYS_CAPF : Nat := 0x0000C
abbrev SYS_SERIAL : Nat := 0x00010
abbrev SYS_RESET : Nat := 0x00018
abbrev SYS_PLUG : Nat := 0x0001C
abbrev SYS_NODE : Nat := 0x00020
abbrev SYS_VEHICLE (j : Nat) : Nat := 0x00030 + j * 0x4
abbrev SYS_PLUGMEM : Nat := 0x00100
abbrev SYS_DBERR (i : Nat) : Nat := 0x00400 + i * 0x8
end Reg

/-! ### Register fields, from the same tables -/

namespace Fld
abbrev FIO_CATBASE_LO_BASE_LO : Field := ⟨Reg.FIO_CATBASE_LO, 12, 20⟩
abbrev MEAS_CATBASE_LO_BASE_LO : Field := ⟨Reg.MEAS_CATBASE_LO, 12, 20⟩
abbrev WAL_CATBASE_LO_BASE_LO : Field := ⟨Reg.WAL_CATBASE_LO, 12, 20⟩
abbrev TRDP_CATBASE_LO_BASE_LO : Field := ⟨Reg.TRDP_CATBASE_LO, 12, 20⟩
abbrev MVB_CATBASE_LO_BASE_LO : Field := ⟨Reg.MVB_CATBASE_LO, 12, 20⟩
abbrev CAN_CATBASE_LO_BASE_LO : Field := ⟨Reg.CAN_CATBASE_LO, 12, 20⟩
abbrev SER_CATBASE_LO_BASE_LO : Field := ⟨Reg.SER_CATBASE_LO, 12, 20⟩
abbrev FIO_CATBASE_HI_BASE_HI : Field := ⟨Reg.FIO_CATBASE_HI, 0, 8⟩
abbrev MEAS_CATBASE_HI_BASE_HI : Field := ⟨Reg.MEAS_CATBASE_HI, 0, 8⟩
abbrev WAL_CATBASE_HI_BASE_HI : Field := ⟨Reg.WAL_CATBASE_HI, 0, 8⟩
abbrev TRDP_CATBASE_HI_BASE_HI : Field := ⟨Reg.TRDP_CATBASE_HI, 0, 8⟩
abbrev MVB_CATBASE_HI_BASE_HI : Field := ⟨Reg.MVB_CATBASE_HI, 0, 8⟩
abbrev CAN_CATBASE_HI_BASE_HI : Field := ⟨Reg.CAN_CATBASE_HI, 0, 8⟩
abbrev SER_CATBASE_HI_BASE_HI : Field := ⟨Reg.SER_CATBASE_HI, 0, 8⟩
abbrev FIO_CATCOUNT_COUNT : Field := ⟨Reg.FIO_CATCOUNT, 0, 13⟩
abbrev MEAS_CATCOUNT_COUNT : Field := ⟨Reg.MEAS_CATCOUNT, 0, 13⟩
abbrev WAL_CATCOUNT_COUNT : Field := ⟨Reg.WAL_CATCOUNT, 0, 13⟩
abbrev TRDP_CATCOUNT_COUNT : Field := ⟨Reg.TRDP_CATCOUNT, 0, 13⟩
abbrev MVB_CATCOUNT_COUNT : Field := ⟨Reg.MVB_CATCOUNT, 0, 13⟩
abbrev CAN_CATCOUNT_COUNT : Field := ⟨Reg.CAN_CATCOUNT, 0, 13⟩
abbrev SER_CATCOUNT_COUNT : Field := ⟨Reg.SER_CATCOUNT, 0, 13⟩
abbrev FIO_CATCTL_EN : Field := ⟨Reg.FIO_CATCTL, 0, 1⟩
abbrev MEAS_CATCTL_EN : Field := ⟨Reg.MEAS_CATCTL, 0, 1⟩
abbrev WAL_CATCTL_EN : Field := ⟨Reg.WAL_CATCTL, 0, 1⟩
abbrev TRDP_CATCTL_EN : Field := ⟨Reg.TRDP_CATCTL, 0, 1⟩
abbrev MVB_CATCTL_EN : Field := ⟨Reg.MVB_CATCTL, 0, 1⟩
abbrev CAN_CATCTL_EN : Field := ⟨Reg.CAN_CATCTL, 0, 1⟩
abbrev SER_CATCTL_EN : Field := ⟨Reg.SER_CATCTL, 0, 1⟩
abbrev TIM_STATUS_STRETCH : Field := ⟨Reg.TIM_STATUS, 10, 1⟩
abbrev TIM_STATUS_STEP_PENDING : Field := ⟨Reg.TIM_STATUS, 9, 1⟩
abbrev TIM_STATUS_RTC_VALID : Field := ⟨Reg.TIM_STATUS, 8, 1⟩
abbrev TIM_STATUS_SRC : Field := ⟨Reg.TIM_STATUS, 4, 2⟩
abbrev TIM_STATUS_STATE : Field := ⟨Reg.TIM_STATUS, 0, 3⟩
abbrev TIM_FLAGS_PPS_NO_SEC : Field := ⟨Reg.TIM_FLAGS, 4, 1⟩
abbrev TIM_FLAGS_REF_LOST : Field := ⟨Reg.TIM_FLAGS, 3, 1⟩
abbrev TIM_FLAGS_STEP_APPLIED : Field := ⟨Reg.TIM_FLAGS, 2, 1⟩
abbrev TIM_FLAGS_TIME_JUMP_REFUSED : Field := ⟨Reg.TIM_FLAGS, 1, 1⟩
abbrev TIM_FLAGS_FIRST_LOCK : Field := ⟨Reg.TIM_FLAGS, 0, 1⟩
abbrev TIM_CTL_PPSIN_POL : Field := ⟨Reg.TIM_CTL, 9, 1⟩
abbrev TIM_CTL_PPSOUT_EN : Field := ⟨Reg.TIM_CTL, 8, 1⟩
abbrev TIM_CTL_SLEW : Field := ⟨Reg.TIM_CTL, 4, 1⟩
abbrev TIM_CTL_REFSEL : Field := ⟨Reg.TIM_CTL, 0, 2⟩
abbrev TIM_JUMPLIMIT_LIMIT : Field := ⟨Reg.TIM_JUMPLIMIT, 0, 30⟩
abbrev TIM_STEPCTL_KEY : Field := ⟨Reg.TIM_STEPCTL, 8, 8⟩
abbrev TIM_STEPCTL_ACCEPT : Field := ⟨Reg.TIM_STEPCTL, 0, 1⟩
abbrev TIM_GPTPCFG_GMCAP : Field := ⟨Reg.TIM_GPTPCFG, 16, 1⟩
abbrev TIM_GPTPCFG_PRIO1 : Field := ⟨Reg.TIM_GPTPCFG, 8, 8⟩
abbrev TIM_GPTPCFG_DOMAIN : Field := ⟨Reg.TIM_GPTPCFG, 0, 7⟩
abbrev TIM_TSQDEPTH_DEPTH (p : Nat) : Field := ⟨(Reg.TIM_TSQDEPTH p), 0, 5⟩
abbrev POP_TSQ_META_VALID (p : Nat) : Field := ⟨(Reg.POP_TSQ_META p), 63, 1⟩
abbrev POP_TSQ_META_TAG (p : Nat) : Field := ⟨(Reg.POP_TSQ_META p), 0, 16⟩
abbrev INV_ANN_GO_GO : Field := ⟨Reg.INV_ANN_GO, 0, 1⟩
abbrev INV_STATUS_LAST_REFUSE : Field := ⟨Reg.INV_STATUS, 4, 4⟩
abbrev INV_STATUS_PENDING : Field := ⟨Reg.INV_STATUS, 0, 3⟩
abbrev INV_HOLD_H1 : Field := ⟨Reg.INV_HOLD, 1, 1⟩
abbrev INV_HOLD_H0 : Field := ⟨Reg.INV_HOLD, 0, 1⟩
abbrev INV_B_INFO_STEPPED (b : Nat) : Field := ⟨(Reg.INV_B_INFO b), 8, 1⟩
abbrev INV_B_INFO_STATE (b : Nat) : Field := ⟨(Reg.INV_B_INFO b), 0, 3⟩
abbrev TRIAD_STATUS_REINT_PEND : Field := ⟨Reg.TRIAD_STATUS, 20, 1⟩
abbrev TRIAD_STATUS_RETIRED : Field := ⟨Reg.TRIAD_STATUS, 12, 3⟩
abbrev TRIAD_STATUS_MASKED : Field := ⟨Reg.TRIAD_STATUS, 8, 3⟩
abbrev TRIAD_STATUS_MODE : Field := ⟨Reg.TRIAD_STATUS, 0, 3⟩
abbrev TRIAD_SAFECAUSE_REASON : Field := ⟨Reg.TRIAD_SAFECAUSE, 8, 8⟩
abbrev TRIAD_SAFECAUSE_CAUSE : Field := ⟨Reg.TRIAD_SAFECAUSE, 0, 4⟩
abbrev TRIAD_SAFEREQ_KEY : Field := ⟨Reg.TRIAD_SAFEREQ, 8, 8⟩
abbrev TRIAD_SAFEREQ_REASON : Field := ⟨Reg.TRIAD_SAFEREQ, 0, 8⟩
abbrev TRIAD_REINT_LANE : Field := ⟨Reg.TRIAD_REINT, 0, 2⟩
abbrev TRIAD_LOAN_REQ : Field := ⟨Reg.TRIAD_LOAN, 0, 1⟩
abbrev TRIAD_LOANSTAT_TC_HALTED : Field := ⟨Reg.TRIAD_LOANSTAT, 8, 1⟩
abbrev TRIAD_LOANSTAT_REFUSE : Field := ⟨Reg.TRIAD_LOANSTAT, 0, 3⟩
abbrev TRIAD_LOANRET_RET : Field := ⟨Reg.TRIAD_LOANRET, 0, 1⟩
abbrev TRIAD_LOANCFG_PERMIT : Field := ⟨Reg.TRIAD_LOANCFG, 0, 1⟩
abbrev TRIAD_LOANENTRY_ENTRY : Field := ⟨Reg.TRIAD_LOANENTRY, 0, 40⟩
abbrev TRIAD_LOANBASE_BASE : Field := ⟨Reg.TRIAD_LOANBASE, 0, 19⟩
abbrev TRIAD_LOANSIZE_SIZE : Field := ⟨Reg.TRIAD_LOANSIZE, 0, 11⟩
abbrev TRIAD_DISWIN_TC : Field := ⟨Reg.TRIAD_DISWIN, 16, 4⟩
abbrev TRIAD_DISWIN_TB : Field := ⟨Reg.TRIAD_DISWIN, 8, 4⟩
abbrev TRIAD_DISWIN_TA : Field := ⟨Reg.TRIAD_DISWIN, 0, 4⟩
abbrev TRIAD_PROBESTAT_FAILSTEP : Field := ⟨Reg.TRIAD_PROBESTAT, 4, 8⟩
abbrev TRIAD_PROBESTAT_LAST_OK : Field := ⟨Reg.TRIAD_PROBESTAT, 0, 1⟩
abbrev TRIAD_LASTDIS_ADDR_ADDR : Field := ⟨Reg.TRIAD_LASTDIS_ADDR, 0, 40⟩
abbrev TRIAD_LASTDIS_INFO_CAUSE : Field := ⟨Reg.TRIAD_LASTDIS_INFO, 4, 4⟩
abbrev TRIAD_LASTDIS_INFO_LANE : Field := ⟨Reg.TRIAD_LASTDIS_INFO, 0, 2⟩
abbrev GAR_STATUS_LOCKED : Field := ⟨Reg.GAR_STATUS, 16, 8⟩
abbrev GAR_STATUS_SESSION : Field := ⟨Reg.GAR_STATUS, 11, 1⟩
abbrev GAR_STATUS_PENDING : Field := ⟨Reg.GAR_STATUS, 10, 1⟩
abbrev GAR_STATUS_SCP : Field := ⟨Reg.GAR_STATUS, 9, 1⟩
abbrev GAR_STATUS_STANDSTILL : Field := ⟨Reg.GAR_STATUS, 8, 1⟩
abbrev GAR_STATUS_CUST_EN : Field := ⟨Reg.GAR_STATUS, 7, 1⟩
abbrev GAR_STATUS_GRST : Field := ⟨Reg.GAR_STATUS, 6, 1⟩
abbrev GAR_STATUS_STATE : Field := ⟨Reg.GAR_STATUS, 0, 2⟩
abbrev GAR_GCAUSE_CAUSE : Field := ⟨Reg.GAR_GCAUSE, 0, 5⟩
abbrev GAR_INPUTS_TP : Field := ⟨Reg.GAR_INPUTS, 16, 2⟩
abbrev GAR_INPUTS_SI : Field := ⟨Reg.GAR_INPUTS, 0, 16⟩
abbrev GAR_OUTPUTS_HOLD (x : Nat) : Field := ⟨Reg.GAR_OUTPUTS, 4 * x + 3, 1⟩
abbrev GAR_OUTPUTS_REQ (x : Nat) : Field := ⟨Reg.GAR_OUTPUTS, 4 * x + 2, 1⟩
abbrev GAR_OUTPUTS_LS (x : Nat) : Field := ⟨Reg.GAR_OUTPUTS, 4 * x + 1, 1⟩
abbrev GAR_OUTPUTS_HS (x : Nat) : Field := ⟨Reg.GAR_OUTPUTS, 4 * x + 0, 1⟩
abbrev GAR_PERMSTAT_STAGED (x : Nat) : Field := ⟨Reg.GAR_PERMSTAT, 4 * x + 2, 1⟩
abbrev GAR_PERMSTAT_PSTATE (x : Nat) : Field := ⟨Reg.GAR_PERMSTAT, 4 * x + 0, 2⟩
abbrev GAR_INST_CAUSE (i : Nat) : Field := ⟨(Reg.GAR_INST i), 16, 8⟩
abbrev GAR_INST_STATE (i : Nat) : Field := ⟨(Reg.GAR_INST i), 8, 4⟩
abbrev GAR_INST_RESULT (i : Nat) : Field := ⟨(Reg.GAR_INST i), 3, 1⟩
abbrev GAR_INST_TYPE (i : Nat) : Field := ⟨(Reg.GAR_INST i), 0, 3⟩
abbrev GAR_PERMIT_SEQ : Field := ⟨Reg.GAR_PERMIT, 8, 8⟩
abbrev GAR_PERMIT_REL : Field := ⟨Reg.GAR_PERMIT, 0, 4⟩
abbrev GAR_WITHDRAW_PAIR : Field := ⟨Reg.GAR_WITHDRAW, 0, 4⟩
abbrev GAR_ACK_INST : Field := ⟨Reg.GAR_ACK, 0, 8⟩
abbrev GAR_BRKTEST_KEY : Field := ⟨Reg.GAR_BRKTEST, 8, 8⟩
abbrev GAR_BRKTEST_PAIR : Field := ⟨Reg.GAR_BRKTEST, 0, 2⟩
abbrev GAR_BRKRES_DUE (x : Nat) : Field := ⟨Reg.GAR_BRKRES, 8 * x + 3, 1⟩
abbrev GAR_BRKRES_RES (x : Nat) : Field := ⟨Reg.GAR_BRKRES, 8 * x + 0, 3⟩
abbrev GAR_BRKMS_T (x : Nat) : Field := ⟨(Reg.GAR_BRKMS x), 0, 16⟩
abbrev GAR_COND_ANY_LO : Field := ⟨Reg.GAR_COND, 10, 1⟩
abbrev GAR_COND_SCP : Field := ⟨Reg.GAR_COND, 9, 1⟩
abbrev GAR_COND_STANDSTILL : Field := ⟨Reg.GAR_COND, 8, 1⟩
abbrev GAR_COND_RESULT : Field := ⟨Reg.GAR_COND, 0, 8⟩
abbrev GAR_CFGCMD_CMD : Field := ⟨Reg.GAR_CFGCMD, 24, 8⟩
abbrev GAR_CFGCMD_ARG : Field := ⟨Reg.GAR_CFGCMD, 0, 24⟩
abbrev GAR_CFGRES_BUSY : Field := ⟨Reg.GAR_CFGRES, 31, 1⟩
abbrev GAR_CFGRES_CMD : Field := ⟨Reg.GAR_CFGRES, 16, 8⟩
abbrev GAR_CFGRES_RESULT : Field := ⟨Reg.GAR_CFGRES, 0, 8⟩
abbrev RTS_STATE_WHY_POLICY : Field := ⟨Reg.RTS_STATE, 18, 1⟩
abbrev RTS_STATE_WHY_PROG : Field := ⟨Reg.RTS_STATE, 17, 1⟩
abbrev RTS_STATE_WHY_RETAIN : Field := ⟨Reg.RTS_STATE, 16, 1⟩
abbrev RTS_STATE_START : Field := ⟨Reg.RTS_STATE, 8, 2⟩
abbrev RTS_STATE_STATE : Field := ⟨Reg.RTS_STATE, 0, 2⟩
abbrev RTS_POLICY_RELAPSED : Field := ⟨Reg.RTS_POLICY, 2, 1⟩
abbrev RTS_POLICY_RESTART : Field := ⟨Reg.RTS_POLICY, 0, 2⟩
abbrev RTS_IMGBASE_LO_BASE_LO : Field := ⟨Reg.RTS_IMGBASE_LO, 23, 9⟩
abbrev RTS_IMGBASE_HI_BASE_HI : Field := ⟨Reg.RTS_IMGBASE_HI, 0, 8⟩
abbrev RTS_TABSEL_ACTIVE : Field := ⟨Reg.RTS_TABSEL, 0, 1⟩
abbrev RTS_RELEASED_TASKS : Field := ⟨Reg.RTS_RELEASED, 0, 16⟩
abbrev RTS_BUSY_TASKS : Field := ⟨Reg.RTS_BUSY, 0, 16⟩
abbrev RTS_STOPPED_TASKS : Field := ⟨Reg.RTS_STOPPED, 0, 16⟩
abbrev RTS_DONE_TASK : Field := ⟨Reg.RTS_DONE, 16, 4⟩
abbrev RTS_DONE_CYCLE : Field := ⟨Reg.RTS_DONE, 0, 16⟩
abbrev RTS_OCCTL_CANCEL : Field := ⟨Reg.RTS_OCCTL, 1, 1⟩
abbrev RTS_OCCTL_ARM : Field := ⟨Reg.RTS_OCCTL, 0, 1⟩
abbrev RTS_OCSTAT_POSTPONE : Field := ⟨Reg.RTS_OCSTAT, 8, 8⟩
abbrev RTS_OCSTAT_RESULT : Field := ⟨Reg.RTS_OCSTAT, 0, 4⟩
abbrev RTS_FORCEUPD_INDEX : Field := ⟨Reg.RTS_FORCEUPD, 0, 8⟩
abbrev RTS_FORCESTAT_ACTIVE : Field := ⟨Reg.RTS_FORCESTAT, 0, 9⟩
abbrev RTS_CONSEC_COUNT (t : Nat) : Field := ⟨(Reg.RTS_CONSEC t), 0, 8⟩
abbrev APC_PAIRCFG_PAIRED : Field := ⟨Reg.APC_PAIRCFG, 0, 4⟩
abbrev APC_PAIRSTAT_STATE (p : Nat) : Field := ⟨Reg.APC_PAIRSTAT, 4 * p + 0, 4⟩
abbrev APC_RESTART_KEY : Field := ⟨Reg.APC_RESTART, 8, 8⟩
abbrev APC_RESTART_CORE : Field := ⟨Reg.APC_RESTART, 0, 8⟩
abbrev APC_RESETVEC_VEC (c : Nat) : Field := ⟨(Reg.APC_RESETVEC c), 0, 40⟩
abbrev APC_LASTMIS_ADDR (p : Nat) : Field := ⟨(Reg.APC_LASTMIS p), 0, 40⟩
abbrev FAB_AGE_AGE : Field := ⟨Reg.FAB_AGE, 0, 5⟩
abbrev FAB_FWLAST_ADDR_ADDR : Field := ⟨Reg.FAB_FWLAST_ADDR, 0, 40⟩
abbrev FAB_FWLAST_INFO_WRITE : Field := ⟨Reg.FAB_FWLAST_INFO, 8, 1⟩
abbrev FAB_FWLAST_INFO_CLASS : Field := ⟨Reg.FAB_FWLAST_INFO, 0, 3⟩
abbrev FAB_FWWR_MASK (i : Nat) : Field := ⟨(Reg.FAB_FWWR i), 0, 7⟩
abbrev FAB_RGN_BASE_BASE (r : Nat) : Field := ⟨(Reg.FAB_RGN_BASE r), 12, 28⟩
abbrev FAB_RGN_SIZE_LOG2SIZE (r : Nat) : Field := ⟨(Reg.FAB_RGN_SIZE r), 0, 6⟩
abbrev FAB_RGN_ATTR_RELEASE (r : Nat) : Field := ⟨(Reg.FAB_RGN_ATTR r), 3, 1⟩
abbrev FAB_RGN_ATTR_STRICT (r : Nat) : Field := ⟨(Reg.FAB_RGN_ATTR r), 2, 1⟩
abbrev FAB_RGN_ATTR_TCACHE (r : Nat) : Field := ⟨(Reg.FAB_RGN_ATTR r), 1, 1⟩
abbrev FAB_RGN_ATTR_CACHE (r : Nat) : Field := ⟨(Reg.FAB_RGN_ATTR r), 0, 1⟩
abbrev FAB_RGN_MASK_WR (r : Nat) : Field := ⟨(Reg.FAB_RGN_MASK r), 16, 7⟩
abbrev FAB_RGN_MASK_RD (r : Nat) : Field := ⟨(Reg.FAB_RGN_MASK r), 0, 7⟩
abbrev FIO_CLASS_MISMATCH : Field := ⟨Reg.FIO_CLASS, 9, 1⟩
abbrev FIO_CLASS_CFGCLASS : Field := ⟨Reg.FIO_CLASS, 8, 1⟩
abbrev FIO_CLASS_CLASS : Field := ⟨Reg.FIO_CLASS, 0, 1⟩
abbrev FIO_EVCOLL_COLL : Field := ⟨Reg.FIO_EVCOLL, 0, 6⟩
abbrev FIO_GSTAT_VF (g : Nat) : Field := ⟨(Reg.FIO_GSTAT g), 16, 16⟩
abbrev FIO_GSTAT_OVL (g : Nat) : Field := ⟨(Reg.FIO_GSTAT g), 7, 1⟩
abbrev FIO_GSTAT_SERLINK_OK (g : Nat) : Field := ⟨(Reg.FIO_GSTAT g), 6, 1⟩
abbrev FIO_GSTAT_REVERSED (g : Nat) : Field := ⟨(Reg.FIO_GSTAT g), 5, 1⟩
abbrev FIO_GSTAT_VF_LOW (g : Nat) : Field := ⟨(Reg.FIO_GSTAT g), 4, 1⟩
abbrev FIO_GSTAT_STATE (g : Nat) : Field := ⟨(Reg.FIO_GSTAT g), 0, 3⟩
abbrev FIO_CHSTAT_DIAG (c : Nat) : Field := ⟨(Reg.FIO_CHSTAT c), 8, 8⟩
abbrev FIO_CHSTAT_CFGERR (c : Nat) : Field := ⟨(Reg.FIO_CHSTAT c), 7, 1⟩
abbrev FIO_CHSTAT_FAILSTATE (c : Nat) : Field := ⟨(Reg.FIO_CHSTAT c), 6, 1⟩
abbrev FIO_CHSTAT_CPLFAULT (c : Nat) : Field := ⟨(Reg.FIO_CHSTAT c), 5, 1⟩
abbrev FIO_CHSTAT_TERM (c : Nat) : Field := ⟨(Reg.FIO_CHSTAT c), 4, 1⟩
abbrev FIO_CHSTAT_VALUE (c : Nat) : Field := ⟨(Reg.FIO_CHSTAT c), 3, 1⟩
abbrev FIO_CHSTAT_MODE (c : Nat) : Field := ⟨(Reg.FIO_CHSTAT c), 0, 2⟩
abbrev MEAS_STATUS_STACKMISS : Field := ⟨Reg.MEAS_STATUS, 12, 1⟩
abbrev MEAS_STATUS_SYNCPEND : Field := ⟨Reg.MEAS_STATUS, 11, 1⟩
abbrev MEAS_STATUS_ANCHOR_SRC : Field := ⟨Reg.MEAS_STATUS, 8, 3⟩
abbrev MEAS_STATUS_SLIP : Field := ⟨Reg.MEAS_STATUS, 1, 1⟩
abbrev MEAS_STATUS_PLL_LOCK : Field := ⟨Reg.MEAS_STATUS, 0, 1⟩
abbrev MEAS_SYNCCTL_SYNCOUT_EN : Field := ⟨Reg.MEAS_SYNCCTL, 4, 1⟩
abbrev MEAS_SYNCCTL_PIN_POL : Field := ⟨Reg.MEAS_SYNCCTL, 3, 1⟩
abbrev MEAS_SYNCCTL_PIN_EN : Field := ⟨Reg.MEAS_SYNCCTL, 2, 1⟩
abbrev MEAS_SYNCCMD_KEY : Field := ⟨Reg.MEAS_SYNCCMD, 8, 8⟩
abbrev MEAS_SYNCCMD_DISARM : Field := ⟨Reg.MEAS_SYNCCMD, 2, 1⟩
abbrev MEAS_SYNCCMD_ARM : Field := ⟨Reg.MEAS_SYNCCMD, 1, 1⟩
abbrev MEAS_SYNCCMD_NOW : Field := ⟨Reg.MEAS_SYNCCMD, 0, 1⟩
abbrev MEAS_FREEZE_FRZ : Field := ⟨Reg.MEAS_FREEZE, 0, 16⟩
abbrev MEAS_EVCOLL_COLL : Field := ⟨Reg.MEAS_EVCOLL, 0, 6⟩
abbrev MEAS_CHSTAT_FLAGS (m : Nat) : Field := ⟨(Reg.MEAS_CHSTAT m), 8, 8⟩
abbrev MEAS_CHSTAT_CFGERR (m : Nat) : Field := ⟨(Reg.MEAS_CHSTAT m), 7, 1⟩
abbrev MEAS_CHSTAT_STUCK (m : Nat) : Field := ⟨(Reg.MEAS_CHSTAT m), 6, 1⟩
abbrev MEAS_CHSTAT_FROZEN (m : Nat) : Field := ⟨(Reg.MEAS_CHSTAT m), 5, 1⟩
abbrev MEAS_CHSTAT_EN (m : Nat) : Field := ⟨(Reg.MEAS_CHSTAT m), 2, 1⟩
abbrev MEAS_CHSTAT_PRESET (m : Nat) : Field := ⟨(Reg.MEAS_CHSTAT m), 0, 2⟩
abbrev WAL_STATUS_SPANERR (c : Nat) : Field := ⟨Reg.WAL_STATUS, 8 * c + 6, 1⟩
abbrev WAL_STATUS_DLYKNOWN (c : Nat) : Field := ⟨Reg.WAL_STATUS, 8 * c + 5, 1⟩
abbrev WAL_STATUS_LEADER (c : Nat) : Field := ⟨Reg.WAL_STATUS, 8 * c + 4, 1⟩
abbrev WAL_STATUS_STATE (c : Nat) : Field := ⟨Reg.WAL_STATUS, 8 * c + 0, 4⟩
abbrev WAL_CTL_EN_B : Field := ⟨Reg.WAL_CTL, 1, 1⟩
abbrev WAL_CTL_EN_A : Field := ⟨Reg.WAL_CTL, 0, 1⟩
abbrev WAL_NODECFG_SYNC : Field := ⟨Reg.WAL_NODECFG, 13, 1⟩
abbrev WAL_NODECFG_CS : Field := ⟨Reg.WAL_NODECFG, 12, 1⟩
abbrev WAL_NODECFG_RANK : Field := ⟨Reg.WAL_NODECFG, 8, 2⟩
abbrev WAL_NODECFG_POS : Field := ⟨Reg.WAL_NODECFG, 0, 5⟩
abbrev WAL_GUARD_G : Field := ⟨Reg.WAL_GUARD, 0, 12⟩
abbrev WAL_SPAN_SPAN : Field := ⟨Reg.WAL_SPAN, 0, 16⟩
abbrev WAL_EVCOLL_COLL : Field := ⟨Reg.WAL_EVCOLL, 0, 6⟩
abbrev WAL_LINKDLY_VALID (x : Nat) : Field := ⟨(Reg.WAL_LINKDLY x), 31, 1⟩
abbrev WAL_LINKDLY_LINKUP (x : Nat) : Field := ⟨(Reg.WAL_LINKDLY x), 30, 1⟩
abbrev WAL_LINKDLY_DLY (x : Nat) : Field := ⟨(Reg.WAL_LINKDLY x), 0, 16⟩
abbrev WAL_LINKNOM_DLY : Field := ⟨Reg.WAL_LINKNOM, 0, 16⟩
abbrev WAL_SLOTSTAT_CFGERR (e : Nat) : Field := ⟨(Reg.WAL_SLOTSTAT e), 7, 1⟩
abbrev WAL_SLOTSTAT_CONFLICT (e : Nat) : Field := ⟨(Reg.WAL_SLOTSTAT e), 6, 1⟩
abbrev WAL_SLOTSTAT_CLAIMING (e : Nat) : Field := ⟨(Reg.WAL_SLOTSTAT e), 5, 1⟩
abbrev WAL_SLOTSTAT_TXACTIVE (e : Nat) : Field := ⟨(Reg.WAL_SLOTSTAT e), 4, 1⟩
abbrev WAL_SLOTSTAT_LASTREASON (e : Nat) : Field := ⟨(Reg.WAL_SLOTSTAT e), 0, 4⟩
abbrev ETH_AGETIME_SEC : Field := ⟨Reg.ETH_AGETIME, 0, 16⟩
abbrev ETH_EVCOLL_COLL : Field := ⟨Reg.ETH_EVCOLL, 0, 6⟩
abbrev ETH_MAC_MAC (h : Nat) : Field := ⟨(Reg.ETH_MAC h), 0, 48⟩
abbrev ETH_PORTCFG_DEFPCP (p : Nat) : Field := ⟨(Reg.ETH_PORTCFG p), 24, 3⟩
abbrev ETH_PORTCFG_PVID (p : Nat) : Field := ⟨(Reg.ETH_PORTCFG p), 12, 12⟩
abbrev ETH_PORTCFG_LEARN (p : Nat) : Field := ⟨(Reg.ETH_PORTCFG p), 9, 1⟩
abbrev ETH_PORTCFG_GATE_EN (p : Nat) : Field := ⟨(Reg.ETH_PORTCFG p), 8, 1⟩
abbrev ETH_PORTCFG_FRAMETYPES (p : Nat) : Field := ⟨(Reg.ETH_PORTCFG p), 5, 1⟩
abbrev ETH_PORTCFG_SPEED (p : Nat) : Field := ⟨(Reg.ETH_PORTCFG p), 3, 2⟩
abbrev ETH_PORTCFG_STP (p : Nat) : Field := ⟨(Reg.ETH_PORTCFG p), 0, 2⟩
abbrev ETH_PORTSTAT_GCLPEND (p : Nat) : Field := ⟨(Reg.ETH_PORTSTAT p), 4, 1⟩
abbrev ETH_PORTSTAT_GCLBANK (p : Nat) : Field := ⟨(Reg.ETH_PORTSTAT p), 3, 1⟩
abbrev ETH_PORTSTAT_SPEED (p : Nat) : Field := ⟨(Reg.ETH_PORTSTAT p), 1, 2⟩
abbrev ETH_PORTSTAT_LINKUP (p : Nat) : Field := ⟨(Reg.ETH_PORTSTAT p), 0, 1⟩
abbrev ETH_LAT_EGRESS (p : Nat) : Field := ⟨(Reg.ETH_LAT p), 16, 16⟩
abbrev ETH_LAT_INGRESS (p : Nat) : Field := ⟨(Reg.ETH_LAT p), 0, 16⟩
abbrev ETH_RBASE_BASE (r : Nat) : Field := ⟨(Reg.ETH_RBASE r), 6, 34⟩
abbrev ETH_RCBASE_BASE (r : Nat) : Field := ⟨(Reg.ETH_RCBASE r), 6, 34⟩
abbrev ETH_RCTL_EN (r : Nat) : Field := ⟨(Reg.ETH_RCTL r), 31, 1⟩
abbrev ETH_RCTL_LOG2SIZE (r : Nat) : Field := ⟨(Reg.ETH_RCTL r), 0, 5⟩
abbrev ETH_VLAN_EN (v : Nat) : Field := ⟨(Reg.ETH_VLAN v), 31, 1⟩
abbrev ETH_VLAN_UNTAG (v : Nat) : Field := ⟨(Reg.ETH_VLAN v), 16, 10⟩
abbrev ETH_VLAN_MEMBER (v : Nat) : Field := ⟨(Reg.ETH_VLAN v), 0, 10⟩
abbrev ETH_GCL_INTERVAL (p b e : Nat) : Field := ⟨(Reg.ETH_GCL p b e), 32, 24⟩
abbrev ETH_GCL_GATES (p b e : Nat) : Field := ⟨(Reg.ETH_GCL p b e), 0, 8⟩
abbrev ETH_GCLCTL_COMMIT (p : Nat) : Field := ⟨(Reg.ETH_GCLCTL p), 9, 1⟩
abbrev ETH_GCLCTL_BANK (p : Nat) : Field := ⟨(Reg.ETH_GCLCTL p), 8, 1⟩
abbrev ETH_GCLCTL_CTEXP (p : Nat) : Field := ⟨(Reg.ETH_GCLCTL p), 0, 3⟩
abbrev TRDP_STATUS_CUST : Field := ⟨Reg.TRDP_STATUS, 1, 1⟩
abbrev TRDP_STATUS_ACTIVE : Field := ⟨Reg.TRDP_STATUS, 0, 1⟩
abbrev TRDP_INVCFG_PCP : Field := ⟨Reg.TRDP_INVCFG, 13, 3⟩
abbrev TRDP_INVCFG_VID : Field := ⟨Reg.TRDP_INVCFG, 0, 12⟩
abbrev TRDP_EVCOLL_COLL : Field := ⟨Reg.TRDP_EVCOLL, 0, 6⟩
abbrev TRDP_WORKBASE_BASE : Field := ⟨Reg.TRDP_WORKBASE, 23, 17⟩
abbrev TRDP_ENTSTAT_VALID (e : Nat) : Field := ⟨(Reg.TRDP_ENTSTAT e), 3, 1⟩
abbrev TRDP_ENTSTAT_TIMEOUT (e : Nat) : Field := ⟨(Reg.TRDP_ENTSTAT e), 2, 1⟩
abbrev TRDP_ENTSTAT_CFGERR (e : Nat) : Field := ⟨(Reg.TRDP_ENTSTAT e), 1, 1⟩
abbrev TRDP_ENTSTAT_ACTIVE (e : Nat) : Field := ⟨(Reg.TRDP_ENTSTAT e), 0, 1⟩
abbrev MVB_EVCOLL_COLL : Field := ⟨Reg.MVB_EVCOLL, 0, 6⟩
abbrev CAN_EVCOLL_COLL : Field := ⟨Reg.CAN_EVCOLL, 0, 6⟩
abbrev SER_EVCOLL_COLL : Field := ⟨Reg.SER_EVCOLL, 0, 6⟩
abbrev MVB_RBASE_BASE (q : Nat) : Field := ⟨(Reg.MVB_RBASE q), 6, 34⟩
abbrev CAN_RBASE_BASE (q : Nat) : Field := ⟨(Reg.CAN_RBASE q), 6, 34⟩
abbrev SER_RBASE_BASE (q : Nat) : Field := ⟨(Reg.SER_RBASE q), 6, 34⟩
abbrev MVB_RCBASE_BASE (q : Nat) : Field := ⟨(Reg.MVB_RCBASE q), 6, 34⟩
abbrev CAN_RCBASE_BASE (q : Nat) : Field := ⟨(Reg.CAN_RCBASE q), 6, 34⟩
abbrev SER_RCBASE_BASE (q : Nat) : Field := ⟨(Reg.SER_RCBASE q), 6, 34⟩
abbrev MVB_RCTL_EN (q : Nat) : Field := ⟨(Reg.MVB_RCTL q), 31, 1⟩
abbrev MVB_RCTL_LOG2SIZE (q : Nat) : Field := ⟨(Reg.MVB_RCTL q), 0, 5⟩
abbrev CAN_RCTL_EN (q : Nat) : Field := ⟨(Reg.CAN_RCTL q), 31, 1⟩
abbrev CAN_RCTL_LOG2SIZE (q : Nat) : Field := ⟨(Reg.CAN_RCTL q), 0, 5⟩
abbrev SER_RCTL_EN (q : Nat) : Field := ⟨(Reg.SER_RCTL q), 31, 1⟩
abbrev SER_RCTL_LOG2SIZE (q : Nat) : Field := ⟨(Reg.SER_RCTL q), 0, 5⟩
abbrev MVB_ENTSTAT_VALID (e : Nat) : Field := ⟨(Reg.MVB_ENTSTAT e), 3, 1⟩
abbrev MVB_ENTSTAT_TIMEOUT (e : Nat) : Field := ⟨(Reg.MVB_ENTSTAT e), 2, 1⟩
abbrev MVB_ENTSTAT_CFGERR (e : Nat) : Field := ⟨(Reg.MVB_ENTSTAT e), 1, 1⟩
abbrev MVB_ENTSTAT_ACTIVE (e : Nat) : Field := ⟨(Reg.MVB_ENTSTAT e), 0, 1⟩
abbrev CAN_ENTSTAT_VALID (e : Nat) : Field := ⟨(Reg.CAN_ENTSTAT e), 3, 1⟩
abbrev CAN_ENTSTAT_TIMEOUT (e : Nat) : Field := ⟨(Reg.CAN_ENTSTAT e), 2, 1⟩
abbrev CAN_ENTSTAT_CFGERR (e : Nat) : Field := ⟨(Reg.CAN_ENTSTAT e), 1, 1⟩
abbrev CAN_ENTSTAT_ACTIVE (e : Nat) : Field := ⟨(Reg.CAN_ENTSTAT e), 0, 1⟩
abbrev SER_ENTSTAT_VALID (e : Nat) : Field := ⟨(Reg.SER_ENTSTAT e), 3, 1⟩
abbrev SER_ENTSTAT_TIMEOUT (e : Nat) : Field := ⟨(Reg.SER_ENTSTAT e), 2, 1⟩
abbrev SER_ENTSTAT_CFGERR (e : Nat) : Field := ⟨(Reg.SER_ENTSTAT e), 1, 1⟩
abbrev SER_ENTSTAT_ACTIVE (e : Nat) : Field := ⟨(Reg.SER_ENTSTAT e), 0, 1⟩
abbrev MVB_CFG_LINEEN_B : Field := ⟨Reg.MVB_CFG, 17, 1⟩
abbrev MVB_CFG_LINEEN_A : Field := ⟨Reg.MVB_CFG, 16, 1⟩
abbrev MVB_CFG_DEVADDR : Field := ⟨Reg.MVB_CFG, 0, 12⟩
abbrev MVB_LINESTAT_FAULT_B : Field := ⟨Reg.MVB_LINESTAT, 2, 1⟩
abbrev MVB_LINESTAT_FAULT_A : Field := ⟨Reg.MVB_LINESTAT, 1, 1⟩
abbrev MVB_LINESTAT_TRUSTED : Field := ⟨Reg.MVB_LINESTAT, 0, 1⟩
abbrev CAN_CTL_AUTOREC (u : Nat) : Field := ⟨(Reg.CAN_CTL u), 3, 1⟩
abbrev CAN_CTL_LISTEN (u : Nat) : Field := ⟨(Reg.CAN_CTL u), 2, 1⟩
abbrev CAN_CTL_FD (u : Nat) : Field := ⟨(Reg.CAN_CTL u), 1, 1⟩
abbrev CAN_CTL_EN (u : Nat) : Field := ⟨(Reg.CAN_CTL u), 0, 1⟩
abbrev CAN_NBT_BRP (u : Nat) : Field := ⟨(Reg.CAN_NBT u), 24, 8⟩
abbrev CAN_NBT_TSEG1 (u : Nat) : Field := ⟨(Reg.CAN_NBT u), 16, 8⟩
abbrev CAN_NBT_TSEG2 (u : Nat) : Field := ⟨(Reg.CAN_NBT u), 8, 7⟩
abbrev CAN_NBT_SJW (u : Nat) : Field := ⟨(Reg.CAN_NBT u), 0, 7⟩
abbrev CAN_ERR_STATE (u : Nat) : Field := ⟨(Reg.CAN_ERR u), 16, 2⟩
abbrev CAN_ERR_REC (u : Nat) : Field := ⟨(Reg.CAN_ERR u), 8, 8⟩
abbrev CAN_ERR_TEC (u : Nat) : Field := ⟨(Reg.CAN_ERR u), 0, 8⟩
abbrev SER_CFG_GAP (u : Nat) : Field := ⟨(Reg.SER_CFG u), 16, 8⟩
abbrev SER_CFG_FCS32 (u : Nat) : Field := ⟨(Reg.SER_CFG u), 9, 1⟩
abbrev SER_CFG_STOP2 (u : Nat) : Field := ⟨(Reg.SER_CFG u), 8, 1⟩
abbrev SER_CFG_PARITY (u : Nat) : Field := ⟨(Reg.SER_CFG u), 6, 2⟩
abbrev SER_CFG_BITS7 (u : Nat) : Field := ⟨(Reg.SER_CFG u), 5, 1⟩
abbrev SER_CFG_FULLDUP (u : Nat) : Field := ⟨(Reg.SER_CFG u), 4, 1⟩
abbrev SER_CFG_HDLC (u : Nat) : Field := ⟨(Reg.SER_CFG u), 1, 1⟩
abbrev SER_CFG_EN (u : Nat) : Field := ⟨(Reg.SER_CFG u), 0, 1⟩
abbrev SER_BAUD_DIV (u : Nat) : Field := ⟨(Reg.SER_BAUD u), 0, 24⟩
abbrev POP_CRR_META_VALID (c : Nat) : Field := ⟨(Reg.POP_CRR_META c), 63, 1⟩
abbrev POP_CRR_META_STATUS (c : Nat) : Field := ⟨(Reg.POP_CRR_META c), 16, 8⟩
abbrev POP_CRR_META_DESC (c : Nat) : Field := ⟨(Reg.POP_CRR_META c), 0, 16⟩
abbrev CRR_BUSY_CH : Field := ⟨Reg.CRR_BUSY, 0, 16⟩
abbrev CRR_RBASE_BASE (c : Nat) : Field := ⟨(Reg.CRR_RBASE c), 6, 34⟩
abbrev CRR_RCBASE_BASE (c : Nat) : Field := ⟨(Reg.CRR_RCBASE c), 6, 34⟩
abbrev CRR_RCTL_EN (c : Nat) : Field := ⟨(Reg.CRR_RCTL c), 31, 1⟩
abbrev CRR_RCTL_POPMODE (c : Nat) : Field := ⟨(Reg.CRR_RCTL c), 8, 1⟩
abbrev CRR_RCTL_LOG2SIZE (c : Nat) : Field := ⟨(Reg.CRR_RCTL c), 0, 5⟩
abbrev CRR_CFG_ERRIRQ (c : Nat) : Field := ⟨(Reg.CRR_CFG c), 4, 1⟩
abbrev CRR_CFG_MBOX (c : Nat) : Field := ⟨(Reg.CRR_CFG c), 0, 4⟩
abbrev CRR_CHSTAT_TWOPASS (c : Nat) : Field := ⟨(Reg.CRR_CHSTAT c), 5, 1⟩
abbrev CRR_CHSTAT_DESC (c : Nat) : Field := ⟨(Reg.CRR_CHSTAT c), 4, 1⟩
abbrev CRR_CHSTAT_STATE (c : Nat) : Field := ⟨(Reg.CRR_CHSTAT c), 0, 2⟩
abbrev CRR_CHKCFG_PRESET (c : Nat) : Field := ⟨(Reg.CRR_CHKCFG c), 12, 3⟩
abbrev CRR_CHKCFG_REFOUT (c : Nat) : Field := ⟨(Reg.CRR_CHKCFG c), 10, 1⟩
abbrev CRR_CHKCFG_REFIN (c : Nat) : Field := ⟨(Reg.CRR_CHKCFG c), 9, 1⟩
abbrev CRR_CHKCFG_INV (c : Nat) : Field := ⟨(Reg.CRR_CHKCFG c), 8, 1⟩
abbrev CRR_CHKCFG_WIDTH (c : Nat) : Field := ⟨(Reg.CRR_CHKCFG c), 0, 7⟩
abbrev LPE_CFG_EN (u : Nat) : Field := ⟨(Reg.LPE_CFG u), 31, 1⟩
abbrev LPE_CFG_MODE (u : Nat) : Field := ⟨(Reg.LPE_CFG u), 30, 1⟩
abbrev LPE_CFG_SRC (u : Nat) : Field := ⟨(Reg.LPE_CFG u), 24, 3⟩
abbrev LPE_CFG_SEL (u : Nat) : Field := ⟨(Reg.LPE_CFG u), 16, 8⟩
abbrev LPE_CFG_PRESET (u : Nat) : Field := ⟨(Reg.LPE_CFG u), 12, 3⟩
abbrev LPE_CFG_REFOUT (u : Nat) : Field := ⟨(Reg.LPE_CFG u), 10, 1⟩
abbrev LPE_CFG_REFIN (u : Nat) : Field := ⟨(Reg.LPE_CFG u), 9, 1⟩
abbrev LPE_CFG_INV (u : Nat) : Field := ⟨(Reg.LPE_CFG u), 8, 1⟩
abbrev LPE_CFG_WIDTH (u : Nat) : Field := ⟨(Reg.LPE_CFG u), 0, 7⟩
abbrev LPE_WINBASE_BASE (u : Nat) : Field := ⟨(Reg.LPE_WINBASE u), 0, 40⟩
abbrev LPE_WINLEN_LEN (u : Nat) : Field := ⟨(Reg.LPE_WINLEN u), 0, 40⟩
abbrev LPE_SKIPSPAN_SKIP (u : Nat) : Field := ⟨(Reg.LPE_SKIPSPAN u), 16, 16⟩
abbrev LPE_SKIPSPAN_SPAN (u : Nat) : Field := ⟨(Reg.LPE_SKIPSPAN u), 0, 16⟩
abbrev CSC_STATUS_DNDEGRADED : Field := ⟨Reg.CSC_STATUS, 13, 1⟩
abbrev CSC_STATUS_UPDEGRADED : Field := ⟨Reg.CSC_STATUS, 12, 1⟩
abbrev CSC_STATUS_DNSTATE : Field := ⟨Reg.CSC_STATUS, 10, 2⟩
abbrev CSC_STATUS_UPSTATE : Field := ⟨Reg.CSC_STATUS, 8, 2⟩
abbrev CSC_STATUS_NOMASTER : Field := ⟨Reg.CSC_STATUS, 6, 1⟩
abbrev CSC_STATUS_MEMBER : Field := ⟨Reg.CSC_STATUS, 5, 1⟩
abbrev CSC_STATUS_MASTER : Field := ⟨Reg.CSC_STATUS, 4, 1⟩
abbrev CSC_STATUS_POS : Field := ⟨Reg.CSC_STATUS, 0, 3⟩
abbrev CSC_MEMBERS_VEC : Field := ⟨Reg.CSC_MEMBERS, 0, 8⟩
abbrev CSC_CTL_EN_DOWN : Field := ⟨Reg.CSC_CTL, 1, 1⟩
abbrev CSC_CTL_EN_UP : Field := ⟨Reg.CSC_CTL, 0, 1⟩
abbrev CSC_RDTIMEOUT_US : Field := ⟨Reg.CSC_RDTIMEOUT, 0, 16⟩
abbrev CSC_INVBASE_BASE : Field := ⟨Reg.CSC_INVBASE, 12, 28⟩
abbrev CSC_EVCOLL_COLL : Field := ⟨Reg.CSC_EVCOLL, 0, 6⟩
abbrev CSC_LINK_WIDTH (d : Nat) : Field := ⟨(Reg.CSC_LINK d), 4, 4⟩
abbrev CSC_LINK_GEN (d : Nat) : Field := ⟨(Reg.CSC_LINK d), 0, 3⟩
abbrev POP_ARC_NEXT_VALID : Field := ⟨Reg.POP_ARC_NEXT, 63, 1⟩
abbrev POP_ARC_NEXT_GAP : Field := ⟨Reg.POP_ARC_NEXT, 62, 1⟩
abbrev POP_ARC_NEXT_SRC : Field := ⟨Reg.POP_ARC_NEXT, 32, 16⟩
abbrev ARC_STATUS_NVSTOP : Field := ⟨Reg.ARC_STATUS, 8, 1⟩
abbrev ARC_STATUS_COMMITTING : Field := ⟨Reg.ARC_STATUS, 7, 1⟩
abbrev ARC_STATUS_FREEUNITS : Field := ⟨Reg.ARC_STATUS, 0, 5⟩
abbrev ARC_COMMITAGE_SEC : Field := ⟨Reg.ARC_COMMITAGE, 0, 12⟩
abbrev ARC_SEALLIM_SEC : Field := ⟨Reg.ARC_SEALLIM, 0, 6⟩
abbrev ARC_ERASE_KEY : Field := ⟨Reg.ARC_ERASE, 8, 8⟩
abbrev ARC_ERASE_COLL : Field := ⟨Reg.ARC_ERASE, 0, 6⟩
abbrev ARC_RDCOLL_COLL : Field := ⟨Reg.ARC_RDCOLL, 0, 6⟩
abbrev ARC_RBASE_BASE (q : Nat) : Field := ⟨(Reg.ARC_RBASE q), 6, 34⟩
abbrev ARC_RCBASE_BASE (q : Nat) : Field := ⟨(Reg.ARC_RCBASE q), 6, 34⟩
abbrev ARC_RCTL_EN (q : Nat) : Field := ⟨(Reg.ARC_RCTL q), 31, 1⟩
abbrev ARC_RCTL_LOG2SIZE (q : Nat) : Field := ⟨(Reg.ARC_RCTL q), 0, 5⟩
abbrev ARC_RSRC_RESV (q : Nat) : Field := ⟨(Reg.ARC_RSRC q), 31, 1⟩
abbrev ARC_RSRC_SRCHI (q : Nat) : Field := ⟨(Reg.ARC_RSRC q), 16, 12⟩
abbrev ARC_RSRC_SRCLO (q : Nat) : Field := ⟨(Reg.ARC_RSRC q), 0, 12⟩
abbrev ARC_CCFG_EN (k : Nat) : Field := ⟨(Reg.ARC_CCFG k), 31, 1⟩
abbrev ARC_CCFG_REPWIN (k : Nat) : Field := ⟨(Reg.ARC_CCFG k), 0, 16⟩
abbrev ARC_CSTAT_SEALED (k : Nat) : Field := ⟨(Reg.ARC_CSTAT k), 17, 1⟩
abbrev ARC_CSTAT_FULL (k : Nat) : Field := ⟨(Reg.ARC_CSTAT k), 16, 1⟩
abbrev ARC_CSTAT_UNITS (k : Nat) : Field := ⟨(Reg.ARC_CSTAT k), 0, 14⟩
abbrev RPL_STATUS_BEHIND : Field := ⟨Reg.RPL_STATUS, 24, 8⟩
abbrev RPL_STATUS_INELIG : Field := ⟨Reg.RPL_STATUS, 20, 4⟩
abbrev RPL_STATUS_PEER_ELIG : Field := ⟨Reg.RPL_STATUS, 19, 1⟩
abbrev RPL_STATUS_REPLICA_BEHIND : Field := ⟨Reg.RPL_STATUS, 18, 1⟩
abbrev RPL_STATUS_PASSDONE : Field := ⟨Reg.RPL_STATUS, 17, 1⟩
abbrev RPL_STATUS_LINKUP : Field := ⟨Reg.RPL_STATUS, 16, 1⟩
abbrev RPL_STATUS_ENABLE : Field := ⟨Reg.RPL_STATUS, 15, 1⟩
abbrev RPL_STATUS_FARWIRE : Field := ⟨Reg.RPL_STATUS, 12, 3⟩
abbrev RPL_STATUS_SIDE : Field := ⟨Reg.RPL_STATUS, 11, 1⟩
abbrev RPL_STATUS_ROLE : Field := ⟨Reg.RPL_STATUS, 0, 3⟩
abbrev RPL_CFG_AUTOCOLD : Field := ⟨Reg.RPL_CFG, 3, 1⟩
abbrev RPL_CFG_DUOHAND : Field := ⟨Reg.RPL_CFG, 2, 1⟩
abbrev RPL_CFG_PAIRED : Field := ⟨Reg.RPL_CFG, 0, 1⟩
abbrev RPL_CTL_KEY : Field := ⟨Reg.RPL_CTL, 8, 8⟩
abbrev RPL_CTL_CANCEL : Field := ⟨Reg.RPL_CTL, 1, 1⟩
abbrev RPL_CTL_HANDOVER : Field := ⟨Reg.RPL_CTL, 0, 1⟩
abbrev RPL_HOSTAT_RESULT : Field := ⟨Reg.RPL_HOSTAT, 0, 4⟩
abbrev RPL_STAGEBASE_BASE : Field := ⟨Reg.RPL_STAGEBASE, 22, 18⟩
abbrev STE_STATUS_BLOCK : Field := ⟨Reg.STE_STATUS, 8, 8⟩
abbrev STE_STATUS_UNIT : Field := ⟨Reg.STE_STATUS, 4, 4⟩
abbrev STE_STATUS_STATE : Field := ⟨Reg.STE_STATUS, 0, 2⟩
abbrev STE_REQ_KEY : Field := ⟨Reg.STE_REQ, 24, 8⟩
abbrev STE_REQ_BLOCK : Field := ⟨Reg.STE_REQ, 8, 8⟩
abbrev STE_REQ_UNIT : Field := ⟨Reg.STE_REQ, 4, 4⟩
abbrev STE_RESULT_BLOCK : Field := ⟨Reg.STE_RESULT, 16, 8⟩
abbrev STE_RESULT_UNIT : Field := ⟨Reg.STE_RESULT, 12, 4⟩
abbrev STE_RESULT_CODE : Field := ⟨Reg.STE_RESULT, 0, 4⟩
abbrev STE_STARTFAIL_MAP : Field := ⟨Reg.STE_STARTFAIL, 0, 27⟩
abbrev STE_STARTMS_MS : Field := ⟨Reg.STE_STARTMS, 0, 11⟩
abbrev STE_FAILMAP_UNITS (i : Nat) : Field := ⟨(Reg.STE_FAILMAP i), 0, 16⟩
abbrev LCS_STATE_TAMPER : Field := ⟨Reg.LCS_STATE, 8, 1⟩
abbrev LCS_STATE_STATE : Field := ⟨Reg.LCS_STATE, 0, 3⟩
abbrev LCS_CMD_KEY : Field := ⟨Reg.LCS_CMD, 24, 8⟩
abbrev LCS_CMD_ARG : Field := ⟨Reg.LCS_CMD, 8, 8⟩
abbrev LCS_CMD_CMD : Field := ⟨Reg.LCS_CMD, 0, 8⟩
abbrev LCS_CMDRES_BUSY : Field := ⟨Reg.LCS_CMDRES, 31, 1⟩
abbrev LCS_CMDRES_CMD : Field := ⟨Reg.LCS_CMDRES, 16, 8⟩
abbrev LCS_CMDRES_RESULT : Field := ⟨Reg.LCS_CMDRES, 0, 8⟩
abbrev LCS_SRCADDR_ADDR : Field := ⟨Reg.LCS_SRCADDR, 0, 40⟩
abbrev LCS_KEYS_FWSLOT : Field := ⟨Reg.LCS_KEYS, 8, 2⟩
abbrev LCS_KEYS_REVOKED : Field := ⟨Reg.LCS_KEYS, 4, 4⟩
abbrev LCS_KEYS_PRESENT : Field := ⟨Reg.LCS_KEYS, 0, 4⟩
abbrev LCS_BOOTINFO_CYCLEOK : Field := ⟨Reg.LCS_BOOTINFO, 19, 1⟩
abbrev LCS_BOOTINFO_UNCOMMITTED : Field := ⟨Reg.LCS_BOOTINFO, 18, 1⟩
abbrev LCS_BOOTINFO_DOCENTFB : Field := ⟨Reg.LCS_BOOTINFO, 17, 1⟩
abbrev LCS_BOOTINFO_DOCENT : Field := ⟨Reg.LCS_BOOTINFO, 16, 1⟩
abbrev LCS_BOOTINFO_CVCAUSE : Field := ⟨Reg.LCS_BOOTINFO, 8, 4⟩
abbrev LCS_BOOTINFO_FAILSTARTS : Field := ⟨Reg.LCS_BOOTINFO, 0, 2⟩
abbrev LCS_ROLLBACK_COUNT : Field := ⟨Reg.LCS_ROLLBACK, 0, 8⟩
abbrev LCS_FMT_OLDFMT : Field := ⟨Reg.LCS_FMT, 16, 16⟩
abbrev LCS_FMT_FMT : Field := ⟨Reg.LCS_FMT, 0, 16⟩
abbrev PRV_STATUS_NVSTOP : Field := ⟨Reg.PRV_STATUS, 13, 1⟩
abbrev PRV_STATUS_FREE : Field := ⟨Reg.PRV_STATUS, 0, 13⟩
abbrev PRV_RBASE_BASE (q : Nat) : Field := ⟨(Reg.PRV_RBASE q), 6, 34⟩
abbrev PRV_RCBASE_BASE (q : Nat) : Field := ⟨(Reg.PRV_RCBASE q), 6, 34⟩
abbrev PRV_RCTL_EN (q : Nat) : Field := ⟨(Reg.PRV_RCTL q), 31, 1⟩
abbrev PRV_RCTL_LOG2SIZE (q : Nat) : Field := ⟨(Reg.PRV_RCTL q), 0, 5⟩
abbrev PWR_STATUS_BKLOST : Field := ⟨Reg.PWR_STATUS, 12, 1⟩
abbrev PWR_STATUS_VBAK_OK : Field := ⟨Reg.PWR_STATUS, 11, 1⟩
abbrev PWR_STATUS_HOLDUP_OK : Field := ⟨Reg.PWR_STATUS, 10, 1⟩
abbrev PWR_STATUS_OVERTEMP : Field := ⟨Reg.PWR_STATUS, 9, 1⟩
abbrev PWR_STATUS_TEMPWARN : Field := ⟨Reg.PWR_STATUS, 8, 1⟩
abbrev PWR_STATUS_VIN_HIGH : Field := ⟨Reg.PWR_STATUS, 4, 1⟩
abbrev PWR_STATUS_VIN_LOW : Field := ⟨Reg.PWR_STATUS, 3, 1⟩
abbrev PWR_STATUS_OVDISC : Field := ⟨Reg.PWR_STATUS, 2, 1⟩
abbrev PWR_STATUS_NV_STOP : Field := ⟨Reg.PWR_STATUS, 1, 1⟩
abbrev PWR_STATUS_PFW : Field := ⟨Reg.PWR_STATUS, 0, 1⟩
abbrev PWR_VIN_VIN : Field := ⟨Reg.PWR_VIN, 0, 16⟩
abbrev PWR_VHOLD_VHOLD : Field := ⟨Reg.PWR_VHOLD, 0, 16⟩
abbrev PWR_VBK_VBAK : Field := ⟨Reg.PWR_VBK, 16, 16⟩
abbrev PWR_VBK_VCAP : Field := ⟨Reg.PWR_VBK, 0, 16⟩
abbrev PWR_TEMP_MAX : Field := ⟨Reg.PWR_TEMP, 16, 16⟩
abbrev PWR_TEMP_TEMP : Field := ⟨Reg.PWR_TEMP, 0, 16⟩
abbrev PWR_PIN_PIN : Field := ⟨Reg.PWR_PIN, 0, 16⟩
abbrev PWR_PFWIRQ_MBOX : Field := ⟨Reg.PWR_PFWIRQ, 0, 9⟩
abbrev SYS_IDENT_PART : Field := ⟨Reg.SYS_IDENT, 16, 16⟩
abbrev SYS_IDENT_ISSUE : Field := ⟨Reg.SYS_IDENT, 8, 8⟩
abbrev SYS_IDENT_CODE : Field := ⟨Reg.SYS_IDENT, 0, 2⟩
abbrev SYS_CAP0_FIO : Field := ⟨Reg.SYS_CAP0, 24, 8⟩
abbrev SYS_CAP0_MEAS : Field := ⟨Reg.SYS_CAP0, 16, 8⟩
abbrev SYS_CAP0_ETH : Field := ⟨Reg.SYS_CAP0, 8, 8⟩
abbrev SYS_CAP0_WAL : Field := ⟨Reg.SYS_CAP0, 4, 4⟩
abbrev SYS_CAP0_STACK : Field := ⟨Reg.SYS_CAP0, 0, 4⟩
abbrev SYS_CAP1_CAN : Field := ⟨Reg.SYS_CAP1, 24, 8⟩
abbrev SYS_CAP1_SER : Field := ⟨Reg.SYS_CAP1, 16, 8⟩
abbrev SYS_CAP1_MVB : Field := ⟨Reg.SYS_CAP1, 8, 8⟩
abbrev SYS_CAP1_DDR : Field := ⟨Reg.SYS_CAP1, 0, 8⟩
abbrev SYS_RESET_CAUSE : Field := ⟨Reg.SYS_RESET, 0, 4⟩
abbrev SYS_PLUG_FAULT : Field := ⟨Reg.SYS_PLUG, 31, 1⟩
abbrev SYS_PLUG_CHANGED : Field := ⟨Reg.SYS_PLUG, 30, 1⟩
abbrev SYS_PLUG_SIDE : Field := ⟨Reg.SYS_PLUG, 11, 1⟩
abbrev SYS_PLUG_POS : Field := ⟨Reg.SYS_PLUG, 8, 3⟩
end Fld

/-- What REGISTER_WRITE may change in one 32-bit word of the register tables: the masks of its RW, RWL, W1C and W1S
bits (R17). `dims` are the counts and strides of an indexed register. -/
structure LayRow where
  addr : Nat
  dims : List (Nat × Nat)
  rw : Nat
  rwl : Nat
  w1c : Nat
  w1s : Nat
  deriving DecidableEq, Repr

/-- Writable words, part 1. -/
def layout0 : List LayRow := [
  ⟨0x70020, [], 0x0, 0xFFFFF000, 0x0, 0x0⟩,   -- FIO_CATBASE_LO
  ⟨0x80020, [], 0x0, 0xFFFFF000, 0x0, 0x0⟩,   -- MEAS_CATBASE_LO
  ⟨0x90020, [], 0x0, 0xFFFFF000, 0x0, 0x0⟩,   -- WAL_CATBASE_LO
  ⟨0xB0020, [], 0x0, 0xFFFFF000, 0x0, 0x0⟩,   -- TRDP_CATBASE_LO
  ⟨0xC0020, [], 0x0, 0xFFFFF000, 0x0, 0x0⟩,   -- MVB_CATBASE_LO
  ⟨0xD0020, [], 0x0, 0xFFFFF000, 0x0, 0x0⟩,   -- CAN_CATBASE_LO
  ⟨0xE0020, [], 0x0, 0xFFFFF000, 0x0, 0x0⟩,   -- SER_CATBASE_LO
  ⟨0x70024, [], 0x0, 0xFF, 0x0, 0x0⟩,   -- FIO_CATBASE_HI
  ⟨0x80024, [], 0x0, 0xFF, 0x0, 0x0⟩,   -- MEAS_CATBASE_HI
  ⟨0x90024, [], 0x0, 0xFF, 0x0, 0x0⟩,   -- WAL_CATBASE_HI
  ⟨0xB0024, [], 0x0, 0xFF, 0x0, 0x0⟩,   -- TRDP_CATBASE_HI
  ⟨0xC0024, [], 0x0, 0xFF, 0x0, 0x0⟩,   -- MVB_CATBASE_HI
  ⟨0xD0024, [], 0x0, 0xFF, 0x0, 0x0⟩,   -- CAN_CATBASE_HI
  ⟨0xE0024, [], 0x0, 0xFF, 0x0, 0x0⟩,   -- SER_CATBASE_HI
  ⟨0x70028, [], 0x0, 0x1FFF, 0x0, 0x0⟩,   -- FIO_CATCOUNT
  ⟨0x80028, [], 0x0, 0x1FFF, 0x0, 0x0⟩,   -- MEAS_CATCOUNT
  ⟨0x90028, [], 0x0, 0x1FFF, 0x0, 0x0⟩,   -- WAL_CATCOUNT
  ⟨0xB0028, [], 0x0, 0x1FFF, 0x0, 0x0⟩,   -- TRDP_CATCOUNT
  ⟨0xC0028, [], 0x0, 0x1FFF, 0x0, 0x0⟩,   -- MVB_CATCOUNT
  ⟨0xD0028, [], 0x0, 0x1FFF, 0x0, 0x0⟩,   -- CAN_CATCOUNT
  ⟨0xE0028, [], 0x0, 0x1FFF, 0x0, 0x0⟩,   -- SER_CATCOUNT
  ⟨0x7002C, [], 0x0, 0x1, 0x0, 0x0⟩,   -- FIO_CATCTL
  ⟨0x8002C, [], 0x0, 0x1, 0x0, 0x0⟩,   -- MEAS_CATCTL
  ⟨0x9002C, [], 0x0, 0x1, 0x0, 0x0⟩,   -- WAL_CATCTL
  ⟨0xB002C, [], 0x0, 0x1, 0x0, 0x0⟩,   -- TRDP_CATCTL
  ⟨0xC002C, [], 0x0, 0x1, 0x0, 0x0⟩,   -- MVB_CATCTL
  ⟨0xD002C, [], 0x0, 0x1, 0x0, 0x0⟩,   -- CAN_CATCTL
  ⟨0xE002C, [], 0x0, 0x1, 0x0, 0x0⟩,   -- SER_CATCTL
  ⟨0x10024, [], 0x0, 0x0, 0x1F, 0x0⟩,   -- TIM_FLAGS
  ⟨0x10028, [], 0x100, 0x213, 0x0, 0x0⟩,   -- TIM_CTL
  ⟨0x1002C, [], 0x0, 0x3FFFFFFF, 0x0, 0x0⟩,   -- TIM_JUMPLIMIT
  ⟨0x10068, [], 0xFFFFFFFF, 0x0, 0x0, 0x0⟩,   -- TIM_PPS_SEC [31:0]
  ⟨0x1006C, [], 0xFFFFFFFF, 0x0, 0x0, 0x0⟩,   -- TIM_PPS_SEC [63:32]
  ⟨0x10070, [], 0x0, 0x1FF7F, 0x0, 0x0⟩,   -- TIM_GPTPCFG
  ⟨0x180000, [], 0xFFFFFFFF, 0x0, 0x0, 0x0⟩,   -- INV_ANN_ID
  ⟨0x180008, [], 0xFFFFFFFF, 0x0, 0x0, 0x0⟩,   -- INV_ANN_MT [31:0]
  ⟨0x18000C, [], 0xFFFFFFFF, 0x0, 0x0, 0x0⟩,   -- INV_ANN_MT [63:32]
  ⟨0x180014, [], 0x0, 0xFFFFFFFF, 0x0, 0x0⟩,   -- INV_COMID
  ⟨0x180020, [], 0x3, 0x0, 0x0, 0x0⟩   -- INV_HOLD
]

/-- Writable words, part 2. -/
def layout1 : List LayRow := [
  ⟨0x20020, [], 0xFFFFFFFF, 0x0, 0x0, 0x0⟩,   -- TRIAD_LOANENTRY [31:0]
  ⟨0x20024, [], 0xFF, 0x0, 0x0, 0x0⟩,   -- TRIAD_LOANENTRY [63:32]
  ⟨0x20028, [], 0x7FFFF, 0x0, 0x0, 0x0⟩,   -- TRIAD_LOANBASE
  ⟨0x2002C, [], 0x7FF, 0x0, 0x0, 0x0⟩,   -- TRIAD_LOANSIZE
  ⟨0x51000, [(1024, 0x4)], 0xFFFFFFFF, 0x0, 0x0, 0x0⟩,   -- GAR_CFGWIN
  ⟨0x60004, [], 0x0, 0x7, 0x0, 0x0⟩,   -- RTS_POLICY
  ⟨0x60008, [], 0x0, 0xFF800000, 0x0, 0x0⟩,   -- RTS_IMGBASE_LO
  ⟨0x6000C, [], 0x0, 0xFF, 0x0, 0x0⟩,   -- RTS_IMGBASE_HI
  ⟨0x60030, [], 0xFFFFFFFF, 0x0, 0x0, 0x0⟩,   -- RTS_OCTARGET [31:0]
  ⟨0x60034, [], 0xFFFFFFFF, 0x0, 0x0, 0x0⟩,   -- RTS_OCTARGET [63:32]
  ⟨0x30040, [(8, 0x8)], 0x0, 0xFFFFFFFF, 0x0, 0x0⟩,   -- APC_RESETVEC [31:0]
  ⟨0x30044, [(8, 0x8)], 0x0, 0xFF, 0x0, 0x0⟩,   -- APC_RESETVEC [63:32]
  ⟨0x40000, [], 0x0, 0x1F, 0x0, 0x0⟩,   -- FAB_AGE
  ⟨0x40100, [(27, 0x4)], 0x0, 0x7F, 0x0, 0x0⟩,   -- FAB_FWWR
  ⟨0x40400, [(32, 0x20)], 0x0, 0xFFFFF000, 0x0, 0x0⟩,   -- FAB_RGN_BASE [31:0]
  ⟨0x40404, [(32, 0x20)], 0x0, 0xFF, 0x0, 0x0⟩,   -- FAB_RGN_BASE [63:32]
  ⟨0x40408, [(32, 0x20)], 0x0, 0x3F, 0x0, 0x0⟩,   -- FAB_RGN_SIZE
  ⟨0x4040C, [(32, 0x20)], 0x0, 0xF, 0x0, 0x0⟩,   -- FAB_RGN_ATTR
  ⟨0x40410, [(32, 0x20)], 0x0, 0x7F007F, 0x0, 0x0⟩,   -- FAB_RGN_MASK
  ⟨0x70004, [], 0x0, 0x3F, 0x0, 0x0⟩,   -- FIO_EVCOLL
  ⟨0x80004, [], 0x10, 0xC, 0x0, 0x0⟩,   -- MEAS_SYNCCTL
  ⟨0x8000C, [], 0xFFFF, 0x0, 0x0, 0x0⟩,   -- MEAS_FREEZE
  ⟨0x80010, [], 0x0, 0x3F, 0x0, 0x0⟩,   -- MEAS_EVCOLL
  ⟨0x80018, [], 0xFFFFFFFF, 0x0, 0x0, 0x0⟩,   -- MEAS_SYNCAT [31:0]
  ⟨0x8001C, [], 0xFFFFFFFF, 0x0, 0x0, 0x0⟩,   -- MEAS_SYNCAT [63:32]
  ⟨0x90004, [], 0x3, 0x0, 0x0, 0x0⟩,   -- WAL_CTL
  ⟨0x90008, [], 0x0, 0x331F, 0x0, 0x0⟩,   -- WAL_NODECFG
  ⟨0x9000C, [], 0x0, 0xFFFFFFFF, 0x0, 0x0⟩,   -- WAL_SCHEDID
  ⟨0x90014, [], 0x0, 0xFFF, 0x0, 0x0⟩,   -- WAL_GUARD
  ⟨0x90018, [], 0x0, 0xFFFF, 0x0, 0x0⟩,   -- WAL_SPAN
  ⟨0x9001C, [], 0x0, 0x3F, 0x0, 0x0⟩,   -- WAL_EVCOLL
  ⟨0x90070, [], 0x0, 0xFFFF, 0x0, 0x0⟩,   -- WAL_LINKNOM
  ⟨0xA0000, [], 0x0, 0xFFFF, 0x0, 0x0⟩,   -- ETH_AGETIME
  ⟨0xA0004, [], 0x0, 0x3F, 0x0, 0x0⟩,   -- ETH_EVCOLL
  ⟨0xA0100, [(8, 0x10)], 0x103, 0x7FFF238, 0x0, 0x0⟩,   -- ETH_PORTCFG_0 to 7
  ⟨0xA0180, [], 0x0, 0x7FFF238, 0x0, 0x0⟩,   -- ETH_PORTCFG_8
  ⟨0xA0190, [], 0x0, 0x7FFF038, 0x0, 0x0⟩,   -- ETH_PORTCFG_9
  ⟨0xA0108, [(10, 0x10)], 0x0, 0xFFFFFFFF, 0x0, 0x0⟩,   -- ETH_LAT
  ⟨0xA0200, [(18, 0x30)], 0xFFFFFFC0, 0x0, 0x0, 0x0⟩,   -- ETH_RBASE [31:0]
  ⟨0xA0204, [(18, 0x30)], 0xFF, 0x0, 0x0, 0x0⟩   -- ETH_RBASE [63:32]
]

/-- Writable words, part 3. -/
def layout2 : List LayRow := [
  ⟨0xA0208, [(18, 0x30)], 0xFFFFFFC0, 0x0, 0x0, 0x0⟩,   -- ETH_RCBASE [31:0]
  ⟨0xA020C, [(18, 0x30)], 0xFF, 0x0, 0x0, 0x0⟩,   -- ETH_RCBASE [63:32]
  ⟨0xA0210, [(18, 0x30)], 0x8000001F, 0x0, 0x0, 0x0⟩,   -- ETH_RCTL
  ⟨0xA0214, [(18, 0x30)], 0xFFFFFFFF, 0x0, 0x0, 0x0⟩,   -- ETH_LTTOL
  ⟨0xA2000, [(256, 0x10), (4, 0x4)], 0x0, 0xFFFFFFFF, 0x0, 0x0⟩,   -- ETH_SF
  ⟨0xA3000, [(128, 0x10), (4, 0x4)], 0x0, 0xFFFFFFFF, 0x0, 0x0⟩,   -- ETH_FM
  ⟨0xA3800, [(128, 0x10), (4, 0x4)], 0x0, 0xFFFFFFFF, 0x0, 0x0⟩,   -- ETH_FRER
  ⟨0xA4004, [(4094, 0x4)], 0x0, 0x83FF03FF, 0x0, 0x0⟩,   -- ETH_VLAN
  ⟨0xA8000, [(8, 0x800), (2, 0x400), (128, 0x8)], 0xFF, 0x0, 0x0, 0x0⟩,   -- ETH_GCL [31:0]
  ⟨0xA8004, [(8, 0x800), (2, 0x400), (128, 0x8)], 0xFFFFFF, 0x0, 0x0, 0x0⟩,   -- ETH_GCL [63:32]
  ⟨0xAC000, [(8, 0x10)], 0x107, 0x0, 0x0, 0x200⟩,   -- ETH_GCLCTL
  ⟨0xAD000, [(256, 0x10), (4, 0x4)], 0x0, 0xFFFFFFFF, 0x0, 0x0⟩,   -- ETH_FDBS
  ⟨0xB0004, [(2, 0x4)], 0x0, 0xFFFFFFFF, 0x0, 0x0⟩,   -- TRDP_HOSTIP
  ⟨0xB000C, [], 0xFFFFFFFF, 0x0, 0x0, 0x0⟩,   -- TRDP_LTTOL
  ⟨0xB0010, [], 0x0, 0xFFFFFFFF, 0x0, 0x0⟩,   -- TRDP_INVGRP
  ⟨0xB0014, [], 0x0, 0xEFFF, 0x0, 0x0⟩,   -- TRDP_INVCFG
  ⟨0xB0018, [], 0x0, 0x3F, 0x0, 0x0⟩,   -- TRDP_EVCOLL
  ⟨0xB0050, [], 0x0, 0xFF800000, 0x0, 0x0⟩,   -- TRDP_WORKBASE [31:0]
  ⟨0xB0054, [], 0x0, 0xFF, 0x0, 0x0⟩,   -- TRDP_WORKBASE [63:32]
  ⟨0xC0004, [], 0x0, 0x3F, 0x0, 0x0⟩,   -- MVB_EVCOLL
  ⟨0xD0004, [], 0x0, 0x3F, 0x0, 0x0⟩,   -- CAN_EVCOLL
  ⟨0xE0004, [], 0x0, 0x3F, 0x0, 0x0⟩,   -- SER_EVCOLL
  ⟨0xC0800, [(2, 0x30)], 0xFFFFFFC0, 0x0, 0x0, 0x0⟩,   -- MVB_RBASE [31:0]
  ⟨0xC0804, [(2, 0x30)], 0xFF, 0x0, 0x0, 0x0⟩,   -- MVB_RBASE [63:32]
  ⟨0xD0800, [(8, 0x30)], 0xFFFFFFC0, 0x0, 0x0, 0x0⟩,   -- CAN_RBASE [31:0]
  ⟨0xD0804, [(8, 0x30)], 0xFF, 0x0, 0x0, 0x0⟩,   -- CAN_RBASE [63:32]
  ⟨0xE0800, [(8, 0x30)], 0xFFFFFFC0, 0x0, 0x0, 0x0⟩,   -- SER_RBASE [31:0]
  ⟨0xE0804, [(8, 0x30)], 0xFF, 0x0, 0x0, 0x0⟩,   -- SER_RBASE [63:32]
  ⟨0xC0808, [(2, 0x30)], 0xFFFFFFC0, 0x0, 0x0, 0x0⟩,   -- MVB_RCBASE [31:0]
  ⟨0xC080C, [(2, 0x30)], 0xFF, 0x0, 0x0, 0x0⟩,   -- MVB_RCBASE [63:32]
  ⟨0xD0808, [(8, 0x30)], 0xFFFFFFC0, 0x0, 0x0, 0x0⟩,   -- CAN_RCBASE [31:0]
  ⟨0xD080C, [(8, 0x30)], 0xFF, 0x0, 0x0, 0x0⟩,   -- CAN_RCBASE [63:32]
  ⟨0xE0808, [(8, 0x30)], 0xFFFFFFC0, 0x0, 0x0, 0x0⟩,   -- SER_RCBASE [31:0]
  ⟨0xE080C, [(8, 0x30)], 0xFF, 0x0, 0x0, 0x0⟩,   -- SER_RCBASE [63:32]
  ⟨0xC0810, [(2, 0x30)], 0x8000001F, 0x0, 0x0, 0x0⟩,   -- MVB_RCTL
  ⟨0xD0810, [(8, 0x30)], 0x8000001F, 0x0, 0x0, 0x0⟩,   -- CAN_RCTL
  ⟨0xE0810, [(8, 0x30)], 0x8000001F, 0x0, 0x0, 0x0⟩,   -- SER_RCTL
  ⟨0xC0010, [], 0x0, 0x30FFF, 0x0, 0x0⟩,   -- MVB_CFG
  ⟨0xD0060, [(4, 0x10)], 0x5, 0xA, 0x0, 0x0⟩,   -- CAN_CTL
  ⟨0xD0064, [(4, 0x10)], 0x0, 0xFFFF7F7F, 0x0, 0x0⟩   -- CAN_NBT
]

/-- Writable words, part 4. -/
def layout3 : List LayRow := [
  ⟨0xD0068, [(4, 0x10)], 0x0, 0xFF1F0F0F, 0x0, 0x0⟩,   -- CAN_DBT
  ⟨0xE0060, [(4, 0x10)], 0xFF03E3, 0x10, 0x0, 0x0⟩,   -- SER_CFG
  ⟨0xE0064, [(4, 0x10)], 0xFFFFFF, 0x0, 0x0, 0x0⟩,   -- SER_BAUD
  ⟨0xF0100, [(16, 0x40)], 0xFFFFFFC0, 0x0, 0x0, 0x0⟩,   -- CRR_RBASE [31:0]
  ⟨0xF0104, [(16, 0x40)], 0xFF, 0x0, 0x0, 0x0⟩,   -- CRR_RBASE [63:32]
  ⟨0xF0108, [(16, 0x40)], 0xFFFFFFC0, 0x0, 0x0, 0x0⟩,   -- CRR_RCBASE [31:0]
  ⟨0xF010C, [(16, 0x40)], 0xFF, 0x0, 0x0, 0x0⟩,   -- CRR_RCBASE [63:32]
  ⟨0xF0110, [(16, 0x40)], 0x8000011F, 0x0, 0x0, 0x0⟩,   -- CRR_RCTL
  ⟨0xF0114, [(16, 0x40)], 0x1F, 0x0, 0x0, 0x0⟩,   -- CRR_CFG
  ⟨0xF0600, [(16, 0x20)], 0xFFFFFFFF, 0x0, 0x0, 0x0⟩,   -- CRR_CHKPOLY [31:0]
  ⟨0xF0604, [(16, 0x20)], 0xFFFFFFFF, 0x0, 0x0, 0x0⟩,   -- CRR_CHKPOLY [63:32]
  ⟨0xF0608, [(16, 0x20)], 0xFFFFFFFF, 0x0, 0x0, 0x0⟩,   -- CRR_CHKINIT [31:0]
  ⟨0xF060C, [(16, 0x20)], 0xFFFFFFFF, 0x0, 0x0, 0x0⟩,   -- CRR_CHKINIT [63:32]
  ⟨0xF0610, [(16, 0x20)], 0x777F, 0x0, 0x0, 0x0⟩,   -- CRR_CHKCFG
  ⟨0x100100, [(8, 0x80)], 0xC7FF777F, 0x0, 0x0, 0x0⟩,   -- LPE_CFG
  ⟨0x100108, [(8, 0x80)], 0xFFFFFFFF, 0x0, 0x0, 0x0⟩,   -- LPE_POLY [31:0]
  ⟨0x10010C, [(8, 0x80)], 0xFFFFFFFF, 0x0, 0x0, 0x0⟩,   -- LPE_POLY [63:32]
  ⟨0x100110, [(8, 0x80)], 0xFFFFFFFF, 0x0, 0x0, 0x0⟩,   -- LPE_INIT [31:0]
  ⟨0x100114, [(8, 0x80)], 0xFFFFFFFF, 0x0, 0x0, 0x0⟩,   -- LPE_INIT [63:32]
  ⟨0x100118, [(8, 0x80)], 0xFFFFFFFF, 0x0, 0x0, 0x0⟩,   -- LPE_WINBASE [31:0]
  ⟨0x10011C, [(8, 0x80)], 0xFF, 0x0, 0x0, 0x0⟩,   -- LPE_WINBASE [63:32]
  ⟨0x100120, [(8, 0x80)], 0xFFFFFFFF, 0x0, 0x0, 0x0⟩,   -- LPE_WINLEN [31:0]
  ⟨0x100124, [(8, 0x80)], 0xFF, 0x0, 0x0, 0x0⟩,   -- LPE_WINLEN [63:32]
  ⟨0x100128, [(8, 0x80)], 0xFFFFFFFF, 0x0, 0x0, 0x0⟩,   -- LPE_SKIPSPAN
  ⟨0x110008, [], 0x0, 0x3, 0x0, 0x0⟩,   -- CSC_CTL
  ⟨0x11000C, [], 0x0, 0xFFFF, 0x0, 0x0⟩,   -- CSC_RDTIMEOUT
  ⟨0x110010, [], 0x0, 0xFFFFF000, 0x0, 0x0⟩,   -- CSC_INVBASE [31:0]
  ⟨0x110014, [], 0x0, 0xFF, 0x0, 0x0⟩,   -- CSC_INVBASE [63:32]
  ⟨0x11001C, [], 0x0, 0x3F, 0x0, 0x0⟩,   -- CSC_EVCOLL
  ⟨0x120004, [], 0x0, 0xFFF, 0x0, 0x0⟩,   -- ARC_COMMITAGE
  ⟨0x120008, [], 0x3F, 0x0, 0x0, 0x0⟩,   -- ARC_SEALLIM
  ⟨0x120020, [], 0x3F, 0x0, 0x0, 0x0⟩,   -- ARC_RDCOLL
  ⟨0x120028, [], 0xFFFFFFFF, 0x0, 0x0, 0x0⟩,   -- ARC_RDPOS [31:0]
  ⟨0x12002C, [], 0xFFFFFFFF, 0x0, 0x0, 0x0⟩,   -- ARC_RDPOS [63:32]
  ⟨0x120100, [(10, 0x40)], 0xFFFFFFC0, 0x0, 0x0, 0x0⟩,   -- ARC_RBASE [31:0]
  ⟨0x120104, [(10, 0x40)], 0xFF, 0x0, 0x0, 0x0⟩,   -- ARC_RBASE [63:32]
  ⟨0x120108, [(10, 0x40)], 0xFFFFFFC0, 0x0, 0x0, 0x0⟩,   -- ARC_RCBASE [31:0]
  ⟨0x12010C, [(10, 0x40)], 0xFF, 0x0, 0x0, 0x0⟩   -- ARC_RCBASE [63:32]
]

/-- Writable words, part 5. -/
def layout4 : List LayRow := [
  ⟨0x120110, [(10, 0x40)], 0x8000001F, 0x0, 0x0, 0x0⟩,   -- ARC_RCTL
  ⟨0x120114, [(10, 0x40)], 0x0, 0x8FFF0FFF, 0x0, 0x0⟩,   -- ARC_RSRC
  ⟨0x121000, [(64, 0x80)], 0x8000FFFF, 0x0, 0x0, 0x0⟩,   -- ARC_CCFG
  ⟨0x130004, [], 0x0, 0xD, 0x0, 0x0⟩,   -- RPL_CFG
  ⟨0x130010, [], 0xFFFFFFFF, 0x0, 0x0, 0x0⟩,   -- RPL_HOTARGET [31:0]
  ⟨0x130014, [], 0xFFFFFFFF, 0x0, 0x0, 0x0⟩,   -- RPL_HOTARGET [63:32]
  ⟨0x130018, [], 0xFFFFFFFF, 0x0, 0x0, 0x0⟩,   -- RPL_PKGID
  ⟨0x130020, [], 0x0, 0xFFC00000, 0x0, 0x0⟩,   -- RPL_STAGEBASE [31:0]
  ⟨0x130024, [], 0x0, 0xFF, 0x0, 0x0⟩,   -- RPL_STAGEBASE [63:32]
  ⟨0x150020, [], 0xFFFFFFFF, 0x0, 0x0, 0x0⟩,   -- LCS_SRCADDR [31:0]
  ⟨0x150024, [], 0xFF, 0x0, 0x0, 0x0⟩,   -- LCS_SRCADDR [63:32]
  ⟨0x150028, [], 0xFFFFFFFF, 0x0, 0x0, 0x0⟩,   -- LCS_SRCLEN
  ⟨0x151000, [(1024, 0x4)], 0xFFFFFFFF, 0x0, 0x0, 0x0⟩,   -- LCS_TOKWIN
  ⟨0x170100, [(2, 0x40)], 0xFFFFFFC0, 0x0, 0x0, 0x0⟩,   -- PRV_RBASE [31:0]
  ⟨0x170104, [(2, 0x40)], 0xFF, 0x0, 0x0, 0x0⟩,   -- PRV_RBASE [63:32]
  ⟨0x170108, [(2, 0x40)], 0xFFFFFFC0, 0x0, 0x0, 0x0⟩,   -- PRV_RCBASE [31:0]
  ⟨0x17010C, [(2, 0x40)], 0xFF, 0x0, 0x0, 0x0⟩,   -- PRV_RCBASE [63:32]
  ⟨0x170110, [(2, 0x40)], 0x8000001F, 0x0, 0x0, 0x0⟩,   -- PRV_RCTL
  ⟨0x160018, [], 0x1FF, 0x0, 0x0, 0x0⟩   -- PWR_PFWIRQ
]

/-- The writable words of every register that has no row of its own, from the tables of the chapters. -/
def regLayout : List LayRow :=
  layout0 ++ layout1 ++ layout2 ++ layout3 ++ layout4

/-- Whether an offset from a row's first address is a whole sum of its strides, within the counts. -/
def dimsHit : List (Nat × Nat) → Nat → Bool
  | [], d => d == 0
  | (n, st) :: t, d => let i := min (d / st) (n - 1); dimsHit t (d - i * st)

/-- The layout row of a register word, if any of its bits can be written. -/
def layRow (a : Nat) : Option LayRow :=
  regLayout.find? fun r => decide (r.addr ≤ a) && dimsHit r.dims (a - r.addr)

end Sys2Proof.Machine
end

