-- ==== Sys2Proof/Machine/Ops.lean ====
section
/-! DEFINITION. The named operations over the register file, the memory, the tables and module time; the offering of
events and Provenance records; the firewall's refusal. Every meaning is written over these. -/

namespace Sys2Proof.Machine

/-- Scalar items of an event's payload, 4 bytes each, little-endian, in the table's order (DEDUCED from the worked example
of the Archive chapter, where a port number takes 4 bytes; assumption 6). -/
def p4 (vs : List Nat) : List Byte := vs.flatMap (leBytes 4)

/-- 64-bit items of an event's payload, 8 bytes each (assumption 6). -/
def p8 (vs : List Nat) : List Byte := vs.flatMap (leBytes 8)

/-- Whether the `n` bits of a mask have a bit set. -/
def bitsOf (n v : Nat) : List Nat := (List.range n).filter fun i => v.testBit i

/-! ### Sparse tables in one canonical form -/

/-- The value at a number: the listed one, else the default. -/
def sget {α : Type} (d : Nat → α) : List (Nat × α) → Nat → α
  | [], a => d a
  | (k, v) :: t, a => if k = a then v else sget d t a

/-- Put an entry before a table of higher numbers, or leave it out where it equals the default. -/
def scons {α : Type} [DecidableEq α] (d : Nat → α) (a : Nat) (v : α) (t : List (Nat × α)) : List (Nat × α) :=
  if v = d a then t else (a, v) :: t

/-- Write one number, keeping the canonical form. -/
def sset {α : Type} [DecidableEq α] (d : Nat → α) : List (Nat × α) → Nat → α → List (Nat × α)
  | [], a, v => scons d a v []
  | (k, w) :: t, a, v =>
    if a < k then scons d a v ((k, w) :: t)
    else if a = k then scons d a v t
    else (k, w) :: sset d t a v

/-- The canonical form: numbers rising from `lo` on, no entry equal to its default. -/
def swf {α : Type} [DecidableEq α] (d : Nat → α) : Nat → List (Nat × α) → Bool
  | _, [] => true
  | lo, (k, v) :: t => decide (lo ≤ k) && decide (v ≠ d k) && swf d (k + 1) t

/-- The entry of a table. -/
def tget {α : Type} [Inhabited α] (t : Tab α) (i : Nat) : α := sget (fun _ => default) t i

/-- Set the entry of a table, in place of every entry of that number. -/
def tset {α : Type} [Inhabited α] [DecidableEq α] (t : Tab α) (i : Nat) (v : α) : Tab α :=
  sset (fun _ => default) (t.filter fun x => x.1 != i) i v

/-- Change the entry of a table. -/
def tmod {α : Type} [Inhabited α] [DecidableEq α] (t : Tab α) (i : Nat) (f : α → α) : Tab α := tset t i (f (tget t i))

/-! ### The register file (R16) -/

namespace State

/-- The register file in canonical form. -/
def regsWf (s : State) : Bool := swf Config.resetWord 0 s.regs

/-- A register word. -/
def rdw (s : State) (a : Nat) : Word := sget Config.resetWord s.regs a

/-- A register word as a number. -/
def rd (s : State) (a : Nat) : Nat := (s.rdw a).toNat

/-- Write a register word, cut to 32 bits. -/
def wr (s : State) (a v : Nat) : State := { s with regs := sset Config.resetWord s.regs a (BitVec.ofNat 32 v) }

/-- A 64-bit register: the low half at the lower address (R16). -/
def rd64 (s : State) (a : Nat) : Nat := s.rd a + 4294967296 * s.rd (a + 4)

/-- Write a 64-bit register. -/
def wr64 (s : State) (a v : Nat) : State := (s.wr a v).wr (a + 4) (v / 4294967296)

/-- Count on a 64-bit counter. -/
def add64 (s : State) (a n : Nat) : State := s.wr64 a (s.rd64 a + n)

/-- Count one on a 64-bit counter. -/
def inc64 (s : State) (a : Nat) : State := s.add64 a 1

/-- Write a signed number into a 64-bit register, two's complement. -/
def wrI64 (s : State) (a : Nat) (v : Int) : State := s.wr64 a (v % 18446744073709551616).toNat

/-- Read a 64-bit register as a signed number. -/
def rdI64 (s : State) (a : Nat) : Int :=
  let v := s.rd64 a
  if v < 9223372036854775808 then (v : Int) else (v : Int) - 18446744073709551616

/-- A field of a register: of its word, or of its two words where the field reaches beyond the first. -/
def getF (s : State) (f : Field) : Nat :=
  (if f.lo + f.len ≤ 32 then s.rd f.addr else s.rd64 f.addr) / 2 ^ f.lo % 2 ^ f.len

/-- A number with bits `[lo + len - 1 : lo]` replaced by the low bits of `v`. -/
def putBits (w lo len v : Nat) : Nat :=
  w - (w / 2 ^ lo % 2 ^ len) * 2 ^ lo + (v % 2 ^ len) * 2 ^ lo

/-- Set a field, leaving the other bits. -/
def setF (s : State) (f : Field) (v : Nat) : State :=
  if f.lo + f.len ≤ 32 then s.wr f.addr (putBits (s.rd f.addr) f.lo f.len v)
  else s.wr64 f.addr (putBits (s.rd64 f.addr) f.lo f.len v)

/-- A one-bit field as a truth value. -/
def bit (s : State) (f : Field) : Bool := s.getF f != 0

/-- Set a one-bit field. -/
def setB (s : State) (f : Field) (b : Bool) : State := s.setF f (b2n b)

end State

/-! ### Check-value arithmetic (R422, R423) -/

/-- The parameters of a check value (R422). -/
structure ChkParam where
  w : Nat
  poly : Nat
  init : Nat
  refin : Bool
  refout : Bool
  inv : Bool
  deriving DecidableEq, Repr

/-- The low `w` bits of a number in reverse order. -/
def reflect (w v : Nat) : Nat := (List.range w).foldl (fun r i => 2 * r + b2n (v.testBit i)) 0

/-- The parameters that a configuration word with its polynomial and initial value gives: the preset's, or its own with
WIDTH taken into 3 to 64 (R422, R423). -/
def chkParam (cfg poly init : Nat) : ChkParam :=
  match cfg / 4096 % 8 with
  | 1 => ⟨32, 0x04C11DB7, 0xFFFFFFFF, true, true, true⟩
  | 2 => ⟨32, 0x1EDC6F41, 0xFFFFFFFF, true, true, true⟩
  | 3 => ⟨16, 0x1021, 0xFFFF, false, false, false⟩
  | 4 => ⟨64, 0x42F0E1EBA9EA3693, 0, false, false, false⟩
  | _ =>
    let w := max 3 (min 64 (cfg % 128))
    ⟨w, poly % 2 ^ w, init % 2 ^ w, cfg.testBit 9, cfg.testBit 10, cfg.testBit 8⟩

/-- Fold `n` bits of a byte, most significant first. -/
def chkBits (p : ChkParam) (b : Nat) : Nat → Nat → Nat
  | 0, r => r
  | n + 1, r =>
    let r' := 2 * r % 2 ^ p.w
    chkBits p b n (if r.testBit (p.w - 1) != b.testBit n then r' ^^^ p.poly else r')

/-- Fold bytes into a running value. -/
def chkFold (p : ChkParam) (r : Nat) (bs : List Byte) : Nat :=
  bs.foldl (fun r b => chkBits p (if p.refin then reflect 8 b.toNat else b.toNat) 8 r) r

/-- Final processing (R422). -/
def chkResult (p : ChkParam) (r : Nat) : Nat :=
  let v := if p.refout then reflect p.w r else r
  if p.inv then v ^^^ (2 ^ p.w - 1) else v

/-- Chunks of `n` elements, by fuel. -/
def chunks {α : Type} (n : Nat) : Nat → List α → List (List α)
  | 0, _ => []
  | f + 1, l => if l.isEmpty then [] else l.take n :: chunks n f (l.drop n)

namespace State

/-- The parameters of Loupe unit `u`. -/
def lpeParam (s : State) (u : Nat) : ChkParam := chkParam (s.rd (Reg.LPE_CFG u)) (s.rd64 (Reg.LPE_POLY u)) (s.rd64 (Reg.LPE_INIT u))

/-- Loupe unit `u` folds bytes: running value, LPE_RES and LPE_BYTES (R420, R422). -/
def lpeFold (s : State) (u r : Nat) (bs : List Byte) : State :=
  let p := s.lpeParam u
  let r := chkFold p r bs
  let s : State := { s with lpe := tset s.lpe u (some r) }
  (s.wr64 (Reg.LPE_RES u) (chkResult p r)).add64 (Reg.LPE_BYTES u) bs.length

/-- Whether a unit is under test now. -/
def unitTested (s : State) (blk unit : Nat) : Bool :=
  s.getF Fld.STE_STATUS_STATE != 0 && s.getF Fld.STE_STATUS_BLOCK == blk && s.getF Fld.STE_STATUS_UNIT == unit

/-- A unit of data meets Loupe unit `u`: folded in continuous mode, and held until its end in per-unit mode (R420). -/
def lpeMeet (s : State) (u r : Nat) (bs : List Byte) : State :=
  if s.getF (Fld.LPE_CFG_MODE u) = 0 then s.lpeFold u r bs
  else { s with lpeUnits := tmod s.lpeUnits u fun x => { x with passed := x.passed ++ [bs] } }

/-- A unit of data of a stream, under way since clock `start`, passes the units that select it and were enabled before it
began; a unit under test folds nothing (R419 to R421). -/
def lpeFeedFrom (s : State) (start src sel : Nat) (bs : List Byte) : State :=
  s.lpe.foldl (fun s x => match x.2 with
    | some r =>
      if s.getF (Fld.LPE_CFG_SRC x.1) = src ∧ s.getF (Fld.LPE_CFG_SEL x.1) = sel ∧ !s.unitTested 0x10 x.1 ∧
          (tget s.lpeUnits x.1).from_ ≤ start then
        s.lpeMeet x.1 r bs
      else s
    | none => s) s

/-- A unit of data that passes at once. -/
def lpeFeed (s : State) (src sel : Nat) (bs : List Byte) : State := s.lpeFeedFrom s.time.clock src sel bs

/-- A fabric write passes the enabled units whose window it meets (R419, SRC 0). -/
def lpeWrite (s : State) (a : Nat) (bs : List Byte) : State :=
  s.lpe.foldl (fun s x => match x.2 with
    | some r =>
      if s.getF (Fld.LPE_CFG_SRC x.1) = 0 ∧ !s.unitTested 0x10 x.1 then
        let lo := s.getF (Fld.LPE_WINBASE_BASE x.1)
        let hi := lo + s.getF (Fld.LPE_WINLEN_LEN x.1)
        let inside := (bs.zipIdx.filter fun b => decide (lo ≤ a + b.2 ∧ a + b.2 < hi)).map fun b => b.1
        if inside.isEmpty then s else s.lpeMeet x.1 r inside
      else s
    | none => s) s

end State

namespace State

/-! ### Memory (R26) -/

/-- The memory in canonical form. -/
def memWf (s : State) : Bool := swf (fun _ => Config.memByte) 0 s.mem

/-- One byte of memory. -/
def memGet (s : State) (a : Nat) : Byte := sget (fun _ => Config.memByte) s.mem a

/-- Bytes of memory. -/
def memRead (s : State) (a n : Nat) : List Byte := (List.range n).map fun i => s.memGet (a + i)

/-- A little-endian number of memory. -/
def memNat (s : State) (a n : Nat) : Nat := leNat (s.memRead a n)

/-- Write one byte. -/
def memSet (s : State) (a : Nat) (b : Byte) : State :=
  { s with mem := sset (fun _ => Config.memByte) s.mem a b }

/-- Write bytes at rising addresses. -/
def memPut (s : State) (a : Nat) : List Byte → State
  | [] => s
  | b :: t => (s.memSet a b).memPut (a + 1) t

/-- Lines written by another agent are no longer held only in an L1 (R228). -/
def ownLines (s : State) (a n : Nat) : State :=
  { s with app := { s.app with
      l1Undo := s.app.l1Undo.filter fun x => decide (x.2.1 / 64 + 1 ≤ a / 64 ∨ (a + n - 1) / 64 < x.2.1 / 64) } }

/-- The base of the image area (R186). -/
def imgBase (s : State) : Nat :=
  s.getF Fld.RTS_IMGBASE_LO_BASE_LO * 0x800000 + s.getF Fld.RTS_IMGBASE_HI_BASE_HI * 0x100000000

/-- The replicated line of an address (R479, R482), if it lies in an area of the replicated state. -/
def replLine (s : State) (a : Nat) : Option Nat :=
  let o := a - s.imgBase
  if 0x1000000000 ≤ a ∧ a < 0x1001000000 then some ((a - 0x1000000000) / 256)
  else if 0x1040000000 ≤ a ∧ a < 0x1040100000 then some (0x10000000 + (a - 0x1040000000) / 256)
  else if s.imgBase = 0 ∨ a < s.imgBase then none
  else if o < 0x400000 ∧ o % 0x40000 / 0x10000 = 2 then some (0x20000000 + o / 0x40000 * 256 + o % 0x10000 / 256)
  else if 0x400000 ≤ o ∧ o < 0x400800 then some (0x30000000 + (o - 0x400000) / 256)
  else if 0x401000 ≤ o ∧ o < 0x403000 then some (0x30000008 + (o - 0x401000) / 256)
  else none

/-- A number in its place in a rising list without repeats. -/
def insertUp (n : Nat) : List Nat → List Nat
  | [] => [n]
  | x :: t => if n < x then n :: x :: t else if n = x then x :: t else x :: insertUp n t

/-- The address of a replicated line (R479, R482). -/
def lineAddr (s : State) (l : Nat) : Nat :=
  let i := l % 0x10000000
  match l / 0x10000000 with
  | 0 => 0x1000000000 + 256 * i
  | 1 => 0x1040000000 + 256 * i
  | 2 => s.imgBase + i / 256 * 0x40000 + 0x20000 + i % 256 * 256
  | _ => s.imgBase + (if i < 8 then 0x400000 + 256 * i else 0x401000 + 256 * (i - 8))

/-- Before a write to a pending line its old content is captured; with the capture buffer of 2,048 lines full the line leaves
the snapshot, which then completes no marker (R480). -/
def captureLine (s : State) (l : Nat) : State :=
  if !s.rpl.snapOpen || !(s.rpl.snap.contains l || s.rpl.walk.contains l) || s.rpl.captured.any (fun c => c.1 == l) then s
  else if s.rpl.captured.length < 2048 then
    { s with rpl := { s.rpl with captured := s.rpl.captured ++ [(l, s.memRead (s.lineAddr l) 256)] } }
  else
    let s := s.inc64 Reg.RPL_COWFULL
    { s with rpl := { s.rpl with
        snap := s.rpl.snap.filter (· != l), walk := s.rpl.walk.filter (· != l), dirty := insertUp l s.rpl.dirty, snapVoid := true } }

/-- The Replica port of a paired module captures the pending lines of a write, and marks its lines as dirty (R480). -/
def markDirty (s : State) (a n : Nat) : State :=
  if s.bit Fld.RPL_CFG_PAIRED then
    ((List.range ((a + n - 1) / 256 - a / 256 + 1)).filterMap fun i => s.replLine (a / 256 * 256 + 256 * i)).foldl
      (fun s l =>
        let s := s.captureLine l
        { s with rpl := { s.rpl with dirty := insertUp l s.rpl.dirty } }) s
  else s

/-- Write bytes to memory as a device does: every L1 copy of the lines is invalidated (R228), replicated lines become
dirty (R480), and the Loupe units that watch the window see them (R419). -/
def memWrite (s : State) (a : Nat) (bs : List Byte) : State :=
  if bs.isEmpty then s else (((s.ownLines a bs.length).markDirty a bs.length).memPut a bs).lpeWrite a bs

end State

/-- The regions of the address map (R26). -/
inductive Region where
  | ddr
  | vault
  | retain
  | arcStage
  | prvStage
  | bootState
  | counters
  | cascade (p : Nat)
  | block (i : Nat)
  deriving DecidableEq, Repr

/-- The region of a physical address; `none` outside the map (R26, R27). -/
def regionOf (a : Nat) : Option Region :=
  if a < 0x400000000 then some .ddr
  else if a < 0x1000000000 then none
  else if a < 0x1001000000 then some .vault
  else if a < 0x1040000000 then none
  else if a < 0x1040100000 then some .retain
  else if a < 0x1040200000 then some .arcStage
  else if a < 0x1040280000 then some .prvStage
  else if a < 0x10403F0000 then some .bootState
  else if a < 0x1040400000 then some .counters
  else if a < 0x2000000000 then none
  else if a < 0x4000000000 then some (.cascade ((a - 0x2000000000) / 0x400000000))
  else if a < 0xF000000000 then none
  else if a < 0xF0001B0000 then some (.block ((a - 0xF000000000) / 0x10000))
  else none

/-- The physical address of a register word. -/
def regPhys (a : Nat) : Nat := 0xF000000000 + a

namespace State

/-! ### Module time (R50 to R53) -/

/-- Let module time pass, but never beyond the next beat edge (assumption 1). -/
def elapse (s : State) (dt : Nat) : State :=
  let d := min dt (s.time.edgeAt - s.time.mt)
  { s with time := { s.time with
      mt := s.time.mt + d
      mono := s.time.mono + d
      clock := s.time.clock + d
      gained := s.time.gained + d * s.time.phase } }

/-- Take the next free value's number. -/
def freshCtr (s : State) : State := { s with freeCtr := s.freeCtr + 1 }

/-- Answer an access. -/
def respond (s : State) (status : Nat) (data : Nat) : State := { s with resp := { status, exc := none, data } }

/-- Raise an exception in the requesting core. -/
def raise (s : State) (e : CoreExc) : State := { s with resp := { status := 0, exc := some e, data := 0 } }

/-! ### Archive event ports (R453, R455) -/

/-- Take the next SEQ of a source (R451): 32 bits, wrapping. -/
def takeSeq (s : State) (src : Nat) : State :=
  { s with arc := { s.arc with seqs := tset s.arc.seqs src ((tget s.arc.seqs src + 1) % 4294967296) } }

/-- A block writes an event of a given instant: the occurrence joins its event port's queue of 32, or is refused with reason 2
(R455). The source ID is the block index plus 1 (R450). -/
def emitAt (s : State) (mt blk code sev coll : Nat) (payload : List Byte) : State :=
  let q := tget s.arc.ports blk
  if q.length < 32 then
    { s with arc := { s.arc with ports := tset s.arc.ports blk (q ++ [⟨blk + 1, code, sev, coll, mt, payload⟩]) } }
  else (((s.takeSeq (blk + 1)).inc64 (Reg.ARC_OFFERED coll)).inc64 (Reg.ARC_REFUSED coll))

/-- A block writes an event now. -/
def emit (s : State) (blk code sev coll : Nat) (payload : List Byte) : State := s.emitAt s.time.mt blk code sev coll payload

/-! ### Module records of the Provenance log (R540) -/

/-- A module-originated record enters the port queue of 64, or is counted in PRV_LOST. -/
def prvOffer (s : State) (r : PrvRec) : State :=
  let s := s.inc64 Reg.PRV_OFFERED
  if s.prv.port.length < 64 then { s with prv := { s.prv with port := s.prv.port ++ [r] } }
  else s.inc64 Reg.PRV_LOST

/-- The identity of a changed object in a Provenance record: a free value (R538). -/
def objectBytes (kind n : Nat) : List Byte := leBytes 32 (Config.objectId kind n).toNat

/-- A record of the module itself: port 0xFE, the identity of the object, and the hashes of the contents (R538). -/
def prvModule (s : State) (kind : Nat) (object : List Byte) (oldHash newHash : Nat) : State :=
  s.prvOffer { mt := s.time.mt, kind, port := 0xFE, session := 0, user := 0, reservedOk := true, object, oldHash, newHash }

end State

/-! ### The firewall (R243 to R246) -/

/-- The class bit of a requester class (R243). -/
def clsBit : Cls → Nat
  | .t => 0
  | .l => 1
  | .ap => 2
  | .as => 3
  | .c => 4
  | .x => 5
  | .d => 6

/-- Whether a class is that of a core, which receives an access fault in place of a status (R27, R246). -/
def isCore : Cls → Bool
  | .t | .l | .ap | .as => true
  | _ => false

/-- The block whose write mask governs a register word: its own, or for a DBL slot the slot's block (R245). -/
def maskBlock (a : Nat) : Nat := if a / 0x10000 = 0x19 then a % 0x10000 / 0x100 else a / 0x10000

/-- The words outside the command window that accept writes only from voted Triad transactions (R129, R178, R219, R495). -/
def votedWords : List Nat :=
  [Reg.GAR_PERMIT, Reg.GAR_WITHDRAW, Reg.GAR_ACK, Reg.GAR_BRKTEST, Reg.GAR_CFGCMD, Reg.RTS_DONE, Reg.RTS_OCCTL,
    Reg.RTS_OCTARGET, Reg.RTS_OCTARGET + 4, Reg.RTS_FORCEUPD, Reg.RTS_POLICY, Reg.RTS_IMGBASE_LO, Reg.RTS_IMGBASE_HI,
    Reg.TRIAD_LOAN, Reg.TRIAD_LOANENTRY, Reg.TRIAD_LOANENTRY + 4, Reg.TRIAD_LOANBASE, Reg.TRIAD_LOANSIZE, Reg.TRIAD_REINT,
    Reg.TRIAD_SAFEREQ, Reg.RPL_CTL, Reg.RPL_HOTARGET, Reg.RPL_HOTARGET + 4, Reg.RPL_PKGID]

/-- Registers that accept writes only from voted Triad transactions (R129, R178, R219, R495). -/
def votedOnly (a : Nat) : Bool := decide (Reg.GAR_CFGWIN ≤ a ∧ a < Reg.GAR_CFGWIN + 0x1000) || votedWords.contains a

namespace State

/-- Whether the firewall lets a class write a register word (R126, R129, R244, R245). An offset of the DBL page that lies in the
slot of no block falls under no write mask: a write to it has no effect (R13). -/
def fwWrite (s : State) (k : Cls) (a : Nat) : Bool :=
  if k = .l then a = Reg.TRIAD_LOANRET || (decide (a / 0x10000 = 0x19) && (maskBlock a = 0x0F || maskBlock a = 0x10))
  else if a = Reg.TRIAD_LOANRET then false
  else if votedOnly a then k = .t
  else if a / 0x10000 = 0x19 ∧ 27 ≤ maskBlock a then true
  else if a / 0x10000 = 0x1A then false
  else (s.getF (Fld.FAB_FWWR_MASK (maskBlock a))).testBit (clsBit k)

/-- The firewall refuses an access: no effect, counted, recorded, and answered with an access fault or ERR_FIREWALL
(R246); one of TC on Loan counts in TRIAD_LOANFW too (R126). -/
def fwRefuse (s : State) (k : Cls) (phys : Nat) (write : Bool) : State :=
  let s := ((s.inc64 Reg.FAB_FWREFUSED).wr64 Reg.FAB_FWLAST_ADDR (phys % 0x10000000000)).wr Reg.FAB_FWLAST_INFO
    (256 * b2n write + clsBit k)
  let s := if k = .l then s.inc64 Reg.TRIAD_LOANFW else s
  if isCore k then s.raise .accessFault else s.respond 0x14 0

/-! ### Units under test (R517) -/

/-- The unit of a register word in the blocks whose units are tested apart (R515): a Courier channel, a Loupe unit. -/
def regUnit (a : Nat) : Option Nat :=
  let o := a % 0x10000
  if a / 0x10000 = 0x0F then
    (if 0x100 ≤ o ∧ o < 0x500 then some ((o - 0x100) / 0x40) else if 0x600 ≤ o ∧ o < 0x800 then some ((o - 0x600) / 0x20)
    else none)
  else if a / 0x10000 = 0x10 then (if 0x100 ≤ o ∧ o < 0x500 then some ((o - 0x100) / 0x80) else none)
  else none

/-- Whether a register word belongs to a unit under test. -/
def underTest (s : State) (a : Nat) : Bool :=
  let b := a / 0x10000
  if b = 0x0F ∨ b = 0x10 then
    match regUnit a with
    | some u => s.unitTested b u
    | none => false
  else if b = 0x02 ∨ b = 0x03 ∨ b = 0x19 then false
  else s.getF Fld.STE_STATUS_STATE != 0 && s.getF Fld.STE_STATUS_BLOCK == b

/-- Whether RWL fields are read only: in SEALED and in RETIRED (R17, R497). -/
def sealedCfg (s : State) : Bool := decide (3 ≤ s.getF Fld.LCS_STATE_STATE)

/-- Whether a unit is held disabled after a failed test (R518). -/
def heldDisabled (s : State) (blk unit : Nat) : Bool := (s.rd (Reg.STE_FAILMAP blk)).testBit unit

/-- Whether a unit is out of action: under test, or held disabled after a failed test (R517, R518). -/
def unitOff (s : State) (blk unit : Nat) : Bool := s.unitTested blk unit || s.heldDisabled blk unit

/-- An interrupt message to a mailbox: 0 to 7 the application cores, 8 the Triad (R106, R192, R551). -/
def interrupt (s : State) (box msg : Nat) : State :=
  { s with mbox := tmod s.mbox box fun l => if l.contains msg then l else l ++ [msg] }

end State

end Sys2Proof.Machine
end

