-- ==== Sys2Proof/Machine/Operands.lean ====
section
/-! DEFINITION. How the operands of commands are read: registers as software reads them, memory under the address map,
the page attributes and the firewall, and the check values and hashes that several blocks compute. -/

namespace Sys2Proof.Machine

/-! ### Registers as software reads them (R13, R17, R50, R580, R583) -/

namespace State

/-- A 32-bit half of a 64-bit value, by whether the address is the upper one. -/
def half (v : Nat) (hi : Bool) : Nat := (if hi then v / 4294967296 else v) % 4294967296

/-- The block whose doorbell errors a <BLK>_DBERR register repeats (R580). -/
def dberrAlias (a : Nat) : Option Nat :=
  if a / 8 * 8 = 0xC0008 then some 0x0C else if a / 8 * 8 = 0xD0008 then some 0x0D else if a / 8 * 8 = 0xE0008 then some 0x0E
  else if a / 8 * 8 = 0xF0008 then some 0x0F else if a / 8 * 8 = Reg.ARC_DBERR then some 0x12
  else if a / 8 * 8 = Reg.PRV_DBERR then some 0x17 else if a / 8 * 8 = 0xA0060 then some 0x0A else none

/-- A place of a shadow bank as it reads (R86, R89). -/
def shadow (s : State) (b i : Nat) : Nat := tget (if b = 0 then s.inv.bank0 else s.inv.bank1) i

/-- The dissents of a lane within the last 3,600 s (R109). -/
def dissentCount (s : State) (l : Nat) : Nat :=
  (s.triad.dissents.filter fun d => decide (d.1 = l ∧ s.time.mono < d.2 + 3600000000000)).length

/-- A register word as an ordinary read returns it: the counts of time from the time state, the dissents of the last hour, the
input power, which no command tells (assumption 130), a <BLK>_DBERR from SYS_DBERR_i, the places of the shadow banks, the DBL
page and the reserved part of the POP page as 0, every other word from the register file. Of a unit under test every word reads
0 but CRR_CHSTAT_c, whose STATE then reads 3 (R416, R517). -/
def readReg (s : State) (a : Nat) : Nat :=
  if a / 8 * 8 = Reg.TIM_MT then half s.time.mt (a % 8 == 4)
  else if a / 8 * 8 = Reg.TIM_MONO then half s.time.mono (a % 8 == 4)
  else if a / 8 * 8 = Reg.TIM_BEAT then half s.time.beat (a % 8 == 4)
  else if a / 8 * 8 = Reg.TIM_BEATSEQ then half s.time.beatSeq (a % 8 == 4)
  else if a / 0x10000 = 0x19 then 0
  else if s.underTest a then (if a / 0x10000 = 0x0F ∧ a % 0x40 = 0x18 ∧ a % 0x10000 < 0x500 then 3 else 0)
  else if a = Reg.PWR_PIN then (Config.inputPower s.time.clock).toNat
  else if a = Reg.TRIAD_DISWIN then
    min 15 (s.dissentCount 0) + 256 * min 15 (s.dissentCount 1) + 65536 * min 15 (s.dissentCount 2)
  else if 0x181000 ≤ a ∧ a < 0x18D000 then half (s.shadow ((a - 0x181000) / 0x6000) ((a - 0x181000) % 0x6000 / 8)) (a % 8 == 4)
  else match dberrAlias a with
    | some i => s.rd (Reg.SYS_DBERR i + a % 8)
    | none => s.rd a

/-- An aligned 64-bit read of a register location (R16, R583). -/
def readReg64 (s : State) (a : Nat) : Nat := s.readReg a + 4294967296 * s.readReg (a + 4)

/-- A byte as a requester reads it. -/
def busByte (s : State) (a : Nat) : Byte :=
  match regionOf a with
  | some (.block _) => BitVec.ofNat 8 (s.readReg ((a - 0xF000000000) / 4 * 4) / 256 ^ (a % 4))
  | some (.cascade _) => 0
  | _ => s.memGet a

/-- Bytes as a requester reads them on this module. -/
def busRead (s : State) (a n : Nat) : List Byte := (List.range n).map fun i => s.busByte (a + i)

end State

/-! ### Page attributes (R234 to R238) -/

/-- A region-table entry in effect (R236, R237): base, size, attributes and masks. -/
structure RgnEntry where
  base : Nat
  size : Nat
  cache : Bool
  tcache : Bool
  strict : Bool
  release : Bool
  wr : Nat
  rd : Nat
  deriving DecidableEq, Repr

/-- The attributes of an address (R234). -/
structure Pma where
  cache : Bool := false
  tcache : Bool := false
  strict : Bool := false
  doorbell : Bool := false
  release : Bool := false
  deriving DecidableEq, Repr

namespace State

/-- A word of the region table in effect. -/
def rgnWord (s : State) (a : Nat) : Nat := (sget Config.resetWord s.app.rgnEff a).toNat

/-- Region-table entry `r` in effect, `none` where disabled: LOG2SIZE below 12 or above 36 (R251). TCACHE needs a write mask of
class T alone, and STRICT with CACHE or TCACHE acts as STRICT alone (R237). -/
def rgnEntry (s : State) (r : Nat) : Option RgnEntry :=
  let l := s.rgnWord (Reg.FAB_RGN_SIZE r) % 64
  if l < 12 ∨ 36 < l then none
  else
    let b := (s.rgnWord (Reg.FAB_RGN_BASE r) / 4096 * 4096 + 4294967296 * (s.rgnWord (Reg.FAB_RGN_BASE r + 4) % 256)) / 2 ^ l * 2 ^ l
    let at_ := s.rgnWord (Reg.FAB_RGN_ATTR r)
    let m := s.rgnWord (Reg.FAB_RGN_MASK r)
    let wr := m / 65536 % 128
    let strict := at_.testBit 2
    let alone := strict && (at_.testBit 0 || at_.testBit 1)
    some { base := b, size := 2 ^ l, cache := at_.testBit 0 && !strict, tcache := at_.testBit 1 && !strict && wr ≤ 1
           strict, release := at_.testBit 3 && !alone, wr, rd := m % 128 }

/-- The entry with the lowest number that covers an address (R236). -/
def rgnOf (s : State) (a : Nat) : Option RgnEntry :=
  (List.range 32).findSome? fun r =>
    match s.rgnEntry r with
    | some e => if e.base ≤ a ∧ a < e.base + e.size then some e else none
    | none => none

/-- Whether an address lies in the image area of 8 MiB (R186); a base of 0 places none (DEDUCED, assumption 8). -/
def inImage (s : State) (a : Nat) : Bool :=
  decide (s.imgBase ≠ 0 ∧ s.imgBase ≤ a ∧ a < s.imgBase + 0x800000)

/-- The ranges of the image area that R186 names for Triad software. -/
def imageTriad (s : State) (a : Nat) : Bool :=
  let o := a - s.imgBase
  if o < 0x400000 then decide (o % 0x40000 / 0x10000 = 1)
  else decide (o < 0x400800 ∨ (0x401000 ≤ o ∧ o < 0x403000) ∨ 0x410000 ≤ o)

/-- The PMA set of an address: that of its fixed region, else of the region-table entry that covers it, else CACHE (R234 to
R236). -/
def pmaOf (s : State) (a : Nat) : Pma :=
  match regionOf a with
  | some .vault => { tcache := true }
  | some (.block i) => { strict := i == 0x19 || i == 0x1A, doorbell := i == 0x19 }
  | some .ddr =>
    if s.inImage a then {}
    else match s.rgnOf a with
      | some e => { cache := e.cache, tcache := e.tcache, strict := e.strict, release := e.release }
      | none => { cache := true }
  | _ => {}

/-- Whether an address is in a STRICT page (R238). -/
def strictPage (s : State) (a : Nat) : Bool := (s.pmaOf a).strict

/-- Whether a store to an address has release semantics: the DBL page, or a RELEASE page (R232). -/
def releasePage (s : State) (a : Nat) : Bool := (s.pmaOf a).doorbell || (s.pmaOf a).release

/-- The stack position of this module (R428, R568). -/
def stackPos (s : State) : Nat := s.getF Fld.SYS_PLUG_POS

/-- Whether a Cascade window leads to another module of the stack (R28). -/
def windowOpen (s : State) (p : Nat) : Bool := p != s.stackPos && (s.rd Reg.CSC_MEMBERS).testBit p

/-! ### Far memory through Cascade (R430 to R438) -/

/-- The port towards a stack position: 0 up, 1 down (R428). -/
def farPort (s : State) (p : Nat) : Nat := if p < s.stackPos then 0 else 1

/-- Change Cascade. -/
def modCsc (s : State) (f : CscSt → CscSt) : State := { s with csc := f s.csc }

/-- The credit units that a payload takes (R444; PRESUMED: 16 bytes each, as in PCI Express, assumption 90). -/
def dataCredits (n : Nat) : Nat := (n + 15) / 16

/-- This end consumes `n` credits of a type at a port (R433, R444). -/
def consume (s : State) (port k n : Nat) : State := s.modCsc fun c => { c with used := tmod c.used (port * 6 + k) fun x => x + n }

/-- `n` posted transactions leave at a port, each with a header credit (R433); on a link that is not up they are lost at once
(R444; DEDUCED, assumption 126). -/
def postedOut (s : State) (port n : Nat) : State :=
  let s := s.add64 (Reg.CSC_TXPW port) n
  if s.getF (if port = 0 then Fld.CSC_STATUS_UPSTATE else Fld.CSC_STATUS_DNSTATE) = 2 then
    (s.modCsc fun c => { c with sent := tmod c.sent port fun k => k + n }).consume port 0 n
  else s.add64 (Reg.CSC_PWLOST port) n

/-- A posted write at `a` behind the window of position `p`, in pieces of at most 256 bytes, each a unit of the Loupe stream of
its port, and one write of the fabric (R419, R433). -/
def farPost (s : State) (p a : Nat) (bs : List Byte) : State :=
  let port := s.farPort p
  (chunks 256 bs.length bs).foldl (fun (s : State) x =>
    ((s.postedOut port 1).consume port 1 (dataCredits x.length)).lpeFeed 5 port x) (s.lpeWrite a bs)

/-- The lowest free tag of a port (R434). -/
def freeTag (s : State) (port : Nat) : Option Nat :=
  (List.range 64).find? fun t => !(s.csc.tags.any fun x => x.ask.port == port && x.tag == t)

/-- A read or AMO is sent once a tag is reserved; it waits where none is free (R434). -/
def sendNp (s : State) (x : CscAsk) : State :=
  match s.freeTag x.port with
  | some t =>
    let s := (s.inc64 (Reg.CSC_TXNP x.port)).modCsc fun c => { c with tags := c.tags ++ [⟨x, t, s.time.clock⟩] }
    (s.consume x.port 2 1).consume x.port 3 (if x.amo then dataCredits x.len else 0)
  | none => s.modCsc fun c => { c with readQ := c.readQ ++ [x] }

/-- A read of `n` bytes at `a` behind the window of position `p`, in requests of at most 512 bytes (R433). -/
def farRead (s : State) (p a n : Nat) (req : Requester) : State :=
  (List.range (max 1 ((n + 511) / 512))).foldl (fun (s : State) i =>
    s.sendNp ⟨s.farPort p, req, false, a + 512 * i, min 512 (n - 512 * i)⟩) s

/-- An AMO to position `p` waits for the lock of its target; the first one asks for it (R442). -/
def farAmo (s : State) (p a n : Nat) (req : Requester) : State :=
  let first := s.csc.amoQ.isEmpty && s.csc.lockHeld.isNone
  let s := s.modCsc fun c => { c with amoQ := c.amoQ ++ [(p, req, a, n)] }
  if first then s.postedOut (s.farPort p) 1 else s

/-- A write that has passed map and firewall reaches its target: memory here, or another module. -/
def storeTo (s : State) (a : Nat) (bs : List Byte) : State :=
  match regionOf a with
  | some (.cascade p) => s.farPost p a bs
  | _ => s.memWrite a bs

/-- Whether TC on Loan may reach a memory address (R126): reads of DDR, and writes to the loan window. -/
def loanMay (s : State) (write : Bool) (a : Nat) : Bool :=
  match regionOf a with
  | some .ddr => !write || (match s.triad.loanTc with
    | some c => decide (c.windowLo ≤ a ∧ a < c.windowHi)
    | none => false)
  | _ => false

/-- Whether an address lies in a device-owned area: the TRDP working area of 8 MiB (R367) or the Replica staging area of
4 MiB (R483); a base of 0 places none (DEDUCED, assumption 8). -/
def deviceOwned (s : State) (a : Nat) : Bool :=
  let w := s.getF Fld.TRDP_WORKBASE_BASE * 0x800000
  let r := s.getF Fld.RPL_STAGEBASE_BASE * 0x400000
  decide (w ≠ 0 ∧ w ≤ a ∧ a < w + 0x800000) || decide (r ≠ 0 ∧ r ≤ a ∧ a < r + 0x400000)

/-- What the map and the firewall answer to an access to one byte of memory: DONE, ERR_ADDR or ERR_FIREWALL
(R27 to R29, R187, R244, R245, R430). -/
def memCheck (s : State) (k : Cls) (write : Bool) (a : Nat) : Nat :=
  match regionOf a with
  | none => 0x10
  | some r =>
    let ok : Bool := match r with
      | .ddr =>
        if k = .l then s.loanMay write a && !(write && (s.inImage a || s.deviceOwned a))
        else if s.inImage a then !write || (k = .t && s.imageTriad a)
        else if s.deviceOwned a then !write
        else match s.rgnOf a with
          | some e => (if write then e.wr else e.rd).testBit (clsBit k)
          | none => true
      | .vault => if write then k = .t else k = .t || k = .ap || k = .as || k = .d
      | .retain => if write then k = .t else k = .t || k = .ap || k = .as
      | .arcStage | .prvStage | .bootState | .counters => !write && (k = .t || k = .ap || k = .as)
      | .cascade _ => k ≠ .l
      | .block i =>
        if i = 0x1A then !write && (k = .t || k = .ap || k = .as || k = .x)
        else if write then s.fwWrite k (a - 0xF000000000)
        else if i = 0x05 then k ≠ .l
        else true
    match r with
    | .cascade p =>
      let o := (a - 0x2000000000) % 0x400000000
      if s.windowOpen p ∧ (o < 0x3E0000000 ∨ (0x3F0000000 ≤ o ∧ o < 0x3F01B0000)) then (if ok then 0 else 0x14) else 0x10
    | _ => if ok then 0 else 0x14

/-- The words of the register blocks that have a write rule of their own. -/
def ownRule : List Nat := Reg.TRIAD_LOANRET :: votedWords

/-- The bytes of a range that decide an access: the first, and each at which a rule of the map may change. 2 KiB is the finest
grain of the map, the image area and the region table; in the register blocks it is the 256 bytes of a doorbell slot, with the
words that have a write rule of their own. -/
def rangePoints (a n : Nat) : List Nat :=
  let grid (g : Nat) : List Nat := (List.range ((a + n - 1) / g - a / g)).map fun i => (a / g + i + 1) * g
  if a < 0xF000000000 then a :: grid 2048
  else a :: (grid 256 ++ (ownRule.map regPhys).filter fun w => decide (a ≤ w + 3 ∧ w < a + n))

/-- The first failing answer over a range of bytes, else DONE. -/
def rangeCheck (s : State) (k : Cls) (write : Bool) (a n : Nat) : Nat :=
  if n = 0 then 0 else (((rangePoints a n).map (s.memCheck k write)).find? (· != 0)).getD 0

end State

namespace State

/-! ### Stores of the application cores (R224, R231, R232) -/

/-- Change the state of application cores and fabric. -/
def modApp (s : State) (f : AppSt → AppSt) : State := { s with app := f s.app }

/-- Whether a pair is Paired (R222). -/
def isPaired (s : State) (p : Nat) : Bool := (s.rd Reg.APC_PAIRCFG).testBit p

/-- The firewall class of an application core (R243). -/
def coreCls (s : State) (c : Nat) : Cls := if s.isPaired (c / 2) then .ap else .as

/-- The core whose store buffer a hart uses: the even core of a Paired pair (R224). -/
def hartOf (s : State) (c : Nat) : Nat := if s.isPaired (c / 2) then c / 2 * 2 else c

/-- The state of a pair in APC_PAIRSTAT (R250). -/
def pairState (s : State) (p : Nat) : Nat := s.getF (Fld.APC_PAIRSTAT_STATE p)

/-- Whether a requester is an application core. -/
def isApp (req : Requester) : Bool := req.cls == .ap || req.cls == .as

/-- Whether a requester can issue an access now: not the Triad in the safe state (R111), TC only while it runs on a Loan, not
halted (R126, R127, R519), not a core of a pair that is stopped on a mismatch or under test (R225, R517), not the odd core of a
Paired pair, which is never seen (R224). -/
def issues (s : State) (req : Requester) : Bool :=
  if req.cls = .t then s.getF Fld.TRIAD_STATUS_MODE != 4
  else if req.cls = .l then s.triad.loanTc.isSome && !s.bit Fld.TRIAD_LOANSTAT_TC_HALTED
  else if isApp req then
    s.pairState (req.core / 2) != 2 && s.pairState (req.core / 2) != 3 && !(s.isPaired (req.core / 2) && req.core % 2 == 1)
  else true

/-- One store of a core becomes globally visible: the bytes it replaces in a cached page are kept as long as the line may be
only in the pair's L1 (R225, R231, R234). -/
def visibleStore (s : State) (core : Nat) (x : Nat × List Byte) : State :=
  if !(s.pmaOf x.1).cache then s.storeTo x.1 x.2
  else
    let old := s.memRead x.1 x.2.length
    let undo := old.zipIdx.map fun b => (core, x.1 + b.2, b.1)
    let keep := s.app.l1Undo.filter fun u => decide (u.1 = core)
    let s := s.memWrite x.1 x.2
    s.modApp fun a => { a with
      l1Undo := (a.l1Undo ++ keep.filter fun u => !a.l1Undo.contains u &&
          decide (x.1 / 64 ≤ u.2.1 / 64 ∧ u.2.1 / 64 ≤ (x.1 + x.2.length - 1) / 64))
        ++ undo.filter fun u => !keep.any fun k => k.2.1 == u.2.1 }

/-- All earlier stores of a core become globally visible, in program order (R231). -/
def drain (s : State) (core : Nat) : State :=
  match tget s.app.storeBuf core with
  | [] => s
  | l => l.foldl (fun s x => s.visibleStore core x) (s.modApp fun a => { a with storeBuf := tset a.storeBuf core [] })

/-- The stores that a requester made before reach memory first: a core's leave its store buffer in program order (R231, R232).
-/
def prior (s : State) (req : Requester) : State := if isApp req then s.drain (s.hartOf req.core) else s

/-- Whether earlier accesses of a core still wait for a load of it, so that it cannot write a register yet (R231, R232). -/
def heldBack (s : State) (req : Requester) : Bool :=
  isApp req && s.app.parked.any fun x => s.hartOf x.1 == s.hartOf req.core

/-- A register write of a command: refused by the firewall, without effect on a unit under test, else done. -/
def regCmd (s : State) (req : Requester) (a : Nat) (f : State → State) : State :=
  if !s.issues req || s.heldBack req then s
  else
    let s := s.prior req
    if !s.fwWrite req.cls a then s.fwRefuse req.cls (regPhys a) true
    else if s.underTest a then (s.inc64 Reg.STE_BLOCKEDACC).respond 0 0
    else (f s).respond 0 0

/-- Whether bytes lie in a dirty line of the caches with an uncorrectable error (R227). -/
def lineBad (s : State) (a n : Nat) : Bool := s.app.badLines.any fun l => decide (l * 64 < a + n ∧ a < l * 64 + 64)

/-- A device has read bytes with an uncorrectable error: those of a dirty line of the caches are counted (R227). -/
def eccRead (s : State) (a n : Nat) : State :=
  if s.lineBad a n then s.inc64 Reg.APC_ECCUNCORR else s

end State

/-! ### Check values and hashes -/

/-- One step of a CRC over a byte, reflected form: `p` is the reversed polynomial. -/
def crcByteR (p : Nat) : Nat → Nat → Nat
  | 0, r => r
  | n + 1, r => crcByteR p n (if r % 2 = 1 then (r / 2) ^^^ p else r / 2)

/-- A reflected CRC over bytes. -/
def crcR (p : Nat) (r : Nat) (bs : List Byte) : Nat := bs.foldl (fun r b => crcByteR p 8 (r ^^^ b.toNat)) r

/-- CRC-32C (R456, R498, R567). -/
def crc32c (bs : List Byte) : Nat := crcR 0x82F63B78 0xFFFFFFFF bs ^^^ 0xFFFFFFFF

/-- CRC-32 of IEEE 802.3 (R482, R531). -/
def crc32 (bs : List Byte) : Nat := crcR 0xEDB88320 0xFFFFFFFF bs ^^^ 0xFFFFFFFF

/-- One step of a CRC over a byte, most significant bit first, width `w`. -/
def crcByteF (p w : Nat) : Nat → Nat → Nat
  | 0, r => r
  | n + 1, r => crcByteF p w n (if r.testBit (w - 1) then (r * 2 % 2 ^ w) ^^^ p else r * 2)

/-- CRC-64/ECMA-182 (R482). -/
def crc64 (bs : List Byte) : Nat :=
  bs.foldl (fun r b => crcByteF 0x42F0E1EBA9EA3693 64 8 (r ^^^ (b.toNat * 2 ^ 56))) 0

/-- The greatest `r` of `r0 + 2^n` below which `r ^ e` stays within `m`, bit by bit from bit `n` - 1 down. -/
def rootBits (e m : Nat) : Nat → Nat → Nat
  | 0, r => r
  | n + 1, r => rootBits e m n (if (r + 2 ^ n) ^ e ≤ m then r + 2 ^ n else r)

/-- The first `w` bits of the fraction of the `e`-th root of `p`, for `p` below 8 ^ `e`. -/
def rootFraction (w e p : Nat) : Nat := rootBits e (p * 2 ^ (w * e)) (w + 3) 0 % 2 ^ w

/-- The first 80 primes. -/
def shaPrimes : List Nat :=
  (List.range 410).filter fun n => decide (2 ≤ n) && (List.range n).all fun d => decide (d < 2) || n % d != 0

/-- A hash of the SHA-2 family (PRESUMED: FIPS 180-4, which the spec names by "SHA-256" and "SHA-384"; assumption 9): the bits
of a word, the distances of its four mixing functions, the last one of `schedLow` and `schedHigh` a shift, its round constants
and its initial value. -/
structure Sha2 where
  w : Nat
  mixE : Nat × Nat × Nat
  mixA : Nat × Nat × Nat
  schedLow : Nat × Nat × Nat
  schedHigh : Nat × Nat × Nat
  k : List Nat
  h0 : List Nat
  deriving DecidableEq, Repr

/-- The round constants of SHA-256: the cube roots of the first 64 primes. -/
def sha256K : List Nat := (shaPrimes.take 64).map (rootFraction 32 3)

/-- The round constants of SHA-384: the cube roots of the first 80 primes. -/
def sha384K : List Nat := shaPrimes.map (rootFraction 64 3)

/-- SHA-256; its initial value comes from the square roots of the first 8 primes. -/
def sha256Form : Sha2 :=
  { w := 32, mixE := (6, 11, 25), mixA := (2, 13, 22), schedLow := (7, 18, 3), schedHigh := (17, 19, 10), k := sha256K
    h0 := (shaPrimes.take 8).map (rootFraction 32 2) }

/-- SHA-384; its initial value comes from the square roots of the 9th to the 16th prime. -/
def sha384Form : Sha2 :=
  { w := 64, mixE := (14, 18, 41), mixA := (28, 34, 39), schedLow := (1, 8, 7), schedHigh := (19, 61, 6), k := sha384K
    h0 := ((shaPrimes.drop 8).take 8).map (rootFraction 64 2) }

/-- Addition of words. -/
def Sha2.add (f : Sha2) (a b : Nat) : Nat := (a + b) % 2 ^ f.w

/-- Rotation of a word to the right. -/
def Sha2.rotr (f : Sha2) (x n : Nat) : Nat := x / 2 ^ n + x % 2 ^ n * 2 ^ (f.w - n)

/-- Three rotations combined. -/
def Sha2.mix (f : Sha2) (d : Nat × Nat × Nat) (x : Nat) : Nat := (f.rotr x d.1 ^^^ f.rotr x d.2.1) ^^^ f.rotr x d.2.2

/-- Two rotations and a shift combined. -/
def Sha2.sched (f : Sha2) (d : Nat × Nat × Nat) (x : Nat) : Nat := (f.rotr x d.1 ^^^ f.rotr x d.2.1) ^^^ (x / 2 ^ d.2.2)

/-- A big-endian number. -/
def beNat (bs : List Byte) : Nat := bs.foldl (fun r b => r * 256 + b.toNat) 0

/-- The big-endian bytes of a number. -/
def beBytes (n v : Nat) : List Byte := (leBytes n v).reverse

/-- The message schedule, newest word first, by fuel. -/
def Sha2.extend (f : Sha2) : Nat → List Nat → List Nat
  | 0, w => w
  | n + 1, w =>
    let low := f.add (w.getD 15 0) (f.sched f.schedLow (w.getD 14 0))
    let high := f.add (w.getD 6 0) (f.sched f.schedHigh (w.getD 1 0))
    Sha2.extend f n (f.add low high :: w)

/-- One round over the eight working words, with the sum of its constant and its message word. -/
def Sha2.round (f : Sha2) (v : List Nat) (kw : Nat) : List Nat :=
  let x (i : Nat) : Nat := v.getD i 0
  let choice := (x 4 &&& x 5) ^^^ ((2 ^ f.w - 1 - x 4) &&& x 6)
  let majority := ((x 0 &&& x 1) ^^^ (x 0 &&& x 2)) ^^^ (x 1 &&& x 2)
  let t := f.add (f.add (x 7) (f.mix f.mixE (x 4))) (f.add choice kw)
  f.add t (f.add (f.mix f.mixA (x 0)) majority) :: ((v.take 3) ++ f.add (x 3) t :: (v.drop 4).take 3)

/-- One block of 16 words. -/
def Sha2.block (f : Sha2) (h : List Nat) (blk : List Byte) : List Nat :=
  let first := ((chunks (f.w / 8) 16 blk).map beNat).reverse
  let words := (f.extend (f.k.length - 16) first).reverse
  List.zipWith f.add h ((List.zipWith (· + ·) f.k words).foldl f.round h)

/-- The hash value as words: the message is padded to whole blocks, its length in bits at the end. -/
def Sha2.words (f : Sha2) (m : List Byte) : List Nat :=
  let n := 2 * f.w
  let pad := m ++ [0x80] ++ List.replicate ((2 * n - 1 - f.w / 4 - m.length % n) % n) 0 ++ beBytes (f.w / 4) (8 * m.length)
  (chunks n (pad.length / n) pad).foldl f.block f.h0

/-- SHA-256 as 32 bytes (R118, R538). -/
def sha256Bytes (m : List Byte) : List Byte := (sha256Form.words m).flatMap (beBytes 4)

/-- SHA-256 as a number. -/
def sha256 (m : List Byte) : Nat := beNat (sha256Bytes m)

/-- SHA-384 as a number (R503, R505): the first six words of its hash value. -/
def sha384 (m : List Byte) : Nat := beNat (((sha384Form.words m).take 6).flatMap (beBytes 8))

/-- HMAC-SHA-256 of a message under a key (PRESUMED: RFC 2104, which the spec names by "HMAC"; assumption 9). -/
def hmacSha256 (key m : List Byte) : List Byte :=
  let key := if 64 < key.length then sha256Bytes key else key
  let k := key ++ List.replicate (64 - key.length) 0
  sha256Bytes (k.map (· ^^^ 0x5C) ++ sha256Bytes (k.map (· ^^^ 0x36) ++ m))

/-- The iterations of PBKDF2 after the first: each value is the HMAC of the one before, and all are combined by XOR. -/
def pbkdf2Rounds (key : List Byte) : Nat → List Byte → List Byte → List Byte
  | 0, _, acc => acc
  | n + 1, u, acc =>
    let v := hmacSha256 key u
    pbkdf2Rounds key n v (List.zipWith (· ^^^ ·) acc v)

/-- PBKDF2-HMAC-SHA-256 with 200,000 iterations and one block of 32 bytes (R173; PRESUMED: RFC 8018, assumption 9). The salt
is 16 bytes. -/
@[irreducible] def pbkdf2 (salt : Nat) (password : List Byte) : BitVec 256 :=
  let u := hmacSha256 password (leBytes 16 salt ++ [0, 0, 0, 1])
  BitVec.ofNat 256 (beNat (pbkdf2Rounds password 199999 u u))

end Sys2Proof.Machine
end

