-- ==== Sys2Proof/Machine/Custody.lean ====
section
/-! DEFINITION. Custody as other blocks see it: the role, the enable signal and its release (R471 to R474, R486), and the
Triad's safe state, which releases it (R111). -/

namespace Sys2Proof.Machine

namespace State

/-- The role code (R471). -/
def role (s : State) : Nat := s.getF Fld.RPL_STATUS_ROLE

/-- Whether custody is held: SINGLE or CUSTODIAN. -/
def holdsCustody (s : State) : Bool := s.role == 1 || s.role == 2

/-- The custody enable signal (R472). -/
def custodyOn (s : State) : Bool := s.bit Fld.RPL_STATUS_ENABLE

/-- Whether it serves the process: with custody, and a new custodian from its edge E(t) on (R486, R489). -/
def serves (s : State) : Bool := s.custodyOn && s.rpl.resume.isNone

/-- Whether the Replica link is the only writer of the replicated areas: a standby (R479). -/
def replicaOnly (s : State) : Bool := s.role == 3 || s.role == 4

/-- The queued copies of publications are dropped with reason FLUSH at their ports (R371). -/
def flushCopies (s : State) : State :=
  let isCopy (x : EthQ) : Bool := match x.origin with
    | .trdp _ _ => true
    | _ => false
  let s := s.eth.queues.foldl (fun s kq => s.add64 (Reg.ETH_TXDROP (kq.1 / 8 % 16) 2) (kq.2.filter isCopy).length) s
  { s with eth := { s.eth with queues := s.eth.queues.filterMap fun kq =>
      let l := kq.2.filter fun x => !isCopy x
      if l.isEmpty then none else some (kq.1, l) } }

/-- The queued frames of CUST entries are dropped with reason FLUSH; a frame whose first bit has left completes (R390). -/
def flushSerial (s : State) : State :=
  let gone (x : SerTx) : Bool := x.cust && !x.started
  let s := (s.bus.queue.filter gone).foldl (fun s x => s.inc64 ((12 + x.blk % 4) * 0x10000 + 0x158 + x.unit % 4 * 0x100)) s
  { s with bus := { s.bus with queue := s.bus.queue.filter fun x => !gone x } }

/-- Whether the logic side of field I/O is out of reset; and whether it works: neither under test nor held disabled (R517, R518).
-/
def logicAlive (s : State) : Bool := s.lcs.phase != .off && s.lcs.phase != .lbist
def logicUp (s : State) : Bool := s.logicAlive && !s.unitOff 0x07 0

/-- The refreshes of every output channel stop now (R269): a channel whose coupler was refreshing it was last refreshed at
this instant (R270). -/
def stopRefresh (s : State) : State :=
  let now := s.time.clock
  let on := s.bit Fld.RPL_STATUS_ENABLE && s.logicUp && s.rpl.resume.isNone
  let stop (c : FioCh) : FioCh :=
    if c.mode = 3 ∧ !c.cplFault ∧ c.cplOk ∧ c.failAt.isNone ∧ c.refAt.isSome then { c with refAt := some now } else c
  { s with fio := { s.fio with ch := s.fio.ch.map fun x =>
      let g := s.getF (Fld.FIO_GSTAT_STATE (x.1 / 16))
      (x.1, if on && (g == 2 || g == 4) then stop x.2 else x.2) } }

/-- The enable signal falls: the blocks that R472 names see it. -/
def custodyGone (s : State) : State := (s.flushCopies.flushSerial).setB Fld.TRDP_STATUS_CUST false

/-- Condition 3 of a Loan (R124): paired, and not a custodian backed by an eligible standby. -/
def loanUnbacked (s : State) : Bool :=
  s.bit Fld.RPL_CFG_PAIRED && !(s.role == 2 && s.bit Fld.RPL_STATUS_PEER_ELIG)

/-- A Loan whose backing is gone ends at the next edge, even where the backing comes back before it (R127). -/
def loanWatch (s : State) : State :=
  if s.getF Fld.TRIAD_STATUS_MODE = 3 ∧ s.loanUnbacked then { s with triad := { s.triad with loanLost := true } } else s

/-- Enter a role; the enable signal is present only in SINGLE and CUSTODIAN (R472). -/
def setRole (s : State) (r : Nat) : State :=
  ((s.setF Fld.RPL_STATUS_ROLE r).setB Fld.RPL_STATUS_ENABLE (r == 1 || r == 2)).loanWatch

/-- Release custody into a role, counting it and writing RPL_RELEASE where the event has a code for the cause (R486,
R494): 1 Triad safe state, 2 planned switch-over, 3 dual claim, 0 none. Without custody nothing happens. -/
def releaseCustody (s : State) (cause newRole : Nat) : State :=
  if s.holdsCustody then
    let s := ((s.stopRefresh.inc64 Reg.RPL_RELEASES).setRole newRole).custodyGone
    let s := { s with rpl := { s.rpl with driving := false, claim := none } }
    if cause = 0 then s else s.emit 0x13 0x1402 5 58 (p4 [cause])
  else s

/-- A start completes: the count of failed starts is cleared (R511). -/
def startDone (s : State) : State :=
  if s.lcs.started then s
  else ({ s with lcs := { s.lcs with started := true } } : State).setF Fld.LCS_BOOTINFO_FAILSTARTS 0

/-- The Triad's mode (R122). -/
def triadMode (s : State) : Nat := s.getF Fld.TRIAD_STATUS_MODE

/-- Whether the last dissent fell in the running beat (R131). -/
def freshDissent (s : State) : Bool :=
  match s.triad.dissents.getLast? with
  | some d => decide (s.time.edgeStart ≤ d.2)
  | none => false

/-- A reintegration that is cut off counts, so that the dissent which it repaired stays accounted for; the return from a Loan
repaired none (R106, R131; DEDUCED, assumption 116). -/
def reintEnds (s : State) : State :=
  match s.triad.reint with
  | some (_, _, loan) =>
    let s : State := { s with triad := { s.triad with reint := none } }
    if loan then s else s.inc64 Reg.TRIAD_REINTS
  | none => s

/-- The Triad enters the safe state: lanes stopped, cause and reason recorded, TRIAD_SAFE written, custody released, and the
runtime stopped (R111, R195, R486). A lane whose dissent the safe state follows in the same beat no longer awaits
reintegration; an earlier one stays so (R131). In the safe state it stays as it is (R112). -/
def triadSafe (s : State) (cause reason : Nat) : State :=
  if s.triadMode = 4 then s
  else
    let s := s.reintEnds
    let lanes := (Config.laneStates (s.getF Fld.TRIAD_STATUS_MASKED) (s.getF Fld.TRIAD_STATUS_RETIRED) (s.triadMode == 3)).toNat
    let s := s.setF Fld.RTS_STATE_STATE 3
    let s := s.setF Fld.TRIAD_STATUS_MODE 4
    let s := if s.freshDissent then s.setB Fld.TRIAD_STATUS_REINT_PEND false else s
    let s := s.wr Reg.TRIAD_SAFECAUSE (reason % 256 * 256 + cause)
    let s := { s with triad := { s.triad with vfenceAt := none, loanTc := none, loanReturnDue := false
                                              loanReqAt := none, loanEnd := none, loanLost := false } }
    (s.emit 0x02 0x0205 6 56 (p4 [cause, reason, lanes])).releaseCustody 1 5

end State

end Sys2Proof.Machine
end

