-- ==== Sys2Proof/Machine/AppCores.lean ====
section
/-! DEFINITION. The application cores, their store buffers and caches, and the arbitration of the fabric (R222 to R251). -/

namespace Sys2Proof.Machine

/-- The number of a queue among the pop queues (R240). -/
def popKey : PopQueue → Nat
  | .tsq q => q.val
  | .crr c => 16 + c.val
  | .arc => 32

/-- A bit of a Courier descriptor's CTL, and RT, with which it moves its data in fabric class C2 (R400, R401). -/
def crrCtl (d : List Byte) (i : Nat) : Bool := (leNat ((d.drop 28).take 2)).testBit i
def crrRt (d : List Byte) : Bool := crrCtl d 3

namespace State

/-- A store of a core joins its store buffer of 16 entries; a full buffer first drains its oldest (R231). -/
def bufferStore (s : State) (core addr : Nat) (bytes : List Byte) : State :=
  let l := tget s.app.storeBuf core
  if l.length < 16 then s.modApp fun a => { a with storeBuf := tset a.storeBuf core (l ++ [(addr, bytes)]) }
  else match l with
    | [] => s
    | x :: rest =>
      let s := s.modApp fun a => { a with storeBuf := tset a.storeBuf core (rest ++ [(addr, bytes)]) }
      s.visibleStore core x

/-- Whether a requester is a core of a hart. -/
def ofHart (s : State) (core : Nat) (r : Requester) : Bool := isApp r && s.hartOf r.core == core

/-- Whether a load of a core has not been performed yet: a pop read of its hart that waits or is in flight (R232, R242). -/
def loading (s : State) (core : Nat) : Bool :=
  s.pops.any fun kp => (kp.2.inFlight.map (s.ofHart core)).getD false || kp.2.waiting.any (s.ofHart core)

/-- Whether an address lies in a Cascade window (R26). -/
def inWindow (a : Nat) : Bool := decide (0x2000000000 ≤ a ∧ a < 0x4000000000)

/-- Whether something of a hart waits for a load of it. -/
def behindParked (s : State) (core : Nat) : Bool := s.app.parked.any fun x => s.hartOf x.1 == core

/-- Whether a store of a core waits until a load of it has been performed: one with release semantics or to a Cascade window,
and any that follows such a one (R232, R438). -/
def mustPark (s : State) (core addr : Nat) : Bool :=
  s.behindParked core || ((s.releasePage addr || inWindow addr) && s.loading core)

/-- What a core does next waits. -/
def park (s : State) (core : Nat) (x : Parked) : State := s.modApp fun a => { a with parked := a.parked ++ [(core, x)] }

/-- A store by an application core to memory: the firewall, then the store buffer, or at once with all earlier stores where the
page has release semantics, is STRICT or lies behind Cascade (R231, R232, R238, R246, R438). -/
def coreStore (s : State) (core addr : Nat) (bytes : List Byte) : State :=
  let k := s.coreCls core
  let h := s.hartOf core
  let st := s.rangeCheck k true addr bytes.length
  let p := s.pmaOf addr
  if st = 0x10 then s.raise .accessFault
  else if st ≠ 0 then s.fwRefuse k addr true
  else if inWindow addr ∨ p.release ∨ p.strict then
    ((s.drain h).visibleStore h (addr, bytes)).respond 0 0
  else (s.bufferStore h addr bytes).respond 0 0

/-- A core loses its L1 contents: the store buffer is emptied, and of the lines that may have been only in the L1, a free
choice tells which had been written back; the others keep the bytes they had before, and an error in one is gone with it (R225
to R227). -/
def loseL1 (s : State) (core : Nat) : State :=
  let mine := s.app.l1Undo.filter fun u => decide (u.1 = core)
  let lost := mine.filter fun u => !Config.lineWrittenBack s.freeCtr (u.2.1 / 64)
  let s := s.modApp fun a => { a with
    storeBuf := tset a.storeBuf core [], l1Undo := a.l1Undo.filter fun u => decide (u.1 ≠ core)
    badLines := a.badLines.filter fun l => !lost.any fun u => u.2.1 / 64 == l }
  (lost.foldl (fun s u => s.memSet u.2.1 u.2.2) s).freshCtr

/-- The pop reads of some requesters are discarded, in flight or waiting (R241). -/
def dropReads (s : State) (of : Requester → Bool) : State :=
  { s with pops := s.pops.filterMap fun kp =>
      let p := kp.2
      let gone := (p.inFlight.map of).getD false
      let p : PopSt := { p with
        inFlight := if gone then none else p.inFlight
        data := if gone then 0 else p.data
        record := if gone then none else p.record
        waiting := p.waiting.filter fun r => !of r }
      if p = default then none else some (kp.1, p) }

/-- The fabric requester of a core of a hart. -/
def srcOfHart (s : State) (core : Nat) (w : FabWait) : Bool :=
  match w.req.src with
  | .core c => s.hartOf c.val == core
  | _ => false

/-- The outbound transactions of a core are discarded: its pop reads in flight or waiting, its stores that wait, and its
requests in the fabric (R225, R226, R241). -/
def dropPops (s : State) (core : Nat) : State :=
  let s := s.modApp fun a => { a with
    parked := a.parked.filter fun x => s.hartOf x.1 != core, waits := a.waits.filter fun w => !s.srcOfHart core w }
  s.dropReads (s.ofHart core)

/-! ### Sv39 (R223, R233; PRESUMED, the RISC-V privileged specification, assumption 131) -/

/-- How a translation ends. -/
inductive Walk where
  | at_ (addr : Nat)
  | pageFault
  | accessFault
  deriving DecidableEq, Repr

/-- Whether a leaf entry gives a store to a mode. -/
def pteGives (pte : Nat) (user sum : Bool) : Bool :=
  pte.testBit 2 && (if user then pte.testBit 4 else !pte.testBit 4 || sum) &&
    ((pte.testBit 6 && pte.testBit 7) || Config.pteUpdates)

/-- The walk of the page tables for a store, from level `n − 1` down with the table at `base`. A reserved or memory-type bit in
an entry is a page fault, since Svpbmt is not implemented (R233). -/
def walk (s : State) (k : Cls) (user sum : Bool) (va base : Nat) : Nat → Walk
  | 0 => .pageFault
  | n + 1 =>
    let a := base + va / 2 ^ (12 + 9 * n) % 512 * 8
    let pte := s.memNat a 8
    let ppn := pte / 1024 % 2 ^ 44
    if s.rangeCheck k false a 8 ≠ 0 then .accessFault
    else if !pte.testBit 0 || (pte.testBit 2 && !pte.testBit 1) || pte / 2 ^ 54 ≠ 0 then .pageFault
    else if !pte.testBit 1 && !pte.testBit 3 then walk s k user sum va (ppn * 4096) n
    else if !pteGives pte user sum || ppn % 2 ^ (9 * n) ≠ 0 then .pageFault
    else .at_ (ppn * 4096 + va % 2 ^ (12 + 9 * n))

/-- The physical address of a store of a core: its own in machine mode or without translation, else through Sv39. -/
def translate (s : State) (c : CoreAt) (va : Nat) : Walk :=
  let satp := c.satp.toNat
  if c.mode = .machine ∨ satp / 2 ^ 60 ≠ 8 then .at_ va
  else if va / 2 ^ 38 ≠ 0 ∧ va / 2 ^ 38 ≠ 2 ^ 26 - 1 then .pageFault
  else s.walk (s.coreCls c.core.val) (c.mode == .user) c.sum va (satp % 2 ^ 44 * 4096) 3

/-- A core, or a Paired pair, restarts from its reset vector in machine mode (R226). -/
def restartCore (s : State) (c : Nat) : State :=
  let p := c / 2
  let s := (s.loseL1 c).dropPops c
  let s := s.setF (Fld.APC_PAIRSTAT_STATE p) 1
  (s.inc64 (Reg.APC_RESTARTS c)).modApp fun a => { a with
    cores := tset a.cores c { pc := s.getF (Fld.APC_RESETVEC_VEC c) } }

/-- APC_RESTART for one named core: not one of the writer's own pair, not one held disabled or under test; a Paired pair
restarts only when it is stopped or halted (R226, R515, R518; DEDUCED, assumption 12). -/
def restartNamed (s : State) (req : Requester) (c : Nat) : State :=
  let p := c / 2
  let own := (req.cls = .ap ∨ req.cls = .as) ∧ req.core / 2 = p
  if own ∨ s.heldDisabled 0x03 p ∨ s.pairState p = 3 then s
  else if s.isPaired p then
    if s.pairState p = 1 then s else s.restartCore (p * 2)
  else s.restartCore c

/-! ### Fabric (R247 to R249) -/

/-- The order of grant: class first, then acceptance (R247). -/
def grantsBefore (x y : FabWait) : Bool :=
  decide (x.cls < y.cls) || (x.cls == y.cls && decide (x.req.accepted ≤ y.req.accepted))

/-- Whether the descriptor that a Courier channel has in progress carries CTL.RT (R247, R400, R401). -/
def courierRt (s : State) (c : Nat) : Bool :=
  match tget s.crr.chain c with
  | some x => crrRt x.desc
  | none => false

/-- The class in which a requester issues its requests (R247). -/
def fabClass (s : State) : FabSrc → Nat
  | .triad | .gar => 0
  | .imageEngine | .outputEngine | .walira | .ethLaunch | .trdpPublication | .measRing => 1
  | .catStaging | .replica | .trdpSubscription => 2
  | .courier c => if s.courierRt c.val then 2 else 3
  | .core _ | .tcLoan | .ethernet | .serial | .cascade | .archive | .provenance | .selfTest | .lifecycle => 3

/-- The queue of Courier's channels, as a target (R248, R400). -/
def courierQueue : Nat := 0xFFFF

/-- When a channel had its last turn of 4 KiB: 0 for one that had none, else its place among those that had, oldest first. -/
def lastTurn (s : State) : FabSrc → Nat
  | .courier c => (s.app.turns.idxOf? c.val).elim 0 (· + 1)
  | _ => 0

/-- The order in which Courier serves its channels: class first, and in one class in turn (R400). -/
def turnsBefore (s : State) (x y : FabWait) : Bool :=
  decide (x.cls < y.cls) || (x.cls == y.cls && (decide (s.lastTurn x.req.src < s.lastTurn y.req.src) ||
    (s.lastTurn x.req.src == s.lastTurn y.req.src && decide (x.req.accepted ≤ y.req.accepted))))

/-- The order of grant at a target. -/
def before (s : State) (target : Nat) (x y : FabWait) : Bool :=
  if target = courierQueue then s.turnsBefore x y else grantsBefore x y

/-- The request of a target that is granted next. -/
def nextGrant (s : State) (target : Nat) : Option FabWait :=
  (s.app.waits.filter fun w => w.req.target == target).foldl (fun best w => match best with
    | none => some w
    | some b => if s.before target b w then some b else some w) none

/-- A channel has had its turn. -/
def tookTurn (l : List Nat) : FabSrc → List Nat
  | .courier c => l.filter (· != c.val) ++ [c.val]
  | _ => l

/-- Grant one request: counted in the class at grant, and the longest wait kept (R249, R251); a turn of 4 KiB in Courier's own
queue is no grant of the fabric (R400). -/
def grant (s : State) (w : FabWait) : State :=
  let wait := s.time.clock - w.req.accepted
  let s := if w.req.target = courierQueue then s.modApp fun a => { a with turns := tookTurn a.turns w.req.src }
    else
      let s := s.inc64 (Reg.FAB_GRANTS_C w.cls)
      if s.rd Reg.FAB_MAXWAIT < wait then s.wr Reg.FAB_MAXWAIT wait else s
  s.modApp fun a => { a with waits := a.waits.filter fun x => x.req.id != w.req.id, granted := some w.req.id }

/-- Requests join, each in the class of its requester (R247). -/
def arrive (s : State) (l : List FabReq) : State :=
  s.modApp fun a => { a with waits := a.waits ++ l.map fun r => { req := r, cls := s.fabClass r.src } }

/-- The aging time in ns (R248). -/
def ageNs (s : State) : Nat := 1000 * clampAge (s.getF Fld.FAB_AGE_AGE)
where
  /-- 0 is taken as 1 µs, above 20 as 20 µs. -/
  clampAge (v : Nat) : Nat := max 1 (min 20 v)

end State

/-! ### The commands -/

/-- APC_FENCE (R231): behind stores that wait for a load it waits with them. -/
def execApcFence (dt : Nat) (core : Fin 8) (s : State) : Host.Outcome State Fault Refusal :=
  let s := s.elapse dt
  .next (if s.behindParked (s.hartOf core.val) then s.park core.val .fence else s.drain (s.hartOf core.val))

/-- CACHE_ECC_UNCORRECTABLE (R227): corrected errors are counted; an uncorrectable one marks its dirty line, whose next load
faults and whose read by a device ends with ERR_ECC, counted. -/
def execCacheEccUncorrectable (dt : Nat) (e : CacheError) (s : State) : Host.Outcome State Fault Refusal :=
  let s := s.elapse dt
  .next (match e with
    | .l1Corrected => s.inc64 Reg.APC_L1CORR
    | .l2Corrected => s.inc64 Reg.APC_L2CORR
    | .dirtyLine a => s.modApp fun x => { x with badLines := State.insertUp (a / 64) x.badLines }
    | .coreLoad _ a =>
      if s.lineBad a 1 then
        ((s.inc64 Reg.APC_ECCUNCORR).modApp fun x => { x with badLines := x.badLines.filter (· != a / 64) }).raise .accessFault
      else s
    | .deviceRead a => if s.lineBad a 1 then (s.inc64 Reg.APC_ECCUNCORR).respond 0x12 0 else s)

/-- FABRIC_GRANT (R247, R249): newly accepted requests join, and the target goes to the highest class, earliest first. -/
def execFabricGrant (dt : Nat) (arrivals : List FabReq) (target : Nat) (s : State) : Host.Outcome State Fault Refusal :=
  let s := s.elapse dt
  let s := s.arrive arrivals
  .next (match s.nextGrant target with
    | none => s
    | some w => s.grant w)

/-- FABRIC_AGE_PROMOTION (R248): a C3 request, in a target's queue or in that of Courier's channels, that has waited longer
than AGE is promoted to C2. -/
def execFabricAgePromotion (dt id : Nat) (s : State) : Host.Outcome State Fault Refusal :=
  let s := s.elapse dt
  let due (w : FabWait) : Bool := w.req.id == id && w.cls == 3 && decide (w.req.accepted + s.ageNs < s.time.clock)
  .next (
    if s.app.waits.any due then
      (s.modApp fun a => { a with waits := a.waits.map fun w => if due w then { w with cls := 2 } else w }).inc64
        Reg.FAB_PROMOTED
    else s)

end Sys2Proof.Machine
end

