-- ==== Sys2Proof/Machine/Rings.lean ====
section
/-! DEFINITION. Descriptor rings (R37 to R42): where a ring's registers lie, how the device takes descriptors and writes
completions, and what a doorbell and an enable do. -/

namespace Sys2Proof.Machine

/-- The block index of a ring block (R30). -/
def ringIndex : RingBlk → Nat
  | .eth => 0x0A
  | .mvb => 0x0C
  | .can => 0x0D
  | .ser => 0x0E
  | .crr => 0x0F
  | .arc => 0x12
  | .prv => 0x17

/-- The number of rings of a block (R360, R392, R399, R454, R465, R540). -/
def ringCount : RingBlk → Nat
  | .eth => 18
  | .mvb => 2
  | .can | .ser => 8
  | .crr => 16
  | .arc => 10
  | .prv => 2

/-- The register words of a ring: submission base, completion base, control, and the two counters. -/
structure RingRegs where
  base : Nat
  cbase : Nat
  ctl : Nat
  posted : Nat
  compl : Nat

/-- The registers of ring `q` of a block. -/
def ringRegs (b : RingBlk) (q : Nat) : RingRegs :=
  match b with
  | .eth => ⟨Reg.ETH_RBASE q, Reg.ETH_RCBASE q, Reg.ETH_RCTL q, Reg.ETH_RPOSTED q, Reg.ETH_RCOMPL q⟩
  | .mvb => ⟨Reg.MVB_RBASE q, Reg.MVB_RCBASE q, Reg.MVB_RCTL q, Reg.MVB_RPOSTED q, Reg.MVB_RCOMPL q⟩
  | .can => ⟨Reg.CAN_RBASE q, Reg.CAN_RCBASE q, Reg.CAN_RCTL q, Reg.CAN_RPOSTED q, Reg.CAN_RCOMPL q⟩
  | .ser => ⟨Reg.SER_RBASE q, Reg.SER_RCBASE q, Reg.SER_RCTL q, Reg.SER_RPOSTED q, Reg.SER_RCOMPL q⟩
  | .crr => ⟨Reg.CRR_RBASE q, Reg.CRR_RCBASE q, Reg.CRR_RCTL q, Reg.CRR_RPOSTED q, Reg.CRR_RCOMPL q⟩
  | .arc => ⟨Reg.ARC_RBASE q, Reg.ARC_RCBASE q, Reg.ARC_RCTL q, Reg.ARC_RPOSTED q, Reg.ARC_RCOMPL q⟩
  | .prv => ⟨Reg.PRV_RBASE q, Reg.PRV_RCBASE q, Reg.PRV_RCTL q, Reg.PRV_RPOSTED q, Reg.PRV_RCOMPL q⟩

/-- The bytes of a submission slot (R362, R364, R392, R401, R454, R465, R540). -/
def slotBytes (b : RingBlk) (q : Nat) : Nat :=
  match b with
  | .eth => if q < 8 ∨ q = 16 then 32 else 16
  | .mvb | .can | .ser => 16
  | .crr => 64
  | .arc => 32
  | .prv => 128

/-- The bytes of a completion slot: 16, and 32 where the completion holds a time beyond byte 15 (R362, R364, R392;
DEDUCED for the serial blocks, assumption 13). -/
def complBytes : RingBlk → Nat
  | .eth | .mvb | .can | .ser => 32
  | _ => 16

/-- The ring block of a block index, for doorbells. -/
def ringBlkOf (i : Nat) : Option RingBlk :=
  [RingBlk.eth, .mvb, .can, .ser, .crr, .arc, .prv].find? fun b => ringIndex b == i

/-- The doorbell slot of a block (R37). -/
def doorbell (blk ofs : Nat) : Nat := 0x190000 + blk * 0x100 + ofs

namespace State

/-- The number of a ring in the table of rings. -/
def ringKey (b : RingBlk) (q : Nat) : Nat := ringIndex b * 65536 + q

/-- The state of a ring. -/
def ring (s : State) (b : RingBlk) (q : Nat) : RingSt := tget s.rings (ringKey b q)

/-- Change the state of a ring. -/
def modRing (s : State) (b : RingBlk) (q : Nat) (f : RingSt → RingSt) : State :=
  { s with rings := tmod s.rings (ringKey b q) f }

/-- Whether a ring is enabled. -/
def ringOn (s : State) (b : RingBlk) (q : Nat) : Bool := (s.rd (ringRegs b q).ctl).testBit 31

/-- The number of slots of a ring (R38). -/
def ringSize (s : State) (b : RingBlk) (q : Nat) : Nat := 2 ^ (s.rd (ringRegs b q).ctl % 32)

/-- The posted slots that the device has not taken (R39). -/
def ringWaiting (s : State) (b : RingBlk) (q : Nat) : Nat :=
  let r := s.ring b q
  (r.tail + s.ringSize b q - r.head) % s.ringSize b q

/-- The address of the slot at the head. -/
def headAddr (s : State) (b : RingBlk) (q : Nat) : Nat :=
  s.rd64 (ringRegs b q).base / 64 * 64 % 0x10000000000 + (s.ring b q).head * slotBytes b q


/-- The device takes the slot at the head. -/
def takeHead (s : State) (b : RingBlk) (q : Nat) : State :=
  let n := s.ringSize b q
  s.modRing b q fun r => { r with head := (r.head + 1) % n }

/-- How a device's read of memory ends: what the map and the firewall answer, else what the memory answers; a dirty line of the
caches with an uncorrectable error is ERR_ECC (R227). -/
def readStatus (s : State) (ended : ReadEnd) (k : Cls) (a n : Nat) : Nat :=
  let c := s.rangeCheck k false a n
  if c ≠ 0 then c
  else match ended with
    | .ok => if s.lineBad a n then 0x12 else 0
    | .ecc => 0x12
    | .addr => 0x10
    | .firewall => 0x14

/-- The bytes that a device reads on this module, or free bytes of another one (assumption 127). -/
def devBytes (s : State) (a n : Nat) : List Byte :=
  (List.range n).map fun i => match regionOf (a + i) with
    | some (.cascade _) => Config.farByte s.freeCtr i
    | _ => s.busByte (a + i)

/-- What the end of a device's read leaves beside its status: a refusal is recorded (R246), an error in a dirty line of the
caches is counted (R227). -/
def readLeaves (s : State) (st : Nat) (k : Cls) (a n : Nat) : State :=
  if st = 0x14 then s.fwRefuse k a false else if st = 0x12 then s.eccRead a n else s

/-- The class with which a block reads and writes its rings (R6, R454). -/
def ringCls (b : RingBlk) : Cls := if b = .crr then .c else .d

/-- The bytes of the slot at the head. -/
def headDesc (s : State) (b : RingBlk) (q : Nat) : List Byte := s.devBytes (s.headAddr b q) (slotBytes b q)

/-- How the device's read of the slot at the head ends: one that the map, the firewall or a bad line refuses ends its descriptor
with that status, since each descriptor completes (R43, R245; DEDUCED, assumption 133). -/
def headRead (s : State) (b : RingBlk) (q : Nat) : Nat :=
  s.readStatus .ok (ringCls b) (s.headAddr b q) (slotBytes b q)

/-- What such a read leaves where it fails. -/
def headLeaves (s : State) (b : RingBlk) (q : Nat) : State :=
  s.readLeaves (s.headRead b q) (ringCls b) (s.headAddr b q) (slotBytes b q)

/-- What such a read leaves: reads of another module are sent (R433, R434), and its bytes are used up. -/
def devTook (s : State) (unit a n : Nat) : State :=
  match regionOf a with
  | some (.cascade p) => (s.farRead p a n ⟨.d, unit⟩).freshCtr
  | _ => s

/-- A write of a device, under the map and the firewall (R27, R244 to R246); one to register words takes effect at the next beat
edge (DESIGN CHOICE, assumption 133). -/
def devWrite (s : State) (k : Cls) (a : Nat) (bs : List Byte) : State :=
  let st := s.rangeCheck k true a bs.length
  if st = 0x14 then s.fwRefuse k a true
  else if st ≠ 0 then s
  else match regionOf a with
    | some .ddr | some .vault => s.memWrite a bs
    | some (.cascade p) => s.farPost p a bs
    | some (.block _) => { s with app := { s.app with devRegs := s.app.devRegs ++ [(k, a, bs)] } }
    | _ => s

/-- Write one completion: the header of R40 with the phase of R41, and the block's bytes. -/
def complete (s : State) (b : RingBlk) (q desc status : Nat) (rest : List Byte) : State :=
  let r := s.ring b q
  let n := s.ringSize b q
  let a := s.rd64 (ringRegs b q).cbase / 64 * 64 % 0x10000000000 + r.cidx * complBytes b
  let bs := leBytes 2 desc ++ leBytes 1 status ++ [BitVec.ofNat 8 (b2n r.cphase)] ++ rest
  let bs := bs ++ List.replicate (complBytes b - bs.length) 0
  let s := (s.devWrite (ringCls b) a bs).inc64 (ringRegs b q).compl
  s.modRing b q fun r => { r with
    cidx := (r.cidx + 1) % n, cphase := if (r.cidx + 1) % n = 0 then !r.cphase else r.cphase }

/-- What the completion of a descriptor that ends apart from its taking holds beside the header: its lateness on a transmit ring
(R363), OUTCOME 0xFF on a write ring of the Archive (R455). -/
def endRest (b : RingBlk) (q late : Nat) : List Byte :=
  if b = .arc ∧ q < 8 then leBytes 4 0 ++ [0xFF] else leBytes 4 (min late 4294967295)

/-- Write the completions of the leading descriptors that have ended, in the order posted (R40). -/
def retireTx (b : RingBlk) (q : Nat) : List TxPend → State → List TxPend × State
  | [], s => ([], s)
  | x :: t, s => match x.ended with
    | some (st, late) => retireTx b q t (s.complete b q x.desc st (endRest b q late))
    | none => (x :: t, s)

/-- The descriptor at the head is taken and ends later. -/
def takePend (s : State) (b : RingBlk) (q : Nat) : State :=
  let desc := (s.ring b q).head
  (s.takeHead b q).modRing b q fun r => { r with pend := r.pend ++ [{ desc, ended := none }] }

/-- A taken descriptor ends with a status and a lateness. -/
def endTx (s : State) (b : RingBlk) (q desc status late : Nat) : State :=
  let l := (s.ring b q).pend.map fun x =>
    if x.desc = desc ∧ x.ended.isNone then { x with ended := some (status, late) } else x
  let (l, s) := retireTx b q l s
  s.modRing b q fun r => { r with pend := l }

/-- Untaken descriptors of a ring end with ABORTED, behind those that are still to end (R40, R363). -/
def abortWaiting (s : State) (b : RingBlk) (q : Nat) : Nat → State
  | 0 => s
  | n + 1 =>
    let desc := (s.ring b q).head
    ((s.takePend b q).endTx b q desc 0x30 0).abortWaiting b q n

/-- A doorbell that is ignored is counted (R42, R580). -/
def doorbellError (s : State) (blk : Nat) : State := s.inc64 (Reg.SYS_DBERR blk)

/-- A producer doorbell acts (R39, R42). -/
def ringDoorbell (s : State) (b : RingBlk) (q tail : Nat) : State :=
  if ringCount b ≤ q ∨ !s.ringOn b q ∨ s.ringSize b q ≤ tail then s.doorbellError (ringIndex b)
  else
    let n := s.ringSize b q
    let new := (tail + n - (s.ring b q).tail) % n
    (s.add64 (ringRegs b q).posted new).modRing b q fun r => { r with tail := tail }

/-- The unit of a ring that a self-test isolates: the channel of Courier, else the block as unit 0 (R515). -/
def ringUnit (b : RingBlk) (q : Nat) : Nat := if b = .crr then q else 0

/-- A write of a ring's control word that sets EN (R38): the ring starts at slot 0 with phase 1, unless its size is out
of range, it is held disabled, or it is enabled already. -/
def ringEnable (s : State) (b : RingBlk) (q v : Nat) : State :=
  let l := v % 32
  if ringCount b ≤ q ∨ !v.testBit 31 ∨ s.ringOn b q ∨ s.heldDisabled (ringIndex b) (ringUnit b q) then s
  else
    let ok := 4 ≤ l ∧ l ≤ 16
    let keep := if b = .crr then v / 256 % 2 * 256 else 0
    let s := s.wr (ringRegs b q).ctl (l + keep + if ok then 2147483648 else 0)
    if ok then
      let s := s.modRing b q fun r => { head := 0, tail := 0, cidx := 0, cphase := true, pend := r.pend }
      if b = .crr then s.setF (Fld.CRR_CHSTAT_STATE q) 1 else s
    else s

end State

/-! ### The commands -/

/-- RING_ENABLE_WRITE (R38, R416). -/
def execRingEnableWrite (dt : Nat) (req : Requester) (blk : RingBlk) (ring : Nat) (value : Word) (s : State) :
    Host.Outcome State Fault Refusal :=
  if ringCount blk ≤ ring then .fault .illFormed
  else .next ((s.elapse dt).regCmd req (ringRegs blk ring).ctl fun s => s.ringEnable blk ring value.toNat)

end Sys2Proof.Machine
end

