-- ==== Sys2Proof/Machine/Archive.lean ====
section
/-! DEFINITION. The Archive (R447 to R470): offering, repeats, staging and commit, full collections, seals, reading and
erase. -/

namespace Sys2Proof.Machine

/-- What becomes of an occurrence (R453), with the SEQ that its completion shows (R455). -/
inductive ArcOut where
  | newRecord (seq : Nat)
  | merged (seq : Nat)
  | continuation (seq : Nat)
  | held
  | refused (reason seq : Nat)
  deriving DecidableEq, Repr

/-- The padded size of a record with `len` payload bytes (R449). -/
def arcSize (len : Nat) : Nat := (24 + len + 7) / 8 * 8

/-- A record as it is stored: header and payload, padded (R449). -/
def recImage (r : ArcRec) : List Byte :=
  let b := leBytes 2 r.src ++ leBytes 2 r.code ++ leBytes 2 (r.payload.length % 4096 + r.sev % 8 * 4096 + b2n r.cont * 32768)
    ++ leBytes 2 r.rep ++ leBytes 4 r.seq ++ leBytes 4 r.lastDt ++ leBytes 8 r.mt ++ r.payload
  b ++ List.replicate (arcSize r.payload.length - b.length) 0

/-- Whether a collection is a reserve collection (R447). -/
def isReserve (k : Nat) : Bool := decide (56 ≤ k)

namespace State

/-- Change the Archive's state. -/
def modArc (s : State) (f : ArcSt → ArcSt) : State := { s with arc := f s.arc }

/-- ARC_STATUS shows the free units and a running commit. -/
def showArc (s : State) : State :=
  (s.setF Fld.ARC_STATUS_FREEUNITS (16 - s.arc.units.length)).setB Fld.ARC_STATUS_COMMITTING s.arc.committing.isSome

/-- The staged records of a collection, in POS order. -/
def stagedRecs (s : State) (k : Nat) : List ArcRec := s.arc.units.flatMap fun u => if u.coll = k then u.recs else []

/-- All records of a collection as a reader sees them, in POS order (R465). -/
def collRecs (s : State) (k : Nat) : List ArcRec := tget s.arc.store k ++ s.stagedRecs k

/-- ARC_OLDEST_k: the lowest POS still stored, else the next POS. -/
def showOldest (s : State) (k : Nat) : State :=
  let next := s.rd64 (Reg.ARC_NEXTPOS k)
  s.wr64 (Reg.ARC_OLDEST k) ((s.collRecs k).foldl (fun m r => min m r.pos) next)

/-- The room left in a collection in bytes (R460); below 0 where staged records will commit into a collection whose units are all
used. -/
def arcRoom (s : State) (k : Nat) : Int :=
  (8160 - (s.getF (Fld.ARC_CSTAT_UNITS k) : Int)) * 65536 + tget s.arc.freed k -
    (((s.stagedRecs k).map fun r => arcSize r.payload.length).sum : Nat)

/-- The records that R461 would remove, in its order: lower severity first, then equal, each oldest first. -/
def removable (s : State) (k sev : Nat) : List ArcRec :=
  let l := s.collRecs k
  l.filter (fun r => decide (r.sev < sev)) ++ l.filter (fun r => decide (r.sev = sev))

/-- The shortest run of removals that makes room for `size` bytes, if any does. -/
def removals (room : Int) (size : Nat) : List ArcRec → Option (List ArcRec)
  | [] => if size ≤ room then some [] else none
  | r :: t => if size ≤ room then some [] else (removals (room + arcSize r.payload.length) size t).map (r :: ·)

/-- The sources whose last record is no longer stored have none (R456, "lies in the same collection"; DEDUCED,
assumption 109). -/
def forgetLast (s : State) (gone : ArcLast → Bool) : State :=
  s.modArc fun a => { a with last := a.last.filter fun x => !(x.2.any gone) }

/-- Remove one record of a reserve collection (R461). Space in flash is recovered whole units at a time (R461;
DESIGN CHOICE, assumption 14). -/
def removeRec (s : State) (k : Nat) (r : ArcRec) : State :=
  let stored := (tget s.arc.store k).any fun x => x.pos == r.pos
  let s := s.modArc fun a => { a with
    store := tmod a.store k fun l => l.filter fun x => x.pos != r.pos
    units := a.units.map fun u => if u.coll = k then { u with recs := u.recs.filter fun x => x.pos != r.pos } else u }
  let s := (s.forgetLast fun l => l.coll == k && l.pos == r.pos).inc64 (Reg.ARC_REMOVED k)
  if stored then
    let f := tget s.arc.freed k + arcSize r.payload.length
    let s := s.modArc fun a => { a with freed := tset a.freed k (if f < 0 then f else f % 65536) }
    s.setF (Fld.ARC_CSTAT_UNITS k) (s.getF (Fld.ARC_CSTAT_UNITS k) - f.toNat / 65536)
  else s

/-- The sealed collections. -/
def arcSealed (s : State) (k : Nat) : Bool := s.getF (Fld.ARC_CSTAT_SEALED k) == 1

/-- Whether a unit is open: it takes records, and no condition of R459 has been met. -/
def unitOpen (s : State) (u : ArcUnit) : Bool :=
  !u.holds && !s.arc.dueOrder.contains u.id && s.arc.committing != some u.id

/-- A unit meets a condition of R459: it joins the order of commits. -/
def unitDue (s : State) (id : Nat) : State := s.modArc fun a => { a with dueOrder := a.dueOrder ++ [id] }

/-- A unit is needed and none is free: the oldest open unit is to be committed (R459), unless one is on its way to be free
already (DEDUCED, assumption 109). -/
def unitNeeded (s : State) : State :=
  match s.arc.units.find? s.unitOpen with
  | some u => if s.arc.dueOrder.isEmpty && s.arc.committing.isNone then s.unitDue u.id else s
  | none => s

/-- Open a unit. -/
def openUnit (s : State) (k : Nat) (holds : Bool) : State :=
  (s.modArc fun a => { a with
    nextUnit := a.nextUnit + 1
    units := a.units ++ [{ id := a.nextUnit, coll := k, since := s.time.clock, holds, recs := [], used := 0, placed := 0 }] }).showArc

/-- Find or open the unit that takes `size` bytes of a collection; `none` while no unit is free (R459). -/
def unitFor (s : State) (k size : Nat) : State × Option Nat :=
  let opens := s.arc.units.filter fun u => s.unitOpen u && u.coll == k
  match opens.find? fun u => decide (u.used + size ≤ 65536) with
  | some u => (s, some u.id)
  | none =>
    let s := opens.foldl (fun s u => s.unitDue u.id) s
    if s.arc.units.length < 16 then (s.openUnit k false, some s.arc.nextUnit) else (s.unitNeeded, none)

/-- Find or open the unit that holds an occurrence of `size` bytes (R463): `none` for a refusal with reason 2, `some none`
while no unit is free. -/
def holdUnit (s : State) (k size : Nat) : State × Option (Option Nat) :=
  match s.arc.units.find? fun u => u.holds && u.coll == k && decide (u.used + size ≤ 65536) with
  | some u => (s, some (some u.id))
  | none =>
    if 14 ≤ (s.arc.units.filter fun u => u.holds).length then (s, none)
    else if s.arc.units.length < 16 then (s.openUnit k true, some (some s.arc.nextUnit))
    else (s.unitNeeded, some none)

/-- A refusal consumes a SEQ and is counted (R451, R468). -/
def arcRefuse (s : State) (o : Occurrence) (reason : Nat) : State × Option ArcOut :=
  ((s.takeSeq o.src).inc64 (Reg.ARC_REFUSED o.coll), some (.refused reason (tget s.arc.seqs o.src)))

/-- Whether an occurrence is a repeat of its source's last record (R456). -/
def isRepeat (s : State) (o : Occurrence) (l : ArcLast) : Bool :=
  let lastTime := l.mt + l.lastDt * 1000
  let win := s.getF (Fld.ARC_CCFG_REPWIN o.coll)
  l.coll == o.coll && l.code == o.code && l.sev == o.sev && l.len == o.payload.length && l.crc == crc32c o.payload &&
    decide (win ≠ 0 ∧ lastTime ≤ o.mt ∧ o.mt ≤ lastTime + win * 1000000 ∧ l.rep < 65535 ∧ (o.mt - l.mt) / 1000 ≤ 0xFFFFFFFF)

/-- Whether a record is in staging: in a unit whose commit has not started (R457). -/
def inStaging (s : State) (l : ArcLast) : Bool :=
  s.arc.units.any fun u => s.arc.committing != some u.id && u.coll == l.coll && u.recs.any fun r => r.pos == l.pos

/-- Merge an occurrence into the last record of its source (R457). -/
def arcMerge (s : State) (o : Occurrence) (l : ArcLast) : State :=
  let dt := (o.mt - l.mt) / 1000
  (s.modArc fun a => { a with
    units := a.units.map fun u => if u.coll = l.coll then
        { u with recs := u.recs.map fun r => if r.pos = l.pos then { r with rep := r.rep + 1, lastDt := dt } else r }
      else u
    last := tset a.last o.src (some { l with rep := l.rep + 1, lastDt := dt }) }).inc64 (Reg.ARC_MERGED o.coll)

/-- Place a new or a continuation record (R453, R458 to R461); `none` while it waits for a unit. -/
def arcPlace (s : State) (o : Occurrence) (chain : Option ArcLast) : State × Option ArcOut :=
  let k := o.coll
  let payload := match chain with
    | some l => leBytes 4 l.origSeq ++ leBytes 4 l.crc
    | none => o.payload
  let size := arcSize payload.length
  let room := s.arcRoom k
  let full := s.getF (Fld.ARC_CSTAT_FULL k) == 1
  let rem : Option (List ArcRec) :=
    if isReserve k then removals room size (s.removable k o.sev)
    else if full ∨ room < size then none else some []
  match rem with
  | none =>
    let s := if !isReserve k && !full then s.emit 0x12 0x1101 3 60 (p4 [k]) else s
    (s.setF (Fld.ARC_CSTAT_FULL k) 1).arcRefuse o 1
  | some rs =>
    match s.unitFor k size with
    | (s, none) => (s, none)
    | (s, some id) =>
      let s := if isReserve k then s.setB (Fld.ARC_CSTAT_FULL k) (decide (room < size)) else s
      let s := rs.foldl (fun s r => s.removeRec k r) s
      let seq := tget s.arc.seqs o.src
      let pos := s.rd64 (Reg.ARC_NEXTPOS k)
      let r : ArcRec := { pos, src := o.src, code := o.code, sev := o.sev, cont := chain.isSome, rep := 0, seq, lastDt := 0
                          mt := o.mt, payload }
      let l : ArcLast := { coll := k, pos, code := o.code, sev := o.sev, len := o.payload.length, crc := crc32c o.payload
                           origSeq := (chain.map (·.origSeq)).getD seq, seq, mt := o.mt, rep := 0, lastDt := 0 }
      let s := (s.takeSeq o.src).wr64 (Reg.ARC_NEXTPOS k) (pos + 1)
      let s := s.modArc fun a => { a with
        units := a.units.map fun u => if u.id = id then
          { u with recs := u.recs ++ [r], used := u.used + size, placed := u.placed + 1 } else u
        last := tset a.last o.src (some l) }
      ((s.inc64 (Reg.ARC_STAGED k)).showOldest k, some (if chain.isSome then .continuation seq else .newRecord seq))

/-- Steps 3 to 5 of R453. -/
def arcRecord (s : State) (o : Occurrence) : State × Option ArcOut :=
  match tget s.arc.last o.src with
  | some l =>
    if s.isRepeat o l then
      if s.inStaging l then (s.arcMerge o l, some (.merged l.seq)) else s.arcPlace o (some l)
    else s.arcPlace o none
  | none => s.arcPlace o none

/-- Offer an occurrence to its collection (R453); `none` while it waits for a unit. -/
def arcOffer (s : State) (o : Occurrence) : State × Option ArcOut :=
  let k := o.coll
  let r : State × Option ArcOut :=
    if !isReserve k && s.getF (Fld.ARC_CCFG_EN k) == 0 then s.arcRefuse o 5
    else if s.arcSealed k then
      let size := arcSize o.payload.length
      match s.holdUnit k size with
      | (s, none) => s.arcRefuse o 2
      | (s, some none) => (s, none)
      | (s, some (some id)) =>
        ((s.modArc fun a => { a with
          held := a.held ++ [(id, o)]
          units := a.units.map fun u => if u.id = id then { u with used := u.used + size } else u }).inc64 (Reg.ARC_STAGED k),
          some .held)
    else if s.arc.releasing.any fun x => x.2.coll == k then (s, none)
    else s.arcRecord o
  match r with
  | (s, some out) => (s.inc64 (Reg.ARC_OFFERED k), some out)
  | (s, none) => (s, none)

/-- An occurrence of an ended seal is processed (R464), or waits for a unit with those behind it (R459), or for the end of a seal
that has begun again (R463). `counted` tells that the ledger already shows it as offered and staged. -/
def arcResumeOne (s : State) (x : Bool × Occurrence) : State :=
  let k := x.2.coll
  let wait (s : State) : State := s.modArc fun a => { a with releasing := a.releasing ++ [x] }
  if s.arcSealed k || s.arc.releasing.any fun y => y.2.coll == k || !s.arcSealed y.2.coll then wait s
  else
    match s.arcRecord x.2 with
    | (s, some _) =>
      if x.1 then s.wr64 (Reg.ARC_STAGED k) (s.rd64 (Reg.ARC_STAGED k) - 1) else s.inc64 (Reg.ARC_OFFERED k)
    | (s, none) => wait s

/-- The occurrences of ended seals go on. -/
def arcResume (s : State) : State :=
  s.arc.releasing.foldl (fun s x => s.arcResumeOne x) (s.modArc fun a => { a with releasing := [] })

/-- Process held occurrences in arrival order from step 3 of R453 (R464): those of one collection, or of all. -/
def releaseHeld (s : State) (which : Nat → Bool) (counted : Bool) : State :=
  let out := s.arc.held.filter fun x => which x.2.coll
  let ids := out.map (·.1)
  (s.modArc fun a => { a with
    held := a.held.filter fun x => !which x.2.coll
    units := a.units.filter fun u => !ids.contains u.id
    releasing := a.releasing ++ out.map fun x => (counted, x.2) }).showArc.arcResume

/-- A seal ends (R464). Occurrences that are carried through a reset wait until the units of R462 are committed. -/
def arcUnseal (s : State) (k : Nat) : State :=
  if s.arcSealed k then
    let s := (s.setB (Fld.ARC_CSTAT_SEALED k) false).wr64 Reg.ARC_SEAL (s.rd64 Reg.ARC_SEAL - 2 ^ k)
    let s := s.modArc fun a => { a with sealAt := tset a.sealAt k 0 }
    if s.arc.carry then s else s.releaseHeld (· == k) true
  else s

/-- A seal begins (R463); a sealed collection stays as it is (R464). -/
def arcSeal (s : State) (k : Nat) : State :=
  if s.arcSealed k then s
  else
    let s := (s.setB (Fld.ARC_CSTAT_SEALED k) true).wr64 Reg.ARC_SEAL (s.rd64 Reg.ARC_SEAL + 2 ^ k)
    (s.wr64 (Reg.ARC_SEALPOS k) (s.rd64 (Reg.ARC_NEXTPOS k))).modArc fun a => { a with
      sealAt := tset a.sealAt k s.time.mono }

/-- A unit's records enter the store of its collection, and the unit is free (R459). It uses a whole unit of the collection; with
all 8,160 used, its records take the space that compaction recovers (R461, R470; DESIGN CHOICE, assumption 14). -/
def unitStored (s : State) (u : ArcUnit) : State :=
  let n := s.getF (Fld.ARC_CSTAT_UNITS u.coll)
  let size : Nat := (u.recs.map fun r => arcSize r.payload.length).sum
  (s.modArc fun a => { a with
    freed := if n < 8160 then a.freed else tset a.freed u.coll (tget a.freed u.coll - size)
    store := tmod a.store u.coll (· ++ u.recs)
    units := a.units.filter fun x => x.id != u.id
    dueOrder := a.dueOrder.filter (· != u.id)
    committing := if a.committing = some u.id then none else a.committing }).setF
      (Fld.ARC_CSTAT_UNITS u.coll) (min 8160 (n + 1))

/-- The time in ns by which a page program that runs at NV_STOP has completed (R462). -/
def pageDone (s : State) : Bool :=
  match s.pwr.nvStopAt with
  | some t => decide (s.time.clock ≤ t + 2000000)
  | none => true

/-! ### Write rings (R454, R455) -/

/-- The occurrence that a write descriptor spells. -/
def descOcc (s : State) (d : List Byte) : Occurrence :=
  let f (i n : Nat) : Nat := leNat ((d.drop i).take n)
  { src := f 10 2, code := f 12 2, sev := f 14 1 % 8, coll := f 15 1
    mt := if f 16 8 = 0 then s.time.mt else f 16 8
    payload := s.devBytes (f 0 8) (f 8 2) }

/-- Whether any byte of a range lies in a STRICT page (R239). -/
def rangeStrict (s : State) (a n : Nat) : Bool :=
  n != 0 && (a :: (List.range ((a + n - 1) / 4096 - a / 4096)).map fun i => (a / 4096 + i + 1) * 4096).any s.strictPage

/-- The first failing check of a range against the map (R27, R28), for checks that come in that order. -/
def rangeMapped (s : State) (k : Cls) (write : Bool) (a n : Nat) : Bool :=
  let pts := a :: ((List.range ((a + n - 1) / 4096 - a / 4096)).map fun i => (a / 4096 + i + 1) * 4096)
  pts.all fun p => s.memCheck k write p != 0x10

/-- The checks of a write descriptor in order: status and reason of the first that fails (R455); a source below 0x0100 is none
of software (R450; DEDUCED, assumption 127). -/
def descCheck (s : State) (q : Nat) (d : List Byte) (ended : ReadEnd) : Option (Nat × Nat) :=
  let f (i n : Nat) : Nat := leNat ((d.drop i).take n)
  let len := f 8 2
  let coll := f 15 1
  if f 0 8 / 0x10000000000 ≠ 0 ∨ f 14 1 / 8 ≠ 0 ∨ f 24 8 ≠ 0 then some (0x31, 6)
  else if 4072 < len then some (0x13, 0)
  else if f 10 2 < 0x100 ∨ f 10 2 < s.getF (Fld.ARC_RSRC_SRCLO q) ∨ s.getF (Fld.ARC_RSRC_SRCHI q) < f 10 2 then some (0x31, 3)
  else if !(decide (coll ≤ 55) || (decide (61 ≤ coll ∧ coll ≤ 63) && s.bit (Fld.ARC_RSRC_RESV q))) then some (0x31, 4)
  else if len = 0 then none
  else if !s.rangeMapped .d false (f 0 8) len then some (0x10, 0)
  else if s.rangeStrict (f 0 8) len then some (0x11, 0)
  else if s.rangeCheck .d false (f 0 8) len ≠ 0 then some (0x14, 0)
  else match ended with
    | .ok => if s.lineBad (f 0 8) len then some (0x12, 0) else none
    | .ecc => some (0x12, 0)
    | .addr | .firewall => some (0x10, 0)

/-- The completion of an offered descriptor (R455): status, SEQ, outcome, reason. -/
def outFields : ArcOut → Nat × Nat × Nat × Nat
  | .newRecord q => (0, q, 0, 0)
  | .merged q => (0, q, 1, 0)
  | .continuation q => (0, q, 2, 0)
  | .held => (0, 0, 3, 0)
  | .refused r q => (0x31, q, 0xFF, r)

/-- Complete the descriptor at the head of a write ring. -/
def arcComplete (s : State) (q status seq outcome reason : Nat) : State :=
  let desc := (s.ring .arc q).head
  (s.takeHead .arc q).complete .arc q desc status (leBytes 4 seq ++ leBytes 1 outcome ++ leBytes 1 reason)

/-- The Archive takes the descriptor at the head of a write ring (R454, R455), or lets it wait for a unit. -/
def arcWriteDesc (s : State) (q : Nat) (ended : ReadEnd) : State :=
  let d := s.headDesc .arc q
  if s.headRead .arc q ≠ 0 then
    ((s.headLeaves .arc q).inc64 Reg.ARC_BADDESC).arcComplete q (s.headRead .arc q) 0 0xFF 0
  else
  match s.descCheck q d ended with
  | some (status, reason) =>
    let s := s.readLeaves status .d (leNat (d.take 8)) (leNat ((d.drop 8).take 2))
    (s.inc64 Reg.ARC_BADDESC).arcComplete q status 0 0xFF reason
  | none =>
    match s.arcOffer (s.descOcc d) with
    | (s, some out) =>
      let (st, sq, o, r) := outFields out
      (s.devTook 0x12 (leNat (d.take 8)) (leNat ((d.drop 8).take 2))).arcComplete q st sq o r
    | (s, none) => s

/-! ### Reading (R465, R466) -/

/-- The records that fit whole in a buffer, oldest first, and the bytes left. -/
def fitRecs : Nat → List ArcRec → List ArcRec
  | _, [] => []
  | room, r :: t =>
    let n := 8 + arcSize r.payload.length
    if n ≤ room then r :: fitRecs (room - n) t else []

/-- The Archive takes the descriptor at the head of a read ring (R465); one whose other bytes are not zero is refused (DEDUCED,
assumption 133). -/
def arcReadDesc (s : State) (q : Nat) : State :=
  let d := s.headDesc .arc q
  let f (i n : Nat) : Nat := leNat ((d.drop i).take n)
  let coll := f 12 1
  let start := f 16 8
  let recs := fitRecs (f 8 4) ((s.collRecs coll).filter fun r => decide (start ≤ r.pos))
  let bytes := recs.flatMap fun r => leBytes 8 r.pos ++ recImage r
  let next := match recs.getLast? with
    | some r => r.pos + 1
    | none => start
  let rsv := f 0 8 / 0x10000000000 ≠ 0 ∨ f 13 3 ≠ 0 ∨ f 24 8 ≠ 0
  let status :=
    if s.headRead .arc q ≠ 0 then s.headRead .arc q
    else if 63 < coll ∨ rsv then 0x31
    else if f 8 4 < 4096 ∨ 16777216 < f 8 4 then 0x13
    else if !s.rangeMapped .d true (f 0 8) (f 8 4) then 0x10
    else if s.rangeStrict (f 0 8) (f 8 4) then 0x11
    else s.rangeCheck .d true (f 0 8) (f 8 4)
  let desc := (s.ring .arc q).head
  let slotFails := s.headRead .arc q ≠ 0
  let s := (s.headLeaves .arc q).takeHead .arc q
  if status = 0 then (s.devWrite .d (f 0 8) bytes).complete .arc q desc 0 (leBytes 4 recs.length ++ leBytes 8 next)
  else
    let s := if status = 0x14 ∧ !slotFails then s.fwRefuse .d (f 0 8) true else s
    s.complete .arc q desc status (leBytes 4 0 ++ leBytes 8 start)

/-- The record at which the read window's cursor stands: the lowest stored POS at or above it (R466). -/
def windowRec (s : State) : Option ArcRec :=
  let p := s.rd64 Reg.ARC_RDPOS
  ((s.collRecs (s.getF Fld.ARC_RDCOLL_COLL)).filter fun r => decide (p ≤ r.pos)).head?

/-- What POP_ARC_NEXT returns (R466). -/
def arcNext (s : State) : Nat :=
  match s.windowRec with
  | none => 0
  | some r => 2 ^ 63 + (if r.pos = s.rd64 Reg.ARC_RDPOS then 0 else 2 ^ 62) + r.src * 2 ^ 32 + r.seq

/-- Write bytes into register words from `a` on, four at a time. -/
def wrBytes (s : State) (a : Nat) : List Byte → State
  | b0 :: b1 :: b2 :: b3 :: t => (s.wr a (leNat [b0, b1, b2, b3])).wrBytes (a + 4) t
  | [] => s
  | l => s.wr a (leNat l)

/-- The pop of the read window: the record that was returned enters the window and the cursor moves on (R466). -/
def arcPop (s : State) (r : ArcRec) : State :=
  let img := recImage r
  let s := s.wrBytes Reg.POP_ARC_REC (img ++ List.replicate (4096 - img.length) 0)
  (s.wr64 Reg.POP_ARC_POS r.pos).wr64 Reg.ARC_RDPOS (r.pos + 1)

/-- Erase an ordinary collection (R467). -/
def arcErase (s : State) (k : Nat) : State :=
  if isReserve k ∨ s.arcSealed k ∨ s.getF Fld.LCS_STATE_STATE = 4 then s
  else
    let first := s.rd64 (Reg.ARC_OLDEST k)
    let next := s.rd64 (Reg.ARC_NEXTPOS k)
    let s := s.modArc fun a => { a with
      store := tset a.store k []
      freed := tset a.freed k 0
      units := a.units.map fun u => if u.coll = k then { u with recs := [], used := 0 } else u }
    let s := ((s.forgetLast fun l => l.coll == k).setF (Fld.ARC_CSTAT_UNITS k) 0).setF (Fld.ARC_CSTAT_FULL k) 0
    let s := (s.wr64 (Reg.ARC_OLDEST k) next).emit 0x12 0x1103 2 60 (p4 [k] ++ p8 [first, next - 1])
    (s.prvModule 12 (objectBytes 12 k) (Config.contentHash s.freeCtr).toNat 0).freshCtr

end State

/-! ### The commands -/

/-- ARC_OCCURRENCE (R453): the Archive takes the oldest occurrence of an event port, or lets it wait for a unit; before
the units carried through a reset are committed it places no new record (R462). -/
def execArcOccurrence (dt : Nat) (port : Fin 27) (s : State) : Host.Outcome State Fault Refusal :=
  let s := s.elapse dt
  .next (
    if s.arc.carry ∨ s.unitOff 0x12 0 then s
    else match tget s.arc.ports port.val with
      | [] => s
      | o :: rest =>
        let s := s.modArc fun a => { a with ports := tset a.ports port.val rest }
        match s.arcOffer o with
        | (s, some _) => s
        | (s, none) => s.modArc fun a => { a with ports := tmod a.ports port.val (o :: ·) })

/-- ARC_WRITE_DESCRIPTOR (R454, R455). -/
def execArcWriteDescriptor (dt : Nat) (ring : Fin 8) (ended : ReadEnd) (s : State) : Host.Outcome State Fault Refusal :=
  let s := s.elapse dt
  let q := ring.val
  .next (if s.arc.carry ∨ !s.ringOn .arc q ∨ s.ringWaiting .arc q = 0 ∨ s.unitOff 0x12 0 then s
    else s.arcWriteDesc q ended)

/-- ARC_COMMIT_AGE_EXPIRY (R459): a unit has been open for ARC_COMMITAGE seconds. What a reset left in staging waits for the commits of
R462. -/
def execArcCommitAgeExpiry (dt unit : Nat) (s : State) : Host.Outcome State Fault Refusal :=
  let s := s.elapse dt
  let age := max 1 (min 3600 (s.getF Fld.ARC_COMMITAGE_SEC)) * 1000000000
  .next (match s.arc.units.find? fun u => u.id == unit with
    | some u => if !s.arc.carry && s.unitOpen u && decide (u.since + age ≤ s.time.clock) then s.unitDue unit else s
    | none => s)

/-- ARC_UNIT_COMMIT (R459, R462): the commit of the first due unit starts, one at a time and never after NV_STOP. -/
def execArcUnitCommit (dt : Nat) (s : State) : Host.Outcome State Fault Refusal :=
  let s := s.elapse dt
  .next (
    if s.arc.carry ∨ s.arc.committing.isSome ∨ s.bit Fld.ARC_STATUS_NVSTOP ∨ s.unitOff 0x12 0 then s
    else match s.arc.dueOrder with
      | [] => s
      | id :: rest => (s.modArc fun a => { a with dueOrder := rest, committing := some id }).showArc)

/-- ARC_COMMIT_DONE (R459, R462, R468): the records are stored and counted; a commit whose last page had not completed
by NV_STOP is discarded and its unit remains in staging. -/
def execArcCommitDone (dt : Nat) (s : State) : Host.Outcome State Fault Refusal :=
  let s := s.elapse dt
  .next (match s.arc.committing with
    | none => s
    | some id =>
      match s.arc.units.find? fun u => u.id == id with
      | none => (s.modArc fun a => { a with committing := none }).showArc
      | some u =>
        if s.bit Fld.ARC_STATUS_NVSTOP && !s.pageDone then
          (s.modArc fun a => { a with committing := none, dueOrder := id :: a.dueOrder }).showArc
        else
          let s := (s.add64 (Reg.ARC_RECORDED u.coll) u.placed)
          let s := s.wr64 (Reg.ARC_STAGED u.coll) (s.rd64 (Reg.ARC_STAGED u.coll) - u.placed)
          (s.unitStored u).showArc.arcResume)

/-- A write of ARC_SEAL (R463). -/
def State.sealWrite (s : State) (mask : Nat) : State :=
  (bitsOf 64 mask).foldl State.arcSeal s

/-- ARC_SEAL_WRITE (R463). -/
def execArcSealWrite (dt : Nat) (req : Requester) (mask : BitVec 64) (s : State) : Host.Outcome State Fault Refusal :=
  let s := s.elapse dt
  .next (s.regCmd req Reg.ARC_SEAL fun s => s.sealWrite mask.toNat)

/-- A write of ARC_UNSEAL (R464). -/
def State.unsealWrite (s : State) (mask : Nat) : State :=
  (bitsOf 64 mask).foldl State.arcUnseal s

/-- ARC_UNSEAL_WRITE (R464). -/
def execArcUnsealWrite (dt : Nat) (req : Requester) (mask : BitVec 64) (s : State) : Host.Outcome State Fault Refusal :=
  let s := s.elapse dt
  .next (s.regCmd req Reg.ARC_UNSEAL fun s => s.unsealWrite mask.toNat)

/-- ARC_SEAL_EXPIRED (R464): ARC_SEALLIM seconds of MONO after the seal began. -/
def execArcSealExpired (dt : Nat) (coll : Fin 64) (s : State) : Host.Outcome State Fault Refusal :=
  let s := s.elapse dt
  let k := coll.val
  let lim := max 1 (min 60 (s.getF Fld.ARC_SEALLIM_SEC)) * 1000000000
  .next (
    if s.arcSealed k && decide (tget s.arc.sealAt k + lim ≤ s.time.mono) then
      (s.arcUnseal k).emit 0x12 0x1102 3 60 (p4 [k])
    else s)

/-- ARC_READ_DESCRIPTOR (R465): read rings 8 and 9. -/
def execArcReadDescriptor (dt : Nat) (ring : Fin 2) (s : State) : Host.Outcome State Fault Refusal :=
  let s := s.elapse dt
  let q := 8 + ring.val
  .next (if !s.ringOn .arc q ∨ s.ringWaiting .arc q = 0 ∨ s.unitOff 0x12 0 then s else s.arcReadDesc q)

/-- A write of ARC_ERASE (R467). -/
def State.eraseWrite (s : State) (key coll : Nat) : State :=
  if key = 0xE5 then s.arcErase coll else s

/-- ARC_ERASE_WRITE (R467). -/
def execArcEraseWrite (dt : Nat) (req : Requester) (key : Byte) (coll : Fin 64) (s : State) :
    Host.Outcome State Fault Refusal :=
  let s := s.elapse dt
  .next (s.regCmd req Reg.ARC_ERASE fun s => s.eraseWrite key.toNat coll.val)

/-- ARC_START_CARRY (R462, R464): the units left in staging are committed in the order in which they were opened, and
then the occurrences held through the reset are processed; after NV_STOP no commit starts. -/
def execArcStartCarry (dt : Nat) (s : State) : Host.Outcome State Fault Refusal :=
  let s := s.elapse dt
  .next (
    if !s.arc.carry ∨ s.bit Fld.ARC_STATUS_NVSTOP ∨ s.unitOff 0x12 0 then s
    else
      let us := s.arc.units.filter fun u => !u.holds
      let s := us.foldl (fun s u => (s.add64 (Reg.ARC_CARRIED u.coll) u.recs.length).unitStored u) s
      let s := (s.modArc fun a => { a with carry := false, dueOrder := [], committing := none }).showArc
      let s := if us.isEmpty then s else s.emit 0x12 0x1104 2 60 (p4 [us.length])
      s.releaseHeld (fun _ => true) false)

end Sys2Proof.Machine
end

