-- ==== Sys2Proof/Machine/Provenance.lean ====
section
/-! DEFINITION. The Provenance log (R537 to R542). -/

namespace Sys2Proof.Machine

/-- The KIND values that software may post (R539). -/
def postKinds : List Nat := [1, 2, 3, 11, 13, 14, 15]

/-- The 128 bytes of a record (R538). -/
def prvImage (r : PrvStored) : List Byte :=
  leBytes 8 r.seq ++ leBytes 8 r.body.mt ++ leBytes 2 r.body.kind ++ leBytes 1 r.body.port ++ leBytes 1 r.flags
    ++ leBytes 4 r.body.session ++ leBytes 4 r.body.user ++ leBytes 1 r.lcState ++ leBytes 3 0
    ++ (r.body.object ++ List.replicate (32 - r.body.object.length) 0).take 32
    ++ leBytes 32 r.body.oldHash ++ leBytes 32 r.body.newHash

/-- The record that a submission slot holds (R538, R540). -/
def prvDecode (d : List Byte) : PrvRec :=
  let f (i n : Nat) : Nat := leNat ((d.drop i).take n)
  { mt := f 8 8, kind := f 16 2, port := f 18 1, session := f 20 4, user := f 24 4, reservedOk := f 29 3 == 0
    object := (d.drop 32).take 32, oldHash := f 64 32, newHash := f 96 32 }

namespace State

/-- Change the Provenance state. -/
def modPrv (s : State) (f : PrvSt → PrvSt) : State := { s with prv := f s.prv }

/-- PRV_RDWIN shows the record that PRV_RDSEQ names, staged or committed, or 0 where it is not stored (R542). -/
def showRdwin (s : State) : State :=
  let seq := s.rd64 Reg.PRV_RDSEQ
  s.wrBytes Reg.PRV_RDWIN (match (s.prv.stored ++ s.prv.staged).find? fun r => r.seq == seq with
    | some r => prvImage r
    | none => List.replicate 128 0)

/-- PRV_STATUS.FREE, PRV_OLDEST and PRV_RDWIN follow the records (R542, R546). -/
def showPrv (s : State) : State :=
  let s := s.setF Fld.PRV_STATUS_FREE (4096 - s.prv.staged.length)
  (s.wr64 Reg.PRV_OLDEST (match (s.prv.stored ++ s.prv.staged).head? with
    | some r => r.seq
    | none => s.rd64 Reg.PRV_NEXTSEQ)).showRdwin

/-- PRV takes a record: it gets its SEQ, flags and life-cycle state, and is staged (R538, R541). -/
def prvTake (s : State) (r : PrvRec) (flags : Nat) : State :=
  let seq := s.rd64 Reg.PRV_NEXTSEQ
  let r : PrvRec := { r with mt := if r.mt = 0 then s.time.mt else r.mt }
  let x : PrvStored := { seq, flags, lcState := s.getF Fld.LCS_STATE_STATE, takenAt := s.time.clock, body := r }
  ((s.modPrv fun p => { p with staged := p.staged ++ [x] }).wr64 Reg.PRV_NEXTSEQ (seq + 1)).inc64 Reg.PRV_RECORDS |>.showPrv

/-- PRV takes the slot at the head of a posting ring (R539, R540). -/
def prvRing (s : State) (q : Nat) : State :=
  let r := prvDecode (s.headDesc .prv q)
  let st := s.headRead .prv q
  let desc := (s.ring .prv q).head
  let s := ((s.headLeaves .prv q).takeHead .prv q).inc64 Reg.PRV_OFFERED
  if st ≠ 0 then (s.inc64 Reg.PRV_REFUSED).complete .prv q desc st (leBytes 8 0)
  else if !postKinds.contains r.kind ∨ !r.reservedOk then
    (s.inc64 Reg.PRV_REFUSED).complete .prv q desc 0x31 (leBytes 8 0)
  else
    let seq := s.rd64 Reg.PRV_NEXTSEQ
    (s.prvTake r (if q = 1 then 1 else 0)).complete .prv q desc 0 (leBytes 8 seq)

/-- The unit that a commit takes: up to 512 staged records (R541). -/
def prvUnitDue (s : State) : Bool :=
  decide (512 ≤ s.prv.staged.length) || (match s.prv.staged.head? with
    | some r => decide (r.takenAt + 10000000000 ≤ s.time.clock)
    | none => false)

end State

/-! ### The commands -/

/-- PRV_RECORD_POST (R539 to R541): PRV takes a record from a posting ring or from its port queue, unless staging is
full. -/
def execPrvRecordPost (dt : Nat) (src : PrvSource) (s : State) : Host.Outcome State Fault Refusal :=
  let s := s.elapse dt
  .next (
    if 4096 ≤ s.prv.staged.length ∨ s.unitOff 0x17 0 then s
    else match src with
      | .ring q => if s.ringOn .prv q.val && s.ringWaiting .prv q.val != 0 then s.prvRing q.val else s
      | .port =>
        match s.prv.port with
        | [] => s
        | r :: rest => (s.modPrv fun p => { p with port := rest }).prvTake r 2)

/-- PRV_MODULE_RECORD (R537, R540): a record of the module itself enters the port queue. -/
def execPrvModuleRecord (dt : Nat) (r : PrvRec) (s : State) : Host.Outcome State Fault Refusal :=
  .next ((s.elapse dt).prvOffer { r with port := 0xFE })

/-- PRV_COMMIT (R541): a full unit, or one whose first record is 10 s old, enters the region; never after NV_STOP. -/
def execPrvCommit (dt : Nat) (s : State) : Host.Outcome State Fault Refusal :=
  let s := s.elapse dt
  .next (
    if s.bit Fld.PRV_STATUS_NVSTOP ∨ !s.prvUnitDue ∨ s.unitOff 0x17 0 then s
    else
      (s.modPrv fun p =>
        let l := p.stored ++ p.staged.take 512
        { p with stored := if 2097152 < l.length then l.drop 512 else l, staged := p.staged.drop 512 }).showPrv)

/-- A write of PRV_RDSEQ (R542). -/
def State.rdSeqWrite (s : State) (seq : Nat) : State := (s.wr64 Reg.PRV_RDSEQ seq).showRdwin

/-- PRV_RDSEQ_WRITE (R542): the window shows the record, or 0 where it is not stored. -/
def execPrvRdseqWrite (dt : Nat) (req : Requester) (seq : BitVec 64) (s : State) : Host.Outcome State Fault Refusal :=
  let s := s.elapse dt
  .next (s.regCmd req Reg.PRV_RDSEQ fun s => s.rdSeqWrite seq.toNat)

end Sys2Proof.Machine
end

