-- ==== Sys2Proof/Machine/Images.lean ====
section
/-! DEFINITION. Signed images and tokens (R500, R503 to R506): their fields, ECDSA P-384 over SHA-384, and the checks in
order. -/

namespace Sys2Proof.Machine

/-! ### ECDSA P-384 (R503, R505; PRESUMED: FIPS 186-4, which the spec names by "ECDSA P-384", assumption 129) -/

/-- The prime of the field. -/
def p384 : Nat := 2 ^ 384 - 2 ^ 128 - 2 ^ 96 + 2 ^ 32 - 1

/-- The constant of the curve `y² = x³ - 3x + b`. -/
def p384B : Nat := 0xB3312FA7E23EE7E4988E056BE3F82D19181D9C6EFE8141120314088F5013875AC656398D8A2ED19D2A85C8EDD3EC2AEF

/-- The order of the base point. -/
def p384N : Nat := 0xFFFFFFFFFFFFFFFFFFFFFFFFFFFFFFFFFFFFFFFFFFFFFFFFC7634D81F4372DDF581A0DB248B0A77AECEC196ACCC52973

/-- A point in projective form: `x = X / Z²`, `y = Y / Z³`; `Z = 0` is the point at infinity. -/
abbrev EcPoint := Nat × Nat × Nat

/-- The base point. -/
def p384G : EcPoint :=
  (0xAA87CA22BE8B05378EB1C71EF320AD746E1D3B628BA79B9859F741E082542A385502F25DBF55296C3A545E3872760AB7,
   0x3617DE4A96262C6F5D9E98BF9292DC29F8F41DBD289A147CE9DA3113B5F0B8C00A60B1CE1D7E819D7A431D7C90EA0E5F, 1)

/-- The bits of a number of up to 384 bits, most significant first. -/
def bits384 (n : Nat) : List Bool := (List.range 384).map fun i => n.testBit (383 - i)

/-- A power modulo `m`. -/
def powMod (m b e : Nat) : Nat :=
  (bits384 e).foldl (fun r bit => let q := r * r % m; if bit then q * b % m else q) 1

/-- A difference in the field. -/
def subP (a b : Nat) : Nat := (a + (p384 - b % p384)) % p384

/-- The double of a point. -/
def ecDouble (q : EcPoint) : EcPoint :=
  let x := q.1
  let y := q.2.1
  let z := q.2.2
  let zz := z * z % p384
  let yy := y * y % p384
  let s := 4 * (x * yy) % p384
  let m := 3 * (subP x zz * (x + zz)) % p384
  let x' := subP (m * m) (2 * s)
  (x', subP (m * subP s x') (8 * (yy * yy)), 2 * (y * z) % p384)

/-- The sum of two points. -/
def ecAdd (q r : EcPoint) : EcPoint :=
  if q.2.2 = 0 then r
  else if r.2.2 = 0 then q
  else
    let zq := q.2.2 * q.2.2 % p384
    let zr := r.2.2 * r.2.2 % p384
    let u := q.1 * zr % p384
    let s := q.2.1 * (zr * r.2.2 % p384) % p384
    let h := subP (r.1 * zq) u
    let d := subP (r.2.1 * (zq * q.2.2 % p384)) s
    if h = 0 then (if d = 0 then ecDouble q else (1, 1, 0))
    else
      let hh := h * h % p384
      let v := u * hh % p384
      let hhh := h * hh % p384
      let x' := subP (d * d) (hhh + 2 * v)
      (x', subP (d * subP v x') (s * hhh), h * (q.2.2 * r.2.2 % p384) % p384)

/-- A multiple of a point. -/
def ecMul (k : Nat) (q : EcPoint) : EcPoint :=
  (bits384 k).foldl (fun r bit => let d := ecDouble r; if bit then ecAdd d q else d) (1, 1, 0)

/-- The public key of 97 bytes in uncompressed form: 4, then x and y; a point that is not on the curve is no key. -/
def publicKey (key : List Byte) : Option EcPoint :=
  let x := beNat ((key.drop 1).take 48)
  let y := beNat (key.drop 49)
  if key.length = 97 ∧ key.head? = some 4 ∧ x < p384 ∧ y < p384 ∧ y * y % p384 = (x * x * x + 3 * (p384 - x) + p384B) % p384 then
    some (x, y, 1)
  else none

/-- Whether a signature of r and s over a digest is that of a public key. -/
def ecdsaOk (key : List Byte) (digest r s : Nat) : Bool :=
  match publicKey key with
  | none => false
  | some q =>
    if r = 0 ∨ s = 0 ∨ p384N ≤ r ∨ p384N ≤ s then false
    else
      let w := powMod p384N s (p384N - 2)
      let sum := ecAdd (ecMul (digest * w % p384N) p384G) (ecMul (r * w % p384N) q)
      let zi := powMod p384 sum.2.2 (p384 - 2)
      sum.2.2 != 0 && sum.1 * (zi * zi % p384) % p384 % p384N == r

/-! ### The fields of an image (R505) -/

/-- A little-endian field of the header. -/
def Image.field (img : Image) (i n : Nat) : Nat := leNat ((img.header.drop i).take n)

/-- KIND. -/
def Image.kind (img : Image) : Nat := img.field 6 1

/-- KEYSLOT. -/
def Image.keySlot (img : Image) : Nat := img.field 7 1

/-- MINISSUE. -/
def Image.minIssue (img : Image) : Nat := img.field 8 4

/-- VERSION. -/
def Image.version (img : Image) : Nat := img.field 12 4

/-- ROLLBACK. -/
def Image.rollback (img : Image) : Nat := img.field 16 2

/-- FMTVER. -/
def Image.fmtVer (img : Image) : Nat := img.field 18 2

/-- LENGTH. -/
def Image.length (img : Image) : Nat := img.field 24 8

/-- SERIAL. -/
def Image.serial (img : Image) : Nat := img.field 32 8

/-- BODYHASH, as the number that its bytes spell in their order. -/
def Image.bodyHash (img : Image) : Nat := beNat ((img.header.drop 40).take 48)

/-- The bytes of an image as it lies in memory or in the store. -/
def Image.bytes (img : Image) : List Byte := img.header ++ img.key ++ img.body

/-- The SHA-384 of an image (R529). -/
def Image.hash (img : Image) : Nat := sha384 img.bytes

/-- A field of the body of a token (R500). -/
def Image.tokenField (img : Image) (i n : Nat) : Nat := leNat ((img.body.drop i).take n)

/-- FROM of a token. -/
def Image.tokenFrom (img : Image) : Nat := img.tokenField 0 1

/-- TO of a token. -/
def Image.tokenTo (img : Image) : Nat := img.tokenField 1 1

/-- SLOT of a token. -/
def Image.tokenSlot (img : Image) : Nat := img.tokenField 2 1

/-- SERIAL of a token. -/
def Image.tokenSerial (img : Image) : Nat := img.tokenField 4 8

/-- An image as it lies in memory: header, key, body. -/
def parseImage (bs : List Byte) : Image := { header := bs.take 256, key := (bs.drop 256).take 97, body := bs.drop 353 }

/-- The largest body of an image of a kind (R506), for tokens their 32 bytes (R500), for firmware and packages their region less
header and key (R520). The spec gives none for the kinds without a region there: a free limit. -/
def imageLimit (kind : Nat) : Nat :=
  match kind with
  | 1 => 536870912 - 353
  | 4 => 1073741824 - 353
  | 5 | 6 => 32
  | _ => Config.imageLimit kind

/-- The first check of R506: MAGIC, HDRVER, the KIND that is asked for, reserved bytes 0, those of a token's body too, and
LENGTH, which is the length of the body (DEDUCED, assumption 129) and within the limit of the kind. -/
def Image.formOk (img : Image) (kind : Nat) : Bool :=
  decide (img.header.length = 256 ∧ img.key.length = 97) && img.field 0 4 == 0x4B56494D && img.field 4 2 == 1 && img.kind == kind
    && img.field 20 4 == 0 && img.field 88 72 == 0 && img.length == img.body.length && decide (img.length ≤ imageLimit kind)
    && (if kind = 5 ∨ kind = 6 then img.length == 32 && img.tokenField 3 1 == 0 && img.tokenField 28 4 == 0 else true)

/-- Whether the signature is that of the carried key over bytes 0 to 159 (R505). -/
def Image.signatureOk (img : Image) : Bool :=
  ecdsaOk img.key (sha384 (img.header.take 160)) (beNat ((img.header.drop 160).take 48)) (beNat (img.header.drop 208))

namespace State

/-- The checks of R506 from 1 to 7 on an image that must be of the given kind; 0 where all pass. A slot holds the SHA-384 of its
key (R503). -/
def imageCheck (s : State) (img : Image) (kind : Nat) : Nat :=
  if !img.formOk kind then 1
  else if !((s.getF Fld.LCS_KEYS_PRESENT).testBit img.keySlot) || (s.getF Fld.LCS_KEYS_REVOKED).testBit img.keySlot
      || sha384 img.key != tget s.lcs.keyHash img.keySlot then 2
  else if !img.signatureOk then 3
  else if img.bodyHash ≠ sha384 img.body then 4
  else if s.getF Fld.SYS_IDENT_ISSUE < img.minIssue then 5
  else if img.rollback < s.getF Fld.LCS_ROLLBACK_COUNT then 6
  else if img.serial ≠ 0 ∧ img.serial ≠ s.rd64 Reg.LCS_SERIAL then 7
  else 0

/-- The checks of a token (R500, R506): the image's, then the body's SERIAL and NONCE. -/
def tokenCheck (s : State) (tok : Image) (kind : Nat) : Nat :=
  let c := s.imageCheck tok kind
  if c ≠ 0 then c
  else if tok.tokenSerial = 0 ∨ tok.tokenSerial ≠ s.rd64 Reg.LCS_SERIAL then 7
  else if tok.tokenField 12 8 ≠ s.rd64 Reg.LCS_NONCE_LO ∨ tok.tokenField 20 8 ≠ s.rd64 Reg.LCS_NONCE_HI then 8
  else 0

/-- The token that software has written into LCS_TOKWIN (R500). -/
def token (s : State) : Image := parseImage (((List.range 97).flatMap fun i => leBytes 4 (s.rd (Reg.LCS_TOKWIN + 4 * i))).take 385)

/-- The image in DDR that LCS_SRCADDR and LCS_SRCLEN name (R521); a range that does not lie in DDR, or that class D may not
read, holds no image, and fails the first check (DEDUCED, assumption 129). -/
def sourceImage (s : State) : Image :=
  let a := s.getF Fld.LCS_SRCADDR_ADDR
  let n := s.rd Reg.LCS_SRCLEN
  if 0x400000000 < a + n ∨ s.rangeCheck .d false a n ≠ 0 then parseImage [] else parseImage (s.memRead a n)

end State

end Sys2Proof.Machine
end

