-- ==== Sys2Proof/Machine/Lifecycle.lean ====
section
/-! DEFINITION. Life-cycle and the program store (R497 to R504, R507, R520 to R528, R545). -/

namespace Sys2Proof.Machine

/-- Whether R499 lists a transition, with what it needs: firmware committed, standstill. -/
def lcsTable (src dst : Nat) : Option (Bool × Bool) :=
  match src, dst with
  | 0, 1 => some (false, false)
  | 1, 3 => some (true, false)
  | 2, 3 => some (true, false)
  | 3, 2 => some (false, true)
  | 2, 1 => some (false, true)
  | 0, 4 | 1, 4 | 2, 4 | 3, 4 => some (false, true)
  | _, _ => none

namespace State

/-- Change the life-cycle state. -/
def modLcs (s : State) (f : LcsSt → LcsSt) : State := { s with lcs := f s.lcs }

/-- The life-cycle state code (R497). -/
def lcState (s : State) : Nat := s.getF Fld.LCS_STATE_STATE

/-- What R499 answers to a transition at its command: 0, 9 or 12. Standstill is taken from the sample of the effect edge
(DEDUCED, assumption 111). -/
def transitionCheck (s : State) (tok : Image) : Nat :=
  if tok.tokenFrom ≠ s.lcState then 9
  else match lcsTable tok.tokenFrom tok.tokenTo with
    | none => 9
    | some (committed, _) => if committed && !s.lcs.fwCommitted then 12 else 0

/-- A record of the module for a changed object; the hashes of contents whose byte form the spec does not give are free
values (R538). -/
def prvChange (s : State) (kind n : Nat) : State :=
  ((s.freshCtr.freshCtr).prvModule kind (objectBytes kind n) (Config.contentHash s.freeCtr).toNat
    (Config.contentHash (s.freeCtr + 1)).toNat)

/-! ### Commands (R500, R506, R545) -/

/-- A write of LCS_CMD with its key starts a command; while one runs it is refused with result 14. -/
def lcsCommand (s : State) (req : Requester) (key : Byte) (f : State → State) : State :=
  s.regCmd req Reg.LCS_CMD fun s => if key = 0xC9 then f s else s

/-- A command starts: LCS_CMDRES shows it as busy. While one runs it is refused with result 14, a TRANSITION or REVOKE as a token
(R501). -/
def lcsStart (s : State) (b : LcsBusy) : State :=
  if s.lcs.busy.isSome then
    let s := s.inc64 Reg.LCS_CMDREFUSED
    let s := (s.setF Fld.LCS_CMDRES_CMD b.cmd).setF Fld.LCS_CMDRES_RESULT 14
    let s := if b.cmd = 1 ∨ b.cmd = 2 then s.emit 0x15 0x1602 3 60 (p4 [14]) else s
    match b.nonce with
    | some n => (s.wr64 Reg.LCS_NONCE_LO n.1).wr64 Reg.LCS_NONCE_HI n.2
    | none => s
  else
    let s := ((s.setB Fld.LCS_CMDRES_BUSY true).setF Fld.LCS_CMDRES_CMD b.cmd).setF Fld.LCS_CMDRES_RESULT 0
    s.modLcs fun l => { l with busy := some b }

/-- A refused image is written as an event (R506). -/
def imageRefused (s : State) (img : Image) (result : Nat) : State :=
  s.emit 0x15 0x1605 3 60 (p4 [img.kind, result])

/-- The SHA-256 of a stored image, 0 where none is stored (R538). -/
def storedHash (x : Option Stored) : Nat :=
  match x with
  | some y => leNat (sha256Bytes y.image.bytes)
  | none => 0

/-- The write of an image has ended well: counted, written as an event, and recorded with the SHA-256 of what it replaced and
its own (R521, R523, R538). -/
def imageWritten (s : State) (img : Image) (kind old : Nat) : State :=
  ((s.inc64 Reg.LCS_IMAGES).emit 0x15 0x1604 2 60 (p4 [img.kind, img.version])).prvModule kind (objectBytes kind img.kind) old
    (leNat (sha256Bytes img.bytes))

/-- The next number of the order in which images were stored. -/
def storeAs (s : State) (img : Image) : State × Stored :=
  (s.modLcs fun l => { l with storeOrder := l.storeOrder + 1 }, { image := img, age := s.lcs.storeOrder + 1 })

/-- Whether a program or erase operation may start: not after NV_STOP (R522, R554). -/
def flashStopped (s : State) : Bool := s.bit Fld.PWR_STATUS_NV_STOP

/-- The end of a Docent write: the copy is named for the next start (R523). -/
def docentStored (s : State) (copy : Nat) (img : Image) : State :=
  let (s, x) := s.storeAs img
  s.modLcs fun l =>
    if copy = 0 then { l with docent0 := some x, docentNext := 0 } else { l with docent1 := some x, docentNext := 1 }

/-- The end of a boot-configuration write (R508, R523). -/
def bootCfgStored (s : State) (copy : Nat) (img : Image) : State :=
  let (s, x) := s.storeAs img
  s.modLcs fun l => if copy = 0 then { l with bootCfg0 := some x } else { l with bootCfg1 := some x }

/-- The end of a firmware write (R521). -/
def firmwareStored (s : State) (img : Image) : State :=
  let (s, x) := s.storeAs img
  s.modLcs fun l => { l with firmware := some x, writing := false }

/-- A copy of the Docent (KIND 2) or of the boot configuration (KIND 3) is erased before it is written (R521, R523). -/
def eraseCopy (s : State) (kind copy : Nat) : State :=
  s.modLcs fun l => match kind, copy with
    | 2, 0 => { l with docent0 := none }
    | 2, _ => { l with docent1 := none }
    | _, 0 => { l with bootCfg0 := none }
    | _, _ => { l with bootCfg1 := none }

/-- The older copy of a pair of stored images: one that is not stored counts as the older (R508, R523). -/
def olderCopy (a b : Option Stored) : Nat :=
  match a, b with
  | none, _ => 0
  | _, none => 1
  | some x, some y => if x.age ≤ y.age then 0 else 1

/-- A store write that could not be done, or an image that was refused, changes nothing more (R522). -/
def lcsAct (s : State) (b : LcsBusy) : State :=
  match b.act with
  | .nothing | .restart => s
  | .transition src dst slot => s.modLcs fun l => { l with transition := l.transition ++ [⟨src, dst, slot, s.time.mono⟩] }
  | .revoke slot =>
    let s := s.setF Fld.LCS_KEYS_REVOKED (s.getF Fld.LCS_KEYS_REVOKED ||| 2 ^ slot)
    (s.emit 0x15 0x1603 4 60 (p4 [slot])).prvChange 5 slot
  | .firmware img old => (s.firmwareStored img).imageWritten img 7 old
  | .docent copy img old => (s.docentStored copy img).imageWritten img 8 old
  | .bootCfg copy img old => (s.bootCfgStored copy img).imageWritten img 9 old
  | .commit =>
    let (roll, ver) := match s.lcs.running with
      | some img => (img.rollback, img.version)
      | none => (0, s.rd Reg.LCS_FWVER)
    let s := s.setF Fld.LCS_ROLLBACK_COUNT (max (s.getF Fld.LCS_ROLLBACK_COUNT) (min 128 roll))
    let s := (s.setF Fld.LCS_FMT_OLDFMT 0).setB Fld.LCS_BOOTINFO_UNCOMMITTED false
    let s := s.modLcs fun l => { l with oldCopy := none, fwCommitted := true }
    (s.emit 0x15 0x1606 2 60 (p4 [ver, s.getF Fld.LCS_ROLLBACK_COUNT])).prvChange 10 0

/-- Whether a command writes the store. -/
def writesStore : LcsAct → Bool
  | .firmware _ _ | .docent _ _ _ | .bootCfg _ _ _ => true
  | _ => false

/-- A command completes (R506): its result is shown, and it has its effect or is counted as refused. -/
def lcsComplete (s : State) (b : LcsBusy) : State :=
  let r := if b.result = 0 ∧ writesStore b.act ∧ s.flashStopped then 13 else b.result
  let s := s.modLcs fun l => { l with busy := none }
  let s := (s.setB Fld.LCS_CMDRES_BUSY false).setF Fld.LCS_CMDRES_CMD b.cmd |>.setF Fld.LCS_CMDRES_RESULT r
  let s := match b.nonce with
    | some n => (s.wr64 Reg.LCS_NONCE_LO n.1).wr64 Reg.LCS_NONCE_HI n.2
    | none => s
  if r = 0 then s.lcsAct b else s.inc64 Reg.LCS_CMDREFUSED

/-! ### The edge of a transition (R501, R502) -/

/-- RETIRED takes effect: custody is released and the runtime stops. -/
def retire (s : State) : State :=
  let s := (s.modLcs fun l => { l with retiredFuse := true }).releaseCustody 0 5
  s.setF Fld.RTS_STATE_STATE 2

/-- Whether a transition needs standstill (R499). -/
def needsStill (src dst : Nat) : Bool := match lcsTable src dst with
  | some (_, still) => still
  | none => false

/-- A transition that waited is refused at its edge: with result 11 where standstill is missing (R499, R501; DEDUCED, assumption
111), with 9 where an earlier one has left its FROM state (DESIGN CHOICE, assumption 111). -/
def lcsRefusedAt (s : State) (c : Nat) : State :=
  let s := if s.getF Fld.LCS_CMDRES_CMD = 1 ∧ !s.bit Fld.LCS_CMDRES_BUSY then s.setF Fld.LCS_CMDRES_RESULT c else s
  (s.inc64 Reg.LCS_CMDREFUSED).emit 0x15 0x1602 3 60 (p4 [c])

/-- The boot-state part of MRAM (R26), the 64-byte lines of it below Docent's run-time part, and the lines of the two copies of
the state, which differ (DESIGN CHOICE, assumption 116: the places are free values). -/
def bootPart : Nat := 0x1040280000
def bootLines : Nat := 2 + Config.bootPlace 2 % 23549
def copyAt (second : Bool) : Nat :=
  let k := Config.bootPlace 0 % bootLines
  bootPart + 64 * (if second then (k + 1 + Config.bootPlace 1 % (bootLines - 1)) % bootLines else k)

/-- A copy of the state with its CRC-32C (R498): the code in 4 bytes, then the CRC (DESIGN CHOICE, assumption 116). -/
def stateBytes (c : Nat) : List Byte := leBytes 4 c ++ leBytes 4 (crc32c (leBytes 4 c))

/-- The state that a copy in boot state holds, `none` where it fails its check (R498). -/
def stateCopy (s : State) (second : Bool) : Option Nat :=
  let c := leNat (s.memRead (copyAt second) 4)
  if s.memRead (copyAt second) 8 = stateBytes c ∧ 1 ≤ c ∧ c ≤ 3 then some c else none

/-- Both copies are written. -/
def keepState (s : State) (c : Nat) : State := (s.memWrite (copyAt false) (stateBytes c)).memWrite (copyAt true) (stateBytes c)

/-- An accepted transition at its edge (R501), with standstill in the sample of that edge where R499 asks for it. -/
def lcsTake (s : State) (t : LcsTrans) : State :=
  if t.src ≠ s.lcState then s.lcsRefusedAt 9
  else if needsStill t.src t.dst && !s.bit Fld.GAR_COND_STANDSTILL then s.lcsRefusedAt 11
  else
    let s := (s.setF Fld.LCS_STATE_STATE t.dst).inc64 Reg.LCS_TRANSITIONS
    let s := s.modLcs fun l => { l with mfgFuse := true }
    let s := if t.dst = 4 then s else s.keepState t.dst
    let s := (s.emit 0x15 0x1601 2 60 (p4 [t.src, t.dst, t.slot])).prvChange 4 0
    if t.dst = 4 then s.retire else s

/-- The accepted transitions take effect, in their order, at the first edge at least 2 µs after their commands completed (R501).
-/
def lcsEdge (s : State) : State :=
  let due := s.lcs.transition.filter fun t => decide (t.at_ + 2000 ≤ s.time.mono)
  due.foldl lcsTake (s.modLcs fun l => { l with transition := l.transition.filter fun t => decide (s.time.mono < t.at_ + 2000) })

/-- The life-cycle state at a start (R498): the RETIRED fuse, then the first copy in boot state that passes its check; SEALED
where both fail while the first fuse is blown. -/
def startState (s : State) : Nat :=
  if s.lcs.retiredFuse then 4
  else if !s.lcs.mfgFuse then 0
  else match s.stateCopy false, s.stateCopy true with
    | some c, _ => c
    | none, some c => c
    | none, none => 3

/-! ### What each command starts (R506) -/

/-- A refused token: LCS_TOKEN_REFUSED (R501), and LCS_IMAGE_REFUSED where a check of its image failed (R506); none where it is
accepted, or where the command is refused as busy. -/
def tokenRefused (s : State) (tok : Image) (c : Nat) : State :=
  if c = 0 ∨ s.lcs.busy.isSome then s
  else
    let s := if c ≤ 8 then s.imageRefused tok c else s
    s.emit 0x15 0x1602 3 60 (p4 [c])

/-- TRANSITION (R499 to R501). -/
def lcsTransition (s : State) (nonceLo nonceHi : BitVec 64) : State :=
  let tok := s.token
  let c := s.tokenCheck tok 5
  let c := if c ≠ 0 then c else s.transitionCheck tok
  let n := some (nonceLo.toNat, nonceHi.toNat)
  (s.tokenRefused tok c).lcsStart ⟨1, c, .transition tok.tokenFrom tok.tokenTo tok.keySlot, n⟩

/-- REVOKE (R504). -/
def lcsRevoke (s : State) (nonceLo nonceHi : BitVec 64) : State :=
  let tok := s.token
  let slot := tok.tokenSlot
  let c := s.tokenCheck tok 6
  let left := (bitsOf 4 (s.getF Fld.LCS_KEYS_PRESENT)).filter fun k =>
    k != slot && !(s.getF Fld.LCS_KEYS_REVOKED).testBit k
  let c := if c ≠ 0 then c else if left = [] then 15 else if slot = tok.keySlot ∨ 4 ≤ slot then 2 else 0
  let n := some (nonceLo.toNat, nonceHi.toNat)
  (s.tokenRefused tok c).lcsStart ⟨2, c, .revoke slot, n⟩

/-- WRITE_FW (R521, R522). -/
def lcsWriteFw (s : State) (written verified : Bool) : State :=
  let img := s.sourceImage
  let c := s.imageCheck img 1
  if s.lcs.busy.isSome then s.lcsStart ⟨3, 14, .nothing, none⟩
  else if c ≠ 0 then (s.imageRefused img c).lcsStart ⟨3, c, .nothing, none⟩
  else if s.flashStopped then (s.modLcs fun l => { l with writing := true }).lcsStart ⟨3, 13, .nothing, none⟩
  else
    let old := State.storedHash s.lcs.firmware
    let s := s.modLcs fun l => { l with writing := true, firmware := none }
    s.lcsStart ⟨3, if written && verified then 0 else 13, .firmware img old, none⟩

/-- WRITE_DOCENT (R523). -/
def lcsWriteDocent (s : State) (written verified : Bool) : State :=
  let img := s.sourceImage
  let c := s.imageCheck img 2
  if s.lcs.busy.isSome then s.lcsStart ⟨4, 14, .nothing, none⟩
  else if s.lcState ≠ 2 then s.lcsStart ⟨4, 10, .nothing, none⟩
  else if c ≠ 0 then (s.imageRefused img c).lcsStart ⟨4, c, .nothing, none⟩
  else if s.flashStopped then s.lcsStart ⟨4, 13, .nothing, none⟩
  else
    let copy := 1 - s.getF Fld.LCS_BOOTINFO_DOCENT
    let old := State.storedHash (if copy = 0 then s.lcs.docent0 else s.lcs.docent1)
    let s := s.eraseCopy 2 copy
    s.lcsStart ⟨4, if written && verified then 0 else 13, .docent copy img old, none⟩

/-- WRITE_BOOTCFG (R523). -/
def lcsWriteBootcfg (s : State) (written verified : Bool) : State :=
  let img := s.sourceImage
  let c := s.imageCheck img 3
  if s.lcs.busy.isSome then s.lcsStart ⟨5, 14, .nothing, none⟩
  else if s.lcState ≠ 1 ∧ s.lcState ≠ 2 then s.lcsStart ⟨5, 10, .nothing, none⟩
  else if c ≠ 0 then (s.imageRefused img c).lcsStart ⟨5, c, .nothing, none⟩
  else if s.flashStopped then s.lcsStart ⟨5, 13, .nothing, none⟩
  else
    let copy := State.olderCopy s.lcs.bootCfg0 s.lcs.bootCfg1
    let old := State.storedHash (if copy = 0 then s.lcs.bootCfg0 else s.lcs.bootCfg1)
    let s := s.eraseCopy 3 copy
    s.lcsStart ⟨5, if written && verified then 0 else 13, .bootCfg copy img old, none⟩

/-- COMMIT_FW (R527). -/
def lcsCommitFw (s : State) : State :=
  let c := if s.bit Fld.LCS_BOOTINFO_UNCOMMITTED && !s.bit Fld.LCS_BOOTINFO_CYCLEOK then 12 else 0
  s.lcsStart ⟨6, c, .commit, none⟩

/-- RESTART (R524). -/
def lcsRestart (s : State) : State :=
  let c := if s.role = 2 ∧ s.bit Fld.RPL_STATUS_PEER_ELIG then 10 else 0
  s.lcsStart ⟨7, c, .restart, none⟩

/-- VERIFY (R545). -/
def lcsVerify (s : State) : State :=
  let img := s.sourceImage
  let c := s.imageCheck img 4
  let s := if c = 0 ∨ s.lcs.busy.isSome then s else s.imageRefused img c
  s.lcsStart ⟨8, c, .nothing, none⟩

/-- A word written to LCS_CMD with its key: the nonces, and whether the store takes and verifies what is written, are free (R500,
R506; DEDUCED, assumption 35). A command that R506 does not define does nothing. -/
def lcsWord (s : State) (v : Nat) : State :=
  let t := s.freshCtr
  let n := s.freeCtr
  match v % 256 with
  | 1 => t.lcsTransition (Config.nonce n).1 (Config.nonce n).2
  | 2 => t.lcsRevoke (Config.nonce n).1 (Config.nonce n).2
  | 3 => t.lcsWriteFw (Config.storeTakes n) (Config.storeVerifies n)
  | 4 => t.lcsWriteDocent (Config.storeTakes n) (Config.storeVerifies n)
  | 5 => t.lcsWriteBootcfg (Config.storeTakes n) (Config.storeVerifies n)
  | 6 => s.lcsCommitFw
  | 7 => s.lcsRestart
  | 8 => s.lcsVerify
  | _ => s

end State

/-! ### The commands -/

/-- LCS_CMD_TRANSITION (R499 to R501, R506), with the token of LCS_TOKWIN; the field ARG of the word is reserved (DEDUCED,
assumption 48). -/
def execLcsCmdTransition (dt : Nat) (req : Requester) (key _arg : Byte) (nonceLo nonceHi : BitVec 64) (s : State) :
    Host.Outcome State Fault Refusal :=
  .next ((s.elapse dt).lcsCommand req key fun s => s.lcsTransition nonceLo nonceHi)

/-- LCS_CMD_REVOKE (R504): never the last slot, which is result 15 first, and signed with another slot (any other token signed
with the slot itself fails check 2, DEDUCED). -/
def execLcsCmdRevoke (dt : Nat) (req : Requester) (key _arg : Byte) (nonceLo nonceHi : BitVec 64) (s : State) :
    Host.Outcome State Fault Refusal :=
  .next ((s.elapse dt).lcsCommand req key fun s => s.lcsRevoke nonceLo nonceHi)

/-- LCS_CMD_WRITE_FW (R521, R522): a verified image in DDR sets WRITING, and the firmware region is erased and written;
`written` says whether erase and write succeed, `verified` whether the read-back does. -/
def execLcsCmdWriteFw (dt : Nat) (req : Requester) (key : Byte) (written verified : Bool) (s : State) :
    Host.Outcome State Fault Refusal :=
  .next ((s.elapse dt).lcsCommand req key fun s => s.lcsWriteFw written verified)

/-- LCS_CMD_WRITE_DOCENT (R523): only in SERVICE; the copy that was not used at this start. -/
def execLcsCmdWriteDocent (dt : Nat) (req : Requester) (key : Byte) (written verified : Bool) (s : State) :
    Host.Outcome State Fault Refusal :=
  .next ((s.elapse dt).lcsCommand req key fun s => s.lcsWriteDocent written verified)

/-- LCS_CMD_WRITE_BOOTCFG (R523): only in INTEGRATE and SERVICE; the older copy. -/
def execLcsCmdWriteBootcfg (dt : Nat) (req : Requester) (key : Byte) (written verified : Bool) (s : State) :
    Host.Outcome State Fault Refusal :=
  .next ((s.elapse dt).lcsCommand req key fun s => s.lcsWriteBootcfg written verified)

/-- LCS_CMD_COMMIT_FW (R527). -/
def execLcsCmdCommitFw (dt : Nat) (req : Requester) (key : Byte) (s : State) : Host.Outcome State Fault Refusal :=
  .next ((s.elapse dt).lcsCommand req key fun s => s.lcsCommitFw)

/-- LCS_CMD_RESTART (R524): the module reset follows within 100 ms as a command of its own. -/
def execLcsCmdRestart (dt : Nat) (req : Requester) (key : Byte) (s : State) : Host.Outcome State Fault Refusal :=
  .next ((s.elapse dt).lcsCommand req key fun s => s.lcsRestart)

/-- LCS_CMD_VERIFY (R545): a change package is checked and nothing is written. -/
def execLcsCmdVerify (dt : Nat) (req : Requester) (key _arg : Byte) (s : State) :
    Host.Outcome State Fault Refusal :=
  .next ((s.elapse dt).lcsCommand req key fun s => s.lcsVerify)

/-- LCS_CMD_COMPLETE (R506). An accepted RESTART completes by its reset. -/
def execLcsCmdComplete (dt : Nat) (s : State) : Host.Outcome State Fault Refusal :=
  let s := s.elapse dt
  .next (match s.lcs.busy with
    | some b => if b.act = .restart ∧ b.result = 0 then s else s.lcsComplete b
    | none => s)

end Sys2Proof.Machine
end

