-- ==== Sys2Proof/Machine/Conservator.lean ====
section
/-! DEFINITION. Conservator mode (R511, R529 to R535): entry, sessions, and the collection, check and write of an image. -/

namespace Sys2Proof.Machine

/-- A request of Conservator mode (R531): type, session, sequence number, offset and payload. -/
structure CvReq where
  type : Nat
  session : Nat
  seq : Nat
  offset : Nat
  payload : List Byte
  deriving DecidableEq, Repr

/-- The request that a message spells (R531), `none` where its MAGIC, VERSION, length or CRC is wrong, or its LEN exceeds 1,024
(DEDUCED, assumption 129). -/
def cvParse (msg : List Byte) : Option CvReq :=
  let f (i n : Nat) : Nat := beNat ((msg.drop i).take n)
  let len := f 16 2
  if msg.length = 24 + len ∧ len ≤ 1024 ∧ f 0 2 = 0x4356 ∧ f 2 1 = 1 ∧ f (20 + len) 4 = crc32 (msg.take (20 + len)) then
    some ⟨f 3 1, f 4 4, f 8 4, f 12 4, (msg.drop 20).take len⟩
  else none

/-- The message of a response (R531). -/
def cvMessage (r : CvResp) : List Byte :=
  let m := beBytes 2 0x4356 ++ beBytes 1 1 ++ beBytes 1 r.type ++ beBytes 4 r.session ++ beBytes 4 r.seq ++ beBytes 4 r.offset
    ++ beBytes 2 r.payload.length ++ beBytes 2 r.status ++ r.payload
  m ++ beBytes 4 (crc32 m)

namespace State

/-- Change the state of Conservator mode. -/
def modCv (s : State) (f : CvSt → CvSt) : State := { s with cv := f s.cv }

/-- A start enters Conservator mode with its cause (R511, R529); the summaries that no start has recorded yet stay. An entry for failed starts clears their count (DESIGN
CHOICE, assumption 16). -/
def enterConservator (s : State) (cause : Nat) : State :=
  let s := (s.setF Fld.LCS_BOOTINFO_CVCAUSE cause).inc64 Reg.LCS_CVENTRIES
  let s := if cause = 5 then s.setF Fld.LCS_BOOTINFO_FAILSTARTS 0 else s
  ({ s with cv := {} } : State).modLcs fun l => { l with phase := .conservator, cvCause := some cause }

/-- The payload of INFO (R532), in network byte order. -/
def cvInfo (s : State) : List Byte :=
  let ok (x : Option Stored) : Bool := match x with
    | some x => s.imageCheck x.image 2 == 0
    | none => false
  beBytes 8 (s.rd64 Reg.LCS_SERIAL) ++ beBytes 4 (s.getF Fld.SYS_IDENT_ISSUE) ++ beBytes 1 s.lcState
    ++ beBytes 1 (s.getF Fld.LCS_BOOTINFO_CVCAUSE) ++ beBytes 1 (b2n (ok s.lcs.docent0) + 2 * b2n (ok s.lcs.docent1))
    ++ beBytes 1 0 ++ beBytes 4 (s.getF Fld.LCS_ROLLBACK_COUNT) ++ beBytes 4 536870912

/-- A message goes to the source of its request (R530). -/
def cvSend (s : State) (dest : Nat) (r : CvResp) : State := s.modCv fun c => { c with sent := some (dest, cvMessage r) }

/-- ROM answers a request of the open session: an ACK carries the next expected offset; that of other responses is not given, a
free value (R531). -/
def cvAnswer (s : State) (source type status : Nat) (payload : List Byte) : State :=
  let s := if type = 5 then s else s.freshCtr
  let offset := if type = 5 then s.cv.expected else (Config.cvSession s.freeCtr).toNat
  let id := match s.cv.session with
    | some x => x.1
    | none => 0
  let r : CvResp := ⟨type, id, s.cv.lastSeq.getD 0, offset, status, payload⟩
  (s.modCv fun c => { c with lastResp := some r }).cvSend source r

/-- A request of the open session (R531, R533, R534): others are discarded without answer, and a repeated request receives
the same response again. -/
def cvRequest (s : State) (source : Nat) (msg : List Byte) (type : Nat) (repeats : Bool) (f : CvReq → State → State) : State :=
  match cvParse msg with
  | none => s
  | some q =>
    if s.lcs.phase ≠ .conservator ∨ q.type ≠ type ∨ s.cv.session ≠ some (q.session, source) then s
    else
      let s := s.modCv fun c => { c with lastAt := s.time.clock }
      match s.cv.lastResp with
      | some r =>
        if repeats ∧ s.cv.lastSeq = some q.seq then s.cvSend source r else f q (s.modCv fun c => { c with lastSeq := some q.seq })
      | none => f q (s.modCv fun c => { c with lastSeq := some q.seq })

/-- The session closes (R533); a write that has begun goes on (DEDUCED, assumption 129). -/
def cvClose (s : State) : State :=
  s.modCv fun c =>
    let c := { c with session := none, lastSeq := none, lastResp := none }
    if c.working then c else { c with kind := none, total := 0, expected := 0, data := [], result := none }

/-- A HELLO opens a session (R533); its number is a free value that is not 0. -/
def cvOpen (s : State) (source seq : Nat) : State :=
  let id := 1 + (Config.cvSession s.freeCtr).toNat % 4294967295
  let s := (s.freshCtr.cvClose).modCv fun c => { c with session := some (id, source), lastAt := s.time.clock, lastSeq := some seq }
  s.cvAnswer source 2 0 s.cvInfo

/-- The result of the checks at END (R535). -/
def cvCheck (s : State) : Nat :=
  if s.cv.expected ≠ s.cv.total then 1 else s.imageCheck (parseImage s.cv.data) (s.cv.kind.getD 0)

/-- The copy that ROM writes (R535): the invalid copy of the Docent, else the older one; the older copy of the boot
configuration. -/
def cvTarget (s : State) (kind : Nat) : Nat :=
  let bad (x : Option Stored) : Bool := match x with
    | some x => s.imageCheck x.image 2 != 0
    | none => true
  if kind = 2 then
    if bad s.lcs.docent0 then 0 else if bad s.lcs.docent1 then 1 else olderCopy s.lcs.docent0 s.lcs.docent1
  else olderCopy s.lcs.bootCfg0 s.lcs.bootCfg1

/-- ROM starts to check and write (R521, R535): a verified firmware image sets WRITING, and what is replaced is erased. -/
def cvWork (s : State) : State :=
  let kind := s.cv.kind.getD 0
  let s := s.modCv fun c => { c with working := true }
  if s.cvCheck ≠ 0 ∨ s.flashStopped then s
  else if kind = 1 then s.modLcs fun l => { l with writing := true, firmware := none }
  else s.eraseCopy kind (s.cvTarget kind)

/-- The end of ROM's work (R506, R529, R535): the image is stored, or refused and written as an event, and the summary of the
session kept. -/
def cvStore (s : State) (written : Bool) : State :=
  let kind := s.cv.kind.getD 0
  let img := parseImage s.cv.data
  let c := s.cvCheck
  let r := if c ≠ 0 then c else if !written ∨ s.flashStopped then 13 else 0
  let s := if c = 0 then s else s.imageRefused img c
  let s :=
    if r ≠ 0 then s
    else if kind = 1 then s.firmwareStored img
    else if kind = 2 then s.docentStored (s.cvTarget 2) img
    else s.bootCfgStored (s.cvTarget 3) img
  let s := s.modLcs fun l => { l with cvSummary := l.cvSummary ++ [⟨l.cvCause.getD 0, kind, r, img.hash⟩] }
  s.modCv fun c => { c with working := false, result := some r, lastSeq := none }

end State

/-! ### The commands -/

/-- CV_HELLO (R533): opens a session, or is answered with status 14 while another source has one; the SESSION and OFFSET of that
answer are not given, free values. -/
def execCvHello (dt : Nat) (m : CvDatagram) (s : State) : Host.Outcome State Fault Refusal :=
  let s := s.elapse dt
  .next (match cvParse m.msg with
    | none => s
    | some q =>
      if s.lcs.phase ≠ .conservator ∨ q.type ≠ 1 ∨ q.session ≠ 0 then s
      else match s.cv.session with
        | some (_, src) =>
          if src ≠ m.source then
            let s := s.freshCtr.freshCtr
            s.cvSend m.source ⟨2, (Config.cvSession (s.freeCtr - 1)).toNat, q.seq, (Config.cvSession s.freeCtr).toNat, 14, s.cvInfo⟩
          else if s.cv.lastSeq = some q.seq then
            let s := s.modCv fun c => { c with lastAt := s.time.clock }
            match s.cv.lastResp with
            | some r => s.cvSend m.source r
            | none => s
          else s.cvOpen m.source q.seq
        | none => s.cvOpen m.source q.seq)

/-- CV_BEGIN (R529, R532): refused with status 10 in RETIRED. -/
def execCvBegin (dt addr port : Nat) (msg : List Byte) (s : State) : Host.Outcome State Fault Refusal :=
  let s := s.elapse dt
  let source := addr * 65536 + port
  .next (s.cvRequest source msg 3 true fun q s =>
    let kind := beNat (q.payload.take 1)
    let length := beNat ((q.payload.drop 4).take 4)
    if s.lcState = 4 then s.cvAnswer source 5 10 []
    else if s.cv.working then s.cvAnswer source 5 14 []
    else if q.payload.length ≠ 8 ∨ kind = 0 ∨ 3 < kind ∨ 536870912 < length then s.cvAnswer source 5 1 []
    else
      (s.modCv fun c => { c with kind := some kind, total := length, expected := 0, data := [], result := none }).cvAnswer source 5 0 [])

/-- CV_DATA (R534). -/
def execCvData (dt addr port : Nat) (msg : List Byte) (s : State) : Host.Outcome State Fault Refusal :=
  let s := s.elapse dt
  let source := addr * 65536 + port
  .next (s.cvRequest source msg 4 true fun q s =>
    if s.cv.working then s.cvAnswer source 5 14 []
    else if s.cv.kind.isNone ∨ s.cv.expected < q.offset then s.cvAnswer source 5 1 []
    else if q.offset = s.cv.expected then
      (s.modCv fun c => { c with expected := c.expected + q.payload.length, data := c.data ++ q.payload }).cvAnswer source 5 0 []
    else s.cvAnswer source 5 0 [])

/-- CV_END (R535): ROM starts to check and write, and answers 14 until it is done; then it answers with RESULT. -/
def execCvEnd (dt source : Nat) (msg : List Byte) (s : State) : Host.Outcome State Fault Refusal :=
  let s := s.elapse dt
  .next (s.cvRequest source msg 6 false fun _ s =>
    match s.cv.result with
    | some r => s.cvAnswer source 7 r []
    | none =>
      if s.cv.working then s.cvAnswer source 5 14 []
      else if s.cv.kind.isNone then s.cvAnswer source 5 1 []
      else s.cvWork.cvAnswer source 5 14 [])

/-- CV_WRITE_DONE (R535). -/
def execCvWriteDone (dt : Nat) (written : Bool) (s : State) : Host.Outcome State Fault Refusal :=
  let s := s.elapse dt
  .next (if s.cv.working && s.lcs.phase == .conservator then s.cvStore written else s)

/-- CV_RESET (R532): acknowledged; the module reset follows within 100 ms as a command of its own. -/
def execCvReset (dt : Nat) (m : CvDatagram) (s : State) : Host.Outcome State Fault Refusal :=
  let s := s.elapse dt
  .next (s.cvRequest m.source m.msg 8 true fun _ s => ((s.cvAnswer m.source 5 0 []).cvClose).modCv fun c => { c with resetDue := true })

/-- CV_ABORT (R532): the session is closed and nothing is written; an image whose write has begun is not aborted, and is
answered with status 14 (DEDUCED, assumption 129). -/
def execCvAbort (dt : Nat) (m : CvDatagram) (s : State) : Host.Outcome State Fault Refusal :=
  let s := s.elapse dt
  .next (s.cvRequest m.source m.msg 9 true fun _ s =>
    if s.cv.working then s.cvAnswer m.source 5 14 [] else (s.cvAnswer m.source 5 0 []).cvClose)

/-- CV_SESSION_TIMEOUT (R533): 30 s without a valid request. -/
def execCvSessionTimeout (dt : Nat) (s : State) : Host.Outcome State Fault Refusal :=
  let s := s.elapse dt
  .next (if s.cv.session.isSome && decide (s.cv.lastAt + 30000000000 ≤ s.time.clock) then s.cvClose else s)

end Sys2Proof.Machine
end

