-- ==== Sys2Proof/Machine/Catalogue.lean ====
section
/-! DEFINITION. Catalogues (R31 to R37): enable, staging, and the edge at which a change takes effect. -/

namespace Sys2Proof.Machine

/-- The block index of a catalogue block (R30). -/
def catIndex : CatBlk → Nat
  | .fio => 0x07
  | .meas => 0x08
  | .wal => 0x09
  | .trdp => 0x0B
  | .mvb => 0x0C
  | .can => 0x0D
  | .ser => 0x0E

/-- The block maximum of COUNT (R257, R308, R334, R367, R386). -/
def catMax : CatBlk → Nat
  | .fio => 32
  | .meas => 16
  | .wal => 128
  | .trdp => 4096
  | .mvb | .can => 256
  | .ser => 64

/-- The bytes of an entry: 64, and 128 in TRDP. -/
def catBytes (b : CatBlk) : Nat := if b = .trdp then 128 else 64

/-- All catalogue blocks. -/
def catBlks : List CatBlk := [.fio, .meas, .wal, .trdp, .mvb, .can, .ser]

/-- A little-endian field of an entry, of `n` bytes from byte `i` on. -/
def ent (e : List Byte) (i n : Nat) : Nat := leNat ((e.drop i).take n)

/-- The common registers of a catalogue (R31), by block. -/
def catReg (b : CatBlk) (ofs : Nat) : Nat := catIndex b * 0x10000 + ofs

/-- A slot as an entry gives it (R335). -/
structure WalSlot where
  ctl : Nat
  snd : Nat
  snd2 : Nat
  ofs : Nat
  slen : Nat
  plen : Nat
  claimId : Nat
  role : Nat
  deriving DecidableEq, Repr

/-- USED, SYNC and SPARE. -/
def WalSlot.used (x : WalSlot) : Bool := x.ctl.testBit 0
def WalSlot.sync (x : WalSlot) : Bool := x.ctl.testBit 1
def WalSlot.spare (x : WalSlot) : Bool := x.ctl.testBit 2

/-- The slot of an entry's bytes. -/
def walSlotOf (e : List Byte) : WalSlot :=
  ⟨ent e 0 1, ent e 1 1, ent e 2 1, ent e 4 4, ent e 8 4, ent e 12 2, ent e 14 2, ent e 16 1⟩

namespace State

/-- A block's catalogue. -/
def cat (s : State) (b : CatBlk) : CatSt := tget s.cats (catIndex b)

/-- Change a block's catalogue. -/
def modCat (s : State) (b : CatBlk) (f : CatSt → CatSt) : State := { s with cats := tmod s.cats (catIndex b) f }

/-- COUNT as R32 takes it: above the block maximum it is 0. -/
def catCount (s : State) (b : CatBlk) : Nat :=
  let c := s.rd (catReg b 0x28) % 8192
  if catMax b < c then 0 else c

/-- The address of entry `i`. -/
def catAddr (s : State) (b : CatBlk) (i : Nat) : Nat :=
  s.rd (catReg b 0x20) / 4096 * 4096 + s.rd (catReg b 0x24) % 256 * 4294967296 + i * catBytes b

/-- Whether entry `i` lies wholly in DDR (R36). -/
def catInDdr (s : State) (b : CatBlk) (i : Nat) : Bool := decide (s.catAddr b i + catBytes b ≤ 0x400000000)

/-- The bytes of entry `i` in DDR. -/
def catRead (s : State) (b : CatBlk) (i : Nat) : List Byte := s.memRead (s.catAddr b i) (catBytes b)

/-- The working entry `i`; empty where the catalogue is not in use or has no such entry. -/
def catEntry (s : State) (b : CatBlk) (i : Nat) : List Byte :=
  let c := s.cat b
  if c.inUse && decide (i < c.count) then tget c.working i else []

/-- The slot of entry `e`; an unused one where the catalogue has none. -/
def walSlot (s : State) (e : Nat) : WalSlot := walSlotOf (s.catEntry .wal e)

/-- The node's position on the Walira line (R313). -/
def walPos (s : State) : Nat := s.getF Fld.WAL_NODECFG_POS

/-- Whether the node part of an entry is invalid (R336). A claimed spare slot names no sender. -/
def walNodeBad (s : State) (e : Nat) : Bool :=
  let x := s.walSlot e
  let claim := x.role.testBit 2
  decide (32 ≤ x.role) || (claim && !x.spare) ||
    (x.role.testBit 0 && !(x.spare && claim) && x.snd != s.walPos && x.snd2 != s.walPos)

/-- ROLE as it takes effect. -/
def walRole (s : State) (e : Nat) : Nat := if s.walNodeBad e then 0 else (s.walSlot e).role

/-- The BEATSEQ of the edge at which a write that arrives now takes effect (R34). -/
def effectSeq (s : State) : Nat :=
  if s.time.mt + 2000 < s.time.edgeAt then s.time.beatSeq + 1 else s.time.beatSeq + 2

/-- A read that ended with ERR_ECC or ERR_ADDR is counted (R32, R36). -/
def catErr (s : State) (b : CatBlk) : State := s.inc64 (catReg b 0x40)

/-- A write that sets CATCTL.EN (R32): the reads of all entries start and return what stands there now, so that a later change
is not seen; entries outside DDR end at once with ERR_ADDR and read as zero. A COUNT of 0 leaves the catalogue disabled. -/
def catEnable (s : State) (b : CatBlk) : State :=
  if s.rd (catReg b 0x2C) % 2 = 1 ∨ s.heldDisabled (catIndex b) 0 then s
  else
    let s := s.wr (catReg b 0x2C) 1
    let n := s.catCount b
    if n = 0 then s
    else
      let (inside, outside) := (List.range n).partition (s.catInDdr b)
      let t := s.effectSeq
      let now := inside.foldl (fun g i => tset g i (s.catRead b i)) []
      let s := s.modCat b fun c => { c with enabling := some t, toRead := inside, gotten := now }
      s.add64 (catReg b 0x40) outside.length

/-- Clearing EN takes effect at the next edge; an enable that waits lapses (R32). -/
def catDisable (s : State) (b : CatBlk) : State :=
  (s.wr (catReg b 0x2C) 0).modCat b fun c => { c with enabling := none, toRead := [], gotten := [], disabling := true }

/-! ### Refusals of the doorbell (R35, R334, R367) -/

/-- The entry that software would put in place of entry `i`. -/
def catNew (s : State) (b : CatBlk) (i : Nat) : List Byte := if s.catInDdr b i then s.catRead b i else []

/-- The first `n` bytes of an entry; an entry without content reads as zero bytes (R32). -/
def entHead (n : Nat) (e : List Byte) : List Byte := (List.range n).map fun i => e.getD i 0

/-- R334: while a Walira channel is not OFF, bytes 0 to 15 of its entries may not change. -/
def walRefuses (s : State) (i : Nat) : Bool :=
  s.getF (Fld.WAL_STATUS_STATE (i / 64)) != 0 && entHead 16 (s.catNew .wal i) != entHead 16 (s.catEntry .wal i)

/-- The copies that a TRDP entry makes due at edge `m` (R368, R371): one per port of EGRESS. -/
def trdpCopies (e : List Byte) (m : Nat) : Nat :=
  let ctl := ent e 0 1
  if ctl % 4 = 3 ∧ ent e 1 1 ≤ 12 ∧ m % 2 ^ ent e 1 1 = ent e 2 2 then (bitsOf 8 (ent e 26 1)).length else 0

/-- The TRDP entry `j` as the staged changes leave it; what stands in DDR while it is still to be read. -/
def trdpPlanned (s : State) (j : Nat) : List Byte :=
  match (s.cat .trdp).staged.find? fun x => x.idx == j with
  | some x => x.data.getD (s.catNew .trdp j)
  | none => s.catEntry .trdp j

/-- R367: more than 256 publication copies due at one edge. -/
def trdpTooMany (s : State) (i : Nat) : Bool :=
  let e := s.catNew .trdp i
  let others := ((List.range (s.cat .trdp).count).filter (· != i)).map s.trdpPlanned
  (List.range 4096).any fun m =>
    trdpCopies e m != 0 && decide (256 < trdpCopies e m + (others.map fun o => trdpCopies o m).sum)

/-- R367: only class T may create, change or remove an entry with HOST = 1. -/
def trdpHost1 (s : State) (i : Nat) : Bool := (ent (s.catNew .trdp i) 0 1).testBit 2 || (ent (s.catEntry .trdp i) 0 1).testBit 2

/-- Whether the doorbell for entry `i` is refused. -/
def catRefuses (s : State) (k : Cls) (b : CatBlk) (i : Nat) : Bool :=
  let c := s.cat b
  let t := s.effectSeq
  decide (s.catCount b ≤ i) ||
  (!(c.staged.any fun x => x.idx == i) && decide (64 ≤ (c.staged.filter fun x => x.target == t).length)) ||
  (b == .wal && s.walRefuses i) ||
  (b == .trdp && (k != .t && s.trdpHost1 i || s.trdpTooMany i))

/-- An invalidate doorbell (R33 to R36): the entry is read into a staging place; a newer doorbell for the same index
replaces the older one whole. -/
def catInvalidate (s : State) (k : Cls) (b : CatBlk) (i : Nat) : State :=
  if s.catRefuses k b i then s.inc64 (catReg b 0x38)
  else
    let t := s.effectSeq
    let rest (c : CatSt) : List CatStage := c.staged.filter fun x => x.idx != i
    if s.catInDdr b i then s.modCat b fun c => { c with staged := rest c ++ [⟨i, t, none⟩] }
    else (s.catErr b).modCat b fun c => { c with staged := rest c }

/-- A read of an entry ends (R32, R34, R36): the read at an enable first, else the staging read. -/
def catReadDone (s : State) (b : CatBlk) (i : Nat) (ended : ReadEnd) : State :=
  let st := s.readStatus ended .d (s.catAddr b i) (catBytes b)
  let bytes := s.catRead b i
  let c := s.cat b
  let s := s.readLeaves st .d (s.catAddr b i) (catBytes b)
  if c.toRead.contains i then
    let s := if st = 0x10 ∨ st = 0x12 then s.catErr b else s
    s.modCat b fun c => { c with
      toRead := c.toRead.filter (· != i), gotten := if st = 0 then c.gotten else tset c.gotten i [] }
  else if c.staged.any fun x => x.idx == i && x.data.isNone then
    if st = 0 then
      s.modCat b fun c => { c with staged := c.staged.map fun x => if x.idx = i then { x with data := some bytes } else x }
    else
      let s := if st = 0x10 ∨ st = 0x12 then s.catErr b else s
      s.modCat b fun c => { c with staged := c.staged.filter fun x => x.idx != i }
  else s

/-! ### The edge (R32, R34) -/

/-- The indices whose working entry changes at this edge, with the entry before it. -/
structure CatChange where
  idx : Nat
  old : List Byte
  fresh : Bool

/-- The edge of one catalogue: a disable, an enable whose reads are done, and the staged changes that are due; while an enable
still reads, they wait for its edge. The answer lists what changed: `fresh` for entries that an enable brought or a disable
took out. -/
def catEdge (s : State) (b : CatBlk) : State × List CatChange :=
  let c := s.cat b
  let seq := s.time.beatSeq
  let was := c.count
  let olds (n : Nat) : List CatChange := (List.range n).map fun i => ⟨i, s.catEntry b i, true⟩
  let (s, ch) : State × List CatChange :=
    if c.disabling && c.inUse then
      (s.modCat b fun c => { c with inUse := false, count := 0, working := [], disabling := false }, olds was)
    else (s.modCat b fun c => { c with disabling := false }, [])
  let (s, ch) : State × List CatChange :=
    match c.enabling with
    | some t =>
      if t ≤ seq ∧ c.toRead = [] then
        let n := s.catCount b
        ((s.modCat b fun c => { c with inUse := true, count := n, working := c.gotten, enabling := none, gotten := [] }).wr
            (catReg b 0x30) s.time.beat, ch ++ (List.range (max n was)).map fun i => ⟨i, [], true⟩)
      else (s, ch)
    | none => (s, ch)
  let due := (s.cat b).staged.filter fun x => decide (x.target ≤ seq) && x.data.isSome
  let used := due.filter fun x => (s.cat b).inUse && decide (x.idx < (s.cat b).count)
  let ch := ch ++ used.map fun x => ⟨x.idx, s.catEntry b x.idx, false⟩
  let s := s.modCat b fun c => { c with
    staged := c.staged.filter fun x => !(decide (x.target ≤ seq) && x.data.isSome) || c.enabling.isSome
    working := used.foldl (fun w x => tset w x.idx (x.data.getD [])) c.working }
  (if used.isEmpty then s else s.wr (catReg b 0x30) s.time.beat, ch)

end State

/-! ### The commands -/

/-- CATALOGUE_STAGING_READ_DONE (R32, R34, R36). -/
def execCatalogueStagingReadDone (dt : Nat) (blk : CatBlk) (index : Nat) (ended : ReadEnd) (s : State) :
    Host.Outcome State Fault Refusal :=
  .next ((s.elapse dt).catReadDone blk index ended)

/-- CATALOGUE_ENABLE_WRITE (R17, R32): CATCTL.EN is RWL. -/
def execCatalogueEnableWrite (dt : Nat) (req : Requester) (blk : CatBlk) (s : State) :
    Host.Outcome State Fault Refusal :=
  let s := s.elapse dt
  .next (s.regCmd req (catReg blk 0x2C) fun s => if s.sealedCfg then s else s.catEnable blk)

end Sys2Proof.Machine
end

