-- ==== Sys2Proof/Machine/Garnet.lean ====
section
/-! DEFINITION. Garnet (R132 to R168, R177): inputs, function instances, safe output pairs, the Triad permit, brake tests,
hold, faults and lock-out. Clocks are ns of `TimeSt.clock`, in place of Garnet's own oscillators. -/

namespace Sys2Proof.Machine

/-- A field of the active image: the input records and the instance records (R169, R170). -/
def gin (img : List Byte) (k i n : Nat) : Nat := leNat ((img.drop (64 + 8 * k + i)).take n)
def gins (img : List Byte) (j i n : Nat) : Nat := leNat ((img.drop (128 + 32 * j + i)).take n)

/-- The inputs that an instance names (R170): IN1, IN2. -/
def instInput (img : List Byte) (j i : Nat) : Option Nat :=
  let v := gins img j i 1
  if v.testBit 7 then some (v % 8) else none

/-- The inputs of an instance. -/
def instInputs (img : List Byte) (j : Nat) : List Nat := (instInput img j 1).toList ++ (instInput img j 2).toList

/-- The output pair of an instance. -/
def instPair (img : List Byte) (j : Nat) : Option Nat :=
  let v := gins img j 3 1
  if gins img j 0 1 = 1 ∧ v.testBit 7 then some (v % 4) else none

namespace State

/-- Change Garnet's state. -/
def modGar (s : State) (f : GarSt → GarSt) : State := { s with gar := f s.gar }

/-- An output pair and an instance. -/
def gpair (s : State) (x : Nat) : GarPair := tget s.gar.pairs x
def ginst (s : State) (j : Nat) : GarInst := tget s.gar.insts j

/-- Change an output pair or an instance. -/
def modPair (s : State) (x : Nat) (f : GarPair → GarPair) : State := s.modGar fun g => { g with pairs := tmod g.pairs x f }
def modInst (s : State) (j : Nat) (f : GarInst → GarInst) : State := s.modGar fun g => { g with insts := tmod g.insts j f }

/-- The configuration in force; empty where the store holds none. -/
def gimg (s : State) : List Byte := s.gar.active.getD []

/-- The type code of an instance, 0 unused (R141). -/
def gtype (s : State) (j : Nat) : Nat := gins s.gimg j 0 1

/-- The used instances. -/
def gused (s : State) : List Nat := (List.range 8).filter fun j => s.gtype j != 0

/-- The SBC instance of a pair. -/
def pairInst (s : State) (x : Nat) : Option Nat := s.gused.find? fun j => instPair s.gimg j == some x

/-- Whether an instance is in lock-out. -/
def locked (s : State) (j : Nat) : Bool := (s.getF Fld.GAR_STATUS_LOCKED).testBit j

/-- Garnet's operating time in ns (R154, R176). -/
def opTime (s : State) : Nat := s.gar.opAcc + if s.gar.powered then s.time.clock - s.gar.powerAt else 0

/-- Whether Garnet evaluates: supplied, and past its start-up check. -/
def garRuns (s : State) : Bool := s.gar.powered && s.getF Fld.GAR_STATUS_STATE != 0

/-! ### Inputs (R137 to R140) -/

/-- The filtered channels of an input. -/
def chanA (s : State) (k : Nat) : Bool := (s.getF Fld.GAR_INPUTS_SI).testBit (2 * k)
def chanB (s : State) (k : Nat) : Bool := (s.getF Fld.GAR_INPUTS_SI).testBit (2 * k + 1)

/-- Whether an input is antivalent (R139). -/
def antivalent (s : State) (k : Nat) : Bool := gin s.gimg k 0 1 == 1

/-- The healthy reading, the opposite reading on both channels, and a discrepancy (R139). -/
def healthy (s : State) (k : Nat) : Bool := s.chanA k && (s.chanB k != s.antivalent k)
def away (s : State) (k : Nat) : Bool := !s.chanA k && (s.chanB k == s.antivalent k)
def discrepant (s : State) (k : Nat) : Bool := (s.chanA k != s.chanB k) != s.antivalent k

/-- Since when an input shows a discrepancy (R140). -/
def discTrack (s : State) (k : Nat) : State :=
  let upd (d : Option Nat) : Option Nat := if s.discrepant k then some (d.getD s.time.clock) else none
  s.modGar fun g => { g with discSince := tmod g.discSince k upd }

/-- The reading of an instance's first or second input. -/
def healthy1 (s : State) (j : Nat) : Bool := match instInput s.gimg j 1 with
  | some k => s.healthy k
  | none => false
def healthy2 (s : State) (j : Nat) : Bool := match instInput s.gimg j 2 with
  | some k => s.healthy k
  | none => false

/-- RESULT of an instance. -/
def result (s : State) (j : Nat) : Bool := s.bit (Fld.GAR_INST_RESULT j)

/-! ### What the registers show (R179) -/

/-- GAR_STATUS, GAR_COND and GAR_OUTPUTS follow the instances and pairs. -/
def garShow (s : State) : State :=
  let stp := s.gused.find? fun j => s.gtype j == 6
  let still := match stp with
    | some j => s.result j
    | none => false
  let scp := still && (match stp with
    | some j => s.healthy2 j && !s.locked j
    | none => false)
  let s := ((s.setB Fld.GAR_COND_STANDSTILL still).setB Fld.GAR_COND_SCP scp).setF Fld.GAR_COND_RESULT
    ((List.range 8).map fun j => 2 ^ j * b2n (s.result j)).sum
  let s := s.setB Fld.GAR_COND_ANY_LO (s.getF Fld.GAR_STATUS_LOCKED != 0 || s.getF Fld.GAR_STATUS_STATE == 2)
  let s := ((s.setB Fld.GAR_STATUS_STANDSTILL still).setB Fld.GAR_STATUS_SCP scp).setB Fld.GAR_STATUS_PENDING s.gar.pending.isSome
  let s := s.setB Fld.GAR_STATUS_SESSION s.gar.session.isSome
  (List.range 4).foldl (fun s x =>
    let p := s.gpair x
    let off (hs : Bool) : Bool := match p.pulse with
      | some (h, _) => h == hs
      | none => false
    let s := (s.setB (Fld.GAR_OUTPUTS_HS x) (p.closed && !off true)).setB (Fld.GAR_OUTPUTS_LS x) (p.closed && !off false)
    s.setB (Fld.GAR_OUTPUTS_HOLD x) p.hold.isSome) s

/-- RESULT and STATE of an instance. -/
def setResult (s : State) (j : Nat) (r : Bool) (st : Nat) : State :=
  (s.setB (Fld.GAR_INST_RESULT j) r).setF (Fld.GAR_INST_STATE j) st

/-! ### Output pairs (R148, R151, R167) -/

/-- A pair opens: both switches, and the feedback is awaited "applied" (R151). -/
def openPair (s : State) (x : Nat) : State :=
  if !(s.gpair x).closed then s
  else s.modPair x fun p => { p with
    closed := false, pulse := none, opLow := none, hold := none, feedback := some (true, s.time.clock) }

/-- A pair closes: the feedback is awaited "released", and the off-pulse interval starts (R149, R151). -/
def closePair (s : State) (x j : Nat) : State :=
  if (s.gpair x).closed then s
  else s.modPair x fun p => { p with
    closed := true, feedback := some (false, s.time.clock), opNext := s.time.clock + gins s.gimg j 12 2 * 1000000000 }

/-- A hold ends with its reason (R167); for all but reason 5 the pair opens, where no brake test has opened it already. -/
def endHold (s : State) (x reason : Nat) : State :=
  if (s.gpair x).hold.isNone then s
  else
    let s := (if reason = 5 then s else s.openPair x).modPair x fun p => { p with hold := none }
    s.emit 0x05 0x0306 4 57 (p4 [x, reason])

/-- A brake test ends with its result (R152, R153, R177). -/
def endTest (s : State) (x res : Nat) : State :=
  let s := s.setF (Fld.GAR_BRKRES_RES x) res
  s.emit 0x05 0x0307 (if res = 2 then 1 else if res = 3 then 6 else 2) 57 (p4 [x, res, s.getF (Fld.GAR_BRKMS_T x)])

/-! ### Faults (R162, R163) -/

/-- An instance enters lock-out: RESULT falls and its pair opens. -/
def lockInst (s : State) (j : Nat) : State :=
  if s.locked j then s
  else
    let s := (s.setF Fld.GAR_STATUS_LOCKED (s.getF Fld.GAR_STATUS_LOCKED ||| 2 ^ j)).inc64 Reg.GAR_LOCKOUTS
    let s := s.setResult j false 5
    match instPair s.gimg j with
    | some x =>
      (s.endHold x 3).openPair x
    | none => s

/-- An instance fault (R163): a new cause bit is latched and written; the instance enters lock-out. -/
def garFault (s : State) (j bit_ : Nat) : State :=
  let c := s.getF (Fld.GAR_INST_CAUSE j)
  let s := s.lockInst j
  if c.testBit bit_ then s
  else (s.setF (Fld.GAR_INST_CAUSE j) (c ||| 2 ^ bit_)).emit 0x05 0x0301 6 57 (p4 [j, c ||| 2 ^ bit_])

/-- The configuration session ends (R173, R174): the cause of the maintenance lock-out clears. -/
def endSession (s : State) : State :=
  (s.modGar fun g => { g with session := none, clearable := g.clearable ||| 16 }).setB Fld.GAR_STATUS_SESSION false

/-- A global fault (R163, R173). -/
def garGlobal (s : State) (bit_ : Nat) : State :=
  let c := s.getF Fld.GAR_GCAUSE_CAUSE
  let s := s.modGar fun g => { g with clearable := g.clearable &&& (31 - 2 ^ bit_) }
  let s := (s.setF Fld.GAR_GCAUSE_CAUSE (c ||| 2 ^ bit_)).setF Fld.GAR_STATUS_STATE 2
  let s := s.gused.foldl (fun s j => s.lockInst j) s
  let s := (List.range 4).foldl (fun s x => (s.endHold x 3).openPair x) s
  let s := if bit_ = 4 then s else s.endSession
  if c.testBit bit_ then s else s.emit 0x05 0x0301 6 57 (p4 [0xFF, c ||| 2 ^ bit_])

/-! ### Evaluation instances (R142 to R147) -/

/-- RESULT of an evaluation instance falls by demand, or follows its inputs. -/
def evalTo (s : State) (j : Nat) (r : Bool) (st : Nat) : State :=
  let was := s.result j
  let s := s.setResult j r st
  if was && !r then s.emit 0x05 0x0308 3 57 (p4 [j, s.gtype j]) else s

/-- ESE and LCE with the RESTART rule (R143, R146). -/
def evalStop (s : State) (j : Nat) : State :=
  let restart := (gins s.gimg j 5 1).testBit 0
  if !s.healthy1 j then (s.modInst j fun i => { i with needAck := true }).evalTo j false 1
  else if restart && (s.ginst j).needAck then s.evalTo j false 6
  else s.evalTo j true 2

/-- The implausible sequence of a GDE (R144), tracked in lock-out too, where its cause is added to the others (R164). -/
def doorTrack (s : State) (j : Nat) : State :=
  let openDoor := match instInput s.gimg j 1 with
    | some k => s.away k
    | none => false
  if s.healthy2 j && openDoor then
    match (s.ginst j).implSince with
    | some t => if t + gins s.gimg j 6 2 * 1000000 < s.time.clock then s.garFault j 7 else s
    | none => s.modInst j fun i => { i with implSince := some s.time.clock }
  else s.modInst j fun i => { i with implSince := none }

/-- GDE (R144). -/
def evalDoor (s : State) (j : Nat) : State :=
  let ok := s.healthy1 j && s.healthy2 j
  (s.evalTo j ok (if ok then 2 else 1)).doorTrack j

/-- THE (R145): both hands within 500 ms, and both released between commands. -/
def evalHands (s : State) (j : Nat) : State :=
  let rel (i : Nat) : Bool := match instInput s.gimg j i with
    | some k => s.away k
    | none => false
  let l := s.healthy1 j
  let r := s.healthy2 j
  let i := s.ginst j
  if rel 1 && rel 2 then (s.modInst j fun i => { i with handAt := none, handsBlocked := false }).evalTo j false 1
  else if l && r then
    if s.result j then s
    else if i.handsBlocked then s
    else match i.handAt with
      | some t =>
        if s.time.clock ≤ t + 500000000 then s.evalTo j true 2 else s.modInst j fun i => { i with handsBlocked := true }
      | none => s.evalTo j true 2
  else if s.result j then (s.modInst j fun i => { i with handAt := none, handsBlocked := true }).evalTo j false 1
  else if l || r then
    s.modInst j fun i => { i with handAt := some (i.handAt.getD s.time.clock) }
  else s.modInst j fun i => { i with handAt := none }

/-- One evaluation instance. -/
def evalInst (s : State) (j : Nat) : State :=
  if s.locked j then (if s.gtype j = 3 then s.doorTrack j else s)
  else match s.gtype j with
    | 2 | 5 => s.evalStop j
    | 3 => s.evalDoor j
    | 4 => s.evalHands j
    | 6 => s.evalTo j (s.healthy1 j) (if s.healthy1 j then 2 else 1)
    | _ => s

/-! ### Safe brake control (R148 to R153, R167) -/

/-- Whether every linked instance has RESULT = 1. -/
def linksOk (s : State) (j : Nat) : Bool := (bitsOf 8 (gins s.gimg j 4 1)).all s.result

/-- The state of a pair's permit (R158), and its request line. -/
def permit (s : State) (x : Nat) : Nat := s.getF (Fld.GAR_PERMSTAT_PSTATE x)
def reqLine (s : State) (x : Nat) : Bool := s.bit (Fld.GAR_OUTPUTS_REQ x)

/-- The condition of R148 for a pair and its instance. -/
def mayRelease (s : State) (x j : Nat) : Bool :=
  s.bit Fld.GAR_STATUS_CUST_EN && s.reqLine x && s.permit x == 2 && s.linksOk j && !s.locked j && (s.gpair x).test.isNone

/-- The feedback reading of an SBC instance: "applied" is the healthy reading. -/
def fbApplied (s : State) (j : Nat) : Bool := s.healthy1 j
def fbReleased (s : State) (j : Nat) : Bool := match instInput s.gimg j 1 with
  | some k => s.away k
  | none => true

/-- Whether a brake test of a pair is running; an aborted one has ended, and only keeps its pair open (R153). -/
def testRuns (s : State) (x : Nat) : Bool :=
  match (s.gpair x).test with
  | some t => !t.aborted
  | none => false

/-- A brake test in an evaluation cycle (R152, R153). -/
def evalTest (s : State) (x j : Nat) (t : GarTest) : State :=
  let still := s.bit Fld.GAR_COND_STANDSTILL
  if t.aborted then s
  else if !still then
    (s.modPair x fun p => { p with test := some { t with aborted := true } }).endTest x 4
  else match t.applied with
    | none =>
      if s.fbApplied j then
        (s.setF (Fld.GAR_BRKMS_T x) ((s.time.clock - t.start) / 100000)).modPair x
          fun p => { p with test := some { t with applied := some s.time.clock } }
      else s
    | some _ =>
      if s.fbApplied j then s
      else ((s.modPair x fun p => { p with test := none, feedback := none }).endTest x 3).garFault j 4

/-- An SBC instance in an evaluation cycle (R148, R151, R167). A hold ends with reason 2 also where a linked instance falls by its
lock-out and not by demand (DESIGN CHOICE, assumption 132). -/
def evalSbc (s : State) (j : Nat) : State :=
  match instPair s.gimg j with
  | none => s
  | some x =>
    let s := match (s.gpair x).test with
      | some t => s.evalTest x j t
      | none => s
    let p := s.gpair x
    let s :=
      if p.hold.isSome then
        if !s.linksOk j then s.endHold x 2
        else if !s.reqLine x then s.endHold x 4
        else if s.bit Fld.GAR_STATUS_CUST_EN && s.permit x == 2 then s.endHold x 5
        else s
      else if s.mayRelease x j then s.closePair x j
      else s.openPair x
    let s := match (s.gpair x).feedback with
      | some (want, _) =>
        if (if want then s.fbApplied j else s.fbReleased j) ∨ (instInput s.gimg j 1).isNone then
          s.modPair x fun p => { p with feedback := none }
        else s
      | none => s
    if s.locked j then s
    else
      let q := s.gpair x
      s.setResult j q.closed (if s.testRuns x then 3 else if q.hold.isSome then 4 else if q.closed then 2 else 1)

/-- The custody enable signal falls: each SBC instance enters HOLD or opens its pair (R148, R167). An off-pulse in progress
ends there without its readback check (DESIGN CHOICE, assumption 121). -/
def custFall (s : State) : State :=
  let s := s.setB Fld.GAR_STATUS_CUST_EN false
  (List.range 4).foldl (fun s x =>
    match s.pairInst x with
    | some j =>
      let p := s.gpair x
      if !p.closed ∨ p.hold.isSome then s
      else if (gins s.gimg j 5 1).testBit 1 && s.linksOk j && !s.locked j then
        ((s.modPair x fun p => { p with hold := some s.time.clock, pulse := none }).inc64 Reg.GAR_HOLDS).emit
          0x05 0x0305 4 57 (p4 [x])
      else s.openPair x
    | none => s.openPair x) s

/-- A short on an open pair (R150): the HS terminal is driven, or the LS terminal is while the load supply is present. -/
def shorted (sn : GarnetSense) (x : Nat) : Bool :=
  sn.hsDriven.toNat.testBit x || (sn.lsDriven.toNat.testBit x && sn.loadSupply)

/-- One evaluation cycle (R132, R142 to R151, R167): the comparison of the channels, the instances, the pairs. An oscillator
difference sets its own global cause, bit 3, and not bit 2 too (DEDUCED, assumption 121). -/
def garEval (s : State) (sn : GarnetSense) : State :=
  if !s.garRuns then s
  else
    let s := (s.setB Fld.GAR_STATUS_GRST sn.grst).setF Fld.GAR_INPUTS_TP sn.tp.toNat
    let s := s.modGar fun g => { g with diffCycles := if sn.differ then g.diffCycles + 1 else 0 }
    let s := (List.range 8).foldl (fun s k => s.discTrack k) s
    let s := if 2 ≤ s.gar.diffCycles then s.garGlobal 2 else s
    let s := if sn.oscOver then s.garGlobal 3 else s
    let s := if s.custodyOn then s.setB Fld.GAR_STATUS_CUST_EN true
      else if s.bit Fld.GAR_STATUS_CUST_EN then s.custFall else s
    let s := (s.gused.filter fun j => s.gtype j != 1).foldl (fun s j => s.evalInst j) s
    let s := s.garShow
    let s := (s.gused.filter fun j => s.gtype j == 1).foldl (fun s j => s.evalSbc j) s
    let s := (List.range 4).foldl (fun s x =>
      match s.pairInst x with
      | some j => if !(s.gpair x).closed && shorted sn x then s.garFault j 6 else s
      | none => s) s
    s.garShow

/-! ### The permit (R155 to R160) -/

/-- The request line of a pair falls: its permit is Absent (R158, R159). -/
def reqFall (s : State) (x : Nat) : State :=
  ((s.setB (Fld.GAR_OUTPUTS_REQ x) false).setF (Fld.GAR_PERMSTAT_PSTATE x) 0).modPair x
    fun p => { p with lastEdge := none, good := 0 }

/-- A permit that was Valid is Lost: a fault of the pair's SBC instance where custody is enabled and no hold runs, else a new
start of the monitor (R159). -/
def permitLost (s : State) (x : Nat) : State :=
  let again (s : State) : State := (s.setF (Fld.GAR_PERMSTAT_PSTATE x) 1).modPair x fun p => { p with good := 0, lastEdge := none }
  if s.permit x ≠ 2 then again s
  else if !s.bit Fld.GAR_STATUS_CUST_EN ∨ (s.gpair x).hold.isSome then again s
  else
    let s := s.setF (Fld.GAR_PERMSTAT_PSTATE x) 3
    match s.pairInst x with
    | some j => ((s.inc64 Reg.GAR_PERMLOSS).emit 0x05 0x0304 6 57 (p4 [x])).garFault j 2
    | none => s

/-- An edge of a permit line (R158, R159). -/
def permitEdge (s : State) (x : Nat) : State :=
  let p := s.gpair x
  let now := s.time.clock
  if !s.gar.powered then s
  else match s.permit x, p.lastEdge with
  | 0, _ => s
  | 3, _ => s
  | _, none => s.modPair x fun p => { p with lastEdge := some now, good := 0 }
  | st, some t =>
    if t + 100000 ≤ now ∧ now ≤ t + 300000 then
      let s := s.modPair x fun p => { p with lastEdge := some now, good := p.good + 1 }
      if st = 1 ∧ 1 ≤ p.good then s.setF (Fld.GAR_PERMSTAT_PSTATE x) 2 else s
    else
      let s := s.permitLost x
      if s.permit x = 1 then s.modPair x fun p => { p with lastEdge := some now } else s

/-- The GAR interface at a beat edge (R156): the write accepted for this edge sets the request lines and toggles the permit
lines. -/
def permitToggleEdge (s : State) : State :=
  let now := s.gar.staged.filter fun x => x.1 == s.time.beatSeq
  let s := s.modGar fun g => { g with staged := g.staged.filter fun x => decide (s.time.beatSeq < x.1), toggled := 0, midDone := false }
  let s := match now.getLast? with
    | some (_, rel) =>
      let s := s.modGar fun g => { g with toggled := rel }
      (List.range 4).foldl (fun s x =>
        if rel.testBit x then
          let s := if s.reqLine x then s
            else ((s.setB (Fld.GAR_OUTPUTS_REQ x) true).setF (Fld.GAR_PERMSTAT_PSTATE x) 1).modPair x
              fun p => { p with lastEdge := none, good := 0 }
          s.permitEdge x
        else s.reqFall x) s
    | none => s
  let next := (s.gar.staged.filter fun x => x.1 == s.time.beatSeq + 1).getLast?
  (List.range 4).foldl (fun s x => s.setB (Fld.GAR_PERMSTAT_STAGED x) (match next with
    | some (_, rel) => rel.testBit x
    | none => false)) s

/-- GAR_PERMSTAT.STAGED follows the write accepted for the next edge. -/
def showStaged (s : State) : State :=
  let next := (s.gar.staged.filter fun x => x.1 == s.time.beatSeq + 1).getLast?
  (List.range 4).foldl (fun s x => s.setB (Fld.GAR_PERMSTAT_STAGED x) (match next with
    | some (_, rel) => rel.testBit x
    | none => false)) s

/-! ### Brake tests at the edge (R152) -/

/-- A requested brake test starts, or is refused with result 5. One that starts during HOLD opens the pair, and the hold runs on
until one of its events (DESIGN CHOICE, assumption 132). -/
def startTest (s : State) (x : Nat) : State :=
  let refuse (s : State) : State := s.endTest x 5
  match s.pairInst x with
  | none => refuse s
  | some j =>
    if (instInput s.gimg j 1).isNone ∨ !s.bit Fld.GAR_COND_STANDSTILL ∨ s.locked j ∨ s.testRuns x ∨ !s.garRuns then
      refuse s
    else
      let s := s.modPair x fun p => { p with
        closed := false, pulse := none, opLow := none
        feedback := if p.closed then some (true, s.time.clock) else p.feedback
        test := some { start := s.time.clock, applied := none, aborted := false } }
      (((s.setF (Fld.GAR_BRKRES_RES x) 1).inc64 Reg.GAR_BRKTESTS).setResult j false 3).garShow

/-- The brake tests whose effect edge this is. -/
def brakeEdge (s : State) : State :=
  let due := s.gar.brkReq.filter fun x => decide (x.2 ≤ s.time.beatSeq)
  let s := s.modGar fun g => { g with brkReq := g.brkReq.filter fun x => decide (s.time.beatSeq < x.2) }
  due.foldl (fun s x => s.startTest x.1) s

/-! ### Reset of lock-out (R164) -/

/-- Whether an instance's latched causes have all cleared. One whose place the new image leaves unused, or gives another type,
has no input or pair left at which a cause of the old type could persist (DEDUCED, assumption 121). -/
def causesCleared (s : State) (j : Nat) (sn : GarnetSense) : Bool :=
  let c := s.getF (Fld.GAR_INST_CAUSE j)
  let img := s.gimg
  let ins := if s.gtype j = 0 then [] else instInputs img j
  let x := instPair img j
  let openOk := match x with
    | some x => !(s.gpair x).closed && !shorted sn x
    | none => true
  (bitsOf 8 c).all fun b => match b with
    | 0 => ins.all fun k => !s.discrepant k
    | 1 => ins.all fun k => [2 * k, 2 * k + 1].all fun ch => decide (2 ≤ tget s.gar.tpGood ch) ||
        gin img k (1 + ch % 2) 1 == 0
    | 2 => true
    | 3 | 6 => openOk
    | 4 | 5 => (match x with
      | some x => s.fbApplied j && !(s.gpair x).closed
      | none => true)
    | _ => s.gtype j != 3 || !(s.healthy2 j && (match instInput img j 1 with
      | some k => s.away k
      | none => false))

/-- An instance leaves lock-out; for ESE and LCE the reset counts as acknowledgement, the hands of a THE must both be
released, and an SBC permit restarts (R145, R164). -/
def leaveLock (s : State) (j : Nat) : State :=
  let s := s.setF Fld.GAR_STATUS_LOCKED (s.getF Fld.GAR_STATUS_LOCKED &&& (255 - 2 ^ j))
  let s := ((s.setF (Fld.GAR_INST_CAUSE j) 0).setF (Fld.GAR_INST_STATE j) (if s.gtype j = 0 then 0 else 1)).modInst j
    fun i => { i with needAck := false, handAt := none, handsBlocked := true }
  match instPair s.gimg j with
  | some x => (s.setF (Fld.GAR_PERMSTAT_PSTATE x) (if s.reqLine x then 1 else 0)).modPair x
      fun p => { p with lastEdge := none, good := 0 }
  | none => s

/-- An accepted reset at GRST (R164). -/
def garReset (s : State) (sn : GarnetSense) : State :=
  let g := s.getF Fld.GAR_GCAUSE_CAUSE
  let globalOk := (bitsOf 5 g).all s.gar.clearable.testBit
  let lockedNow := (List.range 8).filter s.locked
  let (free, kept) := lockedNow.partition fun j => globalOk && s.causesCleared j sn
  let s := s.inc64 Reg.GAR_RESETS
  let s := if globalOk then
      (s.setF Fld.GAR_GCAUSE_CAUSE 0).setF Fld.GAR_STATUS_STATE (if s.getF Fld.GAR_STATUS_STATE = 0 then 0 else 1)
    else s
  let s := free.foldl (fun s j => s.leaveLock j) s
  let mask (l : List Nat) : Nat := (l.map fun j => 2 ^ j).sum
  let s := if free.isEmpty then s else s.emit 0x05 0x0302 2 57 (p4 [mask free])
  if kept.isEmpty then s
  else (s.add64 Reg.GAR_RSTREFUSED kept.length).emit 0x05 0x0303 3 57 (p4 [mask kept])

/-! ### The supply, and a module reset -/

/-- Every output off, every pulse forgotten, and the permits at Absent or Arming. A brake test in progress is dropped without a
result, and RES_x keeps 1 until the next one (DESIGN CHOICE, assumption 132). -/
def garOff (s : State) : State :=
  ((List.range 4).foldl (fun s x => (s.setF (Fld.GAR_PERMSTAT_PSTATE x) (b2n (s.reqLine x))).modPair x fun p => { p with
    closed := false, opLow := none, pulse := none, feedback := none, hold := none, test := none, lastEdge := none, good := 0 })
    s).setF Fld.GAR_INPUTS_TP 0

/-- What a module reset does at Garnet's side (R156, R167, R173): the request lines fall, a hold ends with reason 4, the
session ends, and writes that wait are gone. -/
def garModuleReset (s : State) : State :=
  let s := (List.range 4).foldl (fun s x => (s.endHold x 4).reqFall x) s
  let s := if s.gar.session.isSome then s.endSession else s
  (s.modGar fun g => { g with staged := [], brkReq := [], toggled := 0, busy := none }).garShow.showStaged

end State

/-! ### The commands -/

/-- GARNET_SUPPLY_RISE (R135): outputs off, start-up check; the lock-out that the control area holds is in force. Garnet sees the
custody enable from its first evaluation on, so that a permit lost before is no fault (DESIGN CHOICE, assumption 132). -/
def execGarnetSupplyRise (dt : Nat) (s : State) : Host.Outcome State Fault Refusal :=
  let s := s.elapse dt
  .next (
    if s.gar.powered then s
    else
      let s := s.modGar fun g => { g with powered := true, powerAt := s.time.clock, diffCycles := 0, discSince := [], tpBad := []
                                          tpGood := [], tpNow := [], insts := [] }
      ((s.garOff.setB Fld.GAR_STATUS_CUST_EN false).setF Fld.GAR_INPUTS_SI 0 |>.setF Fld.GAR_STATUS_STATE 0).garShow)

/-- GARNET_STARTUP_CHECK_DONE (R134, R135): a failed check leads to global lock-out; a passed one clears the causes that it
covers (R164). Which of the causes that only such a check clears a failed test-pulse or readback check sets is free
(assumption 18). -/
def execGarnetStartupCheckDone (dt : Nat) (chk : GarnetCheck) (s : State) : Host.Outcome State Fault Refusal :=
  let s := s.elapse dt
  .next (
    if !s.gar.powered ∨ s.getF Fld.GAR_STATUS_STATE ≠ 0 then s
    else
      let img := chk.image && s.gar.active.isSome
      let ok := img && chk.compare && chk.testPulses && chk.readback
      let s := s.modGar fun g => { g with clearable := g.clearable ||| (if img then 3 else 0) ||| (if ok then 12 else 0) }
      let s := s.setF Fld.GAR_STATUS_STATE (if s.getF Fld.GAR_GCAUSE_CAUSE = 0 then 1 else 2)
      let s := if s.gar.active.isNone then s.garGlobal 1 else if chk.image then s else s.garGlobal 0
      let s := if chk.compare then s else s.garGlobal 2
      let s := if chk.testPulses && chk.readback then s
        else s.garGlobal (if Config.checkCauseOsc chk.testPulses chk.readback then 3 else 2)
      s.garShow)

/-- GARNET_SUPPLY_LOSS (R135): outputs go off; the lock-out state is kept. A configuration command in progress is dropped, and
BUSY falls with RESULT at 0 (DESIGN CHOICE, assumption 132). -/
def execGarnetSupplyLoss (dt : Nat) (s : State) : Host.Outcome State Fault Refusal :=
  let s := s.elapse dt
  .next (
    if !s.gar.powered then s
    else
      let acc := s.opTime
      let s := (s.garOff.endSession).modGar fun g => { g with powered := false, opAcc := acc, busy := none }
      let s := s.setB Fld.GAR_CFGRES_BUSY false
      (s.gused.filter fun j => !s.locked j).foldl (fun s j => s.setResult j false 1) s |>.garShow)

/-- GARNET_EVAL_CYCLE (R132). -/
def execGarnetEvalCycle (dt : Nat) (sense : GarnetSense) (s : State) : Host.Outcome State Fault Refusal :=
  .next ((s.elapse dt).garEval sense)

/-- SAFETY_INPUT_FILTER_EXPIRY (R138, R140): the filtered state of a channel changes; a discrepancy starts or ends. -/
def execSafetyInputFilterExpiry (dt : Nat) (input : Fin 8) (chanB level : Bool) (s : State) :
    Host.Outcome State Fault Refusal :=
  let s := s.elapse dt
  let k := input.val
  let n := 2 * k + b2n chanB
  .next (
    if !s.gar.powered then s
    else
      let si := s.getF Fld.GAR_INPUTS_SI
      let s := s.setF Fld.GAR_INPUTS_SI (if level then si ||| 2 ^ n else si &&& (65535 - 2 ^ n))
      s.discTrack k)

/-- DISCREPANCY_FAULT (R140): an input of the instance has been discrepant for longer than the discrepancy time. -/
def execDiscrepancyFault (dt : Nat) (inst : Fin 8) (s : State) : Host.Outcome State Fault Refusal :=
  let s := s.elapse dt
  let j := inst.val
  .next (
    if s.garRuns && s.gtype j != 0 && (instInputs s.gimg j).any fun k => s.discrepant k && (match tget s.gar.discSince k with
        | some t => decide (t + gins s.gimg j 6 2 * 1000000 < s.time.clock)
        | none => false) then (s.garFault j 0).garShow
    else s)

/-- The test pulses of a channel (R137): its periods run from pulse to pulse of its own source. -/
def tpStep (g : GarSt) (ch : Nat) (own bad : Bool) : GarSt :=
  let was := tget g.tpNow ch
  let g := if own && was == 1 then { g with tpBad := tset g.tpBad ch 0, tpGood := tmod g.tpGood ch fun n => min 2 (n + 1) } else g
  if bad ∧ (own ∨ was ≠ 2) then
    { g with tpNow := tset g.tpNow ch 2, tpBad := tmod g.tpBad ch fun n => min 2 (n + 1), tpGood := tset g.tpGood ch 0 }
  else if own then { g with tpNow := tset g.tpNow ch 1 }
  else g

/-- TEST_PULSE (R137): during a pulse of TP0 or TP1, `reads` are the terminals' levels. A second bad period in a row is a
fault of every instance that uses the channel; so at once is a source that did not drop as it should (`patternOk`). -/
def execTestPulse (dt : Nat) (tp : Fin 2) (patternOk : Bool) (reads : BitVec 16) (s : State) :
    Host.Outcome State Fault Refusal :=
  let s := s.elapse dt
  .next (
    if !s.garRuns then s
    else
      let s := (List.range 16).foldl (fun s ch =>
        let k := ch / 2
        let src := gin s.gimg k (1 + ch % 2) 1
        let high := reads.toNat.testBit ch
        let closed := (s.getF Fld.GAR_INPUTS_SI).testBit ch
        if src = 0 ∨ gin s.gimg k 0 1 = 0xFF then s
        else
          let own : Bool := src == tp.val + 1
          let s := s.modGar fun g => tpStep g ch own ((own && !patternOk) || (closed && (if own then high else !high)))
          if own && !patternOk then s.modGar fun g => { g with tpBad := tset g.tpBad ch 2 } else s) s
      let hit (j : Nat) : Bool := (instInputs s.gimg j).any fun k =>
        decide (2 ≤ tget s.gar.tpBad (2 * k) ∨ 2 ≤ tget s.gar.tpBad (2 * k + 1))
      ((s.gused.filter hit).foldl (fun s j => s.garFault j 1) s).garShow)

/-- GARNET_CONFIG_CHECK (R134): every 60 s. -/
def execGarnetConfigCheck (dt : Nat) (intact : Bool) (s : State) : Host.Outcome State Fault Refusal :=
  let s := s.elapse dt
  .next (if s.garRuns && s.gar.active.isSome && !intact then (s.garGlobal 0).garShow else s)

/-- A write of GAR_ACK (R143, R146): only instances whose channels are closed. -/
def State.ackWrite (s : State) (insts : Nat) : State :=
  if !s.garRuns then s
  else (bitsOf 8 insts).foldl (fun s j =>
    if (s.gtype j = 2 ∨ s.gtype j = 5) ∧ s.healthy1 j ∧ !s.locked j then s.modInst j fun i => { i with needAck := false } else s) s

/-- GAR_ACK_WRITE (R143, R146): only instances whose channels are closed. -/
def execGarAckWrite (dt : Nat) (req : Requester) (insts : BitVec 8) (s : State) : Host.Outcome State Fault Refusal :=
  let s := s.elapse dt
  .next (s.regCmd req Reg.GAR_ACK fun s => s.ackWrite insts.toNat)

/-- OFFPULSE_TEST (R149): the high side when the interval has elapsed, the low side 100 ms later; postponed in a brake test
and in a hold. -/
def execOffpulseTest (dt : Nat) (pair : Fin 4) (side : PairSide) (s : State) : Host.Outcome State Fault Refusal :=
  let s := s.elapse dt
  let x := pair.val
  let p := s.gpair x
  let opint := match s.pairInst x with
    | some j => gins s.gimg j 12 2 * 1000000000
    | none => 0
  let due : Bool := match side with
    | .hs => p.opLow.isNone && decide (p.opNext ≤ s.time.clock)
    | .ls => (match p.opLow with
      | some t => decide (t ≤ s.time.clock)
      | none => false)
  .next (
    if !s.garRuns ∨ !p.closed ∨ p.hold.isSome ∨ p.test.isSome ∨ p.pulse.isSome ∨ !due then s
    else
      let s := if side = .hs then s.inc64 Reg.GAR_OFFPULSES else s
      (s.modPair x fun p => { p with
        pulse := some (side == .hs, s.time.clock), opLow := if side = .hs then some (s.time.clock + 100000000) else none
        opNext := if side = .hs then s.time.clock + opint else p.opNext }).garShow)

/-- OFFPULSE_PULSE_END (R149): `fell` says whether the readback fell below 5 V. -/
def execOffpulsePulseEnd (dt : Nat) (pair : Fin 4) (fell : Bool) (s : State) : Host.Outcome State Fault Refusal :=
  let s := s.elapse dt
  let x := pair.val
  .next (match (s.gpair x).pulse, s.pairInst x with
    | some (_, at_), some j =>
      if s.time.clock < at_ + gins s.gimg j 14 2 * 1000 then s
      else
        let s := s.modPair x fun p => { p with pulse := none }
        (if fell then s else s.garFault j 3).garShow
    | _, _ => s)

/-- OUTPUT_OVERLOAD (R150): an overload of a closed pair, or a terminal of an open one driven from outside. -/
def execOutputOverload (dt : Nat) (pair : Fin 4) (kind : OutputFault) (s : State) : Host.Outcome State Fault Refusal :=
  let s := s.elapse dt
  let x := pair.val
  .next (match s.pairInst x with
    | some j => if s.garRuns && ((kind == .overload) == (s.gpair x).closed) then (s.garFault j 6).garShow else s
    | none => s)

/-- FEEDBACK_TIMEOUT (R151): in a brake test the test itself makes this check (R152), and after its abort it is made here. -/
def execFeedbackTimeout (dt : Nat) (pair : Fin 4) (s : State) : Host.Outcome State Fault Refusal :=
  let s := s.elapse dt
  let x := pair.val
  .next (match (s.gpair x).feedback, s.pairInst x with
    | some (want, at_), some j =>
      if !s.garRuns ∨ s.testRuns x ∨ s.time.clock < at_ + gins s.gimg j 8 2 * 1000000 then s
      else
        let s := s.modPair x fun p => { p with feedback := none }
        if (instInput s.gimg j 1).isNone ∨ (if want then s.fbApplied j else s.fbReleased j) then s else (s.garFault j 5).garShow
    | _, _ => s)

/-- A write of GAR_BRKTEST (R152). -/
def State.brkTestWrite (s : State) (key pair : Nat) : State :=
  if key = 0xB7 then s.modGar fun g => { g with brkReq := g.brkReq ++ [(pair, s.effectSeq)] } else s

/-- GAR_BRKTEST_WRITE (R152). -/
def execGarBrktestWrite (dt : Nat) (req : Requester) (key : Byte) (pair : Fin 4) (s : State) :
    Host.Outcome State Fault Refusal :=
  let s := s.elapse dt
  .next (s.regCmd req Reg.GAR_BRKTEST fun s => s.brkTestWrite key.toNat pair.val)

/-- BRAKE_TEST_FB_TIMEOUT (R152). -/
def execBrakeTestFbTimeout (dt : Nat) (pair : Fin 4) (s : State) : Host.Outcome State Fault Refusal :=
  let s := s.elapse dt
  let x := pair.val
  .next (match (s.gpair x).test, s.pairInst x with
    | some t, some j =>
      if t.aborted ∨ t.applied.isSome ∨ s.time.clock < t.start + gins s.gimg j 8 2 * 1000000 then s
      else (((s.modPair x fun p => { p with test := none, feedback := none }).endTest x 3).garFault j 4).garShow
    | _, _ => s)

/-- BRAKE_TEST_PASS (R152, R154): "applied" has held for BTHOLD. -/
def execBrakeTestPass (dt : Nat) (pair : Fin 4) (s : State) : Host.Outcome State Fault Refusal :=
  let s := s.elapse dt
  let x := pair.val
  .next (match (s.gpair x).test, s.pairInst x with
    | some t, some j => match t.applied with
      | some at_ =>
        if t.aborted ∨ !s.fbApplied j ∨ s.time.clock < at_ + gins s.gimg j 10 2 * 1000000 then s
        else
          let s := (s.modPair x fun p => { p with test := none, btBase := some s.opTime }).endTest x 2
          let s := s.setB (Fld.GAR_BRKRES_DUE x) false
          (if s.locked j then s else s.setF (Fld.GAR_INST_STATE j) 1).garShow
      | none => s
    | _, _ => s)

/-- BRAKE_TEST_ABORT_END (R153). -/
def execBrakeTestAbortEnd (dt : Nat) (pair : Fin 4) (s : State) : Host.Outcome State Fault Refusal :=
  let s := s.elapse dt
  let x := pair.val
  .next (match (s.gpair x).test, s.pairInst x with
    | some t, some j =>
      if t.aborted ∧ t.start + gins s.gimg j 8 2 * 1000000 ≤ s.time.clock then
        let s := s.modPair x fun p => { p with test := none }
        if s.locked j then s else s.setF (Fld.GAR_INST_STATE j) 1
      else s
    | _, _ => s)

/-- BRAKE_TEST_DUE (R154). -/
def execBrakeTestDue (dt : Nat) (pair : Fin 4) (s : State) : Host.Outcome State Fault Refusal :=
  let s := s.elapse dt
  let x := pair.val
  .next (match s.pairInst x, (s.gpair x).btBase with
    | some j, some base =>
      let due := gins s.gimg j 16 4
      if due ≠ 0 ∧ base + due * 1000000000 < s.opTime then s.setB (Fld.GAR_BRKRES_DUE x) true else s
    | _, _ => s)

/-- A write of GAR_PERMIT (R155): accepted for its target edge, or refused and counted. -/
def State.permitWrite (s : State) (seq rel : Nat) : State :=
  let s := s.inc64 Reg.GAR_PERMWR
  let t := s.effectSeq
  let n := s.time.edgeAt / 250000 + (t - (s.time.beatSeq + 1))
  if seq = n % 256 then
    ((s.inc64 Reg.GAR_PERMACC).modGar fun g => { g with staged := (g.staged.filter fun x => x.1 != t) ++ [(t, rel)] }).showStaged
  else s.inc64 Reg.GAR_PERMREFUSED

/-- GAR_PERMIT_WRITE (R155): accepted for its target edge, or refused and counted. -/
def execGarPermitWrite (dt : Nat) (req : Requester) (seq : Byte) (rel : BitVec 4) (s : State) :
    Host.Outcome State Fault Refusal :=
  let s := s.elapse dt
  .next (s.regCmd req Reg.GAR_PERMIT fun s => s.permitWrite seq.toNat rel.toNat)

/-- A write of GAR_WITHDRAW (R157): at once, with every release bit that waits. -/
def State.withdrawWrite (s : State) (pairs : Nat) : State :=
  let s := s.modGar fun g => { g with staged := g.staged.map fun x => (x.1, x.2 &&& (15 - pairs)) }
  ((bitsOf 4 pairs).foldl (fun s x => (s.reqFall x).endHold x 4) s).showStaged.garShow

/-- GAR_WITHDRAW_WRITE (R157): at once, with every release bit that waits. -/
def execGarWithdrawWrite (dt : Nat) (req : Requester) (pairs : BitVec 4) (s : State) : Host.Outcome State Fault Refusal :=
  let s := s.elapse dt
  .next (s.regCmd req Reg.GAR_WITHDRAW fun s => s.withdrawWrite pairs.toNat)

/-- PERMIT_LOST (R158, R159): no permit edge within 300 µs; in Garnet's start-up check too. -/
def execPermitLost (dt : Nat) (pair : Fin 4) (s : State) : Host.Outcome State Fault Refusal :=
  let s := s.elapse dt
  let x := pair.val
  .next (match (s.gpair x).lastEdge with
    | some t => if s.gar.powered && decide (t + 300000 < s.time.clock) && (s.permit x == 1 || s.permit x == 2) then
        (s.permitLost x).garShow else s
    | none => s)

/-- PERMIT_MIDPOINT_TOGGLE (R160): in a stretched beat longer than 300 µs, once, at its midpoint on monotonic time. -/
def execPermitMidpointToggle (dt : Nat) (s : State) : Host.Outcome State Fault Refusal :=
  let s := s.elapse dt
  let gone := s.time.mono - s.time.edgeStart
  let len := gone + (s.time.edgeAt - s.time.mt)
  .next (
    if s.bit Fld.TIM_STATUS_STRETCH && decide (300000 < len) && !s.gar.midDone && decide (len / 2 ≤ gone) then
      (bitsOf 4 s.gar.toggled).foldl (fun s x => s.permitEdge x) (s.modGar fun g => { g with midDone := true })
    else s)

/-- GRST_RELEASE (R164, R166): a pulse from 0.1 s to 3 s is a reset, before the evaluation of the same cycle. -/
def execGrstRelease (dt width : Nat) (sense : GarnetSense) (s : State) : Host.Outcome State Fault Refusal :=
  let s := s.elapse dt
  .next (
    if !s.garRuns then s
    else if width < 100000000 ∨ 3000000000 < width then (s.inc64 Reg.GAR_RSTREJ).setB Fld.GAR_STATUS_GRST false
    else (s.garReset sense).garEval { sense with grst := false })

/-- CUSTODY_ENABLE_FALL (R148, R167). -/
def execCustodyEnableFall (dt : Nat) (s : State) : Host.Outcome State Fault Refusal :=
  let s := s.elapse dt
  .next (if s.gar.powered && !s.custodyOn && s.bit Fld.GAR_STATUS_CUST_EN then s.custFall.garShow else s)

/-- HOLD_TIMEOUT (R167): 5 ms after the enable fell. -/
def execHoldTimeout (dt : Nat) (pair : Fin 4) (s : State) : Host.Outcome State Fault Refusal :=
  let s := s.elapse dt
  let x := pair.val
  .next (match (s.gpair x).hold with
    | some t => if t + 5000000 ≤ s.time.clock then (s.endHold x 1).garShow else s
    | none => s)

end Sys2Proof.Machine
end

