-- ==== Sys2Proof/Machine/GarnetCfg.lean ====
section
/-! DEFINITION. Garnet's configuration (R169 to R176): the image checks, sessions, and the configuration commands. -/

namespace Sys2Proof.Machine

/-- Whether an input record keeps R138, R139 and R169. The other fields of an unused record are not checked (DESIGN CHOICE,
assumption 132). -/
def ginOk (img : List Byte) (k : Nat) : Bool :=
  let m := gin img k 0 1
  let f := gin img k 4 2
  m == 0xFF || (decide (m ≤ 2 ∧ gin img k 1 1 ≤ 2 ∧ gin img k 2 1 ≤ 2 ∧ 500 ≤ f ∧ f ≤ 2000) && gin img k 3 1 == 0
    && gin img k 6 2 == 0 && (m != 2 || (gin img k 1 1 == 0 && gin img k 2 1 == 0 && decide (1200 ≤ f))))

/-- How many inputs a type needs: at least and at most (R141). -/
def typeInputs (t : Nat) : Nat × Nat :=
  match t with
  | 1 => (0, 1)
  | 2 | 5 => (1, 1)
  | _ => (2, 2)

/-- Whether an instance record keeps R140, R141, R149, R151, R152, R154, R170 and R171. The other fields of an unused record, and
the fields of brake control of another type, are not checked (DESIGN CHOICE, assumption 132). -/
def ginsOk (img : List Byte) (j : Nat) : Bool :=
  let t := gins img j 0 1
  let ins := instInputs img j
  let mode (k : Nat) : Nat := gin img k 0 1
  let flags := gins img j 5 1
  let link := gins img j 4 1
  t == 0 || (decide (t ≤ 6) &&
    decide ((typeInputs t).1 ≤ ins.length ∧ ins.length ≤ (typeInputs t).2) &&
    (ins.isEmpty || (gins img j 1 1).testBit 7) &&
    ins.all (fun k => mode k != 0xFF) &&
    ((t == 1) == (gins img j 3 1).testBit 7) &&
    decide (flags < 4 ∧ 10 ≤ gins img j 6 2 ∧ gins img j 6 2 ≤ 3000) && gins img j 20 12 == 0 &&
    (t == 1 || link == 0) && (bitsOf 8 link).all (fun i => i != j && gins img i 0 1 != 0 && gins img i 0 1 != 1) &&
    (t != 1 || decide (50 ≤ gins img j 8 2 ∧ gins img j 8 2 ≤ 1000 ∧ gins img j 10 2 ≤ 1000 ∧ 4 ≤ gins img j 12 2 ∧
      gins img j 12 2 ≤ 64 ∧ 100 ≤ gins img j 14 2 ∧ gins img j 14 2 ≤ 300 ∧
      (gins img j 16 4 = 0 ∨ (3600 ≤ gins img j 16 4 ∧ gins img j 16 4 ≤ 604800)))) &&
    (t != 4 || ins.all fun k => mode k == 1) && (t != 5 || ins.all fun k => mode k == 2))

/-- The image length of the header, and the check value over all but its field (R134, R169). -/
def imgLen (img : List Byte) : Nat := leNat ((img.drop 2).take 2)
def imgChk (img : List Byte) : Nat := leNat ((img.drop 8).take 4)
def imgCrc (img : List Byte) : Nat := crc32c ((img.take (imgLen img)).take 8 ++ (img.take (imgLen img)).drop 12)

/-- Whether Garnet takes an image (R171). -/
def garImageOk (img : List Byte) : Bool :=
  let js := List.range 8
  let ty (j : Nat) : Nat := gins img j 0 1
  let ins := js.flatMap fun j => if ty j = 0 then [] else instInputs img j
  let outs := js.filterMap fun j => instPair img j
  decide (384 ≤ imgLen img ∧ imgLen img ≤ 49152 ∧ imgLen img ≤ img.length) && imgCrc img == imgChk img &&
  js.all (ginOk img) && js.all (ginsOk img) && (js.filter fun j => ty j == 6).length == 1 &&
  decide ((js.filter fun j => ty j == 1).length ≤ 4) && decide ins.Nodup && decide outs.Nodup

namespace State

/-- Bytes of the command window (R172). -/
def cfgWin (s : State) (ofs n : Nat) : List Byte :=
  (List.range n).map fun i => BitVec.ofNat 8 (s.rd (Reg.GAR_CFGWIN + (ofs + i) / 4 * 4) / 256 ^ ((ofs + i) % 4))

/-- Write bytes into the command window. -/
def putCfgWin (s : State) (bs : List Byte) : State :=
  (List.range 1024).foldl (fun s i => s.wr (Reg.GAR_CFGWIN + 4 * i) (leNat ((bs.drop (4 * i)).take 4))) s

/-- The check value of the active image, 0 where there is none. -/
def activeChk (s : State) : Nat := if s.gar.active.isSome then imgChk s.gimg else 0

/-- One change-log entry, with its event (R176, R177). -/
def garLog (s : State) (kind result user before after : Nat) (img : Option (List Byte)) : State :=
  let n := s.gar.logSeq + 1
  let hash : List Byte := match img with
    | some l => sha256Bytes (l.take (imgLen l))
    | none => List.replicate 32 0
  let e := leBytes 4 n ++ leBytes 1 kind ++ leBytes 1 result ++ leBytes 2 0 ++ leBytes 8 s.time.mt
    ++ leBytes 4 (s.opTime / 1000000000) ++ leBytes 4 user ++ leBytes 4 before ++ leBytes 4 after ++ hash
  let a := Reg.GAR_LOG ((n - 1) % 256)
  let s := (List.range 16).foldl (fun s i => s.wr (a + 4 * i) (leNat ((e.drop (4 * i)).take 4))) s
  (s.modGar fun g => { g with logSeq := n }).emit 0x05 0x0309 2 57 e

/-- The user of the open session, 0 without one. -/
def cfgUser (s : State) : Nat := match s.gar.session with
  | some (u, _) => u
  | none => 0

/-- Whether the maintenance lock-out holds (R174). -/
def maintenance (s : State) : Bool := (s.getF Fld.GAR_GCAUSE_CAUSE).testBit 4 && !s.gar.clearable.testBit 4

/-- The standstill condition of a configuration command (R172): the standstill input of STP shows its healthy reading and no
fault has put STP in lock-out. The maintenance lock-out does not hide it, or no LOAD could follow ENTER_LOCKOUT; and as
delivered, before the first ACCEPT, there is no STP to ask (DEDUCED, assumption 104). -/
def cfgStill (s : State) : Bool :=
  match s.gused.find? fun j => s.gtype j == 6 with
  | some j => s.healthy1 j && s.getF (Fld.GAR_INST_CAUSE j) == 0
  | none => s.gar.active.isNone

/-- A configuration command: busy until it completes, with its result (R172); refused with result 9 while one runs. A
command keeps the session open. One refused as busy shows its CMD and RESULT 9 at once while BUSY stays 1, and the end of the
running one overwrites both; a CMD outside 1 to 8 does nothing (DESIGN CHOICE, assumption 132). -/
def cfgRun (s : State) (cmd : Nat) (f : State → State × Nat) : State :=
  if !s.gar.powered then s
  else if s.gar.busy.isSome then (s.setF Fld.GAR_CFGRES_CMD cmd).setF Fld.GAR_CFGRES_RESULT 9
  else
    let s := s.modGar fun g => { g with session := g.session.map fun x => (x.1, s.time.clock) }
    let (s, r) := f s
    let s := ((s.setB Fld.GAR_CFGRES_BUSY true).setF Fld.GAR_CFGRES_CMD cmd).setF Fld.GAR_CFGRES_RESULT 0
    (s.modGar fun g => { g with busy := some (cmd, r) }).garShow

/-- A configuration command as a write of GAR_CFGCMD. -/
def cfgCommand (s : State) (req : Requester) (cmd : Nat) (f : State → State × Nat) : State :=
  s.regCmd req Reg.GAR_CFGCMD fun s => s.cfgRun cmd f

/-- The password in the window: the characters up to the first zero (DEDUCED, assumption 19). -/
def cfgPassword (s : State) (ofs : Nat) : List Byte := (s.cfgWin ofs (4096 - ofs)).takeWhile (· != 0)

/-- Whether a password is the stored one (R173). -/
def passwordOk (s : State) (p : List Byte) : Bool :=
  match s.gar.password with
  | some (salt, h) => pbkdf2 salt p == h
  | none => Config.deliveredPassword p

/-- The pending image is dropped. -/
def dropPending (s : State) : State :=
  (s.modGar fun g => { g with pending := none, chunks := [] }).wr Reg.GAR_PENDCHK 0

/-- Whether every chunk of the pending image has been loaded. -/
def pendingWhole (s : State) : Bool :=
  let img := s.gar.pending.getD []
  s.gar.chunks.contains 0 && (List.range ((imgLen img + 4095) / 4096)).all s.gar.chunks.contains

/-- ACCEPT makes the pending image active (R154, R175). It ends no lock-out: an instance that the new image leaves unused stays
in the one it is in, with its causes, until a reset at GRST (R165). One that it newly uses enters lock-out here, counted in
GAR_LOCKOUTS (DESIGN CHOICE, assumption 132). -/
def acceptImage (s : State) (img : List Byte) : State :=
  let old := s.gimg
  let chk := s.activeChk
  let s := s.modGar fun g => { g with active := some img, clearable := g.clearable ||| 19, insts := [], tpBad := [], tpGood := []
                                      tpNow := [] }
  let s := s.dropPending.wr Reg.GAR_CFGCHK (imgChk img)
  let s := (List.range 8).foldl (fun s j =>
    let t := gins img j 0 1
    let s := (s.setF (Fld.GAR_INST_TYPE j) t).setB (Fld.GAR_INST_RESULT j) false
    (if t = 0 then s else s.lockInst j).setF (Fld.GAR_INST_STATE j) (if t = 0 ∧ !s.locked j then 0 else 5)) s
  let s := (List.range 4).foldl (fun s x =>
    let due (img : List Byte) : Bool := (List.range 8).any fun j => instPair img j == some x && gins img j 16 4 != 0
    if due img && !due old && (s.gpair x).btBase.isNone then s.modPair x fun p => { p with btBase := some s.opTime } else s) s
  s.garLog 2 0 s.cfgUser chk (imgChk img) (some img)

end State

/-! ### The commands -/

/-- OPEN (R172, R173): five failures in a row block it for 300 s. A refused one while it is blocked, like any other refused
command but a failed OPEN, writes no change-log entry, and is no failure (DESIGN CHOICE, assumption 132). -/
def State.cfgOpen (s : State) : State × Nat :=
  let user := leNat (s.cfgWin 0 4)
  let blocked : Bool := match s.gar.blockUntil with
    | some t => decide (s.time.clock < t)
    | none => false
  if blocked then (s, 3)
  else if s.passwordOk (s.cfgPassword 4) then
    (s.modGar fun g => { g with session := some (user, s.time.clock), fails := 0, blockUntil := none }, 0)
  else
    let n := if s.gar.blockUntil.isSome then 1 else s.gar.fails + 1
    let s := s.modGar fun g => { g with fails := n, blockUntil := if 5 ≤ n then some (s.time.clock + 300000000000) else none }
    let s := (s.inc64 Reg.GAR_AUTHFAIL).emit 0x05 0x030A 3 57 (p4 [user])
    (s.garLog 6 2 user s.activeChk s.activeChk none, 2)

/-- CFG_OPEN (R172, R173): five failures in a row block OPEN for 300 s. -/
def execCfgOpen (dt : Nat) (req : Requester) (s : State) : Host.Outcome State Fault Refusal :=
  let s := s.elapse dt
  .next (s.cfgCommand req 1 fun s => s.cfgOpen)

/-- ENTER_LOCKOUT (R174). -/
def State.cfgEnterLockout (s : State) : State × Nat :=
  if s.gar.session.isNone then (s, 1)
  else if !s.cfgStill then (s, 4)
  else ((s.garGlobal 4).garLog 5 0 s.cfgUser s.activeChk s.activeChk none, 0)

/-- CFG_ENTER_LOCKOUT (R174). -/
def execCfgEnterLockout (dt : Nat) (req : Requester) (s : State) : Host.Outcome State Fault Refusal :=
  let s := s.elapse dt
  .next (s.cfgCommand req 2 fun s => s.cfgEnterLockout)

/-- LOAD (R171, R172, R175): chunk 0 replaces any earlier pending image; the last chunk completes the sequence, and an image
that breaks R171 is answered with result 7. So is a chunk index of 12 or more, and a later chunk without a pending image is
answered with 8 (DESIGN CHOICE, assumption 132). -/
def State.cfgLoad (s : State) (chunk : Nat) : State × Nat :=
  if s.gar.session.isNone then (s, 1)
  else if !s.maintenance then (s, 5)
  else if chunk = 0 ∧ !s.cfgStill then (s, 4)
  else if 12 ≤ chunk then (s, 7)
  else if chunk ≠ 0 ∧ s.gar.pending.isNone then (s, 8)
  else
    let base := if chunk = 0 then [] else s.gar.pending.getD []
    let w := s.cfgWin 0 4096
    let img := base.take (4096 * chunk) ++ List.replicate (4096 * chunk - base.length) 0 ++ w ++ base.drop (4096 * (chunk + 1))
    let s := s.modGar fun g => { g with
      pending := some img, pendAt := s.time.clock, chunks := if chunk = 0 then [0] else chunk :: g.chunks.filter (· != chunk) }
    let s := s.wr Reg.GAR_PENDCHK (imgChk img)
    if s.pendingWhole then
      let s := s.garLog 1 (if garImageOk img then 0 else 7) s.cfgUser s.activeChk (imgChk img) (some img)
      (s, if garImageOk img then 0 else 7)
    else (s, 0)

/-- CFG_LOAD (R171, R172, R175): chunk 0 replaces any earlier pending image; the last chunk completes the sequence, and an
image that breaks R171 is answered with result 7. -/
def execCfgLoad (dt : Nat) (req : Requester) (chunk : Nat) (s : State) : Host.Outcome State Fault Refusal :=
  let s := s.elapse dt
  .next (s.cfgCommand req 3 fun s => s.cfgLoad chunk)

/-- READBACK (R172). Beyond the image it fills the window with zeros and answers 0 (DESIGN CHOICE, assumption 132). -/
def State.cfgReadback (s : State) (chunk : Nat) : State × Nat :=
  if s.gar.session.isNone then (s, 1)
  else match s.gar.pending with
    | none => (s, 8)
    | some img =>
      let part := (img.drop (4096 * chunk)).take 4096
      (s.putCfgWin part, 0)

/-- CFG_READBACK (R172). -/
def execCfgReadback (dt : Nat) (req : Requester) (chunk : Nat) (s : State) : Host.Outcome State Fault Refusal :=
  let s := s.elapse dt
  .next (s.cfgCommand req 4 fun s => s.cfgReadback chunk)

/-- ACCEPT (R175). -/
def State.cfgAccept (s : State) : State × Nat :=
  if s.gar.session.isNone then (s, 1)
  else if !s.maintenance then (s, 5)
  else if !s.cfgStill then (s, 4)
  else match s.gar.pending with
    | none => (s, 8)
    | some img =>
      if !s.pendingWhole ∨ !garImageOk img then (s, 7)
      else if leNat (s.cfgWin 0 4) ≠ imgChk img then (s, 6)
      else (s.acceptImage img, 0)

/-- CFG_ACCEPT (R175). -/
def execCfgAccept (dt : Nat) (req : Requester) (s : State) : Host.Outcome State Fault Refusal :=
  let s := s.elapse dt
  .next (s.cfgCommand req 5 fun s => s.cfgAccept)

/-- DISCARD (R172, R174). -/
def State.cfgDiscard (s : State) : State × Nat :=
  if s.gar.session.isNone then (s, 1)
  else
    let img := s.gar.pending
    let s := s.dropPending.modGar fun g => { g with clearable := g.clearable ||| 16 }
    (s.garLog 3 0 s.cfgUser s.activeChk s.activeChk img, 0)

/-- CFG_DISCARD (R172, R174). -/
def execCfgDiscard (dt : Nat) (req : Requester) (s : State) : Host.Outcome State Fault Refusal :=
  let s := s.elapse dt
  .next (s.cfgCommand req 6 fun s => s.cfgDiscard)

/-- CLOSE (R173, R174). -/
def State.cfgClose (s : State) : State × Nat :=
  (s.endSession, 0)

/-- CFG_CLOSE (R173, R174). -/
def execCfgClose (dt : Nat) (req : Requester) (s : State) : Host.Outcome State Fault Refusal :=
  let s := s.elapse dt
  .next (s.cfgCommand req 7 fun s => s.cfgClose)

/-- SETPW (R173): at least 12 characters. -/
def State.cfgSetpw (s : State) : State × Nat :=
  if s.gar.session.isNone then (s, 1)
  else if !s.maintenance then (s, 5)
  else
    let p := s.cfgPassword 0
    if p.length < 12 then (s, 10)
    else
      let salt := (Config.salt s.freeCtr).toNat
      let s := s.freshCtr.modGar fun g => { g with password := some (salt, pbkdf2 salt p) }
      (s.garLog 4 0 s.cfgUser s.activeChk s.activeChk none, 0)

/-- CFG_SETPW (R173): at least 12 characters. -/
def execCfgSetpw (dt : Nat) (req : Requester) (s : State) : Host.Outcome State Fault Refusal :=
  let s := s.elapse dt
  .next (s.cfgCommand req 8 fun s => s.cfgSetpw)

/-- GAR_CFGCMD_COMPLETE (R172). -/
def execGarCfgcmdComplete (dt : Nat) (s : State) : Host.Outcome State Fault Refusal :=
  let s := s.elapse dt
  .next (match s.gar.busy with
    | some (cmd, r) =>
      let s := ((s.setB Fld.GAR_CFGRES_BUSY false).setF Fld.GAR_CFGRES_CMD cmd).setF Fld.GAR_CFGRES_RESULT r
      s.modGar fun g => { g with busy := none }
    | none => s)

/-- GAR_SESSION_TIMEOUT (R173): 600 s without a command. -/
def execGarSessionTimeout (dt : Nat) (s : State) : Host.Outcome State Fault Refusal :=
  let s := s.elapse dt
  .next (match s.gar.session with
    | some (_, at_) => if at_ + 600000000000 ≤ s.time.clock then s.endSession.garShow else s
    | none => s)

/-- GAR_AUTH_BLOCK_EXPIRY (R173). -/
def execGarAuthBlockExpiry (dt : Nat) (s : State) : Host.Outcome State Fault Refusal :=
  let s := s.elapse dt
  .next (match s.gar.blockUntil with
    | some t => if t ≤ s.time.clock then s.modGar fun g => { g with blockUntil := none, fails := 0 } else s
    | none => s)

/-- PENDING_IMAGE_EXPIRY (R175): 3,600 s after the last LOAD. -/
def execPendingImageExpiry (dt : Nat) (s : State) : Host.Outcome State Fault Refusal :=
  let s := s.elapse dt
  .next (if s.gar.pending.isSome && decide (s.gar.pendAt + 3600000000000 ≤ s.time.clock) then s.dropPending.garShow else s)

/-- A word written to GAR_CFGCMD: command in bits 31 to 24, argument below (R172, R179). -/
def State.cfgWord (s : State) (v : Nat) : State :=
  let arg := v % 16777216
  match v / 16777216 with
  | 1 => s.cfgRun 1 State.cfgOpen
  | 2 => s.cfgRun 2 State.cfgEnterLockout
  | 3 => s.cfgRun 3 fun s => s.cfgLoad arg
  | 4 => s.cfgRun 4 fun s => s.cfgReadback arg
  | 5 => s.cfgRun 5 State.cfgAccept
  | 6 => s.cfgRun 6 State.cfgDiscard
  | 7 => s.cfgRun 7 State.cfgClose
  | 8 => s.cfgRun 8 State.cfgSetpw
  | _ => s

end Sys2Proof.Machine
end

