-- ==== Sys2Proof/Machine/Time.lean ====
section
/-! DEFINITION. Module time and Inventory: the servo, first lock, refusals and steps (R50 to R72), transmit timestamps
(R73 to R76), and Inventory snapshots (R80 to R86). -/

namespace Sys2Proof.Machine

/-- 100 ppm in units of 1/65,536 ppm (R63, R69). -/
def ppm100 : Int := 6553600

/-- A number held within ± a limit. -/
def clampI (lim x : Int) : Int := max (-lim) (min lim x)

/-- A number held within two limits. -/
def clampN (lo hi x : Nat) : Nat := max lo (min hi x)

/-- The number that stands for the PPS input as a reference: no grandmaster has it. -/
def ppsSource : Nat := 18446744073709551616

namespace State

/-- Change the time state. -/
def modTime (s : State) (f : TimeSt → TimeSt) : State := { s with time := f s.time }

/-- TIME_JUMP_LIMIT in ns (R67). -/
def jumpLimit (s : State) : Nat := clampN 1000 1000000000 (s.getF Fld.TIM_JUMPLIMIT_LIMIT)

/-- The time state code (R54). -/
def timeState (s : State) : Nat := s.getF Fld.TIM_STATUS_STATE

/-- The servo takes a measurement within TIME_JUMP_LIMIT: new frequency and phase parts, free within ±100 ppm together,
for the next edge (R63). -/
def servo (s : State) : State :=
  let f := clampI ppm100 (Config.servoFreq s.freeCtr)
  let p := clampI ppm100 (f + Config.servoPhase s.freeCtr) - f
  (s.modTime fun t => { t with freqNext := f, phaseNext := p }).freshCtr

/-- The phase part while SLEWING: 100 ppm in the direction that reduces the offset (R69). -/
def slewPhase (ofs : Int) : Int := if 0 ≤ ofs then ppm100 else -ppm100

/-- Record a measured offset in TIM_REFOFS (R68). -/
def setRefOfs (s : State) (ofs : Int) : State :=
  (s.wrI64 Reg.TIM_REFOFS ofs).modTime fun t => { t with gained := 0 }

/-- Enter a time state; SRC names a reference only while MT follows one, in LOCKED and SLEWING (R54, R87; DEDUCED,
assumption 10). A lock is remembered as one to PPS or to a grandmaster (R58). -/
def setTimeState (s : State) (st : Nat) : State :=
  let s := if st = 2 then s.modTime fun t => { t with ppsLock := t.grandmaster == ppsSource } else s
  let src := if st = 2 ∨ st = 4 then (if s.time.grandmaster = ppsSource then 2 else 1) else 0
  (s.setF Fld.TIM_STATUS_STATE st).setF Fld.TIM_STATUS_SRC src

/-- A correction is refused: flag, count, offset held, SLEWING or HOLDOVER (R68). -/
def refuseJump (s : State) (ofs : Int) : State :=
  let slew := s.bit Fld.TIM_CTL_SLEW
  let s := ((s.setB Fld.TIM_FLAGS_TIME_JUMP_REFUSED true).inc64 Reg.TIM_JUMPREFUSED).setRefOfs ofs
  let s := s.modTime fun t =>
    { t with refusedFor := some t.grandmaster, phaseNext := if slew then slewPhase ofs else 0 }
  s.setTimeState (if slew then 4 else 3)

/-- The offset expected from the last value of TIM_REFOFS and the rate applied since (R68), in ns. -/
def expectedOfs (s : State) : Int := s.rdI64 Reg.TIM_REFOFS - s.time.gained / 65536000000

/-- A measurement of the selected reference after first lock (R67 to R69). TIM_REFOFS follows each measurement, those within
the limit while LOCKED too, for which R68 states nothing (DESIGN CHOICE, assumption 120). -/
def follow (s : State) (ofs : Int) : State :=
  if ofs.natAbs ≤ s.jumpLimit then
    let s := ((s.setRefOfs ofs).modTime fun t => { t with refusedFor := none }).servo
    s.setTimeState 2
  else if s.timeState = 2 ∨ s.time.refusedFor ≠ some s.time.grandmaster ∨ s.jumpLimit < (ofs - s.expectedOfs).natAbs then
    s.refuseJump ofs
  else
    let p := if s.timeState = 4 then slewPhase ofs else 0
    (s.setRefOfs ofs).modTime fun t => { t with phaseNext := p }

/-- A measurement of the selected reference: before first lock it is accepted whatever its size (R64), from the start of the
lock attempt on (R65). -/
def measure (s : State) (ofs : Int) (src : Nat) : State :=
  let s := s.modTime fun t => { t with refPresent := true, grandmaster := src }
  if s.time.firstLockDone then s.follow ofs
  else if s.time.lockStart.isSome || s.time.lockOver then s.setB Fld.TIM_STATUS_STEP_PENDING true
  else s

/-- Whether the module offers itself as grandmaster: LOCKED to PPS, or in HOLDOVER after such a lock (R58). -/
def offersGm (s : State) : Bool :=
  s.bit Fld.TIM_GPTPCFG_GMCAP && s.time.ppsLock && (s.timeState == 2 || s.timeState == 3)

/-- Whether the port at which a Sync arrives is the slave port (R58): the Sync is of the domain, and by the best master clock
algorithm its grandmaster is not behind this module where this module offers itself (assumption 120). -/
def follows (s : State) (y : GptpSync) : Bool :=
  decide (y.domain.val = s.getF Fld.TIM_GPTPCFG_DOMAIN) &&
    (!s.offersGm || decide (y.prio1.toNat < s.getF Fld.TIM_GPTPCFG_PRIO1) ||
      (decide (y.prio1.toNat = s.getF Fld.TIM_GPTPCFG_PRIO1) && y.ahead))

/-- The reference is lost: flag, count, HOLDOVER, and a waiting step lapses (R59, R61, R71). A refusal ends with the reference,
so that the same one that returns with a large offset is refused anew (DESIGN CHOICE, assumption 120). -/
def loseRef (s : State) : State :=
  let s := ((s.setB Fld.TIM_FLAGS_REF_LOST true).inc64 Reg.TIM_REFLOSS).setTimeState 3
  (s.setB Fld.TIM_STATUS_STEP_PENDING false).modTime
    fun t => { t with refPresent := false, phaseNext := 0, ppsLast := none, refusedFor := none }

/-! ### Transmit timestamps -/

/-- A frame that asked for a timestamp passes the reference plane (R73, R74): the entry is queued, or counted as lost. -/
def tsRequest (s : State) (q tag ts : Nat) : State :=
  let tq := tget s.tsq q
  let s := s.inc64 (Reg.TIM_TSQREQ q)
  let next := (tq.nextSeq + 1) % 4294967296
  if tq.entries.length < 16 then
    let e : TsEntry := { tag := tag % 65536, seq := tq.nextSeq, ts := ts / 8 * 8 }
    let s : State := { s with tsq := tset s.tsq q { entries := tq.entries ++ [e], nextSeq := next } }
    s.setF (Fld.TIM_TSQDEPTH_DEPTH q) (tq.entries.length + 1)
  else
    let s : State := { s with tsq := tset s.tsq q { tq with nextSeq := next } }
    s.inc64 (Reg.TIM_TSQOVF q)

/-- What POP_TSQ_META_q returns: VALID, SEQ and TAG of the oldest entry (R88). -/
def tsMeta (s : State) (q : Nat) : Nat :=
  match (tget s.tsq q).entries with
  | [] => 0
  | e :: _ => 9223372036854775808 + e.seq * 65536 + e.tag

/-- The head entry of a timestamp queue is removed (R75). -/
def tsPop (s : State) (q : Nat) : State :=
  match (tget s.tsq q).entries with
  | [] => s
  | e :: rest =>
    let s : State := { s with tsq := tset s.tsq q { (tget s.tsq q) with entries := rest } }
    ((s.wr64 (Reg.POP_TSQ_TS q) e.ts).inc64 (Reg.TIM_TSQPOP q)).setF (Fld.TIM_TSQDEPTH_DEPTH q) rest.length

/-! ### Inventory -/

/-- What becomes of an announcement (R82). -/
inductive AnnOutcome where
  | accept
  | duplicate
  | refuse (reason : Nat)
  deriving DecidableEq, Repr

/-- The checks of an announcement in the table's order (R82). -/
def annCheck (s : State) (a : Announce) : AnnOutcome :=
  if a.version ≠ 1 ∨ a.snapId = 0 ∨ a.instant % 250000 ≠ 0 then .refuse 1
  else if s.inv.pending.contains (a.snapId, a.instant) then .duplicate
  else if a.instant < s.time.mt + 500000 then .refuse 2
  else if s.time.mt + 60000000000 < a.instant then .refuse 3
  else if s.inv.pending.any (fun p => p.1 == a.snapId) then .refuse 4
  else if s.inv.pending.any (fun p => p.2 == a.instant) then .refuse 5
  else if 4 ≤ s.inv.pending.length then .refuse 6
  else .accept

/-- Set the pending table and its count. -/
def setPending (s : State) (l : List (Nat × Nat)) : State :=
  ({ s with inv := { s.inv with pending := l } } : State).setF Fld.INV_STATUS_PENDING l.length

/-- The master forwards an accepted announcement to every member (R439, R441). -/
def forwardAnnounce (s : State) : State :=
  if s.bit Fld.CSC_STATUS_MASTER then
    s.postedOut 1 ((bitsOf 8 (s.getF Fld.CSC_MEMBERS_VEC)).filter (· != s.stackPos)).length
  else s

/-- A received or local announcement is counted and has its outcome (R82); INV out of action takes none (R517). -/
def announce (s : State) (a : Announce) : State :=
  if s.unitOff 0x18 0 then s
  else
  let r := s.annCheck a
  let s := s.inc64 Reg.INV_ANNRX
  match r with
  | .accept => ((s.setPending (s.inv.pending ++ [(a.snapId, a.instant)])).inc64 Reg.INV_ANNACCEPT).forwardAnnounce
  | .duplicate => s.inc64 Reg.INV_ANNDUP
  | .refuse n => (s.setF Fld.INV_STATUS_LAST_REFUSE n).inc64 Reg.INV_ANNREFUSED

/-- The announcement that INV_ANN_ID and INV_ANN_MT state (R80, R81). -/
def localAnnounce (s : State) : Announce :=
  { version := 1, snapId := s.rd Reg.INV_ANN_ID, instant := s.rd64 Reg.INV_ANN_MT, origin := s.rd Reg.SYS_NODE }

end State

/-- A counter window (R584): first register word, number of places, first index. -/
structure Window where
  addr : Nat
  count : Nat
  first : Nat
  deriving DecidableEq, Repr

/-- The counter windows (R584). -/
def windows : List Window := [
  ⟨0x400, 27, 0⟩,   -- SYS
  ⟨0x10050, 3, 27⟩,   -- TIM
  ⟨0x10400, 36, 30⟩,   -- TIM
  ⟨0x20100, 12, 66⟩,   -- TRIAD
  ⟨0x30100, 27, 78⟩,   -- APC
  ⟨0x40020, 8, 105⟩,   -- FAB
  ⟨0x50100, 12, 113⟩,   -- GAR
  ⟨0x60048, 5, 125⟩,   -- RTS
  ⟨0x60100, 128, 130⟩,   -- RTS
  ⟨0x70038, 4, 258⟩,   -- FIO
  ⟨0x70200, 128, 262⟩,   -- FIO
  ⟨0x70800, 16, 390⟩,   -- FIO
  ⟨0x80038, 9, 406⟩,   -- MEAS
  ⟨0x80400, 128, 415⟩,   -- MEAS
  ⟨0x90038, 2, 543⟩,   -- WAL
  ⟨0x90100, 51, 545⟩,   -- WAL
  ⟨0xA0060, 1, 596⟩,   -- ETH
  ⟨0xA0200, 108, 597⟩,   -- ETH
  ⟨0xA1000, 352, 705⟩,   -- ETH
  ⟨0xB0038, 2, 1057⟩,   -- TRDP
  ⟨0xB0100, 32, 1059⟩,   -- TRDP
  ⟨0xB0200, 16, 1091⟩,   -- TRDP
  ⟨0xC0008, 1, 1107⟩,   -- MVB
  ⟨0xC0038, 2, 1108⟩,   -- MVB
  ⟨0xC0060, 3, 1110⟩,   -- MVB
  ⟨0xC0100, 16, 1113⟩,   -- MVB
  ⟨0xC0800, 12, 1129⟩,   -- MVB
  ⟨0xD0008, 1, 1141⟩,   -- CAN
  ⟨0xD0038, 2, 1142⟩,   -- CAN
  ⟨0xD0100, 112, 1144⟩,   -- CAN
  ⟨0xD0800, 48, 1256⟩,   -- CAN
  ⟨0xE0008, 1, 1304⟩,   -- SER
  ⟨0xE0038, 2, 1305⟩,   -- SER
  ⟨0xE0100, 112, 1307⟩,   -- SER
  ⟨0xE0800, 48, 1419⟩,   -- SER
  ⟨0xF0008, 1, 1467⟩,   -- CRR
  ⟨0xF0100, 128, 1468⟩,   -- CRR
  ⟨0xF0A00, 32, 1596⟩,   -- CRR
  ⟨0x100100, 128, 1628⟩,   -- LPE
  ⟨0x110020, 4, 1756⟩,   -- CSC
  ⟨0x110100, 98, 1760⟩,   -- CSC
  ⟨0x120030, 2, 1858⟩,   -- ARC
  ⟨0x120100, 80, 1860⟩,   -- ARC
  ⟨0x121000, 1024, 1940⟩,   -- ARC
  ⟨0x130100, 15, 2964⟩,   -- RPL
  ⟨0x140020, 4, 2979⟩,   -- STE
  ⟨0x150048, 4, 2983⟩,   -- LCS
  ⟨0x160028, 5, 2987⟩,   -- PWR
  ⟨0x170020, 5, 2992⟩,   -- PRV
  ⟨0x170100, 16, 2997⟩,   -- PRV
  ⟨0x180028, 6, 3013⟩   -- INV
]

namespace State

/-- The nonzero places of a capture, by counter index (R83, R583). -/
def captureValues (s : State) : Tab Nat :=
  windows.flatMap fun w => (List.range w.count).filterMap fun i =>
    let v := s.readReg64 (w.addr + 8 * i)
    if v = 0 then none else some (w.first + i, v)

/-- The bank a capture writes, `none` where both are held (R84): the bank with the older capture, or bank 0; the other
where that one is held. A bank without a capture counts as the older one (DESIGN CHOICE, assumption 120). -/
def captureBank (s : State) : Option Nat :=
  let b := if s.inv.lastBank = some 0 then 1 else 0
  let held (i : Nat) : Bool := (s.rd Reg.INV_HOLD).testBit i
  if !held b then some b else if !held (1 - b) then some (1 - b) else none

/-- The master asks each member for both header words and counters of its banks, the header before and after them for the
sequence check (R86, R433, R441; DESIGN CHOICE, assumption 126: how many reads it makes). -/
def invAsk (s : State) : State :=
  if s.csc.collect.isEmpty then s
  else ((bitsOf 8 (s.getF Fld.CSC_MEMBERS_VEC)).filter (· != s.stackPos)).foldl (fun (s : State) p =>
    let base := 0x2000000000 + p * 0x400000000 + 0x3F0180000
    let r : Requester := ⟨.d, 256 + p⟩
    ((s.farRead p (base + 0x100) 64 r).farRead p (base + 0x1000) 0xC000 r).farRead p (base + 0x100) 64 r) s

/-- Capture one pending snapshot at the edge (R83, R84): `pre` is the state just before the edge, whose counts the
capture copies (R57). A master with a collection area then has the stack's shadows to collect (R441). -/
def capture (s pre : State) (snapId instant : Nat) : State :=
  match s.captureBank with
  | none => s.inc64 Reg.INV_CAPREFUSED
  | some b =>
    let s := { s with inv := if b = 0 then { s.inv with bank0 := pre.captureValues, lastBank := some 0 }
                             else { s.inv with bank1 := pre.captureValues, lastBank := some 1 } }
    let s := ((s.wr (Reg.INV_B_ID b) snapId).wr64 (Reg.INV_B_MT b) s.time.mt).wr64 (Reg.INV_B_SEQ b) s.time.beatSeq
    let s := (s.wr (Reg.INV_B_INFO b) (256 * b2n (decide (instant < s.time.mt)) + s.timeState)).inc64 Reg.INV_CAPTURES
    if s.bit Fld.CSC_STATUS_MASTER && s.getF Fld.CSC_INVBASE_BASE != 0 then
      let first := s.csc.collect.isEmpty
      let s := s.modCsc fun c => { c with collect := c.collect ++ [(b, snapId)] }
      if first then s.invAsk else s
    else s

/-- The captures that are due at the edge (R83); INV out of action takes none (R517). -/
def captures (s pre : State) : State :=
  if s.unitOff 0x18 0 then s
  else
  let due := s.inv.pending.filter fun p => decide (p.2 ≤ s.time.mt)
  let s := s.setPending (s.inv.pending.filter fun p => decide (s.time.mt < p.2))
  due.foldl (fun s p => s.capture pre p.1 p.2) s

/-! ### The beat edge of module time (R53, R71) -/

/-- MT reaches the edge: counts, the rate of the beat, the end of a stretched beat (R50, R63, R71, R87). -/
def edgeBegin (s : State) : State :=
  let s := s.elapse (s.time.edgeAt - s.time.mt)
  let s := s.modTime fun t => { t with
    beat := t.mt / 250000, beatSeq := t.beatSeq + 1, edgeStart := t.mono, freq := t.freqNext, phase := t.phaseNext }
  let s := s.wr Reg.TIM_RATE ((s.time.freq + s.time.phase) % 4294967296).toNat
  let s := if s.bit Fld.TIM_STATUS_STRETCH then s.wr64 Reg.TIM_LASTSTEP_MT s.time.mt else s
  let s := s.setB Fld.TIM_STATUS_STRETCH false
  if s.bit Fld.TIM_CTL_PPSOUT_EN && s.time.beat % 4000 == 0 then
    s.modTime fun t => { t with ppsOutUntil := some (t.clock + 1000000) }
  else s

/-- Whether PPS_OUT is high (R62). -/
def ppsOut (s : State) : Bool :=
  match s.time.ppsOutUntil with
  | some t => decide (s.time.clock < t)
  | none => false

/-- An accepted step or first lock is applied at the edge: MT moves by the offset measured there, the beat becomes the
stretched beat, and no offset is left for the phase part to close (R63, R64, R71). -/
def stepEdge (s : State) (delta : Int) : State :=
  if s.bit Fld.TIM_STATUS_STEP_PENDING then
    let mt' := (((s.time.mt : Int) + delta) % 18446744073709551616).toNat
    let len := 250000 + ((-delta) % 250000).toNat
    let first := !s.time.firstLockDone
    let s := s.prvModule 6 (p8 [s.time.mt, mt'] ++ (State.objectBytes 6 0).drop 16) 0 0
    let s := s.modTime fun t =>
      { t with mt := mt', edgeAt := mt' + len, firstLockDone := true, refusedFor := none, phase := 0, phaseNext := 0 }
    let s := s.wr Reg.TIM_RATE (s.time.freq % 4294967296).toNat
    let s := ((s.setB Fld.TIM_STATUS_STEP_PENDING false).setB Fld.TIM_STATUS_STRETCH true).setTimeState 2
    let s := ((s.setB Fld.TIM_FLAGS_STEP_APPLIED true).wrI64 Reg.TIM_LASTSTEP delta).inc64 Reg.TIM_STEPS
    if first then s.setB Fld.TIM_FLAGS_FIRST_LOCK true else s
  else s.modTime fun t => { t with edgeAt := t.mt + 250000 }

end State

/-! ### The commands -/

/-- GPTP_SYNC_RX (R58, R63): a measurement against the grandmaster, where gPTP is the selected reference. -/
def execGptpSyncRx (dt : Nat) (offset : Int) (sync : GptpSync) (s : State) : Host.Outcome State Fault Refusal :=
  let s := s.elapse dt
  .next (if s.getF Fld.TIM_CTL_REFSEL = 0 ∧ s.follows sync then s.measure offset sync.gm.toNat else s)

/-- PPS_IN_PULSE (R61): the edge of PPSIN_POL marks the start of the second in TIM_PPS_SEC. -/
def execPpsInPulse (dt : Nat) (pulse : PpsPulse) (s : State) : Host.Outcome State Fault Refusal :=
  let s := s.elapse dt
  .next (
    if s.getF Fld.TIM_CTL_REFSEL ≠ 1 ∨ pulse.rising = s.bit Fld.TIM_CTL_PPSIN_POL ∨ pulse.width < 1000 ∨ 500000000 < pulse.width then s
    else
      let s := s.modTime fun t => { t with ppsLast := some t.clock }
      let sec := s.rd64 Reg.TIM_PPS_SEC
      if sec = 0 then s.setB Fld.TIM_FLAGS_PPS_NO_SEC true
      else (s.wr64 Reg.TIM_PPS_SEC (sec + 1)).measure ((sec : Int) * 1000000000 - s.time.mt) ppsSource)

/-- REF_LOST (R59, R61): no Sync for three intervals, or no pulse within 1.5 s of the previous one. Pulses taken while
TIM_PPS_SEC = 0 make no reference, so that none is lost after them (DESIGN CHOICE, assumption 120). -/
def execRefLost (dt : Nat) (s : State) : Host.Outcome State Fault Refusal :=
  let s := s.elapse dt
  let due : Bool := match s.time.ppsLast with
    | some t => s.time.grandmaster != ppsSource || decide (t + 1500000000 ≤ s.time.clock)
    | none => true
  .next (if s.time.refPresent && due then s.loseRef else s)

/-- FIRST_LOCK_TIMEOUT (R65): 3 s after the start of the lock attempt without a lock, applied or awaiting its edge. -/
def execFirstLockTimeout (dt : Nat) (s : State) : Host.Outcome State Fault Refusal :=
  let s := s.elapse dt
  .next (match s.time.lockStart with
    | some t =>
      if !s.time.firstLockDone && !s.bit Fld.TIM_STATUS_STEP_PENDING && decide (t + 3000000000 ≤ s.time.clock) then
        (s.setTimeState 1).modTime fun t => { t with lockStart := none, lockOver := true }
      else s
    | none => s)

/-- A write of TIM_STEPCTL (R70). -/
def State.stepAccept (s : State) (key : Nat) (accept : Bool) : State :=
  if key = 0xA5 ∧ accept ∧ (s.timeState = 3 ∨ s.timeState = 4) ∧ s.time.refPresent then
    s.setB Fld.TIM_STATUS_STEP_PENDING true
  else s

/-- TIM_STEP_ACCEPT (R70). -/
def execTimStepAccept (dt : Nat) (req : Requester) (key : Byte) (accept : Bool) (s : State) :
    Host.Outcome State Fault Refusal :=
  let s := s.elapse dt
  .next (s.regCmd req Reg.TIM_STEPCTL fun s => s.stepAccept key.toNat accept)

/-- INV_ANNOUNCEMENT_RX (R82). -/
def execInvAnnouncementRx (dt : Nat) (a : Announce) (s : State) : Host.Outcome State Fault Refusal :=
  .next ((s.elapse dt).announce a)

end Sys2Proof.Machine
end

