-- ==== Sys2Proof/Machine/Triad.lean ====
section
/-! DEFINITION. The Triad: vote, masking, the boundary, the probe, VSYNC and VFENCE, reintegration, retirement and Loan
(R90 to R131). -/

namespace Sys2Proof.Machine

/-- Kinds of voted transaction (R98): 0 store, 1 load, 2 fetch, 3 LR, 4 SC, 5 FENCE, 6 FENCE.I, 7 VFENCE, and 16 and
above an AMO. -/
def isFenceKind (k : Nat) : Bool := k == 5 || k == 6 || k == 7

/-- A signed number of `w` bits. -/
def signed (w v : Nat) : Int := if v < 2 ^ (w - 1) then (v : Int) else (v : Int) - 2 ^ w

/-- The value an AMO writes (RISC-V A extension; R98, R101): 16 swap, 17 add, 18 xor, 19 and, 20 or, 21 min, 22 max,
23 minu, 24 maxu. -/
def amoValue (kind w old d : Nat) : Nat :=
  match kind with
  | 16 => d
  | 17 => (old + d) % 2 ^ w
  | 18 => old ^^^ d
  | 19 => old &&& d
  | 20 => old ||| d
  | 21 => if signed w old ≤ signed w d then old else d
  | 22 => if signed w old ≤ signed w d then d else old
  | 23 => min old d
  | _ => max old d

namespace State

/-- Change the Triad's state. -/
def modTriad (s : State) (f : TriadSt → TriadSt) : State := { s with triad := f s.triad }

/-- Whether lane `l` is masked or retired. -/
def laneMasked (s : State) (l : Nat) : Bool := (s.getF Fld.TRIAD_STATUS_MASKED).testBit l
def laneRetired (s : State) (l : Nat) : Bool := (s.getF Fld.TRIAD_STATUS_RETIRED).testBit l

/-- The active lanes of the mode (R122). -/
def activeLanes (s : State) : List Nat :=
  let m := s.triadMode
  if m = 0 ∨ m = 4 then []
  else [0, 1, 2].filter fun l => !s.laneMasked l && !s.laneRetired l && !(m == 3 && l == 2)

/-- The safe-state cause of a disagreement of two active lanes (R91, R103). -/
def pairCause (s : State) : Nat := if s.triadMode = 2 then 2 else if s.triadMode = 3 then 3 else 1

/-- TRIAD_DISWIN shows the dissents of the last hour (R109). -/
def showDiswin (s : State) : State :=
  ((s.setF Fld.TRIAD_DISWIN_TA (min 15 (s.dissentCount 0))).setF Fld.TRIAD_DISWIN_TB (min 15 (s.dissentCount 1))).setF
    Fld.TRIAD_DISWIN_TC (min 15 (s.dissentCount 2))

/-- TRIAD_STATUS.REINT_PEND: a masked lane that is not to be retired awaits reintegration (R130). -/
def showReint (s : State) : State :=
  s.setB Fld.TRIAD_STATUS_REINT_PEND ([0, 1, 2].any fun l => s.laneMasked l && !s.triad.retireDue.contains l)

/-- Change what is local to a lane. -/
def modLane (s : State) (l : Nat) (f : LaneSt → LaneSt) : State := s.modTriad fun t => { t with lanes := tmod t.lanes l f }

/-- A lane is masked again before its reintegration has ended (R131). -/
def reintCut (s : State) (lane : Nat) : State :=
  if (s.triad.reint.map fun x => x.1) = some lane then s.reintEnds else s

/-- Mask a lane as dissenting: stopped, its queue discarded, recorded, counted, and its event written; its third dissent within
the hour marks it for retirement at the next edge (R104, R105, R109). -/
def maskLane (s : State) (lane cause addr : Nat) : State :=
  let a := if cause = 3 ∨ cause = 5 then 0 else addr
  let s := (s.reintCut lane).modLane lane fun x => { x with queue := [] }
  let s := s.setF Fld.TRIAD_STATUS_MASKED (s.getF Fld.TRIAD_STATUS_MASKED ||| 2 ^ lane)
  let s := (s.wr64 Reg.TRIAD_LASTDIS_ADDR a).wr Reg.TRIAD_LASTDIS_INFO (cause * 16 + lane)
  let s := (s.wr64 Reg.TRIAD_LASTDIS_MT s.time.mt).inc64 (Reg.TRIAD_DISSENTS_TA + 8 * lane)
  let s := s.modTriad fun t => { t with dissents := t.dissents ++ [(lane, s.time.mono)] }
  let s := s.showDiswin
  let s := (if 3 ≤ s.dissentCount lane then s.modTriad fun t => { t with retireDue := t.retireDue ++ [lane] } else s).showReint
  if cause = 5 then (s.inc64 Reg.TRIAD_LATENT).emit 0x02 0x0202 2 56 (p4 [lane])
  else s.emit 0x02 0x0201 5 56 (p4 [lane, cause] ++ p8 [a])

/-! ### VSYNC (R117 to R119) -/

/-- Whether a word is a legal VSYNC or VFENCE of the given funct3 (R117): custom-0, rs1, rs2 and funct7 zero. -/
def customLegal (word : BitVec 32) (funct3 : Nat) : Bool :=
  let w := word.toNat
  w % 128 == 0x0B && w / 4096 % 8 == funct3 && w / 32768 == 0

/-- `n` 64-bit values as the state record holds them. -/
def recordWords (n : Nat) (l : List (BitVec 64)) : List Byte :=
  (List.range n).flatMap fun i => leBytes 8 (l.getD i 0).toNat

/-- The state record of a lane: 752 bytes in the order of R118. -/
def stateRecord (r : LaneRegs) : List Byte :=
  recordWords 31 r.x ++ recordWords 32 r.f ++ leBytes 8 r.pc.toNat ++ leBytes 8 r.fcsr.toNat ++ recordWords 11 r.csrs ++
    recordWords 2 r.pmpcfg ++ recordWords 16 r.pmpaddr

/-- What a lane presents for VSYNC: the SHA-256 of its state record (R118, R119). -/
def stateHash (r : LaneRegs) : Nat := sha256 (stateRecord r)

/-- Registers with `x<n>` set; x0 stays 0. -/
def setX (r : LaneRegs) (n v : Nat) : LaneRegs :=
  { r with x := (List.range 31).map fun i => if i + 1 = n then BitVec.ofNat 64 v else r.x.getD i 0 }

/-- The destination register of an instruction word. -/
def rdOf (word : BitVec 32) : Nat := word.toNat / 128 % 32

/-- An item is captured in the boundary sample register and reaches every active lane (R94). -/
def enter (s : State) (item : BoundaryItem) : State :=
  let act := s.activeLanes
  s.modTriad fun t => { t with sample := some item, laneIn := act.foldl (fun m l => tset m l (some item)) t.laneIn }

/-- The target acknowledges a voted transaction: the first error waits for the VFENCE that follows (R121). -/
def ack (s : State) (st : Nat) : State :=
  if st = 0 then s else s.modTriad fun t => { t with ackErr := t.ackErr.orElse fun _ => some st }

/-- The answer of the target to a voted transaction passes the boundary to every active lane, with its status (R94, R101). -/
def toLanes (s : State) (st : Nat) : State := (s.ack st).enter ⟨.readResponse, s.resp.data, st⟩

/-- The status of an access that only the firewall can have refused. -/
def fwStatus (s : State) : Nat := if s.resp.exc.isSome then 0x14 else s.resp.status

/-- The result of VSYNC or VFENCE passes the boundary into `rd` of every active lane (R94, R119, R121). -/
def laneResult (s : State) (rd v : Nat) : State :=
  let act := s.activeLanes
  let s := s.enter ⟨.result, v, 0⟩
  (act.foldl (fun s l => s.modLane l fun x => { x with regs := setX x.regs rd v }) s).respond 0 v

/-- Lanes compare what they present, "nothing" included: no lane where all agree, the odd lane out of three, or `none` where no
two agree (R99, R100, R119). -/
def syncOutcome (hs : List (Nat × Option Nat)) : Option (Option Nat) :=
  match hs with
  | [(x, a), (y, b), (z, c)] =>
    if a = b ∧ b = c then some none
    else if a = b then some (some z)
    else if a = c then some (some y)
    else if b = c then some (some x)
    else none
  | [(_, a), (_, b)] => if a = b then some none else none
  | _ => none

/-- The reintegration ends when the executive returns from the beat interrupt, `back` ns after its VSYNC: TRIAD_REINTEGRATED of
that instant with the duration, counted unless it was the return from a Loan (R106, R127; DESIGN CHOICE, assumption 117: the
row of VSYNC carries the time of the return, since no row tells it). -/
def reintDone (s : State) (lane start : Nat) (loan : Bool) (back : Nat) : State :=
  let s := s.modTriad fun t => { t with reint := none }
  let s := if loan then s else s.inc64 Reg.TRIAD_REINTS
  s.emitAt (s.time.mt + back) 0x02 0x0203 1 56 (p4 [lane] ++ p8 [s.time.mono + back - start])

/-- A reintegration in progress has passed the VSYNC of step 6. -/
def reintPassed (s : State) (back : Nat) : State :=
  match s.triad.reint with
  | some (lane, start, loan) => s.reintDone lane start loan back
  | none => s

/-- VSYNC over what the lanes present: the hash of a record, or nothing; `agree` tells whether the two voters agree (R102, R118,
R119). A lane that presents nothing differs, and is masked with cause 5 like any lane that differs (DESIGN CHOICE, assumption
118). -/
def vsync (s : State) (rd : Nat) (recs : LaneRecords) (agree : Bool) (back : Nat) : State :=
  let of (l : Nat) : Option LaneRegs := if l = 0 then recs.ta else if l = 1 then recs.tb else recs.tc
  let act := s.activeLanes
  let hs := act.map fun l => (l, (of l).map stateHash)
  if act.all fun l => (of l).isNone then s
  else
    let s := act.foldl (fun s l => match of l with
      | some r => s.modLane l fun x => { x with regs := r }
      | none => s) s
    let s := s.inc64 Reg.TRIAD_VSYNCS
    if !agree then s.triadSafe 5 0
    else
      match syncOutcome hs with
      | none => s.triadSafe 7 0
      | some none => ((s.modTriad fun t => { t with vsyncDone := true }).reintPassed back).laneResult rd 0
      | some (some lane) =>
        ((((s.modTriad fun t => { t with vsyncDone := true }).reintCut lane).reintPassed back).maskLane lane 5 0).laneResult rd 1

/-! ### Beat edge (R106, R109, R124, R125, R127) -/

/-- Whether a request that reached the block at a MONO value takes effect at this edge: before E(n) − 2 µs. -/
def inTime (s : State) (at_ : Nat) : Bool := decide (at_ + 2000 < s.time.mono)

/-- Whether a write that reaches the block now takes effect at the coming edge E(n): before E(n) − 2 µs (R125). -/
def beforeCut (s : State) : Bool := decide (s.time.mt + 2000 < s.time.edgeAt)

/-- Whether a waiting Loan request is evaluated at the coming edge (R125). -/
def loanReqDue (s : State) : Bool :=
  match s.triad.loanReqAt with
  | some at_ => decide (at_ + 2000 + s.time.mt < s.time.mono + s.time.edgeAt)
  | none => false

/-- Retire the lanes whose third dissent fell in the ended beat (R109). -/
def retireEdge (s : State) : State :=
  if s.triad.retireDue.isEmpty ∨ s.triadMode = 4 then s
  else
    let s := s.triad.retireDue.foldl (fun s l =>
      let s := s.setF Fld.TRIAD_STATUS_RETIRED (s.getF Fld.TRIAD_STATUS_RETIRED ||| 2 ^ l)
      let s := s.setF Fld.TRIAD_STATUS_MASKED (s.getF Fld.TRIAD_STATUS_MASKED &&& (7 - 2 ^ l))
      s.emit 0x02 0x0204 5 56 (p4 [l])) s
    ((s.modTriad fun t => { t with retireDue := [] }).setF Fld.TRIAD_STATUS_MODE 2).showReint

/-- The loan window: first byte and the byte after its last (R130). -/
def loanWindow (s : State) : Nat × Nat :=
  let b := s.getF Fld.TRIAD_LOANBASE_BASE * 0x200000
  (b, b + s.getF Fld.TRIAD_LOANSIZE_SIZE * 0x200000)

/-- The refusal code of a Loan request, 0 for none (R124): of several conditions the first in the table's order (DESIGN CHOICE,
assumption 118). -/
def loanRefusal (s : State) : Nat :=
  let w := s.loanWindow
  if !s.bit Fld.TRIAD_LOANCFG_PERMIT then 1
  else if s.triadMode ≠ 1 then 2
  else if s.loanUnbacked then 3
  else if s.getF Fld.TRIAD_STATUS_MASKED ≠ 0 then 4
  else if w.1 = w.2 ∨ 0x400000000 < w.2 then 5
  else 0

/-- TC as it starts on a Loan: in machine mode at the entry, with x10 and x11 holding the window and all other registers 0; PMP
entry 0 gives the window, entry 1 reads of the rest of DDR, both locked (R125). -/
def loanCore (entry lo hi : Nat) : LoanCore :=
  { machine := true
    regs := setX (setX { pc := BitVec.ofNat 64 entry } 10 lo) 11 (hi - lo)
    pmp := [some ⟨lo, hi, true, true, true, true⟩, some ⟨0, 0x400000000, true, false, false, true⟩] ++ List.replicate 14 none
    windowLo := lo, windowHi := hi }

/-- TC starts, or starts again after a passed self-test, at TRIAD_LOANENTRY, with invalidated caches and predictors (R125,
R519). TC_HALTED stays as the end of a Loan left it until then, and a start after a self-test takes entry and window from the
registers as they are then (DESIGN CHOICE, assumption 118). -/
def startLoanTc (s : State) : State :=
  let w := s.loanWindow
  let c := loanCore (s.getF Fld.TRIAD_LOANENTRY_ENTRY) w.1 w.2
  let s := s.modLane 2 fun _ => {}
  (s.modTriad fun t => { t with loanTc := some c, tcFailed := false, laneIn := tset t.laneIn 2 none }).setB
    Fld.TRIAD_LOANSTAT_TC_HALTED false

/-- A requested Loan is evaluated at the edge (R124, R125). -/
def loanStartEdge (s : State) : State :=
  match s.triad.loanReqAt with
  | some at_ =>
    if !s.inTime at_ then s
    else
      let s := s.modTriad fun t => { t with loanReqAt := none }
      let code := s.loanRefusal
      if code ≠ 0 then
        let s := s.modTriad fun t => { t with loanEnd := none }
        ((s.setB Fld.TRIAD_LOAN_REQ false).setF Fld.TRIAD_LOANSTAT_REFUSE code).emit 0x02 0x0208 2 56 (p4 [code])
      else
        let w := s.loanWindow
        let s := ((s.setF Fld.TRIAD_STATUS_MODE 3).modTriad fun t => { t with loanLost := false }).startLoanTc
        (s.inc64 Reg.TRIAD_LOANS).emit 0x02 0x0206 1 56 (p8 [w.1, w.2 - w.1, s.getF Fld.TRIAD_LOANENTRY_ENTRY])
  | none => s

/-- The reason for which a Loan ends at this edge, if any (R127): never while a self-test of TC runs. Where a write that comes
in time meets a lost backing, the write's reason is recorded (DESIGN CHOICE, assumption 118). -/
def loanEndReason (s : State) : Option Nat :=
  let lost := s.triad.loanLost || s.loanUnbacked
  if s.triadMode ≠ 3 ∨ s.triad.loanReturnDue ∨ s.unitTested 0x02 2 then none
  else match s.triad.loanEnd with
    | some (r, at_) => if s.inTime at_ then some r else if lost then some 3 else none
    | none => if lost then some 3 else none

/-- The return edge of a Loan: TC stopped, to be reintegrated, or retired after a failed self-test (R127, R519). -/
def loanEndEdge (s : State) : State :=
  match s.loanEndReason with
  | none => s
  | some r =>
    let failed := s.triad.tcFailed
    let s := s.setB Fld.TRIAD_LOAN_REQ false
    let s := s.modTriad fun t => { t with
      loanTc := none, loanEnd := none, loanReqAt := none, loanReturnDue := !failed, loanLost := false }
    let s := s.emit 0x02 0x0207 1 56 (p4 [r])
    if failed then
      let s := s.setF Fld.TRIAD_STATUS_RETIRED (s.getF Fld.TRIAD_STATUS_RETIRED ||| 4)
      ((s.setF Fld.TRIAD_STATUS_MODE 2).modTriad fun t => { t with tcFailed := false }).emit 0x02 0x0204 5 56 (p4 [2])
    else s

/-- The Triad at a beat edge: the beat interrupt, retirement, and the start and the end of a Loan. -/
def triadEdge (s : State) : State :=
  let s := s.modTriad fun t => { t with vsyncDone := false, reintEdge := s.time.mono }
  let s := s.showDiswin
  let s := s.retireEdge.loanEndEdge.loanStartEdge
  if s.activeLanes.isEmpty then s else s.interrupt 8 0x01

end State

/-! ### The commands -/

/-- TRIAD_L1_UNCORRECTABLE (R91): a single-bit error is corrected and counted; an uncorrectable one makes the lane
dissent, or with two active lanes leads to the safe state. -/
def execTriadL1Uncorrectable (dt : Nat) (lane : Fin 3) (e : L1Error) (addr : Nat) (s : State) :
    Host.Outcome State Fault Refusal :=
  let s := s.elapse dt
  .next (match e with
    | .single => s.inc64 Reg.TRIAD_L1CORR
    | .uncorrectable =>
      if !s.activeLanes.contains lane.val then s
      else if s.activeLanes.length = 3 then s.maskLane lane.val 4 (addr % 0x10000000000)
      else s.triadSafe s.pairCause 0)

/-- The item that the boundary captures: the sampled value of a TIM register or of a Garnet word, by its offset in the block,
or what arrives (R94, R97). -/
def State.captured (s : State) (item : Inbound) : BoundaryItem :=
  match item with
  | .readResponse v st => ⟨.readResponse, v, st⟩
  | .interrupt m => ⟨.interrupt, m, 0⟩
  | .timeRead o => ⟨.time, s.readReg64 (0x10000 + o % 0x10000 / 8 * 8), 0⟩
  | .garnetStatus o => ⟨.garnet, s.readReg64 (0x50000 + o % 0x10000 / 8 * 8), 0⟩
  | .instrResult v => ⟨.result, v, 0⟩

/-- BOUNDARY_ITEM_CAPTURE (R93, R94, R96): the item reaches every active lane, or a parity error masks one lane or leads
to the safe state. -/
def execBoundaryItemCapture (dt : Nat) (item : Inbound) (parityErr : BitVec 3) (s : State) :
    Host.Outcome State Fault Refusal :=
  let s := s.elapse dt
  let act := s.activeLanes
  let bad := act.filter fun l => parityErr.toNat.testBit l
  let x := s.captured item
  .next (
    if act.isEmpty then s
    else if 2 ≤ bad.length ∨ (bad.length = 1 ∧ act.length = 2) then
      (s.modTriad fun t => { t with sample := some x }).triadSafe 6 0
    else
      let s := (bad.foldl (fun s l => s.maskLane l 3 0) s).enter x
      match x.kind with
      | .readResponse =>
        if x.status = 0x12 then (s.modTriad fun t => { t with loadFault := true }).raise .accessFault
        else s.modTriad fun t => { t with loadFault := false }
      | .interrupt => { s with mbox := tmod s.mbox 8 fun l => l.filter (· != x.data) }
      | _ => s.respond 0 x.data)

/-- VOTER_PROBE (R115, R116): in every mode other than START. `failing` has bit s − 1 set for each failing step. FAILSTEP keeps
the steps of the last failed run (DESIGN CHOICE, assumption 118). -/
def execVoterProbe (dt : Nat) (failing : BitVec 8) (s : State) : Host.Outcome State Fault Refusal :=
  let s := s.elapse dt
  .next (
    if s.triadMode = 0 then s
    else
      let s := s.inc64 Reg.TRIAD_PROBES
      if failing = 0 then s.setB Fld.TRIAD_PROBESTAT_LAST_OK true
      else ((s.setB Fld.TRIAD_PROBESTAT_LAST_OK false).setF Fld.TRIAD_PROBESTAT_FAILSTEP failing.toNat).triadSafe 4 0)

/-- VSYNC (R117 to R119): `ra`, `rb` and `rc` are the lanes' registers at the instant the instruction issues, or none of a lane
that presents nothing. -/
def execVsync (dt : Nat) (word : BitVec 32) (priv : Priv) (onApp : Bool) (recs : LaneRecords) (agree : Bool) (back : Nat)
    (s : State) : Host.Outcome State Fault Refusal :=
  let s := s.elapse dt
  .next (
    if onApp ∨ priv = .user ∨ !State.customLegal word 0 then s.raise .illegalInstruction
    else s.vsync (State.rdOf word) recs agree back)

/-- VSYNC_DEADLINE (R120): no VSYNC has completed in the beat by E(n+1) − 5 µs. The rule supervises the executive, so it
holds from the executive's start on (DEDUCED, assumption 11). -/
def execVsyncDeadline (dt : Nat) (s : State) : Host.Outcome State Fault Refusal :=
  let s := s.elapse dt
  .next (
    if !s.activeLanes.isEmpty && !s.triad.vsyncDone && decide (s.time.edgeAt ≤ s.time.mt + 5000)
        && (s.lcs.phase == .executive || s.lcs.phase == .firmware) then s.triadSafe 8 0
    else s)

/-- VFENCE (R117, R121) starts to wait. -/
def execVfence (dt : Nat) (word : BitVec 32) (_priv : Priv) (onApp : Bool) (s : State) :
    Host.Outcome State Fault Refusal :=
  let s := s.elapse dt
  .next (
    if onApp ∨ !State.customLegal word 1 then s.raise .illegalInstruction
    else if s.activeLanes.isEmpty then s
    else s.modTriad fun t => { t with vfenceAt := some s.time.clock, vfenceRd := State.rdOf word })

/-- Whether a transaction of the Triad that VFENCE waits for is still open at another module (R121, R434, R442). -/
def State.farOpen (s : State) : Bool :=
  let mine (r : Requester) : Bool := r.cls == .t && r.core == s.triad.vfEra
  s.csc.tags.any (fun t => mine t.ask.req) || s.csc.readQ.any (fun x => mine x.req) || s.csc.amoQ.any fun x => mine x.2.1

/-- VFENCE_COMPLETE (R121): 0, or the status of the first acknowledgement with an error; `acked` tells whether the targets on
this module have acknowledged. -/
def execVfenceComplete (dt : Nat) (acked : Bool) (s : State) : Host.Outcome State Fault Refusal :=
  let s := s.elapse dt
  .next (if s.triad.vfenceAt.isNone ∨ !acked ∨ s.farOpen then s
    else
      let err := s.triad.ackErr
      let s := s.modTriad fun t => { t with vfenceAt := none, ackErr := none }
      match err with
      | none => s.laneResult s.triad.vfenceRd 0
      | some st => (s.inc64 Reg.TRIAD_VFERR).laneResult s.triad.vfenceRd st)

/-- VFENCE_TIMEOUT (R121): not complete within 20 µs; the result is ABORTED, and no later VFENCE sees the acknowledgements that
were to come. -/
def execVfenceTimeout (dt : Nat) (s : State) : Host.Outcome State Fault Refusal :=
  let s := s.elapse dt
  .next (match s.triad.vfenceAt with
    | none => s
    | some at_ =>
      if s.time.clock < at_ + 20000 then s
      else ((s.modTriad fun t => { t with vfenceAt := none, ackErr := none, vfEra := t.vfEra + 1 }).inc64 Reg.TRIAD_VFERR).laneResult s.triad.vfenceRd 0x30)

/-- A lane restarts with the others (R106, step 4): its core reset, its L1 caches and predictors invalidated, its queue and
delay registers cleared. -/
def State.restartLane (s : State) (l : Nat) (loan : Bool) : State :=
  (s.modLane l fun _ => {}).modTriad fun t =>
    { t with reint := some (l, t.reintEdge, loan), laneIn := tset t.laneIn l none }

/-- A voted write of TRIAD_REINT (R106, R108, R109): a lane masked in TRIAD mode that is not to be retired, or TC at the return
edge of a Loan. -/
def State.reintWrite (s : State) (l : Nat) : State :=
  if s.triadMode = 1 ∧ s.laneMasked l ∧ s.triad.retireDue.contains l = false then
    ((s.setF Fld.TRIAD_STATUS_MASKED (s.getF Fld.TRIAD_STATUS_MASKED &&& (7 - 2 ^ l))).showReint).restartLane l false
  else if l = 2 ∧ s.triadMode = 3 ∧ s.triad.loanReturnDue then
    ((s.setF Fld.TRIAD_STATUS_MODE 1).modTriad fun t => { t with loanReturnDue := false }).restartLane 2 true
  else s

/-- A voted write of TRIAD_SAFEREQ (R113). -/
def State.safeReqWrite (s : State) (key reason : Nat) : State := if key = 0x5A then s.triadSafe 9 reason else s

/-- REQ is set: the request is evaluated at an edge more than 2 µs later (R123, R125). -/
def State.loanRequest (s : State) : State :=
  if s.bit Fld.TRIAD_LOAN_REQ then s
  else (s.setB Fld.TRIAD_LOAN_REQ true).modTriad fun t =>
    if s.triadMode ≠ 3 ∧ t.loanReqAt.isSome then { t with loanEnd := none } else { t with loanReqAt := some s.time.mono }

/-- REQ is cleared: a Loan ends with reason 1, and so does one that starts at the coming edge, where the write comes too late
for that edge (R125, R127). -/
def State.loanCancel (s : State) : State :=
  let s := s.setB Fld.TRIAD_LOAN_REQ false
  if s.triadMode = 3 ∧ s.triad.loanReturnDue = false then
    s.modTriad fun t => { t with loanEnd := if t.loanEnd.isSome then t.loanEnd else some (1, s.time.mono) }
  else if s.loanReqDue ∧ !s.beforeCut then s.modTriad fun t => { t with loanEnd := some (1, s.time.mono) }
  else s.modTriad fun t => { t with loanReqAt := none }

/-- The loan image asks for its return (R127). -/
def State.loanReturn (s : State) (ret : Bool) : State :=
  if ret ∧ s.triadMode = 3 ∧ s.triad.loanReturnDue = false then
    s.modTriad fun t => { t with loanEnd := if t.loanEnd.isSome then t.loanEnd else some (2, s.time.mono) }
  else s

/-- TRIAD_REINT_WRITE (R106, R108, R109). -/
def execTriadReintWrite (dt : Nat) (req : Requester) (lane : Fin 4) (s : State) : Host.Outcome State Fault Refusal :=
  .next ((s.elapse dt).regCmd req Reg.TRIAD_REINT fun s => s.reintWrite lane.val)

/-- TRIAD_SAFEREQ_WRITE (R113). -/
def execTriadSafereqWrite (dt : Nat) (req : Requester) (key reason : Byte) (s : State) : Host.Outcome State Fault Refusal :=
  .next ((s.elapse dt).regCmd req Reg.TRIAD_SAFEREQ fun s => s.safeReqWrite key.toNat reason.toNat)

/-- TRIAD_LOAN_REQUEST (R123, R125). -/
def execTriadLoanRequest (dt : Nat) (req : Requester) (s : State) : Host.Outcome State Fault Refusal :=
  .next ((s.elapse dt).regCmd req Reg.TRIAD_LOAN fun s => s.loanRequest)

/-- TRIAD_LOAN_CANCEL (R125, R127). -/
def execTriadLoanCancel (dt : Nat) (req : Requester) (s : State) : Host.Outcome State Fault Refusal :=
  .next ((s.elapse dt).regCmd req Reg.TRIAD_LOAN fun s => s.loanCancel)

/-- TRIAD_LOANRET_WRITE (R127, R129): only TC on Loan may write it. -/
def execTriadLoanretWrite (dt : Nat) (req : Requester) (ret : Bool) (s : State) : Host.Outcome State Fault Refusal :=
  .next ((s.elapse dt).regCmd req Reg.TRIAD_LOANRET fun s => s.loanReturn ret)

/-- TC_LOAN_EXCEPTION (R126): TC on Loan halts. -/
def execTcLoanException (dt : Nat) (s : State) : Host.Outcome State Fault Refusal :=
  let s := s.elapse dt
  .next (if s.triadMode = 3 then s.setB Fld.TRIAD_LOANSTAT_TC_HALTED true else s)

end Sys2Proof.Machine
end

