-- ==== Sys2Proof/Machine/Pair.lean ====
section
/-! DEFINITION. The redundant pair (R471 to R495): the Custody line, claims and negotiation, the Replica link's snapshots
and markers, eligibility, takeover and the planned switch-over. -/

namespace Sys2Proof.Machine

/-- The FARWIRE code of a reading (R473). -/
def farCode : FarWire → Nat
  | .released => 0
  | .claimed => 1
  | .stuckHigh | .stuckLow => 2
  | .openWire => 3
  | .short => 4

/-- The band of a level in mV; a level between bands is in none (R473). -/
def wireBand (mv : Nat) : Option WireBand :=
  if mv < 2000 then some .short
  else if mv ≤ 7000 then some .low
  else if mv < 9000 then none
  else if mv ≤ 15000 then some .released
  else if mv < 17000 then none
  else if mv ≤ 21000 then some .high
  else if mv ≤ 22000 then none
  else some .openWire

/-- The lines of the main walker's area and of the side walker's areas 1, 2 and 3 (R479). -/
def mainLines : Nat := 65536
def sideLines : Nat := 8232

/-- The line at a position of the side walker: areas 1, 2 and 3 in turn. -/
def sideLine (i : Nat) : Nat :=
  if i < 4096 then 0x10000000 + i else if i < 8192 then 0x20000000 + (i - 4096) else 0x30000000 + (i - 8192)

/-- The staging area holds 4 MiB of line records of 260 bytes each (R482, R483). -/
def stageLines : Nat := 16131

/-- A Replica frame as it arrives (R482): with a CRC error; of no type and layout that the rule gives; or one of the three. -/
inductive ReplicaFrame where
  | bad
  | odd
  | lines (beat : Nat) (records : List (Nat × List Byte))
  | marker (beat count crc mono progId : Nat) (mainWrap sideWrap : Bool) (mode : Nat)
  | ack (beat lastBeat inelig pkgId mode : Nat) (lineFault resync : Bool)
  deriving DecidableEq, Repr

/-- What the bytes of a frame spell: a header of 16 bytes, the payload of its type, and the CRC-32 of both (R482). -/
def replicaFrame (bs : List Byte) : ReplicaFrame :=
  let f (i n : Nat) : Nat := leNat ((bs.drop i).take n)
  let n := bs.length - 4
  let ofType (t c len : Nat) : Bool := f 0 1 == t && f 1 1 == c && n == 16 + len
  if bs.length < 20 ∨ f n 4 ≠ crc32 (bs.take n) then .bad
  else if f 2 2 ≠ 0 then .odd
  else if 1 ≤ f 1 1 ∧ f 1 1 ≤ 8 ∧ ofType 1 (f 1 1) (260 * f 1 1) = true then
    .lines (f 8 8) ((List.range (f 1 1)).map fun i => (f (16 + 260 * i) 4, (bs.drop (20 + 260 * i)).take 256))
  else if ofType 2 0 64 then
    .marker (f 8 8) (f 16 4) (f 20 8) (f 28 8) (f 36 8) ((f 44 1).testBit 0) ((f 44 1).testBit 1) (f 45 1)
  else if ofType 3 0 18 then
    .ack (f 8 8) (f 16 8) (f 24 1) (f 28 4) (f 32 1) ((f 33 1).testBit 0) ((f 33 1).testBit 1)
  else .odd

namespace State

/-- Change the state of the pair. -/
def modRpl (s : State) (f : RplSt → RplSt) : State := { s with rpl := f s.rpl }

/-- Whether the module is one of a pair. -/
def paired (s : State) : Bool := s.bit Fld.RPL_CFG_PAIRED

/-- The pin TX_DISABLE of X3 (R560): driven while the Replica link is disabled, which it is in reset and where PAIRED = 0 (DEDUCED
from R471, assumption 134). -/
def txDisable (s : State) : Bool := !s.paired || s.lcs.phase == .off

/-- The reading of the far wire. -/
def far (s : State) : Nat := s.getF Fld.RPL_STATUS_FARWIRE

/-- The module's SIDE. -/
def side (s : State) : Nat := s.getF Fld.RPL_STATUS_SIDE

/-- Whether an area has the line: 16 MiB, 1 MiB, 1 MiB, 10 KiB of 256 bytes each (R479). -/
def lineInArea (l : Nat) : Bool := decide (l % 0x10000000 < [65536, 4096, 4096, 40].getD (l / 0x10000000) 0)

/-! ### Eligibility (R485) -/

/-- The conditions of R485 that fail, by code, in table order. -/
def ineligible (s : State) : List Nat :=
  let r := s.rpl
  let other := match r.peer with
    | some p => p.paired && p.side != s.side
    | none => false
  let same := match r.peer with
    | some p => p.code == s.getF Fld.SYS_IDENT_CODE && p.side != s.side
    | none => false
  let prog := r.peerProg == some (s.rd64 Reg.RTS_PROGID)
  let fails := [(1, !(r.ackWorked && other)), (2, s.role != 3), (3, !s.bit Fld.RPL_STATUS_PASSDONE),
    (4, decide (8 < s.getF Fld.RPL_STATUS_BEHIND)), (5, r.mismatch), (6, !(prog && same)),
    (7, !((s.triadMode == 1 || s.triadMode == 2) && s.getF Fld.RTS_STATE_STATE == 1))]
  (fails.filter (·.2)).map (·.1)

/-- RPL_STATUS.INELIG, with RPL_ELIGIBLE at each change of eligibility (R485, R494). -/
def showElig (s : State) : State :=
  if !s.paired then s
  else
    let code := s.ineligible.headD 0
    let s := s.setF Fld.RPL_STATUS_INELIG code
    let el := code == 0
    if el == s.rpl.wasElig then s
    else (s.modRpl fun r => { r with wasElig := el }).emit 0x13 0x1407 1 58 (p4 [b2n el, code])

/-- RPL_STATUS.PEER_ELIG. -/
def setPeerElig (s : State) (b : Bool) : State :=
  ((s.setB Fld.RPL_STATUS_PEER_ELIG b).modRpl fun r => { r with peerElig := b }).loanWatch

/-- Whether a far wire shows a custodian a line fault (R478). -/
def lineFault (s : State) : Bool := s.far == 3 || s.far == 4 || s.rpl.reading == .stuckLow

/-- A frame leaves over the Replica link, which is up (R482). -/
def sendFrame (s : State) (type count beat : Nat) (payload : List Byte) : State :=
  if s.bit Fld.RPL_STATUS_LINKUP then
    let body := leBytes 1 type ++ leBytes 1 count ++ [0, 0] ++ leBytes 4 s.rpl.fseq ++ leBytes 8 beat ++ payload
    (s.inc64 Reg.RPL_TXFRAMES).modRpl fun r => { r with
      fseq := (r.fseq + 1) % 4294967296, wire := r.wire ++ [body ++ leBytes 4 (crc32 body)] }
  else s

/-- An ACK leaves (R482): the last marker applied, code of R485, the package identity, the Triad's mode, and whether this module
sees a line fault or asks for a resynchronisation. -/
def ackOut (s : State) (resync : Bool) : State :=
  let last := s.rd64 Reg.RPL_LASTBEAT
  (s.modRpl fun r => { r with wire := [] }).sendFrame 3 0 last
    (leBytes 8 last ++ leBytes 1 (s.getF Fld.RPL_STATUS_INELIG) ++ [0, 0, 0] ++ leBytes 4 (s.rd Reg.RPL_PKGID) ++
      leBytes 1 s.triadMode ++ leBytes 1 (b2n s.lineFault + 2 * b2n resync))

/-- A resynchronisation is requested (R482, R483, R494): staging is discarded, and the pass starts again. -/
def resync (s : State) (cause : Nat) : State :=
  let s := (s.inc64 Reg.RPL_RESYNCS).add64 Reg.RPL_RXVOID s.rpl.stagedFrames
  let s := s.modRpl fun r => { r with
    staged := [], stagedFrames := 0, gotMain := false, gotSide := false, passFrom := none, ackWorked := false, mismatch := false }
  (((s.setB Fld.RPL_STATUS_PASSDONE false).emit 0x13 0x140A 3 58 (p4 [cause])).showElig).ackOut true

/-! ### The Custody line (R473 to R478) -/

/-- A standby becomes BLOCKED (R478). -/
def blockStandby (s : State) (report : Bool) : State :=
  (((s.setRole 4).inc64 Reg.RPL_BLOCKS).emit 0x13 0x1404 4 58 (p4 [s.far, b2n report])).showElig

/-- The role STANDBY, from which a line fault seen here or reported by the partner leads to BLOCKED (R478). -/
def standBy (s : State) : State :=
  let s := s.setRole 3
  if s.far = 3 ∨ s.far = 4 ∨ s.rpl.partnerFault then s.blockStandby s.rpl.partnerFault else s.showElig

/-- Start a claim (R475): the own wire goes HIGH. -/
def startClaim (s : State) (cold boot : Bool) : State :=
  (s.inc64 Reg.RPL_CLAIMS).modRpl fun r => { r with
    driving := true, level := true, negotiating := none
    claim := some { startAt := s.time.clock, stuck := s.far == 2, cold, boot := if boot then r.negotiating else none } }

/-- What every claim needs (R474, R475): paired, not latched, no claim running, and a Triad in TRIAD or DUO. -/
def mayClaim (s : State) : Bool :=
  s.paired && !s.rpl.latched && s.rpl.claim.isNone && (s.triadMode == 1 || s.triadMode == 2)

/-- Negotiation ends with STANDBY (3) or BLOCKED (4), whose entry is counted (R477, R496); with the runtime RUNNING the start is complete (R511). -/
def settle (s : State) (role : Nat) : State :=
  let s := s.modRpl fun r => { r with negotiating := none }
  let s := if role = 3 then s.standBy else ((s.setRole role).inc64 Reg.RPL_BLOCKS).showElig
  if s.getF Fld.RTS_STATE_STATE = 1 then s.startDone else s

/-- The role that a negotiating module takes from its far wire, where it does not claim (R477). -/
def negotiate (s : State) : State := if s.far = 1 then s.settle 3 else if s.far ≠ 0 then s.settle 4 else s

/-- Of two custodians the one with SIDE = 1 releases (R476). -/
def dualRelease (s : State) : State :=
  if s.side = 1 then (s.emit 0x13 0x1409 5 58 (p4 [s.side])).releaseCustody 3 5 else s

/-- A custodian meets a line fault: PEER_ELIG falls, the event is written, and the partner is told in a frame like the standby's
ACK (R478; DEDUCED, assumption 128). -/
def lineFaulty (s : State) : State := ((s.setPeerElig false).emit 0x13 0x1405 4 58 (p4 [s.far])).ackOut false

/-- Line supervision of a new reading (R476 to R478); `was`: the reading before it was a line fault already, so that
RPL_LINE_FAULT has been written (DEDUCED, assumption 110); the end of a fault is reported too (DEDUCED, assumption 128). -/
def superviseLine (s : State) (was : Bool) (r : FarWire) : State :=
  if s.role = 2 then
    if r = .claimed then s.dualRelease
    else if s.lineFault then
      if was then s.setPeerElig false else s.lineFaulty
    else if was then s.ackOut false else s
  else if s.role = 3 then
    if r = .openWire ∨ r = .short then s.blockStandby false else s
  else if s.role = 0 && s.rpl.negotiating.isSome && s.rpl.claim.isNone then s.negotiate
  else s

/-- A new reading of the far wire is taken (R473). -/
def farReading (s : State) (r : FarWire) : State :=
  if r = s.rpl.reading then s
  else
    let code := farCode r
    let was := s.lineFault
    let good (c : Nat) : Bool := c == 0 || c == 1
    let s := s.modRpl fun x => { x with
      reading := r
      goodSince := if good code && good s.far then x.goodSince else s.time.clock
      farSince := if code == 0 || code == 2 then (if s.far == 0 || s.far == 2 then x.farSince else some s.time.clock) else none
      noTakeoverSaid := x.noTakeoverSaid && (code == 0 || code == 2) }
    (s.setF Fld.RPL_STATUS_FARWIRE code).superviseLine was r

/-- What the Custody logic takes from the level of the far wire, which has been in its band since a clock (R473): a reading in
a band must hold for 2 µs, OPEN and SHORT for more than 10 µs; HIGH and LOW in turn are CLAIMED, one of them for more than 750
µs is STUCK. With PAIRED = 0 the module ignores X2 (R471). -/
def farSettle (s : State) : State :=
  let held := s.time.clock - s.rpl.bandAt
  let take (s : State) (b : WireBand) : State := s.modRpl fun r => { r with took := some b }
  let level (b other : WireBand) (stuck : FarWire) : State :=
    if held < 2000 then s
    else
      let fresh := s.rpl.took != some b
      let alt := s.rpl.took == some other
      let s := take s b
      let s := if alt then s.farReading .claimed else s
      let s := if fresh && b == .high && !s.rpl.begunStuck && s.role == 2 then s.dualRelease else s
      if 750000 < held then s.farReading stuck else s
  if !s.paired then s
  else match s.rpl.band with
    | some .released => if held < 2000 then s else (take s .released).farReading .released
    | some .openWire => if held ≤ 10000 then s else (take s .openWire).farReading .openWire
    | some .short => if held ≤ 10000 then s else (take s .short).farReading .short
    | some .high => level .high .low .stuckHigh
    | some .low => level .low .high .stuckLow
    | none => s

/-- The level of the far wire is sensed: what it was up to now has been read, and a level in another band begins (R473). -/
def farLevel (s : State) (mv : Nat) : State :=
  let s := s.farSettle
  let b := wireBand mv
  if !s.paired ∨ b = s.rpl.band then s else s.modRpl fun r => { r with band := b, bandAt := s.time.clock }

/-- The own wire returns to released: the claim is lost, and a module at start-up negotiates on, with its delay counted from the
start of negotiation (R475, R477). -/
def loseClaim (s : State) (c : Claim) : State :=
  let s := (s.inc64 Reg.RPL_CLAIMLOST).modRpl fun r => { r with
    driving := false, claim := none, negotiating := if c.boot.isSome then c.boot else r.negotiating }
  if c.boot.isSome then s.negotiate else s

/-- What is staged and not applied when custody is gained is discarded (R483; DEDUCED, assumption 128). -/
def voidStaged (s : State) : State :=
  (s.add64 Reg.RPL_RXVOID s.rpl.stagedFrames).modRpl fun r => { r with staged := [], stagedFrames := 0 }

/-- Custody is held from this instant (R475): a standby resumes at the first edge at least 2 µs later (R486), and a module
at start-up starts its runtime. -/
def gainCustody (s : State) (c : Claim) : State :=
  let s := (s.voidStaged.setRole 2).modRpl fun r => { r with
    claim := none, begunStuck := c.stuck, resume := if c.boot.isSome then none else some (s.time.clock, c.cold) }
  let s := (s.setB Fld.TRDP_STATUS_CUST true).showElig
  if s.lineFault then s.lineFaulty else s

/-- The reading of the far wire 2 µs after a claim began (R475). A module that has become BLOCKED in the meantime, or whose
Triad has left TRIAD and DUO, holds no custody: its wire returns to released (R475, R478; DEDUCED, assumption 110). -/
def checkClaim (s : State) (c : Claim) : State :=
  let high := s.rpl.band == some .high
  if !(s.role == 0 || s.role == 3) || !(s.triadMode == 1 || s.triadMode == 2) then
    s.modRpl fun r => { r with driving := false, claim := none }
  else if c.stuck then (if s.far = 2 then s.gainCustody c else (s.loseClaim c).standBy)
  else if (high || s.far == 1) && s.side == 1 then s.loseClaim c
  else s.gainCustody c

/-! ### Snapshots (R480, R481) -/

/-- The snapshot of an edge: what is still pending, the dirty lines up to 1,024, and the next walker lines. Dirty lines stand in
rising order, and walker lines after them. -/
def snapshot (s : State) (walkers : Bool) : State :=
  let r := s.rpl
  let snap := (r.dirty.take 1024).foldl (fun l x => insertUp x l) r.snap
  let w := if walkers then (List.range 64).map (fun i => (r.mainPos + i) % mainLines) ++
    (List.range 16).map (fun i => sideLine ((r.sidePos + i) % sideLines)) else []
  let walk := r.walk ++ w.filter fun x => !r.walk.contains x
  s.modRpl fun r => { r with
    snap := snap
    walk := walk.filter fun x => !snap.contains x
    dirty := r.dirty.drop 1024
    captured := []
    snapVoid := decide (1024 < r.dirty.length)
    snapOpen := true
    snapBeat := s.time.beat - 1
    snapMono := s.time.edgeStart
    snapWraps := if walkers then b2n (decide (mainLines ≤ r.mainPos + 64)) + 2 * b2n (decide (sideLines ≤ r.sidePos + 16)) else 0
    mainPos := if walkers then (r.mainPos + 64) % mainLines else r.mainPos
    sidePos := if walkers then (r.sidePos + 16) % sideLines else r.sidePos }

/-- The pending lines in shipping order (R481). -/
def pendingLines (s : State) : List Nat := s.rpl.snap ++ s.rpl.walk

/-- The record of a pending line: its content at the edge of the snapshot (R480, R482). -/
def pendingRecord (s : State) (l : Nat) : List Byte :=
  leBytes 4 l ++ match s.rpl.captured.find? fun c => c.1 == l with
    | some c => c.2
    | none => s.memRead (s.lineAddr l) 256

/-- Records leave, 8 to a frame (R482). -/
def sendLines (s : State) (beat : Nat) (recs : List (List Byte)) : State :=
  (List.range ((recs.length + 7) / 8)).foldl (fun s i =>
    let part := (recs.drop (8 * i)).take 8
    s.sendFrame 1 part.length beat part.flatten) s

/-- The marker of a snapshot (R482). -/
def sendMarker (s : State) (beat : Nat) (recs : List (List Byte)) : State :=
  s.sendFrame 2 0 beat (leBytes 4 recs.length ++ leBytes 8 (crc64 recs.flatten) ++ leBytes 8 s.rpl.snapMono ++
    leBytes 8 (s.rd64 Reg.RTS_PROGID) ++ leBytes 1 s.rpl.snapWraps ++ leBytes 1 s.triadMode ++ List.replicate 34 0)

/-- Whether E(n) + 240 µs has not passed (R481, R490). -/
def inShipTime (s : State) : Bool := decide (s.time.mono ≤ s.time.edgeStart + 240000)

/-- Shipping ends: with everything shipped in time the marker follows, else the rest joins the next snapshot (R481); nothing is
shipped while the link is down. -/
def shipEnd (s : State) (shipped : Nat) : State :=
  let l := s.pendingLines
  let k := if s.bit Fld.RPL_STATUS_LINKUP then min shipped l.length else 0
  let recs := (l.take k).map s.pendingRecord
  let s := (s.modRpl fun r => { r with wire := [] }).sendLines s.rpl.snapBeat recs
  let s := if k = l.length ∧ !s.rpl.snapVoid ∧ s.inShipTime then s.sendMarker s.rpl.snapBeat recs else s
  s.modRpl fun r => { r with
    snap := r.snap.drop k, walk := r.walk.drop (k - r.snap.length), snapOpen := false, captured := [] }

/-! ### Received frames (R482, R483) -/

/-- The bytes of a line record, over which the marker's CRC-64 runs (R482). -/
def lineRecord (l : RplLine) : List Byte := leBytes 4 l.line ++ l.bytes

/-- One line record is written into the staging area at RPL_STAGEBASE, in place of an older one of its line (R483). Records stand
there one after the other (DESIGN CHOICE, assumption 134). -/
def stageLine (s : State) (beat : Nat) (x : Nat × List Byte) : State :=
  let slot := match s.rpl.staged.find? fun y => y.line == x.1 with
    | some y => y.slot
    | none => s.rpl.staged.length
  let base := s.getF Fld.RPL_STAGEBASE_BASE * 0x400000
  let s := s.modRpl fun r => { r with staged := (r.staged.filter fun y => y.line != x.1) ++ [⟨x.1, x.2, beat, slot⟩] }
  if base = 0 ∨ 0x400000000 < base + 0x400000 ∨ stageLines ≤ slot then s
  else s.memWrite (base + 260 * slot) (leBytes 4 x.1 ++ x.2)

/-- The line records of a frame are staged. -/
def stageLinesIn (s : State) (beat : Nat) (recs : List (Nat × List Byte)) : State :=
  let s := recs.foldl (fun s x => s.stageLine beat x) s
  let s := s.modRpl fun r => { r with stagedFrames := r.stagedFrames + 1 }
  if stageLines < s.rpl.staged.length then s.resync 2 else s

/-- Apply every staged line to its area (R483). The Replica link is the only writer of a standby's areas (R479). -/
def applyStaged (s : State) : State :=
  let l := s.rpl.staged.filter fun x => lineInArea x.line
  let s := l.foldl (fun s x => (s.ownLines (s.lineAddr x.line) 256).memPut (s.lineAddr x.line) (x.bytes.take 256)) s
  let s := s.add64 Reg.RPL_RXAPPLIED (s.rpl.stagedFrames + 1)
  s.modRpl fun r => { r with staged := [], stagedFrames := 0 }

/-- The standby sends an ACK for a marker (R482). -/
def sendAck (s : State) : State := (s.ackOut false).modRpl fun r => { r with ackSent := true, ackWorked := true }

/-- A marker arrives (R483): its count and CRC-64 are those of the staged records of its snapshot, or staging is
discarded. -/
def marker (s : State) (beat count crc mono progId : Nat) (mw sw : Bool) (mode : Nat) : State :=
  let recs := s.rpl.staged.filter fun x => x.beat == beat
  if recs.length ≠ count ∨ crc64 (recs.flatMap lineRecord) ≠ crc then
    (s.inc64 Reg.RPL_RXVOID).resync 1
  else
    let s := (s.applyStaged.wr64 Reg.RPL_LASTBEAT beat).inc64 Reg.RPL_MARKERS
    let s := s.modRpl fun r => { r with
      gotMain := r.gotMain || mw
      gotSide := r.gotSide || sw
      passFrom := some (r.passFrom.getD beat)
      mismatch := r.mismatch || decide (beat + 1 ≠ s.time.beat)
      peerProg := some progId
      peerMode := mode
      snapMonoFar := mono
      snapMonoOwn := s.time.edgeStart }
    let r := s.rpl
    let pass := r.gotMain && r.gotSide && decide (r.passFrom.getD beat + 1024 ≤ beat + 1)
    let s := if pass then s.setB Fld.RPL_STATUS_PASSDONE true else s
    s.showElig.sendAck.showElig

/-- A custodian that has handed over needs a full pass before it is eligible (R490). -/
def passAfresh (s : State) : State :=
  ((s.modRpl fun r => { r with gotMain := false, gotSide := false, passFrom := none }).setB Fld.RPL_STATUS_PASSDONE false).showElig

/-- A planned switch-over ends with a result (R490, R494). -/
def handoverEnd (s : State) (h result : Nat) : State :=
  (((s.setF Fld.RPL_HOSTAT_RESULT result).modRpl fun r => { r with handover := none, handoverRun := false }).emit
    0x13 0x1403 2 58 (p8 [h] ++ p4 [result]))

/-- The package that the standby had confirmed 2 µs before this instant (R208). -/
def confirmedPkg (s : State) : Nat :=
  ((s.rpl.ackPkgs.find? fun x => decide (x.1 + 2000 ≤ s.time.clock)).map fun x => x.2).getD 0

/-- What the partner tells of its identity with a frame (R485). -/
def seePeer (s : State) (p : Peer) : State := s.modRpl fun r => { r with peer := some p }

/-- An ACK arrives (R478, R485, R490, R492): a custodian takes the standby's eligibility and may hand over; a standby takes
a reported line fault. -/
def ackFrame (s : State) (lastBeat inelig pkgId mode : Nat) (lineFault : Bool) : State :=
  let s := s.inc64 Reg.RPL_RXAPPLIED
  let s := s.modRpl fun r => { r with partnerFault := lineFault, peerMode := mode }
  if s.role = 2 then
    let bad := lineFault || s.lineFault
    let s := (s.setPeerElig (inelig == 0 && !bad)).modRpl fun r => { r with lastAck := some s.time.beatSeq, ackWorked := true }
    let s := ((s.wr64 Reg.RPL_LASTBEAT lastBeat).wr Reg.RPL_PEERPKG pkgId).modRpl fun r => { r with
      ackPkgs := (s.time.clock, pkgId) :: (r.ackPkgs.filter fun x => decide (s.time.clock < x.1 + 2000)) ++
        ((r.ackPkgs.filter fun x => decide (x.1 + 2000 ≤ s.time.clock)).take 1) }
    match s.rpl.handover with
    | some h =>
      if s.rpl.handoverRun && lastBeat + 1 == h && s.inShipTime then
        (((s.handoverEnd h 2).inc64 Reg.RPL_HANDOVERS).releaseCustody 2 3).standBy.passAfresh
      else s
    | none => s
  else if s.role = 3 && lineFault then s.blockStandby true
  else s

/-! ### The beat edge -/

/-- The own wire changes its level at every edge while custody is held (R473). -/
def toggleWire (s : State) : State :=
  if s.rpl.driving && s.role == 2 then s.modRpl fun r => { r with level := !r.level } else s

/-- Whether a resumption is due at this edge: custody was gained at least 2 µs before (R486). -/
def resumeDue (s : State) : Option Bool :=
  match s.rpl.resume with
  | some (at_, cold) => if at_ + 2000 ≤ s.time.clock && s.role == 2 then some cold else none
  | none => none

/-- The registers and the event of a resumption (R488): cause 1 for a release seen, 2 for a cold takeover. -/
def takeoverShown (s : State) (cold : Bool) : State :=
  let s := s.modRpl fun r => { r with resume := none }
  let s := if cold then s else s.wrI64 Reg.RPL_MONOOFS ((s.rpl.snapMonoOwn : Int) - s.rpl.snapMonoFar)
  let s := (s.wr64 Reg.RPL_TAKEOVER_MT s.time.mt).inc64 Reg.RPL_TAKEOVERS
  s.emit 0x13 0x1401 5 58 (p8 [s.time.beat, s.rd64 Reg.RPL_LASTBEAT] ++ p4 [if cold then 2 else 1])

/-- No ACK in the last 3 beats: PEER_ELIG reads 0 (R485). -/
def ackAge (s : State) : State :=
  match s.rpl.lastAck with
  | some a => if s.bit Fld.RPL_STATUS_PEER_ELIG && decide (a + 3 < s.time.beatSeq) then s.setPeerElig false else s
  | none => s

/-- R491: in DUO with DUOHAND and an eligible partner in TRIAD, a planned switch-over is armed once for the first edge at
least 4 beats later. -/
def duoArm (s : State) : State :=
  if s.triadMode ≠ 2 then s.modRpl fun r => { r with duoTried := false }
  else if s.role = 2 && !s.rpl.duoTried && s.rpl.handover.isNone && s.bit Fld.RPL_CFG_DUOHAND && s.rpl.peerMode == 1
      && s.rpl.peerElig then
    (s.modRpl fun r => { r with duoTried := true, handover := some (s.time.beat + 4) }).setF Fld.RPL_HOSTAT_RESULT 1
  else s

/-- E(h) of a planned switch-over (R490): refused without an eligible partner, else no task is released at this edge; one that
still runs at the next edge has been aborted. -/
def handoverEdge (s : State) : State :=
  match s.rpl.handover with
  | some h =>
    if s.rpl.handoverRun then s.handoverEnd h 4
    else if s.time.beat < h then s
    else if !s.rpl.peerElig ∨ s.role ≠ 2 then s.handoverEnd h 3
    else s.modRpl fun r => { r with handoverRun := true, handover := some s.time.beat }
  | none => s

/-- Whether this edge is E(h) of a switch-over that runs. -/
def handoverNow (s : State) : Bool := s.rpl.handoverRun && s.rpl.handover == some s.time.beat

/-- BEHIND and REPLICA_BEHIND of a standby (R485); a module in another role is behind no custodian (DEDUCED, assumption 134). -/
def behindEdge (s : State) : State :=
  if s.role ≠ 3 ∧ s.role ≠ 4 then (s.setF Fld.RPL_STATUS_BEHIND 0).setB Fld.RPL_STATUS_REPLICA_BEHIND false
  else
    let b := min 255 (s.time.beat - 2 - s.rd64 Reg.RPL_LASTBEAT)
    let was := s.bit Fld.RPL_STATUS_REPLICA_BEHIND
    let s := (s.setF Fld.RPL_STATUS_BEHIND b).setB Fld.RPL_STATUS_REPLICA_BEHIND (decide (1 ≤ b))
    if decide (1 ≤ b) && !was then (s.inc64 Reg.RPL_BEHINDS).emit 0x13 0x1406 3 58 (p4 [b]) else s

/-- A standby sends an ACK at least once per beat (R482). -/
def ackEdge (s : State) : State :=
  let s := if (s.role = 3 ∨ s.role = 4) ∧ s.bit Fld.RPL_STATUS_LINKUP ∧ !s.rpl.ackSent then s.ackOut false else s
  s.modRpl fun r => { r with ackSent := false }

/-- Whether the far wire has read RELEASED or STUCK for 3 beats (R487). -/
def farGone (s : State) : Bool :=
  (s.far == 0 || s.far == 2) && decide ((s.rpl.farSince.getD 0) + 750000 ≤ s.time.clock)

/-- R487: a standby that fails only code 3 or 4 and has read RELEASED or STUCK for 3 beats takes over cold, or says once for this
loss that it does not. -/
def coldEdge (s : State) : State :=
  let f := s.ineligible
  if s.role = 3 && f != [] && f.all (fun c => c == 3 || c == 4) && s.farGone then
    if s.bit Fld.RPL_CFG_AUTOCOLD then (if s.mayClaim then s.startClaim true false else s)
    else if s.rpl.noTakeoverSaid then s
    else (s.modRpl fun r => { r with noTakeoverSaid := true }).emit 0x13 0x1408 6 58 (p4 [f.headD 0])
  else s

/-- The pair at a beat edge before the runtime acts. -/
def rplEdgeEarly (s : State) : State := if s.paired then s.farSettle.toggleWire.ackAge.handoverEdge else s

/-- The pair at a beat edge after the runtime has committed and the Triad has settled its mode. -/
def rplEdgeLate (s : State) : State :=
  if !s.paired then s
  else
    let s := if s.role = 2 then s.snapshot (!s.handoverNow) else s
    s.duoArm.behindEdge.showElig.ackEdge.coldEdge

end State

/-! ### The commands -/

/-- FARWIRE_READING (R473, R476, R478): the level of the far wire in mV. -/
def execFarwireReading (dt : Nat) (mv : Nat) (s : State) : Host.Outcome State Fault Refusal :=
  .next ((s.elapse dt).farLevel mv)

/-- BLOCKED_RECOVERY (R478): RELEASED or CLAIMED for 1 s and no fault reported by the partner. -/
def execBlockedRecovery (dt : Nat) (s : State) : Host.Outcome State Fault Refusal :=
  let s := (s.elapse dt).farSettle
  .next (
    if s.role = 4 && (s.far == 0 || s.far == 1) && !s.rpl.partnerFault
        && decide (s.rpl.goodSince + 1000000000 ≤ s.time.clock) then s.standBy
    else s)

/-- CUSTODY_ENABLE_LOSS (R474): the own wire has not changed for up to 500 µs; the enable falls and RELEASED is latched. -/
def execCustodyEnableLoss (dt : Nat) (s : State) : Host.Outcome State Fault Refusal :=
  let s := s.elapse dt
  .next (
    if s.role = 2 then (s.releaseCustody 0 5).modRpl fun r => { r with latched := true, driving := false } else s)

/-- CUSTODY_CLAIM (R475, R486): an eligible standby whose far wire reads RELEASED or STUCK. -/
def execCustodyClaim (dt : Nat) (s : State) : Host.Outcome State Fault Refusal :=
  let s := (s.elapse dt).farSettle
  .next (
    if s.mayClaim && s.role == 3 && s.ineligible.isEmpty && (s.far == 0 || s.far == 2) then s.startClaim false false
    else s)

/-- CLAIM_CHECK (R475): 2 µs after the wire went HIGH, with the level of the far wire in mV as the check finds it. -/
def execClaimCheck (dt : Nat) (mv : Nat) (s : State) : Host.Outcome State Fault Refusal :=
  let s := (s.elapse dt).farLevel mv
  .next (match s.rpl.claim with
    | some c => if c.startAt + 2000 ≤ s.time.clock then s.checkClaim c else s
    | none => s)

/-- CUSTODY_NEGOTIATION_DELAY (R477): 0 ms for SIDE 0 and 500 ms for SIDE 1 after the start of negotiation. -/
def execCustodyNegotiationDelay (dt : Nat) (s : State) : Host.Outcome State Fault Refusal :=
  let s := (s.elapse dt).farSettle
  .next (match s.rpl.negotiating with
    | some at_ =>
      if s.time.clock < at_ + (if s.side = 1 then 500000000 else 0) then s
      else if s.far = 0 then (if s.mayClaim then s.startClaim false true else s)
      else s.negotiate
    | none => s)

/-- REPLICA_SHIP_DEADLINE (R481): all lines have left, or E(n) + 240 µs has come. -/
def execReplicaShipDeadline (dt shipped : Nat) (s : State) : Host.Outcome State Fault Refusal :=
  let s := s.elapse dt
  .next (
    if s.rpl.snapOpen && (decide (s.pendingLines.length ≤ shipped) || decide (s.time.edgeStart + 240000 ≤ s.time.mono)) then
      s.shipEnd shipped
    else s)

/-- REPLICA_FRAME_RX (R482, R483): the link writes the areas of a module that does not hold custody, and of no other (R29,
R479). A frame that is none of R482 is discarded (DESIGN CHOICE, assumption 134). -/
def execReplicaFrameRx (dt : Nat) (peer : Peer) (frame : List Byte) (s : State) : Host.Outcome State Fault Refusal :=
  let s := s.elapse dt
  .next (
    if !s.paired ∨ !s.bit Fld.RPL_STATUS_LINKUP then s
    else
      let s := s.inc64 Reg.RPL_RXFRAMES
      let standby := s.role = 3 ∨ s.role = 4
      match replicaFrame frame with
      | .bad => s.inc64 Reg.RPL_RXCRC
      | .odd => s.inc64 Reg.RPL_RXVOID
      | .lines beat recs => if standby then (s.seePeer peer).stageLinesIn beat recs else (s.seePeer peer).inc64 Reg.RPL_RXVOID
      | .marker beat count crc mono progId mw sw mode =>
        let s := s.seePeer peer
        if standby then s.marker beat count crc mono progId mw sw mode else s.inc64 Reg.RPL_RXVOID
      | .ack _ lastBeat inelig pkgId mode lineFault _ => (s.seePeer peer).ackFrame lastBeat inelig pkgId mode lineFault)

/-- REPLICA_COPY_ON_WRITE (R480): the capture of a pending line before a write to it, which every write that passes the Replica
port makes for its lines. -/
def execReplicaCopyOnWrite (dt line : Nat) (s : State) : Host.Outcome State Fault Refusal :=
  let s := s.elapse dt
  .next (s.captureLine line)

/-- REPLICA_LINK_CHANGE (R478, R485, R494): a link that returns asks a standby to resynchronise, and a custodian reports a line
fault that it still sees. -/
def execReplicaLinkChange (dt : Nat) (up : Bool) (s : State) : Host.Outcome State Fault Refusal :=
  let s := s.elapse dt
  let was := s.bit Fld.RPL_STATUS_LINKUP
  .next (
    if !s.paired ∨ was = up then s
    else
      let s := s.setB Fld.RPL_STATUS_LINKUP up
      let again := up && s.rpl.linkSeen && s.role != 2
      let s := s.modRpl fun r => { r with linkSeen := r.linkSeen || up }
      if again then s.resync 3 else if up && s.role == 2 && s.lineFault then s.ackOut false else s)

/-- A planned switch-over is armed (R490, R495). -/
def State.handoverArm (s : State) (key : Nat) : State :=
  let h := s.rd64 Reg.RPL_HOTARGET
  if key ≠ 0x6E ∨ s.rpl.handoverRun then s
  else if s.role ≠ 2 ∨ !s.rpl.peerElig then s.handoverEnd h 3
  else (s.modRpl fun r => { r with handover := some h }).setF Fld.RPL_HOSTAT_RESULT 1

/-- RPL_HANDOVER_ARM (R490, R495). -/
def execRplHandoverArm (dt : Nat) (req : Requester) (key : Byte) (s : State) : Host.Outcome State Fault Refusal :=
  let s := s.elapse dt
  .next (s.regCmd req Reg.RPL_CTL fun s => s.handoverArm key.toNat)

/-- The planned switch-over is withdrawn before E(h) (R490). -/
def State.handoverCancel (s : State) (key : Nat) : State :=
  match s.rpl.handover with
  | some h => if key = 0x6E ∧ !s.rpl.handoverRun then s.handoverEnd h 5 else s
  | none => s

/-- RPL_HANDOVER_CANCEL (R490): before E(h). -/
def execRplHandoverCancel (dt : Nat) (req : Requester) (key : Byte) (s : State) : Host.Outcome State Fault Refusal :=
  let s := s.elapse dt
  .next (s.regCmd req Reg.RPL_CTL fun s => s.handoverCancel key.toNat)

/-- HANDOVER_DEADLINE (R490): no ACK by E(h) + 240 µs; the custodian keeps custody. -/
def execHandoverDeadline (dt : Nat) (s : State) : Host.Outcome State Fault Refusal :=
  let s := s.elapse dt
  .next (match s.rpl.handover with
    | some h => if s.rpl.handoverRun && decide (s.time.edgeStart + 240000 ≤ s.time.mono) then s.handoverEnd h 4 else s
    | none => s)

end Sys2Proof.Machine
end

