-- ==== Sys2Proof/Machine/Boot.lean ====
section
/-! DEFINITION. Module reset and start-up (R45, R52, R128, R498, R502, R508 to R512, R556, R566 to R568, R579): the reset of
every block, the coding plug, start-up LBIST, ROM, Docent, and the start of custody negotiation. -/

namespace Sys2Proof.Machine

/-- A register word or run of words of which bits survive a module reset: first word, count, stride, bits. -/
structure KeepRow where
  addr : Nat
  count : Nat
  stride : Nat
  mask : Nat
  deriving DecidableEq, Repr

/-- What survives a module reset beside the RWL fields: identities, fuses and boot state, the positions that R452 and R541
keep, the store's usage, the links of the Cascade switch, which runs in reset (R427), and what R554 and R556 keep. -/
def keepRows : List KeepRow := [
  ⟨0x0, 1, 4, 0xFFFFFFFF⟩,          -- SYS_IDENT
  ⟨0x10, 2, 4, 0xFFFFFFFF⟩,         -- SYS_SERIAL
  ⟨0x150000, 1, 4, 0x107⟩,          -- LCS_STATE
  ⟨0x15002C, 1, 4, 0x3FF⟩,          -- LCS_KEYS
  ⟨0x150030, 1, 4, 0x70F03⟩,        -- LCS_BOOTINFO but CYCLEOK
  ⟨0x150034, 3, 4, 0xFFFFFFFF⟩,     -- LCS_FWVER, LCS_ROLLBACK, LCS_FMT
  ⟨0x150040, 2, 4, 0xFFFFFFFF⟩,     -- LCS_SERIAL
  ⟨0x150060, 2, 4, 0xFFFFFFFF⟩,     -- LCS_CVENTRIES
  ⟨0x121004, 64, 0x80, 0x13FFF⟩,    -- ARC_CSTAT: FULL, UNITS
  ⟨0x121008, 64, 0x80, 0xFFFFFFFF⟩, -- ARC_OLDEST
  ⟨0x12100C, 64, 0x80, 0xFFFFFFFF⟩,
  ⟨0x121010, 64, 0x80, 0xFFFFFFFF⟩, -- ARC_NEXTPOS
  ⟨0x121014, 64, 0x80, 0xFFFFFFFF⟩,
  ⟨0x170000, 1, 4, 0x1FFF⟩,         -- PRV_STATUS.FREE
  ⟨0x170008, 4, 4, 0xFFFFFFFF⟩,     -- PRV_NEXTSEQ, PRV_OLDEST
  ⟨0x160020, 4, 4, 0xFFFFFFFF⟩,     -- PWR_LASTNVSTOP, PWR_BKCOUNT
  ⟨0x110000, 1, 4, 0x3F00⟩,         -- CSC_STATUS: the links of the switch
  ⟨0x110004, 1, 4, 0xFF⟩,           -- CSC_MEMBERS
  ⟨0x110100, 2, 0x200, 0xF7⟩        -- CSC_LINK
]

/-- Whether a row names a word. -/
def KeepRow.covers (r : KeepRow) (a : Nat) : Bool :=
  decide (r.addr ≤ a) && (a - r.addr) % r.stride == 0 && decide ((a - r.addr) / r.stride < r.count)

/-- Whether a word shows Garnet itself, which a module reset does not touch (R165, R179): the GAR block but for the counters
of its interface, the command registers and the command window. -/
def garnetWord (a : Nat) : Bool :=
  a / 0x10000 == 0x05 && !(decide (0x50100 ≤ a ∧ a < 0x50118)) && !(decide (0x50080 ≤ a ∧ a < 0x50088)) &&
    !(decide (0x51000 ≤ a ∧ a < 0x52000))

/-- The bits of a register word that survive a module reset: RWL fields, which hold the sealed configuration (DEDUCED from
R17 and R123, assumption 15), and those of `keepRows`. -/
def keepMask (a : Nat) : Word :=
  let rwl := match layRow a with
    | some r => r.rwl
    | none => 0
  let row := match keepRows.find? fun r => r.covers a with
    | some r => r.mask
    | none => 0
  if garnetWord a then 0xFFFFFFFF else BitVec.ofNat 32 (rwl ||| row)

/-- A register file after a module reset. -/
def resetRegs (l : List (Nat × Word)) : List (Nat × Word) :=
  l.filterMap fun x =>
    let m := keepMask x.1
    let v := (x.2 &&& m) ||| (Config.resetWord x.1 &&& ~~~m)
    if v = Config.resetWord x.1 then none else some (x.1, v)

/-- What the coding plug tells: SIDE, position and node; `none` for a faulty plug (R566 to R568). -/
def plugIdentity (p : PlugRead) : Option (Nat × Nat × Nat) :=
  match p.memory with
  | some m =>
    let f (i n : Nat) : Nat := leNat ((m.drop i).take n)
    if p.present && m.length == 256 && f 0 4 == 0x4B504C47 && f 4 1 == 1 && f 252 4 == crc32c (m.take 252)
        && f 5 1 % 16 == p.pins % 16 then
      some (p.pins % 2, p.pins / 2 % 8, f 8 4)
    else none
  | none => none

/-- The cause codes of a module reset (R579). -/
def causeCode : ResetCause → Nat
  | .powerApplied => 0
  | .orderly => 1
  | .restart => 2
  | .conservator => 3
  | .overTemp => 4

/-- The blocks that are tested only at start-up (R514). -/
def startOnly (b : Nat) : Bool := [0x00, 0x01, 0x02, 0x04, 0x05, 0x06, 0x13, 0x14, 0x15, 0x16, 0x19, 0x1A].contains b

/-- A module reset as field I/O sees it (R45, R253, R268): the isolated side keeps filters, latches and supply. -/
def fioReset (f : FioSt) : FioSt :=
  { ch := f.ch.map fun x => (x.1, { x.2 with
      lost := true, cplFault := false, cplOk := true, cplHeld := none, dis := 0, xchk := false, xchkShown := false
      cfgErr := false, failedNow := false })
    grp := f.grp.map fun x => (x.1, { x.2 with started := false, index := 0, outStates := none, inStates := none
                                               edgeFrame := none, gotIn := false, gotOut := false, badIn := 0, badOut := 0, good := 0 }) }

namespace State

/-- Every block at its reset values; what MRAM, flash, fuses, the backup domain, Garnet, the waiting commands and the isolated
sides of field I/O hold is kept (R45, R253, R451, R459, R462, R498), and the module's own class (R5). A start that did not
complete is counted (R511); a module that was held in reset had none. -/
def clearBlocks (s : State) : State :=
  let fails := min 3 (s.getF Fld.LCS_BOOTINFO_FAILSTARTS + if s.lcs.started || s.lcs.phase == .off then 0 else 1)
  let t : State := {
    pending := s.pending
    regs := resetRegs s.regs
    mem := s.mem
    freeCtr := s.freeCtr
    time := { clock := s.time.clock, mt := s.time.mt, edgeAt := s.time.edgeAt }
    arc := { seqs := s.arc.seqs, store := s.arc.store, freed := s.arc.freed, units := s.arc.units.map fun u => { u with placed := 0 }
             held := s.arc.held ++ s.arc.releasing.map fun x => (s.arc.nextUnit, x.2)
             nextUnit := s.arc.nextUnit, carry := true }
    prv := { staged := s.prv.staged, stored := s.prv.stored }
    gar := s.gar
    rts := { endedForces := s.rts.forces ++ s.rts.endedForces.filter fun x => !(s.rts.forces.any fun y => y.1 == x.1) }
    fio := fioReset s.stopRefresh.fio
    csc := { membersNext := s.csc.membersNext, sent := s.csc.sent }
    lcs := { s.lcs with phase := .lbist, startOnlyFail := false, classMismatch := false, running := none, busy := none
                        transition := [], started := false } }
  let t := t.setB Fld.FIO_CLASS_CLASS (t.getF Fld.SYS_IDENT_CODE == 1)
  (t.showArc.setF Fld.LCS_BOOTINFO_FAILSTARTS fails).garModuleReset

/-- The catalogues whose EN survives are read again from DDR at the first edge (R32). -/
def reenableCats (s : State) : State :=
  catBlks.foldl (fun s b =>
    if s.rd (catReg b 0x2C) % 2 = 1 then (s.wr (catReg b 0x2C) 0).catEnable b else s) s

/-- Both Cascade ports are down, as after a supply that was absent (R427), in the orderly reset (R555) and with a faulty plug
(R568). -/
def cscPortsDown (s : State) : State :=
  let s := ((s.setF ⟨Reg.CSC_STATUS, 8, 6⟩ 0).wr Reg.CSC_MEMBERS 0).modCsc fun c => { c with membersNext := none, sent := [] }
  (List.range 2).foldl (fun s d => s.wr (Reg.CSC_LINK d) 0) s

/-- SYS_PLUGMEM shows the bytes of the identity memory as read; 0 where it did not answer (R578). -/
def showPlug (s : State) (m : List Byte) : State :=
  (List.range 64).foldl (fun s j => s.wr (Reg.SYS_PLUGMEM + 4 * j) (leNat ((m.drop (4 * j)).take 4))) s

/-- The coding plug is read (R566 to R568); a faulty one gives SIDE 0, position 0 and node 0 and keeps the Cascade ports down.
-/
def readPlug (s : State) (p : PlugRead) : State :=
  let m := p.memory.getD []
  let s := s.showPlug m
  match plugIdentity p with
  | some (side, pos, node) =>
    let s := (((s.setF Fld.SYS_PLUG_SIDE side).setF Fld.SYS_PLUG_POS pos).wr Reg.SYS_NODE node).setF Fld.RPL_STATUS_SIDE side
    let s := ((s.setF Fld.CSC_STATUS_POS pos).setB Fld.CSC_STATUS_MASTER (pos == 0)).setF Fld.CSC_MEMBERS_VEC
      (s.getF Fld.CSC_MEMBERS_VEC ||| 2 ^ pos)
    (List.range 4).foldl (fun s j => s.wr (Reg.SYS_VEHICLE j) (leNat ((m.drop (12 + 4 * j)).take 4))) s
  | none =>
    let s := ((s.cscPortsDown.setB Fld.CSC_STATUS_MASTER true).setF Fld.CSC_MEMBERS_VEC 1).setB Fld.SYS_PLUG_FAULT true
    s.emit 0x00 0x0101 5 60 []

/-- The whole-number start of module time (R52, R556): from the backup clock, or 0 where its content was lost. -/
def startTime (s : State) (env : ResetEnv) : State :=
  let mt := if env.bkKept then env.rtc % 18446744073709551616 else 0
  let s : State := { s with time := { s.time with mt, beat := mt / 250000, edgeAt := (mt / 250000 + 1) * 250000 }
                            pwr := { s.pwr with bkAt := s.time.clock } }
  let s := s.setB Fld.TIM_STATUS_RTC_VALID env.bkKept
  s.wr64 Reg.PWR_BKCOUNT (if env.bkKept then env.bkCount else 0)

/-- A module reset (R45, R52, R498, R500, R502, R556, R557, R568, R579). -/
def moduleReset (s : State) (cause : Nat) (env : ResetEnv) : State :=
  let tamper := s.lcs.tamperLatch && env.bkKept
  let s := if cause = 0 then { s with mem := s.mem.filter fun x => decide (0x1001000000 ≤ x.1) } else s
  let s := s.clearBlocks.startTime env
  let s := if cause = 0 then s.cscPortsDown else s
  let s := (s.setF Fld.SYS_RESET_CAUSE cause).emit 0x00 0x0102 2 60 (p4 [cause] ++ p8 [s.rd64 Reg.PWR_LASTNVSTOP])
  let s := (s.wr64 Reg.LCS_NONCE_LO env.nonceLo.toNat).wr64 Reg.LCS_NONCE_HI env.nonceHi.toNat
  let s := (s.setF Fld.LCS_STATE_STATE s.startState).setB Fld.LCS_STATE_TAMPER tamper
  let s := s.modLcs fun l => { l with tamperLatch := tamper }
  let s := (s.setF Fld.PWR_VBK_VCAP env.vcap).setF Fld.PWR_VBK_VBAK env.vbak
  let s := s.setB Fld.PWR_STATUS_VBAK_OK (decide (2500 ≤ env.vbak ∧ env.vbak ≤ 3600))
  let s := s.setB Fld.PWR_STATUS_BKLOST (!env.bkKept)
  let s := if env.bkKept then s else s.emit 0x16 0x1708 3 59 (p4 [env.vcap])
  let s := if tamper then s.emit 0x15 0x1609 5 60 [] else s
  (s.readPlug env.plug).reenableCats

/-! ### Start-up LBIST (R128, R512, R518) -/

/-- The lanes that failed decide the Triad's mode (R128). -/
def triadStart (s : State) (lanes : Nat) : State :=
  match (bitsOf 3 lanes) with
  | [] => s.setF Fld.TRIAD_STATUS_MODE 1
  | [l] =>
    let s := (s.setF Fld.TRIAD_STATUS_RETIRED (2 ^ l)).setF Fld.TRIAD_STATUS_MODE 2
    s.emit 0x02 0x0209 5 56 (p4 [l])
  | _ => s.triadSafe 10 0

/-- Start-up LBIST ends with its failed units. -/
def lbistDone (s : State) (failed : List (Fin 27 × Fin 16)) (ms : Nat) : State :=
  let s := failed.foldl (fun s x =>
    let s := s.setF (Fld.STE_FAILMAP_UNITS x.1.val) (s.getF (Fld.STE_FAILMAP_UNITS x.1.val) ||| 2 ^ x.2.val)
    s.setF Fld.STE_STARTFAIL_MAP (s.getF Fld.STE_STARTFAIL_MAP ||| 2 ^ x.1.val)) s
  let s := s.setF Fld.STE_STARTMS_MS ms
  let hard := failed.any fun x => startOnly x.1.val && !(x.1.val == 0x02 && decide (x.2.val < 3))
  let s := s.modLcs fun l => { l with phase := .rom, startOnlyFail := hard }
  let s := s.emit 0x14 0x1501 (if failed.isEmpty then 1 else 5) 60 (p4 [s.rd Reg.STE_STARTFAIL, s.rd Reg.STE_STARTMS])
  s.triadStart (s.getF (Fld.STE_FAILMAP_UNITS 0x02))

/-! ### ROM and Docent (R6, R508, R509, R511, R528) -/

/-- A stored image that passes R506 as an image of its kind. -/
def validStored (s : State) (x : Option Stored) (kind : Nat) : Option Stored :=
  match x with
  | some y => if s.imageCheck y.image kind = 0 then some y else none
  | none => none

/-- The newer valid copy of the boot configuration (R508). -/
def bootConfig (s : State) : Option Stored :=
  match s.validStored s.lcs.bootCfg0 3, s.validStored s.lcs.bootCfg1 3 with
  | some a, some b => if a.age ≤ b.age then some b else some a
  | some a, none => some a
  | none, b => b

/-- The boot configuration is applied (R6, R123, R222, R508). -/
def applyBoot (s : State) (body : List Byte) : State :=
  let s := s.setF Fld.APC_PAIRCFG_PAIRED (Config.bootPaired body).toNat
  let s := (List.range 8).foldl (fun s c => s.setF (Fld.APC_RESETVEC_VEC c) (Config.bootVector body c).toNat) s
  let cls := s.getF Fld.SYS_IDENT_CODE == 1
  let s := s.setB Fld.FIO_CLASS_CFGCLASS (Config.bootClass body)
  let s := s.setB Fld.FIO_CLASS_MISMATCH (Config.bootClass body != cls)
  let s := s.setB Fld.TRIAD_LOANCFG_PERMIT (Config.bootLoan body)
  let s := s.setF (Fld.APC_PAIRSTAT_STATE 0) (if s.heldDisabled 0x03 0 then 0 else 1)
  s.modLcs fun l => { l with classMismatch := Config.bootClass body != cls }

/-- ROM's step (R509, R511), with the address of the boot configuration for Conservator mode, where one is valid (R530). The failures are looked at in the order: WRITING, failed starts, boot configuration, Docent
(DESIGN CHOICE, assumption 16). -/
def romBoot (s : State) : State :=
  let ip : Nat := match s.bootConfig with
    | some cfg => (Config.bootIp cfg.image.body).toNat
    | none => 0xA9FE4D01
  let s := s.modLcs fun l => { l with ipConservator := ip }
  if s.lcs.writing then s.enterConservator 2
  else if 3 ≤ s.getF Fld.LCS_BOOTINFO_FAILSTARTS then s.enterConservator 5
  else match s.bootConfig with
    | none => s.enterConservator 4
    | some cfg =>
      let s := s.applyBoot cfg.image.body
      let copy (i : Nat) : Option Stored := if i = 0 then s.lcs.docent0 else s.lcs.docent1
      let named := s.lcs.docentNext
      let s := s.setB Fld.LCS_BOOTINFO_DOCENTFB false
      if (s.validStored (copy named) 2).isSome then
        (s.setF Fld.LCS_BOOTINFO_DOCENT named).modLcs fun l => { l with phase := .docent }
      else if (s.validStored (copy (1 - named)) 2).isSome then
        ((s.setF Fld.LCS_BOOTINFO_DOCENT (1 - named)).setB Fld.LCS_BOOTINFO_DOCENTFB true).modLcs
          fun l => { l with phase := .docent }
      else s.enterConservator 3

/-- Docent loads the firmware to DDR and places its own run-time part in the boot-state part (R509, R521); what of it, and
where, are free values (assumption 116). -/
def docentLoad (s : State) (fw : Image) : State :=
  let d := match if s.getF Fld.LCS_BOOTINFO_DOCENT = 0 then s.lcs.docent0 else s.lcs.docent1 with
    | some x => (Config.docentPart x.image.body).take (64 * (23552 - bootLines))
    | none => []
  (s.memWrite (Config.firmwareAt % (0x400000001 - fw.body.length)) fw.body).memWrite (bootPart + 64 * bootLines) d

/-- Docent starts the firmware (R509, R521, R528): a version or slot that has not been committed shows as UNCOMMITTED, and
the old copy comes back for a firmware of the older format. -/
def docentStart (s : State) : State :=
  match s.validStored s.lcs.firmware 1 with
  | none => s.enterConservator 1
  | some fw =>
    let img := fw.image
    let known := s.lcs.fwCommitted && s.rd Reg.LCS_FWVER == img.version % 4294967296
    let s := ((s.wr Reg.LCS_FWVER img.version).setF Fld.LCS_KEYS_FWSLOT img.keySlot).setB Fld.LCS_BOOTINFO_UNCOMMITTED (!known)
    let s := match s.lcs.oldCopy with
      | some (fmt, cells) =>
        if img.fmtVer = fmt then
          let s := (s.setF Fld.LCS_FMT_OLDFMT 0).setF Fld.LCS_FMT_FMT fmt
          let s := s.markDirty 0x1040000000 0x100000
          let s : State := { s with mem := s.mem.filter fun x => !decide (0x1040000000 ≤ x.1 ∧ x.1 < 0x1040100000) }
          (cells.foldl (fun (s : State) (x : Host.Cell) => s.memSet x.1 x.2) s).modLcs fun l => { l with oldCopy := none }
        else s
      | none => s
    let s := (s.docentLoad img).modLcs fun l => { l with phase := .executive, running := some img, fwCommitted := known }
    s.modTime fun t => { t with lockStart := some t.clock }

/-- Step 4 of the start is over (R509): each enabled Walira channel is ACTIVE, or 10 ms have passed since step 3. -/
def walStarted (s : State) : Bool :=
  decide (s.lcs.runAt + 10000000 ≤ s.time.clock) ||
    (List.range 2).all fun c => !(s.rd Reg.WAL_CTL).testBit c || s.getF (Fld.WAL_STATUS_STATE c) == 4

/-- Custody negotiation starts, after step 4 (R471, R477, R502, R509, R511, R568). With a faulty plug, a failed start-up-only block, in RETIRED or
with a runtime HALTED it never does, and the start is complete; nor does it without a running runtime or in the Triad's safe
state. -/
def custodyStart (s : State) : State :=
  if s.lcs.phase ≠ .firmware ∨ s.role ≠ 0 ∨ s.rpl.negotiating.isSome then s
  else if s.bit Fld.SYS_PLUG_FAULT ∨ s.lcs.startOnlyFail ∨ s.lcState = 4 ∨ s.getF Fld.RTS_STATE_STATE = 2 then s.startDone
  else if s.getF Fld.RTS_STATE_STATE ≠ 1 ∨ !(s.triadMode = 1 ∨ s.triadMode = 2) then s
  else if !s.walStarted then s
  else if !s.paired then (s.setRole 1).setB Fld.TRDP_STATUS_CUST true
  else if s.far = 0 then s.modRpl fun r => { r with negotiating := some s.time.clock }
  else s.negotiate

end State

/-! ### The commands -/

/-- POWER_APPLIED (R547, R555): the input is at or above 16.0 V; the module leaves reset and starts. After an orderly reset
the cause is 1, else the supply was absent. A module held for over-temperature stays in reset (R574). -/
def execPowerApplied (dt vin : Nat) (env : ResetEnv) (s : State) : Host.Outcome State Fault Refusal :=
  let s := s.elapse dt
  .next (
    if vin < 1600 ∨ s.pwr.heldHot then s
    else (s.moduleReset (if s.lcs.phase = .off then 1 else 0) env).setF Fld.PWR_VIN_VIN vin)

/-- MODULE_RESET (R45): a restart that was commanded, a Conservator RESET, the end of an orderly reset, of an
over-temperature reset, or of a loss of supply. -/
def execModuleReset (dt : Nat) (cause : ResetCause) (env : ResetEnv) (s : State) : Host.Outcome State Fault Refusal :=
  let s := s.elapse dt
  let may : Bool := match cause with
    | .powerApplied => !s.pwr.heldHot
    | .orderly => s.lcs.phase == .off && !s.pwr.heldHot
    | .restart => (match s.lcs.busy with
      | some b => b.act == .restart && b.result == 0
      | none => false)
    | .conservator => s.cv.resetDue
    | .overTemp => s.pwr.heldHot && s.lcs.phase == .off
  .next (if may then s.moduleReset (causeCode cause) env else s)

/-- STARTUP_LBIST_COMPLETE (R128, R512). -/
def execStartupLbistComplete (dt : Nat) (failed : List (Fin 27 × Fin 16)) (ms : Nat) (s : State) :
    Host.Outcome State Fault Refusal :=
  let s := s.elapse dt
  .next (if s.lcs.phase = .lbist then s.lbistDone failed ms else s)

/-- ROM_BOOT (R509). -/
def execRomBoot (dt : Nat) (s : State) : Host.Outcome State Fault Refusal :=
  let s := s.elapse dt
  .next (if s.lcs.phase = .rom then s.romBoot else s)

/-- DOCENT_START (R509). -/
def execDocentStart (dt : Nat) (s : State) : Host.Outcome State Fault Refusal :=
  let s := s.elapse dt
  .next (if s.lcs.phase = .docent then s.docentStart else s)

/-- CUSTODY_NEGOTIATION (R477, R509). -/
def execCustodyNegotiation (dt : Nat) (s : State) : Host.Outcome State Fault Refusal :=
  .next (s.elapse dt).farSettle.custodyStart

end Sys2Proof.Machine
end

