-- ==== Sys2Proof/Machine/Blocks.lean ====
section
/-! DEFINITION. The standard function blocks of the cyclic runtime (R199 to R202): timers, counters and edge detectors, what a
scan does to an instance, and what a restart and an online change leave of the instances (R202, R205, R211). -/

namespace Sys2Proof.Machine

/-- Whether a value went from 0 to 1 since the previous scan; none is known at the first scan (R201, R202). -/
def rises (was : Option Bool) (now : Bool) : Bool := was == some false && now

/-- The limits of a counter value (PRESUMED: the type INT that IEC 61131-3 gives CV, assumption 122). -/
def cvMax : Int := 32767
def cvMin : Int := -32768

/-- A counter value after one count up or down, held at its limits. -/
def countBy (cv : Int) (up down : Bool) : Int :=
  if up && !down then min cvMax (cv + 1) else if down && !up then max cvMin (cv - 1) else cv

/-- The elapsed time of a timer that started at `start` (R199), limited to PT. -/
def elapsedOf (start : Int) (now pt : Nat) : Nat := min (((now : Int) - start).toNat) pt

end Sys2Proof.Machine

namespace Sys2Proof.FbInst

open Machine

/-- A scan of a timer in the cycle released at `now` of TIM_MONO (R199, R200). -/
def scanTimer (f : FbInst) (x : FbScan) (now : Nat) : FbInst :=
  let idle (q : Bool) : FbInst := { f with start := none, q, et := 0 }
  let run (st : Int) (q : Nat → Bool) : FbInst :=
    let et := elapsedOf st now x.pt
    { f with start := some st, et, q := q et }
  match f.kind with
  | .ton => if x.a then run (f.start.getD now) fun et => decide (x.pt ≤ et) else idle false
  | .tof =>
    if x.a then idle true
    else if f.start.isSome || f.q then run (f.start.getD now) fun et => f.q && decide (et < x.pt)
    else idle false
  | .tp =>
    match f.start with
    | some st =>
      let g := run st fun et => f.q && decide (et < x.pt)
      if g.q || x.a then g else idle false
    | none => if x.a && f.prevA != some true then run now fun et => decide (et < x.pt) else idle false
  | _ => f

/-- A scan of an edge detector or counter (R201). -/
def scanEdge (f : FbInst) (x : FbScan) : FbInst :=
  let up := rises f.prevA x.a
  let put (cv : Int) (q q2 : Bool) : FbInst := { f with cv, q, q2 }
  match f.kind with
  | .rTrig => { f with q := up }
  | .fTrig => { f with q := f.prevA == some true && !x.a }
  | .ctu =>
    let cv := if x.r then 0 else countBy f.cv up false
    put cv (decide (x.pv ≤ cv)) false
  | .ctd =>
    let cv := if x.l then x.pv else countBy f.cv false up
    put cv (decide (cv ≤ 0)) false
  | .ctud =>
    let cv := if x.r then 0 else if x.l then x.pv else countBy f.cv up (rises f.prevB x.b)
    put cv (decide (x.pv ≤ cv)) (decide (cv ≤ 0))
  | _ => f

/-- Whether a block is a timer. -/
def timer (f : FbInst) : Bool := f.kind == .ton || f.kind == .tof || f.kind == .tp

/-- One scan of an instance, in a cycle with these REL_MONO and REL_MT. -/
def scan (f : FbInst) (x : FbScan) (relMono relMt : Nat) : FbInst :=
  let g := if f.timer then f.scanTimer x relMono else f.scanEdge x
  { g with prevA := some x.a, prevB := some x.b, relMt }

/-- What a warm restart leaves of a retained instance (R202, R205): CV and a timer's record, and no previous value of an edge
detector or counter; a timer in mid-flight resumes at the first release of its task. -/
def warm (f : FbInst) : FbInst :=
  if f.timer then { f with resume := f.start.isSome } else { f with prevA := none, prevB := none }

/-- The flags of an instance's record. -/
def flags (f : FbInst) : Nat :=
  b2n f.q + 2 * b2n f.q2 + 4 * b2n f.prevA.isSome + 8 * b2n (f.prevA == some true) + 16 * b2n f.prevB.isSome +
    32 * b2n (f.prevB == some true) + 64 * b2n f.start.isSome + 128 * b2n f.resume

/-- The record of an instance (R203): its state, ET at its last scan and REL_MT of that scan; its form is the executive's (DESIGN
CHOICE, assumption 54). -/
def bytes (f : FbInst) : List Byte :=
  leBytes 8 f.flags ++ leBytes 8 (f.start.getD 0 % 18446744073709551616).toNat ++ leBytes 8 f.et ++
    leBytes 8 (f.cv % 18446744073709551616).toNat ++ leBytes 8 f.relMt

/-- An instance from its record. -/
def ofBytes (kind : FbKind) (bs : List Byte) : FbInst :=
  let n (i : Nat) : Nat := leNat ((bs.drop (8 * i)).take 8)
  let z (i : Nat) : Int := if n i < 9223372036854775808 then (n i : Int) else (n i : Int) - 18446744073709551616
  let b (i : Nat) : Bool := (n 0).testBit i
  { kind, q := b 0, q2 := b 1, prevA := if b 2 then some (b 3) else none, prevB := if b 4 then some (b 5) else none
    start := if b 6 then some (z 1) else none, resume := b 7, et := n 2, cv := z 3, relMt := n 4 }

end Sys2Proof.FbInst

namespace Sys2Proof.Machine

/-- Whether the executive can keep an instance at its address: a retained one after the header of the retain partition, another
one in Vault (R203, R480). -/
def fbHome (d : FbDecl) : Bool :=
  if d.retain then decide (0x1040001000 ≤ d.at_ ∧ d.at_ + 40 ≤ 0x1040100000)
  else decide (0x1000000000 ≤ d.at_ ∧ d.at_ + 40 ≤ 0x1001000000)

namespace State

/-- The data of a declared instance (R203, R480), and new data for it. -/
def fbGet (s : State) (d : FbDecl) : FbInst := FbInst.ofBytes d.kind (s.memRead d.at_ 40)
def fbPut (s : State) (d : FbDecl) (f : FbInst) : State := if fbHome d && !s.replicaOnly then s.memWrite d.at_ f.bytes else s

/-- The instance of a path in a task. -/
def fbOf (s : State) (t path : Nat) : Option FbDecl := s.rts.decls.find? fun d => d.task.val == t && d.path == path

/-- The scans of a task's cycle, in their order (R199 to R202). -/
def scanAll (s : State) (t relMono relMt : Nat) (xs : List FbScan) : State :=
  xs.foldl (fun s x => match s.fbOf t x.path with
    | some d => s.fbPut d ((s.fbGet d).scan x relMono relMt)
    | none => s) s

/-- Whether an interruption counts for a retained timer at a release (R205): RELAPSED, a valid clock, and time that did not
go back. -/
def lapseCounts (s : State) (f : FbInst) : Bool :=
  s.bit Fld.RTS_POLICY_RELAPSED && s.bit Fld.TIM_STATUS_RTC_VALID && decide (f.relMt ≤ s.time.mt)

/-- The instances of a task that resume at its first release. -/
def resuming (s : State) (t : Nat) : List FbDecl := s.rts.decls.filter fun d => d.task.val == t && (s.fbGet d).resume

/-- Whether a task has a retained timer whose interruption should count and cannot be known (R205). -/
def lapseUnknown (s : State) (t : Nat) : Bool :=
  s.bit Fld.RTS_POLICY_RELAPSED && (s.resuming t).any fun d => !s.lapseCounts (s.fbGet d)

/-- The first release after a warm restart re-bases the retained timers of the task (R205). -/
def resumeTimers (s : State) (t : Nat) : State :=
  (s.resuming t).foldl (fun s d =>
    let f := s.fbGet d
    let lapse := if s.lapseCounts f then s.time.mt - f.relMt else 0
    s.fbPut d { f with resume := false, start := some ((s.time.mono : Int) - f.et - lapse) }) s

/-- The instances of a program at a start (R202, R204, R205): a warm one keeps the retained ones, all others are new. -/
def fbsStart (s : State) (warm : Bool) (decls : List FbDecl) : State :=
  let s : State := { s with rts := { s.rts with decls } }
  decls.foldl (fun s d => s.fbPut d (if warm && d.retain then (s.fbGet d).warm else { kind := d.kind })) s

/-- An online change carries the instances of the affected tasks over by path and type version; the others are dropped, and
logged with their path (R211). -/
def carryFbs (s : State) (affected : List Nat) (decls : List FbDecl) : State :=
  let mine := s.rts.decls.filter fun d => affected.contains d.task.val
  let same (d e : FbDecl) : Bool := d.path == e.path && d.kind == e.kind && d.ver == e.ver
  let now := decls.map fun d => (d, match mine.find? (same d) with
    | some e => s.fbGet e
    | none => { kind := d.kind })
  let gone := mine.filter fun d => !decls.any (same d)
  let s : State := { s with rts := { s.rts with
    decls := (s.rts.decls.filter fun d => !affected.contains d.task.val) ++ decls } }
  let s := now.foldl (fun s x => s.fbPut x.1 x.2) s
  gone.foldl (fun s d => s.emit 0x06 0x0406 1 56 (p4 [d.path])) s

/-- A variable is initialised where the program keeps it (R204, R211). -/
def varInit (s : State) (a : Nat) (bs : List Byte) : State :=
  if s.rangeCheck .t true a bs.length = 0 ∧ !s.replicaOnly then s.memWrite a bs else s

end State

end Sys2Proof.Machine
end

