-- ==== Sys2Proof/Machine/Runtime.lean ====
section
/-! DEFINITION. The cyclic runtime (R180 to R221, R488, R525 to R527): task tables and maps, admission, releases, commits and
overruns, starts and resumption, online change, and forces. -/

namespace Sys2Proof.Machine

/-- A task table entry (R188). -/
structure TaskEnt where
  flags : Nat
  pexp : Nat
  prio : Nat
  maxovr : Nat
  phase : Nat
  rsv : Nat
  entry : Nat
  inMap : Nat
  inCount : Nat
  outCount : Nat
  outMap : Nat
  wcet : Nat
  deriving DecidableEq, Repr, Inhabited

/-- Whether a task is enabled, and whether it carries SAFETY. -/
def TaskEnt.en (t : TaskEnt) : Bool := t.flags.testBit 0
def TaskEnt.safety (t : TaskEnt) : Bool := t.flags.testBit 1

/-- The period in beats (R180). -/
def TaskEnt.period (t : TaskEnt) : Nat := 2 ^ t.pexp

/-- Whether a beat number is on the task's grid (R181). -/
def TaskEnt.onGrid (t : TaskEnt) (m : Nat) : Bool := m % t.period == t.phase

/-- A map entry (R189). -/
structure MapEnt where
  blk : Nat
  rsv : Nat
  len : Nat
  entry : Nat
  bofs : Nat
  iofs : Nat
  deriving DecidableEq, Repr, Inhabited

/-- The key of a catalogue entry's output data. -/
def outKey (blk entry : Nat) : Nat := blk * 65536 + entry

/-- Bytes put into a list at an offset, which grows with zeros where it is too short. -/
def splice (l : List Byte) (ofs : Nat) (bs : List Byte) : List Byte :=
  l.take ofs ++ List.replicate (ofs - l.length) 0 ++ bs ++ l.drop (ofs + bs.length)

/-- Bytes of a list, zeros beyond its end. -/
def slice (l : List Byte) (ofs n : Nat) : List Byte :=
  let x := (l.drop ofs).take n
  x ++ List.replicate (n - x.length) 0

/-- The bytes of GAR that input maps may name (R189). -/
def garSampled (o : Nat) : Bool :=
  decide (o < 4) || decide (0x10 ≤ o ∧ o < 0x14) || decide (0x20 ≤ o ∧ o < 0x40) || decide (0x70 ≤ o ∧ o < 0x74)

namespace State

/-- Change the runtime. -/
def modRts (s : State) (f : RtsSt → RtsSt) : State := { s with rts := f s.rts }

/-- A task's state. -/
def task (s : State) (t : Nat) : RtsTask := tget s.rts.tasks t

/-- Change a task's state. -/
def modTask (s : State) (t : Nat) (f : RtsTask → RtsTask) : State := s.modRts fun r => { r with tasks := tmod r.tasks t f }

/-- Whether RTS_IMGBASE places an image area in DDR (R186, assumption 8). -/
def hasImage (s : State) : Bool := s.imgBase != 0 && decide (s.imgBase + 0x800000 ≤ 0x400000000)

/-- Entry `t` of task table `tab` (R186, R188); without an image area no task is enabled. -/
def taskEnt (s : State) (tab t : Nat) : TaskEnt :=
  if !s.hasImage then default
  else
    let a := s.imgBase + 0x400000 + tab * 0x400 + t * 64
    { flags := s.memNat a 1, pexp := s.memNat (a + 1) 1, prio := s.memNat (a + 2) 1, maxovr := s.memNat (a + 3) 1
      phase := s.memNat (a + 4) 2, rsv := s.memNat (a + 6) 2 + s.memNat (a + 32) 32, entry := s.memNat (a + 8) 8
      inMap := s.memNat (a + 16) 4, inCount := s.memNat (a + 20) 2, outCount := s.memNat (a + 22) 2
      outMap := s.memNat (a + 24) 4, wcet := s.memNat (a + 28) 4 }

/-- The active table. -/
def activeTab (s : State) : Nat := s.getF Fld.RTS_TABSEL_ACTIVE

/-- A task's entry in the active table. -/
def ent (s : State) (t : Nat) : TaskEnt := s.taskEnt s.activeTab t

/-- The enabled tasks of a table. -/
def enabledIn (s : State) (tab : Nat) : List Nat := (List.range 16).filter fun t => (s.taskEnt tab t).en

/-- Map entries at an offset of the image area. -/
def mapAt (s : State) (ofs n : Nat) : List MapEnt :=
  (List.range n).map fun i =>
    let a := s.imgBase + ofs + 16 * i
    { blk := s.memNat a 1, rsv := s.memNat (a + 1) 1 + s.memNat (a + 12) 4, len := s.memNat (a + 2) 2
      entry := s.memNat (a + 4) 2, bofs := s.memNat (a + 6) 2, iofs := s.memNat (a + 8) 4 }

/-- The input and the output map of an entry. -/
def inMapOf (s : State) (e : TaskEnt) : List MapEnt := s.mapAt e.inMap e.inCount
def outMapOf (s : State) (e : TaskEnt) : List MapEnt := s.mapAt e.outMap e.outCount

/-- The addresses of a task's input image, output image and committed copy (R186). -/
def inImg (s : State) (t : Nat) : Nat := s.imgBase + t * 0x40000
def outImg (s : State) (t : Nat) : Nat := s.imgBase + 0x10000 + t * 0x40000
def comImg (s : State) (t : Nat) : Nat := s.imgBase + 0x20000 + t * 0x40000

/-- A write of the image or output engine into an image of 64 KiB; one past its end is refused and recorded (R187, R246). The
engines are in no class (R243), and which number FAB_FWLAST shows for them is free (assumption 123). -/
def imgWrite (s : State) (base ofs : Nat) (bs : List Byte) : State :=
  if ofs + bs.length ≤ 65536 then s.memWrite (base + ofs) bs
  else ((s.inc64 Reg.FAB_FWREFUSED).wr64 Reg.FAB_FWLAST_ADDR ((base + ofs) % 0x10000000000)).wr Reg.FAB_FWLAST_INFO
    (256 + Config.engineClass.toNat)

/-! ### The retain header (R203)

Its items are stored from the start of the retain partition on, in the order of R203 (DESIGN CHOICE, assumption 54): format
version (4 bytes, and 4 of zero), program identity, hash of the retain layout (32 each), begun and committed cycle number of
each task (8 each), CRC-32C. -/

def retainBase : Nat := 0x1040000000

/-- An item of the header. -/
def retainItem (s : State) (ofs n : Nat) : Nat := s.memNat (retainBase + ofs) n
def retainFmt (s : State) : Nat := s.retainItem 0 4
def retainId (s : State) : Nat := s.retainItem 8 32
def retainBegun (s : State) (t : Nat) : Nat := s.retainItem (72 + 16 * t) 8
def retainDone (s : State) (t : Nat) : Nat := s.retainItem (80 + 16 * t) 8

/-- The CRC-32C over the header, and whether it checks. -/
def retainCrc (s : State) : Nat := crc32c (s.memRead retainBase 328)
def retainOk (s : State) : Bool := s.retainCrc == s.retainItem 328 4

/-- The executive stores an item of the header, and the CRC after it. -/
def retainPut (s : State) (ofs : Nat) (bs : List Byte) : State :=
  if s.replicaOnly then s
  else
  let s := s.memWrite (retainBase + ofs) bs
  s.memWrite (retainBase + 328) (leBytes 4 s.retainCrc)

/-- A new header: no cycle begun. -/
def retainNew (s : State) (fmt : Nat) (id hash : BitVec 256) : State :=
  s.retainPut 0 (leBytes 8 (fmt % 4294967296) ++ leBytes 32 id.toNat ++ leBytes 32 hash.toNat ++ List.replicate 256 0)

/-- The retained variables, after the header. -/
def retainVars (s : State) (ofs : Nat) (bs : List Byte) : State :=
  if 4096 ≤ ofs ∧ ofs + bs.length ≤ 1048576 ∧ !s.replicaOnly then s.memWrite (retainBase + ofs) bs else s

/-! ### Admission (R185) and table checks (R190) -/

/-- One iteration of the response time equation, in ns. -/
def respStep (c w : Nat) (hi : List TaskEnt) : Nat :=
  c + (hi.map fun j => ((w + j.period * 250000 - 1) / (j.period * 250000)) * j.wcet).sum + (w + 249999) / 250000 * 45000

/-- The response time, `none` where it exceeds the period; the fuel covers every rise within the longest period. -/
def respTime (c limit : Nat) (hi : List TaskEnt) : Nat → Nat → Option Nat
  | 0, _ => none
  | n + 1, w =>
    let w' := respStep c w hi
    if limit < w then none else if w' = w then some w else respTime c limit hi n w'

/-- Whether R185 admits a table. -/
def admitted (s : State) (tab : Nat) : Bool :=
  let es := (s.enabledIn tab).map (s.taskEnt tab)
  es.all fun e => (respTime e.wcet (e.period * 250000) (es.filter fun j => decide (j.prio < e.prio)) 70000 e.wcet).isSome

/-- The bytes of an entry's data that maps may name, from and up to (R275, R297, R340, R370, R388). While a catalogue is not
in use, its entries are taken with their longest data (DEDUCED, assumption 25). -/
def mapRange (s : State) (input : Bool) (blk entry : Nat) : Option (Nat × Nat) :=
  let known (b : CatBlk) : Bool := (s.cat b).inUse
  let e (b : CatBlk) : List Byte := s.catEntry b entry
  let span (b : CatBlk) (ok : Bool) (lo len most : Nat) : Option (Nat × Nat) :=
    if catMax b ≤ entry then none
    else
      let n := if known b then len else most
      if known b && !ok then none else some (if input then 0 else lo, lo + n)
  let serial (b : CatBlk) : Option (Nat × Nat) :=
    span b ((Machine.ent (e b) 0 1).testBit 1 != input) 16 (Machine.ent (e b) 6 2) 64
  if blk = catIndex .fio then (if 32 ≤ entry then none else if input then some (0, 8) else some (8, 9))
  else if blk = catIndex .meas then (if input ∧ entry < 16 then some (0, 80) else none)
  else if blk = catIndex .wal then
    if entry = 0xFFFF then (if input then some (0, 32) else none)
    else span .wal ((s.walSlot entry).used && (s.walRole entry).testBit (if input then 1 else 0)) 16 (s.walSlot entry).plen 1024
  else if blk = catIndex .trdp then
    span .trdp ((Machine.ent (e .trdp) 0 1).testBit 2 && (Machine.ent (e .trdp) 0 1).testBit 1 != input) 24
      (Machine.ent (e .trdp) 16 2) 1432
  else if blk = catIndex .mvb then serial .mvb
  else if blk = catIndex .can then serial .can
  else if blk = catIndex .ser then serial .ser
  else none

/-- Whether one map entry keeps R189 and R190. -/
def mapEntOk (s : State) (input : Bool) (m : MapEnt) : Bool :=
  m.rsv == 0 && decide (1 ≤ m.len ∧ m.len ≤ 4096 ∧ m.iofs + m.len ≤ 65536) && (!input || decide (64 ≤ m.iofs)) &&
  (if input ∧ m.blk = 0x05 then m.entry == 0 && (List.range m.len).all fun i => garSampled (m.bofs + i)
   else match s.mapRange input m.blk m.entry with
     | some r => decide (r.1 ≤ m.bofs ∧ m.bofs + m.len ≤ r.2)
     | none => false)

/-- Whether a task entry's own fields are in range (R188). -/
def taskEntOk (s : State) (e : TaskEnt) : Bool :=
  let mapOk (ofs n : Nat) : Bool := n == 0 || decide (0x410000 ≤ ofs ∧ ofs + 16 * n ≤ 0x800000)
  decide (e.flags < 4 ∧ e.pexp ≤ 12 ∧ e.prio ≤ 15 ∧ e.phase < e.period ∧ e.rsv = 0 ∧ e.inCount ≤ 2048 ∧ e.outCount ≤ 2048)
  && mapOk e.inMap e.inCount && mapOk e.outMap e.outCount
  && (s.inMapOf e).all (s.mapEntOk true) && (s.outMapOf e).all (s.mapEntOk false)

/-- Two map ranges that share a destination byte. -/
def mapsOverlap (x y : MapEnt) : Bool :=
  x.blk == y.blk && x.entry == y.entry && decide (x.bofs < y.bofs + y.len ∧ y.bofs < x.bofs + x.len)

/-- The bytes that maps move. -/
def mapBytes (l : List MapEnt) : Nat := (l.map fun m => m.len).sum

/-- Whether R190 lets a table pass: only the priorities and the byte sums are limited to enabled tasks. Tasks whose releases,
and so whose deadlines, fall on one edge: for the one with the longest period, those whose phase agrees with it. -/
def tableOk (s : State) (tab : Nat) : Bool :=
  let all := List.range 16
  let ts := s.enabledIn tab
  let e (t : Nat) : TaskEnt := s.taskEnt tab t
  all.all (fun t => s.taskEntOk (e t)) &&
  all.all (fun t => all.all fun u => t == u ||
    (s.outMapOf (e t)).all fun x => (s.outMapOf (e u)).all fun y => !mapsOverlap x y) &&
  ts.all (fun t => ts.all fun u => t == u || (e t).prio != (e u).prio) &&
  ts.all fun t =>
    let same := ts.filter fun u => decide ((e u).pexp ≤ (e t).pexp) && (e u).onGrid (e t).phase
    decide ((same.map fun u => mapBytes (s.inMapOf (e u)) + mapBytes (s.outMapOf (e u))).sum ≤ 131072) &&
    decide ((same.map fun u => mapBytes (s.outMapOf (e u))).sum ≤ 65536)

/-! ### Forces (R213 to R217) -/

/-- A field of a force entry. -/
def fEnt (e : List Byte) (i n : Nat) : Nat := leNat ((e.drop i).take n)

/-- The force entry of an index in the force table. -/
def forceEnt (s : State) (i : Nat) : List Byte := if s.hasImage then s.memRead (s.imgBase + 0x401000 + 32 * i) 32 else []

/-- RTS_FORCESTAT follows the forces in effect. -/
def setForces (s : State) (f : Tab (List Byte)) : State :=
  (s.modRts fun r => { r with forces := f }).setF Fld.RTS_FORCESTAT_ACTIVE f.length

/-- The removal of a force is counted and logged, with the reason of R218. -/
def forceGone (s : State) (e : List Byte) (reason : Nat) : State :=
  (s.inc64 Reg.RTS_FORCEREMOVED).emit 0x06 0x0409 3 56 (p4 [fEnt e 0 4, reason])

/-- A force is removed. -/
def removeForce (s : State) (i reason : Nat) : State :=
  (s.setForces (tset s.rts.forces i [])).forceGone (tget s.rts.forces i) reason

/-- Whether every byte of a force lies in ranges that the map names (R214). -/
def forceMapped (s : State) (e : List Byte) : Bool :=
  let t := s.ent (fEnt e 4 1)
  let ms := if fEnt e 5 1 = 0 then s.inMapOf t else s.outMapOf t
  (List.range (fEnt e 6 1)).all fun i =>
    ms.any fun m => decide (m.iofs ≤ fEnt e 8 4 + i ∧ fEnt e 8 4 + i < m.iofs + m.len)

/-- Whether the RTS block accepts a force entry with VALID = 1 (R214). -/
def forceOk (s : State) (e : List Byte) : Bool :=
  decide (fEnt e 4 1 ≤ 15 ∧ fEnt e 5 1 ≤ 1) && [1, 2, 4, 8].contains (fEnt e 6 1) && fEnt e 7 1 == 1 && fEnt e 28 4 == 0
  && s.forceMapped e

/-- Whether forces on SAFETY tasks are allowed now (R215, R497). -/
def safetyForces (s : State) : Bool :=
  s.lcState == 2 || (decide (s.lcState ≤ 3) && s.bit Fld.GAR_COND_SCP)

/-- The effect edge of a force update (R214, R215). -/
def applyForce (s : State) (i : Nat) : State :=
  let e := s.forceEnt i
  if !(fEnt e 7 1).testBit 0 then
    if (tget s.rts.forces i).isEmpty then s
    else
      let old := tget s.rts.forces i
      (s.setForces (tset s.rts.forces i [])).emit 0x06 0x0408 2 56 (p4 [fEnt old 0 4])
  else if !s.forceOk e ∨ ((s.ent (fEnt e 4 1)).safety && !s.safetyForces) then s.inc64 Reg.RTS_FORCEREFUSED
  else (s.setForces (tset s.rts.forces i e)).emit 0x06 0x0407 2 56 (p4 [fEnt e 0 4] ++ p8 [fEnt e 12 8])

/-- The force updates that are due at this edge. -/
def forceEdge (s : State) : State :=
  let due := s.rts.forcePend.filter fun x => decide (x.2 ≤ s.time.beatSeq)
  let s := s.modRts fun r => { r with forcePend := r.forcePend.filter fun x => decide (s.time.beatSeq < x.2) }
  due.foldl (fun s x => s.applyForce x.1) s

/-- R215: with SCP lost, the forces on SAFETY tasks' variables are removed. -/
def forceScpEdge (s : State) : State :=
  if s.safetyForces then s
  else (s.rts.forces.filter fun x => (s.ent (fEnt x.2 4 1)).safety).foldl (fun s x => s.removeForce x.1 2) s

/-- Write the forces of a task and direction into its image, whose base is given. -/
def putForces (s : State) (t dir base : Nat) : State :=
  (s.rts.forces.filter fun x => fEnt x.2 4 1 == t && fEnt x.2 5 1 == dir).foldl
    (fun s x => s.imgWrite base (fEnt x.2 8 4) ((x.2.drop 12).take (fEnt x.2 6 1))) s

/-! ### Execution (R183) -/

/-- The released tasks whose body can run: the image is complete, the cycle has not ended. -/
def readyTasks (s : State) : List Nat :=
  (List.range 16).filter fun t => (s.task t).running && (s.task t).ready

/-- Whether a task may execute: of those released at the same edge it starts only after every one of higher priority is ready
(R183). -/
def mayStart (s : State) (t : Nat) : Bool :=
  (s.task t).begun || (List.range 16).all fun u => !((s.task u).running && !(s.task u).ready && (s.task u).rel == (s.task t).rel &&
    decide ((s.ent u).prio < (s.ent t).prio))

/-- The ready task of the highest priority executes; one that had begun before and does not execute now is preempted. -/
def schedule (s : State) : State :=
  let best := (s.readyTasks.filter s.mayStart).foldl (fun (b : Option Nat) t => match b with
    | some u => if (s.ent t).prio < (s.ent u).prio then some t else some u
    | none => some t) none
  let s := s.modRts fun r => { r with exec := best }
  match best with
  | some t => s.modTask t fun k => { k with begun := true }
  | none => s

/-- Whether a task is preempted. -/
def preempted (s : State) (t : Nat) : Bool := (s.task t).running && (s.task t).begun && s.rts.exec != some t

/-! ### Deadlines (R194 to R198) -/

/-- Whether the task may be released at this edge under R181: on its grid, and long enough after its last release. -/
def relDue (s : State) (e : TaskEnt) (t : Nat) : Bool :=
  e.onGrid s.time.beat && (match (s.task t).rel with
    | some r => decide (r + e.period ≤ s.time.beatSeq)
    | none => true)

/-- Whether the runtime releases tasks: running, and in a pair only as custodian (R479, R488). -/
def rtsActive (s : State) : Bool := s.getF Fld.RTS_STATE_STATE == 1 && s.serves

/-- Clear or set a task's bit in a register of one bit per task. -/
def taskBit (s : State) (f : Field) (t : Nat) (b : Bool) : State :=
  s.setF f (if b then s.getF f ||| 2 ^ t else s.getF f &&& (65535 - 2 ^ t))

/-- A cycle ends without its outputs (R196). -/
def endLate (s : State) (t : Nat) : State :=
  (((s.taskBit Fld.RTS_BUSY_TASKS t false).inc64 (Reg.RTS_LATE t)).modTask t fun k =>
    { k with running := false, late := true }).schedule

/-- Every cycle in progress ends without its outputs, where the runtime starts afresh (R221). -/
def endRunning (s : State) : State := (List.range 16).foldl (fun s t => if (s.task t).running then s.endLate t else s) s

/-- A cycle overruns at its deadline (R196 to R198). -/
def overrun (s : State) (t : Nat) : State :=
  let e := s.ent t
  let n := min 255 (s.getF (Fld.RTS_CONSEC_COUNT t) + 1)
  let s := (s.inc64 (Reg.RTS_OVERRUNS t)).setF (Fld.RTS_CONSEC_COUNT t) n
  let s := (s.modRts fun r => { r with clean := false }).emit 0x06 0x0401 4 56 (p4 [t] ++ p8 [(s.task t).cycle] ++ p4 [n])
  if e.safety then (if 3 ≤ n then s.triadSafe 9 0x10 else s)
  else if e.maxovr ≠ 0 ∧ e.maxovr ≤ n then
    let s := (s.taskBit Fld.RTS_STOPPED_TASKS t true).emit 0x06 0x0402 4 56 (p4 [t])
    if (s.task t).running then s.endLate t else s
  else s

/-- A deadline edge of a task: its accepted outputs are due, or its cycle overruns. -/
def deadline (s : State) (t : Nat) : State :=
  let k := s.task t
  if k.rel.isNone ∨ !s.relDue (s.ent t) t then s
  else if k.running then (s.overrun t).modTask t fun k => { k with judged := true }
  else if !k.judged then
    (if k.accepted then s else s.overrun t).modTask t fun k => { k with judged := true, accepted := false }
  else s

/-- The output engine puts the committed copy of a task onto its destinations (R194, R195). -/
def latchTask (s : State) (t : Nat) : State :=
  (s.outMapOf (s.ent t)).foldl (fun s m =>
    let bs := s.memRead (s.comImg t + m.iofs) m.len
    s.modRts fun r => { r with outs := tmod r.outs (outKey m.blk m.entry) fun l => splice l m.bofs bs }) s

/-- The entries of a block that an output map of the active table names. -/
def outNamed (s : State) (blk : Nat) : List Nat :=
  (s.enabledIn s.activeTab).flatMap fun t => ((s.outMapOf (s.ent t)).filter fun m => m.blk == blk).map fun m => m.entry

/-- The output engine at an edge (R195): with custody, every enabled task's committed copy, but for one that waits for a
later deadline. -/
def present (s : State) : State :=
  if !s.rtsActive then s
  else (s.enabledIn s.activeTab).foldl (fun s t => if (s.task t).accepted then s else s.latchTask t) s

/-! ### Release (R191 to R193) -/

/-- The previous release of a task, as a BEATSEQ (R191, R488). -/
def lastRel (s : State) (t : Nat) : Option Int :=
  match (s.task t).rel with
  | some r => some (r : Int)
  | none => (s.task t).relWas

/-- Whether the interval since the previous release of a task contained a stretched beat (R191). -/
def stretchedSince (s : State) (t : Nat) : Bool :=
  match s.lastRel t, s.rts.stretchSeq with
  | some r, some q => decide (r < q)
  | _, _ => false

/-- The input image header (R191). -/
def header (s : State) (t : Nat) (imgErr : Bool) : List Byte :=
  let k := s.task t
  let edges := match s.lastRel t with
    | some r => ((s.time.beatSeq : Int) - r).toNat
    | none => 0
  let flags := b2n k.first + 2 * b2n k.warm + 4 * b2n k.changed + 8 * b2n k.late + 16 * b2n (s.stretchedSince t) + 32 * b2n k.mid
    + 64 * b2n imgErr + 128 * b2n (k.first && s.lapseUnknown t)
  leBytes 8 s.time.mt ++ leBytes 8 s.time.mono ++ leBytes 8 s.time.beat ++ leBytes 8 s.time.beatSeq ++ leBytes 8 (k.cycle + 1)
    ++ leBytes 4 edges ++ leBytes 1 s.timeState ++ leBytes 1 flags ++ leBytes 2 (min 65535 k.skips) ++ List.replicate 16 0

/-- The copies of one map into an image: `src` gives the bytes of an entry, `bad` the entries that ended with an error and
whose bytes are 0 (R193). -/
def copyMap (s : State) (ms : List MapEnt) (bad : List Nat) (base : Nat) (src : State → MapEnt → List Byte) : State :=
  ((List.range ms.length).zip ms).foldl (fun s im =>
    s.imgWrite base im.2.iofs (if bad.contains im.1 then List.replicate im.2.len 0 else src s im.2)) s

/-- A task is released: header, snapshot, output image, input forces (R192). `errs` lists the map entries that ended with an
error (R193); a copy that meets an uncorrectable error in a dirty line of the caches is counted there too (R227). -/
def release (s : State) (data : Nat → Nat → List Byte) (errs : List ImageError) (t : Nat) : State :=
  let e := s.ent t
  let ms := s.inMapOf e
  let os := s.outMapOf e
  let mine (out : Bool) (n : Nat) : List Nat :=
    (errs.filter fun x => x.task.val == t && x.out == out && decide (x.index < n)).map fun x => x.index
  let badIn := mine false ms.length
  let badOut := mine true os.length
  let bad := badIn.length + badOut.length
  let s := s.memWrite (s.inImg t) (s.header t (bad != 0))
  let s := s.copyMap ms badIn (s.inImg t) fun _ m => slice (data m.blk m.entry) m.bofs m.len
  let s := s.copyMap os badOut (s.outImg t) fun s m => s.memRead (s.comImg t + m.iofs) m.len
  let s := badOut.foldl (fun s i => let m := os.getD i default; s.eccRead (s.comImg t + m.iofs) m.len) s
  let s := ((s.putForces t 0 (s.inImg t)).add64 Reg.RTS_IMGERR bad).resumeTimers t
  let n := (s.task t).cycle + 1
  let s := s.modTask t fun k => { k with
    rel := some s.time.beatSeq, relWas := none, relMono := s.time.mono, relMt := s.time.mt, cycle := n, running := true
    ready := false, begun := false, judged := false, accepted := false, late := false, first := false
    warm := false, changed := false, mid := false, skips := 0 }
  let s := (s.modRts fun r => { r with clean := r.clean && bad == 0 }).retainPut (72 + 16 * t) (leBytes 8 n)
  ((s.taskBit Fld.RTS_BUSY_TASKS t true).taskBit Fld.RTS_RELEASED_TASKS t true).inc64 (Reg.RTS_RELEASES t)

/-- The releases of an edge (R181, R182); `hold` at an edge that releases none (R490). -/
def releases (s : State) (data : Nat → Nat → List Byte) (errs : List ImageError) (hold : Bool) : State :=
  if !s.rtsActive ∨ hold then s
  else (s.enabledIn s.activeTab).foldl (fun s t =>
    if (s.getF Fld.RTS_STOPPED_TASKS).testBit t ∨ !s.relDue (s.ent t) t then s
    else if (s.task t).running then
      (s.inc64 (Reg.RTS_SKIPS t)).modTask t fun k => { k with skips := k.skips + 1 }
    else s.release data errs t) s

/-! ### Online change (R207 to R212, R216) -/

/-- A change ends without effect. -/
def refuseChange (s : State) (result : Nat) : State :=
  ((s.modRts fun r => { r with change := none }).setF Fld.RTS_OCSTAT_RESULT result).emit 0x06 0x0405 3 56 (p4 [result])

/-- The affected tasks: added, removed, or changed in code, maps or table entry. -/
def affectedTasks (s : State) (pkg : ChangePackage) : List Nat :=
  let o := s.activeTab
  (List.range 16).filter fun t =>
    let x := s.taskEnt o t
    let y := s.taskEnt (1 - o) t
    (x.en || y.en) && (x.en != y.en || pkg.codeChanged.toNat.testBit t || x != y || s.inMapOf x != s.inMapOf y
      || s.outMapOf x != s.outMapOf y)

/-- Whether every affected task lets beat `m`, with BEATSEQ `q`, be the change edge (R207). -/
def changeEdgeOk (s : State) (aff : List Nat) (m q : Nat) : Bool :=
  aff.all fun t =>
    let x := s.taskEnt s.activeTab t
    let y := s.taskEnt (1 - s.activeTab) t
    (!x.en || (x.onGrid m && (match (s.task t).rel with
      | some r => decide (r + x.period ≤ q)
      | none => true))) && (!y.en || y.onGrid m)

/-- Whether an edge within 4,096 edges of the target can be the change edge. -/
def changeEdgeExists (s : State) (aff : List Nat) (target : Nat) : Bool :=
  let next := s.time.edgeAt / 250000
  let lo := max target (if s.time.mt + 2000 ≤ s.time.edgeAt then next else next + 1)
  (List.range 4097).any fun i =>
    let m := target + i
    decide (lo ≤ m) && s.changeEdgeOk aff m (s.time.beatSeq + 1 + (m - next))

/-- Whether an affected task carries SAFETY in either table while SCP reads 0 (R208). -/
def changeNeedsScp (s : State) (aff : List Nat) : Bool :=
  !s.bit Fld.GAR_COND_SCP && aff.any fun t => (s.taskEnt 0 t).safety && (s.taskEnt 0 t).en || (s.taskEnt 1 t).safety && (s.taskEnt 1 t).en

/-- The forces of affected tasks at a change (R216): adjusted, or removed. -/
def reconcileForces (s : State) (c : RtsChange) : State :=
  (s.rts.forces.filter fun x => c.affected.contains (fEnt x.2 4 1)).foldl (fun s x =>
    match c.pkg.survivingPaths.find? fun p => p.1 == fEnt x.2 0 4 with
    | some p => s.setForces (tset s.rts.forces x.1 (splice x.2 8 (leBytes 4 p.2)))
    | none => s.removeForce x.1 1) s

/-- The change takes effect (R210 to R212). A variable of another type is logged with its path like a dropped instance (DESIGN
CHOICE, assumption 122). -/
def applyChange (s : State) (c : RtsChange) : State :=
  let old := s.retainId
  let new := c.pkg.programId.toNat
  let s := s.modRts fun r => { r with change := none }
  let s := s.setF Fld.RTS_TABSEL_ACTIVE (1 - s.activeTab)
  let s := c.affected.foldl (fun s t =>
    let e := s.ent t
    let s := s.taskBit Fld.RTS_STOPPED_TASKS t false
    if e.en then
      let s := if s.replicaOnly then s else (s.outMapOf e).foldl (fun s m =>
        s.imgWrite (s.comImg t) m.iofs (slice (tget s.rts.outs (outKey m.blk m.entry)) m.bofs m.len)) s
      s.modTask t fun k => { k with
        rel := none, judged := true, accepted := false, changed := true
        relWas := match k.rel with
          | some r => some (r : Int)
          | none => k.relWas }
    else (s.taskBit Fld.RTS_BUSY_TASKS t false).modTask t fun _ => default) s
  let s := s.retainPut 8 (leBytes 32 c.pkg.programId.toNat ++ leBytes 32 c.pkg.layoutHash.toNat)
  let s := c.pkg.retainWrites.foldl (fun s x => s.retainVars x.1 x.2) s
  let s := (s.wr64 Reg.RTS_PROGID (new % 18446744073709551616)).reconcileForces c
  let s := ((s.setF Fld.RTS_OCSTAT_RESULT 2).wr Reg.RTS_OCBEAT s.time.beat).inc64 Reg.RTS_CHANGES
  let s := (s.emit 0x06 0x0404 2 56 (p8 [s.time.beat] ++ leBytes 32 old ++ leBytes 32 new)).carryFbs c.affected c.pkg.instances
  let s := c.pkg.droppedInstances.foldl (fun s p => s.emit 0x06 0x0406 1 56 (p4 [p])) s
  c.pkg.initVars.foldl (fun s x => (s.varInit x.2.1 x.2.2).emit 0x06 0x0406 1 56 (p4 [x.1])) s

/-- An armed change at an edge (R207 to R210). `late` lists the tasks whose cycle has overrun at this edge. -/
def changeEdge (s : State) (late : List Nat) : State :=
  match s.rts.change with
  | none => s
  | some c =>
    if s.time.beat < s.rd64 Reg.RTS_OCTARGET ∨ s.time.mono < c.at_ + 2000 then s
    else if !s.changeEdgeOk c.affected s.time.beat s.time.beatSeq then
      (if s.rd64 Reg.RTS_OCTARGET + 4096 ≤ s.time.beat then s.refuseChange 4 else s)
    else if 3 ≤ s.getF Fld.RTS_OCSTAT_POSTPONE then s.refuseChange 5
    else if c.affected.any late.contains then s.setF Fld.RTS_OCSTAT_POSTPONE (s.getF Fld.RTS_OCSTAT_POSTPONE + 1)
    else if s.changeNeedsScp c.affected then s.refuseChange 3
    else if s.role = 2 ∧ s.bit Fld.RPL_STATUS_PEER_ELIG ∧ s.confirmedPkg ≠ s.rd Reg.RPL_PKGID then s.refuseChange 7
    else s.applyChange c

/-! ### Start and resumption (R204 to R206, R488, R525, R526) -/

/-- The firmware migrates configuration and retained data from an older format (R525): the header names the new format, and
the converted bytes of the variables are free values. -/
def migrate (s : State) (old new : Nat) : State :=
  let isRetain (x : Host.Cell) : Bool := decide (retainBase ≤ x.1 ∧ x.1 < 0x1040100000)
  let isVar (x : Host.Cell) : Bool := isRetain x && decide (retainBase + 4096 ≤ x.1)
  let cells := s.mem.filter isVar
  let bytes := cells.map fun x => x.2
  let s := s.modLcs fun l => { l with oldCopy := some (old, s.mem.filter isRetain) }
  let s := if s.retainOk then s.retainPut 0 (leBytes 4 new) else s
  let s : State := { s with mem := s.mem.filter fun x => !isVar x }
  let s := cells.foldl (fun (s : State) (x : Host.Cell) => s.memWrite x.1 [Config.migrated bytes old new (x.1 - 0x1040000000)]) s
  let s := (s.setF Fld.LCS_FMT_OLDFMT old).setF Fld.LCS_FMT_FMT new
  (s.emit 0x15 0x1608 2 60 (p4 [old, new])).prvChange 17 0

/-- The firmware records the last stay in Conservator mode (R529). -/
def reportConservator (s : State) : State :=
  match s.lcs.cvCause with
  | none => s
  | some cause =>
    let l := if s.lcs.cvSummary.isEmpty then [⟨cause, 0, 0, 0⟩] else s.lcs.cvSummary
    let s := l.foldl (fun s x => (s.prvChange 16 0).emit 0x15 0x1607 5 60 (p4 [x.cause, x.kind, x.result])) s
    s.modLcs fun l => { l with cvCause := none, cvSummary := [] }

/-- The runtime does not run (R204, R502, R526): HALTED, and the start is complete (R511). -/
def rtsHalt (s : State) : State := (s.setF Fld.RTS_STATE_STATE 2).startDone

/-- An armed change that a start or a takeover drops reads as withdrawn (DESIGN CHOICE, assumption 122). -/
def dropChange (s : State) : State :=
  if s.rts.change.isNone then s else (s.modRts fun r => { r with change := none }).setF Fld.RTS_OCSTAT_RESULT 9

/-- No task is stopped, and no overrun stands (R198, R488). -/
def clearStops (s : State) : State :=
  (List.range 16).foldl (fun s t => s.setF (Fld.RTS_CONSEC_COUNT t) 0) (s.setF Fld.RTS_STOPPED_TASKS 0)

/-- The runtime starts, warm or cold (R206). -/
def rtsRun (s : State) (warm : Bool) (info : StartInfo) : State :=
  let s := s.endRunning
  let s := ((s.setF Fld.RTS_STATE_STATE 1).setF Fld.RTS_STATE_START (if warm then 2 else 1)).wr64 Reg.RTS_PROGID
    (info.programId.toNat % 18446744073709551616)
  let s := if warm then s
    else (s.retainNew (s.getF Fld.LCS_FMT_FMT) info.programId info.layoutHash).retainVars 4096 info.initialRetain
  let s := info.initialVars.foldl (fun s x => if regionOf x.1 = some .retain then s else s.varInit x.1 x.2) s
  let s := info.initialOutputs.foldl (fun s x => s.memWrite (s.comImg x.1.val) (x.2.take 65536)) s
  let tasks := (List.range 16).foldl (fun (m : Tab RtsTask) t => tset m t ({
    first := true, warm, mid := warm && s.retainBegun t != s.retainDone t } : RtsTask)) []
  let s := s.modRts fun r => { r with
    tasks := tasks, clean := true, forcePend := [], exec := none }
  let s := (s.fbsStart warm info.instances).dropChange.clearStops
  s.emit 0x06 0x0403 2 56 (p4 [s.getF Fld.RTS_STATE_START, s.rd Reg.RTS_STATE / 65536 % 8])

/-- A start of the runtime with the firmware's format `fmt` (R204, R206, R217, R526). -/
def rtsStart (s : State) (info : StartInfo) (fmt : Nat) (cold : Bool) : State :=
  let stored := info.fmtVer
  let s := s.rts.endedForces.foldl (fun s x => s.forceGone x.2 3) (s.modRts fun r => { r with endedForces := [] })
  let s := (s.rts.forces.map fun x => x.1).foldl (fun s i => s.removeForce i 3) s
  if fmt < stored ∨ stored + 8 < fmt then s.rtsHalt
  else
    let s := if stored < fmt then s.migrate stored fmt else s.setF Fld.LCS_FMT_FMT fmt
    let pol := s.getF Fld.RTS_POLICY_RESTART
    let whyPol : Bool := pol == 0 || pol == 3
    let hdrOk : Bool := s.retainOk && decide (s.retainFmt ≤ fmt ∧ fmt ≤ s.retainFmt + 8)
    let whyRet : Bool := !hdrOk || !info.retainEccOk
    let whyProg : Bool := hdrOk && s.retainId != info.programId.toNat
    let warm := !whyPol && !whyRet && !whyProg && !cold
    let s := ((s.setB Fld.RTS_STATE_WHY_POLICY whyPol).setB Fld.RTS_STATE_WHY_PROG whyProg).setB Fld.RTS_STATE_WHY_RETAIN whyRet
    let refused := if !s.tableOk s.activeTab then 6 else if !s.admitted s.activeTab then 8 else 0
    if refused ≠ 0 then (s.refuseChange refused).rtsHalt
    else if pol = 2 ∧ !warm ∧ !cold then s.rtsHalt
    else s.rtsRun warm info

/-- A task of a new custodian (R488): CYCLE continues from the cycle begun in the replicated retain header; a cycle is lost if
it was begun and not committed there; EDGES counts from the task's last beat at or before that edge, or before it where no cycle
began at that edge, as at E(h) of a switch-over (DEDUCED, assumption 122). -/
def resumedTask (s : State) (t : Nat) : RtsTask :=
  let e := s.ent t
  let edge := s.rd64 Reg.RPL_LASTBEAT + 1
  let lost := s.retainBegun t != s.retainDone t
  let last := if e.onGrid edge ∧ !lost then edge - 1 else edge
  let gone : Int := s.time.beat - (last - (last + e.period - e.phase) % e.period : Nat)
  { cycle := s.retainBegun t, late := lost
    relWas := if s.retainBegun t ≠ 0 then some (s.time.beatSeq - gone) else none }

/-- The tasks of a new custodian at its resumption edge (R488): each is released at its first edge on its grid, the forces are
those of the replicated table, and the executive adds RPL_MONOOFS to the start times of the replicated timers. -/
def rtsResume (s : State) : State :=
  let s := s.endRunning
  let ofs := s.rdI64 Reg.RPL_MONOOFS
  let tasks := (List.range 16).foldl (fun (m : Tab RtsTask) t =>
    tset m t (if (s.ent t).en then s.resumedTask t else default)) []
  let s := s.modRts fun r => { r with tasks := tasks, forcePend := [], exec := none }
  let s := s.rts.decls.foldl (fun s d => let f := s.fbGet d; s.fbPut d { f with start := f.start.map (· + ofs) }) s
  let s := s.dropChange.clearStops
  s.setForces ((List.range 256).foldl (fun m i =>
    let e := s.forceEnt i
    if (fEnt e 7 1).testBit 0 && s.forceOk e then tset m i e else m) [])

/-! ### The edge -/

/-- The runtime at a beat edge; forces are kept up to date in every state (R214, R215). `data` is the snapshot of R192, `errs`
the reads that failed, `stretched` whether the ended beat was stretched, `hold` whether no task is released. -/
def rtsEdge (s : State) (data : Nat → Nat → List Byte) (errs : List ImageError) (stretched hold : Bool) : State :=
  let s := (s.setF Fld.RTS_RELEASED_TASKS 0).forceScpEdge
  let s := if stretched then s.modRts fun r => { r with stretchSeq := some s.time.beatSeq } else s
  if s.getF Fld.RTS_STATE_STATE ≠ 1 then s.forceEdge
  else
    let ts := s.enabledIn s.activeTab
    let late := ts.filter fun t =>
      let k := s.task t
      k.rel.isSome && s.relDue (s.ent t) t && (k.running || !k.judged && !k.accepted)
    let s := if s.rtsActive then ts.foldl (fun s t => s.deadline t) s else s
    if s.getF Fld.RTS_STATE_STATE ≠ 1 then s.forceEdge
    else ((s.present.changeEdge late).forceEdge).releases data errs hold

end State

/-! ### The commands -/

/-- RUNTIME_START (R65, R204, R502, R525, R526, R529): in step 3 of the start, on first lock or when 3 s are over. -/
def execRuntimeStart (dt : Nat) (info : StartInfo) (s : State) : Host.Outcome State Fault Refusal :=
  let s := s.elapse dt
  .next (
    if s.lcs.phase ≠ .executive ∨ !(s.time.firstLockDone || s.time.lockOver) then s
    else
      let s := (s.modLcs fun l => { l with phase := .firmware, runAt := s.time.clock }).reportConservator
      let fmt := match s.lcs.running with
        | some img => img.fmtVer
        | none => info.fmtVer
      if s.lcState = 4 then s.rtsHalt
      else if s.triadMode = 4 then (s.setF Fld.RTS_STATE_STATE 3).startDone
      else s.rtsStart info fmt false)

/-- TASK_READY (R183, R192). -/
def execTaskReady (dt : Nat) (task : Fin 16) (s : State) : Host.Outcome State Fault Refusal :=
  let s := s.elapse dt
  .next (if (s.task task.val).running then (s.modTask task.val fun k => { k with ready := true }).schedule else s)

/-- A write of RTS_DONE (R194, R196, R527): accepted in time, or refused; one of the running cycle ends its body. `scans` are
what the body scanned: the executive makes them the task's instance data at the accepted write (R480; DEDUCED, assumption
122). -/
def State.doneWrite (s : State) (t cycle : Nat) (scans : List FbScan) : State :=
  let k := s.task t
  let e := s.ent t
  let refused (s : State) : State := (s.inc64 Reg.RTS_DONEREFUSED).modRts fun r => { r with clean := false }
  if !k.running ∨ k.cycle % 65536 ≠ cycle ∨ s.getF Fld.RTS_STATE_STATE ≠ 1 ∨ s.replicaOnly then refused s
  else
    let next := s.time.edgeAt / 250000
    let dueNext := e.onGrid next && (match k.rel with
      | some r => decide (r + e.period ≤ s.time.beatSeq + 1)
      | none => true)
    let inTime := !k.judged && (!dueNext || decide (s.time.mt + 15000 < s.time.edgeAt))
    if !inTime then (refused s).endLate t
    else
      let s := s.copyMap (s.outMapOf e) [] (s.comImg t) fun s m => s.memRead (s.outImg t + m.iofs) m.len
      let s := (s.putForces t 1 (s.comImg t)).scanAll t k.relMono k.relMt scans
      let s := ((s.taskBit Fld.RTS_BUSY_TASKS t false).inc64 (Reg.RTS_COMMITS t)).setF (Fld.RTS_CONSEC_COUNT t) 0
      let s := (s.modTask t fun k => { k with running := false, accepted := true }).schedule.retainPut (80 + 16 * t) (leBytes 8 k.cycle)
      if s.rts.clean && (s.enabledIn s.activeTab).all fun u => s.rd64 (Reg.RTS_COMMITS u) != 0 then
        s.setB Fld.LCS_BOOTINFO_CYCLEOK true
      else s

/-- RTS_DONE_WRITE (R194, R196, R527): accepted in time, or refused; a write of the running cycle ends its body. -/
def execRtsDoneWrite (dt : Nat) (req : Requester) (task : Fin 16) (done : TaskDone) (s : State) :
    Host.Outcome State Fault Refusal :=
  let s := s.elapse dt
  let t := task.val
  .next (s.regCmd req Reg.RTS_DONE fun s => s.doneWrite t done.cycle.toNat done.scans)

/-- A change is armed under the conditions of R207 and R208, in the order of their results. -/
def State.ocArm (s : State) (pkg : ChangePackage) : State :=
  let aff := s.affectedTasks pkg
  let s := s.setF Fld.RTS_OCSTAT_POSTPONE 0
  if s.changeNeedsScp aff then s.refuseChange 3
  else if !s.changeEdgeExists aff (s.rd64 Reg.RTS_OCTARGET) then s.refuseChange 4
  else if !s.tableOk (1 - s.activeTab) then s.refuseChange 6
  else if !s.admitted (1 - s.activeTab) then s.refuseChange 8
  else (s.modRts fun r => { r with change := some ⟨pkg, aff, s.time.mono⟩ }).setF Fld.RTS_OCSTAT_RESULT 1

/-- RTS_OC_ARM (R207, R208): the conditions of the arm write, in the order of their results. -/
def execRtsOcArm (dt : Nat) (req : Requester) (pkg : ChangePackage) (s : State) : Host.Outcome State Fault Refusal :=
  let s := s.elapse dt
  .next (s.regCmd req Reg.RTS_OCCTL fun s => s.ocArm pkg)

/-- The armed change is withdrawn before its edge (R207). -/
def State.ocCancel (s : State) : State :=
  if s.rts.change.isNone then s
  else (s.modRts fun r => { r with change := none }).setF Fld.RTS_OCSTAT_RESULT 9

/-- RTS_OC_CANCEL (R207): before the change edge. -/
def execRtsOcCancel (dt : Nat) (req : Requester) (s : State) : Host.Outcome State Fault Refusal :=
  let s := s.elapse dt
  .next (s.regCmd req Reg.RTS_OCCTL fun s => s.ocCancel)

/-- A write of RTS_FORCEUPD (R34, R214). -/
def State.forceUpdWrite (s : State) (index : Nat) : State :=
  s.modRts fun r => { r with
    forcePend := (r.forcePend.filter fun x => x.1 != index) ++ [(index, s.effectSeq)] }

/-- RTS_FORCEUPD_WRITE (R34, R214). -/
def execRtsForceupdWrite (dt : Nat) (req : Requester) (index : Fin 256) (s : State) : Host.Outcome State Fault Refusal :=
  let s := s.elapse dt
  .next (s.regCmd req Reg.RTS_FORCEUPD fun s => s.forceUpdWrite index.val)

end Sys2Proof.Machine
end

