-- ==== Sys2Proof/Machine/FieldIo.lean ====
section
/-! DEFINITION. Field I/O (R252 to R277): group supply, channel modes, input filters, output protections and diagnoses, the
two paths across the isolation barrier with their cross-check, the output latch with its fail states, and the data record. -/

namespace Sys2Proof.Machine

/-- The group of a channel (R252). -/
def fioGroupOf (c : Nat) : Nat := c / 16

/-- The channels of a group. -/
def fioChans (g : Nat) : List Nat := (List.range 16).map fun i => 16 * g + i

/-- Whether an entry is valid in a class (R274); `hv` is the 110 V class. -/
def fioEntryOk (hv : Bool) (e : List Byte) : Bool :=
  let mode := ent e 0 1
  let deb := ent e 2 2
  let wdt := ent e 4 2
  let holdt := ent e 6 2
  decide (mode ≤ 3 ∧ ent e 1 1 < 4 ∧ ent e 8 8 = 0 ∧ ent e 32 32 = 0) &&
  (!(mode == 1 || mode == 2) || decide (1 ≤ deb ∧ deb ≤ 200)) &&
  (mode != 3 || decide (1 ≤ wdt ∧ wdt ≤ 80 ∧ holdt ≤ wdt ∧ wdt + holdt ≤ 80)) && !(mode == 2 && hv)

/-- The band of the network resistance, VF (in 0.1 V) divided by the input current (R261); 4 between bands. A current at its
limit reads as a short circuit. -/
def fioBand (vf : Int) (r : InReading) : Nat :=
  let uv := vf.toNat * 100000
  let above (ohms : Nat) : Bool := decide (ohms * r.ua < uv)
  if r.limited then 3
  else if above 30000 then 0
  else if !above 20000 && decide (8000 * r.ua ≤ uv) then 1
  else if !above 3500 && decide (1500 * r.ua ≤ uv) then 2
  else if decide (uv < 800 * r.ua) then 3
  else 4

/-- How an input reads its terminal (R254): on or off by voltage and current, unchanged between the two rows; `hv` is the 110 V
class. -/
def fioLevel (hv was : Bool) (r : InReading) : Bool :=
  if (if hv then 72000 else 11000) ≤ r.mv ∧ 2000 ≤ r.ua then true
  else if (if hv then r.mv ≤ 43000 else r.mv ≤ 5000 ∨ r.ua ≤ 1500) then false
  else was

/-- A channel's filtered state when it starts: off (R49, R258). -/
def fioOff (mode : Nat) : Nat := if mode = 2 then 1 else 0

/-- The terminal state after the anti-glitch stage. -/
def FioCh.term (c : FioCh) : Bool := if c.mode = 2 then c.net == 2 else c.level

/-- What the terminal asks the filtered state to be; `none` between bands. -/
def FioCh.wants (c : FioCh) : Option Nat :=
  if c.mode = 2 then (if c.net < 4 then some c.net else none) else some (b2n c.level)

/-- A channel that takes a configuration: its mode changes, or only the configuration (R257, R258). -/
def FioCh.configure (c : FioCh) (now mode : Nat) (e : List Byte) : FioCh :=
  let c := { c with oldEn := (ent e 1 1).testBit 0, hold := (ent e 1 1).testBit 1, deb := ent e 2 2, wdt := ent e 4 2
                    holdt := ent e 6 2 }
  if c.mode = mode ∧ !c.lost then c
  else { c with
    mode, lost := false, since := now, filt := fioOff mode, supgap := false, latch := false, refAt := none, failAt := none
    opened := false, curlim := false, openLoad := false, shortVf := false, lastDiag := 0, diagAt := none, dis := 0, cplHeld := none
    cplFault := c.cplFault && mode != 0 }

/-- A refresh of the latch with a value (R270, step 3); an output that goes off limits no current (R265). -/
def FioCh.refresh (c : FioCh) (now : Nat) (v : Bool) : FioCh :=
  { c with latch := v, refAt := some now, failAt := none, opened := false, curlim := c.curlim && v }

/-- The filtered state of an input as its coupler and its frame carry it. -/
def FioCh.filtOn (c : FioCh) : Bool := if c.mode = 2 then c.filt == 2 else c.filt == 1

namespace State

/-- A channel and a group. -/
def fioCh (s : State) (c : Nat) : FioCh := tget s.fio.ch c
def fioGrp (s : State) (g : Nat) : FioGrp := tget s.fio.grp g

/-- Change a channel or a group. -/
def modCh (s : State) (c : Nat) (f : FioCh → FioCh) : State := { s with fio := { s.fio with ch := tmod s.fio.ch c f } }
def modGrp (s : State) (g : Nat) (f : FioGrp → FioGrp) : State := { s with fio := { s.fio with grp := tmod s.fio.grp g f } }

/-- An event of FIO, in the collection of FIO_EVCOLL (R276). -/
def fioEvent (s : State) (code sev : Nat) (payload : List Byte) : State :=
  let k := s.getF Fld.FIO_EVCOLL_COLL
  s.emit 0x07 code sev (if 55 < k then 0 else k) payload

/-- Whether the module is of the 110 V class, by its ordering code (R5, R254). -/
def hv (s : State) : Bool := s.getF Fld.SYS_IDENT_CODE == 1

/-- The level below which a group counts as unsupplied, and the operating minimum, in 0.1 V (R254). -/
def vfUnsupplied (s : State) : Int := if s.hv then 400 else 100
def vfMin (s : State) : Int := if s.hv then 770 else 168

/-- Whether the isolated side of a group works (R253, R256). -/
def fioPowered (s : State) (g : Nat) : Bool := decide (s.vfUnsupplied ≤ (s.fioGrp g).vf)

/-- The group state shown. -/
def fioState (s : State) (g : Nat) : Nat := s.getF (Fld.FIO_GSTAT_STATE g)

/-- Whether a group samples its inputs (R255). -/
def fioSampling (s : State) (g : Nat) : Bool := s.fioState g == 2 || s.fioState g == 4

/-- Whether the logic side refreshes the latches of a group (R269); a new custodian does from its resumption edge (R489). -/
def refreshes (s : State) (g : Nat) : Bool := s.custodyOn && s.fioSampling g && s.logicUp && s.rpl.resume.isNone

/-- Whether the fallback path of a group works (R267). -/
def serOk (s : State) (g : Nat) : Bool := s.bit (Fld.FIO_GSTAT_SERLINK_OK g)

/-- The commanded state of an output: CMD of its data record (R275). -/
def fioCmd (s : State) (c : Nat) : Bool := (slice (tget s.rts.outs (outKey 0x07 c)) 8 1).any (· != 0)

/-- Whether an output's latch is being refreshed now, over its working path. -/
def fioFed (s : State) (c : Nat) : Bool :=
  s.refreshes (fioGroupOf c) && (if (s.fioCh c).cplFault then s.serOk (fioGroupOf c) else (s.fioCh c).cplOk)

/-- Whether an output drives its terminal (R253, R262, R263, R270, R271). -/
def fioDriven (s : State) (c : Nat) : Bool :=
  let ch := s.fioCh c
  ch.mode == 3 && s.fioPowered (fioGroupOf c) && ch.latch && !ch.opened && !ch.therm && !(s.fioGrp (fioGroupOf c)).ovlOff

/-! ### The data record (R275) -/

/-- INVALID: off, a group without sampling, no path, or an output in its fail state. -/
def fioInvalid (s : State) (c : Nat) : Bool :=
  let ch := s.fioCh c
  ch.mode == 0 || !s.fioSampling (fioGroupOf c) || (ch.cplFault && !s.serOk (fioGroupOf c)) || (ch.mode == 3 && ch.failAt.isSome)

/-- VALUE: on the main path an input shows its coupler, which carries the filtered state unless it was last seen holding
another one (R260, R268; DEDUCED, assumption 106). -/
def fioValue (s : State) (c : Nat) : Bool :=
  let ch := s.fioCh c
  !s.fioInvalid c && (if ch.mode = 3 then ch.term else if ch.cplFault then ch.filtOn else ch.cplHeld.getD ch.filtOn)

/-- The DIAG byte. -/
def fioDiag (s : State) (c : Nat) : Nat :=
  let ch := s.fioCh c
  b2n (s.fioInvalid c) + 2 * b2n ch.cplFault + 4 * b2n ch.xchkShown + 8 * b2n ch.openLoad + 16 * b2n ch.shortVf
    + 32 * b2n ch.curlim + 64 * b2n ch.therm + 128 * b2n ch.cfgErr

/-- The 16 bytes of a channel's data record. -/
def fioRecord (s : State) (c : Nat) : List Byte :=
  let ch := s.fioCh c
  leBytes 1 (b2n (s.fioValue c)) ++ leBytes 1 (if ch.mode = 2 then ch.filt else 0xFF) ++ leBytes 1 (s.fioDiag c)
    ++ leBytes 1 (s.fioState (fioGroupOf c) + 8 * b2n ch.supgap) ++ leBytes 4 ch.chgMt
    ++ slice (tget s.rts.outs (outKey 0x07 c)) 8 1 ++ List.replicate 7 0

/-- FIO_CHSTAT_c follows a channel (R277). -/
def fioShow (s : State) (c : Nat) : State :=
  let ch := s.fioCh c
  s.wr (Reg.FIO_CHSTAT c) ((if ch.lost then 0 else ch.mode) + 8 * b2n (s.fioValue c) + 16 * b2n ch.term
    + 32 * b2n ch.cplFault + 64 * b2n ch.failAt.isSome + 128 * b2n ch.cfgErr + 256 * s.fioDiag c)

/-- FIO_CHSTAT of a group's channels. -/
def fioShowGroup (s : State) (g : Nat) : State := (fioChans g).foldl (fun s c => s.fioShow c) s

/-! ### Groups (R252 to R256) -/

/-- The group state that applies (R255). -/
def fioStateNow (s : State) (g : Nat) : Nat :=
  let vf := (s.fioGrp g).vf
  if s.bit Fld.FIO_CLASS_MISMATCH then 5
  else if vf < -30 then 3
  else if vf < s.vfUnsupplied then 1
  else if (fioChans g).all fun c => (s.fioCh c).mode == 0 || (s.fioCh c).lost then 0
  else if vf < s.vfMin then 4
  else 2

/-- The couplers of a group refresh the latches of their outputs with the commanded states (R269); one that was last seen
holding another state keeps carrying that one (R268; DEDUCED, assumption 106). -/
def fioCouple (s : State) (g : Nat) : State :=
  if !s.refreshes g then s
  else (fioChans g).foldl (fun s c =>
    let ch := s.fioCh c
    if ch.mode = 3 ∧ !ch.cplFault ∧ ch.cplOk then s.modCh c fun ch => ch.refresh s.time.clock (ch.cplHeld.getD (s.fioCmd c)) else s) s

/-- FIO_GSTAT_g follows the supply and the modes; a change is counted and reported (R255, R256, R276). -/
def fioGroup (s : State) (g : Nat) : State :=
  let vf := (s.fioGrp g).vf
  let old := s.fioState g
  let new := s.fioStateNow g
  let s := if old ≠ new ∧ (old = 2 ∨ old = 4) ∧ new ≠ 2 ∧ new ≠ 4 then s.stopRefresh else s
  let s := s.setF (Fld.FIO_GSTAT_VF g) (min 65535 vf.toNat)
  let s := (s.setB (Fld.FIO_GSTAT_REVERSED g) (decide (vf < 0))).setB (Fld.FIO_GSTAT_VF_LOW g) (decide (vf < s.vfMin))
  let s := s.setF (Fld.FIO_GSTAT_STATE g) new
  if old = new then s
  else
    let s := if new = 3 then s.inc64 (Reg.FIO_REVERSALS g) else s
    ((s.fioEvent 0x0604 3 (p4 [g, old, new])).fioCouple g).fioShowGroup g

/-- The isolated side powers up or stops: latches off until refreshed, and every stage of an input at its start, so that its
filtered state is off until its debounce time (R253, R256, R271). -/
def fioPowerChange (s : State) (g : Nat) : State :=
  (fioChans g).foldl (fun s c => s.modCh c fun ch => { ch with
    latch := false, refAt := none, failAt := none, opened := false, level := false, net := 4, filt := fioOff ch.mode
    since := s.time.clock, supgap := false, therm := false, curlim := false }) s

/-! ### Modes (R257, R258, R273, R274) -/

/-- Whether an enabled task's output map names CMD of a channel. -/
def fioMapped (s : State) (c : Nat) : Bool :=
  (s.enabledIn s.activeTab).any fun t => (s.outMapOf (s.ent t)).any fun m => m.blk == 0x07 && m.entry == c && m.bofs == 8

/-- Channel `c` takes its working entry at an edge; `changed` where an entry takes effect at this edge. -/
def fioConfigure (s : State) (changed : Bool) (c : Nat) : State :=
  let cat := s.cat .fio
  let here := cat.inUse && decide (c < cat.count)
  let e := s.catEntry .fio c
  let ok := fioEntryOk s.hv e
  let mode := if here && ok then Machine.ent e 0 1 else 0
  let s := if here && changed then
      (if ok then s.modCh c fun ch => { ch with cfgErr := false }
       else ((s.modCh c fun ch => { ch with cfgErr := true }).inc64 Reg.FIO_CFGINVALID).fioEvent 0x0608 3 (p4 [c, Machine.ent e 0 1]))
    else s
  let old := s.fioCh c
  let s := if mode = 3 ∧ (old.mode ≠ 3 ∨ old.lost) ∧ !s.fioMapped c then
      s.modRts fun r => { r with outs := tmod r.outs (outKey 0x07 c) fun l => splice l 8 [0] }
    else s
  s.modCh c fun ch => ch.configure s.time.clock mode e

/-- One bit per channel of a group. -/
def fioBits (g : Nat) (f : Nat → Bool) : Nat := ((fioChans g).filter f).foldl (fun m c => m + 2 ^ (c % 16)) 0

/-- The commanded states of a group's outputs, and the filtered states of its inputs. -/
def fioCmds (s : State) (g : Nat) : Nat := fioBits g fun c => (s.fioCh c).mode == 3 && s.fioCmd c
def fioFilts (s : State) (g : Nat) : Nat := fioBits g fun c => (s.fioCh c).mode != 3 && (s.fioCh c).filtOn

/-- What the couplers of channels show after the edge: with a bit of `wrong`, the other state than they should (R260, R268). -/
def fioSeen (s : State) (wrong : BitVec 32) (output : Bool) : State :=
  (List.range 32).foldl (fun s c =>
    let ch := s.fioCh c
    let held := if wrong.toNat.testBit c then some (!(if output then s.fioCmd c else ch.filtOn)) else none
    if ch.mode != 0 && (ch.mode == 3) == output && ch.cplHeld != held then s.modCh c fun ch => { ch with cplHeld := held } else s) s

/-- Field I/O at a beat edge, before the snapshot: fail-state events of the beat that ended, modes, groups, XCHK, and what the
frames of this refresh instant carry: the outbound one the commanded states before the edge, the inbound one the filtered states
in the new modes (R258, R266). While the logic side is in reset, the isolated side goes on by itself (R253), and the entries that
take effect do so at the first edge after it (R274). -/
def fioEdge (s : State) (changes : List CatChange) (wrong : BitVec 32) : State :=
  if !s.logicAlive then
    (if changes.isEmpty then s else { s with fio := { s.fio with missed := s.fio.missed ++ changes.map fun x => x.idx } })
  else
  let cmds := [s.fioCmds 0, s.fioCmds 1]
  let fresh := s.fio.missed ++ changes.map fun x => x.idx
  let s := if s.fio.missed.isEmpty then s else { s with fio := { s.fio with missed := [] } }
  let s := (List.range 2).foldl (fun s g =>
    let m : Nat := ((fioChans g).filter fun c => (s.fioCh c).failedNow).foldl (fun m c => m + 2 ^ c) 0
    if m = 0 then s else s.fioEvent 0x0605 4 (p4 [g, m])) s
  let s := (List.range 32).foldl (fun s c =>
    let s := if (s.fioCh c).xchk || (s.fioCh c).xchkShown || (s.fioCh c).failedNow then
        s.modCh c fun ch => { ch with xchkShown := ch.xchk, xchk := false, failedNow := false }
      else s
    s.fioConfigure (fresh.contains c) c) s
  let s := (List.range 2).foldl (fun s g =>
    s.modGrp g fun x => { x with edgeFrame := some (s.time.mt, cmds.getD g 0, s.fioFilts g) }) s
  (List.range 2).foldl (fun s g => (s.fioGroup g).fioShowGroup g) (s.fioSeen wrong false)

/-- Field I/O at a beat edge, after the output engine has latched: the couplers carry the new commanded states (R258,
R269). -/
def fioLatchEdge (s : State) (wrong : BitVec 32) : State :=
  (List.range 2).foldl (fun s g => (s.fioCouple g).fioShowGroup g) (s.fioSeen wrong true)

/-! ### The fallback path (R266 to R268) -/

/-- The refresh that has ended is judged: three without a valid frame in a direction lose the path, three good in both
directions bring it back (R267; "in either direction" is read as in one of them, DEDUCED, assumption 20). -/
def serJudge (s : State) (g : Nat) : State :=
  let x := s.fioGrp g
  if !x.started then s
  else
    let badIn := if x.gotIn then 0 else x.badIn + 1
    let badOut := if x.gotOut then 0 else x.badOut + 1
    let good := if x.gotIn && x.gotOut then x.good + 1 else 0
    let s := s.modGrp g fun y => { y with badIn := min 3 badIn, badOut := min 3 badOut, good := min 3 good }
    if s.serOk g ∧ (3 ≤ badIn ∨ 3 ≤ badOut) then
      ((s.setB (Fld.FIO_GSTAT_SERLINK_OK g) false).inc64 (Reg.FIO_SERLOSS g)).fioEvent 0x0602 4 (p4 [g])
    else if !s.serOk g ∧ 3 ≤ good then (s.setB (Fld.FIO_GSTAT_SERLINK_OK g) true).fioEvent 0x0603 2 (p4 [g])
    else s

/-- One compare of a channel (R268). -/
def fioCompare (s : State) (c : Nat) (disagrees : Bool) : State :=
  if !disagrees then s.modCh c fun ch => { ch with dis := 0 }
  else
    let s := (s.inc64 (Reg.FIO_XDIS c)).modCh c fun ch => { ch with dis := min 3 (ch.dis + 1), xchk := true }
    let ch := s.fioCh c
    if 3 ≤ ch.dis ∧ !ch.cplFault then
      (s.modCh c fun ch => { ch with cplFault := true }).fioEvent 0x0601 4 (p4 [c, b2n (ch.mode == 3)])
    else s

end State

/-! ### The commands -/

/-- FIELD_SUPPLY_CHANGE (R253 to R256, R271). -/
def execFieldSupplyChange (dt : Nat) (group : Fin 2) (vf : Int) (s : State) : Host.Outcome State Fault Refusal :=
  let s := s.elapse dt
  let g := group.val
  let was := s.fioPowered g
  let t := s.modGrp g fun x => { x with vf }
  .next (if was != t.fioPowered g then ((t.fioGroup g).fioPowerChange g).fioCouple g |>.fioShowGroup g
    else (t.fioGroup g).fioShowGroup g)

/-- ANTIGLITCH_EXPIRY (R254, R259, R261): a reading held for 5 µs passes while the group is supplied. -/
def execAntiglitchExpiry (dt : Nat) (ch : Fin 32) (reading : InReading) (s : State) : Host.Outcome State Fault Refusal :=
  let s := s.elapse dt
  let c := ch.val
  .next (
    if !s.fioPowered (fioGroupOf c) then s
    else
      let x := s.fioCh c
      let vf := (s.fioGrp (fioGroupOf c)).vf
      let y : FioCh := { x with level := fioLevel s.hv x.level reading, net := fioBand vf reading }
      let y := if y.wants = x.wants ∧ (y.mode ≠ 2 ∨ y.net = x.net) then y else { y with since := s.time.clock }
      let y := if y.net < 4 then { y with supgap := false } else y
      (s.modCh c fun _ => y).fioShow c)

/-- DEBOUNCE_EXPIRY (R259 to R261). -/
def execDebounceExpiry (dt : Nat) (ch : Fin 32) (s : State) : Host.Outcome State Fault Refusal :=
  let s := s.elapse dt
  let c := ch.val
  let x := s.fioCh c
  .next (match x.wants with
    | some v =>
      if (x.mode = 1 ∨ x.mode = 2) ∧ s.fioPowered (fioGroupOf c) ∧ v ≠ x.filt ∧ x.since + x.deb * 100000 ≤ s.time.clock then
        if x.lost then s.modCh c fun x => { x with filt := v }
        else ((s.inc64 (Reg.FIO_CHG c)).modCh c fun x => { x with
          filt := v, chgMt := s.time.mt / 1000 * 1000 % 4294967296 }).fioShow c
      else s
    | none => s)

/-- SUPGAP_TIMEOUT (R261). -/
def execSupgapTimeout (dt : Nat) (ch : Fin 32) (s : State) : Host.Outcome State Fault Refusal :=
  let s := s.elapse dt
  let x := s.fioCh ch.val
  .next (if x.mode = 2 ∧ x.net = 4 ∧ s.fioPowered (fioGroupOf ch.val) ∧ x.since + 100000000 ≤ s.time.clock then
    s.modCh ch.val fun x => { x with supgap := true }
  else s)

/-- FIO_THERMAL (R262, R276): the junction of an output exceeds 150 °C. -/
def execFioThermal (dt : Nat) (ch : Fin 32) (s : State) : Host.Outcome State Fault Refusal :=
  let s := s.elapse dt
  let c := ch.val
  .next (if (s.fioCh c).mode = 3 ∧ !(s.fioCh c).therm then
    (((s.inc64 (Reg.FIO_TRIPS c)).modCh c fun x => { x with therm := true, curlim := false }).fioEvent 0x0606 3 (p4 [c])).fioShow c
  else s)

/-- THERMAL_RESTART (R262): the output returns to its latch. -/
def execThermalRestart (dt : Nat) (ch : Fin 32) (s : State) : Host.Outcome State Fault Refusal :=
  .next (((s.elapse dt).modCh ch.val fun x => { x with therm := false }).fioShow ch.val)

/-- FIO_GROUP_OVERLOAD (R263): while an output of the group drives its terminal, be the logic side in reset too (R253). -/
def execFioGroupOverload (dt : Nat) (group : Fin 2) (s : State) : Host.Outcome State Fault Refusal :=
  let s := s.elapse dt
  let g := group.val
  .next (if !(fioChans g).any s.fioDriven then s
    else
      let s := s.modGrp g fun x => { x with ovlOff := true, ovlAt := s.time.clock }
      let s := (fioChans g).foldl (fun s c => if (s.fioCh c).curlim then s.modCh c fun x => { x with curlim := false } else s) s
      if !s.logicAlive then s
      else
        let s := (s.setB (Fld.FIO_GSTAT_OVL g) true).inc64 (Reg.FIO_OVLTRIP g)
        (s.fioEvent 0x0607 4 (p4 [g])).fioShowGroup g)

/-- GROUP_OVERLOAD_END (R263): 100 ms later the outputs return to their commanded values. -/
def execGroupOverloadEnd (dt : Nat) (group : Fin 2) (s : State) : Host.Outcome State Fault Refusal :=
  let s := s.elapse dt
  .next (if (s.fioGrp group.val).ovlAt + 100000000 ≤ s.time.clock then
    s.modGrp group.val fun x => { x with ovlOff := false }
  else s)

/-- OVL_CLEAR (R263): the group current has stayed below the limit for 1 s. -/
def execOvlClear (dt : Nat) (group : Fin 2) (s : State) : Host.Outcome State Fault Refusal :=
  let s := s.elapse dt
  let x := s.fioGrp group.val
  .next (if !x.ovlOff ∧ x.ovlAt + 1000000000 ≤ s.time.clock then s.setB (Fld.FIO_GSTAT_OVL group.val) false else s)

/-- OUTPUT_DIAG_TEST (R264, R265): readings in 0.1 V with and without the test current, and whether the switch limits
current. Commanded off, the terminal is diagnosed every 10 ms; commanded on, CURLIM follows. -/
def execOutputDiagTest (dt : Nat) (ch : Fin 32) (withTest withoutTest : Nat) (current : Bool) (s : State) :
    Host.Outcome State Fault Refusal :=
  let s := s.elapse dt
  let c := ch.val
  let x := s.fioCh c
  let vf := (s.fioGrp (fioGroupOf c)).vf
  let below (w : Nat) : Bool := decide (2 * (w : Int) < vf)
  let above (w : Nat) : Bool := decide (vf < 2 * (w : Int))
  let near (w : Nat) : Bool := decide (vf < (w : Int) + 30)
  let due := match x.diagAt with
    | some t => decide (t + 10000000 ≤ s.time.clock)
    | none => true
  .next (
    if x.mode ≠ 3 ∨ !s.fioSampling (fioGroupOf c) then s
    else if x.latch && !x.opened then (s.modCh c fun x => { x with curlim := current, lastDiag := 0, diagAt := none }).fioShow c
    else if !due then s
    else
      -- 1 load present, 2 OPEN_LOAD, 3 SHORT_VF, 0 no result of R264
      let r := if x.oldEn then
          (if near withTest && near withoutTest then 3 else if below withTest && below withoutTest then 1
           else if above withTest && below withoutTest then 2 else 0)
        else (if near withoutTest then 3 else if below withoutTest then 1 else 0)
      let twice := r ≠ 0 ∧ r = x.lastDiag
      let open_ := if twice ∧ r = 2 then true else if twice ∧ r = 1 then false else x.openLoad
      let short := if twice ∧ r = 3 then true else if twice ∧ r = 1 then false else x.shortVf
      let now := s.time.clock
      let s := s.modCh c fun y => { y with
        curlim := false, lastDiag := r, diagAt := some now, openLoad := open_, shortVf := short }
      let s := if open_ = x.openLoad then s else s.fioEvent 0x0609 3 (p4 [c, 3, b2n open_])
      let s := if short = x.shortVf then s else s.fioEvent 0x0609 3 (p4 [c, 4, b2n short])
      s.fioShow c)

/-- The pattern of an output coupler is there (`silent` is `none`), or has been missing for 5 µs, when it counts as not
refreshing: the latch was then last refreshed by the last valid pattern (R266, R270). Where the logic side sends none, a missing
one says nothing of the coupler. -/
def State.couplerPattern (s : State) (c : Nat) (silent : Option Nat) : State :=
  let ch := s.fioCh c
  let now := s.time.clock
  let sent := s.refreshes (fioGroupOf c)
  if ch.mode ≠ 3 then s
  else match silent with
    | none =>
      if ch.cplOk then s
      else s.modCh c fun ch =>
        let ch := { ch with cplOk := true }
        if sent && !ch.cplFault then ch.refresh now (ch.cplHeld.getD (s.fioCmd c)) else ch
    | some ns =>
      if !ch.cplOk ∨ !sent then s
      else s.modCh c fun ch => { ch with
        cplOk := false, refAt := if ch.cplFault then ch.refAt else some (max (ch.refAt.getD 0) (now - max 5000 ns)) }

/-- FALLBACK_REFRESH (R266, R267): a refresh instant. The refresh before it is judged; both frames are built, at a beat edge
with the commanded states before it and the filtered states at it; `silent` are the output couplers that have shown no valid
pattern for 5 µs. -/
def execFallbackRefresh (dt : Nat) (refresh : FioRefresh) (s : State) : Host.Outcome State Fault Refusal :=
  let s := s.elapse dt
  let g := refresh.group.val
  .next (if s.time.mt % 10000 ≠ 0 ∨ !s.logicUp then s
    else
      let s := s.serJudge g
      let edge := match (s.fioGrp g).edgeFrame with
        | some (m, o, i) => if m = s.time.mt then some (o, i) else none
        | none => none
      let (o, i) := edge.getD (s.fioCmds g, s.fioFilts g)
      let s := s.modGrp g fun x => { x with
        started := true, index := (x.index + 1) % 16, atEdge := edge.isSome, outStates := some o
        inStates := if s.fioPowered g then some i else none, gotIn := false, gotOut := false }
      ((fioChans g).foldl (fun s c =>
        s.couplerPattern c ((refresh.silent.find? fun x => x.1.val == c % 16).map fun x => x.2)) s).fioShowGroup g)

/-- INBOUND_FRAME_RX (R267, R268): the inbound frame of the refresh; `couplers` are the outputs of the input couplers 2 µs after
the instant. A coupler without a valid pattern disagrees (DEDUCED, assumption 21). -/
def execInboundFrameRx (dt : Nat) (group : Fin 2) (frame : FallbackFrame) (s : State) : Host.Outcome State Fault Refusal :=
  let s := s.elapse dt
  let g := group.val
  let index := (s.fioGrp g).index
  .next (match (s.fioGrp g).inStates with
    | none => s
    | some states =>
      if !s.logicUp then s
      else
      let s := (s.modGrp g fun x => { x with inStates := none }).inc64 (Reg.FIO_SERRX g)
      if !frame.crcOk then s.inc64 (Reg.FIO_SERCRC g)
      else if frame.index.val ≠ index then s.inc64 (Reg.FIO_SERSEQ g)
      else
        let s := (s.inc64 (Reg.FIO_SEROK g)).modGrp g fun x => { x with gotIn := true }
        let s := (fioChans g).foldl (fun s c =>
          let i := c % 16
          let m := (s.fioCh c).mode
          let v := states.testBit i
          let k := frame.couplers.toNat.testBit i
          let ok := frame.couplersValid.toNat.testBit i
          if (m = 1 ∨ m = 2) ∧ s.fioSampling g then
            (s.fioCompare c (v != k || !ok)).modCh c fun ch => { ch with cplHeld := if ok && v != k then some k else none }
          else s) s
        s.fioShowGroup g)

/-- OUTBOUND_FRAME_RX (R267 to R269): the outbound frame of the refresh; `couplers` are the output couplers' states that
belong to the same latched values: at a beat edge those before it, else those that the latches follow now. The frame refreshes
the latches on the fallback path, while that path works, and no other. -/
def execOutboundFrameRx (dt : Nat) (group : Fin 2) (frame : FallbackFrame) (s : State) : Host.Outcome State Fault Refusal :=
  let s := s.elapse dt
  let g := group.val
  let index := (s.fioGrp g).index
  let atEdge := (s.fioGrp g).atEdge
  .next (match (s.fioGrp g).outStates with
    | none => s
    | some states =>
      if !s.fioPowered g then s
      else
      let s := s.modGrp g fun x => { x with outStates := none }
      if !frame.crcOk ∨ frame.index.val ≠ index then s.inc64 (Reg.FIO_SEROCRC g)
      else
      let s := s.modGrp g fun x => { x with gotOut := true }
      let s := if !s.refreshes g then s else (fioChans g).foldl (fun s c =>
        let i := c % 16
        let v := states.testBit i
        let k := frame.couplers.toNat.testBit i
        let ok := frame.couplersValid.toNat.testBit i
        if (s.fioCh c).mode ≠ 3 then s
        else
          let s := s.fioCompare c (v != k || !ok)
          s.modCh c fun ch =>
            if ch.cplFault then (if s.serOk g then ch.refresh s.time.clock v else ch)
            else if atEdge || !ok then ch
            else ({ ch with cplHeld := if v != k then some k else none }).refresh s.time.clock k) s
      s.fioShowGroup g)

/-- OUTPUT_WATCHDOG_EXPIRY (R270): WDT has passed since the last refresh. -/
def execOutputWatchdogExpiry (dt : Nat) (ch : Fin 32) (s : State) : Host.Outcome State Fault Refusal :=
  let s := s.elapse dt
  let c := ch.val
  let x := s.fioCh c
  .next (match x.refAt with
    | some t =>
      if x.mode = 3 ∧ x.failAt.isNone ∧ t + x.wdt * 250000 ≤ s.time.clock ∧ (x.lost ∨ !s.fioFed c) then
        let now := s.time.clock
        let open_ := !x.hold || x.holdt == 0
        let s := s.modCh c fun x => { x with
          failAt := some now, opened := open_, failedNow := s.logicAlive, curlim := x.curlim && !open_ }
        if s.logicAlive then (s.inc64 (Reg.FIO_WDEXP c)).fioShow c else s
      else s
    | none => s)

/-- FAIL_HOLD_EXPIRY (R270): HOLDT more has passed and the switch opens. -/
def execFailHoldExpiry (dt : Nat) (ch : Fin 32) (s : State) : Host.Outcome State Fault Refusal :=
  let s := s.elapse dt
  let c := ch.val
  let x := s.fioCh c
  .next (match x.failAt with
    | some t => if t + x.holdt * 250000 ≤ s.time.clock then
      (s.modCh c fun x => { x with opened := true, curlim := false }).fioShow c else s
    | none => s)

end Sys2Proof.Machine
end

