-- ==== Sys2Proof/Machine/Measure.lean ====
section
/-! DEFINITION. The measurement and decimation chain (R278 to R311): catalogue, sinc stage, output grid and restarts, DC
blocker, calibration, delivery at the edge, sample rings, and SYNC. -/

namespace Sys2Proof.Machine

/-- The output period of a preset in ns (R284). -/
def measP (p : Nat) : Nat := 15625 * 4 ^ p

/-- The FIR ratio of a preset. -/
def measRatio (p : Nat) : Nat := 4 * 4 ^ p

/-- The group delay of a preset in ns. -/
def measD (p : Nat) : Nat := 35000 * 4 ^ p

/-- The delivery lag of a preset: 3 × P. -/
def measL (p : Nat) : Nat := 3 * measP p

/-- The byte of the first invalid field of an entry of channel `m`, if any (R308 to R310). -/
def measInvalid (m : Nat) (e : List Byte) : Option Nat :=
  let internal : Bool := 8 ≤ m
  let frz := ent e 3 1
  let log := ent e 24 1
  if 4 ≤ ent e 0 1 ∨ (!internal ∧ (ent e 0 1).testBit 1) then some 0
  else if 3 < ent e 1 1 then some 1
  else if 3 < ent e 2 1 then some 2
  else if 10 < frz % 16 ∨ 64 ≤ frz then some 3
  else if (if internal then ent e 12 1 ≠ 0 else 15 < ent e 12 1) then some 12
  else if ent e 13 3 ≠ 0 then some 13
  else if ent e 16 8 % 4096 ≠ 0 ∨ 2 ^ 40 ≤ ent e 16 8 then some 16
  else if log ≠ 0 ∧ (log < 6 ∨ 16 < log) then some 24
  else if ent e 25 7 ≠ 0 then some 25
  else if ent e 48 16 ≠ 0 then some 48
  else none

/-- A signed 32-bit number. -/
def signed32 (v : Nat) : Int := if v < 2147483648 then (v : Int) else (v : Int) - 4294967296

/-- A quotient whose rounding the spec does not give: below or above, as the free choice tells. -/
def divFree (n : Int) (d : Nat) : Int := n / d + if n % d = 0 then 0 else if Config.roundUp n d then 1 else 0

/-- A quotient rounded to the nearest number, halves away from zero (R295). -/
def divHalfAway (n : Int) (d : Nat) : Int :=
  if 0 ≤ n then (2 * n + d) / (2 * (d : Int)) else -((2 * (-n) + d) / (2 * (d : Int)))

/-- One modulator bit through the four integrators, each of which adds the new value before it; 32-bit registers wrap
(R282). -/
def sincBit (l : List Nat) (x : Nat) : List Nat :=
  (l.foldl (fun (acc : List Nat × Nat) i => (acc.1 ++ [(i + acc.2) % 4294967296], (i + acc.2) % 4294967296)) ([], x)).1

/-- The four combs at the output rate: new delays and output (R282). -/
def sincComb (l : List Nat) (x : Nat) : List Nat × Nat :=
  l.foldl (fun (acc : List Nat × Nat) d => (acc.1 ++ [acc.2], (acc.2 + 4294967296 - d) % 4294967296)) ([], x)

/-- Whether a sinc output marks an overload (R283). -/
def sincOver (x : Nat) : Bool := decide (x < 1048576 ∨ 16777216 - 1048576 < x)

/-- The sinc outputs in the input span of output `j`: those within D of its timestamp, since the preset is linear phase
(DEDUCED from R284 to R286, R290, assumption 22). -/
def MeasCh.span (c : MeasCh) (j : Nat) : List Nat :=
  let w := measD c.preset * 256 / 1000000
  let mid := j * measRatio c.preset
  let lo := mid - w
  let hi := min c.sincN (mid + w)
  -- `sincs` holds output number `sincN` first
  (c.sincs.drop (c.sincN - hi)).take (hi - lo)

/-- The working entry that applies to a timestamp (R293, R309). -/
def MeasCh.conf (c : MeasCh) (t : Nat) : List Byte :=
  ((c.confs.find? fun x => decide (x.1 ≤ t)).map fun x => x.2).getD ((c.confs.getLast?.map fun x => x.2).getD [])

/-- Whether the DC blocker is frozen at a timestamp (R294). -/
def MeasCh.frozenAt (c : MeasCh) (t : Nat) : Bool := ((c.frz.find? fun x => decide (x.1 ≤ t)).map fun x => x.2).getD false

/-- A restart with start instant `r`: filter state cleared (R289). -/
def MeasCh.restart (c : MeasCh) (r : Nat) : MeasCh :=
  { c with run := some r, j := 0, integ := [0, 0, 0, 0], comb := [0, 0, 0, 0], sincs := [], sincN := 0, est := 0, sum := 0
           recur := false }

/-- The first grid instant of anchor `a` and period `p` at or after `e` (R287, R289). -/
def gridFrom (a p e : Nat) : Nat := if e ≤ a then a else a + (e - a + p - 1) / p * p

namespace State

/-- A channel. -/
def measCh (s : State) (m : Nat) : MeasCh := tget s.meas.ch m

/-- Change the chain, or a channel. -/
def modMeas (s : State) (f : MeasSt → MeasSt) : State := { s with meas := f s.meas }
def modMc (s : State) (m : Nat) (f : MeasCh → MeasCh) : State := s.modMeas fun x => { x with ch := tmod x.ch m f }

/-- An event of MEAS (R310). -/
def measEvent (s : State) (code sev : Nat) (payload : List Byte) : State :=
  let k := s.getF Fld.MEAS_EVCOLL_COLL
  s.emit 0x08 code sev (if 55 < k then 0 else k) payload

/-- The anchor (R285). -/
def anchor (s : State) : Nat := s.rd64 Reg.MEAS_ANCHOR

/-- The enabled channels. -/
def measOn (s : State) : List Nat := (List.range 16).filter fun m => (s.measCh m).en

/-- MEAS_CHSTAT_m follows a channel (R311). -/
def measShow (s : State) (m : Nat) : State :=
  let c := s.measCh m
  let fr := (c.frz.head?.map fun x => x.2).getD false
  let fl := (c.frozen.map fun o => o.flags).getD 0
  let s := s.setF (Fld.MEAS_CHSTAT_FLAGS m) fl
  let s := (s.setB (Fld.MEAS_CHSTAT_CFGERR m) c.cfgErr).setB (Fld.MEAS_CHSTAT_FROZEN m) (fr && c.en)
  let s := (s.setB (Fld.MEAS_CHSTAT_EN m) c.en).setF (Fld.MEAS_CHSTAT_PRESET m) c.preset
  s.wr (Reg.MEAS_DCEST m) (c.est / 65536 % 4294967296).toNat

/-- The data record of a channel (R298). -/
def measRecord (s : State) (m : Nat) : List Byte :=
  let c := s.measCh m
  let word (v : Int) : List Byte := leBytes 4 (v % 4294967296).toNat
  let or := c.batch.foldl (fun r o => r ||| o.flags) 0
  let head := match c.frozen with
    | some o => if c.en then (word o.value, o.flags, o.ts) else (word 0, 16, 0)
    | none => (word 0, 16, 0)
  let batch := if c.en then c.batch else []
  head.1 ++ leBytes 1 head.2.1 ++ leBytes 1 batch.length ++ leBytes 1 (if c.en then or else 0) ++ [0] ++ leBytes 8 head.2.2
    ++ slice (batch.flatMap fun o => word o.value) 0 64

/-! ### Delivery (R297 to R301) -/

/-- One output goes to its ring, or is counted as lost (R300). -/
def measWrite (s : State) (m : Nat) (o : MeasOut) : State :=
  match o.ring with
  | none => s.inc64 (Reg.MEAS_RINGOVF m)
  | some (base, log) =>
    let w := s.rd64 (Reg.MEAS_WRITTEN m)
    if w - s.rd64 (Reg.MEAS_RINGRD m) ≥ 2 ^ log then s.inc64 (Reg.MEAS_RINGOVF m)
    else
      let rec' := leBytes 8 o.ts ++ leBytes 4 (o.value % 4294967296).toNat ++ leBytes 1 o.flags ++ leBytes 1 m ++ leBytes 2 o.num
      (s.devWrite .d (base + w % 2 ^ log * 16) rec').inc64 (Reg.MEAS_WRITTEN m)

/-- The batch of a channel at an edge: every output that its lag makes due, in order (R297). All go to the ring; where the
last output of a slower preset meets a full batch of the new one, the record shows the newest 16, since COUNT ends there
(R298; DESIGN CHOICE, assumption 124). A channel without outputs is left. -/
def measDeliver (s : State) (m : Nat) : State :=
  let c := s.measCh m
  let due := c.ready.filter fun o => decide (o.due ≤ s.time.mt)
  if due.isEmpty then (if c.batch.isEmpty then s else s.modMc m fun c => { c with batch := [] })
  else
    let s := s.modMc m fun c => { c with
      ready := c.ready.filter fun o => !due.contains o, batch := due.drop (due.length - 16), frozen := due.getLast? }
    (due.foldl (fun s o => s.measWrite m o) s).measShow m

/-! ### SYNC (R302 to R307) -/

/-- Whether the module's own SYNC sources are ignored: a stack member at positions 1 to 7 (R305, R429). -/
def measMember (s : State) : Bool := s.bit Fld.CSC_STATUS_MEMBER

/-- Whether the module is the master of a stack with other members (R305). -/
def measMaster (s : State) : Bool := s.bit Fld.CSC_STATUS_MASTER && decide (s.getF Fld.CSC_MEMBERS_VEC > 1)

/-- A SYNC request of the module's own that is ignored or refused. -/
def syncIgnored (s : State) : State := s.inc64 Reg.MEAS_SYNCIGN

/-- The first MCLK edge at least 2 periods from now (R279, R302): MCLK has 4,096 periods per beat, one edge at its start. -/
def mclkEdge (s : State) : Nat :=
  let base := s.time.mt / 250000 * 250000
  let k := ((s.time.mt - base) * 4096 + 249999) / 250000 + 2
  base + (2 * k * 250000 + 4096) / 8192

/-- The first beat edge at least 100 µs from now (R305): the end of the running beat, stretched or not, or the one after. -/
def edgeAhead (s : State) : Nat :=
  if s.time.mt + 100000 ≤ s.time.edgeAt then s.time.edgeAt else s.time.edgeAt + 250000

/-- The master sends SYNC_AT to every other member (R305, R440): of a pin or command SYNC at its request, of an armed instant at the
beat edge before it, so that a withdrawn one is not sent (DESIGN CHOICE, assumption 124). -/
def sendSyncAt (s : State) : State :=
  s.postedOut 1 ((bitsOf 8 (s.getF Fld.CSC_MEMBERS_VEC)).filter (· != 0)).length

/-- A pin or command request (R302, R305). -/
def syncRequest (s : State) (src : Nat) : State :=
  if s.measMember then s.syncIgnored
  else if s.measMaster then (s.modMeas fun x => { x with syncs := x.syncs ++ [(s.edgeAhead, src)] }).sendSyncAt
  else s.modMeas fun x => { x with syncs := x.syncs ++ [(s.mclkEdge, src)] }

/-- A SYNC is performed at `at_` (R289, R304). -/
def syncPerform (s : State) (at_ src : Nat) : State :=
  let on := s.measOn
  let s := on.foldl (fun s m => (s.modMc m fun c => c.restart at_).measShow m) s
  let s := ((s.wr64 Reg.MEAS_ANCHOR at_).setF Fld.MEAS_STATUS_ANCHOR_SRC src).inc64 Reg.MEAS_SYNCS
  let s := (s.setB Fld.MEAS_STATUS_SLIP false).setB Fld.MEAS_STATUS_STACKMISS false
  let s := s.modMeas fun x => { x with
    lastSync := some at_
    syncOutUntil := if s.bit Fld.MEAS_SYNCCTL_SYNCOUT_EN then some (s.time.clock + 1000) else x.syncOutUntil }
  s.measEvent 0x0701 1 (p4 [src] ++ p8 [at_] ++ p4 [(on.foldl (fun v m => v + 2 ^ m) 0)])

/-- The requests that lie within 2 MCLK periods of one of a group, or of one that joins it so (R304). -/
def syncGroup (all : List (Nat × Nat)) : Nat → List (Nat × Nat) → List (Nat × Nat)
  | 0, g => g
  | n + 1, g => syncGroup all n (all.filter fun x => g.any fun y => decide (x.1 ≤ y.1 + 122 ∧ y.1 ≤ x.1 + 122))

/-- The requests whose instant has come: those within 2 MCLK periods of each other make one SYNC, with the highest source code and
that source's instant (R304; the instant is DESIGN CHOICE, assumption 23). One within 2 periods of the SYNC performed last
belongs to that one and raises its recorded source. A member drops its own sources and counts them (R305). The answer tells
whether one was performed. -/
def syncDue (s : State) : State × Bool :=
  let own := (s.meas.armed.map fun a => (a, 3)).toList
  let all := s.meas.syncs ++ own
  match all.find? fun x => decide (x.1 ≤ s.time.mt) with
  | none => (s, false)
  | some x =>
    let group := syncGroup all all.length [x]
    let mine (y : Nat × Nat) : Bool := s.measMember && y.2 != 4
    let first := ((group.find? fun y => !mine y).getD x)
    let best := group.foldl (fun (b : Nat × Nat) y => if b.2 < y.2 ∧ !mine y then y else b) first
    if s.time.mt < best.1 then (s, false)
    else
      let armedHit := s.meas.armed.any fun a => group.contains (a, 3)
      let s := s.modMeas fun m => { m with
        syncs := m.syncs.filter fun y => !group.contains y, armed := if armedHit then none else m.armed }
      let s := if armedHit then s.setB Fld.MEAS_STATUS_SYNCPEND false else s
      let just := match s.meas.lastSync with
        | some t => decide (best.1 ≤ t + 122 ∧ t ≤ best.1)
        | none => false
      let s := (group.filter mine).foldl (fun s _ => s.syncIgnored) s
      if mine best then (s, false)
      else if just then
        (s.setF Fld.MEAS_STATUS_ANCHOR_SRC (max (s.getF Fld.MEAS_STATUS_ANCHOR_SRC) best.2), false)
      else (s.syncPerform best.1 best.2, true)

/-- A forwarded instant is lost (R305). -/
def syncMissedStack (s : State) (at_ : Nat) : State :=
  ((s.inc64 Reg.MEAS_SYNCMISSED).setB Fld.MEAS_STATUS_STACKMISS true).measEvent 0x0702 3 (p8 [at_] ++ p4 [2])

/-- A forwarded instant arrives at a member (R305, R440). -/
def syncForwarded (s : State) (at_ : Nat) : State :=
  if at_ < s.time.mt + 2000 then s.syncMissedStack at_
  else s.modMeas fun x => { x with syncs := x.syncs ++ [(at_, 4)] }

/-- What the chain keeps by module time moves with a step: the working entries and freezes hold from the start, outputs not
yet delivered stay due as long after it as before, and so does a SYNC requested in the last MCLK periods (R71, R289, R293,
R294, R309). A forwarded instant that the step passes over is lost like an armed one (DESIGN CHOICE, assumption 124). -/
def measRebase (s : State) (old : Nat) : State :=
  let move (t : Nat) : Nat := ((t : Int) + s.time.mt - old).toNat
  let fresh (y : Nat × Nat) : Bool := y.2 != 4 && decide (y.1 < old + 1000)
  let lost := s.meas.syncs.filter fun y => !fresh y && decide (y.1 ≤ s.time.edgeAt)
  let s := s.modMeas fun x => { x with
    ch := (List.range 16).foldl (fun t m => tmod t m fun c => { c with
      confs := (c.confs.head?.map fun y => (0, y.2)).toList
      frz := (c.frz.head?.map fun y => (0, y.2)).toList
      ready := c.ready.map fun o => { o with due := move o.due } }) x.ch
    syncs := (x.syncs.filter fun y => !lost.contains y).map fun y => if fresh y then (move y.1, y.2) else y
    lastSync := none }
  lost.foldl (fun s y => (s.inc64 Reg.MEAS_SYNCMISSED).measEvent 0x0702 3 (p8 [y.1] ++ p4 [1])) s

/-- A step of module time as the chain sees it, once the stretched beat's end is known (R306, R307). -/
def measStep (s : State) : State :=
  let e := s.time.edgeAt
  let s := s.measOn.foldl (fun s m => (s.modMc m fun c => c.restart e).measShow m) s
  let s := ((s.wr64 Reg.MEAS_ANCHOR e).setF Fld.MEAS_STATUS_ANCHOR_SRC 0).setB Fld.MEAS_STATUS_SLIP true
  match s.meas.armed with
  | some a =>
    if a ≤ e then
      let s := (s.modMeas fun x => { x with armed := none }).setB Fld.MEAS_STATUS_SYNCPEND false
      (s.inc64 Reg.MEAS_SYNCMISSED).measEvent 0x0702 3 (p8 [a] ++ p4 [1])
    else s
  | none => s

/-! ### The edge (R257, R289, R291, R294, R309) -/

/-- The freeze condition of a channel under an entry, in the sample of this edge (R294). -/
def measFreeze (s : State) (m : Nat) (e : List Byte) : Bool :=
  let f := Machine.ent e 3 1
  s.meas.frzNow.testBit m || (f.testBit 4 && ((s.rd Reg.GAR_COND).testBit (f % 16) == f.testBit 5))

/-- A channel takes its working entry at an edge; the answer tells whether it must restart on the grid. -/
def measConfigure (s : State) (changed : Bool) (m : Nat) : State × Bool :=
  let cat := s.cat .meas
  let here := cat.inUse && decide (m < cat.count)
  let e := s.catEntry .meas m
  let bad := measInvalid m e
  let on := here && bad.isNone && (Machine.ent e 0 1).testBit 0
  let old := s.measCh m
  let s := if here && changed then (match bad with
      | some b => ((s.modMc m fun c => { c with cfgErr := true }).inc64 Reg.MEAS_CFGINVALID).measEvent 0x0706 3 (p4 [m, b])
      | none => s.modMc m fun c => { c with cfgErr := false })
    else s
  let mode := b2n ((Machine.ent e 0 1).testBit 1)
  if !on then
    (if old.en then
      -- what is ready goes to the ring now
      let s := old.ready.foldl (fun s o => s.measWrite m o) s
      s.modMc m fun c => { c with en := false, run := none, ready := [], batch := [], frozen := none, est := 0 }
     else s, false)
  else
    let fresh := !old.en || Machine.ent e 1 1 != old.preset || (decide (8 ≤ m) && mode != old.mode)
    let s := if 8 ≤ m ∧ mode ≠ old.mode then
        (s.wr (Reg.MEAS_FCALGAIN m) (if mode = 1 then (Config.factoryGain m).toNat else (Config.resetWord (Reg.MEAS_FCALGAIN m)).toNat)).wr
          (Reg.MEAS_FCALOFS m) (if mode = 1 then (Config.factoryOfs m).toNat else (Config.resetWord (Reg.MEAS_FCALOFS m)).toNat)
      else s
    let now := s.time.mt
    (s.modMc m fun c =>
      let c := if changed || !old.en then { c with confs := (now, e) :: c.confs.take 15 } else c
      { c with en := true, preset := Machine.ent e 1 1, mode := mode, frozen := if old.en then c.frozen else none }, fresh)

/-- Measurement at a beat edge: MEAS_FREEZE, entries, SYNCs of this instant, restarts, freezes, and the batches. -/
def measEdge (s : State) (changes : List CatChange) : State :=
  let seq := s.time.beatSeq
  let s := if s.meas.frzPend.isEmpty then s else
    let due := s.meas.frzPend.filter fun x => decide (x.2 ≤ seq)
    s.modMeas fun x => { x with frzNow := (due.getLast?.map fun y => y.1).getD x.frzNow
                                frzPend := x.frzPend.filter fun y => decide (seq < y.2) }
  let enabled := (s.cat .meas).inUse && changes.any fun x => x.fresh
  let (s, fresh) := (List.range 16).foldl (fun (acc : State × List Nat) m =>
    let r := acc.1.measConfigure (changes.any fun x => x.idx == m) m
    (r.1, if r.2 then acc.2 ++ [m] else acc.2)) (s, [])
  let (s, synced) := s.syncDue
  let now := s.time.mt
  let s :=
    if synced then s
    else if enabled then
      let s := (s.wr64 Reg.MEAS_ANCHOR now).setF Fld.MEAS_STATUS_ANCHOR_SRC 0
      s.measOn.foldl (fun s m => s.modMc m fun c => c.restart now) s
    else fresh.foldl (fun s m => s.modMc m fun c => c.restart (gridFrom s.anchor (measP c.preset) now)) s
  let s := s.measOn.foldl (fun s m =>
    let c := s.measCh m
    let f := s.measFreeze m ((c.confs.head?.map fun x => x.2).getD [])
    if (c.frz.head?.map fun x => x.2).getD false == f then s
    else (s.modMc m fun c => { c with frz := (now, f) :: c.frz.take 31 }).measShow m) s
  let s := (List.range 16).foldl (fun s m => s.measDeliver m) s
  let s := if s.measMaster && s.meas.armed == some (now + 250000) then s.sendSyncAt else s
  (changes.map fun x => x.idx).foldl (fun s m => if m < 16 then s.measShow m else s) s

/-! ### An output (R286, R290 to R296) -/

/-- Output `j` of a run: DC blocker, calibration and flags. -/
def measOutput (s : State) (m r : Nat) : State :=
  let c := s.measCh m
  let ts := r + c.j * measP c.preset
  let e := c.conf ts
  let win := c.span c.j
  let x := Config.firOutput c.preset win
  let corner := Machine.ent e 2 1
  let x48 := x * 65536
  let frz := c.frozenAt ts && corner != 0
  let sum := c.sum + x
  let starting := decide (c.j < 8) && !c.recur
  let mean := divFree (sum * 65536) (c.j + 1)
  -- the estimate that the output uses, and the one after it
  let use : Int := if corner = 0 then 0 else if frz then c.est else if starting then mean else c.est
  let next : Int := if corner = 0 ∨ frz then use else if starting then mean
    else c.est + divFree ((Config.dcAlpha c.preset (corner - 1) : Int) * (x48 - c.est)) (2 ^ 48)
  let y48 := x48 - use
  let z := divHalfAway (y48 * signed32 (Machine.ent e 4 4)) (2 ^ 46) + signed32 (Machine.ent e 8 4)
  let v : Int := max (-2147483648) (min 2147483647 z)
  let clip := win.any sincOver
  let flags := b2n (decide (c.j < 8)) + 2 * b2n clip + 4 * b2n frz + 8 * b2n (s.bit Fld.MEAS_STATUS_SLIP)
  let log := Machine.ent e 24 1
  let o : MeasOut := ⟨ts, v, flags, s.rd64 (Reg.MEAS_PRODUCED m), ts + measL c.preset,
    if log = 0 then none else some (Machine.ent e 16 8, log)⟩
  let s := s.modMc m fun c => { c with
    j := c.j + 1, est := next, sum := sum, recur := c.recur || (frz && decide (c.j < 8)), ready := c.ready ++ [o] }
  let s := s.inc64 (Reg.MEAS_PRODUCED m)
  let s := if clip then s.inc64 (Reg.MEAS_CLIPS m) else s
  let s := if v = z then s else s.inc64 (Reg.MEAS_SATS m)
  s.wr (Reg.MEAS_DCEST m) (next / 65536 % 4294967296).toNat

end State

/-! ### The commands -/

/-- SINC_OUTPUT (R282, R283, R289): 64 modulator bits, bit 0 first; input before the run's start takes no part. -/
def execSincOutput (dt : Nat) (ch : Fin 16) (bits : BitVec 64) (s : State) : Host.Outcome State Fault Refusal :=
  let s := s.elapse dt
  let c := s.measCh ch.val
  .next (match c.run with
    | some r =>
      if s.time.mt < r then s
      else
        let integ := (List.range 64).foldl (fun l i => sincBit l (b2n (bits.toNat.testBit i))) c.integ
        let (comb, out) := sincComb c.comb (integ.getLastD 0)
        s.modMc ch.val fun c => { c with integ, comb, sincs := out :: c.sincs.take 1199, sincN := c.sincN + 1 }
    | none => s)

/-- MEAS_OUTPUT_READY (R286, R290). -/
def execMeasOutputReady (dt : Nat) (ch : Fin 16) (s : State) : Host.Outcome State Fault Refusal :=
  let s := s.elapse dt
  let c := s.measCh ch.val
  .next (match c.run with
    | some r => if s.time.mt < r + c.j * measP c.preset then s else s.measOutput ch.val r
    | none => s)

/-- MEAS_STUCK (R281). -/
def execMeasStuck (dt : Nat) (ch : Fin 16) (s : State) : Host.Outcome State Fault Refusal :=
  let s := s.elapse dt
  let m := ch.val
  .next (if s.bit (Fld.MEAS_CHSTAT_STUCK m) ∨ s.unitOff 0x08 0 then s
    else (s.setB (Fld.MEAS_CHSTAT_STUCK m) true).measEvent 0x0705 4 (p4 [m]))

/-- STREAM_UNSTUCK (R281). -/
def execStreamUnstuck (dt : Nat) (ch : Fin 16) (s : State) : Host.Outcome State Fault Refusal :=
  .next ((s.elapse dt).setB (Fld.MEAS_CHSTAT_STUCK ch.val) false)

/-- A write of MEAS_RINGRD (R301). -/
def State.ringRdWrite (s : State) (m value : Nat) : State :=
  if value < s.rd64 (Reg.MEAS_RINGRD m) ∨ s.rd64 (Reg.MEAS_WRITTEN m) < value then s.inc64 (Reg.MEAS_RDERR m)
  else s.wr64 (Reg.MEAS_RINGRD m) value

/-- MEAS_RINGRD_WRITE (R301). -/
def execMeasRingrdWrite (dt : Nat) (req : Requester) (ch : Fin 16) (value : BitVec 64) (s : State) :
    Host.Outcome State Fault Refusal :=
  let s := s.elapse dt
  let m := ch.val
  .next (s.regCmd req (Reg.MEAS_RINGRD m) fun s => s.ringRdWrite m value.toNat)

/-- SYNC_IN_EDGE (R302, R305): the active edge of a pulse of at least 100 ns, 10 µs or more after the one before. -/
def execSyncInEdge (dt : Nat) (rising : Bool) (width : Nat) (s : State) : Host.Outcome State Fault Refusal :=
  let s := s.elapse dt
  .next (
    if s.unitOff 0x08 0 ∨ !s.bit Fld.MEAS_SYNCCTL_PIN_EN ∨ rising = s.bit Fld.MEAS_SYNCCTL_PIN_POL ∨ width < 100 then s
    else
      let close := match s.meas.lastPin with
        | some t => decide (s.time.clock < t + 10000)
        | none => false
      let s := s.modMeas fun x => { x with lastPin := some s.time.clock }
      if close then s.syncIgnored else s.syncRequest 1)

/-- A commanded SYNC (R302, R305). -/
def State.syncNow (s : State) (key : Nat) : State :=
  if key = 0xC3 then s.syncRequest 2 else s

/-- MEAS_SYNC_NOW (R302, R305). -/
def execMeasSyncNow (dt : Nat) (req : Requester) (key : Byte) (s : State) : Host.Outcome State Fault Refusal :=
  let s := s.elapse dt
  .next (s.regCmd req Reg.MEAS_SYNCCMD fun s => s.syncNow key.toNat)

/-- A SYNC is armed (R303, R305). -/
def State.syncArm (s : State) (key : Nat) : State :=
  let a := s.rd64 Reg.MEAS_SYNCAT
  if key ≠ 0xC3 then s
  else if s.measMember ∨ a % 250000 ≠ 0 ∨ a < s.time.mt + 500000 then s.syncIgnored
  else (s.modMeas fun x => { x with armed := some a }).setB Fld.MEAS_STATUS_SYNCPEND true

/-- MEAS_SYNC_ARM (R303, R305). -/
def execMeasSyncArm (dt : Nat) (req : Requester) (key : Byte) (s : State) : Host.Outcome State Fault Refusal :=
  let s := s.elapse dt
  .next (s.regCmd req Reg.MEAS_SYNCCMD fun s => s.syncArm key.toNat)

/-- The armed SYNC is withdrawn (R303). -/
def State.syncDisarm (s : State) (key : Nat) : State :=
  if key = 0xC3 then (s.modMeas fun x => { x with armed := none }).setB Fld.MEAS_STATUS_SYNCPEND false else s

/-- MEAS_SYNC_DISARM (R303). -/
def execMeasSyncDisarm (dt : Nat) (req : Requester) (key : Byte) (s : State) : Host.Outcome State Fault Refusal :=
  let s := s.elapse dt
  .next (s.regCmd req Reg.MEAS_SYNCCMD fun s => s.syncDisarm key.toNat)

/-- MEAS_SYNC (R304): the requests whose instant has come are performed. -/
def execMeasSync (dt : Nat) (s : State) : Host.Outcome State Fault Refusal :=
  let s := s.elapse dt
  .next (if s.unitOff 0x08 0 then s else s.syncDue.1)

/-- MEAS_PLL_LOST (R306). -/
def execMeasPllLost (dt : Nat) (s : State) : Host.Outcome State Fault Refusal :=
  let s := s.elapse dt
  .next (if !s.bit Fld.MEAS_STATUS_PLL_LOCK then s
    else ((((s.setB Fld.MEAS_STATUS_PLL_LOCK false).setB Fld.MEAS_STATUS_SLIP true).inc64 Reg.MEAS_PLLLOSS).measEvent 0x0703 4 []))

/-- MEAS_PLL_LOCKED (R306): a relock leaves SLIP set until the next SYNC; the first lock after reset regains nothing
(DEDUCED, assumption 24). -/
def execMeasPllLocked (dt : Nat) (s : State) : Host.Outcome State Fault Refusal :=
  let s := s.elapse dt
  .next (if s.bit Fld.MEAS_STATUS_PLL_LOCK then s
    else
      let again := s.meas.wasLocked
      let s := (s.setB Fld.MEAS_STATUS_PLL_LOCK true).modMeas fun x => { x with wasLocked := true }
      if again then (s.setB Fld.MEAS_STATUS_SLIP true).measEvent 0x0704 2 [] else s)

end Sys2Proof.Machine
end

