-- ==== Sys2Proof/Machine/Walira.lean ====
section
/-! DEFINITION. The Walira time-triggered bus (R312 to R345): schedule and its check, link delays, windows and guardian,
frames and their drop reasons, clock synchronisation, start-up, spare slots, data records. -/

namespace Sys2Proof.Machine

/-- The counter of a drop reason (R320, R344); code 0 is delivery. -/
def walCounter (c code : Nat) : Nat :=
  match code with
  | 0 => Reg.WAL_DELIVERED c
  | 2 => Reg.WAL_CRCERR c
  | 3 => Reg.WAL_HDRERR c
  | 4 => Reg.WAL_OOW c
  | 5 => Reg.WAL_ABORTED c
  | 6 => Reg.WAL_CONFLICT c
  | 7 => Reg.WAL_NOTACTIVE c
  | 8 => Reg.WAL_FWDONLY c
  | _ => Reg.WAL_CSFRAMES c

/-- The frame time of a slot with `n` payload bytes, inter-frame gap included, and its time on the wire (R317). -/
def walF (n : Nat) : Nat := (48 + n) * 8
def walWire (n : Nat) : Nat := (36 + n) * 8

/-- The senders of a slot. -/
def WalSlot.senders (x : WalSlot) : List Nat := [x.snd, x.snd2].filter (· < 32)

/-- The first byte at which a USED entry breaks R317, R335 or R336, with guard `g` and SPAN `sp`. -/
def walInvalid (g sp : Nat) (e : List Byte) : Option Nat :=
  let x := walSlotOf e
  if 8 ≤ x.ctl then some 0
  else if (if x.spare then x.snd ≠ 0xFF else 32 ≤ x.snd) then some 1
  else if 32 ≤ x.snd2 ∧ x.snd2 ≠ 0xFF then some 2
  else if ent e 3 1 ≠ 0 then some 3
  else if 240000 < x.ofs + x.slen then some 4
  else if x.slen < 2 * g + sp + walF x.plen then some 8
  else if x.plen < 16 ∨ 1024 < x.plen then some 12
  else if (if x.spare then x.claimId = 0 else x.claimId ≠ 0) then some 14
  else if ent e 17 7 ≠ 0 then some 17
  else if ent e 40 24 ≠ 0 then some 40
  else none

namespace State

/-- A channel and a data record. -/
def walCh (s : State) (c : Nat) : WalChan := tget s.wal.ch c
def walRec (s : State) (e : Nat) : WalRec := tget s.wal.recs e

/-- Change a channel or a record. -/
def modWc (s : State) (c : Nat) (f : WalChan → WalChan) : State := { s with wal := { s.wal with ch := tmod s.wal.ch c f } }
def modWr (s : State) (e : Nat) (f : WalRec → WalRec) : State := { s with wal := { s.wal with recs := tmod s.wal.recs e f } }

/-- An event of WAL (R343). -/
def walEvent (s : State) (code sev : Nat) (payload : List Byte) : State :=
  let k := s.getF Fld.WAL_EVCOLL_COLL
  s.emit 0x09 code sev (if 55 < k then 0 else k) payload

/-- The state of a channel (R328), and its change. -/
def walState (s : State) (c : Nat) : Nat := s.getF (Fld.WAL_STATUS_STATE c)
def setWal (s : State) (c v : Nat) : State := s.setF (Fld.WAL_STATUS_STATE c) v

/-- The guard, SPAN and the node's rank. -/
def walG (s : State) : Nat := s.getF Fld.WAL_GUARD_G
def walSpan (s : State) : Nat := s.getF Fld.WAL_SPAN_SPAN
def walRank (s : State) : Nat := s.getF Fld.WAL_NODECFG_RANK

/-- The time since the start of the running cycle on MT (R316). -/
def walNow (s : State) : Nat := s.time.mt % 250000

/-- The used entries of a channel (R334). -/
def walEntries (s : State) (c : Nat) : List Nat := ((List.range 64).map (64 * c + ·)).filter fun e => (s.walSlot e).used

/-! ### Delays (R314) -/

/-- The delay of the link between positions `i − 1` and `i` where it is known. -/
def walLink (s : State) (c i : Nat) : Option Nat :=
  let own (x : Nat) : Option Nat := if s.bit (Fld.WAL_LINKDLY_VALID x) then some (s.getF (Fld.WAL_LINKDLY_DLY x)) else none
  let learnt := tget (s.walCh c).upDly i
  if i = s.walPos then own (2 * c)
  else if i = s.walPos + 1 then (match own (2 * c + 1) with
    | some d => some d
    | none => learnt)
  else learnt

/-- The links between two positions, by their lower end's number. -/
def walLinks (p q : Nat) : List Nat := (List.range (max p q - min p q)).map (min p q + 1 + ·)

/-- The delay d(p, q) (R314). -/
def walD (s : State) (c p q : Nat) : Nat :=
  ((walLinks p q).map fun i => (s.walLink c i).getD (s.getF Fld.WAL_LINKNOM_DLY)).sum + (max p q - min p q - 1) * 640

/-- Whether a learnt delay d(p, q) between any two positions exceeds SPAN (R344): the longest over a run of known links is that
of the whole run. -/
def walSpanErr (s : State) (c : Nat) : Bool :=
  let step (r : Option Nat × Bool) (i : Nat) : Option Nat × Bool :=
    match s.walLink c (i + 1) with
    | none => (none, r.2)
    | some d =>
      let n := match r.1 with
        | none => d
        | some m => m + 640 + d
      (some n, r.2 || decide (s.walSpan < n))
  ((List.range 31).foldl step (none, false)).2

/-- DLYKNOWN and SPANERR follow what is learnt (R314, R344). -/
def walDelays (s : State) (c : Nat) : State :=
  let es := s.walEntries c
  let known (p : Nat) : Bool := (walLinks p s.walPos).all fun i => (s.walLink c i).isSome
  let sync := (es.filter fun e => (s.walSlot e).sync).flatMap fun e => (s.walSlot e).senders
  let s := s.setB (Fld.WAL_STATUS_DLYKNOWN c) (sync.all known)
  s.setB (Fld.WAL_STATUS_SPANERR c) (s.walSpanErr c)

/-! ### The schedule (R317, R318, R336) -/

/-- The check value of the schedule (R318). -/
def walCheck (s : State) : Nat :=
  let n := (s.cat .wal).count
  crc32c ((List.range n).flatMap (fun e => slice (s.catEntry .wal e) 0 16) ++ leBytes 4 s.walG ++ leBytes 4 s.walSpan)

/-- The first entry and byte at which a channel's schedule is invalid (R336); entry 0xFFFF for what no entry holds. -/
def walBad (s : State) (c : Nat) : Option (Nat × Nat) :=
  let es := s.walEntries c
  let overlap (e : Nat) : Bool := es.any fun f => f != e &&
    decide ((s.walSlot e).ofs < (s.walSlot f).ofs + (s.walSlot f).slen ∧ (s.walSlot f).ofs < (s.walSlot e).ofs + (s.walSlot e).slen)
  let syncs := ((es.filter fun e => (s.walSlot e).sync).flatMap fun e => (s.walSlot e).senders).dedup
  if s.walSpan = 0 ∨ 40000 < s.walSpan ∨ s.walG < 100 ∨ 2000 < s.walG ∨ 4 < syncs.length then some (0xFFFF, 0)
  else es.findSome? fun e => match walInvalid s.walG s.walSpan (s.catEntry .wal e) with
    | some b => some (e, b)
    | none => if overlap e then some (e, 4) else none

/-- Whether the node part of an entry is invalid shows in its SLOTSTAT (R336). -/
def walShowEntry (s : State) (e : Nat) : State :=
  s.setB (Fld.WAL_SLOTSTAT_CFGERR e) ((s.walSlot e).used && s.walNodeBad e)

/-- Position, guard or SPAN has been written: what is computed from them follows, and the schedules are judged again at the
next edge (R314, R318, R336). -/
def walConfigured (s : State) : State :=
  let s := { s with wal := { s.wal with recheck := true } }
  let s := if (s.cat .wal).inUse then
      (List.range (s.cat .wal).count).foldl (fun s e => s.walShowEntry e) (s.wr Reg.WAL_SCHEDCHK s.walCheck)
    else s
  (s.walDelays 0).walDelays 1

/-- No claim of a channel is active (R341). -/
def walUnclaim (s : State) (c : Nat) : State :=
  ((List.range 64).map (64 * c + ·)).foldl (fun s e =>
    if s.bit (Fld.WAL_SLOTSTAT_CLAIMING e) then s.setB (Fld.WAL_SLOTSTAT_CLAIMING e) false else s) s

/-- A channel goes OFF. -/
def walOff (s : State) (c : Nat) : State :=
  (((s.walUnclaim c).setWal c 0).setB (Fld.WAL_STATUS_LEADER c) false).modWc c fun x => { (default : WalChan) with upDly := x.upDly }

/-- A channel enters LISTEN, with the event where the cause has a code: 1 loss, 2 no sync, 3 step (R333, R343). -/
def walListen (s : State) (c cause : Nat) : State :=
  let s := ((s.walUnclaim c).setWal c 1).setB (Fld.WAL_STATUS_LEADER c) false
  let s := s.modWc c fun x => { x with
    heardAt := s.time.clock, window := none, seen := [], leading := none, gotOther := false, cons := 0, consNow := false
    passGood := 0, noFrame := 0, noSync := 0 }
  if cause = 0 then s else s.walEvent 0x0805 3 (p4 [c, cause])

/-- A channel enters INTEGRATE; whole cycles are judged, and the edge that ends the running one ends none (R332). -/
def walIntegrate (s : State) (c : Nat) : State :=
  (s.setWal c 3).modWc c fun x => { x with cons := 0, skip := 1, leading := none }

/-- The claims of a channel at an edge (R341, R342): a claim becomes active in the first cycle in which the channel is ACTIVE, and
ends where its entry no longer makes it. -/
def walClaims (s : State) (c : Nat) : State :=
  ((List.range 64).map (64 * c + ·)).foldl (fun s e =>
    let r := s.walRole e
    let x := s.walSlot e
    let on := x.used && x.spare && r.testBit 0 && r.testBit 2 && !(s.walRec e).released
    let was := s.bit (Fld.WAL_SLOTSTAT_CLAIMING e)
    if on && s.walState c == 4 then s.setB (Fld.WAL_SLOTSTAT_CLAIMING e) true
    else if was && !on then s.setB (Fld.WAL_SLOTSTAT_CLAIMING e) false
    else s) s

/-- A channel's schedule at an edge: it starts, fails, or stops (R318, R328, R336). -/
def walSchedule (s : State) (c : Nat) (changed : Bool) : State :=
  let wanted := (s.rd Reg.WAL_CTL).testBit c && (s.cat .wal).inUse
  let st := s.walState c
  if !wanted then (if st = 0 then s else s.walOff c)
  else if st = 0 ∨ (st ≠ 7 ∧ (changed ∨ s.rd Reg.WAL_SCHEDCHK ≠ s.rd Reg.WAL_SCHEDID)) then
    match s.walBad c with
    | some (e, b) => ((s.walOff c).setWal c 7).walEvent 0x0808 3 (p4 [c, e, b])
    | none =>
      if s.rd Reg.WAL_SCHEDCHK ≠ s.rd Reg.WAL_SCHEDID then (s.walOff c).setWal c 7
      else if st = 0 then s.walListen c 0
      else s
  else s

/-! ### Frames (R319 to R324) -/

/-- A frame with its CRC-32 over header and payload (R319). -/
def walCrc (bs : List Byte) : List Byte := bs ++ leBytes 4 (crc32 bs)

/-- The header of a frame and its payload (R319). -/
def walBytes (version flags slot node schedId cycle len upDly rank claimId : Nat) (payload : List Byte) : List Byte :=
  leBytes 1 version ++ leBytes 1 flags ++ leBytes 1 slot ++ leBytes 1 node ++ leBytes 4 schedId ++ leBytes 8 cycle
    ++ leBytes 2 len ++ leBytes 2 upDly ++ leBytes 1 rank ++ [0] ++ leBytes 2 claimId ++ payload

/-- The sender's own UPDLY and RANK fields. -/
def walUpDly (s : State) (c : Nat) : Nat :=
  if s.bit (Fld.WAL_LINKDLY_VALID (2 * c)) then s.getF (Fld.WAL_LINKDLY_DLY (2 * c)) else 0xFFFF
def walRankByte (s : State) : Nat := if s.bit Fld.WAL_NODECFG_CS then s.walRank else 0xFF

/-- The sender has network time: LOCKED, HOLDOVER or SLEWING (R325). -/
def walNt (s : State) : Bool := decide (2 ≤ s.timeState)

/-- The cold-start frame with the lowest rank of those seen or sent in the window (R330). -/
def walBest (l : List WalCs) : Option WalCs :=
  l.foldl (fun (b : Option WalCs) x => match b with
    | none => some x
    | some y => if x.rank < y.rank then some x else some y) none

/-- The cycle c0 of a leader: of the confirmed choice of the window, and while the window is open of a node whose own frame
is the lowest so far (R330, R331, with the worked example: the first cycle begins before the window closes). -/
def walLead (w : WalChan) : Option Nat :=
  match w.leading with
  | some c0 => some c0
  | none => match walBest w.seen with
    | some x => if x.own then some x.cycle else none
    | none => none

/-- Whether a channel's slot frames may leave: ACTIVE, or a leader in its two cycles (R328, R331). -/
def walSends (s : State) (c : Nat) : Bool :=
  s.walState c == 4 || (s.walState c == 2 && (match walLead (s.walCh c) with
    | some c0 => decide (c0 < s.time.beat ∧ s.time.beat ≤ c0 + 2)
    | none => false))

/-- A cold-start frame leaves the node (R321, R329, R331): none where both ports are blocked, or within 500 µs of the last. -/
def walColdStart (s : State) (c : Nat) : State :=
  let x := s.walCh c
  let soon := match x.lastCs with
    | some t => decide (s.time.clock < t + 500000)
    | none => false
  if x.block == 3 || soon then s
  else
    let now := s.time.clock
    let ofs := s.walNow
    let flags := 2 + 4 * b2n s.walNt
    let wire := walBytes 1 flags 0x3F s.walPos (s.rd Reg.WAL_SCHEDID) s.time.beat 16 (s.walUpDly c) s.walRankByte 0
      (leBytes 4 ofs ++ List.replicate 12 0)
    let s := ((s.inc64 (Reg.WAL_COLDSTARTS c)).inc64 (Reg.WAL_TXFRAMES c)).setWal c 2
    let s := s.modWc c fun x => { x with
      lastCs := some now, window := some (x.window.getD now), wire := walCrc wire, wireErr := false, sendUntil := now + 512
      seen := x.seen ++ [⟨s.walRank, s.walPos, s.time.beat, true, true⟩], sending := none, csSent := true }
    s.lpeFeed 3 c wire

/-- A frame's own slot (R322): the used slot open at its start. -/
def walSlotAt (s : State) (c : Nat) (f : WalFrame) : Option Nat :=
  (s.walEntries c).find? fun e =>
    decide ((((s.walSlot e).ofs : Nat) : Int) ≤ f.startOfs ∧ f.startOfs < (((s.walSlot e).ofs + (s.walSlot e).slen : Nat) : Int))

/-- The senders whose window the start of a frame meets; a spare slot's sender is the frame's NODE (R322). -/
def walStartOk (s : State) (c e : Nat) (f : WalFrame) : List Nat :=
  let x := s.walSlot e
  let inWin (lo hi : Nat) : Bool := decide ((lo : Int) ≤ f.startOfs ∧ f.startOfs ≤ (hi : Int))
  if x.spare then (if inWin x.ofs (x.ofs + 2 * s.walG + s.walSpan) then [f.node] else [])
  else x.senders.filter fun p =>
    let d := s.walD c p s.walPos
    inWin (x.ofs + d) (x.ofs + d + 2 * s.walG)

/-- Whether a frame's end meets its limit for a sender. -/
def walEndOk (s : State) (c e : Nat) (f : WalFrame) (p : Nat) : Bool :=
  let x := s.walSlot e
  decide (f.endOfs + (s.walSpan : Int) ≤ ((x.ofs + x.slen + s.walD c p s.walPos : Nat) : Int))

/-- Whether the header is as the schedule expects for the slot and cycle. -/
def walHeaderOk (s : State) (c e : Nat) (f : WalFrame) : Bool :=
  let x := s.walSlot e
  f.version == 1 && f.schedId == s.rd Reg.WAL_SCHEDID && f.cycle == s.time.beat && f.slot == e % 64 + 128 * c
    && f.len == x.plen && f.payload.length == x.plen && (if x.spare then decide (f.node < 32) else x.senders.contains f.node)

/-- The entry whose own frame is on the wire now (R323). -/
def walOnWire (s : State) (c : Nat) : Option Nat :=
  if s.time.clock < (s.walCh c).sendUntil then (s.walCh c).sending else none

/-- An own frame ends with a transmit error (R321, R323, R327). -/
def walCutOwn (s : State) (c : Nat) : State :=
  let s := match s.walOnWire c with
    | some e => s.modWr e fun r => { r with aborted := true }
    | none => s
  s.modWc c fun w =>
    { w with
      wireErr := w.wireErr || decide (s.time.clock < w.sendUntil)
      csSent := w.csSent && !(decide (s.time.clock < w.sendUntil) && w.sending.isNone)
      sendUntil := min w.sendUntil s.time.clock, sending := none }

/-- The own frame of entry `e` is aborted for a frame that arrives in its slot; a claim ends with it (R323, R342). -/
def walClash (s : State) (c e : Nat) (f : WalFrame) : State :=
  let s := (s.walCutOwn c).modWr e fun r => { r with clashed := true }
  if (s.walSlot e).spare then
    let s := ((s.modWr e fun r => { r with released := true }).setB (Fld.WAL_SLOTSTAT_CONFLICT e) true).setB
      (Fld.WAL_SLOTSTAT_CLAIMING e) false
    s.walEvent 0x0806 3 (p4 ([c, e % 64] ++ if f.headerSeen then [f.node] else []))
  else s.walEvent 0x0807 4 (p4 [c, e % 64])

/-- The reason of a frame in slot `e` after the checks of window, end, CRC and header: 4, 5, 2, 3, or 0. -/
def walJudge (s : State) (c e : Nat) (f : WalFrame) : Nat :=
  match s.walStartOk c e f with
  | [] => 4
  | ps =>
    if !(ps.any fun p => s.walEndOk c e f p) then 4
    else if f.txError then 5
    else if !f.crcOk then 2
    else if !s.walHeaderOk c e f then 3
    else 0

/-- Whether a valid cold-start frame (R319). -/
def walCsOk (s : State) (f : WalFrame) : Bool :=
  !f.txError && f.crcOk && f.version == 1 && f.slot == 0x3F && f.schedId == s.rd Reg.WAL_SCHEDID && f.len == 16
    && f.payload.length == 16

/-- What a start-up that is under way takes of a cold-start frame (R330, R332). -/
def walCsSeen (s : State) (c : Nat) (f : WalFrame) : State :=
  if !s.walCsOk f then s
  else
    let ofs := leNat (f.payload.take 4)
    let at_ := ofs + s.walD c f.node s.walPos
    let onGrid := f.cycle == s.time.beat && decide (2 * (f.startOfs - (at_ : Int)).natAbs ≤ s.walG)
    s.modWc c fun x => { x with
      window := some (x.window.getD s.time.clock)
      seen := x.seen ++ [⟨f.rank, f.node, f.cycle, onGrid, false⟩] }

/-- Whether a frame lies on the node's own grid at the position that its slot gives, within ± G / 2 (R332), with its deviation. -/
def walDev (s : State) (c e : Nat) (f : WalFrame) : Int :=
  f.startOfs - (((s.walSlot e).ofs + s.walG + s.walD c f.node s.walPos : Nat) : Int)
def walConsistent (s : State) (c e : Nat) (f : WalFrame) : Bool := decide (2 * (s.walDev c e f).natAbs ≤ s.walG)

/-- What a start-up under way takes of a valid slot frame that counts as NOTACTIVE (R320, R332): the cycle is consistent for a
node in COLDSTART that will integrate on the leader's frame. -/
def walStartUse (s : State) (c e : Nat) (f : WalFrame) : State :=
  let ok := s.walConsistent c e f
  s.modWc c fun w => { w with consNow := w.consNow || ok }

/-- What start-up, membership and clock synchronisation take of a frame that passed the checks (R320, R324, R331 to R333,
R339). -/
def walUse (s : State) (c e : Nat) (f : WalFrame) : State :=
  let dev := s.walDev c e f
  let ok := s.walConsistent c e f
  let sync := f.flags.testBit 0
  s.modWc c fun w => { w with
    heardNow := w.heardNow || f.node != s.walPos
    syncNow := w.syncNow || sync
    consNow := w.consNow || ok
    gotOther := w.gotOther || (match w.leading with
      | some c0 => s.time.beat == c0 + 2
      | none => false)
    devs := if sync then w.devs.filter (fun d => d.1 != f.node) ++ [(f.node, dev, f.flags.testBit 2)] else w.devs
    members := if w.members.testBit f.node then w.members else w.members + 2 ^ f.node }

/-- Header and payload of a frame that arrives. -/
def walWireOf (f : WalFrame) : List Byte :=
  walBytes f.version f.flags f.slot f.node f.schedId f.cycle f.len f.upDly f.rank f.claimId f.payload

/-- A frame that arrives, with the CRC-32 it arrives with: where that is wrong, the command does not give it, and it is a free
value. -/
def walArrived (s : State) (f : WalFrame) : List Byte :=
  if f.crcOk then walCrc (walWireOf f) else walWireOf f ++ leBytes 4 (Config.walCrcIn s.time.clock (walWireOf f)).toNat

/-- A frame passes to the other port (R313, R322) as it arrives, with its CRC-32 and its transmit error; its end limit is that of
its slot for the senders that its start fits. -/
def walForward (s : State) (port : Nat) (f : WalFrame) (slot : Option Nat) : State :=
  let c := port / 2
  let after (ofs : Int) : Nat := s.time.clock + (ofs - f.startOfs).toNat
  let stop := after f.endOfs
  let limit := match slot with
    | some e =>
      let x := s.walSlot e
      ((s.walStartOk c e f).map fun p => after ((x.ofs + x.slen + s.walD c p s.walPos : Nat) - (s.walSpan : Int))).foldl max 0
    | none => stop
  s.modWc c fun w => { w with
    fwd := (w.fwd.filter fun x => x.port != port) ++ [⟨port, s.walArrived f, s.time.clock, stop, limit, f.txError, f.crcOk⟩] }

/-- The code under which a frame is counted (R320). A frame for which the node aborts its own is counted as CONFLICT whatever
else it breaks, since R323 and R345 count each abort there (DEDUCED, assumption 125). -/
def walCode (s : State) (c : Nat) (f : WalFrame) (clash deaf isCs : Bool) (slot : Option Nat) : Nat :=
  if clash then 6
  else if deaf then 7
  else if isCs then 9
  else match slot with
    | none => 4
    | some e =>
      let r := s.walJudge c e f
      if r ≠ 0 then r else if (s.walRec e).clashed then 6 else if (s.walRole e).testBit 1 then 0 else 8

/-- A frame start on a port (R313, R314, R320, R322, R323, R328). The command carries the frame as it will have arrived, and
what the spec counts and keeps of it within its cycle is taken at its start (DESIGN CHOICE, assumption 125). -/
def walReceive (s : State) (port : Nat) (f : WalFrame) : State :=
  let c := port / 2
  let st := s.walState c
  if st = 0 ∨ st = 7 then s
  else
    let s := (s.inc64 (Reg.WAL_RXFRAMES c)).modWc c fun x => { x with heardAt := s.time.clock }
    let s := if f.headerSeen then s.lpeFeed 3 c (walWireOf f) else s
    let s := if f.crcOk && !f.txError && f.version == 1 && f.schedId == s.rd Reg.WAL_SCHEDID && decide (f.node < 32) then
        (s.modWc c fun x => { x with upDly := tset x.upDly f.node (if f.upDly = 0xFFFF then none else some f.upDly) }).walDelays c
      else s
    let isCs := f.headerSeen && f.flags.testBit 1
    let second := match State.walLead (s.walCh c) with
      | some c0 => s.time.beat == c0 + 2
      | none => false
    let deaf := (st == 1 || (st == 2 && !second) || st == 6) || (s.walCh c).stepped
    let slot := if isCs then none else s.walSlotAt c f
    let fits := isCs || (match slot with
      | some e => !(s.walStartOk c e f).isEmpty
      | none => false)
    let own := s.walOnWire c
    let code := s.walCode c f own.isSome deaf isCs slot
    let s := if fits then s else s.inc64 (Reg.WAL_FWDCUT c)
    let s := match own with
      | some e => s.walClash c e f
      | none => if fits then s.walForward port f slot else s
    let s := if isCs then (if st = 4 ∨ st = 5 then s else s.walCsSeen c f) else
      match slot with
      | some e => if code = 0 ∨ code = 8 then s.walUse c e f
        else if code = 7 ∧ st = 2 ∧ !(s.walCh c).stepped ∧ s.walJudge c e f = 0 then s.walStartUse c e f else s
      | none => s
    let s := (if st = 1 ∨ st = 6 then s.walIntegrate c else s).inc64 (walCounter c code)
    match slot with
    | some e => s.modWr e fun r => if r.now == some 0 && code != 0 then r else { r with
        now := some code, nowSrc := f.node, nowFlags := f.flags, nowCycle := f.cycle, nowData := f.payload }
    | none => s

/-! ### The edge (R314, R324 to R333, R337 to R339) -/

/-- Sort a short list of numbers. -/
def walSort (l : List Int) : List Int := l.foldr (fun x t => t.takeWhile (· < x) ++ x :: t.dropWhile (· < x)) []

/-- The correction of a cycle (R324); `none` without a value. The rounding of an average is not given. -/
def walCorr (s : State) (c : Nat) : Option Int :=
  let own := if s.bit Fld.WAL_NODECFG_SYNC then [(s.walPos, (0 : Int), s.walNt)] else []
  let all := (s.walCh c).devs ++ own
  let nt := all.filter fun d => d.2.2
  let l := State.walSort ((if nt.isEmpty then all else nt).map fun d => d.2.1)
  match l with
  | [] => none
  | [x] => some x
  | [x, y] => some (divFree (x + y) 2)
  | _ =>
    let m := (l.drop 1).dropLast
    some (divFree m.sum m.length)

/-- The record of an entry for the cycle that ended (R337). -/
def walImageOne (s : State) (stepped : Bool) (e : Nat) : State :=
  let r := s.walRec e
  let got := !stepped && r.now == some 0
  let reason := if stepped then 7 else r.now.getD 1
  let s := s.setF (Fld.WAL_SLOTSTAT_LASTREASON e) reason
  let s := s.setB (Fld.WAL_SLOTSTAT_TXACTIVE e) r.sent
  let zero := (s.walRole e).testBit 4
  s.modWr e fun r =>
    let r := { r with now := none, nowData := [], sent := false, aborted := false, clashed := false, reason := reason, valid := got }
    if got then { r with src := r.nowSrc, flags := r.nowFlags, age := 0, cycle := r.nowCycle, payload := (s.walRec e).nowData }
    else { r with age := min 4294967295 (r.age + 1), payload := if zero then [] else r.payload }

/-- The received image of the cycle that ended (R337). -/
def walImage (s : State) (c : Nat) : State :=
  let stepped := (s.walCh c).stepped
  (s.walEntries c).foldl (fun s e => s.walImageOne stepped e) s

/-- A cycle of a channel that is OFF or in CFGERR: no node is a member, and no record holds a frame of it (R337, R339). -/
def walIdle (s : State) (c : Nat) : State :=
  let s := if s.rd (Reg.WAL_MEMBER c) = 0 then s else s.wr (Reg.WAL_MEMBER c) 0
  ((s.wal.recs.map fun x => x.1).filter (· / 64 == c)).foldl (fun s e => s.walImageOne false e) s

/-- The state changes of a channel at an edge (R326, R331 to R333). -/
def walStateEdge (s : State) (c : Nat) : State :=
  let st := s.walState c
  let w := s.walCh c
  let g := s.walG
  let corr := signed32 (s.rd (Reg.WAL_CORR c))
  let far := decide (g < 2 * corr.natAbs)
  if st = 4 ∨ st = 5 then
    if 8 ≤ w.noFrame then s.walListen c 1
    else if !s.bit Fld.WAL_NODECFG_SYNC ∧ 16 ≤ w.noSync then s.walListen c 2
    else if st = 4 then
      if far then
        ((((s.setWal c 5).modWc c fun x => { x with passGood := 0 }).inc64 (Reg.WAL_PASSIVES c)).walEvent 0x0804 4
          (p4 [c, s.rd (Reg.WAL_CORR c)]))
      else s
    else if far then s.modWc c fun x => { x with passGood := 0 }
    else if 1 ≤ w.passGood then s.setWal c 4
    else s.modWc c fun x => { x with passGood := x.passGood + 1 }
  else if st = 3 then
    if 1 ≤ w.skip then s.modWc c fun x => { x with skip := x.skip - 1 }
    else if !w.consNow then s.walListen c 0
    else if 1 ≤ w.cons then
      ((((s.setWal c 4).modWc c fun x => { x with cons := 0, noFrame := 0, noSync := 0 }).inc64
        (Reg.WAL_INTEGRATIONS c)).walEvent 0x0803 1 (p4 [c, w.leaderPos]))
    else s.modWc c fun x => { x with cons := x.cons + 1 }
  else if st = 2 then
    match w.leading with
    | some c0 =>
      if s.time.beat < c0 + 3 then s
      else if w.gotOther then
        let s := ((s.setWal c 4).setB (Fld.WAL_STATUS_LEADER c) true).modWc c fun x => { x with
          leading := none, noFrame := 0, noSync := 0, leaderPos := s.walPos }
        s.walEvent 0x0801 2 (p4 [c, s.walRank])
      else
        let s := (s.setWal c 6).modWc c fun x => { x with leading := none, heardAt := s.time.clock }
        (s.inc64 (Reg.WAL_BACKOFFS c)).walEvent 0x0802 3 (p4 [c])
    | none => s
  else s

/-- One channel at a beat edge: the cycle that ended, then the next one. -/
def walChanEdge (s : State) (c : Nat) (changed : Bool) : State :=
  let st := s.walState c
  let s := if st = 0 ∨ st = 7 then s.walIdle c else
    let w := s.walCh c
    let sent := w.csSent || (s.walEntries c).any fun e => (s.walRec e).sent && !(s.walRec e).aborted
    let s := match s.walCorr c with
      | some v => s.wr (Reg.WAL_CORR c) (v % 4294967296).toNat
      | none => s.inc64 (Reg.WAL_NOSYNC c)
    let s := s.wr (Reg.WAL_MEMBER c)
      (if sent && !w.members.testBit s.walPos then w.members + 2 ^ s.walPos else w.members)
    let s := s.walImage c
    let s := s.modWc c fun x => { x with
      noFrame := if x.heardNow then 0 else x.noFrame + 1, noSync := if x.syncNow then 0 else x.noSync + 1 }
    let s := s.walStateEdge c
    s.modWc c fun x => { x with
      devs := [], consNow := false, heardNow := false, syncNow := false, members := 0, stepped := false
      sending := none, fwd := [], csSent := false, block := x.blockNext, blockNext := 0 }
  (s.walSchedule c changed).walClaims c

/-- Walira at a beat edge: an invalidated entry may claim again (R342); a catalogue that is enabled or disabled is no
invalidation. -/
def walEdge (s : State) (changes : List CatChange) : State :=
  let s := changes.foldl (fun s x =>
    let s := s.walShowEntry x.idx
    if x.fresh then s
    else (s.setB (Fld.WAL_SLOTSTAT_CONFLICT x.idx) false).modWr x.idx fun r => { r with released := false }) s
  let starts := (List.range 2).any fun c => (s.rd Reg.WAL_CTL).testBit c && s.walState c == 0
  let s := if (s.cat .wal).inUse && (starts || !changes.isEmpty) then s.wr Reg.WAL_SCHEDCHK s.walCheck else s
  let again := !changes.isEmpty || s.wal.recheck
  let s := (List.range 2).foldl (fun s c => s.walChanEdge c again) { s with wal := { s.wal with recheck := false } }
  if changes.isEmpty then s else (s.walDelays 0).walDelays 1

/-- The payloads to send are latched at the edge, after the output engine: zeros for an entry that no output map names
(R337). -/
def walLatchEdge (s : State) : State :=
  let named := s.outNamed 0x09
  (List.range 2).foldl (fun s c => if s.walState c = 0 ∨ s.walState c = 7 then s else
    (s.walEntries c).foldl (fun s e =>
      if (s.walRole e).testBit 0 then
        s.modWr e fun r => { r with
          tx := slice (if named.contains e then tget s.rts.outs (outKey 0x09 e) else []) 16 (s.walSlot e).plen }
      else s) s) s

/-- A step of module time ends the cycle (R327). -/
def walStep (s : State) : State :=
  (List.range 2).foldl (fun s c =>
    if s.walState c = 0 ∨ s.walState c = 7 then s
    else ((s.walCutOwn c).walListen c 3).modWc c fun x => { x with stepped := true }) s

/-- The data record of an entry, and the segment status record for 0xFFFF (R337, R339). -/
def walRecord (s : State) (e : Nat) : List Byte :=
  if e = 0xFFFF then
    leBytes 4 (s.rd (Reg.WAL_MEMBER 0)) ++ leBytes 4 (s.rd (Reg.WAL_MEMBER 1)) ++ leBytes 1 (s.walState 0)
      ++ leBytes 1 (s.walState 1) ++ [0, 0] ++ leBytes 4 (s.rd (Reg.WAL_CORR 0)) ++ leBytes 4 (s.rd (Reg.WAL_CORR 1))
      ++ leBytes 8 (s.time.beat - 1) ++ [0, 0, 0, 0]
  else
    let r := s.walRec e
    leBytes 1 (b2n r.valid) ++ leBytes 1 r.reason ++ leBytes 1 r.src ++ leBytes 1 r.flags ++ leBytes 4 r.age ++ leBytes 8 r.cycle
      ++ slice (if (s.walRole e).testBit 0 && !(s.walRole e).testBit 1 then r.tx else r.payload) 0 (s.walSlot e).plen

end State

/-! ### The commands -/

/-- LINK_DELAY_EXCHANGE (R314). -/
def execLinkDelayExchange (dt : Nat) (port : Fin 4) (delay : BitVec 16) (s : State) : Host.Outcome State Fault Refusal :=
  let s := s.elapse dt
  let x := port.val
  .next (if !s.bit (Fld.WAL_LINKDLY_LINKUP x) ∨ s.unitOff 0x09 0 then s
    else ((s.setB (Fld.WAL_LINKDLY_VALID x) true).setF (Fld.WAL_LINKDLY_DLY x) delay.toNat).walDelays (x / 2))

/-- WAL_LINK (R312, R343). -/
def execWalLink (dt : Nat) (port : Fin 4) (up : Bool) (s : State) : Host.Outcome State Fault Refusal :=
  let s := s.elapse dt
  let x := port.val
  .next (if s.bit (Fld.WAL_LINKDLY_LINKUP x) = up then s
    else
      let s := s.setB (Fld.WAL_LINKDLY_LINKUP x) up
      let s := if up then s else s.setB (Fld.WAL_LINKDLY_VALID x) false
      (s.walEvent 0x080A 2 (p4 [x, b2n up])).walDelays (x / 2))

/-- WAL_FRAME_RX (R320, R322, R323). -/
def execWalFrameRx (dt : Nat) (port : Fin 4) (frame : WalFrame) (s : State) : Host.Outcome State Fault Refusal :=
  let s := s.elapse dt
  .next (if s.unitOff 0x09 0 then s else s.walReceive port.val frame)

/-- WAL_SLOT_TX (R317, R321, R328, R337, R338, R341): at OFS + G, within the guardian's window. -/
def execWalSlotTx (dt : Nat) (chan : Fin 2) (entry : Fin 64) (s : State) : Host.Outcome State Fault Refusal :=
  let s := s.elapse dt
  let c := chan.val
  let e := 64 * c + entry.val
  let x := s.walSlot e
  let r := s.walRole e
  let lo := x.ofs + s.walG
  let hi := x.ofs + x.slen - s.walG - s.walSpan
  let claimed := x.spare
  let may := x.used && r.testBit 0 && s.walSends c && (s.walCh c).block != 3 && !(s.walCh c).stepped && !(s.walRec e).sent
    && (!r.testBit 3 || s.serves) && (!claimed || s.bit (Fld.WAL_SLOTSTAT_CLAIMING e))
    && decide (lo ≤ s.walNow ∧ s.walNow < hi)
  .next (if !may then s
    else
      let flags := b2n (x.sync && s.bit Fld.WAL_NODECFG_SYNC) + 4 * b2n s.walNt + 8 * b2n claimed
      let wire := State.walBytes 1 flags (e % 64 + 128 * c) s.walPos (s.rd Reg.WAL_SCHEDID) s.time.beat x.plen (s.walUpDly c)
        s.walRankByte (if claimed then x.claimId else 0) (slice (s.walRec e).tx 0 x.plen)
      let s := (s.inc64 (Reg.WAL_TXFRAMES c)).modWr e fun r => { r with sent := true }
      let s := s.modWc c fun w => { w with
        sending := some e, wire := State.walCrc wire, wireErr := false, sendUntil := s.time.clock + walWire x.plen }
      s.lpeFeed 3 c wire)

/-- GUARDIAN_CUT (R321, R339): an own frame still on the wire at the end of its window is ended; it does not count for
membership. -/
def execGuardianCut (dt : Nat) (chan : Fin 2) (s : State) : Host.Outcome State Fault Refusal :=
  let s := s.elapse dt
  let c := chan.val
  .next (match s.walOnWire c with
    | none => s
    | some e =>
      let x := s.walSlot e
      if s.walNow + s.walG + s.walSpan < x.ofs + x.slen then s else (s.inc64 (Reg.WAL_TXCUT c)).walCutOwn c)

/-- WAL_GUARD_CLK (R321). -/
def execWalGuardClk (dt : Nat) (port : Fin 4) (interval : Nat) (s : State) : Host.Outcome State Fault Refusal :=
  let s := s.elapse dt
  let c := port.val / 2
  .next (if 249900 ≤ interval ∧ interval ≤ 250100 then s
    else
      let b := 2 ^ (port.val % 2)
      let s := s.modWc c fun w => { w with blockNext := w.blockNext ||| b }
      (s.inc64 (Reg.WAL_GUARDCLK c)).walEvent 0x0809 5 (p4 [port.val]))

/-- FORWARD_CUT (R322): a frame that passes through is still arriving at its end limit: it ends there with a transmit error. Its
reason was counted with its start. -/
def execForwardCut (dt : Nat) (port : Fin 4) (s : State) : Host.Outcome State Fault Refusal :=
  let s := s.elapse dt
  let c := port.val / 2
  .next (match (s.walCh c).fwd.find? fun x => x.port == port.val && decide (x.limit ≤ s.time.clock ∧ x.limit < x.until_) with
    | none => s
    | some x =>
      let cut := { x with until_ := x.limit, bad := true, wire := x.wire.take ((x.limit - x.start) / 8 - 8) }
      (s.inc64 (Reg.WAL_FWDCUT c)).modWc c fun w => { w with fwd := (w.fwd.filter fun y => y.port != port.val) ++ [cut] })

/-- WAL_LISTEN_TIMEOUT (R329): 2 cycles + RANK × 16 µs without a frame start. -/
def execWalListenTimeout (dt : Nat) (chan : Fin 2) (s : State) : Host.Outcome State Fault Refusal :=
  let s := s.elapse dt
  let c := chan.val
  .next (if s.walState c = 1 ∧ s.bit Fld.WAL_NODECFG_CS
      ∧ (s.walCh c).heardAt + 500000 + s.walRank * 16000 ≤ s.time.clock then s.walColdStart c
    else s)

/-- CONTENTION_WINDOW_END (R330 to R332): the lowest rank in the window leads. -/
def execContentionWindowEnd (dt : Nat) (chan : Fin 2) (s : State) : Host.Outcome State Fault Refusal :=
  let s := s.elapse dt
  let c := chan.val
  let w := s.walCh c
  .next (match w.window with
    | none => s
    | some t =>
      if s.time.clock < t + 250000 then s
      else
        let best := State.walBest w.seen
        let s := s.modWc c fun x => { x with window := none, seen := [] }
        let st := s.walState c
        match best with
        | none => s
        | some l =>
          if l.own then (if st = 2 then s.modWc c fun x => { x with leading := some l.cycle, gotOther := false } else s)
          else if st = 2 ∨ st = 3 then
            let s := (s.setWal c 3).modWc c fun x => { x with
              leading := none, leaderPos := l.pos, cons := 1, skip := b2n (l.cycle == s.time.beat) }
            if l.onGrid then s else s.walListen c 0
          else s)

/-- WAL_BACKOFF (R331): 8 cycles + RANK × 16 µs without a frame start. -/
def execWalBackoff (dt : Nat) (chan : Fin 2) (s : State) : Host.Outcome State Fault Refusal :=
  let s := s.elapse dt
  let c := chan.val
  .next (if s.walState c = 6 ∧ (s.walCh c).heardAt + 2000000 + s.walRank * 16000 ≤ s.time.clock then s.walColdStart c else s)

end Sys2Proof.Machine
end

