-- ==== Sys2Proof/Machine/Ethernet.lean ====
section
/-! DEFINITION. The Ethernet switch (R346 to R365): classification, policing, replication and forwarding, egress queues with
gates and launch times, and the frame rings. -/

namespace Sys2Proof.Machine

/-- A big-endian number of a frame. -/
def beAt (bs : List Byte) (i n : Nat) : Nat := beNat ((bs.drop i).take n)

/-! ### IPv4 checksums (R363, R364) -/

/-- The sum of the 16-bit big-endian words of a list. -/
def sum16 : List Byte → Nat
  | [] => 0
  | [a] => 256 * a.toNat
  | a :: b :: t => 256 * a.toNat + b.toNat + sum16 t

/-- A sum folded to 16 bits with end-around carry. -/
def fold16 (n : Nat) : Nat := if n = 0 then 0 else if n % 65535 = 0 then 65535 else n % 65535

/-- The IPv4 packet of a frame with at most one VLAN tag: offset, header bytes, protocol, total length, a fragment or not, the
start of its data or not. -/
structure IpAt where
  off : Nat
  hdr : Nat
  proto : Nat
  len : Nat
  frag : Bool
  first : Bool

/-- Where a frame holds IPv4 (PRESUMED: RFC 791, which the spec names by "IPv4"). -/
def ipOf (bs : List Byte) : Option IpAt :=
  let o := if beAt bs 12 2 = 0x8100 then 18 else 14
  let h := beAt bs o 1 % 16 * 4
  let n := beAt bs (o + 2) 2
  if beAt bs (o - 2) 2 = 0x0800 ∧ beAt bs o 1 / 16 = 4 ∧ 20 ≤ h ∧ h ≤ n ∧ o + n ≤ bs.length then
    some ⟨o, h, beAt bs (o + 9) 1, n, beAt bs (o + 6) 2 % 16384 != 0, beAt bs (o + 6) 2 % 8192 == 0⟩
  else none

/-- The sum over the pseudo-header and the segment. -/
def l4Sum (bs : List Byte) (ip : IpAt) : Nat :=
  sum16 ((bs.drop (ip.off + 12)).take 8) + ip.proto + (ip.len - ip.hdr) +
    sum16 ((bs.drop (ip.off + ip.hdr)).take (ip.len - ip.hdr))

/-- The place of the UDP or TCP checksum. -/
def l4Place (ip : IpAt) : Nat := ip.off + ip.hdr + if ip.proto = 17 then 6 else 16

/-- Put a 16-bit big-endian number into a frame. -/
def put16 (bs : List Byte) (i v : Nat) : List Byte := bs.take i ++ beBytes 2 v ++ bs.drop (i + 2)

/-- Fill in the IPv4 header checksum. -/
def fillIp (bs : List Byte) (ip : IpAt) : List Byte :=
  let bs := put16 bs (ip.off + 10) 0
  put16 bs (ip.off + 10) (65535 - fold16 (sum16 ((bs.drop ip.off).take ip.hdr)))

/-- Fill in the UDP or TCP checksum. -/
def fillL4 (bs : List Byte) (ip : IpAt) : List Byte :=
  let bs := put16 bs (l4Place ip) 0
  let c := 65535 - fold16 (l4Sum bs ip)
  put16 bs (l4Place ip) (if c = 0 ∧ ip.proto = 17 then 65535 else c)

/-- What the receive hardware reports of the checksums: header right, UDP or TCP right, UDP or TCP checked (R364). -/
def csumFlags (bs : List Byte) : Nat :=
  match ipOf bs with
  | none => 0
  | some ip =>
    let hdr := fold16 (sum16 ((bs.drop ip.off).take ip.hdr)) == 65535
    let l4 := (ip.proto == 6 || ip.proto == 17 && beAt bs (l4Place ip) 2 != 0) && !ip.frag
    b2n hdr + 2 * b2n (l4 && fold16 (l4Sum bs ip) == 65535) + 4 * b2n l4

/-! ### Frames -/

/-- A frame padded to 60 bytes (R347, R362). -/
def padFrame (bs : List Byte) : List Byte := bs ++ List.replicate (60 - bs.length) 0

/-- A frame's classification: VID, PCP and drop-eligible bit, whether it came tagged, and the frame without its tag. -/
structure Classified where
  vid : Nat
  pcp : Nat
  dei : Nat
  tagged : Bool
  inner : List Byte

/-- Insert an R-TAG with a sequence number after the VLAN tag (R358; PRESUMED layout of IEEE 802.1CB). -/
def putRtag (bs : List Byte) (seq : Nat) : List Byte :=
  let o := if beAt bs 12 2 = 0x8100 then 16 else 12
  bs.take o ++ beBytes 2 0xF1C1 ++ beBytes 2 0 ++ beBytes 2 seq ++ bs.drop o

/-- The sequence number of the R-TAG of an untagged frame. -/
def rtagOf (inner : List Byte) : Option Nat := if beAt inner 12 2 = 0xF1C1 then some (beAt inner 16 2) else none

/-- Remove the R-TAG of an untagged frame. -/
def dropRtag (inner : List Byte) : List Byte := inner.take 12 ++ inner.drop 18

/-- No classification: a directed frame, or one of the service port. -/
def noMeta (port ts : Nat) : RxMeta :=
  { inPort := port, ts := ts, vid := 0, pcp := 0, stream := 0xFFFF, tagged := false, rtag := false }

namespace State

/-- Change the switch. -/
def modEth (s : State) (f : EthSt → EthSt) : State := { s with eth := f s.eth }

/-- An event of ETH, in the collection of ETH_EVCOLL (R381). -/
def ethEvent (s : State) (code sev : Nat) (payload : List Byte) : State :=
  let k := s.getF Fld.ETH_EVCOLL_COLL
  s.emit 0x0A code sev (if 55 < k then 0 else k) payload

/-- An event of TRDP, in the collection of TRDP_EVCOLL (R381). -/
def trdpEvent (s : State) (code sev : Nat) (payload : List Byte) : State :=
  let k := s.getF Fld.TRDP_EVCOLL_COLL
  s.emit 0x0B code sev (if 55 < k then 0 else k) payload

/-- Whether a port's link is up; the internal ports have no link. -/
def linkUp (s : State) (p : Nat) : Bool :=
  if p = 8 ∨ p = 9 then true else if p = 10 then s.eth.svcUp else s.bit (Fld.ETH_PORTSTAT_LINKUP p)

/-- The factory latencies of an external port between MAC and reference plane, and the fixed ones of the service port (R359;
assumption 75); a frame of the internal ports is taken at the plane itself. -/
def ingressNs (s : State) (p : Nat) : Nat :=
  if p < 8 then s.getF (Fld.ETH_LAT_INGRESS p) else if p = 10 then Config.svcIngress.toNat else 0
def egressNs (s : State) (p : Nat) : Nat :=
  if p < 8 then s.getF (Fld.ETH_LAT_EGRESS p) else if p = 10 then Config.svcEgress.toNat else 0

/-- The ingress time of a frame that the MAC takes now: module time at the reference plane, in steps of 8 ns (R51, R359). -/
def ethStamp (s : State) (p : Nat) : Nat := (s.time.mt - s.ingressNs p) / 8 * 8

/-- The module time at which a frame that the MAC starts now crosses the reference plane (R359). -/
def planeMt (s : State) (p : Nat) : Nat := s.time.mt + s.egressNs p

/-- An egress queue. -/
def ethQueue (s : State) (p q : Nat) : List EthQ := tget s.eth.queues (p * 8 + q)

/-- Set an egress queue. -/
def setQueue (s : State) (p q : Nat) (l : List EthQ) : State :=
  s.modEth fun e => { e with queues := tset e.queues (p * 8 + q) l }

/-- The frame on a port's wire. -/
def onWire (s : State) (p : Nat) : Option EthQ := tget s.eth.sending p

/-- A received frame is dropped under one reason (R365). -/
def rxDrop (s : State) (p r : Nat) : State := s.inc64 (Reg.ETH_RXDROP p r)

/-- The bytes of an entry of 16 bytes in the register file. -/
def entry16 (s : State) (a : Nat) : List Byte := leBytes 16 (s.rd64 a + s.rd64 (a + 8) * 18446744073709551616)

/-! ### The end of a queued frame (R363, R365) -/

/-- A queued frame is dropped under a transmit reason (R352, R365, R371): its descriptor or publication copy ends. -/
def txDrop (s : State) (p : Nat) (f : EthQ) (reason late : Nat) : State :=
  let s := s.inc64 (Reg.ETH_TXDROP p reason)
  match f.origin with
  | .ring r d => s.endTx .eth r d (if reason = 3 then 0x22 else 0x20) (if reason = 3 then late else 0)
  | .trdp h e =>
    if reason = 3 then
      (s.inc64 (Reg.TRDP_PUBMISSED h)).trdpEvent 0x0A04 3 (p4 [e, p, min late 4294967295])
    else s
  | _ => s

/-! ### Into an egress queue (R352, R365, R366) -/

/-- The state of a port's spanning tree; the internal ports and the service port are always forwarding (R351). -/
def stp (s : State) (p : Nat) : Nat := if 8 ≤ p then 3 else s.getF (Fld.ETH_PORTCFG_STP p)

/-- Whether a frame goes to an address that the switch traps (R351). -/
def trapped (bs : List Byte) : Bool := beAt bs 0 6 / 16 == 0x0180C200000

/-- Whether a frame may leave at a port: every one while it forwards, none while it is disabled, else one to a trapped address,
which only software sends (R351). -/
def mayLeave (s : State) (p : Nat) (bs : List Byte) : Bool :=
  s.stp p == 3 || (s.stp p != 0 && trapped bs)

/-- Whether the TRDP engine takes a frame at port 8: process data of type Pd, or an announcement (R366, R380; PRESUMED
header places of IEC 61375-2-3). -/
def engineTakes (s : State) (bs : List Byte) : Bool :=
  match ipOf bs with
  | none => false
  | some ip =>
    let u := ip.off + ip.hdr
    let port := beAt bs (u + 2) 2
    let kind := beAt bs (u + 14) 2
    ip.proto == 17 && ip.first && (port == 17224 && kind == 0x5064 ||
      port == 17225 && kind == 0x4D6E && s.rd Reg.TRDP_INVGRP != 0 && beAt bs (ip.off + 16) 4 == s.rd Reg.TRDP_INVGRP &&
        beAt bs (u + 16) 4 == s.rd Reg.INV_COMID)

/-- The engine takes a frame of a host: it waits for processing, or is dropped where 32 of both hosts already wait (R366, R373). While the
engine is under test it takes none (R517). -/
def engineTake (s : State) (h : Nat) (f : EthQ) : State :=
  if s.unitOff 0x0B 0 then s
  else
    let s := s.inc64 (Reg.TRDP_RXTEL h)
    if 32 ≤ (tget s.eth.engine 0).length + (tget s.eth.engine 1).length then s.inc64 (Reg.TRDP_RXDROP h 9)
    else s.modEth fun e => { e with engine := tmod e.engine h (· ++ [f]) }

/-- Offer a frame to an egress queue: dropped where the link is down, the port's state keeps it back (reason FLUSH, DESIGN CHOICE,
assumption 133) or there is no room, handed to the TRDP engine at once, or queued. The answer says whether it has its place. -/
def ethOffer (s : State) (p q : Nat) (f : EthQ) : State × Bool :=
  let s := s.inc64 (Reg.ETH_TXOFFERED p)
  let l := s.ethQueue p q
  let used := ((List.range 8).map fun i => ((s.ethQueue p i).map fun x => x.bytes.length).sum).sum
  if !s.linkUp p || !s.mayLeave p f.bytes then (s.txDrop p f 2 0, false)
  else if p = 9 ∨ (p = 8 ∧ s.engineTakes f.bytes = true) then
    (((s.inc64 (Reg.ETH_TXSENT p)).lpeFeed 2 p f.bytes).engineTake (p - 8) f, true)
  else if 64 ≤ l.length ∨ (p < 8 ∧ 196608 < used + f.bytes.length) then (s.txDrop p f 1 0, false)
  else (s.setQueue p q (l ++ [f]), true)

/-! ### Forwarding (R349 to R351) -/

/-- Classify a frame at an ingress port (R349); `dp` is the PCP of an untagged frame. -/
def classify (s : State) (p dp : Nat) (bs : List Byte) : Classified :=
  let pvid := s.getF (Fld.ETH_PORTCFG_PVID p)
  if beAt bs 12 2 = 0x8100 then
    let tci := beAt bs 14 2
    { vid := if tci % 4096 = 0 then pvid else tci % 4096, pcp := tci / 8192, dei := tci / 4096 % 2, tagged := true
      inner := bs.take 12 ++ bs.drop 16 }
  else { vid := pvid, pcp := dp, dei := 0, tagged := false, inner := bs }

/-- The member ports of a VID, none where it is not enabled (R349). -/
def vlanMembers (s : State) (v : Nat) : Nat :=
  if 1 ≤ v ∧ v ≤ 4094 ∧ s.bit (Fld.ETH_VLAN_EN v) then s.getF (Fld.ETH_VLAN_MEMBER v) else 0

/-- The mask of the enabled static entry with the lowest number for a MAC and VID (R350). -/
def staticMask (s : State) (mac : List Byte) (vid : Nat) : Option Nat :=
  (List.range 256).findSome? fun i =>
    let e := s.entry16 (Reg.ETH_FDBS i)
    if (Machine.ent e 10 1).testBit 0 ∧ e.take 6 = mac ∧ Machine.ent e 6 2 = vid then some (Machine.ent e 8 2) else none

/-- The learnt entry of a MAC and VID. -/
def learntPort (s : State) (mac vid : Nat) : Option Nat := (s.eth.fdb.find? fun x => x.mac == mac && x.vid == vid).map fun x => x.port

/-- Learn a source address, or refresh it (R350). -/
def learn (s : State) (p : Nat) (bs : List Byte) (vid : Nat) : State :=
  let mac := beAt bs 6 6
  let e : FdbEnt := { mac, vid, port := p, seenAt := s.time.clock }
  let may := s.bit (Fld.ETH_PORTCFG_LEARN p) && p != 9 && decide (2 ≤ s.stp p) && beAt bs 6 1 % 2 == 0
  let others := s.eth.fdb.filter fun x => !(x.mac == mac && x.vid == vid)
  if may && decide (others.length < 8192) then s.modEth fun t => { t with fdb := others ++ [e] } else s

/-- The egress ports of a frame: a static entry over a learnt one over the VID's members, port 9 only by a static entry,
never the ingress port, and external ports only while forwarding (R350, R351). -/
def egressPorts (s : State) (p vid : Nat) (bs : List Byte) : List Nat :=
  let mem := s.vlanMembers vid
  let mask := match s.staticMask (bs.take 6) vid with
    | some m => m
    | none => match s.learntPort (beAt bs 0 6) vid with
      | some q => 2 ^ q
      | none => mem % 512
  (List.range 10).filter fun q => mask.testBit q && mem.testBit q && q != p && s.stp q == 3

/-- A frame as it leaves at a port: the tag removed on the ports of UNTAG, and kept or put in on the others (R349). -/
def egressBytes (s : State) (q : Nat) (c : Classified) (inner : List Byte) : List Byte :=
  if (s.getF (Fld.ETH_VLAN_UNTAG c.vid)).testBit q then padFrame inner
  else padFrame (inner.take 12 ++ beBytes 2 0x8100 ++ beBytes 2 (c.pcp * 8192 + c.dei * 4096 + c.vid) ++ inner.drop 12)

/-- Place a classified frame in the queues of its egress ports; the answer says whether every one took it. -/
def distribute (s : State) (ports : List Nat) (c : Classified) (m : RxMeta) : State × Bool :=
  ports.foldl (fun x q =>
    let strip := m.rtag && decide (8 ≤ q)
    let f : EthQ := { bytes := x.1.egressBytes q c (if strip then dropRtag c.inner else c.inner), since := x.1.time.clock
                      launch := none, tol := 0, tsTag := none, origin := .switched, rx := { m with rtag := strip } }
    let y := x.1.ethOffer q c.pcp f
    (y.1, x.2 && y.2)) (s, true)

/-! ### Stream filters, meters, recovery (R356 to R358) -/

/-- The stream handle of a frame from an external port: the lowest enabled filter that matches (R356). -/
def streamOf (s : State) (p vid : Nat) (bs : List Byte) : Option Nat :=
  (List.range 256).find? fun i =>
    let e := s.entry16 (Reg.ETH_SF i)
    (Machine.ent e 9 1).testBit 0 && (Machine.ent e 8 1).testBit p && decide (e.take 6 = bs.take 6) &&
      ((Machine.ent e 6 2).testBit 15 || Machine.ent e 6 2 % 4096 == vid)

/-- A meter takes a frame of `n` bytes, FCS included: green and yellow pass, red does not (R357). Buckets are in bits ×
1,000,000, so that a rate in kbit/s adds its value each ns; they start full. -/
def meter (s : State) (i n : Nat) : State × Bool :=
  let a := Reg.ETH_FM i
  let m := tget s.eth.meters i
  let dt := if m.ready then s.time.clock - m.lastAt else 0
  let fill (tok rate burst : Nat) : Nat := if m.ready then min (tok + rate * dt) (burst * 8000000) else burst * 8000000
  let c := fill m.ctok (s.rd a) (s.rd (a + 4))
  let e := fill m.etok (s.rd (a + 8)) (s.rd (a + 12))
  let need := n * 8000000
  let upd (c e : Nat) : State := s.modEth fun t =>
    { t with meters := tset t.meters i { ready := true, ctok := c, etok := e, lastAt := s.time.clock } }
  if need ≤ c then (upd (c - need) e, true)
  else if need ≤ e then (upd c (e - need), true)
  else (upd c e, false)

/-- The vector recovery of IEEE 802.1CB (R358): 0 passes, else the drop reason. -/
def recover (s : State) (i seq : Nat) : State × Nat :=
  let e := s.entry16 (Reg.ETH_FRER i)
  let f := tget s.eth.frer i
  let n := max 2 (min 32 (Machine.ent e 2 1))
  let set (f : FrerSt) : State := s.modEth fun t => { t with frer := tset t.frer i { f with lastAt := s.time.clock } }
  if !f.started then (set { f with started := true, newest := seq, hist := 1 }, 0)
  else
    let up := (seq + 65536 - f.newest) % 65536
    let down := (f.newest + 65536 - seq) % 65536
    if up = 0 ∨ down < n then
      if f.hist.testBit down then (s, 8) else (set { f with hist := f.hist + 2 ^ down }, 0)
    else if up < n then (set { f with newest := seq, hist := (f.hist * 2 ^ up + 1) % 2 ^ n }, 0)
    else (s, 9)

/-- A frame with its egress ports known passes the recovery function that its stream names, where it goes to a host and
carries an R-TAG (R358); then it is placed. A dropped frame answers false. -/
def forward (s : State) (p : Nat) (c : Classified) (m : RxMeta) (ports : List Nat) : State × Bool :=
  if ports.isEmpty then (s.rxDrop p 5, false)
  else
    let sf := s.entry16 (Reg.ETH_SF m.stream)
    let i := Machine.ent sf 11 1
    let fr := s.entry16 (Reg.ETH_FRER (i % 128))
    let rec? := decide (m.stream < 256) && (Machine.ent sf 9 1).testBit 1 && ports.any (8 ≤ ·) && decide (i < 128) &&
      Machine.ent fr 0 1 % 4 == 1
    let r : State × Nat × Bool := match rtagOf c.inner with
      | some n => if rec? then
          let x := s.recover i n
          (x.1, x.2, true)
        else (s, 0, false)
      | none => (s, 0, false)
    if r.2.1 ≠ 0 then (r.1.rxDrop p r.2.1, false)
    else (r.1.inc64 (Reg.ETH_RXDELIV p)).distribute ports c { m with rtag := r.2.2 }

/-- The flow meter of a stream filter, where it names one (R357). -/
def metered (s : State) (i n : Nat) : State × Bool := if i < 128 then s.meter i n else (s, true)

/-- The drop reason that a flow meter gives (R357). -/
def meterDrop (x : State × Bool) : State × Nat := (x.1, if x.2 then 0 else 7)

/-- Stream filtering and metering of a frame of a stream (R356, R357): 0 where it passes, else the drop reason. -/
def police (s : State) (stream : Option Nat) (n : Nat) : State × Nat :=
  match stream with
  | none => (s, 0)
  | some i =>
    let sf := s.entry16 (Reg.ETH_SF i)
    if Machine.ent sf 12 2 ≠ 0 ∧ Machine.ent sf 12 2 < n then (s, 6)
    else
      meterDrop (s.metered (Machine.ent sf 10 1) n)

/-- The switch takes a frame that has entered at a port (R349 to R358): `ports` names the two ports of a replicated
frame in place of the forwarding database. The answer says whether it was placed in every egress queue. -/
def switchFrame (s : State) (p dp : Nat) (bs : List Byte) (ports : Option (List Nat)) : State × Bool :=
  let c := s.classify p dp bs
  let st := s.stp p
  if st < 2 then (s.rxDrop p 4, false)
  else if (s.bit (Fld.ETH_PORTCFG_FRAMETYPES p) && !c.tagged) || !(s.vlanMembers c.vid).testBit p then (s.rxDrop p 3, false)
  else
    let s := s.learn p bs c.vid
    if st = 2 then (s.rxDrop p 4, false)
    else
      let h := if p < 8 then s.streamOf p c.vid bs else none
      let m : RxMeta := { inPort := p, ts := s.ethStamp p, vid := c.vid, pcp := c.pcp, stream := h.getD 0xFFFF
                          tagged := c.tagged, rtag := false }
      let x := s.police h (bs.length + 4)
      if x.2 ≠ 0 then (x.1.rxDrop p x.2, false)
      else x.1.forward p c m (ports.getD (x.1.egressPorts p c.vid bs))

/-- A frame enters at a port (R347, R351, R364, R365). -/
def ethFrameIn (s : State) (p : Nat) (f : EthFrame) : State :=
  let bs := f.bytes
  let n := bs.length + 4
  let s := (s.inc64 (Reg.ETH_RXFRAMES p)).lpeFeed 1 p bs
  if f.bufferFull then s.rxDrop p 10
  else if !f.fcsOk then s.rxDrop p 1
  else if n < 64 ∨ 1528 < n then s.rxDrop p 2
  else if p = 10 then
    let q : EthQ := { bytes := bs, since := s.time.clock, launch := none, tol := 0, tsTag := none, origin := .switched
                      rx := { noMeta 10 (s.ethStamp 10) with tagged := beAt bs 12 2 == 0x8100 } }
    s.modEth fun e => { e with queues := tset e.queues 88 (tget e.queues 88 ++ [q]) }
  else if p < 8 ∧ trapped bs = true then
    if s.stp p = 0 then s.rxDrop p 4
    else
      let c := s.classify p (s.getF (Fld.ETH_PORTCFG_DEFPCP p)) bs
      let h := s.streamOf p c.vid bs
      let x := s.police h n
      if x.2 ≠ 0 then x.1.rxDrop p x.2
      else
      let s := x.1.inc64 (Reg.ETH_RXDELIV p)
      if f.isGptp then s
      else
        let q : EthQ := { bytes := bs, since := s.time.clock, launch := none, tol := 0, tsTag := none, origin := .switched
                          rx := { inPort := p, ts := s.ethStamp p, vid := c.vid, pcp := c.pcp, stream := h.getD 0xFFFF
                                  tagged := c.tagged, rtag := false } }
        (s.ethOffer 8 7 q).1
  else (s.switchFrame p (s.getF (Fld.ETH_PORTCFG_DEFPCP p)) bs none).1

/-! ### Gates (R353, R354) -/

/-- The gate list of a bank, up to its first entry with INTERVAL = 0, as (ns, GATES). -/
def gclList (s : State) (p b : Nat) : List (Nat × Nat) :=
  (((List.range 128).map fun e => (s.getF (Fld.ETH_GCL_INTERVAL p b e) * 8, s.getF (Fld.ETH_GCL_GATES p b e))).takeWhile
    fun x => x.1 != 0)

/-- The cycle time of an exponent. -/
def gclCT (k : Nat) : Nat := 250000 * 2 ^ k

/-- The MT at which a port's gate cycle ends: the next start on its grid; in a stretched beat, its closing edge. -/
def cycleEnd (s : State) (p : Nat) : Nat :=
  let ct := gclCT (tget s.eth.gcl p).ctexp
  if s.bit Fld.TIM_STATUS_STRETCH then s.time.edgeAt else (s.time.mt / ct + 1) * ct

/-- The intervals of a list from a start to the end of the cycle, as (end, GATES): the last entry is extended to the end
of the cycle, and an interval that would pass it is cut there (R353). What an empty list opens is not given (assumption
78). -/
def gateSegs (start stop : Nat) : List (Nat × Nat) → List (Nat × Nat)
  | [] => [(stop, Config.emptyGates.toNat)]
  | [x] => [(stop, x.2)]
  | x :: t => if stop ≤ start + x.1 then [(stop, x.2)] else (start + x.1, x.2) :: gateSegs (start + x.1) stop t

/-- Until when a queue's gate stays open over intervals in sequence. -/
def openThrough (q at_ : Nat) : List (Nat × Nat) → Nat
  | [] => at_
  | x :: t => if x.2.testBit q then openThrough q x.1 t else at_

/-- The MT until which the gate of a queue stays open, this cycle and the next (R353); the present MT where it is closed. -/
def gateOpenTo (s : State) (p q : Nat) : Nat :=
  let g := tget s.eth.gcl p
  let stop := s.cycleEnd p
  let bank := s.getF (Fld.ETH_PORTSTAT_GCLBANK p)
  let now := gateSegs g.startMt stop ((s.gclList p bank).drop g.idx)
  let next : Nat × Nat := match g.pend with
    | some (b, k, at_) => if at_ ≤ stop then (b, k) else (bank, g.ctexp)
    | none => (bank, g.ctexp)
  let later := gateSegs stop (stop + gclCT next.2) (s.gclList p next.1)
  openThrough q s.time.mt ((now.dropWhile fun x => decide (x.1 ≤ s.time.mt)) ++ later)

/-- The time that a frame with its gap takes at a port, with FCS, preamble and gap. -/
def frameTime (s : State) (p n : Nat) : Nat :=
  (n + 24) * if p < 8 ∧ s.getF (Fld.ETH_PORTSTAT_SPEED p) = 1 then 8 else 80

/-- Whether a frame of `n` bytes may start now in a queue (R353, R354). -/
def gateFits (s : State) (p q n : Nat) : Bool :=
  decide (8 ≤ p) || !s.bit (Fld.ETH_PORTCFG_GATE_EN p) || decide (s.planeMt p + s.frameTime p n ≤ s.gateOpenTo p q)

/-! ### Transmission (R352, R354, R359, R360, R73 to R78) -/

/-- The head of a queue, if it can start now. -/
def txAble (s : State) (p q : Nat) : Option EthQ :=
  match s.ethQueue p q with
  | [] => none
  | f :: _ => if f.launch.getD 0 ≤ s.planeMt p ∧ s.gateFits p q f.bytes.length then some f else none

/-- The highest queue whose head can start (R352). -/
def txSelect (s : State) (p : Nat) : Option (Nat × EthQ) :=
  [7, 6, 5, 4, 3, 2, 1, 0].findSome? fun q => (s.txAble p q).map fun f => (q, f)

/-- A frame starts: it leaves its queue, and a requested timestamp is taken (R73). -/
def txStart (s : State) (p q : Nat) (f : EthQ) (late : Nat) : State :=
  let s := s.setQueue p q (s.ethQueue p q).tail
  let s := s.modEth fun e => { e with sending := tset e.sending p (some { f with late := late, sentAt := s.time.clock }) }
  match f.tsTag with
  | some t => s.tsRequest (if p = 10 then 8 else p) t (s.planeMt p)
  | none => s

/-- Transmission selection at a free port: a frame whose lateness exceeds its tolerance is dropped, and the selection goes
on (R78). -/
def txGo (s : State) (p : Nat) : Nat → State
  | 0 => s
  | n + 1 => match s.txSelect p with
    | none => s
    | some (q, f) =>
      let late := match f.launch with
        | some t => s.planeMt p - t
        | none => 0
      if f.launch.isSome ∧ f.tol < late then
        txGo ((s.setQueue p q (s.ethQueue p q).tail).txDrop p f 3 late) p n
      else s.txStart p q f late

/-- Transmission selection where the port is free, its link is up and ETH is not under test. -/
def txRun (s : State) (p : Nat) : State :=
  if p = 8 ∨ p = 9 ∨ (s.onWire p).isSome ∨ !s.linkUp p ∨ s.unitOff 0x0A 0 then s
  else s.txGo p (((List.range 8).map fun q => (s.ethQueue p q).length).sum + 1)

/-- The frame on the wire has passed with its last bit. -/
def txDone (s : State) (p : Nat) : State :=
  match s.onWire p with
  | none => s
  | some f =>
    let s := s.modEth fun e => { e with sending := tset e.sending p none }
    let s := (s.inc64 (Reg.ETH_TXSENT p)).lpeFeedFrom f.sentAt 2 p f.bytes
    let s := if f.late = 0 then s else s.inc64 (Reg.ETH_TXLATE p)
    match f.origin with
    | .ring r d => s.endTx .eth r d (if f.late = 0 then 0 else 0x21) f.late
    | .trdp h _ => if f.late = 0 then s else s.inc64 (Reg.TRDP_PUBLATE h)
    | _ => s

/-- Drop the frames of a queue that a test names. -/
def queueDrop (s : State) (key reason : Nat) (gone : EthQ → Bool) : State :=
  let l := tget s.eth.queues key
  let s := s.modEth fun e => { e with queues := tset e.queues key (l.filter fun f => !gone f) }
  (l.filter gone).foldl (fun s f => s.txDrop (key / 8) f reason (s.time.mt - f.launch.getD 0)) s

/-- The state of a port's spanning tree has changed: queued frames that it keeps back are dropped (R351). -/
def stpFlush (s : State) (p : Nat) : State :=
  (List.range 8).foldl (fun s q => s.queueDrop (p * 8 + q) 2 fun f => !s.mayLeave p f.bytes) s

/-- A step of module time drops every frame held for a launch time (R72). -/
def launchDrops (s : State) : State :=
  (s.eth.queues.map fun x => x.1).foldl (fun s k => s.queueDrop k 3 fun f => f.launch.isSome) s

/-! ### Transmit descriptors (R361 to R363) -/

/-- Whether R363 refuses a descriptor, but for what its frame shows. -/
def txRefused (s : State) (r : Nat) (d : List Byte) : Bool :=
  let fl := Machine.ent d 10 1
  let fr := s.entry16 (Reg.ETH_FRER (Machine.ent d 14 1 % 128))
  Machine.ent d 5 3 != 0 || decide (64 ≤ fl) || Machine.ent d 15 1 != 0 || Machine.ent d 24 8 != 0 || decide (Machine.ent d 8 2 < 14) ||
  decide (1524 < Machine.ent d 8 2) || (decide (r < 8) && (fl.testBit 1 || fl.testBit 2) && !fl.testBit 0) ||
  (fl.testBit 5 && (fl.testBit 0 || decide (128 ≤ Machine.ent d 14 1) || Machine.ent fr 0 1 % 4 != 3)) ||
  (fl.testBit 0 && decide (7 < Machine.ent d 11 1)) || (fl.testBit 2 && decide (s.time.mt + 1073741824 < Machine.ent d 16 8))

/-- The frame with the checksums that its descriptor asks for; `none` where it is not such a frame (R363). -/
def txSums (fl : Nat) (bs : List Byte) : Option (List Byte) :=
  if !fl.testBit 3 ∧ !fl.testBit 4 then some bs
  else match ipOf bs with
    | none => none
    | some ip =>
      if fl.testBit 4 ∧ ip.proto ≠ 6 ∧ ip.proto ≠ 17 then none
      else
        let bs := if fl.testBit 4 then fillL4 bs ip else bs
        some (if fl.testBit 3 then fillIp bs ip else bs)

/-- A frame of a ring goes out: directed or on the service port it waits for its end, replicated or switched it ends with
its placing (R360, R362, R363). -/
def txSend (s : State) (r desc : Nat) (d bs : List Byte) : State :=
  let fl := Machine.ent d 10 1
  let pcp := if beAt bs 12 2 = 0x8100 then beAt bs 14 2 / 8192 else r % 8
  if r = 16 ∨ fl.testBit 0 then
    let f : EthQ := { bytes := padFrame bs, since := s.time.clock
                      launch := if fl.testBit 2 then some (Machine.ent d 16 8) else none, tol := s.rd (Reg.ETH_LTTOL r)
                      tsTag := if fl.testBit 1 then some (Machine.ent d 12 2) else none, origin := .ring r desc
                      rx := noMeta 8 (s.ethStamp 8) }
    let s := if r = 16 then s else ((s.inc64 (Reg.ETH_RXFRAMES 8)).inc64 (Reg.ETH_RXDELIV 8)).lpeFeed 1 8 (padFrame bs)
    (s.ethOffer (if r = 16 then 10 else Machine.ent d 11 1) pcp f).1
  else
    let bs := padFrame bs
    let s := (s.inc64 (Reg.ETH_RXFRAMES 8)).lpeFeed 1 8 bs
    let x : State × Bool :=
      if fl.testBit 5 then
        let i := Machine.ent d 14 1
        let seq := tget s.eth.frerSeq i
        let s := s.modEth fun e => { e with frerSeq := tset e.frerSeq i ((seq + 1) % 65536) }
        s.switchFrame 8 r (putRtag bs seq) (some (bitsOf 8 (Machine.ent (s.entry16 (Reg.ETH_FRER i)) 1 1)))
      else s.switchFrame 8 r bs none
    x.1.endTx .eth r desc (if x.2 then 0 else 0x20) 0

/-- The descriptor at the head of a transmit ring is taken (R363). -/
def txTake (s : State) (r : Nat) (ended : ReadEnd) : State :=
  let d := s.headDesc .eth r
  let st := s.headRead .eth r
  let desc := (s.ring .eth r).head
  let s := ((s.headLeaves .eth r).takePend .eth r)
  if st ≠ 0 then s.endTx .eth r desc st 0
  else if s.txRefused r d then s.endTx .eth r desc 0x31 0
  else
    let buf := Machine.ent d 0 5
    let n := Machine.ent d 8 2
    let st := s.readStatus ended .d buf n
    if st ≠ 0 then
      (s.readLeaves st .d buf n).endTx .eth r desc st 0
    else match txSums (Machine.ent d 10 1) (s.devBytes buf n) with
      | none => (s.devTook 0x0A buf n).endTx .eth r desc 0x31 0
      | some bs => (s.devTook 0x0A buf n).txSend r desc d bs

/-! ### Receive rings (R364) -/

/-- The frame at the head of a queue is handed to its receive ring, or dropped where the ring holds no descriptor. -/
def rxDeliver (s : State) (r : Nat) : State :=
  let key := if r = 17 then 88 else 64 + (r - 8)
  match tget s.eth.queues key with
  | [] => s
  | f :: rest =>
    let pop (s : State) : State := s.modEth fun e => { e with queues := tset e.queues key rest }
    if !s.ringOn .eth r ∨ s.ringWaiting .eth r = 0 then
      if r = 17 then (pop s).rxDrop 10 10 else (pop s).txDrop 8 f 5 0
    else
      let d := s.headDesc .eth r
      let st := s.headRead .eth r
      let desc := (s.ring .eth r).head
      let s := (s.headLeaves .eth r).takeHead .eth r
      let n := Machine.ent d 8 2
      if st ≠ 0 then s.complete .eth r desc st []
      else if n < 128 ∨ 16384 < n then s.complete .eth r desc 0x13 []
      else if Machine.ent d 5 3 ≠ 0 ∨ Machine.ent d 10 6 ≠ 0 then s.complete .eth r desc 0x31 []
      else
        let bs := f.bytes.take n
        let buf := Machine.ent d 0 5
        let st := s.rangeCheck .d true buf bs.length
        let s := (pop s).devWrite .d buf bs
        let s := if r = 17 then s.inc64 (Reg.ETH_RXDELIV 10)
                 else (s.inc64 (Reg.ETH_TXSENT 8)).lpeFeed 2 8 f.bytes
        let fl := csumFlags f.bytes + 8 * b2n f.rx.tagged + 16 * b2n f.rx.rtag
        let st := if st ≠ 0 then st else if n < f.bytes.length then 1 else 0
        s.complete .eth r desc st (leBytes 2 f.bytes.length ++ leBytes 1 f.rx.inPort ++ leBytes 1 fl ++ leBytes 8 f.rx.ts ++
          leBytes 2 (f.rx.vid + 8192 * f.rx.pcp) ++ leBytes 2 f.rx.stream)

/-- Clearing ETH_RCTL.EN (R363, R365): queued frames of the ring are flushed and end their descriptors, then the untaken
descriptors end. Completions of frames on the wire follow when they end. -/
def ethDisable (s : State) (r : Nat) : State :=
  if !s.ringOn .eth r then s
  else
    let mine (f : EthQ) : Bool := match f.origin with
      | .ring k _ => k == r
      | _ => false
    let s := (s.eth.queues.map fun x => x.1).foldl (fun s k => s.queueDrop k 2 mine) s
    let s := s.abortWaiting .eth r (s.ringWaiting .eth r)
    s.setB (Fld.ETH_RCTL_EN r) false

/-! ### Gate list changes (R355) -/

/-- A port's list starts a cycle now. -/
def gclStart (s : State) (p : Nat) : State :=
  s.modEth fun e => { e with gcl := tmod e.gcl p fun g => { g with idx := 0, startMt := s.time.mt } }

/-- The committed bank becomes operative. -/
def gclSwitch (s : State) (p : Nat) : State :=
  match (tget s.eth.gcl p).pend with
  | none => s
  | some (b, k, at_) =>
    if s.time.mt < at_ then s
    else
      let s := (s.modEth fun e => { e with gcl := tmod e.gcl p fun g => { g with ctexp := k, pend := none } }).gclStart p
      let s := (s.setF (Fld.ETH_PORTSTAT_GCLBANK p) b).setB (Fld.ETH_PORTSTAT_GCLPEND p) false
      s.ethEvent 0x0902 1 (p4 [p, b, k])

/-- The MT from which a commit that is written now may take effect: 2 µs on, and no cycle starts before the closing edge of a
stretched beat (R355). -/
def gclFrom (s : State) : Nat := if s.bit Fld.TIM_STATUS_STRETCH then max (s.time.mt + 2000) s.time.edgeAt else s.time.mt + 2000

/-- A write of ETH_GCLCTL_p with COMMIT (R355). -/
def gclCommit (s : State) (p v : Nat) : State :=
  let b := v / 256 % 2
  let k := v % 8
  let s := (s.setF (Fld.ETH_GCLCTL_BANK p) b).setF (Fld.ETH_GCLCTL_CTEXP p) k
  if !v.testBit 9 then s
  else if s.getF (Fld.ETH_GCL_INTERVAL p b 0) = 0 ∨ k = 7 then
    let s := s.modEth fun e => { e with gcl := tmod e.gcl p fun g => { g with pend := none } }
    (s.setB (Fld.ETH_PORTSTAT_GCLPEND p) false).ethEvent 0x0903 3 (p4 [p, b])
  else
    let at_ := (s.gclFrom + gclCT k - 1) / gclCT k * gclCT k
    (s.modEth fun e => { e with gcl := tmod e.gcl p fun g => { g with pend := some (b, k, at_) } }).setB
      (Fld.ETH_PORTSTAT_GCLPEND p) true

/-- A beat edge in the switch (R353, R355): gate cycles start on the edges that lie on their grid, and at the edge that
ends a stretched beat. -/
def ethEdge (s : State) (stretched : Bool) : State :=
  (List.range 8).foldl (fun s p =>
    if stretched ∨ s.time.mt % gclCT (tget s.eth.gcl p).ctexp = 0 then s.gclStart p else s) s

/-- A step moves a running interval with MT, and drops the held frames; a committed bank waits for the first cycle start of
the new MT (R72, R355). -/
def ethStep (s : State) (delta : Int) : State :=
  let first (k : Nat) : Nat := (s.time.edgeAt + gclCT k - 1) / gclCT k * gclCT k
  s.launchDrops.modEth fun e => { e with gcl := e.gcl.map fun x =>
    (x.1, { x.2 with startMt := (((x.2.startMt : Int) + delta) % 18446744073709551616).toNat
                     pend := x.2.pend.map fun y => (y.1, y.2.1, first y.2.1) }) }

/-- A link goes down: the queues of the port and the frame on its wire are flushed (R365). -/
def linkFlush (s : State) (p : Nat) : State :=
  let s := (List.range 8).foldl (fun s q => s.queueDrop (p * 8 + q) 2 fun _ => true) s
  match s.onWire p with
  | some f => (s.modEth fun e => { e with sending := tset e.sending p none }).txDrop p f 2 0
  | none => s

end State

/-! ### The commands -/

/-- ETH_FRAME_RX (R347 to R351, R356 to R359, R365). While ETH is under test it takes no frame (R517). -/
def execEthFrameRx (dt : Nat) (port : Fin 11) (frame : EthFrame) (s : State) : Host.Outcome State Fault Refusal :=
  let s := s.elapse dt
  .next (if s.unitOff 0x0A 0 ∨ s.linkUp port.val = false then s else s.ethFrameIn port.val frame)

/-- ETH_FRAME_TX_START (R73, R78, R352, R354). -/
def execEthFrameTxStart (dt : Nat) (port : Fin 11) (s : State) : Host.Outcome State Fault Refusal :=
  .next ((s.elapse dt).txRun port.val)

/-- LAUNCH_TIME_REACHED (R77, R78): the head of the queue has a launch time that MT has reached; it starts where it can. -/
def execLaunchTimeReached (dt : Nat) (port : Fin 11) (queue : Fin 8) (s : State) : Host.Outcome State Fault Refusal :=
  let s := s.elapse dt
  .next (match s.ethQueue port.val queue.val with
    | [] => s
    | f :: _ => match f.launch with
      | some t => if t ≤ s.planeMt port.val then s.txRun port.val else s
      | none => s)

/-- ETH_TX_COMPLETE (R363, R365). -/
def execEthTxComplete (dt : Nat) (port : Fin 11) (s : State) : Host.Outcome State Fault Refusal :=
  .next ((s.elapse dt).txDone port.val)

/-- ETH_TX_DESC_TAKEN (R361 to R363): rings 0 to 7 and 16 are transmit rings. -/
def execEthTxDescTaken (dt : Nat) (ring : Fin 18) (ended : ReadEnd) (s : State) : Host.Outcome State Fault Refusal :=
  let s := s.elapse dt
  let r := ring.val
  .next (if (8 ≤ r ∧ r ≠ 16) ∨ !s.ringOn .eth r ∨ s.ringWaiting .eth r = 0 ∨ s.unitOff 0x0A 0 then s
    else s.txTake r ended)

/-- ETH_RX_RING_DELIVERY (R364). -/
def execEthRxRingDelivery (dt : Nat) (ring : Fin 18) (s : State) : Host.Outcome State Fault Refusal :=
  let s := s.elapse dt
  let r := ring.val
  .next (if r < 8 ∨ r = 16 ∨ s.unitOff 0x0A 0 then s else s.rxDeliver r)

/-- ETH_RING_DISABLE (R363, R365). -/
def execEthRingDisable (dt : Nat) (req : Requester) (ring : Fin 18) (s : State) : Host.Outcome State Fault Refusal :=
  .next ((s.elapse dt).regCmd req (Reg.ETH_RCTL ring.val) fun s => s.ethDisable ring.val)

/-- FRAME_AGED (R352): the frames of a queue that have waited more than 500 ms; one with a launch time never ages. -/
def execFrameAged (dt : Nat) (port : Fin 11) (queue : Fin 8) (s : State) : Host.Outcome State Fault Refusal :=
  let s := s.elapse dt
  .next (s.queueDrop (port.val * 8 + queue.val) 4 fun f =>
    f.launch.isNone && decide (f.since + 500000000 < s.time.clock))

/-- FDB_ENTRY_AGED (R350): ETH_AGETIME seconds without traffic; 0 disables aging. -/
def execFdbEntryAged (dt mac vid : Nat) (s : State) : Host.Outcome State Fault Refusal :=
  let s := s.elapse dt
  let age := s.getF Fld.ETH_AGETIME_SEC
  let old (x : FdbEnt) : Bool := x.mac == mac && x.vid == vid && age != 0 && decide (x.seenAt + age * 1000000000 ≤ s.time.clock)
  .next (s.modEth fun e => { e with fdb := e.fdb.filter fun x => !old x })

/-- GATE_INTERVAL_END (R353): the running interval is over and the next entry's gates apply; the last entry runs to the
end of the cycle. -/
def execGateIntervalEnd (dt : Nat) (port : Fin 8) (s : State) : Host.Outcome State Fault Refusal :=
  let s := s.elapse dt
  let p := port.val
  let g := tget s.eth.gcl p
  .next (match (s.gclList p (s.getF (Fld.ETH_PORTSTAT_GCLBANK p))).drop g.idx with
    | x :: _ :: _ =>
      if g.startMt + x.1 ≤ s.time.mt then
        s.modEth fun e => { e with gcl := tset e.gcl p { g with idx := g.idx + 1, startMt := g.startMt + x.1 } }
      else s
    | _ => s)

/-- ETH_GCL_COMMIT (R355). -/
def execEthGclCommit (dt : Nat) (req : Requester) (port : Fin 8) (value : Word) (s : State) :
    Host.Outcome State Fault Refusal :=
  .next ((s.elapse dt).regCmd req (Reg.ETH_GCLCTL port.val) fun s => s.gclCommit port.val value.toNat)

/-- ETH_GCL_SWITCH (R355). -/
def execEthGclSwitch (dt : Nat) (port : Fin 8) (s : State) : Host.Outcome State Fault Refusal :=
  .next ((s.elapse dt).gclSwitch port.val)

/-- FRER_RESET_TIMEOUT (R358): RESETMS without an accepted frame. -/
def execFrerResetTimeout (dt : Nat) (i : Fin 128) (s : State) : Host.Outcome State Fault Refusal :=
  let s := s.elapse dt
  let f := tget s.eth.frer i.val
  let ms := max 1 (min 1000 (ent (s.entry16 (Reg.ETH_FRER i.val)) 4 2))
  .next (if f.started ∧ f.lastAt + ms * 1000000 ≤ s.time.clock then
    s.modEth fun e => { e with frer := tset e.frer i.val {} }
  else s)

/-- ETH_LINK (R347, R381): an external port or the service port; the speed is 1 for 1000 and 2 for 100 Mbit/s. -/
def execEthLink (dt : Nat) (port : Fin 11) (up : Bool) (speed : Fin 3) (s : State) : Host.Outcome State Fault Refusal :=
  let s := s.elapse dt
  let p := port.val
  .next (
    if p = 8 ∨ p = 9 then s
    else
      let forced := if p = 10 then 0 else s.getF (Fld.ETH_PORTCFG_SPEED p)
      let v := if !up then 0 else if p = 10 then 2 else if forced = 1 ∨ forced = 2 then forced else speed.val
      let s := if p = 10 then s.modEth fun e => { e with svcUp := up }
               else (s.setB (Fld.ETH_PORTSTAT_LINKUP p) up).setF (Fld.ETH_PORTSTAT_SPEED p) v
      let s := if up then s else s.linkFlush p
      s.ethEvent 0x0901 2 (p4 [p, b2n up, v]))

end Sys2Proof.Machine
end

