-- ==== Sys2Proof/Machine/Trdp.lean ====
section
/-! DEFINITION. The TRDP process-data engine (R366 to R378) and the Inventory announcements that it carries (R379, R380). -/

namespace Sys2Proof.Machine

/-- The key of a data record. -/
def recKey (blk entry : Nat) : Nat := blk * 65536 + entry

/-- Fields of a TRDP entry (R368). -/
def trdpPub (e : List Byte) : Bool := (ent e 0 1).testBit 1
def trdpHost (e : List Byte) : Nat := ent e 0 1 / 4 % 2
def trdpDlen (e : List Byte) : Nat := ent e 16 2
def trdpBase (e : List Byte) : Nat := ent e 48 5

/-- A 16-bit change of the generation: the next even value (R372). -/
def nextGen (g : Nat) : Nat := (g / 2 * 2 + 2) % 4294967296

/-! ### Frames that the engine builds (R366, R371; PRESUMED formats of RFC 791, RFC 768 and IEC 61375-2-3) -/

/-- An IPv4 datagram with UDP, with both checksums: `n` numbers the free bytes of its headers. -/
def udpFrame (dst src : List Byte) (tci srcIp dstIp port n : Nat) (payload : List Byte) : List Byte :=
  let f (i : Nat) : List Byte := [Config.wireByte n i]
  let ip := [0x45] ++ f 0 ++ beBytes 2 (28 + payload.length) ++ f 1 ++ f 2 ++ [0, 0] ++ f 3 ++ [17, 0, 0] ++
    beBytes 4 srcIp ++ beBytes 4 dstIp
  let udp := f 4 ++ f 5 ++ beBytes 2 port ++ beBytes 2 (8 + payload.length) ++ [0, 0] ++ payload
  let bs := dst ++ src ++ beBytes 2 0x8100 ++ beBytes 2 tci ++ beBytes 2 0x0800 ++ ip ++ udp
  match ipOf bs with
  | some at_ => fillIp (fillL4 bs at_) at_
  | none => bs

/-- A process-data telegram: the header of 40 bytes with its FCS, and the dataset. -/
def pdTelegram (seq : Nat) (e : List Byte) (data : List Byte) : List Byte :=
  let h := beBytes 4 seq ++ beBytes 2 0x0100 ++ beBytes 2 0x5064 ++ beBytes 4 (ent e 4 4) ++ beBytes 4 (ent e 8 4) ++
    beBytes 4 (ent e 12 4) ++ beBytes 4 data.length ++ List.replicate 12 0
  h ++ leBytes 4 (crc32 h) ++ data

/-- A notification of message data: the header of 116 bytes with its FCS, and the payload. -/
def mnTelegram (comId n : Nat) (payload : List Byte) : List Byte :=
  let f (i k : Nat) : List Byte := (List.range k).map fun j => Config.wireByte n (i + j)
  let h := f 16 4 ++ beBytes 2 0x0100 ++ beBytes 2 0x4D6E ++ beBytes 4 comId ++ List.replicate 8 0 ++ beBytes 4 payload.length ++
    f 20 4 ++ f 24 16 ++ f 40 4 ++ f 44 32 ++ f 76 32
  h ++ leBytes 4 (crc32 h) ++ payload

/-- What a frame shows to the engine (R366, R373, R380): process data of type Pd, or a notification; whether IPv4 and UDP and
whether the TRDP header are right; and the fields. -/
structure Telegram where
  isPd : Bool
  ipOk : Bool
  headerOk : Bool
  comId : Nat
  dstIp : Nat
  srcIp : Nat
  etbTopo : Nat
  opTopo : Nat
  seqCount : Nat
  dataset : List Byte
  deriving DecidableEq, Repr

/-- A frame as a telegram; `none` where it is no IPv4 UDP datagram. A header of 40 bytes opens process data, one of 116 a
notification, with the FCS in their last 4 bytes (PRESUMED header places of IEC 61375-2-3, assumption 76). -/
def telegramOf (bs : List Byte) : Option Telegram :=
  match ipOf bs with
  | none => none
  | some ip =>
    let u := ip.off + ip.hdr
    let p := u + 8
    let isPd := beAt bs (u + 2) 2 == 17224 && beAt bs (u + 14) 2 == 0x5064
    let hl := if isPd then 40 else 116
    let n := beAt bs (p + 20) 4
    let sums := fold16 (sum16 ((bs.drop ip.off).take ip.hdr)) == 65535 &&
      (beAt bs (u + 6) 2 == 0 || fold16 (l4Sum bs ip) == 65535)
    if ip.proto ≠ 17 ∨ !ip.first then none
    else some {
      isPd, ipOk := ip.hdr == 20 && !ip.frag && sums
      headerOk := beAt bs (p + 4) 1 == 1 && leNat ((bs.drop (p + hl - 4)).take 4) == crc32 ((bs.drop p).take (hl - 4)) &&
        decide (n ≤ 1432) && n + hl + 8 == beAt bs (u + 4) 2
      comId := beAt bs (p + 8) 4, dstIp := beAt bs (ip.off + 16) 4, srcIp := beAt bs (ip.off + 12) 4
      etbTopo := beAt bs (p + 12) 4, opTopo := beAt bs (p + 16) 4, seqCount := beAt bs p 4
      dataset := (bs.drop (p + hl)).take n }

namespace State

/-- Change the data records of the buses. -/
def modBus (s : State) (f : BusSt → BusSt) : State := { s with bus := f s.bus }

/-- A data record. -/
def dataRec (s : State) (blk e : Nat) : DataRec := tget s.bus.recs (recKey blk e)

/-- Change a data record. -/
def modRec (s : State) (blk e : Nat) (f : DataRec → DataRec) : State :=
  s.modBus fun b => { b with recs := tmod b.recs (recKey blk e) f }

/-- The MAC of a host as the bytes of a frame. -/
def hostMac (s : State) (h : Nat) : List Byte := beBytes 6 (s.getF (Fld.ETH_MAC_MAC h))

/-- Whether the engine is active: the catalogue in use and the working area set (R383). -/
def trdpOn (s : State) : Bool := (s.cat .trdp).inUse && s.getF Fld.TRDP_WORKBASE_BASE != 0

/-! ### The checks of an entry (R369) -/

/-- The byte of the first invalid field of an entry by itself; entries with EN = 0 are not checked. -/
def trdpBad (s : State) (e : List Byte) : Option Nat :=
  let ctl := Machine.ent e 0 1
  let pub := trdpPub e
  let fr := s.entry16 (Reg.ETH_FRER (Machine.ent e 27 1 % 128))
  let db := Machine.ent e 48 8
  let checks : List (Nat × Bool) := [
    (0, decide (64 ≤ ctl)), (1, decide (12 < Machine.ent e 1 1)), (2, decide (2 ^ min 12 (Machine.ent e 1 1) ≤ Machine.ent e 2 2)),
    (4, Machine.ent e 4 4 == 0), (16, decide (1432 < Machine.ent e 16 2)),
    (20, pub && decide (Machine.ent e 20 4 < 20000 ∨ 240000 < Machine.ent e 20 4)), (24, !pub && Machine.ent e 24 2 == 0),
    (26, pub && Machine.ent e 26 1 == 0),
    (27, pub && ctl.testBit 4 && (decide (128 ≤ Machine.ent e 27 1) || Machine.ent fr 1 1 != Machine.ent e 26 1)),
    (42, Machine.ent e 42 6 != 0),
    (48, trdpHost e == 0 && (decide (0x10000000000 ≤ db) || db % 64 != 0 || (pub && decide (0x400000000 < db + 1536)))),
    (56, Machine.ent e 56 8 != 0), (80, Machine.ent e 80 48 != 0)]
  if ctl.testBit 0 then (checks.find? fun x => x.2).map fun x => x.1 else none

/-- Whether two entries are subscriptions of one host with the same ComId and address. -/
def sameSub (a b : List Byte) : Bool :=
  !trdpPub a && !trdpPub b && trdpHost a == trdpHost b && Machine.ent a 4 4 == Machine.ent b 4 4 && Machine.ent a 28 4 == Machine.ent b 28 4

/-- The byte of the first invalid field of working entry `i`: its own, or ComId where an enabled subscription with a lower
index has the same ComId and address (R369). -/
def trdpErr (s : State) (i : Nat) : Option Nat :=
  let e := s.catEntry .trdp i
  match s.trdpBad e with
  | some k => if 4 < k ∧ (List.range i).any (fun j => (Machine.ent (s.catEntry .trdp j) 0 1).testBit 0 &&
        (s.trdpBad (s.catEntry .trdp j)).isNone && sameSub (s.catEntry .trdp j) e) then some 4 else some k
  | none =>
    if (Machine.ent e 0 1).testBit 0 ∧ (List.range i).any (fun j => (Machine.ent (s.catEntry .trdp j) 0 1).testBit 0 &&
        (s.trdpBad (s.catEntry .trdp j)).isNone && sameSub (s.catEntry .trdp j) e) then some 4 else none

/-- Whether entry `i` is in use. -/
def trdpUse (s : State) (i : Nat) : Bool := s.bit (Fld.TRDP_ENTSTAT_ACTIVE i)

/-! ### Data records (R370, R374) -/

/-- Bytes 0 to 19 of a record as the engine holds it. -/
def recHead (r : DataRec) : List Byte :=
  leBytes 1 (b2n r.valid + 2 * b2n r.timeout + 4 * b2n r.fresh) ++ leBytes 1 (min r.count 255) ++ leBytes 2 r.rlen ++
    leBytes 4 (r.seq.getD 0) ++ leBytes 8 r.rxmt ++ leBytes 4 (min r.age 4294967295)

/-- The record of a HOST = 1 entry as input maps see it. -/
def trdpRecord (s : State) (i : Nat) : List Byte :=
  let r := s.dataRec 0x0B i
  recHead r ++ leBytes 4 0 ++ slice r.data 0 (trdpDlen (s.catEntry .trdp i))

/-- The engine writes into its working area (R367, R370), where it lies in DDR. -/
def workPut (s : State) (ofs : Nat) (bs : List Byte) : State :=
  let w := s.getF Fld.TRDP_WORKBASE_BASE * 0x800000
  if w = 0 ∨ 0x400000000 < w + 0x800000 then s else s.memWrite (w + ofs % 0x7FF800) bs

/-- The record of an entry is written: of HOST = 1 in the working area, of a HOST = 0 subscription at DATABASE, with a new even
generation (R370, R372, R374). -/
def trdpStore (s : State) (i : Nat) : State :=
  let e := s.catEntry .trdp i
  if trdpHost e = 1 then
    let r := s.dataRec 0x0B i
    s.workPut (Config.trdpRecOfs i) (recHead r ++ leBytes 4 0 ++ slice (if trdpPub e then r.sent else r.data) 0 (trdpDlen e))
  else if trdpPub e = true then s
  else
    let r := s.dataRec 0x0B i
    s.devWrite .d (trdpBase e) (recHead r ++ leBytes 4 (nextGen (s.memNat (trdpBase e + 20) 4)) ++ slice r.data 0 (trdpDlen e))

/-- Show VALID and TIMEOUT of an entry. -/
def trdpShow (s : State) (i : Nat) : State :=
  let r := s.dataRec 0x0B i
  (s.setB (Fld.TRDP_ENTSTAT_VALID i) r.valid).setB (Fld.TRDP_ENTSTAT_TIMEOUT i) r.timeout

/-! ### The edge (R369, R375, R376) -/

/-- Whether a changed entry keeps its record: COMID, DIR and HOST stay (R376). -/
def trdpKeeps (old new : List Byte) : Bool :=
  (Machine.ent old 0 1).testBit 0 && (Machine.ent new 0 1).testBit 0 && Machine.ent old 0 1 / 2 % 4 == Machine.ent new 0 1 / 2 % 4 &&
    Machine.ent old 4 4 == Machine.ent new 4 4

/-- A working entry after a change of the catalogue: checked, and started afresh where R376 says so. -/
def trdpTake (s : State) (i : Nat) (change : Option CatChange) : State :=
  let e := s.catEntry .trdp i
  let err := s.trdpErr i
  let use := s.trdpOn && (Machine.ent e 0 1).testBit 0 && err.isNone
  let was := s.trdpUse i
  let keeps := match change with
    | some c => was && !c.fresh && trdpKeeps c.old e
    | none => was
  let news := err.isSome && (change.isSome || !s.bit (Fld.TRDP_ENTSTAT_CFGERR i))
  let s := (s.setB (Fld.TRDP_ENTSTAT_CFGERR i) err.isSome).setB (Fld.TRDP_ENTSTAT_ACTIVE i) use
  let s := if news then s.trdpEvent 0x0A03 3 (p4 [i, err.getD 0]) else s
  let s := if change.isSome then s.workPut (Config.trdpCopyOfs i) (slice e 0 128) else s
  if use && keeps then s
  else
    let s := s.modRec 0x0B i fun _ => if use then { actSeq := s.time.beatSeq } else {}
    let s : State := { s with rts := { s.rts with outs := tset s.rts.outs (outKey 0x0B i) [] } }
    let s := s.trdpShow i
    if use then s.trdpStore i else s

/-- Supervision of a subscription at an edge (R375). -/
def trdpSupervise (s : State) (i : Nat) : State :=
  let e := s.catEntry .trdp i
  if !s.trdpUse i ∨ trdpPub e = true then s
  else
    let r := s.dataRec 0x0B i
    let age := match r.lastSeq with
      | some n => s.time.beatSeq - n - 1
      | none => s.time.beatSeq - r.actSeq
    let out := decide (Machine.ent e 24 2 ≤ age)
    let rise := out && !r.timeout
    let s := s.modRec 0x0B i fun r => { r with
      fresh := r.hits != 0, count := min r.hits 255, hits := 0, age := age, timeout := out
      valid := !out && r.lastSeq.isSome, data := if rise && (Machine.ent e 0 1).testBit 3 then [] else r.data }
    let s := if rise then
        (s.inc64 (Reg.TRDP_TIMEOUTS (trdpHost e))).trdpEvent 0x0A01 3 (p4 [i, Machine.ent e 4 4])
      else if r.timeout && !out then s.trdpEvent 0x0A02 1 (p4 [i, Machine.ent e 4 4])
      else s
    (s.trdpShow i).trdpStore i

/-- The engine at a beat edge, before the snapshot: what the catalogue changed, custody as the engine sees it, and the
supervision. -/
def trdpEdge (s : State) (changes : List CatChange) : State :=
  let same := s.bit Fld.TRDP_STATUS_ACTIVE == s.trdpOn
  let s := (s.setB Fld.TRDP_STATUS_CUST s.custodyOn).setB Fld.TRDP_STATUS_ACTIVE s.trdpOn
  let n := (s.cat .trdp).count
  let s := if changes.isEmpty && same then s
    else
      let top := changes.foldl (fun m c => max m (c.idx + 1)) n
      (List.range top).foldl (fun s i => s.trdpTake i (changes.find? fun c => c.idx == i)) s
  (List.range n).foldl (fun s i => s.trdpSupervise i) s

/-! ### Publication (R371, R372) -/

/-- The dataset of a due publication: for HOST = 1 the committed copy, for HOST = 0 the record at DATABASE, or that of the
previous due instant after a torn read (R371, R372). -/
def trdpDataset (s : State) (i : Nat) (torn : List Nat) : State × List Byte :=
  let e := s.catEntry .trdp i
  let n := trdpDlen e
  if trdpHost e = 1 then (s, slice (tget s.rts.outs (outKey 0x0B i)) 24 n)
  else
    let a := trdpBase e
    let s := s.readLeaves (s.rangeCheck .d false a (24 + n)) .d a (24 + n)
    if torn.contains i ∨ s.memNat (a + 20) 4 % 2 = 1 ∨ s.rangeCheck .d false a (24 + n) ≠ 0 then
      (s.inc64 (Reg.TRDP_PUBTORN 0), slice (s.dataRec 0x0B i).sent 0 n)
    else (s, s.memRead (a + 24) n)

/-- One copy of a publication goes to a port's queue, to be launched at E(m) + LOFS (R360, R371). -/
def trdpCopy (s : State) (i p : Nat) (bs : List Byte) : State :=
  let e := s.catEntry .trdp i
  let h := trdpHost e
  let f : EthQ := { bytes := padFrame bs, since := s.time.clock, launch := some (s.time.mt + Machine.ent e 20 4), tol := s.rd Reg.TRDP_LTTOL
                    tsTag := none, origin := .trdp h i, rx := noMeta (8 + h) (s.ethStamp (8 + h)) }
  let s := ((s.inc64 (Reg.ETH_RXFRAMES (8 + h))).inc64 (Reg.ETH_RXDELIV (8 + h))).lpeFeed 1 (8 + h) (padFrame bs)
  ((s.inc64 (Reg.TRDP_PUBOFFERED h)).ethOffer p (Machine.ent e 18 2 / 8192) f).1

/-- A publication at an edge at which it is due (R371). -/
def trdpPublishOne (s : State) (i : Nat) (torn : List Nat) : State :=
  let e := s.catEntry .trdp i
  let h := trdpHost e
  let ports := bitsOf 8 (Machine.ent e 26 1)
  let s := (s.modRec 0x0B i fun r => { r with relSeq := some s.time.beatSeq }).add64 (Reg.TRDP_PUBDUE h) ports.length
  if !s.bit Fld.TRDP_STATUS_CUST || !s.serves then s.add64 (Reg.TRDP_PUBNOCUST h) ports.length
  else
    let x := s.trdpDataset i torn
    let seq := (x.1.dataRec 0x0B i).pubSeq
    let s := x.1.modRec 0x0B i fun r => { r with sent := x.2, seq := some seq, pubSeq := (seq + 1) % 4294967296 }
    let s := if h = 0 then s.devWrite .d (trdpBase e + 4) (leBytes 4 seq) else s.trdpStore i
    let bs := udpFrame ((e.drop 36).take 6) (s.hostMac h) (Machine.ent e 18 2) (s.rd (Reg.TRDP_HOSTIP h)) (beAt e 28 4) 17224 s.freeCtr
      (pdTelegram seq e x.2)
    let s := s.freshCtr
    let s : State × List Byte :=
      if (Machine.ent e 0 1).testBit 4 then
        let k := Machine.ent e 27 1
        let n := tget s.eth.frerSeq k
        (s.modEth fun t => { t with frerSeq := tset t.frerSeq k ((n + 1) % 65536) }, putRtag bs n)
      else (s, bs)
    ports.foldl (fun t p => t.trdpCopy i p s.2) s.1

/-- Whether entry `i` is a publication that is due at this edge under the release rule of R181 (R371). -/
def trdpDue (s : State) (i : Nat) : Bool :=
  let e := s.catEntry .trdp i
  let per := 2 ^ Machine.ent e 1 1
  s.trdpUse i && trdpPub e && s.time.beat % per == Machine.ent e 2 2 &&
    (match (s.dataRec 0x0B i).relSeq with
     | some r => decide (r + per ≤ s.time.beatSeq)
     | none => true)

/-- The publications of an edge, after the committed copies are latched; ETH and TRDP under test send nothing (R517). -/
def trdpPublish (s : State) (torn : List Nat) : State :=
  if s.unitOff 0x0B 0 then s
  else (List.range (s.cat .trdp).count).foldl (fun s i => if s.trdpDue i then s.trdpPublishOne i torn else s) s

/-! ### Reception (R373, R374) -/

/-- The enabled subscription of a host with a ComId and destination address. -/
def trdpFind (s : State) (h comId dst : Nat) : Option Nat :=
  (List.range (s.cat .trdp).count).find? fun i =>
    let e := s.catEntry .trdp i
    s.trdpUse i && !trdpPub e && trdpHost e == h && Machine.ent e 4 4 == comId && beAt e 28 4 == dst

/-- The announcement that a payload spells (R80). -/
def announceOf (bs : List Byte) : Announce :=
  { version := beAt bs 0 1, snapId := beAt bs 4 4, instant := beAt bs 8 8, origin := beAt bs 16 4 }

/-- A telegram is dropped under one reason. -/
def telDrop (s : State) (h r : Nat) : State := s.inc64 (Reg.TRDP_RXDROP h r)

/-- A waiting frame is processed: delivered, passed to the Inventory function, or dropped under the first reason that applies
(R373, R374, R380). -/
def telegram (s : State) (h : Nat) (f : EthQ) : State :=
  match telegramOf f.bytes with
  | none => s.telDrop h 1
  | some t =>
    if h = 1 ∧ !t.isPd then s.telDrop h 1
    else if !t.ipOk then s.telDrop h 2
    else if !t.headerOk then s.telDrop h 3
    else if !t.isPd then (s.inc64 (Reg.TRDP_INVRX 0)).announce (announceOf t.dataset)
    else match s.trdpFind h t.comId t.dstIp with
      | none => s.telDrop h 4
      | some i =>
        let e := s.catEntry .trdp i
        if (Machine.ent e 8 4 ≠ 0 ∧ Machine.ent e 8 4 ≠ t.etbTopo) ∨
          (Machine.ent e 12 4 ≠ 0 ∧ Machine.ent e 12 4 ≠ t.opTopo) then s.telDrop h 5
        else if (Machine.ent e 0 1).testBit 5 ∧ beAt e 32 4 ≠ t.srcIp then s.telDrop h 6
        else if t.dataset.length ≠ trdpDlen e then s.telDrop h 7
        else if (s.dataRec 0x0B i).seq = some t.seqCount then s.telDrop h 8
        else
          let s := (s.inc64 (Reg.TRDP_DELIV h)).modRec 0x0B i fun r => { r with
            data := t.dataset, rlen := t.dataset.length, seq := some t.seqCount, rxmt := f.rx.ts, hits := r.hits + 1
            lastSeq := some s.time.beatSeq }
          s.trdpStore i

/-- The engine processes the frame of a host that has waited longest. -/
def engineNext (s : State) (h : Nat) : State :=
  match tget s.eth.engine h with
  | [] => s
  | f :: rest => (s.modEth fun e => { e with engine := tset e.engine h rest }).telegram h f

/-- The engine processes all that waits. -/
def engineDrain (s : State) : State :=
  [0, 1].foldl (fun s h => (tget s.eth.engine h).foldl (fun s _ => s.engineNext h) s) s

/-- The notification of an announcement leaves as host 0 from port 8 through the switch (R80, R81, R379, R380). -/
def sendAnnounce (s : State) (a : Announce) : State :=
  let g := s.rd Reg.TRDP_INVGRP
  if g = 0 then s
  else
    let pay := [1, 0, 0, 0] ++ beBytes 4 a.snapId ++ beBytes 8 a.instant ++ beBytes 4 a.origin ++ [0, 0, 0, 0]
    let cfg := s.rd Reg.TRDP_INVCFG
    let bs := padFrame (udpFrame ([0x01, 0x00, 0x5E] ++ beBytes 3 (g % 8388608)) (s.hostMac 0) (cfg % 65536) (s.rd (Reg.TRDP_HOSTIP 0)) g
      17225 s.freeCtr (mnTelegram (s.rd Reg.INV_COMID) s.freeCtr pay))
    ((((s.freshCtr).inc64 (Reg.ETH_RXFRAMES 8)).lpeFeed 1 8 bs).switchFrame 8 0 bs none).1

end State

/-! ### The commands -/

/-- TRDP_TELEGRAM_RX (R366, R373, R374, R380): the engine processes the frame of a host that has waited longest, which `frame`
names. -/
def execTrdpTelegramRx (dt : Nat) (host : Fin 2) (frame : List Byte) (s : State) : Host.Outcome State Fault Refusal :=
  let s := s.elapse dt
  let first := (tget s.eth.engine host.val).head?.map fun f => f.bytes
  .next (if s.unitOff 0x0B 0 ∨ first ≠ some frame then s else s.engineNext host.val)

/-- A write of INV_ANN_GO (R81, R379, R380). -/
def State.annGo (s : State) (go : Bool) : State :=
  if go then
    let a := s.localAnnounce
    let s' := s.announce a
    if s.annCheck a = .accept ∧ !s.unitOff 0x18 0 then s'.sendAnnounce a else s'
  else s

/-- INV_ANN_GO (R81, R379, R380). -/
def execInvAnnGo (dt : Nat) (req : Requester) (go : Bool) (s : State) : Host.Outcome State Fault Refusal :=
  .next ((s.elapse dt).regCmd req Reg.INV_ANN_GO fun s => s.annGo go)

end Sys2Proof.Machine
end

