-- ==== Sys2Proof/Machine/Serial.lean ====
section
/-! DEFINITION. MVB, CAN FD and RS-485 (R384 to R398): catalogue entries and their data records, line redundancy, reception,
transmission, rings and controller states. -/

namespace Sys2Proof.Machine

/-- The block's catalogue, rings and index. -/
def serCat : SerBlk → CatBlk
  | .mvb => .mvb
  | .can => .can
  | .ser => .ser
def serRing : SerBlk → RingBlk
  | .mvb => .mvb
  | .can => .can
  | .ser => .ser
def serIdx (b : SerBlk) : Nat := catIndex (serCat b)

/-- The serial blocks. -/
def serBlks : List SerBlk := [.mvb, .can, .ser]

/-- The serial block of a ring block. -/
def serOfRing : RingBlk → Option SerBlk
  | .mvb => some .mvb
  | .can => some .can
  | .ser => some .ser
  | _ => none

/-- The counters of a unit (R397). -/
def serCnt (b : SerBlk) (u ofs : Nat) : Nat := serIdx b * 0x10000 + u * 0x100 + ofs
def serRxFrames (b : SerBlk) (u : Nat) : Nat := serCnt b u 0x100
def serDeliv (b : SerBlk) (u : Nat) : Nat := serCnt b u 0x108
def serRxDrop (b : SerBlk) (u r : Nat) : Nat := serCnt b u (0x108 + 8 * r)
def serOffered (b : SerBlk) (u : Nat) : Nat := serCnt b u 0x140
def serSent (b : SerBlk) (u : Nat) : Nat := serCnt b u 0x148
def serTxDrop (b : SerBlk) (u r : Nat) : Nat := serCnt b u (0x148 + 8 * r)
def serNoCust (b : SerBlk) (u : Nat) : Nat := serCnt b u 0x160
def serTimeouts (b : SerBlk) (u : Nat) : Nat := serCnt b u 0x168

/-- ENTSTAT of an entry, as a bit of it. -/
def serStat (b : SerBlk) (e k : Nat) : Field := ⟨serIdx b * 0x10000 + 0x2000 + 4 * e, k, 1⟩

/-- The codes of <BLK>_CFG_INVALID and <BLK>_RX_TIMEOUT (R396). -/
def serCfgCode : SerBlk → Nat
  | .mvb => 0x0B04
  | .can => 0x0C04
  | .ser => 0x0D03
def serTimeoutCode : SerBlk → Nat
  | .mvb => 0x0B03
  | .can => 0x0C03
  | .ser => 0x0D01

/-- Fields of an entry (R386). -/
def serTx (e : List Byte) : Bool := (ent e 0 1).testBit 1
def serUnit (e : List Byte) : Nat := ent e 1 1
def serDlen (e : List Byte) : Nat := ent e 6 2

/-- CAN frame lengths (R386). -/
def canLenOk (fdf : Bool) (n : Nat) : Bool := decide (n ≤ 8) || (fdf && [12, 16, 20, 24, 32, 48, 64].contains n)

/-- Whether DLEN is in range. -/
def serLenOk (b : SerBlk) (e : List Byte) : Bool :=
  match b with
  | .mvb => [2, 4, 8, 16, 32].contains (serDlen e)
  | .can => canLenOk ((ent e 8 4).testBit 30) (serDlen e)
  | .ser => decide (1 ≤ serDlen e ∧ serDlen e ≤ 64)

/-- The identifier of CAN that is compared: with IDE 29 bits, else 11. -/
def canKey (id : Nat) : Nat := if id.testBit 29 then 0x20000000 + id % 0x20000000 else id % 2048

/-- What a receive entry matches (R387): on one unit, the port address, ID with IDE, or MATCH with MASK. -/
def serMatch (b : SerBlk) (e : List Byte) : Nat × Nat :=
  (serUnit e, match b with
    | .mvb => ent e 8 4 % 4096
    | .can => canKey (ent e 8 4)
    | .ser => ent e 8 2)

/-- What each catalogue says of a block's ring frame: its number of bytes. -/
def serRingLenOk (b : SerBlk) (d : List Byte) : Bool :=
  match b with
  | .mvb => ent d 8 2 == 32
  | .can => canLenOk ((ent d 10 1).testBit 1) (ent d 8 2)
  | .ser => decide (1 ≤ ent d 8 2 ∧ ent d 8 2 ≤ 4096)

/-- The flags of CAN from an identifier word: IDE, FDF, BRS (R392). -/
def canFlags (id : Nat) : Nat := id / 2 ^ 29 % 8

namespace State

/-- An event of a serial block (R396). -/
def serEvent (s : State) (b : SerBlk) (code sev : Nat) (payload : List Byte) : State :=
  let k := s.rd (serIdx b * 0x10000 + 4) % 64
  s.emit (serIdx b) code sev (if 55 < k then 0 else k) payload

/-- Whether a controller is enabled: EN, and for MVB a line enabled. -/
def serOn (s : State) (b : SerBlk) (u : Nat) : Bool :=
  match b with
  | .mvb => u == 0 && (s.bit Fld.MVB_CFG_LINEEN_A || s.bit Fld.MVB_CFG_LINEEN_B)
  | .can => decide (u < 4) && s.bit (Fld.CAN_CTL_EN u)
  | .ser => decide (u < 4) && s.bit (Fld.SER_CFG_EN u)

/-- Whether a CAN controller is bus-off. -/
def busOff (s : State) (b : SerBlk) (u : Nat) : Bool := b == .can && s.getF (Fld.CAN_ERR_STATE u) == 2

/-- Whether a controller takes part in its bus: enabled, not bus-off, its block not under test (R517). -/
def serLive (s : State) (b : SerBlk) (u : Nat) : Bool := s.serOn b u && !s.busOff b u && !s.unitOff (serIdx b) 0

/-! ### Entries (R386, R387) -/

/-- Whether an entry by itself keeps R386 and R387. -/
def serGood (s : State) (b : SerBlk) (e : List Byte) : Bool :=
  let tx := serTx e
  decide (Machine.ent e 0 1 < 16) && s.serOn b (serUnit e) && Machine.ent e 3 1 == 0 && serLenOk b e && Machine.ent e 14 2 == 0 &&
  Machine.ent e 20 12 == 0 && Machine.ent e 48 16 == 0 &&
  (if tx then decide (Machine.ent e 2 1 ≤ 12 ∧ Machine.ent e 4 2 < 2 ^ Machine.ent e 2 1) &&
      (b == .mvb || decide (Machine.ent e 16 4 ≤ 240000))
   else Machine.ent e 12 2 != 0)

/-- Whether working entry `i` breaks R386 or R387; entries with EN = 0 are not checked. -/
def serErr (s : State) (b : SerBlk) (i : Nat) : Bool :=
  let e := s.catEntry (serCat b) i
  (Machine.ent e 0 1).testBit 0 && (!s.serGood b e || (!serTx e && (List.range i).any fun j =>
    let o := s.catEntry (serCat b) j
    (Machine.ent o 0 1).testBit 0 && s.serGood b o && !serTx o && serMatch b o == serMatch b e))

/-- Whether entry `i` is in use. -/
def serUse (s : State) (b : SerBlk) (i : Nat) : Bool := s.bit (serStat b i 0)

/-- The record of an entry as input maps see it (R388). -/
def serRecord (s : State) (b : SerBlk) (i : Nat) : List Byte :=
  let r := s.dataRec (serIdx b) i
  leBytes 1 (b2n r.valid + 2 * b2n r.timeout + 4 * b2n r.fresh) ++ leBytes 1 (min r.count 255) ++ leBytes 2 r.rlen ++
    leBytes 4 (min r.age 4294967295) ++ leBytes 8 r.rxmt ++ slice r.data 0 (serDlen (s.catEntry (serCat b) i))

/-- Show VALID and TIMEOUT. -/
def serShow (s : State) (b : SerBlk) (i : Nat) : State :=
  let r := s.dataRec (serIdx b) i
  (s.setB (serStat b i 3) r.valid).setB (serStat b i 2) r.timeout

/-- A working entry after a change of the catalogue: checked, and restarted unless DIR, UNIT and ID stay (R387). -/
def serTake (s : State) (b : SerBlk) (i : Nat) (change : Option CatChange) : State :=
  let e := s.catEntry (serCat b) i
  let err := s.serErr b i
  let use := (s.cat (serCat b)).inUse && (Machine.ent e 0 1).testBit 0 && !err
  let was := s.serUse b i
  let keeps := match change with
    | some c => was && !c.fresh && serTx c.old == serTx e && serUnit c.old == serUnit e && Machine.ent c.old 8 4 == Machine.ent e 8 4
    | none => was
  let news := err && (change.isSome || !s.bit (serStat b i 1))
  let s := (s.setB (serStat b i 1) err).setB (serStat b i 0) use
  let s := if news then s.serEvent b (serCfgCode b) 3 (p4 [i]) else s
  if use && keeps then s
  else (s.modRec (serIdx b) i fun _ => if use then { actSeq := s.time.beatSeq } else {}).serShow b i

/-- Supervision of a receive entry at an edge (R389). -/
def serSupervise (s : State) (b : SerBlk) (i : Nat) : State :=
  let e := s.catEntry (serCat b) i
  if !s.serUse b i ∨ serTx e = true then s
  else
    let r := s.dataRec (serIdx b) i
    let age := match r.lastSeq with
      | some n => s.time.beatSeq - n - 1
      | none => s.time.beatSeq - r.actSeq
    let out := decide (Machine.ent e 12 2 ≤ age)
    let rise := out && !r.timeout
    let s := s.modRec (serIdx b) i fun r => { r with
      fresh := r.hits != 0, count := min r.hits 255, hits := 0, age := age, timeout := out
      valid := !out && r.lastSeq.isSome, data := if rise && (Machine.ent e 0 1).testBit 2 then [] else r.data }
    let s := if rise then (s.inc64 (serTimeouts b (serUnit e))).serEvent b (serTimeoutCode b) 3 (p4 [i]) else s
    s.serShow b i

/-- The enabled controllers of a block as a mask. -/
def serOnMask (s : State) (b : SerBlk) : Nat := (List.range 4).foldl (fun m u => m + b2n (s.serOn b u) * 2 ^ u) 0

/-- A block at a beat edge, before the snapshot: entries that changed are taken, and all where a controller was enabled or
disabled (R387). -/
def serEdge (s : State) (b : SerBlk) (changes : List CatChange) : State :=
  let n := (s.cat (serCat b)).count
  let mask := s.serOnMask b
  let same := tget s.bus.seenOn (serIdx b) == mask
  let s := if same then s else s.modBus fun t => { t with seenOn := tset t.seenOn (serIdx b) mask }
  let s := if changes.isEmpty && same then s
    else
      let top := changes.foldl (fun m c => max m (c.idx + 1)) n
      (List.range top).foldl (fun s i => s.serTake b i (changes.find? fun c => c.idx == i)) s
  (List.range n).foldl (fun s i => s.serSupervise b i) s

/-! ### Transmission (R390, R392, R393) -/

/-- A queued frame ends without being sent, under one reason; a ring frame's descriptor completes with DROPPED. -/
def serGone (s : State) (b : SerBlk) (x : SerTx) (reason : Nat) : State :=
  let s := s.inc64 (serTxDrop b x.unit reason)
  if x.entry.isNone then s.endTx (serRing b) (2 * x.unit) x.desc 0x20 0 else s

/-- Drop the queued frames of a block that a test names. -/
def serDropAll (s : State) (b : SerBlk) (reason : Nat) (gone : SerTx → Bool) : State :=
  let mine (x : SerTx) : Bool := x.blk == serIdx b && gone x
  let out := s.bus.queue.filter mine
  let s := s.modBus fun t => { t with queue := t.queue.filter fun x => !mine x }
  out.foldl (fun s x => s.serGone b x reason) s

/-- A controller that is disabled or bus-off loses its queued frames (R393). -/
def serFlush (s : State) (b : SerBlk) (u : Nat) : State := s.serDropAll b 2 fun x => x.unit == u

/-- A frame is offered and queued. -/
def serOffer (s : State) (b : SerBlk) (x : SerTx) : State :=
  (s.inc64 (serOffered b x.unit)).modBus fun t => { t with queue := t.queue ++ [x] }

/-- A transmit entry at its due edge (R390). -/
def serDueOne (s : State) (b : SerBlk) (i : Nat) : State :=
  let e := s.catEntry (serCat b) i
  let u := serUnit e
  let cust := (Machine.ent e 0 1).testBit 3
  let data := slice (tget s.rts.outs (outKey (serIdx b) i)) 16 (serDlen e)
  let s := s.modRec (serIdx b) i fun r => { r with relSeq := some s.time.beatSeq, sent := data }
  if b = .mvb then s
  else
    let s := if b = .can then s.serDropAll .can 1 fun x => x.entry == some i else s
    if cust && !s.serves then s.inc64 (serNoCust b u)
    else s.serOffer b { blk := serIdx b, unit := u, entry := some i, desc := 0, data := data, ident := Machine.ent e 8 4
                        launch := s.time.mt + Machine.ent e 16 4, cust := cust, started := false }

/-- The transmit entries of a block that are due at an edge, after the committed copies are latched (R181, R390). -/
def serDue (s : State) (b : SerBlk) : State :=
  if s.unitOff (serIdx b) 0 then s
  else (List.range (s.cat (serCat b)).count).foldl (fun s i =>
    let e := s.catEntry (serCat b) i
    let per := 2 ^ Machine.ent e 2 1
    let ready := match (s.dataRec (serIdx b) i).relSeq with
      | some r => decide (r + per ≤ s.time.beatSeq)
      | none => true
    if s.serUse b i && serTx e && s.time.beat % per == Machine.ent e 4 2 && ready then s.serDueOne b i else s) s

/-- Whether a frame of a controller is on its wire. -/
def serBusy (s : State) (b : SerBlk) (u : Nat) : Bool :=
  s.bus.queue.any fun x => x.blk == serIdx b && x.unit == u && x.started

/-- Whether a controller may send: live, and for CAN not in listen-only mode. -/
def serMay (s : State) (b : SerBlk) (u : Nat) : Bool := s.serLive b u && !(b == .can && s.bit (Fld.CAN_CTL_LISTEN u))

/-- GAP bit times of a SER port in ns: 160 MHz divided by DIV with 4 fractional bits; values below the least count as it (R395,
R398). -/
def serGapNs (s : State) (u : Nat) : Nat :=
  (max 2 (s.getF (Fld.SER_CFG_GAP u)) * max 256 (s.getF (Fld.SER_BAUD_DIV u)) * 25 + 63) / 64

/-- One bit time of a SER port in ns (R395). -/
def serBitNs (s : State) (u : Nat) : Nat := (max 256 (s.getF (Fld.SER_BAUD_DIV u)) * 25 + 63) / 64

/-- The line of a SER port is idle from a clock on. -/
def serIdle (s : State) (u at_ : Nat) : State := s.modBus fun t => { t with idleFrom := tset t.idleFrom u at_ }

/-- Whether the line lets a frame start: a SER line has been idle for GAP bit times (R390). -/
def serQuiet (s : State) (b : SerBlk) (u : Nat) : Bool :=
  b != .ser || decide (tget s.bus.idleFrom u + s.serGapNs u ≤ s.time.clock)

/-- Whether an identifier's frame may be sent: FD frames only while CAN_CTL.FD enables them (R398). -/
def canFdOk (s : State) (b : SerBlk) (u ident : Nat) : Bool := b != .can || !ident.testBit 30 || s.bit (Fld.CAN_CTL_FD u)

/-- The posted descriptors of a serial transmit ring are taken and their frames queued (R40, R392). An FD frame while FD is off is
refused (DESIGN CHOICE, assumption 133). -/
def serTakeRing (s : State) (b : SerBlk) (u : Nat) : Nat → State
  | 0 => s
  | n + 1 =>
    let q := 2 * u
    let rb := serRing b
    if !s.ringOn rb q ∨ s.ringWaiting rb q = 0 then s
    else
      let d := s.headDesc rb q
      let hd := s.headRead rb q
      let desc := (s.ring rb q).head
      let s := (s.headLeaves rb q).takePend rb q
      let ident := Machine.ent d 12 4 % 0x20000000 + Machine.ent d 10 1 % 8 * 0x20000000
      let bad := Machine.ent d 5 3 != 0 || Machine.ent d 11 1 != 0 || !s.canFdOk b u ident ||
        (if b = .can then decide (8 ≤ Machine.ent d 10 1) else Machine.ent d 10 1 != 0 || Machine.ent d 12 4 != 0)
      let buf := Machine.ent d 0 5
      let len := Machine.ent d 8 2
      let st := if bad then 0x31 else if !serRingLenOk b d then 0x13 else s.readStatus .ok .d buf len
      let frame (data : List Byte) : SerTx :=
        { blk := serIdx b, unit := u, entry := none, desc, data, ident, launch := s.time.mt, cust := false, started := false }
      let s :=
        if hd ≠ 0 then s.endTx rb q desc hd 0
        else if !s.serOn b u || s.busOff b u then (s.inc64 (serOffered b u)).serGone b (frame []) 2
        else if st ≠ 0 then (s.readLeaves st .d buf len).endTx rb q desc st 0
        else (s.devTook (serIdx b) buf len).serOffer b (frame (s.devBytes buf len))
      serTakeRing s b u n

/-- A producer doorbell that acts, with what the serial blocks do at once: a transmit ring's descriptors are taken. -/
def producer (s : State) (b : RingBlk) (q tail : Nat) : State :=
  let s := s.ringDoorbell b q tail
  match serOfRing b with
  | some x => if q % 2 = 0 ∧ q < ringCount b then s.serTakeRing x (q / 2) (s.ringWaiting b q) else s
  | none => s

/-- The frame of a controller that is on its wire. -/
def serNext (s : State) (b : SerBlk) (u : Nat) : Option SerTx :=
  s.bus.queue.find? fun x => x.blk == serIdx b && x.unit == u && x.started

/-- The queued frame that a launch names and whose time has come. -/
def serLaunch (s : State) (b : SerBlk) (who : SerWho) : Option SerTx :=
  s.bus.queue.find? fun x => x.blk == serIdx b && decide (x.launch ≤ s.time.mt) && (match who with
    | .entry e => x.entry == some e
    | .ring u => x.entry.isNone && x.unit == u.val)

/-! ### CAN error states (R394; PRESUMED: ISO 11898-1) -/

/-- Show error counters and enter the state they give. -/
def canState (s : State) (u tec rec : Nat) : State :=
  let was := s.getF (Fld.CAN_ERR_STATE u)
  let st := if 255 < tec then 2 else if 128 ≤ tec ∨ 128 ≤ rec then 1 else 0
  let s := (s.setF (Fld.CAN_ERR_TEC u) (min tec 255)).setF (Fld.CAN_ERR_REC u) (min rec 255)
  let s := s.setF (Fld.CAN_ERR_STATE u) st
  if st = 2 ∧ was ≠ 2 then ((s.inc64 (Reg.CAN_BUSOFF u)).serEvent .can 0x0C01 4 (p4 [u])).serFlush .can u
  else if st = 1 ∧ was = 0 then s.serEvent .can 0x0C02 3 (p4 [u, min tec 255, min rec 255])
  else s

/-- What an error adds to the counters: 8 to that of the transmitter and 1 to that of a receiver, and 8 for each further cause, a
dominant bit after the flag, a bit error in the flag or 8 more dominant bits. -/
def canErr (s : State) (u : Nat) (role : CanErr) (more : Nat) : State :=
  let tec := s.getF (Fld.CAN_ERR_TEC u)
  let recv := s.getF (Fld.CAN_ERR_REC u)
  match role with
  | .transmitter => s.canState u (tec + 8 + 8 * more) recv
  | .exempt => s.canState u (tec + 8 * more) recv
  | .receiver => s.canState u tec (recv + 1 + 8 * more)

/-- A frame sent without error counts the transmit error counter down. -/
def canSentOk (s : State) (u : Nat) : State := s.canState u (s.getF (Fld.CAN_ERR_TEC u) - 1) (s.getF (Fld.CAN_ERR_REC u))

/-- A frame received without error counts the receive error counter down. -/
def canHeardOk (s : State) (u : Nat) : State :=
  let r := s.getF (Fld.CAN_ERR_REC u)
  let r' := if 127 < r then 119 + Config.canRec s.freeCtr % 9 else r - 1
  s.freshCtr.canState u (s.getF (Fld.CAN_ERR_TEC u)) r'

/-! ### Reception (R391, R392) -/

/-- The enabled receive entry that a frame matches. -/
def serFind (s : State) (b : SerBlk) (hit : List Byte → Bool) : Option Nat :=
  (List.range (s.cat (serCat b)).count).find? fun i =>
    let e := s.catEntry (serCat b) i
    s.serUse b i && !serTx e && hit e

/-- A frame that ended at module time `at_` goes to the unit's receive ring: the first descriptor with a BUFLEN in range takes it
(R391, R392). -/
def serToRing (s : State) (b : SerBlk) (u ident at_ : Nat) (data : List Byte) : Nat → State
  | 0 => s.inc64 (serRxDrop b u 4)
  | n + 1 =>
    let q := 2 * u + 1
    let rb := serRing b
    if s.ringWaiting rb q = 0 then s.inc64 (serRxDrop b u 4)
    else
      let d := s.headDesc rb q
      let hd := s.headRead rb q
      let desc := (s.ring rb q).head
      let s := (s.headLeaves rb q).takeHead rb q
      let len := Machine.ent d 8 2
      if hd ≠ 0 then serToRing (s.complete rb q desc hd []) b u ident at_ data n
      else if Machine.ent d 5 3 ≠ 0 ∨ Machine.ent d 10 6 ≠ 0 then serToRing (s.complete rb q desc 0x31 []) b u ident at_ data n
      else if len < 64 ∨ 4096 < len then serToRing (s.complete rb q desc 0x13 []) b u ident at_ data n
      else
        let bs := data.take len
        let cut := decide (len < data.length)
        let st := s.rangeCheck .d true (Machine.ent d 0 5) bs.length
        let s := (s.inc64 (serDeliv b u)).devWrite .d (Machine.ent d 0 5) bs
        s.complete rb q desc (if st ≠ 0 then st else if cut then 1 else 0)
          (leBytes 2 data.length ++ leBytes 1 (canFlags ident + 8 * b2n cut) ++ [0] ++ leBytes 4 ident ++ leBytes 4 0 ++ leBytes 8 at_)

/-- A valid received frame that ended at module time `at_` is matched to an entry, else to the ring (R388, R391). -/
def serDeliver (s : State) (b : SerBlk) (u ident at_ : Nat) (data : List Byte) (mayRing : Bool) (hit : List Byte → Bool) :
    State :=
  match s.serFind b hit with
  | some i =>
    if data.length ≠ serDlen (s.catEntry (serCat b) i) then s.inc64 (serRxDrop b u 2)
    else (s.inc64 (serDeliv b u)).modRec (serIdx b) i fun r => { r with
      data := data, rlen := data.length, rxmt := at_, hits := r.hits + 1, lastSeq := some s.time.beatSeq }
  | none =>
    if mayRing = false ∨ s.ringOn (serRing b) (2 * u + 1) = false then s.inc64 (serRxDrop b u 3)
    else s.serToRing b u ident at_ data (s.ringWaiting (serRing b) (2 * u + 1))

/-- Whether a SER frame matches an entry of its unit: its first byte AND MASK equals MATCH AND MASK (R391). -/
def serHit (u : Nat) (data e : List Byte) : Bool :=
  serUnit e == u && !data.isEmpty && ((data.headD 0).toNat &&& Machine.ent e 9 1) == (Machine.ent e 8 1 &&& Machine.ent e 9 1)

/-- BUFLEN of the first waiting descriptor of a receive ring that takes a frame; those before it are refused (R392). -/
def rxBuflen (s : State) (b : RingBlk) (q : Nat) : Nat → Option Nat
  | 0 => none
  | n + 1 =>
    let d := s.headDesc b q
    let len := Machine.ent d 8 2
    if s.ringWaiting b q = 0 then none
    else if s.headRead b q = 0 ∧ Machine.ent d 5 3 = 0 ∧ Machine.ent d 10 6 = 0 ∧ 64 ≤ len ∧ len ≤ 4096 then some len
    else rxBuflen (s.takeHead b q) b q n

/-- The length at which a UART frame ends without an idle line (R395): 64 bytes where it matches an entry, and BUFLEN of the
descriptor that takes it; `none` for HDLC, and where neither takes it. -/
def serLimit (s : State) (u : Nat) (data : List Byte) : Option Nat :=
  let q := 2 * u + 1
  if s.bit (Fld.SER_CFG_HDLC u) then none
  else if (s.serFind .ser (serHit u data)).isSome then some 64
  else if s.ringOn .ser q then s.rxBuflen .ser q (s.ringWaiting .ser q)
  else none

/-- The bytes of a SER frame up to its limit; what follows belongs to the next frame. -/
def serFrame (s : State) (u : Nat) (data : List Byte) : List Byte :=
  match s.serLimit u data with
  | some n => data.take n
  | none => data

/-- How long ago a SER frame ended whose command comes now: GAP bit times where the idle line ended it, else now (R388, R395). -/
def serAgo (s : State) (u : Nat) (data : List Byte) : Nat :=
  if s.bit (Fld.SER_CFG_HDLC u) then 0
  else match s.serLimit u data with
    | some n => if n ≤ data.length then 0 else s.serGapNs u
    | none => s.serGapNs u

/-! ### MVB lines (R385) -/

/-- Supervision of line `x` (0 A, 1 B) at a frame instant. -/
def mvbLine (s : State) (x : Nat) (ok : Bool) : State :=
  let fault : Field := if x = 0 then Fld.MVB_LINESTAT_FAULT_A else Fld.MVB_LINESTAT_FAULT_B
  let bad := if ok then 0 else tget s.bus.mvbBad x + 1
  let good := if ok then tget s.bus.mvbGood x + 1 else 0
  let s := s.modBus fun t => { t with mvbBad := tset t.mvbBad x (min bad 8), mvbGood := tset t.mvbGood x (min good 8) }
  let s := if ok then s else s.inc64 (Reg.MVB_LINEERR x)
  if 8 ≤ bad ∧ s.bit fault = false then (s.setB fault true).serEvent .mvb 0x0B01 4 (p4 [x])
  else if 8 ≤ good ∧ s.bit fault = true then (s.setB fault false).serEvent .mvb 0x0B02 2 (p4 [x])
  else s

/-- An MVB frame instant: the trusted line's copy, else the other's, else a drop (R385, R391). -/
def mvbInstant (s : State) (m : MvbInstant) : State :=
  let enA := s.bit Fld.MVB_CFG_LINEEN_A
  let enB := s.bit Fld.MVB_CFG_LINEEN_B
  let okA := enA && m.validA
  let okB := enB && m.validB
  let s := if enA then s.mvbLine 0 m.validA else s
  let s := if enB then s.mvbLine 1 m.validB else s
  let s := s.inc64 (serRxFrames .mvb 0)
  let t := s.getF Fld.MVB_LINESTAT_TRUSTED
  let trusted := if t = 0 then okA else okB
  let other := if t = 0 then okB else okA
  let s := if !trusted && other then (s.setF Fld.MVB_LINESTAT_TRUSTED (1 - t)).inc64 Reg.MVB_LINESWITCH else s
  if !trusted && !other then s.inc64 (serRxDrop .mvb 0 1)
  else if m.fifoFull then s.inc64 (serRxDrop .mvb 0 5)
  else s.serDeliver .mvb 0 0 s.time.mt m.data m.messageData fun e =>
    !m.messageData && !m.deviceStatus && Machine.ent e 8 4 % 4096 == m.port

end State

/-! ### The commands -/

/-- MVB_FRAME_INSTANT (R385, R391, R393). -/
def execMvbFrameInstant (dt : Nat) (m : MvbInstant) (s : State) : Host.Outcome State Fault Refusal :=
  let s := s.elapse dt
  .next (if s.serLive .mvb 0 then s.mvbInstant m else s)

/-- A request of the process data of a port: what was latched at the last due edge answers; an entry with CUST only with custody
(R390). -/
def State.mvbPort (s : State) (port : Nat) : State :=
  let hit := (List.range (s.cat .mvb).count).find? fun i =>
    let e := s.catEntry .mvb i
    s.serUse .mvb i && serTx e && Machine.ent e 8 4 % 4096 == port && (s.dataRec (serIdx .mvb) i).relSeq.isSome
  match hit with
  | some i =>
    if (Machine.ent (s.catEntry .mvb i) 0 1).testBit 3 && !s.serves then s.inc64 (serNoCust .mvb 0)
    else (s.inc64 (serOffered .mvb 0)).inc64 (serSent .mvb 0)
  | none => s

/-- MVB_MASTER_FRAME (R384, R390): the status of the module's own device address, which it answers without any entry, or the
process data of a port. -/
def execMvbMasterFrame (dt : Nat) (poll : MvbMaster) (s : State) : Host.Outcome State Fault Refusal :=
  let s := s.elapse dt
  .next (if s.serLive .mvb 0 then
    match poll with
    | .device addr =>
      if addr = s.getF Fld.MVB_CFG_DEVADDR then (s.inc64 (serOffered .mvb 0)).inc64 (serSent .mvb 0) else s
    | .port n => s.mvbPort n
  else s)

/-- CAN_FRAME_RX (R391, R393, R394): FD frames only while they are enabled (R398). -/
def execCanFrameRx (dt : Nat) (u : Fin 4) (f : CanFrame) (s : State) : Host.Outcome State Fault Refusal :=
  let s := s.elapse dt
  let id := f.ident % 0x20000000 + 0x20000000 * b2n f.ide + 0x40000000 * b2n f.fdf + 0x80000000 * b2n f.brs
  .next (
    if s.serLive .can u.val && (!f.fdf || s.bit (Fld.CAN_CTL_FD u.val)) then
      let s := (s.inc64 (serRxFrames .can u.val)).canHeardOk u.val
      if f.fifoFull then s.inc64 (serRxDrop .can u.val 5)
      else s.serDeliver .can u.val id s.time.mt f.data true fun e => serMatch .can e == (u.val, canKey id)
    else s)

/-- SERIAL_TX_LAUNCH (R390, R392): a queued frame whose launch time has come starts on a free line. -/
def execSerialTxLaunch (dt : Nat) (blk : SerBlk) (who : SerWho) (s : State) : Host.Outcome State Fault Refusal :=
  let s := s.elapse dt
  .next (match s.serLaunch blk who with
    | some x =>
      if s.serMay blk x.unit && !s.serBusy blk x.unit && s.serQuiet blk x.unit && s.canFdOk blk x.unit x.ident then
        s.modBus fun t => { t with queue := t.queue.map fun y => if y = x then { y with started := true } else y }
      else s
    | none => s)

/-- A SER frame has left: its line is idle from now, and its driver is off one bit time later (R395). -/
def State.serLeft (s : State) (u : Nat) : State :=
  (s.serIdle u s.time.clock).modBus fun t => { t with driven := tset t.driven u (s.time.clock + s.serBitNs u) }

/-- SERIAL_TX_DONE (R392 to R394). -/
def execSerialTxDone (dt : Nat) (blk : SerBlk) (u : Fin 4) (s : State) : Host.Outcome State Fault Refusal :=
  let s := s.elapse dt
  .next (match s.serNext blk u.val with
    | some x =>
      if s.serMay blk u.val then
        let s := (s.inc64 (serSent blk u.val)).modBus fun t => { t with queue := t.queue.erase x }
        let s := match blk with
          | .can => s.canSentOk u.val
          | .ser => s.serLeft u.val
          | .mvb => s
        if x.entry.isNone then s.endTx (serRing blk) (2 * u.val) x.desc 0 0 else s
      else s
    | none => s)

/-- SER_TX_STALE (R390): a SER entry's frame that has not started 250 µs after its launch time. -/
def execSerTxStale (dt : Nat) (u : Fin 4) (s : State) : Host.Outcome State Fault Refusal :=
  let s := s.elapse dt
  .next (s.serDropAll .ser 1 fun x => x.unit == u.val && x.entry.isSome && !x.started && decide (x.launch + 250000 ≤ s.time.mt))

/-- CAN_ERROR_FRAME (R393, R394): the error counters rise as ISO 11898-1 gives them. -/
def execCanErrorFrame (dt : Nat) (u : Fin 4) (role : CanErr) (more : Nat) (s : State) : Host.Outcome State Fault Refusal :=
  let s := s.elapse dt
  .next (if s.serLive .can u.val then (s.inc64 (Reg.CAN_ERRFRAMES u.val)).canErr u.val role more else s)

/-- CAN_BUSOFF_RECOVERY (R394). -/
def execCanBusoffRecovery (dt : Nat) (u : Fin 4) (s : State) : Host.Outcome State Fault Refusal :=
  let s := s.elapse dt
  .next (if s.busOff .can u.val && s.bit (Fld.CAN_CTL_AUTOREC u.val) && s.serOn .can u.val then
    s.wr (Reg.CAN_ERR u.val) 0
  else s)

/-- SER_FRAME_END (R391, R393, R395): a UART frame ends after GAP bit times of idle line or at its length limit, an HDLC frame
at its closing flag. In half duplex a port ignores its own echo, which is what ends while it drives its line. -/
def execSerFrameEnd (dt : Nat) (u : Fin 4) (f : SerFrame) (s : State) : Host.Outcome State Fault Refusal :=
  let s := s.elapse dt
  let full := s.bit (Fld.SER_CFG_FULLDUP u.val)
  let ago := s.serAgo u.val f.data
  let data := s.serFrame u.val f.data
  .next (
    let echo := s.serBusy .ser u.val || decide (s.time.clock - ago < tget s.bus.driven u.val)
    if s.serLive .ser u.val && (full || !echo) then
      let s := if full then s else s.serIdle u.val (s.time.clock - ago)
      let s := s.inc64 (serRxFrames .ser u.val)
      if f.fifoFull then (s.inc64 (serRxDrop .ser u.val 5)).serEvent .ser 0x0D02 3 (p4 [u.val])
      else if !f.errorFree then s.inc64 (serRxDrop .ser u.val 1)
      else s.serDeliver .ser u.val 0 (s.time.mt - ago) data true (State.serHit u.val data)
    else s)

/-- SER_OVERRUN (R393, R395): the frame that overran the receive FIFO is dropped. -/
def execSerOverrun (dt : Nat) (u : Fin 4) (s : State) : Host.Outcome State Fault Refusal :=
  let s := s.elapse dt
  .next (if s.serLive .ser u.val then
    ((s.inc64 (serRxFrames .ser u.val)).inc64 (serRxDrop .ser u.val 5)).serEvent .ser 0x0D02 3 (p4 [u.val])
  else s)

end Sys2Proof.Machine
end

