-- ==== Sys2Proof/Machine/Courier.lean ====
section
/-! DEFINITION. Courier (R399 to R418): chains, the checks of a descriptor, write-backs and completions; and Loupe (R419 to
R426). What a descriptor moves is in Move.lean. -/

namespace Sys2Proof.Machine

/-- Whether a descriptor checks, reads back, asks for an interrupt, stops on an error, continues the running value, compares,
and copies nothing; bit 3, RT, is `crrRt`. -/
def crrChk (d : List Byte) : Bool := crrCtl d 0
def crrRdbk (d : List Byte) : Bool := crrCtl d 1 && !crrCtl d 7
def crrIrq (d : List Byte) : Bool := crrCtl d 2
def crrStop (d : List Byte) : Bool := crrCtl d 4
def crrCont (d : List Byte) : Bool := crrCtl d 5
def crrCmp (d : List Byte) : Bool := crrCtl d 6
def crrNoCopy (d : List Byte) : Bool := crrCtl d 7

/-- Source, destination, length, check word. -/
def crrSrc (d : List Byte) : Nat := ent d 8 5
def crrDst (d : List Byte) : Nat := ent d 16 5
def crrLen (d : List Byte) : Nat := ent d 24 4
def crrWord (d : List Byte) : Nat := ent d 32 5

/-- Whether a descriptor is copied descending (R413). -/
def crrDown (d : List Byte) : Bool :=
  !crrNoCopy d && decide (crrSrc d < crrDst d ∧ crrDst d < crrSrc d + crrLen d)

/-- The write-back flags that a descriptor's own form gives: WRITTEN, DESC, TWOPASS (R403, R413, R414). -/
def crrFlags (d : List Byte) : Nat := 1 + 2 * b2n (crrDown d) + 4 * b2n (crrDown d && crrChk d)

namespace State

/-- Change Courier. -/
def modCrr (s : State) (f : CrrSt → CrrSt) : State := { s with crr := f s.crr }

/-- The chain in progress of a channel. -/
def chain (s : State) (c : Nat) : Option CrrChain := tget s.crr.chain c

/-- Set the chain in progress. -/
def setChain (s : State) (c : Nat) (x : Option CrrChain) : State := s.modCrr fun t => { t with chain := tset t.chain c x }

/-- What a descriptor accesses, as (address, bytes, written): source, destination without NOCOPY, check word (R406). -/
def crrRanges (d : List Byte) : List (Nat × Nat × Bool) :=
  [(crrSrc d, crrLen d, false)] ++ (if crrNoCopy d then [] else [(crrDst d, crrLen d, true)]) ++
    (if crrChk d then [(crrWord d, 8, !crrCmp d)] else [])

/-- The access of a descriptor that the firewall of this module refuses first is counted and recorded (R246, R406). -/
def crrRefuse (s : State) (d : List Byte) : State :=
  match (crrRanges d).find? fun r => s.rangeCheck .c r.2.2 r.1 r.2.1 == 0x14 with
  | some r => s.fwRefuse .c r.1 r.2.2
  | none => s

/-- The checks of R406, in their order; 0 where all pass. -/
def crrCheck (s : State) (d : List Byte) : Nat :=
  let chk := crrChk d
  let n := crrLen d
  let ranges := crrRanges d
  if Machine.ent d 5 3 ≠ 0 ∨ Machine.ent d 13 3 ≠ 0 ∨ (!crrNoCopy d ∧ Machine.ent d 21 3 ≠ 0) ∨ Machine.ent d 29 1 ≠ 0 ∨
    Machine.ent d 30 2 ≠ 0 ∨ (chk ∧ Machine.ent d 37 3 ≠ 0) ∨ Machine.ent d 48 8 ≠ 0 ∨
    (!chk ∧ (crrCmp d ∨ crrCont d)) then 0x31
  else if n = 0 then 0x13
  else if ranges.any (fun r => !s.rangeMapped .c r.2.2 r.1 r.2.1) ∨ (chk ∧ crrWord d % 8 ≠ 0) then 0x10
  else if ranges.any (fun r => s.rangeStrict r.1 r.2.1) then 0x11
  else if ranges.any (fun r => s.rangeCheck .c r.2.2 r.1 r.2.1 != 0) then 0x14
  else 0

/-- Write a completion, with its SEQ, and what follows from it (R404, R415, R417). -/
def crrComplete (s : State) (c slot status ndesc : Nat) (irq : Bool) : State :=
  let seq := s.rd64 (Reg.CRR_RCOMPL c) % 4294967296
  let s := s.complete .crr c slot status (leBytes 4 seq ++ leBytes 4 ndesc ++ leBytes 4 0)
  let s := if s.bit (Fld.CRR_RCTL_POPMODE c) then
      s.modCrr fun t => { t with popq := tmod t.popq c (· ++ [(2 ^ 63 + seq * 16777216 + status * 65536 + slot, ndesc)]) }
    else s
  let box := s.getF (Fld.CRR_CFG_MBOX c)
  if (irq || (status != 0 && s.bit (Fld.CRR_CFG_ERRIRQ c))) && decide (box ≤ 8) then s.interrupt box (0x0F00 + c) else s

/-- The write-back of a descriptor (R402, R403). -/
def crrWriteBack (s : State) (c addr status flags bytes : Nat) : State :=
  let s := s.devWrite .c (addr + 56) (leBytes 1 status ++ leBytes 1 flags ++ [0, 0] ++ leBytes 4 bytes)
  let s := s.inc64 (Reg.CRR_WBS c)
  if status = 0 then s else s.inc64 (Reg.CRR_ERRS c)

/-- A chain ends: its completion, and the channel is idle, or disabled (R404, R416). -/
def crrEndChain (s : State) (c : Nat) (x : CrrChain) (status : Nat) : State :=
  let s := (s.setChain c none).crrComplete c x.slot status x.taken x.irq
  let s := s.setF Fld.CRR_BUSY_CH (s.getF Fld.CRR_BUSY_CH &&& (0xFFFF ^^^ 2 ^ c))
  s.wr (Reg.CRR_CHSTAT c) (b2n (s.ringOn .crr c))

/-- A descriptor ends: its write-back, and the chain goes on, or ends (R403, R404, R407, R409). -/
def crrEndDesc (s : State) (c : Nat) (x : CrrChain) (status flags bytes : Nat) : State :=
  let d := x.desc
  let s := s.crrWriteBack c x.addr status flags bytes
  let s := (s.setB (Fld.CRR_CHSTAT_TWOPASS c) false).setB (Fld.CRR_CHSTAT_DESC c) false
  let x := { x with status := if x.status = 0 then status else x.status, irq := x.irq || crrIrq d }
  let next := Machine.ent d 0 8
  if (status ≠ 0 ∧ crrStop d) ∨ next = 0 then s.crrEndChain c x x.status
  else if 4096 ≤ x.taken then s.crrEndChain c x 0x13
  else if next % 64 ≠ 0 ∨ 0x10000000000 ≤ next then s.crrEndChain c x 0x10
  else s.setChain c (some { x with addr := next, desc := [], stage := .fetch, expect := [], flags := 0, result := 0 })

/-- A posted slot is started: its head is taken (R402). -/
def crrStart (s : State) (c : Nat) : State :=
  let slot := (s.ring .crr c).head
  let x : CrrChain := {
    slot, addr := s.headAddr .crr c, desc := s.headDesc .crr c, taken := 1, cfg := s.rd (Reg.CRR_CHKCFG c)
    poly := s.rd64 (Reg.CRR_CHKPOLY c), init := s.rd64 (Reg.CRR_CHKINIT c) }
  let s := (s.takeHead .crr c).inc64 (Reg.CRR_DESCS c)
  let s := s.setF Fld.CRR_BUSY_CH (s.getF Fld.CRR_BUSY_CH ||| 2 ^ c)
  (s.setF (Fld.CRR_CHSTAT_STATE c) 2).setChain c (some x)

/-- Whether an address lies on another module. -/
def isFar (a : Nat) : Bool := match regionOf a with
  | some (.cascade _) => true
  | _ => false

/-- A channel asks for `n` bytes, if they lie on another module (R434). -/
def farAsk (s : State) (who a n : Nat) : State :=
  match regionOf a with
  | some (.cascade p) => s.farRead p a n ⟨.c, who⟩
  | _ => s

/-- As what a channel asks for the source of a second pass (R414): a number of its own, so that its bytes stand apart from those
of the first pass. -/
def secondPass (c : Nat) : Nat := c + 16

/-- What has come for a channel is used up, and what is open for it is asked for in vain. -/
def farClear (s : State) (c : Nat) : State :=
  let mine (r : Requester) : Bool := r.cls == .c && (r.core == c || r.core == secondPass c)
  let void (x : CscAsk) : CscAsk := if mine x.req then { x with req := ⟨.c, 32⟩ } else x
  s.modCsc fun t => { t with
    got := t.got.filter fun x => !mine x.req, readQ := t.readQ.map void
    tags := t.tags.map fun x => { x with ask := void x.ask } }

/-- What has come for a read of `n` bytes at `a`, in requests of at most 512 bytes: the bytes of each, none of one that is open
or failed. -/
def farParts (s : State) (who a n : Nat) : List (Option (List Byte)) :=
  (List.range ((n + 511) / 512)).map fun i =>
    (s.csc.got.find? fun x => x.req == ⟨.c, who⟩ && x.addr == a + 512 * i).bind fun x =>
      if x.status = 0 then some (slice x.bytes 0 (min 512 (n - 512 * i))) else none

/-- The bytes that a channel reads at `a`, on this module or as they came from another one, once all have come. -/
def crrRead (s : State) (who a n : Nat) : Option (List Byte) :=
  if isFar a then
    let l := s.farParts who a n
    if l.all (·.isSome) then some (l.flatMap (·.getD [])) else none
  else some (s.busRead a n)

/-- What a channel has read so far of `n` bytes at `a`, as bytes in their places, and how many of them follow each other from its
first one, or with `down` from its last. -/
def crrSoFar (s : State) (who a n : Nat) (down : Bool) : List Byte × Nat :=
  if isFar a then
    let l := s.farParts who a n
    let sizes := l.zipIdx.map fun x => (x.1.isSome, min 512 (n - 512 * x.2))
    let came := (if down then sizes.reverse else sizes).takeWhile fun x => x.1
    (l.zipIdx.flatMap fun x => x.1.getD (List.replicate (min 512 (n - 512 * x.2)) 0), (came.map fun x => x.2).sum)
  else (s.busRead a n, n)

/-- The read of a descriptor ends: a linked one is taken if it could be read, else the chain ends (R402, R407); then the
checks of R406, and the far bytes are asked for. -/
def crrTaken (s : State) (c : Nat) (x : CrrChain) (ended : ReadEnd) : State :=
  let st := s.readStatus ended .c x.addr 64
  let linked := x.desc.isEmpty
  let st := if linked && st == 0 && decide (0x400000000 < x.addr + 64) then 0x10 else st
  let s := s.readLeaves st .c x.addr 64
  if linked && st != 0 then s.crrEndChain c x st
  else
    let x := if linked then { x with desc := s.memRead x.addr 64, taken := x.taken + 1 } else x
    let s := if linked then s.inc64 (Reg.CRR_DESCS c) else s
    let bad := if st ≠ 0 then st else s.crrCheck x.desc
    if bad ≠ 0 then
      (if bad = 0x14 ∧ st = 0 then s.crrRefuse x.desc else s).crrEndDesc c x bad 1 0
    else
      let d := x.desc
      let s := (s.farClear c).farAsk c (crrSrc d) (crrLen d)
      let s := if crrDown d && crrChk d then s.farAsk (secondPass c) (crrSrc d) (crrLen d) else s
      let s := if crrChk d && crrCmp d then s.farAsk c (crrWord d) 8 else s
      let s := (s.setB (Fld.CRR_CHSTAT_DESC c) (crrDown d)).setB (Fld.CRR_CHSTAT_TWOPASS c) (crrDown d && crrChk d)
      s.setChain c (some { x with stage := .move, movedAt := s.time.clock })

/-- The posted slots not yet started are taken and end with ABORTED (R416). -/
def crrAbortSlots (s : State) (c : Nat) : Nat → State
  | 0 => s
  | n + 1 =>
    let slot := (s.ring .crr c).head
    let a := s.headAddr .crr c
    let irq := crrIrq (s.headDesc .crr c)
    let s := ((s.takeHead .crr c).inc64 (Reg.CRR_DESCS c)).crrWriteBack c a 0x30 1 0
    (s.crrComplete c slot 0x30 1 irq).crrAbortSlots c n

/-- The part of a copy that is done once `n` bytes are written, in the order of its direction: where it lies, its bytes at rising
addresses, and its bytes in the order written (R413, R419). -/
def crrPart (d data : List Byte) (n : Nat) : Nat × List Byte × List Byte :=
  if crrDown d then
    let part := data.drop (data.length - n)
    (crrDst d + (data.length - n), part, part.reverse)
  else (crrDst d, data.take n, data.take n)

/-- The pieces of a range at the multiples of `k`. -/
def pieces (k a : Nat) : Nat → List Byte → List (Nat × List Byte)
  | 0, _ => []
  | n + 1, bs =>
    if bs.isEmpty then []
    else
      let m := k - a % k
      (a, bs.take m) :: pieces k (a + m) n (bs.drop m)

/-- The writes of a copy, in the order of its direction: lines of 64 bytes here, as R416 stops them, of 256 bytes on another
module (R433) (DESIGN CHOICE, assumption 126). -/
def crrWrites (d : List Byte) (p : Nat × List Byte × List Byte) : List (Nat × List Byte) :=
  let l := pieces (if isFar p.1 then 256 else 64) p.1 p.2.1.length p.2.1
  if crrDown d then l.reverse else l

/-- The first `n` bytes of the copy are written by `store`, and the Loupe units on the channel see them in the order written
(R413, R419); the descriptor moves since clock `start`. -/
def crrMoveBy (s : State) (store : State → Nat → List Byte → State) (c start : Nat) (d data : List Byte) (n : Nat) : State :=
  if crrNoCopy d ∨ n = 0 then s
  else
    let p := crrPart d data n
    ((crrWrites d p).foldl (fun s w => store s w.1 w.2) s).lpeFeedFrom start 4 c p.2.2

/-- As what a channel asked for the bytes that it copies: those of the second pass where it makes two (R414). -/
def crrWho (c : Nat) (d : List Byte) : Nat := if crrDown d && crrChk d then secondPass c else c

/-- The first bytes of the copy that have come, of `n` that are to be written, are written by `store` (R408, R416). -/
def crrPartly (s : State) (store : State → Nat → List Byte → State) (c start : Nat) (d : List Byte) (n : Nat) : State :=
  let x := s.crrSoFar (crrWho c d) (crrSrc d) (crrLen d) (crrDown d)
  s.crrMoveBy store c start d x.1 (min n x.2)

/-- The bytes that a descriptor in progress has written when it stops, of which `n` were written when its channel was disabled:
up to its next 64-byte boundary in the direction of the copy (R413, R416). -/
def crrStopAt (x : CrrChain) (n : Nat) : Nat :=
  let d := x.desc
  let len := crrLen d
  let base := if crrNoCopy d then crrSrc d else crrDst d
  let n := min n len
  if x.stage = CrrStage.readback then len
  else if x.stage = CrrStage.fetch then 0
  else if crrDown d then min (n + (base + len - n) % 64) len
  else min (n + (64 - (base + n) % 64) % 64) len

/-- Clearing EN (R416): the descriptor in progress ends with `bytes` written, its chain completes with ABORTED, and so does
every posted slot. -/
def crrDisable (s : State) (c bytes : Nat) : State :=
  if !s.ringOn .crr c then s
  else
    let s := match s.chain c with
      | none => s
      | some x =>
        let inProgress := !x.desc.isEmpty
        let s := if inProgress then
            s.crrWriteBack c x.addr 0x30 (if x.stage = CrrStage.fetch then 1 else crrFlags x.desc) bytes
          else s
        s.crrEndChain c { x with irq := x.irq || (inProgress && crrIrq x.desc) } 0x30
    let s := s.crrAbortSlots c (s.ringWaiting .crr c)
    (s.setB (Fld.CRR_RCTL_EN c) false).wr (Reg.CRR_CHSTAT c) 0

/-- EN of a channel is cleared (R416): a descriptor that moves, and has written `n` bytes then, goes on to its next 64-byte
boundary. -/
def crrStop (s : State) (store : State → Nat → List Byte → State) (c n : Nat) : State :=
  match s.chain c with
  | some x =>
    let n := crrStopAt x n
    let s := if x.stage = .move then s.crrPartly store c x.movedAt x.desc n else s
    (s.crrDisable c n).farClear c
  | none => s.crrDisable c 0

/-! ### Loupe (R419 to R421) -/

/-- The running value of a Loupe unit, with LPE_RES. -/
def lpeSet (s : State) (u r : Nat) : State :=
  let s : State := { s with lpe := tset s.lpe u (some r) }
  s.wr64 (Reg.LPE_RES u) (chkResult (s.lpeParam u) r)

/-- A unit takes no data that is under way now (R421). -/
def lpeFresh (s : State) (u : Nat) : State := { s with lpeUnits := tset s.lpeUnits u { from_ := s.time.clock } }

/-- A write of LPE_CFG_u (R421): it enables the unit with INIT loaded, or configures the disabled unit; while EN = 1 only
clearing EN acts. A unit held disabled stays so (R518). -/
def lpeWriteCfg (s : State) (u v : Nat) : State :=
  if (tget s.lpe u).isSome then
    if v.testBit 31 then s
    else (({ s with lpe := tset s.lpe u none } : State).setB (Fld.LPE_CFG_EN u) false).lpeFresh u
  else
    let v := v &&& 0xC7FF777F
    if v.testBit 31 ∧ !s.heldDisabled 0x10 u then
      let s := s.wr (Reg.LPE_CFG u) v
      (s.lpeSet u (s.lpeParam u).init).lpeFresh u
    else s.wr (Reg.LPE_CFG u) (v % 2147483648)

/-- The restart doorbell (R421, R426): INIT is loaded, and a unit of data in progress is discarded; bits 31 to 8 are reserved.
-/
def lpeRestart (s : State) (mask : Nat) : State :=
  (bitsOf 8 mask).foldl (fun s u => if (tget s.lpe u).isSome then (s.lpeSet u (s.lpeParam u).init).lpeFresh u else s) s

/-- A unit of data has passed in per-unit mode (R420). -/
def lpeUnit (s : State) (u : Nat) (bs : List Byte) : State :=
  let p := s.lpeParam u
  let rest := bs.drop (s.getF (Fld.LPE_SKIPSPAN_SKIP u))
  let span := s.getF (Fld.LPE_SKIPSPAN_SPAN u)
  let part := if span = 0 then rest else rest.take span
  let s := (s.lpeSet u (chkFold p p.init part)).add64 (Reg.LPE_BYTES u) part.length
  (s.wr64 (Reg.LPE_LAST u) (s.rd64 (Reg.LPE_RES u))).inc64 (Reg.LPE_UNITS u)

/-- The unit of data that passed first ends at an enabled unit. -/
def lpeNext (s : State) (u : Nat) : State :=
  match (tget s.lpeUnits u).passed with
  | [] => s
  | bs :: rest =>
    let s : State := { s with lpeUnits := tmod s.lpeUnits u fun x => { x with passed := rest } }
    if (tget s.lpe u).isSome then s.lpeUnit u bs else s

/-- What has passed ends before a self-test (R46). -/
def lpeDrain (s : State) (u : Nat) : State := (tget s.lpeUnits u).passed.foldl (fun s _ => s.lpeNext u) s

end State

/-! ### The commands -/

/-- CRR_CHAIN_START (R402, R416): an enabled idle channel that is not under test starts its oldest posted slot. -/
def execCrrChainStart (dt : Nat) (c : Fin 16) (s : State) : Host.Outcome State Fault Refusal :=
  let s := s.elapse dt
  .next (if s.ringOn .crr c.val && (s.chain c.val).isNone && s.ringWaiting .crr c.val != 0 && !s.unitOff 0x0F c.val then
    s.crrStart c.val
  else s)

/-- CRR_DESCRIPTOR_TAKEN (R402, R406, R407). -/
def execCrrDescriptorTaken (dt : Nat) (c : Fin 16) (ended : ReadEnd) (s : State) : Host.Outcome State Fault Refusal :=
  let s := s.elapse dt
  .next (match s.chain c.val with
    | some x => if x.stage = .fetch then s.crrTaken c.val x ended else s
    | none => s)

/-- LPE_ENABLE (R421). -/
def execLpeEnable (dt : Nat) (req : Requester) (u : Fin 8) (value : Word) (s : State) : Host.Outcome State Fault Refusal :=
  .next ((s.elapse dt).regCmd req (Reg.LPE_CFG u.val) fun s => s.lpeWriteCfg u.val value.toNat)

/-- LPE_DISABLE (R421): the result stays as it is. -/
def execLpeDisable (dt : Nat) (req : Requester) (u : Fin 8) (s : State) : Host.Outcome State Fault Refusal :=
  .next ((s.elapse dt).regCmd req (Reg.LPE_CFG u.val) fun s =>
    if (tget s.lpe u.val).isSome then s.lpeWriteCfg u.val 0 else s)

/-- LPE_UNIT_END (R419, R420): a unit of data of the selected stream ends at an enabled unit in per-unit mode: the one
that passed first, which `unit` names. -/
def execLpeUnitEnd (dt : Nat) (u : Fin 8) (unit : List Byte) (s : State) : Host.Outcome State Fault Refusal :=
  let s := s.elapse dt
  .next (if (tget s.lpeUnits u.val).passed.head? = some unit then s.lpeNext u.val else s)

end Sys2Proof.Machine
end

