-- ==== Sys2Proof/Machine/Links.lean ====
section
/-! DEFINITION. Cascade links and membership (R427 to R429, R437, R444): how a link comes up and goes down, what becomes of
the requests on it, and the beat edge. -/

namespace Sys2Proof.Machine

namespace State

/-- An event of CSC, in the collection of CSC_EVCOLL (R445). -/
def cscEvent (s : State) (code sev : Nat) (payload : List Byte) : State :=
  let k := s.getF Fld.CSC_EVCOLL_COLL
  s.emit 0x11 code sev (if 55 < k then 0 else k) payload

/-- The state field of a port, 0 up and 1 down. -/
def linkField (d : Nat) : Field := if d = 0 then Fld.CSC_STATUS_UPSTATE else Fld.CSC_STATUS_DNSTATE
def degradedField (d : Nat) : Field := if d = 0 then Fld.CSC_STATUS_UPDEGRADED else Fld.CSC_STATUS_DNDEGRADED

/-- The state of a port: 0 down, 1 training, 2 up, 3 POSERR. -/
def linkState (s : State) (d : Nat) : Nat := s.getF (linkField d)

/-- Whether a port is enabled. -/
def portOn (s : State) (d : Nat) : Bool :=
  s.bit (if d = 0 then Fld.CSC_CTL_EN_UP else Fld.CSC_CTL_EN_DOWN) && !s.bit Fld.SYS_PLUG_FAULT

/-- The membership that the next edge brings. -/
def nextMembers (s : State) : Nat := s.csc.membersNext.getD (s.getF Fld.CSC_MEMBERS_VEC)

/-- The positions behind a port. -/
def behind (s : State) (d : Nat) : List Nat :=
  (List.range 8).filter fun p => if d = 0 then decide (p < s.stackPos) else decide (s.stackPos < p)

/-- The master sends the membership to every other member after a change (R429, R439). -/
def sendMembers (s : State) : State :=
  if s.bit Fld.CSC_STATUS_MASTER then
    s.postedOut 1 ((bitsOf 8 s.nextMembers).filter (· != s.stackPos)).length
  else s

/-- MEMBER and NOMASTER as the links and the membership make them (R429): NOMASTER is set at a beat edge, when a new membership
takes effect (DESIGN CHOICE, assumption 126), and MEMBER follows the up link at once. -/
def showMember (s : State) : State :=
  let zero := (s.rd Reg.CSC_MEMBERS).testBit 0
  let s := s.setB Fld.CSC_STATUS_MEMBER (s.linkState 0 == 2 && zero)
  if (s.linkState 0 == 2 || s.linkState 1 == 2) && !zero then s else s.setB Fld.CSC_STATUS_NOMASTER false

/-- Stage a membership for the next edge. -/
def stageMembers (s : State) (v : Nat) : State :=
  (s.modCsc fun c => { c with membersNext := some v }).sendMembers

/-- The answer to a requester of another module's memory: data, or for a core an access fault and for a device a status
(R431, R434, R437); that of the Triad passes its boundary (R94), and a VFENCE sees it unless one timed out over it (R121). -/
def farAnswer (s : State) (req : Requester) (status data : Nat) : State :=
  let s := if status ≠ 0 ∧ isCore req.cls then s.raise .accessFault else s.respond status data
  if req.cls ≠ .t then s
  else if req.core = s.triad.vfEra then s.toLanes status
  else s.enter ⟨.readResponse, s.resp.data, status⟩

/-- Reads that wait for a tag are sent as tags come free (R434). -/
def sendWaiting (s : State) (port : Nat) : State :=
  match s.csc.readQ.find? fun x => x.port == port with
  | some x => if (s.freeTag port).isSome then (s.modCsc fun c => { c with readQ := c.readQ.erase x }).sendNp x else s
  | none => s

/-- The far lock of this module ends, and the next AMO asks for the lock of its target (R442). -/
def nextAmo (s : State) : State :=
  let s := s.modCsc fun c => { c with lockHeld := none }
  match s.csc.amoQ with
  | x :: _ => s.postedOut (s.farPort x.1) 1
  | [] => s

/-- Whether what comes for a requester is kept until its whole transfer has come: a Courier channel, the collection of shadows. -/
def gathers (r : Requester) : Bool := (r.cls == .c && decide (r.core < 32)) || (r.cls == .d && decide (256 ≤ r.core))

/-- What came for one read, or that it failed (R434, R437); what a descriptor that has ended asked for is dropped. -/
def farGot (s : State) (x : CscAsk) (status : Nat) (bytes : List Byte) : State :=
  if gathers x.req then s.modCsc fun c => { c with got := c.got ++ [⟨x.req, x.addr, status, bytes.take x.len⟩] }
  else if x.req.cls = .c then s
  else s.farAnswer x.req status (leNat bytes)

/-- An open tag is freed with an answer; an AMO ends the far lock. -/
def endTag (s : State) (t : CscTag) (status : Nat) (bytes : List Byte) : State :=
  let s := (s.modCsc fun c => { c with tags := c.tags.erase t }).farGot t.ask status bytes
  let s := if t.ask.amo then s.nextAmo else s
  s.sendWaiting t.ask.port

/-- Every read and AMO that is open, or waits, towards a port ends at once (R437, R444); whether an AMO that waited for its lock
had been answered with LOCK_RETRY is a free value (assumption 108). -/
def dropOpen (s : State) (d : Nat) : State :=
  let far := s.behind d
  let open_ := s.csc.tags.filter fun t => t.ask.port == d
  let waits := s.csc.readQ.filter fun x => x.port == d
  let amos := s.csc.amoQ.filter fun x => far.contains x.1
  let asking := ((s.csc.lockHeld.orElse fun _ => s.csc.amoQ.head?.map fun x => x.1).map fun p => far.contains p).getD false
  let s := s.modCsc fun c => { c with
    tags := c.tags.filter fun t => t.ask.port != d, readQ := c.readQ.filter fun x => x.port != d
    amoQ := c.amoQ.filter fun x => !far.contains x.1 }
  let s := s.add64 (Reg.CSC_RDTO d) open_.length
  let s := (open_.map (·.ask) ++ waits).foldl (fun (s : State) x => s.farGot x 0x10 []) s
  let s := amos.foldl (fun (s : State) x => s.farAnswer x.2.1 0x10 0) s
  let s := if amos.isEmpty then s
    else (if Config.lockRetried s.freeCtr then s.inc64 Reg.CSC_LOCKRETRY else s).freshCtr
  if asking then s.nextAmo else s

/-- A link goes down (R437, R444): its open reads end, unacknowledged posted writes are lost, pop reads of the modules behind it
are discarded (R241), the requests that wait here get no completion and the posted writes that wait hold no credit of the next
link, and those positions leave at the next edge. -/
def linkDown (s : State) (d next : Nat) : State :=
  let was := s.linkState d
  let s := (((s.setF (linkField d) next).setB (degradedField d) false).wr (Reg.CSC_LINK d) 0).showMember
  if was ≠ 2 then s
  else
    let s := (s.cscEvent 0x1001 2 (p4 [d, 0, 0, 0])).dropOpen d
    let far := s.behind d
    let s := s.dropReads fun r => r.cls == .x && far.contains r.core
    let sent := tget s.csc.sent d
    let s := (s.add64 (Reg.CSC_PWLOST d) (Config.cscUnacked s.freeCtr % (sent + 1))).freshCtr
    let s := s.modCsc fun c => { c with
      sent := tset c.sent d 0, waiting := c.waiting.filter fun p => !far.contains p
      inWait := (c.inWait.filter fun x => x.1 != some d || x.2.write).map fun x => if x.1 = some d then (none, x.2) else x }
    s.stageMembers (((bitsOf 8 s.nextMembers).filter fun p => !far.contains p).map (2 ^ ·)).sum

/-- The membership with the positions of `reach` behind a port. -/
def withBehind (s : State) (d reach : Nat) : Nat :=
  let far := s.behind d
  (((bitsOf 8 s.nextMembers).filter fun p => !far.contains p).map (2 ^ ·)).sum ||| 2 ^ s.stackPos |||
    (((bitsOf 8 reach).filter fun p => far.contains p).map (2 ^ ·)).sum

/-- Those positions are reachable behind a port (R429). -/
def membersBehind (s : State) (d reach : Nat) : State := s.stageMembers (s.withBehind d reach)

/-- A link comes up, if the pairing of the positions allows it, with the positions that it reaches (R427, R428). Flow-control
initialisation starts its credits. -/
def linkUpEvent (s : State) (d neighbour width gen reach : Nat) : State :=
  let pos := s.stackPos
  let ok := if d = 0 then decide (neighbour < pos) else decide (pos < neighbour)
  let was := s.linkState d
  let s := if was = 2 then s.linkDown d 1 else s
  if !ok then
    (((s.setF (linkField d) 3).setB (degradedField d) false).wr (Reg.CSC_LINK d) 0).cscEvent 0x1002 4 (p4 [d, neighbour])
  else
    let s := (s.setF (linkField d) 2).setB (degradedField d) (gen != 4 || width != 4)
    let s := (s.setF (Fld.CSC_LINK_GEN d) gen).setF (Fld.CSC_LINK_WIDTH d) width
    let s := (List.range 6).foldl (fun s k =>
      ((s.wr64 (Reg.CSC_CREDISS d k) (Config.cscCredits d k)).wr64 (Reg.CSC_CREDRET d k) 0).wr64 (Reg.CSC_CREDHELD d k) 0) s
    let s := s.modCsc fun c => { c with used := (List.range 6).foldl (fun u k => tset u (d * 6 + k) 0) c.used }
    let s := s.cscEvent 0x1001 2 (p4 [d, 1, gen, width])
    s.showMember.membersBehind d (reach ||| 2 ^ (neighbour % 8))

/-- A link beyond the partner of a port came up or went down: other positions are reachable behind it (R429). -/
def linkBeyond (s : State) (d reach : Nat) : State :=
  if s.linkState d = 2 ∧ s.nextMembers ≠ s.withBehind d reach then s.membersBehind d reach else s

/-- AUDIT leaves at a port, with the credits that this end has consumed of each type (R439, R444). -/
def auditOut (s : State) (d : Nat) : State :=
  (s.modCsc fun c => { c with audits := tset c.audits d ((List.range 6).map fun k => tget c.used (d * 6 + k)) }).postedOut d 1

/-- A completion leaves at a port, with `n` bytes (R433). -/
def cplOut (s : State) (d n : Nat) : State := ((s.inc64 (Reg.CSC_TXCPL d)).consume d 4 1).consume d 5 (dataCredits n)

/-- Cascade at a beat edge (R429, R444): the membership, MEMBER and NOMASTER, and the AUDIT of each link that is up. -/
def cscEdge (s : State) : State :=
  let s := s.setF Fld.CSC_MEMBERS_VEC (s.nextMembers ||| 2 ^ s.stackPos)
  let s := s.modCsc fun c => { c with membersNext := none }
  let s := s.showMember
  let alone := (s.linkState 0 == 2 || s.linkState 1 == 2) && !(s.rd Reg.CSC_MEMBERS).testBit 0
  let s := if alone && !s.bit Fld.CSC_STATUS_NOMASTER then s.cscEvent 0x1004 4 (p4 [s.getF Fld.CSC_MEMBERS_VEC]) else s
  let s := s.setB Fld.CSC_STATUS_NOMASTER alone
  [0, 1].foldl (fun s d => if s.linkState d = 2 then s.auditOut d else s) s

/-- `n` payload bytes of credit type pair (`2 * t` header, `2 * t + 1` data) arrive and are freed at once: the credits are
returned and issued again (R444). -/
def creditUse (s : State) (d t n : Nat) : State :=
  let one (s : State) (k m : Nat) : State :=
    if m = 0 then s else (s.add64 (Reg.CSC_CREDRET d k) m).add64 (Reg.CSC_CREDISS d k) m
  one (one s (2 * t) 1) (2 * t + 1) (dataCredits n)

/-- They arrive and are held in the buffers, and later leave them (R442, R444). -/
def creditHold (s : State) (d t n : Nat) : State :=
  (s.inc64 (Reg.CSC_CREDHELD d (2 * t))).add64 (Reg.CSC_CREDHELD d (2 * t + 1)) (dataCredits n)
def creditFree (s : State) (d t n : Nat) : State :=
  let drop (s : State) (k m : Nat) : State := s.wr64 (Reg.CSC_CREDHELD d k) (s.rd64 (Reg.CSC_CREDHELD d k) - m)
  (drop (drop s (2 * t) 1) (2 * t + 1) (dataCredits n)).creditUse d t n

/-- Whether the bridge takes what arrives at a port: the link is up, and the bridge is not out of action (R444, R517). -/
def heard (s : State) (d : Nat) : Bool := s.linkState d == 2 && !s.unitOff 0x11 0

/-- A side-band message arrives at a port: a posted transaction (R433, R439). -/
def sideBandIn (s : State) (d : Nat) : State := (s.inc64 (Reg.CSC_RXPW d)).creditUse d 0 0

end State

end Sys2Proof.Machine
end

