-- ==== Sys2Proof/Machine/Pops.lean ====
section
/-! DEFINITION. The POP page (R75, R240 to R242, R417, R466): pop reads and what their responses remove; and the mismatch and
the restart of application cores, which discard pop reads in flight. -/

namespace Sys2Proof.Machine

namespace State

/-- Change the state of a pop queue. -/
def modPop (s : State) (q : PopQueue) (f : PopSt → PopSt) : State := { s with pops := tmod s.pops (popKey q) f }

/-- What a pop read of a queue returns: its head entry, 0 where it is empty (R75, R417, R466). -/
def popHead (s : State) (q : PopQueue) : Nat :=
  match q with
  | .tsq q => s.tsMeta q.val
  | .crr c => ((tget s.crr.popq c.val).head?.map fun x => x.1).getD 0
  | .arc => s.arcNext

/-- The entry that a read returned is removed: the head of its queue, which no other read has moved, or the record of the
Archive (R75, R241, R417, R466). -/
def popRemove (s : State) (q : PopQueue) : State :=
  match q with
  | .tsq q => s.tsPop q.val
  | .crr c => match tget s.crr.popq c.val with
    | [] => s
    | x :: rest =>
      ((s.modCrr fun t => { t with popq := tset t.popq c.val rest }).inc64 (Reg.CRR_CPOP c.val)).wr64 (Reg.POP_CRR_INFO c.val) x.2
  | .arc => match (tget s.pops (popKey .arc)).record with
    | some r => s.arcPop r
    | none => s

/-- A pop read of `n` bytes is answered: one of another module by a completion (R434), one of the Triad that takes nothing through
its boundary (R94); what the Triad takes passes the boundary as it is accepted (R241). -/
def popAnswer (s : State) (req : Requester) (v n : Nat) : State :=
  let s := s.respond 0 v
  if req.cls = .x then (s.cplOut (s.farPort req.core) n).lpeFeed 5 (s.farPort req.core) (leBytes n v)
  else if req.cls = .t ∧ v = 0 then s.toLanes 0 else s

/-- A refused pop read of another module, or of the Triad, is answered too (R94, R246, R431). -/
def popRefused (s : State) (req : Requester) (st : Nat) : State :=
  if req.cls = .x then s.cplOut (s.farPort req.core) 0
  else if req.cls = .t then s.toLanes st else s

/-- Serve pop reads: an empty queue answers 0 at once, else the entry is in flight (R241, R242). -/
def popServe (s : State) (q : PopQueue) : List Requester → State
  | [] => s.modPop q fun _ => {}
  | r :: rest =>
    let v := s.popHead q
    if v = 0 then popServe (s.popAnswer r 0 8) q rest
    else (s.popAnswer r v 8).modPop q fun _ =>
      { inFlight := some r, data := v, record := if q = .arc then s.windowRec else none, waiting := rest }

/-- A pop read (R238, R240 to R242, R246): one behind earlier accesses of its core that wait is itself held back; a 32-bit read
returns 0; one that finds another in flight waits. -/
def popRead (s : State) (q : PopQueue) (req : Requester) (reg : Nat) (wide : Bool) : State :=
  let st := s.memCheck req.cls false (regPhys reg)
  let p := tget s.pops (popKey q)
  if !s.issues req then s
  else if s.heldBack req then s.park req.core (.pop q reg wide)
  else if st ≠ 0 then (s.fwRefuse req.cls (regPhys reg) false).popRefused req st
  else if !wide then s.popAnswer req 0 4
  else if p.inFlight.isSome then s.modPop q fun p => { p with waiting := p.waiting ++ [req] }
  else s.popServe q (p.waiting ++ [req])

/-- The requesters that wait are served once no read of the queue is in flight. -/
def popNext (s : State) (q : PopQueue) : State := s.popServe q (tget s.pops (popKey q)).waiting

/-- The pop queue of a number. -/
def popOf (k : Nat) : Option PopQueue :=
  if h : k < 9 then some (.tsq ⟨k, h⟩)
  else if k < 16 then none
  else if h : k - 16 < 16 then some (.crr ⟨k - 16, h⟩)
  else if k = 32 then some .arc else none

/-- The pop queue whose pop register lies at a physical address (R240). -/
def popAt (a : Nat) : Option PopQueue :=
  let o := a - 0xF0001A0000
  if a < 0xF0001A0000 ∨ o % 16 ≠ 0 then none
  else if o < 0x90 then popOf (o / 16)
  else if 0x100 ≤ o ∧ o < 0x200 then popOf (o / 16)
  else if o = 0x1000 then some .arc else none

/-- After reads in flight were discarded, the requesters that wait for those queues are served (R241, R242). -/
def popsFreed (s : State) : State :=
  (s.pops.filter fun x => x.2.inFlight.isNone && !x.2.waiting.isEmpty).foldl (fun s x => match popOf x.1 with
    | some q => s.popNext q
    | none => s) s

/-- A Cascade link goes down, and the reads that waited for discarded ones are served (R241, R444). -/
def linkFalls (s : State) (d next : Nat) : State := (s.linkDown d next).popsFreed

/-- A write of APC_RESTART (R226). -/
def apcRestart (s : State) (req : Requester) (key cores : Nat) : State :=
  if key = 0x3C then ((bitsOf 8 cores).foldl (fun s c => s.restartNamed req c) s).popsFreed else s

end State

/-! ### The commands -/

/-- The address that APC_LASTMIS shows: of the transaction that the even core presented, else of the odd core's (R225, R250). -/
def mismatchAddr (even odd : Option Txn) : Nat :=
  match even, odd with
  | some t, _ => t.addr % 0x10000000000
  | none, some t => t.addr % 0x10000000000
  | none, none => 0

/-- Whether a pair's checker finds a difference: in address, data, byte enables or attributes of what the two cores present, a
transaction of one core only, or one of another kind, such as an L1 error or another interrupt entry (R224, R225). -/
def pairDiffers (even odd : Option Txn) (otherwise : Bool) : Bool := otherwise || even != odd

/-- APC_PAIR_MISMATCH (R224, R225). -/
def execApcPairMismatch (dt : Nat) (pair : Fin 4) (cmp : PairCompare) (s : State) :
    Host.Outcome State Fault Refusal :=
  let s := s.elapse dt
  let p := pair.val
  .next (
    if s.isPaired p ∧ s.pairState p = 1 ∧ pairDiffers cmp.even cmp.odd cmp.otherwise then
      let s := ((s.loseL1 (2 * p)).dropPops (2 * p)).popsFreed.setF (Fld.APC_PAIRSTAT_STATE p) 2
      let s := (s.inc64 (Reg.APC_MISMATCH p)).wr64 (Reg.APC_LASTMIS p) (mismatchAddr cmp.even cmp.odd)
      s.emit 0x03 0x0501 5 60 (p4 [p])
    else s)

/-- APC_RESTART_WRITE (R226). -/
def execApcRestartWrite (dt : Nat) (req : Requester) (key : Byte) (cores : BitVec 8) (s : State) :
    Host.Outcome State Fault Refusal :=
  .next ((s.elapse dt).regCmd req Reg.APC_RESTART fun s => s.apcRestart req key.toNat cores.toNat)

/-- POP_TSQ_META_READ (R75, R241, R242). -/
def execPopTsqMetaRead (dt : Nat) (req : Requester) (q : Fin 9) (wide : Bool) (s : State) : Host.Outcome State Fault Refusal :=
  .next ((s.elapse dt).popRead (.tsq q) req (Reg.POP_TSQ_META q.val) wide)

/-- POP_CRR_META_READ (R417, R241, R242). -/
def execPopCrrMetaRead (dt : Nat) (req : Requester) (c : Fin 16) (wide : Bool) (s : State) : Host.Outcome State Fault Refusal :=
  .next ((s.elapse dt).popRead (.crr c) req (Reg.POP_CRR_META c.val) wide)

/-- POP_ARC_NEXT_READ (R466, R241, R242). -/
def execPopArcNextRead (dt : Nat) (req : Requester) (wide : Bool) (s : State) : Host.Outcome State Fault Refusal :=
  .next ((s.elapse dt).popRead .arc req Reg.POP_ARC_NEXT wide)

end Sys2Proof.Machine
end

