-- ==== Sys2Proof/Machine/Doorbells.lean ====
section
/-! DEFINITION. What a write does to the words of a register block (R13, R16, R17) and to the doorbell page (R37, R580), and what
a requester reads at an address. -/

namespace Sys2Proof.Machine

/-- What an access leaves in a register word (R17): `sealed` makes RWL fields read only. -/
def maskWrite (r : LayRow) (lock : Bool) (old v : Nat) : Nat :=
  let m := r.rw ||| (if lock then 0 else r.rwl)
  let x := (old &&& (0xFFFFFFFF ^^^ m)) ||| (v &&& m)
  (x &&& (0xFFFFFFFF ^^^ (v &&& r.w1c))) ||| (v &&& r.w1s)

/-- The ring whose control word lies at an address. -/
def ringCtlAt (a : Nat) : Option (RingBlk × Nat) :=
  [RingBlk.eth, .mvb, .can, .ser, .crr, .arc, .prv].findSome? fun b =>
    ((List.range (ringCount b)).find? fun q => (ringRegs b q).ctl == a).map fun q => (b, q)

/-- The catalogue whose CATCTL lies at an address, and the one whose base or count does. -/
def catCtlAt (a : Nat) : Option CatBlk := catBlks.find? fun b => catReg b 0x2C == a
def catCfgAt (a : Nat) : Option CatBlk := catBlks.find? fun b => decide (catReg b 0x20 ≤ a ∧ a < catReg b 0x2C)

/-- An index of registers at `base + i × stride`. -/
def indexAt (a base stride count : Nat) : Option Nat :=
  if base ≤ a ∧ (a - base) % stride = 0 ∧ (a - base) / stride < count then some ((a - base) / stride) else none

namespace State

/-! ### The doorbell page (R37, R426, R580) -/

/-- A catalogue invalidate; for a block under test it waits for the end of the test (R517). -/
def ringInvalidate (s : State) (k : Cls) (b : CatBlk) (i : Nat) : State :=
  if s.unitTested (catIndex b) 0 then { s with deferred := s.deferred ++ [.invalidate b i (clsBit k)] }
  else s.catInvalidate k b i

/-- A producer doorbell; for a unit under test it waits for the end of the test (R416, R517). -/
def ringProduce (s : State) (b : RingBlk) (q tail : Nat) : State :=
  if s.unitTested (ringIndex b) (ringUnit b q) then { s with deferred := s.deferred ++ [.ring b q tail] }
  else s.producer b q tail

/-- A Loupe restart; the units under test restart when their test ends (R421, R517). -/
def loupeRestart (s : State) (mask : Nat) : State :=
  let busy := (bitsOf 8 mask).filter fun u => s.unitTested 0x10 u
  let s := s.lpeRestart (((bitsOf 8 mask).filter fun u => !busy.contains u).map (2 ^ ·)).sum
  if busy.isEmpty then s else { s with deferred := s.deferred ++ [.lpeRestart (busy.map (2 ^ ·)).sum] }

/-- A 32-bit write to the doorbell page; one that no block defines is counted (R580). -/
def dblEffect (s : State) (k : Cls) (a v : Nat) : State :=
  let slot := a % 0x10000 / 0x100
  let o := a % 0x100
  if 27 ≤ slot then s
  else if o = 0 then
    match catBlks.find? fun b => catIndex b == slot with
    | some b => s.ringInvalidate k b (v % 65536)
    | none => s.doorbellError slot
  else if o = 8 then
    match ringBlkOf slot with
    | some b => s.ringProduce b (v / 65536) (v % 65536)
    | none => s.doorbellError slot
  else if o = 0x10 ∧ slot = 0x10 then s.loupeRestart (v % 256)
  else s.doorbellError slot

/-! ### What a write does beyond its bits -/

/-- A write of a ring's control word: enable, disable with the untaken descriptors ABORTED, or configuration of a disabled ring;
that of a Courier channel takes POPMODE and LOG2SIZE at any time (R38, R43, R363, R416, R424). -/
def ringCtlWrite (s : State) (b : RingBlk) (q v : Nat) : State :=
  let ctl := (ringRegs b q).ctl
  let low := v &&& (if b = .crr then 0x11F else 0x1F)
  if v.testBit 31 then
    if b = .crr ∧ s.ringOn .crr q then s.wr ctl (low + 2147483648) else s.ringEnable b q v
  else
    let s :=
      if !s.ringOn b q then s
      else match b with
        | .eth => s.ethDisable q
        | .crr => s.crrStop (fun s _ _ => s) q 0
        | _ => s.abortWaiting b q (s.ringWaiting b q)
    s.wr ctl low

/-- Whether a write of a configuration word has no effect now: the catalogue is enabled (R32), the Loupe unit is (R421), the
gate list is operative (R355). -/
def writeIgnored (s : State) (a : Nat) : Bool :=
  (match catCfgAt a with
   | some b => s.rd (catReg b 0x2C) % 2 == 1
   | none => false) ||
  (decide (a / 0x10000 = 0x10) && (match regUnit a with
   | some u => (tget s.lpe u).isSome
   | none => false)) ||
  (decide (0xA8000 ≤ a ∧ a < 0xAC000) &&
    s.getF (Fld.ETH_PORTSTAT_GCLBANK ((a - 0xA8000) / 0x800)) == (a - 0xA8000) % 0x800 / 0x400)

/-- The place of a gate list at an offset from its cycle start: the running entry and the start of its interval. -/
def gclLocate (l : List (Nat × Nat)) (start now : Nat) : Nat → Nat × Nat
  | i => match l with
    | x :: y :: t => if start + x.1 ≤ now then gclLocate (y :: t) (start + x.1) now (i + 1) else (i, start)
    | _ => (i, start)

/-- What follows from a changed word. -/
def writeAfter (s : State) (a old new : Nat) : State :=
  let rose (i : Nat) : Bool := new.testBit i && !old.testBit i
  let fell (i : Nat) : Bool := old.testBit i && !new.testBit i
  if a = Reg.MEAS_FREEZE then { s with meas := { s.meas with frzPend := s.meas.frzPend ++ [(new, s.effectSeq)] } }
  else if a = Reg.WAL_NODECFG ∨ a = Reg.WAL_GUARD ∨ a = Reg.WAL_SPAN then s.walConfigured
  else if a = Reg.WAL_CTL then [0, 1].foldl (fun s c => if fell c then s.walOff c else s) s
  else if a = Reg.CSC_CTL then [0, 1].foldl (fun s d => if fell d then s.linkFalls d 0 else s) s
  else if a = Reg.MVB_CFG then (if s.serOn .mvb 0 then s else s.serFlush .mvb 0)
  else match indexAt a (Reg.CAN_CTL 0) 0x10 4 with
  | some u => if fell 0 then s.serFlush .can u else if rose 0 then s.wr (Reg.CAN_ERR u) 0 else s
  | none => match indexAt a (Reg.SER_CFG 0) 0x10 4 with
  | some u => if fell 0 then s.serFlush .ser u else s
  | none => match indexAt a (Reg.ETH_PORTCFG 0) 0x10 8 with
  | some p =>
    let s := s.stpFlush p
    if rose 8 then
      let bank := s.getF (Fld.ETH_PORTSTAT_GCLBANK p)
      let ct := gclCT (tget s.eth.gcl p).ctexp
      let x := gclLocate (s.gclList p bank) (s.time.mt / ct * ct) s.time.mt 0
      s.modEth fun e => { e with gcl := tmod e.gcl p fun g => { g with idx := x.1, startMt := x.2 } }
    else s
  | none => match indexAt a (Reg.ETH_FRER 0) 0x10 128 with
  | some i =>
    if rose 0 then s.modEth fun e => { e with frerSeq := tset e.frerSeq i 0, frer := tset e.frer i {} } else s
  | none => match indexAt a (Reg.FAB_FWWR 0) 4 27 with
  | some i => s.wr a (if i = 0x1A then old else (new &&& 0x7D) ||| (old &&& 2))
  | none => match indexAt a (Reg.ARC_CCFG 0) 0x80 64 with
  | some k => if isReserve k then s.setB (Fld.ARC_CCFG_EN k) true else s
  | none => match indexAt a (Reg.ARC_RSRC 8) 0x40 2 with
  | some _ => s.wr a ((old &&& 0x0FFF0FFF) ||| (new &&& 0xF000F000))
  | none =>
    if 0xA3000 ≤ a ∧ a < 0xA3800 then s.modEth fun e => { e with meters := tset e.meters ((a - 0xA3000) / 16) {} }
    else s

/-- The bits of a word that enable a unit of a block with unit 0 only. -/
def enableBits (a : Nat) : Nat :=
  if a = Reg.WAL_CTL ∨ a = Reg.CSC_CTL then 3
  else if a = Reg.MVB_CFG then 0x30000
  else if (indexAt a (Reg.CAN_CTL 0) 0x10 4).isSome ∨ (indexAt a (Reg.SER_CFG 0) 0x10 4).isSome then 1
  else if (indexAt a (Reg.ARC_CCFG 0) 0x80 64).isSome then 0x80000000
  else 0

/-- A 32-bit write of a register that the firewall allows (R13, R17); it does not enable what a failed test holds disabled
(R518). -/
def regEffect (s : State) (a v : Nat) : State :=
  match ringCtlAt a with
  | some (b, q) => s.ringCtlWrite b q v
  | none => match catCtlAt a with
  | some b => if s.sealedCfg then s else if v % 2 = 1 then s.catEnable b else s.catDisable b
  | none => match indexAt a (Reg.LPE_CFG 0) 0x80 8 with
  | some u => s.lpeWriteCfg u v
  | none => match indexAt a (Reg.ETH_GCLCTL 0) 0x10 8 with
  | some p => s.gclCommit p v
  | none => match layRow a with
  | some r =>
    if s.writeIgnored a then s
    else
      let old := s.rd a
      let new := maskWrite r s.sealedCfg old v
      let new := if s.heldDisabled (a / 0x10000) 0 then new &&& (0xFFFFFFFF ^^^ enableBits a) else new
      (s.wr a new).writeAfter a old new
  | none => s

/-- A store to the doorbell page: doorbells are 32-bit writes, and one of another size has no effect and is counted (R37, R238,
R580; DESIGN CHOICE, assumption 26). -/
def dblStore (s : State) (k : Cls) (a : Nat) (bs : List Byte) : State :=
  if bs.length = 4 then s.dblEffect k a (leNat bs)
  else if a % 0x10000 / 0x100 < 27 then s.doorbellError (a % 0x10000 / 0x100)
  else s

/-- The register words that an access of `n` bytes at offset `a` touches. -/
def wordsOf (a n : Nat) : List Nat := (List.range ((a + n - 1) / 4 - a / 4 + 1)).map fun i => (a / 4 + i) * 4

/-- The words of an access that it writes whole, with their values: one that it writes in part keeps its value (R16; DESIGN
CHOICE, assumption 26). -/
def wholeWords (a : Nat) (bs : List Byte) : List (Nat × Nat) :=
  ((wordsOf a bs.length).filter fun w => decide (a ≤ w ∧ w + 4 ≤ a + bs.length)).map fun w =>
    (w, leNat ((bs.drop (w - a)).take 4))

end State

end Sys2Proof.Machine
end

