-- ==== Sys2Proof/Machine/Fences.lean ====
section
/-! DEFINITION. Inbound reads and messages, and the request of a self-test with the fences that it closes (R46, R431, R513 to
R517). -/

namespace Sys2Proof.Machine

/-- The physical address that an offset of a window reaches on the far module (R430). -/
def windowTarget (o : Nat) : Option Nat :=
  if o < 0x3E0000000 then some o
  else if 0x3F0000000 ≤ o ∧ o < 0x3F01B0000 then some (0xF000000000 + (o - 0x3F0000000))
  else none

/-- The physical address of `n` bytes from an offset of a window: all of them in one target (R430). -/
def windowRange (o n : Nat) : Option Nat :=
  match windowTarget o, windowTarget (o + (max 1 n - 1)) with
  | some a, some b => if b = a + (max 1 n - 1) then some a else none
  | _, _ => none

/-- The credit type and the payload of an inbound transaction. -/
def cscCredit (t : CscTxn) : Nat × Nat :=
  if t.write then (0, if t.mailbox.isSome then 4 else t.bytes.length) else (1, if t.amo then t.size else 0)

/-- Whether a unit exists (R515): 16 Courier channels, 8 Loupe units, 4 application pairs, TC as unit 2 of TRIAD, and unit
0 of every other block. -/
def unitExists (blk unit : Nat) : Bool :=
  match blk with
  | 0x0F => decide (unit < 16)
  | 0x10 => decide (unit < 8)
  | 0x03 => decide (unit < 4)
  | 0x02 => unit == 2
  | b => decide (b < 27) && unit == 0

namespace State

/-! ### Inbound reads and messages (R430, R431, R439) -/

/-- An interrupt message of another module reaches its mailbox (R433, R439). -/
def inMessage (s : State) (box msg : Nat) : State := if box ≤ 8 then s.interrupt box msg else s

/-- A read of another module's firewall, map and PMA set: 0 where it passes (R431). -/
def inCheck (s : State) (write : Bool) (t : CscTxn) : Nat :=
  match windowRange t.offset (if t.write then t.bytes.length else t.size) with
  | none => 0x10
  | some a => s.rangeCheck .x write a (if t.write then t.bytes.length else t.size)

/-- An inbound read returns its completion; one of a pop register is a pop read (R241, R431, R434). -/
def inRead (s : State) (d : Nat) (t : CscTxn) : State :=
  match windowRange t.offset t.size with
  | none => (s.cplOut d 0).respond 0x10 0
  | some a =>
    let st := s.rangeCheck .x false a t.size
    if st = 0x14 then (s.cplOut d 0).fwRefuse .x a false
    else if st ≠ 0 then (s.cplOut d 0).respond st 0
    else match popAt a with
      | some q => s.popRead q ⟨.x, t.pos⟩ (a - 0xF000000000) (t.size == 8)
      | none =>
        let bs := s.busRead a t.size
        ((s.cplOut d t.size).lpeFeed 5 d bs).respond 0 (leNat bs)

/-! ### Fences (R46, R516) -/

/-- A write that a closing fence lets end: memory, a doorbell, or register words that are no command words. -/
def plainStore (s : State) (req : Requester) (a : Nat) (bs : List Byte) : State :=
  match regionOf a with
  | some (.block _) =>
    let o := a - 0xF000000000
    if (wordsOf o bs.length).any fun w => !s.fwWrite req.cls w then s.fwRefuse req.cls a true
    else if o / 0x10000 = 0x19 then s.dblStore req.cls o bs
    else (wholeWords o bs).foldl (fun (s : State) x => s.regEffect x.1 x.2) s
  | some (.cascade p) => s.farPost p a bs
  | _ => s.memWrite a bs

/-- The pop reads of a hart in flight at a queue are accepted one after the other. -/
def popFinish (s : State) (h : Nat) (q : PopQueue) : Nat → State
  | 0 => s
  | n + 1 => match (tget s.pops (popKey q)).inFlight with
    | some r => if s.ofHart h r then popFinish ((s.popRemove q).popNext q) h q n else s
    | none => s

/-- What a hart held back is done. -/
def finishParked (s : State) (h : Nat) (x : Nat × Parked) : State :=
  match x.2 with
  | .store a bs =>
    match regionOf a with
    | some (.block _) => (s.drain h).plainStore ⟨s.coreCls x.1, x.1⟩ a bs
    | _ => s.coreStore x.1 a bs
  | .fence => s.drain h
  | .pop _ _ _ => s

/-- Before a pair is tested, what its hart has in progress completes: pop reads, stores, requests in the fabric, and the
write-back of its L1; a pop read that waits behind another requester's returns without an entry (R46). -/
def finishCore (s : State) (h : Nat) : State :=
  let s := s.pops.foldl (fun (s : State) x => match popOf x.1 with
    | some q => s.popFinish h q (x.2.waiting.length + 1)
    | none => s) s
  let s := s.dropReads (s.ofHart h)
  let mine := s.app.parked.filter fun x => s.hartOf x.1 == h
  let s := s.modApp fun a => { a with parked := a.parked.filter fun x => s.hartOf x.1 != h }
  let s := (mine.foldl (fun (s : State) x => s.finishParked h x) s).drain h
  let s := (s.app.waits.filter (s.srcOfHart h)).foldl (fun (s : State) w => s.grant w) s
  s.modApp fun a => { a with l1Undo := a.l1Undo.filter fun u => decide (u.1 ≠ h) }

/-- An inbound request leaves the buffer in which it waited: its credits are returned, if its link is still the one it came over
(R444). -/
def leaveBuffer (s : State) (x : Option Nat × CscTxn) : State :=
  match x.1 with
  | some d => s.creditFree d (cscCredit x.2).1 (cscCredit x.2).2
  | none => s

/-- An inbound request that waited for a lock ends as the fence of the bridge closes: an AMO, which has no lock, with ABORTED. -/
def finishInbound (s : State) (d : Nat) (t : CscTxn) : State :=
  match t.mailbox with
  | some m => s.inMessage m.1 m.2
  | none =>
    if !t.write then (if t.amo then s.cplOut d 0 else s.inRead d t)
    else match windowRange t.offset t.bytes.length with
      | none => s
      | some a =>
        let st := s.inCheck true t
        if st = 0x14 then (s.fwRefuse .x a true).inc64 Reg.CSC_INPWREF
        else if st ≠ 0 then s else s.plainStore ⟨.x, t.pos⟩ a t.bytes

/-- The fence of the bridge before its test (R46): requests that waited for a lock are performed, and those it has sent end; the
switch runs on, and the links stay as they are (R427). -/
def fenceCascade (s : State) : State :=
  let l := s.csc.inWait
  let s := s.modCsc fun c => { c with lockBy := none, amoDone := false, waiting := [], debt := [], inWait := [] }
  let s := l.foldl (fun (s : State) x => (s.leaveBuffer x).finishInbound (x.1.getD 0) x.2) s
  (s.dropOpen 0).dropOpen 1


/-- Whether the condition of the isolable set holds for a unit now (R515). -/
def isolable (s : State) (blk unit : Nat) : Bool :=
  match blk with
  | 0x0F => decide (unit < 16) && s.getF (Fld.CRR_CHSTAT_STATE unit) == 1
  | 0x10 => decide (unit < 8) && !s.bit (Fld.LPE_CFG_EN unit)
  | 0x03 => decide (unit < 4) && s.pairState unit == 0
  | 0x02 => unit == 2 && s.triadMode == 3
  | _ => false

/-- Why a request is refused, the first code of R513 that holds; 0 where it is accepted. -/
def steRefusal (s : State) (blk unit : Nat) : Nat :=
  let loan := blk == 0x02 && unit == 2 && s.triadMode == 3
  if s.lcState = 4 then 4
  else if s.lcState = 3 ∧ !s.isolable blk unit then 5
  else if s.getF Fld.STE_STATUS_STATE ≠ 0 then 6
  else if startOnly blk && !loan then 7
  else if !unitExists blk unit || s.heldDisabled blk unit then 8
  else 0

/-- The outputs that a measurement channel has ready go to its ring, and the channel stands still. -/
def measHalt (s : State) (m : Nat) : State :=
  let c := s.measCh m
  if !c.en then s
  else (c.ready.foldl (fun s o => s.measWrite m o) s).modMc m fun c => { c with
    en := false, run := none, ready := [], batch := [], frozen := none, est := 0 }

/-- Before a unit is isolated, what is in progress in it completes or returns with a status (R46, R516). -/
def fence (s : State) (blk unit : Nat) : State :=
  match blk with
  | 0x02 => s.modTriad fun t => { t with loanTc := none }
  | 0x03 =>
    let s : State := { s with steWas := s.pairState unit }
    let s := (s.finishCore (2 * unit)).finishCore (2 * unit + 1)
    s.setF (Fld.APC_PAIRSTAT_STATE unit) 3
  | 0x07 => let s := s.stopRefresh; { s with fio := fioReset s.fio }
  | 0x08 => (List.range 16).foldl (fun s m => s.measHalt m) s
  | 0x09 => (s.walOff 0).walOff 1
  | 0x0A =>
    let s := (List.range 11).foldl (fun s p => s.linkFlush p) s
    let s := (tget s.eth.queues 88).foldl (fun s _ => s.rxDrop 10 10) s
    s.modEth fun e => { e with queues := tset e.queues 88 [], fdb := [], meters := [], frer := [], frerSeq := [] }
  | 0x0B => s.engineDrain.modBus fun b => { b with recs := b.recs.filter fun x => decide (x.1 / 65536 ≠ 0x0B) }
  | 0x0C => (s.serFlush .mvb 0).modBus fun b => { b with
      recs := b.recs.filter (fun x => decide (x.1 / 65536 ≠ 0x0C)), mvbBad := [], mvbGood := [] }
  | 0x0D => ((List.range 4).foldl (fun s u => s.serFlush .can u) s).modBus fun b => { b with
      recs := b.recs.filter fun x => decide (x.1 / 65536 ≠ 0x0D) }
  | 0x0E => ((List.range 4).foldl (fun s u => s.serFlush .ser u) s).modBus fun b => { b with
      recs := b.recs.filter fun x => decide (x.1 / 65536 ≠ 0x0E) }
  | 0x0F =>
    let s := match s.chain unit with
      | none => s
      | some x =>
        let s := if x.desc.isEmpty then s else s.crrWriteBack unit x.addr 0x30 (crrFlags x.desc) 0
        s.crrEndChain unit x 0x30
    s.setF (Fld.CRR_CHSTAT_STATE unit) 3
  | 0x10 => s.lpeDrain unit
  | 0x11 => s.fenceCascade
  | 0x12 => s.modArc fun a => { a with last := [] }
  | 0x18 =>
    let s : State := { s with inv := { s.inv with bank0 := [], bank1 := [], lastBank := none } }
    [0, 1].foldl (fun s b =>
      (((s.wr (Reg.INV_B_ID b) 0).wr64 (Reg.INV_B_MT b) 0).wr64 (Reg.INV_B_SEQ b) 0).wr (Reg.INV_B_INFO b) 0) s
  | _ => s

/-- An accepted request: the fences of the unit close and the test runs (R516). -/
def steStart (s : State) (blk unit : Nat) : State :=
  let s := s.fence blk unit
  ((s.setF Fld.STE_STATUS_BLOCK blk).setF Fld.STE_STATUS_UNIT unit).setF Fld.STE_STATUS_STATE 2

/-- A keyed write of STE_REQ (R513). -/
def steRequest (s : State) (blk unit : Nat) : State :=
  let code := s.steRefusal blk unit
  let s := (s.setF Fld.STE_RESULT_BLOCK blk).setF Fld.STE_RESULT_UNIT unit
  if code = 0 then (s.setF Fld.STE_RESULT_CODE 1).steStart blk unit
  else ((s.setF Fld.STE_RESULT_CODE code).inc64 Reg.STE_REFUSED).emit 0x14 0x1503 2 60 (p4 [blk, unit, code])

end State

end Sys2Proof.Machine
end

