-- ==== Sys2Proof/Machine/Registers.lean ====
section
/-! DEFINITION. The command words of the register blocks, one access to them (R16, R37, R246), stores to any address of the map,
and the commands that are such stores. -/

namespace Sys2Proof.Machine

namespace State

/-! ### Words whose write is a command -/

/-- What a write of a command word does: the word carries the operands that the row of its command has (R70, R81, R106, R113,
R123, R143, R152, R155, R157, R172, R194, R207, R214, R226, R302, R303, R416, R467, R490, R506, R513). What a row says beside the
word is a free value here: the staged change, the nonces and the success of a store write, and how far a copy of Courier had come
(assumption 35). -/
def special (s : State) (req : Requester) (a v : Nat) : Option State :=
  let key := v / 256 % 256
  if a = Reg.TIM_STEPCTL then some (s.stepAccept key (v.testBit 0))
  else if a = Reg.INV_ANN_GO then some (s.annGo (v.testBit 0))
  else if a = Reg.TRIAD_REINT then some (s.reintWrite (v % 4))
  else if a = Reg.TRIAD_SAFEREQ then some (s.safeReqWrite key (v % 256))
  else if a = Reg.TRIAD_LOAN then some (if v.testBit 0 then s.loanRequest else s.loanCancel)
  else if a = Reg.TRIAD_LOANRET then some (s.loanReturn (v.testBit 0))
  else if a = Reg.GAR_ACK then some (s.ackWrite (v % 256))
  else if a = Reg.GAR_BRKTEST then some (s.brkTestWrite key (v % 4))
  else if a = Reg.GAR_PERMIT then some (s.permitWrite key (v % 16))
  else if a = Reg.GAR_WITHDRAW then some (s.withdrawWrite (v % 16))
  else if a = Reg.GAR_CFGCMD then some (s.cfgWord v)
  else if a = Reg.RTS_DONE then some (s.doneWrite (v / 65536 % 16) (v % 65536) [])
  else if a = Reg.RTS_OCCTL then
    some (if v.testBit 1 then s.ocCancel
      else if v.testBit 0 then s.freshCtr.ocArm (Config.stagedChange s.freeCtr)
      else s)
  else if a = Reg.STE_REQ then some (if v / 0x1000000 = 0x5E then s.steRequest (v / 256 % 256) (v / 16 % 16) else s)
  else if a = Reg.LCS_CMD then some (if v / 0x1000000 = 0xC9 then s.lcsWord v else s)
  else if a = Reg.RTS_FORCEUPD then some (s.forceUpdWrite (v % 256))
  else if a = Reg.APC_RESTART then some (s.apcRestart req key (v % 256))
  else if a = Reg.MEAS_SYNCCMD then
    let s := if v.testBit 0 then s.syncNow key else s
    let s := if v.testBit 1 then s.syncArm key else s
    some (if v.testBit 2 then s.syncDisarm key else s)
  else if a = Reg.ARC_ERASE then some (s.eraseWrite key (v % 64))
  else if a / 8 * 8 = Reg.ARC_SEAL then some (s.sealWrite (if a % 8 = 0 then v else v * 4294967296))
  else if a / 8 * 8 = Reg.ARC_UNSEAL then some (s.unsealWrite (if a % 8 = 0 then v else v * 4294967296))
  else if a / 8 * 8 = Reg.PRV_RDSEQ then
    some (s.rdSeqWrite (if a % 8 = 0 then v + 4294967296 * s.rd (a + 4) else s.rd (a - 4) + 4294967296 * v))
  else if a = Reg.RPL_CTL then
    let s := if v.testBit 0 then s.handoverArm key else s
    some (if v.testBit 1 then s.handoverCancel key else s)
  else match indexAt a (Reg.CRR_RCTL 0) 0x40 16 with
    | some c =>
      if v.testBit 31 || !s.ringOn .crr c then none
      else
        some (((s.freshCtr.crrStop (fun s a bs => s.plainStore ⟨.c, c⟩ a bs) c (Config.crrWritten s.freeCtr)).wr
          (Reg.CRR_RCTL c) (v &&& 0x11F)))
    | none => none

/-- What an 8-byte write of a 64-bit command register does (R301, R463, R464, R542). -/
def special64 (s : State) (a : Nat) (bs : List Byte) : Option State :=
  let v := leNat bs
  if bs.length ≠ 8 then none
  else if a = Reg.ARC_SEAL then some (s.sealWrite v)
  else if a = Reg.ARC_UNSEAL then some (s.unsealWrite v)
  else if a = Reg.PRV_RDSEQ then some (s.rdSeqWrite v)
  else match indexAt a (Reg.MEAS_RINGRD 0) (Reg.MEAS_RINGRD 1 - Reg.MEAS_RINGRD 0) 16 with
    | some m => some (s.ringRdWrite m v)
    | none => none

/-- One access to register words or to the doorbell page at offset `a`: the firewall judges it whole, then the doorbell, the
block under test, or the words, which a Loupe unit over them sees (R37, R246, R419, R517). -/
def regStore (s : State) (req : Requester) (a : Nat) (bs : List Byte) : State :=
  let ws := wordsOf a bs.length
  if ws.any fun w => !s.fwWrite req.cls w then s.fwRefuse req.cls (regPhys a) true
  else if a / 0x10000 = 0x19 then ((s.lpeWrite (regPhys a) bs).dblStore req.cls a bs).respond 0 0
  else if ws.any s.underTest then (s.inc64 Reg.STE_BLOCKEDACC).respond 0 0
  else
    let s := s.lpeWrite (regPhys a) bs
    let s := match s.special64 a bs with
      | some t => t
      | none => (wholeWords a bs).foldl (fun (s : State) (x : Nat × Nat) => match s.special req x.1 x.2 with
          | some t => t
          | none => s.regEffect x.1 x.2) s
    s.respond 0 0

/-! ### Any address of the map -/

/-- Bytes that map and firewall let pass reach their target: a register access of up to 8 bytes as one, a longer copy word by
word; another module; or memory. -/
def busWrite (s : State) (req : Requester) (a : Nat) (bs : List Byte) : State :=
  match regionOf a with
  | some (.block _) =>
    let o := a - 0xF000000000
    if bs.length ≤ 8 then s.regStore req o bs
    else (pieces 4 o bs.length bs).foldl (fun (s : State) (x : Nat × List Byte) => s.regStore req x.1 x.2) s
  | some (.cascade p) => s.farPost p a bs
  | _ => s.memWrite a bs

/-- A store that nothing holds back (R27, R231, R232, R246): a core's stores leave in program order. -/
def storeNow (s : State) (req : Requester) (a : Nat) (bs : List Byte) : State :=
  match regionOf a with
  | some (.block _) => (s.prior req).busWrite req a bs
  | _ =>
    if isApp req then s.coreStore req.core a bs
    else
      let st := s.rangeCheck req.cls true a bs.length
      if st = 0x10 then (if isCore req.cls then s.raise .accessFault else s.respond 0x10 0)
      else if st ≠ 0 then s.fwRefuse req.cls a true
      else (s.storeTo a bs).respond 0 0

/-- A store by any requester: one that cannot issue now does not arise; one with release semantics waits until the loads of
its core have been performed, and what follows it waits behind it (R111, R225, R232). -/
def anyStore (s : State) (req : Requester) (a : Nat) (bs : List Byte) : State :=
  if !s.issues req then s
  else if isApp req && s.mustPark (s.hartOf req.core) a then s.park req.core (.store a bs)
  else s.storeNow req a bs

/-- What a core held back is done, or waits on. -/
def unparkOne (s : State) (x : Nat × Parked) : State :=
  let h := s.hartOf x.1
  match x.2 with
  | .store a bs => if s.mustPark h a then s.park x.1 x.2 else s.storeNow ⟨s.coreCls x.1, x.1⟩ a bs
  | .fence => if s.behindParked h then s.park x.1 x.2 else s.drain h
  | .pop q reg wide => if s.behindParked h then s.park x.1 x.2 else s.popRead q ⟨s.coreCls x.1, x.1⟩ reg wide

/-- After a load has been performed, what the cores held back is done in program order, as far as no load holds it back (R231,
R232, R238). -/
def unpark (s : State) : State :=
  s.app.parked.foldl (fun s x => s.unparkOne x) (s.modApp fun a => { a with parked := [] })

/-- A store of a core at a virtual address: in its mode, through its address translation, which may end in an exception (R223;
PRESUMED, assumption 131). -/
def releaseStore (s : State) (c : CoreAt) (va : Nat) (bs : List Byte) : State :=
  let n := c.core.val
  if !s.issues ⟨s.coreCls n, n⟩ then s
  else
  let s := s.modApp fun a => { a with cores := tmod a.cores n fun x => { x with mode := c.mode, satp := c.satp } }
  match s.translate c va with
  | .at_ a => s.anyStore ⟨s.coreCls n, n⟩ a bs
  | .pageFault => s.raise .storePageFault
  | .accessFault => s.raise .accessFault

end State

/-! ### The commands -/

/-- CATALOGUE_INVALIDATE (R33 to R37, R232, R517): a store to the doorbell of the catalogue. -/
def execCatalogueInvalidate (dt : Nat) (req : Requester) (blk : CatBlk) (index : BitVec 16) (s : State) :
    Host.Outcome State Fault Refusal :=
  .next ((s.elapse dt).anyStore req (regPhys (doorbell (catIndex blk) 0)) (leBytes 4 index.toNat))

/-- RING_PRODUCER (R39, R42, R232, R392, R517): a store to the producer doorbell of the block. -/
def execRingProducer (dt : Nat) (req : Requester) (blk : RingBlk) (ring tail : BitVec 16) (s : State) :
    Host.Outcome State Fault Refusal :=
  .next ((s.elapse dt).anyStore req (regPhys (doorbell (ringIndex blk) 8)) (leBytes 4 (ring.toNat * 65536 + tail.toNat)))

/-- LPE_RESTART (R421, R426, R517): a store to the restart doorbell of Loupe. -/
def execLpeRestart (dt : Nat) (req : Requester) (mask : Word) (s : State) : Host.Outcome State Fault Refusal :=
  .next ((s.elapse dt).anyStore req (regPhys (doorbell 0x10 0x10)) (leBytes 4 mask.toNat))

/-- RELEASE_STORE (R223, R231, R232): to the doorbell page or to a page with release semantics. -/
def execReleaseStore (dt : Nat) (core : CoreAt) (addr : Nat) (bytes : List Byte) (s : State) :
    Host.Outcome State Fault Refusal :=
  .next ((s.elapse dt).releaseStore core addr bytes)

/-- REGISTER_WRITE (R13, R16, R17, R246): `addr` is a physical address. A register is written as a word of 4 bytes or an
aligned pair of words; any other address of the map takes a store of 1, 2, 4 or 8 bytes, aligned to its size. -/
def execRegisterWrite (dt : Nat) (req : Requester) (addr size : Nat) (value : BitVec 64) (s : State) :
    Host.Outcome State Fault Refusal :=
  if (size ≠ 1 ∧ size ≠ 2 ∧ size ≠ 4 ∧ size ≠ 8) ∨ addr % size ≠ 0 ∨ 0x10000000000 ≤ addr then .fault .illFormed
  else .next ((s.elapse dt).anyStore req addr (leBytes size value.toNat))

end Sys2Proof.Machine
end

