-- ==== Sys2Proof/Machine/Issue.lean ====
section
/-! DEFINITION. The vote on outbound transactions and their issue (R98 to R104), and the responses of pop reads (R241, R242). -/

namespace Sys2Proof.Machine

namespace State

/-! ### What the voters compare (R98) -/

/-- Whether a transaction is compared with its data: stores, SC and AMOs are, loads, fetches, LR and fences are not. -/
def carriesData (k : Nat) : Bool := k == 0 || k == 4 || decide (16 ≤ k)

/-- A transaction as the voters see it: a 40-bit address, up to 64 bits of data where it carries data, 8 byte enables, and the
attributes. -/
def seenTxn (t : Txn) : Txn :=
  { t with addr := t.addr % 0x10000000000, be := t.be % 256
           data := if carriesData t.kind then t.data % 18446744073709551616 else 0 }

/-- The bytes of a store as its byte enables select them: (address, byte). -/
def storeBytes (addr data be : Nat) : List (Nat × Byte) :=
  (bitsOf 8 be).map fun i => (addr / 8 * 8 + i, BitVec.ofNat 8 (data / 256 ^ i))

/-- The first byte that the byte enables select, and how many they select. -/
def beFirst (be : Nat) : Nat := (bitsOf 8 be).headD 0
def beCount (be : Nat) : Nat := (bitsOf 8 be).length

/-- The address of the first selected byte, and the number that the selected bytes of the data spell. -/
def txnAt (t : Txn) : Nat := t.addr / 8 * 8 + beFirst t.be
def txnValue (t : Txn) : Nat := t.data / 256 ^ beFirst t.be % 256 ^ beCount t.be

/-! ### The L1 caches of the lanes (R90, R229) -/

/-- A line enters a cache of 512 lines; the line that entered first leaves a full one (DESIGN CHOICE, assumption 119). -/
def l1Fill (c : List (Nat × List Byte)) (line : Nat) (bs : List Byte) : List (Nat × List Byte) :=
  let c := (c.filter fun x => x.1 != line) ++ [(line, bs)]
  c.drop (c.length - 512)

/-- A store writes through: a line that the cache holds follows it, and no line is allocated. -/
def l1Store (c : List (Nat × List Byte)) (st : List (Nat × Byte)) : List (Nat × List Byte) :=
  c.map fun x => (x.1, x.2.zipIdx.map fun b => ((st.find? fun y => y.1 == x.1 * 64 + b.2).map fun y => y.2).getD b.1)

/-- What an issued transaction leaves in the caches of the active lanes: a load of a TCACHE page or of Vault and a fetch fill
their line, a store, an AMO and an SC that succeeded update it, and FENCE.I invalidates the instruction cache (R229, R234). -/
def l1Follow (s : State) (t : Txn) : State :=
  let line := t.addr / 64
  let wrote := t.kind == 0 || (t.kind == 4 && s.resp.data == 0) || decide (16 ≤ t.kind)
  let f (x : LaneSt) : LaneSt :=
    if t.kind = 1 ∧ (s.pmaOf t.addr).tcache then { x with l1d := l1Fill x.l1d line (s.memRead (line * 64) 64) }
    else if t.kind = 2 then { x with l1i := l1Fill x.l1i line (s.memRead (line * 64) 64), predicts := true }
    else if wrote then
      { x with l1d := l1Store x.l1d ((storeBytes t.addr 0 t.be).map fun b => (b.1, s.memGet b.1)) }
    else if t.kind = 6 then { x with l1i := [] }
    else x
  s.activeLanes.foldl (fun s l => s.modLane l f) s

/-! ### Issue (R101) -/

/-- An access that was not refused answers a value. -/
def answered (s : State) (v : Nat) : State := if s.resp.exc.isSome then s else s.respond 0 v

/-- An LR of the Triad reserves its address exactly; a store of another requester does not end the reservation (DESIGN CHOICE,
assumption 118). -/
def reserve (s : State) (a : Nat) : State := s.modTriad fun x => { x with reservation := some a }

/-- Whether an SC succeeds; the reservation is gone after it. -/
def reserved (s : State) (a : Nat) : Bool := s.triad.reservation == some a
def unreserve (s : State) : State := s.modTriad fun x => { x with reservation := none }

/-- The Triad as a requester (R243). -/
def triadReq (s : State) : Requester := ⟨.t, s.triad.vfEra⟩

/-- A voted access to the register blocks (R16, R101, R239, R241): a load answers the bytes it selects, one of a pop register
is a pop read; a store and what an AMO or an SC writes act at the target. -/
def voteBlock (s : State) (t : Txn) : State :=
  let a := txnAt t
  let n := beCount t.be
  let atomic := t.kind == 3 || t.kind == 4 || decide (16 ≤ t.kind)
  let old := leNat (s.busRead a n)
  let store (s : State) (v : Nat) : State := s.anyStore s.triadReq a (leBytes n v)
  let back (s : State) : State := s.toLanes s.fwStatus
  if atomic && s.strictPage a then (s.raise .accessFault).toLanes 0x11
  else if t.kind = 0 then back (store s (txnValue t))
  else if t.kind = 4 then
    if s.reserved a then back ((store s.unreserve (txnValue t)).answered 0)
    else (s.unreserve.respond 0 1).toLanes 0
  else if 16 ≤ t.kind then back ((store s (amoValue t.kind (8 * n) old (txnValue t))).answered old)
  else match popAt a with
    | some q => if t.kind = 1 then s.popRead q s.triadReq (a - 0xF000000000) (n == 8) else (s.respond 0 0).toLanes 0
    | none =>
      let s := if t.kind = 3 then s.reserve a else s
      (s.respond 0 old).toLanes 0

/-- A voted access to memory of this module (R93, R101). -/
def voteMemory (s : State) (t : Txn) : State :=
  let a := txnAt t
  let n := beCount t.be
  let old := s.memNat a n
  if t.kind = 0 then ((storeBytes t.addr t.data t.be).foldl (fun s x => s.memWrite x.1 [x.2]) s).respond 0 0
  else if t.kind = 3 then (s.reserve a).respond 0 old
  else if t.kind = 4 then
    if s.reserved a then (s.unreserve.memWrite a (leBytes n (txnValue t))).respond 0 0 else s.unreserve.respond 0 1
  else if 16 ≤ t.kind then (s.memWrite a (leBytes n (amoValue t.kind (8 * n) old (txnValue t)))).respond 0 old
  else s.respond 0 old

/-- The effect of a voted transaction at its target, with the answer through the boundary; a far read or AMO is answered by its
completion (R101, R239, R432, R434). -/
def voteTarget (s : State) (t : Txn) : State :=
  let atomic := t.kind == 3 || t.kind == 4 || decide (16 ≤ t.kind)
  let write := t.kind == 0 || t.kind == 4 || decide (16 ≤ t.kind)
  match regionOf t.addr with
  | some (.block _) => s.voteBlock t
  | some (.cascade p) =>
    let st := s.memCheck .t write t.addr
    let n := beCount t.be
    if st = 0x14 then (s.fwRefuse .t t.addr write).toLanes st
    else if st ≠ 0 then (s.raise .accessFault).toLanes st
    else if t.kind = 2 ∨ t.kind = 3 ∨ t.kind = 4 ∨ (16 ≤ t.kind ∧ n ≠ 4 ∧ n ≠ 8) then (s.raise .accessFault).toLanes 0x10
    else if t.kind = 0 then ((s.farPost p (txnAt t) ((storeBytes t.addr t.data t.be).map fun x => x.2)).respond 0 0).toLanes 0
    else if 16 ≤ t.kind then s.farAmo p (txnAt t) n s.triadReq
    else s.farRead p (txnAt t) n s.triadReq
  | _ =>
    let st := s.memCheck .t write t.addr
    if st = 0x14 then (s.fwRefuse .t t.addr write).toLanes st
    else if st ≠ 0 then (s.raise .accessFault).toLanes st
    else if atomic && s.strictPage t.addr then (s.raise .accessFault).toLanes 0x11
    else (s.voteMemory t).toLanes 0

/-- Issue the majority's transaction once; fences carry no access and are not counted (R101, R130). One that its target refuses
leaves nothing in the caches (R246). -/
def issueTxn (s : State) (t : Txn) : State :=
  let s := s.modTriad fun x => { x with txnIndex := x.txnIndex + 1 }
  if isFenceKind t.kind then s.l1Follow t
  else
    let s := (s.inc64 Reg.TRIAD_TXVOTED).voteTarget t
    if s.resp.exc.isSome then s else s.l1Follow t

/-- The transaction k of every active lane leaves its queue, and the majority's is issued; nothing is issued where the majority
presents nothing, and transaction k is still to come (R99, R100). -/
def issueOpt (s : State) : Option Txn → State
  | some t => (s.activeLanes.foldl (fun s l => s.modLane l fun x => { x with queue := x.queue.drop 1 }) s).issueTxn t
  | none => s

/-! ### The vote (R99 to R104) -/

/-- The lanes place transactions in their queues of 8 entries (R99). -/
def place (s : State) (b : Ballot) : State :=
  let of (l : Nat) : List Txn := if l = 0 then b.ta else if l = 1 then b.tb else b.tc
  s.activeLanes.foldl (fun s l => s.modLane l fun x => { x with queue := (x.queue ++ of l).take 8 }) s

/-- What a lane presents: the head of its queue as the voters see it, or nothing. -/
def presented (s : State) (lane : Nat) : Option Txn := (tget s.triad.lanes lane).queue.head?.map seenTxn

/-- The address of a presented transaction, 0 for nothing. -/
def txnAddr : Option Txn → Nat
  | some t => t.addr
  | none => 0

/-- Mask the minority lane: cause 1 if it presented a transaction, 2 if it presented nothing (R100, R103). Where the addresses
differ the one reported is the majority's, and the lane's own only where the majority presented nothing (DESIGN CHOICE,
assumption 118). -/
def maskMinority (s : State) (lane : Nat) (mine major : Option Txn) : State :=
  s.maskLane lane (if mine.isSome then 1 else 2) (txnAddr (if major.isSome then major else mine))

/-- The outcome of a vote on transaction k over the heads of the queues (R99, R100, R102, R103). -/
def voteHeads (s : State) (agree : Bool) : State :=
  match s.activeLanes with
  | [x, y, z] =>
    let vx := s.presented x
    let vy := s.presented y
    let vz := s.presented z
    if vx.isNone ∧ vy.isNone ∧ vz.isNone then s
    else if !agree then s.triadSafe 5 0
    else if vx = vy ∧ vy = vz then s.issueOpt vx
    else if vx = vy then (s.maskMinority z vz vx).issueOpt vx
    else if vx = vz then (s.maskMinority y vy vx).issueOpt vx
    else if vy = vz then (s.maskMinority x vx vy).issueOpt vy
    else s.triadSafe 1 0
  | [x, y] =>
    let vx := s.presented x
    let vy := s.presented y
    if vx.isNone ∧ vy.isNone then s
    else if !agree then s.triadSafe 5 0
    else if vx = vy then s.issueOpt vx
    else s.triadSafe s.pairCause 0
  | _ => s

/-- The voters decide once every active lane has presented transaction k (R99). -/
def vote (s : State) (b : Ballot) : State :=
  let s := s.place b
  if s.activeLanes.all fun l => (s.presented l).isSome then s.voteHeads b.votersAgree else s

/-- Or 16 cycles after the first lane presented it: a lane that has not counts as presenting nothing (R100). -/
def voteLate (s : State) (b : Ballot) : State := (s.place b).voteHeads b.votersAgree

end State

/-! ### The commands -/

/-- VOTE_DECISION (R99, R102, R103). -/
def execVoteDecision (dt : Nat) (b : Ballot) (s : State) : Host.Outcome State Fault Refusal :=
  .next ((s.elapse dt).vote b)

/-- VOTE_TIMEOUT (R100). -/
def execVoteTimeout (dt : Nat) (b : Ballot) (s : State) : Host.Outcome State Fault Refusal :=
  .next ((s.elapse dt).voteLate b)

/-- POP_RESPONSE_ACCEPTED (R232, R241, R242): the response of the Triad is accepted at the boundary sample register. -/
def execPopResponseAccepted (dt : Nat) (q : PopQueue) (s : State) : Host.Outcome State Fault Refusal :=
  let s := s.elapse dt
  let p := tget s.pops (popKey q)
  .next (match p.inFlight with
    | some req =>
      let s := if req.cls = .t then s.enter ⟨.readResponse, p.data, 0⟩ else s
      ((s.popRemove q).popNext q).unpark
    | none => s)

/-- POP_RESPONSE_DISCARDED (R241, R242): the entry is the head again, unchanged. -/
def execPopResponseDiscarded (dt : Nat) (q : PopQueue) (s : State) : Host.Outcome State Fault Refusal :=
  .next ((s.elapse dt).popNext q).unpark

end Sys2Proof.Machine
end

