-- ==== Sys2Proof/Machine/Move.lean ====
section
/-! DEFINITION. What a Courier descriptor moves, checks and reads back (R403, R408, R410 to R414, R416). -/

namespace Sys2Proof.Machine

namespace State

/-- What Courier writes goes to any address of the map. -/
def crrStore (c : Nat) (s : State) (a : Nat) (bs : List Byte) : State := s.busWrite ⟨.c, c⟩ a bs

/-- The aligned word that holds the byte written last, with the bytes that the copy wrote in it (R410). -/
def crrLast (d data : List Byte) : Nat × List Byte :=
  let lastAt := if crrDown d then crrDst d else crrDst d + crrLen d - 1
  let w := lastAt / 8 * 8
  let lo := max w (crrDst d)
  let hi := min (w + 8) (crrDst d + crrLen d)
  (lo, (data.drop (lo - crrDst d)).take (hi - lo))

/-- The data and the check value of a descriptor are done (R403, R410, R411, R414): `data` is copied, `checked` was folded, and
the word to be compared is read after the copy. With RDBK the words are read back next. -/
def crrDone (s : State) (c : Nat) (x : CrrChain) (data checked : List Byte) : State :=
  let d := x.desc
  let p := chkParam x.cfg x.poly x.init
  let chk := crrChk d
  let start := if crrCont d then x.running.getD p.init else p.init
  let run := chkFold p start checked
  let res := chkResult p run
  let s := s.crrMoveBy (crrStore c) c x.movedAt d data data.length
  let word := leNat ((s.crrRead c (crrWord d) 8).getD [])
  let s := if chk && !crrCmp d then s.crrStore c (crrWord d) (leBytes 8 res) else s
  let bad := chk && crrCmp d && word % 2 ^ p.w != res
  let x := { x with running := if chk then some run else x.running, flags := crrFlags d, result := if bad then 0x41 else 0
                    expect := [crrLast d data] ++ if chk && !crrCmp d then [(crrWord d, leBytes 8 res)] else [] }
  let s := s.farClear c
  if crrRdbk d then (x.expect.foldl (fun s w => s.farAsk c w.1 w.2.length) s).setChain c (some { x with stage := .readback })
  else s.crrEndDesc c x x.result x.flags (crrLen d)

/-- Whether the bytes that a descriptor copies and checks, and its word, have come; those of another module are the operands'. -/
def crrCame (s : State) (c : Nat) (d far : List Byte) (farWord : Nat) : Bool :=
  let data := s.crrRead (crrWho c d) (crrSrc d) (crrLen d)
  let word := s.crrRead c (crrWord d) 8
  data.isSome && (s.crrRead c (crrSrc d) (crrLen d)).isSome && (!isFar (crrSrc d) || data == some far) &&
    (!(crrChk d && crrCmp d && isFar (crrWord d)) || word.map leNat == some farWord)

/-- CRR_DESCRIPTOR_DONE at a channel whose descriptor moves, once all it reads has come. -/
def crrFinish (s : State) (c : Nat) (x : CrrChain) (far : List Byte) (farWord : Nat) : State :=
  if s.crrCame c x.desc far farWord then
    s.crrDone c x ((s.crrRead (crrWho c x.desc) (crrSrc x.desc) (crrLen x.desc)).getD [])
      ((s.crrRead c (crrSrc x.desc) (crrLen x.desc)).getD [])
  else s

/-- Whether a word that is read back holds what was written (R410). -/
def crrSame (s : State) (c : Nat) (w : Nat × List Byte) : Bool := s.crrRead c w.1 w.2.length == some w.2

/-- The read-back compares what it wrote with what is there (R410, R412), once the words on another module have come; `equal` is
their answer. -/
def crrReadBack (s : State) (c : Nat) (x : CrrChain) (equal : Bool) : State :=
  let far := x.expect.filter fun w => isFar w.1
  if far.any (fun w => (s.crrRead c w.1 w.2.length).isNone) || (!far.isEmpty && equal != far.all (s.crrSame c)) then s
  else
    let ok := x.expect.all (s.crrSame c)
    (s.farClear c).crrEndDesc c x (if ok then x.result else 0x40) (x.flags + if ok then 8 else 0) (crrLen x.desc)

/-- An error ends the move (R408). A refusal by this module's firewall is counted here, one by another module is counted there
(R246, R431). -/
def crrMoveErr (s : State) (c : Nat) (x : CrrChain) (st n : Nat) : State :=
  let d := x.desc
  let n := min n (crrLen d)
  let s := s.crrPartly (crrStore c) c x.movedAt d n
  let s := if st = 0x14 then s.crrRefuse d else s.readLeaves st .c (crrSrc d) (crrLen d)
  (s.farClear c).crrEndDesc c x st (crrFlags d) n

end State

/-! ### The commands -/

/-- CRR_DESCRIPTOR_DONE (R403 to R405, R410, R411, R413, R414). -/
def execCrrDescriptorDone (dt : Nat) (c : Fin 16) (far : List Byte) (farWord : Nat) (s : State) :
    Host.Outcome State Fault Refusal :=
  let s := s.elapse dt
  .next (match s.chain c.val with
    | some x => if x.stage = .move then s.crrFinish c.val x far farWord else s
    | none => s)

/-- CRR_MOVE_ERROR (R408): `bytesMoved` bytes were written before the error; what has come from another module is in State. -/
def execCrrMoveError (dt : Nat) (c : Fin 16) (ended : ReadEnd) (bytesMoved : Nat) (_far : List Byte) (s : State) :
    Host.Outcome State Fault Refusal :=
  let s := s.elapse dt
  let st := match ended with
    | .ok => 0
    | .ecc => 0x12
    | .addr => 0x10
    | .firewall => 0x14
  .next (match s.chain c.val with
    | some x => if x.stage = .move ∧ st ≠ 0 then s.crrMoveErr c.val x st bytesMoved else s
    | none => s)

/-- CRR_READBACK_DONE (R410, R412). -/
def execCrrReadbackDone (dt : Nat) (c : Fin 16) (equal : Bool) (s : State) : Host.Outcome State Fault Refusal :=
  let s := s.elapse dt
  .next (match s.chain c.val with
    | some x => if x.stage = .readback then s.crrReadBack c.val x equal else s
    | none => s)

/-- CRR_RING_DISABLE (R416): a descriptor that moves has written `bytesMoved` bytes then. -/
def execCrrRingDisable (dt : Nat) (req : Requester) (c : Fin 16) (bytesMoved : Nat) (_far : List Byte) (s : State) :
    Host.Outcome State Fault Refusal :=
  .next ((s.elapse dt).regCmd req (Reg.CRR_RCTL c.val) fun s =>
    s.crrStop (State.crrStore c.val) c.val bytesMoved)

end Sys2Proof.Machine
end

