-- ==== Sys2Proof/Machine/Cascade.lean ====
section
/-! DEFINITION. The Cascade bridge (R430 to R446): inbound transactions, completions and timeouts, locked sequences, the credit
audit, and what the side-band messages do. -/

namespace Sys2Proof.Machine

namespace State

/-- An inbound posted write is performed, or dropped where the map or the firewall refuses it (R430, R431). -/
def inWrite (s : State) (t : CscTxn) : State :=
  match windowRange t.offset t.bytes.length with
  | none => s
  | some a =>
    let st := s.inCheck true t
    let keep := s.resp
    let s :=
      if st = 0 then s.busWrite ⟨.x, t.pos⟩ a t.bytes
      else if st = 0x14 then (s.fwRefuse .x a true).inc64 Reg.CSC_INPWREF
      else s
    { s with resp := keep }

/-- An inbound AMO of the lock's holder is performed once and returns the old value (R239, R431, R442). -/
def inAmo (s : State) (d : Nat) (t : CscTxn) : State :=
  let s := (s.cplOut d t.size).modCsc fun c => { c with amoDone := true }
  match windowRange t.offset t.size with
  | none => s.respond 0x10 0
  | some a =>
    let rd := s.inCheck false t
    let st := if rd = 0 then s.inCheck true { t with write := false } else rd
    if t.size ≠ 4 ∧ t.size ≠ 8 then s.respond 0x10 0
    else if s.strictPage a then s.respond 0x11 0
    else if st = 0x14 then s.fwRefuse .x a (rd == 0)
    else if st ≠ 0 then s.respond st 0
    else
      let old := leNat (s.busRead a t.size)
      (s.busWrite ⟨.x, t.pos⟩ a (leBytes t.size (amoValue t.amoOp (8 * t.size) old (leNat t.bytes % 256 ^ t.size)))).respond 0 old

/-- An admitted inbound transaction is performed; an AMO of a position that does not hold the lock is the one that comes after
its lock was broken, and it is discarded (R442). -/
def inPerform (s : State) (d : Nat) (t : CscTxn) : State :=
  match t.mailbox with
  | some m => s.inMessage m.1 m.2
  | none =>
  if t.write then s.inWrite t
  else if t.amo then
    if (s.csc.lockBy.map fun x => x.1) = some t.pos ∧ s.csc.amoDone = false then s.inAmo d t
    else s
  else s.inRead d t

/-- Whether the inbound port admits a position's requests now (R442). -/
def admits (s : State) (pos : Nat) : Bool :=
  match s.csc.lockBy with
  | some x => x.1 == pos
  | none => true

/-- Requests that waited and are admitted now go on, in order. -/
def admitWaiting (s : State) : State :=
  let go := s.csc.inWait.filter fun x => s.admits x.2.pos
  let s := s.modCsc fun c => { c with inWait := c.inWait.filter fun x => !go.contains x }
  go.foldl (fun (s : State) x => (s.leaveBuffer x).inPerform (x.1.getD 0) x.2) s

/-! ### Locked sequences (R442, R443) -/

/-- The target grants its lock to a position: those that wait now are served before that position again. -/
def grantLock (s : State) (p : Nat) : State :=
  let s := s.modCsc fun c => { c with
    lockBy := some (p, s.time.clock), amoDone := false, waiting := c.waiting.filter (· != p)
    debt := tset c.debt p (c.waiting.filter (· != p)) }
  s.postedOut (s.farPort p) 1

/-- The waiting position that is served next: the lowest of those that owe no other a turn. -/
def nextWaiting (s : State) : Option Nat :=
  (List.range 8).find? fun p => s.csc.waiting.contains p && (tget s.csc.debt p).all fun q => !s.csc.waiting.contains q

/-- The lock ends: LOCK_FREE to those that wait, no one owes its holder a turn, and the next one is granted (R443). -/
def lockEnd (s : State) : State :=
  let s := s.csc.waiting.foldl (fun s p => s.postedOut (s.farPort p) 1) s
  let h := (s.csc.lockBy.map fun x => x.1).getD 8
  let s := s.modCsc fun c => { c with
    lockBy := none, amoDone := false
    debt := c.debt.filterMap fun x =>
      let l := x.2.filter (· != h)
      if l.isEmpty then none else some (x.1, l) }
  let s := match s.nextWaiting with
    | some p => s.grantLock p
    | none => s
  s.admitWaiting

/-- The lock is broken 2 µs after its grant without the AMO: its holder is sent ABORTED (R442). -/
def lockWatch (s : State) : State :=
  match s.csc.lockBy with
  | some (h, at_) =>
    if at_ + 2000 ≤ s.time.clock ∧ s.csc.amoDone = false then
      ((s.inc64 Reg.CSC_LOCKWD).cplOut (s.farPort h) 0).lockEnd
    else s
  | none => s

/-- An inbound transaction arrives (R431, R436, R442, R444). -/
def inbound (s : State) (d : Nat) (t : CscTxn) : State :=
  let s := s.lockWatch
  let s := if t.write then (s.inc64 (Reg.CSC_RXPW d)).lpeFeed 5 (2 + d) t.bytes else s
  let c := cscCredit t
  if s.admits t.pos then (s.creditUse d c.1 c.2).inPerform d t
  else (s.creditHold d c.1 c.2).modCsc fun x => { x with inWait := x.inWait ++ [(some d, t)] }

/-- A LOCK_REQ at the target (R443): granted, or answered with LOCK_RETRY; of two within 64 ns the lower position wins, and the
one answer that the other gets is LOCK_RETRY. -/
def lockReq (s : State) (p : Nat) : State :=
  let s := (s.lockWatch.sideBandIn (s.farPort p)).modCsc fun c => { c with reqAt := tset c.reqAt p s.time.clock }
  let wait (s : State) (q : Nat) : State :=
    s.modCsc fun c => { c with waiting := if c.waiting.contains q then c.waiting else c.waiting ++ [q] }
  match s.csc.lockBy with
  | none =>
    let s := wait s p
    match s.nextWaiting with
    | some q => (s.grantLock q).admitWaiting
    | none => s
  | some (h, _) =>
    if p < h ∧ s.time.clock ≤ tget s.csc.reqAt h + 64 ∧ s.csc.amoDone = false ∧ !(tget s.csc.debt p).contains h then
      ((wait (s.modCsc fun c => { c with lockBy := none }) h).grantLock p).admitWaiting
    else (wait s p).postedOut (s.farPort p) 1

/-- The holder's bridge receives LOCK_GRANT and sends the AMO, once a tag is free (R434, R442); `retried` where LOCK_RETRY,
and LOCK_FREE after it, came before the grant (R443, assumption 108). -/
def lockGranted (s : State) (retried : Bool) : State :=
  match s.csc.amoQ with
  | [] => s
  | (p, req, a, n) :: rest =>
    if s.csc.lockHeld.isSome then s
    else
      let d := s.farPort p
      let s := if retried then ((s.sideBandIn d).sideBandIn d).inc64 Reg.CSC_LOCKRETRY else s
      let s := (s.sideBandIn d).inc64 Reg.CSC_LOCKS
      (s.modCsc fun c => { c with lockHeld := some p, amoQ := rest }).sendNp ⟨s.farPort p, req, true, a, n⟩

/-- The lock of this module as holder was broken (R442): the AMO ends with ABORTED, which its completion carries. -/
def lockLost (s : State) : State :=
  match s.csc.tags.find? fun t => t.ask.amo with
  | some t => ((s.inc64 Reg.CSC_LOCKWD).inc64 (Reg.CSC_RXCPL t.ask.port)).endTag t 0x30 []
  | none => match s.csc.readQ.find? fun x => x.amo with
    | some x =>
      let s := (s.inc64 Reg.CSC_LOCKWD).modCsc fun c => { c with readQ := c.readQ.erase x }
      (s.farGot x 0x30 []).nextAmo
    | none => s

/-! ### Audit and collection (R441, R444) -/

/-- An AUDIT arrives: any difference is counted, and takes the link down to retrain it (R444). -/
def audit (s : State) (d : Nat) (consumed : List Nat) : State :=
  let bad := (List.range 6).filter fun k => consumed.getD k 0 != s.rd64 (Reg.CSC_CREDRET d k) + s.rd64 (Reg.CSC_CREDHELD d k)
  match bad with
  | [] => s.sideBandIn d
  | k :: _ =>
    let s := ((s.inc64 (Reg.CSC_RXPW d)).add64 (Reg.CSC_CREDERR d) bad.length).inc64 (Reg.CSC_RETRAIN d)
    (s.cscEvent 0x1003 3 (p4 [d, k])).linkFalls d 1

/-- A slot of the collection area (R441). -/
def invSlotBytes (id : Nat) (x : InvSlot) : List Byte :=
  leBytes 4 id ++ leBytes 1 x.state ++ [0, 0, 0] ++ leBytes 8 x.mt ++ leBytes 8 x.seq ++ leBytes 4 x.info ++ List.replicate 36 0 ++
    (List.range 3072).flatMap fun i => leBytes 8 (x.counters.getD i 0)

/-- The module's own bank as a slot. -/
def ownSlot (s : State) (b id : Nat) : InvSlot :=
  if s.rd (Reg.INV_B_ID b) = id then
    { state := 1, mt := s.rd64 (Reg.INV_B_MT b), seq := s.rd64 (Reg.INV_B_SEQ b), info := s.rd (Reg.INV_B_INFO b)
      counters := (List.range 3072).map fun i => s.shadow b i }
  else { state := 2, mt := 0, seq := 0, info := 0, counters := [] }

/-- Whether a read of the collection is open or waits. -/
def collecting (s : State) : Bool :=
  let mine (r : Requester) : Bool := r.cls == .d && decide (256 ≤ r.core)
  s.csc.tags.any (fun t => mine t.ask.req) || s.csc.readQ.any fun x => mine x.req

/-- The master has collected the stack's shadows, once every read of the collection has ended: `slots` holds what it read of
positions 1 to 7; a position of which a read failed is unreachable (R437, R441). -/
def invCollected (s : State) (slots : List InvSlot) : State :=
  match s.csc.collect with
  | [] => s
  | (b, id) :: rest =>
    if s.collecting then s
    else
    let base := s.getF Fld.CSC_INVBASE_BASE * 4096
    let gone : InvSlot := { state := 3, mt := 0, seq := 0, info := 0, counters := [] }
    let lost (p : Nat) : Bool := s.csc.got.any fun g => g.req == ⟨.d, 256 + p⟩ && g.status != 0
    let slot (p : Nat) : InvSlot :=
      if p = 0 then s.ownSlot b id
      else if (s.rd Reg.CSC_MEMBERS).testBit p && !lost p then slots.getD (p - 1) gone else gone
    let s := s.modCsc fun c => { c with collect := rest, got := c.got.filter fun g => !(g.req.cls == .d && decide (256 ≤ g.req.core)) }
    if base = 0 then s.invAsk
    else
    let s := s.invAsk
    let s := (List.range 8).foldl (fun s p => s.devWrite .d (base + p * 0x6040) (invSlotBytes id (slot p))) s
    let got := (((List.range 8).filter fun p => (slot p).state == 1).map (2 ^ ·)).sum
    (s.wr Reg.CSC_INVDONE id).cscEvent 0x1005 1 (p4 [id, got])

end State

/-! ### The commands -/

/-- CSC_LINK (R427 to R429, R444): the switch runs under self-test too. -/
def execCscLink (dt : Nat) (down : Fin 2) (e : LinkEvent) (s : State) : Host.Outcome State Fault Refusal :=
  let s := s.elapse dt
  let d := down.val
  .next (match e with
    | .trains => if s.portOn d ∧ s.linkState d ≠ 2 then s.setF (State.linkField d) 1 else s
    | .comesUp n w g reach => if s.portOn d then (s.linkUpEvent d n w g reach.toNat).popsFreed else s
    | .beyond reach => s.linkBeyond d reach.toNat
    | .goesDown => s.linkFalls d 0)

/-- CSC_MEMBER_RX (R429, R439). -/
def execCscMemberRx (dt : Nat) (vec : BitVec 8) (s : State) : Host.Outcome State Fault Refusal :=
  let s := s.elapse dt
  .next (if s.heard 0 then (s.sideBandIn 0).modCsc fun c => { c with membersNext := some (vec.toNat ||| 2 ^ s.stackPos) } else s)

/-- CSC_INBOUND_TRANSACTION (R430, R431, R442): on a link that is up; the bridge under test takes none (R517). -/
def execCscInboundTransaction (dt : Nat) (down : Fin 2) (t : CscTxn) (s : State) : Host.Outcome State Fault Refusal :=
  let s := s.elapse dt
  .next (if s.heard down.val then s.inbound down.val t else s)

/-- CSC_COMPLETION_RX (R434, R437, R442). -/
def execCscCompletionRx (dt : Nat) (down : Fin 2) (tag status : Nat) (data : List Byte) (s : State) :
    Host.Outcome State Fault Refusal :=
  let s := s.elapse dt
  let d := down.val
  .next (
    if !s.heard d then s
    else
      let s := s.creditUse d 2 data.length
      match s.csc.tags.find? fun t => t.ask.port == d && t.tag == tag with
      | some t => ((s.inc64 (Reg.CSC_RXCPL d)).lpeFeed 5 (2 + d) data).endTag t status data
      | none => s.inc64 (Reg.CSC_LATECPL d))

/-- CSC_READ_TIMEOUT (R437). -/
def execCscReadTimeout (dt : Nat) (down : Fin 2) (tag : Nat) (s : State) : Host.Outcome State Fault Refusal :=
  let s := s.elapse dt
  let d := down.val
  let us := max 500 (min 50000 (s.getF Fld.CSC_RDTIMEOUT_US))
  .next (match s.csc.tags.find? fun t => t.ask.port == d && t.tag == tag with
    | some t => if t.at_ + us * 1000 ≤ s.time.clock then (s.inc64 (Reg.CSC_RDTO d)).endTag t 0x10 [] else s
    | none => s)

/-- CSC_LOCK_REQ (R442, R443). -/
def execCscLockReq (dt : Nat) (pos : Fin 8) (s : State) : Host.Outcome State Fault Refusal :=
  let s := s.elapse dt
  .next (if pos.val ≠ s.stackPos ∧ s.heard (s.farPort pos.val) then s.lockReq pos.val else s)

/-- CSC_LOCK_RELEASE (R442, R443): the target fabric has accepted the AMO of the holder. -/
def execCscLockRelease (dt : Nat) (s : State) : Host.Outcome State Fault Refusal :=
  let s := s.elapse dt
  .next (if s.csc.lockBy.isSome ∧ s.csc.amoDone then s.lockEnd else s)

/-- CSC_LOCK_WATCHDOG (R442): as target, 2 µs after the grant without the AMO; as holder, the far target broke the lock. -/
def execCscLockWatchdog (dt : Nat) (asTarget : Bool) (s : State) : Host.Outcome State Fault Refusal :=
  let s := s.elapse dt
  .next (
    if asTarget then s.lockWatch else s.lockLost)

/-- CSC_LOCK_GRANT_RX (R442, R443). -/
def execCscLockGrantRx (dt : Nat) (retried : Bool) (s : State) : Host.Outcome State Fault Refusal :=
  let s := s.elapse dt
  .next (match s.csc.amoQ.head? with
    | some x => if s.heard (s.farPort x.1) then s.lockGranted retried else s
    | none => s)

/-- CSC_AUDIT_RX (R444). -/
def execCscAuditRx (dt : Nat) (down : Fin 2) (consumed : List Nat) (s : State) : Host.Outcome State Fault Refusal :=
  let s := s.elapse dt
  .next (if s.heard down.val then s.audit down.val consumed else s)

/-- CSC_SYNC_AT_RX (R305, R440): at a member, from its up port. -/
def execCscSyncAtRx (dt instant : Nat) (s : State) : Host.Outcome State Fault Refusal :=
  let s := s.elapse dt
  .next (if s.measMember ∧ s.heard 0 then (s.sideBandIn 0).syncForwarded instant else s)

/-- CSC_ANNOUNCE_RX (R82, R441). -/
def execCscAnnounceRx (dt : Nat) (a : Announce) (s : State) : Host.Outcome State Fault Refusal :=
  let s := s.elapse dt
  .next (if s.heard 0 then (s.sideBandIn 0).announce a else s)

/-- CSC_INV_COLLECTED (R441). -/
def execCscInvCollected (dt : Nat) (slots : List InvSlot) (s : State) : Host.Outcome State Fault Refusal :=
  .next ((s.elapse dt).invCollected slots)

end Sys2Proof.Machine
end

