-- ==== Sys2Proof/Machine/Power.lean ====
section
/-! DEFINITION. Supply, hold-up and temperature (R547 to R556, R574), and what the outside does to the coding plug and the
tamper latch (R502, R568). -/

namespace Sys2Proof.Machine

/-- A signed number in 16 bits, and in the 32 bits of an event's payload. -/
def i16 (v : Int) : Nat := (v % 65536).toNat
def i32 (v : Int) : Nat := (v % 4294967296).toNat

/-- The number that 16 bits stand for. -/
def s16 (v : Nat) : Int := if v < 32768 then (v : Int) else (v : Int) - 65536

namespace State

/-- Change the supply state. -/
def modPwr (s : State) (f : PwrSt → PwrSt) : State := { s with pwr := f s.pwr }

/-- What the PWR block does, unless the module is held in reset (R555). -/
def unlessOff (s : State) (f : State → State) : State := if s.lcs.phase = .off then s else f s

/-- PWR_BKCOUNT counts a second (R556); it is looked at at the edges, and its seconds begin at the reset (DESIGN CHOICE, assumption
116). -/
def bkEdge (s : State) : State :=
  let n := (s.time.clock - s.pwr.bkAt) / 1000000000
  if n = 0 then s
  else (s.wr64 Reg.PWR_BKCOUNT (s.rd64 Reg.PWR_BKCOUNT + n)).modPwr fun p => { p with bkAt := p.bkAt + 1000000000 * n }

/-- A reading of the input voltage. -/
def setVin (s : State) (vin : Nat) : State := s.setF Fld.PWR_VIN_VIN vin

/-- A reading of the base-plate temperature, with the highest since reset (R576). -/
def setTemp (s : State) (t : Int) : State :=
  let first := !s.pwr.tempSeen
  let s := (s.setF Fld.PWR_TEMP_TEMP (i16 t)).modPwr fun p => { p with tempSeen := true }
  if first ∨ s16 (s.getF Fld.PWR_TEMP_MAX) < t then s.setF Fld.PWR_TEMP_MAX (i16 t) else s

/-- PFW is asserted (R551): the store discharges from here on, so HOLDUP_OK falls (DEDUCED from R547 and R552). -/
def assertPfw (s : State) (vin : Nat) : State :=
  if s.bit Fld.PWR_STATUS_PFW then s
  else
    let s := (s.setB Fld.PWR_STATUS_PFW true).inc64 Reg.PWR_PFWS
    let s := (s.setB Fld.PWR_STATUS_HOLDUP_OK false).modPwr fun p => { p with pfwAt := some s.time.clock }
    let s := (bitsOf 9 (s.getF Fld.PWR_PFWIRQ_MBOX)).foldl (fun s b => s.interrupt b 0x16) s
    s.emit 0x16 0x1701 4 59 (p4 [vin])

/-- NV_STOP (R554): once asserted it never clears. -/
def nvStop (s : State) (vhold : Nat) : State :=
  if s.bit Fld.PWR_STATUS_NV_STOP then s
  else
    let held := s.holdsCustody
    let s := ((s.setB Fld.PWR_STATUS_NV_STOP true).setB Fld.ARC_STATUS_NVSTOP true).setB Fld.PRV_STATUS_NVSTOP true
    let s := (s.releaseCustody 0 5).modRpl fun r => { r with driving := false, claim := none }
    let s := (s.wr64 Reg.PWR_LASTNVSTOP s.time.mt).modPwr fun p => { p with nvStopAt := some s.time.clock }
    s.emit 0x16 0x1703 5 59 (p4 [vhold, b2n held])

end State

/-! ### The commands -/

/-- PWR_PFW (R551): the input is below 14.0 V, or disconnected. -/
def execPwrPfw (dt vin : Nat) (s : State) : Host.Outcome State Fault Refusal :=
  .next ((s.elapse dt).unlessOff fun s =>
    let s := s.setVin vin
    if vin < 1400 ∨ s.bit Fld.PWR_STATUS_OVDISC then s.assertPfw vin else s)

/-- PWR_PFW_CLEAR (R553). -/
def execPwrPfwClear (dt vin : Nat) (s : State) : Host.Outcome State Fault Refusal :=
  .next ((s.elapse dt).unlessOff fun s =>
    let s := s.setVin vin
    if vin < 1500 ∨ !s.bit Fld.PWR_STATUS_PFW ∨ s.bit Fld.PWR_STATUS_NV_STOP ∨ s.bit Fld.PWR_STATUS_OVDISC then s
    else
      let us := (s.time.clock - s.pwr.pfwAt.getD s.time.clock) / 1000
      let s := ((s.setB Fld.PWR_STATUS_PFW false).inc64 Reg.PWR_PFWCLEARS).wr Reg.PWR_LASTDIP us
      (s.modPwr fun p => { p with pfwAt := none }).emit 0x16 0x1702 2 59 (p4 [us]))

/-- PWR_NV_STOP (R554): the hold-up store has fallen to 36.0 V. -/
def execPwrNvStop (dt vhold : Nat) (s : State) : Host.Outcome State Fault Refusal :=
  .next ((s.elapse dt).unlessOff fun s =>
    let s := s.setF Fld.PWR_VHOLD_VHOLD vhold
    if vhold ≤ 3600 then s.nvStop vhold else s)

/-- ORDERLY_RESET (R555): 4.0 ms after NV_STOP every block is held in reset, and all ports go down. -/
def execOrderlyReset (dt : Nat) (s : State) : Host.Outcome State Fault Refusal :=
  let s := s.elapse dt
  .next (match s.pwr.nvStopAt with
    | some t =>
      if s.time.clock < t + 4000000 then s
      else
        let hot := s.pwr.heldHot
        ((s.clearBlocks.cscPortsDown.modLcs fun l => { l with phase := .off }).modPwr fun p => { p with heldHot := hot })
    | none => s)

/-- PWR_OVERVOLTAGE (R548): the input exceeds 154 V; X1 is disconnected, and PFW is asserted. -/
def execPwrOvervoltage (dt vin : Nat) (s : State) : Host.Outcome State Fault Refusal :=
  .next ((s.elapse dt).unlessOff fun s =>
    let s := s.setVin vin
    if vin ≤ 15400 ∨ s.bit Fld.PWR_STATUS_OVDISC then s
    else
      let s := (s.setB Fld.PWR_STATUS_OVDISC true).inc64 Reg.PWR_OVDISCS
      let s := s.modPwr fun p => { p with x1Connected := false }
      (s.emit 0x16 0x1705 4 59 (p4 [vin])).assertPfw vin)

/-- OVERVOLTAGE_RECONNECT (R548): the input is below 150 V. -/
def execOvervoltageReconnect (dt vin : Nat) (s : State) : Host.Outcome State Fault Refusal :=
  .next ((s.elapse dt).unlessOff fun s =>
    let s := s.setVin vin
    if 15000 ≤ vin then s
    else (s.setB Fld.PWR_STATUS_OVDISC false).modPwr fun p => { p with x1Connected := true })

/-- PWR_VIN_RANGE (R547): below 16.8 V without PFW, or above 137.5 V. The flags stay set until a module reset, since the
spec names no end of them (DESIGN CHOICE, assumption 17). -/
def execPwrVinRange (dt : Nat) (high : Bool) (vin : Nat) (s : State) : Host.Outcome State Fault Refusal :=
  .next ((s.elapse dt).unlessOff fun s =>
    let s := s.setVin vin
    if high then
      (if vin ≤ 13750 ∨ s.bit Fld.PWR_STATUS_VIN_HIGH then s
       else (s.setB Fld.PWR_STATUS_VIN_HIGH true).emit 0x16 0x1704 3 59 (p4 [1, vin]))
    else if 1680 ≤ vin ∨ s.bit Fld.PWR_STATUS_PFW ∨ s.bit Fld.PWR_STATUS_VIN_LOW then s
    else (s.setB Fld.PWR_STATUS_VIN_LOW true).emit 0x16 0x1704 3 59 (p4 [0, vin]))

/-- PWR_TEMP_WARN (R574): above +90 °C. -/
def execPwrTempWarn (dt : Nat) (temp : Int) (s : State) : Host.Outcome State Fault Refusal :=
  .next ((s.elapse dt).unlessOff fun s =>
    let s := s.setTemp temp
    if temp ≤ 900 ∨ s.bit Fld.PWR_STATUS_TEMPWARN then s
    else ((s.setB Fld.PWR_STATUS_TEMPWARN true).inc64 Reg.PWR_TEMPWARNS).emit 0x16 0x1706 3 59 (p4 [i32 temp]))

/-- PWR_OVERTEMP (R574): above +105 °C for 1 s; the module acts as at NV_STOP. -/
def execPwrOvertemp (dt : Nat) (temp : Int) (s : State) : Host.Outcome State Fault Refusal :=
  .next ((s.elapse dt).unlessOff fun s =>
    let s := s.setTemp temp
    if temp ≤ 1050 ∨ s.bit Fld.PWR_STATUS_OVERTEMP then s
    else
      let s := (s.setB Fld.PWR_STATUS_OVERTEMP true).emit 0x16 0x1707 5 59 (p4 [i32 temp])
      (s.nvStop (s.getF Fld.PWR_VHOLD_VHOLD)).modPwr fun p => { p with heldHot := true })

/-- SYS_PLUG_FAULT (R568, R578): the plug is removed or changed during operation; nothing else changes. -/
def execSysPlugFault (dt : Nat) (s : State) : Host.Outcome State Fault Refusal :=
  .next ((s.elapse dt).unlessOff fun s => (s.setB Fld.SYS_PLUG_CHANGED true).emit 0x00 0x0101 5 60 [])

/-- HOLDUP_CHARGED (R547). -/
def execHoldupCharged (dt vhold : Nat) (s : State) : Host.Outcome State Fault Refusal :=
  .next ((s.elapse dt).unlessOff fun s =>
    let s := s.setF Fld.PWR_VHOLD_VHOLD vhold
    if s.bit Fld.PWR_STATUS_PFW then s else s.setB Fld.PWR_STATUS_HOLDUP_OK true)

/-- TEMPWARN_CLEAR (R574): below +85 °C. -/
def execTempwarnClear (dt : Nat) (temp : Int) (s : State) : Host.Outcome State Fault Refusal :=
  .next ((s.elapse dt).unlessOff fun s =>
    let s := s.setTemp temp
    if temp < 850 then s.setB Fld.PWR_STATUS_TEMPWARN false else s)

/-- OVERTEMP_RELEASE (R574): below +90 °C the module leaves reset and starts. -/
def execOvertempRelease (dt : Nat) (temp : Int) (env : ResetEnv) (s : State) : Host.Outcome State Fault Refusal :=
  let s := s.elapse dt
  .next (if s.pwr.heldHot && s.lcs.phase == .off && decide (temp < 900) then (s.moduleReset 4 env).setTemp temp else s)

/-- TAMPER_LATCH_SET (R502). -/
def execTamperLatchSet (dt : Nat) (s : State) : Host.Outcome State Fault Refusal :=
  let s := s.elapse dt
  .next ((s.setB Fld.LCS_STATE_TAMPER true).modLcs fun l => { l with tamperLatch := true })

end Sys2Proof.Machine
end

