-- ==== Sys2Proof/Machine/SelfTest.lean ====
section
/-! DEFINITION. The self-test engine on demand (R46, R513 to R519). -/

namespace Sys2Proof.Machine

/-- The class with a bit of the class mask (R243). -/
def clsOf (n : Nat) : Cls :=
  match n with
  | 0 => .t
  | 1 => .l
  | 2 => .ap
  | 3 => .as
  | 4 => .c
  | 5 => .x
  | _ => .d

namespace State

/-- The catalogue of a block, if it keeps one. -/
def catOfBlk (blk : Nat) : Option CatBlk := catBlks.find? fun b => catIndex b == blk

/-- The unit runs again, as after its first enable, with its configuration from its catalogue entries and registers
(R516, R519). -/
def unitRestore (s : State) (blk unit : Nat) : State :=
  let s := match blk with
    | 0x02 => if s.triadMode = 3 then s.startLoanTc else s
    | 0x03 =>
      let was := s.steWas
      if was = 1 then
        (if s.isPaired unit then s.restartCore (2 * unit) else (s.restartCore (2 * unit)).restartCore (2 * unit + 1))
      else s.setF (Fld.APC_PAIRSTAT_STATE unit) was
    | 0x0F => s.setF (Fld.CRR_CHSTAT_STATE unit) (b2n (s.ringOn .crr unit))
    | 0x10 => if s.bit (Fld.LPE_CFG_EN unit) then (s.lpeSet unit (s.lpeParam unit).init).lpeFresh unit else s
    | _ => s
  match catOfBlk blk with
  | some b => if s.rd (catReg b 0x2C) % 2 = 1 then (s.wr (catReg b 0x2C) 0).catEnable b else s
  | none => s

/-- The unit is held disabled until the next module reset (R518, R519); the EN of reserve collections reads 1 (R448). -/
def unitHold (s : State) (blk unit : Nat) : State :=
  let s := s.setF (Fld.STE_FAILMAP_UNITS blk) (s.getF (Fld.STE_FAILMAP_UNITS blk) ||| 2 ^ unit)
  let clear (s : State) (a : Nat) : State := s.wr a (s.rd a &&& (0xFFFFFFFF ^^^ enableBits a))
  let s := match blk with
    | 0x02 => (s.modTriad fun t => { t with tcFailed := true }).setB Fld.TRIAD_LOANSTAT_TC_HALTED true
    | 0x03 => s.setF (Fld.APC_PAIRSTAT_STATE unit) 0
    | 0x09 => clear s Reg.WAL_CTL
    | 0x0C => clear s Reg.MVB_CFG
    | 0x0D => (List.range 4).foldl (fun s u => clear s (Reg.CAN_CTL u)) s
    | 0x0E => (List.range 4).foldl (fun s u => clear s (Reg.SER_CFG u)) s
    | 0x0F => (s.setF (Fld.CRR_CHSTAT_STATE unit) 0).ringCtlWrite .crr unit (s.rd (Reg.CRR_RCTL unit) % 2147483648)
    | 0x10 => { s.setB (Fld.LPE_CFG_EN unit) false with lpe := tset s.lpe unit none, lpeUnits := tset s.lpeUnits unit {} }
    | 0x11 => ((clear s Reg.CSC_CTL).linkFalls 0 0).linkFalls 1 0
    | 0x12 => (List.range 56).foldl (fun s k => clear s (Reg.ARC_CCFG k)) s
    | _ => s
  let s := [RingBlk.eth, .mvb, .can, .ser, .arc, .prv].foldl (fun s b =>
    if ringIndex b = blk then
      (List.range (ringCount b)).foldl (fun s q => s.ringCtlWrite b q (s.rd (ringRegs b q).ctl % 2147483648)) s
    else s) s
  match catOfBlk blk with
  | some b => s.catDisable b
  | none => s

/-- A doorbell that waited for the end of the test acts (R416, R517). -/
def actDeferred (s : State) : Deferred → State
  | .ring b q tail => s.producer b q tail
  | .lpeRestart mask => s.lpeRestart mask
  | .invalidate b i k => s.catInvalidate (clsOf k) b i

/-- The test in progress ends (R516 to R519, R537). -/
def steEnd (s : State) (passed : Bool) (sig : Nat) : State :=
  let blk := s.getF Fld.STE_STATUS_BLOCK
  let unit := s.getF Fld.STE_STATUS_UNIT
  let s := (((s.setF Fld.STE_RESULT_BLOCK blk).setF Fld.STE_RESULT_UNIT unit).setF Fld.STE_RESULT_CODE (if passed then 2 else 3)).wr64
    Reg.STE_SIG sig
  let s := s.inc64 Reg.STE_TESTS
  let s := if passed then s else s.inc64 Reg.STE_FAILS
  let s := s.emit 0x14 0x1502 (if passed then 1 else 4) 60 (p4 [blk, unit] ++ p8 [sig])
  let s := s.prvModule 18 (State.objectBytes 18 (blk * 16 + unit)) 0 0
  let s := s.wr Reg.STE_STATUS 0
  let s := if passed then s.unitRestore blk unit else s.unitHold blk unit
  let l := s.deferred
  l.foldl (fun s d => s.actDeferred d) { s with deferred := [] }

end State

/-! ### The commands -/

/-- STE_REQ_WRITE (R513, R515 to R517). -/
def execSteReqWrite (dt : Nat) (req : Requester) (key : Byte) (blk : BitVec 8) (unit : Fin 16) (s : State) :
    Host.Outcome State Fault Refusal :=
  .next ((s.elapse dt).regCmd req Reg.STE_REQ fun s => if key = 0x5E then s.steRequest blk.toNat unit.val else s)

/-- STE_TEST (R516, R518, R519): the running test ends; with none running nothing happens. -/
def execSteTest (dt : Nat) (passed : Bool) (sig : BitVec 64) (s : State) : Host.Outcome State Fault Refusal :=
  let s := s.elapse dt
  .next (if s.getF Fld.STE_STATUS_STATE = 0 then s else s.steEnd passed sig.toNat)

end Sys2Proof.Machine
end

