-- ==== Sys2Proof/Machine/Beat.lean ====
section
/-! DEFINITION. The beat edge (R53, R56, R57): what every block does at E(n), in one order that keeps R57. -/

namespace Sys2Proof.Machine

/-- What changed in each catalogue at this edge. -/
abbrev EdgeChanges := List (CatBlk × List State.CatChange)

namespace State

/-- The catalogues at an edge (R32, R34); a block under test keeps its own waiting (R517). -/
def catEdges (s : State) : State × EdgeChanges :=
  catBlks.foldl (fun (acc : State × EdgeChanges) b =>
    if acc.1.unitTested (catIndex b) 0 then acc
    else
      let r := acc.1.catEdge b
      (r.1, acc.2 ++ [(b, r.2)])) (s, [])

/-- What changed in one catalogue. -/
def changesOf (ch : EdgeChanges) (b : CatBlk) : List CatChange := ((ch.find? fun x => x.1 == b).map fun x => x.2).getD []

/-- The registers of GAR that input maps may name, as bytes. -/
def garRecord (s : State) : List Byte := (List.range 32).flatMap fun i => leBytes 4 (s.rd (0x50000 + 4 * i))

/-- The snapshot of an edge: the data of an entry of a block (R192, R275, R297, R340, R370, R388). -/
def edgeData (s : State) (blk entry : Nat) : List Byte :=
  match blk with
  | 0x05 => s.garRecord
  | 0x07 => s.fioRecord entry
  | 0x08 => s.measRecord entry
  | 0x09 => s.walRecord entry
  | 0x0B => s.trdpRecord entry
  | 0x0C => s.serRecord .mvb entry
  | 0x0D => s.serRecord .can entry
  | 0x0E => s.serRecord .ser entry
  | _ => []

/-- An edge of one block, which a block under test does not have (R517). -/
def unlessTested (s : State) (blk : Nat) (f : State → State) : State := if s.unitTested blk 0 then s else f s

/-- A new custodian resumes, or starts cold, at its edge (R486 to R488). -/
def resumeEdge (s : State) (cold : StartInfo) : State :=
  match s.resumeDue with
  | none => s
  | some false => (s.takeoverShown false).rtsResume
  | some true => (s.takeoverShown true).rtsStart cold (s.getF Fld.LCS_FMT_FMT) true

/-- The inputs of the edge: Garnet's interface, field inputs, measurement, the received image, subscriptions and receive
entries (R156, R152, R260, R297, R337, R375, R389). -/
def inputEdge (s : State) (ch : EdgeChanges) (wrong : BitVec 32) : State :=
  let s := s.permitToggleEdge.brakeEdge
  let s := s.unlessTested 0x07 fun s => s.fioEdge (changesOf ch .fio) wrong
  let s := s.unlessTested 0x08 fun s => s.measEdge (changesOf ch .meas)
  let s := s.unlessTested 0x09 fun s => s.walEdge (changesOf ch .wal)
  let s := s.unlessTested 0x0B fun s => s.trdpEdge (changesOf ch .trdp)
  serBlks.foldl (fun s b => s.unlessTested (serIdx b) fun s => s.serEdge b (changesOf ch (serCat b))) s

/-- The outputs of the edge: couplers, Walira transmit buffers, publications and serial transmit entries (R258, R337, R371,
R390). -/
def outputEdge (s : State) (torn : List Nat) (wrong : BitVec 32) : State :=
  let s := s.unlessTested 0x07 fun s => s.fioLatchEdge wrong
  let s := s.unlessTested 0x09 fun s => s.walLatchEdge
  let s := s.trdpPublish torn
  serBlks.foldl (fun s b => s.serDue b) s

/-- Step 6 of the start: the first edge that enables outputs completes it (R509, R511). -/
def startEdge (s : State) : State :=
  if s.lcs.phase = .firmware ∧ s.custodyOn ∧ s.getF Fld.RTS_STATE_STATE = 1 then s.startDone else s

/-- The region table as written takes effect (R236). -/
def regionEdge (s : State) : State :=
  { s with app := { s.app with
      rgnEff := s.regs.filter fun x => decide (Reg.FAB_RGN_BASE 0 ≤ x.1 ∧ x.1 < Reg.FAB_RGN_BASE 32) } }

/-- A step is applied, and the blocks that keep instants of module time follow (R71, R72, R307, R327). -/
def stepAll (s : State) (delta : Int) : State :=
  let stepped := s.bit Fld.TIM_STATUS_STEP_PENDING
  let old := s.time.mt
  let s := s.stepEdge delta
  if stepped then
    let s := (s.measRebase old).unlessTested 0x08 fun s => s.measStep
    (s.unlessTested 0x09 fun s => s.walStep).ethStep delta
  else s

/-- The writes of devices to register words take effect (assumption 133). -/
def devRegEdge (s : State) : State :=
  { s.app.devRegs.foldl (fun s x => s.busWrite ⟨x.1, 0⟩ x.2.1 x.2.2) (s.modApp fun a => { a with devRegs := [] }) with resp := s.resp }

/-- The beat edge. What the life-cycle state and the region table become at it holds for the whole edge (R25, R501). The
captures copy the counts as they were just before it (R57). -/
def beatEdge (s : State) (env : EdgeEnv) : State :=
  let pre := s.elapse (s.time.edgeAt - s.time.mt)
  let stretched := s.bit Fld.TIM_STATUS_STRETCH
  let s := s.edgeBegin.bkEdge.lcsEdge.regionEdge.devRegEdge
  let (s, ch) := s.catEdges
  let s := s.rplEdgeEarly.resumeEdge env.cold
  let s := (s.inputEdge ch env.couplersWrong).ethEdge stretched
  let snap := s
  let s := s.rtsEdge snap.edgeData env.imageErrors stretched snap.handoverNow
  let s := (s.outputEdge env.tornEntries env.couplersWrong).captures pre
  let s := s.unlessTested 0x11 fun s => s.cscEdge
  (s.startEdge.triadEdge.rplEdgeLate).stepAll env.stepDelta

end State

/-! ### The command -/

/-- BEAT_EDGE (R53): MT reaches the edge. A module held in reset without a running module time has no edge actions. -/
def execBeatEdge (dt : Nat) (env : EdgeEnv) (s : State) : Host.Outcome State Fault Refusal :=
  let s := s.elapse dt
  .next (if s.lcs.phase = .off then s.edgeBegin.stepEdge 0 else s.beatEdge env)

end Sys2Proof.Machine
end

