-- ==== Sys2Proof/Machine/Dispatch.lean ====
section
/-! DEFINITION. The meaning of every command: one arm per row of spec/opcode_table.json, each a direct call. -/

namespace Sys2Proof.Machine

/-- A command's effect on everything but the queue. -/
def exec (i : Instr) (s : State) : Host.Outcome State Fault Refusal :=
  match i with
  | .powerApplied dt vin env => Sys2Proof.Machine.execPowerApplied dt vin env s
  | .moduleReset dt cause env => Sys2Proof.Machine.execModuleReset dt cause env s
  | .startupLbistComplete dt failed ms => Sys2Proof.Machine.execStartupLbistComplete dt failed ms s
  | .romBoot dt => Sys2Proof.Machine.execRomBoot dt s
  | .docentStart dt => Sys2Proof.Machine.execDocentStart dt s
  | .runtimeStart dt info => Sys2Proof.Machine.execRuntimeStart dt info s
  | .arcStartCarry dt => Sys2Proof.Machine.execArcStartCarry dt s
  | .beatEdge dt env => Sys2Proof.Machine.execBeatEdge dt env s
  | .gptpSyncRx dt offset sync => Sys2Proof.Machine.execGptpSyncRx dt offset sync s
  | .ppsInPulse dt pulse => Sys2Proof.Machine.execPpsInPulse dt pulse s
  | .refLost dt => Sys2Proof.Machine.execRefLost dt s
  | .firstLockTimeout dt => Sys2Proof.Machine.execFirstLockTimeout dt s
  | .timStepAccept dt req key accept => Sys2Proof.Machine.execTimStepAccept dt req key accept s
  | .popTsqMetaRead dt req q wide => Sys2Proof.Machine.execPopTsqMetaRead dt req q wide s
  | .popResponseAccepted dt q => Sys2Proof.Machine.execPopResponseAccepted dt q s
  | .popResponseDiscarded dt q => Sys2Proof.Machine.execPopResponseDiscarded dt q s
  | .launchTimeReached dt port queue => Sys2Proof.Machine.execLaunchTimeReached dt port queue s
  | .invAnnouncementRx dt a => Sys2Proof.Machine.execInvAnnouncementRx dt a s
  | .invAnnGo dt req go => Sys2Proof.Machine.execInvAnnGo dt req go s
  | .voteDecision dt b => Sys2Proof.Machine.execVoteDecision dt b s
  | .voteTimeout dt b => Sys2Proof.Machine.execVoteTimeout dt b s
  | .triadL1Uncorrectable dt lane e addr => Sys2Proof.Machine.execTriadL1Uncorrectable dt lane e addr s
  | .boundaryItemCapture dt item parityErr => Sys2Proof.Machine.execBoundaryItemCapture dt item parityErr s
  | .voterProbe dt failing => Sys2Proof.Machine.execVoterProbe dt failing s
  | .vsync dt word priv onApp recs agree back => Sys2Proof.Machine.execVsync dt word priv onApp recs agree back s
  | .vsyncDeadline dt => Sys2Proof.Machine.execVsyncDeadline dt s
  | .vfence dt word priv onApp => Sys2Proof.Machine.execVfence dt word priv onApp s
  | .vfenceComplete dt acked => Sys2Proof.Machine.execVfenceComplete dt acked s
  | .vfenceTimeout dt => Sys2Proof.Machine.execVfenceTimeout dt s
  | .triadReintWrite dt req lane => Sys2Proof.Machine.execTriadReintWrite dt req lane s
  | .triadSafereqWrite dt req key reason => Sys2Proof.Machine.execTriadSafereqWrite dt req key reason s
  | .triadLoanRequest dt req => Sys2Proof.Machine.execTriadLoanRequest dt req s
  | .triadLoanCancel dt req => Sys2Proof.Machine.execTriadLoanCancel dt req s
  | .triadLoanretWrite dt req ret => Sys2Proof.Machine.execTriadLoanretWrite dt req ret s
  | .tcLoanException dt => Sys2Proof.Machine.execTcLoanException dt s
  | .garnetSupplyRise dt => Sys2Proof.Machine.execGarnetSupplyRise dt s
  | .garnetStartupCheckDone dt chk => Sys2Proof.Machine.execGarnetStartupCheckDone dt chk s
  | .garnetEvalCycle dt sense => Sys2Proof.Machine.execGarnetEvalCycle dt sense s
  | .safetyInputFilterExpiry dt input chanB level => Sys2Proof.Machine.execSafetyInputFilterExpiry dt input chanB level s
  | .discrepancyFault dt inst => Sys2Proof.Machine.execDiscrepancyFault dt inst s
  | .testPulse dt tp patternOk reads => Sys2Proof.Machine.execTestPulse dt tp patternOk reads s
  | .garnetConfigCheck dt intact => Sys2Proof.Machine.execGarnetConfigCheck dt intact s
  | .garAckWrite dt req insts => Sys2Proof.Machine.execGarAckWrite dt req insts s
  | .offpulseTest dt pair side => Sys2Proof.Machine.execOffpulseTest dt pair side s
  | .offpulsePulseEnd dt pair fell => Sys2Proof.Machine.execOffpulsePulseEnd dt pair fell s
  | .outputOverload dt pair kind => Sys2Proof.Machine.execOutputOverload dt pair kind s
  | .feedbackTimeout dt pair => Sys2Proof.Machine.execFeedbackTimeout dt pair s
  | .garBrktestWrite dt req key pair => Sys2Proof.Machine.execGarBrktestWrite dt req key pair s
  | .brakeTestFbTimeout dt pair => Sys2Proof.Machine.execBrakeTestFbTimeout dt pair s
  | .brakeTestPass dt pair => Sys2Proof.Machine.execBrakeTestPass dt pair s
  | .brakeTestAbortEnd dt pair => Sys2Proof.Machine.execBrakeTestAbortEnd dt pair s
  | .brakeTestDue dt pair => Sys2Proof.Machine.execBrakeTestDue dt pair s
  | .garPermitWrite dt req seq rel => Sys2Proof.Machine.execGarPermitWrite dt req seq rel s
  | .garWithdrawWrite dt req pairs => Sys2Proof.Machine.execGarWithdrawWrite dt req pairs s
  | .permitLost dt pair => Sys2Proof.Machine.execPermitLost dt pair s
  | .permitMidpointToggle dt => Sys2Proof.Machine.execPermitMidpointToggle dt s
  | .grstRelease dt width sense => Sys2Proof.Machine.execGrstRelease dt width sense s
  | .custodyEnableFall dt => Sys2Proof.Machine.execCustodyEnableFall dt s
  | .holdTimeout dt pair => Sys2Proof.Machine.execHoldTimeout dt pair s
  | .cfgOpen dt req => Sys2Proof.Machine.execCfgOpen dt req s
  | .cfgEnterLockout dt req => Sys2Proof.Machine.execCfgEnterLockout dt req s
  | .cfgLoad dt req chunk => Sys2Proof.Machine.execCfgLoad dt req chunk s
  | .cfgReadback dt req chunk => Sys2Proof.Machine.execCfgReadback dt req chunk s
  | .cfgAccept dt req => Sys2Proof.Machine.execCfgAccept dt req s
  | .cfgDiscard dt req => Sys2Proof.Machine.execCfgDiscard dt req s
  | .cfgClose dt req => Sys2Proof.Machine.execCfgClose dt req s
  | .cfgSetpw dt req => Sys2Proof.Machine.execCfgSetpw dt req s
  | .garCfgcmdComplete dt => Sys2Proof.Machine.execGarCfgcmdComplete dt s
  | .garSessionTimeout dt => Sys2Proof.Machine.execGarSessionTimeout dt s
  | .garAuthBlockExpiry dt => Sys2Proof.Machine.execGarAuthBlockExpiry dt s
  | .pendingImageExpiry dt => Sys2Proof.Machine.execPendingImageExpiry dt s
  | .taskReady dt task => Sys2Proof.Machine.execTaskReady dt task s
  | .rtsDoneWrite dt req task done => Sys2Proof.Machine.execRtsDoneWrite dt req task done s
  | .rtsOcArm dt req pkg => Sys2Proof.Machine.execRtsOcArm dt req pkg s
  | .rtsOcCancel dt req => Sys2Proof.Machine.execRtsOcCancel dt req s
  | .rtsForceupdWrite dt req index => Sys2Proof.Machine.execRtsForceupdWrite dt req index s
  | .apcPairMismatch dt pair cmp => Sys2Proof.Machine.execApcPairMismatch dt pair cmp s
  | .apcRestartWrite dt req key cores => Sys2Proof.Machine.execApcRestartWrite dt req key cores s
  | .apcFence dt core => Sys2Proof.Machine.execApcFence dt core s
  | .releaseStore dt core addr bytes => Sys2Proof.Machine.execReleaseStore dt core addr bytes s
  | .cacheEccUncorrectable dt e => Sys2Proof.Machine.execCacheEccUncorrectable dt e s
  | .fabricGrant dt arrivals target => Sys2Proof.Machine.execFabricGrant dt arrivals target s
  | .fabricAgePromotion dt id => Sys2Proof.Machine.execFabricAgePromotion dt id s
  | .catalogueInvalidate dt req blk index => Sys2Proof.Machine.execCatalogueInvalidate dt req blk index s
  | .catalogueStagingReadDone dt blk index ended => Sys2Proof.Machine.execCatalogueStagingReadDone dt blk index ended s
  | .catalogueEnableWrite dt req blk => Sys2Proof.Machine.execCatalogueEnableWrite dt req blk s
  | .ringProducer dt req blk ring tail => Sys2Proof.Machine.execRingProducer dt req blk ring tail s
  | .ringEnableWrite dt req blk ring value => Sys2Proof.Machine.execRingEnableWrite dt req blk ring value s
  | .registerWrite dt req addr size value => Sys2Proof.Machine.execRegisterWrite dt req addr size value s
  | .fieldSupplyChange dt group vf => Sys2Proof.Machine.execFieldSupplyChange dt group vf s
  | .antiglitchExpiry dt ch reading => Sys2Proof.Machine.execAntiglitchExpiry dt ch reading s
  | .debounceExpiry dt ch => Sys2Proof.Machine.execDebounceExpiry dt ch s
  | .supgapTimeout dt ch => Sys2Proof.Machine.execSupgapTimeout dt ch s
  | .fioThermal dt ch => Sys2Proof.Machine.execFioThermal dt ch s
  | .thermalRestart dt ch => Sys2Proof.Machine.execThermalRestart dt ch s
  | .fioGroupOverload dt group => Sys2Proof.Machine.execFioGroupOverload dt group s
  | .groupOverloadEnd dt group => Sys2Proof.Machine.execGroupOverloadEnd dt group s
  | .ovlClear dt group => Sys2Proof.Machine.execOvlClear dt group s
  | .outputDiagTest dt ch withTest withoutTest current => Sys2Proof.Machine.execOutputDiagTest dt ch withTest withoutTest current s
  | .fallbackRefresh dt refresh => Sys2Proof.Machine.execFallbackRefresh dt refresh s
  | .inboundFrameRx dt group frame => Sys2Proof.Machine.execInboundFrameRx dt group frame s
  | .outboundFrameRx dt group frame => Sys2Proof.Machine.execOutboundFrameRx dt group frame s
  | .outputWatchdogExpiry dt ch => Sys2Proof.Machine.execOutputWatchdogExpiry dt ch s
  | .failHoldExpiry dt ch => Sys2Proof.Machine.execFailHoldExpiry dt ch s
  | .sincOutput dt ch bits => Sys2Proof.Machine.execSincOutput dt ch bits s
  | .measOutputReady dt ch => Sys2Proof.Machine.execMeasOutputReady dt ch s
  | .measStuck dt ch => Sys2Proof.Machine.execMeasStuck dt ch s
  | .streamUnstuck dt ch => Sys2Proof.Machine.execStreamUnstuck dt ch s
  | .measRingrdWrite dt req ch value => Sys2Proof.Machine.execMeasRingrdWrite dt req ch value s
  | .syncInEdge dt rising width => Sys2Proof.Machine.execSyncInEdge dt rising width s
  | .measSyncNow dt req key => Sys2Proof.Machine.execMeasSyncNow dt req key s
  | .measSyncArm dt req key => Sys2Proof.Machine.execMeasSyncArm dt req key s
  | .measSyncDisarm dt req key => Sys2Proof.Machine.execMeasSyncDisarm dt req key s
  | .measSync dt => Sys2Proof.Machine.execMeasSync dt s
  | .measPllLost dt => Sys2Proof.Machine.execMeasPllLost dt s
  | .measPllLocked dt => Sys2Proof.Machine.execMeasPllLocked dt s
  | .linkDelayExchange dt port delay => Sys2Proof.Machine.execLinkDelayExchange dt port delay s
  | .walLink dt port up => Sys2Proof.Machine.execWalLink dt port up s
  | .walFrameRx dt port frame => Sys2Proof.Machine.execWalFrameRx dt port frame s
  | .walSlotTx dt chan entry => Sys2Proof.Machine.execWalSlotTx dt chan entry s
  | .guardianCut dt chan => Sys2Proof.Machine.execGuardianCut dt chan s
  | .walGuardClk dt port interval => Sys2Proof.Machine.execWalGuardClk dt port interval s
  | .forwardCut dt port => Sys2Proof.Machine.execForwardCut dt port s
  | .walListenTimeout dt chan => Sys2Proof.Machine.execWalListenTimeout dt chan s
  | .contentionWindowEnd dt chan => Sys2Proof.Machine.execContentionWindowEnd dt chan s
  | .walBackoff dt chan => Sys2Proof.Machine.execWalBackoff dt chan s
  | .ethFrameRx dt port frame => Sys2Proof.Machine.execEthFrameRx dt port frame s
  | .ethFrameTxStart dt port => Sys2Proof.Machine.execEthFrameTxStart dt port s
  | .ethTxComplete dt port => Sys2Proof.Machine.execEthTxComplete dt port s
  | .ethTxDescTaken dt ring ended => Sys2Proof.Machine.execEthTxDescTaken dt ring ended s
  | .ethRxRingDelivery dt ring => Sys2Proof.Machine.execEthRxRingDelivery dt ring s
  | .ethRingDisable dt req ring => Sys2Proof.Machine.execEthRingDisable dt req ring s
  | .frameAged dt port queue => Sys2Proof.Machine.execFrameAged dt port queue s
  | .fdbEntryAged dt mac vid => Sys2Proof.Machine.execFdbEntryAged dt mac vid s
  | .gateIntervalEnd dt port => Sys2Proof.Machine.execGateIntervalEnd dt port s
  | .ethGclCommit dt req port value => Sys2Proof.Machine.execEthGclCommit dt req port value s
  | .ethGclSwitch dt port => Sys2Proof.Machine.execEthGclSwitch dt port s
  | .frerResetTimeout dt n => Sys2Proof.Machine.execFrerResetTimeout dt n s
  | .ethLink dt port up speed => Sys2Proof.Machine.execEthLink dt port up speed s
  | .trdpTelegramRx dt host frame => Sys2Proof.Machine.execTrdpTelegramRx dt host frame s
  | .mvbFrameInstant dt m => Sys2Proof.Machine.execMvbFrameInstant dt m s
  | .mvbMasterFrame dt poll => Sys2Proof.Machine.execMvbMasterFrame dt poll s
  | .canFrameRx dt u f => Sys2Proof.Machine.execCanFrameRx dt u f s
  | .serialTxLaunch dt blk who => Sys2Proof.Machine.execSerialTxLaunch dt blk who s
  | .serialTxDone dt blk u => Sys2Proof.Machine.execSerialTxDone dt blk u s
  | .serTxStale dt u => Sys2Proof.Machine.execSerTxStale dt u s
  | .canErrorFrame dt u role more => Sys2Proof.Machine.execCanErrorFrame dt u role more s
  | .canBusoffRecovery dt u => Sys2Proof.Machine.execCanBusoffRecovery dt u s
  | .serFrameEnd dt u f => Sys2Proof.Machine.execSerFrameEnd dt u f s
  | .serOverrun dt u => Sys2Proof.Machine.execSerOverrun dt u s
  | .crrChainStart dt c => Sys2Proof.Machine.execCrrChainStart dt c s
  | .crrDescriptorTaken dt c ended => Sys2Proof.Machine.execCrrDescriptorTaken dt c ended s
  | .crrDescriptorDone dt c far farWord => Sys2Proof.Machine.execCrrDescriptorDone dt c far farWord s
  | .crrMoveError dt c ended bytesMoved far => Sys2Proof.Machine.execCrrMoveError dt c ended bytesMoved far s
  | .crrReadbackDone dt c equal => Sys2Proof.Machine.execCrrReadbackDone dt c equal s
  | .crrRingDisable dt req c bytesMoved far => Sys2Proof.Machine.execCrrRingDisable dt req c bytesMoved far s
  | .popCrrMetaRead dt req c wide => Sys2Proof.Machine.execPopCrrMetaRead dt req c wide s
  | .lpeEnable dt req u value => Sys2Proof.Machine.execLpeEnable dt req u value s
  | .lpeDisable dt req u => Sys2Proof.Machine.execLpeDisable dt req u s
  | .lpeRestart dt req mask => Sys2Proof.Machine.execLpeRestart dt req mask s
  | .lpeUnitEnd dt u unit => Sys2Proof.Machine.execLpeUnitEnd dt u unit s
  | .cscLink dt down e => Sys2Proof.Machine.execCscLink dt down e s
  | .cscMemberRx dt vec => Sys2Proof.Machine.execCscMemberRx dt vec s
  | .cscInboundTransaction dt down t => Sys2Proof.Machine.execCscInboundTransaction dt down t s
  | .cscCompletionRx dt down tag status data => Sys2Proof.Machine.execCscCompletionRx dt down tag status data s
  | .cscReadTimeout dt down tag => Sys2Proof.Machine.execCscReadTimeout dt down tag s
  | .cscLockReq dt pos => Sys2Proof.Machine.execCscLockReq dt pos s
  | .cscLockRelease dt => Sys2Proof.Machine.execCscLockRelease dt s
  | .cscLockWatchdog dt asTarget => Sys2Proof.Machine.execCscLockWatchdog dt asTarget s
  | .cscAuditRx dt down consumed => Sys2Proof.Machine.execCscAuditRx dt down consumed s
  | .cscSyncAtRx dt instant => Sys2Proof.Machine.execCscSyncAtRx dt instant s
  | .cscAnnounceRx dt a => Sys2Proof.Machine.execCscAnnounceRx dt a s
  | .cscInvCollected dt slots => Sys2Proof.Machine.execCscInvCollected dt slots s
  | .arcOccurrence dt port => Sys2Proof.Machine.execArcOccurrence dt port s
  | .arcWriteDescriptor dt ring ended => Sys2Proof.Machine.execArcWriteDescriptor dt ring ended s
  | .arcCommitAgeExpiry dt unit => Sys2Proof.Machine.execArcCommitAgeExpiry dt unit s
  | .arcUnitCommit dt => Sys2Proof.Machine.execArcUnitCommit dt s
  | .arcCommitDone dt => Sys2Proof.Machine.execArcCommitDone dt s
  | .arcSealWrite dt req mask => Sys2Proof.Machine.execArcSealWrite dt req mask s
  | .arcUnsealWrite dt req mask => Sys2Proof.Machine.execArcUnsealWrite dt req mask s
  | .arcSealExpired dt coll => Sys2Proof.Machine.execArcSealExpired dt coll s
  | .arcReadDescriptor dt ring => Sys2Proof.Machine.execArcReadDescriptor dt ring s
  | .popArcNextRead dt req wide => Sys2Proof.Machine.execPopArcNextRead dt req wide s
  | .arcEraseWrite dt req key coll => Sys2Proof.Machine.execArcEraseWrite dt req key coll s
  | .farwireReading dt mv => Sys2Proof.Machine.execFarwireReading dt mv s
  | .blockedRecovery dt => Sys2Proof.Machine.execBlockedRecovery dt s
  | .custodyEnableLoss dt => Sys2Proof.Machine.execCustodyEnableLoss dt s
  | .custodyClaim dt => Sys2Proof.Machine.execCustodyClaim dt s
  | .claimCheck dt mv => Sys2Proof.Machine.execClaimCheck dt mv s
  | .custodyNegotiation dt => Sys2Proof.Machine.execCustodyNegotiation dt s
  | .custodyNegotiationDelay dt => Sys2Proof.Machine.execCustodyNegotiationDelay dt s
  | .replicaShipDeadline dt shipped => Sys2Proof.Machine.execReplicaShipDeadline dt shipped s
  | .replicaFrameRx dt peer frame => Sys2Proof.Machine.execReplicaFrameRx dt peer frame s
  | .replicaCopyOnWrite dt line => Sys2Proof.Machine.execReplicaCopyOnWrite dt line s
  | .replicaLinkChange dt up => Sys2Proof.Machine.execReplicaLinkChange dt up s
  | .rplHandoverArm dt req key => Sys2Proof.Machine.execRplHandoverArm dt req key s
  | .rplHandoverCancel dt req key => Sys2Proof.Machine.execRplHandoverCancel dt req key s
  | .handoverDeadline dt => Sys2Proof.Machine.execHandoverDeadline dt s
  | .lcsCmdTransition dt req key arg nonceLo nonceHi => Sys2Proof.Machine.execLcsCmdTransition dt req key arg nonceLo nonceHi s
  | .lcsCmdRevoke dt req key arg nonceLo nonceHi => Sys2Proof.Machine.execLcsCmdRevoke dt req key arg nonceLo nonceHi s
  | .lcsCmdWriteFw dt req key written verified => Sys2Proof.Machine.execLcsCmdWriteFw dt req key written verified s
  | .lcsCmdWriteDocent dt req key written verified => Sys2Proof.Machine.execLcsCmdWriteDocent dt req key written verified s
  | .lcsCmdWriteBootcfg dt req key written verified => Sys2Proof.Machine.execLcsCmdWriteBootcfg dt req key written verified s
  | .lcsCmdCommitFw dt req key => Sys2Proof.Machine.execLcsCmdCommitFw dt req key s
  | .lcsCmdRestart dt req key => Sys2Proof.Machine.execLcsCmdRestart dt req key s
  | .lcsCmdVerify dt req key arg => Sys2Proof.Machine.execLcsCmdVerify dt req key arg s
  | .lcsCmdComplete dt => Sys2Proof.Machine.execLcsCmdComplete dt s
  | .steReqWrite dt req key blk unit => Sys2Proof.Machine.execSteReqWrite dt req key blk unit s
  | .steTest dt passed sig => Sys2Proof.Machine.execSteTest dt passed sig s
  | .cvHello dt m => Sys2Proof.Machine.execCvHello dt m s
  | .cvBegin dt addr port msg => Sys2Proof.Machine.execCvBegin dt addr port msg s
  | .cvData dt addr port msg => Sys2Proof.Machine.execCvData dt addr port msg s
  | .cvEnd dt source msg => Sys2Proof.Machine.execCvEnd dt source msg s
  | .cvWriteDone dt written => Sys2Proof.Machine.execCvWriteDone dt written s
  | .cvReset dt m => Sys2Proof.Machine.execCvReset dt m s
  | .cvAbort dt m => Sys2Proof.Machine.execCvAbort dt m s
  | .cvSessionTimeout dt => Sys2Proof.Machine.execCvSessionTimeout dt s
  | .prvRecordPost dt src => Sys2Proof.Machine.execPrvRecordPost dt src s
  | .prvModuleRecord dt r => Sys2Proof.Machine.execPrvModuleRecord dt r s
  | .prvCommit dt => Sys2Proof.Machine.execPrvCommit dt s
  | .prvRdseqWrite dt req seq => Sys2Proof.Machine.execPrvRdseqWrite dt req seq s
  | .pwrPfw dt vin => Sys2Proof.Machine.execPwrPfw dt vin s
  | .pwrPfwClear dt vin => Sys2Proof.Machine.execPwrPfwClear dt vin s
  | .pwrNvStop dt vhold => Sys2Proof.Machine.execPwrNvStop dt vhold s
  | .orderlyReset dt => Sys2Proof.Machine.execOrderlyReset dt s
  | .pwrOvervoltage dt vin => Sys2Proof.Machine.execPwrOvervoltage dt vin s
  | .overvoltageReconnect dt vin => Sys2Proof.Machine.execOvervoltageReconnect dt vin s
  | .pwrVinRange dt high vin => Sys2Proof.Machine.execPwrVinRange dt high vin s
  | .pwrTempWarn dt temp => Sys2Proof.Machine.execPwrTempWarn dt temp s
  | .pwrOvertemp dt temp => Sys2Proof.Machine.execPwrOvertemp dt temp s
  | .sysPlugFault dt => Sys2Proof.Machine.execSysPlugFault dt s
  | .holdupCharged dt vhold => Sys2Proof.Machine.execHoldupCharged dt vhold s
  | .tempwarnClear dt temp => Sys2Proof.Machine.execTempwarnClear dt temp s
  | .overtempRelease dt temp env => Sys2Proof.Machine.execOvertempRelease dt temp env s
  | .garnetSupplyLoss dt => Sys2Proof.Machine.execGarnetSupplyLoss dt s
  | .cscLockGrantRx dt retried => Sys2Proof.Machine.execCscLockGrantRx dt retried s
  | .tamperLatchSet dt => Sys2Proof.Machine.execTamperLatchSet dt s

end Sys2Proof.Machine
end

