-- ==== Sys2Proof/Safety.lean ====
section
/-! DEFINITION. What claims mean by a sound state and by a command that completes. -/

namespace Sys2Proof.Machine

/-- The canonical forms of the register file and of the memory: equal contents are equal data. -/
def State.wf (s : State) : Bool := s.regsWf && s.memWf

/-- A command completes: it answers a next state. -/
def completes (i : Instr) (s : State) : Prop := ∃ t, exec i s = .next t

/-- Every register word outside a list holds what it held. -/
def RegsKept (ws : List Nat) (s t : State) : Prop := ∀ a, a ∉ ws → t.rdw a = s.rdw a

/-- Every byte of memory reads as before. -/
def MemKept (s t : State) : Prop := ∀ a, t.memGet a = s.memGet a

/-- The frame of a command that stores nothing: after `dt` only the register words `ws`, the answer to the requester, and
what `t'` takes back from `s` may differ. -/
def Leaves (dt : Nat) (ws : List Nat) (s t t' : State) : Prop :=
  RegsKept ws s t ∧ MemKept s t ∧ { t' with regs := s.regs, resp := s.resp } = s.elapse dt

/-- The frame of a command that stores nothing and whose registers all lie in the blocks `blks`: every register of another
block, the memory and, but for what `t'` takes back from `s`, the rest of the state are as before. -/
def LeavesOut (dt : Nat) (blks : List Nat) (s t t' : State) : Prop :=
  (∀ a, a / 65536 ∉ blks → t.rdw a = s.rdw a) ∧ MemKept s t ∧ { t' with regs := s.regs, resp := s.resp } = s.elapse dt

/-- The two words of a 64-bit register. -/
abbrev two (a : Nat) : List Nat := [a, a + 4]

/-- The register words that any store may change: what the Loupe units that watch memory have folded, and the count of lines
that a full capture buffer takes out of a snapshot (R419, R480). -/
def storeWords (s : State) : List Nat :=
  two Reg.RPL_COWFULL ++ s.lpe.flatMap fun x => two (Reg.LPE_RES x.1) ++ two (Reg.LPE_BYTES x.1)

/-- The frame of a command that stores to memory, but for the memory itself, of which a statement says byte by byte what it
holds: a store also moves on the Loupe units that watch it, ends what a core's L1 held of the line, and captures and marks
replicated lines (R228, R419, R480). -/
def LeavesStore (dt : Nat) (ws : List Nat) (s t t' : State) : Prop :=
  RegsKept (ws ++ storeWords s) s t ∧
    { t' with regs := s.regs, resp := s.resp, mem := s.mem, lpe := s.lpe, lpeUnits := s.lpeUnits
              app := { t'.app with l1Undo := s.app.l1Undo }
              rpl := { t'.rpl with dirty := s.rpl.dirty, captured := s.rpl.captured, snap := s.rpl.snap, snapVoid := s.rpl.snapVoid } }
      = s.elapse dt

/-- A 64-bit counter has counted on by `n`, wrapping (R16). -/
abbrev Counted (a n : Nat) (s t : State) : Prop := t.rd64 a = (s.rd64 a + n) % 18446744073709551616

/-- The requester got this status and data and no exception. -/
abbrev Answered (t : State) (status data : Nat) : Prop := t.resp = { status := status, exc := none, data := data }

/-- A requester can write a register word now: it is running, none of its own earlier accesses waits in a store buffer or for a
load, and firewall and self-test let it (R111, R225, R231, R232, R245, R517). -/
abbrev Lets (s : State) (req : Requester) (a : Nat) : Prop :=
  s.issues req = true ∧ (State.isApp req = true → tget s.app.storeBuf (s.hartOf req.core) = []) ∧ s.heldBack req = false ∧
    s.fwWrite req.cls a = true ∧ s.underTest a = false

/-- A store of a requester leaves now: it is running, none of its earlier stores waits, and none of its pop reads is under way
(R111, R225, R231, R232). -/
abbrev StoresNow (s : State) (req : Requester) : Prop :=
  s.issues req = true ∧ (State.isApp req = true → tget s.app.storeBuf (s.hartOf req.core) = [] ∧
    s.loading (s.hartOf req.core) = false ∧ (s.app.parked.all fun x => s.hartOf x.1 != s.hartOf req.core) = true)

/-- The words of SYS, TIM, TRIAD, APC, FAB and GAR whose write is a command with a row of its own. -/
abbrev commandWords : List Nat :=
  [Reg.TIM_STEPCTL, Reg.TRIAD_REINT, Reg.TRIAD_SAFEREQ, Reg.TRIAD_LOAN, Reg.TRIAD_LOANRET, Reg.APC_RESTART, Reg.GAR_ACK,
    Reg.GAR_BRKTEST, Reg.GAR_PERMIT, Reg.GAR_WITHDRAW, Reg.GAR_CFGCMD]

/-- An event port can take another occurrence. -/
abbrev PortRoom (s : State) (blk : Nat) : Prop := (tget s.arc.ports blk).length < 32

/-- The event port of a block has taken one occurrence, offered at the module time of `t`, and no other port has changed. -/
def Offered (blk code sev coll : Nat) (payload : List Byte) (s t : State) : Prop :=
  tget t.arc.ports blk = tget s.arc.ports blk ++ [⟨blk + 1, code, sev, coll, t.time.mt, payload⟩] ∧
    ∀ b, b ≠ blk → tget t.arc.ports b = tget s.arc.ports b

/-- The words that the end of the custody enable signal may change (R371, R390, R472): TRDP_STATUS, the dropped copies of
publications by port, and the dropped serial frames by line. -/
def custodyWords : List Nat :=
  Reg.TRDP_STATUS :: ((List.range 16).flatMap fun p => two (Reg.ETH_TXDROP p 2)) ++
    (List.range 16).flatMap fun i => two ((12 + i / 4) * 0x10000 + 0x158 + i % 4 * 0x100)

/-- A property that every step keeps. -/
def StepKeeps (P : State → Prop) : Prop := ∀ s t, P s → step s = .next t → P t

end Sys2Proof.Machine
end

