-- ==== Sys2Proof/WellFormed.lean ====
section
/-! DEFINITION. Which commands can exist at the module: most operands are bounded by their types, and the two rows that
leave more room are checked here. -/

namespace Sys2Proof

/-- The rings of a block (R360, R392, R399, R454, R465, R540). -/
def RingBlk.rings : RingBlk → Nat
  | .eth => 18
  | .mvb => 2
  | .can => 8
  | .ser => 8
  | .crr => 16
  | .arc => 10
  | .prv => 2

/-- Whether the sizes of R16 admit an access: 1, 2, 4 or 8 bytes, aligned to its size, within 40 address bits (R26). -/
def accessOk (addr size : Nat) : Bool :=
  (size == 1 || size == 2 || size == 4 || size == 8) && addr % size == 0 && decide (addr < 0x10000000000)

/-- Whether a command can exist: a ring of the block, an access that R16 admits; every other row's operands are bounded by
their types. -/
def Instr.wf (i : Instr) : Bool :=
  match i with
  | .ringEnableWrite _ _ blk ring _ => decide (ring < blk.rings)
  | .registerWrite _ _ addr size _ => accessOk addr size
  | _ => true

end Sys2Proof
end

