-- ==== Sys2Proof/Certificates/Slice0/Obligations.lean ====
section
/-! DEFINITION. The statements for the provers: what each family of commands does and leaves as it was, the rules of the whole
machine, and what reset leaves. -/

open Sys2Proof Sys2Proof.Machine

/-- For every command and state, a step of the state with the command at the front of its queue is the command run on the
state with the rest of the queue. -/
def Obligations.StepRunsFrontCommand : Prop :=
  ∀ (i : Instr) (s : State), step { s with pending := i :: s.pending } = exec i s

/-- After reset the register file and the memory are in canonical form, no command waits, memory lists nothing, and every
register word reads its reset value. -/
def Obligations.ResetStateSound : Prop :=
  State.reset.wf = true ∧ State.reset.pending = [] ∧ (∀ a, State.reset.memGet a = 0) ∧
    ∀ a, State.reset.rdw a = Config.resetWord a

/-- After reset every counter of the blocks SYS, TIM, TRIAD, APC, FAB, GAR, RTS, FIO, MEAS and WAL that a snapshot
captures reads 0; the firewall lets classes T, AP and AS write every block whose mask decides; every Archive
collection accepts records; a seal lasts 10 s at most; every Courier channel is disabled; the Triad, the runtime and
the role have not started; the jump limit is 10,000 ns. -/
def Obligations.ResetValues : Prop :=
  (∀ w ∈ windows, w.addr < 0xA0000 → ∀ k, k < w.count → State.reset.rd64 (w.addr + 8 * k) = 0) ∧
    (∀ b, b < 27 → State.reset.getF (Fld.FAB_FWWR_MASK b) = 13) ∧
    (∀ c, c < 64 → State.reset.bit (Fld.ARC_CCFG_EN c) = true) ∧
    (∀ c, c < 16 → State.reset.getF (Fld.CRR_CHSTAT_STATE c) = 0) ∧
    State.reset.rd Reg.ARC_SEALLIM = 10 ∧ State.reset.rd64 Reg.TIM_JUMPLIMIT = 10000 ∧
    State.reset.timeState = 0 ∧ State.reset.triadMode = 0 ∧ State.reset.role = 0 ∧ State.reset.getF Fld.RTS_STATE_STATE = 0

/-- From every state in canonical form, whatever command is at the front of the queue, a step that answers a next state
answers one in canonical form: equal register contents and equal memories stay equal data. -/
def Obligations.EveryStepKeepsCanonicalForm : Prop :=
  StepKeeps fun s => s.wf = true

/-- Whatever a command does, a next state that it answers has the queue that it was given: commands come from outside
only. -/
def Obligations.CommandsKeepTheQueue : Prop :=
  ∀ (i : Instr) (s t : State), exec i s = .next t → t.pending = s.pending

/-- Whatever a command does, resets and steps of module time included, the clock that times the module's own intervals
does not fall, and the number of the next free value does not fall either (the counter of free values is the model's
own). -/
def Obligations.OwnClockNeverFalls : Prop :=
  ∀ (i : Instr) (s t : State), exec i s = .next t → s.time.clock ≤ t.time.clock ∧ s.freeCtr ≤ t.freeCtr

/-- A command whose operands can exist at the module answers a next state in every state whatever, and a ring that its
block does not have, or an access that is no access of the map, stops with the fault of an ill-formed command. -/
def Obligations.OnlyIllFormedCommandsStop : Prop :=
  ∀ (i : Instr) (s : State), (i.wf = true → ∃ t, exec i s = .next t) ∧ (i.wf = false → exec i s = .fault .illFormed)

/-- If the gPTP reference is lost, TIM_FLAGS.REF_LOST is set, the loss is counted in TIM_REFLOSS and the time state
becomes HOLDOVER; a PPS reference is lost likewise 1.5 s after its last pulse. Nothing else changes. (R59) -/
def Obligations.ReferenceLoss : Prop := ∀ (s : State) (dt : Nat), s.wf = true →
  (s.time.refPresent = true →
      (s.time.ppsLast.all (fun p => s.time.grandmaster != ppsSource || decide (p + 1500000000 ≤ (s.elapse dt).time.clock)) =
        true) →
      ∃ t, exec (.refLost dt) s = .next t ∧
        t.timeState = 3 ∧
        t.getF Fld.TIM_STATUS_SRC = 0 ∧
        t.bit Fld.TIM_STATUS_STEP_PENDING = false ∧
        t.bit Fld.TIM_FLAGS_REF_LOST = true ∧
        Counted Reg.TIM_REFLOSS 1 s t ∧
        t.time.refPresent = false ∧
        Leaves dt (([Reg.TIM_STATUS, Reg.TIM_FLAGS] ++ two Reg.TIM_REFLOSS)) s t
          { t with time := { t.time with refPresent := true, phaseNext := s.time.phaseNext, ppsLast := s.time.ppsLast, refusedFor := s.time.refusedFor } })

/-- A received announcement, and one that local software writes, is counted and has one outcome, decided by the conditions
of R82 in their order: refused with its reason, ignored as a duplicate, or pending and accepted; each outcome is
counted, and the ledger of announcements holds after it if it held before. (R82) -/
def Obligations.AnnouncementOutcome : Prop := ∀ (s : State) (dt : Nat), s.wf = true →
  (∀ (a : Announce), s.unitOff 0x18 0 = false →
      ∃ t, exec (.invAnnouncementRx dt a) s = .next t ∧
        Counted Reg.INV_ANNRX 1 s t ∧
        (if a.version ≠ 1 ∨ a.snapId = 0 ∨ a.instant % 250000 ≠ 0 then (t.getF Fld.INV_STATUS_LAST_REFUSE = 1 ∧ Counted
          Reg.INV_ANNREFUSED 1 s t ∧ t.rd64 Reg.INV_ANNACCEPT = s.rd64 Reg.INV_ANNACCEPT ∧ t.rd64 Reg.INV_ANNDUP = s.rd64
          Reg.INV_ANNDUP ∧ t.inv.pending = s.inv.pending) else if (a.snapId, a.instant) ∈ s.inv.pending then (Counted
          Reg.INV_ANNDUP 1 s t ∧ t.rd64 Reg.INV_ANNACCEPT = s.rd64 Reg.INV_ANNACCEPT ∧ t.rd64 Reg.INV_ANNREFUSED = s.rd64
          Reg.INV_ANNREFUSED ∧ t.inv.pending = s.inv.pending ∧ t.getF Fld.INV_STATUS_LAST_REFUSE = s.getF
          Fld.INV_STATUS_LAST_REFUSE) else if a.instant < (s.elapse dt).time.mt + 500000 then (t.getF
          Fld.INV_STATUS_LAST_REFUSE = 2 ∧ Counted Reg.INV_ANNREFUSED 1 s t ∧ t.rd64 Reg.INV_ANNACCEPT = s.rd64
          Reg.INV_ANNACCEPT ∧ t.rd64 Reg.INV_ANNDUP = s.rd64 Reg.INV_ANNDUP ∧ t.inv.pending = s.inv.pending) else if
          (s.elapse dt).time.mt + 60000000000 < a.instant then (t.getF Fld.INV_STATUS_LAST_REFUSE = 3 ∧ Counted
          Reg.INV_ANNREFUSED 1 s t ∧ t.rd64 Reg.INV_ANNACCEPT = s.rd64 Reg.INV_ANNACCEPT ∧ t.rd64 Reg.INV_ANNDUP = s.rd64
          Reg.INV_ANNDUP ∧ t.inv.pending = s.inv.pending) else if (s.inv.pending.any fun p => p.1 == a.snapId) = true then
          (t.getF Fld.INV_STATUS_LAST_REFUSE = 4 ∧ Counted Reg.INV_ANNREFUSED 1 s t ∧ t.rd64 Reg.INV_ANNACCEPT = s.rd64
          Reg.INV_ANNACCEPT ∧ t.rd64 Reg.INV_ANNDUP = s.rd64 Reg.INV_ANNDUP ∧ t.inv.pending = s.inv.pending) else if
          (s.inv.pending.any fun p => p.2 == a.instant) = true then (t.getF Fld.INV_STATUS_LAST_REFUSE = 5 ∧ Counted
          Reg.INV_ANNREFUSED 1 s t ∧ t.rd64 Reg.INV_ANNACCEPT = s.rd64 Reg.INV_ANNACCEPT ∧ t.rd64 Reg.INV_ANNDUP = s.rd64
          Reg.INV_ANNDUP ∧ t.inv.pending = s.inv.pending) else if 4 ≤ s.inv.pending.length then (t.getF
          Fld.INV_STATUS_LAST_REFUSE = 6 ∧ Counted Reg.INV_ANNREFUSED 1 s t ∧ t.rd64 Reg.INV_ANNACCEPT = s.rd64
          Reg.INV_ANNACCEPT ∧ t.rd64 Reg.INV_ANNDUP = s.rd64 Reg.INV_ANNDUP ∧ t.inv.pending = s.inv.pending) else (Counted
          Reg.INV_ANNACCEPT 1 s t ∧ t.rd64 Reg.INV_ANNDUP = s.rd64 Reg.INV_ANNDUP ∧ t.rd64 Reg.INV_ANNREFUSED = s.rd64
          Reg.INV_ANNREFUSED ∧ t.inv.pending = s.inv.pending ++ [(a.snapId, a.instant)] ∧ t.getF Fld.INV_STATUS_LAST_REFUSE =
          s.getF Fld.INV_STATUS_LAST_REFUSE)) ∧
        (s.rd64 Reg.INV_ANNRX = (s.rd64 Reg.INV_ANNACCEPT + s.rd64 Reg.INV_ANNDUP + s.rd64 Reg.INV_ANNREFUSED) %
          18446744073709551616 → t.rd64 Reg.INV_ANNRX = (t.rd64 Reg.INV_ANNACCEPT + t.rd64 Reg.INV_ANNDUP + t.rd64
          Reg.INV_ANNREFUSED) % 18446744073709551616) ∧
        Leaves dt (([Reg.INV_STATUS] ++ two Reg.INV_ANNRX ++ two Reg.INV_ANNACCEPT ++ two Reg.INV_ANNDUP ++ two
          Reg.INV_ANNREFUSED ++ two (Reg.CSC_TXPW 1))) s t
          { t with csc := s.csc, inv := { t.inv with pending := s.inv.pending } }) ∧
  (∀ (req : Requester) (a : Announce), Lets s req Reg.INV_ANN_GO →
      s.unitOff 0x18 0 = false →
      ((s.lpe.all fun x => decide (x.1 < 8)) = true) →
      a = s.localAnnounce →
      ∃ t, exec (.invAnnGo dt req true) s = .next t ∧
        Answered t 0 0 ∧
        Counted Reg.INV_ANNRX 1 s t ∧
        (if a.version ≠ 1 ∨ a.snapId = 0 ∨ a.instant % 250000 ≠ 0 then (t.getF Fld.INV_STATUS_LAST_REFUSE = 1 ∧ Counted
          Reg.INV_ANNREFUSED 1 s t ∧ t.rd64 Reg.INV_ANNACCEPT = s.rd64 Reg.INV_ANNACCEPT ∧ t.rd64 Reg.INV_ANNDUP = s.rd64
          Reg.INV_ANNDUP ∧ t.inv.pending = s.inv.pending) else if (a.snapId, a.instant) ∈ s.inv.pending then (Counted
          Reg.INV_ANNDUP 1 s t ∧ t.rd64 Reg.INV_ANNACCEPT = s.rd64 Reg.INV_ANNACCEPT ∧ t.rd64 Reg.INV_ANNREFUSED = s.rd64
          Reg.INV_ANNREFUSED ∧ t.inv.pending = s.inv.pending ∧ t.getF Fld.INV_STATUS_LAST_REFUSE = s.getF
          Fld.INV_STATUS_LAST_REFUSE) else if a.instant < (s.elapse dt).time.mt + 500000 then (t.getF
          Fld.INV_STATUS_LAST_REFUSE = 2 ∧ Counted Reg.INV_ANNREFUSED 1 s t ∧ t.rd64 Reg.INV_ANNACCEPT = s.rd64
          Reg.INV_ANNACCEPT ∧ t.rd64 Reg.INV_ANNDUP = s.rd64 Reg.INV_ANNDUP ∧ t.inv.pending = s.inv.pending) else if
          (s.elapse dt).time.mt + 60000000000 < a.instant then (t.getF Fld.INV_STATUS_LAST_REFUSE = 3 ∧ Counted
          Reg.INV_ANNREFUSED 1 s t ∧ t.rd64 Reg.INV_ANNACCEPT = s.rd64 Reg.INV_ANNACCEPT ∧ t.rd64 Reg.INV_ANNDUP = s.rd64
          Reg.INV_ANNDUP ∧ t.inv.pending = s.inv.pending) else if (s.inv.pending.any fun p => p.1 == a.snapId) = true then
          (t.getF Fld.INV_STATUS_LAST_REFUSE = 4 ∧ Counted Reg.INV_ANNREFUSED 1 s t ∧ t.rd64 Reg.INV_ANNACCEPT = s.rd64
          Reg.INV_ANNACCEPT ∧ t.rd64 Reg.INV_ANNDUP = s.rd64 Reg.INV_ANNDUP ∧ t.inv.pending = s.inv.pending) else if
          (s.inv.pending.any fun p => p.2 == a.instant) = true then (t.getF Fld.INV_STATUS_LAST_REFUSE = 5 ∧ Counted
          Reg.INV_ANNREFUSED 1 s t ∧ t.rd64 Reg.INV_ANNACCEPT = s.rd64 Reg.INV_ANNACCEPT ∧ t.rd64 Reg.INV_ANNDUP = s.rd64
          Reg.INV_ANNDUP ∧ t.inv.pending = s.inv.pending) else if 4 ≤ s.inv.pending.length then (t.getF
          Fld.INV_STATUS_LAST_REFUSE = 6 ∧ Counted Reg.INV_ANNREFUSED 1 s t ∧ t.rd64 Reg.INV_ANNACCEPT = s.rd64
          Reg.INV_ANNACCEPT ∧ t.rd64 Reg.INV_ANNDUP = s.rd64 Reg.INV_ANNDUP ∧ t.inv.pending = s.inv.pending) else (Counted
          Reg.INV_ANNACCEPT 1 s t ∧ t.rd64 Reg.INV_ANNDUP = s.rd64 Reg.INV_ANNDUP ∧ t.rd64 Reg.INV_ANNREFUSED = s.rd64
          Reg.INV_ANNREFUSED ∧ t.inv.pending = s.inv.pending ++ [(a.snapId, a.instant)] ∧ t.getF Fld.INV_STATUS_LAST_REFUSE =
          s.getF Fld.INV_STATUS_LAST_REFUSE)) ∧
        (s.rd64 Reg.INV_ANNRX = (s.rd64 Reg.INV_ANNACCEPT + s.rd64 Reg.INV_ANNDUP + s.rd64 Reg.INV_ANNREFUSED) %
          18446744073709551616 → t.rd64 Reg.INV_ANNRX = (t.rd64 Reg.INV_ANNACCEPT + t.rd64 Reg.INV_ANNDUP + t.rd64
          Reg.INV_ANNREFUSED) % 18446744073709551616) ∧
        LeavesOut dt [0x18, 0x11, 0x0A, 0x10] s t
          { t with csc := s.csc, eth := s.eth, lpe := s.lpe, freeCtr := s.freeCtr, inv := { t.inv with pending := s.inv.pending } })

/-- An arm with its key is accepted where MEAS_SYNCAT is a multiple of 250,000 at least 500 µs ahead, on a module that
decides its own SYNCs; it is refused, and MEAS_SYNCIGN counts one, where MEAS_SYNCAT is not such a multiple or is
earlier than MT + 500 µs. Nothing else changes. (R303) -/
def Obligations.ScheduledSync : Prop := ∀ (s : State) (dt : Nat), s.wf = true →
  (∀ (req : Requester) (a : Nat), Lets s req Reg.MEAS_SYNCCMD →
      s.measMember = false →
      s.measMaster = false →
      a = s.rd64 Reg.MEAS_SYNCAT →
      a % 250000 = 0 →
      (s.elapse dt).time.mt + 500000 ≤ a →
      ∃ t, exec (.measSyncArm dt req 0xC3) s = .next t ∧
        Answered t 0 0 ∧
        t.meas.armed = some a ∧
        t.bit Fld.MEAS_STATUS_SYNCPEND = true ∧
        Leaves dt [Reg.MEAS_STATUS] s t { t with meas := { t.meas with armed := s.meas.armed } }) ∧
  (∀ (req : Requester), Lets s req Reg.MEAS_SYNCCMD →
      s.rd64 Reg.MEAS_SYNCAT % 250000 ≠ 0 ∨ s.rd64 Reg.MEAS_SYNCAT < (s.elapse dt).time.mt + 500000 →
      ∃ t, exec (.measSyncArm dt req 0xC3) s = .next t ∧
        Answered t 0 0 ∧
        Counted Reg.MEAS_SYNCIGN 1 s t ∧
        Leaves dt ((two Reg.MEAS_SYNCIGN)) s t t)

/-- When the input falls below 14.0 V, or over-voltage disconnects it, PFW is set and counted, the mailboxes selected in
PWR_PFWIRQ get a message, and the event is offered; no other block changes. (R551) -/
def Obligations.PowerFailWarning : Prop := ∀ (s : State) (dt : Nat), s.wf = true →
  (∀ (vin : Nat), s.lcs.phase ≠ .off →
      vin < 1400 →
      s.bit Fld.PWR_STATUS_PFW = false →
      PortRoom s 0x16 →
      ∃ t, exec (.pwrPfw dt vin) s = .next t ∧
        t.bit Fld.PWR_STATUS_PFW = true ∧
        t.bit Fld.PWR_STATUS_HOLDUP_OK = false ∧
        t.getF Fld.PWR_VIN_VIN = vin ∧
        Counted Reg.PWR_PFWS 1 s t ∧
        t.pwr.pfwAt = some (s.elapse dt).time.clock ∧
        (((bitsOf 9 (s.getF Fld.PWR_PFWIRQ_MBOX)).all fun b => (tget t.mbox b).contains 0x16) = true) ∧
        Offered 0x16 0x1701 4 59 (p4 [vin]) s t ∧
        Leaves dt (([Reg.PWR_VIN, Reg.PWR_STATUS] ++ two Reg.PWR_PFWS)) s t
          { t with mbox := s.mbox, pwr := { t.pwr with pfwAt := s.pwr.pfwAt }, arc := { t.arc with ports := s.arc.ports } })
          ∧
  (∀ (vin : Nat), s.lcs.phase ≠ .off →
      15400 < vin →
      s.bit Fld.PWR_STATUS_OVDISC = false →
      s.bit Fld.PWR_STATUS_PFW = false →
      (tget s.arc.ports 0x16).length < 31 →
      ∃ t, exec (.pwrOvervoltage dt vin) s = .next t ∧
        t.bit Fld.PWR_STATUS_OVDISC = true ∧
        t.bit Fld.PWR_STATUS_PFW = true ∧
        t.bit Fld.PWR_STATUS_HOLDUP_OK = false ∧
        t.pwr.x1Connected = false ∧
        Counted Reg.PWR_OVDISCS 1 s t ∧
        Counted Reg.PWR_PFWS 1 s t ∧
        tget t.arc.ports 0x16 = tget s.arc.ports 0x16 ++ [⟨0x17, 0x1705, 4, 59, t.time.mt, p4 [vin]⟩, ⟨0x17, 0x1701, 4, 59,
          t.time.mt, p4 [vin]⟩] ∧
        Leaves dt (([Reg.PWR_VIN, Reg.PWR_STATUS] ++ two Reg.PWR_OVDISCS ++ two Reg.PWR_PFWS)) s t
          { t with mbox := s.mbox, pwr := { t.pwr with x1Connected := s.pwr.x1Connected, pfwAt := s.pwr.pfwAt }, arc := { t.arc with ports := s.arc.ports } })

/-- A token of KIND 6 signed with a different slot revokes the slot that it names when its command completes, with its
event and its Provenance record of KIND 5; one signed with the slot itself is refused; a revocation that would leave
no slot is refused with result 15. Nothing else changes. (R504) -/
def Obligations.SlotRevocation : Prop := ∀ (s : State) (dt : Nat), s.wf = true →
  (∀ (req : Requester) (arg : Byte) (n0 n1 : BitVec 64), Lets s req Reg.LCS_CMD →
      s.lcs.busy = none →
      s.tokenCheck s.token 6 = 0 →
      s.token.tokenSlot ≠ s.token.keySlot →
      s.token.tokenSlot < 4 →
      (((List.range 4).any fun k => k != s.token.tokenSlot && (s.getF Fld.LCS_KEYS_PRESENT).testBit k && !(s.getF
        Fld.LCS_KEYS_REVOKED).testBit k) = true) →
      ∃ t, exec (.lcsCmdRevoke dt req 0xC9 arg n0 n1) s = .next t ∧
        Answered t 0 0 ∧
        t.lcs.busy = some ⟨2, 0, (.revoke s.token.tokenSlot), some (n0.toNat, n1.toNat)⟩ ∧
        t.bit Fld.LCS_CMDRES_BUSY = true ∧
        t.getF Fld.LCS_CMDRES_CMD = 2 ∧
        t.getF Fld.LCS_CMDRES_RESULT = 0 ∧
        Leaves dt [Reg.LCS_CMDRES] s t { t with lcs := { t.lcs with busy := s.lcs.busy } }) ∧
  (∀ (req : Requester) (arg : Byte) (n0 n1 : BitVec 64), Lets s req Reg.LCS_CMD →
      s.lcs.busy = none →
      s.tokenCheck s.token 6 = 0 →
      s.token.tokenSlot = s.token.keySlot →
      (((List.range 4).any fun k => k != s.token.tokenSlot && (s.getF Fld.LCS_KEYS_PRESENT).testBit k && !(s.getF
        Fld.LCS_KEYS_REVOKED).testBit k) = true) →
      (tget s.arc.ports 0x15).length < 31 →
      ∃ t, exec (.lcsCmdRevoke dt req 0xC9 arg n0 n1) s = .next t ∧
        Answered t 0 0 ∧
        t.lcs.busy = some ⟨2, 2, .revoke s.token.tokenSlot, some (n0.toNat, n1.toNat)⟩ ∧
        t.bit Fld.LCS_CMDRES_BUSY = true ∧
        tget t.arc.ports 0x15 = tget s.arc.ports 0x15 ++ [⟨0x16, 0x1605, 3, 60, t.time.mt, p4 [s.token.kind, 2]⟩, ⟨0x16,
          0x1602, 3, 60, t.time.mt, p4 [2]⟩] ∧
        Leaves dt [Reg.LCS_CMDRES] s t
          { t with lcs := { t.lcs with busy := s.lcs.busy }, arc := { t.arc with ports := s.arc.ports } }) ∧
  (∀ (req : Requester) (arg : Byte) (n0 n1 : BitVec 64), Lets s req Reg.LCS_CMD →
      s.lcs.busy = none →
      s.tokenCheck s.token 6 = 0 →
      (((List.range 4).any fun k => k != s.token.tokenSlot && (s.getF Fld.LCS_KEYS_PRESENT).testBit k && !(s.getF
        Fld.LCS_KEYS_REVOKED).testBit k) = false) →
      PortRoom s 0x15 →
      ∃ t, exec (.lcsCmdRevoke dt req 0xC9 arg n0 n1) s = .next t ∧
        Answered t 0 0 ∧
        t.lcs.busy = some ⟨2, 15, .revoke s.token.tokenSlot, some (n0.toNat, n1.toNat)⟩ ∧
        t.bit Fld.LCS_CMDRES_BUSY = true ∧
        Offered 0x15 0x1602 3 60 (p4 [15]) s t ∧
        Leaves dt [Reg.LCS_CMDRES] s t
          { t with lcs := { t.lcs with busy := s.lcs.busy }, arc := { t.arc with ports := s.arc.ports } }) ∧
  (∀ (slot : Nat), s.lcs.busy = some ⟨2, 0, .revoke slot, none⟩ →
      slot < 4 →
      PortRoom s 0x15 →
      s.prv.port.length < 64 →
      ∃ t, exec (.lcsCmdComplete dt) s = .next t ∧
        t.lcs.busy = none ∧
        t.bit Fld.LCS_CMDRES_BUSY = false ∧
        t.getF Fld.LCS_CMDRES_CMD = 2 ∧
        t.getF Fld.LCS_CMDRES_RESULT = 0 ∧
        t.getF Fld.LCS_KEYS_REVOKED = s.getF Fld.LCS_KEYS_REVOKED ||| 2 ^ slot ∧
        Offered 0x15 0x1603 4 60 (p4 [slot]) s t ∧
        Counted Reg.PRV_OFFERED 1 s t ∧
        t.prv.port = s.prv.port ++
          [{ mt := (s.elapse dt).time.mt, kind := 5, port := 0xFE, session := 0, user := 0, reservedOk := true, object := State.objectBytes 5 slot, oldHash := (Config.contentHash s.freeCtr).toNat, newHash := (Config.contentHash (s.freeCtr + 1)).toNat }]
          ∧
        Leaves dt ((Reg.LCS_CMDRES :: Reg.LCS_KEYS :: two Reg.PRV_OFFERED)) s t
          { t with lcs := { t.lcs with busy := s.lcs.busy }, freeCtr := s.freeCtr, prv := { t.prv with port := s.prv.port }, arc := { t.arc with ports := s.arc.ports } })

/-- Before first lock, in a lock attempt or after one, a gPTP Sync that the module follows, whatever its offset, and a PPS
pulse of the selected reference and polarity, whatever second it marks, make the reference present and leave a step
pending; a pulse also moves TIM_PPS_SEC on. After first lock an offset of a Sync within TIME_JUMP_LIMIT sets LOCKED
with SRC = 1 and TIM_REFOFS, and the two rate parts stay within 100 ppm together; one beyond the limit in LOCKED is
refused, flagged and counted, and leaves HOLDOVER, or SLEWING where SLEW is set, with the offset in TIM_REFOFS. 3 s
without first lock or a waiting step end the lock attempt in state 1 with SRC = 0; a step accepted with the key in
HOLDOVER or SLEWING, with a reference present, is answered and left pending. Nothing else changes. (R58, R61, R63,
R64, R67, R68, R59, R65, R70, R71) -/
def Obligations.TimeReferences : Prop := ∀ (s : State) (dt : Nat), s.wf = true →
  (∀ (offset : Int) (sync : GptpSync), s.getF Fld.TIM_CTL_REFSEL = 0 →
      s.follows sync = true →
      s.time.firstLockDone = false →
      s.time.lockStart.isSome = true ∨ s.time.lockOver = true →
      ∃ t, exec (.gptpSyncRx dt offset sync) s = .next t ∧
        t.bit Fld.TIM_STATUS_STEP_PENDING = true ∧
        t.time.refPresent = true ∧
        t.time.grandmaster = sync.gm.toNat ∧
        Leaves dt [Reg.TIM_STATUS] s t
          { t with time := { t.time with refPresent := s.time.refPresent, grandmaster := s.time.grandmaster } }) ∧
  (∀ (offset : Int) (sync : GptpSync), s.getF Fld.TIM_CTL_REFSEL = 0 →
      s.follows sync = true →
      s.time.firstLockDone = true →
      offset.natAbs ≤ s.jumpLimit →
      ∃ t, exec (.gptpSyncRx dt offset sync) s = .next t ∧
        t.timeState = 2 ∧
        t.rdI64 Reg.TIM_REFOFS = offset ∧
        t.time.freqNext.natAbs ≤ 6553600 ∧
        (t.time.freqNext + t.time.phaseNext).natAbs ≤ 6553600 ∧
        t.getF Fld.TIM_STATUS_SRC = 1 ∧
        Leaves dt (([Reg.TIM_STATUS] ++ two Reg.TIM_REFOFS)) s t
          { t with freeCtr := s.freeCtr, time := { t.time with refPresent := s.time.refPresent, grandmaster := s.time.grandmaster, refusedFor := s.time.refusedFor, gained := (s.elapse dt).time.gained, freqNext := s.time.freqNext, phaseNext := s.time.phaseNext } })
          ∧
  (∀ (offset : Int) (sync : GptpSync), s.getF Fld.TIM_CTL_REFSEL = 0 →
      s.follows sync = true →
      s.time.firstLockDone = true →
      s.timeState = 2 →
      s.jumpLimit < offset.natAbs →
      offset.natAbs < 9223372036854775808 →
      ∃ t, exec (.gptpSyncRx dt offset sync) s = .next t ∧
        (t.timeState = if s.bit Fld.TIM_CTL_SLEW then 4 else 3) ∧
        t.bit Fld.TIM_FLAGS_TIME_JUMP_REFUSED = true ∧
        Counted Reg.TIM_JUMPREFUSED 1 s t ∧
        t.rdI64 Reg.TIM_REFOFS = offset ∧
        Leaves dt (([Reg.TIM_STATUS, Reg.TIM_FLAGS] ++ two Reg.TIM_REFOFS ++ two Reg.TIM_JUMPREFUSED)) s t
          { t with time := { t.time with refPresent := s.time.refPresent, grandmaster := s.time.grandmaster, refusedFor := s.time.refusedFor, gained := (s.elapse dt).time.gained, phaseNext := s.time.phaseNext } })
          ∧
  (∀ (rising : Bool) (width : Nat), s.getF Fld.TIM_CTL_REFSEL = 1 →
      rising = !s.bit Fld.TIM_CTL_PPSIN_POL →
      1000 ≤ width →
      width ≤ 500000000 →
      s.rd64 Reg.TIM_PPS_SEC ≠ 0 →
      s.time.firstLockDone = false →
      s.time.lockStart.isSome = true ∨ s.time.lockOver = true →
      ∃ t, exec (.ppsInPulse dt ⟨rising, width⟩) s = .next t ∧
        Counted Reg.TIM_PPS_SEC 1 s t ∧
        t.bit Fld.TIM_STATUS_STEP_PENDING = true ∧
        t.time.refPresent = true ∧
        t.time.grandmaster = ppsSource ∧
        t.time.ppsLast = some (s.elapse dt).time.clock ∧
        Leaves dt (([Reg.TIM_STATUS] ++ two Reg.TIM_PPS_SEC)) s t
          { t with time := { t.time with refPresent := s.time.refPresent, grandmaster := s.time.grandmaster, ppsLast := s.time.ppsLast } })
          ∧
  (∀ (start : Nat), s.time.lockStart = some start →
      s.time.firstLockDone = false →
      s.bit Fld.TIM_STATUS_STEP_PENDING = false →
      start + 3000000000 ≤ (s.elapse dt).time.clock →
      ∃ t, exec (.firstLockTimeout dt) s = .next t ∧
        t.timeState = 1 ∧
        t.getF Fld.TIM_STATUS_SRC = 0 ∧
        t.time.lockOver = true ∧
        Leaves dt [Reg.TIM_STATUS] s t
          { t with time := { t.time with lockStart := s.time.lockStart, lockOver := s.time.lockOver } }) ∧
  (∀ (req : Requester), Lets s req Reg.TIM_STEPCTL →
      s.timeState = 3 ∨ s.timeState = 4 →
      s.time.refPresent = true →
      ∃ t, exec (.timStepAccept dt req 0xA5 true) s = .next t ∧
        t.bit Fld.TIM_STATUS_STEP_PENDING = true ∧
        Answered t 0 0 ∧
        Leaves dt [Reg.TIM_STATUS] s t t)

/-- Every beat edge counts one beat edge, leaves no step pending, puts the next edge one beat ahead of module time, or one
beat and the stretch of a step, and never moves the own clock back. With a step pending in a module out of reset, MT
moves by the offset of the step, which TIM_LASTSTEP shows, the stretched beat begins in LOCKED, and the step is
flagged and counted; without one module time stands at the edge and the next edge is one beat on. A module held in
reset does only this: MT, the counts of beats, the rate of the beat and the end of a stretched beat. (R50, R53, R56,
R63, R64, R71) -/
def Obligations.BeatEdges : Prop := ∀ (s : State) (dt : Nat), s.wf = true →
  (∀ (env : EdgeEnv), ∃ t, exec (.beatEdge dt env) s = .next t ∧
        t.bit Fld.TIM_STATUS_STEP_PENDING = false ∧
        t.time.mt + 250000 ≤ t.time.edgeAt ∧
        t.time.edgeAt < t.time.mt + 500000 ∧
        t.time.beatSeq = s.time.beatSeq + 1 ∧
        s.time.clock + (s.time.edgeAt - s.time.mt) ≤ t.time.clock ∧
        t.pending = s.pending) ∧
  (∀ (env : EdgeEnv), s.lcs.phase ≠ .off →
      s.bit Fld.TIM_STATUS_STEP_PENDING = true →
      ∃ t, exec (.beatEdge dt env) s = .next t ∧
        (t.time.mt : Int) = ((max (s.elapse dt).time.mt s.time.edgeAt : Nat) + env.stepDelta) % 18446744073709551616 ∧
        t.time.edgeAt = t.time.mt + 250000 + ((-env.stepDelta) % 250000).toNat ∧
        t.bit Fld.TIM_STATUS_STRETCH = true ∧
        t.timeState = 2 ∧
        t.bit Fld.TIM_FLAGS_STEP_APPLIED = true ∧
        t.rdI64 Reg.TIM_LASTSTEP = env.stepDelta ∧
        Counted Reg.TIM_STEPS 1 s t ∧
        t.time.firstLockDone = true) ∧
  (∀ (env : EdgeEnv), s.bit Fld.TIM_STATUS_STEP_PENDING = false →
      ∃ t, exec (.beatEdge dt env) s = .next t ∧
        t.time.mt = max (s.elapse dt).time.mt s.time.edgeAt ∧
        t.time.edgeAt = t.time.mt + 250000 ∧
        t.bit Fld.TIM_STATUS_STRETCH = false ∧
        t.time.firstLockDone = s.time.firstLockDone) ∧
  (∀ (env : EdgeEnv), s.lcs.phase = .off →
      s.time.mt ≤ s.time.edgeAt →
      s.bit Fld.TIM_STATUS_STEP_PENDING = false →
      ∃ t, exec (.beatEdge dt env) s = .next t ∧
        t.time.mt = s.time.edgeAt ∧
        t.time.edgeAt = s.time.edgeAt + 250000 ∧
        t.time.beatSeq = s.time.beatSeq + 1 ∧
        t.time.edgeStart = t.time.mono ∧
        t.rd Reg.TIM_RATE = ((s.time.freqNext + s.time.phaseNext) % 4294967296).toNat ∧
        t.bit Fld.TIM_STATUS_STRETCH = false ∧
        Leaves dt (([Reg.TIM_RATE, Reg.TIM_STATUS] ++ two Reg.TIM_LASTSTEP_MT)) s t { t with time := (s.elapse dt).time })

/-- A 64-bit pop read of a queue with no read in flight, by a requester of this module none of whose earlier accesses
waits, answers its head entry and puts the read in flight, leaving the entry; one of another module is answered by a
completion, which CSC_TXCPL counts and Loupe units of the bridge may fold. A read of an empty queue answers 0 and puts
none in flight, a 32-bit read answers 0, of class T through the boundary to the lanes, and one that finds another in
flight waits. The accepted response removes the entry, which the TSQ and CRR registers then show and count, or brings
the record of the Archive that was read into the window, shows its POS and moves the cursor past it; a discarded
response leaves the entry where it was. Nothing else changes. (R75, R94, R240, R241, R242, R417, R434, R466) -/
def Obligations.PopReads : Prop := ∀ (s : State) (dt : Nat), s.wf = true →
  (∀ (q : Fin 9) (e : TsEntry) (rest : List TsEntry) (req : Requester), s.issues req = true →
      s.heldBack req = false →
      req.cls ≠ .x →
      s.memCheck req.cls false (regPhys (Reg.POP_TSQ_META q.val)) = 0 →
      (tget s.pops (popKey (.tsq q))).inFlight = none →
      (tget s.pops (popKey (.tsq q))).waiting = [] →
      (tget s.tsq q.val).entries = e :: rest →
      ∃ t, exec (.popTsqMetaRead dt req q true) s = .next t ∧
        Answered t 0 (9223372036854775808 + e.seq * 65536 + e.tag) ∧
        (tget t.pops (popKey (.tsq q))).inFlight = some req ∧
        Leaves dt [] s t { t with pops := s.pops }) ∧
  (∀ (q : Fin 9) (e : TsEntry) (rest : List TsEntry) (req : Requester), s.heldBack req = false →
      req.cls = .x →
      s.memCheck req.cls false (regPhys (Reg.POP_TSQ_META q.val)) = 0 →
      (tget s.pops (popKey (.tsq q))).inFlight = none →
      (tget s.pops (popKey (.tsq q))).waiting = [] →
      (tget s.tsq q.val).entries = e :: rest →
      ∃ t, exec (.popTsqMetaRead dt req q true) s = .next t ∧
        Counted (Reg.CSC_TXCPL (s.farPort req.core)) 1 s t ∧
        (tget t.pops (popKey (.tsq q))).inFlight = some req ∧
        LeavesOut dt [0x11, 0x10] s t { t with pops := s.pops, csc := s.csc, lpe := s.lpe, lpeUnits := s.lpeUnits }) ∧
  (∀ (c : Fin 16) (x : Nat × Nat) (rest : List (Nat × Nat)) (req : Requester), s.issues req = true →
      s.heldBack req = false →
      req.cls ≠ .x →
      s.memCheck req.cls false (regPhys (Reg.POP_CRR_META c.val)) = 0 →
      (tget s.pops (popKey (.crr c))).inFlight = none →
      (tget s.pops (popKey (.crr c))).waiting = [] →
      x.1 ≠ 0 ∧ tget s.crr.popq c.val = x :: rest →
      ∃ t, exec (.popCrrMetaRead dt req c true) s = .next t ∧
        Answered t 0 (x.1) ∧
        (tget t.pops (popKey (.crr c))).inFlight = some req ∧
        Leaves dt [] s t { t with pops := s.pops }) ∧
  (∀ (c : Fin 16) (x : Nat × Nat) (rest : List (Nat × Nat)) (req : Requester), s.heldBack req = false →
      req.cls = .x →
      s.memCheck req.cls false (regPhys (Reg.POP_CRR_META c.val)) = 0 →
      (tget s.pops (popKey (.crr c))).inFlight = none →
      (tget s.pops (popKey (.crr c))).waiting = [] →
      x.1 ≠ 0 ∧ tget s.crr.popq c.val = x :: rest →
      ∃ t, exec (.popCrrMetaRead dt req c true) s = .next t ∧
        Counted (Reg.CSC_TXCPL (s.farPort req.core)) 1 s t ∧
        (tget t.pops (popKey (.crr c))).inFlight = some req ∧
        LeavesOut dt [0x11, 0x10] s t { t with pops := s.pops, csc := s.csc, lpe := s.lpe, lpeUnits := s.lpeUnits }) ∧
  (∀ (r : ArcRec) (req : Requester), s.issues req = true →
      s.heldBack req = false →
      req.cls ≠ .x →
      s.memCheck req.cls false (regPhys (Reg.POP_ARC_NEXT)) = 0 →
      (tget s.pops (popKey .arc)).inFlight = none →
      (tget s.pops (popKey .arc)).waiting = [] →
      s.windowRec = some r →
      ∃ t, exec (.popArcNextRead dt req true) s = .next t ∧
        (Answered t 0 (9223372036854775808 + (if r.pos = s.rd64 Reg.ARC_RDPOS then 0 else 4611686018427387904) + r.src *
          4294967296 + r.seq)) ∧
        (tget t.pops (popKey .arc)).inFlight = some req ∧
        Leaves dt [] s t { t with pops := s.pops }) ∧
  (∀ (r : ArcRec) (req : Requester), s.heldBack req = false →
      req.cls = .x →
      s.memCheck req.cls false (regPhys (Reg.POP_ARC_NEXT)) = 0 →
      (tget s.pops (popKey .arc)).inFlight = none →
      (tget s.pops (popKey .arc)).waiting = [] →
      s.windowRec = some r →
      ∃ t, exec (.popArcNextRead dt req true) s = .next t ∧
        Counted (Reg.CSC_TXCPL (s.farPort req.core)) 1 s t ∧
        (tget t.pops (popKey .arc)).inFlight = some req ∧
        LeavesOut dt [0x11, 0x10] s t { t with pops := s.pops, csc := s.csc, lpe := s.lpe, lpeUnits := s.lpeUnits }) ∧
  (∀ (q : Fin 9) (req : Requester), s.issues req = true →
      s.heldBack req = false →
      req.cls ≠ .x →
      s.memCheck req.cls false (regPhys (Reg.POP_TSQ_META q.val)) = 0 →
      (tget s.pops (popKey (.tsq q))).inFlight = none →
      (tget s.pops (popKey (.tsq q))).waiting = [] →
      (tget s.tsq q.val).entries = [] →
      ∃ t, exec (.popTsqMetaRead dt req q true) s = .next t ∧
        Answered t 0 0 ∧
        (tget t.pops (popKey (.tsq q))).inFlight = none ∧
        (req.cls = .t → t.triad.sample = some ⟨.readResponse, 0, 0⟩) ∧
        (req.cls ≠ .t → t.triad = s.triad) ∧
        Leaves dt [] s t { t with pops := s.pops, triad := s.triad }) ∧
  (∀ (c : Fin 16) (req : Requester), s.issues req = true →
      s.heldBack req = false →
      req.cls ≠ .x →
      s.memCheck req.cls false (regPhys (Reg.POP_CRR_META c.val)) = 0 →
      (tget s.pops (popKey (.crr c))).inFlight = none →
      (tget s.pops (popKey (.crr c))).waiting = [] →
      tget s.crr.popq c.val = [] →
      ∃ t, exec (.popCrrMetaRead dt req c true) s = .next t ∧
        Answered t 0 0 ∧
        (tget t.pops (popKey (.crr c))).inFlight = none ∧
        (req.cls = .t → t.triad.sample = some ⟨.readResponse, 0, 0⟩) ∧
        (req.cls ≠ .t → t.triad = s.triad) ∧
        Leaves dt [] s t { t with pops := s.pops, triad := s.triad }) ∧
  (∀ (req : Requester), s.issues req = true →
      s.heldBack req = false →
      req.cls ≠ .x →
      s.memCheck req.cls false (regPhys (Reg.POP_ARC_NEXT)) = 0 →
      (tget s.pops (popKey .arc)).inFlight = none →
      (tget s.pops (popKey .arc)).waiting = [] →
      s.windowRec = none →
      ∃ t, exec (.popArcNextRead dt req true) s = .next t ∧
        Answered t 0 0 ∧
        (tget t.pops (popKey .arc)).inFlight = none ∧
        (req.cls = .t → t.triad.sample = some ⟨.readResponse, 0, 0⟩) ∧
        (req.cls ≠ .t → t.triad = s.triad) ∧
        Leaves dt [] s t { t with pops := s.pops, triad := s.triad }) ∧
  (∀ (q : Fin 9) (req : Requester), s.issues req = true →
      s.heldBack req = false →
      req.cls ≠ .x →
      s.memCheck req.cls false (regPhys (Reg.POP_TSQ_META q.val)) = 0 →
      ∃ t, exec (.popTsqMetaRead dt req q false) s = .next t ∧
        Answered t 0 0 ∧
        (req.cls = .t → t.triad.sample = some ⟨.readResponse, 0, 0⟩) ∧
        (req.cls ≠ .t → t.triad = s.triad) ∧
        Leaves dt [] s t { t with triad := s.triad }) ∧
  (∀ (c : Fin 16) (req : Requester), s.issues req = true →
      s.heldBack req = false →
      req.cls ≠ .x →
      s.memCheck req.cls false (regPhys (Reg.POP_CRR_META c.val)) = 0 →
      ∃ t, exec (.popCrrMetaRead dt req c false) s = .next t ∧
        Answered t 0 0 ∧
        (req.cls = .t → t.triad.sample = some ⟨.readResponse, 0, 0⟩) ∧
        (req.cls ≠ .t → t.triad = s.triad) ∧
        Leaves dt [] s t { t with triad := s.triad }) ∧
  (∀ (req : Requester), s.issues req = true →
      s.heldBack req = false →
      req.cls ≠ .x →
      s.memCheck req.cls false (regPhys (Reg.POP_ARC_NEXT)) = 0 →
      ∃ t, exec (.popArcNextRead dt req false) s = .next t ∧
        Answered t 0 0 ∧
        (req.cls = .t → t.triad.sample = some ⟨.readResponse, 0, 0⟩) ∧
        (req.cls ≠ .t → t.triad = s.triad) ∧
        Leaves dt [] s t { t with triad := s.triad }) ∧
  (∀ (q : Fin 9) (req : Requester), s.issues req = true →
      s.heldBack req = false →
      s.memCheck req.cls false (regPhys (Reg.POP_TSQ_META q.val)) = 0 →
      (tget s.pops (popKey (.tsq q))).inFlight.isSome = true →
      ∃ t, exec (.popTsqMetaRead dt req q true) s = .next t ∧
        tget t.pops (popKey (.tsq q)) =
          { tget s.pops (popKey (.tsq q)) with waiting := (tget s.pops (popKey (.tsq q))).waiting ++ [req] } ∧
        Leaves dt [] s t { t with pops := s.pops }) ∧
  (∀ (c : Fin 16) (req : Requester), s.issues req = true →
      s.heldBack req = false →
      s.memCheck req.cls false (regPhys (Reg.POP_CRR_META c.val)) = 0 →
      (tget s.pops (popKey (.crr c))).inFlight.isSome = true →
      ∃ t, exec (.popCrrMetaRead dt req c true) s = .next t ∧
        tget t.pops (popKey (.crr c)) =
          { tget s.pops (popKey (.crr c)) with waiting := (tget s.pops (popKey (.crr c))).waiting ++ [req] } ∧
        Leaves dt [] s t { t with pops := s.pops }) ∧
  (∀ (req : Requester), s.issues req = true →
      s.heldBack req = false →
      s.memCheck req.cls false (regPhys (Reg.POP_ARC_NEXT)) = 0 →
      (tget s.pops (popKey .arc)).inFlight.isSome = true →
      ∃ t, exec (.popArcNextRead dt req true) s = .next t ∧
        tget t.pops (popKey .arc) =
          { tget s.pops (popKey .arc) with waiting := (tget s.pops (popKey .arc)).waiting ++ [req] } ∧
        Leaves dt [] s t { t with pops := s.pops }) ∧
  (∀ (req : Requester) (r : ArcRec), (tget s.pops (popKey .arc)).inFlight = some req →
      req.cls ≠ .t →
      (tget s.pops (popKey .arc)).waiting = [] →
      s.app.parked = [] →
      (tget s.pops (popKey .arc)).record = some r →
      (recImage r).length ≤ 4096 →
      ∃ t, exec (.popResponseAccepted dt .arc) s = .next t ∧
        t.rd64 Reg.POP_ARC_POS = r.pos % 18446744073709551616 ∧
        t.rd64 Reg.ARC_RDPOS = (r.pos + 1) % 18446744073709551616 ∧
        (∀ k, k < 1024 → t.rd (Reg.POP_ARC_REC + 4 * k) = leNat (((recImage r ++ List.replicate (4096 - (recImage r).length)
          0).drop (4 * k)).take 4)) ∧
        (tget t.pops (popKey .arc)).inFlight = none ∧
        (Leaves dt ((two Reg.POP_ARC_POS ++ two Reg.ARC_RDPOS ++ (List.range 1024).map fun k => Reg.POP_ARC_REC + 4 * k)) s t
          { t with pops := s.pops })) ∧
  (∀ (req : Requester) (q : Fin 9) (e : TsEntry) (rest : List TsEntry), (tget s.pops (popKey (.tsq q))).inFlight = some req →
      req.cls ≠ .t →
      (tget s.pops (popKey (.tsq q))).waiting = [] →
      s.app.parked = [] →
      (tget s.tsq q.val).entries = e :: rest →
      rest.length < 32 →
      ∃ t, exec (.popResponseAccepted dt (.tsq q)) s = .next t ∧
        t.rd64 (Reg.POP_TSQ_TS q.val) = e.ts % 18446744073709551616 ∧
        Counted (Reg.TIM_TSQPOP q.val) 1 s t ∧
        t.getF (Fld.TIM_TSQDEPTH_DEPTH q.val) = rest.length ∧
        (tget t.tsq q.val).entries = rest ∧
        Leaves dt ((two (Reg.POP_TSQ_TS q.val) ++ two (Reg.TIM_TSQPOP q.val) ++ [Reg.TIM_TSQDEPTH q.val])) s t
          { t with pops := s.pops, tsq := s.tsq }) ∧
  (∀ (req : Requester) (c : Fin 16) (x : Nat × Nat) (rest : List (Nat × Nat)), (tget s.pops (popKey (.crr c))).inFlight =
    some req →
      req.cls ≠ .t →
      (tget s.pops (popKey (.crr c))).waiting = [] →
      s.app.parked = [] →
      tget s.crr.popq c.val = x :: rest →
      ∃ t, exec (.popResponseAccepted dt (.crr c)) s = .next t ∧
        t.rd64 (Reg.POP_CRR_INFO c.val) = x.2 % 18446744073709551616 ∧
        Counted (Reg.CRR_CPOP c.val) 1 s t ∧
        tget t.crr.popq c.val = rest ∧
        Leaves dt ((two (Reg.POP_CRR_INFO c.val) ++ two (Reg.CRR_CPOP c.val))) s t { t with pops := s.pops, crr := s.crr }) ∧
  (∀ (q : PopQueue), (tget s.pops (popKey q)).waiting = [] →
      s.app.parked = [] →
      ∃ t, exec (.popResponseDiscarded dt q) s = .next t ∧
        s.popHead q = t.popHead q ∧
        (tget t.pops (popKey q)).inFlight = none ∧
        Leaves dt [] s t { t with pops := s.pops })

/-- Of a module that is not held in reset: at 15.0 V or more PFW clears with the length of the dip; above 154 V X1 is
disconnected, below 150 V connected again; the range flags are set with their event; a charged store sets HOLDUP_OK.
Every command also shows the reading. Nothing else changes. (R547, R548, R551, R553) -/
def Obligations.PowerInput : Prop := ∀ (s : State) (dt : Nat), s.wf = true →
  (∀ (vin since : Nat), s.lcs.phase ≠ .off →
      1500 ≤ vin →
      s.bit Fld.PWR_STATUS_PFW = true →
      s.bit Fld.PWR_STATUS_NV_STOP = false →
      s.bit Fld.PWR_STATUS_OVDISC = false →
      s.pwr.pfwAt = some since →
      ((s.elapse dt).time.clock - since) / 1000 < 4294967296 →
      PortRoom s 0x16 →
      ∃ t, exec (.pwrPfwClear dt vin) s = .next t ∧
        t.bit Fld.PWR_STATUS_PFW = false ∧
        t.getF Fld.PWR_VIN_VIN = vin % 65536 ∧
        Counted Reg.PWR_PFWCLEARS 1 s t ∧
        t.rd Reg.PWR_LASTDIP = ((s.elapse dt).time.clock - since) / 1000 ∧
        t.pwr.pfwAt = none ∧
        Offered 0x16 0x1702 2 59 (p4 [((s.elapse dt).time.clock - since) / 1000]) s t ∧
        Leaves dt (([Reg.PWR_VIN, Reg.PWR_STATUS, Reg.PWR_LASTDIP] ++ two Reg.PWR_PFWCLEARS)) s t
          { t with pwr := { t.pwr with pfwAt := s.pwr.pfwAt }, arc := { t.arc with ports := s.arc.ports } }) ∧
  (∀ (vin : Nat), s.lcs.phase ≠ .off →
      15400 < vin →
      s.bit Fld.PWR_STATUS_OVDISC = false →
      s.bit Fld.PWR_STATUS_PFW = true →
      PortRoom s 0x16 →
      ∃ t, exec (.pwrOvervoltage dt vin) s = .next t ∧
        t.bit Fld.PWR_STATUS_OVDISC = true ∧
        t.pwr.x1Connected = false ∧
        Counted Reg.PWR_OVDISCS 1 s t ∧
        t.getF Fld.PWR_VIN_VIN = vin % 65536 ∧
        Offered 0x16 0x1705 4 59 (p4 [vin]) s t ∧
        Leaves dt (([Reg.PWR_VIN, Reg.PWR_STATUS] ++ two Reg.PWR_OVDISCS)) s t
          { t with pwr := { t.pwr with x1Connected := s.pwr.x1Connected }, arc := { t.arc with ports := s.arc.ports } }) ∧
  (∀ (vin : Nat), s.lcs.phase ≠ .off →
      vin < 15000 →
      ∃ t, exec (.overvoltageReconnect dt vin) s = .next t ∧
        t.bit Fld.PWR_STATUS_OVDISC = false ∧
        t.pwr.x1Connected = true ∧
        t.getF Fld.PWR_VIN_VIN = vin ∧
        Leaves dt [Reg.PWR_VIN, Reg.PWR_STATUS] s t { t with pwr := { t.pwr with x1Connected := s.pwr.x1Connected } }) ∧
  (∀ (vin : Nat), s.lcs.phase ≠ .off →
      13750 < vin →
      s.bit Fld.PWR_STATUS_VIN_HIGH = false →
      PortRoom s 0x16 →
      ∃ t, exec (.pwrVinRange dt true vin) s = .next t ∧
        t.bit Fld.PWR_STATUS_VIN_HIGH = true ∧
        t.getF Fld.PWR_VIN_VIN = vin % 65536 ∧
        Offered 0x16 0x1704 3 59 (p4 [1, vin]) s t ∧
        Leaves dt [Reg.PWR_VIN, Reg.PWR_STATUS] s t { t with arc := { t.arc with ports := s.arc.ports } }) ∧
  (∀ (vin : Nat), s.lcs.phase ≠ .off →
      vin < 1680 →
      s.bit Fld.PWR_STATUS_VIN_LOW = false →
      s.bit Fld.PWR_STATUS_PFW = false →
      PortRoom s 0x16 →
      ∃ t, exec (.pwrVinRange dt false vin) s = .next t ∧
        t.bit Fld.PWR_STATUS_VIN_LOW = true ∧
        t.getF Fld.PWR_VIN_VIN = vin ∧
        Offered 0x16 0x1704 3 59 (p4 [0, vin]) s t ∧
        Leaves dt [Reg.PWR_VIN, Reg.PWR_STATUS] s t { t with arc := { t.arc with ports := s.arc.ports } }) ∧
  (∀ (vhold : Nat), s.lcs.phase ≠ .off →
      s.bit Fld.PWR_STATUS_PFW = false →
      ∃ t, exec (.holdupCharged dt vhold) s = .next t ∧
        t.bit Fld.PWR_STATUS_HOLDUP_OK = true ∧
        t.getF Fld.PWR_VHOLD_VHOLD = vhold % 65536 ∧
        Leaves dt [Reg.PWR_VHOLD, Reg.PWR_STATUS] s t t)

/-- Of a module that is not held in reset: at 36.0 V in the store NV_STOP shows in PWR, ARC and PRV, the instant is kept
in PWR_LASTNVSTOP, and custody, if held, is released into the role that R474 gives; over-temperature acts as NV_STOP
and holds the module; 4.0 ms later every block is in reset. The warning has its hysteresis. (R474, R486, R554, R555,
R574) -/
def Obligations.PowerStop : Prop := ∀ (s : State) (dt : Nat), s.wf = true →
  (∀ (vhold : Nat), s.lcs.phase ≠ .off →
      vhold ≤ 3600 →
      s.bit Fld.PWR_STATUS_NV_STOP = false →
      PortRoom s 0x16 →
      ∃ t, exec (.pwrNvStop dt vhold) s = .next t ∧
        t.bit Fld.PWR_STATUS_NV_STOP = true ∧
        t.bit Fld.ARC_STATUS_NVSTOP = true ∧
        t.bit Fld.PRV_STATUS_NVSTOP = true ∧
        t.getF Fld.PWR_VHOLD_VHOLD = vhold ∧
        t.rd64 Reg.PWR_LASTNVSTOP = (s.elapse dt).time.mt % 18446744073709551616 ∧
        t.pwr.nvStopAt = some (s.elapse dt).time.clock ∧
        t.rpl.driving = false ∧
        (t.role = (if s.holdsCustody then 5 else s.role)) ∧
        (s.holdsCustody = true → t.custodyOn = false) ∧
        Counted Reg.RPL_RELEASES (b2n s.holdsCustody) s t ∧
        Offered 0x16 0x1703 5 59 (p4 [vhold, b2n s.holdsCustody]) s t ∧
        Leaves dt (([Reg.PWR_VHOLD, Reg.PWR_STATUS, Reg.ARC_STATUS, Reg.PRV_STATUS] ++ two Reg.PWR_LASTNVSTOP ++
          [Reg.RPL_STATUS] ++ two Reg.RPL_RELEASES ++ custodyWords)) s t
          { t with pwr := { t.pwr with nvStopAt := s.pwr.nvStopAt }, triad := { t.triad with loanLost := s.triad.loanLost }, fio := s.fio, eth := { t.eth with queues := s.eth.queues }, bus := { t.bus with queue := s.bus.queue }, rpl := { t.rpl with driving := s.rpl.driving, claim := s.rpl.claim }, arc := { t.arc with ports := s.arc.ports } })
          ∧
  (∀ (temp : Int), s.lcs.phase ≠ .off →
      1050 < temp →
      s.bit Fld.PWR_STATUS_OVERTEMP = false →
      s.bit Fld.PWR_STATUS_NV_STOP = false →
      (tget s.arc.ports 0x16).length < 31 →
      ∃ t, exec (.pwrOvertemp dt temp) s = .next t ∧
        t.bit Fld.PWR_STATUS_OVERTEMP = true ∧
        t.bit Fld.PWR_STATUS_NV_STOP = true ∧
        t.pwr.heldHot = true ∧
        t.getF Fld.PWR_TEMP_TEMP = i16 temp ∧
        t.pwr.nvStopAt = some (s.elapse dt).time.clock ∧
        (t.role = (if s.holdsCustody then 5 else s.role)) ∧
        Leaves dt (([Reg.PWR_TEMP, Reg.PWR_STATUS, Reg.ARC_STATUS, Reg.PRV_STATUS] ++ two Reg.PWR_LASTNVSTOP ++
          [Reg.RPL_STATUS] ++ two Reg.RPL_RELEASES ++ custodyWords)) s t
          { t with pwr := { t.pwr with nvStopAt := s.pwr.nvStopAt, heldHot := s.pwr.heldHot, tempSeen := s.pwr.tempSeen }, triad := { t.triad with loanLost := s.triad.loanLost }, fio := s.fio, eth := { t.eth with queues := s.eth.queues }, bus := { t.bus with queue := s.bus.queue }, rpl := { t.rpl with driving := s.rpl.driving, claim := s.rpl.claim }, arc := { t.arc with ports := s.arc.ports } })
          ∧
  (∀ (at_ : Nat), s.pwr.nvStopAt = some at_ →
      at_ + 4000000 ≤ (s.elapse dt).time.clock →
      ∃ t, exec (.orderlyReset dt) s = .next t ∧
        t.lcs.phase = .off ∧
        t.pwr.heldHot = s.pwr.heldHot ∧
        t.pwr.nvStopAt = none ∧
        t.triad = {} ∧
        t.bit Fld.PWR_STATUS_NV_STOP = false ∧
        t.custodyOn = false ∧
        MemKept s t ∧
        t.pending = s.pending) ∧
  (∀ (temp : Int), s.lcs.phase ≠ .off →
      900 < temp →
      s.bit Fld.PWR_STATUS_TEMPWARN = false →
      PortRoom s 0x16 →
      ∃ t, exec (.pwrTempWarn dt temp) s = .next t ∧
        t.bit Fld.PWR_STATUS_TEMPWARN = true ∧
        t.getF Fld.PWR_TEMP_TEMP = i16 temp ∧
        Counted Reg.PWR_TEMPWARNS 1 s t ∧
        Offered 0x16 0x1706 3 59 (p4 [i32 temp]) s t ∧
        Leaves dt (([Reg.PWR_TEMP, Reg.PWR_STATUS] ++ two Reg.PWR_TEMPWARNS)) s t
          { t with pwr := { t.pwr with tempSeen := s.pwr.tempSeen }, arc := { t.arc with ports := s.arc.ports } }) ∧
  (∀ (temp : Int), s.lcs.phase ≠ .off →
      temp < 850 →
      ∃ t, exec (.tempwarnClear dt temp) s = .next t ∧
        t.bit Fld.PWR_STATUS_TEMPWARN = false ∧
        t.getF Fld.PWR_TEMP_TEMP = i16 temp ∧
        Leaves dt [Reg.PWR_TEMP, Reg.PWR_STATUS] s t { t with pwr := { t.pwr with tempSeen := s.pwr.tempSeen } }) ∧
  (s.lcs.phase ≠ .off →
      PortRoom s 0x00 →
      ∃ t, exec (.sysPlugFault dt) s = .next t ∧
        t.bit Fld.SYS_PLUG_CHANGED = true ∧
        Offered 0x00 0x0101 5 60 [] s t ∧
        Leaves dt [Reg.SYS_PLUG] s t { t with arc := { t.arc with ports := s.arc.ports } }) ∧
  (∃ t, exec (.tamperLatchSet dt) s = .next t ∧
        t.bit Fld.LCS_STATE_TAMPER = true ∧
        t.lcs.tamperLatch = true ∧
        Leaves dt [Reg.LCS_STATE] s t { t with lcs := { t.lcs with tamperLatch := s.lcs.tamperLatch } })

/-- Power at 16.0 V or more, a commanded or Conservator reset, the end of an orderly or over-temperature reset bring the
module into start-up LBIST with the cause in SYS_RESET, module time from the backup clock, the new nonce, and the
memory of the persistent regions as it was; only a supply that was absent clears DDR and the Vault (the model's
choice, assumption 4). (R45, R52, R498, R500, R502, R547, R555, R574, R579) -/
def Obligations.ModuleResets : Prop := ∀ (s : State) (dt : Nat), s.wf = true →
  (∀ (vin : Nat) (env : ResetEnv), 1600 ≤ vin →
      s.pwr.heldHot = false →
      ∃ t, exec (.powerApplied dt vin env) s = .next t ∧
        (t.getF Fld.SYS_RESET_CAUSE = (if s.lcs.phase = .off then 1 else 0)) ∧
        t.lcs.phase = .lbist ∧
        (t.time.mt = (if env.bkKept then env.rtc % 18446744073709551616 else 0)) ∧
        t.bit Fld.TIM_STATUS_RTC_VALID = env.bkKept ∧
        t.bit Fld.PWR_STATUS_BKLOST = !env.bkKept ∧
        t.bit Fld.PWR_STATUS_VBAK_OK = decide (2500 ≤ env.vbak ∧ env.vbak ≤ 3600) ∧
        t.getF Fld.PWR_VBK_VBAK = env.vbak % 65536 ∧
        t.rd64 Reg.LCS_NONCE_LO = env.nonceLo.toNat ∧
        t.rd64 Reg.LCS_NONCE_HI = env.nonceHi.toNat ∧
        t.bit Fld.LCS_STATE_TAMPER = (s.lcs.tamperLatch && env.bkKept) ∧
        t.triad = {} ∧
        t.pending = s.pending ∧
        t.getF Fld.PWR_VIN_VIN = vin % 65536 ∧
        (∀ a, 0x1001000000 ≤ a → t.memGet a = s.memGet a) ∧
        (s.lcs.phase ≠ .off → ∀ a, a < 0x1001000000 → t.memGet a = 0) ∧
        (s.lcs.phase = .off → MemKept s t)) ∧
  (∀ (env : ResetEnv), s.pwr.heldHot = false →
      ∃ t, exec (.moduleReset dt .powerApplied env) s = .next t ∧
        t.getF Fld.SYS_RESET_CAUSE = 0 ∧
        t.lcs.phase = .lbist ∧
        (t.time.mt = (if env.bkKept then env.rtc % 18446744073709551616 else 0)) ∧
        t.bit Fld.TIM_STATUS_RTC_VALID = env.bkKept ∧
        t.bit Fld.PWR_STATUS_BKLOST = !env.bkKept ∧
        t.bit Fld.PWR_STATUS_VBAK_OK = decide (2500 ≤ env.vbak ∧ env.vbak ≤ 3600) ∧
        t.getF Fld.PWR_VBK_VBAK = env.vbak % 65536 ∧
        t.rd64 Reg.LCS_NONCE_LO = env.nonceLo.toNat ∧
        t.rd64 Reg.LCS_NONCE_HI = env.nonceHi.toNat ∧
        t.bit Fld.LCS_STATE_TAMPER = (s.lcs.tamperLatch && env.bkKept) ∧
        t.triad = {} ∧
        t.pending = s.pending ∧
        (∀ a, 0x1001000000 ≤ a → t.memGet a = s.memGet a) ∧
        (∀ a, a < 0x1001000000 → t.memGet a = 0)) ∧
  (∀ (env : ResetEnv), s.pwr.heldHot = true →
      s.lcs.phase = .off →
      ∃ t, exec (.moduleReset dt .overTemp env) s = .next t ∧
        t.getF Fld.SYS_RESET_CAUSE = 4 ∧
        t.lcs.phase = .lbist ∧
        (t.time.mt = (if env.bkKept then env.rtc % 18446744073709551616 else 0)) ∧
        t.bit Fld.TIM_STATUS_RTC_VALID = env.bkKept ∧
        t.bit Fld.PWR_STATUS_BKLOST = !env.bkKept ∧
        t.bit Fld.PWR_STATUS_VBAK_OK = decide (2500 ≤ env.vbak ∧ env.vbak ≤ 3600) ∧
        t.getF Fld.PWR_VBK_VBAK = env.vbak % 65536 ∧
        t.rd64 Reg.LCS_NONCE_LO = env.nonceLo.toNat ∧
        t.rd64 Reg.LCS_NONCE_HI = env.nonceHi.toNat ∧
        t.bit Fld.LCS_STATE_TAMPER = (s.lcs.tamperLatch && env.bkKept) ∧
        t.triad = {} ∧
        t.pending = s.pending ∧
        MemKept s t) ∧
  (∀ (env : ResetEnv), s.cv.resetDue = true →
      ∃ t, exec (.moduleReset dt .conservator env) s = .next t ∧
        t.getF Fld.SYS_RESET_CAUSE = 3 ∧
        t.lcs.phase = .lbist ∧
        (t.time.mt = (if env.bkKept then env.rtc % 18446744073709551616 else 0)) ∧
        t.bit Fld.TIM_STATUS_RTC_VALID = env.bkKept ∧
        t.bit Fld.PWR_STATUS_BKLOST = !env.bkKept ∧
        t.bit Fld.PWR_STATUS_VBAK_OK = decide (2500 ≤ env.vbak ∧ env.vbak ≤ 3600) ∧
        t.getF Fld.PWR_VBK_VBAK = env.vbak % 65536 ∧
        t.rd64 Reg.LCS_NONCE_LO = env.nonceLo.toNat ∧
        t.rd64 Reg.LCS_NONCE_HI = env.nonceHi.toNat ∧
        t.bit Fld.LCS_STATE_TAMPER = (s.lcs.tamperLatch && env.bkKept) ∧
        t.triad = {} ∧
        t.pending = s.pending ∧
        MemKept s t) ∧
  (∀ (env : ResetEnv), s.lcs.phase = .off ∧ s.pwr.heldHot = false →
      ∃ t, exec (.moduleReset dt .orderly env) s = .next t ∧
        t.getF Fld.SYS_RESET_CAUSE = 1 ∧
        t.lcs.phase = .lbist ∧
        (t.time.mt = (if env.bkKept then env.rtc % 18446744073709551616 else 0)) ∧
        t.bit Fld.TIM_STATUS_RTC_VALID = env.bkKept ∧
        t.bit Fld.PWR_STATUS_BKLOST = !env.bkKept ∧
        t.bit Fld.PWR_STATUS_VBAK_OK = decide (2500 ≤ env.vbak ∧ env.vbak ≤ 3600) ∧
        t.getF Fld.PWR_VBK_VBAK = env.vbak % 65536 ∧
        t.rd64 Reg.LCS_NONCE_LO = env.nonceLo.toNat ∧
        t.rd64 Reg.LCS_NONCE_HI = env.nonceHi.toNat ∧
        t.bit Fld.LCS_STATE_TAMPER = (s.lcs.tamperLatch && env.bkKept) ∧
        t.triad = {} ∧
        t.pending = s.pending ∧
        MemKept s t) ∧
  (∀ (env : ResetEnv) (busy : LcsBusy), s.lcs.busy = some busy →
      busy.act = .restart →
      busy.result = 0 →
      ∃ t, exec (.moduleReset dt .restart env) s = .next t ∧
        t.getF Fld.SYS_RESET_CAUSE = 2 ∧
        t.lcs.phase = .lbist ∧
        (t.time.mt = (if env.bkKept then env.rtc % 18446744073709551616 else 0)) ∧
        t.bit Fld.TIM_STATUS_RTC_VALID = env.bkKept ∧
        t.bit Fld.PWR_STATUS_BKLOST = !env.bkKept ∧
        t.bit Fld.PWR_STATUS_VBAK_OK = decide (2500 ≤ env.vbak ∧ env.vbak ≤ 3600) ∧
        t.getF Fld.PWR_VBK_VBAK = env.vbak % 65536 ∧
        t.rd64 Reg.LCS_NONCE_LO = env.nonceLo.toNat ∧
        t.rd64 Reg.LCS_NONCE_HI = env.nonceHi.toNat ∧
        t.bit Fld.LCS_STATE_TAMPER = (s.lcs.tamperLatch && env.bkKept) ∧
        t.triad = {} ∧
        t.pending = s.pending ∧
        MemKept s t) ∧
  (∀ (temp : Int) (env : ResetEnv), temp < 900 →
      s.pwr.heldHot = true →
      s.lcs.phase = .off →
      ∃ t, exec (.overtempRelease dt temp env) s = .next t ∧
        t.getF Fld.SYS_RESET_CAUSE = 4 ∧
        t.lcs.phase = .lbist ∧
        (t.time.mt = (if env.bkKept then env.rtc % 18446744073709551616 else 0)) ∧
        t.bit Fld.TIM_STATUS_RTC_VALID = env.bkKept ∧
        t.bit Fld.PWR_STATUS_BKLOST = !env.bkKept ∧
        t.bit Fld.PWR_STATUS_VBAK_OK = decide (2500 ≤ env.vbak ∧ env.vbak ≤ 3600) ∧
        t.getF Fld.PWR_VBK_VBAK = env.vbak % 65536 ∧
        t.rd64 Reg.LCS_NONCE_LO = env.nonceLo.toNat ∧
        t.rd64 Reg.LCS_NONCE_HI = env.nonceHi.toNat ∧
        t.bit Fld.LCS_STATE_TAMPER = (s.lcs.tamperLatch && env.bkKept) ∧
        t.triad = {} ∧
        t.pending = s.pending ∧
        MemKept s t)

/-- Each step of the start acts in its own phase: LBIST records its failures and duration and hands over to ROM; ROM
applies the boot configuration and starts the named Docent copy, or enters Conservator mode with the cause: an
interrupted write of the firmware, three failed starts, no boot configuration, no Docent copy; Docent loads the valid
firmware to DDR, places its own part in MRAM and starts the firmware and the lock attempt, or enters Conservator mode
with cause 1; once the step for Walira is over, a module that is not paired takes custody. (R477, R508, R509, R511,
R512, R518, R528, R529) -/
def Obligations.StartSequence : Prop := ∀ (s : State) (dt : Nat), s.wf = true →
  (∀ (failed : List (Fin 27 × Fin 16)) (ms : Nat), s.lcs.phase = .lbist →
      ∃ t, exec (.startupLbistComplete dt failed ms) s = .next t ∧
        t.lcs.phase = .rom ∧
        t.getF Fld.STE_STARTMS_MS = ms % 2048 ∧
        ((failed.all fun x => (t.rd (Reg.STE_FAILMAP x.1.val)).testBit x.2.val) = true) ∧
        MemKept s t ∧
        t.lcs.firmware = s.lcs.firmware) ∧
  (∀ (ms : Nat), s.lcs.phase = .lbist →
      s.getF (Fld.STE_FAILMAP_UNITS 0x02) % 8 = 0 →
      PortRoom s 0x14 →
      ∃ t, exec (.startupLbistComplete dt [] ms) s = .next t ∧
        t.lcs.phase = .rom ∧
        t.lcs.startOnlyFail = false ∧
        t.triadMode = 1 ∧
        Offered 0x14 0x1501 1 60 (p4 [t.rd Reg.STE_STARTFAIL, t.rd Reg.STE_STARTMS]) s t ∧
        Leaves dt [Reg.STE_STARTMS, Reg.TRIAD_STATUS] s t
          { t with lcs := { t.lcs with phase := s.lcs.phase, startOnlyFail := s.lcs.startOnlyFail }, arc := { t.arc with ports := s.arc.ports } })
          ∧
  (∀ (cfg : Stored), s.lcs.phase = .rom →
      s.lcs.writing = false →
      s.getF Fld.LCS_BOOTINFO_FAILSTARTS < 3 →
      s.bootConfig = some cfg →
      (s.validStored (if s.lcs.docentNext = 0 then s.lcs.docent0 else s.lcs.docent1) 2).isSome = true →
      ∃ t, exec (.romBoot dt) s = .next t ∧
        t.lcs.phase = .docent ∧
        t.getF Fld.LCS_BOOTINFO_DOCENT = s.lcs.docentNext % 2 ∧
        t.bit Fld.LCS_BOOTINFO_DOCENTFB = false ∧
        t.getF Fld.APC_PAIRCFG_PAIRED = (Config.bootPaired cfg.image.body).toNat ∧
        t.bit Fld.FIO_CLASS_CFGCLASS = Config.bootClass cfg.image.body ∧
        t.bit Fld.TRIAD_LOANCFG_PERMIT = Config.bootLoan cfg.image.body ∧
        MemKept s t) ∧
  (s.lcs.phase = .rom →
      s.lcs.writing = true →
      ∃ t, exec (.romBoot dt) s = .next t ∧
        t.lcs.phase = .conservator ∧
        t.getF Fld.LCS_BOOTINFO_CVCAUSE = 2 ∧
        t.rd64 Reg.LCS_CVENTRIES = (s.rd64 Reg.LCS_CVENTRIES + 1) % 18446744073709551616 ∧
        Leaves dt (([Reg.LCS_BOOTINFO] ++ two Reg.LCS_CVENTRIES)) s t
          { t with cv := s.cv, lcs := { t.lcs with phase := s.lcs.phase, ipConservator := s.lcs.ipConservator, cvCause := s.lcs.cvCause, cvSummary := s.lcs.cvSummary } })
          ∧
  (s.lcs.phase = .rom →
      s.lcs.writing = false →
      3 ≤ s.getF Fld.LCS_BOOTINFO_FAILSTARTS →
      ∃ t, exec (.romBoot dt) s = .next t ∧
        t.lcs.phase = .conservator ∧
        t.getF Fld.LCS_BOOTINFO_CVCAUSE = 5 ∧
        t.rd64 Reg.LCS_CVENTRIES = (s.rd64 Reg.LCS_CVENTRIES + 1) % 18446744073709551616 ∧
        Leaves dt (([Reg.LCS_BOOTINFO] ++ two Reg.LCS_CVENTRIES)) s t
          { t with cv := s.cv, lcs := { t.lcs with phase := s.lcs.phase, ipConservator := s.lcs.ipConservator, cvCause := s.lcs.cvCause, cvSummary := s.lcs.cvSummary } })
          ∧
  (s.lcs.phase = .rom →
      s.lcs.writing = false →
      s.getF Fld.LCS_BOOTINFO_FAILSTARTS < 3 →
      s.bootConfig = none →
      ∃ t, exec (.romBoot dt) s = .next t ∧
        t.lcs.phase = .conservator ∧
        t.getF Fld.LCS_BOOTINFO_CVCAUSE = 4 ∧
        t.rd64 Reg.LCS_CVENTRIES = (s.rd64 Reg.LCS_CVENTRIES + 1) % 18446744073709551616 ∧
        Leaves dt (([Reg.LCS_BOOTINFO] ++ two Reg.LCS_CVENTRIES)) s t
          { t with cv := s.cv, lcs := { t.lcs with phase := s.lcs.phase, ipConservator := s.lcs.ipConservator, cvCause := s.lcs.cvCause, cvSummary := s.lcs.cvSummary } })
          ∧
  (∀ (cfg : Stored), s.lcs.phase = .rom →
      s.lcs.writing = false →
      s.getF Fld.LCS_BOOTINFO_FAILSTARTS < 3 →
      s.bootConfig = some cfg →
      s.validStored s.lcs.docent0 2 = none →
      s.validStored s.lcs.docent1 2 = none →
      ∃ t, exec (.romBoot dt) s = .next t ∧
        t.lcs.phase = .conservator ∧
        t.getF Fld.LCS_BOOTINFO_CVCAUSE = 3 ∧
        t.rd64 Reg.LCS_CVENTRIES = (s.rd64 Reg.LCS_CVENTRIES + 1) % 18446744073709551616 ∧
        MemKept s t) ∧
  (s.lcs.phase = .docent →
      s.validStored s.lcs.firmware 1 = none →
      ∃ t, exec (.docentStart dt) s = .next t ∧
        t.lcs.phase = .conservator ∧
        t.getF Fld.LCS_BOOTINFO_CVCAUSE = 1 ∧
        t.rd64 Reg.LCS_CVENTRIES = (s.rd64 Reg.LCS_CVENTRIES + 1) % 18446744073709551616 ∧
        Leaves dt (([Reg.LCS_BOOTINFO] ++ two Reg.LCS_CVENTRIES)) s t
          { t with cv := s.cv, lcs := { t.lcs with phase := s.lcs.phase, ipConservator := s.lcs.ipConservator, cvCause := s.lcs.cvCause, cvSummary := s.lcs.cvSummary } })
          ∧
  (∀ (fw : Stored), s.lcs.phase = .docent →
      s.validStored s.lcs.firmware 1 = some fw →
      s.lcs.oldCopy = none →
      ∃ t, exec (.docentStart dt) s = .next t ∧
        t.lcs.phase = .executive ∧
        t.lcs.running = some fw.image ∧
        t.rd Reg.LCS_FWVER = fw.image.version % 4294967296 ∧
        t.getF Fld.LCS_KEYS_FWSLOT = fw.image.keySlot % 4 ∧
        t.bit Fld.LCS_BOOTINFO_UNCOMMITTED = !(s.lcs.fwCommitted && s.rd Reg.LCS_FWVER == fw.image.version % 4294967296) ∧
        t.time.lockStart = some (s.elapse dt).time.clock ∧
        t.memRead (Config.firmwareAt % (0x400000001 - fw.image.body.length)) fw.image.body.length = fw.image.body ∧
        (∀ a, ¬(Config.firmwareAt % (0x400000001 - fw.image.body.length) ≤ a ∧ a < Config.firmwareAt % (0x400000001 -
          fw.image.body.length) + fw.image.body.length) ∧ ¬(State.bootPart + 64 * State.bootLines ≤ a ∧ a < 0x10403F0000) →
          t.memGet a = s.memGet a) ∧
        LeavesStore dt [Reg.LCS_FWVER, Reg.LCS_KEYS, Reg.LCS_BOOTINFO] s t
          { t with time := { t.time with lockStart := s.time.lockStart }, lcs := { t.lcs with phase := s.lcs.phase, running := s.lcs.running, fwCommitted := s.lcs.fwCommitted } })
          ∧
  (s.lcs.phase = .firmware →
      s.role = 0 →
      s.rpl.negotiating = none →
      s.bit Fld.SYS_PLUG_FAULT = false →
      s.lcs.startOnlyFail = false →
      s.lcState ≠ 4 →
      s.getF Fld.RTS_STATE_STATE = 1 →
      s.triadMode = 1 ∨ s.triadMode = 2 →
      s.paired = false →
      (s.elapse dt).walStarted = true →
      ∃ t, exec (.custodyNegotiation dt) s = .next t ∧
        t.role = 1 ∧
        t.custodyOn = true ∧
        t.bit Fld.TRDP_STATUS_CUST = true ∧
        Leaves dt [Reg.RPL_STATUS, Reg.TRDP_STATUS] s t t)

/-- With three active lanes that present the same transaction, the voted store reaches memory at exactly the bytes that
its byte enables select, and every other byte reads as before; a lane that presents nothing is masked with cause 2,
recorded and counted as dissenting, and the load of the other two is still issued once and answered. A single-bit L1
error is counted; an uncorrectable one with three active lanes masks its lane with cause 4; a boundary item without
parity error reaches every active lane; a probe without a failing step is counted and shows LAST_OK; one with a
failing step leads to the safe state with cause 4. Nothing else changes. (R98, R99, R100, R101, R103, R104, R91, R93,
R94, R111, R115, R116) -/
def Obligations.VotesAndChecks : Prop := ∀ (s : State) (dt : Nat), s.wf = true →
  (∀ (b : Ballot) (tx : Txn), s.activeLanes = [0, 1, 2] →
      b.votersAgree = true →
      (s.place b).presented 0 = some tx →
      (s.place b).presented 1 = some tx →
      (s.place b).presented 2 = some tx →
      tx.kind = 0 →
      regionOf tx.addr = some .ddr →
      s.memCheck .t true tx.addr = 0 →
      ∃ t, exec (.voteDecision dt b) s = .next t ∧
        Counted Reg.TRIAD_TXVOTED 1 s t ∧
        t.triad.txnIndex = s.triad.txnIndex + 1 ∧
        Answered t 0 0 ∧
        (∀ a, t.memGet a = (((State.storeBytes tx.addr tx.data tx.be).find? fun x => x.1 == a).map fun x => x.2).getD
          (s.memGet a)) ∧
        LeavesStore dt (two Reg.TRIAD_TXVOTED) s t { t with triad := s.triad }) ∧
  (∀ (b : Ballot) (tx : Txn), s.activeLanes = [0, 1, 2] →
      b.votersAgree = true →
      (s.place b).presented 0 = some tx →
      (s.place b).presented 1 = some tx →
      (s.place b).presented 2 = some tx →
      tx.kind = 1 →
      tx.be = 255 →
      regionOf tx.addr = some .ddr →
      s.memCheck .t false tx.addr = 0 →
      ∃ t, exec (.voteDecision dt b) s = .next t ∧
        Counted Reg.TRIAD_TXVOTED 1 s t ∧
        Answered t 0 (s.memNat (State.txnAt tx) 8) ∧
        t.triad.txnIndex = s.triad.txnIndex + 1 ∧
        Leaves dt ((two Reg.TRIAD_TXVOTED)) s t { t with triad := s.triad }) ∧
  (∀ (b : Ballot) (lane : Fin 3) (tx : Txn), s.activeLanes = [0, 1, 2] →
      b.votersAgree = true →
      (s.place b).presented lane.val = none →
      (∀ l : Fin 3, l ≠ lane → (s.place b).presented l.val = some tx) →
      tx.kind = 1 →
      tx.be = 255 →
      regionOf tx.addr = some .ddr →
      s.memCheck .t false tx.addr = 0 →
      PortRoom s 0x02 →
      ∃ t, exec (.voteTimeout dt b) s = .next t ∧
        Counted Reg.TRIAD_TXVOTED 1 s t ∧
        Answered t 0 (s.memNat (State.txnAt tx) 8) ∧
        (t.getF Fld.TRIAD_STATUS_MASKED).testBit lane.val = true ∧
        t.rd Reg.TRIAD_LASTDIS_INFO = 32 + lane.val ∧
        t.rd64 Reg.TRIAD_LASTDIS_ADDR = tx.addr ∧
        t.rd64 Reg.TRIAD_LASTDIS_MT = (s.elapse dt).time.mt % 18446744073709551616 ∧
        Counted (Reg.TRIAD_DISSENTS_TA + 8 * lane.val) 1 s t ∧
        Offered 0x02 0x0201 5 56 (p4 [lane.val, 2] ++ p8 [tx.addr]) s t ∧
        Leaves dt (([Reg.TRIAD_STATUS, Reg.TRIAD_DISWIN, Reg.TRIAD_LASTDIS_INFO] ++ two Reg.TRIAD_LASTDIS_ADDR ++ two
          Reg.TRIAD_LASTDIS_MT ++ two (Reg.TRIAD_DISSENTS_TA + 8 * lane.val) ++ two Reg.TRIAD_REINTS ++ two
          Reg.TRIAD_TXVOTED)) s t { t with triad := s.triad, arc := { t.arc with ports := s.arc.ports } }) ∧
  (∀ (lane : Fin 3) (addr : Nat), ∃ t, exec (.triadL1Uncorrectable dt lane .single addr) s = .next t ∧
        Counted Reg.TRIAD_L1CORR 1 s t ∧
        Leaves dt ((two Reg.TRIAD_L1CORR)) s t t) ∧
  (∀ (lane : Fin 3) (addr : Nat), s.activeLanes = [0, 1, 2] →
      PortRoom s 0x02 →
      ∃ t, exec (.triadL1Uncorrectable dt lane .uncorrectable addr) s = .next t ∧
        (t.getF Fld.TRIAD_STATUS_MASKED).testBit lane.val = true ∧
        t.rd Reg.TRIAD_LASTDIS_INFO = 64 + lane.val ∧
        t.rd64 Reg.TRIAD_LASTDIS_ADDR = addr % 1099511627776 ∧
        Counted (Reg.TRIAD_DISSENTS_TA + 8 * lane.val) 1 s t ∧
        Offered 0x02 0x0201 5 56 (p4 [lane.val, 4] ++ p8 [addr % 1099511627776]) s t ∧
        Leaves dt (([Reg.TRIAD_STATUS, Reg.TRIAD_DISWIN, Reg.TRIAD_LASTDIS_INFO] ++ two Reg.TRIAD_LASTDIS_ADDR ++ two
          Reg.TRIAD_LASTDIS_MT ++ two (Reg.TRIAD_DISSENTS_TA + 8 * lane.val) ++ two Reg.TRIAD_REINTS)) s t
          { t with triad := s.triad, arc := { t.arc with ports := s.arc.ports } }) ∧
  (∀ (item : Inbound), s.activeLanes ≠ [] →
      ∃ t, exec (.boundaryItemCapture dt item 0) s = .next t ∧
        t.triad.sample = some ((s.elapse dt).captured item) ∧
        ((s.activeLanes.all fun l => tget t.triad.laneIn l == some ((s.elapse dt).captured item)) = true) ∧
        Leaves dt [] s t { t with triad := s.triad, mbox := s.mbox }) ∧
  (s.triadMode ≠ 0 →
      ∃ t, exec (.voterProbe dt 0) s = .next t ∧
        Counted Reg.TRIAD_PROBES 1 s t ∧
        t.bit Fld.TRIAD_PROBESTAT_LAST_OK = true ∧
        Leaves dt (([Reg.TRIAD_PROBESTAT] ++ two Reg.TRIAD_PROBES)) s t t) ∧
  (∀ (failing : BitVec 8), failing ≠ 0 →
      s.triadMode ≠ 0 →
      s.triadMode ≠ 4 →
      PortRoom s 0x02 →
      PortRoom s 0x13 →
      ∃ t, exec (.voterProbe dt failing) s = .next t ∧
        Counted Reg.TRIAD_PROBES 1 s t ∧
        t.bit Fld.TRIAD_PROBESTAT_LAST_OK = false ∧
        t.getF Fld.TRIAD_PROBESTAT_FAILSTEP = failing.toNat ∧
        t.triadMode = 4 ∧
        t.rd Reg.TRIAD_SAFECAUSE = 0 * 256 + 4 ∧
        t.getF Fld.RTS_STATE_STATE = 3 ∧
        (t.role = (if s.holdsCustody then 5 else s.role)) ∧
        (s.holdsCustody = true → t.custodyOn = false) ∧
        Counted Reg.RPL_RELEASES (b2n s.holdsCustody) s t ∧
        (Counted Reg.TRIAD_REINTS (if s.triad.reint.any (fun x => !x.2.2) = true then 1 else 0) s t) ∧
        Leaves dt (([Reg.RTS_STATE, Reg.TRIAD_STATUS, Reg.TRIAD_SAFECAUSE] ++ two Reg.TRIAD_REINTS ++ [Reg.RPL_STATUS] ++ two
          Reg.RPL_RELEASES ++ custodyWords ++ [Reg.TRIAD_PROBESTAT] ++ two Reg.TRIAD_PROBES)) s t
          { t with triad := s.triad, fio := s.fio, eth := { t.eth with queues := s.eth.queues }, bus := { t.bus with queue := s.bus.queue }, rpl := { t.rpl with driving := s.rpl.driving, claim := s.rpl.claim }, arc := { t.arc with ports := s.arc.ports } })

/-- A legal VSYNC over three equal records is counted, answers 0 and completes the supervision of the beat; where one
record differs its lane is masked with cause 5 and VSYNC answers 1; without a VSYNC by the deadline the Triad enters
the safe state with cause 8. A legal VFENCE waits, and goes on waiting while an access is unacknowledged or a far read
is open; then it ends with 0, with the first error, counted, or after 20 us with ABORTED, counted. VSYNC in user mode
raises an illegal-instruction exception. (R105, R111, R117, R118, R119, R120, R121) -/
def Obligations.SyncAndFence : Prop := ∀ (s : State) (dt : Nat), s.wf = true →
  (∀ (word : BitVec 32) (ra : LaneRegs) (back : Nat), s.activeLanes = [0, 1, 2] →
      State.customLegal word 0 = true →
      PortRoom s 0x02 →
      ∃ t, exec (.vsync dt word .machine false ⟨some ra, some ra, some ra⟩ true back) s = .next t ∧
        Counted Reg.TRIAD_VSYNCS 1 s t ∧
        Answered t 0 0 ∧
        t.triad.vsyncDone = true ∧
        t.triad.reint = none ∧
        (∀ l : Fin 3, (tget t.triad.lanes l.val).regs = State.setX ra (State.rdOf word) 0) ∧
        Leaves dt ((two Reg.TRIAD_VSYNCS ++ two Reg.TRIAD_REINTS)) s t
          { t with triad := s.triad, arc := { t.arc with ports := s.arc.ports } }) ∧
  (∀ (word : BitVec 32) (ra rc : LaneRegs) (back : Nat), s.activeLanes = [0, 1, 2] →
      State.customLegal word 0 = true →
      State.stateHash ra ≠ State.stateHash rc →
      s.triad.reint = none →
      PortRoom s 0x02 →
      ∃ t, exec (.vsync dt word .machine false ⟨some ra, some ra, some rc⟩ true back) s = .next t ∧
        Counted Reg.TRIAD_VSYNCS 1 s t ∧
        Answered t 0 1 ∧
        t.triad.vsyncDone = true ∧
        (t.getF Fld.TRIAD_STATUS_MASKED).testBit 2 = true ∧
        t.rd Reg.TRIAD_LASTDIS_INFO = 82 ∧
        Counted Reg.TRIAD_LATENT 1 s t ∧
        Offered 0x02 0x0202 2 56 (p4 [2]) s t ∧
        Leaves dt (([Reg.TRIAD_STATUS, Reg.TRIAD_DISWIN, Reg.TRIAD_LASTDIS_INFO] ++ two Reg.TRIAD_LASTDIS_ADDR ++ two
          Reg.TRIAD_LASTDIS_MT ++ two (Reg.TRIAD_DISSENTS_TA + 8 * 2) ++ two Reg.TRIAD_REINTS ++ two Reg.TRIAD_VSYNCS ++ two
          Reg.TRIAD_LATENT)) s t { t with triad := s.triad, arc := { t.arc with ports := s.arc.ports } }) ∧
  (∀ (word : BitVec 32) (onApp agree : Bool) (recs : LaneRecords) (back : Nat), ∃ t, exec (.vsync dt word .user onApp recs
    agree back) s = .next t ∧
        t.resp = { status := 0, exc := some .illegalInstruction, data := 0 } ∧
        Leaves dt [] s t t) ∧
  (s.activeLanes ≠ [] →
      s.triad.vsyncDone = false →
      s.time.edgeAt ≤ (s.elapse dt).time.mt + 5000 →
      s.lcs.phase = .executive ∨ s.lcs.phase = .firmware →
      s.triadMode ≠ 4 →
      PortRoom s 0x02 →
      PortRoom s 0x13 →
      ∃ t, exec (.vsyncDeadline dt) s = .next t ∧
        t.triadMode = 4 ∧
        t.rd Reg.TRIAD_SAFECAUSE = 0 * 256 + 8 ∧
        t.getF Fld.RTS_STATE_STATE = 3 ∧
        (t.role = (if s.holdsCustody then 5 else s.role)) ∧
        (s.holdsCustody = true → t.custodyOn = false) ∧
        Counted Reg.RPL_RELEASES (b2n s.holdsCustody) s t ∧
        (Counted Reg.TRIAD_REINTS (if s.triad.reint.any (fun x => !x.2.2) = true then 1 else 0) s t) ∧
        Leaves dt (([Reg.RTS_STATE, Reg.TRIAD_STATUS, Reg.TRIAD_SAFECAUSE] ++ two Reg.TRIAD_REINTS ++ [Reg.RPL_STATUS] ++ two
          Reg.RPL_RELEASES ++ custodyWords)) s t
          { t with triad := s.triad, fio := s.fio, eth := { t.eth with queues := s.eth.queues }, bus := { t.bus with queue := s.bus.queue }, rpl := { t.rpl with driving := s.rpl.driving, claim := s.rpl.claim }, arc := { t.arc with ports := s.arc.ports } })
          ∧
  (∀ (word : BitVec 32) (priv : Priv), State.customLegal word 1 = true →
      s.activeLanes ≠ [] →
      ∃ t, exec (.vfence dt word priv false) s = .next t ∧
        t.triad.vfenceAt = some (s.elapse dt).time.clock ∧
        t.triad.vfenceRd = State.rdOf word ∧
        Leaves dt [] s t { t with triad := { t.triad with vfenceAt := s.triad.vfenceAt, vfenceRd := s.triad.vfenceRd } }) ∧
  (∀ (since : Nat), s.triad.vfenceAt = some since →
      s.farOpen = false →
      ∃ t, exec (.vfenceComplete dt true) s = .next t ∧
        Answered t 0 (s.triad.ackErr.getD 0) ∧
        (Counted Reg.TRIAD_VFERR (if s.triad.ackErr.isSome then 1 else 0) s t) ∧
        t.triad.vfenceAt = none ∧
        t.triad.ackErr = none ∧
        t.triad.vfEra = s.triad.vfEra ∧
        Leaves dt ((two Reg.TRIAD_VFERR)) s t
          { t with triad := { t.triad with vfenceAt := s.triad.vfenceAt, ackErr := s.triad.ackErr, vfEra := s.triad.vfEra, lanes := s.triad.lanes, sample := s.triad.sample, laneIn := s.triad.laneIn } })
          ∧
  (∀ (acked : Bool) (since : Nat), s.triad.vfenceAt = some since →
      acked = false ∨ s.farOpen = true →
      ∃ t, exec (.vfenceComplete dt acked) s = .next t ∧
        t.triad.vfenceAt = some since ∧
        Leaves dt [] s t t) ∧
  (∀ (since : Nat), s.triad.vfenceAt = some since →
      since + 20000 ≤ (s.elapse dt).time.clock →
      ∃ t, exec (.vfenceTimeout dt) s = .next t ∧
        Answered t 0 0x30 ∧
        Counted Reg.TRIAD_VFERR 1 s t ∧
        t.triad.vfenceAt = none ∧
        t.triad.ackErr = none ∧
        t.triad.vfEra = s.triad.vfEra + 1 ∧
        Leaves dt ((two Reg.TRIAD_VFERR)) s t
          { t with triad := { t.triad with vfenceAt := s.triad.vfenceAt, ackErr := s.triad.ackErr, vfEra := s.triad.vfEra, lanes := s.triad.lanes, sample := s.triad.sample, laneIn := s.triad.laneIn } })

/-- Class T unmasks a lane and starts its reintegration, commands the safe state with its reason, and requests or cancels
a Loan; TC on Loan ends it with reason 2 or halts on an exception. Each write is answered with 0 and nothing else
changes. (R106, R108, R113, R123, R125, R126, R127, R129) -/
def Obligations.TriadRequests : Prop := ∀ (s : State) (dt : Nat), s.wf = true →
  (∀ (req : Requester) (lane : Fin 4), Lets s req Reg.TRIAD_REINT →
      s.triadMode = 1 →
      s.laneMasked lane.val = true →
      s.triad.retireDue.contains lane.val = false →
      ∃ t, exec (.triadReintWrite dt req lane) s = .next t ∧
        Answered t 0 0 ∧
        (t.getF Fld.TRIAD_STATUS_MASKED).testBit lane.val = false ∧
        (∀ l : Fin 3, l.val ≠ lane.val → (t.getF Fld.TRIAD_STATUS_MASKED).testBit l.val = s.laneMasked l.val) ∧
        t.triad.reint = some (lane.val, s.triad.reintEdge, false) ∧
        tget t.triad.lanes lane.val = {} ∧
        Leaves dt [Reg.TRIAD_STATUS] s t
          { t with triad := { t.triad with reint := s.triad.reint, lanes := s.triad.lanes, laneIn := s.triad.laneIn } }) ∧
  (∀ (req : Requester) (reason : Byte), Lets s req Reg.TRIAD_SAFEREQ →
      s.triadMode ≠ 4 →
      PortRoom s 0x02 →
      PortRoom s 0x13 →
      ∃ t, exec (.triadSafereqWrite dt req 0x5A reason) s = .next t ∧
        Answered t 0 0 ∧
        t.triadMode = 4 ∧
        t.rd Reg.TRIAD_SAFECAUSE = reason.toNat * 256 + 9 ∧
        t.getF Fld.RTS_STATE_STATE = 3 ∧
        (t.role = (if s.holdsCustody then 5 else s.role)) ∧
        (s.holdsCustody = true → t.custodyOn = false) ∧
        Counted Reg.RPL_RELEASES (b2n s.holdsCustody) s t ∧
        (Counted Reg.TRIAD_REINTS (if s.triad.reint.any (fun x => !x.2.2) = true then 1 else 0) s t) ∧
        Leaves dt (([Reg.RTS_STATE, Reg.TRIAD_STATUS, Reg.TRIAD_SAFECAUSE] ++ two Reg.TRIAD_REINTS ++ [Reg.RPL_STATUS] ++ two
          Reg.RPL_RELEASES ++ custodyWords)) s t
          { t with triad := s.triad, fio := s.fio, eth := { t.eth with queues := s.eth.queues }, bus := { t.bus with queue := s.bus.queue }, rpl := { t.rpl with driving := s.rpl.driving, claim := s.rpl.claim }, arc := { t.arc with ports := s.arc.ports } })
          ∧
  (∀ (req : Requester), Lets s req Reg.TRIAD_LOAN →
      s.bit Fld.TRIAD_LOAN_REQ = false →
      s.triad.loanReqAt = none →
      ∃ t, exec (.triadLoanRequest dt req) s = .next t ∧
        Answered t 0 0 ∧
        t.bit Fld.TRIAD_LOAN_REQ = true ∧
        t.triad.loanReqAt = some (s.elapse dt).time.mono ∧
        Leaves dt [Reg.TRIAD_LOAN] s t { t with triad := { t.triad with loanReqAt := s.triad.loanReqAt } }) ∧
  (∀ (req : Requester), Lets s req Reg.TRIAD_LOAN →
      s.triadMode = 3 →
      s.triad.loanEnd = none →
      s.triad.loanReturnDue = false →
      ∃ t, exec (.triadLoanCancel dt req) s = .next t ∧
        Answered t 0 0 ∧
        t.bit Fld.TRIAD_LOAN_REQ = false ∧
        t.triad.loanEnd = some (1, (s.elapse dt).time.mono) ∧
        Leaves dt [Reg.TRIAD_LOAN] s t { t with triad := { t.triad with loanEnd := s.triad.loanEnd } }) ∧
  (∀ (req : Requester), Lets s req Reg.TRIAD_LOANRET →
      s.triadMode = 3 →
      s.triad.loanEnd = none →
      s.triad.loanReturnDue = false →
      ∃ t, exec (.triadLoanretWrite dt req true) s = .next t ∧
        Answered t 0 0 ∧
        t.triad.loanEnd = some (2, (s.elapse dt).time.mono) ∧
        Leaves dt [] s t { t with triad := { t.triad with loanEnd := s.triad.loanEnd } }) ∧
  (s.triadMode = 3 →
      ∃ t, exec (.tcLoanException dt) s = .next t ∧
        t.bit Fld.TRIAD_LOANSTAT_TC_HALTED = true ∧
        Leaves dt [Reg.TRIAD_LOANSTAT] s t t)

/-- A rise of the supply opens every pair, starts the start-up check and keeps the lock-out; a passed check starts
evaluation and a failed comparison or a damaged configuration leads to global lock-out of every used instance; a loss
opens every pair and keeps the lock-out. An expired filter gives its channel its level and no other; a discrepancy
beyond its time locks the instance with cause bit 0; a channel that does not follow the test pulse of its source
counts one bad period more and a source that did not drop as it should makes the fault of each of its channels at
once; an acknowledgement reaches each stop instance with closed channels. An evaluation cycle shows the GRST input and
the custody enable, and leaves a pair that an instance uses closed only in a hold, or with the enable, the request
line and a permit. Registers of blocks other than Garnet and the Archive and memory do not change. (R134, R135, R163,
R137, R138, R140, R143, R162) -/
def Obligations.GarnetSupplyAndInputs : Prop := ∀ (s : State) (dt : Nat), s.wf = true →
  (s.gar.powered = false →
      ∃ t, exec (.garnetSupplyRise dt) s = .next t ∧
        t.gar.powered = true ∧
        t.gar.powerAt = (s.elapse dt).time.clock ∧
        t.getF Fld.GAR_STATUS_STATE = 0 ∧
        t.getF Fld.GAR_STATUS_LOCKED = s.getF Fld.GAR_STATUS_LOCKED ∧
        (∀ x : Fin 4, (t.gpair x.val).closed = false) ∧
        LeavesOut dt [0x05] s t { t with gar := s.gar }) ∧
  (s.gar.powered = true →
      s.gar.active.isSome = true →
      s.getF Fld.GAR_STATUS_STATE = 0 →
      s.getF Fld.GAR_GCAUSE_CAUSE = 0 →
      ∃ t, exec (.garnetStartupCheckDone dt { image := true, compare := true, testPulses := true, readback := true }) s =
        .next t ∧
        t.getF Fld.GAR_STATUS_STATE = 1 ∧
        t.gar.clearable = s.gar.clearable ||| 15 ∧
        t.getF Fld.GAR_STATUS_LOCKED = s.getF Fld.GAR_STATUS_LOCKED ∧
        LeavesOut dt [0x05] s t { t with gar := { t.gar with clearable := s.gar.clearable } }) ∧
  (∀ (chk : GarnetCheck), chk.compare = false →
      s.gar.powered = true →
      s.gar.active.isSome = true →
      s.getF Fld.GAR_STATUS_STATE = 0 →
      ∃ t, exec (.garnetStartupCheckDone dt chk) s = .next t ∧
        t.getF Fld.GAR_STATUS_STATE = 2 ∧
        (t.getF Fld.GAR_GCAUSE_CAUSE).testBit 2 = true ∧
        ((s.gused.all fun j => t.locked j) = true) ∧
        (∀ x : Fin 4, (t.gpair x.val).closed = false) ∧
        LeavesOut dt [0x05, 0x12] s t { t with gar := s.gar, arc := s.arc }) ∧
  (s.gar.powered = true →
      ∃ t, exec (.garnetSupplyLoss dt) s = .next t ∧
        t.gar.powered = false ∧
        t.gar.session = none ∧
        t.gar.opAcc = (s.elapse dt).opTime ∧
        t.getF Fld.GAR_STATUS_LOCKED = s.getF Fld.GAR_STATUS_LOCKED ∧
        (∀ x : Fin 4, (t.gpair x.val).closed = false) ∧
        LeavesOut dt [0x05] s t { t with gar := s.gar }) ∧
  (s.garRuns = true →
      s.gar.active.isSome = true →
      ∃ t, exec (.garnetConfigCheck dt false) s = .next t ∧
        t.getF Fld.GAR_STATUS_STATE = 2 ∧
        (t.getF Fld.GAR_GCAUSE_CAUSE).testBit 0 = true ∧
        ((s.gused.all fun j => t.locked j) = true) ∧
        (∀ x : Fin 4, (t.gpair x.val).closed = false) ∧
        LeavesOut dt [0x05, 0x12] s t { t with gar := s.gar, arc := s.arc }) ∧
  (∀ (input : Fin 8) (chanB level : Bool), s.gar.powered = true →
      ∃ t, exec (.safetyInputFilterExpiry dt input chanB level) s = .next t ∧
        (t.getF Fld.GAR_INPUTS_SI).testBit (2 * input.val + b2n chanB) = level ∧
        (∀ n : Fin 16, n.val ≠ 2 * input.val + b2n chanB → (t.getF Fld.GAR_INPUTS_SI).testBit n.val = (s.getF
          Fld.GAR_INPUTS_SI).testBit n.val) ∧
        Leaves dt [Reg.GAR_INPUTS] s t { t with gar := { t.gar with discSince := s.gar.discSince } }) ∧
  (∀ (inst : Fin 8) (k since : Nat), s.garRuns = true →
      s.gtype inst.val ≠ 0 →
      s.locked inst.val = false →
      k ∈ instInputs s.gimg inst.val →
      s.discrepant k = true →
      tget s.gar.discSince k = some since →
      since + gins s.gimg inst.val 6 2 * 1000000 < (s.elapse dt).time.clock →
      ∃ t, exec (.discrepancyFault dt inst) s = .next t ∧
        t.locked inst.val = true ∧
        (t.getF (Fld.GAR_INST_CAUSE inst.val)).testBit 0 = true ∧
        t.result inst.val = false ∧
        Counted Reg.GAR_LOCKOUTS 1 s t ∧
        LeavesOut dt [0x05, 0x12] s t { t with gar := s.gar, arc := s.arc }) ∧
  (∀ (tp : Fin 2) (reads : BitVec 16) (ch : Fin 16), s.garRuns = true →
      gin s.gimg (ch.val / 2) (1 + ch.val % 2) 1 = tp.val + 1 →
      gin s.gimg (ch.val / 2) 0 1 ≠ 0xFF →
      ∃ t, exec (.testPulse dt tp false reads) s = .next t ∧
        tget t.gar.tpBad ch.val = 2 ∧
        tget t.gar.tpGood ch.val = 0 ∧
        LeavesOut dt [0x05, 0x12] s t { t with gar := s.gar, arc := s.arc }) ∧
  (∀ (tp : Fin 2) (reads : BitVec 16) (ch : Fin 16), s.garRuns = true →
      gin s.gimg (ch.val / 2) (1 + ch.val % 2) 1 = tp.val + 1 →
      gin s.gimg (ch.val / 2) 0 1 ≠ 0xFF →
      (s.getF Fld.GAR_INPUTS_SI).testBit ch.val = true →
      reads.toNat.testBit ch.val = true →
      ∃ t, exec (.testPulse dt tp true reads) s = .next t ∧
        (tget t.gar.tpBad ch.val = (if tget s.gar.tpNow ch.val = 1 then 1 else min 2 (tget s.gar.tpBad ch.val + 1))) ∧
        tget t.gar.tpGood ch.val = 0 ∧
        LeavesOut dt [0x05, 0x12] s t { t with gar := s.gar, arc := s.arc }) ∧
  (∀ (req : Requester) (insts : BitVec 8) (j : Fin 8), Lets s req Reg.GAR_ACK →
      s.garRuns = true →
      insts.toNat.testBit j.val = true →
      s.gtype j.val = 2 ∨ s.gtype j.val = 5 →
      s.healthy1 j.val = true →
      s.locked j.val = false →
      ∃ t, exec (.garAckWrite dt req insts) s = .next t ∧
        Answered t 0 0 ∧
        (t.ginst j.val).needAck = false ∧
        Leaves dt [] s t { t with gar := { t.gar with insts := s.gar.insts } }) ∧
  (∀ (sense : GarnetSense), s.garRuns = true →
      ∃ t, exec (.garnetEvalCycle dt sense) s = .next t ∧
        t.bit Fld.GAR_STATUS_GRST = sense.grst ∧
        t.bit Fld.GAR_STATUS_CUST_EN = s.custodyOn ∧
        (∀ x : Fin 4, (s.pairInst x.val).isSome = true → (t.gpair x.val).closed = true → (t.gpair x.val).hold.isSome = true ∨
          (t.bit Fld.GAR_STATUS_CUST_EN = true ∧ t.reqLine x.val = true ∧ t.permit x.val = 2)) ∧
        LeavesOut dt [0x05, 0x12] s t { t with gar := s.gar, arc := s.arc })

/-- A due high-side off-pulse drives the high side off for one counted pulse, which ends with the pair on again when the
readback fell; an overload of a closed pair and a feedback that does not follow lock the instance with cause bits 6
and 5; the fall of custody leaves no pair closed without a hold, and a hold of 5 ms opens its pair. Registers of other
blocks and memory do not change. (R148, R149, R150, R151, R163, R167) -/
def Obligations.GarnetOutputs : Prop := ∀ (s : State) (dt : Nat), s.wf = true →
  (∀ (pair : Fin 4), s.garRuns = true →
      (s.gpair pair.val).closed = true →
      (s.gpair pair.val).hold = none →
      (s.gpair pair.val).test = none →
      (s.gpair pair.val).pulse = none →
      (s.gpair pair.val).opLow = none →
      (s.gpair pair.val).opNext ≤ (s.elapse dt).time.clock →
      ∃ t, exec (.offpulseTest dt pair .hs) s = .next t ∧
        Counted Reg.GAR_OFFPULSES 1 s t ∧
        (t.gpair pair.val).pulse = some (true, (s.elapse dt).time.clock) ∧
        (t.gpair pair.val).opLow = some ((s.elapse dt).time.clock + 100000000) ∧
        t.bit (Fld.GAR_OUTPUTS_HS pair.val) = false ∧
        t.bit (Fld.GAR_OUTPUTS_LS pair.val) = true ∧
        LeavesOut dt [0x05] s t { t with gar := { t.gar with pairs := s.gar.pairs } }) ∧
  (∀ (pair : Fin 4) (hs : Bool) (at_ j : Nat), (s.gpair pair.val).closed = true →
      (s.gpair pair.val).pulse = some (hs, at_) →
      s.pairInst pair.val = some j →
      at_ + gins s.gimg j 14 2 * 1000 ≤ (s.elapse dt).time.clock →
      ∃ t, exec (.offpulsePulseEnd dt pair true) s = .next t ∧
        (t.gpair pair.val).pulse = none ∧
        t.bit (Fld.GAR_OUTPUTS_HS pair.val) = true ∧
        t.bit (Fld.GAR_OUTPUTS_LS pair.val) = true ∧
        LeavesOut dt [0x05] s t { t with gar := { t.gar with pairs := s.gar.pairs } }) ∧
  (∀ (pair : Fin 4) (j : Nat), s.garRuns = true →
      s.pairInst pair.val = some j →
      s.locked j = false →
      (s.gpair pair.val).closed = true →
      ∃ t, exec (.outputOverload dt pair .overload) s = .next t ∧
        t.locked j = true ∧
        (t.getF (Fld.GAR_INST_CAUSE j)).testBit 6 = true ∧
        t.result j = false ∧
        Counted Reg.GAR_LOCKOUTS 1 s t ∧
        (t.gpair pair.val).closed = false ∧
        t.bit (Fld.GAR_OUTPUTS_HS pair.val) = false ∧
        t.bit (Fld.GAR_OUTPUTS_LS pair.val) = false ∧
        LeavesOut dt [0x05, 0x12] s t { t with gar := s.gar, arc := s.arc }) ∧
  (∀ (pair : Fin 4) (at_ j : Nat), s.garRuns = true →
      s.pairInst pair.val = some j →
      s.locked j = false →
      (s.gpair pair.val).feedback = some (true, at_) →
      at_ + gins s.gimg j 8 2 * 1000000 ≤ (s.elapse dt).time.clock →
      (instInput s.gimg j 1).isSome = true →
      s.fbApplied j = false →
      ∃ t, exec (.feedbackTimeout dt pair) s = .next t ∧
        t.locked j = true ∧
        (t.getF (Fld.GAR_INST_CAUSE j)).testBit 5 = true ∧
        t.result j = false ∧
        Counted Reg.GAR_LOCKOUTS 1 s t ∧
        LeavesOut dt [0x05, 0x12] s t { t with gar := s.gar, arc := s.arc }) ∧
  (s.gar.powered = true →
      s.custodyOn = false →
      s.bit Fld.GAR_STATUS_CUST_EN = true →
      ∃ t, exec (.custodyEnableFall dt) s = .next t ∧
        t.bit Fld.GAR_STATUS_CUST_EN = false ∧
        (∀ x : Fin 4, (t.gpair x.val).closed = true → (t.gpair x.val).hold.isSome = true) ∧
        LeavesOut dt [0x05, 0x12] s t { t with gar := s.gar, arc := s.arc }) ∧
  (∀ (pair : Fin 4) (at_ : Nat), (s.gpair pair.val).hold = some at_ →
      (s.gpair pair.val).closed = true →
      at_ + 5000000 ≤ (s.elapse dt).time.clock →
      PortRoom s 0x05 →
      ∃ t, exec (.holdTimeout dt pair) s = .next t ∧
        (t.gpair pair.val).closed = false ∧
        (t.gpair pair.val).hold = none ∧
        t.bit (Fld.GAR_OUTPUTS_HOLD pair.val) = false ∧
        t.bit (Fld.GAR_OUTPUTS_HS pair.val) = false ∧
        Offered 0x05 0x0306 4 57 (p4 [pair.val, 1]) s t ∧
        LeavesOut dt [0x05] s t
          { t with gar := { t.gar with pairs := s.gar.pairs }, arc := { t.arc with ports := s.arc.ports } })

/-- A keyed request is kept for its effect edge; a test whose feedback does not apply in time ends with result 3 and locks
the instance with cause bit 4; one that has held for its hold time passes with result 2 and ends the notice; an
aborted one ends after its time; an overdue one is shown. Registers of other blocks and memory do not change. (R152,
R153, R154, R163) -/
def Obligations.GarnetBrakeTests : Prop := ∀ (s : State) (dt : Nat), s.wf = true →
  (∀ (req : Requester) (pair : Fin 4), Lets s req Reg.GAR_BRKTEST →
      ∃ t, exec (.garBrktestWrite dt req 0xB7 pair) s = .next t ∧
        Answered t 0 0 ∧
        t.gar.brkReq = s.gar.brkReq ++ [(pair.val, (s.elapse dt).effectSeq)] ∧
        Leaves dt [] s t { t with gar := { t.gar with brkReq := s.gar.brkReq } }) ∧
  (∀ (pair : Fin 4) (test : GarTest) (j : Nat), (s.gpair pair.val).test = some test →
      test.aborted = false →
      test.applied = none →
      s.pairInst pair.val = some j →
      s.locked j = false →
      test.start + gins s.gimg j 8 2 * 1000000 ≤ (s.elapse dt).time.clock →
      s.garRuns = true →
      ∃ t, exec (.brakeTestFbTimeout dt pair) s = .next t ∧
        t.getF (Fld.GAR_BRKRES_RES pair.val) = 3 ∧
        (t.gpair pair.val).test = none ∧
        t.locked j = true ∧
        (t.getF (Fld.GAR_INST_CAUSE j)).testBit 4 = true ∧
        t.result j = false ∧
        Counted Reg.GAR_LOCKOUTS 1 s t ∧
        LeavesOut dt [0x05, 0x12] s t { t with gar := s.gar, arc := s.arc }) ∧
  (∀ (pair : Fin 4) (test : GarTest) (j at_ : Nat), (s.gpair pair.val).test = some test →
      test.aborted = false →
      test.applied = some at_ →
      s.pairInst pair.val = some j →
      s.fbApplied j = true →
      at_ + gins s.gimg j 10 2 * 1000000 ≤ (s.elapse dt).time.clock →
      PortRoom s 0x05 →
      ∃ t, exec (.brakeTestPass dt pair) s = .next t ∧
        t.getF (Fld.GAR_BRKRES_RES pair.val) = 2 ∧
        t.bit (Fld.GAR_BRKRES_DUE pair.val) = false ∧
        t.getF (Fld.GAR_INST_STATE j) = 1 ∧
        (t.gpair pair.val).test = none ∧
        (t.gpair pair.val).btBase = some (s.elapse dt).opTime ∧
        Offered 0x05 0x0307 1 57 (p4 [pair.val, 2, s.getF (Fld.GAR_BRKMS_T pair.val)]) s t ∧
        LeavesOut dt [0x05] s t
          { t with gar := { t.gar with pairs := s.gar.pairs }, arc := { t.arc with ports := s.arc.ports } }) ∧
  (∀ (pair : Fin 4) (test : GarTest) (j : Nat), (s.gpair pair.val).test = some test →
      test.aborted = true →
      s.pairInst pair.val = some j →
      test.start + gins s.gimg j 8 2 * 1000000 ≤ (s.elapse dt).time.clock →
      ∃ t, exec (.brakeTestAbortEnd dt pair) s = .next t ∧
        (t.gpair pair.val).test = none ∧
        t.getF (Fld.GAR_INST_STATE j) = 1 ∧
        Leaves dt [Reg.GAR_INST j] s t { t with gar := { t.gar with pairs := s.gar.pairs } }) ∧
  (∀ (pair : Fin 4) (j base : Nat), s.pairInst pair.val = some j →
      (s.gpair pair.val).btBase = some base →
      gins s.gimg j 16 4 ≠ 0 →
      base + gins s.gimg j 16 4 * 1000000000 < (s.elapse dt).opTime →
      ∃ t, exec (.brakeTestDue dt pair) s = .next t ∧
        t.bit (Fld.GAR_BRKRES_DUE pair.val) = true ∧
        Leaves dt [Reg.GAR_BRKRES] s t t)

/-- A permit write with the number of its target edge is counted and kept for that edge, one with another number is
refused and counted; a withdrawal takes effect at once; a permit Valid without an edge for 300 us is Lost, counted,
and locks the instance with cause bit 2; the midpoint of a stretched beat toggles once; a reset pulse within its
window is counted and clears global causes that may clear, another is counted as rejected. Registers of other blocks
and memory do not change. (R155, R157, R158, R159, R160, R163, R164, R166) -/
def Obligations.GarnetPermit : Prop := ∀ (s : State) (dt : Nat), s.wf = true →
  (∀ (req : Requester) (seq : Byte) (rel : BitVec 4), Lets s req Reg.GAR_PERMIT →
      seq.toNat = ((s.elapse dt).time.edgeAt / 250000 + ((s.elapse dt).effectSeq - (s.time.beatSeq + 1))) % 256 →
      ∃ t, exec (.garPermitWrite dt req seq rel) s = .next t ∧
        Answered t 0 0 ∧
        Counted Reg.GAR_PERMWR 1 s t ∧
        Counted Reg.GAR_PERMACC 1 s t ∧
        t.gar.staged.getLast? = some ((s.elapse dt).effectSeq, rel.toNat) ∧
        ((t.gar.staged.all fun x => x.1 != (s.elapse dt).effectSeq || x.2 == rel.toNat) = true) ∧
        Leaves dt (([Reg.GAR_PERMSTAT] ++ two Reg.GAR_PERMWR ++ two Reg.GAR_PERMACC)) s t
          { t with gar := { t.gar with staged := s.gar.staged } }) ∧
  (∀ (req : Requester) (seq : Byte) (rel : BitVec 4), Lets s req Reg.GAR_PERMIT →
      seq.toNat ≠ ((s.elapse dt).time.edgeAt / 250000 + ((s.elapse dt).effectSeq - (s.time.beatSeq + 1))) % 256 →
      ∃ t, exec (.garPermitWrite dt req seq rel) s = .next t ∧
        Answered t 0 0 ∧
        Counted Reg.GAR_PERMWR 1 s t ∧
        Counted Reg.GAR_PERMREFUSED 1 s t ∧
        Leaves dt ((two Reg.GAR_PERMWR ++ two Reg.GAR_PERMREFUSED)) s t t) ∧
  (∀ (req : Requester) (pairs : BitVec 4), Lets s req Reg.GAR_WITHDRAW →
      ∃ t, exec (.garWithdrawWrite dt req pairs) s = .next t ∧
        Answered t 0 0 ∧
        (∀ x : Fin 4, pairs.toNat.testBit x.val = true → t.permit x.val = 0 ∧ t.reqLine x.val = false ∧ t.bit
          (Fld.GAR_PERMSTAT_STAGED x.val) = false) ∧
        ((t.gar.staged.all fun x => x.2 &&& pairs.toNat == 0) = true) ∧
        LeavesOut dt [0x05, 0x12] s t { t with gar := s.gar, arc := s.arc }) ∧
  (∀ (pair : Fin 4) (at_ j : Nat), s.garRuns = true →
      (s.gpair pair.val).lastEdge = some at_ →
      at_ + 300000 < (s.elapse dt).time.clock →
      s.permit pair.val = 2 →
      s.bit Fld.GAR_STATUS_CUST_EN = true →
      (s.gpair pair.val).hold = none →
      s.pairInst pair.val = some j →
      s.locked j = false →
      ∃ t, exec (.permitLost dt pair) s = .next t ∧
        t.permit pair.val = 3 ∧
        Counted Reg.GAR_PERMLOSS 1 s t ∧
        t.locked j = true ∧
        (t.getF (Fld.GAR_INST_CAUSE j)).testBit 2 = true ∧
        t.result j = false ∧
        Counted Reg.GAR_LOCKOUTS 1 s t ∧
        LeavesOut dt [0x05, 0x12] s t { t with gar := s.gar, arc := s.arc }) ∧
  (∀ (gone : Nat), s.bit Fld.TIM_STATUS_STRETCH = true →
      gone = (s.elapse dt).time.mono - s.time.edgeStart →
      300000 < gone + (s.time.edgeAt - (s.elapse dt).time.mt) →
      s.gar.midDone = false →
      (gone + (s.time.edgeAt - (s.elapse dt).time.mt)) / 2 ≤ gone →
      ∃ t, exec (.permitMidpointToggle dt) s = .next t ∧
        t.gar.midDone = true ∧
        (∀ x : Fin 4, s.gar.toggled.testBit x.val = true → (s.gpair x.val).lastEdge = none → s.permit x.val = 1 ∨ s.permit
          x.val = 2 → (t.gpair x.val).lastEdge = some (s.elapse dt).time.clock) ∧
        LeavesOut dt [0x05, 0x12] s t { t with gar := s.gar, arc := s.arc }) ∧
  (∀ (width : Nat) (sense : GarnetSense), s.garRuns = true →
      100000000 ≤ width →
      width ≤ 3000000000 →
      ((bitsOf 5 (s.getF Fld.GAR_GCAUSE_CAUSE)).all s.gar.clearable.testBit) = true →
      sense.differ = false →
      sense.oscOver = false →
      ∃ t, exec (.grstRelease dt width sense) s = .next t ∧
        Counted Reg.GAR_RESETS 1 s t ∧
        t.getF Fld.GAR_GCAUSE_CAUSE = 0 ∧
        t.getF Fld.GAR_STATUS_STATE = 1 ∧
        t.bit Fld.GAR_STATUS_GRST = false ∧
        LeavesOut dt [0x05, 0x12] s t { t with gar := s.gar, arc := s.arc }) ∧
  (∀ (width : Nat) (sense : GarnetSense), s.garRuns = true →
      width < 100000000 ∨ 3000000000 < width →
      ∃ t, exec (.grstRelease dt width sense) s = .next t ∧
        Counted Reg.GAR_RSTREJ 1 s t ∧
        t.bit Fld.GAR_STATUS_GRST = false ∧
        Leaves dt (([Reg.GAR_STATUS] ++ two Reg.GAR_RSTREJ)) s t t)

/-- OPEN with the password opens a session of its user and with a wrong one counts the failure and blocks at the fifth;
CLOSE, ENTER_LOCKOUT at standstill, SETPW and the time limits act as stated. Each command is busy until it completes
with its result. Registers of other blocks and memory do not change. (R172, R173, R174) -/
def Obligations.GarnetSession : Prop := ∀ (s : State) (dt : Nat), s.wf = true →
  (∀ (req : Requester), Lets s req Reg.GAR_CFGCMD →
      s.gar.powered = true →
      s.gar.busy = none →
      s.gar.blockUntil = none →
      s.passwordOk (s.cfgPassword 4) = true →
      ∃ t, exec (.cfgOpen dt req) s = .next t ∧
        Answered t 0 0 ∧
        t.bit Fld.GAR_CFGRES_BUSY = true ∧
        t.getF Fld.GAR_CFGRES_CMD = 1 ∧
        t.gar.busy = some (1, 0) ∧
        t.gar.session = some (leNat (s.cfgWin 0 4), (s.elapse dt).time.clock) ∧
        t.gar.fails = 0 ∧
        t.bit Fld.GAR_STATUS_SESSION = true ∧
        LeavesOut dt [0x05] s t
          { t with gar := { t.gar with busy := s.gar.busy, session := s.gar.session, fails := s.gar.fails } }) ∧
  (∀ (req : Requester), Lets s req Reg.GAR_CFGCMD →
      s.gar.powered = true →
      s.gar.busy = none →
      s.gar.blockUntil = none →
      s.passwordOk (s.cfgPassword 4) = false →
      ∃ t, exec (.cfgOpen dt req) s = .next t ∧
        Answered t 0 0 ∧
        t.bit Fld.GAR_CFGRES_BUSY = true ∧
        t.getF Fld.GAR_CFGRES_CMD = 1 ∧
        t.gar.busy = some (1, 2) ∧
        Counted Reg.GAR_AUTHFAIL 1 s t ∧
        t.gar.fails = s.gar.fails + 1 ∧
        (t.gar.blockUntil = (if 4 ≤ s.gar.fails then some ((s.elapse dt).time.clock + 300000000000) else none)) ∧
        LeavesOut dt [0x05, 0x12] s t { t with gar := s.gar, arc := s.arc }) ∧
  (∀ (req : Requester), Lets s req Reg.GAR_CFGCMD →
      s.gar.powered = true →
      s.gar.busy = none →
      s.gar.session.isSome = true →
      s.cfgStill = true →
      ∃ t, exec (.cfgEnterLockout dt req) s = .next t ∧
        Answered t 0 0 ∧
        t.bit Fld.GAR_CFGRES_BUSY = true ∧
        t.getF Fld.GAR_CFGRES_CMD = 2 ∧
        t.gar.busy = some (2, 0) ∧
        (t.getF Fld.GAR_GCAUSE_CAUSE).testBit 4 = true ∧
        t.getF Fld.GAR_STATUS_STATE = 2 ∧
        ((s.gused.all fun j => t.locked j) = true) ∧
        t.maintenance = true ∧
        t.gar.session.isSome = true ∧
        LeavesOut dt [0x05, 0x12] s t { t with gar := s.gar, arc := s.arc }) ∧
  (∀ (req : Requester), Lets s req Reg.GAR_CFGCMD →
      s.gar.powered = true →
      s.gar.busy = none →
      ∃ t, exec (.cfgClose dt req) s = .next t ∧
        Answered t 0 0 ∧
        t.bit Fld.GAR_CFGRES_BUSY = true ∧
        t.getF Fld.GAR_CFGRES_CMD = 7 ∧
        t.gar.busy = some (7, 0) ∧
        t.gar.session = none ∧
        t.bit Fld.GAR_STATUS_SESSION = false ∧
        t.gar.clearable.testBit 4 = true ∧
        LeavesOut dt [0x05] s t
          { t with gar := { t.gar with busy := s.gar.busy, session := s.gar.session, clearable := s.gar.clearable } }) ∧
  (∀ (req : Requester), Lets s req Reg.GAR_CFGCMD →
      s.gar.powered = true →
      s.gar.busy = none →
      s.gar.session.isSome = true →
      s.maintenance = true →
      12 ≤ (s.cfgPassword 0).length →
      ∃ t, exec (.cfgSetpw dt req) s = .next t ∧
        Answered t 0 0 ∧
        t.bit Fld.GAR_CFGRES_BUSY = true ∧
        t.getF Fld.GAR_CFGRES_CMD = 8 ∧
        t.gar.busy = some (8, 0) ∧
        (t.gar.password.map (fun x => x.2) = t.gar.password.map (fun x => pbkdf2 x.1 (s.cfgPassword 0))) ∧
        t.gar.password.isSome = true ∧
        LeavesOut dt [0x05, 0x12] s t { t with gar := s.gar, arc := s.arc, freeCtr := s.freeCtr }) ∧
  (∀ (cmd r : Nat), s.gar.busy = some (cmd, r) →
      ∃ t, exec (.garCfgcmdComplete dt) s = .next t ∧
        t.bit Fld.GAR_CFGRES_BUSY = false ∧
        t.getF Fld.GAR_CFGRES_CMD = cmd % 256 ∧
        t.getF Fld.GAR_CFGRES_RESULT = r % 256 ∧
        t.gar.busy = none ∧
        Leaves dt [Reg.GAR_CFGRES] s t { t with gar := { t.gar with busy := s.gar.busy } }) ∧
  (∀ (user at_ : Nat), s.gar.session = some (user, at_) →
      at_ + 600000000000 ≤ (s.elapse dt).time.clock →
      ∃ t, exec (.garSessionTimeout dt) s = .next t ∧
        t.gar.session = none ∧
        t.bit Fld.GAR_STATUS_SESSION = false ∧
        t.gar.clearable.testBit 4 = true ∧
        LeavesOut dt [0x05] s t { t with gar := { t.gar with session := s.gar.session, clearable := s.gar.clearable } }) ∧
  (∀ (at_ : Nat), s.gar.blockUntil = some at_ →
      at_ ≤ (s.elapse dt).time.clock →
      ∃ t, exec (.garAuthBlockExpiry dt) s = .next t ∧
        t.gar.blockUntil = none ∧
        t.gar.fails = 0 ∧
        Leaves dt [] s t { t with gar := { t.gar with blockUntil := s.gar.blockUntil, fails := s.gar.fails } })

/-- In the maintenance lock-out LOAD of chunk 0 begins a pending image with the window, READBACK shows its chunk in the
window, ACCEPT of a whole image that keeps the rules, with its check value in the window, makes it active, and DISCARD
or the time limit drops it. Registers of other blocks and memory do not change. (R171, R172, R174, R175) -/
def Obligations.GarnetConfig : Prop := ∀ (s : State) (dt : Nat), s.wf = true →
  (∀ (req : Requester), Lets s req Reg.GAR_CFGCMD →
      s.gar.powered = true →
      s.gar.busy = none →
      s.gar.session.isSome = true →
      s.maintenance = true →
      s.cfgStill = true →
      ∃ t, exec (.cfgLoad dt req 0) s = .next t ∧
        Answered t 0 0 ∧
        t.bit Fld.GAR_CFGRES_BUSY = true ∧
        t.getF Fld.GAR_CFGRES_CMD = 3 ∧
        t.gar.pending = some (s.cfgWin 0 4096) ∧
        t.gar.chunks = [0] ∧
        t.gar.pendAt = (s.elapse dt).time.clock ∧
        t.bit Fld.GAR_STATUS_PENDING = true ∧
        LeavesOut dt [0x05, 0x12] s t { t with gar := s.gar, arc := s.arc }) ∧
  (∀ (req : Requester) (chunk : Nat) (img : List Byte), Lets s req Reg.GAR_CFGCMD →
      s.gar.powered = true →
      s.gar.busy = none →
      s.gar.session.isSome = true →
      s.gar.pending = some img →
      ∃ t, exec (.cfgReadback dt req chunk) s = .next t ∧
        Answered t 0 0 ∧
        t.bit Fld.GAR_CFGRES_BUSY = true ∧
        t.getF Fld.GAR_CFGRES_CMD = 4 ∧
        t.gar.busy = some (4, 0) ∧
        (∀ i : Fin 1024, t.rd (Reg.GAR_CFGWIN + 4 * i.val) = leNat (((img.drop (4096 * chunk)).take 4096).drop (4 * i.val)
          |>.take 4)) ∧
        LeavesOut dt [0x05] s t { t with gar := { t.gar with busy := s.gar.busy, session := s.gar.session } }) ∧
  (∀ (req : Requester) (img : List Byte), Lets s req Reg.GAR_CFGCMD →
      s.gar.powered = true →
      s.gar.busy = none →
      s.gar.session.isSome = true →
      s.maintenance = true →
      s.cfgStill = true →
      s.gar.pending = some img →
      s.pendingWhole = true →
      garImageOk img = true →
      leNat (s.cfgWin 0 4) = imgChk img →
      ∃ t, exec (.cfgAccept dt req) s = .next t ∧
        Answered t 0 0 ∧
        t.bit Fld.GAR_CFGRES_BUSY = true ∧
        t.getF Fld.GAR_CFGRES_CMD = 5 ∧
        t.gar.busy = some (5, 0) ∧
        t.gar.active = some img ∧
        t.gar.pending = none ∧
        t.rd Reg.GAR_CFGCHK = imgChk img % 4294967296 ∧
        t.rd Reg.GAR_PENDCHK = 0 ∧
        (∀ j : Fin 8, t.getF (Fld.GAR_INST_TYPE j.val) = gins img j.val 0 1 % 8) ∧
        (∀ j : Fin 8, t.result j.val = false) ∧
        LeavesOut dt [0x05, 0x12] s t { t with gar := s.gar, arc := s.arc }) ∧
  (∀ (req : Requester), Lets s req Reg.GAR_CFGCMD →
      s.gar.powered = true →
      s.gar.busy = none →
      s.gar.session.isSome = true →
      ∃ t, exec (.cfgDiscard dt req) s = .next t ∧
        Answered t 0 0 ∧
        t.bit Fld.GAR_CFGRES_BUSY = true ∧
        t.getF Fld.GAR_CFGRES_CMD = 6 ∧
        t.gar.busy = some (6, 0) ∧
        t.gar.pending = none ∧
        t.gar.chunks = [] ∧
        t.rd Reg.GAR_PENDCHK = 0 ∧
        t.bit Fld.GAR_STATUS_PENDING = false ∧
        t.gar.clearable.testBit 4 = true ∧
        LeavesOut dt [0x05, 0x12] s t { t with gar := s.gar, arc := s.arc }) ∧
  (s.gar.pending.isSome = true →
      s.gar.pendAt + 3600000000000 ≤ (s.elapse dt).time.clock →
      ∃ t, exec (.pendingImageExpiry dt) s = .next t ∧
        t.gar.pending = none ∧
        t.rd Reg.GAR_PENDCHK = 0 ∧
        t.bit Fld.GAR_STATUS_PENDING = false ∧
        LeavesOut dt [0x05] s t { t with gar := { t.gar with pending := s.gar.pending, chunks := s.gar.chunks } })

/-- A start whose policy is cold runs with the program's identity and a new retain header, writes the initial outputs to
the committed copies only, and offers its event; a ready task is in the choice of the executive, which runs no task of
lower priority beside it and starts none before one of higher priority that was released at the same edge and is not
ready; a DONE write of the running cycle before its deadline is counted, ends the overruns in a row, and copies the
output image to the committed copy through the map, leaving every other byte but the cycle number and check value of
the retain header; its scans move on the function blocks that the body names, here a TON, an R_TRIG and a CTU, whose
new records stand in memory; one of another cycle is refused and counted. An arm write whose conditions hold keeps the
change with its affected tasks and shows ARMED; a cancel before the change edge ends it with result 9; a force update
is kept for its effect edge. Nothing else changes. (R183, R192, R194, R196, R199, R201, R203, R204, R206, R509, R207,
R208, R214) -/
def Obligations.Runtime : Prop := ∀ (s : State) (dt : Nat), s.wf = true →
  (∀ (info : StartInfo) (img : Image), s.lcs.phase = .executive →
      s.time.firstLockDone = true ∨ s.time.lockOver = true →
      s.lcState ≠ 4 →
      s.triadMode ≠ 4 →
      s.lcs.cvCause = none →
      s.lcs.running = some img →
      img.fmtVer = info.fmtVer →
      s.rts.forces = [] →
      s.rts.change = none →
      (∀ x : Fin 16, (s.task x.val).running = false) →
      s.getF Fld.RTS_POLICY_RESTART = 0 →
      s.tableOk s.activeTab = true →
      s.admitted s.activeTab = true →
      s.replicaOnly = false →
      s.rts.endedForces = [] →
      info.initialVars = [] →
      info.initialRetain = [] →
      info.instances = [] →
      PortRoom s 0x06 →
      ∃ t, exec (.runtimeStart dt info) s = .next t ∧
        t.lcs.phase = .firmware ∧
        t.getF Fld.RTS_STATE_STATE = 1 ∧
        t.getF Fld.RTS_STATE_START = 1 ∧
        t.bit Fld.RTS_STATE_WHY_POLICY = true ∧
        t.rd64 Reg.RTS_PROGID = info.programId.toNat % 18446744073709551616 ∧
        t.rts.decls = info.instances ∧
        Offered 0x06 0x0403 2 56 (p4 [1, t.rd Reg.RTS_STATE / 65536 % 8]) s t ∧
        t.getF Fld.RTS_STOPPED_TASKS = 0 ∧
        t.getF Fld.LCS_FMT_FMT = info.fmtVer % 65536 ∧
        (t.task 0).first = true ∧
        (∀ a, (a < State.retainBase ∨ State.retainBase + 332 ≤ a) ∧ (info.initialOutputs.all fun x => decide (a < s.comImg
          x.1.val ∨ s.comImg x.1.val + min 65536 x.2.length ≤ a)) = true → t.memGet a = s.memGet a) ∧
        LeavesStore dt ([Reg.RTS_STATE, Reg.LCS_FMT, Reg.RTS_STOPPED] ++ (List.range 16).map Reg.RTS_CONSEC ++ two
          Reg.RTS_PROGID) s t
          { t with lcs := { t.lcs with phase := s.lcs.phase, runAt := s.lcs.runAt }, rts := s.rts, arc := s.arc }) ∧
  (∀ (info : StartInfo) (img : Image) (task : Fin 16) (bs : List Byte), s.lcs.phase = .executive →
      s.time.firstLockDone = true ∨ s.time.lockOver = true →
      s.lcState ≠ 4 →
      s.triadMode ≠ 4 →
      s.lcs.cvCause = none →
      s.lcs.running = some img →
      img.fmtVer = info.fmtVer →
      s.rts.forces = [] →
      s.rts.change = none →
      (∀ x : Fin 16, (s.task x.val).running = false) →
      s.getF Fld.RTS_POLICY_RESTART = 0 →
      s.tableOk s.activeTab = true →
      s.admitted s.activeTab = true →
      s.replicaOnly = false →
      s.rts.endedForces = [] →
      info.initialVars = [] →
      info.initialRetain = [] →
      info.instances = [] →
      info.initialOutputs = [(task, bs)] →
      bs.length ≤ 65536 →
      ∃ t, exec (.runtimeStart dt info) s = .next t ∧
        t.memRead (s.comImg task.val) bs.length = bs) ∧
  (∀ (info : StartInfo) (img : Image), s.lcs.phase = .executive →
      s.time.firstLockDone = true ∨ s.time.lockOver = true →
      s.lcState ≠ 4 →
      s.triadMode ≠ 4 →
      s.lcs.cvCause = none →
      s.lcs.running = some img →
      img.fmtVer = info.fmtVer →
      s.rts.forces = [] →
      s.rts.change = none →
      (∀ x : Fin 16, (s.task x.val).running = false) →
      s.getF Fld.RTS_POLICY_RESTART = 0 →
      s.tableOk s.activeTab = true →
      s.admitted s.activeTab = true →
      s.replicaOnly = false →
      s.rts.endedForces = [] →
      info.initialVars = [] →
      info.initialRetain = [] →
      info.initialOutputs = [] →
      info.instances = [] →
      ∃ t, exec (.runtimeStart dt info) s = .next t ∧
        t.retainOk = true ∧
        t.retainFmt = info.fmtVer % 65536 ∧
        t.retainId = info.programId.toNat ∧
        (∀ x : Fin 16, t.retainBegun x.val = 0 ∧ t.retainDone x.val = 0)) ∧
  (∀ (info : StartInfo) (img : Image) (d : FbDecl), s.lcs.phase = .executive →
      s.time.firstLockDone = true ∨ s.time.lockOver = true →
      s.lcState ≠ 4 →
      s.triadMode ≠ 4 →
      s.lcs.cvCause = none →
      s.lcs.running = some img →
      img.fmtVer = info.fmtVer →
      s.rts.forces = [] →
      s.rts.change = none →
      (∀ x : Fin 16, (s.task x.val).running = false) →
      s.getF Fld.RTS_POLICY_RESTART = 0 →
      s.tableOk s.activeTab = true →
      s.admitted s.activeTab = true →
      s.replicaOnly = false →
      s.rts.endedForces = [] →
      info.initialVars = [] →
      info.initialRetain = [] →
      info.initialOutputs = [] →
      info.instances = [d] →
      fbHome d = true →
      ∃ t, exec (.runtimeStart dt info) s = .next t ∧
        t.memRead d.at_ 40 = ({ kind := d.kind } : FbInst).bytes ∧
        t.fbOf d.task.val d.path = some d) ∧
  (∀ (task : Fin 16), (s.task task.val).running = true →
      ((s.task task.val).begun = true ∨ ((List.range 16).any fun u => (s.task u).running && !(s.task u).ready && (s.task
        u).rel == (s.task task.val).rel && decide (u ≠ task.val ∧ (s.ent u).prio < (s.ent task.val).prio)) = false) →
      ∃ t, exec (.taskReady dt task) s = .next t ∧
        (t.task task.val).ready = true ∧
        (t.task task.val).running = true ∧
        t.rts.exec.isSome = true ∧
        ((t.rts.exec.all fun u => decide ((s.ent u).prio ≤ (s.ent task.val).prio)) = true) ∧
        (t.rts.exec.all (fun u => (t.task u).begun) = true) ∧
        Leaves dt [] s t { t with rts := s.rts }) ∧
  (∀ (task : Fin 16), (s.task task.val).running = true →
      (s.task task.val).begun = false →
      (((List.range 16).any fun u => (s.task u).running && !(s.task u).ready && (s.task u).rel == (s.task task.val).rel &&
        decide (u ≠ task.val ∧ (s.ent u).prio < (s.ent task.val).prio)) = true) →
      ∃ t, exec (.taskReady dt task) s = .next t ∧
        (t.task task.val).ready = true ∧
        t.rts.exec ≠ some task.val ∧
        Leaves dt [] s t { t with rts := s.rts }) ∧
  (∀ (req : Requester) (task : Fin 16) (cycle : BitVec 16) (scans : List FbScan), Lets s req Reg.RTS_DONE →
      (s.task task.val).running = true →
      (s.task task.val).cycle % 65536 = cycle.toNat →
      s.getF Fld.RTS_STATE_STATE = 1 →
      (s.task task.val).judged = false →
      (s.elapse dt).time.mt + 15000 < s.time.edgeAt →
      s.rts.forces = [] →
      s.replicaOnly = false →
      ∃ t, exec (.rtsDoneWrite dt req task ⟨cycle, scans⟩) s = .next t ∧
        Answered t 0 0 ∧
        Counted (Reg.RTS_COMMITS task.val) 1 s t ∧
        t.getF (Fld.RTS_CONSEC_COUNT task.val) = 0 ∧
        (t.getF Fld.RTS_BUSY_TASKS).testBit task.val = false ∧
        (t.task task.val).accepted = true ∧
        (t.task task.val).running = false ∧
        (∀ a, (a < State.retainBase + 80 + 16 * task.val ∨ State.retainBase + 88 + 16 * task.val ≤ a) ∧ (a < State.retainBase
          + 328 ∨ State.retainBase + 332 ≤ a) ∧ ((s.outMapOf (s.ent task.val)).all fun m => decide (a < s.comImg task.val +
          m.iofs ∨ s.comImg task.val + m.iofs + m.len ≤ a)) = true ∧ (s.rts.decls.all fun d => decide (a < d.at_ ∨ d.at_ + 40
          ≤ a)) = true → t.memGet a = s.memGet a) ∧
        LeavesStore dt ([Reg.RTS_BUSY, Reg.RTS_CONSEC task.val, Reg.LCS_BOOTINFO] ++ two (Reg.RTS_COMMITS task.val) ++ two
          Reg.FAB_FWREFUSED ++ two Reg.FAB_FWLAST_ADDR ++ [Reg.FAB_FWLAST_INFO]) s t { t with rts := s.rts }) ∧
  (∀ (req : Requester) (task : Fin 16) (cycle : BitVec 16) (scans : List FbScan) (m : MapEnt), Lets s req Reg.RTS_DONE →
      (s.task task.val).running = true →
      (s.task task.val).cycle % 65536 = cycle.toNat →
      s.getF Fld.RTS_STATE_STATE = 1 →
      (s.task task.val).judged = false →
      (s.elapse dt).time.mt + 15000 < s.time.edgeAt →
      s.rts.forces = [] →
      s.replicaOnly = false →
      s.outMapOf (s.ent task.val) = [m] →
      m.iofs + m.len ≤ 65536 →
      s.comImg task.val + 65536 ≤ State.retainBase →
      ∃ t, exec (.rtsDoneWrite dt req task ⟨cycle, scans⟩) s = .next t ∧
        t.memRead (s.comImg task.val + m.iofs) m.len = s.memRead (s.outImg task.val + m.iofs) m.len) ∧
  (∀ (req : Requester) (task : Fin 16) (cycle : BitVec 16) (scans : List FbScan) (x : FbScan) (d : FbDecl) (f : FbInst) (st :
    Int), Lets s req Reg.RTS_DONE →
      (s.task task.val).running = true →
      (s.task task.val).cycle % 65536 = cycle.toNat →
      s.getF Fld.RTS_STATE_STATE = 1 →
      (s.task task.val).judged = false →
      (s.elapse dt).time.mt + 15000 < s.time.edgeAt →
      s.rts.forces = [] →
      s.replicaOnly = false →
      scans = [x] →
      s.fbOf task.val x.path = some d →
      fbHome d = true →
      s.fbGet d = f →
      f.kind = .ton →
      f.start = some st →
      x.a = true →
      ∃ t, exec (.rtsDoneWrite dt req task ⟨cycle, scans⟩) s = .next t ∧
        t.memRead d.at_ 40 =
          ({ f with start := some st, et := min (((s.task task.val).relMono - st).toNat) x.pt, q := decide ((x.pt : Int) ≤ (s.task task.val).relMono - st), prevA := some x.a, prevB := some x.b, relMt := (s.task task.val).relMt }
          : FbInst).bytes) ∧
  (∀ (req : Requester) (task : Fin 16) (cycle : BitVec 16) (scans : List FbScan) (x : FbScan) (d : FbDecl) (f : FbInst), Lets
    s req Reg.RTS_DONE →
      (s.task task.val).running = true →
      (s.task task.val).cycle % 65536 = cycle.toNat →
      s.getF Fld.RTS_STATE_STATE = 1 →
      (s.task task.val).judged = false →
      (s.elapse dt).time.mt + 15000 < s.time.edgeAt →
      s.rts.forces = [] →
      s.replicaOnly = false →
      scans = [x] →
      s.fbOf task.val x.path = some d →
      fbHome d = true →
      s.fbGet d = f →
      f.kind = .rTrig →
      ∃ t, exec (.rtsDoneWrite dt req task ⟨cycle, scans⟩) s = .next t ∧
        t.memRead d.at_ 40 =
          ({ f with q := f.prevA == some false && x.a, prevA := some x.a, prevB := some x.b, relMt := (s.task task.val).relMt }
          : FbInst).bytes) ∧
  (∀ (req : Requester) (task : Fin 16) (cycle : BitVec 16) (scans : List FbScan) (x : FbScan) (d : FbDecl) (f : FbInst), Lets
    s req Reg.RTS_DONE →
      (s.task task.val).running = true →
      (s.task task.val).cycle % 65536 = cycle.toNat →
      s.getF Fld.RTS_STATE_STATE = 1 →
      (s.task task.val).judged = false →
      (s.elapse dt).time.mt + 15000 < s.time.edgeAt →
      s.rts.forces = [] →
      s.replicaOnly = false →
      scans = [x] →
      s.fbOf task.val x.path = some d →
      fbHome d = true →
      s.fbGet d = f →
      f.kind = .ctu →
      f.prevA = some false →
      x.a = true →
      x.r = false →
      f.cv < cvMax →
      ∃ t, exec (.rtsDoneWrite dt req task ⟨cycle, scans⟩) s = .next t ∧
        t.memRead d.at_ 40 =
          ({ f with cv := f.cv + 1, q := decide (x.pv ≤ f.cv + 1), q2 := false, prevA := some x.a, prevB := some x.b, relMt := (s.task task.val).relMt }
          : FbInst).bytes) ∧
  (∀ (req : Requester) (task : Fin 16) (cycle : BitVec 16) (scans : List FbScan), Lets s req Reg.RTS_DONE →
      (s.task task.val).cycle % 65536 ≠ cycle.toNat →
      ∃ t, exec (.rtsDoneWrite dt req task ⟨cycle, scans⟩) s = .next t ∧
        Answered t 0 0 ∧
        Counted Reg.RTS_DONEREFUSED 1 s t ∧
        Leaves dt ((two Reg.RTS_DONEREFUSED)) s t { t with rts := { t.rts with clean := s.rts.clean } }) ∧
  (∀ (req : Requester) (pkg : ChangePackage), Lets s req Reg.RTS_OCCTL →
      s.changeNeedsScp (s.affectedTasks pkg) = false →
      (s.elapse dt).changeEdgeExists (s.affectedTasks pkg) (s.rd64 Reg.RTS_OCTARGET) = true →
      s.tableOk (1 - s.activeTab) = true →
      s.admitted (1 - s.activeTab) = true →
      ∃ t, exec (.rtsOcArm dt req pkg) s = .next t ∧
        Answered t 0 0 ∧
        t.getF Fld.RTS_OCSTAT_RESULT = 1 ∧
        t.getF Fld.RTS_OCSTAT_POSTPONE = 0 ∧
        t.rts.change = some ⟨pkg, s.affectedTasks pkg, (s.elapse dt).time.mono⟩ ∧
        Leaves dt [Reg.RTS_OCSTAT] s t { t with rts := { t.rts with change := s.rts.change } }) ∧
  (∀ (req : Requester), Lets s req Reg.RTS_OCCTL →
      s.rts.change.isSome = true →
      ∃ t, exec (.rtsOcCancel dt req) s = .next t ∧
        Answered t 0 0 ∧
        t.getF Fld.RTS_OCSTAT_RESULT = 9 ∧
        t.rts.change = none ∧
        Leaves dt [Reg.RTS_OCSTAT] s t { t with rts := { t.rts with change := s.rts.change } }) ∧
  (∀ (req : Requester) (index : Fin 256), Lets s req Reg.RTS_FORCEUPD →
      ∃ t, exec (.rtsForceupdWrite dt req index) s = .next t ∧
        Answered t 0 0 ∧
        (t.rts.forcePend = (s.rts.forcePend.filter fun x => x.1 != index.val) ++ [(index.val, (s.elapse dt).effectSeq)]) ∧
        Leaves dt [] s t { t with rts := { t.rts with forcePend := s.rts.forcePend } })

/-- A mismatch of a running Paired pair halts it, is counted and recorded, and no byte changes that was not held in its
L1; a restart starts the named core from its vector; a fence and a release store make the buffered stores visible in
order, and the memory then holds exactly those bytes; a release store waits while a load of its core has not been
performed, and a fence behind it; a store whose translation ends in a page fault raises that; cache errors are
counted, and the load or device read of a bad line ends with an error. (R225, R226, R227, R231, R232) -/
def Obligations.AppCores : Prop := ∀ (s : State) (dt : Nat), s.wf = true →
  (∀ (pair : Fin 4) (even odd : Option Txn) (otherwise : Bool), s.isPaired pair.val = true →
      s.pairState pair.val = 1 →
      even ≠ odd ∨ otherwise = true →
      ((s.pops.all fun kp => kp.2.waiting.isEmpty) = true) →
      PortRoom s 0x03 →
      ∃ t, exec (.apcPairMismatch dt pair ⟨even, odd, otherwise⟩) s = .next t ∧
        t.pairState pair.val = 2 ∧
        Counted (Reg.APC_MISMATCH pair.val) 1 s t ∧
        t.rd64 (Reg.APC_LASTMIS pair.val) = mismatchAddr even odd ∧
        tget t.app.storeBuf (2 * pair.val) = [] ∧
        ((t.pops.all fun kp => kp.2.inFlight.all fun r => !s.ofHart (2 * pair.val) r) = true) ∧
        Offered 0x03 0x0501 5 60 (p4 [pair.val]) s t ∧
        (∀ a, (s.app.l1Undo.all fun u => u.1 != 2 * pair.val || u.2.1 != a) = true → t.memGet a = s.memGet a) ∧
        LeavesStore dt ([Reg.APC_PAIRSTAT] ++ two (Reg.APC_MISMATCH pair.val) ++ two (Reg.APC_LASTMIS pair.val)) s t
          { t with freeCtr := s.freeCtr, pops := s.pops, app := { t.app with storeBuf := s.app.storeBuf, parked := s.app.parked, waits := s.app.waits, badLines := s.app.badLines }, arc := { t.arc with ports := s.arc.ports } })
          ∧
  (∀ (req : Requester) (cores : BitVec 8) (c : Fin 8), Lets s req Reg.APC_RESTART →
      cores.toNat = 2 ^ c.val →
      State.isApp req = false →
      s.heldDisabled 0x03 (c.val / 2) = false →
      s.pairState (c.val / 2) ≠ 3 →
      s.isPaired (c.val / 2) = false →
      ((s.pops.all fun kp => kp.2.waiting.isEmpty) = true) →
      ∃ t, exec (.apcRestartWrite dt req 0x3C cores) s = .next t ∧
        Answered t 0 0 ∧
        t.pairState (c.val / 2) = 1 ∧
        Counted (Reg.APC_RESTARTS c.val) 1 s t ∧
        tget t.app.cores c.val = { pc := s.getF (Fld.APC_RESETVEC_VEC c.val), mode := .machine, satp := 0 } ∧
        tget t.app.storeBuf c.val = [] ∧
        (∀ a, (s.app.l1Undo.all fun u => u.1 != c.val || u.2.1 != a) = true → t.memGet a = s.memGet a) ∧
        LeavesStore dt ([Reg.APC_PAIRSTAT] ++ two (Reg.APC_RESTARTS c.val)) s t
          { t with freeCtr := s.freeCtr, pops := s.pops, app := { t.app with storeBuf := s.app.storeBuf, parked := s.app.parked, waits := s.app.waits, badLines := s.app.badLines, cores := s.app.cores } })
          ∧
  (∀ (core : Fin 8), ((s.app.parked.all fun x => s.hartOf x.1 != s.hartOf core.val) = true) →
      (((tget s.app.storeBuf (s.hartOf core.val)).all fun x => !State.inWindow x.1) = true) →
      ∃ t, exec (.apcFence dt core) s = .next t ∧
        tget t.app.storeBuf (s.hartOf core.val) = [] ∧
        (∀ a, t.memGet a = ((tget s.app.storeBuf (s.hartOf core.val)).foldl (fun (u : State) x => u.memPut x.1 x.2) s).memGet
          a) ∧
        LeavesStore dt [] s t { t with app := { t.app with storeBuf := s.app.storeBuf } }) ∧
  (∀ (core : Fin 8), ((s.app.parked.all fun x => s.hartOf x.1 != s.hartOf core.val) = false) →
      ∃ t, exec (.apcFence dt core) s = .next t ∧
        t.app.parked = s.app.parked ++ [(core.val, .fence)] ∧
        Leaves dt [] s t { t with app := { t.app with parked := s.app.parked } }) ∧
  (∀ (core : CoreAt) (va addr : Nat) (bytes : List Byte), s.issues ⟨s.coreCls core.core.val, core.core.val⟩ = true →
      s.translate core va = .at_ addr →
      ((s.app.parked.all fun x => s.hartOf x.1 != s.hartOf core.core.val) = true) →
      s.loading (s.hartOf core.core.val) = false →
      regionOf addr = some .ddr →
      s.rangeCheck (s.coreCls core.core.val) true addr bytes.length = 0 →
      s.releasePage addr = true →
      (((tget s.app.storeBuf (s.hartOf core.core.val)).all fun x => !State.inWindow x.1) = true) →
      ∃ t, exec (.releaseStore dt core va bytes) s = .next t ∧
        Answered t 0 0 ∧
        tget t.app.cores core.core.val = { tget s.app.cores core.core.val with mode := core.mode, satp := core.satp } ∧
        (∀ a, t.memGet a = ((tget s.app.storeBuf (s.hartOf core.core.val) ++ [(addr, bytes)]).foldl (fun (u : State) x =>
          u.memPut x.1 x.2) s).memGet a) ∧
        LeavesStore dt [] s t { t with app := { t.app with storeBuf := s.app.storeBuf, cores := s.app.cores } }) ∧
  (∀ (core : CoreAt) (va addr : Nat) (bytes : List Byte), s.issues ⟨s.coreCls core.core.val, core.core.val⟩ = true →
      s.translate core va = .at_ addr →
      s.loading (s.hartOf core.core.val) = true →
      s.releasePage addr = true →
      ∃ t, exec (.releaseStore dt core va bytes) s = .next t ∧
        t.app.parked = s.app.parked ++ [(core.core.val, .store addr bytes)] ∧
        Leaves dt [] s t { t with app := { t.app with parked := s.app.parked, cores := s.app.cores } }) ∧
  (∀ (core : CoreAt) (va : Nat) (bytes : List Byte), s.issues ⟨s.coreCls core.core.val, core.core.val⟩ = true →
      s.translate core va = .pageFault →
      ∃ t, exec (.releaseStore dt core va bytes) s = .next t ∧
        t.resp = { status := 0, exc := some .storePageFault, data := 0 } ∧
        Leaves dt [] s t { t with app := { t.app with cores := s.app.cores } }) ∧
  (∃ t, exec (.cacheEccUncorrectable dt .l1Corrected) s = .next t ∧
        Counted Reg.APC_L1CORR 1 s t ∧
        Leaves dt ((two Reg.APC_L1CORR)) s t t) ∧
  (∃ t, exec (.cacheEccUncorrectable dt .l2Corrected) s = .next t ∧
        Counted Reg.APC_L2CORR 1 s t ∧
        Leaves dt ((two Reg.APC_L2CORR)) s t t) ∧
  (∀ (addr : Nat), ∃ t, exec (.cacheEccUncorrectable dt (.dirtyLine addr)) s = .next t ∧
        t.app.badLines = State.insertUp (addr / 64) s.app.badLines ∧
        Leaves dt [] s t { t with app := { t.app with badLines := s.app.badLines } }) ∧
  (∀ (core : Fin 8) (addr : Nat), addr / 64 ∈ s.app.badLines →
      ∃ t, exec (.cacheEccUncorrectable dt (.coreLoad core addr)) s = .next t ∧
        Counted Reg.APC_ECCUNCORR 1 s t ∧
        t.resp.exc = some .accessFault ∧
        t.app.badLines = s.app.badLines.filter (· != addr / 64) ∧
        Leaves dt ((two Reg.APC_ECCUNCORR)) s t { t with app := { t.app with badLines := s.app.badLines } }) ∧
  (∀ (addr : Nat), addr / 64 ∈ s.app.badLines →
      ∃ t, exec (.cacheEccUncorrectable dt (.deviceRead addr)) s = .next t ∧
        Counted Reg.APC_ECCUNCORR 1 s t ∧
        Answered t 0x12 0 ∧
        Leaves dt ((two Reg.APC_ECCUNCORR)) s t t)

/-- A write of a register word of SYS, TIM, TRIAD, APC, FAB or GAR that is no command leaves in it what the access types
of its fields allow, but for what R244 fixes in FAB_FWWR, and changes nothing else; a write of a command word has the
effect of that command; a store to DDR, of a requester other than an application core, that map and firewall let pass
changes exactly its bytes; an access that the firewall refuses has no effect but that it is counted and recorded: a
device gets ERR_FIREWALL, a core an access fault. Every request takes the class of its requester; a grant goes to a
waiting request of the highest class and, within it, of the earliest acceptance, is counted in the class of the grant,
and keeps the longest wait; in the queue of Courier's channels the highest class comes first and, within it, the
channel whose last turn is longest ago, and such a turn is not counted; a C3 request that has waited longer than AGE
becomes C2 and is counted. Nothing else changes. (R13, R16, R17, R26, R244, R246, R247, R248, R249) -/
def Obligations.RegisterAccess : Prop := ∀ (s : State) (dt : Nat), s.wf = true →
  (∀ (req : Requester) (a : Nat) (value : BitVec 64) (r : LayRow), a % 4 = 0 →
      a < 0x60000 →
      Lets s req a →
      layRow a = some r →
      a ∉ commandWords →
      indexAt a (Reg.FAB_FWWR 0) 4 27 = none →
      ∃ t, exec (.registerWrite dt req (0xF000000000 + a) 4 value) s = .next t ∧
        Answered t 0 0 ∧
        t.rd a = maskWrite r s.sealedCfg (s.rd a) (value.toNat % 4294967296) ∧
        Leaves dt (([a] ++ storeWords s)) s t { t with lpe := s.lpe, lpeUnits := s.lpeUnits }) ∧
  (∀ (req : Requester) (i : Fin 27) (value : BitVec 64) (r : LayRow), Lets s req (Reg.FAB_FWWR i.val) →
      layRow (Reg.FAB_FWWR i.val) = some r →
      ∃ t, exec (.registerWrite dt req (0xF000000000 + Reg.FAB_FWWR i.val) 4 value) s = .next t ∧
        Answered t 0 0 ∧
        (t.rd (Reg.FAB_FWWR i.val) = if i.val = 0x1A then s.rd (Reg.FAB_FWWR i.val) else (maskWrite r s.sealedCfg (s.rd
          (Reg.FAB_FWWR i.val)) (value.toNat % 4294967296) &&& 0x7D) ||| (s.rd (Reg.FAB_FWWR i.val) &&& 2)) ∧
        Leaves dt (([Reg.FAB_FWWR i.val] ++ storeWords s)) s t { t with lpe := s.lpe, lpeUnits := s.lpeUnits }) ∧
  (∀ (req : Requester) (a : Nat) (value : BitVec 64) (u : State), a % 4 = 0 →
      a < 0x1B0000 →
      a / 0x10000 ≠ 0x19 →
      Lets s req a →
      ((((s.elapse dt).prior req).lpeWrite (regPhys a) (leBytes 4 value.toNat))).special req a (value.toNat % 4294967296) =
        some u →
      ∃ t, exec (.registerWrite dt req (0xF000000000 + a) 4 value) s = .next t ∧
        t = u.respond 0 0) ∧
  (∀ (req : Requester) (addr size : Nat) (value : BitVec 64), State.isApp req = false →
      s.issues req = true →
      size = 1 ∨ size = 2 ∨ size = 4 ∨ size = 8 →
      addr % size = 0 →
      regionOf addr = some .ddr →
      s.rangeCheck req.cls true addr size = 0 →
      ∃ t, exec (.registerWrite dt req addr size value) s = .next t ∧
        Answered t 0 0 ∧
        (∀ a, t.memGet a = (s.memPut addr (leBytes size value.toNat)).memGet a) ∧
        LeavesStore dt [] s t t) ∧
  (∀ (req : Requester) (a : Nat) (value : BitVec 64), a % 4 = 0 →
      a < 0x1B0000 →
      s.fwWrite req.cls a = false →
      isCore req.cls = false →
      ∃ t, exec (.registerWrite dt req (0xF000000000 + a) 4 value) s = .next t ∧
        Answered t 0x14 0 ∧
        Counted Reg.FAB_FWREFUSED 1 s t ∧
        t.rd64 Reg.FAB_FWLAST_ADDR = 0xF000000000 + a ∧
        t.rd Reg.FAB_FWLAST_INFO = 256 + clsBit req.cls ∧
        Leaves dt (([Reg.FAB_FWLAST_INFO] ++ two Reg.FAB_FWREFUSED ++ two Reg.FAB_FWLAST_ADDR)) s t t) ∧
  (∀ (req : Requester) (a : Nat) (value : BitVec 64), a % 4 = 0 →
      a < 0x1B0000 →
      s.fwWrite req.cls a = false →
      req.cls = .ap →
      s.issues req = true →
      tget s.app.storeBuf (s.hartOf req.core) = [] →
      s.mustPark (s.hartOf req.core) (0xF000000000 + a) = false →
      ∃ t, exec (.registerWrite dt req (0xF000000000 + a) 4 value) s = .next t ∧
        t.resp = { status := 0, exc := some .accessFault, data := 0 } ∧
        Counted Reg.FAB_FWREFUSED 1 s t ∧
        t.rd64 Reg.FAB_FWLAST_ADDR = 0xF000000000 + a ∧
        t.rd Reg.FAB_FWLAST_INFO = 256 + clsBit .ap ∧
        Leaves dt (([Reg.FAB_FWLAST_INFO] ++ two Reg.FAB_FWREFUSED ++ two Reg.FAB_FWLAST_ADDR)) s t t) ∧
  (∀ (arrivals : List FabReq) (target : Nat) (w : FabWait), ((s.elapse dt).arrive arrivals).nextGrant target = some w →
      target ≠ State.courierQueue →
      w.cls ≤ 3 →
      (s.elapse dt).time.clock - w.req.accepted < 4294967296 →
      ∃ t, exec (.fabricGrant dt arrivals target) s = .next t ∧
        w.req.target = target ∧
        (((s.app.waits ++ arrivals.map fun r => ({ req := r, cls := s.fabClass r.src } : FabWait)).all fun x => x.req.target
          != target || decide (w.cls < x.cls) || (w.cls == x.cls && decide (w.req.accepted ≤ x.req.accepted))) = true) ∧
        Counted (Reg.FAB_GRANTS_C w.cls) 1 s t ∧
        t.rd Reg.FAB_MAXWAIT = max (s.rd Reg.FAB_MAXWAIT) ((s.elapse dt).time.clock - w.req.accepted) ∧
        t.app.granted = some w.req.id ∧
        (t.app.waits = (s.app.waits ++ arrivals.map fun r => ({ req := r, cls := s.fabClass r.src } : FabWait)).filter fun x
          => x.req.id != w.req.id) ∧
        Leaves dt (([Reg.FAB_MAXWAIT] ++ two (Reg.FAB_GRANTS_C w.cls))) s t
          { t with app := { t.app with waits := s.app.waits, granted := s.app.granted } }) ∧
  (∀ (arrivals : List FabReq) (target : Nat) (w : FabWait), ((s.elapse dt).arrive arrivals).nextGrant target = some w →
      target = State.courierQueue →
      ∃ t, exec (.fabricGrant dt arrivals target) s = .next t ∧
        (((s.app.waits ++ arrivals.map fun r => ({ req := r, cls := s.fabClass r.src } : FabWait)).all fun x => x.req.target
          != target || s.turnsBefore w x) = true) ∧
        t.app.granted = some w.req.id ∧
        (t.app.waits = (s.app.waits ++ arrivals.map fun r => ({ req := r, cls := s.fabClass r.src } : FabWait)).filter fun x
          => x.req.id != w.req.id) ∧
        t.app.turns = State.tookTurn s.app.turns w.req.src ∧
        Leaves dt [] s t
          { t with app := { t.app with waits := s.app.waits, granted := s.app.granted, turns := s.app.turns } }) ∧
  (∀ (id : Nat) (w : FabWait), w ∈ s.app.waits →
      w.req.id = id →
      w.cls = 3 →
      w.req.accepted + s.ageNs < (s.elapse dt).time.clock →
      ∃ t, exec (.fabricAgePromotion dt id) s = .next t ∧
        Counted Reg.FAB_PROMOTED 1 s t ∧
        (t.app.waits = s.app.waits.map fun x => if decide (x.req.id = id ∧ x.cls = 3 ∧ x.req.accepted + s.ageNs < (s.elapse
          dt).time.clock) then { x with cls := 2 } else x) ∧
        Leaves dt ((two Reg.FAB_PROMOTED)) s t { t with app := { t.app with waits := s.app.waits } }) ∧
  (∀ (id : Nat), ((s.app.waits.any fun x => decide (x.req.id = id ∧ x.cls = 3 ∧ x.req.accepted + s.ageNs < (s.elapse
    dt).time.clock)) = false) →
      ∃ t, exec (.fabricAgePromotion dt id) s = .next t ∧
        t.app.waits = s.app.waits ∧
        Leaves dt [] s t t)

/-- An enable starts the reads of all entries in DDR, which return what stands there then, and counts those outside; an
accepted doorbell puts the entry in place of an older one for its effect edge, a refused one is counted; a read that
ends well brings the bytes that DDR holds there, one with an error is counted and its entry reads as zero. An enable
with a size of 16 to 65,536 slots starts the ring at slot 0 with phase 1; a doorbell of an enabled ring sets its tail
and counts the slots posted; one that names no enabled ring or a slot beyond it is ignored and counted. Nothing else
changes. (R17, R32, R33, R34, R35, R36, R37, R38, R39, R41, R42, R580) -/
def Obligations.CataloguesAndRings : Prop := ∀ (s : State) (dt : Nat), s.wf = true →
  (∀ (req : Requester) (blk : CatBlk), Lets s req (catReg blk 0x2C) →
      s.sealedCfg = false →
      s.rd (catReg blk 0x2C) % 2 = 0 →
      s.heldDisabled (catIndex blk) 0 = false →
      s.catCount blk ≠ 0 →
      ∃ t, exec (.catalogueEnableWrite dt req blk) s = .next t ∧
        Answered t 0 0 ∧
        t.rd (catReg blk 0x2C) = 1 ∧
        (t.cat blk).enabling = some (s.elapse dt).effectSeq ∧
        (t.cat blk).toRead = (List.range (s.catCount blk)).filter (s.catInDdr blk) ∧
        (∀ i, i < s.catCount blk → s.catInDdr blk i = true → tget (t.cat blk).gotten i = s.catRead blk i) ∧
        (Counted (catReg blk 0x40) ((List.range (s.catCount blk)).filter fun i => !s.catInDdr blk i).length s t) ∧
        Leaves dt (([catReg blk 0x2C] ++ two (catReg blk 0x40))) s t { t with cats := s.cats }) ∧
  (∀ (req : Requester) (blk : CatBlk) (index : BitVec 16), s.fwWrite req.cls (doorbell (catIndex blk) 0) = true →
      s.unitTested (catIndex blk) 0 = false →
      StoresNow s req →
      (s.elapse dt).catRefuses req.cls blk index.toNat = false →
      s.catInDdr blk index.toNat = true →
      ∃ t, exec (.catalogueInvalidate dt req blk index) s = .next t ∧
        Answered t 0 0 ∧
        ((t.cat blk).staged = ((s.cat blk).staged.filter fun x => x.idx != index.toNat) ++ [⟨index.toNat, (s.elapse
          dt).effectSeq, none⟩]) ∧
        Leaves dt ((storeWords s)) s t { t with cats := s.cats, lpe := s.lpe, lpeUnits := s.lpeUnits }) ∧
  (∀ (req : Requester) (blk : CatBlk) (index : BitVec 16), s.fwWrite req.cls (doorbell (catIndex blk) 0) = true →
      s.unitTested (catIndex blk) 0 = false →
      StoresNow s req →
      s.catCount blk ≤ index.toNat →
      ∃ t, exec (.catalogueInvalidate dt req blk index) s = .next t ∧
        Answered t 0 0 ∧
        Counted (catReg blk 0x38) 1 s t ∧
        Leaves dt ((two (catReg blk 0x38) ++ storeWords s)) s t { t with lpe := s.lpe, lpeUnits := s.lpeUnits }) ∧
  (∀ (blk : CatBlk) (index : Nat) (x : CatStage), (s.cat blk).toRead.contains index = false →
      x ∈ (s.cat blk).staged →
      x.idx = index →
      x.data = none →
      s.readStatus .ok .d (s.catAddr blk index) (catBytes blk) = 0 →
      ∃ t, exec (.catalogueStagingReadDone dt blk index .ok) s = .next t ∧
        ((t.cat blk).staged = (s.cat blk).staged.map fun x => if x.idx = index then
          { x with data := some (s.catRead blk index) } else x) ∧
        Leaves dt [] s t { t with cats := s.cats }) ∧
  (∀ (blk : CatBlk) (index : Nat), (s.cat blk).toRead.contains index = true →
      s.readStatus .ecc .d (s.catAddr blk index) (catBytes blk) = 0x12 →
      ∃ t, exec (.catalogueStagingReadDone dt blk index .ecc) s = .next t ∧
        Counted (catReg blk 0x40) 1 s t ∧
        (t.cat blk).toRead = (s.cat blk).toRead.filter (· != index) ∧
        tget (t.cat blk).gotten index = [] ∧
        Counted Reg.APC_ECCUNCORR (b2n (s.lineBad (s.catAddr blk index) (catBytes blk))) s t ∧
        Leaves dt ((two (catReg blk 0x40) ++ two Reg.APC_ECCUNCORR)) s t { t with cats := s.cats }) ∧
  (∀ (req : Requester) (blk : RingBlk) (ring : Nat) (value : Word), ring < ringCount blk →
      Lets s req (ringRegs blk ring).ctl →
      value.toNat.testBit 31 = true →
      s.ringOn blk ring = false →
      s.heldDisabled (ringIndex blk) (State.ringUnit blk ring) = false →
      4 ≤ value.toNat % 32 →
      value.toNat % 32 ≤ 16 →
      ∃ t, exec (.ringEnableWrite dt req blk ring value) s = .next t ∧
        Answered t 0 0 ∧
        t.ringOn blk ring = true ∧
        t.ringSize blk ring = 2 ^ (value.toNat % 32) ∧
        t.ring blk ring = { head := 0, tail := 0, cidx := 0, cphase := true, pend := (s.ring blk ring).pend } ∧
        t.ringWaiting blk ring = 0 ∧
        (blk = .crr → t.getF (Fld.CRR_CHSTAT_STATE ring) = 1) ∧
        Leaves dt [(ringRegs blk ring).ctl, Reg.CRR_CHSTAT ring] s t { t with rings := s.rings }) ∧
  (∀ (req : Requester) (blk : RingBlk) (ring tail : BitVec 16), s.fwWrite req.cls (doorbell (ringIndex blk) 8) = true →
      s.unitTested (ringIndex blk) (State.ringUnit blk ring.toNat) = false →
      StoresNow s req →
      ring.toNat < ringCount blk →
      s.ringOn blk ring.toNat = true →
      tail.toNat < s.ringSize blk ring.toNat →
      serOfRing blk = none ∨ ring.toNat % 2 = 1 →
      ∃ t, exec (.ringProducer dt req blk ring tail) s = .next t ∧
        Answered t 0 0 ∧
        (t.ring blk ring.toNat).tail = tail.toNat ∧
        (t.ring blk ring.toNat).head = (s.ring blk ring.toNat).head ∧
        Counted (ringRegs blk ring.toNat).posted ((tail.toNat + s.ringSize blk ring.toNat - (s.ring blk ring.toNat).tail) %
          s.ringSize blk ring.toNat) s t ∧
        Leaves dt ((two (ringRegs blk ring.toNat).posted ++ storeWords s)) s t
          { t with rings := s.rings, lpe := s.lpe, lpeUnits := s.lpeUnits }) ∧
  (∀ (req : Requester) (blk : RingBlk) (ring tail : BitVec 16), s.fwWrite req.cls (doorbell (ringIndex blk) 8) = true →
      s.unitTested (ringIndex blk) (State.ringUnit blk ring.toNat) = false →
      StoresNow s req →
      ringCount blk ≤ ring.toNat ∨ s.ringOn blk ring.toNat = false ∨ s.ringSize blk ring.toNat ≤ tail.toNat →
      serOfRing blk = none ∨ ring.toNat % 2 = 1 →
      ∃ t, exec (.ringProducer dt req blk ring tail) s = .next t ∧
        Answered t 0 0 ∧
        Counted (Reg.SYS_DBERR (ringIndex blk)) 1 s t ∧
        Leaves dt ((two (Reg.SYS_DBERR (ringIndex blk)) ++ storeWords s)) s t
          { t with lpe := s.lpe, lpeUnits := s.lpeUnits })

/-- An enable loads the initial value of the configuration written; a restart loads it again; the end of a unit of data in
per-unit mode folds its bytes from the initial value, counts bytes and units and keeps the result; a disable leaves
the result as it is. Nothing else changes. (R419, R420, R421, R422, R426) -/
def Obligations.Loupe : Prop := ∀ (s : State) (dt : Nat), s.wf = true →
  (∀ (req : Requester) (u : Fin 8) (value : Word), Lets s req (Reg.LPE_CFG u.val) →
      tget s.lpe u.val = none →
      value.toNat.testBit 31 = true →
      s.heldDisabled 0x10 u.val = false →
      ∃ t, exec (.lpeEnable dt req u value) s = .next t ∧
        Answered t 0 0 ∧
        t.rd (Reg.LPE_CFG u.val) = value.toNat &&& 0xC7FF777F ∧
        tget t.lpe u.val = some (chkParam (value.toNat &&& 0xC7FF777F) (s.rd64 (Reg.LPE_POLY u.val)) (s.rd64 (Reg.LPE_INIT
          u.val))).init ∧
        t.rd64 (Reg.LPE_RES u.val) = chkResult (t.lpeParam u.val) (t.lpeParam u.val).init % 18446744073709551616 ∧
        Leaves dt (([Reg.LPE_CFG u.val] ++ two (Reg.LPE_RES u.val))) s t { t with lpe := s.lpe, lpeUnits := s.lpeUnits }) ∧
  (∀ (req : Requester) (mask : Word) (u : Fin 8), s.fwWrite req.cls (doorbell 0x10 0x10) = true →
      StoresNow s req →
      s.getF Fld.STE_STATUS_STATE = 0 →
      mask = 2 ^ u.val →
      (tget s.lpe u.val).isSome = true →
      ∃ t, exec (.lpeRestart dt req mask) s = .next t ∧
        Answered t 0 0 ∧
        tget t.lpe u.val = some (s.lpeParam u.val).init ∧
        t.rd64 (Reg.LPE_RES u.val) = chkResult (s.lpeParam u.val) (s.lpeParam u.val).init % 18446744073709551616 ∧
        Leaves dt ((two (Reg.LPE_RES u.val) ++ storeWords s)) s t { t with lpe := s.lpe, lpeUnits := s.lpeUnits }) ∧
  (∀ (u : Fin 8) (unit part : List Byte) (rest : List (List Byte)), (tget s.lpeUnits u.val).passed = unit :: rest →
      (tget s.lpe u.val).isSome = true →
      part = (if s.getF (Fld.LPE_SKIPSPAN_SPAN u.val) = 0 then unit.drop (s.getF (Fld.LPE_SKIPSPAN_SKIP u.val)) else
        (unit.drop (s.getF (Fld.LPE_SKIPSPAN_SKIP u.val))).take (s.getF (Fld.LPE_SKIPSPAN_SPAN u.val))) →
      ∃ t, exec (.lpeUnitEnd dt u unit) s = .next t ∧
        t.rd64 (Reg.LPE_RES u.val) = chkResult (s.lpeParam u.val) (chkFold (s.lpeParam u.val) (s.lpeParam u.val).init part) %
          18446744073709551616 ∧
        t.rd64 (Reg.LPE_LAST u.val) = t.rd64 (Reg.LPE_RES u.val) ∧
        Counted (Reg.LPE_BYTES u.val) part.length s t ∧
        Counted (Reg.LPE_UNITS u.val) 1 s t ∧
        (tget t.lpeUnits u.val).passed = rest ∧
        Leaves dt ((two (Reg.LPE_RES u.val) ++ two (Reg.LPE_LAST u.val) ++ two (Reg.LPE_BYTES u.val) ++ two (Reg.LPE_UNITS
          u.val))) s t { t with lpe := s.lpe, lpeUnits := s.lpeUnits }) ∧
  (∀ (req : Requester) (u : Fin 8), Lets s req (Reg.LPE_CFG u.val) →
      (tget s.lpe u.val).isSome = true →
      ∃ t, exec (.lpeDisable dt req u) s = .next t ∧
        Answered t 0 0 ∧
        tget t.lpe u.val = none ∧
        t.bit (Fld.LPE_CFG_EN u.val) = false ∧
        Leaves dt [Reg.LPE_CFG u.val] s t { t with lpe := s.lpe, lpeUnits := s.lpeUnits })

/-- The Archive takes the oldest occurrence of a port. A disabled collection refuses it and consumes a SEQ; a sealed one
holds it in a unit; otherwise it becomes a new record with the next SEQ and POS in an open unit that has room. Each
outcome is counted as offered, and in the count of the outcome. Nothing else changes. (R447, R449, R451, R453, R459,
R463, R468) -/
def Obligations.ArchiveOffers : Prop := ∀ (s : State) (dt : Nat), s.wf = true →
  (∀ (port : Fin 27) (o : Occurrence) (rest : List Occurrence), s.arc.carry = false →
      s.unitOff 0x12 0 = false →
      tget s.arc.ports port.val = o :: rest →
      o.coll < 64 →
      isReserve o.coll = false →
      s.getF (Fld.ARC_CCFG_EN o.coll) = 0 →
      ∃ t, exec (.arcOccurrence dt port) s = .next t ∧
        Counted (Reg.ARC_OFFERED o.coll) 1 s t ∧
        Counted (Reg.ARC_REFUSED o.coll) 1 s t ∧
        tget t.arc.seqs o.src = (tget s.arc.seqs o.src + 1) % 4294967296 ∧
        tget t.arc.ports port.val = rest ∧
        t.arc.units = s.arc.units ∧
        Leaves dt ((two (Reg.ARC_OFFERED o.coll) ++ two (Reg.ARC_REFUSED o.coll))) s t
          { t with arc := { t.arc with ports := s.arc.ports, seqs := s.arc.seqs } }) ∧
  (∀ (port : Fin 27) (o : Occurrence) (rest : List Occurrence) (u : ArcUnit), s.arc.carry = false →
      s.unitOff 0x12 0 = false →
      tget s.arc.ports port.val = o :: rest →
      o.coll < 64 →
      s.getF (Fld.ARC_CCFG_EN o.coll) = 1 →
      s.arcSealed o.coll = true →
      (s.arc.units.find? (fun u => u.holds && u.coll == o.coll && decide (u.used + arcSize o.payload.length ≤ 65536)) = some
        u) →
      ∃ t, exec (.arcOccurrence dt port) s = .next t ∧
        Counted (Reg.ARC_OFFERED o.coll) 1 s t ∧
        Counted (Reg.ARC_STAGED o.coll) 1 s t ∧
        t.arc.held = s.arc.held ++ [(u.id, o)] ∧
        t.arc.seqs = s.arc.seqs ∧
        tget t.arc.ports port.val = rest ∧
        (t.arc.units = s.arc.units.map fun x => if x.id = u.id then { x with used := x.used + arcSize o.payload.length } else
          x) ∧
        Leaves dt ((two (Reg.ARC_OFFERED o.coll) ++ two (Reg.ARC_STAGED o.coll))) s t
          { t with arc := { t.arc with ports := s.arc.ports, held := s.arc.held, units := s.arc.units } }) ∧
  (∀ (port : Fin 27) (o : Occurrence) (rest : List Occurrence) (u : ArcUnit), s.arc.carry = false →
      s.unitOff 0x12 0 = false →
      tget s.arc.ports port.val = o :: rest →
      o.coll < 64 →
      ((s.arc.releasing.all fun x => x.2.coll != o.coll) = true) →
      s.getF (Fld.ARC_CCFG_EN o.coll) = 1 →
      isReserve o.coll = false →
      s.arcSealed o.coll = false →
      tget s.arc.last o.src = none →
      s.getF (Fld.ARC_CSTAT_FULL o.coll) = 0 →
      arcSize o.payload.length ≤ s.arcRoom o.coll →
      ((s.arc.units.filter fun u => s.unitOpen u && u.coll == o.coll).find? (fun u => decide (u.used + arcSize
        o.payload.length ≤ 65536)) = some u) →
      s.rd64 (Reg.ARC_NEXTPOS o.coll) + 1 < 18446744073709551616 →
      ∃ t, exec (.arcOccurrence dt port) s = .next t ∧
        Counted (Reg.ARC_OFFERED o.coll) 1 s t ∧
        Counted (Reg.ARC_STAGED o.coll) 1 s t ∧
        t.rd64 (Reg.ARC_NEXTPOS o.coll) = s.rd64 (Reg.ARC_NEXTPOS o.coll) + 1 ∧
        tget t.arc.seqs o.src = (tget s.arc.seqs o.src + 1) % 4294967296 ∧
        (t.arc.units = s.arc.units.map fun x => if x.id = u.id then
          { x with recs := x.recs ++ [{ pos := s.rd64 (Reg.ARC_NEXTPOS o.coll), src := o.src, code := o.code, sev := o.sev, cont := false, rep := 0, seq := tget s.arc.seqs o.src, lastDt := 0, mt := o.mt, payload := o.payload }], used := x.used + arcSize o.payload.length, placed := x.placed + 1 }
          else x) ∧
        (((t.collRecs o.coll).all fun r => decide (t.rd64 (Reg.ARC_OLDEST o.coll) ≤ r.pos)) = true) ∧
        tget t.arc.ports port.val = rest ∧
        Leaves dt ((two (Reg.ARC_OFFERED o.coll) ++ two (Reg.ARC_STAGED o.coll) ++ two (Reg.ARC_NEXTPOS o.coll) ++ two
          (Reg.ARC_OLDEST o.coll))) s t
          { t with arc := { t.arc with ports := s.arc.ports, seqs := s.arc.seqs, last := s.arc.last, units := s.arc.units } })

/-- A descriptor that passes every check is offered; with the outcome "new record" its completion carries DONE, the SEQ
given, outcome 0 and reason 0 in the next completion slot with the phase, the ring moves on by one slot and the record
stands in its unit. Nothing else changes. The records of the collection from START_POS on that fit whole in the
buffer, oldest first, are written to it with their POS, and the completion carries their number and the POS to start
from next. Every byte outside the two places is as before. (R40, R41, R453, R454, R455, R465) -/
def Obligations.ArchiveRings : Prop := ∀ (s : State) (dt : Nat), s.wf = true →
  (∀ (q : Fin 8) (ended : ReadEnd) (o : Occurrence) (u : ArcUnit), s.arc.carry = false →
      s.unitOff 0x12 0 = false →
      s.ringOn .arc q.val = true →
      s.ringWaiting .arc q.val ≠ 0 →
      s.headRead .arc q.val = 0 →
      s.descCheck q.val (s.headDesc .arc q.val) ended = none →
      (s.elapse dt).descOcc (s.headDesc .arc q.val) = o →
      o.coll < 64 →
      ((s.arc.releasing.all fun x => x.2.coll != o.coll) = true) →
      s.getF (Fld.ARC_CCFG_EN o.coll) = 1 →
      isReserve o.coll = false →
      s.arcSealed o.coll = false →
      tget s.arc.last o.src = none →
      s.getF (Fld.ARC_CSTAT_FULL o.coll) = 0 →
      arcSize o.payload.length ≤ s.arcRoom o.coll →
      ((s.arc.units.filter fun u => s.unitOpen u && u.coll == o.coll).find? (fun u => decide (u.used + arcSize
        o.payload.length ≤ 65536)) = some u) →
      s.rd64 (Reg.ARC_NEXTPOS o.coll) + 1 < 18446744073709551616 →
      ((s.lpe.all fun x => decide (x.1 < 8)) = true) →
      regionOf (s.rd64 (ringRegs .arc q.val).cbase / 64 * 64 % 0x10000000000 + (s.ring .arc q.val).cidx * 16) = some .ddr →
      s.rangeCheck .d true (s.rd64 (ringRegs .arc q.val).cbase / 64 * 64 % 0x10000000000 + (s.ring .arc q.val).cidx * 16) 16
        = 0 →
      ∃ t, exec (.arcWriteDescriptor dt q ended) s = .next t ∧
        Counted (Reg.ARC_OFFERED o.coll) 1 s t ∧
        Counted (Reg.ARC_STAGED o.coll) 1 s t ∧
        tget t.arc.seqs o.src = (tget s.arc.seqs o.src + 1) % 4294967296 ∧
        (t.arc.units = s.arc.units.map fun x => if x.id = u.id then
          { x with recs := x.recs ++ [{ pos := s.rd64 (Reg.ARC_NEXTPOS o.coll), src := o.src, code := o.code, sev := o.sev, cont := false, rep := 0, seq := tget s.arc.seqs o.src, lastDt := 0, mt := o.mt, payload := o.payload }], used := x.used + arcSize o.payload.length, placed := x.placed + 1 }
          else x) ∧
        (∀ a, t.memGet a = (s.memPut (s.rd64 (ringRegs .arc q.val).cbase / 64 * 64 % 0x10000000000 + (s.ring .arc q.val).cidx
          * 16) ((leBytes 2 (s.ring .arc q.val).head ++ leBytes 1 0 ++ [BitVec.ofNat 8 (b2n (s.ring .arc q.val).cphase)] ++
          leBytes 4 (tget s.arc.seqs o.src) ++ [0, 0]) ++ List.replicate 6 0)).memGet a) ∧
        Counted (ringRegs .arc q.val).compl 1 s t ∧
        (t.ring .arc q.val).head = ((s.ring .arc q.val).head + 1) % s.ringSize .arc q.val ∧
        (t.ring .arc q.val).cidx = ((s.ring .arc q.val).cidx + 1) % s.ringSize .arc q.val ∧
        (t.ring .arc q.val).cphase = ((s.ring .arc q.val).cphase != decide (((s.ring .arc q.val).cidx + 1) % s.ringSize .arc
          q.val = 0)) ∧
        LeavesStore dt (two (Reg.ARC_OFFERED o.coll) ++ two (Reg.ARC_STAGED o.coll) ++ two (Reg.ARC_NEXTPOS o.coll) ++ two
          (Reg.ARC_OLDEST o.coll) ++ two (ringRegs .arc q.val).compl) s t
          { t with rings := s.rings, arc := { t.arc with seqs := s.arc.seqs, last := s.arc.last, units := s.arc.units } }) ∧
  (∀ (q : Fin 2) (buf len coll start next : Nat) (recs : List ArcRec) (bytes : List Byte), s.unitOff 0x12 0 = false →
      s.ringOn .arc (8 + q.val) = true →
      s.ringWaiting .arc (8 + q.val) ≠ 0 →
      s.headRead .arc (8 + q.val) = 0 →
      buf = leNat ((s.headDesc .arc (8 + q.val)).take 8) →
      len = leNat (((s.headDesc .arc (8 + q.val)).drop 8).take 4) →
      coll = leNat (((s.headDesc .arc (8 + q.val)).drop 12).take 1) →
      start = leNat (((s.headDesc .arc (8 + q.val)).drop 16).take 8) →
      coll ≤ 63 →
      4096 ≤ len →
      len ≤ 16777216 →
      s.rangeMapped .d true buf len = true →
      s.rangeStrict buf len = false →
      s.rangeCheck .d true buf len = 0 →
      (recs = State.fitRecs len ((s.collRecs coll).filter fun r => decide (start ≤ r.pos))) →
      (bytes = recs.flatMap fun r => leBytes 8 r.pos ++ recImage r) →
      s.rangeCheck .d true buf bytes.length = 0 →
      ((s.lpe.all fun x => decide (x.1 < 8)) = true) →
      regionOf buf = some .ddr →
      regionOf (s.rd64 (ringRegs .arc (8 + q.val)).cbase / 64 * 64 % 0x10000000000 + (s.ring .arc (8 + q.val)).cidx * 16) =
        some .ddr →
      s.rangeCheck .d true (s.rd64 (ringRegs .arc (8 + q.val)).cbase / 64 * 64 % 0x10000000000 + (s.ring .arc (8 +
        q.val)).cidx * 16) 16 = 0 →
      (next = (recs.getLast?.map fun r => r.pos + 1).getD start) →
      ∃ t, exec (.arcReadDescriptor dt q) s = .next t ∧
        (∀ a, t.memGet a = ((s.memPut buf bytes).memPut (s.rd64 (ringRegs .arc (8 + q.val)).cbase / 64 * 64 % 0x10000000000 +
          (s.ring .arc (8 + q.val)).cidx * 16) (leBytes 2 (s.ring .arc (8 + q.val)).head ++ leBytes 1 0 ++ [BitVec.ofNat 8
          (b2n (s.ring .arc (8 + q.val)).cphase)] ++ leBytes 4 recs.length ++ leBytes 8 next)).memGet a) ∧
        Counted (ringRegs .arc (8 + q.val)).compl 1 s t ∧
        (t.ring .arc (8 + q.val)).head = ((s.ring .arc (8 + q.val)).head + 1) % s.ringSize .arc (8 + q.val) ∧
        (t.ring .arc (8 + q.val)).cidx = ((s.ring .arc (8 + q.val)).cidx + 1) % s.ringSize .arc (8 + q.val) ∧
        (t.ring .arc (8 + q.val)).cphase = ((s.ring .arc (8 + q.val)).cphase != decide (((s.ring .arc (8 + q.val)).cidx + 1)
          % s.ringSize .arc (8 + q.val) = 0)) ∧
        LeavesStore dt (two (ringRegs .arc (8 + q.val)).compl) s t { t with rings := s.rings })

/-- Once what a reset left in staging is carried over, a unit open for ARC_COMMITAGE seconds joins the order of commits;
the first due unit starts its commit, one at a time and not after NV_STOP; a commit that is done stores the records of
the unit, counts them as recorded and no longer as staged, and frees the unit; what staging carried through a reset is
committed first and announced. Nothing else changes. (R459, R462, R468) -/
def Obligations.ArchiveCommit : Prop := ∀ (s : State) (dt : Nat), s.wf = true →
  (∀ (unit : Nat) (u : ArcUnit), s.arc.carry = false →
      (s.arc.units.find? (fun x => x.id == unit) = some u) →
      s.unitOpen u = true →
      u.since + max 1 (min 3600 (s.getF Fld.ARC_COMMITAGE_SEC)) * 1000000000 ≤ (s.elapse dt).time.clock →
      ∃ t, exec (.arcCommitAgeExpiry dt unit) s = .next t ∧
        t.arc.dueOrder = s.arc.dueOrder ++ [unit] ∧
        Leaves dt [] s t { t with arc := { t.arc with dueOrder := s.arc.dueOrder } }) ∧
  (∀ (id : Nat) (rest : List Nat), s.arc.carry = false →
      s.arc.committing = none →
      s.bit Fld.ARC_STATUS_NVSTOP = false →
      s.unitOff 0x12 0 = false →
      s.arc.dueOrder = id :: rest →
      ∃ t, exec (.arcUnitCommit dt) s = .next t ∧
        t.arc.committing = some id ∧
        t.arc.dueOrder = rest ∧
        t.bit Fld.ARC_STATUS_COMMITTING = true ∧
        Leaves dt [Reg.ARC_STATUS] s t { t with arc := { t.arc with dueOrder := s.arc.dueOrder, committing := none } }) ∧
  (∀ (id : Nat) (u : ArcUnit), s.arc.carry = false →
      s.arc.releasing = [] →
      s.arc.committing = some id →
      (s.arc.units.find? (fun x => x.id == id) = some u) →
      u.coll < 64 →
      s.bit Fld.ARC_STATUS_NVSTOP = false ∨ (s.elapse dt).pageDone = true →
      u.placed ≤ s.rd64 (Reg.ARC_STAGED u.coll) →
      ∃ t, exec (.arcCommitDone dt) s = .next t ∧
        Counted (Reg.ARC_RECORDED u.coll) u.placed s t ∧
        t.rd64 (Reg.ARC_STAGED u.coll) = s.rd64 (Reg.ARC_STAGED u.coll) - u.placed ∧
        t.getF (Fld.ARC_CSTAT_UNITS u.coll) = (s.getF (Fld.ARC_CSTAT_UNITS u.coll) + 1) % 16384 ∧
        tget t.arc.store u.coll = tget s.arc.store u.coll ++ u.recs ∧
        (t.arc.units = s.arc.units.filter fun x => x.id != u.id) ∧
        (t.arc.committing = (if u.id = id then none else some id)) ∧
        t.bit Fld.ARC_STATUS_COMMITTING = false ∧
        Leaves dt (([Reg.ARC_STATUS, Reg.ARC_CSTAT u.coll] ++ two (Reg.ARC_RECORDED u.coll) ++ two (Reg.ARC_STAGED u.coll)))
          s t
          { t with arc := { t.arc with units := s.arc.units, dueOrder := s.arc.dueOrder, committing := some id, store := s.arc.store } })
          ∧
  (∀ (u : ArcUnit), s.arc.carry = true →
      s.arc.releasing = [] →
      s.bit Fld.ARC_STATUS_NVSTOP = false →
      s.unitOff 0x12 0 = false →
      s.arc.units = [u] →
      u.holds = false →
      u.coll < 64 →
      s.arc.held = [] →
      PortRoom s 0x12 →
      ∃ t, exec (.arcStartCarry dt) s = .next t ∧
        t.arc.carry = false ∧
        Counted (Reg.ARC_CARRIED u.coll) u.recs.length s t ∧
        tget t.arc.store u.coll = tget s.arc.store u.coll ++ u.recs ∧
        t.getF (Fld.ARC_CSTAT_UNITS u.coll) = (s.getF (Fld.ARC_CSTAT_UNITS u.coll) + 1) % 16384 ∧
        t.arc.units = [] ∧
        t.getF Fld.ARC_STATUS_FREEUNITS = 16 ∧
        Offered 0x12 0x1104 2 60 (p4 [1]) s t ∧
        Leaves dt (([Reg.ARC_STATUS, Reg.ARC_CSTAT u.coll] ++ two (Reg.ARC_CARRIED u.coll))) s t
          { t with arc := { t.arc with carry := true, ports := s.arc.ports, units := s.arc.units, dueOrder := s.arc.dueOrder, committing := s.arc.committing, store := s.arc.store } })

/-- A seal marks the collection in ARC_SEAL and ARC_CSTAT and keeps its next POS; an unseal, or ARC_SEALLIM seconds with
event SEAL_EXPIRED, ends it; an erase with the key empties an ordinary collection, moves its oldest POS to the next
one, and leaves an event and a Provenance record. Nothing else changes. (R463, R464, R467, R537) -/
def Obligations.ArchiveSeals : Prop := ∀ (s : State) (dt : Nat), s.wf = true →
  (∀ (req : Requester) (mask : BitVec 64) (k : Fin 64), Lets s req Reg.ARC_SEAL →
      mask.toNat = 2 ^ k.val →
      s.arcSealed k.val = false →
      ∃ t, exec (.arcSealWrite dt req mask) s = .next t ∧
        Answered t 0 0 ∧
        t.arcSealed k.val = true ∧
        Counted Reg.ARC_SEAL (2 ^ k.val) s t ∧
        t.rd64 (Reg.ARC_SEALPOS k.val) = s.rd64 (Reg.ARC_NEXTPOS k.val) ∧
        tget t.arc.sealAt k.val = (s.elapse dt).time.mono ∧
        Leaves dt (([Reg.ARC_CSTAT k.val] ++ two Reg.ARC_SEAL ++ two (Reg.ARC_SEALPOS k.val))) s t
          { t with arc := { t.arc with sealAt := s.arc.sealAt } }) ∧
  (∀ (req : Requester) (mask : BitVec 64) (k : Fin 64), Lets s req Reg.ARC_UNSEAL →
      mask.toNat = 2 ^ k.val →
      s.arc.releasing = [] →
      s.arcSealed k.val = true →
      2 ^ k.val ≤ s.rd64 Reg.ARC_SEAL →
      ((s.arc.held.all fun x => x.2.coll != k.val) = true) →
      ∃ t, exec (.arcUnsealWrite dt req mask) s = .next t ∧
        Answered t 0 0 ∧
        t.arcSealed k.val = false ∧
        t.rd64 Reg.ARC_SEAL = s.rd64 Reg.ARC_SEAL - 2 ^ k.val ∧
        t.arc.held = s.arc.held ∧
        t.arc.units = s.arc.units ∧
        Leaves dt (([Reg.ARC_CSTAT k.val, Reg.ARC_STATUS] ++ two Reg.ARC_SEAL)) s t
          { t with arc := { t.arc with sealAt := s.arc.sealAt } }) ∧
  (∀ (req : Requester) (mask : BitVec 64) (k : Fin 64) (id : Nat) (o : Occurrence), Lets s req Reg.ARC_UNSEAL →
      mask.toNat = 2 ^ k.val →
      s.arc.carry = false →
      s.arc.releasing = [] →
      s.arcSealed k.val = true →
      2 ^ k.val ≤ s.rd64 Reg.ARC_SEAL →
      s.arc.held = [(id, o)] →
      o.coll = k.val →
      tget s.arc.last o.src = none →
      s.getF (Fld.ARC_CSTAT_FULL k.val) = 0 →
      isReserve k.val = false →
      1 ≤ s.rd64 (Reg.ARC_STAGED k.val) →
      s.arc.units = [⟨id, k.val, 0, true, [], arcSize o.payload.length, 0⟩] →
      s.arc.dueOrder = [] →
      arcSize o.payload.length ≤ s.arcRoom k.val →
      ∃ t, exec (.arcUnsealWrite dt req mask) s = .next t ∧
        Answered t 0 0 ∧
        t.arcSealed k.val = false ∧
        t.arc.held = [] ∧
        t.rd64 (Reg.ARC_STAGED k.val) = s.rd64 (Reg.ARC_STAGED k.val) ∧
        Counted (Reg.ARC_NEXTPOS k.val) 1 s t ∧
        tget t.arc.seqs o.src = (tget s.arc.seqs o.src + 1) % 4294967296 ∧
        (t.collRecs k.val).getLast? = some
          { pos := s.rd64 (Reg.ARC_NEXTPOS k.val), src := o.src, code := o.code, sev := o.sev, cont := false, rep := 0, seq := tget s.arc.seqs o.src, lastDt := 0, mt := o.mt, payload := o.payload }
          ∧
        Leaves dt (([Reg.ARC_CSTAT k.val, Reg.ARC_STATUS] ++ two Reg.ARC_SEAL ++ two (Reg.ARC_NEXTPOS k.val) ++ two
          (Reg.ARC_OLDEST k.val) ++ two (Reg.ARC_STAGED k.val))) s t
          { t with arc := { t.arc with sealAt := s.arc.sealAt, held := s.arc.held, units := s.arc.units, nextUnit := s.arc.nextUnit, seqs := s.arc.seqs, last := s.arc.last } })
          ∧
  (∀ (k : Fin 64), s.arc.releasing = [] →
      s.arcSealed k.val = true →
      2 ^ k.val ≤ s.rd64 Reg.ARC_SEAL →
      ((s.arc.held.all fun x => x.2.coll != k.val) = true) →
      tget s.arc.sealAt k.val + max 1 (min 60 (s.getF Fld.ARC_SEALLIM_SEC)) * 1000000000 ≤ (s.elapse dt).time.mono →
      PortRoom s 0x12 →
      ∃ t, exec (.arcSealExpired dt k) s = .next t ∧
        t.arcSealed k.val = false ∧
        t.rd64 Reg.ARC_SEAL = s.rd64 Reg.ARC_SEAL - 2 ^ k.val ∧
        t.arc.held = s.arc.held ∧
        t.arc.units = s.arc.units ∧
        Offered 0x12 0x1102 3 60 (p4 [k.val]) s t ∧
        Leaves dt (([Reg.ARC_CSTAT k.val, Reg.ARC_STATUS] ++ two Reg.ARC_SEAL)) s t
          { t with arc := { t.arc with sealAt := s.arc.sealAt, ports := s.arc.ports } }) ∧
  (∀ (req : Requester) (k : Fin 64), Lets s req Reg.ARC_ERASE →
      isReserve k.val = false →
      s.arcSealed k.val = false →
      s.getF Fld.LCS_STATE_STATE ≠ 4 →
      PortRoom s 0x12 →
      s.prv.port.length < 64 →
      ∃ t, exec (.arcEraseWrite dt req 0xE5 k) s = .next t ∧
        Answered t 0 0 ∧
        tget t.arc.store k.val = [] ∧
        ((t.arc.last.all fun x => x.2.all fun l => l.coll != k.val) = true) ∧
        t.stagedRecs k.val = [] ∧
        t.getF (Fld.ARC_CSTAT_UNITS k.val) = 0 ∧
        t.getF (Fld.ARC_CSTAT_FULL k.val) = 0 ∧
        t.rd64 (Reg.ARC_OLDEST k.val) = s.rd64 (Reg.ARC_NEXTPOS k.val) ∧
        Offered 0x12 0x1103 2 60 (p4 [k.val] ++ p8 [s.rd64 (Reg.ARC_OLDEST k.val), s.rd64 (Reg.ARC_NEXTPOS k.val) - 1]) s t ∧
        Counted Reg.PRV_OFFERED 1 s t ∧
        ((t.prv.port.getLast?.map fun r => r.kind) = some 12) ∧
        Leaves dt (([Reg.ARC_CSTAT k.val] ++ two (Reg.ARC_OLDEST k.val) ++ two Reg.PRV_OFFERED)) s t
          { t with freeCtr := s.freeCtr, prv := { t.prv with port := s.prv.port }, arc := { t.arc with store := s.arc.store, freed := s.arc.freed, last := s.arc.last, units := s.arc.units, ports := s.arc.ports } })

/-- A well-formed record of a posting ring is staged with the next SEQ, the flags of its ring, the life-cycle state and,
where it gives no time, MT; its completion carries the SEQ. A module record joins the port queue and is taken from
there with flag 2. A commit moves the first 512 staged records into the region. The window shows the 128 bytes of the
record that was asked for. Nothing else changes. (R537, R538, R539, R540, R541, R542) -/
def Obligations.Provenance : Prop := ∀ (s : State) (dt : Nat), s.wf = true →
  (∀ (q : Fin 2) (r : PrvRec), s.prv.staged.length < 4096 →
      s.unitOff 0x17 0 = false →
      s.ringOn .prv q.val = true →
      s.ringWaiting .prv q.val ≠ 0 →
      s.headRead .prv q.val = 0 →
      prvDecode (s.headDesc .prv q.val) = r →
      postKinds.contains r.kind = true →
      r.reservedOk = true →
      s.rd64 Reg.PRV_NEXTSEQ + 1 < 18446744073709551616 →
      ((s.lpe.all fun x => decide (x.1 < 8)) = true) →
      regionOf (s.rd64 (ringRegs .prv q.val).cbase / 64 * 64 % 0x10000000000 + (s.ring .prv q.val).cidx * 16) = some .ddr →
      s.rangeCheck .d true (s.rd64 (ringRegs .prv q.val).cbase / 64 * 64 % 0x10000000000 + (s.ring .prv q.val).cidx * 16) 16
        = 0 →
      ∃ t, exec (.prvRecordPost dt (.ring q)) s = .next t ∧
        (t.prv.staged = s.prv.staged ++
          [{ seq := s.rd64 Reg.PRV_NEXTSEQ, flags := q.val, lcState := s.getF Fld.LCS_STATE_STATE, takenAt := (s.elapse dt).time.clock, body := { r with mt := if r.mt = 0 then (s.elapse dt).time.mt else r.mt } }])
          ∧
        t.rd64 Reg.PRV_NEXTSEQ = s.rd64 Reg.PRV_NEXTSEQ + 1 ∧
        Counted Reg.PRV_OFFERED 1 s t ∧
        Counted Reg.PRV_RECORDS 1 s t ∧
        t.getF Fld.PRV_STATUS_FREE = 4096 - t.prv.staged.length ∧
        (∀ a, t.memGet a = (s.memPut (s.rd64 (ringRegs .prv q.val).cbase / 64 * 64 % 0x10000000000 + (s.ring .prv q.val).cidx
          * 16) ((leBytes 2 (s.ring .prv q.val).head ++ leBytes 1 0 ++ [BitVec.ofNat 8 (b2n (s.ring .prv q.val).cphase)] ++
          leBytes 8 (s.rd64 Reg.PRV_NEXTSEQ)) ++ List.replicate 4 0)).memGet a) ∧
        Counted (ringRegs .prv q.val).compl 1 s t ∧
        (t.ring .prv q.val).head = ((s.ring .prv q.val).head + 1) % s.ringSize .prv q.val ∧
        (t.ring .prv q.val).cidx = ((s.ring .prv q.val).cidx + 1) % s.ringSize .prv q.val ∧
        (t.ring .prv q.val).cphase = ((s.ring .prv q.val).cphase != decide (((s.ring .prv q.val).cidx + 1) % s.ringSize .prv
          q.val = 0)) ∧
        (LeavesStore dt ([Reg.PRV_STATUS] ++ (List.range 32).map (fun i => Reg.PRV_RDWIN + 4 * i) ++ two Reg.PRV_OLDEST ++
          two Reg.PRV_NEXTSEQ ++ two Reg.PRV_OFFERED ++ two Reg.PRV_RECORDS ++ two (ringRegs .prv q.val).compl) s t
          { t with rings := s.rings, prv := { t.prv with staged := s.prv.staged } })) ∧
  (∀ (r : PrvRec) (rest : List PrvRec), s.prv.staged.length < 4096 →
      s.unitOff 0x17 0 = false →
      s.prv.port = r :: rest →
      s.rd64 Reg.PRV_NEXTSEQ + 1 < 18446744073709551616 →
      ∃ t, exec (.prvRecordPost dt .port) s = .next t ∧
        t.prv.port = rest ∧
        (t.prv.staged = s.prv.staged ++
          [{ seq := s.rd64 Reg.PRV_NEXTSEQ, flags := 2, lcState := s.getF Fld.LCS_STATE_STATE, takenAt := (s.elapse dt).time.clock, body := { r with mt := if r.mt = 0 then (s.elapse dt).time.mt else r.mt } }])
          ∧
        t.rd64 Reg.PRV_NEXTSEQ = s.rd64 Reg.PRV_NEXTSEQ + 1 ∧
        Counted Reg.PRV_RECORDS 1 s t ∧
        (Leaves dt (([Reg.PRV_STATUS] ++ (List.range 32).map (fun i => Reg.PRV_RDWIN + 4 * i) ++ two Reg.PRV_OLDEST ++ two
          Reg.PRV_NEXTSEQ ++ two Reg.PRV_RECORDS)) s t
          { t with prv := { t.prv with staged := s.prv.staged, port := s.prv.port } })) ∧
  (∀ (r : PrvRec), s.prv.port.length < 64 →
      ∃ t, exec (.prvModuleRecord dt r) s = .next t ∧
        t.prv.port = s.prv.port ++ [{ r with port := 0xFE }] ∧
        Counted Reg.PRV_OFFERED 1 s t ∧
        Leaves dt ((two Reg.PRV_OFFERED)) s t { t with prv := { t.prv with port := s.prv.port } }) ∧
  (∀ (r : PrvRec), 64 ≤ s.prv.port.length →
      ∃ t, exec (.prvModuleRecord dt r) s = .next t ∧
        t.prv.port = s.prv.port ∧
        Counted Reg.PRV_OFFERED 1 s t ∧
        Counted Reg.PRV_LOST 1 s t ∧
        Leaves dt ((two Reg.PRV_OFFERED ++ two Reg.PRV_LOST)) s t t) ∧
  (s.bit Fld.PRV_STATUS_NVSTOP = false →
      s.unitOff 0x17 0 = false →
      (s.elapse dt).prvUnitDue = true →
      s.prv.stored.length + s.prv.staged.length ≤ 2097152 →
      ∃ t, exec (.prvCommit dt) s = .next t ∧
        t.prv.stored = s.prv.stored ++ s.prv.staged.take 512 ∧
        t.prv.staged = s.prv.staged.drop 512 ∧
        t.getF Fld.PRV_STATUS_FREE = 4096 - t.prv.staged.length ∧
        (Leaves dt (([Reg.PRV_STATUS] ++ (List.range 32).map (fun i => Reg.PRV_RDWIN + 4 * i) ++ two Reg.PRV_OLDEST)) s t
          { t with prv := { t.prv with staged := s.prv.staged, stored := s.prv.stored } })) ∧
  (∀ (req : Requester) (seq : BitVec 64) (x : PrvStored), Lets s req Reg.PRV_RDSEQ →
      ((s.prv.stored ++ s.prv.staged).find? (fun r => r.seq == seq.toNat) = some x) →
      ∃ t, exec (.prvRdseqWrite dt req seq) s = .next t ∧
        Answered t 0 0 ∧
        t.rd64 Reg.PRV_RDSEQ = seq.toNat ∧
        (∀ i, i < 32 → t.rd (Reg.PRV_RDWIN + 4 * i) = leNat (((prvImage x).drop (4 * i)).take 4)) ∧
        (Leaves dt ((two Reg.PRV_RDSEQ ++ (List.range 32).map fun i => Reg.PRV_RDWIN + 4 * i)) s t t))

/-- An enabled idle channel with a posted slot takes it and is busy; the descriptor of the slot, or the one that it links
to and that can be read, passes to the move once every check of R406 passes, with the direction shown. The bytes of
the source reach the destination, the write-back shows the status, the flags and the bytes moved, the completion of
the chain shows the first error, its SEQ and the number of descriptors, and the channel is idle again; an error ends
the move with the bytes written so far; a disable of an idle channel clears its enable. Every other byte of memory is
as before. (R402, R406, R413, R416, R403, R404, R408, R410, R412) -/
def Obligations.CourierTransfers : Prop := ∀ (s : State) (dt : Nat), s.wf = true →
  (∀ (c : Fin 16), s.ringOn .crr c.val = true →
      s.chain c.val = none →
      s.ringWaiting .crr c.val ≠ 0 →
      s.unitOff 0x0F c.val = false →
      ∃ t, exec (.crrChainStart dt c) s = .next t ∧
        t.chain c.val = some
          { slot := (s.ring .crr c.val).head, addr := s.headAddr .crr c.val, desc := s.headDesc .crr c.val, stage := .fetch, taken := 1, cfg := s.rd (Reg.CRR_CHKCFG c.val), poly := s.rd64 (Reg.CRR_CHKPOLY c.val), init := s.rd64 (Reg.CRR_CHKINIT c.val) }
          ∧
        (t.ring .crr c.val).head = ((s.ring .crr c.val).head + 1) % s.ringSize .crr c.val ∧
        Counted (Reg.CRR_DESCS c.val) 1 s t ∧
        (t.getF Fld.CRR_BUSY_CH).testBit c.val = true ∧
        t.getF (Fld.CRR_CHSTAT_STATE c.val) = 2 ∧
        Leaves dt (([Reg.CRR_BUSY, Reg.CRR_CHSTAT c.val] ++ two (Reg.CRR_DESCS c.val))) s t
          { t with rings := s.rings, crr := { t.crr with chain := s.crr.chain } }) ∧
  (∀ (c : Fin 16) (ended : ReadEnd) (x : CrrChain), s.chain c.val = some x →
      x.stage = .fetch →
      x.desc ≠ [] →
      s.readStatus ended .c x.addr 64 = 0 →
      s.crrCheck x.desc = 0 →
      regionOf (crrSrc x.desc) = some .ddr →
      ((crrChk x.desc && crrCmp x.desc) = true → regionOf (crrWord x.desc) = some .ddr) →
      ∃ t, exec (.crrDescriptorTaken dt c ended) s = .next t ∧
        t.chain c.val = some { x with stage := .move, movedAt := (s.elapse dt).time.clock } ∧
        t.bit (Fld.CRR_CHSTAT_DESC c.val) = crrDown x.desc ∧
        t.bit (Fld.CRR_CHSTAT_TWOPASS c.val) = (crrDown x.desc && crrChk x.desc) ∧
        Leaves dt [Reg.CRR_CHSTAT c.val] s t { t with crr := { t.crr with chain := s.crr.chain } }) ∧
  (∀ (c : Fin 16) (ended : ReadEnd) (x : CrrChain) (d : List Byte), s.chain c.val = some x →
      x.stage = .fetch →
      x.desc = [] →
      s.readStatus ended .c x.addr 64 = 0 →
      x.addr + 64 ≤ 0x400000000 →
      d = s.memRead x.addr 64 →
      s.crrCheck d = 0 →
      regionOf (crrSrc d) = some .ddr →
      ((crrChk d && crrCmp d) = true → regionOf (crrWord d) = some .ddr) →
      ∃ t, exec (.crrDescriptorTaken dt c ended) s = .next t ∧
        t.chain c.val = some { x with desc := d, taken := x.taken + 1, stage := .move, movedAt := (s.elapse dt).time.clock }
          ∧
        Counted (Reg.CRR_DESCS c.val) 1 s t ∧
        t.bit (Fld.CRR_CHSTAT_DESC c.val) = crrDown d ∧
        t.bit (Fld.CRR_CHSTAT_TWOPASS c.val) = (crrDown d && crrChk d) ∧
        Leaves dt (([Reg.CRR_CHSTAT c.val] ++ two (Reg.CRR_DESCS c.val))) s t
          { t with crr := { t.crr with chain := s.crr.chain } }) ∧
  (∀ (c : Fin 16) (far : List Byte) (farWord : Nat) (x : CrrChain), s.chain c.val = some x →
      Machine.ent x.desc 0 8 = 0 →
      crrIrq x.desc = false →
      x.irq = false →
      s.bit (Fld.CRR_RCTL_POPMODE c.val) = false →
      ((s.lpe.all fun x => decide (x.1 < 8)) = true) →
      regionOf (x.addr + 56) = some .ddr →
      s.rangeCheck .c true (x.addr + 56) 8 = 0 →
      regionOf (s.rd64 (ringRegs .crr c.val).cbase / 64 * 64 % 0x10000000000 + (s.ring .crr c.val).cidx * 16) = some .ddr →
      s.rangeCheck .c true (s.rd64 (ringRegs .crr c.val).cbase / 64 * 64 % 0x10000000000 + (s.ring .crr c.val).cidx * 16) 16
        = 0 →
      x.stage = .move →
      crrChk x.desc = false →
      crrRdbk x.desc = false →
      x.status = 0 →
      crrNoCopy x.desc = false →
      crrDown x.desc = false →
      regionOf (crrSrc x.desc + crrLen x.desc) = some .ddr →
      regionOf (crrDst x.desc) = some .ddr →
      ∃ t, exec (.crrDescriptorDone dt c far farWord) s = .next t ∧
        (∀ a, t.memGet a = (((s.memPut (crrDst x.desc) (s.memRead (crrSrc x.desc) (crrLen x.desc))).memPut (x.addr + 56)
          (leBytes 1 0 ++ leBytes 1 1 ++ [0, 0] ++ leBytes 4 (crrLen x.desc))).memPut (s.rd64 (ringRegs .crr c.val).cbase /
          64 * 64 % 0x10000000000 + (s.ring .crr c.val).cidx * 16) (leBytes 2 x.slot ++ leBytes 1 0 ++ [BitVec.ofNat 8 (b2n
          (s.ring .crr c.val).cphase)] ++ leBytes 4 (s.rd64 (Reg.CRR_RCOMPL c.val) % 4294967296) ++ leBytes 4 x.taken ++
          leBytes 4 0)).memGet a) ∧
        t.chain c.val = none ∧
        (t.getF Fld.CRR_BUSY_CH).testBit c.val = false ∧
        t.getF (Fld.CRR_CHSTAT_STATE c.val) = b2n (s.ringOn .crr c.val) ∧
        Counted (Reg.CRR_WBS c.val) 1 s t ∧
        Counted (Reg.CRR_RCOMPL c.val) 1 s t ∧
        (t.ring .crr c.val).cidx = ((s.ring .crr c.val).cidx + 1) % s.ringSize .crr c.val ∧
        LeavesStore dt ([Reg.CRR_BUSY, Reg.CRR_CHSTAT c.val] ++ two (Reg.CRR_WBS c.val) ++ two (Reg.CRR_RCOMPL c.val)) s t
          { t with rings := s.rings, crr := { t.crr with chain := s.crr.chain } }) ∧
  (∀ (c : Fin 16) (bytesMoved : Nat) (far : List Byte) (x : CrrChain), s.chain c.val = some x →
      Machine.ent x.desc 0 8 = 0 →
      crrIrq x.desc = false →
      x.irq = false →
      s.bit (Fld.CRR_RCTL_POPMODE c.val) = false →
      ((s.lpe.all fun x => decide (x.1 < 8)) = true) →
      regionOf (x.addr + 56) = some .ddr →
      s.rangeCheck .c true (x.addr + 56) 8 = 0 →
      regionOf (s.rd64 (ringRegs .crr c.val).cbase / 64 * 64 % 0x10000000000 + (s.ring .crr c.val).cidx * 16) = some .ddr →
      s.rangeCheck .c true (s.rd64 (ringRegs .crr c.val).cbase / 64 * 64 % 0x10000000000 + (s.ring .crr c.val).cidx * 16) 16
        = 0 →
      x.stage = .move →
      x.status = 0 →
      s.bit (Fld.CRR_CFG_ERRIRQ c.val) = false →
      s.lineBad (crrSrc x.desc) (crrLen x.desc) = false →
      crrNoCopy x.desc = false →
      crrDown x.desc = false →
      regionOf (crrSrc x.desc + crrLen x.desc) = some .ddr →
      regionOf (crrDst x.desc) = some .ddr →
      ∃ t, exec (.crrMoveError dt c .ecc bytesMoved far) s = .next t ∧
        (∀ a, t.memGet a = (((s.memPut (crrDst x.desc) ((s.memRead (crrSrc x.desc) (crrLen x.desc)).take bytesMoved)).memPut
          (x.addr + 56) (leBytes 1 0x12 ++ leBytes 1 1 ++ [0, 0] ++ leBytes 4 (min bytesMoved (crrLen x.desc)))).memPut
          (s.rd64 (ringRegs .crr c.val).cbase / 64 * 64 % 0x10000000000 + (s.ring .crr c.val).cidx * 16) (leBytes 2 x.slot ++
          leBytes 1 0x12 ++ [BitVec.ofNat 8 (b2n (s.ring .crr c.val).cphase)] ++ leBytes 4 (s.rd64 (Reg.CRR_RCOMPL c.val) %
          4294967296) ++ leBytes 4 x.taken ++ leBytes 4 0)).memGet a) ∧
        Counted (Reg.CRR_ERRS c.val) 1 s t ∧
        t.chain c.val = none ∧
        (t.getF Fld.CRR_BUSY_CH).testBit c.val = false ∧
        t.getF (Fld.CRR_CHSTAT_STATE c.val) = b2n (s.ringOn .crr c.val) ∧
        Counted (Reg.CRR_WBS c.val) 1 s t ∧
        Counted (Reg.CRR_RCOMPL c.val) 1 s t ∧
        (t.ring .crr c.val).cidx = ((s.ring .crr c.val).cidx + 1) % s.ringSize .crr c.val ∧
        LeavesStore dt (two (Reg.CRR_ERRS c.val) ++ [Reg.CRR_BUSY, Reg.CRR_CHSTAT c.val] ++ two (Reg.CRR_WBS c.val) ++ two
          (Reg.CRR_RCOMPL c.val)) s t { t with rings := s.rings, crr := { t.crr with chain := s.crr.chain } }) ∧
  (∀ (c : Fin 16) (equal : Bool) (x : CrrChain), s.chain c.val = some x →
      Machine.ent x.desc 0 8 = 0 →
      crrIrq x.desc = false →
      x.irq = false →
      s.bit (Fld.CRR_RCTL_POPMODE c.val) = false →
      ((s.lpe.all fun x => decide (x.1 < 8)) = true) →
      regionOf (x.addr + 56) = some .ddr →
      s.rangeCheck .c true (x.addr + 56) 8 = 0 →
      regionOf (s.rd64 (ringRegs .crr c.val).cbase / 64 * 64 % 0x10000000000 + (s.ring .crr c.val).cidx * 16) = some .ddr →
      s.rangeCheck .c true (s.rd64 (ringRegs .crr c.val).cbase / 64 * 64 % 0x10000000000 + (s.ring .crr c.val).cidx * 16) 16
        = 0 →
      x.stage = .readback →
      ((x.expect.all fun w => decide (s.busRead w.1 w.2.length = w.2) && decide (w.1 < 0x400000000)) = true) →
      x.status = 0 →
      x.result = 0 →
      ∃ t, exec (.crrReadbackDone dt c equal) s = .next t ∧
        (∀ a, t.memGet a = ((s.memPut (x.addr + 56) (leBytes 1 0 ++ leBytes 1 (x.flags + 8) ++ [0, 0] ++ leBytes 4 (crrLen
          x.desc))).memPut (s.rd64 (ringRegs .crr c.val).cbase / 64 * 64 % 0x10000000000 + (s.ring .crr c.val).cidx * 16)
          (leBytes 2 x.slot ++ leBytes 1 0 ++ [BitVec.ofNat 8 (b2n (s.ring .crr c.val).cphase)] ++ leBytes 4 (s.rd64
          (Reg.CRR_RCOMPL c.val) % 4294967296) ++ leBytes 4 x.taken ++ leBytes 4 0)).memGet a) ∧
        t.chain c.val = none ∧
        (t.getF Fld.CRR_BUSY_CH).testBit c.val = false ∧
        t.getF (Fld.CRR_CHSTAT_STATE c.val) = b2n (s.ringOn .crr c.val) ∧
        Counted (Reg.CRR_WBS c.val) 1 s t ∧
        Counted (Reg.CRR_RCOMPL c.val) 1 s t ∧
        (t.ring .crr c.val).cidx = ((s.ring .crr c.val).cidx + 1) % s.ringSize .crr c.val ∧
        LeavesStore dt ([Reg.CRR_BUSY, Reg.CRR_CHSTAT c.val] ++ two (Reg.CRR_WBS c.val) ++ two (Reg.CRR_RCOMPL c.val)) s t
          { t with rings := s.rings, crr := { t.crr with chain := s.crr.chain } }) ∧
  (∀ (c : Fin 16) (equal : Bool) (x : CrrChain), s.chain c.val = some x →
      Machine.ent x.desc 0 8 = 0 →
      crrIrq x.desc = false →
      x.irq = false →
      s.bit (Fld.CRR_RCTL_POPMODE c.val) = false →
      ((s.lpe.all fun x => decide (x.1 < 8)) = true) →
      regionOf (x.addr + 56) = some .ddr →
      s.rangeCheck .c true (x.addr + 56) 8 = 0 →
      regionOf (s.rd64 (ringRegs .crr c.val).cbase / 64 * 64 % 0x10000000000 + (s.ring .crr c.val).cidx * 16) = some .ddr →
      s.rangeCheck .c true (s.rd64 (ringRegs .crr c.val).cbase / 64 * 64 % 0x10000000000 + (s.ring .crr c.val).cidx * 16) 16
        = 0 →
      x.stage = .readback →
      ((x.expect.any fun w => decide (s.busRead w.1 w.2.length ≠ w.2) && decide (w.1 < 0x400000000)) = true) →
      x.status = 0 →
      s.bit (Fld.CRR_CFG_ERRIRQ c.val) = false →
      ∃ t, exec (.crrReadbackDone dt c equal) s = .next t ∧
        (∀ a, t.memGet a = ((s.memPut (x.addr + 56) (leBytes 1 0x40 ++ leBytes 1 x.flags ++ [0, 0] ++ leBytes 4 (crrLen
          x.desc))).memPut (s.rd64 (ringRegs .crr c.val).cbase / 64 * 64 % 0x10000000000 + (s.ring .crr c.val).cidx * 16)
          (leBytes 2 x.slot ++ leBytes 1 0x40 ++ [BitVec.ofNat 8 (b2n (s.ring .crr c.val).cphase)] ++ leBytes 4 (s.rd64
          (Reg.CRR_RCOMPL c.val) % 4294967296) ++ leBytes 4 x.taken ++ leBytes 4 0)).memGet a) ∧
        Counted (Reg.CRR_ERRS c.val) 1 s t ∧
        t.chain c.val = none ∧
        (t.getF Fld.CRR_BUSY_CH).testBit c.val = false ∧
        t.getF (Fld.CRR_CHSTAT_STATE c.val) = b2n (s.ringOn .crr c.val) ∧
        Counted (Reg.CRR_WBS c.val) 1 s t ∧
        Counted (Reg.CRR_RCOMPL c.val) 1 s t ∧
        (t.ring .crr c.val).cidx = ((s.ring .crr c.val).cidx + 1) % s.ringSize .crr c.val ∧
        LeavesStore dt (two (Reg.CRR_ERRS c.val) ++ [Reg.CRR_BUSY, Reg.CRR_CHSTAT c.val] ++ two (Reg.CRR_WBS c.val) ++ two
          (Reg.CRR_RCOMPL c.val)) s t { t with rings := s.rings, crr := { t.crr with chain := s.crr.chain } }) ∧
  (∀ (req : Requester) (c : Fin 16) (bytesMoved : Nat) (far : List Byte), Lets s req (Reg.CRR_RCTL c.val) →
      s.ringOn .crr c.val = true →
      s.chain c.val = none →
      s.ringWaiting .crr c.val = 0 →
      ∃ t, exec (.crrRingDisable dt req c bytesMoved far) s = .next t ∧
        Answered t 0 0 ∧
        t.ringOn .crr c.val = false ∧
        t.rd (Reg.CRR_CHSTAT c.val) = 0 ∧
        Leaves dt [Reg.CRR_RCTL c.val, Reg.CRR_CHSTAT c.val] s t t)

/-- A reading held for 5 µs becomes the level or the network state and starts the debounce time where it asks for another
state; a state held for the debounce time becomes the filtered state with its time and is counted; a supervised
network between bands for 100 ms sets SUPGAP. Other channels and everything else stay as they are. (R259, R260, R261,
R277) -/
def Obligations.FieldInputs : Prop := ∀ (s : State) (dt : Nat), s.wf = true →
  (∀ (ch : Fin 32) (reading : InReading), (s.fioCh ch.val).mode = 1 →
      s.fioPowered (fioGroupOf ch.val) = true →
      ∃ t, exec (.antiglitchExpiry dt ch reading) s = .next t ∧
        ((t.fioCh ch.val).level = (if (if s.hv = true then 72000 else 11000) ≤ reading.mv ∧ 2000 ≤ reading.ua then true else
          if (if s.hv = true then reading.mv ≤ 43000 else reading.mv ≤ 5000 ∨ reading.ua ≤ 1500) then false else (s.fioCh
          ch.val).level)) ∧
        (t.fioCh ch.val).filt = (s.fioCh ch.val).filt ∧
        ((t.fioCh ch.val).since = if (t.fioCh ch.val).level = (s.fioCh ch.val).level then (s.fioCh ch.val).since else
          (s.elapse dt).time.clock) ∧
        t.bit (Fld.FIO_CHSTAT_TERM ch.val) = (t.fioCh ch.val).level ∧
        (∀ k, k ≠ ch.val → t.fioCh k = s.fioCh k) ∧
        Leaves dt [Reg.FIO_CHSTAT ch.val] s t { t with fio := { t.fio with ch := s.fio.ch } }) ∧
  (∀ (ch : Fin 32) (reading : InReading), (s.fioCh ch.val).mode = 2 →
      s.fioPowered (fioGroupOf ch.val) = true →
      reading.limited = false →
      0 < reading.ua →
      (8000 * reading.ua ≤ ((s.fioGrp (fioGroupOf ch.val)).vf.toNat * 100000) ∧ ((s.fioGrp (fioGroupOf ch.val)).vf.toNat *
        100000) ≤ 20000 * reading.ua) ∨ (1500 * reading.ua ≤ ((s.fioGrp (fioGroupOf ch.val)).vf.toNat * 100000) ∧ ((s.fioGrp
        (fioGroupOf ch.val)).vf.toNat * 100000) ≤ 3500 * reading.ua) →
      ∃ t, exec (.antiglitchExpiry dt ch reading) s = .next t ∧
        ((t.fioCh ch.val).net = if 8000 * reading.ua ≤ ((s.fioGrp (fioGroupOf ch.val)).vf.toNat * 100000) then 1 else 2) ∧
        (t.fioCh ch.val).supgap = false ∧
        (t.fioCh ch.val).filt = (s.fioCh ch.val).filt ∧
        (∀ k, k ≠ ch.val → t.fioCh k = s.fioCh k) ∧
        Leaves dt [Reg.FIO_CHSTAT ch.val] s t { t with fio := { t.fio with ch := s.fio.ch } }) ∧
  (∀ (ch : Fin 32) (v : Nat), (s.fioCh ch.val).wants = some v →
      (s.fioCh ch.val).mode = 1 ∨ (s.fioCh ch.val).mode = 2 →
      s.fioPowered (fioGroupOf ch.val) = true →
      v ≠ (s.fioCh ch.val).filt →
      (s.fioCh ch.val).since + (s.fioCh ch.val).deb * 100000 ≤ (s.elapse dt).time.clock →
      ∃ t, exec (.debounceExpiry dt ch) s = .next t ∧
        (t.fioCh ch.val).filt = v ∧
        (t.fioCh ch.val).chgMt = (s.elapse dt).time.mt / 1000 * 1000 % 4294967296 ∧
        Counted (Reg.FIO_CHG ch.val) 1 s t ∧
        (∀ k, k ≠ ch.val → t.fioCh k = s.fioCh k) ∧
        Leaves dt (([Reg.FIO_CHSTAT ch.val] ++ two (Reg.FIO_CHG ch.val))) s t
          { t with fio := { t.fio with ch := s.fio.ch } }) ∧
  (∀ (ch : Fin 32), (s.fioCh ch.val).mode = 2 →
      (s.fioCh ch.val).net = 4 →
      s.fioPowered (fioGroupOf ch.val) = true →
      (s.fioCh ch.val).since + 100000000 ≤ (s.elapse dt).time.clock →
      ∃ t, exec (.supgapTimeout dt ch) s = .next t ∧
        (t.fioCh ch.val).supgap = true ∧
        (t.fioCh ch.val).filt = (s.fioCh ch.val).filt ∧
        (∀ k, k ≠ ch.val → t.fioCh k = s.fioCh k) ∧
        Leaves dt [] s t { t with fio := { t.fio with ch := s.fio.ch } })

/-- A reversed or a restored group supply changes the state of the group, with its event and counts, and its latches are
off until refreshed; the trip of a group overload while an output drives switches the outputs of the group off, and
with the logic side alive counts and reports; 100 ms later they return, and after a second the flag clears. A refresh
instant builds both frames, at a beat edge with the states that the edge kept for it, and starts the next refresh, and
the third bad one in a direction takes SERLINK_OK away, counted and reported; a frame with a bad check is counted and
not used; a good inbound frame is compared with the couplers, and the third disagreement in a row declares the coupler
faulty; a good outbound frame refreshes the latches of the outputs. Nothing else changes. (R253, R255, R256, R263,
R271, R276, R266, R267, R268, R269) -/
def Obligations.FieldSupplyAndPaths : Prop := ∀ (s : State) (dt : Nat), s.wf = true →
  (∀ (group : Fin 2) (vf : Int), vf < -30 →
      s.bit Fld.FIO_CLASS_MISMATCH = false →
      s.fioState group.val ≠ 3 →
      s.fioPowered group.val = true →
      PortRoom s 0x07 →
      ∃ t, exec (.fieldSupplyChange dt group vf) s = .next t ∧
        t.fioState group.val = 3 ∧
        t.bit (Fld.FIO_GSTAT_REVERSED group.val) = true ∧
        t.bit (Fld.FIO_GSTAT_VF_LOW group.val) = true ∧
        t.getF (Fld.FIO_GSTAT_VF group.val) = 0 ∧
        Counted (Reg.FIO_REVERSALS group.val) 1 s t ∧
        (∀ c, c / 16 = group.val → c < 32 → (t.fioCh c).latch = false) ∧
        (∀ c, c / 16 = group.val → c < 32 → (t.fioCh c).filt = fioOff (s.fioCh c).mode) ∧
        (t.fioGrp group.val).vf = vf ∧
        (Offered 0x07 0x0604 3 (if 55 < s.getF Fld.FIO_EVCOLL_COLL then 0 else s.getF Fld.FIO_EVCOLL_COLL) (p4 [group.val,
          s.fioState group.val, 3]) s t) ∧
        LeavesOut dt [7] s t { t with fio := s.fio, arc := { t.arc with ports := s.arc.ports } }) ∧
  (∀ (group : Fin 2) (vf : Int), s.vfMin ≤ vf →
      s.bit Fld.FIO_CLASS_MISMATCH = false →
      s.fioState group.val = 1 →
      s.fioPowered group.val = false →
      s.custodyOn = false →
      (((fioChans group.val).all fun c => (s.fioCh c).mode == 0 || (s.fioCh c).lost) = false) →
      PortRoom s 0x07 →
      ∃ t, exec (.fieldSupplyChange dt group vf) s = .next t ∧
        t.fioState group.val = 2 ∧
        t.bit (Fld.FIO_GSTAT_REVERSED group.val) = false ∧
        t.bit (Fld.FIO_GSTAT_VF_LOW group.val) = false ∧
        t.getF (Fld.FIO_GSTAT_VF group.val) = min 65535 vf.toNat ∧
        (∀ c, c / 16 = group.val → c < 32 → (t.fioCh c).latch = false) ∧
        (∀ c, c / 16 = group.val → c < 32 → (t.fioCh c).filt = fioOff (s.fioCh c).mode) ∧
        (Offered 0x07 0x0604 3 (if 55 < s.getF Fld.FIO_EVCOLL_COLL then 0 else s.getF Fld.FIO_EVCOLL_COLL) (p4 [group.val, 1,
          2]) s t) ∧
        LeavesOut dt [7] s t { t with fio := s.fio, arc := { t.arc with ports := s.arc.ports } }) ∧
  (∀ (group : Fin 2), ((fioChans group.val).any s.fioDriven) = true →
      s.logicAlive = true →
      PortRoom s 0x07 →
      ∃ t, exec (.fioGroupOverload dt group) s = .next t ∧
        t.bit (Fld.FIO_GSTAT_OVL group.val) = true ∧
        (t.fioGrp group.val).ovlOff = true ∧
        Counted (Reg.FIO_OVLTRIP group.val) 1 s t ∧
        (∀ c, c / 16 = group.val → t.fioDriven c = false) ∧
        (∀ c, t.fioCh c = if c < 32 ∧ c / 16 = group.val then { s.fioCh c with curlim := false } else s.fioCh c) ∧
        (Offered 0x07 0x0607 4 (if 55 < s.getF Fld.FIO_EVCOLL_COLL then 0 else s.getF Fld.FIO_EVCOLL_COLL) (p4 [group.val]) s
          t) ∧
        Leaves dt (([Reg.FIO_GSTAT group.val] ++ two (Reg.FIO_OVLTRIP group.val) ++ (fioChans group.val).map Reg.FIO_CHSTAT))
          s t { t with fio := s.fio, arc := { t.arc with ports := s.arc.ports } }) ∧
  (∀ (group : Fin 2), ((fioChans group.val).any s.fioDriven) = true →
      s.logicAlive = false →
      ∃ t, exec (.fioGroupOverload dt group) s = .next t ∧
        (t.fioGrp group.val).ovlOff = true ∧
        (t.fioGrp group.val).ovlAt = (s.elapse dt).time.clock ∧
        (∀ c, c / 16 = group.val → t.fioDriven c = false) ∧
        Leaves dt [] s t { t with fio := s.fio }) ∧
  (∀ (group : Fin 2), (s.fioGrp group.val).ovlOff = true →
      (s.fioGrp group.val).ovlAt + 100000000 ≤ (s.elapse dt).time.clock →
      ∃ t, exec (.groupOverloadEnd dt group) s = .next t ∧
        (t.fioGrp group.val).ovlOff = false ∧
        Leaves dt [] s t { t with fio := { t.fio with grp := s.fio.grp } }) ∧
  (∀ (group : Fin 2), (s.fioGrp group.val).ovlOff = false →
      (s.fioGrp group.val).ovlAt + 1000000000 ≤ (s.elapse dt).time.clock →
      ∃ t, exec (.ovlClear dt group) s = .next t ∧
        t.bit (Fld.FIO_GSTAT_OVL group.val) = false ∧
        Leaves dt [Reg.FIO_GSTAT group.val] s t t) ∧
  (∀ (group : Fin 2) (silent : List (Fin 16 × Nat)), (s.elapse dt).time.mt % 10000 = 0 →
      s.logicUp = true →
      (s.fioGrp group.val).started = true →
      s.serOk group.val = true →
      2 ≤ (s.fioGrp group.val).badIn →
      (s.fioGrp group.val).gotIn = false →
      (((fioChans group.val).all fun c => (s.fioCh c).mode != 3 || (s.fioCh c).cplOk == silent.all (fun x => x.1.val != c %
        16)) = true) →
      (s.fioGrp group.val).edgeFrame = none →
      PortRoom s 0x07 →
      ∃ t, exec (.fallbackRefresh dt ⟨group, silent⟩) s = .next t ∧
        t.serOk group.val = false ∧
        Counted (Reg.FIO_SERLOSS group.val) 1 s t ∧
        (t.fioGrp group.val).index = ((s.fioGrp group.val).index + 1) % 16 ∧
        (t.fioGrp group.val).outStates = some (s.fioCmds group.val) ∧
        ((t.fioGrp group.val).inStates = (if s.fioPowered group.val then some (s.fioFilts group.val) else none)) ∧
        (t.fioGrp group.val).gotIn = false ∧
        (t.fioGrp group.val).gotOut = false ∧
        t.fio.ch = s.fio.ch ∧
        (Offered 0x07 0x0602 4 (if 55 < s.getF Fld.FIO_EVCOLL_COLL then 0 else s.getF Fld.FIO_EVCOLL_COLL) (p4 [group.val]) s
          t) ∧
        LeavesOut dt [7] s t { t with fio := s.fio, arc := { t.arc with ports := s.arc.ports } }) ∧
  (∀ (group : Fin 2) (silent : List (Fin 16 × Nat)) (o i : Nat), (s.elapse dt).time.mt % 10000 = 0 →
      s.logicUp = true →
      (s.fioGrp group.val).started = false →
      (((fioChans group.val).all fun c => (s.fioCh c).mode != 3 || (s.fioCh c).cplOk == silent.all (fun x => x.1.val != c %
        16)) = true) →
      (s.fioGrp group.val).edgeFrame = some ((s.elapse dt).time.mt, o, i) →
      ∃ t, exec (.fallbackRefresh dt ⟨group, silent⟩) s = .next t ∧
        (t.fioGrp group.val).started = true ∧
        (t.fioGrp group.val).atEdge = true ∧
        (t.fioGrp group.val).outStates = some o ∧
        t.fio.ch = s.fio.ch ∧
        LeavesOut dt [7] s t { t with fio := s.fio }) ∧
  (∀ (group : Fin 2) (frame : FallbackFrame) (states : Nat), s.logicUp = true →
      (s.fioGrp group.val).inStates = some states →
      frame.crcOk = false →
      ∃ t, exec (.inboundFrameRx dt group frame) s = .next t ∧
        Counted (Reg.FIO_SERRX group.val) 1 s t ∧
        Counted (Reg.FIO_SERCRC group.val) 1 s t ∧
        (t.fioGrp group.val).inStates = none ∧
        (t.fioGrp group.val).gotIn = (s.fioGrp group.val).gotIn ∧
        Leaves dt ((two (Reg.FIO_SERRX group.val) ++ two (Reg.FIO_SERCRC group.val))) s t
          { t with fio := { t.fio with grp := s.fio.grp } }) ∧
  (∀ (group : Fin 2) (frame : FallbackFrame) (states : Nat), s.logicUp = true →
      (s.fioGrp group.val).inStates = some states →
      frame.crcOk = true →
      frame.index.val ≠ (s.fioGrp group.val).index →
      ∃ t, exec (.inboundFrameRx dt group frame) s = .next t ∧
        Counted (Reg.FIO_SERRX group.val) 1 s t ∧
        Counted (Reg.FIO_SERSEQ group.val) 1 s t ∧
        (t.fioGrp group.val).gotIn = (s.fioGrp group.val).gotIn ∧
        Leaves dt ((two (Reg.FIO_SERRX group.val) ++ two (Reg.FIO_SERSEQ group.val))) s t
          { t with fio := { t.fio with grp := s.fio.grp } }) ∧
  (∀ (group : Fin 2) (frame : FallbackFrame) (states c : Nat), s.logicUp = true →
      (s.fioGrp group.val).inStates = some states →
      s.fioSampling group.val = true →
      frame.crcOk = true →
      frame.index.val = (s.fioGrp group.val).index →
      c / 16 = group.val →
      (((fioChans group.val).all fun k => k == c || (s.fioCh k).mode == 0) = true) →
      (s.fioCh c).mode = 1 →
      (s.fioCh c).dis = 2 →
      (s.fioCh c).cplFault = false →
      states.testBit (c % 16) ≠ frame.couplers.toNat.testBit (c % 16) →
      PortRoom s 0x07 →
      ∃ t, exec (.inboundFrameRx dt group frame) s = .next t ∧
        Counted (Reg.FIO_SERRX group.val) 1 s t ∧
        Counted (Reg.FIO_SEROK group.val) 1 s t ∧
        Counted (Reg.FIO_XDIS c) 1 s t ∧
        (t.fioCh c).cplFault = true ∧
        (t.fioCh c).xchk = true ∧
        (t.fioGrp group.val).gotIn = true ∧
        (Offered 0x07 0x0601 4 (if 55 < s.getF Fld.FIO_EVCOLL_COLL then 0 else s.getF Fld.FIO_EVCOLL_COLL) (p4 [c, 0]) s t) ∧
        LeavesOut dt [7] s t { t with fio := s.fio, arc := { t.arc with ports := s.arc.ports } }) ∧
  (∀ (group : Fin 2) (frame : FallbackFrame) (states : Nat), s.fioPowered group.val = true →
      frame.crcOk = true →
      frame.index.val = (s.fioGrp group.val).index →
      (s.fioGrp group.val).outStates = some states →
      (s.fioGrp group.val).atEdge = false →
      s.refreshes group.val = true →
      s.serOk group.val = true →
      frame.couplers.toNat = states →
      frame.couplersValid = 0xFFFF →
      ∃ t, exec (.outboundFrameRx dt group frame) s = .next t ∧
        (∀ c, c / 16 = group.val → (s.fioCh c).mode = 3 → (t.fioCh c).latch = states.testBit (c % 16) ∧ (t.fioCh c).refAt =
          some (s.elapse dt).time.clock ∧ (t.fioCh c).failAt = none ∧ (t.fioCh c).dis = 0) ∧
        (∀ c, c / 16 ≠ group.val ∨ (s.fioCh c).mode ≠ 3 → t.fioCh c = s.fioCh c) ∧
        (t.fioGrp group.val).gotOut = true ∧
        LeavesOut dt [7] s t { t with fio := s.fio })

/-- A thermal trip is counted, reported and opens the output until the restart; a commanded output shows its current
limit; two equal open-load results report OPEN_LOAD; an output that is not refreshed for WDT enters its fail state,
opens at once or holds for HOLDT. Other channels and everything else stay as they are. (R262, R264, R265, R270, R276) -/
def Obligations.FieldOutputs : Prop := ∀ (s : State) (dt : Nat), s.wf = true →
  (∀ (ch : Fin 32), (s.fioCh ch.val).mode = 3 →
      (s.fioCh ch.val).therm = false →
      PortRoom s 0x07 →
      ∃ t, exec (.fioThermal dt ch) s = .next t ∧
        (t.fioCh ch.val).therm = true ∧
        t.fioDriven ch.val = false ∧
        Counted (Reg.FIO_TRIPS ch.val) 1 s t ∧
        (Offered 0x07 0x0606 3 (if 55 < s.getF Fld.FIO_EVCOLL_COLL then 0 else s.getF Fld.FIO_EVCOLL_COLL) (p4 [ch.val]) s t)
          ∧
        (∀ k, k ≠ ch.val → t.fioCh k = s.fioCh k) ∧
        Leaves dt (([Reg.FIO_CHSTAT ch.val] ++ two (Reg.FIO_TRIPS ch.val))) s t
          { t with fio := { t.fio with ch := s.fio.ch }, arc := { t.arc with ports := s.arc.ports } }) ∧
  (∀ (ch : Fin 32), (s.fioCh ch.val).therm = true →
      ∃ t, exec (.thermalRestart dt ch) s = .next t ∧
        t.fioCh ch.val = { s.fioCh ch.val with therm := false } ∧
        (∀ k, k ≠ ch.val → t.fioCh k = s.fioCh k) ∧
        Leaves dt [Reg.FIO_CHSTAT ch.val] s t { t with fio := { t.fio with ch := s.fio.ch } }) ∧
  (∀ (ch : Fin 32) (withTest withoutTest : Nat) (current : Bool), (s.fioCh ch.val).mode = 3 →
      s.fioSampling (fioGroupOf ch.val) = true →
      (s.fioCh ch.val).latch = true →
      (s.fioCh ch.val).opened = false →
      ∃ t, exec (.outputDiagTest dt ch withTest withoutTest current) s = .next t ∧
        (t.fioCh ch.val).curlim = current ∧
        (t.fioCh ch.val).lastDiag = 0 ∧
        (∀ k, k ≠ ch.val → t.fioCh k = s.fioCh k) ∧
        Leaves dt [Reg.FIO_CHSTAT ch.val] s t { t with fio := { t.fio with ch := s.fio.ch } }) ∧
  (∀ (ch : Fin 32) (withTest withoutTest : Nat) (current : Bool), (s.fioCh ch.val).mode = 3 →
      s.fioSampling (fioGroupOf ch.val) = true →
      (s.fioCh ch.val).latch = false →
      (s.fioCh ch.val).diagAt = none →
      (s.fioCh ch.val).oldEn = true →
      (s.fioCh ch.val).lastDiag = 2 →
      (s.fioCh ch.val).openLoad = false →
      (s.fioGrp (fioGroupOf ch.val)).vf < 2 * (withTest : Int) →
      2 * (withoutTest : Int) < (s.fioGrp (fioGroupOf ch.val)).vf →
      (withoutTest : Int) + 30 ≤ (s.fioGrp (fioGroupOf ch.val)).vf →
      PortRoom s 0x07 →
      ∃ t, exec (.outputDiagTest dt ch withTest withoutTest current) s = .next t ∧
        (t.fioCh ch.val).openLoad = true ∧
        (t.fioCh ch.val).shortVf = (s.fioCh ch.val).shortVf ∧
        (t.fioCh ch.val).diagAt = some (s.elapse dt).time.clock ∧
        (Offered 0x07 0x0609 3 (if 55 < s.getF Fld.FIO_EVCOLL_COLL then 0 else s.getF Fld.FIO_EVCOLL_COLL) (p4 [ch.val, 3,
          1]) s t) ∧
        (∀ k, k ≠ ch.val → t.fioCh k = s.fioCh k) ∧
        Leaves dt [Reg.FIO_CHSTAT ch.val] s t
          { t with fio := { t.fio with ch := s.fio.ch }, arc := { t.arc with ports := s.arc.ports } }) ∧
  (∀ (ch : Fin 32) (at_ : Nat), (s.fioCh ch.val).refAt = some at_ →
      (s.fioCh ch.val).mode = 3 →
      (s.fioCh ch.val).failAt = none →
      at_ + (s.fioCh ch.val).wdt * 250000 ≤ (s.elapse dt).time.clock →
      (s.fioCh ch.val).lost = true ∨ s.fioFed ch.val = false →
      s.logicAlive = true →
      ∃ t, exec (.outputWatchdogExpiry dt ch) s = .next t ∧
        (t.fioCh ch.val).failAt = some (s.elapse dt).time.clock ∧
        (t.fioCh ch.val).opened = (!(s.fioCh ch.val).hold || (s.fioCh ch.val).holdt == 0) ∧
        Counted (Reg.FIO_WDEXP ch.val) 1 s t ∧
        t.bit (Fld.FIO_CHSTAT_FAILSTATE ch.val) = true ∧
        (∀ k, k ≠ ch.val → t.fioCh k = s.fioCh k) ∧
        Leaves dt (([Reg.FIO_CHSTAT ch.val] ++ two (Reg.FIO_WDEXP ch.val))) s t
          { t with fio := { t.fio with ch := s.fio.ch } }) ∧
  (∀ (ch : Fin 32) (at_ : Nat), (s.fioCh ch.val).failAt = some at_ →
      at_ + (s.fioCh ch.val).holdt * 250000 ≤ (s.elapse dt).time.clock →
      ∃ t, exec (.failHoldExpiry dt ch) s = .next t ∧
        t.fioCh ch.val = { s.fioCh ch.val with opened := true, curlim := false } ∧
        t.fioDriven ch.val = false ∧
        (∀ k, k ≠ ch.val → t.fioCh k = s.fioCh k) ∧
        Leaves dt [Reg.FIO_CHSTAT ch.val] s t { t with fio := { t.fio with ch := s.fio.ch } })

/-- The 64 modulator bits of a sinc output pass the four integrators and the combs once the run has begun; an output
without DC blocking is the filter value scaled, offset and limited, with its timestamp, flags and number, and is
counted; a stuck stream is flagged and reported; a read count is taken within what has been written and counted as an
error beyond. Nothing else changes. (R281, R282, R283, R286, R295, R296, R301) -/
def Obligations.MeasSamples : Prop := ∀ (s : State) (dt : Nat), s.wf = true →
  (∀ (ch : Fin 16) (bits : BitVec 64) (r : Nat), (s.measCh ch.val).run = some r →
      r ≤ (s.elapse dt).time.mt →
      ∃ t, exec (.sincOutput dt ch bits) s = .next t ∧
        (t.measCh ch.val =
          { s.measCh ch.val with integ := ((List.range 64).foldl (fun l i => sincBit l (b2n (bits.toNat.testBit i))) (s.measCh ch.val).integ), comb := (sincComb (s.measCh ch.val).comb (((List.range 64).foldl (fun l i => sincBit l (b2n (bits.toNat.testBit i))) (s.measCh ch.val).integ).getLastD 0)).1, sincs := (sincComb (s.measCh ch.val).comb (((List.range 64).foldl (fun l i => sincBit l (b2n (bits.toNat.testBit i))) (s.measCh ch.val).integ).getLastD 0)).2 :: (s.measCh ch.val).sincs.take 1199, sincN := (s.measCh ch.val).sincN + 1 })
          ∧
        (∀ k, k ≠ ch.val → t.measCh k = s.measCh k) ∧
        Leaves dt [] s t { t with meas := { t.meas with ch := s.meas.ch } }) ∧
  (∀ (ch : Fin 16) (r ts : Nat) (e : List Byte) (z : Int) (clip : Bool), (s.measCh ch.val).run = some r →
      ts = r + (s.measCh ch.val).j * measP (s.measCh ch.val).preset →
      ts ≤ (s.elapse dt).time.mt →
      e = (s.measCh ch.val).conf ts →
      Machine.ent e 2 1 = 0 →
      z = divHalfAway ((Config.firOutput (s.measCh ch.val).preset ((s.measCh ch.val).span (s.measCh ch.val).j)) * 65536 *
        signed32 (Machine.ent e 4 4)) (2 ^ 46) + signed32 (Machine.ent e 8 4) →
      clip = ((s.measCh ch.val).span (s.measCh ch.val).j).any sincOver →
      ∃ t, exec (.measOutputReady dt ch) s = .next t ∧
        ((t.measCh ch.val).ready = (s.measCh ch.val).ready ++ [⟨ts, max (-2147483648) (min 2147483647 z), b2n (decide
          ((s.measCh ch.val).j < 8)) + 2 * b2n clip + 8 * b2n (s.bit Fld.MEAS_STATUS_SLIP), s.rd64 (Reg.MEAS_PRODUCED
          ch.val), ts + measL (s.measCh ch.val).preset, if Machine.ent e 24 1 = 0 then none else some (Machine.ent e 16 8,
          Machine.ent e 24 1)⟩]) ∧
        (t.measCh ch.val).j = (s.measCh ch.val).j + 1 ∧
        Counted (Reg.MEAS_PRODUCED ch.val) 1 s t ∧
        Counted (Reg.MEAS_CLIPS ch.val) (b2n clip) s t ∧
        (Counted (Reg.MEAS_SATS ch.val) (b2n (decide (z < -2147483648 ∨ 2147483647 < z))) s t) ∧
        (∀ k, k ≠ ch.val → t.measCh k = s.measCh k) ∧
        Leaves dt (([Reg.MEAS_DCEST ch.val] ++ two (Reg.MEAS_PRODUCED ch.val) ++ two (Reg.MEAS_CLIPS ch.val) ++ two
          (Reg.MEAS_SATS ch.val))) s t { t with meas := { t.meas with ch := s.meas.ch } }) ∧
  (∀ (ch : Fin 16), s.bit (Fld.MEAS_CHSTAT_STUCK ch.val) = false →
      s.unitOff 0x08 0 = false →
      PortRoom s 0x08 →
      ∃ t, exec (.measStuck dt ch) s = .next t ∧
        t.bit (Fld.MEAS_CHSTAT_STUCK ch.val) = true ∧
        (Offered 0x08 0x0705 4 (if 55 < s.getF Fld.MEAS_EVCOLL_COLL then 0 else s.getF Fld.MEAS_EVCOLL_COLL) (p4 [ch.val]) s
          t) ∧
        Leaves dt [Reg.MEAS_CHSTAT ch.val] s t { t with arc := { t.arc with ports := s.arc.ports } }) ∧
  (∀ (ch : Fin 16), ∃ t, exec (.streamUnstuck dt ch) s = .next t ∧
        t.bit (Fld.MEAS_CHSTAT_STUCK ch.val) = false ∧
        Leaves dt [Reg.MEAS_CHSTAT ch.val] s t t) ∧
  (∀ (req : Requester) (ch : Fin 16) (value : BitVec 64), Lets s req (Reg.MEAS_RINGRD ch.val) →
      s.rd64 (Reg.MEAS_RINGRD ch.val) ≤ value.toNat →
      value.toNat ≤ s.rd64 (Reg.MEAS_WRITTEN ch.val) →
      ∃ t, exec (.measRingrdWrite dt req ch value) s = .next t ∧
        Answered t 0 0 ∧
        t.rd64 (Reg.MEAS_RINGRD ch.val) = value.toNat ∧
        Leaves dt ((two (Reg.MEAS_RINGRD ch.val))) s t t) ∧
  (∀ (req : Requester) (ch : Fin 16) (value : BitVec 64), Lets s req (Reg.MEAS_RINGRD ch.val) →
      s.rd64 (Reg.MEAS_WRITTEN ch.val) < value.toNat →
      ∃ t, exec (.measRingrdWrite dt req ch value) s = .next t ∧
        Answered t 0 0 ∧
        Counted (Reg.MEAS_RDERR ch.val) 1 s t ∧
        Leaves dt ((two (Reg.MEAS_RDERR ch.val))) s t t)

/-- A pin pulse or a command with the key asks for a SYNC at the next edge of the modulator clock; a disarm takes an armed
instant away; a SYNC restarts every enabled channel at its instant, moves the anchor there, clears SLIP, is counted
and reported; a loss of lock sets SLIP, counts and reports, and a relock leaves SLIP set. Nothing else changes. (R289,
R302, R303, R304, R306) -/
def Obligations.MeasSync : Prop := ∀ (s : State) (dt : Nat), s.wf = true →
  (∀ (rising : Bool) (width : Nat), s.unitOff 0x08 0 = false →
      s.bit Fld.MEAS_SYNCCTL_PIN_EN = true →
      rising ≠ s.bit Fld.MEAS_SYNCCTL_PIN_POL →
      100 ≤ width →
      ((s.meas.lastPin.all fun t => decide (t + 10000 ≤ (s.elapse dt).time.clock)) = true) →
      s.measMember = false →
      s.measMaster = false →
      ∃ t, exec (.syncInEdge dt rising width) s = .next t ∧
        t.meas.syncs = s.meas.syncs ++ [((s.elapse dt).mclkEdge, 1)] ∧
        t.meas.lastPin = some (s.elapse dt).time.clock ∧
        Leaves dt [] s t { t with meas := { t.meas with syncs := s.meas.syncs, lastPin := s.meas.lastPin } }) ∧
  (∀ (rising : Bool) (width t0 : Nat), s.unitOff 0x08 0 = false →
      s.bit Fld.MEAS_SYNCCTL_PIN_EN = true →
      rising ≠ s.bit Fld.MEAS_SYNCCTL_PIN_POL →
      100 ≤ width →
      s.meas.lastPin = some t0 →
      (s.elapse dt).time.clock < t0 + 10000 →
      ∃ t, exec (.syncInEdge dt rising width) s = .next t ∧
        t.meas.syncs = s.meas.syncs ∧
        Counted Reg.MEAS_SYNCIGN 1 s t ∧
        Leaves dt ((two Reg.MEAS_SYNCIGN)) s t { t with meas := { t.meas with lastPin := s.meas.lastPin } }) ∧
  (∀ (req : Requester), Lets s req Reg.MEAS_SYNCCMD →
      s.measMember = false →
      s.measMaster = false →
      ∃ t, exec (.measSyncNow dt req 0xC3) s = .next t ∧
        Answered t 0 0 ∧
        t.meas.syncs = s.meas.syncs ++ [((s.elapse dt).mclkEdge, 2)] ∧
        Leaves dt [] s t { t with meas := { t.meas with syncs := s.meas.syncs } }) ∧
  (∀ (req : Requester), Lets s req Reg.MEAS_SYNCCMD →
      ∃ t, exec (.measSyncDisarm dt req 0xC3) s = .next t ∧
        Answered t 0 0 ∧
        t.meas.armed = none ∧
        t.bit Fld.MEAS_STATUS_SYNCPEND = false ∧
        Leaves dt [Reg.MEAS_STATUS] s t { t with meas := { t.meas with armed := s.meas.armed } }) ∧
  (∀ (at_ src : Nat), s.unitOff 0x08 0 = false →
      s.measMember = false →
      s.meas.armed = none →
      s.meas.syncs = [(at_, src)] →
      at_ ≤ (s.elapse dt).time.mt →
      src = 1 ∨ src = 2 →
      ((s.meas.lastSync.all fun t => decide (t + 122 < at_)) = true) →
      PortRoom s 0x08 →
      ∃ t, exec (.measSync dt) s = .next t ∧
        t.rd64 Reg.MEAS_ANCHOR = at_ % 18446744073709551616 ∧
        t.getF Fld.MEAS_STATUS_ANCHOR_SRC = src % 8 ∧
        Counted Reg.MEAS_SYNCS 1 s t ∧
        t.bit Fld.MEAS_STATUS_SLIP = false ∧
        t.bit Fld.MEAS_STATUS_STACKMISS = false ∧
        t.meas.lastSync = some at_ ∧
        t.meas.syncs = [] ∧
        (∀ m, m < 16 → t.measCh m = if (s.measCh m).en then (s.measCh m).restart at_ else s.measCh m) ∧
        (Offered 0x08 0x0701 1 (if 55 < s.getF Fld.MEAS_EVCOLL_COLL then 0 else s.getF Fld.MEAS_EVCOLL_COLL) (p4 [src] ++ p8
          [at_] ++ p4 [s.measOn.foldl (fun v m => v + 2 ^ m) 0]) s t) ∧
        LeavesOut dt [8] s t { t with meas := s.meas, arc := { t.arc with ports := s.arc.ports } }) ∧
  (s.bit Fld.MEAS_STATUS_PLL_LOCK = true →
      PortRoom s 0x08 →
      ∃ t, exec (.measPllLost dt) s = .next t ∧
        t.bit Fld.MEAS_STATUS_PLL_LOCK = false ∧
        t.bit Fld.MEAS_STATUS_SLIP = true ∧
        Counted Reg.MEAS_PLLLOSS 1 s t ∧
        (Offered 0x08 0x0703 4 (if 55 < s.getF Fld.MEAS_EVCOLL_COLL then 0 else s.getF Fld.MEAS_EVCOLL_COLL) [] s t) ∧
        Leaves dt (([Reg.MEAS_STATUS] ++ two Reg.MEAS_PLLLOSS)) s t { t with arc := { t.arc with ports := s.arc.ports } }) ∧
  (s.bit Fld.MEAS_STATUS_PLL_LOCK = false →
      s.meas.wasLocked = true →
      PortRoom s 0x08 →
      ∃ t, exec (.measPllLocked dt) s = .next t ∧
        t.bit Fld.MEAS_STATUS_PLL_LOCK = true ∧
        t.bit Fld.MEAS_STATUS_SLIP = true ∧
        (Offered 0x08 0x0704 2 (if 55 < s.getF Fld.MEAS_EVCOLL_COLL then 0 else s.getF Fld.MEAS_EVCOLL_COLL) [] s t) ∧
        Leaves dt [Reg.MEAS_STATUS] s t { t with arc := { t.arc with ports := s.arc.ports } })

/-- A delay exchange on a link that is up makes its delay valid; a link that goes down loses it, with its event; a cut own
frame is counted and does not count as sent; a guardian clock outside its limits blocks its port for the next cycle,
counted and reported; a frame that passes through is cut at its end limit with a transmit error, counted. Nothing else
changes. (R312, R314, R321, R322, R339, R343) -/
def Obligations.WalLinks : Prop := ∀ (s : State) (dt : Nat), s.wf = true →
  (∀ (port : Fin 4) (delay : BitVec 16), s.bit (Fld.WAL_LINKDLY_LINKUP port.val) = true →
      s.unitOff 0x09 0 = false →
      ∃ t, exec (.linkDelayExchange dt port delay) s = .next t ∧
        t.bit (Fld.WAL_LINKDLY_VALID port.val) = true ∧
        t.getF (Fld.WAL_LINKDLY_DLY port.val) = delay.toNat ∧
        Leaves dt [Reg.WAL_LINKDLY port.val, Reg.WAL_STATUS] s t t) ∧
  (∀ (port : Fin 4), s.bit (Fld.WAL_LINKDLY_LINKUP port.val) = true →
      PortRoom s 0x09 →
      ∃ t, exec (.walLink dt port false) s = .next t ∧
        t.bit (Fld.WAL_LINKDLY_LINKUP port.val) = false ∧
        t.bit (Fld.WAL_LINKDLY_VALID port.val) = false ∧
        (Offered 0x09 0x080A 2 (if 55 < s.getF Fld.WAL_EVCOLL_COLL then 0 else s.getF Fld.WAL_EVCOLL_COLL) (p4 [port.val, 0])
          s t) ∧
        Leaves dt [Reg.WAL_LINKDLY port.val, Reg.WAL_STATUS] s t { t with arc := { t.arc with ports := s.arc.ports } }) ∧
  (∀ (chan : Fin 2) (e : Nat), (s.elapse dt).walOnWire chan.val = some e →
      (s.walSlot e).ofs + (s.walSlot e).slen ≤ (s.elapse dt).walNow + s.walG + s.walSpan →
      ∃ t, exec (.guardianCut dt chan) s = .next t ∧
        (t.walCh chan.val).sending = none ∧
        (t.walCh chan.val).wireErr = true ∧
        (t.walCh chan.val).sendUntil = (s.elapse dt).time.clock ∧
        t.walRec e = { s.walRec e with aborted := true } ∧
        Counted (Reg.WAL_TXCUT chan.val) 1 s t ∧
        Leaves dt ((two (Reg.WAL_TXCUT chan.val))) s t { t with wal := s.wal }) ∧
  (∀ (port : Fin 4) (interval : Nat), interval < 249900 ∨ 250100 < interval →
      PortRoom s 0x09 →
      ∃ t, exec (.walGuardClk dt port interval) s = .next t ∧
        (t.walCh (port.val / 2)).blockNext = ((s.walCh (port.val / 2)).blockNext ||| 2 ^ (port.val % 2)) ∧
        Counted (Reg.WAL_GUARDCLK (port.val / 2)) 1 s t ∧
        (Offered 0x09 0x0809 5 (if 55 < s.getF Fld.WAL_EVCOLL_COLL then 0 else s.getF Fld.WAL_EVCOLL_COLL) (p4 [port.val]) s
          t) ∧
        Leaves dt ((two (Reg.WAL_GUARDCLK (port.val / 2)))) s t
          { t with wal := { t.wal with ch := s.wal.ch }, arc := { t.arc with ports := s.arc.ports } }) ∧
  (∀ (port : Fin 4) (interval : Nat), 249900 ≤ interval →
      interval ≤ 250100 →
      ∃ t, exec (.walGuardClk dt port interval) s = .next t ∧
        t.wal = s.wal ∧
        Leaves dt [] s t t) ∧
  (∀ (port : Fin 4) (x : WalFwd), (s.walCh (port.val / 2)).fwd = [x] →
      x.port = port.val →
      x.limit ≤ (s.elapse dt).time.clock →
      x.limit < x.until_ →
      ∃ t, exec (.forwardCut dt port) s = .next t ∧
        Counted (Reg.WAL_FWDCUT (port.val / 2)) 1 s t ∧
        t.walCh (port.val / 2) =
          { s.walCh (port.val / 2) with fwd := [{ x with until_ := x.limit, bad := true, wire := x.wire.take ((x.limit - x.start) / 8 - 8) }] }
          ∧
        Leaves dt ((two (Reg.WAL_FWDCUT (port.val / 2)))) s t { t with wal := { t.wal with ch := s.wal.ch } })

/-- In ACTIVE a frame that meets window, end, CRC and header of its slot, and that this node receives, is counted,
delivered to its record and forwarded; one with a bad CRC is counted with that reason and takes nothing from a frame
delivered before; one that meets an own frame on the wire ends that frame and counts as a conflict; in LISTEN any
frame counts as not active and starts INTEGRATE. A slot frame leaves only in its window, with its payload and flags,
and is counted. A channel in LISTEN or BACKOFF that has heard no frame for its time sends a cold-start frame, counted,
and contends; at the end of the window the lowest rank leads: this node, or another, which it then integrates to.
Blocks other than Walira and Loupe keep their registers. (R313, R317, R319, R320, R321, R322, R323, R328, R332, R337,
R329, R330, R331) -/
def Obligations.WalFrames : Prop := ∀ (s : State) (dt : Nat), s.wf = true →
  (∀ (port : Fin 4) (c e : Nat) (f : WalFrame), c = port.val / 2 →
      s.unitOff 0x09 0 = false →
      (s.walCh c).stepped = false →
      s.walState c = 4 →
      f.headerSeen = true →
      f.flags.testBit 1 = false →
      tget (s.walCh c).upDly f.node = (if f.upDly = 0xFFFF then none else some f.upDly) →
      s.walSlotAt c f = some e →
      e / 64 = c →
      ((s.lpe.all fun x => decide (x.1 < 8)) = true) →
      (s.elapse dt).walOnWire c = none →
      s.walJudge c e f = 0 →
      (s.walRec e).clashed = false →
      (s.walRole e).testBit 1 = true →
      ∃ t, exec (.walFrameRx dt port f) s = .next t ∧
        Counted (Reg.WAL_RXFRAMES c) 1 s t ∧
        Counted (Reg.WAL_DELIVERED c) 1 s t ∧
        t.walRec e =
          { s.walRec e with now := some 0, nowSrc := f.node, nowFlags := f.flags, nowCycle := f.cycle, nowData := f.payload }
          ∧
        (t.walCh c).members.testBit f.node = true ∧
        (t.walCh c).heardNow = ((s.walCh c).heardNow || f.node != s.walPos) ∧
        (((t.walCh c).fwd.any fun x => x.port == port.val && x.wire == State.walCrc (State.walWireOf f) && x.bad ==
          f.txError) = true) ∧
        LeavesOut dt [9, 0x10] s t { t with wal := s.wal, lpe := s.lpe }) ∧
  (∀ (port : Fin 4) (c e : Nat) (f : WalFrame), c = port.val / 2 →
      s.unitOff 0x09 0 = false →
      (s.walCh c).stepped = false →
      s.walState c = 4 →
      f.headerSeen = true →
      f.flags.testBit 1 = false →
      tget (s.walCh c).upDly f.node = (if f.upDly = 0xFFFF then none else some f.upDly) →
      s.walSlotAt c f = some e →
      e / 64 = c →
      ((s.lpe.all fun x => decide (x.1 < 8)) = true) →
      (s.elapse dt).walOnWire c = none →
      s.walJudge c e f = 2 →
      (s.walRec e).now ≠ some 0 →
      ∃ t, exec (.walFrameRx dt port f) s = .next t ∧
        Counted (Reg.WAL_RXFRAMES c) 1 s t ∧
        Counted (Reg.WAL_CRCERR c) 1 s t ∧
        (t.walCh c).members = (s.walCh c).members ∧
        (((t.walCh c).fwd.any fun x => x.port == port.val && x.wire == s.walArrived f && x.bad == f.txError && x.crcOk ==
          f.crcOk) = true) ∧
        (t.walRec e).now = some 2 ∧
        LeavesOut dt [9, 0x10] s t { t with wal := s.wal, lpe := s.lpe }) ∧
  (∀ (port : Fin 4) (c e : Nat) (f : WalFrame), c = port.val / 2 →
      s.unitOff 0x09 0 = false →
      (s.walCh c).stepped = false →
      s.walState c = 4 →
      f.headerSeen = true →
      f.flags.testBit 1 = false →
      tget (s.walCh c).upDly f.node = (if f.upDly = 0xFFFF then none else some f.upDly) →
      s.walSlotAt c f = some e →
      e / 64 = c →
      ((s.lpe.all fun x => decide (x.1 < 8)) = true) →
      (s.elapse dt).walOnWire c = none →
      s.walJudge c e f = 2 →
      (s.walRec e).now = some 0 →
      ∃ t, exec (.walFrameRx dt port f) s = .next t ∧
        Counted (Reg.WAL_RXFRAMES c) 1 s t ∧
        Counted (Reg.WAL_CRCERR c) 1 s t ∧
        (t.walCh c).members = (s.walCh c).members ∧
        (((t.walCh c).fwd.any fun x => x.port == port.val && x.wire == s.walArrived f && x.bad == f.txError && x.crcOk ==
          f.crcOk) = true) ∧
        t.walRec e = s.walRec e ∧
        LeavesOut dt [9, 0x10] s t { t with wal := s.wal, lpe := s.lpe }) ∧
  (∀ (port : Fin 4) (c e own : Nat) (f : WalFrame), c = port.val / 2 →
      s.unitOff 0x09 0 = false →
      (s.walCh c).stepped = false →
      s.walState c = 4 →
      f.headerSeen = true →
      f.flags.testBit 1 = false →
      tget (s.walCh c).upDly f.node = (if f.upDly = 0xFFFF then none else some f.upDly) →
      s.walSlotAt c f = some e →
      e / 64 = c →
      ((s.lpe.all fun x => decide (x.1 < 8)) = true) →
      (s.elapse dt).walOnWire c = some own →
      (s.walSlot own).spare = false →
      e ≠ own →
      PortRoom s 0x09 →
      ∃ t, exec (.walFrameRx dt port f) s = .next t ∧
        Counted (Reg.WAL_RXFRAMES c) 1 s t ∧
        Counted (Reg.WAL_CONFLICT c) 1 s t ∧
        (t.walCh c).sending = none ∧
        (t.walCh c).wireErr = true ∧
        (t.walRec own).aborted = true ∧
        (Offered 0x09 0x0807 4 (if 55 < s.getF Fld.WAL_EVCOLL_COLL then 0 else s.getF Fld.WAL_EVCOLL_COLL) (p4 [c, own % 64])
          s t) ∧
        LeavesOut dt [9, 0x10] s t { t with wal := s.wal, lpe := s.lpe, arc := { t.arc with ports := s.arc.ports } }) ∧
  (∀ (port : Fin 4) (c e : Nat) (f : WalFrame), c = port.val / 2 →
      s.unitOff 0x09 0 = false →
      s.walState c = 1 →
      (s.walCh c).stepped = false →
      f.headerSeen = true →
      f.flags.testBit 1 = false →
      ((s.lpe.all fun x => decide (x.1 < 8)) = true) →
      (s.elapse dt).walOnWire c = none →
      s.walSlotAt c f = some e →
      (s.walRec e).now = none →
      ∃ t, exec (.walFrameRx dt port f) s = .next t ∧
        t.walState c = 3 ∧
        Counted (Reg.WAL_RXFRAMES c) 1 s t ∧
        Counted (Reg.WAL_NOTACTIVE c) 1 s t ∧
        t.walRec e =
          { s.walRec e with now := some 7, nowSrc := f.node, nowFlags := f.flags, nowCycle := f.cycle, nowData := f.payload }
          ∧
        (t.walCh c).members = (s.walCh c).members ∧
        LeavesOut dt [9, 0x10] s t { t with wal := s.wal, lpe := s.lpe }) ∧
  (∀ (chan : Fin 2) (entry : Fin 64) (e : Nat) (x : WalSlot), e = 64 * chan.val + entry.val →
      x = s.walSlot e →
      x.used = true →
      x.spare = false →
      (s.walRole e).testBit 0 = true →
      (s.walRole e).testBit 3 = false ∨ (s.custodyOn = true ∧ s.rpl.resume = none) →
      s.walState chan.val = 4 →
      (s.walCh chan.val).block ≠ 3 →
      (s.walCh chan.val).stepped = false →
      (s.walRec e).sent = false →
      x.ofs + s.walG ≤ (s.elapse dt).walNow →
      (s.elapse dt).walNow < x.ofs + x.slen - s.walG - s.walSpan →
      ((s.lpe.all fun x => decide (x.1 < 8)) = true) →
      ∃ t, exec (.walSlotTx dt chan entry) s = .next t ∧
        (t.walRec e).sent = true ∧
        (t.walCh chan.val).sending = some e ∧
        Counted (Reg.WAL_TXFRAMES chan.val) 1 s t ∧
        (t.walCh chan.val).wire = State.walCrc (State.walBytes 1 (b2n (x.sync && s.bit Fld.WAL_NODECFG_SYNC) + 4 * b2n
          s.walNt) (e % 64 + 128 * chan.val) s.walPos (s.rd Reg.WAL_SCHEDID) s.time.beat x.plen (s.walUpDly chan.val)
          s.walRankByte 0 (slice (s.walRec e).tx 0 x.plen)) ∧
        (t.walCh chan.val).sendUntil = (s.elapse dt).time.clock + walWire x.plen ∧
        LeavesOut dt [9, 0x10] s t { t with wal := s.wal, lpe := s.lpe }) ∧
  (∀ (chan : Fin 2), s.walState chan.val = 1 →
      s.bit Fld.WAL_NODECFG_CS = true →
      (s.walCh chan.val).heardAt + 500000 + s.walRank * 16000 ≤ (s.elapse dt).time.clock →
      (s.walCh chan.val).block ≠ 3 →
      (((s.walCh chan.val).lastCs.all fun t => decide (t + 500000 ≤ (s.elapse dt).time.clock)) = true) →
      ((s.lpe.all fun x => decide (x.1 < 8)) = true) →
      ∃ t, exec (.walListenTimeout dt chan) s = .next t ∧
        t.walState chan.val = 2 ∧
        (t.walCh chan.val).wire = State.walCrc (State.walBytes 1 (2 + 4 * b2n s.walNt) 0x3F s.walPos (s.rd Reg.WAL_SCHEDID)
          s.time.beat 16 (s.walUpDly chan.val) s.walRankByte 0 (leBytes 4 (s.elapse dt).walNow ++ List.replicate 12 0)) ∧
        Counted (Reg.WAL_COLDSTARTS chan.val) 1 s t ∧
        Counted (Reg.WAL_TXFRAMES chan.val) 1 s t ∧
        (t.walCh chan.val).lastCs = some (s.elapse dt).time.clock ∧
        (t.walCh chan.val).window = some ((s.walCh chan.val).window.getD (s.elapse dt).time.clock) ∧
        (t.walCh chan.val).seen = (s.walCh chan.val).seen ++ [⟨s.walRank, s.walPos, s.time.beat, true, true⟩] ∧
        LeavesOut dt [9, 0x10] s t { t with wal := s.wal, lpe := s.lpe }) ∧
  (∀ (chan : Fin 2), s.walState chan.val = 6 →
      (s.walCh chan.val).heardAt + 2000000 + s.walRank * 16000 ≤ (s.elapse dt).time.clock →
      (s.walCh chan.val).block ≠ 3 →
      (((s.walCh chan.val).lastCs.all fun t => decide (t + 500000 ≤ (s.elapse dt).time.clock)) = true) →
      ((s.lpe.all fun x => decide (x.1 < 8)) = true) →
      ∃ t, exec (.walBackoff dt chan) s = .next t ∧
        t.walState chan.val = 2 ∧
        (t.walCh chan.val).wire = State.walCrc (State.walBytes 1 (2 + 4 * b2n s.walNt) 0x3F s.walPos (s.rd Reg.WAL_SCHEDID)
          s.time.beat 16 (s.walUpDly chan.val) s.walRankByte 0 (leBytes 4 (s.elapse dt).walNow ++ List.replicate 12 0)) ∧
        Counted (Reg.WAL_COLDSTARTS chan.val) 1 s t ∧
        Counted (Reg.WAL_TXFRAMES chan.val) 1 s t ∧
        (t.walCh chan.val).lastCs = some (s.elapse dt).time.clock ∧
        (t.walCh chan.val).window = some ((s.walCh chan.val).window.getD (s.elapse dt).time.clock) ∧
        (t.walCh chan.val).seen = (s.walCh chan.val).seen ++ [⟨s.walRank, s.walPos, s.time.beat, true, true⟩] ∧
        LeavesOut dt [9, 0x10] s t { t with wal := s.wal, lpe := s.lpe }) ∧
  (∀ (chan : Fin 2) (t0 : Nat) (x : WalCs), (s.walCh chan.val).window = some t0 →
      t0 + 250000 ≤ (s.elapse dt).time.clock →
      (s.walCh chan.val).seen = [x] →
      s.walState chan.val = 2 →
      x.own = true →
      ∃ t, exec (.contentionWindowEnd dt chan) s = .next t ∧
        t.walCh chan.val = { s.walCh chan.val with window := none, seen := [], leading := some x.cycle, gotOther := false } ∧
        Leaves dt [] s t { t with wal := { t.wal with ch := s.wal.ch } }) ∧
  (∀ (chan : Fin 2) (t0 : Nat) (x : WalCs), (s.walCh chan.val).window = some t0 →
      t0 + 250000 ≤ (s.elapse dt).time.clock →
      (s.walCh chan.val).seen = [x] →
      s.walState chan.val = 2 →
      x.own = false →
      x.onGrid = true →
      ∃ t, exec (.contentionWindowEnd dt chan) s = .next t ∧
        t.walState chan.val = 3 ∧
        t.walCh chan.val =
          { s.walCh chan.val with window := none, seen := [], leading := none, leaderPos := x.pos, cons := 1, skip := b2n (x.cycle == s.time.beat) }
          ∧
        Leaves dt [Reg.WAL_STATUS] s t { t with wal := { t.wal with ch := s.wal.ch } })

/-- A frame with a bad FCS is counted as received and dropped under that reason; a frame that passes every check with one
egress port is counted as received and delivered and joins the queue of its class there, tagged or untagged as the
port asks; learnt addresses and a recovery function age out. The end of an interval brings the next entry; a commit of
a list whose first interval is not zero is pending for the next cycle start at least 2 µs ahead, in a stretched beat
at its closing edge or after it; at that instant the bank becomes operative, with its event. Blocks other than
Ethernet and Loupe keep their registers. (R347, R349, R350, R351, R352, R358, R365, R353, R355) -/
def Obligations.EthReceive : Prop := ∀ (s : State) (dt : Nat), s.wf = true →
  (∀ (port : Fin 11) (f : EthFrame), s.unitOff 0x0A 0 = false →
      s.linkUp port.val = true →
      f.bufferFull = false →
      f.fcsOk = false →
      ((s.lpe.all fun x => decide (x.1 < 8)) = true) →
      ∃ t, exec (.ethFrameRx dt port f) s = .next t ∧
        Counted (Reg.ETH_RXFRAMES port.val) 1 s t ∧
        Counted (Reg.ETH_RXDROP port.val 1) 1 s t ∧
        t.eth = s.eth ∧
        LeavesOut dt [0x0A, 0x10] s t { t with lpe := s.lpe }) ∧
  (∀ (port : Fin 11) (f : EthFrame) (q : Nat), s.unitOff 0x0A 0 = false →
      port.val < 8 →
      s.linkUp port.val = true →
      f.bufferFull = false →
      f.fcsOk = true →
      60 ≤ f.bytes.length →
      f.bytes.length ≤ 1524 →
      beAt f.bytes 0 6 / 16 ≠ 0x0180C200000 →
      s.stp port.val = 3 →
      s.bit (Fld.ETH_PORTCFG_FRAMETYPES port.val) = false ∨ (s.classify port.val (s.getF (Fld.ETH_PORTCFG_DEFPCP port.val))
        f.bytes).tagged = true →
      (s.vlanMembers (s.classify port.val (s.getF (Fld.ETH_PORTCFG_DEFPCP port.val)) f.bytes).vid).testBit port.val = true →
      s.streamOf port.val (s.classify port.val (s.getF (Fld.ETH_PORTCFG_DEFPCP port.val)) f.bytes).vid f.bytes = none →
      (s.learn port.val f.bytes (s.classify port.val (s.getF (Fld.ETH_PORTCFG_DEFPCP port.val)) f.bytes).vid).egressPorts
        port.val (s.classify port.val (s.getF (Fld.ETH_PORTCFG_DEFPCP port.val)) f.bytes).vid f.bytes = [q] →
      q < 8 →
      s.linkUp q = true →
      (s.ethQueue q (s.classify port.val (s.getF (Fld.ETH_PORTCFG_DEFPCP port.val)) f.bytes).pcp).length < 64 →
      (s.classify port.val (s.getF (Fld.ETH_PORTCFG_DEFPCP port.val)) f.bytes).pcp < 8 →
      (((List.range 8).map fun i => ((s.ethQueue q i).map fun x => x.bytes.length).sum).sum + (s.egressBytes q (s.classify
        port.val (s.getF (Fld.ETH_PORTCFG_DEFPCP port.val)) f.bytes) (s.classify port.val (s.getF (Fld.ETH_PORTCFG_DEFPCP
        port.val)) f.bytes).inner).length ≤ 196608) →
      ((s.lpe.all fun x => decide (x.1 < 8)) = true) →
      ∃ t, exec (.ethFrameRx dt port f) s = .next t ∧
        Counted (Reg.ETH_RXFRAMES port.val) 1 s t ∧
        Counted (Reg.ETH_RXDELIV port.val) 1 s t ∧
        Counted (Reg.ETH_TXOFFERED q) 1 s t ∧
        t.ethQueue q (s.classify port.val (s.getF (Fld.ETH_PORTCFG_DEFPCP port.val)) f.bytes).pcp = s.ethQueue q (s.classify
          port.val (s.getF (Fld.ETH_PORTCFG_DEFPCP port.val)) f.bytes).pcp ++
          [{ bytes := s.egressBytes q (s.classify port.val (s.getF (Fld.ETH_PORTCFG_DEFPCP port.val)) f.bytes) (s.classify port.val (s.getF (Fld.ETH_PORTCFG_DEFPCP port.val)) f.bytes).inner, since := (s.elapse dt).time.clock, launch := none, tol := 0, tsTag := none, origin := .switched, rx := { inPort := port.val, ts := (s.elapse dt).ethStamp port.val, vid := (s.classify port.val (s.getF (Fld.ETH_PORTCFG_DEFPCP port.val)) f.bytes).vid, pcp := (s.classify port.val (s.getF (Fld.ETH_PORTCFG_DEFPCP port.val)) f.bytes).pcp, stream := 0xFFFF, tagged := (s.classify port.val (s.getF (Fld.ETH_PORTCFG_DEFPCP port.val)) f.bytes).tagged, rtag := false } }]
          ∧
        (∀ k, k ≠ q * 8 + (s.classify port.val (s.getF (Fld.ETH_PORTCFG_DEFPCP port.val)) f.bytes).pcp → tget t.eth.queues k
          = tget s.eth.queues k) ∧
        LeavesOut dt [0x0A, 0x10] s t
          { t with lpe := s.lpe, eth := { t.eth with queues := s.eth.queues, fdb := s.eth.fdb } }) ∧
  (∀ (mac vid : Nat), s.getF Fld.ETH_AGETIME_SEC ≠ 0 →
      ∃ t, exec (.fdbEntryAged dt mac vid) s = .next t ∧
        (t.eth.fdb = s.eth.fdb.filter fun x => !(x.mac == mac && x.vid == vid && decide (x.seenAt + s.getF
          Fld.ETH_AGETIME_SEC * 1000000000 ≤ (s.elapse dt).time.clock))) ∧
        Leaves dt [] s t { t with eth := { t.eth with fdb := s.eth.fdb } }) ∧
  (∀ (i : Fin 128), (tget s.eth.frer i.val).started = true →
      (tget s.eth.frer i.val).lastAt + max 1 (min 1000 (Machine.ent (s.entry16 (Reg.ETH_FRER i.val)) 4 2)) * 1000000 ≤
        (s.elapse dt).time.clock →
      ∃ t, exec (.frerResetTimeout dt i) s = .next t ∧
        tget t.eth.frer i.val = {} ∧
        Leaves dt [] s t { t with eth := { t.eth with frer := s.eth.frer } }) ∧
  (∀ (port : Fin 11) (speed : Fin 3) (v : Nat), port.val < 8 →
      v = (if s.getF (Fld.ETH_PORTCFG_SPEED port.val) = 1 ∨ s.getF (Fld.ETH_PORTCFG_SPEED port.val) = 2 then s.getF
        (Fld.ETH_PORTCFG_SPEED port.val) else speed.val) →
      PortRoom s 0x0A →
      ∃ t, exec (.ethLink dt port true speed) s = .next t ∧
        t.linkUp port.val = true ∧
        t.getF (Fld.ETH_PORTSTAT_SPEED port.val) = v ∧
        (Offered 0x0A 0x0901 2 (if 55 < s.getF Fld.ETH_EVCOLL_COLL then 0 else s.getF Fld.ETH_EVCOLL_COLL) (p4 [port.val, 1,
          v]) s t) ∧
        Leaves dt [Reg.ETH_PORTSTAT port.val] s t { t with arc := { t.arc with ports := s.arc.ports } }) ∧
  (∀ (port : Fin 11) (speed : Fin 3), port.val < 8 →
      PortRoom s 0x0A →
      (((List.range 8).all fun q => (s.ethQueue port.val q).isEmpty) = true) →
      s.onWire port.val = none →
      ∃ t, exec (.ethLink dt port false speed) s = .next t ∧
        t.linkUp port.val = false ∧
        t.getF (Fld.ETH_PORTSTAT_SPEED port.val) = 0 ∧
        (Offered 0x0A 0x0901 2 (if 55 < s.getF Fld.ETH_EVCOLL_COLL then 0 else s.getF Fld.ETH_EVCOLL_COLL) (p4 [port.val, 0,
          0]) s t) ∧
        Leaves dt [Reg.ETH_PORTSTAT port.val] s t
          { t with arc := { t.arc with ports := s.arc.ports }, eth := { t.eth with queues := s.eth.queues } }) ∧
  (∀ (port : Fin 8) (x y : Nat × Nat) (rest : List (Nat × Nat)), (s.gclList port.val (s.getF (Fld.ETH_PORTSTAT_GCLBANK
    port.val))).drop (tget s.eth.gcl port.val).idx = x :: y :: rest →
      (tget s.eth.gcl port.val).startMt + x.1 ≤ (s.elapse dt).time.mt →
      ∃ t, exec (.gateIntervalEnd dt port) s = .next t ∧
        tget t.eth.gcl port.val =
          { tget s.eth.gcl port.val with idx := (tget s.eth.gcl port.val).idx + 1, startMt := (tget s.eth.gcl port.val).startMt + x.1 }
          ∧
        (∀ k, k ≠ port.val → tget t.eth.gcl k = tget s.eth.gcl k) ∧
        Leaves dt [] s t { t with eth := { t.eth with gcl := s.eth.gcl } }) ∧
  (∀ (req : Requester) (port : Fin 8) (value : Word) (bank k : Nat), Lets s req (Reg.ETH_GCLCTL port.val) →
      value.toNat.testBit 9 = true →
      bank = value.toNat / 256 % 2 →
      k = value.toNat % 8 →
      k ≠ 7 →
      s.getF (Fld.ETH_GCL_INTERVAL port.val bank 0) ≠ 0 →
      ∃ t, exec (.ethGclCommit dt req port value) s = .next t ∧
        Answered t 0 0 ∧
        t.getF (Fld.ETH_GCLCTL_BANK port.val) = bank ∧
        t.getF (Fld.ETH_GCLCTL_CTEXP port.val) = k ∧
        t.bit (Fld.ETH_PORTSTAT_GCLPEND port.val) = true ∧
        ((tget t.eth.gcl port.val).pend = some (bank, k, ((if s.bit Fld.TIM_STATUS_STRETCH then max ((s.elapse dt).time.mt +
          2000) s.time.edgeAt else (s.elapse dt).time.mt + 2000) + State.gclCT k - 1) / State.gclCT k * State.gclCT k)) ∧
        (∀ k, k ≠ port.val → tget t.eth.gcl k = tget s.eth.gcl k) ∧
        Leaves dt [Reg.ETH_GCLCTL port.val, Reg.ETH_PORTSTAT port.val] s t { t with eth := { t.eth with gcl := s.eth.gcl } })
          ∧
  (∀ (port : Fin 8) (bank k at_ : Nat), (tget s.eth.gcl port.val).pend = some (bank, k, at_) →
      at_ ≤ (s.elapse dt).time.mt →
      PortRoom s 0x0A →
      ∃ t, exec (.ethGclSwitch dt port) s = .next t ∧
        t.getF (Fld.ETH_PORTSTAT_GCLBANK port.val) = bank % 2 ∧
        t.bit (Fld.ETH_PORTSTAT_GCLPEND port.val) = false ∧
        tget t.eth.gcl port.val = { idx := 0, startMt := (s.elapse dt).time.mt, ctexp := k, pend := none } ∧
        (Offered 0x0A 0x0902 1 (if 55 < s.getF Fld.ETH_EVCOLL_COLL then 0 else s.getF Fld.ETH_EVCOLL_COLL) (p4 [port.val,
          bank, k]) s t) ∧
        (∀ k, k ≠ port.val → tget t.eth.gcl k = tget s.eth.gcl k) ∧
        Leaves dt [Reg.ETH_PORTSTAT port.val] s t
          { t with eth := { t.eth with gcl := s.eth.gcl }, arc := { t.arc with ports := s.arc.ports } })

/-- At a free port the frame that transmission selection names goes on the wire, with its requested timestamp; one with a
launch time waits for it; when it has passed it is counted as sent, and its descriptor completes with DONE; frames
that wait more than 500 ms are dropped under their reason. Blocks other than Ethernet, time and Loupe keep their
registers. (R73, R74, R77, R78, R352, R354, R363, R365) -/
def Obligations.EthTransmit : Prop := ∀ (s : State) (dt : Nat), s.wf = true →
  (∀ (port : Fin 11) (q : Nat) (f : EthQ), port.val ≠ 8 →
      port.val ≠ 9 →
      s.onWire port.val = none →
      s.linkUp port.val = true →
      s.unitOff 0x0A 0 = false →
      (s.elapse dt).txSelect port.val = some (q, f) →
      f.launch = none →
      f.tsTag = none →
      ∃ t, exec (.ethFrameTxStart dt port) s = .next t ∧
        t.onWire port.val = some { f with late := 0, sentAt := (s.elapse dt).time.clock } ∧
        t.ethQueue port.val q = (s.ethQueue port.val q).tail ∧
        (∀ k, k ≠ port.val * 8 + q → tget t.eth.queues k = tget s.eth.queues k) ∧
        Leaves dt [] s t { t with eth := { t.eth with queues := s.eth.queues, sending := s.eth.sending } }) ∧
  (∀ (port : Fin 11) (queue : Fin 8) (f : EthQ) (rest : List EthQ) (at_ tag : Nat), port.val ≠ 8 →
      port.val ≠ 9 →
      s.onWire port.val = none →
      s.linkUp port.val = true →
      s.unitOff 0x0A 0 = false →
      (s.elapse dt).txSelect port.val = some (queue.val, f) →
      s.ethQueue port.val queue.val = f :: rest →
      f.launch = some at_ →
      at_ ≤ (s.elapse dt).planeMt port.val →
      (s.elapse dt).planeMt port.val - at_ ≤ f.tol →
      f.tsTag = some tag →
      port.val < 8 →
      (tget s.tsq port.val).entries.length < 16 →
      ∃ t, exec (.launchTimeReached dt port queue) s = .next t ∧
        t.onWire port.val = some { f with late := (s.elapse dt).planeMt port.val - at_, sentAt := (s.elapse dt).time.clock }
          ∧
        t.ethQueue port.val queue.val = rest ∧
        (∀ k, k ≠ port.val * 8 + queue.val → tget t.eth.queues k = tget s.eth.queues k) ∧
        Counted (Reg.TIM_TSQREQ port.val) 1 s t ∧
        (tget t.tsq port.val).entries = (tget s.tsq port.val).entries ++ [⟨tag % 65536, (tget s.tsq port.val).nextSeq,
          (s.elapse dt).planeMt port.val / 8 * 8⟩] ∧
        t.getF (Fld.TIM_TSQDEPTH_DEPTH port.val) = (tget s.tsq port.val).entries.length + 1 ∧
        Leaves dt (([Reg.TIM_TSQDEPTH port.val] ++ two (Reg.TIM_TSQREQ port.val))) s t
          { t with tsq := s.tsq, eth := { t.eth with queues := s.eth.queues, sending := s.eth.sending } }) ∧
  (∀ (port : Fin 11) (queue : Fin 8) (f : EthQ) (rest : List EthQ) (at_ : Nat), s.ethQueue port.val queue.val = f :: rest →
      f.launch = some at_ →
      (s.elapse dt).planeMt port.val < at_ →
      ∃ t, exec (.launchTimeReached dt port queue) s = .next t ∧
        t.eth = s.eth ∧
        Leaves dt [] s t t) ∧
  (∀ (port : Fin 11) (f : EthQ), s.onWire port.val = some f →
      f.origin = .switched →
      ((s.lpe.all fun x => decide (x.1 < 8)) = true) →
      ∃ t, exec (.ethTxComplete dt port) s = .next t ∧
        t.onWire port.val = none ∧
        Counted (Reg.ETH_TXSENT port.val) 1 s t ∧
        Counted (Reg.ETH_TXLATE port.val) (b2n (f.late != 0)) s t ∧
        LeavesOut dt [0x0A, 0x10] s t { t with lpe := s.lpe, eth := { t.eth with sending := s.eth.sending } }) ∧
  (∀ (port : Fin 11) (f : EthQ) (r d : Nat), s.onWire port.val = some f →
      f.origin = .ring r d →
      f.late = 0 →
      r < 18 →
      (s.ring .eth r).pend = [⟨d, none⟩] →
      ((s.lpe.all fun x => decide (x.1 < 8)) = true) →
      regionOf (s.rd64 (ringRegs .eth r).cbase / 64 * 64 % 0x10000000000 + (s.ring .eth r).cidx * 32) = some .ddr →
      s.rangeCheck .d true (s.rd64 (ringRegs .eth r).cbase / 64 * 64 % 0x10000000000 + (s.ring .eth r).cidx * 32) 32 = 0 →
      ∃ t, exec (.ethTxComplete dt port) s = .next t ∧
        t.onWire port.val = none ∧
        Counted (Reg.ETH_TXSENT port.val) 1 s t ∧
        Counted (ringRegs .eth r).compl 1 s t ∧
        (t.ring .eth r).pend = [] ∧
        (∀ a, t.memGet a = (s.memPut (s.rd64 (ringRegs .eth r).cbase / 64 * 64 % 0x10000000000 + (s.ring .eth r).cidx * 32)
          (leBytes 2 d ++ leBytes 1 0 ++ [BitVec.ofNat 8 (b2n (s.ring .eth r).cphase)] ++ List.replicate 28 0)).memGet a) ∧
        (t.ring .eth r).cidx = ((s.ring .eth r).cidx + 1) % s.ringSize .eth r ∧
        LeavesStore dt (two (Reg.ETH_TXSENT port.val) ++ two (ringRegs .eth r).compl) s t
          { t with rings := s.rings, eth := { t.eth with sending := s.eth.sending } }) ∧
  (∀ (port : Fin 11) (queue : Fin 8), (((s.ethQueue port.val queue.val).all fun f => decide (f.origin = .switched)) = true) →
      ∃ t, exec (.frameAged dt port queue) s = .next t ∧
        (t.ethQueue port.val queue.val = (s.ethQueue port.val queue.val).filter fun f => !(fun f => f.launch.isNone && decide
          (f.since + 500000000 < (s.elapse dt).time.clock)) f) ∧
        (Counted (Reg.ETH_TXDROP port.val 4) ((s.ethQueue port.val queue.val).filter (fun f => f.launch.isNone && decide
          (f.since + 500000000 < (s.elapse dt).time.clock))).length s t) ∧
        (∀ k, k ≠ port.val * 8 + queue.val → tget t.eth.queues k = tget s.eth.queues k) ∧
        Leaves dt ((two (Reg.ETH_TXDROP port.val 4))) s t { t with eth := { t.eth with queues := s.eth.queues } })

/-- A well-formed directed descriptor puts its frame, padded, in the egress queue of its port and stays pending until it
ends; a received frame goes to the buffer of the next receive descriptor with its completion; a disable of a ring
without descriptors and frames clears its enable. Every byte of memory outside the buffer and the completion is as
before. (R360, R361, R362, R363, R364) -/
def Obligations.EthRings : Prop := ∀ (s : State) (dt : Nat), s.wf = true →
  (∀ (ring : Fin 18) (ended : ReadEnd) (d bs : List Byte) (p pcp : Nat), ring.val < 8 →
      s.unitOff 0x0A 0 = false →
      s.ringOn .eth ring.val = true →
      s.ringWaiting .eth ring.val ≠ 0 →
      s.headRead .eth ring.val = 0 →
      d = (s.headDesc .eth ring.val) →
      (s.elapse dt).txRefused ring.val d = false →
      s.readStatus ended .d (Machine.ent d 0 5) (Machine.ent d 8 2) = 0 →
      bs = s.memRead (Machine.ent d 0 5) (Machine.ent d 8 2) →
      (Machine.ent d 10 1).testBit 0 = true →
      (Machine.ent d 10 1).testBit 1 = false →
      (Machine.ent d 10 1).testBit 2 = false →
      (Machine.ent d 10 1).testBit 3 = false →
      (Machine.ent d 10 1).testBit 4 = false →
      p = Machine.ent d 11 1 →
      pcp = (if beAt bs 12 2 = 0x8100 then beAt bs 14 2 / 8192 else ring.val) →
      s.linkUp p = true →
      s.mayLeave p (padFrame bs) = true →
      (s.ethQueue p pcp).length < 64 →
      pcp < 8 →
      (((List.range 8).map fun i => ((s.ethQueue p i).map fun x => x.bytes.length).sum).sum + (padFrame bs).length ≤ 196608)
        →
      ((s.lpe.all fun x => decide (x.1 < 8)) = true) →
      ∃ t, exec (.ethTxDescTaken dt ring ended) s = .next t ∧
        t.ethQueue p pcp = s.ethQueue p pcp ++
          [{ bytes := padFrame bs, since := (s.elapse dt).time.clock, launch := none, tol := s.rd (Reg.ETH_LTTOL ring.val), tsTag := none, origin := .ring ring.val (s.ring .eth ring.val).head, rx := noMeta 8 ((s.elapse dt).ethStamp 8) }]
          ∧
        (∀ k, k ≠ p * 8 + pcp → tget t.eth.queues k = tget s.eth.queues k) ∧
        (t.ring .eth ring.val).pend = (s.ring .eth ring.val).pend ++ [⟨(s.ring .eth ring.val).head, none⟩] ∧
        (t.ring .eth ring.val).head = ((s.ring .eth ring.val).head + 1) % s.ringSize .eth ring.val ∧
        Counted (Reg.ETH_RXFRAMES 8) 1 s t ∧
        Counted (Reg.ETH_RXDELIV 8) 1 s t ∧
        Counted (Reg.ETH_TXOFFERED p) 1 s t ∧
        LeavesOut dt [0x0A, 0x10] s t
          { t with lpe := s.lpe, rings := s.rings, eth := { t.eth with queues := s.eth.queues } }) ∧
  (∀ (ring : Fin 18) (f : EthQ) (rest : List EthQ) (d : List Byte) (buf n : Nat), 8 ≤ ring.val →
      ring.val < 16 →
      s.unitOff 0x0A 0 = false →
      tget s.eth.queues (64 + (ring.val - 8)) = f :: rest →
      s.ringOn .eth ring.val = true →
      s.ringWaiting .eth ring.val ≠ 0 →
      s.headRead .eth ring.val = 0 →
      d = (s.headDesc .eth ring.val) →
      n = Machine.ent d 8 2 →
      128 ≤ n →
      n ≤ 16384 →
      f.bytes.length ≤ n →
      f.bytes ≠ [] →
      Machine.ent d 5 3 = 0 →
      Machine.ent d 10 6 = 0 →
      buf = Machine.ent d 0 5 →
      s.rangeCheck .d true buf f.bytes.length = 0 →
      regionOf buf = some .ddr →
      regionOf (s.rd64 (ringRegs .eth ring.val).cbase / 64 * 64 % 0x10000000000 + (s.ring .eth ring.val).cidx * 32) = some
        .ddr →
      s.rangeCheck .d true (s.rd64 (ringRegs .eth ring.val).cbase / 64 * 64 % 0x10000000000 + (s.ring .eth ring.val).cidx *
        32) 32 = 0 →
      ((s.lpe.all fun x => decide (x.1 < 8)) = true) →
      ∃ t, exec (.ethRxRingDelivery dt ring) s = .next t ∧
        (∀ a, t.memGet a = ((s.memPut buf f.bytes).memPut (s.rd64 (ringRegs .eth ring.val).cbase / 64 * 64 % 0x10000000000 +
          (s.ring .eth ring.val).cidx * 32) (leBytes 2 (s.ring .eth ring.val).head ++ leBytes 1 0 ++ [BitVec.ofNat 8 (b2n
          (s.ring .eth ring.val).cphase)] ++ (leBytes 2 f.bytes.length ++ leBytes 1 f.rx.inPort ++ leBytes 1 (csumFlags
          f.bytes + 8 * b2n f.rx.tagged + 16 * b2n f.rx.rtag) ++ leBytes 8 f.rx.ts ++ leBytes 2 (f.rx.vid + 8192 * f.rx.pcp)
          ++ leBytes 2 f.rx.stream) ++ List.replicate 12 0)).memGet a) ∧
        tget t.eth.queues (64 + (ring.val - 8)) = rest ∧
        (∀ k, k ≠ 64 + (ring.val - 8) → tget t.eth.queues k = tget s.eth.queues k) ∧
        Counted (Reg.ETH_TXSENT 8) 1 s t ∧
        Counted (ringRegs .eth ring.val).compl 1 s t ∧
        (t.ring .eth ring.val).head = ((s.ring .eth ring.val).head + 1) % s.ringSize .eth ring.val ∧
        LeavesStore dt (two (Reg.ETH_TXSENT 8) ++ two (ringRegs .eth ring.val).compl) s t
          { t with rings := s.rings, eth := { t.eth with queues := s.eth.queues } }) ∧
  (∀ (req : Requester) (ring : Fin 18), Lets s req (Reg.ETH_RCTL ring.val) →
      s.ringOn .eth ring.val = true →
      s.ringWaiting .eth ring.val = 0 →
      s.eth.queues = [] →
      ∃ t, exec (.ethRingDisable dt req ring) s = .next t ∧
        Answered t 0 0 ∧
        t.ringOn .eth ring.val = false ∧
        Leaves dt [Reg.ETH_RCTL ring.val] s t t)

/-- The telegram that has waited longest for a host leaves the queue of the engine. One of an enabled subscription that
passes the checks of host 1 becomes its data with its sequence counter and time, is counted as delivered, and changes
memory in the working area of the engine only; one that names no subscription is counted under that reason. A local
announcement that the checks accept joins the pending snapshots, is counted, and leaves through port 8. Blocks other
than those named keep their registers. (R81, R82, R366, R373, R374, R379) -/
def Obligations.TrdpTelegrams : Prop := ∀ (s : State) (dt : Nat), s.wf = true →
  (∀ (host : Fin 2) (f : EthQ) (rest : List EthQ) (tel : Telegram) (i : Nat) (e : List Byte), s.unitOff 0x0B 0 = false →
      tget s.eth.engine host.val = f :: rest →
      telegramOf f.bytes = some tel →
      tel.isPd = true →
      tel.ipOk = true →
      tel.headerOk = true →
      host = 1 →
      s.trdpFind host.val tel.comId tel.dstIp = some i →
      e = s.catEntry .trdp i →
      Machine.ent e 8 4 = 0 ∨ Machine.ent e 8 4 = tel.etbTopo →
      Machine.ent e 12 4 = 0 ∨ Machine.ent e 12 4 = tel.opTopo →
      (Machine.ent e 0 1).testBit 5 = false ∨ beAt e 32 4 = tel.srcIp →
      tel.dataset.length = trdpDlen e →
      (s.dataRec 0x0B i).seq ≠ some tel.seqCount →
      ∃ t, exec (.trdpTelegramRx dt host f.bytes) s = .next t ∧
        Counted (Reg.TRDP_DELIV host.val) 1 s t ∧
        t.dataRec 0x0B i =
          { s.dataRec 0x0B i with data := tel.dataset, rlen := tel.dataset.length, seq := some tel.seqCount, rxmt := f.rx.ts, hits := (s.dataRec 0x0B i).hits + 1, lastSeq := some s.time.beatSeq }
          ∧
        (∀ k, k ≠ recKey 0x0B i → tget t.bus.recs k = tget s.bus.recs k) ∧
        (∀ a, (s.getF Fld.TRDP_WORKBASE_BASE = 0 ∨ a < s.getF Fld.TRDP_WORKBASE_BASE * 0x800000 ∨ s.getF
          Fld.TRDP_WORKBASE_BASE * 0x800000 + 0x800000 ≤ a) → t.memGet a = s.memGet a) ∧
        tget t.eth.engine host.val = rest ∧
        (∀ k, k ≠ host.val → tget t.eth.engine k = tget s.eth.engine k) ∧
        LeavesStore dt (two (Reg.TRDP_DELIV host.val)) s t
          { t with bus := { t.bus with recs := s.bus.recs }, eth := { t.eth with engine := s.eth.engine } }) ∧
  (∀ (host : Fin 2) (f : EthQ) (rest : List EthQ) (tel : Telegram), s.unitOff 0x0B 0 = false →
      tget s.eth.engine host.val = f :: rest →
      telegramOf f.bytes = some tel →
      tel.isPd = true →
      tel.ipOk = true →
      tel.headerOk = true →
      s.trdpFind host.val tel.comId tel.dstIp = none →
      ∃ t, exec (.trdpTelegramRx dt host f.bytes) s = .next t ∧
        Counted (Reg.TRDP_RXDROP host.val 4) 1 s t ∧
        t.bus = s.bus ∧
        tget t.eth.engine host.val = rest ∧
        (∀ k, k ≠ host.val → tget t.eth.engine k = tget s.eth.engine k) ∧
        Leaves dt ((two (Reg.TRDP_RXDROP host.val 4))) s t { t with eth := { t.eth with engine := s.eth.engine } }) ∧
  (∀ (req : Requester) (a : Announce), Lets s req Reg.INV_ANN_GO →
      a = s.localAnnounce →
      ((s.lpe.all fun x => decide (x.1 < 8)) = true) →
      s.rd Reg.TRDP_INVGRP ≠ 0 →
      a.snapId ≠ 0 →
      a.instant % 250000 = 0 →
      (s.elapse dt).time.mt + 500000 ≤ a.instant →
      a.instant ≤ (s.elapse dt).time.mt + 60000000000 →
      ((s.inv.pending.all fun p => p.1 != a.snapId && p.2 != a.instant) = true) →
      s.inv.pending.length < 4 →
      s.unitOff 0x18 0 = false →
      ∃ t, exec (.invAnnGo dt req true) s = .next t ∧
        Answered t 0 0 ∧
        Counted (Reg.ETH_RXFRAMES 8) 1 s t ∧
        t.inv.pending = s.inv.pending ++ [(a.snapId, a.instant)] ∧
        t.getF Fld.INV_STATUS_PENDING = s.inv.pending.length + 1 ∧
        Counted Reg.INV_ANNRX 1 s t ∧
        Counted Reg.INV_ANNACCEPT 1 s t ∧
        LeavesOut dt [0x18, 0x11, 0x0A, 0x10] s t
          { t with csc := s.csc, eth := s.eth, lpe := s.lpe, freeCtr := s.freeCtr, inv := { t.inv with pending := s.inv.pending } })

/-- A frame that matches an enabled receive entry of its length becomes the data of the entry with its time and is counted
as received and delivered; a frame that a full FIFO drops is counted under that reason and, on RS-485, reported; on
MVB a bad copy of the trusted line is counted and the other line is trusted; a half-duplex RS-485 port ignores what
ends while its own frame is on the line. Nothing else changes. (R385, R391, R394, R395, R396, R397) -/
def Obligations.SerialReceive : Prop := ∀ (s : State) (dt : Nat), s.wf = true →
  (∀ (m : MvbInstant) (i : Nat), s.serLive .mvb 0 = true →
      s.bit Fld.MVB_CFG_LINEEN_A = true →
      s.bit Fld.MVB_CFG_LINEEN_B = true →
      m.validB = true →
      m.messageData = false →
      s.bit Fld.MVB_LINESTAT_FAULT_A = false →
      s.bit Fld.MVB_LINESTAT_FAULT_B = false →
      (s.serFind .mvb (fun e => !m.messageData && !m.deviceStatus && Machine.ent e 8 4 % 4096 == m.port) = some i) →
      m.data.length = serDlen (s.catEntry .mvb i) →
      s.getF Fld.MVB_LINESTAT_TRUSTED = 0 →
      m.deviceStatus = false →
      m.validA = true →
      m.fifoFull = false →
      ∃ t, exec (.mvbFrameInstant dt m) s = .next t ∧
        Counted (serRxFrames .mvb 0) 1 s t ∧
        Counted (serDeliv .mvb 0) 1 s t ∧
        t.dataRec (serIdx .mvb) i =
          { s.dataRec (serIdx .mvb) i with data := m.data, rlen := m.data.length, rxmt := (s.elapse dt).time.mt, hits := (s.dataRec (serIdx .mvb) i).hits + 1, lastSeq := some s.time.beatSeq }
          ∧
        (∀ k, k ≠ recKey (serIdx .mvb) i → tget t.bus.recs k = tget s.bus.recs k) ∧
        Leaves dt ((two (serRxFrames .mvb 0) ++ two (serDeliv .mvb 0))) s t
          { t with bus := { t.bus with recs := s.bus.recs, mvbBad := s.bus.mvbBad, mvbGood := s.bus.mvbGood } }) ∧
  (∀ (m : MvbInstant), s.serLive .mvb 0 = true →
      s.bit Fld.MVB_CFG_LINEEN_A = true →
      s.bit Fld.MVB_CFG_LINEEN_B = true →
      m.validB = true →
      m.messageData = false →
      s.bit Fld.MVB_LINESTAT_FAULT_A = false →
      s.bit Fld.MVB_LINESTAT_FAULT_B = false →
      s.getF Fld.MVB_LINESTAT_TRUSTED = 0 →
      m.validA = true →
      m.fifoFull = true →
      ∃ t, exec (.mvbFrameInstant dt m) s = .next t ∧
        Counted (serRxFrames .mvb 0) 1 s t ∧
        Counted (serRxDrop .mvb 0 5) 1 s t ∧
        t.bus.recs = s.bus.recs ∧
        Leaves dt ((two (serRxFrames .mvb 0) ++ two (serRxDrop .mvb 0 5))) s t
          { t with bus := { t.bus with recs := s.bus.recs, mvbBad := s.bus.mvbBad, mvbGood := s.bus.mvbGood } }) ∧
  (∀ (m : MvbInstant) (i : Nat), s.serLive .mvb 0 = true →
      s.bit Fld.MVB_CFG_LINEEN_A = true →
      s.bit Fld.MVB_CFG_LINEEN_B = true →
      m.validB = true →
      m.messageData = false →
      s.bit Fld.MVB_LINESTAT_FAULT_A = false →
      s.bit Fld.MVB_LINESTAT_FAULT_B = false →
      (s.serFind .mvb (fun e => !m.messageData && !m.deviceStatus && Machine.ent e 8 4 % 4096 == m.port) = some i) →
      m.data.length = serDlen (s.catEntry .mvb i) →
      s.getF Fld.MVB_LINESTAT_TRUSTED = 0 →
      m.deviceStatus = false →
      m.validA = false →
      m.fifoFull = false →
      tget s.bus.mvbBad 0 < 7 →
      ∃ t, exec (.mvbFrameInstant dt m) s = .next t ∧
        Counted (serRxFrames .mvb 0) 1 s t ∧
        Counted (serDeliv .mvb 0) 1 s t ∧
        t.dataRec (serIdx .mvb) i =
          { s.dataRec (serIdx .mvb) i with data := m.data, rlen := m.data.length, rxmt := (s.elapse dt).time.mt, hits := (s.dataRec (serIdx .mvb) i).hits + 1, lastSeq := some s.time.beatSeq }
          ∧
        (∀ k, k ≠ recKey (serIdx .mvb) i → tget t.bus.recs k = tget s.bus.recs k) ∧
        t.getF Fld.MVB_LINESTAT_TRUSTED = 1 ∧
        Counted Reg.MVB_LINESWITCH 1 s t ∧
        Counted (Reg.MVB_LINEERR 0) 1 s t ∧
        tget t.bus.mvbBad 0 = tget s.bus.mvbBad 0 + 1 ∧
        Leaves dt (([Reg.MVB_LINESTAT] ++ two (serRxFrames .mvb 0) ++ two (serDeliv .mvb 0) ++ two Reg.MVB_LINESWITCH ++ two
          (Reg.MVB_LINEERR 0))) s t
          { t with bus := { t.bus with recs := s.bus.recs, mvbBad := s.bus.mvbBad, mvbGood := s.bus.mvbGood } }) ∧
  (∀ (u : Fin 4) (f : CanFrame) (i : Nat), s.serLive .can u.val = true →
      (!f.fdf || s.bit (Fld.CAN_CTL_FD u.val)) = true →
      s.getF (Fld.CAN_ERR_STATE u.val) = 0 →
      s.getF (Fld.CAN_ERR_TEC u.val) < 128 →
      s.getF (Fld.CAN_ERR_REC u.val) < 128 →
      f.fifoFull = false →
      (s.serFind .can (fun e => serMatch .can e == (u.val, canKey (f.ident % 0x20000000 + 0x20000000 * b2n f.ide + 0x40000000
        * b2n f.fdf + 0x80000000 * b2n f.brs))) = some i) →
      f.data.length = serDlen (s.catEntry .can i) →
      ∃ t, exec (.canFrameRx dt u f) s = .next t ∧
        Counted (serRxFrames .can u.val) 1 s t ∧
        Counted (serDeliv .can u.val) 1 s t ∧
        t.getF (Fld.CAN_ERR_REC u.val) = s.getF (Fld.CAN_ERR_REC u.val) - 1 ∧
        t.getF (Fld.CAN_ERR_STATE u.val) = 0 ∧
        t.dataRec (serIdx .can) i =
          { s.dataRec (serIdx .can) i with data := f.data, rlen := f.data.length, rxmt := (s.elapse dt).time.mt, hits := (s.dataRec (serIdx .can) i).hits + 1, lastSeq := some s.time.beatSeq }
          ∧
        (∀ k, k ≠ recKey (serIdx .can) i → tget t.bus.recs k = tget s.bus.recs k) ∧
        Leaves dt (([Reg.CAN_ERR u.val] ++ two (serRxFrames .can u.val) ++ two (serDeliv .can u.val))) s t
          { t with freeCtr := s.freeCtr, bus := { t.bus with recs := s.bus.recs } }) ∧
  (∀ (u : Fin 4) (f : CanFrame), s.serLive .can u.val = true →
      (!f.fdf || s.bit (Fld.CAN_CTL_FD u.val)) = true →
      s.getF (Fld.CAN_ERR_STATE u.val) = 0 →
      s.getF (Fld.CAN_ERR_TEC u.val) < 128 →
      s.getF (Fld.CAN_ERR_REC u.val) < 128 →
      f.fifoFull = true →
      ∃ t, exec (.canFrameRx dt u f) s = .next t ∧
        Counted (serRxFrames .can u.val) 1 s t ∧
        Counted (serRxDrop .can u.val 5) 1 s t ∧
        t.bus = s.bus ∧
        Leaves dt (([Reg.CAN_ERR u.val] ++ two (serRxFrames .can u.val) ++ two (serRxDrop .can u.val 5))) s t
          { t with freeCtr := s.freeCtr }) ∧
  (∀ (u : Fin 4) (f : SerFrame) (i : Nat), s.serLive .ser u.val = true →
      (s.bit (Fld.SER_CFG_FULLDUP u.val) || (!s.serBusy .ser u.val && decide (tget s.bus.driven u.val ≤ (s.elapse
        dt).time.clock - (if s.bit (Fld.SER_CFG_HDLC u.val) || decide (f.data.length = 64) then 0 else s.serGapNs u.val)))) =
        true →
      f.fifoFull = false →
      f.errorFree = true →
      s.serFind .ser (State.serHit u.val f.data) = some i →
      f.data.length = serDlen (s.catEntry .ser i) →
      f.data.length ≤ 64 →
      ∃ t, exec (.serFrameEnd dt u f) s = .next t ∧
        Counted (serRxFrames .ser u.val) 1 s t ∧
        Counted (serDeliv .ser u.val) 1 s t ∧
        (t.dataRec (serIdx .ser) i =
          { s.dataRec (serIdx .ser) i with data := f.data, rlen := f.data.length, rxmt := (s.elapse dt).time.mt - (if s.bit (Fld.SER_CFG_HDLC u.val) || decide (f.data.length = 64) then 0 else s.serGapNs u.val), hits := (s.dataRec (serIdx .ser) i).hits + 1, lastSeq := some s.time.beatSeq })
          ∧
        (∀ k, k ≠ recKey (serIdx .ser) i → tget t.bus.recs k = tget s.bus.recs k) ∧
        Leaves dt ((two (serRxFrames .ser u.val) ++ two (serDeliv .ser u.val))) s t
          { t with bus := { t.bus with recs := s.bus.recs, idleFrom := s.bus.idleFrom } }) ∧
  (∀ (u : Fin 4) (f : SerFrame), s.serLive .ser u.val = true →
      (s.bit (Fld.SER_CFG_FULLDUP u.val) || (!s.serBusy .ser u.val && decide (tget s.bus.driven u.val ≤ (s.elapse
        dt).time.clock - s.serAgo u.val f.data))) = true →
      f.fifoFull = false →
      f.errorFree = false →
      ∃ t, exec (.serFrameEnd dt u f) s = .next t ∧
        Counted (serRxFrames .ser u.val) 1 s t ∧
        Counted (serRxDrop .ser u.val 1) 1 s t ∧
        t.bus.recs = s.bus.recs ∧
        Leaves dt ((two (serRxFrames .ser u.val) ++ two (serRxDrop .ser u.val 1))) s t
          { t with bus := { t.bus with idleFrom := s.bus.idleFrom } }) ∧
  (∀ (u : Fin 4) (f : SerFrame), s.serLive .ser u.val = true →
      (s.bit (Fld.SER_CFG_FULLDUP u.val) || (!s.serBusy .ser u.val && decide (tget s.bus.driven u.val ≤ (s.elapse
        dt).time.clock - s.serAgo u.val f.data))) = true →
      f.fifoFull = true →
      PortRoom s 0x0E →
      ∃ t, exec (.serFrameEnd dt u f) s = .next t ∧
        Counted (serRxFrames .ser u.val) 1 s t ∧
        Counted (serRxDrop .ser u.val 5) 1 s t ∧
        t.bus.recs = s.bus.recs ∧
        (Offered 0x0E 0x0D02 3 (if 55 < s.rd (serIdx .ser * 0x10000 + 4) % 64 then 0 else s.rd (serIdx .ser * 0x10000 + 4) %
          64) (p4 [u.val]) s t) ∧
        Leaves dt ((two (serRxFrames .ser u.val) ++ two (serRxDrop .ser u.val 5))) s t
          { t with arc := { t.arc with ports := s.arc.ports }, bus := { t.bus with idleFrom := s.bus.idleFrom } }) ∧
  (∀ (u : Fin 4) (f : SerFrame), s.serLive .ser u.val = true →
      s.bit (Fld.SER_CFG_FULLDUP u.val) = false →
      s.serBusy .ser u.val = true →
      ∃ t, exec (.serFrameEnd dt u f) s = .next t ∧
        t.bus = s.bus ∧
        Leaves dt [] s t t) ∧
  (∀ (u : Fin 4), s.serLive .ser u.val = true →
      PortRoom s 0x0E →
      ∃ t, exec (.serOverrun dt u) s = .next t ∧
        Counted (serRxFrames .ser u.val) 1 s t ∧
        Counted (serRxDrop .ser u.val 5) 1 s t ∧
        (Offered 0x0E 0x0D02 3 (if 55 < s.rd (serIdx .ser * 0x10000 + 4) % 64 then 0 else s.rd (serIdx .ser * 0x10000 + 4) %
          64) (p4 [u.val]) s t) ∧
        Leaves dt ((two (serRxFrames .ser u.val) ++ two (serRxDrop .ser u.val 5))) s t
          { t with arc := { t.arc with ports := s.arc.ports } })

/-- A master frame that asks an enabled port, or the status of the module's own device address, is answered and counted; a
queued frame whose launch time has come starts on a free line; when it has passed it leaves the queue and is counted;
a stale one is dropped under its reason; an error frame is counted and raises the error counters, by 8 for a
transmitter and 1 for a receiver and 8 for each further cause (the model takes these steps from ISO 11898-1,
assumption 84), and a transmit error counter above 255 brings bus-off, counted and reported, from which an automatic
recovery returns. Nothing else changes. (R390, R392, R393, R394, R396, R397) -/
def Obligations.SerialTransmit : Prop := ∀ (s : State) (dt : Nat), s.wf = true →
  (∀ (port i : Nat), s.serLive .mvb 0 = true →
      (((List.range (s.cat .mvb).count).find? fun i => s.serUse .mvb i && serTx (s.catEntry .mvb i) && Machine.ent
        (s.catEntry .mvb i) 8 4 % 4096 == port && (s.dataRec (serIdx .mvb) i).relSeq.isSome) = some i) →
      (Machine.ent (s.catEntry .mvb i) 0 1).testBit 3 = false ∨ s.serves = true →
      ∃ t, exec (.mvbMasterFrame dt (.port port)) s = .next t ∧
        Counted (serOffered .mvb 0) 1 s t ∧
        Counted (serSent .mvb 0) 1 s t ∧
        Leaves dt ((two (serOffered .mvb 0) ++ two (serSent .mvb 0))) s t t) ∧
  (∀ (port i : Nat), s.serLive .mvb 0 = true →
      (((List.range (s.cat .mvb).count).find? fun i => s.serUse .mvb i && serTx (s.catEntry .mvb i) && Machine.ent
        (s.catEntry .mvb i) 8 4 % 4096 == port && (s.dataRec (serIdx .mvb) i).relSeq.isSome) = some i) →
      (Machine.ent (s.catEntry .mvb i) 0 1).testBit 3 = true →
      s.serves = false →
      ∃ t, exec (.mvbMasterFrame dt (.port port)) s = .next t ∧
        Counted (serNoCust .mvb 0) 1 s t ∧
        Leaves dt ((two (serNoCust .mvb 0))) s t t) ∧
  (∀ (addr : Nat), s.serLive .mvb 0 = true →
      addr = s.getF Fld.MVB_CFG_DEVADDR →
      ∃ t, exec (.mvbMasterFrame dt (.device addr)) s = .next t ∧
        Counted (serOffered .mvb 0) 1 s t ∧
        Counted (serSent .mvb 0) 1 s t ∧
        Leaves dt ((two (serOffered .mvb 0) ++ two (serSent .mvb 0))) s t t) ∧
  (∀ (blk : SerBlk) (who : SerWho) (x : SerTx), (s.elapse dt).serLaunch blk who = some x →
      s.serMay blk x.unit = true →
      s.serBusy blk x.unit = false →
      (s.elapse dt).serQuiet blk x.unit = true →
      s.canFdOk blk x.unit x.ident = true →
      ∃ t, exec (.serialTxLaunch dt blk who) s = .next t ∧
        x ∈ s.bus.queue ∧
        x.blk = serIdx blk ∧
        x.launch ≤ (s.elapse dt).time.mt ∧
        (t.bus.queue = s.bus.queue.map fun y => if y = x then { y with started := true } else y) ∧
        Leaves dt [] s t { t with bus := { t.bus with queue := s.bus.queue } }) ∧
  (∀ (blk : SerBlk) (u : Fin 4) (x : SerTx), (s.elapse dt).serNext blk u.val = some x →
      s.serMay blk u.val = true →
      x.entry.isSome = true →
      (blk = .can → s.getF (Fld.CAN_ERR_TEC u.val) < 128 ∧ s.getF (Fld.CAN_ERR_REC u.val) < 128 ∧ s.getF (Fld.CAN_ERR_STATE
        u.val) = 0) →
      ∃ t, exec (.serialTxDone dt blk u) s = .next t ∧
        Counted (serSent blk u.val) 1 s t ∧
        t.bus.queue = s.bus.queue.erase x ∧
        (blk = .can → t.getF (Fld.CAN_ERR_TEC u.val) = s.getF (Fld.CAN_ERR_TEC u.val) - 1) ∧
        (blk = .ser → tget t.bus.idleFrom u.val = (s.elapse dt).time.clock ∧ tget t.bus.driven u.val = (s.elapse
          dt).time.clock + s.serBitNs u.val) ∧
        (blk ≠ .ser → t.bus.idleFrom = s.bus.idleFrom ∧ t.bus.driven = s.bus.driven) ∧
        (Leaves dt (((if blk = .can then [Reg.CAN_ERR u.val] else []) ++ two (serSent blk u.val))) s t
          { t with bus := { t.bus with queue := s.bus.queue, idleFrom := s.bus.idleFrom, driven := s.bus.driven } })) ∧
  (∀ (u : Fin 4), ∃ t, exec (.serTxStale dt u) s = .next t ∧
        (t.bus.queue = s.bus.queue.filter fun x => !(fun x => x.blk == serIdx .ser && (x.unit == u.val && x.entry.isSome &&
          !x.started && decide (x.launch + 250000 ≤ (s.elapse dt).time.mt))) x) ∧
        (Counted (serTxDrop .ser u.val 1) (s.bus.queue.filter (fun x => x.blk == serIdx .ser && (x.unit == u.val &&
          x.entry.isSome && !x.started && decide (x.launch + 250000 ≤ (s.elapse dt).time.mt)))).length s t) ∧
        Leaves dt ((two (serTxDrop .ser u.val 1))) s t { t with bus := { t.bus with queue := s.bus.queue } }) ∧
  (∀ (u : Fin 4) (role : CanErr) (more tec rxe : Nat), s.serLive .can u.val = true →
      tec = (s.getF (Fld.CAN_ERR_TEC u.val) + (if role = .transmitter then 8 else 0) + (if role = .receiver then 0 else 8 *
        more)) →
      rxe = (s.getF (Fld.CAN_ERR_REC u.val) + (if role = .receiver then 1 + 8 * more else 0)) →
      255 < tec →
      PortRoom s 0x0D →
      ((s.bus.queue.all fun x => x.blk != serIdx .can || x.unit != u.val) = true) →
      ∃ t, exec (.canErrorFrame dt u role more) s = .next t ∧
        Counted (Reg.CAN_ERRFRAMES u.val) 1 s t ∧
        t.getF (Fld.CAN_ERR_STATE u.val) = 2 ∧
        t.getF (Fld.CAN_ERR_TEC u.val) = 255 ∧
        t.getF (Fld.CAN_ERR_REC u.val) = min rxe 255 ∧
        Counted (Reg.CAN_BUSOFF u.val) 1 s t ∧
        t.bus.queue = s.bus.queue ∧
        (Offered 0x0D 0x0C01 4 (if 55 < s.rd (serIdx .can * 0x10000 + 4) % 64 then 0 else s.rd (serIdx .can * 0x10000 + 4) %
          64) (p4 [u.val]) s t) ∧
        Leaves dt (([Reg.CAN_ERR u.val] ++ two (Reg.CAN_ERRFRAMES u.val) ++ two (Reg.CAN_BUSOFF u.val))) s t
          { t with bus := { t.bus with queue := s.bus.queue }, arc := { t.arc with ports := s.arc.ports } }) ∧
  (∀ (u : Fin 4) (role : CanErr) (more tec rxe : Nat), s.serLive .can u.val = true →
      tec = (s.getF (Fld.CAN_ERR_TEC u.val) + (if role = .transmitter then 8 else 0) + (if role = .receiver then 0 else 8 *
        more)) →
      rxe = (s.getF (Fld.CAN_ERR_REC u.val) + (if role = .receiver then 1 + 8 * more else 0)) →
      tec < 128 →
      rxe < 128 →
      ∃ t, exec (.canErrorFrame dt u role more) s = .next t ∧
        Counted (Reg.CAN_ERRFRAMES u.val) 1 s t ∧
        t.getF (Fld.CAN_ERR_STATE u.val) = 0 ∧
        t.getF (Fld.CAN_ERR_TEC u.val) = tec ∧
        t.getF (Fld.CAN_ERR_REC u.val) = rxe ∧
        Leaves dt (([Reg.CAN_ERR u.val] ++ two (Reg.CAN_ERRFRAMES u.val))) s t t) ∧
  (∀ (u : Fin 4), s.busOff .can u.val = true →
      s.bit (Fld.CAN_CTL_AUTOREC u.val) = true →
      s.serOn .can u.val = true →
      ∃ t, exec (.canBusoffRecovery dt u) s = .next t ∧
        t.rd (Reg.CAN_ERR u.val) = 0 ∧
        t.busOff .can u.val = false ∧
        Leaves dt [Reg.CAN_ERR u.val] s t t)

/-- An enabled link whose positions fit comes up with its width, credits, event and the new membership for the next edge;
one that goes down leaves with its event and takes the positions behind it away; a membership, an instant of SYNC and
an announcement that arrive are taken; an audit that agrees changes nothing but the counts, one that differs takes the
link down. Blocks other than those named keep their registers. (R427, R428, R429, R439, R440, R441, R444) -/
def Obligations.CascadeLinks : Prop := ∀ (s : State) (dt : Nat), s.wf = true →
  (∀ (d : Fin 2) (n w gen : Nat) (reach : BitVec 8), s.portOn d.val = true →
      s.unitOff 0x11 0 = false →
      s.linkState d.val ≠ 2 →
      (if d = 0 then n < s.stackPos else s.stackPos < n) →
      n < 8 →
      w < 16 →
      gen < 8 →
      PortRoom s 0x11 →
      ((s.pops.all fun x => x.2.waiting.isEmpty) = true) →
      ∃ t, exec (.cscLink dt d (.comesUp n w gen reach)) s = .next t ∧
        t.linkState d.val = 2 ∧
        t.bit (State.degradedField d.val) = (gen != 4 || w != 4) ∧
        t.getF (Fld.CSC_LINK_GEN d.val) = gen ∧
        t.getF (Fld.CSC_LINK_WIDTH d.val) = w ∧
        (∀ k, k < 6 → t.rd64 (Reg.CSC_CREDISS d.val k) = Config.cscCredits d.val k % 18446744073709551616 ∧ t.rd64
          (Reg.CSC_CREDRET d.val k) = 0 ∧ t.rd64 (Reg.CSC_CREDHELD d.val k) = 0) ∧
        (∀ k, 0 < k → k < 6 → tget t.csc.used (d.val * 6 + k) = 0) ∧
        t.csc.membersNext = some (s.withBehind d.val (reach.toNat ||| 2 ^ n)) ∧
        (Offered 0x11 0x1001 2 (if 55 < s.getF Fld.CSC_EVCOLL_COLL then 0 else s.getF Fld.CSC_EVCOLL_COLL) (p4 [d.val, 1,
          gen, w]) s t) ∧
        LeavesOut dt [0x11] s t
          { t with csc := { t.csc with membersNext := s.csc.membersNext, sent := s.csc.sent, used := s.csc.used }, arc := { t.arc with ports := s.arc.ports } })
          ∧
  (∀ (d : Fin 2) (reach : BitVec 8), s.linkState d.val = 2 →
      ∃ t, exec (.cscLink dt d (.beyond reach)) s = .next t ∧
        (t.csc.membersNext = (if s.nextMembers = s.withBehind d.val reach.toNat then s.csc.membersNext else some
          (s.withBehind d.val reach.toNat))) ∧
        t.linkState d.val = 2 ∧
        LeavesOut dt [0x11] s t
          { t with csc := { t.csc with membersNext := s.csc.membersNext, sent := s.csc.sent, used := s.csc.used } }) ∧
  (∀ (d : Fin 2), s.portOn d.val = true →
      s.unitOff 0x11 0 = false →
      s.linkState d.val ≠ 2 →
      ∃ t, exec (.cscLink dt d .trains) s = .next t ∧
        t.linkState d.val = 1 ∧
        Leaves dt [Reg.CSC_STATUS] s t t) ∧
  (∀ (d : Fin 2), s.linkState d.val = 2 →
      s.csc.tags = [] →
      s.csc.readQ = [] →
      s.csc.amoQ = [] →
      PortRoom s 0x11 →
      ((s.pops.all fun x => x.2.waiting.isEmpty) = true) →
      ∃ t, exec (.cscLink dt d .goesDown) s = .next t ∧
        t.linkState d.val = 0 ∧
        t.rd (Reg.CSC_LINK d.val) = 0 ∧
        (t.csc.membersNext = some (((bitsOf 8 s.nextMembers).filter fun p => !(s.behind d.val).contains p).map (2 ^ ·)).sum)
          ∧
        (Counted (Reg.CSC_PWLOST d.val) (Config.cscUnacked s.freeCtr % (tget s.csc.sent d.val + 1) + if s.bit
          Fld.CSC_STATUS_MASTER = true ∧ d.val = 1 then ((bitsOf 8 t.nextMembers).filter (· != s.stackPos)).length else 0) s
          t) ∧
        (t.csc.lockHeld = (if (s.csc.lockHeld.map fun p => (s.behind d.val).contains p).getD false then none else
          s.csc.lockHeld)) ∧
        (t.csc.waiting = s.csc.waiting.filter fun p => !(s.behind d.val).contains p) ∧
        (t.csc.inWait = (s.csc.inWait.filter fun x => x.1 != some d.val || x.2.write).map fun x => if x.1 = some d.val then
          (none, x.2) else x) ∧
        (t.pops = (s.dropReads fun q => q.cls == .x && (s.behind d.val).contains q.core).pops) ∧
        (Offered 0x11 0x1001 2 (if 55 < s.getF Fld.CSC_EVCOLL_COLL then 0 else s.getF Fld.CSC_EVCOLL_COLL) (p4 [d.val, 0, 0,
          0]) s t) ∧
        LeavesOut dt [0x11] s t
          { t with freeCtr := s.freeCtr, pops := s.pops, csc := { t.csc with membersNext := s.csc.membersNext, sent := s.csc.sent, used := s.csc.used, lockHeld := s.csc.lockHeld, waiting := s.csc.waiting, inWait := s.csc.inWait }, arc := { t.arc with ports := s.arc.ports } })
          ∧
  (∀ (vec : BitVec 8), s.heard 0 = true →
      ∃ t, exec (.cscMemberRx dt vec) s = .next t ∧
        t.csc.membersNext = some (vec.toNat ||| 2 ^ s.stackPos) ∧
        Counted (Reg.CSC_RXPW 0) 1 s t ∧
        Counted (Reg.CSC_CREDRET 0 0) 1 s t ∧
        Counted (Reg.CSC_CREDISS 0 0) 1 s t ∧
        Leaves dt ((two (Reg.CSC_RXPW 0) ++ two (Reg.CSC_CREDRET 0 0) ++ two (Reg.CSC_CREDISS 0 0))) s t
          { t with csc := { t.csc with membersNext := s.csc.membersNext } }) ∧
  (∀ (instant : Nat), s.measMember = true →
      s.heard 0 = true →
      (s.elapse dt).time.mt + 2000 ≤ instant →
      ∃ t, exec (.cscSyncAtRx dt instant) s = .next t ∧
        t.meas.syncs = s.meas.syncs ++ [(instant, 4)] ∧
        Counted (Reg.CSC_RXPW 0) 1 s t ∧
        Counted (Reg.CSC_CREDRET 0 0) 1 s t ∧
        Counted (Reg.CSC_CREDISS 0 0) 1 s t ∧
        Leaves dt ((two (Reg.CSC_RXPW 0) ++ two (Reg.CSC_CREDRET 0 0) ++ two (Reg.CSC_CREDISS 0 0))) s t
          { t with meas := { t.meas with syncs := s.meas.syncs } }) ∧
  (∀ (a : Announce), a.version = 1 →
      a.snapId ≠ 0 →
      a.instant % 250000 = 0 →
      (s.elapse dt).time.mt + 500000 ≤ a.instant →
      a.instant ≤ (s.elapse dt).time.mt + 60000000000 →
      ((s.inv.pending.all fun p => p.1 != a.snapId && p.2 != a.instant) = true) →
      s.inv.pending.length < 4 →
      s.unitOff 0x18 0 = false →
      s.heard 0 = true →
      s.bit Fld.CSC_STATUS_MASTER = false →
      ∃ t, exec (.cscAnnounceRx dt a) s = .next t ∧
        t.inv.pending = s.inv.pending ++ [(a.snapId, a.instant)] ∧
        t.getF Fld.INV_STATUS_PENDING = s.inv.pending.length + 1 ∧
        Counted Reg.INV_ANNRX 1 s t ∧
        Counted Reg.INV_ANNACCEPT 1 s t ∧
        Counted (Reg.CSC_RXPW 0) 1 s t ∧
        Counted (Reg.CSC_CREDRET 0 0) 1 s t ∧
        Counted (Reg.CSC_CREDISS 0 0) 1 s t ∧
        Leaves dt (([Reg.INV_STATUS] ++ two Reg.INV_ANNRX ++ two Reg.INV_ANNACCEPT ++ two (Reg.CSC_RXPW 0) ++ two
          (Reg.CSC_CREDRET 0 0) ++ two (Reg.CSC_CREDISS 0 0))) s t { t with inv := { t.inv with pending := s.inv.pending } })
          ∧
  (∀ (d : Fin 2) (consumed : List Nat), s.heard d.val = true →
      (((List.range 6).all fun k => consumed.getD k 0 == s.rd64 (Reg.CSC_CREDRET d.val k) + s.rd64 (Reg.CSC_CREDHELD d.val
        k)) = true) →
      ∃ t, exec (.cscAuditRx dt d consumed) s = .next t ∧
        Counted (Reg.CSC_RXPW d.val) 1 s t ∧
        t.linkState d.val = 2 ∧
        t.csc = s.csc ∧
        Leaves dt ((two (Reg.CSC_RXPW d.val) ++ two (Reg.CSC_CREDRET d.val 0) ++ two (Reg.CSC_CREDISS d.val 0))) s t t) ∧
  (∀ (d : Fin 2) (consumed bad : List Nat) (k : Nat) (rest : List Nat), s.heard d.val = true →
      ((s.pops.all fun x => x.2.waiting.isEmpty) = true) →
      (bad = (List.range 6).filter fun k => consumed.getD k 0 != s.rd64 (Reg.CSC_CREDRET d.val k) + s.rd64 (Reg.CSC_CREDHELD
        d.val k)) →
      bad = k :: rest →
      s.csc.tags = [] →
      s.csc.readQ = [] →
      s.csc.amoQ = [] →
      (tget s.arc.ports 0x11).length < 31 →
      ∃ t, exec (.cscAuditRx dt d consumed) s = .next t ∧
        Counted (Reg.CSC_CREDERR d.val) bad.length s t ∧
        Counted (Reg.CSC_RETRAIN d.val) 1 s t ∧
        t.linkState d.val = 1 ∧
        (tget t.arc.ports 0x11 = tget s.arc.ports 0x11 ++ [⟨0x12, 0x1003, 3, (if 55 < s.getF Fld.CSC_EVCOLL_COLL then 0 else
          s.getF Fld.CSC_EVCOLL_COLL), t.time.mt, p4 [d.val, k]⟩, ⟨0x12, 0x1001, 2, (if 55 < s.getF Fld.CSC_EVCOLL_COLL then
          0 else s.getF Fld.CSC_EVCOLL_COLL), t.time.mt, p4 [d.val, 0, 0, 0]⟩]) ∧
        (t.csc.lockHeld = (if (s.csc.lockHeld.map fun p => (s.behind d.val).contains p).getD false then none else
          s.csc.lockHeld)) ∧
        (t.csc.waiting = s.csc.waiting.filter fun p => !(s.behind d.val).contains p) ∧
        (t.csc.inWait = (s.csc.inWait.filter fun x => x.1 != some d.val || x.2.write).map fun x => if x.1 = some d.val then
          (none, x.2) else x) ∧
        (t.pops = (s.dropReads fun q => q.cls == .x && (s.behind d.val).contains q.core).pops) ∧
        LeavesOut dt [0x11] s t
          { t with freeCtr := s.freeCtr, pops := s.pops, csc := { t.csc with membersNext := s.csc.membersNext, sent := s.csc.sent, used := s.csc.used, lockHeld := s.csc.lockHeld, waiting := s.csc.waiting, inWait := s.csc.inWait }, arc := { t.arc with ports := s.arc.ports } })

/-- An inbound posted write that map and firewall let pass changes exactly its bytes; a read answers the bytes, and an AMO
of the holder of the lock the old value, once; an interrupt message reaches its mailbox; what finds the lock held by
another position waits, its credits held. A completion gives its data and status to the requester that holds the tag
and frees it, a timeout ends it with an address error, counted; once no read of the collection is open the collected
shadows are stored in their area, shown and reported, and without an area nothing is written. Every other byte of
memory is as before. A request for a free lock is granted to its position and answered; the grant lets the holder send
its AMO under a tag; the release frees the lock; the watchdog breaks it, counted, on the side of the target, which
answers the holder, and of the holder, whose AMO ends with ABORTED. Nothing else changes. (R430, R431, R433, R434,
R437, R439, R441, R442, R444, R443) -/
def Obligations.CascadeTransactions : Prop := ∀ (s : State) (dt : Nat), s.wf = true →
  (∀ (d : Fin 2) (x : CscTxn) (a : Nat), s.linkState d.val = 2 →
      s.unitOff 0x11 0 = false →
      s.csc.lockBy = none →
      x.mailbox = none →
      x.write = true →
      windowRange x.offset x.bytes.length = some a →
      regionOf a = some .ddr →
      s.rangeCheck .x true a x.bytes.length = 0 →
      ((s.lpe.all fun x => decide (x.1 < 8)) = true) →
      ∃ t, exec (.cscInboundTransaction dt d x) s = .next t ∧
        (∀ a, t.memGet a = (s.memPut a x.bytes).memGet a) ∧
        t.resp = s.resp ∧
        Counted (Reg.CSC_RXPW d.val) 1 s t ∧
        Counted (Reg.CSC_CREDRET d.val 0) 1 s t ∧
        Counted (Reg.CSC_CREDRET d.val 1) ((x.bytes.length + 15) / 16) s t ∧
        LeavesStore dt (two (Reg.CSC_RXPW d.val) ++ two (Reg.CSC_CREDRET d.val 0) ++ two (Reg.CSC_CREDISS d.val 0) ++ two
          (Reg.CSC_CREDRET d.val 1) ++ two (Reg.CSC_CREDISS d.val 1)) s t t) ∧
  (∀ (d : Fin 2) (x : CscTxn) (a : Nat), s.linkState d.val = 2 →
      s.unitOff 0x11 0 = false →
      s.csc.lockBy = none →
      x.mailbox = none →
      x.write = false →
      x.amo = false →
      windowRange x.offset x.size = some a →
      a + x.size < 0x400000000 →
      s.rangeCheck .x false a x.size = 0 →
      ((s.lpe.all fun x => decide (x.1 < 8)) = true) →
      ∃ t, exec (.cscInboundTransaction dt d x) s = .next t ∧
        Answered t 0 (leNat (s.memRead a x.size)) ∧
        Counted (Reg.CSC_TXCPL d.val) 1 s t ∧
        t.csc.used = (s.cplOut d.val (x.size)).csc.used ∧
        LeavesOut dt [0x11, 0x10] s t
          { t with csc := { t.csc with used := s.csc.used }, lpe := s.lpe, lpeUnits := s.lpeUnits }) ∧
  (∀ (d : Fin 2) (x : CscTxn) (a at_ : Nat), s.heard d.val = true →
      s.csc.lockBy = some (x.pos, at_) →
      (s.elapse dt).time.clock < at_ + 2000 →
      s.csc.amoDone = false →
      x.mailbox = none →
      x.write = false →
      x.amo = true →
      x.size = 4 →
      windowRange x.offset 4 = some a →
      regionOf a = some .ddr →
      s.strictPage a = false →
      s.rangeCheck .x false a 4 = 0 →
      s.rangeCheck .x true a 4 = 0 →
      ((s.lpe.all fun x => decide (x.1 < 8)) = true) →
      ∃ t, exec (.cscInboundTransaction dt d x) s = .next t ∧
        Answered t 0 (leNat (s.memRead a 4)) ∧
        (∀ a, t.memGet a = (s.memPut a (leBytes 4 (amoValue x.amoOp 32 (leNat (s.memRead a 4)) (leNat x.bytes %
          4294967296)))).memGet a) ∧
        t.csc.amoDone = true ∧
        t.csc.lockBy = s.csc.lockBy ∧
        t.csc.used = (s.cplOut d.val (4)).csc.used ∧
        Counted (Reg.CSC_TXCPL d.val) 1 s t ∧
        LeavesStore dt (two (Reg.CSC_TXCPL d.val) ++ two (Reg.CSC_CREDRET d.val 2) ++ two (Reg.CSC_CREDISS d.val 2) ++ two
          (Reg.CSC_CREDRET d.val 3) ++ two (Reg.CSC_CREDISS d.val 3)) s t
          { t with csc := { t.csc with amoDone := false, used := s.csc.used } }) ∧
  (∀ (d : Fin 2) (x : CscTxn) (box msg : Nat), s.heard d.val = true →
      s.csc.lockBy = none →
      x.write = true →
      x.mailbox = some (box, msg) →
      box ≤ 8 →
      ((s.lpe.all fun x => decide (x.1 < 8)) = true) →
      ∃ t, exec (.cscInboundTransaction dt d x) s = .next t ∧
        t.mbox = (s.interrupt box msg).mbox ∧
        Counted (Reg.CSC_RXPW d.val) 1 s t ∧
        Counted (Reg.CSC_CREDRET d.val 0) 1 s t ∧
        Counted (Reg.CSC_CREDRET d.val 1) 1 s t ∧
        LeavesOut dt [0x11, 0x10] s t { t with mbox := s.mbox, lpe := s.lpe, lpeUnits := s.lpeUnits }) ∧
  (∀ (d : Fin 2) (x : CscTxn) (h at_ : Nat), s.heard d.val = true →
      s.csc.lockBy = some (h, at_) →
      (s.elapse dt).time.clock < at_ + 2000 ∨ s.csc.amoDone = true →
      x.pos ≠ h →
      x.write = false →
      x.amo = false →
      ∃ t, exec (.cscInboundTransaction dt d x) s = .next t ∧
        t.csc.inWait = s.csc.inWait ++ [(some d.val, x)] ∧
        Counted (Reg.CSC_CREDHELD d.val 2) 1 s t ∧
        Leaves dt ((two (Reg.CSC_CREDHELD d.val 2))) s t { t with csc := { t.csc with inWait := s.csc.inWait } }) ∧
  (∀ (d : Fin 2) (tag : Nat) (data : List Byte) (x : CscTag), s.heard d.val = true →
      (s.csc.tags.find? (fun y => y.ask.port == d.val && y.tag == tag) = some x) →
      x.ask.amo = false →
      State.gathers x.ask.req = false →
      x.ask.req.cls ≠ .c →
      s.csc.readQ = [] →
      ((s.lpe.all fun x => decide (x.1 < 8)) = true) →
      ∃ t, exec (.cscCompletionRx dt d tag 0 data) s = .next t ∧
        Answered t 0 (leNat data) ∧
        t.csc.tags = s.csc.tags.erase x ∧
        Counted (Reg.CSC_RXCPL d.val) 1 s t ∧
        Counted (Reg.CSC_CREDRET d.val 4) 1 s t ∧
        Counted (Reg.CSC_CREDRET d.val 5) ((data.length + 15) / 16) s t ∧
        (x.ask.req.cls ≠ .t → t.triad = s.triad) ∧
        LeavesOut dt [0x11, 0x10] s t
          { t with triad := s.triad, lpe := s.lpe, lpeUnits := s.lpeUnits, csc := { t.csc with tags := s.csc.tags } }) ∧
  (∀ (d : Fin 2) (tag status : Nat) (data : List Byte) (x : CscTag), s.heard d.val = true →
      (s.csc.tags.find? (fun y => y.ask.port == d.val && y.tag == tag) = some x) →
      x.ask.amo = false →
      State.gathers x.ask.req = true →
      s.csc.readQ = [] →
      ((s.lpe.all fun x => decide (x.1 < 8)) = true) →
      ∃ t, exec (.cscCompletionRx dt d tag status data) s = .next t ∧
        t.csc.got = s.csc.got ++ [⟨x.ask.req, x.ask.addr, status, data.take x.ask.len⟩] ∧
        t.csc.tags = s.csc.tags.erase x ∧
        Counted (Reg.CSC_RXCPL d.val) 1 s t ∧
        Counted (Reg.CSC_CREDRET d.val 4) 1 s t ∧
        Counted (Reg.CSC_CREDRET d.val 5) ((data.length + 15) / 16) s t ∧
        LeavesOut dt [0x11, 0x10] s t
          { t with lpe := s.lpe, lpeUnits := s.lpeUnits, csc := { t.csc with tags := s.csc.tags, got := s.csc.got } }) ∧
  (∀ (d : Fin 2) (tag status : Nat) (data : List Byte), s.heard d.val = true →
      (s.csc.tags.find? (fun y => y.ask.port == d.val && y.tag == tag) = none) →
      ∃ t, exec (.cscCompletionRx dt d tag status data) s = .next t ∧
        Counted (Reg.CSC_LATECPL d.val) 1 s t ∧
        t.csc = s.csc ∧
        Counted (Reg.CSC_CREDRET d.val 4) 1 s t ∧
        Counted (Reg.CSC_CREDRET d.val 5) ((data.length + 15) / 16) s t ∧
        Leaves dt ((two (Reg.CSC_LATECPL d.val) ++ two (Reg.CSC_CREDRET d.val 4) ++ two (Reg.CSC_CREDISS d.val 4) ++ two
          (Reg.CSC_CREDRET d.val 5) ++ two (Reg.CSC_CREDISS d.val 5))) s t t) ∧
  (∀ (d : Fin 2) (tag : Nat) (x : CscTag), (s.csc.tags.find? (fun y => y.ask.port == d.val && y.tag == tag) = some x) →
      x.ask.amo = false →
      State.gathers x.ask.req = false →
      x.ask.req.cls ≠ .c →
      isCore x.ask.req.cls = false →
      s.csc.readQ = [] →
      x.at_ + max 500 (min 50000 (s.getF Fld.CSC_RDTIMEOUT_US)) * 1000 ≤ (s.elapse dt).time.clock →
      ∃ t, exec (.cscReadTimeout dt d tag) s = .next t ∧
        Answered t 0x10 0 ∧
        t.csc.tags = s.csc.tags.erase x ∧
        Counted (Reg.CSC_RDTO d.val) 1 s t ∧
        (x.ask.req.cls ≠ .t → t.triad = s.triad) ∧
        Leaves dt ((two (Reg.CSC_RDTO d.val))) s t { t with triad := s.triad, csc := { t.csc with tags := s.csc.tags } }) ∧
  (∀ (slots : List InvSlot) (b_ id : Nat) (rest : List (Nat × Nat)), s.csc.collect = (b_, id) :: rest →
      rest = [] →
      s.collecting = false →
      s.getF Fld.CSC_INVBASE_BASE ≠ 0 →
      (s.getF Fld.CSC_INVBASE_BASE * 4096) + 0x30200 ≤ 0x400000000 →
      (((List.range 8).all fun p => s.rangeCheck .d true ((s.getF Fld.CSC_INVBASE_BASE * 4096) + p * 0x6040) 0x6040 == 0) =
        true) →
      PortRoom s 0x11 →
      ((s.lpe.all fun x => decide (x.1 < 8)) = true) →
      ∃ t, exec (.cscInvCollected dt slots) s = .next t ∧
        t.rd Reg.CSC_INVDONE = id % 4294967296 ∧
        t.csc.collect = rest ∧
        (t.csc.got = s.csc.got.filter fun g => !(g.req.cls == .d && decide (256 ≤ g.req.core))) ∧
        (tget t.arc.ports 0x11).length = (tget s.arc.ports 0x11).length + 1 ∧
        (∀ a, (a < (s.getF Fld.CSC_INVBASE_BASE * 4096) ∨ (s.getF Fld.CSC_INVBASE_BASE * 4096) + 0x30200 ≤ a) → t.memGet a =
          s.memGet a) ∧
        LeavesStore dt [Reg.CSC_INVDONE] s t
          { t with csc := { t.csc with collect := s.csc.collect, got := s.csc.got }, arc := { t.arc with ports := s.arc.ports } })
          ∧
  (∀ (slots : List InvSlot) (b_ id : Nat), s.csc.collect = [(b_, id)] →
      s.collecting = false →
      s.getF Fld.CSC_INVBASE_BASE = 0 →
      ∃ t, exec (.cscInvCollected dt slots) s = .next t ∧
        t.csc.collect = [] ∧
        (t.csc.got = s.csc.got.filter fun g => !(g.req.cls == .d && decide (256 ≤ g.req.core))) ∧
        t.rd Reg.CSC_INVDONE = s.rd Reg.CSC_INVDONE ∧
        Leaves dt [] s t { t with csc := { t.csc with collect := s.csc.collect, got := s.csc.got } }) ∧
  (∀ (p : Fin 8), p.val ≠ s.stackPos →
      s.heard (s.farPort p.val) = true →
      s.csc.lockBy = none →
      (tget s.csc.debt p.val).contains p.val = false →
      s.csc.waiting = [] →
      s.csc.inWait = [] →
      ∃ t, exec (.cscLockReq dt p) s = .next t ∧
        t.csc.lockBy = some (p.val, (s.elapse dt).time.clock) ∧
        t.csc.amoDone = false ∧
        t.csc.waiting = [] ∧
        Counted (Reg.CSC_TXPW (s.farPort p.val)) 1 s t ∧
        Counted (Reg.CSC_RXPW (s.farPort p.val)) 1 s t ∧
        Leaves dt ((two (Reg.CSC_RXPW (s.farPort p.val)) ++ two (Reg.CSC_CREDRET (s.farPort p.val) 0) ++ two (Reg.CSC_CREDISS
          (s.farPort p.val) 0) ++ two (Reg.CSC_TXPW (s.farPort p.val)))) s t
          { t with csc := { t.csc with lockBy := none, amoDone := s.csc.amoDone, debt := s.csc.debt, sent := s.csc.sent, used := s.csc.used, reqAt := s.csc.reqAt } })
          ∧
  (s.csc.lockBy.isSome = true →
      s.csc.amoDone = true →
      s.csc.waiting = [] →
      s.csc.inWait = [] →
      ∃ t, exec (.cscLockRelease dt) s = .next t ∧
        t.csc.lockBy = none ∧
        t.csc.amoDone = false ∧
        (t.csc.debt = s.csc.debt.filterMap fun x => let l := x.2.filter (· != (s.csc.lockBy.map fun y => y.1).getD 8); if
          l.isEmpty then none else some (x.1, l)) ∧
        Leaves dt [] s t { t with csc := { t.csc with lockBy := s.csc.lockBy, amoDone := true, debt := s.csc.debt } }) ∧
  (∀ (h at_ : Nat), s.csc.lockBy = some (h, at_) →
      at_ + 2000 ≤ (s.elapse dt).time.clock →
      s.csc.amoDone = false →
      s.csc.waiting = [] →
      s.csc.inWait = [] →
      ∃ t, exec (.cscLockWatchdog dt true) s = .next t ∧
        t.csc.lockBy = none ∧
        Counted Reg.CSC_LOCKWD 1 s t ∧
        Counted (Reg.CSC_TXCPL (s.farPort h)) 1 s t ∧
        t.csc.used = (s.cplOut (s.farPort h) 0).csc.used ∧
        (t.csc.debt = s.csc.debt.filterMap fun x => let l := x.2.filter (· != (s.csc.lockBy.map fun y => y.1).getD 8); if
          l.isEmpty then none else some (x.1, l)) ∧
        Leaves dt ((two Reg.CSC_LOCKWD ++ two (Reg.CSC_TXCPL (s.farPort h)))) s t
          { t with csc := { t.csc with lockBy := s.csc.lockBy, used := s.csc.used, debt := s.csc.debt } }) ∧
  (∀ (x : CscTag), (s.csc.tags.find? (fun y => y.ask.amo) = some x) →
      x.ask.port < 2 →
      State.gathers x.ask.req = false →
      x.ask.req.cls ≠ .c →
      isCore x.ask.req.cls = false →
      s.csc.amoQ = [] →
      s.csc.readQ = [] →
      ∃ t, exec (.cscLockWatchdog dt false) s = .next t ∧
        Answered t 0x30 0 ∧
        t.csc.tags = s.csc.tags.erase x ∧
        t.csc.lockHeld = none ∧
        Counted Reg.CSC_LOCKWD 1 s t ∧
        Counted (Reg.CSC_RXCPL x.ask.port) 1 s t ∧
        (x.ask.req.cls ≠ .t → t.triad = s.triad) ∧
        Leaves dt ((two Reg.CSC_LOCKWD ++ two (Reg.CSC_RXCPL x.ask.port))) s t
          { t with triad := s.triad, csc := { t.csc with tags := s.csc.tags, lockHeld := s.csc.lockHeld } }) ∧
  (∀ (x : CscAsk), (s.csc.tags.find? (fun y => y.ask.amo) = none) →
      (s.csc.readQ.find? (fun y => y.amo) = some x) →
      State.gathers x.req = false →
      x.req.cls ≠ .c →
      isCore x.req.cls = false →
      s.csc.amoQ = [] →
      ∃ t, exec (.cscLockWatchdog dt false) s = .next t ∧
        Answered t 0x30 0 ∧
        t.csc.readQ = s.csc.readQ.erase x ∧
        t.csc.lockHeld = none ∧
        Counted Reg.CSC_LOCKWD 1 s t ∧
        (x.req.cls ≠ .t → t.triad = s.triad) ∧
        Leaves dt ((two Reg.CSC_LOCKWD)) s t
          { t with triad := s.triad, csc := { t.csc with readQ := s.csc.readQ, lockHeld := s.csc.lockHeld } }) ∧
  (∀ (p tag a n : Nat) (req : Requester) (rest : List (Nat × Requester × Nat × Nat)), s.csc.amoQ = (p, req, a, n) :: rest →
      s.heard (s.farPort p) = true →
      s.csc.lockHeld = none →
      s.freeTag (s.farPort p) = some tag →
      ∃ t, exec (.cscLockGrantRx dt false) s = .next t ∧
        t.csc.lockHeld = some p ∧
        t.csc.amoQ = rest ∧
        t.csc.tags = s.csc.tags ++ [⟨⟨(s.farPort p), req, true, a, n⟩, tag, (s.elapse dt).time.clock⟩] ∧
        Counted Reg.CSC_LOCKS 1 s t ∧
        t.csc.used = ((s.consume (s.farPort p) 2 1).consume (s.farPort p) 3 (State.dataCredits n)).csc.used ∧
        Counted (Reg.CSC_TXNP (s.farPort p)) 1 s t ∧
        Counted (Reg.CSC_RXPW (s.farPort p)) 1 s t ∧
        Leaves dt ((two Reg.CSC_LOCKS ++ two (Reg.CSC_TXNP (s.farPort p)) ++ two (Reg.CSC_RXPW (s.farPort p)) ++ two
          (Reg.CSC_CREDRET (s.farPort p) 0) ++ two (Reg.CSC_CREDISS (s.farPort p) 0))) s t
          { t with csc := { t.csc with tags := s.csc.tags, used := s.csc.used, lockHeld := none, amoQ := s.csc.amoQ } }) ∧
  (∀ (p tag a n : Nat) (req : Requester) (rest : List (Nat × Requester × Nat × Nat)), s.csc.amoQ = (p, req, a, n) :: rest →
      s.heard (s.farPort p) = true →
      s.csc.lockHeld = none →
      s.freeTag (s.farPort p) = some tag →
      ∃ t, exec (.cscLockGrantRx dt true) s = .next t ∧
        t.csc.lockHeld = some p ∧
        t.csc.amoQ = rest ∧
        t.csc.tags = s.csc.tags ++ [⟨⟨(s.farPort p), req, true, a, n⟩, tag, (s.elapse dt).time.clock⟩] ∧
        Counted Reg.CSC_LOCKS 1 s t ∧
        Counted Reg.CSC_LOCKRETRY 1 s t ∧
        t.csc.used = ((s.consume (s.farPort p) 2 1).consume (s.farPort p) 3 (State.dataCredits n)).csc.used ∧
        Counted (Reg.CSC_TXNP (s.farPort p)) 1 s t ∧
        Counted (Reg.CSC_RXPW (s.farPort p)) 3 s t ∧
        Leaves dt ((two Reg.CSC_LOCKS ++ two Reg.CSC_LOCKRETRY ++ two (Reg.CSC_TXNP (s.farPort p)) ++ two (Reg.CSC_RXPW
          (s.farPort p)) ++ two (Reg.CSC_CREDRET (s.farPort p) 0) ++ two (Reg.CSC_CREDISS (s.farPort p) 0))) s t
          { t with csc := { t.csc with tags := s.csc.tags, used := s.csc.used, lockHeld := none, amoQ := s.csc.amoQ } })

/-- A level of the far wire begins a band; a band that has held long enough becomes the reading, which is shown; a short
or an open wire blocks a standby, counted and reported; a claimed wire makes a custodian of SIDE 1 release custody; a
module alone ignores its wire; the loss of the enable releases custody and latches the wire; a blocked standby returns
after 1 s of good readings. Nothing else changes but what the end of custody changes. An eligible standby that reads
its far wire released or stuck starts a claim; 2 µs later it holds custody, or loses the claim where SIDE 1 sees the
other claim, or has become unfit to hold it; negotiation at start-up claims, or takes the role of a standby, by the
far wire. Nothing else changes. (R471, R472, R473, R474, R476, R478, R486, R475, R477, R483, R485) -/
def Obligations.Custody : Prop := ∀ (s : State) (dt : Nat), s.wf = true →
  (∀ (mv : Nat), s.paired = true →
      s.rpl.band = none →
      ∃ t, exec (.farwireReading dt mv) s = .next t ∧
        t.rpl.band = wireBand mv ∧
        (t.rpl.bandAt = (if wireBand mv = none then s.rpl.bandAt else (s.elapse dt).time.clock)) ∧
        Leaves dt [] s t { t with rpl := { t.rpl with band := none, bandAt := s.rpl.bandAt } }) ∧
  (∀ (mv : Nat), s.paired = false →
      ∃ t, exec (.farwireReading dt mv) s = .next t ∧
        t.rpl = s.rpl ∧
        t.far = s.far ∧
        Leaves dt [] s t t) ∧
  (∀ (mv : Nat), s.paired = true →
      s.role = 3 →
      s.rpl.band = some .released →
      s.rpl.bandAt + 2000 ≤ (s.elapse dt).time.clock →
      s.rpl.reading ≠ .released →
      ∃ t, exec (.farwireReading dt mv) s = .next t ∧
        t.far = 0 ∧
        t.rpl.reading = .released ∧
        t.role = 3 ∧
        t.rpl.band = wireBand mv ∧
        Leaves dt [Reg.RPL_STATUS] s t { t with rpl := s.rpl }) ∧
  (∀ (mv : Nat) (w : WireBand), s.paired = true →
      s.role = 3 →
      w = .openWire ∨ w = .short →
      s.rpl.band = some w →
      s.rpl.bandAt + 10001 ≤ (s.elapse dt).time.clock →
      s.rpl.reading ≠ .openWire ∧ s.rpl.reading ≠ .short →
      PortRoom s 0x13 →
      ∃ t, exec (.farwireReading dt mv) s = .next t ∧
        (t.far = (if w = .openWire then 3 else 4)) ∧
        t.role = 4 ∧
        t.custodyOn = false ∧
        Counted Reg.RPL_BLOCKS 1 s t ∧
        (⟨0x14, 0x1404, 4, 58, t.time.mt, p4 [if w = .openWire then 3 else 4, 0]⟩ ∈ tget t.arc.ports 0x13) ∧
        Leaves dt (([Reg.RPL_STATUS] ++ two Reg.RPL_BLOCKS ++ two (Reg.ARC_OFFERED 58) ++ two (Reg.ARC_REFUSED 58))) s t
          { t with rpl := s.rpl, arc := s.arc, triad := { t.triad with loanLost := s.triad.loanLost } }) ∧
  (∀ (mv : Nat), s.paired = true →
      s.role = 2 →
      s.side = 1 →
      s.rpl.band = some .high →
      s.rpl.took = some .low →
      s.rpl.reading ≠ .claimed →
      s.rpl.bandAt + 2000 ≤ (s.elapse dt).time.clock →
      (s.elapse dt).time.clock ≤ s.rpl.bandAt + 750000 →
      (tget s.arc.ports 0x13).length < 30 →
      ∃ t, exec (.farwireReading dt mv) s = .next t ∧
        t.far = 1 ∧
        t.role = 5 ∧
        t.custodyOn = false ∧
        t.rpl.driving = false ∧
        Counted Reg.RPL_RELEASES 1 s t ∧
        ⟨0x14, 0x1409, 5, 58, t.time.mt, p4 [1]⟩ ∈ tget t.arc.ports 0x13 ∧
        ⟨0x14, 0x1402, 5, 58, t.time.mt, p4 [3]⟩ ∈ tget t.arc.ports 0x13 ∧
        Leaves dt (([Reg.RPL_STATUS] ++ two Reg.RPL_RELEASES ++ custodyWords)) s t
          { t with fio := s.fio, eth := { t.eth with queues := s.eth.queues }, bus := { t.bus with queue := s.bus.queue }, triad := { t.triad with loanLost := s.triad.loanLost }, rpl := s.rpl, arc := { t.arc with ports := s.arc.ports } })
          ∧
  (s.role = 2 →
      ∃ t, exec (.custodyEnableLoss dt) s = .next t ∧
        t.role = 5 ∧
        t.custodyOn = false ∧
        t.rpl.latched = true ∧
        t.rpl.driving = false ∧
        Counted Reg.RPL_RELEASES 1 s t ∧
        Leaves dt (([Reg.RPL_STATUS] ++ two Reg.RPL_RELEASES ++ custodyWords)) s t
          { t with fio := s.fio, eth := { t.eth with queues := s.eth.queues }, bus := { t.bus with queue := s.bus.queue }, triad := { t.triad with loanLost := s.triad.loanLost }, rpl := { t.rpl with driving := s.rpl.driving, claim := s.rpl.claim, latched := s.rpl.latched } })
          ∧
  ((s.elapse dt).farSettle = s.elapse dt →
      s.role = 4 →
      s.far = 0 ∨ s.far = 1 →
      s.rpl.partnerFault = false →
      s.rpl.goodSince + 1000000000 ≤ (s.elapse dt).time.clock →
      PortRoom s 0x13 →
      ∃ t, exec (.blockedRecovery dt) s = .next t ∧
        t.role = 3 ∧
        t.custodyOn = false ∧
        Leaves dt [Reg.RPL_STATUS] s t
          { t with triad := { t.triad with loanLost := s.triad.loanLost }, rpl := { t.rpl with wasElig := s.rpl.wasElig }, arc := { t.arc with ports := s.arc.ports } })
          ∧
  ((s.elapse dt).farSettle = s.elapse dt →
      s.mayClaim = true →
      s.role = 3 →
      s.ineligible = [] →
      s.far = 0 ∨ s.far = 2 →
      ∃ t, exec (.custodyClaim dt) s = .next t ∧
        t.rpl.claim = some { startAt := (s.elapse dt).time.clock, stuck := decide (s.far = 2), cold := false, boot := none }
          ∧
        t.rpl.driving = true ∧
        t.rpl.level = true ∧
        Counted Reg.RPL_CLAIMS 1 s t ∧
        t.role = s.role ∧
        Leaves dt ((two Reg.RPL_CLAIMS)) s t
          { t with rpl := { t.rpl with driving := s.rpl.driving, level := s.rpl.level, negotiating := s.rpl.negotiating, claim := s.rpl.claim } })
          ∧
  (∀ (mv : Nat) (c : Claim), (s.elapse dt).farSettle = s.elapse dt →
      s.rpl.claim = some c →
      c.startAt + 2000 ≤ (s.elapse dt).time.clock →
      s.role = 0 ∨ s.role = 3 →
      s.triadMode = 1 ∨ s.triadMode = 2 →
      (c.stuck = true ∧ s.far = 2) ∨ (c.stuck = false ∧ (s.side = 0 ∨ (wireBand mv ≠ some .high ∧ s.far ≠ 1))) →
      s.lineFault = false →
      PortRoom s 0x13 →
      ∃ t, exec (.claimCheck dt mv) s = .next t ∧
        t.role = 2 ∧
        t.custodyOn = true ∧
        t.rpl.claim = none ∧
        t.rpl.begunStuck = c.stuck ∧
        (t.rpl.resume = if c.boot.isSome then none else some ((s.elapse dt).time.clock, c.cold)) ∧
        t.bit Fld.TRDP_STATUS_CUST = true ∧
        t.rpl.staged = [] ∧
        Counted Reg.RPL_RXVOID s.rpl.stagedFrames s t ∧
        Leaves dt (([Reg.RPL_STATUS, Reg.TRDP_STATUS] ++ two Reg.RPL_RXVOID)) s t
          { t with triad := { t.triad with loanLost := s.triad.loanLost }, rpl := { t.rpl with band := s.rpl.band, bandAt := s.rpl.bandAt, claim := s.rpl.claim, begunStuck := s.rpl.begunStuck, resume := s.rpl.resume, wasElig := s.rpl.wasElig, staged := s.rpl.staged, stagedFrames := s.rpl.stagedFrames }, arc := { t.arc with ports := s.arc.ports } })
          ∧
  (∀ (mv : Nat) (c : Claim), (s.elapse dt).farSettle = s.elapse dt →
      s.rpl.claim = some c →
      c.startAt + 2000 ≤ (s.elapse dt).time.clock →
      s.role = 0 ∨ s.role = 3 →
      s.triadMode = 1 ∨ s.triadMode = 2 →
      c.stuck = true →
      s.far = 2 →
      s.rpl.reading = .stuckLow →
      s.lineFault = true →
      (tget s.arc.ports 0x13).length < 31 →
      ∃ t, exec (.claimCheck dt mv) s = .next t ∧
        t.role = 2 ∧
        t.custodyOn = true ∧
        t.rpl.claim = none ∧
        t.rpl.begunStuck = true ∧
        t.bit Fld.RPL_STATUS_PEER_ELIG = false ∧
        t.rpl.peerElig = false ∧
        ⟨0x14, 0x1405, 4, 58, t.time.mt, p4 [2]⟩ ∈ tget t.arc.ports 0x13 ∧
        LeavesOut dt [0x13, 0x02, 0x0B] s t
          { t with triad := { t.triad with loanLost := s.triad.loanLost }, rpl := s.rpl, arc := { t.arc with ports := s.arc.ports } })
          ∧
  (∀ (mv : Nat) (c : Claim), (s.elapse dt).farSettle = s.elapse dt →
      s.rpl.claim = some c →
      c.startAt + 2000 ≤ (s.elapse dt).time.clock →
      s.role = 0 ∨ s.role = 3 →
      s.triadMode = 1 ∨ s.triadMode = 2 →
      c.stuck = false →
      c.boot = none →
      s.side = 1 →
      wireBand mv = some .high ∨ s.far = 1 →
      ∃ t, exec (.claimCheck dt mv) s = .next t ∧
        t.rpl.claim = none ∧
        t.rpl.driving = false ∧
        t.role = s.role ∧
        Counted Reg.RPL_CLAIMLOST 1 s t ∧
        Leaves dt ((two Reg.RPL_CLAIMLOST)) s t
          { t with rpl := { t.rpl with band := s.rpl.band, bandAt := s.rpl.bandAt, claim := s.rpl.claim, driving := s.rpl.driving } })
          ∧
  (∀ (mv : Nat) (c : Claim), (s.elapse dt).farSettle = s.elapse dt →
      s.rpl.claim = some c →
      c.startAt + 2000 ≤ (s.elapse dt).time.clock →
      s.role = 4 →
      ∃ t, exec (.claimCheck dt mv) s = .next t ∧
        t.rpl.claim = none ∧
        t.rpl.driving = false ∧
        t.role = 4 ∧
        Leaves dt [] s t
          { t with rpl := { t.rpl with band := s.rpl.band, bandAt := s.rpl.bandAt, claim := s.rpl.claim, driving := s.rpl.driving } })
          ∧
  (∀ (at_ : Nat), (s.elapse dt).farSettle = s.elapse dt →
      s.rpl.negotiating = some at_ →
      at_ + (if s.side = 1 then 500000000 else 0) ≤ (s.elapse dt).time.clock →
      s.far = 0 →
      s.mayClaim = true →
      ∃ t, exec (.custodyNegotiationDelay dt) s = .next t ∧
        t.rpl.claim = some { startAt := (s.elapse dt).time.clock, stuck := false, cold := false, boot := some at_ } ∧
        t.rpl.negotiating = none ∧
        t.rpl.driving = true ∧
        t.rpl.level = true ∧
        Counted Reg.RPL_CLAIMS 1 s t ∧
        t.role = s.role ∧
        Leaves dt ((two Reg.RPL_CLAIMS)) s t
          { t with rpl := { t.rpl with driving := s.rpl.driving, level := s.rpl.level, negotiating := s.rpl.negotiating, claim := s.rpl.claim } })
          ∧
  (∀ (at_ : Nat), (s.elapse dt).farSettle = s.elapse dt →
      s.rpl.negotiating = some at_ →
      at_ + (if s.side = 1 then 500000000 else 0) ≤ (s.elapse dt).time.clock →
      s.far = 1 →
      s.rpl.partnerFault = false →
      PortRoom s 0x13 →
      ∃ t, exec (.custodyNegotiationDelay dt) s = .next t ∧
        t.role = 3 ∧
        t.custodyOn = false ∧
        t.rpl.negotiating = none ∧
        Leaves dt [Reg.RPL_STATUS, Reg.LCS_BOOTINFO] s t
          { t with triad := { t.triad with loanLost := s.triad.loanLost }, rpl := { t.rpl with negotiating := s.rpl.negotiating, wasElig := s.rpl.wasElig }, lcs := { t.lcs with started := s.lcs.started }, arc := { t.arc with ports := s.arc.ports } })
          ∧
  (∀ (at_ : Nat), (s.elapse dt).farSettle = s.elapse dt →
      s.rpl.negotiating = some at_ →
      at_ + (if s.side = 1 then 500000000 else 0) ≤ (s.elapse dt).time.clock →
      s.far ≠ 0 →
      s.far ≠ 1 →
      ∃ t, exec (.custodyNegotiationDelay dt) s = .next t ∧
        t.role = 4 ∧
        t.custodyOn = false ∧
        t.rpl.negotiating = none ∧
        Counted Reg.RPL_BLOCKS 1 s t ∧
        Leaves dt (([Reg.RPL_STATUS, Reg.LCS_BOOTINFO] ++ two Reg.RPL_BLOCKS ++ two (Reg.ARC_OFFERED 58) ++ two
          (Reg.ARC_REFUSED 58))) s t
          { t with triad := { t.triad with loanLost := s.triad.loanLost }, rpl := { t.rpl with negotiating := s.rpl.negotiating, wasElig := s.rpl.wasElig }, lcs := { t.lcs with started := s.lcs.started }, arc := { t.arc with ports := s.arc.ports } })

/-- With every line shipped by E(n) + 240 us the frames and the marker leave and are counted; at that instant the lines
not shipped stay pending and no marker leaves; over a link that is down nothing leaves. The bytes of a frame say what
it is: one with a bad CRC-32, and one of no form of the rule, are counted; line records are staged, in the staging
area of memory too where it has a base; a good marker applies the staged lines of its snapshot, and no other byte of
memory changes; a module with custody takes none; an acknowledgement shows what the standby holds; the old content of
a pending line is captured; a link that comes up is shown; a switch-over is armed, cancelled, or ends at its deadline
with its result and event. Nothing else changes. (R480, R481, R482, R483, R490, R494) -/
def Obligations.Replica : Prop := ∀ (s : State) (dt : Nat), s.wf = true →
  (∀ (shipped : Nat), s.rpl.snapOpen = true →
      s.pendingLines.length ≤ shipped →
      s.rpl.snapVoid = false →
      s.bit Fld.RPL_STATUS_LINKUP = true →
      (s.elapse dt).inShipTime = true →
      s.rpl.fseq < 4294967296 →
      ∃ t, exec (.replicaShipDeadline dt shipped) s = .next t ∧
        t.rpl.snap = [] ∧
        t.rpl.walk = [] ∧
        t.rpl.captured = [] ∧
        t.rpl.snapOpen = false ∧
        t.rpl.wire.length = ((s.pendingLines.length + 7) / 8 + 1) ∧
        t.rpl.fseq = (s.rpl.fseq + ((s.pendingLines.length + 7) / 8 + 1)) % 4294967296 ∧
        Counted Reg.RPL_TXFRAMES ((s.pendingLines.length + 7) / 8 + 1) s t ∧
        Leaves dt ((two Reg.RPL_TXFRAMES)) s t
          { t with rpl := { t.rpl with snap := s.rpl.snap, walk := s.rpl.walk, snapOpen := true, captured := s.rpl.captured, wire := s.rpl.wire, fseq := s.rpl.fseq } })
          ∧
  (∀ (shipped : Nat), s.rpl.snapOpen = true →
      shipped < s.pendingLines.length →
      s.time.edgeStart + 240000 ≤ (s.elapse dt).time.mono →
      s.bit Fld.RPL_STATUS_LINKUP = true →
      s.rpl.fseq < 4294967296 →
      ∃ t, exec (.replicaShipDeadline dt shipped) s = .next t ∧
        t.rpl.snap = s.rpl.snap.drop shipped ∧
        t.rpl.walk = s.rpl.walk.drop (shipped - s.rpl.snap.length) ∧
        t.rpl.captured = [] ∧
        t.rpl.snapOpen = false ∧
        t.rpl.wire.length = ((shipped + 7) / 8) ∧
        Counted Reg.RPL_TXFRAMES ((shipped + 7) / 8) s t ∧
        Leaves dt ((two Reg.RPL_TXFRAMES)) s t
          { t with rpl := { t.rpl with snap := s.rpl.snap, walk := s.rpl.walk, snapOpen := true, captured := s.rpl.captured, wire := s.rpl.wire, fseq := s.rpl.fseq } })
          ∧
  (∀ (shipped : Nat), s.rpl.snapOpen = true →
      s.pendingLines.length ≤ shipped →
      s.bit Fld.RPL_STATUS_LINKUP = false →
      ∃ t, exec (.replicaShipDeadline dt shipped) s = .next t ∧
        t.pendingLines = s.pendingLines ∧
        t.rpl.captured = [] ∧
        t.rpl.snapOpen = false ∧
        t.rpl.wire = [] ∧
        Leaves dt [] s t
          { t with rpl := { t.rpl with snap := s.rpl.snap, walk := s.rpl.walk, snapOpen := true, captured := s.rpl.captured, wire := s.rpl.wire, fseq := s.rpl.fseq } })
          ∧
  (∀ (peer : Peer) (frame : List Byte), s.paired = true →
      s.bit Fld.RPL_STATUS_LINKUP = true →
      replicaFrame frame = .bad →
      ∃ t, exec (.replicaFrameRx dt peer frame) s = .next t ∧
        Counted Reg.RPL_RXFRAMES 1 s t ∧
        Counted Reg.RPL_RXCRC 1 s t ∧
        Leaves dt ((two Reg.RPL_RXFRAMES ++ two Reg.RPL_RXCRC)) s t t) ∧
  (∀ (peer : Peer) (frame : List Byte), s.paired = true →
      s.bit Fld.RPL_STATUS_LINKUP = true →
      replicaFrame frame = .odd →
      ∃ t, exec (.replicaFrameRx dt peer frame) s = .next t ∧
        Counted Reg.RPL_RXFRAMES 1 s t ∧
        Counted Reg.RPL_RXVOID 1 s t ∧
        Leaves dt ((two Reg.RPL_RXFRAMES ++ two Reg.RPL_RXVOID)) s t t) ∧
  (∀ (peer : Peer) (frame : List Byte) (beat l slot : Nat) (bs : List Byte), s.paired = true →
      s.bit Fld.RPL_STATUS_LINKUP = true →
      replicaFrame frame = .lines beat [(l, bs)] →
      s.role = 3 →
      s.rpl.staged.length < 16131 →
      (slot = ((s.rpl.staged.find? fun y => y.line == l).map fun y => y.slot).getD s.rpl.staged.length) →
      (s.getF Fld.RPL_STAGEBASE_BASE * 0x400000) = 0 →
      ∃ t, exec (.replicaFrameRx dt peer frame) s = .next t ∧
        (t.rpl.staged = (s.rpl.staged.filter fun y => y.line != l) ++ [⟨l, bs, beat, slot⟩]) ∧
        t.rpl.stagedFrames = s.rpl.stagedFrames + 1 ∧
        t.rpl.peer = some peer ∧
        Counted Reg.RPL_RXFRAMES 1 s t ∧
        Leaves dt ((two Reg.RPL_RXFRAMES)) s t
          { t with rpl := { t.rpl with peer := s.rpl.peer, staged := s.rpl.staged, stagedFrames := s.rpl.stagedFrames } }) ∧
  (∀ (peer : Peer) (frame : List Byte) (beat l slot : Nat) (bs : List Byte), s.paired = true →
      s.bit Fld.RPL_STATUS_LINKUP = true →
      replicaFrame frame = .lines beat [(l, bs)] →
      s.role = 3 →
      s.rpl.staged.length < 16131 →
      (slot = ((s.rpl.staged.find? fun y => y.line == l).map fun y => y.slot).getD s.rpl.staged.length) →
      (s.getF Fld.RPL_STAGEBASE_BASE * 0x400000) ≠ 0 →
      (s.getF Fld.RPL_STAGEBASE_BASE * 0x400000) + 0x400000 ≤ 0x400000000 →
      slot < 16131 →
      ((s.lpe.all fun x => decide (x.1 < 8)) = true) →
      ∃ t, exec (.replicaFrameRx dt peer frame) s = .next t ∧
        (∀ a, t.memGet a = (s.memPut ((s.getF Fld.RPL_STAGEBASE_BASE * 0x400000) + 260 * slot) (leBytes 4 l ++ bs)).memGet a)
          ∧
        (t.rpl.staged = (s.rpl.staged.filter fun y => y.line != l) ++ [⟨l, bs, beat, slot⟩]) ∧
        t.rpl.stagedFrames = s.rpl.stagedFrames + 1 ∧
        t.rpl.peer = some peer ∧
        Counted Reg.RPL_RXFRAMES 1 s t ∧
        LeavesStore dt (two Reg.RPL_RXFRAMES) s t
          { t with rpl := { t.rpl with peer := s.rpl.peer, staged := s.rpl.staged, stagedFrames := s.rpl.stagedFrames } }) ∧
  (∀ (peer : Peer) (frame : List Byte) (beat mono progId mode : Nat) (mw sw : Bool) (x : RplLine), s.paired = true →
      s.bit Fld.RPL_STATUS_LINKUP = true →
      replicaFrame frame = .marker beat 1 (crc64 (State.lineRecord x)) mono progId mw sw mode →
      s.role = 3 →
      s.rpl.staged = [x] →
      x.beat = beat →
      State.lineInArea x.line = true →
      beat < 18446744073709551616 →
      ∃ t, exec (.replicaFrameRx dt peer frame) s = .next t ∧
        (∀ a, t.memGet a = (s.memPut (s.lineAddr x.line) (x.bytes.take 256)).memGet a) ∧
        t.rpl.staged = [] ∧
        t.rd64 Reg.RPL_LASTBEAT = beat ∧
        Counted Reg.RPL_MARKERS 1 s t ∧
        Counted Reg.RPL_RXFRAMES 1 s t ∧
        Counted Reg.RPL_RXAPPLIED (s.rpl.stagedFrames + 1) s t ∧
        Counted Reg.RPL_TXFRAMES 1 s t ∧
        LeavesStore dt ([Reg.RPL_STATUS] ++ two Reg.RPL_RXFRAMES ++ two Reg.RPL_LASTBEAT ++ two Reg.RPL_MARKERS ++ two
          Reg.RPL_RXAPPLIED ++ two Reg.RPL_TXFRAMES ++ two (Reg.ARC_OFFERED 58) ++ two (Reg.ARC_REFUSED 58)) s t
          { t with rpl := s.rpl, arc := s.arc }) ∧
  (∀ (peer : Peer) (frame : List Byte) (b0 lastBeat pkgId mode : Nat) (b1 : Bool), s.paired = true →
      s.bit Fld.RPL_STATUS_LINKUP = true →
      replicaFrame frame = .ack b0 lastBeat 0 pkgId mode false b1 →
      s.role = 2 →
      s.lineFault = false →
      s.rpl.handover = none →
      lastBeat < 18446744073709551616 →
      ∃ t, exec (.replicaFrameRx dt peer frame) s = .next t ∧
        t.bit Fld.RPL_STATUS_PEER_ELIG = true ∧
        t.rpl.peerElig = true ∧
        t.rd64 Reg.RPL_LASTBEAT = lastBeat ∧
        t.rd Reg.RPL_PEERPKG = pkgId % 4294967296 ∧
        t.rpl.lastAck = some s.time.beatSeq ∧
        t.rpl.peer = some peer ∧
        LeavesOut dt [0x13] s t { t with rpl := s.rpl, triad := { t.triad with loanLost := s.triad.loanLost } }) ∧
  (∀ (peer : Peer) (frame : List Byte) (beat count crc mono progId mode : Nat) (mw sw : Bool), s.paired = true →
      s.bit Fld.RPL_STATUS_LINKUP = true →
      replicaFrame frame = .marker beat count crc mono progId mw sw mode →
      s.role = 2 →
      ∃ t, exec (.replicaFrameRx dt peer frame) s = .next t ∧
        Counted Reg.RPL_RXFRAMES 1 s t ∧
        Counted Reg.RPL_RXVOID 1 s t ∧
        t.rpl.peer = some peer ∧
        Leaves dt ((two Reg.RPL_RXFRAMES ++ two Reg.RPL_RXVOID)) s t { t with rpl := { t.rpl with peer := s.rpl.peer } }) ∧
  (∀ (line : Nat), s.rpl.snapOpen = true →
      s.rpl.snap.contains line = true →
      ((s.rpl.captured.any fun c => c.1 == line) = false) →
      s.rpl.captured.length < 2048 →
      ∃ t, exec (.replicaCopyOnWrite dt line) s = .next t ∧
        t.rpl.captured = s.rpl.captured ++ [(line, s.memRead (s.lineAddr line) 256)] ∧
        Leaves dt [] s t { t with rpl := { t.rpl with captured := s.rpl.captured } }) ∧
  (s.paired = true →
      s.bit Fld.RPL_STATUS_LINKUP = false →
      s.rpl.linkSeen = false ∨ s.role = 2 →
      (s.role = 2 → s.lineFault = false) →
      ∃ t, exec (.replicaLinkChange dt true) s = .next t ∧
        t.bit Fld.RPL_STATUS_LINKUP = true ∧
        t.rpl.linkSeen = true ∧
        Leaves dt [Reg.RPL_STATUS] s t { t with rpl := { t.rpl with linkSeen := s.rpl.linkSeen } }) ∧
  (∀ (req : Requester), Lets s req Reg.RPL_CTL →
      s.rpl.handoverRun = false →
      s.role = 2 →
      s.rpl.peerElig = true →
      ∃ t, exec (.rplHandoverArm dt req 0x6E) s = .next t ∧
        Answered t 0 0 ∧
        t.rpl.handover = some (s.rd64 Reg.RPL_HOTARGET) ∧
        t.getF Fld.RPL_HOSTAT_RESULT = 1 ∧
        Leaves dt [Reg.RPL_HOSTAT] s t { t with rpl := { t.rpl with handover := s.rpl.handover } }) ∧
  (∀ (req : Requester) (h : Nat), Lets s req Reg.RPL_CTL →
      s.rpl.handover = some h →
      s.rpl.handoverRun = false →
      PortRoom s 0x13 →
      ∃ t, exec (.rplHandoverCancel dt req 0x6E) s = .next t ∧
        Answered t 0 0 ∧
        t.rpl.handover = none ∧
        t.getF Fld.RPL_HOSTAT_RESULT = 5 ∧
        Offered 0x13 0x1403 2 58 (p8 [h] ++ p4 [5]) s t ∧
        Leaves dt [Reg.RPL_HOSTAT] s t
          { t with rpl := { t.rpl with handover := s.rpl.handover, handoverRun := s.rpl.handoverRun }, arc := { t.arc with ports := s.arc.ports } })
          ∧
  (∀ (h : Nat), s.rpl.handover = some h →
      s.rpl.handoverRun = true →
      s.time.edgeStart + 240000 ≤ (s.elapse dt).time.mono →
      PortRoom s 0x13 →
      ∃ t, exec (.handoverDeadline dt) s = .next t ∧
        t.role = s.role ∧
        t.rpl.handover = none ∧
        t.getF Fld.RPL_HOSTAT_RESULT = 4 ∧
        Offered 0x13 0x1403 2 58 (p8 [h] ++ p4 [4]) s t ∧
        Leaves dt [Reg.RPL_HOSTAT] s t
          { t with rpl := { t.rpl with handover := s.rpl.handover, handoverRun := s.rpl.handoverRun }, arc := { t.arc with ports := s.arc.ports } })

/-- A keyed write of LCS_CMD while no command runs makes LCS_CMDRES busy and notes the result of the checks on the token
in LCS_TOKWIN or the image that LCS_SRCADDR names: a transition or a revocation, an image to store or verify, a
commit, or a restart. A refused token or image is written as an event; a verified firmware image marks the store as
being written. Nothing else changes. (R499, R500, R504, R506, R521, R522, R523, R524, R527, R545) -/
def Obligations.LifecycleRequests : Prop := ∀ (s : State) (dt : Nat), s.wf = true →
  (∀ (req : Requester) (arg : Byte) (n0 n1 : BitVec 64), Lets s req Reg.LCS_CMD →
      s.lcs.busy = none →
      s.tokenCheck s.token 5 = 0 →
      s.transitionCheck s.token = 0 →
      ∃ t, exec (.lcsCmdTransition dt req 0xC9 arg n0 n1) s = .next t ∧
        Answered t 0 0 ∧
        t.lcs.busy = some ⟨1, 0, (.transition s.token.tokenFrom s.token.tokenTo s.token.keySlot), some (n0.toNat, n1.toNat)⟩
          ∧
        t.bit Fld.LCS_CMDRES_BUSY = true ∧
        t.getF Fld.LCS_CMDRES_CMD = 1 ∧
        t.getF Fld.LCS_CMDRES_RESULT = 0 ∧
        Leaves dt [Reg.LCS_CMDRES] s t { t with lcs := { t.lcs with busy := s.lcs.busy } }) ∧
  (∀ (req : Requester) (arg : Byte) (n0 n1 : BitVec 64), Lets s req Reg.LCS_CMD →
      s.lcs.busy = none →
      s.tokenCheck s.token 5 = 0 →
      s.transitionCheck s.token ≠ 0 →
      PortRoom s 0x15 →
      ∃ t, exec (.lcsCmdTransition dt req 0xC9 arg n0 n1) s = .next t ∧
        Answered t 0 0 ∧
        t.lcs.busy = some ⟨1, (s.transitionCheck s.token), (.transition s.token.tokenFrom s.token.tokenTo s.token.keySlot),
          some (n0.toNat, n1.toNat)⟩ ∧
        t.bit Fld.LCS_CMDRES_BUSY = true ∧
        t.getF Fld.LCS_CMDRES_CMD = 1 ∧
        t.getF Fld.LCS_CMDRES_RESULT = 0 ∧
        Offered 0x15 0x1602 3 60 (p4 [s.transitionCheck s.token]) s t ∧
        Leaves dt [Reg.LCS_CMDRES] s t
          { t with lcs := { t.lcs with busy := s.lcs.busy }, arc := { t.arc with ports := s.arc.ports } }) ∧
  (∀ (req : Requester) (arg : Byte) (n0 n1 : BitVec 64), Lets s req Reg.LCS_CMD →
      s.lcs.busy = none →
      s.tokenCheck s.token 5 ≠ 0 →
      s.tokenCheck s.token 5 ≤ 8 →
      (tget s.arc.ports 0x15).length < 31 →
      ∃ t, exec (.lcsCmdTransition dt req 0xC9 arg n0 n1) s = .next t ∧
        Answered t 0 0 ∧
        t.lcs.busy = some ⟨1, (s.tokenCheck s.token 5), (.transition s.token.tokenFrom s.token.tokenTo s.token.keySlot), some
          (n0.toNat, n1.toNat)⟩ ∧
        t.bit Fld.LCS_CMDRES_BUSY = true ∧
        t.getF Fld.LCS_CMDRES_CMD = 1 ∧
        t.getF Fld.LCS_CMDRES_RESULT = 0 ∧
        tget t.arc.ports 0x15 = tget s.arc.ports 0x15 ++ [⟨0x16, 0x1605, 3, 60, t.time.mt, p4 [s.token.kind, s.tokenCheck
          s.token 5]⟩, ⟨0x16, 0x1602, 3, 60, t.time.mt, p4 [s.tokenCheck s.token 5]⟩] ∧
        Leaves dt [Reg.LCS_CMDRES] s t
          { t with lcs := { t.lcs with busy := s.lcs.busy }, arc := { t.arc with ports := s.arc.ports } }) ∧
  (∀ (req : Requester), Lets s req Reg.LCS_CMD →
      s.lcs.busy = none →
      s.imageCheck s.sourceImage 1 = 0 →
      s.flashStopped = false →
      ∃ t, exec (.lcsCmdWriteFw dt req 0xC9 true true) s = .next t ∧
        Answered t 0 0 ∧
        t.lcs.busy = some ⟨3, 0, (.firmware s.sourceImage (State.storedHash s.lcs.firmware)), none⟩ ∧
        t.bit Fld.LCS_CMDRES_BUSY = true ∧
        t.getF Fld.LCS_CMDRES_CMD = 3 ∧
        t.getF Fld.LCS_CMDRES_RESULT = 0 ∧
        t.lcs.writing = true ∧
        t.lcs.firmware = none ∧
        Leaves dt [Reg.LCS_CMDRES] s t
          { t with lcs := { t.lcs with busy := s.lcs.busy, writing := s.lcs.writing, firmware := s.lcs.firmware } }) ∧
  (∀ (req : Requester) (written verified : Bool), Lets s req Reg.LCS_CMD →
      s.lcs.busy = none →
      s.imageCheck s.sourceImage 1 ≠ 0 →
      PortRoom s 0x15 →
      ∃ t, exec (.lcsCmdWriteFw dt req 0xC9 written verified) s = .next t ∧
        Answered t 0 0 ∧
        t.lcs.busy = some ⟨3, (s.imageCheck s.sourceImage 1), .nothing, none⟩ ∧
        t.bit Fld.LCS_CMDRES_BUSY = true ∧
        t.getF Fld.LCS_CMDRES_CMD = 3 ∧
        t.getF Fld.LCS_CMDRES_RESULT = 0 ∧
        Offered 0x15 0x1605 3 60 (p4 [s.sourceImage.kind, s.imageCheck s.sourceImage 1]) s t ∧
        Leaves dt [Reg.LCS_CMDRES] s t
          { t with lcs := { t.lcs with busy := s.lcs.busy }, arc := { t.arc with ports := s.arc.ports } }) ∧
  (∀ (req : Requester), Lets s req Reg.LCS_CMD →
      s.lcs.busy = none →
      s.lcState = 2 →
      s.imageCheck s.sourceImage 2 = 0 →
      s.flashStopped = false →
      ∃ t, exec (.lcsCmdWriteDocent dt req 0xC9 true true) s = .next t ∧
        Answered t 0 0 ∧
        (t.lcs.busy = some ⟨4, 0, (.docent (1 - s.getF Fld.LCS_BOOTINFO_DOCENT) s.sourceImage (State.storedHash (if (1 -
          s.getF Fld.LCS_BOOTINFO_DOCENT) = 0 then s.lcs.docent0 else s.lcs.docent1))), none⟩) ∧
        t.bit Fld.LCS_CMDRES_BUSY = true ∧
        t.getF Fld.LCS_CMDRES_CMD = 4 ∧
        t.getF Fld.LCS_CMDRES_RESULT = 0 ∧
        (if s.getF Fld.LCS_BOOTINFO_DOCENT = 0 then t.lcs.docent1 = none ∧ t.lcs.docent0 = s.lcs.docent0 else t.lcs.docent0 =
          none ∧ t.lcs.docent1 = s.lcs.docent1) ∧
        Leaves dt [Reg.LCS_CMDRES] s t
          { t with lcs := { t.lcs with busy := s.lcs.busy, docent0 := s.lcs.docent0, docent1 := s.lcs.docent1 } }) ∧
  (∀ (req : Requester) (written verified : Bool), Lets s req Reg.LCS_CMD →
      s.lcs.busy = none →
      s.lcState ≠ 2 →
      ∃ t, exec (.lcsCmdWriteDocent dt req 0xC9 written verified) s = .next t ∧
        Answered t 0 0 ∧
        t.lcs.busy = some ⟨4, 10, .nothing, none⟩ ∧
        t.bit Fld.LCS_CMDRES_BUSY = true ∧
        t.getF Fld.LCS_CMDRES_CMD = 4 ∧
        t.getF Fld.LCS_CMDRES_RESULT = 0 ∧
        Leaves dt [Reg.LCS_CMDRES] s t { t with lcs := { t.lcs with busy := s.lcs.busy } }) ∧
  (∀ (req : Requester), Lets s req Reg.LCS_CMD →
      s.lcs.busy = none →
      s.lcState = 1 ∨ s.lcState = 2 →
      s.imageCheck s.sourceImage 3 = 0 →
      s.flashStopped = false →
      ∃ t, exec (.lcsCmdWriteBootcfg dt req 0xC9 true true) s = .next t ∧
        Answered t 0 0 ∧
        (t.lcs.busy = some ⟨5, 0, (.bootCfg (State.olderCopy s.lcs.bootCfg0 s.lcs.bootCfg1) s.sourceImage (State.storedHash
          (if (State.olderCopy s.lcs.bootCfg0 s.lcs.bootCfg1) = 0 then s.lcs.bootCfg0 else s.lcs.bootCfg1))), none⟩) ∧
        t.bit Fld.LCS_CMDRES_BUSY = true ∧
        t.getF Fld.LCS_CMDRES_CMD = 5 ∧
        t.getF Fld.LCS_CMDRES_RESULT = 0 ∧
        (if State.olderCopy s.lcs.bootCfg0 s.lcs.bootCfg1 = 0 then t.lcs.bootCfg0 = none ∧ t.lcs.bootCfg1 = s.lcs.bootCfg1
          else t.lcs.bootCfg1 = none ∧ t.lcs.bootCfg0 = s.lcs.bootCfg0) ∧
        Leaves dt [Reg.LCS_CMDRES] s t
          { t with lcs := { t.lcs with busy := s.lcs.busy, bootCfg0 := s.lcs.bootCfg0, bootCfg1 := s.lcs.bootCfg1 } }) ∧
  (∀ (req : Requester), Lets s req Reg.LCS_CMD →
      s.lcs.busy = none →
      ∃ t, exec (.lcsCmdCommitFw dt req 0xC9) s = .next t ∧
        Answered t 0 0 ∧
        (t.lcs.busy = some ⟨6, (if s.bit Fld.LCS_BOOTINFO_UNCOMMITTED = true ∧ s.bit Fld.LCS_BOOTINFO_CYCLEOK = false then 12
          else 0), .commit, none⟩) ∧
        t.bit Fld.LCS_CMDRES_BUSY = true ∧
        t.getF Fld.LCS_CMDRES_CMD = 6 ∧
        t.getF Fld.LCS_CMDRES_RESULT = 0 ∧
        Leaves dt [Reg.LCS_CMDRES] s t { t with lcs := { t.lcs with busy := s.lcs.busy } }) ∧
  (∀ (req : Requester), Lets s req Reg.LCS_CMD →
      s.lcs.busy = none →
      ∃ t, exec (.lcsCmdRestart dt req 0xC9) s = .next t ∧
        Answered t 0 0 ∧
        (t.lcs.busy = some ⟨7, (if s.role = 2 ∧ s.bit Fld.RPL_STATUS_PEER_ELIG = true then 10 else 0), .restart, none⟩) ∧
        t.bit Fld.LCS_CMDRES_BUSY = true ∧
        t.getF Fld.LCS_CMDRES_CMD = 7 ∧
        t.getF Fld.LCS_CMDRES_RESULT = 0 ∧
        Leaves dt [Reg.LCS_CMDRES] s t { t with lcs := { t.lcs with busy := s.lcs.busy } }) ∧
  (∀ (req : Requester) (arg : Byte), Lets s req Reg.LCS_CMD →
      s.lcs.busy = none →
      s.imageCheck s.sourceImage 4 = 0 →
      ∃ t, exec (.lcsCmdVerify dt req 0xC9 arg) s = .next t ∧
        Answered t 0 0 ∧
        t.lcs.busy = some ⟨8, 0, .nothing, none⟩ ∧
        t.bit Fld.LCS_CMDRES_BUSY = true ∧
        t.getF Fld.LCS_CMDRES_CMD = 8 ∧
        t.getF Fld.LCS_CMDRES_RESULT = 0 ∧
        Leaves dt [Reg.LCS_CMDRES] s t { t with lcs := { t.lcs with busy := s.lcs.busy } }) ∧
  (∀ (req : Requester) (arg : Byte), Lets s req Reg.LCS_CMD →
      s.lcs.busy.isSome = true →
      ∃ t, exec (.lcsCmdVerify dt req 0xC9 arg) s = .next t ∧
        Answered t 0 0 ∧
        t.lcs = s.lcs ∧
        t.getF Fld.LCS_CMDRES_CMD = 8 ∧
        t.getF Fld.LCS_CMDRES_RESULT = 14 ∧
        Counted Reg.LCS_CMDREFUSED 1 s t ∧
        Leaves dt (([Reg.LCS_CMDRES] ++ two Reg.LCS_CMDREFUSED)) s t t)

/-- At its end a command shows its result in LCS_CMDRES. With result 0 it has its effect: an accepted transition waits for
its edge, a slot is revoked, an image is stored and named, the running firmware is committed and the roll-back count
raised to its own; each is written as an event and a Provenance record. With another result it is counted as refused
and has no effect. Nothing else changes. (R500, R501, R504, R506, R521, R523, R527, R538) -/
def Obligations.LifecycleCompletion : Prop := ∀ (s : State) (dt : Nat), s.wf = true →
  (∀ (src dst slot n0 n1 : Nat), s.lcs.busy = some ⟨1, 0, .transition src dst slot, some (n0, n1)⟩ →
      n0 < 2 ^ 64 →
      n1 < 2 ^ 64 →
      ∃ t, exec (.lcsCmdComplete dt) s = .next t ∧
        t.lcs.busy = none ∧
        t.bit Fld.LCS_CMDRES_BUSY = false ∧
        t.getF Fld.LCS_CMDRES_CMD = 1 ∧
        t.getF Fld.LCS_CMDRES_RESULT = 0 ∧
        t.lcs.transition = s.lcs.transition ++ [⟨src, dst, slot, (s.elapse dt).time.mono⟩] ∧
        t.rd64 Reg.LCS_NONCE_LO = n0 ∧
        t.rd64 Reg.LCS_NONCE_HI = n1 ∧
        Leaves dt ((Reg.LCS_CMDRES :: (two Reg.LCS_NONCE_LO ++ two Reg.LCS_NONCE_HI))) s t
          { t with lcs := { t.lcs with busy := s.lcs.busy, transition := s.lcs.transition } }) ∧
  (∀ (cmd r : Nat) (act : LcsAct), s.lcs.busy = some ⟨cmd, r, act, none⟩ →
      r ≠ 0 →
      cmd < 256 →
      r < 256 →
      ∃ t, exec (.lcsCmdComplete dt) s = .next t ∧
        t.lcs.busy = none ∧
        t.bit Fld.LCS_CMDRES_BUSY = false ∧
        t.getF Fld.LCS_CMDRES_CMD = cmd ∧
        t.getF Fld.LCS_CMDRES_RESULT = r ∧
        Counted Reg.LCS_CMDREFUSED 1 s t ∧
        Leaves dt ((Reg.LCS_CMDRES :: two Reg.LCS_CMDREFUSED)) s t { t with lcs := { t.lcs with busy := s.lcs.busy } }) ∧
  (∀ (img : Image) (old : Nat), s.lcs.busy = some ⟨3, 0, .firmware img old, none⟩ →
      s.flashStopped = false →
      PortRoom s 0x15 →
      s.prv.port.length < 64 →
      ∃ t, exec (.lcsCmdComplete dt) s = .next t ∧
        t.lcs.busy = none ∧
        t.bit Fld.LCS_CMDRES_BUSY = false ∧
        t.getF Fld.LCS_CMDRES_CMD = 3 ∧
        t.getF Fld.LCS_CMDRES_RESULT = 0 ∧
        t.lcs.firmware = some ⟨img, s.lcs.storeOrder + 1⟩ ∧
        t.lcs.writing = false ∧
        Counted Reg.LCS_IMAGES 1 s t ∧
        Offered 0x15 0x1604 2 60 (p4 [img.kind, img.version]) s t ∧
        Counted Reg.PRV_OFFERED 1 s t ∧
        t.prv.port = s.prv.port ++
          [{ mt := (s.elapse dt).time.mt, kind := 7, port := 0xFE, session := 0, user := 0, reservedOk := true, object := State.objectBytes 7 img.kind, oldHash := old, newHash := leNat (sha256Bytes img.bytes) }]
          ∧
        Leaves dt ((Reg.LCS_CMDRES :: (two Reg.LCS_IMAGES ++ two Reg.PRV_OFFERED))) s t
          { t with lcs := { t.lcs with busy := s.lcs.busy, storeOrder := s.lcs.storeOrder, firmware := s.lcs.firmware, writing := s.lcs.writing }, prv := { t.prv with port := s.prv.port }, arc := { t.arc with ports := s.arc.ports } })
          ∧
  (∀ (img : Image) (old copy : Nat), s.lcs.busy = some ⟨4, 0, .docent copy img old, none⟩ →
      s.flashStopped = false →
      PortRoom s 0x15 →
      s.prv.port.length < 64 →
      ∃ t, exec (.lcsCmdComplete dt) s = .next t ∧
        t.lcs.busy = none ∧
        t.bit Fld.LCS_CMDRES_BUSY = false ∧
        t.getF Fld.LCS_CMDRES_CMD = 4 ∧
        t.getF Fld.LCS_CMDRES_RESULT = 0 ∧
        (if copy = 0 then t.lcs.docent0 = some ⟨img, s.lcs.storeOrder + 1⟩ ∧ t.lcs.docentNext = 0 ∧ t.lcs.docent1 =
          s.lcs.docent1 else t.lcs.docent1 = some ⟨img, s.lcs.storeOrder + 1⟩ ∧ t.lcs.docentNext = 1 ∧ t.lcs.docent0 =
          s.lcs.docent0) ∧
        Counted Reg.LCS_IMAGES 1 s t ∧
        Offered 0x15 0x1604 2 60 (p4 [img.kind, img.version]) s t ∧
        Counted Reg.PRV_OFFERED 1 s t ∧
        t.prv.port = s.prv.port ++
          [{ mt := (s.elapse dt).time.mt, kind := 8, port := 0xFE, session := 0, user := 0, reservedOk := true, object := State.objectBytes 8 img.kind, oldHash := old, newHash := leNat (sha256Bytes img.bytes) }]
          ∧
        Leaves dt ((Reg.LCS_CMDRES :: (two Reg.LCS_IMAGES ++ two Reg.PRV_OFFERED))) s t
          { t with lcs := { t.lcs with busy := s.lcs.busy, storeOrder := s.lcs.storeOrder, docent0 := s.lcs.docent0, docent1 := s.lcs.docent1, docentNext := s.lcs.docentNext }, prv := { t.prv with port := s.prv.port }, arc := { t.arc with ports := s.arc.ports } })
          ∧
  (∀ (img : Image) (old copy : Nat), s.lcs.busy = some ⟨5, 0, .bootCfg copy img old, none⟩ →
      s.flashStopped = false →
      PortRoom s 0x15 →
      s.prv.port.length < 64 →
      ∃ t, exec (.lcsCmdComplete dt) s = .next t ∧
        t.lcs.busy = none ∧
        t.bit Fld.LCS_CMDRES_BUSY = false ∧
        t.getF Fld.LCS_CMDRES_CMD = 5 ∧
        t.getF Fld.LCS_CMDRES_RESULT = 0 ∧
        (if copy = 0 then t.lcs.bootCfg0 = some ⟨img, s.lcs.storeOrder + 1⟩ ∧ t.lcs.bootCfg1 = s.lcs.bootCfg1 else
          t.lcs.bootCfg1 = some ⟨img, s.lcs.storeOrder + 1⟩ ∧ t.lcs.bootCfg0 = s.lcs.bootCfg0) ∧
        Counted Reg.LCS_IMAGES 1 s t ∧
        Offered 0x15 0x1604 2 60 (p4 [img.kind, img.version]) s t ∧
        Counted Reg.PRV_OFFERED 1 s t ∧
        t.prv.port = s.prv.port ++
          [{ mt := (s.elapse dt).time.mt, kind := 9, port := 0xFE, session := 0, user := 0, reservedOk := true, object := State.objectBytes 9 img.kind, oldHash := old, newHash := leNat (sha256Bytes img.bytes) }]
          ∧
        Leaves dt ((Reg.LCS_CMDRES :: (two Reg.LCS_IMAGES ++ two Reg.PRV_OFFERED))) s t
          { t with lcs := { t.lcs with busy := s.lcs.busy, storeOrder := s.lcs.storeOrder, bootCfg0 := s.lcs.bootCfg0, bootCfg1 := s.lcs.bootCfg1 }, prv := { t.prv with port := s.prv.port }, arc := { t.arc with ports := s.arc.ports } })
          ∧
  (s.lcs.busy = some ⟨6, 0, .commit, none⟩ →
      PortRoom s 0x15 →
      s.prv.port.length < 64 →
      ∃ t, exec (.lcsCmdComplete dt) s = .next t ∧
        t.lcs.busy = none ∧
        t.bit Fld.LCS_CMDRES_BUSY = false ∧
        t.getF Fld.LCS_CMDRES_CMD = 6 ∧
        t.getF Fld.LCS_CMDRES_RESULT = 0 ∧
        (t.getF Fld.LCS_ROLLBACK_COUNT = max (s.getF Fld.LCS_ROLLBACK_COUNT) ((s.lcs.running.map fun x => min 128
          x.rollback).getD 0)) ∧
        t.bit Fld.LCS_BOOTINFO_UNCOMMITTED = false ∧
        t.getF Fld.LCS_FMT_OLDFMT = 0 ∧
        t.lcs.oldCopy = none ∧
        t.lcs.fwCommitted = true ∧
        (Offered 0x15 0x1606 2 60 (p4 [(s.lcs.running.map fun x => x.version).getD (s.rd Reg.LCS_FWVER), t.getF
          Fld.LCS_ROLLBACK_COUNT]) s t) ∧
        Counted Reg.PRV_OFFERED 1 s t ∧
        t.prv.port = s.prv.port ++
          [{ mt := (s.elapse dt).time.mt, kind := 10, port := 0xFE, session := 0, user := 0, reservedOk := true, object := State.objectBytes 10 0, oldHash := (Config.contentHash s.freeCtr).toNat, newHash := (Config.contentHash (s.freeCtr + 1)).toNat }]
          ∧
        Leaves dt (([Reg.LCS_CMDRES, Reg.LCS_ROLLBACK, Reg.LCS_FMT, Reg.LCS_BOOTINFO] ++ two Reg.PRV_OFFERED)) s t
          { t with lcs := { t.lcs with busy := s.lcs.busy, oldCopy := s.lcs.oldCopy, fwCommitted := s.lcs.fwCommitted }, freeCtr := s.freeCtr, prv := { t.prv with port := s.prv.port }, arc := { t.arc with ports := s.arc.ports } })
          ∧
  (s.lcs.busy = some ⟨7, 0, .restart, none⟩ →
      ∃ t, exec (.lcsCmdComplete dt) s = .next t ∧
        t.lcs.busy = s.lcs.busy ∧
        Leaves dt [] s t t)

/-- A keyed request that no rule refuses shows code 1 and starts the test; a refused one shows its code, is counted and
written as an event. The end of a test shows the result and its signature, is counted, written as an event and
recorded; a unit that failed is held disabled. Stated with the effect on the unit for the Loupe units. Nothing else
changes. (R513, R515, R516, R518, R519, R537) -/
def Obligations.SelfTest : Prop := ∀ (s : State) (dt : Nat), s.wf = true →
  (∀ (req : Requester) (unit : Fin 16), Lets s req Reg.STE_REQ →
      s.steRefusal 0x10 unit.val = 0 →
      (tget s.lpeUnits unit.val).passed = [] →
      ∃ t, exec (.steReqWrite dt req 0x5E 0x10 unit) s = .next t ∧
        Answered t 0 0 ∧
        t.getF Fld.STE_RESULT_CODE = 1 ∧
        t.getF Fld.STE_RESULT_BLOCK = 0x10 ∧
        t.getF Fld.STE_RESULT_UNIT = unit.val ∧
        t.getF Fld.STE_STATUS_STATE = 2 ∧
        t.getF Fld.STE_STATUS_BLOCK = 0x10 ∧
        t.getF Fld.STE_STATUS_UNIT = unit.val ∧
        Leaves dt [Reg.STE_RESULT, Reg.STE_STATUS] s t t) ∧
  (∀ (req : Requester) (blk : BitVec 8) (unit : Fin 16), Lets s req Reg.STE_REQ →
      s.steRefusal blk.toNat unit.val ≠ 0 →
      PortRoom s 0x14 →
      ∃ t, exec (.steReqWrite dt req 0x5E blk unit) s = .next t ∧
        Answered t 0 0 ∧
        t.getF Fld.STE_RESULT_CODE = s.steRefusal blk.toNat unit.val ∧
        t.getF Fld.STE_RESULT_BLOCK = blk.toNat ∧
        t.getF Fld.STE_RESULT_UNIT = unit.val ∧
        Counted Reg.STE_REFUSED 1 s t ∧
        Offered 0x14 0x1503 2 60 (p4 [blk.toNat, unit.val, s.steRefusal blk.toNat unit.val]) s t ∧
        Leaves dt ((Reg.STE_RESULT :: two Reg.STE_REFUSED)) s t { t with arc := { t.arc with ports := s.arc.ports } }) ∧
  (∀ (sig : BitVec 64), s.getF Fld.STE_STATUS_STATE ≠ 0 →
      s.getF Fld.STE_STATUS_BLOCK = 0x10 →
      s.deferred = [] →
      PortRoom s 0x14 →
      s.prv.port.length < 64 →
      s.bit (Fld.LPE_CFG_EN (s.getF Fld.STE_STATUS_UNIT)) = false →
      ∃ t, exec (.steTest dt true sig) s = .next t ∧
        t.getF Fld.STE_RESULT_CODE = 2 ∧
        t.getF Fld.STE_RESULT_BLOCK = 0x10 ∧
        t.getF Fld.STE_RESULT_UNIT = s.getF Fld.STE_STATUS_UNIT ∧
        t.rd64 Reg.STE_SIG = sig.toNat ∧
        Counted Reg.STE_TESTS 1 s t ∧
        t.rd Reg.STE_STATUS = 0 ∧
        Counted Reg.PRV_OFFERED 1 s t ∧
        ((t.prv.port.getLast?.map fun r => r.kind) = some 18) ∧
        Offered 0x14 0x1502 1 60 (p4 [0x10, s.getF Fld.STE_STATUS_UNIT] ++ p8 [sig.toNat]) s t ∧
        Leaves dt (([Reg.STE_RESULT, Reg.STE_STATUS] ++ two Reg.STE_SIG ++ two Reg.STE_TESTS ++ two Reg.PRV_OFFERED)) s t
          { t with prv := { t.prv with port := s.prv.port }, arc := { t.arc with ports := s.arc.ports } }) ∧
  (∀ (sig : BitVec 64), s.getF Fld.STE_STATUS_STATE ≠ 0 →
      s.getF Fld.STE_STATUS_BLOCK = 0x10 →
      s.deferred = [] →
      PortRoom s 0x14 →
      s.prv.port.length < 64 →
      s.getF Fld.STE_STATUS_UNIT < 8 →
      ∃ t, exec (.steTest dt false sig) s = .next t ∧
        t.getF Fld.STE_RESULT_CODE = 3 ∧
        t.getF Fld.STE_RESULT_BLOCK = 0x10 ∧
        t.getF Fld.STE_RESULT_UNIT = s.getF Fld.STE_STATUS_UNIT ∧
        t.rd64 Reg.STE_SIG = sig.toNat ∧
        Counted Reg.STE_TESTS 1 s t ∧
        t.rd Reg.STE_STATUS = 0 ∧
        Counted Reg.PRV_OFFERED 1 s t ∧
        ((t.prv.port.getLast?.map fun r => r.kind) = some 18) ∧
        Offered 0x14 0x1502 4 60 (p4 [0x10, s.getF Fld.STE_STATUS_UNIT] ++ p8 [sig.toNat]) s t ∧
        Counted Reg.STE_FAILS 1 s t ∧
        t.getF (Fld.STE_FAILMAP_UNITS 0x10) = s.getF (Fld.STE_FAILMAP_UNITS 0x10) ||| 2 ^ s.getF Fld.STE_STATUS_UNIT ∧
        t.bit (Fld.LPE_CFG_EN (s.getF Fld.STE_STATUS_UNIT)) = false ∧
        tget t.lpe (s.getF Fld.STE_STATUS_UNIT) = none ∧
        Leaves dt (([Reg.STE_FAILMAP 0x10, Reg.LPE_CFG (s.getF Fld.STE_STATUS_UNIT)] ++ two Reg.STE_FAILS ++ [Reg.STE_RESULT,
          Reg.STE_STATUS] ++ two Reg.STE_SIG ++ two Reg.STE_TESTS ++ two Reg.PRV_OFFERED)) s t
          { t with lpe := s.lpe, lpeUnits := s.lpeUnits, prv := { t.prv with port := s.prv.port }, arc := { t.arc with ports := s.arc.ports } })

/-- HELLO opens a session with a number that is not 0, is answered with the same INFO again when it is repeated, and with
status 14 while another source has a session. A message that is none, or of another session, changes nothing. BEGIN,
DATA and END of the open session are answered with the status and the next expected offset: BEGIN names the image, and
is refused in RETIRED, while ROM works and for a payload that names none; DATA at the expected offset is stored, at a
lower one acknowledged only, at a higher one refused; a repeated request gets the same answer again and acts once; END
starts the check and the write of a firmware image, a Docent image or a boot configuration, is answered 14 until that
ends, and then with the result. The end of the work stores a good image in its place, writes a refused image as an
event, and keeps the result in the session summary. RESET and ABORT close the session, ABORT but while ROM works, as
30 s without a valid request do. Nothing else changes. The SESSION and OFFSET that the rules leave open, an ABORT
while ROM works and the event of a refused image are as assumption 129 says. (R506, R521, R523, R529, R531, R532,
R533, R534, R535) -/
def Obligations.Conservator : Prop := ∀ (s : State) (dt : Nat), s.wf = true →
  (∀ (source : Nat) (msg : List Byte) (q : CvReq), s.lcs.phase = .conservator →
      cvParse msg = some q →
      q.type = 1 →
      q.session = 0 →
      ((s.cv.session.all fun x => x.2 == source && s.cv.lastSeq != some q.seq) = true) →
      ∃ t, exec (.cvHello dt ⟨source, msg⟩) s = .next t ∧
        (t.cv =
          { (if s.cv.working = true then { s.cv with session := none, lastSeq := none, lastResp := none } else { s.cv with session := none, lastSeq := none, lastResp := none, kind := none, total := 0, expected := 0, data := [], result := none }) with session := some (1 + (Config.cvSession s.freeCtr).toNat % 4294967295, source), lastAt := (s.elapse dt).time.clock, lastSeq := some q.seq, lastResp := some (⟨2, 1 + (Config.cvSession s.freeCtr).toNat % 4294967295, q.seq, (Config.cvSession (s.freeCtr + 2)).toNat, 0, s.cvInfo⟩ : CvResp), sent := some (source, cvMessage (⟨2, 1 + (Config.cvSession s.freeCtr).toNat % 4294967295, q.seq, (Config.cvSession (s.freeCtr + 2)).toNat, 0, s.cvInfo⟩ : CvResp)) })
          ∧
        t.freeCtr = s.freeCtr + 2 ∧
        Leaves dt [] s t { t with freeCtr := s.freeCtr, cv := s.cv }) ∧
  (∀ (source : Nat) (msg : List Byte) (q : CvReq) (id src : Nat), s.lcs.phase = .conservator →
      cvParse msg = some q →
      q.type = 1 →
      q.session = 0 →
      s.cv.session = some (id, src) →
      src ≠ source →
      ∃ t, exec (.cvHello dt ⟨source, msg⟩) s = .next t ∧
        t.cv =
          { s.cv with sent := some (source, cvMessage ⟨2, (Config.cvSession (s.freeCtr + 1)).toNat, q.seq, (Config.cvSession (s.freeCtr + 2)).toNat, 14, s.cvInfo⟩) }
          ∧
        Leaves dt [] s t { t with freeCtr := s.freeCtr, cv := s.cv }) ∧
  (∀ (source : Nat) (msg : List Byte) (q : CvReq) (id : Nat) (r : CvResp), s.lcs.phase = .conservator →
      cvParse msg = some q →
      q.type = 1 →
      q.session = 0 →
      s.cv.session = some (id, source) →
      s.cv.lastSeq = some q.seq →
      s.cv.lastResp = some r →
      ∃ t, exec (.cvHello dt ⟨source, msg⟩) s = .next t ∧
        t.cv = { s.cv with lastAt := (s.elapse dt).time.clock, sent := some (source, cvMessage r) } ∧
        Leaves dt [] s t { t with cv := s.cv }) ∧
  (∀ (source : Nat) (msg : List Byte), ((cvParse msg).all (fun q => q.type != 1 || q.session != 0) = true) →
      ∃ t, exec (.cvHello dt ⟨source, msg⟩) s = .next t ∧
        t.cv = s.cv ∧
        Leaves dt [] s t t) ∧
  (∀ (addr port : Nat) (source : Nat) (msg : List Byte), source = addr * 65536 + port →
      ((cvParse msg).all (fun q => s.cv.session != some (q.session, source)) = true) →
      ∃ t, exec (.cvBegin dt addr port msg) s = .next t ∧
        t.cv = s.cv ∧
        Leaves dt [] s t t) ∧
  (∀ (addr port : Nat) (source : Nat) (msg : List Byte), source = addr * 65536 + port →
      ((cvParse msg).all (fun q => s.cv.session != some (q.session, source)) = true) →
      ∃ t, exec (.cvData dt addr port msg) s = .next t ∧
        t.cv = s.cv ∧
        Leaves dt [] s t t) ∧
  (∀ (source : Nat) (msg : List Byte), ((cvParse msg).all (fun q => s.cv.session != some (q.session, source)) = true) →
      ∃ t, exec (.cvEnd dt source msg) s = .next t ∧
        t.cv = s.cv ∧
        Leaves dt [] s t t) ∧
  (∀ (source : Nat) (msg : List Byte), ((cvParse msg).all (fun q => s.cv.session != some (q.session, source)) = true) →
      ∃ t, exec (.cvReset dt ⟨source, msg⟩) s = .next t ∧
        t.cv = s.cv ∧
        Leaves dt [] s t t) ∧
  (∀ (source : Nat) (msg : List Byte), ((cvParse msg).all (fun q => s.cv.session != some (q.session, source)) = true) →
      ∃ t, exec (.cvAbort dt ⟨source, msg⟩) s = .next t ∧
        t.cv = s.cv ∧
        Leaves dt [] s t t) ∧
  (∀ (addr port : Nat) (source : Nat) (msg : List Byte) (q : CvReq), source = addr * 65536 + port →
      s.lcs.phase = .conservator →
      cvParse msg = some q →
      q.type = 3 →
      s.cv.session = some (q.session, source) →
      s.cv.lastSeq ≠ some q.seq →
      s.lcState ≠ 4 →
      s.cv.working = false →
      q.payload.length = 8 →
      1 ≤ (beNat (q.payload.take 1)) ∧ (beNat (q.payload.take 1)) ≤ 3 →
      (beNat ((q.payload.drop 4).take 4)) ≤ 536870912 →
      ∃ t, exec (.cvBegin dt addr port msg) s = .next t ∧
        t.cv =
          { s.cv with kind := some (beNat (q.payload.take 1)), total := (beNat ((q.payload.drop 4).take 4)), expected := 0, data := [], result := none, lastAt := (s.elapse dt).time.clock, lastSeq := some q.seq, lastResp := some (⟨5, q.session, q.seq, 0, 0, []⟩ : CvResp), sent := some (source, cvMessage (⟨5, q.session, q.seq, 0, 0, []⟩ : CvResp)) }
          ∧
        Leaves dt [] s t { t with cv := s.cv }) ∧
  (∀ (addr port : Nat) (source : Nat) (msg : List Byte) (q : CvReq), source = addr * 65536 + port →
      s.lcs.phase = .conservator →
      cvParse msg = some q →
      q.type = 3 →
      s.cv.session = some (q.session, source) →
      s.cv.lastSeq ≠ some q.seq →
      s.lcState = 4 →
      ∃ t, exec (.cvBegin dt addr port msg) s = .next t ∧
        t.cv =
          { s.cv with lastAt := (s.elapse dt).time.clock, lastSeq := some q.seq, lastResp := some (⟨5, q.session, q.seq, s.cv.expected, 10, []⟩ : CvResp), sent := some (source, cvMessage (⟨5, q.session, q.seq, s.cv.expected, 10, []⟩ : CvResp)) }
          ∧
        Leaves dt [] s t { t with cv := s.cv }) ∧
  (∀ (addr port : Nat) (source : Nat) (msg : List Byte) (q : CvReq), source = addr * 65536 + port →
      s.lcs.phase = .conservator →
      cvParse msg = some q →
      q.type = 3 →
      s.cv.session = some (q.session, source) →
      s.cv.lastSeq ≠ some q.seq →
      s.lcState ≠ 4 →
      s.cv.working = true →
      ∃ t, exec (.cvBegin dt addr port msg) s = .next t ∧
        t.cv =
          { s.cv with lastAt := (s.elapse dt).time.clock, lastSeq := some q.seq, lastResp := some (⟨5, q.session, q.seq, s.cv.expected, 14, []⟩ : CvResp), sent := some (source, cvMessage (⟨5, q.session, q.seq, s.cv.expected, 14, []⟩ : CvResp)) }
          ∧
        Leaves dt [] s t { t with cv := s.cv }) ∧
  (∀ (addr port : Nat) (source : Nat) (msg : List Byte) (q : CvReq), source = addr * 65536 + port →
      s.lcs.phase = .conservator →
      cvParse msg = some q →
      q.type = 3 →
      s.cv.session = some (q.session, source) →
      s.cv.lastSeq ≠ some q.seq →
      s.lcState ≠ 4 →
      s.cv.working = false →
      q.payload.length ≠ 8 ∨ (beNat (q.payload.take 1)) = 0 ∨ 3 < (beNat (q.payload.take 1)) ∨ 536870912 < (beNat
        ((q.payload.drop 4).take 4)) →
      ∃ t, exec (.cvBegin dt addr port msg) s = .next t ∧
        t.cv =
          { s.cv with lastAt := (s.elapse dt).time.clock, lastSeq := some q.seq, lastResp := some (⟨5, q.session, q.seq, s.cv.expected, 1, []⟩ : CvResp), sent := some (source, cvMessage (⟨5, q.session, q.seq, s.cv.expected, 1, []⟩ : CvResp)) }
          ∧
        Leaves dt [] s t { t with cv := s.cv }) ∧
  (∀ (addr port : Nat) (source : Nat) (msg : List Byte) (q : CvReq) (r : CvResp), source = addr * 65536 + port →
      s.lcs.phase = .conservator →
      cvParse msg = some q →
      q.type = 3 →
      s.cv.session = some (q.session, source) →
      s.cv.lastSeq = some q.seq →
      s.cv.lastResp = some r →
      ∃ t, exec (.cvBegin dt addr port msg) s = .next t ∧
        t.cv = { s.cv with lastAt := (s.elapse dt).time.clock, sent := some (source, cvMessage r) } ∧
        Leaves dt [] s t { t with cv := s.cv }) ∧
  (∀ (addr port : Nat) (source : Nat) (msg : List Byte) (q : CvReq), source = addr * 65536 + port →
      s.lcs.phase = .conservator →
      cvParse msg = some q →
      q.type = 4 →
      s.cv.session = some (q.session, source) →
      s.cv.lastSeq ≠ some q.seq →
      s.cv.working = false →
      s.cv.kind.isSome = true →
      q.offset = s.cv.expected →
      ∃ t, exec (.cvData dt addr port msg) s = .next t ∧
        t.cv =
          { s.cv with expected := s.cv.expected + q.payload.length, data := s.cv.data ++ q.payload, lastAt := (s.elapse dt).time.clock, lastSeq := some q.seq, lastResp := some (⟨5, q.session, q.seq, (s.cv.expected + q.payload.length), 0, []⟩ : CvResp), sent := some (source, cvMessage (⟨5, q.session, q.seq, (s.cv.expected + q.payload.length), 0, []⟩ : CvResp)) }
          ∧
        Leaves dt [] s t { t with cv := s.cv }) ∧
  (∀ (addr port : Nat) (source : Nat) (msg : List Byte) (q : CvReq), source = addr * 65536 + port →
      s.lcs.phase = .conservator →
      cvParse msg = some q →
      q.type = 4 →
      s.cv.session = some (q.session, source) →
      s.cv.lastSeq ≠ some q.seq →
      s.cv.working = false →
      s.cv.kind.isSome = true →
      q.offset < s.cv.expected →
      ∃ t, exec (.cvData dt addr port msg) s = .next t ∧
        t.cv =
          { s.cv with lastAt := (s.elapse dt).time.clock, lastSeq := some q.seq, lastResp := some (⟨5, q.session, q.seq, s.cv.expected, 0, []⟩ : CvResp), sent := some (source, cvMessage (⟨5, q.session, q.seq, s.cv.expected, 0, []⟩ : CvResp)) }
          ∧
        Leaves dt [] s t { t with cv := s.cv }) ∧
  (∀ (addr port : Nat) (source : Nat) (msg : List Byte) (q : CvReq), source = addr * 65536 + port →
      s.lcs.phase = .conservator →
      cvParse msg = some q →
      q.type = 4 →
      s.cv.session = some (q.session, source) →
      s.cv.lastSeq ≠ some q.seq →
      s.cv.working = false →
      s.cv.kind = none ∨ s.cv.expected < q.offset →
      ∃ t, exec (.cvData dt addr port msg) s = .next t ∧
        t.cv =
          { s.cv with lastAt := (s.elapse dt).time.clock, lastSeq := some q.seq, lastResp := some (⟨5, q.session, q.seq, s.cv.expected, 1, []⟩ : CvResp), sent := some (source, cvMessage (⟨5, q.session, q.seq, s.cv.expected, 1, []⟩ : CvResp)) }
          ∧
        Leaves dt [] s t { t with cv := s.cv }) ∧
  (∀ (addr port : Nat) (source : Nat) (msg : List Byte) (q : CvReq), source = addr * 65536 + port →
      s.lcs.phase = .conservator →
      cvParse msg = some q →
      q.type = 4 →
      s.cv.session = some (q.session, source) →
      s.cv.lastSeq ≠ some q.seq →
      s.cv.working = true →
      ∃ t, exec (.cvData dt addr port msg) s = .next t ∧
        t.cv =
          { s.cv with lastAt := (s.elapse dt).time.clock, lastSeq := some q.seq, lastResp := some (⟨5, q.session, q.seq, s.cv.expected, 14, []⟩ : CvResp), sent := some (source, cvMessage (⟨5, q.session, q.seq, s.cv.expected, 14, []⟩ : CvResp)) }
          ∧
        Leaves dt [] s t { t with cv := s.cv }) ∧
  (∀ (addr port : Nat) (source : Nat) (msg : List Byte) (q : CvReq) (r : CvResp), source = addr * 65536 + port →
      s.lcs.phase = .conservator →
      cvParse msg = some q →
      q.type = 4 →
      s.cv.session = some (q.session, source) →
      s.cv.lastSeq = some q.seq →
      s.cv.lastResp = some r →
      ∃ t, exec (.cvData dt addr port msg) s = .next t ∧
        t.cv = { s.cv with lastAt := (s.elapse dt).time.clock, sent := some (source, cvMessage r) } ∧
        Leaves dt [] s t { t with cv := s.cv }) ∧
  (∀ (source : Nat) (msg : List Byte) (q : CvReq), s.lcs.phase = .conservator →
      cvParse msg = some q →
      q.type = 6 →
      s.cv.session = some (q.session, source) →
      s.cv.result = none →
      s.cv.working = false →
      s.cv.kind = none →
      ∃ t, exec (.cvEnd dt source msg) s = .next t ∧
        t.cv =
          { s.cv with lastAt := (s.elapse dt).time.clock, lastSeq := some q.seq, lastResp := some (⟨5, q.session, q.seq, s.cv.expected, 1, []⟩ : CvResp), sent := some (source, cvMessage (⟨5, q.session, q.seq, s.cv.expected, 1, []⟩ : CvResp)) }
          ∧
        Leaves dt [] s t { t with cv := s.cv }) ∧
  (∀ (source : Nat) (msg : List Byte) (q : CvReq), s.lcs.phase = .conservator →
      cvParse msg = some q →
      q.type = 6 →
      s.cv.session = some (q.session, source) →
      s.cv.result = none →
      s.cv.working = true →
      ∃ t, exec (.cvEnd dt source msg) s = .next t ∧
        t.cv =
          { s.cv with lastAt := (s.elapse dt).time.clock, lastSeq := some q.seq, lastResp := some (⟨5, q.session, q.seq, s.cv.expected, 14, []⟩ : CvResp), sent := some (source, cvMessage (⟨5, q.session, q.seq, s.cv.expected, 14, []⟩ : CvResp)) }
          ∧
        Leaves dt [] s t { t with cv := s.cv }) ∧
  (∀ (source : Nat) (msg : List Byte) (q : CvReq), s.lcs.phase = .conservator →
      cvParse msg = some q →
      q.type = 6 →
      s.cv.session = some (q.session, source) →
      s.cv.result = none →
      s.cv.working = false →
      s.cv.kind.isSome = true →
      s.cvCheck ≠ 0 ∨ s.flashStopped = true →
      ∃ t, exec (.cvEnd dt source msg) s = .next t ∧
        t.cv =
          { s.cv with working := true, lastAt := (s.elapse dt).time.clock, lastSeq := some q.seq, lastResp := some (⟨5, q.session, q.seq, s.cv.expected, 14, []⟩ : CvResp), sent := some (source, cvMessage (⟨5, q.session, q.seq, s.cv.expected, 14, []⟩ : CvResp)) }
          ∧
        Leaves dt [] s t { t with cv := s.cv }) ∧
  (∀ (source : Nat) (msg : List Byte) (q : CvReq), s.lcs.phase = .conservator →
      cvParse msg = some q →
      q.type = 6 →
      s.cv.session = some (q.session, source) →
      s.cv.result = none →
      s.cv.working = false →
      s.cv.kind = some 1 →
      s.cvCheck = 0 →
      s.flashStopped = false →
      ∃ t, exec (.cvEnd dt source msg) s = .next t ∧
        t.lcs.writing = true ∧
        t.lcs.firmware = none ∧
        t.cv =
          { s.cv with working := true, lastAt := (s.elapse dt).time.clock, lastSeq := some q.seq, lastResp := some (⟨5, q.session, q.seq, s.cv.expected, 14, []⟩ : CvResp), sent := some (source, cvMessage (⟨5, q.session, q.seq, s.cv.expected, 14, []⟩ : CvResp)) }
          ∧
        Leaves dt [] s t { t with cv := s.cv, lcs := { t.lcs with writing := s.lcs.writing, firmware := s.lcs.firmware } }) ∧
  (∀ (source : Nat) (msg : List Byte) (q : CvReq), s.lcs.phase = .conservator →
      cvParse msg = some q →
      q.type = 6 →
      s.cv.session = some (q.session, source) →
      s.cv.result = none →
      s.cv.working = false →
      s.cv.kind = some 2 →
      s.cvCheck = 0 →
      s.flashStopped = false →
      ∃ t, exec (.cvEnd dt source msg) s = .next t ∧
        (if s.cvTarget 2 = 0 then t.lcs.docent0 = none ∧ t.lcs.docent1 = s.lcs.docent1 else t.lcs.docent1 = none ∧
          t.lcs.docent0 = s.lcs.docent0) ∧
        t.cv =
          { s.cv with working := true, lastAt := (s.elapse dt).time.clock, lastSeq := some q.seq, lastResp := some (⟨5, q.session, q.seq, s.cv.expected, 14, []⟩ : CvResp), sent := some (source, cvMessage (⟨5, q.session, q.seq, s.cv.expected, 14, []⟩ : CvResp)) }
          ∧
        Leaves dt [] s t { t with cv := s.cv, lcs := { t.lcs with docent0 := s.lcs.docent0, docent1 := s.lcs.docent1 } }) ∧
  (∀ (source : Nat) (msg : List Byte) (q : CvReq), s.lcs.phase = .conservator →
      cvParse msg = some q →
      q.type = 6 →
      s.cv.session = some (q.session, source) →
      s.cv.result = none →
      s.cv.working = false →
      s.cv.kind = some 3 →
      s.cvCheck = 0 →
      s.flashStopped = false →
      ∃ t, exec (.cvEnd dt source msg) s = .next t ∧
        (if s.cvTarget 3 = 0 then t.lcs.bootCfg0 = none ∧ t.lcs.bootCfg1 = s.lcs.bootCfg1 else t.lcs.bootCfg1 = none ∧
          t.lcs.bootCfg0 = s.lcs.bootCfg0) ∧
        t.cv =
          { s.cv with working := true, lastAt := (s.elapse dt).time.clock, lastSeq := some q.seq, lastResp := some (⟨5, q.session, q.seq, s.cv.expected, 14, []⟩ : CvResp), sent := some (source, cvMessage (⟨5, q.session, q.seq, s.cv.expected, 14, []⟩ : CvResp)) }
          ∧
        Leaves dt [] s t { t with cv := s.cv, lcs := { t.lcs with bootCfg0 := s.lcs.bootCfg0, bootCfg1 := s.lcs.bootCfg1 } })
          ∧
  (∀ (source : Nat) (msg : List Byte) (q : CvReq) (r : Nat), s.lcs.phase = .conservator →
      cvParse msg = some q →
      q.type = 6 →
      s.cv.session = some (q.session, source) →
      s.cv.result = some r →
      ∃ t, exec (.cvEnd dt source msg) s = .next t ∧
        t.cv =
          { s.cv with lastAt := (s.elapse dt).time.clock, lastSeq := some q.seq, lastResp := some ⟨7, q.session, q.seq, (Config.cvSession (s.freeCtr + 1)).toNat, r, []⟩, sent := some (source, cvMessage ⟨7, q.session, q.seq, (Config.cvSession (s.freeCtr + 1)).toNat, r, []⟩) }
          ∧
        Leaves dt [] s t { t with freeCtr := s.freeCtr, cv := s.cv }) ∧
  (∀ (img : Image), s.lcs.phase = .conservator →
      s.cv.working = true →
      s.cv.kind = some 1 →
      img = parseImage s.cv.data →
      s.cvCheck = 0 →
      s.flashStopped = false →
      ∃ t, exec (.cvWriteDone dt true) s = .next t ∧
        t.lcs.firmware = some ⟨img, s.lcs.storeOrder + 1⟩ ∧
        t.lcs.writing = false ∧
        t.lcs.cvSummary = s.lcs.cvSummary ++ [⟨s.lcs.cvCause.getD 0, 1, 0, img.hash⟩] ∧
        t.cv = { s.cv with working := false, result := some 0, lastSeq := none } ∧
        Leaves dt [] s t
          { t with cv := s.cv, lcs := { t.lcs with storeOrder := s.lcs.storeOrder, firmware := s.lcs.firmware, writing := s.lcs.writing, cvSummary := s.lcs.cvSummary } })
          ∧
  (∀ (img : Image), s.lcs.phase = .conservator →
      s.cv.working = true →
      s.cv.kind = some 2 →
      img = parseImage s.cv.data →
      s.cvCheck = 0 →
      s.flashStopped = false →
      ∃ t, exec (.cvWriteDone dt true) s = .next t ∧
        (if s.cvTarget 2 = 0 then t.lcs.docent0 = some ⟨img, s.lcs.storeOrder + 1⟩ ∧ t.lcs.docentNext = 0 ∧ t.lcs.docent1 =
          s.lcs.docent1 else t.lcs.docent1 = some ⟨img, s.lcs.storeOrder + 1⟩ ∧ t.lcs.docentNext = 1 ∧ t.lcs.docent0 =
          s.lcs.docent0) ∧
        t.lcs.cvSummary = s.lcs.cvSummary ++ [⟨s.lcs.cvCause.getD 0, 2, 0, img.hash⟩] ∧
        t.cv = { s.cv with working := false, result := some 0, lastSeq := none } ∧
        Leaves dt [] s t
          { t with cv := s.cv, lcs := { t.lcs with storeOrder := s.lcs.storeOrder, docent0 := s.lcs.docent0, docent1 := s.lcs.docent1, docentNext := s.lcs.docentNext, cvSummary := s.lcs.cvSummary } })
          ∧
  (∀ (img : Image), s.lcs.phase = .conservator →
      s.cv.working = true →
      s.cv.kind = some 3 →
      img = parseImage s.cv.data →
      s.cvCheck = 0 →
      s.flashStopped = false →
      ∃ t, exec (.cvWriteDone dt true) s = .next t ∧
        (if s.cvTarget 3 = 0 then t.lcs.bootCfg0 = some ⟨img, s.lcs.storeOrder + 1⟩ ∧ t.lcs.bootCfg1 = s.lcs.bootCfg1 else
          t.lcs.bootCfg1 = some ⟨img, s.lcs.storeOrder + 1⟩ ∧ t.lcs.bootCfg0 = s.lcs.bootCfg0) ∧
        t.lcs.cvSummary = s.lcs.cvSummary ++ [⟨s.lcs.cvCause.getD 0, 3, 0, img.hash⟩] ∧
        t.cv = { s.cv with working := false, result := some 0, lastSeq := none } ∧
        Leaves dt [] s t
          { t with cv := s.cv, lcs := { t.lcs with storeOrder := s.lcs.storeOrder, bootCfg0 := s.lcs.bootCfg0, bootCfg1 := s.lcs.bootCfg1, cvSummary := s.lcs.cvSummary } })
          ∧
  (∀ (written : Bool), s.lcs.phase = .conservator →
      s.cv.working = true →
      s.cvCheck = 0 →
      written = false ∨ s.flashStopped = true →
      ∃ t, exec (.cvWriteDone dt written) s = .next t ∧
        t.lcs.cvSummary = s.lcs.cvSummary ++ [⟨s.lcs.cvCause.getD 0, s.cv.kind.getD 0, 13, (parseImage s.cv.data).hash⟩] ∧
        t.cv = { s.cv with working := false, result := some 13, lastSeq := none } ∧
        Leaves dt [] s t { t with cv := s.cv, lcs := { t.lcs with cvSummary := s.lcs.cvSummary } }) ∧
  (∀ (written : Bool), s.lcs.phase = .conservator →
      s.cv.working = true →
      s.cvCheck ≠ 0 →
      PortRoom s 0x15 →
      ∃ t, exec (.cvWriteDone dt written) s = .next t ∧
        t.lcs.cvSummary = s.lcs.cvSummary ++ [⟨s.lcs.cvCause.getD 0, s.cv.kind.getD 0, s.cvCheck, (parseImage
          s.cv.data).hash⟩] ∧
        Offered 0x15 0x1605 3 60 (p4 [(parseImage s.cv.data).kind, s.cvCheck]) s t ∧
        t.cv = { s.cv with working := false, result := some s.cvCheck, lastSeq := none } ∧
        Leaves dt [] s t
          { t with cv := s.cv, lcs := { t.lcs with cvSummary := s.lcs.cvSummary }, arc := { t.arc with ports := s.arc.ports } })
          ∧
  (∀ (source : Nat) (msg : List Byte) (q : CvReq), s.lcs.phase = .conservator →
      cvParse msg = some q →
      q.type = 8 →
      s.cv.session = some (q.session, source) →
      s.cv.lastSeq ≠ some q.seq →
      ∃ t, exec (.cvReset dt ⟨source, msg⟩) s = .next t ∧
        (t.cv =
          { (if s.cv.working = true then { s.cv with session := none, lastSeq := none, lastResp := none } else { s.cv with session := none, lastSeq := none, lastResp := none, kind := none, total := 0, expected := 0, data := [], result := none }) with lastAt := (s.elapse dt).time.clock, sent := some (source, cvMessage (⟨5, q.session, q.seq, s.cv.expected, 0, []⟩ : CvResp)), resetDue := true })
          ∧
        Leaves dt [] s t { t with cv := s.cv }) ∧
  (∀ (source : Nat) (msg : List Byte) (q : CvReq), s.lcs.phase = .conservator →
      cvParse msg = some q →
      q.type = 9 →
      s.cv.session = some (q.session, source) →
      s.cv.lastSeq ≠ some q.seq →
      s.cv.working = false →
      ∃ t, exec (.cvAbort dt ⟨source, msg⟩) s = .next t ∧
        (t.cv =
          { (if s.cv.working = true then { s.cv with session := none, lastSeq := none, lastResp := none } else { s.cv with session := none, lastSeq := none, lastResp := none, kind := none, total := 0, expected := 0, data := [], result := none }) with lastAt := (s.elapse dt).time.clock, sent := some (source, cvMessage (⟨5, q.session, q.seq, s.cv.expected, 0, []⟩ : CvResp)) })
          ∧
        Leaves dt [] s t { t with cv := s.cv }) ∧
  (∀ (source : Nat) (msg : List Byte) (q : CvReq), s.lcs.phase = .conservator →
      cvParse msg = some q →
      q.type = 9 →
      s.cv.session = some (q.session, source) →
      s.cv.lastSeq ≠ some q.seq →
      s.cv.working = true →
      ∃ t, exec (.cvAbort dt ⟨source, msg⟩) s = .next t ∧
        t.cv =
          { s.cv with lastAt := (s.elapse dt).time.clock, lastSeq := some q.seq, lastResp := some (⟨5, q.session, q.seq, s.cv.expected, 14, []⟩ : CvResp), sent := some (source, cvMessage (⟨5, q.session, q.seq, s.cv.expected, 14, []⟩ : CvResp)) }
          ∧
        Leaves dt [] s t { t with cv := s.cv }) ∧
  (s.cv.session.isSome = true →
      s.cv.lastAt + 30000000000 ≤ (s.elapse dt).time.clock →
      ∃ t, exec (.cvSessionTimeout dt) s = .next t ∧
        (t.cv = (if s.cv.working = true then { s.cv with session := none, lastSeq := none, lastResp := none } else
          { s.cv with session := none, lastSeq := none, lastResp := none, kind := none, total := 0, expected := 0, data := [], result := none }))
          ∧
        Leaves dt [] s t { t with cv := s.cv }) ∧
  (s.cv.session = none ∨ (s.elapse dt).time.clock < s.cv.lastAt + 30000000000 →
      ∃ t, exec (.cvSessionTimeout dt) s = .next t ∧
        t.cv = s.cv ∧
        Leaves dt [] s t t)
end

