-- ==== Sys2Proof/Laws/Tables.lean ====
section
/-! SUPPORT. Sparse tables in canonical form: what a read gives after a write, and that a write keeps the form. The register
file, the memory and every table of the state are such tables. -/

namespace Sys2Proof.Laws

open Sys2Proof.Machine

variable {α : Type} [DecidableEq α] (d : Nat → α)

theorem sget_scons_ne {a b : Nat} (h : a ≠ b) (v : α) (t : List (Nat × α)) : sget d (scons d a v t) b = sget d t b := by
  unfold scons
  split <;> simp [sget, h]

/-- A write leaves every other number alone. -/
theorem sget_sset_ne {a b : Nat} (h : a ≠ b) (v : α) (t : List (Nat × α)) : sget d (sset d t a v) b = sget d t b := by
  induction t with
  | nil => simp [sset, sget_scons_ne d h]
  | cons x t ih =>
    obtain ⟨k, w⟩ := x
    unfold sset
    split
    · exact sget_scons_ne d h _ _
    · split
      · rename_i hk
        subst hk
        simp [sget_scons_ne d h, sget, h]
      · simp [sget, ih]

/-- Above every listed number a table reads as its default. -/
theorem sget_of_swf_lt {lo a : Nat} (h : a < lo) {t : List (Nat × α)} (hw : swf d lo t = true) : sget d t a = d a := by
  induction t generalizing lo with
  | nil => rfl
  | cons x t ih =>
    obtain ⟨k, w⟩ := x
    simp only [swf, Bool.and_eq_true, decide_eq_true_eq] at hw
    have hk : k ≠ a := by omega
    simp only [sget, hk, if_false]
    exact ih (lo := k + 1) (by omega) hw.2

theorem sget_scons_self (a : Nat) (v : α) {t : List (Nat × α)} (h : sget d t a = d a) : sget d (scons d a v t) a = v := by
  unfold scons
  split
  · rename_i hv
    rw [h, hv]
  · simp [sget]

/-- A read of the number written gives the value written. -/
theorem sget_sset_self {lo : Nat} (a : Nat) (v : α) {t : List (Nat × α)} (hw : swf d lo t = true) :
    sget d (sset d t a v) a = v := by
  induction t generalizing lo with
  | nil => exact sget_scons_self d a v rfl
  | cons x t ih =>
    obtain ⟨k, w⟩ := x
    simp only [swf, Bool.and_eq_true, decide_eq_true_eq] at hw
    unfold sset
    split
    · rename_i hk
      exact sget_scons_self d a v (sget_of_swf_lt d (lo := k) hk (t := (k, w) :: t) (by simp [swf, hw]))
    · split
      · rename_i hk
        subst hk
        exact sget_scons_self d a v (sget_of_swf_lt d (Nat.lt_succ_self a) hw.2)
      · rename_i hk
        have hk' : k ≠ a := fun e => hk e.symm
        simp only [sget, hk', if_false]
        exact ih hw.2

theorem swf_mono {lo lo' : Nat} (h : lo' ≤ lo) {t : List (Nat × α)} (hw : swf d lo t = true) : swf d lo' t = true := by
  cases t with
  | nil => rfl
  | cons x t =>
    obtain ⟨k, w⟩ := x
    simp only [swf, Bool.and_eq_true, decide_eq_true_eq] at hw ⊢
    exact ⟨⟨by omega, hw.1.2⟩, hw.2⟩

theorem swf_scons {lo a : Nat} (h : lo ≤ a) (v : α) {t : List (Nat × α)} (hw : swf d (a + 1) t = true) :
    swf d lo (scons d a v t) = true := by
  unfold scons
  split
  · exact swf_mono d (by omega) hw
  · rename_i hv
    simp [swf, h, hv, hw]

/-- A write keeps the canonical form. -/
theorem swf_sset {lo a : Nat} (h : lo ≤ a) (v : α) {t : List (Nat × α)} (hw : swf d lo t = true) :
    swf d lo (sset d t a v) = true := by
  induction t generalizing lo with
  | nil => exact swf_scons d h v rfl
  | cons x t ih =>
    obtain ⟨k, w⟩ := x
    have hw' := hw
    simp only [swf, Bool.and_eq_true, decide_eq_true_eq] at hw'
    unfold sset
    split
    · refine swf_scons d h v ?_
      simp only [swf, Bool.and_eq_true, decide_eq_true_eq]
      exact ⟨⟨by omega, hw'.1.2⟩, hw'.2⟩
    · split
      · rename_i hk
        subst hk
        exact swf_scons d h v hw'.2
      · simp only [swf, Bool.and_eq_true, decide_eq_true_eq]
        exact ⟨hw'.1, ih (by omega) hw'.2⟩

/-- Taking entries out keeps the canonical form. -/
theorem swf_filter {lo : Nat} (p : Nat × α → Bool) {t : List (Nat × α)} (hw : swf d lo t = true) :
    swf d lo (t.filter p) = true := by
  induction t generalizing lo with
  | nil => rfl
  | cons x t ih =>
    obtain ⟨k, w⟩ := x
    simp only [swf, Bool.and_eq_true, decide_eq_true_eq] at hw
    simp only [List.filter]
    split
    · simp only [swf, Bool.and_eq_true, decide_eq_true_eq]
      exact ⟨hw.1, ih hw.2⟩
    · exact swf_mono d (by omega) (ih hw.2)

/-- Replacing values, and dropping entries, by number keeps the canonical form where no new value is a default. -/
theorem swf_filterMap {lo : Nat} (f : Nat × α → Option (Nat × α)) (hf : ∀ x y, f x = some y → y.1 = x.1 ∧ y.2 ≠ d y.1)
    {t : List (Nat × α)} (hw : swf d lo t = true) : swf d lo (t.filterMap f) = true := by
  induction t generalizing lo with
  | nil => rfl
  | cons x t ih =>
    obtain ⟨k, w⟩ := x
    simp only [swf, Bool.and_eq_true, decide_eq_true_eq] at hw
    simp only [List.filterMap]
    split
    · exact swf_mono d (by omega) (ih hw.2)
    · rename_i y hy
      obtain ⟨h1, h2⟩ := hf _ _ hy
      obtain ⟨k', w'⟩ := y
      simp only at h1 h2
      subst h1
      simp only [swf, Bool.and_eq_true, decide_eq_true_eq]
      exact ⟨⟨hw.1.1, h2⟩, ih hw.2⟩

/-- Two canonical tables that read the same are the same. -/
theorem swf_ext {lo : Nat} {t u : List (Nat × α)} (ht : swf d lo t = true) (hu : swf d lo u = true)
    (h : ∀ a, sget d t a = sget d u a) : t = u := by
  induction t generalizing lo u with
  | nil =>
    cases u with
    | nil => rfl
    | cons y u =>
      obtain ⟨k, w⟩ := y
      simp only [swf, Bool.and_eq_true, decide_eq_true_eq] at hu
      exact absurd (by simpa [sget] using (h k).symm) hu.1.2
  | cons x t ih =>
    obtain ⟨k, w⟩ := x
    have ht' := ht
    simp only [swf, Bool.and_eq_true, decide_eq_true_eq] at ht'
    cases u with
    | nil => exact absurd (by simpa [sget] using h k) ht'.1.2
    | cons y u =>
      obtain ⟨k', w'⟩ := y
      have hu' := hu
      simp only [swf, Bool.and_eq_true, decide_eq_true_eq] at hu'
      rcases Nat.lt_trichotomy k k' with hk | hk | hk
      · have h0 := sget_of_swf_lt d (lo := k') hk (t := (k', w') :: u) (by simp [swf, hu'])
        rw [← h k] at h0
        exact absurd (by simpa [sget] using h0) ht'.1.2
      · subst hk
        have hw : w = w' := by simpa [sget] using h k
        subst hw
        refine congrArg _ (ih ht'.2 hu'.2 fun a => ?_)
        by_cases ha : k = a
        · subst ha
          rw [sget_of_swf_lt d (Nat.lt_succ_self k) ht'.2, sget_of_swf_lt d (Nat.lt_succ_self k) hu'.2]
        · simpa [sget, ha] using h a
      · have h0 := sget_of_swf_lt d (lo := k) hk (t := (k, w) :: t) (by simp [swf, ht'])
        rw [h k'] at h0
        exact absurd (by simpa [sget] using h0) hu'.1.2

/-! ### Tables of state (`tget`, `tset`, `tmod`) -/

section

variable {β : Type} [Inhabited β] [DecidableEq β]

omit [DecidableEq β] in
theorem sget_filter_self (t : Tab β) (i : Nat) :
    sget (fun _ => (default : β)) (t.filter fun x => x.1 != i) i = default := by
  induction t with
  | nil => rfl
  | cons x t ih =>
    by_cases h : x.1 = i
    · simpa [List.filter, h] using ih
    · have hb : (x.1 != i) = true := by simpa using h
      simp only [List.filter, hb, sget]
      rw [if_neg h]
      exact ih

omit [DecidableEq β] in
theorem sget_filter_ne (t : Tab β) {i j : Nat} (h : i ≠ j) :
    sget (fun _ => (default : β)) (t.filter fun x => x.1 != i) j = sget (fun _ => default) t j := by
  induction t with
  | nil => rfl
  | cons x t ih =>
    by_cases hx : x.1 = i
    · have hj : x.1 ≠ j := fun e => h (hx.symm.trans e)
      have hb : (x.1 != i) = false := by simpa using hx
      simp only [List.filter, hb, sget]
      rw [if_neg hj]
      exact ih
    · have hb : (x.1 != i) = true := by simpa using hx
      simp only [List.filter, hb, sget]
      split
      · rfl
      · exact ih

theorem sget_sset_fresh (t : Tab β) (i : Nat) (v : β) (h : ∀ x ∈ t, x.1 ≠ i) :
    sget (fun _ => (default : β)) (sset (fun _ => default) t i v) i = v := by
  induction t with
  | nil =>
    refine sget_scons_self _ i v rfl
  | cons x t ih =>
    obtain ⟨k, w⟩ := x
    have hk : k ≠ i := h (k, w) (List.mem_cons_self ..)
    have ht : ∀ x ∈ t, x.1 ≠ i := fun x hx => h x (List.mem_cons_of_mem _ hx)
    simp only [sset]
    split
    · refine sget_scons_self _ i v ?_
      have : ∀ u : Tab β, (∀ x ∈ u, x.1 ≠ i) → sget (fun _ => (default : β)) u i = default := by
        intro u
        induction u with
        | nil => intro _; rfl
        | cons y u ihu =>
          intro hu
          simp only [sget]
          rw [if_neg (hu y (List.mem_cons_self ..))]
          exact ihu fun x hx => hu x (List.mem_cons_of_mem _ hx)
      exact this _ h
    · rw [if_neg (fun e => hk e.symm)]
      simp only [sget]
      rw [if_neg hk]
      exact ih ht

/-- A table holds what was set. -/
@[simp] theorem tget_tset_self (t : Tab β) (i : Nat) (v : β) : tget (tset t i v) i = v := by
  refine sget_sset_fresh _ i v ?_
  intro x hx
  have := (List.mem_filter.mp hx).2
  simpa using this

/-- Setting one number leaves every other. -/
theorem tget_tset_ne (t : Tab β) {i j : Nat} (h : i ≠ j) (v : β) : tget (tset t i v) j = tget t j := by
  show sget _ (sset _ _ i v) j = _
  rw [sget_sset_ne _ h]
  exact sget_filter_ne t h

@[simp] theorem tget_tmod_self (t : Tab β) (i : Nat) (f : β → β) : tget (tmod t i f) i = f (tget t i) := tget_tset_self ..

theorem tget_tmod_ne (t : Tab β) {i j : Nat} (h : i ≠ j) (f : β → β) : tget (tmod t i f) j = tget t j := tget_tset_ne t h _

end

end Sys2Proof.Laws
end

