-- ==== Sys2Proof/Laws/Regs.lean ====
section
/-! SUPPORT. What the operations over the register file and the memory do: reads after writes, fields, canonical form. -/

namespace Sys2Proof.Laws

open Sys2Proof.Machine

/-! ### Bits of a number -/

/-- A word as the part below a field, the field, and the part above it. -/
theorem split_field (w lo len : Nat) :
    w = w % 2 ^ lo + (w / 2 ^ lo % 2 ^ len) * 2 ^ lo + w / 2 ^ (lo + len) * 2 ^ (lo + len) := by
  have h1 := Nat.mod_add_div w (2 ^ lo)
  have h2 := Nat.mod_add_div (w / 2 ^ lo) (2 ^ len)
  rw [Nat.div_div_eq_div_mul, ← Nat.pow_add] at h2
  have h3 : 2 ^ lo * (w / 2 ^ lo) = (w / 2 ^ lo % 2 ^ len) * 2 ^ lo + w / 2 ^ (lo + len) * 2 ^ (lo + len) := by
    conv_lhs => rw [← h2]
    rw [Nat.mul_add, Nat.mul_comm (2 ^ lo), Nat.pow_add]
    ring
  omega

/-- What replacing a field leaves. -/
theorem putBits_eq (w lo len v : Nat) :
    State.putBits w lo len v = w % 2 ^ lo + (v % 2 ^ len) * 2 ^ lo + w / 2 ^ (lo + len) * 2 ^ (lo + len) := by
  have h := split_field w lo len
  unfold State.putBits
  omega

theorem low_mid_lt (w v lo len : Nat) : w % 2 ^ lo + (v % 2 ^ len) * 2 ^ lo < 2 ^ (lo + len) := by
  have h1 := Nat.mod_lt w (Nat.two_pow_pos lo)
  have h2 := Nat.mod_lt v (Nat.two_pow_pos len)
  have h3 : (v % 2 ^ len + 1) * 2 ^ lo ≤ 2 ^ len * 2 ^ lo := Nat.mul_le_mul_right _ h2
  have h4 : 2 ^ len * 2 ^ lo = 2 ^ (lo + len) := by rw [Nat.mul_comm, ← Nat.pow_add]
  have h5 : (v % 2 ^ len + 1) * 2 ^ lo = (v % 2 ^ len) * 2 ^ lo + 2 ^ lo := by ring
  omega

/-- The field that was replaced. -/
theorem putBits_self (w lo len v : Nat) : State.putBits w lo len v / 2 ^ lo % 2 ^ len = v % 2 ^ len := by
  rw [putBits_eq]
  have h : w % 2 ^ lo + (v % 2 ^ len) * 2 ^ lo + w / 2 ^ (lo + len) * 2 ^ (lo + len) =
      w % 2 ^ lo + 2 ^ lo * (v % 2 ^ len + 2 ^ len * (w / 2 ^ (lo + len))) := by
    rw [Nat.pow_add]; ring
  rw [h, Nat.add_mul_div_left _ _ (Nat.two_pow_pos lo), Nat.div_eq_of_lt (Nat.mod_lt _ (Nat.two_pow_pos lo)), Nat.zero_add,
    Nat.add_mul_mod_self_left, Nat.mod_mod]

/-- A field below the one that was replaced. -/
theorem putBits_below {w lo len v lo' len' : Nat} (h : lo' + len' ≤ lo) :
    State.putBits w lo len v / 2 ^ lo' % 2 ^ len' = w / 2 ^ lo' % 2 ^ len' := by
  obtain ⟨k, rfl⟩ := Nat.exists_eq_add_of_le h
  rw [putBits_eq]
  have hm : ∀ a b c : Nat, (a + b * 2 ^ (lo' + len' + k) + c * 2 ^ (lo' + len' + k + len)) % 2 ^ (lo' + len') =
      a % 2 ^ (lo' + len') := by
    intro a b c
    have : a + b * 2 ^ (lo' + len' + k) + c * 2 ^ (lo' + len' + k + len) =
        a + 2 ^ (lo' + len') * (b * 2 ^ k + c * 2 ^ (k + len)) := by
      simp only [Nat.pow_add]; ring
    rw [this, Nat.add_mul_mod_self_left]
  have hd : ∀ x : Nat, x / 2 ^ lo' % 2 ^ len' = x % 2 ^ (lo' + len') / 2 ^ lo' := by
    intro x
    rw [Nat.pow_add, Nat.mod_mul_right_div_self]
  rw [hd, hd, hm, Nat.mod_mod_of_dvd _ (Nat.pow_dvd_pow 2 (Nat.le_add_right _ _))]

/-- A field above the one that was replaced. -/
theorem putBits_above {w lo len v lo' len' : Nat} (h : lo + len ≤ lo') :
    State.putBits w lo len v / 2 ^ lo' % 2 ^ len' = w / 2 ^ lo' % 2 ^ len' := by
  obtain ⟨k, rfl⟩ := Nat.exists_eq_add_of_le h
  have hd : State.putBits w lo len v / 2 ^ (lo + len) = w / 2 ^ (lo + len) := by
    rw [putBits_eq, Nat.add_mul_div_right _ _ (Nat.two_pow_pos _), Nat.div_eq_of_lt (low_mid_lt w v lo len), Nat.zero_add]
  rw [Nat.pow_add _ (lo + len) k, ← Nat.div_div_eq_div_mul, hd, Nat.div_div_eq_div_mul]

/-- Replacing a field keeps the width. -/
theorem putBits_lt {w lo len v n : Nat} (hw : w < 2 ^ n) (h : lo + len ≤ n) : State.putBits w lo len v < 2 ^ n := by
  rw [putBits_eq]
  have h1 := low_mid_lt w v lo len
  have h2 : w / 2 ^ (lo + len) < 2 ^ (n - (lo + len)) := by
    rw [Nat.div_lt_iff_lt_mul (Nat.two_pow_pos _), ← Nat.pow_add, Nat.sub_add_cancel h]
    exact hw
  have h3 : (w / 2 ^ (lo + len) + 1) * 2 ^ (lo + len) ≤ 2 ^ (n - (lo + len)) * 2 ^ (lo + len) := Nat.mul_le_mul_right _ h2
  rw [← Nat.pow_add, Nat.sub_add_cancel h] at h3
  have h4 : (w / 2 ^ (lo + len) + 1) * 2 ^ (lo + len) = w / 2 ^ (lo + len) * 2 ^ (lo + len) + 2 ^ (lo + len) := by ring
  omega

/-! ### The register file -/

theorem regsWf_wr {s : State} (a v : Nat) (h : s.regsWf = true) : (s.wr a v).regsWf = true :=
  swf_sset _ (Nat.zero_le _) _ h

@[simp] theorem rdw_wr_ne {s : State} {a b : Nat} (h : a ≠ b) (v : Nat) : (s.wr a v).rdw b = s.rdw b :=
  sget_sset_ne _ h _ _

theorem rdw_wr_self {s : State} (a v : Nat) (h : s.regsWf = true) : (s.wr a v).rdw a = BitVec.ofNat 32 v :=
  sget_sset_self _ a _ h

@[simp] theorem rd_wr_ne {s : State} {a b : Nat} (h : a ≠ b) (v : Nat) : (s.wr a v).rd b = s.rd b := by
  unfold State.rd
  rw [rdw_wr_ne h]

theorem rd_wr_self {s : State} (a v : Nat) (h : s.regsWf = true) : (s.wr a v).rd a = v % 4294967296 := by
  unfold State.rd
  rw [rdw_wr_self a v h]
  simp

theorem rd_lt (s : State) (a : Nat) : s.rd a < 4294967296 := (s.rdw a).isLt

theorem rd64_lt (s : State) (a : Nat) : s.rd64 a < 18446744073709551616 := by
  have h1 := rd_lt s a
  have h2 := rd_lt s (a + 4)
  unfold State.rd64
  omega

theorem regsWf_wr64 {s : State} (a v : Nat) (h : s.regsWf = true) : (s.wr64 a v).regsWf = true :=
  regsWf_wr _ _ (regsWf_wr _ _ h)

@[simp] theorem rd_wr64_ne {s : State} {a b : Nat} (h : a ≠ b) (h' : a + 4 ≠ b) (v : Nat) : (s.wr64 a v).rd b = s.rd b := by
  simp [State.wr64, h, h']

theorem rd64_wr64_self {s : State} (a v : Nat) (h : s.regsWf = true) :
    (s.wr64 a v).rd64 a = v % 18446744073709551616 := by
  have h1 : (s.wr64 a v).rd a = v % 4294967296 := by
    unfold State.wr64
    rw [rd_wr_ne (by omega), rd_wr_self a v h]
  have h2 : (s.wr64 a v).rd (a + 4) = v / 4294967296 % 4294967296 := by
    unfold State.wr64
    rw [rd_wr_self (a + 4) _ (regsWf_wr a v h)]
  unfold State.rd64
  rw [h1, h2]
  omega

@[simp] theorem rd64_wr64_ne {s : State} {a b : Nat} (h0 : a ≠ b) (h1 : a + 4 ≠ b) (h2 : a ≠ b + 4) (v : Nat) :
    (s.wr64 a v).rd64 b = s.rd64 b := by
  simp [State.rd64, h0, h1, h2]

@[simp] theorem rd64_wr_ne {s : State} {a b : Nat} (h0 : a ≠ b) (h1 : a ≠ b + 4) (v : Nat) :
    (s.wr a v).rd64 b = s.rd64 b := by
  simp [State.rd64, h0, h1]

/-- A counter counts. -/
theorem rd64_inc64_self {s : State} (a : Nat) (h : s.regsWf = true) :
    (s.inc64 a).rd64 a = (s.rd64 a + 1) % 18446744073709551616 := rd64_wr64_self a _ h

theorem rd64_add64_self {s : State} (a n : Nat) (h : s.regsWf = true) :
    (s.add64 a n).rd64 a = (s.rd64 a + n) % 18446744073709551616 := rd64_wr64_self a _ h

@[simp] theorem rd_add64_ne {s : State} {a b : Nat} (h : a ≠ b) (h' : a + 4 ≠ b) (n : Nat) : (s.add64 a n).rd b = s.rd b :=
  rd_wr64_ne h h' _

@[simp] theorem rd64_add64_ne {s : State} {a b : Nat} (h0 : a ≠ b) (h1 : a + 4 ≠ b) (h2 : a ≠ b + 4) (n : Nat) :
    (s.add64 a n).rd64 b = s.rd64 b := rd64_wr64_ne h0 h1 h2 _

@[simp] theorem rd_inc64_ne {s : State} {a b : Nat} (h : a ≠ b) (h' : a + 4 ≠ b) : (s.inc64 a).rd b = s.rd b :=
  rd_wr64_ne h h' _

@[simp] theorem rd64_inc64_ne {s : State} {a b : Nat} (h0 : a ≠ b) (h1 : a + 4 ≠ b) (h2 : a ≠ b + 4) :
    (s.inc64 a).rd64 b = s.rd64 b := rd64_wr64_ne h0 h1 h2 _

theorem regsWf_add64 {s : State} (a n : Nat) (h : s.regsWf = true) : (s.add64 a n).regsWf = true := regsWf_wr64 _ _ h

theorem regsWf_inc64 {s : State} (a : Nat) (h : s.regsWf = true) : (s.inc64 a).regsWf = true := regsWf_wr64 _ _ h

theorem regsWf_wrI64 {s : State} (a : Nat) (v : Int) (h : s.regsWf = true) : (s.wrI64 a v).regsWf = true := regsWf_wr64 _ _ h

/-! ### Fields -/

theorem regsWf_setF {s : State} (f : Field) (v : Nat) (h : s.regsWf = true) : (s.setF f v).regsWf = true := by
  unfold State.setF
  split
  · exact regsWf_wr _ _ h
  · exact regsWf_wr64 _ _ h

theorem regsWf_setB {s : State} (f : Field) (b : Bool) (h : s.regsWf = true) : (s.setB f b).regsWf = true := regsWf_setF _ _ h

/-- Writing a field within one word leaves every other word. -/
theorem rd_setF_ne {s : State} {f : Field} {b : Nat} (hf : f.lo + f.len ≤ 32) (h : f.addr ≠ b) (v : Nat) :
    (s.setF f v).rd b = s.rd b := by
  simp [State.setF, hf, h]

/-- A field reads as it was written. -/
theorem getF_setF_self {s : State} {f : Field} (hf : f.lo + f.len ≤ 32) (v : Nat) (h : s.regsWf = true) :
    (s.setF f v).getF f = v % 2 ^ f.len := by
  have hb : State.putBits (s.rd f.addr) f.lo f.len v < 4294967296 := putBits_lt (n := 32) (rd_lt s f.addr) hf
  simp only [State.setF, State.getF, hf, if_true]
  rw [rd_wr_self _ _ h, Nat.mod_eq_of_lt hb, putBits_self]

/-- Writing one field of a word leaves a field beside it. -/
theorem getF_setF_ne {s : State} {f g : Field} (hf : f.lo + f.len ≤ 32) (hg : g.lo + g.len ≤ 32)
    (hd : f.addr ≠ g.addr ∨ g.lo + g.len ≤ f.lo ∨ f.lo + f.len ≤ g.lo) (v : Nat) (h : s.regsWf = true) :
    (s.setF f v).getF g = s.getF g := by
  have hb : State.putBits (s.rd f.addr) f.lo f.len v < 4294967296 := putBits_lt (n := 32) (rd_lt s f.addr) hf
  simp only [State.setF, State.getF, hf, hg, if_true]
  by_cases ha : f.addr = g.addr
  · rw [← ha, rd_wr_self _ _ h, Nat.mod_eq_of_lt hb]
    rcases hd with hd | hd | hd
    · exact absurd ha hd
    · rw [putBits_below hd]
    · rw [putBits_above hd]
  · rw [rd_wr_ne ha]

theorem bit_setB_self {s : State} {f : Field} (hf : f.lo + f.len ≤ 32) (hl : f.len = 1) (b : Bool) (h : s.regsWf = true) :
    (s.setB f b).bit f = b := by
  simp only [State.bit, State.setB, getF_setF_self hf _ h, hl]
  cases b <;> rfl

/-! ### Memory -/

theorem memWf_memSet {s : State} (a : Nat) (b : Byte) (h : s.memWf = true) : (s.memSet a b).memWf = true :=
  swf_sset _ (Nat.zero_le _) _ h

@[simp] theorem memGet_memSet_ne {s : State} {a c : Nat} (h : a ≠ c) (b : Byte) : (s.memSet a b).memGet c = s.memGet c :=
  sget_sset_ne _ h _ _

theorem memGet_memSet_self {s : State} (a : Nat) (b : Byte) (h : s.memWf = true) : (s.memSet a b).memGet a = b :=
  sget_sset_self _ a _ h

theorem memWf_memPut {s : State} (a : Nat) (bs : List Byte) (h : s.memWf = true) : (s.memPut a bs).memWf = true := by
  induction bs generalizing s a with
  | nil => exact h
  | cons b t ih => exact ih _ (memWf_memSet a b h)

/-- A write of bytes leaves every byte outside them. -/
theorem memGet_memPut_ne {s : State} {a c : Nat} {bs : List Byte} (h : c < a ∨ a + bs.length ≤ c) :
    (s.memPut a bs).memGet c = s.memGet c := by
  induction bs generalizing s a with
  | nil => rfl
  | cons b t ih =>
    simp only [List.length_cons] at h
    rw [State.memPut, ih (by omega), memGet_memSet_ne (by omega)]

/-- Bytes read as they were written. -/
theorem memGet_memPut_self {s : State} {a i : Nat} {bs : List Byte} (hi : i < bs.length) (h : s.memWf = true) :
    (s.memPut a bs).memGet (a + i) = bs[i] := by
  induction bs generalizing s a i with
  | nil => simp at hi
  | cons b t ih =>
    cases i with
    | zero =>
      rw [State.memPut, memGet_memPut_ne (by omega)]
      simpa using memGet_memSet_self a b h
    | succ i =>
      rw [State.memPut, show a + (i + 1) = a + 1 + i by omega, ih (by simpa using hi) (memWf_memSet a b h)]
      simp

end Sys2Proof.Laws
end

