-- ==== Sys2Proof/Laws/State.lean ====
section
/-! SUPPORT. What each update of the state leaves alone, field by field, so that no proof unfolds a record update. -/

namespace Sys2Proof.Laws

open Sys2Proof.Machine

/-! `wr` writes `regs` alone. -/

@[simp] theorem wr_pending (s : State) (a v : Nat) : (s.wr a v).pending = s.pending := rfl
@[simp] theorem wr_mem (s : State) (a v : Nat) : (s.wr a v).mem = s.mem := rfl
@[simp] theorem wr_resp (s : State) (a v : Nat) : (s.wr a v).resp = s.resp := rfl
@[simp] theorem wr_freeCtr (s : State) (a v : Nat) : (s.wr a v).freeCtr = s.freeCtr := rfl
@[simp] theorem wr_time (s : State) (a v : Nat) : (s.wr a v).time = s.time := rfl
@[simp] theorem wr_tsq (s : State) (a v : Nat) : (s.wr a v).tsq = s.tsq := rfl
@[simp] theorem wr_pops (s : State) (a v : Nat) : (s.wr a v).pops = s.pops := rfl
@[simp] theorem wr_inv (s : State) (a v : Nat) : (s.wr a v).inv = s.inv := rfl
@[simp] theorem wr_triad (s : State) (a v : Nat) : (s.wr a v).triad = s.triad := rfl
@[simp] theorem wr_app (s : State) (a v : Nat) : (s.wr a v).app = s.app := rfl
@[simp] theorem wr_rings (s : State) (a v : Nat) : (s.wr a v).rings = s.rings := rfl
@[simp] theorem wr_cats (s : State) (a v : Nat) : (s.wr a v).cats = s.cats := rfl
@[simp] theorem wr_mbox (s : State) (a v : Nat) : (s.wr a v).mbox = s.mbox := rfl
@[simp] theorem wr_arc (s : State) (a v : Nat) : (s.wr a v).arc = s.arc := rfl
@[simp] theorem wr_prv (s : State) (a v : Nat) : (s.wr a v).prv = s.prv := rfl
@[simp] theorem wr_rpl (s : State) (a v : Nat) : (s.wr a v).rpl = s.rpl := rfl
@[simp] theorem wr_eth (s : State) (a v : Nat) : (s.wr a v).eth = s.eth := rfl
@[simp] theorem wr_bus (s : State) (a v : Nat) : (s.wr a v).bus = s.bus := rfl
@[simp] theorem wr_gar (s : State) (a v : Nat) : (s.wr a v).gar = s.gar := rfl
@[simp] theorem wr_rts (s : State) (a v : Nat) : (s.wr a v).rts = s.rts := rfl
@[simp] theorem wr_fio (s : State) (a v : Nat) : (s.wr a v).fio = s.fio := rfl
@[simp] theorem wr_meas (s : State) (a v : Nat) : (s.wr a v).meas = s.meas := rfl
@[simp] theorem wr_wal (s : State) (a v : Nat) : (s.wr a v).wal = s.wal := rfl
@[simp] theorem wr_crr (s : State) (a v : Nat) : (s.wr a v).crr = s.crr := rfl
@[simp] theorem wr_lpe (s : State) (a v : Nat) : (s.wr a v).lpe = s.lpe := rfl
@[simp] theorem wr_lpeUnits (s : State) (a v : Nat) : (s.wr a v).lpeUnits = s.lpeUnits := rfl
@[simp] theorem wr_csc (s : State) (a v : Nat) : (s.wr a v).csc = s.csc := rfl
@[simp] theorem wr_lcs (s : State) (a v : Nat) : (s.wr a v).lcs = s.lcs := rfl
@[simp] theorem wr_cv (s : State) (a v : Nat) : (s.wr a v).cv = s.cv := rfl
@[simp] theorem wr_deferred (s : State) (a v : Nat) : (s.wr a v).deferred = s.deferred := rfl
@[simp] theorem wr_steWas (s : State) (a v : Nat) : (s.wr a v).steWas = s.steWas := rfl
@[simp] theorem wr_pwr (s : State) (a v : Nat) : (s.wr a v).pwr = s.pwr := rfl

/-! `wr64` writes `regs` alone. -/

@[simp] theorem wr64_pending (s : State) (a v : Nat) : (s.wr64 a v).pending = s.pending := rfl
@[simp] theorem wr64_mem (s : State) (a v : Nat) : (s.wr64 a v).mem = s.mem := rfl
@[simp] theorem wr64_resp (s : State) (a v : Nat) : (s.wr64 a v).resp = s.resp := rfl
@[simp] theorem wr64_freeCtr (s : State) (a v : Nat) : (s.wr64 a v).freeCtr = s.freeCtr := rfl
@[simp] theorem wr64_time (s : State) (a v : Nat) : (s.wr64 a v).time = s.time := rfl
@[simp] theorem wr64_tsq (s : State) (a v : Nat) : (s.wr64 a v).tsq = s.tsq := rfl
@[simp] theorem wr64_pops (s : State) (a v : Nat) : (s.wr64 a v).pops = s.pops := rfl
@[simp] theorem wr64_inv (s : State) (a v : Nat) : (s.wr64 a v).inv = s.inv := rfl
@[simp] theorem wr64_triad (s : State) (a v : Nat) : (s.wr64 a v).triad = s.triad := rfl
@[simp] theorem wr64_app (s : State) (a v : Nat) : (s.wr64 a v).app = s.app := rfl
@[simp] theorem wr64_rings (s : State) (a v : Nat) : (s.wr64 a v).rings = s.rings := rfl
@[simp] theorem wr64_cats (s : State) (a v : Nat) : (s.wr64 a v).cats = s.cats := rfl
@[simp] theorem wr64_mbox (s : State) (a v : Nat) : (s.wr64 a v).mbox = s.mbox := rfl
@[simp] theorem wr64_arc (s : State) (a v : Nat) : (s.wr64 a v).arc = s.arc := rfl
@[simp] theorem wr64_prv (s : State) (a v : Nat) : (s.wr64 a v).prv = s.prv := rfl
@[simp] theorem wr64_rpl (s : State) (a v : Nat) : (s.wr64 a v).rpl = s.rpl := rfl
@[simp] theorem wr64_eth (s : State) (a v : Nat) : (s.wr64 a v).eth = s.eth := rfl
@[simp] theorem wr64_bus (s : State) (a v : Nat) : (s.wr64 a v).bus = s.bus := rfl
@[simp] theorem wr64_gar (s : State) (a v : Nat) : (s.wr64 a v).gar = s.gar := rfl
@[simp] theorem wr64_rts (s : State) (a v : Nat) : (s.wr64 a v).rts = s.rts := rfl
@[simp] theorem wr64_fio (s : State) (a v : Nat) : (s.wr64 a v).fio = s.fio := rfl
@[simp] theorem wr64_meas (s : State) (a v : Nat) : (s.wr64 a v).meas = s.meas := rfl
@[simp] theorem wr64_wal (s : State) (a v : Nat) : (s.wr64 a v).wal = s.wal := rfl
@[simp] theorem wr64_crr (s : State) (a v : Nat) : (s.wr64 a v).crr = s.crr := rfl
@[simp] theorem wr64_lpe (s : State) (a v : Nat) : (s.wr64 a v).lpe = s.lpe := rfl
@[simp] theorem wr64_lpeUnits (s : State) (a v : Nat) : (s.wr64 a v).lpeUnits = s.lpeUnits := rfl
@[simp] theorem wr64_csc (s : State) (a v : Nat) : (s.wr64 a v).csc = s.csc := rfl
@[simp] theorem wr64_lcs (s : State) (a v : Nat) : (s.wr64 a v).lcs = s.lcs := rfl
@[simp] theorem wr64_cv (s : State) (a v : Nat) : (s.wr64 a v).cv = s.cv := rfl
@[simp] theorem wr64_deferred (s : State) (a v : Nat) : (s.wr64 a v).deferred = s.deferred := rfl
@[simp] theorem wr64_steWas (s : State) (a v : Nat) : (s.wr64 a v).steWas = s.steWas := rfl
@[simp] theorem wr64_pwr (s : State) (a v : Nat) : (s.wr64 a v).pwr = s.pwr := rfl

/-! `add64` writes `regs` alone. -/

@[simp] theorem add64_pending (s : State) (a n : Nat) : (s.add64 a n).pending = s.pending := rfl
@[simp] theorem add64_mem (s : State) (a n : Nat) : (s.add64 a n).mem = s.mem := rfl
@[simp] theorem add64_resp (s : State) (a n : Nat) : (s.add64 a n).resp = s.resp := rfl
@[simp] theorem add64_freeCtr (s : State) (a n : Nat) : (s.add64 a n).freeCtr = s.freeCtr := rfl
@[simp] theorem add64_time (s : State) (a n : Nat) : (s.add64 a n).time = s.time := rfl
@[simp] theorem add64_tsq (s : State) (a n : Nat) : (s.add64 a n).tsq = s.tsq := rfl
@[simp] theorem add64_pops (s : State) (a n : Nat) : (s.add64 a n).pops = s.pops := rfl
@[simp] theorem add64_inv (s : State) (a n : Nat) : (s.add64 a n).inv = s.inv := rfl
@[simp] theorem add64_triad (s : State) (a n : Nat) : (s.add64 a n).triad = s.triad := rfl
@[simp] theorem add64_app (s : State) (a n : Nat) : (s.add64 a n).app = s.app := rfl
@[simp] theorem add64_rings (s : State) (a n : Nat) : (s.add64 a n).rings = s.rings := rfl
@[simp] theorem add64_cats (s : State) (a n : Nat) : (s.add64 a n).cats = s.cats := rfl
@[simp] theorem add64_mbox (s : State) (a n : Nat) : (s.add64 a n).mbox = s.mbox := rfl
@[simp] theorem add64_arc (s : State) (a n : Nat) : (s.add64 a n).arc = s.arc := rfl
@[simp] theorem add64_prv (s : State) (a n : Nat) : (s.add64 a n).prv = s.prv := rfl
@[simp] theorem add64_rpl (s : State) (a n : Nat) : (s.add64 a n).rpl = s.rpl := rfl
@[simp] theorem add64_eth (s : State) (a n : Nat) : (s.add64 a n).eth = s.eth := rfl
@[simp] theorem add64_bus (s : State) (a n : Nat) : (s.add64 a n).bus = s.bus := rfl
@[simp] theorem add64_gar (s : State) (a n : Nat) : (s.add64 a n).gar = s.gar := rfl
@[simp] theorem add64_rts (s : State) (a n : Nat) : (s.add64 a n).rts = s.rts := rfl
@[simp] theorem add64_fio (s : State) (a n : Nat) : (s.add64 a n).fio = s.fio := rfl
@[simp] theorem add64_meas (s : State) (a n : Nat) : (s.add64 a n).meas = s.meas := rfl
@[simp] theorem add64_wal (s : State) (a n : Nat) : (s.add64 a n).wal = s.wal := rfl
@[simp] theorem add64_crr (s : State) (a n : Nat) : (s.add64 a n).crr = s.crr := rfl
@[simp] theorem add64_lpe (s : State) (a n : Nat) : (s.add64 a n).lpe = s.lpe := rfl
@[simp] theorem add64_lpeUnits (s : State) (a n : Nat) : (s.add64 a n).lpeUnits = s.lpeUnits := rfl
@[simp] theorem add64_csc (s : State) (a n : Nat) : (s.add64 a n).csc = s.csc := rfl
@[simp] theorem add64_lcs (s : State) (a n : Nat) : (s.add64 a n).lcs = s.lcs := rfl
@[simp] theorem add64_cv (s : State) (a n : Nat) : (s.add64 a n).cv = s.cv := rfl
@[simp] theorem add64_deferred (s : State) (a n : Nat) : (s.add64 a n).deferred = s.deferred := rfl
@[simp] theorem add64_steWas (s : State) (a n : Nat) : (s.add64 a n).steWas = s.steWas := rfl
@[simp] theorem add64_pwr (s : State) (a n : Nat) : (s.add64 a n).pwr = s.pwr := rfl

/-! `inc64` writes `regs` alone. -/

@[simp] theorem inc64_pending (s : State) (a : Nat) : (s.inc64 a).pending = s.pending := rfl
@[simp] theorem inc64_mem (s : State) (a : Nat) : (s.inc64 a).mem = s.mem := rfl
@[simp] theorem inc64_resp (s : State) (a : Nat) : (s.inc64 a).resp = s.resp := rfl
@[simp] theorem inc64_freeCtr (s : State) (a : Nat) : (s.inc64 a).freeCtr = s.freeCtr := rfl
@[simp] theorem inc64_time (s : State) (a : Nat) : (s.inc64 a).time = s.time := rfl
@[simp] theorem inc64_tsq (s : State) (a : Nat) : (s.inc64 a).tsq = s.tsq := rfl
@[simp] theorem inc64_pops (s : State) (a : Nat) : (s.inc64 a).pops = s.pops := rfl
@[simp] theorem inc64_inv (s : State) (a : Nat) : (s.inc64 a).inv = s.inv := rfl
@[simp] theorem inc64_triad (s : State) (a : Nat) : (s.inc64 a).triad = s.triad := rfl
@[simp] theorem inc64_app (s : State) (a : Nat) : (s.inc64 a).app = s.app := rfl
@[simp] theorem inc64_rings (s : State) (a : Nat) : (s.inc64 a).rings = s.rings := rfl
@[simp] theorem inc64_cats (s : State) (a : Nat) : (s.inc64 a).cats = s.cats := rfl
@[simp] theorem inc64_mbox (s : State) (a : Nat) : (s.inc64 a).mbox = s.mbox := rfl
@[simp] theorem inc64_arc (s : State) (a : Nat) : (s.inc64 a).arc = s.arc := rfl
@[simp] theorem inc64_prv (s : State) (a : Nat) : (s.inc64 a).prv = s.prv := rfl
@[simp] theorem inc64_rpl (s : State) (a : Nat) : (s.inc64 a).rpl = s.rpl := rfl
@[simp] theorem inc64_eth (s : State) (a : Nat) : (s.inc64 a).eth = s.eth := rfl
@[simp] theorem inc64_bus (s : State) (a : Nat) : (s.inc64 a).bus = s.bus := rfl
@[simp] theorem inc64_gar (s : State) (a : Nat) : (s.inc64 a).gar = s.gar := rfl
@[simp] theorem inc64_rts (s : State) (a : Nat) : (s.inc64 a).rts = s.rts := rfl
@[simp] theorem inc64_fio (s : State) (a : Nat) : (s.inc64 a).fio = s.fio := rfl
@[simp] theorem inc64_meas (s : State) (a : Nat) : (s.inc64 a).meas = s.meas := rfl
@[simp] theorem inc64_wal (s : State) (a : Nat) : (s.inc64 a).wal = s.wal := rfl
@[simp] theorem inc64_crr (s : State) (a : Nat) : (s.inc64 a).crr = s.crr := rfl
@[simp] theorem inc64_lpe (s : State) (a : Nat) : (s.inc64 a).lpe = s.lpe := rfl
@[simp] theorem inc64_lpeUnits (s : State) (a : Nat) : (s.inc64 a).lpeUnits = s.lpeUnits := rfl
@[simp] theorem inc64_csc (s : State) (a : Nat) : (s.inc64 a).csc = s.csc := rfl
@[simp] theorem inc64_lcs (s : State) (a : Nat) : (s.inc64 a).lcs = s.lcs := rfl
@[simp] theorem inc64_cv (s : State) (a : Nat) : (s.inc64 a).cv = s.cv := rfl
@[simp] theorem inc64_deferred (s : State) (a : Nat) : (s.inc64 a).deferred = s.deferred := rfl
@[simp] theorem inc64_steWas (s : State) (a : Nat) : (s.inc64 a).steWas = s.steWas := rfl
@[simp] theorem inc64_pwr (s : State) (a : Nat) : (s.inc64 a).pwr = s.pwr := rfl

/-! `wrI64` writes `regs` alone. -/

@[simp] theorem wrI64_pending (s : State) (a : Nat) (v : Int) : (s.wrI64 a v).pending = s.pending := rfl
@[simp] theorem wrI64_mem (s : State) (a : Nat) (v : Int) : (s.wrI64 a v).mem = s.mem := rfl
@[simp] theorem wrI64_resp (s : State) (a : Nat) (v : Int) : (s.wrI64 a v).resp = s.resp := rfl
@[simp] theorem wrI64_freeCtr (s : State) (a : Nat) (v : Int) : (s.wrI64 a v).freeCtr = s.freeCtr := rfl
@[simp] theorem wrI64_time (s : State) (a : Nat) (v : Int) : (s.wrI64 a v).time = s.time := rfl
@[simp] theorem wrI64_tsq (s : State) (a : Nat) (v : Int) : (s.wrI64 a v).tsq = s.tsq := rfl
@[simp] theorem wrI64_pops (s : State) (a : Nat) (v : Int) : (s.wrI64 a v).pops = s.pops := rfl
@[simp] theorem wrI64_inv (s : State) (a : Nat) (v : Int) : (s.wrI64 a v).inv = s.inv := rfl
@[simp] theorem wrI64_triad (s : State) (a : Nat) (v : Int) : (s.wrI64 a v).triad = s.triad := rfl
@[simp] theorem wrI64_app (s : State) (a : Nat) (v : Int) : (s.wrI64 a v).app = s.app := rfl
@[simp] theorem wrI64_rings (s : State) (a : Nat) (v : Int) : (s.wrI64 a v).rings = s.rings := rfl
@[simp] theorem wrI64_cats (s : State) (a : Nat) (v : Int) : (s.wrI64 a v).cats = s.cats := rfl
@[simp] theorem wrI64_mbox (s : State) (a : Nat) (v : Int) : (s.wrI64 a v).mbox = s.mbox := rfl
@[simp] theorem wrI64_arc (s : State) (a : Nat) (v : Int) : (s.wrI64 a v).arc = s.arc := rfl
@[simp] theorem wrI64_prv (s : State) (a : Nat) (v : Int) : (s.wrI64 a v).prv = s.prv := rfl
@[simp] theorem wrI64_rpl (s : State) (a : Nat) (v : Int) : (s.wrI64 a v).rpl = s.rpl := rfl
@[simp] theorem wrI64_eth (s : State) (a : Nat) (v : Int) : (s.wrI64 a v).eth = s.eth := rfl
@[simp] theorem wrI64_bus (s : State) (a : Nat) (v : Int) : (s.wrI64 a v).bus = s.bus := rfl
@[simp] theorem wrI64_gar (s : State) (a : Nat) (v : Int) : (s.wrI64 a v).gar = s.gar := rfl
@[simp] theorem wrI64_rts (s : State) (a : Nat) (v : Int) : (s.wrI64 a v).rts = s.rts := rfl
@[simp] theorem wrI64_fio (s : State) (a : Nat) (v : Int) : (s.wrI64 a v).fio = s.fio := rfl
@[simp] theorem wrI64_meas (s : State) (a : Nat) (v : Int) : (s.wrI64 a v).meas = s.meas := rfl
@[simp] theorem wrI64_wal (s : State) (a : Nat) (v : Int) : (s.wrI64 a v).wal = s.wal := rfl
@[simp] theorem wrI64_crr (s : State) (a : Nat) (v : Int) : (s.wrI64 a v).crr = s.crr := rfl
@[simp] theorem wrI64_lpe (s : State) (a : Nat) (v : Int) : (s.wrI64 a v).lpe = s.lpe := rfl
@[simp] theorem wrI64_lpeUnits (s : State) (a : Nat) (v : Int) : (s.wrI64 a v).lpeUnits = s.lpeUnits := rfl
@[simp] theorem wrI64_csc (s : State) (a : Nat) (v : Int) : (s.wrI64 a v).csc = s.csc := rfl
@[simp] theorem wrI64_lcs (s : State) (a : Nat) (v : Int) : (s.wrI64 a v).lcs = s.lcs := rfl
@[simp] theorem wrI64_cv (s : State) (a : Nat) (v : Int) : (s.wrI64 a v).cv = s.cv := rfl
@[simp] theorem wrI64_deferred (s : State) (a : Nat) (v : Int) : (s.wrI64 a v).deferred = s.deferred := rfl
@[simp] theorem wrI64_steWas (s : State) (a : Nat) (v : Int) : (s.wrI64 a v).steWas = s.steWas := rfl
@[simp] theorem wrI64_pwr (s : State) (a : Nat) (v : Int) : (s.wrI64 a v).pwr = s.pwr := rfl

/-! `setF` writes `regs` alone. -/

@[simp] theorem setF_pending (s : State) (f : Field) (v : Nat) : (s.setF f v).pending = s.pending := by unfold State.setF; split <;> rfl
@[simp] theorem setF_mem (s : State) (f : Field) (v : Nat) : (s.setF f v).mem = s.mem := by unfold State.setF; split <;> rfl
@[simp] theorem setF_resp (s : State) (f : Field) (v : Nat) : (s.setF f v).resp = s.resp := by unfold State.setF; split <;> rfl
@[simp] theorem setF_freeCtr (s : State) (f : Field) (v : Nat) : (s.setF f v).freeCtr = s.freeCtr := by unfold State.setF; split <;> rfl
@[simp] theorem setF_time (s : State) (f : Field) (v : Nat) : (s.setF f v).time = s.time := by unfold State.setF; split <;> rfl
@[simp] theorem setF_tsq (s : State) (f : Field) (v : Nat) : (s.setF f v).tsq = s.tsq := by unfold State.setF; split <;> rfl
@[simp] theorem setF_pops (s : State) (f : Field) (v : Nat) : (s.setF f v).pops = s.pops := by unfold State.setF; split <;> rfl
@[simp] theorem setF_inv (s : State) (f : Field) (v : Nat) : (s.setF f v).inv = s.inv := by unfold State.setF; split <;> rfl
@[simp] theorem setF_triad (s : State) (f : Field) (v : Nat) : (s.setF f v).triad = s.triad := by unfold State.setF; split <;> rfl
@[simp] theorem setF_app (s : State) (f : Field) (v : Nat) : (s.setF f v).app = s.app := by unfold State.setF; split <;> rfl
@[simp] theorem setF_rings (s : State) (f : Field) (v : Nat) : (s.setF f v).rings = s.rings := by unfold State.setF; split <;> rfl
@[simp] theorem setF_cats (s : State) (f : Field) (v : Nat) : (s.setF f v).cats = s.cats := by unfold State.setF; split <;> rfl
@[simp] theorem setF_mbox (s : State) (f : Field) (v : Nat) : (s.setF f v).mbox = s.mbox := by unfold State.setF; split <;> rfl
@[simp] theorem setF_arc (s : State) (f : Field) (v : Nat) : (s.setF f v).arc = s.arc := by unfold State.setF; split <;> rfl
@[simp] theorem setF_prv (s : State) (f : Field) (v : Nat) : (s.setF f v).prv = s.prv := by unfold State.setF; split <;> rfl
@[simp] theorem setF_rpl (s : State) (f : Field) (v : Nat) : (s.setF f v).rpl = s.rpl := by unfold State.setF; split <;> rfl
@[simp] theorem setF_eth (s : State) (f : Field) (v : Nat) : (s.setF f v).eth = s.eth := by unfold State.setF; split <;> rfl
@[simp] theorem setF_bus (s : State) (f : Field) (v : Nat) : (s.setF f v).bus = s.bus := by unfold State.setF; split <;> rfl
@[simp] theorem setF_gar (s : State) (f : Field) (v : Nat) : (s.setF f v).gar = s.gar := by unfold State.setF; split <;> rfl
@[simp] theorem setF_rts (s : State) (f : Field) (v : Nat) : (s.setF f v).rts = s.rts := by unfold State.setF; split <;> rfl
@[simp] theorem setF_fio (s : State) (f : Field) (v : Nat) : (s.setF f v).fio = s.fio := by unfold State.setF; split <;> rfl
@[simp] theorem setF_meas (s : State) (f : Field) (v : Nat) : (s.setF f v).meas = s.meas := by unfold State.setF; split <;> rfl
@[simp] theorem setF_wal (s : State) (f : Field) (v : Nat) : (s.setF f v).wal = s.wal := by unfold State.setF; split <;> rfl
@[simp] theorem setF_crr (s : State) (f : Field) (v : Nat) : (s.setF f v).crr = s.crr := by unfold State.setF; split <;> rfl
@[simp] theorem setF_lpe (s : State) (f : Field) (v : Nat) : (s.setF f v).lpe = s.lpe := by unfold State.setF; split <;> rfl
@[simp] theorem setF_lpeUnits (s : State) (f : Field) (v : Nat) : (s.setF f v).lpeUnits = s.lpeUnits := by unfold State.setF; split <;> rfl
@[simp] theorem setF_csc (s : State) (f : Field) (v : Nat) : (s.setF f v).csc = s.csc := by unfold State.setF; split <;> rfl
@[simp] theorem setF_lcs (s : State) (f : Field) (v : Nat) : (s.setF f v).lcs = s.lcs := by unfold State.setF; split <;> rfl
@[simp] theorem setF_cv (s : State) (f : Field) (v : Nat) : (s.setF f v).cv = s.cv := by unfold State.setF; split <;> rfl
@[simp] theorem setF_deferred (s : State) (f : Field) (v : Nat) : (s.setF f v).deferred = s.deferred := by unfold State.setF; split <;> rfl
@[simp] theorem setF_steWas (s : State) (f : Field) (v : Nat) : (s.setF f v).steWas = s.steWas := by unfold State.setF; split <;> rfl
@[simp] theorem setF_pwr (s : State) (f : Field) (v : Nat) : (s.setF f v).pwr = s.pwr := by unfold State.setF; split <;> rfl

/-! `setB` writes `regs` alone. -/

@[simp] theorem setB_pending (s : State) (f : Field) (b : Bool) : (s.setB f b).pending = s.pending := by unfold State.setB State.setF; split <;> rfl
@[simp] theorem setB_mem (s : State) (f : Field) (b : Bool) : (s.setB f b).mem = s.mem := by unfold State.setB State.setF; split <;> rfl
@[simp] theorem setB_resp (s : State) (f : Field) (b : Bool) : (s.setB f b).resp = s.resp := by unfold State.setB State.setF; split <;> rfl
@[simp] theorem setB_freeCtr (s : State) (f : Field) (b : Bool) : (s.setB f b).freeCtr = s.freeCtr := by unfold State.setB State.setF; split <;> rfl
@[simp] theorem setB_time (s : State) (f : Field) (b : Bool) : (s.setB f b).time = s.time := by unfold State.setB State.setF; split <;> rfl
@[simp] theorem setB_tsq (s : State) (f : Field) (b : Bool) : (s.setB f b).tsq = s.tsq := by unfold State.setB State.setF; split <;> rfl
@[simp] theorem setB_pops (s : State) (f : Field) (b : Bool) : (s.setB f b).pops = s.pops := by unfold State.setB State.setF; split <;> rfl
@[simp] theorem setB_inv (s : State) (f : Field) (b : Bool) : (s.setB f b).inv = s.inv := by unfold State.setB State.setF; split <;> rfl
@[simp] theorem setB_triad (s : State) (f : Field) (b : Bool) : (s.setB f b).triad = s.triad := by unfold State.setB State.setF; split <;> rfl
@[simp] theorem setB_app (s : State) (f : Field) (b : Bool) : (s.setB f b).app = s.app := by unfold State.setB State.setF; split <;> rfl
@[simp] theorem setB_rings (s : State) (f : Field) (b : Bool) : (s.setB f b).rings = s.rings := by unfold State.setB State.setF; split <;> rfl
@[simp] theorem setB_cats (s : State) (f : Field) (b : Bool) : (s.setB f b).cats = s.cats := by unfold State.setB State.setF; split <;> rfl
@[simp] theorem setB_mbox (s : State) (f : Field) (b : Bool) : (s.setB f b).mbox = s.mbox := by unfold State.setB State.setF; split <;> rfl
@[simp] theorem setB_arc (s : State) (f : Field) (b : Bool) : (s.setB f b).arc = s.arc := by unfold State.setB State.setF; split <;> rfl
@[simp] theorem setB_prv (s : State) (f : Field) (b : Bool) : (s.setB f b).prv = s.prv := by unfold State.setB State.setF; split <;> rfl
@[simp] theorem setB_rpl (s : State) (f : Field) (b : Bool) : (s.setB f b).rpl = s.rpl := by unfold State.setB State.setF; split <;> rfl
@[simp] theorem setB_eth (s : State) (f : Field) (b : Bool) : (s.setB f b).eth = s.eth := by unfold State.setB State.setF; split <;> rfl
@[simp] theorem setB_bus (s : State) (f : Field) (b : Bool) : (s.setB f b).bus = s.bus := by unfold State.setB State.setF; split <;> rfl
@[simp] theorem setB_gar (s : State) (f : Field) (b : Bool) : (s.setB f b).gar = s.gar := by unfold State.setB State.setF; split <;> rfl
@[simp] theorem setB_rts (s : State) (f : Field) (b : Bool) : (s.setB f b).rts = s.rts := by unfold State.setB State.setF; split <;> rfl
@[simp] theorem setB_fio (s : State) (f : Field) (b : Bool) : (s.setB f b).fio = s.fio := by unfold State.setB State.setF; split <;> rfl
@[simp] theorem setB_meas (s : State) (f : Field) (b : Bool) : (s.setB f b).meas = s.meas := by unfold State.setB State.setF; split <;> rfl
@[simp] theorem setB_wal (s : State) (f : Field) (b : Bool) : (s.setB f b).wal = s.wal := by unfold State.setB State.setF; split <;> rfl
@[simp] theorem setB_crr (s : State) (f : Field) (b : Bool) : (s.setB f b).crr = s.crr := by unfold State.setB State.setF; split <;> rfl
@[simp] theorem setB_lpe (s : State) (f : Field) (b : Bool) : (s.setB f b).lpe = s.lpe := by unfold State.setB State.setF; split <;> rfl
@[simp] theorem setB_lpeUnits (s : State) (f : Field) (b : Bool) : (s.setB f b).lpeUnits = s.lpeUnits := by unfold State.setB State.setF; split <;> rfl
@[simp] theorem setB_csc (s : State) (f : Field) (b : Bool) : (s.setB f b).csc = s.csc := by unfold State.setB State.setF; split <;> rfl
@[simp] theorem setB_lcs (s : State) (f : Field) (b : Bool) : (s.setB f b).lcs = s.lcs := by unfold State.setB State.setF; split <;> rfl
@[simp] theorem setB_cv (s : State) (f : Field) (b : Bool) : (s.setB f b).cv = s.cv := by unfold State.setB State.setF; split <;> rfl
@[simp] theorem setB_deferred (s : State) (f : Field) (b : Bool) : (s.setB f b).deferred = s.deferred := by unfold State.setB State.setF; split <;> rfl
@[simp] theorem setB_steWas (s : State) (f : Field) (b : Bool) : (s.setB f b).steWas = s.steWas := by unfold State.setB State.setF; split <;> rfl
@[simp] theorem setB_pwr (s : State) (f : Field) (b : Bool) : (s.setB f b).pwr = s.pwr := by unfold State.setB State.setF; split <;> rfl

/-! `memSet` writes `mem` alone. -/

@[simp] theorem memSet_pending (s : State) (a : Nat) (b : Byte) : (s.memSet a b).pending = s.pending := rfl
@[simp] theorem memSet_regs (s : State) (a : Nat) (b : Byte) : (s.memSet a b).regs = s.regs := rfl
@[simp] theorem memSet_resp (s : State) (a : Nat) (b : Byte) : (s.memSet a b).resp = s.resp := rfl
@[simp] theorem memSet_freeCtr (s : State) (a : Nat) (b : Byte) : (s.memSet a b).freeCtr = s.freeCtr := rfl
@[simp] theorem memSet_time (s : State) (a : Nat) (b : Byte) : (s.memSet a b).time = s.time := rfl
@[simp] theorem memSet_tsq (s : State) (a : Nat) (b : Byte) : (s.memSet a b).tsq = s.tsq := rfl
@[simp] theorem memSet_pops (s : State) (a : Nat) (b : Byte) : (s.memSet a b).pops = s.pops := rfl
@[simp] theorem memSet_inv (s : State) (a : Nat) (b : Byte) : (s.memSet a b).inv = s.inv := rfl
@[simp] theorem memSet_triad (s : State) (a : Nat) (b : Byte) : (s.memSet a b).triad = s.triad := rfl
@[simp] theorem memSet_app (s : State) (a : Nat) (b : Byte) : (s.memSet a b).app = s.app := rfl
@[simp] theorem memSet_rings (s : State) (a : Nat) (b : Byte) : (s.memSet a b).rings = s.rings := rfl
@[simp] theorem memSet_cats (s : State) (a : Nat) (b : Byte) : (s.memSet a b).cats = s.cats := rfl
@[simp] theorem memSet_mbox (s : State) (a : Nat) (b : Byte) : (s.memSet a b).mbox = s.mbox := rfl
@[simp] theorem memSet_arc (s : State) (a : Nat) (b : Byte) : (s.memSet a b).arc = s.arc := rfl
@[simp] theorem memSet_prv (s : State) (a : Nat) (b : Byte) : (s.memSet a b).prv = s.prv := rfl
@[simp] theorem memSet_rpl (s : State) (a : Nat) (b : Byte) : (s.memSet a b).rpl = s.rpl := rfl
@[simp] theorem memSet_eth (s : State) (a : Nat) (b : Byte) : (s.memSet a b).eth = s.eth := rfl
@[simp] theorem memSet_bus (s : State) (a : Nat) (b : Byte) : (s.memSet a b).bus = s.bus := rfl
@[simp] theorem memSet_gar (s : State) (a : Nat) (b : Byte) : (s.memSet a b).gar = s.gar := rfl
@[simp] theorem memSet_rts (s : State) (a : Nat) (b : Byte) : (s.memSet a b).rts = s.rts := rfl
@[simp] theorem memSet_fio (s : State) (a : Nat) (b : Byte) : (s.memSet a b).fio = s.fio := rfl
@[simp] theorem memSet_meas (s : State) (a : Nat) (b : Byte) : (s.memSet a b).meas = s.meas := rfl
@[simp] theorem memSet_wal (s : State) (a : Nat) (b : Byte) : (s.memSet a b).wal = s.wal := rfl
@[simp] theorem memSet_crr (s : State) (a : Nat) (b : Byte) : (s.memSet a b).crr = s.crr := rfl
@[simp] theorem memSet_lpe (s : State) (a : Nat) (b : Byte) : (s.memSet a b).lpe = s.lpe := rfl
@[simp] theorem memSet_lpeUnits (s : State) (a : Nat) (b : Byte) : (s.memSet a b).lpeUnits = s.lpeUnits := rfl
@[simp] theorem memSet_csc (s : State) (a : Nat) (b : Byte) : (s.memSet a b).csc = s.csc := rfl
@[simp] theorem memSet_lcs (s : State) (a : Nat) (b : Byte) : (s.memSet a b).lcs = s.lcs := rfl
@[simp] theorem memSet_cv (s : State) (a : Nat) (b : Byte) : (s.memSet a b).cv = s.cv := rfl
@[simp] theorem memSet_deferred (s : State) (a : Nat) (b : Byte) : (s.memSet a b).deferred = s.deferred := rfl
@[simp] theorem memSet_steWas (s : State) (a : Nat) (b : Byte) : (s.memSet a b).steWas = s.steWas := rfl
@[simp] theorem memSet_pwr (s : State) (a : Nat) (b : Byte) : (s.memSet a b).pwr = s.pwr := rfl

/-! `elapse` writes `time` alone. -/

@[simp] theorem elapse_pending (s : State) (dt : Nat) : (s.elapse dt).pending = s.pending := rfl
@[simp] theorem elapse_regs (s : State) (dt : Nat) : (s.elapse dt).regs = s.regs := rfl
@[simp] theorem elapse_mem (s : State) (dt : Nat) : (s.elapse dt).mem = s.mem := rfl
@[simp] theorem elapse_resp (s : State) (dt : Nat) : (s.elapse dt).resp = s.resp := rfl
@[simp] theorem elapse_freeCtr (s : State) (dt : Nat) : (s.elapse dt).freeCtr = s.freeCtr := rfl
@[simp] theorem elapse_tsq (s : State) (dt : Nat) : (s.elapse dt).tsq = s.tsq := rfl
@[simp] theorem elapse_pops (s : State) (dt : Nat) : (s.elapse dt).pops = s.pops := rfl
@[simp] theorem elapse_inv (s : State) (dt : Nat) : (s.elapse dt).inv = s.inv := rfl
@[simp] theorem elapse_triad (s : State) (dt : Nat) : (s.elapse dt).triad = s.triad := rfl
@[simp] theorem elapse_app (s : State) (dt : Nat) : (s.elapse dt).app = s.app := rfl
@[simp] theorem elapse_rings (s : State) (dt : Nat) : (s.elapse dt).rings = s.rings := rfl
@[simp] theorem elapse_cats (s : State) (dt : Nat) : (s.elapse dt).cats = s.cats := rfl
@[simp] theorem elapse_mbox (s : State) (dt : Nat) : (s.elapse dt).mbox = s.mbox := rfl
@[simp] theorem elapse_arc (s : State) (dt : Nat) : (s.elapse dt).arc = s.arc := rfl
@[simp] theorem elapse_prv (s : State) (dt : Nat) : (s.elapse dt).prv = s.prv := rfl
@[simp] theorem elapse_rpl (s : State) (dt : Nat) : (s.elapse dt).rpl = s.rpl := rfl
@[simp] theorem elapse_eth (s : State) (dt : Nat) : (s.elapse dt).eth = s.eth := rfl
@[simp] theorem elapse_bus (s : State) (dt : Nat) : (s.elapse dt).bus = s.bus := rfl
@[simp] theorem elapse_gar (s : State) (dt : Nat) : (s.elapse dt).gar = s.gar := rfl
@[simp] theorem elapse_rts (s : State) (dt : Nat) : (s.elapse dt).rts = s.rts := rfl
@[simp] theorem elapse_fio (s : State) (dt : Nat) : (s.elapse dt).fio = s.fio := rfl
@[simp] theorem elapse_meas (s : State) (dt : Nat) : (s.elapse dt).meas = s.meas := rfl
@[simp] theorem elapse_wal (s : State) (dt : Nat) : (s.elapse dt).wal = s.wal := rfl
@[simp] theorem elapse_crr (s : State) (dt : Nat) : (s.elapse dt).crr = s.crr := rfl
@[simp] theorem elapse_lpe (s : State) (dt : Nat) : (s.elapse dt).lpe = s.lpe := rfl
@[simp] theorem elapse_lpeUnits (s : State) (dt : Nat) : (s.elapse dt).lpeUnits = s.lpeUnits := rfl
@[simp] theorem elapse_csc (s : State) (dt : Nat) : (s.elapse dt).csc = s.csc := rfl
@[simp] theorem elapse_lcs (s : State) (dt : Nat) : (s.elapse dt).lcs = s.lcs := rfl
@[simp] theorem elapse_cv (s : State) (dt : Nat) : (s.elapse dt).cv = s.cv := rfl
@[simp] theorem elapse_deferred (s : State) (dt : Nat) : (s.elapse dt).deferred = s.deferred := rfl
@[simp] theorem elapse_steWas (s : State) (dt : Nat) : (s.elapse dt).steWas = s.steWas := rfl
@[simp] theorem elapse_pwr (s : State) (dt : Nat) : (s.elapse dt).pwr = s.pwr := rfl

/-! `freshCtr` writes `freeCtr` alone. -/

@[simp] theorem freshCtr_pending (s : State) : (s.freshCtr).pending = s.pending := rfl
@[simp] theorem freshCtr_regs (s : State) : (s.freshCtr).regs = s.regs := rfl
@[simp] theorem freshCtr_mem (s : State) : (s.freshCtr).mem = s.mem := rfl
@[simp] theorem freshCtr_resp (s : State) : (s.freshCtr).resp = s.resp := rfl
@[simp] theorem freshCtr_time (s : State) : (s.freshCtr).time = s.time := rfl
@[simp] theorem freshCtr_tsq (s : State) : (s.freshCtr).tsq = s.tsq := rfl
@[simp] theorem freshCtr_pops (s : State) : (s.freshCtr).pops = s.pops := rfl
@[simp] theorem freshCtr_inv (s : State) : (s.freshCtr).inv = s.inv := rfl
@[simp] theorem freshCtr_triad (s : State) : (s.freshCtr).triad = s.triad := rfl
@[simp] theorem freshCtr_app (s : State) : (s.freshCtr).app = s.app := rfl
@[simp] theorem freshCtr_rings (s : State) : (s.freshCtr).rings = s.rings := rfl
@[simp] theorem freshCtr_cats (s : State) : (s.freshCtr).cats = s.cats := rfl
@[simp] theorem freshCtr_mbox (s : State) : (s.freshCtr).mbox = s.mbox := rfl
@[simp] theorem freshCtr_arc (s : State) : (s.freshCtr).arc = s.arc := rfl
@[simp] theorem freshCtr_prv (s : State) : (s.freshCtr).prv = s.prv := rfl
@[simp] theorem freshCtr_rpl (s : State) : (s.freshCtr).rpl = s.rpl := rfl
@[simp] theorem freshCtr_eth (s : State) : (s.freshCtr).eth = s.eth := rfl
@[simp] theorem freshCtr_bus (s : State) : (s.freshCtr).bus = s.bus := rfl
@[simp] theorem freshCtr_gar (s : State) : (s.freshCtr).gar = s.gar := rfl
@[simp] theorem freshCtr_rts (s : State) : (s.freshCtr).rts = s.rts := rfl
@[simp] theorem freshCtr_fio (s : State) : (s.freshCtr).fio = s.fio := rfl
@[simp] theorem freshCtr_meas (s : State) : (s.freshCtr).meas = s.meas := rfl
@[simp] theorem freshCtr_wal (s : State) : (s.freshCtr).wal = s.wal := rfl
@[simp] theorem freshCtr_crr (s : State) : (s.freshCtr).crr = s.crr := rfl
@[simp] theorem freshCtr_lpe (s : State) : (s.freshCtr).lpe = s.lpe := rfl
@[simp] theorem freshCtr_lpeUnits (s : State) : (s.freshCtr).lpeUnits = s.lpeUnits := rfl
@[simp] theorem freshCtr_csc (s : State) : (s.freshCtr).csc = s.csc := rfl
@[simp] theorem freshCtr_lcs (s : State) : (s.freshCtr).lcs = s.lcs := rfl
@[simp] theorem freshCtr_cv (s : State) : (s.freshCtr).cv = s.cv := rfl
@[simp] theorem freshCtr_deferred (s : State) : (s.freshCtr).deferred = s.deferred := rfl
@[simp] theorem freshCtr_steWas (s : State) : (s.freshCtr).steWas = s.steWas := rfl
@[simp] theorem freshCtr_pwr (s : State) : (s.freshCtr).pwr = s.pwr := rfl

/-! `respond` writes `resp` alone. -/

@[simp] theorem respond_pending (s : State) (x v : Nat) : (s.respond x v).pending = s.pending := rfl
@[simp] theorem respond_regs (s : State) (x v : Nat) : (s.respond x v).regs = s.regs := rfl
@[simp] theorem respond_mem (s : State) (x v : Nat) : (s.respond x v).mem = s.mem := rfl
@[simp] theorem respond_freeCtr (s : State) (x v : Nat) : (s.respond x v).freeCtr = s.freeCtr := rfl
@[simp] theorem respond_time (s : State) (x v : Nat) : (s.respond x v).time = s.time := rfl
@[simp] theorem respond_tsq (s : State) (x v : Nat) : (s.respond x v).tsq = s.tsq := rfl
@[simp] theorem respond_pops (s : State) (x v : Nat) : (s.respond x v).pops = s.pops := rfl
@[simp] theorem respond_inv (s : State) (x v : Nat) : (s.respond x v).inv = s.inv := rfl
@[simp] theorem respond_triad (s : State) (x v : Nat) : (s.respond x v).triad = s.triad := rfl
@[simp] theorem respond_app (s : State) (x v : Nat) : (s.respond x v).app = s.app := rfl
@[simp] theorem respond_rings (s : State) (x v : Nat) : (s.respond x v).rings = s.rings := rfl
@[simp] theorem respond_cats (s : State) (x v : Nat) : (s.respond x v).cats = s.cats := rfl
@[simp] theorem respond_mbox (s : State) (x v : Nat) : (s.respond x v).mbox = s.mbox := rfl
@[simp] theorem respond_arc (s : State) (x v : Nat) : (s.respond x v).arc = s.arc := rfl
@[simp] theorem respond_prv (s : State) (x v : Nat) : (s.respond x v).prv = s.prv := rfl
@[simp] theorem respond_rpl (s : State) (x v : Nat) : (s.respond x v).rpl = s.rpl := rfl
@[simp] theorem respond_eth (s : State) (x v : Nat) : (s.respond x v).eth = s.eth := rfl
@[simp] theorem respond_bus (s : State) (x v : Nat) : (s.respond x v).bus = s.bus := rfl
@[simp] theorem respond_gar (s : State) (x v : Nat) : (s.respond x v).gar = s.gar := rfl
@[simp] theorem respond_rts (s : State) (x v : Nat) : (s.respond x v).rts = s.rts := rfl
@[simp] theorem respond_fio (s : State) (x v : Nat) : (s.respond x v).fio = s.fio := rfl
@[simp] theorem respond_meas (s : State) (x v : Nat) : (s.respond x v).meas = s.meas := rfl
@[simp] theorem respond_wal (s : State) (x v : Nat) : (s.respond x v).wal = s.wal := rfl
@[simp] theorem respond_crr (s : State) (x v : Nat) : (s.respond x v).crr = s.crr := rfl
@[simp] theorem respond_lpe (s : State) (x v : Nat) : (s.respond x v).lpe = s.lpe := rfl
@[simp] theorem respond_lpeUnits (s : State) (x v : Nat) : (s.respond x v).lpeUnits = s.lpeUnits := rfl
@[simp] theorem respond_csc (s : State) (x v : Nat) : (s.respond x v).csc = s.csc := rfl
@[simp] theorem respond_lcs (s : State) (x v : Nat) : (s.respond x v).lcs = s.lcs := rfl
@[simp] theorem respond_cv (s : State) (x v : Nat) : (s.respond x v).cv = s.cv := rfl
@[simp] theorem respond_deferred (s : State) (x v : Nat) : (s.respond x v).deferred = s.deferred := rfl
@[simp] theorem respond_steWas (s : State) (x v : Nat) : (s.respond x v).steWas = s.steWas := rfl
@[simp] theorem respond_pwr (s : State) (x v : Nat) : (s.respond x v).pwr = s.pwr := rfl

/-! `raise` writes `resp` alone. -/

@[simp] theorem raise_pending (s : State) (e : CoreExc) : (s.raise e).pending = s.pending := rfl
@[simp] theorem raise_regs (s : State) (e : CoreExc) : (s.raise e).regs = s.regs := rfl
@[simp] theorem raise_mem (s : State) (e : CoreExc) : (s.raise e).mem = s.mem := rfl
@[simp] theorem raise_freeCtr (s : State) (e : CoreExc) : (s.raise e).freeCtr = s.freeCtr := rfl
@[simp] theorem raise_time (s : State) (e : CoreExc) : (s.raise e).time = s.time := rfl
@[simp] theorem raise_tsq (s : State) (e : CoreExc) : (s.raise e).tsq = s.tsq := rfl
@[simp] theorem raise_pops (s : State) (e : CoreExc) : (s.raise e).pops = s.pops := rfl
@[simp] theorem raise_inv (s : State) (e : CoreExc) : (s.raise e).inv = s.inv := rfl
@[simp] theorem raise_triad (s : State) (e : CoreExc) : (s.raise e).triad = s.triad := rfl
@[simp] theorem raise_app (s : State) (e : CoreExc) : (s.raise e).app = s.app := rfl
@[simp] theorem raise_rings (s : State) (e : CoreExc) : (s.raise e).rings = s.rings := rfl
@[simp] theorem raise_cats (s : State) (e : CoreExc) : (s.raise e).cats = s.cats := rfl
@[simp] theorem raise_mbox (s : State) (e : CoreExc) : (s.raise e).mbox = s.mbox := rfl
@[simp] theorem raise_arc (s : State) (e : CoreExc) : (s.raise e).arc = s.arc := rfl
@[simp] theorem raise_prv (s : State) (e : CoreExc) : (s.raise e).prv = s.prv := rfl
@[simp] theorem raise_rpl (s : State) (e : CoreExc) : (s.raise e).rpl = s.rpl := rfl
@[simp] theorem raise_eth (s : State) (e : CoreExc) : (s.raise e).eth = s.eth := rfl
@[simp] theorem raise_bus (s : State) (e : CoreExc) : (s.raise e).bus = s.bus := rfl
@[simp] theorem raise_gar (s : State) (e : CoreExc) : (s.raise e).gar = s.gar := rfl
@[simp] theorem raise_rts (s : State) (e : CoreExc) : (s.raise e).rts = s.rts := rfl
@[simp] theorem raise_fio (s : State) (e : CoreExc) : (s.raise e).fio = s.fio := rfl
@[simp] theorem raise_meas (s : State) (e : CoreExc) : (s.raise e).meas = s.meas := rfl
@[simp] theorem raise_wal (s : State) (e : CoreExc) : (s.raise e).wal = s.wal := rfl
@[simp] theorem raise_crr (s : State) (e : CoreExc) : (s.raise e).crr = s.crr := rfl
@[simp] theorem raise_lpe (s : State) (e : CoreExc) : (s.raise e).lpe = s.lpe := rfl
@[simp] theorem raise_lpeUnits (s : State) (e : CoreExc) : (s.raise e).lpeUnits = s.lpeUnits := rfl
@[simp] theorem raise_csc (s : State) (e : CoreExc) : (s.raise e).csc = s.csc := rfl
@[simp] theorem raise_lcs (s : State) (e : CoreExc) : (s.raise e).lcs = s.lcs := rfl
@[simp] theorem raise_cv (s : State) (e : CoreExc) : (s.raise e).cv = s.cv := rfl
@[simp] theorem raise_deferred (s : State) (e : CoreExc) : (s.raise e).deferred = s.deferred := rfl
@[simp] theorem raise_steWas (s : State) (e : CoreExc) : (s.raise e).steWas = s.steWas := rfl
@[simp] theorem raise_pwr (s : State) (e : CoreExc) : (s.raise e).pwr = s.pwr := rfl

/-! `interrupt` writes `mbox` alone. -/

@[simp] theorem interrupt_pending (s : State) (b m : Nat) : (s.interrupt b m).pending = s.pending := rfl
@[simp] theorem interrupt_regs (s : State) (b m : Nat) : (s.interrupt b m).regs = s.regs := rfl
@[simp] theorem interrupt_mem (s : State) (b m : Nat) : (s.interrupt b m).mem = s.mem := rfl
@[simp] theorem interrupt_resp (s : State) (b m : Nat) : (s.interrupt b m).resp = s.resp := rfl
@[simp] theorem interrupt_freeCtr (s : State) (b m : Nat) : (s.interrupt b m).freeCtr = s.freeCtr := rfl
@[simp] theorem interrupt_time (s : State) (b m : Nat) : (s.interrupt b m).time = s.time := rfl
@[simp] theorem interrupt_tsq (s : State) (b m : Nat) : (s.interrupt b m).tsq = s.tsq := rfl
@[simp] theorem interrupt_pops (s : State) (b m : Nat) : (s.interrupt b m).pops = s.pops := rfl
@[simp] theorem interrupt_inv (s : State) (b m : Nat) : (s.interrupt b m).inv = s.inv := rfl
@[simp] theorem interrupt_triad (s : State) (b m : Nat) : (s.interrupt b m).triad = s.triad := rfl
@[simp] theorem interrupt_app (s : State) (b m : Nat) : (s.interrupt b m).app = s.app := rfl
@[simp] theorem interrupt_rings (s : State) (b m : Nat) : (s.interrupt b m).rings = s.rings := rfl
@[simp] theorem interrupt_cats (s : State) (b m : Nat) : (s.interrupt b m).cats = s.cats := rfl
@[simp] theorem interrupt_arc (s : State) (b m : Nat) : (s.interrupt b m).arc = s.arc := rfl
@[simp] theorem interrupt_prv (s : State) (b m : Nat) : (s.interrupt b m).prv = s.prv := rfl
@[simp] theorem interrupt_rpl (s : State) (b m : Nat) : (s.interrupt b m).rpl = s.rpl := rfl
@[simp] theorem interrupt_eth (s : State) (b m : Nat) : (s.interrupt b m).eth = s.eth := rfl
@[simp] theorem interrupt_bus (s : State) (b m : Nat) : (s.interrupt b m).bus = s.bus := rfl
@[simp] theorem interrupt_gar (s : State) (b m : Nat) : (s.interrupt b m).gar = s.gar := rfl
@[simp] theorem interrupt_rts (s : State) (b m : Nat) : (s.interrupt b m).rts = s.rts := rfl
@[simp] theorem interrupt_fio (s : State) (b m : Nat) : (s.interrupt b m).fio = s.fio := rfl
@[simp] theorem interrupt_meas (s : State) (b m : Nat) : (s.interrupt b m).meas = s.meas := rfl
@[simp] theorem interrupt_wal (s : State) (b m : Nat) : (s.interrupt b m).wal = s.wal := rfl
@[simp] theorem interrupt_crr (s : State) (b m : Nat) : (s.interrupt b m).crr = s.crr := rfl
@[simp] theorem interrupt_lpe (s : State) (b m : Nat) : (s.interrupt b m).lpe = s.lpe := rfl
@[simp] theorem interrupt_lpeUnits (s : State) (b m : Nat) : (s.interrupt b m).lpeUnits = s.lpeUnits := rfl
@[simp] theorem interrupt_csc (s : State) (b m : Nat) : (s.interrupt b m).csc = s.csc := rfl
@[simp] theorem interrupt_lcs (s : State) (b m : Nat) : (s.interrupt b m).lcs = s.lcs := rfl
@[simp] theorem interrupt_cv (s : State) (b m : Nat) : (s.interrupt b m).cv = s.cv := rfl
@[simp] theorem interrupt_deferred (s : State) (b m : Nat) : (s.interrupt b m).deferred = s.deferred := rfl
@[simp] theorem interrupt_steWas (s : State) (b m : Nat) : (s.interrupt b m).steWas = s.steWas := rfl
@[simp] theorem interrupt_pwr (s : State) (b m : Nat) : (s.interrupt b m).pwr = s.pwr := rfl

/-! `emit` writes `arc` and `regs` alone. -/

@[simp] theorem emit_pending (s : State) (b c v k : Nat) (p : List Byte) : (s.emit b c v k p).pending = s.pending := by unfold State.emit State.emitAt; dsimp only; split <;> rfl
@[simp] theorem emit_mem (s : State) (b c v k : Nat) (p : List Byte) : (s.emit b c v k p).mem = s.mem := by unfold State.emit State.emitAt; dsimp only; split <;> rfl
@[simp] theorem emit_resp (s : State) (b c v k : Nat) (p : List Byte) : (s.emit b c v k p).resp = s.resp := by unfold State.emit State.emitAt; dsimp only; split <;> rfl
@[simp] theorem emit_freeCtr (s : State) (b c v k : Nat) (p : List Byte) : (s.emit b c v k p).freeCtr = s.freeCtr := by unfold State.emit State.emitAt; dsimp only; split <;> rfl
@[simp] theorem emit_time (s : State) (b c v k : Nat) (p : List Byte) : (s.emit b c v k p).time = s.time := by unfold State.emit State.emitAt; dsimp only; split <;> rfl
@[simp] theorem emit_tsq (s : State) (b c v k : Nat) (p : List Byte) : (s.emit b c v k p).tsq = s.tsq := by unfold State.emit State.emitAt; dsimp only; split <;> rfl
@[simp] theorem emit_pops (s : State) (b c v k : Nat) (p : List Byte) : (s.emit b c v k p).pops = s.pops := by unfold State.emit State.emitAt; dsimp only; split <;> rfl
@[simp] theorem emit_inv (s : State) (b c v k : Nat) (p : List Byte) : (s.emit b c v k p).inv = s.inv := by unfold State.emit State.emitAt; dsimp only; split <;> rfl
@[simp] theorem emit_triad (s : State) (b c v k : Nat) (p : List Byte) : (s.emit b c v k p).triad = s.triad := by unfold State.emit State.emitAt; dsimp only; split <;> rfl
@[simp] theorem emit_app (s : State) (b c v k : Nat) (p : List Byte) : (s.emit b c v k p).app = s.app := by unfold State.emit State.emitAt; dsimp only; split <;> rfl
@[simp] theorem emit_rings (s : State) (b c v k : Nat) (p : List Byte) : (s.emit b c v k p).rings = s.rings := by unfold State.emit State.emitAt; dsimp only; split <;> rfl
@[simp] theorem emit_cats (s : State) (b c v k : Nat) (p : List Byte) : (s.emit b c v k p).cats = s.cats := by unfold State.emit State.emitAt; dsimp only; split <;> rfl
@[simp] theorem emit_mbox (s : State) (b c v k : Nat) (p : List Byte) : (s.emit b c v k p).mbox = s.mbox := by unfold State.emit State.emitAt; dsimp only; split <;> rfl
@[simp] theorem emit_prv (s : State) (b c v k : Nat) (p : List Byte) : (s.emit b c v k p).prv = s.prv := by unfold State.emit State.emitAt; dsimp only; split <;> rfl
@[simp] theorem emit_rpl (s : State) (b c v k : Nat) (p : List Byte) : (s.emit b c v k p).rpl = s.rpl := by unfold State.emit State.emitAt; dsimp only; split <;> rfl
@[simp] theorem emit_eth (s : State) (b c v k : Nat) (p : List Byte) : (s.emit b c v k p).eth = s.eth := by unfold State.emit State.emitAt; dsimp only; split <;> rfl
@[simp] theorem emit_bus (s : State) (b c v k : Nat) (p : List Byte) : (s.emit b c v k p).bus = s.bus := by unfold State.emit State.emitAt; dsimp only; split <;> rfl
@[simp] theorem emit_gar (s : State) (b c v k : Nat) (p : List Byte) : (s.emit b c v k p).gar = s.gar := by unfold State.emit State.emitAt; dsimp only; split <;> rfl
@[simp] theorem emit_rts (s : State) (b c v k : Nat) (p : List Byte) : (s.emit b c v k p).rts = s.rts := by unfold State.emit State.emitAt; dsimp only; split <;> rfl
@[simp] theorem emit_fio (s : State) (b c v k : Nat) (p : List Byte) : (s.emit b c v k p).fio = s.fio := by unfold State.emit State.emitAt; dsimp only; split <;> rfl
@[simp] theorem emit_meas (s : State) (b c v k : Nat) (p : List Byte) : (s.emit b c v k p).meas = s.meas := by unfold State.emit State.emitAt; dsimp only; split <;> rfl
@[simp] theorem emit_wal (s : State) (b c v k : Nat) (p : List Byte) : (s.emit b c v k p).wal = s.wal := by unfold State.emit State.emitAt; dsimp only; split <;> rfl
@[simp] theorem emit_crr (s : State) (b c v k : Nat) (p : List Byte) : (s.emit b c v k p).crr = s.crr := by unfold State.emit State.emitAt; dsimp only; split <;> rfl
@[simp] theorem emit_lpe (s : State) (b c v k : Nat) (p : List Byte) : (s.emit b c v k p).lpe = s.lpe := by unfold State.emit State.emitAt; dsimp only; split <;> rfl
@[simp] theorem emit_lpeUnits (s : State) (b c v k : Nat) (p : List Byte) : (s.emit b c v k p).lpeUnits = s.lpeUnits := by unfold State.emit State.emitAt; dsimp only; split <;> rfl
@[simp] theorem emit_csc (s : State) (b c v k : Nat) (p : List Byte) : (s.emit b c v k p).csc = s.csc := by unfold State.emit State.emitAt; dsimp only; split <;> rfl
@[simp] theorem emit_lcs (s : State) (b c v k : Nat) (p : List Byte) : (s.emit b c v k p).lcs = s.lcs := by unfold State.emit State.emitAt; dsimp only; split <;> rfl
@[simp] theorem emit_cv (s : State) (b c v k : Nat) (p : List Byte) : (s.emit b c v k p).cv = s.cv := by unfold State.emit State.emitAt; dsimp only; split <;> rfl
@[simp] theorem emit_deferred (s : State) (b c v k : Nat) (p : List Byte) : (s.emit b c v k p).deferred = s.deferred := by unfold State.emit State.emitAt; dsimp only; split <;> rfl
@[simp] theorem emit_steWas (s : State) (b c v k : Nat) (p : List Byte) : (s.emit b c v k p).steWas = s.steWas := by unfold State.emit State.emitAt; dsimp only; split <;> rfl
@[simp] theorem emit_pwr (s : State) (b c v k : Nat) (p : List Byte) : (s.emit b c v k p).pwr = s.pwr := by unfold State.emit State.emitAt; dsimp only; split <;> rfl

/-! `modApp` writes `app` alone. -/

@[simp] theorem modApp_pending (s : State) (f : AppSt → AppSt) : (s.modApp f).pending = s.pending := rfl
@[simp] theorem modApp_regs (s : State) (f : AppSt → AppSt) : (s.modApp f).regs = s.regs := rfl
@[simp] theorem modApp_mem (s : State) (f : AppSt → AppSt) : (s.modApp f).mem = s.mem := rfl
@[simp] theorem modApp_resp (s : State) (f : AppSt → AppSt) : (s.modApp f).resp = s.resp := rfl
@[simp] theorem modApp_freeCtr (s : State) (f : AppSt → AppSt) : (s.modApp f).freeCtr = s.freeCtr := rfl
@[simp] theorem modApp_time (s : State) (f : AppSt → AppSt) : (s.modApp f).time = s.time := rfl
@[simp] theorem modApp_tsq (s : State) (f : AppSt → AppSt) : (s.modApp f).tsq = s.tsq := rfl
@[simp] theorem modApp_pops (s : State) (f : AppSt → AppSt) : (s.modApp f).pops = s.pops := rfl
@[simp] theorem modApp_inv (s : State) (f : AppSt → AppSt) : (s.modApp f).inv = s.inv := rfl
@[simp] theorem modApp_triad (s : State) (f : AppSt → AppSt) : (s.modApp f).triad = s.triad := rfl
@[simp] theorem modApp_rings (s : State) (f : AppSt → AppSt) : (s.modApp f).rings = s.rings := rfl
@[simp] theorem modApp_cats (s : State) (f : AppSt → AppSt) : (s.modApp f).cats = s.cats := rfl
@[simp] theorem modApp_mbox (s : State) (f : AppSt → AppSt) : (s.modApp f).mbox = s.mbox := rfl
@[simp] theorem modApp_arc (s : State) (f : AppSt → AppSt) : (s.modApp f).arc = s.arc := rfl
@[simp] theorem modApp_prv (s : State) (f : AppSt → AppSt) : (s.modApp f).prv = s.prv := rfl
@[simp] theorem modApp_rpl (s : State) (f : AppSt → AppSt) : (s.modApp f).rpl = s.rpl := rfl
@[simp] theorem modApp_eth (s : State) (f : AppSt → AppSt) : (s.modApp f).eth = s.eth := rfl
@[simp] theorem modApp_bus (s : State) (f : AppSt → AppSt) : (s.modApp f).bus = s.bus := rfl
@[simp] theorem modApp_gar (s : State) (f : AppSt → AppSt) : (s.modApp f).gar = s.gar := rfl
@[simp] theorem modApp_rts (s : State) (f : AppSt → AppSt) : (s.modApp f).rts = s.rts := rfl
@[simp] theorem modApp_fio (s : State) (f : AppSt → AppSt) : (s.modApp f).fio = s.fio := rfl
@[simp] theorem modApp_meas (s : State) (f : AppSt → AppSt) : (s.modApp f).meas = s.meas := rfl
@[simp] theorem modApp_wal (s : State) (f : AppSt → AppSt) : (s.modApp f).wal = s.wal := rfl
@[simp] theorem modApp_crr (s : State) (f : AppSt → AppSt) : (s.modApp f).crr = s.crr := rfl
@[simp] theorem modApp_lpe (s : State) (f : AppSt → AppSt) : (s.modApp f).lpe = s.lpe := rfl
@[simp] theorem modApp_lpeUnits (s : State) (f : AppSt → AppSt) : (s.modApp f).lpeUnits = s.lpeUnits := rfl
@[simp] theorem modApp_csc (s : State) (f : AppSt → AppSt) : (s.modApp f).csc = s.csc := rfl
@[simp] theorem modApp_lcs (s : State) (f : AppSt → AppSt) : (s.modApp f).lcs = s.lcs := rfl
@[simp] theorem modApp_cv (s : State) (f : AppSt → AppSt) : (s.modApp f).cv = s.cv := rfl
@[simp] theorem modApp_deferred (s : State) (f : AppSt → AppSt) : (s.modApp f).deferred = s.deferred := rfl
@[simp] theorem modApp_steWas (s : State) (f : AppSt → AppSt) : (s.modApp f).steWas = s.steWas := rfl
@[simp] theorem modApp_pwr (s : State) (f : AppSt → AppSt) : (s.modApp f).pwr = s.pwr := rfl

/-! `modArc` writes `arc` alone. -/

@[simp] theorem modArc_pending (s : State) (f : ArcSt → ArcSt) : (s.modArc f).pending = s.pending := rfl
@[simp] theorem modArc_regs (s : State) (f : ArcSt → ArcSt) : (s.modArc f).regs = s.regs := rfl
@[simp] theorem modArc_mem (s : State) (f : ArcSt → ArcSt) : (s.modArc f).mem = s.mem := rfl
@[simp] theorem modArc_resp (s : State) (f : ArcSt → ArcSt) : (s.modArc f).resp = s.resp := rfl
@[simp] theorem modArc_freeCtr (s : State) (f : ArcSt → ArcSt) : (s.modArc f).freeCtr = s.freeCtr := rfl
@[simp] theorem modArc_time (s : State) (f : ArcSt → ArcSt) : (s.modArc f).time = s.time := rfl
@[simp] theorem modArc_tsq (s : State) (f : ArcSt → ArcSt) : (s.modArc f).tsq = s.tsq := rfl
@[simp] theorem modArc_pops (s : State) (f : ArcSt → ArcSt) : (s.modArc f).pops = s.pops := rfl
@[simp] theorem modArc_inv (s : State) (f : ArcSt → ArcSt) : (s.modArc f).inv = s.inv := rfl
@[simp] theorem modArc_triad (s : State) (f : ArcSt → ArcSt) : (s.modArc f).triad = s.triad := rfl
@[simp] theorem modArc_app (s : State) (f : ArcSt → ArcSt) : (s.modArc f).app = s.app := rfl
@[simp] theorem modArc_rings (s : State) (f : ArcSt → ArcSt) : (s.modArc f).rings = s.rings := rfl
@[simp] theorem modArc_cats (s : State) (f : ArcSt → ArcSt) : (s.modArc f).cats = s.cats := rfl
@[simp] theorem modArc_mbox (s : State) (f : ArcSt → ArcSt) : (s.modArc f).mbox = s.mbox := rfl
@[simp] theorem modArc_prv (s : State) (f : ArcSt → ArcSt) : (s.modArc f).prv = s.prv := rfl
@[simp] theorem modArc_rpl (s : State) (f : ArcSt → ArcSt) : (s.modArc f).rpl = s.rpl := rfl
@[simp] theorem modArc_eth (s : State) (f : ArcSt → ArcSt) : (s.modArc f).eth = s.eth := rfl
@[simp] theorem modArc_bus (s : State) (f : ArcSt → ArcSt) : (s.modArc f).bus = s.bus := rfl
@[simp] theorem modArc_gar (s : State) (f : ArcSt → ArcSt) : (s.modArc f).gar = s.gar := rfl
@[simp] theorem modArc_rts (s : State) (f : ArcSt → ArcSt) : (s.modArc f).rts = s.rts := rfl
@[simp] theorem modArc_fio (s : State) (f : ArcSt → ArcSt) : (s.modArc f).fio = s.fio := rfl
@[simp] theorem modArc_meas (s : State) (f : ArcSt → ArcSt) : (s.modArc f).meas = s.meas := rfl
@[simp] theorem modArc_wal (s : State) (f : ArcSt → ArcSt) : (s.modArc f).wal = s.wal := rfl
@[simp] theorem modArc_crr (s : State) (f : ArcSt → ArcSt) : (s.modArc f).crr = s.crr := rfl
@[simp] theorem modArc_lpe (s : State) (f : ArcSt → ArcSt) : (s.modArc f).lpe = s.lpe := rfl
@[simp] theorem modArc_lpeUnits (s : State) (f : ArcSt → ArcSt) : (s.modArc f).lpeUnits = s.lpeUnits := rfl
@[simp] theorem modArc_csc (s : State) (f : ArcSt → ArcSt) : (s.modArc f).csc = s.csc := rfl
@[simp] theorem modArc_lcs (s : State) (f : ArcSt → ArcSt) : (s.modArc f).lcs = s.lcs := rfl
@[simp] theorem modArc_cv (s : State) (f : ArcSt → ArcSt) : (s.modArc f).cv = s.cv := rfl
@[simp] theorem modArc_deferred (s : State) (f : ArcSt → ArcSt) : (s.modArc f).deferred = s.deferred := rfl
@[simp] theorem modArc_steWas (s : State) (f : ArcSt → ArcSt) : (s.modArc f).steWas = s.steWas := rfl
@[simp] theorem modArc_pwr (s : State) (f : ArcSt → ArcSt) : (s.modArc f).pwr = s.pwr := rfl

/-! `modCat` writes `cats` alone. -/

@[simp] theorem modCat_pending (s : State) (b : CatBlk) (f : CatSt → CatSt) : (s.modCat b f).pending = s.pending := rfl
@[simp] theorem modCat_regs (s : State) (b : CatBlk) (f : CatSt → CatSt) : (s.modCat b f).regs = s.regs := rfl
@[simp] theorem modCat_mem (s : State) (b : CatBlk) (f : CatSt → CatSt) : (s.modCat b f).mem = s.mem := rfl
@[simp] theorem modCat_resp (s : State) (b : CatBlk) (f : CatSt → CatSt) : (s.modCat b f).resp = s.resp := rfl
@[simp] theorem modCat_freeCtr (s : State) (b : CatBlk) (f : CatSt → CatSt) : (s.modCat b f).freeCtr = s.freeCtr := rfl
@[simp] theorem modCat_time (s : State) (b : CatBlk) (f : CatSt → CatSt) : (s.modCat b f).time = s.time := rfl
@[simp] theorem modCat_tsq (s : State) (b : CatBlk) (f : CatSt → CatSt) : (s.modCat b f).tsq = s.tsq := rfl
@[simp] theorem modCat_pops (s : State) (b : CatBlk) (f : CatSt → CatSt) : (s.modCat b f).pops = s.pops := rfl
@[simp] theorem modCat_inv (s : State) (b : CatBlk) (f : CatSt → CatSt) : (s.modCat b f).inv = s.inv := rfl
@[simp] theorem modCat_triad (s : State) (b : CatBlk) (f : CatSt → CatSt) : (s.modCat b f).triad = s.triad := rfl
@[simp] theorem modCat_app (s : State) (b : CatBlk) (f : CatSt → CatSt) : (s.modCat b f).app = s.app := rfl
@[simp] theorem modCat_rings (s : State) (b : CatBlk) (f : CatSt → CatSt) : (s.modCat b f).rings = s.rings := rfl
@[simp] theorem modCat_mbox (s : State) (b : CatBlk) (f : CatSt → CatSt) : (s.modCat b f).mbox = s.mbox := rfl
@[simp] theorem modCat_arc (s : State) (b : CatBlk) (f : CatSt → CatSt) : (s.modCat b f).arc = s.arc := rfl
@[simp] theorem modCat_prv (s : State) (b : CatBlk) (f : CatSt → CatSt) : (s.modCat b f).prv = s.prv := rfl
@[simp] theorem modCat_rpl (s : State) (b : CatBlk) (f : CatSt → CatSt) : (s.modCat b f).rpl = s.rpl := rfl
@[simp] theorem modCat_eth (s : State) (b : CatBlk) (f : CatSt → CatSt) : (s.modCat b f).eth = s.eth := rfl
@[simp] theorem modCat_bus (s : State) (b : CatBlk) (f : CatSt → CatSt) : (s.modCat b f).bus = s.bus := rfl
@[simp] theorem modCat_gar (s : State) (b : CatBlk) (f : CatSt → CatSt) : (s.modCat b f).gar = s.gar := rfl
@[simp] theorem modCat_rts (s : State) (b : CatBlk) (f : CatSt → CatSt) : (s.modCat b f).rts = s.rts := rfl
@[simp] theorem modCat_fio (s : State) (b : CatBlk) (f : CatSt → CatSt) : (s.modCat b f).fio = s.fio := rfl
@[simp] theorem modCat_meas (s : State) (b : CatBlk) (f : CatSt → CatSt) : (s.modCat b f).meas = s.meas := rfl
@[simp] theorem modCat_wal (s : State) (b : CatBlk) (f : CatSt → CatSt) : (s.modCat b f).wal = s.wal := rfl
@[simp] theorem modCat_crr (s : State) (b : CatBlk) (f : CatSt → CatSt) : (s.modCat b f).crr = s.crr := rfl
@[simp] theorem modCat_lpe (s : State) (b : CatBlk) (f : CatSt → CatSt) : (s.modCat b f).lpe = s.lpe := rfl
@[simp] theorem modCat_lpeUnits (s : State) (b : CatBlk) (f : CatSt → CatSt) : (s.modCat b f).lpeUnits = s.lpeUnits := rfl
@[simp] theorem modCat_csc (s : State) (b : CatBlk) (f : CatSt → CatSt) : (s.modCat b f).csc = s.csc := rfl
@[simp] theorem modCat_lcs (s : State) (b : CatBlk) (f : CatSt → CatSt) : (s.modCat b f).lcs = s.lcs := rfl
@[simp] theorem modCat_cv (s : State) (b : CatBlk) (f : CatSt → CatSt) : (s.modCat b f).cv = s.cv := rfl
@[simp] theorem modCat_deferred (s : State) (b : CatBlk) (f : CatSt → CatSt) : (s.modCat b f).deferred = s.deferred := rfl
@[simp] theorem modCat_steWas (s : State) (b : CatBlk) (f : CatSt → CatSt) : (s.modCat b f).steWas = s.steWas := rfl
@[simp] theorem modCat_pwr (s : State) (b : CatBlk) (f : CatSt → CatSt) : (s.modCat b f).pwr = s.pwr := rfl

/-! `modCv` writes `cv` alone. -/

@[simp] theorem modCv_pending (s : State) (f : CvSt → CvSt) : (s.modCv f).pending = s.pending := rfl
@[simp] theorem modCv_regs (s : State) (f : CvSt → CvSt) : (s.modCv f).regs = s.regs := rfl
@[simp] theorem modCv_mem (s : State) (f : CvSt → CvSt) : (s.modCv f).mem = s.mem := rfl
@[simp] theorem modCv_resp (s : State) (f : CvSt → CvSt) : (s.modCv f).resp = s.resp := rfl
@[simp] theorem modCv_freeCtr (s : State) (f : CvSt → CvSt) : (s.modCv f).freeCtr = s.freeCtr := rfl
@[simp] theorem modCv_time (s : State) (f : CvSt → CvSt) : (s.modCv f).time = s.time := rfl
@[simp] theorem modCv_tsq (s : State) (f : CvSt → CvSt) : (s.modCv f).tsq = s.tsq := rfl
@[simp] theorem modCv_pops (s : State) (f : CvSt → CvSt) : (s.modCv f).pops = s.pops := rfl
@[simp] theorem modCv_inv (s : State) (f : CvSt → CvSt) : (s.modCv f).inv = s.inv := rfl
@[simp] theorem modCv_triad (s : State) (f : CvSt → CvSt) : (s.modCv f).triad = s.triad := rfl
@[simp] theorem modCv_app (s : State) (f : CvSt → CvSt) : (s.modCv f).app = s.app := rfl
@[simp] theorem modCv_rings (s : State) (f : CvSt → CvSt) : (s.modCv f).rings = s.rings := rfl
@[simp] theorem modCv_cats (s : State) (f : CvSt → CvSt) : (s.modCv f).cats = s.cats := rfl
@[simp] theorem modCv_mbox (s : State) (f : CvSt → CvSt) : (s.modCv f).mbox = s.mbox := rfl
@[simp] theorem modCv_arc (s : State) (f : CvSt → CvSt) : (s.modCv f).arc = s.arc := rfl
@[simp] theorem modCv_prv (s : State) (f : CvSt → CvSt) : (s.modCv f).prv = s.prv := rfl
@[simp] theorem modCv_rpl (s : State) (f : CvSt → CvSt) : (s.modCv f).rpl = s.rpl := rfl
@[simp] theorem modCv_eth (s : State) (f : CvSt → CvSt) : (s.modCv f).eth = s.eth := rfl
@[simp] theorem modCv_bus (s : State) (f : CvSt → CvSt) : (s.modCv f).bus = s.bus := rfl
@[simp] theorem modCv_gar (s : State) (f : CvSt → CvSt) : (s.modCv f).gar = s.gar := rfl
@[simp] theorem modCv_rts (s : State) (f : CvSt → CvSt) : (s.modCv f).rts = s.rts := rfl
@[simp] theorem modCv_fio (s : State) (f : CvSt → CvSt) : (s.modCv f).fio = s.fio := rfl
@[simp] theorem modCv_meas (s : State) (f : CvSt → CvSt) : (s.modCv f).meas = s.meas := rfl
@[simp] theorem modCv_wal (s : State) (f : CvSt → CvSt) : (s.modCv f).wal = s.wal := rfl
@[simp] theorem modCv_crr (s : State) (f : CvSt → CvSt) : (s.modCv f).crr = s.crr := rfl
@[simp] theorem modCv_lpe (s : State) (f : CvSt → CvSt) : (s.modCv f).lpe = s.lpe := rfl
@[simp] theorem modCv_lpeUnits (s : State) (f : CvSt → CvSt) : (s.modCv f).lpeUnits = s.lpeUnits := rfl
@[simp] theorem modCv_csc (s : State) (f : CvSt → CvSt) : (s.modCv f).csc = s.csc := rfl
@[simp] theorem modCv_lcs (s : State) (f : CvSt → CvSt) : (s.modCv f).lcs = s.lcs := rfl
@[simp] theorem modCv_deferred (s : State) (f : CvSt → CvSt) : (s.modCv f).deferred = s.deferred := rfl
@[simp] theorem modCv_steWas (s : State) (f : CvSt → CvSt) : (s.modCv f).steWas = s.steWas := rfl
@[simp] theorem modCv_pwr (s : State) (f : CvSt → CvSt) : (s.modCv f).pwr = s.pwr := rfl

/-! `modCrr` writes `crr` alone. -/

@[simp] theorem modCrr_pending (s : State) (f : CrrSt → CrrSt) : (s.modCrr f).pending = s.pending := rfl
@[simp] theorem modCrr_regs (s : State) (f : CrrSt → CrrSt) : (s.modCrr f).regs = s.regs := rfl
@[simp] theorem modCrr_mem (s : State) (f : CrrSt → CrrSt) : (s.modCrr f).mem = s.mem := rfl
@[simp] theorem modCrr_resp (s : State) (f : CrrSt → CrrSt) : (s.modCrr f).resp = s.resp := rfl
@[simp] theorem modCrr_freeCtr (s : State) (f : CrrSt → CrrSt) : (s.modCrr f).freeCtr = s.freeCtr := rfl
@[simp] theorem modCrr_time (s : State) (f : CrrSt → CrrSt) : (s.modCrr f).time = s.time := rfl
@[simp] theorem modCrr_tsq (s : State) (f : CrrSt → CrrSt) : (s.modCrr f).tsq = s.tsq := rfl
@[simp] theorem modCrr_pops (s : State) (f : CrrSt → CrrSt) : (s.modCrr f).pops = s.pops := rfl
@[simp] theorem modCrr_inv (s : State) (f : CrrSt → CrrSt) : (s.modCrr f).inv = s.inv := rfl
@[simp] theorem modCrr_triad (s : State) (f : CrrSt → CrrSt) : (s.modCrr f).triad = s.triad := rfl
@[simp] theorem modCrr_app (s : State) (f : CrrSt → CrrSt) : (s.modCrr f).app = s.app := rfl
@[simp] theorem modCrr_rings (s : State) (f : CrrSt → CrrSt) : (s.modCrr f).rings = s.rings := rfl
@[simp] theorem modCrr_cats (s : State) (f : CrrSt → CrrSt) : (s.modCrr f).cats = s.cats := rfl
@[simp] theorem modCrr_mbox (s : State) (f : CrrSt → CrrSt) : (s.modCrr f).mbox = s.mbox := rfl
@[simp] theorem modCrr_arc (s : State) (f : CrrSt → CrrSt) : (s.modCrr f).arc = s.arc := rfl
@[simp] theorem modCrr_prv (s : State) (f : CrrSt → CrrSt) : (s.modCrr f).prv = s.prv := rfl
@[simp] theorem modCrr_rpl (s : State) (f : CrrSt → CrrSt) : (s.modCrr f).rpl = s.rpl := rfl
@[simp] theorem modCrr_eth (s : State) (f : CrrSt → CrrSt) : (s.modCrr f).eth = s.eth := rfl
@[simp] theorem modCrr_bus (s : State) (f : CrrSt → CrrSt) : (s.modCrr f).bus = s.bus := rfl
@[simp] theorem modCrr_gar (s : State) (f : CrrSt → CrrSt) : (s.modCrr f).gar = s.gar := rfl
@[simp] theorem modCrr_rts (s : State) (f : CrrSt → CrrSt) : (s.modCrr f).rts = s.rts := rfl
@[simp] theorem modCrr_fio (s : State) (f : CrrSt → CrrSt) : (s.modCrr f).fio = s.fio := rfl
@[simp] theorem modCrr_meas (s : State) (f : CrrSt → CrrSt) : (s.modCrr f).meas = s.meas := rfl
@[simp] theorem modCrr_wal (s : State) (f : CrrSt → CrrSt) : (s.modCrr f).wal = s.wal := rfl
@[simp] theorem modCrr_lpe (s : State) (f : CrrSt → CrrSt) : (s.modCrr f).lpe = s.lpe := rfl
@[simp] theorem modCrr_lpeUnits (s : State) (f : CrrSt → CrrSt) : (s.modCrr f).lpeUnits = s.lpeUnits := rfl
@[simp] theorem modCrr_csc (s : State) (f : CrrSt → CrrSt) : (s.modCrr f).csc = s.csc := rfl
@[simp] theorem modCrr_lcs (s : State) (f : CrrSt → CrrSt) : (s.modCrr f).lcs = s.lcs := rfl
@[simp] theorem modCrr_cv (s : State) (f : CrrSt → CrrSt) : (s.modCrr f).cv = s.cv := rfl
@[simp] theorem modCrr_deferred (s : State) (f : CrrSt → CrrSt) : (s.modCrr f).deferred = s.deferred := rfl
@[simp] theorem modCrr_steWas (s : State) (f : CrrSt → CrrSt) : (s.modCrr f).steWas = s.steWas := rfl
@[simp] theorem modCrr_pwr (s : State) (f : CrrSt → CrrSt) : (s.modCrr f).pwr = s.pwr := rfl

/-! `modEth` writes `eth` alone. -/

@[simp] theorem modEth_pending (s : State) (f : EthSt → EthSt) : (s.modEth f).pending = s.pending := rfl
@[simp] theorem modEth_regs (s : State) (f : EthSt → EthSt) : (s.modEth f).regs = s.regs := rfl
@[simp] theorem modEth_mem (s : State) (f : EthSt → EthSt) : (s.modEth f).mem = s.mem := rfl
@[simp] theorem modEth_resp (s : State) (f : EthSt → EthSt) : (s.modEth f).resp = s.resp := rfl
@[simp] theorem modEth_freeCtr (s : State) (f : EthSt → EthSt) : (s.modEth f).freeCtr = s.freeCtr := rfl
@[simp] theorem modEth_time (s : State) (f : EthSt → EthSt) : (s.modEth f).time = s.time := rfl
@[simp] theorem modEth_tsq (s : State) (f : EthSt → EthSt) : (s.modEth f).tsq = s.tsq := rfl
@[simp] theorem modEth_pops (s : State) (f : EthSt → EthSt) : (s.modEth f).pops = s.pops := rfl
@[simp] theorem modEth_inv (s : State) (f : EthSt → EthSt) : (s.modEth f).inv = s.inv := rfl
@[simp] theorem modEth_triad (s : State) (f : EthSt → EthSt) : (s.modEth f).triad = s.triad := rfl
@[simp] theorem modEth_app (s : State) (f : EthSt → EthSt) : (s.modEth f).app = s.app := rfl
@[simp] theorem modEth_rings (s : State) (f : EthSt → EthSt) : (s.modEth f).rings = s.rings := rfl
@[simp] theorem modEth_cats (s : State) (f : EthSt → EthSt) : (s.modEth f).cats = s.cats := rfl
@[simp] theorem modEth_mbox (s : State) (f : EthSt → EthSt) : (s.modEth f).mbox = s.mbox := rfl
@[simp] theorem modEth_arc (s : State) (f : EthSt → EthSt) : (s.modEth f).arc = s.arc := rfl
@[simp] theorem modEth_prv (s : State) (f : EthSt → EthSt) : (s.modEth f).prv = s.prv := rfl
@[simp] theorem modEth_rpl (s : State) (f : EthSt → EthSt) : (s.modEth f).rpl = s.rpl := rfl
@[simp] theorem modEth_bus (s : State) (f : EthSt → EthSt) : (s.modEth f).bus = s.bus := rfl
@[simp] theorem modEth_gar (s : State) (f : EthSt → EthSt) : (s.modEth f).gar = s.gar := rfl
@[simp] theorem modEth_rts (s : State) (f : EthSt → EthSt) : (s.modEth f).rts = s.rts := rfl
@[simp] theorem modEth_fio (s : State) (f : EthSt → EthSt) : (s.modEth f).fio = s.fio := rfl
@[simp] theorem modEth_meas (s : State) (f : EthSt → EthSt) : (s.modEth f).meas = s.meas := rfl
@[simp] theorem modEth_wal (s : State) (f : EthSt → EthSt) : (s.modEth f).wal = s.wal := rfl
@[simp] theorem modEth_crr (s : State) (f : EthSt → EthSt) : (s.modEth f).crr = s.crr := rfl
@[simp] theorem modEth_lpe (s : State) (f : EthSt → EthSt) : (s.modEth f).lpe = s.lpe := rfl
@[simp] theorem modEth_lpeUnits (s : State) (f : EthSt → EthSt) : (s.modEth f).lpeUnits = s.lpeUnits := rfl
@[simp] theorem modEth_csc (s : State) (f : EthSt → EthSt) : (s.modEth f).csc = s.csc := rfl
@[simp] theorem modEth_lcs (s : State) (f : EthSt → EthSt) : (s.modEth f).lcs = s.lcs := rfl
@[simp] theorem modEth_cv (s : State) (f : EthSt → EthSt) : (s.modEth f).cv = s.cv := rfl
@[simp] theorem modEth_deferred (s : State) (f : EthSt → EthSt) : (s.modEth f).deferred = s.deferred := rfl
@[simp] theorem modEth_steWas (s : State) (f : EthSt → EthSt) : (s.modEth f).steWas = s.steWas := rfl
@[simp] theorem modEth_pwr (s : State) (f : EthSt → EthSt) : (s.modEth f).pwr = s.pwr := rfl

/-! `modCh` writes `fio` alone. -/

@[simp] theorem modCh_pending (s : State) (c : Nat) (f : FioCh → FioCh) : (s.modCh c f).pending = s.pending := rfl
@[simp] theorem modCh_regs (s : State) (c : Nat) (f : FioCh → FioCh) : (s.modCh c f).regs = s.regs := rfl
@[simp] theorem modCh_mem (s : State) (c : Nat) (f : FioCh → FioCh) : (s.modCh c f).mem = s.mem := rfl
@[simp] theorem modCh_resp (s : State) (c : Nat) (f : FioCh → FioCh) : (s.modCh c f).resp = s.resp := rfl
@[simp] theorem modCh_freeCtr (s : State) (c : Nat) (f : FioCh → FioCh) : (s.modCh c f).freeCtr = s.freeCtr := rfl
@[simp] theorem modCh_time (s : State) (c : Nat) (f : FioCh → FioCh) : (s.modCh c f).time = s.time := rfl
@[simp] theorem modCh_tsq (s : State) (c : Nat) (f : FioCh → FioCh) : (s.modCh c f).tsq = s.tsq := rfl
@[simp] theorem modCh_pops (s : State) (c : Nat) (f : FioCh → FioCh) : (s.modCh c f).pops = s.pops := rfl
@[simp] theorem modCh_inv (s : State) (c : Nat) (f : FioCh → FioCh) : (s.modCh c f).inv = s.inv := rfl
@[simp] theorem modCh_triad (s : State) (c : Nat) (f : FioCh → FioCh) : (s.modCh c f).triad = s.triad := rfl
@[simp] theorem modCh_app (s : State) (c : Nat) (f : FioCh → FioCh) : (s.modCh c f).app = s.app := rfl
@[simp] theorem modCh_rings (s : State) (c : Nat) (f : FioCh → FioCh) : (s.modCh c f).rings = s.rings := rfl
@[simp] theorem modCh_cats (s : State) (c : Nat) (f : FioCh → FioCh) : (s.modCh c f).cats = s.cats := rfl
@[simp] theorem modCh_mbox (s : State) (c : Nat) (f : FioCh → FioCh) : (s.modCh c f).mbox = s.mbox := rfl
@[simp] theorem modCh_arc (s : State) (c : Nat) (f : FioCh → FioCh) : (s.modCh c f).arc = s.arc := rfl
@[simp] theorem modCh_prv (s : State) (c : Nat) (f : FioCh → FioCh) : (s.modCh c f).prv = s.prv := rfl
@[simp] theorem modCh_rpl (s : State) (c : Nat) (f : FioCh → FioCh) : (s.modCh c f).rpl = s.rpl := rfl
@[simp] theorem modCh_eth (s : State) (c : Nat) (f : FioCh → FioCh) : (s.modCh c f).eth = s.eth := rfl
@[simp] theorem modCh_bus (s : State) (c : Nat) (f : FioCh → FioCh) : (s.modCh c f).bus = s.bus := rfl
@[simp] theorem modCh_gar (s : State) (c : Nat) (f : FioCh → FioCh) : (s.modCh c f).gar = s.gar := rfl
@[simp] theorem modCh_rts (s : State) (c : Nat) (f : FioCh → FioCh) : (s.modCh c f).rts = s.rts := rfl
@[simp] theorem modCh_meas (s : State) (c : Nat) (f : FioCh → FioCh) : (s.modCh c f).meas = s.meas := rfl
@[simp] theorem modCh_wal (s : State) (c : Nat) (f : FioCh → FioCh) : (s.modCh c f).wal = s.wal := rfl
@[simp] theorem modCh_crr (s : State) (c : Nat) (f : FioCh → FioCh) : (s.modCh c f).crr = s.crr := rfl
@[simp] theorem modCh_lpe (s : State) (c : Nat) (f : FioCh → FioCh) : (s.modCh c f).lpe = s.lpe := rfl
@[simp] theorem modCh_lpeUnits (s : State) (c : Nat) (f : FioCh → FioCh) : (s.modCh c f).lpeUnits = s.lpeUnits := rfl
@[simp] theorem modCh_csc (s : State) (c : Nat) (f : FioCh → FioCh) : (s.modCh c f).csc = s.csc := rfl
@[simp] theorem modCh_lcs (s : State) (c : Nat) (f : FioCh → FioCh) : (s.modCh c f).lcs = s.lcs := rfl
@[simp] theorem modCh_cv (s : State) (c : Nat) (f : FioCh → FioCh) : (s.modCh c f).cv = s.cv := rfl
@[simp] theorem modCh_deferred (s : State) (c : Nat) (f : FioCh → FioCh) : (s.modCh c f).deferred = s.deferred := rfl
@[simp] theorem modCh_steWas (s : State) (c : Nat) (f : FioCh → FioCh) : (s.modCh c f).steWas = s.steWas := rfl
@[simp] theorem modCh_pwr (s : State) (c : Nat) (f : FioCh → FioCh) : (s.modCh c f).pwr = s.pwr := rfl

/-! `modGrp` writes `fio` alone. -/

@[simp] theorem modGrp_pending (s : State) (g : Nat) (f : FioGrp → FioGrp) : (s.modGrp g f).pending = s.pending := rfl
@[simp] theorem modGrp_regs (s : State) (g : Nat) (f : FioGrp → FioGrp) : (s.modGrp g f).regs = s.regs := rfl
@[simp] theorem modGrp_mem (s : State) (g : Nat) (f : FioGrp → FioGrp) : (s.modGrp g f).mem = s.mem := rfl
@[simp] theorem modGrp_resp (s : State) (g : Nat) (f : FioGrp → FioGrp) : (s.modGrp g f).resp = s.resp := rfl
@[simp] theorem modGrp_freeCtr (s : State) (g : Nat) (f : FioGrp → FioGrp) : (s.modGrp g f).freeCtr = s.freeCtr := rfl
@[simp] theorem modGrp_time (s : State) (g : Nat) (f : FioGrp → FioGrp) : (s.modGrp g f).time = s.time := rfl
@[simp] theorem modGrp_tsq (s : State) (g : Nat) (f : FioGrp → FioGrp) : (s.modGrp g f).tsq = s.tsq := rfl
@[simp] theorem modGrp_pops (s : State) (g : Nat) (f : FioGrp → FioGrp) : (s.modGrp g f).pops = s.pops := rfl
@[simp] theorem modGrp_inv (s : State) (g : Nat) (f : FioGrp → FioGrp) : (s.modGrp g f).inv = s.inv := rfl
@[simp] theorem modGrp_triad (s : State) (g : Nat) (f : FioGrp → FioGrp) : (s.modGrp g f).triad = s.triad := rfl
@[simp] theorem modGrp_app (s : State) (g : Nat) (f : FioGrp → FioGrp) : (s.modGrp g f).app = s.app := rfl
@[simp] theorem modGrp_rings (s : State) (g : Nat) (f : FioGrp → FioGrp) : (s.modGrp g f).rings = s.rings := rfl
@[simp] theorem modGrp_cats (s : State) (g : Nat) (f : FioGrp → FioGrp) : (s.modGrp g f).cats = s.cats := rfl
@[simp] theorem modGrp_mbox (s : State) (g : Nat) (f : FioGrp → FioGrp) : (s.modGrp g f).mbox = s.mbox := rfl
@[simp] theorem modGrp_arc (s : State) (g : Nat) (f : FioGrp → FioGrp) : (s.modGrp g f).arc = s.arc := rfl
@[simp] theorem modGrp_prv (s : State) (g : Nat) (f : FioGrp → FioGrp) : (s.modGrp g f).prv = s.prv := rfl
@[simp] theorem modGrp_rpl (s : State) (g : Nat) (f : FioGrp → FioGrp) : (s.modGrp g f).rpl = s.rpl := rfl
@[simp] theorem modGrp_eth (s : State) (g : Nat) (f : FioGrp → FioGrp) : (s.modGrp g f).eth = s.eth := rfl
@[simp] theorem modGrp_bus (s : State) (g : Nat) (f : FioGrp → FioGrp) : (s.modGrp g f).bus = s.bus := rfl
@[simp] theorem modGrp_gar (s : State) (g : Nat) (f : FioGrp → FioGrp) : (s.modGrp g f).gar = s.gar := rfl
@[simp] theorem modGrp_rts (s : State) (g : Nat) (f : FioGrp → FioGrp) : (s.modGrp g f).rts = s.rts := rfl
@[simp] theorem modGrp_meas (s : State) (g : Nat) (f : FioGrp → FioGrp) : (s.modGrp g f).meas = s.meas := rfl
@[simp] theorem modGrp_wal (s : State) (g : Nat) (f : FioGrp → FioGrp) : (s.modGrp g f).wal = s.wal := rfl
@[simp] theorem modGrp_crr (s : State) (g : Nat) (f : FioGrp → FioGrp) : (s.modGrp g f).crr = s.crr := rfl
@[simp] theorem modGrp_lpe (s : State) (g : Nat) (f : FioGrp → FioGrp) : (s.modGrp g f).lpe = s.lpe := rfl
@[simp] theorem modGrp_lpeUnits (s : State) (g : Nat) (f : FioGrp → FioGrp) : (s.modGrp g f).lpeUnits = s.lpeUnits := rfl
@[simp] theorem modGrp_csc (s : State) (g : Nat) (f : FioGrp → FioGrp) : (s.modGrp g f).csc = s.csc := rfl
@[simp] theorem modGrp_lcs (s : State) (g : Nat) (f : FioGrp → FioGrp) : (s.modGrp g f).lcs = s.lcs := rfl
@[simp] theorem modGrp_cv (s : State) (g : Nat) (f : FioGrp → FioGrp) : (s.modGrp g f).cv = s.cv := rfl
@[simp] theorem modGrp_deferred (s : State) (g : Nat) (f : FioGrp → FioGrp) : (s.modGrp g f).deferred = s.deferred := rfl
@[simp] theorem modGrp_steWas (s : State) (g : Nat) (f : FioGrp → FioGrp) : (s.modGrp g f).steWas = s.steWas := rfl
@[simp] theorem modGrp_pwr (s : State) (g : Nat) (f : FioGrp → FioGrp) : (s.modGrp g f).pwr = s.pwr := rfl

/-! `modGar` writes `gar` alone. -/

@[simp] theorem modGar_pending (s : State) (f : GarSt → GarSt) : (s.modGar f).pending = s.pending := rfl
@[simp] theorem modGar_regs (s : State) (f : GarSt → GarSt) : (s.modGar f).regs = s.regs := rfl
@[simp] theorem modGar_mem (s : State) (f : GarSt → GarSt) : (s.modGar f).mem = s.mem := rfl
@[simp] theorem modGar_resp (s : State) (f : GarSt → GarSt) : (s.modGar f).resp = s.resp := rfl
@[simp] theorem modGar_freeCtr (s : State) (f : GarSt → GarSt) : (s.modGar f).freeCtr = s.freeCtr := rfl
@[simp] theorem modGar_time (s : State) (f : GarSt → GarSt) : (s.modGar f).time = s.time := rfl
@[simp] theorem modGar_tsq (s : State) (f : GarSt → GarSt) : (s.modGar f).tsq = s.tsq := rfl
@[simp] theorem modGar_pops (s : State) (f : GarSt → GarSt) : (s.modGar f).pops = s.pops := rfl
@[simp] theorem modGar_inv (s : State) (f : GarSt → GarSt) : (s.modGar f).inv = s.inv := rfl
@[simp] theorem modGar_triad (s : State) (f : GarSt → GarSt) : (s.modGar f).triad = s.triad := rfl
@[simp] theorem modGar_app (s : State) (f : GarSt → GarSt) : (s.modGar f).app = s.app := rfl
@[simp] theorem modGar_rings (s : State) (f : GarSt → GarSt) : (s.modGar f).rings = s.rings := rfl
@[simp] theorem modGar_cats (s : State) (f : GarSt → GarSt) : (s.modGar f).cats = s.cats := rfl
@[simp] theorem modGar_mbox (s : State) (f : GarSt → GarSt) : (s.modGar f).mbox = s.mbox := rfl
@[simp] theorem modGar_arc (s : State) (f : GarSt → GarSt) : (s.modGar f).arc = s.arc := rfl
@[simp] theorem modGar_prv (s : State) (f : GarSt → GarSt) : (s.modGar f).prv = s.prv := rfl
@[simp] theorem modGar_rpl (s : State) (f : GarSt → GarSt) : (s.modGar f).rpl = s.rpl := rfl
@[simp] theorem modGar_eth (s : State) (f : GarSt → GarSt) : (s.modGar f).eth = s.eth := rfl
@[simp] theorem modGar_bus (s : State) (f : GarSt → GarSt) : (s.modGar f).bus = s.bus := rfl
@[simp] theorem modGar_rts (s : State) (f : GarSt → GarSt) : (s.modGar f).rts = s.rts := rfl
@[simp] theorem modGar_fio (s : State) (f : GarSt → GarSt) : (s.modGar f).fio = s.fio := rfl
@[simp] theorem modGar_meas (s : State) (f : GarSt → GarSt) : (s.modGar f).meas = s.meas := rfl
@[simp] theorem modGar_wal (s : State) (f : GarSt → GarSt) : (s.modGar f).wal = s.wal := rfl
@[simp] theorem modGar_crr (s : State) (f : GarSt → GarSt) : (s.modGar f).crr = s.crr := rfl
@[simp] theorem modGar_lpe (s : State) (f : GarSt → GarSt) : (s.modGar f).lpe = s.lpe := rfl
@[simp] theorem modGar_lpeUnits (s : State) (f : GarSt → GarSt) : (s.modGar f).lpeUnits = s.lpeUnits := rfl
@[simp] theorem modGar_csc (s : State) (f : GarSt → GarSt) : (s.modGar f).csc = s.csc := rfl
@[simp] theorem modGar_lcs (s : State) (f : GarSt → GarSt) : (s.modGar f).lcs = s.lcs := rfl
@[simp] theorem modGar_cv (s : State) (f : GarSt → GarSt) : (s.modGar f).cv = s.cv := rfl
@[simp] theorem modGar_deferred (s : State) (f : GarSt → GarSt) : (s.modGar f).deferred = s.deferred := rfl
@[simp] theorem modGar_steWas (s : State) (f : GarSt → GarSt) : (s.modGar f).steWas = s.steWas := rfl
@[simp] theorem modGar_pwr (s : State) (f : GarSt → GarSt) : (s.modGar f).pwr = s.pwr := rfl

/-! `modPair` writes `gar` alone. -/

@[simp] theorem modPair_pending (s : State) (x : Nat) (f : GarPair → GarPair) : (s.modPair x f).pending = s.pending := rfl
@[simp] theorem modPair_regs (s : State) (x : Nat) (f : GarPair → GarPair) : (s.modPair x f).regs = s.regs := rfl
@[simp] theorem modPair_mem (s : State) (x : Nat) (f : GarPair → GarPair) : (s.modPair x f).mem = s.mem := rfl
@[simp] theorem modPair_resp (s : State) (x : Nat) (f : GarPair → GarPair) : (s.modPair x f).resp = s.resp := rfl
@[simp] theorem modPair_freeCtr (s : State) (x : Nat) (f : GarPair → GarPair) : (s.modPair x f).freeCtr = s.freeCtr := rfl
@[simp] theorem modPair_time (s : State) (x : Nat) (f : GarPair → GarPair) : (s.modPair x f).time = s.time := rfl
@[simp] theorem modPair_tsq (s : State) (x : Nat) (f : GarPair → GarPair) : (s.modPair x f).tsq = s.tsq := rfl
@[simp] theorem modPair_pops (s : State) (x : Nat) (f : GarPair → GarPair) : (s.modPair x f).pops = s.pops := rfl
@[simp] theorem modPair_inv (s : State) (x : Nat) (f : GarPair → GarPair) : (s.modPair x f).inv = s.inv := rfl
@[simp] theorem modPair_triad (s : State) (x : Nat) (f : GarPair → GarPair) : (s.modPair x f).triad = s.triad := rfl
@[simp] theorem modPair_app (s : State) (x : Nat) (f : GarPair → GarPair) : (s.modPair x f).app = s.app := rfl
@[simp] theorem modPair_rings (s : State) (x : Nat) (f : GarPair → GarPair) : (s.modPair x f).rings = s.rings := rfl
@[simp] theorem modPair_cats (s : State) (x : Nat) (f : GarPair → GarPair) : (s.modPair x f).cats = s.cats := rfl
@[simp] theorem modPair_mbox (s : State) (x : Nat) (f : GarPair → GarPair) : (s.modPair x f).mbox = s.mbox := rfl
@[simp] theorem modPair_arc (s : State) (x : Nat) (f : GarPair → GarPair) : (s.modPair x f).arc = s.arc := rfl
@[simp] theorem modPair_prv (s : State) (x : Nat) (f : GarPair → GarPair) : (s.modPair x f).prv = s.prv := rfl
@[simp] theorem modPair_rpl (s : State) (x : Nat) (f : GarPair → GarPair) : (s.modPair x f).rpl = s.rpl := rfl
@[simp] theorem modPair_eth (s : State) (x : Nat) (f : GarPair → GarPair) : (s.modPair x f).eth = s.eth := rfl
@[simp] theorem modPair_bus (s : State) (x : Nat) (f : GarPair → GarPair) : (s.modPair x f).bus = s.bus := rfl
@[simp] theorem modPair_rts (s : State) (x : Nat) (f : GarPair → GarPair) : (s.modPair x f).rts = s.rts := rfl
@[simp] theorem modPair_fio (s : State) (x : Nat) (f : GarPair → GarPair) : (s.modPair x f).fio = s.fio := rfl
@[simp] theorem modPair_meas (s : State) (x : Nat) (f : GarPair → GarPair) : (s.modPair x f).meas = s.meas := rfl
@[simp] theorem modPair_wal (s : State) (x : Nat) (f : GarPair → GarPair) : (s.modPair x f).wal = s.wal := rfl
@[simp] theorem modPair_crr (s : State) (x : Nat) (f : GarPair → GarPair) : (s.modPair x f).crr = s.crr := rfl
@[simp] theorem modPair_lpe (s : State) (x : Nat) (f : GarPair → GarPair) : (s.modPair x f).lpe = s.lpe := rfl
@[simp] theorem modPair_lpeUnits (s : State) (x : Nat) (f : GarPair → GarPair) : (s.modPair x f).lpeUnits = s.lpeUnits := rfl
@[simp] theorem modPair_csc (s : State) (x : Nat) (f : GarPair → GarPair) : (s.modPair x f).csc = s.csc := rfl
@[simp] theorem modPair_lcs (s : State) (x : Nat) (f : GarPair → GarPair) : (s.modPair x f).lcs = s.lcs := rfl
@[simp] theorem modPair_cv (s : State) (x : Nat) (f : GarPair → GarPair) : (s.modPair x f).cv = s.cv := rfl
@[simp] theorem modPair_deferred (s : State) (x : Nat) (f : GarPair → GarPair) : (s.modPair x f).deferred = s.deferred := rfl
@[simp] theorem modPair_steWas (s : State) (x : Nat) (f : GarPair → GarPair) : (s.modPair x f).steWas = s.steWas := rfl
@[simp] theorem modPair_pwr (s : State) (x : Nat) (f : GarPair → GarPair) : (s.modPair x f).pwr = s.pwr := rfl

/-! `modInst` writes `gar` alone. -/

@[simp] theorem modInst_pending (s : State) (j : Nat) (f : GarInst → GarInst) : (s.modInst j f).pending = s.pending := rfl
@[simp] theorem modInst_regs (s : State) (j : Nat) (f : GarInst → GarInst) : (s.modInst j f).regs = s.regs := rfl
@[simp] theorem modInst_mem (s : State) (j : Nat) (f : GarInst → GarInst) : (s.modInst j f).mem = s.mem := rfl
@[simp] theorem modInst_resp (s : State) (j : Nat) (f : GarInst → GarInst) : (s.modInst j f).resp = s.resp := rfl
@[simp] theorem modInst_freeCtr (s : State) (j : Nat) (f : GarInst → GarInst) : (s.modInst j f).freeCtr = s.freeCtr := rfl
@[simp] theorem modInst_time (s : State) (j : Nat) (f : GarInst → GarInst) : (s.modInst j f).time = s.time := rfl
@[simp] theorem modInst_tsq (s : State) (j : Nat) (f : GarInst → GarInst) : (s.modInst j f).tsq = s.tsq := rfl
@[simp] theorem modInst_pops (s : State) (j : Nat) (f : GarInst → GarInst) : (s.modInst j f).pops = s.pops := rfl
@[simp] theorem modInst_inv (s : State) (j : Nat) (f : GarInst → GarInst) : (s.modInst j f).inv = s.inv := rfl
@[simp] theorem modInst_triad (s : State) (j : Nat) (f : GarInst → GarInst) : (s.modInst j f).triad = s.triad := rfl
@[simp] theorem modInst_app (s : State) (j : Nat) (f : GarInst → GarInst) : (s.modInst j f).app = s.app := rfl
@[simp] theorem modInst_rings (s : State) (j : Nat) (f : GarInst → GarInst) : (s.modInst j f).rings = s.rings := rfl
@[simp] theorem modInst_cats (s : State) (j : Nat) (f : GarInst → GarInst) : (s.modInst j f).cats = s.cats := rfl
@[simp] theorem modInst_mbox (s : State) (j : Nat) (f : GarInst → GarInst) : (s.modInst j f).mbox = s.mbox := rfl
@[simp] theorem modInst_arc (s : State) (j : Nat) (f : GarInst → GarInst) : (s.modInst j f).arc = s.arc := rfl
@[simp] theorem modInst_prv (s : State) (j : Nat) (f : GarInst → GarInst) : (s.modInst j f).prv = s.prv := rfl
@[simp] theorem modInst_rpl (s : State) (j : Nat) (f : GarInst → GarInst) : (s.modInst j f).rpl = s.rpl := rfl
@[simp] theorem modInst_eth (s : State) (j : Nat) (f : GarInst → GarInst) : (s.modInst j f).eth = s.eth := rfl
@[simp] theorem modInst_bus (s : State) (j : Nat) (f : GarInst → GarInst) : (s.modInst j f).bus = s.bus := rfl
@[simp] theorem modInst_rts (s : State) (j : Nat) (f : GarInst → GarInst) : (s.modInst j f).rts = s.rts := rfl
@[simp] theorem modInst_fio (s : State) (j : Nat) (f : GarInst → GarInst) : (s.modInst j f).fio = s.fio := rfl
@[simp] theorem modInst_meas (s : State) (j : Nat) (f : GarInst → GarInst) : (s.modInst j f).meas = s.meas := rfl
@[simp] theorem modInst_wal (s : State) (j : Nat) (f : GarInst → GarInst) : (s.modInst j f).wal = s.wal := rfl
@[simp] theorem modInst_crr (s : State) (j : Nat) (f : GarInst → GarInst) : (s.modInst j f).crr = s.crr := rfl
@[simp] theorem modInst_lpe (s : State) (j : Nat) (f : GarInst → GarInst) : (s.modInst j f).lpe = s.lpe := rfl
@[simp] theorem modInst_lpeUnits (s : State) (j : Nat) (f : GarInst → GarInst) : (s.modInst j f).lpeUnits = s.lpeUnits := rfl
@[simp] theorem modInst_csc (s : State) (j : Nat) (f : GarInst → GarInst) : (s.modInst j f).csc = s.csc := rfl
@[simp] theorem modInst_lcs (s : State) (j : Nat) (f : GarInst → GarInst) : (s.modInst j f).lcs = s.lcs := rfl
@[simp] theorem modInst_cv (s : State) (j : Nat) (f : GarInst → GarInst) : (s.modInst j f).cv = s.cv := rfl
@[simp] theorem modInst_deferred (s : State) (j : Nat) (f : GarInst → GarInst) : (s.modInst j f).deferred = s.deferred := rfl
@[simp] theorem modInst_steWas (s : State) (j : Nat) (f : GarInst → GarInst) : (s.modInst j f).steWas = s.steWas := rfl
@[simp] theorem modInst_pwr (s : State) (j : Nat) (f : GarInst → GarInst) : (s.modInst j f).pwr = s.pwr := rfl

/-! `modLcs` writes `lcs` alone. -/

@[simp] theorem modLcs_pending (s : State) (f : LcsSt → LcsSt) : (s.modLcs f).pending = s.pending := rfl
@[simp] theorem modLcs_regs (s : State) (f : LcsSt → LcsSt) : (s.modLcs f).regs = s.regs := rfl
@[simp] theorem modLcs_mem (s : State) (f : LcsSt → LcsSt) : (s.modLcs f).mem = s.mem := rfl
@[simp] theorem modLcs_resp (s : State) (f : LcsSt → LcsSt) : (s.modLcs f).resp = s.resp := rfl
@[simp] theorem modLcs_freeCtr (s : State) (f : LcsSt → LcsSt) : (s.modLcs f).freeCtr = s.freeCtr := rfl
@[simp] theorem modLcs_time (s : State) (f : LcsSt → LcsSt) : (s.modLcs f).time = s.time := rfl
@[simp] theorem modLcs_tsq (s : State) (f : LcsSt → LcsSt) : (s.modLcs f).tsq = s.tsq := rfl
@[simp] theorem modLcs_pops (s : State) (f : LcsSt → LcsSt) : (s.modLcs f).pops = s.pops := rfl
@[simp] theorem modLcs_inv (s : State) (f : LcsSt → LcsSt) : (s.modLcs f).inv = s.inv := rfl
@[simp] theorem modLcs_triad (s : State) (f : LcsSt → LcsSt) : (s.modLcs f).triad = s.triad := rfl
@[simp] theorem modLcs_app (s : State) (f : LcsSt → LcsSt) : (s.modLcs f).app = s.app := rfl
@[simp] theorem modLcs_rings (s : State) (f : LcsSt → LcsSt) : (s.modLcs f).rings = s.rings := rfl
@[simp] theorem modLcs_cats (s : State) (f : LcsSt → LcsSt) : (s.modLcs f).cats = s.cats := rfl
@[simp] theorem modLcs_mbox (s : State) (f : LcsSt → LcsSt) : (s.modLcs f).mbox = s.mbox := rfl
@[simp] theorem modLcs_arc (s : State) (f : LcsSt → LcsSt) : (s.modLcs f).arc = s.arc := rfl
@[simp] theorem modLcs_prv (s : State) (f : LcsSt → LcsSt) : (s.modLcs f).prv = s.prv := rfl
@[simp] theorem modLcs_rpl (s : State) (f : LcsSt → LcsSt) : (s.modLcs f).rpl = s.rpl := rfl
@[simp] theorem modLcs_eth (s : State) (f : LcsSt → LcsSt) : (s.modLcs f).eth = s.eth := rfl
@[simp] theorem modLcs_bus (s : State) (f : LcsSt → LcsSt) : (s.modLcs f).bus = s.bus := rfl
@[simp] theorem modLcs_gar (s : State) (f : LcsSt → LcsSt) : (s.modLcs f).gar = s.gar := rfl
@[simp] theorem modLcs_rts (s : State) (f : LcsSt → LcsSt) : (s.modLcs f).rts = s.rts := rfl
@[simp] theorem modLcs_fio (s : State) (f : LcsSt → LcsSt) : (s.modLcs f).fio = s.fio := rfl
@[simp] theorem modLcs_meas (s : State) (f : LcsSt → LcsSt) : (s.modLcs f).meas = s.meas := rfl
@[simp] theorem modLcs_wal (s : State) (f : LcsSt → LcsSt) : (s.modLcs f).wal = s.wal := rfl
@[simp] theorem modLcs_crr (s : State) (f : LcsSt → LcsSt) : (s.modLcs f).crr = s.crr := rfl
@[simp] theorem modLcs_lpe (s : State) (f : LcsSt → LcsSt) : (s.modLcs f).lpe = s.lpe := rfl
@[simp] theorem modLcs_lpeUnits (s : State) (f : LcsSt → LcsSt) : (s.modLcs f).lpeUnits = s.lpeUnits := rfl
@[simp] theorem modLcs_csc (s : State) (f : LcsSt → LcsSt) : (s.modLcs f).csc = s.csc := rfl
@[simp] theorem modLcs_cv (s : State) (f : LcsSt → LcsSt) : (s.modLcs f).cv = s.cv := rfl
@[simp] theorem modLcs_deferred (s : State) (f : LcsSt → LcsSt) : (s.modLcs f).deferred = s.deferred := rfl
@[simp] theorem modLcs_steWas (s : State) (f : LcsSt → LcsSt) : (s.modLcs f).steWas = s.steWas := rfl
@[simp] theorem modLcs_pwr (s : State) (f : LcsSt → LcsSt) : (s.modLcs f).pwr = s.pwr := rfl

/-! `modMeas` writes `meas` alone. -/

@[simp] theorem modMeas_pending (s : State) (f : MeasSt → MeasSt) : (s.modMeas f).pending = s.pending := rfl
@[simp] theorem modMeas_regs (s : State) (f : MeasSt → MeasSt) : (s.modMeas f).regs = s.regs := rfl
@[simp] theorem modMeas_mem (s : State) (f : MeasSt → MeasSt) : (s.modMeas f).mem = s.mem := rfl
@[simp] theorem modMeas_resp (s : State) (f : MeasSt → MeasSt) : (s.modMeas f).resp = s.resp := rfl
@[simp] theorem modMeas_freeCtr (s : State) (f : MeasSt → MeasSt) : (s.modMeas f).freeCtr = s.freeCtr := rfl
@[simp] theorem modMeas_time (s : State) (f : MeasSt → MeasSt) : (s.modMeas f).time = s.time := rfl
@[simp] theorem modMeas_tsq (s : State) (f : MeasSt → MeasSt) : (s.modMeas f).tsq = s.tsq := rfl
@[simp] theorem modMeas_pops (s : State) (f : MeasSt → MeasSt) : (s.modMeas f).pops = s.pops := rfl
@[simp] theorem modMeas_inv (s : State) (f : MeasSt → MeasSt) : (s.modMeas f).inv = s.inv := rfl
@[simp] theorem modMeas_triad (s : State) (f : MeasSt → MeasSt) : (s.modMeas f).triad = s.triad := rfl
@[simp] theorem modMeas_app (s : State) (f : MeasSt → MeasSt) : (s.modMeas f).app = s.app := rfl
@[simp] theorem modMeas_rings (s : State) (f : MeasSt → MeasSt) : (s.modMeas f).rings = s.rings := rfl
@[simp] theorem modMeas_cats (s : State) (f : MeasSt → MeasSt) : (s.modMeas f).cats = s.cats := rfl
@[simp] theorem modMeas_mbox (s : State) (f : MeasSt → MeasSt) : (s.modMeas f).mbox = s.mbox := rfl
@[simp] theorem modMeas_arc (s : State) (f : MeasSt → MeasSt) : (s.modMeas f).arc = s.arc := rfl
@[simp] theorem modMeas_prv (s : State) (f : MeasSt → MeasSt) : (s.modMeas f).prv = s.prv := rfl
@[simp] theorem modMeas_rpl (s : State) (f : MeasSt → MeasSt) : (s.modMeas f).rpl = s.rpl := rfl
@[simp] theorem modMeas_eth (s : State) (f : MeasSt → MeasSt) : (s.modMeas f).eth = s.eth := rfl
@[simp] theorem modMeas_bus (s : State) (f : MeasSt → MeasSt) : (s.modMeas f).bus = s.bus := rfl
@[simp] theorem modMeas_gar (s : State) (f : MeasSt → MeasSt) : (s.modMeas f).gar = s.gar := rfl
@[simp] theorem modMeas_rts (s : State) (f : MeasSt → MeasSt) : (s.modMeas f).rts = s.rts := rfl
@[simp] theorem modMeas_fio (s : State) (f : MeasSt → MeasSt) : (s.modMeas f).fio = s.fio := rfl
@[simp] theorem modMeas_wal (s : State) (f : MeasSt → MeasSt) : (s.modMeas f).wal = s.wal := rfl
@[simp] theorem modMeas_crr (s : State) (f : MeasSt → MeasSt) : (s.modMeas f).crr = s.crr := rfl
@[simp] theorem modMeas_lpe (s : State) (f : MeasSt → MeasSt) : (s.modMeas f).lpe = s.lpe := rfl
@[simp] theorem modMeas_lpeUnits (s : State) (f : MeasSt → MeasSt) : (s.modMeas f).lpeUnits = s.lpeUnits := rfl
@[simp] theorem modMeas_csc (s : State) (f : MeasSt → MeasSt) : (s.modMeas f).csc = s.csc := rfl
@[simp] theorem modMeas_lcs (s : State) (f : MeasSt → MeasSt) : (s.modMeas f).lcs = s.lcs := rfl
@[simp] theorem modMeas_cv (s : State) (f : MeasSt → MeasSt) : (s.modMeas f).cv = s.cv := rfl
@[simp] theorem modMeas_deferred (s : State) (f : MeasSt → MeasSt) : (s.modMeas f).deferred = s.deferred := rfl
@[simp] theorem modMeas_steWas (s : State) (f : MeasSt → MeasSt) : (s.modMeas f).steWas = s.steWas := rfl
@[simp] theorem modMeas_pwr (s : State) (f : MeasSt → MeasSt) : (s.modMeas f).pwr = s.pwr := rfl

/-! `modMc` writes `meas` alone. -/

@[simp] theorem modMc_pending (s : State) (m : Nat) (f : MeasCh → MeasCh) : (s.modMc m f).pending = s.pending := rfl
@[simp] theorem modMc_regs (s : State) (m : Nat) (f : MeasCh → MeasCh) : (s.modMc m f).regs = s.regs := rfl
@[simp] theorem modMc_mem (s : State) (m : Nat) (f : MeasCh → MeasCh) : (s.modMc m f).mem = s.mem := rfl
@[simp] theorem modMc_resp (s : State) (m : Nat) (f : MeasCh → MeasCh) : (s.modMc m f).resp = s.resp := rfl
@[simp] theorem modMc_freeCtr (s : State) (m : Nat) (f : MeasCh → MeasCh) : (s.modMc m f).freeCtr = s.freeCtr := rfl
@[simp] theorem modMc_time (s : State) (m : Nat) (f : MeasCh → MeasCh) : (s.modMc m f).time = s.time := rfl
@[simp] theorem modMc_tsq (s : State) (m : Nat) (f : MeasCh → MeasCh) : (s.modMc m f).tsq = s.tsq := rfl
@[simp] theorem modMc_pops (s : State) (m : Nat) (f : MeasCh → MeasCh) : (s.modMc m f).pops = s.pops := rfl
@[simp] theorem modMc_inv (s : State) (m : Nat) (f : MeasCh → MeasCh) : (s.modMc m f).inv = s.inv := rfl
@[simp] theorem modMc_triad (s : State) (m : Nat) (f : MeasCh → MeasCh) : (s.modMc m f).triad = s.triad := rfl
@[simp] theorem modMc_app (s : State) (m : Nat) (f : MeasCh → MeasCh) : (s.modMc m f).app = s.app := rfl
@[simp] theorem modMc_rings (s : State) (m : Nat) (f : MeasCh → MeasCh) : (s.modMc m f).rings = s.rings := rfl
@[simp] theorem modMc_cats (s : State) (m : Nat) (f : MeasCh → MeasCh) : (s.modMc m f).cats = s.cats := rfl
@[simp] theorem modMc_mbox (s : State) (m : Nat) (f : MeasCh → MeasCh) : (s.modMc m f).mbox = s.mbox := rfl
@[simp] theorem modMc_arc (s : State) (m : Nat) (f : MeasCh → MeasCh) : (s.modMc m f).arc = s.arc := rfl
@[simp] theorem modMc_prv (s : State) (m : Nat) (f : MeasCh → MeasCh) : (s.modMc m f).prv = s.prv := rfl
@[simp] theorem modMc_rpl (s : State) (m : Nat) (f : MeasCh → MeasCh) : (s.modMc m f).rpl = s.rpl := rfl
@[simp] theorem modMc_eth (s : State) (m : Nat) (f : MeasCh → MeasCh) : (s.modMc m f).eth = s.eth := rfl
@[simp] theorem modMc_bus (s : State) (m : Nat) (f : MeasCh → MeasCh) : (s.modMc m f).bus = s.bus := rfl
@[simp] theorem modMc_gar (s : State) (m : Nat) (f : MeasCh → MeasCh) : (s.modMc m f).gar = s.gar := rfl
@[simp] theorem modMc_rts (s : State) (m : Nat) (f : MeasCh → MeasCh) : (s.modMc m f).rts = s.rts := rfl
@[simp] theorem modMc_fio (s : State) (m : Nat) (f : MeasCh → MeasCh) : (s.modMc m f).fio = s.fio := rfl
@[simp] theorem modMc_wal (s : State) (m : Nat) (f : MeasCh → MeasCh) : (s.modMc m f).wal = s.wal := rfl
@[simp] theorem modMc_crr (s : State) (m : Nat) (f : MeasCh → MeasCh) : (s.modMc m f).crr = s.crr := rfl
@[simp] theorem modMc_lpe (s : State) (m : Nat) (f : MeasCh → MeasCh) : (s.modMc m f).lpe = s.lpe := rfl
@[simp] theorem modMc_lpeUnits (s : State) (m : Nat) (f : MeasCh → MeasCh) : (s.modMc m f).lpeUnits = s.lpeUnits := rfl
@[simp] theorem modMc_csc (s : State) (m : Nat) (f : MeasCh → MeasCh) : (s.modMc m f).csc = s.csc := rfl
@[simp] theorem modMc_lcs (s : State) (m : Nat) (f : MeasCh → MeasCh) : (s.modMc m f).lcs = s.lcs := rfl
@[simp] theorem modMc_cv (s : State) (m : Nat) (f : MeasCh → MeasCh) : (s.modMc m f).cv = s.cv := rfl
@[simp] theorem modMc_deferred (s : State) (m : Nat) (f : MeasCh → MeasCh) : (s.modMc m f).deferred = s.deferred := rfl
@[simp] theorem modMc_steWas (s : State) (m : Nat) (f : MeasCh → MeasCh) : (s.modMc m f).steWas = s.steWas := rfl
@[simp] theorem modMc_pwr (s : State) (m : Nat) (f : MeasCh → MeasCh) : (s.modMc m f).pwr = s.pwr := rfl

/-! `modCsc` writes `csc` alone. -/

@[simp] theorem modCsc_pending (s : State) (f : CscSt → CscSt) : (s.modCsc f).pending = s.pending := rfl
@[simp] theorem modCsc_regs (s : State) (f : CscSt → CscSt) : (s.modCsc f).regs = s.regs := rfl
@[simp] theorem modCsc_mem (s : State) (f : CscSt → CscSt) : (s.modCsc f).mem = s.mem := rfl
@[simp] theorem modCsc_resp (s : State) (f : CscSt → CscSt) : (s.modCsc f).resp = s.resp := rfl
@[simp] theorem modCsc_freeCtr (s : State) (f : CscSt → CscSt) : (s.modCsc f).freeCtr = s.freeCtr := rfl
@[simp] theorem modCsc_time (s : State) (f : CscSt → CscSt) : (s.modCsc f).time = s.time := rfl
@[simp] theorem modCsc_tsq (s : State) (f : CscSt → CscSt) : (s.modCsc f).tsq = s.tsq := rfl
@[simp] theorem modCsc_pops (s : State) (f : CscSt → CscSt) : (s.modCsc f).pops = s.pops := rfl
@[simp] theorem modCsc_inv (s : State) (f : CscSt → CscSt) : (s.modCsc f).inv = s.inv := rfl
@[simp] theorem modCsc_triad (s : State) (f : CscSt → CscSt) : (s.modCsc f).triad = s.triad := rfl
@[simp] theorem modCsc_app (s : State) (f : CscSt → CscSt) : (s.modCsc f).app = s.app := rfl
@[simp] theorem modCsc_rings (s : State) (f : CscSt → CscSt) : (s.modCsc f).rings = s.rings := rfl
@[simp] theorem modCsc_cats (s : State) (f : CscSt → CscSt) : (s.modCsc f).cats = s.cats := rfl
@[simp] theorem modCsc_mbox (s : State) (f : CscSt → CscSt) : (s.modCsc f).mbox = s.mbox := rfl
@[simp] theorem modCsc_arc (s : State) (f : CscSt → CscSt) : (s.modCsc f).arc = s.arc := rfl
@[simp] theorem modCsc_prv (s : State) (f : CscSt → CscSt) : (s.modCsc f).prv = s.prv := rfl
@[simp] theorem modCsc_rpl (s : State) (f : CscSt → CscSt) : (s.modCsc f).rpl = s.rpl := rfl
@[simp] theorem modCsc_eth (s : State) (f : CscSt → CscSt) : (s.modCsc f).eth = s.eth := rfl
@[simp] theorem modCsc_bus (s : State) (f : CscSt → CscSt) : (s.modCsc f).bus = s.bus := rfl
@[simp] theorem modCsc_gar (s : State) (f : CscSt → CscSt) : (s.modCsc f).gar = s.gar := rfl
@[simp] theorem modCsc_rts (s : State) (f : CscSt → CscSt) : (s.modCsc f).rts = s.rts := rfl
@[simp] theorem modCsc_fio (s : State) (f : CscSt → CscSt) : (s.modCsc f).fio = s.fio := rfl
@[simp] theorem modCsc_meas (s : State) (f : CscSt → CscSt) : (s.modCsc f).meas = s.meas := rfl
@[simp] theorem modCsc_wal (s : State) (f : CscSt → CscSt) : (s.modCsc f).wal = s.wal := rfl
@[simp] theorem modCsc_crr (s : State) (f : CscSt → CscSt) : (s.modCsc f).crr = s.crr := rfl
@[simp] theorem modCsc_lpe (s : State) (f : CscSt → CscSt) : (s.modCsc f).lpe = s.lpe := rfl
@[simp] theorem modCsc_lpeUnits (s : State) (f : CscSt → CscSt) : (s.modCsc f).lpeUnits = s.lpeUnits := rfl
@[simp] theorem modCsc_lcs (s : State) (f : CscSt → CscSt) : (s.modCsc f).lcs = s.lcs := rfl
@[simp] theorem modCsc_cv (s : State) (f : CscSt → CscSt) : (s.modCsc f).cv = s.cv := rfl
@[simp] theorem modCsc_deferred (s : State) (f : CscSt → CscSt) : (s.modCsc f).deferred = s.deferred := rfl
@[simp] theorem modCsc_steWas (s : State) (f : CscSt → CscSt) : (s.modCsc f).steWas = s.steWas := rfl
@[simp] theorem modCsc_pwr (s : State) (f : CscSt → CscSt) : (s.modCsc f).pwr = s.pwr := rfl

/-! `modRpl` writes `rpl` alone. -/

@[simp] theorem modRpl_pending (s : State) (f : RplSt → RplSt) : (s.modRpl f).pending = s.pending := rfl
@[simp] theorem modRpl_regs (s : State) (f : RplSt → RplSt) : (s.modRpl f).regs = s.regs := rfl
@[simp] theorem modRpl_mem (s : State) (f : RplSt → RplSt) : (s.modRpl f).mem = s.mem := rfl
@[simp] theorem modRpl_resp (s : State) (f : RplSt → RplSt) : (s.modRpl f).resp = s.resp := rfl
@[simp] theorem modRpl_freeCtr (s : State) (f : RplSt → RplSt) : (s.modRpl f).freeCtr = s.freeCtr := rfl
@[simp] theorem modRpl_time (s : State) (f : RplSt → RplSt) : (s.modRpl f).time = s.time := rfl
@[simp] theorem modRpl_tsq (s : State) (f : RplSt → RplSt) : (s.modRpl f).tsq = s.tsq := rfl
@[simp] theorem modRpl_pops (s : State) (f : RplSt → RplSt) : (s.modRpl f).pops = s.pops := rfl
@[simp] theorem modRpl_inv (s : State) (f : RplSt → RplSt) : (s.modRpl f).inv = s.inv := rfl
@[simp] theorem modRpl_triad (s : State) (f : RplSt → RplSt) : (s.modRpl f).triad = s.triad := rfl
@[simp] theorem modRpl_app (s : State) (f : RplSt → RplSt) : (s.modRpl f).app = s.app := rfl
@[simp] theorem modRpl_rings (s : State) (f : RplSt → RplSt) : (s.modRpl f).rings = s.rings := rfl
@[simp] theorem modRpl_cats (s : State) (f : RplSt → RplSt) : (s.modRpl f).cats = s.cats := rfl
@[simp] theorem modRpl_mbox (s : State) (f : RplSt → RplSt) : (s.modRpl f).mbox = s.mbox := rfl
@[simp] theorem modRpl_arc (s : State) (f : RplSt → RplSt) : (s.modRpl f).arc = s.arc := rfl
@[simp] theorem modRpl_prv (s : State) (f : RplSt → RplSt) : (s.modRpl f).prv = s.prv := rfl
@[simp] theorem modRpl_eth (s : State) (f : RplSt → RplSt) : (s.modRpl f).eth = s.eth := rfl
@[simp] theorem modRpl_bus (s : State) (f : RplSt → RplSt) : (s.modRpl f).bus = s.bus := rfl
@[simp] theorem modRpl_gar (s : State) (f : RplSt → RplSt) : (s.modRpl f).gar = s.gar := rfl
@[simp] theorem modRpl_rts (s : State) (f : RplSt → RplSt) : (s.modRpl f).rts = s.rts := rfl
@[simp] theorem modRpl_fio (s : State) (f : RplSt → RplSt) : (s.modRpl f).fio = s.fio := rfl
@[simp] theorem modRpl_meas (s : State) (f : RplSt → RplSt) : (s.modRpl f).meas = s.meas := rfl
@[simp] theorem modRpl_wal (s : State) (f : RplSt → RplSt) : (s.modRpl f).wal = s.wal := rfl
@[simp] theorem modRpl_crr (s : State) (f : RplSt → RplSt) : (s.modRpl f).crr = s.crr := rfl
@[simp] theorem modRpl_lpe (s : State) (f : RplSt → RplSt) : (s.modRpl f).lpe = s.lpe := rfl
@[simp] theorem modRpl_lpeUnits (s : State) (f : RplSt → RplSt) : (s.modRpl f).lpeUnits = s.lpeUnits := rfl
@[simp] theorem modRpl_csc (s : State) (f : RplSt → RplSt) : (s.modRpl f).csc = s.csc := rfl
@[simp] theorem modRpl_lcs (s : State) (f : RplSt → RplSt) : (s.modRpl f).lcs = s.lcs := rfl
@[simp] theorem modRpl_cv (s : State) (f : RplSt → RplSt) : (s.modRpl f).cv = s.cv := rfl
@[simp] theorem modRpl_deferred (s : State) (f : RplSt → RplSt) : (s.modRpl f).deferred = s.deferred := rfl
@[simp] theorem modRpl_steWas (s : State) (f : RplSt → RplSt) : (s.modRpl f).steWas = s.steWas := rfl
@[simp] theorem modRpl_pwr (s : State) (f : RplSt → RplSt) : (s.modRpl f).pwr = s.pwr := rfl

/-! `modPop` writes `pops` alone. -/

@[simp] theorem modPop_pending (s : State) (q : PopQueue) (f : PopSt → PopSt) : (s.modPop q f).pending = s.pending := rfl
@[simp] theorem modPop_regs (s : State) (q : PopQueue) (f : PopSt → PopSt) : (s.modPop q f).regs = s.regs := rfl
@[simp] theorem modPop_mem (s : State) (q : PopQueue) (f : PopSt → PopSt) : (s.modPop q f).mem = s.mem := rfl
@[simp] theorem modPop_resp (s : State) (q : PopQueue) (f : PopSt → PopSt) : (s.modPop q f).resp = s.resp := rfl
@[simp] theorem modPop_freeCtr (s : State) (q : PopQueue) (f : PopSt → PopSt) : (s.modPop q f).freeCtr = s.freeCtr := rfl
@[simp] theorem modPop_time (s : State) (q : PopQueue) (f : PopSt → PopSt) : (s.modPop q f).time = s.time := rfl
@[simp] theorem modPop_tsq (s : State) (q : PopQueue) (f : PopSt → PopSt) : (s.modPop q f).tsq = s.tsq := rfl
@[simp] theorem modPop_inv (s : State) (q : PopQueue) (f : PopSt → PopSt) : (s.modPop q f).inv = s.inv := rfl
@[simp] theorem modPop_triad (s : State) (q : PopQueue) (f : PopSt → PopSt) : (s.modPop q f).triad = s.triad := rfl
@[simp] theorem modPop_app (s : State) (q : PopQueue) (f : PopSt → PopSt) : (s.modPop q f).app = s.app := rfl
@[simp] theorem modPop_rings (s : State) (q : PopQueue) (f : PopSt → PopSt) : (s.modPop q f).rings = s.rings := rfl
@[simp] theorem modPop_cats (s : State) (q : PopQueue) (f : PopSt → PopSt) : (s.modPop q f).cats = s.cats := rfl
@[simp] theorem modPop_mbox (s : State) (q : PopQueue) (f : PopSt → PopSt) : (s.modPop q f).mbox = s.mbox := rfl
@[simp] theorem modPop_arc (s : State) (q : PopQueue) (f : PopSt → PopSt) : (s.modPop q f).arc = s.arc := rfl
@[simp] theorem modPop_prv (s : State) (q : PopQueue) (f : PopSt → PopSt) : (s.modPop q f).prv = s.prv := rfl
@[simp] theorem modPop_rpl (s : State) (q : PopQueue) (f : PopSt → PopSt) : (s.modPop q f).rpl = s.rpl := rfl
@[simp] theorem modPop_eth (s : State) (q : PopQueue) (f : PopSt → PopSt) : (s.modPop q f).eth = s.eth := rfl
@[simp] theorem modPop_bus (s : State) (q : PopQueue) (f : PopSt → PopSt) : (s.modPop q f).bus = s.bus := rfl
@[simp] theorem modPop_gar (s : State) (q : PopQueue) (f : PopSt → PopSt) : (s.modPop q f).gar = s.gar := rfl
@[simp] theorem modPop_rts (s : State) (q : PopQueue) (f : PopSt → PopSt) : (s.modPop q f).rts = s.rts := rfl
@[simp] theorem modPop_fio (s : State) (q : PopQueue) (f : PopSt → PopSt) : (s.modPop q f).fio = s.fio := rfl
@[simp] theorem modPop_meas (s : State) (q : PopQueue) (f : PopSt → PopSt) : (s.modPop q f).meas = s.meas := rfl
@[simp] theorem modPop_wal (s : State) (q : PopQueue) (f : PopSt → PopSt) : (s.modPop q f).wal = s.wal := rfl
@[simp] theorem modPop_crr (s : State) (q : PopQueue) (f : PopSt → PopSt) : (s.modPop q f).crr = s.crr := rfl
@[simp] theorem modPop_lpe (s : State) (q : PopQueue) (f : PopSt → PopSt) : (s.modPop q f).lpe = s.lpe := rfl
@[simp] theorem modPop_lpeUnits (s : State) (q : PopQueue) (f : PopSt → PopSt) : (s.modPop q f).lpeUnits = s.lpeUnits := rfl
@[simp] theorem modPop_csc (s : State) (q : PopQueue) (f : PopSt → PopSt) : (s.modPop q f).csc = s.csc := rfl
@[simp] theorem modPop_lcs (s : State) (q : PopQueue) (f : PopSt → PopSt) : (s.modPop q f).lcs = s.lcs := rfl
@[simp] theorem modPop_cv (s : State) (q : PopQueue) (f : PopSt → PopSt) : (s.modPop q f).cv = s.cv := rfl
@[simp] theorem modPop_deferred (s : State) (q : PopQueue) (f : PopSt → PopSt) : (s.modPop q f).deferred = s.deferred := rfl
@[simp] theorem modPop_steWas (s : State) (q : PopQueue) (f : PopSt → PopSt) : (s.modPop q f).steWas = s.steWas := rfl
@[simp] theorem modPop_pwr (s : State) (q : PopQueue) (f : PopSt → PopSt) : (s.modPop q f).pwr = s.pwr := rfl

/-! `modPwr` writes `pwr` alone. -/

@[simp] theorem modPwr_pending (s : State) (f : PwrSt → PwrSt) : (s.modPwr f).pending = s.pending := rfl
@[simp] theorem modPwr_regs (s : State) (f : PwrSt → PwrSt) : (s.modPwr f).regs = s.regs := rfl
@[simp] theorem modPwr_mem (s : State) (f : PwrSt → PwrSt) : (s.modPwr f).mem = s.mem := rfl
@[simp] theorem modPwr_resp (s : State) (f : PwrSt → PwrSt) : (s.modPwr f).resp = s.resp := rfl
@[simp] theorem modPwr_freeCtr (s : State) (f : PwrSt → PwrSt) : (s.modPwr f).freeCtr = s.freeCtr := rfl
@[simp] theorem modPwr_time (s : State) (f : PwrSt → PwrSt) : (s.modPwr f).time = s.time := rfl
@[simp] theorem modPwr_tsq (s : State) (f : PwrSt → PwrSt) : (s.modPwr f).tsq = s.tsq := rfl
@[simp] theorem modPwr_pops (s : State) (f : PwrSt → PwrSt) : (s.modPwr f).pops = s.pops := rfl
@[simp] theorem modPwr_inv (s : State) (f : PwrSt → PwrSt) : (s.modPwr f).inv = s.inv := rfl
@[simp] theorem modPwr_triad (s : State) (f : PwrSt → PwrSt) : (s.modPwr f).triad = s.triad := rfl
@[simp] theorem modPwr_app (s : State) (f : PwrSt → PwrSt) : (s.modPwr f).app = s.app := rfl
@[simp] theorem modPwr_rings (s : State) (f : PwrSt → PwrSt) : (s.modPwr f).rings = s.rings := rfl
@[simp] theorem modPwr_cats (s : State) (f : PwrSt → PwrSt) : (s.modPwr f).cats = s.cats := rfl
@[simp] theorem modPwr_mbox (s : State) (f : PwrSt → PwrSt) : (s.modPwr f).mbox = s.mbox := rfl
@[simp] theorem modPwr_arc (s : State) (f : PwrSt → PwrSt) : (s.modPwr f).arc = s.arc := rfl
@[simp] theorem modPwr_prv (s : State) (f : PwrSt → PwrSt) : (s.modPwr f).prv = s.prv := rfl
@[simp] theorem modPwr_rpl (s : State) (f : PwrSt → PwrSt) : (s.modPwr f).rpl = s.rpl := rfl
@[simp] theorem modPwr_eth (s : State) (f : PwrSt → PwrSt) : (s.modPwr f).eth = s.eth := rfl
@[simp] theorem modPwr_bus (s : State) (f : PwrSt → PwrSt) : (s.modPwr f).bus = s.bus := rfl
@[simp] theorem modPwr_gar (s : State) (f : PwrSt → PwrSt) : (s.modPwr f).gar = s.gar := rfl
@[simp] theorem modPwr_rts (s : State) (f : PwrSt → PwrSt) : (s.modPwr f).rts = s.rts := rfl
@[simp] theorem modPwr_fio (s : State) (f : PwrSt → PwrSt) : (s.modPwr f).fio = s.fio := rfl
@[simp] theorem modPwr_meas (s : State) (f : PwrSt → PwrSt) : (s.modPwr f).meas = s.meas := rfl
@[simp] theorem modPwr_wal (s : State) (f : PwrSt → PwrSt) : (s.modPwr f).wal = s.wal := rfl
@[simp] theorem modPwr_crr (s : State) (f : PwrSt → PwrSt) : (s.modPwr f).crr = s.crr := rfl
@[simp] theorem modPwr_lpe (s : State) (f : PwrSt → PwrSt) : (s.modPwr f).lpe = s.lpe := rfl
@[simp] theorem modPwr_lpeUnits (s : State) (f : PwrSt → PwrSt) : (s.modPwr f).lpeUnits = s.lpeUnits := rfl
@[simp] theorem modPwr_csc (s : State) (f : PwrSt → PwrSt) : (s.modPwr f).csc = s.csc := rfl
@[simp] theorem modPwr_lcs (s : State) (f : PwrSt → PwrSt) : (s.modPwr f).lcs = s.lcs := rfl
@[simp] theorem modPwr_cv (s : State) (f : PwrSt → PwrSt) : (s.modPwr f).cv = s.cv := rfl
@[simp] theorem modPwr_deferred (s : State) (f : PwrSt → PwrSt) : (s.modPwr f).deferred = s.deferred := rfl
@[simp] theorem modPwr_steWas (s : State) (f : PwrSt → PwrSt) : (s.modPwr f).steWas = s.steWas := rfl

/-! `modPrv` writes `prv` alone. -/

@[simp] theorem modPrv_pending (s : State) (f : PrvSt → PrvSt) : (s.modPrv f).pending = s.pending := rfl
@[simp] theorem modPrv_regs (s : State) (f : PrvSt → PrvSt) : (s.modPrv f).regs = s.regs := rfl
@[simp] theorem modPrv_mem (s : State) (f : PrvSt → PrvSt) : (s.modPrv f).mem = s.mem := rfl
@[simp] theorem modPrv_resp (s : State) (f : PrvSt → PrvSt) : (s.modPrv f).resp = s.resp := rfl
@[simp] theorem modPrv_freeCtr (s : State) (f : PrvSt → PrvSt) : (s.modPrv f).freeCtr = s.freeCtr := rfl
@[simp] theorem modPrv_time (s : State) (f : PrvSt → PrvSt) : (s.modPrv f).time = s.time := rfl
@[simp] theorem modPrv_tsq (s : State) (f : PrvSt → PrvSt) : (s.modPrv f).tsq = s.tsq := rfl
@[simp] theorem modPrv_pops (s : State) (f : PrvSt → PrvSt) : (s.modPrv f).pops = s.pops := rfl
@[simp] theorem modPrv_inv (s : State) (f : PrvSt → PrvSt) : (s.modPrv f).inv = s.inv := rfl
@[simp] theorem modPrv_triad (s : State) (f : PrvSt → PrvSt) : (s.modPrv f).triad = s.triad := rfl
@[simp] theorem modPrv_app (s : State) (f : PrvSt → PrvSt) : (s.modPrv f).app = s.app := rfl
@[simp] theorem modPrv_rings (s : State) (f : PrvSt → PrvSt) : (s.modPrv f).rings = s.rings := rfl
@[simp] theorem modPrv_cats (s : State) (f : PrvSt → PrvSt) : (s.modPrv f).cats = s.cats := rfl
@[simp] theorem modPrv_mbox (s : State) (f : PrvSt → PrvSt) : (s.modPrv f).mbox = s.mbox := rfl
@[simp] theorem modPrv_arc (s : State) (f : PrvSt → PrvSt) : (s.modPrv f).arc = s.arc := rfl
@[simp] theorem modPrv_rpl (s : State) (f : PrvSt → PrvSt) : (s.modPrv f).rpl = s.rpl := rfl
@[simp] theorem modPrv_eth (s : State) (f : PrvSt → PrvSt) : (s.modPrv f).eth = s.eth := rfl
@[simp] theorem modPrv_bus (s : State) (f : PrvSt → PrvSt) : (s.modPrv f).bus = s.bus := rfl
@[simp] theorem modPrv_gar (s : State) (f : PrvSt → PrvSt) : (s.modPrv f).gar = s.gar := rfl
@[simp] theorem modPrv_rts (s : State) (f : PrvSt → PrvSt) : (s.modPrv f).rts = s.rts := rfl
@[simp] theorem modPrv_fio (s : State) (f : PrvSt → PrvSt) : (s.modPrv f).fio = s.fio := rfl
@[simp] theorem modPrv_meas (s : State) (f : PrvSt → PrvSt) : (s.modPrv f).meas = s.meas := rfl
@[simp] theorem modPrv_wal (s : State) (f : PrvSt → PrvSt) : (s.modPrv f).wal = s.wal := rfl
@[simp] theorem modPrv_crr (s : State) (f : PrvSt → PrvSt) : (s.modPrv f).crr = s.crr := rfl
@[simp] theorem modPrv_lpe (s : State) (f : PrvSt → PrvSt) : (s.modPrv f).lpe = s.lpe := rfl
@[simp] theorem modPrv_lpeUnits (s : State) (f : PrvSt → PrvSt) : (s.modPrv f).lpeUnits = s.lpeUnits := rfl
@[simp] theorem modPrv_csc (s : State) (f : PrvSt → PrvSt) : (s.modPrv f).csc = s.csc := rfl
@[simp] theorem modPrv_lcs (s : State) (f : PrvSt → PrvSt) : (s.modPrv f).lcs = s.lcs := rfl
@[simp] theorem modPrv_cv (s : State) (f : PrvSt → PrvSt) : (s.modPrv f).cv = s.cv := rfl
@[simp] theorem modPrv_deferred (s : State) (f : PrvSt → PrvSt) : (s.modPrv f).deferred = s.deferred := rfl
@[simp] theorem modPrv_steWas (s : State) (f : PrvSt → PrvSt) : (s.modPrv f).steWas = s.steWas := rfl
@[simp] theorem modPrv_pwr (s : State) (f : PrvSt → PrvSt) : (s.modPrv f).pwr = s.pwr := rfl

/-! `modRing` writes `rings` alone. -/

@[simp] theorem modRing_pending (s : State) (b : RingBlk) (q : Nat) (f : RingSt → RingSt) : (s.modRing b q f).pending = s.pending := rfl
@[simp] theorem modRing_regs (s : State) (b : RingBlk) (q : Nat) (f : RingSt → RingSt) : (s.modRing b q f).regs = s.regs := rfl
@[simp] theorem modRing_mem (s : State) (b : RingBlk) (q : Nat) (f : RingSt → RingSt) : (s.modRing b q f).mem = s.mem := rfl
@[simp] theorem modRing_resp (s : State) (b : RingBlk) (q : Nat) (f : RingSt → RingSt) : (s.modRing b q f).resp = s.resp := rfl
@[simp] theorem modRing_freeCtr (s : State) (b : RingBlk) (q : Nat) (f : RingSt → RingSt) : (s.modRing b q f).freeCtr = s.freeCtr := rfl
@[simp] theorem modRing_time (s : State) (b : RingBlk) (q : Nat) (f : RingSt → RingSt) : (s.modRing b q f).time = s.time := rfl
@[simp] theorem modRing_tsq (s : State) (b : RingBlk) (q : Nat) (f : RingSt → RingSt) : (s.modRing b q f).tsq = s.tsq := rfl
@[simp] theorem modRing_pops (s : State) (b : RingBlk) (q : Nat) (f : RingSt → RingSt) : (s.modRing b q f).pops = s.pops := rfl
@[simp] theorem modRing_inv (s : State) (b : RingBlk) (q : Nat) (f : RingSt → RingSt) : (s.modRing b q f).inv = s.inv := rfl
@[simp] theorem modRing_triad (s : State) (b : RingBlk) (q : Nat) (f : RingSt → RingSt) : (s.modRing b q f).triad = s.triad := rfl
@[simp] theorem modRing_app (s : State) (b : RingBlk) (q : Nat) (f : RingSt → RingSt) : (s.modRing b q f).app = s.app := rfl
@[simp] theorem modRing_cats (s : State) (b : RingBlk) (q : Nat) (f : RingSt → RingSt) : (s.modRing b q f).cats = s.cats := rfl
@[simp] theorem modRing_mbox (s : State) (b : RingBlk) (q : Nat) (f : RingSt → RingSt) : (s.modRing b q f).mbox = s.mbox := rfl
@[simp] theorem modRing_arc (s : State) (b : RingBlk) (q : Nat) (f : RingSt → RingSt) : (s.modRing b q f).arc = s.arc := rfl
@[simp] theorem modRing_prv (s : State) (b : RingBlk) (q : Nat) (f : RingSt → RingSt) : (s.modRing b q f).prv = s.prv := rfl
@[simp] theorem modRing_rpl (s : State) (b : RingBlk) (q : Nat) (f : RingSt → RingSt) : (s.modRing b q f).rpl = s.rpl := rfl
@[simp] theorem modRing_eth (s : State) (b : RingBlk) (q : Nat) (f : RingSt → RingSt) : (s.modRing b q f).eth = s.eth := rfl
@[simp] theorem modRing_bus (s : State) (b : RingBlk) (q : Nat) (f : RingSt → RingSt) : (s.modRing b q f).bus = s.bus := rfl
@[simp] theorem modRing_gar (s : State) (b : RingBlk) (q : Nat) (f : RingSt → RingSt) : (s.modRing b q f).gar = s.gar := rfl
@[simp] theorem modRing_rts (s : State) (b : RingBlk) (q : Nat) (f : RingSt → RingSt) : (s.modRing b q f).rts = s.rts := rfl
@[simp] theorem modRing_fio (s : State) (b : RingBlk) (q : Nat) (f : RingSt → RingSt) : (s.modRing b q f).fio = s.fio := rfl
@[simp] theorem modRing_meas (s : State) (b : RingBlk) (q : Nat) (f : RingSt → RingSt) : (s.modRing b q f).meas = s.meas := rfl
@[simp] theorem modRing_wal (s : State) (b : RingBlk) (q : Nat) (f : RingSt → RingSt) : (s.modRing b q f).wal = s.wal := rfl
@[simp] theorem modRing_crr (s : State) (b : RingBlk) (q : Nat) (f : RingSt → RingSt) : (s.modRing b q f).crr = s.crr := rfl
@[simp] theorem modRing_lpe (s : State) (b : RingBlk) (q : Nat) (f : RingSt → RingSt) : (s.modRing b q f).lpe = s.lpe := rfl
@[simp] theorem modRing_lpeUnits (s : State) (b : RingBlk) (q : Nat) (f : RingSt → RingSt) : (s.modRing b q f).lpeUnits = s.lpeUnits := rfl
@[simp] theorem modRing_csc (s : State) (b : RingBlk) (q : Nat) (f : RingSt → RingSt) : (s.modRing b q f).csc = s.csc := rfl
@[simp] theorem modRing_lcs (s : State) (b : RingBlk) (q : Nat) (f : RingSt → RingSt) : (s.modRing b q f).lcs = s.lcs := rfl
@[simp] theorem modRing_cv (s : State) (b : RingBlk) (q : Nat) (f : RingSt → RingSt) : (s.modRing b q f).cv = s.cv := rfl
@[simp] theorem modRing_deferred (s : State) (b : RingBlk) (q : Nat) (f : RingSt → RingSt) : (s.modRing b q f).deferred = s.deferred := rfl
@[simp] theorem modRing_steWas (s : State) (b : RingBlk) (q : Nat) (f : RingSt → RingSt) : (s.modRing b q f).steWas = s.steWas := rfl
@[simp] theorem modRing_pwr (s : State) (b : RingBlk) (q : Nat) (f : RingSt → RingSt) : (s.modRing b q f).pwr = s.pwr := rfl

/-! `modRts` writes `rts` alone. -/

@[simp] theorem modRts_pending (s : State) (f : RtsSt → RtsSt) : (s.modRts f).pending = s.pending := rfl
@[simp] theorem modRts_regs (s : State) (f : RtsSt → RtsSt) : (s.modRts f).regs = s.regs := rfl
@[simp] theorem modRts_mem (s : State) (f : RtsSt → RtsSt) : (s.modRts f).mem = s.mem := rfl
@[simp] theorem modRts_resp (s : State) (f : RtsSt → RtsSt) : (s.modRts f).resp = s.resp := rfl
@[simp] theorem modRts_freeCtr (s : State) (f : RtsSt → RtsSt) : (s.modRts f).freeCtr = s.freeCtr := rfl
@[simp] theorem modRts_time (s : State) (f : RtsSt → RtsSt) : (s.modRts f).time = s.time := rfl
@[simp] theorem modRts_tsq (s : State) (f : RtsSt → RtsSt) : (s.modRts f).tsq = s.tsq := rfl
@[simp] theorem modRts_pops (s : State) (f : RtsSt → RtsSt) : (s.modRts f).pops = s.pops := rfl
@[simp] theorem modRts_inv (s : State) (f : RtsSt → RtsSt) : (s.modRts f).inv = s.inv := rfl
@[simp] theorem modRts_triad (s : State) (f : RtsSt → RtsSt) : (s.modRts f).triad = s.triad := rfl
@[simp] theorem modRts_app (s : State) (f : RtsSt → RtsSt) : (s.modRts f).app = s.app := rfl
@[simp] theorem modRts_rings (s : State) (f : RtsSt → RtsSt) : (s.modRts f).rings = s.rings := rfl
@[simp] theorem modRts_cats (s : State) (f : RtsSt → RtsSt) : (s.modRts f).cats = s.cats := rfl
@[simp] theorem modRts_mbox (s : State) (f : RtsSt → RtsSt) : (s.modRts f).mbox = s.mbox := rfl
@[simp] theorem modRts_arc (s : State) (f : RtsSt → RtsSt) : (s.modRts f).arc = s.arc := rfl
@[simp] theorem modRts_prv (s : State) (f : RtsSt → RtsSt) : (s.modRts f).prv = s.prv := rfl
@[simp] theorem modRts_rpl (s : State) (f : RtsSt → RtsSt) : (s.modRts f).rpl = s.rpl := rfl
@[simp] theorem modRts_eth (s : State) (f : RtsSt → RtsSt) : (s.modRts f).eth = s.eth := rfl
@[simp] theorem modRts_bus (s : State) (f : RtsSt → RtsSt) : (s.modRts f).bus = s.bus := rfl
@[simp] theorem modRts_gar (s : State) (f : RtsSt → RtsSt) : (s.modRts f).gar = s.gar := rfl
@[simp] theorem modRts_fio (s : State) (f : RtsSt → RtsSt) : (s.modRts f).fio = s.fio := rfl
@[simp] theorem modRts_meas (s : State) (f : RtsSt → RtsSt) : (s.modRts f).meas = s.meas := rfl
@[simp] theorem modRts_wal (s : State) (f : RtsSt → RtsSt) : (s.modRts f).wal = s.wal := rfl
@[simp] theorem modRts_crr (s : State) (f : RtsSt → RtsSt) : (s.modRts f).crr = s.crr := rfl
@[simp] theorem modRts_lpe (s : State) (f : RtsSt → RtsSt) : (s.modRts f).lpe = s.lpe := rfl
@[simp] theorem modRts_lpeUnits (s : State) (f : RtsSt → RtsSt) : (s.modRts f).lpeUnits = s.lpeUnits := rfl
@[simp] theorem modRts_csc (s : State) (f : RtsSt → RtsSt) : (s.modRts f).csc = s.csc := rfl
@[simp] theorem modRts_lcs (s : State) (f : RtsSt → RtsSt) : (s.modRts f).lcs = s.lcs := rfl
@[simp] theorem modRts_cv (s : State) (f : RtsSt → RtsSt) : (s.modRts f).cv = s.cv := rfl
@[simp] theorem modRts_deferred (s : State) (f : RtsSt → RtsSt) : (s.modRts f).deferred = s.deferred := rfl
@[simp] theorem modRts_steWas (s : State) (f : RtsSt → RtsSt) : (s.modRts f).steWas = s.steWas := rfl
@[simp] theorem modRts_pwr (s : State) (f : RtsSt → RtsSt) : (s.modRts f).pwr = s.pwr := rfl

/-! `modTask` writes `rts` alone. -/

@[simp] theorem modTask_pending (s : State) (t : Nat) (f : RtsTask → RtsTask) : (s.modTask t f).pending = s.pending := rfl
@[simp] theorem modTask_regs (s : State) (t : Nat) (f : RtsTask → RtsTask) : (s.modTask t f).regs = s.regs := rfl
@[simp] theorem modTask_mem (s : State) (t : Nat) (f : RtsTask → RtsTask) : (s.modTask t f).mem = s.mem := rfl
@[simp] theorem modTask_resp (s : State) (t : Nat) (f : RtsTask → RtsTask) : (s.modTask t f).resp = s.resp := rfl
@[simp] theorem modTask_freeCtr (s : State) (t : Nat) (f : RtsTask → RtsTask) : (s.modTask t f).freeCtr = s.freeCtr := rfl
@[simp] theorem modTask_time (s : State) (t : Nat) (f : RtsTask → RtsTask) : (s.modTask t f).time = s.time := rfl
@[simp] theorem modTask_tsq (s : State) (t : Nat) (f : RtsTask → RtsTask) : (s.modTask t f).tsq = s.tsq := rfl
@[simp] theorem modTask_pops (s : State) (t : Nat) (f : RtsTask → RtsTask) : (s.modTask t f).pops = s.pops := rfl
@[simp] theorem modTask_inv (s : State) (t : Nat) (f : RtsTask → RtsTask) : (s.modTask t f).inv = s.inv := rfl
@[simp] theorem modTask_triad (s : State) (t : Nat) (f : RtsTask → RtsTask) : (s.modTask t f).triad = s.triad := rfl
@[simp] theorem modTask_app (s : State) (t : Nat) (f : RtsTask → RtsTask) : (s.modTask t f).app = s.app := rfl
@[simp] theorem modTask_rings (s : State) (t : Nat) (f : RtsTask → RtsTask) : (s.modTask t f).rings = s.rings := rfl
@[simp] theorem modTask_cats (s : State) (t : Nat) (f : RtsTask → RtsTask) : (s.modTask t f).cats = s.cats := rfl
@[simp] theorem modTask_mbox (s : State) (t : Nat) (f : RtsTask → RtsTask) : (s.modTask t f).mbox = s.mbox := rfl
@[simp] theorem modTask_arc (s : State) (t : Nat) (f : RtsTask → RtsTask) : (s.modTask t f).arc = s.arc := rfl
@[simp] theorem modTask_prv (s : State) (t : Nat) (f : RtsTask → RtsTask) : (s.modTask t f).prv = s.prv := rfl
@[simp] theorem modTask_rpl (s : State) (t : Nat) (f : RtsTask → RtsTask) : (s.modTask t f).rpl = s.rpl := rfl
@[simp] theorem modTask_eth (s : State) (t : Nat) (f : RtsTask → RtsTask) : (s.modTask t f).eth = s.eth := rfl
@[simp] theorem modTask_bus (s : State) (t : Nat) (f : RtsTask → RtsTask) : (s.modTask t f).bus = s.bus := rfl
@[simp] theorem modTask_gar (s : State) (t : Nat) (f : RtsTask → RtsTask) : (s.modTask t f).gar = s.gar := rfl
@[simp] theorem modTask_fio (s : State) (t : Nat) (f : RtsTask → RtsTask) : (s.modTask t f).fio = s.fio := rfl
@[simp] theorem modTask_meas (s : State) (t : Nat) (f : RtsTask → RtsTask) : (s.modTask t f).meas = s.meas := rfl
@[simp] theorem modTask_wal (s : State) (t : Nat) (f : RtsTask → RtsTask) : (s.modTask t f).wal = s.wal := rfl
@[simp] theorem modTask_crr (s : State) (t : Nat) (f : RtsTask → RtsTask) : (s.modTask t f).crr = s.crr := rfl
@[simp] theorem modTask_lpe (s : State) (t : Nat) (f : RtsTask → RtsTask) : (s.modTask t f).lpe = s.lpe := rfl
@[simp] theorem modTask_lpeUnits (s : State) (t : Nat) (f : RtsTask → RtsTask) : (s.modTask t f).lpeUnits = s.lpeUnits := rfl
@[simp] theorem modTask_csc (s : State) (t : Nat) (f : RtsTask → RtsTask) : (s.modTask t f).csc = s.csc := rfl
@[simp] theorem modTask_lcs (s : State) (t : Nat) (f : RtsTask → RtsTask) : (s.modTask t f).lcs = s.lcs := rfl
@[simp] theorem modTask_cv (s : State) (t : Nat) (f : RtsTask → RtsTask) : (s.modTask t f).cv = s.cv := rfl
@[simp] theorem modTask_deferred (s : State) (t : Nat) (f : RtsTask → RtsTask) : (s.modTask t f).deferred = s.deferred := rfl
@[simp] theorem modTask_steWas (s : State) (t : Nat) (f : RtsTask → RtsTask) : (s.modTask t f).steWas = s.steWas := rfl
@[simp] theorem modTask_pwr (s : State) (t : Nat) (f : RtsTask → RtsTask) : (s.modTask t f).pwr = s.pwr := rfl

/-! `modTime` writes `time` alone. -/

@[simp] theorem modTime_pending (s : State) (f : TimeSt → TimeSt) : (s.modTime f).pending = s.pending := rfl
@[simp] theorem modTime_regs (s : State) (f : TimeSt → TimeSt) : (s.modTime f).regs = s.regs := rfl
@[simp] theorem modTime_mem (s : State) (f : TimeSt → TimeSt) : (s.modTime f).mem = s.mem := rfl
@[simp] theorem modTime_resp (s : State) (f : TimeSt → TimeSt) : (s.modTime f).resp = s.resp := rfl
@[simp] theorem modTime_freeCtr (s : State) (f : TimeSt → TimeSt) : (s.modTime f).freeCtr = s.freeCtr := rfl
@[simp] theorem modTime_tsq (s : State) (f : TimeSt → TimeSt) : (s.modTime f).tsq = s.tsq := rfl
@[simp] theorem modTime_pops (s : State) (f : TimeSt → TimeSt) : (s.modTime f).pops = s.pops := rfl
@[simp] theorem modTime_inv (s : State) (f : TimeSt → TimeSt) : (s.modTime f).inv = s.inv := rfl
@[simp] theorem modTime_triad (s : State) (f : TimeSt → TimeSt) : (s.modTime f).triad = s.triad := rfl
@[simp] theorem modTime_app (s : State) (f : TimeSt → TimeSt) : (s.modTime f).app = s.app := rfl
@[simp] theorem modTime_rings (s : State) (f : TimeSt → TimeSt) : (s.modTime f).rings = s.rings := rfl
@[simp] theorem modTime_cats (s : State) (f : TimeSt → TimeSt) : (s.modTime f).cats = s.cats := rfl
@[simp] theorem modTime_mbox (s : State) (f : TimeSt → TimeSt) : (s.modTime f).mbox = s.mbox := rfl
@[simp] theorem modTime_arc (s : State) (f : TimeSt → TimeSt) : (s.modTime f).arc = s.arc := rfl
@[simp] theorem modTime_prv (s : State) (f : TimeSt → TimeSt) : (s.modTime f).prv = s.prv := rfl
@[simp] theorem modTime_rpl (s : State) (f : TimeSt → TimeSt) : (s.modTime f).rpl = s.rpl := rfl
@[simp] theorem modTime_eth (s : State) (f : TimeSt → TimeSt) : (s.modTime f).eth = s.eth := rfl
@[simp] theorem modTime_bus (s : State) (f : TimeSt → TimeSt) : (s.modTime f).bus = s.bus := rfl
@[simp] theorem modTime_gar (s : State) (f : TimeSt → TimeSt) : (s.modTime f).gar = s.gar := rfl
@[simp] theorem modTime_rts (s : State) (f : TimeSt → TimeSt) : (s.modTime f).rts = s.rts := rfl
@[simp] theorem modTime_fio (s : State) (f : TimeSt → TimeSt) : (s.modTime f).fio = s.fio := rfl
@[simp] theorem modTime_meas (s : State) (f : TimeSt → TimeSt) : (s.modTime f).meas = s.meas := rfl
@[simp] theorem modTime_wal (s : State) (f : TimeSt → TimeSt) : (s.modTime f).wal = s.wal := rfl
@[simp] theorem modTime_crr (s : State) (f : TimeSt → TimeSt) : (s.modTime f).crr = s.crr := rfl
@[simp] theorem modTime_lpe (s : State) (f : TimeSt → TimeSt) : (s.modTime f).lpe = s.lpe := rfl
@[simp] theorem modTime_lpeUnits (s : State) (f : TimeSt → TimeSt) : (s.modTime f).lpeUnits = s.lpeUnits := rfl
@[simp] theorem modTime_csc (s : State) (f : TimeSt → TimeSt) : (s.modTime f).csc = s.csc := rfl
@[simp] theorem modTime_lcs (s : State) (f : TimeSt → TimeSt) : (s.modTime f).lcs = s.lcs := rfl
@[simp] theorem modTime_cv (s : State) (f : TimeSt → TimeSt) : (s.modTime f).cv = s.cv := rfl
@[simp] theorem modTime_deferred (s : State) (f : TimeSt → TimeSt) : (s.modTime f).deferred = s.deferred := rfl
@[simp] theorem modTime_steWas (s : State) (f : TimeSt → TimeSt) : (s.modTime f).steWas = s.steWas := rfl
@[simp] theorem modTime_pwr (s : State) (f : TimeSt → TimeSt) : (s.modTime f).pwr = s.pwr := rfl

/-! `modBus` writes `bus` alone. -/

@[simp] theorem modBus_pending (s : State) (f : BusSt → BusSt) : (s.modBus f).pending = s.pending := rfl
@[simp] theorem modBus_regs (s : State) (f : BusSt → BusSt) : (s.modBus f).regs = s.regs := rfl
@[simp] theorem modBus_mem (s : State) (f : BusSt → BusSt) : (s.modBus f).mem = s.mem := rfl
@[simp] theorem modBus_resp (s : State) (f : BusSt → BusSt) : (s.modBus f).resp = s.resp := rfl
@[simp] theorem modBus_freeCtr (s : State) (f : BusSt → BusSt) : (s.modBus f).freeCtr = s.freeCtr := rfl
@[simp] theorem modBus_time (s : State) (f : BusSt → BusSt) : (s.modBus f).time = s.time := rfl
@[simp] theorem modBus_tsq (s : State) (f : BusSt → BusSt) : (s.modBus f).tsq = s.tsq := rfl
@[simp] theorem modBus_pops (s : State) (f : BusSt → BusSt) : (s.modBus f).pops = s.pops := rfl
@[simp] theorem modBus_inv (s : State) (f : BusSt → BusSt) : (s.modBus f).inv = s.inv := rfl
@[simp] theorem modBus_triad (s : State) (f : BusSt → BusSt) : (s.modBus f).triad = s.triad := rfl
@[simp] theorem modBus_app (s : State) (f : BusSt → BusSt) : (s.modBus f).app = s.app := rfl
@[simp] theorem modBus_rings (s : State) (f : BusSt → BusSt) : (s.modBus f).rings = s.rings := rfl
@[simp] theorem modBus_cats (s : State) (f : BusSt → BusSt) : (s.modBus f).cats = s.cats := rfl
@[simp] theorem modBus_mbox (s : State) (f : BusSt → BusSt) : (s.modBus f).mbox = s.mbox := rfl
@[simp] theorem modBus_arc (s : State) (f : BusSt → BusSt) : (s.modBus f).arc = s.arc := rfl
@[simp] theorem modBus_prv (s : State) (f : BusSt → BusSt) : (s.modBus f).prv = s.prv := rfl
@[simp] theorem modBus_rpl (s : State) (f : BusSt → BusSt) : (s.modBus f).rpl = s.rpl := rfl
@[simp] theorem modBus_eth (s : State) (f : BusSt → BusSt) : (s.modBus f).eth = s.eth := rfl
@[simp] theorem modBus_gar (s : State) (f : BusSt → BusSt) : (s.modBus f).gar = s.gar := rfl
@[simp] theorem modBus_rts (s : State) (f : BusSt → BusSt) : (s.modBus f).rts = s.rts := rfl
@[simp] theorem modBus_fio (s : State) (f : BusSt → BusSt) : (s.modBus f).fio = s.fio := rfl
@[simp] theorem modBus_meas (s : State) (f : BusSt → BusSt) : (s.modBus f).meas = s.meas := rfl
@[simp] theorem modBus_wal (s : State) (f : BusSt → BusSt) : (s.modBus f).wal = s.wal := rfl
@[simp] theorem modBus_crr (s : State) (f : BusSt → BusSt) : (s.modBus f).crr = s.crr := rfl
@[simp] theorem modBus_lpe (s : State) (f : BusSt → BusSt) : (s.modBus f).lpe = s.lpe := rfl
@[simp] theorem modBus_lpeUnits (s : State) (f : BusSt → BusSt) : (s.modBus f).lpeUnits = s.lpeUnits := rfl
@[simp] theorem modBus_csc (s : State) (f : BusSt → BusSt) : (s.modBus f).csc = s.csc := rfl
@[simp] theorem modBus_lcs (s : State) (f : BusSt → BusSt) : (s.modBus f).lcs = s.lcs := rfl
@[simp] theorem modBus_cv (s : State) (f : BusSt → BusSt) : (s.modBus f).cv = s.cv := rfl
@[simp] theorem modBus_deferred (s : State) (f : BusSt → BusSt) : (s.modBus f).deferred = s.deferred := rfl
@[simp] theorem modBus_steWas (s : State) (f : BusSt → BusSt) : (s.modBus f).steWas = s.steWas := rfl
@[simp] theorem modBus_pwr (s : State) (f : BusSt → BusSt) : (s.modBus f).pwr = s.pwr := rfl

/-! `modRec` writes `bus` alone. -/

@[simp] theorem modRec_pending (s : State) (blk e : Nat) (f : DataRec → DataRec) : (s.modRec blk e f).pending = s.pending := rfl
@[simp] theorem modRec_regs (s : State) (blk e : Nat) (f : DataRec → DataRec) : (s.modRec blk e f).regs = s.regs := rfl
@[simp] theorem modRec_mem (s : State) (blk e : Nat) (f : DataRec → DataRec) : (s.modRec blk e f).mem = s.mem := rfl
@[simp] theorem modRec_resp (s : State) (blk e : Nat) (f : DataRec → DataRec) : (s.modRec blk e f).resp = s.resp := rfl
@[simp] theorem modRec_freeCtr (s : State) (blk e : Nat) (f : DataRec → DataRec) : (s.modRec blk e f).freeCtr = s.freeCtr := rfl
@[simp] theorem modRec_time (s : State) (blk e : Nat) (f : DataRec → DataRec) : (s.modRec blk e f).time = s.time := rfl
@[simp] theorem modRec_tsq (s : State) (blk e : Nat) (f : DataRec → DataRec) : (s.modRec blk e f).tsq = s.tsq := rfl
@[simp] theorem modRec_pops (s : State) (blk e : Nat) (f : DataRec → DataRec) : (s.modRec blk e f).pops = s.pops := rfl
@[simp] theorem modRec_inv (s : State) (blk e : Nat) (f : DataRec → DataRec) : (s.modRec blk e f).inv = s.inv := rfl
@[simp] theorem modRec_triad (s : State) (blk e : Nat) (f : DataRec → DataRec) : (s.modRec blk e f).triad = s.triad := rfl
@[simp] theorem modRec_app (s : State) (blk e : Nat) (f : DataRec → DataRec) : (s.modRec blk e f).app = s.app := rfl
@[simp] theorem modRec_rings (s : State) (blk e : Nat) (f : DataRec → DataRec) : (s.modRec blk e f).rings = s.rings := rfl
@[simp] theorem modRec_cats (s : State) (blk e : Nat) (f : DataRec → DataRec) : (s.modRec blk e f).cats = s.cats := rfl
@[simp] theorem modRec_mbox (s : State) (blk e : Nat) (f : DataRec → DataRec) : (s.modRec blk e f).mbox = s.mbox := rfl
@[simp] theorem modRec_arc (s : State) (blk e : Nat) (f : DataRec → DataRec) : (s.modRec blk e f).arc = s.arc := rfl
@[simp] theorem modRec_prv (s : State) (blk e : Nat) (f : DataRec → DataRec) : (s.modRec blk e f).prv = s.prv := rfl
@[simp] theorem modRec_rpl (s : State) (blk e : Nat) (f : DataRec → DataRec) : (s.modRec blk e f).rpl = s.rpl := rfl
@[simp] theorem modRec_eth (s : State) (blk e : Nat) (f : DataRec → DataRec) : (s.modRec blk e f).eth = s.eth := rfl
@[simp] theorem modRec_gar (s : State) (blk e : Nat) (f : DataRec → DataRec) : (s.modRec blk e f).gar = s.gar := rfl
@[simp] theorem modRec_rts (s : State) (blk e : Nat) (f : DataRec → DataRec) : (s.modRec blk e f).rts = s.rts := rfl
@[simp] theorem modRec_fio (s : State) (blk e : Nat) (f : DataRec → DataRec) : (s.modRec blk e f).fio = s.fio := rfl
@[simp] theorem modRec_meas (s : State) (blk e : Nat) (f : DataRec → DataRec) : (s.modRec blk e f).meas = s.meas := rfl
@[simp] theorem modRec_wal (s : State) (blk e : Nat) (f : DataRec → DataRec) : (s.modRec blk e f).wal = s.wal := rfl
@[simp] theorem modRec_crr (s : State) (blk e : Nat) (f : DataRec → DataRec) : (s.modRec blk e f).crr = s.crr := rfl
@[simp] theorem modRec_lpe (s : State) (blk e : Nat) (f : DataRec → DataRec) : (s.modRec blk e f).lpe = s.lpe := rfl
@[simp] theorem modRec_lpeUnits (s : State) (blk e : Nat) (f : DataRec → DataRec) : (s.modRec blk e f).lpeUnits = s.lpeUnits := rfl
@[simp] theorem modRec_csc (s : State) (blk e : Nat) (f : DataRec → DataRec) : (s.modRec blk e f).csc = s.csc := rfl
@[simp] theorem modRec_lcs (s : State) (blk e : Nat) (f : DataRec → DataRec) : (s.modRec blk e f).lcs = s.lcs := rfl
@[simp] theorem modRec_cv (s : State) (blk e : Nat) (f : DataRec → DataRec) : (s.modRec blk e f).cv = s.cv := rfl
@[simp] theorem modRec_deferred (s : State) (blk e : Nat) (f : DataRec → DataRec) : (s.modRec blk e f).deferred = s.deferred := rfl
@[simp] theorem modRec_steWas (s : State) (blk e : Nat) (f : DataRec → DataRec) : (s.modRec blk e f).steWas = s.steWas := rfl
@[simp] theorem modRec_pwr (s : State) (blk e : Nat) (f : DataRec → DataRec) : (s.modRec blk e f).pwr = s.pwr := rfl

/-! `modTriad` writes `triad` alone. -/

@[simp] theorem modTriad_pending (s : State) (f : TriadSt → TriadSt) : (s.modTriad f).pending = s.pending := rfl
@[simp] theorem modTriad_regs (s : State) (f : TriadSt → TriadSt) : (s.modTriad f).regs = s.regs := rfl
@[simp] theorem modTriad_mem (s : State) (f : TriadSt → TriadSt) : (s.modTriad f).mem = s.mem := rfl
@[simp] theorem modTriad_resp (s : State) (f : TriadSt → TriadSt) : (s.modTriad f).resp = s.resp := rfl
@[simp] theorem modTriad_freeCtr (s : State) (f : TriadSt → TriadSt) : (s.modTriad f).freeCtr = s.freeCtr := rfl
@[simp] theorem modTriad_time (s : State) (f : TriadSt → TriadSt) : (s.modTriad f).time = s.time := rfl
@[simp] theorem modTriad_tsq (s : State) (f : TriadSt → TriadSt) : (s.modTriad f).tsq = s.tsq := rfl
@[simp] theorem modTriad_pops (s : State) (f : TriadSt → TriadSt) : (s.modTriad f).pops = s.pops := rfl
@[simp] theorem modTriad_inv (s : State) (f : TriadSt → TriadSt) : (s.modTriad f).inv = s.inv := rfl
@[simp] theorem modTriad_app (s : State) (f : TriadSt → TriadSt) : (s.modTriad f).app = s.app := rfl
@[simp] theorem modTriad_rings (s : State) (f : TriadSt → TriadSt) : (s.modTriad f).rings = s.rings := rfl
@[simp] theorem modTriad_cats (s : State) (f : TriadSt → TriadSt) : (s.modTriad f).cats = s.cats := rfl
@[simp] theorem modTriad_mbox (s : State) (f : TriadSt → TriadSt) : (s.modTriad f).mbox = s.mbox := rfl
@[simp] theorem modTriad_arc (s : State) (f : TriadSt → TriadSt) : (s.modTriad f).arc = s.arc := rfl
@[simp] theorem modTriad_prv (s : State) (f : TriadSt → TriadSt) : (s.modTriad f).prv = s.prv := rfl
@[simp] theorem modTriad_rpl (s : State) (f : TriadSt → TriadSt) : (s.modTriad f).rpl = s.rpl := rfl
@[simp] theorem modTriad_eth (s : State) (f : TriadSt → TriadSt) : (s.modTriad f).eth = s.eth := rfl
@[simp] theorem modTriad_bus (s : State) (f : TriadSt → TriadSt) : (s.modTriad f).bus = s.bus := rfl
@[simp] theorem modTriad_gar (s : State) (f : TriadSt → TriadSt) : (s.modTriad f).gar = s.gar := rfl
@[simp] theorem modTriad_rts (s : State) (f : TriadSt → TriadSt) : (s.modTriad f).rts = s.rts := rfl
@[simp] theorem modTriad_fio (s : State) (f : TriadSt → TriadSt) : (s.modTriad f).fio = s.fio := rfl
@[simp] theorem modTriad_meas (s : State) (f : TriadSt → TriadSt) : (s.modTriad f).meas = s.meas := rfl
@[simp] theorem modTriad_wal (s : State) (f : TriadSt → TriadSt) : (s.modTriad f).wal = s.wal := rfl
@[simp] theorem modTriad_crr (s : State) (f : TriadSt → TriadSt) : (s.modTriad f).crr = s.crr := rfl
@[simp] theorem modTriad_lpe (s : State) (f : TriadSt → TriadSt) : (s.modTriad f).lpe = s.lpe := rfl
@[simp] theorem modTriad_lpeUnits (s : State) (f : TriadSt → TriadSt) : (s.modTriad f).lpeUnits = s.lpeUnits := rfl
@[simp] theorem modTriad_csc (s : State) (f : TriadSt → TriadSt) : (s.modTriad f).csc = s.csc := rfl
@[simp] theorem modTriad_lcs (s : State) (f : TriadSt → TriadSt) : (s.modTriad f).lcs = s.lcs := rfl
@[simp] theorem modTriad_cv (s : State) (f : TriadSt → TriadSt) : (s.modTriad f).cv = s.cv := rfl
@[simp] theorem modTriad_deferred (s : State) (f : TriadSt → TriadSt) : (s.modTriad f).deferred = s.deferred := rfl
@[simp] theorem modTriad_steWas (s : State) (f : TriadSt → TriadSt) : (s.modTriad f).steWas = s.steWas := rfl
@[simp] theorem modTriad_pwr (s : State) (f : TriadSt → TriadSt) : (s.modTriad f).pwr = s.pwr := rfl

/-! `modWc` writes `wal` alone. -/

@[simp] theorem modWc_pending (s : State) (c : Nat) (f : WalChan → WalChan) : (s.modWc c f).pending = s.pending := rfl
@[simp] theorem modWc_regs (s : State) (c : Nat) (f : WalChan → WalChan) : (s.modWc c f).regs = s.regs := rfl
@[simp] theorem modWc_mem (s : State) (c : Nat) (f : WalChan → WalChan) : (s.modWc c f).mem = s.mem := rfl
@[simp] theorem modWc_resp (s : State) (c : Nat) (f : WalChan → WalChan) : (s.modWc c f).resp = s.resp := rfl
@[simp] theorem modWc_freeCtr (s : State) (c : Nat) (f : WalChan → WalChan) : (s.modWc c f).freeCtr = s.freeCtr := rfl
@[simp] theorem modWc_time (s : State) (c : Nat) (f : WalChan → WalChan) : (s.modWc c f).time = s.time := rfl
@[simp] theorem modWc_tsq (s : State) (c : Nat) (f : WalChan → WalChan) : (s.modWc c f).tsq = s.tsq := rfl
@[simp] theorem modWc_pops (s : State) (c : Nat) (f : WalChan → WalChan) : (s.modWc c f).pops = s.pops := rfl
@[simp] theorem modWc_inv (s : State) (c : Nat) (f : WalChan → WalChan) : (s.modWc c f).inv = s.inv := rfl
@[simp] theorem modWc_triad (s : State) (c : Nat) (f : WalChan → WalChan) : (s.modWc c f).triad = s.triad := rfl
@[simp] theorem modWc_app (s : State) (c : Nat) (f : WalChan → WalChan) : (s.modWc c f).app = s.app := rfl
@[simp] theorem modWc_rings (s : State) (c : Nat) (f : WalChan → WalChan) : (s.modWc c f).rings = s.rings := rfl
@[simp] theorem modWc_cats (s : State) (c : Nat) (f : WalChan → WalChan) : (s.modWc c f).cats = s.cats := rfl
@[simp] theorem modWc_mbox (s : State) (c : Nat) (f : WalChan → WalChan) : (s.modWc c f).mbox = s.mbox := rfl
@[simp] theorem modWc_arc (s : State) (c : Nat) (f : WalChan → WalChan) : (s.modWc c f).arc = s.arc := rfl
@[simp] theorem modWc_prv (s : State) (c : Nat) (f : WalChan → WalChan) : (s.modWc c f).prv = s.prv := rfl
@[simp] theorem modWc_rpl (s : State) (c : Nat) (f : WalChan → WalChan) : (s.modWc c f).rpl = s.rpl := rfl
@[simp] theorem modWc_eth (s : State) (c : Nat) (f : WalChan → WalChan) : (s.modWc c f).eth = s.eth := rfl
@[simp] theorem modWc_bus (s : State) (c : Nat) (f : WalChan → WalChan) : (s.modWc c f).bus = s.bus := rfl
@[simp] theorem modWc_gar (s : State) (c : Nat) (f : WalChan → WalChan) : (s.modWc c f).gar = s.gar := rfl
@[simp] theorem modWc_rts (s : State) (c : Nat) (f : WalChan → WalChan) : (s.modWc c f).rts = s.rts := rfl
@[simp] theorem modWc_fio (s : State) (c : Nat) (f : WalChan → WalChan) : (s.modWc c f).fio = s.fio := rfl
@[simp] theorem modWc_meas (s : State) (c : Nat) (f : WalChan → WalChan) : (s.modWc c f).meas = s.meas := rfl
@[simp] theorem modWc_crr (s : State) (c : Nat) (f : WalChan → WalChan) : (s.modWc c f).crr = s.crr := rfl
@[simp] theorem modWc_lpe (s : State) (c : Nat) (f : WalChan → WalChan) : (s.modWc c f).lpe = s.lpe := rfl
@[simp] theorem modWc_lpeUnits (s : State) (c : Nat) (f : WalChan → WalChan) : (s.modWc c f).lpeUnits = s.lpeUnits := rfl
@[simp] theorem modWc_csc (s : State) (c : Nat) (f : WalChan → WalChan) : (s.modWc c f).csc = s.csc := rfl
@[simp] theorem modWc_lcs (s : State) (c : Nat) (f : WalChan → WalChan) : (s.modWc c f).lcs = s.lcs := rfl
@[simp] theorem modWc_cv (s : State) (c : Nat) (f : WalChan → WalChan) : (s.modWc c f).cv = s.cv := rfl
@[simp] theorem modWc_deferred (s : State) (c : Nat) (f : WalChan → WalChan) : (s.modWc c f).deferred = s.deferred := rfl
@[simp] theorem modWc_steWas (s : State) (c : Nat) (f : WalChan → WalChan) : (s.modWc c f).steWas = s.steWas := rfl
@[simp] theorem modWc_pwr (s : State) (c : Nat) (f : WalChan → WalChan) : (s.modWc c f).pwr = s.pwr := rfl

/-! `modWr` writes `wal` alone. -/

@[simp] theorem modWr_pending (s : State) (e : Nat) (f : WalRec → WalRec) : (s.modWr e f).pending = s.pending := rfl
@[simp] theorem modWr_regs (s : State) (e : Nat) (f : WalRec → WalRec) : (s.modWr e f).regs = s.regs := rfl
@[simp] theorem modWr_mem (s : State) (e : Nat) (f : WalRec → WalRec) : (s.modWr e f).mem = s.mem := rfl
@[simp] theorem modWr_resp (s : State) (e : Nat) (f : WalRec → WalRec) : (s.modWr e f).resp = s.resp := rfl
@[simp] theorem modWr_freeCtr (s : State) (e : Nat) (f : WalRec → WalRec) : (s.modWr e f).freeCtr = s.freeCtr := rfl
@[simp] theorem modWr_time (s : State) (e : Nat) (f : WalRec → WalRec) : (s.modWr e f).time = s.time := rfl
@[simp] theorem modWr_tsq (s : State) (e : Nat) (f : WalRec → WalRec) : (s.modWr e f).tsq = s.tsq := rfl
@[simp] theorem modWr_pops (s : State) (e : Nat) (f : WalRec → WalRec) : (s.modWr e f).pops = s.pops := rfl
@[simp] theorem modWr_inv (s : State) (e : Nat) (f : WalRec → WalRec) : (s.modWr e f).inv = s.inv := rfl
@[simp] theorem modWr_triad (s : State) (e : Nat) (f : WalRec → WalRec) : (s.modWr e f).triad = s.triad := rfl
@[simp] theorem modWr_app (s : State) (e : Nat) (f : WalRec → WalRec) : (s.modWr e f).app = s.app := rfl
@[simp] theorem modWr_rings (s : State) (e : Nat) (f : WalRec → WalRec) : (s.modWr e f).rings = s.rings := rfl
@[simp] theorem modWr_cats (s : State) (e : Nat) (f : WalRec → WalRec) : (s.modWr e f).cats = s.cats := rfl
@[simp] theorem modWr_mbox (s : State) (e : Nat) (f : WalRec → WalRec) : (s.modWr e f).mbox = s.mbox := rfl
@[simp] theorem modWr_arc (s : State) (e : Nat) (f : WalRec → WalRec) : (s.modWr e f).arc = s.arc := rfl
@[simp] theorem modWr_prv (s : State) (e : Nat) (f : WalRec → WalRec) : (s.modWr e f).prv = s.prv := rfl
@[simp] theorem modWr_rpl (s : State) (e : Nat) (f : WalRec → WalRec) : (s.modWr e f).rpl = s.rpl := rfl
@[simp] theorem modWr_eth (s : State) (e : Nat) (f : WalRec → WalRec) : (s.modWr e f).eth = s.eth := rfl
@[simp] theorem modWr_bus (s : State) (e : Nat) (f : WalRec → WalRec) : (s.modWr e f).bus = s.bus := rfl
@[simp] theorem modWr_gar (s : State) (e : Nat) (f : WalRec → WalRec) : (s.modWr e f).gar = s.gar := rfl
@[simp] theorem modWr_rts (s : State) (e : Nat) (f : WalRec → WalRec) : (s.modWr e f).rts = s.rts := rfl
@[simp] theorem modWr_fio (s : State) (e : Nat) (f : WalRec → WalRec) : (s.modWr e f).fio = s.fio := rfl
@[simp] theorem modWr_meas (s : State) (e : Nat) (f : WalRec → WalRec) : (s.modWr e f).meas = s.meas := rfl
@[simp] theorem modWr_crr (s : State) (e : Nat) (f : WalRec → WalRec) : (s.modWr e f).crr = s.crr := rfl
@[simp] theorem modWr_lpe (s : State) (e : Nat) (f : WalRec → WalRec) : (s.modWr e f).lpe = s.lpe := rfl
@[simp] theorem modWr_lpeUnits (s : State) (e : Nat) (f : WalRec → WalRec) : (s.modWr e f).lpeUnits = s.lpeUnits := rfl
@[simp] theorem modWr_csc (s : State) (e : Nat) (f : WalRec → WalRec) : (s.modWr e f).csc = s.csc := rfl
@[simp] theorem modWr_lcs (s : State) (e : Nat) (f : WalRec → WalRec) : (s.modWr e f).lcs = s.lcs := rfl
@[simp] theorem modWr_cv (s : State) (e : Nat) (f : WalRec → WalRec) : (s.modWr e f).cv = s.cv := rfl
@[simp] theorem modWr_deferred (s : State) (e : Nat) (f : WalRec → WalRec) : (s.modWr e f).deferred = s.deferred := rfl
@[simp] theorem modWr_steWas (s : State) (e : Nat) (f : WalRec → WalRec) : (s.modWr e f).steWas = s.steWas := rfl
@[simp] theorem modWr_pwr (s : State) (e : Nat) (f : WalRec → WalRec) : (s.modWr e f).pwr = s.pwr := rfl

end Sys2Proof.Laws
end

