-- ==== Sys2Proof/Laws/Keeps.lean ====
section
/-! SUPPORT. What every operation and every command keeps: the queue, the canonical forms of the register file and of the
memory, and that neither the module's own clock nor the number of the next free value ever falls. This file holds the relation,
its rules, and the basic operations; the files of the folder hold one lemma per operation and per meaning. -/

namespace Sys2Proof.Laws

open Sys2Proof.Machine

/-- What a state keeps of an earlier one. -/
structure Keeps (s t : State) : Prop where
  queue : t.pending = s.pending
  regs : s.regsWf = true → t.regsWf = true
  mem : s.memWf = true → t.memWf = true
  clock : s.time.clock ≤ t.time.clock
  free : s.freeCtr ≤ t.freeCtr

/-- An outcome whose next state, if there is one, keeps what `Keeps` says. -/
def KeepsOut (s : State) (o : Host.Outcome State Fault Refusal) : Prop := ∀ t, o = .next t → Keeps s t

theorem Keeps.refl (s : State) : Keeps s s := ⟨rfl, id, id, Nat.le_refl _, Nat.le_refl _⟩

theorem Keeps.trans {s t u : State} (h : Keeps s t) (k : Keeps t u) : Keeps s u :=
  ⟨k.queue.trans h.queue, fun x => k.regs (h.regs x), fun x => k.mem (h.mem x), h.clock.trans k.clock, h.free.trans k.free⟩

theorem keepsOut_next {s t : State} (h : Keeps s t) : KeepsOut s (.next t) := by
  intro u hu
  cases hu
  exact h

theorem keepsOut_fault {s : State} (r : Fault) : KeepsOut s (.fault r) := by
  intro u hu
  cases hu

theorem keepsOut_ite {s : State} {c : Prop} [Decidable c] {a b : Host.Outcome State Fault Refusal} (ha : KeepsOut s a)
    (hb : KeepsOut s b) : KeepsOut s (if c then a else b) := by
  split
  · exact ha
  · exact hb

theorem keeps_ite {s : State} {c : Prop} [Decidable c] {a b : State} (ha : Keeps s a) (hb : Keeps s b) :
    Keeps s (if c then a else b) := by
  split
  · exact ha
  · exact hb

/-- An optional state that, if it is there, keeps what `Keeps` says. -/
def OptKeeps (s : State) (o : Option State) : Prop := ∀ t, o = some t → Keeps s t

theorem optKeeps_some {s t : State} (h : Keeps s t) : OptKeeps s (some t) := by
  intro u hu
  cases hu
  exact h

theorem optKeeps_none {s : State} : OptKeeps s none := by
  intro u hu
  cases hu

theorem optKeeps_ite {s : State} {c : Prop} [Decidable c] {a b : Option State} (ha : OptKeeps s a) (hb : OptKeeps s b) :
    OptKeeps s (if c then a else b) := by
  split
  · exact ha
  · exact hb

theorem keeps_ite_fst {α : Type} {s : State} {c : Prop} [Decidable c] {a b : State × α} (ha : Keeps s a.1) (hb : Keeps s b.1) :
    Keeps s (if c then a else b).1 := by
  split
  · exact ha
  · exact hb

theorem keeps_ite_snd {α : Type} {s : State} {c : Prop} [Decidable c] {a b : α × State} (ha : Keeps s a.2) (hb : Keeps s b.2) :
    Keeps s (if c then a else b).2 := by
  split
  · exact ha
  · exact hb

theorem keeps_foldl {α : Type} {s₀ a : State} {f : State → α → State} {l : List α} (h : Keeps s₀ a)
    (hf : ∀ s x, Keeps s₀ s → Keeps s₀ (f s x)) : Keeps s₀ (l.foldl f a) := by
  induction l generalizing a with
  | nil => exact h
  | cons x t ih => exact ih (hf a x h)

theorem keeps_foldl_fst {α β : Type} {s₀ : State} {a : State × β} {f : State × β → α → State × β} {l : List α}
    (h : Keeps s₀ a.1) (hf : ∀ r x, Keeps s₀ r.1 → Keeps s₀ (f r x).1) : Keeps s₀ (l.foldl f a).1 := by
  induction l generalizing a with
  | nil => exact h
  | cons x t ih => exact ih (hf a x h)

theorem Keeps.of_fst {α : Type} {s₀ a : State} {b : α} {p : State × α} (h : Keeps s₀ p.1) (e : p = (a, b)) : Keeps s₀ a := by
  subst e
  exact h

theorem Keeps.of_snd {α : Type} {s₀ a : State} {b : α} {p : α × State} (h : Keeps s₀ p.2) (e : p = (b, a)) : Keeps s₀ a := by
  subst e
  exact h

/-- An update of fields that `Keeps` does not look at; the clock may rise. -/
theorem keeps_mk {s₀ s : State} {p : List Instr} {r : List (Nat × Word)} {m : List Host.Cell} {f : Nat} {t : TimeSt}
    {resp tsq pops inv triad app rings cats mbox arc prv rpl eth bus gar rts fio meas wal crr lpe lpeUnits csc lcs cv deferred steWas pwr}
    (h : Keeps s₀ s) (hp : p = s.pending) (hr : r = s.regs) (hm : m = s.mem) (hf : f = s.freeCtr)
    (ht : s.time.clock ≤ t.clock) :
    Keeps s₀ (State.mk p r m resp f t tsq pops inv triad app rings cats mbox arc prv rpl eth bus gar rts fio meas wal crr lpe lpeUnits csc
      lcs cv deferred steWas pwr) := by
  subst hp hr hm hf
  exact ⟨h.queue, h.regs, h.mem, h.clock.trans ht, h.free⟩

/-! ### The basic operations -/

theorem wr_keeps {s₀ s : State} (h : Keeps s₀ s) (a v : Nat) : Keeps s₀ (s.wr a v) :=
  ⟨h.queue, fun x => regsWf_wr a v (h.regs x), h.mem, h.clock, h.free⟩

theorem memSet_keeps {s₀ s : State} (h : Keeps s₀ s) (a : Nat) (b : Byte) : Keeps s₀ (s.memSet a b) :=
  ⟨h.queue, h.regs, fun x => memWf_memSet a b (h.mem x), h.clock, h.free⟩

theorem freshCtr_keeps {s₀ s : State} (h : Keeps s₀ s) : Keeps s₀ s.freshCtr :=
  ⟨h.queue, h.regs, h.mem, h.clock, h.free.trans (Nat.le_succ _)⟩

theorem elapse_keeps {s₀ s : State} (h : Keeps s₀ s) (dt : Nat) : Keeps s₀ (s.elapse dt) :=
  ⟨h.queue, h.regs, h.mem, h.clock.trans (Nat.le_add_right _ _), h.free⟩

theorem modTime_keeps {s₀ s : State} (h : Keeps s₀ s) (f : TimeSt → TimeSt) (hf : s.time.clock ≤ (f s.time).clock) :
    Keeps s₀ (s.modTime f) := ⟨h.queue, h.regs, h.mem, h.clock.trans hf, h.free⟩

theorem memFilter_keeps {s₀ s : State} (h : Keeps s₀ s) (p : Host.Cell → Bool) :
    Keeps s₀ { s with mem := s.mem.filter p } :=
  ⟨h.queue, h.regs, fun x => swf_filter _ p (h.mem x), h.clock, h.free⟩

theorem memPut_keeps {s₀ s : State} (h : Keeps s₀ s) (a : Nat) (bs : List Byte) : Keeps s₀ (s.memPut a bs) := by
  induction bs generalizing s a with
  | nil => exact h
  | cons b t ih => exact ih (memSet_keeps h a b) _

end Sys2Proof.Laws
end

