-- ==== Sys2Proof/Laws/Keeps/Ops.lean ====
section
/-! SUPPORT. What the operations and meanings of Machine/Ops.lean keep (`Keeps`). -/

set_option linter.unreachableTactic false
set_option linter.unusedTactic false
set_option linter.unusedVariables false

namespace Sys2Proof.Laws

open Sys2Proof.Machine

theorem wr64_keeps {s₀ s : State} (h : Keeps s₀ s) (a v : Nat) :
    Keeps s₀ (State.wr64 s a v) := by
  unfold State.wr64
  try dsimp only
  repeat' (first
    | with_reducible intro _
    | with_reducible assumption
    | with_reducible apply keeps_ite
    | with_reducible apply wr_keeps
    | exact Nat.le_refl _
    | split
    | with_reducible refine Keeps.of_fst ?_ (by assumption))

theorem add64_keeps {s₀ s : State} (h : Keeps s₀ s) (a n : Nat) :
    Keeps s₀ (State.add64 s a n) := by
  unfold State.add64
  try dsimp only
  repeat' (first
    | with_reducible intro _
    | with_reducible assumption
    | with_reducible apply keeps_ite
    | with_reducible apply wr64_keeps
    | exact Nat.le_refl _
    | split
    | with_reducible refine Keeps.of_fst ?_ (by assumption))

theorem inc64_keeps {s₀ s : State} (h : Keeps s₀ s) (a : Nat) :
    Keeps s₀ (State.inc64 s a) := by
  unfold State.inc64
  try dsimp only
  repeat' (first
    | with_reducible intro _
    | with_reducible assumption
    | with_reducible apply keeps_ite
    | with_reducible apply add64_keeps
    | exact Nat.le_refl _
    | split
    | with_reducible refine Keeps.of_fst ?_ (by assumption))

theorem wrI64_keeps {s₀ s : State} (h : Keeps s₀ s) (a : Nat) (v : Int) :
    Keeps s₀ (State.wrI64 s a v) := by
  unfold State.wrI64
  try dsimp only
  repeat' (first
    | with_reducible intro _
    | with_reducible assumption
    | with_reducible apply keeps_ite
    | with_reducible apply wr64_keeps
    | exact Nat.le_refl _
    | split
    | with_reducible refine Keeps.of_fst ?_ (by assumption))

theorem setF_keeps {s₀ s : State} (h : Keeps s₀ s) (f : Field) (v : Nat) :
    Keeps s₀ (State.setF s f v) := by
  unfold State.setF
  try dsimp only
  repeat' (first
    | with_reducible intro _
    | with_reducible assumption
    | with_reducible apply keeps_ite
    | with_reducible apply wr_keeps
    | with_reducible apply wr64_keeps
    | exact Nat.le_refl _
    | split
    | with_reducible refine Keeps.of_fst ?_ (by assumption))

theorem setB_keeps {s₀ s : State} (h : Keeps s₀ s) (f : Field) (b : Bool) :
    Keeps s₀ (State.setB s f b) := by
  unfold State.setB
  try dsimp only
  repeat' (first
    | with_reducible intro _
    | with_reducible assumption
    | with_reducible apply keeps_ite
    | with_reducible apply setF_keeps
    | exact Nat.le_refl _
    | split
    | with_reducible refine Keeps.of_fst ?_ (by assumption))

theorem lpeFold_keeps {s₀ s : State} (h : Keeps s₀ s) (u r : Nat) (bs : List Byte) :
    Keeps s₀ (State.lpeFold s u r bs) := by
  unfold State.lpeFold
  try dsimp only
  repeat' (first
    | with_reducible intro _
    | with_reducible assumption
    | with_reducible apply keeps_ite
    | with_reducible apply add64_keeps
    | with_reducible apply wr64_keeps
    | exact Nat.le_refl _
    | split
    | with_reducible refine Keeps.of_fst ?_ (by assumption)
    | with_reducible refine keeps_mk ?_ rfl rfl rfl rfl (Nat.le_refl _))

theorem lpeMeet_keeps {s₀ s : State} (h : Keeps s₀ s) (u r : Nat) (bs : List Byte) :
    Keeps s₀ (State.lpeMeet s u r bs) := by
  unfold State.lpeMeet
  try dsimp only
  repeat' (first
    | with_reducible intro _
    | with_reducible assumption
    | with_reducible apply keeps_ite
    | with_reducible apply lpeFold_keeps
    | exact Nat.le_refl _
    | split
    | with_reducible refine Keeps.of_fst ?_ (by assumption)
    | with_reducible refine keeps_mk ?_ rfl rfl rfl rfl (Nat.le_refl _))

theorem lpeFeedFrom_keeps {s₀ s : State} (h : Keeps s₀ s) (start src sel : Nat) (bs : List Byte) :
    Keeps s₀ (State.lpeFeedFrom s start src sel bs) := by
  unfold State.lpeFeedFrom
  try dsimp only
  repeat' (first
    | with_reducible intro _
    | with_reducible assumption
    | with_reducible apply keeps_ite
    | dsimp only
    | with_reducible apply keeps_ite_fst
    | with_reducible apply keeps_foldl_fst
    | with_reducible apply keeps_foldl
    | with_reducible apply lpeMeet_keeps
    | exact Nat.le_refl _
    | split
    | with_reducible refine Keeps.of_fst ?_ (by assumption))

theorem lpeFeed_keeps {s₀ s : State} (h : Keeps s₀ s) (src sel : Nat) (bs : List Byte) :
    Keeps s₀ (State.lpeFeed s src sel bs) := by
  unfold State.lpeFeed
  try dsimp only
  repeat' (first
    | with_reducible intro _
    | with_reducible assumption
    | with_reducible apply keeps_ite
    | with_reducible apply lpeFeedFrom_keeps
    | exact Nat.le_refl _
    | split
    | with_reducible refine Keeps.of_fst ?_ (by assumption))

theorem lpeWrite_keeps {s₀ s : State} (h : Keeps s₀ s) (a : Nat) (bs : List Byte) :
    Keeps s₀ (State.lpeWrite s a bs) := by
  unfold State.lpeWrite
  try dsimp only
  repeat' (first
    | with_reducible intro _
    | with_reducible assumption
    | with_reducible apply keeps_ite
    | dsimp only
    | with_reducible apply keeps_ite_fst
    | with_reducible apply keeps_foldl_fst
    | with_reducible apply keeps_foldl
    | with_reducible apply lpeMeet_keeps
    | exact Nat.le_refl _
    | split
    | with_reducible refine Keeps.of_fst ?_ (by assumption))

theorem ownLines_keeps {s₀ s : State} (h : Keeps s₀ s) (a n : Nat) :
    Keeps s₀ (State.ownLines s a n) := by
  unfold State.ownLines
  try dsimp only
  repeat' (first
    | with_reducible intro _
    | with_reducible assumption
    | with_reducible apply keeps_ite
    | dsimp only
    | with_reducible apply keeps_ite_fst
    | with_reducible apply keeps_foldl_fst
    | exact Nat.le_refl _
    | split
    | with_reducible refine Keeps.of_fst ?_ (by assumption)
    | with_reducible refine keeps_mk ?_ rfl rfl rfl rfl (Nat.le_refl _))

theorem captureLine_keeps {s₀ s : State} (h : Keeps s₀ s) (l : Nat) :
    Keeps s₀ (State.captureLine s l) := by
  unfold State.captureLine
  try dsimp only
  repeat' (first
    | with_reducible intro _
    | with_reducible assumption
    | with_reducible apply keeps_ite
    | dsimp only
    | with_reducible apply keeps_ite_fst
    | with_reducible apply keeps_foldl_fst
    | with_reducible apply inc64_keeps
    | exact Nat.le_refl _
    | split
    | with_reducible refine Keeps.of_fst ?_ (by assumption)
    | with_reducible refine keeps_mk ?_ rfl rfl rfl rfl (Nat.le_refl _))

theorem markDirty_keeps {s₀ s : State} (h : Keeps s₀ s) (a n : Nat) :
    Keeps s₀ (State.markDirty s a n) := by
  unfold State.markDirty
  try dsimp only
  repeat' (first
    | with_reducible intro _
    | with_reducible assumption
    | with_reducible apply keeps_ite
    | with_reducible apply keeps_foldl
    | with_reducible apply captureLine_keeps
    | exact Nat.le_refl _
    | split
    | with_reducible refine Keeps.of_fst ?_ (by assumption)
    | with_reducible refine keeps_mk ?_ rfl rfl rfl rfl (Nat.le_refl _))

theorem memWrite_keeps {s₀ s : State} (h : Keeps s₀ s) (a : Nat) (bs : List Byte) :
    Keeps s₀ (State.memWrite s a bs) := by
  unfold State.memWrite
  try dsimp only
  repeat' (first
    | with_reducible intro _
    | with_reducible assumption
    | with_reducible apply keeps_ite
    | with_reducible apply lpeWrite_keeps
    | with_reducible apply markDirty_keeps
    | with_reducible apply memPut_keeps
    | with_reducible apply ownLines_keeps
    | exact Nat.le_refl _
    | split
    | with_reducible refine Keeps.of_fst ?_ (by assumption))

theorem respond_keeps {s₀ s : State} (h : Keeps s₀ s) (status : Nat) (data : Nat) :
    Keeps s₀ (State.respond s status data) := by
  unfold State.respond
  try dsimp only
  repeat' (first
    | with_reducible intro _
    | with_reducible assumption
    | with_reducible apply keeps_ite
    | exact Nat.le_refl _
    | split
    | with_reducible refine Keeps.of_fst ?_ (by assumption)
    | with_reducible refine keeps_mk ?_ rfl rfl rfl rfl (Nat.le_refl _))

theorem raise_keeps {s₀ s : State} (h : Keeps s₀ s) (e : CoreExc) :
    Keeps s₀ (State.raise s e) := by
  unfold State.raise
  try dsimp only
  repeat' (first
    | with_reducible intro _
    | with_reducible assumption
    | with_reducible apply keeps_ite
    | exact Nat.le_refl _
    | split
    | with_reducible refine Keeps.of_fst ?_ (by assumption)
    | with_reducible refine keeps_mk ?_ rfl rfl rfl rfl (Nat.le_refl _))

theorem takeSeq_keeps {s₀ s : State} (h : Keeps s₀ s) (src : Nat) :
    Keeps s₀ (State.takeSeq s src) := by
  unfold State.takeSeq
  try dsimp only
  repeat' (first
    | with_reducible intro _
    | with_reducible assumption
    | with_reducible apply keeps_ite
    | exact Nat.le_refl _
    | split
    | with_reducible refine Keeps.of_fst ?_ (by assumption)
    | with_reducible refine keeps_mk ?_ rfl rfl rfl rfl (Nat.le_refl _))

theorem emitAt_keeps {s₀ s : State} (h : Keeps s₀ s) (mt blk code sev coll : Nat) (payload : List Byte) :
    Keeps s₀ (State.emitAt s mt blk code sev coll payload) := by
  unfold State.emitAt
  try dsimp only
  repeat' (first
    | with_reducible intro _
    | with_reducible assumption
    | with_reducible apply keeps_ite
    | with_reducible apply inc64_keeps
    | with_reducible apply takeSeq_keeps
    | exact Nat.le_refl _
    | split
    | with_reducible refine Keeps.of_fst ?_ (by assumption)
    | with_reducible refine keeps_mk ?_ rfl rfl rfl rfl (Nat.le_refl _))

theorem emit_keeps {s₀ s : State} (h : Keeps s₀ s) (blk code sev coll : Nat) (payload : List Byte) :
    Keeps s₀ (State.emit s blk code sev coll payload) := by
  unfold State.emit
  try dsimp only
  repeat' (first
    | with_reducible intro _
    | with_reducible assumption
    | with_reducible apply keeps_ite
    | with_reducible apply emitAt_keeps
    | exact Nat.le_refl _
    | split
    | with_reducible refine Keeps.of_fst ?_ (by assumption))

theorem prvOffer_keeps {s₀ s : State} (h : Keeps s₀ s) (r : PrvRec) :
    Keeps s₀ (State.prvOffer s r) := by
  unfold State.prvOffer
  try dsimp only
  repeat' (first
    | with_reducible intro _
    | with_reducible assumption
    | with_reducible apply keeps_ite
    | with_reducible apply inc64_keeps
    | exact Nat.le_refl _
    | split
    | with_reducible refine Keeps.of_fst ?_ (by assumption)
    | with_reducible refine keeps_mk ?_ rfl rfl rfl rfl (Nat.le_refl _))

theorem prvModule_keeps {s₀ s : State} (h : Keeps s₀ s) (kind : Nat) (object : List Byte) (oldHash newHash : Nat) :
    Keeps s₀ (State.prvModule s kind object oldHash newHash) := by
  unfold State.prvModule
  try dsimp only
  repeat' (first
    | with_reducible intro _
    | with_reducible assumption
    | with_reducible apply keeps_ite
    | with_reducible apply prvOffer_keeps
    | exact Nat.le_refl _
    | split
    | with_reducible refine Keeps.of_fst ?_ (by assumption))

theorem fwRefuse_keeps {s₀ s : State} (h : Keeps s₀ s) (k : Cls) (phys : Nat) (write : Bool) :
    Keeps s₀ (State.fwRefuse s k phys write) := by
  unfold State.fwRefuse
  try dsimp only
  repeat' (first
    | with_reducible intro _
    | with_reducible assumption
    | with_reducible apply keeps_ite
    | with_reducible apply inc64_keeps
    | with_reducible apply raise_keeps
    | with_reducible apply respond_keeps
    | with_reducible apply wr_keeps
    | with_reducible apply wr64_keeps
    | exact Nat.le_refl _
    | split
    | with_reducible refine Keeps.of_fst ?_ (by assumption))

theorem interrupt_keeps {s₀ s : State} (h : Keeps s₀ s) (box msg : Nat) :
    Keeps s₀ (State.interrupt s box msg) := by
  unfold State.interrupt
  try dsimp only
  repeat' (first
    | with_reducible intro _
    | with_reducible assumption
    | with_reducible apply keeps_ite
    | exact Nat.le_refl _
    | split
    | with_reducible refine Keeps.of_fst ?_ (by assumption)
    | with_reducible refine keeps_mk ?_ rfl rfl rfl rfl (Nat.le_refl _))

end Sys2Proof.Laws
end

