-- ==== Sys2Proof/Laws/Keeps/Operands.lean ====
section
/-! SUPPORT. What the operations and meanings of Machine/Operands.lean keep (`Keeps`). -/

set_option linter.unreachableTactic false
set_option linter.unusedTactic false
set_option linter.unusedVariables false

namespace Sys2Proof.Laws

open Sys2Proof.Machine

theorem modCsc_keeps {s₀ s : State} (h : Keeps s₀ s) (f : CscSt → CscSt) :
    Keeps s₀ (State.modCsc s f) := by
  unfold State.modCsc
  try dsimp only
  repeat' (first
    | with_reducible intro _
    | with_reducible assumption
    | with_reducible apply keeps_ite
    | exact Nat.le_refl _
    | split
    | with_reducible refine Keeps.of_fst ?_ (by assumption)
    | with_reducible refine keeps_mk ?_ rfl rfl rfl rfl (Nat.le_refl _))

theorem consume_keeps {s₀ s : State} (h : Keeps s₀ s) (port k n : Nat) :
    Keeps s₀ (State.consume s port k n) := by
  unfold State.consume
  try dsimp only
  repeat' (first
    | with_reducible intro _
    | with_reducible assumption
    | with_reducible apply keeps_ite
    | with_reducible apply modCsc_keeps
    | exact Nat.le_refl _
    | split
    | with_reducible refine Keeps.of_fst ?_ (by assumption))

theorem postedOut_keeps {s₀ s : State} (h : Keeps s₀ s) (port n : Nat) :
    Keeps s₀ (State.postedOut s port n) := by
  unfold State.postedOut
  try dsimp only
  repeat' (first
    | with_reducible intro _
    | with_reducible assumption
    | with_reducible apply keeps_ite
    | with_reducible apply add64_keeps
    | with_reducible apply consume_keeps
    | with_reducible apply modCsc_keeps
    | exact Nat.le_refl _
    | split
    | with_reducible refine Keeps.of_fst ?_ (by assumption))

theorem farPost_keeps {s₀ s : State} (h : Keeps s₀ s) (p a : Nat) (bs : List Byte) :
    Keeps s₀ (State.farPost s p a bs) := by
  unfold State.farPost
  try dsimp only
  repeat' (first
    | with_reducible intro _
    | with_reducible assumption
    | with_reducible apply keeps_ite
    | with_reducible apply keeps_foldl
    | with_reducible apply consume_keeps
    | with_reducible apply lpeFeed_keeps
    | with_reducible apply lpeWrite_keeps
    | with_reducible apply postedOut_keeps
    | exact Nat.le_refl _
    | split
    | with_reducible refine Keeps.of_fst ?_ (by assumption))

theorem sendNp_keeps {s₀ s : State} (h : Keeps s₀ s) (x : CscAsk) :
    Keeps s₀ (State.sendNp s x) := by
  unfold State.sendNp
  try dsimp only
  repeat' (first
    | with_reducible intro _
    | with_reducible assumption
    | with_reducible apply keeps_ite
    | with_reducible apply consume_keeps
    | with_reducible apply inc64_keeps
    | with_reducible apply modCsc_keeps
    | exact Nat.le_refl _
    | split
    | with_reducible refine Keeps.of_fst ?_ (by assumption))

theorem farRead_keeps {s₀ s : State} (h : Keeps s₀ s) (p a n : Nat) (req : Requester) :
    Keeps s₀ (State.farRead s p a n req) := by
  unfold State.farRead
  try dsimp only
  repeat' (first
    | with_reducible intro _
    | with_reducible assumption
    | with_reducible apply keeps_ite
    | with_reducible apply keeps_foldl
    | with_reducible apply sendNp_keeps
    | exact Nat.le_refl _
    | split
    | with_reducible refine Keeps.of_fst ?_ (by assumption))

theorem farAmo_keeps {s₀ s : State} (h : Keeps s₀ s) (p a n : Nat) (req : Requester) :
    Keeps s₀ (State.farAmo s p a n req) := by
  unfold State.farAmo
  try dsimp only
  repeat' (first
    | with_reducible intro _
    | with_reducible assumption
    | with_reducible apply keeps_ite
    | with_reducible apply modCsc_keeps
    | with_reducible apply postedOut_keeps
    | exact Nat.le_refl _
    | split
    | with_reducible refine Keeps.of_fst ?_ (by assumption))

theorem storeTo_keeps {s₀ s : State} (h : Keeps s₀ s) (a : Nat) (bs : List Byte) :
    Keeps s₀ (State.storeTo s a bs) := by
  unfold State.storeTo
  try dsimp only
  repeat' (first
    | with_reducible intro _
    | with_reducible assumption
    | with_reducible apply keeps_ite
    | with_reducible apply farPost_keeps
    | with_reducible apply memWrite_keeps
    | exact Nat.le_refl _
    | split
    | with_reducible refine Keeps.of_fst ?_ (by assumption))

theorem modApp_keeps {s₀ s : State} (h : Keeps s₀ s) (f : AppSt → AppSt) :
    Keeps s₀ (State.modApp s f) := by
  unfold State.modApp
  try dsimp only
  repeat' (first
    | with_reducible intro _
    | with_reducible assumption
    | with_reducible apply keeps_ite
    | exact Nat.le_refl _
    | split
    | with_reducible refine Keeps.of_fst ?_ (by assumption)
    | with_reducible refine keeps_mk ?_ rfl rfl rfl rfl (Nat.le_refl _))

theorem visibleStore_keeps {s₀ s : State} (h : Keeps s₀ s) (core : Nat) (x : Nat × List Byte) :
    Keeps s₀ (State.visibleStore s core x) := by
  unfold State.visibleStore
  try dsimp only
  repeat' (first
    | with_reducible intro _
    | with_reducible assumption
    | with_reducible apply keeps_ite
    | dsimp only
    | with_reducible apply keeps_ite_fst
    | with_reducible apply keeps_foldl_fst
    | with_reducible apply memWrite_keeps
    | with_reducible apply modApp_keeps
    | with_reducible apply storeTo_keeps
    | exact Nat.le_refl _
    | split
    | with_reducible refine Keeps.of_fst ?_ (by assumption))

theorem drain_keeps {s₀ s : State} (h : Keeps s₀ s) (core : Nat) :
    Keeps s₀ (State.drain s core) := by
  unfold State.drain
  try dsimp only
  repeat' (first
    | with_reducible intro _
    | with_reducible assumption
    | with_reducible apply keeps_ite
    | with_reducible apply keeps_foldl
    | with_reducible apply modApp_keeps
    | with_reducible apply visibleStore_keeps
    | exact Nat.le_refl _
    | split
    | with_reducible refine Keeps.of_fst ?_ (by assumption))

theorem prior_keeps {s₀ s : State} (h : Keeps s₀ s) (req : Requester) :
    Keeps s₀ (State.prior s req) := by
  unfold State.prior
  try dsimp only
  repeat' (first
    | with_reducible intro _
    | with_reducible assumption
    | with_reducible apply keeps_ite
    | with_reducible apply drain_keeps
    | exact Nat.le_refl _
    | split
    | with_reducible refine Keeps.of_fst ?_ (by assumption))

theorem regCmd_keeps {s₀ s : State} (h : Keeps s₀ s) (req : Requester) (a : Nat) (f : State → State)
    (hf : ∀ u, Keeps s₀ u → Keeps s₀ (f u)) : Keeps s₀ (s.regCmd req a f) := by
  unfold State.regCmd
  have h' := prior_keeps h req
  exact keeps_ite h (keeps_ite (fwRefuse_keeps h' _ _ _) (keeps_ite (respond_keeps (inc64_keeps h' _) _ _) (respond_keeps (hf _ h') _ _)))

theorem eccRead_keeps {s₀ s : State} (h : Keeps s₀ s) (a n : Nat) :
    Keeps s₀ (State.eccRead s a n) := by
  unfold State.eccRead
  try dsimp only
  repeat' (first
    | with_reducible intro _
    | with_reducible assumption
    | with_reducible apply keeps_ite
    | with_reducible apply inc64_keeps
    | exact Nat.le_refl _
    | split
    | with_reducible refine Keeps.of_fst ?_ (by assumption))

end Sys2Proof.Laws
end

