-- ==== Sys2Proof/Laws/Keeps/Rings.lean ====
section
/-! SUPPORT. What the operations and meanings of Machine/Rings.lean keep (`Keeps`). -/

set_option linter.unreachableTactic false
set_option linter.unusedTactic false
set_option linter.unusedVariables false

namespace Sys2Proof.Laws

open Sys2Proof.Machine

theorem modRing_keeps {s₀ s : State} (h : Keeps s₀ s) (b : RingBlk) (q : Nat) (f : RingSt → RingSt) :
    Keeps s₀ (State.modRing s b q f) := by
  unfold State.modRing
  try dsimp only
  repeat' (first
    | with_reducible intro _
    | with_reducible assumption
    | with_reducible apply keeps_ite
    | exact Nat.le_refl _
    | split
    | with_reducible refine Keeps.of_fst ?_ (by assumption)
    | with_reducible refine keeps_mk ?_ rfl rfl rfl rfl (Nat.le_refl _))

theorem takeHead_keeps {s₀ s : State} (h : Keeps s₀ s) (b : RingBlk) (q : Nat) :
    Keeps s₀ (State.takeHead s b q) := by
  unfold State.takeHead
  try dsimp only
  repeat' (first
    | with_reducible intro _
    | with_reducible assumption
    | with_reducible apply keeps_ite
    | with_reducible apply modRing_keeps
    | exact Nat.le_refl _
    | split
    | with_reducible refine Keeps.of_fst ?_ (by assumption))

theorem readLeaves_keeps {s₀ s : State} (h : Keeps s₀ s) (st : Nat) (k : Cls) (a n : Nat) :
    Keeps s₀ (State.readLeaves s st k a n) := by
  unfold State.readLeaves
  try dsimp only
  repeat' (first
    | with_reducible intro _
    | with_reducible assumption
    | with_reducible apply keeps_ite
    | with_reducible apply eccRead_keeps
    | with_reducible apply fwRefuse_keeps
    | exact Nat.le_refl _
    | split
    | with_reducible refine Keeps.of_fst ?_ (by assumption))

theorem headLeaves_keeps {s₀ s : State} (h : Keeps s₀ s) (b : RingBlk) (q : Nat) :
    Keeps s₀ (State.headLeaves s b q) := by
  unfold State.headLeaves
  try dsimp only
  repeat' (first
    | with_reducible intro _
    | with_reducible assumption
    | with_reducible apply keeps_ite
    | with_reducible apply readLeaves_keeps
    | exact Nat.le_refl _
    | split
    | with_reducible refine Keeps.of_fst ?_ (by assumption))

theorem devTook_keeps {s₀ s : State} (h : Keeps s₀ s) (unit a n : Nat) :
    Keeps s₀ (State.devTook s unit a n) := by
  unfold State.devTook
  try dsimp only
  repeat' (first
    | with_reducible intro _
    | with_reducible assumption
    | with_reducible apply keeps_ite
    | with_reducible apply farRead_keeps
    | with_reducible apply freshCtr_keeps
    | exact Nat.le_refl _
    | split
    | with_reducible refine Keeps.of_fst ?_ (by assumption))

theorem devWrite_keeps {s₀ s : State} (h : Keeps s₀ s) (k : Cls) (a : Nat) (bs : List Byte) :
    Keeps s₀ (State.devWrite s k a bs) := by
  unfold State.devWrite
  try dsimp only
  repeat' (first
    | with_reducible intro _
    | with_reducible assumption
    | with_reducible apply keeps_ite
    | with_reducible apply farPost_keeps
    | with_reducible apply fwRefuse_keeps
    | with_reducible apply memWrite_keeps
    | exact Nat.le_refl _
    | split
    | with_reducible refine Keeps.of_fst ?_ (by assumption)
    | with_reducible refine keeps_mk ?_ rfl rfl rfl rfl (Nat.le_refl _))

theorem complete_keeps {s₀ s : State} (h : Keeps s₀ s) (b : RingBlk) (q desc status : Nat) (rest : List Byte) :
    Keeps s₀ (State.complete s b q desc status rest) := by
  unfold State.complete
  try dsimp only
  repeat' (first
    | with_reducible intro _
    | with_reducible assumption
    | with_reducible apply keeps_ite
    | with_reducible apply devWrite_keeps
    | with_reducible apply inc64_keeps
    | with_reducible apply modRing_keeps
    | exact Nat.le_refl _
    | split
    | with_reducible refine Keeps.of_fst ?_ (by assumption))

theorem retireTx_keeps {s₀ s : State} (h : Keeps s₀ s) (b : RingBlk) (q : Nat) (l : List TxPend) : Keeps s₀ (State.retireTx b q l s).2 := by
  induction l generalizing s with
  | nil => exact h
  | cons x t ih =>
    unfold State.retireTx
    split
    · exact ih (complete_keeps h _ _ _ _ _)
    · exact h

theorem takePend_keeps {s₀ s : State} (h : Keeps s₀ s) (b : RingBlk) (q : Nat) :
    Keeps s₀ (State.takePend s b q) := by
  unfold State.takePend
  try dsimp only
  repeat' (first
    | with_reducible intro _
    | with_reducible assumption
    | with_reducible apply keeps_ite
    | with_reducible apply modRing_keeps
    | with_reducible apply takeHead_keeps
    | exact Nat.le_refl _
    | split
    | with_reducible refine Keeps.of_fst ?_ (by assumption))

theorem endTx_keeps {s₀ s : State} (h : Keeps s₀ s) (b : RingBlk) (q desc status late : Nat) :
    Keeps s₀ (State.endTx s b q desc status late) := by
  unfold State.endTx
  dsimp only
  exact modRing_keeps (retireTx_keeps h _ _ _) _ _ _

theorem abortWaiting_keeps {s₀ s : State} (h : Keeps s₀ s) (b : RingBlk) (q : Nat) (n : Nat) :
    Keeps s₀ (State.abortWaiting s b q n) := by
  induction n generalizing s with
  | zero => exact h
  | succ n ih =>
    unfold State.abortWaiting
    try dsimp only
    repeat' (first
    | with_reducible assumption
    | with_reducible apply ih
    | with_reducible apply takePend_keeps
    | with_reducible apply endTx_keeps
    | with_reducible apply keeps_ite
    | with_reducible refine Keeps.of_fst ?_ (by assumption)
    | split)

theorem doorbellError_keeps {s₀ s : State} (h : Keeps s₀ s) (blk : Nat) :
    Keeps s₀ (State.doorbellError s blk) := by
  unfold State.doorbellError
  try dsimp only
  repeat' (first
    | with_reducible intro _
    | with_reducible assumption
    | with_reducible apply keeps_ite
    | with_reducible apply inc64_keeps
    | exact Nat.le_refl _
    | split
    | with_reducible refine Keeps.of_fst ?_ (by assumption))

theorem ringDoorbell_keeps {s₀ s : State} (h : Keeps s₀ s) (b : RingBlk) (q tail : Nat) :
    Keeps s₀ (State.ringDoorbell s b q tail) := by
  unfold State.ringDoorbell
  try dsimp only
  repeat' (first
    | with_reducible intro _
    | with_reducible assumption
    | with_reducible apply keeps_ite
    | with_reducible apply add64_keeps
    | with_reducible apply doorbellError_keeps
    | with_reducible apply modRing_keeps
    | exact Nat.le_refl _
    | split
    | with_reducible refine Keeps.of_fst ?_ (by assumption))

theorem ringEnable_keeps {s₀ s : State} (h : Keeps s₀ s) (b : RingBlk) (q v : Nat) :
    Keeps s₀ (State.ringEnable s b q v) := by
  unfold State.ringEnable
  try dsimp only
  repeat' (first
    | with_reducible intro _
    | with_reducible assumption
    | with_reducible apply keeps_ite
    | with_reducible apply modRing_keeps
    | with_reducible apply setF_keeps
    | with_reducible apply wr_keeps
    | exact Nat.le_refl _
    | split
    | with_reducible refine Keeps.of_fst ?_ (by assumption))

theorem execRingEnableWrite_keeps {s₀ s : State} (h : Keeps s₀ s) (dt : Nat) (req : Requester) (blk : RingBlk) (ring : Nat) (value : Word) :
    KeepsOut s₀ (Machine.execRingEnableWrite dt req blk ring value s) := by
  unfold Machine.execRingEnableWrite
  try dsimp only
  repeat' (first
    | with_reducible intro _
    | with_reducible assumption
    | with_reducible apply keepsOut_next
    | with_reducible apply keepsOut_fault
    | with_reducible apply keepsOut_ite
    | with_reducible apply keeps_ite
    | with_reducible apply elapse_keeps
    | with_reducible apply regCmd_keeps
    | with_reducible apply ringEnable_keeps
    | exact Nat.le_refl _
    | split
    | with_reducible refine Keeps.of_fst ?_ (by assumption))

end Sys2Proof.Laws
end

