-- ==== Sys2Proof/Laws/Keeps/Archive.lean ====
section
/-! SUPPORT. What the operations and meanings of Machine/Archive.lean keep (`Keeps`). -/

set_option linter.unreachableTactic false
set_option linter.unusedTactic false
set_option linter.unusedVariables false

namespace Sys2Proof.Laws

open Sys2Proof.Machine

theorem modArc_keeps {s₀ s : State} (h : Keeps s₀ s) (f : ArcSt → ArcSt) :
    Keeps s₀ (State.modArc s f) := by
  unfold State.modArc
  try dsimp only
  repeat' (first
    | with_reducible intro _
    | with_reducible assumption
    | with_reducible apply keeps_ite
    | exact Nat.le_refl _
    | split
    | with_reducible refine Keeps.of_fst ?_ (by assumption)
    | with_reducible refine keeps_mk ?_ rfl rfl rfl rfl (Nat.le_refl _))

theorem showArc_keeps {s₀ s : State} (h : Keeps s₀ s) :
    Keeps s₀ (State.showArc s) := by
  unfold State.showArc
  try dsimp only
  repeat' (first
    | with_reducible intro _
    | with_reducible assumption
    | with_reducible apply keeps_ite
    | with_reducible apply setB_keeps
    | with_reducible apply setF_keeps
    | exact Nat.le_refl _
    | split
    | with_reducible refine Keeps.of_fst ?_ (by assumption))

theorem showOldest_keeps {s₀ s : State} (h : Keeps s₀ s) (k : Nat) :
    Keeps s₀ (State.showOldest s k) := by
  unfold State.showOldest
  try dsimp only
  repeat' (first
    | with_reducible intro _
    | with_reducible assumption
    | with_reducible apply keeps_ite
    | with_reducible apply keeps_foldl
    | with_reducible apply wr64_keeps
    | exact Nat.le_refl _
    | split
    | with_reducible refine Keeps.of_fst ?_ (by assumption))

theorem forgetLast_keeps {s₀ s : State} (h : Keeps s₀ s) (gone : ArcLast → Bool) :
    Keeps s₀ (State.forgetLast s gone) := by
  unfold State.forgetLast
  try dsimp only
  repeat' (first
    | with_reducible intro _
    | with_reducible assumption
    | with_reducible apply keeps_ite
    | with_reducible apply modArc_keeps
    | exact Nat.le_refl _
    | split
    | with_reducible refine Keeps.of_fst ?_ (by assumption))

theorem removeRec_keeps {s₀ s : State} (h : Keeps s₀ s) (k : Nat) (r : ArcRec) :
    Keeps s₀ (State.removeRec s k r) := by
  unfold State.removeRec
  try dsimp only
  repeat' (first
    | with_reducible intro _
    | with_reducible assumption
    | with_reducible apply keeps_ite
    | with_reducible apply forgetLast_keeps
    | with_reducible apply inc64_keeps
    | with_reducible apply modArc_keeps
    | with_reducible apply setF_keeps
    | exact Nat.le_refl _
    | split
    | with_reducible refine Keeps.of_fst ?_ (by assumption)
    | with_reducible refine keeps_mk ?_ rfl rfl rfl rfl (Nat.le_refl _))

theorem unitDue_keeps {s₀ s : State} (h : Keeps s₀ s) (id : Nat) :
    Keeps s₀ (State.unitDue s id) := by
  unfold State.unitDue
  try dsimp only
  repeat' (first
    | with_reducible intro _
    | with_reducible assumption
    | with_reducible apply keeps_ite
    | with_reducible apply modArc_keeps
    | exact Nat.le_refl _
    | split
    | with_reducible refine Keeps.of_fst ?_ (by assumption))

theorem unitNeeded_keeps {s₀ s : State} (h : Keeps s₀ s) :
    Keeps s₀ (State.unitNeeded s) := by
  unfold State.unitNeeded
  try dsimp only
  repeat' (first
    | with_reducible intro _
    | with_reducible assumption
    | with_reducible apply keeps_ite
    | with_reducible apply unitDue_keeps
    | exact Nat.le_refl _
    | split
    | with_reducible refine Keeps.of_fst ?_ (by assumption))

theorem openUnit_keeps {s₀ s : State} (h : Keeps s₀ s) (k : Nat) (holds : Bool) :
    Keeps s₀ (State.openUnit s k holds) := by
  unfold State.openUnit
  try dsimp only
  repeat' (first
    | with_reducible intro _
    | with_reducible assumption
    | with_reducible apply keeps_ite
    | with_reducible apply modArc_keeps
    | with_reducible apply showArc_keeps
    | exact Nat.le_refl _
    | split
    | with_reducible refine Keeps.of_fst ?_ (by assumption))

theorem unitFor_keeps {s₀ s : State} (h : Keeps s₀ s) (k size : Nat) :
    Keeps s₀ (State.unitFor s k size).1 := by
  unfold State.unitFor
  try dsimp only
  repeat' (first
    | with_reducible intro _
    | with_reducible assumption
    | with_reducible apply keeps_ite
    | dsimp only
    | with_reducible apply keeps_ite_fst
    | with_reducible apply keeps_foldl_fst
    | with_reducible apply keeps_foldl
    | with_reducible apply openUnit_keeps
    | with_reducible apply unitDue_keeps
    | with_reducible apply unitNeeded_keeps
    | exact Nat.le_refl _
    | split
    | with_reducible refine Keeps.of_fst ?_ (by assumption))

theorem holdUnit_keeps {s₀ s : State} (h : Keeps s₀ s) (k size : Nat) :
    Keeps s₀ (State.holdUnit s k size).1 := by
  unfold State.holdUnit
  try dsimp only
  repeat' (first
    | with_reducible intro _
    | with_reducible assumption
    | with_reducible apply keeps_ite
    | dsimp only
    | with_reducible apply keeps_ite_fst
    | with_reducible apply keeps_foldl_fst
    | with_reducible apply openUnit_keeps
    | with_reducible apply unitNeeded_keeps
    | exact Nat.le_refl _
    | split
    | with_reducible refine Keeps.of_fst ?_ (by assumption))

theorem arcRefuse_keeps {s₀ s : State} (h : Keeps s₀ s) (o : Occurrence) (reason : Nat) :
    Keeps s₀ (State.arcRefuse s o reason).1 := by
  unfold State.arcRefuse
  try dsimp only
  repeat' (first
    | with_reducible intro _
    | with_reducible assumption
    | with_reducible apply keeps_ite
    | dsimp only
    | with_reducible apply keeps_ite_fst
    | with_reducible apply keeps_foldl_fst
    | with_reducible apply inc64_keeps
    | with_reducible apply takeSeq_keeps
    | exact Nat.le_refl _
    | split
    | with_reducible refine Keeps.of_fst ?_ (by assumption))

theorem arcMerge_keeps {s₀ s : State} (h : Keeps s₀ s) (o : Occurrence) (l : ArcLast) :
    Keeps s₀ (State.arcMerge s o l) := by
  unfold State.arcMerge
  try dsimp only
  repeat' (first
    | with_reducible intro _
    | with_reducible assumption
    | with_reducible apply keeps_ite
    | with_reducible apply inc64_keeps
    | with_reducible apply modArc_keeps
    | exact Nat.le_refl _
    | split
    | with_reducible refine Keeps.of_fst ?_ (by assumption)
    | with_reducible refine keeps_mk ?_ rfl rfl rfl rfl (Nat.le_refl _))

theorem arcPlace_keeps {s₀ s : State} (h : Keeps s₀ s) (o : Occurrence) (chain : Option ArcLast) :
    Keeps s₀ (State.arcPlace s o chain).1 := by
  unfold State.arcPlace
  try dsimp only
  repeat' (first
    | with_reducible intro _
    | with_reducible assumption
    | with_reducible apply keeps_ite
    | dsimp only
    | with_reducible apply keeps_ite_fst
    | with_reducible apply keeps_foldl_fst
    | with_reducible apply keeps_foldl
    | with_reducible apply arcRefuse_keeps
    | with_reducible apply emit_keeps
    | with_reducible apply inc64_keeps
    | with_reducible apply modArc_keeps
    | with_reducible apply removeRec_keeps
    | with_reducible apply setB_keeps
    | with_reducible apply setF_keeps
    | with_reducible apply showOldest_keeps
    | with_reducible apply takeSeq_keeps
    | with_reducible apply unitFor_keeps
    | with_reducible apply wr64_keeps
    | exact Nat.le_refl _
    | split
    | with_reducible refine Keeps.of_fst ?_ (by assumption)
    | with_reducible refine keeps_mk ?_ rfl rfl rfl rfl (Nat.le_refl _))

theorem arcRecord_keeps {s₀ s : State} (h : Keeps s₀ s) (o : Occurrence) :
    Keeps s₀ (State.arcRecord s o).1 := by
  unfold State.arcRecord
  try dsimp only
  repeat' (first
    | with_reducible intro _
    | with_reducible assumption
    | with_reducible apply keeps_ite
    | dsimp only
    | with_reducible apply keeps_ite_fst
    | with_reducible apply keeps_foldl_fst
    | with_reducible apply arcMerge_keeps
    | with_reducible apply arcPlace_keeps
    | exact Nat.le_refl _
    | split
    | with_reducible refine Keeps.of_fst ?_ (by assumption))

theorem arcOffer_keeps {s₀ s : State} (h : Keeps s₀ s) (o : Occurrence) :
    Keeps s₀ (State.arcOffer s o).1 := by
  unfold State.arcOffer
  try dsimp only
  repeat' (first
    | with_reducible intro _
    | with_reducible assumption
    | with_reducible apply keeps_ite
    | dsimp only
    | with_reducible apply keeps_ite_fst
    | with_reducible apply keeps_foldl_fst
    | with_reducible apply arcRecord_keeps
    | with_reducible apply arcRefuse_keeps
    | with_reducible apply holdUnit_keeps
    | with_reducible apply inc64_keeps
    | with_reducible apply modArc_keeps
    | exact Nat.le_refl _
    | split
    | with_reducible refine Keeps.of_fst ?_ (by assumption)
    | with_reducible refine keeps_mk ?_ rfl rfl rfl rfl (Nat.le_refl _))

theorem arcResumeOne_keeps {s₀ s : State} (h : Keeps s₀ s) (x : Bool × Occurrence) :
    Keeps s₀ (State.arcResumeOne s x) := by
  unfold State.arcResumeOne
  try dsimp only
  repeat' (first
    | with_reducible intro _
    | with_reducible assumption
    | with_reducible apply keeps_ite
    | dsimp only
    | with_reducible apply keeps_ite_fst
    | with_reducible apply keeps_foldl_fst
    | with_reducible apply arcRecord_keeps
    | with_reducible apply inc64_keeps
    | with_reducible apply modArc_keeps
    | with_reducible apply wr64_keeps
    | exact Nat.le_refl _
    | split
    | with_reducible refine Keeps.of_fst ?_ (by assumption)
    | with_reducible refine keeps_mk ?_ rfl rfl rfl rfl (Nat.le_refl _))

theorem arcResume_keeps {s₀ s : State} (h : Keeps s₀ s) :
    Keeps s₀ (State.arcResume s) := by
  unfold State.arcResume
  try dsimp only
  repeat' (first
    | with_reducible intro _
    | with_reducible assumption
    | with_reducible apply keeps_ite
    | with_reducible apply keeps_foldl
    | with_reducible apply arcResumeOne_keeps
    | with_reducible apply modArc_keeps
    | exact Nat.le_refl _
    | split
    | with_reducible refine Keeps.of_fst ?_ (by assumption))

theorem releaseHeld_keeps {s₀ s : State} (h : Keeps s₀ s) (which : Nat → Bool) (counted : Bool) :
    Keeps s₀ (State.releaseHeld s which counted) := by
  unfold State.releaseHeld
  try dsimp only
  repeat' (first
    | with_reducible intro _
    | with_reducible assumption
    | with_reducible apply keeps_ite
    | dsimp only
    | with_reducible apply keeps_ite_fst
    | with_reducible apply keeps_foldl_fst
    | with_reducible apply arcResume_keeps
    | with_reducible apply modArc_keeps
    | with_reducible apply showArc_keeps
    | exact Nat.le_refl _
    | split
    | with_reducible refine Keeps.of_fst ?_ (by assumption))

theorem arcUnseal_keeps {s₀ s : State} (h : Keeps s₀ s) (k : Nat) :
    Keeps s₀ (State.arcUnseal s k) := by
  unfold State.arcUnseal
  try dsimp only
  repeat' (first
    | with_reducible intro _
    | with_reducible assumption
    | with_reducible apply keeps_ite
    | with_reducible apply modArc_keeps
    | with_reducible apply releaseHeld_keeps
    | with_reducible apply setB_keeps
    | with_reducible apply wr64_keeps
    | exact Nat.le_refl _
    | split
    | with_reducible refine Keeps.of_fst ?_ (by assumption))

theorem arcSeal_keeps {s₀ s : State} (h : Keeps s₀ s) (k : Nat) :
    Keeps s₀ (State.arcSeal s k) := by
  unfold State.arcSeal
  try dsimp only
  repeat' (first
    | with_reducible intro _
    | with_reducible assumption
    | with_reducible apply keeps_ite
    | with_reducible apply modArc_keeps
    | with_reducible apply setB_keeps
    | with_reducible apply wr64_keeps
    | exact Nat.le_refl _
    | split
    | with_reducible refine Keeps.of_fst ?_ (by assumption))

theorem unitStored_keeps {s₀ s : State} (h : Keeps s₀ s) (u : ArcUnit) :
    Keeps s₀ (State.unitStored s u) := by
  unfold State.unitStored
  try dsimp only
  repeat' (first
    | with_reducible intro _
    | with_reducible assumption
    | with_reducible apply keeps_ite
    | with_reducible apply modArc_keeps
    | with_reducible apply setF_keeps
    | exact Nat.le_refl _
    | split
    | with_reducible refine Keeps.of_fst ?_ (by assumption))

theorem arcComplete_keeps {s₀ s : State} (h : Keeps s₀ s) (q status seq outcome reason : Nat) :
    Keeps s₀ (State.arcComplete s q status seq outcome reason) := by
  unfold State.arcComplete
  try dsimp only
  repeat' (first
    | with_reducible intro _
    | with_reducible assumption
    | with_reducible apply keeps_ite
    | with_reducible apply complete_keeps
    | with_reducible apply takeHead_keeps
    | exact Nat.le_refl _
    | split
    | with_reducible refine Keeps.of_fst ?_ (by assumption))

theorem arcWriteDesc_keeps {s₀ s : State} (h : Keeps s₀ s) (q : Nat) (ended : ReadEnd) :
    Keeps s₀ (State.arcWriteDesc s q ended) := by
  unfold State.arcWriteDesc
  try dsimp only
  repeat' (first
    | with_reducible intro _
    | with_reducible assumption
    | with_reducible apply keeps_ite
    | dsimp only
    | with_reducible apply keeps_ite_fst
    | with_reducible apply keeps_foldl_fst
    | with_reducible apply arcComplete_keeps
    | with_reducible apply arcOffer_keeps
    | with_reducible apply devTook_keeps
    | with_reducible apply headLeaves_keeps
    | with_reducible apply inc64_keeps
    | with_reducible apply readLeaves_keeps
    | exact Nat.le_refl _
    | split
    | with_reducible refine Keeps.of_fst ?_ (by assumption))

theorem arcReadDesc_keeps {s₀ s : State} (h : Keeps s₀ s) (q : Nat) :
    Keeps s₀ (State.arcReadDesc s q) := by
  unfold State.arcReadDesc
  try dsimp only
  repeat' (first
    | with_reducible intro _
    | with_reducible assumption
    | with_reducible apply keeps_ite
    | with_reducible apply complete_keeps
    | with_reducible apply devWrite_keeps
    | with_reducible apply fwRefuse_keeps
    | with_reducible apply headLeaves_keeps
    | with_reducible apply takeHead_keeps
    | exact Nat.le_refl _
    | split
    | with_reducible refine Keeps.of_fst ?_ (by assumption))

theorem wrBytes_keeps {s₀ : State} : ∀ {s : State}, Keeps s₀ s → ∀ (a : Nat) (bs : List Byte), Keeps s₀ (s.wrBytes a bs)
  | _, h, _, b0 :: b1 :: b2 :: b3 :: t => wrBytes_keeps (wr_keeps h _ _) _ t
  | _, h, _, [] => h
  | _, h, _, [_] => by simpa [State.wrBytes] using wr_keeps h _ _
  | _, h, _, [_, _] => by simpa [State.wrBytes] using wr_keeps h _ _
  | _, h, _, [_, _, _] => by simpa [State.wrBytes] using wr_keeps h _ _

theorem arcPop_keeps {s₀ s : State} (h : Keeps s₀ s) (r : ArcRec) :
    Keeps s₀ (State.arcPop s r) := by
  unfold State.arcPop
  try dsimp only
  repeat' (first
    | with_reducible intro _
    | with_reducible assumption
    | with_reducible apply keeps_ite
    | with_reducible apply wr64_keeps
    | with_reducible apply wrBytes_keeps
    | exact Nat.le_refl _
    | split
    | with_reducible refine Keeps.of_fst ?_ (by assumption))

theorem arcErase_keeps {s₀ s : State} (h : Keeps s₀ s) (k : Nat) :
    Keeps s₀ (State.arcErase s k) := by
  unfold State.arcErase
  try dsimp only
  repeat' (first
    | with_reducible intro _
    | with_reducible assumption
    | with_reducible apply keeps_ite
    | with_reducible apply emit_keeps
    | with_reducible apply forgetLast_keeps
    | with_reducible apply freshCtr_keeps
    | with_reducible apply modArc_keeps
    | with_reducible apply prvModule_keeps
    | with_reducible apply setF_keeps
    | with_reducible apply wr64_keeps
    | exact Nat.le_refl _
    | split
    | with_reducible refine Keeps.of_fst ?_ (by assumption)
    | with_reducible refine keeps_mk ?_ rfl rfl rfl rfl (Nat.le_refl _))

theorem execArcOccurrence_keeps {s₀ s : State} (h : Keeps s₀ s) (dt : Nat) (port : Fin 27) :
    KeepsOut s₀ (Machine.execArcOccurrence dt port s) := by
  unfold Machine.execArcOccurrence
  try dsimp only
  repeat' (first
    | with_reducible intro _
    | with_reducible assumption
    | with_reducible apply keepsOut_next
    | with_reducible apply keepsOut_fault
    | with_reducible apply keepsOut_ite
    | with_reducible apply keeps_ite
    | dsimp only
    | with_reducible apply keeps_ite_fst
    | with_reducible apply keeps_foldl_fst
    | with_reducible apply arcOffer_keeps
    | with_reducible apply elapse_keeps
    | with_reducible apply modArc_keeps
    | exact Nat.le_refl _
    | split
    | with_reducible refine Keeps.of_fst ?_ (by assumption))

theorem execArcWriteDescriptor_keeps {s₀ s : State} (h : Keeps s₀ s) (dt : Nat) (ring : Fin 8) (ended : ReadEnd) :
    KeepsOut s₀ (Machine.execArcWriteDescriptor dt ring ended s) := by
  unfold Machine.execArcWriteDescriptor
  try dsimp only
  repeat' (first
    | with_reducible intro _
    | with_reducible assumption
    | with_reducible apply keepsOut_next
    | with_reducible apply keepsOut_fault
    | with_reducible apply keepsOut_ite
    | with_reducible apply keeps_ite
    | with_reducible apply arcWriteDesc_keeps
    | with_reducible apply elapse_keeps
    | exact Nat.le_refl _
    | split
    | with_reducible refine Keeps.of_fst ?_ (by assumption))

theorem execArcCommitAgeExpiry_keeps {s₀ s : State} (h : Keeps s₀ s) (dt unit : Nat) :
    KeepsOut s₀ (Machine.execArcCommitAgeExpiry dt unit s) := by
  unfold Machine.execArcCommitAgeExpiry
  try dsimp only
  repeat' (first
    | with_reducible intro _
    | with_reducible assumption
    | with_reducible apply keepsOut_next
    | with_reducible apply keepsOut_fault
    | with_reducible apply keepsOut_ite
    | with_reducible apply keeps_ite
    | with_reducible apply elapse_keeps
    | with_reducible apply unitDue_keeps
    | exact Nat.le_refl _
    | split
    | with_reducible refine Keeps.of_fst ?_ (by assumption))

theorem execArcUnitCommit_keeps {s₀ s : State} (h : Keeps s₀ s) (dt : Nat) :
    KeepsOut s₀ (Machine.execArcUnitCommit dt s) := by
  unfold Machine.execArcUnitCommit
  try dsimp only
  repeat' (first
    | with_reducible intro _
    | with_reducible assumption
    | with_reducible apply keepsOut_next
    | with_reducible apply keepsOut_fault
    | with_reducible apply keepsOut_ite
    | with_reducible apply keeps_ite
    | with_reducible apply elapse_keeps
    | with_reducible apply modArc_keeps
    | with_reducible apply showArc_keeps
    | exact Nat.le_refl _
    | split
    | with_reducible refine Keeps.of_fst ?_ (by assumption))

theorem execArcCommitDone_keeps {s₀ s : State} (h : Keeps s₀ s) (dt : Nat) :
    KeepsOut s₀ (Machine.execArcCommitDone dt s) := by
  unfold Machine.execArcCommitDone
  try dsimp only
  repeat' (first
    | with_reducible intro _
    | with_reducible assumption
    | with_reducible apply keepsOut_next
    | with_reducible apply keepsOut_fault
    | with_reducible apply keepsOut_ite
    | with_reducible apply keeps_ite
    | with_reducible apply add64_keeps
    | with_reducible apply arcResume_keeps
    | with_reducible apply elapse_keeps
    | with_reducible apply modArc_keeps
    | with_reducible apply showArc_keeps
    | with_reducible apply unitStored_keeps
    | with_reducible apply wr64_keeps
    | exact Nat.le_refl _
    | split
    | with_reducible refine Keeps.of_fst ?_ (by assumption))

theorem sealWrite_keeps {s₀ s : State} (h : Keeps s₀ s) (mask : Nat) :
    Keeps s₀ (State.sealWrite s mask) := by
  unfold State.sealWrite
  try dsimp only
  repeat' (first
    | with_reducible intro _
    | with_reducible assumption
    | with_reducible apply keeps_ite
    | with_reducible apply keeps_foldl
    | with_reducible apply arcSeal_keeps
    | exact Nat.le_refl _
    | split
    | with_reducible refine Keeps.of_fst ?_ (by assumption))

theorem execArcSealWrite_keeps {s₀ s : State} (h : Keeps s₀ s) (dt : Nat) (req : Requester) (mask : BitVec 64) :
    KeepsOut s₀ (Machine.execArcSealWrite dt req mask s) := by
  unfold Machine.execArcSealWrite
  try dsimp only
  repeat' (first
    | with_reducible intro _
    | with_reducible assumption
    | with_reducible apply keepsOut_next
    | with_reducible apply keepsOut_fault
    | with_reducible apply keepsOut_ite
    | with_reducible apply keeps_ite
    | with_reducible apply elapse_keeps
    | with_reducible apply regCmd_keeps
    | with_reducible apply sealWrite_keeps
    | exact Nat.le_refl _
    | split
    | with_reducible refine Keeps.of_fst ?_ (by assumption))

theorem unsealWrite_keeps {s₀ s : State} (h : Keeps s₀ s) (mask : Nat) :
    Keeps s₀ (State.unsealWrite s mask) := by
  unfold State.unsealWrite
  try dsimp only
  repeat' (first
    | with_reducible intro _
    | with_reducible assumption
    | with_reducible apply keeps_ite
    | with_reducible apply keeps_foldl
    | with_reducible apply arcUnseal_keeps
    | exact Nat.le_refl _
    | split
    | with_reducible refine Keeps.of_fst ?_ (by assumption))

theorem execArcUnsealWrite_keeps {s₀ s : State} (h : Keeps s₀ s) (dt : Nat) (req : Requester) (mask : BitVec 64) :
    KeepsOut s₀ (Machine.execArcUnsealWrite dt req mask s) := by
  unfold Machine.execArcUnsealWrite
  try dsimp only
  repeat' (first
    | with_reducible intro _
    | with_reducible assumption
    | with_reducible apply keepsOut_next
    | with_reducible apply keepsOut_fault
    | with_reducible apply keepsOut_ite
    | with_reducible apply keeps_ite
    | with_reducible apply elapse_keeps
    | with_reducible apply regCmd_keeps
    | with_reducible apply unsealWrite_keeps
    | exact Nat.le_refl _
    | split
    | with_reducible refine Keeps.of_fst ?_ (by assumption))

theorem execArcSealExpired_keeps {s₀ s : State} (h : Keeps s₀ s) (dt : Nat) (coll : Fin 64) :
    KeepsOut s₀ (Machine.execArcSealExpired dt coll s) := by
  unfold Machine.execArcSealExpired
  try dsimp only
  repeat' (first
    | with_reducible intro _
    | with_reducible assumption
    | with_reducible apply keepsOut_next
    | with_reducible apply keepsOut_fault
    | with_reducible apply keepsOut_ite
    | with_reducible apply keeps_ite
    | with_reducible apply arcUnseal_keeps
    | with_reducible apply elapse_keeps
    | with_reducible apply emit_keeps
    | exact Nat.le_refl _
    | split
    | with_reducible refine Keeps.of_fst ?_ (by assumption))

theorem execArcReadDescriptor_keeps {s₀ s : State} (h : Keeps s₀ s) (dt : Nat) (ring : Fin 2) :
    KeepsOut s₀ (Machine.execArcReadDescriptor dt ring s) := by
  unfold Machine.execArcReadDescriptor
  try dsimp only
  repeat' (first
    | with_reducible intro _
    | with_reducible assumption
    | with_reducible apply keepsOut_next
    | with_reducible apply keepsOut_fault
    | with_reducible apply keepsOut_ite
    | with_reducible apply keeps_ite
    | with_reducible apply arcReadDesc_keeps
    | with_reducible apply elapse_keeps
    | exact Nat.le_refl _
    | split
    | with_reducible refine Keeps.of_fst ?_ (by assumption))

theorem eraseWrite_keeps {s₀ s : State} (h : Keeps s₀ s) (key coll : Nat) :
    Keeps s₀ (State.eraseWrite s key coll) := by
  unfold State.eraseWrite
  try dsimp only
  repeat' (first
    | with_reducible intro _
    | with_reducible assumption
    | with_reducible apply keeps_ite
    | with_reducible apply arcErase_keeps
    | exact Nat.le_refl _
    | split
    | with_reducible refine Keeps.of_fst ?_ (by assumption))

theorem execArcEraseWrite_keeps {s₀ s : State} (h : Keeps s₀ s) (dt : Nat) (req : Requester) (key : Byte) (coll : Fin 64) :
    KeepsOut s₀ (Machine.execArcEraseWrite dt req key coll s) := by
  unfold Machine.execArcEraseWrite
  try dsimp only
  repeat' (first
    | with_reducible intro _
    | with_reducible assumption
    | with_reducible apply keepsOut_next
    | with_reducible apply keepsOut_fault
    | with_reducible apply keepsOut_ite
    | with_reducible apply keeps_ite
    | with_reducible apply elapse_keeps
    | with_reducible apply eraseWrite_keeps
    | with_reducible apply regCmd_keeps
    | exact Nat.le_refl _
    | split
    | with_reducible refine Keeps.of_fst ?_ (by assumption))

theorem execArcStartCarry_keeps {s₀ s : State} (h : Keeps s₀ s) (dt : Nat) :
    KeepsOut s₀ (Machine.execArcStartCarry dt s) := by
  unfold Machine.execArcStartCarry
  try dsimp only
  repeat' (first
    | with_reducible intro _
    | with_reducible assumption
    | with_reducible apply keepsOut_next
    | with_reducible apply keepsOut_fault
    | with_reducible apply keepsOut_ite
    | with_reducible apply keeps_ite
    | with_reducible apply keeps_foldl
    | with_reducible apply add64_keeps
    | with_reducible apply elapse_keeps
    | with_reducible apply emit_keeps
    | with_reducible apply modArc_keeps
    | with_reducible apply releaseHeld_keeps
    | with_reducible apply showArc_keeps
    | with_reducible apply unitStored_keeps
    | exact Nat.le_refl _
    | split
    | with_reducible refine Keeps.of_fst ?_ (by assumption))

end Sys2Proof.Laws
end

