-- ==== Sys2Proof/Laws/Keeps/Provenance.lean ====
section
/-! SUPPORT. What the operations and meanings of Machine/Provenance.lean keep (`Keeps`). -/

set_option linter.unreachableTactic false
set_option linter.unusedTactic false
set_option linter.unusedVariables false

namespace Sys2Proof.Laws

open Sys2Proof.Machine

theorem modPrv_keeps {s₀ s : State} (h : Keeps s₀ s) (f : PrvSt → PrvSt) :
    Keeps s₀ (State.modPrv s f) := by
  unfold State.modPrv
  try dsimp only
  repeat' (first
    | with_reducible intro _
    | with_reducible assumption
    | with_reducible apply keeps_ite
    | exact Nat.le_refl _
    | split
    | with_reducible refine Keeps.of_fst ?_ (by assumption)
    | with_reducible refine keeps_mk ?_ rfl rfl rfl rfl (Nat.le_refl _))

theorem showRdwin_keeps {s₀ s : State} (h : Keeps s₀ s) :
    Keeps s₀ (State.showRdwin s) := by
  unfold State.showRdwin
  try dsimp only
  repeat' (first
    | with_reducible intro _
    | with_reducible assumption
    | with_reducible apply keeps_ite
    | with_reducible apply wrBytes_keeps
    | exact Nat.le_refl _
    | split
    | with_reducible refine Keeps.of_fst ?_ (by assumption))

theorem showPrv_keeps {s₀ s : State} (h : Keeps s₀ s) :
    Keeps s₀ (State.showPrv s) := by
  unfold State.showPrv
  try dsimp only
  repeat' (first
    | with_reducible intro _
    | with_reducible assumption
    | with_reducible apply keeps_ite
    | with_reducible apply setF_keeps
    | with_reducible apply showRdwin_keeps
    | with_reducible apply wr64_keeps
    | exact Nat.le_refl _
    | split
    | with_reducible refine Keeps.of_fst ?_ (by assumption))

theorem prvTake_keeps {s₀ s : State} (h : Keeps s₀ s) (r : PrvRec) (flags : Nat) :
    Keeps s₀ (State.prvTake s r flags) := by
  unfold State.prvTake
  try dsimp only
  repeat' (first
    | with_reducible intro _
    | with_reducible assumption
    | with_reducible apply keeps_ite
    | with_reducible apply inc64_keeps
    | with_reducible apply modPrv_keeps
    | with_reducible apply showPrv_keeps
    | with_reducible apply wr64_keeps
    | exact Nat.le_refl _
    | split
    | with_reducible refine Keeps.of_fst ?_ (by assumption)
    | with_reducible refine keeps_mk ?_ rfl rfl rfl rfl (Nat.le_refl _))

theorem prvRing_keeps {s₀ s : State} (h : Keeps s₀ s) (q : Nat) :
    Keeps s₀ (State.prvRing s q) := by
  unfold State.prvRing
  try dsimp only
  repeat' (first
    | with_reducible intro _
    | with_reducible assumption
    | with_reducible apply keeps_ite
    | with_reducible apply complete_keeps
    | with_reducible apply headLeaves_keeps
    | with_reducible apply inc64_keeps
    | with_reducible apply prvTake_keeps
    | with_reducible apply takeHead_keeps
    | exact Nat.le_refl _
    | split
    | with_reducible refine Keeps.of_fst ?_ (by assumption))

theorem execPrvRecordPost_keeps {s₀ s : State} (h : Keeps s₀ s) (dt : Nat) (src : PrvSource) :
    KeepsOut s₀ (Machine.execPrvRecordPost dt src s) := by
  unfold Machine.execPrvRecordPost
  try dsimp only
  repeat' (first
    | with_reducible intro _
    | with_reducible assumption
    | with_reducible apply keepsOut_next
    | with_reducible apply keepsOut_fault
    | with_reducible apply keepsOut_ite
    | with_reducible apply keeps_ite
    | with_reducible apply elapse_keeps
    | with_reducible apply modPrv_keeps
    | with_reducible apply prvRing_keeps
    | with_reducible apply prvTake_keeps
    | exact Nat.le_refl _
    | split
    | with_reducible refine Keeps.of_fst ?_ (by assumption))

theorem execPrvModuleRecord_keeps {s₀ s : State} (h : Keeps s₀ s) (dt : Nat) (r : PrvRec) :
    KeepsOut s₀ (Machine.execPrvModuleRecord dt r s) := by
  unfold Machine.execPrvModuleRecord
  try dsimp only
  repeat' (first
    | with_reducible intro _
    | with_reducible assumption
    | with_reducible apply keepsOut_next
    | with_reducible apply keepsOut_fault
    | with_reducible apply keepsOut_ite
    | with_reducible apply keeps_ite
    | with_reducible apply elapse_keeps
    | with_reducible apply prvOffer_keeps
    | exact Nat.le_refl _
    | split
    | with_reducible refine Keeps.of_fst ?_ (by assumption)
    | with_reducible refine keeps_mk ?_ rfl rfl rfl rfl (Nat.le_refl _))

theorem execPrvCommit_keeps {s₀ s : State} (h : Keeps s₀ s) (dt : Nat) :
    KeepsOut s₀ (Machine.execPrvCommit dt s) := by
  unfold Machine.execPrvCommit
  try dsimp only
  repeat' (first
    | with_reducible intro _
    | with_reducible assumption
    | with_reducible apply keepsOut_next
    | with_reducible apply keepsOut_fault
    | with_reducible apply keepsOut_ite
    | with_reducible apply keeps_ite
    | with_reducible apply elapse_keeps
    | with_reducible apply modPrv_keeps
    | with_reducible apply showPrv_keeps
    | exact Nat.le_refl _
    | split
    | with_reducible refine Keeps.of_fst ?_ (by assumption)
    | with_reducible refine keeps_mk ?_ rfl rfl rfl rfl (Nat.le_refl _))

theorem rdSeqWrite_keeps {s₀ s : State} (h : Keeps s₀ s) (seq : Nat) :
    Keeps s₀ (State.rdSeqWrite s seq) := by
  unfold State.rdSeqWrite
  try dsimp only
  repeat' (first
    | with_reducible intro _
    | with_reducible assumption
    | with_reducible apply keeps_ite
    | with_reducible apply showRdwin_keeps
    | with_reducible apply wr64_keeps
    | exact Nat.le_refl _
    | split
    | with_reducible refine Keeps.of_fst ?_ (by assumption))

theorem execPrvRdseqWrite_keeps {s₀ s : State} (h : Keeps s₀ s) (dt : Nat) (req : Requester) (seq : BitVec 64) :
    KeepsOut s₀ (Machine.execPrvRdseqWrite dt req seq s) := by
  unfold Machine.execPrvRdseqWrite
  try dsimp only
  repeat' (first
    | with_reducible intro _
    | with_reducible assumption
    | with_reducible apply keepsOut_next
    | with_reducible apply keepsOut_fault
    | with_reducible apply keepsOut_ite
    | with_reducible apply keeps_ite
    | with_reducible apply elapse_keeps
    | with_reducible apply rdSeqWrite_keeps
    | with_reducible apply regCmd_keeps
    | exact Nat.le_refl _
    | split
    | with_reducible refine Keeps.of_fst ?_ (by assumption))

end Sys2Proof.Laws
end

