-- ==== Sys2Proof/Laws/Keeps/Custody.lean ====
section
/-! SUPPORT. What the operations and meanings of Machine/Custody.lean keep (`Keeps`). -/

set_option linter.unreachableTactic false
set_option linter.unusedTactic false
set_option linter.unusedVariables false

namespace Sys2Proof.Laws

open Sys2Proof.Machine

theorem flushCopies_keeps {s₀ s : State} (h : Keeps s₀ s) :
    Keeps s₀ (State.flushCopies s) := by
  unfold State.flushCopies
  try dsimp only
  repeat' (first
    | with_reducible intro _
    | with_reducible assumption
    | with_reducible apply keeps_ite
    | dsimp only
    | with_reducible apply keeps_ite_fst
    | with_reducible apply keeps_foldl_fst
    | with_reducible apply keeps_foldl
    | with_reducible apply add64_keeps
    | exact Nat.le_refl _
    | split
    | with_reducible refine Keeps.of_fst ?_ (by assumption)
    | with_reducible refine keeps_mk ?_ rfl rfl rfl rfl (Nat.le_refl _))

theorem flushSerial_keeps {s₀ s : State} (h : Keeps s₀ s) :
    Keeps s₀ (State.flushSerial s) := by
  unfold State.flushSerial
  try dsimp only
  repeat' (first
    | with_reducible intro _
    | with_reducible assumption
    | with_reducible apply keeps_ite
    | with_reducible apply keeps_foldl
    | with_reducible apply inc64_keeps
    | exact Nat.le_refl _
    | split
    | with_reducible refine Keeps.of_fst ?_ (by assumption)
    | with_reducible refine keeps_mk ?_ rfl rfl rfl rfl (Nat.le_refl _))

theorem stopRefresh_keeps {s₀ s : State} (h : Keeps s₀ s) :
    Keeps s₀ (State.stopRefresh s) := by
  unfold State.stopRefresh
  try dsimp only
  repeat' (first
    | with_reducible intro _
    | with_reducible assumption
    | with_reducible apply keeps_ite
    | dsimp only
    | with_reducible apply keeps_ite_fst
    | with_reducible apply keeps_foldl_fst
    | exact Nat.le_refl _
    | split
    | with_reducible refine Keeps.of_fst ?_ (by assumption)
    | with_reducible refine keeps_mk ?_ rfl rfl rfl rfl (Nat.le_refl _))

theorem custodyGone_keeps {s₀ s : State} (h : Keeps s₀ s) :
    Keeps s₀ (State.custodyGone s) := by
  unfold State.custodyGone
  try dsimp only
  repeat' (first
    | with_reducible intro _
    | with_reducible assumption
    | with_reducible apply keeps_ite
    | with_reducible apply flushCopies_keeps
    | with_reducible apply flushSerial_keeps
    | with_reducible apply setB_keeps
    | exact Nat.le_refl _
    | split
    | with_reducible refine Keeps.of_fst ?_ (by assumption))

theorem loanWatch_keeps {s₀ s : State} (h : Keeps s₀ s) :
    Keeps s₀ (State.loanWatch s) := by
  unfold State.loanWatch
  try dsimp only
  repeat' (first
    | with_reducible intro _
    | with_reducible assumption
    | with_reducible apply keeps_ite
    | exact Nat.le_refl _
    | split
    | with_reducible refine Keeps.of_fst ?_ (by assumption)
    | with_reducible refine keeps_mk ?_ rfl rfl rfl rfl (Nat.le_refl _))

theorem setRole_keeps {s₀ s : State} (h : Keeps s₀ s) (r : Nat) :
    Keeps s₀ (State.setRole s r) := by
  unfold State.setRole
  try dsimp only
  repeat' (first
    | with_reducible intro _
    | with_reducible assumption
    | with_reducible apply keeps_ite
    | with_reducible apply loanWatch_keeps
    | with_reducible apply setB_keeps
    | with_reducible apply setF_keeps
    | exact Nat.le_refl _
    | split
    | with_reducible refine Keeps.of_fst ?_ (by assumption))

theorem releaseCustody_keeps {s₀ s : State} (h : Keeps s₀ s) (cause newRole : Nat) :
    Keeps s₀ (State.releaseCustody s cause newRole) := by
  unfold State.releaseCustody
  try dsimp only
  repeat' (first
    | with_reducible intro _
    | with_reducible assumption
    | with_reducible apply keeps_ite
    | with_reducible apply custodyGone_keeps
    | with_reducible apply emit_keeps
    | with_reducible apply inc64_keeps
    | with_reducible apply setRole_keeps
    | with_reducible apply stopRefresh_keeps
    | exact Nat.le_refl _
    | split
    | with_reducible refine Keeps.of_fst ?_ (by assumption)
    | with_reducible refine keeps_mk ?_ rfl rfl rfl rfl (Nat.le_refl _))

theorem startDone_keeps {s₀ s : State} (h : Keeps s₀ s) :
    Keeps s₀ (State.startDone s) := by
  unfold State.startDone
  try dsimp only
  repeat' (first
    | with_reducible intro _
    | with_reducible assumption
    | with_reducible apply keeps_ite
    | with_reducible apply setF_keeps
    | exact Nat.le_refl _
    | split
    | with_reducible refine Keeps.of_fst ?_ (by assumption)
    | with_reducible refine keeps_mk ?_ rfl rfl rfl rfl (Nat.le_refl _))

theorem reintEnds_keeps {s₀ s : State} (h : Keeps s₀ s) :
    Keeps s₀ (State.reintEnds s) := by
  unfold State.reintEnds
  try dsimp only
  repeat' (first
    | with_reducible intro _
    | with_reducible assumption
    | with_reducible apply keeps_ite
    | with_reducible apply inc64_keeps
    | exact Nat.le_refl _
    | split
    | with_reducible refine Keeps.of_fst ?_ (by assumption)
    | with_reducible refine keeps_mk ?_ rfl rfl rfl rfl (Nat.le_refl _))

theorem triadSafe_keeps {s₀ s : State} (h : Keeps s₀ s) (cause reason : Nat) :
    Keeps s₀ (State.triadSafe s cause reason) := by
  unfold State.triadSafe
  try dsimp only
  repeat' (first
    | with_reducible intro _
    | with_reducible assumption
    | with_reducible apply keeps_ite
    | with_reducible apply emit_keeps
    | with_reducible apply reintEnds_keeps
    | with_reducible apply releaseCustody_keeps
    | with_reducible apply setB_keeps
    | with_reducible apply setF_keeps
    | with_reducible apply wr_keeps
    | exact Nat.le_refl _
    | split
    | with_reducible refine Keeps.of_fst ?_ (by assumption)
    | with_reducible refine keeps_mk ?_ rfl rfl rfl rfl (Nat.le_refl _))

end Sys2Proof.Laws
end

