-- ==== Sys2Proof/Laws/Keeps/Catalogue.lean ====
section
/-! SUPPORT. What the operations and meanings of Machine/Catalogue.lean keep (`Keeps`). -/

set_option linter.unreachableTactic false
set_option linter.unusedTactic false
set_option linter.unusedVariables false

namespace Sys2Proof.Laws

open Sys2Proof.Machine

theorem modCat_keeps {s₀ s : State} (h : Keeps s₀ s) (b : CatBlk) (f : CatSt → CatSt) :
    Keeps s₀ (State.modCat s b f) := by
  unfold State.modCat
  try dsimp only
  repeat' (first
    | with_reducible intro _
    | with_reducible assumption
    | with_reducible apply keeps_ite
    | exact Nat.le_refl _
    | split
    | with_reducible refine Keeps.of_fst ?_ (by assumption)
    | with_reducible refine keeps_mk ?_ rfl rfl rfl rfl (Nat.le_refl _))

theorem catErr_keeps {s₀ s : State} (h : Keeps s₀ s) (b : CatBlk) :
    Keeps s₀ (State.catErr s b) := by
  unfold State.catErr
  try dsimp only
  repeat' (first
    | with_reducible intro _
    | with_reducible assumption
    | with_reducible apply keeps_ite
    | with_reducible apply inc64_keeps
    | exact Nat.le_refl _
    | split
    | with_reducible refine Keeps.of_fst ?_ (by assumption))

theorem catEnable_keeps {s₀ s : State} (h : Keeps s₀ s) (b : CatBlk) :
    Keeps s₀ (State.catEnable s b) := by
  unfold State.catEnable
  try dsimp only
  repeat' (first
    | with_reducible intro _
    | with_reducible assumption
    | with_reducible apply keeps_ite
    | dsimp only
    | with_reducible apply keeps_ite_fst
    | with_reducible apply keeps_foldl_fst
    | with_reducible apply keeps_foldl
    | with_reducible apply add64_keeps
    | with_reducible apply modCat_keeps
    | with_reducible apply wr_keeps
    | exact Nat.le_refl _
    | split
    | with_reducible refine Keeps.of_fst ?_ (by assumption))

theorem catDisable_keeps {s₀ s : State} (h : Keeps s₀ s) (b : CatBlk) :
    Keeps s₀ (State.catDisable s b) := by
  unfold State.catDisable
  try dsimp only
  repeat' (first
    | with_reducible intro _
    | with_reducible assumption
    | with_reducible apply keeps_ite
    | with_reducible apply modCat_keeps
    | with_reducible apply wr_keeps
    | exact Nat.le_refl _
    | split
    | with_reducible refine Keeps.of_fst ?_ (by assumption))

theorem catInvalidate_keeps {s₀ s : State} (h : Keeps s₀ s) (k : Cls) (b : CatBlk) (i : Nat) :
    Keeps s₀ (State.catInvalidate s k b i) := by
  unfold State.catInvalidate
  try dsimp only
  repeat' (first
    | with_reducible intro _
    | with_reducible assumption
    | with_reducible apply keeps_ite
    | with_reducible apply catErr_keeps
    | with_reducible apply inc64_keeps
    | with_reducible apply modCat_keeps
    | exact Nat.le_refl _
    | split
    | with_reducible refine Keeps.of_fst ?_ (by assumption))

theorem catReadDone_keeps {s₀ s : State} (h : Keeps s₀ s) (b : CatBlk) (i : Nat) (ended : ReadEnd) :
    Keeps s₀ (State.catReadDone s b i ended) := by
  unfold State.catReadDone
  try dsimp only
  repeat' (first
    | with_reducible intro _
    | with_reducible assumption
    | with_reducible apply keeps_ite
    | with_reducible apply catErr_keeps
    | with_reducible apply modCat_keeps
    | with_reducible apply readLeaves_keeps
    | exact Nat.le_refl _
    | split
    | with_reducible refine Keeps.of_fst ?_ (by assumption)
    | with_reducible refine keeps_mk ?_ rfl rfl rfl rfl (Nat.le_refl _))

theorem catEdge_keeps {s₀ s : State} (h : Keeps s₀ s) (b : CatBlk) :
    Keeps s₀ (State.catEdge s b).1 := by
  unfold State.catEdge
  try dsimp only
  repeat' (first
    | with_reducible intro _
    | with_reducible assumption
    | with_reducible apply keeps_ite
    | dsimp only
    | with_reducible apply keeps_ite_fst
    | with_reducible apply keeps_foldl_fst
    | with_reducible apply keeps_foldl
    | with_reducible apply modCat_keeps
    | with_reducible apply wr_keeps
    | exact Nat.le_refl _
    | split
    | with_reducible refine Keeps.of_fst ?_ (by assumption))

theorem execCatalogueStagingReadDone_keeps {s₀ s : State} (h : Keeps s₀ s) (dt : Nat) (blk : CatBlk) (index : Nat) (ended : ReadEnd) :
    KeepsOut s₀ (Machine.execCatalogueStagingReadDone dt blk index ended s) := by
  unfold Machine.execCatalogueStagingReadDone
  try dsimp only
  repeat' (first
    | with_reducible intro _
    | with_reducible assumption
    | with_reducible apply keepsOut_next
    | with_reducible apply keepsOut_fault
    | with_reducible apply keepsOut_ite
    | with_reducible apply keeps_ite
    | with_reducible apply catReadDone_keeps
    | with_reducible apply elapse_keeps
    | exact Nat.le_refl _
    | split
    | with_reducible refine Keeps.of_fst ?_ (by assumption))

theorem execCatalogueEnableWrite_keeps {s₀ s : State} (h : Keeps s₀ s) (dt : Nat) (req : Requester) (blk : CatBlk) :
    KeepsOut s₀ (Machine.execCatalogueEnableWrite dt req blk s) := by
  unfold Machine.execCatalogueEnableWrite
  try dsimp only
  repeat' (first
    | with_reducible intro _
    | with_reducible assumption
    | with_reducible apply keepsOut_next
    | with_reducible apply keepsOut_fault
    | with_reducible apply keepsOut_ite
    | with_reducible apply keeps_ite
    | with_reducible apply catEnable_keeps
    | with_reducible apply elapse_keeps
    | with_reducible apply regCmd_keeps
    | exact Nat.le_refl _
    | split
    | with_reducible refine Keeps.of_fst ?_ (by assumption))

end Sys2Proof.Laws
end

