-- ==== Sys2Proof/Laws/Keeps/Garnet.lean ====
section
/-! SUPPORT. What the operations and meanings of Machine/Garnet.lean keep (`Keeps`). -/

set_option linter.unreachableTactic false
set_option linter.unusedTactic false
set_option linter.unusedVariables false

namespace Sys2Proof.Laws

open Sys2Proof.Machine

theorem modGar_keeps {s₀ s : State} (h : Keeps s₀ s) (f : GarSt → GarSt) :
    Keeps s₀ (State.modGar s f) := by
  unfold State.modGar
  try dsimp only
  repeat' (first
    | with_reducible intro _
    | with_reducible assumption
    | with_reducible apply keeps_ite
    | exact Nat.le_refl _
    | split
    | with_reducible refine Keeps.of_fst ?_ (by assumption)
    | with_reducible refine keeps_mk ?_ rfl rfl rfl rfl (Nat.le_refl _))

theorem modPair_keeps {s₀ s : State} (h : Keeps s₀ s) (x : Nat) (f : GarPair → GarPair) :
    Keeps s₀ (State.modPair s x f) := by
  unfold State.modPair
  try dsimp only
  repeat' (first
    | with_reducible intro _
    | with_reducible assumption
    | with_reducible apply keeps_ite
    | with_reducible apply modGar_keeps
    | exact Nat.le_refl _
    | split
    | with_reducible refine Keeps.of_fst ?_ (by assumption))

theorem modInst_keeps {s₀ s : State} (h : Keeps s₀ s) (j : Nat) (f : GarInst → GarInst) :
    Keeps s₀ (State.modInst s j f) := by
  unfold State.modInst
  try dsimp only
  repeat' (first
    | with_reducible intro _
    | with_reducible assumption
    | with_reducible apply keeps_ite
    | with_reducible apply modGar_keeps
    | exact Nat.le_refl _
    | split
    | with_reducible refine Keeps.of_fst ?_ (by assumption))

theorem discTrack_keeps {s₀ s : State} (h : Keeps s₀ s) (k : Nat) :
    Keeps s₀ (State.discTrack s k) := by
  unfold State.discTrack
  try dsimp only
  repeat' (first
    | with_reducible intro _
    | with_reducible assumption
    | with_reducible apply keeps_ite
    | with_reducible apply modGar_keeps
    | exact Nat.le_refl _
    | split
    | with_reducible refine Keeps.of_fst ?_ (by assumption))

theorem garShow_keeps {s₀ s : State} (h : Keeps s₀ s) :
    Keeps s₀ (State.garShow s) := by
  unfold State.garShow
  try dsimp only
  repeat' (first
    | with_reducible intro _
    | with_reducible assumption
    | with_reducible apply keeps_ite
    | with_reducible apply keeps_foldl
    | with_reducible apply setB_keeps
    | with_reducible apply setF_keeps
    | exact Nat.le_refl _
    | split
    | with_reducible refine Keeps.of_fst ?_ (by assumption))

theorem setResult_keeps {s₀ s : State} (h : Keeps s₀ s) (j : Nat) (r : Bool) (st : Nat) :
    Keeps s₀ (State.setResult s j r st) := by
  unfold State.setResult
  try dsimp only
  repeat' (first
    | with_reducible intro _
    | with_reducible assumption
    | with_reducible apply keeps_ite
    | with_reducible apply setB_keeps
    | with_reducible apply setF_keeps
    | exact Nat.le_refl _
    | split
    | with_reducible refine Keeps.of_fst ?_ (by assumption))

theorem openPair_keeps {s₀ s : State} (h : Keeps s₀ s) (x : Nat) :
    Keeps s₀ (State.openPair s x) := by
  unfold State.openPair
  try dsimp only
  repeat' (first
    | with_reducible intro _
    | with_reducible assumption
    | with_reducible apply keeps_ite
    | with_reducible apply modPair_keeps
    | exact Nat.le_refl _
    | split
    | with_reducible refine Keeps.of_fst ?_ (by assumption))

theorem closePair_keeps {s₀ s : State} (h : Keeps s₀ s) (x j : Nat) :
    Keeps s₀ (State.closePair s x j) := by
  unfold State.closePair
  try dsimp only
  repeat' (first
    | with_reducible intro _
    | with_reducible assumption
    | with_reducible apply keeps_ite
    | with_reducible apply modPair_keeps
    | exact Nat.le_refl _
    | split
    | with_reducible refine Keeps.of_fst ?_ (by assumption))

theorem endHold_keeps {s₀ s : State} (h : Keeps s₀ s) (x reason : Nat) :
    Keeps s₀ (State.endHold s x reason) := by
  unfold State.endHold
  try dsimp only
  repeat' (first
    | with_reducible intro _
    | with_reducible assumption
    | with_reducible apply keeps_ite
    | with_reducible apply emit_keeps
    | with_reducible apply modPair_keeps
    | with_reducible apply openPair_keeps
    | exact Nat.le_refl _
    | split
    | with_reducible refine Keeps.of_fst ?_ (by assumption))

theorem endTest_keeps {s₀ s : State} (h : Keeps s₀ s) (x res : Nat) :
    Keeps s₀ (State.endTest s x res) := by
  unfold State.endTest
  try dsimp only
  repeat' (first
    | with_reducible intro _
    | with_reducible assumption
    | with_reducible apply keeps_ite
    | with_reducible apply emit_keeps
    | with_reducible apply setF_keeps
    | exact Nat.le_refl _
    | split
    | with_reducible refine Keeps.of_fst ?_ (by assumption))

theorem lockInst_keeps {s₀ s : State} (h : Keeps s₀ s) (j : Nat) :
    Keeps s₀ (State.lockInst s j) := by
  unfold State.lockInst
  try dsimp only
  repeat' (first
    | with_reducible intro _
    | with_reducible assumption
    | with_reducible apply keeps_ite
    | with_reducible apply endHold_keeps
    | with_reducible apply inc64_keeps
    | with_reducible apply openPair_keeps
    | with_reducible apply setF_keeps
    | with_reducible apply setResult_keeps
    | exact Nat.le_refl _
    | split
    | with_reducible refine Keeps.of_fst ?_ (by assumption))

theorem garFault_keeps {s₀ s : State} (h : Keeps s₀ s) (j bit_ : Nat) :
    Keeps s₀ (State.garFault s j bit_) := by
  unfold State.garFault
  try dsimp only
  repeat' (first
    | with_reducible intro _
    | with_reducible assumption
    | with_reducible apply keeps_ite
    | with_reducible apply emit_keeps
    | with_reducible apply lockInst_keeps
    | with_reducible apply setF_keeps
    | exact Nat.le_refl _
    | split
    | with_reducible refine Keeps.of_fst ?_ (by assumption))

theorem endSession_keeps {s₀ s : State} (h : Keeps s₀ s) :
    Keeps s₀ (State.endSession s) := by
  unfold State.endSession
  try dsimp only
  repeat' (first
    | with_reducible intro _
    | with_reducible assumption
    | with_reducible apply keeps_ite
    | with_reducible apply modGar_keeps
    | with_reducible apply setB_keeps
    | exact Nat.le_refl _
    | split
    | with_reducible refine Keeps.of_fst ?_ (by assumption))

theorem garGlobal_keeps {s₀ s : State} (h : Keeps s₀ s) (bit_ : Nat) :
    Keeps s₀ (State.garGlobal s bit_) := by
  unfold State.garGlobal
  try dsimp only
  repeat' (first
    | with_reducible intro _
    | with_reducible assumption
    | with_reducible apply keeps_ite
    | with_reducible apply keeps_foldl
    | with_reducible apply emit_keeps
    | with_reducible apply endHold_keeps
    | with_reducible apply endSession_keeps
    | with_reducible apply lockInst_keeps
    | with_reducible apply modGar_keeps
    | with_reducible apply openPair_keeps
    | with_reducible apply setF_keeps
    | exact Nat.le_refl _
    | split
    | with_reducible refine Keeps.of_fst ?_ (by assumption))

theorem evalTo_keeps {s₀ s : State} (h : Keeps s₀ s) (j : Nat) (r : Bool) (st : Nat) :
    Keeps s₀ (State.evalTo s j r st) := by
  unfold State.evalTo
  try dsimp only
  repeat' (first
    | with_reducible intro _
    | with_reducible assumption
    | with_reducible apply keeps_ite
    | with_reducible apply emit_keeps
    | with_reducible apply setResult_keeps
    | exact Nat.le_refl _
    | split
    | with_reducible refine Keeps.of_fst ?_ (by assumption))

theorem evalStop_keeps {s₀ s : State} (h : Keeps s₀ s) (j : Nat) :
    Keeps s₀ (State.evalStop s j) := by
  unfold State.evalStop
  try dsimp only
  repeat' (first
    | with_reducible intro _
    | with_reducible assumption
    | with_reducible apply keeps_ite
    | with_reducible apply evalTo_keeps
    | with_reducible apply modInst_keeps
    | exact Nat.le_refl _
    | split
    | with_reducible refine Keeps.of_fst ?_ (by assumption))

theorem doorTrack_keeps {s₀ s : State} (h : Keeps s₀ s) (j : Nat) :
    Keeps s₀ (State.doorTrack s j) := by
  unfold State.doorTrack
  try dsimp only
  repeat' (first
    | with_reducible intro _
    | with_reducible assumption
    | with_reducible apply keeps_ite
    | with_reducible apply garFault_keeps
    | with_reducible apply modInst_keeps
    | exact Nat.le_refl _
    | split
    | with_reducible refine Keeps.of_fst ?_ (by assumption))

theorem evalDoor_keeps {s₀ s : State} (h : Keeps s₀ s) (j : Nat) :
    Keeps s₀ (State.evalDoor s j) := by
  unfold State.evalDoor
  try dsimp only
  repeat' (first
    | with_reducible intro _
    | with_reducible assumption
    | with_reducible apply keeps_ite
    | with_reducible apply doorTrack_keeps
    | with_reducible apply evalTo_keeps
    | exact Nat.le_refl _
    | split
    | with_reducible refine Keeps.of_fst ?_ (by assumption))

theorem evalHands_keeps {s₀ s : State} (h : Keeps s₀ s) (j : Nat) :
    Keeps s₀ (State.evalHands s j) := by
  unfold State.evalHands
  try dsimp only
  repeat' (first
    | with_reducible intro _
    | with_reducible assumption
    | with_reducible apply keeps_ite
    | with_reducible apply evalTo_keeps
    | with_reducible apply modInst_keeps
    | exact Nat.le_refl _
    | split
    | with_reducible refine Keeps.of_fst ?_ (by assumption))

theorem evalInst_keeps {s₀ s : State} (h : Keeps s₀ s) (j : Nat) :
    Keeps s₀ (State.evalInst s j) := by
  unfold State.evalInst
  try dsimp only
  repeat' (first
    | with_reducible intro _
    | with_reducible assumption
    | with_reducible apply keeps_ite
    | with_reducible apply doorTrack_keeps
    | with_reducible apply evalDoor_keeps
    | with_reducible apply evalHands_keeps
    | with_reducible apply evalStop_keeps
    | with_reducible apply evalTo_keeps
    | exact Nat.le_refl _
    | split
    | with_reducible refine Keeps.of_fst ?_ (by assumption))

theorem evalTest_keeps {s₀ s : State} (h : Keeps s₀ s) (x j : Nat) (t : GarTest) :
    Keeps s₀ (State.evalTest s x j t) := by
  unfold State.evalTest
  try dsimp only
  repeat' (first
    | with_reducible intro _
    | with_reducible assumption
    | with_reducible apply keeps_ite
    | with_reducible apply endTest_keeps
    | with_reducible apply garFault_keeps
    | with_reducible apply modPair_keeps
    | with_reducible apply setF_keeps
    | exact Nat.le_refl _
    | split
    | with_reducible refine Keeps.of_fst ?_ (by assumption)
    | with_reducible refine keeps_mk ?_ rfl rfl rfl rfl (Nat.le_refl _))

theorem evalSbc_keeps {s₀ s : State} (h : Keeps s₀ s) (j : Nat) :
    Keeps s₀ (State.evalSbc s j) := by
  unfold State.evalSbc
  try dsimp only
  repeat' (first
    | with_reducible intro _
    | with_reducible assumption
    | with_reducible apply keeps_ite
    | with_reducible apply closePair_keeps
    | with_reducible apply endHold_keeps
    | with_reducible apply evalTest_keeps
    | with_reducible apply modPair_keeps
    | with_reducible apply openPair_keeps
    | with_reducible apply setResult_keeps
    | exact Nat.le_refl _
    | split
    | with_reducible refine Keeps.of_fst ?_ (by assumption))

theorem custFall_keeps {s₀ s : State} (h : Keeps s₀ s) :
    Keeps s₀ (State.custFall s) := by
  unfold State.custFall
  try dsimp only
  repeat' (first
    | with_reducible intro _
    | with_reducible assumption
    | with_reducible apply keeps_ite
    | with_reducible apply keeps_foldl
    | with_reducible apply emit_keeps
    | with_reducible apply inc64_keeps
    | with_reducible apply modPair_keeps
    | with_reducible apply openPair_keeps
    | with_reducible apply setB_keeps
    | exact Nat.le_refl _
    | split
    | with_reducible refine Keeps.of_fst ?_ (by assumption))

theorem garEval_keeps {s₀ s : State} (h : Keeps s₀ s) (sn : GarnetSense) :
    Keeps s₀ (State.garEval s sn) := by
  unfold State.garEval
  try dsimp only
  repeat' (first
    | with_reducible intro _
    | with_reducible assumption
    | with_reducible apply keeps_ite
    | with_reducible apply keeps_foldl
    | with_reducible apply custFall_keeps
    | with_reducible apply discTrack_keeps
    | with_reducible apply evalInst_keeps
    | with_reducible apply evalSbc_keeps
    | with_reducible apply garFault_keeps
    | with_reducible apply garGlobal_keeps
    | with_reducible apply garShow_keeps
    | with_reducible apply modGar_keeps
    | with_reducible apply setB_keeps
    | with_reducible apply setF_keeps
    | exact Nat.le_refl _
    | split
    | with_reducible refine Keeps.of_fst ?_ (by assumption))

theorem reqFall_keeps {s₀ s : State} (h : Keeps s₀ s) (x : Nat) :
    Keeps s₀ (State.reqFall s x) := by
  unfold State.reqFall
  try dsimp only
  repeat' (first
    | with_reducible intro _
    | with_reducible assumption
    | with_reducible apply keeps_ite
    | with_reducible apply modPair_keeps
    | with_reducible apply setB_keeps
    | with_reducible apply setF_keeps
    | exact Nat.le_refl _
    | split
    | with_reducible refine Keeps.of_fst ?_ (by assumption))

theorem permitLost_keeps {s₀ s : State} (h : Keeps s₀ s) (x : Nat) :
    Keeps s₀ (State.permitLost s x) := by
  unfold State.permitLost
  try dsimp only
  repeat' (first
    | with_reducible intro _
    | with_reducible assumption
    | with_reducible apply keeps_ite
    | with_reducible apply emit_keeps
    | with_reducible apply garFault_keeps
    | with_reducible apply inc64_keeps
    | with_reducible apply modPair_keeps
    | with_reducible apply setF_keeps
    | exact Nat.le_refl _
    | split
    | with_reducible refine Keeps.of_fst ?_ (by assumption)
    | with_reducible refine keeps_mk ?_ rfl rfl rfl rfl (Nat.le_refl _))

theorem permitEdge_keeps {s₀ s : State} (h : Keeps s₀ s) (x : Nat) :
    Keeps s₀ (State.permitEdge s x) := by
  unfold State.permitEdge
  try dsimp only
  repeat' (first
    | with_reducible intro _
    | with_reducible assumption
    | with_reducible apply keeps_ite
    | with_reducible apply modPair_keeps
    | with_reducible apply permitLost_keeps
    | with_reducible apply setF_keeps
    | exact Nat.le_refl _
    | split
    | with_reducible refine Keeps.of_fst ?_ (by assumption))

theorem permitToggleEdge_keeps {s₀ s : State} (h : Keeps s₀ s) :
    Keeps s₀ (State.permitToggleEdge s) := by
  unfold State.permitToggleEdge
  try dsimp only
  repeat' (first
    | with_reducible intro _
    | with_reducible assumption
    | with_reducible apply keeps_ite
    | dsimp only
    | with_reducible apply keeps_ite_fst
    | with_reducible apply keeps_foldl_fst
    | with_reducible apply keeps_foldl
    | with_reducible apply modGar_keeps
    | with_reducible apply modPair_keeps
    | with_reducible apply permitEdge_keeps
    | with_reducible apply reqFall_keeps
    | with_reducible apply setB_keeps
    | with_reducible apply setF_keeps
    | exact Nat.le_refl _
    | split
    | with_reducible refine Keeps.of_fst ?_ (by assumption))

theorem showStaged_keeps {s₀ s : State} (h : Keeps s₀ s) :
    Keeps s₀ (State.showStaged s) := by
  unfold State.showStaged
  try dsimp only
  repeat' (first
    | with_reducible intro _
    | with_reducible assumption
    | with_reducible apply keeps_ite
    | dsimp only
    | with_reducible apply keeps_ite_fst
    | with_reducible apply keeps_foldl_fst
    | with_reducible apply keeps_foldl
    | with_reducible apply setB_keeps
    | exact Nat.le_refl _
    | split
    | with_reducible refine Keeps.of_fst ?_ (by assumption))

theorem startTest_keeps {s₀ s : State} (h : Keeps s₀ s) (x : Nat) :
    Keeps s₀ (State.startTest s x) := by
  unfold State.startTest
  try dsimp only
  repeat' (first
    | with_reducible intro _
    | with_reducible assumption
    | with_reducible apply keeps_ite
    | with_reducible apply endTest_keeps
    | with_reducible apply garShow_keeps
    | with_reducible apply inc64_keeps
    | with_reducible apply modPair_keeps
    | with_reducible apply setF_keeps
    | with_reducible apply setResult_keeps
    | exact Nat.le_refl _
    | split
    | with_reducible refine Keeps.of_fst ?_ (by assumption)
    | with_reducible refine keeps_mk ?_ rfl rfl rfl rfl (Nat.le_refl _))

theorem brakeEdge_keeps {s₀ s : State} (h : Keeps s₀ s) :
    Keeps s₀ (State.brakeEdge s) := by
  unfold State.brakeEdge
  try dsimp only
  repeat' (first
    | with_reducible intro _
    | with_reducible assumption
    | with_reducible apply keeps_ite
    | dsimp only
    | with_reducible apply keeps_ite_fst
    | with_reducible apply keeps_foldl_fst
    | with_reducible apply keeps_foldl
    | with_reducible apply modGar_keeps
    | with_reducible apply startTest_keeps
    | exact Nat.le_refl _
    | split
    | with_reducible refine Keeps.of_fst ?_ (by assumption))

theorem leaveLock_keeps {s₀ s : State} (h : Keeps s₀ s) (j : Nat) :
    Keeps s₀ (State.leaveLock s j) := by
  unfold State.leaveLock
  try dsimp only
  repeat' (first
    | with_reducible intro _
    | with_reducible assumption
    | with_reducible apply keeps_ite
    | with_reducible apply modInst_keeps
    | with_reducible apply modPair_keeps
    | with_reducible apply setF_keeps
    | exact Nat.le_refl _
    | split
    | with_reducible refine Keeps.of_fst ?_ (by assumption))

theorem garReset_keeps {s₀ s : State} (h : Keeps s₀ s) (sn : GarnetSense) :
    Keeps s₀ (State.garReset s sn) := by
  unfold State.garReset
  try dsimp only
  repeat' (first
    | with_reducible intro _
    | with_reducible assumption
    | with_reducible apply keeps_ite
    | dsimp only
    | with_reducible apply keeps_ite_fst
    | with_reducible apply keeps_foldl_fst
    | with_reducible apply keeps_foldl
    | with_reducible apply add64_keeps
    | with_reducible apply emit_keeps
    | with_reducible apply inc64_keeps
    | with_reducible apply leaveLock_keeps
    | with_reducible apply setF_keeps
    | exact Nat.le_refl _
    | split
    | with_reducible refine Keeps.of_fst ?_ (by assumption))

theorem garOff_keeps {s₀ s : State} (h : Keeps s₀ s) :
    Keeps s₀ (State.garOff s) := by
  unfold State.garOff
  try dsimp only
  repeat' (first
    | with_reducible intro _
    | with_reducible assumption
    | with_reducible apply keeps_ite
    | with_reducible apply keeps_foldl
    | with_reducible apply modPair_keeps
    | with_reducible apply setF_keeps
    | exact Nat.le_refl _
    | split
    | with_reducible refine Keeps.of_fst ?_ (by assumption))

theorem garModuleReset_keeps {s₀ s : State} (h : Keeps s₀ s) :
    Keeps s₀ (State.garModuleReset s) := by
  unfold State.garModuleReset
  try dsimp only
  repeat' (first
    | with_reducible intro _
    | with_reducible assumption
    | with_reducible apply keeps_ite
    | with_reducible apply keeps_foldl
    | with_reducible apply endHold_keeps
    | with_reducible apply endSession_keeps
    | with_reducible apply garShow_keeps
    | with_reducible apply modGar_keeps
    | with_reducible apply reqFall_keeps
    | with_reducible apply showStaged_keeps
    | exact Nat.le_refl _
    | split
    | with_reducible refine Keeps.of_fst ?_ (by assumption))

theorem execGarnetSupplyRise_keeps {s₀ s : State} (h : Keeps s₀ s) (dt : Nat) :
    KeepsOut s₀ (Machine.execGarnetSupplyRise dt s) := by
  unfold Machine.execGarnetSupplyRise
  try dsimp only
  repeat' (first
    | with_reducible intro _
    | with_reducible assumption
    | with_reducible apply keepsOut_next
    | with_reducible apply keepsOut_fault
    | with_reducible apply keepsOut_ite
    | with_reducible apply keeps_ite
    | with_reducible apply elapse_keeps
    | with_reducible apply garOff_keeps
    | with_reducible apply garShow_keeps
    | with_reducible apply modGar_keeps
    | with_reducible apply setB_keeps
    | with_reducible apply setF_keeps
    | exact Nat.le_refl _
    | split
    | with_reducible refine Keeps.of_fst ?_ (by assumption))

theorem execGarnetStartupCheckDone_keeps {s₀ s : State} (h : Keeps s₀ s) (dt : Nat) (chk : GarnetCheck) :
    KeepsOut s₀ (Machine.execGarnetStartupCheckDone dt chk s) := by
  unfold Machine.execGarnetStartupCheckDone
  try dsimp only
  repeat' (first
    | with_reducible intro _
    | with_reducible assumption
    | with_reducible apply keepsOut_next
    | with_reducible apply keepsOut_fault
    | with_reducible apply keepsOut_ite
    | with_reducible apply keeps_ite
    | with_reducible apply elapse_keeps
    | with_reducible apply garGlobal_keeps
    | with_reducible apply garShow_keeps
    | with_reducible apply modGar_keeps
    | with_reducible apply setF_keeps
    | exact Nat.le_refl _
    | split
    | with_reducible refine Keeps.of_fst ?_ (by assumption))

theorem execGarnetSupplyLoss_keeps {s₀ s : State} (h : Keeps s₀ s) (dt : Nat) :
    KeepsOut s₀ (Machine.execGarnetSupplyLoss dt s) := by
  unfold Machine.execGarnetSupplyLoss
  try dsimp only
  repeat' (first
    | with_reducible intro _
    | with_reducible assumption
    | with_reducible apply keepsOut_next
    | with_reducible apply keepsOut_fault
    | with_reducible apply keepsOut_ite
    | with_reducible apply keeps_ite
    | with_reducible apply keeps_foldl
    | with_reducible apply elapse_keeps
    | with_reducible apply endSession_keeps
    | with_reducible apply garOff_keeps
    | with_reducible apply garShow_keeps
    | with_reducible apply modGar_keeps
    | with_reducible apply setB_keeps
    | with_reducible apply setResult_keeps
    | exact Nat.le_refl _
    | split
    | with_reducible refine Keeps.of_fst ?_ (by assumption))

theorem execGarnetEvalCycle_keeps {s₀ s : State} (h : Keeps s₀ s) (dt : Nat) (sense : GarnetSense) :
    KeepsOut s₀ (Machine.execGarnetEvalCycle dt sense s) := by
  unfold Machine.execGarnetEvalCycle
  try dsimp only
  repeat' (first
    | with_reducible intro _
    | with_reducible assumption
    | with_reducible apply keepsOut_next
    | with_reducible apply keepsOut_fault
    | with_reducible apply keepsOut_ite
    | with_reducible apply keeps_ite
    | with_reducible apply elapse_keeps
    | with_reducible apply garEval_keeps
    | exact Nat.le_refl _
    | split
    | with_reducible refine Keeps.of_fst ?_ (by assumption))

theorem execSafetyInputFilterExpiry_keeps {s₀ s : State} (h : Keeps s₀ s) (dt : Nat) (input : Fin 8) (chanB level : Bool) :
    KeepsOut s₀ (Machine.execSafetyInputFilterExpiry dt input chanB level s) := by
  unfold Machine.execSafetyInputFilterExpiry
  try dsimp only
  repeat' (first
    | with_reducible intro _
    | with_reducible assumption
    | with_reducible apply keepsOut_next
    | with_reducible apply keepsOut_fault
    | with_reducible apply keepsOut_ite
    | with_reducible apply keeps_ite
    | with_reducible apply discTrack_keeps
    | with_reducible apply elapse_keeps
    | with_reducible apply setF_keeps
    | exact Nat.le_refl _
    | split
    | with_reducible refine Keeps.of_fst ?_ (by assumption))

theorem execDiscrepancyFault_keeps {s₀ s : State} (h : Keeps s₀ s) (dt : Nat) (inst : Fin 8) :
    KeepsOut s₀ (Machine.execDiscrepancyFault dt inst s) := by
  unfold Machine.execDiscrepancyFault
  try dsimp only
  repeat' (first
    | with_reducible intro _
    | with_reducible assumption
    | with_reducible apply keepsOut_next
    | with_reducible apply keepsOut_fault
    | with_reducible apply keepsOut_ite
    | with_reducible apply keeps_ite
    | with_reducible apply elapse_keeps
    | with_reducible apply garFault_keeps
    | with_reducible apply garShow_keeps
    | exact Nat.le_refl _
    | split
    | with_reducible refine Keeps.of_fst ?_ (by assumption))

theorem execTestPulse_keeps {s₀ s : State} (h : Keeps s₀ s) (dt : Nat) (tp : Fin 2) (patternOk : Bool) (reads : BitVec 16) :
    KeepsOut s₀ (Machine.execTestPulse dt tp patternOk reads s) := by
  unfold Machine.execTestPulse
  try dsimp only
  repeat' (first
    | with_reducible intro _
    | with_reducible assumption
    | with_reducible apply keepsOut_next
    | with_reducible apply keepsOut_fault
    | with_reducible apply keepsOut_ite
    | with_reducible apply keeps_ite
    | with_reducible apply keeps_foldl
    | with_reducible apply elapse_keeps
    | with_reducible apply garFault_keeps
    | with_reducible apply garShow_keeps
    | with_reducible apply modGar_keeps
    | exact Nat.le_refl _
    | split
    | with_reducible refine Keeps.of_fst ?_ (by assumption))

theorem execGarnetConfigCheck_keeps {s₀ s : State} (h : Keeps s₀ s) (dt : Nat) (intact : Bool) :
    KeepsOut s₀ (Machine.execGarnetConfigCheck dt intact s) := by
  unfold Machine.execGarnetConfigCheck
  try dsimp only
  repeat' (first
    | with_reducible intro _
    | with_reducible assumption
    | with_reducible apply keepsOut_next
    | with_reducible apply keepsOut_fault
    | with_reducible apply keepsOut_ite
    | with_reducible apply keeps_ite
    | with_reducible apply elapse_keeps
    | with_reducible apply garGlobal_keeps
    | with_reducible apply garShow_keeps
    | exact Nat.le_refl _
    | split
    | with_reducible refine Keeps.of_fst ?_ (by assumption))

theorem ackWrite_keeps {s₀ s : State} (h : Keeps s₀ s) (insts : Nat) :
    Keeps s₀ (State.ackWrite s insts) := by
  unfold State.ackWrite
  try dsimp only
  repeat' (first
    | with_reducible intro _
    | with_reducible assumption
    | with_reducible apply keeps_ite
    | with_reducible apply keeps_foldl
    | with_reducible apply modInst_keeps
    | exact Nat.le_refl _
    | split
    | with_reducible refine Keeps.of_fst ?_ (by assumption))

theorem execGarAckWrite_keeps {s₀ s : State} (h : Keeps s₀ s) (dt : Nat) (req : Requester) (insts : BitVec 8) :
    KeepsOut s₀ (Machine.execGarAckWrite dt req insts s) := by
  unfold Machine.execGarAckWrite
  try dsimp only
  repeat' (first
    | with_reducible intro _
    | with_reducible assumption
    | with_reducible apply keepsOut_next
    | with_reducible apply keepsOut_fault
    | with_reducible apply keepsOut_ite
    | with_reducible apply keeps_ite
    | with_reducible apply ackWrite_keeps
    | with_reducible apply elapse_keeps
    | with_reducible apply regCmd_keeps
    | exact Nat.le_refl _
    | split
    | with_reducible refine Keeps.of_fst ?_ (by assumption))

theorem execOffpulseTest_keeps {s₀ s : State} (h : Keeps s₀ s) (dt : Nat) (pair : Fin 4) (side : PairSide) :
    KeepsOut s₀ (Machine.execOffpulseTest dt pair side s) := by
  unfold Machine.execOffpulseTest
  try dsimp only
  repeat' (first
    | with_reducible intro _
    | with_reducible assumption
    | with_reducible apply keepsOut_next
    | with_reducible apply keepsOut_fault
    | with_reducible apply keepsOut_ite
    | with_reducible apply keeps_ite
    | with_reducible apply elapse_keeps
    | with_reducible apply garShow_keeps
    | with_reducible apply inc64_keeps
    | with_reducible apply modPair_keeps
    | exact Nat.le_refl _
    | split
    | with_reducible refine Keeps.of_fst ?_ (by assumption))

theorem execOffpulsePulseEnd_keeps {s₀ s : State} (h : Keeps s₀ s) (dt : Nat) (pair : Fin 4) (fell : Bool) :
    KeepsOut s₀ (Machine.execOffpulsePulseEnd dt pair fell s) := by
  unfold Machine.execOffpulsePulseEnd
  try dsimp only
  repeat' (first
    | with_reducible intro _
    | with_reducible assumption
    | with_reducible apply keepsOut_next
    | with_reducible apply keepsOut_fault
    | with_reducible apply keepsOut_ite
    | with_reducible apply keeps_ite
    | with_reducible apply elapse_keeps
    | with_reducible apply garFault_keeps
    | with_reducible apply garShow_keeps
    | with_reducible apply modPair_keeps
    | exact Nat.le_refl _
    | split
    | with_reducible refine Keeps.of_fst ?_ (by assumption))

theorem execOutputOverload_keeps {s₀ s : State} (h : Keeps s₀ s) (dt : Nat) (pair : Fin 4) (kind : OutputFault) :
    KeepsOut s₀ (Machine.execOutputOverload dt pair kind s) := by
  unfold Machine.execOutputOverload
  try dsimp only
  repeat' (first
    | with_reducible intro _
    | with_reducible assumption
    | with_reducible apply keepsOut_next
    | with_reducible apply keepsOut_fault
    | with_reducible apply keepsOut_ite
    | with_reducible apply keeps_ite
    | with_reducible apply elapse_keeps
    | with_reducible apply garFault_keeps
    | with_reducible apply garShow_keeps
    | exact Nat.le_refl _
    | split
    | with_reducible refine Keeps.of_fst ?_ (by assumption))

theorem execFeedbackTimeout_keeps {s₀ s : State} (h : Keeps s₀ s) (dt : Nat) (pair : Fin 4) :
    KeepsOut s₀ (Machine.execFeedbackTimeout dt pair s) := by
  unfold Machine.execFeedbackTimeout
  try dsimp only
  repeat' (first
    | with_reducible intro _
    | with_reducible assumption
    | with_reducible apply keepsOut_next
    | with_reducible apply keepsOut_fault
    | with_reducible apply keepsOut_ite
    | with_reducible apply keeps_ite
    | with_reducible apply elapse_keeps
    | with_reducible apply garFault_keeps
    | with_reducible apply garShow_keeps
    | with_reducible apply modPair_keeps
    | exact Nat.le_refl _
    | split
    | with_reducible refine Keeps.of_fst ?_ (by assumption))

theorem brkTestWrite_keeps {s₀ s : State} (h : Keeps s₀ s) (key pair : Nat) :
    Keeps s₀ (State.brkTestWrite s key pair) := by
  unfold State.brkTestWrite
  try dsimp only
  repeat' (first
    | with_reducible intro _
    | with_reducible assumption
    | with_reducible apply keeps_ite
    | with_reducible apply modGar_keeps
    | exact Nat.le_refl _
    | split
    | with_reducible refine Keeps.of_fst ?_ (by assumption))

theorem execGarBrktestWrite_keeps {s₀ s : State} (h : Keeps s₀ s) (dt : Nat) (req : Requester) (key : Byte) (pair : Fin 4) :
    KeepsOut s₀ (Machine.execGarBrktestWrite dt req key pair s) := by
  unfold Machine.execGarBrktestWrite
  try dsimp only
  repeat' (first
    | with_reducible intro _
    | with_reducible assumption
    | with_reducible apply keepsOut_next
    | with_reducible apply keepsOut_fault
    | with_reducible apply keepsOut_ite
    | with_reducible apply keeps_ite
    | with_reducible apply brkTestWrite_keeps
    | with_reducible apply elapse_keeps
    | with_reducible apply regCmd_keeps
    | exact Nat.le_refl _
    | split
    | with_reducible refine Keeps.of_fst ?_ (by assumption))

theorem execBrakeTestFbTimeout_keeps {s₀ s : State} (h : Keeps s₀ s) (dt : Nat) (pair : Fin 4) :
    KeepsOut s₀ (Machine.execBrakeTestFbTimeout dt pair s) := by
  unfold Machine.execBrakeTestFbTimeout
  try dsimp only
  repeat' (first
    | with_reducible intro _
    | with_reducible assumption
    | with_reducible apply keepsOut_next
    | with_reducible apply keepsOut_fault
    | with_reducible apply keepsOut_ite
    | with_reducible apply keeps_ite
    | with_reducible apply elapse_keeps
    | with_reducible apply endTest_keeps
    | with_reducible apply garFault_keeps
    | with_reducible apply garShow_keeps
    | with_reducible apply modPair_keeps
    | exact Nat.le_refl _
    | split
    | with_reducible refine Keeps.of_fst ?_ (by assumption))

theorem execBrakeTestPass_keeps {s₀ s : State} (h : Keeps s₀ s) (dt : Nat) (pair : Fin 4) :
    KeepsOut s₀ (Machine.execBrakeTestPass dt pair s) := by
  unfold Machine.execBrakeTestPass
  try dsimp only
  repeat' (first
    | with_reducible intro _
    | with_reducible assumption
    | with_reducible apply keepsOut_next
    | with_reducible apply keepsOut_fault
    | with_reducible apply keepsOut_ite
    | with_reducible apply keeps_ite
    | with_reducible apply elapse_keeps
    | with_reducible apply endTest_keeps
    | with_reducible apply garShow_keeps
    | with_reducible apply modPair_keeps
    | with_reducible apply setB_keeps
    | with_reducible apply setF_keeps
    | exact Nat.le_refl _
    | split
    | with_reducible refine Keeps.of_fst ?_ (by assumption))

theorem execBrakeTestAbortEnd_keeps {s₀ s : State} (h : Keeps s₀ s) (dt : Nat) (pair : Fin 4) :
    KeepsOut s₀ (Machine.execBrakeTestAbortEnd dt pair s) := by
  unfold Machine.execBrakeTestAbortEnd
  try dsimp only
  repeat' (first
    | with_reducible intro _
    | with_reducible assumption
    | with_reducible apply keepsOut_next
    | with_reducible apply keepsOut_fault
    | with_reducible apply keepsOut_ite
    | with_reducible apply keeps_ite
    | with_reducible apply elapse_keeps
    | with_reducible apply modPair_keeps
    | with_reducible apply setF_keeps
    | exact Nat.le_refl _
    | split
    | with_reducible refine Keeps.of_fst ?_ (by assumption))

theorem execBrakeTestDue_keeps {s₀ s : State} (h : Keeps s₀ s) (dt : Nat) (pair : Fin 4) :
    KeepsOut s₀ (Machine.execBrakeTestDue dt pair s) := by
  unfold Machine.execBrakeTestDue
  try dsimp only
  repeat' (first
    | with_reducible intro _
    | with_reducible assumption
    | with_reducible apply keepsOut_next
    | with_reducible apply keepsOut_fault
    | with_reducible apply keepsOut_ite
    | with_reducible apply keeps_ite
    | with_reducible apply elapse_keeps
    | with_reducible apply setB_keeps
    | exact Nat.le_refl _
    | split
    | with_reducible refine Keeps.of_fst ?_ (by assumption))

theorem permitWrite_keeps {s₀ s : State} (h : Keeps s₀ s) (seq rel : Nat) :
    Keeps s₀ (State.permitWrite s seq rel) := by
  unfold State.permitWrite
  try dsimp only
  repeat' (first
    | with_reducible intro _
    | with_reducible assumption
    | with_reducible apply keeps_ite
    | dsimp only
    | with_reducible apply keeps_ite_fst
    | with_reducible apply keeps_foldl_fst
    | with_reducible apply inc64_keeps
    | with_reducible apply modGar_keeps
    | with_reducible apply showStaged_keeps
    | exact Nat.le_refl _
    | split
    | with_reducible refine Keeps.of_fst ?_ (by assumption))

theorem execGarPermitWrite_keeps {s₀ s : State} (h : Keeps s₀ s) (dt : Nat) (req : Requester) (seq : Byte) (rel : BitVec 4) :
    KeepsOut s₀ (Machine.execGarPermitWrite dt req seq rel s) := by
  unfold Machine.execGarPermitWrite
  try dsimp only
  repeat' (first
    | with_reducible intro _
    | with_reducible assumption
    | with_reducible apply keepsOut_next
    | with_reducible apply keepsOut_fault
    | with_reducible apply keepsOut_ite
    | with_reducible apply keeps_ite
    | with_reducible apply elapse_keeps
    | with_reducible apply permitWrite_keeps
    | with_reducible apply regCmd_keeps
    | exact Nat.le_refl _
    | split
    | with_reducible refine Keeps.of_fst ?_ (by assumption))

theorem withdrawWrite_keeps {s₀ s : State} (h : Keeps s₀ s) (pairs : Nat) :
    Keeps s₀ (State.withdrawWrite s pairs) := by
  unfold State.withdrawWrite
  try dsimp only
  repeat' (first
    | with_reducible intro _
    | with_reducible assumption
    | with_reducible apply keeps_ite
    | dsimp only
    | with_reducible apply keeps_ite_fst
    | with_reducible apply keeps_foldl_fst
    | with_reducible apply keeps_foldl
    | with_reducible apply endHold_keeps
    | with_reducible apply garShow_keeps
    | with_reducible apply modGar_keeps
    | with_reducible apply reqFall_keeps
    | with_reducible apply showStaged_keeps
    | exact Nat.le_refl _
    | split
    | with_reducible refine Keeps.of_fst ?_ (by assumption))

theorem execGarWithdrawWrite_keeps {s₀ s : State} (h : Keeps s₀ s) (dt : Nat) (req : Requester) (pairs : BitVec 4) :
    KeepsOut s₀ (Machine.execGarWithdrawWrite dt req pairs s) := by
  unfold Machine.execGarWithdrawWrite
  try dsimp only
  repeat' (first
    | with_reducible intro _
    | with_reducible assumption
    | with_reducible apply keepsOut_next
    | with_reducible apply keepsOut_fault
    | with_reducible apply keepsOut_ite
    | with_reducible apply keeps_ite
    | with_reducible apply elapse_keeps
    | with_reducible apply regCmd_keeps
    | with_reducible apply withdrawWrite_keeps
    | exact Nat.le_refl _
    | split
    | with_reducible refine Keeps.of_fst ?_ (by assumption))

theorem execPermitLost_keeps {s₀ s : State} (h : Keeps s₀ s) (dt : Nat) (pair : Fin 4) :
    KeepsOut s₀ (Machine.execPermitLost dt pair s) := by
  unfold Machine.execPermitLost
  try dsimp only
  repeat' (first
    | with_reducible intro _
    | with_reducible assumption
    | with_reducible apply keepsOut_next
    | with_reducible apply keepsOut_fault
    | with_reducible apply keepsOut_ite
    | with_reducible apply keeps_ite
    | with_reducible apply elapse_keeps
    | with_reducible apply garShow_keeps
    | with_reducible apply permitLost_keeps
    | exact Nat.le_refl _
    | split
    | with_reducible refine Keeps.of_fst ?_ (by assumption))

theorem execPermitMidpointToggle_keeps {s₀ s : State} (h : Keeps s₀ s) (dt : Nat) :
    KeepsOut s₀ (Machine.execPermitMidpointToggle dt s) := by
  unfold Machine.execPermitMidpointToggle
  try dsimp only
  repeat' (first
    | with_reducible intro _
    | with_reducible assumption
    | with_reducible apply keepsOut_next
    | with_reducible apply keepsOut_fault
    | with_reducible apply keepsOut_ite
    | with_reducible apply keeps_ite
    | with_reducible apply keeps_foldl
    | with_reducible apply elapse_keeps
    | with_reducible apply modGar_keeps
    | with_reducible apply permitEdge_keeps
    | exact Nat.le_refl _
    | split
    | with_reducible refine Keeps.of_fst ?_ (by assumption))

theorem execGrstRelease_keeps {s₀ s : State} (h : Keeps s₀ s) (dt width : Nat) (sense : GarnetSense) :
    KeepsOut s₀ (Machine.execGrstRelease dt width sense s) := by
  unfold Machine.execGrstRelease
  try dsimp only
  repeat' (first
    | with_reducible intro _
    | with_reducible assumption
    | with_reducible apply keepsOut_next
    | with_reducible apply keepsOut_fault
    | with_reducible apply keepsOut_ite
    | with_reducible apply keeps_ite
    | with_reducible apply elapse_keeps
    | with_reducible apply garEval_keeps
    | with_reducible apply garReset_keeps
    | with_reducible apply inc64_keeps
    | with_reducible apply setB_keeps
    | exact Nat.le_refl _
    | split
    | with_reducible refine Keeps.of_fst ?_ (by assumption)
    | with_reducible refine keeps_mk ?_ rfl rfl rfl rfl (Nat.le_refl _))

theorem execCustodyEnableFall_keeps {s₀ s : State} (h : Keeps s₀ s) (dt : Nat) :
    KeepsOut s₀ (Machine.execCustodyEnableFall dt s) := by
  unfold Machine.execCustodyEnableFall
  try dsimp only
  repeat' (first
    | with_reducible intro _
    | with_reducible assumption
    | with_reducible apply keepsOut_next
    | with_reducible apply keepsOut_fault
    | with_reducible apply keepsOut_ite
    | with_reducible apply keeps_ite
    | with_reducible apply custFall_keeps
    | with_reducible apply elapse_keeps
    | with_reducible apply garShow_keeps
    | exact Nat.le_refl _
    | split
    | with_reducible refine Keeps.of_fst ?_ (by assumption))

theorem execHoldTimeout_keeps {s₀ s : State} (h : Keeps s₀ s) (dt : Nat) (pair : Fin 4) :
    KeepsOut s₀ (Machine.execHoldTimeout dt pair s) := by
  unfold Machine.execHoldTimeout
  try dsimp only
  repeat' (first
    | with_reducible intro _
    | with_reducible assumption
    | with_reducible apply keepsOut_next
    | with_reducible apply keepsOut_fault
    | with_reducible apply keepsOut_ite
    | with_reducible apply keeps_ite
    | with_reducible apply elapse_keeps
    | with_reducible apply endHold_keeps
    | with_reducible apply garShow_keeps
    | exact Nat.le_refl _
    | split
    | with_reducible refine Keeps.of_fst ?_ (by assumption))

end Sys2Proof.Laws
end

