-- ==== Sys2Proof/Laws/Keeps/GarnetCfg.lean ====
section
/-! SUPPORT. What the operations and meanings of Machine/GarnetCfg.lean keep (`Keeps`). -/

set_option linter.unreachableTactic false
set_option linter.unusedTactic false
set_option linter.unusedVariables false

namespace Sys2Proof.Laws

open Sys2Proof.Machine

theorem putCfgWin_keeps {s₀ s : State} (h : Keeps s₀ s) (bs : List Byte) :
    Keeps s₀ (State.putCfgWin s bs) := by
  unfold State.putCfgWin
  try dsimp only
  repeat' (first
    | with_reducible intro _
    | with_reducible assumption
    | with_reducible apply keeps_ite
    | with_reducible apply keeps_foldl
    | with_reducible apply wr_keeps
    | exact Nat.le_refl _
    | split
    | with_reducible refine Keeps.of_fst ?_ (by assumption))

theorem garLog_keeps {s₀ s : State} (h : Keeps s₀ s) (kind result user before after : Nat) (img : Option (List Byte)) :
    Keeps s₀ (State.garLog s kind result user before after img) := by
  unfold State.garLog
  try dsimp only
  repeat' (first
    | with_reducible intro _
    | with_reducible assumption
    | with_reducible apply keeps_ite
    | with_reducible apply keeps_foldl
    | with_reducible apply emit_keeps
    | with_reducible apply modGar_keeps
    | with_reducible apply wr_keeps
    | exact Nat.le_refl _
    | split
    | with_reducible refine Keeps.of_fst ?_ (by assumption))

theorem cfgRun_keeps {s₀ s : State} (h : Keeps s₀ s) (cmd : Nat) (f : State → State × Nat) (hf : ∀ u, Keeps s₀ u → Keeps s₀ (f u).1) :
    Keeps s₀ (State.cfgRun s cmd f) := by
  unfold State.cfgRun
  try dsimp only
  repeat' (first
    | with_reducible intro _
    | with_reducible assumption
    | with_reducible apply keeps_ite
    | with_reducible apply hf
    | dsimp only
    | with_reducible apply keeps_ite_fst
    | with_reducible apply keeps_foldl_fst
    | with_reducible apply garShow_keeps
    | with_reducible apply modGar_keeps
    | with_reducible apply setB_keeps
    | with_reducible apply setF_keeps
    | exact Nat.le_refl _
    | split
    | with_reducible refine Keeps.of_fst ?_ (by assumption))

theorem cfgCommand_keeps {s₀ s : State} (h : Keeps s₀ s) (req : Requester) (cmd : Nat) (f : State → State × Nat) (hf : ∀ u, Keeps s₀ u → Keeps s₀ (f u).1) :
    Keeps s₀ (State.cfgCommand s req cmd f) := by
  unfold State.cfgCommand
  try dsimp only
  repeat' (first
    | with_reducible intro _
    | with_reducible assumption
    | with_reducible apply keeps_ite
    | with_reducible apply hf
    | with_reducible apply cfgRun_keeps
    | with_reducible apply regCmd_keeps
    | exact Nat.le_refl _
    | split
    | with_reducible refine Keeps.of_fst ?_ (by assumption))

theorem dropPending_keeps {s₀ s : State} (h : Keeps s₀ s) :
    Keeps s₀ (State.dropPending s) := by
  unfold State.dropPending
  try dsimp only
  repeat' (first
    | with_reducible intro _
    | with_reducible assumption
    | with_reducible apply keeps_ite
    | with_reducible apply modGar_keeps
    | with_reducible apply wr_keeps
    | exact Nat.le_refl _
    | split
    | with_reducible refine Keeps.of_fst ?_ (by assumption))

theorem acceptImage_keeps {s₀ s : State} (h : Keeps s₀ s) (img : List Byte) :
    Keeps s₀ (State.acceptImage s img) := by
  unfold State.acceptImage
  try dsimp only
  repeat' (first
    | with_reducible intro _
    | with_reducible assumption
    | with_reducible apply keeps_ite
    | with_reducible apply keeps_foldl
    | with_reducible apply dropPending_keeps
    | with_reducible apply garLog_keeps
    | with_reducible apply lockInst_keeps
    | with_reducible apply modGar_keeps
    | with_reducible apply modPair_keeps
    | with_reducible apply setB_keeps
    | with_reducible apply setF_keeps
    | with_reducible apply wr_keeps
    | exact Nat.le_refl _
    | split
    | with_reducible refine Keeps.of_fst ?_ (by assumption))

theorem cfgOpen_keeps {s₀ s : State} (h : Keeps s₀ s) :
    Keeps s₀ (State.cfgOpen s).1 := by
  unfold State.cfgOpen
  try dsimp only
  repeat' (first
    | with_reducible intro _
    | with_reducible assumption
    | with_reducible apply keeps_ite
    | dsimp only
    | with_reducible apply keeps_ite_fst
    | with_reducible apply keeps_foldl_fst
    | with_reducible apply emit_keeps
    | with_reducible apply garLog_keeps
    | with_reducible apply inc64_keeps
    | with_reducible apply modGar_keeps
    | exact Nat.le_refl _
    | split
    | with_reducible refine Keeps.of_fst ?_ (by assumption))

theorem execCfgOpen_keeps {s₀ s : State} (h : Keeps s₀ s) (dt : Nat) (req : Requester) :
    KeepsOut s₀ (Machine.execCfgOpen dt req s) := by
  unfold Machine.execCfgOpen
  try dsimp only
  repeat' (first
    | with_reducible intro _
    | with_reducible assumption
    | with_reducible apply keepsOut_next
    | with_reducible apply keepsOut_fault
    | with_reducible apply keepsOut_ite
    | with_reducible apply keeps_ite
    | with_reducible apply cfgCommand_keeps
    | with_reducible apply cfgOpen_keeps
    | with_reducible apply elapse_keeps
    | exact Nat.le_refl _
    | split
    | with_reducible refine Keeps.of_fst ?_ (by assumption))

theorem cfgEnterLockout_keeps {s₀ s : State} (h : Keeps s₀ s) :
    Keeps s₀ (State.cfgEnterLockout s).1 := by
  unfold State.cfgEnterLockout
  try dsimp only
  repeat' (first
    | with_reducible intro _
    | with_reducible assumption
    | with_reducible apply keeps_ite
    | dsimp only
    | with_reducible apply keeps_ite_fst
    | with_reducible apply keeps_foldl_fst
    | with_reducible apply garGlobal_keeps
    | with_reducible apply garLog_keeps
    | exact Nat.le_refl _
    | split
    | with_reducible refine Keeps.of_fst ?_ (by assumption))

theorem execCfgEnterLockout_keeps {s₀ s : State} (h : Keeps s₀ s) (dt : Nat) (req : Requester) :
    KeepsOut s₀ (Machine.execCfgEnterLockout dt req s) := by
  unfold Machine.execCfgEnterLockout
  try dsimp only
  repeat' (first
    | with_reducible intro _
    | with_reducible assumption
    | with_reducible apply keepsOut_next
    | with_reducible apply keepsOut_fault
    | with_reducible apply keepsOut_ite
    | with_reducible apply keeps_ite
    | with_reducible apply cfgCommand_keeps
    | with_reducible apply cfgEnterLockout_keeps
    | with_reducible apply elapse_keeps
    | exact Nat.le_refl _
    | split
    | with_reducible refine Keeps.of_fst ?_ (by assumption))

theorem cfgLoad_keeps {s₀ s : State} (h : Keeps s₀ s) (chunk : Nat) :
    Keeps s₀ (State.cfgLoad s chunk).1 := by
  unfold State.cfgLoad
  try dsimp only
  repeat' (first
    | with_reducible intro _
    | with_reducible assumption
    | with_reducible apply keeps_ite
    | dsimp only
    | with_reducible apply keeps_ite_fst
    | with_reducible apply keeps_foldl_fst
    | with_reducible apply garLog_keeps
    | with_reducible apply modGar_keeps
    | with_reducible apply wr_keeps
    | exact Nat.le_refl _
    | split
    | with_reducible refine Keeps.of_fst ?_ (by assumption))

theorem execCfgLoad_keeps {s₀ s : State} (h : Keeps s₀ s) (dt : Nat) (req : Requester) (chunk : Nat) :
    KeepsOut s₀ (Machine.execCfgLoad dt req chunk s) := by
  unfold Machine.execCfgLoad
  try dsimp only
  repeat' (first
    | with_reducible intro _
    | with_reducible assumption
    | with_reducible apply keepsOut_next
    | with_reducible apply keepsOut_fault
    | with_reducible apply keepsOut_ite
    | with_reducible apply keeps_ite
    | with_reducible apply cfgCommand_keeps
    | with_reducible apply cfgLoad_keeps
    | with_reducible apply elapse_keeps
    | exact Nat.le_refl _
    | split
    | with_reducible refine Keeps.of_fst ?_ (by assumption))

theorem cfgReadback_keeps {s₀ s : State} (h : Keeps s₀ s) (chunk : Nat) :
    Keeps s₀ (State.cfgReadback s chunk).1 := by
  unfold State.cfgReadback
  try dsimp only
  repeat' (first
    | with_reducible intro _
    | with_reducible assumption
    | with_reducible apply keeps_ite
    | dsimp only
    | with_reducible apply keeps_ite_fst
    | with_reducible apply keeps_foldl_fst
    | with_reducible apply putCfgWin_keeps
    | exact Nat.le_refl _
    | split
    | with_reducible refine Keeps.of_fst ?_ (by assumption))

theorem execCfgReadback_keeps {s₀ s : State} (h : Keeps s₀ s) (dt : Nat) (req : Requester) (chunk : Nat) :
    KeepsOut s₀ (Machine.execCfgReadback dt req chunk s) := by
  unfold Machine.execCfgReadback
  try dsimp only
  repeat' (first
    | with_reducible intro _
    | with_reducible assumption
    | with_reducible apply keepsOut_next
    | with_reducible apply keepsOut_fault
    | with_reducible apply keepsOut_ite
    | with_reducible apply keeps_ite
    | with_reducible apply cfgCommand_keeps
    | with_reducible apply cfgReadback_keeps
    | with_reducible apply elapse_keeps
    | exact Nat.le_refl _
    | split
    | with_reducible refine Keeps.of_fst ?_ (by assumption))

theorem cfgAccept_keeps {s₀ s : State} (h : Keeps s₀ s) :
    Keeps s₀ (State.cfgAccept s).1 := by
  unfold State.cfgAccept
  try dsimp only
  repeat' (first
    | with_reducible intro _
    | with_reducible assumption
    | with_reducible apply keeps_ite
    | dsimp only
    | with_reducible apply keeps_ite_fst
    | with_reducible apply keeps_foldl_fst
    | with_reducible apply acceptImage_keeps
    | exact Nat.le_refl _
    | split
    | with_reducible refine Keeps.of_fst ?_ (by assumption))

theorem execCfgAccept_keeps {s₀ s : State} (h : Keeps s₀ s) (dt : Nat) (req : Requester) :
    KeepsOut s₀ (Machine.execCfgAccept dt req s) := by
  unfold Machine.execCfgAccept
  try dsimp only
  repeat' (first
    | with_reducible intro _
    | with_reducible assumption
    | with_reducible apply keepsOut_next
    | with_reducible apply keepsOut_fault
    | with_reducible apply keepsOut_ite
    | with_reducible apply keeps_ite
    | with_reducible apply cfgAccept_keeps
    | with_reducible apply cfgCommand_keeps
    | with_reducible apply elapse_keeps
    | exact Nat.le_refl _
    | split
    | with_reducible refine Keeps.of_fst ?_ (by assumption))

theorem cfgDiscard_keeps {s₀ s : State} (h : Keeps s₀ s) :
    Keeps s₀ (State.cfgDiscard s).1 := by
  unfold State.cfgDiscard
  try dsimp only
  repeat' (first
    | with_reducible intro _
    | with_reducible assumption
    | with_reducible apply keeps_ite
    | dsimp only
    | with_reducible apply keeps_ite_fst
    | with_reducible apply keeps_foldl_fst
    | with_reducible apply dropPending_keeps
    | with_reducible apply garLog_keeps
    | with_reducible apply modGar_keeps
    | exact Nat.le_refl _
    | split
    | with_reducible refine Keeps.of_fst ?_ (by assumption))

theorem execCfgDiscard_keeps {s₀ s : State} (h : Keeps s₀ s) (dt : Nat) (req : Requester) :
    KeepsOut s₀ (Machine.execCfgDiscard dt req s) := by
  unfold Machine.execCfgDiscard
  try dsimp only
  repeat' (first
    | with_reducible intro _
    | with_reducible assumption
    | with_reducible apply keepsOut_next
    | with_reducible apply keepsOut_fault
    | with_reducible apply keepsOut_ite
    | with_reducible apply keeps_ite
    | with_reducible apply cfgCommand_keeps
    | with_reducible apply cfgDiscard_keeps
    | with_reducible apply elapse_keeps
    | exact Nat.le_refl _
    | split
    | with_reducible refine Keeps.of_fst ?_ (by assumption))

theorem cfgClose_keeps {s₀ s : State} (h : Keeps s₀ s) :
    Keeps s₀ (State.cfgClose s).1 := by
  unfold State.cfgClose
  try dsimp only
  repeat' (first
    | with_reducible intro _
    | with_reducible assumption
    | with_reducible apply keeps_ite
    | dsimp only
    | with_reducible apply keeps_ite_fst
    | with_reducible apply keeps_foldl_fst
    | with_reducible apply endSession_keeps
    | exact Nat.le_refl _
    | split
    | with_reducible refine Keeps.of_fst ?_ (by assumption))

theorem execCfgClose_keeps {s₀ s : State} (h : Keeps s₀ s) (dt : Nat) (req : Requester) :
    KeepsOut s₀ (Machine.execCfgClose dt req s) := by
  unfold Machine.execCfgClose
  try dsimp only
  repeat' (first
    | with_reducible intro _
    | with_reducible assumption
    | with_reducible apply keepsOut_next
    | with_reducible apply keepsOut_fault
    | with_reducible apply keepsOut_ite
    | with_reducible apply keeps_ite
    | with_reducible apply cfgClose_keeps
    | with_reducible apply cfgCommand_keeps
    | with_reducible apply elapse_keeps
    | exact Nat.le_refl _
    | split
    | with_reducible refine Keeps.of_fst ?_ (by assumption))

theorem cfgSetpw_keeps {s₀ s : State} (h : Keeps s₀ s) :
    Keeps s₀ (State.cfgSetpw s).1 := by
  unfold State.cfgSetpw
  try dsimp only
  repeat' (first
    | with_reducible intro _
    | with_reducible assumption
    | with_reducible apply keeps_ite
    | dsimp only
    | with_reducible apply keeps_ite_fst
    | with_reducible apply keeps_foldl_fst
    | with_reducible apply freshCtr_keeps
    | with_reducible apply garLog_keeps
    | with_reducible apply modGar_keeps
    | exact Nat.le_refl _
    | split
    | with_reducible refine Keeps.of_fst ?_ (by assumption))

theorem execCfgSetpw_keeps {s₀ s : State} (h : Keeps s₀ s) (dt : Nat) (req : Requester) :
    KeepsOut s₀ (Machine.execCfgSetpw dt req s) := by
  unfold Machine.execCfgSetpw
  try dsimp only
  repeat' (first
    | with_reducible intro _
    | with_reducible assumption
    | with_reducible apply keepsOut_next
    | with_reducible apply keepsOut_fault
    | with_reducible apply keepsOut_ite
    | with_reducible apply keeps_ite
    | with_reducible apply cfgCommand_keeps
    | with_reducible apply cfgSetpw_keeps
    | with_reducible apply elapse_keeps
    | exact Nat.le_refl _
    | split
    | with_reducible refine Keeps.of_fst ?_ (by assumption))

theorem execGarCfgcmdComplete_keeps {s₀ s : State} (h : Keeps s₀ s) (dt : Nat) :
    KeepsOut s₀ (Machine.execGarCfgcmdComplete dt s) := by
  unfold Machine.execGarCfgcmdComplete
  try dsimp only
  repeat' (first
    | with_reducible intro _
    | with_reducible assumption
    | with_reducible apply keepsOut_next
    | with_reducible apply keepsOut_fault
    | with_reducible apply keepsOut_ite
    | with_reducible apply keeps_ite
    | with_reducible apply elapse_keeps
    | with_reducible apply modGar_keeps
    | with_reducible apply setB_keeps
    | with_reducible apply setF_keeps
    | exact Nat.le_refl _
    | split
    | with_reducible refine Keeps.of_fst ?_ (by assumption))

theorem execGarSessionTimeout_keeps {s₀ s : State} (h : Keeps s₀ s) (dt : Nat) :
    KeepsOut s₀ (Machine.execGarSessionTimeout dt s) := by
  unfold Machine.execGarSessionTimeout
  try dsimp only
  repeat' (first
    | with_reducible intro _
    | with_reducible assumption
    | with_reducible apply keepsOut_next
    | with_reducible apply keepsOut_fault
    | with_reducible apply keepsOut_ite
    | with_reducible apply keeps_ite
    | with_reducible apply elapse_keeps
    | with_reducible apply endSession_keeps
    | with_reducible apply garShow_keeps
    | exact Nat.le_refl _
    | split
    | with_reducible refine Keeps.of_fst ?_ (by assumption))

theorem execGarAuthBlockExpiry_keeps {s₀ s : State} (h : Keeps s₀ s) (dt : Nat) :
    KeepsOut s₀ (Machine.execGarAuthBlockExpiry dt s) := by
  unfold Machine.execGarAuthBlockExpiry
  try dsimp only
  repeat' (first
    | with_reducible intro _
    | with_reducible assumption
    | with_reducible apply keepsOut_next
    | with_reducible apply keepsOut_fault
    | with_reducible apply keepsOut_ite
    | with_reducible apply keeps_ite
    | with_reducible apply elapse_keeps
    | with_reducible apply modGar_keeps
    | exact Nat.le_refl _
    | split
    | with_reducible refine Keeps.of_fst ?_ (by assumption))

theorem execPendingImageExpiry_keeps {s₀ s : State} (h : Keeps s₀ s) (dt : Nat) :
    KeepsOut s₀ (Machine.execPendingImageExpiry dt s) := by
  unfold Machine.execPendingImageExpiry
  try dsimp only
  repeat' (first
    | with_reducible intro _
    | with_reducible assumption
    | with_reducible apply keepsOut_next
    | with_reducible apply keepsOut_fault
    | with_reducible apply keepsOut_ite
    | with_reducible apply keeps_ite
    | with_reducible apply dropPending_keeps
    | with_reducible apply elapse_keeps
    | with_reducible apply garShow_keeps
    | exact Nat.le_refl _
    | split
    | with_reducible refine Keeps.of_fst ?_ (by assumption))

theorem cfgWord_keeps {s₀ s : State} (h : Keeps s₀ s) (v : Nat) :
    Keeps s₀ (State.cfgWord s v) := by
  unfold State.cfgWord
  try dsimp only
  repeat' (first
    | with_reducible intro _
    | with_reducible assumption
    | with_reducible apply keeps_ite
    | with_reducible apply cfgAccept_keeps
    | with_reducible apply cfgClose_keeps
    | with_reducible apply cfgDiscard_keeps
    | with_reducible apply cfgEnterLockout_keeps
    | with_reducible apply cfgLoad_keeps
    | with_reducible apply cfgOpen_keeps
    | with_reducible apply cfgReadback_keeps
    | with_reducible apply cfgRun_keeps
    | with_reducible apply cfgSetpw_keeps
    | exact Nat.le_refl _
    | split
    | with_reducible refine Keeps.of_fst ?_ (by assumption))

end Sys2Proof.Laws
end

