-- ==== Sys2Proof/Laws/Keeps/Time.lean ====
section
/-! SUPPORT. What the operations and meanings of Machine/Time.lean keep (`Keeps`). -/

set_option linter.unreachableTactic false
set_option linter.unusedTactic false
set_option linter.unusedVariables false

namespace Sys2Proof.Laws

open Sys2Proof.Machine

theorem servo_keeps {s₀ s : State} (h : Keeps s₀ s) :
    Keeps s₀ (State.servo s) := by
  unfold State.servo
  try dsimp only
  repeat' (first
    | with_reducible intro _
    | with_reducible assumption
    | with_reducible apply keeps_ite
    | with_reducible apply freshCtr_keeps
    | with_reducible apply modTime_keeps
    | exact Nat.le_refl _
    | split
    | with_reducible refine Keeps.of_fst ?_ (by assumption))

theorem setRefOfs_keeps {s₀ s : State} (h : Keeps s₀ s) (ofs : Int) :
    Keeps s₀ (State.setRefOfs s ofs) := by
  unfold State.setRefOfs
  try dsimp only
  repeat' (first
    | with_reducible intro _
    | with_reducible assumption
    | with_reducible apply keeps_ite
    | with_reducible apply modTime_keeps
    | with_reducible apply wrI64_keeps
    | exact Nat.le_refl _
    | split
    | with_reducible refine Keeps.of_fst ?_ (by assumption))

theorem setTimeState_keeps {s₀ s : State} (h : Keeps s₀ s) (st : Nat) :
    Keeps s₀ (State.setTimeState s st) := by
  unfold State.setTimeState
  try dsimp only
  repeat' (first
    | with_reducible intro _
    | with_reducible assumption
    | with_reducible apply keeps_ite
    | with_reducible apply modTime_keeps
    | with_reducible apply setF_keeps
    | exact Nat.le_refl _
    | split
    | with_reducible refine Keeps.of_fst ?_ (by assumption))

theorem refuseJump_keeps {s₀ s : State} (h : Keeps s₀ s) (ofs : Int) :
    Keeps s₀ (State.refuseJump s ofs) := by
  unfold State.refuseJump
  try dsimp only
  repeat' (first
    | with_reducible intro _
    | with_reducible assumption
    | with_reducible apply keeps_ite
    | with_reducible apply inc64_keeps
    | with_reducible apply modTime_keeps
    | with_reducible apply setB_keeps
    | with_reducible apply setRefOfs_keeps
    | with_reducible apply setTimeState_keeps
    | exact Nat.le_refl _
    | split
    | with_reducible refine Keeps.of_fst ?_ (by assumption)
    | with_reducible refine keeps_mk ?_ rfl rfl rfl rfl (Nat.le_refl _))

theorem follow_keeps {s₀ s : State} (h : Keeps s₀ s) (ofs : Int) :
    Keeps s₀ (State.follow s ofs) := by
  unfold State.follow
  try dsimp only
  repeat' (first
    | with_reducible intro _
    | with_reducible assumption
    | with_reducible apply keeps_ite
    | with_reducible apply modTime_keeps
    | with_reducible apply refuseJump_keeps
    | with_reducible apply servo_keeps
    | with_reducible apply setRefOfs_keeps
    | with_reducible apply setTimeState_keeps
    | exact Nat.le_refl _
    | split
    | with_reducible refine Keeps.of_fst ?_ (by assumption))

theorem measure_keeps {s₀ s : State} (h : Keeps s₀ s) (ofs : Int) (src : Nat) :
    Keeps s₀ (State.measure s ofs src) := by
  unfold State.measure
  try dsimp only
  repeat' (first
    | with_reducible intro _
    | with_reducible assumption
    | with_reducible apply keeps_ite
    | with_reducible apply follow_keeps
    | with_reducible apply modTime_keeps
    | with_reducible apply setB_keeps
    | exact Nat.le_refl _
    | split
    | with_reducible refine Keeps.of_fst ?_ (by assumption))

theorem loseRef_keeps {s₀ s : State} (h : Keeps s₀ s) :
    Keeps s₀ (State.loseRef s) := by
  unfold State.loseRef
  try dsimp only
  repeat' (first
    | with_reducible intro _
    | with_reducible assumption
    | with_reducible apply keeps_ite
    | with_reducible apply inc64_keeps
    | with_reducible apply modTime_keeps
    | with_reducible apply setB_keeps
    | with_reducible apply setTimeState_keeps
    | exact Nat.le_refl _
    | split
    | with_reducible refine Keeps.of_fst ?_ (by assumption))

theorem tsRequest_keeps {s₀ s : State} (h : Keeps s₀ s) (q tag ts : Nat) :
    Keeps s₀ (State.tsRequest s q tag ts) := by
  unfold State.tsRequest
  try dsimp only
  repeat' (first
    | with_reducible intro _
    | with_reducible assumption
    | with_reducible apply keeps_ite
    | with_reducible apply inc64_keeps
    | with_reducible apply setF_keeps
    | exact Nat.le_refl _
    | split
    | with_reducible refine Keeps.of_fst ?_ (by assumption)
    | with_reducible refine keeps_mk ?_ rfl rfl rfl rfl (Nat.le_refl _))

theorem tsPop_keeps {s₀ s : State} (h : Keeps s₀ s) (q : Nat) :
    Keeps s₀ (State.tsPop s q) := by
  unfold State.tsPop
  try dsimp only
  repeat' (first
    | with_reducible intro _
    | with_reducible assumption
    | with_reducible apply keeps_ite
    | with_reducible apply inc64_keeps
    | with_reducible apply setF_keeps
    | with_reducible apply wr64_keeps
    | exact Nat.le_refl _
    | split
    | with_reducible refine Keeps.of_fst ?_ (by assumption)
    | with_reducible refine keeps_mk ?_ rfl rfl rfl rfl (Nat.le_refl _))

theorem setPending_keeps {s₀ s : State} (h : Keeps s₀ s) (l : List (Nat × Nat)) :
    Keeps s₀ (State.setPending s l) := by
  unfold State.setPending
  try dsimp only
  repeat' (first
    | with_reducible intro _
    | with_reducible assumption
    | with_reducible apply keeps_ite
    | with_reducible apply setF_keeps
    | exact Nat.le_refl _
    | split
    | with_reducible refine Keeps.of_fst ?_ (by assumption)
    | with_reducible refine keeps_mk ?_ rfl rfl rfl rfl (Nat.le_refl _))

theorem forwardAnnounce_keeps {s₀ s : State} (h : Keeps s₀ s) :
    Keeps s₀ (State.forwardAnnounce s) := by
  unfold State.forwardAnnounce
  try dsimp only
  repeat' (first
    | with_reducible intro _
    | with_reducible assumption
    | with_reducible apply keeps_ite
    | with_reducible apply postedOut_keeps
    | exact Nat.le_refl _
    | split
    | with_reducible refine Keeps.of_fst ?_ (by assumption))

theorem announce_keeps {s₀ s : State} (h : Keeps s₀ s) (a : Announce) :
    Keeps s₀ (State.announce s a) := by
  unfold State.announce
  try dsimp only
  repeat' (first
    | with_reducible intro _
    | with_reducible assumption
    | with_reducible apply keeps_ite
    | with_reducible apply forwardAnnounce_keeps
    | with_reducible apply inc64_keeps
    | with_reducible apply setF_keeps
    | with_reducible apply setPending_keeps
    | exact Nat.le_refl _
    | split
    | with_reducible refine Keeps.of_fst ?_ (by assumption))

theorem invAsk_keeps {s₀ s : State} (h : Keeps s₀ s) :
    Keeps s₀ (State.invAsk s) := by
  unfold State.invAsk
  try dsimp only
  repeat' (first
    | with_reducible intro _
    | with_reducible assumption
    | with_reducible apply keeps_ite
    | with_reducible apply keeps_foldl
    | with_reducible apply farRead_keeps
    | exact Nat.le_refl _
    | split
    | with_reducible refine Keeps.of_fst ?_ (by assumption))

theorem capture_keeps {s₀ s : State} (h : Keeps s₀ s) (pre : State) (snapId instant : Nat) :
    Keeps s₀ (State.capture s pre snapId instant) := by
  unfold State.capture
  try dsimp only
  repeat' (first
    | with_reducible intro _
    | with_reducible assumption
    | with_reducible apply keeps_ite
    | with_reducible apply inc64_keeps
    | with_reducible apply invAsk_keeps
    | with_reducible apply modCsc_keeps
    | with_reducible apply wr_keeps
    | with_reducible apply wr64_keeps
    | exact Nat.le_refl _
    | split
    | with_reducible refine Keeps.of_fst ?_ (by assumption)
    | with_reducible refine keeps_mk ?_ rfl rfl rfl rfl (Nat.le_refl _))

theorem captures_keeps {s₀ s : State} (h : Keeps s₀ s) (pre : State) :
    Keeps s₀ (State.captures s pre) := by
  unfold State.captures
  try dsimp only
  repeat' (first
    | with_reducible intro _
    | with_reducible assumption
    | with_reducible apply keeps_ite
    | dsimp only
    | with_reducible apply keeps_ite_fst
    | with_reducible apply keeps_foldl_fst
    | with_reducible apply keeps_foldl
    | with_reducible apply capture_keeps
    | with_reducible apply setPending_keeps
    | exact Nat.le_refl _
    | split
    | with_reducible refine Keeps.of_fst ?_ (by assumption))

theorem edgeBegin_keeps {s₀ s : State} (h : Keeps s₀ s) :
    Keeps s₀ (State.edgeBegin s) := by
  unfold State.edgeBegin
  try dsimp only
  repeat' (first
    | with_reducible intro _
    | with_reducible assumption
    | with_reducible apply keeps_ite
    | with_reducible apply elapse_keeps
    | with_reducible apply modTime_keeps
    | with_reducible apply setB_keeps
    | with_reducible apply wr_keeps
    | with_reducible apply wr64_keeps
    | exact Nat.le_refl _
    | split
    | with_reducible refine Keeps.of_fst ?_ (by assumption))

theorem stepEdge_keeps {s₀ s : State} (h : Keeps s₀ s) (delta : Int) :
    Keeps s₀ (State.stepEdge s delta) := by
  unfold State.stepEdge
  try dsimp only
  repeat' (first
    | with_reducible intro _
    | with_reducible assumption
    | with_reducible apply keeps_ite
    | with_reducible apply inc64_keeps
    | with_reducible apply modTime_keeps
    | with_reducible apply prvModule_keeps
    | with_reducible apply setB_keeps
    | with_reducible apply setTimeState_keeps
    | with_reducible apply wr_keeps
    | with_reducible apply wrI64_keeps
    | exact Nat.le_refl _
    | split
    | with_reducible refine Keeps.of_fst ?_ (by assumption)
    | with_reducible refine keeps_mk ?_ rfl rfl rfl rfl (Nat.le_refl _))

theorem execGptpSyncRx_keeps {s₀ s : State} (h : Keeps s₀ s) (dt : Nat) (offset : Int) (sync : GptpSync) :
    KeepsOut s₀ (Machine.execGptpSyncRx dt offset sync s) := by
  unfold Machine.execGptpSyncRx
  try dsimp only
  repeat' (first
    | with_reducible intro _
    | with_reducible assumption
    | with_reducible apply keepsOut_next
    | with_reducible apply keepsOut_fault
    | with_reducible apply keepsOut_ite
    | with_reducible apply keeps_ite
    | with_reducible apply elapse_keeps
    | with_reducible apply measure_keeps
    | exact Nat.le_refl _
    | split
    | with_reducible refine Keeps.of_fst ?_ (by assumption))

theorem execPpsInPulse_keeps {s₀ s : State} (h : Keeps s₀ s) (dt : Nat) (pulse : PpsPulse) :
    KeepsOut s₀ (Machine.execPpsInPulse dt pulse s) := by
  unfold Machine.execPpsInPulse
  try dsimp only
  repeat' (first
    | with_reducible intro _
    | with_reducible assumption
    | with_reducible apply keepsOut_next
    | with_reducible apply keepsOut_fault
    | with_reducible apply keepsOut_ite
    | with_reducible apply keeps_ite
    | with_reducible apply elapse_keeps
    | with_reducible apply measure_keeps
    | with_reducible apply modTime_keeps
    | with_reducible apply setB_keeps
    | with_reducible apply wr64_keeps
    | exact Nat.le_refl _
    | split
    | with_reducible refine Keeps.of_fst ?_ (by assumption))

theorem execRefLost_keeps {s₀ s : State} (h : Keeps s₀ s) (dt : Nat) :
    KeepsOut s₀ (Machine.execRefLost dt s) := by
  unfold Machine.execRefLost
  try dsimp only
  repeat' (first
    | with_reducible intro _
    | with_reducible assumption
    | with_reducible apply keepsOut_next
    | with_reducible apply keepsOut_fault
    | with_reducible apply keepsOut_ite
    | with_reducible apply keeps_ite
    | with_reducible apply elapse_keeps
    | with_reducible apply loseRef_keeps
    | exact Nat.le_refl _
    | split
    | with_reducible refine Keeps.of_fst ?_ (by assumption))

theorem execFirstLockTimeout_keeps {s₀ s : State} (h : Keeps s₀ s) (dt : Nat) :
    KeepsOut s₀ (Machine.execFirstLockTimeout dt s) := by
  unfold Machine.execFirstLockTimeout
  try dsimp only
  repeat' (first
    | with_reducible intro _
    | with_reducible assumption
    | with_reducible apply keepsOut_next
    | with_reducible apply keepsOut_fault
    | with_reducible apply keepsOut_ite
    | with_reducible apply keeps_ite
    | with_reducible apply elapse_keeps
    | with_reducible apply modTime_keeps
    | with_reducible apply setTimeState_keeps
    | exact Nat.le_refl _
    | split
    | with_reducible refine Keeps.of_fst ?_ (by assumption))

theorem stepAccept_keeps {s₀ s : State} (h : Keeps s₀ s) (key : Nat) (accept : Bool) :
    Keeps s₀ (State.stepAccept s key accept) := by
  unfold State.stepAccept
  try dsimp only
  repeat' (first
    | with_reducible intro _
    | with_reducible assumption
    | with_reducible apply keeps_ite
    | with_reducible apply setB_keeps
    | exact Nat.le_refl _
    | split
    | with_reducible refine Keeps.of_fst ?_ (by assumption))

theorem execTimStepAccept_keeps {s₀ s : State} (h : Keeps s₀ s) (dt : Nat) (req : Requester) (key : Byte) (accept : Bool) :
    KeepsOut s₀ (Machine.execTimStepAccept dt req key accept s) := by
  unfold Machine.execTimStepAccept
  try dsimp only
  repeat' (first
    | with_reducible intro _
    | with_reducible assumption
    | with_reducible apply keepsOut_next
    | with_reducible apply keepsOut_fault
    | with_reducible apply keepsOut_ite
    | with_reducible apply keeps_ite
    | with_reducible apply elapse_keeps
    | with_reducible apply regCmd_keeps
    | with_reducible apply stepAccept_keeps
    | exact Nat.le_refl _
    | split
    | with_reducible refine Keeps.of_fst ?_ (by assumption))

theorem execInvAnnouncementRx_keeps {s₀ s : State} (h : Keeps s₀ s) (dt : Nat) (a : Announce) :
    KeepsOut s₀ (Machine.execInvAnnouncementRx dt a s) := by
  unfold Machine.execInvAnnouncementRx
  try dsimp only
  repeat' (first
    | with_reducible intro _
    | with_reducible assumption
    | with_reducible apply keepsOut_next
    | with_reducible apply keepsOut_fault
    | with_reducible apply keepsOut_ite
    | with_reducible apply keeps_ite
    | with_reducible apply announce_keeps
    | with_reducible apply elapse_keeps
    | exact Nat.le_refl _
    | split
    | with_reducible refine Keeps.of_fst ?_ (by assumption))

end Sys2Proof.Laws
end

