-- ==== Sys2Proof/Laws/Keeps/Triad.lean ====
section
/-! SUPPORT. What the operations and meanings of Machine/Triad.lean keep (`Keeps`). -/

set_option linter.unreachableTactic false
set_option linter.unusedTactic false
set_option linter.unusedVariables false

namespace Sys2Proof.Laws

open Sys2Proof.Machine

theorem modTriad_keeps {s₀ s : State} (h : Keeps s₀ s) (f : TriadSt → TriadSt) :
    Keeps s₀ (State.modTriad s f) := by
  unfold State.modTriad
  try dsimp only
  repeat' (first
    | with_reducible intro _
    | with_reducible assumption
    | with_reducible apply keeps_ite
    | exact Nat.le_refl _
    | split
    | with_reducible refine Keeps.of_fst ?_ (by assumption)
    | with_reducible refine keeps_mk ?_ rfl rfl rfl rfl (Nat.le_refl _))

theorem showDiswin_keeps {s₀ s : State} (h : Keeps s₀ s) :
    Keeps s₀ (State.showDiswin s) := by
  unfold State.showDiswin
  try dsimp only
  repeat' (first
    | with_reducible intro _
    | with_reducible assumption
    | with_reducible apply keeps_ite
    | with_reducible apply setF_keeps
    | exact Nat.le_refl _
    | split
    | with_reducible refine Keeps.of_fst ?_ (by assumption))

theorem showReint_keeps {s₀ s : State} (h : Keeps s₀ s) :
    Keeps s₀ (State.showReint s) := by
  unfold State.showReint
  try dsimp only
  repeat' (first
    | with_reducible intro _
    | with_reducible assumption
    | with_reducible apply keeps_ite
    | with_reducible apply setB_keeps
    | exact Nat.le_refl _
    | split
    | with_reducible refine Keeps.of_fst ?_ (by assumption))

theorem modLane_keeps {s₀ s : State} (h : Keeps s₀ s) (l : Nat) (f : LaneSt → LaneSt) :
    Keeps s₀ (State.modLane s l f) := by
  unfold State.modLane
  try dsimp only
  repeat' (first
    | with_reducible intro _
    | with_reducible assumption
    | with_reducible apply keeps_ite
    | with_reducible apply modTriad_keeps
    | exact Nat.le_refl _
    | split
    | with_reducible refine Keeps.of_fst ?_ (by assumption))

theorem reintCut_keeps {s₀ s : State} (h : Keeps s₀ s) (lane : Nat) :
    Keeps s₀ (State.reintCut s lane) := by
  unfold State.reintCut
  try dsimp only
  repeat' (first
    | with_reducible intro _
    | with_reducible assumption
    | with_reducible apply keeps_ite
    | dsimp only
    | with_reducible apply keeps_ite_fst
    | with_reducible apply keeps_foldl_fst
    | with_reducible apply reintEnds_keeps
    | exact Nat.le_refl _
    | split
    | with_reducible refine Keeps.of_fst ?_ (by assumption))

theorem maskLane_keeps {s₀ s : State} (h : Keeps s₀ s) (lane cause addr : Nat) :
    Keeps s₀ (State.maskLane s lane cause addr) := by
  unfold State.maskLane
  try dsimp only
  repeat' (first
    | with_reducible intro _
    | with_reducible assumption
    | with_reducible apply keeps_ite
    | with_reducible apply emit_keeps
    | with_reducible apply inc64_keeps
    | with_reducible apply modLane_keeps
    | with_reducible apply modTriad_keeps
    | with_reducible apply reintCut_keeps
    | with_reducible apply setF_keeps
    | with_reducible apply showDiswin_keeps
    | with_reducible apply showReint_keeps
    | with_reducible apply wr_keeps
    | with_reducible apply wr64_keeps
    | exact Nat.le_refl _
    | split
    | with_reducible refine Keeps.of_fst ?_ (by assumption))

theorem enter_keeps {s₀ s : State} (h : Keeps s₀ s) (item : BoundaryItem) :
    Keeps s₀ (State.enter s item) := by
  unfold State.enter
  try dsimp only
  repeat' (first
    | with_reducible intro _
    | with_reducible assumption
    | with_reducible apply keeps_ite
    | with_reducible apply keeps_foldl
    | with_reducible apply modTriad_keeps
    | exact Nat.le_refl _
    | split
    | with_reducible refine Keeps.of_fst ?_ (by assumption))

theorem ack_keeps {s₀ s : State} (h : Keeps s₀ s) (st : Nat) :
    Keeps s₀ (State.ack s st) := by
  unfold State.ack
  try dsimp only
  repeat' (first
    | with_reducible intro _
    | with_reducible assumption
    | with_reducible apply keeps_ite
    | with_reducible apply modTriad_keeps
    | exact Nat.le_refl _
    | split
    | with_reducible refine Keeps.of_fst ?_ (by assumption))

theorem toLanes_keeps {s₀ s : State} (h : Keeps s₀ s) (st : Nat) :
    Keeps s₀ (State.toLanes s st) := by
  unfold State.toLanes
  try dsimp only
  repeat' (first
    | with_reducible intro _
    | with_reducible assumption
    | with_reducible apply keeps_ite
    | with_reducible apply ack_keeps
    | with_reducible apply enter_keeps
    | exact Nat.le_refl _
    | split
    | with_reducible refine Keeps.of_fst ?_ (by assumption))

theorem laneResult_keeps {s₀ s : State} (h : Keeps s₀ s) (rd v : Nat) :
    Keeps s₀ (State.laneResult s rd v) := by
  unfold State.laneResult
  try dsimp only
  repeat' (first
    | with_reducible intro _
    | with_reducible assumption
    | with_reducible apply keeps_ite
    | with_reducible apply keeps_foldl
    | with_reducible apply enter_keeps
    | with_reducible apply modLane_keeps
    | with_reducible apply respond_keeps
    | exact Nat.le_refl _
    | split
    | with_reducible refine Keeps.of_fst ?_ (by assumption))

theorem reintDone_keeps {s₀ s : State} (h : Keeps s₀ s) (lane start : Nat) (loan : Bool) (back : Nat) :
    Keeps s₀ (State.reintDone s lane start loan back) := by
  unfold State.reintDone
  try dsimp only
  repeat' (first
    | with_reducible intro _
    | with_reducible assumption
    | with_reducible apply keeps_ite
    | with_reducible apply emitAt_keeps
    | with_reducible apply inc64_keeps
    | with_reducible apply modTriad_keeps
    | exact Nat.le_refl _
    | split
    | with_reducible refine Keeps.of_fst ?_ (by assumption))

theorem reintPassed_keeps {s₀ s : State} (h : Keeps s₀ s) (back : Nat) :
    Keeps s₀ (State.reintPassed s back) := by
  unfold State.reintPassed
  try dsimp only
  repeat' (first
    | with_reducible intro _
    | with_reducible assumption
    | with_reducible apply keeps_ite
    | with_reducible apply reintDone_keeps
    | exact Nat.le_refl _
    | split
    | with_reducible refine Keeps.of_fst ?_ (by assumption))

theorem vsync_keeps {s₀ s : State} (h : Keeps s₀ s) (rd : Nat) (recs : LaneRecords) (agree : Bool) (back : Nat) :
    Keeps s₀ (State.vsync s rd recs agree back) := by
  unfold State.vsync
  try dsimp only
  repeat' (first
    | with_reducible intro _
    | with_reducible assumption
    | with_reducible apply keeps_ite
    | with_reducible apply keeps_foldl
    | with_reducible apply inc64_keeps
    | with_reducible apply laneResult_keeps
    | with_reducible apply maskLane_keeps
    | with_reducible apply modLane_keeps
    | with_reducible apply modTriad_keeps
    | with_reducible apply reintCut_keeps
    | with_reducible apply reintPassed_keeps
    | with_reducible apply triadSafe_keeps
    | exact Nat.le_refl _
    | split
    | with_reducible refine Keeps.of_fst ?_ (by assumption))

theorem retireEdge_keeps {s₀ s : State} (h : Keeps s₀ s) :
    Keeps s₀ (State.retireEdge s) := by
  unfold State.retireEdge
  try dsimp only
  repeat' (first
    | with_reducible intro _
    | with_reducible assumption
    | with_reducible apply keeps_ite
    | with_reducible apply keeps_foldl
    | with_reducible apply emit_keeps
    | with_reducible apply modTriad_keeps
    | with_reducible apply setF_keeps
    | with_reducible apply showReint_keeps
    | exact Nat.le_refl _
    | split
    | with_reducible refine Keeps.of_fst ?_ (by assumption))

theorem startLoanTc_keeps {s₀ s : State} (h : Keeps s₀ s) :
    Keeps s₀ (State.startLoanTc s) := by
  unfold State.startLoanTc
  try dsimp only
  repeat' (first
    | with_reducible intro _
    | with_reducible assumption
    | with_reducible apply keeps_ite
    | dsimp only
    | with_reducible apply keeps_ite_fst
    | with_reducible apply keeps_foldl_fst
    | with_reducible apply modLane_keeps
    | with_reducible apply modTriad_keeps
    | with_reducible apply setB_keeps
    | exact Nat.le_refl _
    | split
    | with_reducible refine Keeps.of_fst ?_ (by assumption))

theorem loanStartEdge_keeps {s₀ s : State} (h : Keeps s₀ s) :
    Keeps s₀ (State.loanStartEdge s) := by
  unfold State.loanStartEdge
  try dsimp only
  repeat' (first
    | with_reducible intro _
    | with_reducible assumption
    | with_reducible apply keeps_ite
    | dsimp only
    | with_reducible apply keeps_ite_fst
    | with_reducible apply keeps_foldl_fst
    | with_reducible apply emit_keeps
    | with_reducible apply inc64_keeps
    | with_reducible apply modTriad_keeps
    | with_reducible apply setB_keeps
    | with_reducible apply setF_keeps
    | with_reducible apply startLoanTc_keeps
    | exact Nat.le_refl _
    | split
    | with_reducible refine Keeps.of_fst ?_ (by assumption))

theorem loanEndEdge_keeps {s₀ s : State} (h : Keeps s₀ s) :
    Keeps s₀ (State.loanEndEdge s) := by
  unfold State.loanEndEdge
  try dsimp only
  repeat' (first
    | with_reducible intro _
    | with_reducible assumption
    | with_reducible apply keeps_ite
    | with_reducible apply emit_keeps
    | with_reducible apply modTriad_keeps
    | with_reducible apply setB_keeps
    | with_reducible apply setF_keeps
    | exact Nat.le_refl _
    | split
    | with_reducible refine Keeps.of_fst ?_ (by assumption))

theorem triadEdge_keeps {s₀ s : State} (h : Keeps s₀ s) :
    Keeps s₀ (State.triadEdge s) := by
  unfold State.triadEdge
  try dsimp only
  repeat' (first
    | with_reducible intro _
    | with_reducible assumption
    | with_reducible apply keeps_ite
    | with_reducible apply interrupt_keeps
    | with_reducible apply loanEndEdge_keeps
    | with_reducible apply loanStartEdge_keeps
    | with_reducible apply modTriad_keeps
    | with_reducible apply retireEdge_keeps
    | with_reducible apply showDiswin_keeps
    | exact Nat.le_refl _
    | split
    | with_reducible refine Keeps.of_fst ?_ (by assumption))

theorem execTriadL1Uncorrectable_keeps {s₀ s : State} (h : Keeps s₀ s) (dt : Nat) (lane : Fin 3) (e : L1Error) (addr : Nat) :
    KeepsOut s₀ (Machine.execTriadL1Uncorrectable dt lane e addr s) := by
  unfold Machine.execTriadL1Uncorrectable
  try dsimp only
  repeat' (first
    | with_reducible intro _
    | with_reducible assumption
    | with_reducible apply keepsOut_next
    | with_reducible apply keepsOut_fault
    | with_reducible apply keepsOut_ite
    | with_reducible apply keeps_ite
    | with_reducible apply elapse_keeps
    | with_reducible apply inc64_keeps
    | with_reducible apply maskLane_keeps
    | with_reducible apply triadSafe_keeps
    | exact Nat.le_refl _
    | split
    | with_reducible refine Keeps.of_fst ?_ (by assumption))

theorem execBoundaryItemCapture_keeps {s₀ s : State} (h : Keeps s₀ s) (dt : Nat) (item : Inbound) (parityErr : BitVec 3) :
    KeepsOut s₀ (Machine.execBoundaryItemCapture dt item parityErr s) := by
  unfold Machine.execBoundaryItemCapture
  try dsimp only
  repeat' (first
    | with_reducible intro _
    | with_reducible assumption
    | with_reducible apply keepsOut_next
    | with_reducible apply keepsOut_fault
    | with_reducible apply keepsOut_ite
    | with_reducible apply keeps_ite
    | with_reducible apply keeps_foldl
    | with_reducible apply elapse_keeps
    | with_reducible apply enter_keeps
    | with_reducible apply interrupt_keeps
    | with_reducible apply maskLane_keeps
    | with_reducible apply modTriad_keeps
    | with_reducible apply raise_keeps
    | with_reducible apply respond_keeps
    | with_reducible apply triadSafe_keeps
    | exact Nat.le_refl _
    | split
    | with_reducible refine Keeps.of_fst ?_ (by assumption)
    | with_reducible refine keeps_mk ?_ rfl rfl rfl rfl (Nat.le_refl _))

theorem execVoterProbe_keeps {s₀ s : State} (h : Keeps s₀ s) (dt : Nat) (failing : BitVec 8) :
    KeepsOut s₀ (Machine.execVoterProbe dt failing s) := by
  unfold Machine.execVoterProbe
  try dsimp only
  repeat' (first
    | with_reducible intro _
    | with_reducible assumption
    | with_reducible apply keepsOut_next
    | with_reducible apply keepsOut_fault
    | with_reducible apply keepsOut_ite
    | with_reducible apply keeps_ite
    | with_reducible apply elapse_keeps
    | with_reducible apply inc64_keeps
    | with_reducible apply setB_keeps
    | with_reducible apply setF_keeps
    | with_reducible apply triadSafe_keeps
    | exact Nat.le_refl _
    | split
    | with_reducible refine Keeps.of_fst ?_ (by assumption))

theorem execVsync_keeps {s₀ s : State} (h : Keeps s₀ s) (dt : Nat) (word : BitVec 32) (priv : Priv) (onApp : Bool) (recs : LaneRecords) (agree : Bool) (back : Nat) :
    KeepsOut s₀ (Machine.execVsync dt word priv onApp recs agree back s) := by
  unfold Machine.execVsync
  try dsimp only
  repeat' (first
    | with_reducible intro _
    | with_reducible assumption
    | with_reducible apply keepsOut_next
    | with_reducible apply keepsOut_fault
    | with_reducible apply keepsOut_ite
    | with_reducible apply keeps_ite
    | with_reducible apply elapse_keeps
    | with_reducible apply raise_keeps
    | with_reducible apply vsync_keeps
    | exact Nat.le_refl _
    | split
    | with_reducible refine Keeps.of_fst ?_ (by assumption))

theorem execVsyncDeadline_keeps {s₀ s : State} (h : Keeps s₀ s) (dt : Nat) :
    KeepsOut s₀ (Machine.execVsyncDeadline dt s) := by
  unfold Machine.execVsyncDeadline
  try dsimp only
  repeat' (first
    | with_reducible intro _
    | with_reducible assumption
    | with_reducible apply keepsOut_next
    | with_reducible apply keepsOut_fault
    | with_reducible apply keepsOut_ite
    | with_reducible apply keeps_ite
    | with_reducible apply elapse_keeps
    | with_reducible apply triadSafe_keeps
    | exact Nat.le_refl _
    | split
    | with_reducible refine Keeps.of_fst ?_ (by assumption))

theorem execVfence_keeps {s₀ s : State} (h : Keeps s₀ s) (dt : Nat) (word : BitVec 32) (_priv : Priv) (onApp : Bool) :
    KeepsOut s₀ (Machine.execVfence dt word _priv onApp s) := by
  unfold Machine.execVfence
  try dsimp only
  repeat' (first
    | with_reducible intro _
    | with_reducible assumption
    | with_reducible apply keepsOut_next
    | with_reducible apply keepsOut_fault
    | with_reducible apply keepsOut_ite
    | with_reducible apply keeps_ite
    | with_reducible apply elapse_keeps
    | with_reducible apply modTriad_keeps
    | with_reducible apply raise_keeps
    | exact Nat.le_refl _
    | split
    | with_reducible refine Keeps.of_fst ?_ (by assumption))

theorem execVfenceComplete_keeps {s₀ s : State} (h : Keeps s₀ s) (dt : Nat) (acked : Bool) :
    KeepsOut s₀ (Machine.execVfenceComplete dt acked s) := by
  unfold Machine.execVfenceComplete
  try dsimp only
  repeat' (first
    | with_reducible intro _
    | with_reducible assumption
    | with_reducible apply keepsOut_next
    | with_reducible apply keepsOut_fault
    | with_reducible apply keepsOut_ite
    | with_reducible apply keeps_ite
    | with_reducible apply elapse_keeps
    | with_reducible apply inc64_keeps
    | with_reducible apply laneResult_keeps
    | with_reducible apply modTriad_keeps
    | exact Nat.le_refl _
    | split
    | with_reducible refine Keeps.of_fst ?_ (by assumption))

theorem execVfenceTimeout_keeps {s₀ s : State} (h : Keeps s₀ s) (dt : Nat) :
    KeepsOut s₀ (Machine.execVfenceTimeout dt s) := by
  unfold Machine.execVfenceTimeout
  try dsimp only
  repeat' (first
    | with_reducible intro _
    | with_reducible assumption
    | with_reducible apply keepsOut_next
    | with_reducible apply keepsOut_fault
    | with_reducible apply keepsOut_ite
    | with_reducible apply keeps_ite
    | with_reducible apply elapse_keeps
    | with_reducible apply inc64_keeps
    | with_reducible apply laneResult_keeps
    | with_reducible apply modTriad_keeps
    | exact Nat.le_refl _
    | split
    | with_reducible refine Keeps.of_fst ?_ (by assumption))

theorem restartLane_keeps {s₀ s : State} (h : Keeps s₀ s) (l : Nat) (loan : Bool) :
    Keeps s₀ (State.restartLane s l loan) := by
  unfold State.restartLane
  try dsimp only
  repeat' (first
    | with_reducible intro _
    | with_reducible assumption
    | with_reducible apply keeps_ite
    | with_reducible apply modLane_keeps
    | with_reducible apply modTriad_keeps
    | exact Nat.le_refl _
    | split
    | with_reducible refine Keeps.of_fst ?_ (by assumption)
    | with_reducible refine keeps_mk ?_ rfl rfl rfl rfl (Nat.le_refl _))

theorem reintWrite_keeps {s₀ s : State} (h : Keeps s₀ s) (l : Nat) :
    Keeps s₀ (State.reintWrite s l) := by
  unfold State.reintWrite
  try dsimp only
  repeat' (first
    | with_reducible intro _
    | with_reducible assumption
    | with_reducible apply keeps_ite
    | with_reducible apply modTriad_keeps
    | with_reducible apply restartLane_keeps
    | with_reducible apply setF_keeps
    | with_reducible apply showReint_keeps
    | exact Nat.le_refl _
    | split
    | with_reducible refine Keeps.of_fst ?_ (by assumption))

theorem safeReqWrite_keeps {s₀ s : State} (h : Keeps s₀ s) (key reason : Nat) :
    Keeps s₀ (State.safeReqWrite s key reason) := by
  unfold State.safeReqWrite
  try dsimp only
  repeat' (first
    | with_reducible intro _
    | with_reducible assumption
    | with_reducible apply keeps_ite
    | with_reducible apply triadSafe_keeps
    | exact Nat.le_refl _
    | split
    | with_reducible refine Keeps.of_fst ?_ (by assumption))

theorem loanRequest_keeps {s₀ s : State} (h : Keeps s₀ s) :
    Keeps s₀ (State.loanRequest s) := by
  unfold State.loanRequest
  try dsimp only
  repeat' (first
    | with_reducible intro _
    | with_reducible assumption
    | with_reducible apply keeps_ite
    | with_reducible apply modTriad_keeps
    | with_reducible apply setB_keeps
    | exact Nat.le_refl _
    | split
    | with_reducible refine Keeps.of_fst ?_ (by assumption)
    | with_reducible refine keeps_mk ?_ rfl rfl rfl rfl (Nat.le_refl _))

theorem loanCancel_keeps {s₀ s : State} (h : Keeps s₀ s) :
    Keeps s₀ (State.loanCancel s) := by
  unfold State.loanCancel
  try dsimp only
  repeat' (first
    | with_reducible intro _
    | with_reducible assumption
    | with_reducible apply keeps_ite
    | with_reducible apply modTriad_keeps
    | with_reducible apply setB_keeps
    | exact Nat.le_refl _
    | split
    | with_reducible refine Keeps.of_fst ?_ (by assumption))

theorem loanReturn_keeps {s₀ s : State} (h : Keeps s₀ s) (ret : Bool) :
    Keeps s₀ (State.loanReturn s ret) := by
  unfold State.loanReturn
  try dsimp only
  repeat' (first
    | with_reducible intro _
    | with_reducible assumption
    | with_reducible apply keeps_ite
    | with_reducible apply modTriad_keeps
    | exact Nat.le_refl _
    | split
    | with_reducible refine Keeps.of_fst ?_ (by assumption))

theorem execTriadReintWrite_keeps {s₀ s : State} (h : Keeps s₀ s) (dt : Nat) (req : Requester) (lane : Fin 4) :
    KeepsOut s₀ (Machine.execTriadReintWrite dt req lane s) := by
  unfold Machine.execTriadReintWrite
  try dsimp only
  repeat' (first
    | with_reducible intro _
    | with_reducible assumption
    | with_reducible apply keepsOut_next
    | with_reducible apply keepsOut_fault
    | with_reducible apply keepsOut_ite
    | with_reducible apply keeps_ite
    | with_reducible apply elapse_keeps
    | with_reducible apply regCmd_keeps
    | with_reducible apply reintWrite_keeps
    | exact Nat.le_refl _
    | split
    | with_reducible refine Keeps.of_fst ?_ (by assumption))

theorem execTriadSafereqWrite_keeps {s₀ s : State} (h : Keeps s₀ s) (dt : Nat) (req : Requester) (key reason : Byte) :
    KeepsOut s₀ (Machine.execTriadSafereqWrite dt req key reason s) := by
  unfold Machine.execTriadSafereqWrite
  try dsimp only
  repeat' (first
    | with_reducible intro _
    | with_reducible assumption
    | with_reducible apply keepsOut_next
    | with_reducible apply keepsOut_fault
    | with_reducible apply keepsOut_ite
    | with_reducible apply keeps_ite
    | with_reducible apply elapse_keeps
    | with_reducible apply regCmd_keeps
    | with_reducible apply safeReqWrite_keeps
    | exact Nat.le_refl _
    | split
    | with_reducible refine Keeps.of_fst ?_ (by assumption))

theorem execTriadLoanRequest_keeps {s₀ s : State} (h : Keeps s₀ s) (dt : Nat) (req : Requester) :
    KeepsOut s₀ (Machine.execTriadLoanRequest dt req s) := by
  unfold Machine.execTriadLoanRequest
  try dsimp only
  repeat' (first
    | with_reducible intro _
    | with_reducible assumption
    | with_reducible apply keepsOut_next
    | with_reducible apply keepsOut_fault
    | with_reducible apply keepsOut_ite
    | with_reducible apply keeps_ite
    | with_reducible apply elapse_keeps
    | with_reducible apply loanRequest_keeps
    | with_reducible apply regCmd_keeps
    | exact Nat.le_refl _
    | split
    | with_reducible refine Keeps.of_fst ?_ (by assumption))

theorem execTriadLoanCancel_keeps {s₀ s : State} (h : Keeps s₀ s) (dt : Nat) (req : Requester) :
    KeepsOut s₀ (Machine.execTriadLoanCancel dt req s) := by
  unfold Machine.execTriadLoanCancel
  try dsimp only
  repeat' (first
    | with_reducible intro _
    | with_reducible assumption
    | with_reducible apply keepsOut_next
    | with_reducible apply keepsOut_fault
    | with_reducible apply keepsOut_ite
    | with_reducible apply keeps_ite
    | with_reducible apply elapse_keeps
    | with_reducible apply loanCancel_keeps
    | with_reducible apply regCmd_keeps
    | exact Nat.le_refl _
    | split
    | with_reducible refine Keeps.of_fst ?_ (by assumption))

theorem execTriadLoanretWrite_keeps {s₀ s : State} (h : Keeps s₀ s) (dt : Nat) (req : Requester) (ret : Bool) :
    KeepsOut s₀ (Machine.execTriadLoanretWrite dt req ret s) := by
  unfold Machine.execTriadLoanretWrite
  try dsimp only
  repeat' (first
    | with_reducible intro _
    | with_reducible assumption
    | with_reducible apply keepsOut_next
    | with_reducible apply keepsOut_fault
    | with_reducible apply keepsOut_ite
    | with_reducible apply keeps_ite
    | with_reducible apply elapse_keeps
    | with_reducible apply loanReturn_keeps
    | with_reducible apply regCmd_keeps
    | exact Nat.le_refl _
    | split
    | with_reducible refine Keeps.of_fst ?_ (by assumption))

theorem execTcLoanException_keeps {s₀ s : State} (h : Keeps s₀ s) (dt : Nat) :
    KeepsOut s₀ (Machine.execTcLoanException dt s) := by
  unfold Machine.execTcLoanException
  try dsimp only
  repeat' (first
    | with_reducible intro _
    | with_reducible assumption
    | with_reducible apply keepsOut_next
    | with_reducible apply keepsOut_fault
    | with_reducible apply keepsOut_ite
    | with_reducible apply keeps_ite
    | with_reducible apply elapse_keeps
    | with_reducible apply setB_keeps
    | exact Nat.le_refl _
    | split
    | with_reducible refine Keeps.of_fst ?_ (by assumption))

end Sys2Proof.Laws
end

