-- ==== Sys2Proof/Laws/Keeps/AppCores.lean ====
section
/-! SUPPORT. What the operations and meanings of Machine/AppCores.lean keep (`Keeps`). -/

set_option linter.unreachableTactic false
set_option linter.unusedTactic false
set_option linter.unusedVariables false

namespace Sys2Proof.Laws

open Sys2Proof.Machine

theorem bufferStore_keeps {s₀ s : State} (h : Keeps s₀ s) (core addr : Nat) (bytes : List Byte) :
    Keeps s₀ (State.bufferStore s core addr bytes) := by
  unfold State.bufferStore
  try dsimp only
  repeat' (first
    | with_reducible intro _
    | with_reducible assumption
    | with_reducible apply keeps_ite
    | with_reducible apply modApp_keeps
    | with_reducible apply visibleStore_keeps
    | exact Nat.le_refl _
    | split
    | with_reducible refine Keeps.of_fst ?_ (by assumption))

theorem park_keeps {s₀ s : State} (h : Keeps s₀ s) (core : Nat) (x : Parked) :
    Keeps s₀ (State.park s core x) := by
  unfold State.park
  try dsimp only
  repeat' (first
    | with_reducible intro _
    | with_reducible assumption
    | with_reducible apply keeps_ite
    | with_reducible apply modApp_keeps
    | exact Nat.le_refl _
    | split
    | with_reducible refine Keeps.of_fst ?_ (by assumption))

theorem coreStore_keeps {s₀ s : State} (h : Keeps s₀ s) (core addr : Nat) (bytes : List Byte) :
    Keeps s₀ (State.coreStore s core addr bytes) := by
  unfold State.coreStore
  try dsimp only
  repeat' (first
    | with_reducible intro _
    | with_reducible assumption
    | with_reducible apply keeps_ite
    | with_reducible apply bufferStore_keeps
    | with_reducible apply drain_keeps
    | with_reducible apply fwRefuse_keeps
    | with_reducible apply raise_keeps
    | with_reducible apply respond_keeps
    | with_reducible apply visibleStore_keeps
    | exact Nat.le_refl _
    | split
    | with_reducible refine Keeps.of_fst ?_ (by assumption))

theorem loseL1_keeps {s₀ s : State} (h : Keeps s₀ s) (core : Nat) :
    Keeps s₀ (State.loseL1 s core) := by
  unfold State.loseL1
  try dsimp only
  repeat' (first
    | with_reducible intro _
    | with_reducible assumption
    | with_reducible apply keeps_ite
    | dsimp only
    | with_reducible apply keeps_ite_fst
    | with_reducible apply keeps_foldl_fst
    | with_reducible apply keeps_foldl
    | with_reducible apply freshCtr_keeps
    | with_reducible apply memSet_keeps
    | with_reducible apply modApp_keeps
    | exact Nat.le_refl _
    | split
    | with_reducible refine Keeps.of_fst ?_ (by assumption))

theorem dropReads_keeps {s₀ s : State} (h : Keeps s₀ s) (of : Requester → Bool) :
    Keeps s₀ (State.dropReads s of) := by
  unfold State.dropReads
  try dsimp only
  repeat' (first
    | with_reducible intro _
    | with_reducible assumption
    | with_reducible apply keeps_ite
    | dsimp only
    | with_reducible apply keeps_ite_fst
    | with_reducible apply keeps_foldl_fst
    | exact Nat.le_refl _
    | split
    | with_reducible refine Keeps.of_fst ?_ (by assumption)
    | with_reducible refine keeps_mk ?_ rfl rfl rfl rfl (Nat.le_refl _))

theorem dropPops_keeps {s₀ s : State} (h : Keeps s₀ s) (core : Nat) :
    Keeps s₀ (State.dropPops s core) := by
  unfold State.dropPops
  try dsimp only
  repeat' (first
    | with_reducible intro _
    | with_reducible assumption
    | with_reducible apply keeps_ite
    | dsimp only
    | with_reducible apply keeps_ite_fst
    | with_reducible apply keeps_foldl_fst
    | with_reducible apply dropReads_keeps
    | with_reducible apply modApp_keeps
    | exact Nat.le_refl _
    | split
    | with_reducible refine Keeps.of_fst ?_ (by assumption))

theorem restartCore_keeps {s₀ s : State} (h : Keeps s₀ s) (c : Nat) :
    Keeps s₀ (State.restartCore s c) := by
  unfold State.restartCore
  try dsimp only
  repeat' (first
    | with_reducible intro _
    | with_reducible assumption
    | with_reducible apply keeps_ite
    | with_reducible apply dropPops_keeps
    | with_reducible apply inc64_keeps
    | with_reducible apply loseL1_keeps
    | with_reducible apply modApp_keeps
    | with_reducible apply setF_keeps
    | exact Nat.le_refl _
    | split
    | with_reducible refine Keeps.of_fst ?_ (by assumption))

theorem restartNamed_keeps {s₀ s : State} (h : Keeps s₀ s) (req : Requester) (c : Nat) :
    Keeps s₀ (State.restartNamed s req c) := by
  unfold State.restartNamed
  try dsimp only
  repeat' (first
    | with_reducible intro _
    | with_reducible assumption
    | with_reducible apply keeps_ite
    | with_reducible apply restartCore_keeps
    | exact Nat.le_refl _
    | split
    | with_reducible refine Keeps.of_fst ?_ (by assumption))

theorem grant_keeps {s₀ s : State} (h : Keeps s₀ s) (w : FabWait) :
    Keeps s₀ (State.grant s w) := by
  unfold State.grant
  try dsimp only
  repeat' (first
    | with_reducible intro _
    | with_reducible assumption
    | with_reducible apply keeps_ite
    | with_reducible apply inc64_keeps
    | with_reducible apply modApp_keeps
    | with_reducible apply wr_keeps
    | exact Nat.le_refl _
    | split
    | with_reducible refine Keeps.of_fst ?_ (by assumption))

theorem arrive_keeps {s₀ s : State} (h : Keeps s₀ s) (l : List FabReq) :
    Keeps s₀ (State.arrive s l) := by
  unfold State.arrive
  try dsimp only
  repeat' (first
    | with_reducible intro _
    | with_reducible assumption
    | with_reducible apply keeps_ite
    | with_reducible apply modApp_keeps
    | exact Nat.le_refl _
    | split
    | with_reducible refine Keeps.of_fst ?_ (by assumption))

theorem execApcFence_keeps {s₀ s : State} (h : Keeps s₀ s) (dt : Nat) (core : Fin 8) :
    KeepsOut s₀ (Machine.execApcFence dt core s) := by
  unfold Machine.execApcFence
  try dsimp only
  repeat' (first
    | with_reducible intro _
    | with_reducible assumption
    | with_reducible apply keepsOut_next
    | with_reducible apply keepsOut_fault
    | with_reducible apply keepsOut_ite
    | with_reducible apply keeps_ite
    | with_reducible apply drain_keeps
    | with_reducible apply elapse_keeps
    | with_reducible apply park_keeps
    | exact Nat.le_refl _
    | split
    | with_reducible refine Keeps.of_fst ?_ (by assumption))

theorem execCacheEccUncorrectable_keeps {s₀ s : State} (h : Keeps s₀ s) (dt : Nat) (e : CacheError) :
    KeepsOut s₀ (Machine.execCacheEccUncorrectable dt e s) := by
  unfold Machine.execCacheEccUncorrectable
  try dsimp only
  repeat' (first
    | with_reducible intro _
    | with_reducible assumption
    | with_reducible apply keepsOut_next
    | with_reducible apply keepsOut_fault
    | with_reducible apply keepsOut_ite
    | with_reducible apply keeps_ite
    | with_reducible apply elapse_keeps
    | with_reducible apply inc64_keeps
    | with_reducible apply modApp_keeps
    | with_reducible apply raise_keeps
    | with_reducible apply respond_keeps
    | exact Nat.le_refl _
    | split
    | with_reducible refine Keeps.of_fst ?_ (by assumption))

theorem execFabricGrant_keeps {s₀ s : State} (h : Keeps s₀ s) (dt : Nat) (arrivals : List FabReq) (target : Nat) :
    KeepsOut s₀ (Machine.execFabricGrant dt arrivals target s) := by
  unfold Machine.execFabricGrant
  try dsimp only
  repeat' (first
    | with_reducible intro _
    | with_reducible assumption
    | with_reducible apply keepsOut_next
    | with_reducible apply keepsOut_fault
    | with_reducible apply keepsOut_ite
    | with_reducible apply keeps_ite
    | with_reducible apply arrive_keeps
    | with_reducible apply elapse_keeps
    | with_reducible apply grant_keeps
    | exact Nat.le_refl _
    | split
    | with_reducible refine Keeps.of_fst ?_ (by assumption))

theorem execFabricAgePromotion_keeps {s₀ s : State} (h : Keeps s₀ s) (dt id : Nat) :
    KeepsOut s₀ (Machine.execFabricAgePromotion dt id s) := by
  unfold Machine.execFabricAgePromotion
  try dsimp only
  repeat' (first
    | with_reducible intro _
    | with_reducible assumption
    | with_reducible apply keepsOut_next
    | with_reducible apply keepsOut_fault
    | with_reducible apply keepsOut_ite
    | with_reducible apply keeps_ite
    | with_reducible apply elapse_keeps
    | with_reducible apply inc64_keeps
    | with_reducible apply modApp_keeps
    | exact Nat.le_refl _
    | split
    | with_reducible refine Keeps.of_fst ?_ (by assumption)
    | with_reducible refine keeps_mk ?_ rfl rfl rfl rfl (Nat.le_refl _))

end Sys2Proof.Laws
end

