-- ==== Sys2Proof/Laws/Keeps/Pair.lean ====
section
/-! SUPPORT. What the operations and meanings of Machine/Pair.lean keep (`Keeps`). -/

set_option linter.unreachableTactic false
set_option linter.unusedTactic false
set_option linter.unusedVariables false

namespace Sys2Proof.Laws

open Sys2Proof.Machine

theorem modRpl_keeps {s₀ s : State} (h : Keeps s₀ s) (f : RplSt → RplSt) :
    Keeps s₀ (State.modRpl s f) := by
  unfold State.modRpl
  try dsimp only
  repeat' (first
    | with_reducible intro _
    | with_reducible assumption
    | with_reducible apply keeps_ite
    | exact Nat.le_refl _
    | split
    | with_reducible refine Keeps.of_fst ?_ (by assumption)
    | with_reducible refine keeps_mk ?_ rfl rfl rfl rfl (Nat.le_refl _))

theorem showElig_keeps {s₀ s : State} (h : Keeps s₀ s) :
    Keeps s₀ (State.showElig s) := by
  unfold State.showElig
  try dsimp only
  repeat' (first
    | with_reducible intro _
    | with_reducible assumption
    | with_reducible apply keeps_ite
    | with_reducible apply emit_keeps
    | with_reducible apply modRpl_keeps
    | with_reducible apply setF_keeps
    | exact Nat.le_refl _
    | split
    | with_reducible refine Keeps.of_fst ?_ (by assumption))

theorem setPeerElig_keeps {s₀ s : State} (h : Keeps s₀ s) (b : Bool) :
    Keeps s₀ (State.setPeerElig s b) := by
  unfold State.setPeerElig
  try dsimp only
  repeat' (first
    | with_reducible intro _
    | with_reducible assumption
    | with_reducible apply keeps_ite
    | with_reducible apply loanWatch_keeps
    | with_reducible apply modRpl_keeps
    | with_reducible apply setB_keeps
    | exact Nat.le_refl _
    | split
    | with_reducible refine Keeps.of_fst ?_ (by assumption))

theorem sendFrame_keeps {s₀ s : State} (h : Keeps s₀ s) (type count beat : Nat) (payload : List Byte) :
    Keeps s₀ (State.sendFrame s type count beat payload) := by
  unfold State.sendFrame
  try dsimp only
  repeat' (first
    | with_reducible intro _
    | with_reducible assumption
    | with_reducible apply keeps_ite
    | with_reducible apply inc64_keeps
    | with_reducible apply modRpl_keeps
    | exact Nat.le_refl _
    | split
    | with_reducible refine Keeps.of_fst ?_ (by assumption))

theorem ackOut_keeps {s₀ s : State} (h : Keeps s₀ s) (resync : Bool) :
    Keeps s₀ (State.ackOut s resync) := by
  unfold State.ackOut
  try dsimp only
  repeat' (first
    | with_reducible intro _
    | with_reducible assumption
    | with_reducible apply keeps_ite
    | with_reducible apply modRpl_keeps
    | with_reducible apply sendFrame_keeps
    | exact Nat.le_refl _
    | split
    | with_reducible refine Keeps.of_fst ?_ (by assumption))

theorem resync_keeps {s₀ s : State} (h : Keeps s₀ s) (cause : Nat) :
    Keeps s₀ (State.resync s cause) := by
  unfold State.resync
  try dsimp only
  repeat' (first
    | with_reducible intro _
    | with_reducible assumption
    | with_reducible apply keeps_ite
    | with_reducible apply ackOut_keeps
    | with_reducible apply add64_keeps
    | with_reducible apply emit_keeps
    | with_reducible apply inc64_keeps
    | with_reducible apply modRpl_keeps
    | with_reducible apply setB_keeps
    | with_reducible apply showElig_keeps
    | exact Nat.le_refl _
    | split
    | with_reducible refine Keeps.of_fst ?_ (by assumption))

theorem blockStandby_keeps {s₀ s : State} (h : Keeps s₀ s) (report : Bool) :
    Keeps s₀ (State.blockStandby s report) := by
  unfold State.blockStandby
  try dsimp only
  repeat' (first
    | with_reducible intro _
    | with_reducible assumption
    | with_reducible apply keeps_ite
    | with_reducible apply emit_keeps
    | with_reducible apply inc64_keeps
    | with_reducible apply setRole_keeps
    | with_reducible apply showElig_keeps
    | exact Nat.le_refl _
    | split
    | with_reducible refine Keeps.of_fst ?_ (by assumption))

theorem standBy_keeps {s₀ s : State} (h : Keeps s₀ s) :
    Keeps s₀ (State.standBy s) := by
  unfold State.standBy
  try dsimp only
  repeat' (first
    | with_reducible intro _
    | with_reducible assumption
    | with_reducible apply keeps_ite
    | with_reducible apply blockStandby_keeps
    | with_reducible apply setRole_keeps
    | with_reducible apply showElig_keeps
    | exact Nat.le_refl _
    | split
    | with_reducible refine Keeps.of_fst ?_ (by assumption))

theorem startClaim_keeps {s₀ s : State} (h : Keeps s₀ s) (cold boot : Bool) :
    Keeps s₀ (State.startClaim s cold boot) := by
  unfold State.startClaim
  try dsimp only
  repeat' (first
    | with_reducible intro _
    | with_reducible assumption
    | with_reducible apply keeps_ite
    | with_reducible apply inc64_keeps
    | with_reducible apply modRpl_keeps
    | exact Nat.le_refl _
    | split
    | with_reducible refine Keeps.of_fst ?_ (by assumption))

theorem settle_keeps {s₀ s : State} (h : Keeps s₀ s) (role : Nat) :
    Keeps s₀ (State.settle s role) := by
  unfold State.settle
  try dsimp only
  repeat' (first
    | with_reducible intro _
    | with_reducible assumption
    | with_reducible apply keeps_ite
    | with_reducible apply inc64_keeps
    | with_reducible apply modRpl_keeps
    | with_reducible apply setRole_keeps
    | with_reducible apply showElig_keeps
    | with_reducible apply standBy_keeps
    | with_reducible apply startDone_keeps
    | exact Nat.le_refl _
    | split
    | with_reducible refine Keeps.of_fst ?_ (by assumption))

theorem negotiate_keeps {s₀ s : State} (h : Keeps s₀ s) :
    Keeps s₀ (State.negotiate s) := by
  unfold State.negotiate
  try dsimp only
  repeat' (first
    | with_reducible intro _
    | with_reducible assumption
    | with_reducible apply keeps_ite
    | with_reducible apply settle_keeps
    | exact Nat.le_refl _
    | split
    | with_reducible refine Keeps.of_fst ?_ (by assumption))

theorem dualRelease_keeps {s₀ s : State} (h : Keeps s₀ s) :
    Keeps s₀ (State.dualRelease s) := by
  unfold State.dualRelease
  try dsimp only
  repeat' (first
    | with_reducible intro _
    | with_reducible assumption
    | with_reducible apply keeps_ite
    | with_reducible apply emit_keeps
    | with_reducible apply releaseCustody_keeps
    | exact Nat.le_refl _
    | split
    | with_reducible refine Keeps.of_fst ?_ (by assumption))

theorem lineFaulty_keeps {s₀ s : State} (h : Keeps s₀ s) :
    Keeps s₀ (State.lineFaulty s) := by
  unfold State.lineFaulty
  try dsimp only
  repeat' (first
    | with_reducible intro _
    | with_reducible assumption
    | with_reducible apply keeps_ite
    | with_reducible apply ackOut_keeps
    | with_reducible apply emit_keeps
    | with_reducible apply setPeerElig_keeps
    | exact Nat.le_refl _
    | split
    | with_reducible refine Keeps.of_fst ?_ (by assumption))

theorem superviseLine_keeps {s₀ s : State} (h : Keeps s₀ s) (was : Bool) (r : FarWire) :
    Keeps s₀ (State.superviseLine s was r) := by
  unfold State.superviseLine
  try dsimp only
  repeat' (first
    | with_reducible intro _
    | with_reducible assumption
    | with_reducible apply keeps_ite
    | with_reducible apply ackOut_keeps
    | with_reducible apply blockStandby_keeps
    | with_reducible apply dualRelease_keeps
    | with_reducible apply lineFaulty_keeps
    | with_reducible apply negotiate_keeps
    | with_reducible apply setPeerElig_keeps
    | exact Nat.le_refl _
    | split
    | with_reducible refine Keeps.of_fst ?_ (by assumption))

theorem farReading_keeps {s₀ s : State} (h : Keeps s₀ s) (r : FarWire) :
    Keeps s₀ (State.farReading s r) := by
  unfold State.farReading
  try dsimp only
  repeat' (first
    | with_reducible intro _
    | with_reducible assumption
    | with_reducible apply keeps_ite
    | with_reducible apply modRpl_keeps
    | with_reducible apply setF_keeps
    | with_reducible apply superviseLine_keeps
    | exact Nat.le_refl _
    | split
    | with_reducible refine Keeps.of_fst ?_ (by assumption))

theorem farSettle_keeps {s₀ s : State} (h : Keeps s₀ s) :
    Keeps s₀ (State.farSettle s) := by
  unfold State.farSettle
  try dsimp only
  repeat' (first
    | with_reducible intro _
    | with_reducible assumption
    | with_reducible apply keeps_ite
    | with_reducible apply dualRelease_keeps
    | with_reducible apply farReading_keeps
    | with_reducible apply modRpl_keeps
    | exact Nat.le_refl _
    | split
    | with_reducible refine Keeps.of_fst ?_ (by assumption)
    | with_reducible refine keeps_mk ?_ rfl rfl rfl rfl (Nat.le_refl _))

theorem farLevel_keeps {s₀ s : State} (h : Keeps s₀ s) (mv : Nat) :
    Keeps s₀ (State.farLevel s mv) := by
  unfold State.farLevel
  try dsimp only
  repeat' (first
    | with_reducible intro _
    | with_reducible assumption
    | with_reducible apply keeps_ite
    | with_reducible apply farSettle_keeps
    | with_reducible apply modRpl_keeps
    | exact Nat.le_refl _
    | split
    | with_reducible refine Keeps.of_fst ?_ (by assumption))

theorem loseClaim_keeps {s₀ s : State} (h : Keeps s₀ s) (c : Claim) :
    Keeps s₀ (State.loseClaim s c) := by
  unfold State.loseClaim
  try dsimp only
  repeat' (first
    | with_reducible intro _
    | with_reducible assumption
    | with_reducible apply keeps_ite
    | with_reducible apply inc64_keeps
    | with_reducible apply modRpl_keeps
    | with_reducible apply negotiate_keeps
    | exact Nat.le_refl _
    | split
    | with_reducible refine Keeps.of_fst ?_ (by assumption))

theorem voidStaged_keeps {s₀ s : State} (h : Keeps s₀ s) :
    Keeps s₀ (State.voidStaged s) := by
  unfold State.voidStaged
  try dsimp only
  repeat' (first
    | with_reducible intro _
    | with_reducible assumption
    | with_reducible apply keeps_ite
    | with_reducible apply add64_keeps
    | with_reducible apply modRpl_keeps
    | exact Nat.le_refl _
    | split
    | with_reducible refine Keeps.of_fst ?_ (by assumption))

theorem gainCustody_keeps {s₀ s : State} (h : Keeps s₀ s) (c : Claim) :
    Keeps s₀ (State.gainCustody s c) := by
  unfold State.gainCustody
  try dsimp only
  repeat' (first
    | with_reducible intro _
    | with_reducible assumption
    | with_reducible apply keeps_ite
    | with_reducible apply lineFaulty_keeps
    | with_reducible apply modRpl_keeps
    | with_reducible apply setB_keeps
    | with_reducible apply setRole_keeps
    | with_reducible apply showElig_keeps
    | with_reducible apply voidStaged_keeps
    | exact Nat.le_refl _
    | split
    | with_reducible refine Keeps.of_fst ?_ (by assumption))

theorem checkClaim_keeps {s₀ s : State} (h : Keeps s₀ s) (c : Claim) :
    Keeps s₀ (State.checkClaim s c) := by
  unfold State.checkClaim
  try dsimp only
  repeat' (first
    | with_reducible intro _
    | with_reducible assumption
    | with_reducible apply keeps_ite
    | with_reducible apply gainCustody_keeps
    | with_reducible apply loseClaim_keeps
    | with_reducible apply modRpl_keeps
    | with_reducible apply standBy_keeps
    | exact Nat.le_refl _
    | split
    | with_reducible refine Keeps.of_fst ?_ (by assumption))

theorem snapshot_keeps {s₀ s : State} (h : Keeps s₀ s) (walkers : Bool) :
    Keeps s₀ (State.snapshot s walkers) := by
  unfold State.snapshot
  try dsimp only
  repeat' (first
    | with_reducible intro _
    | with_reducible assumption
    | with_reducible apply keeps_ite
    | with_reducible apply keeps_foldl
    | with_reducible apply modRpl_keeps
    | exact Nat.le_refl _
    | split
    | with_reducible refine Keeps.of_fst ?_ (by assumption))

theorem sendLines_keeps {s₀ s : State} (h : Keeps s₀ s) (beat : Nat) (recs : List (List Byte)) :
    Keeps s₀ (State.sendLines s beat recs) := by
  unfold State.sendLines
  try dsimp only
  repeat' (first
    | with_reducible intro _
    | with_reducible assumption
    | with_reducible apply keeps_ite
    | with_reducible apply keeps_foldl
    | with_reducible apply sendFrame_keeps
    | exact Nat.le_refl _
    | split
    | with_reducible refine Keeps.of_fst ?_ (by assumption))

theorem sendMarker_keeps {s₀ s : State} (h : Keeps s₀ s) (beat : Nat) (recs : List (List Byte)) :
    Keeps s₀ (State.sendMarker s beat recs) := by
  unfold State.sendMarker
  try dsimp only
  repeat' (first
    | with_reducible intro _
    | with_reducible assumption
    | with_reducible apply keeps_ite
    | with_reducible apply sendFrame_keeps
    | exact Nat.le_refl _
    | split
    | with_reducible refine Keeps.of_fst ?_ (by assumption))

theorem shipEnd_keeps {s₀ s : State} (h : Keeps s₀ s) (shipped : Nat) :
    Keeps s₀ (State.shipEnd s shipped) := by
  unfold State.shipEnd
  try dsimp only
  repeat' (first
    | with_reducible intro _
    | with_reducible assumption
    | with_reducible apply keeps_ite
    | with_reducible apply modRpl_keeps
    | with_reducible apply sendLines_keeps
    | with_reducible apply sendMarker_keeps
    | exact Nat.le_refl _
    | split
    | with_reducible refine Keeps.of_fst ?_ (by assumption))

theorem stageLine_keeps {s₀ s : State} (h : Keeps s₀ s) (beat : Nat) (x : Nat × List Byte) :
    Keeps s₀ (State.stageLine s beat x) := by
  unfold State.stageLine
  try dsimp only
  repeat' (first
    | with_reducible intro _
    | with_reducible assumption
    | with_reducible apply keeps_ite
    | dsimp only
    | with_reducible apply keeps_ite_fst
    | with_reducible apply keeps_foldl_fst
    | with_reducible apply memWrite_keeps
    | with_reducible apply modRpl_keeps
    | exact Nat.le_refl _
    | split
    | with_reducible refine Keeps.of_fst ?_ (by assumption))

theorem stageLinesIn_keeps {s₀ s : State} (h : Keeps s₀ s) (beat : Nat) (recs : List (Nat × List Byte)) :
    Keeps s₀ (State.stageLinesIn s beat recs) := by
  unfold State.stageLinesIn
  try dsimp only
  repeat' (first
    | with_reducible intro _
    | with_reducible assumption
    | with_reducible apply keeps_ite
    | with_reducible apply keeps_foldl
    | with_reducible apply modRpl_keeps
    | with_reducible apply resync_keeps
    | with_reducible apply stageLine_keeps
    | exact Nat.le_refl _
    | split
    | with_reducible refine Keeps.of_fst ?_ (by assumption))

theorem applyStaged_keeps {s₀ s : State} (h : Keeps s₀ s) :
    Keeps s₀ (State.applyStaged s) := by
  unfold State.applyStaged
  try dsimp only
  repeat' (first
    | with_reducible intro _
    | with_reducible assumption
    | with_reducible apply keeps_ite
    | with_reducible apply keeps_foldl
    | with_reducible apply add64_keeps
    | with_reducible apply memPut_keeps
    | with_reducible apply modRpl_keeps
    | with_reducible apply ownLines_keeps
    | exact Nat.le_refl _
    | split
    | with_reducible refine Keeps.of_fst ?_ (by assumption))

theorem sendAck_keeps {s₀ s : State} (h : Keeps s₀ s) :
    Keeps s₀ (State.sendAck s) := by
  unfold State.sendAck
  try dsimp only
  repeat' (first
    | with_reducible intro _
    | with_reducible assumption
    | with_reducible apply keeps_ite
    | with_reducible apply ackOut_keeps
    | with_reducible apply modRpl_keeps
    | exact Nat.le_refl _
    | split
    | with_reducible refine Keeps.of_fst ?_ (by assumption))

theorem marker_keeps {s₀ s : State} (h : Keeps s₀ s) (beat count crc mono progId : Nat) (mw sw : Bool) (mode : Nat) :
    Keeps s₀ (State.marker s beat count crc mono progId mw sw mode) := by
  unfold State.marker
  try dsimp only
  repeat' (first
    | with_reducible intro _
    | with_reducible assumption
    | with_reducible apply keeps_ite
    | with_reducible apply applyStaged_keeps
    | with_reducible apply inc64_keeps
    | with_reducible apply modRpl_keeps
    | with_reducible apply resync_keeps
    | with_reducible apply sendAck_keeps
    | with_reducible apply setB_keeps
    | with_reducible apply showElig_keeps
    | with_reducible apply wr64_keeps
    | exact Nat.le_refl _
    | split
    | with_reducible refine Keeps.of_fst ?_ (by assumption))

theorem passAfresh_keeps {s₀ s : State} (h : Keeps s₀ s) :
    Keeps s₀ (State.passAfresh s) := by
  unfold State.passAfresh
  try dsimp only
  repeat' (first
    | with_reducible intro _
    | with_reducible assumption
    | with_reducible apply keeps_ite
    | with_reducible apply modRpl_keeps
    | with_reducible apply setB_keeps
    | with_reducible apply showElig_keeps
    | exact Nat.le_refl _
    | split
    | with_reducible refine Keeps.of_fst ?_ (by assumption))

theorem handoverEnd_keeps {s₀ s : State} (h : Keeps s₀ s) (h result : Nat) :
    Keeps s₀ (State.handoverEnd s h result) := by
  unfold State.handoverEnd
  try dsimp only
  repeat' (first
    | with_reducible intro _
    | with_reducible assumption
    | with_reducible apply keeps_ite
    | with_reducible apply emit_keeps
    | with_reducible apply modRpl_keeps
    | with_reducible apply setF_keeps
    | exact Nat.le_refl _
    | split
    | with_reducible refine Keeps.of_fst ?_ (by assumption))

theorem seePeer_keeps {s₀ s : State} (h : Keeps s₀ s) (p : Peer) :
    Keeps s₀ (State.seePeer s p) := by
  unfold State.seePeer
  try dsimp only
  repeat' (first
    | with_reducible intro _
    | with_reducible assumption
    | with_reducible apply keeps_ite
    | with_reducible apply modRpl_keeps
    | exact Nat.le_refl _
    | split
    | with_reducible refine Keeps.of_fst ?_ (by assumption))

theorem ackFrame_keeps {s₀ s : State} (h : Keeps s₀ s) (lastBeat inelig pkgId mode : Nat) (lineFault : Bool) :
    Keeps s₀ (State.ackFrame s lastBeat inelig pkgId mode lineFault) := by
  unfold State.ackFrame
  try dsimp only
  repeat' (first
    | with_reducible intro _
    | with_reducible assumption
    | with_reducible apply keeps_ite
    | dsimp only
    | with_reducible apply keeps_ite_fst
    | with_reducible apply keeps_foldl_fst
    | with_reducible apply blockStandby_keeps
    | with_reducible apply handoverEnd_keeps
    | with_reducible apply inc64_keeps
    | with_reducible apply modRpl_keeps
    | with_reducible apply passAfresh_keeps
    | with_reducible apply releaseCustody_keeps
    | with_reducible apply setPeerElig_keeps
    | with_reducible apply standBy_keeps
    | with_reducible apply wr_keeps
    | with_reducible apply wr64_keeps
    | exact Nat.le_refl _
    | split
    | with_reducible refine Keeps.of_fst ?_ (by assumption))

theorem toggleWire_keeps {s₀ s : State} (h : Keeps s₀ s) :
    Keeps s₀ (State.toggleWire s) := by
  unfold State.toggleWire
  try dsimp only
  repeat' (first
    | with_reducible intro _
    | with_reducible assumption
    | with_reducible apply keeps_ite
    | with_reducible apply modRpl_keeps
    | exact Nat.le_refl _
    | split
    | with_reducible refine Keeps.of_fst ?_ (by assumption))

theorem takeoverShown_keeps {s₀ s : State} (h : Keeps s₀ s) (cold : Bool) :
    Keeps s₀ (State.takeoverShown s cold) := by
  unfold State.takeoverShown
  try dsimp only
  repeat' (first
    | with_reducible intro _
    | with_reducible assumption
    | with_reducible apply keeps_ite
    | with_reducible apply emit_keeps
    | with_reducible apply inc64_keeps
    | with_reducible apply modRpl_keeps
    | with_reducible apply wr64_keeps
    | with_reducible apply wrI64_keeps
    | exact Nat.le_refl _
    | split
    | with_reducible refine Keeps.of_fst ?_ (by assumption))

theorem ackAge_keeps {s₀ s : State} (h : Keeps s₀ s) :
    Keeps s₀ (State.ackAge s) := by
  unfold State.ackAge
  try dsimp only
  repeat' (first
    | with_reducible intro _
    | with_reducible assumption
    | with_reducible apply keeps_ite
    | with_reducible apply setPeerElig_keeps
    | exact Nat.le_refl _
    | split
    | with_reducible refine Keeps.of_fst ?_ (by assumption))

theorem duoArm_keeps {s₀ s : State} (h : Keeps s₀ s) :
    Keeps s₀ (State.duoArm s) := by
  unfold State.duoArm
  try dsimp only
  repeat' (first
    | with_reducible intro _
    | with_reducible assumption
    | with_reducible apply keeps_ite
    | with_reducible apply modRpl_keeps
    | with_reducible apply setF_keeps
    | exact Nat.le_refl _
    | split
    | with_reducible refine Keeps.of_fst ?_ (by assumption))

theorem handoverEdge_keeps {s₀ s : State} (h : Keeps s₀ s) :
    Keeps s₀ (State.handoverEdge s) := by
  unfold State.handoverEdge
  try dsimp only
  repeat' (first
    | with_reducible intro _
    | with_reducible assumption
    | with_reducible apply keeps_ite
    | with_reducible apply handoverEnd_keeps
    | with_reducible apply modRpl_keeps
    | exact Nat.le_refl _
    | split
    | with_reducible refine Keeps.of_fst ?_ (by assumption))

theorem behindEdge_keeps {s₀ s : State} (h : Keeps s₀ s) :
    Keeps s₀ (State.behindEdge s) := by
  unfold State.behindEdge
  try dsimp only
  repeat' (first
    | with_reducible intro _
    | with_reducible assumption
    | with_reducible apply keeps_ite
    | with_reducible apply emit_keeps
    | with_reducible apply inc64_keeps
    | with_reducible apply setB_keeps
    | with_reducible apply setF_keeps
    | exact Nat.le_refl _
    | split
    | with_reducible refine Keeps.of_fst ?_ (by assumption))

theorem ackEdge_keeps {s₀ s : State} (h : Keeps s₀ s) :
    Keeps s₀ (State.ackEdge s) := by
  unfold State.ackEdge
  try dsimp only
  repeat' (first
    | with_reducible intro _
    | with_reducible assumption
    | with_reducible apply keeps_ite
    | with_reducible apply ackOut_keeps
    | with_reducible apply modRpl_keeps
    | exact Nat.le_refl _
    | split
    | with_reducible refine Keeps.of_fst ?_ (by assumption))

theorem coldEdge_keeps {s₀ s : State} (h : Keeps s₀ s) :
    Keeps s₀ (State.coldEdge s) := by
  unfold State.coldEdge
  try dsimp only
  repeat' (first
    | with_reducible intro _
    | with_reducible assumption
    | with_reducible apply keeps_ite
    | with_reducible apply emit_keeps
    | with_reducible apply modRpl_keeps
    | with_reducible apply startClaim_keeps
    | exact Nat.le_refl _
    | split
    | with_reducible refine Keeps.of_fst ?_ (by assumption))

theorem rplEdgeEarly_keeps {s₀ s : State} (h : Keeps s₀ s) :
    Keeps s₀ (State.rplEdgeEarly s) := by
  unfold State.rplEdgeEarly
  try dsimp only
  repeat' (first
    | with_reducible intro _
    | with_reducible assumption
    | with_reducible apply keeps_ite
    | with_reducible apply ackAge_keeps
    | with_reducible apply farSettle_keeps
    | with_reducible apply handoverEdge_keeps
    | with_reducible apply toggleWire_keeps
    | exact Nat.le_refl _
    | split
    | with_reducible refine Keeps.of_fst ?_ (by assumption))

theorem rplEdgeLate_keeps {s₀ s : State} (h : Keeps s₀ s) :
    Keeps s₀ (State.rplEdgeLate s) := by
  unfold State.rplEdgeLate
  try dsimp only
  repeat' (first
    | with_reducible intro _
    | with_reducible assumption
    | with_reducible apply keeps_ite
    | with_reducible apply ackEdge_keeps
    | with_reducible apply behindEdge_keeps
    | with_reducible apply coldEdge_keeps
    | with_reducible apply duoArm_keeps
    | with_reducible apply showElig_keeps
    | with_reducible apply snapshot_keeps
    | exact Nat.le_refl _
    | split
    | with_reducible refine Keeps.of_fst ?_ (by assumption))

theorem execFarwireReading_keeps {s₀ s : State} (h : Keeps s₀ s) (dt : Nat) (mv : Nat) :
    KeepsOut s₀ (Machine.execFarwireReading dt mv s) := by
  unfold Machine.execFarwireReading
  try dsimp only
  repeat' (first
    | with_reducible intro _
    | with_reducible assumption
    | with_reducible apply keepsOut_next
    | with_reducible apply keepsOut_fault
    | with_reducible apply keepsOut_ite
    | with_reducible apply keeps_ite
    | with_reducible apply elapse_keeps
    | with_reducible apply farLevel_keeps
    | exact Nat.le_refl _
    | split
    | with_reducible refine Keeps.of_fst ?_ (by assumption))

theorem execBlockedRecovery_keeps {s₀ s : State} (h : Keeps s₀ s) (dt : Nat) :
    KeepsOut s₀ (Machine.execBlockedRecovery dt s) := by
  unfold Machine.execBlockedRecovery
  try dsimp only
  repeat' (first
    | with_reducible intro _
    | with_reducible assumption
    | with_reducible apply keepsOut_next
    | with_reducible apply keepsOut_fault
    | with_reducible apply keepsOut_ite
    | with_reducible apply keeps_ite
    | with_reducible apply elapse_keeps
    | with_reducible apply farSettle_keeps
    | with_reducible apply standBy_keeps
    | exact Nat.le_refl _
    | split
    | with_reducible refine Keeps.of_fst ?_ (by assumption))

theorem execCustodyEnableLoss_keeps {s₀ s : State} (h : Keeps s₀ s) (dt : Nat) :
    KeepsOut s₀ (Machine.execCustodyEnableLoss dt s) := by
  unfold Machine.execCustodyEnableLoss
  try dsimp only
  repeat' (first
    | with_reducible intro _
    | with_reducible assumption
    | with_reducible apply keepsOut_next
    | with_reducible apply keepsOut_fault
    | with_reducible apply keepsOut_ite
    | with_reducible apply keeps_ite
    | with_reducible apply elapse_keeps
    | with_reducible apply modRpl_keeps
    | with_reducible apply releaseCustody_keeps
    | exact Nat.le_refl _
    | split
    | with_reducible refine Keeps.of_fst ?_ (by assumption))

theorem execCustodyClaim_keeps {s₀ s : State} (h : Keeps s₀ s) (dt : Nat) :
    KeepsOut s₀ (Machine.execCustodyClaim dt s) := by
  unfold Machine.execCustodyClaim
  try dsimp only
  repeat' (first
    | with_reducible intro _
    | with_reducible assumption
    | with_reducible apply keepsOut_next
    | with_reducible apply keepsOut_fault
    | with_reducible apply keepsOut_ite
    | with_reducible apply keeps_ite
    | with_reducible apply elapse_keeps
    | with_reducible apply farSettle_keeps
    | with_reducible apply startClaim_keeps
    | exact Nat.le_refl _
    | split
    | with_reducible refine Keeps.of_fst ?_ (by assumption))

theorem execClaimCheck_keeps {s₀ s : State} (h : Keeps s₀ s) (dt : Nat) (mv : Nat) :
    KeepsOut s₀ (Machine.execClaimCheck dt mv s) := by
  unfold Machine.execClaimCheck
  try dsimp only
  repeat' (first
    | with_reducible intro _
    | with_reducible assumption
    | with_reducible apply keepsOut_next
    | with_reducible apply keepsOut_fault
    | with_reducible apply keepsOut_ite
    | with_reducible apply keeps_ite
    | with_reducible apply checkClaim_keeps
    | with_reducible apply elapse_keeps
    | with_reducible apply farLevel_keeps
    | exact Nat.le_refl _
    | split
    | with_reducible refine Keeps.of_fst ?_ (by assumption))

theorem execCustodyNegotiationDelay_keeps {s₀ s : State} (h : Keeps s₀ s) (dt : Nat) :
    KeepsOut s₀ (Machine.execCustodyNegotiationDelay dt s) := by
  unfold Machine.execCustodyNegotiationDelay
  try dsimp only
  repeat' (first
    | with_reducible intro _
    | with_reducible assumption
    | with_reducible apply keepsOut_next
    | with_reducible apply keepsOut_fault
    | with_reducible apply keepsOut_ite
    | with_reducible apply keeps_ite
    | with_reducible apply elapse_keeps
    | with_reducible apply farSettle_keeps
    | with_reducible apply negotiate_keeps
    | with_reducible apply startClaim_keeps
    | exact Nat.le_refl _
    | split
    | with_reducible refine Keeps.of_fst ?_ (by assumption))

theorem execReplicaShipDeadline_keeps {s₀ s : State} (h : Keeps s₀ s) (dt shipped : Nat) :
    KeepsOut s₀ (Machine.execReplicaShipDeadline dt shipped s) := by
  unfold Machine.execReplicaShipDeadline
  try dsimp only
  repeat' (first
    | with_reducible intro _
    | with_reducible assumption
    | with_reducible apply keepsOut_next
    | with_reducible apply keepsOut_fault
    | with_reducible apply keepsOut_ite
    | with_reducible apply keeps_ite
    | with_reducible apply elapse_keeps
    | with_reducible apply shipEnd_keeps
    | exact Nat.le_refl _
    | split
    | with_reducible refine Keeps.of_fst ?_ (by assumption))

theorem execReplicaFrameRx_keeps {s₀ s : State} (h : Keeps s₀ s) (dt : Nat) (peer : Peer) (frame : List Byte) :
    KeepsOut s₀ (Machine.execReplicaFrameRx dt peer frame s) := by
  unfold Machine.execReplicaFrameRx
  try dsimp only
  repeat' (first
    | with_reducible intro _
    | with_reducible assumption
    | with_reducible apply keepsOut_next
    | with_reducible apply keepsOut_fault
    | with_reducible apply keepsOut_ite
    | with_reducible apply keeps_ite
    | with_reducible apply ack_keeps
    | with_reducible apply ackFrame_keeps
    | with_reducible apply elapse_keeps
    | with_reducible apply inc64_keeps
    | with_reducible apply marker_keeps
    | with_reducible apply seePeer_keeps
    | with_reducible apply stageLinesIn_keeps
    | exact Nat.le_refl _
    | split
    | with_reducible refine Keeps.of_fst ?_ (by assumption))

theorem execReplicaCopyOnWrite_keeps {s₀ s : State} (h : Keeps s₀ s) (dt line : Nat) :
    KeepsOut s₀ (Machine.execReplicaCopyOnWrite dt line s) := by
  unfold Machine.execReplicaCopyOnWrite
  try dsimp only
  repeat' (first
    | with_reducible intro _
    | with_reducible assumption
    | with_reducible apply keepsOut_next
    | with_reducible apply keepsOut_fault
    | with_reducible apply keepsOut_ite
    | with_reducible apply keeps_ite
    | with_reducible apply captureLine_keeps
    | with_reducible apply elapse_keeps
    | exact Nat.le_refl _
    | split
    | with_reducible refine Keeps.of_fst ?_ (by assumption))

theorem execReplicaLinkChange_keeps {s₀ s : State} (h : Keeps s₀ s) (dt : Nat) (up : Bool) :
    KeepsOut s₀ (Machine.execReplicaLinkChange dt up s) := by
  unfold Machine.execReplicaLinkChange
  try dsimp only
  repeat' (first
    | with_reducible intro _
    | with_reducible assumption
    | with_reducible apply keepsOut_next
    | with_reducible apply keepsOut_fault
    | with_reducible apply keepsOut_ite
    | with_reducible apply keeps_ite
    | with_reducible apply ackOut_keeps
    | with_reducible apply elapse_keeps
    | with_reducible apply modRpl_keeps
    | with_reducible apply resync_keeps
    | with_reducible apply setB_keeps
    | exact Nat.le_refl _
    | split
    | with_reducible refine Keeps.of_fst ?_ (by assumption))

theorem handoverArm_keeps {s₀ s : State} (h : Keeps s₀ s) (key : Nat) :
    Keeps s₀ (State.handoverArm s key) := by
  unfold State.handoverArm
  try dsimp only
  repeat' (first
    | with_reducible intro _
    | with_reducible assumption
    | with_reducible apply keeps_ite
    | with_reducible apply handoverEnd_keeps
    | with_reducible apply modRpl_keeps
    | with_reducible apply setF_keeps
    | exact Nat.le_refl _
    | split
    | with_reducible refine Keeps.of_fst ?_ (by assumption))

theorem execRplHandoverArm_keeps {s₀ s : State} (h : Keeps s₀ s) (dt : Nat) (req : Requester) (key : Byte) :
    KeepsOut s₀ (Machine.execRplHandoverArm dt req key s) := by
  unfold Machine.execRplHandoverArm
  try dsimp only
  repeat' (first
    | with_reducible intro _
    | with_reducible assumption
    | with_reducible apply keepsOut_next
    | with_reducible apply keepsOut_fault
    | with_reducible apply keepsOut_ite
    | with_reducible apply keeps_ite
    | with_reducible apply elapse_keeps
    | with_reducible apply handoverArm_keeps
    | with_reducible apply regCmd_keeps
    | exact Nat.le_refl _
    | split
    | with_reducible refine Keeps.of_fst ?_ (by assumption))

theorem handoverCancel_keeps {s₀ s : State} (h : Keeps s₀ s) (key : Nat) :
    Keeps s₀ (State.handoverCancel s key) := by
  unfold State.handoverCancel
  try dsimp only
  repeat' (first
    | with_reducible intro _
    | with_reducible assumption
    | with_reducible apply keeps_ite
    | with_reducible apply handoverEnd_keeps
    | exact Nat.le_refl _
    | split
    | with_reducible refine Keeps.of_fst ?_ (by assumption))

theorem execRplHandoverCancel_keeps {s₀ s : State} (h : Keeps s₀ s) (dt : Nat) (req : Requester) (key : Byte) :
    KeepsOut s₀ (Machine.execRplHandoverCancel dt req key s) := by
  unfold Machine.execRplHandoverCancel
  try dsimp only
  repeat' (first
    | with_reducible intro _
    | with_reducible assumption
    | with_reducible apply keepsOut_next
    | with_reducible apply keepsOut_fault
    | with_reducible apply keepsOut_ite
    | with_reducible apply keeps_ite
    | with_reducible apply elapse_keeps
    | with_reducible apply handoverCancel_keeps
    | with_reducible apply regCmd_keeps
    | exact Nat.le_refl _
    | split
    | with_reducible refine Keeps.of_fst ?_ (by assumption))

theorem execHandoverDeadline_keeps {s₀ s : State} (h : Keeps s₀ s) (dt : Nat) :
    KeepsOut s₀ (Machine.execHandoverDeadline dt s) := by
  unfold Machine.execHandoverDeadline
  try dsimp only
  repeat' (first
    | with_reducible intro _
    | with_reducible assumption
    | with_reducible apply keepsOut_next
    | with_reducible apply keepsOut_fault
    | with_reducible apply keepsOut_ite
    | with_reducible apply keeps_ite
    | with_reducible apply elapse_keeps
    | with_reducible apply handoverEnd_keeps
    | exact Nat.le_refl _
    | split
    | with_reducible refine Keeps.of_fst ?_ (by assumption))

end Sys2Proof.Laws
end

