-- ==== Sys2Proof/Laws/Keeps/Lifecycle.lean ====
section
/-! SUPPORT. What the operations and meanings of Machine/Lifecycle.lean keep (`Keeps`). -/

set_option linter.unreachableTactic false
set_option linter.unusedTactic false
set_option linter.unusedVariables false

namespace Sys2Proof.Laws

open Sys2Proof.Machine

theorem modLcs_keeps {s₀ s : State} (h : Keeps s₀ s) (f : LcsSt → LcsSt) :
    Keeps s₀ (State.modLcs s f) := by
  unfold State.modLcs
  try dsimp only
  repeat' (first
    | with_reducible intro _
    | with_reducible assumption
    | with_reducible apply keeps_ite
    | exact Nat.le_refl _
    | split
    | with_reducible refine Keeps.of_fst ?_ (by assumption)
    | with_reducible refine keeps_mk ?_ rfl rfl rfl rfl (Nat.le_refl _))

theorem prvChange_keeps {s₀ s : State} (h : Keeps s₀ s) (kind n : Nat) :
    Keeps s₀ (State.prvChange s kind n) := by
  unfold State.prvChange
  try dsimp only
  repeat' (first
    | with_reducible intro _
    | with_reducible assumption
    | with_reducible apply keeps_ite
    | with_reducible apply freshCtr_keeps
    | with_reducible apply prvModule_keeps
    | exact Nat.le_refl _
    | split
    | with_reducible refine Keeps.of_fst ?_ (by assumption))

theorem lcsCommand_keeps {s₀ s : State} (h : Keeps s₀ s) (req : Requester) (key : Byte) (f : State → State) (hf : ∀ u, Keeps s₀ u → Keeps s₀ (f u)) :
    Keeps s₀ (State.lcsCommand s req key f) := by
  unfold State.lcsCommand
  try dsimp only
  repeat' (first
    | with_reducible intro _
    | with_reducible assumption
    | with_reducible apply keeps_ite
    | with_reducible apply hf
    | with_reducible apply regCmd_keeps
    | exact Nat.le_refl _
    | split
    | with_reducible refine Keeps.of_fst ?_ (by assumption))

theorem lcsStart_keeps {s₀ s : State} (h : Keeps s₀ s) (b : LcsBusy) :
    Keeps s₀ (State.lcsStart s b) := by
  unfold State.lcsStart
  try dsimp only
  repeat' (first
    | with_reducible intro _
    | with_reducible assumption
    | with_reducible apply keeps_ite
    | dsimp only
    | with_reducible apply keeps_ite_fst
    | with_reducible apply keeps_foldl_fst
    | with_reducible apply emit_keeps
    | with_reducible apply inc64_keeps
    | with_reducible apply modLcs_keeps
    | with_reducible apply setB_keeps
    | with_reducible apply setF_keeps
    | with_reducible apply wr64_keeps
    | exact Nat.le_refl _
    | split
    | with_reducible refine Keeps.of_fst ?_ (by assumption))

theorem imageRefused_keeps {s₀ s : State} (h : Keeps s₀ s) (img : Image) (result : Nat) :
    Keeps s₀ (State.imageRefused s img result) := by
  unfold State.imageRefused
  try dsimp only
  repeat' (first
    | with_reducible intro _
    | with_reducible assumption
    | with_reducible apply keeps_ite
    | with_reducible apply emit_keeps
    | exact Nat.le_refl _
    | split
    | with_reducible refine Keeps.of_fst ?_ (by assumption))

theorem imageWritten_keeps {s₀ s : State} (h : Keeps s₀ s) (img : Image) (kind old : Nat) :
    Keeps s₀ (State.imageWritten s img kind old) := by
  unfold State.imageWritten
  try dsimp only
  repeat' (first
    | with_reducible intro _
    | with_reducible assumption
    | with_reducible apply keeps_ite
    | with_reducible apply emit_keeps
    | with_reducible apply inc64_keeps
    | with_reducible apply prvModule_keeps
    | exact Nat.le_refl _
    | split
    | with_reducible refine Keeps.of_fst ?_ (by assumption))

theorem storeAs_keeps {s₀ s : State} (h : Keeps s₀ s) (img : Image) :
    Keeps s₀ (State.storeAs s img).1 := by
  unfold State.storeAs
  try dsimp only
  repeat' (first
    | with_reducible intro _
    | with_reducible assumption
    | with_reducible apply keeps_ite
    | dsimp only
    | with_reducible apply keeps_ite_fst
    | with_reducible apply keeps_foldl_fst
    | with_reducible apply modLcs_keeps
    | exact Nat.le_refl _
    | split
    | with_reducible refine Keeps.of_fst ?_ (by assumption))

theorem docentStored_keeps {s₀ s : State} (h : Keeps s₀ s) (copy : Nat) (img : Image) :
    Keeps s₀ (State.docentStored s copy img) := by
  unfold State.docentStored
  try dsimp only
  repeat' (first
    | with_reducible intro _
    | with_reducible assumption
    | with_reducible apply keeps_ite
    | dsimp only
    | with_reducible apply keeps_ite_fst
    | with_reducible apply keeps_foldl_fst
    | with_reducible apply modLcs_keeps
    | with_reducible apply storeAs_keeps
    | exact Nat.le_refl _
    | split
    | with_reducible refine Keeps.of_fst ?_ (by assumption)
    | with_reducible refine keeps_mk ?_ rfl rfl rfl rfl (Nat.le_refl _))

theorem bootCfgStored_keeps {s₀ s : State} (h : Keeps s₀ s) (copy : Nat) (img : Image) :
    Keeps s₀ (State.bootCfgStored s copy img) := by
  unfold State.bootCfgStored
  try dsimp only
  repeat' (first
    | with_reducible intro _
    | with_reducible assumption
    | with_reducible apply keeps_ite
    | dsimp only
    | with_reducible apply keeps_ite_fst
    | with_reducible apply keeps_foldl_fst
    | with_reducible apply modLcs_keeps
    | with_reducible apply storeAs_keeps
    | exact Nat.le_refl _
    | split
    | with_reducible refine Keeps.of_fst ?_ (by assumption)
    | with_reducible refine keeps_mk ?_ rfl rfl rfl rfl (Nat.le_refl _))

theorem firmwareStored_keeps {s₀ s : State} (h : Keeps s₀ s) (img : Image) :
    Keeps s₀ (State.firmwareStored s img) := by
  unfold State.firmwareStored
  try dsimp only
  repeat' (first
    | with_reducible intro _
    | with_reducible assumption
    | with_reducible apply keeps_ite
    | dsimp only
    | with_reducible apply keeps_ite_fst
    | with_reducible apply keeps_foldl_fst
    | with_reducible apply modLcs_keeps
    | with_reducible apply storeAs_keeps
    | exact Nat.le_refl _
    | split
    | with_reducible refine Keeps.of_fst ?_ (by assumption))

theorem eraseCopy_keeps {s₀ s : State} (h : Keeps s₀ s) (kind copy : Nat) :
    Keeps s₀ (State.eraseCopy s kind copy) := by
  unfold State.eraseCopy
  try dsimp only
  repeat' (first
    | with_reducible intro _
    | with_reducible assumption
    | with_reducible apply keeps_ite
    | with_reducible apply modLcs_keeps
    | exact Nat.le_refl _
    | split
    | with_reducible refine Keeps.of_fst ?_ (by assumption)
    | with_reducible refine keeps_mk ?_ rfl rfl rfl rfl (Nat.le_refl _))

theorem lcsAct_keeps {s₀ s : State} (h : Keeps s₀ s) (b : LcsBusy) :
    Keeps s₀ (State.lcsAct s b) := by
  unfold State.lcsAct
  try dsimp only
  repeat' (first
    | with_reducible intro _
    | with_reducible assumption
    | with_reducible apply keeps_ite
    | dsimp only
    | with_reducible apply keeps_ite_fst
    | with_reducible apply keeps_foldl_fst
    | with_reducible apply bootCfgStored_keeps
    | with_reducible apply docentStored_keeps
    | with_reducible apply emit_keeps
    | with_reducible apply firmwareStored_keeps
    | with_reducible apply imageWritten_keeps
    | with_reducible apply modLcs_keeps
    | with_reducible apply prvChange_keeps
    | with_reducible apply setB_keeps
    | with_reducible apply setF_keeps
    | exact Nat.le_refl _
    | split
    | with_reducible refine Keeps.of_fst ?_ (by assumption))

theorem lcsComplete_keeps {s₀ s : State} (h : Keeps s₀ s) (b : LcsBusy) :
    Keeps s₀ (State.lcsComplete s b) := by
  unfold State.lcsComplete
  try dsimp only
  repeat' (first
    | with_reducible intro _
    | with_reducible assumption
    | with_reducible apply keeps_ite
    | dsimp only
    | with_reducible apply keeps_ite_fst
    | with_reducible apply keeps_foldl_fst
    | with_reducible apply inc64_keeps
    | with_reducible apply lcsAct_keeps
    | with_reducible apply modLcs_keeps
    | with_reducible apply setB_keeps
    | with_reducible apply setF_keeps
    | with_reducible apply wr64_keeps
    | exact Nat.le_refl _
    | split
    | with_reducible refine Keeps.of_fst ?_ (by assumption))

theorem retire_keeps {s₀ s : State} (h : Keeps s₀ s) :
    Keeps s₀ (State.retire s) := by
  unfold State.retire
  try dsimp only
  repeat' (first
    | with_reducible intro _
    | with_reducible assumption
    | with_reducible apply keeps_ite
    | with_reducible apply modLcs_keeps
    | with_reducible apply releaseCustody_keeps
    | with_reducible apply setF_keeps
    | exact Nat.le_refl _
    | split
    | with_reducible refine Keeps.of_fst ?_ (by assumption))

theorem lcsRefusedAt_keeps {s₀ s : State} (h : Keeps s₀ s) (c : Nat) :
    Keeps s₀ (State.lcsRefusedAt s c) := by
  unfold State.lcsRefusedAt
  try dsimp only
  repeat' (first
    | with_reducible intro _
    | with_reducible assumption
    | with_reducible apply keeps_ite
    | with_reducible apply emit_keeps
    | with_reducible apply inc64_keeps
    | with_reducible apply setF_keeps
    | exact Nat.le_refl _
    | split
    | with_reducible refine Keeps.of_fst ?_ (by assumption))

theorem keepState_keeps {s₀ s : State} (h : Keeps s₀ s) (c : Nat) :
    Keeps s₀ (State.keepState s c) := by
  unfold State.keepState
  try dsimp only
  repeat' (first
    | with_reducible intro _
    | with_reducible assumption
    | with_reducible apply keeps_ite
    | with_reducible apply memWrite_keeps
    | exact Nat.le_refl _
    | split
    | with_reducible refine Keeps.of_fst ?_ (by assumption))

theorem lcsTake_keeps {s₀ s : State} (h : Keeps s₀ s) (t : LcsTrans) :
    Keeps s₀ (State.lcsTake s t) := by
  unfold State.lcsTake
  try dsimp only
  repeat' (first
    | with_reducible intro _
    | with_reducible assumption
    | with_reducible apply keeps_ite
    | with_reducible apply emit_keeps
    | with_reducible apply inc64_keeps
    | with_reducible apply keepState_keeps
    | with_reducible apply lcsRefusedAt_keeps
    | with_reducible apply modLcs_keeps
    | with_reducible apply prvChange_keeps
    | with_reducible apply retire_keeps
    | with_reducible apply setF_keeps
    | exact Nat.le_refl _
    | split
    | with_reducible refine Keeps.of_fst ?_ (by assumption))

theorem lcsEdge_keeps {s₀ s : State} (h : Keeps s₀ s) :
    Keeps s₀ (State.lcsEdge s) := by
  unfold State.lcsEdge
  try dsimp only
  repeat' (first
    | with_reducible intro _
    | with_reducible assumption
    | with_reducible apply keeps_ite
    | with_reducible apply keeps_foldl
    | with_reducible apply lcsTake_keeps
    | with_reducible apply modLcs_keeps
    | exact Nat.le_refl _
    | split
    | with_reducible refine Keeps.of_fst ?_ (by assumption))

theorem tokenRefused_keeps {s₀ s : State} (h : Keeps s₀ s) (tok : Image) (c : Nat) :
    Keeps s₀ (State.tokenRefused s tok c) := by
  unfold State.tokenRefused
  try dsimp only
  repeat' (first
    | with_reducible intro _
    | with_reducible assumption
    | with_reducible apply keeps_ite
    | with_reducible apply emit_keeps
    | with_reducible apply imageRefused_keeps
    | exact Nat.le_refl _
    | split
    | with_reducible refine Keeps.of_fst ?_ (by assumption))

theorem lcsTransition_keeps {s₀ s : State} (h : Keeps s₀ s) (nonceLo nonceHi : BitVec 64) :
    Keeps s₀ (State.lcsTransition s nonceLo nonceHi) := by
  unfold State.lcsTransition
  try dsimp only
  repeat' (first
    | with_reducible intro _
    | with_reducible assumption
    | with_reducible apply keeps_ite
    | with_reducible apply lcsStart_keeps
    | with_reducible apply tokenRefused_keeps
    | exact Nat.le_refl _
    | split
    | with_reducible refine Keeps.of_fst ?_ (by assumption))

theorem lcsRevoke_keeps {s₀ s : State} (h : Keeps s₀ s) (nonceLo nonceHi : BitVec 64) :
    Keeps s₀ (State.lcsRevoke s nonceLo nonceHi) := by
  unfold State.lcsRevoke
  try dsimp only
  repeat' (first
    | with_reducible intro _
    | with_reducible assumption
    | with_reducible apply keeps_ite
    | with_reducible apply lcsStart_keeps
    | with_reducible apply tokenRefused_keeps
    | exact Nat.le_refl _
    | split
    | with_reducible refine Keeps.of_fst ?_ (by assumption))

theorem lcsWriteFw_keeps {s₀ s : State} (h : Keeps s₀ s) (written verified : Bool) :
    Keeps s₀ (State.lcsWriteFw s written verified) := by
  unfold State.lcsWriteFw
  try dsimp only
  repeat' (first
    | with_reducible intro _
    | with_reducible assumption
    | with_reducible apply keeps_ite
    | with_reducible apply imageRefused_keeps
    | with_reducible apply lcsStart_keeps
    | with_reducible apply modLcs_keeps
    | exact Nat.le_refl _
    | split
    | with_reducible refine Keeps.of_fst ?_ (by assumption))

theorem lcsWriteDocent_keeps {s₀ s : State} (h : Keeps s₀ s) (written verified : Bool) :
    Keeps s₀ (State.lcsWriteDocent s written verified) := by
  unfold State.lcsWriteDocent
  try dsimp only
  repeat' (first
    | with_reducible intro _
    | with_reducible assumption
    | with_reducible apply keeps_ite
    | with_reducible apply eraseCopy_keeps
    | with_reducible apply imageRefused_keeps
    | with_reducible apply lcsStart_keeps
    | exact Nat.le_refl _
    | split
    | with_reducible refine Keeps.of_fst ?_ (by assumption))

theorem lcsWriteBootcfg_keeps {s₀ s : State} (h : Keeps s₀ s) (written verified : Bool) :
    Keeps s₀ (State.lcsWriteBootcfg s written verified) := by
  unfold State.lcsWriteBootcfg
  try dsimp only
  repeat' (first
    | with_reducible intro _
    | with_reducible assumption
    | with_reducible apply keeps_ite
    | with_reducible apply eraseCopy_keeps
    | with_reducible apply imageRefused_keeps
    | with_reducible apply lcsStart_keeps
    | exact Nat.le_refl _
    | split
    | with_reducible refine Keeps.of_fst ?_ (by assumption))

theorem lcsCommitFw_keeps {s₀ s : State} (h : Keeps s₀ s) :
    Keeps s₀ (State.lcsCommitFw s) := by
  unfold State.lcsCommitFw
  try dsimp only
  repeat' (first
    | with_reducible intro _
    | with_reducible assumption
    | with_reducible apply keeps_ite
    | with_reducible apply lcsStart_keeps
    | exact Nat.le_refl _
    | split
    | with_reducible refine Keeps.of_fst ?_ (by assumption))

theorem lcsRestart_keeps {s₀ s : State} (h : Keeps s₀ s) :
    Keeps s₀ (State.lcsRestart s) := by
  unfold State.lcsRestart
  try dsimp only
  repeat' (first
    | with_reducible intro _
    | with_reducible assumption
    | with_reducible apply keeps_ite
    | with_reducible apply lcsStart_keeps
    | exact Nat.le_refl _
    | split
    | with_reducible refine Keeps.of_fst ?_ (by assumption))

theorem lcsVerify_keeps {s₀ s : State} (h : Keeps s₀ s) :
    Keeps s₀ (State.lcsVerify s) := by
  unfold State.lcsVerify
  try dsimp only
  repeat' (first
    | with_reducible intro _
    | with_reducible assumption
    | with_reducible apply keeps_ite
    | with_reducible apply imageRefused_keeps
    | with_reducible apply lcsStart_keeps
    | exact Nat.le_refl _
    | split
    | with_reducible refine Keeps.of_fst ?_ (by assumption))

theorem lcsWord_keeps {s₀ s : State} (h : Keeps s₀ s) (v : Nat) :
    Keeps s₀ (State.lcsWord s v) := by
  unfold State.lcsWord
  try dsimp only
  repeat' (first
    | with_reducible intro _
    | with_reducible assumption
    | with_reducible apply keeps_ite
    | dsimp only
    | with_reducible apply keeps_ite_fst
    | with_reducible apply keeps_foldl_fst
    | with_reducible apply freshCtr_keeps
    | with_reducible apply lcsCommitFw_keeps
    | with_reducible apply lcsRestart_keeps
    | with_reducible apply lcsRevoke_keeps
    | with_reducible apply lcsTransition_keeps
    | with_reducible apply lcsVerify_keeps
    | with_reducible apply lcsWriteBootcfg_keeps
    | with_reducible apply lcsWriteDocent_keeps
    | with_reducible apply lcsWriteFw_keeps
    | exact Nat.le_refl _
    | split
    | with_reducible refine Keeps.of_fst ?_ (by assumption))

theorem execLcsCmdTransition_keeps {s₀ s : State} (h : Keeps s₀ s) (dt : Nat) (req : Requester) (key _arg : Byte) (nonceLo nonceHi : BitVec 64) :
    KeepsOut s₀ (Machine.execLcsCmdTransition dt req key _arg nonceLo nonceHi s) := by
  unfold Machine.execLcsCmdTransition
  try dsimp only
  repeat' (first
    | with_reducible intro _
    | with_reducible assumption
    | with_reducible apply keepsOut_next
    | with_reducible apply keepsOut_fault
    | with_reducible apply keepsOut_ite
    | with_reducible apply keeps_ite
    | with_reducible apply elapse_keeps
    | with_reducible apply lcsCommand_keeps
    | with_reducible apply lcsTransition_keeps
    | exact Nat.le_refl _
    | split
    | with_reducible refine Keeps.of_fst ?_ (by assumption))

theorem execLcsCmdRevoke_keeps {s₀ s : State} (h : Keeps s₀ s) (dt : Nat) (req : Requester) (key _arg : Byte) (nonceLo nonceHi : BitVec 64) :
    KeepsOut s₀ (Machine.execLcsCmdRevoke dt req key _arg nonceLo nonceHi s) := by
  unfold Machine.execLcsCmdRevoke
  try dsimp only
  repeat' (first
    | with_reducible intro _
    | with_reducible assumption
    | with_reducible apply keepsOut_next
    | with_reducible apply keepsOut_fault
    | with_reducible apply keepsOut_ite
    | with_reducible apply keeps_ite
    | with_reducible apply elapse_keeps
    | with_reducible apply lcsCommand_keeps
    | with_reducible apply lcsRevoke_keeps
    | exact Nat.le_refl _
    | split
    | with_reducible refine Keeps.of_fst ?_ (by assumption))

theorem execLcsCmdWriteFw_keeps {s₀ s : State} (h : Keeps s₀ s) (dt : Nat) (req : Requester) (key : Byte) (written verified : Bool) :
    KeepsOut s₀ (Machine.execLcsCmdWriteFw dt req key written verified s) := by
  unfold Machine.execLcsCmdWriteFw
  try dsimp only
  repeat' (first
    | with_reducible intro _
    | with_reducible assumption
    | with_reducible apply keepsOut_next
    | with_reducible apply keepsOut_fault
    | with_reducible apply keepsOut_ite
    | with_reducible apply keeps_ite
    | with_reducible apply elapse_keeps
    | with_reducible apply lcsCommand_keeps
    | with_reducible apply lcsWriteFw_keeps
    | exact Nat.le_refl _
    | split
    | with_reducible refine Keeps.of_fst ?_ (by assumption))

theorem execLcsCmdWriteDocent_keeps {s₀ s : State} (h : Keeps s₀ s) (dt : Nat) (req : Requester) (key : Byte) (written verified : Bool) :
    KeepsOut s₀ (Machine.execLcsCmdWriteDocent dt req key written verified s) := by
  unfold Machine.execLcsCmdWriteDocent
  try dsimp only
  repeat' (first
    | with_reducible intro _
    | with_reducible assumption
    | with_reducible apply keepsOut_next
    | with_reducible apply keepsOut_fault
    | with_reducible apply keepsOut_ite
    | with_reducible apply keeps_ite
    | with_reducible apply elapse_keeps
    | with_reducible apply lcsCommand_keeps
    | with_reducible apply lcsWriteDocent_keeps
    | exact Nat.le_refl _
    | split
    | with_reducible refine Keeps.of_fst ?_ (by assumption))

theorem execLcsCmdWriteBootcfg_keeps {s₀ s : State} (h : Keeps s₀ s) (dt : Nat) (req : Requester) (key : Byte) (written verified : Bool) :
    KeepsOut s₀ (Machine.execLcsCmdWriteBootcfg dt req key written verified s) := by
  unfold Machine.execLcsCmdWriteBootcfg
  try dsimp only
  repeat' (first
    | with_reducible intro _
    | with_reducible assumption
    | with_reducible apply keepsOut_next
    | with_reducible apply keepsOut_fault
    | with_reducible apply keepsOut_ite
    | with_reducible apply keeps_ite
    | with_reducible apply elapse_keeps
    | with_reducible apply lcsCommand_keeps
    | with_reducible apply lcsWriteBootcfg_keeps
    | exact Nat.le_refl _
    | split
    | with_reducible refine Keeps.of_fst ?_ (by assumption))

theorem execLcsCmdCommitFw_keeps {s₀ s : State} (h : Keeps s₀ s) (dt : Nat) (req : Requester) (key : Byte) :
    KeepsOut s₀ (Machine.execLcsCmdCommitFw dt req key s) := by
  unfold Machine.execLcsCmdCommitFw
  try dsimp only
  repeat' (first
    | with_reducible intro _
    | with_reducible assumption
    | with_reducible apply keepsOut_next
    | with_reducible apply keepsOut_fault
    | with_reducible apply keepsOut_ite
    | with_reducible apply keeps_ite
    | with_reducible apply elapse_keeps
    | with_reducible apply lcsCommand_keeps
    | with_reducible apply lcsCommitFw_keeps
    | exact Nat.le_refl _
    | split
    | with_reducible refine Keeps.of_fst ?_ (by assumption))

theorem execLcsCmdRestart_keeps {s₀ s : State} (h : Keeps s₀ s) (dt : Nat) (req : Requester) (key : Byte) :
    KeepsOut s₀ (Machine.execLcsCmdRestart dt req key s) := by
  unfold Machine.execLcsCmdRestart
  try dsimp only
  repeat' (first
    | with_reducible intro _
    | with_reducible assumption
    | with_reducible apply keepsOut_next
    | with_reducible apply keepsOut_fault
    | with_reducible apply keepsOut_ite
    | with_reducible apply keeps_ite
    | with_reducible apply elapse_keeps
    | with_reducible apply lcsCommand_keeps
    | with_reducible apply lcsRestart_keeps
    | exact Nat.le_refl _
    | split
    | with_reducible refine Keeps.of_fst ?_ (by assumption))

theorem execLcsCmdVerify_keeps {s₀ s : State} (h : Keeps s₀ s) (dt : Nat) (req : Requester) (key _arg : Byte) :
    KeepsOut s₀ (Machine.execLcsCmdVerify dt req key _arg s) := by
  unfold Machine.execLcsCmdVerify
  try dsimp only
  repeat' (first
    | with_reducible intro _
    | with_reducible assumption
    | with_reducible apply keepsOut_next
    | with_reducible apply keepsOut_fault
    | with_reducible apply keepsOut_ite
    | with_reducible apply keeps_ite
    | with_reducible apply elapse_keeps
    | with_reducible apply lcsCommand_keeps
    | with_reducible apply lcsVerify_keeps
    | exact Nat.le_refl _
    | split
    | with_reducible refine Keeps.of_fst ?_ (by assumption))

theorem execLcsCmdComplete_keeps {s₀ s : State} (h : Keeps s₀ s) (dt : Nat) :
    KeepsOut s₀ (Machine.execLcsCmdComplete dt s) := by
  unfold Machine.execLcsCmdComplete
  try dsimp only
  repeat' (first
    | with_reducible intro _
    | with_reducible assumption
    | with_reducible apply keepsOut_next
    | with_reducible apply keepsOut_fault
    | with_reducible apply keepsOut_ite
    | with_reducible apply keeps_ite
    | with_reducible apply elapse_keeps
    | with_reducible apply lcsComplete_keeps
    | exact Nat.le_refl _
    | split
    | with_reducible refine Keeps.of_fst ?_ (by assumption))

end Sys2Proof.Laws
end

