-- ==== Sys2Proof/Laws/Keeps/Conservator.lean ====
section
/-! SUPPORT. What the operations and meanings of Machine/Conservator.lean keep (`Keeps`). -/

set_option linter.unreachableTactic false
set_option linter.unusedTactic false
set_option linter.unusedVariables false

namespace Sys2Proof.Laws

open Sys2Proof.Machine

theorem modCv_keeps {s₀ s : State} (h : Keeps s₀ s) (f : CvSt → CvSt) :
    Keeps s₀ (State.modCv s f) := by
  unfold State.modCv
  try dsimp only
  repeat' (first
    | with_reducible intro _
    | with_reducible assumption
    | with_reducible apply keeps_ite
    | exact Nat.le_refl _
    | split
    | with_reducible refine Keeps.of_fst ?_ (by assumption)
    | with_reducible refine keeps_mk ?_ rfl rfl rfl rfl (Nat.le_refl _))

theorem enterConservator_keeps {s₀ s : State} (h : Keeps s₀ s) (cause : Nat) :
    Keeps s₀ (State.enterConservator s cause) := by
  unfold State.enterConservator
  try dsimp only
  repeat' (first
    | with_reducible intro _
    | with_reducible assumption
    | with_reducible apply keeps_ite
    | with_reducible apply inc64_keeps
    | with_reducible apply modLcs_keeps
    | with_reducible apply setF_keeps
    | exact Nat.le_refl _
    | split
    | with_reducible refine Keeps.of_fst ?_ (by assumption)
    | with_reducible refine keeps_mk ?_ rfl rfl rfl rfl (Nat.le_refl _))

theorem cvSend_keeps {s₀ s : State} (h : Keeps s₀ s) (dest : Nat) (r : CvResp) :
    Keeps s₀ (State.cvSend s dest r) := by
  unfold State.cvSend
  try dsimp only
  repeat' (first
    | with_reducible intro _
    | with_reducible assumption
    | with_reducible apply keeps_ite
    | with_reducible apply modCv_keeps
    | exact Nat.le_refl _
    | split
    | with_reducible refine Keeps.of_fst ?_ (by assumption))

theorem cvAnswer_keeps {s₀ s : State} (h : Keeps s₀ s) (source type status : Nat) (payload : List Byte) :
    Keeps s₀ (State.cvAnswer s source type status payload) := by
  unfold State.cvAnswer
  try dsimp only
  repeat' (first
    | with_reducible intro _
    | with_reducible assumption
    | with_reducible apply keeps_ite
    | dsimp only
    | with_reducible apply keeps_ite_fst
    | with_reducible apply keeps_foldl_fst
    | with_reducible apply cvSend_keeps
    | with_reducible apply freshCtr_keeps
    | with_reducible apply modCv_keeps
    | exact Nat.le_refl _
    | split
    | with_reducible refine Keeps.of_fst ?_ (by assumption))

theorem cvRequest_keeps {s₀ s : State} (h : Keeps s₀ s) (source : Nat) (msg : List Byte) (type : Nat) (repeats : Bool) (f : CvReq → State → State) (hf : ∀ q u, Keeps s₀ u → Keeps s₀ (f q u)) :
    Keeps s₀ (State.cvRequest s source msg type repeats f) := by
  unfold State.cvRequest
  try dsimp only
  repeat' (first
    | with_reducible intro _
    | with_reducible assumption
    | with_reducible apply keeps_ite
    | with_reducible apply hf
    | with_reducible apply cvSend_keeps
    | with_reducible apply modCv_keeps
    | exact Nat.le_refl _
    | split
    | with_reducible refine Keeps.of_fst ?_ (by assumption))

theorem cvClose_keeps {s₀ s : State} (h : Keeps s₀ s) :
    Keeps s₀ (State.cvClose s) := by
  unfold State.cvClose
  try dsimp only
  repeat' (first
    | with_reducible intro _
    | with_reducible assumption
    | with_reducible apply keeps_ite
    | with_reducible apply modCv_keeps
    | exact Nat.le_refl _
    | split
    | with_reducible refine Keeps.of_fst ?_ (by assumption)
    | with_reducible refine keeps_mk ?_ rfl rfl rfl rfl (Nat.le_refl _))

theorem cvOpen_keeps {s₀ s : State} (h : Keeps s₀ s) (source seq : Nat) :
    Keeps s₀ (State.cvOpen s source seq) := by
  unfold State.cvOpen
  try dsimp only
  repeat' (first
    | with_reducible intro _
    | with_reducible assumption
    | with_reducible apply keeps_ite
    | with_reducible apply cvAnswer_keeps
    | with_reducible apply cvClose_keeps
    | with_reducible apply freshCtr_keeps
    | with_reducible apply modCv_keeps
    | exact Nat.le_refl _
    | split
    | with_reducible refine Keeps.of_fst ?_ (by assumption))

theorem cvWork_keeps {s₀ s : State} (h : Keeps s₀ s) :
    Keeps s₀ (State.cvWork s) := by
  unfold State.cvWork
  try dsimp only
  repeat' (first
    | with_reducible intro _
    | with_reducible assumption
    | with_reducible apply keeps_ite
    | with_reducible apply eraseCopy_keeps
    | with_reducible apply modCv_keeps
    | with_reducible apply modLcs_keeps
    | exact Nat.le_refl _
    | split
    | with_reducible refine Keeps.of_fst ?_ (by assumption))

theorem cvStore_keeps {s₀ s : State} (h : Keeps s₀ s) (written : Bool) :
    Keeps s₀ (State.cvStore s written) := by
  unfold State.cvStore
  try dsimp only
  repeat' (first
    | with_reducible intro _
    | with_reducible assumption
    | with_reducible apply keeps_ite
    | with_reducible apply bootCfgStored_keeps
    | with_reducible apply docentStored_keeps
    | with_reducible apply firmwareStored_keeps
    | with_reducible apply imageRefused_keeps
    | with_reducible apply modCv_keeps
    | with_reducible apply modLcs_keeps
    | exact Nat.le_refl _
    | split
    | with_reducible refine Keeps.of_fst ?_ (by assumption))

theorem execCvHello_keeps {s₀ s : State} (h : Keeps s₀ s) (dt : Nat) (m : CvDatagram) :
    KeepsOut s₀ (Machine.execCvHello dt m s) := by
  unfold Machine.execCvHello
  try dsimp only
  repeat' (first
    | with_reducible intro _
    | with_reducible assumption
    | with_reducible apply keepsOut_next
    | with_reducible apply keepsOut_fault
    | with_reducible apply keepsOut_ite
    | with_reducible apply keeps_ite
    | with_reducible apply cvOpen_keeps
    | with_reducible apply cvSend_keeps
    | with_reducible apply elapse_keeps
    | with_reducible apply freshCtr_keeps
    | with_reducible apply modCv_keeps
    | exact Nat.le_refl _
    | split
    | with_reducible refine Keeps.of_fst ?_ (by assumption))

theorem execCvBegin_keeps {s₀ s : State} (h : Keeps s₀ s) (dt addr port : Nat) (msg : List Byte) :
    KeepsOut s₀ (Machine.execCvBegin dt addr port msg s) := by
  unfold Machine.execCvBegin
  try dsimp only
  repeat' (first
    | with_reducible intro _
    | with_reducible assumption
    | with_reducible apply keepsOut_next
    | with_reducible apply keepsOut_fault
    | with_reducible apply keepsOut_ite
    | with_reducible apply keeps_ite
    | with_reducible apply cvAnswer_keeps
    | with_reducible apply cvRequest_keeps
    | with_reducible apply elapse_keeps
    | with_reducible apply modCv_keeps
    | exact Nat.le_refl _
    | split
    | with_reducible refine Keeps.of_fst ?_ (by assumption))

theorem execCvData_keeps {s₀ s : State} (h : Keeps s₀ s) (dt addr port : Nat) (msg : List Byte) :
    KeepsOut s₀ (Machine.execCvData dt addr port msg s) := by
  unfold Machine.execCvData
  try dsimp only
  repeat' (first
    | with_reducible intro _
    | with_reducible assumption
    | with_reducible apply keepsOut_next
    | with_reducible apply keepsOut_fault
    | with_reducible apply keepsOut_ite
    | with_reducible apply keeps_ite
    | with_reducible apply cvAnswer_keeps
    | with_reducible apply cvRequest_keeps
    | with_reducible apply elapse_keeps
    | with_reducible apply modCv_keeps
    | exact Nat.le_refl _
    | split
    | with_reducible refine Keeps.of_fst ?_ (by assumption))

theorem execCvEnd_keeps {s₀ s : State} (h : Keeps s₀ s) (dt source : Nat) (msg : List Byte) :
    KeepsOut s₀ (Machine.execCvEnd dt source msg s) := by
  unfold Machine.execCvEnd
  try dsimp only
  repeat' (first
    | with_reducible intro _
    | with_reducible assumption
    | with_reducible apply keepsOut_next
    | with_reducible apply keepsOut_fault
    | with_reducible apply keepsOut_ite
    | with_reducible apply keeps_ite
    | with_reducible apply cvAnswer_keeps
    | with_reducible apply cvRequest_keeps
    | with_reducible apply cvWork_keeps
    | with_reducible apply elapse_keeps
    | exact Nat.le_refl _
    | split
    | with_reducible refine Keeps.of_fst ?_ (by assumption))

theorem execCvWriteDone_keeps {s₀ s : State} (h : Keeps s₀ s) (dt : Nat) (written : Bool) :
    KeepsOut s₀ (Machine.execCvWriteDone dt written s) := by
  unfold Machine.execCvWriteDone
  try dsimp only
  repeat' (first
    | with_reducible intro _
    | with_reducible assumption
    | with_reducible apply keepsOut_next
    | with_reducible apply keepsOut_fault
    | with_reducible apply keepsOut_ite
    | with_reducible apply keeps_ite
    | with_reducible apply cvStore_keeps
    | with_reducible apply elapse_keeps
    | exact Nat.le_refl _
    | split
    | with_reducible refine Keeps.of_fst ?_ (by assumption))

theorem execCvReset_keeps {s₀ s : State} (h : Keeps s₀ s) (dt : Nat) (m : CvDatagram) :
    KeepsOut s₀ (Machine.execCvReset dt m s) := by
  unfold Machine.execCvReset
  try dsimp only
  repeat' (first
    | with_reducible intro _
    | with_reducible assumption
    | with_reducible apply keepsOut_next
    | with_reducible apply keepsOut_fault
    | with_reducible apply keepsOut_ite
    | with_reducible apply keeps_ite
    | with_reducible apply cvAnswer_keeps
    | with_reducible apply cvClose_keeps
    | with_reducible apply cvRequest_keeps
    | with_reducible apply elapse_keeps
    | with_reducible apply modCv_keeps
    | exact Nat.le_refl _
    | split
    | with_reducible refine Keeps.of_fst ?_ (by assumption))

theorem execCvAbort_keeps {s₀ s : State} (h : Keeps s₀ s) (dt : Nat) (m : CvDatagram) :
    KeepsOut s₀ (Machine.execCvAbort dt m s) := by
  unfold Machine.execCvAbort
  try dsimp only
  repeat' (first
    | with_reducible intro _
    | with_reducible assumption
    | with_reducible apply keepsOut_next
    | with_reducible apply keepsOut_fault
    | with_reducible apply keepsOut_ite
    | with_reducible apply keeps_ite
    | with_reducible apply cvAnswer_keeps
    | with_reducible apply cvClose_keeps
    | with_reducible apply cvRequest_keeps
    | with_reducible apply elapse_keeps
    | exact Nat.le_refl _
    | split
    | with_reducible refine Keeps.of_fst ?_ (by assumption))

theorem execCvSessionTimeout_keeps {s₀ s : State} (h : Keeps s₀ s) (dt : Nat) :
    KeepsOut s₀ (Machine.execCvSessionTimeout dt s) := by
  unfold Machine.execCvSessionTimeout
  try dsimp only
  repeat' (first
    | with_reducible intro _
    | with_reducible assumption
    | with_reducible apply keepsOut_next
    | with_reducible apply keepsOut_fault
    | with_reducible apply keepsOut_ite
    | with_reducible apply keeps_ite
    | with_reducible apply cvClose_keeps
    | with_reducible apply elapse_keeps
    | exact Nat.le_refl _
    | split
    | with_reducible refine Keeps.of_fst ?_ (by assumption))

end Sys2Proof.Laws
end

