-- ==== Sys2Proof/Laws/Keeps/Boot.lean ====
section
/-! SUPPORT. What the operations and meanings of Machine/Boot.lean keep (`Keeps`). -/

set_option linter.unreachableTactic false
set_option linter.unusedTactic false
set_option linter.unusedVariables false

namespace Sys2Proof.Laws

open Sys2Proof.Machine

theorem regsWf_resetRegs {l : List (Nat × Word)} (h : swf Config.resetWord 0 l = true) :
    swf Config.resetWord 0 (resetRegs l) = true := by
  refine swf_filterMap _ _ ?_ h
  intro x y hy
  dsimp only at hy
  split at hy
  · cases hy
  · rename_i hv
    cases hy
    exact ⟨rfl, hv⟩

theorem clearBlocks_keeps {s₀ s : State} (h : Keeps s₀ s) : Keeps s₀ (State.clearBlocks s) := by
  unfold State.clearBlocks
  with_reducible apply garModuleReset_keeps
  with_reducible apply setF_keeps
  with_reducible apply showArc_keeps
  with_reducible apply setB_keeps
  exact ⟨h.queue, fun x => regsWf_resetRegs (h.regs x), h.mem, h.clock, h.free⟩

theorem reenableCats_keeps {s₀ s : State} (h : Keeps s₀ s) :
    Keeps s₀ (State.reenableCats s) := by
  unfold State.reenableCats
  try dsimp only
  repeat' (first
    | with_reducible intro _
    | with_reducible assumption
    | with_reducible apply keeps_ite
    | with_reducible apply keeps_foldl
    | with_reducible apply catEnable_keeps
    | with_reducible apply wr_keeps
    | exact Nat.le_refl _
    | split
    | with_reducible refine Keeps.of_fst ?_ (by assumption))

theorem cscPortsDown_keeps {s₀ s : State} (h : Keeps s₀ s) :
    Keeps s₀ (State.cscPortsDown s) := by
  unfold State.cscPortsDown
  try dsimp only
  repeat' (first
    | with_reducible intro _
    | with_reducible assumption
    | with_reducible apply keeps_ite
    | with_reducible apply keeps_foldl
    | with_reducible apply modCsc_keeps
    | with_reducible apply setF_keeps
    | with_reducible apply wr_keeps
    | exact Nat.le_refl _
    | split
    | with_reducible refine Keeps.of_fst ?_ (by assumption))

theorem showPlug_keeps {s₀ s : State} (h : Keeps s₀ s) (m : List Byte) :
    Keeps s₀ (State.showPlug s m) := by
  unfold State.showPlug
  try dsimp only
  repeat' (first
    | with_reducible intro _
    | with_reducible assumption
    | with_reducible apply keeps_ite
    | with_reducible apply keeps_foldl
    | with_reducible apply wr_keeps
    | exact Nat.le_refl _
    | split
    | with_reducible refine Keeps.of_fst ?_ (by assumption))

theorem readPlug_keeps {s₀ s : State} (h : Keeps s₀ s) (p : PlugRead) :
    Keeps s₀ (State.readPlug s p) := by
  unfold State.readPlug
  try dsimp only
  repeat' (first
    | with_reducible intro _
    | with_reducible assumption
    | with_reducible apply keeps_ite
    | with_reducible apply keeps_foldl
    | with_reducible apply cscPortsDown_keeps
    | with_reducible apply emit_keeps
    | with_reducible apply setB_keeps
    | with_reducible apply setF_keeps
    | with_reducible apply showPlug_keeps
    | with_reducible apply wr_keeps
    | exact Nat.le_refl _
    | split
    | with_reducible refine Keeps.of_fst ?_ (by assumption))

theorem startTime_keeps {s₀ s : State} (h : Keeps s₀ s) (env : ResetEnv) :
    Keeps s₀ (State.startTime s env) := by
  unfold State.startTime
  try dsimp only
  repeat' (first
    | with_reducible intro _
    | with_reducible assumption
    | with_reducible apply keeps_ite
    | with_reducible apply setB_keeps
    | with_reducible apply wr64_keeps
    | exact Nat.le_refl _
    | split
    | with_reducible refine Keeps.of_fst ?_ (by assumption)
    | with_reducible refine keeps_mk ?_ rfl rfl rfl rfl (Nat.le_refl _))

theorem moduleReset_keeps {s₀ s : State} (h : Keeps s₀ s) (cause : Nat) (env : ResetEnv) :
    Keeps s₀ (State.moduleReset s cause env) := by
  unfold State.moduleReset
  try dsimp only
  repeat' (first
    | with_reducible intro _
    | with_reducible assumption
    | with_reducible apply keeps_ite
    | dsimp only
    | with_reducible apply keeps_ite_fst
    | with_reducible apply keeps_foldl_fst
    | with_reducible apply clearBlocks_keeps
    | with_reducible apply cscPortsDown_keeps
    | with_reducible apply emit_keeps
    | with_reducible apply modLcs_keeps
    | with_reducible apply readPlug_keeps
    | with_reducible apply reenableCats_keeps
    | with_reducible apply setB_keeps
    | with_reducible apply setF_keeps
    | with_reducible apply startTime_keeps
    | with_reducible apply wr64_keeps
    | with_reducible apply memFilter_keeps
    | exact Nat.le_refl _
    | split
    | with_reducible refine Keeps.of_fst ?_ (by assumption)
    | with_reducible refine keeps_mk ?_ rfl rfl rfl rfl (Nat.le_refl _))

theorem triadStart_keeps {s₀ s : State} (h : Keeps s₀ s) (lanes : Nat) :
    Keeps s₀ (State.triadStart s lanes) := by
  unfold State.triadStart
  try dsimp only
  repeat' (first
    | with_reducible intro _
    | with_reducible assumption
    | with_reducible apply keeps_ite
    | with_reducible apply emit_keeps
    | with_reducible apply setF_keeps
    | with_reducible apply triadSafe_keeps
    | exact Nat.le_refl _
    | split
    | with_reducible refine Keeps.of_fst ?_ (by assumption))

theorem lbistDone_keeps {s₀ s : State} (h : Keeps s₀ s) (failed : List (Fin 27 × Fin 16)) (ms : Nat) :
    Keeps s₀ (State.lbistDone s failed ms) := by
  unfold State.lbistDone
  try dsimp only
  repeat' (first
    | with_reducible intro _
    | with_reducible assumption
    | with_reducible apply keeps_ite
    | dsimp only
    | with_reducible apply keeps_ite_fst
    | with_reducible apply keeps_foldl_fst
    | with_reducible apply keeps_foldl
    | with_reducible apply emit_keeps
    | with_reducible apply modLcs_keeps
    | with_reducible apply setF_keeps
    | with_reducible apply triadStart_keeps
    | exact Nat.le_refl _
    | split
    | with_reducible refine Keeps.of_fst ?_ (by assumption))

theorem applyBoot_keeps {s₀ s : State} (h : Keeps s₀ s) (body : List Byte) :
    Keeps s₀ (State.applyBoot s body) := by
  unfold State.applyBoot
  try dsimp only
  repeat' (first
    | with_reducible intro _
    | with_reducible assumption
    | with_reducible apply keeps_ite
    | with_reducible apply keeps_foldl
    | with_reducible apply modLcs_keeps
    | with_reducible apply setB_keeps
    | with_reducible apply setF_keeps
    | exact Nat.le_refl _
    | split
    | with_reducible refine Keeps.of_fst ?_ (by assumption))

theorem romBoot_keeps {s₀ s : State} (h : Keeps s₀ s) :
    Keeps s₀ (State.romBoot s) := by
  unfold State.romBoot
  try dsimp only
  repeat' (first
    | with_reducible intro _
    | with_reducible assumption
    | with_reducible apply keeps_ite
    | with_reducible apply applyBoot_keeps
    | with_reducible apply enterConservator_keeps
    | with_reducible apply modLcs_keeps
    | with_reducible apply setB_keeps
    | with_reducible apply setF_keeps
    | exact Nat.le_refl _
    | split
    | with_reducible refine Keeps.of_fst ?_ (by assumption))

theorem docentLoad_keeps {s₀ s : State} (h : Keeps s₀ s) (fw : Image) :
    Keeps s₀ (State.docentLoad s fw) := by
  unfold State.docentLoad
  try dsimp only
  repeat' (first
    | with_reducible intro _
    | with_reducible assumption
    | with_reducible apply keeps_ite
    | with_reducible apply memWrite_keeps
    | exact Nat.le_refl _
    | split
    | with_reducible refine Keeps.of_fst ?_ (by assumption))

theorem docentStart_keeps {s₀ s : State} (h : Keeps s₀ s) :
    Keeps s₀ (State.docentStart s) := by
  unfold State.docentStart
  try dsimp only
  repeat' (first
    | with_reducible intro _
    | with_reducible assumption
    | with_reducible apply keeps_ite
    | dsimp only
    | with_reducible apply keeps_ite_fst
    | with_reducible apply keeps_foldl_fst
    | with_reducible apply keeps_foldl
    | with_reducible apply docentLoad_keeps
    | with_reducible apply enterConservator_keeps
    | with_reducible apply markDirty_keeps
    | with_reducible apply memSet_keeps
    | with_reducible apply modLcs_keeps
    | with_reducible apply modTime_keeps
    | with_reducible apply setB_keeps
    | with_reducible apply setF_keeps
    | with_reducible apply wr_keeps
    | with_reducible apply memFilter_keeps
    | exact Nat.le_refl _
    | split
    | with_reducible refine Keeps.of_fst ?_ (by assumption)
    | with_reducible refine keeps_mk ?_ rfl rfl rfl rfl (Nat.le_refl _))

theorem custodyStart_keeps {s₀ s : State} (h : Keeps s₀ s) :
    Keeps s₀ (State.custodyStart s) := by
  unfold State.custodyStart
  try dsimp only
  repeat' (first
    | with_reducible intro _
    | with_reducible assumption
    | with_reducible apply keeps_ite
    | with_reducible apply modRpl_keeps
    | with_reducible apply negotiate_keeps
    | with_reducible apply setB_keeps
    | with_reducible apply setRole_keeps
    | with_reducible apply startDone_keeps
    | exact Nat.le_refl _
    | split
    | with_reducible refine Keeps.of_fst ?_ (by assumption))

theorem execPowerApplied_keeps {s₀ s : State} (h : Keeps s₀ s) (dt vin : Nat) (env : ResetEnv) :
    KeepsOut s₀ (Machine.execPowerApplied dt vin env s) := by
  unfold Machine.execPowerApplied
  try dsimp only
  repeat' (first
    | with_reducible intro _
    | with_reducible assumption
    | with_reducible apply keepsOut_next
    | with_reducible apply keepsOut_fault
    | with_reducible apply keepsOut_ite
    | with_reducible apply keeps_ite
    | with_reducible apply elapse_keeps
    | with_reducible apply moduleReset_keeps
    | with_reducible apply setF_keeps
    | exact Nat.le_refl _
    | split
    | with_reducible refine Keeps.of_fst ?_ (by assumption))

theorem execModuleReset_keeps {s₀ s : State} (h : Keeps s₀ s) (dt : Nat) (cause : ResetCause) (env : ResetEnv) :
    KeepsOut s₀ (Machine.execModuleReset dt cause env s) := by
  unfold Machine.execModuleReset
  try dsimp only
  repeat' (first
    | with_reducible intro _
    | with_reducible assumption
    | with_reducible apply keepsOut_next
    | with_reducible apply keepsOut_fault
    | with_reducible apply keepsOut_ite
    | with_reducible apply keeps_ite
    | with_reducible apply elapse_keeps
    | with_reducible apply moduleReset_keeps
    | exact Nat.le_refl _
    | split
    | with_reducible refine Keeps.of_fst ?_ (by assumption))

theorem execStartupLbistComplete_keeps {s₀ s : State} (h : Keeps s₀ s) (dt : Nat) (failed : List (Fin 27 × Fin 16)) (ms : Nat) :
    KeepsOut s₀ (Machine.execStartupLbistComplete dt failed ms s) := by
  unfold Machine.execStartupLbistComplete
  try dsimp only
  repeat' (first
    | with_reducible intro _
    | with_reducible assumption
    | with_reducible apply keepsOut_next
    | with_reducible apply keepsOut_fault
    | with_reducible apply keepsOut_ite
    | with_reducible apply keeps_ite
    | with_reducible apply elapse_keeps
    | with_reducible apply lbistDone_keeps
    | exact Nat.le_refl _
    | split
    | with_reducible refine Keeps.of_fst ?_ (by assumption))

theorem execRomBoot_keeps {s₀ s : State} (h : Keeps s₀ s) (dt : Nat) :
    KeepsOut s₀ (Machine.execRomBoot dt s) := by
  unfold Machine.execRomBoot
  try dsimp only
  repeat' (first
    | with_reducible intro _
    | with_reducible assumption
    | with_reducible apply keepsOut_next
    | with_reducible apply keepsOut_fault
    | with_reducible apply keepsOut_ite
    | with_reducible apply keeps_ite
    | with_reducible apply elapse_keeps
    | with_reducible apply romBoot_keeps
    | exact Nat.le_refl _
    | split
    | with_reducible refine Keeps.of_fst ?_ (by assumption))

theorem execDocentStart_keeps {s₀ s : State} (h : Keeps s₀ s) (dt : Nat) :
    KeepsOut s₀ (Machine.execDocentStart dt s) := by
  unfold Machine.execDocentStart
  try dsimp only
  repeat' (first
    | with_reducible intro _
    | with_reducible assumption
    | with_reducible apply keepsOut_next
    | with_reducible apply keepsOut_fault
    | with_reducible apply keepsOut_ite
    | with_reducible apply keeps_ite
    | with_reducible apply docentStart_keeps
    | with_reducible apply elapse_keeps
    | exact Nat.le_refl _
    | split
    | with_reducible refine Keeps.of_fst ?_ (by assumption))

theorem execCustodyNegotiation_keeps {s₀ s : State} (h : Keeps s₀ s) (dt : Nat) :
    KeepsOut s₀ (Machine.execCustodyNegotiation dt s) := by
  unfold Machine.execCustodyNegotiation
  try dsimp only
  repeat' (first
    | with_reducible intro _
    | with_reducible assumption
    | with_reducible apply keepsOut_next
    | with_reducible apply keepsOut_fault
    | with_reducible apply keepsOut_ite
    | with_reducible apply keeps_ite
    | with_reducible apply custodyStart_keeps
    | with_reducible apply elapse_keeps
    | with_reducible apply farSettle_keeps
    | exact Nat.le_refl _
    | split
    | with_reducible refine Keeps.of_fst ?_ (by assumption))

end Sys2Proof.Laws
end

