-- ==== Sys2Proof/Laws/Keeps/Power.lean ====
section
/-! SUPPORT. What the operations and meanings of Machine/Power.lean keep (`Keeps`). -/

set_option linter.unreachableTactic false
set_option linter.unusedTactic false
set_option linter.unusedVariables false

namespace Sys2Proof.Laws

open Sys2Proof.Machine

theorem modPwr_keeps {s₀ s : State} (h : Keeps s₀ s) (f : PwrSt → PwrSt) :
    Keeps s₀ (State.modPwr s f) := by
  unfold State.modPwr
  try dsimp only
  repeat' (first
    | with_reducible intro _
    | with_reducible assumption
    | with_reducible apply keeps_ite
    | exact Nat.le_refl _
    | split
    | with_reducible refine Keeps.of_fst ?_ (by assumption)
    | with_reducible refine keeps_mk ?_ rfl rfl rfl rfl (Nat.le_refl _))

theorem unlessOff_keeps {s₀ s : State} (h : Keeps s₀ s) (f : State → State) (hf : ∀ u, Keeps s₀ u → Keeps s₀ (f u)) :
    Keeps s₀ (State.unlessOff s f) := by
  unfold State.unlessOff
  try dsimp only
  repeat' (first
    | with_reducible intro _
    | with_reducible assumption
    | with_reducible apply keeps_ite
    | with_reducible apply hf
    | exact Nat.le_refl _
    | split
    | with_reducible refine Keeps.of_fst ?_ (by assumption))

theorem bkEdge_keeps {s₀ s : State} (h : Keeps s₀ s) :
    Keeps s₀ (State.bkEdge s) := by
  unfold State.bkEdge
  try dsimp only
  repeat' (first
    | with_reducible intro _
    | with_reducible assumption
    | with_reducible apply keeps_ite
    | with_reducible apply modPwr_keeps
    | with_reducible apply wr64_keeps
    | exact Nat.le_refl _
    | split
    | with_reducible refine Keeps.of_fst ?_ (by assumption))

theorem setVin_keeps {s₀ s : State} (h : Keeps s₀ s) (vin : Nat) :
    Keeps s₀ (State.setVin s vin) := by
  unfold State.setVin
  try dsimp only
  repeat' (first
    | with_reducible intro _
    | with_reducible assumption
    | with_reducible apply keeps_ite
    | with_reducible apply setF_keeps
    | exact Nat.le_refl _
    | split
    | with_reducible refine Keeps.of_fst ?_ (by assumption))

theorem setTemp_keeps {s₀ s : State} (h : Keeps s₀ s) (t : Int) :
    Keeps s₀ (State.setTemp s t) := by
  unfold State.setTemp
  try dsimp only
  repeat' (first
    | with_reducible intro _
    | with_reducible assumption
    | with_reducible apply keeps_ite
    | with_reducible apply modPwr_keeps
    | with_reducible apply setF_keeps
    | exact Nat.le_refl _
    | split
    | with_reducible refine Keeps.of_fst ?_ (by assumption))

theorem assertPfw_keeps {s₀ s : State} (h : Keeps s₀ s) (vin : Nat) :
    Keeps s₀ (State.assertPfw s vin) := by
  unfold State.assertPfw
  try dsimp only
  repeat' (first
    | with_reducible intro _
    | with_reducible assumption
    | with_reducible apply keeps_ite
    | with_reducible apply keeps_foldl
    | with_reducible apply emit_keeps
    | with_reducible apply inc64_keeps
    | with_reducible apply interrupt_keeps
    | with_reducible apply modPwr_keeps
    | with_reducible apply setB_keeps
    | exact Nat.le_refl _
    | split
    | with_reducible refine Keeps.of_fst ?_ (by assumption))

theorem nvStop_keeps {s₀ s : State} (h : Keeps s₀ s) (vhold : Nat) :
    Keeps s₀ (State.nvStop s vhold) := by
  unfold State.nvStop
  try dsimp only
  repeat' (first
    | with_reducible intro _
    | with_reducible assumption
    | with_reducible apply keeps_ite
    | with_reducible apply emit_keeps
    | with_reducible apply modPwr_keeps
    | with_reducible apply modRpl_keeps
    | with_reducible apply releaseCustody_keeps
    | with_reducible apply setB_keeps
    | with_reducible apply wr64_keeps
    | exact Nat.le_refl _
    | split
    | with_reducible refine Keeps.of_fst ?_ (by assumption))

theorem execPwrPfw_keeps {s₀ s : State} (h : Keeps s₀ s) (dt vin : Nat) :
    KeepsOut s₀ (Machine.execPwrPfw dt vin s) := by
  unfold Machine.execPwrPfw
  try dsimp only
  repeat' (first
    | with_reducible intro _
    | with_reducible assumption
    | with_reducible apply keepsOut_next
    | with_reducible apply keepsOut_fault
    | with_reducible apply keepsOut_ite
    | with_reducible apply keeps_ite
    | with_reducible apply assertPfw_keeps
    | with_reducible apply elapse_keeps
    | with_reducible apply setVin_keeps
    | with_reducible apply unlessOff_keeps
    | exact Nat.le_refl _
    | split
    | with_reducible refine Keeps.of_fst ?_ (by assumption))

theorem execPwrPfwClear_keeps {s₀ s : State} (h : Keeps s₀ s) (dt vin : Nat) :
    KeepsOut s₀ (Machine.execPwrPfwClear dt vin s) := by
  unfold Machine.execPwrPfwClear
  try dsimp only
  repeat' (first
    | with_reducible intro _
    | with_reducible assumption
    | with_reducible apply keepsOut_next
    | with_reducible apply keepsOut_fault
    | with_reducible apply keepsOut_ite
    | with_reducible apply keeps_ite
    | with_reducible apply elapse_keeps
    | with_reducible apply emit_keeps
    | with_reducible apply inc64_keeps
    | with_reducible apply modPwr_keeps
    | with_reducible apply setB_keeps
    | with_reducible apply setVin_keeps
    | with_reducible apply unlessOff_keeps
    | with_reducible apply wr_keeps
    | exact Nat.le_refl _
    | split
    | with_reducible refine Keeps.of_fst ?_ (by assumption))

theorem execPwrNvStop_keeps {s₀ s : State} (h : Keeps s₀ s) (dt vhold : Nat) :
    KeepsOut s₀ (Machine.execPwrNvStop dt vhold s) := by
  unfold Machine.execPwrNvStop
  try dsimp only
  repeat' (first
    | with_reducible intro _
    | with_reducible assumption
    | with_reducible apply keepsOut_next
    | with_reducible apply keepsOut_fault
    | with_reducible apply keepsOut_ite
    | with_reducible apply keeps_ite
    | with_reducible apply elapse_keeps
    | with_reducible apply nvStop_keeps
    | with_reducible apply setF_keeps
    | with_reducible apply unlessOff_keeps
    | exact Nat.le_refl _
    | split
    | with_reducible refine Keeps.of_fst ?_ (by assumption))

theorem execOrderlyReset_keeps {s₀ s : State} (h : Keeps s₀ s) (dt : Nat) :
    KeepsOut s₀ (Machine.execOrderlyReset dt s) := by
  unfold Machine.execOrderlyReset
  try dsimp only
  repeat' (first
    | with_reducible intro _
    | with_reducible assumption
    | with_reducible apply keepsOut_next
    | with_reducible apply keepsOut_fault
    | with_reducible apply keepsOut_ite
    | with_reducible apply keeps_ite
    | with_reducible apply clearBlocks_keeps
    | with_reducible apply cscPortsDown_keeps
    | with_reducible apply elapse_keeps
    | with_reducible apply modLcs_keeps
    | with_reducible apply modPwr_keeps
    | exact Nat.le_refl _
    | split
    | with_reducible refine Keeps.of_fst ?_ (by assumption))

theorem execPwrOvervoltage_keeps {s₀ s : State} (h : Keeps s₀ s) (dt vin : Nat) :
    KeepsOut s₀ (Machine.execPwrOvervoltage dt vin s) := by
  unfold Machine.execPwrOvervoltage
  try dsimp only
  repeat' (first
    | with_reducible intro _
    | with_reducible assumption
    | with_reducible apply keepsOut_next
    | with_reducible apply keepsOut_fault
    | with_reducible apply keepsOut_ite
    | with_reducible apply keeps_ite
    | with_reducible apply assertPfw_keeps
    | with_reducible apply elapse_keeps
    | with_reducible apply emit_keeps
    | with_reducible apply inc64_keeps
    | with_reducible apply modPwr_keeps
    | with_reducible apply setB_keeps
    | with_reducible apply setVin_keeps
    | with_reducible apply unlessOff_keeps
    | exact Nat.le_refl _
    | split
    | with_reducible refine Keeps.of_fst ?_ (by assumption))

theorem execOvervoltageReconnect_keeps {s₀ s : State} (h : Keeps s₀ s) (dt vin : Nat) :
    KeepsOut s₀ (Machine.execOvervoltageReconnect dt vin s) := by
  unfold Machine.execOvervoltageReconnect
  try dsimp only
  repeat' (first
    | with_reducible intro _
    | with_reducible assumption
    | with_reducible apply keepsOut_next
    | with_reducible apply keepsOut_fault
    | with_reducible apply keepsOut_ite
    | with_reducible apply keeps_ite
    | with_reducible apply elapse_keeps
    | with_reducible apply modPwr_keeps
    | with_reducible apply setB_keeps
    | with_reducible apply setVin_keeps
    | with_reducible apply unlessOff_keeps
    | exact Nat.le_refl _
    | split
    | with_reducible refine Keeps.of_fst ?_ (by assumption))

theorem execPwrVinRange_keeps {s₀ s : State} (h : Keeps s₀ s) (dt : Nat) (high : Bool) (vin : Nat) :
    KeepsOut s₀ (Machine.execPwrVinRange dt high vin s) := by
  unfold Machine.execPwrVinRange
  try dsimp only
  repeat' (first
    | with_reducible intro _
    | with_reducible assumption
    | with_reducible apply keepsOut_next
    | with_reducible apply keepsOut_fault
    | with_reducible apply keepsOut_ite
    | with_reducible apply keeps_ite
    | with_reducible apply elapse_keeps
    | with_reducible apply emit_keeps
    | with_reducible apply setB_keeps
    | with_reducible apply setVin_keeps
    | with_reducible apply unlessOff_keeps
    | exact Nat.le_refl _
    | split
    | with_reducible refine Keeps.of_fst ?_ (by assumption))

theorem execPwrTempWarn_keeps {s₀ s : State} (h : Keeps s₀ s) (dt : Nat) (temp : Int) :
    KeepsOut s₀ (Machine.execPwrTempWarn dt temp s) := by
  unfold Machine.execPwrTempWarn
  try dsimp only
  repeat' (first
    | with_reducible intro _
    | with_reducible assumption
    | with_reducible apply keepsOut_next
    | with_reducible apply keepsOut_fault
    | with_reducible apply keepsOut_ite
    | with_reducible apply keeps_ite
    | with_reducible apply elapse_keeps
    | with_reducible apply emit_keeps
    | with_reducible apply inc64_keeps
    | with_reducible apply setB_keeps
    | with_reducible apply setTemp_keeps
    | with_reducible apply unlessOff_keeps
    | exact Nat.le_refl _
    | split
    | with_reducible refine Keeps.of_fst ?_ (by assumption))

theorem execPwrOvertemp_keeps {s₀ s : State} (h : Keeps s₀ s) (dt : Nat) (temp : Int) :
    KeepsOut s₀ (Machine.execPwrOvertemp dt temp s) := by
  unfold Machine.execPwrOvertemp
  try dsimp only
  repeat' (first
    | with_reducible intro _
    | with_reducible assumption
    | with_reducible apply keepsOut_next
    | with_reducible apply keepsOut_fault
    | with_reducible apply keepsOut_ite
    | with_reducible apply keeps_ite
    | with_reducible apply elapse_keeps
    | with_reducible apply emit_keeps
    | with_reducible apply modPwr_keeps
    | with_reducible apply nvStop_keeps
    | with_reducible apply setB_keeps
    | with_reducible apply setTemp_keeps
    | with_reducible apply unlessOff_keeps
    | exact Nat.le_refl _
    | split
    | with_reducible refine Keeps.of_fst ?_ (by assumption))

theorem execSysPlugFault_keeps {s₀ s : State} (h : Keeps s₀ s) (dt : Nat) :
    KeepsOut s₀ (Machine.execSysPlugFault dt s) := by
  unfold Machine.execSysPlugFault
  try dsimp only
  repeat' (first
    | with_reducible intro _
    | with_reducible assumption
    | with_reducible apply keepsOut_next
    | with_reducible apply keepsOut_fault
    | with_reducible apply keepsOut_ite
    | with_reducible apply keeps_ite
    | with_reducible apply elapse_keeps
    | with_reducible apply emit_keeps
    | with_reducible apply setB_keeps
    | with_reducible apply unlessOff_keeps
    | exact Nat.le_refl _
    | split
    | with_reducible refine Keeps.of_fst ?_ (by assumption))

theorem execHoldupCharged_keeps {s₀ s : State} (h : Keeps s₀ s) (dt vhold : Nat) :
    KeepsOut s₀ (Machine.execHoldupCharged dt vhold s) := by
  unfold Machine.execHoldupCharged
  try dsimp only
  repeat' (first
    | with_reducible intro _
    | with_reducible assumption
    | with_reducible apply keepsOut_next
    | with_reducible apply keepsOut_fault
    | with_reducible apply keepsOut_ite
    | with_reducible apply keeps_ite
    | with_reducible apply elapse_keeps
    | with_reducible apply setB_keeps
    | with_reducible apply setF_keeps
    | with_reducible apply unlessOff_keeps
    | exact Nat.le_refl _
    | split
    | with_reducible refine Keeps.of_fst ?_ (by assumption))

theorem execTempwarnClear_keeps {s₀ s : State} (h : Keeps s₀ s) (dt : Nat) (temp : Int) :
    KeepsOut s₀ (Machine.execTempwarnClear dt temp s) := by
  unfold Machine.execTempwarnClear
  try dsimp only
  repeat' (first
    | with_reducible intro _
    | with_reducible assumption
    | with_reducible apply keepsOut_next
    | with_reducible apply keepsOut_fault
    | with_reducible apply keepsOut_ite
    | with_reducible apply keeps_ite
    | with_reducible apply elapse_keeps
    | with_reducible apply setB_keeps
    | with_reducible apply setTemp_keeps
    | with_reducible apply unlessOff_keeps
    | exact Nat.le_refl _
    | split
    | with_reducible refine Keeps.of_fst ?_ (by assumption))

theorem execOvertempRelease_keeps {s₀ s : State} (h : Keeps s₀ s) (dt : Nat) (temp : Int) (env : ResetEnv) :
    KeepsOut s₀ (Machine.execOvertempRelease dt temp env s) := by
  unfold Machine.execOvertempRelease
  try dsimp only
  repeat' (first
    | with_reducible intro _
    | with_reducible assumption
    | with_reducible apply keepsOut_next
    | with_reducible apply keepsOut_fault
    | with_reducible apply keepsOut_ite
    | with_reducible apply keeps_ite
    | with_reducible apply elapse_keeps
    | with_reducible apply moduleReset_keeps
    | with_reducible apply setTemp_keeps
    | exact Nat.le_refl _
    | split
    | with_reducible refine Keeps.of_fst ?_ (by assumption))

theorem execTamperLatchSet_keeps {s₀ s : State} (h : Keeps s₀ s) (dt : Nat) :
    KeepsOut s₀ (Machine.execTamperLatchSet dt s) := by
  unfold Machine.execTamperLatchSet
  try dsimp only
  repeat' (first
    | with_reducible intro _
    | with_reducible assumption
    | with_reducible apply keepsOut_next
    | with_reducible apply keepsOut_fault
    | with_reducible apply keepsOut_ite
    | with_reducible apply keeps_ite
    | with_reducible apply elapse_keeps
    | with_reducible apply modLcs_keeps
    | with_reducible apply setB_keeps
    | exact Nat.le_refl _
    | split
    | with_reducible refine Keeps.of_fst ?_ (by assumption))

end Sys2Proof.Laws
end

