-- ==== Sys2Proof/Laws/Keeps/Blocks.lean ====
section
/-! SUPPORT. What the operations and meanings of Machine/Blocks.lean keep (`Keeps`). -/

set_option linter.unreachableTactic false
set_option linter.unusedTactic false
set_option linter.unusedVariables false

namespace Sys2Proof.Laws

open Sys2Proof.Machine

theorem fbPut_keeps {s₀ s : State} (h : Keeps s₀ s) (d : FbDecl) (f : FbInst) :
    Keeps s₀ (State.fbPut s d f) := by
  unfold State.fbPut
  try dsimp only
  repeat' (first
    | with_reducible intro _
    | with_reducible assumption
    | with_reducible apply keeps_ite
    | with_reducible apply memWrite_keeps
    | exact Nat.le_refl _
    | split
    | with_reducible refine Keeps.of_fst ?_ (by assumption))

theorem scanAll_keeps {s₀ s : State} (h : Keeps s₀ s) (t relMono relMt : Nat) (xs : List FbScan) :
    Keeps s₀ (State.scanAll s t relMono relMt xs) := by
  unfold State.scanAll
  try dsimp only
  repeat' (first
    | with_reducible intro _
    | with_reducible assumption
    | with_reducible apply keeps_ite
    | with_reducible apply keeps_foldl
    | with_reducible apply fbPut_keeps
    | exact Nat.le_refl _
    | split
    | with_reducible refine Keeps.of_fst ?_ (by assumption))

theorem resumeTimers_keeps {s₀ s : State} (h : Keeps s₀ s) (t : Nat) :
    Keeps s₀ (State.resumeTimers s t) := by
  unfold State.resumeTimers
  try dsimp only
  repeat' (first
    | with_reducible intro _
    | with_reducible assumption
    | with_reducible apply keeps_ite
    | with_reducible apply keeps_foldl
    | with_reducible apply fbPut_keeps
    | exact Nat.le_refl _
    | split
    | with_reducible refine Keeps.of_fst ?_ (by assumption)
    | with_reducible refine keeps_mk ?_ rfl rfl rfl rfl (Nat.le_refl _))

theorem fbsStart_keeps {s₀ s : State} (h : Keeps s₀ s) (warm : Bool) (decls : List FbDecl) :
    Keeps s₀ (State.fbsStart s warm decls) := by
  unfold State.fbsStart
  try dsimp only
  repeat' (first
    | with_reducible intro _
    | with_reducible assumption
    | with_reducible apply keeps_ite
    | with_reducible apply keeps_foldl
    | with_reducible apply fbPut_keeps
    | exact Nat.le_refl _
    | split
    | with_reducible refine Keeps.of_fst ?_ (by assumption)
    | with_reducible refine keeps_mk ?_ rfl rfl rfl rfl (Nat.le_refl _))

theorem carryFbs_keeps {s₀ s : State} (h : Keeps s₀ s) (affected : List Nat) (decls : List FbDecl) :
    Keeps s₀ (State.carryFbs s affected decls) := by
  unfold State.carryFbs
  try dsimp only
  repeat' (first
    | with_reducible intro _
    | with_reducible assumption
    | with_reducible apply keeps_ite
    | dsimp only
    | with_reducible apply keeps_ite_fst
    | with_reducible apply keeps_foldl_fst
    | with_reducible apply keeps_foldl
    | with_reducible apply emit_keeps
    | with_reducible apply fbPut_keeps
    | exact Nat.le_refl _
    | split
    | with_reducible refine Keeps.of_fst ?_ (by assumption)
    | with_reducible refine keeps_mk ?_ rfl rfl rfl rfl (Nat.le_refl _))

theorem varInit_keeps {s₀ s : State} (h : Keeps s₀ s) (a : Nat) (bs : List Byte) :
    Keeps s₀ (State.varInit s a bs) := by
  unfold State.varInit
  try dsimp only
  repeat' (first
    | with_reducible intro _
    | with_reducible assumption
    | with_reducible apply keeps_ite
    | with_reducible apply memWrite_keeps
    | exact Nat.le_refl _
    | split
    | with_reducible refine Keeps.of_fst ?_ (by assumption))

end Sys2Proof.Laws
end

