-- ==== Sys2Proof/Laws/Keeps/Runtime.lean ====
section
/-! SUPPORT. What the operations and meanings of Machine/Runtime.lean keep (`Keeps`). -/

set_option linter.unreachableTactic false
set_option linter.unusedTactic false
set_option linter.unusedVariables false

namespace Sys2Proof.Laws

open Sys2Proof.Machine

theorem modRts_keeps {s₀ s : State} (h : Keeps s₀ s) (f : RtsSt → RtsSt) :
    Keeps s₀ (State.modRts s f) := by
  unfold State.modRts
  try dsimp only
  repeat' (first
    | with_reducible intro _
    | with_reducible assumption
    | with_reducible apply keeps_ite
    | exact Nat.le_refl _
    | split
    | with_reducible refine Keeps.of_fst ?_ (by assumption)
    | with_reducible refine keeps_mk ?_ rfl rfl rfl rfl (Nat.le_refl _))

theorem modTask_keeps {s₀ s : State} (h : Keeps s₀ s) (t : Nat) (f : RtsTask → RtsTask) :
    Keeps s₀ (State.modTask s t f) := by
  unfold State.modTask
  try dsimp only
  repeat' (first
    | with_reducible intro _
    | with_reducible assumption
    | with_reducible apply keeps_ite
    | with_reducible apply modRts_keeps
    | exact Nat.le_refl _
    | split
    | with_reducible refine Keeps.of_fst ?_ (by assumption))

theorem imgWrite_keeps {s₀ s : State} (h : Keeps s₀ s) (base ofs : Nat) (bs : List Byte) :
    Keeps s₀ (State.imgWrite s base ofs bs) := by
  unfold State.imgWrite
  try dsimp only
  repeat' (first
    | with_reducible intro _
    | with_reducible assumption
    | with_reducible apply keeps_ite
    | with_reducible apply inc64_keeps
    | with_reducible apply memWrite_keeps
    | with_reducible apply wr_keeps
    | with_reducible apply wr64_keeps
    | exact Nat.le_refl _
    | split
    | with_reducible refine Keeps.of_fst ?_ (by assumption))

theorem retainPut_keeps {s₀ s : State} (h : Keeps s₀ s) (ofs : Nat) (bs : List Byte) :
    Keeps s₀ (State.retainPut s ofs bs) := by
  unfold State.retainPut
  try dsimp only
  repeat' (first
    | with_reducible intro _
    | with_reducible assumption
    | with_reducible apply keeps_ite
    | with_reducible apply memWrite_keeps
    | exact Nat.le_refl _
    | split
    | with_reducible refine Keeps.of_fst ?_ (by assumption))

theorem retainNew_keeps {s₀ s : State} (h : Keeps s₀ s) (fmt : Nat) (id hash : BitVec 256) :
    Keeps s₀ (State.retainNew s fmt id hash) := by
  unfold State.retainNew
  try dsimp only
  repeat' (first
    | with_reducible intro _
    | with_reducible assumption
    | with_reducible apply keeps_ite
    | with_reducible apply retainPut_keeps
    | exact Nat.le_refl _
    | split
    | with_reducible refine Keeps.of_fst ?_ (by assumption))

theorem retainVars_keeps {s₀ s : State} (h : Keeps s₀ s) (ofs : Nat) (bs : List Byte) :
    Keeps s₀ (State.retainVars s ofs bs) := by
  unfold State.retainVars
  try dsimp only
  repeat' (first
    | with_reducible intro _
    | with_reducible assumption
    | with_reducible apply keeps_ite
    | with_reducible apply memWrite_keeps
    | exact Nat.le_refl _
    | split
    | with_reducible refine Keeps.of_fst ?_ (by assumption))

theorem setForces_keeps {s₀ s : State} (h : Keeps s₀ s) (f : Tab (List Byte)) :
    Keeps s₀ (State.setForces s f) := by
  unfold State.setForces
  try dsimp only
  repeat' (first
    | with_reducible intro _
    | with_reducible assumption
    | with_reducible apply keeps_ite
    | with_reducible apply modRts_keeps
    | with_reducible apply setF_keeps
    | exact Nat.le_refl _
    | split
    | with_reducible refine Keeps.of_fst ?_ (by assumption))

theorem forceGone_keeps {s₀ s : State} (h : Keeps s₀ s) (e : List Byte) (reason : Nat) :
    Keeps s₀ (State.forceGone s e reason) := by
  unfold State.forceGone
  try dsimp only
  repeat' (first
    | with_reducible intro _
    | with_reducible assumption
    | with_reducible apply keeps_ite
    | with_reducible apply emit_keeps
    | with_reducible apply inc64_keeps
    | exact Nat.le_refl _
    | split
    | with_reducible refine Keeps.of_fst ?_ (by assumption))

theorem removeForce_keeps {s₀ s : State} (h : Keeps s₀ s) (i reason : Nat) :
    Keeps s₀ (State.removeForce s i reason) := by
  unfold State.removeForce
  try dsimp only
  repeat' (first
    | with_reducible intro _
    | with_reducible assumption
    | with_reducible apply keeps_ite
    | with_reducible apply forceGone_keeps
    | with_reducible apply setForces_keeps
    | exact Nat.le_refl _
    | split
    | with_reducible refine Keeps.of_fst ?_ (by assumption))

theorem applyForce_keeps {s₀ s : State} (h : Keeps s₀ s) (i : Nat) :
    Keeps s₀ (State.applyForce s i) := by
  unfold State.applyForce
  try dsimp only
  repeat' (first
    | with_reducible intro _
    | with_reducible assumption
    | with_reducible apply keeps_ite
    | with_reducible apply emit_keeps
    | with_reducible apply inc64_keeps
    | with_reducible apply setForces_keeps
    | exact Nat.le_refl _
    | split
    | with_reducible refine Keeps.of_fst ?_ (by assumption))

theorem forceEdge_keeps {s₀ s : State} (h : Keeps s₀ s) :
    Keeps s₀ (State.forceEdge s) := by
  unfold State.forceEdge
  try dsimp only
  repeat' (first
    | with_reducible intro _
    | with_reducible assumption
    | with_reducible apply keeps_ite
    | dsimp only
    | with_reducible apply keeps_ite_fst
    | with_reducible apply keeps_foldl_fst
    | with_reducible apply keeps_foldl
    | with_reducible apply applyForce_keeps
    | with_reducible apply modRts_keeps
    | exact Nat.le_refl _
    | split
    | with_reducible refine Keeps.of_fst ?_ (by assumption))

theorem forceScpEdge_keeps {s₀ s : State} (h : Keeps s₀ s) :
    Keeps s₀ (State.forceScpEdge s) := by
  unfold State.forceScpEdge
  try dsimp only
  repeat' (first
    | with_reducible intro _
    | with_reducible assumption
    | with_reducible apply keeps_ite
    | dsimp only
    | with_reducible apply keeps_ite_fst
    | with_reducible apply keeps_foldl_fst
    | with_reducible apply keeps_foldl
    | with_reducible apply removeForce_keeps
    | exact Nat.le_refl _
    | split
    | with_reducible refine Keeps.of_fst ?_ (by assumption))

theorem putForces_keeps {s₀ s : State} (h : Keeps s₀ s) (t dir base : Nat) :
    Keeps s₀ (State.putForces s t dir base) := by
  unfold State.putForces
  try dsimp only
  repeat' (first
    | with_reducible intro _
    | with_reducible assumption
    | with_reducible apply keeps_ite
    | with_reducible apply keeps_foldl
    | with_reducible apply imgWrite_keeps
    | exact Nat.le_refl _
    | split
    | with_reducible refine Keeps.of_fst ?_ (by assumption))

theorem schedule_keeps {s₀ s : State} (h : Keeps s₀ s) :
    Keeps s₀ (State.schedule s) := by
  unfold State.schedule
  try dsimp only
  repeat' (first
    | with_reducible intro _
    | with_reducible assumption
    | with_reducible apply keeps_ite
    | with_reducible apply keeps_foldl
    | with_reducible apply modRts_keeps
    | with_reducible apply modTask_keeps
    | exact Nat.le_refl _
    | split
    | with_reducible refine Keeps.of_fst ?_ (by assumption))

theorem taskBit_keeps {s₀ s : State} (h : Keeps s₀ s) (f : Field) (t : Nat) (b : Bool) :
    Keeps s₀ (State.taskBit s f t b) := by
  unfold State.taskBit
  try dsimp only
  repeat' (first
    | with_reducible intro _
    | with_reducible assumption
    | with_reducible apply keeps_ite
    | with_reducible apply setF_keeps
    | exact Nat.le_refl _
    | split
    | with_reducible refine Keeps.of_fst ?_ (by assumption))

theorem endLate_keeps {s₀ s : State} (h : Keeps s₀ s) (t : Nat) :
    Keeps s₀ (State.endLate s t) := by
  unfold State.endLate
  try dsimp only
  repeat' (first
    | with_reducible intro _
    | with_reducible assumption
    | with_reducible apply keeps_ite
    | with_reducible apply inc64_keeps
    | with_reducible apply modTask_keeps
    | with_reducible apply schedule_keeps
    | with_reducible apply taskBit_keeps
    | exact Nat.le_refl _
    | split
    | with_reducible refine Keeps.of_fst ?_ (by assumption)
    | with_reducible refine keeps_mk ?_ rfl rfl rfl rfl (Nat.le_refl _))

theorem endRunning_keeps {s₀ s : State} (h : Keeps s₀ s) :
    Keeps s₀ (State.endRunning s) := by
  unfold State.endRunning
  try dsimp only
  repeat' (first
    | with_reducible intro _
    | with_reducible assumption
    | with_reducible apply keeps_ite
    | with_reducible apply keeps_foldl
    | with_reducible apply endLate_keeps
    | exact Nat.le_refl _
    | split
    | with_reducible refine Keeps.of_fst ?_ (by assumption))

theorem overrun_keeps {s₀ s : State} (h : Keeps s₀ s) (t : Nat) :
    Keeps s₀ (State.overrun s t) := by
  unfold State.overrun
  try dsimp only
  repeat' (first
    | with_reducible intro _
    | with_reducible assumption
    | with_reducible apply keeps_ite
    | with_reducible apply emit_keeps
    | with_reducible apply endLate_keeps
    | with_reducible apply inc64_keeps
    | with_reducible apply modRts_keeps
    | with_reducible apply setF_keeps
    | with_reducible apply taskBit_keeps
    | with_reducible apply triadSafe_keeps
    | exact Nat.le_refl _
    | split
    | with_reducible refine Keeps.of_fst ?_ (by assumption))

theorem deadline_keeps {s₀ s : State} (h : Keeps s₀ s) (t : Nat) :
    Keeps s₀ (State.deadline s t) := by
  unfold State.deadline
  try dsimp only
  repeat' (first
    | with_reducible intro _
    | with_reducible assumption
    | with_reducible apply keeps_ite
    | with_reducible apply modTask_keeps
    | with_reducible apply overrun_keeps
    | exact Nat.le_refl _
    | split
    | with_reducible refine Keeps.of_fst ?_ (by assumption))

theorem latchTask_keeps {s₀ s : State} (h : Keeps s₀ s) (t : Nat) :
    Keeps s₀ (State.latchTask s t) := by
  unfold State.latchTask
  try dsimp only
  repeat' (first
    | with_reducible intro _
    | with_reducible assumption
    | with_reducible apply keeps_ite
    | with_reducible apply keeps_foldl
    | with_reducible apply modRts_keeps
    | exact Nat.le_refl _
    | split
    | with_reducible refine Keeps.of_fst ?_ (by assumption))

theorem present_keeps {s₀ s : State} (h : Keeps s₀ s) :
    Keeps s₀ (State.present s) := by
  unfold State.present
  try dsimp only
  repeat' (first
    | with_reducible intro _
    | with_reducible assumption
    | with_reducible apply keeps_ite
    | with_reducible apply keeps_foldl
    | with_reducible apply latchTask_keeps
    | exact Nat.le_refl _
    | split
    | with_reducible refine Keeps.of_fst ?_ (by assumption))

theorem copyMap_keeps {s₀ s : State} (h : Keeps s₀ s) (ms : List MapEnt) (bad : List Nat) (base : Nat) (src : State → MapEnt → List Byte) :
    Keeps s₀ (State.copyMap s ms bad base src) := by
  unfold State.copyMap
  try dsimp only
  repeat' (first
    | with_reducible intro _
    | with_reducible assumption
    | with_reducible apply keeps_ite
    | dsimp only
    | with_reducible apply keeps_ite_fst
    | with_reducible apply keeps_foldl_fst
    | with_reducible apply keeps_foldl
    | with_reducible apply imgWrite_keeps
    | exact Nat.le_refl _
    | split
    | with_reducible refine Keeps.of_fst ?_ (by assumption))

theorem release_keeps {s₀ s : State} (h : Keeps s₀ s) (data : Nat → Nat → List Byte) (errs : List ImageError) (t : Nat) :
    Keeps s₀ (State.release s data errs t) := by
  unfold State.release
  try dsimp only
  repeat' (first
    | with_reducible intro _
    | with_reducible assumption
    | with_reducible apply keeps_ite
    | with_reducible apply keeps_foldl
    | with_reducible apply add64_keeps
    | with_reducible apply copyMap_keeps
    | with_reducible apply eccRead_keeps
    | with_reducible apply inc64_keeps
    | with_reducible apply memWrite_keeps
    | with_reducible apply modRts_keeps
    | with_reducible apply modTask_keeps
    | with_reducible apply putForces_keeps
    | with_reducible apply resumeTimers_keeps
    | with_reducible apply retainPut_keeps
    | with_reducible apply taskBit_keeps
    | exact Nat.le_refl _
    | split
    | with_reducible refine Keeps.of_fst ?_ (by assumption))

theorem releases_keeps {s₀ s : State} (h : Keeps s₀ s) (data : Nat → Nat → List Byte) (errs : List ImageError) (hold : Bool) :
    Keeps s₀ (State.releases s data errs hold) := by
  unfold State.releases
  try dsimp only
  repeat' (first
    | with_reducible intro _
    | with_reducible assumption
    | with_reducible apply keeps_ite
    | with_reducible apply keeps_foldl
    | with_reducible apply inc64_keeps
    | with_reducible apply modTask_keeps
    | with_reducible apply release_keeps
    | exact Nat.le_refl _
    | split
    | with_reducible refine Keeps.of_fst ?_ (by assumption))

theorem refuseChange_keeps {s₀ s : State} (h : Keeps s₀ s) (result : Nat) :
    Keeps s₀ (State.refuseChange s result) := by
  unfold State.refuseChange
  try dsimp only
  repeat' (first
    | with_reducible intro _
    | with_reducible assumption
    | with_reducible apply keeps_ite
    | with_reducible apply emit_keeps
    | with_reducible apply modRts_keeps
    | with_reducible apply setF_keeps
    | exact Nat.le_refl _
    | split
    | with_reducible refine Keeps.of_fst ?_ (by assumption))

theorem reconcileForces_keeps {s₀ s : State} (h : Keeps s₀ s) (c : RtsChange) :
    Keeps s₀ (State.reconcileForces s c) := by
  unfold State.reconcileForces
  try dsimp only
  repeat' (first
    | with_reducible intro _
    | with_reducible assumption
    | with_reducible apply keeps_ite
    | dsimp only
    | with_reducible apply keeps_ite_fst
    | with_reducible apply keeps_foldl_fst
    | with_reducible apply keeps_foldl
    | with_reducible apply removeForce_keeps
    | with_reducible apply setForces_keeps
    | exact Nat.le_refl _
    | split
    | with_reducible refine Keeps.of_fst ?_ (by assumption))

theorem applyChange_keeps {s₀ s : State} (h : Keeps s₀ s) (c : RtsChange) :
    Keeps s₀ (State.applyChange s c) := by
  unfold State.applyChange
  try dsimp only
  repeat' (first
    | with_reducible intro _
    | with_reducible assumption
    | with_reducible apply keeps_ite
    | dsimp only
    | with_reducible apply keeps_ite_fst
    | with_reducible apply keeps_foldl_fst
    | with_reducible apply keeps_foldl
    | with_reducible apply carryFbs_keeps
    | with_reducible apply emit_keeps
    | with_reducible apply imgWrite_keeps
    | with_reducible apply inc64_keeps
    | with_reducible apply modRts_keeps
    | with_reducible apply modTask_keeps
    | with_reducible apply reconcileForces_keeps
    | with_reducible apply retainPut_keeps
    | with_reducible apply retainVars_keeps
    | with_reducible apply setF_keeps
    | with_reducible apply taskBit_keeps
    | with_reducible apply varInit_keeps
    | with_reducible apply wr_keeps
    | with_reducible apply wr64_keeps
    | exact Nat.le_refl _
    | split
    | with_reducible refine Keeps.of_fst ?_ (by assumption))

theorem changeEdge_keeps {s₀ s : State} (h : Keeps s₀ s) (late : List Nat) :
    Keeps s₀ (State.changeEdge s late) := by
  unfold State.changeEdge
  try dsimp only
  repeat' (first
    | with_reducible intro _
    | with_reducible assumption
    | with_reducible apply keeps_ite
    | with_reducible apply applyChange_keeps
    | with_reducible apply refuseChange_keeps
    | with_reducible apply setF_keeps
    | exact Nat.le_refl _
    | split
    | with_reducible refine Keeps.of_fst ?_ (by assumption))

theorem migrate_keeps {s₀ s : State} (h : Keeps s₀ s) (old new : Nat) :
    Keeps s₀ (State.migrate s old new) := by
  unfold State.migrate
  try dsimp only
  repeat' (first
    | with_reducible intro _
    | with_reducible assumption
    | with_reducible apply keeps_ite
    | dsimp only
    | with_reducible apply keeps_ite_fst
    | with_reducible apply keeps_foldl_fst
    | with_reducible apply keeps_foldl
    | with_reducible apply emit_keeps
    | with_reducible apply memWrite_keeps
    | with_reducible apply modLcs_keeps
    | with_reducible apply prvChange_keeps
    | with_reducible apply retainPut_keeps
    | with_reducible apply setF_keeps
    | with_reducible apply memFilter_keeps
    | exact Nat.le_refl _
    | split
    | with_reducible refine Keeps.of_fst ?_ (by assumption)
    | with_reducible refine keeps_mk ?_ rfl rfl rfl rfl (Nat.le_refl _))

theorem reportConservator_keeps {s₀ s : State} (h : Keeps s₀ s) :
    Keeps s₀ (State.reportConservator s) := by
  unfold State.reportConservator
  try dsimp only
  repeat' (first
    | with_reducible intro _
    | with_reducible assumption
    | with_reducible apply keeps_ite
    | with_reducible apply keeps_foldl
    | with_reducible apply emit_keeps
    | with_reducible apply modLcs_keeps
    | with_reducible apply prvChange_keeps
    | exact Nat.le_refl _
    | split
    | with_reducible refine Keeps.of_fst ?_ (by assumption))

theorem rtsHalt_keeps {s₀ s : State} (h : Keeps s₀ s) :
    Keeps s₀ (State.rtsHalt s) := by
  unfold State.rtsHalt
  try dsimp only
  repeat' (first
    | with_reducible intro _
    | with_reducible assumption
    | with_reducible apply keeps_ite
    | with_reducible apply setF_keeps
    | with_reducible apply startDone_keeps
    | exact Nat.le_refl _
    | split
    | with_reducible refine Keeps.of_fst ?_ (by assumption))

theorem dropChange_keeps {s₀ s : State} (h : Keeps s₀ s) :
    Keeps s₀ (State.dropChange s) := by
  unfold State.dropChange
  try dsimp only
  repeat' (first
    | with_reducible intro _
    | with_reducible assumption
    | with_reducible apply keeps_ite
    | with_reducible apply modRts_keeps
    | with_reducible apply setF_keeps
    | exact Nat.le_refl _
    | split
    | with_reducible refine Keeps.of_fst ?_ (by assumption))

theorem clearStops_keeps {s₀ s : State} (h : Keeps s₀ s) :
    Keeps s₀ (State.clearStops s) := by
  unfold State.clearStops
  try dsimp only
  repeat' (first
    | with_reducible intro _
    | with_reducible assumption
    | with_reducible apply keeps_ite
    | with_reducible apply keeps_foldl
    | with_reducible apply setF_keeps
    | exact Nat.le_refl _
    | split
    | with_reducible refine Keeps.of_fst ?_ (by assumption))

theorem rtsRun_keeps {s₀ s : State} (h : Keeps s₀ s) (warm : Bool) (info : StartInfo) :
    Keeps s₀ (State.rtsRun s warm info) := by
  unfold State.rtsRun
  try dsimp only
  repeat' (first
    | with_reducible intro _
    | with_reducible assumption
    | with_reducible apply keeps_ite
    | dsimp only
    | with_reducible apply keeps_ite_fst
    | with_reducible apply keeps_foldl_fst
    | with_reducible apply keeps_foldl
    | with_reducible apply clearStops_keeps
    | with_reducible apply dropChange_keeps
    | with_reducible apply emit_keeps
    | with_reducible apply endRunning_keeps
    | with_reducible apply fbsStart_keeps
    | with_reducible apply memWrite_keeps
    | with_reducible apply modRts_keeps
    | with_reducible apply retainNew_keeps
    | with_reducible apply retainVars_keeps
    | with_reducible apply setF_keeps
    | with_reducible apply varInit_keeps
    | with_reducible apply wr64_keeps
    | exact Nat.le_refl _
    | split
    | with_reducible refine Keeps.of_fst ?_ (by assumption))

theorem rtsStart_keeps {s₀ s : State} (h : Keeps s₀ s) (info : StartInfo) (fmt : Nat) (cold : Bool) :
    Keeps s₀ (State.rtsStart s info fmt cold) := by
  unfold State.rtsStart
  try dsimp only
  repeat' (first
    | with_reducible intro _
    | with_reducible assumption
    | with_reducible apply keeps_ite
    | dsimp only
    | with_reducible apply keeps_ite_fst
    | with_reducible apply keeps_foldl_fst
    | with_reducible apply keeps_foldl
    | with_reducible apply forceGone_keeps
    | with_reducible apply migrate_keeps
    | with_reducible apply modRts_keeps
    | with_reducible apply refuseChange_keeps
    | with_reducible apply removeForce_keeps
    | with_reducible apply rtsHalt_keeps
    | with_reducible apply rtsRun_keeps
    | with_reducible apply setB_keeps
    | with_reducible apply setF_keeps
    | exact Nat.le_refl _
    | split
    | with_reducible refine Keeps.of_fst ?_ (by assumption))

theorem rtsResume_keeps {s₀ s : State} (h : Keeps s₀ s) :
    Keeps s₀ (State.rtsResume s) := by
  unfold State.rtsResume
  try dsimp only
  repeat' (first
    | with_reducible intro _
    | with_reducible assumption
    | with_reducible apply keeps_ite
    | with_reducible apply keeps_foldl
    | with_reducible apply clearStops_keeps
    | with_reducible apply dropChange_keeps
    | with_reducible apply endRunning_keeps
    | with_reducible apply fbPut_keeps
    | with_reducible apply modRts_keeps
    | with_reducible apply setForces_keeps
    | exact Nat.le_refl _
    | split
    | with_reducible refine Keeps.of_fst ?_ (by assumption)
    | with_reducible refine keeps_mk ?_ rfl rfl rfl rfl (Nat.le_refl _))

theorem rtsEdge_keeps {s₀ s : State} (h : Keeps s₀ s) (data : Nat → Nat → List Byte) (errs : List ImageError) (stretched hold : Bool) :
    Keeps s₀ (State.rtsEdge s data errs stretched hold) := by
  unfold State.rtsEdge
  try dsimp only
  repeat' (first
    | with_reducible intro _
    | with_reducible assumption
    | with_reducible apply keeps_ite
    | with_reducible apply keeps_foldl
    | with_reducible apply changeEdge_keeps
    | with_reducible apply deadline_keeps
    | with_reducible apply forceEdge_keeps
    | with_reducible apply forceScpEdge_keeps
    | with_reducible apply modRts_keeps
    | with_reducible apply present_keeps
    | with_reducible apply releases_keeps
    | with_reducible apply setF_keeps
    | exact Nat.le_refl _
    | split
    | with_reducible refine Keeps.of_fst ?_ (by assumption))

theorem execRuntimeStart_keeps {s₀ s : State} (h : Keeps s₀ s) (dt : Nat) (info : StartInfo) :
    KeepsOut s₀ (Machine.execRuntimeStart dt info s) := by
  unfold Machine.execRuntimeStart
  try dsimp only
  repeat' (first
    | with_reducible intro _
    | with_reducible assumption
    | with_reducible apply keepsOut_next
    | with_reducible apply keepsOut_fault
    | with_reducible apply keepsOut_ite
    | with_reducible apply keeps_ite
    | with_reducible apply elapse_keeps
    | with_reducible apply modLcs_keeps
    | with_reducible apply reportConservator_keeps
    | with_reducible apply rtsHalt_keeps
    | with_reducible apply rtsStart_keeps
    | with_reducible apply setF_keeps
    | with_reducible apply startDone_keeps
    | exact Nat.le_refl _
    | split
    | with_reducible refine Keeps.of_fst ?_ (by assumption))

theorem execTaskReady_keeps {s₀ s : State} (h : Keeps s₀ s) (dt : Nat) (task : Fin 16) :
    KeepsOut s₀ (Machine.execTaskReady dt task s) := by
  unfold Machine.execTaskReady
  try dsimp only
  repeat' (first
    | with_reducible intro _
    | with_reducible assumption
    | with_reducible apply keepsOut_next
    | with_reducible apply keepsOut_fault
    | with_reducible apply keepsOut_ite
    | with_reducible apply keeps_ite
    | with_reducible apply elapse_keeps
    | with_reducible apply modTask_keeps
    | with_reducible apply schedule_keeps
    | exact Nat.le_refl _
    | split
    | with_reducible refine Keeps.of_fst ?_ (by assumption))

theorem doneWrite_keeps {s₀ s : State} (h : Keeps s₀ s) (t cycle : Nat) (scans : List FbScan) :
    Keeps s₀ (State.doneWrite s t cycle scans) := by
  unfold State.doneWrite
  try dsimp only
  repeat' (first
    | with_reducible intro _
    | with_reducible assumption
    | with_reducible apply keeps_ite
    | with_reducible apply copyMap_keeps
    | with_reducible apply endLate_keeps
    | with_reducible apply inc64_keeps
    | with_reducible apply modRts_keeps
    | with_reducible apply modTask_keeps
    | with_reducible apply putForces_keeps
    | with_reducible apply retainPut_keeps
    | with_reducible apply scanAll_keeps
    | with_reducible apply schedule_keeps
    | with_reducible apply setB_keeps
    | with_reducible apply setF_keeps
    | with_reducible apply taskBit_keeps
    | exact Nat.le_refl _
    | split
    | with_reducible refine Keeps.of_fst ?_ (by assumption)
    | with_reducible refine keeps_mk ?_ rfl rfl rfl rfl (Nat.le_refl _))

theorem execRtsDoneWrite_keeps {s₀ s : State} (h : Keeps s₀ s) (dt : Nat) (req : Requester) (task : Fin 16) (done : TaskDone) :
    KeepsOut s₀ (Machine.execRtsDoneWrite dt req task done s) := by
  unfold Machine.execRtsDoneWrite
  try dsimp only
  repeat' (first
    | with_reducible intro _
    | with_reducible assumption
    | with_reducible apply keepsOut_next
    | with_reducible apply keepsOut_fault
    | with_reducible apply keepsOut_ite
    | with_reducible apply keeps_ite
    | with_reducible apply doneWrite_keeps
    | with_reducible apply elapse_keeps
    | with_reducible apply regCmd_keeps
    | exact Nat.le_refl _
    | split
    | with_reducible refine Keeps.of_fst ?_ (by assumption))

theorem ocArm_keeps {s₀ s : State} (h : Keeps s₀ s) (pkg : ChangePackage) :
    Keeps s₀ (State.ocArm s pkg) := by
  unfold State.ocArm
  try dsimp only
  repeat' (first
    | with_reducible intro _
    | with_reducible assumption
    | with_reducible apply keeps_ite
    | with_reducible apply modRts_keeps
    | with_reducible apply refuseChange_keeps
    | with_reducible apply setF_keeps
    | exact Nat.le_refl _
    | split
    | with_reducible refine Keeps.of_fst ?_ (by assumption))

theorem execRtsOcArm_keeps {s₀ s : State} (h : Keeps s₀ s) (dt : Nat) (req : Requester) (pkg : ChangePackage) :
    KeepsOut s₀ (Machine.execRtsOcArm dt req pkg s) := by
  unfold Machine.execRtsOcArm
  try dsimp only
  repeat' (first
    | with_reducible intro _
    | with_reducible assumption
    | with_reducible apply keepsOut_next
    | with_reducible apply keepsOut_fault
    | with_reducible apply keepsOut_ite
    | with_reducible apply keeps_ite
    | with_reducible apply elapse_keeps
    | with_reducible apply ocArm_keeps
    | with_reducible apply regCmd_keeps
    | exact Nat.le_refl _
    | split
    | with_reducible refine Keeps.of_fst ?_ (by assumption))

theorem ocCancel_keeps {s₀ s : State} (h : Keeps s₀ s) :
    Keeps s₀ (State.ocCancel s) := by
  unfold State.ocCancel
  try dsimp only
  repeat' (first
    | with_reducible intro _
    | with_reducible assumption
    | with_reducible apply keeps_ite
    | with_reducible apply modRts_keeps
    | with_reducible apply setF_keeps
    | exact Nat.le_refl _
    | split
    | with_reducible refine Keeps.of_fst ?_ (by assumption))

theorem execRtsOcCancel_keeps {s₀ s : State} (h : Keeps s₀ s) (dt : Nat) (req : Requester) :
    KeepsOut s₀ (Machine.execRtsOcCancel dt req s) := by
  unfold Machine.execRtsOcCancel
  try dsimp only
  repeat' (first
    | with_reducible intro _
    | with_reducible assumption
    | with_reducible apply keepsOut_next
    | with_reducible apply keepsOut_fault
    | with_reducible apply keepsOut_ite
    | with_reducible apply keeps_ite
    | with_reducible apply elapse_keeps
    | with_reducible apply ocCancel_keeps
    | with_reducible apply regCmd_keeps
    | exact Nat.le_refl _
    | split
    | with_reducible refine Keeps.of_fst ?_ (by assumption))

theorem forceUpdWrite_keeps {s₀ s : State} (h : Keeps s₀ s) (index : Nat) :
    Keeps s₀ (State.forceUpdWrite s index) := by
  unfold State.forceUpdWrite
  try dsimp only
  repeat' (first
    | with_reducible intro _
    | with_reducible assumption
    | with_reducible apply keeps_ite
    | dsimp only
    | with_reducible apply keeps_ite_fst
    | with_reducible apply keeps_foldl_fst
    | with_reducible apply modRts_keeps
    | exact Nat.le_refl _
    | split
    | with_reducible refine Keeps.of_fst ?_ (by assumption))

theorem execRtsForceupdWrite_keeps {s₀ s : State} (h : Keeps s₀ s) (dt : Nat) (req : Requester) (index : Fin 256) :
    KeepsOut s₀ (Machine.execRtsForceupdWrite dt req index s) := by
  unfold Machine.execRtsForceupdWrite
  try dsimp only
  repeat' (first
    | with_reducible intro _
    | with_reducible assumption
    | with_reducible apply keepsOut_next
    | with_reducible apply keepsOut_fault
    | with_reducible apply keepsOut_ite
    | with_reducible apply keeps_ite
    | with_reducible apply elapse_keeps
    | with_reducible apply forceUpdWrite_keeps
    | with_reducible apply regCmd_keeps
    | exact Nat.le_refl _
    | split
    | with_reducible refine Keeps.of_fst ?_ (by assumption))

end Sys2Proof.Laws
end

