-- ==== Sys2Proof/Laws/Keeps/FieldIo.lean ====
section
/-! SUPPORT. What the operations and meanings of Machine/FieldIo.lean keep (`Keeps`). -/

set_option linter.unreachableTactic false
set_option linter.unusedTactic false
set_option linter.unusedVariables false

namespace Sys2Proof.Laws

open Sys2Proof.Machine

theorem modCh_keeps {s₀ s : State} (h : Keeps s₀ s) (c : Nat) (f : FioCh → FioCh) :
    Keeps s₀ (State.modCh s c f) := by
  unfold State.modCh
  try dsimp only
  repeat' (first
    | with_reducible intro _
    | with_reducible assumption
    | with_reducible apply keeps_ite
    | exact Nat.le_refl _
    | split
    | with_reducible refine Keeps.of_fst ?_ (by assumption)
    | with_reducible refine keeps_mk ?_ rfl rfl rfl rfl (Nat.le_refl _))

theorem modGrp_keeps {s₀ s : State} (h : Keeps s₀ s) (g : Nat) (f : FioGrp → FioGrp) :
    Keeps s₀ (State.modGrp s g f) := by
  unfold State.modGrp
  try dsimp only
  repeat' (first
    | with_reducible intro _
    | with_reducible assumption
    | with_reducible apply keeps_ite
    | exact Nat.le_refl _
    | split
    | with_reducible refine Keeps.of_fst ?_ (by assumption)
    | with_reducible refine keeps_mk ?_ rfl rfl rfl rfl (Nat.le_refl _))

theorem fioEvent_keeps {s₀ s : State} (h : Keeps s₀ s) (code sev : Nat) (payload : List Byte) :
    Keeps s₀ (State.fioEvent s code sev payload) := by
  unfold State.fioEvent
  try dsimp only
  repeat' (first
    | with_reducible intro _
    | with_reducible assumption
    | with_reducible apply keeps_ite
    | with_reducible apply emit_keeps
    | exact Nat.le_refl _
    | split
    | with_reducible refine Keeps.of_fst ?_ (by assumption))

theorem fioShow_keeps {s₀ s : State} (h : Keeps s₀ s) (c : Nat) :
    Keeps s₀ (State.fioShow s c) := by
  unfold State.fioShow
  try dsimp only
  repeat' (first
    | with_reducible intro _
    | with_reducible assumption
    | with_reducible apply keeps_ite
    | with_reducible apply wr_keeps
    | exact Nat.le_refl _
    | split
    | with_reducible refine Keeps.of_fst ?_ (by assumption))

theorem fioShowGroup_keeps {s₀ s : State} (h : Keeps s₀ s) (g : Nat) :
    Keeps s₀ (State.fioShowGroup s g) := by
  unfold State.fioShowGroup
  try dsimp only
  repeat' (first
    | with_reducible intro _
    | with_reducible assumption
    | with_reducible apply keeps_ite
    | with_reducible apply keeps_foldl
    | with_reducible apply fioShow_keeps
    | exact Nat.le_refl _
    | split
    | with_reducible refine Keeps.of_fst ?_ (by assumption))

theorem fioCouple_keeps {s₀ s : State} (h : Keeps s₀ s) (g : Nat) :
    Keeps s₀ (State.fioCouple s g) := by
  unfold State.fioCouple
  try dsimp only
  repeat' (first
    | with_reducible intro _
    | with_reducible assumption
    | with_reducible apply keeps_ite
    | with_reducible apply keeps_foldl
    | with_reducible apply modCh_keeps
    | exact Nat.le_refl _
    | split
    | with_reducible refine Keeps.of_fst ?_ (by assumption))

theorem fioGroup_keeps {s₀ s : State} (h : Keeps s₀ s) (g : Nat) :
    Keeps s₀ (State.fioGroup s g) := by
  unfold State.fioGroup
  try dsimp only
  repeat' (first
    | with_reducible intro _
    | with_reducible assumption
    | with_reducible apply keeps_ite
    | with_reducible apply fioCouple_keeps
    | with_reducible apply fioEvent_keeps
    | with_reducible apply fioShowGroup_keeps
    | with_reducible apply inc64_keeps
    | with_reducible apply setB_keeps
    | with_reducible apply setF_keeps
    | with_reducible apply stopRefresh_keeps
    | exact Nat.le_refl _
    | split
    | with_reducible refine Keeps.of_fst ?_ (by assumption))

theorem fioPowerChange_keeps {s₀ s : State} (h : Keeps s₀ s) (g : Nat) :
    Keeps s₀ (State.fioPowerChange s g) := by
  unfold State.fioPowerChange
  try dsimp only
  repeat' (first
    | with_reducible intro _
    | with_reducible assumption
    | with_reducible apply keeps_ite
    | with_reducible apply keeps_foldl
    | with_reducible apply modCh_keeps
    | exact Nat.le_refl _
    | split
    | with_reducible refine Keeps.of_fst ?_ (by assumption))

theorem fioConfigure_keeps {s₀ s : State} (h : Keeps s₀ s) (changed : Bool) (c : Nat) :
    Keeps s₀ (State.fioConfigure s changed c) := by
  unfold State.fioConfigure
  try dsimp only
  repeat' (first
    | with_reducible intro _
    | with_reducible assumption
    | with_reducible apply keeps_ite
    | with_reducible apply fioEvent_keeps
    | with_reducible apply inc64_keeps
    | with_reducible apply modCh_keeps
    | with_reducible apply modRts_keeps
    | exact Nat.le_refl _
    | split
    | with_reducible refine Keeps.of_fst ?_ (by assumption))

theorem fioSeen_keeps {s₀ s : State} (h : Keeps s₀ s) (wrong : BitVec 32) (output : Bool) :
    Keeps s₀ (State.fioSeen s wrong output) := by
  unfold State.fioSeen
  try dsimp only
  repeat' (first
    | with_reducible intro _
    | with_reducible assumption
    | with_reducible apply keeps_ite
    | with_reducible apply keeps_foldl
    | with_reducible apply modCh_keeps
    | exact Nat.le_refl _
    | split
    | with_reducible refine Keeps.of_fst ?_ (by assumption))

theorem fioEdge_keeps {s₀ s : State} (h : Keeps s₀ s) (changes : List State.CatChange) (wrong : BitVec 32) :
    Keeps s₀ (State.fioEdge s changes wrong) := by
  unfold State.fioEdge
  try dsimp only
  repeat' (first
    | with_reducible intro _
    | with_reducible assumption
    | with_reducible apply keeps_ite
    | with_reducible apply keeps_foldl
    | with_reducible apply fioConfigure_keeps
    | with_reducible apply fioEvent_keeps
    | with_reducible apply fioGroup_keeps
    | with_reducible apply fioSeen_keeps
    | with_reducible apply fioShowGroup_keeps
    | with_reducible apply modCh_keeps
    | with_reducible apply modGrp_keeps
    | exact Nat.le_refl _
    | split
    | with_reducible refine Keeps.of_fst ?_ (by assumption)
    | with_reducible refine keeps_mk ?_ rfl rfl rfl rfl (Nat.le_refl _))

theorem fioLatchEdge_keeps {s₀ s : State} (h : Keeps s₀ s) (wrong : BitVec 32) :
    Keeps s₀ (State.fioLatchEdge s wrong) := by
  unfold State.fioLatchEdge
  try dsimp only
  repeat' (first
    | with_reducible intro _
    | with_reducible assumption
    | with_reducible apply keeps_ite
    | with_reducible apply keeps_foldl
    | with_reducible apply fioCouple_keeps
    | with_reducible apply fioSeen_keeps
    | with_reducible apply fioShowGroup_keeps
    | exact Nat.le_refl _
    | split
    | with_reducible refine Keeps.of_fst ?_ (by assumption))

theorem serJudge_keeps {s₀ s : State} (h : Keeps s₀ s) (g : Nat) :
    Keeps s₀ (State.serJudge s g) := by
  unfold State.serJudge
  try dsimp only
  repeat' (first
    | with_reducible intro _
    | with_reducible assumption
    | with_reducible apply keeps_ite
    | with_reducible apply fioEvent_keeps
    | with_reducible apply inc64_keeps
    | with_reducible apply modGrp_keeps
    | with_reducible apply setB_keeps
    | exact Nat.le_refl _
    | split
    | with_reducible refine Keeps.of_fst ?_ (by assumption))

theorem fioCompare_keeps {s₀ s : State} (h : Keeps s₀ s) (c : Nat) (disagrees : Bool) :
    Keeps s₀ (State.fioCompare s c disagrees) := by
  unfold State.fioCompare
  try dsimp only
  repeat' (first
    | with_reducible intro _
    | with_reducible assumption
    | with_reducible apply keeps_ite
    | with_reducible apply fioEvent_keeps
    | with_reducible apply inc64_keeps
    | with_reducible apply modCh_keeps
    | exact Nat.le_refl _
    | split
    | with_reducible refine Keeps.of_fst ?_ (by assumption))

theorem execFieldSupplyChange_keeps {s₀ s : State} (h : Keeps s₀ s) (dt : Nat) (group : Fin 2) (vf : Int) :
    KeepsOut s₀ (Machine.execFieldSupplyChange dt group vf s) := by
  unfold Machine.execFieldSupplyChange
  try dsimp only
  repeat' (first
    | with_reducible intro _
    | with_reducible assumption
    | with_reducible apply keepsOut_next
    | with_reducible apply keepsOut_fault
    | with_reducible apply keepsOut_ite
    | with_reducible apply keeps_ite
    | with_reducible apply elapse_keeps
    | with_reducible apply fioCouple_keeps
    | with_reducible apply fioGroup_keeps
    | with_reducible apply fioPowerChange_keeps
    | with_reducible apply fioShowGroup_keeps
    | with_reducible apply modGrp_keeps
    | exact Nat.le_refl _
    | split
    | with_reducible refine Keeps.of_fst ?_ (by assumption))

theorem execAntiglitchExpiry_keeps {s₀ s : State} (h : Keeps s₀ s) (dt : Nat) (ch : Fin 32) (reading : InReading) :
    KeepsOut s₀ (Machine.execAntiglitchExpiry dt ch reading s) := by
  unfold Machine.execAntiglitchExpiry
  try dsimp only
  repeat' (first
    | with_reducible intro _
    | with_reducible assumption
    | with_reducible apply keepsOut_next
    | with_reducible apply keepsOut_fault
    | with_reducible apply keepsOut_ite
    | with_reducible apply keeps_ite
    | with_reducible apply elapse_keeps
    | with_reducible apply fioShow_keeps
    | with_reducible apply modCh_keeps
    | exact Nat.le_refl _
    | split
    | with_reducible refine Keeps.of_fst ?_ (by assumption)
    | with_reducible refine keeps_mk ?_ rfl rfl rfl rfl (Nat.le_refl _))

theorem execDebounceExpiry_keeps {s₀ s : State} (h : Keeps s₀ s) (dt : Nat) (ch : Fin 32) :
    KeepsOut s₀ (Machine.execDebounceExpiry dt ch s) := by
  unfold Machine.execDebounceExpiry
  try dsimp only
  repeat' (first
    | with_reducible intro _
    | with_reducible assumption
    | with_reducible apply keepsOut_next
    | with_reducible apply keepsOut_fault
    | with_reducible apply keepsOut_ite
    | with_reducible apply keeps_ite
    | with_reducible apply elapse_keeps
    | with_reducible apply fioShow_keeps
    | with_reducible apply inc64_keeps
    | with_reducible apply modCh_keeps
    | exact Nat.le_refl _
    | split
    | with_reducible refine Keeps.of_fst ?_ (by assumption))

theorem execSupgapTimeout_keeps {s₀ s : State} (h : Keeps s₀ s) (dt : Nat) (ch : Fin 32) :
    KeepsOut s₀ (Machine.execSupgapTimeout dt ch s) := by
  unfold Machine.execSupgapTimeout
  try dsimp only
  repeat' (first
    | with_reducible intro _
    | with_reducible assumption
    | with_reducible apply keepsOut_next
    | with_reducible apply keepsOut_fault
    | with_reducible apply keepsOut_ite
    | with_reducible apply keeps_ite
    | with_reducible apply elapse_keeps
    | with_reducible apply modCh_keeps
    | exact Nat.le_refl _
    | split
    | with_reducible refine Keeps.of_fst ?_ (by assumption))

theorem execFioThermal_keeps {s₀ s : State} (h : Keeps s₀ s) (dt : Nat) (ch : Fin 32) :
    KeepsOut s₀ (Machine.execFioThermal dt ch s) := by
  unfold Machine.execFioThermal
  try dsimp only
  repeat' (first
    | with_reducible intro _
    | with_reducible assumption
    | with_reducible apply keepsOut_next
    | with_reducible apply keepsOut_fault
    | with_reducible apply keepsOut_ite
    | with_reducible apply keeps_ite
    | with_reducible apply elapse_keeps
    | with_reducible apply fioEvent_keeps
    | with_reducible apply fioShow_keeps
    | with_reducible apply inc64_keeps
    | with_reducible apply modCh_keeps
    | exact Nat.le_refl _
    | split
    | with_reducible refine Keeps.of_fst ?_ (by assumption))

theorem execThermalRestart_keeps {s₀ s : State} (h : Keeps s₀ s) (dt : Nat) (ch : Fin 32) :
    KeepsOut s₀ (Machine.execThermalRestart dt ch s) := by
  unfold Machine.execThermalRestart
  try dsimp only
  repeat' (first
    | with_reducible intro _
    | with_reducible assumption
    | with_reducible apply keepsOut_next
    | with_reducible apply keepsOut_fault
    | with_reducible apply keepsOut_ite
    | with_reducible apply keeps_ite
    | with_reducible apply elapse_keeps
    | with_reducible apply fioShow_keeps
    | with_reducible apply modCh_keeps
    | exact Nat.le_refl _
    | split
    | with_reducible refine Keeps.of_fst ?_ (by assumption))

theorem execFioGroupOverload_keeps {s₀ s : State} (h : Keeps s₀ s) (dt : Nat) (group : Fin 2) :
    KeepsOut s₀ (Machine.execFioGroupOverload dt group s) := by
  unfold Machine.execFioGroupOverload
  try dsimp only
  repeat' (first
    | with_reducible intro _
    | with_reducible assumption
    | with_reducible apply keepsOut_next
    | with_reducible apply keepsOut_fault
    | with_reducible apply keepsOut_ite
    | with_reducible apply keeps_ite
    | with_reducible apply keeps_foldl
    | with_reducible apply elapse_keeps
    | with_reducible apply fioEvent_keeps
    | with_reducible apply fioShowGroup_keeps
    | with_reducible apply inc64_keeps
    | with_reducible apply modCh_keeps
    | with_reducible apply modGrp_keeps
    | with_reducible apply setB_keeps
    | exact Nat.le_refl _
    | split
    | with_reducible refine Keeps.of_fst ?_ (by assumption))

theorem execGroupOverloadEnd_keeps {s₀ s : State} (h : Keeps s₀ s) (dt : Nat) (group : Fin 2) :
    KeepsOut s₀ (Machine.execGroupOverloadEnd dt group s) := by
  unfold Machine.execGroupOverloadEnd
  try dsimp only
  repeat' (first
    | with_reducible intro _
    | with_reducible assumption
    | with_reducible apply keepsOut_next
    | with_reducible apply keepsOut_fault
    | with_reducible apply keepsOut_ite
    | with_reducible apply keeps_ite
    | with_reducible apply elapse_keeps
    | with_reducible apply modGrp_keeps
    | exact Nat.le_refl _
    | split
    | with_reducible refine Keeps.of_fst ?_ (by assumption))

theorem execOvlClear_keeps {s₀ s : State} (h : Keeps s₀ s) (dt : Nat) (group : Fin 2) :
    KeepsOut s₀ (Machine.execOvlClear dt group s) := by
  unfold Machine.execOvlClear
  try dsimp only
  repeat' (first
    | with_reducible intro _
    | with_reducible assumption
    | with_reducible apply keepsOut_next
    | with_reducible apply keepsOut_fault
    | with_reducible apply keepsOut_ite
    | with_reducible apply keeps_ite
    | with_reducible apply elapse_keeps
    | with_reducible apply setB_keeps
    | exact Nat.le_refl _
    | split
    | with_reducible refine Keeps.of_fst ?_ (by assumption))

theorem execOutputDiagTest_keeps {s₀ s : State} (h : Keeps s₀ s) (dt : Nat) (ch : Fin 32) (withTest withoutTest : Nat) (current : Bool) :
    KeepsOut s₀ (Machine.execOutputDiagTest dt ch withTest withoutTest current s) := by
  unfold Machine.execOutputDiagTest
  try dsimp only
  repeat' (first
    | with_reducible intro _
    | with_reducible assumption
    | with_reducible apply keepsOut_next
    | with_reducible apply keepsOut_fault
    | with_reducible apply keepsOut_ite
    | with_reducible apply keeps_ite
    | with_reducible apply elapse_keeps
    | with_reducible apply fioEvent_keeps
    | with_reducible apply fioShow_keeps
    | with_reducible apply modCh_keeps
    | exact Nat.le_refl _
    | split
    | with_reducible refine Keeps.of_fst ?_ (by assumption))

theorem couplerPattern_keeps {s₀ s : State} (h : Keeps s₀ s) (c : Nat) (silent : Option Nat) :
    Keeps s₀ (State.couplerPattern s c silent) := by
  unfold State.couplerPattern
  try dsimp only
  repeat' (first
    | with_reducible intro _
    | with_reducible assumption
    | with_reducible apply keeps_ite
    | with_reducible apply modCh_keeps
    | exact Nat.le_refl _
    | split
    | with_reducible refine Keeps.of_fst ?_ (by assumption)
    | with_reducible refine keeps_mk ?_ rfl rfl rfl rfl (Nat.le_refl _))

theorem execFallbackRefresh_keeps {s₀ s : State} (h : Keeps s₀ s) (dt : Nat) (refresh : FioRefresh) :
    KeepsOut s₀ (Machine.execFallbackRefresh dt refresh s) := by
  unfold Machine.execFallbackRefresh
  try dsimp only
  repeat' (first
    | with_reducible intro _
    | with_reducible assumption
    | with_reducible apply keepsOut_next
    | with_reducible apply keepsOut_fault
    | with_reducible apply keepsOut_ite
    | with_reducible apply keeps_ite
    | dsimp only
    | with_reducible apply keeps_ite_fst
    | with_reducible apply keeps_foldl_fst
    | with_reducible apply keeps_foldl
    | with_reducible apply couplerPattern_keeps
    | with_reducible apply elapse_keeps
    | with_reducible apply fioShowGroup_keeps
    | with_reducible apply modGrp_keeps
    | with_reducible apply serJudge_keeps
    | exact Nat.le_refl _
    | split
    | with_reducible refine Keeps.of_fst ?_ (by assumption))

theorem execInboundFrameRx_keeps {s₀ s : State} (h : Keeps s₀ s) (dt : Nat) (group : Fin 2) (frame : FallbackFrame) :
    KeepsOut s₀ (Machine.execInboundFrameRx dt group frame s) := by
  unfold Machine.execInboundFrameRx
  try dsimp only
  repeat' (first
    | with_reducible intro _
    | with_reducible assumption
    | with_reducible apply keepsOut_next
    | with_reducible apply keepsOut_fault
    | with_reducible apply keepsOut_ite
    | with_reducible apply keeps_ite
    | with_reducible apply keeps_foldl
    | with_reducible apply elapse_keeps
    | with_reducible apply fioCompare_keeps
    | with_reducible apply fioShowGroup_keeps
    | with_reducible apply inc64_keeps
    | with_reducible apply modCh_keeps
    | with_reducible apply modGrp_keeps
    | exact Nat.le_refl _
    | split
    | with_reducible refine Keeps.of_fst ?_ (by assumption))

theorem execOutboundFrameRx_keeps {s₀ s : State} (h : Keeps s₀ s) (dt : Nat) (group : Fin 2) (frame : FallbackFrame) :
    KeepsOut s₀ (Machine.execOutboundFrameRx dt group frame s) := by
  unfold Machine.execOutboundFrameRx
  try dsimp only
  repeat' (first
    | with_reducible intro _
    | with_reducible assumption
    | with_reducible apply keepsOut_next
    | with_reducible apply keepsOut_fault
    | with_reducible apply keepsOut_ite
    | with_reducible apply keeps_ite
    | with_reducible apply keeps_foldl
    | with_reducible apply elapse_keeps
    | with_reducible apply fioCompare_keeps
    | with_reducible apply fioShowGroup_keeps
    | with_reducible apply inc64_keeps
    | with_reducible apply modCh_keeps
    | with_reducible apply modGrp_keeps
    | exact Nat.le_refl _
    | split
    | with_reducible refine Keeps.of_fst ?_ (by assumption)
    | with_reducible refine keeps_mk ?_ rfl rfl rfl rfl (Nat.le_refl _))

theorem execOutputWatchdogExpiry_keeps {s₀ s : State} (h : Keeps s₀ s) (dt : Nat) (ch : Fin 32) :
    KeepsOut s₀ (Machine.execOutputWatchdogExpiry dt ch s) := by
  unfold Machine.execOutputWatchdogExpiry
  try dsimp only
  repeat' (first
    | with_reducible intro _
    | with_reducible assumption
    | with_reducible apply keepsOut_next
    | with_reducible apply keepsOut_fault
    | with_reducible apply keepsOut_ite
    | with_reducible apply keeps_ite
    | with_reducible apply elapse_keeps
    | with_reducible apply fioShow_keeps
    | with_reducible apply inc64_keeps
    | with_reducible apply modCh_keeps
    | exact Nat.le_refl _
    | split
    | with_reducible refine Keeps.of_fst ?_ (by assumption))

theorem execFailHoldExpiry_keeps {s₀ s : State} (h : Keeps s₀ s) (dt : Nat) (ch : Fin 32) :
    KeepsOut s₀ (Machine.execFailHoldExpiry dt ch s) := by
  unfold Machine.execFailHoldExpiry
  try dsimp only
  repeat' (first
    | with_reducible intro _
    | with_reducible assumption
    | with_reducible apply keepsOut_next
    | with_reducible apply keepsOut_fault
    | with_reducible apply keepsOut_ite
    | with_reducible apply keeps_ite
    | with_reducible apply elapse_keeps
    | with_reducible apply fioShow_keeps
    | with_reducible apply modCh_keeps
    | exact Nat.le_refl _
    | split
    | with_reducible refine Keeps.of_fst ?_ (by assumption))

end Sys2Proof.Laws
end

