-- ==== Sys2Proof/Laws/Keeps/Measure.lean ====
section
/-! SUPPORT. What the operations and meanings of Machine/Measure.lean keep (`Keeps`). -/

set_option linter.unreachableTactic false
set_option linter.unusedTactic false
set_option linter.unusedVariables false

namespace Sys2Proof.Laws

open Sys2Proof.Machine

theorem modMeas_keeps {s₀ s : State} (h : Keeps s₀ s) (f : MeasSt → MeasSt) :
    Keeps s₀ (State.modMeas s f) := by
  unfold State.modMeas
  try dsimp only
  repeat' (first
    | with_reducible intro _
    | with_reducible assumption
    | with_reducible apply keeps_ite
    | exact Nat.le_refl _
    | split
    | with_reducible refine Keeps.of_fst ?_ (by assumption)
    | with_reducible refine keeps_mk ?_ rfl rfl rfl rfl (Nat.le_refl _))

theorem modMc_keeps {s₀ s : State} (h : Keeps s₀ s) (m : Nat) (f : MeasCh → MeasCh) :
    Keeps s₀ (State.modMc s m f) := by
  unfold State.modMc
  try dsimp only
  repeat' (first
    | with_reducible intro _
    | with_reducible assumption
    | with_reducible apply keeps_ite
    | with_reducible apply modMeas_keeps
    | exact Nat.le_refl _
    | split
    | with_reducible refine Keeps.of_fst ?_ (by assumption))

theorem measEvent_keeps {s₀ s : State} (h : Keeps s₀ s) (code sev : Nat) (payload : List Byte) :
    Keeps s₀ (State.measEvent s code sev payload) := by
  unfold State.measEvent
  try dsimp only
  repeat' (first
    | with_reducible intro _
    | with_reducible assumption
    | with_reducible apply keeps_ite
    | with_reducible apply emit_keeps
    | exact Nat.le_refl _
    | split
    | with_reducible refine Keeps.of_fst ?_ (by assumption))

theorem measShow_keeps {s₀ s : State} (h : Keeps s₀ s) (m : Nat) :
    Keeps s₀ (State.measShow s m) := by
  unfold State.measShow
  try dsimp only
  repeat' (first
    | with_reducible intro _
    | with_reducible assumption
    | with_reducible apply keeps_ite
    | with_reducible apply setB_keeps
    | with_reducible apply setF_keeps
    | with_reducible apply wr_keeps
    | exact Nat.le_refl _
    | split
    | with_reducible refine Keeps.of_fst ?_ (by assumption))

theorem measWrite_keeps {s₀ s : State} (h : Keeps s₀ s) (m : Nat) (o : MeasOut) :
    Keeps s₀ (State.measWrite s m o) := by
  unfold State.measWrite
  try dsimp only
  repeat' (first
    | with_reducible intro _
    | with_reducible assumption
    | with_reducible apply keeps_ite
    | with_reducible apply devWrite_keeps
    | with_reducible apply inc64_keeps
    | exact Nat.le_refl _
    | split
    | with_reducible refine Keeps.of_fst ?_ (by assumption))

theorem measDeliver_keeps {s₀ s : State} (h : Keeps s₀ s) (m : Nat) :
    Keeps s₀ (State.measDeliver s m) := by
  unfold State.measDeliver
  try dsimp only
  repeat' (first
    | with_reducible intro _
    | with_reducible assumption
    | with_reducible apply keeps_ite
    | with_reducible apply keeps_foldl
    | with_reducible apply measShow_keeps
    | with_reducible apply measWrite_keeps
    | with_reducible apply modMc_keeps
    | exact Nat.le_refl _
    | split
    | with_reducible refine Keeps.of_fst ?_ (by assumption))

theorem syncIgnored_keeps {s₀ s : State} (h : Keeps s₀ s) :
    Keeps s₀ (State.syncIgnored s) := by
  unfold State.syncIgnored
  try dsimp only
  repeat' (first
    | with_reducible intro _
    | with_reducible assumption
    | with_reducible apply keeps_ite
    | with_reducible apply inc64_keeps
    | exact Nat.le_refl _
    | split
    | with_reducible refine Keeps.of_fst ?_ (by assumption))

theorem sendSyncAt_keeps {s₀ s : State} (h : Keeps s₀ s) :
    Keeps s₀ (State.sendSyncAt s) := by
  unfold State.sendSyncAt
  try dsimp only
  repeat' (first
    | with_reducible intro _
    | with_reducible assumption
    | with_reducible apply keeps_ite
    | with_reducible apply postedOut_keeps
    | exact Nat.le_refl _
    | split
    | with_reducible refine Keeps.of_fst ?_ (by assumption))

theorem syncRequest_keeps {s₀ s : State} (h : Keeps s₀ s) (src : Nat) :
    Keeps s₀ (State.syncRequest s src) := by
  unfold State.syncRequest
  try dsimp only
  repeat' (first
    | with_reducible intro _
    | with_reducible assumption
    | with_reducible apply keeps_ite
    | with_reducible apply modMeas_keeps
    | with_reducible apply sendSyncAt_keeps
    | with_reducible apply syncIgnored_keeps
    | exact Nat.le_refl _
    | split
    | with_reducible refine Keeps.of_fst ?_ (by assumption))

theorem syncPerform_keeps {s₀ s : State} (h : Keeps s₀ s) (at_ src : Nat) :
    Keeps s₀ (State.syncPerform s at_ src) := by
  unfold State.syncPerform
  try dsimp only
  repeat' (first
    | with_reducible intro _
    | with_reducible assumption
    | with_reducible apply keeps_ite
    | with_reducible apply keeps_foldl
    | with_reducible apply inc64_keeps
    | with_reducible apply measEvent_keeps
    | with_reducible apply measShow_keeps
    | with_reducible apply modMc_keeps
    | with_reducible apply modMeas_keeps
    | with_reducible apply setB_keeps
    | with_reducible apply setF_keeps
    | with_reducible apply wr64_keeps
    | exact Nat.le_refl _
    | split
    | with_reducible refine Keeps.of_fst ?_ (by assumption))

theorem syncDue_keeps {s₀ s : State} (h : Keeps s₀ s) :
    Keeps s₀ (State.syncDue s).1 := by
  unfold State.syncDue
  try dsimp only
  repeat' (first
    | with_reducible intro _
    | with_reducible assumption
    | with_reducible apply keeps_ite
    | dsimp only
    | with_reducible apply keeps_ite_fst
    | with_reducible apply keeps_foldl_fst
    | with_reducible apply keeps_foldl
    | with_reducible apply modMeas_keeps
    | with_reducible apply setB_keeps
    | with_reducible apply setF_keeps
    | with_reducible apply syncIgnored_keeps
    | with_reducible apply syncPerform_keeps
    | exact Nat.le_refl _
    | split
    | with_reducible refine Keeps.of_fst ?_ (by assumption))

theorem syncMissedStack_keeps {s₀ s : State} (h : Keeps s₀ s) (at_ : Nat) :
    Keeps s₀ (State.syncMissedStack s at_) := by
  unfold State.syncMissedStack
  try dsimp only
  repeat' (first
    | with_reducible intro _
    | with_reducible assumption
    | with_reducible apply keeps_ite
    | with_reducible apply inc64_keeps
    | with_reducible apply measEvent_keeps
    | with_reducible apply setB_keeps
    | exact Nat.le_refl _
    | split
    | with_reducible refine Keeps.of_fst ?_ (by assumption))

theorem syncForwarded_keeps {s₀ s : State} (h : Keeps s₀ s) (at_ : Nat) :
    Keeps s₀ (State.syncForwarded s at_) := by
  unfold State.syncForwarded
  try dsimp only
  repeat' (first
    | with_reducible intro _
    | with_reducible assumption
    | with_reducible apply keeps_ite
    | with_reducible apply modMeas_keeps
    | with_reducible apply syncMissedStack_keeps
    | exact Nat.le_refl _
    | split
    | with_reducible refine Keeps.of_fst ?_ (by assumption))

theorem measRebase_keeps {s₀ s : State} (h : Keeps s₀ s) (old : Nat) :
    Keeps s₀ (State.measRebase s old) := by
  unfold State.measRebase
  try dsimp only
  repeat' (first
    | with_reducible intro _
    | with_reducible assumption
    | with_reducible apply keeps_ite
    | dsimp only
    | with_reducible apply keeps_ite_fst
    | with_reducible apply keeps_foldl_fst
    | with_reducible apply keeps_foldl
    | with_reducible apply inc64_keeps
    | with_reducible apply measEvent_keeps
    | with_reducible apply modMeas_keeps
    | exact Nat.le_refl _
    | split
    | with_reducible refine Keeps.of_fst ?_ (by assumption))

theorem measStep_keeps {s₀ s : State} (h : Keeps s₀ s) :
    Keeps s₀ (State.measStep s) := by
  unfold State.measStep
  try dsimp only
  repeat' (first
    | with_reducible intro _
    | with_reducible assumption
    | with_reducible apply keeps_ite
    | with_reducible apply keeps_foldl
    | with_reducible apply inc64_keeps
    | with_reducible apply measEvent_keeps
    | with_reducible apply measShow_keeps
    | with_reducible apply modMc_keeps
    | with_reducible apply modMeas_keeps
    | with_reducible apply setB_keeps
    | with_reducible apply setF_keeps
    | with_reducible apply wr64_keeps
    | exact Nat.le_refl _
    | split
    | with_reducible refine Keeps.of_fst ?_ (by assumption))

theorem measConfigure_keeps {s₀ s : State} (h : Keeps s₀ s) (changed : Bool) (m : Nat) :
    Keeps s₀ (State.measConfigure s changed m).1 := by
  unfold State.measConfigure
  try dsimp only
  repeat' (first
    | with_reducible intro _
    | with_reducible assumption
    | with_reducible apply keeps_ite
    | dsimp only
    | with_reducible apply keeps_ite_fst
    | with_reducible apply keeps_foldl_fst
    | with_reducible apply keeps_foldl
    | with_reducible apply inc64_keeps
    | with_reducible apply measEvent_keeps
    | with_reducible apply measWrite_keeps
    | with_reducible apply modMc_keeps
    | with_reducible apply wr_keeps
    | exact Nat.le_refl _
    | split
    | with_reducible refine Keeps.of_fst ?_ (by assumption)
    | with_reducible refine keeps_mk ?_ rfl rfl rfl rfl (Nat.le_refl _))

theorem measEdge_keeps {s₀ s : State} (h : Keeps s₀ s) (changes : List State.CatChange) :
    Keeps s₀ (State.measEdge s changes) := by
  unfold State.measEdge
  try dsimp only
  repeat' (first
    | with_reducible intro _
    | with_reducible assumption
    | with_reducible apply keeps_ite
    | dsimp only
    | with_reducible apply keeps_ite_fst
    | with_reducible apply keeps_foldl_fst
    | with_reducible apply keeps_foldl
    | with_reducible apply measConfigure_keeps
    | with_reducible apply measDeliver_keeps
    | with_reducible apply measShow_keeps
    | with_reducible apply modMc_keeps
    | with_reducible apply modMeas_keeps
    | with_reducible apply sendSyncAt_keeps
    | with_reducible apply setF_keeps
    | with_reducible apply syncDue_keeps
    | with_reducible apply wr64_keeps
    | exact Nat.le_refl _
    | split
    | with_reducible refine Keeps.of_fst ?_ (by assumption))

theorem measOutput_keeps {s₀ s : State} (h : Keeps s₀ s) (m r : Nat) :
    Keeps s₀ (State.measOutput s m r) := by
  unfold State.measOutput
  try dsimp only
  repeat' (first
    | with_reducible intro _
    | with_reducible assumption
    | with_reducible apply keeps_ite
    | with_reducible apply inc64_keeps
    | with_reducible apply modMc_keeps
    | with_reducible apply wr_keeps
    | exact Nat.le_refl _
    | split
    | with_reducible refine Keeps.of_fst ?_ (by assumption))

theorem execSincOutput_keeps {s₀ s : State} (h : Keeps s₀ s) (dt : Nat) (ch : Fin 16) (bits : BitVec 64) :
    KeepsOut s₀ (Machine.execSincOutput dt ch bits s) := by
  unfold Machine.execSincOutput
  try dsimp only
  repeat' (first
    | with_reducible intro _
    | with_reducible assumption
    | with_reducible apply keepsOut_next
    | with_reducible apply keepsOut_fault
    | with_reducible apply keepsOut_ite
    | with_reducible apply keeps_ite
    | dsimp only
    | with_reducible apply keeps_ite_fst
    | with_reducible apply keeps_foldl_fst
    | with_reducible apply keeps_foldl
    | with_reducible apply elapse_keeps
    | with_reducible apply modMc_keeps
    | exact Nat.le_refl _
    | split
    | with_reducible refine Keeps.of_fst ?_ (by assumption))

theorem execMeasOutputReady_keeps {s₀ s : State} (h : Keeps s₀ s) (dt : Nat) (ch : Fin 16) :
    KeepsOut s₀ (Machine.execMeasOutputReady dt ch s) := by
  unfold Machine.execMeasOutputReady
  try dsimp only
  repeat' (first
    | with_reducible intro _
    | with_reducible assumption
    | with_reducible apply keepsOut_next
    | with_reducible apply keepsOut_fault
    | with_reducible apply keepsOut_ite
    | with_reducible apply keeps_ite
    | with_reducible apply elapse_keeps
    | with_reducible apply measOutput_keeps
    | exact Nat.le_refl _
    | split
    | with_reducible refine Keeps.of_fst ?_ (by assumption))

theorem execMeasStuck_keeps {s₀ s : State} (h : Keeps s₀ s) (dt : Nat) (ch : Fin 16) :
    KeepsOut s₀ (Machine.execMeasStuck dt ch s) := by
  unfold Machine.execMeasStuck
  try dsimp only
  repeat' (first
    | with_reducible intro _
    | with_reducible assumption
    | with_reducible apply keepsOut_next
    | with_reducible apply keepsOut_fault
    | with_reducible apply keepsOut_ite
    | with_reducible apply keeps_ite
    | with_reducible apply elapse_keeps
    | with_reducible apply measEvent_keeps
    | with_reducible apply setB_keeps
    | exact Nat.le_refl _
    | split
    | with_reducible refine Keeps.of_fst ?_ (by assumption))

theorem execStreamUnstuck_keeps {s₀ s : State} (h : Keeps s₀ s) (dt : Nat) (ch : Fin 16) :
    KeepsOut s₀ (Machine.execStreamUnstuck dt ch s) := by
  unfold Machine.execStreamUnstuck
  try dsimp only
  repeat' (first
    | with_reducible intro _
    | with_reducible assumption
    | with_reducible apply keepsOut_next
    | with_reducible apply keepsOut_fault
    | with_reducible apply keepsOut_ite
    | with_reducible apply keeps_ite
    | with_reducible apply elapse_keeps
    | with_reducible apply setB_keeps
    | exact Nat.le_refl _
    | split
    | with_reducible refine Keeps.of_fst ?_ (by assumption))

theorem ringRdWrite_keeps {s₀ s : State} (h : Keeps s₀ s) (m value : Nat) :
    Keeps s₀ (State.ringRdWrite s m value) := by
  unfold State.ringRdWrite
  try dsimp only
  repeat' (first
    | with_reducible intro _
    | with_reducible assumption
    | with_reducible apply keeps_ite
    | with_reducible apply inc64_keeps
    | with_reducible apply wr64_keeps
    | exact Nat.le_refl _
    | split
    | with_reducible refine Keeps.of_fst ?_ (by assumption))

theorem execMeasRingrdWrite_keeps {s₀ s : State} (h : Keeps s₀ s) (dt : Nat) (req : Requester) (ch : Fin 16) (value : BitVec 64) :
    KeepsOut s₀ (Machine.execMeasRingrdWrite dt req ch value s) := by
  unfold Machine.execMeasRingrdWrite
  try dsimp only
  repeat' (first
    | with_reducible intro _
    | with_reducible assumption
    | with_reducible apply keepsOut_next
    | with_reducible apply keepsOut_fault
    | with_reducible apply keepsOut_ite
    | with_reducible apply keeps_ite
    | with_reducible apply elapse_keeps
    | with_reducible apply regCmd_keeps
    | with_reducible apply ringRdWrite_keeps
    | exact Nat.le_refl _
    | split
    | with_reducible refine Keeps.of_fst ?_ (by assumption))

theorem execSyncInEdge_keeps {s₀ s : State} (h : Keeps s₀ s) (dt : Nat) (rising : Bool) (width : Nat) :
    KeepsOut s₀ (Machine.execSyncInEdge dt rising width s) := by
  unfold Machine.execSyncInEdge
  try dsimp only
  repeat' (first
    | with_reducible intro _
    | with_reducible assumption
    | with_reducible apply keepsOut_next
    | with_reducible apply keepsOut_fault
    | with_reducible apply keepsOut_ite
    | with_reducible apply keeps_ite
    | with_reducible apply elapse_keeps
    | with_reducible apply modMeas_keeps
    | with_reducible apply syncIgnored_keeps
    | with_reducible apply syncRequest_keeps
    | exact Nat.le_refl _
    | split
    | with_reducible refine Keeps.of_fst ?_ (by assumption))

theorem syncNow_keeps {s₀ s : State} (h : Keeps s₀ s) (key : Nat) :
    Keeps s₀ (State.syncNow s key) := by
  unfold State.syncNow
  try dsimp only
  repeat' (first
    | with_reducible intro _
    | with_reducible assumption
    | with_reducible apply keeps_ite
    | with_reducible apply syncRequest_keeps
    | exact Nat.le_refl _
    | split
    | with_reducible refine Keeps.of_fst ?_ (by assumption))

theorem execMeasSyncNow_keeps {s₀ s : State} (h : Keeps s₀ s) (dt : Nat) (req : Requester) (key : Byte) :
    KeepsOut s₀ (Machine.execMeasSyncNow dt req key s) := by
  unfold Machine.execMeasSyncNow
  try dsimp only
  repeat' (first
    | with_reducible intro _
    | with_reducible assumption
    | with_reducible apply keepsOut_next
    | with_reducible apply keepsOut_fault
    | with_reducible apply keepsOut_ite
    | with_reducible apply keeps_ite
    | with_reducible apply elapse_keeps
    | with_reducible apply regCmd_keeps
    | with_reducible apply syncNow_keeps
    | exact Nat.le_refl _
    | split
    | with_reducible refine Keeps.of_fst ?_ (by assumption))

theorem syncArm_keeps {s₀ s : State} (h : Keeps s₀ s) (key : Nat) :
    Keeps s₀ (State.syncArm s key) := by
  unfold State.syncArm
  try dsimp only
  repeat' (first
    | with_reducible intro _
    | with_reducible assumption
    | with_reducible apply keeps_ite
    | with_reducible apply modMeas_keeps
    | with_reducible apply setB_keeps
    | with_reducible apply syncIgnored_keeps
    | exact Nat.le_refl _
    | split
    | with_reducible refine Keeps.of_fst ?_ (by assumption))

theorem execMeasSyncArm_keeps {s₀ s : State} (h : Keeps s₀ s) (dt : Nat) (req : Requester) (key : Byte) :
    KeepsOut s₀ (Machine.execMeasSyncArm dt req key s) := by
  unfold Machine.execMeasSyncArm
  try dsimp only
  repeat' (first
    | with_reducible intro _
    | with_reducible assumption
    | with_reducible apply keepsOut_next
    | with_reducible apply keepsOut_fault
    | with_reducible apply keepsOut_ite
    | with_reducible apply keeps_ite
    | with_reducible apply elapse_keeps
    | with_reducible apply regCmd_keeps
    | with_reducible apply syncArm_keeps
    | exact Nat.le_refl _
    | split
    | with_reducible refine Keeps.of_fst ?_ (by assumption))

theorem syncDisarm_keeps {s₀ s : State} (h : Keeps s₀ s) (key : Nat) :
    Keeps s₀ (State.syncDisarm s key) := by
  unfold State.syncDisarm
  try dsimp only
  repeat' (first
    | with_reducible intro _
    | with_reducible assumption
    | with_reducible apply keeps_ite
    | with_reducible apply modMeas_keeps
    | with_reducible apply setB_keeps
    | exact Nat.le_refl _
    | split
    | with_reducible refine Keeps.of_fst ?_ (by assumption))

theorem execMeasSyncDisarm_keeps {s₀ s : State} (h : Keeps s₀ s) (dt : Nat) (req : Requester) (key : Byte) :
    KeepsOut s₀ (Machine.execMeasSyncDisarm dt req key s) := by
  unfold Machine.execMeasSyncDisarm
  try dsimp only
  repeat' (first
    | with_reducible intro _
    | with_reducible assumption
    | with_reducible apply keepsOut_next
    | with_reducible apply keepsOut_fault
    | with_reducible apply keepsOut_ite
    | with_reducible apply keeps_ite
    | with_reducible apply elapse_keeps
    | with_reducible apply regCmd_keeps
    | with_reducible apply syncDisarm_keeps
    | exact Nat.le_refl _
    | split
    | with_reducible refine Keeps.of_fst ?_ (by assumption))

theorem execMeasSync_keeps {s₀ s : State} (h : Keeps s₀ s) (dt : Nat) :
    KeepsOut s₀ (Machine.execMeasSync dt s) := by
  unfold Machine.execMeasSync
  try dsimp only
  repeat' (first
    | with_reducible intro _
    | with_reducible assumption
    | with_reducible apply keepsOut_next
    | with_reducible apply keepsOut_fault
    | with_reducible apply keepsOut_ite
    | with_reducible apply keeps_ite
    | dsimp only
    | with_reducible apply keeps_ite_fst
    | with_reducible apply keeps_foldl_fst
    | with_reducible apply elapse_keeps
    | with_reducible apply syncDue_keeps
    | exact Nat.le_refl _
    | split
    | with_reducible refine Keeps.of_fst ?_ (by assumption))

theorem execMeasPllLost_keeps {s₀ s : State} (h : Keeps s₀ s) (dt : Nat) :
    KeepsOut s₀ (Machine.execMeasPllLost dt s) := by
  unfold Machine.execMeasPllLost
  try dsimp only
  repeat' (first
    | with_reducible intro _
    | with_reducible assumption
    | with_reducible apply keepsOut_next
    | with_reducible apply keepsOut_fault
    | with_reducible apply keepsOut_ite
    | with_reducible apply keeps_ite
    | with_reducible apply elapse_keeps
    | with_reducible apply inc64_keeps
    | with_reducible apply measEvent_keeps
    | with_reducible apply setB_keeps
    | exact Nat.le_refl _
    | split
    | with_reducible refine Keeps.of_fst ?_ (by assumption))

theorem execMeasPllLocked_keeps {s₀ s : State} (h : Keeps s₀ s) (dt : Nat) :
    KeepsOut s₀ (Machine.execMeasPllLocked dt s) := by
  unfold Machine.execMeasPllLocked
  try dsimp only
  repeat' (first
    | with_reducible intro _
    | with_reducible assumption
    | with_reducible apply keepsOut_next
    | with_reducible apply keepsOut_fault
    | with_reducible apply keepsOut_ite
    | with_reducible apply keeps_ite
    | with_reducible apply elapse_keeps
    | with_reducible apply measEvent_keeps
    | with_reducible apply modMeas_keeps
    | with_reducible apply setB_keeps
    | exact Nat.le_refl _
    | split
    | with_reducible refine Keeps.of_fst ?_ (by assumption))

end Sys2Proof.Laws
end

