-- ==== Sys2Proof/Laws/Keeps/Walira.lean ====
section
/-! SUPPORT. What the operations and meanings of Machine/Walira.lean keep (`Keeps`). -/

set_option linter.unreachableTactic false
set_option linter.unusedTactic false
set_option linter.unusedVariables false

namespace Sys2Proof.Laws

open Sys2Proof.Machine

theorem modWc_keeps {s₀ s : State} (h : Keeps s₀ s) (c : Nat) (f : WalChan → WalChan) :
    Keeps s₀ (State.modWc s c f) := by
  unfold State.modWc
  try dsimp only
  repeat' (first
    | with_reducible intro _
    | with_reducible assumption
    | with_reducible apply keeps_ite
    | exact Nat.le_refl _
    | split
    | with_reducible refine Keeps.of_fst ?_ (by assumption)
    | with_reducible refine keeps_mk ?_ rfl rfl rfl rfl (Nat.le_refl _))

theorem modWr_keeps {s₀ s : State} (h : Keeps s₀ s) (e : Nat) (f : WalRec → WalRec) :
    Keeps s₀ (State.modWr s e f) := by
  unfold State.modWr
  try dsimp only
  repeat' (first
    | with_reducible intro _
    | with_reducible assumption
    | with_reducible apply keeps_ite
    | exact Nat.le_refl _
    | split
    | with_reducible refine Keeps.of_fst ?_ (by assumption)
    | with_reducible refine keeps_mk ?_ rfl rfl rfl rfl (Nat.le_refl _))

theorem walEvent_keeps {s₀ s : State} (h : Keeps s₀ s) (code sev : Nat) (payload : List Byte) :
    Keeps s₀ (State.walEvent s code sev payload) := by
  unfold State.walEvent
  try dsimp only
  repeat' (first
    | with_reducible intro _
    | with_reducible assumption
    | with_reducible apply keeps_ite
    | with_reducible apply emit_keeps
    | exact Nat.le_refl _
    | split
    | with_reducible refine Keeps.of_fst ?_ (by assumption))

theorem setWal_keeps {s₀ s : State} (h : Keeps s₀ s) (c v : Nat) :
    Keeps s₀ (State.setWal s c v) := by
  unfold State.setWal
  try dsimp only
  repeat' (first
    | with_reducible intro _
    | with_reducible assumption
    | with_reducible apply keeps_ite
    | with_reducible apply setF_keeps
    | exact Nat.le_refl _
    | split
    | with_reducible refine Keeps.of_fst ?_ (by assumption))

theorem walDelays_keeps {s₀ s : State} (h : Keeps s₀ s) (c : Nat) :
    Keeps s₀ (State.walDelays s c) := by
  unfold State.walDelays
  try dsimp only
  repeat' (first
    | with_reducible intro _
    | with_reducible assumption
    | with_reducible apply keeps_ite
    | with_reducible apply setB_keeps
    | exact Nat.le_refl _
    | split
    | with_reducible refine Keeps.of_fst ?_ (by assumption))

theorem walShowEntry_keeps {s₀ s : State} (h : Keeps s₀ s) (e : Nat) :
    Keeps s₀ (State.walShowEntry s e) := by
  unfold State.walShowEntry
  try dsimp only
  repeat' (first
    | with_reducible intro _
    | with_reducible assumption
    | with_reducible apply keeps_ite
    | with_reducible apply setB_keeps
    | exact Nat.le_refl _
    | split
    | with_reducible refine Keeps.of_fst ?_ (by assumption))

theorem walConfigured_keeps {s₀ s : State} (h : Keeps s₀ s) :
    Keeps s₀ (State.walConfigured s) := by
  unfold State.walConfigured
  try dsimp only
  repeat' (first
    | with_reducible intro _
    | with_reducible assumption
    | with_reducible apply keeps_ite
    | with_reducible apply keeps_foldl
    | with_reducible apply walDelays_keeps
    | with_reducible apply walShowEntry_keeps
    | with_reducible apply wr_keeps
    | exact Nat.le_refl _
    | split
    | with_reducible refine Keeps.of_fst ?_ (by assumption)
    | with_reducible refine keeps_mk ?_ rfl rfl rfl rfl (Nat.le_refl _))

theorem walUnclaim_keeps {s₀ s : State} (h : Keeps s₀ s) (c : Nat) :
    Keeps s₀ (State.walUnclaim s c) := by
  unfold State.walUnclaim
  try dsimp only
  repeat' (first
    | with_reducible intro _
    | with_reducible assumption
    | with_reducible apply keeps_ite
    | with_reducible apply keeps_foldl
    | with_reducible apply setB_keeps
    | exact Nat.le_refl _
    | split
    | with_reducible refine Keeps.of_fst ?_ (by assumption))

theorem walOff_keeps {s₀ s : State} (h : Keeps s₀ s) (c : Nat) :
    Keeps s₀ (State.walOff s c) := by
  unfold State.walOff
  try dsimp only
  repeat' (first
    | with_reducible intro _
    | with_reducible assumption
    | with_reducible apply keeps_ite
    | with_reducible apply modWc_keeps
    | with_reducible apply setB_keeps
    | with_reducible apply setWal_keeps
    | with_reducible apply walUnclaim_keeps
    | exact Nat.le_refl _
    | split
    | with_reducible refine Keeps.of_fst ?_ (by assumption)
    | with_reducible refine keeps_mk ?_ rfl rfl rfl rfl (Nat.le_refl _))

theorem walListen_keeps {s₀ s : State} (h : Keeps s₀ s) (c cause : Nat) :
    Keeps s₀ (State.walListen s c cause) := by
  unfold State.walListen
  try dsimp only
  repeat' (first
    | with_reducible intro _
    | with_reducible assumption
    | with_reducible apply keeps_ite
    | with_reducible apply modWc_keeps
    | with_reducible apply setB_keeps
    | with_reducible apply setWal_keeps
    | with_reducible apply walEvent_keeps
    | with_reducible apply walUnclaim_keeps
    | exact Nat.le_refl _
    | split
    | with_reducible refine Keeps.of_fst ?_ (by assumption))

theorem walIntegrate_keeps {s₀ s : State} (h : Keeps s₀ s) (c : Nat) :
    Keeps s₀ (State.walIntegrate s c) := by
  unfold State.walIntegrate
  try dsimp only
  repeat' (first
    | with_reducible intro _
    | with_reducible assumption
    | with_reducible apply keeps_ite
    | with_reducible apply modWc_keeps
    | with_reducible apply setWal_keeps
    | exact Nat.le_refl _
    | split
    | with_reducible refine Keeps.of_fst ?_ (by assumption))

theorem walClaims_keeps {s₀ s : State} (h : Keeps s₀ s) (c : Nat) :
    Keeps s₀ (State.walClaims s c) := by
  unfold State.walClaims
  try dsimp only
  repeat' (first
    | with_reducible intro _
    | with_reducible assumption
    | with_reducible apply keeps_ite
    | with_reducible apply keeps_foldl
    | with_reducible apply setB_keeps
    | exact Nat.le_refl _
    | split
    | with_reducible refine Keeps.of_fst ?_ (by assumption))

theorem walSchedule_keeps {s₀ s : State} (h : Keeps s₀ s) (c : Nat) (changed : Bool) :
    Keeps s₀ (State.walSchedule s c changed) := by
  unfold State.walSchedule
  try dsimp only
  repeat' (first
    | with_reducible intro _
    | with_reducible assumption
    | with_reducible apply keeps_ite
    | with_reducible apply setWal_keeps
    | with_reducible apply walEvent_keeps
    | with_reducible apply walListen_keeps
    | with_reducible apply walOff_keeps
    | exact Nat.le_refl _
    | split
    | with_reducible refine Keeps.of_fst ?_ (by assumption))

theorem walColdStart_keeps {s₀ s : State} (h : Keeps s₀ s) (c : Nat) :
    Keeps s₀ (State.walColdStart s c) := by
  unfold State.walColdStart
  try dsimp only
  repeat' (first
    | with_reducible intro _
    | with_reducible assumption
    | with_reducible apply keeps_ite
    | with_reducible apply inc64_keeps
    | with_reducible apply lpeFeed_keeps
    | with_reducible apply modWc_keeps
    | with_reducible apply setWal_keeps
    | exact Nat.le_refl _
    | split
    | with_reducible refine Keeps.of_fst ?_ (by assumption))

theorem walCutOwn_keeps {s₀ s : State} (h : Keeps s₀ s) (c : Nat) :
    Keeps s₀ (State.walCutOwn s c) := by
  unfold State.walCutOwn
  try dsimp only
  repeat' (first
    | with_reducible intro _
    | with_reducible assumption
    | with_reducible apply keeps_ite
    | with_reducible apply modWc_keeps
    | with_reducible apply modWr_keeps
    | exact Nat.le_refl _
    | split
    | with_reducible refine Keeps.of_fst ?_ (by assumption)
    | with_reducible refine keeps_mk ?_ rfl rfl rfl rfl (Nat.le_refl _))

theorem walClash_keeps {s₀ s : State} (h : Keeps s₀ s) (c e : Nat) (f : WalFrame) :
    Keeps s₀ (State.walClash s c e f) := by
  unfold State.walClash
  try dsimp only
  repeat' (first
    | with_reducible intro _
    | with_reducible assumption
    | with_reducible apply keeps_ite
    | with_reducible apply modWr_keeps
    | with_reducible apply setB_keeps
    | with_reducible apply walCutOwn_keeps
    | with_reducible apply walEvent_keeps
    | exact Nat.le_refl _
    | split
    | with_reducible refine Keeps.of_fst ?_ (by assumption))

theorem walCsSeen_keeps {s₀ s : State} (h : Keeps s₀ s) (c : Nat) (f : WalFrame) :
    Keeps s₀ (State.walCsSeen s c f) := by
  unfold State.walCsSeen
  try dsimp only
  repeat' (first
    | with_reducible intro _
    | with_reducible assumption
    | with_reducible apply keeps_ite
    | with_reducible apply modWc_keeps
    | exact Nat.le_refl _
    | split
    | with_reducible refine Keeps.of_fst ?_ (by assumption))

theorem walStartUse_keeps {s₀ s : State} (h : Keeps s₀ s) (c e : Nat) (f : WalFrame) :
    Keeps s₀ (State.walStartUse s c e f) := by
  unfold State.walStartUse
  try dsimp only
  repeat' (first
    | with_reducible intro _
    | with_reducible assumption
    | with_reducible apply keeps_ite
    | with_reducible apply modWc_keeps
    | exact Nat.le_refl _
    | split
    | with_reducible refine Keeps.of_fst ?_ (by assumption))

theorem walUse_keeps {s₀ s : State} (h : Keeps s₀ s) (c e : Nat) (f : WalFrame) :
    Keeps s₀ (State.walUse s c e f) := by
  unfold State.walUse
  try dsimp only
  repeat' (first
    | with_reducible intro _
    | with_reducible assumption
    | with_reducible apply keeps_ite
    | dsimp only
    | with_reducible apply keeps_ite_fst
    | with_reducible apply keeps_foldl_fst
    | with_reducible apply modWc_keeps
    | with_reducible apply syncNow_keeps
    | exact Nat.le_refl _
    | split
    | with_reducible refine Keeps.of_fst ?_ (by assumption))

theorem walForward_keeps {s₀ s : State} (h : Keeps s₀ s) (port : Nat) (f : WalFrame) (slot : Option Nat) :
    Keeps s₀ (State.walForward s port f slot) := by
  unfold State.walForward
  try dsimp only
  repeat' (first
    | with_reducible intro _
    | with_reducible assumption
    | with_reducible apply keeps_ite
    | with_reducible apply keeps_foldl
    | with_reducible apply modWc_keeps
    | exact Nat.le_refl _
    | split
    | with_reducible refine Keeps.of_fst ?_ (by assumption))

theorem walReceive_keeps {s₀ s : State} (h : Keeps s₀ s) (port : Nat) (f : WalFrame) :
    Keeps s₀ (State.walReceive s port f) := by
  unfold State.walReceive
  try dsimp only
  repeat' (first
    | with_reducible intro _
    | with_reducible assumption
    | with_reducible apply keeps_ite
    | with_reducible apply inc64_keeps
    | with_reducible apply lpeFeed_keeps
    | with_reducible apply modWc_keeps
    | with_reducible apply modWr_keeps
    | with_reducible apply walClash_keeps
    | with_reducible apply walCsSeen_keeps
    | with_reducible apply walDelays_keeps
    | with_reducible apply walForward_keeps
    | with_reducible apply walIntegrate_keeps
    | with_reducible apply walStartUse_keeps
    | with_reducible apply walUse_keeps
    | exact Nat.le_refl _
    | split
    | with_reducible refine Keeps.of_fst ?_ (by assumption)
    | with_reducible refine keeps_mk ?_ rfl rfl rfl rfl (Nat.le_refl _))

theorem walImageOne_keeps {s₀ s : State} (h : Keeps s₀ s) (stepped : Bool) (e : Nat) :
    Keeps s₀ (State.walImageOne s stepped e) := by
  unfold State.walImageOne
  try dsimp only
  repeat' (first
    | with_reducible intro _
    | with_reducible assumption
    | with_reducible apply keeps_ite
    | with_reducible apply modWr_keeps
    | with_reducible apply setB_keeps
    | with_reducible apply setF_keeps
    | exact Nat.le_refl _
    | split
    | with_reducible refine Keeps.of_fst ?_ (by assumption)
    | with_reducible refine keeps_mk ?_ rfl rfl rfl rfl (Nat.le_refl _))

theorem walImage_keeps {s₀ s : State} (h : Keeps s₀ s) (c : Nat) :
    Keeps s₀ (State.walImage s c) := by
  unfold State.walImage
  try dsimp only
  repeat' (first
    | with_reducible intro _
    | with_reducible assumption
    | with_reducible apply keeps_ite
    | with_reducible apply keeps_foldl
    | with_reducible apply walImageOne_keeps
    | exact Nat.le_refl _
    | split
    | with_reducible refine Keeps.of_fst ?_ (by assumption))

theorem walIdle_keeps {s₀ s : State} (h : Keeps s₀ s) (c : Nat) :
    Keeps s₀ (State.walIdle s c) := by
  unfold State.walIdle
  try dsimp only
  repeat' (first
    | with_reducible intro _
    | with_reducible assumption
    | with_reducible apply keeps_ite
    | dsimp only
    | with_reducible apply keeps_ite_fst
    | with_reducible apply keeps_foldl_fst
    | with_reducible apply keeps_foldl
    | with_reducible apply walImageOne_keeps
    | with_reducible apply wr_keeps
    | exact Nat.le_refl _
    | split
    | with_reducible refine Keeps.of_fst ?_ (by assumption))

theorem walStateEdge_keeps {s₀ s : State} (h : Keeps s₀ s) (c : Nat) :
    Keeps s₀ (State.walStateEdge s c) := by
  unfold State.walStateEdge
  try dsimp only
  repeat' (first
    | with_reducible intro _
    | with_reducible assumption
    | with_reducible apply keeps_ite
    | with_reducible apply inc64_keeps
    | with_reducible apply modWc_keeps
    | with_reducible apply setB_keeps
    | with_reducible apply setWal_keeps
    | with_reducible apply walEvent_keeps
    | with_reducible apply walListen_keeps
    | exact Nat.le_refl _
    | split
    | with_reducible refine Keeps.of_fst ?_ (by assumption))

theorem walChanEdge_keeps {s₀ s : State} (h : Keeps s₀ s) (c : Nat) (changed : Bool) :
    Keeps s₀ (State.walChanEdge s c changed) := by
  unfold State.walChanEdge
  try dsimp only
  repeat' (first
    | with_reducible intro _
    | with_reducible assumption
    | with_reducible apply keeps_ite
    | with_reducible apply inc64_keeps
    | with_reducible apply modWc_keeps
    | with_reducible apply syncNow_keeps
    | with_reducible apply walClaims_keeps
    | with_reducible apply walIdle_keeps
    | with_reducible apply walImage_keeps
    | with_reducible apply walSchedule_keeps
    | with_reducible apply walStateEdge_keeps
    | with_reducible apply wr_keeps
    | exact Nat.le_refl _
    | split
    | with_reducible refine Keeps.of_fst ?_ (by assumption))

theorem walEdge_keeps {s₀ s : State} (h : Keeps s₀ s) (changes : List State.CatChange) :
    Keeps s₀ (State.walEdge s changes) := by
  unfold State.walEdge
  try dsimp only
  repeat' (first
    | with_reducible intro _
    | with_reducible assumption
    | with_reducible apply keeps_ite
    | with_reducible apply keeps_foldl
    | with_reducible apply modWr_keeps
    | with_reducible apply setB_keeps
    | with_reducible apply walChanEdge_keeps
    | with_reducible apply walDelays_keeps
    | with_reducible apply walShowEntry_keeps
    | with_reducible apply wr_keeps
    | exact Nat.le_refl _
    | split
    | with_reducible refine Keeps.of_fst ?_ (by assumption)
    | with_reducible refine keeps_mk ?_ rfl rfl rfl rfl (Nat.le_refl _))

theorem walLatchEdge_keeps {s₀ s : State} (h : Keeps s₀ s) :
    Keeps s₀ (State.walLatchEdge s) := by
  unfold State.walLatchEdge
  try dsimp only
  repeat' (first
    | with_reducible intro _
    | with_reducible assumption
    | with_reducible apply keeps_ite
    | with_reducible apply keeps_foldl
    | with_reducible apply modWr_keeps
    | exact Nat.le_refl _
    | split
    | with_reducible refine Keeps.of_fst ?_ (by assumption))

theorem walStep_keeps {s₀ s : State} (h : Keeps s₀ s) :
    Keeps s₀ (State.walStep s) := by
  unfold State.walStep
  try dsimp only
  repeat' (first
    | with_reducible intro _
    | with_reducible assumption
    | with_reducible apply keeps_ite
    | with_reducible apply keeps_foldl
    | with_reducible apply modWc_keeps
    | with_reducible apply walCutOwn_keeps
    | with_reducible apply walListen_keeps
    | exact Nat.le_refl _
    | split
    | with_reducible refine Keeps.of_fst ?_ (by assumption))

theorem execLinkDelayExchange_keeps {s₀ s : State} (h : Keeps s₀ s) (dt : Nat) (port : Fin 4) (delay : BitVec 16) :
    KeepsOut s₀ (Machine.execLinkDelayExchange dt port delay s) := by
  unfold Machine.execLinkDelayExchange
  try dsimp only
  repeat' (first
    | with_reducible intro _
    | with_reducible assumption
    | with_reducible apply keepsOut_next
    | with_reducible apply keepsOut_fault
    | with_reducible apply keepsOut_ite
    | with_reducible apply keeps_ite
    | with_reducible apply elapse_keeps
    | with_reducible apply setB_keeps
    | with_reducible apply setF_keeps
    | with_reducible apply walDelays_keeps
    | exact Nat.le_refl _
    | split
    | with_reducible refine Keeps.of_fst ?_ (by assumption))

theorem execWalLink_keeps {s₀ s : State} (h : Keeps s₀ s) (dt : Nat) (port : Fin 4) (up : Bool) :
    KeepsOut s₀ (Machine.execWalLink dt port up s) := by
  unfold Machine.execWalLink
  try dsimp only
  repeat' (first
    | with_reducible intro _
    | with_reducible assumption
    | with_reducible apply keepsOut_next
    | with_reducible apply keepsOut_fault
    | with_reducible apply keepsOut_ite
    | with_reducible apply keeps_ite
    | with_reducible apply elapse_keeps
    | with_reducible apply setB_keeps
    | with_reducible apply walDelays_keeps
    | with_reducible apply walEvent_keeps
    | exact Nat.le_refl _
    | split
    | with_reducible refine Keeps.of_fst ?_ (by assumption))

theorem execWalFrameRx_keeps {s₀ s : State} (h : Keeps s₀ s) (dt : Nat) (port : Fin 4) (frame : WalFrame) :
    KeepsOut s₀ (Machine.execWalFrameRx dt port frame s) := by
  unfold Machine.execWalFrameRx
  try dsimp only
  repeat' (first
    | with_reducible intro _
    | with_reducible assumption
    | with_reducible apply keepsOut_next
    | with_reducible apply keepsOut_fault
    | with_reducible apply keepsOut_ite
    | with_reducible apply keeps_ite
    | with_reducible apply elapse_keeps
    | with_reducible apply walReceive_keeps
    | exact Nat.le_refl _
    | split
    | with_reducible refine Keeps.of_fst ?_ (by assumption))

theorem execWalSlotTx_keeps {s₀ s : State} (h : Keeps s₀ s) (dt : Nat) (chan : Fin 2) (entry : Fin 64) :
    KeepsOut s₀ (Machine.execWalSlotTx dt chan entry s) := by
  unfold Machine.execWalSlotTx
  try dsimp only
  repeat' (first
    | with_reducible intro _
    | with_reducible assumption
    | with_reducible apply keepsOut_next
    | with_reducible apply keepsOut_fault
    | with_reducible apply keepsOut_ite
    | with_reducible apply keeps_ite
    | with_reducible apply elapse_keeps
    | with_reducible apply inc64_keeps
    | with_reducible apply lpeFeed_keeps
    | with_reducible apply modWc_keeps
    | with_reducible apply modWr_keeps
    | exact Nat.le_refl _
    | split
    | with_reducible refine Keeps.of_fst ?_ (by assumption))

theorem execGuardianCut_keeps {s₀ s : State} (h : Keeps s₀ s) (dt : Nat) (chan : Fin 2) :
    KeepsOut s₀ (Machine.execGuardianCut dt chan s) := by
  unfold Machine.execGuardianCut
  try dsimp only
  repeat' (first
    | with_reducible intro _
    | with_reducible assumption
    | with_reducible apply keepsOut_next
    | with_reducible apply keepsOut_fault
    | with_reducible apply keepsOut_ite
    | with_reducible apply keeps_ite
    | with_reducible apply elapse_keeps
    | with_reducible apply inc64_keeps
    | with_reducible apply walCutOwn_keeps
    | exact Nat.le_refl _
    | split
    | with_reducible refine Keeps.of_fst ?_ (by assumption))

theorem execWalGuardClk_keeps {s₀ s : State} (h : Keeps s₀ s) (dt : Nat) (port : Fin 4) (interval : Nat) :
    KeepsOut s₀ (Machine.execWalGuardClk dt port interval s) := by
  unfold Machine.execWalGuardClk
  try dsimp only
  repeat' (first
    | with_reducible intro _
    | with_reducible assumption
    | with_reducible apply keepsOut_next
    | with_reducible apply keepsOut_fault
    | with_reducible apply keepsOut_ite
    | with_reducible apply keeps_ite
    | with_reducible apply elapse_keeps
    | with_reducible apply inc64_keeps
    | with_reducible apply modWc_keeps
    | with_reducible apply walEvent_keeps
    | exact Nat.le_refl _
    | split
    | with_reducible refine Keeps.of_fst ?_ (by assumption))

theorem execForwardCut_keeps {s₀ s : State} (h : Keeps s₀ s) (dt : Nat) (port : Fin 4) :
    KeepsOut s₀ (Machine.execForwardCut dt port s) := by
  unfold Machine.execForwardCut
  try dsimp only
  repeat' (first
    | with_reducible intro _
    | with_reducible assumption
    | with_reducible apply keepsOut_next
    | with_reducible apply keepsOut_fault
    | with_reducible apply keepsOut_ite
    | with_reducible apply keeps_ite
    | with_reducible apply elapse_keeps
    | with_reducible apply inc64_keeps
    | with_reducible apply modWc_keeps
    | exact Nat.le_refl _
    | split
    | with_reducible refine Keeps.of_fst ?_ (by assumption)
    | with_reducible refine keeps_mk ?_ rfl rfl rfl rfl (Nat.le_refl _))

theorem execWalListenTimeout_keeps {s₀ s : State} (h : Keeps s₀ s) (dt : Nat) (chan : Fin 2) :
    KeepsOut s₀ (Machine.execWalListenTimeout dt chan s) := by
  unfold Machine.execWalListenTimeout
  try dsimp only
  repeat' (first
    | with_reducible intro _
    | with_reducible assumption
    | with_reducible apply keepsOut_next
    | with_reducible apply keepsOut_fault
    | with_reducible apply keepsOut_ite
    | with_reducible apply keeps_ite
    | with_reducible apply elapse_keeps
    | with_reducible apply walColdStart_keeps
    | exact Nat.le_refl _
    | split
    | with_reducible refine Keeps.of_fst ?_ (by assumption))

theorem execContentionWindowEnd_keeps {s₀ s : State} (h : Keeps s₀ s) (dt : Nat) (chan : Fin 2) :
    KeepsOut s₀ (Machine.execContentionWindowEnd dt chan s) := by
  unfold Machine.execContentionWindowEnd
  try dsimp only
  repeat' (first
    | with_reducible intro _
    | with_reducible assumption
    | with_reducible apply keepsOut_next
    | with_reducible apply keepsOut_fault
    | with_reducible apply keepsOut_ite
    | with_reducible apply keeps_ite
    | with_reducible apply elapse_keeps
    | with_reducible apply modWc_keeps
    | with_reducible apply setWal_keeps
    | with_reducible apply walListen_keeps
    | exact Nat.le_refl _
    | split
    | with_reducible refine Keeps.of_fst ?_ (by assumption))

theorem execWalBackoff_keeps {s₀ s : State} (h : Keeps s₀ s) (dt : Nat) (chan : Fin 2) :
    KeepsOut s₀ (Machine.execWalBackoff dt chan s) := by
  unfold Machine.execWalBackoff
  try dsimp only
  repeat' (first
    | with_reducible intro _
    | with_reducible assumption
    | with_reducible apply keepsOut_next
    | with_reducible apply keepsOut_fault
    | with_reducible apply keepsOut_ite
    | with_reducible apply keeps_ite
    | with_reducible apply elapse_keeps
    | with_reducible apply walColdStart_keeps
    | exact Nat.le_refl _
    | split
    | with_reducible refine Keeps.of_fst ?_ (by assumption))

end Sys2Proof.Laws
end

