-- ==== Sys2Proof/Laws/Keeps/Ethernet.lean ====
section
/-! SUPPORT. What the operations and meanings of Machine/Ethernet.lean keep (`Keeps`). -/

set_option linter.unreachableTactic false
set_option linter.unusedTactic false
set_option linter.unusedVariables false

namespace Sys2Proof.Laws

open Sys2Proof.Machine

theorem modEth_keeps {s₀ s : State} (h : Keeps s₀ s) (f : EthSt → EthSt) :
    Keeps s₀ (State.modEth s f) := by
  unfold State.modEth
  try dsimp only
  repeat' (first
    | with_reducible intro _
    | with_reducible assumption
    | with_reducible apply keeps_ite
    | exact Nat.le_refl _
    | split
    | with_reducible refine Keeps.of_fst ?_ (by assumption)
    | with_reducible refine keeps_mk ?_ rfl rfl rfl rfl (Nat.le_refl _))

theorem ethEvent_keeps {s₀ s : State} (h : Keeps s₀ s) (code sev : Nat) (payload : List Byte) :
    Keeps s₀ (State.ethEvent s code sev payload) := by
  unfold State.ethEvent
  try dsimp only
  repeat' (first
    | with_reducible intro _
    | with_reducible assumption
    | with_reducible apply keeps_ite
    | with_reducible apply emit_keeps
    | exact Nat.le_refl _
    | split
    | with_reducible refine Keeps.of_fst ?_ (by assumption))

theorem trdpEvent_keeps {s₀ s : State} (h : Keeps s₀ s) (code sev : Nat) (payload : List Byte) :
    Keeps s₀ (State.trdpEvent s code sev payload) := by
  unfold State.trdpEvent
  try dsimp only
  repeat' (first
    | with_reducible intro _
    | with_reducible assumption
    | with_reducible apply keeps_ite
    | with_reducible apply emit_keeps
    | exact Nat.le_refl _
    | split
    | with_reducible refine Keeps.of_fst ?_ (by assumption))

theorem setQueue_keeps {s₀ s : State} (h : Keeps s₀ s) (p q : Nat) (l : List EthQ) :
    Keeps s₀ (State.setQueue s p q l) := by
  unfold State.setQueue
  try dsimp only
  repeat' (first
    | with_reducible intro _
    | with_reducible assumption
    | with_reducible apply keeps_ite
    | with_reducible apply modEth_keeps
    | exact Nat.le_refl _
    | split
    | with_reducible refine Keeps.of_fst ?_ (by assumption))

theorem rxDrop_keeps {s₀ s : State} (h : Keeps s₀ s) (p r : Nat) :
    Keeps s₀ (State.rxDrop s p r) := by
  unfold State.rxDrop
  try dsimp only
  repeat' (first
    | with_reducible intro _
    | with_reducible assumption
    | with_reducible apply keeps_ite
    | with_reducible apply inc64_keeps
    | exact Nat.le_refl _
    | split
    | with_reducible refine Keeps.of_fst ?_ (by assumption))

theorem txDrop_keeps {s₀ s : State} (h : Keeps s₀ s) (p : Nat) (f : EthQ) (reason late : Nat) :
    Keeps s₀ (State.txDrop s p f reason late) := by
  unfold State.txDrop
  try dsimp only
  repeat' (first
    | with_reducible intro _
    | with_reducible assumption
    | with_reducible apply keeps_ite
    | with_reducible apply endTx_keeps
    | with_reducible apply inc64_keeps
    | with_reducible apply trdpEvent_keeps
    | exact Nat.le_refl _
    | split
    | with_reducible refine Keeps.of_fst ?_ (by assumption))

theorem engineTake_keeps {s₀ s : State} (h : Keeps s₀ s) (h : Nat) (f : EthQ) :
    Keeps s₀ (State.engineTake s h f) := by
  unfold State.engineTake
  try dsimp only
  repeat' (first
    | with_reducible intro _
    | with_reducible assumption
    | with_reducible apply keeps_ite
    | with_reducible apply inc64_keeps
    | with_reducible apply modEth_keeps
    | exact Nat.le_refl _
    | split
    | with_reducible refine Keeps.of_fst ?_ (by assumption))

theorem ethOffer_keeps {s₀ s : State} (h : Keeps s₀ s) (p q : Nat) (f : EthQ) :
    Keeps s₀ (State.ethOffer s p q f).1 := by
  unfold State.ethOffer
  try dsimp only
  repeat' (first
    | with_reducible intro _
    | with_reducible assumption
    | with_reducible apply keeps_ite
    | dsimp only
    | with_reducible apply keeps_ite_fst
    | with_reducible apply keeps_foldl_fst
    | with_reducible apply engineTake_keeps
    | with_reducible apply inc64_keeps
    | with_reducible apply lpeFeed_keeps
    | with_reducible apply setQueue_keeps
    | with_reducible apply txDrop_keeps
    | exact Nat.le_refl _
    | split
    | with_reducible refine Keeps.of_fst ?_ (by assumption))

theorem learn_keeps {s₀ s : State} (h : Keeps s₀ s) (p : Nat) (bs : List Byte) (vid : Nat) :
    Keeps s₀ (State.learn s p bs vid) := by
  unfold State.learn
  try dsimp only
  repeat' (first
    | with_reducible intro _
    | with_reducible assumption
    | with_reducible apply keeps_ite
    | with_reducible apply modEth_keeps
    | exact Nat.le_refl _
    | split
    | with_reducible refine Keeps.of_fst ?_ (by assumption))

theorem distribute_keeps {s₀ s : State} (h : Keeps s₀ s) (ports : List Nat) (c : Classified) (m : RxMeta) :
    Keeps s₀ (State.distribute s ports c m).1 := by
  unfold State.distribute
  try dsimp only
  repeat' (first
    | with_reducible intro _
    | with_reducible assumption
    | with_reducible apply keeps_ite
    | dsimp only
    | with_reducible apply keeps_ite_fst
    | with_reducible apply keeps_foldl_fst
    | with_reducible apply keeps_foldl
    | with_reducible apply ethOffer_keeps
    | exact Nat.le_refl _
    | split
    | with_reducible refine Keeps.of_fst ?_ (by assumption)
    | with_reducible refine keeps_mk ?_ rfl rfl rfl rfl (Nat.le_refl _))

theorem meter_keeps {s₀ s : State} (h : Keeps s₀ s) (i n : Nat) :
    Keeps s₀ (State.meter s i n).1 := by
  unfold State.meter
  extract_lets a m dt fill c e need upd
  have k : ∀ x y, Keeps s₀ (upd x y) := fun _ _ => modEth_keeps h _
  with_reducible apply keeps_ite_fst
  · exact k _ _
  · with_reducible apply keeps_ite_fst
    · exact k _ _
    · exact k _ _

theorem recover_keeps {s₀ s : State} (h : Keeps s₀ s) (i seq : Nat) :
    Keeps s₀ (State.recover s i seq).1 := by
  unfold State.recover
  try dsimp only
  repeat' (first
    | with_reducible intro _
    | with_reducible assumption
    | with_reducible apply keeps_ite
    | dsimp only
    | with_reducible apply keeps_ite_fst
    | with_reducible apply keeps_foldl_fst
    | with_reducible apply modEth_keeps
    | exact Nat.le_refl _
    | split
    | with_reducible refine Keeps.of_fst ?_ (by assumption)
    | with_reducible refine keeps_mk ?_ rfl rfl rfl rfl (Nat.le_refl _))

theorem forward_keeps {s₀ s : State} (h : Keeps s₀ s) (p : Nat) (c : Classified) (m : RxMeta) (ports : List Nat) :
    Keeps s₀ (State.forward s p c m ports).1 := by
  unfold State.forward
  try dsimp only
  repeat' (first
    | with_reducible intro _
    | with_reducible assumption
    | with_reducible apply keeps_ite
    | dsimp only
    | with_reducible apply keeps_ite_fst
    | with_reducible apply keeps_foldl_fst
    | with_reducible apply distribute_keeps
    | with_reducible apply inc64_keeps
    | with_reducible apply recover_keeps
    | with_reducible apply rxDrop_keeps
    | exact Nat.le_refl _
    | split
    | with_reducible refine Keeps.of_fst ?_ (by assumption)
    | with_reducible refine keeps_mk ?_ rfl rfl rfl rfl (Nat.le_refl _))

theorem metered_keeps {s₀ s : State} (h : Keeps s₀ s) (i n : Nat) :
    Keeps s₀ (State.metered s i n).1 := by
  unfold State.metered
  exact keeps_ite_fst (meter_keeps h _ _) h

theorem meterDrop_keeps {s₀ : State} {x : State × Bool} (h : Keeps s₀ x.1) : Keeps s₀ (State.meterDrop x).1 := h

theorem police_keeps {s₀ s : State} (h : Keeps s₀ s) (stream : Option Nat) (n : Nat) :
    Keeps s₀ (State.police s stream n).1 := by
  cases stream with
  | none => exact h
  | some i =>
    unfold State.police
    exact keeps_ite_fst h (meterDrop_keeps (metered_keeps h _ _))

theorem switchFrame_keeps {s₀ s : State} (h : Keeps s₀ s) (p dp : Nat) (bs : List Byte) (ports : Option (List Nat)) :
    Keeps s₀ (State.switchFrame s p dp bs ports).1 := by
  unfold State.switchFrame
  try dsimp only
  repeat' (first
    | with_reducible intro _
    | with_reducible assumption
    | with_reducible apply keeps_ite
    | dsimp only
    | with_reducible apply keeps_ite_fst
    | with_reducible apply keeps_foldl_fst
    | with_reducible apply forward_keeps
    | with_reducible apply learn_keeps
    | with_reducible apply police_keeps
    | with_reducible apply rxDrop_keeps
    | exact Nat.le_refl _
    | split
    | with_reducible refine Keeps.of_fst ?_ (by assumption))

theorem ethFrameIn_keeps {s₀ s : State} (h : Keeps s₀ s) (p : Nat) (f : EthFrame) :
    Keeps s₀ (State.ethFrameIn s p f) := by
  unfold State.ethFrameIn
  try dsimp only
  repeat' (first
    | with_reducible intro _
    | with_reducible assumption
    | with_reducible apply keeps_ite
    | dsimp only
    | with_reducible apply keeps_ite_fst
    | with_reducible apply keeps_foldl_fst
    | with_reducible apply ethOffer_keeps
    | with_reducible apply inc64_keeps
    | with_reducible apply lpeFeed_keeps
    | with_reducible apply modEth_keeps
    | with_reducible apply police_keeps
    | with_reducible apply rxDrop_keeps
    | with_reducible apply switchFrame_keeps
    | exact Nat.le_refl _
    | split
    | with_reducible refine Keeps.of_fst ?_ (by assumption)
    | with_reducible refine keeps_mk ?_ rfl rfl rfl rfl (Nat.le_refl _))

theorem txStart_keeps {s₀ s : State} (h : Keeps s₀ s) (p q : Nat) (f : EthQ) (late : Nat) :
    Keeps s₀ (State.txStart s p q f late) := by
  unfold State.txStart
  try dsimp only
  repeat' (first
    | with_reducible intro _
    | with_reducible assumption
    | with_reducible apply keeps_ite
    | with_reducible apply modEth_keeps
    | with_reducible apply setQueue_keeps
    | with_reducible apply tsRequest_keeps
    | exact Nat.le_refl _
    | split
    | with_reducible refine Keeps.of_fst ?_ (by assumption)
    | with_reducible refine keeps_mk ?_ rfl rfl rfl rfl (Nat.le_refl _))

theorem txGo_keeps {s₀ s : State} (h : Keeps s₀ s) (p : Nat) (n : Nat) :
    Keeps s₀ (State.txGo s p n) := by
  induction n generalizing s with
  | zero => exact h
  | succ n ih =>
    unfold State.txGo
    try dsimp only
    repeat' (first
    | with_reducible assumption
    | with_reducible apply ih
    | with_reducible apply txStart_keeps
    | with_reducible apply modEth_keeps
    | with_reducible apply txDrop_keeps
    | with_reducible apply setQueue_keeps
    | with_reducible apply keeps_ite
    | with_reducible refine Keeps.of_fst ?_ (by assumption)
    | split)

theorem txRun_keeps {s₀ s : State} (h : Keeps s₀ s) (p : Nat) :
    Keeps s₀ (State.txRun s p) := by
  unfold State.txRun
  try dsimp only
  repeat' (first
    | with_reducible intro _
    | with_reducible assumption
    | with_reducible apply keeps_ite
    | with_reducible apply txGo_keeps
    | exact Nat.le_refl _
    | split
    | with_reducible refine Keeps.of_fst ?_ (by assumption))

theorem txDone_keeps {s₀ s : State} (h : Keeps s₀ s) (p : Nat) :
    Keeps s₀ (State.txDone s p) := by
  unfold State.txDone
  try dsimp only
  repeat' (first
    | with_reducible intro _
    | with_reducible assumption
    | with_reducible apply keeps_ite
    | with_reducible apply endTx_keeps
    | with_reducible apply inc64_keeps
    | with_reducible apply lpeFeedFrom_keeps
    | with_reducible apply modEth_keeps
    | exact Nat.le_refl _
    | split
    | with_reducible refine Keeps.of_fst ?_ (by assumption))

theorem queueDrop_keeps {s₀ s : State} (h : Keeps s₀ s) (key reason : Nat) (gone : EthQ → Bool) :
    Keeps s₀ (State.queueDrop s key reason gone) := by
  unfold State.queueDrop
  try dsimp only
  repeat' (first
    | with_reducible intro _
    | with_reducible assumption
    | with_reducible apply keeps_ite
    | with_reducible apply keeps_foldl
    | with_reducible apply modEth_keeps
    | with_reducible apply txDrop_keeps
    | exact Nat.le_refl _
    | split
    | with_reducible refine Keeps.of_fst ?_ (by assumption))

theorem stpFlush_keeps {s₀ s : State} (h : Keeps s₀ s) (p : Nat) :
    Keeps s₀ (State.stpFlush s p) := by
  unfold State.stpFlush
  try dsimp only
  repeat' (first
    | with_reducible intro _
    | with_reducible assumption
    | with_reducible apply keeps_ite
    | with_reducible apply keeps_foldl
    | with_reducible apply queueDrop_keeps
    | exact Nat.le_refl _
    | split
    | with_reducible refine Keeps.of_fst ?_ (by assumption))

theorem launchDrops_keeps {s₀ s : State} (h : Keeps s₀ s) :
    Keeps s₀ (State.launchDrops s) := by
  unfold State.launchDrops
  try dsimp only
  repeat' (first
    | with_reducible intro _
    | with_reducible assumption
    | with_reducible apply keeps_ite
    | dsimp only
    | with_reducible apply keeps_ite_fst
    | with_reducible apply keeps_foldl_fst
    | with_reducible apply keeps_foldl
    | with_reducible apply queueDrop_keeps
    | exact Nat.le_refl _
    | split
    | with_reducible refine Keeps.of_fst ?_ (by assumption))

theorem txSend_keeps {s₀ s : State} (h : Keeps s₀ s) (r desc : Nat) (d bs : List Byte) :
    Keeps s₀ (State.txSend s r desc d bs) := by
  unfold State.txSend
  try dsimp only
  repeat' (first
    | with_reducible intro _
    | with_reducible assumption
    | with_reducible apply keeps_ite
    | dsimp only
    | with_reducible apply keeps_ite_fst
    | with_reducible apply keeps_foldl_fst
    | with_reducible apply endTx_keeps
    | with_reducible apply ethOffer_keeps
    | with_reducible apply inc64_keeps
    | with_reducible apply lpeFeed_keeps
    | with_reducible apply modEth_keeps
    | with_reducible apply switchFrame_keeps
    | exact Nat.le_refl _
    | split
    | with_reducible refine Keeps.of_fst ?_ (by assumption))

theorem txTake_keeps {s₀ s : State} (h : Keeps s₀ s) (r : Nat) (ended : ReadEnd) :
    Keeps s₀ (State.txTake s r ended) := by
  unfold State.txTake
  try dsimp only
  repeat' (first
    | with_reducible intro _
    | with_reducible assumption
    | with_reducible apply keeps_ite
    | with_reducible apply devTook_keeps
    | with_reducible apply endTx_keeps
    | with_reducible apply headLeaves_keeps
    | with_reducible apply readLeaves_keeps
    | with_reducible apply takePend_keeps
    | with_reducible apply txSend_keeps
    | exact Nat.le_refl _
    | split
    | with_reducible refine Keeps.of_fst ?_ (by assumption))

theorem rxDeliver_keeps {s₀ s : State} (h : Keeps s₀ s) (r : Nat) :
    Keeps s₀ (State.rxDeliver s r) := by
  unfold State.rxDeliver
  try dsimp only
  repeat' (first
    | with_reducible intro _
    | with_reducible assumption
    | with_reducible apply keeps_ite
    | with_reducible apply complete_keeps
    | with_reducible apply devWrite_keeps
    | with_reducible apply headLeaves_keeps
    | with_reducible apply inc64_keeps
    | with_reducible apply lpeFeed_keeps
    | with_reducible apply modEth_keeps
    | with_reducible apply rxDrop_keeps
    | with_reducible apply takeHead_keeps
    | with_reducible apply txDrop_keeps
    | exact Nat.le_refl _
    | split
    | with_reducible refine Keeps.of_fst ?_ (by assumption)
    | with_reducible refine keeps_mk ?_ rfl rfl rfl rfl (Nat.le_refl _))

theorem ethDisable_keeps {s₀ s : State} (h : Keeps s₀ s) (r : Nat) :
    Keeps s₀ (State.ethDisable s r) := by
  unfold State.ethDisable
  try dsimp only
  repeat' (first
    | with_reducible intro _
    | with_reducible assumption
    | with_reducible apply keeps_ite
    | dsimp only
    | with_reducible apply keeps_ite_fst
    | with_reducible apply keeps_foldl_fst
    | with_reducible apply keeps_foldl
    | with_reducible apply abortWaiting_keeps
    | with_reducible apply queueDrop_keeps
    | with_reducible apply setB_keeps
    | exact Nat.le_refl _
    | split
    | with_reducible refine Keeps.of_fst ?_ (by assumption))

theorem gclStart_keeps {s₀ s : State} (h : Keeps s₀ s) (p : Nat) :
    Keeps s₀ (State.gclStart s p) := by
  unfold State.gclStart
  try dsimp only
  repeat' (first
    | with_reducible intro _
    | with_reducible assumption
    | with_reducible apply keeps_ite
    | with_reducible apply modEth_keeps
    | exact Nat.le_refl _
    | split
    | with_reducible refine Keeps.of_fst ?_ (by assumption))

theorem gclSwitch_keeps {s₀ s : State} (h : Keeps s₀ s) (p : Nat) :
    Keeps s₀ (State.gclSwitch s p) := by
  unfold State.gclSwitch
  try dsimp only
  repeat' (first
    | with_reducible intro _
    | with_reducible assumption
    | with_reducible apply keeps_ite
    | with_reducible apply ethEvent_keeps
    | with_reducible apply gclStart_keeps
    | with_reducible apply modEth_keeps
    | with_reducible apply setB_keeps
    | with_reducible apply setF_keeps
    | exact Nat.le_refl _
    | split
    | with_reducible refine Keeps.of_fst ?_ (by assumption))

theorem gclCommit_keeps {s₀ s : State} (h : Keeps s₀ s) (p v : Nat) :
    Keeps s₀ (State.gclCommit s p v) := by
  unfold State.gclCommit
  try dsimp only
  repeat' (first
    | with_reducible intro _
    | with_reducible assumption
    | with_reducible apply keeps_ite
    | with_reducible apply ethEvent_keeps
    | with_reducible apply modEth_keeps
    | with_reducible apply setB_keeps
    | with_reducible apply setF_keeps
    | exact Nat.le_refl _
    | split
    | with_reducible refine Keeps.of_fst ?_ (by assumption))

theorem ethEdge_keeps {s₀ s : State} (h : Keeps s₀ s) (stretched : Bool) :
    Keeps s₀ (State.ethEdge s stretched) := by
  unfold State.ethEdge
  try dsimp only
  repeat' (first
    | with_reducible intro _
    | with_reducible assumption
    | with_reducible apply keeps_ite
    | with_reducible apply keeps_foldl
    | with_reducible apply gclStart_keeps
    | exact Nat.le_refl _
    | split
    | with_reducible refine Keeps.of_fst ?_ (by assumption))

theorem ethStep_keeps {s₀ s : State} (h : Keeps s₀ s) (delta : Int) :
    Keeps s₀ (State.ethStep s delta) := by
  unfold State.ethStep
  try dsimp only
  repeat' (first
    | with_reducible intro _
    | with_reducible assumption
    | with_reducible apply keeps_ite
    | dsimp only
    | with_reducible apply keeps_ite_fst
    | with_reducible apply keeps_foldl_fst
    | with_reducible apply launchDrops_keeps
    | with_reducible apply modEth_keeps
    | exact Nat.le_refl _
    | split
    | with_reducible refine Keeps.of_fst ?_ (by assumption)
    | with_reducible refine keeps_mk ?_ rfl rfl rfl rfl (Nat.le_refl _))

theorem linkFlush_keeps {s₀ s : State} (h : Keeps s₀ s) (p : Nat) :
    Keeps s₀ (State.linkFlush s p) := by
  unfold State.linkFlush
  try dsimp only
  repeat' (first
    | with_reducible intro _
    | with_reducible assumption
    | with_reducible apply keeps_ite
    | with_reducible apply keeps_foldl
    | with_reducible apply modEth_keeps
    | with_reducible apply queueDrop_keeps
    | with_reducible apply txDrop_keeps
    | exact Nat.le_refl _
    | split
    | with_reducible refine Keeps.of_fst ?_ (by assumption))

theorem execEthFrameRx_keeps {s₀ s : State} (h : Keeps s₀ s) (dt : Nat) (port : Fin 11) (frame : EthFrame) :
    KeepsOut s₀ (Machine.execEthFrameRx dt port frame s) := by
  unfold Machine.execEthFrameRx
  try dsimp only
  repeat' (first
    | with_reducible intro _
    | with_reducible assumption
    | with_reducible apply keepsOut_next
    | with_reducible apply keepsOut_fault
    | with_reducible apply keepsOut_ite
    | with_reducible apply keeps_ite
    | with_reducible apply elapse_keeps
    | with_reducible apply ethFrameIn_keeps
    | exact Nat.le_refl _
    | split
    | with_reducible refine Keeps.of_fst ?_ (by assumption))

theorem execEthFrameTxStart_keeps {s₀ s : State} (h : Keeps s₀ s) (dt : Nat) (port : Fin 11) :
    KeepsOut s₀ (Machine.execEthFrameTxStart dt port s) := by
  unfold Machine.execEthFrameTxStart
  try dsimp only
  repeat' (first
    | with_reducible intro _
    | with_reducible assumption
    | with_reducible apply keepsOut_next
    | with_reducible apply keepsOut_fault
    | with_reducible apply keepsOut_ite
    | with_reducible apply keeps_ite
    | with_reducible apply elapse_keeps
    | with_reducible apply txRun_keeps
    | exact Nat.le_refl _
    | split
    | with_reducible refine Keeps.of_fst ?_ (by assumption))

theorem execLaunchTimeReached_keeps {s₀ s : State} (h : Keeps s₀ s) (dt : Nat) (port : Fin 11) (queue : Fin 8) :
    KeepsOut s₀ (Machine.execLaunchTimeReached dt port queue s) := by
  unfold Machine.execLaunchTimeReached
  try dsimp only
  repeat' (first
    | with_reducible intro _
    | with_reducible assumption
    | with_reducible apply keepsOut_next
    | with_reducible apply keepsOut_fault
    | with_reducible apply keepsOut_ite
    | with_reducible apply keeps_ite
    | with_reducible apply elapse_keeps
    | with_reducible apply txRun_keeps
    | exact Nat.le_refl _
    | split
    | with_reducible refine Keeps.of_fst ?_ (by assumption))

theorem execEthTxComplete_keeps {s₀ s : State} (h : Keeps s₀ s) (dt : Nat) (port : Fin 11) :
    KeepsOut s₀ (Machine.execEthTxComplete dt port s) := by
  unfold Machine.execEthTxComplete
  try dsimp only
  repeat' (first
    | with_reducible intro _
    | with_reducible assumption
    | with_reducible apply keepsOut_next
    | with_reducible apply keepsOut_fault
    | with_reducible apply keepsOut_ite
    | with_reducible apply keeps_ite
    | with_reducible apply elapse_keeps
    | with_reducible apply txDone_keeps
    | exact Nat.le_refl _
    | split
    | with_reducible refine Keeps.of_fst ?_ (by assumption))

theorem execEthTxDescTaken_keeps {s₀ s : State} (h : Keeps s₀ s) (dt : Nat) (ring : Fin 18) (ended : ReadEnd) :
    KeepsOut s₀ (Machine.execEthTxDescTaken dt ring ended s) := by
  unfold Machine.execEthTxDescTaken
  try dsimp only
  repeat' (first
    | with_reducible intro _
    | with_reducible assumption
    | with_reducible apply keepsOut_next
    | with_reducible apply keepsOut_fault
    | with_reducible apply keepsOut_ite
    | with_reducible apply keeps_ite
    | with_reducible apply elapse_keeps
    | with_reducible apply txTake_keeps
    | exact Nat.le_refl _
    | split
    | with_reducible refine Keeps.of_fst ?_ (by assumption))

theorem execEthRxRingDelivery_keeps {s₀ s : State} (h : Keeps s₀ s) (dt : Nat) (ring : Fin 18) :
    KeepsOut s₀ (Machine.execEthRxRingDelivery dt ring s) := by
  unfold Machine.execEthRxRingDelivery
  try dsimp only
  repeat' (first
    | with_reducible intro _
    | with_reducible assumption
    | with_reducible apply keepsOut_next
    | with_reducible apply keepsOut_fault
    | with_reducible apply keepsOut_ite
    | with_reducible apply keeps_ite
    | with_reducible apply elapse_keeps
    | with_reducible apply rxDeliver_keeps
    | exact Nat.le_refl _
    | split
    | with_reducible refine Keeps.of_fst ?_ (by assumption))

theorem execEthRingDisable_keeps {s₀ s : State} (h : Keeps s₀ s) (dt : Nat) (req : Requester) (ring : Fin 18) :
    KeepsOut s₀ (Machine.execEthRingDisable dt req ring s) := by
  unfold Machine.execEthRingDisable
  try dsimp only
  repeat' (first
    | with_reducible intro _
    | with_reducible assumption
    | with_reducible apply keepsOut_next
    | with_reducible apply keepsOut_fault
    | with_reducible apply keepsOut_ite
    | with_reducible apply keeps_ite
    | with_reducible apply elapse_keeps
    | with_reducible apply ethDisable_keeps
    | with_reducible apply regCmd_keeps
    | exact Nat.le_refl _
    | split
    | with_reducible refine Keeps.of_fst ?_ (by assumption))

theorem execFrameAged_keeps {s₀ s : State} (h : Keeps s₀ s) (dt : Nat) (port : Fin 11) (queue : Fin 8) :
    KeepsOut s₀ (Machine.execFrameAged dt port queue s) := by
  unfold Machine.execFrameAged
  try dsimp only
  repeat' (first
    | with_reducible intro _
    | with_reducible assumption
    | with_reducible apply keepsOut_next
    | with_reducible apply keepsOut_fault
    | with_reducible apply keepsOut_ite
    | with_reducible apply keeps_ite
    | with_reducible apply elapse_keeps
    | with_reducible apply queueDrop_keeps
    | exact Nat.le_refl _
    | split
    | with_reducible refine Keeps.of_fst ?_ (by assumption))

theorem execFdbEntryAged_keeps {s₀ s : State} (h : Keeps s₀ s) (dt mac vid : Nat) :
    KeepsOut s₀ (Machine.execFdbEntryAged dt mac vid s) := by
  unfold Machine.execFdbEntryAged
  try dsimp only
  repeat' (first
    | with_reducible intro _
    | with_reducible assumption
    | with_reducible apply keepsOut_next
    | with_reducible apply keepsOut_fault
    | with_reducible apply keepsOut_ite
    | with_reducible apply keeps_ite
    | with_reducible apply elapse_keeps
    | with_reducible apply modEth_keeps
    | exact Nat.le_refl _
    | split
    | with_reducible refine Keeps.of_fst ?_ (by assumption))

theorem execGateIntervalEnd_keeps {s₀ s : State} (h : Keeps s₀ s) (dt : Nat) (port : Fin 8) :
    KeepsOut s₀ (Machine.execGateIntervalEnd dt port s) := by
  unfold Machine.execGateIntervalEnd
  try dsimp only
  repeat' (first
    | with_reducible intro _
    | with_reducible assumption
    | with_reducible apply keepsOut_next
    | with_reducible apply keepsOut_fault
    | with_reducible apply keepsOut_ite
    | with_reducible apply keeps_ite
    | dsimp only
    | with_reducible apply keeps_ite_fst
    | with_reducible apply keeps_foldl_fst
    | with_reducible apply elapse_keeps
    | with_reducible apply modEth_keeps
    | exact Nat.le_refl _
    | split
    | with_reducible refine Keeps.of_fst ?_ (by assumption)
    | with_reducible refine keeps_mk ?_ rfl rfl rfl rfl (Nat.le_refl _))

theorem execEthGclCommit_keeps {s₀ s : State} (h : Keeps s₀ s) (dt : Nat) (req : Requester) (port : Fin 8) (value : Word) :
    KeepsOut s₀ (Machine.execEthGclCommit dt req port value s) := by
  unfold Machine.execEthGclCommit
  try dsimp only
  repeat' (first
    | with_reducible intro _
    | with_reducible assumption
    | with_reducible apply keepsOut_next
    | with_reducible apply keepsOut_fault
    | with_reducible apply keepsOut_ite
    | with_reducible apply keeps_ite
    | with_reducible apply elapse_keeps
    | with_reducible apply gclCommit_keeps
    | with_reducible apply regCmd_keeps
    | exact Nat.le_refl _
    | split
    | with_reducible refine Keeps.of_fst ?_ (by assumption))

theorem execEthGclSwitch_keeps {s₀ s : State} (h : Keeps s₀ s) (dt : Nat) (port : Fin 8) :
    KeepsOut s₀ (Machine.execEthGclSwitch dt port s) := by
  unfold Machine.execEthGclSwitch
  try dsimp only
  repeat' (first
    | with_reducible intro _
    | with_reducible assumption
    | with_reducible apply keepsOut_next
    | with_reducible apply keepsOut_fault
    | with_reducible apply keepsOut_ite
    | with_reducible apply keeps_ite
    | with_reducible apply elapse_keeps
    | with_reducible apply gclSwitch_keeps
    | exact Nat.le_refl _
    | split
    | with_reducible refine Keeps.of_fst ?_ (by assumption))

theorem execFrerResetTimeout_keeps {s₀ s : State} (h : Keeps s₀ s) (dt : Nat) (i : Fin 128) :
    KeepsOut s₀ (Machine.execFrerResetTimeout dt i s) := by
  unfold Machine.execFrerResetTimeout
  try dsimp only
  repeat' (first
    | with_reducible intro _
    | with_reducible assumption
    | with_reducible apply keepsOut_next
    | with_reducible apply keepsOut_fault
    | with_reducible apply keepsOut_ite
    | with_reducible apply keeps_ite
    | with_reducible apply elapse_keeps
    | with_reducible apply modEth_keeps
    | exact Nat.le_refl _
    | split
    | with_reducible refine Keeps.of_fst ?_ (by assumption))

theorem execEthLink_keeps {s₀ s : State} (h : Keeps s₀ s) (dt : Nat) (port : Fin 11) (up : Bool) (speed : Fin 3) :
    KeepsOut s₀ (Machine.execEthLink dt port up speed s) := by
  unfold Machine.execEthLink
  try dsimp only
  repeat' (first
    | with_reducible intro _
    | with_reducible assumption
    | with_reducible apply keepsOut_next
    | with_reducible apply keepsOut_fault
    | with_reducible apply keepsOut_ite
    | with_reducible apply keeps_ite
    | with_reducible apply elapse_keeps
    | with_reducible apply ethEvent_keeps
    | with_reducible apply linkFlush_keeps
    | with_reducible apply modEth_keeps
    | with_reducible apply setB_keeps
    | with_reducible apply setF_keeps
    | exact Nat.le_refl _
    | split
    | with_reducible refine Keeps.of_fst ?_ (by assumption))

end Sys2Proof.Laws
end

