-- ==== Sys2Proof/Laws/Keeps/Trdp.lean ====
section
/-! SUPPORT. What the operations and meanings of Machine/Trdp.lean keep (`Keeps`). -/

set_option linter.unreachableTactic false
set_option linter.unusedTactic false
set_option linter.unusedVariables false

namespace Sys2Proof.Laws

open Sys2Proof.Machine

theorem modBus_keeps {s₀ s : State} (h : Keeps s₀ s) (f : BusSt → BusSt) :
    Keeps s₀ (State.modBus s f) := by
  unfold State.modBus
  try dsimp only
  repeat' (first
    | with_reducible intro _
    | with_reducible assumption
    | with_reducible apply keeps_ite
    | exact Nat.le_refl _
    | split
    | with_reducible refine Keeps.of_fst ?_ (by assumption)
    | with_reducible refine keeps_mk ?_ rfl rfl rfl rfl (Nat.le_refl _))

theorem modRec_keeps {s₀ s : State} (h : Keeps s₀ s) (blk e : Nat) (f : DataRec → DataRec) :
    Keeps s₀ (State.modRec s blk e f) := by
  unfold State.modRec
  try dsimp only
  repeat' (first
    | with_reducible intro _
    | with_reducible assumption
    | with_reducible apply keeps_ite
    | with_reducible apply modBus_keeps
    | exact Nat.le_refl _
    | split
    | with_reducible refine Keeps.of_fst ?_ (by assumption))

theorem workPut_keeps {s₀ s : State} (h : Keeps s₀ s) (ofs : Nat) (bs : List Byte) :
    Keeps s₀ (State.workPut s ofs bs) := by
  unfold State.workPut
  try dsimp only
  repeat' (first
    | with_reducible intro _
    | with_reducible assumption
    | with_reducible apply keeps_ite
    | with_reducible apply memWrite_keeps
    | exact Nat.le_refl _
    | split
    | with_reducible refine Keeps.of_fst ?_ (by assumption))

theorem trdpStore_keeps {s₀ s : State} (h : Keeps s₀ s) (i : Nat) :
    Keeps s₀ (State.trdpStore s i) := by
  unfold State.trdpStore
  try dsimp only
  repeat' (first
    | with_reducible intro _
    | with_reducible assumption
    | with_reducible apply keeps_ite
    | with_reducible apply devWrite_keeps
    | with_reducible apply workPut_keeps
    | exact Nat.le_refl _
    | split
    | with_reducible refine Keeps.of_fst ?_ (by assumption))

theorem trdpShow_keeps {s₀ s : State} (h : Keeps s₀ s) (i : Nat) :
    Keeps s₀ (State.trdpShow s i) := by
  unfold State.trdpShow
  try dsimp only
  repeat' (first
    | with_reducible intro _
    | with_reducible assumption
    | with_reducible apply keeps_ite
    | with_reducible apply setB_keeps
    | exact Nat.le_refl _
    | split
    | with_reducible refine Keeps.of_fst ?_ (by assumption))

theorem trdpTake_keeps {s₀ s : State} (h : Keeps s₀ s) (i : Nat) (change : Option State.CatChange) :
    Keeps s₀ (State.trdpTake s i change) := by
  unfold State.trdpTake
  try dsimp only
  repeat' (first
    | with_reducible intro _
    | with_reducible assumption
    | with_reducible apply keeps_ite
    | with_reducible apply modRec_keeps
    | with_reducible apply setB_keeps
    | with_reducible apply trdpEvent_keeps
    | with_reducible apply trdpShow_keeps
    | with_reducible apply trdpStore_keeps
    | with_reducible apply workPut_keeps
    | exact Nat.le_refl _
    | split
    | with_reducible refine Keeps.of_fst ?_ (by assumption)
    | with_reducible refine keeps_mk ?_ rfl rfl rfl rfl (Nat.le_refl _))

theorem trdpSupervise_keeps {s₀ s : State} (h : Keeps s₀ s) (i : Nat) :
    Keeps s₀ (State.trdpSupervise s i) := by
  unfold State.trdpSupervise
  try dsimp only
  repeat' (first
    | with_reducible intro _
    | with_reducible assumption
    | with_reducible apply keeps_ite
    | with_reducible apply inc64_keeps
    | with_reducible apply modRec_keeps
    | with_reducible apply trdpEvent_keeps
    | with_reducible apply trdpShow_keeps
    | with_reducible apply trdpStore_keeps
    | exact Nat.le_refl _
    | split
    | with_reducible refine Keeps.of_fst ?_ (by assumption))

theorem trdpEdge_keeps {s₀ s : State} (h : Keeps s₀ s) (changes : List State.CatChange) :
    Keeps s₀ (State.trdpEdge s changes) := by
  unfold State.trdpEdge
  try dsimp only
  repeat' (first
    | with_reducible intro _
    | with_reducible assumption
    | with_reducible apply keeps_ite
    | with_reducible apply keeps_foldl
    | with_reducible apply setB_keeps
    | with_reducible apply trdpSupervise_keeps
    | with_reducible apply trdpTake_keeps
    | exact Nat.le_refl _
    | split
    | with_reducible refine Keeps.of_fst ?_ (by assumption))

theorem trdpDataset_keeps {s₀ s : State} (h : Keeps s₀ s) (i : Nat) (torn : List Nat) :
    Keeps s₀ (State.trdpDataset s i torn).1 := by
  unfold State.trdpDataset
  try dsimp only
  repeat' (first
    | with_reducible intro _
    | with_reducible assumption
    | with_reducible apply keeps_ite
    | dsimp only
    | with_reducible apply keeps_ite_fst
    | with_reducible apply keeps_foldl_fst
    | with_reducible apply inc64_keeps
    | with_reducible apply readLeaves_keeps
    | exact Nat.le_refl _
    | split
    | with_reducible refine Keeps.of_fst ?_ (by assumption))

theorem trdpCopy_keeps {s₀ s : State} (h : Keeps s₀ s) (i p : Nat) (bs : List Byte) :
    Keeps s₀ (State.trdpCopy s i p bs) := by
  unfold State.trdpCopy
  try dsimp only
  repeat' (first
    | with_reducible intro _
    | with_reducible assumption
    | with_reducible apply keeps_ite
    | dsimp only
    | with_reducible apply keeps_ite_fst
    | with_reducible apply keeps_foldl_fst
    | with_reducible apply ethOffer_keeps
    | with_reducible apply inc64_keeps
    | with_reducible apply lpeFeed_keeps
    | exact Nat.le_refl _
    | split
    | with_reducible refine Keeps.of_fst ?_ (by assumption))

theorem trdpPublishOne_keeps {s₀ s : State} (h : Keeps s₀ s) (i : Nat) (torn : List Nat) :
    Keeps s₀ (State.trdpPublishOne s i torn) := by
  unfold State.trdpPublishOne
  try dsimp only
  repeat' (first
    | with_reducible intro _
    | with_reducible assumption
    | with_reducible apply keeps_ite
    | dsimp only
    | with_reducible apply keeps_ite_fst
    | with_reducible apply keeps_foldl_fst
    | with_reducible apply keeps_foldl
    | with_reducible apply add64_keeps
    | with_reducible apply devWrite_keeps
    | with_reducible apply freshCtr_keeps
    | with_reducible apply modEth_keeps
    | with_reducible apply modRec_keeps
    | with_reducible apply trdpCopy_keeps
    | with_reducible apply trdpDataset_keeps
    | with_reducible apply trdpStore_keeps
    | exact Nat.le_refl _
    | split
    | with_reducible refine Keeps.of_fst ?_ (by assumption))

theorem trdpPublish_keeps {s₀ s : State} (h : Keeps s₀ s) (torn : List Nat) :
    Keeps s₀ (State.trdpPublish s torn) := by
  unfold State.trdpPublish
  try dsimp only
  repeat' (first
    | with_reducible intro _
    | with_reducible assumption
    | with_reducible apply keeps_ite
    | with_reducible apply keeps_foldl
    | with_reducible apply trdpPublishOne_keeps
    | exact Nat.le_refl _
    | split
    | with_reducible refine Keeps.of_fst ?_ (by assumption))

theorem telDrop_keeps {s₀ s : State} (h : Keeps s₀ s) (h r : Nat) :
    Keeps s₀ (State.telDrop s h r) := by
  unfold State.telDrop
  try dsimp only
  repeat' (first
    | with_reducible intro _
    | with_reducible assumption
    | with_reducible apply keeps_ite
    | with_reducible apply inc64_keeps
    | exact Nat.le_refl _
    | split
    | with_reducible refine Keeps.of_fst ?_ (by assumption))

theorem telegram_keeps {s₀ s : State} (h : Keeps s₀ s) (h : Nat) (f : EthQ) :
    Keeps s₀ (State.telegram s h f) := by
  unfold State.telegram
  try dsimp only
  repeat' (first
    | with_reducible intro _
    | with_reducible assumption
    | with_reducible apply keeps_ite
    | with_reducible apply announce_keeps
    | with_reducible apply inc64_keeps
    | with_reducible apply modRec_keeps
    | with_reducible apply telDrop_keeps
    | with_reducible apply trdpStore_keeps
    | exact Nat.le_refl _
    | split
    | with_reducible refine Keeps.of_fst ?_ (by assumption))

theorem engineNext_keeps {s₀ s : State} (h : Keeps s₀ s) (h : Nat) :
    Keeps s₀ (State.engineNext s h) := by
  unfold State.engineNext
  try dsimp only
  repeat' (first
    | with_reducible intro _
    | with_reducible assumption
    | with_reducible apply keeps_ite
    | with_reducible apply modEth_keeps
    | with_reducible apply telegram_keeps
    | exact Nat.le_refl _
    | split
    | with_reducible refine Keeps.of_fst ?_ (by assumption))

theorem engineDrain_keeps {s₀ s : State} (h : Keeps s₀ s) :
    Keeps s₀ (State.engineDrain s) := by
  unfold State.engineDrain
  try dsimp only
  repeat' (first
    | with_reducible intro _
    | with_reducible assumption
    | with_reducible apply keeps_ite
    | with_reducible apply keeps_foldl
    | with_reducible apply engineNext_keeps
    | exact Nat.le_refl _
    | split
    | with_reducible refine Keeps.of_fst ?_ (by assumption))

theorem sendAnnounce_keeps {s₀ s : State} (h : Keeps s₀ s) (a : Announce) :
    Keeps s₀ (State.sendAnnounce s a) := by
  unfold State.sendAnnounce
  try dsimp only
  repeat' (first
    | with_reducible intro _
    | with_reducible assumption
    | with_reducible apply keeps_ite
    | dsimp only
    | with_reducible apply keeps_ite_fst
    | with_reducible apply keeps_foldl_fst
    | with_reducible apply freshCtr_keeps
    | with_reducible apply inc64_keeps
    | with_reducible apply lpeFeed_keeps
    | with_reducible apply switchFrame_keeps
    | exact Nat.le_refl _
    | split
    | with_reducible refine Keeps.of_fst ?_ (by assumption))

theorem execTrdpTelegramRx_keeps {s₀ s : State} (h : Keeps s₀ s) (dt : Nat) (host : Fin 2) (frame : List Byte) :
    KeepsOut s₀ (Machine.execTrdpTelegramRx dt host frame s) := by
  unfold Machine.execTrdpTelegramRx
  try dsimp only
  repeat' (first
    | with_reducible intro _
    | with_reducible assumption
    | with_reducible apply keepsOut_next
    | with_reducible apply keepsOut_fault
    | with_reducible apply keepsOut_ite
    | with_reducible apply keeps_ite
    | with_reducible apply elapse_keeps
    | with_reducible apply engineNext_keeps
    | exact Nat.le_refl _
    | split
    | with_reducible refine Keeps.of_fst ?_ (by assumption))

theorem annGo_keeps {s₀ s : State} (h : Keeps s₀ s) (go : Bool) :
    Keeps s₀ (State.annGo s go) := by
  unfold State.annGo
  try dsimp only
  repeat' (first
    | with_reducible intro _
    | with_reducible assumption
    | with_reducible apply keeps_ite
    | with_reducible apply announce_keeps
    | with_reducible apply sendAnnounce_keeps
    | exact Nat.le_refl _
    | split
    | with_reducible refine Keeps.of_fst ?_ (by assumption))

theorem execInvAnnGo_keeps {s₀ s : State} (h : Keeps s₀ s) (dt : Nat) (req : Requester) (go : Bool) :
    KeepsOut s₀ (Machine.execInvAnnGo dt req go s) := by
  unfold Machine.execInvAnnGo
  try dsimp only
  repeat' (first
    | with_reducible intro _
    | with_reducible assumption
    | with_reducible apply keepsOut_next
    | with_reducible apply keepsOut_fault
    | with_reducible apply keepsOut_ite
    | with_reducible apply keeps_ite
    | with_reducible apply annGo_keeps
    | with_reducible apply elapse_keeps
    | with_reducible apply regCmd_keeps
    | exact Nat.le_refl _
    | split
    | with_reducible refine Keeps.of_fst ?_ (by assumption))

end Sys2Proof.Laws
end

