-- ==== Sys2Proof/Laws/Keeps/Serial.lean ====
section
/-! SUPPORT. What the operations and meanings of Machine/Serial.lean keep (`Keeps`). -/

set_option linter.unreachableTactic false
set_option linter.unusedTactic false
set_option linter.unusedVariables false

namespace Sys2Proof.Laws

open Sys2Proof.Machine

theorem serEvent_keeps {s₀ s : State} (h : Keeps s₀ s) (b : SerBlk) (code sev : Nat) (payload : List Byte) :
    Keeps s₀ (State.serEvent s b code sev payload) := by
  unfold State.serEvent
  try dsimp only
  repeat' (first
    | with_reducible intro _
    | with_reducible assumption
    | with_reducible apply keeps_ite
    | with_reducible apply emit_keeps
    | exact Nat.le_refl _
    | split
    | with_reducible refine Keeps.of_fst ?_ (by assumption))

theorem serShow_keeps {s₀ s : State} (h : Keeps s₀ s) (b : SerBlk) (i : Nat) :
    Keeps s₀ (State.serShow s b i) := by
  unfold State.serShow
  try dsimp only
  repeat' (first
    | with_reducible intro _
    | with_reducible assumption
    | with_reducible apply keeps_ite
    | with_reducible apply setB_keeps
    | exact Nat.le_refl _
    | split
    | with_reducible refine Keeps.of_fst ?_ (by assumption))

theorem serTake_keeps {s₀ s : State} (h : Keeps s₀ s) (b : SerBlk) (i : Nat) (change : Option State.CatChange) :
    Keeps s₀ (State.serTake s b i change) := by
  unfold State.serTake
  try dsimp only
  repeat' (first
    | with_reducible intro _
    | with_reducible assumption
    | with_reducible apply keeps_ite
    | with_reducible apply modRec_keeps
    | with_reducible apply serEvent_keeps
    | with_reducible apply serShow_keeps
    | with_reducible apply setB_keeps
    | exact Nat.le_refl _
    | split
    | with_reducible refine Keeps.of_fst ?_ (by assumption))

theorem serSupervise_keeps {s₀ s : State} (h : Keeps s₀ s) (b : SerBlk) (i : Nat) :
    Keeps s₀ (State.serSupervise s b i) := by
  unfold State.serSupervise
  try dsimp only
  repeat' (first
    | with_reducible intro _
    | with_reducible assumption
    | with_reducible apply keeps_ite
    | with_reducible apply inc64_keeps
    | with_reducible apply modRec_keeps
    | with_reducible apply serEvent_keeps
    | with_reducible apply serShow_keeps
    | exact Nat.le_refl _
    | split
    | with_reducible refine Keeps.of_fst ?_ (by assumption))

theorem serEdge_keeps {s₀ s : State} (h : Keeps s₀ s) (b : SerBlk) (changes : List State.CatChange) :
    Keeps s₀ (State.serEdge s b changes) := by
  unfold State.serEdge
  try dsimp only
  repeat' (first
    | with_reducible intro _
    | with_reducible assumption
    | with_reducible apply keeps_ite
    | with_reducible apply keeps_foldl
    | with_reducible apply modBus_keeps
    | with_reducible apply serSupervise_keeps
    | with_reducible apply serTake_keeps
    | exact Nat.le_refl _
    | split
    | with_reducible refine Keeps.of_fst ?_ (by assumption))

theorem serGone_keeps {s₀ s : State} (h : Keeps s₀ s) (b : SerBlk) (x : SerTx) (reason : Nat) :
    Keeps s₀ (State.serGone s b x reason) := by
  unfold State.serGone
  try dsimp only
  repeat' (first
    | with_reducible intro _
    | with_reducible assumption
    | with_reducible apply keeps_ite
    | with_reducible apply endTx_keeps
    | with_reducible apply inc64_keeps
    | exact Nat.le_refl _
    | split
    | with_reducible refine Keeps.of_fst ?_ (by assumption))

theorem serDropAll_keeps {s₀ s : State} (h : Keeps s₀ s) (b : SerBlk) (reason : Nat) (gone : SerTx → Bool) :
    Keeps s₀ (State.serDropAll s b reason gone) := by
  unfold State.serDropAll
  try dsimp only
  repeat' (first
    | with_reducible intro _
    | with_reducible assumption
    | with_reducible apply keeps_ite
    | with_reducible apply keeps_foldl
    | with_reducible apply modBus_keeps
    | with_reducible apply serGone_keeps
    | exact Nat.le_refl _
    | split
    | with_reducible refine Keeps.of_fst ?_ (by assumption))

theorem serFlush_keeps {s₀ s : State} (h : Keeps s₀ s) (b : SerBlk) (u : Nat) :
    Keeps s₀ (State.serFlush s b u) := by
  unfold State.serFlush
  try dsimp only
  repeat' (first
    | with_reducible intro _
    | with_reducible assumption
    | with_reducible apply keeps_ite
    | with_reducible apply serDropAll_keeps
    | exact Nat.le_refl _
    | split
    | with_reducible refine Keeps.of_fst ?_ (by assumption))

theorem serOffer_keeps {s₀ s : State} (h : Keeps s₀ s) (b : SerBlk) (x : SerTx) :
    Keeps s₀ (State.serOffer s b x) := by
  unfold State.serOffer
  try dsimp only
  repeat' (first
    | with_reducible intro _
    | with_reducible assumption
    | with_reducible apply keeps_ite
    | with_reducible apply inc64_keeps
    | with_reducible apply modBus_keeps
    | exact Nat.le_refl _
    | split
    | with_reducible refine Keeps.of_fst ?_ (by assumption))

theorem serDueOne_keeps {s₀ s : State} (h : Keeps s₀ s) (b : SerBlk) (i : Nat) :
    Keeps s₀ (State.serDueOne s b i) := by
  unfold State.serDueOne
  try dsimp only
  repeat' (first
    | with_reducible intro _
    | with_reducible assumption
    | with_reducible apply keeps_ite
    | with_reducible apply inc64_keeps
    | with_reducible apply modRec_keeps
    | with_reducible apply serDropAll_keeps
    | with_reducible apply serOffer_keeps
    | exact Nat.le_refl _
    | split
    | with_reducible refine Keeps.of_fst ?_ (by assumption))

theorem serDue_keeps {s₀ s : State} (h : Keeps s₀ s) (b : SerBlk) :
    Keeps s₀ (State.serDue s b) := by
  unfold State.serDue
  try dsimp only
  repeat' (first
    | with_reducible intro _
    | with_reducible assumption
    | with_reducible apply keeps_ite
    | with_reducible apply keeps_foldl
    | with_reducible apply serDueOne_keeps
    | exact Nat.le_refl _
    | split
    | with_reducible refine Keeps.of_fst ?_ (by assumption))

theorem serIdle_keeps {s₀ s : State} (h : Keeps s₀ s) (u at_ : Nat) :
    Keeps s₀ (State.serIdle s u at_) := by
  unfold State.serIdle
  try dsimp only
  repeat' (first
    | with_reducible intro _
    | with_reducible assumption
    | with_reducible apply keeps_ite
    | with_reducible apply modBus_keeps
    | exact Nat.le_refl _
    | split
    | with_reducible refine Keeps.of_fst ?_ (by assumption))

theorem serTakeRing_keeps {s₀ s : State} (h : Keeps s₀ s) (b : SerBlk) (u : Nat) (n : Nat) :
    Keeps s₀ (State.serTakeRing s b u n) := by
  induction n generalizing s with
  | zero => exact h
  | succ n ih =>
    unfold State.serTakeRing
    try dsimp only
    repeat' (first
    | with_reducible assumption
    | with_reducible apply ih
    | with_reducible apply serGone_keeps
    | with_reducible apply inc64_keeps
    | with_reducible apply complete_keeps
    | with_reducible apply readLeaves_keeps
    | with_reducible apply headLeaves_keeps
    | with_reducible apply takePend_keeps
    | with_reducible apply endTx_keeps
    | with_reducible apply serOffer_keeps
    | with_reducible apply devTook_keeps
    | with_reducible apply takeHead_keeps
    | with_reducible apply keeps_ite
    | with_reducible refine Keeps.of_fst ?_ (by assumption)
    | split)

theorem producer_keeps {s₀ s : State} (h : Keeps s₀ s) (b : RingBlk) (q tail : Nat) :
    Keeps s₀ (State.producer s b q tail) := by
  unfold State.producer
  try dsimp only
  repeat' (first
    | with_reducible intro _
    | with_reducible assumption
    | with_reducible apply keeps_ite
    | with_reducible apply ringDoorbell_keeps
    | with_reducible apply serTakeRing_keeps
    | exact Nat.le_refl _
    | split
    | with_reducible refine Keeps.of_fst ?_ (by assumption))

theorem canState_keeps {s₀ s : State} (h : Keeps s₀ s) (u tec rec : Nat) :
    Keeps s₀ (State.canState s u tec rec) := by
  unfold State.canState
  try dsimp only
  repeat' (first
    | with_reducible intro _
    | with_reducible assumption
    | with_reducible apply keeps_ite
    | with_reducible apply inc64_keeps
    | with_reducible apply serEvent_keeps
    | with_reducible apply serFlush_keeps
    | with_reducible apply setF_keeps
    | exact Nat.le_refl _
    | split
    | with_reducible refine Keeps.of_fst ?_ (by assumption))

theorem canErr_keeps {s₀ s : State} (h : Keeps s₀ s) (u : Nat) (role : CanErr) (more : Nat) :
    Keeps s₀ (State.canErr s u role more) := by
  unfold State.canErr
  try dsimp only
  repeat' (first
    | with_reducible intro _
    | with_reducible assumption
    | with_reducible apply keeps_ite
    | with_reducible apply canState_keeps
    | exact Nat.le_refl _
    | split
    | with_reducible refine Keeps.of_fst ?_ (by assumption))

theorem canSentOk_keeps {s₀ s : State} (h : Keeps s₀ s) (u : Nat) :
    Keeps s₀ (State.canSentOk s u) := by
  unfold State.canSentOk
  try dsimp only
  repeat' (first
    | with_reducible intro _
    | with_reducible assumption
    | with_reducible apply keeps_ite
    | with_reducible apply canState_keeps
    | exact Nat.le_refl _
    | split
    | with_reducible refine Keeps.of_fst ?_ (by assumption))

theorem canHeardOk_keeps {s₀ s : State} (h : Keeps s₀ s) (u : Nat) :
    Keeps s₀ (State.canHeardOk s u) := by
  unfold State.canHeardOk
  try dsimp only
  repeat' (first
    | with_reducible intro _
    | with_reducible assumption
    | with_reducible apply keeps_ite
    | with_reducible apply canState_keeps
    | with_reducible apply freshCtr_keeps
    | exact Nat.le_refl _
    | split
    | with_reducible refine Keeps.of_fst ?_ (by assumption))

theorem serToRing_keeps {s₀ s : State} (h : Keeps s₀ s) (b : SerBlk) (u ident at_ : Nat) (data : List Byte) (n : Nat) :
    Keeps s₀ (State.serToRing s b u ident at_ data n) := by
  induction n generalizing s with
  | zero => exact inc64_keeps h _
  | succ n ih =>
    unfold State.serToRing
    try dsimp only
    repeat' (first
    | with_reducible assumption
    | with_reducible apply ih
    | with_reducible apply inc64_keeps
    | with_reducible apply complete_keeps
    | with_reducible apply devWrite_keeps
    | with_reducible apply headLeaves_keeps
    | with_reducible apply takeHead_keeps
    | with_reducible apply keeps_ite
    | with_reducible refine Keeps.of_fst ?_ (by assumption)
    | split)

theorem serDeliver_keeps {s₀ s : State} (h : Keeps s₀ s) (b : SerBlk) (u ident at_ : Nat) (data : List Byte) (mayRing : Bool) (hit : List Byte → Bool) :
    Keeps s₀ (State.serDeliver s b u ident at_ data mayRing hit) := by
  unfold State.serDeliver
  try dsimp only
  repeat' (first
    | with_reducible intro _
    | with_reducible assumption
    | with_reducible apply keeps_ite
    | with_reducible apply inc64_keeps
    | with_reducible apply modRec_keeps
    | with_reducible apply serToRing_keeps
    | exact Nat.le_refl _
    | split
    | with_reducible refine Keeps.of_fst ?_ (by assumption))

theorem mvbLine_keeps {s₀ s : State} (h : Keeps s₀ s) (x : Nat) (ok : Bool) :
    Keeps s₀ (State.mvbLine s x ok) := by
  unfold State.mvbLine
  try dsimp only
  repeat' (first
    | with_reducible intro _
    | with_reducible assumption
    | with_reducible apply keeps_ite
    | with_reducible apply inc64_keeps
    | with_reducible apply modBus_keeps
    | with_reducible apply serEvent_keeps
    | with_reducible apply setB_keeps
    | exact Nat.le_refl _
    | split
    | with_reducible refine Keeps.of_fst ?_ (by assumption))

theorem mvbInstant_keeps {s₀ s : State} (h : Keeps s₀ s) (m : MvbInstant) :
    Keeps s₀ (State.mvbInstant s m) := by
  unfold State.mvbInstant
  try dsimp only
  repeat' (first
    | with_reducible intro _
    | with_reducible assumption
    | with_reducible apply keeps_ite
    | with_reducible apply inc64_keeps
    | with_reducible apply mvbLine_keeps
    | with_reducible apply serDeliver_keeps
    | with_reducible apply setF_keeps
    | exact Nat.le_refl _
    | split
    | with_reducible refine Keeps.of_fst ?_ (by assumption))

theorem execMvbFrameInstant_keeps {s₀ s : State} (h : Keeps s₀ s) (dt : Nat) (m : MvbInstant) :
    KeepsOut s₀ (Machine.execMvbFrameInstant dt m s) := by
  unfold Machine.execMvbFrameInstant
  try dsimp only
  repeat' (first
    | with_reducible intro _
    | with_reducible assumption
    | with_reducible apply keepsOut_next
    | with_reducible apply keepsOut_fault
    | with_reducible apply keepsOut_ite
    | with_reducible apply keeps_ite
    | with_reducible apply elapse_keeps
    | with_reducible apply mvbInstant_keeps
    | exact Nat.le_refl _
    | split
    | with_reducible refine Keeps.of_fst ?_ (by assumption))

theorem mvbPort_keeps {s₀ s : State} (h : Keeps s₀ s) (port : Nat) :
    Keeps s₀ (State.mvbPort s port) := by
  unfold State.mvbPort
  try dsimp only
  repeat' (first
    | with_reducible intro _
    | with_reducible assumption
    | with_reducible apply keeps_ite
    | with_reducible apply inc64_keeps
    | exact Nat.le_refl _
    | split
    | with_reducible refine Keeps.of_fst ?_ (by assumption))

theorem execMvbMasterFrame_keeps {s₀ s : State} (h : Keeps s₀ s) (dt : Nat) (poll : MvbMaster) :
    KeepsOut s₀ (Machine.execMvbMasterFrame dt poll s) := by
  unfold Machine.execMvbMasterFrame
  try dsimp only
  repeat' (first
    | with_reducible intro _
    | with_reducible assumption
    | with_reducible apply keepsOut_next
    | with_reducible apply keepsOut_fault
    | with_reducible apply keepsOut_ite
    | with_reducible apply keeps_ite
    | with_reducible apply elapse_keeps
    | with_reducible apply inc64_keeps
    | with_reducible apply mvbPort_keeps
    | exact Nat.le_refl _
    | split
    | with_reducible refine Keeps.of_fst ?_ (by assumption))

theorem execCanFrameRx_keeps {s₀ s : State} (h : Keeps s₀ s) (dt : Nat) (u : Fin 4) (f : CanFrame) :
    KeepsOut s₀ (Machine.execCanFrameRx dt u f s) := by
  unfold Machine.execCanFrameRx
  try dsimp only
  repeat' (first
    | with_reducible intro _
    | with_reducible assumption
    | with_reducible apply keepsOut_next
    | with_reducible apply keepsOut_fault
    | with_reducible apply keepsOut_ite
    | with_reducible apply keeps_ite
    | with_reducible apply canHeardOk_keeps
    | with_reducible apply elapse_keeps
    | with_reducible apply inc64_keeps
    | with_reducible apply serDeliver_keeps
    | exact Nat.le_refl _
    | split
    | with_reducible refine Keeps.of_fst ?_ (by assumption))

theorem execSerialTxLaunch_keeps {s₀ s : State} (h : Keeps s₀ s) (dt : Nat) (blk : SerBlk) (who : SerWho) :
    KeepsOut s₀ (Machine.execSerialTxLaunch dt blk who s) := by
  unfold Machine.execSerialTxLaunch
  try dsimp only
  repeat' (first
    | with_reducible intro _
    | with_reducible assumption
    | with_reducible apply keepsOut_next
    | with_reducible apply keepsOut_fault
    | with_reducible apply keepsOut_ite
    | with_reducible apply keeps_ite
    | with_reducible apply elapse_keeps
    | with_reducible apply modBus_keeps
    | exact Nat.le_refl _
    | split
    | with_reducible refine Keeps.of_fst ?_ (by assumption)
    | with_reducible refine keeps_mk ?_ rfl rfl rfl rfl (Nat.le_refl _))

theorem serLeft_keeps {s₀ s : State} (h : Keeps s₀ s) (u : Nat) :
    Keeps s₀ (State.serLeft s u) := by
  unfold State.serLeft
  try dsimp only
  repeat' (first
    | with_reducible intro _
    | with_reducible assumption
    | with_reducible apply keeps_ite
    | with_reducible apply modBus_keeps
    | with_reducible apply serIdle_keeps
    | exact Nat.le_refl _
    | split
    | with_reducible refine Keeps.of_fst ?_ (by assumption))

theorem execSerialTxDone_keeps {s₀ s : State} (h : Keeps s₀ s) (dt : Nat) (blk : SerBlk) (u : Fin 4) :
    KeepsOut s₀ (Machine.execSerialTxDone dt blk u s) := by
  unfold Machine.execSerialTxDone
  try dsimp only
  repeat' (first
    | with_reducible intro _
    | with_reducible assumption
    | with_reducible apply keepsOut_next
    | with_reducible apply keepsOut_fault
    | with_reducible apply keepsOut_ite
    | with_reducible apply keeps_ite
    | with_reducible apply canSentOk_keeps
    | with_reducible apply elapse_keeps
    | with_reducible apply endTx_keeps
    | with_reducible apply inc64_keeps
    | with_reducible apply modBus_keeps
    | with_reducible apply serLeft_keeps
    | exact Nat.le_refl _
    | split
    | with_reducible refine Keeps.of_fst ?_ (by assumption))

theorem execSerTxStale_keeps {s₀ s : State} (h : Keeps s₀ s) (dt : Nat) (u : Fin 4) :
    KeepsOut s₀ (Machine.execSerTxStale dt u s) := by
  unfold Machine.execSerTxStale
  try dsimp only
  repeat' (first
    | with_reducible intro _
    | with_reducible assumption
    | with_reducible apply keepsOut_next
    | with_reducible apply keepsOut_fault
    | with_reducible apply keepsOut_ite
    | with_reducible apply keeps_ite
    | with_reducible apply elapse_keeps
    | with_reducible apply serDropAll_keeps
    | exact Nat.le_refl _
    | split
    | with_reducible refine Keeps.of_fst ?_ (by assumption))

theorem execCanErrorFrame_keeps {s₀ s : State} (h : Keeps s₀ s) (dt : Nat) (u : Fin 4) (role : CanErr) (more : Nat) :
    KeepsOut s₀ (Machine.execCanErrorFrame dt u role more s) := by
  unfold Machine.execCanErrorFrame
  try dsimp only
  repeat' (first
    | with_reducible intro _
    | with_reducible assumption
    | with_reducible apply keepsOut_next
    | with_reducible apply keepsOut_fault
    | with_reducible apply keepsOut_ite
    | with_reducible apply keeps_ite
    | with_reducible apply canErr_keeps
    | with_reducible apply elapse_keeps
    | with_reducible apply inc64_keeps
    | exact Nat.le_refl _
    | split
    | with_reducible refine Keeps.of_fst ?_ (by assumption))

theorem execCanBusoffRecovery_keeps {s₀ s : State} (h : Keeps s₀ s) (dt : Nat) (u : Fin 4) :
    KeepsOut s₀ (Machine.execCanBusoffRecovery dt u s) := by
  unfold Machine.execCanBusoffRecovery
  try dsimp only
  repeat' (first
    | with_reducible intro _
    | with_reducible assumption
    | with_reducible apply keepsOut_next
    | with_reducible apply keepsOut_fault
    | with_reducible apply keepsOut_ite
    | with_reducible apply keeps_ite
    | with_reducible apply elapse_keeps
    | with_reducible apply wr_keeps
    | exact Nat.le_refl _
    | split
    | with_reducible refine Keeps.of_fst ?_ (by assumption))

theorem execSerFrameEnd_keeps {s₀ s : State} (h : Keeps s₀ s) (dt : Nat) (u : Fin 4) (f : SerFrame) :
    KeepsOut s₀ (Machine.execSerFrameEnd dt u f s) := by
  unfold Machine.execSerFrameEnd
  try dsimp only
  repeat' (first
    | with_reducible intro _
    | with_reducible assumption
    | with_reducible apply keepsOut_next
    | with_reducible apply keepsOut_fault
    | with_reducible apply keepsOut_ite
    | with_reducible apply keeps_ite
    | with_reducible apply elapse_keeps
    | with_reducible apply inc64_keeps
    | with_reducible apply serDeliver_keeps
    | with_reducible apply serEvent_keeps
    | with_reducible apply serIdle_keeps
    | exact Nat.le_refl _
    | split
    | with_reducible refine Keeps.of_fst ?_ (by assumption))

theorem execSerOverrun_keeps {s₀ s : State} (h : Keeps s₀ s) (dt : Nat) (u : Fin 4) :
    KeepsOut s₀ (Machine.execSerOverrun dt u s) := by
  unfold Machine.execSerOverrun
  try dsimp only
  repeat' (first
    | with_reducible intro _
    | with_reducible assumption
    | with_reducible apply keepsOut_next
    | with_reducible apply keepsOut_fault
    | with_reducible apply keepsOut_ite
    | with_reducible apply keeps_ite
    | with_reducible apply elapse_keeps
    | with_reducible apply inc64_keeps
    | with_reducible apply serEvent_keeps
    | exact Nat.le_refl _
    | split
    | with_reducible refine Keeps.of_fst ?_ (by assumption))

end Sys2Proof.Laws
end

