-- ==== Sys2Proof/Laws/Keeps/Courier.lean ====
section
/-! SUPPORT. What the operations and meanings of Machine/Courier.lean keep (`Keeps`). -/

set_option linter.unreachableTactic false
set_option linter.unusedTactic false
set_option linter.unusedVariables false

namespace Sys2Proof.Laws

open Sys2Proof.Machine

theorem modCrr_keeps {s₀ s : State} (h : Keeps s₀ s) (f : CrrSt → CrrSt) :
    Keeps s₀ (State.modCrr s f) := by
  unfold State.modCrr
  try dsimp only
  repeat' (first
    | with_reducible intro _
    | with_reducible assumption
    | with_reducible apply keeps_ite
    | exact Nat.le_refl _
    | split
    | with_reducible refine Keeps.of_fst ?_ (by assumption)
    | with_reducible refine keeps_mk ?_ rfl rfl rfl rfl (Nat.le_refl _))

theorem setChain_keeps {s₀ s : State} (h : Keeps s₀ s) (c : Nat) (x : Option CrrChain) :
    Keeps s₀ (State.setChain s c x) := by
  unfold State.setChain
  try dsimp only
  repeat' (first
    | with_reducible intro _
    | with_reducible assumption
    | with_reducible apply keeps_ite
    | with_reducible apply modCrr_keeps
    | exact Nat.le_refl _
    | split
    | with_reducible refine Keeps.of_fst ?_ (by assumption))

theorem crrRefuse_keeps {s₀ s : State} (h : Keeps s₀ s) (d : List Byte) :
    Keeps s₀ (State.crrRefuse s d) := by
  unfold State.crrRefuse
  try dsimp only
  repeat' (first
    | with_reducible intro _
    | with_reducible assumption
    | with_reducible apply keeps_ite
    | dsimp only
    | with_reducible apply keeps_ite_fst
    | with_reducible apply keeps_foldl_fst
    | with_reducible apply fwRefuse_keeps
    | exact Nat.le_refl _
    | split
    | with_reducible refine Keeps.of_fst ?_ (by assumption))

theorem crrComplete_keeps {s₀ s : State} (h : Keeps s₀ s) (c slot status ndesc : Nat) (irq : Bool) :
    Keeps s₀ (State.crrComplete s c slot status ndesc irq) := by
  unfold State.crrComplete
  try dsimp only
  repeat' (first
    | with_reducible intro _
    | with_reducible assumption
    | with_reducible apply keeps_ite
    | with_reducible apply complete_keeps
    | with_reducible apply interrupt_keeps
    | with_reducible apply modCrr_keeps
    | exact Nat.le_refl _
    | split
    | with_reducible refine Keeps.of_fst ?_ (by assumption))

theorem crrWriteBack_keeps {s₀ s : State} (h : Keeps s₀ s) (c addr status flags bytes : Nat) :
    Keeps s₀ (State.crrWriteBack s c addr status flags bytes) := by
  unfold State.crrWriteBack
  try dsimp only
  repeat' (first
    | with_reducible intro _
    | with_reducible assumption
    | with_reducible apply keeps_ite
    | with_reducible apply devWrite_keeps
    | with_reducible apply inc64_keeps
    | exact Nat.le_refl _
    | split
    | with_reducible refine Keeps.of_fst ?_ (by assumption))

theorem crrEndChain_keeps {s₀ s : State} (h : Keeps s₀ s) (c : Nat) (x : CrrChain) (status : Nat) :
    Keeps s₀ (State.crrEndChain s c x status) := by
  unfold State.crrEndChain
  try dsimp only
  repeat' (first
    | with_reducible intro _
    | with_reducible assumption
    | with_reducible apply keeps_ite
    | with_reducible apply crrComplete_keeps
    | with_reducible apply setChain_keeps
    | with_reducible apply setF_keeps
    | with_reducible apply wr_keeps
    | exact Nat.le_refl _
    | split
    | with_reducible refine Keeps.of_fst ?_ (by assumption))

theorem crrEndDesc_keeps {s₀ s : State} (h : Keeps s₀ s) (c : Nat) (x : CrrChain) (status flags bytes : Nat) :
    Keeps s₀ (State.crrEndDesc s c x status flags bytes) := by
  unfold State.crrEndDesc
  try dsimp only
  repeat' (first
    | with_reducible intro _
    | with_reducible assumption
    | with_reducible apply keeps_ite
    | with_reducible apply crrEndChain_keeps
    | with_reducible apply crrWriteBack_keeps
    | with_reducible apply setB_keeps
    | with_reducible apply setChain_keeps
    | exact Nat.le_refl _
    | split
    | with_reducible refine Keeps.of_fst ?_ (by assumption)
    | with_reducible refine keeps_mk ?_ rfl rfl rfl rfl (Nat.le_refl _))

theorem crrStart_keeps {s₀ s : State} (h : Keeps s₀ s) (c : Nat) :
    Keeps s₀ (State.crrStart s c) := by
  unfold State.crrStart
  try dsimp only
  repeat' (first
    | with_reducible intro _
    | with_reducible assumption
    | with_reducible apply keeps_ite
    | with_reducible apply inc64_keeps
    | with_reducible apply setChain_keeps
    | with_reducible apply setF_keeps
    | with_reducible apply takeHead_keeps
    | exact Nat.le_refl _
    | split
    | with_reducible refine Keeps.of_fst ?_ (by assumption))

theorem farAsk_keeps {s₀ s : State} (h : Keeps s₀ s) (who a n : Nat) :
    Keeps s₀ (State.farAsk s who a n) := by
  unfold State.farAsk
  try dsimp only
  repeat' (first
    | with_reducible intro _
    | with_reducible assumption
    | with_reducible apply keeps_ite
    | with_reducible apply farRead_keeps
    | exact Nat.le_refl _
    | split
    | with_reducible refine Keeps.of_fst ?_ (by assumption))

theorem farClear_keeps {s₀ s : State} (h : Keeps s₀ s) (c : Nat) :
    Keeps s₀ (State.farClear s c) := by
  unfold State.farClear
  try dsimp only
  repeat' (first
    | with_reducible intro _
    | with_reducible assumption
    | with_reducible apply keeps_ite
    | with_reducible apply modCsc_keeps
    | exact Nat.le_refl _
    | split
    | with_reducible refine Keeps.of_fst ?_ (by assumption)
    | with_reducible refine keeps_mk ?_ rfl rfl rfl rfl (Nat.le_refl _))

theorem crrTaken_keeps {s₀ s : State} (h : Keeps s₀ s) (c : Nat) (x : CrrChain) (ended : ReadEnd) :
    Keeps s₀ (State.crrTaken s c x ended) := by
  unfold State.crrTaken
  try dsimp only
  repeat' (first
    | with_reducible intro _
    | with_reducible assumption
    | with_reducible apply keeps_ite
    | with_reducible apply crrEndChain_keeps
    | with_reducible apply crrEndDesc_keeps
    | with_reducible apply crrRefuse_keeps
    | with_reducible apply farAsk_keeps
    | with_reducible apply farClear_keeps
    | with_reducible apply inc64_keeps
    | with_reducible apply readLeaves_keeps
    | with_reducible apply setB_keeps
    | with_reducible apply setChain_keeps
    | exact Nat.le_refl _
    | split
    | with_reducible refine Keeps.of_fst ?_ (by assumption)
    | with_reducible refine keeps_mk ?_ rfl rfl rfl rfl (Nat.le_refl _))

theorem crrAbortSlots_keeps {s₀ s : State} (h : Keeps s₀ s) (c : Nat) (n : Nat) :
    Keeps s₀ (State.crrAbortSlots s c n) := by
  induction n generalizing s with
  | zero => exact h
  | succ n ih =>
    unfold State.crrAbortSlots
    try dsimp only
    repeat' (first
    | with_reducible assumption
    | with_reducible apply ih
    | with_reducible apply crrComplete_keeps
    | with_reducible apply crrWriteBack_keeps
    | with_reducible apply inc64_keeps
    | with_reducible apply takeHead_keeps
    | with_reducible apply keeps_ite
    | with_reducible refine Keeps.of_fst ?_ (by assumption)
    | split)

theorem crrMoveBy_keeps {s₀ s : State} (h : Keeps s₀ s) (store : State → Nat → List Byte → State) (c start : Nat) (d data : List Byte) (n : Nat) (hf : ∀ u x y, Keeps s₀ u → Keeps s₀ (store u x y)) :
    Keeps s₀ (State.crrMoveBy s store c start d data n) := by
  unfold State.crrMoveBy
  try dsimp only
  repeat' (first
    | with_reducible intro _
    | with_reducible assumption
    | with_reducible apply keeps_ite
    | with_reducible apply hf
    | dsimp only
    | with_reducible apply keeps_ite_fst
    | with_reducible apply keeps_foldl_fst
    | with_reducible apply keeps_foldl
    | with_reducible apply lpeFeedFrom_keeps
    | exact Nat.le_refl _
    | split
    | with_reducible refine Keeps.of_fst ?_ (by assumption))

theorem crrPartly_keeps {s₀ s : State} (h : Keeps s₀ s) (store : State → Nat → List Byte → State) (c start : Nat) (d : List Byte) (n : Nat) (hf : ∀ u x y, Keeps s₀ u → Keeps s₀ (store u x y)) :
    Keeps s₀ (State.crrPartly s store c start d n) := by
  unfold State.crrPartly
  try dsimp only
  repeat' (first
    | with_reducible intro _
    | with_reducible assumption
    | with_reducible apply keeps_ite
    | with_reducible apply hf
    | dsimp only
    | with_reducible apply keeps_ite_fst
    | with_reducible apply keeps_foldl_fst
    | with_reducible apply crrMoveBy_keeps
    | exact Nat.le_refl _
    | split
    | with_reducible refine Keeps.of_fst ?_ (by assumption))

theorem crrDisable_keeps {s₀ s : State} (h : Keeps s₀ s) (c bytes : Nat) :
    Keeps s₀ (State.crrDisable s c bytes) := by
  unfold State.crrDisable
  try dsimp only
  repeat' (first
    | with_reducible intro _
    | with_reducible assumption
    | with_reducible apply keeps_ite
    | with_reducible apply crrAbortSlots_keeps
    | with_reducible apply crrEndChain_keeps
    | with_reducible apply crrWriteBack_keeps
    | with_reducible apply setB_keeps
    | with_reducible apply wr_keeps
    | exact Nat.le_refl _
    | split
    | with_reducible refine Keeps.of_fst ?_ (by assumption)
    | with_reducible refine keeps_mk ?_ rfl rfl rfl rfl (Nat.le_refl _))

theorem crrStop_keeps {s₀ s : State} (h : Keeps s₀ s) (store : State → Nat → List Byte → State) (c n : Nat) (hf : ∀ u x y, Keeps s₀ u → Keeps s₀ (store u x y)) :
    Keeps s₀ (State.crrStop s store c n) := by
  unfold State.crrStop
  try dsimp only
  repeat' (first
    | with_reducible intro _
    | with_reducible assumption
    | with_reducible apply keeps_ite
    | with_reducible apply hf
    | with_reducible apply crrDisable_keeps
    | with_reducible apply crrPartly_keeps
    | with_reducible apply farClear_keeps
    | exact Nat.le_refl _
    | split
    | with_reducible refine Keeps.of_fst ?_ (by assumption))

theorem lpeSet_keeps {s₀ s : State} (h : Keeps s₀ s) (u r : Nat) :
    Keeps s₀ (State.lpeSet s u r) := by
  unfold State.lpeSet
  try dsimp only
  repeat' (first
    | with_reducible intro _
    | with_reducible assumption
    | with_reducible apply keeps_ite
    | with_reducible apply wr64_keeps
    | exact Nat.le_refl _
    | split
    | with_reducible refine Keeps.of_fst ?_ (by assumption)
    | with_reducible refine keeps_mk ?_ rfl rfl rfl rfl (Nat.le_refl _))

theorem lpeFresh_keeps {s₀ s : State} (h : Keeps s₀ s) (u : Nat) :
    Keeps s₀ (State.lpeFresh s u) := by
  unfold State.lpeFresh
  try dsimp only
  repeat' (first
    | with_reducible intro _
    | with_reducible assumption
    | with_reducible apply keeps_ite
    | exact Nat.le_refl _
    | split
    | with_reducible refine Keeps.of_fst ?_ (by assumption)
    | with_reducible refine keeps_mk ?_ rfl rfl rfl rfl (Nat.le_refl _))

theorem lpeWriteCfg_keeps {s₀ s : State} (h : Keeps s₀ s) (u v : Nat) :
    Keeps s₀ (State.lpeWriteCfg s u v) := by
  unfold State.lpeWriteCfg
  try dsimp only
  repeat' (first
    | with_reducible intro _
    | with_reducible assumption
    | with_reducible apply keeps_ite
    | with_reducible apply lpeFresh_keeps
    | with_reducible apply lpeSet_keeps
    | with_reducible apply setB_keeps
    | with_reducible apply wr_keeps
    | exact Nat.le_refl _
    | split
    | with_reducible refine Keeps.of_fst ?_ (by assumption)
    | with_reducible refine keeps_mk ?_ rfl rfl rfl rfl (Nat.le_refl _))

theorem lpeRestart_keeps {s₀ s : State} (h : Keeps s₀ s) (mask : Nat) :
    Keeps s₀ (State.lpeRestart s mask) := by
  unfold State.lpeRestart
  try dsimp only
  repeat' (first
    | with_reducible intro _
    | with_reducible assumption
    | with_reducible apply keeps_ite
    | with_reducible apply keeps_foldl
    | with_reducible apply lpeFresh_keeps
    | with_reducible apply lpeSet_keeps
    | exact Nat.le_refl _
    | split
    | with_reducible refine Keeps.of_fst ?_ (by assumption))

theorem lpeUnit_keeps {s₀ s : State} (h : Keeps s₀ s) (u : Nat) (bs : List Byte) :
    Keeps s₀ (State.lpeUnit s u bs) := by
  unfold State.lpeUnit
  try dsimp only
  repeat' (first
    | with_reducible intro _
    | with_reducible assumption
    | with_reducible apply keeps_ite
    | with_reducible apply add64_keeps
    | with_reducible apply inc64_keeps
    | with_reducible apply lpeSet_keeps
    | with_reducible apply wr64_keeps
    | exact Nat.le_refl _
    | split
    | with_reducible refine Keeps.of_fst ?_ (by assumption))

theorem lpeNext_keeps {s₀ s : State} (h : Keeps s₀ s) (u : Nat) :
    Keeps s₀ (State.lpeNext s u) := by
  unfold State.lpeNext
  try dsimp only
  repeat' (first
    | with_reducible intro _
    | with_reducible assumption
    | with_reducible apply keeps_ite
    | with_reducible apply lpeUnit_keeps
    | exact Nat.le_refl _
    | split
    | with_reducible refine Keeps.of_fst ?_ (by assumption)
    | with_reducible refine keeps_mk ?_ rfl rfl rfl rfl (Nat.le_refl _))

theorem lpeDrain_keeps {s₀ s : State} (h : Keeps s₀ s) (u : Nat) :
    Keeps s₀ (State.lpeDrain s u) := by
  unfold State.lpeDrain
  try dsimp only
  repeat' (first
    | with_reducible intro _
    | with_reducible assumption
    | with_reducible apply keeps_ite
    | with_reducible apply keeps_foldl
    | with_reducible apply lpeNext_keeps
    | exact Nat.le_refl _
    | split
    | with_reducible refine Keeps.of_fst ?_ (by assumption))

theorem execCrrChainStart_keeps {s₀ s : State} (h : Keeps s₀ s) (dt : Nat) (c : Fin 16) :
    KeepsOut s₀ (Machine.execCrrChainStart dt c s) := by
  unfold Machine.execCrrChainStart
  try dsimp only
  repeat' (first
    | with_reducible intro _
    | with_reducible assumption
    | with_reducible apply keepsOut_next
    | with_reducible apply keepsOut_fault
    | with_reducible apply keepsOut_ite
    | with_reducible apply keeps_ite
    | with_reducible apply crrStart_keeps
    | with_reducible apply elapse_keeps
    | exact Nat.le_refl _
    | split
    | with_reducible refine Keeps.of_fst ?_ (by assumption))

theorem execCrrDescriptorTaken_keeps {s₀ s : State} (h : Keeps s₀ s) (dt : Nat) (c : Fin 16) (ended : ReadEnd) :
    KeepsOut s₀ (Machine.execCrrDescriptorTaken dt c ended s) := by
  unfold Machine.execCrrDescriptorTaken
  try dsimp only
  repeat' (first
    | with_reducible intro _
    | with_reducible assumption
    | with_reducible apply keepsOut_next
    | with_reducible apply keepsOut_fault
    | with_reducible apply keepsOut_ite
    | with_reducible apply keeps_ite
    | with_reducible apply crrTaken_keeps
    | with_reducible apply elapse_keeps
    | exact Nat.le_refl _
    | split
    | with_reducible refine Keeps.of_fst ?_ (by assumption))

theorem execLpeEnable_keeps {s₀ s : State} (h : Keeps s₀ s) (dt : Nat) (req : Requester) (u : Fin 8) (value : Word) :
    KeepsOut s₀ (Machine.execLpeEnable dt req u value s) := by
  unfold Machine.execLpeEnable
  try dsimp only
  repeat' (first
    | with_reducible intro _
    | with_reducible assumption
    | with_reducible apply keepsOut_next
    | with_reducible apply keepsOut_fault
    | with_reducible apply keepsOut_ite
    | with_reducible apply keeps_ite
    | with_reducible apply elapse_keeps
    | with_reducible apply lpeWriteCfg_keeps
    | with_reducible apply regCmd_keeps
    | exact Nat.le_refl _
    | split
    | with_reducible refine Keeps.of_fst ?_ (by assumption))

theorem execLpeDisable_keeps {s₀ s : State} (h : Keeps s₀ s) (dt : Nat) (req : Requester) (u : Fin 8) :
    KeepsOut s₀ (Machine.execLpeDisable dt req u s) := by
  unfold Machine.execLpeDisable
  try dsimp only
  repeat' (first
    | with_reducible intro _
    | with_reducible assumption
    | with_reducible apply keepsOut_next
    | with_reducible apply keepsOut_fault
    | with_reducible apply keepsOut_ite
    | with_reducible apply keeps_ite
    | with_reducible apply elapse_keeps
    | with_reducible apply lpeWriteCfg_keeps
    | with_reducible apply regCmd_keeps
    | exact Nat.le_refl _
    | split
    | with_reducible refine Keeps.of_fst ?_ (by assumption))

theorem execLpeUnitEnd_keeps {s₀ s : State} (h : Keeps s₀ s) (dt : Nat) (u : Fin 8) (unit : List Byte) :
    KeepsOut s₀ (Machine.execLpeUnitEnd dt u unit s) := by
  unfold Machine.execLpeUnitEnd
  try dsimp only
  repeat' (first
    | with_reducible intro _
    | with_reducible assumption
    | with_reducible apply keepsOut_next
    | with_reducible apply keepsOut_fault
    | with_reducible apply keepsOut_ite
    | with_reducible apply keeps_ite
    | with_reducible apply elapse_keeps
    | with_reducible apply lpeNext_keeps
    | exact Nat.le_refl _
    | split
    | with_reducible refine Keeps.of_fst ?_ (by assumption))

end Sys2Proof.Laws
end

