-- ==== Sys2Proof/Laws/Keeps/Links.lean ====
section
/-! SUPPORT. What the operations and meanings of Machine/Links.lean keep (`Keeps`). -/

set_option linter.unreachableTactic false
set_option linter.unusedTactic false
set_option linter.unusedVariables false

namespace Sys2Proof.Laws

open Sys2Proof.Machine

theorem cscEvent_keeps {s₀ s : State} (h : Keeps s₀ s) (code sev : Nat) (payload : List Byte) :
    Keeps s₀ (State.cscEvent s code sev payload) := by
  unfold State.cscEvent
  try dsimp only
  repeat' (first
    | with_reducible intro _
    | with_reducible assumption
    | with_reducible apply keeps_ite
    | with_reducible apply emit_keeps
    | exact Nat.le_refl _
    | split
    | with_reducible refine Keeps.of_fst ?_ (by assumption))

theorem sendMembers_keeps {s₀ s : State} (h : Keeps s₀ s) :
    Keeps s₀ (State.sendMembers s) := by
  unfold State.sendMembers
  try dsimp only
  repeat' (first
    | with_reducible intro _
    | with_reducible assumption
    | with_reducible apply keeps_ite
    | with_reducible apply postedOut_keeps
    | exact Nat.le_refl _
    | split
    | with_reducible refine Keeps.of_fst ?_ (by assumption))

theorem showMember_keeps {s₀ s : State} (h : Keeps s₀ s) :
    Keeps s₀ (State.showMember s) := by
  unfold State.showMember
  try dsimp only
  repeat' (first
    | with_reducible intro _
    | with_reducible assumption
    | with_reducible apply keeps_ite
    | with_reducible apply setB_keeps
    | exact Nat.le_refl _
    | split
    | with_reducible refine Keeps.of_fst ?_ (by assumption))

theorem stageMembers_keeps {s₀ s : State} (h : Keeps s₀ s) (v : Nat) :
    Keeps s₀ (State.stageMembers s v) := by
  unfold State.stageMembers
  try dsimp only
  repeat' (first
    | with_reducible intro _
    | with_reducible assumption
    | with_reducible apply keeps_ite
    | with_reducible apply modCsc_keeps
    | with_reducible apply sendMembers_keeps
    | exact Nat.le_refl _
    | split
    | with_reducible refine Keeps.of_fst ?_ (by assumption))

theorem farAnswer_keeps {s₀ s : State} (h : Keeps s₀ s) (req : Requester) (status data : Nat) :
    Keeps s₀ (State.farAnswer s req status data) := by
  unfold State.farAnswer
  try dsimp only
  repeat' (first
    | with_reducible intro _
    | with_reducible assumption
    | with_reducible apply keeps_ite
    | with_reducible apply enter_keeps
    | with_reducible apply raise_keeps
    | with_reducible apply respond_keeps
    | with_reducible apply toLanes_keeps
    | exact Nat.le_refl _
    | split
    | with_reducible refine Keeps.of_fst ?_ (by assumption))

theorem sendWaiting_keeps {s₀ s : State} (h : Keeps s₀ s) (port : Nat) :
    Keeps s₀ (State.sendWaiting s port) := by
  unfold State.sendWaiting
  try dsimp only
  repeat' (first
    | with_reducible intro _
    | with_reducible assumption
    | with_reducible apply keeps_ite
    | with_reducible apply modCsc_keeps
    | with_reducible apply sendNp_keeps
    | exact Nat.le_refl _
    | split
    | with_reducible refine Keeps.of_fst ?_ (by assumption))

theorem nextAmo_keeps {s₀ s : State} (h : Keeps s₀ s) :
    Keeps s₀ (State.nextAmo s) := by
  unfold State.nextAmo
  try dsimp only
  repeat' (first
    | with_reducible intro _
    | with_reducible assumption
    | with_reducible apply keeps_ite
    | dsimp only
    | with_reducible apply keeps_ite_fst
    | with_reducible apply keeps_foldl_fst
    | with_reducible apply modCsc_keeps
    | with_reducible apply postedOut_keeps
    | exact Nat.le_refl _
    | split
    | with_reducible refine Keeps.of_fst ?_ (by assumption))

theorem farGot_keeps {s₀ s : State} (h : Keeps s₀ s) (x : CscAsk) (status : Nat) (bytes : List Byte) :
    Keeps s₀ (State.farGot s x status bytes) := by
  unfold State.farGot
  try dsimp only
  repeat' (first
    | with_reducible intro _
    | with_reducible assumption
    | with_reducible apply keeps_ite
    | with_reducible apply farAnswer_keeps
    | with_reducible apply modCsc_keeps
    | exact Nat.le_refl _
    | split
    | with_reducible refine Keeps.of_fst ?_ (by assumption))

theorem endTag_keeps {s₀ s : State} (h : Keeps s₀ s) (t : CscTag) (status : Nat) (bytes : List Byte) :
    Keeps s₀ (State.endTag s t status bytes) := by
  unfold State.endTag
  try dsimp only
  repeat' (first
    | with_reducible intro _
    | with_reducible assumption
    | with_reducible apply keeps_ite
    | with_reducible apply farGot_keeps
    | with_reducible apply modCsc_keeps
    | with_reducible apply nextAmo_keeps
    | with_reducible apply sendWaiting_keeps
    | exact Nat.le_refl _
    | split
    | with_reducible refine Keeps.of_fst ?_ (by assumption))

theorem dropOpen_keeps {s₀ s : State} (h : Keeps s₀ s) (d : Nat) :
    Keeps s₀ (State.dropOpen s d) := by
  unfold State.dropOpen
  try dsimp only
  repeat' (first
    | with_reducible intro _
    | with_reducible assumption
    | with_reducible apply keeps_ite
    | dsimp only
    | with_reducible apply keeps_ite_fst
    | with_reducible apply keeps_foldl_fst
    | with_reducible apply keeps_foldl
    | with_reducible apply add64_keeps
    | with_reducible apply farAnswer_keeps
    | with_reducible apply farGot_keeps
    | with_reducible apply freshCtr_keeps
    | with_reducible apply inc64_keeps
    | with_reducible apply modCsc_keeps
    | with_reducible apply nextAmo_keeps
    | exact Nat.le_refl _
    | split
    | with_reducible refine Keeps.of_fst ?_ (by assumption))

theorem linkDown_keeps {s₀ s : State} (h : Keeps s₀ s) (d next : Nat) :
    Keeps s₀ (State.linkDown s d next) := by
  unfold State.linkDown
  try dsimp only
  repeat' (first
    | with_reducible intro _
    | with_reducible assumption
    | with_reducible apply keeps_ite
    | dsimp only
    | with_reducible apply keeps_ite_fst
    | with_reducible apply keeps_foldl_fst
    | with_reducible apply add64_keeps
    | with_reducible apply cscEvent_keeps
    | with_reducible apply dropOpen_keeps
    | with_reducible apply dropReads_keeps
    | with_reducible apply freshCtr_keeps
    | with_reducible apply modCsc_keeps
    | with_reducible apply setB_keeps
    | with_reducible apply setF_keeps
    | with_reducible apply showMember_keeps
    | with_reducible apply stageMembers_keeps
    | with_reducible apply wr_keeps
    | exact Nat.le_refl _
    | split
    | with_reducible refine Keeps.of_fst ?_ (by assumption))

theorem membersBehind_keeps {s₀ s : State} (h : Keeps s₀ s) (d reach : Nat) :
    Keeps s₀ (State.membersBehind s d reach) := by
  unfold State.membersBehind
  try dsimp only
  repeat' (first
    | with_reducible intro _
    | with_reducible assumption
    | with_reducible apply keeps_ite
    | with_reducible apply stageMembers_keeps
    | exact Nat.le_refl _
    | split
    | with_reducible refine Keeps.of_fst ?_ (by assumption))

theorem linkUpEvent_keeps {s₀ s : State} (h : Keeps s₀ s) (d neighbour width gen reach : Nat) :
    Keeps s₀ (State.linkUpEvent s d neighbour width gen reach) := by
  unfold State.linkUpEvent
  try dsimp only
  repeat' (first
    | with_reducible intro _
    | with_reducible assumption
    | with_reducible apply keeps_ite
    | with_reducible apply keeps_foldl
    | with_reducible apply cscEvent_keeps
    | with_reducible apply linkDown_keeps
    | with_reducible apply membersBehind_keeps
    | with_reducible apply modCsc_keeps
    | with_reducible apply setB_keeps
    | with_reducible apply setF_keeps
    | with_reducible apply showMember_keeps
    | with_reducible apply wr_keeps
    | with_reducible apply wr64_keeps
    | exact Nat.le_refl _
    | split
    | with_reducible refine Keeps.of_fst ?_ (by assumption))

theorem linkBeyond_keeps {s₀ s : State} (h : Keeps s₀ s) (d reach : Nat) :
    Keeps s₀ (State.linkBeyond s d reach) := by
  unfold State.linkBeyond
  try dsimp only
  repeat' (first
    | with_reducible intro _
    | with_reducible assumption
    | with_reducible apply keeps_ite
    | with_reducible apply membersBehind_keeps
    | exact Nat.le_refl _
    | split
    | with_reducible refine Keeps.of_fst ?_ (by assumption))

theorem auditOut_keeps {s₀ s : State} (h : Keeps s₀ s) (d : Nat) :
    Keeps s₀ (State.auditOut s d) := by
  unfold State.auditOut
  try dsimp only
  repeat' (first
    | with_reducible intro _
    | with_reducible assumption
    | with_reducible apply keeps_ite
    | with_reducible apply modCsc_keeps
    | with_reducible apply postedOut_keeps
    | exact Nat.le_refl _
    | split
    | with_reducible refine Keeps.of_fst ?_ (by assumption))

theorem cplOut_keeps {s₀ s : State} (h : Keeps s₀ s) (d n : Nat) :
    Keeps s₀ (State.cplOut s d n) := by
  unfold State.cplOut
  try dsimp only
  repeat' (first
    | with_reducible intro _
    | with_reducible assumption
    | with_reducible apply keeps_ite
    | with_reducible apply consume_keeps
    | with_reducible apply inc64_keeps
    | exact Nat.le_refl _
    | split
    | with_reducible refine Keeps.of_fst ?_ (by assumption))

theorem cscEdge_keeps {s₀ s : State} (h : Keeps s₀ s) :
    Keeps s₀ (State.cscEdge s) := by
  unfold State.cscEdge
  try dsimp only
  repeat' (first
    | with_reducible intro _
    | with_reducible assumption
    | with_reducible apply keeps_ite
    | with_reducible apply keeps_foldl
    | with_reducible apply auditOut_keeps
    | with_reducible apply cscEvent_keeps
    | with_reducible apply modCsc_keeps
    | with_reducible apply setB_keeps
    | with_reducible apply setF_keeps
    | with_reducible apply showMember_keeps
    | exact Nat.le_refl _
    | split
    | with_reducible refine Keeps.of_fst ?_ (by assumption))

theorem creditUse_keeps {s₀ s : State} (h : Keeps s₀ s) (d t n : Nat) :
    Keeps s₀ (State.creditUse s d t n) := by
  unfold State.creditUse
  try dsimp only
  repeat' (first
    | with_reducible intro _
    | with_reducible assumption
    | with_reducible apply keeps_ite
    | with_reducible apply add64_keeps
    | exact Nat.le_refl _
    | split
    | with_reducible refine Keeps.of_fst ?_ (by assumption)
    | with_reducible refine keeps_mk ?_ rfl rfl rfl rfl (Nat.le_refl _))

theorem creditHold_keeps {s₀ s : State} (h : Keeps s₀ s) (d t n : Nat) :
    Keeps s₀ (State.creditHold s d t n) := by
  unfold State.creditHold
  try dsimp only
  repeat' (first
    | with_reducible intro _
    | with_reducible assumption
    | with_reducible apply keeps_ite
    | with_reducible apply add64_keeps
    | with_reducible apply inc64_keeps
    | exact Nat.le_refl _
    | split
    | with_reducible refine Keeps.of_fst ?_ (by assumption))

theorem creditFree_keeps {s₀ s : State} (h : Keeps s₀ s) (d t n : Nat) :
    Keeps s₀ (State.creditFree s d t n) := by
  unfold State.creditFree
  try dsimp only
  repeat' (first
    | with_reducible intro _
    | with_reducible assumption
    | with_reducible apply keeps_ite
    | with_reducible apply creditUse_keeps
    | with_reducible apply wr64_keeps
    | exact Nat.le_refl _
    | split
    | with_reducible refine Keeps.of_fst ?_ (by assumption)
    | with_reducible refine keeps_mk ?_ rfl rfl rfl rfl (Nat.le_refl _))

theorem sideBandIn_keeps {s₀ s : State} (h : Keeps s₀ s) (d : Nat) :
    Keeps s₀ (State.sideBandIn s d) := by
  unfold State.sideBandIn
  try dsimp only
  repeat' (first
    | with_reducible intro _
    | with_reducible assumption
    | with_reducible apply keeps_ite
    | with_reducible apply creditUse_keeps
    | with_reducible apply inc64_keeps
    | exact Nat.le_refl _
    | split
    | with_reducible refine Keeps.of_fst ?_ (by assumption))

end Sys2Proof.Laws
end

