-- ==== Sys2Proof/Laws/Keeps/Pops.lean ====
section
/-! SUPPORT. What the operations and meanings of Machine/Pops.lean keep (`Keeps`). -/

set_option linter.unreachableTactic false
set_option linter.unusedTactic false
set_option linter.unusedVariables false

namespace Sys2Proof.Laws

open Sys2Proof.Machine

theorem modPop_keeps {s₀ s : State} (h : Keeps s₀ s) (q : PopQueue) (f : PopSt → PopSt) :
    Keeps s₀ (State.modPop s q f) := by
  unfold State.modPop
  try dsimp only
  repeat' (first
    | with_reducible intro _
    | with_reducible assumption
    | with_reducible apply keeps_ite
    | exact Nat.le_refl _
    | split
    | with_reducible refine Keeps.of_fst ?_ (by assumption)
    | with_reducible refine keeps_mk ?_ rfl rfl rfl rfl (Nat.le_refl _))

theorem popRemove_keeps {s₀ s : State} (h : Keeps s₀ s) (q : PopQueue) :
    Keeps s₀ (State.popRemove s q) := by
  unfold State.popRemove
  try dsimp only
  repeat' (first
    | with_reducible intro _
    | with_reducible assumption
    | with_reducible apply keeps_ite
    | with_reducible apply arcPop_keeps
    | with_reducible apply inc64_keeps
    | with_reducible apply modCrr_keeps
    | with_reducible apply tsPop_keeps
    | with_reducible apply wr64_keeps
    | exact Nat.le_refl _
    | split
    | with_reducible refine Keeps.of_fst ?_ (by assumption))

theorem popAnswer_keeps {s₀ s : State} (h : Keeps s₀ s) (req : Requester) (v n : Nat) :
    Keeps s₀ (State.popAnswer s req v n) := by
  unfold State.popAnswer
  try dsimp only
  repeat' (first
    | with_reducible intro _
    | with_reducible assumption
    | with_reducible apply keeps_ite
    | with_reducible apply cplOut_keeps
    | with_reducible apply lpeFeed_keeps
    | with_reducible apply respond_keeps
    | with_reducible apply toLanes_keeps
    | exact Nat.le_refl _
    | split
    | with_reducible refine Keeps.of_fst ?_ (by assumption))

theorem popRefused_keeps {s₀ s : State} (h : Keeps s₀ s) (req : Requester) (st : Nat) :
    Keeps s₀ (State.popRefused s req st) := by
  unfold State.popRefused
  try dsimp only
  repeat' (first
    | with_reducible intro _
    | with_reducible assumption
    | with_reducible apply keeps_ite
    | with_reducible apply cplOut_keeps
    | with_reducible apply toLanes_keeps
    | exact Nat.le_refl _
    | split
    | with_reducible refine Keeps.of_fst ?_ (by assumption))

theorem popServe_keeps {s₀ s : State} (h : Keeps s₀ s) (q : PopQueue) (l : List Requester) :
    Keeps s₀ (State.popServe s q l) := by
  induction l generalizing s with
  | nil => exact modPop_keeps h _ _
  | cons x t ih =>
    unfold State.popServe
    try dsimp only
    repeat' (first
    | with_reducible assumption
    | with_reducible apply ih
    | with_reducible apply respond_keeps
    | with_reducible apply popAnswer_keeps
    | with_reducible apply modPop_keeps
    | with_reducible apply keeps_ite
    | with_reducible refine Keeps.of_fst ?_ (by assumption)
    | split)

theorem popRead_keeps {s₀ s : State} (h : Keeps s₀ s) (q : PopQueue) (req : Requester) (reg : Nat) (wide : Bool) :
    Keeps s₀ (State.popRead s q req reg wide) := by
  unfold State.popRead
  try dsimp only
  repeat' (first
    | with_reducible intro _
    | with_reducible assumption
    | with_reducible apply keeps_ite
    | with_reducible apply fwRefuse_keeps
    | with_reducible apply modPop_keeps
    | with_reducible apply park_keeps
    | with_reducible apply popAnswer_keeps
    | with_reducible apply popRefused_keeps
    | with_reducible apply popServe_keeps
    | exact Nat.le_refl _
    | split
    | with_reducible refine Keeps.of_fst ?_ (by assumption))

theorem popNext_keeps {s₀ s : State} (h : Keeps s₀ s) (q : PopQueue) :
    Keeps s₀ (State.popNext s q) := by
  unfold State.popNext
  try dsimp only
  repeat' (first
    | with_reducible intro _
    | with_reducible assumption
    | with_reducible apply keeps_ite
    | with_reducible apply popServe_keeps
    | exact Nat.le_refl _
    | split
    | with_reducible refine Keeps.of_fst ?_ (by assumption))

theorem popsFreed_keeps {s₀ s : State} (h : Keeps s₀ s) :
    Keeps s₀ (State.popsFreed s) := by
  unfold State.popsFreed
  try dsimp only
  repeat' (first
    | with_reducible intro _
    | with_reducible assumption
    | with_reducible apply keeps_ite
    | dsimp only
    | with_reducible apply keeps_ite_fst
    | with_reducible apply keeps_foldl_fst
    | with_reducible apply keeps_foldl
    | with_reducible apply popNext_keeps
    | exact Nat.le_refl _
    | split
    | with_reducible refine Keeps.of_fst ?_ (by assumption))

theorem linkFalls_keeps {s₀ s : State} (h : Keeps s₀ s) (d next : Nat) :
    Keeps s₀ (State.linkFalls s d next) := by
  unfold State.linkFalls
  try dsimp only
  repeat' (first
    | with_reducible intro _
    | with_reducible assumption
    | with_reducible apply keeps_ite
    | with_reducible apply linkDown_keeps
    | with_reducible apply popsFreed_keeps
    | exact Nat.le_refl _
    | split
    | with_reducible refine Keeps.of_fst ?_ (by assumption))

theorem apcRestart_keeps {s₀ s : State} (h : Keeps s₀ s) (req : Requester) (key cores : Nat) :
    Keeps s₀ (State.apcRestart s req key cores) := by
  unfold State.apcRestart
  try dsimp only
  repeat' (first
    | with_reducible intro _
    | with_reducible assumption
    | with_reducible apply keeps_ite
    | with_reducible apply keeps_foldl
    | with_reducible apply popsFreed_keeps
    | with_reducible apply restartNamed_keeps
    | exact Nat.le_refl _
    | split
    | with_reducible refine Keeps.of_fst ?_ (by assumption))

theorem execApcPairMismatch_keeps {s₀ s : State} (h : Keeps s₀ s) (dt : Nat) (pair : Fin 4) (cmp : PairCompare) :
    KeepsOut s₀ (Machine.execApcPairMismatch dt pair cmp s) := by
  unfold Machine.execApcPairMismatch
  try dsimp only
  repeat' (first
    | with_reducible intro _
    | with_reducible assumption
    | with_reducible apply keepsOut_next
    | with_reducible apply keepsOut_fault
    | with_reducible apply keepsOut_ite
    | with_reducible apply keeps_ite
    | with_reducible apply dropPops_keeps
    | with_reducible apply elapse_keeps
    | with_reducible apply emit_keeps
    | with_reducible apply inc64_keeps
    | with_reducible apply loseL1_keeps
    | with_reducible apply popsFreed_keeps
    | with_reducible apply setF_keeps
    | with_reducible apply wr64_keeps
    | exact Nat.le_refl _
    | split
    | with_reducible refine Keeps.of_fst ?_ (by assumption))

theorem execApcRestartWrite_keeps {s₀ s : State} (h : Keeps s₀ s) (dt : Nat) (req : Requester) (key : Byte) (cores : BitVec 8) :
    KeepsOut s₀ (Machine.execApcRestartWrite dt req key cores s) := by
  unfold Machine.execApcRestartWrite
  try dsimp only
  repeat' (first
    | with_reducible intro _
    | with_reducible assumption
    | with_reducible apply keepsOut_next
    | with_reducible apply keepsOut_fault
    | with_reducible apply keepsOut_ite
    | with_reducible apply keeps_ite
    | with_reducible apply apcRestart_keeps
    | with_reducible apply elapse_keeps
    | with_reducible apply regCmd_keeps
    | exact Nat.le_refl _
    | split
    | with_reducible refine Keeps.of_fst ?_ (by assumption))

theorem execPopTsqMetaRead_keeps {s₀ s : State} (h : Keeps s₀ s) (dt : Nat) (req : Requester) (q : Fin 9) (wide : Bool) :
    KeepsOut s₀ (Machine.execPopTsqMetaRead dt req q wide s) := by
  unfold Machine.execPopTsqMetaRead
  try dsimp only
  repeat' (first
    | with_reducible intro _
    | with_reducible assumption
    | with_reducible apply keepsOut_next
    | with_reducible apply keepsOut_fault
    | with_reducible apply keepsOut_ite
    | with_reducible apply keeps_ite
    | with_reducible apply elapse_keeps
    | with_reducible apply popRead_keeps
    | exact Nat.le_refl _
    | split
    | with_reducible refine Keeps.of_fst ?_ (by assumption))

theorem execPopCrrMetaRead_keeps {s₀ s : State} (h : Keeps s₀ s) (dt : Nat) (req : Requester) (c : Fin 16) (wide : Bool) :
    KeepsOut s₀ (Machine.execPopCrrMetaRead dt req c wide s) := by
  unfold Machine.execPopCrrMetaRead
  try dsimp only
  repeat' (first
    | with_reducible intro _
    | with_reducible assumption
    | with_reducible apply keepsOut_next
    | with_reducible apply keepsOut_fault
    | with_reducible apply keepsOut_ite
    | with_reducible apply keeps_ite
    | with_reducible apply elapse_keeps
    | with_reducible apply popRead_keeps
    | exact Nat.le_refl _
    | split
    | with_reducible refine Keeps.of_fst ?_ (by assumption))

theorem execPopArcNextRead_keeps {s₀ s : State} (h : Keeps s₀ s) (dt : Nat) (req : Requester) (wide : Bool) :
    KeepsOut s₀ (Machine.execPopArcNextRead dt req wide s) := by
  unfold Machine.execPopArcNextRead
  try dsimp only
  repeat' (first
    | with_reducible intro _
    | with_reducible assumption
    | with_reducible apply keepsOut_next
    | with_reducible apply keepsOut_fault
    | with_reducible apply keepsOut_ite
    | with_reducible apply keeps_ite
    | with_reducible apply elapse_keeps
    | with_reducible apply popRead_keeps
    | exact Nat.le_refl _
    | split
    | with_reducible refine Keeps.of_fst ?_ (by assumption))

end Sys2Proof.Laws
end

