-- ==== Sys2Proof/Laws/Keeps/Doorbells.lean ====
section
/-! SUPPORT. What the operations and meanings of Machine/Doorbells.lean keep (`Keeps`). -/

set_option linter.unreachableTactic false
set_option linter.unusedTactic false
set_option linter.unusedVariables false

namespace Sys2Proof.Laws

open Sys2Proof.Machine

theorem ringInvalidate_keeps {s₀ s : State} (h : Keeps s₀ s) (k : Cls) (b : CatBlk) (i : Nat) :
    Keeps s₀ (State.ringInvalidate s k b i) := by
  unfold State.ringInvalidate
  try dsimp only
  repeat' (first
    | with_reducible intro _
    | with_reducible assumption
    | with_reducible apply keeps_ite
    | with_reducible apply catInvalidate_keeps
    | exact Nat.le_refl _
    | split
    | with_reducible refine Keeps.of_fst ?_ (by assumption)
    | with_reducible refine keeps_mk ?_ rfl rfl rfl rfl (Nat.le_refl _))

theorem ringProduce_keeps {s₀ s : State} (h : Keeps s₀ s) (b : RingBlk) (q tail : Nat) :
    Keeps s₀ (State.ringProduce s b q tail) := by
  unfold State.ringProduce
  try dsimp only
  repeat' (first
    | with_reducible intro _
    | with_reducible assumption
    | with_reducible apply keeps_ite
    | with_reducible apply producer_keeps
    | exact Nat.le_refl _
    | split
    | with_reducible refine Keeps.of_fst ?_ (by assumption)
    | with_reducible refine keeps_mk ?_ rfl rfl rfl rfl (Nat.le_refl _))

theorem loupeRestart_keeps {s₀ s : State} (h : Keeps s₀ s) (mask : Nat) :
    Keeps s₀ (State.loupeRestart s mask) := by
  unfold State.loupeRestart
  try dsimp only
  repeat' (first
    | with_reducible intro _
    | with_reducible assumption
    | with_reducible apply keeps_ite
    | with_reducible apply lpeRestart_keeps
    | exact Nat.le_refl _
    | split
    | with_reducible refine Keeps.of_fst ?_ (by assumption)
    | with_reducible refine keeps_mk ?_ rfl rfl rfl rfl (Nat.le_refl _))

theorem dblEffect_keeps {s₀ s : State} (h : Keeps s₀ s) (k : Cls) (a v : Nat) :
    Keeps s₀ (State.dblEffect s k a v) := by
  unfold State.dblEffect
  try dsimp only
  repeat' (first
    | with_reducible intro _
    | with_reducible assumption
    | with_reducible apply keeps_ite
    | with_reducible apply doorbellError_keeps
    | with_reducible apply loupeRestart_keeps
    | with_reducible apply ringInvalidate_keeps
    | with_reducible apply ringProduce_keeps
    | exact Nat.le_refl _
    | split
    | with_reducible refine Keeps.of_fst ?_ (by assumption))

theorem ringCtlWrite_keeps {s₀ s : State} (h : Keeps s₀ s) (b : RingBlk) (q v : Nat) :
    Keeps s₀ (State.ringCtlWrite s b q v) := by
  unfold State.ringCtlWrite
  try dsimp only
  repeat' (first
    | with_reducible intro _
    | with_reducible assumption
    | with_reducible apply keeps_ite
    | with_reducible apply abortWaiting_keeps
    | with_reducible apply crrStop_keeps
    | with_reducible apply ethDisable_keeps
    | with_reducible apply ringEnable_keeps
    | with_reducible apply wr_keeps
    | exact Nat.le_refl _
    | split
    | with_reducible refine Keeps.of_fst ?_ (by assumption))

theorem writeAfter_keeps {s₀ s : State} (h : Keeps s₀ s) (a old new : Nat) :
    Keeps s₀ (State.writeAfter s a old new) := by
  unfold State.writeAfter
  try dsimp only
  repeat' (first
    | with_reducible intro _
    | with_reducible assumption
    | with_reducible apply keeps_ite
    | dsimp only
    | with_reducible apply keeps_ite_fst
    | with_reducible apply keeps_foldl_fst
    | with_reducible apply keeps_foldl
    | with_reducible apply linkFalls_keeps
    | with_reducible apply modEth_keeps
    | with_reducible apply serFlush_keeps
    | with_reducible apply setB_keeps
    | with_reducible apply stpFlush_keeps
    | with_reducible apply walConfigured_keeps
    | with_reducible apply walOff_keeps
    | with_reducible apply wr_keeps
    | exact Nat.le_refl _
    | split
    | with_reducible refine Keeps.of_fst ?_ (by assumption)
    | with_reducible refine keeps_mk ?_ rfl rfl rfl rfl (Nat.le_refl _))

theorem regEffect_keeps {s₀ s : State} (h : Keeps s₀ s) (a v : Nat) :
    Keeps s₀ (State.regEffect s a v) := by
  unfold State.regEffect
  try dsimp only
  repeat' (first
    | with_reducible intro _
    | with_reducible assumption
    | with_reducible apply keeps_ite
    | with_reducible apply catDisable_keeps
    | with_reducible apply catEnable_keeps
    | with_reducible apply gclCommit_keeps
    | with_reducible apply lpeWriteCfg_keeps
    | with_reducible apply ringCtlWrite_keeps
    | with_reducible apply wr_keeps
    | with_reducible apply writeAfter_keeps
    | exact Nat.le_refl _
    | split
    | with_reducible refine Keeps.of_fst ?_ (by assumption))

theorem dblStore_keeps {s₀ s : State} (h : Keeps s₀ s) (k : Cls) (a : Nat) (bs : List Byte) :
    Keeps s₀ (State.dblStore s k a bs) := by
  unfold State.dblStore
  try dsimp only
  repeat' (first
    | with_reducible intro _
    | with_reducible assumption
    | with_reducible apply keeps_ite
    | with_reducible apply dblEffect_keeps
    | with_reducible apply doorbellError_keeps
    | exact Nat.le_refl _
    | split
    | with_reducible refine Keeps.of_fst ?_ (by assumption))

end Sys2Proof.Laws
end

