-- ==== Sys2Proof/Laws/Keeps/Fences.lean ====
section
/-! SUPPORT. What the operations and meanings of Machine/Fences.lean keep (`Keeps`). -/

set_option linter.unreachableTactic false
set_option linter.unusedTactic false
set_option linter.unusedVariables false

namespace Sys2Proof.Laws

open Sys2Proof.Machine

theorem inMessage_keeps {s₀ s : State} (h : Keeps s₀ s) (box msg : Nat) :
    Keeps s₀ (State.inMessage s box msg) := by
  unfold State.inMessage
  try dsimp only
  repeat' (first
    | with_reducible intro _
    | with_reducible assumption
    | with_reducible apply keeps_ite
    | with_reducible apply interrupt_keeps
    | exact Nat.le_refl _
    | split
    | with_reducible refine Keeps.of_fst ?_ (by assumption))

theorem inRead_keeps {s₀ s : State} (h : Keeps s₀ s) (d : Nat) (t : CscTxn) :
    Keeps s₀ (State.inRead s d t) := by
  unfold State.inRead
  try dsimp only
  repeat' (first
    | with_reducible intro _
    | with_reducible assumption
    | with_reducible apply keeps_ite
    | with_reducible apply cplOut_keeps
    | with_reducible apply fwRefuse_keeps
    | with_reducible apply lpeFeed_keeps
    | with_reducible apply popRead_keeps
    | with_reducible apply respond_keeps
    | exact Nat.le_refl _
    | split
    | with_reducible refine Keeps.of_fst ?_ (by assumption))

theorem plainStore_keeps {s₀ s : State} (h : Keeps s₀ s) (req : Requester) (a : Nat) (bs : List Byte) :
    Keeps s₀ (State.plainStore s req a bs) := by
  unfold State.plainStore
  try dsimp only
  repeat' (first
    | with_reducible intro _
    | with_reducible assumption
    | with_reducible apply keeps_ite
    | dsimp only
    | with_reducible apply keeps_ite_fst
    | with_reducible apply keeps_foldl_fst
    | with_reducible apply keeps_foldl
    | with_reducible apply dblStore_keeps
    | with_reducible apply farPost_keeps
    | with_reducible apply fwRefuse_keeps
    | with_reducible apply memWrite_keeps
    | with_reducible apply regEffect_keeps
    | exact Nat.le_refl _
    | split
    | with_reducible refine Keeps.of_fst ?_ (by assumption))

theorem popFinish_keeps {s₀ s : State} (h : Keeps s₀ s) (k : Nat) (q : PopQueue) (n : Nat) :
    Keeps s₀ (State.popFinish s k q n) := by
  induction n generalizing s with
  | zero => exact h
  | succ n ih =>
    unfold State.popFinish
    split
    · exact keeps_ite (ih (popNext_keeps (popRemove_keeps h _) _)) h
    · exact h

theorem finishParked_keeps {s₀ s : State} (h : Keeps s₀ s) (h : Nat) (x : Nat × Parked) :
    Keeps s₀ (State.finishParked s h x) := by
  unfold State.finishParked
  try dsimp only
  repeat' (first
    | with_reducible intro _
    | with_reducible assumption
    | with_reducible apply keeps_ite
    | dsimp only
    | with_reducible apply keeps_ite_fst
    | with_reducible apply keeps_foldl_fst
    | with_reducible apply coreStore_keeps
    | with_reducible apply drain_keeps
    | with_reducible apply plainStore_keeps
    | exact Nat.le_refl _
    | split
    | with_reducible refine Keeps.of_fst ?_ (by assumption))

theorem finishCore_keeps {s₀ s : State} (h : Keeps s₀ s) (h : Nat) :
    Keeps s₀ (State.finishCore s h) := by
  unfold State.finishCore
  try dsimp only
  repeat' (first
    | with_reducible intro _
    | with_reducible assumption
    | with_reducible apply keeps_ite
    | dsimp only
    | with_reducible apply keeps_ite_fst
    | with_reducible apply keeps_foldl_fst
    | with_reducible apply keeps_foldl
    | with_reducible apply drain_keeps
    | with_reducible apply dropReads_keeps
    | with_reducible apply finishParked_keeps
    | with_reducible apply grant_keeps
    | with_reducible apply modApp_keeps
    | with_reducible apply popFinish_keeps
    | exact Nat.le_refl _
    | split
    | with_reducible refine Keeps.of_fst ?_ (by assumption))

theorem leaveBuffer_keeps {s₀ s : State} (h : Keeps s₀ s) (x : Option Nat × CscTxn) :
    Keeps s₀ (State.leaveBuffer s x) := by
  unfold State.leaveBuffer
  try dsimp only
  repeat' (first
    | with_reducible intro _
    | with_reducible assumption
    | with_reducible apply keeps_ite
    | dsimp only
    | with_reducible apply keeps_ite_fst
    | with_reducible apply keeps_foldl_fst
    | with_reducible apply creditFree_keeps
    | exact Nat.le_refl _
    | split
    | with_reducible refine Keeps.of_fst ?_ (by assumption))

theorem finishInbound_keeps {s₀ s : State} (h : Keeps s₀ s) (d : Nat) (t : CscTxn) :
    Keeps s₀ (State.finishInbound s d t) := by
  unfold State.finishInbound
  try dsimp only
  repeat' (first
    | with_reducible intro _
    | with_reducible assumption
    | with_reducible apply keeps_ite
    | dsimp only
    | with_reducible apply keeps_ite_fst
    | with_reducible apply keeps_foldl_fst
    | with_reducible apply cplOut_keeps
    | with_reducible apply fwRefuse_keeps
    | with_reducible apply inMessage_keeps
    | with_reducible apply inRead_keeps
    | with_reducible apply inc64_keeps
    | with_reducible apply plainStore_keeps
    | exact Nat.le_refl _
    | split
    | with_reducible refine Keeps.of_fst ?_ (by assumption))

theorem fenceCascade_keeps {s₀ s : State} (h : Keeps s₀ s) :
    Keeps s₀ (State.fenceCascade s) := by
  unfold State.fenceCascade
  try dsimp only
  repeat' (first
    | with_reducible intro _
    | with_reducible assumption
    | with_reducible apply keeps_ite
    | dsimp only
    | with_reducible apply keeps_ite_fst
    | with_reducible apply keeps_foldl_fst
    | with_reducible apply keeps_foldl
    | with_reducible apply dropOpen_keeps
    | with_reducible apply finishInbound_keeps
    | with_reducible apply leaveBuffer_keeps
    | with_reducible apply modCsc_keeps
    | exact Nat.le_refl _
    | split
    | with_reducible refine Keeps.of_fst ?_ (by assumption))

theorem measHalt_keeps {s₀ s : State} (h : Keeps s₀ s) (m : Nat) :
    Keeps s₀ (State.measHalt s m) := by
  unfold State.measHalt
  try dsimp only
  repeat' (first
    | with_reducible intro _
    | with_reducible assumption
    | with_reducible apply keeps_ite
    | with_reducible apply keeps_foldl
    | with_reducible apply measWrite_keeps
    | with_reducible apply modMc_keeps
    | exact Nat.le_refl _
    | split
    | with_reducible refine Keeps.of_fst ?_ (by assumption))

theorem fence_keeps {s₀ s : State} (h : Keeps s₀ s) (blk unit : Nat) :
    Keeps s₀ (State.fence s blk unit) := by
  unfold State.fence
  try dsimp only
  repeat' (first
    | with_reducible intro _
    | with_reducible assumption
    | with_reducible apply keeps_ite
    | dsimp only
    | with_reducible apply keeps_ite_fst
    | with_reducible apply keeps_foldl_fst
    | with_reducible apply keeps_foldl
    | with_reducible apply crrEndChain_keeps
    | with_reducible apply crrWriteBack_keeps
    | with_reducible apply engineDrain_keeps
    | with_reducible apply fenceCascade_keeps
    | with_reducible apply finishCore_keeps
    | with_reducible apply linkFlush_keeps
    | with_reducible apply lpeDrain_keeps
    | with_reducible apply measHalt_keeps
    | with_reducible apply modArc_keeps
    | with_reducible apply modBus_keeps
    | with_reducible apply modEth_keeps
    | with_reducible apply modTriad_keeps
    | with_reducible apply rxDrop_keeps
    | with_reducible apply serFlush_keeps
    | with_reducible apply setF_keeps
    | with_reducible apply stopRefresh_keeps
    | with_reducible apply walOff_keeps
    | with_reducible apply wr_keeps
    | with_reducible apply wr64_keeps
    | exact Nat.le_refl _
    | split
    | with_reducible refine Keeps.of_fst ?_ (by assumption)
    | with_reducible refine keeps_mk ?_ rfl rfl rfl rfl (Nat.le_refl _))

theorem steStart_keeps {s₀ s : State} (h : Keeps s₀ s) (blk unit : Nat) :
    Keeps s₀ (State.steStart s blk unit) := by
  unfold State.steStart
  try dsimp only
  repeat' (first
    | with_reducible intro _
    | with_reducible assumption
    | with_reducible apply keeps_ite
    | with_reducible apply fence_keeps
    | with_reducible apply setF_keeps
    | exact Nat.le_refl _
    | split
    | with_reducible refine Keeps.of_fst ?_ (by assumption))

theorem steRequest_keeps {s₀ s : State} (h : Keeps s₀ s) (blk unit : Nat) :
    Keeps s₀ (State.steRequest s blk unit) := by
  unfold State.steRequest
  try dsimp only
  repeat' (first
    | with_reducible intro _
    | with_reducible assumption
    | with_reducible apply keeps_ite
    | with_reducible apply emit_keeps
    | with_reducible apply inc64_keeps
    | with_reducible apply setF_keeps
    | with_reducible apply steStart_keeps
    | exact Nat.le_refl _
    | split
    | with_reducible refine Keeps.of_fst ?_ (by assumption))

end Sys2Proof.Laws
end

