-- ==== Sys2Proof/Laws/Keeps/Registers.lean ====
section
/-! SUPPORT. What the operations and meanings of Machine/Registers.lean keep (`Keeps`). -/

set_option linter.unreachableTactic false
set_option linter.unusedTactic false
set_option linter.unusedVariables false

namespace Sys2Proof.Laws

open Sys2Proof.Machine

theorem special_keeps {s₀ s : State} (h : Keeps s₀ s) (req : Requester) (a v : Nat) : OptKeeps s₀ (s.special req a v) := by
  unfold State.special
  dsimp only
  repeat' (first
    | with_reducible apply optKeeps_ite
    | with_reducible apply optKeeps_some
    | with_reducible apply optKeeps_none
    | with_reducible assumption
    | with_reducible apply keeps_ite
    | with_reducible intro _
    | with_reducible apply stepAccept_keeps
    | with_reducible apply annGo_keeps
    | with_reducible apply reintWrite_keeps
    | with_reducible apply safeReqWrite_keeps
    | with_reducible apply loanRequest_keeps
    | with_reducible apply loanCancel_keeps
    | with_reducible apply loanReturn_keeps
    | with_reducible apply ackWrite_keeps
    | with_reducible apply brkTestWrite_keeps
    | with_reducible apply permitWrite_keeps
    | with_reducible apply withdrawWrite_keeps
    | with_reducible apply cfgWord_keeps
    | with_reducible apply doneWrite_keeps
    | with_reducible apply ocCancel_keeps
    | with_reducible apply forceUpdWrite_keeps
    | with_reducible apply apcRestart_keeps
    | with_reducible apply syncNow_keeps
    | with_reducible apply syncArm_keeps
    | with_reducible apply syncDisarm_keeps
    | with_reducible apply eraseWrite_keeps
    | with_reducible apply sealWrite_keeps
    | with_reducible apply unsealWrite_keeps
    | with_reducible apply rdSeqWrite_keeps
    | with_reducible apply handoverArm_keeps
    | with_reducible apply handoverCancel_keeps
    | with_reducible apply ringRdWrite_keeps
    | with_reducible apply ocArm_keeps
    | with_reducible apply steRequest_keeps
    | with_reducible apply lcsWord_keeps
    | with_reducible apply freshCtr_keeps
    | with_reducible apply crrStop_keeps
    | with_reducible apply wr_keeps
    | with_reducible apply plainStore_keeps
    | with_reducible apply lpeWrite_keeps
    | split)

theorem special64_keeps {s₀ s : State} (h : Keeps s₀ s) (a : Nat) (bs : List Byte) : OptKeeps s₀ (s.special64 a bs) := by
  unfold State.special64
  dsimp only
  repeat' (first
    | with_reducible apply optKeeps_ite
    | with_reducible apply optKeeps_some
    | with_reducible apply optKeeps_none
    | with_reducible assumption
    | with_reducible apply keeps_ite
    | with_reducible intro _
    | with_reducible apply stepAccept_keeps
    | with_reducible apply annGo_keeps
    | with_reducible apply reintWrite_keeps
    | with_reducible apply safeReqWrite_keeps
    | with_reducible apply loanRequest_keeps
    | with_reducible apply loanCancel_keeps
    | with_reducible apply loanReturn_keeps
    | with_reducible apply ackWrite_keeps
    | with_reducible apply brkTestWrite_keeps
    | with_reducible apply permitWrite_keeps
    | with_reducible apply withdrawWrite_keeps
    | with_reducible apply cfgWord_keeps
    | with_reducible apply doneWrite_keeps
    | with_reducible apply ocCancel_keeps
    | with_reducible apply forceUpdWrite_keeps
    | with_reducible apply apcRestart_keeps
    | with_reducible apply syncNow_keeps
    | with_reducible apply syncArm_keeps
    | with_reducible apply syncDisarm_keeps
    | with_reducible apply eraseWrite_keeps
    | with_reducible apply sealWrite_keeps
    | with_reducible apply unsealWrite_keeps
    | with_reducible apply rdSeqWrite_keeps
    | with_reducible apply handoverArm_keeps
    | with_reducible apply handoverCancel_keeps
    | with_reducible apply ringRdWrite_keeps
    | with_reducible apply ocArm_keeps
    | with_reducible apply steRequest_keeps
    | with_reducible apply lcsWord_keeps
    | with_reducible apply freshCtr_keeps
    | with_reducible apply crrStop_keeps
    | with_reducible apply wr_keeps
    | with_reducible apply plainStore_keeps
    | with_reducible apply lpeWrite_keeps
    | split)

theorem regStore_keeps {s₀ s : State} (h : Keeps s₀ s) (req : Requester) (a : Nat) (bs : List Byte) :
    Keeps s₀ (s.regStore req a bs) := by
  unfold State.regStore
  dsimp only
  refine keeps_ite (fwRefuse_keeps h _ _ _) (keeps_ite (respond_keeps (dblStore_keeps (lpeWrite_keeps h _ _) _ _ _) _ _)
    (keeps_ite (respond_keeps (inc64_keeps h _) _ _) (respond_keeps ?_ _ _)))
  replace h := lpeWrite_keeps h (regPhys a) bs
  split
  · rename_i ht
    exact special64_keeps h _ _ _ ht
  · refine keeps_foldl h fun u x hu => ?_
    split
    · rename_i ht
      exact special_keeps hu _ _ _ _ ht
    · exact regEffect_keeps hu _ _

theorem busWrite_keeps {s₀ s : State} (h : Keeps s₀ s) (req : Requester) (a : Nat) (bs : List Byte) :
    Keeps s₀ (State.busWrite s req a bs) := by
  unfold State.busWrite
  try dsimp only
  repeat' (first
    | with_reducible intro _
    | with_reducible assumption
    | with_reducible apply keeps_ite
    | dsimp only
    | with_reducible apply keeps_ite_fst
    | with_reducible apply keeps_foldl_fst
    | with_reducible apply keeps_foldl
    | with_reducible apply farPost_keeps
    | with_reducible apply memWrite_keeps
    | with_reducible apply regStore_keeps
    | exact Nat.le_refl _
    | split
    | with_reducible refine Keeps.of_fst ?_ (by assumption))

theorem storeNow_keeps {s₀ s : State} (h : Keeps s₀ s) (req : Requester) (a : Nat) (bs : List Byte) :
    Keeps s₀ (State.storeNow s req a bs) := by
  unfold State.storeNow
  try dsimp only
  repeat' (first
    | with_reducible intro _
    | with_reducible assumption
    | with_reducible apply keeps_ite
    | with_reducible apply busWrite_keeps
    | with_reducible apply coreStore_keeps
    | with_reducible apply fwRefuse_keeps
    | with_reducible apply prior_keeps
    | with_reducible apply raise_keeps
    | with_reducible apply respond_keeps
    | with_reducible apply storeTo_keeps
    | exact Nat.le_refl _
    | split
    | with_reducible refine Keeps.of_fst ?_ (by assumption))

theorem anyStore_keeps {s₀ s : State} (h : Keeps s₀ s) (req : Requester) (a : Nat) (bs : List Byte) :
    Keeps s₀ (State.anyStore s req a bs) := by
  unfold State.anyStore
  try dsimp only
  repeat' (first
    | with_reducible intro _
    | with_reducible assumption
    | with_reducible apply keeps_ite
    | with_reducible apply park_keeps
    | with_reducible apply storeNow_keeps
    | exact Nat.le_refl _
    | split
    | with_reducible refine Keeps.of_fst ?_ (by assumption))

theorem unparkOne_keeps {s₀ s : State} (h : Keeps s₀ s) (x : Nat × Parked) :
    Keeps s₀ (State.unparkOne s x) := by
  unfold State.unparkOne
  try dsimp only
  repeat' (first
    | with_reducible intro _
    | with_reducible assumption
    | with_reducible apply keeps_ite
    | with_reducible apply drain_keeps
    | with_reducible apply fence_keeps
    | with_reducible apply park_keeps
    | with_reducible apply popRead_keeps
    | with_reducible apply storeNow_keeps
    | exact Nat.le_refl _
    | split
    | with_reducible refine Keeps.of_fst ?_ (by assumption))

theorem unpark_keeps {s₀ s : State} (h : Keeps s₀ s) :
    Keeps s₀ (State.unpark s) := by
  unfold State.unpark
  try dsimp only
  repeat' (first
    | with_reducible intro _
    | with_reducible assumption
    | with_reducible apply keeps_ite
    | with_reducible apply keeps_foldl
    | with_reducible apply modApp_keeps
    | with_reducible apply unparkOne_keeps
    | exact Nat.le_refl _
    | split
    | with_reducible refine Keeps.of_fst ?_ (by assumption))

theorem releaseStore_keeps {s₀ s : State} (h : Keeps s₀ s) (c : CoreAt) (va : Nat) (bs : List Byte) :
    Keeps s₀ (State.releaseStore s c va bs) := by
  unfold State.releaseStore
  try dsimp only
  repeat' (first
    | with_reducible intro _
    | with_reducible assumption
    | with_reducible apply keeps_ite
    | with_reducible apply anyStore_keeps
    | with_reducible apply modApp_keeps
    | with_reducible apply raise_keeps
    | exact Nat.le_refl _
    | split
    | with_reducible refine Keeps.of_fst ?_ (by assumption))

theorem execCatalogueInvalidate_keeps {s₀ s : State} (h : Keeps s₀ s) (dt : Nat) (req : Requester) (blk : CatBlk) (index : BitVec 16) :
    KeepsOut s₀ (Machine.execCatalogueInvalidate dt req blk index s) := by
  unfold Machine.execCatalogueInvalidate
  try dsimp only
  repeat' (first
    | with_reducible intro _
    | with_reducible assumption
    | with_reducible apply keepsOut_next
    | with_reducible apply keepsOut_fault
    | with_reducible apply keepsOut_ite
    | with_reducible apply keeps_ite
    | with_reducible apply anyStore_keeps
    | with_reducible apply elapse_keeps
    | exact Nat.le_refl _
    | split
    | with_reducible refine Keeps.of_fst ?_ (by assumption))

theorem execRingProducer_keeps {s₀ s : State} (h : Keeps s₀ s) (dt : Nat) (req : Requester) (blk : RingBlk) (ring tail : BitVec 16) :
    KeepsOut s₀ (Machine.execRingProducer dt req blk ring tail s) := by
  unfold Machine.execRingProducer
  try dsimp only
  repeat' (first
    | with_reducible intro _
    | with_reducible assumption
    | with_reducible apply keepsOut_next
    | with_reducible apply keepsOut_fault
    | with_reducible apply keepsOut_ite
    | with_reducible apply keeps_ite
    | with_reducible apply anyStore_keeps
    | with_reducible apply elapse_keeps
    | exact Nat.le_refl _
    | split
    | with_reducible refine Keeps.of_fst ?_ (by assumption))

theorem execLpeRestart_keeps {s₀ s : State} (h : Keeps s₀ s) (dt : Nat) (req : Requester) (mask : Word) :
    KeepsOut s₀ (Machine.execLpeRestart dt req mask s) := by
  unfold Machine.execLpeRestart
  try dsimp only
  repeat' (first
    | with_reducible intro _
    | with_reducible assumption
    | with_reducible apply keepsOut_next
    | with_reducible apply keepsOut_fault
    | with_reducible apply keepsOut_ite
    | with_reducible apply keeps_ite
    | with_reducible apply anyStore_keeps
    | with_reducible apply elapse_keeps
    | exact Nat.le_refl _
    | split
    | with_reducible refine Keeps.of_fst ?_ (by assumption))

theorem execReleaseStore_keeps {s₀ s : State} (h : Keeps s₀ s) (dt : Nat) (core : CoreAt) (addr : Nat) (bytes : List Byte) :
    KeepsOut s₀ (Machine.execReleaseStore dt core addr bytes s) := by
  unfold Machine.execReleaseStore
  try dsimp only
  repeat' (first
    | with_reducible intro _
    | with_reducible assumption
    | with_reducible apply keepsOut_next
    | with_reducible apply keepsOut_fault
    | with_reducible apply keepsOut_ite
    | with_reducible apply keeps_ite
    | with_reducible apply elapse_keeps
    | with_reducible apply releaseStore_keeps
    | exact Nat.le_refl _
    | split
    | with_reducible refine Keeps.of_fst ?_ (by assumption))

theorem execRegisterWrite_keeps {s₀ s : State} (h : Keeps s₀ s) (dt : Nat) (req : Requester) (addr size : Nat) (value : BitVec 64) :
    KeepsOut s₀ (Machine.execRegisterWrite dt req addr size value s) := by
  unfold Machine.execRegisterWrite
  try dsimp only
  repeat' (first
    | with_reducible intro _
    | with_reducible assumption
    | with_reducible apply keepsOut_next
    | with_reducible apply keepsOut_fault
    | with_reducible apply keepsOut_ite
    | with_reducible apply keeps_ite
    | with_reducible apply anyStore_keeps
    | with_reducible apply elapse_keeps
    | exact Nat.le_refl _
    | split
    | with_reducible refine Keeps.of_fst ?_ (by assumption))

end Sys2Proof.Laws
end

