-- ==== Sys2Proof/Laws/Keeps/Move.lean ====
section
/-! SUPPORT. What the operations and meanings of Machine/Move.lean keep (`Keeps`). -/

set_option linter.unreachableTactic false
set_option linter.unusedTactic false
set_option linter.unusedVariables false

namespace Sys2Proof.Laws

open Sys2Proof.Machine

theorem crrStore_keeps {s₀ s : State} (h : Keeps s₀ s) (c : Nat) (a : Nat) (bs : List Byte) :
    Keeps s₀ (State.crrStore c s a bs) := by
  unfold State.crrStore
  try dsimp only
  repeat' (first
    | with_reducible intro _
    | with_reducible assumption
    | with_reducible apply keeps_ite
    | with_reducible apply busWrite_keeps
    | exact Nat.le_refl _
    | split
    | with_reducible refine Keeps.of_fst ?_ (by assumption))

theorem crrDone_keeps {s₀ s : State} (h : Keeps s₀ s) (c : Nat) (x : CrrChain) (data checked : List Byte) :
    Keeps s₀ (State.crrDone s c x data checked) := by
  unfold State.crrDone
  try dsimp only
  repeat' (first
    | with_reducible intro _
    | with_reducible assumption
    | with_reducible apply keeps_ite
    | dsimp only
    | with_reducible apply keeps_ite_fst
    | with_reducible apply keeps_foldl_fst
    | with_reducible apply keeps_foldl
    | with_reducible apply crrEndDesc_keeps
    | with_reducible apply crrMoveBy_keeps
    | with_reducible apply crrStore_keeps
    | with_reducible apply farAsk_keeps
    | with_reducible apply farClear_keeps
    | with_reducible apply setChain_keeps
    | exact Nat.le_refl _
    | split
    | with_reducible refine Keeps.of_fst ?_ (by assumption)
    | with_reducible refine keeps_mk ?_ rfl rfl rfl rfl (Nat.le_refl _))

theorem crrFinish_keeps {s₀ s : State} (h : Keeps s₀ s) (c : Nat) (x : CrrChain) (far : List Byte) (farWord : Nat) :
    Keeps s₀ (State.crrFinish s c x far farWord) := by
  unfold State.crrFinish
  try dsimp only
  repeat' (first
    | with_reducible intro _
    | with_reducible assumption
    | with_reducible apply keeps_ite
    | with_reducible apply crrDone_keeps
    | exact Nat.le_refl _
    | split
    | with_reducible refine Keeps.of_fst ?_ (by assumption))

theorem crrReadBack_keeps {s₀ s : State} (h : Keeps s₀ s) (c : Nat) (x : CrrChain) (equal : Bool) :
    Keeps s₀ (State.crrReadBack s c x equal) := by
  unfold State.crrReadBack
  try dsimp only
  repeat' (first
    | with_reducible intro _
    | with_reducible assumption
    | with_reducible apply keeps_ite
    | dsimp only
    | with_reducible apply keeps_ite_fst
    | with_reducible apply keeps_foldl_fst
    | with_reducible apply crrEndDesc_keeps
    | with_reducible apply farClear_keeps
    | exact Nat.le_refl _
    | split
    | with_reducible refine Keeps.of_fst ?_ (by assumption))

theorem crrMoveErr_keeps {s₀ s : State} (h : Keeps s₀ s) (c : Nat) (x : CrrChain) (st n : Nat) :
    Keeps s₀ (State.crrMoveErr s c x st n) := by
  unfold State.crrMoveErr
  try dsimp only
  repeat' (first
    | with_reducible intro _
    | with_reducible assumption
    | with_reducible apply keeps_ite
    | with_reducible apply crrEndDesc_keeps
    | with_reducible apply crrPartly_keeps
    | with_reducible apply crrRefuse_keeps
    | with_reducible apply crrStore_keeps
    | with_reducible apply farClear_keeps
    | with_reducible apply readLeaves_keeps
    | exact Nat.le_refl _
    | split
    | with_reducible refine Keeps.of_fst ?_ (by assumption))

theorem execCrrDescriptorDone_keeps {s₀ s : State} (h : Keeps s₀ s) (dt : Nat) (c : Fin 16) (far : List Byte) (farWord : Nat) :
    KeepsOut s₀ (Machine.execCrrDescriptorDone dt c far farWord s) := by
  unfold Machine.execCrrDescriptorDone
  try dsimp only
  repeat' (first
    | with_reducible intro _
    | with_reducible assumption
    | with_reducible apply keepsOut_next
    | with_reducible apply keepsOut_fault
    | with_reducible apply keepsOut_ite
    | with_reducible apply keeps_ite
    | with_reducible apply crrFinish_keeps
    | with_reducible apply elapse_keeps
    | exact Nat.le_refl _
    | split
    | with_reducible refine Keeps.of_fst ?_ (by assumption))

theorem execCrrMoveError_keeps {s₀ s : State} (h : Keeps s₀ s) (dt : Nat) (c : Fin 16) (ended : ReadEnd) (bytesMoved : Nat) (_far : List Byte) :
    KeepsOut s₀ (Machine.execCrrMoveError dt c ended bytesMoved _far s) := by
  unfold Machine.execCrrMoveError
  try dsimp only
  repeat' (first
    | with_reducible intro _
    | with_reducible assumption
    | with_reducible apply keepsOut_next
    | with_reducible apply keepsOut_fault
    | with_reducible apply keepsOut_ite
    | with_reducible apply keeps_ite
    | with_reducible apply crrMoveErr_keeps
    | with_reducible apply elapse_keeps
    | exact Nat.le_refl _
    | split
    | with_reducible refine Keeps.of_fst ?_ (by assumption))

theorem execCrrReadbackDone_keeps {s₀ s : State} (h : Keeps s₀ s) (dt : Nat) (c : Fin 16) (equal : Bool) :
    KeepsOut s₀ (Machine.execCrrReadbackDone dt c equal s) := by
  unfold Machine.execCrrReadbackDone
  try dsimp only
  repeat' (first
    | with_reducible intro _
    | with_reducible assumption
    | with_reducible apply keepsOut_next
    | with_reducible apply keepsOut_fault
    | with_reducible apply keepsOut_ite
    | with_reducible apply keeps_ite
    | with_reducible apply crrReadBack_keeps
    | with_reducible apply elapse_keeps
    | exact Nat.le_refl _
    | split
    | with_reducible refine Keeps.of_fst ?_ (by assumption))

theorem execCrrRingDisable_keeps {s₀ s : State} (h : Keeps s₀ s) (dt : Nat) (req : Requester) (c : Fin 16) (bytesMoved : Nat) (_far : List Byte) :
    KeepsOut s₀ (Machine.execCrrRingDisable dt req c bytesMoved _far s) := by
  unfold Machine.execCrrRingDisable
  try dsimp only
  repeat' (first
    | with_reducible intro _
    | with_reducible assumption
    | with_reducible apply keepsOut_next
    | with_reducible apply keepsOut_fault
    | with_reducible apply keepsOut_ite
    | with_reducible apply keeps_ite
    | with_reducible apply crrStop_keeps
    | with_reducible apply crrStore_keeps
    | with_reducible apply elapse_keeps
    | with_reducible apply regCmd_keeps
    | exact Nat.le_refl _
    | split
    | with_reducible refine Keeps.of_fst ?_ (by assumption))

end Sys2Proof.Laws
end

