-- ==== Sys2Proof/Laws/Keeps/Issue.lean ====
section
/-! SUPPORT. What the operations and meanings of Machine/Issue.lean keep (`Keeps`). -/

set_option linter.unreachableTactic false
set_option linter.unusedTactic false
set_option linter.unusedVariables false

namespace Sys2Proof.Laws

open Sys2Proof.Machine

theorem l1Follow_keeps {s₀ s : State} (h : Keeps s₀ s) (t : Txn) :
    Keeps s₀ (State.l1Follow s t) := by
  unfold State.l1Follow
  try dsimp only
  repeat' (first
    | with_reducible intro _
    | with_reducible assumption
    | with_reducible apply keeps_ite
    | dsimp only
    | with_reducible apply keeps_ite_fst
    | with_reducible apply keeps_foldl_fst
    | with_reducible apply keeps_foldl
    | with_reducible apply modLane_keeps
    | exact Nat.le_refl _
    | split
    | with_reducible refine Keeps.of_fst ?_ (by assumption)
    | with_reducible refine keeps_mk ?_ rfl rfl rfl rfl (Nat.le_refl _))

theorem answered_keeps {s₀ s : State} (h : Keeps s₀ s) (v : Nat) :
    Keeps s₀ (State.answered s v) := by
  unfold State.answered
  try dsimp only
  repeat' (first
    | with_reducible intro _
    | with_reducible assumption
    | with_reducible apply keeps_ite
    | with_reducible apply respond_keeps
    | exact Nat.le_refl _
    | split
    | with_reducible refine Keeps.of_fst ?_ (by assumption))

theorem reserve_keeps {s₀ s : State} (h : Keeps s₀ s) (a : Nat) :
    Keeps s₀ (State.reserve s a) := by
  unfold State.reserve
  try dsimp only
  repeat' (first
    | with_reducible intro _
    | with_reducible assumption
    | with_reducible apply keeps_ite
    | with_reducible apply modTriad_keeps
    | exact Nat.le_refl _
    | split
    | with_reducible refine Keeps.of_fst ?_ (by assumption))

theorem unreserve_keeps {s₀ s : State} (h : Keeps s₀ s) :
    Keeps s₀ (State.unreserve s) := by
  unfold State.unreserve
  try dsimp only
  repeat' (first
    | with_reducible intro _
    | with_reducible assumption
    | with_reducible apply keeps_ite
    | with_reducible apply modTriad_keeps
    | exact Nat.le_refl _
    | split
    | with_reducible refine Keeps.of_fst ?_ (by assumption))

theorem voteBlock_keeps {s₀ s : State} (h : Keeps s₀ s) (t : Txn) :
    Keeps s₀ (State.voteBlock s t) := by
  unfold State.voteBlock
  try dsimp only
  repeat' (first
    | with_reducible intro _
    | with_reducible assumption
    | with_reducible apply keeps_ite
    | with_reducible apply answered_keeps
    | with_reducible apply anyStore_keeps
    | with_reducible apply popRead_keeps
    | with_reducible apply raise_keeps
    | with_reducible apply reserve_keeps
    | with_reducible apply respond_keeps
    | with_reducible apply toLanes_keeps
    | with_reducible apply unreserve_keeps
    | exact Nat.le_refl _
    | split
    | with_reducible refine Keeps.of_fst ?_ (by assumption)
    | with_reducible refine keeps_mk ?_ rfl rfl rfl rfl (Nat.le_refl _))

theorem voteMemory_keeps {s₀ s : State} (h : Keeps s₀ s) (t : Txn) :
    Keeps s₀ (State.voteMemory s t) := by
  unfold State.voteMemory
  try dsimp only
  repeat' (first
    | with_reducible intro _
    | with_reducible assumption
    | with_reducible apply keeps_ite
    | dsimp only
    | with_reducible apply keeps_ite_fst
    | with_reducible apply keeps_foldl_fst
    | with_reducible apply keeps_foldl
    | with_reducible apply memWrite_keeps
    | with_reducible apply reserve_keeps
    | with_reducible apply respond_keeps
    | with_reducible apply unreserve_keeps
    | exact Nat.le_refl _
    | split
    | with_reducible refine Keeps.of_fst ?_ (by assumption))

theorem voteTarget_keeps {s₀ s : State} (h : Keeps s₀ s) (t : Txn) :
    Keeps s₀ (State.voteTarget s t) := by
  unfold State.voteTarget
  try dsimp only
  repeat' (first
    | with_reducible intro _
    | with_reducible assumption
    | with_reducible apply keeps_ite
    | with_reducible apply farAmo_keeps
    | with_reducible apply farPost_keeps
    | with_reducible apply farRead_keeps
    | with_reducible apply fwRefuse_keeps
    | with_reducible apply raise_keeps
    | with_reducible apply respond_keeps
    | with_reducible apply toLanes_keeps
    | with_reducible apply voteBlock_keeps
    | with_reducible apply voteMemory_keeps
    | exact Nat.le_refl _
    | split
    | with_reducible refine Keeps.of_fst ?_ (by assumption))

theorem issueTxn_keeps {s₀ s : State} (h : Keeps s₀ s) (t : Txn) :
    Keeps s₀ (State.issueTxn s t) := by
  unfold State.issueTxn
  try dsimp only
  repeat' (first
    | with_reducible intro _
    | with_reducible assumption
    | with_reducible apply keeps_ite
    | with_reducible apply inc64_keeps
    | with_reducible apply l1Follow_keeps
    | with_reducible apply modTriad_keeps
    | with_reducible apply voteTarget_keeps
    | exact Nat.le_refl _
    | split
    | with_reducible refine Keeps.of_fst ?_ (by assumption))

theorem issueOpt_keeps {s₀ s : State} (h : Keeps s₀ s) (t : Option Txn) : Keeps s₀ (s.issueOpt t) := by
  cases t with
  | none => exact h
  | some t => exact issueTxn_keeps (keeps_foldl h fun _ _ hu => modLane_keeps hu _ _) t

theorem place_keeps {s₀ s : State} (h : Keeps s₀ s) (b : Ballot) :
    Keeps s₀ (State.place s b) := by
  unfold State.place
  try dsimp only
  repeat' (first
    | with_reducible intro _
    | with_reducible assumption
    | with_reducible apply keeps_ite
    | with_reducible apply keeps_foldl
    | with_reducible apply modLane_keeps
    | exact Nat.le_refl _
    | split
    | with_reducible refine Keeps.of_fst ?_ (by assumption))

theorem maskMinority_keeps {s₀ s : State} (h : Keeps s₀ s) (lane : Nat) (mine major : Option Txn) :
    Keeps s₀ (State.maskMinority s lane mine major) := by
  unfold State.maskMinority
  try dsimp only
  repeat' (first
    | with_reducible intro _
    | with_reducible assumption
    | with_reducible apply keeps_ite
    | with_reducible apply maskLane_keeps
    | exact Nat.le_refl _
    | split
    | with_reducible refine Keeps.of_fst ?_ (by assumption))

theorem voteHeads_keeps {s₀ s : State} (h : Keeps s₀ s) (agree : Bool) :
    Keeps s₀ (State.voteHeads s agree) := by
  unfold State.voteHeads
  try dsimp only
  repeat' (first
    | with_reducible intro _
    | with_reducible assumption
    | with_reducible apply keeps_ite
    | with_reducible apply issueOpt_keeps
    | with_reducible apply maskMinority_keeps
    | with_reducible apply triadSafe_keeps
    | exact Nat.le_refl _
    | split
    | with_reducible refine Keeps.of_fst ?_ (by assumption))

theorem vote_keeps {s₀ s : State} (h : Keeps s₀ s) (b : Ballot) :
    Keeps s₀ (State.vote s b) := by
  unfold State.vote
  try dsimp only
  repeat' (first
    | with_reducible intro _
    | with_reducible assumption
    | with_reducible apply keeps_ite
    | with_reducible apply place_keeps
    | with_reducible apply voteHeads_keeps
    | exact Nat.le_refl _
    | split
    | with_reducible refine Keeps.of_fst ?_ (by assumption))

theorem voteLate_keeps {s₀ s : State} (h : Keeps s₀ s) (b : Ballot) :
    Keeps s₀ (State.voteLate s b) := by
  unfold State.voteLate
  try dsimp only
  repeat' (first
    | with_reducible intro _
    | with_reducible assumption
    | with_reducible apply keeps_ite
    | with_reducible apply place_keeps
    | with_reducible apply voteHeads_keeps
    | exact Nat.le_refl _
    | split
    | with_reducible refine Keeps.of_fst ?_ (by assumption))

theorem execVoteDecision_keeps {s₀ s : State} (h : Keeps s₀ s) (dt : Nat) (b : Ballot) :
    KeepsOut s₀ (Machine.execVoteDecision dt b s) := by
  unfold Machine.execVoteDecision
  try dsimp only
  repeat' (first
    | with_reducible intro _
    | with_reducible assumption
    | with_reducible apply keepsOut_next
    | with_reducible apply keepsOut_fault
    | with_reducible apply keepsOut_ite
    | with_reducible apply keeps_ite
    | with_reducible apply elapse_keeps
    | with_reducible apply vote_keeps
    | exact Nat.le_refl _
    | split
    | with_reducible refine Keeps.of_fst ?_ (by assumption))

theorem execVoteTimeout_keeps {s₀ s : State} (h : Keeps s₀ s) (dt : Nat) (b : Ballot) :
    KeepsOut s₀ (Machine.execVoteTimeout dt b s) := by
  unfold Machine.execVoteTimeout
  try dsimp only
  repeat' (first
    | with_reducible intro _
    | with_reducible assumption
    | with_reducible apply keepsOut_next
    | with_reducible apply keepsOut_fault
    | with_reducible apply keepsOut_ite
    | with_reducible apply keeps_ite
    | with_reducible apply elapse_keeps
    | with_reducible apply voteLate_keeps
    | exact Nat.le_refl _
    | split
    | with_reducible refine Keeps.of_fst ?_ (by assumption))

theorem execPopResponseAccepted_keeps {s₀ s : State} (h : Keeps s₀ s) (dt : Nat) (q : PopQueue) :
    KeepsOut s₀ (Machine.execPopResponseAccepted dt q s) := by
  unfold Machine.execPopResponseAccepted
  try dsimp only
  repeat' (first
    | with_reducible intro _
    | with_reducible assumption
    | with_reducible apply keepsOut_next
    | with_reducible apply keepsOut_fault
    | with_reducible apply keepsOut_ite
    | with_reducible apply keeps_ite
    | with_reducible apply elapse_keeps
    | with_reducible apply enter_keeps
    | with_reducible apply popNext_keeps
    | with_reducible apply popRemove_keeps
    | with_reducible apply unpark_keeps
    | exact Nat.le_refl _
    | split
    | with_reducible refine Keeps.of_fst ?_ (by assumption))

theorem execPopResponseDiscarded_keeps {s₀ s : State} (h : Keeps s₀ s) (dt : Nat) (q : PopQueue) :
    KeepsOut s₀ (Machine.execPopResponseDiscarded dt q s) := by
  unfold Machine.execPopResponseDiscarded
  try dsimp only
  repeat' (first
    | with_reducible intro _
    | with_reducible assumption
    | with_reducible apply keepsOut_next
    | with_reducible apply keepsOut_fault
    | with_reducible apply keepsOut_ite
    | with_reducible apply keeps_ite
    | with_reducible apply elapse_keeps
    | with_reducible apply popNext_keeps
    | with_reducible apply unpark_keeps
    | exact Nat.le_refl _
    | split
    | with_reducible refine Keeps.of_fst ?_ (by assumption))

end Sys2Proof.Laws
end

