-- ==== Sys2Proof/Laws/Keeps/Cascade.lean ====
section
/-! SUPPORT. What the operations and meanings of Machine/Cascade.lean keep (`Keeps`). -/

set_option linter.unreachableTactic false
set_option linter.unusedTactic false
set_option linter.unusedVariables false

namespace Sys2Proof.Laws

open Sys2Proof.Machine

theorem inWrite_keeps {s₀ s : State} (h : Keeps s₀ s) (t : CscTxn) :
    Keeps s₀ (State.inWrite s t) := by
  unfold State.inWrite
  try dsimp only
  repeat' (first
    | with_reducible intro _
    | with_reducible assumption
    | with_reducible apply keeps_ite
    | with_reducible apply busWrite_keeps
    | with_reducible apply fwRefuse_keeps
    | with_reducible apply inc64_keeps
    | exact Nat.le_refl _
    | split
    | with_reducible refine Keeps.of_fst ?_ (by assumption)
    | with_reducible refine keeps_mk ?_ rfl rfl rfl rfl (Nat.le_refl _))

theorem inAmo_keeps {s₀ s : State} (h : Keeps s₀ s) (d : Nat) (t : CscTxn) :
    Keeps s₀ (State.inAmo s d t) := by
  unfold State.inAmo
  try dsimp only
  repeat' (first
    | with_reducible intro _
    | with_reducible assumption
    | with_reducible apply keeps_ite
    | with_reducible apply busWrite_keeps
    | with_reducible apply cplOut_keeps
    | with_reducible apply fwRefuse_keeps
    | with_reducible apply modCsc_keeps
    | with_reducible apply respond_keeps
    | exact Nat.le_refl _
    | split
    | with_reducible refine Keeps.of_fst ?_ (by assumption)
    | with_reducible refine keeps_mk ?_ rfl rfl rfl rfl (Nat.le_refl _))

theorem inPerform_keeps {s₀ s : State} (h : Keeps s₀ s) (d : Nat) (t : CscTxn) :
    Keeps s₀ (State.inPerform s d t) := by
  unfold State.inPerform
  try dsimp only
  repeat' (first
    | with_reducible intro _
    | with_reducible assumption
    | with_reducible apply keeps_ite
    | dsimp only
    | with_reducible apply keeps_ite_fst
    | with_reducible apply keeps_foldl_fst
    | with_reducible apply inAmo_keeps
    | with_reducible apply inMessage_keeps
    | with_reducible apply inRead_keeps
    | with_reducible apply inWrite_keeps
    | exact Nat.le_refl _
    | split
    | with_reducible refine Keeps.of_fst ?_ (by assumption))

theorem admitWaiting_keeps {s₀ s : State} (h : Keeps s₀ s) :
    Keeps s₀ (State.admitWaiting s) := by
  unfold State.admitWaiting
  try dsimp only
  repeat' (first
    | with_reducible intro _
    | with_reducible assumption
    | with_reducible apply keeps_ite
    | dsimp only
    | with_reducible apply keeps_ite_fst
    | with_reducible apply keeps_foldl_fst
    | with_reducible apply keeps_foldl
    | with_reducible apply inPerform_keeps
    | with_reducible apply leaveBuffer_keeps
    | with_reducible apply modCsc_keeps
    | exact Nat.le_refl _
    | split
    | with_reducible refine Keeps.of_fst ?_ (by assumption))

theorem grantLock_keeps {s₀ s : State} (h : Keeps s₀ s) (p : Nat) :
    Keeps s₀ (State.grantLock s p) := by
  unfold State.grantLock
  try dsimp only
  repeat' (first
    | with_reducible intro _
    | with_reducible assumption
    | with_reducible apply keeps_ite
    | with_reducible apply modCsc_keeps
    | with_reducible apply postedOut_keeps
    | exact Nat.le_refl _
    | split
    | with_reducible refine Keeps.of_fst ?_ (by assumption))

theorem lockEnd_keeps {s₀ s : State} (h : Keeps s₀ s) :
    Keeps s₀ (State.lockEnd s) := by
  unfold State.lockEnd
  try dsimp only
  repeat' (first
    | with_reducible intro _
    | with_reducible assumption
    | with_reducible apply keeps_ite
    | dsimp only
    | with_reducible apply keeps_ite_fst
    | with_reducible apply keeps_foldl_fst
    | with_reducible apply keeps_foldl
    | with_reducible apply admitWaiting_keeps
    | with_reducible apply grantLock_keeps
    | with_reducible apply modCsc_keeps
    | with_reducible apply postedOut_keeps
    | exact Nat.le_refl _
    | split
    | with_reducible refine Keeps.of_fst ?_ (by assumption))

theorem lockWatch_keeps {s₀ s : State} (h : Keeps s₀ s) :
    Keeps s₀ (State.lockWatch s) := by
  unfold State.lockWatch
  try dsimp only
  repeat' (first
    | with_reducible intro _
    | with_reducible assumption
    | with_reducible apply keeps_ite
    | with_reducible apply cplOut_keeps
    | with_reducible apply inc64_keeps
    | with_reducible apply lockEnd_keeps
    | exact Nat.le_refl _
    | split
    | with_reducible refine Keeps.of_fst ?_ (by assumption))

theorem inbound_keeps {s₀ s : State} (h : Keeps s₀ s) (d : Nat) (t : CscTxn) :
    Keeps s₀ (State.inbound s d t) := by
  unfold State.inbound
  try dsimp only
  repeat' (first
    | with_reducible intro _
    | with_reducible assumption
    | with_reducible apply keeps_ite
    | dsimp only
    | with_reducible apply keeps_ite_fst
    | with_reducible apply keeps_foldl_fst
    | with_reducible apply creditHold_keeps
    | with_reducible apply creditUse_keeps
    | with_reducible apply inPerform_keeps
    | with_reducible apply inc64_keeps
    | with_reducible apply lockWatch_keeps
    | with_reducible apply lpeFeed_keeps
    | with_reducible apply modCsc_keeps
    | exact Nat.le_refl _
    | split
    | with_reducible refine Keeps.of_fst ?_ (by assumption))

theorem lockReq_keeps {s₀ s : State} (h : Keeps s₀ s) (p : Nat) :
    Keeps s₀ (State.lockReq s p) := by
  unfold State.lockReq
  try dsimp only
  repeat' (first
    | with_reducible intro _
    | with_reducible assumption
    | with_reducible apply keeps_ite
    | with_reducible apply admitWaiting_keeps
    | with_reducible apply grantLock_keeps
    | with_reducible apply lockWatch_keeps
    | with_reducible apply modCsc_keeps
    | with_reducible apply postedOut_keeps
    | with_reducible apply sideBandIn_keeps
    | exact Nat.le_refl _
    | split
    | with_reducible refine Keeps.of_fst ?_ (by assumption)
    | with_reducible refine keeps_mk ?_ rfl rfl rfl rfl (Nat.le_refl _))

theorem lockGranted_keeps {s₀ s : State} (h : Keeps s₀ s) (retried : Bool) :
    Keeps s₀ (State.lockGranted s retried) := by
  unfold State.lockGranted
  try dsimp only
  repeat' (first
    | with_reducible intro _
    | with_reducible assumption
    | with_reducible apply keeps_ite
    | with_reducible apply inc64_keeps
    | with_reducible apply modCsc_keeps
    | with_reducible apply sendNp_keeps
    | with_reducible apply sideBandIn_keeps
    | exact Nat.le_refl _
    | split
    | with_reducible refine Keeps.of_fst ?_ (by assumption))

theorem lockLost_keeps {s₀ s : State} (h : Keeps s₀ s) :
    Keeps s₀ (State.lockLost s) := by
  unfold State.lockLost
  try dsimp only
  repeat' (first
    | with_reducible intro _
    | with_reducible assumption
    | with_reducible apply keeps_ite
    | with_reducible apply endTag_keeps
    | with_reducible apply farGot_keeps
    | with_reducible apply inc64_keeps
    | with_reducible apply modCsc_keeps
    | with_reducible apply nextAmo_keeps
    | exact Nat.le_refl _
    | split
    | with_reducible refine Keeps.of_fst ?_ (by assumption))

theorem audit_keeps {s₀ s : State} (h : Keeps s₀ s) (d : Nat) (consumed : List Nat) :
    Keeps s₀ (State.audit s d consumed) := by
  unfold State.audit
  try dsimp only
  repeat' (first
    | with_reducible intro _
    | with_reducible assumption
    | with_reducible apply keeps_ite
    | with_reducible apply add64_keeps
    | with_reducible apply cscEvent_keeps
    | with_reducible apply inc64_keeps
    | with_reducible apply linkFalls_keeps
    | with_reducible apply sideBandIn_keeps
    | exact Nat.le_refl _
    | split
    | with_reducible refine Keeps.of_fst ?_ (by assumption))

theorem invCollected_keeps {s₀ s : State} (h : Keeps s₀ s) (slots : List InvSlot) :
    Keeps s₀ (State.invCollected s slots) := by
  unfold State.invCollected
  try dsimp only
  repeat' (first
    | with_reducible intro _
    | with_reducible assumption
    | with_reducible apply keeps_ite
    | with_reducible apply keeps_foldl
    | with_reducible apply cscEvent_keeps
    | with_reducible apply devWrite_keeps
    | with_reducible apply invAsk_keeps
    | with_reducible apply modCsc_keeps
    | with_reducible apply wr_keeps
    | exact Nat.le_refl _
    | split
    | with_reducible refine Keeps.of_fst ?_ (by assumption))

theorem execCscLink_keeps {s₀ s : State} (h : Keeps s₀ s) (dt : Nat) (down : Fin 2) (e : LinkEvent) :
    KeepsOut s₀ (Machine.execCscLink dt down e s) := by
  unfold Machine.execCscLink
  try dsimp only
  repeat' (first
    | with_reducible intro _
    | with_reducible assumption
    | with_reducible apply keepsOut_next
    | with_reducible apply keepsOut_fault
    | with_reducible apply keepsOut_ite
    | with_reducible apply keeps_ite
    | with_reducible apply elapse_keeps
    | with_reducible apply linkBeyond_keeps
    | with_reducible apply linkFalls_keeps
    | with_reducible apply linkUpEvent_keeps
    | with_reducible apply popsFreed_keeps
    | with_reducible apply setF_keeps
    | exact Nat.le_refl _
    | split
    | with_reducible refine Keeps.of_fst ?_ (by assumption))

theorem execCscMemberRx_keeps {s₀ s : State} (h : Keeps s₀ s) (dt : Nat) (vec : BitVec 8) :
    KeepsOut s₀ (Machine.execCscMemberRx dt vec s) := by
  unfold Machine.execCscMemberRx
  try dsimp only
  repeat' (first
    | with_reducible intro _
    | with_reducible assumption
    | with_reducible apply keepsOut_next
    | with_reducible apply keepsOut_fault
    | with_reducible apply keepsOut_ite
    | with_reducible apply keeps_ite
    | with_reducible apply elapse_keeps
    | with_reducible apply modCsc_keeps
    | with_reducible apply sideBandIn_keeps
    | exact Nat.le_refl _
    | split
    | with_reducible refine Keeps.of_fst ?_ (by assumption))

theorem execCscInboundTransaction_keeps {s₀ s : State} (h : Keeps s₀ s) (dt : Nat) (down : Fin 2) (t : CscTxn) :
    KeepsOut s₀ (Machine.execCscInboundTransaction dt down t s) := by
  unfold Machine.execCscInboundTransaction
  try dsimp only
  repeat' (first
    | with_reducible intro _
    | with_reducible assumption
    | with_reducible apply keepsOut_next
    | with_reducible apply keepsOut_fault
    | with_reducible apply keepsOut_ite
    | with_reducible apply keeps_ite
    | with_reducible apply elapse_keeps
    | with_reducible apply inbound_keeps
    | exact Nat.le_refl _
    | split
    | with_reducible refine Keeps.of_fst ?_ (by assumption))

theorem execCscCompletionRx_keeps {s₀ s : State} (h : Keeps s₀ s) (dt : Nat) (down : Fin 2) (tag status : Nat) (data : List Byte) :
    KeepsOut s₀ (Machine.execCscCompletionRx dt down tag status data s) := by
  unfold Machine.execCscCompletionRx
  try dsimp only
  repeat' (first
    | with_reducible intro _
    | with_reducible assumption
    | with_reducible apply keepsOut_next
    | with_reducible apply keepsOut_fault
    | with_reducible apply keepsOut_ite
    | with_reducible apply keeps_ite
    | with_reducible apply creditUse_keeps
    | with_reducible apply elapse_keeps
    | with_reducible apply endTag_keeps
    | with_reducible apply inc64_keeps
    | with_reducible apply lpeFeed_keeps
    | exact Nat.le_refl _
    | split
    | with_reducible refine Keeps.of_fst ?_ (by assumption))

theorem execCscReadTimeout_keeps {s₀ s : State} (h : Keeps s₀ s) (dt : Nat) (down : Fin 2) (tag : Nat) :
    KeepsOut s₀ (Machine.execCscReadTimeout dt down tag s) := by
  unfold Machine.execCscReadTimeout
  try dsimp only
  repeat' (first
    | with_reducible intro _
    | with_reducible assumption
    | with_reducible apply keepsOut_next
    | with_reducible apply keepsOut_fault
    | with_reducible apply keepsOut_ite
    | with_reducible apply keeps_ite
    | with_reducible apply elapse_keeps
    | with_reducible apply endTag_keeps
    | with_reducible apply inc64_keeps
    | exact Nat.le_refl _
    | split
    | with_reducible refine Keeps.of_fst ?_ (by assumption))

theorem execCscLockReq_keeps {s₀ s : State} (h : Keeps s₀ s) (dt : Nat) (pos : Fin 8) :
    KeepsOut s₀ (Machine.execCscLockReq dt pos s) := by
  unfold Machine.execCscLockReq
  try dsimp only
  repeat' (first
    | with_reducible intro _
    | with_reducible assumption
    | with_reducible apply keepsOut_next
    | with_reducible apply keepsOut_fault
    | with_reducible apply keepsOut_ite
    | with_reducible apply keeps_ite
    | with_reducible apply elapse_keeps
    | with_reducible apply lockReq_keeps
    | exact Nat.le_refl _
    | split
    | with_reducible refine Keeps.of_fst ?_ (by assumption))

theorem execCscLockRelease_keeps {s₀ s : State} (h : Keeps s₀ s) (dt : Nat) :
    KeepsOut s₀ (Machine.execCscLockRelease dt s) := by
  unfold Machine.execCscLockRelease
  try dsimp only
  repeat' (first
    | with_reducible intro _
    | with_reducible assumption
    | with_reducible apply keepsOut_next
    | with_reducible apply keepsOut_fault
    | with_reducible apply keepsOut_ite
    | with_reducible apply keeps_ite
    | with_reducible apply elapse_keeps
    | with_reducible apply lockEnd_keeps
    | exact Nat.le_refl _
    | split
    | with_reducible refine Keeps.of_fst ?_ (by assumption))

theorem execCscLockWatchdog_keeps {s₀ s : State} (h : Keeps s₀ s) (dt : Nat) (asTarget : Bool) :
    KeepsOut s₀ (Machine.execCscLockWatchdog dt asTarget s) := by
  unfold Machine.execCscLockWatchdog
  try dsimp only
  repeat' (first
    | with_reducible intro _
    | with_reducible assumption
    | with_reducible apply keepsOut_next
    | with_reducible apply keepsOut_fault
    | with_reducible apply keepsOut_ite
    | with_reducible apply keeps_ite
    | with_reducible apply elapse_keeps
    | with_reducible apply lockLost_keeps
    | with_reducible apply lockWatch_keeps
    | exact Nat.le_refl _
    | split
    | with_reducible refine Keeps.of_fst ?_ (by assumption))

theorem execCscLockGrantRx_keeps {s₀ s : State} (h : Keeps s₀ s) (dt : Nat) (retried : Bool) :
    KeepsOut s₀ (Machine.execCscLockGrantRx dt retried s) := by
  unfold Machine.execCscLockGrantRx
  try dsimp only
  repeat' (first
    | with_reducible intro _
    | with_reducible assumption
    | with_reducible apply keepsOut_next
    | with_reducible apply keepsOut_fault
    | with_reducible apply keepsOut_ite
    | with_reducible apply keeps_ite
    | dsimp only
    | with_reducible apply keeps_ite_fst
    | with_reducible apply keeps_foldl_fst
    | with_reducible apply elapse_keeps
    | with_reducible apply lockGranted_keeps
    | exact Nat.le_refl _
    | split
    | with_reducible refine Keeps.of_fst ?_ (by assumption))

theorem execCscAuditRx_keeps {s₀ s : State} (h : Keeps s₀ s) (dt : Nat) (down : Fin 2) (consumed : List Nat) :
    KeepsOut s₀ (Machine.execCscAuditRx dt down consumed s) := by
  unfold Machine.execCscAuditRx
  try dsimp only
  repeat' (first
    | with_reducible intro _
    | with_reducible assumption
    | with_reducible apply keepsOut_next
    | with_reducible apply keepsOut_fault
    | with_reducible apply keepsOut_ite
    | with_reducible apply keeps_ite
    | with_reducible apply audit_keeps
    | with_reducible apply elapse_keeps
    | exact Nat.le_refl _
    | split
    | with_reducible refine Keeps.of_fst ?_ (by assumption))

theorem execCscSyncAtRx_keeps {s₀ s : State} (h : Keeps s₀ s) (dt instant : Nat) :
    KeepsOut s₀ (Machine.execCscSyncAtRx dt instant s) := by
  unfold Machine.execCscSyncAtRx
  try dsimp only
  repeat' (first
    | with_reducible intro _
    | with_reducible assumption
    | with_reducible apply keepsOut_next
    | with_reducible apply keepsOut_fault
    | with_reducible apply keepsOut_ite
    | with_reducible apply keeps_ite
    | with_reducible apply elapse_keeps
    | with_reducible apply sideBandIn_keeps
    | with_reducible apply syncForwarded_keeps
    | exact Nat.le_refl _
    | split
    | with_reducible refine Keeps.of_fst ?_ (by assumption))

theorem execCscAnnounceRx_keeps {s₀ s : State} (h : Keeps s₀ s) (dt : Nat) (a : Announce) :
    KeepsOut s₀ (Machine.execCscAnnounceRx dt a s) := by
  unfold Machine.execCscAnnounceRx
  try dsimp only
  repeat' (first
    | with_reducible intro _
    | with_reducible assumption
    | with_reducible apply keepsOut_next
    | with_reducible apply keepsOut_fault
    | with_reducible apply keepsOut_ite
    | with_reducible apply keeps_ite
    | with_reducible apply announce_keeps
    | with_reducible apply elapse_keeps
    | with_reducible apply sideBandIn_keeps
    | exact Nat.le_refl _
    | split
    | with_reducible refine Keeps.of_fst ?_ (by assumption))

theorem execCscInvCollected_keeps {s₀ s : State} (h : Keeps s₀ s) (dt : Nat) (slots : List InvSlot) :
    KeepsOut s₀ (Machine.execCscInvCollected dt slots s) := by
  unfold Machine.execCscInvCollected
  try dsimp only
  repeat' (first
    | with_reducible intro _
    | with_reducible assumption
    | with_reducible apply keepsOut_next
    | with_reducible apply keepsOut_fault
    | with_reducible apply keepsOut_ite
    | with_reducible apply keeps_ite
    | with_reducible apply elapse_keeps
    | with_reducible apply invCollected_keeps
    | exact Nat.le_refl _
    | split
    | with_reducible refine Keeps.of_fst ?_ (by assumption))

end Sys2Proof.Laws
end

