-- ==== Sys2Proof/Laws/Keeps/SelfTest.lean ====
section
/-! SUPPORT. What the operations and meanings of Machine/SelfTest.lean keep (`Keeps`). -/

set_option linter.unreachableTactic false
set_option linter.unusedTactic false
set_option linter.unusedVariables false

namespace Sys2Proof.Laws

open Sys2Proof.Machine

theorem unitRestore_keeps {s₀ s : State} (h : Keeps s₀ s) (blk unit : Nat) :
    Keeps s₀ (State.unitRestore s blk unit) := by
  unfold State.unitRestore
  try dsimp only
  repeat' (first
    | with_reducible intro _
    | with_reducible assumption
    | with_reducible apply keeps_ite
    | with_reducible apply catEnable_keeps
    | with_reducible apply lpeFresh_keeps
    | with_reducible apply lpeSet_keeps
    | with_reducible apply restartCore_keeps
    | with_reducible apply setF_keeps
    | with_reducible apply startLoanTc_keeps
    | with_reducible apply wr_keeps
    | exact Nat.le_refl _
    | split
    | with_reducible refine Keeps.of_fst ?_ (by assumption))

theorem unitHold_keeps {s₀ s : State} (h : Keeps s₀ s) (blk unit : Nat) :
    Keeps s₀ (State.unitHold s blk unit) := by
  unfold State.unitHold
  try dsimp only
  repeat' (first
    | with_reducible intro _
    | with_reducible assumption
    | with_reducible apply keeps_ite
    | with_reducible apply keeps_foldl
    | with_reducible apply catDisable_keeps
    | with_reducible apply linkFalls_keeps
    | with_reducible apply modTriad_keeps
    | with_reducible apply ringCtlWrite_keeps
    | with_reducible apply setB_keeps
    | with_reducible apply setF_keeps
    | with_reducible apply wr_keeps
    | exact Nat.le_refl _
    | split
    | with_reducible refine Keeps.of_fst ?_ (by assumption)
    | with_reducible refine keeps_mk ?_ rfl rfl rfl rfl (Nat.le_refl _))

theorem actDeferred_keeps {s₀ s : State} (h : Keeps s₀ s) (d : Deferred) : Keeps s₀ (s.actDeferred d) := by
  cases d with
  | ring b q tail => exact producer_keeps h _ _ _
  | lpeRestart mask => exact lpeRestart_keeps h _
  | invalidate b i k => exact catInvalidate_keeps h _ _ _

theorem steEnd_keeps {s₀ s : State} (h : Keeps s₀ s) (passed : Bool) (sig : Nat) :
    Keeps s₀ (State.steEnd s passed sig) := by
  unfold State.steEnd
  try dsimp only
  repeat' (first
    | with_reducible intro _
    | with_reducible assumption
    | with_reducible apply keeps_ite
    | with_reducible apply keeps_foldl
    | with_reducible apply actDeferred_keeps
    | with_reducible apply emit_keeps
    | with_reducible apply inc64_keeps
    | with_reducible apply prvModule_keeps
    | with_reducible apply setF_keeps
    | with_reducible apply unitHold_keeps
    | with_reducible apply unitRestore_keeps
    | with_reducible apply wr_keeps
    | with_reducible apply wr64_keeps
    | exact Nat.le_refl _
    | split
    | with_reducible refine Keeps.of_fst ?_ (by assumption)
    | with_reducible refine keeps_mk ?_ rfl rfl rfl rfl (Nat.le_refl _))

theorem execSteReqWrite_keeps {s₀ s : State} (h : Keeps s₀ s) (dt : Nat) (req : Requester) (key : Byte) (blk : BitVec 8) (unit : Fin 16) :
    KeepsOut s₀ (Machine.execSteReqWrite dt req key blk unit s) := by
  unfold Machine.execSteReqWrite
  try dsimp only
  repeat' (first
    | with_reducible intro _
    | with_reducible assumption
    | with_reducible apply keepsOut_next
    | with_reducible apply keepsOut_fault
    | with_reducible apply keepsOut_ite
    | with_reducible apply keeps_ite
    | with_reducible apply elapse_keeps
    | with_reducible apply regCmd_keeps
    | with_reducible apply steRequest_keeps
    | exact Nat.le_refl _
    | split
    | with_reducible refine Keeps.of_fst ?_ (by assumption))

theorem execSteTest_keeps {s₀ s : State} (h : Keeps s₀ s) (dt : Nat) (passed : Bool) (sig : BitVec 64) :
    KeepsOut s₀ (Machine.execSteTest dt passed sig s) := by
  unfold Machine.execSteTest
  try dsimp only
  repeat' (first
    | with_reducible intro _
    | with_reducible assumption
    | with_reducible apply keepsOut_next
    | with_reducible apply keepsOut_fault
    | with_reducible apply keepsOut_ite
    | with_reducible apply keeps_ite
    | with_reducible apply elapse_keeps
    | with_reducible apply steEnd_keeps
    | exact Nat.le_refl _
    | split
    | with_reducible refine Keeps.of_fst ?_ (by assumption))

end Sys2Proof.Laws
end

