-- ==== Sys2Proof/Laws/Keeps/Beat.lean ====
section
/-! SUPPORT. What the operations and meanings of Machine/Beat.lean keep (`Keeps`). -/

set_option linter.unreachableTactic false
set_option linter.unusedTactic false
set_option linter.unusedVariables false

namespace Sys2Proof.Laws

open Sys2Proof.Machine

theorem catEdges_keeps {s₀ s : State} (h : Keeps s₀ s) :
    Keeps s₀ (State.catEdges s).1 := by
  unfold State.catEdges
  try dsimp only
  repeat' (first
    | with_reducible intro _
    | with_reducible assumption
    | with_reducible apply keeps_ite
    | dsimp only
    | with_reducible apply keeps_ite_fst
    | with_reducible apply keeps_foldl_fst
    | with_reducible apply keeps_foldl
    | with_reducible apply catEdge_keeps
    | exact Nat.le_refl _
    | split
    | with_reducible refine Keeps.of_fst ?_ (by assumption))

theorem unlessTested_keeps {s₀ s : State} (h : Keeps s₀ s) (blk : Nat) (f : State → State)
    (hf : ∀ u, Keeps s₀ u → Keeps s₀ (f u)) : Keeps s₀ (s.unlessTested blk f) := by
  unfold State.unlessTested
  exact keeps_ite h (hf _ h)

theorem resumeEdge_keeps {s₀ s : State} (h : Keeps s₀ s) (cold : StartInfo) :
    Keeps s₀ (State.resumeEdge s cold) := by
  unfold State.resumeEdge
  try dsimp only
  repeat' (first
    | with_reducible intro _
    | with_reducible assumption
    | with_reducible apply keeps_ite
    | with_reducible apply rtsResume_keeps
    | with_reducible apply rtsStart_keeps
    | with_reducible apply takeoverShown_keeps
    | exact Nat.le_refl _
    | split
    | with_reducible refine Keeps.of_fst ?_ (by assumption))

theorem inputEdge_keeps {s₀ s : State} (h : Keeps s₀ s) (ch : EdgeChanges) (wrong : BitVec 32) :
    Keeps s₀ (State.inputEdge s ch wrong) := by
  unfold State.inputEdge
  try dsimp only
  repeat' (first
    | with_reducible intro _
    | with_reducible assumption
    | with_reducible apply keeps_ite
    | with_reducible apply keeps_foldl
    | with_reducible apply brakeEdge_keeps
    | with_reducible apply fioEdge_keeps
    | with_reducible apply measEdge_keeps
    | with_reducible apply permitToggleEdge_keeps
    | with_reducible apply serEdge_keeps
    | with_reducible apply trdpEdge_keeps
    | with_reducible apply unlessTested_keeps
    | with_reducible apply walEdge_keeps
    | exact Nat.le_refl _
    | split
    | with_reducible refine Keeps.of_fst ?_ (by assumption))

theorem outputEdge_keeps {s₀ s : State} (h : Keeps s₀ s) (torn : List Nat) (wrong : BitVec 32) :
    Keeps s₀ (State.outputEdge s torn wrong) := by
  unfold State.outputEdge
  try dsimp only
  repeat' (first
    | with_reducible intro _
    | with_reducible assumption
    | with_reducible apply keeps_ite
    | with_reducible apply keeps_foldl
    | with_reducible apply fioLatchEdge_keeps
    | with_reducible apply serDue_keeps
    | with_reducible apply trdpPublish_keeps
    | with_reducible apply unlessTested_keeps
    | with_reducible apply walLatchEdge_keeps
    | exact Nat.le_refl _
    | split
    | with_reducible refine Keeps.of_fst ?_ (by assumption))

theorem startEdge_keeps {s₀ s : State} (h : Keeps s₀ s) :
    Keeps s₀ (State.startEdge s) := by
  unfold State.startEdge
  try dsimp only
  repeat' (first
    | with_reducible intro _
    | with_reducible assumption
    | with_reducible apply keeps_ite
    | with_reducible apply startDone_keeps
    | exact Nat.le_refl _
    | split
    | with_reducible refine Keeps.of_fst ?_ (by assumption))

theorem regionEdge_keeps {s₀ s : State} (h : Keeps s₀ s) :
    Keeps s₀ (State.regionEdge s) := by
  unfold State.regionEdge
  try dsimp only
  repeat' (first
    | with_reducible intro _
    | with_reducible assumption
    | with_reducible apply keeps_ite
    | dsimp only
    | with_reducible apply keeps_ite_fst
    | with_reducible apply keeps_foldl_fst
    | exact Nat.le_refl _
    | split
    | with_reducible refine Keeps.of_fst ?_ (by assumption)
    | with_reducible refine keeps_mk ?_ rfl rfl rfl rfl (Nat.le_refl _))

theorem stepAll_keeps {s₀ s : State} (h : Keeps s₀ s) (delta : Int) :
    Keeps s₀ (State.stepAll s delta) := by
  unfold State.stepAll
  try dsimp only
  repeat' (first
    | with_reducible intro _
    | with_reducible assumption
    | with_reducible apply keeps_ite
    | with_reducible apply ethStep_keeps
    | with_reducible apply measRebase_keeps
    | with_reducible apply measStep_keeps
    | with_reducible apply stepEdge_keeps
    | with_reducible apply unlessTested_keeps
    | with_reducible apply walStep_keeps
    | exact Nat.le_refl _
    | split
    | with_reducible refine Keeps.of_fst ?_ (by assumption))

theorem devRegEdge_keeps {s₀ s : State} (h : Keeps s₀ s) :
    Keeps s₀ (State.devRegEdge s) := by
  unfold State.devRegEdge
  try dsimp only
  repeat' (first
    | with_reducible intro _
    | with_reducible assumption
    | with_reducible apply keeps_ite
    | dsimp only
    | with_reducible apply keeps_ite_fst
    | with_reducible apply keeps_foldl_fst
    | with_reducible apply keeps_foldl
    | with_reducible apply busWrite_keeps
    | with_reducible apply modApp_keeps
    | exact Nat.le_refl _
    | split
    | with_reducible refine Keeps.of_fst ?_ (by assumption)
    | with_reducible refine keeps_mk ?_ rfl rfl rfl rfl (Nat.le_refl _))

theorem beatEdge_keeps {s₀ s : State} (h : Keeps s₀ s) (env : EdgeEnv) :
    Keeps s₀ (State.beatEdge s env) := by
  unfold State.beatEdge
  try dsimp only
  repeat' (first
    | with_reducible intro _
    | with_reducible assumption
    | with_reducible apply keeps_ite
    | dsimp only
    | with_reducible apply keeps_ite_fst
    | with_reducible apply keeps_foldl_fst
    | with_reducible apply bkEdge_keeps
    | with_reducible apply captures_keeps
    | with_reducible apply catEdges_keeps
    | with_reducible apply cscEdge_keeps
    | with_reducible apply devRegEdge_keeps
    | with_reducible apply edgeBegin_keeps
    | with_reducible apply elapse_keeps
    | with_reducible apply ethEdge_keeps
    | with_reducible apply inputEdge_keeps
    | with_reducible apply lcsEdge_keeps
    | with_reducible apply outputEdge_keeps
    | with_reducible apply regionEdge_keeps
    | with_reducible apply resumeEdge_keeps
    | with_reducible apply rplEdgeEarly_keeps
    | with_reducible apply rplEdgeLate_keeps
    | with_reducible apply rtsEdge_keeps
    | with_reducible apply startEdge_keeps
    | with_reducible apply stepAll_keeps
    | with_reducible apply triadEdge_keeps
    | with_reducible apply unlessTested_keeps
    | exact Nat.le_refl _
    | split
    | with_reducible refine Keeps.of_fst ?_ (by assumption))

theorem execBeatEdge_keeps {s₀ s : State} (h : Keeps s₀ s) (dt : Nat) (env : EdgeEnv) :
    KeepsOut s₀ (Machine.execBeatEdge dt env s) := by
  unfold Machine.execBeatEdge
  try dsimp only
  repeat' (first
    | with_reducible intro _
    | with_reducible assumption
    | with_reducible apply keepsOut_next
    | with_reducible apply keepsOut_fault
    | with_reducible apply keepsOut_ite
    | with_reducible apply keeps_ite
    | with_reducible apply beatEdge_keeps
    | with_reducible apply edgeBegin_keeps
    | with_reducible apply elapse_keeps
    | with_reducible apply stepEdge_keeps
    | exact Nat.le_refl _
    | split
    | with_reducible refine Keeps.of_fst ?_ (by assumption))

end Sys2Proof.Laws
end

