-- ==== Sys2Proof/Tests/Slice0.lean ====
section
/-! SUPPORT. Tests of the model: commands that cannot exist, values that the spec states, one step each, and for every clause of
every statement a state with operands that meet its hypotheses. -/

namespace Sys2Proof.Tests

open Sys2Proof Sys2Proof.Machine

set_option linter.unusedVariables false
set_option maxRecDepth 100000
set_option Elab.async false

/-- The state of an outcome, where it is a next state. -/
def nextOf (o : Host.Outcome State Fault Refusal) : Option State :=
  match o with
  | .next t => some t
  | _ => none

/-- Whether an outcome is a next state with a property. -/
def nextHas (o : Host.Outcome State Fault Refusal) (p : State → Bool) : Bool := ((nextOf o).map p).getD false

/-- A Triad requester. -/
def triad : Requester := ⟨.t, 0⟩

/-- The ASCII bytes of "123456789". -/
def digits : List Byte := [0x31, 0x32, 0x33, 0x34, 0x35, 0x36, 0x37, 0x38, 0x39]

/-! ### Commands that cannot exist -/

theorem test_ring_beyond_its_block_is_refused : (Instr.ringEnableWrite 0 triad .mvb 2 0).wf = false := by decide
theorem test_last_ring_is_accepted : (Instr.ringEnableWrite 0 triad .mvb 1 0).wf = true := by decide
theorem test_access_of_three_bytes_is_refused : (Instr.registerWrite 0 triad 0 3 0).wf = false := by decide
theorem test_unaligned_access_is_refused : (Instr.registerWrite 0 triad 6 4 0).wf = false := by decide
theorem test_access_beyond_40_bits_is_refused : (Instr.registerWrite 0 triad 0x10000000000 4 0).wf = false := by decide
theorem test_ill_formed_ring_stops :
    (nextOf (exec (.ringEnableWrite 0 triad .prv 2 0) State.reset)).isNone = true := by decide +kernel

/-! ### Steps -/

theorem test_no_word_spells_a_command : decodeTableWord 32 0x12345678 = none := by decide
theorem test_empty_queue_idles : step State.reset = .next State.reset := by rfl
theorem test_front_command_leaves_the_queue :
    nextHas (step { State.reset with pending := [.pwrPfw 0 1399, .refLost 0] }) (fun t => decide (t.pending = [.refLost 0])) = true := by
  decide +kernel

/-! ### Values that the spec states -/

/-- R423: the results of the presets over "123456789". -/
theorem test_preset_1 : chkResult (chkParam 0x1000 0 0) (chkFold (chkParam 0x1000 0 0) 0xFFFFFFFF digits) = 0xCBF43926 := by
  decide +kernel
theorem test_preset_2 : chkResult (chkParam 0x2000 0 0) (chkFold (chkParam 0x2000 0 0) 0xFFFFFFFF digits) = 0xE3069283 := by
  decide +kernel
theorem test_preset_3 : chkResult (chkParam 0x3000 0 0) (chkFold (chkParam 0x3000 0 0) 0xFFFF digits) = 0x29B1 := by
  decide +kernel
theorem test_preset_4 : chkResult (chkParam 0x4000 0 0) (chkFold (chkParam 0x4000 0 0) 0 digits) = 0x6C40DF5F0B497347 := by
  decide +kernel
theorem test_crc64_is_preset_4 : crc64 digits = 0x6C40DF5F0B497347 := by decide +kernel
theorem test_crc32_is_preset_1 : crc32 digits = 0xCBF43926 := by decide +kernel
theorem test_crc32c_is_preset_2 : crc32c digits = 0xE3069283 := by decide +kernel

/-- FIPS 180-4, example "abc". -/
theorem test_sha256_abc :
    sha256 [0x61, 0x62, 0x63] = 0xba7816bf8f01cfea414140de5dae2223b00361a396177a9cb410ff61f20015ad := by decide +kernel

/-- FIPS 180-4, example "abc" of SHA-384. -/
theorem test_sha384_abc : sha384 [0x61, 0x62, 0x63] =
    0xcb00753f45a35e8bb5a03d699ac65007272c32ab0eded1631a8b605a43ff5bed8086072ba1e7cc2358baeca134c825a7 := by decide +kernel

/-- The example of R185: with C = 300 µs below a task of 120 µs every beat, the response time is 960 µs. -/
theorem test_response_time_example :
    State.respStep 300000 795000 [⟨1, 0, 0, 0, 0, 0, 0, 0, 0, 0, 0, 120000⟩] = 960000 ∧
      State.respStep 300000 960000 [⟨1, 0, 0, 0, 0, 0, 0, 0, 0, 0, 0, 120000⟩] = 960000 := by decide +kernel

/-- The example of the counter index: ETH_TXDROP_2_3 has index 789 (R89, R584). -/
theorem test_counter_index_example :
    (windows.find? fun w => decide (w.addr ≤ Reg.ETH_TXDROP 2 3 ∧ Reg.ETH_TXDROP 2 3 < w.addr + 8 * w.count)).map
      (fun w => w.first + (Reg.ETH_TXDROP 2 3 - w.addr) / 8) = some 789 := by decide +kernel

/-! ### One step each -/

/-- R551: 13.99 V asserts PFW, counted once. -/
theorem test_pfw : nextHas (exec (.pwrPfw 0 1399) State.reset) (fun t => t.bit Fld.PWR_STATUS_PFW && t.rd64 Reg.PWR_PFWS == 1)
    = true := by decide +kernel

/-- R82: an announcement of another version is refused with reason 1. -/
theorem test_announcement_of_another_version :
    nextHas (exec (.invAnnouncementRx 0 ⟨2, 5, 1000000, 3⟩) State.reset)
      (fun t => t.getF Fld.INV_STATUS_LAST_REFUSE == 1 && t.rd64 Reg.INV_ANNREFUSED == 1 && t.inv.pending.isEmpty) = true := by
  decide +kernel

/-- The example of R68: a correction of 2,917,600 ns with SLEW = 1 is refused, and SLEWING follows. -/
theorem test_time_jump_example :
    nextHas (exec (.gptpSyncRx 0 2917600 { domain := 0, gm := 7, prio1 := 246, ahead := true })
      (let u : State := (State.reset.setF Fld.TIM_STATUS_STATE 2).setB Fld.TIM_CTL_SLEW true
       { u with time := { u.time with firstLockDone := true } }))
      (fun t => t.timeState == 4 && t.rdI64 Reg.TIM_REFOFS == 2917600 && t.rd64 Reg.TIM_JUMPREFUSED == 1) = true := by
  decide +kernel

/-- R13: a write to an unassigned address inside a register block has no effect. -/
theorem test_unassigned_register :
    nextHas (exec (.registerWrite 0 triad 0xF00001FF00 4 5) State.reset)
      (fun t => decide ({ t with resp := State.reset.resp } = State.reset)) = true := by decide +kernel

/-- R35: an index at COUNT is refused and counted. -/
theorem test_invalidate_beyond_count :
    nextHas (exec (.catalogueInvalidate 0 triad .fio 0) State.reset) (fun t => t.rd64 (catReg .fio 0x38) == 1) = true := by
  decide +kernel

theorem passwordOk_stored (u : State) (n : Nat) (p : List Byte) (h : u.gar.password = some (n, pbkdf2 n p)) :
    u.passwordOk p = true := by
  simp [State.passwordOk, h]

theorem passwordOk_other (u : State) (n : Nat) (p : List Byte) (h : u.gar.password = some (n, pbkdf2 n p + 1)) :
    u.passwordOk p = false := by
  simp [State.passwordOk, h]

/-! ### Signed images -/

/-- The public key of the signed images below, made for these tests. -/
def wKey : List Byte := beBytes 97 0x04bc35ab874f5658e1819f8f44c695ba09f716e07d8013d68230d339081722059b875329524ecddaf7fa4250438e16cc5c55929dd5d06453bc578516476529a635d2177a2715c88ba1dad27c0e68e1e6c4c2579323f25643c94c9e17c047d0bdbd

/-- A signed image with that key: header and body. -/
def wImage (header : Nat) (body : List Byte) : Image := { header := beBytes 256 header, key := wKey, body := body }

def wImg_fw : Image := wImage 0x4d49564b0100010000000000030000000000010000000000040000000000000000000000000000001165b3406ff0b52a3d24721f785462ca2276c9f454a116c2b2ba20171a7905ea5a026682eb659c4d5f115c363aa3c79b000000000000000000000000000000000000000000000000000000000000000000000000000000000000000000000000000000000000000000000000000000000000000000000000769aa248a47c37b507fc879a66c7dae1d31237e175d2ecc3c8e47f65188bc8006bf4d5ff53f3cbc7010f20f19fb135c461efcec0bc5489278d4ca442fa59163bf1b2f157e75fe32f531fc908e39ca4783d083f55da168cad167b39a18d0db2e4 (beBytes 4 0x61626364)

def wImg_docent : Image := wImage 0x4d49564b01000200000000000300000000000000000000000000000000000000000000000000000038b060a751ac96384cd9327eb1b1e36a21fdb71114be07434c0cc7bf63f6e1da274edebfe76f65fbd51ad2f14898b95b00000000000000000000000000000000000000000000000000000000000000000000000000000000000000000000000000000000000000000000000000000000000000000000000013ea52c22553489abad0c2ba301cbfc322a38f6b4094af5500cde2e48226da0a70c75489ac436c8303047def415b1ddc6d15a526e0c662019068fd2f1409ba6eec8e3f891e1b118ce782811a4b031c29e58d1d6b38ec6c5ecba24f9626f54736 []

def wImg_boot : Image := wImage 0x4d49564b01000300000000000300000000000000000000000000000000000000000000000000000038b060a751ac96384cd9327eb1b1e36a21fdb71114be07434c0cc7bf63f6e1da274edebfe76f65fbd51ad2f14898b95b0000000000000000000000000000000000000000000000000000000000000000000000000000000000000000000000000000000000000000000000000000000000000000000000002e3f3157e474b56000723d1a23dbd656105f72d29317157631b6c31a53f064e77fd14d9a54138e8baece80ad5e59f9b828a7cf97350280241516e786602f79b036038191afa57041d424e518cf88ef1bc06296adc3bfacf50bcee68a2629e248 []

def wImg_pkg : Image := wImage 0x4d49564b0100040000000000030000000000000000000000040000000000000000000000000000001165b3406ff0b52a3d24721f785462ca2276c9f454a116c2b2ba20171a7905ea5a026682eb659c4d5f115c363aa3c79b0000000000000000000000000000000000000000000000000000000000000000000000000000000000000000000000000000000000000000000000000000000000000000000000005f4f3c974b9b67f67525ca7e8cbf64d6fed765dedd1fbbd3fbf3216384487aedc92c2dfdb510121d2360f492748e6140ae46a947b8836842be65a6c0bec748e66042254370db3f4ce29bc1f33929bb8c4e7baa01bfac198942863a7ff50517d9 (beBytes 4 0x61626364)

def wImg_toInt : Image := wImage 0x4d49564b0100050000000000030000000000000000000000200000000000000000000000000000005c838e0c23664e9eec5244a5db14163dd725dda590c5ac701af88ac18e6f29240d387423f68a471e13232ef904b47640000000000000000000000000000000000000000000000000000000000000000000000000000000000000000000000000000000000000000000000000000000000000000000000000066971b21c77bc94f23635ba0e4b4264885c3e93df6b96a725dec6d353f34daf2bd41f4ef03daf6979728b69793237e7052481de381555caab318b0704be0ebc3bacdfec31bf734b9b6fdd4fa478e631c9a700a8fedafeeebb9cf345c36aaa15 (beBytes 32 0x0001000001000000000000000000000000000000000000000000000000000000)

def wImg_toSealed : Image := wImage 0x4d49564b0100050000000000030000000000000000000000200000000000000000000000000000009510442a027951a51f94ef51e41cf9464a9576d59dac729cd0a4e8909a6390dce09caf77c9a708aa9f5b776705fac44900000000000000000000000000000000000000000000000000000000000000000000000000000000000000000000000000000000000000000000000000000000000000000000000014a421fc2c1cef44b6c34f71d0c363ba5d09196a9f2bcbcf469411c947114b8659d5c1fb9c1fd8b2eeedf51edf0d3223a832be8ea78ed77c0625b65c72d577752c0364f13d33e74c61699bd4c0dee63ae3e4b649a6052e22cb058f0b2cebed19 (beBytes 32 0x0103000001000000000000000000000000000000000000000000000000000000)

def wImg_toService : Image := wImage 0x4d49564b01000500000000000300000000000000000000002000000000000000000000000000000076133dd9c9b708c51f8a7c63654964b6effb8627f62a1b9001fb3b5748ec30bafd76af7809aa60e45f2a4616cbebef95000000000000000000000000000000000000000000000000000000000000000000000000000000000000000000000000000000000000000000000000000000000000000000000000d663b0a2a3f7f0497d0e1dc9700dcc9ccc6a3f7c787c6d65e5ee411b51e00b1de09ee379f6bc4edef40ecfd26d923531e7797b17b984f448cad17f9f403bb8b590a6ac9911cc8b370413d30afbcd9101fd0e8effe650a15ed2a26c27e7868991 (beBytes 32 0x0302000001000000000000000000000000000000000000000000000000000000)

def wImg_toRetired : Image := wImage 0x4d49564b0100050000000000030000000000000000000000200000000000000000000000000000008ad29937df3d09472b9b098d50fa3fbd3cac546cfb4f3a9b60407bd67e5ad05a8f7e1558866350f77f5e24ea9c001a3400000000000000000000000000000000000000000000000000000000000000000000000000000000000000000000000000000000000000000000000000000000000000000000000042105e67a86f8d569579750294e3def5b7e526475c32b9a633efd56e890b6c7000cd0fad76a29200a1315fff2ef80360fe05eab29f8f54925c862a861b37808eae6e716476cde28844f46fc1a248b80f0f13667f9161c8cf8c18fb56cae367c6 (beBytes 32 0x0004000001000000000000000000000000000000000000000000000000000000)

def wImg_revoke1 : Image := wImage 0x4d49564b0100060000000000030000000000000000000000200000000000000000000000000000007aa60bdfa60b4c9e3d450219265636c2e26ba35da5d9a13403081ba1e72d6833c63c4a6cc099a857a4a5100654ac0c2900000000000000000000000000000000000000000000000000000000000000000000000000000000000000000000000000000000000000000000000000000000000000000000000048cbb3e98c22eb7b120d1229368fafac02cc9ea03a230e2cae41b181634d32f6d255c5f3f61a96fe1fe0910c0c5d67562bf33465e7478d5197647c3c7b0296aa83dd67c6c49b8ac683d67b49fe81de56de0f6f30cc624c51b884b8a22d3adc49 (beBytes 32 0x0000010001000000000000000000000000000000000000000000000000000000)

def wImg_revoke0 : Image := wImage 0x4d49564b010006000000000003000000000000000000000020000000000000000000000000000000484ca5a6ce354829bc1308646737c8819ead4b1d7cc93cd179178461655eca59782b0528baff117cb120afcefd252ea10000000000000000000000000000000000000000000000000000000000000000000000000000000000000000000000000000000000000000000000000000000000000000000000002247945697d3e958ee4a7d5055ac1bddf83ec5bb05aa9e08e84b710f08dde7d33e7df5671798f7978dcab4de93faf158991d9c049287087be900a9673d75b0cca3e300c3137f99c09ea9546e21f67fafcd7c744358a6beaf6970451a4d8ed86c (beBytes 32 0x0000000001000000000000000000000000000000000000000000000000000000)

def wImg_revoke0by1 : Image := wImage 0x4d49564b010006010000000003000000000000000000000020000000000000000000000000000000484ca5a6ce354829bc1308646737c8819ead4b1d7cc93cd179178461655eca59782b0528baff117cb120afcefd252ea10000000000000000000000000000000000000000000000000000000000000000000000000000000000000000000000000000000000000000000000000000000000000000000000009709f0052359b9372e07adbc568a5aded9742d5a9eb2c01e976d7bb4dc35ef779604a564d2228befe353cec4f574ce39a88bbbe8c56eeb1fb261621fedff92b8bad75851e8c2cf4ebc6f1538d6edd0c1c2e25cd67162f742aef3f955eac3c85d (beBytes 32 0x0000000001000000000000000000000000000000000000000000000000000000)

/-- A module whose key slots 0 and 1 hold that key, with serial number 1, nonce 0 and no rollback. -/
def keyed (s : State) : State :=
  let u := ((s.setF Fld.LCS_KEYS_PRESENT 3).setF Fld.LCS_KEYS_REVOKED 0).setF Fld.LCS_ROLLBACK_COUNT 0
  let u := ((u.wr64 Reg.LCS_SERIAL 1).wr64 Reg.LCS_NONCE_LO 0).wr64 Reg.LCS_NONCE_HI 0
  { u with lcs := { u.lcs with keyHash := [(0, 0xa8113a95adbd5f03f8cfd9b7fd260bf94181a59751c4070a344fc9feb50136bd1dc6706c63bb4ab09b72c87a3daf93a0), (1, 0xa8113a95adbd5f03f8cfd9b7fd260bf94181a59751c4070a344fc9feb50136bd1dc6706c63bb4ab09b72c87a3daf93a0)], busy := none } }

/-- An image as software places it in DDR, named by LCS_SRCADDR and LCS_SRCLEN. -/
def placed (s : State) (img : Image) : State :=
  ((s.setF Fld.LCS_SRCADDR_ADDR 0x2000000).wr Reg.LCS_SRCLEN img.bytes.length).memPut 0x2000000 img.bytes

/-- A token as software writes it into LCS_TOKWIN. -/
def tokened (s : State) (img : Image) : State := s.wrBytes Reg.LCS_TOKWIN (img.bytes ++ [0, 0, 0])


/-! ### Hypotheses that are met -/

/-! ReferenceLoss -/

theorem meets_ReferenceLoss_0 :
    let dt : Nat := 0
    let b : State := State.reset
    let s : State := { b with time := { b.time with refPresent := true } }
    s.wf = true ∧ s.time.refPresent = true ∧ (s.time.ppsLast.all (fun p => s.time.grandmaster != ppsSource || decide (p +
      1500000000 ≤ (s.elapse dt).time.clock)) = true) := by
  decide +kernel

/-! AnnouncementOutcome -/

theorem meets_AnnouncementOutcome_0 :
    let dt : Nat := 0
    let b : State := State.reset
    let s : State := (let u : State := (b.setF Fld.STE_STATUS_STATE 0).setF (Fld.STE_FAILMAP_UNITS 0x18) 0; { u with inv := { u.inv with pending := if u.freeCtr % 2 = 0 then [(5, 1000000), (6, 1250000), (7, 1500000)] else [(5, 1000000), (6, 1250000), (7, 2000000), (8, 1750000)] } })
    let a : Announce := match (s.freeCtr, s.freeCtr % 8) with | (0, _) => ⟨1, 9, 60000000000, 3⟩ | (_, 0) => ⟨2, 9, 60000000000, 3⟩ | (_, 1) => ⟨1, 5, 1000000, 3⟩ | (_, 2) => ⟨1, 9, 250000, 3⟩ | (_, 3) => ⟨1, 9, 600000000000, 3⟩ | (_, 4) => ⟨1, 6, 2000000, 3⟩ | (_, 5) => ⟨1, 9, 2000000, 3⟩ | (_, 6) => ⟨1, 9, 2250000, 3⟩ | (_, _) => ⟨1, 10, 1750000, 3⟩
    s.wf = true ∧ s.unitOff 0x18 0 = false := by
  decide +kernel

theorem meets_AnnouncementOutcome_1 :
    let dt : Nat := 0
    let b : State := State.reset
    let s : State := (let u : State := (b.setF Fld.STE_STATUS_STATE 0).setF (Fld.STE_FAILMAP_UNITS 0x18) 0 |>.setF (Fld.FAB_FWWR_MASK 0x18) 1 |>.wr Reg.TRDP_INVGRP 0xE0000001 |>.wr Reg.INV_ANN_ID (5 + b.freeCtr % 6) |>.wr64 Reg.INV_ANN_MT (1000000 + 250000 * (b.freeCtr % 5)); { u with inv := { u.inv with pending := if u.freeCtr % 2 = 0 then [(5, 1000000), (6, 1250000), (7, 1500000)] else [(5, 1000000), (6, 1250000), (7, 2000000), (8, 1750000)] } })
    let req : Requester := ⟨.t, 0⟩
    let a : Announce := s.localAnnounce
    s.wf = true ∧ Lets s req Reg.INV_ANN_GO ∧ s.unitOff 0x18 0 = false ∧ ((s.lpe.all fun x => decide (x.1 < 8)) = true) ∧ a =
      s.localAnnounce := by
  decide +kernel

/-! ScheduledSync -/

theorem meets_ScheduledSync_0 :
    let dt : Nat := 0
    let b : State := State.reset
    let s : State := (b.setF Fld.STE_STATUS_STATE 0 |>.setF (Fld.STE_FAILMAP_UNITS 0x08) 0 |>.setF (Fld.FAB_FWWR_MASK 0x08) 1 |>.setB Fld.CSC_STATUS_MEMBER false |>.setB Fld.CSC_STATUS_MASTER false |>.wr64 Reg.MEAS_SYNCAT 750000000)
    let req : Requester := ⟨.t, 0⟩
    let a : Nat := 750000000
    s.wf = true ∧ Lets s req Reg.MEAS_SYNCCMD ∧ s.measMember = false ∧ s.measMaster = false ∧ a = s.rd64 Reg.MEAS_SYNCAT ∧ a
      % 250000 = 0 ∧ (s.elapse dt).time.mt + 500000 ≤ a := by
  decide +kernel

theorem meets_ScheduledSync_1 :
    let dt : Nat := 0
    let b : State := State.reset
    let s : State := (b.setF Fld.STE_STATUS_STATE 0 |>.setF (Fld.STE_FAILMAP_UNITS 0x08) 0 |>.setF (Fld.FAB_FWWR_MASK 0x08) 1 |>.setB Fld.CSC_STATUS_MEMBER false |>.setB Fld.CSC_STATUS_MASTER false |>.wr64 Reg.MEAS_SYNCAT 750000001)
    let req : Requester := ⟨.t, 0⟩
    s.wf = true ∧ Lets s req Reg.MEAS_SYNCCMD ∧ (s.rd64 Reg.MEAS_SYNCAT % 250000 ≠ 0 ∨ s.rd64 Reg.MEAS_SYNCAT < (s.elapse
      dt).time.mt + 500000) := by
  decide +kernel

/-! PowerFailWarning -/

theorem meets_PowerFailWarning_0 :
    let dt : Nat := 0
    let b : State := State.reset
    let s : State := b.setB Fld.PWR_STATUS_PFW false
    let vin : Nat := 1399
    s.wf = true ∧ s.lcs.phase ≠ .off ∧ vin < 1400 ∧ s.bit Fld.PWR_STATUS_PFW = false ∧ PortRoom s 0x16 := by
  decide +kernel

theorem meets_PowerFailWarning_1 :
    let dt : Nat := 0
    let b : State := State.reset
    let s : State := b.setF ⟨Reg.PWR_STATUS, 0, 3⟩ 0
    let vin : Nat := 15401
    s.wf = true ∧ s.lcs.phase ≠ .off ∧ 15400 < vin ∧ s.bit Fld.PWR_STATUS_OVDISC = false ∧ s.bit Fld.PWR_STATUS_PFW = false ∧
      (tget s.arc.ports 0x16).length < 31 := by
  decide +kernel

/-! SlotRevocation -/

theorem meets_SlotRevocation_0 :
    let dt : Nat := 0
    let b : State := State.reset
    let s : State := (let u : State := (tokened ((keyed ((b.setF (Fld.FAB_FWWR_MASK 0x15) 1).setF Fld.STE_STATUS_STATE 0)).setF Fld.LCS_STATE_STATE 2 |>.setB Fld.PWR_STATUS_NV_STOP false |>.setF (Fld.STE_FAILMAP_UNITS 0x15) 0) wImg_revoke1); { u with lcs := { u.lcs with busy := none } })
    let req : Requester := ⟨.t, 0⟩
    let arg : Byte := 0
    let n0 : BitVec 64 := 5
    let n1 : BitVec 64 := 6
    s.wf = true ∧ Lets s req Reg.LCS_CMD ∧ s.lcs.busy = none ∧ s.tokenCheck s.token 6 = 0 ∧ s.token.tokenSlot ≠
      s.token.keySlot ∧ s.token.tokenSlot < 4 ∧ (((List.range 4).any fun k => k != s.token.tokenSlot && (s.getF
      Fld.LCS_KEYS_PRESENT).testBit k && !(s.getF Fld.LCS_KEYS_REVOKED).testBit k) = true) := by
  decide +kernel

theorem meets_SlotRevocation_1 :
    let dt : Nat := 0
    let b : State := State.reset
    let s : State := (let u : State := (tokened ((keyed ((b.setF (Fld.FAB_FWWR_MASK 0x15) 1).setF Fld.STE_STATUS_STATE 0)).setF Fld.LCS_STATE_STATE 2 |>.setB Fld.PWR_STATUS_NV_STOP false |>.setF (Fld.STE_FAILMAP_UNITS 0x15) 0) wImg_revoke0); { u with lcs := { u.lcs with busy := none } })
    let req : Requester := ⟨.t, 0⟩
    let arg : Byte := 0
    let n0 : BitVec 64 := 5
    let n1 : BitVec 64 := 6
    s.wf = true ∧ Lets s req Reg.LCS_CMD ∧ s.lcs.busy = none ∧ s.tokenCheck s.token 6 = 0 ∧ s.token.tokenSlot =
      s.token.keySlot ∧ (((List.range 4).any fun k => k != s.token.tokenSlot && (s.getF Fld.LCS_KEYS_PRESENT).testBit k &&
      !(s.getF Fld.LCS_KEYS_REVOKED).testBit k) = true) ∧ (tget s.arc.ports 0x15).length < 31 := by
  decide +kernel

theorem meets_SlotRevocation_2 :
    let dt : Nat := 0
    let b : State := State.reset
    let s : State := (let u : State := (tokened ((keyed ((b.setF (Fld.FAB_FWWR_MASK 0x15) 1).setF Fld.STE_STATUS_STATE 0)).setF Fld.LCS_STATE_STATE 2 |>.setB Fld.PWR_STATUS_NV_STOP false |>.setF (Fld.STE_FAILMAP_UNITS 0x15) 0 |>.setF Fld.LCS_KEYS_PRESENT 1) wImg_revoke0); { u with lcs := { u.lcs with busy := none } })
    let req : Requester := ⟨.t, 0⟩
    let arg : Byte := 0
    let n0 : BitVec 64 := 5
    let n1 : BitVec 64 := 6
    s.wf = true ∧ Lets s req Reg.LCS_CMD ∧ s.lcs.busy = none ∧ s.tokenCheck s.token 6 = 0 ∧ (((List.range 4).any fun k => k
      != s.token.tokenSlot && (s.getF Fld.LCS_KEYS_PRESENT).testBit k && !(s.getF Fld.LCS_KEYS_REVOKED).testBit k) = false) ∧
      PortRoom s 0x15 := by
  decide +kernel

theorem meets_SlotRevocation_3 :
    let dt : Nat := 0
    let b : State := State.reset
    let s : State := (let u : State := ((keyed ((b.setF (Fld.FAB_FWWR_MASK 0x15) 1).setF Fld.STE_STATUS_STATE 0)).setF Fld.LCS_STATE_STATE 2 |>.setB Fld.PWR_STATUS_NV_STOP false |>.setF (Fld.STE_FAILMAP_UNITS 0x15) 0); { u with lcs := { u.lcs with busy := some ⟨2, 0, .revoke 1, none⟩ } })
    let slot : Nat := 1
    s.wf = true ∧ s.lcs.busy = some ⟨2, 0, .revoke slot, none⟩ ∧ slot < 4 ∧ PortRoom s 0x15 ∧ s.prv.port.length < 64 := by
  decide +kernel

/-! TimeReferences -/

theorem meets_TimeReferences_0 :
    let dt : Nat := 0
    let b : State := State.reset
    let s : State := { (let u := (b.setF Fld.TIM_CTL_REFSEL 0).setF Fld.TIM_GPTPCFG_DOMAIN 0; u.setB Fld.TIM_GPTPCFG_GMCAP false) with time := { (let u := (b.setF Fld.TIM_CTL_REFSEL 0).setF Fld.TIM_GPTPCFG_DOMAIN 0; u.setB Fld.TIM_GPTPCFG_GMCAP false).time with firstLockDone := false, lockOver := true } }
    let offset : Int := -5000000
    let sync : GptpSync := { domain := 0, gm := 7, prio1 := 0, ahead := true }
    s.wf = true ∧ s.getF Fld.TIM_CTL_REFSEL = 0 ∧ s.follows sync = true ∧ s.time.firstLockDone = false ∧
      (s.time.lockStart.isSome = true ∨ s.time.lockOver = true) := by
  decide +kernel

theorem meets_TimeReferences_1 :
    let dt : Nat := 0
    let b : State := State.reset
    let s : State := { (let u := (b.setF Fld.TIM_CTL_REFSEL 0).setF Fld.TIM_GPTPCFG_DOMAIN 0; u.setB Fld.TIM_GPTPCFG_GMCAP false) with time := { (let u := (b.setF Fld.TIM_CTL_REFSEL 0).setF Fld.TIM_GPTPCFG_DOMAIN 0; u.setB Fld.TIM_GPTPCFG_GMCAP false).time with firstLockDone := true } }
    let offset : Int := -1000
    let sync : GptpSync := { domain := 0, gm := 7, prio1 := 0, ahead := true }
    s.wf = true ∧ s.getF Fld.TIM_CTL_REFSEL = 0 ∧ s.follows sync = true ∧ s.time.firstLockDone = true ∧ offset.natAbs ≤
      s.jumpLimit := by
  decide +kernel

theorem meets_TimeReferences_2 :
    let dt : Nat := 0
    let b : State := State.reset
    let s : State := let u := ((let u := (b.setF Fld.TIM_CTL_REFSEL 0).setF Fld.TIM_GPTPCFG_DOMAIN 0; u.setB Fld.TIM_GPTPCFG_GMCAP false).setF Fld.TIM_STATUS_STATE 2); { u with time := { u.time with firstLockDone := true } }
    let offset : Int := -1000000001
    let sync : GptpSync := { domain := 0, gm := 7, prio1 := 0, ahead := true }
    s.wf = true ∧ s.getF Fld.TIM_CTL_REFSEL = 0 ∧ s.follows sync = true ∧ s.time.firstLockDone = true ∧ s.timeState = 2 ∧
      s.jumpLimit < offset.natAbs ∧ offset.natAbs < 9223372036854775808 := by
  decide +kernel

theorem meets_TimeReferences_3 :
    let dt : Nat := 0
    let b : State := State.reset
    let s : State := let u := ((b.setF Fld.TIM_CTL_REFSEL 1).wr64 Reg.TIM_PPS_SEC 5); { u with time := { u.time with firstLockDone := false, lockStart := some 5 } }
    let rising : Bool := !s.bit Fld.TIM_CTL_PPSIN_POL
    let width : Nat := 1000
    s.wf = true ∧ s.getF Fld.TIM_CTL_REFSEL = 1 ∧ rising = !s.bit Fld.TIM_CTL_PPSIN_POL ∧ 1000 ≤ width ∧ width ≤ 500000000 ∧
      s.rd64 Reg.TIM_PPS_SEC ≠ 0 ∧ s.time.firstLockDone = false ∧ (s.time.lockStart.isSome = true ∨ s.time.lockOver = true)
      := by
  decide +kernel

theorem meets_TimeReferences_4 :
    let dt : Nat := 0
    let b : State := State.reset
    let s : State := let u := b.setB Fld.TIM_STATUS_STEP_PENDING false; { u with time := { u.time with lockStart := some 5, clock := 3000000005, firstLockDone := false } }
    let start : Nat := 5
    s.wf = true ∧ s.time.lockStart = some start ∧ s.time.firstLockDone = false ∧ s.bit Fld.TIM_STATUS_STEP_PENDING = false ∧
      start + 3000000000 ≤ (s.elapse dt).time.clock := by
  decide +kernel

theorem meets_TimeReferences_5 :
    let dt : Nat := 0
    let b : State := State.reset
    let s : State := let u := ((b.setF Fld.TIM_STATUS_STATE 3).setF (Fld.FAB_FWWR_MASK 1) 1).setF Fld.STE_STATUS_STATE 0; { u with time := { u.time with refPresent := true } }
    let req : Requester := ⟨.t, 0⟩
    s.wf = true ∧ Lets s req Reg.TIM_STEPCTL ∧ (s.timeState = 3 ∨ s.timeState = 4) ∧ s.time.refPresent = true := by
  decide +kernel

/-! BeatEdges -/

theorem meets_BeatEdges_0 :
    let dt : Nat := 0
    let b : State := State.reset
    let s : State := b
    let env : EdgeEnv := { stepDelta := -5, tornEntries := [], imageErrors := [], couplersWrong := 0, cold := { programId := 7, layoutHash := 5, fmtVer := 1, retainEccOk := true, instances := [], initialOutputs := [], initialRetain := [], initialVars := [] } }
    s.wf = true := by
  decide +kernel

theorem meets_BeatEdges_1 :
    let dt : Nat := 0
    let b : State := State.reset
    let s : State := (let v : State := b.setB Fld.TIM_STATUS_STEP_PENDING true; { v with lcs := { v.lcs with phase := .firmware } })
    let env : EdgeEnv := { stepDelta := -5, tornEntries := [], imageErrors := [], couplersWrong := 0, cold := { programId := 7, layoutHash := 5, fmtVer := 1, retainEccOk := true, instances := [], initialOutputs := [], initialRetain := [], initialVars := [] } }
    s.wf = true ∧ s.lcs.phase ≠ .off ∧ s.bit Fld.TIM_STATUS_STEP_PENDING = true := by
  decide +kernel

theorem meets_BeatEdges_2 :
    let dt : Nat := 0
    let b : State := State.reset
    let s : State := (b.setB Fld.TIM_STATUS_STEP_PENDING false)
    let env : EdgeEnv := { stepDelta := -5, tornEntries := [], imageErrors := [], couplersWrong := 0, cold := { programId := 7, layoutHash := 5, fmtVer := 1, retainEccOk := true, instances := [], initialOutputs := [], initialRetain := [], initialVars := [] } }
    s.wf = true ∧ s.bit Fld.TIM_STATUS_STEP_PENDING = false := by
  decide +kernel

theorem meets_BeatEdges_3 :
    let dt : Nat := 0
    let b : State := State.reset
    let s : State := (let v : State := b.setB Fld.TIM_STATUS_STEP_PENDING false; { v with lcs := { v.lcs with phase := .off } })
    let env : EdgeEnv := { stepDelta := -5, tornEntries := [], imageErrors := [], couplersWrong := 0, cold := { programId := 7, layoutHash := 5, fmtVer := 1, retainEccOk := true, instances := [], initialOutputs := [], initialRetain := [], initialVars := [] } }
    s.wf = true ∧ s.lcs.phase = .off ∧ s.time.mt ≤ s.time.edgeAt ∧ s.bit Fld.TIM_STATUS_STEP_PENDING = false := by
  decide +kernel

/-! PopReads -/

theorem meets_PopReads_0 :
    let dt : Nat := 0
    let b : State := State.reset
    let s : State := { b with tsq := tset b.tsq 3 { entries := [⟨9, 2, 80⟩, ⟨4, 3, 88⟩], nextSeq := 4 } }
    let q : Fin 9 := 3
    let e : TsEntry := ⟨9, 2, 80⟩
    let rest : List TsEntry := [⟨4, 3, 88⟩]
    let req : Requester := ⟨.t, 0⟩
    s.wf = true ∧ s.issues req = true ∧ s.heldBack req = false ∧ req.cls ≠ .x ∧ s.memCheck req.cls false (regPhys
      (Reg.POP_TSQ_META q.val)) = 0 ∧ (tget s.pops (popKey (.tsq q))).inFlight = none ∧ (tget s.pops (popKey (.tsq
      q))).waiting = [] ∧ (tget s.tsq q.val).entries = e :: rest := by
  decide +kernel

theorem meets_PopReads_1 :
    let dt : Nat := 0
    let b : State := State.reset
    let s : State := { b with tsq := tset b.tsq 3 { entries := [⟨9, 2, 80⟩, ⟨4, 3, 88⟩], nextSeq := 4 } }
    let q : Fin 9 := 3
    let e : TsEntry := ⟨9, 2, 80⟩
    let rest : List TsEntry := [⟨4, 3, 88⟩]
    let req : Requester := ⟨.x, 1⟩
    s.wf = true ∧ s.heldBack req = false ∧ req.cls = .x ∧ s.memCheck req.cls false (regPhys (Reg.POP_TSQ_META q.val)) = 0 ∧
      (tget s.pops (popKey (.tsq q))).inFlight = none ∧ (tget s.pops (popKey (.tsq q))).waiting = [] ∧ (tget s.tsq
      q.val).entries = e :: rest := by
  decide +kernel

theorem meets_PopReads_2 :
    let dt : Nat := 0
    let b : State := State.reset
    let s : State := { b with crr := { b.crr with popq := tset b.crr.popq 3 [(77, 8)] } }
    let c : Fin 16 := 3
    let x : Nat × Nat := (77, 8)
    let rest : List (Nat × Nat) := []
    let req : Requester := ⟨.t, 0⟩
    s.wf = true ∧ s.issues req = true ∧ s.heldBack req = false ∧ req.cls ≠ .x ∧ s.memCheck req.cls false (regPhys
      (Reg.POP_CRR_META c.val)) = 0 ∧ (tget s.pops (popKey (.crr c))).inFlight = none ∧ (tget s.pops (popKey (.crr
      c))).waiting = [] ∧ x.1 ≠ 0 ∧ tget s.crr.popq c.val = x :: rest := by
  decide +kernel

theorem meets_PopReads_3 :
    let dt : Nat := 0
    let b : State := State.reset
    let s : State := { b with crr := { b.crr with popq := tset b.crr.popq 3 [(77, 8)] } }
    let c : Fin 16 := 3
    let x : Nat × Nat := (77, 8)
    let rest : List (Nat × Nat) := []
    let req : Requester := ⟨.x, 1⟩
    s.wf = true ∧ s.heldBack req = false ∧ req.cls = .x ∧ s.memCheck req.cls false (regPhys (Reg.POP_CRR_META c.val)) = 0 ∧
      (tget s.pops (popKey (.crr c))).inFlight = none ∧ (tget s.pops (popKey (.crr c))).waiting = [] ∧ x.1 ≠ 0 ∧ tget
      s.crr.popq c.val = x :: rest := by
  decide +kernel

theorem meets_PopReads_4 :
    let dt : Nat := 0
    let b : State := State.reset
    let s : State := { b with arc := { b.arc with store := tset b.arc.store 0 [{ pos := 0, src := 2, code := 0x101, sev := 1, cont := false, rep := 0, seq := 5, mt := 100, lastDt := 0, payload := [] }] } }
    let r : ArcRec := { pos := 0, src := 2, code := 0x101, sev := 1, cont := false, rep := 0, seq := 5, mt := 100, lastDt := 0, payload := [] }
    let req : Requester := ⟨.t, 0⟩
    s.wf = true ∧ s.issues req = true ∧ s.heldBack req = false ∧ req.cls ≠ .x ∧ s.memCheck req.cls false (regPhys
      (Reg.POP_ARC_NEXT)) = 0 ∧ (tget s.pops (popKey .arc)).inFlight = none ∧ (tget s.pops (popKey .arc)).waiting = [] ∧
      s.windowRec = some r := by
  decide +kernel

theorem meets_PopReads_5 :
    let dt : Nat := 0
    let b : State := State.reset
    let s : State := { b with arc := { b.arc with store := tset b.arc.store 0 [{ pos := 0, src := 2, code := 0x101, sev := 1, cont := false, rep := 0, seq := 5, mt := 100, lastDt := 0, payload := [] }] } }
    let r : ArcRec := { pos := 0, src := 2, code := 0x101, sev := 1, cont := false, rep := 0, seq := 5, mt := 100, lastDt := 0, payload := [] }
    let req : Requester := ⟨.x, 1⟩
    s.wf = true ∧ s.heldBack req = false ∧ req.cls = .x ∧ s.memCheck req.cls false (regPhys (Reg.POP_ARC_NEXT)) = 0 ∧ (tget
      s.pops (popKey .arc)).inFlight = none ∧ (tget s.pops (popKey .arc)).waiting = [] ∧ s.windowRec = some r := by
  decide +kernel

theorem meets_PopReads_6 :
    let dt : Nat := 0
    let b : State := State.reset
    let s : State := { b with tsq := tset b.tsq 3 { entries := [], nextSeq := 4 } }
    let q : Fin 9 := 3
    let req : Requester := ⟨.t, 0⟩
    s.wf = true ∧ s.issues req = true ∧ s.heldBack req = false ∧ req.cls ≠ .x ∧ s.memCheck req.cls false (regPhys
      (Reg.POP_TSQ_META q.val)) = 0 ∧ (tget s.pops (popKey (.tsq q))).inFlight = none ∧ (tget s.pops (popKey (.tsq
      q))).waiting = [] ∧ (tget s.tsq q.val).entries = [] := by
  decide +kernel

theorem meets_PopReads_7 :
    let dt : Nat := 0
    let b : State := State.reset
    let s : State := { b with crr := { b.crr with popq := tset b.crr.popq 3 [] } }
    let c : Fin 16 := 3
    let req : Requester := ⟨.t, 0⟩
    s.wf = true ∧ s.issues req = true ∧ s.heldBack req = false ∧ req.cls ≠ .x ∧ s.memCheck req.cls false (regPhys
      (Reg.POP_CRR_META c.val)) = 0 ∧ (tget s.pops (popKey (.crr c))).inFlight = none ∧ (tget s.pops (popKey (.crr
      c))).waiting = [] ∧ tget s.crr.popq c.val = [] := by
  decide +kernel

theorem meets_PopReads_8 :
    let dt : Nat := 0
    let b : State := State.reset
    let s : State := { b with arc := { b.arc with store := [] } }
    let req : Requester := ⟨.t, 0⟩
    s.wf = true ∧ s.issues req = true ∧ s.heldBack req = false ∧ req.cls ≠ .x ∧ s.memCheck req.cls false (regPhys
      (Reg.POP_ARC_NEXT)) = 0 ∧ (tget s.pops (popKey .arc)).inFlight = none ∧ (tget s.pops (popKey .arc)).waiting = [] ∧
      s.windowRec = none := by
  decide +kernel

theorem meets_PopReads_9 :
    let dt : Nat := 0
    let b : State := State.reset
    let s : State := b
    let q : Fin 9 := 3
    let req : Requester := ⟨.t, 0⟩
    s.wf = true ∧ s.issues req = true ∧ s.heldBack req = false ∧ req.cls ≠ .x ∧ s.memCheck req.cls false (regPhys
      (Reg.POP_TSQ_META q.val)) = 0 := by
  decide +kernel

theorem meets_PopReads_10 :
    let dt : Nat := 0
    let b : State := State.reset
    let s : State := b
    let c : Fin 16 := 3
    let req : Requester := ⟨.t, 0⟩
    s.wf = true ∧ s.issues req = true ∧ s.heldBack req = false ∧ req.cls ≠ .x ∧ s.memCheck req.cls false (regPhys
      (Reg.POP_CRR_META c.val)) = 0 := by
  decide +kernel

theorem meets_PopReads_11 :
    let dt : Nat := 0
    let b : State := State.reset
    let s : State := b
    let req : Requester := ⟨.t, 0⟩
    s.wf = true ∧ s.issues req = true ∧ s.heldBack req = false ∧ req.cls ≠ .x ∧ s.memCheck req.cls false (regPhys
      (Reg.POP_ARC_NEXT)) = 0 := by
  decide +kernel

theorem meets_PopReads_12 :
    let dt : Nat := 0
    let b : State := State.reset
    let s : State := { b with pops := tset b.pops (popKey (.tsq 3)) { inFlight := some ⟨.ap, 0⟩, data := 5 } }
    let q : Fin 9 := 3
    let req : Requester := ⟨.t, 0⟩
    s.wf = true ∧ s.issues req = true ∧ s.heldBack req = false ∧ s.memCheck req.cls false (regPhys (Reg.POP_TSQ_META q.val))
      = 0 ∧ (tget s.pops (popKey (.tsq q))).inFlight.isSome = true := by
  decide +kernel

theorem meets_PopReads_13 :
    let dt : Nat := 0
    let b : State := State.reset
    let s : State := { b with pops := tset b.pops (popKey (.crr 3)) { inFlight := some ⟨.ap, 0⟩, data := 5 } }
    let c : Fin 16 := 3
    let req : Requester := ⟨.t, 0⟩
    s.wf = true ∧ s.issues req = true ∧ s.heldBack req = false ∧ s.memCheck req.cls false (regPhys (Reg.POP_CRR_META c.val))
      = 0 ∧ (tget s.pops (popKey (.crr c))).inFlight.isSome = true := by
  decide +kernel

theorem meets_PopReads_14 :
    let dt : Nat := 0
    let b : State := State.reset
    let s : State := { b with pops := tset b.pops (popKey .arc) { inFlight := some ⟨.ap, 0⟩, data := 5 } }
    let req : Requester := ⟨.t, 0⟩
    s.wf = true ∧ s.issues req = true ∧ s.heldBack req = false ∧ s.memCheck req.cls false (regPhys (Reg.POP_ARC_NEXT)) = 0 ∧
      (tget s.pops (popKey .arc)).inFlight.isSome = true := by
  decide +kernel

theorem meets_PopReads_15 :
    let dt : Nat := 0
    let b : State := State.reset
    let s : State := { b with pops := tset b.pops (popKey .arc) { inFlight := some ⟨.ap, 0⟩, data := 5, record := some { pos := 7, src := 2, code := 0x101, sev := 1, cont := false, rep := 0, seq := 5, mt := 100, lastDt := 0, payload := [] } }, app := { b.app with parked := [] } }
    let req : Requester := ⟨.ap, 0⟩
    let r : ArcRec := { pos := 7, src := 2, code := 0x101, sev := 1, cont := false, rep := 0, seq := 5, mt := 100, lastDt := 0, payload := [] }
    s.wf = true ∧ (tget s.pops (popKey .arc)).inFlight = some req ∧ req.cls ≠ .t ∧ (tget s.pops (popKey .arc)).waiting = [] ∧
      s.app.parked = [] ∧ (tget s.pops (popKey .arc)).record = some r ∧ (recImage r).length ≤ 4096 := by
  decide +kernel

theorem meets_PopReads_16 :
    let dt : Nat := 0
    let b : State := State.reset
    let s : State := { b with tsq := tset b.tsq 3 { entries := [⟨9, 2, 80⟩, ⟨4, 3, 88⟩], nextSeq := 4 }, pops := tset b.pops (popKey (.tsq 3)) { inFlight := some ⟨.ap, 0⟩, data := 5 }, app := { b.app with parked := [] } }
    let req : Requester := ⟨.ap, 0⟩
    let q : Fin 9 := 3
    let e : TsEntry := ⟨9, 2, 80⟩
    let rest : List TsEntry := [⟨4, 3, 88⟩]
    s.wf = true ∧ (tget s.pops (popKey (.tsq q))).inFlight = some req ∧ req.cls ≠ .t ∧ (tget s.pops (popKey (.tsq
      q))).waiting = [] ∧ s.app.parked = [] ∧ (tget s.tsq q.val).entries = e :: rest ∧ rest.length < 32 := by
  decide +kernel

theorem meets_PopReads_17 :
    let dt : Nat := 0
    let b : State := State.reset
    let s : State := { b with crr := { b.crr with popq := tset b.crr.popq 3 [(77, 8)] }, pops := tset b.pops (popKey (.crr 3)) { inFlight := some ⟨.ap, 0⟩, data := 5 }, app := { b.app with parked := [] } }
    let req : Requester := ⟨.ap, 0⟩
    let c : Fin 16 := 3
    let x : Nat × Nat := (77, 8)
    let rest : List (Nat × Nat) := []
    s.wf = true ∧ (tget s.pops (popKey (.crr c))).inFlight = some req ∧ req.cls ≠ .t ∧ (tget s.pops (popKey (.crr
      c))).waiting = [] ∧ s.app.parked = [] ∧ tget s.crr.popq c.val = x :: rest := by
  decide +kernel

theorem meets_PopReads_18 :
    let dt : Nat := 0
    let b : State := State.reset
    let s : State := { b with tsq := tset b.tsq 3 { entries := [⟨9, 2, 80⟩], nextSeq := 4 }, pops := tset b.pops (popKey (.tsq 3)) { inFlight := some ⟨.t, 0⟩, data := 5 }, app := { b.app with parked := [] } }
    let q : PopQueue := .tsq 3
    s.wf = true ∧ (tget s.pops (popKey q)).waiting = [] ∧ s.app.parked = [] := by
  decide +kernel

/-! PowerInput -/

theorem meets_PowerInput_0 :
    let dt : Nat := 0
    let b : State := State.reset
    let s : State := let u := b.setF ⟨Reg.PWR_STATUS, 0, 3⟩ 1; { u with pwr := { u.pwr with pfwAt := some 0 } }
    let vin : Nat := 1500
    let since : Nat := 0
    s.wf = true ∧ s.lcs.phase ≠ .off ∧ 1500 ≤ vin ∧ s.bit Fld.PWR_STATUS_PFW = true ∧ s.bit Fld.PWR_STATUS_NV_STOP = false ∧
      s.bit Fld.PWR_STATUS_OVDISC = false ∧ s.pwr.pfwAt = some since ∧ ((s.elapse dt).time.clock - since) / 1000 < 4294967296
      ∧ PortRoom s 0x16 := by
  decide +kernel

theorem meets_PowerInput_1 :
    let dt : Nat := 0
    let b : State := State.reset
    let s : State := b.setF ⟨Reg.PWR_STATUS, 0, 3⟩ 1
    let vin : Nat := 15401
    s.wf = true ∧ s.lcs.phase ≠ .off ∧ 15400 < vin ∧ s.bit Fld.PWR_STATUS_OVDISC = false ∧ s.bit Fld.PWR_STATUS_PFW = true ∧
      PortRoom s 0x16 := by
  decide +kernel

theorem meets_PowerInput_2 :
    let dt : Nat := 0
    let b : State := State.reset
    let s : State := b
    let vin : Nat := 14999
    s.wf = true ∧ s.lcs.phase ≠ .off ∧ vin < 15000 := by
  decide +kernel

theorem meets_PowerInput_3 :
    let dt : Nat := 0
    let b : State := State.reset
    let s : State := b.setB Fld.PWR_STATUS_VIN_HIGH false
    let vin : Nat := 13751
    s.wf = true ∧ s.lcs.phase ≠ .off ∧ 13750 < vin ∧ s.bit Fld.PWR_STATUS_VIN_HIGH = false ∧ PortRoom s 0x16 := by
  decide +kernel

theorem meets_PowerInput_4 :
    let dt : Nat := 0
    let b : State := State.reset
    let s : State := b.setF ⟨Reg.PWR_STATUS, 0, 4⟩ 0
    let vin : Nat := 1679
    s.wf = true ∧ s.lcs.phase ≠ .off ∧ vin < 1680 ∧ s.bit Fld.PWR_STATUS_VIN_LOW = false ∧ s.bit Fld.PWR_STATUS_PFW = false ∧
      PortRoom s 0x16 := by
  decide +kernel

theorem meets_PowerInput_5 :
    let dt : Nat := 0
    let b : State := State.reset
    let s : State := b.setB Fld.PWR_STATUS_PFW false
    let vhold : Nat := 6000
    s.wf = true ∧ s.lcs.phase ≠ .off ∧ s.bit Fld.PWR_STATUS_PFW = false := by
  decide +kernel

/-! PowerStop -/

theorem meets_PowerStop_0 :
    let dt : Nat := 0
    let b : State := State.reset
    let s : State := (b.setB Fld.PWR_STATUS_NV_STOP false).setF Fld.RPL_STATUS_ROLE 2
    let vhold : Nat := 3600
    s.wf = true ∧ s.lcs.phase ≠ .off ∧ vhold ≤ 3600 ∧ s.bit Fld.PWR_STATUS_NV_STOP = false ∧ PortRoom s 0x16 := by
  decide +kernel

theorem meets_PowerStop_1 :
    let dt : Nat := 0
    let b : State := State.reset
    let s : State := (b.setF ⟨Reg.PWR_STATUS, 0, 10⟩ 0).setF Fld.RPL_STATUS_ROLE 2
    let temp : Int := 1051
    s.wf = true ∧ s.lcs.phase ≠ .off ∧ 1050 < temp ∧ s.bit Fld.PWR_STATUS_OVERTEMP = false ∧ s.bit Fld.PWR_STATUS_NV_STOP =
      false ∧ (tget s.arc.ports 0x16).length < 31 := by
  decide +kernel

theorem meets_PowerStop_2 :
    let dt : Nat := 0
    let b : State := State.reset
    let s : State := { b with pwr := { b.pwr with nvStopAt := some 0 }, time := { b.time with clock := 4000000 } }
    let at_ : Nat := 0
    s.wf = true ∧ s.pwr.nvStopAt = some at_ ∧ at_ + 4000000 ≤ (s.elapse dt).time.clock := by
  decide +kernel

theorem meets_PowerStop_3 :
    let dt : Nat := 0
    let b : State := State.reset
    let s : State := b.setB Fld.PWR_STATUS_TEMPWARN false
    let temp : Int := 901
    s.wf = true ∧ s.lcs.phase ≠ .off ∧ 900 < temp ∧ s.bit Fld.PWR_STATUS_TEMPWARN = false ∧ PortRoom s 0x16 := by
  decide +kernel

theorem meets_PowerStop_4 :
    let dt : Nat := 0
    let b : State := State.reset
    let s : State := b
    let temp : Int := 849
    s.wf = true ∧ s.lcs.phase ≠ .off ∧ temp < 850 := by
  decide +kernel

theorem meets_PowerStop_5 :
    let dt : Nat := 0
    let b : State := State.reset
    let s : State := b
    s.wf = true ∧ s.lcs.phase ≠ .off ∧ PortRoom s 0x00 := by
  decide +kernel

theorem meets_PowerStop_6 :
    let dt : Nat := 0
    let b : State := State.reset
    let s : State := b
    s.wf = true := by
  decide +kernel

/-! ModuleResets -/

theorem meets_ModuleResets_0 :
    let dt : Nat := 0
    let b : State := State.reset
    let s : State := b
    let vin : Nat := 1600
    let env : ResetEnv := { bkKept := true, rtc := 123456789, bkCount := 3, vcap := 40, vbak := 3000, plug := { present := false, pins := 0, memory := none }, nonceLo := 5, nonceHi := 6 }
    s.wf = true ∧ 1600 ≤ vin ∧ s.pwr.heldHot = false := by
  decide +kernel

theorem meets_ModuleResets_1 :
    let dt : Nat := 0
    let b : State := State.reset
    let s : State := { b with pwr := { b.pwr with heldHot := false } }
    let env : ResetEnv := { bkKept := true, rtc := 123456789, bkCount := 3, vcap := 40, vbak := 3000, plug := { present := false, pins := 0, memory := none }, nonceLo := 5, nonceHi := 6 }
    s.wf = true ∧ s.pwr.heldHot = false := by
  decide +kernel

theorem meets_ModuleResets_2 :
    let dt : Nat := 0
    let b : State := State.reset
    let s : State := { b with lcs := { b.lcs with phase := .off }, pwr := { b.pwr with heldHot := true } }
    let env : ResetEnv := { bkKept := true, rtc := 123456789, bkCount := 3, vcap := 40, vbak := 3000, plug := { present := false, pins := 0, memory := none }, nonceLo := 5, nonceHi := 6 }
    s.wf = true ∧ s.pwr.heldHot = true ∧ s.lcs.phase = .off := by
  decide +kernel

theorem meets_ModuleResets_3 :
    let dt : Nat := 0
    let b : State := State.reset
    let s : State := { b with cv := { b.cv with resetDue := true } }
    let env : ResetEnv := { bkKept := true, rtc := 123456789, bkCount := 3, vcap := 40, vbak := 3000, plug := { present := false, pins := 0, memory := none }, nonceLo := 5, nonceHi := 6 }
    s.wf = true ∧ s.cv.resetDue = true := by
  decide +kernel

theorem meets_ModuleResets_4 :
    let dt : Nat := 0
    let b : State := State.reset
    let s : State := { b with lcs := { b.lcs with phase := .off } }
    let env : ResetEnv := { bkKept := true, rtc := 123456789, bkCount := 3, vcap := 40, vbak := 3000, plug := { present := false, pins := 0, memory := none }, nonceLo := 5, nonceHi := 6 }
    s.wf = true ∧ s.lcs.phase = .off ∧ s.pwr.heldHot = false := by
  decide +kernel

theorem meets_ModuleResets_5 :
    let dt : Nat := 0
    let b : State := State.reset
    let s : State := { b with lcs := { b.lcs with busy := some { cmd := 7, act := .restart, result := 0, nonce := none } } }
    let busy : LcsBusy := { cmd := 7, act := .restart, result := 0, nonce := none }
    let env : ResetEnv := { bkKept := true, rtc := 123456789, bkCount := 3, vcap := 40, vbak := 3000, plug := { present := false, pins := 0, memory := none }, nonceLo := 5, nonceHi := 6 }
    s.wf = true ∧ s.lcs.busy = some busy ∧ busy.act = .restart ∧ busy.result = 0 := by
  decide +kernel

theorem meets_ModuleResets_6 :
    let dt : Nat := 0
    let b : State := State.reset
    let s : State := { b with lcs := { b.lcs with phase := .off }, pwr := { b.pwr with heldHot := true } }
    let temp : Int := 899
    let env : ResetEnv := { bkKept := true, rtc := 123456789, bkCount := 3, vcap := 40, vbak := 3000, plug := { present := false, pins := 0, memory := none }, nonceLo := 5, nonceHi := 6 }
    s.wf = true ∧ temp < 900 ∧ s.pwr.heldHot = true ∧ s.lcs.phase = .off := by
  decide +kernel

/-! StartSequence -/

theorem meets_StartSequence_0 :
    let dt : Nat := 0
    let b : State := State.reset
    let s : State := { b with lcs := { b.lcs with phase := .lbist } }
    let failed : List (Fin 27 × Fin 16) := [(3, 4), (0x0A, 0)]
    let ms : Nat := 700
    s.wf = true ∧ s.lcs.phase = .lbist := by
  decide +kernel

theorem meets_StartSequence_1 :
    let dt : Nat := 0
    let b : State := State.reset
    let s : State := let u := b.setF (Fld.STE_FAILMAP_UNITS 0x02) 0; { u with lcs := { u.lcs with phase := .lbist } }
    let ms : Nat := 700
    s.wf = true ∧ s.lcs.phase = .lbist ∧ s.getF (Fld.STE_FAILMAP_UNITS 0x02) % 8 = 0 ∧ PortRoom s 0x14 := by
  decide +kernel

theorem meets_StartSequence_2 :
    let dt : Nat := 0
    let b : State := State.reset
    let s : State := let u := keyed (b.setF Fld.LCS_BOOTINFO_FAILSTARTS 0); { u with lcs := { u.lcs with phase := .rom, writing := false, docentNext := 0, bootCfg0 := some ⟨wImg_boot, 1⟩, bootCfg1 := none, docent0 := some ⟨wImg_docent, 1⟩ } }
    let cfg : Stored := ⟨wImg_boot, 1⟩
    s.wf = true ∧ s.lcs.phase = .rom ∧ s.lcs.writing = false ∧ s.getF Fld.LCS_BOOTINFO_FAILSTARTS < 3 ∧ s.bootConfig = some
      cfg ∧ ((s.validStored (if s.lcs.docentNext = 0 then s.lcs.docent0 else s.lcs.docent1) 2).isSome = true) := by
  decide +kernel

theorem meets_StartSequence_3 :
    let dt : Nat := 0
    let b : State := State.reset
    let s : State := { b with lcs := { b.lcs with phase := .rom, writing := true } }
    s.wf = true ∧ s.lcs.phase = .rom ∧ s.lcs.writing = true := by
  decide +kernel

theorem meets_StartSequence_4 :
    let dt : Nat := 0
    let b : State := State.reset
    let s : State := let u := b.setF Fld.LCS_BOOTINFO_FAILSTARTS 3; { u with lcs := { u.lcs with phase := .rom, writing := false } }
    s.wf = true ∧ s.lcs.phase = .rom ∧ s.lcs.writing = false ∧ 3 ≤ s.getF Fld.LCS_BOOTINFO_FAILSTARTS := by
  decide +kernel

theorem meets_StartSequence_5 :
    let dt : Nat := 0
    let b : State := State.reset
    let s : State := let u := b.setF Fld.LCS_BOOTINFO_FAILSTARTS 0; { u with lcs := { u.lcs with phase := .rom, writing := false, bootCfg0 := none, bootCfg1 := none } }
    s.wf = true ∧ s.lcs.phase = .rom ∧ s.lcs.writing = false ∧ s.getF Fld.LCS_BOOTINFO_FAILSTARTS < 3 ∧ s.bootConfig = none
      := by
  decide +kernel

theorem meets_StartSequence_6 :
    let dt : Nat := 0
    let b : State := State.reset
    let s : State := let u := keyed (b.setF Fld.LCS_BOOTINFO_FAILSTARTS 0); { u with lcs := { u.lcs with phase := .rom, writing := false, bootCfg0 := some ⟨wImg_boot, 1⟩, bootCfg1 := none, docent0 := none, docent1 := none } }
    let cfg : Stored := ⟨wImg_boot, 1⟩
    s.wf = true ∧ s.lcs.phase = .rom ∧ s.lcs.writing = false ∧ s.getF Fld.LCS_BOOTINFO_FAILSTARTS < 3 ∧ s.bootConfig = some
      cfg ∧ s.validStored s.lcs.docent0 2 = none ∧ s.validStored s.lcs.docent1 2 = none := by
  decide +kernel

theorem meets_StartSequence_7 :
    let dt : Nat := 0
    let b : State := State.reset
    let s : State := { b with lcs := { b.lcs with phase := .docent, firmware := none } }
    s.wf = true ∧ s.lcs.phase = .docent ∧ s.validStored s.lcs.firmware 1 = none := by
  decide +kernel

theorem meets_StartSequence_8 :
    let dt : Nat := 0
    let b : State := State.reset
    let s : State := let u := keyed b; { u with lcs := { u.lcs with phase := .docent, oldCopy := none, firmware := some ⟨wImg_fw, 1⟩ } }
    let fw : Stored := ⟨wImg_fw, 1⟩
    s.wf = true ∧ s.lcs.phase = .docent ∧ s.validStored s.lcs.firmware 1 = some fw ∧ s.lcs.oldCopy = none := by
  decide +kernel

theorem meets_StartSequence_9 :
    let dt : Nat := 0
    let b : State := State.reset
    let s : State := let u := (((((b.setF Fld.RPL_STATUS_ROLE 0).setB Fld.SYS_PLUG_FAULT false).setF Fld.LCS_STATE_STATE 1).setF Fld.RTS_STATE_STATE 1).setF Fld.TRIAD_STATUS_MODE 1).setB Fld.RPL_CFG_PAIRED false; { u with lcs := { u.lcs with phase := .firmware } }
    s.wf = true ∧ s.lcs.phase = .firmware ∧ s.role = 0 ∧ s.rpl.negotiating = none ∧ s.bit Fld.SYS_PLUG_FAULT = false ∧
      s.lcs.startOnlyFail = false ∧ s.lcState ≠ 4 ∧ s.getF Fld.RTS_STATE_STATE = 1 ∧ (s.triadMode = 1 ∨ s.triadMode = 2) ∧
      s.paired = false ∧ (s.elapse dt).walStarted = true := by
  decide +kernel

/-! VotesAndChecks -/

theorem meets_VotesAndChecks_0 :
    let dt : Nat := 0
    let b : State := State.reset
    let s : State := let u := (let u := (((b.setF Fld.TRIAD_STATUS_MODE 1).setF Fld.TRIAD_STATUS_MASKED 0).setF Fld.TRIAD_STATUS_RETIRED 0); { u with triad := { u.triad with lanes := [], reint := none, retireDue := [] } }); u.memPut 0x1000 [1, 2, 3, 4, 5, 6, 7, 8]
    let tx : Txn := { kind := 0, addr := 0x1000, data := 0x1122334455667788, be := 0xF2, attr := 0 }
    let b : Ballot := { ta := [tx], tb := [tx], tc := [tx], votersAgree := true }
    s.wf = true ∧ s.activeLanes = [0, 1, 2] ∧ b.votersAgree = true ∧ (s.place b).presented 0 = some tx ∧ (s.place
      b).presented 1 = some tx ∧ (s.place b).presented 2 = some tx ∧ tx.kind = 0 ∧ regionOf tx.addr = some .ddr ∧ s.memCheck
      .t true tx.addr = 0 := by
  decide +kernel

theorem meets_VotesAndChecks_1 :
    let dt : Nat := 0
    let b : State := State.reset
    let s : State := let u := (let u := (((b.setF Fld.TRIAD_STATUS_MODE 1).setF Fld.TRIAD_STATUS_MASKED 0).setF Fld.TRIAD_STATUS_RETIRED 0); { u with triad := { u.triad with lanes := [], reint := none, retireDue := [] } }); u.memPut 0x1000 [1, 2, 3, 4, 5, 6, 7, 8]
    let tx : Txn := { kind := 1, addr := 0x1000, data := 0, be := 255, attr := 0 }
    let b : Ballot := { ta := [tx], tb := [tx], tc := [tx], votersAgree := true }
    s.wf = true ∧ s.activeLanes = [0, 1, 2] ∧ b.votersAgree = true ∧ (s.place b).presented 0 = some tx ∧ (s.place
      b).presented 1 = some tx ∧ (s.place b).presented 2 = some tx ∧ tx.kind = 1 ∧ tx.be = 255 ∧ regionOf tx.addr = some .ddr
      ∧ s.memCheck .t false tx.addr = 0 := by
  decide +kernel

theorem meets_VotesAndChecks_2 :
    let dt : Nat := 0
    let b : State := State.reset
    let s : State := let u := (let u := (((b.setF Fld.TRIAD_STATUS_MODE 1).setF Fld.TRIAD_STATUS_MASKED 0).setF Fld.TRIAD_STATUS_RETIRED 0); { u with triad := { u.triad with lanes := [], reint := none, retireDue := [] } }); u.memPut 0x1000 [1, 2, 3, 4, 5, 6, 7, 8]
    let tx : Txn := { kind := 1, addr := 0x1000, data := 0, be := 255, attr := 0 }
    let lane : Fin 3 := 1
    let b : Ballot := { ta := [tx], tb := [], tc := [tx], votersAgree := true }
    s.wf = true ∧ s.activeLanes = [0, 1, 2] ∧ b.votersAgree = true ∧ (s.place b).presented lane.val = none ∧ (∀ l : Fin 3, l
      ≠ lane → (s.place b).presented l.val = some tx) ∧ tx.kind = 1 ∧ tx.be = 255 ∧ regionOf tx.addr = some .ddr ∧ s.memCheck
      .t false tx.addr = 0 ∧ PortRoom s 0x02 := by
  decide +kernel

theorem meets_VotesAndChecks_3 :
    let dt : Nat := 0
    let b : State := State.reset
    let s : State := b
    let lane : Fin 3 := 1
    let addr : Nat := 64
    s.wf = true := by
  decide +kernel

theorem meets_VotesAndChecks_4 :
    let dt : Nat := 0
    let b : State := State.reset
    let s : State := (((b.setF Fld.TRIAD_STATUS_MODE 1).setF Fld.TRIAD_STATUS_MASKED 0).setF Fld.TRIAD_STATUS_RETIRED 0)
    let lane : Fin 3 := 2
    let addr : Nat := 64
    s.wf = true ∧ s.activeLanes = [0, 1, 2] ∧ PortRoom s 0x02 := by
  decide +kernel

theorem meets_VotesAndChecks_5 :
    let dt : Nat := 0
    let b : State := State.reset
    let s : State := (((b.setF Fld.TRIAD_STATUS_MODE 1).setF Fld.TRIAD_STATUS_MASKED 0).setF Fld.TRIAD_STATUS_RETIRED 0)
    let item : Inbound := .interrupt 5
    s.wf = true ∧ s.activeLanes ≠ [] := by
  decide +kernel

theorem meets_VotesAndChecks_6 :
    let dt : Nat := 0
    let b : State := State.reset
    let s : State := (((b.setF Fld.TRIAD_STATUS_MODE 1).setF Fld.TRIAD_STATUS_MASKED 0).setF Fld.TRIAD_STATUS_RETIRED 0)
    s.wf = true ∧ s.triadMode ≠ 0 := by
  decide +kernel

theorem meets_VotesAndChecks_7 :
    let dt : Nat := 0
    let b : State := State.reset
    let s : State := (((b.setF Fld.TRIAD_STATUS_MODE 1).setF Fld.TRIAD_STATUS_MASKED 0).setF Fld.TRIAD_STATUS_RETIRED 0)
    let failing : BitVec 8 := 4
    s.wf = true ∧ failing ≠ 0 ∧ s.triadMode ≠ 0 ∧ s.triadMode ≠ 4 ∧ PortRoom s 0x02 ∧ PortRoom s 0x13 := by
  decide +kernel

/-! SyncAndFence -/

theorem meets_SyncAndFence_0 :
    let dt : Nat := 0
    let b : State := State.reset
    let s : State := (((b.setF Fld.TRIAD_STATUS_MODE 1).setF Fld.TRIAD_STATUS_MASKED 0).setF Fld.TRIAD_STATUS_RETIRED 0)
    let word : BitVec 32 := 0x38B
    let ra : LaneRegs := { x := [5, 6] }
    let back : Nat := 900
    s.wf = true ∧ s.activeLanes = [0, 1, 2] ∧ State.customLegal word 0 = true ∧ PortRoom s 0x02 := by
  decide +kernel

theorem meets_SyncAndFence_1 :
    let dt : Nat := 0
    let b : State := State.reset
    let s : State := (let u := (((b.setF Fld.TRIAD_STATUS_MODE 1).setF Fld.TRIAD_STATUS_MASKED 0).setF Fld.TRIAD_STATUS_RETIRED 0); { u with triad := { u.triad with lanes := [], reint := none, retireDue := [] } })
    let word : BitVec 32 := 0x0B
    let ra : LaneRegs := { x := [5, 6] }
    let rc : LaneRegs := { x := [5, 7] }
    let back : Nat := 0
    s.wf = true ∧ s.activeLanes = [0, 1, 2] ∧ State.customLegal word 0 = true ∧ State.stateHash ra ≠ State.stateHash rc ∧
      s.triad.reint = none ∧ PortRoom s 0x02 := by
  decide +kernel

theorem meets_SyncAndFence_2 :
    let dt : Nat := 0
    let b : State := State.reset
    let s : State := b
    let word : BitVec 32 := 0x0B
    let onApp : Bool := false
    let recs : LaneRecords := ⟨none, none, none⟩
    let agree : Bool := true
    let back : Nat := 0
    s.wf = true := by
  decide +kernel

theorem meets_SyncAndFence_3 :
    let dt : Nat := 0
    let b : State := State.reset
    let s : State := let u := (let u := (((b.setF Fld.TRIAD_STATUS_MODE 1).setF Fld.TRIAD_STATUS_MASKED 0).setF Fld.TRIAD_STATUS_RETIRED 0); { u with triad := { u.triad with lanes := [], reint := none, retireDue := [] } }); { u with lcs := { u.lcs with phase := .firmware }, time := { u.time with mt := u.time.edgeAt - 4000 } }
    s.wf = true ∧ s.activeLanes ≠ [] ∧ s.triad.vsyncDone = false ∧ s.time.edgeAt ≤ (s.elapse dt).time.mt + 5000 ∧
      (s.lcs.phase = .executive ∨ s.lcs.phase = .firmware) ∧ s.triadMode ≠ 4 ∧ PortRoom s 0x02 ∧ PortRoom s 0x13 := by
  decide +kernel

theorem meets_SyncAndFence_4 :
    let dt : Nat := 0
    let b : State := State.reset
    let s : State := (((b.setF Fld.TRIAD_STATUS_MODE 1).setF Fld.TRIAD_STATUS_MASKED 0).setF Fld.TRIAD_STATUS_RETIRED 0)
    let word : BitVec 32 := 0x100B
    let priv : Priv := .user
    s.wf = true ∧ State.customLegal word 1 = true ∧ s.activeLanes ≠ [] := by
  decide +kernel

theorem meets_SyncAndFence_5 :
    let dt : Nat := 0
    let b : State := State.reset
    let s : State := { b with triad := { b.triad with vfenceAt := some 0, ackErr := some 0x14 }, csc := {} }
    let since : Nat := 0
    s.wf = true ∧ s.triad.vfenceAt = some since ∧ s.farOpen = false := by
  decide +kernel

theorem meets_SyncAndFence_6 :
    let dt : Nat := 0
    let b : State := State.reset
    let s : State := { b with triad := { b.triad with vfenceAt := some 0 }, csc := { b.csc with readQ := [⟨0, ⟨.t, b.triad.vfEra⟩, false, 0, 8⟩] } }
    let acked : Bool := true
    let since : Nat := 0
    s.wf = true ∧ s.triad.vfenceAt = some since ∧ (acked = false ∨ s.farOpen = true) := by
  decide +kernel

theorem meets_SyncAndFence_7 :
    let dt : Nat := 0
    let b : State := State.reset
    let s : State := { b with triad := { b.triad with vfenceAt := some 0 }, time := { b.time with clock := 20000 } }
    let since : Nat := 0
    s.wf = true ∧ s.triad.vfenceAt = some since ∧ since + 20000 ≤ (s.elapse dt).time.clock := by
  decide +kernel

/-! TriadRequests -/

theorem meets_TriadRequests_0 :
    let dt : Nat := 0
    let b : State := State.reset
    let s : State := let u := (b.setF Fld.TRIAD_STATUS_MODE 1).setF Fld.TRIAD_STATUS_MASKED 6; { u with triad := { u.triad with retireDue := [] } }
    let req : Requester := ⟨.t, 0⟩
    let lane : Fin 4 := 2
    s.wf = true ∧ Lets s req Reg.TRIAD_REINT ∧ s.triadMode = 1 ∧ s.laneMasked lane.val = true ∧ s.triad.retireDue.contains
      lane.val = false := by
  decide +kernel

theorem meets_TriadRequests_1 :
    let dt : Nat := 0
    let b : State := State.reset
    let s : State := (b.setF Fld.TRIAD_STATUS_MODE 1).setF Fld.RPL_STATUS_ROLE 2
    let req : Requester := ⟨.t, 0⟩
    let reason : Byte := 7
    s.wf = true ∧ Lets s req Reg.TRIAD_SAFEREQ ∧ s.triadMode ≠ 4 ∧ PortRoom s 0x02 ∧ PortRoom s 0x13 := by
  decide +kernel

theorem meets_TriadRequests_2 :
    let dt : Nat := 0
    let b : State := State.reset
    let s : State := let u := b.setB Fld.TRIAD_LOAN_REQ false; { u with triad := { u.triad with loanReqAt := none } }
    let req : Requester := ⟨.t, 0⟩
    s.wf = true ∧ Lets s req Reg.TRIAD_LOAN ∧ s.bit Fld.TRIAD_LOAN_REQ = false ∧ s.triad.loanReqAt = none := by
  decide +kernel

theorem meets_TriadRequests_3 :
    let dt : Nat := 0
    let b : State := State.reset
    let s : State := let u := b.setF Fld.TRIAD_STATUS_MODE 3; { u with triad := { u.triad with loanEnd := none, loanReturnDue := false } }
    let req : Requester := ⟨.t, 0⟩
    s.wf = true ∧ Lets s req Reg.TRIAD_LOAN ∧ s.triadMode = 3 ∧ s.triad.loanEnd = none ∧ s.triad.loanReturnDue = false := by
  decide +kernel

theorem meets_TriadRequests_4 :
    let dt : Nat := 0
    let b : State := State.reset
    let s : State := let u := (b.setF Fld.TRIAD_STATUS_MODE 3).setB Fld.TRIAD_LOANSTAT_TC_HALTED false; { u with triad := { u.triad with loanEnd := none, loanReturnDue := false, loanTc := some ⟨true, {}, [], 0, 0⟩ } }
    let req : Requester := ⟨.l, 2⟩
    s.wf = true ∧ Lets s req Reg.TRIAD_LOANRET ∧ s.triadMode = 3 ∧ s.triad.loanEnd = none ∧ s.triad.loanReturnDue = false :=
      by
  decide +kernel

theorem meets_TriadRequests_5 :
    let dt : Nat := 0
    let b : State := State.reset
    let s : State := b.setF Fld.TRIAD_STATUS_MODE 3
    s.wf = true ∧ s.triadMode = 3 := by
  decide +kernel

/-! GarnetSupplyAndInputs -/

theorem meets_GarnetSupplyAndInputs_0 :
    let dt : Nat := 0
    let b : State := State.reset
    let s : State := { b with gar := { b.gar with powered := false, pairs := tset b.gar.pairs 1 { closed := true } } }
    s.wf = true ∧ s.gar.powered = false := by
  decide +kernel

theorem meets_GarnetSupplyAndInputs_1 :
    let dt : Nat := 0
    let b : State := State.reset
    let s : State := let im : List (Nat × Nat) → List Byte := fun l => (List.range 384).map fun i => BitVec.ofNat 8 (((l.find? fun x => x.1 == i).map fun x => x.2).getD 0); let u := (b.setF Fld.GAR_GCAUSE_CAUSE 0).setF Fld.GAR_STATUS_STATE 0; { u with gar := { u.gar with powered := true, active := some (im [(128, 1), (129, 0x83), (131, 0x82), (136, 10), (138, 20), (140, 30), (142, 200), (144, 60)]) } }
    s.wf = true ∧ s.gar.powered = true ∧ s.gar.active.isSome = true ∧ s.getF Fld.GAR_STATUS_STATE = 0 ∧ s.getF
      Fld.GAR_GCAUSE_CAUSE = 0 := by
  decide +kernel

theorem meets_GarnetSupplyAndInputs_2 :
    let dt : Nat := 0
    let b : State := State.reset
    let s : State := let im : List (Nat × Nat) → List Byte := fun l => (List.range 384).map fun i => BitVec.ofNat 8 (((l.find? fun x => x.1 == i).map fun x => x.2).getD 0); let u := (b).setF Fld.GAR_STATUS_STATE 0; { u with gar := { u.gar with powered := true, active := some (im [(128, 1), (129, 0x83), (131, 0x82), (136, 10), (138, 20), (140, 30), (142, 200), (144, 60)]) } }
    let chk : GarnetCheck := { image := true, compare := false, testPulses := true, readback := true }
    s.wf = true ∧ chk.compare = false ∧ s.gar.powered = true ∧ s.gar.active.isSome = true ∧ s.getF Fld.GAR_STATUS_STATE = 0
      := by
  decide +kernel

theorem meets_GarnetSupplyAndInputs_3 :
    let dt : Nat := 0
    let b : State := State.reset
    let s : State := let im : List (Nat × Nat) → List Byte := fun l => (List.range 384).map fun i => BitVec.ofNat 8 (((l.find? fun x => x.1 == i).map fun x => x.2).getD 0); let u := (b).setF Fld.GAR_STATUS_STATE 1; { u with gar := { u.gar with powered := true, active := some (im [(128, 1), (129, 0x83), (131, 0x82), (136, 10), (138, 20), (140, 30), (142, 200), (144, 60)]), pairs := tset b.gar.pairs 2 { closed := true } } }
    s.wf = true ∧ s.gar.powered = true := by
  decide +kernel

theorem meets_GarnetSupplyAndInputs_4 :
    let dt : Nat := 0
    let b : State := State.reset
    let s : State := let im : List (Nat × Nat) → List Byte := fun l => (List.range 384).map fun i => BitVec.ofNat 8 (((l.find? fun x => x.1 == i).map fun x => x.2).getD 0); let u := (b).setF Fld.GAR_STATUS_STATE 1; { u with gar := { u.gar with powered := true, active := some (im [(128, 1), (129, 0x83), (131, 0x82), (136, 10), (138, 20), (140, 30), (142, 200), (144, 60)]), pairs := tset b.gar.pairs 2 { closed := true } } }
    s.wf = true ∧ s.garRuns = true ∧ s.gar.active.isSome = true := by
  decide +kernel

theorem meets_GarnetSupplyAndInputs_5 :
    let dt : Nat := 0
    let b : State := State.reset
    let s : State := let im : List (Nat × Nat) → List Byte := fun l => (List.range 384).map fun i => BitVec.ofNat 8 (((l.find? fun x => x.1 == i).map fun x => x.2).getD 0); let u := (b).setF Fld.GAR_STATUS_STATE 1; { u with gar := { u.gar with powered := true, active := some (im [(128, 1), (129, 0x83), (131, 0x82), (136, 10), (138, 20), (140, 30), (142, 200), (144, 60)]) } }
    let input : Fin 8 := 3
    let chanB : Bool := true
    let level : Bool := true
    s.wf = true ∧ s.gar.powered = true := by
  decide +kernel

theorem meets_GarnetSupplyAndInputs_6 :
    let dt : Nat := 0
    let b : State := State.reset
    let s : State := let im : List (Nat × Nat) → List Byte := fun l => (List.range 384).map fun i => BitVec.ofNat 8 (((l.find? fun x => x.1 == i).map fun x => x.2).getD 0); let u := (((b.setF Fld.GAR_STATUS_LOCKED 0).setF (Fld.GAR_INST_CAUSE 0) 0).setF Fld.GAR_INPUTS_SI 0x40).setF Fld.GAR_STATUS_STATE 1; { u with gar := { u.gar with powered := true, active := some (im [(128, 2), (129, 0x83), (134, 1)]), discSince := tset b.gar.discSince 3 (some 0) }, time := { u.time with clock := 1000001 } }
    let inst : Fin 8 := 0
    let k : Nat := 3
    let since : Nat := 0
    s.wf = true ∧ s.garRuns = true ∧ s.gtype inst.val ≠ 0 ∧ s.locked inst.val = false ∧ k ∈ instInputs s.gimg inst.val ∧
      s.discrepant k = true ∧ tget s.gar.discSince k = some since ∧ since + gins s.gimg inst.val 6 2 * 1000000 < (s.elapse
      dt).time.clock := by
  decide +kernel

theorem meets_GarnetSupplyAndInputs_7 :
    let dt : Nat := 0
    let b : State := State.reset
    let s : State := let im : List (Nat × Nat) → List Byte := fun l => (List.range 384).map fun i => BitVec.ofNat 8 (((l.find? fun x => x.1 == i).map fun x => x.2).getD 0); let u := (b).setF Fld.GAR_STATUS_STATE 1; { u with gar := { u.gar with powered := true, active := some (im [(64, 0), (65, 1), (66, 2)]) } }
    let tp : Fin 2 := 1
    let reads : BitVec 16 := 0
    let ch : Fin 16 := 1
    s.wf = true ∧ s.garRuns = true ∧ gin s.gimg (ch.val / 2) (1 + ch.val % 2) 1 = tp.val + 1 ∧ gin s.gimg (ch.val / 2) 0 1 ≠
      0xFF := by
  decide +kernel

theorem meets_GarnetSupplyAndInputs_8 :
    let dt : Nat := 0
    let b : State := State.reset
    let s : State := let im : List (Nat × Nat) → List Byte := fun l => (List.range 384).map fun i => BitVec.ofNat 8 (((l.find? fun x => x.1 == i).map fun x => x.2).getD 0); let u := (b.setF Fld.GAR_INPUTS_SI 2).setF Fld.GAR_STATUS_STATE 1; { u with gar := { u.gar with powered := true, active := some (im [(64, 0), (65, 1), (66, 2)]) } }
    let tp : Fin 2 := 1
    let reads : BitVec 16 := 2
    let ch : Fin 16 := 1
    s.wf = true ∧ s.garRuns = true ∧ gin s.gimg (ch.val / 2) (1 + ch.val % 2) 1 = tp.val + 1 ∧ gin s.gimg (ch.val / 2) 0 1 ≠
      0xFF ∧ (s.getF Fld.GAR_INPUTS_SI).testBit ch.val = true ∧ reads.toNat.testBit ch.val = true := by
  decide +kernel

theorem meets_GarnetSupplyAndInputs_9 :
    let dt : Nat := 0
    let b : State := State.reset
    let s : State := let im : List (Nat × Nat) → List Byte := fun l => (List.range 384).map fun i => BitVec.ofNat 8 (((l.find? fun x => x.1 == i).map fun x => x.2).getD 0); let u := (((b.setF Fld.GAR_STATUS_LOCKED 0).setF (Fld.GAR_INST_CAUSE 0) 0).setF Fld.GAR_INPUTS_SI 0xFFFF).setF Fld.GAR_STATUS_STATE 1; { u with gar := { u.gar with powered := true, active := some (im [(128, 2), (129, 0x83)]) } }
    let req : Requester := ⟨.t, 0⟩
    let insts : BitVec 8 := 1
    let j : Fin 8 := 0
    s.wf = true ∧ Lets s req Reg.GAR_ACK ∧ s.garRuns = true ∧ insts.toNat.testBit j.val = true ∧ (s.gtype j.val = 2 ∨ s.gtype
      j.val = 5) ∧ s.healthy1 j.val = true ∧ s.locked j.val = false := by
  decide +kernel

theorem meets_GarnetSupplyAndInputs_10 :
    let dt : Nat := 0
    let b : State := State.reset
    let s : State := let im : List (Nat × Nat) → List Byte := fun l => (List.range 384).map fun i => BitVec.ofNat 8 (((l.find? fun x => x.1 == i).map fun x => x.2).getD 0); let u := (((b.setF Fld.GAR_STATUS_LOCKED 0).setF (Fld.GAR_INST_CAUSE 0) 0)).setF Fld.GAR_STATUS_STATE 1; { u with gar := { u.gar with powered := true, active := some (im [(128, 1), (129, 0x83), (131, 0x82), (136, 10), (138, 20), (140, 30), (142, 200), (144, 60)]), pairs := tset b.gar.pairs 2 { closed := true } } }
    let sense : GarnetSense := { differ := false, oscOver := false, hsDriven := 0, lsDriven := 0, loadSupply := true, grst := true, tp := 3 }
    s.wf = true ∧ s.garRuns = true := by
  decide +kernel

/-! GarnetOutputs -/

theorem meets_GarnetOutputs_0 :
    let dt : Nat := 0
    let b : State := State.reset
    let s : State := let im : List (Nat × Nat) → List Byte := fun l => (List.range 384).map fun i => BitVec.ofNat 8 (((l.find? fun x => x.1 == i).map fun x => x.2).getD 0); let u := (((b.setF Fld.GAR_STATUS_LOCKED 0).setF (Fld.GAR_INST_CAUSE 0) 0)).setF Fld.GAR_STATUS_STATE 1; { u with gar := { u.gar with powered := true, active := some (im [(128, 1), (129, 0x83), (131, 0x82), (136, 10), (138, 20), (140, 30), (142, 200), (144, 60)]), pairs := tset b.gar.pairs 2 { closed := true } } }
    let pair : Fin 4 := 2
    s.wf = true ∧ s.garRuns = true ∧ (s.gpair pair.val).closed = true ∧ (s.gpair pair.val).hold = none ∧ (s.gpair
      pair.val).test = none ∧ (s.gpair pair.val).pulse = none ∧ (s.gpair pair.val).opLow = none ∧ (s.gpair pair.val).opNext ≤
      (s.elapse dt).time.clock := by
  decide +kernel

theorem meets_GarnetOutputs_1 :
    let dt : Nat := 0
    let b : State := State.reset
    let s : State := let im : List (Nat × Nat) → List Byte := fun l => (List.range 384).map fun i => BitVec.ofNat 8 (((l.find? fun x => x.1 == i).map fun x => x.2).getD 0); let u := (((b.setF Fld.GAR_STATUS_LOCKED 0).setF (Fld.GAR_INST_CAUSE 0) 0)).setF Fld.GAR_STATUS_STATE 1; { u with gar := { u.gar with powered := true, active := some (im [(128, 1), (129, 0x83), (131, 0x82), (136, 10), (138, 20), (140, 30), (142, 200), (144, 60)]), pairs := tset b.gar.pairs 2 { closed := true, pulse := some (true, 0) } }, time := { u.time with clock := 200000 } }
    let pair : Fin 4 := 2
    let hs : Bool := true
    let at_ : Nat := 0
    let j : Nat := 0
    s.wf = true ∧ (s.gpair pair.val).closed = true ∧ (s.gpair pair.val).pulse = some (hs, at_) ∧ s.pairInst pair.val = some j
      ∧ at_ + gins s.gimg j 14 2 * 1000 ≤ (s.elapse dt).time.clock := by
  decide +kernel

theorem meets_GarnetOutputs_2 :
    let dt : Nat := 0
    let b : State := State.reset
    let s : State := let im : List (Nat × Nat) → List Byte := fun l => (List.range 384).map fun i => BitVec.ofNat 8 (((l.find? fun x => x.1 == i).map fun x => x.2).getD 0); let u := (((b.setF Fld.GAR_STATUS_LOCKED 0).setF (Fld.GAR_INST_CAUSE 0) 0)).setF Fld.GAR_STATUS_STATE 1; { u with gar := { u.gar with powered := true, active := some (im [(128, 1), (129, 0x83), (131, 0x82), (136, 10), (138, 20), (140, 30), (142, 200), (144, 60)]), pairs := tset b.gar.pairs 2 { closed := true } } }
    let pair : Fin 4 := 2
    let j : Nat := 0
    s.wf = true ∧ s.garRuns = true ∧ s.pairInst pair.val = some j ∧ s.locked j = false ∧ (s.gpair pair.val).closed = true :=
      by
  decide +kernel

theorem meets_GarnetOutputs_3 :
    let dt : Nat := 0
    let b : State := State.reset
    let s : State := let im : List (Nat × Nat) → List Byte := fun l => (List.range 384).map fun i => BitVec.ofNat 8 (((l.find? fun x => x.1 == i).map fun x => x.2).getD 0); let u := (((b.setF Fld.GAR_STATUS_LOCKED 0).setF (Fld.GAR_INST_CAUSE 0) 0).setF Fld.GAR_INPUTS_SI 0).setF Fld.GAR_STATUS_STATE 1; { u with gar := { u.gar with powered := true, active := some (im [(128, 1), (129, 0x83), (131, 0x82), (136, 10), (138, 20), (140, 30), (142, 200), (144, 60)]), pairs := tset b.gar.pairs 2 { feedback := some (true, 0) } }, time := { u.time with clock := 10000000 } }
    let pair : Fin 4 := 2
    let j : Nat := 0
    let at_ : Nat := 0
    s.wf = true ∧ s.garRuns = true ∧ s.pairInst pair.val = some j ∧ s.locked j = false ∧ (s.gpair pair.val).feedback = some
      (true, at_) ∧ at_ + gins s.gimg j 8 2 * 1000000 ≤ (s.elapse dt).time.clock ∧ (instInput s.gimg j 1).isSome = true ∧
      s.fbApplied j = false := by
  decide +kernel

theorem meets_GarnetOutputs_4 :
    let dt : Nat := 0
    let b : State := State.reset
    let s : State := let im : List (Nat × Nat) → List Byte := fun l => (List.range 384).map fun i => BitVec.ofNat 8 (((l.find? fun x => x.1 == i).map fun x => x.2).getD 0); let u := ((b.setB Fld.GAR_STATUS_CUST_EN true).setB Fld.RPL_STATUS_ENABLE false).setF Fld.GAR_STATUS_STATE 1; { u with gar := { u.gar with powered := true, active := some (im [(128, 1), (129, 0x83), (131, 0x82), (136, 10), (138, 20), (140, 30), (142, 200), (144, 60)]), pairs := tset b.gar.pairs 2 { closed := true } } }
    s.wf = true ∧ s.gar.powered = true ∧ s.custodyOn = false ∧ s.bit Fld.GAR_STATUS_CUST_EN = true := by
  decide +kernel

theorem meets_GarnetOutputs_5 :
    let dt : Nat := 0
    let b : State := State.reset
    let s : State := let im : List (Nat × Nat) → List Byte := fun l => (List.range 384).map fun i => BitVec.ofNat 8 (((l.find? fun x => x.1 == i).map fun x => x.2).getD 0); let u := (((b.setF Fld.GAR_STATUS_LOCKED 0).setF (Fld.GAR_INST_CAUSE 0) 0)).setF Fld.GAR_STATUS_STATE 1; { u with gar := { u.gar with powered := true, active := some (im [(128, 1), (129, 0x83), (131, 0x82), (136, 10), (138, 20), (140, 30), (142, 200), (144, 60)]), pairs := tset b.gar.pairs 2 { closed := true, hold := some 0 } }, time := { u.time with clock := 5000000 } }
    let pair : Fin 4 := 2
    let at_ : Nat := 0
    s.wf = true ∧ (s.gpair pair.val).hold = some at_ ∧ (s.gpair pair.val).closed = true ∧ at_ + 5000000 ≤ (s.elapse
      dt).time.clock ∧ PortRoom s 0x05 := by
  decide +kernel

/-! GarnetBrakeTests -/

theorem meets_GarnetBrakeTests_0 :
    let dt : Nat := 0
    let b : State := State.reset
    let s : State := b
    let req : Requester := ⟨.t, 0⟩
    let pair : Fin 4 := 2
    s.wf = true ∧ Lets s req Reg.GAR_BRKTEST := by
  decide +kernel

theorem meets_GarnetBrakeTests_1 :
    let dt : Nat := 0
    let b : State := State.reset
    let s : State := let im : List (Nat × Nat) → List Byte := fun l => (List.range 384).map fun i => BitVec.ofNat 8 (((l.find? fun x => x.1 == i).map fun x => x.2).getD 0); let u := (((b.setF Fld.GAR_STATUS_LOCKED 0).setF (Fld.GAR_INST_CAUSE 0) 0)).setF Fld.GAR_STATUS_STATE 1; { u with gar := { u.gar with powered := true, active := some (im [(128, 1), (129, 0x83), (131, 0x82), (136, 10), (138, 20), (140, 30), (142, 200), (144, 60)]), pairs := tset b.gar.pairs 2 { test := some { start := 0, applied := none, aborted := false } } }, time := { u.time with clock := 10000000 } }
    let pair : Fin 4 := 2
    let j : Nat := 0
    let test : GarTest := { start := 0, applied := none, aborted := false }
    s.wf = true ∧ (s.gpair pair.val).test = some test ∧ test.aborted = false ∧ test.applied = none ∧ s.pairInst pair.val =
      some j ∧ s.locked j = false ∧ test.start + gins s.gimg j 8 2 * 1000000 ≤ (s.elapse dt).time.clock ∧ s.garRuns = true :=
      by
  decide +kernel

theorem meets_GarnetBrakeTests_2 :
    let dt : Nat := 0
    let b : State := State.reset
    let s : State := let im : List (Nat × Nat) → List Byte := fun l => (List.range 384).map fun i => BitVec.ofNat 8 (((l.find? fun x => x.1 == i).map fun x => x.2).getD 0); let u := (((b.setF Fld.GAR_STATUS_LOCKED 0).setF (Fld.GAR_INST_CAUSE 0) 0).setF Fld.GAR_INPUTS_SI 0xFFFF).setF Fld.GAR_STATUS_STATE 1; { u with gar := { u.gar with powered := true, active := some (im [(128, 1), (129, 0x83), (131, 0x82), (136, 10), (138, 20), (140, 30), (142, 200), (144, 60)]), pairs := tset b.gar.pairs 2 { test := some { start := 0, applied := some 0, aborted := false } } }, time := { u.time with clock := 30000000 } }
    let pair : Fin 4 := 2
    let j : Nat := 0
    let at_ : Nat := 0
    let test : GarTest := { start := 0, applied := some 0, aborted := false }
    s.wf = true ∧ (s.gpair pair.val).test = some test ∧ test.aborted = false ∧ test.applied = some at_ ∧ s.pairInst pair.val
      = some j ∧ s.fbApplied j = true ∧ at_ + gins s.gimg j 10 2 * 1000000 ≤ (s.elapse dt).time.clock ∧ PortRoom s 0x05 := by
  decide +kernel

theorem meets_GarnetBrakeTests_3 :
    let dt : Nat := 0
    let b : State := State.reset
    let s : State := let im : List (Nat × Nat) → List Byte := fun l => (List.range 384).map fun i => BitVec.ofNat 8 (((l.find? fun x => x.1 == i).map fun x => x.2).getD 0); let u := (((b.setF Fld.GAR_STATUS_LOCKED 0).setF (Fld.GAR_INST_CAUSE 0) 0)).setF Fld.GAR_STATUS_STATE 1; { u with gar := { u.gar with powered := true, active := some (im [(128, 1), (129, 0x83), (131, 0x82), (136, 10), (138, 20), (140, 30), (142, 200), (144, 60)]), pairs := tset b.gar.pairs 2 { test := some { start := 0, applied := none, aborted := true } } }, time := { u.time with clock := 30000000 } }
    let pair : Fin 4 := 2
    let j : Nat := 0
    let test : GarTest := { start := 0, applied := none, aborted := true }
    s.wf = true ∧ (s.gpair pair.val).test = some test ∧ test.aborted = true ∧ s.pairInst pair.val = some j ∧ test.start +
      gins s.gimg j 8 2 * 1000000 ≤ (s.elapse dt).time.clock := by
  decide +kernel

theorem meets_GarnetBrakeTests_4 :
    let dt : Nat := 0
    let b : State := State.reset
    let s : State := let im : List (Nat × Nat) → List Byte := fun l => (List.range 384).map fun i => BitVec.ofNat 8 (((l.find? fun x => x.1 == i).map fun x => x.2).getD 0); let u := (((b.setF Fld.GAR_STATUS_LOCKED 0).setF (Fld.GAR_INST_CAUSE 0) 0)).setF Fld.GAR_STATUS_STATE 1; { u with gar := { u.gar with powered := true, active := some (im [(128, 1), (129, 0x83), (131, 0x82), (136, 10), (138, 20), (140, 30), (142, 200), (144, 60)]), pairs := tset b.gar.pairs 2 { btBase := some 0 }, opAcc := 60000000001 } }
    let pair : Fin 4 := 2
    let j : Nat := 0
    let base : Nat := 0
    s.wf = true ∧ s.pairInst pair.val = some j ∧ (s.gpair pair.val).btBase = some base ∧ gins s.gimg j 16 4 ≠ 0 ∧ base + gins
      s.gimg j 16 4 * 1000000000 < (s.elapse dt).opTime := by
  decide +kernel

/-! GarnetPermit -/

theorem meets_GarnetPermit_0 :
    let dt : Nat := 0
    let b : State := State.reset
    let s : State := b
    let req : Requester := ⟨.t, 0⟩
    let seq : Byte := BitVec.ofNat 8 ((s.elapse dt).time.edgeAt / 250000 + ((s.elapse dt).effectSeq - (s.time.beatSeq + 1)))
    let rel : BitVec 4 := 5
    s.wf = true ∧ Lets s req Reg.GAR_PERMIT ∧ seq.toNat = ((s.elapse dt).time.edgeAt / 250000 + ((s.elapse dt).effectSeq -
      (s.time.beatSeq + 1))) % 256 := by
  decide +kernel

theorem meets_GarnetPermit_1 :
    let dt : Nat := 0
    let b : State := State.reset
    let s : State := b
    let req : Requester := ⟨.t, 0⟩
    let seq : Byte := BitVec.ofNat 8 ((s.elapse dt).time.edgeAt / 250000 + ((s.elapse dt).effectSeq - (s.time.beatSeq + 1)) + 1)
    let rel : BitVec 4 := 5
    s.wf = true ∧ Lets s req Reg.GAR_PERMIT ∧ seq.toNat ≠ ((s.elapse dt).time.edgeAt / 250000 + ((s.elapse dt).effectSeq -
      (s.time.beatSeq + 1))) % 256 := by
  decide +kernel

theorem meets_GarnetPermit_2 :
    let dt : Nat := 0
    let b : State := State.reset
    let s : State := { b with gar := { b.gar with staged := [(b.time.beatSeq + 1, 7)] } }
    let req : Requester := ⟨.t, 0⟩
    let pairs : BitVec 4 := 6
    s.wf = true ∧ Lets s req Reg.GAR_WITHDRAW := by
  decide +kernel

theorem meets_GarnetPermit_3 :
    let dt : Nat := 0
    let b : State := State.reset
    let s : State := let im : List (Nat × Nat) → List Byte := fun l => (List.range 384).map fun i => BitVec.ofNat 8 (((l.find? fun x => x.1 == i).map fun x => x.2).getD 0); let u := (((b.setF Fld.GAR_STATUS_LOCKED 0).setF (Fld.GAR_INST_CAUSE 0) 0).setF (Fld.GAR_PERMSTAT_PSTATE 2) 2 |>.setB Fld.GAR_STATUS_CUST_EN true).setF Fld.GAR_STATUS_STATE 1; { u with gar := { u.gar with powered := true, active := some (im [(128, 1), (129, 0x83), (131, 0x82), (136, 10), (138, 20), (140, 30), (142, 200), (144, 60)]), pairs := tset b.gar.pairs 2 { lastEdge := some 0 } }, time := { u.time with clock := 300001 } }
    let pair : Fin 4 := 2
    let j : Nat := 0
    let at_ : Nat := 0
    s.wf = true ∧ s.garRuns = true ∧ (s.gpair pair.val).lastEdge = some at_ ∧ at_ + 300000 < (s.elapse dt).time.clock ∧
      s.permit pair.val = 2 ∧ s.bit Fld.GAR_STATUS_CUST_EN = true ∧ (s.gpair pair.val).hold = none ∧ s.pairInst pair.val =
      some j ∧ s.locked j = false := by
  decide +kernel

theorem meets_GarnetPermit_4 :
    let dt : Nat := 0
    let b : State := State.reset
    let s : State := let im : List (Nat × Nat) → List Byte := fun l => (List.range 384).map fun i => BitVec.ofNat 8 (((l.find? fun x => x.1 == i).map fun x => x.2).getD 0); let u := (((b.setF Fld.GAR_STATUS_LOCKED 0).setF (Fld.GAR_INST_CAUSE 0) 0).setB Fld.TIM_STATUS_STRETCH true |>.setF (Fld.GAR_PERMSTAT_PSTATE 2) 1).setF Fld.GAR_STATUS_STATE 1; { u with gar := { u.gar with powered := true, active := some (im [(128, 1), (129, 0x83), (131, 0x82), (136, 10), (138, 20), (140, 30), (142, 200), (144, 60)]), toggled := 4 }, time := { u.time with mono := 400000, edgeStart := 0, mt := 0, edgeAt := 300000 } }
    let gone : Nat := 400000
    s.wf = true ∧ s.bit Fld.TIM_STATUS_STRETCH = true ∧ gone = (s.elapse dt).time.mono - s.time.edgeStart ∧ 300000 < gone +
      (s.time.edgeAt - (s.elapse dt).time.mt) ∧ s.gar.midDone = false ∧ (gone + (s.time.edgeAt - (s.elapse dt).time.mt)) / 2
      ≤ gone := by
  decide +kernel

theorem meets_GarnetPermit_5 :
    let dt : Nat := 0
    let b : State := State.reset
    let s : State := let im : List (Nat × Nat) → List Byte := fun l => (List.range 384).map fun i => BitVec.ofNat 8 (((l.find? fun x => x.1 == i).map fun x => x.2).getD 0); let u := (b.setF Fld.GAR_GCAUSE_CAUSE 4).setF Fld.GAR_STATUS_STATE 1; { u with gar := { u.gar with powered := true, active := some (im [(128, 1), (129, 0x83), (131, 0x82), (136, 10), (138, 20), (140, 30), (142, 200), (144, 60)]), clearable := 31 } }
    let width : Nat := 100000000
    let sense : GarnetSense := { differ := false, oscOver := false, hsDriven := 0, lsDriven := 0, loadSupply := true, grst := true, tp := 3 }
    s.wf = true ∧ s.garRuns = true ∧ 100000000 ≤ width ∧ width ≤ 3000000000 ∧ ((bitsOf 5 (s.getF Fld.GAR_GCAUSE_CAUSE)).all
      s.gar.clearable.testBit) = true ∧ sense.differ = false ∧ sense.oscOver = false := by
  decide +kernel

theorem meets_GarnetPermit_6 :
    let dt : Nat := 0
    let b : State := State.reset
    let s : State := let im : List (Nat × Nat) → List Byte := fun l => (List.range 384).map fun i => BitVec.ofNat 8 (((l.find? fun x => x.1 == i).map fun x => x.2).getD 0); let u := (b).setF Fld.GAR_STATUS_STATE 1; { u with gar := { u.gar with powered := true, active := some (im [(128, 1), (129, 0x83), (131, 0x82), (136, 10), (138, 20), (140, 30), (142, 200), (144, 60)]) } }
    let width : Nat := 99999999
    let sense : GarnetSense := { differ := false, oscOver := false, hsDriven := 0, lsDriven := 0, loadSupply := true, grst := true, tp := 3 }
    s.wf = true ∧ s.garRuns = true ∧ (width < 100000000 ∨ 3000000000 < width) := by
  decide +kernel

/-! GarnetSession -/

theorem meets_GarnetSession_0 :
    let dt : Nat := 0
    let b : State := State.reset
    let s : State := { b with gar := { b.gar with powered := true, busy := none, password := some (5, pbkdf2 5 (b.cfgPassword 4)) } }
    let req : Requester := ⟨.t, 0⟩
    s.wf = true ∧ Lets s req Reg.GAR_CFGCMD ∧ s.gar.powered = true ∧ s.gar.busy = none ∧ s.gar.blockUntil = none ∧
      s.passwordOk (s.cfgPassword 4) = true := by
  intro dt b s req
  exact ⟨by decide +kernel +revert, by decide +kernel +revert, rfl, rfl, rfl, passwordOk_stored _ _ _ rfl⟩

theorem meets_GarnetSession_1 :
    let dt : Nat := 0
    let b : State := State.reset
    let s : State := { b with gar := { b.gar with powered := true, busy := none, password := some (5, pbkdf2 5 (b.cfgPassword 4) + 1) } }
    let req : Requester := ⟨.t, 0⟩
    s.wf = true ∧ Lets s req Reg.GAR_CFGCMD ∧ s.gar.powered = true ∧ s.gar.busy = none ∧ s.gar.blockUntil = none ∧
      s.passwordOk (s.cfgPassword 4) = false := by
  intro dt b s req
  exact ⟨by decide +kernel +revert, by decide +kernel +revert, rfl, rfl, rfl, passwordOk_other _ _ _ rfl⟩

theorem meets_GarnetSession_2 :
    let dt : Nat := 0
    let b : State := State.reset
    let s : State := let im : List (Nat × Nat) → List Byte := fun l => (List.range 384).map fun i => BitVec.ofNat 8 (((l.find? fun x => x.1 == i).map fun x => x.2).getD 0); let u := (((b.setF Fld.GAR_INPUTS_SI 0xFFFD).setF (Fld.GAR_INST_CAUSE 0) 0)); { u with gar := { u.gar with powered := true, busy := none, active := some (im [(2, 0x80), (3, 1), (64, 1), (68, 0xF4), (69, 1), (72, 1), (76, 0xF4), (77, 1), (80, 255), (88, 255), (96, 255), (104, 255), (112, 255), (120, 255), (128, 6), (129, 0x80), (130, 0x81), (134, 10)]), session := some (3, 0) } }
    let req : Requester := ⟨.t, 0⟩
    s.wf = true ∧ Lets s req Reg.GAR_CFGCMD ∧ s.gar.powered = true ∧ s.gar.busy = none ∧ s.gar.session.isSome = true ∧
      s.cfgStill = true := by
  decide +kernel

theorem meets_GarnetSession_3 :
    let dt : Nat := 0
    let b : State := State.reset
    let s : State := let im : List (Nat × Nat) → List Byte := fun l => (List.range 384).map fun i => BitVec.ofNat 8 (((l.find? fun x => x.1 == i).map fun x => x.2).getD 0); let u := (b); { u with gar := { u.gar with powered := true, busy := none, session := some (3, 0) } }
    let req : Requester := ⟨.t, 0⟩
    s.wf = true ∧ Lets s req Reg.GAR_CFGCMD ∧ s.gar.powered = true ∧ s.gar.busy = none := by
  decide +kernel

theorem meets_GarnetSession_4 :
    let dt : Nat := 0
    let b : State := State.reset
    let s : State := let im : List (Nat × Nat) → List Byte := fun l => (List.range 384).map fun i => BitVec.ofNat 8 (((l.find? fun x => x.1 == i).map fun x => x.2).getD 0); let u := ([0, 1, 2].foldl (fun u i => u.wr (Reg.GAR_CFGWIN + 4 * i) 0x61616161) (b.setF Fld.GAR_GCAUSE_CAUSE 16)); { u with gar := { u.gar with powered := true, busy := none, session := some (3, 0), clearable := 0 } }
    let req : Requester := ⟨.t, 0⟩
    s.wf = true ∧ Lets s req Reg.GAR_CFGCMD ∧ s.gar.powered = true ∧ s.gar.busy = none ∧ s.gar.session.isSome = true ∧
      s.maintenance = true ∧ 12 ≤ (s.cfgPassword 0).length := by
  decide +kernel

theorem meets_GarnetSession_5 :
    let dt : Nat := 0
    let b : State := State.reset
    let s : State := { b with gar := { b.gar with busy := some (3, 7) } }
    let cmd : Nat := 3
    let r : Nat := 7
    s.wf = true ∧ s.gar.busy = some (cmd, r) := by
  decide +kernel

theorem meets_GarnetSession_6 :
    let dt : Nat := 0
    let b : State := State.reset
    let s : State := { b with gar := { b.gar with session := some (3, 0) }, time := { b.time with clock := 600000000000 } }
    let user : Nat := 3
    let at_ : Nat := 0
    s.wf = true ∧ s.gar.session = some (user, at_) ∧ at_ + 600000000000 ≤ (s.elapse dt).time.clock := by
  decide +kernel

theorem meets_GarnetSession_7 :
    let dt : Nat := 0
    let b : State := State.reset
    let s : State := { b with gar := { b.gar with blockUntil := some 0, fails := 5 } }
    let at_ : Nat := 0
    s.wf = true ∧ s.gar.blockUntil = some at_ ∧ at_ ≤ (s.elapse dt).time.clock := by
  decide +kernel

/-! GarnetConfig -/

theorem meets_GarnetConfig_0 :
    let dt : Nat := 0
    let b : State := State.reset
    let s : State := let im : List (Nat × Nat) → List Byte := fun l => (List.range 384).map fun i => BitVec.ofNat 8 (((l.find? fun x => x.1 == i).map fun x => x.2).getD 0); let u := (((b.setF Fld.GAR_GCAUSE_CAUSE 16).setB Fld.GAR_COND_STANDSTILL true)); { u with gar := { u.gar with powered := true, busy := none, session := some (3, 0), clearable := 0 } }
    let req : Requester := ⟨.t, 0⟩
    s.wf = true ∧ Lets s req Reg.GAR_CFGCMD ∧ s.gar.powered = true ∧ s.gar.busy = none ∧ s.gar.session.isSome = true ∧
      s.maintenance = true ∧ s.cfgStill = true := by
  decide +kernel

theorem meets_GarnetConfig_1 :
    let dt : Nat := 0
    let b : State := State.reset
    let s : State := let im : List (Nat × Nat) → List Byte := fun l => (List.range 384).map fun i => BitVec.ofNat 8 (((l.find? fun x => x.1 == i).map fun x => x.2).getD 0); let u := (((b.setF Fld.GAR_GCAUSE_CAUSE 16).setB Fld.GAR_COND_STANDSTILL true)); { u with gar := { u.gar with powered := true, busy := none, session := some (3, 0), clearable := 0, pending := some (im [(2, 0x80), (3, 1), (64, 1), (68, 0xF4), (69, 1), (72, 1), (76, 0xF4), (77, 1), (80, 255), (88, 255), (96, 255), (104, 255), (112, 255), (120, 255), (128, 6), (129, 0x80), (130, 0x81), (134, 10)]) } }
    let req : Requester := ⟨.t, 0⟩
    let chunk : Nat := 0
    let img : List Byte := s.gar.pending.getD []
    s.wf = true ∧ Lets s req Reg.GAR_CFGCMD ∧ s.gar.powered = true ∧ s.gar.busy = none ∧ s.gar.session.isSome = true ∧
      s.gar.pending = some img := by
  decide +kernel

theorem meets_GarnetConfig_2 :
    let dt : Nat := 0
    let b : State := State.reset
    let s : State := let im : List (Nat × Nat) → List Byte := fun l => (List.range 384).map fun i => BitVec.ofNat 8 (((l.find? fun x => x.1 == i).map fun x => x.2).getD 0); let i0 := im [(2, 0x80), (3, 1), (64, 1), (68, 0xF4), (69, 1), (72, 1), (76, 0xF4), (77, 1), (80, 255), (88, 255), (96, 255), (104, 255), (112, 255), (120, 255), (128, 6), (129, 0x80), (130, 0x81), (134, 10)]; let i1 := i0.take 8 ++ leBytes 4 (imgCrc i0) ++ i0.drop 12; let u := ((b.setF Fld.GAR_GCAUSE_CAUSE 16).setB Fld.GAR_COND_STANDSTILL true).wr Reg.GAR_CFGWIN (imgCrc i0); { u with gar := { u.gar with powered := true, busy := none, session := some (3, 0), clearable := 0, pending := some i1, chunks := [0] } }
    let req : Requester := ⟨.t, 0⟩
    let img : List Byte := s.gar.pending.getD []
    s.wf = true ∧ Lets s req Reg.GAR_CFGCMD ∧ s.gar.powered = true ∧ s.gar.busy = none ∧ s.gar.session.isSome = true ∧
      s.maintenance = true ∧ s.cfgStill = true ∧ s.gar.pending = some img ∧ s.pendingWhole = true ∧ garImageOk img = true ∧
      leNat (s.cfgWin 0 4) = imgChk img := by
  decide +kernel

theorem meets_GarnetConfig_3 :
    let dt : Nat := 0
    let b : State := State.reset
    let s : State := let im : List (Nat × Nat) → List Byte := fun l => (List.range 384).map fun i => BitVec.ofNat 8 (((l.find? fun x => x.1 == i).map fun x => x.2).getD 0); let u := (((b.setF Fld.GAR_GCAUSE_CAUSE 16).setB Fld.GAR_COND_STANDSTILL true)); { u with gar := { u.gar with powered := true, busy := none, session := some (3, 0), clearable := 0, pending := some [1, 2] } }
    let req : Requester := ⟨.t, 0⟩
    s.wf = true ∧ Lets s req Reg.GAR_CFGCMD ∧ s.gar.powered = true ∧ s.gar.busy = none ∧ s.gar.session.isSome = true := by
  decide +kernel

theorem meets_GarnetConfig_4 :
    let dt : Nat := 0
    let b : State := State.reset
    let s : State := { b with gar := { b.gar with pending := some [1] }, time := { b.time with clock := 3600000000000 } }
    s.wf = true ∧ s.gar.pending.isSome = true ∧ s.gar.pendAt + 3600000000000 ≤ (s.elapse dt).time.clock := by
  decide +kernel

/-! Runtime -/

theorem meets_Runtime_0 :
    let dt : Nat := 0
    let b : State := State.reset
    let s : State := let u := (b.setF Fld.RTS_IMGBASE_LO_BASE_LO 1).setF Fld.RTS_IMGBASE_HI_BASE_HI 0; let u := (((u.setF Fld.RTS_POLICY_RESTART 0).setF Fld.LCS_STATE_STATE 1).setF Fld.TRIAD_STATUS_MODE 1).setF Fld.RTS_TABSEL_ACTIVE 0; { u with lcs := { u.lcs with phase := .executive, running := some (wImg_fw) }, time := { u.time with firstLockDone := true } }
    let img : Image := (wImg_fw)
    let info : StartInfo := { programId := 77, layoutHash := 5, fmtVer := 1, retainEccOk := true, instances := [], initialOutputs := [(2, [1, 2, 3])], initialRetain := [], initialVars := [] }
    s.wf = true ∧ s.lcs.phase = .executive ∧ (s.time.firstLockDone = true ∨ s.time.lockOver = true) ∧ s.lcState ≠ 4 ∧
      s.triadMode ≠ 4 ∧ s.lcs.cvCause = none ∧ s.lcs.running = some img ∧ img.fmtVer = info.fmtVer ∧ s.rts.forces = [] ∧
      s.rts.change = none ∧ (∀ x : Fin 16, (s.task x.val).running = false) ∧ s.getF Fld.RTS_POLICY_RESTART = 0 ∧ s.tableOk
      s.activeTab = true ∧ s.admitted s.activeTab = true ∧ s.replicaOnly = false ∧ s.rts.endedForces = [] ∧ info.initialVars
      = [] ∧ info.initialRetain = [] ∧ info.instances = [] ∧ PortRoom s 0x06 := by
  decide +kernel

theorem meets_Runtime_1 :
    let dt : Nat := 0
    let b : State := State.reset
    let s : State := let u := (b.setF Fld.RTS_IMGBASE_LO_BASE_LO 1).setF Fld.RTS_IMGBASE_HI_BASE_HI 0; let u := (((u.setF Fld.RTS_POLICY_RESTART 0).setF Fld.LCS_STATE_STATE 1).setF Fld.TRIAD_STATUS_MODE 1).setF Fld.RTS_TABSEL_ACTIVE 0; { u with lcs := { u.lcs with phase := .executive, running := some (wImg_fw) }, time := { u.time with firstLockDone := true } }
    let img : Image := (wImg_fw)
    let info : StartInfo := { programId := 77, layoutHash := 5, fmtVer := 1, retainEccOk := true, instances := [], initialOutputs := [(2, [1, 2, 3])], initialRetain := [], initialVars := [] }
    let task : Fin 16 := 2
    let bs : List Byte := [1, 2, 3]
    s.wf = true ∧ s.lcs.phase = .executive ∧ (s.time.firstLockDone = true ∨ s.time.lockOver = true) ∧ s.lcState ≠ 4 ∧
      s.triadMode ≠ 4 ∧ s.lcs.cvCause = none ∧ s.lcs.running = some img ∧ img.fmtVer = info.fmtVer ∧ s.rts.forces = [] ∧
      s.rts.change = none ∧ (∀ x : Fin 16, (s.task x.val).running = false) ∧ s.getF Fld.RTS_POLICY_RESTART = 0 ∧ s.tableOk
      s.activeTab = true ∧ s.admitted s.activeTab = true ∧ s.replicaOnly = false ∧ s.rts.endedForces = [] ∧ info.initialVars
      = [] ∧ info.initialRetain = [] ∧ info.instances = [] ∧ info.initialOutputs = [(task, bs)] ∧ bs.length ≤ 65536 := by
  decide +kernel

theorem meets_Runtime_2 :
    let dt : Nat := 0
    let b : State := State.reset
    let s : State := let u := (b.setF Fld.RTS_IMGBASE_LO_BASE_LO 1).setF Fld.RTS_IMGBASE_HI_BASE_HI 0; let u := (((u.setF Fld.RTS_POLICY_RESTART 0).setF Fld.LCS_STATE_STATE 1).setF Fld.TRIAD_STATUS_MODE 1).setF Fld.RTS_TABSEL_ACTIVE 0; { u with lcs := { u.lcs with phase := .executive, running := some (wImg_fw) }, time := { u.time with firstLockDone := true } }
    let img : Image := (wImg_fw)
    let info : StartInfo := { programId := 77, layoutHash := 5, fmtVer := 1, retainEccOk := true, instances := [], initialOutputs := [], initialRetain := [], initialVars := [] }
    s.wf = true ∧ s.lcs.phase = .executive ∧ (s.time.firstLockDone = true ∨ s.time.lockOver = true) ∧ s.lcState ≠ 4 ∧
      s.triadMode ≠ 4 ∧ s.lcs.cvCause = none ∧ s.lcs.running = some img ∧ img.fmtVer = info.fmtVer ∧ s.rts.forces = [] ∧
      s.rts.change = none ∧ (∀ x : Fin 16, (s.task x.val).running = false) ∧ s.getF Fld.RTS_POLICY_RESTART = 0 ∧ s.tableOk
      s.activeTab = true ∧ s.admitted s.activeTab = true ∧ s.replicaOnly = false ∧ s.rts.endedForces = [] ∧ info.initialVars
      = [] ∧ info.initialRetain = [] ∧ info.initialOutputs = [] ∧ info.instances = [] := by
  decide +kernel

theorem meets_Runtime_3 :
    let dt : Nat := 0
    let b : State := State.reset
    let s : State := let u := (b.setF Fld.RTS_IMGBASE_LO_BASE_LO 1).setF Fld.RTS_IMGBASE_HI_BASE_HI 0; let u := (((u.setF Fld.RTS_POLICY_RESTART 0).setF Fld.LCS_STATE_STATE 1).setF Fld.TRIAD_STATUS_MODE 1).setF Fld.RTS_TABSEL_ACTIVE 0; { u with lcs := { u.lcs with phase := .executive, running := some (wImg_fw) }, time := { u.time with firstLockDone := true } }
    let img : Image := (wImg_fw)
    let info : StartInfo := { programId := 77, layoutHash := 5, fmtVer := 1, retainEccOk := true, instances := [{ task := 2, path := 9, ver := 1, kind := .ton, retain := false, at_ := 0x1000000100 }], initialOutputs := [], initialRetain := [], initialVars := [] }
    let d : FbDecl := { task := 2, path := 9, ver := 1, kind := .ton, retain := false, at_ := 0x1000000100 }
    s.wf = true ∧ s.lcs.phase = .executive ∧ (s.time.firstLockDone = true ∨ s.time.lockOver = true) ∧ s.lcState ≠ 4 ∧
      s.triadMode ≠ 4 ∧ s.lcs.cvCause = none ∧ s.lcs.running = some img ∧ img.fmtVer = info.fmtVer ∧ s.rts.forces = [] ∧
      s.rts.change = none ∧ (∀ x : Fin 16, (s.task x.val).running = false) ∧ s.getF Fld.RTS_POLICY_RESTART = 0 ∧ s.tableOk
      s.activeTab = true ∧ s.admitted s.activeTab = true ∧ s.replicaOnly = false ∧ s.rts.endedForces = [] ∧ info.initialVars
      = [] ∧ info.initialRetain = [] ∧ info.initialOutputs = [] ∧ info.instances = [d] ∧ fbHome d = true := by
  decide +kernel

theorem meets_Runtime_4 :
    let dt : Nat := 0
    let b : State := State.reset
    let s : State := let u := ((b.setF Fld.RTS_IMGBASE_LO_BASE_LO 1).setF Fld.RTS_IMGBASE_HI_BASE_HI 0).setF Fld.RTS_STATE_STATE 1; { u with rts := { u.rts with tasks := tset u.rts.tasks 3 { running := true, cycle := 5 } } }
    let task : Fin 16 := 3
    s.wf = true ∧ (s.task task.val).running = true ∧ ((s.task task.val).begun = true ∨ ((List.range 16).any fun u => (s.task
      u).running && !(s.task u).ready && (s.task u).rel == (s.task task.val).rel && decide (u ≠ task.val ∧ (s.ent u).prio <
      (s.ent task.val).prio)) = false) := by
  decide +kernel

theorem meets_Runtime_5 :
    let dt : Nat := 0
    let b : State := State.reset
    let s : State := let u := ((b.setF Fld.RTS_IMGBASE_LO_BASE_LO 1).setF Fld.RTS_IMGBASE_HI_BASE_HI 0).setF Fld.RTS_STATE_STATE 1 |>.setF Fld.RTS_TABSEL_ACTIVE 0; let u := u.memPut (0x800000 + 0x400000 + 3 * 64) [1, 0, 9]; { u with rts := { u.rts with tasks := tset (tset u.rts.tasks 3 { running := true, cycle := 5 }) 4 { running := true } } }
    let task : Fin 16 := 3
    s.wf = true ∧ (s.task task.val).running = true ∧ (s.task task.val).begun = false ∧ (((List.range 16).any fun u => (s.task
      u).running && !(s.task u).ready && (s.task u).rel == (s.task task.val).rel && decide (u ≠ task.val ∧ (s.ent u).prio <
      (s.ent task.val).prio)) = true) := by
  decide +kernel

theorem meets_Runtime_6 :
    let dt : Nat := 0
    let b : State := State.reset
    let s : State := let rec0 : FbInst := { kind := .ton, start := some 20 }; let u0 : State := (let u := ((b.setF Fld.RTS_IMGBASE_LO_BASE_LO 1).setF Fld.RTS_IMGBASE_HI_BASE_HI 0).setF Fld.RTS_STATE_STATE 1 |>.setF Fld.RTS_TABSEL_ACTIVE 0; let put : State → Nat → List Byte → State := fun u a l => u.memPut a l; let base : Nat := 0x800000; let u := put u (base + 0x400000) [1, 2, 3, 0, 0, 0]; let u := put u (base + 0x400016) [1, 0, 0, 0, 0x41, 0]; let u := put u (base + 0x410000) [7, 0, 4, 0, 0, 0, 8, 0, 0x40]; let u := put u (base + 0x10040) [9, 8, 7, 6]; { u with rts := { u.rts with tasks := tset u.rts.tasks 0 { running := true, judged := false, cycle := 5, rel := some 0, relMono := 90 }, decls := [{ task := 0, path := 9, ver := 1, kind := .ton, retain := true, at_ := 0x1040001008 }] }, time := { u.time with mt := 0, edgeAt := 250000 } }); u0.memPut 0x1040001008 rec0.bytes
    let req : Requester := ⟨.t, 0⟩
    let task : Fin 16 := 0
    let cycle : BitVec 16 := 5
    let scans : List FbScan := [{ path := 9, a := true, b := false, r := false, l := false, pt := 100, pv := 3 }]
    s.wf = true ∧ Lets s req Reg.RTS_DONE ∧ (s.task task.val).running = true ∧ (s.task task.val).cycle % 65536 = cycle.toNat
      ∧ s.getF Fld.RTS_STATE_STATE = 1 ∧ (s.task task.val).judged = false ∧ (s.elapse dt).time.mt + 15000 < s.time.edgeAt ∧
      s.rts.forces = [] ∧ s.replicaOnly = false := by
  decide +kernel

theorem meets_Runtime_7 :
    let dt : Nat := 0
    let b : State := State.reset
    let s : State := let u := ((b.setF Fld.RTS_IMGBASE_LO_BASE_LO 1).setF Fld.RTS_IMGBASE_HI_BASE_HI 0).setF Fld.RTS_STATE_STATE 1 |>.setF Fld.RTS_TABSEL_ACTIVE 0; let put : State → Nat → List Byte → State := fun u a l => u.memPut a l; let base : Nat := 0x800000; let u := put u (base + 0x400000) [1, 2, 3, 0, 0, 0]; let u := put u (base + 0x400016) [1, 0, 0, 0, 0x41, 0]; let u := put u (base + 0x410000) [7, 0, 4, 0, 0, 0, 8, 0, 0x40]; let u := put u (base + 0x10040) [9, 8, 7, 6]; { u with rts := { u.rts with tasks := tset u.rts.tasks 0 { running := true, judged := false, cycle := 5, rel := some 0 } }, time := { u.time with mt := 0, edgeAt := 250000 } }
    let req : Requester := ⟨.t, 0⟩
    let task : Fin 16 := 0
    let cycle : BitVec 16 := 5
    let scans : List FbScan := []
    let m : MapEnt := (s.outMapOf (s.ent 0)).headD default
    s.wf = true ∧ Lets s req Reg.RTS_DONE ∧ (s.task task.val).running = true ∧ (s.task task.val).cycle % 65536 = cycle.toNat
      ∧ s.getF Fld.RTS_STATE_STATE = 1 ∧ (s.task task.val).judged = false ∧ (s.elapse dt).time.mt + 15000 < s.time.edgeAt ∧
      s.rts.forces = [] ∧ s.replicaOnly = false ∧ s.outMapOf (s.ent task.val) = [m] ∧ m.iofs + m.len ≤ 65536 ∧ s.comImg
      task.val + 65536 ≤ State.retainBase := by
  decide +kernel

theorem meets_Runtime_8 :
    let dt : Nat := 0
    let b : State := State.reset
    let s : State := let rec0 : FbInst := { kind := .ton, start := some 20 }; let u0 : State := (let u := ((b.setF Fld.RTS_IMGBASE_LO_BASE_LO 1).setF Fld.RTS_IMGBASE_HI_BASE_HI 0).setF Fld.RTS_STATE_STATE 1 |>.setF Fld.RTS_TABSEL_ACTIVE 0; let put : State → Nat → List Byte → State := fun u a l => u.memPut a l; let base : Nat := 0x800000; let u := put u (base + 0x400000) [1, 2, 3, 0, 0, 0]; let u := put u (base + 0x400016) [1, 0, 0, 0, 0x41, 0]; let u := put u (base + 0x410000) [7, 0, 4, 0, 0, 0, 8, 0, 0x40]; let u := put u (base + 0x10040) [9, 8, 7, 6]; { u with rts := { u.rts with tasks := tset u.rts.tasks 0 { running := true, judged := false, cycle := 5, rel := some 0, relMono := 90, relMt := 33 }, decls := [{ task := 0, path := 9, ver := 1, kind := .ton, retain := true, at_ := 0x1040001008 }] }, time := { u.time with mt := 0, edgeAt := 250000 } }); u0.memPut 0x1040001008 rec0.bytes
    let req : Requester := ⟨.t, 0⟩
    let task : Fin 16 := 0
    let cycle : BitVec 16 := 5
    let scans : List FbScan := [{ path := 9, a := true, b := false, r := false, l := false, pt := 100, pv := 3 }]
    let x : FbScan := { path := 9, a := true, b := false, r := false, l := false, pt := 100, pv := 3 }
    let d : FbDecl := { task := 0, path := 9, ver := 1, kind := .ton, retain := true, at_ := 0x1040001008 }
    let f : FbInst := s.fbGet d
    let st : Int := 20
    s.wf = true ∧ Lets s req Reg.RTS_DONE ∧ (s.task task.val).running = true ∧ (s.task task.val).cycle % 65536 = cycle.toNat
      ∧ s.getF Fld.RTS_STATE_STATE = 1 ∧ (s.task task.val).judged = false ∧ (s.elapse dt).time.mt + 15000 < s.time.edgeAt ∧
      s.rts.forces = [] ∧ s.replicaOnly = false ∧ scans = [x] ∧ s.fbOf task.val x.path = some d ∧ fbHome d = true ∧ s.fbGet d
      = f ∧ f.kind = .ton ∧ f.start = some st ∧ x.a = true := by
  decide +kernel

theorem meets_Runtime_9 :
    let dt : Nat := 0
    let b : State := State.reset
    let s : State := let rec0 : FbInst := { kind := .rTrig, prevA := some false }; let u0 : State := (let u := ((b.setF Fld.RTS_IMGBASE_LO_BASE_LO 1).setF Fld.RTS_IMGBASE_HI_BASE_HI 0).setF Fld.RTS_STATE_STATE 1 |>.setF Fld.RTS_TABSEL_ACTIVE 0; let put : State → Nat → List Byte → State := fun u a l => u.memPut a l; let base : Nat := 0x800000; let u := put u (base + 0x400000) [1, 2, 3, 0, 0, 0]; let u := put u (base + 0x400016) [1, 0, 0, 0, 0x41, 0]; let u := put u (base + 0x410000) [7, 0, 4, 0, 0, 0, 8, 0, 0x40]; let u := put u (base + 0x10040) [9, 8, 7, 6]; { u with rts := { u.rts with tasks := tset u.rts.tasks 0 { running := true, judged := false, cycle := 5, rel := some 0, relMono := 90, relMt := 33 }, decls := [{ task := 0, path := 9, ver := 1, kind := .rTrig, retain := false, at_ := 0x1000000108 }] }, time := { u.time with mt := 0, edgeAt := 250000 } }); u0.memPut 0x1000000108 rec0.bytes
    let req : Requester := ⟨.t, 0⟩
    let task : Fin 16 := 0
    let cycle : BitVec 16 := 5
    let scans : List FbScan := [{ path := 9, a := true, b := false, r := false, l := false, pt := 100, pv := 3 }]
    let x : FbScan := { path := 9, a := true, b := false, r := false, l := false, pt := 100, pv := 3 }
    let d : FbDecl := { task := 0, path := 9, ver := 1, kind := .rTrig, retain := false, at_ := 0x1000000108 }
    let f : FbInst := s.fbGet d
    s.wf = true ∧ Lets s req Reg.RTS_DONE ∧ (s.task task.val).running = true ∧ (s.task task.val).cycle % 65536 = cycle.toNat
      ∧ s.getF Fld.RTS_STATE_STATE = 1 ∧ (s.task task.val).judged = false ∧ (s.elapse dt).time.mt + 15000 < s.time.edgeAt ∧
      s.rts.forces = [] ∧ s.replicaOnly = false ∧ scans = [x] ∧ s.fbOf task.val x.path = some d ∧ fbHome d = true ∧ s.fbGet d
      = f ∧ f.kind = .rTrig := by
  decide +kernel

theorem meets_Runtime_10 :
    let dt : Nat := 0
    let b : State := State.reset
    let s : State := let rec0 : FbInst := { kind := .ctu, prevA := some false, cv := 2 }; let u0 : State := (let u := ((b.setF Fld.RTS_IMGBASE_LO_BASE_LO 1).setF Fld.RTS_IMGBASE_HI_BASE_HI 0).setF Fld.RTS_STATE_STATE 1 |>.setF Fld.RTS_TABSEL_ACTIVE 0; let put : State → Nat → List Byte → State := fun u a l => u.memPut a l; let base : Nat := 0x800000; let u := put u (base + 0x400000) [1, 2, 3, 0, 0, 0]; let u := put u (base + 0x400016) [1, 0, 0, 0, 0x41, 0]; let u := put u (base + 0x410000) [7, 0, 4, 0, 0, 0, 8, 0, 0x40]; let u := put u (base + 0x10040) [9, 8, 7, 6]; { u with rts := { u.rts with tasks := tset u.rts.tasks 0 { running := true, judged := false, cycle := 5, rel := some 0, relMono := 90, relMt := 33 }, decls := [{ task := 0, path := 9, ver := 1, kind := .ctu, retain := true, at_ := 0x1040001008 }] }, time := { u.time with mt := 0, edgeAt := 250000 } }); u0.memPut 0x1040001008 rec0.bytes
    let req : Requester := ⟨.t, 0⟩
    let task : Fin 16 := 0
    let cycle : BitVec 16 := 5
    let scans : List FbScan := [{ path := 9, a := true, b := false, r := false, l := false, pt := 100, pv := 3 }]
    let x : FbScan := { path := 9, a := true, b := false, r := false, l := false, pt := 100, pv := 3 }
    let d : FbDecl := { task := 0, path := 9, ver := 1, kind := .ctu, retain := true, at_ := 0x1040001008 }
    let f : FbInst := s.fbGet d
    s.wf = true ∧ Lets s req Reg.RTS_DONE ∧ (s.task task.val).running = true ∧ (s.task task.val).cycle % 65536 = cycle.toNat
      ∧ s.getF Fld.RTS_STATE_STATE = 1 ∧ (s.task task.val).judged = false ∧ (s.elapse dt).time.mt + 15000 < s.time.edgeAt ∧
      s.rts.forces = [] ∧ s.replicaOnly = false ∧ scans = [x] ∧ s.fbOf task.val x.path = some d ∧ fbHome d = true ∧ s.fbGet d
      = f ∧ f.kind = .ctu ∧ f.prevA = some false ∧ x.a = true ∧ x.r = false ∧ f.cv < cvMax := by
  decide +kernel

theorem meets_Runtime_11 :
    let dt : Nat := 0
    let b : State := State.reset
    let s : State := b
    let req : Requester := ⟨.t, 0⟩
    let task : Fin 16 := 0
    let cycle : BitVec 16 := 5
    let scans : List FbScan := []
    s.wf = true ∧ Lets s req Reg.RTS_DONE ∧ (s.task task.val).cycle % 65536 ≠ cycle.toNat := by
  decide +kernel

theorem meets_Runtime_12 :
    let dt : Nat := 0
    let b : State := State.reset
    let s : State := (b.wr Reg.RTS_IMGBASE_LO 0).wr Reg.RTS_IMGBASE_HI 0 |>.wr64 Reg.RTS_OCTARGET 10 |>.setF Fld.RTS_TABSEL_ACTIVE 0
    let req : Requester := ⟨.t, 0⟩
    let pkg : ChangePackage := { codeChanged := 0, programId := 3, layoutHash := 0, survivingPaths := [], instances := [], droppedInstances := [], initVars := [], retainWrites := [] }
    s.wf = true ∧ Lets s req Reg.RTS_OCCTL ∧ s.changeNeedsScp (s.affectedTasks pkg) = false ∧ (s.elapse dt).changeEdgeExists
      (s.affectedTasks pkg) (s.rd64 Reg.RTS_OCTARGET) = true ∧ s.tableOk (1 - s.activeTab) = true ∧ s.admitted (1 -
      s.activeTab) = true := by
  decide +kernel

theorem meets_Runtime_13 :
    let dt : Nat := 0
    let b : State := State.reset
    let s : State := { b with rts := { b.rts with change := some ⟨{ codeChanged := 0, programId := 3, layoutHash := 0, survivingPaths := [], instances := [], droppedInstances := [], initVars := [], retainWrites := [] }, [], 0⟩ } }
    let req : Requester := ⟨.t, 0⟩
    s.wf = true ∧ Lets s req Reg.RTS_OCCTL ∧ s.rts.change.isSome = true := by
  decide +kernel

theorem meets_Runtime_14 :
    let dt : Nat := 0
    let b : State := State.reset
    let s : State := b
    let req : Requester := ⟨.t, 0⟩
    let index : Fin 256 := 9
    s.wf = true ∧ Lets s req Reg.RTS_FORCEUPD := by
  decide +kernel

/-! AppCores -/

theorem meets_AppCores_0 :
    let dt : Nat := 0
    let b : State := State.reset
    let s : State := let u := (b.setF Fld.APC_PAIRCFG_PAIRED 2).setF (Fld.APC_PAIRSTAT_STATE 1) 1; let u := u.memPut 64 [1, 2, 3]; { u with app := { u.app with l1Undo := [(2, 65, 9)] }, pops := [(3, { inFlight := some ⟨.ap, 2⟩, data := 5 })] }
    let pair : Fin 4 := 1
    let even : Option Txn := some { kind := 1, addr := 64, data := 1, be := 15, attr := 0 }
    let odd : Option Txn := some { kind := 1, addr := 64, data := 2, be := 15, attr := 0 }
    let otherwise : Bool := false
    s.wf = true ∧ s.isPaired pair.val = true ∧ s.pairState pair.val = 1 ∧ (even ≠ odd ∨ otherwise = true) ∧ ((s.pops.all fun
      kp => kp.2.waiting.isEmpty) = true) ∧ PortRoom s 0x03 := by
  decide +kernel

theorem meets_AppCores_1 :
    let dt : Nat := 0
    let b : State := State.reset
    let s : State := ((b.setF Fld.APC_PAIRCFG_PAIRED 0).setF (Fld.APC_PAIRSTAT_STATE 1) 1).setF (Fld.APC_RESETVEC_VEC 3) 0x1000 |>.setF (Fld.STE_FAILMAP_UNITS 3) 0 |>.setF (Fld.FAB_FWWR_MASK 3) 1
    let req : Requester := ⟨.t, 0⟩
    let cores : BitVec 8 := 8
    let c : Fin 8 := 3
    s.wf = true ∧ Lets s req Reg.APC_RESTART ∧ cores.toNat = 2 ^ c.val ∧ State.isApp req = false ∧ s.heldDisabled 0x03 (c.val
      / 2) = false ∧ s.pairState (c.val / 2) ≠ 3 ∧ s.isPaired (c.val / 2) = false ∧ ((s.pops.all fun kp =>
      kp.2.waiting.isEmpty) = true) := by
  decide +kernel

theorem meets_AppCores_2 :
    let dt : Nat := 0
    let b : State := State.reset
    let s : State := { b with app := { b.app with parked := [], storeBuf := tset b.app.storeBuf 3 [(100, [1, 2]), (101, [5])] } }
    let core : Fin 8 := 3
    s.wf = true ∧ ((s.app.parked.all fun x => s.hartOf x.1 != s.hartOf core.val) = true) ∧ (((tget s.app.storeBuf (s.hartOf
      core.val)).all fun x => !State.inWindow x.1) = true) := by
  decide +kernel

theorem meets_AppCores_3 :
    let dt : Nat := 0
    let b : State := State.reset
    let s : State := { b with app := { b.app with parked := [(3, .store 64 [1])] } }
    let core : Fin 8 := 3
    s.wf = true ∧ ((s.app.parked.all fun x => s.hartOf x.1 != s.hartOf core.val) = false) := by
  decide +kernel

theorem meets_AppCores_4 :
    let dt : Nat := 0
    let b : State := State.reset
    let s : State := let u := (b.wr Reg.RTS_IMGBASE_LO 0).wr Reg.RTS_IMGBASE_HI 0; let u := (u.setF Fld.TRDP_WORKBASE_BASE 0).setF Fld.RPL_STAGEBASE_BASE 0; let u := (u.setF Fld.APC_PAIRCFG_PAIRED 0).setF (Fld.APC_PAIRSTAT_STATE 1) 1; { u with pops := [], app := { u.app with parked := [], storeBuf := tset u.app.storeBuf 3 [(100, [1, 2])], rgnEff := [(Reg.FAB_RGN_BASE 0, 0x1000), (Reg.FAB_RGN_SIZE 0, 12), (Reg.FAB_RGN_ATTR 0, 8), (Reg.FAB_RGN_MASK 0, 0x7F007F)] } }
    let core : CoreAt := ⟨3, .machine, 0, false⟩
    let va : Nat := 0x1008
    let addr : Nat := 0x1008
    let bytes : List Byte := [7, 7, 7, 7]
    s.wf = true ∧ s.issues ⟨s.coreCls core.core.val, core.core.val⟩ = true ∧ s.translate core va = .at_ addr ∧
      ((s.app.parked.all fun x => s.hartOf x.1 != s.hartOf core.core.val) = true) ∧ s.loading (s.hartOf core.core.val) =
      false ∧ regionOf addr = some .ddr ∧ s.rangeCheck (s.coreCls core.core.val) true addr bytes.length = 0 ∧ s.releasePage
      addr = true ∧ (((tget s.app.storeBuf (s.hartOf core.core.val)).all fun x => !State.inWindow x.1) = true) := by
  decide +kernel

theorem meets_AppCores_5 :
    let dt : Nat := 0
    let b : State := State.reset
    let s : State := let u := (b.wr Reg.RTS_IMGBASE_LO 0).wr Reg.RTS_IMGBASE_HI 0; let u := (u.setF Fld.TRDP_WORKBASE_BASE 0).setF Fld.RPL_STAGEBASE_BASE 0; let u := (u.setF Fld.APC_PAIRCFG_PAIRED 0).setF (Fld.APC_PAIRSTAT_STATE 1) 1; { u with pops := [(3, { inFlight := some ⟨.as, 3⟩, data := 5 })], app := { u.app with parked := [], storeBuf := tset u.app.storeBuf 3 [(100, [1, 2])], rgnEff := [(Reg.FAB_RGN_BASE 0, 0x1000), (Reg.FAB_RGN_SIZE 0, 12), (Reg.FAB_RGN_ATTR 0, 8), (Reg.FAB_RGN_MASK 0, 0x7F007F)] } }
    let core : CoreAt := ⟨3, .machine, 0, false⟩
    let va : Nat := 0x1008
    let addr : Nat := 0x1008
    let bytes : List Byte := [7, 7, 7, 7]
    s.wf = true ∧ s.issues ⟨s.coreCls core.core.val, core.core.val⟩ = true ∧ s.translate core va = .at_ addr ∧ s.loading
      (s.hartOf core.core.val) = true ∧ s.releasePage addr = true := by
  decide +kernel

theorem meets_AppCores_6 :
    let dt : Nat := 0
    let b : State := State.reset
    let s : State := let u := (b.wr Reg.RTS_IMGBASE_LO 0).wr Reg.RTS_IMGBASE_HI 0; let u := (u.setF Fld.TRDP_WORKBASE_BASE 0).setF Fld.RPL_STAGEBASE_BASE 0; let u := (u.setF Fld.APC_PAIRCFG_PAIRED 0).setF (Fld.APC_PAIRSTAT_STATE 1) 1; { u with pops := [], app := { u.app with parked := [], storeBuf := tset u.app.storeBuf 3 [(100, [1, 2])], rgnEff := [(Reg.FAB_RGN_BASE 0, 0x1000), (Reg.FAB_RGN_SIZE 0, 12), (Reg.FAB_RGN_ATTR 0, 8), (Reg.FAB_RGN_MASK 0, 0x7F007F)] } }
    let core : CoreAt := ⟨3, .user, 0x8000000000000005, false⟩
    let va : Nat := 0x1008
    let addr : Nat := 0x1008
    let bytes : List Byte := [7, 7, 7, 7]
    s.wf = true ∧ s.issues ⟨s.coreCls core.core.val, core.core.val⟩ = true ∧ s.translate core va = .pageFault := by
  decide +kernel

theorem meets_AppCores_7 :
    let dt : Nat := 0
    let b : State := State.reset
    let s : State := b
    s.wf = true := by
  decide +kernel

theorem meets_AppCores_8 :
    let dt : Nat := 0
    let b : State := State.reset
    let s : State := b
    s.wf = true := by
  decide +kernel

theorem meets_AppCores_9 :
    let dt : Nat := 0
    let b : State := State.reset
    let s : State := b
    let addr : Nat := 130
    s.wf = true := by
  decide +kernel

theorem meets_AppCores_10 :
    let dt : Nat := 0
    let b : State := State.reset
    let s : State := { b with app := { b.app with badLines := [2, 5] } }
    let core : Fin 8 := 1
    let addr : Nat := 130
    s.wf = true ∧ addr / 64 ∈ s.app.badLines := by
  decide +kernel

theorem meets_AppCores_11 :
    let dt : Nat := 0
    let b : State := State.reset
    let s : State := { b with app := { b.app with badLines := [2, 5] } }
    let addr : Nat := 130
    s.wf = true ∧ addr / 64 ∈ s.app.badLines := by
  decide +kernel

/-! RegisterAccess -/

theorem meets_RegisterAccess_0 :
    let dt : Nat := 0
    let b : State := State.reset
    let s : State := (b.setF (Fld.FAB_FWWR_MASK 1) 1).setF Fld.STE_STATUS_STATE 0
    let req : Requester := ⟨.t, 0⟩
    let a : Nat := Reg.TIM_JUMPLIMIT
    let value : BitVec 64 := 0x12345
    let r : LayRow := (layRow Reg.TIM_JUMPLIMIT).getD ⟨0, [], 0, 0, 0, 0⟩
    s.wf = true ∧ a % 4 = 0 ∧ a < 0x60000 ∧ Lets s req a ∧ layRow a = some r ∧ a ∉ commandWords ∧ indexAt a (Reg.FAB_FWWR 0)
      4 27 = none := by
  decide +kernel

theorem meets_RegisterAccess_1 :
    let dt : Nat := 0
    let b : State := State.reset
    let s : State := (b.setF (Fld.FAB_FWWR_MASK 4) 1).setF Fld.STE_STATUS_STATE 0
    let req : Requester := ⟨.t, 0⟩
    let i : Fin 27 := Fin.ofNat 27 (s.freeCtr)
    let value : BitVec 64 := 0x12345
    let r : LayRow := (layRow (Reg.FAB_FWWR i.val)).getD ⟨0, [], 0, 0, 0, 0⟩
    s.wf = true ∧ Lets s req (Reg.FAB_FWWR i.val) ∧ layRow (Reg.FAB_FWWR i.val) = some r := by
  decide +kernel

theorem meets_RegisterAccess_2 :
    let dt : Nat := 0
    let b : State := State.reset
    let s : State := let u := ((b.setF Fld.TIM_STATUS_STATE 3).setF (Fld.FAB_FWWR_MASK 1) 1).setF Fld.STE_STATUS_STATE 0; { u with time := { u.time with refPresent := true } }
    let req : Requester := ⟨.t, 0⟩
    let a : Nat := Reg.TIM_STEPCTL
    let value : BitVec 64 := 0xA501
    let u : State := (((((s.elapse dt).prior req).lpeWrite (regPhys a) (leBytes 4 value.toNat))).special req a (value.toNat % 4294967296)).getD s
    s.wf = true ∧ a % 4 = 0 ∧ a < 0x1B0000 ∧ a / 0x10000 ≠ 0x19 ∧ Lets s req a ∧ ((((s.elapse dt).prior req).lpeWrite
      (regPhys a) (leBytes 4 value.toNat))).special req a (value.toNat % 4294967296) = some u := by
  decide +kernel

theorem meets_RegisterAccess_3 :
    let dt : Nat := 0
    let b : State := State.reset
    let s : State := b.wr Reg.RTS_IMGBASE_LO 0 |>.wr Reg.RTS_IMGBASE_HI 0 |>.setF Fld.TRDP_WORKBASE_BASE 0 |>.setF Fld.RPL_STAGEBASE_BASE 0
    let req : Requester := ⟨.t, 0⟩
    let addr : Nat := 0x1008
    let size : Nat := 8
    let value : BitVec 64 := 0x1122334455667788
    s.wf = true ∧ State.isApp req = false ∧ s.issues req = true ∧ (size = 1 ∨ size = 2 ∨ size = 4 ∨ size = 8) ∧ addr % size =
      0 ∧ regionOf addr = some .ddr ∧ s.rangeCheck req.cls true addr size = 0 := by
  decide +kernel

theorem meets_RegisterAccess_4 :
    let dt : Nat := 0
    let b : State := State.reset
    let s : State := b.setF (Fld.FAB_FWWR_MASK 1) 1
    let req : Requester := ⟨.d, 0⟩
    let a : Nat := Reg.TIM_JUMPLIMIT
    let value : BitVec 64 := 5
    s.wf = true ∧ a % 4 = 0 ∧ a < 0x1B0000 ∧ s.fwWrite req.cls a = false ∧ isCore req.cls = false := by
  decide +kernel

theorem meets_RegisterAccess_5 :
    let dt : Nat := 0
    let b : State := State.reset
    let s : State := b.setF (Fld.FAB_FWWR_MASK 1) 1
    let req : Requester := ⟨.ap, 0⟩
    let a : Nat := Reg.TIM_JUMPLIMIT
    let value : BitVec 64 := 5
    s.wf = true ∧ a % 4 = 0 ∧ a < 0x1B0000 ∧ s.fwWrite req.cls a = false ∧ req.cls = .ap ∧ s.issues req = true ∧ tget
      s.app.storeBuf (s.hartOf req.core) = [] ∧ s.mustPark (s.hartOf req.core) (0xF000000000 + a) = false := by
  decide +kernel

theorem meets_RegisterAccess_6 :
    let dt : Nat := 0
    let b : State := State.reset
    let s : State := { b with app := { b.app with waits := [⟨⟨.replica, 5, 100, 1⟩, 2⟩, ⟨⟨.ethLaunch, 5, 90, 2⟩, 1⟩] }, time := { b.time with clock := 200 } }
    let arrivals : List FabReq := [⟨.walira, 5, 80, 3⟩, ⟨.triad, 6, 10, 4⟩]
    let target : Nat := 5
    let w : FabWait := ⟨⟨.walira, 5, 80, 3⟩, 1⟩
    s.wf = true ∧ ((s.elapse dt).arrive arrivals).nextGrant target = some w ∧ target ≠ State.courierQueue ∧ w.cls ≤ 3 ∧
      (s.elapse dt).time.clock - w.req.accepted < 4294967296 := by
  decide +kernel

theorem meets_RegisterAccess_7 :
    let dt : Nat := 0
    let b : State := State.reset
    let s : State := { b with app := { b.app with turns := [3, 5], waits := [⟨⟨.courier 3, 0xFFFF, 10, 1⟩, 3⟩, ⟨⟨.courier 5, 0xFFFF, 20, 2⟩, 3⟩] }, time := { b.time with clock := 200 } }
    let arrivals : List FabReq := [⟨.triad, 6, 10, 4⟩]
    let target : Nat := 0xFFFF
    let w : FabWait := ⟨⟨.courier 3, 0xFFFF, 10, 1⟩, 3⟩
    s.wf = true ∧ ((s.elapse dt).arrive arrivals).nextGrant target = some w ∧ target = State.courierQueue := by
  decide +kernel

theorem meets_RegisterAccess_8 :
    let dt : Nat := 0
    let b : State := State.reset
    let s : State := { b with app := { b.app with waits := [⟨⟨.archive, 5, 100, 1⟩, 3⟩, ⟨⟨.triad, 5, 100, 2⟩, 0⟩] }, time := { b.time with clock := 300000 } }
    let id : Nat := 1
    let w : FabWait := ⟨⟨.archive, 5, 100, 1⟩, 3⟩
    s.wf = true ∧ w ∈ s.app.waits ∧ w.req.id = id ∧ w.cls = 3 ∧ w.req.accepted + s.ageNs < (s.elapse dt).time.clock := by
  decide +kernel

theorem meets_RegisterAccess_9 :
    let dt : Nat := 0
    let b : State := State.reset
    let s : State := { b with app := { b.app with waits := [⟨⟨.archive, 5, 100, 1⟩, 3⟩] } }
    let id : Nat := 1
    s.wf = true ∧ ((s.app.waits.any fun x => decide (x.req.id = id ∧ x.cls = 3 ∧ x.req.accepted + s.ageNs < (s.elapse
      dt).time.clock)) = false) := by
  decide +kernel

/-! CataloguesAndRings -/

theorem meets_CataloguesAndRings_0 :
    let dt : Nat := 0
    let b : State := State.reset
    let s : State := ((((b.setF Fld.LCS_STATE_STATE 1).wr (catReg .fio 0x2C) 0).wr (catReg .fio 0x28) 3).setF (Fld.STE_FAILMAP_UNITS 7) 0).setF (Fld.FAB_FWWR_MASK 7) 1
    let req : Requester := ⟨.t, 0⟩
    let blk : CatBlk := .fio
    s.wf = true ∧ Lets s req (catReg blk 0x2C) ∧ s.sealedCfg = false ∧ s.rd (catReg blk 0x2C) % 2 = 0 ∧ s.heldDisabled
      (catIndex blk) 0 = false ∧ s.catCount blk ≠ 0 := by
  decide +kernel

theorem meets_CataloguesAndRings_1 :
    let dt : Nat := 0
    let b : State := State.reset
    let s : State := ((b.setF (Fld.FAB_FWWR_MASK 0x07) 1).setF Fld.STE_STATUS_STATE 0 |>.wr (catReg .fio 0x28) 3 |>.wr (catReg .fio 0x20) 0 |>.wr (catReg .fio 0x24) 0)
    let req : Requester := ⟨.t, 0⟩
    let blk : CatBlk := .fio
    let index : BitVec 16 := 2
    s.wf = true ∧ s.fwWrite req.cls (doorbell (catIndex blk) 0) = true ∧ s.unitTested (catIndex blk) 0 = false ∧ StoresNow s
      req ∧ (s.elapse dt).catRefuses req.cls blk index.toNat = false ∧ s.catInDdr blk index.toNat = true := by
  decide +kernel

theorem meets_CataloguesAndRings_2 :
    let dt : Nat := 0
    let b : State := State.reset
    let s : State := ((b.setF (Fld.FAB_FWWR_MASK 0x07) 1).setF Fld.STE_STATUS_STATE 0 |>.wr (catReg .fio 0x28) 3 |>.wr (catReg .fio 0x20) 0 |>.wr (catReg .fio 0x24) 0)
    let req : Requester := ⟨.t, 0⟩
    let blk : CatBlk := .fio
    let index : BitVec 16 := 3
    s.wf = true ∧ s.fwWrite req.cls (doorbell (catIndex blk) 0) = true ∧ s.unitTested (catIndex blk) 0 = false ∧ StoresNow s
      req ∧ s.catCount blk ≤ index.toNat := by
  decide +kernel

theorem meets_CataloguesAndRings_3 :
    let dt : Nat := 0
    let b : State := State.reset
    let s : State := let u := b.wr Reg.RTS_IMGBASE_LO 0 |>.wr Reg.RTS_IMGBASE_HI 0 |>.setF Fld.TRDP_WORKBASE_BASE 0 |>.setF Fld.RPL_STAGEBASE_BASE 0 |>.wr (catReg .fio 0x20) 0 |>.wr (catReg .fio 0x24) 0; { u with cats := tset u.cats 7 { staged := [⟨2, 9, none⟩] } }
    let blk : CatBlk := .fio
    let index : Nat := 2
    let x : CatStage := ⟨2, 9, none⟩
    s.wf = true ∧ (s.cat blk).toRead.contains index = false ∧ x ∈ (s.cat blk).staged ∧ x.idx = index ∧ x.data = none ∧
      s.readStatus .ok .d (s.catAddr blk index) (catBytes blk) = 0 := by
  decide +kernel

theorem meets_CataloguesAndRings_4 :
    let dt : Nat := 0
    let b : State := State.reset
    let s : State := let u := b.wr Reg.RTS_IMGBASE_LO 0 |>.wr Reg.RTS_IMGBASE_HI 0 |>.setF Fld.TRDP_WORKBASE_BASE 0 |>.setF Fld.RPL_STAGEBASE_BASE 0 |>.wr (catReg .fio 0x20) 0 |>.wr (catReg .fio 0x24) 0; { u with cats := tset u.cats 7 { toRead := [1, 2] } }
    let blk : CatBlk := .fio
    let index : Nat := 2
    s.wf = true ∧ (s.cat blk).toRead.contains index = true ∧ s.readStatus .ecc .d (s.catAddr blk index) (catBytes blk) = 0x12
      := by
  decide +kernel

theorem meets_CataloguesAndRings_5 :
    let dt : Nat := 0
    let b : State := State.reset
    let s : State := (((b.wr (ringRegs .crr 3).ctl 0).setF (Fld.STE_FAILMAP_UNITS 0x0F) 0).setF (Fld.FAB_FWWR_MASK 0x0F) 1).setF Fld.STE_STATUS_STATE 0
    let req : Requester := ⟨.t, 0⟩
    let blk : RingBlk := .crr
    let ring : Nat := 3
    let value : Word := 0x80000004
    s.wf = true ∧ ring < ringCount blk ∧ Lets s req (ringRegs blk ring).ctl ∧ value.toNat.testBit 31 = true ∧ s.ringOn blk
      ring = false ∧ s.heldDisabled (ringIndex blk) (State.ringUnit blk ring) = false ∧ 4 ≤ value.toNat % 32 ∧ value.toNat %
      32 ≤ 16 := by
  decide +kernel

theorem meets_CataloguesAndRings_6 :
    let dt : Nat := 0
    let b : State := State.reset
    let s : State := ((b.wr (ringRegs .arc 3).ctl 0x80000004).setF (Fld.FAB_FWWR_MASK 0x12) 1).setF Fld.STE_STATUS_STATE 0
    let req : Requester := ⟨.t, 0⟩
    let blk : RingBlk := .arc
    let ring : BitVec 16 := 3
    let tail : BitVec 16 := 15
    s.wf = true ∧ s.fwWrite req.cls (doorbell (ringIndex blk) 8) = true ∧ s.unitTested (ringIndex blk) (State.ringUnit blk
      ring.toNat) = false ∧ StoresNow s req ∧ ring.toNat < ringCount blk ∧ s.ringOn blk ring.toNat = true ∧ tail.toNat <
      s.ringSize blk ring.toNat ∧ (serOfRing blk = none ∨ ring.toNat % 2 = 1) := by
  decide +kernel

theorem meets_CataloguesAndRings_7 :
    let dt : Nat := 0
    let b : State := State.reset
    let s : State := ((b.wr (ringRegs .arc 3).ctl 0x80000004).setF (Fld.FAB_FWWR_MASK 0x12) 1).setF Fld.STE_STATUS_STATE 0
    let req : Requester := ⟨.t, 0⟩
    let blk : RingBlk := .arc
    let ring : BitVec 16 := 3
    let tail : BitVec 16 := 16
    s.wf = true ∧ s.fwWrite req.cls (doorbell (ringIndex blk) 8) = true ∧ s.unitTested (ringIndex blk) (State.ringUnit blk
      ring.toNat) = false ∧ StoresNow s req ∧ (ringCount blk ≤ ring.toNat ∨ s.ringOn blk ring.toNat = false ∨ s.ringSize blk
      ring.toNat ≤ tail.toNat) ∧ (serOfRing blk = none ∨ ring.toNat % 2 = 1) := by
  decide +kernel

/-! Loupe -/

theorem meets_Loupe_0 :
    let dt : Nat := 0
    let b : State := State.reset
    let s : State := ((b.setF (Fld.STE_FAILMAP_UNITS 0x10) 0).setF (Fld.FAB_FWWR_MASK 0x10) 1).setF Fld.STE_STATUS_STATE 0
    let req : Requester := ⟨.t, 0⟩
    let u : Fin 8 := 2
    let value : Word := 0x80001000
    s.wf = true ∧ Lets s req (Reg.LPE_CFG u.val) ∧ tget s.lpe u.val = none ∧ value.toNat.testBit 31 = true ∧ s.heldDisabled
      0x10 u.val = false := by
  decide +kernel

theorem meets_Loupe_1 :
    let dt : Nat := 0
    let b : State := State.reset
    let s : State := let u0 := ((b.setF (Fld.FAB_FWWR_MASK 0x10) 1).setF Fld.STE_STATUS_STATE 0).wr (Reg.LPE_CFG 2) 0xC0001000; { u0 with lpe := tset u0.lpe 2 (some 5) }
    let req : Requester := ⟨.t, 0⟩
    let u : Fin 8 := 2
    let mask : Word := 4
    s.wf = true ∧ s.fwWrite req.cls (doorbell 0x10 0x10) = true ∧ StoresNow s req ∧ s.getF Fld.STE_STATUS_STATE = 0 ∧ mask =
      2 ^ u.val ∧ (tget s.lpe u.val).isSome = true := by
  decide +kernel

theorem meets_Loupe_2 :
    let dt : Nat := 0
    let b : State := State.reset
    let s : State := let u0 := (b.wr (Reg.LPE_CFG 2) 0xC0001000).setB (Fld.LPE_CFG_MODE 2) true |>.setF (Fld.LPE_CFG_SRC 2) 1 |>.wr (Reg.LPE_SKIPSPAN 2) 0; { u0 with lpe := tset u0.lpe 2 (some 5), lpeUnits := tset u0.lpeUnits 2 { passed := [[0x31, 0x32, 0x33], [5]] } }
    let u : Fin 8 := 2
    let unit : List Byte := [0x31, 0x32, 0x33]
    let part : List Byte := unit
    let rest : List (List Byte) := [[5]]
    s.wf = true ∧ (tget s.lpeUnits u.val).passed = unit :: rest ∧ (tget s.lpe u.val).isSome = true ∧ (part = (if s.getF
      (Fld.LPE_SKIPSPAN_SPAN u.val) = 0 then unit.drop (s.getF (Fld.LPE_SKIPSPAN_SKIP u.val)) else (unit.drop (s.getF
      (Fld.LPE_SKIPSPAN_SKIP u.val))).take (s.getF (Fld.LPE_SKIPSPAN_SPAN u.val)))) := by
  decide +kernel

theorem meets_Loupe_3 :
    let dt : Nat := 0
    let b : State := State.reset
    let s : State := let u0 := ((b.setF (Fld.FAB_FWWR_MASK 0x10) 1).setF Fld.STE_STATUS_STATE 0).wr (Reg.LPE_CFG 2) 0xC0001000; { u0 with lpe := tset u0.lpe 2 (some 5) }
    let req : Requester := ⟨.t, 0⟩
    let u : Fin 8 := 2
    s.wf = true ∧ Lets s req (Reg.LPE_CFG u.val) ∧ (tget s.lpe u.val).isSome = true := by
  decide +kernel

/-! ArchiveOffers -/

theorem meets_ArchiveOffers_0 :
    let dt : Nat := 0
    let b : State := State.reset
    let s : State := (let u : State := ((b.setF Fld.STE_STATUS_STATE 0).setF (Fld.STE_FAILMAP_UNITS 0x12) 0).setF (Fld.ARC_CCFG_EN 3) 0; { u with arc := { u.arc with ports := tset u.arc.ports 7 [⟨8, 0x801, 2, 3, 900, [1, 2, 3]⟩, ⟨8, 0x802, 1, 3, 950, []⟩], carry := false } })
    let port : Fin 27 := 7
    let o : Occurrence := ⟨8, 0x801, 2, 3, 900, [1, 2, 3]⟩
    let rest : List Occurrence := [⟨8, 0x802, 1, 3, 950, []⟩]
    s.wf = true ∧ s.arc.carry = false ∧ s.unitOff 0x12 0 = false ∧ tget s.arc.ports port.val = o :: rest ∧ o.coll < 64 ∧
      isReserve o.coll = false ∧ s.getF (Fld.ARC_CCFG_EN o.coll) = 0 := by
  decide +kernel

theorem meets_ArchiveOffers_1 :
    let dt : Nat := 0
    let b : State := State.reset
    let s : State := (let u : State := ((((b.setF Fld.STE_STATUS_STATE 0).setF (Fld.STE_FAILMAP_UNITS 0x12) 0).setF (Fld.ARC_CCFG_EN 3) 1).setF (Fld.ARC_CSTAT_SEALED 3) 1); { u with arc := { u.arc with ports := tset u.arc.ports 7 [⟨8, 0x801, 2, 3, 900, [1, 2, 3]⟩, ⟨8, 0x802, 1, 3, 950, []⟩], carry := false, units := [{ id := 5, coll := 3, since := 0, holds := true, recs := [], used := 0, placed := 0 }] } })
    let port : Fin 27 := 7
    let o : Occurrence := ⟨8, 0x801, 2, 3, 900, [1, 2, 3]⟩
    let rest : List Occurrence := [⟨8, 0x802, 1, 3, 950, []⟩]
    let u : ArcUnit := { id := 5, coll := 3, since := 0, holds := true, recs := [], used := 0, placed := 0 }
    s.wf = true ∧ s.arc.carry = false ∧ s.unitOff 0x12 0 = false ∧ tget s.arc.ports port.val = o :: rest ∧ o.coll < 64 ∧
      s.getF (Fld.ARC_CCFG_EN o.coll) = 1 ∧ s.arcSealed o.coll = true ∧ (s.arc.units.find? (fun u => u.holds && u.coll ==
      o.coll && decide (u.used + arcSize o.payload.length ≤ 65536)) = some u) := by
  decide +kernel

theorem meets_ArchiveOffers_2 :
    let dt : Nat := 0
    let b : State := State.reset
    let s : State := (let u : State := ((((b.setF Fld.STE_STATUS_STATE 0).setF (Fld.STE_FAILMAP_UNITS 0x12) 0).setF (Fld.ARC_CCFG_EN 3) 1).setF (Fld.ARC_CSTAT_SEALED 3) 0).setF (Fld.ARC_CSTAT_FULL 3) 0 |>.setF (Fld.ARC_CSTAT_UNITS 3) 9 |>.wr64 (Reg.ARC_NEXTPOS 3) 77; { u with arc := { u.arc with ports := tset u.arc.ports 7 [⟨8, 0x801, 2, 3, 900, [1, 2, 3]⟩, ⟨8, 0x802, 1, 3, 950, []⟩], carry := false, units := [{ id := 5, coll := 3, since := 0, holds := false, recs := [], used := 0, placed := 0 }] } })
    let port : Fin 27 := 7
    let o : Occurrence := ⟨8, 0x801, 2, 3, 900, [1, 2, 3]⟩
    let rest : List Occurrence := [⟨8, 0x802, 1, 3, 950, []⟩]
    let u : ArcUnit := { id := 5, coll := 3, since := 0, holds := false, recs := [], used := 0, placed := 0 }
    s.wf = true ∧ s.arc.carry = false ∧ s.unitOff 0x12 0 = false ∧ tget s.arc.ports port.val = o :: rest ∧ o.coll < 64 ∧
      ((s.arc.releasing.all fun x => x.2.coll != o.coll) = true) ∧ s.getF (Fld.ARC_CCFG_EN o.coll) = 1 ∧ isReserve o.coll =
      false ∧ s.arcSealed o.coll = false ∧ tget s.arc.last o.src = none ∧ s.getF (Fld.ARC_CSTAT_FULL o.coll) = 0 ∧ arcSize
      o.payload.length ≤ s.arcRoom o.coll ∧ ((s.arc.units.filter fun u => s.unitOpen u && u.coll == o.coll).find? (fun u =>
      decide (u.used + arcSize o.payload.length ≤ 65536)) = some u) ∧ s.rd64 (Reg.ARC_NEXTPOS o.coll) + 1 <
      18446744073709551616 := by
  decide +kernel

/-! ArchiveRings -/

theorem meets_ArchiveRings_0 :
    let dt : Nat := 0
    let b : State := State.reset
    let s : State := (let v : State := (let u : State := (((((b.wr Reg.RTS_IMGBASE_LO 0 |>.wr Reg.RTS_IMGBASE_HI 0 |>.setF Fld.TRDP_WORKBASE_BASE 0 |>.setF Fld.RPL_STAGEBASE_BASE 0 |>.wr64 (Reg.FAB_RGN_BASE 0) 0).setF Fld.STE_STATUS_STATE 0).setF (Fld.STE_FAILMAP_UNITS 0x12) 0).setF (Fld.ARC_CCFG_EN 3) 1).setF (Fld.ARC_CSTAT_SEALED 3) 0).setF (Fld.ARC_CSTAT_FULL 3) 0 |>.setF (Fld.ARC_CSTAT_UNITS 3) 9 |>.wr64 (Reg.ARC_NEXTPOS 3) 77 |>.wr (Reg.ARC_RSRC 2) 0x0FFF0000 |>.wr (Reg.ARC_RCTL 2) 0x80000004 |>.wr64 (Reg.ARC_RBASE 2) 0x1000 |>.wr64 (Reg.ARC_RCBASE 2) 0x2000; { u with arc := { u.arc with units := [{ id := 5, coll := 3, since := 0, holds := false, recs := [], used := 0, placed := 0 }], last := [], carry := false } }); let v := v.memPut 0x1000 (leBytes 8 0x3000 ++ leBytes 2 0 ++ leBytes 2 0x190 ++ leBytes 2 0x801 ++ [2, 3] ++ leBytes 8 55); { v with rings := tset v.rings (State.ringKey .arc 2) { head := 0, tail := 3, cidx := 15, cphase := true } })
    let q : Fin 8 := 2
    let ended : ReadEnd := .ok
    let o : Occurrence := ⟨0x190, 0x801, 2, 3, 55, []⟩
    let u : ArcUnit := { id := 5, coll := 3, since := 0, holds := false, recs := [], used := 0, placed := 0 }
    s.wf = true ∧ s.arc.carry = false ∧ s.unitOff 0x12 0 = false ∧ s.ringOn .arc q.val = true ∧ s.ringWaiting .arc q.val ≠ 0
      ∧ s.headRead .arc q.val = 0 ∧ s.descCheck q.val (s.headDesc .arc q.val) ended = none ∧ (s.elapse dt).descOcc
      (s.headDesc .arc q.val) = o ∧ o.coll < 64 ∧ ((s.arc.releasing.all fun x => x.2.coll != o.coll) = true) ∧ s.getF
      (Fld.ARC_CCFG_EN o.coll) = 1 ∧ isReserve o.coll = false ∧ s.arcSealed o.coll = false ∧ tget s.arc.last o.src = none ∧
      s.getF (Fld.ARC_CSTAT_FULL o.coll) = 0 ∧ arcSize o.payload.length ≤ s.arcRoom o.coll ∧ ((s.arc.units.filter fun u =>
      s.unitOpen u && u.coll == o.coll).find? (fun u => decide (u.used + arcSize o.payload.length ≤ 65536)) = some u) ∧
      s.rd64 (Reg.ARC_NEXTPOS o.coll) + 1 < 18446744073709551616 ∧ ((s.lpe.all fun x => decide (x.1 < 8)) = true) ∧ regionOf
      (s.rd64 (ringRegs .arc q.val).cbase / 64 * 64 % 0x10000000000 + (s.ring .arc q.val).cidx * 16) = some .ddr ∧
      s.rangeCheck .d true (s.rd64 (ringRegs .arc q.val).cbase / 64 * 64 % 0x10000000000 + (s.ring .arc q.val).cidx * 16) 16
      = 0 := by
  decide +kernel

theorem meets_ArchiveRings_1 :
    let dt : Nat := 0
    let b : State := State.reset
    let s : State := (let v : State := (let u : State := (((b.wr Reg.RTS_IMGBASE_LO 0 |>.wr Reg.RTS_IMGBASE_HI 0 |>.setF Fld.TRDP_WORKBASE_BASE 0 |>.setF Fld.RPL_STAGEBASE_BASE 0 |>.wr64 (Reg.FAB_RGN_BASE 0) 0).setF Fld.STE_STATUS_STATE 0).setF (Fld.STE_FAILMAP_UNITS 0x12) 0).wr (Reg.ARC_RCTL 8) 0x80000004 |>.wr64 (Reg.ARC_RBASE 8) 0x1000 |>.wr64 (Reg.ARC_RCBASE 8) 0x2000; { u with arc := { u.arc with store := tset u.arc.store 3 [{ pos := 4, src := 8, code := 0x801, sev := 2, cont := false, rep := 0, seq := 0, lastDt := 0, mt := 9, payload := [1] }] } }); let v := v.memPut 0x1000 (leBytes 8 0x8000 ++ leBytes 4 4096 ++ leBytes 4 3 ++ leBytes 8 2); { v with rings := tset v.rings (State.ringKey .arc 8) { head := 0, tail := 3, cidx := 15, cphase := true } })
    let q : Fin 2 := 0
    let buf : Nat := 0x8000
    let len : Nat := 4096
    let coll : Nat := 3
    let start : Nat := 2
    let recs : List ArcRec := State.fitRecs len ((s.collRecs coll).filter fun r => decide (start ≤ r.pos))
    let bytes : List Byte := recs.flatMap fun r => leBytes 8 r.pos ++ recImage r
    let next : Nat := (recs.getLast?.map fun r => r.pos + 1).getD start
    s.wf = true ∧ s.unitOff 0x12 0 = false ∧ s.ringOn .arc (8 + q.val) = true ∧ s.ringWaiting .arc (8 + q.val) ≠ 0 ∧
      s.headRead .arc (8 + q.val) = 0 ∧ buf = leNat ((s.headDesc .arc (8 + q.val)).take 8) ∧ len = leNat (((s.headDesc .arc
      (8 + q.val)).drop 8).take 4) ∧ coll = leNat (((s.headDesc .arc (8 + q.val)).drop 12).take 1) ∧ start = leNat
      (((s.headDesc .arc (8 + q.val)).drop 16).take 8) ∧ coll ≤ 63 ∧ 4096 ≤ len ∧ len ≤ 16777216 ∧ s.rangeMapped .d true buf
      len = true ∧ s.rangeStrict buf len = false ∧ s.rangeCheck .d true buf len = 0 ∧ (recs = State.fitRecs len ((s.collRecs
      coll).filter fun r => decide (start ≤ r.pos))) ∧ (bytes = recs.flatMap fun r => leBytes 8 r.pos ++ recImage r) ∧
      s.rangeCheck .d true buf bytes.length = 0 ∧ ((s.lpe.all fun x => decide (x.1 < 8)) = true) ∧ regionOf buf = some .ddr ∧
      regionOf (s.rd64 (ringRegs .arc (8 + q.val)).cbase / 64 * 64 % 0x10000000000 + (s.ring .arc (8 + q.val)).cidx * 16) =
      some .ddr ∧ s.rangeCheck .d true (s.rd64 (ringRegs .arc (8 + q.val)).cbase / 64 * 64 % 0x10000000000 + (s.ring .arc (8
      + q.val)).cidx * 16) 16 = 0 ∧ (next = (recs.getLast?.map fun r => r.pos + 1).getD start) := by
  decide +kernel

/-! ArchiveCommit -/

theorem meets_ArchiveCommit_0 :
    let dt : Nat := 0
    let b : State := State.reset
    let s : State := (let v : State := (let u : State := b.wr Reg.ARC_COMMITAGE 2; { u with arc := { u.arc with carry := false, units := [{ id := 5, coll := 3, since := 0, holds := false, recs := [], used := 0, placed := 0 }] } }); { v with time := { v.time with clock := 3000000000 } })
    let unit : Nat := 5
    let u : ArcUnit := { id := 5, coll := 3, since := 0, holds := false, recs := [], used := 0, placed := 0 }
    s.wf = true ∧ s.arc.carry = false ∧ (s.arc.units.find? (fun x => x.id == unit) = some u) ∧ s.unitOpen u = true ∧ u.since
      + max 1 (min 3600 (s.getF Fld.ARC_COMMITAGE_SEC)) * 1000000000 ≤ (s.elapse dt).time.clock := by
  decide +kernel

theorem meets_ArchiveCommit_1 :
    let dt : Nat := 0
    let b : State := State.reset
    let s : State := (let u : State := ((b.setF Fld.STE_STATUS_STATE 0).setF (Fld.STE_FAILMAP_UNITS 0x12) 0).wr Reg.ARC_STATUS 3; { u with arc := { u.arc with carry := false, units := [{ id := 5, coll := 3, since := 0, holds := false, recs := [], used := 0, placed := 0 }], dueOrder := [5, 6] } })
    let id : Nat := 5
    let rest : List Nat := [6]
    s.wf = true ∧ s.arc.carry = false ∧ s.arc.committing = none ∧ s.bit Fld.ARC_STATUS_NVSTOP = false ∧ s.unitOff 0x12 0 =
      false ∧ s.arc.dueOrder = id :: rest := by
  decide +kernel

theorem meets_ArchiveCommit_2 :
    let dt : Nat := 0
    let b : State := State.reset
    let s : State := (let u : State := ((b.setF Fld.STE_STATUS_STATE 0).setF (Fld.STE_FAILMAP_UNITS 0x12) 0).wr Reg.ARC_STATUS 3 |>.wr64 (Reg.ARC_STAGED 3) 4; { u with arc := { u.arc with carry := false, units := [{ id := 5, coll := 3, since := 0, holds := false, recs := [{ pos := 1, src := 8, code := 0x801, sev := 2, cont := false, rep := 0, seq := 0, lastDt := 0, mt := 9, payload := [1] }], used := 32, placed := 1 }], committing := some 5 } })
    let id : Nat := 5
    let u : ArcUnit := { id := 5, coll := 3, since := 0, holds := false, recs := [{ pos := 1, src := 8, code := 0x801, sev := 2, cont := false, rep := 0, seq := 0, lastDt := 0, mt := 9, payload := [1] }], used := 32, placed := 1 }
    s.wf = true ∧ s.arc.carry = false ∧ s.arc.releasing = [] ∧ s.arc.committing = some id ∧ (s.arc.units.find? (fun x => x.id
      == id) = some u) ∧ u.coll < 64 ∧ (s.bit Fld.ARC_STATUS_NVSTOP = false ∨ (s.elapse dt).pageDone = true) ∧ u.placed ≤
      s.rd64 (Reg.ARC_STAGED u.coll) := by
  decide +kernel

theorem meets_ArchiveCommit_3 :
    let dt : Nat := 0
    let b : State := State.reset
    let s : State := (let u : State := (b.setF Fld.STE_STATUS_STATE 0).setF (Fld.STE_FAILMAP_UNITS 0x12) 0|>.wr Reg.ARC_STATUS 3; { u with arc := { u.arc with units := [{ id := 5, coll := 3, since := 0, holds := false, recs := [{ pos := 1, src := 8, code := 0x801, sev := 2, cont := false, rep := 0, seq := 0, lastDt := 0, mt := 9, payload := [1] }], used := 32, placed := 1 }], carry := true } })
    let u : ArcUnit := { id := 5, coll := 3, since := 0, holds := false, recs := [{ pos := 1, src := 8, code := 0x801, sev := 2, cont := false, rep := 0, seq := 0, lastDt := 0, mt := 9, payload := [1] }], used := 32, placed := 1 }
    s.wf = true ∧ s.arc.carry = true ∧ s.arc.releasing = [] ∧ s.bit Fld.ARC_STATUS_NVSTOP = false ∧ s.unitOff 0x12 0 = false
      ∧ s.arc.units = [u] ∧ u.holds = false ∧ u.coll < 64 ∧ s.arc.held = [] ∧ PortRoom s 0x12 := by
  decide +kernel

/-! ArchiveSeals -/

theorem meets_ArchiveSeals_0 :
    let dt : Nat := 0
    let b : State := State.reset
    let s : State := ((b.setF (Fld.FAB_FWWR_MASK 0x12) 1).setF Fld.STE_STATUS_STATE 0).setF (Fld.ARC_CSTAT_SEALED 7) 0
    let req : Requester := ⟨.t, 0⟩
    let k : Fin 64 := 7
    let mask : BitVec 64 := 128
    s.wf = true ∧ Lets s req Reg.ARC_SEAL ∧ mask.toNat = 2 ^ k.val ∧ s.arcSealed k.val = false := by
  decide +kernel

theorem meets_ArchiveSeals_1 :
    let dt : Nat := 0
    let b : State := State.reset
    let s : State := (((b.setF (Fld.FAB_FWWR_MASK 0x12) 1).setF Fld.STE_STATUS_STATE 0).setF (Fld.ARC_CSTAT_SEALED 7) 1).wr64 Reg.ARC_SEAL 0x180
    let req : Requester := ⟨.t, 0⟩
    let k : Fin 64 := 7
    let mask : BitVec 64 := 128
    s.wf = true ∧ Lets s req Reg.ARC_UNSEAL ∧ mask.toNat = 2 ^ k.val ∧ s.arc.releasing = [] ∧ s.arcSealed k.val = true ∧ 2 ^
      k.val ≤ s.rd64 Reg.ARC_SEAL ∧ ((s.arc.held.all fun x => x.2.coll != k.val) = true) := by
  decide +kernel

theorem meets_ArchiveSeals_2 :
    let dt : Nat := 0
    let b : State := State.reset
    let s : State := (let u : State := ((((b.setF (Fld.FAB_FWWR_MASK 0x12) 1).setF Fld.STE_STATUS_STATE 0).setF (Fld.ARC_CSTAT_SEALED 7) 1).setF (Fld.ARC_CSTAT_FULL 7) 0 |>.setF (Fld.ARC_CSTAT_UNITS 7) 0).wr64 Reg.ARC_SEAL 0x180 |>.wr64 (Reg.ARC_STAGED 7) 1; { u with arc := { u.arc with carry := false, held := [(5, ⟨8, 0x801, 2, 7, 900, []⟩)], units := [⟨5, 7, 0, true, [], 24, 0⟩] } })
    let req : Requester := ⟨.t, 0⟩
    let k : Fin 64 := 7
    let mask : BitVec 64 := 128
    let id : Nat := 5
    let o : Occurrence := ⟨8, 0x801, 2, 7, 900, []⟩
    s.wf = true ∧ Lets s req Reg.ARC_UNSEAL ∧ mask.toNat = 2 ^ k.val ∧ s.arc.carry = false ∧ s.arc.releasing = [] ∧
      s.arcSealed k.val = true ∧ 2 ^ k.val ≤ s.rd64 Reg.ARC_SEAL ∧ s.arc.held = [(id, o)] ∧ o.coll = k.val ∧ tget s.arc.last
      o.src = none ∧ s.getF (Fld.ARC_CSTAT_FULL k.val) = 0 ∧ isReserve k.val = false ∧ 1 ≤ s.rd64 (Reg.ARC_STAGED k.val) ∧
      s.arc.units = [⟨id, k.val, 0, true, [], arcSize o.payload.length, 0⟩] ∧ s.arc.dueOrder = [] ∧ arcSize o.payload.length
      ≤ s.arcRoom k.val := by
  decide +kernel

theorem meets_ArchiveSeals_3 :
    let dt : Nat := 0
    let b : State := State.reset
    let s : State := let v : State := ((b.setF (Fld.ARC_CSTAT_SEALED 7) 1).wr64 Reg.ARC_SEAL 0x180).wr Reg.ARC_SEALLIM 2; { v with time := { v.time with mono := 2000000000 } }
    let k : Fin 64 := 7
    s.wf = true ∧ s.arc.releasing = [] ∧ s.arcSealed k.val = true ∧ 2 ^ k.val ≤ s.rd64 Reg.ARC_SEAL ∧ ((s.arc.held.all fun x
      => x.2.coll != k.val) = true) ∧ tget s.arc.sealAt k.val + max 1 (min 60 (s.getF Fld.ARC_SEALLIM_SEC)) * 1000000000 ≤
      (s.elapse dt).time.mono ∧ PortRoom s 0x12 := by
  decide +kernel

theorem meets_ArchiveSeals_4 :
    let dt : Nat := 0
    let b : State := State.reset
    let s : State := (let u : State := (((b.setF (Fld.FAB_FWWR_MASK 0x12) 1).setF Fld.STE_STATUS_STATE 0).setF (Fld.ARC_CSTAT_SEALED 3) 0).setF Fld.LCS_STATE_STATE 1 |>.wr64 (Reg.ARC_NEXTPOS 3) 8; { u with arc := { u.arc with units := [{ id := 5, coll := 3, since := 0, holds := false, recs := [{ pos := 1, src := 8, code := 0x801, sev := 2, cont := false, rep := 0, seq := 0, lastDt := 0, mt := 9, payload := [1] }], used := 32, placed := 1 }] } })
    let req : Requester := ⟨.t, 0⟩
    let k : Fin 64 := 3
    s.wf = true ∧ Lets s req Reg.ARC_ERASE ∧ isReserve k.val = false ∧ s.arcSealed k.val = false ∧ s.getF Fld.LCS_STATE_STATE
      ≠ 4 ∧ PortRoom s 0x12 ∧ s.prv.port.length < 64 := by
  decide +kernel

/-! Provenance -/

theorem meets_Provenance_0 :
    let dt : Nat := 0
    let b : State := State.reset
    let s : State := (let v : State := (((b.wr Reg.RTS_IMGBASE_LO 0 |>.wr Reg.RTS_IMGBASE_HI 0 |>.setF Fld.TRDP_WORKBASE_BASE 0 |>.setF Fld.RPL_STAGEBASE_BASE 0 |>.wr64 (Reg.FAB_RGN_BASE 0) 0).setF Fld.STE_STATUS_STATE 0).setF (Fld.STE_FAILMAP_UNITS 0x17) 0).wr (Reg.PRV_RCTL 1) 0x80000004 |>.wr64 (Reg.PRV_RBASE 1) 0x1000 |>.wr64 (Reg.PRV_RCBASE 1) 0x2000; let v := v.memPut 0x1010 [2, 0]; { v with rings := tset v.rings (State.ringKey .prv 1) { head := 0, tail := 3, cidx := 15, cphase := true } })
    let q : Fin 2 := 1
    let r : PrvRec := prvDecode (s.headDesc .prv 1)
    s.wf = true ∧ s.prv.staged.length < 4096 ∧ s.unitOff 0x17 0 = false ∧ s.ringOn .prv q.val = true ∧ s.ringWaiting .prv
      q.val ≠ 0 ∧ s.headRead .prv q.val = 0 ∧ prvDecode (s.headDesc .prv q.val) = r ∧ postKinds.contains r.kind = true ∧
      r.reservedOk = true ∧ s.rd64 Reg.PRV_NEXTSEQ + 1 < 18446744073709551616 ∧ ((s.lpe.all fun x => decide (x.1 < 8)) =
      true) ∧ regionOf (s.rd64 (ringRegs .prv q.val).cbase / 64 * 64 % 0x10000000000 + (s.ring .prv q.val).cidx * 16) = some
      .ddr ∧ s.rangeCheck .d true (s.rd64 (ringRegs .prv q.val).cbase / 64 * 64 % 0x10000000000 + (s.ring .prv q.val).cidx *
      16) 16 = 0 := by
  decide +kernel

theorem meets_Provenance_1 :
    let dt : Nat := 0
    let b : State := State.reset
    let s : State := let v : State := (b.setF Fld.STE_STATUS_STATE 0).setF (Fld.STE_FAILMAP_UNITS 0x17) 0; { v with prv := { v.prv with port := [{ mt := 0, kind := 4, port := 0xFE, session := 0, user := 0, reservedOk := true, object := [1], oldHash := 0, newHash := 5 }] } }
    let r : PrvRec := { mt := 0, kind := 4, port := 0xFE, session := 0, user := 0, reservedOk := true, object := [1], oldHash := 0, newHash := 5 }
    let rest : List PrvRec := []
    s.wf = true ∧ s.prv.staged.length < 4096 ∧ s.unitOff 0x17 0 = false ∧ s.prv.port = r :: rest ∧ s.rd64 Reg.PRV_NEXTSEQ + 1
      < 18446744073709551616 := by
  decide +kernel

theorem meets_Provenance_2 :
    let dt : Nat := 0
    let b : State := State.reset
    let s : State := b
    let r : PrvRec := { mt := 0, kind := 4, port := 0xFE, session := 0, user := 0, reservedOk := true, object := [1], oldHash := 0, newHash := 5 }
    s.wf = true ∧ s.prv.port.length < 64 := by
  decide +kernel

theorem meets_Provenance_3 :
    let dt : Nat := 0
    let b : State := State.reset
    let s : State := { b with prv := { b.prv with port := List.replicate 64 { mt := 0, kind := 4, port := 0xFE, session := 0, user := 0, reservedOk := true, object := [1], oldHash := 0, newHash := 5 } } }
    let r : PrvRec := { mt := 0, kind := 4, port := 0xFE, session := 0, user := 0, reservedOk := true, object := [1], oldHash := 0, newHash := 5 }
    s.wf = true ∧ 64 ≤ s.prv.port.length := by
  decide +kernel

theorem meets_Provenance_4 :
    let dt : Nat := 0
    let b : State := State.reset
    let s : State := let v : State := ((b.setF Fld.STE_STATUS_STATE 0).setF (Fld.STE_FAILMAP_UNITS 0x17) 0).wr Reg.PRV_STATUS 0; { v with prv := { v.prv with staged := [⟨7, 2, 1, 5, { mt := 0, kind := 4, port := 0xFE, session := 0, user := 0, reservedOk := true, object := [1], oldHash := 0, newHash := 5 }⟩] }, time := { v.time with clock := 10000000005 } }
    s.wf = true ∧ s.bit Fld.PRV_STATUS_NVSTOP = false ∧ s.unitOff 0x17 0 = false ∧ (s.elapse dt).prvUnitDue = true ∧
      s.prv.stored.length + s.prv.staged.length ≤ 2097152 := by
  decide +kernel

theorem meets_Provenance_5 :
    let dt : Nat := 0
    let b : State := State.reset
    let s : State := let v : State := (b.setF (Fld.FAB_FWWR_MASK 0x17) 1).setF Fld.STE_STATUS_STATE 0; { v with prv := { v.prv with staged := [⟨7, 2, 1, 5, { mt := 0, kind := 4, port := 0xFE, session := 0, user := 0, reservedOk := true, object := [1], oldHash := 0, newHash := 5 }⟩] } }
    let req : Requester := ⟨.t, 0⟩
    let seq : BitVec 64 := 7
    let x : PrvStored := ⟨7, 2, 1, 5, { mt := 0, kind := 4, port := 0xFE, session := 0, user := 0, reservedOk := true, object := [1], oldHash := 0, newHash := 5 }⟩
    s.wf = true ∧ Lets s req Reg.PRV_RDSEQ ∧ ((s.prv.stored ++ s.prv.staged).find? (fun r => r.seq == seq.toNat) = some x) :=
      by
  decide +kernel

/-! CourierTransfers -/

theorem meets_CourierTransfers_0 :
    let dt : Nat := 0
    let b : State := State.reset
    let s : State := (let v : State := ((b.wr Reg.RTS_IMGBASE_LO 0 |>.wr Reg.RTS_IMGBASE_HI 0 |>.setF Fld.TRDP_WORKBASE_BASE 0 |>.setF Fld.RPL_STAGEBASE_BASE 0).setF Fld.STE_STATUS_STATE 0).setF (Fld.STE_FAILMAP_UNITS 0x0F) 0 |>.wr (Reg.CRR_RCTL 3) 0x80000004 |>.wr64 (Reg.CRR_RBASE 3) 0x1000 |>.wr64 (Reg.CRR_RCBASE 3) 0x2000 ; let v := v; { v with rings := tset v.rings (State.ringKey .crr 3) { head := 2, tail := 5, cidx := 15, cphase := true }, crr := { v.crr with chain := tset v.crr.chain 3 none } })
    let c : Fin 16 := 3
    s.wf = true ∧ s.ringOn .crr c.val = true ∧ s.chain c.val = none ∧ s.ringWaiting .crr c.val ≠ 0 ∧ s.unitOff 0x0F c.val =
      false := by
  decide +kernel

theorem meets_CourierTransfers_1 :
    let dt : Nat := 0
    let b : State := State.reset
    let s : State := (let v : State := ((b.wr Reg.RTS_IMGBASE_LO 0 |>.wr Reg.RTS_IMGBASE_HI 0 |>.setF Fld.TRDP_WORKBASE_BASE 0 |>.setF Fld.RPL_STAGEBASE_BASE 0).setF Fld.STE_STATUS_STATE 0).setF (Fld.STE_FAILMAP_UNITS 0x0F) 0 |>.wr (Reg.CRR_RCTL 3) 0x80000004 |>.wr64 (Reg.CRR_RBASE 3) 0x1000 |>.wr64 (Reg.CRR_RCBASE 3) 0x2000 ; let v := v; { v with rings := tset v.rings (State.ringKey .crr 3) { head := 2, tail := 5, cidx := 15, cphase := true }, crr := { v.crr with chain := tset v.crr.chain 3 (some { slot := 2, addr := 0x1000, desc := (leBytes 8 0 ++ leBytes 8 0x8000 ++ leBytes 8 0x9000 ++ leBytes 4 4 ++ leBytes 36 0), stage := .fetch, taken := 1 }) } })
    let c : Fin 16 := 3
    let ended : ReadEnd := .ok
    let x : CrrChain := { slot := 2, addr := 0x1000, desc := (leBytes 8 0 ++ leBytes 8 0x8000 ++ leBytes 8 0x9000 ++ leBytes 4 4 ++ leBytes 36 0), stage := .fetch, taken := 1 }
    s.wf = true ∧ s.chain c.val = some x ∧ x.stage = .fetch ∧ x.desc ≠ [] ∧ s.readStatus ended .c x.addr 64 = 0 ∧ s.crrCheck
      x.desc = 0 ∧ regionOf (crrSrc x.desc) = some .ddr ∧ ((crrChk x.desc && crrCmp x.desc) = true → regionOf (crrWord
      x.desc) = some .ddr) := by
  decide +kernel

theorem meets_CourierTransfers_2 :
    let dt : Nat := 0
    let b : State := State.reset
    let s : State := (let v : State := ((b.wr Reg.RTS_IMGBASE_LO 0 |>.wr Reg.RTS_IMGBASE_HI 0 |>.setF Fld.TRDP_WORKBASE_BASE 0 |>.setF Fld.RPL_STAGEBASE_BASE 0).setF Fld.STE_STATUS_STATE 0).setF (Fld.STE_FAILMAP_UNITS 0x0F) 0 |>.wr (Reg.CRR_RCTL 3) 0x80000004 |>.wr64 (Reg.CRR_RBASE 3) 0x1000 |>.wr64 (Reg.CRR_RCBASE 3) 0x2000 ; let v := v.memPut 0x1000 (leBytes 8 0 ++ leBytes 8 0x8000 ++ leBytes 8 0x9000 ++ leBytes 4 4 ++ leBytes 36 0); { v with rings := tset v.rings (State.ringKey .crr 3) { head := 2, tail := 5, cidx := 15, cphase := true }, crr := { v.crr with chain := tset v.crr.chain 3 (some { slot := 2, addr := 0x1000, desc := [], stage := .fetch, taken := 1 }) } })
    let c : Fin 16 := 3
    let ended : ReadEnd := .ok
    let x : CrrChain := { slot := 2, addr := 0x1000, desc := [], stage := .fetch, taken := 1 }
    let d : List Byte := s.memRead x.addr 64
    s.wf = true ∧ s.chain c.val = some x ∧ x.stage = .fetch ∧ x.desc = [] ∧ s.readStatus ended .c x.addr 64 = 0 ∧ x.addr + 64
      ≤ 0x400000000 ∧ d = s.memRead x.addr 64 ∧ s.crrCheck d = 0 ∧ regionOf (crrSrc d) = some .ddr ∧ ((crrChk d && crrCmp d)
      = true → regionOf (crrWord d) = some .ddr) := by
  decide +kernel

theorem meets_CourierTransfers_3 :
    let dt : Nat := 0
    let b : State := State.reset
    let s : State := (let v : State := ((b.wr Reg.RTS_IMGBASE_LO 0 |>.wr Reg.RTS_IMGBASE_HI 0 |>.setF Fld.TRDP_WORKBASE_BASE 0 |>.setF Fld.RPL_STAGEBASE_BASE 0).setF Fld.STE_STATUS_STATE 0).setF (Fld.STE_FAILMAP_UNITS 0x0F) 0 |>.wr (Reg.CRR_RCTL 3) 0x80000004 |>.wr64 (Reg.CRR_RBASE 3) 0x1000 |>.wr64 (Reg.CRR_RCBASE 3) 0x2000 ; let v := v.memPut 0x8000 [1, 2, 3, 4]; { v with rings := tset v.rings (State.ringKey .crr 3) { head := 2, tail := 5, cidx := 15, cphase := true }, crr := { v.crr with chain := tset v.crr.chain 3 (some { slot := 2, addr := 0x1000, desc := (leBytes 8 0 ++ leBytes 8 0x8000 ++ leBytes 8 0x9000 ++ leBytes 4 4 ++ leBytes 36 0), stage := .move, taken := 1 }) } })
    let c : Fin 16 := 3
    let far : List Byte := []
    let farWord : Nat := 0
    let x : CrrChain := { slot := 2, addr := 0x1000, desc := (leBytes 8 0 ++ leBytes 8 0x8000 ++ leBytes 8 0x9000 ++ leBytes 4 4 ++ leBytes 36 0), stage := .move, taken := 1 }
    s.wf = true ∧ s.chain c.val = some x ∧ Machine.ent x.desc 0 8 = 0 ∧ crrIrq x.desc = false ∧ x.irq = false ∧ s.bit
      (Fld.CRR_RCTL_POPMODE c.val) = false ∧ ((s.lpe.all fun x => decide (x.1 < 8)) = true) ∧ regionOf (x.addr + 56) = some
      .ddr ∧ s.rangeCheck .c true (x.addr + 56) 8 = 0 ∧ regionOf (s.rd64 (ringRegs .crr c.val).cbase / 64 * 64 %
      0x10000000000 + (s.ring .crr c.val).cidx * 16) = some .ddr ∧ s.rangeCheck .c true (s.rd64 (ringRegs .crr c.val).cbase /
      64 * 64 % 0x10000000000 + (s.ring .crr c.val).cidx * 16) 16 = 0 ∧ x.stage = .move ∧ crrChk x.desc = false ∧ crrRdbk
      x.desc = false ∧ x.status = 0 ∧ crrNoCopy x.desc = false ∧ crrDown x.desc = false ∧ regionOf (crrSrc x.desc + crrLen
      x.desc) = some .ddr ∧ regionOf (crrDst x.desc) = some .ddr := by
  decide +kernel

theorem meets_CourierTransfers_4 :
    let dt : Nat := 0
    let b : State := State.reset
    let s : State := (let v : State := ((b.wr Reg.RTS_IMGBASE_LO 0 |>.wr Reg.RTS_IMGBASE_HI 0 |>.setF Fld.TRDP_WORKBASE_BASE 0 |>.setF Fld.RPL_STAGEBASE_BASE 0).setF Fld.STE_STATUS_STATE 0).setF (Fld.STE_FAILMAP_UNITS 0x0F) 0 |>.wr (Reg.CRR_RCTL 3) 0x80000004 |>.wr64 (Reg.CRR_RBASE 3) 0x1000 |>.wr64 (Reg.CRR_RCBASE 3) 0x2000 |>.setB (Fld.CRR_CFG_ERRIRQ 3) false; let v := v.memPut 0x8000 [1, 2, 3, 4]; { v with rings := tset v.rings (State.ringKey .crr 3) { head := 2, tail := 5, cidx := 15, cphase := true }, crr := { v.crr with chain := tset v.crr.chain 3 (some { slot := 2, addr := 0x1000, desc := (leBytes 8 0 ++ leBytes 8 0x8000 ++ leBytes 8 0x9000 ++ leBytes 4 4 ++ leBytes 36 0), stage := .move, taken := 1 }) } })
    let c : Fin 16 := 3
    let far : List Byte := []
    let bytesMoved : Nat := 3
    let x : CrrChain := { slot := 2, addr := 0x1000, desc := (leBytes 8 0 ++ leBytes 8 0x8000 ++ leBytes 8 0x9000 ++ leBytes 4 4 ++ leBytes 36 0), stage := .move, taken := 1 }
    s.wf = true ∧ s.chain c.val = some x ∧ Machine.ent x.desc 0 8 = 0 ∧ crrIrq x.desc = false ∧ x.irq = false ∧ s.bit
      (Fld.CRR_RCTL_POPMODE c.val) = false ∧ ((s.lpe.all fun x => decide (x.1 < 8)) = true) ∧ regionOf (x.addr + 56) = some
      .ddr ∧ s.rangeCheck .c true (x.addr + 56) 8 = 0 ∧ regionOf (s.rd64 (ringRegs .crr c.val).cbase / 64 * 64 %
      0x10000000000 + (s.ring .crr c.val).cidx * 16) = some .ddr ∧ s.rangeCheck .c true (s.rd64 (ringRegs .crr c.val).cbase /
      64 * 64 % 0x10000000000 + (s.ring .crr c.val).cidx * 16) 16 = 0 ∧ x.stage = .move ∧ x.status = 0 ∧ s.bit
      (Fld.CRR_CFG_ERRIRQ c.val) = false ∧ s.lineBad (crrSrc x.desc) (crrLen x.desc) = false ∧ crrNoCopy x.desc = false ∧
      crrDown x.desc = false ∧ regionOf (crrSrc x.desc + crrLen x.desc) = some .ddr ∧ regionOf (crrDst x.desc) = some .ddr :=
      by
  decide +kernel

theorem meets_CourierTransfers_5 :
    let dt : Nat := 0
    let b : State := State.reset
    let s : State := (let v : State := ((b.wr Reg.RTS_IMGBASE_LO 0 |>.wr Reg.RTS_IMGBASE_HI 0 |>.setF Fld.TRDP_WORKBASE_BASE 0 |>.setF Fld.RPL_STAGEBASE_BASE 0).setF Fld.STE_STATUS_STATE 0).setF (Fld.STE_FAILMAP_UNITS 0x0F) 0 |>.wr (Reg.CRR_RCTL 3) 0x80000004 |>.wr64 (Reg.CRR_RBASE 3) 0x1000 |>.wr64 (Reg.CRR_RCBASE 3) 0x2000 ; let v := v.memPut 0x9000 [1, 2, 3, 4]; { v with rings := tset v.rings (State.ringKey .crr 3) { head := 2, tail := 5, cidx := 15, cphase := true }, crr := { v.crr with chain := tset v.crr.chain 3 (some { slot := 2, addr := 0x1000, desc := (leBytes 8 0 ++ leBytes 8 0x8000 ++ leBytes 8 0x9000 ++ leBytes 4 4 ++ leBytes 36 0), stage := .readback, taken := 1, flags := 1, expect := [(0x9000, [1, 2, 3, 4])] }) } })
    let c : Fin 16 := 3
    let equal : Bool := true
    let x : CrrChain := { slot := 2, addr := 0x1000, desc := (leBytes 8 0 ++ leBytes 8 0x8000 ++ leBytes 8 0x9000 ++ leBytes 4 4 ++ leBytes 36 0), stage := .readback, taken := 1, flags := 1, expect := [(0x9000, [1, 2, 3, 4])] }
    s.wf = true ∧ s.chain c.val = some x ∧ Machine.ent x.desc 0 8 = 0 ∧ crrIrq x.desc = false ∧ x.irq = false ∧ s.bit
      (Fld.CRR_RCTL_POPMODE c.val) = false ∧ ((s.lpe.all fun x => decide (x.1 < 8)) = true) ∧ regionOf (x.addr + 56) = some
      .ddr ∧ s.rangeCheck .c true (x.addr + 56) 8 = 0 ∧ regionOf (s.rd64 (ringRegs .crr c.val).cbase / 64 * 64 %
      0x10000000000 + (s.ring .crr c.val).cidx * 16) = some .ddr ∧ s.rangeCheck .c true (s.rd64 (ringRegs .crr c.val).cbase /
      64 * 64 % 0x10000000000 + (s.ring .crr c.val).cidx * 16) 16 = 0 ∧ x.stage = .readback ∧ ((x.expect.all fun w => decide
      (s.busRead w.1 w.2.length = w.2) && decide (w.1 < 0x400000000)) = true) ∧ x.status = 0 ∧ x.result = 0 := by
  decide +kernel

theorem meets_CourierTransfers_6 :
    let dt : Nat := 0
    let b : State := State.reset
    let s : State := (let v : State := ((b.wr Reg.RTS_IMGBASE_LO 0 |>.wr Reg.RTS_IMGBASE_HI 0 |>.setF Fld.TRDP_WORKBASE_BASE 0 |>.setF Fld.RPL_STAGEBASE_BASE 0).setF Fld.STE_STATUS_STATE 0).setF (Fld.STE_FAILMAP_UNITS 0x0F) 0 |>.wr (Reg.CRR_RCTL 3) 0x80000004 |>.wr64 (Reg.CRR_RBASE 3) 0x1000 |>.wr64 (Reg.CRR_RCBASE 3) 0x2000 |>.setB (Fld.CRR_CFG_ERRIRQ 3) false; let v := v.memPut 0x9000 [1, 2, 3, 5]; { v with rings := tset v.rings (State.ringKey .crr 3) { head := 2, tail := 5, cidx := 15, cphase := true }, crr := { v.crr with chain := tset v.crr.chain 3 (some { slot := 2, addr := 0x1000, desc := (leBytes 8 0 ++ leBytes 8 0x8000 ++ leBytes 8 0x9000 ++ leBytes 4 4 ++ leBytes 36 0), stage := .readback, taken := 1, flags := 1, expect := [(0x9000, [1, 2, 3, 4])] }) } })
    let c : Fin 16 := 3
    let equal : Bool := true
    let x : CrrChain := { slot := 2, addr := 0x1000, desc := (leBytes 8 0 ++ leBytes 8 0x8000 ++ leBytes 8 0x9000 ++ leBytes 4 4 ++ leBytes 36 0), stage := .readback, taken := 1, flags := 1, expect := [(0x9000, [1, 2, 3, 4])] }
    s.wf = true ∧ s.chain c.val = some x ∧ Machine.ent x.desc 0 8 = 0 ∧ crrIrq x.desc = false ∧ x.irq = false ∧ s.bit
      (Fld.CRR_RCTL_POPMODE c.val) = false ∧ ((s.lpe.all fun x => decide (x.1 < 8)) = true) ∧ regionOf (x.addr + 56) = some
      .ddr ∧ s.rangeCheck .c true (x.addr + 56) 8 = 0 ∧ regionOf (s.rd64 (ringRegs .crr c.val).cbase / 64 * 64 %
      0x10000000000 + (s.ring .crr c.val).cidx * 16) = some .ddr ∧ s.rangeCheck .c true (s.rd64 (ringRegs .crr c.val).cbase /
      64 * 64 % 0x10000000000 + (s.ring .crr c.val).cidx * 16) 16 = 0 ∧ x.stage = .readback ∧ ((x.expect.any fun w => decide
      (s.busRead w.1 w.2.length ≠ w.2) && decide (w.1 < 0x400000000)) = true) ∧ x.status = 0 ∧ s.bit (Fld.CRR_CFG_ERRIRQ
      c.val) = false := by
  decide +kernel

theorem meets_CourierTransfers_7 :
    let dt : Nat := 0
    let b : State := State.reset
    let s : State := (let v : State := ((b.setF (Fld.FAB_FWWR_MASK 0x0F) 1).setF Fld.STE_STATUS_STATE 0).wr (Reg.CRR_RCTL 3) 0x80000004; v)
    let req : Requester := ⟨.t, 0⟩
    let c : Fin 16 := 3
    let bytesMoved : Nat := 3
    let far : List Byte := []
    s.wf = true ∧ Lets s req (Reg.CRR_RCTL c.val) ∧ s.ringOn .crr c.val = true ∧ s.chain c.val = none ∧ s.ringWaiting .crr
      c.val = 0 := by
  decide +kernel

/-! FieldInputs -/

theorem meets_FieldInputs_0 :
    let dt : Nat := 0
    let b : State := State.reset
    let s : State := (let v : State := b.setF Fld.SYS_IDENT_CODE 0; { v with fio := { v.fio with ch := tset v.fio.ch 5 { mode := 1, net := 0 }, grp := tset v.fio.grp 0 { vf := 240 } } })
    let ch : Fin 32 := 5
    let reading : InReading := ⟨11000, 2000, false⟩
    s.wf = true ∧ (s.fioCh ch.val).mode = 1 ∧ s.fioPowered (fioGroupOf ch.val) = true := by
  decide +kernel

theorem meets_FieldInputs_1 :
    let dt : Nat := 0
    let b : State := State.reset
    let s : State := (let v : State := b.setF Fld.SYS_IDENT_CODE 0; { v with fio := { v.fio with ch := tset v.fio.ch 5 { mode := 2, net := 4 }, grp := tset v.fio.grp 0 { vf := 240 } } })
    let ch : Fin 32 := 5
    let reading : InReading := ⟨0, 1200, false⟩
    s.wf = true ∧ (s.fioCh ch.val).mode = 2 ∧ s.fioPowered (fioGroupOf ch.val) = true ∧ reading.limited = false ∧ 0 <
      reading.ua ∧ ((8000 * reading.ua ≤ ((s.fioGrp (fioGroupOf ch.val)).vf.toNat * 100000) ∧ ((s.fioGrp (fioGroupOf
      ch.val)).vf.toNat * 100000) ≤ 20000 * reading.ua) ∨ (1500 * reading.ua ≤ ((s.fioGrp (fioGroupOf ch.val)).vf.toNat *
      100000) ∧ ((s.fioGrp (fioGroupOf ch.val)).vf.toNat * 100000) ≤ 3500 * reading.ua)) := by
  decide +kernel

theorem meets_FieldInputs_2 :
    let dt : Nat := 0
    let b : State := State.reset
    let s : State := (let v : State := b.setF Fld.SYS_IDENT_CODE 0; { v with fio := { v.fio with ch := tset v.fio.ch 5 { mode := 1, level := true, deb := 0 }, grp := tset v.fio.grp 0 { vf := 240 } } })
    let ch : Fin 32 := 5
    let v : Nat := 1
    s.wf = true ∧ (s.fioCh ch.val).wants = some v ∧ ((s.fioCh ch.val).mode = 1 ∨ (s.fioCh ch.val).mode = 2) ∧ s.fioPowered
      (fioGroupOf ch.val) = true ∧ v ≠ (s.fioCh ch.val).filt ∧ (s.fioCh ch.val).since + (s.fioCh ch.val).deb * 100000 ≤
      (s.elapse dt).time.clock := by
  decide +kernel

theorem meets_FieldInputs_3 :
    let dt : Nat := 0
    let b : State := State.reset
    let s : State := (let v : State := b.setF Fld.SYS_IDENT_CODE 0; { v with fio := { v.fio with ch := tset v.fio.ch 5 { mode := 2, net := 4 }, grp := tset v.fio.grp 0 { vf := 240 } }, time := { v.time with clock := 100000000 } })
    let ch : Fin 32 := 5
    s.wf = true ∧ (s.fioCh ch.val).mode = 2 ∧ (s.fioCh ch.val).net = 4 ∧ s.fioPowered (fioGroupOf ch.val) = true ∧ (s.fioCh
      ch.val).since + 100000000 ≤ (s.elapse dt).time.clock := by
  decide +kernel

/-! FieldSupplyAndPaths -/

theorem meets_FieldSupplyAndPaths_0 :
    let dt : Nat := 0
    let b : State := State.reset
    let s : State := (let v : State := b.setB Fld.FIO_CLASS_MISMATCH false |>.setF Fld.SYS_IDENT_CODE 0 |>.setF (Fld.FIO_GSTAT_STATE 0) 2; { v with fio := { v.fio with ch := tset v.fio.ch 5 { mode := 3, latch := true }, grp := tset v.fio.grp 0 { vf := 240 } } })
    let group : Fin 2 := 0
    let vf : Int := -31
    s.wf = true ∧ vf < -30 ∧ s.bit Fld.FIO_CLASS_MISMATCH = false ∧ s.fioState group.val ≠ 3 ∧ s.fioPowered group.val = true
      ∧ PortRoom s 0x07 := by
  decide +kernel

theorem meets_FieldSupplyAndPaths_1 :
    let dt : Nat := 0
    let b : State := State.reset
    let s : State := (let v : State := b.setB Fld.FIO_CLASS_MISMATCH false |>.setF Fld.SYS_IDENT_CODE 0 |>.setF (Fld.FIO_GSTAT_STATE 0) 1 |>.setF Fld.RPL_STATUS_ROLE 0 |>.setF Fld.RPL_STATUS_ENABLE 0; { v with fio := { v.fio with ch := tset v.fio.ch 5 { mode := 3, latch := true } } })
    let group : Fin 2 := 0
    let vf : Int := 240
    s.wf = true ∧ s.vfMin ≤ vf ∧ s.bit Fld.FIO_CLASS_MISMATCH = false ∧ s.fioState group.val = 1 ∧ s.fioPowered group.val =
      false ∧ s.custodyOn = false ∧ (((fioChans group.val).all fun c => (s.fioCh c).mode == 0 || (s.fioCh c).lost) = false) ∧
      PortRoom s 0x07 := by
  decide +kernel

theorem meets_FieldSupplyAndPaths_2 :
    let dt : Nat := 0
    let b : State := State.reset
    let s : State := (let v : State := b.setF Fld.STE_STATUS_STATE 0 |>.setF (Fld.STE_FAILMAP_UNITS 0x07) 0 |>.setF Fld.SYS_IDENT_CODE 0 |>.setF (Fld.FIO_GSTAT_STATE 0) 2; { v with fio := { v.fio with ch := tset v.fio.ch 5 { mode := 3, curlim := true, latch := true, opened := false, therm := false }, grp := tset v.fio.grp 0 { vf := 240 } }, lcs := { v.lcs with phase := .firmware } })
    let group : Fin 2 := 0
    s.wf = true ∧ ((fioChans group.val).any s.fioDriven) = true ∧ s.logicAlive = true ∧ PortRoom s 0x07 := by
  decide +kernel

theorem meets_FieldSupplyAndPaths_3 :
    let dt : Nat := 0
    let b : State := State.reset
    let s : State := (let v : State := b.setF Fld.STE_STATUS_STATE 0 |>.setF (Fld.STE_FAILMAP_UNITS 0x07) 0 |>.setF Fld.SYS_IDENT_CODE 0 |>.setF (Fld.FIO_GSTAT_STATE 0) 2; { v with fio := { v.fio with ch := tset v.fio.ch 5 { mode := 3, curlim := true, latch := true, opened := false, therm := false }, grp := tset v.fio.grp 0 { vf := 240 } }, lcs := { v.lcs with phase := .off } })
    let group : Fin 2 := 0
    s.wf = true ∧ ((fioChans group.val).any s.fioDriven) = true ∧ s.logicAlive = false := by
  decide +kernel

theorem meets_FieldSupplyAndPaths_4 :
    let dt : Nat := 0
    let b : State := State.reset
    let s : State := (let v : State := b; { v with fio := { v.fio with ch := tset v.fio.ch 5 { mode := 3 }, grp := tset v.fio.grp 0 { ovlOff := true } }, time := { v.time with clock := 100000000 } })
    let group : Fin 2 := 0
    s.wf = true ∧ (s.fioGrp group.val).ovlOff = true ∧ (s.fioGrp group.val).ovlAt + 100000000 ≤ (s.elapse dt).time.clock :=
      by
  decide +kernel

theorem meets_FieldSupplyAndPaths_5 :
    let dt : Nat := 0
    let b : State := State.reset
    let s : State := { b with time := { b.time with clock := 1000000000 } }
    let group : Fin 2 := 0
    s.wf = true ∧ (s.fioGrp group.val).ovlOff = false ∧ (s.fioGrp group.val).ovlAt + 1000000000 ≤ (s.elapse dt).time.clock :=
      by
  decide +kernel

theorem meets_FieldSupplyAndPaths_6 :
    let dt : Nat := 0
    let b : State := State.reset
    let s : State := (let v : State := b.setF Fld.STE_STATUS_STATE 0 |>.setF (Fld.STE_FAILMAP_UNITS 0x07) 0 |>.setF Fld.SYS_IDENT_CODE 0 |>.setB (Fld.FIO_GSTAT_SERLINK_OK 0) true |>.setF (Fld.FIO_GSTAT_STATE 0) 2; { v with fio := { v.fio with ch := tset v.fio.ch 5 { mode := 3 }, grp := tset v.fio.grp 0 { vf := 240, started := true, badIn := 2 } }, lcs := { v.lcs with phase := .firmware }, time := { v.time with mt := 1000000, edgeAt := 1250000 } })
    let group : Fin 2 := 0
    let silent : List (Fin 16 × Nat) := (List.range 16).filterMap fun i => if (s.fioCh (16 * 0 + i)).mode = 3 && !(s.fioCh (16 * 0 + i)).cplOk then some (Fin.ofNat 16 i, 6000) else none
    s.wf = true ∧ (s.elapse dt).time.mt % 10000 = 0 ∧ s.logicUp = true ∧ (s.fioGrp group.val).started = true ∧ s.serOk
      group.val = true ∧ 2 ≤ (s.fioGrp group.val).badIn ∧ (s.fioGrp group.val).gotIn = false ∧ (((fioChans group.val).all fun
      c => (s.fioCh c).mode != 3 || (s.fioCh c).cplOk == silent.all (fun x => x.1.val != c % 16)) = true) ∧ (s.fioGrp
      group.val).edgeFrame = none ∧ PortRoom s 0x07 := by
  decide +kernel

theorem meets_FieldSupplyAndPaths_7 :
    let dt : Nat := 0
    let b : State := State.reset
    let s : State := (let v : State := b.setF Fld.STE_STATUS_STATE 0 |>.setF (Fld.STE_FAILMAP_UNITS 0x07) 0 |>.setF Fld.SYS_IDENT_CODE 0 |>.setB (Fld.FIO_GSTAT_SERLINK_OK 0) true |>.setF (Fld.FIO_GSTAT_STATE 0) 2; { v with fio := { v.fio with ch := tset v.fio.ch 5 { mode := 3 }, grp := tset v.fio.grp 0 { vf := 240, edgeFrame := some (1000000, 3, 5) } }, lcs := { v.lcs with phase := .firmware }, time := { v.time with mt := 1000000, edgeAt := 1250000 } })
    let group : Fin 2 := 0
    let silent : List (Fin 16 × Nat) := (List.range 16).filterMap fun i => if (s.fioCh (16 * 0 + i)).mode = 3 && !(s.fioCh (16 * 0 + i)).cplOk then some (Fin.ofNat 16 i, 6000) else none
    let o : Nat := 3
    let i : Nat := 5
    s.wf = true ∧ (s.elapse dt).time.mt % 10000 = 0 ∧ s.logicUp = true ∧ (s.fioGrp group.val).started = false ∧ (((fioChans
      group.val).all fun c => (s.fioCh c).mode != 3 || (s.fioCh c).cplOk == silent.all (fun x => x.1.val != c % 16)) = true)
      ∧ (s.fioGrp group.val).edgeFrame = some ((s.elapse dt).time.mt, o, i) := by
  decide +kernel

theorem meets_FieldSupplyAndPaths_8 :
    let dt : Nat := 0
    let b : State := State.reset
    let s : State := (let v : State := b.setF Fld.STE_STATUS_STATE 0 |>.setF (Fld.STE_FAILMAP_UNITS 0x07) 0 |>.setF Fld.SYS_IDENT_CODE 0 |>.setB (Fld.FIO_GSTAT_SERLINK_OK 0) true |>.setF (Fld.FIO_GSTAT_STATE 0) 2; { v with fio := { v.fio with ch := tset v.fio.ch 5 { mode := 3 }, grp := tset v.fio.grp 0 { vf := 240, index := 4, inStates := some 0x20 } }, lcs := { v.lcs with phase := .firmware }, time := { v.time with mt := 1000000, edgeAt := 1250000 } })
    let group : Fin 2 := 0
    let frame : FallbackFrame := { crcOk := false, index := 4, couplers := 0, couplersValid := 0xFFFF }
    let states : Nat := 0x20
    s.wf = true ∧ s.logicUp = true ∧ (s.fioGrp group.val).inStates = some states ∧ frame.crcOk = false := by
  decide +kernel

theorem meets_FieldSupplyAndPaths_9 :
    let dt : Nat := 0
    let b : State := State.reset
    let s : State := (let v : State := b.setF Fld.STE_STATUS_STATE 0 |>.setF (Fld.STE_FAILMAP_UNITS 0x07) 0 |>.setF Fld.SYS_IDENT_CODE 0 |>.setB (Fld.FIO_GSTAT_SERLINK_OK 0) true |>.setF (Fld.FIO_GSTAT_STATE 0) 2; { v with fio := { v.fio with ch := tset v.fio.ch 5 { mode := 3 }, grp := tset v.fio.grp 0 { vf := 240, index := 5, inStates := some 0x20 } }, lcs := { v.lcs with phase := .firmware }, time := { v.time with mt := 1000000, edgeAt := 1250000 } })
    let group : Fin 2 := 0
    let frame : FallbackFrame := { crcOk := true, index := 4, couplers := 0, couplersValid := 0xFFFF }
    let states : Nat := 0x20
    s.wf = true ∧ s.logicUp = true ∧ (s.fioGrp group.val).inStates = some states ∧ frame.crcOk = true ∧ frame.index.val ≠
      (s.fioGrp group.val).index := by
  decide +kernel

theorem meets_FieldSupplyAndPaths_10 :
    let dt : Nat := 0
    let b : State := State.reset
    let s : State := (let v : State := b.setF Fld.STE_STATUS_STATE 0 |>.setF (Fld.STE_FAILMAP_UNITS 0x07) 0 |>.setF Fld.SYS_IDENT_CODE 0 |>.setB (Fld.FIO_GSTAT_SERLINK_OK 0) true |>.setF (Fld.FIO_GSTAT_STATE 0) 2; { v with fio := { v.fio with ch := tset v.fio.ch 5 { mode := 1, dis := 2 }, grp := tset v.fio.grp 0 { vf := 240, index := 4, inStates := some 0x20 } }, lcs := { v.lcs with phase := .firmware }, time := { v.time with mt := 1000000, edgeAt := 1250000 } })
    let group : Fin 2 := 0
    let c : Nat := 5
    let frame : FallbackFrame := { crcOk := true, index := 4, couplers := 0, couplersValid := 0xFFFF }
    let states : Nat := 0x20
    s.wf = true ∧ s.logicUp = true ∧ (s.fioGrp group.val).inStates = some states ∧ s.fioSampling group.val = true ∧
      frame.crcOk = true ∧ frame.index.val = (s.fioGrp group.val).index ∧ c / 16 = group.val ∧ (((fioChans group.val).all fun
      k => k == c || (s.fioCh k).mode == 0) = true) ∧ (s.fioCh c).mode = 1 ∧ (s.fioCh c).dis = 2 ∧ (s.fioCh c).cplFault =
      false ∧ states.testBit (c % 16) ≠ frame.couplers.toNat.testBit (c % 16) ∧ PortRoom s 0x07 := by
  decide +kernel

theorem meets_FieldSupplyAndPaths_11 :
    let dt : Nat := 0
    let b : State := State.reset
    let s : State := (let v : State := b.setF Fld.STE_STATUS_STATE 0 |>.setF (Fld.STE_FAILMAP_UNITS 0x07) 0 |>.setF Fld.SYS_IDENT_CODE 0 |>.setB (Fld.FIO_GSTAT_SERLINK_OK 0) true |>.setF (Fld.FIO_GSTAT_STATE 0) 2 |>.setF Fld.RPL_STATUS_ROLE 1 |>.setB Fld.RPL_STATUS_ENABLE true; { v with fio := { v.fio with ch := tset v.fio.ch 5 { mode := 3, dis := 1 }, grp := tset v.fio.grp 0 { vf := 240, index := 4, outStates := some 0x20 } }, lcs := { v.lcs with phase := .firmware }, time := { v.time with mt := 1000000, edgeAt := 1250000 }, rpl := { v.rpl with resume := none } })
    let group : Fin 2 := 0
    let frame : FallbackFrame := { crcOk := true, index := 4, couplers := 0x0020, couplersValid := 0xFFFF }
    let states : Nat := 0x20
    s.wf = true ∧ s.fioPowered group.val = true ∧ frame.crcOk = true ∧ frame.index.val = (s.fioGrp group.val).index ∧
      (s.fioGrp group.val).outStates = some states ∧ (s.fioGrp group.val).atEdge = false ∧ s.refreshes group.val = true ∧
      s.serOk group.val = true ∧ frame.couplers.toNat = states ∧ frame.couplersValid = 0xFFFF := by
  decide +kernel

/-! FieldOutputs -/

theorem meets_FieldOutputs_0 :
    let dt : Nat := 0
    let b : State := State.reset
    let s : State := (let v : State := b; { v with fio := { v.fio with ch := tset v.fio.ch 5 { mode := 3 } } })
    let ch : Fin 32 := 5
    s.wf = true ∧ (s.fioCh ch.val).mode = 3 ∧ (s.fioCh ch.val).therm = false ∧ PortRoom s 0x07 := by
  decide +kernel

theorem meets_FieldOutputs_1 :
    let dt : Nat := 0
    let b : State := State.reset
    let s : State := (let v : State := b; { v with fio := { v.fio with ch := tset v.fio.ch 5 { mode := 3, therm := true } } })
    let ch : Fin 32 := 5
    s.wf = true ∧ (s.fioCh ch.val).therm = true := by
  decide +kernel

theorem meets_FieldOutputs_2 :
    let dt : Nat := 0
    let b : State := State.reset
    let s : State := (let v : State := b.setF (Fld.FIO_GSTAT_STATE 0) 2; { v with fio := { v.fio with ch := tset v.fio.ch 5 { mode := 3, latch := true } } })
    let ch : Fin 32 := 5
    let withTest : Nat := 200
    let withoutTest : Nat := 0
    let current : Bool := true
    s.wf = true ∧ (s.fioCh ch.val).mode = 3 ∧ s.fioSampling (fioGroupOf ch.val) = true ∧ (s.fioCh ch.val).latch = true ∧
      (s.fioCh ch.val).opened = false := by
  decide +kernel

theorem meets_FieldOutputs_3 :
    let dt : Nat := 0
    let b : State := State.reset
    let s : State := (let v : State := b.setF (Fld.FIO_GSTAT_STATE 0) 2; { v with fio := { v.fio with ch := tset v.fio.ch 5 { mode := 3, oldEn := true, lastDiag := 2 }, grp := tset v.fio.grp 0 { vf := 240 } } })
    let ch : Fin 32 := 5
    let withTest : Nat := 200
    let withoutTest : Nat := 0
    let current : Bool := true
    s.wf = true ∧ (s.fioCh ch.val).mode = 3 ∧ s.fioSampling (fioGroupOf ch.val) = true ∧ (s.fioCh ch.val).latch = false ∧
      (s.fioCh ch.val).diagAt = none ∧ (s.fioCh ch.val).oldEn = true ∧ (s.fioCh ch.val).lastDiag = 2 ∧ (s.fioCh
      ch.val).openLoad = false ∧ (s.fioGrp (fioGroupOf ch.val)).vf < 2 * (withTest : Int) ∧ 2 * (withoutTest : Int) <
      (s.fioGrp (fioGroupOf ch.val)).vf ∧ (withoutTest : Int) + 30 ≤ (s.fioGrp (fioGroupOf ch.val)).vf ∧ PortRoom s 0x07 :=
      by
  decide +kernel

theorem meets_FieldOutputs_4 :
    let dt : Nat := 0
    let b : State := State.reset
    let s : State := (let v : State := b.setF Fld.STE_STATUS_STATE 0 |>.setF (Fld.STE_FAILMAP_UNITS 0x07) 0; { v with fio := { v.fio with ch := tset v.fio.ch 5 { mode := 3, refAt := some 0, wdt := 2, lost := true } }, lcs := { v.lcs with phase := .firmware }, time := { v.time with clock := 500000 } })
    let ch : Fin 32 := 5
    let at_ : Nat := 0
    s.wf = true ∧ (s.fioCh ch.val).refAt = some at_ ∧ (s.fioCh ch.val).mode = 3 ∧ (s.fioCh ch.val).failAt = none ∧ at_ +
      (s.fioCh ch.val).wdt * 250000 ≤ (s.elapse dt).time.clock ∧ ((s.fioCh ch.val).lost = true ∨ s.fioFed ch.val = false) ∧
      s.logicAlive = true := by
  decide +kernel

theorem meets_FieldOutputs_5 :
    let dt : Nat := 0
    let b : State := State.reset
    let s : State := (let v : State := b; { v with fio := { v.fio with ch := tset v.fio.ch 5 { mode := 3, failAt := some 0, latch := true } } })
    let ch : Fin 32 := 5
    let at_ : Nat := 0
    s.wf = true ∧ (s.fioCh ch.val).failAt = some at_ ∧ at_ + (s.fioCh ch.val).holdt * 250000 ≤ (s.elapse dt).time.clock := by
  decide +kernel

/-! MeasSamples -/

theorem meets_MeasSamples_0 :
    let dt : Nat := 0
    let b : State := State.reset
    let s : State := (let v : State := (b.setF Fld.STE_STATUS_STATE 0 |>.setF (Fld.STE_FAILMAP_UNITS 0x08) 0 |>.setF (Fld.FAB_FWWR_MASK 0x08) 1); { v with meas := { v.meas with ch := tset v.meas.ch 3 { en := true, run := some 0, comb := [1, 2, 3, 4], integ := [5, 6, 7, 8] } } })
    let ch : Fin 16 := 3
    let bits : BitVec 64 := 0x123456789ABCDEF0
    let r : Nat := 0
    s.wf = true ∧ (s.measCh ch.val).run = some r ∧ r ≤ (s.elapse dt).time.mt := by
  decide +kernel

theorem meets_MeasSamples_1 :
    let dt : Nat := 0
    let b : State := State.reset
    let s : State := (let w : State := (let v : State := (b.setF Fld.STE_STATUS_STATE 0 |>.setF (Fld.STE_FAILMAP_UNITS 0x08) 0 |>.setF (Fld.FAB_FWWR_MASK 0x08) 1); { v with meas := { v.meas with ch := tset v.meas.ch 3 { en := true, run := some 0, j := 1 } } }); { w with time := { w.time with mt := 1000000 } })
    let ch : Fin 16 := 3
    let r : Nat := 0
    let ts : Nat := 15625
    let e : List Byte := []
    let z : Int := divHalfAway ((Config.firOutput (s.measCh ch.val).preset ((s.measCh ch.val).span (s.measCh ch.val).j)) * 65536 * signed32 (Machine.ent e 4 4)) (2 ^ 46) + signed32 (Machine.ent e 8 4)
    let clip : Bool := false
    s.wf = true ∧ (s.measCh ch.val).run = some r ∧ ts = r + (s.measCh ch.val).j * measP (s.measCh ch.val).preset ∧ ts ≤
      (s.elapse dt).time.mt ∧ e = (s.measCh ch.val).conf ts ∧ Machine.ent e 2 1 = 0 ∧ z = divHalfAway ((Config.firOutput
      (s.measCh ch.val).preset ((s.measCh ch.val).span (s.measCh ch.val).j)) * 65536 * signed32 (Machine.ent e 4 4)) (2 ^ 46)
      + signed32 (Machine.ent e 8 4) ∧ clip = ((s.measCh ch.val).span (s.measCh ch.val).j).any sincOver := by
  intro dt b s ch r ts e z clip
  exact ⟨by decide +kernel +revert, by decide +kernel +revert, by decide +kernel +revert, by decide +kernel +revert, by decide +kernel +revert, by decide +kernel +revert, rfl, by decide +kernel +revert⟩

theorem meets_MeasSamples_2 :
    let dt : Nat := 0
    let b : State := State.reset
    let s : State := (b.setF Fld.STE_STATUS_STATE 0 |>.setF (Fld.STE_FAILMAP_UNITS 0x08) 0 |>.setF (Fld.FAB_FWWR_MASK 0x08) 1|>.setB (Fld.MEAS_CHSTAT_STUCK 3) false)
    let ch : Fin 16 := 3
    s.wf = true ∧ s.bit (Fld.MEAS_CHSTAT_STUCK ch.val) = false ∧ s.unitOff 0x08 0 = false ∧ PortRoom s 0x08 := by
  decide +kernel

theorem meets_MeasSamples_3 :
    let dt : Nat := 0
    let b : State := State.reset
    let s : State := (b.setF Fld.STE_STATUS_STATE 0 |>.setF (Fld.STE_FAILMAP_UNITS 0x08) 0 |>.setF (Fld.FAB_FWWR_MASK 0x08) 1|>.setB (Fld.MEAS_CHSTAT_STUCK 3) true)
    let ch : Fin 16 := 3
    s.wf = true := by
  decide +kernel

theorem meets_MeasSamples_4 :
    let dt : Nat := 0
    let b : State := State.reset
    let s : State := (b.setF Fld.STE_STATUS_STATE 0 |>.setF (Fld.STE_FAILMAP_UNITS 0x08) 0 |>.setF (Fld.FAB_FWWR_MASK 0x08) 1|>.wr64 (Reg.MEAS_RINGRD 3) 4 |>.wr64 (Reg.MEAS_WRITTEN 3) 9)
    let req : Requester := ⟨.t, 0⟩
    let ch : Fin 16 := 3
    let value : BitVec 64 := 9
    s.wf = true ∧ Lets s req (Reg.MEAS_RINGRD ch.val) ∧ s.rd64 (Reg.MEAS_RINGRD ch.val) ≤ value.toNat ∧ value.toNat ≤ s.rd64
      (Reg.MEAS_WRITTEN ch.val) := by
  decide +kernel

theorem meets_MeasSamples_5 :
    let dt : Nat := 0
    let b : State := State.reset
    let s : State := (b.setF Fld.STE_STATUS_STATE 0 |>.setF (Fld.STE_FAILMAP_UNITS 0x08) 0 |>.setF (Fld.FAB_FWWR_MASK 0x08) 1|>.wr64 (Reg.MEAS_RINGRD 3) 4 |>.wr64 (Reg.MEAS_WRITTEN 3) 9)
    let req : Requester := ⟨.t, 0⟩
    let ch : Fin 16 := 3
    let value : BitVec 64 := 10
    s.wf = true ∧ Lets s req (Reg.MEAS_RINGRD ch.val) ∧ s.rd64 (Reg.MEAS_WRITTEN ch.val) < value.toNat := by
  decide +kernel

/-! MeasSync -/

theorem meets_MeasSync_0 :
    let dt : Nat := 0
    let b : State := State.reset
    let s : State := (b.setF Fld.STE_STATUS_STATE 0 |>.setF (Fld.STE_FAILMAP_UNITS 0x08) 0 |>.setF (Fld.FAB_FWWR_MASK 0x08) 1|>.setB Fld.MEAS_SYNCCTL_PIN_EN true |>.setB Fld.MEAS_SYNCCTL_PIN_POL false |>.setB Fld.CSC_STATUS_MEMBER false |>.setB Fld.CSC_STATUS_MASTER false)
    let rising : Bool := true
    let width : Nat := 100
    s.wf = true ∧ s.unitOff 0x08 0 = false ∧ s.bit Fld.MEAS_SYNCCTL_PIN_EN = true ∧ rising ≠ s.bit Fld.MEAS_SYNCCTL_PIN_POL ∧
      100 ≤ width ∧ ((s.meas.lastPin.all fun t => decide (t + 10000 ≤ (s.elapse dt).time.clock)) = true) ∧ s.measMember =
      false ∧ s.measMaster = false := by
  decide +kernel

theorem meets_MeasSync_1 :
    let dt : Nat := 0
    let b : State := State.reset
    let s : State := (let w : State := (let v : State := (b.setF Fld.STE_STATUS_STATE 0 |>.setF (Fld.STE_FAILMAP_UNITS 0x08) 0 |>.setF (Fld.FAB_FWWR_MASK 0x08) 1|>.setB Fld.MEAS_SYNCCTL_PIN_EN true |>.setB Fld.MEAS_SYNCCTL_PIN_POL false); { v with meas := { v.meas with lastPin := some 5 } }); { w with time := { w.time with clock := 10004 } })
    let rising : Bool := true
    let width : Nat := 100
    let t0 : Nat := 5
    s.wf = true ∧ s.unitOff 0x08 0 = false ∧ s.bit Fld.MEAS_SYNCCTL_PIN_EN = true ∧ rising ≠ s.bit Fld.MEAS_SYNCCTL_PIN_POL ∧
      100 ≤ width ∧ s.meas.lastPin = some t0 ∧ (s.elapse dt).time.clock < t0 + 10000 := by
  decide +kernel

theorem meets_MeasSync_2 :
    let dt : Nat := 0
    let b : State := State.reset
    let s : State := (b.setF Fld.STE_STATUS_STATE 0 |>.setF (Fld.STE_FAILMAP_UNITS 0x08) 0 |>.setF (Fld.FAB_FWWR_MASK 0x08) 1 |>.setB Fld.CSC_STATUS_MEMBER false |>.setB Fld.CSC_STATUS_MASTER false)
    let req : Requester := ⟨.t, 0⟩
    s.wf = true ∧ Lets s req Reg.MEAS_SYNCCMD ∧ s.measMember = false ∧ s.measMaster = false := by
  decide +kernel

theorem meets_MeasSync_3 :
    let dt : Nat := 0
    let b : State := State.reset
    let s : State := (let v : State := (b.setF Fld.STE_STATUS_STATE 0 |>.setF (Fld.STE_FAILMAP_UNITS 0x08) 0 |>.setF (Fld.FAB_FWWR_MASK 0x08) 1); { v with meas := { v.meas with armed := some 5 } })
    let req : Requester := ⟨.t, 0⟩
    s.wf = true ∧ Lets s req Reg.MEAS_SYNCCMD := by
  decide +kernel

theorem meets_MeasSync_4 :
    let dt : Nat := 0
    let b : State := State.reset
    let s : State := (let w : State := (let v : State := (b.setF Fld.STE_STATUS_STATE 0 |>.setF (Fld.STE_FAILMAP_UNITS 0x08) 0 |>.setF (Fld.FAB_FWWR_MASK 0x08) 1 |>.setB Fld.CSC_STATUS_MEMBER false |>.setB Fld.CSC_STATUS_MASTER false); { v with meas := { v.meas with ch := tset v.meas.ch 3 { en := true, j := 5 }, syncs := [(900, 1)] } }); { w with time := { w.time with mt := 1000 } })
    let at_ : Nat := 900
    let src : Nat := 1
    s.wf = true ∧ s.unitOff 0x08 0 = false ∧ s.measMember = false ∧ s.meas.armed = none ∧ s.meas.syncs = [(at_, src)] ∧ at_ ≤
      (s.elapse dt).time.mt ∧ (src = 1 ∨ src = 2) ∧ ((s.meas.lastSync.all fun t => decide (t + 122 < at_)) = true) ∧ PortRoom
      s 0x08 := by
  decide +kernel

theorem meets_MeasSync_5 :
    let dt : Nat := 0
    let b : State := State.reset
    let s : State := (b.setF Fld.STE_STATUS_STATE 0 |>.setF (Fld.STE_FAILMAP_UNITS 0x08) 0 |>.setF (Fld.FAB_FWWR_MASK 0x08) 1|>.setB Fld.MEAS_STATUS_PLL_LOCK true)
    s.wf = true ∧ s.bit Fld.MEAS_STATUS_PLL_LOCK = true ∧ PortRoom s 0x08 := by
  decide +kernel

theorem meets_MeasSync_6 :
    let dt : Nat := 0
    let b : State := State.reset
    let s : State := (let v : State := (b.setF Fld.STE_STATUS_STATE 0 |>.setF (Fld.STE_FAILMAP_UNITS 0x08) 0 |>.setF (Fld.FAB_FWWR_MASK 0x08) 1|>.setB Fld.MEAS_STATUS_PLL_LOCK false); { v with meas := { v.meas with wasLocked := true } })
    s.wf = true ∧ s.bit Fld.MEAS_STATUS_PLL_LOCK = false ∧ s.meas.wasLocked = true ∧ PortRoom s 0x08 := by
  decide +kernel

/-! WalLinks -/

theorem meets_WalLinks_0 :
    let dt : Nat := 0
    let b : State := State.reset
    let s : State := (b.setF Fld.STE_STATUS_STATE 0 |>.setF (Fld.STE_FAILMAP_UNITS 0x09) 0|>.setB (Fld.WAL_LINKDLY_LINKUP 2) true)
    let port : Fin 4 := 2
    let delay : BitVec 16 := 500
    s.wf = true ∧ s.bit (Fld.WAL_LINKDLY_LINKUP port.val) = true ∧ s.unitOff 0x09 0 = false := by
  decide +kernel

theorem meets_WalLinks_1 :
    let dt : Nat := 0
    let b : State := State.reset
    let s : State := (b.setF Fld.STE_STATUS_STATE 0 |>.setF (Fld.STE_FAILMAP_UNITS 0x09) 0|>.setB (Fld.WAL_LINKDLY_LINKUP 2) true)
    let port : Fin 4 := 2
    s.wf = true ∧ s.bit (Fld.WAL_LINKDLY_LINKUP port.val) = true ∧ PortRoom s 0x09 := by
  decide +kernel

theorem meets_WalLinks_2 :
    let dt : Nat := 0
    let b : State := State.reset
    let s : State := (let v : State := (b.setF Fld.STE_STATUS_STATE 0 |>.setF (Fld.STE_FAILMAP_UNITS 0x09) 0); { v with wal := { v.wal with ch := tset v.wal.ch 1 { sending := some 70, sendUntil := 9000000000 } }, time := { v.time with mt := 1249999 } })
    let chan : Fin 2 := 1
    let e : Nat := 70
    s.wf = true ∧ (s.elapse dt).walOnWire chan.val = some e ∧ (s.walSlot e).ofs + (s.walSlot e).slen ≤ (s.elapse dt).walNow +
      s.walG + s.walSpan := by
  decide +kernel

theorem meets_WalLinks_3 :
    let dt : Nat := 0
    let b : State := State.reset
    let s : State := b
    let port : Fin 4 := 2
    let interval : Nat := 250101
    s.wf = true ∧ (interval < 249900 ∨ 250100 < interval) ∧ PortRoom s 0x09 := by
  decide +kernel

theorem meets_WalLinks_4 :
    let dt : Nat := 0
    let b : State := State.reset
    let s : State := b
    let port : Fin 4 := 2
    let interval : Nat := 250100
    s.wf = true ∧ 249900 ≤ interval ∧ interval ≤ 250100 := by
  decide +kernel

theorem meets_WalLinks_5 :
    let dt : Nat := 0
    let b : State := State.reset
    let s : State := (let v : State := (b.setF Fld.STE_STATUS_STATE 0 |>.setF (Fld.STE_FAILMAP_UNITS 0x09) 0 |>.setF (Fld.WAL_STATUS_STATE 1) 4); { v with wal := { v.wal with ch := tset v.wal.ch 1 { fwd := [{ port := 2, wire := List.replicate 60 7, start := 0, until_ := 9000000000, limit := 400, bad := false, crcOk := true }] } }, time := { v.time with clock := 500 } })
    let port : Fin 4 := 2
    let x : WalFwd := { port := 2, wire := List.replicate 60 7, start := 0, until_ := 9000000000, limit := 400, bad := false, crcOk := true }
    s.wf = true ∧ (s.walCh (port.val / 2)).fwd = [x] ∧ x.port = port.val ∧ x.limit ≤ (s.elapse dt).time.clock ∧ x.limit <
      x.until_ := by
  decide +kernel

/-! WalFrames -/

theorem meets_WalFrames_0 :
    let dt : Nat := 0
    let b : State := State.reset
    let s : State := (let v : State := (b.setF Fld.STE_STATUS_STATE 0 |>.setF (Fld.STE_FAILMAP_UNITS 0x09) 0 |>.setF (Fld.WAL_STATUS_STATE 1) 4 |>.setF Fld.WAL_GUARD_G 500 |>.setF Fld.WAL_SPAN_SPAN 3000 |>.setF Fld.WAL_NODECFG_POS 3 |>.wr Reg.WAL_SCHEDID 0); { v with wal := { v.wal with ch := tset v.wal.ch 1 { } }, cats := tset v.cats 9 { inUse := true, count := 128, working := tset [] 64 (leBytes 1 1 ++ leBytes 1 3 ++ leBytes 1 0xFF ++ [0] ++ leBytes 4 30000 ++ leBytes 4 8000 ++ leBytes 2 16 ++ leBytes 2 0 ++ leBytes 1 2 ++ leBytes 47 0) }, time := { v.time with beat := 4 } })
    let port : Fin 4 := 2
    let c : Nat := 1
    let e : Nat := 64
    let f : WalFrame := { startOfs := 30000, endOfs := 31000, txError := false, crcOk := true, headerSeen := true, version := 1, flags := 0, slot := 128, node := 3, schedId := 0, cycle := 4, upDly := 0xFFFF, rank := 0, claimId := 0, len := 16, payload := List.replicate 16 7 }
    s.wf = true ∧ c = port.val / 2 ∧ s.unitOff 0x09 0 = false ∧ (s.walCh c).stepped = false ∧ s.walState c = 4 ∧ f.headerSeen
      = true ∧ f.flags.testBit 1 = false ∧ (tget (s.walCh c).upDly f.node = (if f.upDly = 0xFFFF then none else some
      f.upDly)) ∧ s.walSlotAt c f = some e ∧ e / 64 = c ∧ ((s.lpe.all fun x => decide (x.1 < 8)) = true) ∧ (s.elapse
      dt).walOnWire c = none ∧ s.walJudge c e f = 0 ∧ (s.walRec e).clashed = false ∧ (s.walRole e).testBit 1 = true := by
  decide +kernel

theorem meets_WalFrames_1 :
    let dt : Nat := 0
    let b : State := State.reset
    let s : State := (let v : State := (b.setF Fld.STE_STATUS_STATE 0 |>.setF (Fld.STE_FAILMAP_UNITS 0x09) 0 |>.setF (Fld.WAL_STATUS_STATE 1) 4 |>.setF Fld.WAL_GUARD_G 500 |>.setF Fld.WAL_SPAN_SPAN 3000 |>.setF Fld.WAL_NODECFG_POS 3 |>.wr Reg.WAL_SCHEDID 0); { v with wal := { v.wal with ch := tset v.wal.ch 1 { } }, cats := tset v.cats 9 { inUse := true, count := 128, working := tset [] 64 (leBytes 1 1 ++ leBytes 1 3 ++ leBytes 1 0xFF ++ [0] ++ leBytes 4 30000 ++ leBytes 4 8000 ++ leBytes 2 16 ++ leBytes 2 0 ++ leBytes 1 2 ++ leBytes 47 0) } })
    let port : Fin 4 := 2
    let c : Nat := 1
    let e : Nat := 64
    let f : WalFrame := { startOfs := 30000, endOfs := 31000, txError := false, crcOk := false, headerSeen := true, version := 1, flags := 0, slot := 128, node := 3, schedId := 0, cycle := 4, upDly := 0xFFFF, rank := 0, claimId := 0, len := 16, payload := List.replicate 16 7 }
    s.wf = true ∧ c = port.val / 2 ∧ s.unitOff 0x09 0 = false ∧ (s.walCh c).stepped = false ∧ s.walState c = 4 ∧ f.headerSeen
      = true ∧ f.flags.testBit 1 = false ∧ (tget (s.walCh c).upDly f.node = (if f.upDly = 0xFFFF then none else some
      f.upDly)) ∧ s.walSlotAt c f = some e ∧ e / 64 = c ∧ ((s.lpe.all fun x => decide (x.1 < 8)) = true) ∧ (s.elapse
      dt).walOnWire c = none ∧ s.walJudge c e f = 2 ∧ (s.walRec e).now ≠ some 0 := by
  decide +kernel

theorem meets_WalFrames_2 :
    let dt : Nat := 0
    let b : State := State.reset
    let s : State := (let v : State := (b.setF Fld.STE_STATUS_STATE 0 |>.setF (Fld.STE_FAILMAP_UNITS 0x09) 0 |>.setF (Fld.WAL_STATUS_STATE 1) 4 |>.setF Fld.WAL_GUARD_G 500 |>.setF Fld.WAL_SPAN_SPAN 3000 |>.setF Fld.WAL_NODECFG_POS 3 |>.wr Reg.WAL_SCHEDID 0); { v with wal := { v.wal with ch := tset v.wal.ch 1 { }, recs := tset v.wal.recs 64 { now := some 0, nowData := [1] } }, cats := tset v.cats 9 { inUse := true, count := 128, working := tset [] 64 (leBytes 1 1 ++ leBytes 1 3 ++ leBytes 1 0xFF ++ [0] ++ leBytes 4 30000 ++ leBytes 4 8000 ++ leBytes 2 16 ++ leBytes 2 0 ++ leBytes 1 2 ++ leBytes 47 0) } })
    let port : Fin 4 := 2
    let c : Nat := 1
    let e : Nat := 64
    let f : WalFrame := { startOfs := 30000, endOfs := 31000, txError := false, crcOk := false, headerSeen := true, version := 1, flags := 0, slot := 128, node := 3, schedId := 0, cycle := 4, upDly := 0xFFFF, rank := 0, claimId := 0, len := 16, payload := List.replicate 16 7 }
    s.wf = true ∧ c = port.val / 2 ∧ s.unitOff 0x09 0 = false ∧ (s.walCh c).stepped = false ∧ s.walState c = 4 ∧ f.headerSeen
      = true ∧ f.flags.testBit 1 = false ∧ (tget (s.walCh c).upDly f.node = (if f.upDly = 0xFFFF then none else some
      f.upDly)) ∧ s.walSlotAt c f = some e ∧ e / 64 = c ∧ ((s.lpe.all fun x => decide (x.1 < 8)) = true) ∧ (s.elapse
      dt).walOnWire c = none ∧ s.walJudge c e f = 2 ∧ (s.walRec e).now = some 0 := by
  decide +kernel

theorem meets_WalFrames_3 :
    let dt : Nat := 0
    let b : State := State.reset
    let s : State := (let v : State := (b.setF Fld.STE_STATUS_STATE 0 |>.setF (Fld.STE_FAILMAP_UNITS 0x09) 0 |>.setF (Fld.WAL_STATUS_STATE 1) 4 |>.setF Fld.WAL_GUARD_G 500 |>.setF Fld.WAL_SPAN_SPAN 3000 |>.setF Fld.WAL_NODECFG_POS 3 |>.wr Reg.WAL_SCHEDID 0); { v with wal := { v.wal with ch := tset v.wal.ch 1 { sending := some 66, sendUntil := 9000000000 } }, cats := tset v.cats 9 { inUse := true, count := 128, working := tset [] 64 (leBytes 1 1 ++ leBytes 1 3 ++ leBytes 1 0xFF ++ [0] ++ leBytes 4 30000 ++ leBytes 4 8000 ++ leBytes 2 16 ++ leBytes 2 0 ++ leBytes 1 2 ++ leBytes 47 0) } })
    let port : Fin 4 := 2
    let c : Nat := 1
    let e : Nat := 64
    let own : Nat := 66
    let f : WalFrame := { startOfs := 30000, endOfs := 31000, txError := false, crcOk := true, headerSeen := true, version := 1, flags := 0, slot := 128, node := 3, schedId := 0, cycle := 4, upDly := 0xFFFF, rank := 0, claimId := 0, len := 16, payload := List.replicate 16 7 }
    s.wf = true ∧ c = port.val / 2 ∧ s.unitOff 0x09 0 = false ∧ (s.walCh c).stepped = false ∧ s.walState c = 4 ∧ f.headerSeen
      = true ∧ f.flags.testBit 1 = false ∧ (tget (s.walCh c).upDly f.node = (if f.upDly = 0xFFFF then none else some
      f.upDly)) ∧ s.walSlotAt c f = some e ∧ e / 64 = c ∧ ((s.lpe.all fun x => decide (x.1 < 8)) = true) ∧ (s.elapse
      dt).walOnWire c = some own ∧ (s.walSlot own).spare = false ∧ e ≠ own ∧ PortRoom s 0x09 := by
  decide +kernel

theorem meets_WalFrames_4 :
    let dt : Nat := 0
    let b : State := State.reset
    let s : State := (let v : State := (b.setF Fld.STE_STATUS_STATE 0 |>.setF (Fld.STE_FAILMAP_UNITS 0x09) 0 |>.setF (Fld.WAL_STATUS_STATE 1) 4 |>.setF Fld.WAL_GUARD_G 500 |>.setF Fld.WAL_SPAN_SPAN 3000 |>.setF Fld.WAL_NODECFG_POS 3 |>.wr Reg.WAL_SCHEDID 0 |>.setF (Fld.WAL_STATUS_STATE 1) 1); { v with wal := { v.wal with ch := tset v.wal.ch 1 { } }, cats := tset v.cats 9 { inUse := true, count := 128, working := tset [] 64 (leBytes 1 1 ++ leBytes 1 3 ++ leBytes 1 0xFF ++ [0] ++ leBytes 4 30000 ++ leBytes 4 8000 ++ leBytes 2 16 ++ leBytes 2 0 ++ leBytes 1 2 ++ leBytes 47 0) } })
    let port : Fin 4 := 2
    let c : Nat := 1
    let e : Nat := 64
    let f : WalFrame := { startOfs := 30000, endOfs := 31000, txError := false, crcOk := true, headerSeen := true, version := 1, flags := 0, slot := 128, node := 3, schedId := 0, cycle := 4, upDly := 0xFFFF, rank := 0, claimId := 0, len := 16, payload := List.replicate 16 7 }
    s.wf = true ∧ c = port.val / 2 ∧ s.unitOff 0x09 0 = false ∧ s.walState c = 1 ∧ (s.walCh c).stepped = false ∧ f.headerSeen
      = true ∧ f.flags.testBit 1 = false ∧ ((s.lpe.all fun x => decide (x.1 < 8)) = true) ∧ (s.elapse dt).walOnWire c = none
      ∧ s.walSlotAt c f = some e ∧ (s.walRec e).now = none := by
  decide +kernel

theorem meets_WalFrames_5 :
    let dt : Nat := 0
    let b : State := State.reset
    let s : State := (let v : State := (b.setF Fld.STE_STATUS_STATE 0 |>.setF (Fld.STE_FAILMAP_UNITS 0x09) 0 |>.setF (Fld.WAL_STATUS_STATE 1) 4 |>.setF Fld.WAL_GUARD_G 500 |>.setF Fld.WAL_SPAN_SPAN 3000 |>.setF Fld.WAL_NODECFG_POS 3 |>.wr Reg.WAL_SCHEDID 0); { v with wal := { v.wal with ch := tset v.wal.ch 1 { } }, cats := tset v.cats 9 { inUse := true, count := 128, working := tset [] 64 (leBytes 1 1 ++ leBytes 1 3 ++ leBytes 1 0xFF ++ [0] ++ leBytes 4 30000 ++ leBytes 4 8000 ++ leBytes 2 16 ++ leBytes 2 0 ++ leBytes 1 1 ++ leBytes 47 0) }, time := { v.time with mt := 1000000 + 31000, edgeAt := 1250000 } })
    let chan : Fin 2 := 1
    let entry : Fin 64 := 0
    let e : Nat := 64
    let x : WalSlot := s.walSlot 64
    s.wf = true ∧ e = 64 * chan.val + entry.val ∧ x = s.walSlot e ∧ x.used = true ∧ x.spare = false ∧ (s.walRole e).testBit 0
      = true ∧ ((s.walRole e).testBit 3 = false ∨ (s.custodyOn = true ∧ s.rpl.resume = none)) ∧ s.walState chan.val = 4 ∧
      (s.walCh chan.val).block ≠ 3 ∧ (s.walCh chan.val).stepped = false ∧ (s.walRec e).sent = false ∧ x.ofs + s.walG ≤
      (s.elapse dt).walNow ∧ (s.elapse dt).walNow < x.ofs + x.slen - s.walG - s.walSpan ∧ ((s.lpe.all fun x => decide (x.1 <
      8)) = true) := by
  decide +kernel

theorem meets_WalFrames_6 :
    let dt : Nat := 0
    let b : State := State.reset
    let s : State := (let v : State := (b.setF Fld.STE_STATUS_STATE 0 |>.setF (Fld.STE_FAILMAP_UNITS 0x09) 0 |>.setF (Fld.WAL_STATUS_STATE 1) 1 |>.setB Fld.WAL_NODECFG_CS true |>.setF Fld.WAL_NODECFG_RANK 2); { v with wal := { v.wal with ch := tset v.wal.ch 1 { } }, time := { v.time with clock := 9000000 } })
    let chan : Fin 2 := 1
    s.wf = true ∧ s.walState chan.val = 1 ∧ s.bit Fld.WAL_NODECFG_CS = true ∧ (s.walCh chan.val).heardAt + 500000 + s.walRank
      * 16000 ≤ (s.elapse dt).time.clock ∧ (s.walCh chan.val).block ≠ 3 ∧ (((s.walCh chan.val).lastCs.all fun t => decide (t
      + 500000 ≤ (s.elapse dt).time.clock)) = true) ∧ ((s.lpe.all fun x => decide (x.1 < 8)) = true) := by
  decide +kernel

theorem meets_WalFrames_7 :
    let dt : Nat := 0
    let b : State := State.reset
    let s : State := (let v : State := (b.setF Fld.STE_STATUS_STATE 0 |>.setF (Fld.STE_FAILMAP_UNITS 0x09) 0 |>.setF (Fld.WAL_STATUS_STATE 1) 6 |>.setF Fld.WAL_NODECFG_RANK 2); { v with wal := { v.wal with ch := tset v.wal.ch 1 { } }, time := { v.time with clock := 9000000 } })
    let chan : Fin 2 := 1
    s.wf = true ∧ s.walState chan.val = 6 ∧ (s.walCh chan.val).heardAt + 2000000 + s.walRank * 16000 ≤ (s.elapse
      dt).time.clock ∧ (s.walCh chan.val).block ≠ 3 ∧ (((s.walCh chan.val).lastCs.all fun t => decide (t + 500000 ≤ (s.elapse
      dt).time.clock)) = true) ∧ ((s.lpe.all fun x => decide (x.1 < 8)) = true) := by
  decide +kernel

theorem meets_WalFrames_8 :
    let dt : Nat := 0
    let b : State := State.reset
    let s : State := (let v : State := (b.setF Fld.STE_STATUS_STATE 0 |>.setF (Fld.STE_FAILMAP_UNITS 0x09) 0 |>.setF (Fld.WAL_STATUS_STATE 1) 2); { v with wal := { v.wal with ch := tset v.wal.ch 1 { window := some 0, seen := [⟨2, 3, 77, true, true⟩] } }, time := { v.time with clock := 9000000 } })
    let chan : Fin 2 := 1
    let t0 : Nat := 0
    let x : WalCs := ⟨2, 3, 77, true, true⟩
    s.wf = true ∧ (s.walCh chan.val).window = some t0 ∧ t0 + 250000 ≤ (s.elapse dt).time.clock ∧ (s.walCh chan.val).seen =
      [x] ∧ s.walState chan.val = 2 ∧ x.own = true := by
  decide +kernel

theorem meets_WalFrames_9 :
    let dt : Nat := 0
    let b : State := State.reset
    let s : State := (let v : State := (b.setF Fld.STE_STATUS_STATE 0 |>.setF (Fld.STE_FAILMAP_UNITS 0x09) 0 |>.setF (Fld.WAL_STATUS_STATE 1) 2); { v with wal := { v.wal with ch := tset v.wal.ch 1 { window := some 0, seen := [⟨1, 5, 77, true, false⟩] } }, time := { v.time with clock := 9000000 } })
    let chan : Fin 2 := 1
    let t0 : Nat := 0
    let x : WalCs := ⟨1, 5, 77, true, false⟩
    s.wf = true ∧ (s.walCh chan.val).window = some t0 ∧ t0 + 250000 ≤ (s.elapse dt).time.clock ∧ (s.walCh chan.val).seen =
      [x] ∧ s.walState chan.val = 2 ∧ x.own = false ∧ x.onGrid = true := by
  decide +kernel

/-! EthReceive -/

theorem meets_EthReceive_0 :
    let dt : Nat := 0
    let b : State := State.reset
    let s : State := (b.setF Fld.STE_STATUS_STATE 0 |>.setF (Fld.STE_FAILMAP_UNITS 0x0A) 0 |>.setF (Fld.FAB_FWWR_MASK 0x0A) 1|>.setB (Fld.ETH_PORTSTAT_LINKUP 2) true)
    let port : Fin 11 := 2
    let f : EthFrame := { bytes := List.replicate 60 7, fcsOk := false, bufferFull := false, isGptp := false }
    s.wf = true ∧ s.unitOff 0x0A 0 = false ∧ s.linkUp port.val = true ∧ f.bufferFull = false ∧ f.fcsOk = false ∧ ((s.lpe.all
      fun x => decide (x.1 < 8)) = true) := by
  decide +kernel

theorem meets_EthReceive_1 :
    let dt : Nat := 0
    let b : State := State.reset
    let s : State := (let v : State := (b.setF Fld.STE_STATUS_STATE 0 |>.setF (Fld.STE_FAILMAP_UNITS 0x0A) 0 |>.setF (Fld.FAB_FWWR_MASK 0x0A) 1|>.setB (Fld.ETH_PORTSTAT_LINKUP 2) true |>.setB (Fld.ETH_PORTSTAT_LINKUP 4) true |>.wr (Reg.ETH_PORTCFG 2) 0 |>.setF (Fld.ETH_PORTCFG_STP 2) 3 |>.setF (Fld.ETH_PORTCFG_STP 4) 3 |>.setF (Fld.ETH_PORTCFG_PVID 2) 5 |>.setB (Fld.ETH_VLAN_EN 5) true |>.setF (Fld.ETH_VLAN_MEMBER 5) 0x14); { v with regs := v.regs.filter fun x => !(decide (0xA2000 ≤ x.1 ∧ x.1 < 0xA4000) || decide (0xAD000 ≤ x.1 ∧ x.1 < 0xAE000)) })
    let port : Fin 11 := 2
    let f : EthFrame := { bytes := [1, 2, 3, 4, 5, 6, 10, 11, 12, 13, 14, 15, 8, 0] ++ List.replicate 46 7, fcsOk := true, bufferFull := false, isGptp := false }
    let q : Nat := 4
    s.wf = true ∧ s.unitOff 0x0A 0 = false ∧ port.val < 8 ∧ s.linkUp port.val = true ∧ f.bufferFull = false ∧ f.fcsOk = true
      ∧ 60 ≤ f.bytes.length ∧ f.bytes.length ≤ 1524 ∧ beAt f.bytes 0 6 / 16 ≠ 0x0180C200000 ∧ s.stp port.val = 3 ∧ (s.bit
      (Fld.ETH_PORTCFG_FRAMETYPES port.val) = false ∨ (s.classify port.val (s.getF (Fld.ETH_PORTCFG_DEFPCP port.val))
      f.bytes).tagged = true) ∧ (s.vlanMembers (s.classify port.val (s.getF (Fld.ETH_PORTCFG_DEFPCP port.val))
      f.bytes).vid).testBit port.val = true ∧ s.streamOf port.val (s.classify port.val (s.getF (Fld.ETH_PORTCFG_DEFPCP
      port.val)) f.bytes).vid f.bytes = none ∧ (s.learn port.val f.bytes (s.classify port.val (s.getF (Fld.ETH_PORTCFG_DEFPCP
      port.val)) f.bytes).vid).egressPorts port.val (s.classify port.val (s.getF (Fld.ETH_PORTCFG_DEFPCP port.val))
      f.bytes).vid f.bytes = [q] ∧ q < 8 ∧ s.linkUp q = true ∧ (s.ethQueue q (s.classify port.val (s.getF
      (Fld.ETH_PORTCFG_DEFPCP port.val)) f.bytes).pcp).length < 64 ∧ (s.classify port.val (s.getF (Fld.ETH_PORTCFG_DEFPCP
      port.val)) f.bytes).pcp < 8 ∧ (((List.range 8).map fun i => ((s.ethQueue q i).map fun x => x.bytes.length).sum).sum +
      (s.egressBytes q (s.classify port.val (s.getF (Fld.ETH_PORTCFG_DEFPCP port.val)) f.bytes) (s.classify port.val (s.getF
      (Fld.ETH_PORTCFG_DEFPCP port.val)) f.bytes).inner).length ≤ 196608) ∧ ((s.lpe.all fun x => decide (x.1 < 8)) = true) :=
      by
  decide +kernel

theorem meets_EthReceive_2 :
    let dt : Nat := 0
    let b : State := State.reset
    let s : State := (let v : State := (b.setF Fld.STE_STATUS_STATE 0 |>.setF (Fld.STE_FAILMAP_UNITS 0x0A) 0 |>.setF (Fld.FAB_FWWR_MASK 0x0A) 1 |>.setF Fld.ETH_AGETIME_SEC 2); { v with eth := { v.eth with fdb := [⟨5, 1, 2, 0⟩, ⟨6, 1, 2, 0⟩] }, time := { v.time with clock := 2000000000 } })
    let mac : Nat := 5
    let vid : Nat := 1
    s.wf = true ∧ s.getF Fld.ETH_AGETIME_SEC ≠ 0 := by
  decide +kernel

theorem meets_EthReceive_3 :
    let dt : Nat := 0
    let b : State := State.reset
    let s : State := (let v : State := (b.setF Fld.STE_STATUS_STATE 0 |>.setF (Fld.STE_FAILMAP_UNITS 0x0A) 0 |>.setF (Fld.FAB_FWWR_MASK 0x0A) 1); { v with eth := { v.eth with frer := tset v.eth.frer 5 { started := true, newest := 9, hist := 3, lastAt := 0 } }, time := { v.time with clock := 2000000000 } })
    let i : Fin 128 := 5
    s.wf = true ∧ (tget s.eth.frer i.val).started = true ∧ (tget s.eth.frer i.val).lastAt + max 1 (min 1000 (Machine.ent
      (s.entry16 (Reg.ETH_FRER i.val)) 4 2)) * 1000000 ≤ (s.elapse dt).time.clock := by
  decide +kernel

theorem meets_EthReceive_4 :
    let dt : Nat := 0
    let b : State := State.reset
    let s : State := (b.setF Fld.STE_STATUS_STATE 0 |>.setF (Fld.STE_FAILMAP_UNITS 0x0A) 0 |>.setF (Fld.FAB_FWWR_MASK 0x0A) 1|>.setF (Fld.ETH_PORTCFG_SPEED 2) 0)
    let port : Fin 11 := 2
    let speed : Fin 3 := 1
    let v : Nat := 1
    s.wf = true ∧ port.val < 8 ∧ (v = (if s.getF (Fld.ETH_PORTCFG_SPEED port.val) = 1 ∨ s.getF (Fld.ETH_PORTCFG_SPEED
      port.val) = 2 then s.getF (Fld.ETH_PORTCFG_SPEED port.val) else speed.val)) ∧ PortRoom s 0x0A := by
  decide +kernel

theorem meets_EthReceive_5 :
    let dt : Nat := 0
    let b : State := State.reset
    let s : State := b
    let port : Fin 11 := 2
    let speed : Fin 3 := 1
    s.wf = true ∧ port.val < 8 ∧ PortRoom s 0x0A ∧ (((List.range 8).all fun q => (s.ethQueue port.val q).isEmpty) = true) ∧
      s.onWire port.val = none := by
  decide +kernel

theorem meets_EthReceive_6 :
    let dt : Nat := 0
    let b : State := State.reset
    let s : State := (let v : State := (b.setF Fld.STE_STATUS_STATE 0 |>.setF (Fld.STE_FAILMAP_UNITS 0x0A) 0 |>.setF (Fld.FAB_FWWR_MASK 0x0A) 1|>.setF (Fld.ETH_PORTSTAT_GCLBANK 2) 0 |>.setF (Fld.ETH_GCL_INTERVAL 2 0 0) 100 |>.setF (Fld.ETH_GCL_INTERVAL 2 0 1) 100 |>.setF (Fld.ETH_GCL_INTERVAL 2 0 2) 0 |>.setF (Fld.ETH_GCL_GATES 2 0 0) 1 |>.setF (Fld.ETH_GCL_GATES 2 0 1) 2); { v with time := { v.time with mt := 1000000 }, eth := { v.eth with gcl := tset [] 2 { startMt := 999000 } } })
    let port : Fin 8 := 2
    let x : Nat × Nat := (800, 1)
    let y : Nat × Nat := (800, 2)
    let rest : List (Nat × Nat) := []
    s.wf = true ∧ (s.gclList port.val (s.getF (Fld.ETH_PORTSTAT_GCLBANK port.val))).drop (tget s.eth.gcl port.val).idx = x ::
      y :: rest ∧ (tget s.eth.gcl port.val).startMt + x.1 ≤ (s.elapse dt).time.mt := by
  decide +kernel

theorem meets_EthReceive_7 :
    let dt : Nat := 0
    let b : State := State.reset
    let s : State := (b.setF Fld.STE_STATUS_STATE 0 |>.setF (Fld.STE_FAILMAP_UNITS 0x0A) 0 |>.setF (Fld.FAB_FWWR_MASK 0x0A) 1|>.setF (Fld.ETH_GCL_INTERVAL 2 1 0) 100)
    let req : Requester := ⟨.t, 0⟩
    let port : Fin 8 := 2
    let value : Word := 0x303
    let bank : Nat := 1
    let k : Nat := 3
    s.wf = true ∧ Lets s req (Reg.ETH_GCLCTL port.val) ∧ value.toNat.testBit 9 = true ∧ bank = value.toNat / 256 % 2 ∧ k =
      value.toNat % 8 ∧ k ≠ 7 ∧ s.getF (Fld.ETH_GCL_INTERVAL port.val bank 0) ≠ 0 := by
  decide +kernel

theorem meets_EthReceive_8 :
    let dt : Nat := 0
    let b : State := State.reset
    let s : State := (let v : State := (b.setF Fld.STE_STATUS_STATE 0 |>.setF (Fld.STE_FAILMAP_UNITS 0x0A) 0 |>.setF (Fld.FAB_FWWR_MASK 0x0A) 1); { v with eth := { v.eth with gcl := tset [] 2 { pend := some (1, 3, 0) } } })
    let port : Fin 8 := 2
    let bank : Nat := 1
    let k : Nat := 3
    let at_ : Nat := 0
    s.wf = true ∧ (tget s.eth.gcl port.val).pend = some (bank, k, at_) ∧ at_ ≤ (s.elapse dt).time.mt ∧ PortRoom s 0x0A := by
  decide +kernel

/-! EthTransmit -/

theorem meets_EthTransmit_0 :
    let dt : Nat := 0
    let b : State := State.reset
    let s : State := (let v : State := (b.setF Fld.STE_STATUS_STATE 0 |>.setF (Fld.STE_FAILMAP_UNITS 0x0A) 0 |>.setF (Fld.FAB_FWWR_MASK 0x0A) 1|>.setB (Fld.ETH_PORTSTAT_LINKUP 2) true |>.setB (Fld.ETH_PORTCFG_GATE_EN 2) false); { v with eth := { v.eth with queues := tset [] 19 [{ bytes := List.replicate 60 5, since := 0, launch := none, tol := 10, tsTag := none, origin := .switched, rx := { inPort := 1, ts := 0, vid := 1, pcp := 3, stream := 0xFFFF, tagged := false, rtag := false } }] } })
    let port : Fin 11 := 2
    let q : Nat := 3
    let f : EthQ := { bytes := List.replicate 60 5, since := 0, launch := none, tol := 10, tsTag := none, origin := .switched, rx := { inPort := 1, ts := 0, vid := 1, pcp := 3, stream := 0xFFFF, tagged := false, rtag := false } }
    s.wf = true ∧ port.val ≠ 8 ∧ port.val ≠ 9 ∧ s.onWire port.val = none ∧ s.linkUp port.val = true ∧ s.unitOff 0x0A 0 =
      false ∧ (s.elapse dt).txSelect port.val = some (q, f) ∧ f.launch = none ∧ f.tsTag = none := by
  decide +kernel

theorem meets_EthTransmit_1 :
    let dt : Nat := 0
    let b : State := State.reset
    let s : State := (let v : State := (b.setF Fld.STE_STATUS_STATE 0 |>.setF (Fld.STE_FAILMAP_UNITS 0x0A) 0 |>.setF (Fld.FAB_FWWR_MASK 0x0A) 1|>.setB (Fld.ETH_PORTSTAT_LINKUP 2) true |>.setB (Fld.ETH_PORTCFG_GATE_EN 2) false); { v with eth := { v.eth with queues := tset [] 19 [{ bytes := List.replicate 60 5, since := 0, launch := some 999995, tol := 10, tsTag := some 77, origin := .switched, rx := { inPort := 1, ts := 0, vid := 1, pcp := 3, stream := 0xFFFF, tagged := false, rtag := false } }] }, time := { v.time with mt := 1000000 } })
    let port : Fin 11 := 2
    let queue : Fin 8 := 3
    let f : EthQ := { bytes := List.replicate 60 5, since := 0, launch := some 999995, tol := 10, tsTag := some 77, origin := .switched, rx := { inPort := 1, ts := 0, vid := 1, pcp := 3, stream := 0xFFFF, tagged := false, rtag := false } }
    let rest : List EthQ := []
    let at_ : Nat := 999995
    let tag : Nat := 77
    s.wf = true ∧ port.val ≠ 8 ∧ port.val ≠ 9 ∧ s.onWire port.val = none ∧ s.linkUp port.val = true ∧ s.unitOff 0x0A 0 =
      false ∧ (s.elapse dt).txSelect port.val = some (queue.val, f) ∧ s.ethQueue port.val queue.val = f :: rest ∧ f.launch =
      some at_ ∧ at_ ≤ (s.elapse dt).planeMt port.val ∧ (s.elapse dt).planeMt port.val - at_ ≤ f.tol ∧ f.tsTag = some tag ∧
      port.val < 8 ∧ (tget s.tsq port.val).entries.length < 16 := by
  decide +kernel

theorem meets_EthTransmit_2 :
    let dt : Nat := 0
    let b : State := State.reset
    let s : State := (let v : State := (b.setF Fld.STE_STATUS_STATE 0 |>.setF (Fld.STE_FAILMAP_UNITS 0x0A) 0 |>.setF (Fld.FAB_FWWR_MASK 0x0A) 1|>.setB (Fld.ETH_PORTSTAT_LINKUP 2) true |>.setB (Fld.ETH_PORTCFG_GATE_EN 2) false); { v with eth := { v.eth with queues := tset [] 19 [{ bytes := List.replicate 60 5, since := 0, launch := some 99999500, tol := 10, tsTag := none, origin := .switched, rx := { inPort := 1, ts := 0, vid := 1, pcp := 3, stream := 0xFFFF, tagged := false, rtag := false } }] } })
    let port : Fin 11 := 2
    let queue : Fin 8 := 3
    let f : EthQ := { bytes := List.replicate 60 5, since := 0, launch := some 99999500, tol := 10, tsTag := none, origin := .switched, rx := { inPort := 1, ts := 0, vid := 1, pcp := 3, stream := 0xFFFF, tagged := false, rtag := false } }
    let rest : List EthQ := []
    let at_ : Nat := 99999500
    s.wf = true ∧ s.ethQueue port.val queue.val = f :: rest ∧ f.launch = some at_ ∧ (s.elapse dt).planeMt port.val < at_ :=
      by
  decide +kernel

theorem meets_EthTransmit_3 :
    let dt : Nat := 0
    let b : State := State.reset
    let s : State := (let v : State := (b.setF Fld.STE_STATUS_STATE 0 |>.setF (Fld.STE_FAILMAP_UNITS 0x0A) 0 |>.setF (Fld.FAB_FWWR_MASK 0x0A) 1); { v with eth := { v.eth with sending := tset [] 2 (some { bytes := List.replicate 60 5, since := 0, launch := none, tol := 10, tsTag := none, origin := .switched, rx := { inPort := 1, ts := 0, vid := 1, pcp := 3, stream := 0xFFFF, tagged := false, rtag := false } }) } })
    let port : Fin 11 := 2
    let f : EthQ := { bytes := List.replicate 60 5, since := 0, launch := none, tol := 10, tsTag := none, origin := .switched, rx := { inPort := 1, ts := 0, vid := 1, pcp := 3, stream := 0xFFFF, tagged := false, rtag := false } }
    s.wf = true ∧ s.onWire port.val = some f ∧ f.origin = .switched ∧ ((s.lpe.all fun x => decide (x.1 < 8)) = true) := by
  decide +kernel

theorem meets_EthTransmit_4 :
    let dt : Nat := 0
    let b : State := State.reset
    let s : State := (let w : State := b.wr Reg.RTS_IMGBASE_LO 0 |>.wr Reg.RTS_IMGBASE_HI 0 |>.setF Fld.TRDP_WORKBASE_BASE 0 |>.setF Fld.RPL_STAGEBASE_BASE 0 |>.wr64 (Reg.FAB_RGN_BASE 0) 0; let v : State := w.wr (Reg.ETH_RCTL 1) 0x80000004 |>.wr64 (Reg.ETH_RCBASE 1) 0x2000; { v with eth := { v.eth with sending := tset [] 2 (some { bytes := List.replicate 60 5, since := 0, launch := none, tol := 10, tsTag := none, origin := .ring 1 6, rx := { inPort := 1, ts := 0, vid := 1, pcp := 3, stream := 0xFFFF, tagged := false, rtag := false } }) }, rings := tset v.rings (State.ringKey .eth 1) { pend := [⟨6, none⟩] } })
    let port : Fin 11 := 2
    let r : Nat := 1
    let d : Nat := 6
    let f : EthQ := { bytes := List.replicate 60 5, since := 0, launch := none, tol := 10, tsTag := none, origin := .ring 1 6, rx := { inPort := 1, ts := 0, vid := 1, pcp := 3, stream := 0xFFFF, tagged := false, rtag := false } }
    s.wf = true ∧ s.onWire port.val = some f ∧ f.origin = .ring r d ∧ f.late = 0 ∧ r < 18 ∧ (s.ring .eth r).pend = [⟨d,
      none⟩] ∧ ((s.lpe.all fun x => decide (x.1 < 8)) = true) ∧ regionOf (s.rd64 (ringRegs .eth r).cbase / 64 * 64 %
      0x10000000000 + (s.ring .eth r).cidx * 32) = some .ddr ∧ s.rangeCheck .d true (s.rd64 (ringRegs .eth r).cbase / 64 * 64
      % 0x10000000000 + (s.ring .eth r).cidx * 32) 32 = 0 := by
  decide +kernel

theorem meets_EthTransmit_5 :
    let dt : Nat := 0
    let b : State := State.reset
    let s : State := (let v : State := (b.setF Fld.STE_STATUS_STATE 0 |>.setF (Fld.STE_FAILMAP_UNITS 0x0A) 0 |>.setF (Fld.FAB_FWWR_MASK 0x0A) 1); { v with eth := { v.eth with queues := tset [] 19 [{ bytes := List.replicate 60 5, since := 0, launch := none, tol := 10, tsTag := none, origin := .switched, rx := { inPort := 1, ts := 0, vid := 1, pcp := 3, stream := 0xFFFF, tagged := false, rtag := false } }] }, time := { v.time with clock := 500000001 } })
    let port : Fin 11 := 2
    let queue : Fin 8 := 3
    s.wf = true ∧ (((s.ethQueue port.val queue.val).all fun f => decide (f.origin = .switched)) = true) := by
  decide +kernel

/-! EthRings -/

theorem meets_EthRings_0 :
    let dt : Nat := 0
    let b : State := State.reset
    let s : State := (let w : State := (b.wr Reg.RTS_IMGBASE_LO 0 |>.wr Reg.RTS_IMGBASE_HI 0 |>.setF Fld.TRDP_WORKBASE_BASE 0 |>.setF Fld.RPL_STAGEBASE_BASE 0 |>.wr64 (Reg.FAB_RGN_BASE 0) 0).setF Fld.STE_STATUS_STATE 0 |>.setF (Fld.STE_FAILMAP_UNITS 0x0A) 0 |>.wr (Reg.ETH_RCTL 1) 0x80000004 |>.wr64 (Reg.ETH_RBASE 1) 0x1000 |>.setB (Fld.ETH_PORTSTAT_LINKUP 2) true |>.setF (Fld.ETH_PORTCFG_STP 2) 3; let v : State := w.memPut 0x1000 (leBytes 8 0x3000 ++ leBytes 2 60 ++ [1, 2]); { v with rings := tset v.rings (State.ringKey .eth 1) { head := 0, tail := 3, cidx := 15, cphase := true } })
    let ring : Fin 18 := 1
    let ended : ReadEnd := .ok
    let d : List Byte := (s.headDesc .eth ring.val)
    let bs : List Byte := s.memRead 0x3000 60
    let p : Nat := 2
    let pcp : Nat := 1
    s.wf = true ∧ ring.val < 8 ∧ s.unitOff 0x0A 0 = false ∧ s.ringOn .eth ring.val = true ∧ s.ringWaiting .eth ring.val ≠ 0 ∧
      s.headRead .eth ring.val = 0 ∧ d = (s.headDesc .eth ring.val) ∧ (s.elapse dt).txRefused ring.val d = false ∧
      s.readStatus ended .d (Machine.ent d 0 5) (Machine.ent d 8 2) = 0 ∧ bs = s.memRead (Machine.ent d 0 5) (Machine.ent d 8
      2) ∧ (Machine.ent d 10 1).testBit 0 = true ∧ (Machine.ent d 10 1).testBit 1 = false ∧ (Machine.ent d 10 1).testBit 2 =
      false ∧ (Machine.ent d 10 1).testBit 3 = false ∧ (Machine.ent d 10 1).testBit 4 = false ∧ p = Machine.ent d 11 1 ∧ (pcp
      = (if beAt bs 12 2 = 0x8100 then beAt bs 14 2 / 8192 else ring.val)) ∧ s.linkUp p = true ∧ s.mayLeave p (padFrame bs) =
      true ∧ (s.ethQueue p pcp).length < 64 ∧ pcp < 8 ∧ (((List.range 8).map fun i => ((s.ethQueue p i).map fun x =>
      x.bytes.length).sum).sum + (padFrame bs).length ≤ 196608) ∧ ((s.lpe.all fun x => decide (x.1 < 8)) = true) := by
  decide +kernel

theorem meets_EthRings_1 :
    let dt : Nat := 0
    let b : State := State.reset
    let s : State := (let w : State := (b.wr Reg.RTS_IMGBASE_LO 0 |>.wr Reg.RTS_IMGBASE_HI 0 |>.setF Fld.TRDP_WORKBASE_BASE 0 |>.setF Fld.RPL_STAGEBASE_BASE 0 |>.wr64 (Reg.FAB_RGN_BASE 0) 0).setF Fld.STE_STATUS_STATE 0 |>.setF (Fld.STE_FAILMAP_UNITS 0x0A) 0 |>.wr (Reg.ETH_RCTL 9) 0x80000004 |>.wr64 (Reg.ETH_RBASE 9) 0x1000 |>.wr64 (Reg.ETH_RCBASE 9) 0x2000; let v : State := w.memPut 0x1000 (leBytes 8 0x3000 ++ leBytes 2 2048); { v with rings := tset v.rings (State.ringKey .eth 9) { head := 0, tail := 3, cidx := 15, cphase := true }, eth := { v.eth with queues := tset [] 65 [{ bytes := List.replicate 60 5, since := 0, launch := none, tol := 10, tsTag := none, origin := .switched, rx := { inPort := 1, ts := 0, vid := 1, pcp := 3, stream := 0xFFFF, tagged := false, rtag := false } }] } })
    let ring : Fin 18 := 9
    let f : EthQ := { bytes := List.replicate 60 5, since := 0, launch := none, tol := 10, tsTag := none, origin := .switched, rx := { inPort := 1, ts := 0, vid := 1, pcp := 3, stream := 0xFFFF, tagged := false, rtag := false } }
    let rest : List EthQ := []
    let d : List Byte := (s.headDesc .eth ring.val)
    let buf : Nat := 0x3000
    let n : Nat := 2048
    s.wf = true ∧ 8 ≤ ring.val ∧ ring.val < 16 ∧ s.unitOff 0x0A 0 = false ∧ tget s.eth.queues (64 + (ring.val - 8)) = f ::
      rest ∧ s.ringOn .eth ring.val = true ∧ s.ringWaiting .eth ring.val ≠ 0 ∧ s.headRead .eth ring.val = 0 ∧ d = (s.headDesc
      .eth ring.val) ∧ n = Machine.ent d 8 2 ∧ 128 ≤ n ∧ n ≤ 16384 ∧ f.bytes.length ≤ n ∧ f.bytes ≠ [] ∧ Machine.ent d 5 3 =
      0 ∧ Machine.ent d 10 6 = 0 ∧ buf = Machine.ent d 0 5 ∧ s.rangeCheck .d true buf f.bytes.length = 0 ∧ regionOf buf =
      some .ddr ∧ regionOf (s.rd64 (ringRegs .eth ring.val).cbase / 64 * 64 % 0x10000000000 + (s.ring .eth ring.val).cidx *
      32) = some .ddr ∧ s.rangeCheck .d true (s.rd64 (ringRegs .eth ring.val).cbase / 64 * 64 % 0x10000000000 + (s.ring .eth
      ring.val).cidx * 32) 32 = 0 ∧ ((s.lpe.all fun x => decide (x.1 < 8)) = true) := by
  decide +kernel

theorem meets_EthRings_2 :
    let dt : Nat := 0
    let b : State := State.reset
    let s : State := (b.setF Fld.STE_STATUS_STATE 0 |>.setF (Fld.STE_FAILMAP_UNITS 0x0A) 0 |>.setF (Fld.FAB_FWWR_MASK 0x0A) 1|>.wr (Reg.ETH_RCTL 1) 0x80000004)
    let req : Requester := ⟨.t, 0⟩
    let ring : Fin 18 := 1
    s.wf = true ∧ Lets s req (Reg.ETH_RCTL ring.val) ∧ s.ringOn .eth ring.val = true ∧ s.ringWaiting .eth ring.val = 0 ∧
      s.eth.queues = [] := by
  decide +kernel

/-! TrdpTelegrams -/

theorem meets_TrdpTelegrams_0 :
    let dt : Nat := 0
    let b : State := State.reset
    let s : State := (let v : State := (b.setF Fld.STE_STATUS_STATE 0).setF (Fld.STE_FAILMAP_UNITS 0x0B) 0 |>.setB (Fld.TRDP_ENTSTAT_ACTIVE 0) true; { v with eth := { v.eth with engine := tset [] 1 [{ bytes := [2, 0, 0, 0, 0, 1, 2, 0, 0, 0, 0, 2, 8, 0, 69, 0, 0, 76, 0, 0, 0, 0, 64, 17, 102, 159, 10, 0, 0, 2, 10, 0, 0, 1, 67, 72, 67, 72, 0, 56, 0, 0, 0, 0, 0, 9, 1, 0, 80, 100, 0, 0, 3, 232, 0, 0, 0, 0, 0, 0, 0, 0, 0, 0, 0, 8, 0, 0, 0, 0, 0, 0, 0, 0, 0, 0, 0, 0, 231, 101, 31, 124, 3, 3, 3, 3, 3, 3, 3, 3], since := 0, launch := none, tol := 0, tsTag := none, origin := .switched, rx := { inPort := 2, ts := 4000, vid := 1, pcp := 3, stream := 0xFFFF, tagged := false, rtag := false } }, { bytes := [2, 0, 0, 0, 0, 1, 2, 0, 0, 0, 0, 2, 8, 0, 69, 0, 0, 76, 0, 0, 0, 0, 64, 17, 102, 159, 10, 0, 0, 2, 10, 0, 0, 1, 67, 72, 67, 72, 0, 56, 0, 0, 0, 0, 0, 9, 1, 0, 80, 100, 0, 0, 3, 232, 0, 0, 0, 0, 0, 0, 0, 0, 0, 0, 0, 8, 0, 0, 0, 0, 0, 0, 0, 0, 0, 0, 0, 0, 231, 101, 31, 124, 3, 3, 3, 3, 3, 3, 3, 3], since := 0, launch := none, tol := 0, tsTag := none, origin := .switched, rx := { inPort := 2, ts := 4000, vid := 1, pcp := 3, stream := 0xFFFF, tagged := false, rtag := false } }] }, cats := tset v.cats 11 { inUse := true, count := 1, working := tset [] 0 ([5, 0, 0, 0] ++ leBytes 4 1000 ++ leBytes 8 0 ++ leBytes 2 8 ++ [0, 0, 0, 0, 0, 0, 1, 0, 0, 0] ++ beBytes 4 0x0A000001 ++ List.replicate 96 0) } })
    let host : Fin 2 := 1
    let f : EthQ := { bytes := [2, 0, 0, 0, 0, 1, 2, 0, 0, 0, 0, 2, 8, 0, 69, 0, 0, 76, 0, 0, 0, 0, 64, 17, 102, 159, 10, 0, 0, 2, 10, 0, 0, 1, 67, 72, 67, 72, 0, 56, 0, 0, 0, 0, 0, 9, 1, 0, 80, 100, 0, 0, 3, 232, 0, 0, 0, 0, 0, 0, 0, 0, 0, 0, 0, 8, 0, 0, 0, 0, 0, 0, 0, 0, 0, 0, 0, 0, 231, 101, 31, 124, 3, 3, 3, 3, 3, 3, 3, 3], since := 0, launch := none, tol := 0, tsTag := none, origin := .switched, rx := { inPort := 2, ts := 4000, vid := 1, pcp := 3, stream := 0xFFFF, tagged := false, rtag := false } }
    let rest : List EthQ := [{ bytes := [2, 0, 0, 0, 0, 1, 2, 0, 0, 0, 0, 2, 8, 0, 69, 0, 0, 76, 0, 0, 0, 0, 64, 17, 102, 159, 10, 0, 0, 2, 10, 0, 0, 1, 67, 72, 67, 72, 0, 56, 0, 0, 0, 0, 0, 9, 1, 0, 80, 100, 0, 0, 3, 232, 0, 0, 0, 0, 0, 0, 0, 0, 0, 0, 0, 8, 0, 0, 0, 0, 0, 0, 0, 0, 0, 0, 0, 0, 231, 101, 31, 124, 3, 3, 3, 3, 3, 3, 3, 3], since := 0, launch := none, tol := 0, tsTag := none, origin := .switched, rx := { inPort := 2, ts := 4000, vid := 1, pcp := 3, stream := 0xFFFF, tagged := false, rtag := false } }]
    let tel : Telegram := (telegramOf [2, 0, 0, 0, 0, 1, 2, 0, 0, 0, 0, 2, 8, 0, 69, 0, 0, 76, 0, 0, 0, 0, 64, 17, 102, 159, 10, 0, 0, 2, 10, 0, 0, 1, 67, 72, 67, 72, 0, 56, 0, 0, 0, 0, 0, 9, 1, 0, 80, 100, 0, 0, 3, 232, 0, 0, 0, 0, 0, 0, 0, 0, 0, 0, 0, 8, 0, 0, 0, 0, 0, 0, 0, 0, 0, 0, 0, 0, 231, 101, 31, 124, 3, 3, 3, 3, 3, 3, 3, 3]).getD { isPd := false, ipOk := false, headerOk := false, comId := 0, dstIp := 0, srcIp := 0, etbTopo := 0, opTopo := 0, seqCount := 0, dataset := [] }
    let i : Nat := 0
    let e : List Byte := s.catEntry .trdp 0
    s.wf = true ∧ s.unitOff 0x0B 0 = false ∧ tget s.eth.engine host.val = f :: rest ∧ telegramOf f.bytes = some tel ∧
      tel.isPd = true ∧ tel.ipOk = true ∧ tel.headerOk = true ∧ host = 1 ∧ s.trdpFind host.val tel.comId tel.dstIp = some i ∧
      e = s.catEntry .trdp i ∧ (Machine.ent e 8 4 = 0 ∨ Machine.ent e 8 4 = tel.etbTopo) ∧ (Machine.ent e 12 4 = 0 ∨
      Machine.ent e 12 4 = tel.opTopo) ∧ ((Machine.ent e 0 1).testBit 5 = false ∨ beAt e 32 4 = tel.srcIp) ∧
      tel.dataset.length = trdpDlen e ∧ (s.dataRec 0x0B i).seq ≠ some tel.seqCount := by
  decide +kernel

theorem meets_TrdpTelegrams_1 :
    let dt : Nat := 0
    let b : State := State.reset
    let s : State := (let v : State := (let v : State := (b.setF Fld.STE_STATUS_STATE 0).setF (Fld.STE_FAILMAP_UNITS 0x0B) 0 |>.setB (Fld.TRDP_ENTSTAT_ACTIVE 0) true; { v with eth := { v.eth with engine := tset [] 1 [{ bytes := [2, 0, 0, 0, 0, 1, 2, 0, 0, 0, 0, 2, 8, 0, 69, 0, 0, 76, 0, 0, 0, 0, 64, 17, 102, 159, 10, 0, 0, 2, 10, 0, 0, 1, 67, 72, 67, 72, 0, 56, 0, 0, 0, 0, 0, 9, 1, 0, 80, 100, 0, 0, 3, 232, 0, 0, 0, 0, 0, 0, 0, 0, 0, 0, 0, 8, 0, 0, 0, 0, 0, 0, 0, 0, 0, 0, 0, 0, 231, 101, 31, 124, 3, 3, 3, 3, 3, 3, 3, 3], since := 0, launch := none, tol := 0, tsTag := none, origin := .switched, rx := { inPort := 2, ts := 4000, vid := 1, pcp := 3, stream := 0xFFFF, tagged := false, rtag := false } }, { bytes := [2, 0, 0, 0, 0, 1, 2, 0, 0, 0, 0, 2, 8, 0, 69, 0, 0, 76, 0, 0, 0, 0, 64, 17, 102, 159, 10, 0, 0, 2, 10, 0, 0, 1, 67, 72, 67, 72, 0, 56, 0, 0, 0, 0, 0, 9, 1, 0, 80, 100, 0, 0, 3, 232, 0, 0, 0, 0, 0, 0, 0, 0, 0, 0, 0, 8, 0, 0, 0, 0, 0, 0, 0, 0, 0, 0, 0, 0, 231, 101, 31, 124, 3, 3, 3, 3, 3, 3, 3, 3], since := 0, launch := none, tol := 0, tsTag := none, origin := .switched, rx := { inPort := 2, ts := 4000, vid := 1, pcp := 3, stream := 0xFFFF, tagged := false, rtag := false } }] }, cats := tset v.cats 11 { inUse := true, count := 1, working := tset [] 0 ([5, 0, 0, 0] ++ leBytes 4 1000 ++ leBytes 8 0 ++ leBytes 2 8 ++ [0, 0, 0, 0, 0, 0, 1, 0, 0, 0] ++ beBytes 4 0x0A000001 ++ List.replicate 96 0) } }); { v with cats := [] })
    let host : Fin 2 := 1
    let f : EthQ := { bytes := [2, 0, 0, 0, 0, 1, 2, 0, 0, 0, 0, 2, 8, 0, 69, 0, 0, 76, 0, 0, 0, 0, 64, 17, 102, 159, 10, 0, 0, 2, 10, 0, 0, 1, 67, 72, 67, 72, 0, 56, 0, 0, 0, 0, 0, 9, 1, 0, 80, 100, 0, 0, 3, 232, 0, 0, 0, 0, 0, 0, 0, 0, 0, 0, 0, 8, 0, 0, 0, 0, 0, 0, 0, 0, 0, 0, 0, 0, 231, 101, 31, 124, 3, 3, 3, 3, 3, 3, 3, 3], since := 0, launch := none, tol := 0, tsTag := none, origin := .switched, rx := { inPort := 2, ts := 4000, vid := 1, pcp := 3, stream := 0xFFFF, tagged := false, rtag := false } }
    let rest : List EthQ := [{ bytes := [2, 0, 0, 0, 0, 1, 2, 0, 0, 0, 0, 2, 8, 0, 69, 0, 0, 76, 0, 0, 0, 0, 64, 17, 102, 159, 10, 0, 0, 2, 10, 0, 0, 1, 67, 72, 67, 72, 0, 56, 0, 0, 0, 0, 0, 9, 1, 0, 80, 100, 0, 0, 3, 232, 0, 0, 0, 0, 0, 0, 0, 0, 0, 0, 0, 8, 0, 0, 0, 0, 0, 0, 0, 0, 0, 0, 0, 0, 231, 101, 31, 124, 3, 3, 3, 3, 3, 3, 3, 3], since := 0, launch := none, tol := 0, tsTag := none, origin := .switched, rx := { inPort := 2, ts := 4000, vid := 1, pcp := 3, stream := 0xFFFF, tagged := false, rtag := false } }]
    let tel : Telegram := (telegramOf [2, 0, 0, 0, 0, 1, 2, 0, 0, 0, 0, 2, 8, 0, 69, 0, 0, 76, 0, 0, 0, 0, 64, 17, 102, 159, 10, 0, 0, 2, 10, 0, 0, 1, 67, 72, 67, 72, 0, 56, 0, 0, 0, 0, 0, 9, 1, 0, 80, 100, 0, 0, 3, 232, 0, 0, 0, 0, 0, 0, 0, 0, 0, 0, 0, 8, 0, 0, 0, 0, 0, 0, 0, 0, 0, 0, 0, 0, 231, 101, 31, 124, 3, 3, 3, 3, 3, 3, 3, 3]).getD { isPd := false, ipOk := false, headerOk := false, comId := 0, dstIp := 0, srcIp := 0, etbTopo := 0, opTopo := 0, seqCount := 0, dataset := [] }
    s.wf = true ∧ s.unitOff 0x0B 0 = false ∧ tget s.eth.engine host.val = f :: rest ∧ telegramOf f.bytes = some tel ∧
      tel.isPd = true ∧ tel.ipOk = true ∧ tel.headerOk = true ∧ s.trdpFind host.val tel.comId tel.dstIp = none := by
  decide +kernel

theorem meets_TrdpTelegrams_2 :
    let dt : Nat := 0
    let b : State := State.reset
    let s : State := (b.setF (Fld.FAB_FWWR_MASK 0x18) 1).setF Fld.STE_STATUS_STATE 0 |>.setF (Fld.STE_FAILMAP_UNITS 0x18) 0 |>.wr Reg.TRDP_INVGRP 0xE0000001 |>.wr Reg.INV_ANN_ID 5 |>.wr64 Reg.INV_ANN_MT 1000000000
    let req : Requester := ⟨.t, 0⟩
    let a : Announce := s.localAnnounce
    s.wf = true ∧ Lets s req Reg.INV_ANN_GO ∧ a = s.localAnnounce ∧ ((s.lpe.all fun x => decide (x.1 < 8)) = true) ∧ s.rd
      Reg.TRDP_INVGRP ≠ 0 ∧ a.snapId ≠ 0 ∧ a.instant % 250000 = 0 ∧ (s.elapse dt).time.mt + 500000 ≤ a.instant ∧ a.instant ≤
      (s.elapse dt).time.mt + 60000000000 ∧ ((s.inv.pending.all fun p => p.1 != a.snapId && p.2 != a.instant) = true) ∧
      s.inv.pending.length < 4 ∧ s.unitOff 0x18 0 = false := by
  decide +kernel

/-! SerialReceive -/

theorem meets_SerialReceive_0 :
    let dt : Nat := 0
    let b : State := State.reset
    let s : State := (let v : State := b.setF Fld.STE_STATUS_STATE 0 |>.setF (Fld.STE_FAILMAP_UNITS 0x0C) 0 |>.setF (Fld.STE_FAILMAP_UNITS 0x0D) 0 |>.setF (Fld.STE_FAILMAP_UNITS 0x0E) 0 |>.setB Fld.MVB_CFG_LINEEN_A true |>.setB Fld.MVB_CFG_LINEEN_B true |>.wr Reg.MVB_LINESTAT 0 |>.setB (serStat .mvb 0 0) true; { v with cats := tset v.cats 12 { inUse := true, count := 1, working := tset [] 0 ([1, 0, 0, 0, 0, 0] ++ leBytes 2 2 ++ leBytes 4 0x123 ++ leBytes 2 4 ++ List.replicate 50 0) } })
    let m : MvbInstant := { validA := true, validB := true, messageData := false, deviceStatus := false, port := 0x123, data := [7, 8], fifoFull := false }
    let i : Nat := 0
    s.wf = true ∧ s.serLive .mvb 0 = true ∧ s.bit Fld.MVB_CFG_LINEEN_A = true ∧ s.bit Fld.MVB_CFG_LINEEN_B = true ∧ m.validB
      = true ∧ m.messageData = false ∧ s.bit Fld.MVB_LINESTAT_FAULT_A = false ∧ s.bit Fld.MVB_LINESTAT_FAULT_B = false ∧
      (s.serFind .mvb (fun e => !m.messageData && !m.deviceStatus && Machine.ent e 8 4 % 4096 == m.port) = some i) ∧
      m.data.length = serDlen (s.catEntry .mvb i) ∧ s.getF Fld.MVB_LINESTAT_TRUSTED = 0 ∧ m.deviceStatus = false ∧ m.validA =
      true ∧ m.fifoFull = false := by
  decide +kernel

theorem meets_SerialReceive_1 :
    let dt : Nat := 0
    let b : State := State.reset
    let s : State := (b.setF Fld.STE_STATUS_STATE 0 |>.setF (Fld.STE_FAILMAP_UNITS 0x0C) 0 |>.setF (Fld.STE_FAILMAP_UNITS 0x0D) 0 |>.setF (Fld.STE_FAILMAP_UNITS 0x0E) 0 |>.setB Fld.MVB_CFG_LINEEN_A true |>.setB Fld.MVB_CFG_LINEEN_B true |>.wr Reg.MVB_LINESTAT 0 |>.setB (serStat .mvb 0 0) true)
    let m : MvbInstant := { validA := true, validB := true, messageData := false, deviceStatus := false, port := 0x123, data := [7, 8], fifoFull := true }
    s.wf = true ∧ s.serLive .mvb 0 = true ∧ s.bit Fld.MVB_CFG_LINEEN_A = true ∧ s.bit Fld.MVB_CFG_LINEEN_B = true ∧ m.validB
      = true ∧ m.messageData = false ∧ s.bit Fld.MVB_LINESTAT_FAULT_A = false ∧ s.bit Fld.MVB_LINESTAT_FAULT_B = false ∧
      s.getF Fld.MVB_LINESTAT_TRUSTED = 0 ∧ m.validA = true ∧ m.fifoFull = true := by
  decide +kernel

theorem meets_SerialReceive_2 :
    let dt : Nat := 0
    let b : State := State.reset
    let s : State := (let v : State := b.setF Fld.STE_STATUS_STATE 0 |>.setF (Fld.STE_FAILMAP_UNITS 0x0C) 0 |>.setF (Fld.STE_FAILMAP_UNITS 0x0D) 0 |>.setF (Fld.STE_FAILMAP_UNITS 0x0E) 0 |>.setB Fld.MVB_CFG_LINEEN_A true |>.setB Fld.MVB_CFG_LINEEN_B true |>.wr Reg.MVB_LINESTAT 0 |>.setB (serStat .mvb 0 0) true; { v with cats := tset v.cats 12 { inUse := true, count := 1, working := tset [] 0 ([1, 0, 0, 0, 0, 0] ++ leBytes 2 2 ++ leBytes 4 0x123 ++ leBytes 2 4 ++ List.replicate 50 0) } })
    let m : MvbInstant := { validA := false, validB := true, messageData := false, deviceStatus := false, port := 0x123, data := [7, 8], fifoFull := false }
    let i : Nat := 0
    s.wf = true ∧ s.serLive .mvb 0 = true ∧ s.bit Fld.MVB_CFG_LINEEN_A = true ∧ s.bit Fld.MVB_CFG_LINEEN_B = true ∧ m.validB
      = true ∧ m.messageData = false ∧ s.bit Fld.MVB_LINESTAT_FAULT_A = false ∧ s.bit Fld.MVB_LINESTAT_FAULT_B = false ∧
      (s.serFind .mvb (fun e => !m.messageData && !m.deviceStatus && Machine.ent e 8 4 % 4096 == m.port) = some i) ∧
      m.data.length = serDlen (s.catEntry .mvb i) ∧ s.getF Fld.MVB_LINESTAT_TRUSTED = 0 ∧ m.deviceStatus = false ∧ m.validA =
      false ∧ m.fifoFull = false ∧ tget s.bus.mvbBad 0 < 7 := by
  decide +kernel

theorem meets_SerialReceive_3 :
    let dt : Nat := 0
    let b : State := State.reset
    let s : State := (let v : State := b.setF Fld.STE_STATUS_STATE 0 |>.setF (Fld.STE_FAILMAP_UNITS 0x0C) 0 |>.setF (Fld.STE_FAILMAP_UNITS 0x0D) 0 |>.setF (Fld.STE_FAILMAP_UNITS 0x0E) 0 |>.setB (Fld.CAN_CTL_EN 2) true |>.wr (Reg.CAN_ERR 2) 0 |>.setB (serStat .can 0 0) true; { v with cats := tset v.cats 13 { inUse := true, count := 1, working := tset [] 0 ([1, 2, 0, 0, 0, 0] ++ leBytes 2 2 ++ leBytes 4 0x123 ++ leBytes 2 4 ++ List.replicate 50 0) } })
    let u : Fin 4 := 2
    let f : CanFrame := { ident := 0x123, ide := false, fdf := false, brs := false, fifoFull := false, data := [7, 8] }
    let i : Nat := 0
    s.wf = true ∧ s.serLive .can u.val = true ∧ (!f.fdf || s.bit (Fld.CAN_CTL_FD u.val)) = true ∧ s.getF (Fld.CAN_ERR_STATE
      u.val) = 0 ∧ s.getF (Fld.CAN_ERR_TEC u.val) < 128 ∧ s.getF (Fld.CAN_ERR_REC u.val) < 128 ∧ f.fifoFull = false ∧
      (s.serFind .can (fun e => serMatch .can e == (u.val, canKey (f.ident % 0x20000000 + 0x20000000 * b2n f.ide + 0x40000000
      * b2n f.fdf + 0x80000000 * b2n f.brs))) = some i) ∧ f.data.length = serDlen (s.catEntry .can i) := by
  decide +kernel

theorem meets_SerialReceive_4 :
    let dt : Nat := 0
    let b : State := State.reset
    let s : State := (b.setF Fld.STE_STATUS_STATE 0 |>.setF (Fld.STE_FAILMAP_UNITS 0x0C) 0 |>.setF (Fld.STE_FAILMAP_UNITS 0x0D) 0 |>.setF (Fld.STE_FAILMAP_UNITS 0x0E) 0 |>.setB (Fld.CAN_CTL_EN 2) true |>.wr (Reg.CAN_ERR 2) 0 |>.setB (serStat .can 0 0) true)
    let u : Fin 4 := 2
    let f : CanFrame := { ident := 0x123, ide := false, fdf := false, brs := false, fifoFull := true, data := [7, 8] }
    s.wf = true ∧ s.serLive .can u.val = true ∧ (!f.fdf || s.bit (Fld.CAN_CTL_FD u.val)) = true ∧ s.getF (Fld.CAN_ERR_STATE
      u.val) = 0 ∧ s.getF (Fld.CAN_ERR_TEC u.val) < 128 ∧ s.getF (Fld.CAN_ERR_REC u.val) < 128 ∧ f.fifoFull = true := by
  decide +kernel

theorem meets_SerialReceive_5 :
    let dt : Nat := 0
    let b : State := State.reset
    let s : State := (let v : State := b.setF Fld.STE_STATUS_STATE 0 |>.setF (Fld.STE_FAILMAP_UNITS 0x0C) 0 |>.setF (Fld.STE_FAILMAP_UNITS 0x0D) 0 |>.setF (Fld.STE_FAILMAP_UNITS 0x0E) 0 |>.setB (Fld.SER_CFG_EN 2) true |>.setB (serStat .ser 0 0) true; { v with cats := tset v.cats 14 { inUse := true, count := 1, working := tset [] 0 ([1, 2, 0, 0, 0, 0] ++ leBytes 2 2 ++ [7, 0xFF, 0, 0] ++ leBytes 2 4 ++ List.replicate 50 0) } })
    let u : Fin 4 := 2
    let f : SerFrame := { errorFree := true, fifoFull := false, data := [7, 8] }
    let i : Nat := 0
    s.wf = true ∧ s.serLive .ser u.val = true ∧ ((s.bit (Fld.SER_CFG_FULLDUP u.val) || (!s.serBusy .ser u.val && decide (tget
      s.bus.driven u.val ≤ (s.elapse dt).time.clock - (if s.bit (Fld.SER_CFG_HDLC u.val) || decide (f.data.length = 64) then
      0 else s.serGapNs u.val)))) = true) ∧ f.fifoFull = false ∧ f.errorFree = true ∧ s.serFind .ser (State.serHit u.val
      f.data) = some i ∧ f.data.length = serDlen (s.catEntry .ser i) ∧ f.data.length ≤ 64 := by
  decide +kernel

theorem meets_SerialReceive_6 :
    let dt : Nat := 0
    let b : State := State.reset
    let s : State := (b.setF Fld.STE_STATUS_STATE 0 |>.setF (Fld.STE_FAILMAP_UNITS 0x0C) 0 |>.setF (Fld.STE_FAILMAP_UNITS 0x0D) 0 |>.setF (Fld.STE_FAILMAP_UNITS 0x0E) 0 |>.setB (Fld.SER_CFG_EN 2) true |>.setB (serStat .ser 0 0) true)
    let u : Fin 4 := 2
    let f : SerFrame := { errorFree := false, fifoFull := false, data := [7, 8] }
    s.wf = true ∧ s.serLive .ser u.val = true ∧ (s.bit (Fld.SER_CFG_FULLDUP u.val) || (!s.serBusy .ser u.val && decide (tget
      s.bus.driven u.val ≤ (s.elapse dt).time.clock - s.serAgo u.val f.data))) = true ∧ f.fifoFull = false ∧ f.errorFree =
      false := by
  decide +kernel

theorem meets_SerialReceive_7 :
    let dt : Nat := 0
    let b : State := State.reset
    let s : State := (b.setF Fld.STE_STATUS_STATE 0 |>.setF (Fld.STE_FAILMAP_UNITS 0x0C) 0 |>.setF (Fld.STE_FAILMAP_UNITS 0x0D) 0 |>.setF (Fld.STE_FAILMAP_UNITS 0x0E) 0 |>.setB (Fld.SER_CFG_EN 2) true |>.setB (serStat .ser 0 0) true)
    let u : Fin 4 := 2
    let f : SerFrame := { errorFree := true, fifoFull := true, data := [7, 8] }
    s.wf = true ∧ s.serLive .ser u.val = true ∧ (s.bit (Fld.SER_CFG_FULLDUP u.val) || (!s.serBusy .ser u.val && decide (tget
      s.bus.driven u.val ≤ (s.elapse dt).time.clock - s.serAgo u.val f.data))) = true ∧ f.fifoFull = true ∧ PortRoom s 0x0E
      := by
  decide +kernel

theorem meets_SerialReceive_8 :
    let dt : Nat := 0
    let b : State := State.reset
    let s : State := (let v : State := b.setF Fld.STE_STATUS_STATE 0 |>.setF (Fld.STE_FAILMAP_UNITS 0x0C) 0 |>.setF (Fld.STE_FAILMAP_UNITS 0x0D) 0 |>.setF (Fld.STE_FAILMAP_UNITS 0x0E) 0 |>.setB (Fld.SER_CFG_EN 2) true |>.setB (serStat .ser 0 0) true |>.setB (Fld.SER_CFG_FULLDUP 2) false; { v with bus := { v.bus with queue := [{ blk := 0x0E, unit := 2, entry := some 0, desc := 0, data := [1], ident := 0, launch := 0, cust := false, started := true }] } })
    let u : Fin 4 := 2
    let f : SerFrame := { errorFree := true, fifoFull := false, data := [7, 8] }
    s.wf = true ∧ s.serLive .ser u.val = true ∧ s.bit (Fld.SER_CFG_FULLDUP u.val) = false ∧ s.serBusy .ser u.val = true := by
  decide +kernel

theorem meets_SerialReceive_9 :
    let dt : Nat := 0
    let b : State := State.reset
    let s : State := (b.setF Fld.STE_STATUS_STATE 0 |>.setF (Fld.STE_FAILMAP_UNITS 0x0C) 0 |>.setF (Fld.STE_FAILMAP_UNITS 0x0D) 0 |>.setF (Fld.STE_FAILMAP_UNITS 0x0E) 0 |>.setB (Fld.SER_CFG_EN 2) true |>.setB (serStat .ser 0 0) true)
    let u : Fin 4 := 2
    s.wf = true ∧ s.serLive .ser u.val = true ∧ PortRoom s 0x0E := by
  decide +kernel

/-! SerialTransmit -/

theorem meets_SerialTransmit_0 :
    let dt : Nat := 0
    let b : State := State.reset
    let s : State := (let v : State := b.setF Fld.STE_STATUS_STATE 0 |>.setF (Fld.STE_FAILMAP_UNITS 0x0C) 0 |>.setF (Fld.STE_FAILMAP_UNITS 0x0D) 0 |>.setF (Fld.STE_FAILMAP_UNITS 0x0E) 0 |>.setB Fld.MVB_CFG_LINEEN_A true |>.setB Fld.MVB_CFG_LINEEN_B true |>.wr Reg.MVB_LINESTAT 0 |>.setB (serStat .mvb 0 0) true; { v with cats := tset v.cats 12 { inUse := true, count := 1, working := tset [] 0 ([3, 0, 0, 0, 0, 0] ++ leBytes 2 2 ++ leBytes 4 0x123 ++ leBytes 2 4 ++ List.replicate 50 0) }, bus := { v.bus with recs := tset [] (recKey 0x0C 0) { relSeq := some 1 } } })
    let port : Nat := 0x123
    let i : Nat := 0
    s.wf = true ∧ s.serLive .mvb 0 = true ∧ (((List.range (s.cat .mvb).count).find? fun i => s.serUse .mvb i && serTx
      (s.catEntry .mvb i) && Machine.ent (s.catEntry .mvb i) 8 4 % 4096 == port && (s.dataRec (serIdx .mvb) i).relSeq.isSome)
      = some i) ∧ ((Machine.ent (s.catEntry .mvb i) 0 1).testBit 3 = false ∨ s.serves = true) := by
  decide +kernel

theorem meets_SerialTransmit_1 :
    let dt : Nat := 0
    let b : State := State.reset
    let s : State := (let v : State := b.setF Fld.STE_STATUS_STATE 0 |>.setF (Fld.STE_FAILMAP_UNITS 0x0C) 0 |>.setF (Fld.STE_FAILMAP_UNITS 0x0D) 0 |>.setF (Fld.STE_FAILMAP_UNITS 0x0E) 0 |>.setB Fld.MVB_CFG_LINEEN_A true |>.setB Fld.MVB_CFG_LINEEN_B true |>.wr Reg.MVB_LINESTAT 0 |>.setB (serStat .mvb 0 0) true |>.setB Fld.RPL_STATUS_ENABLE false; { v with cats := tset v.cats 12 { inUse := true, count := 1, working := tset [] 0 ([11, 0, 0, 0, 0, 0] ++ leBytes 2 2 ++ leBytes 4 0x123 ++ leBytes 2 4 ++ List.replicate 50 0) }, bus := { v.bus with recs := tset [] (recKey 0x0C 0) { relSeq := some 1 } } })
    let port : Nat := 0x123
    let i : Nat := 0
    s.wf = true ∧ s.serLive .mvb 0 = true ∧ (((List.range (s.cat .mvb).count).find? fun i => s.serUse .mvb i && serTx
      (s.catEntry .mvb i) && Machine.ent (s.catEntry .mvb i) 8 4 % 4096 == port && (s.dataRec (serIdx .mvb) i).relSeq.isSome)
      = some i) ∧ (Machine.ent (s.catEntry .mvb i) 0 1).testBit 3 = true ∧ s.serves = false := by
  decide +kernel

theorem meets_SerialTransmit_2 :
    let dt : Nat := 0
    let b : State := State.reset
    let s : State := (b.setF Fld.STE_STATUS_STATE 0 |>.setF (Fld.STE_FAILMAP_UNITS 0x0C) 0 |>.setF (Fld.STE_FAILMAP_UNITS 0x0D) 0 |>.setF (Fld.STE_FAILMAP_UNITS 0x0E) 0 |>.setB Fld.MVB_CFG_LINEEN_A true |>.setB Fld.MVB_CFG_LINEEN_B true |>.wr Reg.MVB_LINESTAT 0 |>.setB (serStat .mvb 0 0) true)
    let addr : Nat := s.getF Fld.MVB_CFG_DEVADDR
    s.wf = true ∧ s.serLive .mvb 0 = true ∧ addr = s.getF Fld.MVB_CFG_DEVADDR := by
  decide +kernel

theorem meets_SerialTransmit_3 :
    let dt : Nat := 0
    let b : State := State.reset
    let s : State := (let v : State := b.setF Fld.STE_STATUS_STATE 0 |>.setF (Fld.STE_FAILMAP_UNITS 0x0C) 0 |>.setF (Fld.STE_FAILMAP_UNITS 0x0D) 0 |>.setF (Fld.STE_FAILMAP_UNITS 0x0E) 0 |>.setB (Fld.SER_CFG_EN 2) true |>.setB (serStat .ser 0 0) true; { v with bus := { v.bus with idleFrom := [], queue := [{ blk := 0x0E, unit := 2, entry := some 0, desc := 0, data := [1], ident := 0, launch := 0, cust := false, started := false }] }, time := { v.time with clock := 1000000000 } })
    let blk : SerBlk := .ser
    let who : SerWho := .entry 0
    let x : SerTx := { blk := 0x0E, unit := 2, entry := some 0, desc := 0, data := [1], ident := 0, launch := 0, cust := false, started := false }
    s.wf = true ∧ (s.elapse dt).serLaunch blk who = some x ∧ s.serMay blk x.unit = true ∧ s.serBusy blk x.unit = false ∧
      (s.elapse dt).serQuiet blk x.unit = true ∧ s.canFdOk blk x.unit x.ident = true := by
  decide +kernel

theorem meets_SerialTransmit_4 :
    let dt : Nat := 0
    let b : State := State.reset
    let s : State := (let v : State := b.setF Fld.STE_STATUS_STATE 0 |>.setF (Fld.STE_FAILMAP_UNITS 0x0C) 0 |>.setF (Fld.STE_FAILMAP_UNITS 0x0D) 0 |>.setF (Fld.STE_FAILMAP_UNITS 0x0E) 0 |>.setB (Fld.CAN_CTL_EN 2) true |>.wr (Reg.CAN_ERR 2) 0 |>.setB (serStat .can 0 0) true |>.setB (Fld.CAN_CTL_LISTEN 2) false |>.setF (Fld.CAN_ERR_TEC 2) 8; { v with bus := { v.bus with queue := [{ blk := 0x0D, unit := 2, entry := some 0, desc := 0, data := [1], ident := 0, launch := 0, cust := false, started := true }] } })
    let blk : SerBlk := .can
    let u : Fin 4 := 2
    let x : SerTx := { blk := 0x0D, unit := 2, entry := some 0, desc := 0, data := [1], ident := 0, launch := 0, cust := false, started := true }
    s.wf = true ∧ (s.elapse dt).serNext blk u.val = some x ∧ s.serMay blk u.val = true ∧ x.entry.isSome = true ∧ (blk = .can
      → s.getF (Fld.CAN_ERR_TEC u.val) < 128 ∧ s.getF (Fld.CAN_ERR_REC u.val) < 128 ∧ s.getF (Fld.CAN_ERR_STATE u.val) = 0)
      := by
  decide +kernel

theorem meets_SerialTransmit_5 :
    let dt : Nat := 0
    let b : State := State.reset
    let s : State := (let v : State := b.setF Fld.STE_STATUS_STATE 0 |>.setF (Fld.STE_FAILMAP_UNITS 0x0C) 0 |>.setF (Fld.STE_FAILMAP_UNITS 0x0D) 0 |>.setF (Fld.STE_FAILMAP_UNITS 0x0E) 0 |>.setB (Fld.SER_CFG_EN 2) true |>.setB (serStat .ser 0 0) true; { v with bus := { v.bus with queue := [{ blk := 0x0E, unit := 2, entry := some 0, desc := 0, data := [1], ident := 0, launch := 0, cust := false, started := false }] }, time := { v.time with mt := 1000000 } })
    let u : Fin 4 := 2
    s.wf = true := by
  decide +kernel

theorem meets_SerialTransmit_6 :
    let dt : Nat := 0
    let b : State := State.reset
    let s : State := (b.setF Fld.STE_STATUS_STATE 0 |>.setF (Fld.STE_FAILMAP_UNITS 0x0C) 0 |>.setF (Fld.STE_FAILMAP_UNITS 0x0D) 0 |>.setF (Fld.STE_FAILMAP_UNITS 0x0E) 0 |>.setB (Fld.CAN_CTL_EN 2) true |>.wr (Reg.CAN_ERR 2) 0 |>.setB (serStat .can 0 0) true |>.setF (Fld.CAN_ERR_TEC 2) 250)
    let u : Fin 4 := 2
    let role : CanErr := .transmitter
    let more : Nat := 0
    let tec : Nat := (s.getF (Fld.CAN_ERR_TEC u.val) + (if role = .transmitter then 8 else 0) + (if role = .receiver then 0 else 8 * more))
    let rxe : Nat := (s.getF (Fld.CAN_ERR_REC u.val) + (if role = .receiver then 1 + 8 * more else 0))
    s.wf = true ∧ s.serLive .can u.val = true ∧ (tec = (s.getF (Fld.CAN_ERR_TEC u.val) + (if role = .transmitter then 8 else
      0) + (if role = .receiver then 0 else 8 * more))) ∧ (rxe = (s.getF (Fld.CAN_ERR_REC u.val) + (if role = .receiver then
      1 + 8 * more else 0))) ∧ 255 < tec ∧ PortRoom s 0x0D ∧ ((s.bus.queue.all fun x => x.blk != serIdx .can || x.unit !=
      u.val) = true) := by
  decide +kernel

theorem meets_SerialTransmit_7 :
    let dt : Nat := 0
    let b : State := State.reset
    let s : State := (b.setF Fld.STE_STATUS_STATE 0 |>.setF (Fld.STE_FAILMAP_UNITS 0x0C) 0 |>.setF (Fld.STE_FAILMAP_UNITS 0x0D) 0 |>.setF (Fld.STE_FAILMAP_UNITS 0x0E) 0 |>.setB (Fld.CAN_CTL_EN 2) true |>.wr (Reg.CAN_ERR 2) 0 |>.setB (serStat .can 0 0) true)
    let u : Fin 4 := 2
    let role : CanErr := .transmitter
    let more : Nat := 1
    let tec : Nat := (s.getF (Fld.CAN_ERR_TEC u.val) + (if role = .transmitter then 8 else 0) + (if role = .receiver then 0 else 8 * more))
    let rxe : Nat := (s.getF (Fld.CAN_ERR_REC u.val) + (if role = .receiver then 1 + 8 * more else 0))
    s.wf = true ∧ s.serLive .can u.val = true ∧ (tec = (s.getF (Fld.CAN_ERR_TEC u.val) + (if role = .transmitter then 8 else
      0) + (if role = .receiver then 0 else 8 * more))) ∧ (rxe = (s.getF (Fld.CAN_ERR_REC u.val) + (if role = .receiver then
      1 + 8 * more else 0))) ∧ tec < 128 ∧ rxe < 128 := by
  decide +kernel

theorem meets_SerialTransmit_8 :
    let dt : Nat := 0
    let b : State := State.reset
    let s : State := (b.setF Fld.STE_STATUS_STATE 0 |>.setF (Fld.STE_FAILMAP_UNITS 0x0C) 0 |>.setF (Fld.STE_FAILMAP_UNITS 0x0D) 0 |>.setF (Fld.STE_FAILMAP_UNITS 0x0E) 0 |>.setB (Fld.CAN_CTL_EN 2) true |>.wr (Reg.CAN_ERR 2) 0 |>.setB (serStat .can 0 0) true |>.setF (Fld.CAN_ERR_STATE 2) 2 |>.setB (Fld.CAN_CTL_AUTOREC 2) true)
    let u : Fin 4 := 2
    s.wf = true ∧ s.busOff .can u.val = true ∧ s.bit (Fld.CAN_CTL_AUTOREC u.val) = true ∧ s.serOn .can u.val = true := by
  decide +kernel

/-! CascadeLinks -/

theorem meets_CascadeLinks_0 :
    let dt : Nat := 0
    let b : State := State.reset
    let s : State := (b.setF Fld.STE_STATUS_STATE 0 |>.setF (Fld.STE_FAILMAP_UNITS 0x11) 0|>.setF Fld.CSC_CTL_EN_DOWN 1 |>.setF Fld.SYS_PLUG_POS 2 |>.setF Fld.CSC_STATUS_DNSTATE 1)
    let d : Fin 2 := 1
    let n : Nat := 5
    let w : Nat := 2
    let gen : Nat := 4
    let reach : BitVec 8 := 0x40
    s.wf = true ∧ s.portOn d.val = true ∧ s.unitOff 0x11 0 = false ∧ s.linkState d.val ≠ 2 ∧ (if d = 0 then n < s.stackPos
      else s.stackPos < n) ∧ n < 8 ∧ w < 16 ∧ gen < 8 ∧ PortRoom s 0x11 ∧ ((s.pops.all fun x => x.2.waiting.isEmpty) = true)
      := by
  decide +kernel

theorem meets_CascadeLinks_1 :
    let dt : Nat := 0
    let b : State := State.reset
    let s : State := (b.setF Fld.STE_STATUS_STATE 0 |>.setF (Fld.STE_FAILMAP_UNITS 0x11) 0|>.setF Fld.CSC_STATUS_DNSTATE 2)
    let d : Fin 2 := 1
    let reach : BitVec 8 := 0x60
    s.wf = true ∧ s.linkState d.val = 2 := by
  decide +kernel

theorem meets_CascadeLinks_2 :
    let dt : Nat := 0
    let b : State := State.reset
    let s : State := (b.setF Fld.STE_STATUS_STATE 0 |>.setF (Fld.STE_FAILMAP_UNITS 0x11) 0|>.setF Fld.CSC_CTL_EN_DOWN 1 |>.setF Fld.CSC_STATUS_DNSTATE 0)
    let d : Fin 2 := 1
    s.wf = true ∧ s.portOn d.val = true ∧ s.unitOff 0x11 0 = false ∧ s.linkState d.val ≠ 2 := by
  decide +kernel

theorem meets_CascadeLinks_3 :
    let dt : Nat := 0
    let b : State := State.reset
    let s : State := (b.setF Fld.STE_STATUS_STATE 0 |>.setF (Fld.STE_FAILMAP_UNITS 0x11) 0|>.setF Fld.CSC_STATUS_DNSTATE 2)
    let d : Fin 2 := 1
    s.wf = true ∧ s.linkState d.val = 2 ∧ s.csc.tags = [] ∧ s.csc.readQ = [] ∧ s.csc.amoQ = [] ∧ PortRoom s 0x11 ∧
      ((s.pops.all fun x => x.2.waiting.isEmpty) = true) := by
  decide +kernel

theorem meets_CascadeLinks_4 :
    let dt : Nat := 0
    let b : State := State.reset
    let s : State := (b.setF Fld.STE_STATUS_STATE 0 |>.setF (Fld.STE_FAILMAP_UNITS 0x11) 0|>.setF Fld.CSC_STATUS_UPSTATE 2)
    let vec : BitVec 8 := 0x2C
    s.wf = true ∧ s.heard 0 = true := by
  decide +kernel

theorem meets_CascadeLinks_5 :
    let dt : Nat := 0
    let b : State := State.reset
    let s : State := (b.setF Fld.STE_STATUS_STATE 0 |>.setF (Fld.STE_FAILMAP_UNITS 0x11) 0|>.setB Fld.CSC_STATUS_MEMBER true|>.setF Fld.CSC_STATUS_UPSTATE 2)
    let instant : Nat := 999999999
    s.wf = true ∧ s.measMember = true ∧ s.heard 0 = true ∧ (s.elapse dt).time.mt + 2000 ≤ instant := by
  decide +kernel

theorem meets_CascadeLinks_6 :
    let dt : Nat := 0
    let b : State := State.reset
    let s : State := (b.setF Fld.STE_STATUS_STATE 0).setF (Fld.STE_FAILMAP_UNITS 0x18) 0 |>.setB Fld.CSC_STATUS_MASTER false |>.setF (Fld.STE_FAILMAP_UNITS 0x11) 0 |>.setF Fld.CSC_STATUS_UPSTATE 2
    let a : Announce := ⟨1, 5, (s.elapse dt).time.mt / 250000 * 250000 + 1000000, 3⟩
    s.wf = true ∧ a.version = 1 ∧ a.snapId ≠ 0 ∧ a.instant % 250000 = 0 ∧ (s.elapse dt).time.mt + 500000 ≤ a.instant ∧
      a.instant ≤ (s.elapse dt).time.mt + 60000000000 ∧ ((s.inv.pending.all fun p => p.1 != a.snapId && p.2 != a.instant) =
      true) ∧ s.inv.pending.length < 4 ∧ s.unitOff 0x18 0 = false ∧ s.heard 0 = true ∧ s.bit Fld.CSC_STATUS_MASTER = false :=
      by
  decide +kernel

theorem meets_CascadeLinks_7 :
    let dt : Nat := 0
    let b : State := State.reset
    let s : State := (b.setF Fld.STE_STATUS_STATE 0 |>.setF (Fld.STE_FAILMAP_UNITS 0x11) 0|>.setF Fld.CSC_STATUS_DNSTATE 2)
    let d : Fin 2 := 1
    let consumed : List Nat := (List.range 6).map fun k => s.rd64 (Reg.CSC_CREDRET 1 k) + s.rd64 (Reg.CSC_CREDHELD 1 k)
    s.wf = true ∧ s.heard d.val = true ∧ (((List.range 6).all fun k => consumed.getD k 0 == s.rd64 (Reg.CSC_CREDRET d.val k)
      + s.rd64 (Reg.CSC_CREDHELD d.val k)) = true) := by
  decide +kernel

theorem meets_CascadeLinks_8 :
    let dt : Nat := 0
    let b : State := State.reset
    let s : State := (b.setF Fld.STE_STATUS_STATE 0 |>.setF (Fld.STE_FAILMAP_UNITS 0x11) 0|>.setF Fld.CSC_STATUS_DNSTATE 2 |>.wr64 (Reg.CSC_CREDRET 1 2) 5 |>.wr64 (Reg.CSC_CREDRET 1 3) 0 |>.wr64 (Reg.CSC_CREDHELD 1 2) 0)
    let d : Fin 2 := 1
    let consumed : List Nat := []
    let bad : List Nat := (List.range 6).filter fun k => consumed.getD k 0 != s.rd64 (Reg.CSC_CREDRET d.val k) + s.rd64 (Reg.CSC_CREDHELD d.val k)
    let k : Nat := bad.headD 0
    let rest : List Nat := bad.drop 1
    s.wf = true ∧ s.heard d.val = true ∧ ((s.pops.all fun x => x.2.waiting.isEmpty) = true) ∧ (bad = (List.range 6).filter
      fun k => consumed.getD k 0 != s.rd64 (Reg.CSC_CREDRET d.val k) + s.rd64 (Reg.CSC_CREDHELD d.val k)) ∧ bad = k :: rest ∧
      s.csc.tags = [] ∧ s.csc.readQ = [] ∧ s.csc.amoQ = [] ∧ (tget s.arc.ports 0x11).length < 31 := by
  decide +kernel

/-! CascadeTransactions -/

theorem meets_CascadeTransactions_0 :
    let dt : Nat := 0
    let b : State := State.reset
    let s : State := (let w : State := b.wr Reg.RTS_IMGBASE_LO 0 |>.wr Reg.RTS_IMGBASE_HI 0 |>.setF Fld.TRDP_WORKBASE_BASE 0 |>.setF Fld.RPL_STAGEBASE_BASE 0 |>.wr64 (Reg.FAB_RGN_BASE 0) 0; let v : State := w.setF Fld.STE_STATUS_STATE 0 |>.setF (Fld.STE_FAILMAP_UNITS 0x11) 0 |>.setF Fld.CSC_STATUS_DNSTATE 2; v)
    let d : Fin 2 := 1
    let a : Nat := 0x1000
    let x : CscTxn := { pos := 3, write := true, amo := false, amoOp := 0, offset := 0x1000, size := 4, bytes := [1, 2, 3] }
    s.wf = true ∧ s.linkState d.val = 2 ∧ s.unitOff 0x11 0 = false ∧ s.csc.lockBy = none ∧ x.mailbox = none ∧ x.write = true
      ∧ windowRange x.offset x.bytes.length = some a ∧ regionOf a = some .ddr ∧ s.rangeCheck .x true a x.bytes.length = 0 ∧
      ((s.lpe.all fun x => decide (x.1 < 8)) = true) := by
  decide +kernel

theorem meets_CascadeTransactions_1 :
    let dt : Nat := 0
    let b : State := State.reset
    let s : State := (let w : State := b.wr Reg.RTS_IMGBASE_LO 0 |>.wr Reg.RTS_IMGBASE_HI 0 |>.setF Fld.TRDP_WORKBASE_BASE 0 |>.setF Fld.RPL_STAGEBASE_BASE 0 |>.wr64 (Reg.FAB_RGN_BASE 0) 0; let v : State := w.setF Fld.STE_STATUS_STATE 0 |>.setF (Fld.STE_FAILMAP_UNITS 0x11) 0 |>.setF Fld.CSC_STATUS_DNSTATE 2 |>.memPut 0x1000 [5, 6, 7, 8]; v)
    let d : Fin 2 := 1
    let a : Nat := 0x1000
    let x : CscTxn := { pos := 3, write := false, amo := false, amoOp := 0, offset := 0x1000, size := 4, bytes := [1, 2, 3] }
    s.wf = true ∧ s.linkState d.val = 2 ∧ s.unitOff 0x11 0 = false ∧ s.csc.lockBy = none ∧ x.mailbox = none ∧ x.write = false
      ∧ x.amo = false ∧ windowRange x.offset x.size = some a ∧ a + x.size < 0x400000000 ∧ s.rangeCheck .x false a x.size = 0
      ∧ ((s.lpe.all fun x => decide (x.1 < 8)) = true) := by
  decide +kernel

theorem meets_CascadeTransactions_2 :
    let dt : Nat := 0
    let b : State := State.reset
    let s : State := (let w : State := b.wr Reg.RTS_IMGBASE_LO 0 |>.wr Reg.RTS_IMGBASE_HI 0 |>.setF Fld.TRDP_WORKBASE_BASE 0 |>.setF Fld.RPL_STAGEBASE_BASE 0 |>.wr64 (Reg.FAB_RGN_BASE 0) 0; let v : State := w.setF Fld.STE_STATUS_STATE 0 |>.setF (Fld.STE_FAILMAP_UNITS 0x11) 0 |>.setF Fld.CSC_STATUS_DNSTATE 2 |>.memPut 0x1000 [5, 6, 7, 8]; { v with csc := { v.csc with lockBy := some (3, v.time.clock), amoDone := false } })
    let d : Fin 2 := 1
    let a : Nat := 0x1000
    let at_ : Nat := s.time.clock
    let x : CscTxn := { pos := 3, write := false, amo := true, amoOp := 1, offset := 0x1000, size := 4, bytes := [1, 2, 3, 4] }
    s.wf = true ∧ s.heard d.val = true ∧ s.csc.lockBy = some (x.pos, at_) ∧ (s.elapse dt).time.clock < at_ + 2000 ∧
      s.csc.amoDone = false ∧ x.mailbox = none ∧ x.write = false ∧ x.amo = true ∧ x.size = 4 ∧ windowRange x.offset 4 = some
      a ∧ regionOf a = some .ddr ∧ s.strictPage a = false ∧ s.rangeCheck .x false a 4 = 0 ∧ s.rangeCheck .x true a 4 = 0 ∧
      ((s.lpe.all fun x => decide (x.1 < 8)) = true) := by
  decide +kernel

theorem meets_CascadeTransactions_3 :
    let dt : Nat := 0
    let b : State := State.reset
    let s : State := (b.setF Fld.STE_STATUS_STATE 0 |>.setF (Fld.STE_FAILMAP_UNITS 0x11) 0|>.setF Fld.CSC_STATUS_DNSTATE 2)
    let d : Fin 2 := 1
    let box : Nat := 8
    let msg : Nat := 77
    let x : CscTxn := { pos := 3, write := true, amo := false, amoOp := 0, offset := 0x1000, size := 4, bytes := [1, 2, 3], mailbox := some (box, msg) }
    s.wf = true ∧ s.heard d.val = true ∧ s.csc.lockBy = none ∧ x.write = true ∧ x.mailbox = some (box, msg) ∧ box ≤ 8 ∧
      ((s.lpe.all fun x => decide (x.1 < 8)) = true) := by
  decide +kernel

theorem meets_CascadeTransactions_4 :
    let dt : Nat := 0
    let b : State := State.reset
    let s : State := (let v : State := (b.setF Fld.STE_STATUS_STATE 0 |>.setF (Fld.STE_FAILMAP_UNITS 0x11) 0|>.setF Fld.CSC_STATUS_DNSTATE 2); { v with csc := { v.csc with lockBy := some (5, b.time.clock) } })
    let d : Fin 2 := 1
    let h : Nat := 5
    let at_ : Nat := s.time.clock
    let x : CscTxn := { pos := 3, write := false, amo := false, amoOp := 0, offset := 0x1000, size := 4, bytes := [1, 2, 3] }
    s.wf = true ∧ s.heard d.val = true ∧ s.csc.lockBy = some (h, at_) ∧ ((s.elapse dt).time.clock < at_ + 2000 ∨
      s.csc.amoDone = true) ∧ x.pos ≠ h ∧ x.write = false ∧ x.amo = false := by
  decide +kernel

theorem meets_CascadeTransactions_5 :
    let dt : Nat := 0
    let b : State := State.reset
    let s : State := (let v : State := (b.setF Fld.STE_STATUS_STATE 0 |>.setF (Fld.STE_FAILMAP_UNITS 0x11) 0|>.setF Fld.CSC_STATUS_DNSTATE 2); { v with csc := { v.csc with tags := [⟨⟨1, ⟨.d, 0⟩, false, 0, 8⟩, 9, 0⟩] } })
    let d : Fin 2 := 1
    let tag : Nat := 9
    let data : List Byte := [5, 6]
    let x : CscTag := ⟨⟨1, ⟨.d, 0⟩, false, 0, 8⟩, 9, 0⟩
    s.wf = true ∧ s.heard d.val = true ∧ (s.csc.tags.find? (fun y => y.ask.port == d.val && y.tag == tag) = some x) ∧
      x.ask.amo = false ∧ State.gathers x.ask.req = false ∧ x.ask.req.cls ≠ .c ∧ s.csc.readQ = [] ∧ ((s.lpe.all fun x =>
      decide (x.1 < 8)) = true) := by
  decide +kernel

theorem meets_CascadeTransactions_6 :
    let dt : Nat := 0
    let b : State := State.reset
    let s : State := (let v : State := (b.setF Fld.STE_STATUS_STATE 0 |>.setF (Fld.STE_FAILMAP_UNITS 0x11) 0|>.setF Fld.CSC_STATUS_DNSTATE 2); { v with csc := { v.csc with tags := [⟨⟨1, ⟨.c, 3⟩, false, 64, 2⟩, 9, 0⟩] } })
    let d : Fin 2 := 1
    let tag : Nat := 9
    let status : Nat := 0x14
    let data : List Byte := [5, 6, 7]
    let x : CscTag := ⟨⟨1, ⟨.c, 3⟩, false, 64, 2⟩, 9, 0⟩
    s.wf = true ∧ s.heard d.val = true ∧ (s.csc.tags.find? (fun y => y.ask.port == d.val && y.tag == tag) = some x) ∧
      x.ask.amo = false ∧ State.gathers x.ask.req = true ∧ s.csc.readQ = [] ∧ ((s.lpe.all fun x => decide (x.1 < 8)) = true)
      := by
  decide +kernel

theorem meets_CascadeTransactions_7 :
    let dt : Nat := 0
    let b : State := State.reset
    let s : State := (let v : State := (b.setF Fld.STE_STATUS_STATE 0 |>.setF (Fld.STE_FAILMAP_UNITS 0x11) 0|>.setF Fld.CSC_STATUS_DNSTATE 2); { v with csc := { v.csc with tags := [⟨⟨1, ⟨.d, 0⟩, false, 0, 8⟩, 9, 0⟩] } })
    let d : Fin 2 := 1
    let tag : Nat := 8
    let status : Nat := 0
    let data : List Byte := [5, 6]
    s.wf = true ∧ s.heard d.val = true ∧ (s.csc.tags.find? (fun y => y.ask.port == d.val && y.tag == tag) = none) := by
  decide +kernel

theorem meets_CascadeTransactions_8 :
    let dt : Nat := 0
    let b : State := State.reset
    let s : State := (let v : State := (b.setF Fld.STE_STATUS_STATE 0 |>.setF (Fld.STE_FAILMAP_UNITS 0x11) 0|>.setF Fld.CSC_RDTIMEOUT_US 0); { v with csc := { v.csc with tags := [⟨⟨1, ⟨.d, 0⟩, false, 0, 8⟩, 9, 0⟩] }, time := { v.time with clock := 500000 } })
    let d : Fin 2 := 1
    let tag : Nat := 9
    let x : CscTag := ⟨⟨1, ⟨.d, 0⟩, false, 0, 8⟩, 9, 0⟩
    s.wf = true ∧ (s.csc.tags.find? (fun y => y.ask.port == d.val && y.tag == tag) = some x) ∧ x.ask.amo = false ∧
      State.gathers x.ask.req = false ∧ x.ask.req.cls ≠ .c ∧ isCore x.ask.req.cls = false ∧ s.csc.readQ = [] ∧ x.at_ + max
      500 (min 50000 (s.getF Fld.CSC_RDTIMEOUT_US)) * 1000 ≤ (s.elapse dt).time.clock := by
  decide +kernel

theorem meets_CascadeTransactions_9 :
    let dt : Nat := 0
    let b : State := State.reset
    let s : State := (let w : State := b.wr Reg.RTS_IMGBASE_LO 0 |>.wr Reg.RTS_IMGBASE_HI 0 |>.setF Fld.TRDP_WORKBASE_BASE 0 |>.setF Fld.RPL_STAGEBASE_BASE 0 |>.wr64 (Reg.FAB_RGN_BASE 0) 0; let v : State := w.setF Fld.CSC_INVBASE_BASE 0x100; { v with csc := { v.csc with collect := [(0, 5)] } })
    let slots : List InvSlot := []
    let b_ : Nat := 0
    let id : Nat := 5
    let rest : List (Nat × Nat) := []
    s.wf = true ∧ s.csc.collect = (b_, id) :: rest ∧ rest = [] ∧ s.collecting = false ∧ s.getF Fld.CSC_INVBASE_BASE ≠ 0 ∧
      (s.getF Fld.CSC_INVBASE_BASE * 4096) + 0x30200 ≤ 0x400000000 ∧ (((List.range 8).all fun p => s.rangeCheck .d true
      ((s.getF Fld.CSC_INVBASE_BASE * 4096) + p * 0x6040) 0x6040 == 0) = true) ∧ PortRoom s 0x11 ∧ ((s.lpe.all fun x =>
      decide (x.1 < 8)) = true) := by
  decide +kernel

theorem meets_CascadeTransactions_10 :
    let dt : Nat := 0
    let b : State := State.reset
    let s : State := (let v : State := (b.setF Fld.STE_STATUS_STATE 0 |>.setF (Fld.STE_FAILMAP_UNITS 0x11) 0|>.setF Fld.CSC_INVBASE_BASE 0); { v with csc := { v.csc with collect := [(0, 5)] } })
    let slots : List InvSlot := []
    let b_ : Nat := 0
    let id : Nat := 5
    s.wf = true ∧ s.csc.collect = [(b_, id)] ∧ s.collecting = false ∧ s.getF Fld.CSC_INVBASE_BASE = 0 := by
  decide +kernel

theorem meets_CascadeTransactions_11 :
    let dt : Nat := 0
    let b : State := State.reset
    let s : State := (b.setF Fld.STE_STATUS_STATE 0 |>.setF (Fld.STE_FAILMAP_UNITS 0x11) 0|>.setF Fld.CSC_STATUS_DNSTATE 2|>.setF Fld.SYS_PLUG_POS 2)
    let p : Fin 8 := 5
    s.wf = true ∧ p.val ≠ s.stackPos ∧ s.heard (s.farPort p.val) = true ∧ s.csc.lockBy = none ∧ (tget s.csc.debt
      p.val).contains p.val = false ∧ s.csc.waiting = [] ∧ s.csc.inWait = [] := by
  decide +kernel

theorem meets_CascadeTransactions_12 :
    let dt : Nat := 0
    let b : State := State.reset
    let s : State := (let v : State := (b.setF Fld.STE_STATUS_STATE 0 |>.setF (Fld.STE_FAILMAP_UNITS 0x11) 0); { v with csc := { v.csc with lockBy := some (3, 0), amoDone := true } })
    s.wf = true ∧ s.csc.lockBy.isSome = true ∧ s.csc.amoDone = true ∧ s.csc.waiting = [] ∧ s.csc.inWait = [] := by
  decide +kernel

theorem meets_CascadeTransactions_13 :
    let dt : Nat := 0
    let b : State := State.reset
    let s : State := (let v : State := (b.setF Fld.STE_STATUS_STATE 0 |>.setF (Fld.STE_FAILMAP_UNITS 0x11) 0); { v with csc := { v.csc with lockBy := some (3, 0) }, time := { v.time with clock := 2000 } })
    let h : Nat := 3
    let at_ : Nat := 0
    s.wf = true ∧ s.csc.lockBy = some (h, at_) ∧ at_ + 2000 ≤ (s.elapse dt).time.clock ∧ s.csc.amoDone = false ∧
      s.csc.waiting = [] ∧ s.csc.inWait = [] := by
  decide +kernel

theorem meets_CascadeTransactions_14 :
    let dt : Nat := 0
    let b : State := State.reset
    let s : State := (let v : State := (b.setF Fld.STE_STATUS_STATE 0 |>.setF (Fld.STE_FAILMAP_UNITS 0x11) 0); { v with csc := { v.csc with tags := [⟨⟨1, ⟨.d, 0⟩, true, 0, 8⟩, 9, 0⟩] } })
    let x : CscTag := ⟨⟨1, ⟨.d, 0⟩, true, 0, 8⟩, 9, 0⟩
    s.wf = true ∧ (s.csc.tags.find? (fun y => y.ask.amo) = some x) ∧ x.ask.port < 2 ∧ State.gathers x.ask.req = false ∧
      x.ask.req.cls ≠ .c ∧ isCore x.ask.req.cls = false ∧ s.csc.amoQ = [] ∧ s.csc.readQ = [] := by
  decide +kernel

theorem meets_CascadeTransactions_15 :
    let dt : Nat := 0
    let b : State := State.reset
    let s : State := (let v : State := (b.setF Fld.STE_STATUS_STATE 0 |>.setF (Fld.STE_FAILMAP_UNITS 0x11) 0); { v with csc := { v.csc with readQ := [⟨1, ⟨.d, 0⟩, true, 0, 8⟩], tags := [], lockHeld := some 5 } })
    let x : CscAsk := ⟨1, ⟨.d, 0⟩, true, 0, 8⟩
    s.wf = true ∧ (s.csc.tags.find? (fun y => y.ask.amo) = none) ∧ (s.csc.readQ.find? (fun y => y.amo) = some x) ∧
      State.gathers x.req = false ∧ x.req.cls ≠ .c ∧ isCore x.req.cls = false ∧ s.csc.amoQ = [] := by
  decide +kernel

theorem meets_CascadeTransactions_16 :
    let dt : Nat := 0
    let b : State := State.reset
    let s : State := (let v : State := (b.setF Fld.STE_STATUS_STATE 0 |>.setF (Fld.STE_FAILMAP_UNITS 0x11) 0|>.setF Fld.CSC_STATUS_DNSTATE 2|>.setF Fld.SYS_PLUG_POS 2); { v with csc := { v.csc with amoQ := [(5, ⟨.t, 0⟩, 0, 8)] } })
    let p : Nat := 5
    let tag : Nat := 0
    let a : Nat := 0
    let n : Nat := 8
    let req : Requester := ⟨.t, 0⟩
    let rest : List (Nat × Requester × Nat × Nat) := []
    s.wf = true ∧ s.csc.amoQ = (p, req, a, n) :: rest ∧ s.heard (s.farPort p) = true ∧ s.csc.lockHeld = none ∧ s.freeTag
      (s.farPort p) = some tag := by
  decide +kernel

theorem meets_CascadeTransactions_17 :
    let dt : Nat := 0
    let b : State := State.reset
    let s : State := (let v : State := (b.setF Fld.STE_STATUS_STATE 0 |>.setF (Fld.STE_FAILMAP_UNITS 0x11) 0|>.setF Fld.CSC_STATUS_DNSTATE 2|>.setF Fld.SYS_PLUG_POS 2); { v with csc := { v.csc with amoQ := [(5, ⟨.t, 0⟩, 0, 8)] } })
    let p : Nat := 5
    let tag : Nat := 0
    let a : Nat := 0
    let n : Nat := 8
    let req : Requester := ⟨.t, 0⟩
    let rest : List (Nat × Requester × Nat × Nat) := []
    s.wf = true ∧ s.csc.amoQ = (p, req, a, n) :: rest ∧ s.heard (s.farPort p) = true ∧ s.csc.lockHeld = none ∧ s.freeTag
      (s.farPort p) = some tag := by
  decide +kernel

/-! Custody -/

theorem meets_Custody_0 :
    let dt : Nat := 0
    let b : State := State.reset
    let s : State := (let v : State := (b.setB Fld.RPL_CFG_PAIRED true |>.setF (Fld.FAB_FWWR_MASK 0x13) 1 |>.setF Fld.STE_STATUS_STATE 0|>.setF Fld.RPL_STATUS_ROLE 3 ); { v with rpl := { v.rpl with band := none } })
    let mv : Nat := 12000
    s.wf = true ∧ s.paired = true ∧ s.rpl.band = none := by
  decide +kernel

theorem meets_Custody_1 :
    let dt : Nat := 0
    let b : State := State.reset
    let s : State := b.setB Fld.RPL_CFG_PAIRED false
    let mv : Nat := 100
    s.wf = true ∧ s.paired = false := by
  decide +kernel

theorem meets_Custody_2 :
    let dt : Nat := 0
    let b : State := State.reset
    let s : State := (let v : State := (b.setB Fld.RPL_CFG_PAIRED true |>.setF (Fld.FAB_FWWR_MASK 0x13) 1 |>.setF Fld.STE_STATUS_STATE 0|>.setF Fld.RPL_STATUS_ROLE 3 |>.setF Fld.RPL_STATUS_FARWIRE 1 ); { v with rpl := { v.rpl with band := some .released, reading := .claimed, bandAt := 0 }, time := { v.time with clock := 2000 } })
    let mv : Nat := 20000
    s.wf = true ∧ s.paired = true ∧ s.role = 3 ∧ s.rpl.band = some .released ∧ s.rpl.bandAt + 2000 ≤ (s.elapse dt).time.clock
      ∧ s.rpl.reading ≠ .released := by
  decide +kernel

theorem meets_Custody_3 :
    let dt : Nat := 0
    let b : State := State.reset
    let s : State := (let v : State := (b.setB Fld.RPL_CFG_PAIRED true |>.setF (Fld.FAB_FWWR_MASK 0x13) 1 |>.setF Fld.STE_STATUS_STATE 0|>.setF Fld.RPL_STATUS_ROLE 3 |>.setF Fld.RPL_STATUS_FARWIRE 1 ); { v with rpl := { v.rpl with band := some .short, reading := .claimed, bandAt := 0 }, time := { v.time with clock := 10001 } })
    let mv : Nat := 1000
    let w : WireBand := .short
    s.wf = true ∧ s.paired = true ∧ s.role = 3 ∧ (w = .openWire ∨ w = .short) ∧ s.rpl.band = some w ∧ s.rpl.bandAt + 10001 ≤
      (s.elapse dt).time.clock ∧ s.rpl.reading ≠ .openWire ∧ s.rpl.reading ≠ .short ∧ PortRoom s 0x13 := by
  decide +kernel

theorem meets_Custody_4 :
    let dt : Nat := 0
    let b : State := State.reset
    let s : State := (let v : State := (b.setB Fld.RPL_CFG_PAIRED true |>.setF (Fld.FAB_FWWR_MASK 0x13) 1 |>.setF Fld.STE_STATUS_STATE 0|>.setF Fld.RPL_STATUS_ROLE 2 |>.setF Fld.RPL_STATUS_SIDE 1  |>.setB Fld.RPL_STATUS_ENABLE true ); { v with rpl := { v.rpl with band := some .high, took := some .low, bandAt := 0, reading := .released }, time := { v.time with clock := 2000 } })
    let mv : Nat := 4000
    s.wf = true ∧ s.paired = true ∧ s.role = 2 ∧ s.side = 1 ∧ s.rpl.band = some .high ∧ s.rpl.took = some .low ∧
      s.rpl.reading ≠ .claimed ∧ s.rpl.bandAt + 2000 ≤ (s.elapse dt).time.clock ∧ (s.elapse dt).time.clock ≤ s.rpl.bandAt +
      750000 ∧ (tget s.arc.ports 0x13).length < 30 := by
  decide +kernel

theorem meets_Custody_5 :
    let dt : Nat := 0
    let b : State := State.reset
    let s : State := (b.setB Fld.RPL_CFG_PAIRED true |>.setF (Fld.FAB_FWWR_MASK 0x13) 1 |>.setF Fld.STE_STATUS_STATE 0|>.setF Fld.RPL_STATUS_ROLE 2  |>.setB Fld.RPL_STATUS_ENABLE true )
    s.wf = true ∧ s.role = 2 := by
  decide +kernel

theorem meets_Custody_6 :
    let dt : Nat := 0
    let b : State := State.reset
    let s : State := (let v : State := (b.setB Fld.RPL_CFG_PAIRED true |>.setF (Fld.FAB_FWWR_MASK 0x13) 1 |>.setF Fld.STE_STATUS_STATE 0|>.setF Fld.RPL_STATUS_ROLE 4 |>.setF Fld.RPL_STATUS_FARWIRE 0 ); { v with rpl := { v.rpl with goodSince := 0 }, time := { v.time with clock := 1000000000 } })
    s.wf = true ∧ (s.elapse dt).farSettle = s.elapse dt ∧ s.role = 4 ∧ (s.far = 0 ∨ s.far = 1) ∧ s.rpl.partnerFault = false ∧
      s.rpl.goodSince + 1000000000 ≤ (s.elapse dt).time.clock ∧ PortRoom s 0x13 := by
  decide +kernel

theorem meets_Custody_7 :
    let dt : Nat := 0
    let b : State := State.reset
    let s : State := (let v : State := (b.setB Fld.RPL_CFG_PAIRED true |>.setF (Fld.FAB_FWWR_MASK 0x13) 1 |>.setF Fld.STE_STATUS_STATE 0|>.setF Fld.RPL_STATUS_ROLE 3 |>.setF Fld.RPL_STATUS_FARWIRE 0 |>.setF Fld.RPL_STATUS_SIDE 0 |>.setF Fld.TRIAD_STATUS_MODE 1 |>.setF Fld.RPL_STATUS_BEHIND 0 |>.setB Fld.RPL_STATUS_PASSDONE true |>.setF Fld.RTS_STATE_STATE 1 ); { v with rpl := { v.rpl with ackWorked := true, peerProg := some (v.rd64 Reg.RTS_PROGID), peer := some { paired := true, side := 1, code := v.getF Fld.SYS_IDENT_CODE } } })
    s.wf = true ∧ (s.elapse dt).farSettle = s.elapse dt ∧ s.mayClaim = true ∧ s.role = 3 ∧ s.ineligible = [] ∧ (s.far = 0 ∨
      s.far = 2) := by
  decide +kernel

theorem meets_Custody_8 :
    let dt : Nat := 0
    let b : State := State.reset
    let s : State := (let v : State := (b.setB Fld.RPL_CFG_PAIRED true |>.setF (Fld.FAB_FWWR_MASK 0x13) 1 |>.setF Fld.STE_STATUS_STATE 0|>.setF Fld.RPL_STATUS_ROLE 3 |>.setF Fld.RPL_STATUS_FARWIRE 0 |>.setF Fld.TRIAD_STATUS_MODE 1 |>.setF Fld.RPL_STATUS_SIDE 0 ); { v with rpl := { v.rpl with claim := some { startAt := 0, stuck := false, cold := false, boot := none } }, time := { v.time with clock := 2000 } })
    let mv : Nat := 12000
    let c : Claim := { startAt := 0, stuck := false, cold := false, boot := none }
    s.wf = true ∧ (s.elapse dt).farSettle = s.elapse dt ∧ s.rpl.claim = some c ∧ c.startAt + 2000 ≤ (s.elapse dt).time.clock
      ∧ (s.role = 0 ∨ s.role = 3) ∧ (s.triadMode = 1 ∨ s.triadMode = 2) ∧ ((c.stuck = true ∧ s.far = 2) ∨ (c.stuck = false ∧
      (s.side = 0 ∨ (wireBand mv ≠ some .high ∧ s.far ≠ 1)))) ∧ s.lineFault = false ∧ PortRoom s 0x13 := by
  decide +kernel

theorem meets_Custody_9 :
    let dt : Nat := 0
    let b : State := State.reset
    let s : State := (let v : State := (b.setB Fld.RPL_CFG_PAIRED true |>.setF (Fld.FAB_FWWR_MASK 0x13) 1 |>.setF Fld.STE_STATUS_STATE 0|>.setF Fld.RPL_STATUS_ROLE 3 |>.setF Fld.RPL_STATUS_FARWIRE 2 |>.setF Fld.TRIAD_STATUS_MODE 1 |>.setF Fld.RPL_STATUS_SIDE 0 ); { v with rpl := { v.rpl with reading := .stuckLow, claim := some { startAt := 0, stuck := true, cold := false, boot := none } }, time := { v.time with clock := 2000 } })
    let mv : Nat := 12000
    let c : Claim := { startAt := 0, stuck := true, cold := false, boot := none }
    s.wf = true ∧ (s.elapse dt).farSettle = s.elapse dt ∧ s.rpl.claim = some c ∧ c.startAt + 2000 ≤ (s.elapse dt).time.clock
      ∧ (s.role = 0 ∨ s.role = 3) ∧ (s.triadMode = 1 ∨ s.triadMode = 2) ∧ c.stuck = true ∧ s.far = 2 ∧ s.rpl.reading =
      .stuckLow ∧ s.lineFault = true ∧ (tget s.arc.ports 0x13).length < 31 := by
  decide +kernel

theorem meets_Custody_10 :
    let dt : Nat := 0
    let b : State := State.reset
    let s : State := (let v : State := (b.setB Fld.RPL_CFG_PAIRED true |>.setF (Fld.FAB_FWWR_MASK 0x13) 1 |>.setF Fld.STE_STATUS_STATE 0|>.setF Fld.RPL_STATUS_ROLE 3 |>.setF Fld.RPL_STATUS_FARWIRE 0 |>.setF Fld.TRIAD_STATUS_MODE 1 |>.setF Fld.RPL_STATUS_SIDE 1 |>.setF Fld.RPL_STATUS_FARWIRE 1 ); { v with rpl := { v.rpl with claim := some { startAt := 0, stuck := false, cold := false, boot := none } }, time := { v.time with clock := 2000 } })
    let mv : Nat := 19000
    let c : Claim := { startAt := 0, stuck := false, cold := false, boot := none }
    s.wf = true ∧ (s.elapse dt).farSettle = s.elapse dt ∧ s.rpl.claim = some c ∧ c.startAt + 2000 ≤ (s.elapse dt).time.clock
      ∧ (s.role = 0 ∨ s.role = 3) ∧ (s.triadMode = 1 ∨ s.triadMode = 2) ∧ c.stuck = false ∧ c.boot = none ∧ s.side = 1 ∧
      (wireBand mv = some .high ∨ s.far = 1) := by
  decide +kernel

theorem meets_Custody_11 :
    let dt : Nat := 0
    let b : State := State.reset
    let s : State := (let v : State := (b.setB Fld.RPL_CFG_PAIRED true |>.setF (Fld.FAB_FWWR_MASK 0x13) 1 |>.setF Fld.STE_STATUS_STATE 0|>.setF Fld.RPL_STATUS_ROLE 4 |>.setF Fld.RPL_STATUS_FARWIRE 0 |>.setF Fld.TRIAD_STATUS_MODE 1 |>.setF Fld.RPL_STATUS_SIDE 0 ); { v with rpl := { v.rpl with claim := some { startAt := 0, stuck := false, cold := false, boot := none } }, time := { v.time with clock := 2000 } })
    let mv : Nat := 12000
    let c : Claim := { startAt := 0, stuck := false, cold := false, boot := none }
    s.wf = true ∧ (s.elapse dt).farSettle = s.elapse dt ∧ s.rpl.claim = some c ∧ c.startAt + 2000 ≤ (s.elapse dt).time.clock
      ∧ s.role = 4 := by
  decide +kernel

theorem meets_Custody_12 :
    let dt : Nat := 0
    let b : State := State.reset
    let s : State := (let v : State := (b.setB Fld.RPL_CFG_PAIRED true |>.setF (Fld.FAB_FWWR_MASK 0x13) 1 |>.setF Fld.STE_STATUS_STATE 0|>.setF Fld.RPL_STATUS_ROLE 0 |>.setF Fld.RPL_STATUS_FARWIRE 0 |>.setF Fld.RPL_STATUS_SIDE 1 |>.setF Fld.TRIAD_STATUS_MODE 1 ); { v with rpl := { v.rpl with negotiating := some 0 }, time := { v.time with clock := 500000000 } })
    let at_ : Nat := 0
    s.wf = true ∧ (s.elapse dt).farSettle = s.elapse dt ∧ s.rpl.negotiating = some at_ ∧ (at_ + (if s.side = 1 then 500000000
      else 0) ≤ (s.elapse dt).time.clock) ∧ s.far = 0 ∧ s.mayClaim = true := by
  decide +kernel

theorem meets_Custody_13 :
    let dt : Nat := 0
    let b : State := State.reset
    let s : State := (let v : State := (b.setB Fld.RPL_CFG_PAIRED true |>.setF (Fld.FAB_FWWR_MASK 0x13) 1 |>.setF Fld.STE_STATUS_STATE 0|>.setF Fld.RPL_STATUS_ROLE 0 |>.setF Fld.RPL_STATUS_FARWIRE 1 |>.setF Fld.RPL_STATUS_SIDE 1 |>.setF Fld.TRIAD_STATUS_MODE 1 ); { v with rpl := { v.rpl with negotiating := some 0 }, time := { v.time with clock := 500000000 } })
    let at_ : Nat := 0
    s.wf = true ∧ (s.elapse dt).farSettle = s.elapse dt ∧ s.rpl.negotiating = some at_ ∧ (at_ + (if s.side = 1 then 500000000
      else 0) ≤ (s.elapse dt).time.clock) ∧ s.far = 1 ∧ s.rpl.partnerFault = false ∧ PortRoom s 0x13 := by
  decide +kernel

theorem meets_Custody_14 :
    let dt : Nat := 0
    let b : State := State.reset
    let s : State := (let v : State := (b.setB Fld.RPL_CFG_PAIRED true |>.setF (Fld.FAB_FWWR_MASK 0x13) 1 |>.setF Fld.STE_STATUS_STATE 0|>.setF Fld.RPL_STATUS_ROLE 0 |>.setF Fld.RPL_STATUS_FARWIRE 2 |>.setF Fld.RPL_STATUS_SIDE 1 |>.setF Fld.TRIAD_STATUS_MODE 1 ); { v with rpl := { v.rpl with negotiating := some 0 }, time := { v.time with clock := 500000000 } })
    let at_ : Nat := 0
    s.wf = true ∧ (s.elapse dt).farSettle = s.elapse dt ∧ s.rpl.negotiating = some at_ ∧ (at_ + (if s.side = 1 then 500000000
      else 0) ≤ (s.elapse dt).time.clock) ∧ s.far ≠ 0 ∧ s.far ≠ 1 := by
  decide +kernel

/-! Replica -/

theorem meets_Replica_0 :
    let dt : Nat := 0
    let b : State := State.reset
    let s : State := (let v : State := (b.setB Fld.RPL_CFG_PAIRED true |>.setF (Fld.FAB_FWWR_MASK 0x13) 1 |>.setF Fld.STE_STATUS_STATE 0|>.setB Fld.RPL_STATUS_LINKUP true ); { v with rpl := { v.rpl with snap := [1, 2, 3], walk := [8], snapOpen := true } })
    let shipped : Nat := 4
    s.wf = true ∧ s.rpl.snapOpen = true ∧ s.pendingLines.length ≤ shipped ∧ s.rpl.snapVoid = false ∧ s.bit
      Fld.RPL_STATUS_LINKUP = true ∧ (s.elapse dt).inShipTime = true ∧ s.rpl.fseq < 4294967296 := by
  decide +kernel

theorem meets_Replica_1 :
    let dt : Nat := 0
    let b : State := State.reset
    let s : State := (let v : State := (b.setB Fld.RPL_CFG_PAIRED true |>.setF (Fld.FAB_FWWR_MASK 0x13) 1 |>.setF Fld.STE_STATUS_STATE 0|>.setB Fld.RPL_STATUS_LINKUP true ); { v with rpl := { v.rpl with snap := [1, 2, 3], walk := [8], snapOpen := true }, time := { v.time with mono := 240000, edgeStart := 0 } })
    let shipped : Nat := 2
    s.wf = true ∧ s.rpl.snapOpen = true ∧ shipped < s.pendingLines.length ∧ s.time.edgeStart + 240000 ≤ (s.elapse
      dt).time.mono ∧ s.bit Fld.RPL_STATUS_LINKUP = true ∧ s.rpl.fseq < 4294967296 := by
  decide +kernel

theorem meets_Replica_2 :
    let dt : Nat := 0
    let b : State := State.reset
    let s : State := (let v : State := (b.setB Fld.RPL_CFG_PAIRED true |>.setF (Fld.FAB_FWWR_MASK 0x13) 1 |>.setF Fld.STE_STATUS_STATE 0|>.setB Fld.RPL_STATUS_LINKUP false ); { v with rpl := { v.rpl with snap := [1, 2, 3], snapOpen := true } })
    let shipped : Nat := 3
    s.wf = true ∧ s.rpl.snapOpen = true ∧ s.pendingLines.length ≤ shipped ∧ s.bit Fld.RPL_STATUS_LINKUP = false := by
  decide +kernel

theorem meets_Replica_3 :
    let dt : Nat := 0
    let b : State := State.reset
    let s : State := (b.setB Fld.RPL_CFG_PAIRED true |>.setF (Fld.FAB_FWWR_MASK 0x13) 1 |>.setF Fld.STE_STATUS_STATE 0|>.setB Fld.RPL_STATUS_LINKUP true )
    let peer : Peer := { paired := true, side := 1, code := 7 }
    let frame : List Byte := List.replicate 24 1
    s.wf = true ∧ s.paired = true ∧ s.bit Fld.RPL_STATUS_LINKUP = true ∧ replicaFrame frame = .bad := by
  decide +kernel

theorem meets_Replica_4 :
    let dt : Nat := 0
    let b : State := State.reset
    let s : State := (b.setB Fld.RPL_CFG_PAIRED true |>.setF (Fld.FAB_FWWR_MASK 0x13) 1 |>.setF Fld.STE_STATUS_STATE 0|>.setB Fld.RPL_STATUS_LINKUP true )
    let peer : Peer := { paired := true, side := 1, code := 7 }
    let frame : List Byte := (let body : List Byte := leBytes 1 4 ++ leBytes 1 0 ++ [0, 0] ++ leBytes 4 3 ++ leBytes 8 7 ++ [0]; body ++ leBytes 4 (crc32 body))
    s.wf = true ∧ s.paired = true ∧ s.bit Fld.RPL_STATUS_LINKUP = true ∧ replicaFrame frame = .odd := by
  decide +kernel

theorem meets_Replica_5 :
    let dt : Nat := 0
    let b : State := State.reset
    let s : State := (let v : State := (b.setB Fld.RPL_CFG_PAIRED true |>.setF (Fld.FAB_FWWR_MASK 0x13) 1 |>.setF Fld.STE_STATUS_STATE 0|>.setF Fld.RPL_STATUS_ROLE 3 |>.setB Fld.RPL_STATUS_LINKUP true |>.setF Fld.RPL_STAGEBASE_BASE 0 ); { v with rpl := { v.rpl with staged := [{ line := 0x5, bytes := List.replicate 256 9, beat := 7, slot := 0 }] } })
    let peer : Peer := { paired := true, side := 1, code := 7 }
    let frame : List Byte := (let body : List Byte := leBytes 1 1 ++ leBytes 1 1 ++ [0, 0] ++ leBytes 4 3 ++ leBytes 8 7 ++ leBytes 4 5 ++ List.replicate 256 4; body ++ leBytes 4 (crc32 body))
    let beat : Nat := 7
    let l : Nat := 5
    let slot : Nat := 0
    let bs : List Byte := List.replicate 256 4
    s.wf = true ∧ s.paired = true ∧ s.bit Fld.RPL_STATUS_LINKUP = true ∧ replicaFrame frame = .lines beat [(l, bs)] ∧ s.role
      = 3 ∧ s.rpl.staged.length < 16131 ∧ (slot = ((s.rpl.staged.find? fun y => y.line == l).map fun y => y.slot).getD
      s.rpl.staged.length) ∧ (s.getF Fld.RPL_STAGEBASE_BASE * 0x400000) = 0 := by
  decide +kernel

theorem meets_Replica_6 :
    let dt : Nat := 0
    let b : State := State.reset
    let s : State := (let v : State := (b.setB Fld.RPL_CFG_PAIRED true |>.setF (Fld.FAB_FWWR_MASK 0x13) 1 |>.setF Fld.STE_STATUS_STATE 0|>.setF Fld.RPL_STATUS_ROLE 3 |>.setB Fld.RPL_STATUS_LINKUP true |>.setF Fld.RPL_STAGEBASE_BASE 2 ); { v with rpl := { v.rpl with staged := [] } })
    let peer : Peer := { paired := true, side := 1, code := 7 }
    let frame : List Byte := (let body : List Byte := leBytes 1 1 ++ leBytes 1 1 ++ [0, 0] ++ leBytes 4 3 ++ leBytes 8 7 ++ leBytes 4 5 ++ List.replicate 256 4; body ++ leBytes 4 (crc32 body))
    let beat : Nat := 7
    let l : Nat := 5
    let slot : Nat := 0
    let bs : List Byte := List.replicate 256 4
    s.wf = true ∧ s.paired = true ∧ s.bit Fld.RPL_STATUS_LINKUP = true ∧ replicaFrame frame = .lines beat [(l, bs)] ∧ s.role
      = 3 ∧ s.rpl.staged.length < 16131 ∧ (slot = ((s.rpl.staged.find? fun y => y.line == l).map fun y => y.slot).getD
      s.rpl.staged.length) ∧ (s.getF Fld.RPL_STAGEBASE_BASE * 0x400000) ≠ 0 ∧ (s.getF Fld.RPL_STAGEBASE_BASE * 0x400000) +
      0x400000 ≤ 0x400000000 ∧ slot < 16131 ∧ ((s.lpe.all fun x => decide (x.1 < 8)) = true) := by
  decide +kernel

theorem meets_Replica_7 :
    let dt : Nat := 0
    let b : State := State.reset
    let s : State := (let v : State := (b.setB Fld.RPL_CFG_PAIRED true |>.setF (Fld.FAB_FWWR_MASK 0x13) 1 |>.setF Fld.STE_STATUS_STATE 0|>.setF Fld.RPL_STATUS_ROLE 3 |>.setB Fld.RPL_STATUS_LINKUP true ); { v with rpl := { v.rpl with staged := [{ line := 0x5, bytes := List.replicate 256 9, beat := 7, slot := 0 }] } })
    let peer : Peer := { paired := true, side := 1, code := 7 }
    let frame : List Byte := (let body : List Byte := leBytes 1 2 ++ leBytes 1 0 ++ [0, 0] ++ leBytes 4 3 ++ leBytes 8 7 ++ leBytes 4 1 ++ leBytes 8 (crc64 (leBytes 4 5 ++ List.replicate 256 9)) ++ leBytes 8 5 ++ leBytes 8 5 ++ [1, 1] ++ List.replicate 34 0; body ++ leBytes 4 (crc32 body))
    let beat : Nat := 7
    let mono : Nat := 5
    let progId : Nat := 5
    let mode : Nat := 1
    let mw : Bool := true
    let sw : Bool := false
    let x : RplLine := { line := 0x5, bytes := List.replicate 256 9, beat := 7, slot := 0 }
    s.wf = true ∧ s.paired = true ∧ s.bit Fld.RPL_STATUS_LINKUP = true ∧ replicaFrame frame = .marker beat 1 (crc64
      (State.lineRecord x)) mono progId mw sw mode ∧ s.role = 3 ∧ s.rpl.staged = [x] ∧ x.beat = beat ∧ State.lineInArea
      x.line = true ∧ beat < 18446744073709551616 := by
  decide +kernel

theorem meets_Replica_8 :
    let dt : Nat := 0
    let b : State := State.reset
    let s : State := (b.setB Fld.RPL_CFG_PAIRED true |>.setF (Fld.FAB_FWWR_MASK 0x13) 1 |>.setF Fld.STE_STATUS_STATE 0|>.setF Fld.RPL_STATUS_ROLE 2 |>.setB Fld.RPL_STATUS_LINKUP true |>.setF Fld.RPL_STATUS_FARWIRE 0 )
    let peer : Peer := { paired := true, side := 1, code := 7 }
    let frame : List Byte := (let body : List Byte := leBytes 1 3 ++ leBytes 1 0 ++ [0, 0] ++ leBytes 4 3 ++ leBytes 8 7 ++ leBytes 8 7 ++ [0, 0, 0, 0] ++ leBytes 4 5 ++ [1, 0]; body ++ leBytes 4 (crc32 body))
    let b0 : Nat := 7
    let lastBeat : Nat := 7
    let pkgId : Nat := 5
    let mode : Nat := 1
    let b1 : Bool := false
    s.wf = true ∧ s.paired = true ∧ s.bit Fld.RPL_STATUS_LINKUP = true ∧ replicaFrame frame = .ack b0 lastBeat 0 pkgId mode
      false b1 ∧ s.role = 2 ∧ s.lineFault = false ∧ s.rpl.handover = none ∧ lastBeat < 18446744073709551616 := by
  decide +kernel

theorem meets_Replica_9 :
    let dt : Nat := 0
    let b : State := State.reset
    let s : State := (b.setB Fld.RPL_CFG_PAIRED true |>.setF (Fld.FAB_FWWR_MASK 0x13) 1 |>.setF Fld.STE_STATUS_STATE 0|>.setF Fld.RPL_STATUS_ROLE 2 |>.setB Fld.RPL_STATUS_LINKUP true )
    let peer : Peer := { paired := true, side := 1, code := 7 }
    let frame : List Byte := (let body : List Byte := leBytes 1 2 ++ leBytes 1 0 ++ [0, 0] ++ leBytes 4 3 ++ leBytes 8 7 ++ leBytes 4 1 ++ leBytes 8 (crc64 (leBytes 4 5 ++ List.replicate 256 9)) ++ leBytes 8 5 ++ leBytes 8 5 ++ [1, 1] ++ List.replicate 34 0; body ++ leBytes 4 (crc32 body))
    let beat : Nat := 7
    let count : Nat := 1
    let crc : Nat := crc64 (leBytes 4 5 ++ List.replicate 256 9)
    let mono : Nat := 5
    let progId : Nat := 5
    let mode : Nat := 1
    let mw : Bool := true
    let sw : Bool := false
    s.wf = true ∧ s.paired = true ∧ s.bit Fld.RPL_STATUS_LINKUP = true ∧ replicaFrame frame = .marker beat count crc mono
      progId mw sw mode ∧ s.role = 2 := by
  decide +kernel

theorem meets_Replica_10 :
    let dt : Nat := 0
    let b : State := State.reset
    let s : State := (let v : State := (b.setB Fld.RPL_CFG_PAIRED true |>.setF (Fld.FAB_FWWR_MASK 0x13) 1 |>.setF Fld.STE_STATUS_STATE 0); { v with rpl := { v.rpl with snap := [5], snapOpen := true } })
    let line : Nat := 5
    s.wf = true ∧ s.rpl.snapOpen = true ∧ s.rpl.snap.contains line = true ∧ ((s.rpl.captured.any fun c => c.1 == line) =
      false) ∧ s.rpl.captured.length < 2048 := by
  decide +kernel

theorem meets_Replica_11 :
    let dt : Nat := 0
    let b : State := State.reset
    let s : State := (b.setB Fld.RPL_CFG_PAIRED true |>.setF (Fld.FAB_FWWR_MASK 0x13) 1 |>.setF Fld.STE_STATUS_STATE 0|>.setB Fld.RPL_STATUS_LINKUP false)
    s.wf = true ∧ s.paired = true ∧ s.bit Fld.RPL_STATUS_LINKUP = false ∧ (s.rpl.linkSeen = false ∨ s.role = 2) ∧ (s.role = 2
      → s.lineFault = false) := by
  decide +kernel

theorem meets_Replica_12 :
    let dt : Nat := 0
    let b : State := State.reset
    let s : State := (let v : State := (b.setB Fld.RPL_CFG_PAIRED true |>.setF (Fld.FAB_FWWR_MASK 0x13) 1 |>.setF Fld.STE_STATUS_STATE 0|>.setF Fld.RPL_STATUS_ROLE 2 ); { v with rpl := { v.rpl with peerElig := true } })
    let req : Requester := ⟨.t, 0⟩
    s.wf = true ∧ Lets s req Reg.RPL_CTL ∧ s.rpl.handoverRun = false ∧ s.role = 2 ∧ s.rpl.peerElig = true := by
  decide +kernel

theorem meets_Replica_13 :
    let dt : Nat := 0
    let b : State := State.reset
    let s : State := (let v : State := (b.setB Fld.RPL_CFG_PAIRED true |>.setF (Fld.FAB_FWWR_MASK 0x13) 1 |>.setF Fld.STE_STATUS_STATE 0|>.setF Fld.RPL_STATUS_ROLE 2 ); { v with rpl := { v.rpl with handover := some 9 } })
    let req : Requester := ⟨.t, 0⟩
    let h : Nat := 9
    s.wf = true ∧ Lets s req Reg.RPL_CTL ∧ s.rpl.handover = some h ∧ s.rpl.handoverRun = false ∧ PortRoom s 0x13 := by
  decide +kernel

theorem meets_Replica_14 :
    let dt : Nat := 0
    let b : State := State.reset
    let s : State := (let v : State := (b.setB Fld.RPL_CFG_PAIRED true |>.setF (Fld.FAB_FWWR_MASK 0x13) 1 |>.setF Fld.STE_STATUS_STATE 0|>.setF Fld.RPL_STATUS_ROLE 2 ); { v with rpl := { v.rpl with handover := some 9, handoverRun := true }, time := { v.time with mono := 240000, edgeStart := 0 } })
    let h : Nat := 9
    s.wf = true ∧ s.rpl.handover = some h ∧ s.rpl.handoverRun = true ∧ s.time.edgeStart + 240000 ≤ (s.elapse dt).time.mono ∧
      PortRoom s 0x13 := by
  decide +kernel

/-! LifecycleRequests -/

theorem meets_LifecycleRequests_0 :
    let dt : Nat := 0
    let b : State := State.reset
    let s : State := (let u : State := (tokened ((keyed ((b.setF (Fld.FAB_FWWR_MASK 0x15) 1).setF Fld.STE_STATUS_STATE 0)).setF Fld.LCS_STATE_STATE 1 |>.setB Fld.PWR_STATUS_NV_STOP false |>.setF (Fld.STE_FAILMAP_UNITS 0x15) 0) wImg_toSealed); { u with lcs := { u.lcs with busy := none, fwCommitted := true } })
    let req : Requester := ⟨.t, 0⟩
    let arg : Byte := 0
    let n0 : BitVec 64 := 5
    let n1 : BitVec 64 := 6
    s.wf = true ∧ Lets s req Reg.LCS_CMD ∧ s.lcs.busy = none ∧ s.tokenCheck s.token 5 = 0 ∧ s.transitionCheck s.token = 0 :=
      by
  decide +kernel

theorem meets_LifecycleRequests_1 :
    let dt : Nat := 0
    let b : State := State.reset
    let s : State := (let u : State := (tokened ((keyed ((b.setF (Fld.FAB_FWWR_MASK 0x15) 1).setF Fld.STE_STATUS_STATE 0)).setF Fld.LCS_STATE_STATE 1 |>.setB Fld.PWR_STATUS_NV_STOP false |>.setF (Fld.STE_FAILMAP_UNITS 0x15) 0) wImg_toSealed); { u with lcs := { u.lcs with busy := none, fwCommitted := false } })
    let req : Requester := ⟨.t, 0⟩
    let arg : Byte := 0
    let n0 : BitVec 64 := 5
    let n1 : BitVec 64 := 6
    s.wf = true ∧ Lets s req Reg.LCS_CMD ∧ s.lcs.busy = none ∧ s.tokenCheck s.token 5 = 0 ∧ s.transitionCheck s.token ≠ 0 ∧
      PortRoom s 0x15 := by
  decide +kernel

theorem meets_LifecycleRequests_2 :
    let dt : Nat := 0
    let b : State := State.reset
    let s : State := (let u : State := ((keyed ((b.setF (Fld.FAB_FWWR_MASK 0x15) 1).setF Fld.STE_STATUS_STATE 0)).setF Fld.LCS_STATE_STATE 2 |>.setB Fld.PWR_STATUS_NV_STOP false |>.setF (Fld.STE_FAILMAP_UNITS 0x15) 0); { u with lcs := { u.lcs with busy := none } })
    let req : Requester := ⟨.t, 0⟩
    let arg : Byte := 0
    let n0 : BitVec 64 := 5
    let n1 : BitVec 64 := 6
    s.wf = true ∧ Lets s req Reg.LCS_CMD ∧ s.lcs.busy = none ∧ s.tokenCheck s.token 5 ≠ 0 ∧ s.tokenCheck s.token 5 ≤ 8 ∧
      (tget s.arc.ports 0x15).length < 31 := by
  decide +kernel

theorem meets_LifecycleRequests_3 :
    let dt : Nat := 0
    let b : State := State.reset
    let s : State := (let u : State := (placed ((keyed ((b.setF (Fld.FAB_FWWR_MASK 0x15) 1).setF Fld.STE_STATUS_STATE 0)).setF Fld.LCS_STATE_STATE 2 |>.setB Fld.PWR_STATUS_NV_STOP false |>.setF (Fld.STE_FAILMAP_UNITS 0x15) 0) wImg_fw); { u with lcs := { u.lcs with busy := none } })
    let req : Requester := ⟨.t, 0⟩
    s.wf = true ∧ Lets s req Reg.LCS_CMD ∧ s.lcs.busy = none ∧ s.imageCheck s.sourceImage 1 = 0 ∧ s.flashStopped = false :=
      by
  decide +kernel

theorem meets_LifecycleRequests_4 :
    let dt : Nat := 0
    let b : State := State.reset
    let s : State := (let u : State := ((keyed ((b.setF (Fld.FAB_FWWR_MASK 0x15) 1).setF Fld.STE_STATUS_STATE 0)).setF Fld.LCS_STATE_STATE 2 |>.setB Fld.PWR_STATUS_NV_STOP false |>.setF (Fld.STE_FAILMAP_UNITS 0x15) 0); { u with lcs := { u.lcs with busy := none } })
    let req : Requester := ⟨.t, 0⟩
    let written : Bool := true
    let verified : Bool := true
    s.wf = true ∧ Lets s req Reg.LCS_CMD ∧ s.lcs.busy = none ∧ s.imageCheck s.sourceImage 1 ≠ 0 ∧ PortRoom s 0x15 := by
  decide +kernel

theorem meets_LifecycleRequests_5 :
    let dt : Nat := 0
    let b : State := State.reset
    let s : State := (let u : State := (placed ((keyed ((b.setF (Fld.FAB_FWWR_MASK 0x15) 1).setF Fld.STE_STATUS_STATE 0)).setF Fld.LCS_STATE_STATE 2 |>.setB Fld.PWR_STATUS_NV_STOP false |>.setF (Fld.STE_FAILMAP_UNITS 0x15) 0) wImg_docent); { u with lcs := { u.lcs with busy := none } })
    let req : Requester := ⟨.t, 0⟩
    s.wf = true ∧ Lets s req Reg.LCS_CMD ∧ s.lcs.busy = none ∧ s.lcState = 2 ∧ s.imageCheck s.sourceImage 2 = 0 ∧
      s.flashStopped = false := by
  decide +kernel

theorem meets_LifecycleRequests_6 :
    let dt : Nat := 0
    let b : State := State.reset
    let s : State := (let u : State := ((keyed ((b.setF (Fld.FAB_FWWR_MASK 0x15) 1).setF Fld.STE_STATUS_STATE 0)).setF Fld.LCS_STATE_STATE 3 |>.setB Fld.PWR_STATUS_NV_STOP false |>.setF (Fld.STE_FAILMAP_UNITS 0x15) 0); { u with lcs := { u.lcs with busy := none } })
    let req : Requester := ⟨.t, 0⟩
    let written : Bool := true
    let verified : Bool := true
    s.wf = true ∧ Lets s req Reg.LCS_CMD ∧ s.lcs.busy = none ∧ s.lcState ≠ 2 := by
  decide +kernel

theorem meets_LifecycleRequests_7 :
    let dt : Nat := 0
    let b : State := State.reset
    let s : State := (let u : State := (placed ((keyed ((b.setF (Fld.FAB_FWWR_MASK 0x15) 1).setF Fld.STE_STATUS_STATE 0)).setF Fld.LCS_STATE_STATE 2 |>.setB Fld.PWR_STATUS_NV_STOP false |>.setF (Fld.STE_FAILMAP_UNITS 0x15) 0) wImg_boot); { u with lcs := { u.lcs with busy := none } })
    let req : Requester := ⟨.t, 0⟩
    s.wf = true ∧ Lets s req Reg.LCS_CMD ∧ s.lcs.busy = none ∧ (s.lcState = 1 ∨ s.lcState = 2) ∧ s.imageCheck s.sourceImage 3
      = 0 ∧ s.flashStopped = false := by
  decide +kernel

theorem meets_LifecycleRequests_8 :
    let dt : Nat := 0
    let b : State := State.reset
    let s : State := (let u : State := ((keyed ((b.setF (Fld.FAB_FWWR_MASK 0x15) 1).setF Fld.STE_STATUS_STATE 0)).setF Fld.LCS_STATE_STATE 2 |>.setB Fld.PWR_STATUS_NV_STOP false |>.setF (Fld.STE_FAILMAP_UNITS 0x15) 0); { u with lcs := { u.lcs with busy := none } })
    let req : Requester := ⟨.t, 0⟩
    s.wf = true ∧ Lets s req Reg.LCS_CMD ∧ s.lcs.busy = none := by
  decide +kernel

theorem meets_LifecycleRequests_9 :
    let dt : Nat := 0
    let b : State := State.reset
    let s : State := (let u : State := ((keyed ((b.setF (Fld.FAB_FWWR_MASK 0x15) 1).setF Fld.STE_STATUS_STATE 0)).setF Fld.LCS_STATE_STATE 2 |>.setB Fld.PWR_STATUS_NV_STOP false |>.setF (Fld.STE_FAILMAP_UNITS 0x15) 0); { u with lcs := { u.lcs with busy := none } })
    let req : Requester := ⟨.t, 0⟩
    s.wf = true ∧ Lets s req Reg.LCS_CMD ∧ s.lcs.busy = none := by
  decide +kernel

theorem meets_LifecycleRequests_10 :
    let dt : Nat := 0
    let b : State := State.reset
    let s : State := (let u : State := (placed ((keyed ((b.setF (Fld.FAB_FWWR_MASK 0x15) 1).setF Fld.STE_STATUS_STATE 0)).setF Fld.LCS_STATE_STATE 2 |>.setB Fld.PWR_STATUS_NV_STOP false |>.setF (Fld.STE_FAILMAP_UNITS 0x15) 0) wImg_pkg); { u with lcs := { u.lcs with busy := none } })
    let req : Requester := ⟨.t, 0⟩
    let arg : Byte := 0
    s.wf = true ∧ Lets s req Reg.LCS_CMD ∧ s.lcs.busy = none ∧ s.imageCheck s.sourceImage 4 = 0 := by
  decide +kernel

theorem meets_LifecycleRequests_11 :
    let dt : Nat := 0
    let b : State := State.reset
    let s : State := (let u : State := ((keyed ((b.setF (Fld.FAB_FWWR_MASK 0x15) 1).setF Fld.STE_STATUS_STATE 0)).setF Fld.LCS_STATE_STATE 2 |>.setB Fld.PWR_STATUS_NV_STOP false |>.setF (Fld.STE_FAILMAP_UNITS 0x15) 0); { u with lcs := { u.lcs with busy := some ⟨6, 0, .commit, none⟩ } })
    let req : Requester := ⟨.t, 0⟩
    let arg : Byte := 0
    s.wf = true ∧ Lets s req Reg.LCS_CMD ∧ s.lcs.busy.isSome = true := by
  decide +kernel

/-! LifecycleCompletion -/

theorem meets_LifecycleCompletion_0 :
    let dt : Nat := 0
    let b : State := State.reset
    let s : State := (let u : State := ((keyed ((b.setF (Fld.FAB_FWWR_MASK 0x15) 1).setF Fld.STE_STATUS_STATE 0)).setF Fld.LCS_STATE_STATE 2 |>.setB Fld.PWR_STATUS_NV_STOP false |>.setF (Fld.STE_FAILMAP_UNITS 0x15) 0); { u with lcs := { u.lcs with busy := some ⟨1, 0, .transition 2 3 0, some (5, 6)⟩ } })
    let src : Nat := 2
    let dst : Nat := 3
    let slot : Nat := 0
    let n0 : Nat := 5
    let n1 : Nat := 6
    s.wf = true ∧ s.lcs.busy = some ⟨1, 0, .transition src dst slot, some (n0, n1)⟩ ∧ n0 < 2 ^ 64 ∧ n1 < 2 ^ 64 := by
  decide +kernel

theorem meets_LifecycleCompletion_1 :
    let dt : Nat := 0
    let b : State := State.reset
    let s : State := (let u : State := ((keyed ((b.setF (Fld.FAB_FWWR_MASK 0x15) 1).setF Fld.STE_STATUS_STATE 0)).setF Fld.LCS_STATE_STATE 2 |>.setB Fld.PWR_STATUS_NV_STOP false |>.setF (Fld.STE_FAILMAP_UNITS 0x15) 0); { u with lcs := { u.lcs with busy := some ⟨3, 4, .nothing, none⟩ } })
    let cmd : Nat := 3
    let r : Nat := 4
    let act : LcsAct := .nothing
    s.wf = true ∧ s.lcs.busy = some ⟨cmd, r, act, none⟩ ∧ r ≠ 0 ∧ cmd < 256 ∧ r < 256 := by
  decide +kernel

theorem meets_LifecycleCompletion_2 :
    let dt : Nat := 0
    let b : State := State.reset
    let s : State := (let u : State := ((keyed ((b.setF (Fld.FAB_FWWR_MASK 0x15) 1).setF Fld.STE_STATUS_STATE 0)).setF Fld.LCS_STATE_STATE 2 |>.setB Fld.PWR_STATUS_NV_STOP false |>.setF (Fld.STE_FAILMAP_UNITS 0x15) 0); { u with lcs := { u.lcs with busy := some ⟨3, 0, .firmware wImg_fw 77, none⟩ } })
    let img : Image := wImg_fw
    let old : Nat := 77
    s.wf = true ∧ s.lcs.busy = some ⟨3, 0, .firmware img old, none⟩ ∧ s.flashStopped = false ∧ PortRoom s 0x15 ∧
      s.prv.port.length < 64 := by
  decide +kernel

theorem meets_LifecycleCompletion_3 :
    let dt : Nat := 0
    let b : State := State.reset
    let s : State := (let u : State := ((keyed ((b.setF (Fld.FAB_FWWR_MASK 0x15) 1).setF Fld.STE_STATUS_STATE 0)).setF Fld.LCS_STATE_STATE 2 |>.setB Fld.PWR_STATUS_NV_STOP false |>.setF (Fld.STE_FAILMAP_UNITS 0x15) 0); { u with lcs := { u.lcs with busy := some ⟨4, 0, .docent 1 wImg_docent 77, none⟩ } })
    let img : Image := wImg_docent
    let old : Nat := 77
    let copy : Nat := 1
    s.wf = true ∧ s.lcs.busy = some ⟨4, 0, .docent copy img old, none⟩ ∧ s.flashStopped = false ∧ PortRoom s 0x15 ∧
      s.prv.port.length < 64 := by
  decide +kernel

theorem meets_LifecycleCompletion_4 :
    let dt : Nat := 0
    let b : State := State.reset
    let s : State := (let u : State := ((keyed ((b.setF (Fld.FAB_FWWR_MASK 0x15) 1).setF Fld.STE_STATUS_STATE 0)).setF Fld.LCS_STATE_STATE 2 |>.setB Fld.PWR_STATUS_NV_STOP false |>.setF (Fld.STE_FAILMAP_UNITS 0x15) 0); { u with lcs := { u.lcs with busy := some ⟨5, 0, .bootCfg 1 wImg_boot 77, none⟩ } })
    let img : Image := wImg_boot
    let old : Nat := 77
    let copy : Nat := 1
    s.wf = true ∧ s.lcs.busy = some ⟨5, 0, .bootCfg copy img old, none⟩ ∧ s.flashStopped = false ∧ PortRoom s 0x15 ∧
      s.prv.port.length < 64 := by
  decide +kernel

theorem meets_LifecycleCompletion_5 :
    let dt : Nat := 0
    let b : State := State.reset
    let s : State := (let u : State := ((keyed ((b.setF (Fld.FAB_FWWR_MASK 0x15) 1).setF Fld.STE_STATUS_STATE 0)).setF Fld.LCS_STATE_STATE 2 |>.setB Fld.PWR_STATUS_NV_STOP false |>.setF (Fld.STE_FAILMAP_UNITS 0x15) 0); { u with lcs := { u.lcs with busy := some ⟨6, 0, .commit, none⟩, running := some wImg_fw } })
    s.wf = true ∧ s.lcs.busy = some ⟨6, 0, .commit, none⟩ ∧ PortRoom s 0x15 ∧ s.prv.port.length < 64 := by
  decide +kernel

theorem meets_LifecycleCompletion_6 :
    let dt : Nat := 0
    let b : State := State.reset
    let s : State := (let u : State := ((keyed ((b.setF (Fld.FAB_FWWR_MASK 0x15) 1).setF Fld.STE_STATUS_STATE 0)).setF Fld.LCS_STATE_STATE 2 |>.setB Fld.PWR_STATUS_NV_STOP false |>.setF (Fld.STE_FAILMAP_UNITS 0x15) 0); { u with lcs := { u.lcs with busy := some ⟨7, 0, .restart, none⟩ } })
    s.wf = true ∧ s.lcs.busy = some ⟨7, 0, .restart, none⟩ := by
  decide +kernel

/-! SelfTest -/

theorem meets_SelfTest_0 :
    let dt : Nat := 0
    let b : State := State.reset
    let s : State := (((((b.setF (Fld.FAB_FWWR_MASK 0x16) 1).setF Fld.LCS_STATE_STATE 2).wr Reg.STE_STATUS 0).setF (Fld.STE_FAILMAP_UNITS 0x10) 0).setF (Fld.FAB_FWWR_MASK 0x1A) 1)
    let req : Requester := ⟨.t, 0⟩
    let unit : Fin 16 := 7
    s.wf = true ∧ Lets s req Reg.STE_REQ ∧ s.steRefusal 0x10 unit.val = 0 ∧ (tget s.lpeUnits unit.val).passed = [] := by
  decide +kernel

theorem meets_SelfTest_1 :
    let dt : Nat := 0
    let b : State := State.reset
    let s : State := (((((b.setF (Fld.FAB_FWWR_MASK 0x16) 1).setF Fld.LCS_STATE_STATE 2).wr Reg.STE_STATUS 0).setF (Fld.STE_FAILMAP_UNITS 0x10) 0).setF (Fld.FAB_FWWR_MASK 0x1A) 1)
    let req : Requester := ⟨.t, 0⟩
    let blk : BitVec 8 := 0x10
    let unit : Fin 16 := 8
    s.wf = true ∧ Lets s req Reg.STE_REQ ∧ s.steRefusal blk.toNat unit.val ≠ 0 ∧ PortRoom s 0x14 := by
  decide +kernel

theorem meets_SelfTest_2 :
    let dt : Nat := 0
    let b : State := State.reset
    let s : State := (((((b.setF (Fld.FAB_FWWR_MASK 0x16) 1).setF Fld.LCS_STATE_STATE 2).wr Reg.STE_STATUS 0).setF (Fld.STE_FAILMAP_UNITS 0x10) 0).setF (Fld.FAB_FWWR_MASK 0x1A) 1|>.setF Fld.STE_STATUS_STATE 2 |>.setF Fld.STE_STATUS_BLOCK 0x10 |>.setF Fld.STE_STATUS_UNIT 3 |>.setB (Fld.LPE_CFG_EN 3) false)
    let sig : BitVec 64 := 0x123456789
    s.wf = true ∧ s.getF Fld.STE_STATUS_STATE ≠ 0 ∧ s.getF Fld.STE_STATUS_BLOCK = 0x10 ∧ s.deferred = [] ∧ PortRoom s 0x14 ∧
      s.prv.port.length < 64 ∧ s.bit (Fld.LPE_CFG_EN (s.getF Fld.STE_STATUS_UNIT)) = false := by
  decide +kernel

theorem meets_SelfTest_3 :
    let dt : Nat := 0
    let b : State := State.reset
    let s : State := (((((b.setF (Fld.FAB_FWWR_MASK 0x16) 1).setF Fld.LCS_STATE_STATE 2).wr Reg.STE_STATUS 0).setF (Fld.STE_FAILMAP_UNITS 0x10) 0).setF (Fld.FAB_FWWR_MASK 0x1A) 1|>.setF Fld.STE_STATUS_STATE 2 |>.setF Fld.STE_STATUS_BLOCK 0x10 |>.setF Fld.STE_STATUS_UNIT 3 |>.setB (Fld.LPE_CFG_EN 3) false)
    let sig : BitVec 64 := 0x123456789
    s.wf = true ∧ s.getF Fld.STE_STATUS_STATE ≠ 0 ∧ s.getF Fld.STE_STATUS_BLOCK = 0x10 ∧ s.deferred = [] ∧ PortRoom s 0x14 ∧
      s.prv.port.length < 64 ∧ s.getF Fld.STE_STATUS_UNIT < 8 := by
  decide +kernel

/-! Conservator -/

theorem meets_Conservator_0 :
    let dt : Nat := 0
    let b : State := State.reset
    let s : State := (let u : State := (let u : State := ((keyed ((b.setF (Fld.FAB_FWWR_MASK 0x15) 1).setF Fld.STE_STATUS_STATE 0)).setF Fld.LCS_STATE_STATE 2 |>.setB Fld.PWR_STATUS_NV_STOP false |>.setF (Fld.STE_FAILMAP_UNITS 0x15) 0); { u with lcs := { u.lcs with phase := .conservator } }); { u with cv := { u.cv with session := none }, time := { u.time with clock := 40000000000 } })
    let addr : Nat := 0
    let port : Nat := 77
    let source : Nat := 77
    let msg : List Byte := beBytes 24 0x4356010100000000000000040000000000000000630a86ce
    let q : CvReq := ⟨1, 0, 4, 0, []⟩
    s.wf = true ∧ s.lcs.phase = .conservator ∧ cvParse msg = some q ∧ q.type = 1 ∧ q.session = 0 ∧ ((s.cv.session.all fun x
      => x.2 == source && s.cv.lastSeq != some q.seq) = true) := by
  decide +kernel

theorem meets_Conservator_1 :
    let dt : Nat := 0
    let b : State := State.reset
    let s : State := (let u : State := (let u : State := ((keyed ((b.setF (Fld.FAB_FWWR_MASK 0x15) 1).setF Fld.STE_STATUS_STATE 0)).setF Fld.LCS_STATE_STATE 2 |>.setB Fld.PWR_STATUS_NV_STOP false |>.setF (Fld.STE_FAILMAP_UNITS 0x15) 0); { u with lcs := { u.lcs with phase := .conservator } }); { u with cv := { u.cv with session := some (9, 77), lastSeq := some 3, working := false }, time := { u.time with clock := 40000000000 } })
    let addr : Nat := 0
    let port : Nat := 78
    let source : Nat := 78
    let msg : List Byte := beBytes 24 0x4356010100000000000000040000000000000000630a86ce
    let q : CvReq := ⟨1, 0, 4, 0, []⟩
    let id : Nat := 9
    let src : Nat := 77
    s.wf = true ∧ s.lcs.phase = .conservator ∧ cvParse msg = some q ∧ q.type = 1 ∧ q.session = 0 ∧ s.cv.session = some (id,
      src) ∧ src ≠ source := by
  decide +kernel

theorem meets_Conservator_2 :
    let dt : Nat := 0
    let b : State := State.reset
    let s : State := (let u : State := (let u : State := ((keyed ((b.setF (Fld.FAB_FWWR_MASK 0x15) 1).setF Fld.STE_STATUS_STATE 0)).setF Fld.LCS_STATE_STATE 2 |>.setB Fld.PWR_STATUS_NV_STOP false |>.setF (Fld.STE_FAILMAP_UNITS 0x15) 0); { u with lcs := { u.lcs with phase := .conservator } }); { u with cv := { u.cv with session := some (9, 77), lastSeq := some 3, working := false, lastResp := some ⟨2, 9, 3, 7, 0, []⟩ }, time := { u.time with clock := 40000000000 } })
    let addr : Nat := 0
    let port : Nat := 77
    let source : Nat := 77
    let msg : List Byte := beBytes 24 0x4356010100000000000000030000000000000000076beb07
    let q : CvReq := ⟨1, 0, 3, 0, []⟩
    let id : Nat := 9
    let r : CvResp := ⟨2, 9, 3, 7, 0, []⟩
    s.wf = true ∧ s.lcs.phase = .conservator ∧ cvParse msg = some q ∧ q.type = 1 ∧ q.session = 0 ∧ s.cv.session = some (id,
      source) ∧ s.cv.lastSeq = some q.seq ∧ s.cv.lastResp = some r := by
  decide +kernel

theorem meets_Conservator_3 :
    let dt : Nat := 0
    let b : State := State.reset
    let s : State := (let u : State := (let u : State := ((keyed ((b.setF (Fld.FAB_FWWR_MASK 0x15) 1).setF Fld.STE_STATUS_STATE 0)).setF Fld.LCS_STATE_STATE 2 |>.setB Fld.PWR_STATUS_NV_STOP false |>.setF (Fld.STE_FAILMAP_UNITS 0x15) 0); { u with lcs := { u.lcs with phase := .conservator } }); { u with cv := { u.cv with session := some (9, 77), lastSeq := some 3, working := false }, time := { u.time with clock := 40000000000 } })
    let source : Nat := 77
    let msg : List Byte := [0x43, 0x56]
    s.wf = true ∧ ((cvParse msg).all (fun q => q.type != 1 || q.session != 0) = true) := by
  decide +kernel

theorem meets_Conservator_4 :
    let dt : Nat := 0
    let b : State := State.reset
    let s : State := (let u : State := (let u : State := ((keyed ((b.setF (Fld.FAB_FWWR_MASK 0x15) 1).setF Fld.STE_STATUS_STATE 0)).setF Fld.LCS_STATE_STATE 2 |>.setB Fld.PWR_STATUS_NV_STOP false |>.setF (Fld.STE_FAILMAP_UNITS 0x15) 0); { u with lcs := { u.lcs with phase := .conservator } }); { u with cv := { u.cv with session := some (9, 77), lastSeq := some 3, working := false }, time := { u.time with clock := 40000000000 } })
    let addr : Nat := 0
    let port : Nat := 77
    let source : Nat := 77
    let msg : List Byte := beBytes 24 0x4356010400000008000000040000000000000000cda7b92f
    s.wf = true ∧ source = addr * 65536 + port ∧ ((cvParse msg).all (fun q => s.cv.session != some (q.session, source)) =
      true) := by
  decide +kernel

theorem meets_Conservator_5 :
    let dt : Nat := 0
    let b : State := State.reset
    let s : State := (let u : State := (let u : State := ((keyed ((b.setF (Fld.FAB_FWWR_MASK 0x15) 1).setF Fld.STE_STATUS_STATE 0)).setF Fld.LCS_STATE_STATE 2 |>.setB Fld.PWR_STATUS_NV_STOP false |>.setF (Fld.STE_FAILMAP_UNITS 0x15) 0); { u with lcs := { u.lcs with phase := .conservator } }); { u with cv := { u.cv with session := some (9, 77), lastSeq := some 3, working := false }, time := { u.time with clock := 40000000000 } })
    let addr : Nat := 0
    let port : Nat := 77
    let source : Nat := 77
    let msg : List Byte := beBytes 24 0x4356010400000008000000040000000000000000cda7b92f
    s.wf = true ∧ source = addr * 65536 + port ∧ ((cvParse msg).all (fun q => s.cv.session != some (q.session, source)) =
      true) := by
  decide +kernel

theorem meets_Conservator_6 :
    let dt : Nat := 0
    let b : State := State.reset
    let s : State := (let u : State := (let u : State := ((keyed ((b.setF (Fld.FAB_FWWR_MASK 0x15) 1).setF Fld.STE_STATUS_STATE 0)).setF Fld.LCS_STATE_STATE 2 |>.setB Fld.PWR_STATUS_NV_STOP false |>.setF (Fld.STE_FAILMAP_UNITS 0x15) 0); { u with lcs := { u.lcs with phase := .conservator } }); { u with cv := { u.cv with session := some (9, 77), lastSeq := some 3, working := false }, time := { u.time with clock := 40000000000 } })
    let addr : Nat := 0
    let port : Nat := 77
    let source : Nat := 77
    let msg : List Byte := beBytes 24 0x4356010400000008000000040000000000000000cda7b92f
    s.wf = true ∧ ((cvParse msg).all (fun q => s.cv.session != some (q.session, source)) = true) := by
  decide +kernel

theorem meets_Conservator_7 :
    let dt : Nat := 0
    let b : State := State.reset
    let s : State := (let u : State := (let u : State := ((keyed ((b.setF (Fld.FAB_FWWR_MASK 0x15) 1).setF Fld.STE_STATUS_STATE 0)).setF Fld.LCS_STATE_STATE 2 |>.setB Fld.PWR_STATUS_NV_STOP false |>.setF (Fld.STE_FAILMAP_UNITS 0x15) 0); { u with lcs := { u.lcs with phase := .conservator } }); { u with cv := { u.cv with session := some (9, 77), lastSeq := some 3, working := false }, time := { u.time with clock := 40000000000 } })
    let addr : Nat := 0
    let port : Nat := 77
    let source : Nat := 77
    let msg : List Byte := beBytes 24 0x4356010400000008000000040000000000000000cda7b92f
    s.wf = true ∧ ((cvParse msg).all (fun q => s.cv.session != some (q.session, source)) = true) := by
  decide +kernel

theorem meets_Conservator_8 :
    let dt : Nat := 0
    let b : State := State.reset
    let s : State := (let u : State := (let u : State := ((keyed ((b.setF (Fld.FAB_FWWR_MASK 0x15) 1).setF Fld.STE_STATUS_STATE 0)).setF Fld.LCS_STATE_STATE 2 |>.setB Fld.PWR_STATUS_NV_STOP false |>.setF (Fld.STE_FAILMAP_UNITS 0x15) 0); { u with lcs := { u.lcs with phase := .conservator } }); { u with cv := { u.cv with session := some (9, 77), lastSeq := some 3, working := false }, time := { u.time with clock := 40000000000 } })
    let addr : Nat := 0
    let port : Nat := 77
    let source : Nat := 77
    let msg : List Byte := beBytes 24 0x4356010400000008000000040000000000000000cda7b92f
    s.wf = true ∧ ((cvParse msg).all (fun q => s.cv.session != some (q.session, source)) = true) := by
  decide +kernel

theorem meets_Conservator_9 :
    let dt : Nat := 0
    let b : State := State.reset
    let s : State := (let u : State := (let u : State := ((keyed ((b.setF (Fld.FAB_FWWR_MASK 0x15) 1).setF Fld.STE_STATUS_STATE 0)).setF Fld.LCS_STATE_STATE 2 |>.setB Fld.PWR_STATUS_NV_STOP false |>.setF (Fld.STE_FAILMAP_UNITS 0x15) 0); { u with lcs := { u.lcs with phase := .conservator } }); { u with cv := { u.cv with session := some (9, 77), lastSeq := some 3, working := false }, time := { u.time with clock := 40000000000 } })
    let addr : Nat := 0
    let port : Nat := 77
    let source : Nat := 77
    let msg : List Byte := beBytes 32 0x4356010300000009000000040000000000080000010000000000006488399370
    let q : CvReq := ⟨3, 9, 4, 0, [1, 0, 0, 0, 0, 0, 0, 100]⟩
    s.wf = true ∧ source = addr * 65536 + port ∧ s.lcs.phase = .conservator ∧ cvParse msg = some q ∧ q.type = 3 ∧
      s.cv.session = some (q.session, source) ∧ s.cv.lastSeq ≠ some q.seq ∧ s.lcState ≠ 4 ∧ s.cv.working = false ∧
      q.payload.length = 8 ∧ 1 ≤ (beNat (q.payload.take 1)) ∧ (beNat (q.payload.take 1)) ≤ 3 ∧ (beNat ((q.payload.drop
      4).take 4)) ≤ 536870912 := by
  decide +kernel

theorem meets_Conservator_10 :
    let dt : Nat := 0
    let b : State := State.reset
    let s : State := (let u : State := (let u : State := ((keyed ((b.setF (Fld.FAB_FWWR_MASK 0x15) 1).setF Fld.STE_STATUS_STATE 0)).setF Fld.LCS_STATE_STATE 4 |>.setB Fld.PWR_STATUS_NV_STOP false |>.setF (Fld.STE_FAILMAP_UNITS 0x15) 0); { u with lcs := { u.lcs with phase := .conservator } }); { u with cv := { u.cv with session := some (9, 77), lastSeq := some 3, working := false }, time := { u.time with clock := 40000000000 } })
    let addr : Nat := 0
    let port : Nat := 77
    let source : Nat := 77
    let msg : List Byte := beBytes 32 0x4356010300000009000000040000000000080000010000000000006488399370
    let q : CvReq := ⟨3, 9, 4, 0, [1, 0, 0, 0, 0, 0, 0, 100]⟩
    s.wf = true ∧ source = addr * 65536 + port ∧ s.lcs.phase = .conservator ∧ cvParse msg = some q ∧ q.type = 3 ∧
      s.cv.session = some (q.session, source) ∧ s.cv.lastSeq ≠ some q.seq ∧ s.lcState = 4 := by
  decide +kernel

theorem meets_Conservator_11 :
    let dt : Nat := 0
    let b : State := State.reset
    let s : State := (let u : State := (let u : State := ((keyed ((b.setF (Fld.FAB_FWWR_MASK 0x15) 1).setF Fld.STE_STATUS_STATE 0)).setF Fld.LCS_STATE_STATE 2 |>.setB Fld.PWR_STATUS_NV_STOP false |>.setF (Fld.STE_FAILMAP_UNITS 0x15) 0); { u with lcs := { u.lcs with phase := .conservator } }); { u with cv := { u.cv with session := some (9, 77), lastSeq := some 3, working := true }, time := { u.time with clock := 40000000000 } })
    let addr : Nat := 0
    let port : Nat := 77
    let source : Nat := 77
    let msg : List Byte := beBytes 32 0x4356010300000009000000040000000000080000010000000000006488399370
    let q : CvReq := ⟨3, 9, 4, 0, [1, 0, 0, 0, 0, 0, 0, 100]⟩
    s.wf = true ∧ source = addr * 65536 + port ∧ s.lcs.phase = .conservator ∧ cvParse msg = some q ∧ q.type = 3 ∧
      s.cv.session = some (q.session, source) ∧ s.cv.lastSeq ≠ some q.seq ∧ s.lcState ≠ 4 ∧ s.cv.working = true := by
  decide +kernel

theorem meets_Conservator_12 :
    let dt : Nat := 0
    let b : State := State.reset
    let s : State := (let u : State := (let u : State := ((keyed ((b.setF (Fld.FAB_FWWR_MASK 0x15) 1).setF Fld.STE_STATUS_STATE 0)).setF Fld.LCS_STATE_STATE 2 |>.setB Fld.PWR_STATUS_NV_STOP false |>.setF (Fld.STE_FAILMAP_UNITS 0x15) 0); { u with lcs := { u.lcs with phase := .conservator } }); { u with cv := { u.cv with session := some (9, 77), lastSeq := some 3, working := false }, time := { u.time with clock := 40000000000 } })
    let addr : Nat := 0
    let port : Nat := 77
    let source : Nat := 77
    let msg : List Byte := beBytes 32 0x43560103000000090000000400000000000800000400000000000064c0d99d14
    let q : CvReq := ⟨3, 9, 4, 0, [4, 0, 0, 0, 0, 0, 0, 100]⟩
    s.wf = true ∧ source = addr * 65536 + port ∧ s.lcs.phase = .conservator ∧ cvParse msg = some q ∧ q.type = 3 ∧
      s.cv.session = some (q.session, source) ∧ s.cv.lastSeq ≠ some q.seq ∧ s.lcState ≠ 4 ∧ s.cv.working = false ∧
      (q.payload.length ≠ 8 ∨ (beNat (q.payload.take 1)) = 0 ∨ 3 < (beNat (q.payload.take 1)) ∨ 536870912 < (beNat
      ((q.payload.drop 4).take 4))) := by
  decide +kernel

theorem meets_Conservator_13 :
    let dt : Nat := 0
    let b : State := State.reset
    let s : State := (let u : State := (let u : State := ((keyed ((b.setF (Fld.FAB_FWWR_MASK 0x15) 1).setF Fld.STE_STATUS_STATE 0)).setF Fld.LCS_STATE_STATE 2 |>.setB Fld.PWR_STATUS_NV_STOP false |>.setF (Fld.STE_FAILMAP_UNITS 0x15) 0); { u with lcs := { u.lcs with phase := .conservator } }); { u with cv := { u.cv with session := some (9, 77), lastSeq := some 3, working := false, kind := some 1, lastResp := some ⟨5, 9, 3, 7, 0, []⟩ }, time := { u.time with clock := 40000000000 } })
    let addr : Nat := 0
    let port : Nat := 77
    let source : Nat := 77
    let msg : List Byte := beBytes 32 0x43560103000000090000000300000000000800000100000000000064a8abef3b
    let q : CvReq := ⟨3, 9, 3, 0, [1, 0, 0, 0, 0, 0, 0, 100]⟩
    let r : CvResp := ⟨5, 9, 3, 7, 0, []⟩
    s.wf = true ∧ source = addr * 65536 + port ∧ s.lcs.phase = .conservator ∧ cvParse msg = some q ∧ q.type = 3 ∧
      s.cv.session = some (q.session, source) ∧ s.cv.lastSeq = some q.seq ∧ s.cv.lastResp = some r := by
  decide +kernel

theorem meets_Conservator_14 :
    let dt : Nat := 0
    let b : State := State.reset
    let s : State := (let u : State := (let u : State := ((keyed ((b.setF (Fld.FAB_FWWR_MASK 0x15) 1).setF Fld.STE_STATUS_STATE 0)).setF Fld.LCS_STATE_STATE 2 |>.setB Fld.PWR_STATUS_NV_STOP false |>.setF (Fld.STE_FAILMAP_UNITS 0x15) 0); { u with lcs := { u.lcs with phase := .conservator } }); { u with cv := { u.cv with session := some (9, 77), lastSeq := some 3, working := false, kind := some 1 }, time := { u.time with clock := 40000000000 } })
    let addr : Nat := 0
    let port : Nat := 77
    let source : Nat := 77
    let msg : List Byte := beBytes 26 0x43560104000000090000000400000000000200000102d55634f8
    let q : CvReq := ⟨4, 9, 4, 0, [1, 2]⟩
    s.wf = true ∧ source = addr * 65536 + port ∧ s.lcs.phase = .conservator ∧ cvParse msg = some q ∧ q.type = 4 ∧
      s.cv.session = some (q.session, source) ∧ s.cv.lastSeq ≠ some q.seq ∧ s.cv.working = false ∧ s.cv.kind.isSome = true ∧
      q.offset = s.cv.expected := by
  decide +kernel

theorem meets_Conservator_15 :
    let dt : Nat := 0
    let b : State := State.reset
    let s : State := (let u : State := (let u : State := ((keyed ((b.setF (Fld.FAB_FWWR_MASK 0x15) 1).setF Fld.STE_STATUS_STATE 0)).setF Fld.LCS_STATE_STATE 2 |>.setB Fld.PWR_STATUS_NV_STOP false |>.setF (Fld.STE_FAILMAP_UNITS 0x15) 0); { u with lcs := { u.lcs with phase := .conservator } }); { u with cv := { u.cv with session := some (9, 77), lastSeq := some 3, working := false, kind := some 1, expected := 3, data := [1, 2, 3] }, time := { u.time with clock := 40000000000 } })
    let addr : Nat := 0
    let port : Nat := 77
    let source : Nat := 77
    let msg : List Byte := beBytes 26 0x4356010400000009000000040000000200020000010242c925d1
    let q : CvReq := ⟨4, 9, 4, 2, [1, 2]⟩
    s.wf = true ∧ source = addr * 65536 + port ∧ s.lcs.phase = .conservator ∧ cvParse msg = some q ∧ q.type = 4 ∧
      s.cv.session = some (q.session, source) ∧ s.cv.lastSeq ≠ some q.seq ∧ s.cv.working = false ∧ s.cv.kind.isSome = true ∧
      q.offset < s.cv.expected := by
  decide +kernel

theorem meets_Conservator_16 :
    let dt : Nat := 0
    let b : State := State.reset
    let s : State := (let u : State := (let u : State := ((keyed ((b.setF (Fld.FAB_FWWR_MASK 0x15) 1).setF Fld.STE_STATUS_STATE 0)).setF Fld.LCS_STATE_STATE 2 |>.setB Fld.PWR_STATUS_NV_STOP false |>.setF (Fld.STE_FAILMAP_UNITS 0x15) 0); { u with lcs := { u.lcs with phase := .conservator } }); { u with cv := { u.cv with session := some (9, 77), lastSeq := some 3, working := false, kind := some 1, expected := 3, data := [1, 2, 3] }, time := { u.time with clock := 40000000000 } })
    let addr : Nat := 0
    let port : Nat := 77
    let source : Nat := 77
    let msg : List Byte := beBytes 26 0x43560104000000090000000400000004000200000102211910eb
    let q : CvReq := ⟨4, 9, 4, 4, [1, 2]⟩
    s.wf = true ∧ source = addr * 65536 + port ∧ s.lcs.phase = .conservator ∧ cvParse msg = some q ∧ q.type = 4 ∧
      s.cv.session = some (q.session, source) ∧ s.cv.lastSeq ≠ some q.seq ∧ s.cv.working = false ∧ (s.cv.kind = none ∨
      s.cv.expected < q.offset) := by
  decide +kernel

theorem meets_Conservator_17 :
    let dt : Nat := 0
    let b : State := State.reset
    let s : State := (let u : State := (let u : State := ((keyed ((b.setF (Fld.FAB_FWWR_MASK 0x15) 1).setF Fld.STE_STATUS_STATE 0)).setF Fld.LCS_STATE_STATE 2 |>.setB Fld.PWR_STATUS_NV_STOP false |>.setF (Fld.STE_FAILMAP_UNITS 0x15) 0); { u with lcs := { u.lcs with phase := .conservator } }); { u with cv := { u.cv with session := some (9, 77), lastSeq := some 3, working := true, kind := some 1 }, time := { u.time with clock := 40000000000 } })
    let addr : Nat := 0
    let port : Nat := 77
    let source : Nat := 77
    let msg : List Byte := beBytes 26 0x43560104000000090000000400000000000200000102d55634f8
    let q : CvReq := ⟨4, 9, 4, 0, [1, 2]⟩
    s.wf = true ∧ source = addr * 65536 + port ∧ s.lcs.phase = .conservator ∧ cvParse msg = some q ∧ q.type = 4 ∧
      s.cv.session = some (q.session, source) ∧ s.cv.lastSeq ≠ some q.seq ∧ s.cv.working = true := by
  decide +kernel

theorem meets_Conservator_18 :
    let dt : Nat := 0
    let b : State := State.reset
    let s : State := (let u : State := (let u : State := ((keyed ((b.setF (Fld.FAB_FWWR_MASK 0x15) 1).setF Fld.STE_STATUS_STATE 0)).setF Fld.LCS_STATE_STATE 2 |>.setB Fld.PWR_STATUS_NV_STOP false |>.setF (Fld.STE_FAILMAP_UNITS 0x15) 0); { u with lcs := { u.lcs with phase := .conservator } }); { u with cv := { u.cv with session := some (9, 77), lastSeq := some 3, working := false, kind := some 1, lastResp := some ⟨5, 9, 3, 7, 0, []⟩ }, time := { u.time with clock := 40000000000 } })
    let addr : Nat := 0
    let port : Nat := 77
    let source : Nat := 77
    let msg : List Byte := beBytes 26 0x43560104000000090000000300000000000200000102fc6d217b
    let q : CvReq := ⟨4, 9, 3, 0, [1, 2]⟩
    let r : CvResp := ⟨5, 9, 3, 7, 0, []⟩
    s.wf = true ∧ source = addr * 65536 + port ∧ s.lcs.phase = .conservator ∧ cvParse msg = some q ∧ q.type = 4 ∧
      s.cv.session = some (q.session, source) ∧ s.cv.lastSeq = some q.seq ∧ s.cv.lastResp = some r := by
  decide +kernel

theorem meets_Conservator_19 :
    let dt : Nat := 0
    let b : State := State.reset
    let s : State := (let u : State := (let u : State := ((keyed ((b.setF (Fld.FAB_FWWR_MASK 0x15) 1).setF Fld.STE_STATUS_STATE 0)).setF Fld.LCS_STATE_STATE 2 |>.setB Fld.PWR_STATUS_NV_STOP false |>.setF (Fld.STE_FAILMAP_UNITS 0x15) 0); { u with lcs := { u.lcs with phase := .conservator } }); { u with cv := { u.cv with session := some (9, 77), lastSeq := some 3, working := false }, time := { u.time with clock := 40000000000 } })
    let addr : Nat := 0
    let port : Nat := 77
    let source : Nat := 77
    let msg : List Byte := beBytes 24 0x4356010600000009000000040000000000000000c40df06d
    let q : CvReq := ⟨6, 9, 4, 0, []⟩
    s.wf = true ∧ s.lcs.phase = .conservator ∧ cvParse msg = some q ∧ q.type = 6 ∧ s.cv.session = some (q.session, source) ∧
      s.cv.result = none ∧ s.cv.working = false ∧ s.cv.kind = none := by
  decide +kernel

theorem meets_Conservator_20 :
    let dt : Nat := 0
    let b : State := State.reset
    let s : State := (let u : State := (let u : State := ((keyed ((b.setF (Fld.FAB_FWWR_MASK 0x15) 1).setF Fld.STE_STATUS_STATE 0)).setF Fld.LCS_STATE_STATE 2 |>.setB Fld.PWR_STATUS_NV_STOP false |>.setF (Fld.STE_FAILMAP_UNITS 0x15) 0); { u with lcs := { u.lcs with phase := .conservator } }); { u with cv := { u.cv with session := some (9, 77), lastSeq := some 3, working := true, kind := some 2 }, time := { u.time with clock := 40000000000 } })
    let addr : Nat := 0
    let port : Nat := 77
    let source : Nat := 77
    let msg : List Byte := beBytes 24 0x4356010600000009000000040000000000000000c40df06d
    let q : CvReq := ⟨6, 9, 4, 0, []⟩
    s.wf = true ∧ s.lcs.phase = .conservator ∧ cvParse msg = some q ∧ q.type = 6 ∧ s.cv.session = some (q.session, source) ∧
      s.cv.result = none ∧ s.cv.working = true := by
  decide +kernel

theorem meets_Conservator_21 :
    let dt : Nat := 0
    let b : State := State.reset
    let s : State := (let u : State := (let u : State := ((keyed ((b.setF (Fld.FAB_FWWR_MASK 0x15) 1).setF Fld.STE_STATUS_STATE 0)).setF Fld.LCS_STATE_STATE 2 |>.setB Fld.PWR_STATUS_NV_STOP false |>.setF (Fld.STE_FAILMAP_UNITS 0x15) 0); { u with lcs := { u.lcs with phase := .conservator } }); { u with cv := { u.cv with session := some (9, 77), lastSeq := some 3, working := false, kind := some 2 }, time := { u.time with clock := 40000000000 } })
    let addr : Nat := 0
    let port : Nat := 77
    let source : Nat := 77
    let msg : List Byte := beBytes 24 0x4356010600000009000000040000000000000000c40df06d
    let q : CvReq := ⟨6, 9, 4, 0, []⟩
    s.wf = true ∧ s.lcs.phase = .conservator ∧ cvParse msg = some q ∧ q.type = 6 ∧ s.cv.session = some (q.session, source) ∧
      s.cv.result = none ∧ s.cv.working = false ∧ s.cv.kind.isSome = true ∧ (s.cvCheck ≠ 0 ∨ s.flashStopped = true) := by
  decide +kernel

theorem meets_Conservator_22 :
    let dt : Nat := 0
    let b : State := State.reset
    let s : State := (let u : State := (let u : State := ((keyed ((b.setF (Fld.FAB_FWWR_MASK 0x15) 1).setF Fld.STE_STATUS_STATE 0)).setF Fld.LCS_STATE_STATE 2 |>.setB Fld.PWR_STATUS_NV_STOP false |>.setF (Fld.STE_FAILMAP_UNITS 0x15) 0); { u with lcs := { u.lcs with phase := .conservator } }); { u with cv := { u.cv with session := some (9, 77), lastSeq := some 3, working := false, kind := some 1, data := wImg_fw.bytes, expected := wImg_fw.bytes.length, total := wImg_fw.bytes.length }, time := { u.time with clock := 40000000000 } })
    let addr : Nat := 0
    let port : Nat := 77
    let source : Nat := 77
    let msg : List Byte := beBytes 24 0x4356010600000009000000040000000000000000c40df06d
    let q : CvReq := ⟨6, 9, 4, 0, []⟩
    s.wf = true ∧ s.lcs.phase = .conservator ∧ cvParse msg = some q ∧ q.type = 6 ∧ s.cv.session = some (q.session, source) ∧
      s.cv.result = none ∧ s.cv.working = false ∧ s.cv.kind = some 1 ∧ s.cvCheck = 0 ∧ s.flashStopped = false := by
  decide +kernel

theorem meets_Conservator_23 :
    let dt : Nat := 0
    let b : State := State.reset
    let s : State := (let u : State := (let u : State := ((keyed ((b.setF (Fld.FAB_FWWR_MASK 0x15) 1).setF Fld.STE_STATUS_STATE 0)).setF Fld.LCS_STATE_STATE 2 |>.setB Fld.PWR_STATUS_NV_STOP false |>.setF (Fld.STE_FAILMAP_UNITS 0x15) 0); { u with lcs := { u.lcs with phase := .conservator } }); { u with cv := { u.cv with session := some (9, 77), lastSeq := some 3, working := false, kind := some 2, data := wImg_docent.bytes, expected := wImg_docent.bytes.length, total := wImg_docent.bytes.length }, time := { u.time with clock := 40000000000 } })
    let addr : Nat := 0
    let port : Nat := 77
    let source : Nat := 77
    let msg : List Byte := beBytes 24 0x4356010600000009000000040000000000000000c40df06d
    let q : CvReq := ⟨6, 9, 4, 0, []⟩
    s.wf = true ∧ s.lcs.phase = .conservator ∧ cvParse msg = some q ∧ q.type = 6 ∧ s.cv.session = some (q.session, source) ∧
      s.cv.result = none ∧ s.cv.working = false ∧ s.cv.kind = some 2 ∧ s.cvCheck = 0 ∧ s.flashStopped = false := by
  decide +kernel

theorem meets_Conservator_24 :
    let dt : Nat := 0
    let b : State := State.reset
    let s : State := (let u : State := (let u : State := ((keyed ((b.setF (Fld.FAB_FWWR_MASK 0x15) 1).setF Fld.STE_STATUS_STATE 0)).setF Fld.LCS_STATE_STATE 2 |>.setB Fld.PWR_STATUS_NV_STOP false |>.setF (Fld.STE_FAILMAP_UNITS 0x15) 0); { u with lcs := { u.lcs with phase := .conservator } }); { u with cv := { u.cv with session := some (9, 77), lastSeq := some 3, working := false, kind := some 3, data := wImg_boot.bytes, expected := wImg_boot.bytes.length, total := wImg_boot.bytes.length }, time := { u.time with clock := 40000000000 } })
    let addr : Nat := 0
    let port : Nat := 77
    let source : Nat := 77
    let msg : List Byte := beBytes 24 0x4356010600000009000000040000000000000000c40df06d
    let q : CvReq := ⟨6, 9, 4, 0, []⟩
    s.wf = true ∧ s.lcs.phase = .conservator ∧ cvParse msg = some q ∧ q.type = 6 ∧ s.cv.session = some (q.session, source) ∧
      s.cv.result = none ∧ s.cv.working = false ∧ s.cv.kind = some 3 ∧ s.cvCheck = 0 ∧ s.flashStopped = false := by
  decide +kernel

theorem meets_Conservator_25 :
    let dt : Nat := 0
    let b : State := State.reset
    let s : State := (let u : State := (let u : State := ((keyed ((b.setF (Fld.FAB_FWWR_MASK 0x15) 1).setF Fld.STE_STATUS_STATE 0)).setF Fld.LCS_STATE_STATE 2 |>.setB Fld.PWR_STATUS_NV_STOP false |>.setF (Fld.STE_FAILMAP_UNITS 0x15) 0); { u with lcs := { u.lcs with phase := .conservator } }); { u with cv := { u.cv with session := some (9, 77), lastSeq := some 3, working := false, kind := some 2, result := some 0 }, time := { u.time with clock := 40000000000 } })
    let addr : Nat := 0
    let port : Nat := 77
    let source : Nat := 77
    let msg : List Byte := beBytes 24 0x4356010600000009000000040000000000000000c40df06d
    let q : CvReq := ⟨6, 9, 4, 0, []⟩
    let r : Nat := 0
    s.wf = true ∧ s.lcs.phase = .conservator ∧ cvParse msg = some q ∧ q.type = 6 ∧ s.cv.session = some (q.session, source) ∧
      s.cv.result = some r := by
  decide +kernel

theorem meets_Conservator_26 :
    let dt : Nat := 0
    let b : State := State.reset
    let s : State := (let u : State := (let u : State := ((keyed ((b.setF (Fld.FAB_FWWR_MASK 0x15) 1).setF Fld.STE_STATUS_STATE 0)).setF Fld.LCS_STATE_STATE 2 |>.setB Fld.PWR_STATUS_NV_STOP false |>.setF (Fld.STE_FAILMAP_UNITS 0x15) 0); { u with lcs := { u.lcs with phase := .conservator } }); { u with cv := { u.cv with session := some (9, 77), kind := some 1, working := true, data := wImg_fw.bytes, expected := wImg_fw.bytes.length, total := wImg_fw.bytes.length }, time := { u.time with clock := 40000000000 } })
    let img : Image := parseImage s.cv.data
    s.wf = true ∧ s.lcs.phase = .conservator ∧ s.cv.working = true ∧ s.cv.kind = some 1 ∧ img = parseImage s.cv.data ∧
      s.cvCheck = 0 ∧ s.flashStopped = false := by
  decide +kernel

theorem meets_Conservator_27 :
    let dt : Nat := 0
    let b : State := State.reset
    let s : State := (let u : State := (let u : State := ((keyed ((b.setF (Fld.FAB_FWWR_MASK 0x15) 1).setF Fld.STE_STATUS_STATE 0)).setF Fld.LCS_STATE_STATE 2 |>.setB Fld.PWR_STATUS_NV_STOP false |>.setF (Fld.STE_FAILMAP_UNITS 0x15) 0); { u with lcs := { u.lcs with phase := .conservator } }); { u with cv := { u.cv with session := some (9, 77), kind := some 2, working := true, data := wImg_docent.bytes, expected := wImg_docent.bytes.length, total := wImg_docent.bytes.length }, time := { u.time with clock := 40000000000 } })
    let img : Image := parseImage s.cv.data
    s.wf = true ∧ s.lcs.phase = .conservator ∧ s.cv.working = true ∧ s.cv.kind = some 2 ∧ img = parseImage s.cv.data ∧
      s.cvCheck = 0 ∧ s.flashStopped = false := by
  decide +kernel

theorem meets_Conservator_28 :
    let dt : Nat := 0
    let b : State := State.reset
    let s : State := (let u : State := (let u : State := ((keyed ((b.setF (Fld.FAB_FWWR_MASK 0x15) 1).setF Fld.STE_STATUS_STATE 0)).setF Fld.LCS_STATE_STATE 2 |>.setB Fld.PWR_STATUS_NV_STOP false |>.setF (Fld.STE_FAILMAP_UNITS 0x15) 0); { u with lcs := { u.lcs with phase := .conservator } }); { u with cv := { u.cv with session := some (9, 77), kind := some 3, working := true, data := wImg_boot.bytes, expected := wImg_boot.bytes.length, total := wImg_boot.bytes.length }, time := { u.time with clock := 40000000000 } })
    let img : Image := parseImage s.cv.data
    s.wf = true ∧ s.lcs.phase = .conservator ∧ s.cv.working = true ∧ s.cv.kind = some 3 ∧ img = parseImage s.cv.data ∧
      s.cvCheck = 0 ∧ s.flashStopped = false := by
  decide +kernel

theorem meets_Conservator_29 :
    let dt : Nat := 0
    let b : State := State.reset
    let s : State := (let u : State := (let u : State := ((keyed ((b.setF (Fld.FAB_FWWR_MASK 0x15) 1).setF Fld.STE_STATUS_STATE 0)).setF Fld.LCS_STATE_STATE 2 |>.setB Fld.PWR_STATUS_NV_STOP false |>.setF (Fld.STE_FAILMAP_UNITS 0x15) 0); { u with lcs := { u.lcs with phase := .conservator } }); { u with cv := { u.cv with session := some (9, 77), kind := some 2, working := true, data := wImg_docent.bytes, expected := wImg_docent.bytes.length, total := wImg_docent.bytes.length }, time := { u.time with clock := 40000000000 } })
    let written : Bool := false
    s.wf = true ∧ s.lcs.phase = .conservator ∧ s.cv.working = true ∧ s.cvCheck = 0 ∧ (written = false ∨ s.flashStopped =
      true) := by
  decide +kernel

theorem meets_Conservator_30 :
    let dt : Nat := 0
    let b : State := State.reset
    let s : State := (let u : State := (let u : State := ((keyed ((b.setF (Fld.FAB_FWWR_MASK 0x15) 1).setF Fld.STE_STATUS_STATE 0)).setF Fld.LCS_STATE_STATE 2 |>.setB Fld.PWR_STATUS_NV_STOP false |>.setF (Fld.STE_FAILMAP_UNITS 0x15) 0); { u with lcs := { u.lcs with phase := .conservator } }); { u with cv := { u.cv with session := some (9, 77), kind := some 1, working := true }, time := { u.time with clock := 40000000000 } })
    let written : Bool := true
    s.wf = true ∧ s.lcs.phase = .conservator ∧ s.cv.working = true ∧ s.cvCheck ≠ 0 ∧ PortRoom s 0x15 := by
  decide +kernel

theorem meets_Conservator_31 :
    let dt : Nat := 0
    let b : State := State.reset
    let s : State := (let u : State := (let u : State := ((keyed ((b.setF (Fld.FAB_FWWR_MASK 0x15) 1).setF Fld.STE_STATUS_STATE 0)).setF Fld.LCS_STATE_STATE 2 |>.setB Fld.PWR_STATUS_NV_STOP false |>.setF (Fld.STE_FAILMAP_UNITS 0x15) 0); { u with lcs := { u.lcs with phase := .conservator } }); { u with cv := { u.cv with session := some (9, 77), lastSeq := some 3, working := false }, time := { u.time with clock := 40000000000 } })
    let addr : Nat := 0
    let port : Nat := 77
    let source : Nat := 77
    let msg : List Byte := beBytes 24 0x4356010800000009000000040000000000000000852908fb
    let q : CvReq := ⟨8, 9, 4, 0, []⟩
    s.wf = true ∧ s.lcs.phase = .conservator ∧ cvParse msg = some q ∧ q.type = 8 ∧ s.cv.session = some (q.session, source) ∧
      s.cv.lastSeq ≠ some q.seq := by
  decide +kernel

theorem meets_Conservator_32 :
    let dt : Nat := 0
    let b : State := State.reset
    let s : State := (let u : State := (let u : State := ((keyed ((b.setF (Fld.FAB_FWWR_MASK 0x15) 1).setF Fld.STE_STATUS_STATE 0)).setF Fld.LCS_STATE_STATE 2 |>.setB Fld.PWR_STATUS_NV_STOP false |>.setF (Fld.STE_FAILMAP_UNITS 0x15) 0); { u with lcs := { u.lcs with phase := .conservator } }); { u with cv := { u.cv with session := some (9, 77), lastSeq := some 3, working := false }, time := { u.time with clock := 40000000000 } })
    let addr : Nat := 0
    let port : Nat := 77
    let source : Nat := 77
    let msg : List Byte := beBytes 24 0x4356010900000009000000040000000000000000028fc3b8
    let q : CvReq := ⟨9, 9, 4, 0, []⟩
    s.wf = true ∧ s.lcs.phase = .conservator ∧ cvParse msg = some q ∧ q.type = 9 ∧ s.cv.session = some (q.session, source) ∧
      s.cv.lastSeq ≠ some q.seq ∧ s.cv.working = false := by
  decide +kernel

theorem meets_Conservator_33 :
    let dt : Nat := 0
    let b : State := State.reset
    let s : State := (let u : State := (let u : State := ((keyed ((b.setF (Fld.FAB_FWWR_MASK 0x15) 1).setF Fld.STE_STATUS_STATE 0)).setF Fld.LCS_STATE_STATE 2 |>.setB Fld.PWR_STATUS_NV_STOP false |>.setF (Fld.STE_FAILMAP_UNITS 0x15) 0); { u with lcs := { u.lcs with phase := .conservator } }); { u with cv := { u.cv with session := some (9, 77), lastSeq := some 3, working := true, kind := some 1 }, time := { u.time with clock := 40000000000 } })
    let addr : Nat := 0
    let port : Nat := 77
    let source : Nat := 77
    let msg : List Byte := beBytes 24 0x4356010900000009000000040000000000000000028fc3b8
    let q : CvReq := ⟨9, 9, 4, 0, []⟩
    s.wf = true ∧ s.lcs.phase = .conservator ∧ cvParse msg = some q ∧ q.type = 9 ∧ s.cv.session = some (q.session, source) ∧
      s.cv.lastSeq ≠ some q.seq ∧ s.cv.working = true := by
  decide +kernel

theorem meets_Conservator_34 :
    let dt : Nat := 0
    let b : State := State.reset
    let s : State := (let u : State := (let u : State := ((keyed ((b.setF (Fld.FAB_FWWR_MASK 0x15) 1).setF Fld.STE_STATUS_STATE 0)).setF Fld.LCS_STATE_STATE 2 |>.setB Fld.PWR_STATUS_NV_STOP false |>.setF (Fld.STE_FAILMAP_UNITS 0x15) 0); { u with lcs := { u.lcs with phase := .conservator } }); { u with cv := { u.cv with session := some (9, 77), lastSeq := some 3, working := false }, time := { u.time with clock := 40000000000 } })
    s.wf = true ∧ s.cv.session.isSome = true ∧ s.cv.lastAt + 30000000000 ≤ (s.elapse dt).time.clock := by
  decide +kernel

theorem meets_Conservator_35 :
    let dt : Nat := 0
    let b : State := State.reset
    let s : State := (let u : State := (let u : State := ((keyed ((b.setF (Fld.FAB_FWWR_MASK 0x15) 1).setF Fld.STE_STATUS_STATE 0)).setF Fld.LCS_STATE_STATE 2 |>.setB Fld.PWR_STATUS_NV_STOP false |>.setF (Fld.STE_FAILMAP_UNITS 0x15) 0); { u with lcs := { u.lcs with phase := .conservator } }); { u with cv := { u.cv with session := none }, time := { u.time with clock := 40000000000 } })
    s.wf = true ∧ (s.cv.session = none ∨ (s.elapse dt).time.clock < s.cv.lastAt + 30000000000) := by
  decide +kernel

end Sys2Proof.Tests
end

/-! Time: the loss of the reference (R59, R61, R71), and the outcome of an announcement (R82). -/

namespace Sys2Proof.Proofs.Time

open Sys2Proof Sys2Proof.Machine Sys2Proof.Laws

/-! ### Reads beside the word or the field written -/

theorem rdw_inc64_ne {s : State} {a b : Nat} (h : a ≠ b) (h' : a + 4 ≠ b) : (s.inc64 a).rdw b = s.rdw b := by
  simp [State.inc64, State.add64, State.wr64, h, h']

theorem rdw_setF_ne {s : State} {f : Field} {b : Nat} (hf : f.lo + f.len ≤ 32) (h : f.addr ≠ b) (v : Nat) :
    (s.setF f v).rdw b = s.rdw b := by
  simp [State.setF, hf, h]

theorem rd64_setF_ne {s : State} {f : Field} {b : Nat} (hf : f.lo + f.len ≤ 32) (h : f.addr ≠ b) (h' : f.addr ≠ b + 4)
    (v : Nat) : (s.setF f v).rd64 b = s.rd64 b := by
  simp [State.setF, hf, h, h']

theorem getF_inc64_ne {s : State} {a : Nat} {f : Field} (hf : f.lo + f.len ≤ 32) (h : a ≠ f.addr) (h' : a + 4 ≠ f.addr) :
    (s.inc64 a).getF f = s.getF f := by
  simp [State.getF, hf, h, h']

/-! ### A change of the counts of time changes no register -/

theorem rdw_modTime (s : State) (f : TimeSt → TimeSt) (a : Nat) : (s.modTime f).rdw a = s.rdw a := rfl
theorem rd64_modTime (s : State) (f : TimeSt → TimeSt) (a : Nat) : (s.modTime f).rd64 a = s.rd64 a := rfl
theorem getF_modTime (s : State) (f : TimeSt → TimeSt) (g : Field) : (s.modTime f).getF g = s.getF g := rfl
theorem bit_modTime (s : State) (f : TimeSt → TimeSt) (g : Field) : (s.modTime f).bit g = s.bit g := rfl

/-! ### Module time that passes changes neither registers nor memory -/

theorem regsKept_of_elapse {s t : State} {dt : Nat} {ws : List Nat} (h : RegsKept ws (s.elapse dt) t) : RegsKept ws s t := h
theorem memKept_of_elapse {s t : State} {dt : Nat} (h : MemKept (s.elapse dt) t) : MemKept s t := h
theorem counted_of_elapse {s t : State} {dt a n : Nat} (h : Counted a n (s.elapse dt) t) : Counted a n s t := h

/-! ### Operations that write registers only -/

/-- Only the register file differs. -/
def OnlyRegs (s t : State) : Prop := t = { s with regs := t.regs }

theorem OnlyRegs.trans {s t u : State} (h : OnlyRegs s t) (k : OnlyRegs t u) : OnlyRegs s u :=
  Eq.trans k (congrArg (fun x : State => { x with regs := u.regs }) h)

theorem onlyRegs_inc64 (s : State) (a : Nat) : OnlyRegs s (s.inc64 a) := rfl

theorem onlyRegs_setF (s : State) (f : Field) (v : Nat) : OnlyRegs s (s.setF f v) := by
  unfold State.setF
  split <;> rfl

theorem onlyRegs_setB (s : State) (f : Field) (b : Bool) : OnlyRegs s (s.setB f b) := onlyRegs_setF ..

/-! ### HOLDOVER -/

/-- HOLDOVER names no source (R59, assumption 10). -/
theorem setTimeState_holdover (s : State) :
    s.setTimeState 3 = (s.setF Fld.TIM_STATUS_STATE 3).setF Fld.TIM_STATUS_SRC 0 := rfl

theorem onlyRegs_holdover (s : State) : OnlyRegs s (s.setTimeState 3) :=
  (onlyRegs_setF ..).trans (onlyRegs_setF ..)

theorem regsWf_holdover {s : State} (h : s.regsWf = true) : (s.setTimeState 3).regsWf = true :=
  regsWf_setF _ _ (regsWf_setF _ _ h)

theorem getF_holdover_state {s : State} (h : s.regsWf = true) : (s.setTimeState 3).getF Fld.TIM_STATUS_STATE = 3 := by
  rw [setTimeState_holdover, getF_setF_ne (by decide) (by decide) (by decide) _ (regsWf_setF _ _ h),
    getF_setF_self (by decide) _ h]
  rfl

theorem getF_holdover_src {s : State} (h : s.regsWf = true) : (s.setTimeState 3).getF Fld.TIM_STATUS_SRC = 0 := by
  rw [setTimeState_holdover, getF_setF_self (by decide) _ (regsWf_setF _ _ h)]
  rfl

theorem rdw_holdover_ne {s : State} {a : Nat} (ha : Reg.TIM_STATUS ≠ a) : (s.setTimeState 3).rdw a = s.rdw a := by
  rw [setTimeState_holdover, rdw_setF_ne (by decide) ha, rdw_setF_ne (by decide) ha]

/-! ### The loss of the reference -/

/-- The flag and the count of a loss. -/
def lossCounted (s : State) : State := (s.setB Fld.TIM_FLAGS_REF_LOST true).inc64 Reg.TIM_REFLOSS

/-- All register writes of a loss: its flag and count, HOLDOVER, and no waiting step (R59, R71). -/
def lossRegs (s : State) : State := ((lossCounted s).setTimeState 3).setB Fld.TIM_STATUS_STEP_PENDING false

/-- A loss writes these registers, and ends the reference in the counts of time. -/
theorem loseRef_eq (s : State) : s.loseRef = (lossRegs s).modTime
    fun t => { t with refPresent := false, phaseNext := 0, ppsLast := none, refusedFor := none } := rfl

theorem refPresent_loseRef (s : State) : s.loseRef.time.refPresent = false := by rw [loseRef_eq]; rfl

/-- The command loses a present reference that is not PPS, or whose last pulse is 1.5 s old (R59, R61). -/
theorem exec_refLost (s : State) (dt : Nat) (hp : s.time.refPresent = true)
    (hd : (s.time.ppsLast.all fun p =>
      s.time.grandmaster != ppsSource || decide (p + 1500000000 ≤ (s.elapse dt).time.clock)) = true) :
    exec (.refLost dt) s = .next (s.elapse dt).loseRef := by
  show execRefLost dt s = _
  have hpresent : (s.elapse dt).time.refPresent = true := hp
  have hlast : (s.elapse dt).time.ppsLast = s.time.ppsLast := rfl
  have hsource : (s.elapse dt).time.grandmaster = s.time.grandmaster := rfl
  cases hc : s.time.ppsLast with
  | none => simp [execRefLost, hpresent, hlast, hc]
  | some p =>
    rw [hc, Option.all_some] at hd
    simp only [execRefLost, hpresent, hlast, hsource, hc, hd, Bool.and_self, if_true]

section
variable {s : State} (h : s.regsWf = true)
include h

theorem regsWf_lossCounted : (lossCounted s).regsWf = true := regsWf_inc64 _ (regsWf_setB _ _ h)

theorem bit_lossCounted : (lossCounted s).bit Fld.TIM_FLAGS_REF_LOST = true := by
  rw [State.bit, lossCounted, getF_inc64_ne (by decide) (by decide) (by decide)]
  exact bit_setB_self (by decide) rfl true h

theorem counted_lossCounted : Counted Reg.TIM_REFLOSS 1 s (lossCounted s) := by
  rw [Counted, lossCounted, rd64_inc64_self _ (regsWf_setB _ _ h), State.setB,
    rd64_setF_ne (by decide) (by decide) (by decide)]

omit h in
/-- Beyond its flag and count a loss writes TIM_STATUS alone. -/
theorem rdw_loseRef_of_ne_status {a : Nat} (ha : Reg.TIM_STATUS ≠ a) : s.loseRef.rdw a = (lossCounted s).rdw a := by
  rw [loseRef_eq, rdw_modTime, lossRegs, State.setB, rdw_setF_ne (by decide) ha, rdw_holdover_ne ha]

theorem timeState_loseRef : s.loseRef.timeState = 3 := by
  have hw := regsWf_lossCounted h
  rw [State.timeState, loseRef_eq, getF_modTime, lossRegs, State.setB,
    getF_setF_ne (by decide) (by decide) (by decide) _ (regsWf_holdover hw), getF_holdover_state hw]

theorem getF_loseRef_src : s.loseRef.getF Fld.TIM_STATUS_SRC = 0 := by
  have hw := regsWf_lossCounted h
  rw [loseRef_eq, getF_modTime, lossRegs, State.setB,
    getF_setF_ne (by decide) (by decide) (by decide) _ (regsWf_holdover hw), getF_holdover_src hw]

theorem bit_loseRef_stepPending : s.loseRef.bit Fld.TIM_STATUS_STEP_PENDING = false := by
  rw [loseRef_eq, bit_modTime, lossRegs]
  exact bit_setB_self (by decide) rfl false (regsWf_holdover (regsWf_lossCounted h))

theorem bit_loseRef_refLost : s.loseRef.bit Fld.TIM_FLAGS_REF_LOST = true := by
  have hflags := rdw_loseRef_of_ne_status (s := s) (a := Reg.TIM_FLAGS) (by decide)
  rw [← bit_lossCounted h]
  simp [State.bit, State.getF, State.rd, hflags]

theorem counted_loseRef : Counted Reg.TIM_REFLOSS 1 s s.loseRef := by
  have hlow := rdw_loseRef_of_ne_status (s := s) (a := Reg.TIM_REFLOSS) (by decide)
  have hhigh := rdw_loseRef_of_ne_status (s := s) (a := Reg.TIM_REFLOSS + 4) (by decide)
  rw [Counted, ← counted_lossCounted h]
  simp [State.rd64, State.rd, hlow, hhigh]

end

theorem regsKept_loseRef (s : State) : RegsKept ([Reg.TIM_STATUS, Reg.TIM_FLAGS] ++ two Reg.TIM_REFLOSS) s s.loseRef := by
  intro a ha
  obtain ⟨hstatus, hflags, hlow, hhigh⟩ :
      Reg.TIM_STATUS ≠ a ∧ Reg.TIM_FLAGS ≠ a ∧ Reg.TIM_REFLOSS ≠ a ∧ Reg.TIM_REFLOSS + 4 ≠ a := by
    simpa [eq_comm] using ha
  rw [rdw_loseRef_of_ne_status hstatus, lossCounted, rdw_inc64_ne hlow hhigh, State.setB, rdw_setF_ne (by decide) hflags]

theorem onlyRegs_lossRegs (s : State) : OnlyRegs s (lossRegs s) := by
  unfold lossRegs lossCounted
  exact (((onlyRegs_setB ..).trans (onlyRegs_inc64 ..)).trans (onlyRegs_holdover _)).trans (onlyRegs_setB ..)

theorem memKept_loseRef (s : State) : MemKept s s.loseRef := by
  intro a
  rw [loseRef_eq, onlyRegs_lossRegs]
  rfl

/-- But for its registers, a loss changes only the four counts of time that it ends. -/
theorem leaves_loseRef (s : State) (dt : Nat) (hp : s.time.refPresent = true) :
    Leaves dt ([Reg.TIM_STATUS, Reg.TIM_FLAGS] ++ two Reg.TIM_REFLOSS) s (s.elapse dt).loseRef
      { (s.elapse dt).loseRef with
        time := { (s.elapse dt).loseRef.time with
          refPresent := true, phaseNext := s.time.phaseNext, ppsLast := s.time.ppsLast, refusedFor := s.time.refusedFor } } := by
  refine ⟨regsKept_of_elapse (regsKept_loseRef _), memKept_of_elapse (memKept_loseRef _), ?_⟩
  rw [loseRef_eq, onlyRegs_lossRegs, ← hp]
  rfl

/-- Settles O8: the registers of a loss, each by its own lemma, and by `leaves_loseRef` the loss changes nothing else. -/
theorem referenceLoss : Obligations.ReferenceLoss := by
  intro s dt hs hp hd
  have hw : (s.elapse dt).regsWf = true := (Bool.and_eq_true_iff.mp hs).1
  exact ⟨(s.elapse dt).loseRef, exec_refLost s dt hp hd, timeState_loseRef hw, getF_loseRef_src hw, bit_loseRef_stepPending hw,
    bit_loseRef_refLost hw, counted_of_elapse (counted_loseRef hw), refPresent_loseRef _, leaves_loseRef s dt hp⟩

/-! ### The outcome of an announcement -/

/-- A module with both host ports, 8 and 9, in VLAN 5. -/
def hostsInVlan5 (s : State) : State := (s.setB (Fld.ETH_VLAN_EN 5) true).setF (Fld.ETH_VLAN_MEMBER 5) 0x300

/-- Static entry 0 sends 01-00-5E-00-00-01, the address of the group 224.0.0.1, in VLAN 5 to port 9 (R350). -/
def groupToPort9 (s : State) : State :=
  (s.wr64 (Reg.ETH_FDBS 0) 0x0005_0100_005E_0001).wr64 (Reg.ETH_FDBS 0 + 8) 0x1_0200

/-- Snapshot 5 at 1 s, to be announced in VLAN 5 to the group 224.0.0.1 by a requester of class T (R81, R379). -/
def announcementReady (s : State) : State :=
  let s := (s.setF (Fld.FAB_FWWR_MASK 0x18) 1).setF Fld.STE_STATUS_STATE 0
  let s := (s.wr Reg.TRDP_INVGRP 0xE0000001).wr Reg.TRDP_INVCFG 5
  (s.wr Reg.INV_ANN_ID 5).wr64 Reg.INV_ANN_MT 1000000000

/-- The Triad, which hears the group at port 9, is about to announce: the counterexample to O9. -/
def groupHeardAtPort9 : State := groupToPort9 (hostsInVlan5 (announcementReady State.reset))

/-- The Triad as a requester. -/
def voted : Requester := ⟨.t, 0⟩

/-- The state after the announcement. -/
def announcedToPort9 : State := (groupHeardAtPort9.elapse 0).regCmd voted Reg.INV_ANN_GO (·.annGo true)

theorem exec_announceToPort9 : exec (.invAnnGo 0 voted true) groupHeardAtPort9 = .next announcedToPort9 := rfl

theorem lets_announce : Lets groupHeardAtPort9 voted Reg.INV_ANN_GO := by decide +kernel

/-- The frame of the announcement is a telegram that the TRDP engine takes for host 1, so block 0x0B counts (R366, R379). -/
theorem rxtel_counts_announcement :
    groupHeardAtPort9.rdw (Reg.TRDP_RXTEL 1) = 0 ∧ announcedToPort9.rdw (Reg.TRDP_RXTEL 1) = 1 := by decide +kernel

/-- Refutes O9: a local announcement that is accepted leaves as a frame through the switch, and where a static entry sends the
group to port 9 the engine of host 1 counts that frame in TRDP_RXTEL_1, a register of block 0x0B, which the frame of the
statement's second part does not admit. -/
theorem not_announcementOutcome : ¬ Obligations.AnnouncementOutcome := by
  intro h
  obtain ⟨-, hlocal⟩ := h groupHeardAtPort9 0 (by decide +kernel)
  obtain ⟨t, hexec, -, -, -, -, hkept, -⟩ := hlocal voted _ lets_announce (by decide +kernel) (by decide +kernel) rfl
  obtain rfl : announcedToPort9 = t := Host.Outcome.next.inj (exec_announceToPort9.symm.trans hexec)
  have hsame := hkept (Reg.TRDP_RXTEL 1) (by decide)
  rw [rxtel_counts_announcement.1, rxtel_counts_announcement.2] at hsame
  exact absurd hsame (by decide)

end Sys2Proof.Proofs.Time

/-! Measurement chain: the arm of a scheduled SYNC (R303). -/

namespace Sys2Proof.Proofs.Measurement

open Sys2Proof Sys2Proof.Machine Sys2Proof.Laws Sys2Proof.Proofs.Time

/-! ### A register write that a requester is let to make -/

theorem lets_elapse {s : State} {req : Requester} {a : Nat} (h : Lets s req a) (dt : Nat) : Lets (s.elapse dt) req a := h

/-- A requester with an empty store buffer has no earlier stores to finish (R231). -/
theorem prior_of_storeBuf_empty {s : State} {req : Requester}
    (h : State.isApp req = true → tget s.app.storeBuf (s.hartOf req.core) = []) : s.prior req = s := by
  unfold State.prior
  split
  case isTrue happ => rw [State.drain, h happ]
  case isFalse => rfl

/-- A register write that is let takes effect, and is answered DONE. -/
theorem regCmd_of_lets {s : State} {req : Requester} {a : Nat} (h : Lets s req a) (f : State → State) :
    s.regCmd req a f = (f s).respond 0 0 := by
  obtain ⟨hissues, hbuf, hheld, hfw, htest⟩ := h
  simp [State.regCmd, hissues, hheld, prior_of_storeBuf_empty hbuf, hfw, htest]

/-! ### A change of registers alone, and the answer, keep the memory -/

theorem memKept_of_onlyRegs {s t : State} (h : OnlyRegs s t) : MemKept s t := by
  intro a
  rw [h]
  rfl

theorem counted_respond {s t : State} {a n : Nat} (h : Counted a n s t) (status data : Nat) :
    Counted a n s (t.respond status data) := h
theorem regsKept_respond {s t : State} {ws : List Nat} (h : RegsKept ws s t) (status data : Nat) :
    RegsKept ws s (t.respond status data) := h
theorem memKept_respond {s t : State} (h : MemKept s t) (status data : Nat) : MemKept s (t.respond status data) := h

/-! ### The two outcomes of an arm with its key (R303, R305) -/

/-- The SYNC is armed for `a`, and shows as pending. -/
def syncArmed (s : State) (a : Nat) : State :=
  (s.modMeas fun x => { x with armed := some a }).setB Fld.MEAS_STATUS_SYNCPEND true

theorem exec_measSyncArm {s : State} {req : Requester} (h : Lets s req Reg.MEAS_SYNCCMD) (dt : Nat) :
    exec (.measSyncArm dt req 0xC3) s = .next (((s.elapse dt).syncArm 0xC3).respond 0 0) :=
  congrArg Host.Outcome.next (regCmd_of_lets (lets_elapse h dt) fun s => s.syncArm 0xC3)

theorem syncArm_of_ahead {s : State} (hmember : s.measMember = false) (hedge : s.rd64 Reg.MEAS_SYNCAT % 250000 = 0)
    (hahead : s.time.mt + 500000 ≤ s.rd64 Reg.MEAS_SYNCAT) : s.syncArm 0xC3 = syncArmed s (s.rd64 Reg.MEAS_SYNCAT) := by
  have hearly : ¬ s.rd64 Reg.MEAS_SYNCAT < s.time.mt + 500000 := by omega
  simp [State.syncArm, syncArmed, hmember, hedge, hearly]

theorem syncArm_of_offEdge_or_early {s : State}
    (h : s.rd64 Reg.MEAS_SYNCAT % 250000 ≠ 0 ∨ s.rd64 Reg.MEAS_SYNCAT < s.time.mt + 500000) :
    s.syncArm 0xC3 = s.syncIgnored := by
  rw [State.syncArm, if_neg (not_not_intro rfl), if_pos (Or.inr h)]

/-! ### An accepted arm -/

theorem onlyRegs_syncArmed (s : State) (a : Nat) :
    OnlyRegs (s.modMeas fun x => { x with armed := some a }) (syncArmed s a) := onlyRegs_setB ..

theorem meas_syncArmed (s : State) (a : Nat) : (syncArmed s a).meas = { s.meas with armed := some a } := by
  rw [onlyRegs_syncArmed]
  rfl

theorem bit_syncArmed_pending {s : State} (h : s.regsWf = true) (a : Nat) :
    (syncArmed s a).bit Fld.MEAS_STATUS_SYNCPEND = true := bit_setB_self (by decide) rfl true h

theorem regsKept_syncArmed (s : State) (a : Nat) : RegsKept [Reg.MEAS_STATUS] s (syncArmed s a) := by
  intro b hb
  exact rdw_setF_ne (by decide) (Ne.symm (List.ne_of_not_mem_cons hb)) _

theorem memKept_syncArmed (s : State) (a : Nat) : MemKept s (syncArmed s a) := fun b =>
  memKept_of_onlyRegs (onlyRegs_syncArmed s a) b

theorem leaves_syncArmed (s : State) (dt a : Nat) :
    Leaves dt [Reg.MEAS_STATUS] s ((syncArmed (s.elapse dt) a).respond 0 0)
      { (syncArmed (s.elapse dt) a).respond 0 0 with
        meas := { ((syncArmed (s.elapse dt) a).respond 0 0).meas with armed := s.meas.armed } } := by
  refine ⟨regsKept_of_elapse (regsKept_respond (regsKept_syncArmed _ a) 0 0),
    memKept_of_elapse (memKept_respond (memKept_syncArmed _ a) 0 0), ?_⟩
  rw [onlyRegs_syncArmed]
  rfl

/-! ### A refused arm -/

theorem regsKept_syncIgnored (s : State) : RegsKept (two Reg.MEAS_SYNCIGN) s s.syncIgnored := by
  intro a ha
  obtain ⟨hlow, hhigh⟩ : Reg.MEAS_SYNCIGN ≠ a ∧ Reg.MEAS_SYNCIGN + 4 ≠ a := by simpa [eq_comm] using ha
  exact rdw_inc64_ne hlow hhigh

theorem leaves_syncIgnored (s : State) (dt : Nat) :
    Leaves dt (two Reg.MEAS_SYNCIGN) s ((s.elapse dt).syncIgnored.respond 0 0) ((s.elapse dt).syncIgnored.respond 0 0) :=
  ⟨regsKept_of_elapse (regsKept_respond (regsKept_syncIgnored _) 0 0),
    memKept_of_elapse (memKept_respond (memKept_of_onlyRegs (onlyRegs_inc64 _ _)) 0 0), rfl⟩

/-- Settles O10: the key leads to `syncArmed` for an edge that is far enough ahead, else to `syncIgnored`, and each changes only
what its frame names. -/
theorem scheduledSync : Obligations.ScheduledSync := by
  intro s dt hs
  have hw : (s.elapse dt).regsWf = true := (Bool.and_eq_true_iff.mp hs).1
  refine ⟨?accepted, ?refused⟩
  case accepted =>
    rintro req a hlets hmember - rfl hedge hahead
    have hexec := exec_measSyncArm hlets dt
    rw [syncArm_of_ahead (s := s.elapse dt) hmember hedge hahead] at hexec
    exact ⟨_, hexec, rfl, congrArg (·.armed) (meas_syncArmed _ _), bit_syncArmed_pending hw _, leaves_syncArmed s dt _⟩
  case refused =>
    intro req hlets hbad
    have hexec := exec_measSyncArm hlets dt
    rw [syncArm_of_offEdge_or_early (s := s.elapse dt) hbad] at hexec
    exact ⟨_, hexec, rfl, counted_of_elapse (counted_respond (rd64_inc64_self _ hw) 0 0), leaves_syncIgnored s dt⟩

end Sys2Proof.Proofs.Measurement

/-! Power supply: the power-fail warning (R548, R551). -/

namespace Sys2Proof.Proofs.Power

open Sys2Proof Sys2Proof.Machine Sys2Proof.Laws Sys2Proof.Proofs.Time Sys2Proof.Proofs.Measurement

/-! ### Register words kept -/

section
variable {s t u : State} {ws vs : List Nat}

theorem regsKept_trans (h : RegsKept ws s t) (k : RegsKept vs t u) : RegsKept (ws ++ vs) s u := by
  intro a ha
  obtain ⟨hws, hvs⟩ := not_or.mp (mt List.mem_append.mpr ha)
  rw [k a hvs, h a hws]

theorem regsKept_mono (h : RegsKept ws s t) (hsub : ws ⊆ vs) : RegsKept vs s t := fun a ha => h a fun hws => ha (hsub hws)

theorem regsKept_setF {f : Field} (hf : f.lo + f.len ≤ 32) (v : Nat) : RegsKept [f.addr] s (s.setF f v) := fun _ ha =>
  rdw_setF_ne hf (Ne.symm (List.ne_of_not_mem_cons ha)) v

theorem regsKept_inc64 (s : State) (a : Nat) : RegsKept (two a) s (s.inc64 a) := by
  intro b hb
  obtain ⟨hlow, hhigh⟩ : a ≠ b ∧ a + 4 ≠ b := by simpa [eq_comm] using hb
  exact rdw_inc64_ne hlow hhigh

theorem getF_of_regsKept (h : RegsKept ws s t) {f : Field} (hf : f.lo + f.len ≤ 32) (ha : f.addr ∉ ws) :
    t.getF f = s.getF f := by
  simp [State.getF, State.rd, hf, h f.addr ha]

theorem bit_of_regsKept (h : RegsKept ws s t) {f : Field} (hf : f.lo + f.len ≤ 32) (ha : f.addr ∉ ws) :
    t.bit f = s.bit f := by
  rw [State.bit, getF_of_regsKept h hf ha, State.bit]

theorem rd64_of_regsKept (h : RegsKept ws s t) {a : Nat} (ha : a ∉ ws) (ha' : a + 4 ∉ ws) : t.rd64 a = s.rd64 a := by
  simp [State.rd64, State.rd, h a ha, h (a + 4) ha']

/-- A count over two changes, of which the first keeps the counter. -/
theorem counted_of_regsKept_of_counted {a n : Nat} (h : RegsKept ws s t) (ha : a ∉ ws) (ha' : a + 4 ∉ ws)
    (hc : Counted a n t u) : Counted a n s u := by
  rw [Counted, hc, rd64_of_regsKept h ha ha']

/-- A count over two changes, of which the second keeps the counter. -/
theorem counted_of_counted_of_regsKept {a n : Nat} (hc : Counted a n s t) (h : RegsKept ws t u) (ha : a ∉ ws)
    (ha' : a + 4 ∉ ws) : Counted a n s u :=
  (rd64_of_regsKept h ha ha').trans hc

end

/-! ### A flag of a status word, and its count -/

/-- A flag beside the one that is written. -/
theorem bit_setB_ne {s : State} {f g : Field} (hf : f.lo + f.len ≤ 32) (hg : g.lo + g.len ≤ 32)
    (hd : f.addr ≠ g.addr ∨ g.lo + g.len ≤ f.lo ∨ f.lo + f.len ≤ g.lo) (b : Bool) (h : s.regsWf = true) :
    (s.setB f b).bit g = s.bit g := by
  rw [State.bit, State.setB, getF_setF_ne hf hg hd _ h, State.bit]

/-- A flag is set, and a counter counts one. -/
def flagCounted (s : State) (f : Field) (c : Nat) : State := (s.setB f true).inc64 c

section
variable {s : State} {f g : Field} {c : Nat}

theorem regsWf_flagCounted (h : s.regsWf = true) : (flagCounted s f c).regsWf = true := regsWf_inc64 _ (regsWf_setB _ _ h)

theorem onlyRegs_flagCounted (s : State) (f : Field) (c : Nat) : OnlyRegs s (flagCounted s f c) :=
  (onlyRegs_setB ..).trans (onlyRegs_inc64 ..)

theorem regsKept_flagCounted (hf : f.lo + f.len ≤ 32) : RegsKept ([f.addr] ++ two c) s (flagCounted s f c) :=
  regsKept_trans (regsKept_setF hf _) (regsKept_inc64 _ c)

theorem bit_flagCounted_self (hf : f.lo + f.len ≤ 32) (hl : f.len = 1) (hc : f.addr ∉ two c) (h : s.regsWf = true) :
    (flagCounted s f c).bit f = true := by
  rw [flagCounted, bit_of_regsKept (regsKept_inc64 _ c) hf hc, bit_setB_self hf hl true h]

theorem bit_flagCounted_ne (hf : f.lo + f.len ≤ 32) (hg : g.lo + g.len ≤ 32) (hc : g.addr ∉ two c)
    (hd : f.addr ≠ g.addr ∨ g.lo + g.len ≤ f.lo ∨ f.lo + f.len ≤ g.lo) (h : s.regsWf = true) :
    (flagCounted s f c).bit g = s.bit g := by
  rw [flagCounted, bit_of_regsKept (regsKept_inc64 _ c) hg hc, bit_setB_ne hf hg hd true h]

theorem counted_flagCounted (hf : f.lo + f.len ≤ 32) (hc : c ∉ [f.addr]) (hc' : c + 4 ∉ [f.addr]) (h : s.regsWf = true) :
    Counted c 1 s (flagCounted s f c) :=
  counted_of_regsKept_of_counted (regsKept_setF hf _) hc hc' (rd64_inc64_self c (regsWf_setB f true h))

end

/-! ### Messages to mailboxes, and events -/

/-- The mailboxes once `State.interrupt` has sent a message to some of them. -/
def posted (msg : Nat) (boxes : List Nat) (m : Tab (List Nat)) : Tab (List Nat) :=
  boxes.foldl (fun m b => tmod m b fun l => if l.contains msg then l else l ++ [msg]) m

theorem foldl_interrupt_eq (msg : Nat) (boxes : List Nat) (s : State) :
    boxes.foldl (fun s b => s.interrupt b msg) s = { s with mbox := posted msg boxes s.mbox } := by
  induction boxes generalizing s with
  | nil => rfl
  | cons b bs ih => exact ih (s.interrupt b msg)

/-- A message that a mailbox holds stays there when others are posted. -/
theorem mem_tget_posted_of_mem {msg b : Nat} (boxes : List Nat) {m : Tab (List Nat)} (h : msg ∈ tget m b) :
    msg ∈ tget (posted msg boxes m) b := by
  induction boxes generalizing m with
  | nil => exact h
  | cons c cs ih =>
    refine ih ?_
    by_cases hcb : c = b
    · subst hcb
      rw [tget_tmod_self, if_pos (List.contains_iff_mem.mpr h)]
      exact h
    · rwa [tget_tmod_ne m hcb]

theorem mem_tget_posted {msg b : Nat} {boxes : List Nat} (h : b ∈ boxes) (m : Tab (List Nat)) :
    msg ∈ tget (posted msg boxes m) b := by
  induction boxes generalizing m with
  | nil => exact absurd h List.not_mem_nil
  | cons c cs ih =>
    rcases List.mem_cons.mp h with rfl | hcs
    · refine mem_tget_posted_of_mem cs ?_
      rw [tget_tmod_self]
      split
      case isTrue hheld => exact List.contains_iff_mem.mp hheld
      case isFalse => exact List.mem_concat_self
    · exact ih hcs _

/-- The event ports with one more occurrence at a block's. -/
def portsWith (s : State) (blk : Nat) (o : Occurrence) : Tab (List Occurrence) :=
  tset s.arc.ports blk (tget s.arc.ports blk ++ [o])

theorem tget_portsWith_self (s : State) (blk : Nat) (o : Occurrence) :
    tget (portsWith s blk o) blk = tget s.arc.ports blk ++ [o] := tget_tset_self ..

theorem emit_of_room {s : State} {blk : Nat} (h : PortRoom s blk) (code sev coll : Nat) (payload : List Byte) :
    s.emit blk code sev coll payload =
      { s with arc := { s.arc with ports := portsWith s blk ⟨blk + 1, code, sev, coll, s.time.mt, payload⟩ } } := if_pos h

/-! ### PFW (R551) -/

/-- The register writes of PFW. The store discharges from here on, so HOLDUP_OK falls (assumption 47). -/
def pfwRegs (s : State) : State :=
  (flagCounted s Fld.PWR_STATUS_PFW Reg.PWR_PFWS).setB Fld.PWR_STATUS_HOLDUP_OK false

/-- PFW is asserted: its registers, the instant, message 0x16 (assumption 45) and event 0x1701. -/
def pfwAsserted (s : State) (vin : Nat) : State :=
  { s with
    regs := (pfwRegs s).regs
    pwr := { s.pwr with pfwAt := some s.time.clock }
    mbox := posted 0x16 (bitsOf 9 (s.getF Fld.PWR_PFWIRQ_MBOX)) s.mbox
    arc := { s.arc with ports := portsWith s 0x16 ⟨0x17, 0x1701, 4, 59, s.time.mt, p4 [vin]⟩ } }

theorem onlyRegs_pfwRegs (s : State) : OnlyRegs s (pfwRegs s) := (onlyRegs_flagCounted ..).trans (onlyRegs_setB ..)

theorem regsKept_pfwRegs (s : State) : RegsKept ([Reg.PWR_STATUS] ++ two Reg.PWR_PFWS ++ [Reg.PWR_STATUS]) s (pfwRegs s) :=
  regsKept_trans (regsKept_flagCounted (f := Fld.PWR_STATUS_PFW) (by decide))
    (regsKept_setF (f := Fld.PWR_STATUS_HOLDUP_OK) (by decide) _)

theorem assertPfw_of_clear {s : State} (hclear : s.bit Fld.PWR_STATUS_PFW = false) (hroom : PortRoom s 0x16) (vin : Nat) :
    s.assertPfw vin = pfwAsserted s vin := by
  have hboxes : (pfwRegs s).getF Fld.PWR_PFWIRQ_MBOX = s.getF Fld.PWR_PFWIRQ_MBOX :=
    getF_of_regsKept (regsKept_pfwRegs s) (by decide) (by decide)
  have hassert : s.assertPfw vin =
      ((bitsOf 9 ((pfwRegs s).getF Fld.PWR_PFWIRQ_MBOX)).foldl (fun s b => s.interrupt b 0x16)
        ((pfwRegs s).modPwr fun p => { p with pfwAt := some (pfwRegs s).time.clock })).emit 0x16 0x1701 4 59 (p4 [vin]) := by
    rw [State.assertPfw, hclear]
    rfl
  rw [hassert, hboxes, foldl_interrupt_eq, onlyRegs_pfwRegs s]
  exact emit_of_room (by exact hroom) ..

section
variable {s : State}

theorem bit_pfwAsserted_pfw (h : s.regsWf = true) (vin : Nat) : (pfwAsserted s vin).bit Fld.PWR_STATUS_PFW = true :=
  (bit_setB_ne (f := Fld.PWR_STATUS_HOLDUP_OK) (by decide) (by decide) (by decide) false (regsWf_flagCounted h)).trans
    (bit_flagCounted_self (by decide) rfl (by decide) h)

theorem bit_pfwAsserted_holdupOk (h : s.regsWf = true) (vin : Nat) :
    (pfwAsserted s vin).bit Fld.PWR_STATUS_HOLDUP_OK = false :=
  bit_setB_self (by decide) rfl false (regsWf_flagCounted h)

theorem bit_pfwAsserted_ovdisc (h : s.regsWf = true) (vin : Nat) :
    (pfwAsserted s vin).bit Fld.PWR_STATUS_OVDISC = s.bit Fld.PWR_STATUS_OVDISC :=
  (bit_setB_ne (f := Fld.PWR_STATUS_HOLDUP_OK) (by decide) (by decide) (by decide) false (regsWf_flagCounted h)).trans
    (bit_flagCounted_ne (by decide) (by decide) (by decide) (by decide) h)

theorem counted_pfwAsserted (h : s.regsWf = true) (vin : Nat) : Counted Reg.PWR_PFWS 1 s (pfwAsserted s vin) :=
  counted_of_counted_of_regsKept (counted_flagCounted (f := Fld.PWR_STATUS_PFW) (by decide) (by decide) (by decide) h)
    (regsKept_setF (f := Fld.PWR_STATUS_HOLDUP_OK) (by decide) _) (by decide) (by decide)

theorem regsKept_pfwAsserted (s : State) (vin : Nat) :
    RegsKept ([Reg.PWR_STATUS] ++ two Reg.PWR_PFWS) s (pfwAsserted s vin) :=
  regsKept_mono (regsKept_pfwRegs s) (by simp)

theorem messages_pfwAsserted (s : State) (vin : Nat) :
    ((bitsOf 9 (s.getF Fld.PWR_PFWIRQ_MBOX)).all fun b => (tget (pfwAsserted s vin).mbox b).contains 0x16) = true :=
  List.all_eq_true.mpr fun _ hb => List.contains_iff_mem.mpr (mem_tget_posted hb s.mbox)

theorem offered_pfwAsserted (s : State) (vin : Nat) : Offered 0x16 0x1701 4 59 (p4 [vin]) s (pfwAsserted s vin) :=
  ⟨tget_portsWith_self .., fun _ hb => tget_tset_ne _ hb.symm _⟩

end

/-! ### A reading of the input -/

/-- The state after `dt`, with a reading of the input: of the registers it writes PWR_VIN alone. -/
def withReading (s : State) (dt vin : Nat) : State := (s.elapse dt).setVin vin

section
variable {s : State}

theorem onlyRegs_withReading (s : State) (dt vin : Nat) : OnlyRegs (s.elapse dt) (withReading s dt vin) :=
  onlyRegs_setF (s.elapse dt) Fld.PWR_VIN_VIN vin

theorem arc_withReading (s : State) (dt vin : Nat) : (withReading s dt vin).arc = s.arc := setF_arc ..
theorem time_withReading (s : State) (dt vin : Nat) : (withReading s dt vin).time = (s.elapse dt).time := setF_time ..

theorem memKept_withReading (s : State) (dt vin : Nat) : MemKept s (withReading s dt vin) :=
  memKept_of_elapse fun a => memKept_of_onlyRegs (onlyRegs_withReading s dt vin) a

theorem regsKept_withReading (s : State) (dt vin : Nat) : RegsKept [Reg.PWR_VIN] s (withReading s dt vin) :=
  regsKept_of_elapse (regsKept_setF (f := Fld.PWR_VIN_VIN) (by decide) vin)

theorem regsWf_withReading (h : s.regsWf = true) (dt vin : Nat) : (withReading s dt vin).regsWf = true :=
  regsWf_setF (s := s.elapse dt) _ vin h

theorem getF_withReading_vin (h : s.regsWf = true) (dt : Nat) {vin : Nat} (hvin : vin < 65536) :
    (withReading s dt vin).getF Fld.PWR_VIN_VIN = vin :=
  (getF_setF_self (s := s.elapse dt) (by decide) vin h).trans (Nat.mod_eq_of_lt hvin)

theorem bit_withReading_status (s : State) (dt vin : Nat) {f : Field} (hf : f.lo + f.len ≤ 32)
    (ha : f.addr = Reg.PWR_STATUS) : (withReading s dt vin).bit f = s.bit f :=
  bit_of_regsKept (regsKept_withReading s dt vin) hf (by rw [ha]; decide)

theorem unlessOff_of_on (h : s.lcs.phase ≠ .off) (f : State → State) : s.unlessOff f = f s := if_neg h

end

/-! ### The input falls below 14.0 V -/

theorem exec_pwrPfw {s : State} {vin : Nat} (dt : Nat) (hon : s.lcs.phase ≠ .off) (hlow : vin < 1400)
    (hclear : s.bit Fld.PWR_STATUS_PFW = false) (hroom : PortRoom s 0x16) :
    exec (.pwrPfw dt vin) s = .next (pfwAsserted (withReading s dt vin) vin) := by
  have hclear' := (bit_withReading_status s dt vin (f := Fld.PWR_STATUS_PFW) (by decide) rfl).trans hclear
  have hroom' : PortRoom (withReading s dt vin) 0x16 := by rwa [PortRoom, arc_withReading]
  rw [← assertPfw_of_clear hclear' hroom']
  show execPwrPfw dt vin s = _
  rw [execPwrPfw, unlessOff_of_on (s := s.elapse dt) hon, if_pos (Or.inl hlow), withReading]

theorem leaves_pfwAsserted (s : State) (dt vin : Nat) :
    Leaves dt ([Reg.PWR_VIN, Reg.PWR_STATUS] ++ two Reg.PWR_PFWS) s (pfwAsserted (withReading s dt vin) vin)
      { pfwAsserted (withReading s dt vin) vin with
        mbox := s.mbox
        pwr := { (pfwAsserted (withReading s dt vin) vin).pwr with pfwAt := s.pwr.pfwAt }
        arc := { (pfwAsserted (withReading s dt vin) vin).arc with ports := s.arc.ports } } := by
  have hkept := regsKept_trans (regsKept_withReading s dt vin) (regsKept_pfwAsserted _ vin)
  refine ⟨hkept, memKept_withReading s dt vin, ?_⟩
  rw [onlyRegs_withReading]
  rfl

/-! ### Over-voltage disconnects the input (R548) -/

/-- X1 is disconnected, which is flagged, counted and offered as event 0x1705. -/
def ovDisconnected (s : State) (vin : Nat) : State :=
  { s with
    regs := (flagCounted s Fld.PWR_STATUS_OVDISC Reg.PWR_OVDISCS).regs
    pwr := { s.pwr with x1Connected := false }
    arc := { s.arc with ports := portsWith s 0x16 ⟨0x17, 0x1705, 4, 59, s.time.mt, p4 [vin]⟩ } }

section
variable {s : State}

theorem regsWf_ovDisconnected (h : s.regsWf = true) (vin : Nat) : (ovDisconnected s vin).regsWf = true :=
  regsWf_flagCounted h

theorem regsKept_ovDisconnected (s : State) (vin : Nat) :
    RegsKept ([Reg.PWR_STATUS] ++ two Reg.PWR_OVDISCS) s (ovDisconnected s vin) :=
  regsKept_flagCounted (f := Fld.PWR_STATUS_OVDISC) (by decide)

theorem bit_ovDisconnected_ovdisc (h : s.regsWf = true) (vin : Nat) :
    (ovDisconnected s vin).bit Fld.PWR_STATUS_OVDISC = true :=
  bit_flagCounted_self (by decide) rfl (by decide) h

theorem bit_ovDisconnected_pfw (h : s.regsWf = true) (vin : Nat) :
    (ovDisconnected s vin).bit Fld.PWR_STATUS_PFW = s.bit Fld.PWR_STATUS_PFW :=
  bit_flagCounted_ne (by decide) (by decide) (by decide) (by decide) h

theorem counted_ovDisconnected (h : s.regsWf = true) (vin : Nat) : Counted Reg.PWR_OVDISCS 1 s (ovDisconnected s vin) :=
  counted_flagCounted (f := Fld.PWR_STATUS_OVDISC) (by decide) (by decide) (by decide) h

theorem ports_ovDisconnected (s : State) (vin : Nat) :
    tget (ovDisconnected s vin).arc.ports 0x16 = tget s.arc.ports 0x16 ++ [⟨0x17, 0x1705, 4, 59, s.time.mt, p4 [vin]⟩] :=
  tget_portsWith_self ..

theorem portRoom_ovDisconnected (h : (tget s.arc.ports 0x16).length < 31) (vin : Nat) :
    PortRoom (ovDisconnected s vin) 0x16 := by
  rw [PortRoom, ports_ovDisconnected, List.length_append, List.length_singleton]
  omega

end

theorem disconnect_eq (h : PortRoom s 0x16) (vin : Nat) :
    (((s.setB Fld.PWR_STATUS_OVDISC true).inc64 Reg.PWR_OVDISCS).modPwr fun p => { p with x1Connected := false }).emit
      0x16 0x1705 4 59 (p4 [vin]) = ovDisconnected s vin := by
  show (State.modPwr (flagCounted s _ _) _).emit .. = _
  rw [onlyRegs_flagCounted s]
  exact emit_of_room (by exact h) ..

/-- An input above 154 V that is still connected is disconnected, and PFW is asserted where it was clear. -/
theorem exec_pwrOvervoltage {s : State} {vin : Nat} (dt : Nat) (hw : s.regsWf = true) (hon : s.lcs.phase ≠ .off)
    (hhigh : 15400 < vin) (hconnected : s.bit Fld.PWR_STATUS_OVDISC = false) (hclear : s.bit Fld.PWR_STATUS_PFW = false)
    (hroom : (tget s.arc.ports 0x16).length < 31) :
    exec (.pwrOvervoltage dt vin) s = .next (pfwAsserted (ovDisconnected (withReading s dt vin) vin) vin) := by
  have hconnected' : ((s.elapse dt).setVin vin).bit Fld.PWR_STATUS_OVDISC = false :=
    (bit_withReading_status s dt vin (by decide) rfl).trans hconnected
  have hclear' : (ovDisconnected (withReading s dt vin) vin).bit Fld.PWR_STATUS_PFW = false :=
    (bit_ovDisconnected_pfw (regsWf_withReading hw dt vin) vin).trans
      ((bit_withReading_status s dt vin (by decide) rfl).trans hclear)
  have hroom' : (tget (withReading s dt vin).arc.ports 0x16).length < 31 := by rwa [arc_withReading]
  rw [← assertPfw_of_clear hclear' (portRoom_ovDisconnected hroom' vin), ← disconnect_eq (Nat.lt_succ_of_lt hroom')]
  show execPwrOvervoltage dt vin s = _
  rw [execPwrOvervoltage, unlessOff_of_on (s := s.elapse dt) hon, if_neg (by simp [hhigh, hconnected']), withReading]

/-- Event 0x1705 of the disconnection, then event 0x1701 of PFW. -/
theorem ports_pfwAsserted_ovDisconnected (s : State) (vin : Nat) :
    tget (pfwAsserted (ovDisconnected s vin) vin).arc.ports 0x16 = tget s.arc.ports 0x16 ++
      [⟨0x17, 0x1705, 4, 59, s.time.mt, p4 [vin]⟩, ⟨0x17, 0x1701, 4, 59, s.time.mt, p4 [vin]⟩] := by
  rw [(offered_pfwAsserted _ vin).1, ports_ovDisconnected, List.append_assoc]
  rfl

theorem leaves_pfwAsserted_ovDisconnected (s : State) (dt vin : Nat) :
    Leaves dt ([Reg.PWR_VIN, Reg.PWR_STATUS] ++ two Reg.PWR_OVDISCS ++ two Reg.PWR_PFWS) s
      (pfwAsserted (ovDisconnected (withReading s dt vin) vin) vin)
      { pfwAsserted (ovDisconnected (withReading s dt vin) vin) vin with
        mbox := s.mbox
        pwr := { (pfwAsserted (ovDisconnected (withReading s dt vin) vin) vin).pwr with
          x1Connected := s.pwr.x1Connected, pfwAt := s.pwr.pfwAt }
        arc := { (pfwAsserted (ovDisconnected (withReading s dt vin) vin) vin).arc with ports := s.arc.ports } } := by
  have hkept := regsKept_trans (regsKept_trans (regsKept_withReading s dt vin) (regsKept_ovDisconnected _ vin))
    (regsKept_pfwAsserted _ vin)
  refine ⟨regsKept_mono hkept (by simp), memKept_withReading s dt vin, ?_⟩
  rw [onlyRegs_withReading]
  rfl

/-- Settles O11: an input below 14.0 V leads to `pfwAsserted`, over-voltage to `ovDisconnected` and then `pfwAsserted`, each with
its own lemmas on what it writes and leaves; the reading before them keeps every count, flag and port. -/
theorem powerFailWarning : Obligations.PowerFailWarning := by
  intro s dt hs
  have hw : s.regsWf = true := (Bool.and_eq_true_iff.mp hs).1
  refine ⟨?low, ?overvoltage⟩
  case low =>
    intro vin hon hlow hclear hroom
    have hu := regsWf_withReading hw dt vin
    have hread := regsKept_withReading s dt vin
    have hreading : (pfwAsserted (withReading s dt vin) vin).getF Fld.PWR_VIN_VIN = vin :=
      (getF_of_regsKept (regsKept_pfwAsserted _ vin) (by decide) (by decide)).trans (getF_withReading_vin hw dt (by omega))
    have hpfws := counted_of_regsKept_of_counted hread (by decide) (by decide) (counted_pfwAsserted hu vin)
    have hclock : (pfwAsserted (withReading s dt vin) vin).pwr.pfwAt = some (s.elapse dt).time.clock :=
      congrArg (fun x : TimeSt => some x.clock) (time_withReading s dt vin)
    have hmessages := messages_pfwAsserted (withReading s dt vin) vin
    rw [getF_of_regsKept hread (by decide) (by decide)] at hmessages
    have hoffered := offered_pfwAsserted (withReading s dt vin) vin
    rw [Offered, arc_withReading] at hoffered
    exact ⟨_, exec_pwrPfw dt hon hlow hclear hroom, bit_pfwAsserted_pfw hu vin, bit_pfwAsserted_holdupOk hu vin, hreading,
      hpfws, hclock, hmessages, hoffered, leaves_pfwAsserted s dt vin⟩
  case overvoltage =>
    intro vin hon hhigh hconnected hclear hroom
    have hu := regsWf_withReading hw dt vin
    have hd := regsWf_ovDisconnected hu vin
    have hread := regsKept_withReading s dt vin
    have hovdisc := (bit_pfwAsserted_ovdisc hd vin).trans (bit_ovDisconnected_ovdisc hu vin)
    have hovdiscs := counted_of_regsKept_of_counted hread (by decide) (by decide)
      (counted_of_counted_of_regsKept (counted_ovDisconnected hu vin)
        (regsKept_pfwAsserted _ vin) (by decide) (by decide))
    have hpfws := counted_of_regsKept_of_counted (regsKept_trans hread (regsKept_ovDisconnected _ vin)) (by decide) (by decide)
      (counted_pfwAsserted hd vin)
    have hports := ports_pfwAsserted_ovDisconnected (withReading s dt vin) vin
    rw [arc_withReading] at hports
    exact ⟨_, exec_pwrOvervoltage dt hw hon hhigh hconnected hclear hroom, hovdisc, bit_pfwAsserted_pfw hd vin,
      bit_pfwAsserted_holdupOk hd vin, rfl, hovdiscs, hpfws, hports, leaves_pfwAsserted_ovDisconnected s dt vin⟩

end Sys2Proof.Proofs.Power

/-! The whole machine: a step and its queue, the state after reset, and what every command keeps. -/

namespace Sys2Proof.Proofs.Machine

open Sys2Proof Sys2Proof.Machine Sys2Proof.Laws

-- Theorems that the kernel evaluates are checked one after the other: side by side they take more memory than there is.
set_option Elab.async false

/-! ### Reset -/

/-- Nothing is written at reset, so every register word reads its reset value. -/
theorem rdw_reset (a : Nat) : State.reset.rdw a = Config.resetWord a := rfl

theorem rd64_reset (a : Nat) :
    State.reset.rd64 a = (Config.resetWord a).toNat + 4294967296 * (Config.resetWord (a + 4)).toNat := rfl

theorem wf_reset : State.reset.wf = true := rfl

/-- Settles O1: the step takes the command that was put at the front. -/
theorem stepRunsFrontCommand : Obligations.StepRunsFrontCommand := fun _ _ => rfl

/-- Settles O2: reset lists no register and no byte of memory. -/
theorem resetStateSound : Obligations.ResetStateSound := ⟨wf_reset, rfl, fun _ => rfl, rdw_reset⟩

/-! ### What every command keeps -/

/-- Each meaning keeps the queue, the canonical forms, the own clock and the free counter: its lemma of the folder Keeps. -/
theorem exec_keeps (i : Instr) (s : State) : KeepsOut s (exec i s) := by
  cases i with
  | powerApplied dt vin env => exact execPowerApplied_keeps (Keeps.refl s) dt vin env
  | moduleReset dt cause env => exact execModuleReset_keeps (Keeps.refl s) dt cause env
  | startupLbistComplete dt failed ms => exact execStartupLbistComplete_keeps (Keeps.refl s) dt failed ms
  | romBoot dt => exact execRomBoot_keeps (Keeps.refl s) dt
  | docentStart dt => exact execDocentStart_keeps (Keeps.refl s) dt
  | runtimeStart dt info => exact execRuntimeStart_keeps (Keeps.refl s) dt info
  | arcStartCarry dt => exact execArcStartCarry_keeps (Keeps.refl s) dt
  | beatEdge dt env => exact execBeatEdge_keeps (Keeps.refl s) dt env
  | gptpSyncRx dt offset sync => exact execGptpSyncRx_keeps (Keeps.refl s) dt offset sync
  | ppsInPulse dt pulse => exact execPpsInPulse_keeps (Keeps.refl s) dt pulse
  | refLost dt => exact execRefLost_keeps (Keeps.refl s) dt
  | firstLockTimeout dt => exact execFirstLockTimeout_keeps (Keeps.refl s) dt
  | timStepAccept dt req key accept => exact execTimStepAccept_keeps (Keeps.refl s) dt req key accept
  | popTsqMetaRead dt req q wide => exact execPopTsqMetaRead_keeps (Keeps.refl s) dt req q wide
  | popResponseAccepted dt q => exact execPopResponseAccepted_keeps (Keeps.refl s) dt q
  | popResponseDiscarded dt q => exact execPopResponseDiscarded_keeps (Keeps.refl s) dt q
  | launchTimeReached dt port queue => exact execLaunchTimeReached_keeps (Keeps.refl s) dt port queue
  | invAnnouncementRx dt a => exact execInvAnnouncementRx_keeps (Keeps.refl s) dt a
  | invAnnGo dt req go => exact execInvAnnGo_keeps (Keeps.refl s) dt req go
  | voteDecision dt b => exact execVoteDecision_keeps (Keeps.refl s) dt b
  | voteTimeout dt b => exact execVoteTimeout_keeps (Keeps.refl s) dt b
  | triadL1Uncorrectable dt lane e addr => exact execTriadL1Uncorrectable_keeps (Keeps.refl s) dt lane e addr
  | boundaryItemCapture dt item parityErr => exact execBoundaryItemCapture_keeps (Keeps.refl s) dt item parityErr
  | voterProbe dt failing => exact execVoterProbe_keeps (Keeps.refl s) dt failing
  | vsync dt word priv onApp recs agree back => exact execVsync_keeps (Keeps.refl s) dt word priv onApp recs agree back
  | vsyncDeadline dt => exact execVsyncDeadline_keeps (Keeps.refl s) dt
  | vfence dt word priv onApp => exact execVfence_keeps (Keeps.refl s) dt word priv onApp
  | vfenceComplete dt acked => exact execVfenceComplete_keeps (Keeps.refl s) dt acked
  | vfenceTimeout dt => exact execVfenceTimeout_keeps (Keeps.refl s) dt
  | triadReintWrite dt req lane => exact execTriadReintWrite_keeps (Keeps.refl s) dt req lane
  | triadSafereqWrite dt req key reason => exact execTriadSafereqWrite_keeps (Keeps.refl s) dt req key reason
  | triadLoanRequest dt req => exact execTriadLoanRequest_keeps (Keeps.refl s) dt req
  | triadLoanCancel dt req => exact execTriadLoanCancel_keeps (Keeps.refl s) dt req
  | triadLoanretWrite dt req ret => exact execTriadLoanretWrite_keeps (Keeps.refl s) dt req ret
  | tcLoanException dt => exact execTcLoanException_keeps (Keeps.refl s) dt
  | garnetSupplyRise dt => exact execGarnetSupplyRise_keeps (Keeps.refl s) dt
  | garnetStartupCheckDone dt chk => exact execGarnetStartupCheckDone_keeps (Keeps.refl s) dt chk
  | garnetEvalCycle dt sense => exact execGarnetEvalCycle_keeps (Keeps.refl s) dt sense
  | safetyInputFilterExpiry dt input chanB level => exact execSafetyInputFilterExpiry_keeps (Keeps.refl s) dt input chanB level
  | discrepancyFault dt inst => exact execDiscrepancyFault_keeps (Keeps.refl s) dt inst
  | testPulse dt tp patternOk reads => exact execTestPulse_keeps (Keeps.refl s) dt tp patternOk reads
  | garnetConfigCheck dt intact => exact execGarnetConfigCheck_keeps (Keeps.refl s) dt intact
  | garAckWrite dt req insts => exact execGarAckWrite_keeps (Keeps.refl s) dt req insts
  | offpulseTest dt pair side => exact execOffpulseTest_keeps (Keeps.refl s) dt pair side
  | offpulsePulseEnd dt pair fell => exact execOffpulsePulseEnd_keeps (Keeps.refl s) dt pair fell
  | outputOverload dt pair kind => exact execOutputOverload_keeps (Keeps.refl s) dt pair kind
  | feedbackTimeout dt pair => exact execFeedbackTimeout_keeps (Keeps.refl s) dt pair
  | garBrktestWrite dt req key pair => exact execGarBrktestWrite_keeps (Keeps.refl s) dt req key pair
  | brakeTestFbTimeout dt pair => exact execBrakeTestFbTimeout_keeps (Keeps.refl s) dt pair
  | brakeTestPass dt pair => exact execBrakeTestPass_keeps (Keeps.refl s) dt pair
  | brakeTestAbortEnd dt pair => exact execBrakeTestAbortEnd_keeps (Keeps.refl s) dt pair
  | brakeTestDue dt pair => exact execBrakeTestDue_keeps (Keeps.refl s) dt pair
  | garPermitWrite dt req seq rel => exact execGarPermitWrite_keeps (Keeps.refl s) dt req seq rel
  | garWithdrawWrite dt req pairs => exact execGarWithdrawWrite_keeps (Keeps.refl s) dt req pairs
  | permitLost dt pair => exact execPermitLost_keeps (Keeps.refl s) dt pair
  | permitMidpointToggle dt => exact execPermitMidpointToggle_keeps (Keeps.refl s) dt
  | grstRelease dt width sense => exact execGrstRelease_keeps (Keeps.refl s) dt width sense
  | custodyEnableFall dt => exact execCustodyEnableFall_keeps (Keeps.refl s) dt
  | holdTimeout dt pair => exact execHoldTimeout_keeps (Keeps.refl s) dt pair
  | cfgOpen dt req => exact execCfgOpen_keeps (Keeps.refl s) dt req
  | cfgEnterLockout dt req => exact execCfgEnterLockout_keeps (Keeps.refl s) dt req
  | cfgLoad dt req chunk => exact execCfgLoad_keeps (Keeps.refl s) dt req chunk
  | cfgReadback dt req chunk => exact execCfgReadback_keeps (Keeps.refl s) dt req chunk
  | cfgAccept dt req => exact execCfgAccept_keeps (Keeps.refl s) dt req
  | cfgDiscard dt req => exact execCfgDiscard_keeps (Keeps.refl s) dt req
  | cfgClose dt req => exact execCfgClose_keeps (Keeps.refl s) dt req
  | cfgSetpw dt req => exact execCfgSetpw_keeps (Keeps.refl s) dt req
  | garCfgcmdComplete dt => exact execGarCfgcmdComplete_keeps (Keeps.refl s) dt
  | garSessionTimeout dt => exact execGarSessionTimeout_keeps (Keeps.refl s) dt
  | garAuthBlockExpiry dt => exact execGarAuthBlockExpiry_keeps (Keeps.refl s) dt
  | pendingImageExpiry dt => exact execPendingImageExpiry_keeps (Keeps.refl s) dt
  | taskReady dt task => exact execTaskReady_keeps (Keeps.refl s) dt task
  | rtsDoneWrite dt req task done => exact execRtsDoneWrite_keeps (Keeps.refl s) dt req task done
  | rtsOcArm dt req pkg => exact execRtsOcArm_keeps (Keeps.refl s) dt req pkg
  | rtsOcCancel dt req => exact execRtsOcCancel_keeps (Keeps.refl s) dt req
  | rtsForceupdWrite dt req index => exact execRtsForceupdWrite_keeps (Keeps.refl s) dt req index
  | apcPairMismatch dt pair cmp => exact execApcPairMismatch_keeps (Keeps.refl s) dt pair cmp
  | apcRestartWrite dt req key cores => exact execApcRestartWrite_keeps (Keeps.refl s) dt req key cores
  | apcFence dt core => exact execApcFence_keeps (Keeps.refl s) dt core
  | releaseStore dt core addr bytes => exact execReleaseStore_keeps (Keeps.refl s) dt core addr bytes
  | cacheEccUncorrectable dt e => exact execCacheEccUncorrectable_keeps (Keeps.refl s) dt e
  | fabricGrant dt arrivals target => exact execFabricGrant_keeps (Keeps.refl s) dt arrivals target
  | fabricAgePromotion dt id => exact execFabricAgePromotion_keeps (Keeps.refl s) dt id
  | catalogueInvalidate dt req blk index => exact execCatalogueInvalidate_keeps (Keeps.refl s) dt req blk index
  | catalogueStagingReadDone dt blk index ended => exact execCatalogueStagingReadDone_keeps (Keeps.refl s) dt blk index ended
  | catalogueEnableWrite dt req blk => exact execCatalogueEnableWrite_keeps (Keeps.refl s) dt req blk
  | ringProducer dt req blk ring tail => exact execRingProducer_keeps (Keeps.refl s) dt req blk ring tail
  | ringEnableWrite dt req blk ring value => exact execRingEnableWrite_keeps (Keeps.refl s) dt req blk ring value
  | registerWrite dt req addr size value => exact execRegisterWrite_keeps (Keeps.refl s) dt req addr size value
  | fieldSupplyChange dt group vf => exact execFieldSupplyChange_keeps (Keeps.refl s) dt group vf
  | antiglitchExpiry dt ch reading => exact execAntiglitchExpiry_keeps (Keeps.refl s) dt ch reading
  | debounceExpiry dt ch => exact execDebounceExpiry_keeps (Keeps.refl s) dt ch
  | supgapTimeout dt ch => exact execSupgapTimeout_keeps (Keeps.refl s) dt ch
  | fioThermal dt ch => exact execFioThermal_keeps (Keeps.refl s) dt ch
  | thermalRestart dt ch => exact execThermalRestart_keeps (Keeps.refl s) dt ch
  | fioGroupOverload dt group => exact execFioGroupOverload_keeps (Keeps.refl s) dt group
  | groupOverloadEnd dt group => exact execGroupOverloadEnd_keeps (Keeps.refl s) dt group
  | ovlClear dt group => exact execOvlClear_keeps (Keeps.refl s) dt group
  | outputDiagTest dt ch withTest withoutTest current => exact execOutputDiagTest_keeps (Keeps.refl s) dt ch withTest withoutTest current
  | fallbackRefresh dt refresh => exact execFallbackRefresh_keeps (Keeps.refl s) dt refresh
  | inboundFrameRx dt group frame => exact execInboundFrameRx_keeps (Keeps.refl s) dt group frame
  | outboundFrameRx dt group frame => exact execOutboundFrameRx_keeps (Keeps.refl s) dt group frame
  | outputWatchdogExpiry dt ch => exact execOutputWatchdogExpiry_keeps (Keeps.refl s) dt ch
  | failHoldExpiry dt ch => exact execFailHoldExpiry_keeps (Keeps.refl s) dt ch
  | sincOutput dt ch bits => exact execSincOutput_keeps (Keeps.refl s) dt ch bits
  | measOutputReady dt ch => exact execMeasOutputReady_keeps (Keeps.refl s) dt ch
  | measStuck dt ch => exact execMeasStuck_keeps (Keeps.refl s) dt ch
  | streamUnstuck dt ch => exact execStreamUnstuck_keeps (Keeps.refl s) dt ch
  | measRingrdWrite dt req ch value => exact execMeasRingrdWrite_keeps (Keeps.refl s) dt req ch value
  | syncInEdge dt rising width => exact execSyncInEdge_keeps (Keeps.refl s) dt rising width
  | measSyncNow dt req key => exact execMeasSyncNow_keeps (Keeps.refl s) dt req key
  | measSyncArm dt req key => exact execMeasSyncArm_keeps (Keeps.refl s) dt req key
  | measSyncDisarm dt req key => exact execMeasSyncDisarm_keeps (Keeps.refl s) dt req key
  | measSync dt => exact execMeasSync_keeps (Keeps.refl s) dt
  | measPllLost dt => exact execMeasPllLost_keeps (Keeps.refl s) dt
  | measPllLocked dt => exact execMeasPllLocked_keeps (Keeps.refl s) dt
  | linkDelayExchange dt port delay => exact execLinkDelayExchange_keeps (Keeps.refl s) dt port delay
  | walLink dt port up => exact execWalLink_keeps (Keeps.refl s) dt port up
  | walFrameRx dt port frame => exact execWalFrameRx_keeps (Keeps.refl s) dt port frame
  | walSlotTx dt chan entry => exact execWalSlotTx_keeps (Keeps.refl s) dt chan entry
  | guardianCut dt chan => exact execGuardianCut_keeps (Keeps.refl s) dt chan
  | walGuardClk dt port interval => exact execWalGuardClk_keeps (Keeps.refl s) dt port interval
  | forwardCut dt port => exact execForwardCut_keeps (Keeps.refl s) dt port
  | walListenTimeout dt chan => exact execWalListenTimeout_keeps (Keeps.refl s) dt chan
  | contentionWindowEnd dt chan => exact execContentionWindowEnd_keeps (Keeps.refl s) dt chan
  | walBackoff dt chan => exact execWalBackoff_keeps (Keeps.refl s) dt chan
  | ethFrameRx dt port frame => exact execEthFrameRx_keeps (Keeps.refl s) dt port frame
  | ethFrameTxStart dt port => exact execEthFrameTxStart_keeps (Keeps.refl s) dt port
  | ethTxComplete dt port => exact execEthTxComplete_keeps (Keeps.refl s) dt port
  | ethTxDescTaken dt ring ended => exact execEthTxDescTaken_keeps (Keeps.refl s) dt ring ended
  | ethRxRingDelivery dt ring => exact execEthRxRingDelivery_keeps (Keeps.refl s) dt ring
  | ethRingDisable dt req ring => exact execEthRingDisable_keeps (Keeps.refl s) dt req ring
  | frameAged dt port queue => exact execFrameAged_keeps (Keeps.refl s) dt port queue
  | fdbEntryAged dt mac vid => exact execFdbEntryAged_keeps (Keeps.refl s) dt mac vid
  | gateIntervalEnd dt port => exact execGateIntervalEnd_keeps (Keeps.refl s) dt port
  | ethGclCommit dt req port value => exact execEthGclCommit_keeps (Keeps.refl s) dt req port value
  | ethGclSwitch dt port => exact execEthGclSwitch_keeps (Keeps.refl s) dt port
  | frerResetTimeout dt n => exact execFrerResetTimeout_keeps (Keeps.refl s) dt n
  | ethLink dt port up speed => exact execEthLink_keeps (Keeps.refl s) dt port up speed
  | trdpTelegramRx dt host frame => exact execTrdpTelegramRx_keeps (Keeps.refl s) dt host frame
  | mvbFrameInstant dt m => exact execMvbFrameInstant_keeps (Keeps.refl s) dt m
  | mvbMasterFrame dt poll => exact execMvbMasterFrame_keeps (Keeps.refl s) dt poll
  | canFrameRx dt u f => exact execCanFrameRx_keeps (Keeps.refl s) dt u f
  | serialTxLaunch dt blk who => exact execSerialTxLaunch_keeps (Keeps.refl s) dt blk who
  | serialTxDone dt blk u => exact execSerialTxDone_keeps (Keeps.refl s) dt blk u
  | serTxStale dt u => exact execSerTxStale_keeps (Keeps.refl s) dt u
  | canErrorFrame dt u role more => exact execCanErrorFrame_keeps (Keeps.refl s) dt u role more
  | canBusoffRecovery dt u => exact execCanBusoffRecovery_keeps (Keeps.refl s) dt u
  | serFrameEnd dt u f => exact execSerFrameEnd_keeps (Keeps.refl s) dt u f
  | serOverrun dt u => exact execSerOverrun_keeps (Keeps.refl s) dt u
  | crrChainStart dt c => exact execCrrChainStart_keeps (Keeps.refl s) dt c
  | crrDescriptorTaken dt c ended => exact execCrrDescriptorTaken_keeps (Keeps.refl s) dt c ended
  | crrDescriptorDone dt c far farWord => exact execCrrDescriptorDone_keeps (Keeps.refl s) dt c far farWord
  | crrMoveError dt c ended bytesMoved far => exact execCrrMoveError_keeps (Keeps.refl s) dt c ended bytesMoved far
  | crrReadbackDone dt c equal => exact execCrrReadbackDone_keeps (Keeps.refl s) dt c equal
  | crrRingDisable dt req c bytesMoved far => exact execCrrRingDisable_keeps (Keeps.refl s) dt req c bytesMoved far
  | popCrrMetaRead dt req c wide => exact execPopCrrMetaRead_keeps (Keeps.refl s) dt req c wide
  | lpeEnable dt req u value => exact execLpeEnable_keeps (Keeps.refl s) dt req u value
  | lpeDisable dt req u => exact execLpeDisable_keeps (Keeps.refl s) dt req u
  | lpeRestart dt req mask => exact execLpeRestart_keeps (Keeps.refl s) dt req mask
  | lpeUnitEnd dt u unit => exact execLpeUnitEnd_keeps (Keeps.refl s) dt u unit
  | cscLink dt down e => exact execCscLink_keeps (Keeps.refl s) dt down e
  | cscMemberRx dt vec => exact execCscMemberRx_keeps (Keeps.refl s) dt vec
  | cscInboundTransaction dt down t => exact execCscInboundTransaction_keeps (Keeps.refl s) dt down t
  | cscCompletionRx dt down tag status data => exact execCscCompletionRx_keeps (Keeps.refl s) dt down tag status data
  | cscReadTimeout dt down tag => exact execCscReadTimeout_keeps (Keeps.refl s) dt down tag
  | cscLockReq dt pos => exact execCscLockReq_keeps (Keeps.refl s) dt pos
  | cscLockRelease dt => exact execCscLockRelease_keeps (Keeps.refl s) dt
  | cscLockWatchdog dt asTarget => exact execCscLockWatchdog_keeps (Keeps.refl s) dt asTarget
  | cscAuditRx dt down consumed => exact execCscAuditRx_keeps (Keeps.refl s) dt down consumed
  | cscSyncAtRx dt instant => exact execCscSyncAtRx_keeps (Keeps.refl s) dt instant
  | cscAnnounceRx dt a => exact execCscAnnounceRx_keeps (Keeps.refl s) dt a
  | cscInvCollected dt slots => exact execCscInvCollected_keeps (Keeps.refl s) dt slots
  | arcOccurrence dt port => exact execArcOccurrence_keeps (Keeps.refl s) dt port
  | arcWriteDescriptor dt ring ended => exact execArcWriteDescriptor_keeps (Keeps.refl s) dt ring ended
  | arcCommitAgeExpiry dt unit => exact execArcCommitAgeExpiry_keeps (Keeps.refl s) dt unit
  | arcUnitCommit dt => exact execArcUnitCommit_keeps (Keeps.refl s) dt
  | arcCommitDone dt => exact execArcCommitDone_keeps (Keeps.refl s) dt
  | arcSealWrite dt req mask => exact execArcSealWrite_keeps (Keeps.refl s) dt req mask
  | arcUnsealWrite dt req mask => exact execArcUnsealWrite_keeps (Keeps.refl s) dt req mask
  | arcSealExpired dt coll => exact execArcSealExpired_keeps (Keeps.refl s) dt coll
  | arcReadDescriptor dt ring => exact execArcReadDescriptor_keeps (Keeps.refl s) dt ring
  | popArcNextRead dt req wide => exact execPopArcNextRead_keeps (Keeps.refl s) dt req wide
  | arcEraseWrite dt req key coll => exact execArcEraseWrite_keeps (Keeps.refl s) dt req key coll
  | farwireReading dt mv => exact execFarwireReading_keeps (Keeps.refl s) dt mv
  | blockedRecovery dt => exact execBlockedRecovery_keeps (Keeps.refl s) dt
  | custodyEnableLoss dt => exact execCustodyEnableLoss_keeps (Keeps.refl s) dt
  | custodyClaim dt => exact execCustodyClaim_keeps (Keeps.refl s) dt
  | claimCheck dt mv => exact execClaimCheck_keeps (Keeps.refl s) dt mv
  | custodyNegotiation dt => exact execCustodyNegotiation_keeps (Keeps.refl s) dt
  | custodyNegotiationDelay dt => exact execCustodyNegotiationDelay_keeps (Keeps.refl s) dt
  | replicaShipDeadline dt shipped => exact execReplicaShipDeadline_keeps (Keeps.refl s) dt shipped
  | replicaFrameRx dt peer frame => exact execReplicaFrameRx_keeps (Keeps.refl s) dt peer frame
  | replicaCopyOnWrite dt line => exact execReplicaCopyOnWrite_keeps (Keeps.refl s) dt line
  | replicaLinkChange dt up => exact execReplicaLinkChange_keeps (Keeps.refl s) dt up
  | rplHandoverArm dt req key => exact execRplHandoverArm_keeps (Keeps.refl s) dt req key
  | rplHandoverCancel dt req key => exact execRplHandoverCancel_keeps (Keeps.refl s) dt req key
  | handoverDeadline dt => exact execHandoverDeadline_keeps (Keeps.refl s) dt
  | lcsCmdTransition dt req key arg nonceLo nonceHi => exact execLcsCmdTransition_keeps (Keeps.refl s) dt req key arg nonceLo nonceHi
  | lcsCmdRevoke dt req key arg nonceLo nonceHi => exact execLcsCmdRevoke_keeps (Keeps.refl s) dt req key arg nonceLo nonceHi
  | lcsCmdWriteFw dt req key written verified => exact execLcsCmdWriteFw_keeps (Keeps.refl s) dt req key written verified
  | lcsCmdWriteDocent dt req key written verified => exact execLcsCmdWriteDocent_keeps (Keeps.refl s) dt req key written verified
  | lcsCmdWriteBootcfg dt req key written verified => exact execLcsCmdWriteBootcfg_keeps (Keeps.refl s) dt req key written verified
  | lcsCmdCommitFw dt req key => exact execLcsCmdCommitFw_keeps (Keeps.refl s) dt req key
  | lcsCmdRestart dt req key => exact execLcsCmdRestart_keeps (Keeps.refl s) dt req key
  | lcsCmdVerify dt req key arg => exact execLcsCmdVerify_keeps (Keeps.refl s) dt req key arg
  | lcsCmdComplete dt => exact execLcsCmdComplete_keeps (Keeps.refl s) dt
  | steReqWrite dt req key blk unit => exact execSteReqWrite_keeps (Keeps.refl s) dt req key blk unit
  | steTest dt passed sig => exact execSteTest_keeps (Keeps.refl s) dt passed sig
  | cvHello dt m => exact execCvHello_keeps (Keeps.refl s) dt m
  | cvBegin dt addr port msg => exact execCvBegin_keeps (Keeps.refl s) dt addr port msg
  | cvData dt addr port msg => exact execCvData_keeps (Keeps.refl s) dt addr port msg
  | cvEnd dt source msg => exact execCvEnd_keeps (Keeps.refl s) dt source msg
  | cvWriteDone dt written => exact execCvWriteDone_keeps (Keeps.refl s) dt written
  | cvReset dt m => exact execCvReset_keeps (Keeps.refl s) dt m
  | cvAbort dt m => exact execCvAbort_keeps (Keeps.refl s) dt m
  | cvSessionTimeout dt => exact execCvSessionTimeout_keeps (Keeps.refl s) dt
  | prvRecordPost dt src => exact execPrvRecordPost_keeps (Keeps.refl s) dt src
  | prvModuleRecord dt r => exact execPrvModuleRecord_keeps (Keeps.refl s) dt r
  | prvCommit dt => exact execPrvCommit_keeps (Keeps.refl s) dt
  | prvRdseqWrite dt req seq => exact execPrvRdseqWrite_keeps (Keeps.refl s) dt req seq
  | pwrPfw dt vin => exact execPwrPfw_keeps (Keeps.refl s) dt vin
  | pwrPfwClear dt vin => exact execPwrPfwClear_keeps (Keeps.refl s) dt vin
  | pwrNvStop dt vhold => exact execPwrNvStop_keeps (Keeps.refl s) dt vhold
  | orderlyReset dt => exact execOrderlyReset_keeps (Keeps.refl s) dt
  | pwrOvervoltage dt vin => exact execPwrOvervoltage_keeps (Keeps.refl s) dt vin
  | overvoltageReconnect dt vin => exact execOvervoltageReconnect_keeps (Keeps.refl s) dt vin
  | pwrVinRange dt high vin => exact execPwrVinRange_keeps (Keeps.refl s) dt high vin
  | pwrTempWarn dt temp => exact execPwrTempWarn_keeps (Keeps.refl s) dt temp
  | pwrOvertemp dt temp => exact execPwrOvertemp_keeps (Keeps.refl s) dt temp
  | sysPlugFault dt => exact execSysPlugFault_keeps (Keeps.refl s) dt
  | holdupCharged dt vhold => exact execHoldupCharged_keeps (Keeps.refl s) dt vhold
  | tempwarnClear dt temp => exact execTempwarnClear_keeps (Keeps.refl s) dt temp
  | overtempRelease dt temp env => exact execOvertempRelease_keeps (Keeps.refl s) dt temp env
  | garnetSupplyLoss dt => exact execGarnetSupplyLoss_keeps (Keeps.refl s) dt
  | cscLockGrantRx dt retried => exact execCscLockGrantRx_keeps (Keeps.refl s) dt retried
  | tamperLatchSet dt => exact execTamperLatchSet_keeps (Keeps.refl s) dt
theorem keeps_of_exec {i : Instr} {s t : State} (h : exec i s = .next t) : Keeps s t := exec_keeps i s t h

/-- Settles O5, by what every command keeps. -/
theorem commandsKeepTheQueue : Obligations.CommandsKeepTheQueue := fun _ _ _ h => (keeps_of_exec h).queue

/-- Settles O6, by what every command keeps. -/
theorem ownClockNeverFalls : Obligations.OwnClockNeverFalls := fun _ _ _ h =>
  ⟨(keeps_of_exec h).clock, (keeps_of_exec h).free⟩

/-- What a command keeps, every step keeps of a sound state. -/
theorem wf_of_keeps {s t : State} (h : Keeps s t) (hs : s.wf = true) : t.wf = true := by
  obtain ⟨hregs, hmem⟩ := Bool.and_eq_true_iff.mp hs
  exact Bool.and_eq_true_iff.mpr ⟨h.regs hregs, h.mem hmem⟩

/-- Settles O4: an idle step changes nothing, and a command is run on a state that has the same registers and memory. -/
theorem everyStepKeepsCanonicalForm : Obligations.EveryStepKeepsCanonicalForm := by
  intro s t hs hstep
  unfold step at hstep
  split at hstep
  case h_1 => rwa [← Host.Outcome.next.inj hstep]
  case h_2 i rest hpending => exact wf_of_keeps (keeps_of_exec hstep) hs

/-- The counters of the blocks before Ethernet, as the windows of a snapshot list them, have no reset value but 0. -/
theorem resetWord_windows :
    ((windows.filter fun w => decide (w.addr < 0xA0000)).all fun w => (List.range w.count).all fun k =>
      Config.resetWord (w.addr + 8 * k) == 0 && Config.resetWord (w.addr + 8 * k + 4) == 0) = true := by
  decide +kernel

theorem fwwr_reset : ∀ b, b < 27 → State.reset.getF (Fld.FAB_FWWR_MASK b) = 13 := by decide +kernel
theorem ccfg_en_reset : ∀ c, c < 64 → State.reset.bit (Fld.ARC_CCFG_EN c) = true := by decide +kernel
theorem chstat_reset : ∀ c, c < 16 → State.reset.getF (Fld.CRR_CHSTAT_STATE c) = 0 := by decide +kernel

/-- Settles O3: the windows by their list, and each named register by its reset value. -/
theorem resetValues : Obligations.ResetValues := by
  refine ⟨?windows, fwwr_reset, ccfg_en_reset, chstat_reset, by decide +kernel, by decide +kernel, by decide +kernel,
    by decide +kernel, by decide +kernel, by decide +kernel⟩
  intro w hw haddr k hk
  have hall := resetWord_windows
  simp only [List.all_eq_true, List.mem_filter, List.mem_range, Bool.and_eq_true, beq_iff_eq, decide_eq_true_eq] at hall
  obtain ⟨hlow, hhigh⟩ := hall w ⟨hw, haddr⟩ k hk
  rw [rd64_reset, hlow, hhigh]
  rfl

/-! ### Commands that cannot exist -/

/-- The two tables of the rings of a block agree. -/
theorem ringCount_eq_rings (b : RingBlk) : ringCount b = b.rings := by cases b <;> rfl

theorem exec_ringEnableWrite_of_wf {ring : Nat} {blk : RingBlk} (h : ring < blk.rings) (dt : Nat) (req : Requester) (value : Word)
    (s : State) : ∃ t, exec (.ringEnableWrite dt req blk ring value) s = .next t := by
  rw [← ringCount_eq_rings] at h
  exact ⟨_, if_neg (Nat.not_le_of_lt h)⟩

/-- What the meaning of REGISTER_WRITE asks of an access is what `accessOk` states. -/
theorem accessOk_eq_true_iff (addr size : Nat) : accessOk addr size = true ↔
    ¬ ((size ≠ 1 ∧ size ≠ 2 ∧ size ≠ 4 ∧ size ≠ 8) ∨ addr % size ≠ 0 ∨ 0x10000000000 ≤ addr) := by
  simp only [accessOk, Bool.and_eq_true, Bool.or_eq_true, beq_iff_eq, decide_eq_true_eq]
  omega

theorem exec_registerWrite_of_wf {addr size : Nat} (h : accessOk addr size = true) (dt : Nat) (req : Requester) (value : BitVec 64)
    (s : State) : ∃ t, exec (.registerWrite dt req addr size value) s = .next t :=
  ⟨_, if_neg ((accessOk_eq_true_iff addr size).mp h)⟩

/-- Every command that can exist answers a next state: but for two rows the meaning is one `next` outright. -/
theorem exec_answers_of_wf (i : Instr) (s : State) (h : i.wf = true) : ∃ t, exec i s = .next t := by
  cases i with
  | powerApplied dt vin env => exact ⟨_, rfl⟩
  | moduleReset dt cause env => exact ⟨_, rfl⟩
  | startupLbistComplete dt failed ms => exact ⟨_, rfl⟩
  | romBoot dt => exact ⟨_, rfl⟩
  | docentStart dt => exact ⟨_, rfl⟩
  | runtimeStart dt info => exact ⟨_, rfl⟩
  | arcStartCarry dt => exact ⟨_, rfl⟩
  | beatEdge dt env => exact ⟨_, rfl⟩
  | gptpSyncRx dt offset sync => exact ⟨_, rfl⟩
  | ppsInPulse dt pulse => exact ⟨_, rfl⟩
  | refLost dt => exact ⟨_, rfl⟩
  | firstLockTimeout dt => exact ⟨_, rfl⟩
  | timStepAccept dt req key accept => exact ⟨_, rfl⟩
  | popTsqMetaRead dt req q wide => exact ⟨_, rfl⟩
  | popResponseAccepted dt q => exact ⟨_, rfl⟩
  | popResponseDiscarded dt q => exact ⟨_, rfl⟩
  | launchTimeReached dt port queue => exact ⟨_, rfl⟩
  | invAnnouncementRx dt a => exact ⟨_, rfl⟩
  | invAnnGo dt req go => exact ⟨_, rfl⟩
  | voteDecision dt b => exact ⟨_, rfl⟩
  | voteTimeout dt b => exact ⟨_, rfl⟩
  | triadL1Uncorrectable dt lane e addr => exact ⟨_, rfl⟩
  | boundaryItemCapture dt item parityErr => exact ⟨_, rfl⟩
  | voterProbe dt failing => exact ⟨_, rfl⟩
  | vsync dt word priv onApp recs agree back => exact ⟨_, rfl⟩
  | vsyncDeadline dt => exact ⟨_, rfl⟩
  | vfence dt word priv onApp => exact ⟨_, rfl⟩
  | vfenceComplete dt acked => exact ⟨_, rfl⟩
  | vfenceTimeout dt => exact ⟨_, rfl⟩
  | triadReintWrite dt req lane => exact ⟨_, rfl⟩
  | triadSafereqWrite dt req key reason => exact ⟨_, rfl⟩
  | triadLoanRequest dt req => exact ⟨_, rfl⟩
  | triadLoanCancel dt req => exact ⟨_, rfl⟩
  | triadLoanretWrite dt req ret => exact ⟨_, rfl⟩
  | tcLoanException dt => exact ⟨_, rfl⟩
  | garnetSupplyRise dt => exact ⟨_, rfl⟩
  | garnetStartupCheckDone dt chk => exact ⟨_, rfl⟩
  | garnetEvalCycle dt sense => exact ⟨_, rfl⟩
  | safetyInputFilterExpiry dt input chanB level => exact ⟨_, rfl⟩
  | discrepancyFault dt inst => exact ⟨_, rfl⟩
  | testPulse dt tp patternOk reads => exact ⟨_, rfl⟩
  | garnetConfigCheck dt intact => exact ⟨_, rfl⟩
  | garAckWrite dt req insts => exact ⟨_, rfl⟩
  | offpulseTest dt pair side => exact ⟨_, rfl⟩
  | offpulsePulseEnd dt pair fell => exact ⟨_, rfl⟩
  | outputOverload dt pair kind => exact ⟨_, rfl⟩
  | feedbackTimeout dt pair => exact ⟨_, rfl⟩
  | garBrktestWrite dt req key pair => exact ⟨_, rfl⟩
  | brakeTestFbTimeout dt pair => exact ⟨_, rfl⟩
  | brakeTestPass dt pair => exact ⟨_, rfl⟩
  | brakeTestAbortEnd dt pair => exact ⟨_, rfl⟩
  | brakeTestDue dt pair => exact ⟨_, rfl⟩
  | garPermitWrite dt req seq rel => exact ⟨_, rfl⟩
  | garWithdrawWrite dt req pairs => exact ⟨_, rfl⟩
  | permitLost dt pair => exact ⟨_, rfl⟩
  | permitMidpointToggle dt => exact ⟨_, rfl⟩
  | grstRelease dt width sense => exact ⟨_, rfl⟩
  | custodyEnableFall dt => exact ⟨_, rfl⟩
  | holdTimeout dt pair => exact ⟨_, rfl⟩
  | cfgOpen dt req => exact ⟨_, rfl⟩
  | cfgEnterLockout dt req => exact ⟨_, rfl⟩
  | cfgLoad dt req chunk => exact ⟨_, rfl⟩
  | cfgReadback dt req chunk => exact ⟨_, rfl⟩
  | cfgAccept dt req => exact ⟨_, rfl⟩
  | cfgDiscard dt req => exact ⟨_, rfl⟩
  | cfgClose dt req => exact ⟨_, rfl⟩
  | cfgSetpw dt req => exact ⟨_, rfl⟩
  | garCfgcmdComplete dt => exact ⟨_, rfl⟩
  | garSessionTimeout dt => exact ⟨_, rfl⟩
  | garAuthBlockExpiry dt => exact ⟨_, rfl⟩
  | pendingImageExpiry dt => exact ⟨_, rfl⟩
  | taskReady dt task => exact ⟨_, rfl⟩
  | rtsDoneWrite dt req task done => exact ⟨_, rfl⟩
  | rtsOcArm dt req pkg => exact ⟨_, rfl⟩
  | rtsOcCancel dt req => exact ⟨_, rfl⟩
  | rtsForceupdWrite dt req index => exact ⟨_, rfl⟩
  | apcPairMismatch dt pair cmp => exact ⟨_, rfl⟩
  | apcRestartWrite dt req key cores => exact ⟨_, rfl⟩
  | apcFence dt core => exact ⟨_, rfl⟩
  | releaseStore dt core addr bytes => exact ⟨_, rfl⟩
  | cacheEccUncorrectable dt e => exact ⟨_, rfl⟩
  | fabricGrant dt arrivals target => exact ⟨_, rfl⟩
  | fabricAgePromotion dt id => exact ⟨_, rfl⟩
  | catalogueInvalidate dt req blk index => exact ⟨_, rfl⟩
  | catalogueStagingReadDone dt blk index ended => exact ⟨_, rfl⟩
  | catalogueEnableWrite dt req blk => exact ⟨_, rfl⟩
  | ringProducer dt req blk ring tail => exact ⟨_, rfl⟩
  | ringEnableWrite dt req blk ring value => exact exec_ringEnableWrite_of_wf (of_decide_eq_true h) dt req value s
  | registerWrite dt req addr size value => exact exec_registerWrite_of_wf h dt req value s
  | fieldSupplyChange dt group vf => exact ⟨_, rfl⟩
  | antiglitchExpiry dt ch reading => exact ⟨_, rfl⟩
  | debounceExpiry dt ch => exact ⟨_, rfl⟩
  | supgapTimeout dt ch => exact ⟨_, rfl⟩
  | fioThermal dt ch => exact ⟨_, rfl⟩
  | thermalRestart dt ch => exact ⟨_, rfl⟩
  | fioGroupOverload dt group => exact ⟨_, rfl⟩
  | groupOverloadEnd dt group => exact ⟨_, rfl⟩
  | ovlClear dt group => exact ⟨_, rfl⟩
  | outputDiagTest dt ch withTest withoutTest current => exact ⟨_, rfl⟩
  | fallbackRefresh dt refresh => exact ⟨_, rfl⟩
  | inboundFrameRx dt group frame => exact ⟨_, rfl⟩
  | outboundFrameRx dt group frame => exact ⟨_, rfl⟩
  | outputWatchdogExpiry dt ch => exact ⟨_, rfl⟩
  | failHoldExpiry dt ch => exact ⟨_, rfl⟩
  | sincOutput dt ch bits => exact ⟨_, rfl⟩
  | measOutputReady dt ch => exact ⟨_, rfl⟩
  | measStuck dt ch => exact ⟨_, rfl⟩
  | streamUnstuck dt ch => exact ⟨_, rfl⟩
  | measRingrdWrite dt req ch value => exact ⟨_, rfl⟩
  | syncInEdge dt rising width => exact ⟨_, rfl⟩
  | measSyncNow dt req key => exact ⟨_, rfl⟩
  | measSyncArm dt req key => exact ⟨_, rfl⟩
  | measSyncDisarm dt req key => exact ⟨_, rfl⟩
  | measSync dt => exact ⟨_, rfl⟩
  | measPllLost dt => exact ⟨_, rfl⟩
  | measPllLocked dt => exact ⟨_, rfl⟩
  | linkDelayExchange dt port delay => exact ⟨_, rfl⟩
  | walLink dt port up => exact ⟨_, rfl⟩
  | walFrameRx dt port frame => exact ⟨_, rfl⟩
  | walSlotTx dt chan entry => exact ⟨_, rfl⟩
  | guardianCut dt chan => exact ⟨_, rfl⟩
  | walGuardClk dt port interval => exact ⟨_, rfl⟩
  | forwardCut dt port => exact ⟨_, rfl⟩
  | walListenTimeout dt chan => exact ⟨_, rfl⟩
  | contentionWindowEnd dt chan => exact ⟨_, rfl⟩
  | walBackoff dt chan => exact ⟨_, rfl⟩
  | ethFrameRx dt port frame => exact ⟨_, rfl⟩
  | ethFrameTxStart dt port => exact ⟨_, rfl⟩
  | ethTxComplete dt port => exact ⟨_, rfl⟩
  | ethTxDescTaken dt ring ended => exact ⟨_, rfl⟩
  | ethRxRingDelivery dt ring => exact ⟨_, rfl⟩
  | ethRingDisable dt req ring => exact ⟨_, rfl⟩
  | frameAged dt port queue => exact ⟨_, rfl⟩
  | fdbEntryAged dt mac vid => exact ⟨_, rfl⟩
  | gateIntervalEnd dt port => exact ⟨_, rfl⟩
  | ethGclCommit dt req port value => exact ⟨_, rfl⟩
  | ethGclSwitch dt port => exact ⟨_, rfl⟩
  | frerResetTimeout dt n => exact ⟨_, rfl⟩
  | ethLink dt port up speed => exact ⟨_, rfl⟩
  | trdpTelegramRx dt host frame => exact ⟨_, rfl⟩
  | mvbFrameInstant dt m => exact ⟨_, rfl⟩
  | mvbMasterFrame dt poll => exact ⟨_, rfl⟩
  | canFrameRx dt u f => exact ⟨_, rfl⟩
  | serialTxLaunch dt blk who => exact ⟨_, rfl⟩
  | serialTxDone dt blk u => exact ⟨_, rfl⟩
  | serTxStale dt u => exact ⟨_, rfl⟩
  | canErrorFrame dt u role more => exact ⟨_, rfl⟩
  | canBusoffRecovery dt u => exact ⟨_, rfl⟩
  | serFrameEnd dt u f => exact ⟨_, rfl⟩
  | serOverrun dt u => exact ⟨_, rfl⟩
  | crrChainStart dt c => exact ⟨_, rfl⟩
  | crrDescriptorTaken dt c ended => exact ⟨_, rfl⟩
  | crrDescriptorDone dt c far farWord => exact ⟨_, rfl⟩
  | crrMoveError dt c ended bytesMoved far => exact ⟨_, rfl⟩
  | crrReadbackDone dt c equal => exact ⟨_, rfl⟩
  | crrRingDisable dt req c bytesMoved far => exact ⟨_, rfl⟩
  | popCrrMetaRead dt req c wide => exact ⟨_, rfl⟩
  | lpeEnable dt req u value => exact ⟨_, rfl⟩
  | lpeDisable dt req u => exact ⟨_, rfl⟩
  | lpeRestart dt req mask => exact ⟨_, rfl⟩
  | lpeUnitEnd dt u unit => exact ⟨_, rfl⟩
  | cscLink dt down e => exact ⟨_, rfl⟩
  | cscMemberRx dt vec => exact ⟨_, rfl⟩
  | cscInboundTransaction dt down t => exact ⟨_, rfl⟩
  | cscCompletionRx dt down tag status data => exact ⟨_, rfl⟩
  | cscReadTimeout dt down tag => exact ⟨_, rfl⟩
  | cscLockReq dt pos => exact ⟨_, rfl⟩
  | cscLockRelease dt => exact ⟨_, rfl⟩
  | cscLockWatchdog dt asTarget => exact ⟨_, rfl⟩
  | cscAuditRx dt down consumed => exact ⟨_, rfl⟩
  | cscSyncAtRx dt instant => exact ⟨_, rfl⟩
  | cscAnnounceRx dt a => exact ⟨_, rfl⟩
  | cscInvCollected dt slots => exact ⟨_, rfl⟩
  | arcOccurrence dt port => exact ⟨_, rfl⟩
  | arcWriteDescriptor dt ring ended => exact ⟨_, rfl⟩
  | arcCommitAgeExpiry dt unit => exact ⟨_, rfl⟩
  | arcUnitCommit dt => exact ⟨_, rfl⟩
  | arcCommitDone dt => exact ⟨_, rfl⟩
  | arcSealWrite dt req mask => exact ⟨_, rfl⟩
  | arcUnsealWrite dt req mask => exact ⟨_, rfl⟩
  | arcSealExpired dt coll => exact ⟨_, rfl⟩
  | arcReadDescriptor dt ring => exact ⟨_, rfl⟩
  | popArcNextRead dt req wide => exact ⟨_, rfl⟩
  | arcEraseWrite dt req key coll => exact ⟨_, rfl⟩
  | farwireReading dt mv => exact ⟨_, rfl⟩
  | blockedRecovery dt => exact ⟨_, rfl⟩
  | custodyEnableLoss dt => exact ⟨_, rfl⟩
  | custodyClaim dt => exact ⟨_, rfl⟩
  | claimCheck dt mv => exact ⟨_, rfl⟩
  | custodyNegotiation dt => exact ⟨_, rfl⟩
  | custodyNegotiationDelay dt => exact ⟨_, rfl⟩
  | replicaShipDeadline dt shipped => exact ⟨_, rfl⟩
  | replicaFrameRx dt peer frame => exact ⟨_, rfl⟩
  | replicaCopyOnWrite dt line => exact ⟨_, rfl⟩
  | replicaLinkChange dt up => exact ⟨_, rfl⟩
  | rplHandoverArm dt req key => exact ⟨_, rfl⟩
  | rplHandoverCancel dt req key => exact ⟨_, rfl⟩
  | handoverDeadline dt => exact ⟨_, rfl⟩
  | lcsCmdTransition dt req key arg nonceLo nonceHi => exact ⟨_, rfl⟩
  | lcsCmdRevoke dt req key arg nonceLo nonceHi => exact ⟨_, rfl⟩
  | lcsCmdWriteFw dt req key written verified => exact ⟨_, rfl⟩
  | lcsCmdWriteDocent dt req key written verified => exact ⟨_, rfl⟩
  | lcsCmdWriteBootcfg dt req key written verified => exact ⟨_, rfl⟩
  | lcsCmdCommitFw dt req key => exact ⟨_, rfl⟩
  | lcsCmdRestart dt req key => exact ⟨_, rfl⟩
  | lcsCmdVerify dt req key arg => exact ⟨_, rfl⟩
  | lcsCmdComplete dt => exact ⟨_, rfl⟩
  | steReqWrite dt req key blk unit => exact ⟨_, rfl⟩
  | steTest dt passed sig => exact ⟨_, rfl⟩
  | cvHello dt m => exact ⟨_, rfl⟩
  | cvBegin dt addr port msg => exact ⟨_, rfl⟩
  | cvData dt addr port msg => exact ⟨_, rfl⟩
  | cvEnd dt source msg => exact ⟨_, rfl⟩
  | cvWriteDone dt written => exact ⟨_, rfl⟩
  | cvReset dt m => exact ⟨_, rfl⟩
  | cvAbort dt m => exact ⟨_, rfl⟩
  | cvSessionTimeout dt => exact ⟨_, rfl⟩
  | prvRecordPost dt src => exact ⟨_, rfl⟩
  | prvModuleRecord dt r => exact ⟨_, rfl⟩
  | prvCommit dt => exact ⟨_, rfl⟩
  | prvRdseqWrite dt req seq => exact ⟨_, rfl⟩
  | pwrPfw dt vin => exact ⟨_, rfl⟩
  | pwrPfwClear dt vin => exact ⟨_, rfl⟩
  | pwrNvStop dt vhold => exact ⟨_, rfl⟩
  | orderlyReset dt => exact ⟨_, rfl⟩
  | pwrOvervoltage dt vin => exact ⟨_, rfl⟩
  | overvoltageReconnect dt vin => exact ⟨_, rfl⟩
  | pwrVinRange dt high vin => exact ⟨_, rfl⟩
  | pwrTempWarn dt temp => exact ⟨_, rfl⟩
  | pwrOvertemp dt temp => exact ⟨_, rfl⟩
  | sysPlugFault dt => exact ⟨_, rfl⟩
  | holdupCharged dt vhold => exact ⟨_, rfl⟩
  | tempwarnClear dt temp => exact ⟨_, rfl⟩
  | overtempRelease dt temp env => exact ⟨_, rfl⟩
  | garnetSupplyLoss dt => exact ⟨_, rfl⟩
  | cscLockGrantRx dt retried => exact ⟨_, rfl⟩
  | tamperLatchSet dt => exact ⟨_, rfl⟩

/-- Only the two rows with operands that their types leave open can be ill formed, and both stop with that fault. -/
theorem exec_faults_of_not_wf (i : Instr) (s : State) (h : i.wf = false) : exec i s = .fault .illFormed := by
  unfold Instr.wf at h
  split at h
  case h_1 dt req blk ring value =>
    refine if_pos ?_
    rw [ringCount_eq_rings]
    exact Nat.le_of_not_lt (of_decide_eq_false h)
  case h_2 dt req addr size value =>
    refine if_pos (Decidable.of_not_not fun hok => ?_)
    exact Bool.false_ne_true (h.symm.trans ((accessOk_eq_true_iff addr size).mpr hok))
  case h_3 => exact absurd h.symm Bool.false_ne_true

/-- Settles O7: the commands that can exist by the first lemma, the two kinds that cannot by the second. -/
theorem onlyIllFormedCommandsStop : Obligations.OnlyIllFormedCommandsStop := fun i s =>
  ⟨exec_answers_of_wf i s, exec_faults_of_not_wf i s⟩

end Sys2Proof.Proofs.Machine

/-! Time: measurements of the reference, and the beat edge (R53, R58, R63, R71). -/

namespace Sys2Proof.Proofs.Reference

open Sys2Proof Sys2Proof.Machine Sys2Proof.Laws

-- Theorems that the kernel evaluates are checked one after the other: side by side they take more memory than there is.
set_option Elab.async false

/-! ### What a lock is remembered as (R58) -/

/-- A module that had been locked to PPS, and now follows gPTP: the counterexample to O13. -/
def wasLockedToPps : State := { State.reset with time := { State.reset.time with firstLockDone := true, ppsLock := true } }

/-- A Sync of the domain of the module, by a grandmaster that no PPS input is. -/
def syncOfGrandmaster7 : GptpSync := { domain := 0, gm := 7, prio1 := 0, ahead := true }

/-- The state that a Sync with no offset leaves. -/
def lockedToGptp : State := (wasLockedToPps.elapse 0).measure 0 7

theorem exec_syncToLocked : exec (.gptpSyncRx 0 0 syncOfGrandmaster7) wasLockedToPps = .next lockedToGptp := by
  have hfollows : (wasLockedToPps.elapse 0).getF Fld.TIM_CTL_REFSEL = 0 ∧
      (wasLockedToPps.elapse 0).follows syncOfGrandmaster7 = true := by decide +kernel
  exact congrArg Host.Outcome.next (if_pos hfollows)

/-- A lock to a grandmaster ends the memory of a lock to PPS. -/
theorem ppsLock_lockedToGptp : wasLockedToPps.time.ppsLock = true ∧ lockedToGptp.time.ppsLock = false := by decide +kernel

/-- Refutes O13: a measurement within the limit enters LOCKED, where the model also remembers whether the lock is one to PPS; the
frame of the statement's second part does not admit that change. -/
theorem not_timeReferences : ¬ Obligations.TimeReferences := by
  intro h
  obtain ⟨-, hwithin, -⟩ := h wasLockedToPps 0 (by decide +kernel)
  obtain ⟨t, hexec, -, -, -, -, -, -, -, hrest⟩ :=
    hwithin 0 syncOfGrandmaster7 (by decide +kernel) (by decide +kernel) rfl (by decide +kernel)
  obtain rfl : lockedToGptp = t := Host.Outcome.next.inj (exec_syncToLocked.symm.trans hexec)
  have hsame := congrArg (fun u : State => u.time.ppsLock) hrest
  change lockedToGptp.time.ppsLock = wasLockedToPps.time.ppsLock at hsame
  rw [ppsLock_lockedToGptp.1, ppsLock_lockedToGptp.2] at hsame
  exact Bool.false_ne_true hsame

/-! ### A step that a device accepts at the edge (R57, R70, assumption 133) -/

/-- A module in HOLDOVER with its reference back, whose firewall lets Courier write the TIM block, with a write of Courier to
TIM_STEPCTL that waits for the next edge: the counterexample to O14. -/
def stepAcceptedByDevice : State :=
  let u := (State.reset.setF Fld.TIM_STATUS_STATE 3).setF (Fld.FAB_FWWR_MASK 1) 0x7F
  { u with
    time := { u.time with refPresent := true }
    app := { u.app with devRegs := [(.c, regPhys Reg.TIM_STEPCTL, leBytes 4 0xA501)] } }

/-- A start without anything to start. -/
def noStart : StartInfo :=
  { programId := 0, layoutHash := 0, fmtVer := 0, retainEccOk := true, instances := [], initialOutputs := [], initialRetain := []
    initialVars := [] }

/-- An edge at which nothing is measured and nothing goes wrong. -/
def quietEdge : EdgeEnv := { stepDelta := 0, tornEntries := [], imageErrors := [], cold := noStart, couplersWrong := 0 }

/-- The state after the edge. -/
def stepAppliedAtOnce : State := (stepAcceptedByDevice.elapse 0).beatEdge quietEdge

theorem exec_edgeWithStepctl : exec (.beatEdge 0 quietEdge) stepAcceptedByDevice = .next stepAppliedAtOnce := by
  have hon : (stepAcceptedByDevice.elapse 0).lcs.phase ≠ .off := by decide +kernel
  exact congrArg Host.Outcome.next (if_neg hon)

/-- No step was pending before the edge, and the edge begins a stretched beat. -/
theorem stretch_stepAppliedAtOnce : stepAcceptedByDevice.bit Fld.TIM_STATUS_STEP_PENDING = false ∧
    stepAppliedAtOnce.bit Fld.TIM_STATUS_STRETCH = true := by decide +kernel

/-- Refutes O14: the write of a device to TIM_STEPCTL takes effect at the edge before the edge applies steps, so that a step which
was not pending before the edge is applied at it, and the beat is a stretched one against the statement's third part. -/
theorem not_beatEdges : ¬ Obligations.BeatEdges := by
  intro h
  obtain ⟨-, -, hquiet, -⟩ := h stepAcceptedByDevice 0 (by decide +kernel)
  obtain ⟨t, hexec, -, -, hstretch, -⟩ := hquiet quietEdge stretch_stepAppliedAtOnce.1
  obtain rfl : stepAppliedAtOnce = t := Host.Outcome.next.inj (exec_edgeWithStepctl.symm.trans hexec)
  rw [stretch_stepAppliedAtOnce.2] at hstretch
  exact absurd hstretch (by decide)

end Sys2Proof.Proofs.Reference

/-! Register programs: the register writes of a command as data, so that what a register reads after them is computed, and what
they leave is a list of words. -/

namespace Sys2Proof.Proofs.RegOps

open Sys2Proof Sys2Proof.Machine Sys2Proof.Laws Sys2Proof.Proofs.Time

/-! ### A register file as a function -/

/-- What every register word reads. -/
abbrev View := Nat → Word

namespace View

def rd (ρ : View) (a : Nat) : Nat := (ρ a).toNat
def rd64 (ρ : View) (a : Nat) : Nat := ρ.rd a + 4294967296 * ρ.rd (a + 4)
def getF (ρ : View) (f : Field) : Nat := (if f.lo + f.len ≤ 32 then ρ.rd f.addr else ρ.rd64 f.addr) / 2 ^ f.lo % 2 ^ f.len
def wr (ρ : View) (a v : Nat) : View := Function.update ρ a (BitVec.ofNat 32 v)
def wr64 (ρ : View) (a v : Nat) : View := (ρ.wr a v).wr (a + 4) (v / 4294967296)
def add64 (ρ : View) (a n : Nat) : View := ρ.wr64 a (ρ.rd64 a + n)
def setF (ρ : View) (f : Field) (v : Nat) : View :=
  if f.lo + f.len ≤ 32 then ρ.wr f.addr (State.putBits (ρ.rd f.addr) f.lo f.len v)
  else ρ.wr64 f.addr (State.putBits (ρ.rd64 f.addr) f.lo f.len v)

/-! Reads after writes of words. -/

@[simp] theorem wr_ne (ρ : View) {a b : Nat} (h : b ≠ a) (v : Nat) : ρ.wr a v b = ρ b := Function.update_of_ne h ..

@[simp] theorem rd_wr_self (ρ : View) (a v : Nat) : (ρ.wr a v).rd a = v % 4294967296 := by
  simp [rd, wr, BitVec.toNat_ofNat]

@[simp] theorem rd_wr_ne (ρ : View) {a b : Nat} (h : b ≠ a) (v : Nat) : (ρ.wr a v).rd b = ρ.rd b := by
  rw [rd, wr_ne ρ h, rd]

theorem rd_lt (ρ : View) (a : Nat) : ρ.rd a < 4294967296 := (ρ a).isLt

theorem rd64_lt (ρ : View) (a : Nat) : ρ.rd64 a < 18446744073709551616 := by
  have hlow := ρ.rd_lt a
  have hhigh := ρ.rd_lt (a + 4)
  unfold rd64
  omega

@[simp] theorem wr64_ne (ρ : View) {a b : Nat} (h : b ≠ a) (h' : b ≠ a + 4) (v : Nat) : ρ.wr64 a v b = ρ b := by
  rw [wr64, wr_ne _ h', wr_ne _ h]

@[simp] theorem rd_wr64_ne (ρ : View) {a b : Nat} (h : b ≠ a) (h' : b ≠ a + 4) (v : Nat) : (ρ.wr64 a v).rd b = ρ.rd b := by
  rw [rd, wr64_ne ρ h h', rd]

@[simp] theorem rd64_wr64_self (ρ : View) (a v : Nat) : (ρ.wr64 a v).rd64 a = v % 18446744073709551616 := by
  rw [rd64, wr64, rd_wr_self, rd_wr_ne _ (by omega), rd_wr_self]
  omega

@[simp] theorem rd64_wr_ne (ρ : View) {a b : Nat} (h : b ≠ a) (h' : b + 4 ≠ a) (v : Nat) : (ρ.wr a v).rd64 b = ρ.rd64 b := by
  rw [rd64, rd_wr_ne _ h, rd_wr_ne _ h', rd64]

@[simp] theorem rd64_wr64_ne (ρ : View) {a b : Nat} (h : b ≠ a) (h' : b ≠ a + 4) (h'' : b + 4 ≠ a) (v : Nat) :
    (ρ.wr64 a v).rd64 b = ρ.rd64 b := by
  rw [rd64, rd_wr64_ne _ h h', rd_wr64_ne _ h'' (by omega), rd64]

@[simp] theorem add64_ne (ρ : View) {a b : Nat} (h : b ≠ a) (h' : b ≠ a + 4) (n : Nat) : ρ.add64 a n b = ρ b := wr64_ne ρ h h' _

@[simp] theorem rd_add64_ne (ρ : View) {a b : Nat} (h : b ≠ a) (h' : b ≠ a + 4) (n : Nat) : (ρ.add64 a n).rd b = ρ.rd b :=
  rd_wr64_ne ρ h h' _

@[simp] theorem rd64_add64_self (ρ : View) (a n : Nat) : (ρ.add64 a n).rd64 a = (ρ.rd64 a + n) % 18446744073709551616 :=
  rd64_wr64_self ρ a _

@[simp] theorem rd64_add64_ne (ρ : View) {a b : Nat} (h : b ≠ a) (h' : b ≠ a + 4) (h'' : b + 4 ≠ a) (n : Nat) :
    (ρ.add64 a n).rd64 b = ρ.rd64 b := rd64_wr64_ne ρ h h' h'' _

/-! Fields. -/

@[simp] theorem setF_ne (ρ : View) {f : Field} {b : Nat} (hf : f.lo + f.len ≤ 32) (h : b ≠ f.addr) (v : Nat) :
    ρ.setF f v b = ρ b := by
  rw [setF, if_pos hf, wr_ne ρ h]

@[simp] theorem rd_setF_ne (ρ : View) {f : Field} {b : Nat} (hf : f.lo + f.len ≤ 32) (h : b ≠ f.addr) (v : Nat) :
    (ρ.setF f v).rd b = ρ.rd b := by
  rw [rd, setF_ne ρ hf h, rd]

@[simp] theorem rd64_setF_ne (ρ : View) {f : Field} {b : Nat} (hf : f.lo + f.len ≤ 32) (h : b ≠ f.addr) (h' : b + 4 ≠ f.addr)
    (v : Nat) : (ρ.setF f v).rd64 b = ρ.rd64 b := by
  rw [rd64, rd_setF_ne ρ hf h, rd_setF_ne ρ hf h', rd64]

@[simp] theorem getF_setF_self (ρ : View) {f : Field} (hf : f.lo + f.len ≤ 32) (v : Nat) :
    (ρ.setF f v).getF f = v % 2 ^ f.len := by
  have hb : State.putBits (ρ.rd f.addr) f.lo f.len v < 4294967296 := putBits_lt (n := 32) (ρ.rd_lt f.addr) hf
  rw [getF, setF, if_pos hf, if_pos hf, rd_wr_self, Nat.mod_eq_of_lt hb, putBits_self]

/-- A field beside the one that is written. -/
@[simp] theorem getF_setF_ne (ρ : View) {f g : Field} (hf : f.lo + f.len ≤ 32) (hg : g.lo + g.len ≤ 32)
    (hd : f.addr ≠ g.addr ∨ g.lo + g.len ≤ f.lo ∨ f.lo + f.len ≤ g.lo) (v : Nat) : (ρ.setF f v).getF g = ρ.getF g := by
  have hb : State.putBits (ρ.rd f.addr) f.lo f.len v < 4294967296 := putBits_lt (n := 32) (ρ.rd_lt f.addr) hf
  rw [getF, getF, setF, if_pos hf, if_pos hg, if_pos hg]
  by_cases ha : f.addr = g.addr
  · rw [← ha, rd_wr_self, Nat.mod_eq_of_lt hb]
    rcases hd with hd | hd | hd
    · exact absurd ha hd
    · rw [putBits_below hd]
    · rw [putBits_above hd]
  · rw [rd_wr_ne _ (Ne.symm ha)]

@[simp] theorem getF_wr_ne (ρ : View) {a : Nat} {f : Field} (hf : f.lo + f.len ≤ 32) (h : f.addr ≠ a) (v : Nat) :
    (ρ.wr a v).getF f = ρ.getF f := by
  rw [getF, getF, if_pos hf, if_pos hf, rd_wr_ne _ h]

@[simp] theorem getF_wr64_ne (ρ : View) {a : Nat} {f : Field} (hf : f.lo + f.len ≤ 32) (h : f.addr ≠ a) (h' : f.addr ≠ a + 4)
    (v : Nat) : (ρ.wr64 a v).getF f = ρ.getF f := by
  rw [getF, getF, if_pos hf, if_pos hf, rd_wr64_ne _ h h']

@[simp] theorem getF_add64_ne (ρ : View) {a : Nat} {f : Field} (hf : f.lo + f.len ≤ 32) (h : f.addr ≠ a) (h' : f.addr ≠ a + 4)
    (n : Nat) : (ρ.add64 a n).getF f = ρ.getF f := getF_wr64_ne ρ hf h h' _

end View

/-! ### Truth values as bits -/

@[simp] theorem b2n_false : b2n false = 0 := rfl
@[simp] theorem b2n_true : b2n true = 1 := rfl
@[simp] theorem b2n_mod_two (b : Bool) : b2n b % 2 = b2n b := by cases b <;> rfl
@[simp] theorem b2n_bne_zero (b : Bool) : (b2n b != 0) = b := by cases b <;> rfl

/-! ### Module time that passes changes no register -/

@[simp] theorem rdw_elapse (s : State) (dt : Nat) : (s.elapse dt).rdw = s.rdw := rfl
@[simp] theorem rd_elapse (s : State) (dt a : Nat) : (s.elapse dt).rd a = s.rd a := rfl
@[simp] theorem rd64_elapse (s : State) (dt a : Nat) : (s.elapse dt).rd64 a = s.rd64 a := rfl
@[simp] theorem getF_elapse (s : State) (dt : Nat) (f : Field) : (s.elapse dt).getF f = s.getF f := rfl
@[simp] theorem bit_elapse (s : State) (dt : Nat) (f : Field) : (s.elapse dt).bit f = s.bit f := rfl
@[simp] theorem regsWf_elapse (s : State) (dt : Nat) : (s.elapse dt).regsWf = s.regsWf := rfl

/-! ### Register programs -/

/-- A write of the register file, as the operations of the model make it. -/
inductive RegOp where
  | field (f : Field) (v : Nat)
  | word (a v : Nat)
  | pair (a v : Nat)
  | count (a n : Nat)

namespace RegOp

/-- The write as the operation of the model. -/
def run (s : State) : RegOp → State
  | field f v => s.setF f v
  | word a v => s.wr a v
  | pair a v => s.wr64 a v
  | count a n => s.add64 a n

/-- The write as a change of what the words read. -/
def see (ρ : View) : RegOp → View
  | field f v => ρ.setF f v
  | word a v => ρ.wr a v
  | pair a v => ρ.wr64 a v
  | count a n => ρ.add64 a n

/-- The words that the write may change. -/
def words : RegOp → List Nat
  | field f _ => if f.lo + f.len ≤ 32 then [f.addr] else two f.addr
  | word a _ => [a]
  | pair a _ => two a
  | count a _ => two a

/-- A field of one bit. -/
abbrev bit (f : Field) (b : Bool) : RegOp := field f (b2n b)

theorem run_regsWf {s : State} (h : s.regsWf = true) (o : RegOp) : (o.run s).regsWf = true := by
  cases o with
  | field f v => exact regsWf_setF f v h
  | word a v => exact regsWf_wr a v h
  | pair a v => exact regsWf_wr64 a v h
  | count a n => exact regsWf_add64 a n h

theorem onlyRegs_run (s : State) (o : RegOp) : OnlyRegs s (o.run s) := by
  cases o with
  | field f v => exact onlyRegs_setF s f v
  | word a v => rfl
  | pair a v => rfl
  | count a n => rfl

end RegOp

/-- The register file after a program of writes. -/
def runAll (s : State) (l : List RegOp) : State := l.foldl RegOp.run s

/-- A state with its registers as a program of writes leaves them, and everything else as it was. -/
def regOps (s : State) (l : List RegOp) : State := { s with regs := (runAll s l).regs }

theorem rdw_wr {s : State} (h : s.regsWf = true) (a v : Nat) : (s.wr a v).rdw = View.wr s.rdw a v := by
  funext b
  by_cases hb : b = a
  · rw [hb, rdw_wr_self a v h, View.wr, Function.update_self]
  · rw [rdw_wr_ne (Ne.symm hb), View.wr_ne _ hb]

theorem rdw_wr64 {s : State} (h : s.regsWf = true) (a v : Nat) : (s.wr64 a v).rdw = View.wr64 s.rdw a v := by
  rw [State.wr64, rdw_wr (regsWf_wr a v h), rdw_wr h, View.wr64]

theorem rdw_run {s : State} (h : s.regsWf = true) (o : RegOp) : (o.run s).rdw = o.see s.rdw := by
  cases o with
  | field f v =>
    show (s.setF f v).rdw = View.setF s.rdw f v
    unfold State.setF View.setF
    split
    · exact rdw_wr h ..
    · exact rdw_wr64 h ..
  | word a v => exact rdw_wr h a v
  | pair a v => exact rdw_wr64 h a v
  | count a n => exact rdw_wr64 h a _

theorem runAll_regsWf {s : State} (h : s.regsWf = true) (l : List RegOp) : (runAll s l).regsWf = true := by
  induction l generalizing s with
  | nil => exact h
  | cons o l ih => exact ih (RegOp.run_regsWf h o)

theorem rdw_runAll {s : State} (h : s.regsWf = true) (l : List RegOp) : (runAll s l).rdw = l.foldl RegOp.see s.rdw := by
  induction l generalizing s with
  | nil => rfl
  | cons o l ih =>
    show (runAll (o.run s) l).rdw = _
    rw [ih (RegOp.run_regsWf h o), rdw_run h, List.foldl_cons]

theorem onlyRegs_runAll (s : State) (l : List RegOp) : OnlyRegs s (runAll s l) := by
  induction l generalizing s with
  | nil => rfl
  | cons o l ih => exact (RegOp.onlyRegs_run s o).trans (ih (o.run s))

theorem runAll_eq_regOps (s : State) (l : List RegOp) : runAll s l = regOps s l := onlyRegs_runAll s l

/-! ### What a state reads, through its register file alone -/

section
variable {s t : State} {l : List RegOp}

/-- The registers of `t` are those that a program leaves on `s`: what every read of `t` follows from. -/
theorem rdw_of_regs (h : s.regsWf = true) (ht : t.regs = (runAll s l).regs) : t.rdw = l.foldl RegOp.see s.rdw := by
  rw [← rdw_runAll h]
  funext a
  exact congrArg (fun r => sget Config.resetWord r a) ht

theorem rd_of_regs (h : s.regsWf = true) (ht : t.regs = (runAll s l).regs) (a : Nat) :
    t.rd a = View.rd (l.foldl RegOp.see s.rdw) a := by
  rw [State.rd, rdw_of_regs h ht, View.rd]

theorem rd64_of_regs (h : s.regsWf = true) (ht : t.regs = (runAll s l).regs) (a : Nat) :
    t.rd64 a = View.rd64 (l.foldl RegOp.see s.rdw) a := by
  rw [State.rd64, rd_of_regs h ht, rd_of_regs h ht, View.rd64]

theorem getF_of_regs (h : s.regsWf = true) (ht : t.regs = (runAll s l).regs) (f : Field) :
    t.getF f = View.getF (l.foldl RegOp.see s.rdw) f := by
  rw [State.getF, rd_of_regs h ht, rd64_of_regs h ht, View.getF]

theorem bit_of_regs (h : s.regsWf = true) (ht : t.regs = (runAll s l).regs) (f : Field) :
    t.bit f = (View.getF (l.foldl RegOp.see s.rdw) f != 0) := by
  rw [State.bit, getF_of_regs h ht]

@[simp] theorem View.rd_rdw (s : State) (a : Nat) : View.rd s.rdw a = s.rd a := rfl
@[simp] theorem View.rd64_rdw (s : State) (a : Nat) : View.rd64 s.rdw a = s.rd64 a := rfl
@[simp] theorem View.getF_rdw (s : State) (f : Field) : View.getF s.rdw f = s.getF f := rfl

/-- A word that no write of the program names. -/
theorem rdw_run_of_notMem (s : State) {o : RegOp} {a : Nat} (ha : a ∉ o.words) : (o.run s).rdw a = s.rdw a := by
  cases o with
  | field f v =>
    show (s.setF f v).rdw a = _
    unfold State.setF
    change a ∉ if f.lo + f.len ≤ 32 then [f.addr] else two f.addr at ha
    split
    case isTrue hf =>
      rw [if_pos hf, List.mem_singleton] at ha
      exact rdw_wr_ne (Ne.symm ha) _
    case isFalse hf =>
      rw [if_neg hf] at ha
      obtain ⟨hlow, hhigh⟩ : f.addr ≠ a ∧ f.addr + 4 ≠ a := by simpa [eq_comm] using ha
      simp [State.wr64, hlow, hhigh]
  | word b v => exact rdw_wr_ne (fun e => ha (by simp [RegOp.words, e])) v
  | pair b v =>
    obtain ⟨hlow, hhigh⟩ : b ≠ a ∧ b + 4 ≠ a := by simpa [RegOp.words, eq_comm] using ha
    simp [RegOp.run, State.wr64, hlow, hhigh]
  | count b n =>
    obtain ⟨hlow, hhigh⟩ : b ≠ a ∧ b + 4 ≠ a := by simpa [RegOp.words, eq_comm] using ha
    simp [RegOp.run, State.add64, State.wr64, hlow, hhigh]

theorem regsKept_runAll (s : State) (l : List RegOp) : RegsKept (l.flatMap RegOp.words) s (runAll s l) := by
  induction l generalizing s with
  | nil => intro a _; rfl
  | cons o l ih =>
    intro a ha
    rw [List.flatMap_cons, List.mem_append, not_or] at ha
    exact (ih (o.run s) a ha.2).trans (rdw_run_of_notMem s ha.1)

/-- A program changes only words that a list names. -/
theorem regsKept_of_regs {ws : List Nat} (ht : t.regs = (runAll s l).regs) (hsub : l.flatMap RegOp.words ⊆ ws) :
    RegsKept ws s t := by
  intro a ha
  rw [← regsKept_runAll s l a fun h => ha (hsub h)]
  exact congrArg (fun r => sget Config.resetWord r a) ht

end

end Sys2Proof.Proofs.RegOps

/-! Power supply: readings of the input and of the store (R547, R548, R551, R553). -/

namespace Sys2Proof.Proofs.PowerInput

open Sys2Proof Sys2Proof.Machine Sys2Proof.Laws Sys2Proof.Proofs.Time Sys2Proof.Proofs.Measurement Sys2Proof.Proofs.Power
open Sys2Proof.Proofs.RegOps

/-- A field of another word than the reading of the input. -/
theorem bit_setVin (s : State) (vin : Nat) {f : Field} (hf : f.lo + f.len ≤ 32) (ha : Reg.PWR_VIN ≠ f.addr) :
    (s.setVin vin).bit f = s.bit f := by
  rw [State.bit, State.setVin, getF_of_regsKept (regsKept_setF (by decide) vin) hf (by simpa [eq_comm] using ha), State.bit]

/-- PFW clears after a dip of `us` µs. -/
def pfwClearWrites (vin us : Nat) : List RegOp :=
  [.field Fld.PWR_VIN_VIN vin, .bit Fld.PWR_STATUS_PFW false, .count Reg.PWR_PFWCLEARS 1, .word Reg.PWR_LASTDIP us]

def pfwCleared (s : State) (vin us : Nat) : State :=
  { regOps s (pfwClearWrites vin us) with
    pwr := { s.pwr with pfwAt := none }
    arc := { s.arc with ports := portsWith s 0x16 ⟨0x17, 0x1702, 2, 59, s.time.mt, p4 [us]⟩ } }

theorem exec_pwrPfwClear {s : State} {dt vin since : Nat} (hon : s.lcs.phase ≠ .off) (hvin : 1500 ≤ vin)
    (hpfw : s.bit Fld.PWR_STATUS_PFW = true) (hnv : s.bit Fld.PWR_STATUS_NV_STOP = false)
    (hov : s.bit Fld.PWR_STATUS_OVDISC = false) (hat : s.pwr.pfwAt = some since) (hroom : PortRoom s 0x16) :
    exec (.pwrPfwClear dt vin) s = .next (pfwCleared (s.elapse dt) vin (((s.elapse dt).time.clock - since) / 1000)) := by
  have hclears : ¬ (vin < 1500 ∨ !((s.elapse dt).setVin vin).bit Fld.PWR_STATUS_PFW ∨
      ((s.elapse dt).setVin vin).bit Fld.PWR_STATUS_NV_STOP ∨ ((s.elapse dt).setVin vin).bit Fld.PWR_STATUS_OVDISC) := by
    simp [bit_setVin, hpfw, hnv, hov, hvin]
  have hsince : ((s.elapse dt).setVin vin).pwr.pfwAt = some since := hat
  refine congrArg Host.Outcome.next ((if_neg hon).trans ((if_neg hclears).trans ((emit_of_room (by exact hroom) ..).trans ?_)))
  rw [hsince]
  rfl

/-- X1 is disconnected while PFW stands already. -/
def disconnectWrites (vin : Nat) : List RegOp :=
  [.field Fld.PWR_VIN_VIN vin, .bit Fld.PWR_STATUS_OVDISC true, .count Reg.PWR_OVDISCS 1]

def disconnected (s : State) (vin : Nat) : State :=
  { regOps s (disconnectWrites vin) with
    pwr := { s.pwr with x1Connected := false }
    arc := { s.arc with ports := portsWith s 0x16 ⟨0x17, 0x1705, 4, 59, s.time.mt, p4 [vin]⟩ } }

theorem exec_pwrOvervoltage_of_pfw {s : State} {dt vin : Nat} (hw : s.regsWf = true) (hon : s.lcs.phase ≠ .off)
    (hvin : 15400 < vin) (hov : s.bit Fld.PWR_STATUS_OVDISC = false) (hpfw : s.bit Fld.PWR_STATUS_PFW = true)
    (hroom : PortRoom s 0x16) :
    exec (.pwrOvervoltage dt vin) s = .next (disconnected (s.elapse dt) vin) := by
  have hacts : ¬ (vin ≤ 15400 ∨ ((s.elapse dt).setVin vin).bit Fld.PWR_STATUS_OVDISC) := by
    simp [bit_setVin, hov, hvin]
  have hstands : (disconnected (s.elapse dt) vin).bit Fld.PWR_STATUS_PFW = true := by
    have hr : (disconnected (s.elapse dt) vin).regs = (runAll (s.elapse dt) (disconnectWrites vin)).regs := rfl
    rw [bit_of_regs (s := s.elapse dt) hw hr]
    simpa (disch := decide) [disconnectWrites, RegOp.see, State.bit] using hpfw
  refine congrArg Host.Outcome.next ((if_neg hon).trans ((if_neg hacts).trans ?_))
  refine (congrArg (fun u : State => u.assertPfw vin) (emit_of_room (by exact hroom) ..)).trans ?_
  exact if_pos hstands

/-- X1 is connected again. -/
def reconnectWrites (vin : Nat) : List RegOp := [.field Fld.PWR_VIN_VIN vin, .bit Fld.PWR_STATUS_OVDISC false]

def reconnected (s : State) (vin : Nat) : State :=
  { regOps s (reconnectWrites vin) with pwr := { s.pwr with x1Connected := true } }

theorem exec_overvoltageReconnect {s : State} {dt vin : Nat} (hon : s.lcs.phase ≠ .off) (hvin : vin < 15000) :
    exec (.overvoltageReconnect dt vin) s = .next (reconnected (s.elapse dt) vin) :=
  congrArg Host.Outcome.next ((if_neg hon).trans (if_neg (Nat.not_le_of_lt hvin)))

/-- A flag of the range of the input is set, with its event. -/
def rangeWrites (f : Field) (vin : Nat) : List RegOp := [.field Fld.PWR_VIN_VIN vin, .bit f true]

def outOfRange (s : State) (high : Bool) (vin : Nat) : State :=
  { regOps s (rangeWrites (if high then Fld.PWR_STATUS_VIN_HIGH else Fld.PWR_STATUS_VIN_LOW) vin) with
    arc := { s.arc with ports := portsWith s 0x16 ⟨0x17, 0x1704, 3, 59, s.time.mt, p4 [b2n high, vin]⟩ } }

theorem exec_pwrVinRange_high {s : State} {dt vin : Nat} (hon : s.lcs.phase ≠ .off) (hvin : 13750 < vin)
    (hclear : s.bit Fld.PWR_STATUS_VIN_HIGH = false) (hroom : PortRoom s 0x16) :
    exec (.pwrVinRange dt true vin) s = .next (outOfRange (s.elapse dt) true vin) := by
  have hacts : ¬ (vin ≤ 13750 ∨ ((s.elapse dt).setVin vin).bit Fld.PWR_STATUS_VIN_HIGH) := by
    simp [bit_setVin, hclear, hvin]
  exact congrArg Host.Outcome.next ((if_neg hon).trans ((if_neg hacts).trans (emit_of_room (by exact hroom) ..)))

theorem exec_pwrVinRange_low {s : State} {dt vin : Nat} (hon : s.lcs.phase ≠ .off) (hvin : vin < 1680)
    (hclear : s.bit Fld.PWR_STATUS_VIN_LOW = false) (hpfw : s.bit Fld.PWR_STATUS_PFW = false) (hroom : PortRoom s 0x16) :
    exec (.pwrVinRange dt false vin) s = .next (outOfRange (s.elapse dt) false vin) := by
  have hacts : ¬ (1680 ≤ vin ∨ ((s.elapse dt).setVin vin).bit Fld.PWR_STATUS_PFW ∨
      ((s.elapse dt).setVin vin).bit Fld.PWR_STATUS_VIN_LOW) := by
    simp [bit_setVin, hclear, hpfw, hvin]
  exact congrArg Host.Outcome.next ((if_neg hon).trans ((if_neg hacts).trans (emit_of_room (by exact hroom) ..)))

/-- The store is charged. -/
def chargedWrites (vhold : Nat) : List RegOp := [.field Fld.PWR_VHOLD_VHOLD vhold, .bit Fld.PWR_STATUS_HOLDUP_OK true]

def charged (s : State) (vhold : Nat) : State := regOps s (chargedWrites vhold)

theorem exec_holdupCharged {s : State} {dt vhold : Nat} (hw : s.regsWf = true) (hon : s.lcs.phase ≠ .off)
    (hpfw : s.bit Fld.PWR_STATUS_PFW = false) :
    exec (.holdupCharged dt vhold) s = .next (charged (s.elapse dt) vhold) := by
  have hclear : ¬ ((s.elapse dt).setF Fld.PWR_VHOLD_VHOLD vhold).bit Fld.PWR_STATUS_PFW = true := by
    simpa [State.bit, getF_setF_ne, hw] using hpfw
  exact congrArg Host.Outcome.next ((if_neg hon).trans (if_neg hclear))

/-- Settles O16: each command leads to the state of its lemma, whose register program gives what it writes and leaves. -/
theorem powerInput : Obligations.PowerInput := by
  intro s dt hs
  have hw : s.regsWf = true := (Bool.and_eq_true_iff.mp hs).1
  have hu : (s.elapse dt).regsWf = true := hw
  refine ⟨?clear, ?overvoltage, ?reconnect, ?high, ?low, ?charged⟩
  case clear =>
    intro vin since hon hvin hpfw hnv hov hat hus hroom
    have hexec := exec_pwrPfwClear (dt := dt) hon hvin hpfw hnv hov hat hroom
    generalize ((s.elapse dt).time.clock - since) / 1000 = us at *
    have hr : (pfwCleared (s.elapse dt) vin us).regs = (runAll (s.elapse dt) (pfwClearWrites vin us)).regs := rfl
    refine ⟨_, hexec, ?_, ?_, ?_, ?_, rfl, ⟨tget_portsWith_self .., fun _ hb => tget_tset_ne _ hb.symm _⟩,
      regsKept_of_regs (s := s.elapse dt) hr (by simp [pfwClearWrites, RegOp.words]), fun _ => rfl, rfl⟩
    · simp (disch := decide) [bit_of_regs hu hr, pfwClearWrites, RegOp.see]
    · simp (disch := decide) [getF_of_regs hu hr, pfwClearWrites, RegOp.see]
    · simp (disch := decide) [Counted, rd64_of_regs hu hr, pfwClearWrites, RegOp.see]
    · simpa (disch := decide) [rd_of_regs hu hr, pfwClearWrites, RegOp.see] using hus
  case overvoltage =>
    intro vin hon hvin hov hpfw hroom
    have hr : (disconnected (s.elapse dt) vin).regs = (runAll (s.elapse dt) (disconnectWrites vin)).regs := rfl
    refine ⟨_, exec_pwrOvervoltage_of_pfw hw hon hvin hov hpfw hroom, ?_, rfl, ?_, ?_,
      ⟨tget_portsWith_self .., fun _ hb => tget_tset_ne _ hb.symm _⟩,
      regsKept_of_regs (s := s.elapse dt) hr (by simp [disconnectWrites, RegOp.words]), fun _ => rfl, rfl⟩
    · simp (disch := decide) [bit_of_regs hu hr, disconnectWrites, RegOp.see]
    · simp (disch := decide) [Counted, rd64_of_regs hu hr, disconnectWrites, RegOp.see]
    · simp (disch := decide) [getF_of_regs hu hr, disconnectWrites, RegOp.see]
  case reconnect =>
    intro vin hon hvin
    have hr : (reconnected (s.elapse dt) vin).regs = (runAll (s.elapse dt) (reconnectWrites vin)).regs := rfl
    refine ⟨_, exec_overvoltageReconnect hon hvin, ?_, rfl, ?_,
      regsKept_of_regs (s := s.elapse dt) hr (by simp [reconnectWrites, RegOp.words]), fun _ => rfl, rfl⟩
    · simp (disch := decide) [bit_of_regs hu hr, reconnectWrites, RegOp.see]
    · simp (disch := decide) [getF_of_regs hu hr, reconnectWrites, RegOp.see]
      omega
  case high =>
    intro vin hon hvin hclear hroom
    have hr : (outOfRange (s.elapse dt) true vin).regs =
        (runAll (s.elapse dt) (rangeWrites Fld.PWR_STATUS_VIN_HIGH vin)).regs := rfl
    refine ⟨_, exec_pwrVinRange_high hon hvin hclear hroom, ?_, ?_,
      ⟨tget_portsWith_self .., fun _ hb => tget_tset_ne _ hb.symm _⟩,
      regsKept_of_regs (s := s.elapse dt) hr (by simp [rangeWrites, RegOp.words]), fun _ => rfl, rfl⟩
    · simp (disch := decide) [bit_of_regs hu hr, rangeWrites, RegOp.see]
    · simp (disch := decide) [getF_of_regs hu hr, rangeWrites, RegOp.see]
  case low =>
    intro vin hon hvin hclear hpfw hroom
    have hr : (outOfRange (s.elapse dt) false vin).regs =
        (runAll (s.elapse dt) (rangeWrites Fld.PWR_STATUS_VIN_LOW vin)).regs := rfl
    refine ⟨_, exec_pwrVinRange_low hon hvin hclear hpfw hroom, ?_, ?_,
      ⟨tget_portsWith_self .., fun _ hb => tget_tset_ne _ hb.symm _⟩,
      regsKept_of_regs (s := s.elapse dt) hr (by simp [rangeWrites, RegOp.words]), fun _ => rfl, rfl⟩
    · simp (disch := decide) [bit_of_regs hu hr, rangeWrites, RegOp.see]
    · simp (disch := decide) [getF_of_regs hu hr, rangeWrites, RegOp.see]
      omega
  case charged =>
    intro vhold hon hpfw
    have hr : (charged (s.elapse dt) vhold).regs = (runAll (s.elapse dt) (chargedWrites vhold)).regs := rfl
    refine ⟨_, exec_holdupCharged hw hon hpfw, ?_, ?_,
      regsKept_of_regs (s := s.elapse dt) hr (by simp [chargedWrites, RegOp.words]), fun _ => rfl, rfl⟩
    · simp (disch := decide) [bit_of_regs hu hr, chargedWrites, RegOp.see]
    · simp (disch := decide) [getF_of_regs hu hr, chargedWrites, RegOp.see]

end Sys2Proof.Proofs.PowerInput

/-! Pop reads of other modules, and the Loupe units that see their completions (R241, R419, R434). -/

namespace Sys2Proof.Proofs.Pops

open Sys2Proof Sys2Proof.Machine Sys2Proof.Laws

-- Theorems that the kernel evaluates are checked one after the other: side by side they take more memory than there is.
set_option Elab.async false

/-- A state that lists a running Loupe unit 1,024, which no module has, over the completions that leave through port 1, and one
timestamp in queue 0: the counterexample to O15. The words of such a unit lie in the block of the Archive. -/
def loupeBeyondItsBlock : State :=
  let u := State.reset.wr (Reg.LPE_CFG 1024) 0x5010000
  { u with
    lpe := [(1024, some 0)]
    tsq := [(0, { entries := [⟨0, 0, 0⟩], nextSeq := 1 })] }

/-- A core of another module as a requester. -/
def otherModule : Requester := ⟨.x, 0⟩

/-- The state after the pop read. -/
def popAnswered : State := (loupeBeyondItsBlock.elapse 0).popRead (.tsq 0) otherModule (Reg.POP_TSQ_META 0) true

theorem exec_popOfOtherModule :
    exec (.popTsqMetaRead 0 otherModule 0 true) loupeBeyondItsBlock = .next popAnswered := rfl

/-- The unit counts the eight bytes of the completion, in a word of block 0x12. -/
theorem lpeBytes_popAnswered : loupeBeyondItsBlock.rd (Reg.LPE_BYTES 1024) = 0 ∧ popAnswered.rd (Reg.LPE_BYTES 1024) = 8 := by
  decide +kernel

/-- Refutes O15: the second part bounds no Loupe unit by the eight that a module has, so that a state with a unit 1,024 has words
of block 0x12 changed by the completion, which the statement's frame does not admit. -/
theorem not_popReads : ¬ Obligations.PopReads := by
  intro h
  obtain ⟨-, hother, -⟩ := h loupeBeyondItsBlock 0 (by decide +kernel)
  obtain ⟨t, hexec, -, -, hkept, -⟩ := hother 0 ⟨0, 0, 0⟩ [] otherModule (by decide +kernel) rfl (by decide +kernel) rfl rfl rfl
  obtain rfl : popAnswered = t := Host.Outcome.next.inj (exec_popOfOtherModule.symm.trans hexec)
  have hsame := congrArg BitVec.toNat (hkept (Reg.LPE_BYTES 1024) (by decide))
  exact absurd (lpeBytes_popAnswered.2.symm.trans (hsame.trans lpeBytes_popAnswered.1)) (by decide)

end Sys2Proof.Proofs.Pops

/-! The midpoint of a stretched beat in a module whose Garnet has no supply (R135, R158, R160). -/

namespace Sys2Proof.Proofs.Midpoint

open Sys2Proof Sys2Proof.Machine

-- Theorems that the kernel evaluates are checked one after the other: side by side they take more memory than there is.
set_option Elab.async false

/-- The midpoint of a stretched beat of 400 µs with Garnet unpowered, where the permit line of pair 0 toggled at the edge and its
monitor, in Arming, has seen no edge yet: the counterexample to O26. -/
def unpowered : State :=
  let u := (State.reset.setB Fld.TIM_STATUS_STRETCH true).setF (Fld.GAR_PERMSTAT_PSTATE 0) 1
  { u with
    time := { u.time with mono := 200000, edgeStart := 0, mt := 0, edgeAt := 200000 }
    gar := { u.gar with powered := false, toggled := 1, midDone := false } }

/-- The state after the midpoint: no line has shown its edge to a monitor. -/
def pastMidpoint : State := (unpowered.elapse 0).modGar fun g => { g with midDone := true }

theorem exec_midpoint_unpowered : exec (.permitMidpointToggle 0) unpowered = .next pastMidpoint :=
  congrArg Host.Outcome.next (if_pos (by decide +kernel))

/-- Refutes O26: the monitors of an unpowered Garnet see no edge, and the fifth part does not ask for the supply. -/
theorem not_garnetPermit : ¬ Obligations.GarnetPermit := by
  intro h
  obtain ⟨-, -, -, -, hmid, -⟩ := h unpowered 0 (by decide +kernel)
  obtain ⟨t, hexec, -, hedge, -⟩ :=
    hmid 200000 (by decide +kernel) (by decide) (by decide) rfl (by decide)
  obtain rfl : pastMidpoint = t := Host.Outcome.next.inj (exec_midpoint_unpowered.symm.trans hexec)
  have hsome := hedge 0 (by decide) rfl (.inl (by decide +kernel))
  exact absurd hsome (by decide)

end Sys2Proof.Proofs.Midpoint

/-! Docent's load of the firmware as a Loupe unit of fabric writes sees it (R419, R420, R509). -/

namespace Sys2Proof.Proofs.FirmwareLoad

open Sys2Proof Sys2Proof.Machine Sys2Proof.Tests

-- Theorems that the kernel evaluates are checked one after the other: side by side they take more memory than there is.
set_option Elab.async false

/-- A run of bytes changes nothing but the memory. -/
theorem memPut_eq (bs : List Byte) (s : State) (a : Nat) : ∃ m, s.memPut a bs = { s with mem := m } := by
  induction bs generalizing s a with
  | nil => exact ⟨s.mem, rfl⟩
  | cons b bs ih =>
    obtain ⟨m, hm⟩ := ih (s.memSet a b) (a + 1)
    exact ⟨m, hm⟩

/-- A device write of a module that is not paired is the bytes, the ended L1 copies, and what Loupe sees (R228, R419, R480). -/
theorem memWrite_of_unpaired {s : State} {a : Nat} {bs : List Byte} (hpaired : s.bit Fld.RPL_CFG_PAIRED = false) (hbs : bs ≠ []) :
    s.memWrite a bs = ((s.ownLines a bs.length).memPut a bs).lpeWrite a bs := by
  have hempty : bs.isEmpty = false := by simpa using hbs
  have hmark : (s.ownLines a bs.length).markDirty a bs.length = s.ownLines a bs.length :=
    if_neg (by rw [show (s.ownLines a bs.length).bit Fld.RPL_CFG_PAIRED = s.bit Fld.RPL_CFG_PAIRED from rfl, hpaired]; decide)
  simp only [State.memWrite, hempty, hmark, Bool.false_eq_true, if_false]

/-- A window that holds every byte of a write keeps them all. -/
theorem insideWindow {a lo hi : Nat} {bs : List Byte} (hlo : lo ≤ a) (hhi : a + bs.length ≤ hi) :
    ((bs.zipIdx.filter fun b => decide (lo ≤ a + b.2 ∧ a + b.2 < hi)).map fun b => b.1) = bs := by
  rw [List.filter_eq_self.2, List.zipIdx_map_fst]
  intro b hb
  have := List.snd_lt_of_mem_zipIdx hb
  simp only [decide_eq_true_eq]
  omega

/-- The only enabled unit, continuous and with a window over the whole write, folds it (R419, R420). -/
theorem lpeWrite_of_single {s : State} {u r a : Nat} {bs : List Byte} (hlpe : s.lpe = [(u, some r)]) (hbs : bs ≠ [])
    (hsrc : s.getF (Fld.LPE_CFG_SRC u) = 0) (hmode : s.getF (Fld.LPE_CFG_MODE u) = 0) (htest : s.unitTested 0x10 u = false)
    (hlo : s.getF (Fld.LPE_WINBASE_BASE u) ≤ a)
    (hhi : a + bs.length ≤ s.getF (Fld.LPE_WINBASE_BASE u) + s.getF (Fld.LPE_WINLEN_LEN u)) :
    s.lpeWrite a bs = s.lpeFold u r bs := by
  have hempty : bs.isEmpty = false := by simpa using hbs
  simp only [State.lpeWrite, hlpe, List.foldl_cons, List.foldl_nil, hsrc, htest, insideWindow hlo hhi, hempty, State.lpeMeet, hmode]
  simp

/-- A write that the only enabled unit folds shows in the registers as its result and its bytes. -/
theorem regs_memWrite_of_single {s : State} {u r a : Nat} {bs : List Byte} (hpaired : s.bit Fld.RPL_CFG_PAIRED = false)
    (hlpe : s.lpe = [(u, some r)]) (hbs : bs ≠ []) (hsrc : s.getF (Fld.LPE_CFG_SRC u) = 0)
    (hmode : s.getF (Fld.LPE_CFG_MODE u) = 0) (htest : s.unitTested 0x10 u = false)
    (hlo : s.getF (Fld.LPE_WINBASE_BASE u) = 0) (hhi : a + bs.length ≤ s.getF (Fld.LPE_WINLEN_LEN u)) :
    (s.memWrite a bs).regs = (s.lpeFold u r bs).regs := by
  obtain ⟨m, hm⟩ := memPut_eq bs (s.ownLines a bs.length) a
  rw [memWrite_of_unpaired hpaired hbs, hm,
    lpeWrite_of_single (s := { s.ownLines a bs.length with mem := m }) hlpe hbs hsrc hmode htest
      (hlo.trans_le (Nat.zero_le _)) (hhi.trans (Nat.le_add_left _ _))]
  rfl

/-- Without a Docent image the load is the firmware alone. -/
theorem docentLoad_of_noDocent {s : State} (img : Image) (h0 : s.lcs.docent0 = none) (h1 : s.lcs.docent1 = none) :
    s.docentLoad img = s.memWrite (Config.firmwareAt % (0x400000001 - img.body.length)) img.body := by
  simp [State.docentLoad, h0, h1, State.memWrite]

/-- Unit 2,558, which no module has: its result register would stand at LCS_BOOTINFO and LCS_FWVER. -/
abbrev beyond : Nat := 2558

/-- Docent's step with a valid firmware of version 4, and a Loupe unit of fabric writes over all of memory whose words lie in the
block of the life cycle: the counterexample to O19. -/
def loading : State :=
  let u := ((keyed State.reset).wr (Reg.LPE_WINLEN beyond) 0xFFFFFFFF).wr (Reg.LPE_WINLEN beyond + 4) 0xFF
  { u with
    lpe := [(beyond, some 0)]
    lcs := { u.lcs with phase := .docent, oldCopy := none, firmware := some ⟨wImg_fw, 1⟩, docent0 := none, docent1 := none } }

/-- The state with its firmware shown as running, before the bytes of it are written (R509, R528). -/
def showFirmware (s : State) (img : Image) : State :=
  ((s.wr Reg.LCS_FWVER img.version).setF Fld.LCS_KEYS_FWSLOT img.keySlot).setB Fld.LCS_BOOTINFO_UNCOMMITTED
    (!(s.lcs.fwCommitted && s.rd Reg.LCS_FWVER == img.version % 4294967296))

/-- The counterexample with its firmware shown. -/
def shown : State := showFirmware (loading.elapse 0) wImg_fw

/-- What stands in LCS_FWVER once unit 2,558 has folded the firmware. -/
theorem fwver_folded : (shown.lpeFold beyond 0 wImg_fw.body).rd Reg.LCS_FWVER ≠ wImg_fw.version % 4294967296 := by
  decide +kernel

/-- The firmware that is loaded is in order (R506). -/
theorem validStored_loading :
    loading.wf = true ∧ loading.validStored loading.lcs.firmware 1 = some ⟨wImg_fw, 1⟩ ∧
      (loading.elapse 0).validStored (loading.elapse 0).lcs.firmware 1 = some ⟨wImg_fw, 1⟩ := by
  decide +kernel

/-- The enabled unit folds every write, wherever the firmware goes. -/
theorem unit_watches :
    shown.bit Fld.RPL_CFG_PAIRED = false ∧ shown.getF (Fld.LPE_CFG_SRC beyond) = 0 ∧ shown.getF (Fld.LPE_CFG_MODE beyond) = 0 ∧
      shown.unitTested 0x10 beyond = false ∧ shown.getF (Fld.LPE_WINBASE_BASE beyond) = 0 ∧
      shown.getF (Fld.LPE_WINLEN_LEN beyond) = 0xFFFFFFFFFF := by
  decide +kernel

/-- The load shows in the registers what the unit has folded. -/
theorem regs_docentLoad : (shown.docentLoad wImg_fw).regs = (shown.lpeFold beyond 0 wImg_fw.body).regs := by
  obtain ⟨hpaired, hsrc, hmode, htest, hlo, hhi⟩ := unit_watches
  have hlen : wImg_fw.body.length = 4 := by decide
  have hat : Config.firmwareAt % (0x400000001 - wImg_fw.body.length) < 0x400000001 - wImg_fw.body.length :=
    Nat.mod_lt _ (by rw [hlen]; decide)
  rw [docentLoad_of_noDocent _ rfl rfl]
  refine regs_memWrite_of_single hpaired rfl (by decide) hsrc hmode htest hlo ?_
  rw [hhi]
  omega

/-- The state after Docent's step. -/
def started : State := (loading.elapse 0).docentStart

theorem exec_docentStart_loading : exec (.docentStart 0) loading = .next started :=
  congrArg Host.Outcome.next (if_pos rfl)

/-- Docent's step with a valid firmware and no old copy leaves the registers that the load leaves (R509). -/
theorem regs_docentStart {s : State} {fw : Stored} (hval : s.validStored s.lcs.firmware 1 = some fw) (hold : s.lcs.oldCopy = none) :
    s.docentStart.regs = ((showFirmware s fw.image).docentLoad fw.image).regs := by
  simp [State.docentStart, showFirmware, hval, hold]

/-- Refutes O19: the ninth part lets any Loupe unit watch the load, and one beyond the eight of a module has its result where
LCS_FWVER stands. -/
theorem not_startSequence : ¬ Obligations.StartSequence := by
  intro h
  obtain ⟨hwf, hval, hvalNow⟩ := validStored_loading
  obtain ⟨-, -, -, -, -, -, -, -, hload, -⟩ := h loading 0 hwf
  obtain ⟨t, hexec, -, -, hver, -⟩ := hload ⟨wImg_fw, 1⟩ rfl hval rfl
  obtain rfl : started = t := Host.Outcome.next.inj (exec_docentStart_loading.symm.trans hexec)
  have hregs : started.regs = (shown.lpeFold beyond 0 wImg_fw.body).regs :=
    (regs_docentStart hvalNow rfl).trans regs_docentLoad
  have hread : started.rd Reg.LCS_FWVER = (shown.lpeFold beyond 0 wImg_fw.body).rd Reg.LCS_FWVER := by
    rw [State.rd, State.rd, State.rdw, State.rdw, hregs]
  simp only [hread] at hver
  exact fwver_folded hver

end Sys2Proof.Proofs.FirmwareLoad

/-! What an inbound posted write of the Cascade leaves of the rest of memory (R435). -/

namespace Sys2Proof.Proofs.InboundWrite

open Sys2Proof Sys2Proof.Machine

-- Theorems that the kernel evaluates are checked one after the other: side by side they take more memory than there is.
set_option Elab.async false

/-- A module whose downstream link is up: the counterexample to O54. -/
def linked : State := State.reset.setF Fld.CSC_STATUS_DNSTATE 2

/-- A posted write of one byte at address 0x1000 by the module at position 3. -/
def posted : CscTxn :=
  { pos := 3, write := true, amo := false, amoOp := 0, offset := 0x1000, size := 1, bytes := [1] }

/-- The state after the write. -/
def written : State := (linked.elapse 0).inbound 1 posted

theorem exec_posted : exec (.cscInboundTransaction 0 1 posted) linked = .next written :=
  congrArg Host.Outcome.next (if_pos (by decide +kernel))

/-- Refutes O54: its first part binds the address anew where it says what memory holds, so that it asks every byte of memory to be
the first byte written, and address 0 still reads 0. -/
theorem not_cascadeTransactions : ¬ Obligations.CascadeTransactions := by
  intro h
  obtain ⟨hwrite, -⟩ := h linked 0 (by decide +kernel)
  obtain ⟨t, hexec, hmem, -⟩ := hwrite 1 posted 0x1000 (by decide +kernel) (by decide +kernel) rfl rfl rfl (by decide +kernel)
    (by decide +kernel) (by decide +kernel) rfl
  obtain rfl : written = t := Host.Outcome.next.inj (exec_posted.symm.trans hexec)
  exact absurd (hmem 0) (by decide +kernel)

end Sys2Proof.Proofs.InboundWrite

/-! A standby that is blocked at its start, while its event port is full (R455, R477, R485). -/

namespace Sys2Proof.Proofs.BlockedAtStart

open Sys2Proof Sys2Proof.Machine

-- Theorems that the kernel evaluates are checked one after the other: side by side they take more memory than there is.
set_option Elab.async false

/-- A paired module that negotiates custody over a shorted far wire, that was eligible before, and whose Custody events find a full
port: the counterexample to O55. -/
def portFull : State :=
  let u := (State.reset.setB Fld.RPL_CFG_PAIRED true).setF Fld.RPL_STATUS_FARWIRE 2
  { u with
    rpl := { u.rpl with negotiating := some 0, wasElig := true }
    arc := { u.arc with ports := [(0x13, List.replicate 32 ⟨0x14, 0x1401, 5, 58, 0, []⟩)] } }

/-- The state after the negotiation. -/
def blocked : State := (portFull.elapse 0).negotiate

theorem exec_negotiation : exec (.custodyNegotiationDelay 0) portFull = .next blocked := rfl

/-- The refused event consumes a SEQ of the source (R455). -/
theorem seq_blocked : tget portFull.arc.seqs 0x14 = 0 ∧ tget blocked.arc.seqs 0x14 = 1 := by decide +kernel

/-- Refutes O55: the last part admits the counts of an event that a full port refuses, but not the SEQ that it consumes. -/
theorem not_custody : ¬ Obligations.Custody := by
  intro h
  obtain ⟨-, -, -, -, -, -, -, -, -, -, -, -, -, -, hblock⟩ := h portFull 0 (by decide +kernel)
  obtain ⟨t, hexec, -, -, -, -, -, -, hrest⟩ := hblock 0 rfl rfl (by decide +kernel) (by decide +kernel) (by decide +kernel)
  obtain rfl : blocked = t := Host.Outcome.next.inj (exec_negotiation.symm.trans hexec)
  have hsame := congrArg (fun u : State => tget u.arc.seqs 0x14) hrest
  exact absurd (seq_blocked.2.symm.trans (hsame.trans seq_blocked.1)) (by decide)

end Sys2Proof.Proofs.BlockedAtStart

/-! Two counts of the Archive at their ends: the units of a collection that has all of them, and a staged count about to wrap
(R459, R464). -/

namespace Sys2Proof.Proofs.ArchiveEnds

open Sys2Proof Sys2Proof.Machine

-- Theorems that the kernel evaluates are checked one after the other: side by side they take more memory than there is.
set_option Elab.async false

/-! ### The commit of a collection that uses all its units -/

/-- A unit of collection 3 without records. -/
def emptyUnit : ArcUnit := { id := 5, coll := 3, since := 0, holds := false, recs := [], used := 0, placed := 0 }

/-- A running commit of a collection whose 8,160 units are all used: the counterexample to O36. -/
def allUsed : State :=
  let u := State.reset.setF (Fld.ARC_CSTAT_UNITS 3) 8160
  { u with arc := { u.arc with carry := false, units := [emptyUnit], committing := some 5 } }

/-- The state after the commit. -/
def committed : State :=
  let s := (allUsed.elapse 0).add64 (Reg.ARC_RECORDED 3) 0
  ((s.wr64 (Reg.ARC_STAGED 3) (s.rd64 (Reg.ARC_STAGED 3) - 0)).unitStored emptyUnit).showArc.arcResume

theorem exec_commit : exec (.arcCommitDone 0) allUsed = .next committed :=
  congrArg Host.Outcome.next (if_neg (by decide +kernel))

/-- The count of units stays at its end. -/
theorem units_committed :
    allUsed.getF (Fld.ARC_CSTAT_UNITS 3) = 8160 ∧ committed.getF (Fld.ARC_CSTAT_UNITS 3) = 8160 := by
  decide +kernel

/-- Refutes O36: the third part counts one unit more, and a collection with all 8,160 units uses no further one. -/
theorem not_archiveCommit : ¬ Obligations.ArchiveCommit := by
  intro h
  obtain ⟨-, -, hdone, -⟩ := h allUsed 0 (by decide +kernel)
  obtain ⟨t, hexec, -, -, hunits, -⟩ :=
    hdone 5 emptyUnit rfl rfl rfl rfl (by decide) (.inr rfl) (Nat.zero_le _)
  obtain rfl : committed = t := Host.Outcome.next.inj (exec_commit.symm.trans hexec)
  have hcount : committed.getF (Fld.ARC_CSTAT_UNITS 3) = (allUsed.getF (Fld.ARC_CSTAT_UNITS 3) + 1) % 16384 := hunits
  rw [units_committed.1, units_committed.2] at hcount
  exact absurd hcount (by decide)

/-! ### The end of a seal with a staged count about to wrap -/

/-- An occurrence of collection 3. -/
def heldBack : Occurrence := ⟨0x100, 1, 0, 3, 0, []⟩

/-- Collection 3 sealed over one held occurrence, with the staged count at its last value: the counterexample to O37. -/
def sealedAtWrap : State :=
  let u := ((State.reset.setF (Fld.ARC_CSTAT_SEALED 3) 1).wr64 Reg.ARC_SEAL 8).wr64 (Reg.ARC_STAGED 3) 0xFFFFFFFFFFFFFFFF
  { u with arc := { u.arc with carry := false, units := [⟨5, 3, 0, true, [], 24, 0⟩], held := [(5, heldBack)] } }

/-- Class T, which may write the Archive. -/
def software : Requester := ⟨.t, 0⟩

/-- The state after the unseal. -/
def unsealed : State :=
  (sealedAtWrap.elapse 0).regCmd software Reg.ARC_UNSEAL fun s => s.unsealWrite 8

theorem exec_unseal : exec (.arcUnsealWrite 0 software 8) sealedAtWrap = .next unsealed := rfl

/-- The count goes through 0, where the one held occurrence is not taken off again. -/
theorem staged_unsealed :
    sealedAtWrap.rd64 (Reg.ARC_STAGED 3) = 0xFFFFFFFFFFFFFFFF ∧ unsealed.rd64 (Reg.ARC_STAGED 3) = 0 := by
  decide +kernel

/-- Refutes O37: the third part says that the staged count stays as it is, and one that wraps does not. -/
theorem not_archiveSeals : ¬ Obligations.ArchiveSeals := by
  intro h
  obtain ⟨-, -, hunseal, -⟩ := h sealedAtWrap 0 (by decide +kernel)
  obtain ⟨t, hexec, -, -, -, hstaged, -⟩ :=
    hunseal software 8 3 5 heldBack (by decide +kernel) rfl rfl rfl (by decide +kernel) (by decide +kernel) rfl rfl rfl
      (by decide +kernel) rfl (by decide +kernel) rfl rfl (by decide +kernel)
  obtain rfl : unsealed = t := Host.Outcome.next.inj (exec_unseal.symm.trans hexec)
  have hsame : unsealed.rd64 (Reg.ARC_STAGED 3) = sealedAtWrap.rd64 (Reg.ARC_STAGED 3) := hstaged
  rw [staged_unsealed.1, staged_unsealed.2] at hsame
  exact absurd hsame (by decide)

end Sys2Proof.Proofs.ArchiveEnds

/-! What a channel of Courier still has from an earlier descriptor when it begins the next one (R414, R434). -/

namespace Sys2Proof.Proofs.LeftOver

open Sys2Proof Sys2Proof.Machine

-- Theorems that the kernel evaluates are checked one after the other: side by side they take more memory than there is.
set_option Elab.async false

/-- A descriptor that copies 4 bytes from 0x8000 to 0x9000. -/
def copyOfFour : List Byte := leBytes 8 0 ++ leBytes 8 0x8000 ++ leBytes 8 0x9000 ++ leBytes 4 4 ++ leBytes 36 0

/-- The chain that begins with it. -/
def fetched : CrrChain := { slot := 2, addr := 0x1000, desc := copyOfFour, stage := .fetch, taken := 1 }

/-- Channel 3 with that descriptor read, while a byte that it once asked of another module still stands there: the counterexample
to O39. -/
def byteLeft : State :=
  { State.reset with
    crr := { State.reset.crr with chain := [(3, some fetched)] }
    csc := { State.reset.csc with got := [⟨⟨.c, 3⟩, 0x2000000000, 0, [1]⟩] } }

/-- The state once the descriptor is taken. -/
def taken : State := (byteLeft.elapse 0).crrTaken 3 fetched .ok

theorem exec_taken : exec (.crrDescriptorTaken 0 3 .ok) byteLeft = .next taken := rfl

/-- What came for the channel is gone. -/
theorem got_taken : byteLeft.csc.got.length = 1 ∧ taken.csc.got.length = 0 := by decide +kernel

/-- Refutes O39: the second part keeps what other modules have sent to the channel, and the check of a descriptor drops it. -/
theorem not_courierTransfers : ¬ Obligations.CourierTransfers := by
  intro h
  obtain ⟨-, htaken, -⟩ := h byteLeft 0 (by decide +kernel)
  obtain ⟨t, hexec, -, -, -, -, -, hrest⟩ := htaken 3 .ok fetched rfl rfl (by decide +kernel) (by decide +kernel)
    (by decide +kernel) (by decide +kernel) (by decide +kernel)
  obtain rfl : taken = t := Host.Outcome.next.inj (exec_taken.symm.trans hexec)
  have hsame := congrArg (fun u : State => u.csc.got.length) hrest
  exact absurd (got_taken.2.symm.trans (hsame.trans got_taken.1)) (by decide)

end Sys2Proof.Proofs.LeftOver

/-! A TON with no time to wait whose start lies ahead of its cycle (R199, R200). -/

namespace Sys2Proof.Proofs.TimerAhead

open Sys2Proof Sys2Proof.Machine

-- Theorems that the kernel evaluates are checked one after the other: side by side they take more memory than there is.
set_option Elab.async false

/-- A TON at the start of Vault. -/
def timerOnDelay : FbDecl := { task := 0, path := 1, ver := 0, kind := .ton, retain := false, at_ := 0x1000000000 }

/-- Its scan with IN = 1 and PT = 0. -/
def scanAtOnce : FbScan := { path := 1, a := true, b := false, r := false, l := false, pt := 0, pv := 0 }

/-- A running cycle of task 0 with REL_MONO 0, while the timer's record says that it started at 10: the counterexample to O29. -/
def startedAhead : State :=
  let u := (State.reset.setF Fld.RTS_STATE_STATE 1).memPut 0x1000000000 [64, 0, 0, 0, 0, 0, 0, 0, 10]
  { u with
    time := { u.time with mt := 0, edgeAt := 250000 }
    rts := { u.rts with decls := [timerOnDelay], tasks := [(0, { (default : RtsTask) with running := true, judged := false })] } }

/-- The voted Triad. -/
def triad : Requester := ⟨.t, 0⟩

/-- The state after the DONE write. -/
def done : State := (startedAhead.elapse 0).regCmd triad Reg.RTS_DONE fun s => s.doneWrite 0 0 [scanAtOnce]

theorem exec_done : exec (.rtsDoneWrite 0 triad 0 ⟨0, [scanAtOnce]⟩) startedAhead = .next done := rfl

/-- The record shows Q = 1, as PT has been reached. -/
theorem flags_done : (done.memRead 0x1000000000 40)[0]? = some 93 := by decide +kernel

/-- Refutes O29: the ninth part compares PT with the difference of the times, which is negative here, where the model takes an
elapsed time of 0. -/
theorem not_runtime : ¬ Obligations.Runtime := by
  intro h
  obtain ⟨-, -, -, -, -, -, -, -, hton, -⟩ := h startedAhead 0 (by decide +kernel)
  obtain ⟨t, hexec, hrecord⟩ :=
    hton triad 0 0 [scanAtOnce] scanAtOnce timerOnDelay (startedAhead.fbGet timerOnDelay) 10 (by decide +kernel) rfl rfl
      (by decide +kernel) rfl (by decide) rfl (by decide +kernel) rfl rfl (by decide) rfl (by decide +kernel) (by decide +kernel) rfl
  obtain rfl : done = t := Host.Outcome.next.inj (exec_done.symm.trans hexec)
  have hflags := congrArg (fun l => l[0]?) hrecord
  exact absurd (flags_done.symm.trans hflags) (by decide +kernel)

end Sys2Proof.Proofs.TimerAhead

/-! Writes to a line of a snapshot whose capture buffer is full (R480): the line leaves the lists of lines to ship, `walk` among them,
which the frame `LeavesStore` keeps. -/

namespace Sys2Proof.Proofs.FullCapture

open Sys2Proof Sys2Proof.Machine Sys2Proof.Proofs.Time

-- Theorems that the kernel evaluates are checked one after the other: side by side they take more memory than there is.
set_option Elab.async false

/-- A paired module whose snapshot still has to walk over one line while its capture buffer of 2,048 lines is full. -/
def fullAt (s : State) (line : Nat) : State :=
  { s.setF Fld.RPL_CFG_PAIRED 1 with
    rpl := { s.rpl with snapOpen := true, walk := [line], captured := List.replicate 2048 (1, []) } }

/-- The lines that an outcome leaves to walk over. -/
def walkOf : Host.Outcome State Fault Refusal → List Nat
  | .next t => t.rpl.walk
  | _ => []

/-- `LeavesStore` takes back what a store captures, but not the lines that a snapshot still walks over. -/
theorem walk_of_leavesStore {dt : Nat} {ws : List Nat} {s t t' : State} (h : LeavesStore dt ws s t t') :
    t'.rpl.walk = s.rpl.walk := by
  have hrest := congrArg (fun u : State => u.rpl.walk) h.2
  exact hrest

/-- An outcome that leaves no line to walk over does not leave those of `s` alone. -/
theorem false_of_leavesStore {dt : Nat} {ws : List Nat} {s t t' : State} {line : Nat} {o : Host.Outcome State Fault Refusal}
    (ho : o = .next t) (h : LeavesStore dt ws s t t') (hgone : walkOf o = []) (hwalk : s.rpl.walk = [line])
    (ht : t'.rpl.walk = t.rpl.walk) : False := by
  subst ho
  have hempty : s.rpl.walk = [] := (walk_of_leavesStore h).symm.trans (ht.trans hgone)
  simp [hwalk] at hempty

/-! ### A fence of an application core -/

/-- Core 3 holds a store to the first byte of Vault, whose line 0 the snapshot has still to walk over: the counterexample to O30. -/
def storeHeld : State :=
  let s := fullAt State.reset 0
  { s with app := { s.app with storeBuf := tset s.app.storeBuf 3 [(0x1000000000, [1])] } }

theorem walk_fence : walkOf (exec (.apcFence 0 3) storeHeld) = [] := by decide +kernel

/-- Refutes O30: a fence makes a buffered store visible, and where the line of the store is captured while the capture buffer is full
the line leaves those that the snapshot walks over, which the frame of the statement's third part keeps. -/
theorem not_appCores : ¬ Obligations.AppCores := by
  intro h
  obtain ⟨-, -, hfence, -⟩ := h storeHeld 0 (by decide +kernel)
  obtain ⟨t, hexec, -, -, hleaves⟩ := hfence 3 (by decide +kernel) (by decide +kernel)
  exact false_of_leavesStore hexec hleaves walk_fence rfl rfl

/-! ### Stores to the image area in DDR -/

/-- The image area lies at 8 MiB of DDR, and the snapshot has still to walk over the first line of its fourth part, which Triad
software may write (R186, R479): the counterexample to O20 and O31. -/
def imageWalked : State := fullAt (State.reset.setF Fld.RTS_IMGBASE_LO_BASE_LO 1) 0x30000000

/-- The same with three active lanes of the Triad. -/
def imageWalkedVoting : State := imageWalked.setF Fld.TRIAD_STATUS_MODE 1

/-- A store of one byte to that line. -/
def imageStore : Txn := { kind := 0, addr := 0xC00000, data := 0, be := 1, attr := 0 }

/-- All three lanes present it. -/
def unanimous : Ballot := { ta := [imageStore], tb := [imageStore], tc := [imageStore], votersAgree := true }

theorem walk_vote : walkOf (exec (.voteDecision 0 unanimous) imageWalkedVoting) = [] := by decide +kernel

/-- Refutes O20: a voted store to a line of the image area, captured while the capture buffer is full, takes the line from those that
the snapshot walks over, which the frame of the statement's first part keeps. -/
theorem not_votesAndChecks : ¬ Obligations.VotesAndChecks := by
  intro h
  obtain ⟨hstore, -⟩ := h imageWalkedVoting 0 (by decide +kernel)
  obtain ⟨t, hexec, -, -, -, -, hleaves⟩ := hstore unanimous imageStore (by decide +kernel) rfl (by decide +kernel)
    (by decide +kernel) (by decide +kernel) rfl (by decide +kernel) (by decide +kernel)
  exact false_of_leavesStore hexec hleaves walk_vote rfl rfl

theorem walk_write : walkOf (exec (.registerWrite 0 voted 0xC00000 1 0) imageWalked) = [] := by decide +kernel

/-- Refutes O31: a store of the Triad to a line of the image area, captured while the capture buffer is full, takes the line from
those that the snapshot walks over, which the frame of the statement's fourth part keeps. -/
theorem not_registerAccess : ¬ Obligations.RegisterAccess := by
  intro h
  obtain ⟨-, -, -, hstore, -⟩ := h imageWalked 0 (by decide +kernel)
  obtain ⟨t, hexec, -, -, hleaves⟩ := hstore voted 0xC00000 1 0 rfl (by decide +kernel) (Or.inl rfl) (by decide)
    (by decide +kernel) (by decide +kernel)
  exact false_of_leavesStore hexec hleaves walk_write rfl rfl

/-! ### A staged line -/

/-- A standby stages lines at 8 MiB of DDR, where the image area lies too; it holds line 5 in slot 505, whose place is the first
line of the committed outputs, which the snapshot has still to walk over: the counterexample to O56. -/
def stagedInImage : State :=
  let s := fullAt (State.reset.setF Fld.RTS_IMGBASE_LO_BASE_LO 1) 0x20000000
  let s := ((s.setF Fld.RPL_STATUS_ROLE 3).setF Fld.RPL_STATUS_LINKUP 1).setF Fld.RPL_STAGEBASE_BASE 2
  { s with rpl := { s.rpl with staged := [⟨5, [], 7, 505⟩] } }

/-- The other module of the pair. -/
def partner : Peer := { paired := true, side := 1, code := 7 }

/-- The header and payload of a frame that brings line 5 of beat 7. -/
def lineBody : List Byte :=
  [1, 1, 0, 0] ++ leBytes 4 3 ++ leBytes 8 7 ++ leBytes 4 5 ++ List.replicate 256 4

/-- The frame, with its check value. -/
def lineFrame : List Byte := lineBody ++ leBytes 4 (crc32 lineBody)

set_option maxRecDepth 100000 in
theorem replicaFrame_lineFrame : replicaFrame lineFrame = .lines 7 [(5, List.replicate 256 4)] := by decide +kernel

set_option maxRecDepth 100000 in
theorem walk_staged : walkOf (exec (.replicaFrameRx 0 partner lineFrame) stagedInImage) = [] := by decide +kernel

/-- Refutes O56: a line record that is staged over a line of the image area, captured while the capture buffer is full, takes the line
from those that the snapshot walks over, which the frame of the statement's seventh part keeps. -/
theorem not_replica : ¬ Obligations.Replica := by
  intro h
  obtain ⟨-, -, -, -, -, -, hstage, -⟩ := h stagedInImage 0 (by decide +kernel)
  obtain ⟨t, hexec, -, -, -, -, -, hleaves⟩ := hstage partner lineFrame 7 5 505 (List.replicate 256 4) (by decide +kernel)
    (by decide +kernel) replicaFrame_lineFrame (by decide +kernel) (by decide +kernel) (by decide +kernel) (by decide +kernel)
    (by decide +kernel) (by decide) (by decide +kernel)
  exact false_of_leavesStore hexec hleaves walk_staged rfl rfl

end Sys2Proof.Proofs.FullCapture

/-! A local announcement that the engine of host 1 takes (R366, R379): the state of the refutation of O9. -/

namespace Sys2Proof.Proofs.Telegrams

open Sys2Proof Sys2Proof.Machine Sys2Proof.Proofs.Time

-- Theorems that the kernel evaluates are checked one after the other: side by side they take more memory than there is.
set_option Elab.async false

/-- Refutes O50: the frame of a local announcement that a static entry sends to port 9 is counted in TRDP_RXTEL_1, a register of block
0x0B, which the frame of the statement's third part does not admit. -/
theorem not_trdpTelegrams : ¬ Obligations.TrdpTelegrams := by
  intro h
  obtain ⟨-, -, hlocal⟩ := h groupHeardAtPort9 0 (by decide +kernel)
  obtain ⟨t, hexec, -, -, -, -, -, -, hkept, -⟩ := hlocal voted _ lets_announce rfl (by decide +kernel) (by decide +kernel)
    (by decide +kernel) (by decide +kernel) (by decide +kernel) (by decide +kernel) (by decide +kernel) (by decide +kernel)
    (by decide +kernel)
  obtain rfl : announcedToPort9 = t := Host.Outcome.next.inj (exec_announceToPort9.symm.trans hexec)
  have hsame := hkept (Reg.TRDP_RXTEL 1) (by decide)
  rw [rxtel_counts_announcement.1, rxtel_counts_announcement.2] at hsame
  exact absurd hsame (by decide)

end Sys2Proof.Proofs.Telegrams

/-! Descriptors whose buffer lies behind a Cascade window: the device's read of it is sent to the other module (R433, R434), and takes a
tag of the port, which the frames of the statements keep. -/

namespace Sys2Proof.Proofs.FarBuffers

open Sys2Proof Sys2Proof.Machine

-- Theorems that the kernel evaluates are checked one after the other: side by side they take more memory than there is.
set_option Elab.async false

/-- A module at position 0 whose stack has a member at position 1. -/
def stacked : State := State.reset.wr Reg.CSC_MEMBERS 3

/-- The first byte of the window of position 1. -/
def farBuffer : Nat := 0x2400000000

/-- The number of tags that an outcome leaves in use. -/
def tagsOf : Host.Outcome State Fault Refusal → Nat
  | .next t => t.csc.tags.length
  | _ => 0

/-- An outcome that took a tag does not leave Cascade as it was. -/
theorem false_of_tag {s t : State} {o : Host.Outcome State Fault Refusal} (ho : o = .next t) (htag : tagsOf o = 1)
    (hnone : s.csc.tags = []) (hsame : t.csc = s.csc) : False := by
  subst ho
  have hone : t.csc.tags.length = 1 := htag
  simp [hsame, hnone] at hone

/-! ### A write descriptor of the Archive -/

/-- The descriptor of an occurrence of one byte in the far buffer, for collection 3. -/
def occurrenceDesc : List Byte := leBytes 8 farBuffer ++ leBytes 2 1 ++ leBytes 2 0x190 ++ leBytes 2 0x801 ++ [2, 3] ++ leBytes 8 55

/-- The open unit of collection 3. -/
def openUnit3 : ArcUnit := { id := 5, coll := 3, since := 0, holds := false, recs := [], used := 0, placed := 0 }

/-- Ring 2 of the Archive holds that descriptor: the counterexample to O35. -/
def archiveRingPosted : State :=
  let s := (stacked.wr (Reg.ARC_RSRC 2) 0x0FFF0000).wr (Reg.ARC_RCTL 2) 0x80000004
  let s := ((s.wr64 (Reg.ARC_RBASE 2) 0x1000).wr64 (Reg.ARC_RCBASE 2) 0x2000).memPut 0x1000 occurrenceDesc
  { s with
    arc := { s.arc with units := [openUnit3], carry := false }
    rings := tset s.rings (State.ringKey .arc 2) { head := 0, tail := 3, cidx := 15, cphase := true } }

theorem tags_writeDescriptor : tagsOf (exec (.arcWriteDescriptor 0 2 .ok) archiveRingPosted) = 1 := by decide +kernel

/-- Refutes O35: the payload of an occurrence may lie behind a Cascade window; its read then takes a tag of the port, which the frame
of the statement's first part keeps. -/
theorem not_archiveRings : ¬ Obligations.ArchiveRings := by
  intro h
  obtain ⟨hwrite, -⟩ := h archiveRingPosted 0 (by decide +kernel)
  obtain ⟨t, hexec, -, -, -, -, -, -, -, -, -, -, hrest⟩ := hwrite 2 .ok
    ((archiveRingPosted.elapse 0).descOcc (archiveRingPosted.headDesc .arc 2)) openUnit3 rfl (by decide +kernel)
    (by decide +kernel) (by decide +kernel) (by decide +kernel) (by decide +kernel) rfl (by decide +kernel) (by decide +kernel)
    (by decide +kernel) (by decide +kernel) (by decide +kernel) (by decide +kernel) (by decide +kernel) (by decide +kernel)
    (by decide +kernel) (by decide +kernel) (by decide +kernel) (by decide +kernel) (by decide +kernel)
  have hsame := congrArg (fun u : State => u.csc) hrest
  exact false_of_tag hexec tags_writeDescriptor rfl hsame

/-! ### A transmit descriptor of Ethernet -/

/-- The descriptor of a frame of 60 bytes in the far buffer, directed to port 2. -/
def frameDesc : List Byte := leBytes 8 farBuffer ++ leBytes 2 60 ++ [1, 2]

/-- Ring 1 of Ethernet holds that descriptor, and port 2 is up: the counterexample to O49. -/
def ethRingPosted : State :=
  let s := (stacked.setB (Fld.ETH_PORTSTAT_LINKUP 2) true).setF (Fld.ETH_PORTCFG_STP 2) 3
  let s := ((s.wr (Reg.ETH_RCTL 1) 0x80000004).wr64 (Reg.ETH_RBASE 1) 0x1000).memPut 0x1000 frameDesc
  { s with rings := tset s.rings (State.ringKey .eth 1) { head := 0, tail := 3, cidx := 15, cphase := true } }

theorem tags_txDescTaken : tagsOf (exec (.ethTxDescTaken 0 1 .ok) ethRingPosted) = 1 := by decide +kernel

/-- Refutes O49: the frame of a transmit descriptor may lie behind a Cascade window; its read then takes a tag of the port, which the
frame of the statement's first part keeps. -/
theorem not_ethRings : ¬ Obligations.EthRings := by
  intro h
  obtain ⟨hsend, -⟩ := h ethRingPosted 0 (by decide +kernel)
  obtain ⟨t, hexec, -, -, -, -, -, -, -, -, -, hrest⟩ := hsend 1 .ok (ethRingPosted.headDesc .eth 1)
    (ethRingPosted.memRead farBuffer 60) 2 1 (by decide) (by decide +kernel) (by decide +kernel) (by decide +kernel)
    (by decide +kernel) rfl (by decide +kernel) (by decide +kernel) (by decide +kernel) (by decide +kernel) (by decide +kernel)
    (by decide +kernel) (by decide +kernel) (by decide +kernel) (by decide +kernel) (by decide +kernel) (by decide +kernel)
    (by decide +kernel) (by decide +kernel) (by decide) (by decide +kernel) (by decide +kernel)
  have hsame := congrArg (fun u : State => u.csc) hrest
  exact false_of_tag hexec tags_txDescTaken rfl hsame

end Sys2Proof.Proofs.FarBuffers

/-! Loupe units in per-unit mode (R420): what passes is held in `lpeUnits` until its end, which the frames of the statements about
received and sent frames keep. -/

namespace Sys2Proof.Proofs.PerUnitLoupe

open Sys2Proof Sys2Proof.Machine

-- Theorems that the kernel evaluates are checked one after the other: side by side they take more memory than there is.
set_option Elab.async false

/-- Loupe unit 0 is enabled in per-unit mode on stream 0 of a source (R419, R420). -/
def tapped (s : State) (src : Nat) : State :=
  let s := s.wr (Reg.LPE_CFG 0) (0xC0000000 + src * 0x1000000)
  { s with lpe := [(0, some 0)] }

/-- The units of data that an outcome leaves held in Loupe unit 0. -/
def heldOf : Host.Outcome State Fault Refusal → Nat
  | .next t => (tget t.lpeUnits 0).passed.length
  | _ => 0

/-- An outcome that left a unit of data in Loupe unit 0 does not leave the Loupe units as they were. -/
theorem false_of_held {s t : State} {o : Host.Outcome State Fault Refusal} (ho : o = .next t) (hheld : heldOf o = 1)
    (hnone : s.lpeUnits = []) (hsame : t.lpeUnits = s.lpeUnits) : False := by
  subst ho
  have hone : (tget t.lpeUnits 0).passed.length = 1 := hheld
  rw [hsame, hnone] at hone
  exact absurd hone (by decide)

/-! ### A cold-start frame of Walira -/

/-- Channel 0 has been in BACKOFF for 10 ms, with its frames tapped: the counterexample to O46. -/
def inBackoff : State :=
  let s := (tapped State.reset 3).setF (Fld.WAL_STATUS_STATE 0) 6
  { s with time := { s.time with clock := 10000000 } }

theorem held_backoff : heldOf (exec (.walBackoff 0 0) inBackoff) = 1 := by decide +kernel

/-- Refutes O46: a Loupe unit in per-unit mode holds the cold-start frame that leaves, which the frame of the statement's part on
BACKOFF keeps as it was. -/
theorem not_walFrames : ¬ Obligations.WalFrames := by
  intro h
  obtain ⟨-, -, -, -, -, -, -, hbackoff, -⟩ := h inBackoff 0 (by decide +kernel)
  obtain ⟨t, hexec, -, -, -, -, -, -, -, -, -, hrest⟩ := hbackoff 0 (by decide +kernel) (by decide +kernel) (by decide +kernel)
    (by decide +kernel) (by decide +kernel)
  have hsame := congrArg (fun u : State => u.lpeUnits) hrest
  exact false_of_held hexec held_backoff rfl hsame

/-! ### A frame received on Ethernet -/

/-- Port 0 is up, with its received frames tapped: the counterexample to O47. -/
def portUp : State := (tapped State.reset 1).setB (Fld.ETH_PORTSTAT_LINKUP 0) true

/-- A frame whose FCS is wrong. -/
def badFrame : EthFrame := { bytes := [], fcsOk := false, bufferFull := false, isGptp := false }

theorem held_frameRx : heldOf (exec (.ethFrameRx 0 0 badFrame) portUp) = 1 := by decide +kernel

/-- Refutes O47: a Loupe unit in per-unit mode holds the frame that is received, which the frame of the statement's first part keeps as
it was. -/
theorem not_ethReceive : ¬ Obligations.EthReceive := by
  intro h
  obtain ⟨hbad, -⟩ := h portUp 0 (by decide +kernel)
  obtain ⟨t, hexec, -, -, -, -, -, hrest⟩ := hbad 0 badFrame (by decide +kernel) (by decide +kernel) rfl rfl (by decide +kernel)
  have hsame := congrArg (fun u : State => u.lpeUnits) hrest
  exact false_of_held hexec held_frameRx rfl hsame

/-! ### A frame sent on Ethernet -/

/-- A switched frame. -/
def switched : EthQ :=
  { bytes := [], since := 0, launch := none, tol := 0, tsTag := none, origin := .switched, rx := noMeta 0 0 }

/-- It is on the wire of port 0, with its sent frames tapped: the counterexample to O48. -/
def frameOnWire : State :=
  let s := tapped State.reset 2
  { s with eth := { s.eth with sending := [(0, some switched)] } }

theorem held_txComplete : heldOf (exec (.ethTxComplete 0 0) frameOnWire) = 1 := by decide +kernel

/-- Refutes O48: a Loupe unit in per-unit mode holds the frame that has passed, which the frame of the statement's fourth part keeps as
it was. -/
theorem not_ethTransmit : ¬ Obligations.EthTransmit := by
  intro h
  obtain ⟨-, -, -, hdone, -⟩ := h frameOnWire 0 (by decide +kernel)
  obtain ⟨t, hexec, -, -, -, -, -, hrest⟩ := hdone 0 switched (by decide +kernel) rfl (by decide +kernel)
  have hsame := congrArg (fun u : State => u.lpeUnits) hrest
  exact false_of_held hexec held_txComplete rfl hsame

end Sys2Proof.Proofs.PerUnitLoupe

/-! Field channels whose configuration was lost (R258): a coupler still filters, and the logic side counts nothing of it. -/

namespace Sys2Proof.Proofs.LostChannel

open Sys2Proof Sys2Proof.Machine

-- Theorems that the kernel evaluates are checked one after the other: side by side they take more memory than there is.
set_option Elab.async false

/-- Digital input 0 has lost its configuration, and its terminal has asked for another state long enough: the counterexample to
O40. -/
def lostInput : State :=
  let s := State.reset.modCh 0 fun c => { c with mode := 1, lost := true, level := true }
  s.modGrp 0 fun g => { g with vf := 240 }

/-- What FIO_CHG of channel 0 counts in an outcome. -/
def changesOf : Host.Outcome State Fault Refusal → Nat
  | .next t => t.rd64 (Reg.FIO_CHG 0)
  | _ => 0

theorem changes_lostInput : changesOf (exec (.debounceExpiry 0 0) lostInput) = 0 := by decide +kernel

/-- Refutes O40: the statement's part on the debounce time counts the change of a channel that has lost its configuration. -/
theorem not_fieldInputs : ¬ Obligations.FieldInputs := by
  intro h
  obtain ⟨-, -, hexpiry, -⟩ := h lostInput 0 (by decide +kernel)
  obtain ⟨t, hexec, -, -, hcount, -⟩ := hexpiry 0 1 (by decide +kernel) (by decide +kernel) (by decide +kernel) (by decide +kernel)
    (by decide +kernel)
  have hchanges := changes_lostInput
  rw [hexec] at hchanges
  have hone : t.rd64 (Reg.FIO_CHG 0) = (lostInput.rd64 (Reg.FIO_CHG 0) + 1) % 2 ^ 64 := hcount
  rw [show t.rd64 (Reg.FIO_CHG 0) = 0 from hchanges] at hone
  exact absurd hone (by decide +kernel)

end Sys2Proof.Proofs.LostChannel

/-! What a program of register writes makes of the register file does not depend on the rest of the state; an event that is offered
leaves the register file alone. -/

namespace Sys2Proof.Proofs.RegOps

open Sys2Proof Sys2Proof.Machine Sys2Proof.Laws Sys2Proof.Proofs.Power

theorem RegOp.run_regs_congr {s u : State} (h : s.regs = u.regs) (o : RegOp) : (o.run s).regs = (o.run u).regs := by
  obtain ⟨⟩ := s
  obtain ⟨⟩ := u
  subst h
  cases o with
  | field f v =>
    show (State.setF _ f v).regs = (State.setF _ f v).regs
    unfold State.setF
    split <;> rfl
  | word a v => rfl
  | pair a v => rfl
  | count a n => rfl

theorem runAll_regs_congr {s u : State} (h : s.regs = u.regs) (l : List RegOp) : (runAll s l).regs = (runAll u l).regs := by
  induction l generalizing s u with
  | nil => exact h
  | cons o l ih => exact ih (RegOp.run_regs_congr h o)

theorem regs_regOps (s : State) (l : List RegOp) : (regOps s l).regs = (runAll s l).regs := rfl

/-- The registers after a program, run on a state that differs from `s` in other things. -/
theorem regs_regOps_of {s u : State} (h : u.regs = s.regs) (l : List RegOp) : (regOps u l).regs = (runAll s l).regs :=
  runAll_regs_congr h l

theorem regOps_of_regs {s u : State} (h : u.regs = s.regs) (l : List RegOp) :
    regOps u l = { u with regs := (runAll s l).regs } := by
  rw [regOps, runAll_regs_congr h]

theorem regOps_regOps (s : State) (l m : List RegOp) : regOps (regOps s l) m = regOps s (l ++ m) := by
  have hregs : (runAll (regOps s l) m).regs = (runAll s (l ++ m)).regs := by
    rw [runAll_regs_congr (s := regOps s l) (u := runAll s l) rfl, runAll, runAll, runAll, List.foldl_append]
  unfold regOps
  rw [← hregs]
  rfl

@[simp] theorem rd64_mod (s : State) (a : Nat) : s.rd64 a % 18446744073709551616 = s.rd64 a :=
  Nat.mod_eq_of_lt (View.rd64_lt s.rdw a)

/-- The register file after a program. Comparing states need not look into it. -/
@[irreducible] def regFile (s : State) (l : List RegOp) : List (Nat × Word) := (runAll s l).regs

/-- A state after a program of writes, whose register file stays folded. -/
def written (s : State) (l : List RegOp) : State := { s with regs := regFile s l }

theorem regFile_eq (s : State) (l : List RegOp) : regFile s l = (runAll s l).regs := by
  unfold regFile
  rfl

theorem regOps_eq_written (s : State) (l : List RegOp) : regOps s l = written s l := by
  rw [regOps, written, regFile_eq]

theorem runAll_eq_written (s : State) (l : List RegOp) : runAll s l = written s l :=
  (runAll_eq_regOps s l).trans (regOps_eq_written s l)

/-- The registers of a state that differs from a written one in other things. -/
theorem regs_written_of {s u : State} (h : u.regs = s.regs) (l : List RegOp) : (written u l).regs = (runAll s l).regs :=
  (regFile_eq u l).trans (runAll_regs_congr h l)

theorem regsWf_of_regs {s t : State} {l : List RegOp} (h : s.regsWf = true) (ht : t.regs = (runAll s l).regs) :
    t.regsWf = true := by
  have hwf := runAll_regsWf h l
  rw [State.regsWf] at hwf ⊢
  rwa [ht]

theorem written_of_regs {s u : State} (h : u.regs = s.regs) (l : List RegOp) : written u l = { u with regs := regFile s l } := by
  rw [written, regFile_eq, regFile_eq, runAll_regs_congr h]

theorem written_written (s : State) (l m : List RegOp) : written (written s l) m = written s (l ++ m) := by
  rw [← regOps_eq_written, ← regOps_eq_written, ← regOps_eq_written, regOps_regOps]

theorem written_nil (s : State) : written s [] = s := (runAll_eq_written s []).symm

theorem getF_lt (s : State) (f : Field) : s.getF f < 2 ^ f.len := Nat.mod_lt _ (Nat.two_pow_pos _)

/-- An occurrence joins the event port of a block. -/
def offer (s : State) (blk : Nat) (o : Occurrence) : State := { s with arc := { s.arc with ports := portsWith s blk o } }

theorem emit_eq_offer {s : State} {blk : Nat} (h : PortRoom s blk) (code sev coll : Nat) (payload : List Byte) :
    s.emit blk code sev coll payload = offer s blk ⟨blk + 1, code, sev, coll, s.time.mt, payload⟩ := emit_of_room h ..

theorem regOps_offer (s : State) (blk : Nat) (o : Occurrence) (l : List RegOp) :
    regOps (offer s blk o) l = offer (regOps s l) blk o := by
  unfold regOps
  rw [runAll_regs_congr (s := offer s blk o) (u := s) rfl]
  rfl

theorem written_offer (s : State) (blk : Nat) (o : Occurrence) (l : List RegOp) :
    written (offer s blk o) l = offer (written s l) blk o := written_of_regs (s := s) (u := offer s blk o) rfl l

/-- What `Offered` says, of a state whose ports have taken one occurrence. -/
theorem offered_of_ports {s t : State} {blk code sev coll : Nat} {payload : List Byte}
    (h : t.arc.ports = portsWith s blk ⟨blk + 1, code, sev, coll, t.time.mt, payload⟩) :
    Offered blk code sev coll payload s t := by
  constructor
  · rw [h, tget_portsWith_self]
  · intro b hb
    rw [h]
    exact tget_tset_ne _ hb.symm _

end Sys2Proof.Proofs.RegOps

/-! Walira: delays of links, links, own frames cut, the guardian's clock, and frames cut that pass through (R312, R314, R321, R322). -/

namespace Sys2Proof.Proofs.WaliraLinks

open Sys2Proof Sys2Proof.Machine Sys2Proof.Laws Sys2Proof.Proofs.Time Sys2Proof.Proofs.Power Sys2Proof.Proofs.RegOps

/-- The collection of Walira's events: that of WAL_EVCOLL, or 0 where it names none. -/
def coll (s : State) : Nat := if 55 < s.getF Fld.WAL_EVCOLL_COLL then 0 else s.getF Fld.WAL_EVCOLL_COLL

theorem walEvent_of_room {s : State} (h : PortRoom s 0x09) (code sev : Nat) (payload : List Byte) :
    s.walEvent code sev payload = offer s 0x09 ⟨0x0A, code, sev, coll s, s.time.mt, payload⟩ := emit_eq_offer h ..

theorem coll_of_regs {s t : State} {l : List RegOp} (ht : t.regs = (runAll s l).regs)
    (hout : Reg.WAL_EVCOLL ∉ l.flatMap RegOp.words) : coll t = coll s := by
  simp only [coll, getF_of_regsKept (regsKept_of_regs ht fun _ h => h) (f := Fld.WAL_EVCOLL_COLL) (by decide) hout]

theorem walCh_modWc_self (s : State) (c : Nat) (f : WalChan → WalChan) : (s.modWc c f).walCh c = f (s.walCh c) :=
  tget_tmod_self ..

theorem walRec_modWr_self (s : State) (e : Nat) (f : WalRec → WalRec) : (s.modWr e f).walRec e = f (s.walRec e) :=
  tget_tmod_self ..

/-! ### Delays and links (R312, R314) -/

/-- What is learnt of a channel's delays shows in two bits of WAL_STATUS. -/
def delayWrites (c known err : Nat) : List RegOp :=
  [.field (Fld.WAL_STATUS_DLYKNOWN c) known, .field (Fld.WAL_STATUS_SPANERR c) err]

theorem walDelays_eq (s : State) (c : Nat) : ∃ known err, s.walDelays c = regOps s (delayWrites c known err) :=
  ⟨_, _, runAll_eq_regOps s (delayWrites c _ _)⟩

def delayLearnt (x delay : Nat) : List RegOp :=
  [.bit (Fld.WAL_LINKDLY_VALID x) true, .field (Fld.WAL_LINKDLY_DLY x) delay]

theorem exec_linkDelayExchange {s : State} (dt : Nat) {port : Fin 4} {delay : BitVec 16}
    (hup : s.bit (Fld.WAL_LINKDLY_LINKUP port.val) = true) (hon : s.unitOff 0x09 0 = false) :
    ∃ known err, exec (.linkDelayExchange dt port delay) s =
      .next (regOps (s.elapse dt) (delayLearnt port.val delay.toNat ++ delayWrites (port.val / 2) known err)) := by
  have hacts : ¬ (!s.bit (Fld.WAL_LINKDLY_LINKUP port.val) ∨ s.unitOff 0x09 0) := by simp [hup, hon]
  obtain ⟨known, err, hdelays⟩ := walDelays_eq (regOps (s.elapse dt) (delayLearnt port.val delay.toNat)) (port.val / 2)
  rw [regOps_regOps] at hdelays
  exact ⟨known, err, congrArg Host.Outcome.next ((if_neg hacts).trans hdelays)⟩

def linkLost (x : Nat) : List RegOp := [.bit (Fld.WAL_LINKDLY_LINKUP x) false, .bit (Fld.WAL_LINKDLY_VALID x) false]

/-- A link went down: its delay is no longer valid, and its event is offered. -/
def linkDowned (s : State) (x known err : Nat) : State :=
  offer (regOps s (linkLost x ++ delayWrites (x / 2) known err)) 0x09 ⟨0x0A, 0x080A, 2, coll s, s.time.mt, p4 [x, 0]⟩

theorem exec_walLink_down {s : State} (dt : Nat) {port : Fin 4} (hup : s.bit (Fld.WAL_LINKDLY_LINKUP port.val) = true)
    (hroom : PortRoom s 0x09) :
    ∃ known err, exec (.walLink dt port false) s = .next (linkDowned (s.elapse dt) port.val known err) := by
  have hnews : ¬ (s.bit (Fld.WAL_LINKDLY_LINKUP port.val) = false) := by simp [hup]
  have hcoll : coll (regOps (s.elapse dt) (linkLost port.val)) = coll (s.elapse dt) :=
    coll_of_regs rfl (by simp [linkLost, RegOp.words]; grind)
  have hevent := walEvent_of_room (s := regOps (s.elapse dt) (linkLost port.val)) hroom 0x080A 2 (p4 [port.val, 0])
  rw [hcoll] at hevent
  obtain ⟨known, err, hdelays⟩ :=
    walDelays_eq ((regOps (s.elapse dt) (linkLost port.val)).walEvent 0x080A 2 (p4 [port.val, 0])) (port.val / 2)
  refine ⟨known, err, congrArg Host.Outcome.next ((if_neg hnews).trans (hdelays.trans ?_))⟩
  rw [hevent, regOps_offer, regOps_regOps]
  rfl

/-! ### Frames cut (R321, R322) -/

/-- The own frame of a channel ends with a transmit error. -/
def ownCut (s : State) (c e : Nat) : State :=
  ((regOps s [.count (Reg.WAL_TXCUT c) 1]).modWr e fun r => { r with aborted := true }).modWc c fun w =>
    { w with
      wireErr := w.wireErr || decide (s.time.clock < w.sendUntil)
      csSent := w.csSent && !(decide (s.time.clock < w.sendUntil) && w.sending.isNone)
      sendUntil := min w.sendUntil s.time.clock, sending := none }

theorem exec_guardianCut {s : State} {dt e : Nat} {chan : Fin 2} (hwire : (s.elapse dt).walOnWire chan.val = some e)
    (hend : (s.walSlot e).ofs + (s.walSlot e).slen ≤ (s.elapse dt).walNow + s.walG + s.walSpan) :
    exec (.guardianCut dt chan) s = .next (ownCut (s.elapse dt) chan.val e) := by
  have hwire' : ((s.elapse dt).inc64 (Reg.WAL_TXCUT chan.val)).walOnWire chan.val = some e := hwire
  show execGuardianCut dt chan s = _
  simp only [execGuardianCut, hwire, State.walCutOwn, hwire']
  exact congrArg Host.Outcome.next (if_neg (Nat.not_lt_of_le hend))

theorem sending_of_walOnWire {s : State} {c e : Nat} (h : s.walOnWire c = some e) :
    s.time.clock < (s.walCh c).sendUntil ∧ (s.walCh c).sending = some e := by
  unfold State.walOnWire at h
  split at h
  case isTrue hlt => exact ⟨hlt, h⟩
  case isFalse => cases h

/-- The guardian blocks a port in the next cycle. -/
def portBlocked (s : State) (x : Nat) : State :=
  offer (regOps (s.modWc (x / 2) fun w => { w with blockNext := w.blockNext ||| 2 ^ (x % 2) }) [.count (Reg.WAL_GUARDCLK (x / 2)) 1])
    0x09 ⟨0x0A, 0x0809, 5, coll s, s.time.mt, p4 [x]⟩

theorem exec_walGuardClk_bad {s : State} (dt : Nat) {port : Fin 4} {interval : Nat}
    (hbad : interval < 249900 ∨ 250100 < interval) (hroom : PortRoom s 0x09) :
    exec (.walGuardClk dt port interval) s = .next (portBlocked (s.elapse dt) port.val) := by
  have hcoll : coll (regOps (s.elapse dt) [.count (Reg.WAL_GUARDCLK (port.val / 2)) 1]) = coll (s.elapse dt) :=
    coll_of_regs rfl (by simp [RegOp.words]; grind)
  refine congrArg Host.Outcome.next ((if_neg (by omega)).trans ((walEvent_of_room (by exact hroom) ..).trans ?_))
  rw [portBlocked, ← hcoll]
  rfl

/-- A frame that passes through, cut at its end limit. -/
def cutFrame (x : WalFwd) : WalFwd :=
  { x with until_ := x.limit, bad := true, wire := x.wire.take ((x.limit - x.start) / 8 - 8) }

def forwardCutAt (s : State) (port : Nat) (x : WalFwd) : State :=
  (regOps s [.count (Reg.WAL_FWDCUT (port / 2)) 1]).modWc (port / 2) fun w =>
    { w with fwd := (w.fwd.filter fun y => y.port != port) ++ [cutFrame x] }

theorem exec_forwardCut {s : State} {dt : Nat} {port : Fin 4} {x : WalFwd} (hfwd : (s.walCh (port.val / 2)).fwd = [x])
    (hport : x.port = port.val) (hlimit : x.limit ≤ (s.elapse dt).time.clock) (hlate : x.limit < x.until_) :
    exec (.forwardCut dt port) s = .next (forwardCutAt (s.elapse dt) port.val x) := by
  have hfind : ((s.elapse dt).walCh (port.val / 2)).fwd.find? (fun y => y.port == port.val &&
      decide (y.limit ≤ (s.elapse dt).time.clock ∧ y.limit < y.until_)) = some x := by
    show (s.walCh (port.val / 2)).fwd.find? _ = _
    simp [hfwd, hport, hlimit, hlate]
  show execForwardCut dt port s = _
  simp only [execForwardCut, hfind]
  rfl

/-- Settles O45: each command leads to the state of its lemma, whose register program gives what it writes and leaves. -/
theorem walLinks : Obligations.WalLinks := by
  intro s dt hs
  have hw : s.regsWf = true := (Bool.and_eq_true_iff.mp hs).1
  have hu : (s.elapse dt).regsWf = true := hw
  refine ⟨?exchange, ?down, ?ownCut, ?clockBad, ?clockGood, ?forwardCut⟩
  case exchange =>
    intro port delay hup hon
    have hport := port.isLt
    obtain ⟨known, err, hexec⟩ := exec_linkDelayExchange dt (delay := delay) hup hon
    refine ⟨_, hexec, ?_, ?_, regsKept_of_regs (s := s.elapse dt) rfl ?_, fun _ => rfl, rfl⟩
    · simp (disch := grind) [bit_of_regs hu (regs_regOps ..), delayLearnt, delayWrites, RegOp.see]
    · simp (disch := grind) [getF_of_regs hu (regs_regOps ..), delayLearnt, delayWrites, RegOp.see]
      omega
    · simp [delayLearnt, delayWrites, RegOp.words, show 8 * (port.val / 2) + 5 < 32 by omega,
        show 8 * (port.val / 2) + 6 < 32 by omega]
  case down =>
    intro port hup hroom
    have hport := port.isLt
    obtain ⟨known, err, hexec⟩ := exec_walLink_down dt hup hroom
    have hr : (linkDowned (s.elapse dt) port.val known err).regs =
        (runAll (s.elapse dt) (linkLost port.val ++ delayWrites (port.val / 2) known err)).regs := rfl
    refine ⟨_, hexec, ?_, ?_, offered_of_ports rfl, regsKept_of_regs (s := s.elapse dt) hr ?_, fun _ => rfl, rfl⟩
    · simp (disch := grind) [bit_of_regs hu hr, linkLost, delayWrites, RegOp.see]
    · simp (disch := grind) [bit_of_regs hu hr, linkLost, delayWrites, RegOp.see]
    · simp [linkLost, delayWrites, RegOp.words, show 8 * (port.val / 2) + 5 < 32 by omega,
        show 8 * (port.val / 2) + 6 < 32 by omega]
  case ownCut =>
    intro chan e hwire hend
    obtain ⟨hlt, hsending⟩ := sending_of_walOnWire hwire
    have hch : (ownCut (s.elapse dt) chan.val e).walCh chan.val = _ := walCh_modWc_self ..
    have hr : (ownCut (s.elapse dt) chan.val e).regs = (runAll (s.elapse dt) [.count (Reg.WAL_TXCUT chan.val) 1]).regs := rfl
    refine ⟨_, exec_guardianCut hwire hend, congrArg WalChan.sending hch, (congrArg WalChan.wireErr hch).trans ?_,
      (congrArg WalChan.sendUntil hch).trans (Nat.min_eq_right (Nat.le_of_lt hlt)), walRec_modWr_self (s.elapse dt) e fun r => { r with aborted := true }, ?_,
      regsKept_of_regs (s := s.elapse dt) hr (by simp [RegOp.words]), fun _ => rfl, rfl⟩
    · exact (congrArg (_ || ·) (decide_eq_true hlt)).trans (Bool.or_true _)
    · simp [Counted, rd64_of_regs hu hr, RegOp.see]
  case clockBad =>
    intro port interval hbad hroom
    have hr : (portBlocked (s.elapse dt) port.val).regs =
        (runAll (s.elapse dt) [.count (Reg.WAL_GUARDCLK (port.val / 2)) 1]).regs := rfl
    refine ⟨_, exec_walGuardClk_bad dt hbad hroom, congrArg WalChan.blockNext (walCh_modWc_self (s.elapse dt) _ _), ?_,
      offered_of_ports rfl,
      regsKept_of_regs (s := s.elapse dt) hr (by simp [RegOp.words]), fun _ => rfl, rfl⟩
    simp [Counted, rd64_of_regs hu hr, RegOp.see]
  case clockGood =>
    intro port interval hlow hhigh
    exact ⟨_, congrArg Host.Outcome.next (if_pos ⟨hlow, hhigh⟩), rfl, fun _ _ => rfl, fun _ => rfl, rfl⟩
  case forwardCut =>
    intro port x hfwd hport hlimit hlate
    have hr : (forwardCutAt (s.elapse dt) port.val x).regs =
        (runAll (s.elapse dt) [.count (Reg.WAL_FWDCUT (port.val / 2)) 1]).regs := rfl
    refine ⟨_, exec_forwardCut hfwd hport hlimit hlate, ?_, (walCh_modWc_self ..).trans ?_,
      regsKept_of_regs (s := s.elapse dt) hr (by simp [RegOp.words]), fun _ => rfl, rfl⟩
    · simp [Counted, rd64_of_regs hu hr, RegOp.see]
    · have hgone : ((s.walCh (port.val / 2)).fwd.filter fun y => y.port != port.val) ++ [cutFrame x] = [cutFrame x] := by
        simp [hfwd, hport]
      exact congrArg (fun f => { s.walCh (port.val / 2) with fwd := f }) hgone

end Sys2Proof.Proofs.WaliraLinks

/-! Measurement samples: the sinc stage, an output, a stuck stream, and the read count of a ring (R281 to R283, R286, R295, R301). -/

namespace Sys2Proof.Proofs.Samples

open Sys2Proof Sys2Proof.Machine Sys2Proof.Laws Sys2Proof.Proofs.Time Sys2Proof.Proofs.Measurement Sys2Proof.Proofs.Power
open Sys2Proof.Proofs.RegOps

/-- The collection of the chain's events: that of MEAS_EVCOLL, or 0 where it names none. -/
def coll (s : State) : Nat := if 55 < s.getF Fld.MEAS_EVCOLL_COLL then 0 else s.getF Fld.MEAS_EVCOLL_COLL

theorem measEvent_of_room {s : State} (h : PortRoom s 0x08) (code sev : Nat) (payload : List Byte) :
    s.measEvent code sev payload = offer s 0x08 ⟨0x09, code, sev, coll s, s.time.mt, payload⟩ := emit_eq_offer h ..

theorem coll_of_regsKept {s t : State} {ws : List Nat} (h : RegsKept ws s t) (hout : Reg.MEAS_EVCOLL ∉ ws) : coll t = coll s := by
  simp only [coll, getF_of_regsKept h (f := Fld.MEAS_EVCOLL_COLL) (by decide) hout]

theorem measCh_modMc_self (s : State) (m : Nat) (f : MeasCh → MeasCh) : (s.modMc m f).measCh m = f (s.measCh m) := tget_tmod_self ..

theorem measCh_modMc_ne (s : State) {m k : Nat} (h : k ≠ m) (f : MeasCh → MeasCh) : (s.modMc m f).measCh k = s.measCh k :=
  tget_tmod_ne _ h.symm f

theorem modMc_congr {s : State} {m : Nat} {f g : MeasCh → MeasCh} (h : f (s.measCh m) = g (s.measCh m)) : s.modMc m f = s.modMc m g := by
  have htab : tmod s.meas.ch m f = tmod s.meas.ch m g := congrArg (tset s.meas.ch m) h
  simp only [State.modMc, State.modMeas, htab]

/-! ### The sinc stage (R282) -/

/-- A channel after the 64 modulator bits of a sinc output. -/
def sincTaken (bits : BitVec 64) (c : MeasCh) : MeasCh :=
  let integ := (List.range 64).foldl (fun l i => sincBit l (b2n (bits.toNat.testBit i))) c.integ
  let out := sincComb c.comb (integ.getLastD 0)
  { c with integ, comb := out.1, sincs := out.2 :: c.sincs.take 1199, sincN := c.sincN + 1 }

theorem exec_sincOutput {s : State} {dt r : Nat} {ch : Fin 16} (bits : BitVec 64) (hrun : (s.measCh ch.val).run = some r)
    (hbegun : r ≤ (s.elapse dt).time.mt) :
    exec (.sincOutput dt ch bits) s = .next ((s.elapse dt).modMc ch.val (sincTaken bits)) := by
  have hrun' : ((s.elapse dt).measCh ch.val).run = some r := hrun
  show execSincOutput dt ch bits s = _
  simp only [execSincOutput, hrun', if_neg (Nat.not_lt_of_le hbegun)]
  exact congrArg Host.Outcome.next (modMc_congr (by simp only [sincTaken]))

/-! ### An output without DC blocking (R286, R295, R296) -/

/-- The word of the filter value of an output without DC blocking, scaled and offset, before it is limited. -/
def scaled (c : MeasCh) (e : List Byte) : Int :=
  divHalfAway (Config.firOutput c.preset (c.span c.j) * 65536 * signed32 (ent e 4 4)) (2 ^ 46) + signed32 (ent e 8 4)

def limited (z : Int) : Int := max (-2147483648) (min 2147483647 z)

/-- An output at `ts`. -/
def outputOf (s : State) (m ts : Nat) (e : List Byte) : MeasOut :=
  let c := s.measCh m
  ⟨ts, limited (scaled c e), b2n (decide (c.j < 8)) + 2 * b2n ((c.span c.j).any sincOver) + 8 * b2n (s.bit Fld.MEAS_STATUS_SLIP),
    s.rd64 (Reg.MEAS_PRODUCED m), ts + measL c.preset, if ent e 24 1 = 0 then none else some (ent e 16 8, ent e 24 1)⟩

/-- What an output counts and shows. -/
def outputWrites (m : Nat) (clip sat : Bool) : List RegOp :=
  [.count (Reg.MEAS_PRODUCED m) 1] ++ (if clip then [.count (Reg.MEAS_CLIPS m) 1] else []) ++
    (if sat then [.count (Reg.MEAS_SATS m) 1] else []) ++ [.word (Reg.MEAS_DCEST m) 0]

theorem words_outputWrites (m : Nat) (clip sat : Bool) : (outputWrites m clip sat).flatMap RegOp.words ⊆
    [Reg.MEAS_DCEST m] ++ two (Reg.MEAS_PRODUCED m) ++ two (Reg.MEAS_CLIPS m) ++ two (Reg.MEAS_SATS m) := by
  cases clip <;> cases sat <;> simp [outputWrites, RegOp.words]

theorem counted_outputWrites {s t : State} {m : Nat} {clip sat : Bool} (h : s.regsWf = true)
    (ht : t.regs = (runAll s (outputWrites m clip sat)).regs) :
    Counted (Reg.MEAS_PRODUCED m) 1 s t ∧ Counted (Reg.MEAS_CLIPS m) (b2n clip) s t ∧ Counted (Reg.MEAS_SATS m) (b2n sat) s t := by
  cases clip <;> cases sat <;> simp (disch := grind) [Counted, rd64_of_regs h ht, outputWrites, RegOp.see]

def outputTaken (o : MeasOut) (c : MeasCh) : MeasCh :=
  { c with
    j := c.j + 1, est := 0, sum := c.sum + Config.firOutput c.preset (c.span c.j), recur := c.recur || false, ready := c.ready ++ [o] }

theorem limited_eq_iff (z : Int) : limited z = z ↔ ¬ (z < -2147483648 ∨ 2147483647 < z) := by
  unfold limited
  omega

/-- A counter that counts only where a condition holds, as a program. -/
theorem inc64_if (s : State) (b : Bool) (a : Nat) :
    (if b = true then s.inc64 a else s) = runAll s (if b then [.count a 1] else []) := by cases b <;> rfl

theorem inc64_unless {p : Prop} [Decidable p] (s : State) (a : Nat) :
    (if p then s else s.inc64 a) = runAll s (if decide (¬ p) then [.count a 1] else []) := by
  by_cases h : p <;> simp [h] <;> rfl

theorem measOutput_of_noBlocking (s : State) (m r ts : Nat) (e : List Byte)
    (hts : ts = r + (s.measCh m).j * measP (s.measCh m).preset) (he : e = (s.measCh m).conf ts) (hcorner : ent e 2 1 = 0) :
    s.measOutput m r =
      regOps (s.modMc m (outputTaken (outputOf s m ts e)))
        (outputWrites m (((s.measCh m).span (s.measCh m).j).any sincOver)
          (decide (¬ limited (scaled (s.measCh m) e) = scaled (s.measCh m) e))) := by
  subst hts
  subst he
  rw [← runAll_eq_regOps]
  unfold State.measOutput
  simp only [hcorner, bne_self_eq_false, Bool.and_false, if_true, true_or, Int.sub_zero, b2n_false, Nat.mul_zero, Nat.add_zero,
    Bool.false_eq_true, if_false, inc64_if, inc64_unless]
  simp only [outputWrites, runAll, List.foldl_append]
  rfl

theorem exec_measOutputReady {s : State} {dt r ts : Nat} {ch : Fin 16} {e : List Byte} (hrun : (s.measCh ch.val).run = some r)
    (hts : ts = r + (s.measCh ch.val).j * measP (s.measCh ch.val).preset) (hdue : ts ≤ (s.elapse dt).time.mt)
    (he : e = (s.measCh ch.val).conf ts) (hcorner : ent e 2 1 = 0) :
    exec (.measOutputReady dt ch) s = .next (regOps ((s.elapse dt).modMc ch.val (outputTaken (outputOf s ch.val ts e)))
      (outputWrites ch.val (((s.measCh ch.val).span (s.measCh ch.val).j).any sincOver)
        (decide (scaled (s.measCh ch.val) e < -2147483648 ∨ 2147483647 < scaled (s.measCh ch.val) e)))) := by
  have hrun' : ((s.elapse dt).measCh ch.val).run = some r := hrun
  show execMeasOutputReady dt ch s = _
  simp only [execMeasOutputReady, hrun']
  rw [if_neg (by rw [hts] at hdue; exact Nat.not_lt_of_le hdue)]
  have htaken := measOutput_of_noBlocking (s.elapse dt) ch.val r ts e hts he hcorner
  simp only [limited_eq_iff, not_not] at htaken
  exact congrArg Host.Outcome.next htaken

/-! ### A stuck stream, and the read count of a ring (R281, R301) -/

/-- A stuck stream is flagged and reported. -/
def stuck (s : State) (m : Nat) : State :=
  offer (regOps s [.bit (Fld.MEAS_CHSTAT_STUCK m) true]) 0x08 ⟨0x09, 0x0705, 4, coll s, s.time.mt, p4 [m]⟩

theorem exec_measStuck {s : State} (dt : Nat) {ch : Fin 16} (hclear : s.bit (Fld.MEAS_CHSTAT_STUCK ch.val) = false)
    (hon : s.unitOff 0x08 0 = false) (hroom : PortRoom s 0x08) :
    exec (.measStuck dt ch) s = .next (stuck (s.elapse dt) ch.val) := by
  have hacts : ¬ (s.bit (Fld.MEAS_CHSTAT_STUCK ch.val) ∨ s.unitOff 0x08 0) := by simp [hclear, hon]
  have hcoll : coll (regOps (s.elapse dt) [.bit (Fld.MEAS_CHSTAT_STUCK ch.val) true]) = coll (s.elapse dt) :=
    coll_of_regsKept (regsKept_of_regs rfl fun _ h => h) (by simp [RegOp.words]; grind)
  refine congrArg Host.Outcome.next ((if_neg hacts).trans ((measEvent_of_room (by exact hroom) ..).trans ?_))
  rw [stuck, ← hcoll]
  rfl

theorem ringRdWrite_within {s : State} {m value : Nat} (hlow : s.rd64 (Reg.MEAS_RINGRD m) ≤ value)
    (hhigh : value ≤ s.rd64 (Reg.MEAS_WRITTEN m)) : s.ringRdWrite m value = s.wr64 (Reg.MEAS_RINGRD m) value :=
  if_neg (by omega)

theorem ringRdWrite_beyond {s : State} {m value : Nat} (hbeyond : s.rd64 (Reg.MEAS_WRITTEN m) < value) :
    s.ringRdWrite m value = s.inc64 (Reg.MEAS_RDERR m) :=
  if_pos (Or.inr hbeyond)

/-- Settles O43: each command leads to the state of its lemma, whose register program gives what it writes and leaves. -/
theorem measSamples : Obligations.MeasSamples := by
  intro s dt hs
  have hw : s.regsWf = true := (Bool.and_eq_true_iff.mp hs).1
  have hu : (s.elapse dt).regsWf = true := hw
  refine ⟨?sinc, ?output, ?stuck, ?unstuck, ?within, ?beyond⟩
  case sinc =>
    intro ch bits r hrun hbegun
    exact ⟨_, exec_sincOutput bits hrun hbegun, measCh_modMc_self .., fun k hk => measCh_modMc_ne (s.elapse dt) hk _,
      fun _ _ => rfl, fun _ => rfl, rfl⟩
  case output =>
    intro ch r ts e z clip hrun hts hdue he hcorner hz hclip
    subst hz
    subst hclip
    refine ⟨_, exec_measOutputReady hrun hts hdue he hcorner, congrArg MeasCh.ready (measCh_modMc_self (s.elapse dt) ch.val _),
      congrArg MeasCh.j (measCh_modMc_self (s.elapse dt) ch.val _), ?_⟩
    have hr := regs_regOps_of (s := s.elapse dt) (u := (s.elapse dt).modMc ch.val (outputTaken (outputOf s ch.val ts e))) rfl
      (outputWrites ch.val (((s.measCh ch.val).span (s.measCh ch.val).j).any sincOver)
        (decide (scaled (s.measCh ch.val) e < -2147483648 ∨ 2147483647 < scaled (s.measCh ch.val) e)))
    obtain ⟨hproduced, hclips, hsats⟩ := counted_outputWrites hu hr
    exact ⟨hproduced, hclips, hsats, fun k hk => measCh_modMc_ne (s.elapse dt) hk _,
      regsKept_of_regs (s := s.elapse dt) hr (words_outputWrites ..), fun _ => rfl, rfl⟩
  case stuck =>
    intro ch hclear hon hroom
    have hr : (stuck (s.elapse dt) ch.val).regs = (runAll (s.elapse dt) [.bit (Fld.MEAS_CHSTAT_STUCK ch.val) true]).regs := rfl
    refine ⟨_, exec_measStuck dt hclear hon hroom, ?_, offered_of_ports rfl,
      regsKept_of_regs (s := s.elapse dt) hr (by simp [RegOp.words]), fun _ => rfl, rfl⟩
    simp [bit_of_regs hu hr, RegOp.see]
  case unstuck =>
    intro ch
    have hr : ((s.elapse dt).setB (Fld.MEAS_CHSTAT_STUCK ch.val) false).regs =
        (runAll (s.elapse dt) [.bit (Fld.MEAS_CHSTAT_STUCK ch.val) false]).regs := rfl
    refine ⟨_, rfl, ?_, regsKept_of_regs (s := s.elapse dt) hr (by simp [RegOp.words]), fun _ => rfl, rfl⟩
    simp [bit_of_regs hu hr, RegOp.see]
  case within =>
    intro req ch value hlets hlow hhigh
    have hexec : exec (.measRingrdWrite dt req ch value) s = _ :=
      congrArg Host.Outcome.next (regCmd_of_lets (lets_elapse hlets dt) fun s => s.ringRdWrite ch.val value.toNat)
    rw [ringRdWrite_within (s := s.elapse dt) hlow hhigh] at hexec
    have hr : (((s.elapse dt).wr64 (Reg.MEAS_RINGRD ch.val) value.toNat).respond 0 0).regs =
        (runAll (s.elapse dt) [.pair (Reg.MEAS_RINGRD ch.val) value.toNat]).regs := rfl
    refine ⟨_, hexec, rfl, ?_, regsKept_of_regs (s := s.elapse dt) hr (by simp [RegOp.words]), fun _ => rfl, rfl⟩
    simp [rd64_of_regs hu hr, RegOp.see]
    omega
  case beyond =>
    intro req ch value hlets hbeyond
    have hexec : exec (.measRingrdWrite dt req ch value) s = _ :=
      congrArg Host.Outcome.next (regCmd_of_lets (lets_elapse hlets dt) fun s => s.ringRdWrite ch.val value.toNat)
    rw [ringRdWrite_beyond (s := s.elapse dt) hbeyond] at hexec
    have hr : (((s.elapse dt).inc64 (Reg.MEAS_RDERR ch.val)).respond 0 0).regs =
        (runAll (s.elapse dt) [.count (Reg.MEAS_RDERR ch.val) 1]).regs := rfl
    refine ⟨_, hexec, rfl, ?_, regsKept_of_regs (s := s.elapse dt) hr (by simp [RegOp.words]), fun _ => rfl, rfl⟩
    simp [Counted, rd64_of_regs hu hr, RegOp.see]

end Sys2Proof.Proofs.Samples

/-! Measurement synchronisation: requests, a SYNC, and the lock of the modulator clock (R289, R302 to R304, R306). -/

namespace Sys2Proof.Proofs.SyncRequests

open Sys2Proof Sys2Proof.Machine Sys2Proof.Laws Sys2Proof.Proofs.Time Sys2Proof.Proofs.Measurement Sys2Proof.Proofs.Power
open Sys2Proof.Proofs.RegOps Sys2Proof.Proofs.Samples

theorem regOps_modMeas (s : State) (l : List RegOp) (f : MeasSt → MeasSt) :
    (regOps s l).modMeas f = regOps (s.modMeas f) l := (regOps_of_regs (s := s) (u := s.modMeas f) rfl l).symm

/-! ### Requests (R302, R303) -/

/-- A request of a module that is no member and no master of a stack waits for the next edge of the modulator clock. -/
theorem syncRequest_of_alone {s : State} (hmember : s.measMember = false) (hmaster : s.measMaster = false) (src : Nat) :
    s.syncRequest src = s.modMeas fun x => { x with syncs := x.syncs ++ [(s.mclkEdge, src)] } := by
  simp [State.syncRequest, hmember, hmaster]

/-- The instant of the pin's last edge is kept. -/
def pinSeen (s : State) : State := s.modMeas fun x => { x with lastPin := some s.time.clock }

section
variable {s : State} {dt width : Nat} {rising : Bool}

theorem pin_active (hon : s.unitOff 0x08 0 = false) (hpin : s.bit Fld.MEAS_SYNCCTL_PIN_EN = true)
    (hedge : rising ≠ s.bit Fld.MEAS_SYNCCTL_PIN_POL) (hwidth : 100 ≤ width) :
    ¬ ((s.elapse dt).unitOff 0x08 0 ∨ !(s.elapse dt).bit Fld.MEAS_SYNCCTL_PIN_EN ∨
      rising = (s.elapse dt).bit Fld.MEAS_SYNCCTL_PIN_POL ∨ width < 100) := by
  have hon' : (s.elapse dt).unitOff 0x08 0 = false := hon
  simp [hon', hpin, hedge, hwidth]

theorem exec_syncInEdge {last : Bool} (hon : s.unitOff 0x08 0 = false) (hpin : s.bit Fld.MEAS_SYNCCTL_PIN_EN = true)
    (hedge : rising ≠ s.bit Fld.MEAS_SYNCCTL_PIN_POL) (hwidth : 100 ≤ width)
    (hlast : (match s.meas.lastPin with
      | some t => decide ((s.elapse dt).time.clock < t + 10000)
      | none => false) = last) :
    exec (.syncInEdge dt rising width) s =
      .next (if last then (pinSeen (s.elapse dt)).syncIgnored else (pinSeen (s.elapse dt)).syncRequest 1) := by
  subst hlast
  exact congrArg Host.Outcome.next (if_neg (pin_active hon hpin hedge hwidth))

end

/-! ### A SYNC (R289, R304) -/

/-- The words that show a channel. -/
def chanWords (m : Nat) : List Nat := [Reg.MEAS_CHSTAT m, Reg.MEAS_DCEST m]

theorem measShow_eq (s : State) (m : Nat) : ∃ l, l.flatMap RegOp.words ⊆ chanWords m ∧ s.measShow m = regOps s l := by
  refine ⟨[.field (Fld.MEAS_CHSTAT_FLAGS m) _, .bit (Fld.MEAS_CHSTAT_CFGERR m) _, .bit (Fld.MEAS_CHSTAT_FROZEN m) _,
    .bit (Fld.MEAS_CHSTAT_EN m) _, .field (Fld.MEAS_CHSTAT_PRESET m) _, .word (Reg.MEAS_DCEST m) _], ?_, rfl⟩
  simp [RegOp.words, chanWords]

/-- The channels of a list restart at an instant. -/
def restartTab (at_ : Nat) (ms : List Nat) (t : Tab MeasCh) : Tab MeasCh := ms.foldl (fun t m => tmod t m fun c => c.restart at_) t

theorem tget_restartTab (at_ k : Nat) (ms : List Nat) (t : Tab MeasCh) :
    tget (restartTab at_ ms t) k = if k ∈ ms then (tget t k).restart at_ else tget t k := by
  induction ms generalizing t with
  | nil => simp [restartTab]
  | cons m ms ih =>
    show tget (restartTab at_ ms (tmod t m fun c => c.restart at_)) k = _
    rw [ih]
    by_cases hkm : k = m
    · subst hkm
      simp [MeasCh.restart]
    · simp [tget_tmod_ne t (Ne.symm hkm), hkm]

def restarted (s : State) (at_ : Nat) (ms : List Nat) : State := s.modMeas fun x => { x with ch := restartTab at_ ms x.ch }

theorem foldl_restart_eq (at_ : Nat) (ms : List Nat) (s : State) : ∃ l, l.flatMap RegOp.words ⊆ ms.flatMap chanWords ∧
    ms.foldl (fun s m => (s.modMc m fun c => c.restart at_).measShow m) s = regOps (restarted s at_ ms) l := by
  induction ms generalizing s with
  | nil => exact ⟨[], List.Subset.refl _, rfl⟩
  | cons m ms ih =>
    obtain ⟨l, hl, hshow⟩ := measShow_eq (s.modMc m fun c => c.restart at_) m
    obtain ⟨l', hl', hrest⟩ := ih (regOps (s.modMc m fun c => c.restart at_) l)
    refine ⟨l ++ l', ?_, ?_⟩
    · rw [List.flatMap_append, List.flatMap_cons]
      exact List.append_subset.mpr ⟨List.subset_append_of_subset_left _ hl, List.subset_append_of_subset_right _ hl'⟩
    · rw [List.foldl_cons, hshow, hrest, ← regOps_regOps]
      exact congrArg (regOps · l') (regOps_modMeas ..)

/-- What a SYNC writes beside what it shows of the channels. -/
def syncWrites (at_ src : Nat) : List RegOp :=
  [.pair Reg.MEAS_ANCHOR at_, .field Fld.MEAS_STATUS_ANCHOR_SRC src, .count Reg.MEAS_SYNCS 1, .bit Fld.MEAS_STATUS_SLIP false,
    .bit Fld.MEAS_STATUS_STACKMISS false]

/-- A SYNC was performed at `at_`, for a source. -/
def synced (s : State) (at_ src : Nat) (out : Option Nat) (l : List RegOp) : State :=
  offer (regOps ((restarted s at_ s.measOn).modMeas fun x => { x with lastSync := some at_, syncOutUntil := out })
      (l ++ syncWrites at_ src))
    0x08 ⟨0x09, 0x0701, 1, coll s, s.time.mt, p4 [src] ++ p8 [at_] ++ p4 [s.measOn.foldl (fun v m => v + 2 ^ m) 0]⟩

/-- A SYNC changes the registers, the chain and the event port, and nothing else. -/
theorem rest_synced (s : State) (at_ src : Nat) (out : Option Nat) (l : List RegOp) (r : List (Nat × Word)) (p : Resp) (m : MeasSt) :
    { synced s at_ src out l with regs := r, resp := p, meas := m, arc := { (synced s at_ src out l).arc with ports := s.arc.ports } } =
      { s with regs := r, resp := p, meas := m } := rfl

/-- The words that a SYNC may write. -/
def syncWords (s : State) : List Nat := s.measOn.flatMap chanWords ++ [Reg.MEAS_ANCHOR, Reg.MEAS_ANCHOR + 4, Reg.MEAS_STATUS,
  Reg.MEAS_SYNCS, Reg.MEAS_SYNCS + 4]

theorem measOn_lt {s : State} {m : Nat} (h : m ∈ s.measOn) : m < 16 := List.mem_range.mp (List.mem_filter.mp h).1

theorem notMem_chanWords {s : State} {a : Nat} (ha : a < 0x80100 ∨ 0x80240 ≤ a) : a ∉ s.measOn.flatMap chanWords := by
  intro hmem
  obtain ⟨m, hm, hword⟩ := List.mem_flatMap.mp hmem
  have hlt := measOn_lt hm
  simp only [chanWords, Reg.MEAS_CHSTAT, Reg.MEAS_DCEST, List.mem_cons, List.not_mem_nil, or_false] at hword
  omega

theorem words_sync_subset {s : State} {l : List RegOp} (hl : l.flatMap RegOp.words ⊆ s.measOn.flatMap chanWords) (at_ src : Nat) :
    (l ++ syncWrites at_ src).flatMap RegOp.words ⊆ syncWords s := by
  rw [List.flatMap_append, syncWords]
  exact List.append_subset.mpr ⟨List.subset_append_of_subset_left _ hl,
    List.subset_append_of_subset_right _ (by simp [syncWrites, RegOp.words])⟩

theorem notMem_syncWords {s : State} {a : Nat} (ha : a < 0x80100 ∨ 0x80240 ≤ a)
    (hout : a ∉ [Reg.MEAS_ANCHOR, Reg.MEAS_ANCHOR + 4, Reg.MEAS_STATUS, Reg.MEAS_SYNCS, Reg.MEAS_SYNCS + 4]) :
    a ∉ syncWords s := fun h => (List.mem_append.mp h).elim (notMem_chanWords ha) hout

/-- Every word that a SYNC writes lies in block MEAS. -/
theorem block_of_mem_syncWords {s : State} {a : Nat} (h : a ∈ syncWords s) : a / 65536 = 8 := by
  by_contra hne
  exact notMem_syncWords (by omega) (fun hmem => hne (by simp [Reg.MEAS_ANCHOR, Reg.MEAS_STATUS, Reg.MEAS_SYNCS] at hmem; omega)) h

theorem syncPerform_eq {s : State} (hroom : PortRoom s 0x08) (at_ src : Nat) : ∃ l out,
    l.flatMap RegOp.words ⊆ s.measOn.flatMap chanWords ∧ s.syncPerform at_ src = synced s at_ src out l := by
  obtain ⟨l, hl, hrestart⟩ := foldl_restart_eq at_ s.measOn s
  let u := regOps (regOps (restarted s at_ s.measOn) l) (syncWrites at_ src)
  let out := if u.bit Fld.MEAS_SYNCCTL_SYNCOUT_EN then some (u.time.clock + 1000) else u.meas.syncOutUntil
  refine ⟨l, out, hl, ?_⟩
  have hu : u = regOps (restarted s at_ s.measOn) (l ++ syncWrites at_ src) := regOps_regOps ..
  have hcoll : coll u = coll s := coll_of_regsKept
    (regsKept_of_regs ((congrArg State.regs hu).trans (regs_regOps_of (s := s) (u := restarted s at_ s.measOn) rfl _)) (words_sync_subset hl at_ src))
    (notMem_syncWords (by decide) (by decide))
  have hevent := measEvent_of_room (s := u.modMeas fun x => { x with lastSync := some at_, syncOutUntil := out }) hroom 0x0701 1
    (p4 [src] ++ p8 [at_] ++ p4 [s.measOn.foldl (fun v m => v + 2 ^ m) 0])
  unfold State.syncPerform
  simp only [hrestart]
  refine hevent.trans ?_
  rw [synced, ← hcoll, ← regOps_modMeas, ← hu]
  rfl

/-- The one request that waits has come, and is performed. -/
theorem syncDue_of_one {s : State} {at_ src : Nat} (hmember : s.measMember = false) (harmed : s.meas.armed = none)
    (hsyncs : s.meas.syncs = [(at_, src)]) (hdue : at_ ≤ s.time.mt)
    (hlast : (s.meas.lastSync.all fun t => decide (t + 122 < at_)) = true) :
    s.syncDue.1 = (s.modMeas fun x => { x with syncs := [], armed := none }).syncPerform at_ src := by
  have hpast : ¬ s.time.mt < at_ := Nat.not_lt_of_le hdue
  have htaken : (s.modMeas fun x => { x with syncs := x.syncs.filter fun y => !decide (y = (at_, src)) }) =
      s.modMeas fun x => { x with syncs := [], armed := none } := by
    simp [State.modMeas, hsyncs, harmed]
  have hmeas (f : MeasSt → MeasSt) : (s.modMeas f).meas = f s.meas := rfl
  unfold State.syncDue
  cases hlastSync : s.meas.lastSync with
  | none =>
    simp [harmed, hsyncs, hdue, hmember, State.syncGroup, hpast, hmeas, hlastSync]
    exact congrArg (fun u : State => u.syncPerform at_ src) htaken
  | some t =>
    have hlate : ¬ at_ ≤ t + 122 := by simpa [hlastSync] using hlast
    simp [harmed, hsyncs, hdue, hmember, State.syncGroup, hpast, hmeas, hlastSync, hlate]
    exact congrArg (fun u : State => u.syncPerform at_ src) htaken

theorem exec_measSync {s : State} {dt at_ src : Nat} (hon : s.unitOff 0x08 0 = false) (hmember : s.measMember = false)
    (harmed : s.meas.armed = none) (hsyncs : s.meas.syncs = [(at_, src)]) (hdue : at_ ≤ (s.elapse dt).time.mt)
    (hlast : (s.meas.lastSync.all fun t => decide (t + 122 < at_)) = true) (hroom : PortRoom s 0x08) : ∃ l out,
    l.flatMap RegOp.words ⊆ s.measOn.flatMap chanWords ∧ exec (.measSync dt) s =
      .next (synced ((s.elapse dt).modMeas fun x => { x with syncs := [], armed := none }) at_ src out l) := by
  obtain ⟨l, out, hl, hperform⟩ :=
    syncPerform_eq (s := (s.elapse dt).modMeas fun x => { x with syncs := [], armed := none }) hroom at_ src
  refine ⟨l, out, hl, congrArg Host.Outcome.next ?_⟩
  rw [← hperform, ← syncDue_of_one (s := s.elapse dt) hmember harmed hsyncs hdue hlast]
  exact if_neg (by rw [show (s.elapse dt).unitOff 0x08 0 = false from hon]; decide)

theorem measSync_performed {s : State} {dt at_ src : Nat} (hw : s.regsWf = true) (hon : s.unitOff 0x08 0 = false)
    (hmember : s.measMember = false) (harmed : s.meas.armed = none) (hsyncs : s.meas.syncs = [(at_, src)])
    (hdue : at_ ≤ (s.elapse dt).time.mt) (hlast : (s.meas.lastSync.all fun t => decide (t + 122 < at_)) = true)
    (hroom : PortRoom s 0x08) :
    ∃ t, exec (.measSync dt) s = .next t ∧
      t.rd64 Reg.MEAS_ANCHOR = at_ % 18446744073709551616 ∧
      t.getF Fld.MEAS_STATUS_ANCHOR_SRC = src % 8 ∧
      Counted Reg.MEAS_SYNCS 1 s t ∧
      t.bit Fld.MEAS_STATUS_SLIP = false ∧
      t.bit Fld.MEAS_STATUS_STACKMISS = false ∧
      t.meas.lastSync = some at_ ∧
      t.meas.syncs = [] ∧
      (∀ m, m < 16 → t.measCh m = if (s.measCh m).en then (s.measCh m).restart at_ else s.measCh m) ∧
      Offered 0x08 0x0701 1 (coll s) (p4 [src] ++ p8 [at_] ++ p4 [s.measOn.foldl (fun v m => v + 2 ^ m) 0]) s t ∧
      LeavesOut dt [8] s t { t with meas := s.meas, arc := { t.arc with ports := s.arc.ports } } := by
  obtain ⟨l, out, hl, hexec⟩ := exec_measSync hon hmember harmed hsyncs hdue hlast hroom
  set u := (s.elapse dt).modMeas fun x => { x with syncs := [], armed := none } with hudef
  have hall : (synced u at_ src out l).regs = (runAll s (l ++ syncWrites at_ src)).regs :=
    regs_regOps_of (s := s) (u := (restarted u at_ u.measOn).modMeas _) rfl _
  have hr : (synced u at_ src out l).regs = (runAll (regOps s l) (syncWrites at_ src)).regs := by
    rw [hall, ← regs_regOps, ← regOps_regOps]
    rfl
  have hv : (regOps s l).regsWf = true := runAll_regsWf hw l
  have hkept : RegsKept (syncWords s) s (synced u at_ src out l) := regsKept_of_regs hall (words_sync_subset hl at_ src)
  refine ⟨_, hexec, ?_, ?_, ?_, ?_, ?_, rfl, rfl, ?_, offered_of_ports rfl,
    fun a ha => hkept a fun hmem => ha (by simp [block_of_mem_syncWords hmem]), fun _ => rfl, rest_synced u ..⟩
  · simp (disch := decide) [rd64_of_regs hv hr, syncWrites, RegOp.see]
  · simp (disch := decide) [getF_of_regs hv hr, syncWrites, RegOp.see]
  · have hbefore : (regOps s l).rd64 Reg.MEAS_SYNCS = s.rd64 Reg.MEAS_SYNCS :=
      rd64_of_regsKept (regsKept_of_regs (regs_regOps s l) hl) (notMem_chanWords (by decide)) (notMem_chanWords (by decide))
    simp (disch := decide) [Counted, rd64_of_regs hv hr, syncWrites, RegOp.see, hbefore]
  · simp (disch := decide) [bit_of_regs hv hr, syncWrites, RegOp.see]
  · simp (disch := decide) [bit_of_regs hv hr, syncWrites, RegOp.see]
  · intro m hm
    refine (tget_restartTab at_ m s.measOn s.meas.ch).trans ?_
    by_cases hen : (tget s.meas.ch m).en = true <;> simp [State.measOn, hm, State.measCh, hen]

/-! ### The lock of the modulator clock (R306) -/

def lockLost (s : State) : State :=
  offer (regOps s [.bit Fld.MEAS_STATUS_PLL_LOCK false, .bit Fld.MEAS_STATUS_SLIP true, .count Reg.MEAS_PLLLOSS 1])
    0x08 ⟨0x09, 0x0703, 4, coll s, s.time.mt, []⟩

theorem exec_measPllLost {s : State} (dt : Nat) (hlock : s.bit Fld.MEAS_STATUS_PLL_LOCK = true) (hroom : PortRoom s 0x08) :
    exec (.measPllLost dt) s = .next (lockLost (s.elapse dt)) := by
  have hcoll : coll (regOps (s.elapse dt) [.bit Fld.MEAS_STATUS_PLL_LOCK false, .bit Fld.MEAS_STATUS_SLIP true,
      .count Reg.MEAS_PLLLOSS 1]) = coll (s.elapse dt) :=
    coll_of_regsKept (regsKept_of_regs rfl fun _ h => h) (by decide)
  refine congrArg Host.Outcome.next ((if_neg (by simp [hlock])).trans ((measEvent_of_room (by exact hroom) ..).trans ?_))
  rw [lockLost, ← hcoll]
  rfl

def lockRegained (s : State) : State :=
  offer (regOps (s.modMeas fun x => { x with wasLocked := true })
    [.bit Fld.MEAS_STATUS_PLL_LOCK true, .bit Fld.MEAS_STATUS_SLIP true]) 0x08 ⟨0x09, 0x0704, 2, coll s, s.time.mt, []⟩

theorem exec_measPllLocked {s : State} (dt : Nat) (hlock : s.bit Fld.MEAS_STATUS_PLL_LOCK = false)
    (hwas : s.meas.wasLocked = true) (hroom : PortRoom s 0x08) :
    exec (.measPllLocked dt) s = .next (lockRegained (s.elapse dt)) := by
  have hcoll : coll (regOps (s.elapse dt) [.bit Fld.MEAS_STATUS_PLL_LOCK true, .bit Fld.MEAS_STATUS_SLIP true]) =
      coll (s.elapse dt) := coll_of_regsKept (regsKept_of_regs rfl fun _ h => h) (by decide)
  refine congrArg Host.Outcome.next ((if_neg (by simp [hlock])).trans ((if_pos hwas).trans
    ((measEvent_of_room (by exact hroom) ..).trans ?_)))
  rw [lockRegained, ← hcoll]
  rfl

/-- Settles O44: each command leads to the state of its lemma; a SYNC restarts the enabled channels one by one, and every word
that it writes lies in block MEAS. -/
theorem measSync : Obligations.MeasSync := by
  intro s dt hs
  have hw : s.regsWf = true := (Bool.and_eq_true_iff.mp hs).1
  have hu : (s.elapse dt).regsWf = true := hw
  refine ⟨?pin, ?pinClose, ?now, ?disarm, ?sync, ?lost, ?locked⟩
  case pin =>
    intro rising width hon hpin hedge hwidth hlast hmember hmaster
    have hfar : (match s.meas.lastPin with
        | some t => decide ((s.elapse dt).time.clock < t + 10000)
        | none => false) = false := by
      cases h : s.meas.lastPin with
      | none => rfl
      | some t => simpa [h] using hlast
    refine ⟨_, exec_syncInEdge hon hpin hedge hwidth hfar, ?_⟩
    rw [if_neg Bool.false_ne_true, syncRequest_of_alone (s := pinSeen (s.elapse dt)) hmember hmaster]
    exact ⟨rfl, rfl, fun _ _ => rfl, fun _ => rfl, rfl⟩
  case pinClose =>
    intro rising width t0 hon hpin hedge hwidth hlast hclose
    have hnear : (match s.meas.lastPin with
        | some t => decide ((s.elapse dt).time.clock < t + 10000)
        | none => false) = true := by
      simp [hlast, hclose]
    have hr : (pinSeen (s.elapse dt)).syncIgnored.regs = (runAll (s.elapse dt) [.count Reg.MEAS_SYNCIGN 1]).regs := rfl
    refine ⟨_, exec_syncInEdge hon hpin hedge hwidth hnear, ?_⟩
    rw [if_pos rfl]
    refine ⟨rfl, ?_, regsKept_of_regs (s := s.elapse dt) hr (by simp [RegOp.words]), fun _ => rfl, rfl⟩
    simp [Counted, rd64_of_regs hu hr, RegOp.see]
  case now =>
    intro req hlets hmember hmaster
    have hexec : exec (.measSyncNow dt req 0xC3) s = _ :=
      congrArg Host.Outcome.next (regCmd_of_lets (lets_elapse hlets dt) fun s => s.syncRequest 2)
    rw [syncRequest_of_alone (s := s.elapse dt) hmember hmaster] at hexec
    exact ⟨_, hexec, rfl, rfl, fun _ _ => rfl, fun _ => rfl, rfl⟩
  case disarm =>
    intro req hlets
    have hexec : exec (.measSyncDisarm dt req 0xC3) s = _ :=
      congrArg Host.Outcome.next (regCmd_of_lets (lets_elapse hlets dt) fun s =>
        (s.modMeas fun x => { x with armed := none }).setB Fld.MEAS_STATUS_SYNCPEND false)
    refine ⟨_, hexec, rfl, rfl, ?_, regsKept_of_regs (s := s.elapse dt) (l := [.bit Fld.MEAS_STATUS_SYNCPEND false]) rfl
      (by simp [RegOp.words]), fun _ => rfl, rfl⟩
    exact bit_setB_self (s := (s.elapse dt).modMeas fun x => { x with armed := none }) (by decide) rfl false hu
  case sync =>
    intro at_ src hon hmember harmed hsyncs hdue hsrc hlast hroom
    exact measSync_performed hw hon hmember harmed hsyncs hdue hlast hroom
  case lost =>
    intro hlock hroom
    have hr : (lockLost (s.elapse dt)).regs = (runAll (s.elapse dt) [.bit Fld.MEAS_STATUS_PLL_LOCK false,
      .bit Fld.MEAS_STATUS_SLIP true, .count Reg.MEAS_PLLLOSS 1]).regs := rfl
    refine ⟨_, exec_measPllLost dt hlock hroom, ?_, ?_, ?_, offered_of_ports rfl,
      regsKept_of_regs (s := s.elapse dt) hr (by simp [RegOp.words]), fun _ => rfl, rfl⟩
    · simp (disch := decide) [bit_of_regs hu hr, RegOp.see]
    · simp (disch := decide) [bit_of_regs hu hr, RegOp.see]
    · simp (disch := decide) [Counted, rd64_of_regs hu hr, RegOp.see]
  case locked =>
    intro hlock hwas hroom
    have hr : (lockRegained (s.elapse dt)).regs = (runAll (s.elapse dt) [.bit Fld.MEAS_STATUS_PLL_LOCK true,
      .bit Fld.MEAS_STATUS_SLIP true]).regs := rfl
    refine ⟨_, exec_measPllLocked dt hlock hwas hroom, ?_, ?_, offered_of_ports rfl,
      regsKept_of_regs (s := s.elapse dt) hr (by simp [RegOp.words]), fun _ => rfl, ?_⟩
    · simp (disch := decide) [bit_of_regs hu hr, RegOp.see]
    · simp (disch := decide) [bit_of_regs hu hr, RegOp.see]
    · have hsame : { s.meas with wasLocked := true } = s.meas := by rw [← hwas]
      exact congrArg (fun x => { s.elapse dt with meas := x }) hsame

end Sys2Proof.Proofs.SyncRequests

/-! The self-test engine on demand: requests, refusals, and the end of a test of a Loupe unit (R513 to R519, R537). -/

namespace Sys2Proof.Proofs.SelfTest

open Sys2Proof Sys2Proof.Machine Sys2Proof.Laws Sys2Proof.Proofs.Time Sys2Proof.Proofs.Measurement Sys2Proof.Proofs.Power
open Sys2Proof.Proofs.RegOps

/-! ### Requests (R513, R515, R516) -/

theorem exec_steReqWrite {s : State} {req : Requester} (h : Lets s req Reg.STE_REQ) (dt : Nat) (blk : BitVec 8) (unit : Fin 16) :
    exec (.steReqWrite dt req 0x5E blk unit) s = .next (((s.elapse dt).steRequest blk.toNat unit.val).respond 0 0) :=
  congrArg Host.Outcome.next (regCmd_of_lets (lets_elapse h dt) fun s => s.steRequest blk.toNat unit.val)

def requestWrites (blk unit code : Nat) : List RegOp :=
  [.field Fld.STE_RESULT_BLOCK blk, .field Fld.STE_RESULT_UNIT unit, .field Fld.STE_RESULT_CODE code]

def startWrites (blk unit : Nat) : List RegOp :=
  requestWrites blk unit 1 ++
    [.field Fld.STE_STATUS_BLOCK blk, .field Fld.STE_STATUS_UNIT unit, .field Fld.STE_STATUS_STATE 2]

/-- A Loupe unit in which no unit of data is under way has nothing to finish before its test. -/
theorem fence_idle_loupe {s : State} {unit : Nat} (h : (tget s.lpeUnits unit).passed = []) : s.fence 0x10 unit = s := by
  show s.lpeDrain unit = s
  rw [State.lpeDrain, h, List.foldl_nil]

theorem steRequest_accepted {s : State} {unit : Nat} (hcode : s.steRefusal 0x10 unit = 0)
    (hidle : (tget s.lpeUnits unit).passed = []) : s.steRequest 0x10 unit = written s (startWrites 0x10 unit) := by
  have hfence := fence_idle_loupe (s := regOps s (requestWrites 0x10 unit 1)) hidle
  refine (if_pos hcode).trans ?_
  rw [← regOps_eq_written, startWrites, ← regOps_regOps]
  exact congrArg (fun u : State =>
    ((u.setF Fld.STE_STATUS_BLOCK 0x10).setF Fld.STE_STATUS_UNIT unit).setF Fld.STE_STATUS_STATE 2) hfence

/-- A refused request shows its code, is counted and written as an event. -/
def refused (s : State) (blk unit code : Nat) : State :=
  offer (written s (requestWrites blk unit code ++ [.count Reg.STE_REFUSED 1])) 0x14
    ⟨0x15, 0x1503, 2, 60, s.time.mt, p4 [blk, unit, code]⟩

theorem steRequest_refused {s : State} {blk unit : Nat} (hcode : s.steRefusal blk unit ≠ 0) (hroom : PortRoom s 0x14) :
    s.steRequest blk unit = refused s blk unit (s.steRefusal blk unit) := by
  unfold State.steRequest
  rw [if_neg hcode, refused, ← regOps_eq_written]
  exact emit_eq_offer (by exact hroom) ..

theorem steRefusal_lt (s : State) (blk unit : Nat) : s.steRefusal blk unit < 16 := by
  simp only [State.steRefusal]
  split_ifs <;> omega

/-! ### The end of a test (R516, R518, R519, R537) -/

/-- The Provenance record of a test of Loupe unit `unit`. -/
def testRecord (mt unit : Nat) : PrvRec :=
  { mt, kind := 18, port := 0xFE, session := 0, user := 0, reservedOk := true
    object := State.objectBytes 18 (0x10 * 16 + unit), oldHash := 0, newHash := 0 }

/-- A module record joins the port queue of the Provenance log. -/
def recorded (s : State) (r : PrvRec) : State := { s with prv := { s.prv with port := s.prv.port ++ [r] } }

theorem written_recorded (s : State) (r : PrvRec) (l : List RegOp) : written (recorded s r) l = recorded (written s l) r :=
  written_of_regs (s := s) (u := recorded s r) rfl l

theorem prvOffer_of_room {s : State} (h : s.prv.port.length < 64) (r : PrvRec) :
    s.prvOffer r = recorded (written s [.count Reg.PRV_OFFERED 1]) r := by
  rw [← regOps_eq_written]
  exact if_pos h

def endWrites (unit sig : Nat) (passed : Bool) : List RegOp :=
  [.field Fld.STE_RESULT_BLOCK 0x10, .field Fld.STE_RESULT_UNIT unit, .field Fld.STE_RESULT_CODE (if passed then 2 else 3),
    .pair Reg.STE_SIG sig, .count Reg.STE_TESTS 1] ++ if passed then [] else [.count Reg.STE_FAILS 1]

/-- The event of a test of Loupe unit `unit` that has ended. -/
def testEvent (mt unit sig : Nat) (passed : Bool) : Occurrence :=
  ⟨0x15, 0x1502, if passed then 1 else 4, 60, mt, p4 [0x10, unit] ++ p8 [sig]⟩

/-- A test of Loupe unit `unit` has ended: its result, event and record. -/
def ended (s : State) (unit sig : Nat) (passed : Bool) : State :=
  recorded (offer (written s (endWrites unit sig passed ++ [.count Reg.PRV_OFFERED 1, .word Reg.STE_STATUS 0])) 0x14
    (testEvent s.time.mt unit sig passed)) (testRecord s.time.mt unit)

theorem ended_eq {s : State} (hroom : PortRoom s 0x14) (hprv : s.prv.port.length < 64) (unit sig : Nat) (passed : Bool) :
    ((((runAll s (endWrites unit sig passed)).emit 0x14 0x1502 (if passed then 1 else 4) 60 (p4 [0x10, unit] ++ p8 [sig])).prvModule 18
      (State.objectBytes 18 (0x10 * 16 + unit)) 0 0).wr Reg.STE_STATUS 0) = ended s unit sig passed := by
  rw [runAll_eq_written, emit_eq_offer (s := written s (endWrites unit sig passed)) hroom]
  have hrecord := prvOffer_of_room (s := offer (written s (endWrites unit sig passed)) 0x14 (testEvent s.time.mt unit sig passed)) hprv
    (testRecord s.time.mt unit)
  refine (congrArg (fun u : State => u.wr Reg.STE_STATUS 0) hrecord).trans ?_
  have hword (u : State) : u.wr Reg.STE_STATUS 0 = written u [.word Reg.STE_STATUS 0] := runAll_eq_written u [.word Reg.STE_STATUS 0]
  rw [hword, written_recorded, written_offer, written_offer, written_written, written_written]
  rfl

/-- What the end of a test leaves beside its registers, its event and its record. -/
theorem rest_ended (u : State) (unit sig : Nat) (passed : Bool) :
    { ended u unit sig passed with
      regs := u.regs, resp := u.resp, prv := { (ended u unit sig passed).prv with port := u.prv.port }
      arc := { (ended u unit sig passed).arc with ports := u.arc.ports } } = u := rfl

theorem offered_ended (u : State) (unit sig : Nat) (passed : Bool) :
    Offered 0x14 0x1502 (if passed then 1 else 4) 60 (p4 [0x10, unit] ++ p8 [sig]) u (ended u unit sig passed) := offered_of_ports rfl

theorem kind_ended (u : State) (unit sig : Nat) (passed : Bool) :
    ((ended u unit sig passed).prv.port.getLast?.map fun r => r.kind) = some 18 := by
  simp [ended, recorded, testRecord]

theorem deferred_ended (u : State) (unit sig : Nat) (passed : Bool) :
    (ended u unit sig passed).deferred = u.deferred := rfl

/-- The doorbells that waited for the end of the test act. -/
def finishTest (u : State) : State := u.deferred.foldl (fun s d => s.actDeferred d) { u with deferred := [] }

theorem finishTest_of_none {u : State} (h : u.deferred = []) : finishTest u = u := by
  rw [finishTest, h, List.foldl_nil, ← h]

/-- What remains of the end of a test is that the unit runs again, or is held disabled. -/
theorem steEnd_eq {s : State} (hblk : s.getF Fld.STE_STATUS_BLOCK = 0x10) (hroom : PortRoom s 0x14)
    (hprv : s.prv.port.length < 64) (sig : Nat) (passed : Bool) :
    s.steEnd passed sig = finishTest (
      let u := ended s (s.getF Fld.STE_STATUS_UNIT) sig passed
      if passed then u.unitRestore 0x10 (s.getF Fld.STE_STATUS_UNIT) else u.unitHold 0x10 (s.getF Fld.STE_STATUS_UNIT)) := by
  unfold State.steEnd
  rw [hblk, ← ended_eq hroom hprv]
  cases passed <;> rfl

/-- A Loupe unit that is disabled does not run after its test. -/
theorem unitRestore_loupe_disabled {s : State} {unit : Nat} (h : s.bit (Fld.LPE_CFG_EN unit) = false) :
    s.unitRestore 0x10 unit = s := by
  have hnone : State.catOfBlk 0x10 = none := by decide
  simp [State.unitRestore, hnone, h]

/-- What holding a Loupe unit writes. -/
def holdWrites (s : State) (unit : Nat) : List RegOp :=
  [.field (Fld.STE_FAILMAP_UNITS 0x10) (s.getF (Fld.STE_FAILMAP_UNITS 0x10) ||| 2 ^ unit), .bit (Fld.LPE_CFG_EN unit) false]

/-- A Loupe unit is held disabled: its failure stays shown, and it keeps nothing (R518). -/
def loupeHeld (s : State) (unit : Nat) : State :=
  { written s (holdWrites s unit) with lpe := tset s.lpe unit none, lpeUnits := tset s.lpeUnits unit {} }

/-- What holding a unit leaves beside its registers. -/
theorem rest_loupeHeld (u : State) (unit : Nat) :
    { loupeHeld u unit with regs := u.regs, lpe := u.lpe, lpeUnits := u.lpeUnits } = u := rfl

theorem deferred_loupeHeld (u : State) (unit : Nat) : (loupeHeld u unit).deferred = u.deferred := rfl

theorem prv_loupeHeld (u : State) (unit : Nat) : (loupeHeld u unit).prv = u.prv := rfl

theorem offered_loupeHeld {s u : State} {blk code sev coll : Nat} {payload : List Byte} (h : Offered blk code sev coll payload s u)
    (unit : Nat) : Offered blk code sev coll payload s (loupeHeld u unit) := h

theorem regs_loupeHeld (u : State) (unit : Nat) : (loupeHeld u unit).regs = (runAll u (holdWrites u unit)).regs := regFile_eq ..

theorem words_holdWrites (s : State) (unit : Nat) :
    (holdWrites s unit).flatMap RegOp.words ⊆ [Reg.STE_FAILMAP 0x10, Reg.LPE_CFG unit] := by
  simp [holdWrites, RegOp.words]

theorem unitHold_loupe (s : State) (unit : Nat) : s.unitHold 0x10 unit = loupeHeld s unit := by
  rw [loupeHeld, ← regOps_eq_written]
  rfl

section
variable {s : State} {dt unit : Nat} {sig : BitVec 64}

theorem exec_steTest_passed (hrunning : s.getF Fld.STE_STATUS_STATE ≠ 0) (hblk : s.getF Fld.STE_STATUS_BLOCK = 0x10)
    (hdeferred : s.deferred = []) (hroom : PortRoom s 0x14) (hprv : s.prv.port.length < 64)
    (hunit : s.getF Fld.STE_STATUS_UNIT = unit)
    (hoff : (ended (s.elapse dt) unit sig.toNat true).bit (Fld.LPE_CFG_EN unit) = false) :
    exec (.steTest dt true sig) s = .next (ended (s.elapse dt) unit sig.toNat true) := by
  have hexec : exec (.steTest dt true sig) s = .next ((s.elapse dt).steEnd true sig.toNat) :=
    congrArg Host.Outcome.next (if_neg hrunning)
  rwa [steEnd_eq (s := s.elapse dt) hblk hroom hprv, getF_elapse, hunit, if_pos rfl, unitRestore_loupe_disabled hoff,
    finishTest_of_none ((deferred_ended (s.elapse dt) ..).trans hdeferred)] at hexec

theorem exec_steTest_failed (hrunning : s.getF Fld.STE_STATUS_STATE ≠ 0) (hblk : s.getF Fld.STE_STATUS_BLOCK = 0x10)
    (hdeferred : s.deferred = []) (hroom : PortRoom s 0x14) (hprv : s.prv.port.length < 64)
    (hunit : s.getF Fld.STE_STATUS_UNIT = unit) :
    exec (.steTest dt false sig) s = .next (loupeHeld (ended (s.elapse dt) unit sig.toNat false) unit) := by
  have hexec : exec (.steTest dt false sig) s = .next ((s.elapse dt).steEnd false sig.toNat) :=
    congrArg Host.Outcome.next (if_neg hrunning)
  rwa [steEnd_eq (s := s.elapse dt) hblk hroom hprv, getF_elapse, hunit, if_neg Bool.false_ne_true, unitHold_loupe,
    finishTest_of_none ((deferred_loupeHeld ..).trans ((deferred_ended (s.elapse dt) ..).trans hdeferred))] at hexec

end

section
variable {s u : State} {unit : Nat} {sig : BitVec 64} {passed : Bool}

/-- What the end of a test writes. -/
def allWrites (unit sig : Nat) (passed : Bool) : List RegOp :=
  endWrites unit sig passed ++ [.count Reg.PRV_OFFERED 1, .word Reg.STE_STATUS 0]

theorem regs_ended (s : State) (unit sig : Nat) (passed : Bool) :
    (ended s unit sig passed).regs = (runAll s (allWrites unit sig passed)).regs := regFile_eq ..

/-- What the end of a test shows. -/
theorem shown_ended (h : s.regsWf = true) (hlt : unit < 16) :
    (ended s unit sig.toNat passed).getF Fld.STE_RESULT_CODE = (if passed then 2 else 3) ∧
      (ended s unit sig.toNat passed).getF Fld.STE_RESULT_BLOCK = 0x10 ∧
      (ended s unit sig.toNat passed).getF Fld.STE_RESULT_UNIT = unit ∧
      (ended s unit sig.toNat passed).rd64 Reg.STE_SIG = sig.toNat ∧
      Counted Reg.STE_TESTS 1 s (ended s unit sig.toNat passed) ∧
      (ended s unit sig.toNat passed).rd Reg.STE_STATUS = 0 ∧
      Counted Reg.PRV_OFFERED 1 s (ended s unit sig.toNat passed) ∧
      Counted Reg.STE_FAILS (if passed then 0 else 1) s (ended s unit sig.toNat passed) := by
  have hsig := sig.isLt
  have hr := regs_ended s unit sig.toNat passed
  simp only [Counted, getF_of_regs h hr, rd64_of_regs h hr, rd_of_regs h hr]
  cases passed <;> simp (disch := decide) [allWrites, endWrites, RegOp.see] <;> omega

theorem words_allWrites (unit sig : Nat) (passed : Bool) : (allWrites unit sig passed).flatMap RegOp.words ⊆
    (if passed then [] else two Reg.STE_FAILS) ++ [Reg.STE_RESULT, Reg.STE_STATUS] ++ two Reg.STE_SIG ++ two Reg.STE_TESTS ++
      two Reg.PRV_OFFERED := by
  cases passed <;> simp [allWrites, endWrites, RegOp.words]

end

/-- The words that a failed test of a Loupe unit writes. -/
def failWords (unit : Nat) : List Nat :=
  [Reg.STE_FAILMAP 0x10, Reg.LPE_CFG unit] ++ two Reg.STE_FAILS ++ [Reg.STE_RESULT, Reg.STE_STATUS] ++ two Reg.STE_SIG ++
    two Reg.STE_TESTS ++ two Reg.PRV_OFFERED

section
variable {s : State} {unit : Nat} {sig : BitVec 64}

theorem regsKept_failed (s : State) (unit sig : Nat) :
    RegsKept (failWords unit) s (loupeHeld (ended s unit sig false) unit) :=
  regsKept_mono (regsKept_trans (regsKept_of_regs (regs_ended ..) (words_allWrites ..))
    (regsKept_of_regs (regs_loupeHeld ..) (words_holdWrites ..))) (by simp [failWords])

/-- Holding the unit leaves what the end of its test shows. -/
theorem shown_failed (h : s.regsWf = true) (hlt : unit < 8) :
    (loupeHeld (ended s unit sig.toNat false) unit).getF Fld.STE_RESULT_CODE = 3 ∧
      (loupeHeld (ended s unit sig.toNat false) unit).getF Fld.STE_RESULT_BLOCK = 0x10 ∧
      (loupeHeld (ended s unit sig.toNat false) unit).getF Fld.STE_RESULT_UNIT = unit ∧
      (loupeHeld (ended s unit sig.toNat false) unit).rd64 Reg.STE_SIG = sig.toNat ∧
      Counted Reg.STE_TESTS 1 s (loupeHeld (ended s unit sig.toNat false) unit) ∧
      (loupeHeld (ended s unit sig.toNat false) unit).rd Reg.STE_STATUS = 0 ∧
      Counted Reg.PRV_OFFERED 1 s (loupeHeld (ended s unit sig.toNat false) unit) ∧
      Counted Reg.STE_FAILS 1 s (loupeHeld (ended s unit sig.toNat false) unit) := by
  obtain ⟨hcode, hblock, hunit, hsig, htests, hstatus, hprov, hfails⟩ :=
    shown_ended (sig := sig) (passed := false) h (Nat.lt_of_lt_of_le hlt (by decide))
  have hkept := regsKept_of_regs (regs_loupeHeld (ended s unit sig.toNat false) unit) (words_holdWrites ..)
  refine ⟨?_, ?_, ?_, ?_, ?_, ?_, ?_, ?_⟩
  · exact (getF_of_regsKept hkept (f := Fld.STE_RESULT_CODE) (by decide) (by simp; grind)).trans hcode
  · exact (getF_of_regsKept hkept (f := Fld.STE_RESULT_BLOCK) (by decide) (by simp; grind)).trans hblock
  · exact (getF_of_regsKept hkept (f := Fld.STE_RESULT_UNIT) (by decide) (by simp; grind)).trans hunit
  · exact (rd64_of_regsKept hkept (by simp; grind) (by simp; grind)).trans hsig
  · exact (rd64_of_regsKept hkept (by simp; grind) (by simp; grind)).trans htests
  · exact (congrArg BitVec.toNat (hkept Reg.STE_STATUS (by simp; grind))).trans hstatus
  · exact (rd64_of_regsKept hkept (by simp; grind) (by simp; grind)).trans hprov
  · exact (rd64_of_regsKept hkept (by simp; grind) (by simp; grind)).trans hfails

/-- The failure of the unit stays shown, and the unit is disabled. -/
theorem held_failed (h : s.regsWf = true) (hlt : unit < 8) :
    (loupeHeld (ended s unit sig.toNat false) unit).getF (Fld.STE_FAILMAP_UNITS 0x10) =
        s.getF (Fld.STE_FAILMAP_UNITS 0x10) ||| 2 ^ unit ∧
      (loupeHeld (ended s unit sig.toNat false) unit).bit (Fld.LPE_CFG_EN unit) = false := by
  have hr := regs_ended s unit sig.toNat false
  have hhold := regs_loupeHeld (ended s unit sig.toNat false) unit
  have hbefore := regsKept_of_regs hr (words_allWrites ..)
  constructor
  · rw [getF_of_regs (regsWf_of_regs h hr) hhold]
    simp (disch := grind) [holdWrites, RegOp.see]
    rw [getF_of_regsKept hbefore (f := Fld.STE_FAILMAP_UNITS 0x10) (by decide) (by decide)]
    exact Nat.mod_eq_of_lt
      (Nat.or_lt_two_pow (getF_lt ..) (Nat.pow_lt_pow_right (by decide) (Nat.lt_of_lt_of_le hlt (by decide))))
  · rw [bit_of_regs (regsWf_of_regs h hr) hhold]
    simp (disch := grind) [holdWrites, RegOp.see]

/-- What a failed test leaves beside its registers, its event, its record and the unit. -/
theorem rest_failed (u : State) (unit sig : Nat) :
    { loupeHeld (ended u unit sig false) unit with
      regs := u.regs, resp := u.resp, lpe := u.lpe, lpeUnits := u.lpeUnits
      prv := { (loupeHeld (ended u unit sig false) unit).prv with port := u.prv.port }
      arc := { (loupeHeld (ended u unit sig false) unit).arc with ports := u.arc.ports } } = u :=
  (congrArg (fun x : State => { x with
    regs := u.regs, resp := u.resp, prv := { x.prv with port := u.prv.port }, arc := { x.arc with ports := u.arc.ports } })
    (rest_loupeHeld (ended u unit sig false) unit)).trans (rest_ended u unit sig false)

end

/-- Settles O59: a request and the end of a test each lead to the state of their lemmas, whose register program gives what they write
and leave. -/
theorem selfTest : Obligations.SelfTest := by
  intro s dt hs
  have hw : s.regsWf = true := (Bool.and_eq_true_iff.mp hs).1
  have hu : (s.elapse dt).regsWf = true := hw
  refine ⟨?accepted, ?refused, ?passed, ?failed⟩
  case accepted =>
    intro req unit hlets hcode hidle
    have hexec := exec_steReqWrite hlets dt 0x10 unit
    rw [show (0x10 : BitVec 8).toNat = 0x10 from rfl, steRequest_accepted (s := s.elapse dt) hcode hidle] at hexec
    have hr : ((written (s.elapse dt) (startWrites 0x10 unit.val)).respond 0 0).regs =
        (runAll (s.elapse dt) (startWrites 0x10 unit.val)).regs := regFile_eq ..
    have hunit := unit.isLt
    refine ⟨_, hexec, rfl, ?_, ?_, ?_, ?_, ?_, ?_,
      regsKept_of_regs (s := s.elapse dt) hr (by simp [startWrites, requestWrites, RegOp.words]), fun _ => rfl, rfl⟩
    all_goals rw [getF_of_regs hu hr]
    all_goals simp (disch := decide) [startWrites, requestWrites, RegOp.see]
  case refused =>
    intro req blk unit hlets hcode hroom
    have hexec := exec_steReqWrite hlets dt blk unit
    rw [steRequest_refused (s := s.elapse dt) hcode hroom] at hexec
    change _ = Host.Outcome.next ((refused (s.elapse dt) blk.toNat unit.val (s.steRefusal blk.toNat unit.val)).respond 0 0) at hexec
    have hr : ((refused (s.elapse dt) blk.toNat unit.val (s.steRefusal blk.toNat unit.val)).respond 0 0).regs =
        (runAll (s.elapse dt) (requestWrites blk.toNat unit.val (s.steRefusal blk.toNat unit.val) ++
          [.count Reg.STE_REFUSED 1])).regs := regFile_eq ..
    have hunit := unit.isLt
    have hblk := blk.isLt
    have hlt := steRefusal_lt s blk.toNat unit.val
    refine ⟨_, hexec, rfl, ?_, ?_, ?_, ?_, offered_of_ports rfl,
      regsKept_of_regs (s := s.elapse dt) hr (by simp [requestWrites, RegOp.words]), fun _ => rfl, rfl⟩
    case refine_4 => simp (disch := decide) [Counted, rd64_of_regs hu hr, requestWrites, RegOp.see]
    all_goals simp (disch := decide) [getF_of_regs hu hr, requestWrites, RegOp.see]
    all_goals omega
  case passed =>
    intro sig hrunning hblk hdeferred hroom hprv hoff
    have hlt : s.getF Fld.STE_STATUS_UNIT < 16 := getF_lt s Fld.STE_STATUS_UNIT
    have hkept := regsKept_of_regs (regs_ended (s.elapse dt) (s.getF Fld.STE_STATUS_UNIT) sig.toNat true) (words_allWrites ..)
    have hoff' := (bit_of_regsKept hkept (f := Fld.LPE_CFG_EN (s.getF Fld.STE_STATUS_UNIT)) (Nat.le_refl 32)
      (by simp; grind)).trans hoff
    obtain ⟨hcode, hblock, hunit, hsig, htests, hstatus, hprov, -⟩ := shown_ended (sig := sig) (passed := true) hu hlt
    exact ⟨_, exec_steTest_passed hrunning hblk hdeferred hroom hprv rfl hoff', hcode, hblock, hunit, hsig, htests, hstatus, hprov,
      kind_ended .., offered_ended (s.elapse dt) .., hkept, fun _ => rfl, rest_ended (s.elapse dt) ..⟩
  case failed =>
    intro sig hrunning hblk hdeferred hroom hprv hlt
    obtain ⟨hcode, hblock, hunit, hsig, htests, hstatus, hprov, hfails⟩ := shown_failed (s := s.elapse dt) (sig := sig) hu hlt
    obtain ⟨hmap, hoff⟩ := held_failed (s := s.elapse dt) (sig := sig) hu hlt
    refine ⟨_, exec_steTest_failed hrunning hblk hdeferred hroom hprv rfl, hcode, hblock, hunit, hsig, htests, hstatus, hprov, ?_,
      offered_loupeHeld (offered_ended (s.elapse dt) ..) _, hfails, hmap, hoff, tget_tset_self ..,
      regsKept_failed (s.elapse dt) (s.getF Fld.STE_STATUS_UNIT) sig.toNat, fun _ => rfl, rest_failed (s.elapse dt) ..⟩
    rw [prv_loupeHeld]
    exact kind_ended ..

end Sys2Proof.Proofs.SelfTest

/-! Conservator mode: sessions, and the collection, check and write of an image (R529 to R535). -/

namespace Sys2Proof.Proofs.ConservatorMode

open Sys2Proof Sys2Proof.Machine Sys2Proof.Laws Sys2Proof.Proofs.Power Sys2Proof.Proofs.RegOps

/-! ### Copies in the program store (R523) -/

/-- A Docent copy erased before it is written. -/
def eraseDocent (l : LcsSt) (copy : Nat) : LcsSt := if copy = 0 then { l with docent0 := none } else { l with docent1 := none }

/-- A copy of the boot configuration erased before it is written. -/
def eraseBootCfg (l : LcsSt) (copy : Nat) : LcsSt := if copy = 0 then { l with bootCfg0 := none } else { l with bootCfg1 := none }

/-- An image as a Docent copy, which the next start takes. -/
def storeDocent (l : LcsSt) (copy : Nat) (img : Image) : LcsSt :=
  if copy = 0 then { l with storeOrder := l.storeOrder + 1, docent0 := some ⟨img, l.storeOrder + 1⟩, docentNext := 0 }
  else { l with storeOrder := l.storeOrder + 1, docent1 := some ⟨img, l.storeOrder + 1⟩, docentNext := 1 }

/-- An image as a copy of the boot configuration. -/
def storeBootCfg (l : LcsSt) (copy : Nat) (img : Image) : LcsSt :=
  if copy = 0 then { l with storeOrder := l.storeOrder + 1, bootCfg0 := some ⟨img, l.storeOrder + 1⟩ }
  else { l with storeOrder := l.storeOrder + 1, bootCfg1 := some ⟨img, l.storeOrder + 1⟩ }

theorem eraseCopy_docent (s : State) (copy : Nat) : s.eraseCopy 2 copy = { s with lcs := eraseDocent s.lcs copy } := by
  cases copy <;> rfl

theorem eraseCopy_bootCfg (s : State) (copy : Nat) : s.eraseCopy 3 copy = { s with lcs := eraseBootCfg s.lcs copy } := by
  cases copy <;> rfl

theorem docentStored_eq (s : State) (copy : Nat) (img : Image) :
    s.docentStored copy img = { s with lcs := storeDocent s.lcs copy img } := rfl

theorem bootCfgStored_eq (s : State) (copy : Nat) (img : Image) :
    s.bootCfgStored copy img = { s with lcs := storeBootCfg s.lcs copy img } := rfl

section
variable (l : LcsSt) (copy : Nat) (img : Image)

theorem eraseDocent_erases : if copy = 0 then (eraseDocent l copy).docent0 = none ∧ (eraseDocent l copy).docent1 = l.docent1
    else (eraseDocent l copy).docent1 = none ∧ (eraseDocent l copy).docent0 = l.docent0 := by
  by_cases h : copy = 0 <;> simp [eraseDocent, h]

theorem eraseBootCfg_erases : if copy = 0 then (eraseBootCfg l copy).bootCfg0 = none ∧ (eraseBootCfg l copy).bootCfg1 = l.bootCfg1
    else (eraseBootCfg l copy).bootCfg1 = none ∧ (eraseBootCfg l copy).bootCfg0 = l.bootCfg0 := by
  by_cases h : copy = 0 <;> simp [eraseBootCfg, h]

theorem storeDocent_stores : if copy = 0 then (storeDocent l copy img).docent0 = some ⟨img, l.storeOrder + 1⟩ ∧
      (storeDocent l copy img).docentNext = 0 ∧ (storeDocent l copy img).docent1 = l.docent1
    else (storeDocent l copy img).docent1 = some ⟨img, l.storeOrder + 1⟩ ∧
      (storeDocent l copy img).docentNext = 1 ∧ (storeDocent l copy img).docent0 = l.docent0 := by
  by_cases h : copy = 0 <;> simp [storeDocent, h]

theorem storeBootCfg_stores : if copy = 0 then (storeBootCfg l copy img).bootCfg0 = some ⟨img, l.storeOrder + 1⟩ ∧
      (storeBootCfg l copy img).bootCfg1 = l.bootCfg1
    else (storeBootCfg l copy img).bootCfg1 = some ⟨img, l.storeOrder + 1⟩ ∧ (storeBootCfg l copy img).bootCfg0 = l.bootCfg0 := by
  by_cases h : copy = 0 <;> simp [storeBootCfg, h]

theorem storeDocent_keeps : (storeDocent l copy img).cvSummary = l.cvSummary ∧ (storeDocent l copy img).cvCause = l.cvCause := by
  by_cases h : copy = 0 <;> simp [storeDocent, h]

theorem storeBootCfg_keeps : (storeBootCfg l copy img).cvSummary = l.cvSummary ∧ (storeBootCfg l copy img).cvCause = l.cvCause := by
  by_cases h : copy = 0 <;> simp [storeBootCfg, h]

theorem eraseDocent_rest : { eraseDocent l copy with docent0 := l.docent0, docent1 := l.docent1 } = l := by
  by_cases h : copy = 0 <;> simp [eraseDocent, h]

theorem eraseBootCfg_rest : { eraseBootCfg l copy with bootCfg0 := l.bootCfg0, bootCfg1 := l.bootCfg1 } = l := by
  by_cases h : copy = 0 <;> simp [eraseBootCfg, h]

theorem storeDocent_rest : { storeDocent l copy img with
    storeOrder := l.storeOrder, docent0 := l.docent0, docent1 := l.docent1, docentNext := l.docentNext } = l := by
  by_cases h : copy = 0 <;> simp [storeDocent, h]

theorem storeBootCfg_rest : { storeBootCfg l copy img with
    storeOrder := l.storeOrder, bootCfg0 := l.bootCfg0, bootCfg1 := l.bootCfg1 } = l := by
  by_cases h : copy = 0 <;> simp [storeBootCfg, h]

end

/-! ### Requests (R531) -/

/-- A state with another state of Conservator mode. -/
def withCv (s : State) (c : CvSt) : State := { s with cv := c }

/-- A step of time and a new state of Conservator mode leave everything else. -/
theorem leaves_withCv (s : State) (dt : Nat) (c : CvSt) :
    Leaves dt [] s (withCv (s.elapse dt) c) { withCv (s.elapse dt) c with cv := s.cv } := ⟨fun _ _ => rfl, fun _ => rfl, rfl⟩

/-- The state of Conservator mode once a new request of the open session has been heard. -/
def heard (s : State) (q : CvReq) : CvSt := { s.cv with lastAt := s.time.clock, lastSeq := some q.seq }

section
variable {s : State} {source type : Nat} {msg : List Byte} {repeats : Bool} {f : CvReq → State → State} {q : CvReq}

/-- A new request of the open session acts. -/
theorem cvRequest_new (hphase : s.lcs.phase = .conservator) (hparse : cvParse msg = some q) (htype : q.type = type)
    (hsession : s.cv.session = some (q.session, source)) (hnew : ¬(repeats = true ∧ s.cv.lastSeq = some q.seq)) :
    s.cvRequest source msg type repeats f = f q (withCv s (heard s q)) := by
  unfold State.cvRequest
  rw [hparse]
  refine (if_neg (by simp [hphase, htype, hsession])).trans ?_
  change (match s.cv.lastResp with | some _ => _ | none => _) = _
  split
  · exact if_neg hnew
  · rfl

/-- A repeated request receives the same response again. -/
theorem cvRequest_repeated {r : CvResp} (hphase : s.lcs.phase = .conservator) (hparse : cvParse msg = some q)
    (htype : q.type = type) (hsession : s.cv.session = some (q.session, source)) (hseq : s.cv.lastSeq = some q.seq)
    (hresp : s.cv.lastResp = some r) :
    s.cvRequest source msg type true f =
      withCv s { s.cv with lastAt := s.time.clock, sent := some (source, cvMessage r) } := by
  unfold State.cvRequest
  rw [hparse]
  refine (if_neg (by simp [hphase, htype, hsession])).trans ?_
  change (match s.cv.lastResp with | some _ => _ | none => _) = _
  rw [hresp]
  exact if_pos ⟨rfl, hseq⟩

/-- A message that is no request, or of another session, is discarded. -/
theorem cvRequest_discarded (h : (cvParse msg).all (fun q => s.cv.session != some (q.session, source)) = true) :
    s.cvRequest source msg type repeats f = s := by
  unfold State.cvRequest
  cases hq : cvParse msg with
  | none => rfl
  | some q =>
    rw [hq] at h
    exact if_pos (.inr (.inr (bne_iff_ne.mp h)))

end

/-- An acknowledgement goes to the source of a request. -/
def acked (c : CvSt) (source : Nat) (q : CvReq) (status : Nat) : CvSt :=
  let r : CvResp := ⟨5, q.session, q.seq, c.expected, status, []⟩
  { c with lastResp := some r, sent := some (source, cvMessage r) }

theorem cvAnswer_ack {s : State} {source src : Nat} {q : CvReq} (hsession : s.cv.session = some (q.session, src))
    (hseq : s.cv.lastSeq = some q.seq) (status : Nat) :
    s.cvAnswer source 5 status [] = withCv s (acked s.cv source q status) := by
  simp only [State.cvAnswer, if_pos, hsession, hseq]
  rfl

/-! ### HELLO (R533) -/

/-- What stays of Conservator mode when its session closes. -/
def closed (c : CvSt) : CvSt :=
  if c.working = true then { c with session := none, lastSeq := none, lastResp := none }
  else { c with session := none, lastSeq := none, lastResp := none, kind := none, total := 0, expected := 0, data := [], result := none }

theorem cvClose_eq (s : State) : s.cvClose = withCv s (closed s.cv) := rfl

/-- The answer to a HELLO that opens a session. -/
def helloInfo (s : State) (q : CvReq) : CvResp :=
  ⟨2, 1 + (Config.cvSession s.freeCtr).toNat % 4294967295, q.seq, (Config.cvSession (s.freeCtr + 2)).toNat, 0, s.cvInfo⟩

/-- The state of Conservator mode once a session is open. -/
def opened (s : State) (source : Nat) (q : CvReq) : CvSt :=
  { closed s.cv with
    session := some (1 + (Config.cvSession s.freeCtr).toNat % 4294967295, source), lastAt := s.time.clock, lastSeq := some q.seq
    lastResp := some (helloInfo s q), sent := some (source, cvMessage (helloInfo s q)) }

theorem cvOpen_eq (s : State) (source : Nat) (q : CvReq) :
    s.cvOpen source q.seq = { withCv s (opened s source q) with freeCtr := s.freeCtr + 2 } := rfl

/-- The frame of a command that may also take free values. -/
theorem leaves_withCv_free (s : State) (dt : Nat) (c : CvSt) (n : Nat) :
    Leaves dt [] s { withCv (s.elapse dt) c with freeCtr := n } { withCv (s.elapse dt) c with freeCtr := s.freeCtr, cv := s.cv } :=
  ⟨fun _ _ => rfl, fun _ => rfl, rfl⟩

section
variable {s : State} {dt source : Nat} {msg : List Byte} {q : CvReq}

/-- A HELLO in Conservator mode is answered by the session there is. -/
theorem exec_cvHello (hphase : s.lcs.phase = .conservator) (hparse : cvParse msg = some q) (htype : q.type = 1)
    (hsession : q.session = 0) :
    exec (.cvHello dt ⟨source, msg⟩) s = .next (let u := s.elapse dt
      match u.cv.session with
      | some (_, src) =>
        if src ≠ source then
          let v := u.freshCtr.freshCtr
          v.cvSend source ⟨2, (Config.cvSession (v.freeCtr - 1)).toNat, q.seq, (Config.cvSession v.freeCtr).toNat, 14, v.cvInfo⟩
        else if u.cv.lastSeq = some q.seq then
          let v := u.modCv fun c => { c with lastAt := u.time.clock }
          match v.cv.lastResp with
          | some r => v.cvSend source r
          | none => v
        else u.cvOpen source q.seq
      | none => u.cvOpen source q.seq) := by
  refine congrArg Host.Outcome.next ?_
  show (match cvParse msg with | none => _ | some _ => _) = _
  rw [hparse]
  exact (if_neg (by simp [hphase, htype, hsession])).trans rfl

theorem exec_cvHello_opens (hphase : s.lcs.phase = .conservator) (hparse : cvParse msg = some q) (htype : q.type = 1)
    (hzero : q.session = 0) (hfree : (s.cv.session.all fun x => x.2 == source && s.cv.lastSeq != some q.seq) = true) :
    exec (.cvHello dt ⟨source, msg⟩) s =
      .next { withCv (s.elapse dt) (opened (s.elapse dt) source q) with freeCtr := s.freeCtr + 2 } := by
  refine (exec_cvHello hphase hparse htype hzero).trans (congrArg Host.Outcome.next ?_)
  rw [show s.freeCtr = (s.elapse dt).freeCtr from rfl, ← cvOpen_eq]
  change (match s.cv.session with | some (_, _) => _ | none => _) = _
  cases hopen : s.cv.session with
  | none => rfl
  | some x =>
    rw [hopen] at hfree
    obtain ⟨hsrc, hseq⟩ := Bool.and_eq_true_iff.mp hfree
    exact (if_neg (not_not_intro (eq_of_beq hsrc))).trans (if_neg (bne_iff_ne.mp hseq))

theorem exec_cvHello_taken {id src : Nat} (hphase : s.lcs.phase = .conservator) (hparse : cvParse msg = some q) (htype : q.type = 1)
    (hzero : q.session = 0) (hsession : s.cv.session = some (id, src)) (hsrc : src ≠ source) :
    exec (.cvHello dt ⟨source, msg⟩) s = .next { withCv (s.elapse dt) { s.cv with
      sent := some (source, cvMessage ⟨2, (Config.cvSession (s.freeCtr + 1)).toNat, q.seq,
        (Config.cvSession (s.freeCtr + 2)).toNat, 14, s.cvInfo⟩) } with freeCtr := s.freeCtr + 2 } := by
  refine (exec_cvHello hphase hparse htype hzero).trans (congrArg Host.Outcome.next ?_)
  change (match s.cv.session with | some (_, _) => _ | none => _) = _
  rw [hsession]
  exact if_pos hsrc

theorem exec_cvHello_repeated {id : Nat} {r : CvResp} (hphase : s.lcs.phase = .conservator) (hparse : cvParse msg = some q)
    (htype : q.type = 1) (hzero : q.session = 0) (hsession : s.cv.session = some (id, source)) (hseq : s.cv.lastSeq = some q.seq)
    (hresp : s.cv.lastResp = some r) :
    exec (.cvHello dt ⟨source, msg⟩) s =
      .next (withCv (s.elapse dt) { s.cv with lastAt := (s.elapse dt).time.clock, sent := some (source, cvMessage r) }) := by
  refine (exec_cvHello hphase hparse htype hzero).trans (congrArg Host.Outcome.next ?_)
  change (match s.cv.session with | some (_, _) => _ | none => _) = _
  rw [hsession]
  refine (if_neg (not_not_intro rfl)).trans ((if_pos hseq).trans ?_)
  change (match s.cv.lastResp with | some _ => _ | none => _) = _
  rw [hresp]
  rfl

theorem exec_cvHello_discarded (h : (cvParse msg).all (fun q => q.type != 1 || q.session != 0) = true) :
    exec (.cvHello dt ⟨source, msg⟩) s = .next (s.elapse dt) := by
  refine congrArg Host.Outcome.next ?_
  show (match cvParse msg with | none => _ | some _ => _) = _
  cases hq : cvParse msg with
  | none => rfl
  | some q =>
    rw [hq] at h
    exact if_pos (.inr ((Bool.or_eq_true_iff.mp h).imp bne_iff_ne.mp bne_iff_ne.mp))

end

/-! ### BEGIN and DATA (R529, R532, R534) -/

section
variable {s : State} {dt addr port status : Nat} {msg : List Byte} {q : CvReq}

/-- The payload of a BEGIN names no image that Conservator mode takes. -/
abbrev namesNone (q : CvReq) : Prop :=
  q.payload.length ≠ 8 ∨ beNat (q.payload.take 1) = 0 ∨ 3 < beNat (q.payload.take 1) ∨
    536870912 < beNat ((q.payload.drop 4).take 4)

/-- What BEGIN answers without taking an image (R529, R532). -/
def beginRefusal (s : State) (q : CvReq) : Nat :=
  if s.lcState = 4 then 10 else if s.cv.working = true then 14 else if namesNone q then 1 else 0

/-- The image that BEGIN names, with nothing of it collected. -/
def begun (c : CvSt) (q : CvReq) : CvSt :=
  { c with kind := some (beNat (q.payload.take 1)), total := beNat ((q.payload.drop 4).take 4), expected := 0, data := [], result := none }

theorem exec_cvBegin_new (hphase : s.lcs.phase = .conservator) (hparse : cvParse msg = some q) (htype : q.type = 3)
    (hsession : s.cv.session = some (q.session, addr * 65536 + port)) (hnew : s.cv.lastSeq ≠ some q.seq)
    (hstatus : beginRefusal s q = status) :
    exec (.cvBegin dt addr port msg) s = .next (withCv (s.elapse dt)
      (acked (if status = 0 then begun (heard (s.elapse dt) q) q else heard (s.elapse dt) q) (addr * 65536 + port) q status)) := by
  subst hstatus
  refine congrArg Host.Outcome.next
    ((cvRequest_new (s := s.elapse dt) hphase hparse htype hsession fun h => hnew h.2).trans ?_)
  have hack (c : CvSt) (h : c.session = some (q.session, addr * 65536 + port)) (hs : c.lastSeq = some q.seq) (status : Nat) :=
    cvAnswer_ack (s := withCv (s.elapse dt) c) (source := addr * 65536 + port) h hs status
  by_cases hretired : s.lcState = 4
  · rw [beginRefusal, if_pos hretired]
    exact (if_pos hretired).trans (hack (heard (s.elapse dt) q) hsession rfl 10)
  by_cases hworking : s.cv.working = true
  · rw [beginRefusal, if_neg hretired, if_pos hworking]
    exact (if_neg hretired).trans ((if_pos hworking).trans (hack (heard (s.elapse dt) q) hsession rfl 14))
  refine (if_neg hretired).trans ((if_neg hworking).trans ?_)
  by_cases hbad : namesNone q
  · have hstatus : beginRefusal s q = 1 := (if_neg hretired).trans ((if_neg hworking).trans (if_pos hbad))
    rw [hstatus]
    exact (if_pos hbad).trans (hack (heard (s.elapse dt) q) hsession rfl 1)
  · have hstatus : beginRefusal s q = 0 := (if_neg hretired).trans ((if_neg hworking).trans (if_neg hbad))
    rw [hstatus]
    exact (if_neg hbad).trans (hack (begun (heard (s.elapse dt) q) q) hsession rfl 0)

/-- What DATA answers (R534). -/
def dataStatus (c : CvSt) (q : CvReq) : Nat :=
  if c.working = true then 14 else if c.kind.isNone = true ∨ c.expected < q.offset then 1 else 0

/-- The payload at the expected offset is stored. -/
def collected (c : CvSt) (q : CvReq) (status : Nat) : CvSt :=
  if status = 0 ∧ q.offset = c.expected then
    { c with expected := c.expected + q.payload.length, data := c.data ++ q.payload }
  else c

theorem collected_next {c : CvSt} {q : CvReq} (h : q.offset = c.expected) :
    collected c q 0 = { c with expected := c.expected + q.payload.length, data := c.data ++ q.payload } := if_pos ⟨rfl, h⟩

theorem collected_not {c : CvSt} {q : CvReq} {status : Nat} (h : ¬(status = 0 ∧ q.offset = c.expected)) :
    collected c q status = c := if_neg h

theorem dataStatus_ok {c : CvSt} (hidle : c.working = false) (hkind : c.kind.isSome = true) (h : q.offset ≤ c.expected) :
    dataStatus c q = 0 := by
  simp [dataStatus, hidle, Option.isSome_iff_ne_none.mp hkind, h]

theorem dataStatus_beyond {c : CvSt} (hidle : c.working = false) (h : c.kind = none ∨ c.expected < q.offset) :
    dataStatus c q = 1 := by
  simp [dataStatus, hidle, h]

theorem exec_cvData_new (hphase : s.lcs.phase = .conservator) (hparse : cvParse msg = some q) (htype : q.type = 4)
    (hsession : s.cv.session = some (q.session, addr * 65536 + port)) (hnew : s.cv.lastSeq ≠ some q.seq)
    (hstatus : dataStatus s.cv q = status) :
    exec (.cvData dt addr port msg) s = .next (withCv (s.elapse dt)
      (acked (collected (heard (s.elapse dt) q) q status) (addr * 65536 + port) q status)) := by
  subst hstatus
  refine congrArg Host.Outcome.next
    ((cvRequest_new (s := s.elapse dt) hphase hparse htype hsession fun h => hnew h.2).trans ?_)
  have hack (c : CvSt) (h : c.session = some (q.session, addr * 65536 + port)) (hs : c.lastSeq = some q.seq) (status : Nat) :=
    cvAnswer_ack (s := withCv (s.elapse dt) c) (source := addr * 65536 + port) h hs status
  by_cases hworking : s.cv.working = true
  · rw [dataStatus, if_pos hworking, collected_not fun h => absurd h.1 (by decide)]
    exact (if_pos hworking).trans (hack (heard (s.elapse dt) q) hsession rfl 14)
  by_cases hbad : s.cv.kind.isNone = true ∨ s.cv.expected < q.offset
  · rw [dataStatus, if_neg hworking, if_pos hbad, collected_not fun h => absurd h.1 (by decide)]
    exact (if_neg hworking).trans ((if_pos hbad).trans (hack (heard (s.elapse dt) q) hsession rfl 1))
  have hzero : dataStatus s.cv q = 0 := (if_neg hworking).trans (if_neg hbad)
  rw [hzero]
  refine (if_neg hworking).trans ((if_neg hbad).trans ?_)
  by_cases hnext : q.offset = s.cv.expected
  · rw [collected_next (c := heard (s.elapse dt) q) hnext]
    exact (if_pos hnext).trans (hack { heard (s.elapse dt) q with
      expected := s.cv.expected + q.payload.length, data := s.cv.data ++ q.payload } hsession rfl 0)
  · rw [collected_not (c := heard (s.elapse dt) q) fun h => hnext h.2]
    exact (if_neg hnext).trans (hack (heard (s.elapse dt) q) hsession rfl 0)

end

/-! ### END and the end of the work (R535) -/

section
variable {s : State} {dt source : Nat} {msg : List Byte} {q : CvReq}

theorem exec_cvEnd (hphase : s.lcs.phase = .conservator) (hparse : cvParse msg = some q) (htype : q.type = 6)
    (hsession : s.cv.session = some (q.session, source)) :
    exec (.cvEnd dt source msg) s = .next (let u := withCv (s.elapse dt) (heard (s.elapse dt) q)
      match s.cv.result with
      | some r => u.cvAnswer source 7 r []
      | none =>
        if u.cv.working = true then u.cvAnswer source 5 14 []
        else if u.cv.kind.isNone = true then u.cvAnswer source 5 1 []
        else u.cvWork.cvAnswer source 5 14 []) :=
  congrArg Host.Outcome.next
    ((cvRequest_new (s := s.elapse dt) hphase hparse htype hsession fun h => Bool.false_ne_true h.1).trans rfl)

/-- Once ROM has its result, END is answered with it. -/
theorem exec_cvEnd_result {r : Nat} (hphase : s.lcs.phase = .conservator) (hparse : cvParse msg = some q) (htype : q.type = 6)
    (hsession : s.cv.session = some (q.session, source)) (hresult : s.cv.result = some r) :
    let answer : CvResp := ⟨7, q.session, q.seq, (Config.cvSession (s.freeCtr + 1)).toNat, r, []⟩
    exec (.cvEnd dt source msg) s = .next { withCv (s.elapse dt) { heard (s.elapse dt) q with
      lastResp := some answer, sent := some (source, cvMessage answer) } with freeCtr := s.freeCtr + 1 } := by
  have hexec := exec_cvEnd (dt := dt) hphase hparse htype hsession
  rw [hresult] at hexec
  refine hexec.trans (congrArg Host.Outcome.next ?_)
  show State.cvAnswer _ source 7 r [] = _
  unfold State.cvAnswer
  change State.cvSend (State.modCv _ fun c => { c with lastResp := some ⟨7, (match s.cv.session with | some x => x.1 | none => 0),
    _, _, r, []⟩ }) source ⟨7, (match s.cv.session with | some x => x.1 | none => 0), _, _, r, []⟩ = _
  rw [hsession]
  rfl

/-- While ROM works, END is answered 14, and 1 where no image has been named. -/
theorem exec_cvEnd_waits (hphase : s.lcs.phase = .conservator) (hparse : cvParse msg = some q) (htype : q.type = 6)
    (hsession : s.cv.session = some (q.session, source)) (hresult : s.cv.result = none)
    (h : s.cv.working = true ∨ s.cv.kind = none) :
    exec (.cvEnd dt source msg) s = .next (withCv (s.elapse dt)
      (acked (heard (s.elapse dt) q) source q (if s.cv.working = true then 14 else 1))) := by
  have hexec := exec_cvEnd (dt := dt) hphase hparse htype hsession
  rw [hresult] at hexec
  refine hexec.trans (congrArg Host.Outcome.next ?_)
  have hack (status : Nat) :=
    cvAnswer_ack (s := withCv (s.elapse dt) (heard (s.elapse dt) q)) (source := source) (q := q) hsession rfl status
  by_cases hworking : s.cv.working = true
  · rw [if_pos hworking]
    exact (if_pos hworking).trans (hack 14)
  · rw [if_neg hworking]
    have hnone : s.cv.kind.isNone = true := Option.isNone_iff_eq_none.mpr (h.resolve_left hworking)
    exact (if_neg hworking).trans ((if_pos hnone).trans (hack 1))

/-- ROM starts its work, and END is answered 14. -/
theorem exec_cvEnd_works (hphase : s.lcs.phase = .conservator) (hparse : cvParse msg = some q) (htype : q.type = 6)
    (hsession : s.cv.session = some (q.session, source)) (hresult : s.cv.result = none) (hidle : s.cv.working = false)
    {k : Nat} (hkind : s.cv.kind = some k) {l : LcsSt}
    (hwork : (withCv (s.elapse dt) (heard (s.elapse dt) q)).cvWork =
      { withCv (s.elapse dt) { heard (s.elapse dt) q with working := true } with lcs := l }) :
    exec (.cvEnd dt source msg) s = .next { withCv (s.elapse dt)
      (acked { heard (s.elapse dt) q with working := true } source q 14) with lcs := l } := by
  have hexec := exec_cvEnd (dt := dt) hphase hparse htype hsession
  rw [hresult] at hexec
  refine hexec.trans (congrArg Host.Outcome.next ((if_neg (?_ : ¬s.cv.working = true)).trans ((if_neg (?_ : ¬s.cv.kind.isNone = true)).trans ?_)))
  · simp [hidle]
  · simp [hkind]
  · rw [hwork]
    exact cvAnswer_ack (s := { withCv (s.elapse dt) { heard (s.elapse dt) q with working := true } with lcs := l })
      (source := source) (q := q) hsession rfl 14

/-- A bad image, or one that the store can not take now, leaves the store as it is. -/
theorem cvWork_refused (s : State) (h : s.cvCheck ≠ 0 ∨ s.flashStopped = true) :
    s.cvWork = { withCv s { s.cv with working := true } with lcs := s.lcs } := if_pos h

theorem cvWork_firmware {s : State} (hcheck : s.cvCheck = 0) (hflash : s.flashStopped = false) (hkind : s.cv.kind = some 1) :
    s.cvWork = { withCv s { s.cv with working := true } with lcs := { s.lcs with writing := true, firmware := none } } := by
  refine (if_neg (?_ : ¬(s.cvCheck ≠ 0 ∨ s.flashStopped = true))).trans (if_pos ?_)
  · simp [hcheck, hflash]
  · rw [hkind]
    rfl

/-- What is erased before a Docent copy or a boot configuration is written. -/
theorem cvWork_copy {s : State} {k : Nat} (hcheck : s.cvCheck = 0) (hflash : s.flashStopped = false) (hkind : s.cv.kind = some k)
    (hk : k ≠ 1) :
    s.cvWork = { withCv s { s.cv with working := true } with lcs := (s.eraseCopy k (s.cvTarget k)).lcs } := by
  have hget : s.cv.kind.getD 0 = k := by rw [hkind]; rfl
  refine (if_neg (?_ : ¬(s.cvCheck ≠ 0 ∨ s.flashStopped = true))).trans ((if_neg (hget ▸ hk)).trans ?_)
  · simp [hcheck, hflash]
  · rw [hget]
    rfl

/-! ### The end of the work (R535) -/

/-- What ROM keeps, in `u`, of the work of `s`: the result, and its summary. -/
def finished (s u : State) (r : Nat) : State :=
  { u with
    cv := { u.cv with working := false, result := some r, lastSeq := none }
    lcs := { u.lcs with cvSummary := u.lcs.cvSummary ++
      [⟨u.lcs.cvCause.getD 0, s.cv.kind.getD 0, r, (parseImage s.cv.data).hash⟩] } }

/-- The store takes an image of its kind. -/
def stored (s : State) (kind : Nat) : State :=
  if kind = 1 then s.firmwareStored (parseImage s.cv.data)
  else if kind = 2 then s.docentStored (s.cvTarget 2) (parseImage s.cv.data)
  else s.bootCfgStored (s.cvTarget 3) (parseImage s.cv.data)

theorem exec_cvWriteDone {written : Bool} (hphase : s.lcs.phase = .conservator) (hworking : s.cv.working = true) :
    exec (.cvWriteDone dt written) s = .next ((s.elapse dt).cvStore written) := by
  refine congrArg Host.Outcome.next (if_pos ?_)
  show (s.cv.working && s.lcs.phase == .conservator) = true
  rw [hworking, hphase]
  rfl

theorem cvStore_stores {s : State} (hcheck : s.cvCheck = 0) (hflash : s.flashStopped = false) :
    s.cvStore true = finished s (stored s (s.cv.kind.getD 0)) 0 := by
  have hr : (if s.cvCheck ≠ 0 then s.cvCheck else if (!true) = true ∨ s.flashStopped = true then 13 else 0) = 0 := by
    simp [hcheck, hflash]
  unfold State.cvStore
  simp only [hr]
  rw [if_pos hcheck, if_neg (not_not_intro rfl)]
  rfl

theorem exec_cvWriteDone_stores {k : Nat} (hphase : s.lcs.phase = .conservator) (hworking : s.cv.working = true)
    (hkind : s.cv.kind = some k) (hcheck : s.cvCheck = 0) (hflash : s.flashStopped = false) :
    exec (.cvWriteDone dt true) s = .next (finished (s.elapse dt) (stored (s.elapse dt) k) 0) := by
  have hstores := cvStore_stores (s := s.elapse dt) hcheck hflash
  rw [show (s.elapse dt).cv.kind.getD 0 = k by rw [show (s.elapse dt).cv = s.cv from rfl, hkind]; rfl] at hstores
  exact (exec_cvWriteDone hphase hworking).trans (congrArg Host.Outcome.next hstores)

theorem cvTarget_elapse (s : State) (dt kind : Nat) : (s.elapse dt).cvTarget kind = s.cvTarget kind := rfl

/-- The summary of a work of ROM that ended well. -/
def summary (s : State) (kind : Nat) : CvSummary := ⟨s.lcs.cvCause.getD 0, kind, 0, (parseImage s.cv.data).hash⟩

/-- A copy in the store, with what ROM keeps of its work. -/
theorem exec_cvWriteDone_copy {k : Nat} {l : LcsSt} (hphase : s.lcs.phase = .conservator) (hworking : s.cv.working = true)
    (hkind : s.cv.kind = some k) (hcheck : s.cvCheck = 0) (hflash : s.flashStopped = false)
    (hstored : stored (s.elapse dt) k = { s.elapse dt with lcs := l }) (hsummary : l.cvSummary = s.lcs.cvSummary)
    (hcause : l.cvCause = s.lcs.cvCause) :
    exec (.cvWriteDone dt true) s = .next { withCv (s.elapse dt)
      { s.cv with working := false, result := some 0, lastSeq := none } with
      lcs := { l with cvSummary := s.lcs.cvSummary ++ [summary s k] } } := by
  have hexec := exec_cvWriteDone_stores (dt := dt) hphase hworking hkind hcheck hflash
  rw [hstored] at hexec
  refine hexec.trans (congrArg Host.Outcome.next ?_)
  simp only [finished, hsummary, hcause, summary]
  rw [show (s.elapse dt).cv = s.cv from rfl, hkind]
  rfl

theorem cvStore_fails {s : State} {written : Bool} (hcheck : s.cvCheck = 0) (h : written = false ∨ s.flashStopped = true) :
    s.cvStore written = finished s s 13 := by
  have hr : (if s.cvCheck ≠ 0 then s.cvCheck else if (!written) = true ∨ s.flashStopped = true then 13 else 0) = 13 := by
    simp [hcheck, h]
  unfold State.cvStore
  simp only [hr]
  rw [if_pos hcheck, if_pos (by decide)]
  rfl

theorem cvStore_refuses {s : State} {written : Bool} (hcheck : s.cvCheck ≠ 0) (hroom : PortRoom s 0x15) :
    s.cvStore written = finished s (offer s 0x15
      ⟨0x16, 0x1605, 3, 60, s.time.mt, p4 [(parseImage s.cv.data).kind, s.cvCheck]⟩) s.cvCheck := by
  unfold State.cvStore
  simp only [if_pos hcheck, if_neg hcheck]
  rw [State.imageRefused, emit_eq_offer hroom]
  rfl

end

/-- The frame of the end of ROM's work, given what it leaves of the life-cycle state. -/
theorem leaves_cv_lcs (s : State) (dt : Nat) (c : CvSt) (l : LcsSt) :
    Leaves dt [] s { withCv (s.elapse dt) c with lcs := l } { withCv (s.elapse dt) c with cv := s.cv, lcs := s.lcs } :=
  ⟨fun _ _ => rfl, fun _ => rfl, rfl⟩

/-! ### RESET and ABORT (R532) -/

section
variable {s : State} {dt source : Nat} {msg : List Byte} {q : CvReq}

/-- A session that ends with an acknowledgement. -/
def dismissed (s : State) (source : Nat) (q : CvReq) : CvSt :=
  { closed s.cv with
    lastAt := s.time.clock, sent := some (source, cvMessage ⟨5, q.session, q.seq, s.cv.expected, 0, []⟩) }

theorem closed_acked (s : State) (source : Nat) (q : CvReq) : closed (acked (heard s q) source q 0) = dismissed s source q := by
  by_cases h : s.cv.working = true <;> simp [closed, acked, heard, dismissed, h]

/-- The session ends with an acknowledgement. -/
theorem cvClose_ack {s : State} {source : Nat} {q : CvReq} (hsession : s.cv.session = some (q.session, source)) :
    ((withCv s (heard s q)).cvAnswer source 5 0 []).cvClose = withCv s (dismissed s source q) := by
  rw [cvAnswer_ack (s := withCv s (heard s q)) (source := source) (q := q) hsession rfl 0, ← closed_acked]
  rfl

theorem exec_cvReset_new (hphase : s.lcs.phase = .conservator) (hparse : cvParse msg = some q) (htype : q.type = 8)
    (hsession : s.cv.session = some (q.session, source)) (hnew : s.cv.lastSeq ≠ some q.seq) :
    exec (.cvReset dt ⟨source, msg⟩) s =
      .next (withCv (s.elapse dt) { dismissed (s.elapse dt) source q with resetDue := true }) := by
  refine congrArg Host.Outcome.next
    ((cvRequest_new (s := s.elapse dt) hphase hparse htype hsession fun h => hnew h.2).trans ?_)
  exact congrArg (fun u : State => u.modCv fun c => { c with resetDue := true }) (cvClose_ack (s := s.elapse dt) hsession)

theorem exec_cvAbort_closes (hphase : s.lcs.phase = .conservator) (hparse : cvParse msg = some q) (htype : q.type = 9)
    (hsession : s.cv.session = some (q.session, source)) (hnew : s.cv.lastSeq ≠ some q.seq) (hidle : s.cv.working = false) :
    exec (.cvAbort dt ⟨source, msg⟩) s = .next (withCv (s.elapse dt) (dismissed (s.elapse dt) source q)) :=
  congrArg Host.Outcome.next
    ((cvRequest_new (s := s.elapse dt) hphase hparse htype hsession fun h => hnew h.2).trans
      ((if_neg (ne_true_of_eq_false hidle)).trans (cvClose_ack (s := s.elapse dt) hsession)))

theorem exec_cvAbort_waits (hphase : s.lcs.phase = .conservator) (hparse : cvParse msg = some q) (htype : q.type = 9)
    (hsession : s.cv.session = some (q.session, source)) (hnew : s.cv.lastSeq ≠ some q.seq) (hworking : s.cv.working = true) :
    exec (.cvAbort dt ⟨source, msg⟩) s = .next (withCv (s.elapse dt) (acked (heard (s.elapse dt) q) source q 14)) :=
  congrArg Host.Outcome.next
    ((cvRequest_new (s := s.elapse dt) hphase hparse htype hsession fun h => hnew h.2).trans ((if_pos hworking).trans
      (cvAnswer_ack (s := withCv (s.elapse dt) (heard (s.elapse dt) q)) hsession rfl 14)))

end

section
variable (s : State) (dt : Nat)

/-- The end of the write of a Docent image. -/
theorem docentImage_done : ∀ (img : Image), s.lcs.phase = .conservator →
    s.cv.working = true →
    s.cv.kind = some 2 →
    img = parseImage s.cv.data →
    s.cvCheck = 0 →
    s.flashStopped = false →
    ∃ t, exec (.cvWriteDone dt true) s = .next t ∧
      (if s.cvTarget 2 = 0 then t.lcs.docent0 = some ⟨img, s.lcs.storeOrder + 1⟩ ∧ t.lcs.docentNext = 0 ∧ t.lcs.docent1 =
        s.lcs.docent1 else t.lcs.docent1 = some ⟨img, s.lcs.storeOrder + 1⟩ ∧ t.lcs.docentNext = 1 ∧ t.lcs.docent0 =
        s.lcs.docent0) ∧
      t.lcs.cvSummary = s.lcs.cvSummary ++ [⟨s.lcs.cvCause.getD 0, 2, 0, img.hash⟩] ∧
      t.cv = { s.cv with working := false, result := some 0, lastSeq := none } ∧
      Leaves dt [] s t
        { t with cv := s.cv, lcs := { t.lcs with storeOrder := s.lcs.storeOrder, docent0 := s.lcs.docent0, docent1 := s.lcs.docent1, docentNext := s.lcs.docentNext, cvSummary := s.lcs.cvSummary } } := by
  rintro _ hphase hworking hkind rfl hcheck hflash
  obtain ⟨hsummary, hcause⟩ := storeDocent_keeps s.lcs (s.cvTarget 2) (parseImage s.cv.data)
  have hstored : stored (s.elapse dt) 2 =
      { s.elapse dt with lcs := storeDocent s.lcs (s.cvTarget 2) (parseImage s.cv.data) } := by
    rw [← cvTarget_elapse s dt]
    rfl
  exact ⟨_, exec_cvWriteDone_copy hphase hworking hkind hcheck hflash hstored hsummary hcause,
    storeDocent_stores s.lcs (s.cvTarget 2) (parseImage s.cv.data), rfl, rfl,
    fun _ _ => rfl, fun _ => rfl, congrArg (fun l => { s.elapse dt with lcs := { l with cvSummary := s.lcs.cvSummary } })
      (storeDocent_rest s.lcs (s.cvTarget 2) (parseImage s.cv.data))⟩

/-- The end of the write of a boot configuration. -/
theorem bootCfgImage_done : ∀ (img : Image), s.lcs.phase = .conservator →
    s.cv.working = true →
    s.cv.kind = some 3 →
    img = parseImage s.cv.data →
    s.cvCheck = 0 →
    s.flashStopped = false →
    ∃ t, exec (.cvWriteDone dt true) s = .next t ∧
      (if s.cvTarget 3 = 0 then t.lcs.bootCfg0 = some ⟨img, s.lcs.storeOrder + 1⟩ ∧ t.lcs.bootCfg1 = s.lcs.bootCfg1 else
        t.lcs.bootCfg1 = some ⟨img, s.lcs.storeOrder + 1⟩ ∧ t.lcs.bootCfg0 = s.lcs.bootCfg0) ∧
      t.lcs.cvSummary = s.lcs.cvSummary ++ [⟨s.lcs.cvCause.getD 0, 3, 0, img.hash⟩] ∧
      t.cv = { s.cv with working := false, result := some 0, lastSeq := none } ∧
      Leaves dt [] s t
        { t with cv := s.cv, lcs := { t.lcs with storeOrder := s.lcs.storeOrder, bootCfg0 := s.lcs.bootCfg0, bootCfg1 := s.lcs.bootCfg1, cvSummary := s.lcs.cvSummary } } := by
  rintro _ hphase hworking hkind rfl hcheck hflash
  obtain ⟨hsummary, hcause⟩ := storeBootCfg_keeps s.lcs (s.cvTarget 3) (parseImage s.cv.data)
  have hstored : stored (s.elapse dt) 3 =
      { s.elapse dt with lcs := storeBootCfg s.lcs (s.cvTarget 3) (parseImage s.cv.data) } := by
    rw [← cvTarget_elapse s dt]
    rfl
  exact ⟨_, exec_cvWriteDone_copy hphase hworking hkind hcheck hflash hstored hsummary hcause,
    storeBootCfg_stores s.lcs (s.cvTarget 3) (parseImage s.cv.data), rfl, rfl,
    fun _ _ => rfl, fun _ => rfl, congrArg (fun l => { s.elapse dt with lcs := { l with cvSummary := s.lcs.cvSummary } })
      (storeBootCfg_rest s.lcs (s.cvTarget 3) (parseImage s.cv.data))⟩

/-- END of a Docent image. -/
theorem docentImage_ends : ∀ (source : Nat) (msg : List Byte) (q : CvReq), s.lcs.phase = .conservator →
    cvParse msg = some q →
    q.type = 6 →
    s.cv.session = some (q.session, source) →
    s.cv.result = none →
    s.cv.working = false →
    s.cv.kind = some 2 →
    s.cvCheck = 0 →
    s.flashStopped = false →
    ∃ t, exec (.cvEnd dt source msg) s = .next t ∧
      (if s.cvTarget 2 = 0 then t.lcs.docent0 = none ∧ t.lcs.docent1 = s.lcs.docent1 else t.lcs.docent1 = none ∧
        t.lcs.docent0 = s.lcs.docent0) ∧
      t.cv =
        { s.cv with working := true, lastAt := (s.elapse dt).time.clock, lastSeq := some q.seq, lastResp := some (⟨5, q.session, q.seq, s.cv.expected, 14, []⟩ : CvResp), sent := some (source, cvMessage (⟨5, q.session, q.seq, s.cv.expected, 14, []⟩ : CvResp)) }
        ∧
      Leaves dt [] s t { t with cv := s.cv, lcs := { t.lcs with docent0 := s.lcs.docent0, docent1 := s.lcs.docent1 } } := by
  intro source msg q hphase hparse htype hsession hresult hworking hkind hcheck hflash
  have hwork := cvWork_copy (s := withCv (s.elapse dt) (heard (s.elapse dt) q)) hcheck hflash hkind (by decide)
  rw [eraseCopy_docent] at hwork
  exact ⟨_, exec_cvEnd_works hphase hparse htype hsession hresult hworking hkind hwork, eraseDocent_erases s.lcs (s.cvTarget 2), rfl,
    fun _ _ => rfl, fun _ => rfl, congrArg (fun l => { s.elapse dt with lcs := l }) (eraseDocent_rest s.lcs (s.cvTarget 2))⟩

/-- END of a boot configuration. -/
theorem bootCfgImage_ends : ∀ (source : Nat) (msg : List Byte) (q : CvReq), s.lcs.phase = .conservator →
    cvParse msg = some q →
    q.type = 6 →
    s.cv.session = some (q.session, source) →
    s.cv.result = none →
    s.cv.working = false →
    s.cv.kind = some 3 →
    s.cvCheck = 0 →
    s.flashStopped = false →
    ∃ t, exec (.cvEnd dt source msg) s = .next t ∧
      (if s.cvTarget 3 = 0 then t.lcs.bootCfg0 = none ∧ t.lcs.bootCfg1 = s.lcs.bootCfg1 else t.lcs.bootCfg1 = none ∧
        t.lcs.bootCfg0 = s.lcs.bootCfg0) ∧
      t.cv =
        { s.cv with working := true, lastAt := (s.elapse dt).time.clock, lastSeq := some q.seq, lastResp := some (⟨5, q.session, q.seq, s.cv.expected, 14, []⟩ : CvResp), sent := some (source, cvMessage (⟨5, q.session, q.seq, s.cv.expected, 14, []⟩ : CvResp)) }
        ∧
      Leaves dt [] s t { t with cv := s.cv, lcs := { t.lcs with bootCfg0 := s.lcs.bootCfg0, bootCfg1 := s.lcs.bootCfg1 } } := by
  intro source msg q hphase hparse htype hsession hresult hworking hkind hcheck hflash
  have hwork := cvWork_copy (s := withCv (s.elapse dt) (heard (s.elapse dt) q)) hcheck hflash hkind (by decide)
  rw [eraseCopy_bootCfg] at hwork
  exact ⟨_, exec_cvEnd_works hphase hparse htype hsession hresult hworking hkind hwork, eraseBootCfg_erases s.lcs (s.cvTarget 3), rfl,
    fun _ _ => rfl, fun _ => rfl, congrArg (fun l => { s.elapse dt with lcs := l }) (eraseBootCfg_rest s.lcs (s.cvTarget 3))⟩

end

/-- Settles O60: each request is discarded, repeated or answered as its lemma says, and only Conservator mode, the free values and,
in ROM's work, the program store and the summary change. -/
theorem conservator : Obligations.Conservator := by
  intro s dt _
  refine ⟨?helloOpens, ?helloTaken, ?helloRepeated, ?helloDiscarded, ?beginDiscarded, ?dataDiscarded, ?endDiscarded, ?resetDiscarded,
    ?abortDiscarded, ?beginTaken, ?beginRetired, ?beginWorking, ?beginNone, ?beginRepeated, ?dataNext, ?dataBefore, ?dataBeyond,
    ?dataWorking, ?dataRepeated, ?endNone, ?endWorking, ?endRefused, ?endFirmware, ?endDocent, ?endBootCfg, ?endResult,
    ?doneFirmware, ?doneDocent, ?doneBootCfg, ?doneFails, ?doneRefused, ?reset, ?abort, ?abortWorking, ?timeout, ?noTimeout⟩
  case helloOpens =>
    intro source msg q hphase hparse htype hzero hfree
    exact ⟨_, exec_cvHello_opens hphase hparse htype hzero hfree, rfl, rfl, leaves_withCv_free ..⟩
  case helloTaken =>
    intro source msg q id src hphase hparse htype hzero hsession hsrc
    exact ⟨_, exec_cvHello_taken hphase hparse htype hzero hsession hsrc, rfl, leaves_withCv_free ..⟩
  case helloRepeated =>
    intro source msg q id r hphase hparse htype hzero hsession hseq hresp
    exact ⟨_, exec_cvHello_repeated hphase hparse htype hzero hsession hseq hresp, rfl, leaves_withCv ..⟩
  case helloDiscarded => exact fun source msg h => ⟨_, exec_cvHello_discarded h, rfl, leaves_withCv ..⟩
  case beginDiscarded =>
    rintro addr port _ msg rfl h
    exact ⟨_, congrArg Host.Outcome.next (cvRequest_discarded (s := s.elapse dt) h), rfl, leaves_withCv ..⟩
  case dataDiscarded =>
    rintro addr port _ msg rfl h
    exact ⟨_, congrArg Host.Outcome.next (cvRequest_discarded (s := s.elapse dt) h), rfl, leaves_withCv ..⟩
  case endDiscarded =>
    intro source msg h
    exact ⟨_, congrArg Host.Outcome.next (cvRequest_discarded (s := s.elapse dt) h), rfl, leaves_withCv ..⟩
  case resetDiscarded =>
    intro source msg h
    exact ⟨_, congrArg Host.Outcome.next (cvRequest_discarded (s := s.elapse dt) h), rfl, leaves_withCv ..⟩
  case abortDiscarded =>
    intro source msg h
    exact ⟨_, congrArg Host.Outcome.next (cvRequest_discarded (s := s.elapse dt) h), rfl, leaves_withCv ..⟩
  case beginTaken =>
    rintro addr port _ msg q rfl hphase hparse htype hsession hnew hstate hworking hlen ⟨hlow, hhigh⟩ hsize
    have hnames : ¬namesNone q := by
      simp only [namesNone]
      omega
    have hstatus : beginRefusal s q = 0 := (if_neg hstate).trans ((if_neg (by simp [hworking])).trans (if_neg hnames))
    exact ⟨_, exec_cvBegin_new hphase hparse htype hsession hnew hstatus, rfl, leaves_withCv ..⟩
  case beginRetired =>
    rintro addr port _ msg q rfl hphase hparse htype hsession hnew hstate
    exact ⟨_, exec_cvBegin_new hphase hparse htype hsession hnew (if_pos hstate), rfl, leaves_withCv ..⟩
  case beginWorking =>
    rintro addr port _ msg q rfl hphase hparse htype hsession hnew hstate hworking
    have hstatus : beginRefusal s q = 14 := (if_neg hstate).trans (if_pos hworking)
    exact ⟨_, exec_cvBegin_new hphase hparse htype hsession hnew hstatus, rfl, leaves_withCv ..⟩
  case beginNone =>
    rintro addr port _ msg q rfl hphase hparse htype hsession hnew hstate hworking hbad
    have hstatus : beginRefusal s q = 1 := (if_neg hstate).trans ((if_neg (by simp [hworking])).trans (if_pos hbad))
    exact ⟨_, exec_cvBegin_new hphase hparse htype hsession hnew hstatus, rfl, leaves_withCv ..⟩
  case beginRepeated =>
    rintro addr port _ msg q r rfl hphase hparse htype hsession hseq hresp
    exact ⟨_, congrArg Host.Outcome.next (cvRequest_repeated (s := s.elapse dt) hphase hparse htype hsession hseq hresp), rfl,
      leaves_withCv ..⟩
  case dataNext =>
    rintro addr port _ msg q rfl hphase hparse htype hsession hnew hworking hkind hnext
    have hstatus : dataStatus s.cv q = 0 := dataStatus_ok hworking hkind hnext.le
    have hexec := exec_cvData_new (dt := dt) hphase hparse htype hsession hnew hstatus
    rw [collected_next (c := heard (s.elapse dt) q) hnext] at hexec
    exact ⟨_, hexec, rfl, leaves_withCv ..⟩
  case dataBefore =>
    rintro addr port _ msg q rfl hphase hparse htype hsession hnew hworking hkind hbefore
    have hstatus : dataStatus s.cv q = 0 := dataStatus_ok hworking hkind hbefore.le
    have hexec := exec_cvData_new (dt := dt) hphase hparse htype hsession hnew hstatus
    rw [collected_not (c := heard (s.elapse dt) q) fun h => hbefore.ne h.2] at hexec
    exact ⟨_, hexec, rfl, leaves_withCv ..⟩
  case dataBeyond =>
    rintro addr port _ msg q rfl hphase hparse htype hsession hnew hworking hbad
    have hstatus : dataStatus s.cv q = 1 := dataStatus_beyond hworking hbad
    have hexec := exec_cvData_new (dt := dt) hphase hparse htype hsession hnew hstatus
    rw [collected_not (c := heard (s.elapse dt) q) fun h => absurd h.1 (by decide)] at hexec
    exact ⟨_, hexec, rfl, leaves_withCv ..⟩
  case dataWorking =>
    rintro addr port _ msg q rfl hphase hparse htype hsession hnew hworking
    have hexec := exec_cvData_new (dt := dt) hphase hparse htype hsession hnew (if_pos hworking)
    rw [collected_not (c := heard (s.elapse dt) q) fun h => absurd h.1 (by decide)] at hexec
    exact ⟨_, hexec, rfl, leaves_withCv ..⟩
  case dataRepeated =>
    rintro addr port _ msg q r rfl hphase hparse htype hsession hseq hresp
    exact ⟨_, congrArg Host.Outcome.next (cvRequest_repeated (s := s.elapse dt) hphase hparse htype hsession hseq hresp), rfl,
      leaves_withCv ..⟩
  case endNone =>
    intro source msg q hphase hparse htype hsession hresult hworking hkind
    have hexec := exec_cvEnd_waits (dt := dt) hphase hparse htype hsession hresult (.inr hkind)
    rw [if_neg (by simp [hworking])] at hexec
    exact ⟨_, hexec, rfl, leaves_withCv ..⟩
  case endWorking =>
    intro source msg q hphase hparse htype hsession hresult hworking
    have hexec := exec_cvEnd_waits (dt := dt) hphase hparse htype hsession hresult (.inl hworking)
    rw [if_pos hworking] at hexec
    exact ⟨_, hexec, rfl, leaves_withCv ..⟩
  case endRefused =>
    intro source msg q hphase hparse htype hsession hresult hworking hkind hbad
    obtain ⟨k, hk⟩ := Option.isSome_iff_exists.mp hkind
    exact ⟨_, exec_cvEnd_works hphase hparse htype hsession hresult hworking hk
      (cvWork_refused (withCv (s.elapse dt) (heard (s.elapse dt) q)) hbad), rfl, leaves_withCv ..⟩
  case endFirmware =>
    intro source msg q hphase hparse htype hsession hresult hworking hkind hcheck hflash
    exact ⟨_, exec_cvEnd_works hphase hparse htype hsession hresult hworking hkind
      (cvWork_firmware (s := withCv (s.elapse dt) (heard (s.elapse dt) q)) hcheck hflash hkind), rfl, rfl, rfl, leaves_cv_lcs ..⟩
  case endDocent => exact docentImage_ends s dt
  case endBootCfg => exact bootCfgImage_ends s dt
  case endResult =>
    intro source msg q r hphase hparse htype hsession hresult
    exact ⟨_, exec_cvEnd_result hphase hparse htype hsession hresult, rfl, leaves_withCv_free ..⟩
  case doneFirmware =>
    rintro _ hphase hworking hkind rfl hcheck hflash
    exact ⟨_, exec_cvWriteDone_copy hphase hworking hkind hcheck hflash rfl rfl rfl, rfl, rfl, rfl, rfl,
      fun _ _ => rfl, fun _ => rfl, rfl⟩
  case doneDocent => exact docentImage_done s dt
  case doneBootCfg => exact bootCfgImage_done s dt
  case doneFails =>
    intro written hphase hworking hcheck h
    exact ⟨_, (exec_cvWriteDone hphase hworking).trans (congrArg Host.Outcome.next (cvStore_fails (s := s.elapse dt) hcheck h)), rfl, rfl,
      fun _ _ => rfl, fun _ => rfl, rfl⟩
  case doneRefused =>
    intro written hphase hworking hcheck hroom
    exact ⟨_, (exec_cvWriteDone hphase hworking).trans (congrArg Host.Outcome.next (cvStore_refuses (s := s.elapse dt) hcheck hroom)), rfl,
      offered_of_ports rfl, rfl, fun _ _ => rfl, fun _ => rfl, rfl⟩
  case reset =>
    intro source msg q hphase hparse htype hsession hnew
    exact ⟨_, exec_cvReset_new hphase hparse htype hsession hnew, rfl, leaves_withCv ..⟩
  case abort =>
    intro source msg q hphase hparse htype hsession hnew hworking
    exact ⟨_, exec_cvAbort_closes hphase hparse htype hsession hnew hworking, rfl, leaves_withCv ..⟩
  case abortWorking =>
    intro source msg q hphase hparse htype hsession hnew hworking
    exact ⟨_, exec_cvAbort_waits hphase hparse htype hsession hnew hworking, rfl, leaves_withCv ..⟩
  case timeout =>
    intro hopen hlate
    exact ⟨_, congrArg Host.Outcome.next (if_pos (Bool.and_eq_true_iff.mpr ⟨hopen, decide_eq_true hlate⟩)), rfl, leaves_withCv ..⟩
  case noTimeout =>
    intro h
    refine ⟨_, congrArg Host.Outcome.next (if_neg fun hboth => ?_), rfl, leaves_withCv ..⟩
    obtain ⟨hopen, hlate⟩ := Bool.and_eq_true_iff.mp hboth
    obtain hnone | hearly := h
    · exact Option.isSome_iff_ne_none.mp hopen hnone
    · exact absurd (of_decide_eq_true hlate) (Nat.not_le.mpr hearly)

end Sys2Proof.Proofs.ConservatorMode

/-! Life-cycle commands: what their writes start (R499 to R506, R521 to R527, R545). -/

namespace Sys2Proof.Proofs.LifecycleCommands

open Sys2Proof Sys2Proof.Machine Sys2Proof.Laws Sys2Proof.Proofs.Time Sys2Proof.Proofs.Measurement Sys2Proof.Proofs.Power
open Sys2Proof.Proofs.RegOps Sys2Proof.Proofs.ConservatorMode

/-! ### A command starts (R506) -/

theorem lcsCommand_of_lets {s : State} {req : Requester} (h : Lets s req Reg.LCS_CMD) (dt : Nat) (f : State → State) :
    (s.elapse dt).lcsCommand req 0xC9 f = (f (s.elapse dt)).respond 0 0 :=
  (regCmd_of_lets (lets_elapse h dt) fun s => if (0xC9 : Byte) = 0xC9 then f s else s).trans rfl

def startWrites (cmd : Nat) : List RegOp :=
  [.bit Fld.LCS_CMDRES_BUSY true, .field Fld.LCS_CMDRES_CMD cmd, .field Fld.LCS_CMDRES_RESULT 0]

/-- A command runs, and LCS_CMDRES shows it as busy. -/
def started (s : State) (b : LcsBusy) : State :=
  { written s (startWrites b.cmd) with lcs := { s.lcs with busy := some b } }

theorem lcsStart_idle {s : State} (h : s.lcs.busy = none) (b : LcsBusy) : s.lcsStart b = started s b := by
  unfold State.lcsStart started
  rw [h, ← regOps_eq_written]
  rfl

/-- What a started command shows, over a state with the registers of `s`. -/
theorem shown_started {s u : State} (hs : s.regsWf = true) (hu : u.regs = s.regs) {b : LcsBusy} (hcmd : b.cmd < 256) :
    ((started u b).respond 0 0).bit Fld.LCS_CMDRES_BUSY = true ∧
      ((started u b).respond 0 0).getF Fld.LCS_CMDRES_CMD = b.cmd ∧
      ((started u b).respond 0 0).getF Fld.LCS_CMDRES_RESULT = 0 ∧
      RegsKept [Reg.LCS_CMDRES] s ((started u b).respond 0 0) := by
  have hr : ((started u b).respond 0 0).regs = (runAll s (startWrites b.cmd)).regs := regs_written_of hu _
  refine ⟨?_, ?_, ?_, regsKept_of_regs hr (by simp [startWrites, RegOp.words])⟩
  · rw [bit_of_regs hs hr]
    simp (disch := decide) [startWrites, RegOp.see]
  all_goals rw [getF_of_regs hs hr]
  all_goals simp (disch := decide) [startWrites, RegOp.see, Nat.mod_eq_of_lt hcmd]

/-! ### Tokens and images (R500, R506) -/

/-- An accepted token leaves the event ports alone. -/
theorem tokenRefused_zero (s : State) (tok : Image) : s.tokenRefused tok 0 = s := if_pos (.inl rfl)

/-- A token that its life-cycle state refuses is written as one event (R501). -/
theorem tokenRefused_state {s : State} {c : Nat} (hbusy : s.lcs.busy = none) (hc : 8 < c) (hroom : PortRoom s 0x15) (tok : Image) :
    s.tokenRefused tok c = offer s 0x15 ⟨0x16, 0x1602, 3, 60, s.time.mt, p4 [c]⟩ := by
  have hgoes : ¬(c = 0 ∨ s.lcs.busy.isSome = true) := by simp [hbusy]; omega
  unfold State.tokenRefused
  rw [if_neg hgoes, if_neg (Nat.not_le.mpr hc)]
  exact emit_eq_offer hroom ..

/-- A token that a check of its image refuses is written as two events (R501, R506). -/
theorem tokenRefused_image {s : State} {c : Nat} (hbusy : s.lcs.busy = none) (hpos : c ≠ 0) (hc : c ≤ 8)
    (hroom : (tget s.arc.ports 0x15).length < 31) (tok : Image) :
    s.tokenRefused tok c = offer (offer s 0x15 ⟨0x16, 0x1605, 3, 60, s.time.mt, p4 [tok.kind, c]⟩) 0x15
      ⟨0x16, 0x1602, 3, 60, s.time.mt, p4 [c]⟩ := by
  have hgoes : ¬(c = 0 ∨ s.lcs.busy.isSome = true) := by simp [hbusy, hpos]
  have hfirst : PortRoom s 0x15 := Nat.lt_succ_of_lt hroom
  unfold State.tokenRefused
  rw [if_neg hgoes, if_pos hc, State.imageRefused, emit_eq_offer hfirst]
  refine emit_eq_offer ?_ ..
  show (tget (portsWith s 0x15 _) 0x15).length < 32
  rw [tget_portsWith_self, List.length_append]
  exact Nat.succ_lt_succ hroom

theorem imageRefused_of_room {s : State} (hroom : PortRoom s 0x15) (img : Image) (c : Nat) :
    s.imageRefused img c = offer s 0x15 ⟨0x16, 0x1605, 3, 60, s.time.mt, p4 [img.kind, c]⟩ := emit_eq_offer hroom ..

/-- What the life-cycle state says of a transition: 0, 9 or 12 (R499). -/
theorem transitionCheck_gt {s : State} {tok : Image} (h : s.transitionCheck tok ≠ 0) : 8 < s.transitionCheck tok := by
  have hsome (c : Nat) (hc : c = 0 ∨ c = 9 ∨ c = 12) (hpos : c ≠ 0) : 8 < c := by omega
  refine hsome _ ?_ h
  unfold State.transitionCheck
  split
  · simp
  · split
    · simp
    · split <;> simp

/-- Two occurrences that joined an empty enough port stand there in their order. -/
theorem tget_two_offers (s : State) (blk : Nat) (o p : Occurrence) :
    tget (offer (offer s blk o) blk p).arc.ports blk = tget s.arc.ports blk ++ [o, p] := by
  show tget (portsWith (offer s blk o) blk p) blk = _
  rw [tget_portsWith_self, show tget (offer s blk o).arc.ports blk = _ from tget_portsWith_self .., List.append_assoc]
  rfl

theorem eraseDocent_busy (l : LcsSt) (copy : Nat) : (eraseDocent l copy).busy = l.busy := by
  by_cases h : copy = 0 <;> simp [eraseDocent, h]

theorem eraseBootCfg_busy (l : LcsSt) (copy : Nat) : (eraseBootCfg l copy).busy = l.busy := by
  by_cases h : copy = 0 <;> simp [eraseBootCfg, h]

/-- The copy that was not used at this start is erased. -/
theorem eraseDocent_other (l : LcsSt) {used : Nat} (h : used < 2) : if used = 0
    then (eraseDocent l (1 - used)).docent1 = none ∧ (eraseDocent l (1 - used)).docent0 = l.docent0
    else (eraseDocent l (1 - used)).docent0 = none ∧ (eraseDocent l (1 - used)).docent1 = l.docent1 := by
  by_cases hu : used = 0
  · simp [eraseDocent, hu]
  · have hcopy : 1 - used = 0 := by omega
    simp [eraseDocent, hu, hcopy]

/-! The checks do not depend on module time. -/

theorem imageCheck_elapse (s : State) (dt : Nat) (img : Image) (kind : Nat) :
    (s.elapse dt).imageCheck img kind = s.imageCheck img kind := rfl

theorem sourceImage_elapse (s : State) (dt : Nat) : (s.elapse dt).sourceImage = s.sourceImage := rfl

theorem token_elapse (s : State) (dt : Nat) : (s.elapse dt).token = s.token := rfl

theorem tokenCheck_elapse (s : State) (dt : Nat) (tok : Image) (kind : Nat) :
    (s.elapse dt).tokenCheck tok kind = s.tokenCheck tok kind := by
  unfold State.tokenCheck
  rw [imageCheck_elapse]
  rfl

theorem transitionCheck_elapse (s : State) (dt : Nat) (tok : Image) : (s.elapse dt).transitionCheck tok = s.transitionCheck tok := rfl

/-- A check that passes on the image in DDR still passes when module time has gone on. -/
theorem sourceCheck_elapse (s : State) (dt kind : Nat) :
    (s.elapse dt).imageCheck (s.elapse dt).sourceImage kind = s.imageCheck s.sourceImage kind := by
  rw [imageCheck_elapse, sourceImage_elapse]

/-! ### What each command starts -/

section
variable {s : State} {dt : Nat} {req : Requester} {u : State} {b : LcsBusy}

/-- A command whose word starts `b` over a state `u`. -/
theorem exec_started {i : Instr} {f : State → State} (hexec : exec i s = .next ((s.elapse dt).lcsCommand req 0xC9 f))
    (hlets : Lets s req Reg.LCS_CMD) (hf : f (s.elapse dt) = u.lcsStart b) (hbusy : u.lcs.busy = none) :
    exec i s = .next ((started u b).respond 0 0) := by
  rw [hexec, lcsCommand_of_lets hlets, hf, lcsStart_idle hbusy]

end

/-! ### Transitions, images and commits (R499, R521, R523, R527) -/

/-- The result that a TRANSITION with the token of LCS_TOKWIN will have. -/
def transitionResult (s : State) : Nat :=
  if s.tokenCheck s.token 5 ≠ 0 then s.tokenCheck s.token 5 else s.transitionCheck s.token

/-- The command that a TRANSITION starts. -/
def transitionBusy (s : State) (lo hi : BitVec 64) (c : Nat) : LcsBusy :=
  ⟨1, c, .transition s.token.tokenFrom s.token.tokenTo s.token.keySlot, some (lo.toNat, hi.toNat)⟩

theorem transitionResult_elapse (s : State) (dt : Nat) : transitionResult (s.elapse dt) = transitionResult s := by
  simp only [transitionResult, token_elapse, tokenCheck_elapse, transitionCheck_elapse]

theorem transitionBusy_elapse (s : State) (dt : Nat) (lo hi : BitVec 64) (c : Nat) :
    transitionBusy (s.elapse dt) lo hi c = transitionBusy s lo hi c := by
  simp only [transitionBusy, token_elapse]

theorem lcsTransition_eq {s : State} {c : Nat} (hc : transitionResult s = c) (lo hi : BitVec 64) :
    s.lcsTransition lo hi = (s.tokenRefused s.token c).lcsStart (transitionBusy s lo hi c) := by
  subst hc
  rfl

section
variable {s : State}

theorem lcsWriteFw_accepted (hbusy : s.lcs.busy = none) (hcheck : s.imageCheck s.sourceImage 1 = 0) (hflash : s.flashStopped = false) :
    s.lcsWriteFw true true = State.lcsStart { s with lcs := { s.lcs with writing := true, firmware := none } }
      ⟨3, 0, .firmware s.sourceImage (State.storedHash s.lcs.firmware), none⟩ :=
  (if_neg (by simp [hbusy])).trans ((if_neg (not_not_intro hcheck)).trans (if_neg (ne_true_of_eq_false hflash)))

theorem lcsWriteFw_refused (hbusy : s.lcs.busy = none) (hcheck : s.imageCheck s.sourceImage 1 ≠ 0) (written verified : Bool) :
    s.lcsWriteFw written verified = (s.imageRefused s.sourceImage (s.imageCheck s.sourceImage 1)).lcsStart
      ⟨3, s.imageCheck s.sourceImage 1, .nothing, none⟩ :=
  (if_neg (by simp [hbusy])).trans (if_pos hcheck)

theorem lcsWriteDocent_accepted (hbusy : s.lcs.busy = none) (hstate : s.lcState = 2) (hcheck : s.imageCheck s.sourceImage 2 = 0)
    (hflash : s.flashStopped = false) :
    s.lcsWriteDocent true true = State.lcsStart { s with lcs := eraseDocent s.lcs (1 - s.getF Fld.LCS_BOOTINFO_DOCENT) }
      ⟨4, 0, .docent (1 - s.getF Fld.LCS_BOOTINFO_DOCENT) s.sourceImage (State.storedHash
        (if 1 - s.getF Fld.LCS_BOOTINFO_DOCENT = 0 then s.lcs.docent0 else s.lcs.docent1)), none⟩ := by
  rw [← eraseCopy_docent]
  exact (if_neg (by simp [hbusy])).trans ((if_neg (not_not_intro hstate)).trans
    ((if_neg (not_not_intro hcheck)).trans (if_neg (ne_true_of_eq_false hflash))))

theorem lcsWriteDocent_locked (hbusy : s.lcs.busy = none) (hstate : s.lcState ≠ 2) (written verified : Bool) :
    s.lcsWriteDocent written verified = s.lcsStart ⟨4, 10, .nothing, none⟩ :=
  (if_neg (by simp [hbusy])).trans (if_pos hstate)

theorem lcsWriteBootcfg_accepted (hbusy : s.lcs.busy = none) (hstate : s.lcState = 1 ∨ s.lcState = 2)
    (hcheck : s.imageCheck s.sourceImage 3 = 0) (hflash : s.flashStopped = false) :
    s.lcsWriteBootcfg true true =
      State.lcsStart { s with lcs := eraseBootCfg s.lcs (State.olderCopy s.lcs.bootCfg0 s.lcs.bootCfg1) }
        ⟨5, 0, .bootCfg (State.olderCopy s.lcs.bootCfg0 s.lcs.bootCfg1) s.sourceImage (State.storedHash
          (if State.olderCopy s.lcs.bootCfg0 s.lcs.bootCfg1 = 0 then s.lcs.bootCfg0 else s.lcs.bootCfg1)), none⟩ := by
  have hopen : ¬(s.lcState ≠ 1 ∧ s.lcState ≠ 2) := by omega
  rw [← eraseCopy_bootCfg]
  exact (if_neg (by simp [hbusy])).trans ((if_neg hopen).trans
    ((if_neg (not_not_intro hcheck)).trans (if_neg (ne_true_of_eq_false hflash))))

theorem lcsCommitFw_eq (s : State) : s.lcsCommitFw = s.lcsStart ⟨6, if s.bit Fld.LCS_BOOTINFO_UNCOMMITTED = true ∧
    s.bit Fld.LCS_BOOTINFO_CYCLEOK = false then 12 else 0, .commit, none⟩ := by
  unfold State.lcsCommitFw
  cases s.bit Fld.LCS_BOOTINFO_UNCOMMITTED <;> cases s.bit Fld.LCS_BOOTINFO_CYCLEOK <;> rfl

theorem lcsVerify_accepted (hcheck : s.imageCheck s.sourceImage 4 = 0) : s.lcsVerify = s.lcsStart ⟨8, 0, .nothing, none⟩ := by
  unfold State.lcsVerify
  simp only [hcheck, true_or, if_true]

def busyWrites : List RegOp :=
  [.count Reg.LCS_CMDREFUSED 1, .field Fld.LCS_CMDRES_CMD 8, .field Fld.LCS_CMDRES_RESULT 14]

/-- While a command runs, another is refused with result 14 and counted. -/
theorem lcsVerify_busy (h : s.lcs.busy.isSome = true) : s.lcsVerify = written s busyWrites := by
  unfold State.lcsVerify
  rw [← regOps_eq_written]
  simp only [if_pos (Or.inr h)]
  exact if_pos h

end

/-- Settles O57: each command's checks name the command that starts, which LCS_CMDRES shows as busy. -/
theorem lifecycleRequests : Obligations.LifecycleRequests := by
  intro s dt hwf
  have hs : s.regsWf = true := (Bool.and_eq_true_iff.mp hwf).1
  refine ⟨?accepted, ?wrongState, ?wrongToken, ?writeFw, ?badFw, ?writeDocent, ?lockedDocent, ?writeBootcfg, ?commit, ?restart, ?verify,
    ?busy⟩
  case accepted =>
    intro req arg n0 n1 hlets hbusy htoken hstate
    have hresult : transitionResult (s.elapse dt) = 0 := (transitionResult_elapse s dt).trans <| (if_neg (not_not_intro htoken)).trans hstate
    have hstart := lcsTransition_eq hresult n0 n1
    rw [tokenRefused_zero, transitionBusy_elapse] at hstart
    obtain ⟨hshown, hcmd, hres, hkept⟩ := shown_started (u := s.elapse dt) (b := transitionBusy s n0 n1 0) hs rfl (by decide : 1 < 256)
    exact ⟨_, exec_started rfl hlets hstart hbusy, rfl, rfl, hshown, hcmd, hres, hkept, fun _ => rfl, rfl⟩
  case wrongState =>
    intro req arg n0 n1 hlets hbusy htoken hstate hroom
    have hresult : transitionResult (s.elapse dt) = s.transitionCheck s.token := (transitionResult_elapse s dt).trans <| if_neg (not_not_intro htoken)
    have hstart := lcsTransition_eq hresult n0 n1
    rw [tokenRefused_state (s := s.elapse dt) hbusy (transitionCheck_gt hstate) hroom, transitionBusy_elapse] at hstart
    obtain ⟨hshown, hcmd, hres, hkept⟩ := shown_started (u := offer (s.elapse dt) 0x15
      ⟨0x16, 0x1602, 3, 60, (s.elapse dt).time.mt, p4 [s.transitionCheck s.token]⟩)
      (b := transitionBusy s n0 n1 (s.transitionCheck s.token)) hs rfl (by decide : 1 < 256)
    exact ⟨_, exec_started rfl hlets hstart hbusy, rfl, rfl, hshown, hcmd, hres, offered_of_ports rfl, hkept, fun _ => rfl, rfl⟩
  case wrongToken =>
    intro req arg n0 n1 hlets hbusy htoken hle hroom
    have hresult : transitionResult (s.elapse dt) = s.tokenCheck s.token 5 := (transitionResult_elapse s dt).trans <| if_pos htoken
    have hstart := lcsTransition_eq hresult n0 n1
    rw [tokenRefused_image (s := s.elapse dt) hbusy htoken hle hroom, token_elapse, transitionBusy_elapse] at hstart
    obtain ⟨hshown, hcmd, hres, hkept⟩ := shown_started (u := offer (offer (s.elapse dt) 0x15
      ⟨0x16, 0x1605, 3, 60, (s.elapse dt).time.mt, p4 [s.token.kind, s.tokenCheck s.token 5]⟩) 0x15
      ⟨0x16, 0x1602, 3, 60, (s.elapse dt).time.mt, p4 [s.tokenCheck s.token 5]⟩)
      (b := transitionBusy s n0 n1 (s.tokenCheck s.token 5)) hs rfl (by decide : 1 < 256)
    refine ⟨_, exec_started rfl hlets hstart hbusy, rfl, rfl, hshown, hcmd, hres, ?_, hkept, fun _ => rfl, rfl⟩
    exact tget_two_offers ..
  case writeFw =>
    intro req hlets hbusy hcheck hflash
    obtain ⟨hshown, hcmd, hres, hkept⟩ := shown_started
      (u := { s.elapse dt with lcs := { s.lcs with writing := true, firmware := none } })
      (b := ⟨3, 0, .firmware s.sourceImage (State.storedHash s.lcs.firmware), none⟩) hs rfl (by decide : 3 < 256)
    have hstart := lcsWriteFw_accepted (s := s.elapse dt) hbusy ((sourceCheck_elapse s dt 1).trans hcheck) hflash
    rw [sourceImage_elapse] at hstart
    exact ⟨_, exec_started rfl hlets hstart hbusy, rfl, rfl, hshown, hcmd, hres,
      rfl, rfl, hkept, fun _ => rfl, rfl⟩
  case badFw =>
    intro req written verified hlets hbusy hcheck hroom
    have hstart := lcsWriteFw_refused (s := s.elapse dt) hbusy (by rwa [sourceCheck_elapse]) written verified
    rw [imageRefused_of_room (s := s.elapse dt) hroom, sourceCheck_elapse, sourceImage_elapse] at hstart
    obtain ⟨hshown, hcmd, hres, hkept⟩ := shown_started (u := offer (s.elapse dt) 0x15
      ⟨0x16, 0x1605, 3, 60, (s.elapse dt).time.mt, p4 [s.sourceImage.kind, s.imageCheck s.sourceImage 1]⟩)
      (b := ⟨3, s.imageCheck s.sourceImage 1, .nothing, none⟩) hs rfl (by decide : 3 < 256)
    exact ⟨_, exec_started rfl hlets hstart hbusy, rfl, rfl, hshown, hcmd, hres, offered_of_ports rfl, hkept, fun _ => rfl, rfl⟩
  case writeDocent =>
    intro req hlets hbusy hstate hcheck hflash
    obtain ⟨hshown, hcmd, hres, hkept⟩ := shown_started
      (u := { s.elapse dt with lcs := eraseDocent s.lcs (1 - s.getF Fld.LCS_BOOTINFO_DOCENT) })
      (b := ⟨4, 0, .docent (1 - s.getF Fld.LCS_BOOTINFO_DOCENT) s.sourceImage (State.storedHash
        (if 1 - s.getF Fld.LCS_BOOTINFO_DOCENT = 0 then s.lcs.docent0 else s.lcs.docent1)), none⟩) hs rfl (by decide : 4 < 256)
    have hstart := lcsWriteDocent_accepted (s := s.elapse dt) hbusy hstate ((sourceCheck_elapse s dt 2).trans hcheck) hflash
    rw [sourceImage_elapse] at hstart
    refine ⟨_, exec_started rfl hlets hstart ((eraseDocent_busy ..).trans hbusy), rfl, rfl, hshown, hcmd, hres, eraseDocent_other _ (getF_lt s Fld.LCS_BOOTINFO_DOCENT), hkept,
      fun _ => rfl, ?_⟩
    exact congrArg (fun l => { s.elapse dt with lcs := { l with busy := s.lcs.busy } }) (eraseDocent_rest s.lcs _)
  case lockedDocent =>
    intro req written verified hlets hbusy hstate
    obtain ⟨hshown, hcmd, hres, hkept⟩ := shown_started (u := s.elapse dt) (b := ⟨4, 10, .nothing, none⟩) hs rfl (by decide : 4 < 256)
    exact ⟨_, exec_started rfl hlets (lcsWriteDocent_locked (s := s.elapse dt) hbusy hstate written verified) hbusy, rfl, rfl, hshown,
      hcmd, hres, hkept, fun _ => rfl, rfl⟩
  case writeBootcfg =>
    intro req hlets hbusy hstate hcheck hflash
    obtain ⟨hshown, hcmd, hres, hkept⟩ := shown_started
      (u := { s.elapse dt with lcs := eraseBootCfg s.lcs (State.olderCopy s.lcs.bootCfg0 s.lcs.bootCfg1) })
      (b := ⟨5, 0, .bootCfg (State.olderCopy s.lcs.bootCfg0 s.lcs.bootCfg1) s.sourceImage (State.storedHash
        (if State.olderCopy s.lcs.bootCfg0 s.lcs.bootCfg1 = 0 then s.lcs.bootCfg0 else s.lcs.bootCfg1)), none⟩) hs rfl
      (by decide : 5 < 256)
    have hstart := lcsWriteBootcfg_accepted (s := s.elapse dt) hbusy hstate ((sourceCheck_elapse s dt 3).trans hcheck) hflash
    rw [sourceImage_elapse] at hstart
    refine ⟨_, exec_started rfl hlets hstart ((eraseBootCfg_busy ..).trans hbusy), rfl, rfl, hshown, hcmd, hres, ?_, hkept, fun _ => rfl, ?_⟩
    · exact eraseBootCfg_erases s.lcs (State.olderCopy s.lcs.bootCfg0 s.lcs.bootCfg1)
    · exact congrArg (fun l => { s.elapse dt with lcs := { l with busy := s.lcs.busy } }) (eraseBootCfg_rest s.lcs _)
  case commit =>
    intro req hlets hbusy
    obtain ⟨hshown, hcmd, hres, hkept⟩ := shown_started (u := s.elapse dt) (b := ⟨6, if s.bit Fld.LCS_BOOTINFO_UNCOMMITTED = true ∧
      s.bit Fld.LCS_BOOTINFO_CYCLEOK = false then 12 else 0, .commit, none⟩) hs rfl (by decide : 6 < 256)
    exact ⟨_, exec_started rfl hlets (lcsCommitFw_eq (s.elapse dt)) hbusy, rfl, rfl, hshown, hcmd, hres, hkept, fun _ => rfl, rfl⟩
  case restart =>
    intro req hlets hbusy
    obtain ⟨hshown, hcmd, hres, hkept⟩ := shown_started (u := s.elapse dt) (b := ⟨7, if s.role = 2 ∧
      s.bit Fld.RPL_STATUS_PEER_ELIG = true then 10 else 0, .restart, none⟩) hs rfl (by decide : 7 < 256)
    exact ⟨_, exec_started rfl hlets rfl hbusy, rfl, rfl, hshown, hcmd, hres, hkept, fun _ => rfl, rfl⟩
  case verify =>
    intro req arg hlets hbusy hcheck
    obtain ⟨hshown, hcmd, hres, hkept⟩ := shown_started (u := s.elapse dt) (b := ⟨8, 0, .nothing, none⟩) hs rfl (by decide : 8 < 256)
    exact ⟨_, exec_started rfl hlets (lcsVerify_accepted (s := s.elapse dt) ((sourceCheck_elapse s dt 4).trans hcheck)) hbusy, rfl, rfl, hshown, hcmd, hres, hkept,
      fun _ => rfl, rfl⟩
  case busy =>
    intro req arg hlets hbusy
    have hexec : exec (.lcsCmdVerify dt req 0xC9 arg) s = .next ((s.elapse dt).lcsVerify.respond 0 0) :=
      congrArg Host.Outcome.next (lcsCommand_of_lets hlets dt _)
    rw [lcsVerify_busy (s := s.elapse dt) hbusy] at hexec
    have hr : ((written (s.elapse dt) busyWrites).respond 0 0).regs = (runAll (s.elapse dt) busyWrites).regs := regFile_eq ..
    have hu : (s.elapse dt).regsWf = true := hs
    refine ⟨_, hexec, rfl, rfl, ?_, ?_, ?_, regsKept_of_regs (s := s.elapse dt) hr (by decide), fun _ => rfl, rfl⟩
    · rw [getF_of_regs hu hr]
      simp (disch := decide) [busyWrites, RegOp.see]
    · rw [getF_of_regs hu hr]
      simp (disch := decide) [busyWrites, RegOp.see]
    · rw [Counted, rd64_of_regs hu hr]
      simp (disch := decide) [busyWrites, RegOp.see]

end Sys2Proof.Proofs.LifecycleCommands

/-! The end of a life-cycle command (R500, R501, R506, R521, R523, R527, R538). -/

namespace Sys2Proof.Proofs.LifecycleEnds

open Sys2Proof Sys2Proof.Machine Sys2Proof.Laws Sys2Proof.Proofs.Time Sys2Proof.Proofs.Power
open Sys2Proof.Proofs.RegOps Sys2Proof.Proofs.ConservatorMode Sys2Proof.Proofs.SelfTest

/-- A state with another state of the life cycle and the program store. -/
def withLcs (s : State) (l : LcsSt) : State := { s with lcs := l }

theorem written_withLcs (s : State) (l : LcsSt) (w : List RegOp) : written (withLcs s l) w = withLcs (written s w) l :=
  written_of_regs (s := s) (u := withLcs s l) rfl w

/-- A state that has taken free values up to `n`. -/
def withFree (s : State) (n : Nat) : State := { s with freeCtr := n }

theorem written_withFree (s : State) (n : Nat) (w : List RegOp) : written (withFree s n) w = withFree (written s w) n :=
  written_of_regs (s := s) (u := withFree s n) rfl w

/-! ### A command completes (R506) -/

def doneWrites (cmd r : Nat) : List RegOp :=
  [.bit Fld.LCS_CMDRES_BUSY false, .field Fld.LCS_CMDRES_CMD cmd, .field Fld.LCS_CMDRES_RESULT r]

def nonceWrites : Option (Nat × Nat) → List RegOp
  | some n => [.pair Reg.LCS_NONCE_LO n.1, .pair Reg.LCS_NONCE_HI n.2]
  | none => []

/-- No command runs, and LCS_CMDRES shows the result of the one that ended. -/
def completed (s : State) (b : LcsBusy) (r : Nat) : State :=
  written (withLcs s { s.lcs with busy := none }) (doneWrites b.cmd r ++ nonceWrites b.nonce)

theorem lcsComplete_eq {s : State} {b : LcsBusy} {r : Nat}
    (hr : (if b.result = 0 ∧ State.writesStore b.act = true ∧ s.flashStopped = true then 13 else b.result) = r) :
    s.lcsComplete b = if r = 0 then (completed s b r).lcsAct b else (completed s b r).inc64 Reg.LCS_CMDREFUSED := by
  subst hr
  unfold completed
  rw [← runAll_eq_written]
  cases hn : b.nonce <;> simp only [State.lcsComplete, hn] <;> rfl

/-- A command that runs completes, but a restart that was accepted, which its reset completes. -/
theorem exec_lcsCmdComplete {s : State} {dt : Nat} {b : LcsBusy} (hbusy : s.lcs.busy = some b)
    (h : ¬(b.act = .restart ∧ b.result = 0)) : exec (.lcsCmdComplete dt) s = .next ((s.elapse dt).lcsComplete b) := by
  refine congrArg Host.Outcome.next ?_
  show (match s.lcs.busy with | some b => _ | none => _) = _
  rw [hbusy]
  exact if_neg h

theorem exec_lcsCmdComplete_restart {s : State} {dt : Nat} {b : LcsBusy} (hbusy : s.lcs.busy = some b)
    (h : b.act = .restart ∧ b.result = 0) : exec (.lcsCmdComplete dt) s = .next (s.elapse dt) := by
  refine congrArg Host.Outcome.next ?_
  show (match s.lcs.busy with | some b => _ | none => _) = _
  rw [hbusy]
  exact if_pos h

/-! ### Images (R521, R523, R538) -/

/-- The Provenance record of a stored image. -/
def imageRecord (mt kind : Nat) (img : Image) (old : Nat) : PrvRec :=
  { mt, kind, port := 0xFE, session := 0, user := 0, reservedOk := true
    object := State.objectBytes kind img.kind, oldHash := old, newHash := leNat (sha256Bytes img.bytes) }

def imageWrites (cmd : Nat) : List RegOp :=
  doneWrites cmd 0 ++ [.count Reg.LCS_IMAGES 1, .count Reg.PRV_OFFERED 1]

/-- The write of an image has ended well: the program store is `l`, and the image has its event and its record. -/
def imageEnd (s : State) (cmd kind : Nat) (img : Image) (old : Nat) (l : LcsSt) : State :=
  recorded (offer (written (withLcs s l) (imageWrites cmd)) 0x15
    ⟨0x16, 0x1604, 2, 60, s.time.mt, p4 [img.kind, img.version]⟩) (imageRecord s.time.mt kind img old)

theorem imageWritten_of_room {s : State} (hroom : PortRoom s 0x15) (hprv : s.prv.port.length < 64) (cmd kind old : Nat) (img : Image)
    (l : LcsSt) :
    State.imageWritten (written (withLcs s l) (doneWrites cmd 0)) img kind old = imageEnd s cmd kind img old l := by
  have hone (u : State) : u.inc64 Reg.LCS_IMAGES = written u [.count Reg.LCS_IMAGES 1] := runAll_eq_written u [.count Reg.LCS_IMAGES 1]
  unfold State.imageWritten
  rw [hone, written_written, emit_eq_offer (s := written (withLcs s l) _) hroom]
  refine (prvOffer_of_room (s := offer (written (withLcs s l) _) 0x15 _) hprv _).trans ?_
  rw [written_offer, written_written]
  rfl

/-- A state that ended a command without a nonce, its program store apart. -/
theorem completed_lcs (s : State) (cmd r : Nat) (act : LcsAct) (f : LcsSt → LcsSt) :
    withLcs (completed s ⟨cmd, r, act, none⟩ r) (f (completed s ⟨cmd, r, act, none⟩ r).lcs) =
      written (withLcs s (f { s.lcs with busy := none })) (doneWrites cmd r) := by
  rw [completed, nonceWrites, List.append_nil, written_withLcs, written_withLcs]
  rfl

/-- A firmware image in the store. -/
def storeFirmware (l : LcsSt) (img : Image) : LcsSt :=
  { l with storeOrder := l.storeOrder + 1, firmware := some ⟨img, l.storeOrder + 1⟩, writing := false }

section
variable {s : State} {img : Image} {old copy : Nat}

/-- A command that writes the store completes with result 0 before NV_STOP. -/
theorem lcsComplete_store {cmd : Nat} {act : LcsAct} (hflash : s.flashStopped = false) :
    s.lcsComplete ⟨cmd, 0, act, none⟩ = (completed s ⟨cmd, 0, act, none⟩ 0).lcsAct ⟨cmd, 0, act, none⟩ :=
  (lcsComplete_eq (b := ⟨cmd, 0, act, none⟩) (r := 0) (if_neg (by simp [hflash]))).trans (if_pos rfl)

theorem lcsComplete_firmware (hflash : s.flashStopped = false) (hroom : PortRoom s 0x15) (hprv : s.prv.port.length < 64) :
    s.lcsComplete ⟨3, 0, .firmware img old, none⟩ = imageEnd s 3 7 img old (storeFirmware { s.lcs with busy := none } img) := by
  rw [← imageWritten_of_room hroom hprv, lcsComplete_store hflash,
    ← completed_lcs s 3 0 (.firmware img old) fun l => storeFirmware l img]
  rfl

theorem lcsComplete_docent (hflash : s.flashStopped = false) (hroom : PortRoom s 0x15) (hprv : s.prv.port.length < 64) :
    s.lcsComplete ⟨4, 0, .docent copy img old, none⟩ = imageEnd s 4 8 img old (storeDocent { s.lcs with busy := none } copy img) := by
  rw [← imageWritten_of_room hroom hprv, lcsComplete_store hflash,
    ← completed_lcs s 4 0 (.docent copy img old) fun l => storeDocent l copy img]
  rfl

theorem lcsComplete_bootCfg (hflash : s.flashStopped = false) (hroom : PortRoom s 0x15) (hprv : s.prv.port.length < 64) :
    s.lcsComplete ⟨5, 0, .bootCfg copy img old, none⟩ = imageEnd s 5 9 img old (storeBootCfg { s.lcs with busy := none } copy img) := by
  rw [← imageWritten_of_room hroom hprv, lcsComplete_store hflash,
    ← completed_lcs s 5 0 (.bootCfg copy img old) fun l => storeBootCfg l copy img]
  rfl

/-- What the end of the write of an image shows and counts. -/
theorem shown_imageEnd (hs : s.regsWf = true) {cmd : Nat} (hcmd : cmd < 256) (kind : Nat) (l : LcsSt) :
    (imageEnd s cmd kind img old l).bit Fld.LCS_CMDRES_BUSY = false ∧
      (imageEnd s cmd kind img old l).getF Fld.LCS_CMDRES_CMD = cmd ∧
      (imageEnd s cmd kind img old l).getF Fld.LCS_CMDRES_RESULT = 0 ∧
      Counted Reg.LCS_IMAGES 1 s (imageEnd s cmd kind img old l) ∧
      Counted Reg.PRV_OFFERED 1 s (imageEnd s cmd kind img old l) ∧
      RegsKept (Reg.LCS_CMDRES :: (two Reg.LCS_IMAGES ++ two Reg.PRV_OFFERED)) s (imageEnd s cmd kind img old l) := by
  have hr : (imageEnd s cmd kind img old l).regs = (runAll s (imageWrites cmd)).regs := regs_written_of rfl _
  refine ⟨?_, ?_, ?_, ?_, ?_, regsKept_of_regs hr (by simp [imageWrites, doneWrites, RegOp.words])⟩
  · rw [bit_of_regs hs hr]
    simp (disch := decide) [imageWrites, doneWrites, RegOp.see]
  · rw [getF_of_regs hs hr]
    simp (disch := decide) [imageWrites, doneWrites, RegOp.see, Nat.mod_eq_of_lt hcmd]
  · rw [getF_of_regs hs hr]
    simp (disch := decide) [imageWrites, doneWrites, RegOp.see]
  all_goals rw [Counted, rd64_of_regs hs hr]
  all_goals simp (disch := decide) [imageWrites, doneWrites, RegOp.see]

/-- What the end of the write of an image leaves beside the program store, its registers, its event and its record. -/
theorem leaves_imageEnd {dt cmd kind : Nat} {l l' : LcsSt} (hs : s.regsWf = true) (hcmd : cmd < 256) (hl : l' = s.lcs) :
    Leaves dt (Reg.LCS_CMDRES :: (two Reg.LCS_IMAGES ++ two Reg.PRV_OFFERED)) s (imageEnd (s.elapse dt) cmd kind img old l)
      { imageEnd (s.elapse dt) cmd kind img old l with
        lcs := l', prv := { (imageEnd (s.elapse dt) cmd kind img old l).prv with port := s.prv.port }
        arc := { (imageEnd (s.elapse dt) cmd kind img old l).arc with ports := s.arc.ports } } := by
  obtain ⟨-, -, -, -, -, hkept⟩ := shown_imageEnd (s := s.elapse dt) (img := img) (old := old) hs hcmd kind l
  refine ⟨hkept, fun _ => rfl, ?_⟩
  subst hl
  rfl

theorem offered_imageEnd (u : State) (cmd kind : Nat) (l : LcsSt) :
    Offered 0x15 0x1604 2 60 (p4 [img.kind, img.version]) u (imageEnd u cmd kind img old l) := offered_of_ports rfl

end

/-! ### The commit of the running firmware (R527) -/

/-- The roll-back count that a commit raises to the running image's own. -/
def committedRoll (s : State) : Nat := max (s.getF Fld.LCS_ROLLBACK_COUNT) ((s.lcs.running.map fun x => min 128 x.rollback).getD 0)

/-- The version that a commit reports. -/
def committedVersion (s : State) : Nat := (s.lcs.running.map fun x => x.version).getD (s.rd Reg.LCS_FWVER)

def commitWrites (roll : Nat) : List RegOp :=
  doneWrites 6 0 ++ [.field Fld.LCS_ROLLBACK_COUNT roll, .field Fld.LCS_FMT_OLDFMT 0, .bit Fld.LCS_BOOTINFO_UNCOMMITTED false]

/-- The Provenance record of a commit. -/
def commitRecord (s : State) : PrvRec :=
  { mt := s.time.mt, kind := 10, port := 0xFE, session := 0, user := 0, reservedOk := true, object := State.objectBytes 10 0
    oldHash := (Config.contentHash s.freeCtr).toNat, newHash := (Config.contentHash (s.freeCtr + 1)).toNat }

/-- The state of the life cycle once the running firmware is committed. -/
def committedLcs (l : LcsSt) : LcsSt := { l with busy := none, oldCopy := none, fwCommitted := true }

/-- The running firmware is committed. -/
def commitEnd (s : State) : State :=
  recorded (withFree (offer (withLcs (written s (commitWrites (committedRoll s) ++ [.count Reg.PRV_OFFERED 1])) (committedLcs s.lcs))
    0x15 ⟨0x16, 0x1606, 2, 60, s.time.mt, p4 [committedVersion s, committedRoll s]⟩) (s.freeCtr + 2)) (commitRecord s)

theorem committedRoll_lt (s : State) : committedRoll s < 256 := by
  have hcount := getF_lt s Fld.LCS_ROLLBACK_COUNT
  have hrunning : (s.lcs.running.map fun x => min 128 x.rollback).getD 0 ≤ 128 := by
    cases s.lcs.running with
    | none => exact Nat.zero_le _
    | some img => exact Nat.min_le_left ..
  exact max_lt hcount (Nat.lt_of_le_of_lt hrunning (by decide))

theorem committedRoll_some {s : State} {img : Image} (h : s.lcs.running = some img) :
    committedRoll s = max (s.getF Fld.LCS_ROLLBACK_COUNT) (min 128 img.rollback) := by
  rw [committedRoll, h]
  rfl

theorem committedRoll_none {s : State} (h : s.lcs.running = none) :
    committedRoll s = max (s.getF Fld.LCS_ROLLBACK_COUNT) (min 128 0) := by
  rw [committedRoll, h]
  rfl

theorem committedVersion_some {s : State} {img : Image} (h : s.lcs.running = some img) : committedVersion s = img.version := by
  rw [committedVersion, h]
  rfl

theorem committedVersion_none {s : State} (h : s.lcs.running = none) : committedVersion s = s.rd Reg.LCS_FWVER := by
  rw [committedVersion, h]
  rfl

/-- What a commit writes and reports, over a state that shows its result. -/
def commitShown (u : State) : State :=
  withLcs (runAll u [.field Fld.LCS_ROLLBACK_COUNT (committedRoll u), .field Fld.LCS_FMT_OLDFMT 0,
    .bit Fld.LCS_BOOTINFO_UNCOMMITTED false]) { u.lcs with oldCopy := none, fwCommitted := true }

theorem lcsAct_commit (u : State) {b : LcsBusy} (hact : b.act = .commit) : u.lcsAct b =
    ((commitShown u).emit 0x15 0x1606 2 60
      (p4 [committedVersion u, (commitShown u).getF Fld.LCS_ROLLBACK_COUNT])).prvChange 10 0 := by
  unfold State.lcsAct commitShown
  rw [hact]
  dsimp only
  split
  case h_1 img hrunning =>
    rw [committedRoll_some hrunning, committedVersion_some hrunning]
    rfl
  case h_2 hrunning =>
    rw [committedRoll_none hrunning, committedVersion_none hrunning]
    rfl

/-- A commit that completed, over the state before it. -/
theorem commitShown_completed (s : State) :
    commitShown (completed s ⟨6, 0, .commit, none⟩ 0) = withLcs (written s (commitWrites (committedRoll s))) (committedLcs s.lcs) ∧
      committedVersion (completed s ⟨6, 0, .commit, none⟩ 0) = committedVersion s := by
  have hr : (completed s ⟨6, 0, .commit, none⟩ 0).regs = (runAll s (doneWrites 6 0)).regs :=
    regs_written_of (s := s) (u := withLcs s { s.lcs with busy := none }) rfl _
  have hkept := regsKept_of_regs hr (List.Subset.refl _)
  have hroll : committedRoll (completed s ⟨6, 0, .commit, none⟩ 0) = committedRoll s := by
    rw [committedRoll, getF_of_regsKept hkept (f := Fld.LCS_ROLLBACK_COUNT) (by decide) (by decide)]
    rfl
  constructor
  · rw [commitShown, hroll, runAll_eq_written, completed, nonceWrites, List.append_nil, written_written, written_withLcs]
    rfl
  · show (s.lcs.running.map fun x => x.version).getD (State.rd _ Reg.LCS_FWVER) = _
    rw [State.rd, hkept Reg.LCS_FWVER (by decide)]
    rfl

theorem lcsComplete_commit {s : State} (hs : s.regsWf = true) (hroom : PortRoom s 0x15) (hprv : s.prv.port.length < 64) :
    s.lcsComplete ⟨6, 0, .commit, none⟩ = commitEnd s := by
  obtain ⟨hshown, hver⟩ := commitShown_completed s
  have hr : (withLcs (written s (commitWrites (committedRoll s))) (committedLcs s.lcs)).regs =
      (runAll s (commitWrites (committedRoll s))).regs := regFile_eq ..
  have hcount : (withLcs (written s (commitWrites (committedRoll s))) (committedLcs s.lcs)).getF Fld.LCS_ROLLBACK_COUNT =
      committedRoll s := by
    rw [getF_of_regs hs hr]
    simp (disch := decide) [commitWrites, doneWrites, RegOp.see, Nat.mod_eq_of_lt (committedRoll_lt s)]
  rw [lcsComplete_eq (b := ⟨6, 0, .commit, none⟩) (r := 0) (if_neg (by simp [State.writesStore])), if_pos rfl, lcsAct_commit _ rfl, hshown,
    hver, hcount, emit_eq_offer (s := withLcs (written s _) _) hroom]
  refine (prvOffer_of_room (s := withFree (offer (withLcs (written s _) _) 0x15 _) (s.freeCtr + 2)) hprv _).trans ?_
  rw [written_withFree, written_offer, written_withLcs, written_written]
  rfl

theorem regs_commitEnd (s : State) :
    (commitEnd s).regs = (runAll s (commitWrites (committedRoll s) ++ [.count Reg.PRV_OFFERED 1])).regs := regFile_eq ..

theorem storeDocent_busy (l : LcsSt) (copy : Nat) (img : Image) : (storeDocent l copy img).busy = l.busy := by
  by_cases h : copy = 0 <;> simp [storeDocent, h]

theorem storeBootCfg_busy (l : LcsSt) (copy : Nat) (img : Image) : (storeBootCfg l copy img).busy = l.busy := by
  by_cases h : copy = 0 <;> simp [storeBootCfg, h]

/-! ### Transitions and refusals (R500, R501, R506) -/

/-- An accepted transition waits for its edge. -/
def transitionWaits (s : State) (b : LcsBusy) (src dst slot : Nat) : State :=
  withLcs (completed s b 0) { s.lcs with busy := none, transition := s.lcs.transition ++ [⟨src, dst, slot, s.time.mono⟩] }

theorem lcsComplete_transition {s : State} {src dst slot : Nat} (nonce : Option (Nat × Nat)) :
    s.lcsComplete ⟨1, 0, .transition src dst slot, nonce⟩ =
      transitionWaits s ⟨1, 0, .transition src dst slot, nonce⟩ src dst slot := by
  rw [lcsComplete_eq (b := ⟨1, 0, .transition src dst slot, nonce⟩) (r := 0) (if_neg (by simp [State.writesStore])), if_pos rfl]
  rfl

theorem lcsComplete_refused {s : State} {b : LcsBusy} (hr : b.result ≠ 0) (hnonce : b.nonce = none) :
    s.lcsComplete b = withLcs (written s (doneWrites b.cmd b.result ++ [.count Reg.LCS_CMDREFUSED 1])) { s.lcs with busy := none } := by
  have hone (u : State) : u.inc64 Reg.LCS_CMDREFUSED = written u [.count Reg.LCS_CMDREFUSED 1] :=
    runAll_eq_written u [.count Reg.LCS_CMDREFUSED 1]
  rw [lcsComplete_eq (if_neg fun h => hr h.1), if_neg hr, hone, completed, hnonce, nonceWrites, List.append_nil, written_withLcs,
    written_withLcs, written_written]

/-- Settles O58: each end of a command leads to the state of its lemma, whose register program gives what it shows and counts. -/
theorem lifecycleCompletion : Obligations.LifecycleCompletion := by
  intro s dt hwf
  have hs : (s.elapse dt).regsWf = true := (Bool.and_eq_true_iff.mp hwf).1
  refine ⟨?transition, ?refused, ?firmware, ?docent, ?bootCfg, ?commit, ?restart⟩
  case transition =>
    intro src dst slot n0 n1 hbusy hlow hhigh
    have hexec := exec_lcsCmdComplete (dt := dt) hbusy (by simp)
    rw [lcsComplete_transition] at hexec
    have hr : (transitionWaits (s.elapse dt) ⟨1, 0, .transition src dst slot, some (n0, n1)⟩ src dst slot).regs =
        (runAll (s.elapse dt) (doneWrites 1 0 ++ nonceWrites (some (n0, n1)))).regs :=
      regs_written_of (s := s.elapse dt) (u := withLcs (s.elapse dt) { s.lcs with busy := none }) rfl _
    refine ⟨_, hexec, rfl, ?_, ?_, ?_, rfl, ?_, ?_,
      regsKept_of_regs (s := s.elapse dt) hr (by simp [nonceWrites, doneWrites, RegOp.words]), fun _ => rfl, rfl⟩
    case refine_1 =>
      rw [bit_of_regs hs hr]
      simp (disch := decide) [nonceWrites, doneWrites, RegOp.see]
    case refine_2 | refine_3 =>
      rw [getF_of_regs hs hr]
      simp (disch := decide) [nonceWrites, doneWrites, RegOp.see]
    all_goals rw [rd64_of_regs hs hr]
    all_goals simp (disch := decide) [nonceWrites, doneWrites, RegOp.see]
    all_goals omega
  case refused =>
    intro cmd r act hbusy hpos hcmd hlt
    have hexec := exec_lcsCmdComplete (dt := dt) hbusy fun h => hpos h.2
    rw [lcsComplete_refused (s := s.elapse dt) hpos rfl] at hexec
    have hr : (withLcs (written (s.elapse dt) (doneWrites cmd r ++ [.count Reg.LCS_CMDREFUSED 1]))
        { (s.elapse dt).lcs with busy := none }).regs =
        (runAll (s.elapse dt) (doneWrites cmd r ++ [.count Reg.LCS_CMDREFUSED 1])).regs := regFile_eq ..
    refine ⟨_, hexec, rfl, ?_, ?_, ?_, ?_,
      regsKept_of_regs (s := s.elapse dt) hr (by simp [doneWrites, RegOp.words]), fun _ => rfl, rfl⟩
    case refine_1 =>
      rw [bit_of_regs hs hr]
      simp (disch := decide) [doneWrites, RegOp.see]
    case refine_4 =>
      rw [Counted, rd64_of_regs hs hr]
      simp (disch := decide) [doneWrites, RegOp.see]
    all_goals rw [getF_of_regs hs hr]
    all_goals simp (disch := decide) [doneWrites, RegOp.see]
    all_goals omega
  case firmware =>
    intro img old hbusy hflash hroom hprv
    have hexec := exec_lcsCmdComplete (dt := dt) hbusy (by simp)
    rw [lcsComplete_firmware (s := s.elapse dt) hflash hroom hprv] at hexec
    obtain ⟨hshown, hcmd, hres, himages, hprov, -⟩ := shown_imageEnd (img := img) (old := old) hs (by decide : 3 < 256) 7
      (storeFirmware { s.lcs with busy := none } img)
    exact ⟨_, hexec, rfl, hshown, hcmd, hres, rfl, rfl, himages, offered_imageEnd .., hprov, rfl, leaves_imageEnd hs (by decide) rfl⟩
  case docent =>
    intro img old copy hbusy hflash hroom hprv
    have hexec := exec_lcsCmdComplete (dt := dt) hbusy (by simp)
    rw [lcsComplete_docent (s := s.elapse dt) hflash hroom hprv] at hexec
    obtain ⟨hshown, hcmd, hres, himages, hprov, -⟩ := shown_imageEnd (img := img) (old := old) hs (by decide : 4 < 256) 8
      (storeDocent { s.lcs with busy := none } copy img)
    exact ⟨_, hexec, storeDocent_busy .., hshown, hcmd, hres, storeDocent_stores { s.lcs with busy := none } copy img, himages,
      offered_imageEnd .., hprov, rfl, leaves_imageEnd hs (by decide)
        (congrArg (fun l : LcsSt => { l with busy := s.lcs.busy }) (storeDocent_rest { s.lcs with busy := none } copy img))⟩
  case bootCfg =>
    intro img old copy hbusy hflash hroom hprv
    have hexec := exec_lcsCmdComplete (dt := dt) hbusy (by simp)
    rw [lcsComplete_bootCfg (s := s.elapse dt) hflash hroom hprv] at hexec
    obtain ⟨hshown, hcmd, hres, himages, hprov, -⟩ := shown_imageEnd (img := img) (old := old) hs (by decide : 5 < 256) 9
      (storeBootCfg { s.lcs with busy := none } copy img)
    exact ⟨_, hexec, storeBootCfg_busy .., hshown, hcmd, hres, storeBootCfg_stores { s.lcs with busy := none } copy img, himages,
      offered_imageEnd .., hprov, rfl, leaves_imageEnd hs (by decide)
        (congrArg (fun l : LcsSt => { l with busy := s.lcs.busy }) (storeBootCfg_rest { s.lcs with busy := none } copy img))⟩
  case commit =>
    intro hbusy hroom hprv
    have hexec := exec_lcsCmdComplete (dt := dt) hbusy (by simp)
    rw [lcsComplete_commit hs hroom hprv] at hexec
    have hr := regs_commitEnd (s.elapse dt)
    have hlt := committedRoll_lt (s.elapse dt)
    have hroll : (commitEnd (s.elapse dt)).getF Fld.LCS_ROLLBACK_COUNT = committedRoll s := by
      rw [getF_of_regs hs hr]
      simp (disch := decide) [commitWrites, doneWrites, RegOp.see, Nat.mod_eq_of_lt hlt]
      rfl
    refine ⟨_, hexec, rfl, ?_, ?_, ?_, hroll, ?_, ?_, rfl, rfl, ?_, ?_, rfl,
      regsKept_of_regs (s := s.elapse dt) hr (by simp [commitWrites, doneWrites, RegOp.words]), fun _ => rfl, rfl⟩
    case refine_6 =>
      rw [hroll]
      exact offered_of_ports rfl
    case refine_7 =>
      rw [Counted, rd64_of_regs hs hr]
      simp (disch := decide) [commitWrites, doneWrites, RegOp.see]
    case refine_1 | refine_4 =>
      rw [bit_of_regs hs hr]
      simp (disch := decide) [commitWrites, doneWrites, RegOp.see]
    all_goals rw [getF_of_regs hs hr]
    all_goals simp (disch := decide) [commitWrites, doneWrites, RegOp.see]
  case restart =>
    intro hbusy
    exact ⟨_, exec_lcsCmdComplete_restart hbusy ⟨rfl, rfl⟩, rfl, fun _ _ => rfl, fun _ => rfl, rfl⟩

end Sys2Proof.Proofs.LifecycleEnds

/-! A UART frame on RS-485 ends when a descriptor of its ring takes it, and the bytes of a descriptor may be those of the counts of time
(R388, R395). -/

namespace Sys2Proof.Proofs.ClockDescriptor

open Sys2Proof Sys2Proof.Machine

-- Theorems that the kernel evaluates are checked one after the other: side by side they take more memory than there is.
set_option Elab.async false

/-- The receive ring of RS-485 port 0 lies on TIM_MT and TIM_MONO, so that the BUFLEN of its posted descriptor is the low half-word of
TIM_MONO; the port still drove its line 100 ns before the clock of the command: the counterexample to O51. -/
def clockRing : State :=
  let s := State.reset.setB (Fld.SER_CFG_EN 0) true
  let s := s.wr64 (ringRegs .ser 1).base 0xF000010000
  let s := s.wr (ringRegs .ser 1).ctl (0x80000000 + 4)
  let s := s.modRing .ser 1 fun r => { r with tail := 1 }
  let s := s.modBus fun b => { b with driven := tset b.driven 0 4900 }
  { s with time := { s.time with mt := 0, mono := 100, clock := 0, edgeAt := 10000 } }

/-- A frame of 100 bytes with an error. -/
def badFrame : SerFrame := { data := List.replicate 100 0, errorFree := false, fifoFull := false }

/-- The frames that port 0 has counted as received in an outcome. -/
def framesOf : Host.Outcome State Fault Refusal → Nat
  | .next t => t.rd64 (serRxFrames .ser 0)
  | _ => 0

theorem frames_clockRing : framesOf (exec (.serFrameEnd 5000 0 badFrame) clockRing) = 0 := by decide +kernel

/-- Before the command the descriptor takes the 100 bytes, which end the frame now. -/
theorem free_clockRing : (clockRing.bit (Fld.SER_CFG_FULLDUP 0) || (!clockRing.serBusy .ser 0 &&
    decide (tget clockRing.bus.driven 0 ≤ (clockRing.elapse 5000).time.clock - clockRing.serAgo 0 badFrame.data))) = true := by
  decide +kernel

/-- Refutes O51: the statement takes the end of a frame from the descriptor as it reads before module time goes on. -/
theorem not_serialReceive : ¬ Obligations.SerialReceive := by
  intro h
  obtain ⟨-, -, -, -, -, -, herror, -⟩ := h clockRing 5000 (by decide +kernel)
  obtain ⟨t, hexec, hcount, -⟩ := herror 0 badFrame (by decide +kernel) free_clockRing rfl rfl
  have hframes := frames_clockRing
  rw [hexec] at hframes
  have hone : t.rd64 (serRxFrames .ser 0) = (clockRing.rd64 (serRxFrames .ser 0) + 1) % 2 ^ 64 := hcount
  rw [show t.rd64 (serRxFrames .ser 0) = 0 from hframes] at hone
  exact absurd hone (by decide +kernel)

end Sys2Proof.Proofs.ClockDescriptor

/-! Each register operation of the model as a program of one write, and a count that is taken again and again. -/

namespace Sys2Proof.Proofs.RegOps

open Sys2Proof Sys2Proof.Machine

theorem regs_written (s : State) (l : List RegOp) : (written s l).regs = (runAll s l).regs := regFile_eq s l

theorem regsKept_written (s : State) (l : List RegOp) : RegsKept (l.flatMap RegOp.words) s (written s l) :=
  regsKept_of_regs (regs_written s l) (List.Subset.refl _)

theorem inc64_eq_written (s : State) (a : Nat) : s.inc64 a = written s [.count a 1] := runAll_eq_written s [.count a 1]
theorem add64_eq_written (s : State) (a n : Nat) : s.add64 a n = written s [.count a n] := runAll_eq_written s [.count a n]
theorem setF_eq_written (s : State) (f : Field) (v : Nat) : s.setF f v = written s [.field f v] := runAll_eq_written s [.field f v]
theorem setB_eq_written (s : State) (f : Field) (b : Bool) : s.setB f b = written s [.bit f b] := runAll_eq_written s [.bit f b]
theorem wr_eq_written (s : State) (a v : Nat) : s.wr a v = written s [.word a v] := runAll_eq_written s [.word a v]
theorem wr64_eq_written (s : State) (a v : Nat) : s.wr64 a v = written s [.pair a v] := runAll_eq_written s [.pair a v]

/-- A counter that counts `n` times by one. -/
theorem View.rd64_replicate_count (a n : Nat) (ρ : View) :
    View.rd64 ((List.replicate n (RegOp.count a 1)).foldl RegOp.see ρ) a = (View.rd64 ρ a + n) % 18446744073709551616 := by
  induction n generalizing ρ with
  | zero => exact (Nat.mod_eq_of_lt (ρ.rd64_lt a)).symm
  | succ n ih =>
    rw [List.replicate_succ, List.foldl_cons, ih, RegOp.see, View.rd64_add64_self]
    omega

theorem words_replicate (n : Nat) (o : RegOp) : (List.replicate n o).flatMap RegOp.words ⊆ o.words := by
  intro a ha
  obtain ⟨p, hp, hword⟩ := List.mem_flatMap.mp ha
  rwa [List.eq_of_mem_replicate hp] at hword

end Sys2Proof.Proofs.RegOps

/-! Frames sent on MVB, CAN and RS-485, and the CAN error states (R390, R392 to R394). -/

namespace Sys2Proof.Proofs.SerialSends

open Sys2Proof Sys2Proof.Machine Sys2Proof.Laws Sys2Proof.Proofs.Time Sys2Proof.Proofs.Power Sys2Proof.Proofs.RegOps

/-- What an answer to the master counts. -/
def answerWrites : List RegOp := [.count (serOffered .mvb 0) 1, .count (serSent .mvb 0) 1]

/-! ### MVB (R384, R390) -/

section
variable {s : State} {dt : Nat}

theorem exec_mvbMasterFrame (hlive : s.serLive .mvb 0 = true) (port : Nat) :
    exec (.mvbMasterFrame dt (.port port)) s = .next ((s.elapse dt).mvbPort port) := congrArg Host.Outcome.next (if_pos hlive)

theorem exec_mvbMasterFrame_device {addr : Nat} (hlive : s.serLive .mvb 0 = true) (haddr : addr = s.getF Fld.MVB_CFG_DEVADDR) :
    exec (.mvbMasterFrame dt (.device addr)) s = .next (written (s.elapse dt) answerWrites) :=
  congrArg Host.Outcome.next ((if_pos hlive).trans ((if_pos haddr).trans (runAll_eq_written (s.elapse dt) answerWrites)))

/-- An entry with CUST answers only with custody. -/
theorem mvbPort_found {port i : Nat} (hfind : ((List.range (s.cat .mvb).count).find? fun i => s.serUse .mvb i &&
      serTx (s.catEntry .mvb i) && Machine.ent (s.catEntry .mvb i) 8 4 % 4096 == port && (s.dataRec (serIdx .mvb) i).relSeq.isSome) =
      some i) :
    s.mvbPort port = written s (if (Machine.ent (s.catEntry .mvb i) 0 1).testBit 3 && !s.serves then [.count (serNoCust .mvb 0) 1]
      else answerWrites) := by
  unfold State.mvbPort
  simp only [hfind]
  split_ifs
  · exact inc64_eq_written ..
  · exact runAll_eq_written s answerWrites

theorem answered_mvb (hs : s.regsWf = true) {t : State} (ht : t.regs = (runAll s answerWrites).regs) :
    Counted (serOffered .mvb 0) 1 s t ∧ Counted (serSent .mvb 0) 1 s t ∧
      RegsKept (two (serOffered .mvb 0) ++ two (serSent .mvb 0)) s t := by
  refine ⟨?_, ?_, regsKept_of_regs ht (by decide)⟩
  all_goals rw [Counted, rd64_of_regs hs ht]
  all_goals simp (disch := decide) [answerWrites, RegOp.see]

end

/-! ### CAN error states (R394) -/

/-- What an error-active controller writes of its error counters. -/
def calmWrites (u tec rec : Nat) : List RegOp :=
  [.field (Fld.CAN_ERR_TEC u) tec, .field (Fld.CAN_ERR_REC u) rec, .field (Fld.CAN_ERR_STATE u) 0]

/-- Below 128 both error counters leave the controller error-active, without an event. -/
theorem canState_calm {s : State} {u tec rec : Nat} (htec : tec < 128) (hrec : rec < 128) :
    s.canState u tec rec = written s (calmWrites u tec rec) := by
  have hstate : (if 255 < tec then 2 else if 128 ≤ tec ∨ 128 ≤ rec then 1 else 0) = 0 := by
    rw [if_neg (by omega), if_neg (by omega)]
  have hmin (n : Nat) (h : n < 128) : min n 255 = n := by omega
  simp only [State.canState, hstate, hmin tec htec, hmin rec hrec]
  rw [if_neg (by simp), if_neg (by simp), ← runAll_eq_written]
  rfl

/-- The error counters after an error frame (R394). -/
def errTec (s : State) (u : Nat) (role : CanErr) (more : Nat) : Nat :=
  s.getF (Fld.CAN_ERR_TEC u) + (if role = .transmitter then 8 else 0) + (if role = .receiver then 0 else 8 * more)

def errRec (s : State) (u : Nat) (role : CanErr) (more : Nat) : Nat :=
  s.getF (Fld.CAN_ERR_REC u) + (if role = .receiver then 1 + 8 * more else 0)

theorem canErr_eq (s : State) (u : Nat) (role : CanErr) (more : Nat) :
    s.canErr u role more = s.canState u (errTec s u role more) (errRec s u role more) := by
  cases role with
  | transmitter => rfl
  | exempt => rfl
  | receiver => simp only [State.canErr, errTec, errRec, if_true, if_neg (by decide : ¬CanErr.receiver = .transmitter), Nat.add_zero, Nat.add_assoc]

/-- What a controller that goes bus-off writes. -/
def busOffWrites (u rec : Nat) : List RegOp :=
  [.field (Fld.CAN_ERR_TEC u) 255, .field (Fld.CAN_ERR_REC u) (min rec 255), .field (Fld.CAN_ERR_STATE u) 2, .count (Reg.CAN_BUSOFF u) 1]

/-- The collection of a block's events, or 0 where its word names none (R396). -/
def coll (s : State) (b : SerBlk) : Nat :=
  if 55 < s.rd (serIdx b * 0x10000 + 4) % 64 then 0 else s.rd (serIdx b * 0x10000 + 4) % 64

theorem serEvent_of_room {s : State} {b : SerBlk} (h : PortRoom s (serIdx b)) (code sev : Nat) (payload : List Byte) :
    s.serEvent b code sev payload = offer s (serIdx b) ⟨serIdx b + 1, code, sev, coll s b, s.time.mt, payload⟩ := emit_eq_offer h ..

/-- A controller without queued frames has none to lose. -/
theorem serFlush_none {s : State} {b : SerBlk} {u : Nat} (h : (s.bus.queue.all fun x => x.blk != serIdx b || x.unit != u) = true) :
    s.serFlush b u = s := by
  have hnone : ∀ x ∈ s.bus.queue, (x.blk == serIdx b && x.unit == u) = false := by
    intro x hx
    have hother := List.all_eq_true.mp h x hx
    cases hblk : x.blk == serIdx b <;> cases hunit : x.unit == u <;> simp_all [bne]
  have hout : s.bus.queue.filter (fun x => x.blk == serIdx b && x.unit == u) = [] :=
    List.filter_eq_nil_iff.mpr fun x hx => ne_true_of_eq_false (hnone x hx)
  have hkeep : s.bus.queue.filter (fun x => !(x.blk == serIdx b && x.unit == u)) = s.bus.queue :=
    List.filter_eq_self.mpr fun x hx => by rw [hnone x hx]; rfl
  unfold State.serFlush State.serDropAll
  simp only [hout, State.modBus, hkeep]
  rfl

theorem canState_busOff {s : State} {u tec rec : Nat} (htec : 255 < tec) (hwas : s.getF (Fld.CAN_ERR_STATE u) ≠ 2)
    (hroom : PortRoom s 0x0D) (hqueue : (s.bus.queue.all fun x => x.blk != serIdx .can || x.unit != u) = true) :
    s.canState u tec rec = offer (written s (busOffWrites u rec)) 0x0D
      ⟨0x0E, 0x0C01, 4, coll (written s (busOffWrites u rec)) .can, s.time.mt, p4 [u]⟩ := by
  have hstate : (if 255 < tec then 2 else if 128 ≤ tec ∨ 128 ≤ rec then 1 else 0) = 2 := if_pos htec
  have hmin : min tec 255 = 255 := by omega
  have hevent := serEvent_of_room (s := written s (busOffWrites u rec)) (b := .can) hroom 0x0C01 4 (p4 [u])
  simp only [State.canState, hstate, hmin]
  rw [if_pos ⟨trivial, hwas⟩]
  refine Eq.trans ?_ (serFlush_none (s := offer (written s (busOffWrites u rec)) _ _) (b := .can) hqueue)
  refine congrArg (State.serFlush · .can u) (Eq.trans ?_ hevent)
  rw [← runAll_eq_written]
  rfl

/-! ### Frames that pass, and frames that are dropped (R390, R392) -/

/-- The queue of frames to send. -/
def withQueue (s : State) (queue : List SerTx) : State := s.modBus fun t => { t with queue := queue }

theorem written_withQueue (s : State) (queue : List SerTx) (l : List RegOp) :
    written (withQueue s queue) l = withQueue (written s l) queue := written_of_regs (s := s) (u := withQueue s queue) rfl l

theorem exec_serialTxLaunch {s : State} {dt : Nat} {blk : SerBlk} {who : SerWho} {x : SerTx}
    (hlaunch : (s.elapse dt).serLaunch blk who = some x) (hmay : s.serMay blk x.unit = true) (hidle : s.serBusy blk x.unit = false)
    (hquiet : (s.elapse dt).serQuiet blk x.unit = true) (hfd : s.canFdOk blk x.unit x.ident = true) :
    exec (.serialTxLaunch dt blk who) s = .next (withQueue (s.elapse dt)
      (s.bus.queue.map fun y => if y = x then { y with started := true } else y)) := by
  have hstarts : ((s.elapse dt).serMay blk x.unit && !(s.elapse dt).serBusy blk x.unit && (s.elapse dt).serQuiet blk x.unit &&
      (s.elapse dt).canFdOk blk x.unit x.ident) = true := by
    rw [show (s.elapse dt).serMay blk x.unit = true from hmay, show (s.elapse dt).serBusy blk x.unit = false from hidle, hquiet,
      show (s.elapse dt).canFdOk blk x.unit x.ident = true from hfd]
    rfl
  refine congrArg Host.Outcome.next ?_
  simp only [hlaunch]
  exact if_pos hstarts

/-- What a launch finds waits in the queue, and its time has come. -/
theorem serLaunch_some {s : State} {blk : SerBlk} {who : SerWho} {x : SerTx} (h : s.serLaunch blk who = some x) :
    x ∈ s.bus.queue ∧ x.blk = serIdx blk ∧ x.launch ≤ s.time.mt := by
  have htest := List.find?_some h
  simp only [Bool.and_eq_true, beq_iff_eq, decide_eq_true_eq] at htest
  exact ⟨List.mem_of_find?_eq_some h, htest.1.1, htest.1.2⟩

/-- The frame of a controller has left its line. -/
def lineLeft (s : State) (blk : SerBlk) (u : Nat) : State :=
  match blk with
  | .can => s.canSentOk u
  | .ser => s.serLeft u
  | .mvb => s

theorem exec_serialTxDone {s : State} {dt : Nat} {blk : SerBlk} {u : Fin 4} {x : SerTx}
    (hnext : (s.elapse dt).serNext blk u.val = some x) (hmay : s.serMay blk u.val = true) (hentry : x.entry.isSome = true) :
    exec (.serialTxDone dt blk u) s = .next
      (lineLeft (withQueue (written (s.elapse dt) [.count (serSent blk u.val) 1]) (s.bus.queue.erase x)) blk u.val) := by
  have hnone : x.entry.isNone ≠ true := by simpa [Option.isSome_iff_ne_none] using hentry
  have hacts : (s.elapse dt).serMay blk u.val = true := hmay
  refine congrArg Host.Outcome.next ?_
  simp only [hnext, ← inc64_eq_written]
  refine (if_pos hacts).trans ((if_neg hnone).trans ?_)
  cases blk <;> rfl

/-- The queued frames of entries of an RS-485 port that have waited too long. -/
def stale (s : State) (dt u : Nat) (x : SerTx) : Bool :=
  x.blk == serIdx .ser && (x.unit == u && x.entry.isSome && !x.started && decide (x.launch + 250000 ≤ (s.elapse dt).time.mt))

/-- Frames of entries that are dropped are counted one by one. -/
theorem foldl_serGone {b : SerBlk} {u r : Nat} {out : List SerTx} (h : ∀ x ∈ out, x.unit = u ∧ x.entry.isSome = true) (s : State) :
    out.foldl (fun s x => s.serGone b x r) s = written s (List.replicate out.length (.count (serTxDrop b u r) 1)) := by
  induction out generalizing s with
  | nil => exact (written_nil s).symm
  | cons x out ih =>
    obtain ⟨hunit, hentry⟩ := h x List.mem_cons_self
    have hgone : s.serGone b x r = written s [.count (serTxDrop b u r) 1] := by
      rw [← inc64_eq_written, ← hunit]
      exact if_neg (by simpa [Option.isSome_iff_ne_none] using hentry)
    rw [List.foldl_cons, ih fun y hy => h y (List.mem_cons_of_mem _ hy), hgone, written_written]
    rfl

theorem exec_serTxStale (s : State) (dt : Nat) (u : Fin 4) : exec (.serTxStale dt u) s = .next
    (withQueue (written (s.elapse dt) (List.replicate (s.bus.queue.filter (stale s dt u.val)).length (.count (serTxDrop .ser u.val 1) 1)))
      (s.bus.queue.filter fun x => !stale s dt u.val x)) := by
  have hunits : ∀ x ∈ s.bus.queue.filter (stale s dt u.val), x.unit = u.val ∧ x.entry.isSome = true := by
    intro x hx
    have hstale := (List.mem_filter.mp hx).2
    simp only [stale, Bool.and_eq_true, beq_iff_eq] at hstale
    exact ⟨hstale.2.1.1.1, hstale.2.1.1.2⟩
  rw [← written_withQueue, ← foldl_serGone hunits]
  rfl

/-! ### Error frames and recovery (R394) -/

theorem exec_canErrorFrame {s : State} {dt : Nat} {u : Fin 4} (hlive : s.serLive .can u.val = true) (role : CanErr) (more : Nat) :
    exec (.canErrorFrame dt u role more) s = .next ((written (s.elapse dt) [.count (Reg.CAN_ERRFRAMES u.val) 1]).canState u.val
      (errTec s u.val role more) (errRec s u.val role more)) := by
  have hu := u.isLt
  have hkept := regsKept_written (s.elapse dt) [.count (Reg.CAN_ERRFRAMES u.val) 1]
  have hout : Reg.CAN_ERR u.val ∉ ([.count (Reg.CAN_ERRFRAMES u.val) 1] : List RegOp).flatMap RegOp.words := by
    simp [RegOp.words]
    grind
  have htec := getF_of_regsKept hkept (f := Fld.CAN_ERR_TEC u.val) (Nat.le_of_ble_eq_true rfl) hout
  have hrec := getF_of_regsKept hkept (f := Fld.CAN_ERR_REC u.val) (Nat.le_of_ble_eq_true rfl) hout
  have hacts : (s.elapse dt).serLive .can u.val = true := hlive
  refine congrArg Host.Outcome.next ((if_pos hacts).trans ?_)
  rw [inc64_eq_written, canErr_eq, errTec, htec, errRec, hrec]
  rfl

/-! ### What the registers show -/

section
variable {s t : State}

theorem sent_counted (hs : s.regsWf = true) {b : SerBlk} {u : Fin 4} (ht : t.regs = (runAll s [.count (serSent b u.val) 1]).regs) :
    Counted (serSent b u.val) 1 s t := by
  rw [Counted, rd64_of_regs hs ht]
  simp [RegOp.see]

/-- The line of an RS-485 port whose frame has left. -/
theorem line_left {u : Fin 4} {queue : List SerTx} :
    tget (lineLeft (withQueue (written s [.count (serSent .ser u.val) 1]) queue) .ser u.val).bus.idleFrom u.val = s.time.clock ∧
      tget (lineLeft (withQueue (written s [.count (serSent .ser u.val) 1]) queue) .ser u.val).bus.driven u.val =
        s.time.clock + s.serBitNs u.val := by
  refine ⟨tget_tset_self .., (tget_tset_self ..).trans (congrArg (s.time.clock + ·) ?_)⟩
  have hu := u.isLt
  have hkept := regsKept_written s [.count (serSent .ser u.val) 1]
  have hdiv : (written s [.count (serSent .ser u.val) 1]).getF (Fld.SER_BAUD_DIV u.val) = s.getF (Fld.SER_BAUD_DIV u.val) :=
    getF_of_regsKept hkept (Nat.le_of_ble_eq_true rfl) (by simp [RegOp.words, serSent, serCnt, serIdx, serCat, catIndex]; grind)
  show (max 256 (State.getF _ _) * 25 + 63) / 64 = (max 256 (s.getF _) * 25 + 63) / 64
  exact congrArg (fun n => (max 256 n * 25 + 63) / 64) hdiv

/-- What a controller that has sent a frame without error writes. -/
def sentWrites (u tec rec : Nat) : List RegOp := .count (serSent .can u) 1 :: calmWrites u tec rec

theorem lineLeft_can {u : Fin 4} {queue : List SerTx} (htec : s.getF (Fld.CAN_ERR_TEC u.val) < 128)
    (hrec : s.getF (Fld.CAN_ERR_REC u.val) < 128) :
    lineLeft (withQueue (written s [.count (serSent .can u.val) 1]) queue) .can u.val =
      withQueue (written s (sentWrites u.val (s.getF (Fld.CAN_ERR_TEC u.val) - 1) (s.getF (Fld.CAN_ERR_REC u.val)))) queue := by
  have hu := u.isLt
  have hkept : RegsKept _ s (withQueue (written s [.count (serSent .can u.val) 1]) queue) :=
    regsKept_written s [.count (serSent .can u.val) 1]
  have hout : Reg.CAN_ERR u.val ∉ ([.count (serSent .can u.val) 1] : List RegOp).flatMap RegOp.words := by
    simp [RegOp.words, serSent, serCnt, serIdx, serCat, catIndex]
    grind
  have htec' := getF_of_regsKept hkept (f := Fld.CAN_ERR_TEC u.val) (Nat.le_of_ble_eq_true rfl) hout
  have hrec' := getF_of_regsKept hkept (f := Fld.CAN_ERR_REC u.val) (Nat.le_of_ble_eq_true rfl) hout
  show State.canSentOk _ u.val = _
  rw [State.canSentOk, htec', hrec', canState_calm (by omega) hrec, written_withQueue, written_written]
  rfl

theorem sent_can (hs : s.regsWf = true) {u : Fin 4} {tec rec : Nat} (ht : t.regs = (runAll s (sentWrites u.val (tec - 1) rec)).regs)
    (htec : tec < 128) : Counted (serSent .can u.val) 1 s t ∧ t.getF (Fld.CAN_ERR_TEC u.val) = tec - 1 := by
  have hu := u.isLt
  constructor
  · rw [Counted, rd64_of_regs hs ht]
    simp (disch := grind) [sentWrites, calmWrites, RegOp.see, serSent, serCnt, serIdx, serCat, catIndex]
  · rw [getF_of_regs hs ht]
    simp (disch := grind) [sentWrites, calmWrites, RegOp.see]
    omega

theorem state_of_live {u : Nat} (h : s.serLive .can u = true) : s.getF (Fld.CAN_ERR_STATE u) ≠ 2 := by
  intro hoff
  simp [State.serLive, State.busOff, hoff] at h

theorem canState_busOff_counted {u : Fin 4} {tec rec : Nat} (htec : 255 < tec) (hwas : s.getF (Fld.CAN_ERR_STATE u.val) ≠ 2)
    (hroom : PortRoom s 0x0D) (hqueue : (s.bus.queue.all fun x => x.blk != serIdx .can || x.unit != u.val) = true) :
    (written s [.count (Reg.CAN_ERRFRAMES u.val) 1]).canState u.val tec rec =
      offer (written s (.count (Reg.CAN_ERRFRAMES u.val) 1 :: busOffWrites u.val rec)) 0x0D
        ⟨0x0E, 0x0C01, 4, coll s .can, s.time.mt, p4 [u.val]⟩ := by
  have hu := u.isLt
  have hkept := regsKept_written s [.count (Reg.CAN_ERRFRAMES u.val) 1]
  have hstate : (written s [.count (Reg.CAN_ERRFRAMES u.val) 1]).getF (Fld.CAN_ERR_STATE u.val) = s.getF (Fld.CAN_ERR_STATE u.val) :=
    getF_of_regsKept hkept (Nat.le_of_ble_eq_true rfl) (by simp [RegOp.words]; grind)
  have hcoll : coll (written s (.count (Reg.CAN_ERRFRAMES u.val) 1 :: busOffWrites u.val rec)) .can = coll s .can := by
    have hword := regsKept_written s (.count (Reg.CAN_ERRFRAMES u.val) 1 :: busOffWrites u.val rec) (serIdx .can * 0x10000 + 4)
      (by simp [busOffWrites, RegOp.words, serIdx, serCat, catIndex]; grind)
    simp only [coll, State.rd, hword]
    rfl
  rw [canState_busOff (s := written s [.count (Reg.CAN_ERRFRAMES u.val) 1]) htec (by rwa [hstate]) hroom hqueue, written_written]
  exact congrArg (fun c => offer _ 0x0D ⟨0x0E, 0x0C01, 4, c, s.time.mt, p4 [u.val]⟩) hcoll

theorem shown_busOff (hs : s.regsWf = true) {u : Fin 4} {rec : Nat}
    (ht : t.regs = (runAll s (.count (Reg.CAN_ERRFRAMES u.val) 1 :: busOffWrites u.val rec)).regs) :
    Counted (Reg.CAN_ERRFRAMES u.val) 1 s t ∧ t.getF (Fld.CAN_ERR_STATE u.val) = 2 ∧ t.getF (Fld.CAN_ERR_TEC u.val) = 255 ∧
      t.getF (Fld.CAN_ERR_REC u.val) = min rec 255 ∧ Counted (Reg.CAN_BUSOFF u.val) 1 s t := by
  have hu := u.isLt
  have hmin : min rec 255 % 256 = min rec 255 := by omega
  refine ⟨?_, ?_, ?_, ?_, ?_⟩
  case refine_1 | refine_5 =>
    rw [Counted, rd64_of_regs hs ht]
    simp (disch := grind) [busOffWrites, RegOp.see]
  all_goals rw [getF_of_regs hs ht]
  all_goals simp (disch := grind) [busOffWrites, RegOp.see, hmin]

theorem shown_calm (hs : s.regsWf = true) {u : Fin 4} {tec rec : Nat}
    (ht : t.regs = (runAll s ([.count (Reg.CAN_ERRFRAMES u.val) 1] ++ calmWrites u.val tec rec)).regs) (htec : tec < 128)
    (hrec : rec < 128) :
    Counted (Reg.CAN_ERRFRAMES u.val) 1 s t ∧ t.getF (Fld.CAN_ERR_STATE u.val) = 0 ∧ t.getF (Fld.CAN_ERR_TEC u.val) = tec ∧
      t.getF (Fld.CAN_ERR_REC u.val) = rec := by
  have hu := u.isLt
  refine ⟨?_, ?_, ?_, ?_⟩
  case refine_1 =>
    rw [Counted, rd64_of_regs hs ht]
    simp (disch := grind) [calmWrites, RegOp.see]
  all_goals rw [getF_of_regs hs ht]
  all_goals simp (disch := grind) [calmWrites, RegOp.see]
  all_goals omega

end

/-- Settles O52: each command leads to the state of its lemma, whose register program gives what it counts and shows. -/
theorem serialTransmit : Obligations.SerialTransmit := by
  intro s dt hwf
  have hs : (s.elapse dt).regsWf = true := (Bool.and_eq_true_iff.mp hwf).1
  refine ⟨?answered, ?unserved, ?device, ?launch, ?done, ?stale, ?busOff, ?calm, ?recovered⟩
  case answered =>
    intro port i hlive hfind hcustody
    have hexec := exec_mvbMasterFrame (dt := dt) hlive port
    rw [mvbPort_found (s := s.elapse dt) hfind, if_neg] at hexec
    · obtain ⟨hoffered, hsent, hkept⟩ := answered_mvb hs (regs_written (s.elapse dt) answerWrites)
      exact ⟨_, hexec, hoffered, hsent, hkept, fun _ => rfl, rfl⟩
    · intro hno
      obtain ⟨hbit, hserves⟩ := Bool.and_eq_true_iff.mp hno
      obtain hfree | hserving := hcustody
      · exact Bool.false_ne_true (hfree.symm.trans hbit)
      · exact Bool.false_ne_true ((congrArg (!·) hserving).symm.trans hserves)
  case unserved =>
    intro port i hlive hfind hbit hserves
    have hexec := exec_mvbMasterFrame (dt := dt) hlive port
    have hno : ((Machine.ent ((s.elapse dt).catEntry .mvb i) 0 1).testBit 3 && !(s.elapse dt).serves) = true :=
      Bool.and_eq_true_iff.mpr ⟨hbit, congrArg (!·) hserves⟩
    rw [mvbPort_found (s := s.elapse dt) hfind, if_pos hno] at hexec
    refine ⟨_, hexec, ?_, regsKept_written (s.elapse dt) [.count (serNoCust .mvb 0) 1], fun _ => rfl, rfl⟩
    rw [Counted, rd64_of_regs hs (regs_written ..)]
    simp (disch := decide) [RegOp.see]
  case device =>
    intro addr hlive haddr
    obtain ⟨hoffered, hsent, hkept⟩ := answered_mvb hs (regs_written (s.elapse dt) answerWrites)
    exact ⟨_, exec_mvbMasterFrame_device hlive haddr, hoffered, hsent, hkept, fun _ => rfl, rfl⟩
  case launch =>
    intro blk who x hlaunch hmay hidle hquiet hfd
    obtain ⟨hmem, hblk, htime⟩ := serLaunch_some hlaunch
    exact ⟨_, exec_serialTxLaunch hlaunch hmay hidle hquiet hfd, hmem, hblk, htime, rfl, fun _ _ => rfl, fun _ => rfl, rfl⟩
  case done =>
    intro blk u x hnext hmay hentry hcalm
    have hexec := exec_serialTxDone hnext hmay hentry
    have hu := u.isLt
    cases blk with
    | mvb =>
      refine ⟨_, hexec, ?_, rfl, nofun, nofun, fun _ => ⟨rfl, rfl⟩,
        regsKept_written (s.elapse dt) [.count (serSent .mvb u.val) 1], fun _ => rfl, rfl⟩
      exact sent_counted hs (regs_written (s.elapse dt) _)
    | can =>
      obtain ⟨htec, hrec, -⟩ := hcalm rfl
      rw [lineLeft_can (s := s.elapse dt) htec hrec] at hexec
      have hr := regs_written (s.elapse dt)
        (sentWrites u.val (s.getF (Fld.CAN_ERR_TEC u.val) - 1) (s.getF (Fld.CAN_ERR_REC u.val)))
      obtain ⟨hcount, hshown⟩ := sent_can hs hr htec
      exact ⟨_, hexec, hcount, rfl, fun _ => hshown, nofun, fun _ => ⟨rfl, rfl⟩,
        regsKept_of_regs (s := s.elapse dt) hr (by simp [sentWrites, calmWrites, RegOp.words]), fun _ => rfl, rfl⟩
    | ser =>
      refine ⟨_, hexec, ?_, rfl, nofun, fun _ => line_left (s := s.elapse dt), fun h => absurd rfl h,
        regsKept_written (s.elapse dt) [.count (serSent .ser u.val) 1], fun _ => rfl, rfl⟩
      exact sent_counted hs (regs_written (s.elapse dt) _)
  case stale =>
    intro u
    have hr := regs_written (s.elapse dt)
      (List.replicate (s.bus.queue.filter (stale s dt u.val)).length (.count (serTxDrop .ser u.val 1) 1))
    refine ⟨_, exec_serTxStale s dt u, rfl, ?_, regsKept_of_regs (s := s.elapse dt) hr (words_replicate ..), fun _ => rfl, rfl⟩
    refine (rd64_of_regs hs hr (serTxDrop .ser u.val 1)).trans ?_
    exact View.rd64_replicate_count ..
  case busOff =>
    rintro u role more tec rxe hlive rfl rfl htec hroom hqueue
    have hwas : s.getF (Fld.CAN_ERR_STATE u.val) ≠ 2 := state_of_live hlive
    have hexec := exec_canErrorFrame (dt := dt) hlive role more
    rw [canState_busOff_counted (s := s.elapse dt) (tec := errTec s u.val role more) htec hwas hroom hqueue] at hexec
    have hr := regs_written (s.elapse dt) (.count (Reg.CAN_ERRFRAMES u.val) 1 :: busOffWrites u.val (errRec s u.val role more))
    obtain ⟨hframes, hstate, hshown, hrec, hoff⟩ := shown_busOff hs hr
    exact ⟨_, hexec, hframes, hstate, hshown, hrec, hoff, rfl, offered_of_ports rfl,
      regsKept_of_regs (s := s.elapse dt) hr (by simp [busOffWrites, RegOp.words]), fun _ => rfl, rfl⟩
  case calm =>
    rintro u role more tec rxe hlive rfl rfl htec hrec
    have hexec := exec_canErrorFrame (dt := dt) hlive role more
    rw [canState_calm (tec := errTec s u.val role more) (rec := errRec s u.val role more) htec hrec, written_written] at hexec
    have hr := regs_written (s.elapse dt)
      ([.count (Reg.CAN_ERRFRAMES u.val) 1] ++ calmWrites u.val (errTec s u.val role more) (errRec s u.val role more))
    obtain ⟨hframes, hstate, hshown, hshownRec⟩ := shown_calm hs hr htec hrec
    exact ⟨_, hexec, hframes, hstate, hshown, hshownRec,
      regsKept_of_regs (s := s.elapse dt) hr (by simp [calmWrites, RegOp.words]), fun _ => rfl, rfl⟩
  case recovered =>
    intro u hoff hauto hon
    have hr := regs_written (s.elapse dt) [.word (Reg.CAN_ERR u.val) 0]
    have hacts : ((s.elapse dt).busOff .can u.val && (s.elapse dt).bit (Fld.CAN_CTL_AUTOREC u.val) && (s.elapse dt).serOn .can u.val) =
        true := by
      rw [show (s.elapse dt).busOff .can u.val = true from hoff, bit_elapse, hauto]
      exact hon
    refine ⟨_, congrArg Host.Outcome.next ((if_pos hacts).trans (wr_eq_written ..)), ?_, ?_,
      regsKept_written (s.elapse dt) [.word (Reg.CAN_ERR u.val) 0], fun _ => rfl, rfl⟩
    · rw [rd_of_regs hs hr]
      simp [RegOp.see]
    · rw [State.busOff, getF_of_regs hs hr]
      simp [RegOp.see, View.getF]

end Sys2Proof.Proofs.SerialSends

/-! A posting ring of the Provenance log may lie on the counts of time (R538, R540). -/

namespace Sys2Proof.Proofs.ClockRecord

open Sys2Proof Sys2Proof.Machine

-- Theorems that the kernel evaluates are checked one after the other: side by side they take more memory than there is.
set_option Elab.async false

/-- Posting ring 0 lies on TIM_MT and what follows it, so that the time of its posted record is TIM_MONO and its kind TIM_BEAT: the
counterexample to O38. -/
def clockRing : State :=
  let s := State.reset.wr64 (ringRegs .prv 0).base 0xF000010000
  let s := s.wr (ringRegs .prv 0).ctl (0x80000000 + 4)
  let s := s.modRing .prv 0 fun r => { r with tail := 1 }
  { s with time := { s.time with mt := 0, mono := 100, beat := 1, beatSeq := 0, edgeAt := 10000 } }

/-- The times of the records that an outcome has staged. -/
def stagedOf : Host.Outcome State Fault Refusal → List Nat
  | .next t => t.prv.staged.map fun x => x.body.mt
  | _ => []

theorem staged_clockRing : stagedOf (exec (.prvRecordPost 5 (.ring 0)) clockRing) = [105] := by decide +kernel

/-- Refutes O38: the statement takes the record from the descriptor as it reads before module time goes on. -/
theorem not_provenance : ¬ Obligations.Provenance := by
  intro h
  obtain ⟨hring, -⟩ := h clockRing 5 (by decide +kernel)
  obtain ⟨t, hexec, hrecord, -⟩ := hring 0 _ (by decide +kernel) (by decide +kernel) (by decide +kernel) (by decide +kernel)
    (by decide +kernel) rfl (by decide +kernel) (by decide +kernel) (by decide +kernel) (by decide +kernel) (by decide +kernel)
    (by decide +kernel)
  have hstaged := staged_clockRing
  rw [hexec] at hstaged
  have htimes := congrArg (List.map fun x : PrvStored => x.body.mt) hrecord
  exact absurd (hstaged.symm.trans htimes) (by decide +kernel)

end Sys2Proof.Proofs.ClockRecord

/-! Brake tests in states that the feedback check and the end of a test leave as they are (R151 to R153). -/

namespace Sys2Proof.Proofs.BrakeStates

open Sys2Proof Sys2Proof.Machine

-- Theorems that the kernel evaluates are checked one after the other: side by side they take more memory than there is.
set_option Elab.async false

/-- An image whose instance 0 is a safe brake control over pair 0 with its feedback at input 0. -/
def brakeImage : List Byte := List.replicate 128 0 ++ [1, 0x80, 0, 0x80] ++ List.replicate 252 0

/-- Garnet runs that image, and pair 0 awaits its feedback while a brake test of it runs: the counterexample to O24. -/
def testAwaits : State :=
  let s := (State.reset.setF Fld.GAR_STATUS_STATE 1).modGar fun g => { g with powered := true, active := some brakeImage }
  s.modPair 0 fun p => { p with
    feedback := some (true, 0), test := some { start := 0, applied := none, aborted := false } }

/-- Pair 0 ends an aborted brake test while its instance is in lock-out: the counterexample to O25. -/
def abortLocked : State :=
  let s := State.reset.setF Fld.GAR_STATUS_LOCKED 1
  let s := s.modGar fun g => { g with powered := true, active := some brakeImage }
  s.modPair 0 fun p => { p with test := some { start := 0, applied := none, aborted := true } }

/-- Whether instance 0 is in lock-out after an outcome, and what it shows as its state. -/
def lockOf : Host.Outcome State Fault Refusal → Bool × Nat
  | .next t => (t.locked 0, t.getF (Fld.GAR_INST_STATE 0))
  | _ => (false, 0)

theorem lock_testAwaits : lockOf (exec (.feedbackTimeout 0 0) testAwaits) = (false, 0) := by decide +kernel

/-- Refutes O24: the statement does not ask that no brake test of the pair runs, which makes the feedback check itself. -/
theorem not_garnetOutputs : ¬ Obligations.GarnetOutputs := by
  intro h
  obtain ⟨-, -, -, hfeedback, -⟩ := h testAwaits 0 (by decide +kernel)
  obtain ⟨t, hexec, hlocked, -⟩ := hfeedback 0 0 0 (by decide +kernel) (by decide +kernel) (by decide +kernel)
    (by decide +kernel) (by decide +kernel) (by decide +kernel) (by decide +kernel)
  have hlock := lock_testAwaits
  rw [hexec] at hlock
  exact absurd ((congrArg Prod.fst hlock).symm.trans hlocked) (by decide)

theorem lock_abortLocked : lockOf (exec (.brakeTestAbortEnd 0 0) abortLocked) = (true, 0) := by decide +kernel

/-- Refutes O25: the statement does not ask that the instance is out of lock-out, in which its state stays as it is. -/
theorem not_garnetBrakeTests : ¬ Obligations.GarnetBrakeTests := by
  intro h
  obtain ⟨-, -, -, habort, -⟩ := h abortLocked 0 (by decide +kernel)
  obtain ⟨t, hexec, -, hstate, -⟩ := habort 0 { start := 0, applied := none, aborted := true } 0 (by decide +kernel) rfl
    (by decide +kernel) (by decide +kernel)
  have hlock := lock_abortLocked
  rw [hexec] at hlock
  exact absurd ((congrArg Prod.snd hlock).symm.trans hstate) (by decide)

end Sys2Proof.Proofs.BrakeStates

/-! A program of writes after another one. -/

namespace Sys2Proof.Proofs.RegOps

open Sys2Proof Sys2Proof.Machine

/-- The registers of a state that a second program wrote, where a first one left the registers before it. -/
theorem regs_written_append {s u : State} {l : List RegOp} (h : u.regs = (runAll s l).regs) (m : List RegOp) :
    (written u m).regs = (runAll s (l ++ m)).regs := by
  rw [regs_written_of h, runAll, runAll, runAll, List.foldl_append]

end Sys2Proof.Proofs.RegOps

/-! Field outputs: thermal trips, diagnoses, the watchdog and the fail state (R262, R264, R265, R270). -/

namespace Sys2Proof.Proofs.FieldOutputStates

open Sys2Proof Sys2Proof.Machine Sys2Proof.Laws Sys2Proof.Proofs.Time Sys2Proof.Proofs.Power Sys2Proof.Proofs.RegOps

/-- The collection of field I/O events: that of FIO_EVCOLL, or 0 where it names none. -/
def coll (s : State) : Nat := if 55 < s.getF Fld.FIO_EVCOLL_COLL then 0 else s.getF Fld.FIO_EVCOLL_COLL

theorem fioEvent_of_room {s : State} (h : PortRoom s 0x07) (code sev : Nat) (payload : List Byte) :
    s.fioEvent code sev payload = offer s 0x07 ⟨0x08, code, sev, coll s, s.time.mt, payload⟩ := emit_eq_offer h ..

theorem coll_of_regs {s t : State} {l : List RegOp} (ht : t.regs = (runAll s l).regs)
    (hout : Reg.FIO_EVCOLL ∉ l.flatMap RegOp.words) : coll t = coll s := by
  simp only [coll, getF_of_regsKept (regsKept_of_regs ht fun _ h => h) (f := Fld.FIO_EVCOLL_COLL) (by decide) hout]

theorem coll_written {s : State} {l : List RegOp} (hout : Reg.FIO_EVCOLL ∉ l.flatMap RegOp.words) :
    coll (written s l) = coll s := coll_of_regs (regs_written s l) hout

/-- What FIO_CHSTAT shows of a channel (R277). -/
def chStat (s : State) (c : Nat) : Nat :=
  (if (s.fioCh c).lost then 0 else (s.fioCh c).mode) + 8 * b2n (s.fioValue c) + 16 * b2n (s.fioCh c).term
    + 32 * b2n (s.fioCh c).cplFault + 64 * b2n (s.fioCh c).failAt.isSome + 128 * b2n (s.fioCh c).cfgErr + 256 * s.fioDiag c

theorem fioShow_eq_written (s : State) (c : Nat) : s.fioShow c = written s [.word (Reg.FIO_CHSTAT c) (chStat s c)] :=
  wr_eq_written ..

/-- FIO_CHSTAT tells the fail state of a channel of a mode that its three bits hold. -/
theorem chStat_failState {s : State} {c : Nat} (hmode : (s.fioCh c).mode = 3) (hfail : (s.fioCh c).failAt.isSome = true) :
    chStat s c / 64 % 2 = 1 := by
  have hbit (b : Bool) : b2n b ≤ 1 := by cases b <;> decide
  have hvalue := hbit (s.fioValue c)
  have hterm := hbit (s.fioCh c).term
  have hfault := hbit (s.fioCh c).cplFault
  have hshown : (if (s.fioCh c).lost then 0 else (s.fioCh c).mode) ≤ 3 := by split <;> omega
  rw [chStat, hfail, b2n_true]
  omega

theorem fioCh_modCh_self (s : State) (c : Nat) (f : FioCh → FioCh) : (s.modCh c f).fioCh c = f (s.fioCh c) := tget_tmod_self ..

theorem fioCh_modCh_ne (s : State) {c k : Nat} (h : k ≠ c) (f : FioCh → FioCh) : (s.modCh c f).fioCh k = s.fioCh k :=
  tget_tmod_ne _ (Ne.symm h) _

/-- An output that is thermally off, or that its fail state has opened, does not drive. -/
theorem fioDriven_off {s : State} {c : Nat} (h : (s.fioCh c).therm = true ∨ (s.fioCh c).opened = true) :
    s.fioDriven c = false := by
  unfold State.fioDriven
  rcases h with h | h <;> simp [h]

/-! ### The states after the commands -/

/-- A change of one channel that FIO_CHSTAT shows. -/
def shown (s : State) (c : Nat) (f : FioCh → FioCh) : State := (s.modCh c f).fioShow c

section
variable (s : State) (c : Nat) (f : FioCh → FioCh)

theorem shown_eq : shown s c f = written (s.modCh c f) [.word (Reg.FIO_CHSTAT c) (chStat (s.modCh c f) c)] :=
  fioShow_eq_written ..

theorem fioCh_shown_self : (shown s c f).fioCh c = f (s.fioCh c) := by
  rw [shown_eq]
  exact fioCh_modCh_self ..

theorem fioCh_shown_ne {k : Nat} (h : k ≠ c) : (shown s c f).fioCh k = s.fioCh k := by
  rw [shown_eq]
  exact fioCh_modCh_ne s h f

theorem shown_leaves (dt : Nat) : Leaves dt [Reg.FIO_CHSTAT c] s (shown (s.elapse dt) c f)
    { shown (s.elapse dt) c f with fio := { (shown (s.elapse dt) c f).fio with ch := s.fio.ch } } := by
  rw [shown_eq]
  have hr := regs_written_of (s := s.elapse dt) (u := (s.elapse dt).modCh c f) rfl
    [.word (Reg.FIO_CHSTAT c) (chStat ((s.elapse dt).modCh c f) c)]
  exact ⟨regsKept_of_regs (s := s.elapse dt) hr (List.Subset.refl _), fun _ => rfl, rfl⟩

end

def tripped (x : FioCh) : FioCh := { x with therm := true, curlim := false }

/-- An output trips: counted, reported and shown. -/
def thermTrip (s : State) (c : Nat) : State :=
  let u := offer (written (s.modCh c tripped) [.count (Reg.FIO_TRIPS c) 1]) 0x07 ⟨0x08, 0x0606, 3, coll s, s.time.mt, p4 [c]⟩
  written u [.word (Reg.FIO_CHSTAT c) (chStat u c)]

section
variable {s : State} {dt : Nat} {ch : Fin 32}

theorem exec_fioThermal (hmode : (s.fioCh ch.val).mode = 3) (hcool : (s.fioCh ch.val).therm = false) (hroom : PortRoom s 0x07) :
    exec (.fioThermal dt ch) s = .next (thermTrip (s.elapse dt) ch.val) := by
  have hacts : ((s.elapse dt).fioCh ch.val).mode = 3 ∧ (!((s.elapse dt).fioCh ch.val).therm) = true :=
    ⟨hmode, congrArg (!·) hcool⟩
  have hcount : ((s.elapse dt).inc64 (Reg.FIO_TRIPS ch.val)).modCh ch.val tripped =
      written ((s.elapse dt).modCh ch.val tripped) [.count (Reg.FIO_TRIPS ch.val) 1] := by
    rw [inc64_eq_written, written_of_regs (s := s.elapse dt) (u := (s.elapse dt).modCh ch.val tripped) rfl]
    rfl
  have hcoll : coll (written ((s.elapse dt).modCh ch.val tripped) [.count (Reg.FIO_TRIPS ch.val) 1]) = coll (s.elapse dt) :=
    coll_written (by simp [RegOp.words]; grind)
  have hevent := fioEvent_of_room (s := written ((s.elapse dt).modCh ch.val tripped) [.count (Reg.FIO_TRIPS ch.val) 1]) hroom
    0x0606 3 (p4 [ch.val])
  rw [hcoll] at hevent
  refine congrArg Host.Outcome.next ((if_pos hacts).trans ?_)
  exact (congrArg (fun u : State => (u.fioEvent 0x0606 3 (p4 [ch.val])).fioShow ch.val) hcount).trans
    ((congrArg (fun u : State => u.fioShow ch.val) hevent).trans (fioShow_eq_written ..))

theorem thermTrip_regs (s : State) (c : Nat) : ∃ v, (thermTrip s c).regs =
    (runAll s [.count (Reg.FIO_TRIPS c) 1, .word (Reg.FIO_CHSTAT c) v]).regs :=
  ⟨_, regs_written_append (u := offer (written (s.modCh c tripped) [.count (Reg.FIO_TRIPS c) 1]) 0x07 _)
    (regs_written_of (s := s) (u := s.modCh c tripped) rfl [.count (Reg.FIO_TRIPS c) 1]) _⟩

theorem exec_thermalRestart :
    exec (.thermalRestart dt ch) s = .next (shown (s.elapse dt) ch.val fun x => { x with therm := false }) := rfl

/-! ### Diagnoses (R264, R265) -/

def limiting (current : Bool) (x : FioCh) : FioCh := { x with curlim := current, lastDiag := 0, diagAt := none }

theorem exec_outputDiagTest_on {withTest withoutTest : Nat} {current : Bool} (hmode : (s.fioCh ch.val).mode = 3)
    (hsampling : s.fioSampling (fioGroupOf ch.val) = true) (hlatch : (s.fioCh ch.val).latch = true)
    (hclosed : (s.fioCh ch.val).opened = false) :
    exec (.outputDiagTest dt ch withTest withoutTest current) s =
      .next (shown (s.elapse dt) ch.val (limiting current)) := by
  have hacts : ¬ (((s.elapse dt).fioCh ch.val).mode ≠ 3 ∨ (!(s.elapse dt).fioSampling (fioGroupOf ch.val)) = true) := by
    rw [not_or, not_not]
    exact ⟨hmode, by rw [show (s.elapse dt).fioSampling (fioGroupOf ch.val) = true from hsampling]; decide⟩
  have hon : (((s.elapse dt).fioCh ch.val).latch && !((s.elapse dt).fioCh ch.val).opened) = true := by
    show ((s.fioCh ch.val).latch && !(s.fioCh ch.val).opened) = true
    rw [hlatch, hclosed]
    rfl
  exact congrArg Host.Outcome.next ((if_neg hacts).trans (if_pos hon))

/-- An output, commanded off, whose diagnosis has told OPEN_LOAD twice. -/
def openFound (now : Nat) (short : Bool) (x : FioCh) : FioCh :=
  { x with curlim := false, lastDiag := 2, diagAt := some now, openLoad := true, shortVf := short }

def openLoadAt (s : State) (c : Nat) : State :=
  let u := offer (s.modCh c (openFound s.time.clock (s.fioCh c).shortVf)) 0x07 ⟨0x08, 0x0609, 3, coll s, s.time.mt, p4 [c, 3, 1]⟩
  written u [.word (Reg.FIO_CHSTAT c) (chStat u c)]

theorem exec_outputDiagTest_open {withTest withoutTest : Nat} {current : Bool} (hmode : (s.fioCh ch.val).mode = 3)
    (hsampling : s.fioSampling (fioGroupOf ch.val) = true) (hlatch : (s.fioCh ch.val).latch = false)
    (hdiag : (s.fioCh ch.val).diagAt = none) (hold : (s.fioCh ch.val).oldEn = true) (hlast : (s.fioCh ch.val).lastDiag = 2)
    (hopen : (s.fioCh ch.val).openLoad = false) (habove : (s.fioGrp (fioGroupOf ch.val)).vf < 2 * (withTest : Int))
    (hbelow : 2 * (withoutTest : Int) < (s.fioGrp (fioGroupOf ch.val)).vf)
    (hfar : (withoutTest : Int) + 30 ≤ (s.fioGrp (fioGroupOf ch.val)).vf) (hroom : PortRoom s 0x07) :
    exec (.outputDiagTest dt ch withTest withoutTest current) s = .next (openLoadAt (s.elapse dt) ch.val) := by
  have hch : (s.elapse dt).fioCh ch.val = s.fioCh ch.val := rfl
  have hgrp : (s.elapse dt).fioGrp (fioGroupOf ch.val) = s.fioGrp (fioGroupOf ch.val) := rfl
  have hsampling' : (s.elapse dt).fioSampling (fioGroupOf ch.val) = true := hsampling
  have hnear : ¬ (s.fioGrp (fioGroupOf ch.val)).vf < (withoutTest : Int) + 30 := by omega
  have hover : ¬ 2 * (withTest : Int) < (s.fioGrp (fioGroupOf ch.val)).vf := by omega
  have hevent := fioEvent_of_room (s := (s.elapse dt).modCh ch.val (openFound (s.elapse dt).time.clock (s.fioCh ch.val).shortVf)) hroom 0x0609 3
    (p4 [ch.val, 3, 1])
  show execOutputDiagTest dt ch withTest withoutTest current s = _
  simp only [execOutputDiagTest, hch, hgrp, hsampling', hmode, hlatch, hdiag, hold, hlast, hopen, hnear, hover, habove, hbelow, decide_false,
    decide_true, Bool.and_false, Bool.false_and, Bool.and_true, Bool.not_true, Bool.false_eq_true, ne_eq, not_true_eq_false, or_self,
    if_true, if_false, and_self, and_false, OfNat.ofNat_ne_zero, not_false_eq_true, Nat.reduceEqDiff, Bool.true_eq_false]
  refine congrArg Host.Outcome.next ?_
  exact (congrArg (fun u : State => u.fioShow ch.val) hevent).trans (fioShow_eq_written ..)

/-! ### Watchdog and fail state (R270) -/

/-- An output that was not refreshed for its watchdog time. -/
def failing (now : Nat) (alive : Bool) (x : FioCh) : FioCh :=
  { x with
    failAt := some now, opened := !x.hold || x.holdt == 0, failedNow := alive
    curlim := x.curlim && !(!x.hold || x.holdt == 0) }

def watchdogFailed (s : State) (c : Nat) : State :=
  let u := written (s.modCh c (failing s.time.clock true)) [.count (Reg.FIO_WDEXP c) 1]
  written u [.word (Reg.FIO_CHSTAT c) (chStat u c)]

theorem watchdogFailed_regs (s : State) (c : Nat) : (watchdogFailed s c).regs =
    (runAll s [.count (Reg.FIO_WDEXP c) 1, .word (Reg.FIO_CHSTAT c)
      (chStat (written (s.modCh c (failing s.time.clock true)) [.count (Reg.FIO_WDEXP c) 1]) c)]).regs :=
  regs_written_append (regs_written_of (s := s) (u := s.modCh c (failing s.time.clock true)) rfl [.count (Reg.FIO_WDEXP c) 1]) _

theorem exec_outputWatchdogExpiry {at_ : Nat} (href : (s.fioCh ch.val).refAt = some at_) (hmode : (s.fioCh ch.val).mode = 3)
    (hfail : (s.fioCh ch.val).failAt = none) (hdue : at_ + (s.fioCh ch.val).wdt * 250000 ≤ (s.elapse dt).time.clock)
    (hfed : (s.fioCh ch.val).lost = true ∨ s.fioFed ch.val = false) (halive : s.logicAlive = true) :
    exec (.outputWatchdogExpiry dt ch) s = .next (watchdogFailed (s.elapse dt) ch.val) := by
  have hacts : (s.fioCh ch.val).mode = 3 ∧ (s.fioCh ch.val).failAt.isNone = true ∧
      at_ + (s.fioCh ch.val).wdt * 250000 ≤ (s.elapse dt).time.clock ∧
      ((s.fioCh ch.val).lost = true ∨ (!(s.elapse dt).fioFed ch.val) = true) := by
    refine ⟨hmode, by rw [hfail]; rfl, hdue, hfed.imp_right fun h => ?_⟩
    rw [show (s.elapse dt).fioFed ch.val = false from h]
    rfl
  have halive' : (s.elapse dt).logicAlive = true := halive
  show execOutputWatchdogExpiry dt ch s = _
  simp only [execOutputWatchdogExpiry, show (s.elapse dt).fioCh ch.val = s.fioCh ch.val from rfl, href]
  refine congrArg Host.Outcome.next ((if_pos hacts).trans ?_)
  rw [halive']
  refine (if_pos (show ((s.elapse dt).modCh ch.val _).logicAlive = true from halive)).trans ?_
  rw [inc64_eq_written, fioShow_eq_written]
  rfl

theorem exec_failHoldExpiry {at_ : Nat} (hfail : (s.fioCh ch.val).failAt = some at_)
    (hdue : at_ + (s.fioCh ch.val).holdt * 250000 ≤ (s.elapse dt).time.clock) :
    exec (.failHoldExpiry dt ch) s =
      .next (shown (s.elapse dt) ch.val fun x => { x with opened := true, curlim := false }) := by
  show execFailHoldExpiry dt ch s = _
  simp only [execFailHoldExpiry, show (s.elapse dt).fioCh ch.val = s.fioCh ch.val from rfl, hfail]
  exact congrArg Host.Outcome.next (if_pos hdue)

end

/-- Settles O42: each command leads to the state of its lemma. -/
theorem fieldOutputs : Obligations.FieldOutputs := by
  intro s dt hs
  have hw : s.regsWf = true := (Bool.and_eq_true_iff.mp hs).1
  have hu : (s.elapse dt).regsWf = true := hw
  refine ⟨?thermal, ?restart, ?limit, ?openLoad, ?watchdog, ?hold⟩
  case thermal =>
    intro ch hmode hcool hroom
    obtain ⟨v, hr⟩ := thermTrip_regs (s.elapse dt) ch.val
    have hch : (thermTrip (s.elapse dt) ch.val).fioCh ch.val = tripped (s.fioCh ch.val) := fioCh_modCh_self ..
    refine ⟨_, exec_fioThermal hmode hcool hroom, congrArg FioCh.therm hch, fioDriven_off (.inl (congrArg FioCh.therm hch)), ?_,
      offered_of_ports rfl, fun k hk => fioCh_modCh_ne _ hk _, regsKept_of_regs (s := s.elapse dt) hr ?_, fun _ => rfl, rfl⟩
    · rw [Counted, rd64_of_regs hu hr]
      simp (disch := grind) [RegOp.see]
    · simp [RegOp.words]
  case restart =>
    intro ch _
    exact ⟨_, exec_thermalRestart, fioCh_shown_self .., fun k hk => fioCh_shown_ne _ _ _ hk, shown_leaves ..⟩
  case limit =>
    intro ch withTest withoutTest current hmode hsampling hlatch hclosed
    have hch := fioCh_shown_self (s.elapse dt) ch.val (limiting current)
    exact ⟨_, exec_outputDiagTest_on hmode hsampling hlatch hclosed, congrArg FioCh.curlim hch, congrArg FioCh.lastDiag hch,
      fun k hk => fioCh_shown_ne _ _ _ hk, shown_leaves ..⟩
  case openLoad =>
    intro ch withTest withoutTest current hmode hsampling hlatch hdiag hold hlast hopen habove hbelow hfar hroom
    have hch : (openLoadAt (s.elapse dt) ch.val).fioCh ch.val = openFound (s.elapse dt).time.clock (s.fioCh ch.val).shortVf (s.fioCh ch.val) :=
      fioCh_modCh_self ..
    have hr := regs_written_of (s := s.elapse dt) (u := offer ((s.elapse dt).modCh ch.val (openFound (s.elapse dt).time.clock (s.fioCh ch.val).shortVf))
      0x07 ⟨0x08, 0x0609, 3, coll (s.elapse dt), (s.elapse dt).time.mt, p4 [ch.val, 3, 1]⟩) rfl
    exact ⟨_, exec_outputDiagTest_open hmode hsampling hlatch hdiag hold hlast hopen habove hbelow hfar hroom,
      congrArg FioCh.openLoad hch, (congrArg FioCh.shortVf hch).trans rfl, congrArg FioCh.diagAt hch, offered_of_ports rfl,
      fun k hk => fioCh_modCh_ne _ hk _, regsKept_of_regs (s := s.elapse dt) (hr _) (List.Subset.refl _), fun _ => rfl, rfl⟩
  case watchdog =>
    intro ch at_ href hmode hfail hdue hfed halive
    have hch : (watchdogFailed (s.elapse dt) ch.val).fioCh ch.val = failing (s.elapse dt).time.clock true (s.fioCh ch.val) :=
      fioCh_modCh_self ..
    have hr := watchdogFailed_regs (s.elapse dt) ch.val
    have hstat := chStat_failState (s := written ((s.elapse dt).modCh ch.val (failing (s.elapse dt).time.clock true))
      [.count (Reg.FIO_WDEXP ch.val) 1]) (c := ch.val) (hch ▸ hmode) (by exact congrArg (fun x : FioCh => x.failAt.isSome) hch)
    refine ⟨_, exec_outputWatchdogExpiry href hmode hfail hdue hfed halive, congrArg FioCh.failAt hch,
      congrArg FioCh.opened hch, ?_, ?_, fun k hk => fioCh_modCh_ne _ hk _,
      regsKept_of_regs (s := s.elapse dt) hr ?_, fun _ => rfl, rfl⟩
    · rw [Counted, rd64_of_regs hu hr]
      simp (disch := grind) [RegOp.see]
    · rw [bit_of_regs hu hr]
      simp [RegOp.see, View.getF]
      omega
    · simp [RegOp.words]
  case hold =>
    intro ch at_ hfail hdue
    have hch := fioCh_shown_self (s.elapse dt) ch.val fun x => { x with opened := true, curlim := false }
    exact ⟨_, exec_failHoldExpiry hfail hdue, hch, fioDriven_off (.inr (congrArg FioCh.opened hch)),
      fun k hk => fioCh_shown_ne _ _ _ hk, shown_leaves ..⟩

end Sys2Proof.Proofs.FieldOutputStates

/-! What becomes of an occurrence that is offered to a collection of the Archive (R447, R449, R451, R453, R459, R463, R468). -/

namespace Sys2Proof.Proofs.ArchiveOccurrences

open Sys2Proof Sys2Proof.Machine Sys2Proof.Laws Sys2Proof.Proofs.Time Sys2Proof.Proofs.Power Sys2Proof.Proofs.RegOps

/-- The oldest occurrence has left its port. -/
def taken (s : State) (port : Nat) (rest : List Occurrence) : State :=
  s.modArc fun a => { a with ports := tset a.ports port rest }

/-- The Archive takes the oldest occurrence of a port. -/
theorem exec_arcOccurrence {s : State} {dt : Nat} {port : Fin 27} {o : Occurrence} {rest : List Occurrence} {u : State}
    {out : ArcOut} (hcarry : s.arc.carry = false) (hon : s.unitOff 0x12 0 = false) (hport : tget s.arc.ports port.val = o :: rest)
    (hoffer : (taken (s.elapse dt) port.val rest).arcOffer o = (u, some out)) :
    exec (.arcOccurrence dt port) s = .next u := by
  have hacts : ¬ ((s.elapse dt).arc.carry = true ∨ (s.elapse dt).unitOff 0x12 0 = true) := by
    rintro (h | h)
    · exact absurd (hcarry.symm.trans h) (by decide)
    · exact absurd (hon.symm.trans h) (by decide)
  have hhead : tget (s.elapse dt).arc.ports port.val = o :: rest := hport
  refine congrArg Host.Outcome.next ((if_neg hacts).trans ?_)
  rw [hhead]
  show (match (taken (s.elapse dt) port.val rest).arcOffer o with
    | (s, some _) => s
    | (s, none) => s.modArc fun a => { a with ports := tmod a.ports port.val (o :: ·) }) = u
  rw [hoffer]

/-! ### The outcomes of an offer (R453) -/

section
variable {s : State} {o : Occurrence}

/-- What an offer that is refused counts, and what one that is staged counts. -/
def refusedWrites (k : Nat) : List RegOp := [.count (Reg.ARC_REFUSED k) 1, .count (Reg.ARC_OFFERED k) 1]
def heldWrites (k : Nat) : List RegOp := [.count (Reg.ARC_STAGED k) 1, .count (Reg.ARC_OFFERED k) 1]

theorem arcOffer_disabled (hordinary : isReserve o.coll = false) (hoff : s.getF (Fld.ARC_CCFG_EN o.coll) = 0) :
    s.arcOffer o = (written (s.takeSeq o.src) (refusedWrites o.coll), some (.refused 5 (tget s.arc.seqs o.src))) := by
  have hacts : (!isReserve o.coll && s.getF (Fld.ARC_CCFG_EN o.coll) == 0) = true := by rw [hordinary, hoff]; rfl
  unfold State.arcOffer
  simp only [if_pos hacts, State.arcRefuse]
  exact congrArg (·, some _) (runAll_eq_written (s.takeSeq o.src) (refusedWrites o.coll))

/-- A unit that holds occurrences of a sealed collection takes one more. -/
def heldIn (s : State) (o : Occurrence) (id : Nat) : State := s.modArc fun a => { a with
  held := a.held ++ [(id, o)]
  units := a.units.map fun u => if u.id = id then { u with used := u.used + arcSize o.payload.length } else u }

theorem enabled_of_one {k : Nat} (h : s.getF (Fld.ARC_CCFG_EN k) = 1) :
    ¬ (!isReserve k && s.getF (Fld.ARC_CCFG_EN k) == 0) = true := by
  rw [h]
  simp

theorem arcOffer_held {u : ArcUnit} (hon : s.getF (Fld.ARC_CCFG_EN o.coll) = 1) (hsealed : s.arcSealed o.coll = true)
    (hunit : s.arc.units.find? (fun u => u.holds && u.coll == o.coll && decide (u.used + arcSize o.payload.length ≤ 65536)) =
      some u) :
    s.arcOffer o = (written (heldIn s o u.id) (heldWrites o.coll), some .held) := by
  have hfound : s.holdUnit o.coll (arcSize o.payload.length) = (s, some (some u.id)) := by
    unfold State.holdUnit
    rw [hunit]
  unfold State.arcOffer
  simp only [if_neg (enabled_of_one hon), if_pos hsealed, hfound]
  exact congrArg (·, some _) (runAll_eq_written (heldIn s o u.id) (heldWrites o.coll))

/-- The record that an occurrence becomes, and what its source remembers of it. -/
def newRecord (s : State) (o : Occurrence) : ArcRec :=
  { pos := s.rd64 (Reg.ARC_NEXTPOS o.coll), src := o.src, code := o.code, sev := o.sev, cont := false, rep := 0
    seq := tget s.arc.seqs o.src, lastDt := 0, mt := o.mt, payload := o.payload }

def newLast (s : State) (o : Occurrence) : ArcLast :=
  { coll := o.coll, pos := s.rd64 (Reg.ARC_NEXTPOS o.coll), code := o.code, sev := o.sev, len := o.payload.length
    crc := crc32c o.payload, origSeq := tget s.arc.seqs o.src, seq := tget s.arc.seqs o.src, mt := o.mt, rep := 0, lastDt := 0 }

/-- The record stands in its unit. -/
def recordedIn (s : State) (o : Occurrence) (id : Nat) : State := (s.takeSeq o.src).modArc fun a => { a with
  units := a.units.map fun u => if u.id = id then
    { u with recs := u.recs ++ [newRecord s o], used := u.used + arcSize o.payload.length, placed := u.placed + 1 } else u
  last := tset a.last o.src (some (newLast s o)) }

/-- The lowest POS of a collection, or the next one where that is lower. -/
def lowestPos (s : State) (k next : Nat) : Nat := (s.collRecs k).foldl (fun m r => min m r.pos) next

def recordWrites (s : State) (k lowest : Nat) : List RegOp :=
  [.pair (Reg.ARC_NEXTPOS k) (s.rd64 (Reg.ARC_NEXTPOS k) + 1), .count (Reg.ARC_STAGED k) 1, .pair (Reg.ARC_OLDEST k) lowest,
    .count (Reg.ARC_OFFERED k) 1]

theorem recordWrites_words (s : State) (k lowest : Nat) : (recordWrites s k lowest).flatMap RegOp.words ⊆
    two (Reg.ARC_OFFERED k) ++ two (Reg.ARC_STAGED k) ++ two (Reg.ARC_NEXTPOS k) ++ two (Reg.ARC_OLDEST k) := by
  intro a
  simp [recordWrites, RegOp.words]
  tauto

theorem arcPlace_new {u : ArcUnit} (hordinary : isReserve o.coll = false) (hfull : s.getF (Fld.ARC_CSTAT_FULL o.coll) = 0)
    (hroom : arcSize o.payload.length ≤ s.arcRoom o.coll)
    (hunit : (s.arc.units.filter fun u => s.unitOpen u && u.coll == o.coll).find?
      (fun u => decide (u.used + arcSize o.payload.length ≤ 65536)) = some u) :
    s.arcPlace o none = (((((s.takeSeq o.src).wr64 (Reg.ARC_NEXTPOS o.coll) (s.rd64 (Reg.ARC_NEXTPOS o.coll) + 1)).modArc
      fun a => { a with
        units := a.units.map fun x => if x.id = u.id then
          { x with recs := x.recs ++ [newRecord s o], used := x.used + arcSize o.payload.length, placed := x.placed + 1 } else x
        last := tset a.last o.src (some (newLast s o)) }).inc64 (Reg.ARC_STAGED o.coll)).showOldest o.coll,
      some (.newRecord (tget s.arc.seqs o.src))) := by
  have hfound : s.unitFor o.coll (arcSize o.payload.length) = (s, some u.id) := by
    unfold State.unitFor
    simp only [hunit]
  have hplace : ¬ ((s.getF (Fld.ARC_CSTAT_FULL o.coll) == 1) = true ∨ s.arcRoom o.coll < arcSize o.payload.length) := by
    rw [hfull]
    simpa using hroom
  unfold State.arcPlace
  simp only [hordinary, Bool.false_eq_true, if_false, if_neg hplace, hfound]
  rfl

/-- The register that a record leaves before ARC_OLDEST follows. -/
def stagedWrites (s : State) (k : Nat) : List RegOp :=
  [.pair (Reg.ARC_NEXTPOS k) (s.rd64 (Reg.ARC_NEXTPOS k) + 1), .count (Reg.ARC_STAGED k) 1]

theorem rd64_nextPos (hs : s.regsWf = true) {t : State} {k : Nat} (ht : t.regs = (runAll s (stagedWrites s k)).regs) :
    t.rd64 (Reg.ARC_NEXTPOS k) = (s.rd64 (Reg.ARC_NEXTPOS k) + 1) % 18446744073709551616 := by
  rw [rd64_of_regs hs ht]
  simp (disch := grind) [stagedWrites, RegOp.see]

theorem arcOffer_record (hs : s.regsWf = true) {u : ArcUnit}
    (hreleasing : (s.arc.releasing.all fun x => x.2.coll != o.coll) = true) (hon : s.getF (Fld.ARC_CCFG_EN o.coll) = 1)
    (hordinary : isReserve o.coll = false) (hsealed : s.arcSealed o.coll = false) (hlast : tget s.arc.last o.src = none)
    (hfull : s.getF (Fld.ARC_CSTAT_FULL o.coll) = 0) (hroom : arcSize o.payload.length ≤ s.arcRoom o.coll)
    (hunit : (s.arc.units.filter fun u => s.unitOpen u && u.coll == o.coll).find?
      (fun u => decide (u.used + arcSize o.payload.length ≤ 65536)) = some u) :
    s.arcOffer o = (written (recordedIn s o u.id) (recordWrites s o.coll (lowestPos (recordedIn s o u.id) o.coll
        ((s.rd64 (Reg.ARC_NEXTPOS o.coll) + 1) % 18446744073709551616))), some (.newRecord (tget s.arc.seqs o.src))) := by
  have hidle : ¬ (s.arc.releasing.any fun x => x.2.coll == o.coll) = true := by
    rw [List.any_eq_true]
    rintro ⟨x, hx, hcoll⟩
    exact absurd (beq_iff_eq.mp hcoll) (bne_iff_ne.mp (List.all_eq_true.mp hreleasing x hx))
  have hstaged : ((((s.takeSeq o.src).wr64 (Reg.ARC_NEXTPOS o.coll) (s.rd64 (Reg.ARC_NEXTPOS o.coll) + 1)).modArc
      fun a => { a with
        units := a.units.map fun x => if x.id = u.id then
          { x with recs := x.recs ++ [newRecord s o], used := x.used + arcSize o.payload.length, placed := x.placed + 1 } else x
        last := tset a.last o.src (some (newLast s o)) }).inc64 (Reg.ARC_STAGED o.coll)) =
      written (recordedIn s o u.id) (stagedWrites s o.coll) := runAll_eq_written (recordedIn s o u.id) (stagedWrites s o.coll)
  have hnext := rd64_nextPos hs (regs_written_of (s := s) (u := recordedIn s o u.id) rfl (stagedWrites s o.coll))
  have hrecord : s.arcRecord o = ((written (recordedIn s o u.id) (stagedWrites s o.coll)).showOldest o.coll,
      some (.newRecord (tget s.arc.seqs o.src))) := by
    unfold State.arcRecord
    simp only [hlast, arcPlace_new hordinary hfull hroom hunit, hstaged]
  unfold State.arcOffer
  simp only [if_neg (enabled_of_one hon), hsealed, Bool.false_eq_true, if_false, if_neg hidle, hrecord]
  refine congrArg (·, some (ArcOut.newRecord (tget s.arc.seqs o.src))) ?_
  unfold State.showOldest
  simp only [hnext]
  rw [wr64_eq_written, inc64_eq_written, written_written, written_written]
  rfl

/-- What a new record changes beside registers. -/
theorem recorded_frame (s : State) (port : Nat) (rest : List Occurrence) (o : Occurrence) (id : Nat) (l : List RegOp) :
    { written (recordedIn (taken s port rest) o id) l with
      regs := s.regs, resp := s.resp
      arc := { (written (recordedIn (taken s port rest) o id) l).arc with
        ports := s.arc.ports, seqs := s.arc.seqs, last := s.arc.last, units := s.arc.units } } = s := rfl

/-- A fold of minima is below what it starts from and below each element. -/
theorem foldl_min_le (l : List ArcRec) (n : Nat) :
    l.foldl (fun m r => min m r.pos) n ≤ n ∧ ∀ r ∈ l, l.foldl (fun m r => min m r.pos) n ≤ r.pos := by
  induction l generalizing n with
  | nil => exact ⟨Nat.le_refl n, fun _ h => absurd h List.not_mem_nil⟩
  | cons x l ih =>
    obtain ⟨hstart, heach⟩ := ih (min n x.pos)
    refine ⟨hstart.trans (Nat.min_le_left ..), fun r hr => ?_⟩
    rcases List.mem_cons.mp hr with rfl | hr
    · exact hstart.trans (Nat.min_le_right ..)
    · exact heach r hr

end

/-- Settles O34: each outcome of the offer, and what it writes. -/
theorem archiveOffers : Obligations.ArchiveOffers := by
  intro s dt hs
  have hw : s.regsWf = true := (Bool.and_eq_true_iff.mp hs).1
  have hu : (s.elapse dt).regsWf = true := hw
  refine ⟨?disabled, ?held, ?record⟩
  case disabled =>
    intro port o rest hcarry hon hport hcoll hordinary hoff
    have hoffer := arcOffer_disabled (s := taken (s.elapse dt) port.val rest) (o := o) hordinary hoff
    have hr := regs_written_of (s := s.elapse dt) (u := (taken (s.elapse dt) port.val rest).takeSeq o.src) rfl (refusedWrites o.coll)
    refine ⟨_, exec_arcOccurrence hcarry hon hport hoffer, ?_, ?_, tget_tset_self .., tget_tset_self .., rfl,
      regsKept_of_regs (s := s.elapse dt) hr ?_, fun _ => rfl, rfl⟩
    · rw [Counted, rd64_of_regs hu hr]
      simp (disch := grind) [refusedWrites, RegOp.see]
    · rw [Counted, rd64_of_regs hu hr]
      simp (disch := grind) [refusedWrites, RegOp.see]
    · simp [refusedWrites, RegOp.words]
  case held =>
    intro port o rest u hcarry hon hport hcoll henabled hsealed hunit
    have hoffer := arcOffer_held (s := taken (s.elapse dt) port.val rest) (o := o) henabled hsealed hunit
    have hr := regs_written_of (s := s.elapse dt) (u := heldIn (taken (s.elapse dt) port.val rest) o u.id) rfl (heldWrites o.coll)
    refine ⟨_, exec_arcOccurrence hcarry hon hport hoffer, ?_, ?_, rfl, rfl, tget_tset_self .., rfl,
      regsKept_of_regs (s := s.elapse dt) hr ?_, fun _ => rfl, rfl⟩
    · rw [Counted, rd64_of_regs hu hr]
      simp (disch := grind) [heldWrites, RegOp.see]
    · rw [Counted, rd64_of_regs hu hr]
      simp (disch := grind) [heldWrites, RegOp.see]
    · simp [heldWrites, RegOp.words]
  case record =>
    intro port o rest u hcarry hon hport hcoll hreleasing henabled hordinary hsealed hlast hfull hroom hunit hpos
    have hoffer := arcOffer_record (s := taken (s.elapse dt) port.val rest) (o := o) hu hreleasing henabled hordinary hsealed
      hlast hfull hroom hunit
    rw [show (taken (s.elapse dt) port.val rest).rd64 (Reg.ARC_NEXTPOS o.coll) = s.rd64 (Reg.ARC_NEXTPOS o.coll) from rfl] at hoffer
    have hr := regs_written_of (s := s.elapse dt) (u := recordedIn (taken (s.elapse dt) port.val rest) o u.id) rfl
      (recordWrites (taken (s.elapse dt) port.val rest) o.coll
        (lowestPos (recordedIn (taken (s.elapse dt) port.val rest) o u.id) o.coll
          ((s.rd64 (Reg.ARC_NEXTPOS o.coll) + 1) % 18446744073709551616)))
    obtain ⟨hnext, heach⟩ := foldl_min_le ((recordedIn (taken (s.elapse dt) port.val rest) o u.id).collRecs o.coll)
      ((s.rd64 (Reg.ARC_NEXTPOS o.coll) + 1) % 18446744073709551616)
    refine ⟨_, exec_arcOccurrence hcarry hon hport hoffer, ?_, ?_, ?_, tget_tset_self .., rfl, ?_, tget_tset_self ..,
      regsKept_of_regs (s := s.elapse dt) hr (recordWrites_words ..), fun _ => rfl, recorded_frame (s.elapse dt) ..⟩
    · rw [Counted, rd64_of_regs hu hr]
      simp (disch := grind) [recordWrites, RegOp.see]
    · rw [Counted, rd64_of_regs hu hr]
      simp (disch := grind) [recordWrites, RegOp.see]
    · rw [rd64_of_regs hu hr]
      simp (disch := grind) [recordWrites, RegOp.see]
      exact Nat.mod_eq_of_lt hpos
    · rw [rd64_of_regs hu hr]
      simp (disch := grind) [recordWrites, RegOp.see]
      exact fun r hrec => (Nat.mod_le ..).trans (heach r hrec)

end Sys2Proof.Proofs.ArchiveOccurrences

/-! Custody is released (R472, R474, R486): the role, the enable signal and the drops of what it served. -/

namespace Sys2Proof.Proofs.CustodyReleased

open Sys2Proof Sys2Proof.Machine Sys2Proof.Laws Sys2Proof.Proofs.Time Sys2Proof.Proofs.Power Sys2Proof.Proofs.RegOps

/-! ### The enable signal falls (R371, R390, R472) -/

/-- Whether a queued frame is a copy of a publication, and the queues without such frames. -/
def isCopy (x : EthQ) : Bool := match x.origin with
  | .trdp _ _ => true
  | _ => false

def withoutCopies (queues : Tab (List EthQ)) : Tab (List EthQ) := queues.filterMap fun kq =>
  let l := kq.2.filter fun x => !isCopy x
  if l.isEmpty then none else some (kq.1, l)

/-- Whether a queued serial frame goes with custody: one of a CUST entry whose first bit has not left. -/
def goesWithCustody (x : SerTx) : Bool := x.cust && !x.started

/-- A queue's copies of publications that are dropped, counted at its port. -/
def copyDrop (kq : Nat × List EthQ) : RegOp := .count (Reg.ETH_TXDROP (kq.1 / 8 % 16) 2) (kq.2.filter isCopy).length

/-- A serial frame that is dropped, counted at its line. -/
def serialDrop (x : SerTx) : RegOp := .count ((12 + x.blk % 4) * 0x10000 + 0x158 + x.unit % 4 * 0x100) 1

theorem foldl_eq_written {α : Type} (s : State) (f : α → RegOp) (l : List α) :
    l.foldl (fun s x => RegOp.run s (f x)) s = written s (l.map f) := by
  rw [← runAll_eq_written, runAll, List.foldl_map]

/-- Other queues of egress frames, and another queue of serial frames. -/
def withQueues (s : State) (queues : Tab (List EthQ)) : State := { s with eth := { s.eth with queues } }
def withSerial (s : State) (queue : List SerTx) : State := { s with bus := { s.bus with queue } }

theorem written_withQueues (s : State) (queues : Tab (List EthQ)) (l : List RegOp) :
    written (withQueues s queues) l = withQueues (written s l) queues := written_of_regs (s := s) (u := withQueues s queues) rfl l

theorem written_withSerial (s : State) (queue : List SerTx) (l : List RegOp) :
    written (withSerial s queue) l = withSerial (written s l) queue := written_of_regs (s := s) (u := withSerial s queue) rfl l

theorem flushCopies_eq (s : State) :
    s.flushCopies = withQueues (written s (s.eth.queues.map copyDrop)) (withoutCopies s.eth.queues) :=
  congrArg (fun u : State => withQueues u (withoutCopies u.eth.queues)) (foldl_eq_written s copyDrop s.eth.queues)

theorem flushSerial_eq (s : State) : s.flushSerial =
    withSerial (written s ((s.bus.queue.filter goesWithCustody).map serialDrop))
      (s.bus.queue.filter fun x => !goesWithCustody x) :=
  congrArg (fun u : State => withSerial u (u.bus.queue.filter fun x => !goesWithCustody x))
    (foldl_eq_written s serialDrop (s.bus.queue.filter goesWithCustody))

/-- What the end of the enable signal drops and shows. -/
def goneWrites (s : State) : List RegOp :=
  s.eth.queues.map copyDrop ++ ((s.bus.queue.filter goesWithCustody).map serialDrop ++ [.bit Fld.TRDP_STATUS_CUST false])

theorem goneWrites_words (s : State) : (goneWrites s).flatMap RegOp.words ⊆ custodyWords := by
  intro a ha
  obtain ⟨o, ho, hword⟩ := List.mem_flatMap.mp ha
  rcases List.mem_append.mp ho with ho | ho
  · obtain ⟨kq, -, rfl⟩ := List.mem_map.mp ho
    exact List.mem_cons_of_mem _ (List.mem_append_left _ (List.mem_flatMap.mpr
      ⟨kq.1 / 8 % 16, List.mem_range.mpr (Nat.mod_lt _ (by decide)), hword⟩))
  rcases List.mem_append.mp ho with ho | ho
  · obtain ⟨x, -, rfl⟩ := List.mem_map.mp ho
    refine List.mem_cons_of_mem _ (List.mem_append_right _ (List.mem_flatMap.mpr
      ⟨x.blk % 4 * 4 + x.unit % 4, List.mem_range.mpr (by omega), ?_⟩))
    rw [show (x.blk % 4 * 4 + x.unit % 4) / 4 = x.blk % 4 by omega, show (x.blk % 4 * 4 + x.unit % 4) % 4 = x.unit % 4 by omega]
    exact hword
  · rw [List.mem_singleton.mp ho] at hword
    exact List.mem_cons.mpr (.inl (List.mem_singleton.mp hword))

/-- The queues without what goes with custody. -/
def withoutServed (s : State) : State :=
  withSerial (withQueues s (withoutCopies s.eth.queues)) (s.bus.queue.filter fun x => !goesWithCustody x)

theorem custodyGone_eq (s : State) : s.custodyGone = withoutServed (written s (goneWrites s)) := by
  unfold State.custodyGone
  rw [flushCopies_eq, flushSerial_eq, setB_eq_written, written_withSerial, written_withQueues, written_withQueues,
    written_written, written_written]
  rfl

/-! ### Custody is released (R486) -/

/-- What a release of custody into a role writes, beside what the end of the enable signal does. -/
def roleWrites (r : Nat) : List RegOp :=
  [.count Reg.RPL_RELEASES 1, .field Fld.RPL_STATUS_ROLE r, .bit Fld.RPL_STATUS_ENABLE (r == 1 || r == 2)]

/-- What a release changes beside registers; `lost` tells whether a Loan has lost its backing. -/
def surrendered (s : State) (lost : Bool) : State :=
  { withoutServed s with
    fio := s.stopRefresh.fio
    triad := { s.triad with loanLost := lost }
    rpl := { s.rpl with driving := false, claim := none } }

/-- A state after a release of custody into role `r`. -/
def released (s : State) (r : Nat) (lost : Bool) : State := written (surrendered s lost) (roleWrites r ++ goneWrites s)

theorem loanWatch_eq (s : State) : ∃ lost, s.loanWatch = { s with triad := { s.triad with loanLost := lost } } := by
  unfold State.loanWatch
  split
  · exact ⟨true, rfl⟩
  · exact ⟨s.triad.loanLost, rfl⟩

/-- Custody is released without an event. -/
theorem releaseCustody_silent {s : State} (h : s.holdsCustody = true) (r : Nat) :
    ∃ lost, s.releaseCustody 0 r = released s r lost := by
  obtain ⟨lost, hwatch⟩ := loanWatch_eq (written { s with fio := s.stopRefresh.fio } (roleWrites r))
  refine ⟨lost, ?_⟩
  have hrole : (s.stopRefresh.inc64 Reg.RPL_RELEASES).setRole r =
      written { s with fio := s.stopRefresh.fio, triad := { s.triad with loanLost := lost } } (roleWrites r) := by
    refine (congrArg State.loanWatch (runAll_eq_written { s with fio := s.stopRefresh.fio } (roleWrites r))).trans
      (hwatch.trans ?_)
    rw [written_of_regs (s := s) (u := { s with fio := s.stopRefresh.fio }) rfl,
      written_of_regs (s := s) (u := { s with fio := s.stopRefresh.fio, triad := { s.triad with loanLost := lost } }) rfl]
  unfold State.releaseCustody
  rw [if_pos h, if_pos rfl, hrole, custodyGone_eq, written_written]
  rw [released, written_of_regs (s := s) (u := surrendered s lost) rfl,
    written_of_regs (s := s) (u := { s with fio := s.stopRefresh.fio, triad := { s.triad with loanLost := lost } }) rfl]
  rfl

/-- Custody is released with its event. -/
theorem releaseCustody_told {s : State} (h : s.holdsCustody = true) {cause : Nat} (hcause : cause ≠ 0) (r : Nat) :
    s.releaseCustody cause r = (s.releaseCustody 0 r).emit 0x13 0x1402 5 58 (p4 [cause]) := by
  unfold State.releaseCustody
  rw [if_pos h, if_pos h, if_neg hcause, if_pos rfl]

theorem releaseCustody_none {s : State} (h : s.holdsCustody = false) (cause r : Nat) : s.releaseCustody cause r = s :=
  if_neg (by rw [h]; decide)

/-! What a release leaves in the registers. -/

section
variable {s : State} (hs : s.regsWf = true) (r : Nat) (lost : Bool)

theorem released_regs : (released s r lost).regs = (runAll s (roleWrites r ++ goneWrites s)).regs :=
  regs_written_of (s := s) (u := surrendered s lost) rfl _

/-- The words that a release may change. -/
theorem regsKept_released : RegsKept ([Reg.RPL_STATUS] ++ two Reg.RPL_RELEASES ++ custodyWords) s (released s r lost) := by
  refine regsKept_of_regs (released_regs r lost) ?_
  rw [List.flatMap_append]
  refine List.append_subset.mpr ⟨fun a ha => List.mem_append_left _ ?_, fun a ha => List.mem_append_right _ (goneWrites_words s ha)⟩
  revert a
  show (roleWrites r).flatMap RegOp.words ⊆ _
  simp [roleWrites, RegOp.words]

/-- The drops leave the words of the role alone. -/
theorem released_sees {f : Field} (hf : f.lo + f.len ≤ 32) (hout : f.addr ∉ custodyWords) :
    (released s r lost).getF f = (written s (roleWrites r)).getF f := by
  have hdrops : (released s r lost).regs = (runAll (written s (roleWrites r)) (goneWrites s)).regs := by
    rw [released_regs, ← regs_written, ← written_written, regs_written]
  exact getF_of_regsKept (regsKept_of_regs hdrops (goneWrites_words s)) hf hout

include hs

theorem role_released (hr : r < 8) : (released s r lost).role = r := by
  refine (released_sees r lost (f := Fld.RPL_STATUS_ROLE) (by decide) (by decide)).trans ?_
  rw [getF_of_regs hs (regs_written s _)]
  simp (disch := decide) [roleWrites, RegOp.see]
  exact hr

theorem custodyOn_released : (released s r lost).custodyOn = (r == 1 || r == 2) := by
  refine (congrArg (· != 0) (released_sees r lost (f := Fld.RPL_STATUS_ENABLE) (by decide) (by decide))).trans ?_
  rw [getF_of_regs hs (regs_written s _)]
  simp (disch := decide) [roleWrites, RegOp.see]

theorem counted_released : Counted Reg.RPL_RELEASES 1 s (released s r lost) := by
  have hdrops : (released s r lost).regs = (runAll (written s (roleWrites r)) (goneWrites s)).regs := by
    rw [released_regs, ← regs_written, ← written_written, regs_written]
  refine (rd64_of_regsKept (regsKept_of_regs hdrops (goneWrites_words s)) (by decide) (by decide)).trans ?_
  rw [rd64_of_regs hs (regs_written s _)]
  simp (disch := decide) [roleWrites, RegOp.see]

end

end Sys2Proof.Proofs.CustodyReleased

/-! The Triad enters the safe state (R111, R113, R120, R195, R486). -/

namespace Sys2Proof.Proofs.SafeState

open Sys2Proof Sys2Proof.Machine Sys2Proof.Laws Sys2Proof.Proofs.Time Sys2Proof.Proofs.Power Sys2Proof.Proofs.RegOps
open Sys2Proof.Proofs.CustodyReleased

/-- A state with another Triad. -/
def withTriad (s : State) (x : TriadSt) : State := { s with triad := x }

theorem written_withTriad (s : State) (x : TriadSt) (l : List RegOp) : written (withTriad s x) l = withTriad (written s l) x :=
  written_of_regs (s := s) (u := withTriad s x) rfl l

/-- Whether a reintegration is under way that a return from a Loan did not start. -/
def reintegrates (s : State) : Bool := s.triad.reint.any fun x => !x.2.2

def reintWrites (s : State) : List RegOp := if reintegrates s = true then [.count Reg.TRIAD_REINTS 1] else []

theorem reintEnds_eq (s : State) : ∃ x, s.reintEnds = withTriad (written s (reintWrites s)) x := by
  unfold State.reintEnds reintWrites reintegrates
  rcases hreint : s.triad.reint with _ | ⟨lane, start, loan⟩
  · exact ⟨s.triad, (congrArg (withTriad · s.triad) (written_nil s)).symm⟩
  · cases loan with
    | true => exact ⟨_, (congrArg (withTriad · { s.triad with reint := none }) (written_nil s)).symm⟩
    | false => exact ⟨_, (inc64_eq_written ..).trans (written_withTriad ..)⟩

/-- What the safe state writes before custody is released; `fresh` tells whether the last dissent fell in the running beat. -/
def safeWrites (s : State) (fresh : Bool) (v : Nat) : List RegOp :=
  reintWrites s ++ ([.field Fld.RTS_STATE_STATE 3, .field Fld.TRIAD_STATUS_MODE 4] ++
    ((if fresh = true then [.bit Fld.TRIAD_STATUS_REINT_PEND false] else []) ++ [.word Reg.TRIAD_SAFECAUSE v]))

/-- The state in which custody is released. -/
def stopped (s : State) (x : TriadSt) (fresh : Bool) (v : Nat) (o : Occurrence) : State :=
  offer (withTriad (written s (safeWrites s fresh v)) x) 0x02 o

/-- The Triad at rest: no fence waits, and no Loan runs or is asked for. -/
def quiet (x : TriadSt) : TriadSt :=
  { x with vfenceAt := none, loanTc := none, loanReturnDue := false, loanReqAt := none, loanEnd := none, loanLost := false }

/-- The words that the safe state writes, over a state whose reintegration has ended. -/
def safeWords (s : State) (v : Nat) : State :=
  let s := (s.setF Fld.RTS_STATE_STATE 3).setF Fld.TRIAD_STATUS_MODE 4
  (if s.freshDissent then s.setB Fld.TRIAD_STATUS_REINT_PEND false else s).wr Reg.TRIAD_SAFECAUSE v

theorem triadSafe_of_mode {s : State} (hmode : s.triadMode ≠ 4) (cause reason : Nat) : ∃ payload,
    s.triadSafe cause reason = ((withTriad (safeWords s.reintEnds (reason % 256 * 256 + cause))
      (quiet (safeWords s.reintEnds (reason % 256 * 256 + cause)).triad)).emit 0x02 0x0205 6 56 payload).releaseCustody 1 5 :=
  ⟨_, if_neg hmode⟩

theorem safeWords_eq (s : State) (v : Nat) : ∃ x fresh, safeWords s.reintEnds v = withTriad (written s (safeWrites s fresh v)) x := by
  obtain ⟨x, hreint⟩ := reintEnds_eq s
  have hmode : (s.reintEnds.setF Fld.RTS_STATE_STATE 3).setF Fld.TRIAD_STATUS_MODE 4 =
      withTriad (written s (reintWrites s ++ [.field Fld.RTS_STATE_STATE 3, .field Fld.TRIAD_STATUS_MODE 4])) x := by
    rw [hreint, setF_eq_written, setF_eq_written, written_withTriad, written_withTriad, written_written, written_written]
    rfl
  refine ⟨x, ((s.reintEnds.setF Fld.RTS_STATE_STATE 3).setF Fld.TRIAD_STATUS_MODE 4).freshDissent, ?_⟩
  unfold safeWords safeWrites
  simp only [wr_eq_written]
  split
  · rw [setB_eq_written, hmode, written_withTriad, written_withTriad, written_written, written_written, List.append_assoc]
  · rw [hmode, written_withTriad, written_written, List.append_assoc]
    rfl

theorem triadSafe_eq {s : State} (hmode : s.triadMode ≠ 4) (hroom : PortRoom s 0x02) (cause reason : Nat) :
    ∃ x fresh o, s.triadSafe cause reason =
      (stopped s x fresh (reason % 256 * 256 + cause) o).releaseCustody 1 5 := by
  obtain ⟨payload, hsafe⟩ := triadSafe_of_mode hmode cause reason
  obtain ⟨x, fresh, hwords⟩ := safeWords_eq s (reason % 256 * 256 + cause)
  refine ⟨quiet x, fresh, ⟨3, 0x0205, 6, 56, s.time.mt, payload⟩, hsafe.trans (congrArg (State.releaseCustody · 1 5) ?_)⟩
  rw [hwords]
  exact emit_eq_offer (s := withTriad (written s (safeWrites s fresh (reason % 256 * 256 + cause))) (quiet x)) hroom ..

/-! ### What the stop of the Triad leaves in the registers -/

section
variable {s : State} (x : TriadSt) (fresh : Bool) (v : Nat) (o : Occurrence)

theorem stopped_regs : (stopped s x fresh v o).regs = (runAll s (safeWrites s fresh v)).regs := regs_written ..

theorem regsKept_stopped : RegsKept ([Reg.RTS_STATE, Reg.TRIAD_STATUS, Reg.TRIAD_SAFECAUSE] ++ two Reg.TRIAD_REINTS) s
    (stopped s x fresh v o) := by
  refine regsKept_of_regs (stopped_regs x fresh v o) ?_
  unfold safeWrites reintWrites
  split <;> split <;> simp [RegOp.words]

theorem holdsCustody_stopped : (stopped s x fresh v o).holdsCustody = s.holdsCustody := by
  have hrole := getF_of_regsKept (regsKept_stopped (s := s) x fresh v o) (f := Fld.RPL_STATUS_ROLE) (by decide) (by decide)
  simp only [State.holdsCustody, State.role, hrole]

variable (hs : s.regsWf = true)
include hs

theorem mode_stopped : (stopped s x fresh v o).triadMode = 4 := by
  show (stopped s x fresh v o).getF Fld.TRIAD_STATUS_MODE = 4
  rw [getF_of_regs hs (stopped_regs x fresh v o)]
  unfold safeWrites reintWrites
  split <;> split <;> simp (disch := decide) [RegOp.see]

theorem safeCause_stopped : (stopped s x fresh v o).rd Reg.TRIAD_SAFECAUSE = v % 4294967296 := by
  rw [rd_of_regs hs (stopped_regs x fresh v o)]
  unfold safeWrites reintWrites
  split <;> split <;> simp (disch := decide) [RegOp.see]

theorem runtime_stopped : (stopped s x fresh v o).getF Fld.RTS_STATE_STATE = 3 := by
  rw [getF_of_regs hs (stopped_regs x fresh v o)]
  unfold safeWrites reintWrites
  split <;> split <;> simp (disch := decide) [RegOp.see]

theorem counted_stopped : Counted Reg.TRIAD_REINTS (if reintegrates s = true then 1 else 0) s (stopped s x fresh v o) := by
  rw [Counted, rd64_of_regs hs (stopped_regs x fresh v o)]
  unfold safeWrites reintWrites
  split <;> split <;> simp (disch := decide) [RegOp.see]

end

/-! ### The safe state -/

/-- The words that the safe state may change. -/
abbrev safeStateWords : List Nat :=
  [Reg.RTS_STATE, Reg.TRIAD_STATUS, Reg.TRIAD_SAFECAUSE] ++ two Reg.TRIAD_REINTS ++ [Reg.RPL_STATUS] ++ two Reg.RPL_RELEASES ++
    custodyWords

/-- What the safe state, entered with the word `v` in TRIAD_SAFECAUSE, makes of `s`. -/
structure SafeFrom (s : State) (v : Nat) (t : State) : Prop where
  mode : t.triadMode = 4
  cause : t.rd Reg.TRIAD_SAFECAUSE = v
  runtime : t.getF Fld.RTS_STATE_STATE = 3
  role : t.role = if s.holdsCustody then 5 else s.role
  custody : s.holdsCustody = true → t.custodyOn = false
  releases : Counted Reg.RPL_RELEASES (b2n s.holdsCustody) s t
  reints : Counted Reg.TRIAD_REINTS (if reintegrates s = true then 1 else 0) s t
  regs : RegsKept safeStateWords s t
  mem : MemKept s t
  rest : { t with
    regs := s.regs, resp := s.resp, triad := s.triad, fio := s.fio, eth := { t.eth with queues := s.eth.queues }
    bus := { t.bus with queue := s.bus.queue }, rpl := { t.rpl with driving := s.rpl.driving, claim := s.rpl.claim }
    arc := { t.arc with ports := s.arc.ports } } = { s with resp := s.resp }

/-- Without custody the Triad stops, and nothing is released. -/
theorem safeFrom_stopped {s : State} (hs : s.regsWf = true) (hcustody : s.holdsCustody = false) (x : TriadSt) (fresh : Bool)
    {v : Nat} (hv : v < 4294967296) (o : Occurrence) : SafeFrom s v (stopped s x fresh v o) := by
  have hkept := regsKept_stopped (s := s) x fresh v o
  exact {
    mode := mode_stopped x fresh v o hs
    cause := (safeCause_stopped x fresh v o hs).trans (Nat.mod_eq_of_lt hv)
    runtime := runtime_stopped x fresh v o hs
    role := by
      rw [hcustody]
      exact getF_of_regsKept hkept (f := Fld.RPL_STATUS_ROLE) (by decide) (by decide)
    custody := fun h => absurd (hcustody.symm.trans h) (by decide)
    releases := by
      rw [hcustody, Counted, rd64_of_regsKept hkept (by decide) (by decide)]
      exact (rd64_mod ..).symm
    reints := counted_stopped x fresh v o hs
    regs := regsKept_mono hkept fun a ha => List.mem_append_left _ (List.mem_append_left _ (List.mem_append_left _ ha))
    mem := fun _ => rfl
    rest := rfl }

/-- With custody the role changes as well, and the release is reported. -/
theorem safeFrom_released {s : State} (hs : s.regsWf = true) (hcustody : s.holdsCustody = true) (x : TriadSt) (fresh : Bool)
    {v : Nat} (hv : v < 4294967296) (o o' : Occurrence) (lost : Bool) :
    SafeFrom s v (offer (released (stopped s x fresh v o) 5 lost) 0x13 o') := by
  have hu : (stopped s x fresh v o).regsWf = true := regsWf_of_regs hs (stopped_regs x fresh v o)
  have hstop := regsKept_stopped (s := s) x fresh v o
  have hfall := regsKept_released (s := stopped s x fresh v o) 5 lost
  exact {
    mode := (getF_of_regsKept hfall (f := Fld.TRIAD_STATUS_MODE) (by decide) (by decide)).trans (mode_stopped x fresh v o hs)
    cause := (congrArg BitVec.toNat (hfall Reg.TRIAD_SAFECAUSE (by decide))).trans
      ((safeCause_stopped x fresh v o hs).trans (Nat.mod_eq_of_lt hv))
    runtime := (getF_of_regsKept hfall (f := Fld.RTS_STATE_STATE) (by decide) (by decide)).trans (runtime_stopped x fresh v o hs)
    role := by
      rw [hcustody]
      exact role_released hu 5 lost (by decide)
    custody := fun _ => custodyOn_released hu 5 lost
    releases := by
      rw [hcustody, Counted, ← rd64_of_regsKept hstop (by decide) (by decide)]
      exact counted_released hu 5 lost
    reints := (rd64_of_regsKept hfall (by decide) (by decide)).trans (counted_stopped x fresh v o hs)
    regs := regsKept_mono (regsKept_trans hstop hfall) (by rw [safeStateWords, List.append_assoc, List.append_assoc,
      List.append_assoc, List.append_assoc, List.append_assoc]; exact List.Subset.refl _)
    mem := fun _ => rfl
    rest := rfl }

theorem safeFrom_triadSafe {s : State} (hs : s.regsWf = true) (hmode : s.triadMode ≠ 4) (hroom : PortRoom s 0x02)
    (hroom' : PortRoom s 0x13) (cause reason : Nat) (hcause : cause < 256) :
    SafeFrom s (reason % 256 * 256 + cause) (s.triadSafe cause reason) := by
  obtain ⟨x, fresh, o, hsafe⟩ := triadSafe_eq hmode hroom cause reason
  have hv : reason % 256 * 256 + cause < 4294967296 := by omega
  have hholds := holdsCustody_stopped (s := s) x fresh (reason % 256 * 256 + cause) o
  rw [hsafe]
  cases hcustody : s.holdsCustody with
  | false =>
    rw [releaseCustody_none (hholds.trans hcustody)]
    exact safeFrom_stopped hs hcustody x fresh hv o
  | true =>
    obtain ⟨lost, hreleased⟩ := releaseCustody_silent (hholds.trans hcustody) 5
    have hport : PortRoom (released (stopped s x fresh (reason % 256 * 256 + cause) o) 5 lost) 0x13 := by
      show (tget (portsWith _ 0x02 o) 0x13).length < 32
      rw [portsWith, tget_tset_ne _ (by decide)]
      exact hroom'
    rw [releaseCustody_told (hholds.trans hcustody) (by decide), hreleased, emit_eq_offer hport]
    exact safeFrom_released hs hcustody x fresh hv o _ lost

end Sys2Proof.Proofs.SafeState

/-! Reintegration, the commanded safe state and the Loan (R106, R113, R123, R125 to R127). -/

namespace Sys2Proof.Proofs.TriadCommands

open Sys2Proof Sys2Proof.Machine Sys2Proof.Laws Sys2Proof.Proofs.Time Sys2Proof.Proofs.Power Sys2Proof.Proofs.RegOps
open Sys2Proof.Proofs.Measurement Sys2Proof.Proofs.CustodyReleased Sys2Proof.Proofs.SafeState

section
variable {s : State} {dt : Nat} {req : Requester}

/-! ### Reintegration (R106) -/

def unmaskWrites (s : State) (lane : Nat) (pend : Bool) : List RegOp :=
  [.field Fld.TRIAD_STATUS_MASKED (s.getF Fld.TRIAD_STATUS_MASKED &&& (7 - 2 ^ lane)), .bit Fld.TRIAD_STATUS_REINT_PEND pend]

/-- A lane restarts with the others. -/
def rejoined (s : State) (lane : Nat) (pend : Bool) : State :=
  (withTriad (written s (unmaskWrites s lane pend)) { s.triad with
    lanes := tmod s.triad.lanes lane fun _ => {}, reint := some (lane, s.triad.reintEdge, false)
    laneIn := tset s.triad.laneIn lane none }).respond 0 0

theorem reintWrite_masked {lane : Nat} (hmode : s.triadMode = 1) (hmasked : s.laneMasked lane = true)
    (hstays : s.triad.retireDue.contains lane = false) : ∃ pend, s.reintWrite lane =
      ((s.setF Fld.TRIAD_STATUS_MASKED (s.getF Fld.TRIAD_STATUS_MASKED &&& (7 - 2 ^ lane))).setB Fld.TRIAD_STATUS_REINT_PEND
        pend).restartLane lane false :=
  ⟨_, if_pos ⟨hmode, hmasked, hstays⟩⟩

theorem exec_triadReintWrite {lane : Fin 4} (hlets : Lets s req Reg.TRIAD_REINT) (hmode : s.triadMode = 1)
    (hmasked : s.laneMasked lane.val = true) (hstays : s.triad.retireDue.contains lane.val = false) :
    ∃ pend, exec (.triadReintWrite dt req lane) s = .next (rejoined (s.elapse dt) lane.val pend) := by
  obtain ⟨pend, hwrite⟩ := reintWrite_masked (s := s.elapse dt) hmode hmasked hstays
  refine ⟨pend, congrArg Host.Outcome.next ((regCmd_of_lets (lets_elapse hlets dt) _).trans
    (congrArg (fun u : State => u.respond 0 0) (hwrite.trans ?_)))⟩
  exact congrArg (fun u : State => u.restartLane lane.val false)
    (runAll_eq_written (s.elapse dt) (unmaskWrites (s.elapse dt) lane.val pend))

/-- Lane `l` of a mask without lane `lane`. -/
theorem testBit_unmask (m : Nat) {l lane : Nat} (hl : l < 3) (hlane : lane < 3) :
    ((m &&& (7 - 2 ^ lane)) % 2 ^ 3).testBit l = (m.testBit l && l != lane) := by
  have hbits : ∀ l lane : Fin 3, (7 - 2 ^ lane.val).testBit l.val = (l.val != lane.val) := by decide
  rw [Nat.testBit_mod_two_pow, Nat.testBit_and, hbits ⟨l, hl⟩ ⟨lane, hlane⟩]
  simp [hl]

/-- There are three lanes to mask. -/
theorem lane_lt_of_masked {lane : Nat} (h : s.laneMasked lane = true) : lane < 3 := by
  by_contra hlane
  have hfit : s.getF Fld.TRIAD_STATUS_MASKED < 2 ^ lane :=
    (getF_lt s Fld.TRIAD_STATUS_MASKED).trans_le (Nat.pow_le_pow_right (by decide) (Nat.le_of_not_lt hlane))
  exact absurd ((Nat.testBit_lt_two_pow hfit).symm.trans h) (by decide)

theorem exec_triadSafereqWrite {reason : Byte} (hlets : Lets s req Reg.TRIAD_SAFEREQ) :
    exec (.triadSafereqWrite dt req 0x5A reason) s = .next (((s.elapse dt).triadSafe 9 reason.toNat).respond 0 0) :=
  congrArg Host.Outcome.next ((regCmd_of_lets (lets_elapse hlets dt) _).trans
    (congrArg (fun u : State => u.respond 0 0) (if_pos rfl)))

/-! ### The Loan (R123, R125 to R127) -/

/-- A Loan is asked for, or is not any more, and the Triad notes it. -/
def loanNoted (s : State) (asked : Bool) (x : TriadSt) : State :=
  (withTriad (written s [.bit Fld.TRIAD_LOAN_REQ asked]) x).respond 0 0

theorem loanRequest_first (hreq : s.bit Fld.TRIAD_LOAN_REQ = false) (hnone : s.triad.loanReqAt = none) :
    (s.loanRequest).respond 0 0 = loanNoted s true { s.triad with loanReqAt := some s.time.mono } := by
  unfold State.loanRequest
  rw [if_neg (by rw [hreq]; decide), setB_eq_written]
  refine congrArg (fun x => (withTriad (written s [.bit Fld.TRIAD_LOAN_REQ true]) x).respond 0 0) (if_neg ?_)
  rintro ⟨-, hwaits⟩
  exact absurd ((congrArg Option.isSome hnone).symm.trans hwaits) (by decide)

/-- A Loan that runs is to end, unless it is to end already. -/
def loanEnds (s : State) (reason : Nat) : TriadSt := { s.triad with loanEnd := some (reason, s.time.mono) }

theorem loanCancel_running (hmode : s.triadMode = 3) (hend : s.triad.loanEnd = none) (hback : s.triad.loanReturnDue = false) :
    (s.loanCancel).respond 0 0 = loanNoted s false (loanEnds s 1) := by
  have hkept := regsKept_written s [.bit Fld.TRIAD_LOAN_REQ false]
  have hmode' : (written s [.bit Fld.TRIAD_LOAN_REQ false]).triadMode = 3 :=
    (getF_of_regsKept hkept (f := Fld.TRIAD_STATUS_MODE) (by decide) (by decide)).trans hmode
  unfold State.loanCancel
  simp only [setB_eq_written]
  rw [if_pos ⟨hmode', hback⟩]
  refine congrArg (fun e => (withTriad (written s [.bit Fld.TRIAD_LOAN_REQ false]) { s.triad with loanEnd := e }).respond 0 0)
    (if_neg ?_)
  exact fun hset => absurd ((congrArg Option.isSome hend).symm.trans hset) (by decide)

theorem loanReturn_running (hmode : s.triadMode = 3) (hend : s.triad.loanEnd = none) (hback : s.triad.loanReturnDue = false) :
    s.loanReturn true = withTriad s (loanEnds s 2) := by
  unfold State.loanReturn
  rw [if_pos ⟨rfl, hmode, hback⟩]
  refine congrArg (fun e => withTriad s { s.triad with loanEnd := e }) (if_neg ?_)
  exact fun hset => absurd ((congrArg Option.isSome hend).symm.trans hset) (by decide)

end

theorem loanNoted_req {s : State} (hs : s.regsWf = true) (asked : Bool) (x : TriadSt) :
    (loanNoted s asked x).bit Fld.TRIAD_LOAN_REQ = asked := by
  rw [bit_of_regs (t := loanNoted s asked x) hs (regs_written s [.bit Fld.TRIAD_LOAN_REQ asked])]
  simp (disch := decide) [RegOp.see]

theorem regsKept_loanNoted (s : State) (asked : Bool) (x : TriadSt) : RegsKept [Reg.TRIAD_LOAN] s (loanNoted s asked x) :=
  regsKept_of_regs (regs_written s [.bit Fld.TRIAD_LOAN_REQ asked]) (List.Subset.refl _)

/-- Settles O22: each command leads to the state of its lemma. -/
theorem triadRequests : Obligations.TriadRequests := by
  intro s dt hs
  have hw : s.regsWf = true := (Bool.and_eq_true_iff.mp hs).1
  have hu : (s.elapse dt).regsWf = true := hw
  refine ⟨?reint, ?safe, ?request, ?cancel, ?giveBack, ?halt⟩
  case reint =>
    intro req lane hlets hmode hmasked hstays
    have hlane := lane_lt_of_masked hmasked
    obtain ⟨pend, hexec⟩ := exec_triadReintWrite (dt := dt) hlets hmode hmasked hstays
    have hr : (rejoined (s.elapse dt) lane.val pend).regs =
      (runAll (s.elapse dt) (unmaskWrites (s.elapse dt) lane.val pend)).regs := regs_written ..
    have hmask : (rejoined (s.elapse dt) lane.val pend).getF Fld.TRIAD_STATUS_MASKED =
        (s.getF Fld.TRIAD_STATUS_MASKED &&& (7 - 2 ^ lane.val)) % 2 ^ 3 := by
      rw [getF_of_regs hu hr]
      simp (disch := decide) [unmaskWrites, RegOp.see]
    refine ⟨_, hexec, rfl, ?_, fun l hl => ?_, rfl, tget_tmod_self s.triad.lanes lane.val fun _ => {}, regsKept_of_regs (s := s.elapse dt) hr ?_, fun _ => rfl, rfl⟩
    · rw [hmask, testBit_unmask _ hlane hlane]
      simp
    · rw [hmask, testBit_unmask _ l.isLt hlane]
      simp [hl, State.laneMasked]
    · simp [unmaskWrites, RegOp.words]
  case safe =>
    intro req reason hlets hmode hroom hroom'
    have hsafe := safeFrom_triadSafe (s := s.elapse dt) hu hmode hroom hroom' 9 reason.toNat (by decide)
    rw [Nat.mod_eq_of_lt reason.isLt] at hsafe
    exact ⟨_, exec_triadSafereqWrite hlets, rfl, hsafe.mode, hsafe.cause, hsafe.runtime, hsafe.role, hsafe.custody,
      hsafe.releases, hsafe.reints, hsafe.regs, hsafe.mem, hsafe.rest⟩
  case request =>
    intro req hlets hreq hnone
    exact ⟨_, congrArg Host.Outcome.next ((regCmd_of_lets (lets_elapse hlets dt) _).trans (loanRequest_first hreq hnone)), rfl,
      loanNoted_req hu .., rfl, regsKept_loanNoted (s.elapse dt) _ _, fun _ => rfl, rfl⟩
  case cancel =>
    intro req hlets hmode hend hback
    exact ⟨_, congrArg Host.Outcome.next ((regCmd_of_lets (lets_elapse hlets dt) _).trans (loanCancel_running hmode hend hback)),
      rfl, loanNoted_req hu .., rfl, regsKept_loanNoted (s.elapse dt) _ _, fun _ => rfl, rfl⟩
  case giveBack =>
    intro req hlets hmode hend hback
    exact ⟨_, congrArg Host.Outcome.next ((regCmd_of_lets (lets_elapse hlets dt) _).trans (congrArg
      (fun u : State => u.respond 0 0) (loanReturn_running hmode hend hback))), rfl, rfl, fun _ _ => rfl, fun _ => rfl, rfl⟩
  case halt =>
    intro hmode
    refine ⟨_, congrArg Host.Outcome.next ((if_pos hmode).trans (setB_eq_written ..)), ?_,
      regsKept_of_regs (s := s.elapse dt) (regs_written ..) (List.Subset.refl _), fun _ => rfl, rfl⟩
    rw [bit_of_regs hu (regs_written ..)]
    simp (disch := decide) [RegOp.see]

end Sys2Proof.Proofs.TriadCommands

/-! VSYNC and VFENCE (R105, R111, R117 to R121). -/

namespace Sys2Proof.Proofs.SyncFence

open Sys2Proof Sys2Proof.Machine Sys2Proof.Laws Sys2Proof.Proofs.Time Sys2Proof.Proofs.Power Sys2Proof.Proofs.RegOps
open Sys2Proof.Proofs.CustodyReleased Sys2Proof.Proofs.SafeState

section
variable {s : State} {dt : Nat}

/-! ### The result passes to the lanes (R94, R119) -/

/-- The lanes of a list, changed one after the other. -/
def lanesChanged (m : Tab LaneSt) (act : List Nat) (f : LaneSt → LaneSt) : Tab LaneSt := act.foldl (fun m l => tmod m l f) m

theorem foldl_modLane (s : State) (act : List Nat) (f : LaneSt → LaneSt) : act.foldl (fun s l => s.modLane l f) s =
    withTriad s { s.triad with lanes := lanesChanged s.triad.lanes act f } := by
  induction act generalizing s with
  | nil => rfl
  | cons l act ih => exact ih (s.modLane l f)

/-- The Triad once a result has entered its lanes. -/
def resultIn (s : State) (rd v : Nat) : TriadSt := { s.triad with
  sample := some ⟨.result, v, 0⟩, laneIn := s.activeLanes.foldl (fun m l => tset m l (some ⟨.result, v, 0⟩)) s.triad.laneIn
  lanes := lanesChanged s.triad.lanes s.activeLanes fun x => { x with regs := State.setX x.regs rd v } }

theorem laneResult_eq (s : State) (rd v : Nat) : s.laneResult rd v = (withTriad s (resultIn s rd v)).respond 0 v :=
  congrArg (fun u : State => u.respond 0 v) (foldl_modLane (s.enter ⟨.result, v, 0⟩) s.activeLanes _)

/-! ### VSYNC (R117 to R119) -/

/-- The three lanes presented these registers. -/
def presented (s : State) (ra rb rc : LaneRegs) : State :=
  ((s.modLane 0 fun x => { x with regs := ra }).modLane 1 fun x => { x with regs := rb }).modLane 2 fun x => { x with regs := rc }

theorem exec_vsync_legal {word : BitVec 32} {recs : LaneRecords} {agree : Bool} {back : Nat}
    (hlegal : State.customLegal word 0 = true) : exec (.vsync dt word .machine false recs agree back) s =
      .next ((s.elapse dt).vsync (State.rdOf word) recs agree back) :=
  congrArg Host.Outcome.next (if_neg (by rw [hlegal]; decide))

theorem syncOutcome_equal (h : Option Nat) : State.syncOutcome [(0, h), (1, h), (2, h)] = some none := if_pos ⟨rfl, rfl⟩

theorem syncOutcome_third {h k : Option Nat} (hne : h ≠ k) : State.syncOutcome [(0, h), (1, h), (2, k)] = some (some 2) :=
  (if_neg fun hall => hne hall.2).trans (if_pos rfl)

/-- A VSYNC is complete, and so is a reintegration that waited for it. -/
def synced (s : State) (ra rb rc : LaneRegs) : State :=
  ((presented s ra rb rc).inc64 Reg.TRIAD_VSYNCS).modTriad fun t => { t with vsyncDone := true }

theorem vsync_equal (hact : s.activeLanes = [0, 1, 2]) (rd back : Nat) (ra : LaneRegs) :
    s.vsync rd ⟨some ra, some ra, some ra⟩ true back = ((synced s ra ra ra).reintPassed back).laneResult rd 0 := by
  have houtcome := syncOutcome_equal (some (State.stateHash ra))
  unfold State.vsync
  simp only [hact, List.map_cons, List.map_nil, List.foldl_cons, List.foldl_nil, List.all_cons, List.all_nil, if_true,
    if_neg (show ¬ 1 = 0 by decide), if_neg (show ¬ 2 = 0 by decide), if_neg (show ¬ 2 = 1 by decide), Option.map_some, houtcome,
    Option.isNone_some, Bool.false_and, Bool.false_eq_true, if_false, Bool.not_true]
  rfl

theorem vsync_third (hact : s.activeLanes = [0, 1, 2]) (rd back : Nat) {ra rc : LaneRegs}
    (hne : State.stateHash ra ≠ State.stateHash rc) : s.vsync rd ⟨some ra, some ra, some rc⟩ true back =
      ((((synced s ra ra rc).reintCut 2).reintPassed back).maskLane 2 5 0).laneResult rd 1 := by
  have houtcome := syncOutcome_third (h := some (State.stateHash ra)) (k := some (State.stateHash rc))
    fun h => hne (Option.some.inj h)
  unfold State.vsync
  simp only [hact, List.map_cons, List.map_nil, List.foldl_cons, List.foldl_nil, List.all_cons, List.all_nil, if_true,
    if_neg (show ¬ 1 = 0 by decide), if_neg (show ¬ 2 = 0 by decide), if_neg (show ¬ 2 = 1 by decide), Option.map_some, houtcome,
    Option.isNone_some, Bool.false_and, Bool.false_eq_true, if_false, Bool.not_true]
  rfl

theorem synced_eq (s : State) (ra rb rc : LaneRegs) : synced s ra rb rc =
    withTriad (written s [.count Reg.TRIAD_VSYNCS 1]) { (presented s ra rb rc).triad with vsyncDone := true } := by
  unfold synced
  rw [inc64_eq_written, show presented s ra rb rc = withTriad s (presented s ra rb rc).triad from rfl, written_withTriad]
  rfl

/-- A reintegration that waited for a VSYNC is over: counted, unless a return from a Loan started it, and reported. -/
theorem reintPassed_eq (hroom : PortRoom s 0x02) (back : Nat) : ∃ l ports, (l = [] ∨ l = [.count Reg.TRIAD_REINTS 1]) ∧
    s.reintPassed back =
      { withTriad (written s l) { s.triad with reint := none } with arc := { s.arc with ports } } := by
  unfold State.reintPassed
  rcases hreint : s.triad.reint with _ | ⟨lane, start, loan⟩
  · refine ⟨[], s.arc.ports, .inl rfl, ?_⟩
    rw [written_nil]
    show s = withTriad s { s.triad with reint := none }
    rw [← hreint]
    rfl
  · refine ⟨if loan then [] else [.count Reg.TRIAD_REINTS 1], portsWith s 0x02
      ⟨3, 0x0203, 1, 56, s.time.mt + back, p4 [lane] ++ p8 [s.time.mono + back - start]⟩, by cases loan <;> simp, ?_⟩
    show State.emitAt _ _ _ _ _ _ _ = _
    cases loan with
    | true =>
      simp only [if_true, written_nil]
      exact if_pos hroom
    | false =>
      simp only [Bool.false_eq_true, if_false]
      rw [inc64_eq_written]
      refine (congrArg (fun u : State => u.emitAt (s.time.mt + back) 0x02 0x0203 1 56 (p4 [lane] ++ p8 [s.time.mono + back - start]))
        (written_withTriad s { s.triad with reint := none } [.count Reg.TRIAD_REINTS 1])).trans ?_
      exact if_pos hroom

theorem reintPassed_none (h : s.triad.reint = none) (back : Nat) : s.reintPassed back = s := by
  unfold State.reintPassed
  rw [h]

theorem reintCut_none (h : s.triad.reint = none) (lane : Nat) : s.reintCut lane = s := by
  unfold State.reintCut
  rw [h]
  rfl

/-! ### A lane is masked without an event of its own at the vote (R105, R109, R119) -/

def dissentWrites (s : State) (lane : Nat) : List RegOp :=
  [.field Fld.TRIAD_STATUS_MASKED (s.getF Fld.TRIAD_STATUS_MASKED ||| 2 ^ lane), .pair Reg.TRIAD_LASTDIS_ADDR 0,
    .word Reg.TRIAD_LASTDIS_INFO (5 * 16 + lane), .pair Reg.TRIAD_LASTDIS_MT s.time.mt, .count (Reg.TRIAD_DISSENTS_TA + 8 * lane) 1]

def windowWrites (ta tb tc : Nat) : List RegOp :=
  [.field Fld.TRIAD_DISWIN_TA ta, .field Fld.TRIAD_DISWIN_TB tb, .field Fld.TRIAD_DISWIN_TC tc]

def latentWrites (s : State) (lane ta tb tc : Nat) (pend : Bool) : List RegOp :=
  dissentWrites s lane ++ (windowWrites ta tb tc ++ [.bit Fld.TRIAD_STATUS_REINT_PEND pend]) ++ [.count Reg.TRIAD_LATENT 1]

/-- The dissent of a lane stands in the registers. -/
def dissented (s : State) (lane : Nat) : State :=
  withTriad (written s (dissentWrites s lane)) { s.triad with
    lanes := tmod s.triad.lanes lane fun x => { x with queue := [] }, dissents := s.triad.dissents ++ [(lane, s.time.mono)] }

/-- A third dissent within the hour marks the lane for retirement. -/
def marked (s : State) (lane : Nat) : State :=
  if 3 ≤ s.dissentCount lane then s.modTriad fun t => { t with retireDue := t.retireDue ++ [lane] } else s

theorem maskLane_eq (hreint : s.triad.reint = none) (lane : Nat) : s.maskLane lane 5 0 =
    (((marked (dissented s lane).showDiswin lane).showReint).inc64 Reg.TRIAD_LATENT).emit 0x02 0x0202 2 56 (p4 [lane]) := by
  have hhead : (runAll ((s.reintCut lane).modLane lane fun x => { x with queue := [] }) (dissentWrites s lane)).modTriad
      (fun t => { t with dissents := t.dissents ++ [(lane, s.time.mono)] }) = dissented s lane := by
    rw [reintCut_none hreint, runAll_eq_written,
      show (s.modLane lane fun x => { x with queue := [] }) = withTriad s { s.triad with
        lanes := tmod s.triad.lanes lane fun x => { x with queue := [] } } from rfl, written_withTriad]
    rfl
  rw [← hhead, reintCut_none hreint]
  unfold State.maskLane
  rw [reintCut_none hreint]
  rfl

theorem showDiswin_eq (s : State) : ∃ ta tb tc, s.showDiswin = written s (windowWrites ta tb tc) :=
  ⟨_, _, _, runAll_eq_written s (windowWrites _ _ _)⟩

theorem showReint_eq (s : State) : ∃ pend, s.showReint = written s [.bit Fld.TRIAD_STATUS_REINT_PEND pend] :=
  ⟨_, setB_eq_written ..⟩

theorem marked_eq (s : State) (lane : Nat) :
    ∃ x : TriadSt, marked s lane = withTriad s x ∧ x.vsyncDone = s.triad.vsyncDone := by
  unfold marked
  split
  · exact ⟨_, rfl, rfl⟩
  · exact ⟨s.triad, rfl, rfl⟩

/-- The state after a latent dissent: what is written, with another Triad, and the event of the lane. -/
def latentMasked (s : State) (lane ta tb tc : Nat) (pend : Bool) (x : TriadSt) : State :=
  offer (withTriad (written s (latentWrites s lane ta tb tc pend)) x) 0x02 ⟨3, 0x0202, 2, 56, s.time.mt, p4 [lane]⟩

theorem regs_latentMasked {u : State} {l : List RegOp} (h : u.regs = (runAll s l).regs) (ta tb tc : Nat) (pend : Bool)
    (x : TriadSt) : (latentMasked u 2 ta tb tc pend x).regs = (runAll s (l ++ latentWrites u 2 ta tb tc pend)).regs :=
  regs_written_append h _

theorem testBit_masked (m : Nat) : ((m ||| 4) % 8).testBit 2 = true := by
  rw [show 8 = 2 ^ 3 from rfl, Nat.testBit_mod_two_pow, Nat.testBit_or]
  simp [show Nat.testBit 4 2 = true by decide]

section
variable {u : State} (hs : s.regsWf = true) (h : u.regs = (runAll s [.count Reg.TRIAD_VSYNCS 1]).regs) (ta tb tc : Nat)
  (pend : Bool) (x : TriadSt)
include h

theorem regsKept_latentMasked : RegsKept ([Reg.TRIAD_STATUS, Reg.TRIAD_DISWIN, Reg.TRIAD_LASTDIS_INFO] ++
    two Reg.TRIAD_LASTDIS_ADDR ++ two Reg.TRIAD_LASTDIS_MT ++ two (Reg.TRIAD_DISSENTS_TA + 8 * 2) ++ two Reg.TRIAD_REINTS ++
    two Reg.TRIAD_VSYNCS ++ two Reg.TRIAD_LATENT) s (latentMasked u 2 ta tb tc pend x) :=
  regsKept_of_regs (regs_latentMasked h ta tb tc pend x)
    (by simp [latentWrites, dissentWrites, windowWrites, RegOp.words])

include hs

theorem masked_latentMasked : ((latentMasked u 2 ta tb tc pend x).getF Fld.TRIAD_STATUS_MASKED).testBit 2 = true := by
  rw [getF_of_regs hs (regs_latentMasked h ta tb tc pend x)]
  simp (disch := decide) [latentWrites, dissentWrites, windowWrites, RegOp.see]
  exact testBit_masked _

theorem info_latentMasked : (latentMasked u 2 ta tb tc pend x).rd Reg.TRIAD_LASTDIS_INFO = 82 := by
  rw [rd_of_regs hs (regs_latentMasked h ta tb tc pend x)]
  simp (disch := decide) [latentWrites, dissentWrites, windowWrites, RegOp.see]

theorem counted_latentMasked : Counted Reg.TRIAD_LATENT 1 s (latentMasked u 2 ta tb tc pend x) := by
  rw [Counted, rd64_of_regs hs (regs_latentMasked h ta tb tc pend x)]
  simp (disch := decide) [latentWrites, dissentWrites, windowWrites, RegOp.see]

theorem vsyncs_latentMasked : Counted Reg.TRIAD_VSYNCS 1 s (latentMasked u 2 ta tb tc pend x) := by
  rw [Counted, rd64_of_regs hs (regs_latentMasked h ta tb tc pend x)]
  simp (disch := decide) [latentWrites, dissentWrites, windowWrites, RegOp.see]

end

theorem maskLane_latent (hreint : s.triad.reint = none) (hroom : PortRoom s 0x02) (lane : Nat) :
    ∃ ta tb tc pend x, s.maskLane lane 5 0 = latentMasked s lane ta tb tc pend x ∧ x.vsyncDone = s.triad.vsyncDone := by
  obtain ⟨ta, tb, tc, hwindow⟩ := showDiswin_eq (dissented s lane)
  obtain ⟨x, hmarked, hdone⟩ := marked_eq (dissented s lane).showDiswin lane
  obtain ⟨pend, hpend⟩ := showReint_eq (marked (dissented s lane).showDiswin lane)
  refine ⟨ta, tb, tc, pend, x, ?_, ?_⟩
  · have hwritten : ((marked (dissented s lane).showDiswin lane).showReint).inc64 Reg.TRIAD_LATENT =
        withTriad (written s (latentWrites s lane ta tb tc pend)) x := by
      rw [hpend, hmarked, hwindow, inc64_eq_written, dissented, written_withTriad, written_withTriad, written_withTriad,
        written_withTriad, written_written, written_written, written_withTriad, written_written, latentWrites]
      rfl
    rw [maskLane_eq hreint, hwritten]
    exact emit_eq_offer (s := withTriad (written s (latentWrites s lane ta tb tc pend)) x) hroom ..
  · rw [hdone, hwindow]
    rfl

/-- What the active lanes are is told by TRIAD_STATUS alone. -/
theorem activeLanes_of_regsKept {t : State} {ws : List Nat} (h : RegsKept ws s t) (hout : Reg.TRIAD_STATUS ∉ ws) :
    t.activeLanes = s.activeLanes := by
  simp only [State.activeLanes, State.triadMode, State.laneMasked, State.laneRetired,
    getF_of_regsKept h (f := Fld.TRIAD_STATUS_MODE) (by decide) hout,
    getF_of_regsKept h (f := Fld.TRIAD_STATUS_MASKED) (by decide) hout,
    getF_of_regsKept h (f := Fld.TRIAD_STATUS_RETIRED) (by decide) hout]
  rfl

/-- The three lanes of a full Triad, one by one. -/
theorem tget_lanesChanged (m : Tab LaneSt) (f : LaneSt → LaneSt) (l : Fin 3) :
    tget (lanesChanged m [0, 1, 2] f) l.val = f (tget m l.val) := by
  show tget (tmod (tmod (tmod m 0 f) 1 f) 2 f) l.val = _
  match l with
  | 0 => exact (tget_tmod_ne _ (by decide) _).trans ((tget_tmod_ne _ (by decide) _).trans (tget_tmod_self m 0 f))
  | 1 => exact (tget_tmod_ne _ (by decide) _).trans ((tget_tmod_self _ 1 f).trans (congrArg f (tget_tmod_ne _ (by decide) _)))
  | 2 => exact (tget_tmod_self _ 2 f).trans (congrArg f ((tget_tmod_ne _ (by decide) _).trans (tget_tmod_ne _ (by decide) _)))

theorem regs_presented (ra : LaneRegs) (l : Fin 3) : (tget (presented s ra ra ra).triad.lanes l.val).regs = ra :=
  congrArg LaneSt.regs (tget_lanesChanged s.triad.lanes (fun x => { x with regs := ra }) l)

/-! ### VFENCE (R121) -/

theorem exec_vfence {word : BitVec 32} {priv : Priv} (hlegal : State.customLegal word 1 = true) (hact : s.activeLanes ≠ []) :
    exec (.vfence dt word priv false) s = .next (withTriad (s.elapse dt)
      { s.triad with vfenceAt := some (s.elapse dt).time.clock, vfenceRd := State.rdOf word }) := by
  have hlive : ¬ (s.elapse dt).activeLanes.isEmpty = true := fun h => hact (List.isEmpty_iff.mp h)
  exact congrArg Host.Outcome.next ((if_neg (by rw [hlegal]; decide)).trans (if_neg hlive))

/-- The Triad once a fence has ended. -/
def unfenced (x : TriadSt) (era : Nat) : TriadSt := { x with vfenceAt := none, ackErr := none, vfEra := era }

def fenceWrites (failed : Bool) : List RegOp := if failed = true then [.count Reg.TRIAD_VFERR 1] else []

/-- A fence ends with a result for the active lanes. -/
def fenceEnded (s : State) (era : Nat) (failed : Bool) (v : Nat) : State :=
  let u := written (withTriad s (unfenced s.triad era)) (fenceWrites failed)
  (withTriad u (resultIn u s.triad.vfenceRd v)).respond 0 v

theorem exec_vfenceComplete {since : Nat} (hwaits : s.triad.vfenceAt = some since) (hfar : s.farOpen = false) :
    exec (.vfenceComplete dt true) s =
      .next (fenceEnded (s.elapse dt) s.triad.vfEra s.triad.ackErr.isSome (s.triad.ackErr.getD 0)) := by
  have hacts : ¬ ((s.elapse dt).triad.vfenceAt.isNone = true ∨ (!true) = true ∨ (s.elapse dt).farOpen = true) := by
    rw [show (s.elapse dt).triad.vfenceAt = some since from hwaits, show (s.elapse dt).farOpen = false from hfar]
    simp
  refine congrArg Host.Outcome.next ((if_neg hacts).trans ?_)
  rw [show (s.elapse dt).triad.ackErr = s.triad.ackErr from rfl]
  cases s.triad.ackErr with
  | none =>
    refine (laneResult_eq ..).trans ?_
    unfold fenceEnded
    rw [fenceWrites, Option.isSome_none, if_neg (by decide), written_nil]
    rfl
  | some st =>
    refine (laneResult_eq ..).trans ?_
    unfold fenceEnded
    rw [fenceWrites, Option.isSome_some, if_pos rfl, inc64_eq_written]
    rfl

theorem exec_vfenceComplete_waits {acked : Bool} (hopen : acked = false ∨ s.farOpen = true) :
    exec (.vfenceComplete dt acked) s = .next (s.elapse dt) := by
  refine congrArg Host.Outcome.next (if_pos ?_)
  rcases hopen with h | h
  · exact .inr (.inl (by rw [h]; rfl))
  · exact .inr (.inr h)

theorem exec_vfenceTimeout {since : Nat} (hwaits : s.triad.vfenceAt = some since)
    (hdue : since + 20000 ≤ (s.elapse dt).time.clock) : exec (.vfenceTimeout dt) s =
      .next (fenceEnded (s.elapse dt) (s.triad.vfEra + 1) true 0x30) := by
  show execVfenceTimeout dt s = _
  simp only [execVfenceTimeout, show (s.elapse dt).triad.vfenceAt = some since from hwaits]
  refine congrArg Host.Outcome.next ((if_neg (Nat.not_lt_of_le hdue)).trans ((laneResult_eq ..).trans ?_))
  rw [inc64_eq_written]
  rfl

end

theorem fenceEnded_regs (s : State) (era : Nat) (failed : Bool) (v : Nat) :
    (fenceEnded s era failed v).regs = (runAll s (fenceWrites failed)).regs :=
  regs_written_of (s := s) (u := withTriad s (unfenced s.triad era)) rfl _

theorem counted_fenceEnded {s : State} (hs : s.regsWf = true) (era : Nat) (failed : Bool) (v : Nat) :
    Counted Reg.TRIAD_VFERR (if failed = true then 1 else 0) s (fenceEnded s era failed v) := by
  rw [Counted, rd64_of_regs hs (fenceEnded_regs ..)]
  unfold fenceWrites
  split <;> simp (disch := decide) [RegOp.see]

theorem regsKept_fenceEnded (s : State) (era : Nat) (failed : Bool) (v : Nat) :
    RegsKept (two Reg.TRIAD_VFERR) s (fenceEnded s era failed v) := by
  refine regsKept_of_regs (fenceEnded_regs ..) ?_
  unfold fenceWrites
  split <;> simp [RegOp.words]

/-! ### The obligation -/

theorem vsyncEqual (s : State) (dt : Nat) (hs : s.wf = true) (word : BitVec 32) (ra : LaneRegs) (back : Nat)
    (hact : s.activeLanes = [0, 1, 2]) (hlegal : State.customLegal word 0 = true) (hroom : PortRoom s 0x02) :
    ∃ t, exec (.vsync dt word .machine false ⟨some ra, some ra, some ra⟩ true back) s = .next t ∧
      Counted Reg.TRIAD_VSYNCS 1 s t ∧
      Answered t 0 0 ∧
      t.triad.vsyncDone = true ∧
      t.triad.reint = none ∧
      (∀ l : Fin 3, (tget t.triad.lanes l.val).regs = State.setX ra (State.rdOf word) 0) ∧
      Leaves dt ((two Reg.TRIAD_VSYNCS ++ two Reg.TRIAD_REINTS)) s t
        { t with triad := s.triad, arc := { t.arc with ports := s.arc.ports } } := by
  have hu : (s.elapse dt).regsWf = true := (Bool.and_eq_true_iff.mp hs).1
  obtain ⟨l, ports, hl, hpassed⟩ := reintPassed_eq (s := synced (s.elapse dt) ra ra ra)
    (by rw [synced_eq]; exact hroom) back
  rw [synced_eq] at hpassed
  have hr : ((synced (s.elapse dt) ra ra ra).reintPassed back).regs =
      (runAll (s.elapse dt) ([.count Reg.TRIAD_VSYNCS 1] ++ l)).regs := by
    rw [synced_eq, hpassed]
    exact regs_written_append (u := withTriad (written (s.elapse dt) [.count Reg.TRIAD_VSYNCS 1])
      { (presented (s.elapse dt) ra ra ra).triad with vsyncDone := true }) (regs_written ..) l
  have hkept : RegsKept (two Reg.TRIAD_VSYNCS ++ two Reg.TRIAD_REINTS) (s.elapse dt)
      ((synced (s.elapse dt) ra ra ra).reintPassed back) :=
    regsKept_of_regs hr (by rcases hl with rfl | rfl <;> simp [RegOp.words])
  have hlanes : ((synced (s.elapse dt) ra ra ra).reintPassed back).activeLanes = [0, 1, 2] :=
    (activeLanes_of_regsKept hkept (by decide)).trans hact
  refine ⟨_, (exec_vsync_legal hlegal).trans (congrArg Host.Outcome.next ((vsync_equal (s := s.elapse dt) hact ..).trans (laneResult_eq ..))),
    ?_, rfl, ?_, ?_, fun lane => ?_, hkept, ?_, ?_⟩
  · refine (rd64_of_regs hu hr _).trans ?_
    rcases hl with rfl | rfl <;> simp (disch := decide) [RegOp.see]
  · show ((synced (s.elapse dt) ra ra ra).reintPassed back).triad.vsyncDone = true
    rw [synced_eq, hpassed]
    rfl
  · show ((synced (s.elapse dt) ra ra ra).reintPassed back).triad.reint = none
    rw [synced_eq, hpassed]
    rfl
  · show (tget (lanesChanged _ ((synced (s.elapse dt) ra ra ra).reintPassed back).activeLanes _) lane.val).regs = _
    rw [hlanes, tget_lanesChanged, synced_eq, hpassed]
    exact congrArg (State.setX · (State.rdOf word) 0) (regs_presented ra lane)
  · intro a
    show ((synced (s.elapse dt) ra ra ra).reintPassed back).memGet a = s.memGet a
    rw [synced_eq, hpassed]
    rfl
  · rw [synced_eq, hpassed]
    rfl

theorem vsyncThird (s : State) (dt : Nat) (hs : s.wf = true) (word : BitVec 32) (ra rc : LaneRegs) (back : Nat)
    (hact : s.activeLanes = [0, 1, 2]) (hlegal : State.customLegal word 0 = true)
    (hne : State.stateHash ra ≠ State.stateHash rc) (hreint : s.triad.reint = none) (hroom : PortRoom s 0x02) :
    ∃ t, exec (.vsync dt word .machine false ⟨some ra, some ra, some rc⟩ true back) s = .next t ∧
      Counted Reg.TRIAD_VSYNCS 1 s t ∧
      Answered t 0 1 ∧
      t.triad.vsyncDone = true ∧
      (t.getF Fld.TRIAD_STATUS_MASKED).testBit 2 = true ∧
      t.rd Reg.TRIAD_LASTDIS_INFO = 82 ∧
      Counted Reg.TRIAD_LATENT 1 s t ∧
      Offered 0x02 0x0202 2 56 (p4 [2]) s t ∧
      Leaves dt (([Reg.TRIAD_STATUS, Reg.TRIAD_DISWIN, Reg.TRIAD_LASTDIS_INFO] ++ two Reg.TRIAD_LASTDIS_ADDR ++ two
        Reg.TRIAD_LASTDIS_MT ++ two (Reg.TRIAD_DISSENTS_TA + 8 * 2) ++ two Reg.TRIAD_REINTS ++ two Reg.TRIAD_VSYNCS ++ two
        Reg.TRIAD_LATENT)) s t { t with triad := s.triad, arc := { t.arc with ports := s.arc.ports } } := by
  have hu : (s.elapse dt).regsWf = true := (Bool.and_eq_true_iff.mp hs).1
  have hcut := reintCut_none (s := synced (s.elapse dt) ra ra rc) (by rw [synced_eq]; exact hreint) 2
  have hpassed := reintPassed_none (s := synced (s.elapse dt) ra ra rc) (by rw [synced_eq]; exact hreint) back
  obtain ⟨ta, tb, tc, pend, x, hmask, hdone⟩ := maskLane_latent (s := synced (s.elapse dt) ra ra rc)
    (by rw [synced_eq]; exact hreint) (by rw [synced_eq]; exact hroom) 2
  have hdone' : x.vsyncDone = true := by
    rw [hdone, synced_eq]
    rfl
  rw [synced_eq] at hmask
  have hexec : exec (.vsync dt word .machine false ⟨some ra, some ra, some rc⟩ true back) s = _ :=
    (exec_vsync_legal hlegal).trans (congrArg Host.Outcome.next ((vsync_third (s := s.elapse dt) hact _ back hne).trans
      (laneResult_eq ..)))
  rw [hcut, hpassed, synced_eq, hmask] at hexec
  have hr : (withTriad (written (s.elapse dt) [.count Reg.TRIAD_VSYNCS 1])
      { (presented (s.elapse dt) ra ra rc).triad with vsyncDone := true }).regs =
        (runAll (s.elapse dt) [.count Reg.TRIAD_VSYNCS 1]).regs := regs_written ..
  exact ⟨_, hexec, vsyncs_latentMasked hu hr ta tb tc pend x, rfl, hdone', masked_latentMasked hu hr ta tb tc pend x,
    info_latentMasked hu hr ta tb tc pend x, counted_latentMasked hu hr ta tb tc pend x, offered_of_ports rfl,
    regsKept_latentMasked hr ta tb tc pend x, fun _ => rfl, rfl⟩

/-- Settles O21: each command leads to the state of its lemma. -/
theorem syncAndFence : Obligations.SyncAndFence := by
  intro s dt hs
  have hw : s.regsWf = true := (Bool.and_eq_true_iff.mp hs).1
  have hu : (s.elapse dt).regsWf = true := hw
  refine ⟨vsyncEqual s dt hs, vsyncThird s dt hs, ?user, ?deadline, ?fence, ?complete, ?waits, ?timeout⟩
  case user =>
    intro word onApp agree recs back
    exact ⟨_, congrArg Host.Outcome.next (if_pos (.inr (.inl rfl))), rfl, fun _ _ => rfl, fun _ => rfl, rfl⟩
  case deadline =>
    intro hact hdone hlate hphase hmode hroom hroom'
    have hsafe := safeFrom_triadSafe (s := s.elapse dt) hu hmode hroom hroom' 8 0 (by decide)
    have hexec : exec (.vsyncDeadline dt) s = .next ((s.elapse dt).triadSafe 8 0) := by
      refine congrArg Host.Outcome.next (if_pos ?_)
      have hempty : (s.elapse dt).activeLanes.isEmpty = false := by
        rw [show (s.elapse dt).activeLanes = s.activeLanes from rfl]
        exact List.isEmpty_eq_false_iff.mpr hact
      rw [hempty, show (s.elapse dt).triad.vsyncDone = false from hdone, decide_eq_true (by exact hlate),
        show (s.elapse dt).lcs.phase = s.lcs.phase from rfl]
      rcases hphase with h | h <;> rw [h] <;> rfl
    exact ⟨_, hexec, hsafe.mode, hsafe.cause, hsafe.runtime, hsafe.role, hsafe.custody, hsafe.releases, hsafe.reints, hsafe.regs,
      hsafe.mem, hsafe.rest⟩
  case fence =>
    intro word priv hlegal hact
    exact ⟨_, exec_vfence hlegal hact, rfl, rfl, fun _ _ => rfl, fun _ => rfl, rfl⟩
  case complete =>
    intro since hwaits hfar
    exact ⟨_, exec_vfenceComplete hwaits hfar, rfl, counted_fenceEnded hu .., rfl, rfl, rfl,
      regsKept_fenceEnded (s.elapse dt) _ _ _, fun _ => rfl, rfl⟩
  case waits =>
    intro acked since hwaits hopen
    exact ⟨_, exec_vfenceComplete_waits hopen, hwaits, fun _ _ => rfl, fun _ => rfl, rfl⟩
  case timeout =>
    intro since hwaits hdue
    exact ⟨_, exec_vfenceTimeout hwaits hdue, rfl, counted_fenceEnded hu .., rfl, rfl, rfl,
      regsKept_fenceEnded (s.elapse dt) _ _ _, fun _ => rfl, rfl⟩

end Sys2Proof.Proofs.SyncFence

/-! What Garnet's operations write and leave: fields of the register file, Garnet's own state, and the Archive's port
(R137 to R179). -/

namespace Sys2Proof.Proofs.GarnetFrames

open Sys2Proof Sys2Proof.Machine Sys2Proof.Laws Sys2Proof.Proofs.Time Sys2Proof.Proofs.Power Sys2Proof.Proofs.RegOps

/-! ### Fields that an operation spares -/

/-- Two fields that share no bit. -/
def Apart (f g : Field) : Prop := f.addr ≠ g.addr ∨ f.lo + f.len ≤ g.lo ∨ g.lo + g.len ≤ f.lo

/-- A field of one word that shares no bit with a field of `T`. -/
def Spared (T : Field → Prop) (f : Field) : Prop := (0 < f.len ∧ f.lo + f.len ≤ 32) ∧ ∀ g, T g → Apart f g

/-- A whole word, and the words of a 64-bit register, as fields. -/
abbrev word (a : Nat) : Field := ⟨a, 0, 32⟩

/-- `t` differs from `s` in fields of `T`, and otherwise only in what `K` does not look at. -/
structure Works (T : Field → Prop) (K : State → State) (s t : State) : Prop where
  wf : s.regsWf = true → t.regsWf = true
  reads : s.regsWf = true → ∀ f, Spared T f → t.getF f = s.getF f
  rest : K t = K s

section
variable {T U : Field → Prop} {K L : State → State} {s t u : State}

theorem Works.refl (s : State) : Works T K s s := ⟨id, fun _ _ _ => rfl, rfl⟩

theorem Works.trans (h : Works T K s t) (k : Works T K t u) : Works T K s u :=
  ⟨fun hs => k.wf (h.wf hs), fun hs f hf => (k.reads (h.wf hs) f hf).trans (h.reads hs f hf), k.rest.trans h.rest⟩

theorem Works.mono (h : Works T K s t) (hTU : ∀ f, T f → U f) : Works U K s t :=
  ⟨h.wf, fun hs f hf => h.reads hs f ⟨hf.1, fun g hg => hf.2 g (hTU g hg)⟩, h.rest⟩

/-- A coarser look at the rest of the state. -/
theorem Works.coarsen (h : Works T K s t) (hL : ∀ u, L u = L (K u)) : Works T L s t :=
  ⟨h.wf, h.reads, (hL t).trans ((congrArg L h.rest).trans (hL s).symm)⟩

theorem Works.bit (h : Works T K s t) (hs : s.regsWf = true) {f : Field} (hf : Spared T f) : t.bit f = s.bit f :=
  congrArg (· != 0) (h.reads hs f hf)

theorem rd_eq_getF (s : State) (a : Nat) : s.rd a = s.getF (word a) := by
  rw [State.getF, if_pos (by exact Nat.le_refl 32), Nat.pow_zero, Nat.div_one]
  exact (Nat.mod_eq_of_lt (rd_lt s a)).symm

theorem Works.rd (h : Works T K s t) (hs : s.regsWf = true) {a : Nat} (ha : Spared T (word a)) : t.rd a = s.rd a := by
  rw [rd_eq_getF, rd_eq_getF, h.reads hs _ ha]

theorem Works.rdw (h : Works T K s t) (hs : s.regsWf = true) {a : Nat} (ha : Spared T (word a)) : t.rdw a = s.rdw a :=
  BitVec.eq_of_toNat_eq (h.rd hs ha)

theorem Works.rd64 (h : Works T K s t) (hs : s.regsWf = true) {a : Nat} (ha : Spared T (word a))
    (ha' : Spared T (word (a + 4))) : t.rd64 a = s.rd64 a := by
  rw [State.rd64, State.rd64, h.rd hs ha, h.rd hs ha']

theorem works_setF {f : Field} (hf : f.lo + f.len ≤ 32) (hT : T f) (v : Nat)
    (hK : ∀ u r, K { u with regs := r } = K u := by exact fun _ _ => rfl) : Works T K s (s.setF f v) where
  wf hs := regsWf_setF f v hs
  reads hs g hg := getF_setF_ne hf hg.1.2 ((hg.2 f hT).imp Ne.symm id) v hs
  rest := by
    rw [onlyRegs_setF s f v]
    exact hK ..

theorem works_setB {f : Field} (hf : f.lo + f.len ≤ 32) (hT : T f) (b : Bool)
    (hK : ∀ u r, K { u with regs := r } = K u := by exact fun _ _ => rfl) : Works T K s (s.setB f b) := works_setF hf hT _ hK

theorem works_wr {a : Nat} (hT : T (word a)) (v : Nat)
    (hK : ∀ u r, K { u with regs := r } = K u := by exact fun _ _ => rfl) : Works T K s (s.wr a v) where
  wf hs := regsWf_wr a v hs
  reads hs g hg := by
    have hne : a ≠ g.addr := fun h => by
      have hapart := hg.2 _ hT
      have hlen := hg.1
      simp only [Apart, h] at hapart
      omega
    rw [State.getF, State.getF, if_pos hg.1.2, if_pos hg.1.2, rd_wr_ne hne]
  rest := hK ..

theorem works_wr64 {a : Nat} (hT : T (word a)) (hT' : T (word (a + 4))) (v : Nat)
    (hK : ∀ u r, K { u with regs := r } = K u := by exact fun _ _ => rfl) : Works T K s (s.wr64 a v) :=
  (works_wr hT _ hK).trans (works_wr hT' _ hK)

theorem works_inc64 {a : Nat} (hT : T (word a)) (hT' : T (word (a + 4)))
    (hK : ∀ u r, K { u with regs := r } = K u := by exact fun _ _ => rfl) : Works T K s (s.inc64 a) := works_wr64 hT hT' _ hK

theorem works_modGar (f : GarSt → GarSt) (hK : K (s.modGar f) = K s := by exact rfl) : Works T K s (s.modGar f) :=
  ⟨id, fun _ _ _ => rfl, hK⟩

theorem works_foldl {α : Type} (l : List α) {f : State → α → State} (h : ∀ u, ∀ x ∈ l, Works T K u (f u x)) :
    Works T K s (l.foldl f s) := by
  induction l generalizing s with
  | nil => exact .refl s
  | cons x l ih =>
    exact (h s x List.mem_cons_self).trans (ih fun u y hy => h u y (List.mem_cons_of_mem _ hy))

theorem works_ite {c : Prop} [Decidable c] (ht : Works T K s t) (hu : Works T K s u) : Works T K s (if c then t else u) := by
  split
  · exact ht
  · exact hu

end

/-! ### What is looked at beside the registers -/

/-- All but the registers. -/
def bare (s : State) : State := { s with regs := [] }

/-- All but the registers, the Archive, and what the pairs and the instances of Garnet remember. -/
def calm (s : State) : State := { s with regs := [], arc := {}, gar := { s.gar with pairs := [], insts := [] } }

/-- All but the registers, the Archive and Garnet. -/
def beside (s : State) : State := { s with regs := [], arc := {}, gar := {} }

section
variable {T : Field → Prop} {s t : State}

theorem Works.calm_of_bare (h : Works T bare s t) : Works T calm s t := h.coarsen fun _ => rfl
theorem Works.beside_of_calm (h : Works T calm s t) : Works T beside s t := h.coarsen fun _ => rfl
theorem Works.beside_of_bare (h : Works T bare s t) : Works T beside s t := h.coarsen fun _ => rfl

theorem gar_of_calm (h : Works T calm s t) : { t.gar with pairs := s.gar.pairs, insts := s.gar.insts } = s.gar :=
  congrArg (fun u : State => { u.gar with pairs := s.gar.pairs, insts := s.gar.insts }) h.rest

theorem onlyRegs_of_bare (h : Works T bare s t) : t = { s with regs := t.regs } :=
  congrArg (fun u : State => { u with regs := t.regs }) h.rest

/-- Fields of the blocks `blks` only: the frame of a command. -/
theorem regs_out (h : Works T beside s t) (hs : s.regsWf = true) {blks : List Nat} (hT : ∀ g, T g → g.addr / 65536 ∈ blks)
    (a : Nat) (ha : a / 65536 ∉ blks) : t.rdw a = s.rdw a :=
  h.rdw hs ⟨⟨Nat.zero_lt_succ _, Nat.le_refl 32⟩, fun g hg => .inl fun (heq : a = g.addr) => ha (heq ▸ hT g hg)⟩

theorem leavesOut_of_beside {dt : Nat} (h : Works T beside (s.elapse dt) t) (hs : s.regsWf = true) {blks : List Nat}
    (hT : ∀ g, T g → g.addr / 65536 ∈ blks) : LeavesOut dt blks s t { t with gar := s.gar, arc := s.arc } :=
  ⟨regs_out h hs hT, fun a => (congrArg (fun u : State => u.memGet a) h.rest :),
    congrArg (fun u : State => { u with regs := s.regs, resp := s.resp, gar := s.gar, arc := s.arc }) h.rest⟩

end

/-! ### Families of fields -/

/-- The words of the Archive. -/
def Archive (g : Field) : Prop := g.addr / 65536 = 0x12

/-- What shows the instances, the pairs and the session: GAR_COND, bits 11 to 8 of GAR_STATUS, and GAR_OUTPUTS but for the request
lines. -/
def Shown (g : Field) : Prop := g.addr = Reg.GAR_COND ∨ (g.addr = Reg.GAR_STATUS ∧ 8 ≤ g.lo ∧ g.lo + g.len ≤ 12) ∨
  ∃ x < 4, g = Fld.GAR_OUTPUTS_HS x ∨ g = Fld.GAR_OUTPUTS_LS x ∨ g = Fld.GAR_OUTPUTS_HOLD x

/-- What a lock-out writes. -/
def Locking (g : Field) : Prop := g = Fld.GAR_STATUS_LOCKED ∨ (∃ j < 8, g = Fld.GAR_INST_RESULT j ∨ g = Fld.GAR_INST_STATE j) ∨
  g = word Reg.GAR_LOCKOUTS ∨ g = word (Reg.GAR_LOCKOUTS + 4) ∨ Archive g

/-- What a fault of an instance writes. -/
def Faulting (g : Field) : Prop := Locking g ∨ ∃ j < 8, g = Fld.GAR_INST_CAUSE j

/-- What a global fault writes. -/
def Global (g : Field) : Prop := Locking g ∨ g = Fld.GAR_GCAUSE_CAUSE ∨ g = Fld.GAR_STATUS_STATE ∨ g = Fld.GAR_STATUS_SESSION

section
variable {T : Field → Prop} {K : State → State} {s : State}

theorem works_takeSeq (src : Nat) (hK : ∀ u a r, K { u with arc := a, regs := r } = K u := by exact fun _ _ _ => rfl) :
    Works T K s (s.takeSeq src) := ⟨id, fun _ _ _ => rfl, hK s _ s.regs⟩

/-- An event joins its port, or is counted as refused. -/
theorem works_emit (hT : ∀ g, Archive g → T g) {coll : Nat} (hcoll : coll < 64) (blk code sev : Nat) (payload : List Byte)
    (hK : ∀ u a r, K { u with arc := a, regs := r } = K u := by exact fun _ _ _ => rfl) :
    Works T K s (s.emit blk code sev coll payload) := by
  have harc (a : Nat) (ha : a / 65536 = 0x12) : T (word a) := hT _ ha
  unfold State.emit State.emitAt
  refine works_ite ⟨id, fun _ _ _ => rfl, hK s _ s.regs⟩ ((works_takeSeq _ hK).trans ((works_inc64 ?_ ?_ fun u r => hK u u.arc r).trans
    (works_inc64 ?_ ?_ fun u r => hK u u.arc r)))
  · exact harc _ (by show (0x121020 + coll * 0x80) / 65536 = 18; omega)
  · exact harc _ (by show (0x121020 + coll * 0x80 + 4) / 65536 = 18; omega)
  · exact harc _ (by show (0x121038 + coll * 0x80) / 65536 = 18; omega)
  · exact harc _ (by show (0x121038 + coll * 0x80 + 4) / 65536 = 18; omega)

end

/-! ### What the operations of the evaluation write -/

section
variable {s : State} {j x : Nat}

theorem works_setResult (hj : j < 8) (r : Bool) (st : Nat) : Works Locking bare s (s.setResult j r st) :=
  (works_setB (f := Fld.GAR_INST_RESULT j) (by simp) (.inr (.inl ⟨j, hj, .inl rfl⟩)) r).trans
    (works_setF (f := Fld.GAR_INST_STATE j) (by simp) (.inr (.inl ⟨j, hj, .inr rfl⟩)) st)

theorem works_modPair (T : Field → Prop) (f : GarPair → GarPair) : Works T calm s (s.modPair x f) := works_modGar _
theorem works_modInst (T : Field → Prop) (f : GarInst → GarInst) : Works T calm s (s.modInst j f) := works_modGar _

theorem works_openPair (T : Field → Prop) (s : State) (x : Nat) : Works T calm s (s.openPair x) :=
  works_ite (.refl s) (works_modPair T _)

theorem works_endHold (s : State) (x reason : Nat) : Works Archive calm s (s.endHold x reason) :=
  works_ite (.refl s) (((works_ite (.refl s) (works_openPair Archive s x)).trans (works_modPair Archive _)).trans
    (works_emit (fun _ h => h) (by decide) ..))

/-- The pair of an instance opens, and its hold ends. -/
theorem works_lockInst (s : State) (hj : j < 8) : Works Locking calm s (s.lockInst j) := by
  unfold State.lockInst
  refine works_ite (.refl s) ?_
  have hshown : Works Locking calm s (((s.setF Fld.GAR_STATUS_LOCKED (s.getF Fld.GAR_STATUS_LOCKED ||| 2 ^ j)).inc64
      Reg.GAR_LOCKOUTS).setResult j false 5) :=
    ((works_setF (by decide) (.inl rfl) _).trans (works_inc64 (.inr (.inr (.inl rfl))) (.inr (.inr (.inr (.inl rfl)))))).trans
      (works_setResult hj ..).calm_of_bare
  dsimp only
  split
  · exact hshown.trans (((works_endHold ..).mono fun g hg => .inr (.inr (.inr (.inr hg)))).trans (works_openPair ..))
  · exact hshown

theorem works_garFault (s : State) (hj : j < 8) (b : Nat) : Works Faulting calm s (s.garFault j b) := by
  unfold State.garFault
  have hlock := (works_lockInst s hj).mono (U := Faulting) fun g hg => .inl hg
  refine works_ite hlock (hlock.trans ((works_setF (by simp) (.inr ⟨j, hj, rfl⟩) _).trans
    (works_emit (fun g hg => .inl (.inr (.inr (.inr (.inr hg))))) (by decide) ..)))

/-- GAR_COND, GAR_STATUS and GAR_OUTPUTS follow. -/
theorem works_garShow (s : State) : Works Shown bare s s.garShow := by
  have hcond {f : Field} (hf : f.lo + f.len ≤ 32) (ha : f.addr = Reg.GAR_COND) (v : Nat) {u : State} : Works Shown bare u (u.setF f v) :=
    works_setF hf (.inl ha) v
  have hstat {f : Field} (hf : 8 ≤ f.lo ∧ f.lo + f.len ≤ 12) (ha : f.addr = Reg.GAR_STATUS) (b : Bool) {u : State} :
      Works Shown bare u (u.setB f b) := works_setB (by omega) (.inr (.inl ⟨ha, hf⟩)) b
  have hout (u : State) (x : Nat) (hx : x ∈ List.range 4) (a b c : Bool) : Works Shown bare u
      (((u.setB (Fld.GAR_OUTPUTS_HS x) a).setB (Fld.GAR_OUTPUTS_LS x) b).setB (Fld.GAR_OUTPUTS_HOLD x) c) := by
    have hx : x < 4 := List.mem_range.mp hx
    exact ((works_setB (by show 4 * x + 0 + 1 ≤ 32; omega) (.inr (.inr ⟨x, hx, .inl rfl⟩)) a).trans
      (works_setB (by show 4 * x + 1 + 1 ≤ 32; omega) (.inr (.inr ⟨x, hx, .inr (.inl rfl)⟩)) b)).trans
      (works_setB (by show 4 * x + 3 + 1 ≤ 32; omega) (.inr (.inr ⟨x, hx, .inr (.inr rfl)⟩)) c)
  unfold State.garShow
  refine Works.trans ?_ (works_foldl _ fun u x hx => hout u x hx ..)
  exact (((((((hcond (by decide) rfl _).trans (hcond (by decide) rfl _)).trans (hcond (by decide) rfl _)).trans
    (hcond (by decide) rfl _)).trans (hstat (by decide) rfl _)).trans (hstat (by decide) rfl _)).trans
    (hstat (by decide) rfl _)).trans (hstat (by decide) rfl _)

end

/-! ### Lock-out (R163) -/

/-- The words of a lock-out. -/
def lockWrites (s : State) (j : Nat) : List RegOp :=
  [.field Fld.GAR_STATUS_LOCKED (s.getF Fld.GAR_STATUS_LOCKED ||| 2 ^ j), .count Reg.GAR_LOCKOUTS 1,
    .bit (Fld.GAR_INST_RESULT j) false, .field (Fld.GAR_INST_STATE j) 5]

section
variable {s : State} {j : Nat}

/-- The words stand before the hold ends, which writes the Archive at most. -/
theorem works_lockInst_of_free (h : s.locked j = false) : Works Archive calm (runAll s (lockWrites s j)) (s.lockInst j) := by
  unfold State.lockInst
  rw [if_neg (by rw [h]; decide)]
  dsimp only
  split
  · exact (works_endHold ..).trans (works_openPair ..)
  · exact .refl _

theorem spared_archive {f : Field} (hf : 0 < f.len ∧ f.lo + f.len ≤ 32) (ha : f.addr / 65536 ≠ 0x12) : Spared Archive f :=
  ⟨hf, fun _ hg => .inl fun h => ha (h ▸ hg)⟩

theorem testBit_or_two_pow (n : Nat) {i j : Nat} (hi : i < 8) : ((n ||| 2 ^ j) % 256).testBit i = (n.testBit i || decide (i = j)) := by
  rw [show 256 = 2 ^ 8 from rfl, Nat.testBit_mod_two_pow, Nat.testBit_or, Nat.testBit_two_pow]
  simp [hi, eq_comm]

variable (hs : s.regsWf = true) (hj : j < 8)
include hs

theorem wf_runAll (l : List RegOp) : (runAll s l).regsWf = true := by
  rw [runAll_eq_written]
  exact regsWf_of_regs hs (regs_written s l)

theorem locked_lockInst {i : Nat} (hi : i < 8) : (s.lockInst j).locked i = (s.locked i || decide (i = j)) := by
  cases hfree : s.locked j with
  | true =>
    rw [State.lockInst, if_pos hfree]
    by_cases hij : i = j
    · rw [hij, hfree]
      rfl
    · simp [hij]
  | false =>
    refine (congrArg (·.testBit i) ((works_lockInst_of_free hfree).reads (wf_runAll hs _) Fld.GAR_STATUS_LOCKED
      (spared_archive (by decide) (by decide)))).trans ?_
    rw [getF_of_regs hs rfl]
    simp (disch := grind) [lockWrites, RegOp.see]
    exact testBit_or_two_pow _ hi

include hj

theorem counted_lockInst (hfree : s.locked j = false) : Counted Reg.GAR_LOCKOUTS 1 s (s.lockInst j) := by
  refine ((works_lockInst_of_free hfree).rd64 (wf_runAll hs _) (spared_archive (by decide) (by decide))
    (spared_archive (by decide) (by decide))).trans ?_
  rw [rd64_of_regs hs rfl]
  simp (disch := grind) [lockWrites, RegOp.see]

theorem result_lockInst (hfree : s.locked j = false) : (s.lockInst j).result j = false := by
  refine ((works_lockInst_of_free hfree).bit (wf_runAll hs _) (spared_archive (by simp) ?_)).trans ?_
  · show (0x50020 + j * 4) / 65536 ≠ 0x12
    omega
  · rw [bit_of_regs hs rfl]
    simp (disch := grind) [lockWrites, RegOp.see]

end

/-! ### A fault of an instance (R163) -/

/-- What a fault writes after the lock-out. -/
def Causing (j : Nat) (g : Field) : Prop := g = Fld.GAR_INST_CAUSE j ∨ Archive g

section
variable {s : State} {j b : Nat}

theorem works_garFault_after (s : State) (j b : Nat) : Works (Causing j) calm (s.lockInst j) (s.garFault j b) :=
  works_ite (.refl _) ((works_setF (by simp) (.inl rfl) _).trans (works_emit (fun _ hg => .inr hg) (by decide) ..))

theorem spared_causing {f : Field} (hf : 0 < f.len ∧ f.lo + f.len ≤ 32) (ha : f.addr / 65536 ≠ 0x12)
    (hout : Apart f (Fld.GAR_INST_CAUSE j)) : Spared (Causing j) f :=
  ⟨hf, fun _ hg => hg.elim (fun h => h ▸ hout) fun h => .inl fun heq => ha (heq ▸ h)⟩

/-- A word or field of another word than those of the instances. -/
theorem apart_inst {f : Field} {j : Nat} (hj : j < 8) (lo len : Nat) (ha : f.addr < 0x50020 ∨ 0x50040 ≤ f.addr) :
    Apart f ⟨Reg.GAR_INST j, lo, len⟩ := .inl fun h => by
  have haddr : f.addr = 0x50020 + j * 4 := h
  omega

variable (hs : s.regsWf = true) (hj : j < 8)
include hs hj

theorem wf_lockInst : (s.lockInst j).regsWf = true := (works_lockInst s hj).wf hs

theorem locked_garFault {i : Nat} (hi : i < 8) : (s.garFault j b).locked i = (s.locked i || decide (i = j)) :=
  (congrArg (·.testBit i) ((works_garFault_after s j b).reads (wf_lockInst hs hj) Fld.GAR_STATUS_LOCKED
    (spared_causing (by decide) (by decide) (apart_inst hj _ _ (.inl (by decide)))))).trans (locked_lockInst hs hi)

theorem counted_garFault (hfree : s.locked j = false) : Counted Reg.GAR_LOCKOUTS 1 s (s.garFault j b) :=
  ((works_garFault_after s j b).rd64 (wf_lockInst hs hj)
    (spared_causing (by decide) (by decide) (apart_inst hj _ _ (.inr (by decide))))
    (spared_causing (by decide) (by decide) (apart_inst hj _ _ (.inr (by decide))))).trans (counted_lockInst hs hj hfree)

theorem result_garFault (hfree : s.locked j = false) : (s.garFault j b).result j = false := by
  refine ((works_garFault_after s j b).bit (wf_lockInst hs hj) (spared_causing (by simp) ?_ (.inr (.inl ?_)))).trans
    (result_lockInst hs hj hfree)
  · show (0x50020 + j * 4) / 65536 ≠ 0x12
    omega
  · show 3 + 1 ≤ 16
    decide

theorem cause_garFault (hb : b < 8) : ((s.garFault j b).getF (Fld.GAR_INST_CAUSE j)).testBit b = true := by
  have hkept : (s.lockInst j).getF (Fld.GAR_INST_CAUSE j) = s.getF (Fld.GAR_INST_CAUSE j) := by
    refine (works_lockInst s hj).reads hs _ ⟨by simp, fun g hg => ?_⟩
    rcases hg with rfl | ⟨i, hi, rfl | rfl⟩ | rfl | rfl | hg
    · exact .inl (by show 0x50020 + j * 4 ≠ 0x50000; omega)
    · exact .inr (.inr (by show 3 + 1 ≤ 16; decide))
    · exact .inr (.inr (by show 8 + 4 ≤ 16; decide))
    · exact .inl (by show 0x50020 + j * 4 ≠ 0x50120; omega)
    · exact .inl (by show 0x50020 + j * 4 ≠ 0x50124; omega)
    · exact .inl fun h => absurd ((congrArg (· / 65536) h).trans hg) (by show (0x50020 + j * 4) / 65536 ≠ 0x12; omega)
  unfold State.garFault
  dsimp only
  split
  case isTrue hset => rwa [hkept]
  case isFalse hclear =>
    refine (congrArg (·.testBit b) ((works_emit (T := Archive) (K := calm) (fun _ hg => hg) (coll := 57) (by decide) 0x05 0x0301 6 _).reads
      (regsWf_setF _ _ (wf_lockInst hs hj)) (Fld.GAR_INST_CAUSE j) (spared_archive (by simp) ?_))).trans ?_
    · show (0x50020 + j * 4) / 65536 ≠ 0x12
      omega
    · rw [getF_setF_self (by simp) _ (wf_lockInst hs hj)]
      exact (testBit_or_two_pow _ hb).trans (by simp)

end

/-! ### Pairs that open (R148, R167) -/

@[simp] theorem modGar_gar (s : State) (f : GarSt → GarSt) : (s.modGar f).gar = f s.gar := rfl

/-- No pair is closed that was not. -/
def Opens (s t : State) : Prop := ∀ x, (t.gpair x).closed = true → (s.gpair x).closed = true

section
variable {s t u : State}

theorem Opens.refl (s : State) : Opens s s := fun _ h => h
theorem Opens.trans (h : Opens s t) (k : Opens t u) : Opens s u := fun x hx => h x (k x hx)
theorem opens_of_pairs (h : t.gar.pairs = s.gar.pairs) : Opens s t := fun x hx => by
  rwa [State.gpair, ← h]

/-- A change of a pair that does not close it. -/
theorem opens_modPair (s : State) (x : Nat) {f : GarPair → GarPair} (hf : ∀ p, (f p).closed = true → p.closed = true) :
    Opens s (s.modPair x f) := fun y hy => by
  by_cases hxy : x = y
  · subst hxy
    rw [State.gpair, State.modPair, modGar_gar, tget_tmod_self] at hy
    exact hf _ hy
  · rwa [State.gpair, State.modPair, modGar_gar, tget_tmod_ne _ hxy] at hy

theorem opens_openPair (s : State) (x : Nat) : Opens s (s.openPair x) := by
  unfold State.openPair
  split
  · exact .refl s
  · exact opens_modPair s x fun _ h => nomatch h

theorem closed_openPair (s : State) (x : Nat) : ((s.openPair x).gpair x).closed = false := by
  unfold State.openPair
  split
  case isTrue hopen => simpa using hopen
  case isFalse => rw [State.gpair, State.modPair, modGar_gar, tget_tmod_self]

theorem opens_endHold (s : State) (x reason : Nat) : Opens s (s.endHold x reason) := by
  unfold State.endHold
  dsimp only
  split
  · exact .refl s
  · refine Opens.trans ?_ (opens_of_pairs (congrArg GarSt.pairs (emit_gar ..)))
    refine Opens.trans ?_ (opens_modPair _ x fun _ h => h)
    split
    · exact .refl s
    · exact opens_openPair s x

theorem opens_lockInst (s : State) (j : Nat) : Opens s (s.lockInst j) := by
  unfold State.lockInst
  dsimp only
  split
  · exact .refl s
  · have hshown : Opens s (((s.setF Fld.GAR_STATUS_LOCKED (s.getF Fld.GAR_STATUS_LOCKED ||| 2 ^ j)).inc64
        Reg.GAR_LOCKOUTS).setResult j false 5) := opens_of_pairs (congrArg GarSt.pairs (by simp [State.setResult]))
    split
    · exact hshown.trans ((opens_endHold _ _ _).trans (opens_openPair _ _))
    · exact hshown

theorem opens_garFault (s : State) (j b : Nat) : Opens s (s.garFault j b) := by
  unfold State.garFault
  dsimp only
  split
  · exact opens_lockInst s j
  · exact (opens_lockInst s j).trans (opens_of_pairs (congrArg GarSt.pairs (by simp)))

theorem opens_foldl {α : Type} (l : List α) {f : State → α → State} (h : ∀ u x, Opens u (f u x)) (s : State) :
    Opens s (l.foldl f s) := by
  induction l generalizing s with
  | nil => exact .refl s
  | cons x l ih => exact (h s x).trans (ih _)

/-- Every pair of a list is open once each has been opened in its turn. -/
theorem closed_foldl (l : List Nat) {f : State → Nat → State} (hopens : ∀ u x, Opens u (f u x))
    (hopen : ∀ u x, ((f u x).gpair x).closed = false) (s : State) {x : Nat} (hx : x ∈ l) :
    ((l.foldl f s).gpair x).closed = false := by
  induction l generalizing s with
  | nil => exact absurd hx List.not_mem_nil
  | cons y l ih =>
    rw [List.foldl_cons]
    by_cases hl : x ∈ l
    · exact ih _ hl
    · obtain rfl := (List.mem_cons.mp hx).resolve_right hl
      refine Bool.eq_false_iff.mpr fun hclosed => ?_
      exact absurd (opens_foldl l hopens _ x hclosed) (by rw [hopen]; decide)

end

/-! ### A global fault (R163, R173) -/

/-- The cause may not clear. -/
def clearing (s : State) (b : Nat) : State := s.modGar fun g => { g with clearable := g.clearable &&& (31 - 2 ^ b) }

/-- The cause is latched before any instance is locked. -/
def latched (s : State) (b : Nat) : State :=
  ((clearing s b).setF Fld.GAR_GCAUSE_CAUSE (s.getF Fld.GAR_GCAUSE_CAUSE ||| 2 ^ b)).setF Fld.GAR_STATUS_STATE 2

/-- Every used instance is locked. -/
def allLocked (s : State) (b : Nat) : State := (latched s b).gused.foldl (fun s j => s.lockInst j) (latched s b)

/-- A pair is let go: its hold ends, and it opens. -/
def letGo (s : State) (x : Nat) : State := (s.endHold x 3).openPair x

theorem opens_letGo (s : State) (x : Nat) : Opens s (letGo s x) := (opens_endHold s x 3).trans (opens_openPair _ x)
theorem closed_letGo (s : State) (x : Nat) : ((letGo s x).gpair x).closed = false := closed_openPair ..

/-- Every pair is open. -/
def allOpen (s : State) (b : Nat) : State := (List.range 4).foldl letGo (allLocked s b)

/-- What a global fault writes after the pairs have opened. -/
def Ending (g : Field) : Prop := g = Fld.GAR_STATUS_SESSION ∨ Archive g

section
variable {s : State} {b : Nat}

theorem garGlobal_eq (s : State) (b : Nat) : s.garGlobal b =
    if (s.getF Fld.GAR_GCAUSE_CAUSE).testBit b then (if b = 4 then allOpen s b else (allOpen s b).endSession)
    else (if b = 4 then allOpen s b else (allOpen s b).endSession).emit 0x05 0x0301 6 57
      (p4 [0xFF, s.getF Fld.GAR_GCAUSE_CAUSE ||| 2 ^ b]) := rfl

theorem mem_gused {j : Nat} (h : j ∈ s.gused) : j < 8 := List.mem_range.mp (List.mem_filter.mp h).1

theorem works_allLocked (s : State) (b : Nat) : Works Locking calm (latched s b) (allLocked s b) :=
  works_foldl _ fun u _ hj => works_lockInst u (mem_gused hj)

theorem works_allOpen (s : State) (b : Nat) : Works Archive calm (allLocked s b) (allOpen s b) :=
  works_foldl _ fun u x _ => (works_endHold u x 3).trans (works_openPair _ _ x)

theorem works_endSession (s : State) : Works Ending beside s s.endSession :=
  (works_modGar _).trans (works_setB (by decide) (.inl rfl) false)

theorem works_garGlobal_after (s : State) (b : Nat) : Works Ending beside (allOpen s b) (s.garGlobal b) := by
  have hsession : Works Ending beside (allOpen s b) (if b = 4 then allOpen s b else (allOpen s b).endSession) :=
    works_ite (.refl _) (works_endSession _)
  rw [garGlobal_eq]
  exact works_ite hsession (hsession.trans (works_emit (fun _ hg => .inr hg) (by decide) ..))

/-- ENTER_LOCKOUT leaves the session as it is (R174). -/
theorem works_garGlobal_maintenance (s : State) : Works Ending calm (allOpen s 4) (s.garGlobal 4) := by
  rw [garGlobal_eq]
  exact works_ite (.refl _) (works_emit (fun _ hg => .inr hg) (by decide) ..)

theorem works_latched (s : State) (b : Nat) : Works Global calm (clearing s b) (latched s b) :=
  (works_setF (by decide) (.inr (.inl rfl)) _).trans (works_setF (by decide) (.inr (.inr (.inl rfl))) 2)

theorem global_of_ending {g : Field} (h : Ending g) : Global g :=
  h.elim (fun h => .inr (.inr (.inr h))) fun h => .inl (.inr (.inr (.inr (.inr h))))

theorem works_garGlobal (s : State) (b : Nat) : Works Global beside s (s.garGlobal b) :=
  ((works_modGar _).trans ((works_latched s b).trans (((works_allLocked s b).mono fun _ h => .inl h).trans
    ((works_allOpen s b).mono fun _ h => global_of_ending (.inr h)))).beside_of_calm).trans
    ((works_garGlobal_after s b).mono fun _ h => global_of_ending h)

theorem spared_ending {f : Field} (hf : 0 < f.len ∧ f.lo + f.len ≤ 32) (ha : f.addr / 65536 ≠ 0x12)
    (hout : Apart f Fld.GAR_STATUS_SESSION) : Spared Ending f :=
  ⟨hf, fun _ hg => hg.elim (fun h => h ▸ hout) fun h => .inl fun heq => ha (heq ▸ h)⟩

theorem spared_locking {f : Field} (hf : 0 < f.len ∧ f.lo + f.len ≤ 32) (ha : f.addr < 0x50020) (hout : Apart f Fld.GAR_STATUS_LOCKED) :
    Spared Locking f := by
  refine ⟨hf, fun g hg => ?_⟩
  rcases hg with rfl | ⟨i, hi, rfl | rfl⟩ | rfl | rfl | hg
  · exact hout
  · exact apart_inst hi _ _ (.inl ha)
  · exact apart_inst hi _ _ (.inl ha)
  · exact .inl (by show f.addr ≠ 0x50120; omega)
  · exact .inl (by show f.addr ≠ 0x50124; omega)
  · exact .inl fun h => absurd ((congrArg (· / 65536) h).trans hg) (by show f.addr / 65536 ≠ 0x12; omega)

/-- What the pairs that a global fault closes leave closed. -/
theorem pairs_garGlobal (s : State) (b : Nat) : (s.garGlobal b).gar.pairs = (allOpen s b).gar.pairs := by
  have hsession : (if b = 4 then allOpen s b else (allOpen s b).endSession).gar.pairs = (allOpen s b).gar.pairs := by
    split
    · rfl
    · simp [State.endSession]
  rw [garGlobal_eq]
  split
  · exact hsession
  · rw [emit_gar, hsession]

theorem closed_garGlobal (s : State) (b : Nat) (x : Fin 4) : ((s.garGlobal b).gpair x.val).closed = false := by
  rw [State.gpair, pairs_garGlobal]
  show ((allOpen s b).gpair x.val).closed = false
  exact closed_foldl (List.range 4) opens_letGo closed_letGo (allLocked s b) (List.mem_range.mpr x.isLt)

theorem opens_garGlobal (s : State) (b : Nat) : Opens s (s.garGlobal b) := by
  have hlatched : Opens s (latched s b) := opens_of_pairs (by simp [latched, clearing])
  have hlocked : Opens (latched s b) (allLocked s b) := opens_foldl _ opens_lockInst _
  have hopen : Opens (allLocked s b) (allOpen s b) := opens_foldl _ opens_letGo _
  exact hlatched.trans (hlocked.trans (hopen.trans (opens_of_pairs (pairs_garGlobal s b))))

theorem gused_latched (s : State) (b : Nat) : (latched s b).gused = s.gused := by
  simp [latched, clearing, State.gused, State.gtype, State.gimg]

variable (hs : s.regsWf = true)
include hs

theorem wf_latched : (latched s b).regsWf = true := regsWf_setF _ _ (regsWf_setF _ _ hs)

theorem wf_allOpen : (allOpen s b).regsWf = true := (works_allOpen s b).wf ((works_allLocked s b).wf (wf_latched hs))

/-- A field of a low word that a lock-out spares stands as it was latched. -/
theorem getF_garGlobal {f : Field} (hf : 0 < f.len ∧ f.lo + f.len ≤ 32) (ha : f.addr < 0x50020)
    (hout : Apart f Fld.GAR_STATUS_LOCKED) (hout' : Apart f Fld.GAR_STATUS_SESSION) :
    (s.garGlobal b).getF f = (latched s b).getF f :=
  ((works_garGlobal_after s b).reads (wf_allOpen hs) f (spared_ending hf (by omega) hout')).trans
    (((works_allOpen s b).reads ((works_allLocked s b).wf (wf_latched hs)) f (spared_archive hf (by omega))).trans
      ((works_allLocked s b).reads (wf_latched hs) f (spared_locking hf ha hout)))

theorem state_garGlobal : (s.garGlobal b).getF Fld.GAR_STATUS_STATE = 2 := by
  rw [getF_garGlobal hs (by decide) (by decide) (.inr (.inl (by decide))) (.inr (.inl (by decide))), latched,
    getF_setF_self (by decide) _ (regsWf_setF (s := clearing s b) _ _ hs)]
  rfl

theorem cause_garGlobal (hb : b < 5) (i : Nat) : ((s.garGlobal b).getF Fld.GAR_GCAUSE_CAUSE).testBit i =
    ((s.getF Fld.GAR_GCAUSE_CAUSE).testBit i || decide (i = b)) := by
  have hlt : s.getF Fld.GAR_GCAUSE_CAUSE < 2 ^ 5 := getF_lt ..
  have hor : s.getF Fld.GAR_GCAUSE_CAUSE ||| 2 ^ b < 2 ^ 5 := Nat.or_lt_two_pow hlt (Nat.pow_lt_pow_right (by decide) hb)
  rw [getF_garGlobal hs (by decide) (by decide) (.inl (by decide)) (.inl (by decide)), latched,
    getF_setF_ne (by decide) (by decide) (by decide) _ (regsWf_setF (s := clearing s b) _ _ hs),
    getF_setF_self (s := clearing s b) (by decide) _ hs, Nat.mod_eq_of_lt hor, Nat.testBit_or, Nat.testBit_two_pow]
  simp [eq_comm]

/-- A list of instances, locked one after the other. -/
theorem locked_foldl (l : List Nat) (hl : ∀ j ∈ l, j < 8) {i : Nat} (hi : i < 8) :
    (l.foldl (fun s j => s.lockInst j) s).locked i = (s.locked i || decide (i ∈ l)) := by
  induction l generalizing s with
  | nil => simp
  | cons j l ih =>
    rw [List.foldl_cons, ih (wf_lockInst hs (hl j List.mem_cons_self)) fun j hj => hl j (List.mem_cons_of_mem _ hj),
      locked_lockInst hs hi, Bool.or_assoc]
    simp

theorem locked_garGlobal {j : Nat} (hj : j ∈ s.gused) : (s.garGlobal b).locked j = true := by
  have hlocked : (allLocked s b).locked j = true := by
    rw [allLocked, locked_foldl (wf_latched hs) _ (fun _ h => mem_gused h) (mem_gused hj), gused_latched]
    simp [hj]
  refine (congrArg (·.testBit j) ((works_garGlobal_after s b).reads (wf_allOpen hs) Fld.GAR_STATUS_LOCKED
    (spared_ending (by decide) (by decide) (.inr (.inr (by decide)))))).trans ?_
  refine (congrArg (·.testBit j) ((works_allOpen s b).reads ((works_allLocked s b).wf (wf_latched hs)) Fld.GAR_STATUS_LOCKED
    (spared_archive (by decide) (by decide)))).trans hlocked

end

end Sys2Proof.Proofs.GarnetFrames

/-! Garnet's configuration sessions and images: what each command of GAR_CFGCMD leaves (R171 to R176). -/

namespace Sys2Proof.Proofs.GarnetSessions

open Sys2Proof Sys2Proof.Machine Sys2Proof.Laws Sys2Proof.Proofs.Time Sys2Proof.Proofs.Measurement Sys2Proof.Proofs.Power
open Sys2Proof.Proofs.RegOps Sys2Proof.Proofs.CustodyReleased Sys2Proof.Proofs.GarnetFrames

/-! ### GAR_STATUS shows the session and the pending image (R179) -/

/-- GAR_OUTPUTS but for the request lines. -/
def Outputs (g : Field) : Prop := g.addr = Reg.GAR_OUTPUTS

section
variable {s : State}

/-- GAR_COND and GAR_STATUS follow. -/
def condShown (s : State) : State :=
  let stp := s.gused.find? fun j => s.gtype j == 6
  let still := match stp with
    | some j => s.result j
    | none => false
  let scp := still && (match stp with
    | some j => s.healthy2 j && !s.locked j
    | none => false)
  let s := ((s.setB Fld.GAR_COND_STANDSTILL still).setB Fld.GAR_COND_SCP scp).setF Fld.GAR_COND_RESULT
    ((List.range 8).map fun j => 2 ^ j * b2n (s.result j)).sum
  let s := s.setB Fld.GAR_COND_ANY_LO (s.getF Fld.GAR_STATUS_LOCKED != 0 || s.getF Fld.GAR_STATUS_STATE == 2)
  (s.setB Fld.GAR_STATUS_STANDSTILL still).setB Fld.GAR_STATUS_SCP scp

theorem gar_condShown (s : State) : (condShown s).gar = s.gar := by simp [condShown]

theorem works_outputs (s : State) : Works Outputs bare (((condShown s).setB Fld.GAR_STATUS_PENDING s.gar.pending.isSome).setB
    Fld.GAR_STATUS_SESSION s.gar.session.isSome) s.garShow := by
  have hbit (u : State) {f : Field} (ha : f.addr = Reg.GAR_OUTPUTS) (hf : f.lo + f.len ≤ 32) (b : Bool) :
      Works Outputs bare u (u.setB f b) := works_setB hf ha b
  have hout (u : State) (x : Nat) (hx : x ∈ List.range 4) (a b c : Bool) : Works Outputs bare u
      (((u.setB (Fld.GAR_OUTPUTS_HS x) a).setB (Fld.GAR_OUTPUTS_LS x) b).setB (Fld.GAR_OUTPUTS_HOLD x) c) := by
    have hx : x < 4 := List.mem_range.mp hx
    exact ((hbit _ rfl (by show 4 * x + 0 + 1 ≤ 32; omega) a).trans (hbit _ rfl (by show 4 * x + 1 + 1 ≤ 32; omega) b)).trans
      (hbit _ rfl (by show 4 * x + 3 + 1 ≤ 32; omega) c)
  exact Works.trans (.refl _) (works_foldl _ fun u x hx => hout u x hx ..)

theorem spared_outputs {f : Field} (hf : 0 < f.len ∧ f.lo + f.len ≤ 32) (ha : f.addr ≠ Reg.GAR_OUTPUTS) : Spared Outputs f :=
  ⟨hf, fun _ hg => .inl fun h => ha (h.trans hg)⟩

variable (hs : s.regsWf = true)
include hs

theorem wf_condShown : (condShown s).regsWf = true :=
  regsWf_setB _ _ (regsWf_setB _ _ (regsWf_setB _ _ (regsWf_setF _ _ (regsWf_setB _ _ (regsWf_setB _ _ hs)))))

theorem session_garShow : s.garShow.bit Fld.GAR_STATUS_SESSION = s.gar.session.isSome := by
  rw [(works_outputs s).bit (regsWf_setB _ _ (regsWf_setB _ _ (wf_condShown hs))) (spared_outputs (by decide) (by decide)),
    bit_setB_self (by decide) rfl _ (regsWf_setB _ _ (wf_condShown hs))]

theorem pending_garShow : s.garShow.bit Fld.GAR_STATUS_PENDING = s.gar.pending.isSome := by
  rw [(works_outputs s).bit (regsWf_setB _ _ (regsWf_setB _ _ (wf_condShown hs))) (spared_outputs (by decide) (by decide)),
    bit_setB_ne (by decide) (by decide) (by decide) _ (regsWf_setB _ _ (wf_condShown hs)),
    bit_setB_self (by decide) rfl _ (wf_condShown hs)]

end

/-! ### Register programs within a family of fields -/

/-- An operation that writes fields of `T` only. -/
def Within (T : Field → Prop) : RegOp → Prop
  | .field f _ => f.lo + f.len ≤ 32 ∧ T f
  | .word a _ => T (word a)
  | .pair a _ => T (word a) ∧ T (word (a + 4))
  | .count a _ => T (word a) ∧ T (word (a + 4))

theorem works_run {T : Field → Prop} {s : State} {o : RegOp} (h : Within T o) : Works T bare s (o.run s) := by
  cases o with
  | field f v => exact works_setF h.1 h.2 v
  | word a v => exact works_wr h v
  | pair a v => exact works_wr64 h.1 h.2 v
  | count a n => exact works_wr64 h.1 h.2 _

theorem works_written {T : Field → Prop} {s : State} (l : List RegOp) (h : ∀ o ∈ l, Within T o) : Works T bare s (written s l) := by
  rw [← runAll_eq_written]
  exact works_foldl l fun u o ho => works_run (h o ho)

/-! ### A command begins (R172) -/

/-- The command keeps the session open. -/
def touched (s : State) : State := s.modGar fun g => { g with session := g.session.map fun x => (x.1, s.time.clock) }

/-- The command is busy with its result to come. -/
def awaiting (s : State) (cmd r : Nat) : State := s.modGar fun g => { g with busy := some (cmd, r) }

def beginWrites (cmd : Nat) : List RegOp :=
  [.bit Fld.GAR_CFGRES_BUSY true, .field Fld.GAR_CFGRES_CMD cmd, .field Fld.GAR_CFGRES_RESULT 0]

/-- The command is shown as busy. -/
def begun (s : State) (cmd r : Nat) : State := (awaiting (written s (beginWrites cmd)) cmd r).garShow

/-- What the start of a command writes. -/
def Answering (g : Field) : Prop := g.addr = Reg.GAR_CFGRES ∨ Shown g

theorem cfgRun_begins {s : State} (hon : s.gar.powered = true) (hidle : s.gar.busy = none) (cmd : Nat) (f : State → State × Nat) :
    s.cfgRun cmd f = begun (f (touched s)).1 cmd (f (touched s)).2 :=
  (if_neg (by rw [hon]; decide)).trans ((if_neg (by rw [hidle]; decide)).trans
    (congrArg (fun u : State => (awaiting u cmd (f (touched s)).2).garShow)
      (runAll_eq_written (f (touched s)).1 (beginWrites cmd))))

section
variable {s : State} (cmd r : Nat)

theorem works_begun (s : State) (cmd r : Nat) : Works Answering bare (awaiting s cmd r) (begun s cmd r) := by
  refine Works.trans ?_ ((works_garShow _).mono fun _ h => .inr h)
  show Works Answering bare (awaiting s cmd r) (awaiting (written s (beginWrites cmd)) cmd r)
  rw [show awaiting (written s (beginWrites cmd)) cmd r = written (awaiting s cmd r) (beginWrites cmd) from
    (written_of_regs (s := s) (u := awaiting s cmd r) rfl _).symm]
  refine works_written _ fun o ho => ?_
  rcases List.mem_cons.mp ho with rfl | ho
  · exact ⟨by decide, .inl rfl⟩
  rcases List.mem_cons.mp ho with rfl | ho
  · exact ⟨by decide, .inl rfl⟩
  rw [List.mem_singleton.mp ho]
  exact ⟨by decide, .inl rfl⟩

theorem spared_shown {f : Field} (hf : 0 < f.len ∧ f.lo + f.len ≤ 32) (ha : f.addr ≠ Reg.GAR_COND)
    (hstat : f.addr ≠ Reg.GAR_STATUS ∨ f.lo + f.len ≤ 8 ∨ 12 ≤ f.lo) (hout : f.addr ≠ Reg.GAR_OUTPUTS) : Spared Shown f := by
  refine ⟨hf, fun g hg => ?_⟩
  rcases hg with hg | ⟨hg, hlo, hhi⟩ | ⟨x, hx, rfl | rfl | rfl⟩
  · exact .inl fun h => ha (h.trans hg)
  · rcases hstat with h | h | h
    · exact .inl fun k => h (k.trans hg)
    · exact .inr (.inl (by omega))
    · exact .inr (.inr (by omega))
  · exact .inl hout
  · exact .inl hout
  · exact .inl hout

/-- A field of a word other than those that show a command, the instances and the pairs. -/
theorem spared_answering {f : Field} (hf : 0 < f.len ∧ f.lo + f.len ≤ 32) (hres : f.addr ≠ Reg.GAR_CFGRES)
    (ha : f.addr ≠ Reg.GAR_COND) (hstat : f.addr ≠ Reg.GAR_STATUS ∨ f.lo + f.len ≤ 8 ∨ 12 ≤ f.lo)
    (hout : f.addr ≠ Reg.GAR_OUTPUTS) : Spared Answering f :=
  ⟨hf, fun g hg => hg.elim (fun h => .inl fun k => hres (k.trans h)) ((spared_shown hf ha hstat hout).2 g)⟩

variable (hs : s.regsWf = true)
include hs

theorem wf_awaiting : (awaiting (written s (beginWrites cmd)) cmd r).regsWf = true :=
  regsWf_of_regs hs (t := awaiting (written s (beginWrites cmd)) cmd r) (regs_written s _)

theorem busy_begun : (begun s cmd r).bit Fld.GAR_CFGRES_BUSY = true := by
  refine ((works_garShow _).bit (wf_awaiting cmd r hs) (spared_shown (by decide) (by decide) (by decide) (by decide))).trans ?_
  refine (bit_of_regs hs (regs_written s _) _).trans ?_
  simp (disch := decide) [beginWrites, RegOp.see]

theorem cmd_begun : (begun s cmd r).getF Fld.GAR_CFGRES_CMD = cmd % 256 := by
  refine ((works_garShow _).reads (wf_awaiting cmd r hs) _
    (spared_shown (by decide) (by decide) (by decide) (by decide))).trans ?_
  refine (getF_of_regs hs (regs_written s _) _).trans ?_
  simp (disch := decide) [beginWrites, RegOp.see]

theorem session_begun : (begun s cmd r).bit Fld.GAR_STATUS_SESSION = s.gar.session.isSome :=
  session_garShow (wf_awaiting cmd r hs)

theorem pending_begun : (begun s cmd r).bit Fld.GAR_STATUS_PENDING = s.gar.pending.isSome :=
  pending_garShow (wf_awaiting cmd r hs)

end

/-! ### Frames -/

/-- All but the registers and Garnet. -/
def besideGar (s : State) : State := { s with regs := [], gar := {} }

/-- The answer to the requester is no part of a frame. -/
theorem leavesOut_answered {T : Field → Prop} {s u : State} {dt : Nat} (h : Works T beside (s.elapse dt) u)
    (hs : s.regsWf = true) {blks : List Nat} (hT : ∀ g, T g → g.addr / 65536 ∈ blks) :
    LeavesOut dt blks s (u.respond 0 0) { u.respond 0 0 with gar := s.gar, arc := s.arc } :=
  ⟨regs_out h hs hT, fun a => (congrArg (fun u : State => u.memGet a) h.rest :),
    congrArg (fun u : State => { u with regs := s.regs, resp := s.resp, gar := s.gar, arc := s.arc }) h.rest⟩

/-- The frame of a change of registers and of Garnet alone, where `g` is what is left of Garnet. -/
theorem leavesOut_of_gar {T : Field → Prop} {s u : State} {dt : Nat} (h : Works T besideGar (s.elapse dt) u)
    (hs : s.regsWf = true) {blks : List Nat} (hT : ∀ g, T g → g.addr / 65536 ∈ blks) {g : GarSt} (hg : g = s.gar) :
    LeavesOut dt blks s u { u with gar := g } := by
  subst hg
  exact ⟨regs_out (h.coarsen fun _ => rfl) hs hT, fun a => (congrArg (fun u : State => u.memGet a) h.rest :),
    congrArg (fun u : State => { u with regs := s.regs, resp := s.resp, gar := s.gar }) h.rest⟩

theorem leavesOut_answered_gar {T : Field → Prop} {s u : State} {dt : Nat} (h : Works T besideGar (s.elapse dt) u)
    (hs : s.regsWf = true) {blks : List Nat} (hT : ∀ g, T g → g.addr / 65536 ∈ blks) {g : GarSt} (hg : g = s.gar) :
    LeavesOut dt blks s (u.respond 0 0) { u.respond 0 0 with gar := g } := leavesOut_of_gar h hs hT hg

/-! ### The change log (R176) -/

/-- The words of the change log, and the Archive. -/
def Logging (g : Field) : Prop := (0x52000 ≤ g.addr ∧ g.addr < 0x56000) ∨ Archive g

/-- All but the registers, the Archive and the number of the last change. -/
def unlogged (s : State) : State := { s with regs := [], arc := {}, gar := { s.gar with logSeq := 0 } }

theorem works_logged (s : State) (n : Nat) : Works Logging unlogged s (s.modGar fun g => { g with logSeq := n }) := works_modGar _

/-- The entry of a change, as the log holds it, and the words of its place. -/
def logEntry (s : State) (kind result user before after : Nat) (img : Option (List Byte)) : List Byte :=
  leBytes 4 (s.gar.logSeq + 1) ++ leBytes 1 kind ++ leBytes 1 result ++ leBytes 2 0 ++ leBytes 8 s.time.mt ++
    leBytes 4 (s.opTime / 1000000000) ++ leBytes 4 user ++ leBytes 4 before ++ leBytes 4 after ++
    (match img with
      | some l => sha256Bytes (l.take (imgLen l))
      | none => List.replicate 32 0)

def logWrites (n : Nat) (e : List Byte) : List RegOp :=
  (List.range 16).map fun i => .word (Reg.GAR_LOG (n % 256) + 4 * i) (leNat ((e.drop (4 * i)).take 4))

theorem garLog_eq (s : State) (kind result user before after : Nat) (img : Option (List Byte)) :
    s.garLog kind result user before after img =
      ((written s (logWrites s.gar.logSeq (logEntry s kind result user before after img))).modGar fun g =>
        { g with logSeq := s.gar.logSeq + 1 }).emit 0x05 0x0309 2 57 (logEntry s kind result user before after img) :=
  congrArg (fun u : State => (u.modGar fun g => { g with logSeq := s.gar.logSeq + 1 }).emit 0x05 0x0309 2 57
    (logEntry s kind result user before after img)) (foldl_eq_written s (fun i => .word (Reg.GAR_LOG (s.gar.logSeq % 256) + 4 * i)
      (leNat (((logEntry s kind result user before after img).drop (4 * i)).take 4))) (List.range 16))

theorem within_logWrites (n : Nat) (e : List Byte) : ∀ o ∈ logWrites n e, Within Logging o := by
  intro o ho
  obtain ⟨i, hi, rfl⟩ := List.mem_map.mp ho
  have hi : i < 16 := List.mem_range.mp hi
  refine .inl ⟨?_, ?_⟩
  · show 0x52000 ≤ 0x52000 + _ * 0x40 + 4 * i
    omega
  · show 0x52000 + n % 256 * 0x40 + 4 * i < 0x56000
    omega

theorem works_garLog (s : State) (kind result user before after : Nat) (img : Option (List Byte)) :
    Works Logging unlogged s (s.garLog kind result user before after img) := by
  rw [garLog_eq]
  exact (((works_written _ (within_logWrites _ _)).coarsen fun _ => rfl).trans (works_logged ..)).trans
    (works_emit (fun _ h => .inr h) (by decide) ..)

theorem spared_logging {f : Field} (hf : 0 < f.len ∧ f.lo + f.len ≤ 32) (ha : f.addr < 0x52000) : Spared Logging f :=
  ⟨hf, fun g hg => .inl fun h => hg.elim (fun k => absurd k.1 (by omega))
    fun k => absurd ((congrArg (· / 65536) h).trans k) (by show f.addr / 65536 ≠ 0x12; omega)⟩

theorem gar_of_unlogged {s t : State} (h : unlogged t = unlogged s) : t.gar = { s.gar with logSeq := t.gar.logSeq } :=
  congrArg (fun u : State => { u.gar with logSeq := t.gar.logSeq }) h

/-- What the change log leaves of Garnet. -/
theorem gar_garLog (s : State) (kind result user before after : Nat) (img : Option (List Byte)) :
    ∃ n, (s.garLog kind result user before after img).gar = { s.gar with logSeq := n } :=
  ⟨_, gar_of_unlogged (works_garLog s kind result user before after img).rest⟩

/-! ### Blocks of the families -/

theorem block_shown {g : Field} (h : Shown g) : g.addr / 65536 = 0x05 := by
  have hword {a : Nat} (ha : a / 65536 = 0x05) (h : g.addr = a) : g.addr / 65536 = 0x05 := h ▸ ha
  rcases h with h | ⟨h, -⟩ | ⟨x, -, h | h | h⟩
  · exact hword (by decide) h
  · exact hword (by decide) h
  · exact hword (a := Reg.GAR_OUTPUTS) (by decide) (congrArg Field.addr h)
  · exact hword (a := Reg.GAR_OUTPUTS) (by decide) (congrArg Field.addr h)
  · exact hword (a := Reg.GAR_OUTPUTS) (by decide) (congrArg Field.addr h)

theorem block_answering {g : Field} (h : Answering g) : g.addr / 65536 = 0x05 := h.elim (fun h => h ▸ by decide) block_shown

theorem block_ending {g : Field} (h : Ending g) : g.addr / 65536 ∈ [0x05, 0x12] := by
  rcases h with rfl | h
  · decide
  · exact List.mem_cons_of_mem _ (List.mem_singleton.mpr h)

theorem block_locking {g : Field} (h : Locking g) : g.addr / 65536 ∈ [0x05, 0x12] := by
  rcases h with rfl | ⟨j, hj, rfl | rfl⟩ | rfl | rfl | h
  · decide
  · exact List.mem_cons.mpr (.inl (by show (0x50020 + j * 4) / 65536 = 5; omega))
  · exact List.mem_cons.mpr (.inl (by show (0x50020 + j * 4) / 65536 = 5; omega))
  · decide
  · decide
  · exact List.mem_cons_of_mem _ (List.mem_singleton.mpr h)

theorem block_global {g : Field} (h : Global g) : g.addr / 65536 ∈ [0x05, 0x12] := by
  rcases h with h | rfl | rfl | rfl
  · exact block_locking h
  · decide
  · decide
  · decide

theorem block_faulting {g : Field} (h : Faulting g) : g.addr / 65536 ∈ [0x05, 0x12] := by
  rcases h with h | ⟨j, hj, rfl⟩
  · exact block_locking h
  · exact List.mem_cons.mpr (.inl (by show (0x50020 + j * 4) / 65536 = 5; omega))

theorem block_logging {g : Field} (h : Logging g) : g.addr / 65536 ∈ [0x05, 0x12] := by
  rcases h with h | h
  · exact List.mem_cons.mpr (.inl (by omega))
  · exact List.mem_cons_of_mem _ (List.mem_singleton.mpr h)

/-- A field of Garnet or of the Archive. -/
def Garnet (g : Field) : Prop := g.addr / 65536 ∈ [0x05, 0x12]

theorem garnet_answering {g : Field} (h : Answering g) : Garnet g := List.mem_cons.mpr (.inl (block_answering h))

theorem garnet_of_archive {g : Field} (h : Archive g) : Garnet g := List.mem_cons_of_mem _ (List.mem_singleton.mpr h)

theorem garnet_word {a : Nat} (h : a / 65536 = 0x05) : Garnet (word a) := List.mem_cons.mpr (.inl h)

theorem works_garLog_beside (s : State) (kind result user before after : Nat) (img : Option (List Byte)) :
    Works Garnet beside s (s.garLog kind result user before after img) :=
  ((works_garLog s kind result user before after img).coarsen fun _ => rfl).mono fun _ => block_logging

/-! ### The window (R172) -/

theorem cfgWin_of_regs {s t : State} (h : t.regs = s.regs) (ofs n : Nat) : t.cfgWin ofs n = s.cfgWin ofs n := by
  have hrd : t.rd = s.rd := funext fun a => by rw [State.rd, State.rd, State.rdw, State.rdw, h]
  rw [State.cfgWin, State.cfgWin, hrd]

theorem cfgPassword_of_regs {s t : State} (h : t.regs = s.regs) (ofs : Nat) : t.cfgPassword ofs = s.cfgPassword ofs := by
  rw [State.cfgPassword, State.cfgPassword, cfgWin_of_regs h]

theorem passwordOk_touched (s : State) (p : List Byte) : (touched s).passwordOk p = s.passwordOk p := rfl
theorem passwordOk_elapse (s : State) (dt : Nat) (p : List Byte) : (s.elapse dt).passwordOk p = s.passwordOk p := rfl

/-- The password in the window when a command takes it. -/
theorem passwordOk_command (s : State) (dt ofs : Nat) : (touched (s.elapse dt)).passwordOk ((touched (s.elapse dt)).cfgPassword ofs) =
    s.passwordOk (s.cfgPassword ofs) := by
  rw [cfgPassword_of_regs (s := s) (t := touched (s.elapse dt)) rfl, passwordOk_touched, passwordOk_elapse]

/-! ### The commands -/

section
variable {s : State} {req : Requester} (h : Lets s req Reg.GAR_CFGCMD) (hon : s.gar.powered = true) (hidle : s.gar.busy = none)
  (dt cmd : Nat) (f : State → State × Nat)
include h hon hidle

theorem cfgCommand_begins : (s.elapse dt).cfgCommand req cmd f =
    (begun (f (touched (s.elapse dt))).1 cmd (f (touched (s.elapse dt))).2).respond 0 0 :=
  ((regCmd_of_lets (lets_elapse h dt) fun s => s.cfgRun cmd f).trans
    (congrArg (fun u : State => u.respond 0 0) (cfgRun_begins (s := s.elapse dt) hon hidle cmd f)))

end

/-- A session opens. -/
def opened (s : State) : State := s.modGar fun g => { g with
  session := some (leNat (s.cfgWin 0 4), s.time.clock), fails := 0, blockUntil := none }

theorem cfgOpen_right {s : State} (hblock : s.gar.blockUntil = none) (hpw : s.passwordOk (s.cfgPassword 4) = true) :
    s.cfgOpen = (opened s, 0) := by
  unfold State.cfgOpen
  rw [hblock]
  exact if_pos hpw

/-- A wrong password is counted, and the fifth one blocks OPEN. -/
def misopened (s : State) : State := s.modGar fun g => { g with
  fails := s.gar.fails + 1, blockUntil := if 5 ≤ s.gar.fails + 1 then some (s.time.clock + 300000000000) else none }

/-- The refusal is counted and written as an event. -/
def denied (s : State) : State :=
  ((misopened s).inc64 Reg.GAR_AUTHFAIL).emit 0x05 0x030A 3 57 (p4 [leNat (s.cfgWin 0 4)])

/-- The refusal stands in the change log. -/
def deniedLogged (s : State) : State :=
  (denied s).garLog 6 2 (leNat (s.cfgWin 0 4)) (denied s).activeChk (denied s).activeChk none

theorem cfgOpen_wrong {s : State} (hblock : s.gar.blockUntil = none) (hpw : s.passwordOk (s.cfgPassword 4) = false) :
    s.cfgOpen = (deniedLogged s, 2) := by
  unfold State.cfgOpen
  rw [hblock]
  refine (if_neg (c := s.passwordOk (s.cfgPassword 4) = true) ?_).trans rfl
  rw [hpw]
  decide

/-! What the start of a command leaves. -/

theorem works_begun_besideGar (s : State) (cmd r : Nat) : Works Answering besideGar s (begun s cmd r) :=
  (works_modGar _).trans ((works_begun s cmd r).coarsen fun _ => rfl)

theorem works_begun_beside (s : State) (cmd r : Nat) : Works Answering beside s (begun s cmd r) :=
  (works_begun_besideGar s cmd r).coarsen fun _ => rfl

theorem gar_begun (s : State) (cmd r : Nat) : (begun s cmd r).gar = { s.gar with busy := some (cmd, r) } :=
  congrArg State.gar (onlyRegs_of_bare (works_begun s cmd r))

theorem block_of_answering : ∀ g, Answering g → g.addr / 65536 ∈ [0x05] := fun _ h => List.mem_singleton.mpr (block_answering h)

/-- What a command that has begun shows: `s` is the state that its effect left. -/
structure Begun (s : State) (cmd r : Nat) (t : State) : Prop where
  answer : Answered t 0 0
  busy : t.bit Fld.GAR_CFGRES_BUSY = true
  command : t.getF Fld.GAR_CFGRES_CMD = cmd
  gar : t.gar = { s.gar with busy := some (cmd, r) }
  session : t.bit Fld.GAR_STATUS_SESSION = s.gar.session.isSome
  pending : t.bit Fld.GAR_STATUS_PENDING = s.gar.pending.isSome
  reads : ∀ f, Spared Answering f → t.getF f = s.getF f

/-- The answer leaves what is shown. -/
theorem Begun.answered {s u : State} {cmd r : Nat} (hbusy : u.bit Fld.GAR_CFGRES_BUSY = true)
    (hcommand : u.getF Fld.GAR_CFGRES_CMD = cmd) (hgar : u.gar = { s.gar with busy := some (cmd, r) })
    (hsession : u.bit Fld.GAR_STATUS_SESSION = s.gar.session.isSome)
    (hpending : u.bit Fld.GAR_STATUS_PENDING = s.gar.pending.isSome)
    (hreads : ∀ f, Spared Answering f → u.getF f = s.getF f) : Begun s cmd r (u.respond 0 0) :=
  ⟨rfl, hbusy, hcommand, hgar, hsession, hpending, hreads⟩

theorem begun_shows {s : State} (hs : s.regsWf = true) {cmd : Nat} (hcmd : cmd < 256) (r : Nat) :
    Begun s cmd r ((begun s cmd r).respond 0 0) :=
  .answered (busy_begun cmd r hs) ((cmd_begun cmd r hs).trans (Nat.mod_eq_of_lt hcmd)) (gar_begun s cmd r)
    (session_begun cmd r hs) (pending_begun cmd r hs) ((works_begun s cmd r).reads hs)

/-! ### The parts of O27 -/

theorem openRight (s : State) (dt : Nat) (hw : s.regsWf = true) (req : Requester) (h : Lets s req Reg.GAR_CFGCMD)
    (hon : s.gar.powered = true) (hidle : s.gar.busy = none) (hblock : s.gar.blockUntil = none)
    (hpw : s.passwordOk (s.cfgPassword 4) = true) :
    ∃ t, exec (.cfgOpen dt req) s = .next t ∧
        Answered t 0 0 ∧
        t.bit Fld.GAR_CFGRES_BUSY = true ∧
        t.getF Fld.GAR_CFGRES_CMD = 1 ∧
        t.gar.busy = some (1, 0) ∧
        t.gar.session = some (leNat (s.cfgWin 0 4), (s.elapse dt).time.clock) ∧
        t.gar.fails = 0 ∧
        t.bit Fld.GAR_STATUS_SESSION = true ∧
        LeavesOut dt [0x05] s t
          { t with gar := { t.gar with busy := s.gar.busy, session := s.gar.session, fails := s.gar.fails } } := by
  have hexec : exec (.cfgOpen dt req) s = .next ((begun (opened (touched (s.elapse dt))) 1 0).respond 0 0) := by
    refine congrArg Host.Outcome.next ((cfgCommand_begins h hon hidle dt 1 _).trans ?_)
    rw [cfgOpen_right (s := touched (s.elapse dt)) hblock ((passwordOk_command s dt 4).trans hpw)]
  have hshows := begun_shows (s := opened (touched (s.elapse dt))) hw (cmd := 1) (by decide) 0
  have hworks : Works Answering besideGar (s.elapse dt) (opened (touched (s.elapse dt))) :=
    (works_modGar _).trans (works_modGar _)
  refine ⟨_, hexec, hshows.answer, hshows.busy, hshows.command, congrArg GarSt.busy hshows.gar, ?_,
    congrArg GarSt.fails hshows.gar, hshows.session, leavesOut_answered_gar (hworks.trans (works_begun_besideGar _ 1 0)) hw
      block_of_answering ?_⟩
  · rw [← cfgWin_of_regs (s := s) (t := touched (s.elapse dt)) rfl]
    exact congrArg GarSt.session hshows.gar
  · rw [hshows.gar]
    show ({ s.gar with blockUntil := none } : GarSt) = s.gar
    rw [← hblock]

/-! Reads of words and counters beside a command. -/

section
variable {s t : State} {cmd r : Nat} (h : Begun s cmd r t)
include h

theorem Begun.rd {a : Nat} (ha : Spared Answering (word a)) : t.rd a = s.rd a := by
  rw [rd_eq_getF, rd_eq_getF, h.reads _ ha]

theorem Begun.rd64 {a : Nat} (ha : Spared Answering (word a)) (ha' : Spared Answering (word (a + 4))) : t.rd64 a = s.rd64 a := by
  rw [State.rd64, State.rd64, h.rd ha, h.rd ha']

end

/-- The frame of a command whose effect led from `touched` to `v`. -/
theorem leavesOut_begun {s v : State} {dt : Nat} (hw : s.regsWf = true) (h : Works Garnet beside (s.elapse dt) v) (cmd r : Nat) :
    LeavesOut dt [0x05, 0x12] s ((begun v cmd r).respond 0 0)
      { (begun v cmd r).respond 0 0 with gar := s.gar, arc := s.arc } :=
  leavesOut_answered (h.trans ((works_begun_beside v cmd r).mono fun _ => garnet_answering)) hw fun _ h => h

theorem works_touched (T : Field → Prop) (s : State) (dt : Nat) : Works T beside (s.elapse dt) (touched (s.elapse dt)) :=
  works_modGar _

/-! A wrong password. -/

section
variable {s : State} (hs : s.regsWf = true)

theorem works_denied (s : State) : Works Garnet beside s (denied s) := by
  have hcount : Works Garnet beside s ((misopened s).inc64 Reg.GAR_AUTHFAIL) :=
    (works_modGar _).trans (works_inc64 (garnet_word (by decide)) (garnet_word (by decide)))
  exact hcount.trans (works_emit (fun _ => garnet_of_archive) (by decide) ..)

theorem works_deniedLogged (s : State) : Works Garnet beside s (deniedLogged s) :=
  (works_denied s).trans (works_garLog_beside (denied s) ..)

theorem gar_deniedLogged (s : State) : ∃ n, (deniedLogged s).gar = { (misopened s).gar with logSeq := n } := by
  obtain ⟨n, hlog⟩ := gar_garLog (denied s) 6 2 (leNat (s.cfgWin 0 4)) (denied s).activeChk (denied s).activeChk none
  exact ⟨n, hlog.trans (congrArg (fun g : GarSt => { g with logSeq := n }) (by simp [denied]))⟩

include hs

theorem counted_deniedLogged : Counted Reg.GAR_AUTHFAIL 1 s (deniedLogged s) := by
  have hcount : ((misopened s).inc64 Reg.GAR_AUTHFAIL).rd64 Reg.GAR_AUTHFAIL = (s.rd64 Reg.GAR_AUTHFAIL + 1) % 18446744073709551616 :=
    rd64_inc64_self (s := misopened s) _ hs
  have hwf : ((misopened s).inc64 Reg.GAR_AUTHFAIL).regsWf = true := regsWf_inc64 (s := misopened s) _ hs
  refine ((works_garLog (denied s) ..).rd64 ((works_denied s).wf hs) (spared_logging (by decide) (by decide))
    (spared_logging (by decide) (by decide))).trans (Eq.trans ?_ hcount)
  exact (works_emit (T := Archive) (K := beside) (fun _ h => h) (by decide) ..).rd64 hwf
    (spared_archive (by decide) (by decide)) (spared_archive (by decide) (by decide))

end

theorem openWrong (s : State) (dt : Nat) (hw : s.regsWf = true) (req : Requester) (h : Lets s req Reg.GAR_CFGCMD)
    (hon : s.gar.powered = true) (hidle : s.gar.busy = none) (hblock : s.gar.blockUntil = none)
    (hpw : s.passwordOk (s.cfgPassword 4) = false) :
    ∃ t, exec (.cfgOpen dt req) s = .next t ∧
        Answered t 0 0 ∧
        t.bit Fld.GAR_CFGRES_BUSY = true ∧
        t.getF Fld.GAR_CFGRES_CMD = 1 ∧
        t.gar.busy = some (1, 2) ∧
        Counted Reg.GAR_AUTHFAIL 1 s t ∧
        t.gar.fails = s.gar.fails + 1 ∧
        (t.gar.blockUntil = (if 4 ≤ s.gar.fails then some ((s.elapse dt).time.clock + 300000000000) else none)) ∧
        LeavesOut dt [0x05, 0x12] s t { t with gar := s.gar, arc := s.arc } := by
  have hexec : exec (.cfgOpen dt req) s = .next ((begun (deniedLogged (touched (s.elapse dt))) 1 2).respond 0 0) := by
    refine congrArg Host.Outcome.next ((cfgCommand_begins h hon hidle dt 1 _).trans ?_)
    rw [cfgOpen_wrong (s := touched (s.elapse dt)) hblock ((passwordOk_command s dt 4).trans hpw)]
  have hworks := works_deniedLogged (touched (s.elapse dt))
  have hshows := begun_shows (s := deniedLogged (touched (s.elapse dt))) (hworks.wf hw) (cmd := 1) (by decide) 2
  have hcount := counted_deniedLogged (s := touched (s.elapse dt)) hw
  obtain ⟨n, hgar⟩ := gar_deniedLogged (touched (s.elapse dt))
  have hframe := leavesOut_begun hw ((works_touched Garnet s dt).trans hworks) 1 2
  refine ⟨_, hexec, hshows.answer, hshows.busy, hshows.command, congrArg GarSt.busy hshows.gar,
    (hshows.rd64 (spared_answering (by decide) (by decide) (by decide) (by decide) (by decide))
      (spared_answering (by decide) (by decide) (by decide) (by decide) (by decide))).trans hcount, ?_, ?_, hframe⟩
  · rw [hshows.gar, hgar]
    rfl
  · rw [hshows.gar, hgar]
    exact if_congr (by show 5 ≤ s.gar.fails + 1 ↔ 4 ≤ s.gar.fails; omega) rfl rfl

/-! The maintenance lock-out. -/

/-- Every used instance is in lock-out, and the change is logged. -/
def lockedOut (s : State) : State := (s.garGlobal 4).garLog 5 0 s.cfgUser s.activeChk s.activeChk none

theorem cfgEnterLockout_still {s : State} (hsession : s.gar.session.isSome = true) (hstill : s.cfgStill = true) :
    s.cfgEnterLockout = (lockedOut s, 0) := by
  have hopen : ¬ s.gar.session.isNone = true := by
    rw [Option.isNone_iff_eq_none]
    exact fun h => by simp [h] at hsession
  exact (if_neg hopen).trans (if_neg (by rw [hstill]; decide))

theorem session_touched {s : State} (h : s.gar.session.isSome = true) (dt : Nat) :
    (touched (s.elapse dt)).gar.session.isSome = true := (Option.isSome_map ..).trans h

theorem works_garGlobal_calm (s : State) : Works Global calm (clearing s 4) (s.garGlobal 4) :=
  (works_latched s 4).trans (((works_allLocked s 4).mono fun _ h => .inl h).trans
    (((works_allOpen s 4).mono fun _ h => global_of_ending (.inr h)).trans
      ((works_garGlobal_maintenance s).mono fun _ h => global_of_ending h)))

theorem works_lockedOut (s : State) : Works Garnet beside s (lockedOut s) :=
  ((works_garGlobal s 4).mono fun _ => block_global).trans (works_garLog_beside (s.garGlobal 4) ..)

/-- The lock-out leaves the session, and its cause may not clear. -/
theorem gar_lockedOut (s : State) : (lockedOut s).gar.session = s.gar.session ∧
    (lockedOut s).gar.clearable = s.gar.clearable &&& 15 := by
  obtain ⟨n, hlog⟩ := gar_garLog (s.garGlobal 4) 5 0 s.cfgUser s.activeChk s.activeChk none
  have hcalm := gar_of_calm (works_garGlobal_calm s)
  have hsession : (s.garGlobal 4).gar.session = s.gar.session := (congrArg GarSt.session hcalm :)
  have hclear : (s.garGlobal 4).gar.clearable = s.gar.clearable &&& 15 := (congrArg GarSt.clearable hcalm :)
  exact ⟨(congrArg GarSt.session hlog).trans hsession, (congrArg GarSt.clearable hlog).trans hclear⟩

/-- A field of a low word of Garnet that the log spares stands as the global fault left it. -/
theorem reads_lockedOut {s t : State} (hs : s.regsWf = true) {cmd r : Nat} (h : Begun (lockedOut s) cmd r t) {f : Field}
    (hf : Spared Answering f) (ha : f.addr < 0x52000) : t.getF f = (s.garGlobal 4).getF f :=
  (h.reads f hf).trans ((works_garLog (s.garGlobal 4) ..).reads ((works_garGlobal s 4).wf hs) f (spared_logging hf.1 ha))

theorem testBit_and_fifteen (n : Nat) : (n &&& 15).testBit 4 = false := by
  rw [Nat.testBit_and, show Nat.testBit 15 4 = false by decide, Bool.and_false]

theorem cfgStill_command (s : State) (dt : Nat) : (touched (s.elapse dt)).cfgStill = s.cfgStill := rfl

theorem enterLockout (s : State) (dt : Nat) (hw : s.regsWf = true) (req : Requester) (h : Lets s req Reg.GAR_CFGCMD)
    (hon : s.gar.powered = true) (hidle : s.gar.busy = none) (hsession : s.gar.session.isSome = true)
    (hstill : s.cfgStill = true) :
    ∃ t, exec (.cfgEnterLockout dt req) s = .next t ∧
        Answered t 0 0 ∧
        t.bit Fld.GAR_CFGRES_BUSY = true ∧
        t.getF Fld.GAR_CFGRES_CMD = 2 ∧
        t.gar.busy = some (2, 0) ∧
        (t.getF Fld.GAR_GCAUSE_CAUSE).testBit 4 = true ∧
        t.getF Fld.GAR_STATUS_STATE = 2 ∧
        ((s.gused.all fun j => t.locked j) = true) ∧
        t.maintenance = true ∧
        t.gar.session.isSome = true ∧
        LeavesOut dt [0x05, 0x12] s t { t with gar := s.gar, arc := s.arc } := by
  have hexec : exec (.cfgEnterLockout dt req) s = .next ((begun (lockedOut (touched (s.elapse dt))) 2 0).respond 0 0) := by
    refine congrArg Host.Outcome.next ((cfgCommand_begins h hon hidle dt 2 _).trans ?_)
    rw [cfgEnterLockout_still (session_touched hsession dt) ((cfgStill_command s dt).trans hstill)]
  have hwt : (touched (s.elapse dt)).regsWf = true := hw
  have hworks := works_lockedOut (touched (s.elapse dt))
  have hshows := begun_shows (s := lockedOut (touched (s.elapse dt))) (hworks.wf hwt) (cmd := 2) (by decide) 0
  have hframe := leavesOut_begun hw ((works_touched Garnet s dt).trans hworks) 2 0
  obtain ⟨hopen, hclear⟩ := gar_lockedOut (touched (s.elapse dt))
  have hcause : (((begun (lockedOut (touched (s.elapse dt))) 2 0).respond 0 0).getF Fld.GAR_GCAUSE_CAUSE).testBit 4 = true := by
    rw [reads_lockedOut hwt hshows (spared_answering (by decide) (by decide) (by decide) (by decide) (by decide)) (by decide),
      cause_garGlobal hwt (by decide)]
    exact Bool.or_true _
  refine ⟨_, hexec, hshows.answer, hshows.busy, hshows.command, congrArg GarSt.busy hshows.gar, hcause, ?_, ?_, ?_, ?_, hframe⟩
  · rw [reads_lockedOut hwt hshows (spared_answering (by decide) (by decide) (by decide) (by decide) (by decide)) (by decide),
      state_garGlobal hwt]
  · refine List.all_eq_true.mpr fun j hj => ?_
    rw [State.locked, reads_lockedOut hwt hshows
      (spared_answering (by decide) (by decide) (by decide) (by decide) (by decide)) (by decide)]
    exact locked_garGlobal (s := touched (s.elapse dt)) hwt hj
  · rw [State.maintenance, hcause, hshows.gar]
    show (!(lockedOut (touched (s.elapse dt))).gar.clearable.testBit 4) = true
    rw [hclear, testBit_and_fifteen]
    rfl
  · rw [hshows.gar]
    show (lockedOut (touched (s.elapse dt))).gar.session.isSome = true
    rw [hopen]
    exact session_touched hsession dt

/-! The session closes. -/

theorem testBit_or_sixteen (n : Nat) : (n ||| 16).testBit 4 = true := by
  rw [Nat.testBit_or, show Nat.testBit 16 4 = true by decide, Bool.or_true]

theorem gar_endSession (s : State) :
    s.endSession.gar = { s.gar with session := none, clearable := s.gar.clearable ||| 16 } := by simp [State.endSession]

/-- Garnet alone, but not the Archive. -/
def OwnBlock (g : Field) : Prop := g.addr / 65536 ∈ [0x05]

theorem own {g : Field} (h : g.addr / 65536 = 0x05) : OwnBlock g := List.mem_singleton.mpr h

theorem works_endSession_own (s : State) : Works OwnBlock besideGar s s.endSession :=
  (works_modGar _).trans (works_setB (by decide) (own (by decide)) false)

theorem works_begun_own (s : State) (cmd r : Nat) : Works OwnBlock besideGar s (begun s cmd r) :=
  (works_begun_besideGar s cmd r).mono block_of_answering

theorem close (s : State) (dt : Nat) (hw : s.regsWf = true) (req : Requester) (h : Lets s req Reg.GAR_CFGCMD)
    (hon : s.gar.powered = true) (hidle : s.gar.busy = none) :
    ∃ t, exec (.cfgClose dt req) s = .next t ∧
        Answered t 0 0 ∧
        t.bit Fld.GAR_CFGRES_BUSY = true ∧
        t.getF Fld.GAR_CFGRES_CMD = 7 ∧
        t.gar.busy = some (7, 0) ∧
        t.gar.session = none ∧
        t.bit Fld.GAR_STATUS_SESSION = false ∧
        t.gar.clearable.testBit 4 = true ∧
        LeavesOut dt [0x05] s t
          { t with gar := { t.gar with busy := s.gar.busy, session := s.gar.session, clearable := s.gar.clearable } } := by
  have hexec : exec (.cfgClose dt req) s = .next ((begun (touched (s.elapse dt)).endSession 7 0).respond 0 0) :=
    congrArg Host.Outcome.next (cfgCommand_begins h hon hidle dt 7 State.cfgClose)
  have hended := works_endSession_own (touched (s.elapse dt))
  have hshows := begun_shows (s := (touched (s.elapse dt)).endSession) (hended.wf hw) (cmd := 7) (by decide) 0
  have hgar := gar_endSession (touched (s.elapse dt))
  have htouch : Works OwnBlock besideGar (s.elapse dt) (touched (s.elapse dt)) := works_modGar _
  refine ⟨_, hexec, hshows.answer, hshows.busy, hshows.command, congrArg GarSt.busy hshows.gar, ?_, ?_, ?_,
    leavesOut_answered_gar (htouch.trans (hended.trans (works_begun_own _ 7 0))) hw (fun _ h => h) ?_⟩
  · rw [hshows.gar, hgar]
  · rw [hshows.session, hgar]
    rfl
  · rw [hshows.gar, hgar]
    exact testBit_or_sixteen _
  · rw [hshows.gar, hgar]
    rfl

/-! A new password. -/

/-- The password in the window is stored with a new salt. -/
def repassworded (s : State) : State := s.freshCtr.modGar fun g => { g with
  password := some ((Config.salt s.freeCtr).toNat, pbkdf2 (Config.salt s.freeCtr).toNat (s.cfgPassword 0)) }

def repasswordedLogged (s : State) : State :=
  (repassworded s).garLog 4 0 (repassworded s).cfgUser (repassworded s).activeChk (repassworded s).activeChk none

theorem cfgSetpw_maintenance {s : State} (hsession : s.gar.session.isSome = true) (hmaint : s.maintenance = true)
    (hlen : 12 ≤ (s.cfgPassword 0).length) : s.cfgSetpw = (repasswordedLogged s, 0) := by
  have hopen : ¬ s.gar.session.isNone = true := by
    rw [Option.isNone_iff_eq_none]
    exact fun h => by simp [h] at hsession
  exact (if_neg hopen).trans ((if_neg (by rw [hmaint]; decide)).trans (if_neg (Nat.not_lt_of_le hlen)))

theorem maintenance_command (s : State) (dt : Nat) : (touched (s.elapse dt)).maintenance = s.maintenance := rfl

/-- All but the registers, the Archive, Garnet and the number of the next free value. -/
def besideFree (s : State) : State := { s with regs := [], arc := {}, gar := {}, freeCtr := 0 }

theorem works_repasswordedLogged (s : State) : Works Garnet besideFree s (repasswordedLogged s) := by
  have hnew : Works Garnet besideFree s (repassworded s) := ⟨id, fun _ _ _ => rfl, rfl⟩
  exact hnew.trans ((works_garLog_beside (repassworded s) ..).coarsen fun _ => rfl)

theorem gar_repasswordedLogged (s : State) : (repasswordedLogged s).gar.password = (repassworded s).gar.password := by
  obtain ⟨n, hlog⟩ := gar_garLog (repassworded s) 4 0 (repassworded s).cfgUser (repassworded s).activeChk
    (repassworded s).activeChk none
  exact (congrArg GarSt.password hlog :)

/-- Likewise where the next free value was drawn too. -/
theorem leavesOut_free {s u : State} {dt : Nat} (h : Works Garnet besideFree (s.elapse dt) u) (hs : s.regsWf = true) :
    LeavesOut dt [0x05, 0x12] s (u.respond 0 0) { u.respond 0 0 with gar := s.gar, arc := s.arc, freeCtr := s.freeCtr } :=
  ⟨fun a ha => h.rdw hs ⟨⟨Nat.zero_lt_succ _, Nat.le_refl 32⟩, fun _ hg => .inl fun (heq : a = _) => ha (heq ▸ hg)⟩,
    fun a => (congrArg (fun u : State => u.memGet a) h.rest :),
    congrArg (fun u : State => { u with regs := s.regs, resp := s.resp, gar := s.gar, arc := s.arc, freeCtr := s.freeCtr }) h.rest⟩

theorem cfgPassword_command (s : State) (dt : Nat) : (touched (s.elapse dt)).cfgPassword 0 = s.cfgPassword 0 := cfgPassword_of_regs rfl 0

theorem exec_cfgSetpw {s : State} {req : Requester} (h : Lets s req Reg.GAR_CFGCMD)
    (hon : s.gar.powered = true) (hidle : s.gar.busy = none) (hsession : s.gar.session.isSome = true)
    (hmaint : s.maintenance = true) (hlen : 12 ≤ (s.cfgPassword 0).length) (dt : Nat) :
    exec (.cfgSetpw dt req) s = .next ((begun (repasswordedLogged (touched (s.elapse dt))) 8 0).respond 0 0) := by
  refine congrArg Host.Outcome.next ((cfgCommand_begins h hon hidle dt 8 _).trans ?_)
  rw [cfgSetpw_maintenance (session_touched hsession dt) ((maintenance_command s dt).trans hmaint)
    (hlen.trans_eq (congrArg List.length (cfgPassword_command s dt).symm))]

theorem password_repassworded (s : State) (dt : Nat) : (repasswordedLogged (touched (s.elapse dt))).gar.password =
    some ((Config.salt s.freeCtr).toNat, pbkdf2 (Config.salt s.freeCtr).toNat (s.cfgPassword 0)) := by
  rw [gar_repasswordedLogged, ← cfgPassword_command s dt]
  rfl

theorem setPassword (s : State) (dt : Nat) (hw : s.regsWf = true) (req : Requester) (h : Lets s req Reg.GAR_CFGCMD)
    (hon : s.gar.powered = true) (hidle : s.gar.busy = none) (hsession : s.gar.session.isSome = true)
    (hmaint : s.maintenance = true) (hlen : 12 ≤ (s.cfgPassword 0).length) :
    ∃ t, exec (.cfgSetpw dt req) s = .next t ∧
        Answered t 0 0 ∧
        t.bit Fld.GAR_CFGRES_BUSY = true ∧
        t.getF Fld.GAR_CFGRES_CMD = 8 ∧
        t.gar.busy = some (8, 0) ∧
        (t.gar.password.map (fun x => x.2) = t.gar.password.map (fun x => pbkdf2 x.1 (s.cfgPassword 0))) ∧
        t.gar.password.isSome = true ∧
        LeavesOut dt [0x05, 0x12] s t { t with gar := s.gar, arc := s.arc, freeCtr := s.freeCtr } := by
  have hexec := exec_cfgSetpw h hon hidle hsession hmaint hlen dt
  have hworks := works_repasswordedLogged (touched (s.elapse dt))
  have hshows := begun_shows (s := repasswordedLogged (touched (s.elapse dt))) (hworks.wf hw) (cmd := 8) (by decide) 0
  have htouch : Works Garnet besideFree (s.elapse dt) (touched (s.elapse dt)) := works_modGar _
  have hbegun : Works Garnet besideFree (repasswordedLogged (touched (s.elapse dt)))
      (begun (repasswordedLogged (touched (s.elapse dt))) 8 0) :=
    ((works_begun_beside _ 8 0).mono fun _ => garnet_answering).coarsen fun _ => rfl
  have hpassword : ((begun (repasswordedLogged (touched (s.elapse dt))) 8 0).respond 0 0).gar.password =
      some ((Config.salt s.freeCtr).toNat, pbkdf2 (Config.salt s.freeCtr).toNat (s.cfgPassword 0)) := by
    rw [hshows.gar]
    exact password_repassworded s dt
  refine ⟨_, hexec, hshows.answer, hshows.busy, hshows.command, congrArg GarSt.busy hshows.gar, ?_, ?_,
    leavesOut_free (htouch.trans (hworks.trans hbegun)) hw⟩
  · rw [hpassword, Option.map_some, Option.map_some]
  · rw [hpassword, Option.isSome_some]

/-! The end of a command, and the time limits. -/

def completeWrites (cmd r : Nat) : List RegOp :=
  [.bit Fld.GAR_CFGRES_BUSY false, .field Fld.GAR_CFGRES_CMD cmd, .field Fld.GAR_CFGRES_RESULT r]

/-- A command is complete. -/
def completed (s : State) (cmd r : Nat) : State := { regOps s (completeWrites cmd r) with gar := { s.gar with busy := none } }

theorem exec_garCfgcmdComplete {s : State} {cmd r : Nat} (hbusy : s.gar.busy = some (cmd, r)) (dt : Nat) :
    exec (.garCfgcmdComplete dt) s = .next (completed (s.elapse dt) cmd r) := by
  show execGarCfgcmdComplete dt s = _
  simp only [execGarCfgcmdComplete, show (s.elapse dt).gar.busy = some (cmd, r) from hbusy]
  rfl

theorem exec_garSessionTimeout {s : State} {user at_ dt : Nat} (hopen : s.gar.session = some (user, at_))
    (hdue : at_ + 600000000000 ≤ (s.elapse dt).time.clock) :
    exec (.garSessionTimeout dt) s = .next (s.elapse dt).endSession.garShow := by
  show execGarSessionTimeout dt s = _
  simp only [execGarSessionTimeout, show (s.elapse dt).gar.session = some (user, at_) from hopen, if_pos hdue]

theorem sessionTimeout (s : State) (dt : Nat) (hw : s.regsWf = true) (user at_ : Nat) (hopen : s.gar.session = some (user, at_))
    (hdue : at_ + 600000000000 ≤ (s.elapse dt).time.clock) :
    ∃ t, exec (.garSessionTimeout dt) s = .next t ∧
        t.gar.session = none ∧
        t.bit Fld.GAR_STATUS_SESSION = false ∧
        t.gar.clearable.testBit 4 = true ∧
        LeavesOut dt [0x05] s t { t with gar := { t.gar with session := s.gar.session, clearable := s.gar.clearable } } := by
  have hended := works_endSession_own (s.elapse dt)
  have hshown : Works OwnBlock besideGar (s.elapse dt).endSession (s.elapse dt).endSession.garShow :=
    ((works_garShow _).coarsen fun _ => rfl).mono fun _ h => own (block_shown h)
  have hgar : (s.elapse dt).endSession.garShow.gar = { s.gar with session := none, clearable := s.gar.clearable ||| 16 } :=
    (congrArg State.gar (onlyRegs_of_bare (works_garShow (s.elapse dt).endSession))).trans (gar_endSession (s.elapse dt))
  refine ⟨_, exec_garSessionTimeout hopen hdue, ?_, ?_, ?_, leavesOut_of_gar (hended.trans hshown) hw (fun _ h => h) ?_⟩
  · rw [hgar]
  · rw [session_garShow (hended.wf hw), gar_endSession]
    rfl
  · rw [hgar]
    exact testBit_or_sixteen _
  · rw [hgar]

theorem exec_garAuthBlockExpiry {s : State} {at_ dt : Nat} (hblock : s.gar.blockUntil = some at_)
    (hdue : at_ ≤ (s.elapse dt).time.clock) : exec (.garAuthBlockExpiry dt) s =
      .next ((s.elapse dt).modGar fun g => { g with blockUntil := none, fails := 0 }) := by
  show execGarAuthBlockExpiry dt s = _
  simp only [execGarAuthBlockExpiry, show (s.elapse dt).gar.blockUntil = some at_ from hblock, if_pos hdue]

/-- Settles O27: each command is busy with its effect done, each time limit leads to the state of its lemma. -/
theorem garnetSession : Obligations.GarnetSession := by
  intro s dt hs
  have hw : s.regsWf = true := (Bool.and_eq_true_iff.mp hs).1
  have hu : (s.elapse dt).regsWf = true := hw
  refine ⟨openRight s dt hw, openWrong s dt hw, enterLockout s dt hw, close s dt hw, setPassword s dt hw, ?complete,
    sessionTimeout s dt hw, ?expiry⟩
  case complete =>
    intro cmd r hbusy
    have hr : (completed (s.elapse dt) cmd r).regs = (runAll (s.elapse dt) (completeWrites cmd r)).regs := rfl
    refine ⟨_, exec_garCfgcmdComplete hbusy dt, ?_, ?_, ?_, rfl,
      regsKept_of_regs (s := s.elapse dt) hr (by simp [completeWrites, RegOp.words]), fun _ => rfl, rfl⟩
    · simp (disch := decide) [bit_of_regs hu hr, completeWrites, RegOp.see]
    · simp (disch := decide) [getF_of_regs hu hr, completeWrites, RegOp.see]
    · simp (disch := decide) [getF_of_regs hu hr, completeWrites, RegOp.see]
  case expiry =>
    intro at_ hblock hdue
    exact ⟨_, exec_garAuthBlockExpiry hblock hdue, rfl, rfl, fun _ _ => rfl, fun _ => rfl, rfl⟩

end Sys2Proof.Proofs.GarnetSessions

/-! Garnet's configuration: loading, reading back, accepting and dropping an image (R171, R172, R174, R175). -/

namespace Sys2Proof.Proofs.GarnetImages

open Sys2Proof Sys2Proof.Machine Sys2Proof.Laws Sys2Proof.Proofs.Time Sys2Proof.Proofs.Measurement Sys2Proof.Proofs.Power
open Sys2Proof.Proofs.RegOps Sys2Proof.Proofs.CustodyReleased Sys2Proof.Proofs.GarnetFrames Sys2Proof.Proofs.GarnetSessions

theorem open_of_isSome {α : Type} {o : Option α} (h : o.isSome = true) : ¬ o.isNone = true := by
  cases o with
  | none => exact absurd h Bool.false_ne_true
  | some => exact Bool.false_ne_true

/-! ### LOAD (R175) -/

/-- The window becomes the pending image. -/
def loaded (s : State) : State :=
  (s.modGar fun g => { g with pending := some (s.cfgWin 0 4096), pendAt := s.time.clock, chunks := [0] }).wr Reg.GAR_PENDCHK
    (imgChk (s.cfgWin 0 4096))

/-- A whole image is logged. -/
def loadLogged (s : State) : State :=
  (loaded s).garLog 1 (if garImageOk (s.cfgWin 0 4096) then 0 else 7) (loaded s).cfgUser (loaded s).activeChk
    (imgChk (s.cfgWin 0 4096)) (some (s.cfgWin 0 4096))

/-- The state that a LOAD of chunk 0 leaves. -/
def afterLoad (s : State) : State := if (loaded s).pendingWhole then loadLogged s else loaded s

theorem cfgLoad_first {s : State} (hsession : s.gar.session.isSome = true) (hmaint : s.maintenance = true)
    (hstill : s.cfgStill = true) : ∃ r, s.cfgLoad 0 = (afterLoad s, r) := by
  have himg : ([] : List Byte).take (4096 * 0) ++ List.replicate (4096 * 0 - ([] : List Byte).length) 0 ++ s.cfgWin 0 4096 ++
      ([] : List Byte).drop (4096 * (0 + 1)) = s.cfgWin 0 4096 := by simp
  unfold State.cfgLoad
  rw [if_neg (open_of_isSome hsession), if_neg (by rw [hmaint]; decide), if_neg (by rw [hstill]; decide),
    if_neg (by decide), if_neg (by simp)]
  simp only [if_true, himg]
  by_cases hwhole : (loaded s).pendingWhole = true
  · rw [show afterLoad s = loadLogged s from if_pos hwhole]
    exact ⟨_, if_pos hwhole⟩
  · rw [show afterLoad s = loaded s from if_neg hwhole]
    exact ⟨_, if_neg hwhole⟩

theorem works_loaded (s : State) : Works OwnBlock besideGar s (loaded s) :=
  (works_modGar _).trans (works_wr (own (by decide)) _)

theorem garnet_of_own {g : Field} (h : OwnBlock g) : Garnet g := List.mem_cons.mpr (.inl (List.mem_singleton.mp h))

theorem works_afterLoad (s : State) : Works Garnet beside s (afterLoad s) := by
  have hloaded : Works Garnet beside s (loaded s) := ((works_loaded s).mono fun _ => garnet_of_own).coarsen fun _ => rfl
  exact works_ite (hloaded.trans (works_garLog_beside (loaded s) ..)) hloaded

theorem gar_afterLoad (s : State) : ∃ n, (afterLoad s).gar = { (loaded s).gar with logSeq := n } := by
  unfold afterLoad
  split
  · exact gar_garLog (loaded s) ..
  · exact ⟨(loaded s).gar.logSeq, rfl⟩

theorem load (s : State) (dt : Nat) (hw : s.regsWf = true) (req : Requester) (h : Lets s req Reg.GAR_CFGCMD)
    (hon : s.gar.powered = true) (hidle : s.gar.busy = none) (hsession : s.gar.session.isSome = true)
    (hmaint : s.maintenance = true) (hstill : s.cfgStill = true) :
    ∃ t, exec (.cfgLoad dt req 0) s = .next t ∧
        Answered t 0 0 ∧
        t.bit Fld.GAR_CFGRES_BUSY = true ∧
        t.getF Fld.GAR_CFGRES_CMD = 3 ∧
        t.gar.pending = some (s.cfgWin 0 4096) ∧
        t.gar.chunks = [0] ∧
        t.gar.pendAt = (s.elapse dt).time.clock ∧
        t.bit Fld.GAR_STATUS_PENDING = true ∧
        LeavesOut dt [0x05, 0x12] s t { t with gar := s.gar, arc := s.arc } := by
  obtain ⟨r, hload⟩ := cfgLoad_first (session_touched hsession dt) ((maintenance_command s dt).trans hmaint)
    ((cfgStill_command s dt).trans hstill)
  have hexec : exec (.cfgLoad dt req 0) s = .next ((begun (afterLoad (touched (s.elapse dt))) 3 r).respond 0 0) := by
    refine congrArg Host.Outcome.next ((cfgCommand_begins h hon hidle dt 3 _).trans ?_)
    rw [hload]
  have hworks := works_afterLoad (touched (s.elapse dt))
  have hshows := begun_shows (s := afterLoad (touched (s.elapse dt))) (hworks.wf hw) (cmd := 3) (by decide) r
  obtain ⟨n, hgar⟩ := gar_afterLoad (touched (s.elapse dt))
  have hwin : (touched (s.elapse dt)).cfgWin 0 4096 = s.cfgWin 0 4096 := cfgWin_of_regs rfl 0 4096
  have hpending : (afterLoad (touched (s.elapse dt))).gar.pending = some (s.cfgWin 0 4096) := by
    rw [hgar, ← hwin]
    rfl
  refine ⟨_, hexec, hshows.answer, hshows.busy, hshows.command, ?_, ?_, ?_, ?_,
    leavesOut_begun hw ((works_touched Garnet s dt).trans hworks) 3 r⟩
  · rw [hshows.gar]
    exact hpending
  · rw [hshows.gar, hgar]
    rfl
  · rw [hshows.gar, hgar]
    rfl
  · rw [hshows.pending, hpending, Option.isSome_some]

/-! ### READBACK (R172) -/

def windowWrites (bs : List Byte) (n : Nat) : List RegOp :=
  (List.range n).map fun i => .word (Reg.GAR_CFGWIN + 4 * i) (leNat ((bs.drop (4 * i)).take 4))

theorem putCfgWin_eq (s : State) (bs : List Byte) : s.putCfgWin bs = written s (windowWrites bs 1024) :=
  foldl_eq_written s (fun i => .word (Reg.GAR_CFGWIN + 4 * i) (leNat ((bs.drop (4 * i)).take 4))) (List.range 1024)

theorem leNat_lt (bs : List Byte) : leNat bs < 256 ^ bs.length := by
  induction bs with
  | nil => exact Nat.one_pos
  | cons b bs ih =>
    have hb : b.toNat < 256 := b.isLt
    rw [leNat, List.length_cons, Nat.pow_succ]
    omega

theorem leNat_take_four_lt (bs : List Byte) : leNat (bs.take 4) < 4294967296 :=
  (leNat_lt _).trans_le (Nat.pow_le_pow_right (by decide) (List.length_take_le 4 bs))

/-- A word of the window after all have been written. -/
theorem rd_windowWrites {s : State} (hs : s.regsWf = true) (bs : List Byte) (n : Nat) {i : Nat} (hi : i < n) :
    (written s (windowWrites bs n)).rd (Reg.GAR_CFGWIN + 4 * i) = leNat ((bs.drop (4 * i)).take 4) := by
  have hwf (l : List RegOp) : (written s l).regsWf = true := regsWf_of_regs hs (regs_written s l)
  induction n with
  | zero => exact absurd hi (Nat.not_lt_zero i)
  | succ n ih =>
    have hlast : windowWrites bs (n + 1) = windowWrites bs n ++ [.word (Reg.GAR_CFGWIN + 4 * n) (leNat ((bs.drop (4 * n)).take 4))] := by
      rw [windowWrites, List.range_succ, List.map_append]
      rfl
    rw [hlast, ← written_written, ← wr_eq_written]
    rcases Nat.lt_succ_iff_lt_or_eq.mp hi with hlt | rfl
    · rw [rd_wr_ne (by omega), ih hlt]
    · rw [rd_wr_self _ _ (hwf _), Nat.mod_eq_of_lt (leNat_take_four_lt _)]

theorem within_windowWrites (bs : List Byte) : ∀ o ∈ windowWrites bs 1024, Within OwnBlock o := by
  intro o ho
  obtain ⟨i, hi, rfl⟩ := List.mem_map.mp ho
  have hi : i < 1024 := List.mem_range.mp hi
  exact own (by show (0x51000 + 4 * i) / 65536 = 5; omega)

/-- The part of an image that READBACK shows. -/
def chunkOf (img : List Byte) (chunk : Nat) : List Byte := (img.drop (4096 * chunk)).take 4096

theorem cfgReadback_pending {s : State} {img : List Byte} (hsession : s.gar.session.isSome = true)
    (hpending : s.gar.pending = some img) (chunk : Nat) :
    s.cfgReadback chunk = (written s (windowWrites (chunkOf img chunk) 1024), 0) := by
  unfold State.cfgReadback
  rw [if_neg (open_of_isSome hsession), hpending]
  exact congrArg (·, 0) (putCfgWin_eq s (chunkOf img chunk))

theorem readback (s : State) (dt : Nat) (hw : s.regsWf = true) (req : Requester) (chunk : Nat) (img : List Byte)
    (h : Lets s req Reg.GAR_CFGCMD) (hon : s.gar.powered = true) (hidle : s.gar.busy = none)
    (hsession : s.gar.session.isSome = true) (hpending : s.gar.pending = some img) :
    ∃ t, exec (.cfgReadback dt req chunk) s = .next t ∧
        Answered t 0 0 ∧
        t.bit Fld.GAR_CFGRES_BUSY = true ∧
        t.getF Fld.GAR_CFGRES_CMD = 4 ∧
        t.gar.busy = some (4, 0) ∧
        (∀ i : Fin 1024, t.rd (Reg.GAR_CFGWIN + 4 * i.val) = leNat (((img.drop (4096 * chunk)).take 4096).drop (4 * i.val)
          |>.take 4)) ∧
        LeavesOut dt [0x05] s t { t with gar := { t.gar with busy := s.gar.busy, session := s.gar.session } } := by
  have hexec : exec (.cfgReadback dt req chunk) s = .next ((begun (written (touched (s.elapse dt))
      (windowWrites (chunkOf img chunk) 1024)) 4 0).respond 0 0) := by
    refine congrArg Host.Outcome.next ((cfgCommand_begins h hon hidle dt 4 _).trans ?_)
    rw [cfgReadback_pending (session_touched hsession dt) hpending]
  have htouch : Works OwnBlock besideGar (s.elapse dt) (touched (s.elapse dt)) := works_modGar _
  have hworks : Works OwnBlock besideGar (touched (s.elapse dt)) (written (touched (s.elapse dt))
      (windowWrites (chunkOf img chunk) 1024)) := (works_written _ (within_windowWrites _)).coarsen fun _ => rfl
  have hshows := begun_shows (hworks.wf hw) (cmd := 4) (by decide) 0
  refine ⟨_, hexec, hshows.answer, hshows.busy, hshows.command, congrArg GarSt.busy hshows.gar, fun i => ?_,
    leavesOut_answered_gar (htouch.trans (hworks.trans (works_begun_own _ 4 0))) hw (fun _ h => h) ?_⟩
  · have hi := i.isLt
    have hne (a : Nat) (ha : a < 0x51000) : 0x51000 + 4 * i.val ≠ a := by omega
    refine (hshows.rd (spared_answering ⟨Nat.zero_lt_succ _, Nat.le_refl 32⟩ (hne _ (by decide)) (hne _ (by decide)) (.inl (hne _ (by decide)))
      (hne _ (by decide)))).trans ?_
    exact rd_windowWrites (s := touched (s.elapse dt)) hw _ 1024 hi
  · rw [hshows.gar]
    rfl

/-! ### ACCEPT (R175) -/

/-- The image is in force, and no image is pending. -/
def enforced (s : State) (img : List Byte) : State :=
  ((s.modGar fun g => { g with active := some img, clearable := g.clearable ||| 19, insts := [], tpBad := [], tpGood := []
                               tpNow := [] }).dropPending).wr Reg.GAR_CFGCHK (imgChk img)

/-- An instance gets its type in the image; a used one is in lock-out. -/
def retyped (img : List Byte) (s : State) (j : Nat) : State :=
  let s := (s.setF (Fld.GAR_INST_TYPE j) (gins img j 0 1)).setB (Fld.GAR_INST_RESULT j) false
  (if gins img j 0 1 = 0 then s else s.lockInst j).setF (Fld.GAR_INST_STATE j) (if gins img j 0 1 = 0 ∧ !s.locked j then 0 else 5)

/-- The brake tests of a pair of which the old image asked for none are due from now on. -/
def retimed (img old : List Byte) (s : State) (x : Nat) : State :=
  let due (img : List Byte) : Bool := (List.range 8).any fun j => instPair img j == some x && gins img j 16 4 != 0
  if due img && !due old && (s.gpair x).btBase.isNone then s.modPair x fun p => { p with btBase := some s.opTime } else s

/-- Every instance and pair follows the image. -/
def refitted (s : State) (img : List Byte) : State :=
  (List.range 4).foldl (retimed img s.gimg) ((List.range 8).foldl (retyped img) (enforced s img))

theorem acceptImage_eq (s : State) (img : List Byte) : s.acceptImage img =
    (refitted s img).garLog 2 0 (refitted s img).cfgUser s.activeChk (imgChk img) (some img) := rfl

theorem cfgAccept_whole {s : State} {img : List Byte} (hsession : s.gar.session.isSome = true) (hmaint : s.maintenance = true)
    (hstill : s.cfgStill = true) (hpending : s.gar.pending = some img) (hwhole : s.pendingWhole = true)
    (hok : garImageOk img = true) (hchk : leNat (s.cfgWin 0 4) = imgChk img) : s.cfgAccept = (s.acceptImage img, 0) := by
  have hgood : ¬ (!s.pendingWhole ∨ !garImageOk img) := by
    rw [hwhole, hok]
    decide
  unfold State.cfgAccept
  rw [if_neg (open_of_isSome hsession), if_neg (by rw [hmaint]; decide), if_neg (by rw [hstill]; decide), hpending]
  exact (if_neg hgood).trans (if_neg (not_not_intro hchk))

/-- What the instances write as they follow an image. -/
def Retyping (g : Field) : Prop := Locking g ∨ ∃ j < 8, g = Fld.GAR_INST_TYPE j

section
variable {img : List Byte} {s : State} {i j : Nat}

theorem works_retyped (s : State) (hj : j < 8) : Works Retyping calm s (retyped img s j) := by
  have htype (u : State) (v : Nat) : Works Retyping calm u (u.setF (Fld.GAR_INST_TYPE j) v) :=
    works_setF (by simp) (.inr ⟨j, hj, rfl⟩) v
  have hresult (u : State) : Works Retyping calm u (u.setB (Fld.GAR_INST_RESULT j) false) :=
    works_setB (by simp) (.inl (.inr (.inl ⟨j, hj, .inl rfl⟩))) false
  have hstate (u : State) (v : Nat) : Works Retyping calm u (u.setF (Fld.GAR_INST_STATE j) v) :=
    works_setF (by simp) (.inl (.inr (.inl ⟨j, hj, .inr rfl⟩))) v
  have hlock (u : State) : Works Retyping calm u (u.lockInst j) := (works_lockInst u hj).mono fun _ h => .inl h
  exact ((htype ..).trans (hresult _)).trans ((works_ite (.refl _) (hlock _)).trans (hstate ..))

/-- A lock-out sets no RESULT. -/
theorem result_lockInst_false (hs : s.regsWf = true) (hi : i < 8) (hj : j < 8) (h : s.result j = false) :
    (s.lockInst i).result j = false := by
  cases hfree : s.locked i with
  | true => rwa [State.lockInst, if_pos hfree]
  | false =>
    by_cases hij : i = j
    · exact hij ▸ result_lockInst hs hi hfree
    · refine ((works_lockInst_of_free hfree).bit (wf_runAll hs _) (spared_archive (by simp) ?_)).trans ?_
      · show (0x50020 + j * 4) / 65536 ≠ 0x12
        omega
      · rw [bit_of_regs hs rfl]
        simp (disch := grind) [lockWrites, RegOp.see]
        simpa [State.result, State.bit] using h

/-- Fields of different instances, or of one instance beside each other. -/
theorem apart_inst_inst {i j lo len lo' len' : Nat} (h : i = j → lo + len ≤ lo' ∨ lo' + len' ≤ lo) :
    Apart ⟨Reg.GAR_INST i, lo, len⟩ ⟨Reg.GAR_INST j, lo', len'⟩ := by
  by_cases hij : i = j
  · exact .inr (h hij)
  · exact .inl (by show 0x50020 + i * 4 ≠ 0x50020 + j * 4; omega)

theorem spared_type (hj : j < 8) : Spared Locking (Fld.GAR_INST_TYPE j) := by
  refine ⟨by simp, fun g hg => ?_⟩
  rcases hg with rfl | ⟨i, -, rfl | rfl⟩ | rfl | rfl | hg
  · exact .inl (by show 0x50020 + j * 4 ≠ 0x50000; omega)
  · exact apart_inst_inst fun _ => .inl (by decide)
  · exact apart_inst_inst fun _ => .inl (by decide)
  · exact .inl (by show 0x50020 + j * 4 ≠ 0x50120; omega)
  · exact .inl (by show 0x50020 + j * 4 ≠ 0x50124; omega)
  · exact .inl fun h => absurd ((congrArg (· / 65536) h).trans hg) (by show (0x50020 + j * 4) / 65536 ≠ 0x12; omega)

/-- What follows the type of an instance. -/
theorem works_retyped_after (s : State) (hi : i < 8) :
    Works Locking calm (s.setF (Fld.GAR_INST_TYPE i) (gins img i 0 1)) (retyped img s i) := by
  have hresult (u : State) : Works Locking calm u (u.setB (Fld.GAR_INST_RESULT i) false) :=
    works_setB (by simp) (.inr (.inl ⟨i, hi, .inl rfl⟩)) false
  have hstate (u : State) (v : Nat) : Works Locking calm u (u.setF (Fld.GAR_INST_STATE i) v) :=
    works_setF (by simp) (.inr (.inl ⟨i, hi, .inr rfl⟩)) v
  exact (hresult _).trans ((works_ite (.refl _) (works_lockInst _ hi)).trans (hstate ..))

variable (hs : s.regsWf = true) (hi : i < 8) (hj : j < 8)
include hs hi hj

theorem type_retyped (h : i ≠ j → s.getF (Fld.GAR_INST_TYPE j) = gins img j 0 1 % 8) :
    (retyped img s i).getF (Fld.GAR_INST_TYPE j) = gins img j 0 1 % 8 := by
  refine ((works_retyped_after s hi).reads (regsWf_setF _ _ hs) _ (spared_type hj)).trans ?_
  by_cases hij : i = j
  · subst hij
    exact getF_setF_self (by simp) _ hs
  · rw [getF_setF_ne (by simp) (by simp) (.inl (by show 0x50020 + i * 4 ≠ 0x50020 + j * 4; omega)) _ hs, h hij]

theorem result_retyped (h : i ≠ j → s.result j = false) : (retyped img s i).result j = false := by
  have hwf : (s.setF (Fld.GAR_INST_TYPE i) (gins img i 0 1)).regsWf = true := regsWf_setF _ _ hs
  have hset : ((s.setF (Fld.GAR_INST_TYPE i) (gins img i 0 1)).setB (Fld.GAR_INST_RESULT i) false).result j = false := by
    by_cases hij : i = j
    · exact hij ▸ bit_setB_self (by simp) rfl false hwf
    · have hne : 0x50020 + i * 4 ≠ 0x50020 + j * 4 := by omega
      refine (bit_setB_ne (by simp) (by simp) (.inl hne) false hwf).trans (Eq.trans ?_ (h hij))
      exact congrArg (· != 0) (getF_setF_ne (by simp) (by simp) (.inl hne) _ hs)
  have hlock : (if gins img i 0 1 = 0 then (s.setF (Fld.GAR_INST_TYPE i) (gins img i 0 1)).setB (Fld.GAR_INST_RESULT i) false
      else ((s.setF (Fld.GAR_INST_TYPE i) (gins img i 0 1)).setB (Fld.GAR_INST_RESULT i) false).lockInst i).result j = false := by
    split
    · exact hset
    · exact result_lockInst_false (regsWf_setB _ _ hwf) hi hj hset
  refine (congrArg (· != 0) (getF_setF_ne (by simp) (by simp) ?_ _ ?_)).trans hlock
  · by_cases hij : i = j
    · exact .inr (.inl (by show 3 + 1 ≤ 8; decide))
    · exact .inl (by show 0x50020 + i * 4 ≠ 0x50020 + j * 4; omega)
  · split
    · exact regsWf_setB _ _ hwf
    · exact (works_lockInst _ hi).wf (regsWf_setB _ _ hwf)

end

/-- Once each instance of a list has been retyped in its turn, each shows its type, and no RESULT stands. -/
theorem fitted_foldl {img : List Byte} {s : State} (hs : s.regsWf = true) (l : List Nat) (hl : ∀ i ∈ l, i < 8) {j : Nat} (hj : j < 8)
    (h : j ∉ l → s.getF (Fld.GAR_INST_TYPE j) = gins img j 0 1 % 8 ∧ s.result j = false) :
    (l.foldl (retyped img) s).getF (Fld.GAR_INST_TYPE j) = gins img j 0 1 % 8 ∧ (l.foldl (retyped img) s).result j = false := by
  induction l generalizing s with
  | nil => exact h List.not_mem_nil
  | cons i l ih =>
    have hi := hl i List.mem_cons_self
    refine ih ((works_retyped s hi).wf hs) (fun k hk => hl k (List.mem_cons_of_mem _ hk)) fun hout => ?_
    have hfit (hij : i ≠ j) := h fun hmem => (List.mem_cons.mp hmem).elim (fun heq => hij heq.symm) hout
    exact ⟨type_retyped hs hi hj fun hij => (hfit hij).1, result_retyped hs hi hj fun hij => (hfit hij).2⟩

/-! What an ACCEPT leaves. -/

theorem works_retimed (T : Field → Prop) (img old : List Byte) (s : State) (x : Nat) : Works T calm s (retimed img old s x) :=
  works_ite (works_modPair T _) (.refl s)

theorem works_retypings (s : State) (img : List Byte) :
    Works Retyping calm (enforced s img) ((List.range 8).foldl (retyped img) (enforced s img)) :=
  works_foldl _ fun u _ hj => works_retyped u (List.mem_range.mp hj)

theorem works_retimings (T : Field → Prop) (s : State) (img : List Byte) :
    Works T calm ((List.range 8).foldl (retyped img) (enforced s img)) (refitted s img) :=
  works_foldl _ fun u x _ => works_retimed T img s.gimg u x

theorem works_enforced (s : State) (img : List Byte) : Works OwnBlock besideGar s (enforced s img) := by
  have hgar : Works OwnBlock besideGar s (s.modGar fun g => { g with
      active := some img, clearable := g.clearable ||| 19, insts := [], tpBad := [], tpGood := [], tpNow := [] }) := works_modGar _
  have hpend (u : State) : Works OwnBlock besideGar u u.dropPending := (works_modGar _).trans (works_wr (own (by decide)) 0)
  exact hgar.trans ((hpend _).trans (works_wr (own (by decide)) _))

theorem garnet_of_retyping {g : Field} (h : Retyping g) : Garnet g := by
  rcases h with h | ⟨j, hj, rfl⟩
  · exact block_locking h
  · exact garnet_of_own (own (by show (0x50020 + j * 4) / 65536 = 5; omega))

theorem works_refitted (s : State) (img : List Byte) : Works Garnet beside s (refitted s img) := by
  have hnew : Works Garnet beside s (enforced s img) := ((works_enforced s img).mono fun _ => garnet_of_own).coarsen fun _ => rfl
  exact hnew.trans (((works_retypings s img).trans (works_retimings Retyping s img)).beside_of_calm.mono fun _ => garnet_of_retyping)

theorem works_acceptImage (s : State) (img : List Byte) : Works Garnet beside s (s.acceptImage img) := by
  rw [acceptImage_eq]
  exact (works_refitted s img).trans (works_garLog_beside (refitted s img) ..)

theorem gar_acceptImage (s : State) (img : List Byte) :
    (s.acceptImage img).gar.active = some img ∧ (s.acceptImage img).gar.pending = none := by
  rw [acceptImage_eq]
  obtain ⟨n, hlog⟩ := gar_garLog (refitted s img) 2 0 (refitted s img).cfgUser s.activeChk (imgChk img) (some img)
  have hcalm := gar_of_calm ((works_retypings s img).trans (works_retimings Retyping s img))
  have hactive : (refitted s img).gar.active = some img := (congrArg GarSt.active hcalm :)
  have hpending : (refitted s img).gar.pending = none := (congrArg GarSt.pending hcalm :)
  exact ⟨(congrArg GarSt.active hlog).trans hactive, (congrArg GarSt.pending hlog).trans hpending⟩

section
variable {s : State} (hs : s.regsWf = true) (img : List Byte)
include hs

/-- The log leaves the words of the instances and the low words. -/
theorem reads_acceptImage {f : Field} (hf : 0 < f.len ∧ f.lo + f.len ≤ 32) (ha : f.addr < 0x52000) :
    (s.acceptImage img).getF f = ((List.range 8).foldl (retyped img) (enforced s img)).getF f := by
  have hwf := (works_enforced s img).wf hs
  rw [acceptImage_eq]
  refine ((works_garLog (refitted s img) ..).reads ((works_refitted s img).wf hs) f (spared_logging hf ha)).trans ?_
  exact (works_retimings (fun _ => False) s img).reads ((works_retypings s img).wf hwf) f ⟨hf, fun _ h => h.elim⟩

theorem fitted_acceptImage {j : Nat} (hj : j < 8) :
    (s.acceptImage img).getF (Fld.GAR_INST_TYPE j) = gins img j 0 1 % 8 ∧ (s.acceptImage img).result j = false := by
  have hfit := fitted_foldl (img := img) ((works_enforced s img).wf hs) (List.range 8) (fun _ h => List.mem_range.mp h) hj
    fun h => absurd (List.mem_range.mpr hj) h
  refine ⟨(reads_acceptImage hs img (by simp) ?_).trans hfit.1,
    (congrArg (· != 0) (reads_acceptImage hs img (by simp) ?_)).trans hfit.2⟩
  · show 0x50020 + j * 4 < 0x52000
    omega
  · show 0x50020 + j * 4 < 0x52000
    omega

/-- A low word that no instance and no state of Garnet stands in. -/
theorem rd_acceptImage {a : Nat} (ha : a < 0x50020) (hne : a ≠ Reg.GAR_STATUS) :
    (s.acceptImage img).rd a = (enforced s img).rd a := by
  have hword : 0 < (word a).len ∧ (word a).lo + (word a).len ≤ 32 := ⟨Nat.zero_lt_succ _, Nat.le_refl 32⟩
  have hspared : Spared Retyping (word a) := ⟨hword, fun g hg => hg.elim
    ((spared_locking (f := word a) hword ha (.inl hne)).2 g) fun ⟨_, hj, h⟩ => h ▸ apart_inst hj _ _ (.inl ha)⟩
  rw [rd_eq_getF, reads_acceptImage hs img hword (by show a < 0x52000; omega),
    (works_retypings s img).reads ((works_enforced s img).wf hs) _ hspared, ← rd_eq_getF]

end

theorem accept (s : State) (dt : Nat) (hw : s.regsWf = true) (req : Requester) (img : List Byte) (h : Lets s req Reg.GAR_CFGCMD)
    (hon : s.gar.powered = true) (hidle : s.gar.busy = none) (hsession : s.gar.session.isSome = true)
    (hmaint : s.maintenance = true) (hstill : s.cfgStill = true) (hpending : s.gar.pending = some img)
    (hwhole : s.pendingWhole = true) (hok : garImageOk img = true) (hchk : leNat (s.cfgWin 0 4) = imgChk img) :
    ∃ t, exec (.cfgAccept dt req) s = .next t ∧
        Answered t 0 0 ∧
        t.bit Fld.GAR_CFGRES_BUSY = true ∧
        t.getF Fld.GAR_CFGRES_CMD = 5 ∧
        t.gar.busy = some (5, 0) ∧
        t.gar.active = some img ∧
        t.gar.pending = none ∧
        t.rd Reg.GAR_CFGCHK = imgChk img % 4294967296 ∧
        t.rd Reg.GAR_PENDCHK = 0 ∧
        (∀ j : Fin 8, t.getF (Fld.GAR_INST_TYPE j.val) = gins img j.val 0 1 % 8) ∧
        (∀ j : Fin 8, t.result j.val = false) ∧
        LeavesOut dt [0x05, 0x12] s t { t with gar := s.gar, arc := s.arc } := by
  have hwin : (touched (s.elapse dt)).cfgWin 0 4 = s.cfgWin 0 4 := cfgWin_of_regs rfl 0 4
  have hexec : exec (.cfgAccept dt req) s = .next ((begun ((touched (s.elapse dt)).acceptImage img) 5 0).respond 0 0) := by
    refine congrArg Host.Outcome.next ((cfgCommand_begins h hon hidle dt 5 _).trans ?_)
    rw [cfgAccept_whole (session_touched hsession dt) ((maintenance_command s dt).trans hmaint)
      ((cfgStill_command s dt).trans hstill) hpending hwhole hok (hwin ▸ hchk)]
  have hwt : (touched (s.elapse dt)).regsWf = true := hw
  have hworks := works_acceptImage (touched (s.elapse dt)) img
  have hshows := begun_shows (hworks.wf hwt) (cmd := 5) (by decide) 0
  obtain ⟨hactive, hnone⟩ := gar_acceptImage (touched (s.elapse dt)) img
  have hinst (j : Fin 8) (lo len : Nat) (hlen : 0 < len ∧ lo + len ≤ 32) : Spared Answering ⟨Reg.GAR_INST j.val, lo, len⟩ := by
    have hne (a : Nat) (ha : a < 0x50020 ∨ 0x50040 ≤ a) : 0x50020 + j.val * 4 ≠ a := by omega
    exact spared_answering hlen (hne _ (by decide)) (hne _ (by decide)) (.inl (hne _ (by decide))) (hne _ (by decide))
  refine ⟨_, hexec, hshows.answer, hshows.busy, hshows.command, congrArg GarSt.busy hshows.gar, ?_, ?_, ?_, ?_,
    fun j => ?_, fun j => ?_, leavesOut_begun hw ((works_touched Garnet s dt).trans hworks) 5 0⟩
  · rw [hshows.gar]
    exact hactive
  · rw [hshows.gar]
    exact hnone
  · rw [hshows.rd (spared_answering (by decide) (by decide) (by decide) (by decide) (by decide)),
      rd_acceptImage hwt img (by decide) (by decide)]
    exact rd_wr_self _ _ (regsWf_wr _ _ hwt)
  · rw [hshows.rd (spared_answering (by decide) (by decide) (by decide) (by decide) (by decide)),
      rd_acceptImage hwt img (by decide) (by decide)]
    exact (rd_wr_ne (by decide) _).trans (rd_wr_self _ _ hwt)
  · rw [hshows.reads _ (hinst j 0 3 (by decide))]
    exact (fitted_acceptImage hwt img j.isLt).1
  · refine (congrArg (· != 0) (hshows.reads _ (hinst j 3 1 (by decide)))).trans ?_
    exact (fitted_acceptImage hwt img j.isLt).2

/-! ### DISCARD, and the time limit (R172, R174, R175) -/

theorem works_dropPending (s : State) : Works OwnBlock besideGar s s.dropPending :=
  (works_modGar _).trans (works_wr (own (by decide)) 0)

/-- The pending image is gone, and the cause of the maintenance lock-out may clear. -/
def discarded (s : State) : State := s.dropPending.modGar fun g => { g with clearable := g.clearable ||| 16 }

def discardLogged (s : State) : State :=
  (discarded s).garLog 3 0 (discarded s).cfgUser (discarded s).activeChk (discarded s).activeChk s.gar.pending

theorem cfgDiscard_open {s : State} (hsession : s.gar.session.isSome = true) : s.cfgDiscard = (discardLogged s, 0) :=
  if_neg (open_of_isSome hsession)

theorem works_discarded (s : State) : Works Garnet beside s (discarded s) :=
  (((works_dropPending s).mono fun _ => garnet_of_own).coarsen fun _ => rfl).trans (works_modGar _)

theorem discard (s : State) (dt : Nat) (hw : s.regsWf = true) (req : Requester) (h : Lets s req Reg.GAR_CFGCMD)
    (hon : s.gar.powered = true) (hidle : s.gar.busy = none) (hsession : s.gar.session.isSome = true) :
    ∃ t, exec (.cfgDiscard dt req) s = .next t ∧
        Answered t 0 0 ∧
        t.bit Fld.GAR_CFGRES_BUSY = true ∧
        t.getF Fld.GAR_CFGRES_CMD = 6 ∧
        t.gar.busy = some (6, 0) ∧
        t.gar.pending = none ∧
        t.gar.chunks = [] ∧
        t.rd Reg.GAR_PENDCHK = 0 ∧
        t.bit Fld.GAR_STATUS_PENDING = false ∧
        t.gar.clearable.testBit 4 = true ∧
        LeavesOut dt [0x05, 0x12] s t { t with gar := s.gar, arc := s.arc } := by
  have hexec : exec (.cfgDiscard dt req) s = .next ((begun (discardLogged (touched (s.elapse dt))) 6 0).respond 0 0) := by
    refine congrArg Host.Outcome.next ((cfgCommand_begins h hon hidle dt 6 _).trans ?_)
    rw [cfgDiscard_open (session_touched hsession dt)]
  have hwt : (touched (s.elapse dt)).regsWf = true := hw
  have hdrop := works_discarded (touched (s.elapse dt))
  have hworks : Works Garnet beside (touched (s.elapse dt)) (discardLogged (touched (s.elapse dt))) :=
    hdrop.trans (works_garLog_beside (discarded (touched (s.elapse dt))) ..)
  have hshows := begun_shows (hworks.wf hwt) (cmd := 6) (by decide) 0
  obtain ⟨n, hgar⟩ := gar_garLog (discarded (touched (s.elapse dt))) 3 0 (discarded (touched (s.elapse dt))).cfgUser
    (discarded (touched (s.elapse dt))).activeChk (discarded (touched (s.elapse dt))).activeChk s.gar.pending
  have hlog : (discardLogged (touched (s.elapse dt))).gar = { (discarded (touched (s.elapse dt))).gar with logSeq := n } := hgar
  refine ⟨_, hexec, hshows.answer, hshows.busy, hshows.command, congrArg GarSt.busy hshows.gar, ?_, ?_, ?_, ?_, ?_,
    leavesOut_begun hw ((works_touched Garnet s dt).trans hworks) 6 0⟩
  · rw [hshows.gar, hlog]
    rfl
  · rw [hshows.gar, hlog]
    rfl
  · rw [hshows.rd (spared_answering (by decide) (by decide) (by decide) (by decide) (by decide))]
    refine ((works_garLog (discarded (touched (s.elapse dt))) ..).rd (hdrop.wf hwt) (spared_logging (by decide) (by decide))).trans ?_
    exact rd_wr_self (s := (touched (s.elapse dt)).modGar _) _ 0 hwt
  · rw [hshows.pending, hlog]
    rfl
  · rw [hshows.gar, hlog]
    exact testBit_or_sixteen _

theorem exec_pendingImageExpiry {s : State} {dt : Nat} (hpending : s.gar.pending.isSome = true)
    (hdue : s.gar.pendAt + 3600000000000 ≤ (s.elapse dt).time.clock) :
    exec (.pendingImageExpiry dt) s = .next (s.elapse dt).dropPending.garShow := by
  refine congrArg Host.Outcome.next (if_pos ?_)
  exact Bool.and_eq_true_iff.mpr ⟨hpending, decide_eq_true hdue⟩

theorem pendingExpiry (s : State) (dt : Nat) (hw : s.regsWf = true) (hpending : s.gar.pending.isSome = true)
    (hdue : s.gar.pendAt + 3600000000000 ≤ (s.elapse dt).time.clock) :
    ∃ t, exec (.pendingImageExpiry dt) s = .next t ∧
        t.gar.pending = none ∧
        t.rd Reg.GAR_PENDCHK = 0 ∧
        t.bit Fld.GAR_STATUS_PENDING = false ∧
        LeavesOut dt [0x05] s t { t with gar := { t.gar with pending := s.gar.pending, chunks := s.gar.chunks } } := by
  have hdrop := works_dropPending (s.elapse dt)
  have hshown : Works OwnBlock besideGar (s.elapse dt).dropPending (s.elapse dt).dropPending.garShow :=
    ((works_garShow _).coarsen fun _ => rfl).mono fun _ h => own (block_shown h)
  have hgar : (s.elapse dt).dropPending.garShow.gar = { s.gar with pending := none, chunks := [] } :=
    congrArg State.gar (onlyRegs_of_bare (works_garShow (s.elapse dt).dropPending))
  refine ⟨_, exec_pendingImageExpiry hpending hdue, ?_, ?_, ?_, leavesOut_of_gar (hdrop.trans hshown) hw (fun _ h => h) ?_⟩
  · rw [hgar]
  · rw [(works_garShow (s.elapse dt).dropPending).rd (hdrop.wf hw)
      (spared_shown (by decide) (by decide) (by decide) (by decide))]
    exact rd_wr_self (s := (s.elapse dt).modGar _) _ 0 hw
  · rw [pending_garShow (hdrop.wf hw)]
    rfl
  · rw [hgar]

/-- Settles O28: each command is busy with its effect done, and the time limit drops the image. -/
theorem garnetConfig : Obligations.GarnetConfig := by
  intro s dt hs
  have hw : s.regsWf = true := (Bool.and_eq_true_iff.mp hs).1
  exact ⟨load s dt hw, readback s dt hw, accept s dt hw, discard s dt hw, pendingExpiry s dt hw⟩

end Sys2Proof.Proofs.GarnetImages

/-! Garnet: supply, checks, inputs and faults (R134, R135, R137, R138, R140, R143, R163). -/

namespace Sys2Proof.Proofs.GarnetFaults

open Sys2Proof Sys2Proof.Machine Sys2Proof.Laws Sys2Proof.Proofs.Time Sys2Proof.Proofs.Measurement Sys2Proof.Proofs.Power
open Sys2Proof.Proofs.RegOps Sys2Proof.Proofs.GarnetFrames Sys2Proof.Proofs.GarnetSessions

/-! ### What is looked at beside the registers -/

/-- All but the registers, and what the pairs and the instances of Garnet remember. -/
def steady (s : State) : State := { s with regs := [], gar := { s.gar with pairs := [], insts := [] } }

/-- All but the registers, the Archive, and what a global fault changes in Garnet. -/
def settled (s : State) : State :=
  { s with regs := [], arc := {}, gar := { s.gar with pairs := [], insts := [], clearable := 0, session := none } }

theorem gar_of_steady {T : Field → Prop} {s t : State} (h : Works T steady s t) :
    { t.gar with pairs := s.gar.pairs, insts := s.gar.insts } = s.gar :=
  congrArg (fun u : State => { u.gar with pairs := s.gar.pairs, insts := s.gar.insts }) h.rest

/-- A field of Garnet or of the Archive, shown last. -/
theorem works_garShow_own (s : State) : Works OwnBlock bare s s.garShow := (works_garShow s).mono fun _ h => own (block_shown h)

theorem gar_of_bare {s t : State} (h : bare t = bare s) : t.gar = s.gar := (congrArg State.gar h :)

theorem gar_garShow (s : State) : s.garShow.gar = s.gar := gar_of_bare (works_garShow s).rest

theorem gpair_garShow (s : State) (x : Nat) : s.garShow.gpair x = s.gpair x := by rw [State.gpair, gar_garShow, State.gpair]

/-- A field that shows neither the conditions nor the pairs. -/
theorem getF_garShow {s : State} (hs : s.regsWf = true) {f : Field} (hf : 0 < f.len ∧ f.lo + f.len ≤ 32) (ha : f.addr ≠ Reg.GAR_COND)
    (hstat : f.addr ≠ Reg.GAR_STATUS ∨ f.lo + f.len ≤ 8 ∨ 12 ≤ f.lo) (hout : f.addr ≠ Reg.GAR_OUTPUTS) :
    s.garShow.getF f = s.getF f := (works_garShow s).reads hs f (spared_shown hf ha hstat hout)

theorem locked_garShow {s : State} (hs : s.regsWf = true) (j : Nat) : s.garShow.locked j = s.locked j :=
  congrArg (·.testBit j) (getF_garShow hs (f := Fld.GAR_STATUS_LOCKED) (by decide) (by decide) (by decide) (by decide))

/-! ### The supply (R135) -/

/-- What goes off with the supply. -/
def Off (g : Field) : Prop := g.addr = Reg.GAR_PERMSTAT ∨ g.addr = Reg.GAR_INPUTS

/-- A pair with nothing left in progress. -/
def idlePair (p : GarPair) : GarPair := { p with
  closed := false, opLow := none, pulse := none, feedback := none, hold := none, test := none, lastEdge := none, good := 0 }

/-- A pair goes off. -/
def pairOff (s : State) (x : Nat) : State :=
  (s.setF (Fld.GAR_PERMSTAT_PSTATE x) (b2n (s.reqLine x))).modPair x idlePair

theorem garOff_eq (s : State) : s.garOff = ((List.range 4).foldl pairOff s).setF Fld.GAR_INPUTS_TP 0 := rfl

theorem works_garOff (s : State) : Works Off steady s s.garOff := by
  have hpair (u : State) (x : Nat) (hx : x ∈ List.range 4) : Works Off steady u (pairOff u x) := by
    have hx : x < 4 := List.mem_range.mp hx
    have hset (v : Nat) : Works Off steady u (u.setF (Fld.GAR_PERMSTAT_PSTATE x) v) :=
      works_setF (by show 4 * x + 0 + 2 ≤ 32; omega) (.inl rfl) v
    have hidle (v : State) : Works Off steady v (v.modPair x idlePair) := works_modGar _
    exact (hset _).trans (hidle _)
  rw [garOff_eq]
  exact (works_foldl _ hpair).trans (works_setF (by decide) (.inr rfl) 0)

theorem gpair_pairOff_self (s : State) (x : Nat) : ((pairOff s x).gpair x).closed = false := by
  rw [State.gpair, pairOff, State.modPair, modGar_gar, tget_tmod_self]
  rfl

theorem opens_pairOff (s : State) (x : Nat) : Opens s (pairOff s x) :=
  Opens.trans (opens_of_pairs (congrArg GarSt.pairs (setF_gar ..))) (opens_modPair _ x fun _ h => absurd h Bool.false_ne_true)

theorem closed_garOff (s : State) (x : Fin 4) : (s.garOff.gpair x.val).closed = false := by
  rw [garOff_eq, State.gpair, setF_gar]
  exact closed_foldl (List.range 4) opens_pairOff gpair_pairOff_self s (List.mem_range.mpr x.isLt)

theorem spared_off {f : Field} (hf : 0 < f.len ∧ f.lo + f.len ≤ 32) (ha : f.addr ≠ Reg.GAR_PERMSTAT) (ha' : f.addr ≠ Reg.GAR_INPUTS) :
    Spared Off f := ⟨hf, fun _ hg => hg.elim (fun h => .inl fun k => ha (k.trans h)) fun h => .inl fun k => ha' (k.trans h)⟩

/-- Garnet is supplied, its outputs are off, and its start-up check has begun. -/
def powering (s : State) : State := s.modGar fun g => { g with
  powered := true, powerAt := s.time.clock, diffCycles := 0, discSince := [], tpBad := [], tpGood := [], tpNow := [], insts := [] }

def riseWrites : List RegOp :=
  [.bit Fld.GAR_STATUS_CUST_EN false, .field Fld.GAR_INPUTS_SI 0, .field Fld.GAR_STATUS_STATE 0]

def risen (s : State) : State := written (powering s).garOff riseWrites

theorem exec_garnetSupplyRise {s : State} (hoff : s.gar.powered = false) (dt : Nat) :
    exec (.garnetSupplyRise dt) s = .next (risen (s.elapse dt)).garShow := by
  have hout : ¬ (s.elapse dt).gar.powered = true := by
    rw [elapse_gar, hoff]
    exact Bool.false_ne_true
  exact congrArg Host.Outcome.next ((if_neg hout).trans
    (congrArg State.garShow (runAll_eq_written (powering (s.elapse dt)).garOff riseWrites)))

theorem own_of_off {g : Field} (h : Off g) : OwnBlock g := own (h.elim (fun h => h ▸ by decide) fun h => h ▸ by decide)

theorem within_riseWrites : ∀ o ∈ riseWrites, Within OwnBlock o := by
  intro o ho
  rcases List.mem_cons.mp ho with rfl | ho
  · exact ⟨by decide, own (by decide)⟩
  rcases List.mem_cons.mp ho with rfl | ho
  · exact ⟨by decide, own (by decide)⟩
  rw [List.mem_singleton.mp ho]
  exact ⟨by decide, own (by decide)⟩

theorem works_risen (s : State) : Works OwnBlock besideGar s (risen s) := by
  have hoff : Works OwnBlock besideGar (powering s) (powering s).garOff := ((works_garOff _).mono fun _ => own_of_off).coarsen fun _ => rfl
  have hwritten : Works OwnBlock besideGar (powering s).garOff (risen s) :=
    (works_written _ within_riseWrites).coarsen fun _ => rfl
  exact (works_modGar _).trans (hoff.trans hwritten)

theorem supplyRise (s : State) (dt : Nat) (hw : s.regsWf = true) (hoff : s.gar.powered = false) :
    ∃ t, exec (.garnetSupplyRise dt) s = .next t ∧
        t.gar.powered = true ∧
        t.gar.powerAt = (s.elapse dt).time.clock ∧
        t.getF Fld.GAR_STATUS_STATE = 0 ∧
        t.getF Fld.GAR_STATUS_LOCKED = s.getF Fld.GAR_STATUS_LOCKED ∧
        (∀ x : Fin 4, (t.gpair x.val).closed = false) ∧
        LeavesOut dt [0x05] s t { t with gar := s.gar } := by
  have hwp : (powering (s.elapse dt)).regsWf = true := hw
  have hgoes := works_garOff (powering (s.elapse dt))
  have hrises := works_risen (s.elapse dt)
  have hr : (risen (s.elapse dt)).regs = (runAll (powering (s.elapse dt)).garOff riseWrites).regs := regs_written ..
  have hgar : (risen (s.elapse dt)).garShow.gar = (powering (s.elapse dt)).garOff.gar := gar_garShow _
  have hoffGar := gar_of_steady hgoes
  refine ⟨_, exec_garnetSupplyRise hoff dt, ?_, ?_, ?_, ?_, fun x => ?_,
    leavesOut_of_gar (hrises.trans ((works_garShow_own _).coarsen fun _ => rfl)) hw (fun _ h => h) rfl⟩
  · rw [hgar]
    exact (congrArg GarSt.powered hoffGar :)
  · rw [hgar]
    exact (congrArg GarSt.powerAt hoffGar :)
  · rw [getF_garShow (hrises.wf hw) (by decide) (by decide) (by decide) (by decide), getF_of_regs (hgoes.wf hwp) hr]
    simp (disch := decide) [riseWrites, RegOp.see]
  · rw [getF_garShow (hrises.wf hw) (by decide) (by decide) (by decide) (by decide), getF_of_regs (hgoes.wf hwp) hr]
    simp (disch := decide) [riseWrites, RegOp.see]
    exact hgoes.reads hwp _ (spared_off (by decide) (by decide) (by decide))
  · rw [State.gpair, hgar]
    exact closed_garOff _ x

/-! ### The start-up check (R134, R135, R163) -/

/-- A check that passes lets the causes that it covers clear. -/
def passing (s : State) (mask : Nat) : State := s.modGar fun g => { g with clearable := mask }

/-- The causes that may clear after a check. -/
def checkMask (s : State) (chk : GarnetCheck) : Nat :=
  s.gar.clearable ||| (if chk.image && s.gar.active.isSome then 3 else 0) |||
    (if chk.image && s.gar.active.isSome && chk.compare && chk.testPulses && chk.readback then 12 else 0)

/-- The check begins to be judged. -/
def judging (s : State) (chk : GarnetCheck) : State :=
  (passing s (checkMask s chk)).setF Fld.GAR_STATUS_STATE (if s.getF Fld.GAR_GCAUSE_CAUSE = 0 then 1 else 2)

/-- The image has been judged, then the comparison, then the pulses and the readback. -/
def imageJudged (s : State) (chk : GarnetCheck) : State :=
  if (judging s chk).gar.active.isNone then (judging s chk).garGlobal 1
  else if chk.image then judging s chk else (judging s chk).garGlobal 0

def comparisonJudged (s : State) (chk : GarnetCheck) : State :=
  if chk.compare then imageJudged s chk else (imageJudged s chk).garGlobal 2

def pulsesJudged (s : State) (chk : GarnetCheck) : State :=
  if chk.testPulses && chk.readback then comparisonJudged s chk
  else (comparisonJudged s chk).garGlobal (if Config.checkCauseOsc chk.testPulses chk.readback then 3 else 2)

theorem exec_startupCheck {s : State} (dt : Nat) (chk : GarnetCheck) (hon : s.gar.powered = true)
    (hstate : s.getF Fld.GAR_STATUS_STATE = 0) :
    exec (.garnetStartupCheckDone dt chk) s = .next (pulsesJudged (s.elapse dt) chk).garShow := by
  have hruns : ¬ ((!(s.elapse dt).gar.powered) = true ∨ (s.elapse dt).getF Fld.GAR_STATUS_STATE ≠ 0) := by
    rw [elapse_gar, hon, getF_elapse, hstate]
    decide
  exact congrArg Host.Outcome.next (if_neg hruns)

theorem gar_judging (s : State) (chk : GarnetCheck) : (judging s chk).gar = { s.gar with clearable := checkMask s chk } := setF_gar ..

theorem works_judging (s : State) (chk : GarnetCheck) : Works OwnBlock besideGar s (judging s chk) := by
  have hpass : Works OwnBlock besideGar s (passing s (checkMask s chk)) := works_modGar _
  exact hpass.trans (works_setF (by decide) (own (by decide)) _)

theorem startupPassed (s : State) (dt : Nat) (hw : s.regsWf = true) (hon : s.gar.powered = true)
    (hactive : s.gar.active.isSome = true) (hstate : s.getF Fld.GAR_STATUS_STATE = 0) (hcause : s.getF Fld.GAR_GCAUSE_CAUSE = 0) :
    ∃ t, exec (.garnetStartupCheckDone dt { image := true, compare := true, testPulses := true, readback := true }) s =
        .next t ∧
        t.getF Fld.GAR_STATUS_STATE = 1 ∧
        t.gar.clearable = s.gar.clearable ||| 15 ∧
        t.getF Fld.GAR_STATUS_LOCKED = s.getF Fld.GAR_STATUS_LOCKED ∧
        LeavesOut dt [0x05] s t { t with gar := { t.gar with clearable := s.gar.clearable } } := by
  have hpass : pulsesJudged (s.elapse dt) ⟨true, true, true, true⟩ = judging (s.elapse dt) ⟨true, true, true, true⟩ := by
    have hsome : ¬ (judging (s.elapse dt) ⟨true, true, true, true⟩).gar.active.isNone = true := by
      rw [gar_judging]
      exact GarnetImages.open_of_isSome hactive
    exact if_neg hsome
  have hworks := works_judging (s.elapse dt) ⟨true, true, true, true⟩
  have hwp : (passing (s.elapse dt) (checkMask (s.elapse dt) ⟨true, true, true, true⟩)).regsWf = true := hw
  have hgar : (judging (s.elapse dt) ⟨true, true, true, true⟩).garShow.gar =
      { s.gar with clearable := checkMask (s.elapse dt) ⟨true, true, true, true⟩ } := (gar_garShow _).trans (gar_judging ..)
  have hshown : Works OwnBlock besideGar (judging (s.elapse dt) ⟨true, true, true, true⟩)
      (judging (s.elapse dt) ⟨true, true, true, true⟩).garShow := (works_garShow_own _).coarsen fun _ => rfl
  refine ⟨_, (exec_startupCheck dt _ hon hstate).trans (congrArg (fun u : State => Host.Outcome.next u.garShow) hpass), ?_, ?_, ?_,
    leavesOut_of_gar (hworks.trans hshown) hw (fun _ h => h) ?_⟩
  · rw [getF_garShow (hworks.wf hw) (by decide) (by decide) (by decide) (by decide), judging, getF_setF_self (by decide) _ hwp,
      getF_elapse, hcause]
    rfl
  · rw [hgar]
    show checkMask (s.elapse dt) ⟨true, true, true, true⟩ = _
    rw [checkMask, elapse_gar, hactive]
    exact Nat.or_assoc ..
  · rw [getF_garShow (hworks.wf hw) (by decide) (by decide) (by decide) (by decide)]
    exact getF_setF_ne (by decide) (by decide) (by decide) _ hwp
  · rw [hgar]

/-! Global lock-out. -/

theorem works_garGlobal_settled (s : State) (b : Nat) : Works Global settled s (s.garGlobal b) := by
  have hclear : Works Global settled s (clearing s b) := works_modGar _
  have hcalm {T : Field → Prop} {t u : State} (h : Works T calm t u) : Works T settled t u := h.coarsen fun _ => rfl
  have hend : Works Ending settled (allOpen s b) (s.garGlobal b) := by
    have hendSession (u : State) : Works Ending settled u u.endSession := by
      have hgar : Works Ending settled u (u.modGar fun g => { g with session := none, clearable := g.clearable ||| 16 }) := works_modGar _
      exact hgar.trans (works_setB (by decide) (.inl rfl) false)
    have hsession : Works Ending settled (allOpen s b) (if b = 4 then allOpen s b else (allOpen s b).endSession) :=
      works_ite (.refl _) (hendSession _)
    rw [garGlobal_eq]
    exact works_ite hsession (hsession.trans (works_emit (fun _ hg => .inr hg) (by decide) ..))
  exact hclear.trans ((hcalm (works_latched s b)).trans (((hcalm (works_allLocked s b)).mono fun _ h => .inl h).trans
    (((hcalm (works_allOpen s b)).mono fun _ h => global_of_ending (.inr h)).trans (hend.mono fun _ h => global_of_ending h))))

theorem active_of_settled {s t : State} (h : settled t = settled s) : t.gar.active = s.gar.active :=
  (congrArg (fun u : State => u.gar.active) h :)

theorem gused_of_active {s t : State} (h : t.gar.active = s.gar.active) : t.gused = s.gused := by
  simp only [State.gused, State.gtype, State.gimg, h]

/-- Global lock-out with cause `b` for a used list of instances. -/
structure LockedOut (b : Nat) (used : List Nat) (t : State) : Prop where
  wf : t.regsWf = true
  state : t.getF Fld.GAR_STATUS_STATE = 2
  cause : (t.getF Fld.GAR_GCAUSE_CAUSE).testBit b = true
  locked : (used.all fun j => t.locked j) = true
  closed : ∀ x : Fin 4, (t.gpair x.val).closed = false

section
variable {s : State} (hs : s.regsWf = true)
include hs

theorem lockedOut_garGlobal {b : Nat} (hb : b < 5) : LockedOut b s.gused (s.garGlobal b) where
  wf := (works_garGlobal s b).wf hs
  state := state_garGlobal hs
  cause := by rw [cause_garGlobal hs hb, decide_eq_true rfl, Bool.or_true]
  locked := List.all_eq_true.mpr fun _ hj => locked_garGlobal hs hj
  closed := closed_garGlobal s b

/-- Another global fault adds its cause. -/
theorem lockedOut_again {b c : Nat} (hc : c < 5) (h : LockedOut b s.gused s) : LockedOut b s.gused (s.garGlobal c) where
  wf := (works_garGlobal s c).wf hs
  state := state_garGlobal hs
  cause := by rw [cause_garGlobal hs hc, h.cause, Bool.true_or]
  locked := List.all_eq_true.mpr fun _ hj => locked_garGlobal hs hj
  closed := closed_garGlobal s c

end

theorem LockedOut.shown {b : Nat} {used : List Nat} {s : State} (h : LockedOut b used s) : LockedOut b used s.garShow where
  wf := (works_garShow s).wf h.wf
  state := (getF_garShow h.wf (by decide) (by decide) (by decide) (by decide)).trans h.state
  cause := (congrArg (·.testBit b) (getF_garShow h.wf (by decide) (by decide) (by decide) (by decide))).trans h.cause
  locked := List.all_eq_true.mpr fun j hj => (locked_garShow h.wf j).trans (List.all_eq_true.mp h.locked j hj)
  closed x := (congrArg GarPair.closed (gpair_garShow s x.val)).trans (h.closed x)

/-- The frame of an evaluation that shows what it left. -/
theorem leavesOut_shown {s v : State} {dt : Nat} (hw : s.regsWf = true) (h : Works Garnet beside (s.elapse dt) v) :
    LeavesOut dt [0x05, 0x12] s v.garShow { v.garShow with gar := s.gar, arc := s.arc } :=
  leavesOut_of_beside (h.trans ((works_garShow v).beside_of_bare.mono fun _ h => GarnetImages.garnet_of_own (own (block_shown h)))) hw
    fun _ h => h

theorem works_garGlobal_garnet (s : State) (b : Nat) : Works Garnet beside s (s.garGlobal b) :=
  (works_garGlobal s b).mono fun _ => block_global

theorem works_imageJudged (s : State) (chk : GarnetCheck) : Works Garnet beside s (imageJudged s chk) := by
  have hjudging : Works Garnet beside s (judging s chk) :=
    ((works_judging s chk).mono fun _ => GarnetImages.garnet_of_own).coarsen fun _ => rfl
  exact works_ite (hjudging.trans (works_garGlobal_garnet ..)) (works_ite hjudging (hjudging.trans (works_garGlobal_garnet ..)))

theorem active_imageJudged (s : State) (chk : GarnetCheck) : (imageJudged s chk).gar.active = s.gar.active := by
  have hjudging : (judging s chk).gar.active = s.gar.active := (congrArg GarSt.active (gar_judging s chk) :)
  have hglobal (b : Nat) : ((judging s chk).garGlobal b).gar.active = s.gar.active :=
    (active_of_settled (works_garGlobal_settled (judging s chk) b).rest).trans hjudging
  unfold imageJudged
  split
  · exact hglobal 1
  · split
    · exact hjudging
    · exact hglobal 0

theorem startupFailed (s : State) (dt : Nat) (hw : s.regsWf = true) (chk : GarnetCheck) (hcompare : chk.compare = false)
    (hon : s.gar.powered = true) (hstate : s.getF Fld.GAR_STATUS_STATE = 0) :
    ∃ t, exec (.garnetStartupCheckDone dt chk) s = .next t ∧
        t.getF Fld.GAR_STATUS_STATE = 2 ∧
        (t.getF Fld.GAR_GCAUSE_CAUSE).testBit 2 = true ∧
        ((s.gused.all fun j => t.locked j) = true) ∧
        (∀ x : Fin 4, (t.gpair x.val).closed = false) ∧
        LeavesOut dt [0x05, 0x12] s t { t with gar := s.gar, arc := s.arc } := by
  have hcompared : comparisonJudged (s.elapse dt) chk = (imageJudged (s.elapse dt) chk).garGlobal 2 := if_neg (by rw [hcompare]; decide)
  have himage := works_imageJudged (s.elapse dt) chk
  have hworks : Works Garnet beside (s.elapse dt) ((imageJudged (s.elapse dt) chk).garGlobal 2) :=
    himage.trans (works_garGlobal_garnet ..)
  have hused : (imageJudged (s.elapse dt) chk).gused = s.gused := gused_of_active (active_imageJudged (s.elapse dt) chk)
  have hused' : ((imageJudged (s.elapse dt) chk).garGlobal 2).gused = s.gused :=
    (gused_of_active (active_of_settled (works_garGlobal_settled _ 2).rest)).trans hused
  have hlocked : LockedOut 2 s.gused ((imageJudged (s.elapse dt) chk).garGlobal 2) :=
    hused ▸ lockedOut_garGlobal (himage.wf hw) (by decide)
  have hall : LockedOut 2 s.gused (pulsesJudged (s.elapse dt) chk) ∧ Works Garnet beside (s.elapse dt) (pulsesJudged (s.elapse dt) chk) := by
    unfold pulsesJudged
    rw [hcompared]
    split
    · exact ⟨hlocked, hworks⟩
    · refine ⟨hused' ▸ lockedOut_again (hworks.wf hw) (by split <;> decide) (hused'.symm ▸ hlocked), hworks.trans (works_garGlobal_garnet ..)⟩
  obtain ⟨hout, hframe⟩ := hall
  exact ⟨_, exec_startupCheck dt chk hon hstate, hout.shown.state, hout.shown.cause, hout.shown.locked, hout.shown.closed,
    leavesOut_shown hw hframe⟩

/-! ### The configuration check (R134) -/

theorem exec_garnetConfigCheck {s : State} (dt : Nat) (hruns : s.garRuns = true) (hactive : s.gar.active.isSome = true) :
    exec (.garnetConfigCheck dt false) s = .next ((s.elapse dt).garGlobal 0).garShow :=
  congrArg Host.Outcome.next (if_pos (Bool.and_eq_true_iff.mpr ⟨Bool.and_eq_true_iff.mpr ⟨hruns, hactive⟩, rfl⟩))

theorem configCheck (s : State) (dt : Nat) (hw : s.regsWf = true) (hruns : s.garRuns = true) (hactive : s.gar.active.isSome = true) :
    ∃ t, exec (.garnetConfigCheck dt false) s = .next t ∧
        t.getF Fld.GAR_STATUS_STATE = 2 ∧
        (t.getF Fld.GAR_GCAUSE_CAUSE).testBit 0 = true ∧
        ((s.gused.all fun j => t.locked j) = true) ∧
        (∀ x : Fin 4, (t.gpair x.val).closed = false) ∧
        LeavesOut dt [0x05, 0x12] s t { t with gar := s.gar, arc := s.arc } := by
  have hout := (lockedOut_garGlobal (s := s.elapse dt) hw (b := 0) (by decide)).shown
  exact ⟨_, exec_garnetConfigCheck dt hruns hactive, hout.state, hout.cause, hout.locked, hout.closed,
    leavesOut_shown hw (works_garGlobal_garnet (s.elapse dt) 0)⟩

/-! ### The loss of the supply (R135) -/

/-- What shows an instance's result and state. -/
def InstShown (g : Field) : Prop := ∃ j < 8, g = Fld.GAR_INST_RESULT j ∨ g = Fld.GAR_INST_STATE j

theorem works_setResult_shown (s : State) {j : Nat} (hj : j < 8) (r : Bool) (st : Nat) : Works InstShown bare s (s.setResult j r st) :=
  (works_setB (f := Fld.GAR_INST_RESULT j) (by simp) ⟨j, hj, .inl rfl⟩ r).trans
    (works_setF (f := Fld.GAR_INST_STATE j) (by simp) ⟨j, hj, .inr rfl⟩ st)

theorem spared_instShown {f : Field} (hf : 0 < f.len ∧ f.lo + f.len ≤ 32) (ha : f.addr < 0x50020 ∨ 0x50040 ≤ f.addr) :
    Spared InstShown f := by
  refine ⟨hf, fun g hg => ?_⟩
  obtain ⟨j, hj, rfl | rfl⟩ := hg
  · exact apart_inst hj _ _ ha
  · exact apart_inst hj _ _ ha

theorem own_of_instShown {g : Field} (h : InstShown g) : OwnBlock g := by
  obtain ⟨j, hj, rfl | rfl⟩ := h
  · exact own (by show (0x50020 + j * 4) / 65536 = 5; omega)
  · exact own (by show (0x50020 + j * 4) / 65536 = 5; omega)

/-- Garnet without supply: its outputs off, its session over, its operating time kept. -/
def unpowering (s : State) (acc : Nat) : State :=
  (s.garOff.endSession).modGar fun g => { g with powered := false, opAcc := acc, busy := none }

/-- A command in progress is dropped. -/
def dropped (s : State) : State := (unpowering s s.opTime).setB Fld.GAR_CFGRES_BUSY false

/-- The instances out of lock-out show that they are off. -/
def lost (s : State) : State :=
  ((dropped s).gused.filter fun j => !(dropped s).locked j).foldl (fun s j => s.setResult j false 1) (dropped s)

theorem exec_garnetSupplyLoss {s : State} (hon : s.gar.powered = true) (dt : Nat) :
    exec (.garnetSupplyLoss dt) s = .next (lost (s.elapse dt)).garShow := by
  have hin : ¬ (!(s.elapse dt).gar.powered) = true := by
    rw [elapse_gar, hon]
    decide
  exact congrArg Host.Outcome.next (if_neg hin)

theorem works_lost (s : State) : Works InstShown bare (dropped s) (lost s) :=
  works_foldl _ fun u _ hj => works_setResult_shown u (mem_gused (List.mem_filter.mp hj).1) false 1

theorem works_unpowering (s : State) (acc : Nat) : Works OwnBlock besideGar s (unpowering s acc) := by
  have hoff : Works OwnBlock besideGar s s.garOff := ((works_garOff s).mono fun _ => own_of_off).coarsen fun _ => rfl
  have hgar (u : State) : Works OwnBlock besideGar u (u.modGar fun g => { g with powered := false, opAcc := acc, busy := none }) :=
    works_modGar _
  exact hoff.trans ((works_endSession_own _).trans (hgar _))

theorem works_dropped (s : State) : Works OwnBlock besideGar s (dropped s) :=
  (works_unpowering s s.opTime).trans (works_setB (by decide) (own (by decide)) false)

theorem gar_dropped (s : State) : (dropped s).gar = { s.garOff.gar with
    session := none, clearable := s.garOff.gar.clearable ||| 16, powered := false, opAcc := s.opTime, busy := none } := by
  rw [dropped, setB_gar, unpowering, modGar_gar, gar_endSession]

/-- The lock-out is as it was. -/
theorem locked_lost {s : State} (hs : s.regsWf = true) :
    (lost s).getF Fld.GAR_STATUS_LOCKED = s.getF Fld.GAR_STATUS_LOCKED := by
  have hoff := (works_garOff s).reads hs Fld.GAR_STATUS_LOCKED (spared_off (by decide) (by decide) (by decide))
  have hend := (works_endSession s.garOff).reads ((works_garOff s).wf hs) Fld.GAR_STATUS_LOCKED
    (spared_ending (by decide) (by decide) (.inr (.inr (by decide))))
  have hwf : (unpowering s s.opTime).regsWf = true := (works_unpowering s s.opTime).wf hs
  have hdrop : (dropped s).getF Fld.GAR_STATUS_LOCKED = (unpowering s s.opTime).getF Fld.GAR_STATUS_LOCKED :=
    getF_setF_ne (s := unpowering s s.opTime) (f := Fld.GAR_CFGRES_BUSY) (by decide) (by decide) (.inl (by decide)) _ hwf
  have hgone : (unpowering s s.opTime).getF Fld.GAR_STATUS_LOCKED = s.garOff.endSession.getF Fld.GAR_STATUS_LOCKED := rfl
  exact ((works_lost s).reads ((works_dropped s).wf hs) _ (spared_instShown (by decide) (.inl (by decide)))).trans
    (hdrop.trans (hgone.trans (hend.trans hoff)))

theorem supplyLoss (s : State) (dt : Nat) (hw : s.regsWf = true) (hon : s.gar.powered = true) :
    ∃ t, exec (.garnetSupplyLoss dt) s = .next t ∧
        t.gar.powered = false ∧
        t.gar.session = none ∧
        t.gar.opAcc = (s.elapse dt).opTime ∧
        t.getF Fld.GAR_STATUS_LOCKED = s.getF Fld.GAR_STATUS_LOCKED ∧
        (∀ x : Fin 4, (t.gpair x.val).closed = false) ∧
        LeavesOut dt [0x05] s t { t with gar := s.gar } := by
  have hdropped := works_dropped (s.elapse dt)
  have hlost : Works OwnBlock bare (dropped (s.elapse dt)) (lost (s.elapse dt)) := (works_lost _).mono fun _ => own_of_instShown
  have hall : Works OwnBlock besideGar (s.elapse dt) (lost (s.elapse dt)).garShow :=
    hdropped.trans ((hlost.trans (works_garShow_own _)).coarsen fun _ => rfl)
  have hgar : (lost (s.elapse dt)).garShow.gar = (dropped (s.elapse dt)).gar := (gar_garShow _).trans (gar_of_bare (works_lost _).rest)
  refine ⟨_, exec_garnetSupplyLoss hon dt, ?_, ?_, ?_, ?_, fun x => ?_, leavesOut_of_gar hall hw (fun _ h => h) rfl⟩
  · rw [hgar, gar_dropped]
  · rw [hgar, gar_dropped]
  · rw [hgar, gar_dropped]
  · rw [getF_garShow (hlost.wf (hdropped.wf hw)) (by decide) (by decide) (by decide) (by decide)]
    exact locked_lost (s := s.elapse dt) hw
  · rw [State.gpair, hgar, gar_dropped]
    show ((s.elapse dt).garOff.gpair x.val).closed = false
    exact closed_garOff _ x

/-! ### The filtered inputs (R138, R140) -/

/-- The channel's level in the reading. -/
def withChannel (si n : Nat) (level : Bool) : Nat := if level then si ||| 2 ^ n else si &&& (65535 - 2 ^ n)

/-- A filtered channel changes. -/
def filtered (s : State) (k n : Nat) (level : Bool) : State :=
  (s.setF Fld.GAR_INPUTS_SI (withChannel (s.getF Fld.GAR_INPUTS_SI) n level)).discTrack k

theorem exec_filterExpiry {s : State} (hon : s.gar.powered = true) (dt : Nat) (input : Fin 8) (chanB level : Bool) :
    exec (.safetyInputFilterExpiry dt input chanB level) s =
      .next (filtered (s.elapse dt) input.val (2 * input.val + b2n chanB) level) := by
  have hin : ¬ (!(s.elapse dt).gar.powered) = true := by
    rw [elapse_gar, hon]
    decide
  exact congrArg Host.Outcome.next (if_neg hin)

theorem testBit_clear : ∀ n i : Fin 16, Nat.testBit (65535 - 2 ^ n.val) i.val = (i != n) := by decide

theorem testBit_withChannel (si : Nat) (n i : Fin 16) (level : Bool) :
    (withChannel si n.val level % 65536).testBit i.val = if i = n then level else si.testBit i.val := by
  rw [show 65536 = 2 ^ 16 from rfl, Nat.testBit_mod_two_pow, decide_eq_true i.isLt, Bool.true_and, withChannel]
  cases level with
  | true =>
    rw [if_pos rfl, Nat.testBit_or, Nat.testBit_two_pow]
    by_cases h : i = n
    · simp [h]
    · simp [h, Ne.symm (Fin.val_ne_of_ne h)]
  | false =>
    rw [if_neg Bool.false_ne_true, Nat.testBit_and, testBit_clear]
    by_cases h : i = n
    · simp [h]
    · simp [h]

theorem filterExpiry (s : State) (dt : Nat) (hw : s.regsWf = true) (input : Fin 8) (chanB level : Bool)
    (hon : s.gar.powered = true) :
    ∃ t, exec (.safetyInputFilterExpiry dt input chanB level) s = .next t ∧
        (t.getF Fld.GAR_INPUTS_SI).testBit (2 * input.val + b2n chanB) = level ∧
        (∀ n : Fin 16, n.val ≠ 2 * input.val + b2n chanB → (t.getF Fld.GAR_INPUTS_SI).testBit n.val = (s.getF
          Fld.GAR_INPUTS_SI).testBit n.val) ∧
        Leaves dt [Reg.GAR_INPUTS] s t { t with gar := { t.gar with discSince := s.gar.discSince } } := by
  have hch : 2 * input.val + b2n chanB < 16 := by
    have hinput := input.isLt
    cases chanB with
    | false => rw [b2n_false]; omega
    | true => rw [b2n_true]; omega
  have hshown : (filtered (s.elapse dt) input.val (2 * input.val + b2n chanB) level).getF Fld.GAR_INPUTS_SI =
      withChannel (s.getF Fld.GAR_INPUTS_SI) (2 * input.val + b2n chanB) level % 65536 :=
    getF_setF_self (s := s.elapse dt) (by decide) _ hw
  refine ⟨_, exec_filterExpiry hon dt input chanB level, ?_, fun n hn => ?_, ?_, fun _ => rfl, rfl⟩
  · rw [hshown, testBit_withChannel _ ⟨_, hch⟩ ⟨_, hch⟩, if_pos rfl]
  · rw [hshown, testBit_withChannel _ ⟨_, hch⟩ n, if_neg fun h => hn (congrArg Fin.val h)]
  · exact fun a ha => rdw_setF_ne (s := s.elapse dt) (by decide) (fun h => ha (List.mem_singleton.mpr h.symm)) _

/-! ### A discrepancy (R140) -/

theorem works_garFault_garnet (s : State) {j : Nat} (hj : j < 8) (b : Nat) : Works Garnet beside s (s.garFault j b) :=
  ((works_garFault s hj b).mono fun _ => block_faulting).beside_of_calm

theorem exec_discrepancyFault {s : State} {dt k since : Nat} {inst : Fin 8} (hruns : s.garRuns = true) (htype : s.gtype inst.val ≠ 0)
    (hk : k ∈ instInputs s.gimg inst.val) (hdisc : s.discrepant k = true) (hsince : tget s.gar.discSince k = some since)
    (hdue : since + gins s.gimg inst.val 6 2 * 1000000 < (s.elapse dt).time.clock) :
    exec (.discrepancyFault dt inst) s = .next ((s.elapse dt).garFault inst.val 0).garShow := by
  refine congrArg Host.Outcome.next (if_pos ?_)
  refine Bool.and_eq_true_iff.mpr ⟨Bool.and_eq_true_iff.mpr ⟨hruns, bne_iff_ne.mpr htype⟩, List.any_eq_true.mpr ⟨k, hk, ?_⟩⟩
  refine Bool.and_eq_true_iff.mpr ⟨hdisc, ?_⟩
  rw [elapse_gar, hsince]
  exact decide_eq_true hdue

/-- A fault shown: the instance is locked with its cause. -/
theorem faultShown {s : State} (hs : s.regsWf = true) (j : Fin 8) {b : Nat} (hb : b < 8) (hfree : s.locked j.val = false) :
    (s.garFault j.val b).garShow.locked j.val = true ∧
      ((s.garFault j.val b).garShow.getF (Fld.GAR_INST_CAUSE j.val)).testBit b = true ∧
      (s.garFault j.val b).garShow.result j.val = false ∧ Counted Reg.GAR_LOCKOUTS 1 s (s.garFault j.val b).garShow := by
  have hj := j.isLt
  have hwf : (s.garFault j.val b).regsWf = true := (works_garFault s hj b).wf hs
  have hne (a : Nat) (ha : a < 0x50020 ∨ 0x50040 ≤ a) : 0x50020 + j.val * 4 ≠ a := by omega
  have hinst {lo len : Nat} (hlen : 0 < len ∧ lo + len ≤ 32) :
      (s.garFault j.val b).garShow.getF ⟨Reg.GAR_INST j.val, lo, len⟩ = (s.garFault j.val b).getF ⟨Reg.GAR_INST j.val, lo, len⟩ :=
    getF_garShow hwf hlen (hne _ (by decide)) (.inl (hne _ (by decide))) (hne _ (by decide))
  refine ⟨?_, ?_, ?_, ?_⟩
  · rw [locked_garShow hwf, locked_garFault hs hj hj, decide_eq_true rfl, Bool.or_true]
  · rw [hinst (by decide)]
    exact cause_garFault hs hj hb
  · exact (congrArg (· != 0) (hinst (lo := 3) (len := 1) (by decide))).trans (result_garFault hs hj hfree)
  · exact ((works_garShow _).rd64 hwf (spared_shown (by decide) (by decide) (by decide) (by decide))
      (spared_shown (by decide) (by decide) (by decide) (by decide))).trans (counted_garFault hs hj hfree)

/-! ### The test pulses (R137) -/

/-- One channel in a test pulse. -/
def pulseStep (tp : Fin 2) (patternOk : Bool) (reads : BitVec 16) (s : State) (ch : Nat) : State :=
  if gin s.gimg (ch / 2) (1 + ch % 2) 1 = 0 ∨ gin s.gimg (ch / 2) 0 1 = 0xFF then s
  else
    let own : Bool := gin s.gimg (ch / 2) (1 + ch % 2) 1 == tp.val + 1
    let t := s.modGar fun g => tpStep g ch own ((own && !patternOk) ||
      ((s.getF Fld.GAR_INPUTS_SI).testBit ch && (if own then reads.toNat.testBit ch else !reads.toNat.testBit ch)))
    if own && !patternOk then t.modGar fun g => { g with tpBad := tset g.tpBad ch 2 } else t

/-- The channels have been looked at, then the instances that use a bad one. -/
def pulsed (tp : Fin 2) (patternOk : Bool) (reads : BitVec 16) (s : State) : State :=
  (List.range 16).foldl (pulseStep tp patternOk reads) s

def hitBy (s : State) (j : Nat) : Bool := (instInputs s.gimg j).any fun k =>
  decide (2 ≤ tget s.gar.tpBad (2 * k) ∨ 2 ≤ tget s.gar.tpBad (2 * k + 1))

def pulseJudged (s : State) : State := (s.gused.filter (hitBy s)).foldl (fun s j => s.garFault j 1) s

theorem exec_testPulse {s : State} (hruns : s.garRuns = true) (dt : Nat) (tp : Fin 2) (patternOk : Bool) (reads : BitVec 16) :
    exec (.testPulse dt tp patternOk reads) s = .next (pulseJudged (pulsed tp patternOk reads (s.elapse dt))).garShow := by
  have hin : ¬ (!(s.elapse dt).garRuns) = true := by
    rw [show (s.elapse dt).garRuns = s.garRuns from rfl, hruns]
    decide
  refine congrArg Host.Outcome.next ((if_neg hin).trans ?_)
  show (pulseJudged (List.foldl _ (s.elapse dt) (List.range 16))).garShow = _
  exact congrArg (fun f => (pulseJudged (List.foldl f (s.elapse dt) (List.range 16))).garShow) rfl

/-- All of Garnet but what the test pulses leave of the channels. -/
def unpulsed (g : GarSt) : GarSt := { g with tpBad := [], tpGood := [], tpNow := [] }

/-- All but what the test pulses leave of the channels. -/
def offPulses (s : State) : State := { s with gar := { s.gar with tpBad := [], tpGood := [], tpNow := [] } }

theorem unpulsed_tpStep (g : GarSt) (ch : Nat) (own bad : Bool) : unpulsed (tpStep g ch own bad) = unpulsed g := by
  unfold tpStep
  dsimp only
  split_ifs <;> rfl

theorem offPulses_modGar {s : State} {f : GarSt → GarSt} (h : unpulsed (f s.gar) = unpulsed s.gar) :
    offPulses (s.modGar f) = offPulses s := congrArg (fun g : GarSt => { s with gar := g }) h

theorem offPulses_pulseStep (tp : Fin 2) (patternOk : Bool) (reads : BitVec 16) (s : State) (ch : Nat) :
    offPulses (pulseStep tp patternOk reads s ch) = offPulses s := by
  unfold pulseStep
  split
  · rfl
  · dsimp only
    split
    · exact (offPulses_modGar rfl).trans (offPulses_modGar (unpulsed_tpStep ..))
    · exact offPulses_modGar (unpulsed_tpStep ..)

theorem offPulses_foldl (tp : Fin 2) (patternOk : Bool) (reads : BitVec 16) (l : List Nat) (s : State) :
    offPulses (l.foldl (pulseStep tp patternOk reads) s) = offPulses s := by
  induction l generalizing s with
  | nil => rfl
  | cons ch l ih => exact (ih _).trans (offPulses_pulseStep ..)

/-- What a pulse leaves of one channel: the bad and the good periods, and the running one. -/
def channel (s : State) (ch : Nat) : Nat × Nat × Nat := (tget s.gar.tpBad ch, tget s.gar.tpGood ch, tget s.gar.tpNow ch)

/-- A channel whose own source pulses, and which the pulse shows as bad. -/
def badPeriod (patternOk : Bool) (v : Nat × Nat × Nat) : Nat × Nat × Nat :=
  (if patternOk then min 2 ((if v.2.2 = 1 then 0 else v.1) + 1) else 2, 0, 2)

section
variable {tp : Fin 2} {patternOk : Bool} {reads : BitVec 16} {s : State} {ch : Nat}

theorem channel_tpStep_ne {c : Nat} (h : c ≠ ch) (g : GarSt) (own bad : Bool) :
    tget (tpStep g c own bad).tpBad ch = tget g.tpBad ch ∧ tget (tpStep g c own bad).tpGood ch = tget g.tpGood ch ∧
      tget (tpStep g c own bad).tpNow ch = tget g.tpNow ch := by
  unfold tpStep
  dsimp only
  split_ifs <;> simp [tget_tset_ne _ h, tget_tmod_ne _ h]

theorem channel_pulseStep_ne {c : Nat} (h : c ≠ ch) : channel (pulseStep tp patternOk reads s c) ch = channel s ch := by
  have hstep (own bad : Bool) : channel (s.modGar fun g => tpStep g c own bad) ch = channel s ch := by
    obtain ⟨hbad, hgood, hnow⟩ := channel_tpStep_ne h s.gar own bad
    exact Prod.ext hbad (Prod.ext hgood hnow)
  have hmore (u : State) : channel (u.modGar fun g => { g with tpBad := tset g.tpBad c 2 }) ch = channel u ch :=
    Prod.ext (tget_tset_ne _ h _) rfl
  unfold pulseStep
  split
  · rfl
  · dsimp only
    split
    · exact (hmore _).trans (hstep _ _)
    · exact hstep _ _

/-- A bad period of a channel's own source. -/
theorem channel_tpStep_bad (g : GarSt) (ch : Nat) : tget (tpStep g ch true true).tpBad ch =
      min 2 ((if tget g.tpNow ch = 1 then 0 else tget g.tpBad ch) + 1) ∧ tget (tpStep g ch true true).tpGood ch = 0 ∧
      tget (tpStep g ch true true).tpNow ch = 2 := by
  unfold tpStep
  by_cases h : tget g.tpNow ch = 1 <;> simp [h]

theorem channel_pulseStep_self (hown : gin s.gimg (ch / 2) (1 + ch % 2) 1 = tp.val + 1) (hused : gin s.gimg (ch / 2) 0 1 ≠ 0xFF)
    (hbad : patternOk = true → (s.getF Fld.GAR_INPUTS_SI).testBit ch = true ∧ reads.toNat.testBit ch = true) :
    channel (pulseStep tp patternOk reads s ch) ch = badPeriod patternOk (channel s ch) := by
  have hin : ¬ (gin s.gimg (ch / 2) (1 + ch % 2) 1 = 0 ∨ gin s.gimg (ch / 2) 0 1 = 0xFF) := by
    rw [hown]
    exact fun h => h.elim (Nat.succ_ne_zero _) hused
  obtain ⟨hbads, hgood, hnow⟩ := channel_tpStep_bad s.gar ch
  unfold pulseStep
  rw [if_neg hin]
  simp only [hown, beq_self_eq_true, Bool.true_and, if_true]
  cases patternOk with
  | true =>
    obtain ⟨hclosed, hhigh⟩ := hbad rfl
    simp only [hclosed, hhigh, Bool.not_true, Bool.false_or, Bool.and_self, Bool.false_eq_true, if_false]
    exact Prod.ext hbads (Prod.ext hgood hnow)
  | false =>
    simp only [Bool.not_false, Bool.true_or, if_true]
    exact Prod.ext (tget_tset_self ..) (Prod.ext hgood hnow)

/-- What a pulse reads of the image and of the filtered channels, which it leaves. -/
theorem gimg_of_offPulses {t : State} (h : offPulses t = offPulses s) : t.gimg = s.gimg ∧
    t.getF Fld.GAR_INPUTS_SI = s.getF Fld.GAR_INPUTS_SI :=
  ⟨(congrArg State.gimg h :), (congrArg (fun u : State => u.getF Fld.GAR_INPUTS_SI) h :)⟩

theorem channel_foldl_of_notMem (l : List Nat) (h : ch ∉ l) (s : State) :
    channel (l.foldl (pulseStep tp patternOk reads) s) ch = channel s ch := by
  induction l generalizing s with
  | nil => rfl
  | cons c l ih =>
    have hc : c ≠ ch := fun heq => h (heq ▸ List.mem_cons_self)
    exact (ih (fun hl => h (List.mem_cons_of_mem _ hl)) _).trans (channel_pulseStep_ne hc)

theorem channel_foldl (l : List Nat) (hl : l.Nodup) (hch : ch ∈ l)
    (hown : gin s.gimg (ch / 2) (1 + ch % 2) 1 = tp.val + 1) (hused : gin s.gimg (ch / 2) 0 1 ≠ 0xFF)
    (hbad : patternOk = true → (s.getF Fld.GAR_INPUTS_SI).testBit ch = true ∧ reads.toNat.testBit ch = true) :
    channel (l.foldl (pulseStep tp patternOk reads) s) ch = badPeriod patternOk (channel s ch) := by
  induction l generalizing s with
  | nil => exact absurd hch List.not_mem_nil
  | cons c l ih =>
    obtain ⟨hout, hnodup⟩ := List.nodup_cons.mp hl
    rw [List.foldl_cons]
    by_cases hc : c = ch
    · subst hc
      rw [channel_foldl_of_notMem l hout, channel_pulseStep_self hown hused hbad]
    · obtain ⟨himg, hsi⟩ := gimg_of_offPulses (offPulses_pulseStep tp patternOk reads s c)
      rw [ih hnodup ((List.mem_cons.mp hch).resolve_left (Ne.symm hc)) (by rwa [himg]) (by rwa [himg]) (by rwa [hsi]),
        channel_pulseStep_ne hc]

end

theorem works_pulseJudged (s : State) : Works Faulting calm s (pulseJudged s) :=
  works_foldl _ fun u _ hj => works_garFault u (mem_gused (List.mem_filter.mp hj).1) 1

/-- The same registers, and the same state beside Garnet. -/
theorem works_of_offPulses {s t : State} (h : offPulses t = offPulses s) : Works Garnet beside s t := by
  have hregs : t.regs = s.regs := (congrArg State.regs h :)
  have hrdw : t.rdw = s.rdw := funext fun a => by rw [State.rdw, State.rdw, hregs]
  refine ⟨fun hs => by rw [State.regsWf, hregs]; exact hs, fun _ f _ => ?_, (congrArg beside h :)⟩
  simp only [State.getF, State.rd64, State.rd, hrdw]

theorem channel_of_calm {T : Field → Prop} {s t : State} (h : Works T calm s t) (ch : Nat) : channel t ch = channel s ch :=
  (congrArg (fun g : GarSt => (tget g.tpBad ch, tget g.tpGood ch, tget g.tpNow ch)) (gar_of_calm h) :)

theorem channel_garShow (s : State) (ch : Nat) : channel s.garShow ch = channel s ch := by rw [channel, gar_garShow, channel]

/-- What a test pulse leaves of a channel of the pulsed source that it shows as bad, and its frame. -/
theorem badPulse (s : State) (dt : Nat) (hw : s.regsWf = true) (tp : Fin 2) (patternOk : Bool) (reads : BitVec 16) (ch : Fin 16)
    (hown : gin s.gimg (ch.val / 2) (1 + ch.val % 2) 1 = tp.val + 1) (hused : gin s.gimg (ch.val / 2) 0 1 ≠ 0xFF)
    (hbad : patternOk = true → (s.getF Fld.GAR_INPUTS_SI).testBit ch.val = true ∧ reads.toNat.testBit ch.val = true) :
    channel (pulseJudged (pulsed tp patternOk reads (s.elapse dt))).garShow ch.val = badPeriod patternOk (channel s ch.val) ∧
      LeavesOut dt [0x05, 0x12] s (pulseJudged (pulsed tp patternOk reads (s.elapse dt))).garShow
        { (pulseJudged (pulsed tp patternOk reads (s.elapse dt))).garShow with gar := s.gar, arc := s.arc } := by
  have hpulsed : offPulses (pulsed tp patternOk reads (s.elapse dt)) = offPulses (s.elapse dt) := offPulses_foldl ..
  have hjudged := works_pulseJudged (pulsed tp patternOk reads (s.elapse dt))
  constructor
  · have hch : channel (pulsed tp patternOk reads (s.elapse dt)) ch.val = badPeriod patternOk (channel s ch.val) :=
      channel_foldl (s := s.elapse dt) (List.range 16) List.nodup_range (List.mem_range.mpr ch.isLt) hown hused hbad
    rw [channel_garShow, channel_of_calm hjudged, hch]
  · exact leavesOut_shown hw ((works_of_offPulses hpulsed).trans ((hjudged.mono fun _ => block_faulting).beside_of_calm))

/-! ### Acknowledgement (R143, R146) -/

/-- A stop instance with closed channels takes its acknowledgement. -/
def ackStep (s : State) (j : Nat) : State :=
  if (s.gtype j = 2 ∨ s.gtype j = 5) ∧ s.healthy1 j ∧ !s.locked j then s.modInst j fun i => { i with needAck := false } else s

def acknowledged (s : State) (insts : Nat) : State := (bitsOf 8 insts).foldl ackStep s

theorem exec_garAckWrite {s : State} {req : Requester} (h : Lets s req Reg.GAR_ACK) (hruns : s.garRuns = true) (dt : Nat)
    (insts : BitVec 8) : exec (.garAckWrite dt req insts) s =
      .next ((acknowledged (s.elapse dt) insts.toNat).respond 0 0) := by
  have hin : ¬ (!(s.elapse dt).garRuns) = true := by
    rw [show (s.elapse dt).garRuns = s.garRuns from rfl, hruns]
    decide
  exact congrArg Host.Outcome.next ((regCmd_of_lets (lets_elapse h dt) fun s => s.ackWrite insts.toNat).trans
    (congrArg (fun u : State => u.respond 0 0) (if_neg hin)))

/-- All but what the instances remember. -/
def offInsts (s : State) : State := { s with gar := { s.gar with insts := [] } }

theorem offInsts_ackStep (s : State) (j : Nat) : offInsts (ackStep s j) = offInsts s := by
  unfold ackStep
  split
  · rfl
  · rfl

theorem offInsts_foldl (l : List Nat) (s : State) : offInsts (l.foldl ackStep s) = offInsts s := by
  induction l generalizing s with
  | nil => rfl
  | cons j l ih => exact (ih _).trans (offInsts_ackStep s j)

/-- An acknowledged instance stays so. -/
theorem needAck_ackStep {s : State} {i : Nat} (h : (s.ginst i).needAck = false) (j : Nat) :
    ((ackStep s j).ginst i).needAck = false := by
  unfold ackStep
  split
  · by_cases hij : j = i
    · rw [State.ginst, State.modInst, modGar_gar, hij, tget_tmod_self]
    · rwa [State.ginst, State.modInst, modGar_gar, tget_tmod_ne _ hij]
  · exact h

theorem needAck_foldl {s : State} {i : Nat} (l : List Nat) (htype : s.gtype i = 2 ∨ s.gtype i = 5) (hhealthy : s.healthy1 i = true)
    (hfree : s.locked i = false) (h : i ∈ l ∨ (s.ginst i).needAck = false) : ((l.foldl ackStep s).ginst i).needAck = false := by
  induction l generalizing s with
  | nil => exact h.resolve_left List.not_mem_nil
  | cons j l ih =>
    have hoff := offInsts_ackStep s j
    have htype' : (ackStep s j).gtype i = s.gtype i := (congrArg (fun u : State => u.gtype i) hoff :)
    have hhealthy' : (ackStep s j).healthy1 i = s.healthy1 i := (congrArg (fun u : State => u.healthy1 i) hoff :)
    have hfree' : (ackStep s j).locked i = s.locked i := (congrArg (fun u : State => u.locked i) hoff :)
    refine ih (htype' ▸ htype) (hhealthy'.trans hhealthy) (hfree'.trans hfree) ?_
    rcases h with h | h
    · rcases List.mem_cons.mp h with rfl | h
      · refine .inr ?_
        rw [ackStep, if_pos ⟨htype, hhealthy, by rw [hfree]; rfl⟩, State.ginst, State.modInst, modGar_gar, tget_tmod_self]
      · exact .inl h
    · exact .inr (needAck_ackStep h j)

/-- The acknowledgement changes what the instances remember, and no more. -/
theorem leaves_acknowledged (s : State) (dt insts : Nat) : Leaves dt [] s ((acknowledged (s.elapse dt) insts).respond 0 0)
    { (acknowledged (s.elapse dt) insts).respond 0 0 with
      gar := { ((acknowledged (s.elapse dt) insts).respond 0 0).gar with insts := s.gar.insts } } := by
  have hoff : offInsts (acknowledged (s.elapse dt) insts) = offInsts (s.elapse dt) := offInsts_foldl ..
  generalize acknowledged (s.elapse dt) insts = t at hoff
  exact ⟨fun a _ => (congrArg (fun u : State => u.rdw a) hoff :), fun a => (congrArg (fun u : State => u.memGet a) hoff :),
    (congrArg (fun u : State => { u with regs := s.regs, resp := s.resp, gar := { u.gar with insts := s.gar.insts } }) hoff :)⟩

end Sys2Proof.Proofs.GarnetFaults

/-! Garnet's evaluation cycle (R132, R142 to R153, R167): what it shows, and which pairs it leaves closed. -/

namespace Sys2Proof.Proofs.GarnetCycle

open Sys2Proof Sys2Proof.Machine Sys2Proof.Laws Sys2Proof.Proofs.Time Sys2Proof.Proofs.Measurement Sys2Proof.Proofs.Power
open Sys2Proof.Proofs.RegOps Sys2Proof.Proofs.GarnetFrames Sys2Proof.Proofs.GarnetSessions Sys2Proof.Proofs.GarnetFaults

/-! ### What the evaluation writes -/

/-- Fields of Garnet and of the Archive but for the GRST input, the custody enable, the request lines and the permits. -/
def Evaluating (g : Field) : Prop := Garnet g ∧ g.addr ≠ Reg.GAR_PERMSTAT ∧
  (g.addr = Reg.GAR_STATUS → g.lo + g.len ≤ 6 ∨ 8 ≤ g.lo) ∧ (g.addr = Reg.GAR_OUTPUTS → g.len = 1 ∧ g.lo % 4 ≠ 2)

/-- A field of another word than those. -/
theorem evaluating_word {g : Field} (h : Garnet g) (ha : g.addr ≠ Reg.GAR_PERMSTAT) (hs : g.addr ≠ Reg.GAR_STATUS)
    (ho : g.addr ≠ Reg.GAR_OUTPUTS) : Evaluating g := ⟨h, ha, fun k => absurd k hs, fun k => absurd k ho⟩

theorem garnet_of_block {g : Field} (h : g.addr / 65536 = 0x05) : Garnet g := List.mem_cons.mpr (.inl h)

/-- A field of the words of the instances or beyond. -/
theorem evaluating_high {g : Field} (h : g.addr / 65536 = 0x05) (ha : 0x50020 ≤ g.addr) : Evaluating g :=
  evaluating_word (garnet_of_block h) (by show g.addr ≠ 0x50018; omega) (by show g.addr ≠ 0x50000; omega)
    (by show g.addr ≠ 0x50014; omega)

theorem evaluating_archive {g : Field} (h : Archive g) : Evaluating g := by
  have hblk : g.addr / 65536 = 0x12 := h
  exact evaluating_word (garnet_of_archive h) (by show g.addr ≠ 0x50018; omega) (by show g.addr ≠ 0x50000; omega)
    (by show g.addr ≠ 0x50014; omega)

theorem evaluating_status {lo len : Nat} (h : lo + len ≤ 6 ∨ 8 ≤ lo) : Evaluating ⟨Reg.GAR_STATUS, lo, len⟩ :=
  ⟨garnet_of_block (by show Reg.GAR_STATUS / 65536 = 5; decide), by show Reg.GAR_STATUS ≠ Reg.GAR_PERMSTAT; decide, fun _ => h,
    fun k => absurd k (by show Reg.GAR_STATUS ≠ Reg.GAR_OUTPUTS; decide)⟩

theorem evaluating_locking {g : Field} (h : Locking g) : Evaluating g := by
  rcases h with rfl | ⟨j, hj, rfl | rfl⟩ | rfl | rfl | h
  · exact evaluating_status (.inr (by decide))
  · exact evaluating_high (by show (0x50020 + j * 4) / 65536 = 5; omega) (by show 0x50020 ≤ 0x50020 + j * 4; omega)
  · exact evaluating_high (by show (0x50020 + j * 4) / 65536 = 5; omega) (by show 0x50020 ≤ 0x50020 + j * 4; omega)
  · exact evaluating_high (by decide) (by decide)
  · exact evaluating_high (by decide) (by decide)
  · exact evaluating_archive h

theorem evaluating_faulting {g : Field} (h : Faulting g) : Evaluating g := by
  rcases h with h | ⟨j, hj, rfl⟩
  · exact evaluating_locking h
  · exact evaluating_high (by show (0x50020 + j * 4) / 65536 = 5; omega) (by show 0x50020 ≤ 0x50020 + j * 4; omega)

theorem evaluating_global {g : Field} (h : Global g) : Evaluating g := by
  rcases h with h | rfl | rfl | rfl
  · exact evaluating_locking h
  · exact evaluating_word (garnet_of_block (by decide)) (by decide) (by decide) (by decide)
  · exact evaluating_status (.inl (by decide))
  · exact evaluating_status (.inr (by decide))

theorem evaluating_output {x : Nat} {k : Nat} (hk : k < 4) (hne : k ≠ 2) : Evaluating ⟨Reg.GAR_OUTPUTS, 4 * x + k, 1⟩ :=
  ⟨garnet_of_block (by show Reg.GAR_OUTPUTS / 65536 = 5; decide), by show Reg.GAR_OUTPUTS ≠ Reg.GAR_PERMSTAT; decide,
    fun h => absurd h (by show Reg.GAR_OUTPUTS ≠ Reg.GAR_STATUS; decide), fun _ => ⟨rfl, by show (4 * x + k) % 4 ≠ 2; omega⟩⟩

theorem evaluating_shown {g : Field} (h : Shown g) : Evaluating g := by
  rcases h with h | ⟨h, hlo, -⟩ | ⟨x, hx, rfl | rfl | rfl⟩
  · exact evaluating_high (by rw [h]; decide) (by rw [h]; decide)
  · obtain ⟨addr, lo, len⟩ := g
    obtain rfl : addr = Reg.GAR_STATUS := h
    exact evaluating_status (.inr hlo)
  · exact evaluating_output (by decide) (by decide)
  · exact evaluating_output (by decide) (by decide)
  · exact evaluating_output (by decide) (by decide)

/-- What the evaluation spares: the GRST input, the custody enable, the request lines and the permits. -/
theorem spared_grst : Spared Evaluating Fld.GAR_STATUS_GRST := ⟨by decide, fun g ⟨_, _, hs, _⟩ => by
  by_cases h : g.addr = Reg.GAR_STATUS
  · exact .inr ((hs h).elim .inr fun k => .inl (by show 6 + 1 ≤ g.lo; omega))
  · exact .inl (Ne.symm h)⟩

theorem spared_enable : Spared Evaluating Fld.GAR_STATUS_CUST_EN := ⟨by decide, fun g ⟨_, _, hs, _⟩ => by
  by_cases h : g.addr = Reg.GAR_STATUS
  · exact .inr ((hs h).elim (fun k => .inr (by show g.lo + g.len ≤ 7; omega)) .inl)
  · exact .inl (Ne.symm h)⟩

theorem spared_request {x : Nat} (hx : x < 4) : Spared Evaluating (Fld.GAR_OUTPUTS_REQ x) :=
  ⟨by show 0 < 1 ∧ 4 * x + 2 + 1 ≤ 32; omega, fun g ⟨_, _, _, ho⟩ => by
  by_cases h : g.addr = Reg.GAR_OUTPUTS
  · obtain ⟨hlen, hlo⟩ := ho h
    exact .inr (by show 4 * x + 2 + 1 ≤ g.lo ∨ g.lo + g.len ≤ 4 * x + 2; omega)
  · exact .inl (Ne.symm h)⟩

theorem spared_permit {x : Nat} (hx : x < 4) : Spared Evaluating (Fld.GAR_PERMSTAT_PSTATE x) :=
  ⟨by show 0 < 2 ∧ 4 * x + 0 + 2 ≤ 32; omega, fun _ ⟨_, ha, _⟩ => .inl (Ne.symm ha)⟩

/-! ### The instances (R142 to R147) -/

section
variable {s : State} {j : Nat}

theorem eval_fault (s : State) (hj : j < 8) (b : Nat) : Works Evaluating calm s (s.garFault j b) :=
  (works_garFault s hj b).mono fun _ => evaluating_faulting

theorem eval_emit (s : State) (code sev : Nat) (payload : List Byte) : Works Evaluating calm s (s.emit 0x05 code sev 57 payload) :=
  works_emit (fun _ => evaluating_archive) (by decide) ..

theorem eval_setResult (s : State) (hj : j < 8) (r : Bool) (st : Nat) : Works Evaluating calm s (s.setResult j r st) :=
  ((works_setResult hj r st).mono fun _ => evaluating_locking).coarsen fun _ => rfl

theorem eval_modInst (s : State) (j : Nat) (f : GarInst → GarInst) : Works Evaluating calm s (s.modInst j f) := works_modInst _ f

theorem eval_modPair (s : State) (x : Nat) (f : GarPair → GarPair) : Works Evaluating calm s (s.modPair x f) := works_modPair _ f

theorem eval_garShow (s : State) : Works Evaluating calm s s.garShow :=
  ((works_garShow s).mono fun _ => evaluating_shown).coarsen fun _ => rfl

theorem eval_evalTo (s : State) (hj : j < 8) (r : Bool) (st : Nat) : Works Evaluating calm s (s.evalTo j r st) :=
  works_ite ((eval_setResult s hj r st).trans (eval_emit ..)) (eval_setResult s hj r st)

theorem eval_evalStop (s : State) (hj : j < 8) : Works Evaluating calm s (s.evalStop j) :=
  works_ite ((eval_modInst ..).trans (eval_evalTo _ hj ..)) (works_ite (eval_evalTo _ hj ..) (eval_evalTo _ hj ..))

theorem eval_doorTrack (s : State) (hj : j < 8) : Works Evaluating calm s (s.doorTrack j) := by
  unfold State.doorTrack
  refine works_ite ?_ (eval_modInst ..)
  split
  · exact works_ite (eval_fault s hj 7) (.refl s)
  · exact eval_modInst ..

theorem eval_evalDoor (s : State) (hj : j < 8) : Works Evaluating calm s (s.evalDoor j) :=
  (eval_evalTo s hj ..).trans (eval_doorTrack _ hj)

theorem eval_evalHands (s : State) (hj : j < 8) : Works Evaluating calm s (s.evalHands j) := by
  have hblock : Works Evaluating calm s (match (s.ginst j).handAt with
      | some t =>
        if s.time.clock ≤ t + 500000000 then s.evalTo j true 2 else s.modInst j fun i => { i with handsBlocked := true }
      | none => s.evalTo j true 2) := by
    split
    · exact works_ite (eval_evalTo s hj ..) (eval_modInst ..)
    · exact eval_evalTo s hj ..
  exact works_ite ((eval_modInst ..).trans (eval_evalTo _ hj ..)) (works_ite (works_ite (.refl s) (works_ite (.refl s) hblock))
    (works_ite ((eval_modInst ..).trans (eval_evalTo _ hj ..)) (works_ite (eval_modInst ..) (eval_modInst ..))))

theorem eval_evalInst (s : State) (hj : j < 8) : Works Evaluating calm s (s.evalInst j) := by
  unfold State.evalInst
  refine works_ite (works_ite (eval_doorTrack s hj) (.refl s)) ?_
  split
  · exact eval_evalStop s hj
  · exact eval_evalStop s hj
  · exact eval_evalDoor s hj
  · exact eval_evalHands s hj
  · exact eval_evalTo s hj ..
  · exact .refl s

/-! ### The pairs (R148 to R153, R167) -/

theorem eval_endHold (s : State) (x reason : Nat) : Works Evaluating calm s (s.endHold x reason) :=
  (works_endHold s x reason).mono fun _ => evaluating_archive

theorem eval_endTest (s : State) {x : Nat} (hx : x < 4) (res : Nat) : Works Evaluating calm s (s.endTest x res) := by
  have hset (u : State) (v : Nat) : Works Evaluating calm u (u.setF (Fld.GAR_BRKRES_RES x) v) :=
    works_setF (by show 8 * x + 0 + 3 ≤ 32; omega) (evaluating_high (g := Fld.GAR_BRKRES_RES x)
      (by show Reg.GAR_BRKRES / 65536 = 5; decide) (by show 0x50020 ≤ Reg.GAR_BRKRES; decide)) v
  exact (hset s res).trans (eval_emit ..)

theorem eval_evalTest (s : State) {x : Nat} (hx : x < 4) (hj : j < 8) (t : GarTest) : Works Evaluating calm s (s.evalTest x j t) := by
  have htime (u : State) (v : Nat) : Works Evaluating calm u (u.setF (Fld.GAR_BRKMS_T x) v) :=
    works_setF (by simp) (evaluating_high (g := Fld.GAR_BRKMS_T x) (by show (0x50060 + x * 4) / 65536 = 5; omega)
      (by show 0x50020 ≤ 0x50060 + x * 4; omega)) v
  unfold State.evalTest
  refine works_ite (.refl s) (works_ite ((eval_modPair ..).trans (eval_endTest _ hx _)) ?_)
  split
  · exact works_ite ((htime ..).trans (eval_modPair ..)) (.refl s)
  · exact works_ite (.refl s) (((eval_modPair ..).trans (eval_endTest _ hx _)).trans (eval_fault _ hj 4))

end

/-- A brake control in a cycle: its brake test, then the pair, the feedback and what it shows. -/
def sbcTest (s : State) (x j : Nat) : State := match (s.gpair x).test with
  | some t => s.evalTest x j t
  | none => s

def sbcDecide (s : State) (x j : Nat) : State :=
  if (s.gpair x).hold.isSome then
    if !s.linksOk j then s.endHold x 2
    else if !s.reqLine x then s.endHold x 4
    else if s.bit Fld.GAR_STATUS_CUST_EN && s.permit x == 2 then s.endHold x 5
    else s
  else if s.mayRelease x j then s.closePair x j
  else s.openPair x

def sbcFeedback (s : State) (x j : Nat) : State := match (s.gpair x).feedback with
  | some (want, _) =>
    if (if want then s.fbApplied j else s.fbReleased j) ∨ (instInput s.gimg j 1).isNone then
      s.modPair x fun p => { p with feedback := none }
    else s
  | none => s

def sbcShow (s : State) (x j : Nat) : State :=
  if s.locked j then s
  else s.setResult j (s.gpair x).closed
    (if s.testRuns x then 3 else if (s.gpair x).hold.isSome then 4 else if (s.gpair x).closed then 2 else 1)

theorem evalSbc_eq {s : State} {x j : Nat} (h : instPair s.gimg j = some x) :
    s.evalSbc j = sbcShow (sbcFeedback (sbcDecide (sbcTest s x j) x j) x j) x j := by
  unfold State.evalSbc
  rw [h]
  rfl

theorem instPair_lt {img : List Byte} {j x : Nat} (h : instPair img j = some x) : x < 4 := by
  unfold instPair at h
  dsimp only at h
  split at h
  · obtain rfl := Option.some.inj h
    exact Nat.mod_lt _ (by decide)
  · exact absurd h (by simp)

section
variable {x j : Nat} (hx : x < 4) (hj : j < 8)
include hx hj

theorem eval_sbcTest (s : State) : Works Evaluating calm s (sbcTest s x j) := by
  unfold sbcTest
  split
  · exact eval_evalTest s hx hj _
  · exact .refl s

omit hx hj in
theorem eval_sbcDecide (s : State) : Works Evaluating calm s (sbcDecide s x j) :=
  works_ite (works_ite (eval_endHold ..) (works_ite (eval_endHold ..) (works_ite (eval_endHold ..) (.refl s))))
    (works_ite (works_ite (.refl s) (eval_modPair ..)) (works_openPair ..))

omit hx hj in
theorem eval_sbcFeedback (s : State) : Works Evaluating calm s (sbcFeedback s x j) := by
  unfold sbcFeedback
  split
  · exact works_ite (eval_modPair ..) (.refl s)
  · exact .refl s

omit hx in
theorem eval_sbcShow (s : State) : Works Evaluating calm s (sbcShow s x j) := works_ite (.refl s) (eval_setResult s hj ..)

end

theorem eval_evalSbc (s : State) {j : Nat} (hj : j < 8) : Works Evaluating calm s (s.evalSbc j) := by
  cases h : instPair s.gimg j with
  | none =>
    unfold State.evalSbc
    rw [h]
    exact .refl s
  | some x =>
    rw [evalSbc_eq h]
    exact (eval_sbcTest (instPair_lt h) hj s).trans ((eval_sbcDecide _).trans ((eval_sbcFeedback _).trans (eval_sbcShow hj _)))

/-! ### A closed pair is in a hold, or may be closed (R148, R167) -/

/-- A pair is closed only in a hold, or with the enable, the request line and a permit. -/
def Held (s : State) (x : Nat) : Prop := (s.gpair x).closed = true → (s.gpair x).hold.isSome = true ∨
  (s.bit Fld.GAR_STATUS_CUST_EN = true ∧ s.reqLine x = true ∧ s.permit x = 2)

theorem held_of_open {s : State} {x : Nat} (h : (s.gpair x).closed = false) : Held s x := fun hc =>
  absurd (h.symm.trans hc) Bool.false_ne_true

/-- The evaluation keeps what a pair's release asks for; a pair that it opens or leaves stays held. -/
theorem held_of_works {s t : State} {x : Nat} (hs : s.regsWf = true) (hx : x < 4) (h : Works Evaluating calm s t)
    (hpair : (t.gpair x).closed = true → (s.gpair x).closed = true ∧ (t.gpair x).hold = (s.gpair x).hold) (hheld : Held s x) :
    Held t x := fun hc => by
  obtain ⟨hclosed, hhold⟩ := hpair hc
  rcases hheld hclosed with hs' | ⟨hen, hreq, hperm⟩
  · exact .inl (hhold ▸ hs')
  · exact .inr ⟨(h.bit hs spared_enable).trans hen, (h.bit hs (spared_request hx)).trans hreq,
      (h.reads hs _ (spared_permit hx)).trans hperm⟩

theorem held_of_gpair {s t : State} {x : Nat} (hs : s.regsWf = true) (hx : x < 4) (h : Works Evaluating calm s t)
    (hpair : t.gpair x = s.gpair x) (hheld : Held s x) : Held t x :=
  held_of_works hs hx h (fun hc => ⟨hpair ▸ hc, congrArg GarPair.hold hpair⟩) hheld

section
variable {s : State} {x : Nat}

theorem gpair_modPair_self (s : State) (x : Nat) (f : GarPair → GarPair) : (s.modPair x f).gpair x = f (s.gpair x) := tget_tmod_self ..
theorem gpair_modPair_ne {y : Nat} (h : x ≠ y) (s : State) (f : GarPair → GarPair) : (s.modPair x f).gpair y = s.gpair y :=
  tget_tmod_ne _ h f

/-- A hold that ends but for reason 5 leaves its pair open. -/
theorem closed_endHold (s : State) (x : Nat) {reason : Nat} (h : reason ≠ 5) (hheld : (s.gpair x).hold.isSome = true) :
    ((s.endHold x reason).gpair x).closed = false := by
  unfold State.endHold
  rw [if_neg (GarnetImages.open_of_isSome hheld), if_neg h]
  dsimp only
  rw [State.gpair, emit_gar]
  show ((((s.openPair x).modPair x _).gpair x).closed) = false
  rw [gpair_modPair_self]
  exact closed_openPair s x

theorem held_sbcDecide (hs : s.regsWf = true) (hx : x < 4) (j : Nat) : Held (sbcDecide s x j) x := by
  unfold sbcDecide
  split
  case isTrue hhold =>
    split
    · exact held_of_open (closed_endHold s x (by decide) hhold)
    · split
      · exact held_of_open (closed_endHold s x (by decide) hhold)
      case isFalse hreq =>
        split
        case isTrue hok =>
          obtain ⟨hen, hperm⟩ := Bool.and_eq_true_iff.mp hok
          have hend := eval_endHold s x 5
          have hreq : s.reqLine x = true := by simpa using hreq
          exact fun _ => .inr ⟨(hend.bit hs spared_enable).trans hen, (hend.bit hs (spared_request hx)).trans hreq,
            (hend.reads hs _ (spared_permit hx)).trans (eq_of_beq hperm)⟩
        · exact fun _ => .inl hhold
  case isFalse =>
    split
    case isTrue hmay =>
      have hclose : Works Evaluating calm s (s.closePair x j) := works_ite (.refl s) (eval_modPair ..)
      simp only [State.mayRelease, Bool.and_eq_true] at hmay
      obtain ⟨⟨⟨⟨⟨hen, hreq⟩, hperm⟩, -⟩, -⟩, -⟩ := hmay
      exact fun _ => .inr ⟨(hclose.bit hs spared_enable).trans hen, (hclose.bit hs (spared_request hx)).trans hreq,
        (hclose.reads hs _ (spared_permit hx)).trans (eq_of_beq hperm)⟩
    · exact held_of_open (closed_openPair s x)

end

theorem gpair_setResult (s : State) (j : Nat) (r : Bool) (st x : Nat) : (s.setResult j r st).gpair x = s.gpair x := by
  simp [State.gpair, State.setResult]

theorem gpair_sbcShow (s : State) (x j y : Nat) : (sbcShow s x j).gpair y = s.gpair y := by
  unfold sbcShow
  split
  · rfl
  · exact gpair_setResult ..

theorem sbcFeedback_eq (s : State) (x j : Nat) :
    sbcFeedback s x j = s.modPair x (fun p => { p with feedback := none }) ∨ sbcFeedback s x j = s := by
  unfold sbcFeedback
  split
  · exact ite_eq_or_eq _ _ _
  · exact .inr rfl

theorem held_sbcFeedback {s : State} {x : Nat} (hs : s.regsWf = true) (hx : x < 4) (j : Nat) (h : Held s x) :
    Held (sbcFeedback s x j) x := by
  refine held_of_works hs hx (eval_sbcFeedback s) (fun hc => ?_) h
  have hpair : ((sbcFeedback s x j).gpair x).closed = (s.gpair x).closed ∧ ((sbcFeedback s x j).gpair x).hold = (s.gpair x).hold := by
    rcases sbcFeedback_eq s x j with hfeed | hfeed
    · rw [hfeed, gpair_modPair_self]
      exact ⟨rfl, rfl⟩
    · rw [hfeed]
      exact ⟨rfl, rfl⟩
  exact ⟨hpair.1 ▸ hc, hpair.2⟩

/-- The evaluation of a brake control leaves its own pair held. -/
theorem held_evalSbc_self {s : State} {x j : Nat} (hs : s.regsWf = true) (hj : j < 8) (h : instPair s.gimg j = some x) :
    Held (s.evalSbc j) x := by
  have hx := instPair_lt h
  have hwf := (eval_sbcTest hx hj s).wf hs
  have hwf' := (eval_sbcDecide (x := x) (j := j) (sbcTest s x j)).wf hwf
  rw [evalSbc_eq h]
  exact held_of_gpair ((eval_sbcFeedback (x := x) (j := j) _).wf hwf') hx (eval_sbcShow hj _) (gpair_sbcShow ..)
    (held_sbcFeedback hwf' hx j (held_sbcDecide hwf hx j))

/-! Other pairs stay as they are. -/

/-- Only pair `x` may change. -/
def OnlyPair (x : Nat) (s t : State) : Prop := ∀ y, x ≠ y → t.gpair y = s.gpair y

section
variable {x : Nat} {s t u : State}

theorem OnlyPair.refl (x : Nat) (s : State) : OnlyPair x s s := fun _ _ => rfl
theorem OnlyPair.trans (h : OnlyPair x s t) (k : OnlyPair x t u) : OnlyPair x s u := fun y hy => (k y hy).trans (h y hy)
theorem onlyPair_of_gar (h : t.gar = s.gar) (x : Nat) : OnlyPair x s t := fun y _ => by rw [State.gpair, h, State.gpair]
theorem onlyPair_modPair (s : State) (x : Nat) (f : GarPair → GarPair) : OnlyPair x s (s.modPair x f) :=
  fun _ hy => gpair_modPair_ne hy s f

theorem onlyPair_ite {c : Prop} [Decidable c] (ht : OnlyPair x s t) (hu : OnlyPair x s u) : OnlyPair x s (if c then t else u) := by
  split
  · exact ht
  · exact hu

theorem onlyPair_openPair (s : State) (x : Nat) : OnlyPair x s (s.openPair x) := onlyPair_ite (.refl x s) (onlyPair_modPair _ _ _)

theorem onlyPair_endHold (s : State) (x reason : Nat) : OnlyPair x s (s.endHold x reason) :=
  onlyPair_ite (.refl x s) (((onlyPair_ite (.refl x s) (onlyPair_openPair s x)).trans (onlyPair_modPair _ _ _)).trans
    (onlyPair_of_gar (emit_gar ..) x))

theorem onlyPair_endTest (s : State) (x res : Nat) : OnlyPair x s (s.endTest x res) :=
  onlyPair_of_gar (by simp [State.endTest]) x

/-- A lock-out concerns the pair of its instance. -/
theorem onlyPair_lockInst {j : Nat} (h : instPair s.gimg j = some x) : OnlyPair x s (s.lockInst j) := by
  unfold State.lockInst
  refine onlyPair_ite (.refl x s) ?_
  have hshown : (((s.setF Fld.GAR_STATUS_LOCKED (s.getF Fld.GAR_STATUS_LOCKED ||| 2 ^ j)).inc64 Reg.GAR_LOCKOUTS).setResult j
      false 5).gar = s.gar := by simp [State.setResult]
  dsimp only
  rw [show (((s.setF Fld.GAR_STATUS_LOCKED (s.getF Fld.GAR_STATUS_LOCKED ||| 2 ^ j)).inc64 Reg.GAR_LOCKOUTS).setResult j
      false 5).gimg = s.gimg by rw [State.gimg, hshown, State.gimg], h]
  exact (onlyPair_of_gar hshown x).trans ((onlyPair_endHold _ x 3).trans (onlyPair_openPair _ x))

theorem onlyPair_garFault {j : Nat} (h : instPair s.gimg j = some x) (b : Nat) : OnlyPair x s (s.garFault j b) :=
  onlyPair_ite (onlyPair_lockInst h) ((onlyPair_lockInst h).trans (onlyPair_of_gar (by simp) x))

theorem gimg_of_calm {T : Field → Prop} (h : Works T calm s t) : t.gimg = s.gimg := (congrArg State.gimg h.rest :)

theorem onlyPair_evalTest {j : Nat} (hx : x < 4) (h : instPair s.gimg j = some x) (test : GarTest) :
    OnlyPair x s (s.evalTest x j test) := by
  unfold State.evalTest
  refine onlyPair_ite (.refl x s) (onlyPair_ite ((onlyPair_modPair _ _ _).trans (onlyPair_endTest _ _ _)) ?_)
  split
  · exact onlyPair_ite ((onlyPair_of_gar (setF_gar ..) x).trans (onlyPair_modPair _ _ _)) (.refl x s)
  · have himg (f : GarPair → GarPair) : ((s.modPair x f).endTest x 3).gimg = s.gimg :=
      gimg_of_calm ((eval_modPair s x f).trans (eval_endTest _ hx 3))
    exact onlyPair_ite (.refl x s) (((onlyPair_modPair _ _ _).trans (onlyPair_endTest _ _ _)).trans
      (onlyPair_garFault ((himg _).symm ▸ h) 4))

theorem onlyPair_evalSbc {j : Nat} (h : instPair s.gimg j = some x) : OnlyPair x s (s.evalSbc j) := by
  have htest : OnlyPair x s (sbcTest s x j) := by
    unfold sbcTest
    split
    · exact onlyPair_evalTest (instPair_lt h) h _
    · exact .refl x s
  have hdecide (u : State) : OnlyPair x u (sbcDecide u x j) :=
    onlyPair_ite (onlyPair_ite (onlyPair_endHold _ _ _) (onlyPair_ite (onlyPair_endHold _ _ _) (onlyPair_ite (onlyPair_endHold _ _ _) (.refl x u))))
      (onlyPair_ite (onlyPair_ite (.refl x u) (onlyPair_modPair _ _ _)) (onlyPair_openPair _ _))
  have hfeedback (u : State) : OnlyPair x u (sbcFeedback u x j) := by
    unfold sbcFeedback
    split
    · exact onlyPair_ite (onlyPair_modPair _ _ _) (.refl x u)
    · exact .refl x u
  rw [evalSbc_eq h]
  exact (htest.trans ((hdecide _).trans (hfeedback _))).trans fun y _ => gpair_sbcShow _ _ _ y

end

/-- The evaluation of a brake control keeps every pair held that was. -/
theorem held_evalSbc {s : State} {y j : Nat} (hs : s.regsWf = true) (hy : y < 4) (hj : j < 8) (h : Held s y) : Held (s.evalSbc j) y := by
  cases hpair : instPair s.gimg j with
  | none =>
    unfold State.evalSbc
    rw [hpair]
    exact h
  | some x =>
    by_cases hxy : x = y
    · exact hxy ▸ held_evalSbc_self hs hj hpair
    · exact held_of_gpair hs hy (eval_evalSbc s hj) (onlyPair_evalSbc hpair y hxy) h

/-- After each brake control of a list has been evaluated, its pair is held. -/
theorem held_foldl {s : State} (hs : s.regsWf = true) (l : List Nat) (hl : ∀ j ∈ l, j < 8) {x : Nat} (hx : x < 4)
    (h : Held s x ∨ ∃ j ∈ l, instPair s.gimg j = some x) : Held (l.foldl (fun s j => s.evalSbc j) s) x := by
  induction l generalizing s with
  | nil => exact h.resolve_right fun ⟨_, hmem, _⟩ => List.not_mem_nil hmem
  | cons j l ih =>
    have hj := hl j List.mem_cons_self
    have hworks := eval_evalSbc s hj
    refine ih (hworks.wf hs) (fun i hi => hl i (List.mem_cons_of_mem _ hi)) ?_
    rcases h with h | ⟨i, hi, hpair⟩
    · exact .inl (held_evalSbc hs hx hj h)
    · rcases List.mem_cons.mp hi with rfl | hi
      · exact .inl (held_evalSbc_self hs hj hpair)
      · exact .inr ⟨i, hi, (gimg_of_calm hworks).symm ▸ hpair⟩

/-! ### The cycle, step by step (R132) -/

/-- All but the registers, the Archive, and what Garnet holds beside its configuration. -/
def configured (s : State) : State := { s with regs := [], arc := {}, gar := { active := s.gar.active } }

section
variable {T : Field → Prop} {s t : State}

theorem configured_of_calm (h : Works T calm s t) : Works T configured s t := h.coarsen fun _ => rfl
theorem configured_of_bare (h : Works T bare s t) : Works T configured s t := h.coarsen fun _ => rfl
theorem active_of_configured (h : Works T configured s t) : t.gar.active = s.gar.active := (congrArg (fun u : State => u.gar.active) h.rest :)

theorem pairInst_of_active (h : t.gar.active = s.gar.active) (x : Nat) : t.pairInst x = s.pairInst x := by
  simp only [State.pairInst, State.gused, State.gtype, State.gimg, h]

theorem instPair_of_pairInst {x j : Nat} (h : s.pairInst x = some j) : instPair s.gimg j = some x := by
  simpa using List.find?_some h

theorem mem_gused_of_pairInst {x j : Nat} (h : s.pairInst x = some j) : j ∈ s.gused := List.mem_of_find?_eq_some h

theorem gtype_of_instPair {x j : Nat} (h : instPair s.gimg j = some x) : s.gtype j = 1 := by
  unfold instPair at h
  dsimp only at h
  split at h
  case isTrue hsbc => exact hsbc.1
  case isFalse => exact absurd h (by simp)

end

/-- The terminals and the comparison of the channels are read. -/
def sensed (s : State) (sn : GarnetSense) : State := (s.setB Fld.GAR_STATUS_GRST sn.grst).setF Fld.GAR_INPUTS_TP sn.tp.toNat

def compared (s : State) (sn : GarnetSense) : State :=
  (List.range 8).foldl (fun s k => s.discTrack k)
    (s.modGar fun g => { g with diffCycles := if sn.differ then g.diffCycles + 1 else 0 })

def differed (s : State) : State := if 2 ≤ s.gar.diffCycles then s.garGlobal 2 else s

def oscillated (s : State) (sn : GarnetSense) : State := if sn.oscOver then s.garGlobal 3 else s

/-- The custody enable is followed. -/
def enabled (s : State) : State :=
  if s.custodyOn then s.setB Fld.GAR_STATUS_CUST_EN true else if s.bit Fld.GAR_STATUS_CUST_EN then s.custFall else s

/-- The instances but the brake controls are evaluated and shown. -/
def evaluated (s : State) : State := ((s.gused.filter fun j => s.gtype j != 1).foldl (fun s j => s.evalInst j) s).garShow

def controlled (s : State) : State := (s.gused.filter fun j => s.gtype j == 1).foldl (fun s j => s.evalSbc j) s

/-- The readback of an open pair. -/
def shortStep (sn : GarnetSense) (s : State) (x : Nat) : State := match s.pairInst x with
  | some j => if !(s.gpair x).closed && State.shorted sn x then s.garFault j 6 else s
  | none => s

def readBack (s : State) (sn : GarnetSense) : State := (List.range 4).foldl (shortStep sn) s

theorem exec_garnetEvalCycle {s : State} (hruns : s.garRuns = true) (dt : Nat) (sn : GarnetSense) :
    exec (.garnetEvalCycle dt sn) s = .next (readBack (controlled (evaluated (enabled (oscillated (differed
      (compared (sensed (s.elapse dt) sn) sn)) sn)))) sn).garShow := by
  have hin : ¬ (!(s.elapse dt).garRuns) = true := by
    rw [show (s.elapse dt).garRuns = s.garRuns from rfl, hruns]
    decide
  exact congrArg Host.Outcome.next (if_neg hin)

/-- The fields of the terminals, and those of the fall of the custody enable. -/
def Sensing (g : Field) : Prop := g = Fld.GAR_STATUS_GRST ∨ g = Fld.GAR_INPUTS_TP

def Enabling (g : Field) : Prop := g = Fld.GAR_STATUS_CUST_EN ∨ Evaluating g

theorem works_sensed (s : State) (sn : GarnetSense) : Works Sensing configured s (sensed s sn) :=
  (works_setB (by decide) (.inl rfl) _).trans (works_setF (by decide) (.inr rfl) _)

theorem works_garGlobal_configured (s : State) (b : Nat) : Works Evaluating configured s (s.garGlobal b) :=
  ((works_garGlobal_settled s b).mono fun _ => evaluating_global).coarsen fun _ => rfl

theorem works_compared (s : State) (sn : GarnetSense) : Works Evaluating configured s (compared s sn) := by
  have htrack (u : State) (k : Nat) (_ : k ∈ List.range 8) : Works Evaluating configured u (u.discTrack k) := ⟨id, fun _ _ _ => rfl, rfl⟩
  have hdiff : Works Evaluating configured s (s.modGar fun g => { g with diffCycles := if sn.differ then g.diffCycles + 1 else 0 }) :=
    works_modGar _
  exact hdiff.trans (works_foldl _ htrack)

theorem works_differed (s : State) : Works Evaluating configured s (differed s) := works_ite (works_garGlobal_configured s 2) (.refl s)

theorem works_oscillated (s : State) (sn : GarnetSense) : Works Evaluating configured s (oscillated s sn) :=
  works_ite (works_garGlobal_configured s 3) (.refl s)

theorem works_evaluated (s : State) : Works Evaluating configured s (evaluated s) := by
  have hinst (u : State) (j : Nat) (hj : j ∈ s.gused.filter fun j => s.gtype j != 1) : Works Evaluating calm u (u.evalInst j) :=
    eval_evalInst u (mem_gused (List.mem_filter.mp hj).1)
  have hfold := works_foldl (s := s) _ hinst
  exact configured_of_calm (hfold.trans (eval_garShow _))

theorem works_controlled (s : State) : Works Evaluating configured s (controlled s) := by
  have hsbc (u : State) (j : Nat) (hj : j ∈ s.gused.filter fun j => s.gtype j == 1) : Works Evaluating calm u (u.evalSbc j) :=
    eval_evalSbc u (mem_gused (List.mem_filter.mp hj).1)
  exact configured_of_calm (works_foldl _ hsbc)

theorem works_shortStep (sn : GarnetSense) (s : State) (x : Nat) : Works Evaluating calm s (shortStep sn s x) := by
  unfold shortStep
  cases h : s.pairInst x with
  | none => exact .refl s
  | some j => exact works_ite (eval_fault s (mem_gused (mem_gused_of_pairInst h)) 6) (.refl s)

theorem works_readBack (s : State) (sn : GarnetSense) : Works Evaluating configured s (readBack s sn) :=
  configured_of_calm (works_foldl _ fun u x _ => works_shortStep sn u x)

theorem works_shown (s : State) : Works Evaluating configured s s.garShow := configured_of_calm (eval_garShow s)

/-- The pairs as the custody enable falls (R148, R167). -/
def fallStep (s : State) (x : Nat) : State := match s.pairInst x with
  | some j =>
    if !(s.gpair x).closed ∨ (s.gpair x).hold.isSome then s
    else if (gins s.gimg j 5 1).testBit 1 && s.linksOk j && !s.locked j then
      ((s.modPair x fun p => { p with hold := some s.time.clock, pulse := none }).inc64 Reg.GAR_HOLDS).emit
        0x05 0x0305 4 57 (p4 [x])
    else s.openPair x
  | none => s.openPair x

theorem custFall_eq (s : State) : s.custFall = (List.range 4).foldl fallStep (s.setB Fld.GAR_STATUS_CUST_EN false) := rfl

theorem works_fallStep (s : State) (x : Nat) : Works Evaluating calm s (fallStep s x) := by
  have hcount (u : State) : Works Evaluating calm u (u.inc64 Reg.GAR_HOLDS) :=
    works_inc64 (evaluating_high (by decide) (by decide)) (evaluating_high (by decide) (by decide))
  unfold fallStep
  split
  · exact works_ite (.refl s) (works_ite (((eval_modPair ..).trans (hcount _)).trans (eval_emit ..)) (works_openPair ..))
  · exact works_openPair ..

theorem works_custFall (s : State) : Works Evaluating configured (s.setB Fld.GAR_STATUS_CUST_EN false) s.custFall :=
  configured_of_calm (works_foldl _ fun u x _ => works_fallStep u x)

theorem works_setEnable (s : State) (b : Bool) : Works Enabling configured s (s.setB Fld.GAR_STATUS_CUST_EN b) :=
  works_setB (by decide) (.inl rfl) b

theorem works_enabled (s : State) : Works Enabling configured s (enabled s) :=
  works_ite (works_setEnable s true) (works_ite ((works_setEnable s false).trans ((works_custFall s).mono fun _ => .inr)) (.refl s))

/-- Garnet's custody enable is the module's. -/
theorem enable_enabled {s : State} (hs : s.regsWf = true) : (enabled s).bit Fld.GAR_STATUS_CUST_EN = s.custodyOn := by
  unfold enabled
  split
  case isTrue hon => rw [bit_setB_self (by decide) rfl _ hs, hon]
  case isFalse hoff =>
    have hoff : s.custodyOn = false := Bool.eq_false_iff.mpr hoff
    rw [hoff]
    split
    · rw [(works_custFall s).bit (regsWf_setF _ _ hs) spared_enable, bit_setB_self (by decide) rfl _ hs]
    case isFalse hlow => exact Bool.eq_false_iff.mpr hlow

/-! What the cycle leaves. -/

theorem garnet_of_sensing {g : Field} (h : Sensing g) : Garnet g := garnet_of_block (by rcases h with rfl | rfl <;> decide)
theorem garnet_of_enabling {g : Field} (h : Enabling g) : Garnet g := h.elim (fun h => garnet_of_block (h ▸ by decide)) And.left

theorem spared_custody : Spared Garnet Fld.RPL_STATUS_ENABLE := ⟨by decide, fun g hg => .inl fun h => by
  have hblk : 0x13 ∈ [0x05, 0x12] := show Fld.RPL_STATUS_ENABLE.addr / 65536 ∈ [0x05, 0x12] from h ▸ hg
  exact absurd hblk (by decide)⟩

section
variable (s : State) (sn : GarnetSense)

/-- The cycle before the custody enable is followed, and before the brake controls are evaluated. -/
def beforeEnable : State := oscillated (differed (compared (sensed s sn) sn)) sn
def beforeControl : State := evaluated (enabled (beforeEnable s sn))

/-- The whole cycle. -/
def cycled : State := readBack (controlled (beforeControl s sn)) sn

theorem works_beforeEnable : Works Evaluating configured (sensed s sn) (beforeEnable s sn) :=
  ((works_compared _ sn).trans (works_differed _)).trans (works_oscillated _ sn)

theorem works_cycled : Works Evaluating configured (enabled (beforeEnable s sn)) (cycled s sn).garShow :=
  (((works_evaluated _).trans (works_controlled _)).trans (works_readBack _ sn)).trans (works_shown _)

theorem garnet_beforeEnable : Works Garnet configured s (beforeEnable s sn) :=
  ((works_sensed s sn).mono fun _ => garnet_of_sensing).trans ((works_beforeEnable s sn).mono fun _ h => h.1)

theorem garnet_beforeControl : Works Garnet configured s (beforeControl s sn) :=
  (garnet_beforeEnable s sn).trans (((works_enabled _).mono fun _ => garnet_of_enabling).trans
    ((works_evaluated _).mono fun _ h => h.1))

theorem garnet_cycled : Works Garnet configured s (cycled s sn) :=
  (garnet_beforeControl s sn).trans (((works_controlled _).trans (works_readBack _ sn)).mono fun _ h => h.1)

variable {s sn} (hs : s.regsWf = true)
include hs

theorem grst_cycled : (cycled s sn).garShow.bit Fld.GAR_STATUS_GRST = sn.grst := by
  have hsensed := (works_sensed s sn).wf hs
  have hbefore := (works_beforeEnable s sn).wf hsensed
  have hspared : Spared Enabling Fld.GAR_STATUS_GRST :=
    ⟨by decide, fun g hg => hg.elim (fun h => h ▸ .inr (.inl (by decide))) (spared_grst.2 g)⟩
  rw [(works_cycled s sn).bit ((works_enabled _).wf hbefore) spared_grst, (works_enabled _).bit hbefore hspared,
    (works_beforeEnable s sn).bit hsensed spared_grst]
  refine (congrArg (· != 0) (getF_setF_ne (by decide) (by decide) (by decide) _ (regsWf_setF _ _ hs))).trans ?_
  exact bit_setB_self (by decide) rfl _ hs

theorem enable_cycled : (cycled s sn).garShow.bit Fld.GAR_STATUS_CUST_EN = s.custodyOn := by
  have hbefore := (garnet_beforeEnable s sn).wf hs
  rw [(works_cycled s sn).bit ((works_enabled _).wf hbefore) spared_enable, enable_enabled hbefore]
  exact (garnet_beforeEnable s sn).bit hs spared_custody

end

/-- The readback opens pairs at most. -/
theorem held_shortStep {s : State} (hs : s.regsWf = true) (sn : GarnetSense) (y : Nat) {x : Nat} (hx : x < 4) (h : Held s x) :
    Held (shortStep sn s y) x := by
  unfold shortStep
  cases hpair : s.pairInst y with
  | none => exact h
  | some j =>
    dsimp only
    split
    case isTrue hshort =>
      have hworks := eval_fault s (mem_gused (mem_gused_of_pairInst hpair)) 6
      by_cases hyx : y = x
      · subst hyx
        refine held_of_open (Bool.eq_false_iff.mpr fun hc => ?_)
        rw [opens_garFault s j 6 _ hc] at hshort
        exact absurd hshort (by simp)
      · exact held_of_gpair hs hx hworks (onlyPair_garFault (instPair_of_pairInst hpair) 6 x hyx) h
    case isFalse => exact h

theorem held_readBack {s : State} (hs : s.regsWf = true) (sn : GarnetSense) {x : Nat} (hx : x < 4) (h : Held s x) (l : List Nat) :
    Held (l.foldl (shortStep sn) s) x := by
  induction l generalizing s with
  | nil => exact h
  | cons y l ih => exact ih ((works_shortStep sn s y).wf hs) (held_shortStep hs sn y hx h)

theorem held_controlled {s : State} (hs : s.regsWf = true) {x : Nat} (hx : x < 4) (h : (s.pairInst x).isSome = true) :
    Held (controlled s) x := by
  obtain ⟨j, hj⟩ := Option.isSome_iff_exists.mp h
  have hpair := instPair_of_pairInst hj
  refine held_foldl hs _ (fun i hi => mem_gused (List.mem_filter.mp hi).1) hx (.inr ⟨j, List.mem_filter.mpr ⟨mem_gused_of_pairInst hj, ?_⟩, hpair⟩)
  rw [gtype_of_instPair hpair]
  rfl

theorem held_cycled {s : State} (hs : s.regsWf = true) (sn : GarnetSense) {x : Nat} (hx : x < 4) (h : (s.pairInst x).isSome = true) :
    Held (cycled s sn).garShow x := by
  have hbefore := garnet_beforeControl s sn
  have hwf := hbefore.wf hs
  have hpair : ((beforeControl s sn).pairInst x).isSome = true := pairInst_of_active (active_of_configured hbefore) x ▸ h
  have hback := held_readBack ((works_controlled _).wf hwf) sn hx (held_controlled hwf hx hpair) (List.range 4)
  exact held_of_gpair ((garnet_cycled s sn).wf hs) hx (eval_garShow _) (gpair_garShow ..) hback

/-! ### The obligation -/

theorem bad_of_channel {t : State} {ch : Nat} {v : Nat × Nat × Nat} (h : channel t ch = v) : tget t.gar.tpBad ch = v.1 := congrArg Prod.fst h
theorem good_of_channel {t : State} {ch : Nat} {v : Nat × Nat × Nat} (h : channel t ch = v) : tget t.gar.tpGood ch = v.2.1 :=
  congrArg (fun w => w.2.1) h

theorem answered_respond (s : State) (v st : Nat) : Answered (s.respond v st) v st := rfl

section
variable (s : State) (dt : Nat) (hw : s.regsWf = true)
include hw

theorem discrepancyFault (inst : Fin 8) (k since : Nat) (hruns : s.garRuns = true) (htype : s.gtype inst.val ≠ 0)
    (hfree : s.locked inst.val = false) (hk : k ∈ instInputs s.gimg inst.val) (hdisc : s.discrepant k = true)
    (hsince : tget s.gar.discSince k = some since)
    (hdue : since + gins s.gimg inst.val 6 2 * 1000000 < (s.elapse dt).time.clock) :
    ∃ t, exec (.discrepancyFault dt inst) s = .next t ∧
        t.locked inst.val = true ∧
        (t.getF (Fld.GAR_INST_CAUSE inst.val)).testBit 0 = true ∧
        t.result inst.val = false ∧
        Counted Reg.GAR_LOCKOUTS 1 s t ∧
        LeavesOut dt [0x05, 0x12] s t { t with gar := s.gar, arc := s.arc } := by
  obtain ⟨hlocked, hcause, hresult, hcount⟩ := faultShown (s := s.elapse dt) hw inst (b := 0) (by decide) hfree
  exact ⟨_, exec_discrepancyFault hruns htype hk hdisc hsince hdue, hlocked, hcause, hresult, hcount,
    leavesOut_shown hw (works_garFault_garnet _ inst.isLt 0)⟩

theorem failedPulse (tp : Fin 2) (reads : BitVec 16) (ch : Fin 16) (hruns : s.garRuns = true)
    (hown : gin s.gimg (ch.val / 2) (1 + ch.val % 2) 1 = tp.val + 1) (hused : gin s.gimg (ch.val / 2) 0 1 ≠ 0xFF) :
    ∃ t, exec (.testPulse dt tp false reads) s = .next t ∧
        tget t.gar.tpBad ch.val = 2 ∧
        tget t.gar.tpGood ch.val = 0 ∧
        LeavesOut dt [0x05, 0x12] s t { t with gar := s.gar, arc := s.arc } := by
  obtain ⟨hch, hframe⟩ := badPulse s dt hw tp false reads ch hown hused (fun h => absurd h Bool.false_ne_true)
  exact ⟨_, exec_testPulse hruns dt tp false reads, bad_of_channel hch, good_of_channel hch, hframe⟩

theorem missedPulse (tp : Fin 2) (reads : BitVec 16) (ch : Fin 16) (hruns : s.garRuns = true)
    (hown : gin s.gimg (ch.val / 2) (1 + ch.val % 2) 1 = tp.val + 1) (hused : gin s.gimg (ch.val / 2) 0 1 ≠ 0xFF)
    (hclosed : (s.getF Fld.GAR_INPUTS_SI).testBit ch.val = true) (hhigh : reads.toNat.testBit ch.val = true) :
    ∃ t, exec (.testPulse dt tp true reads) s = .next t ∧
        (tget t.gar.tpBad ch.val = (if tget s.gar.tpNow ch.val = 1 then 1 else min 2 (tget s.gar.tpBad ch.val + 1))) ∧
        tget t.gar.tpGood ch.val = 0 ∧
        LeavesOut dt [0x05, 0x12] s t { t with gar := s.gar, arc := s.arc } := by
  obtain ⟨hch, hframe⟩ := badPulse s dt hw tp true reads ch hown hused (fun _ => ⟨hclosed, hhigh⟩)
  refine ⟨_, exec_testPulse hruns dt tp true reads, (bad_of_channel hch).trans ?_, good_of_channel hch, hframe⟩
  show min 2 ((if tget s.gar.tpNow ch.val = 1 then 0 else tget s.gar.tpBad ch.val) + 1) = _
  split <;> rfl

omit hw in
theorem acknowledgement (req : Requester) (insts : BitVec 8) (j : Fin 8) (hlets : Lets s req Reg.GAR_ACK) (hruns : s.garRuns = true)
    (hbit : insts.toNat.testBit j.val = true) (htype : s.gtype j.val = 2 ∨ s.gtype j.val = 5) (hhealthy : s.healthy1 j.val = true)
    (hfree : s.locked j.val = false) :
    ∃ t, exec (.garAckWrite dt req insts) s = .next t ∧
        Answered t 0 0 ∧
        (t.ginst j.val).needAck = false ∧
        Leaves dt [] s t { t with gar := { t.gar with insts := s.gar.insts } } :=
  ⟨_, exec_garAckWrite hlets hruns dt insts, answered_respond .., needAck_foldl (s := s.elapse dt) _ htype hhealthy hfree
    (.inl (List.mem_filter.mpr ⟨List.mem_range.mpr j.isLt, hbit⟩)), leaves_acknowledged s dt insts.toNat⟩

theorem evalCycle (sense : GarnetSense) (hruns : s.garRuns = true) :
    ∃ t, exec (.garnetEvalCycle dt sense) s = .next t ∧
        t.bit Fld.GAR_STATUS_GRST = sense.grst ∧
        t.bit Fld.GAR_STATUS_CUST_EN = s.custodyOn ∧
        (∀ x : Fin 4, (s.pairInst x.val).isSome = true → (t.gpair x.val).closed = true → (t.gpair x.val).hold.isSome = true ∨
          (t.bit Fld.GAR_STATUS_CUST_EN = true ∧ t.reqLine x.val = true ∧ t.permit x.val = 2)) ∧
        LeavesOut dt [0x05, 0x12] s t { t with gar := s.gar, arc := s.arc } :=
  ⟨_, exec_garnetEvalCycle hruns dt sense, grst_cycled (s := s.elapse dt) hw, enable_cycled (s := s.elapse dt) hw,
    fun x hx => held_cycled (s := s.elapse dt) hw sense x.isLt hx,
    leavesOut_shown hw ((garnet_cycled (s.elapse dt) sense).coarsen fun _ => rfl)⟩

end

/-- Settles O23: each clause from what its operations write in Garnet, and the cycle from what each of its steps leaves of a pair. -/
theorem garnetSupplyAndInputs : Obligations.GarnetSupplyAndInputs := by
  intro s dt hs
  have hw : s.regsWf = true := (Bool.and_eq_true_iff.mp hs).1
  exact ⟨supplyRise s dt hw, startupPassed s dt hw, fun chk hcompare hon _ => startupFailed s dt hw chk hcompare hon,
    supplyLoss s dt hw, configCheck s dt hw, filterExpiry s dt hw, discrepancyFault s dt hw, failedPulse s dt hw,
    missedPulse s dt hw, acknowledgement s dt, evalCycle s dt hw⟩

end Sys2Proof.Proofs.GarnetCycle

/-! NV_STOP, over-temperature, and the warnings of the supply (R486, R502, R554, R568, R574). -/

namespace Sys2Proof.Proofs.PowerStop

open Sys2Proof Sys2Proof.Machine Sys2Proof.Laws Sys2Proof.Proofs.Time Sys2Proof.Proofs.Power Sys2Proof.Proofs.RegOps
open Sys2Proof.Proofs.CustodyReleased

/-! ### NV_STOP (R554) -/

/-- The flags that NV_STOP sets. -/
def stopFlags : List RegOp :=
  [.bit Fld.PWR_STATUS_NV_STOP true, .bit Fld.ARC_STATUS_NVSTOP true, .bit Fld.PRV_STATUS_NVSTOP true]

def flagged (s : State) : State := written s stopFlags

/-- The instant of NV_STOP is kept, and reported; `w` is the state once custody has been released. -/
def kept (w : State) (o : Occurrence) : State :=
  offer { written w [.pair Reg.PWR_LASTNVSTOP w.time.mt] with
    rpl := { w.rpl with driving := false, claim := none }
    pwr := { w.pwr with nvStopAt := some w.time.clock } } 0x16 o

/-- The event of NV_STOP. -/
def stopEvent (s : State) (vhold : Nat) : Occurrence := ⟨0x17, 0x1703, 5, 59, s.time.mt, p4 [vhold, b2n s.holdsCustody]⟩

/-- The same, as the event finds its port. -/
def noted (w : State) (payload : List Byte) : State :=
  let w := w.modRpl fun r => { r with driving := false, claim := none }
  let w := (w.wr64 Reg.PWR_LASTNVSTOP w.time.mt).modPwr fun p => { p with nvStopAt := some w.time.clock }
  w.emit 0x16 0x1703 5 59 payload

theorem noted_of_room {w : State} (h : PortRoom w 0x16) (payload : List Byte) :
    noted w payload = kept w ⟨0x17, 0x1703, 5, 59, w.time.mt, payload⟩ := by
  unfold noted
  rw [emit_eq_offer (by exact h), wr64_eq_written]
  unfold kept
  rw [written_of_regs (s := w) (u := w.modRpl fun r => { r with driving := false, claim := none }) rfl,
    written_of_regs (s := w) (u := w) rfl]
  rfl

theorem nvStop_of_clear {s : State} (h : s.bit Fld.PWR_STATUS_NV_STOP = false) (vhold : Nat) :
    s.nvStop vhold = noted ((flagged s).releaseCustody 0 5) (p4 [vhold, b2n s.holdsCustody]) := by
  unfold State.nvStop
  rw [if_neg (by rw [h]; decide), setB_eq_written, setB_eq_written, setB_eq_written, written_written, written_written]
  rfl

/-- The words of NV_STOP. -/
abbrev stopWords : List Nat :=
  [Reg.PWR_STATUS, Reg.ARC_STATUS, Reg.PRV_STATUS] ++ two Reg.PWR_LASTNVSTOP ++ [Reg.RPL_STATUS] ++ two Reg.RPL_RELEASES ++ custodyWords

/-- What NV_STOP makes of `s`. -/
structure StopFrom (s : State) (vhold : Nat) (t : State) : Prop where
  flag : t.bit Fld.PWR_STATUS_NV_STOP = true
  archive : t.bit Fld.ARC_STATUS_NVSTOP = true
  provenance : t.bit Fld.PRV_STATUS_NVSTOP = true
  hot : t.bit Fld.PWR_STATUS_OVERTEMP = s.bit Fld.PWR_STATUS_OVERTEMP
  instant : t.rd64 Reg.PWR_LASTNVSTOP = s.time.mt % 18446744073709551616
  supply : t.pwr = { s.pwr with nvStopAt := some s.time.clock }
  driving : t.rpl.driving = false
  role : t.role = if s.holdsCustody then 5 else s.role
  custody : s.holdsCustody = true → t.custodyOn = false
  releases : Counted Reg.RPL_RELEASES (b2n s.holdsCustody) s t
  ports : t.arc.ports = portsWith s 0x16 (stopEvent s vhold)
  regs : RegsKept stopWords s t
  mem : MemKept s t
  rest : { t with
    regs := s.regs, resp := s.resp, pwr := { t.pwr with nvStopAt := s.pwr.nvStopAt }
    triad := { t.triad with loanLost := s.triad.loanLost }, fio := s.fio
    eth := { t.eth with queues := s.eth.queues }, bus := { t.bus with queue := s.bus.queue }
    rpl := { t.rpl with driving := s.rpl.driving, claim := s.rpl.claim }
    arc := { t.arc with ports := s.arc.ports } } = { s with resp := s.resp }

theorem StopFrom.time {s t : State} {vhold : Nat} (h : StopFrom s vhold t) : t.time = s.time := (congrArg State.time h.rest :)

section
variable {s : State} (hs : s.regsWf = true)

theorem flagged_regs (s : State) : (flagged s).regs = (runAll s stopFlags).regs := regs_written ..

theorem regsKept_flagged (s : State) : RegsKept [Reg.PWR_STATUS, Reg.ARC_STATUS, Reg.PRV_STATUS] s (flagged s) :=
  regsKept_of_regs (flagged_regs s) (by simp [stopFlags, RegOp.words])

theorem holdsCustody_flagged (s : State) : (flagged s).holdsCustody = s.holdsCustody := by
  have hrole := getF_of_regsKept (regsKept_flagged s) (f := Fld.RPL_STATUS_ROLE) (by decide) (by decide)
  simp only [State.holdsCustody, State.role, hrole]

theorem regsKept_kept (w : State) (o : Occurrence) : RegsKept (two Reg.PWR_LASTNVSTOP) w (kept w o) := by
  refine regsKept_of_regs (l := [.pair Reg.PWR_LASTNVSTOP w.time.mt]) (regs_written ..) ?_
  simp [RegOp.words]

theorem instant_kept {w : State} (hw : w.regsWf = true) (o : Occurrence) :
    (kept w o).rd64 Reg.PWR_LASTNVSTOP = w.time.mt % 18446744073709551616 := by
  have hr : (kept w o).regs = (runAll w [.pair Reg.PWR_LASTNVSTOP w.time.mt]).regs := regs_written ..
  rw [rd64_of_regs hw hr]
  simp (disch := decide) [RegOp.see]

include hs

theorem flags_flagged : (flagged s).bit Fld.PWR_STATUS_NV_STOP = true ∧ (flagged s).bit Fld.ARC_STATUS_NVSTOP = true ∧
    (flagged s).bit Fld.PRV_STATUS_NVSTOP = true ∧
    (flagged s).bit Fld.PWR_STATUS_OVERTEMP = s.bit Fld.PWR_STATUS_OVERTEMP := by
  refine ⟨?_, ?_, ?_, ?_⟩ <;> rw [bit_of_regs hs (flagged_regs s)] <;> simp (disch := decide) [stopFlags, RegOp.see, State.bit]

/-- Without custody nothing is released. -/
theorem stopFrom_flagged (hcustody : s.holdsCustody = false) (vhold : Nat) :
    StopFrom s vhold (kept (flagged s) (stopEvent s vhold)) := by
  have hkept := regsKept_kept (flagged s) (stopEvent s vhold)
  have hall := regsKept_trans (regsKept_flagged s) hkept
  obtain ⟨hflag, harchive, hprovenance, hhot⟩ := flags_flagged hs
  have hbit {f : Field} (hf : f.lo + f.len ≤ 32) (hout : f.addr ∉ two Reg.PWR_LASTNVSTOP) :
      (kept (flagged s) (stopEvent s vhold)).bit f = (flagged s).bit f := bit_of_regsKept hkept hf hout
  exact {
    flag := (hbit (by decide) (by decide)).trans hflag
    archive := (hbit (by decide) (by decide)).trans harchive
    provenance := (hbit (by decide) (by decide)).trans hprovenance
    hot := (hbit (by decide) (by decide)).trans hhot
    instant := instant_kept (regsWf_of_regs hs (flagged_regs s)) _
    supply := rfl
    driving := rfl
    role := by
      rw [hcustody]
      exact getF_of_regsKept hall (f := Fld.RPL_STATUS_ROLE) (by decide) (by decide)
    custody := fun h => absurd (hcustody.symm.trans h) (by decide)
    releases := by
      rw [hcustody, Counted, rd64_of_regsKept hall (by decide) (by decide)]
      exact (rd64_mod ..).symm
    ports := rfl
    regs := regsKept_mono hall fun a ha => List.mem_append_left _ (List.mem_append_left _ (List.mem_append_left _ ha))
    mem := fun _ => rfl
    rest := rfl }

/-- With custody the role changes as well. -/
theorem stopFrom_released (hcustody : s.holdsCustody = true) (vhold : Nat) (lost : Bool) :
    StopFrom s vhold (kept (released (flagged s) 5 lost) (stopEvent s vhold)) := by
  have hflagged : (flagged s).regsWf = true := regsWf_of_regs hs (flagged_regs s)
  have hkept := regsKept_kept (released (flagged s) 5 lost) (stopEvent s vhold)
  have hfall := regsKept_released (s := flagged s) 5 lost
  have hreleased : (released (flagged s) 5 lost).regsWf = true := regsWf_of_regs hflagged (released_regs 5 lost)
  have hlater := regsKept_trans hfall hkept
  obtain ⟨hflag, harchive, hprovenance, hhot⟩ := flags_flagged hs
  have hbit {f : Field} (hf : f.lo + f.len ≤ 32)
      (hout : f.addr ∉ ([Reg.RPL_STATUS] ++ two Reg.RPL_RELEASES ++ custodyWords) ++ two Reg.PWR_LASTNVSTOP) :
      (kept (released (flagged s) 5 lost) (stopEvent s vhold)).bit f = (flagged s).bit f := bit_of_regsKept hlater hf hout
  exact {
    flag := (hbit (by decide) (by decide)).trans hflag
    archive := (hbit (by decide) (by decide)).trans harchive
    provenance := (hbit (by decide) (by decide)).trans hprovenance
    hot := (hbit (by decide) (by decide)).trans hhot
    instant := instant_kept hreleased _
    supply := rfl
    driving := rfl
    role := by
      rw [hcustody]
      exact (getF_of_regsKept hkept (f := Fld.RPL_STATUS_ROLE) (by decide) (by decide)).trans
        (role_released hflagged 5 lost (by decide))
    custody := fun _ => (bit_of_regsKept hkept (f := Fld.RPL_STATUS_ENABLE) (by decide) (by decide)).trans
      (custodyOn_released hflagged 5 lost)
    releases := by
      rw [hcustody, Counted, rd64_of_regsKept hkept (by decide) (by decide),
        ← rd64_of_regsKept (regsKept_flagged s) (by decide) (by decide)]
      exact counted_released hflagged 5 lost
    ports := rfl
    regs := regsKept_mono (regsKept_trans (regsKept_flagged s) hlater) fun a ha => by
      simp only [List.mem_append] at ha ⊢
      tauto
    mem := fun _ => rfl
    rest := rfl }

theorem stopFrom_nvStop (hclear : s.bit Fld.PWR_STATUS_NV_STOP = false) (hroom : PortRoom s 0x16) (vhold : Nat) :
    StopFrom s vhold (s.nvStop vhold) := by
  rw [nvStop_of_clear hclear]
  cases hcustody : s.holdsCustody with
  | false =>
    rw [releaseCustody_none ((holdsCustody_flagged s).trans hcustody), noted_of_room (w := flagged s) hroom, ← hcustody]
    exact stopFrom_flagged hs hcustody vhold
  | true =>
    obtain ⟨lost, hreleased⟩ := releaseCustody_silent ((holdsCustody_flagged s).trans hcustody) 5
    rw [hreleased, noted_of_room (w := released (flagged s) 5 lost) hroom, ← hcustody]
    exact stopFrom_released hs hcustody vhold lost

end

end Sys2Proof.Proofs.PowerStop

/-! The readings of the store and of the temperature, the coding plug and the tamper latch (R502, R554, R568, R574, R576). -/

namespace Sys2Proof.Proofs.PowerReadings

open Sys2Proof Sys2Proof.Machine Sys2Proof.Laws Sys2Proof.Proofs.Time Sys2Proof.Proofs.Power Sys2Proof.Proofs.RegOps
open Sys2Proof.Proofs.CustodyReleased Sys2Proof.Proofs.PowerStop

/-! ### The store falls to 36.0 V (R554) -/

/-- The reading of the store. -/
def storeRead (s : State) (vhold : Nat) : State := written s [.field Fld.PWR_VHOLD_VHOLD vhold]

theorem storeRead_regs (s : State) (vhold : Nat) : (storeRead s vhold).regs = (runAll s [.field Fld.PWR_VHOLD_VHOLD vhold]).regs :=
  regs_written ..

theorem regsKept_storeRead (s : State) (vhold : Nat) : RegsKept [Reg.PWR_VHOLD] s (storeRead s vhold) :=
  regsKept_of_regs (storeRead_regs s vhold) (by simp [RegOp.words])

theorem holdsCustody_of_role {s t : State} (h : t.role = s.role) : t.holdsCustody = s.holdsCustody := by
  simp only [State.holdsCustody, h]

theorem exec_pwrNvStop {s : State} {dt vhold : Nat} (hon : s.lcs.phase ≠ .off) (hlow : vhold ≤ 3600) :
    exec (.pwrNvStop dt vhold) s = .next ((storeRead (s.elapse dt) vhold).nvStop vhold) := by
  have hread : (s.elapse dt).setF Fld.PWR_VHOLD_VHOLD vhold = storeRead (s.elapse dt) vhold := setF_eq_written ..
  exact congrArg Host.Outcome.next ((if_neg hon).trans ((if_pos hlow).trans (congrArg (State.nvStop · vhold) hread)))

theorem nvStopped (s : State) (dt : Nat) (hw : s.regsWf = true) (vhold : Nat) (hon : s.lcs.phase ≠ .off) (hlow : vhold ≤ 3600)
    (hclear : s.bit Fld.PWR_STATUS_NV_STOP = false) (hroom : PortRoom s 0x16) :
    ∃ t, exec (.pwrNvStop dt vhold) s = .next t ∧
        t.bit Fld.PWR_STATUS_NV_STOP = true ∧
        t.bit Fld.ARC_STATUS_NVSTOP = true ∧
        t.bit Fld.PRV_STATUS_NVSTOP = true ∧
        t.getF Fld.PWR_VHOLD_VHOLD = vhold ∧
        t.rd64 Reg.PWR_LASTNVSTOP = (s.elapse dt).time.mt % 18446744073709551616 ∧
        t.pwr.nvStopAt = some (s.elapse dt).time.clock ∧
        t.rpl.driving = false ∧
        (t.role = (if s.holdsCustody then 5 else s.role)) ∧
        (s.holdsCustody = true → t.custodyOn = false) ∧
        Counted Reg.RPL_RELEASES (b2n s.holdsCustody) s t ∧
        Offered 0x16 0x1703 5 59 (p4 [vhold, b2n s.holdsCustody]) s t ∧
        Leaves dt (([Reg.PWR_VHOLD, Reg.PWR_STATUS, Reg.ARC_STATUS, Reg.PRV_STATUS] ++ two Reg.PWR_LASTNVSTOP ++
          [Reg.RPL_STATUS] ++ two Reg.RPL_RELEASES ++ custodyWords)) s t
          { t with pwr := { t.pwr with nvStopAt := s.pwr.nvStopAt }, triad := { t.triad with loanLost := s.triad.loanLost }, fio := s.fio, eth := { t.eth with queues := s.eth.queues }, bus := { t.bus with queue := s.bus.queue }, rpl := { t.rpl with driving := s.rpl.driving, claim := s.rpl.claim }, arc := { t.arc with ports := s.arc.ports } } := by
  have hu : (s.elapse dt).regsWf = true := hw
  have hread := regsKept_storeRead (s.elapse dt) vhold
  have hrole : (storeRead (s.elapse dt) vhold).role = s.role :=
    getF_of_regsKept hread (f := Fld.RPL_STATUS_ROLE) (by decide) (by decide)
  have hstop := stopFrom_nvStop (regsWf_of_regs hu (storeRead_regs (s.elapse dt) vhold))
    ((bit_of_regsKept hread (f := Fld.PWR_STATUS_NV_STOP) (by decide) (by decide)).trans hclear) hroom vhold
  have hexec := exec_pwrNvStop (dt := dt) hon hlow
  generalize (storeRead (s.elapse dt) vhold).nvStop vhold = t at hstop hexec
  have hholds := holdsCustody_of_role hrole
  refine ⟨t, hexec, hstop.flag, hstop.archive, hstop.provenance, ?_, hstop.instant, congrArg PwrSt.nvStopAt hstop.supply,
    hstop.driving, ?_, fun h => hstop.custody (hholds.trans h), ?_, ?_, ?_, hstop.mem, ?_⟩
  · rw [getF_of_regsKept hstop.regs (by decide) (by decide), getF_of_regs hu (storeRead_regs (s.elapse dt) vhold)]
    simp (disch := decide) [RegOp.see]
    omega
  · rw [hstop.role, hholds, hrole]
  · rw [Counted, hstop.releases, hholds, rd64_of_regsKept hread (by decide) (by decide)]
    rfl
  · refine offered_of_ports (hstop.ports.trans ?_)
    rw [stopEvent, hholds, hstop.time]
    rfl
  · refine regsKept_mono (regsKept_trans hread hstop.regs) fun a ha => ?_
    simp only [List.mem_append, List.mem_cons] at ha ⊢
    tauto
  · exact (congrArg (fun u : State => { u with regs := s.regs, resp := s.resp }) hstop.rest :)

/-! ### The temperature (R574, R576) -/

/-- A reading of the temperature; `top` tells whether it is the highest since reset. -/
def tempWrites (top : Bool) (temp : Int) : List RegOp :=
  .field Fld.PWR_TEMP_TEMP (i16 temp) :: if top = true then [.field Fld.PWR_TEMP_MAX (i16 temp)] else []

/-- A state in which the temperature has been read. -/
def tempSeen (s : State) : State := { s with pwr := { s.pwr with tempSeen := true } }

theorem setTemp_eq (s : State) (temp : Int) : ∃ top, s.setTemp temp = written (tempSeen s) (tempWrites top temp) := by
  have hread : (s.setF Fld.PWR_TEMP_TEMP (i16 temp)).modPwr (fun p => { p with tempSeen := true }) =
      written (tempSeen s) [.field Fld.PWR_TEMP_TEMP (i16 temp)] := by
    rw [setF_eq_written, written_of_regs (s := s) (u := tempSeen s) rfl]
    rfl
  unfold State.setTemp
  dsimp only
  rw [hread]
  split
  · exact ⟨true, by rw [setF_eq_written, written_written]; rfl⟩
  · exact ⟨false, rfl⟩

theorem tempWrites_words (top : Bool) (temp : Int) : (tempWrites top temp).flatMap RegOp.words ⊆ [Reg.PWR_TEMP] := by
  cases top <;> simp [tempWrites, RegOp.words]

/-- The temperature, and more. -/
def warmed (s : State) (top : Bool) (temp : Int) (l : List RegOp) : State := written (tempSeen s) (tempWrites top temp ++ l)

theorem warmed_regs (s : State) (top : Bool) (temp : Int) (l : List RegOp) :
    (warmed s top temp l).regs = (runAll s (tempWrites top temp ++ l)).regs := regs_written_of (s := s) (u := tempSeen s) rfl _

theorem regsKept_warmed (s : State) (top : Bool) (temp : Int) {l : List RegOp} {ws : List Nat} (h : l.flatMap RegOp.words ⊆ ws) :
    RegsKept ([Reg.PWR_TEMP] ++ ws) s (warmed s top temp l) := by
  refine regsKept_of_regs (warmed_regs s top temp l) ?_
  rw [List.flatMap_append]
  exact List.append_subset.mpr ⟨fun a ha => List.mem_append_left _ (tempWrites_words top temp ha),
    fun a ha => List.mem_append_right _ (h ha)⟩

theorem i16_lt (v : Int) : i16 v < 65536 := by
  unfold i16
  omega

section
variable {s : State} (hs : s.regsWf = true) (top : Bool) (temp : Int) (l : List RegOp)
include hs

theorem temp_warmed (hl : ∀ o ∈ l, Reg.PWR_TEMP ∉ o.words) : (warmed s top temp l).getF Fld.PWR_TEMP_TEMP = i16 temp := by
  have hread : (warmed s top temp []).getF Fld.PWR_TEMP_TEMP = i16 temp := by
    rw [getF_of_regs hs (warmed_regs s top temp [])]
    cases top <;> simp (disch := decide) [tempWrites, RegOp.see] <;> exact i16_lt temp
  have hmore : (warmed s top temp l).regs = (runAll (warmed s top temp []) l).regs := by
    rw [← regs_written, warmed, warmed, written_written, List.append_nil]
  rw [getF_of_regsKept (regsKept_of_regs hmore fun _ h => h) (by decide) ?_, hread]
  exact fun h => (List.mem_flatMap.mp h).elim fun o ⟨ho, hw⟩ => hl o ho hw

end

theorem tempRead {s : State} (temp : Int) {f : Field} (hf : f.lo + f.len ≤ 32) (ha : f.addr ∉ [Reg.PWR_TEMP]) :
    (s.setTemp temp).bit f = s.bit f := by
  obtain ⟨top, hset⟩ := setTemp_eq s temp
  rw [hset]
  exact bit_of_regsKept (regsKept_of_regs (regs_written_of (s := s) (u := tempSeen s) rfl _) (tempWrites_words top temp)) hf ha

/-- The warning. -/
def warnWrites : List RegOp := [.bit Fld.PWR_STATUS_TEMPWARN true, .count Reg.PWR_TEMPWARNS 1]

theorem exec_pwrTempWarn {s : State} {dt : Nat} {temp : Int} (hon : s.lcs.phase ≠ .off) (hhot : 900 < temp)
    (hclear : s.bit Fld.PWR_STATUS_TEMPWARN = false) (hroom : PortRoom s 0x16) :
    ∃ top, exec (.pwrTempWarn dt temp) s =
      .next (offer (warmed (s.elapse dt) top temp warnWrites) 0x16 ⟨0x17, 0x1706, 3, 59, (s.elapse dt).time.mt, p4 [i32 temp]⟩) := by
  obtain ⟨top, hset⟩ := setTemp_eq (s.elapse dt) temp
  have hacts : ¬ (temp ≤ 900 ∨ ((s.elapse dt).setTemp temp).bit Fld.PWR_STATUS_TEMPWARN) := by
    rw [tempRead temp (by decide) (by decide), bit_elapse, hclear]
    simpa using hhot
  have hwarn : (((s.elapse dt).setTemp temp).setB Fld.PWR_STATUS_TEMPWARN true).inc64 Reg.PWR_TEMPWARNS =
      warmed (s.elapse dt) top temp warnWrites := by
    rw [hset, setB_eq_written, inc64_eq_written, written_written, written_written]
    rfl
  refine ⟨top, congrArg Host.Outcome.next ((if_neg hon).trans ((if_neg hacts).trans ?_))⟩
  refine (congrArg (fun u : State => u.emit 0x16 0x1706 3 59 (p4 [i32 temp])) hwarn).trans ?_
  exact emit_eq_offer (s := warmed (s.elapse dt) top temp warnWrites) hroom ..

theorem warned (s : State) (dt : Nat) (hw : s.regsWf = true) (temp : Int) (hon : s.lcs.phase ≠ .off) (hhot : 900 < temp)
    (hclear : s.bit Fld.PWR_STATUS_TEMPWARN = false) (hroom : PortRoom s 0x16) :
    ∃ t, exec (.pwrTempWarn dt temp) s = .next t ∧
        t.bit Fld.PWR_STATUS_TEMPWARN = true ∧
        t.getF Fld.PWR_TEMP_TEMP = i16 temp ∧
        Counted Reg.PWR_TEMPWARNS 1 s t ∧
        Offered 0x16 0x1706 3 59 (p4 [i32 temp]) s t ∧
        Leaves dt (([Reg.PWR_TEMP, Reg.PWR_STATUS] ++ two Reg.PWR_TEMPWARNS)) s t
          { t with pwr := { t.pwr with tempSeen := s.pwr.tempSeen }, arc := { t.arc with ports := s.arc.ports } } := by
  obtain ⟨top, hexec⟩ := exec_pwrTempWarn (dt := dt) hon hhot hclear hroom
  have hu : (s.elapse dt).regsWf = true := hw
  have hr := warmed_regs (s.elapse dt) top temp warnWrites
  have hlow : ∀ o ∈ warnWrites, Reg.PWR_TEMP ∉ o.words := by decide
  refine ⟨_, hexec, ?_, temp_warmed hu top temp warnWrites hlow, ?_, offered_of_ports rfl,
    regsKept_warmed (s.elapse dt) top temp (ws := Reg.PWR_STATUS :: two Reg.PWR_TEMPWARNS) (by simp [warnWrites, RegOp.words]),
    fun _ => rfl, rfl⟩
  · refine (bit_of_regs hu hr _).trans ?_
    cases top <;> simp (disch := decide) [tempWrites, warnWrites, RegOp.see]
  · refine (rd64_of_regs hu hr _).trans ?_
    cases top <;> simp (disch := decide) [tempWrites, warnWrites, RegOp.see]

theorem exec_tempwarnClear {s : State} {dt : Nat} {temp : Int} (hon : s.lcs.phase ≠ .off) (hcool : temp < 850) :
    ∃ top, exec (.tempwarnClear dt temp) s = .next (warmed (s.elapse dt) top temp [.bit Fld.PWR_STATUS_TEMPWARN false]) := by
  obtain ⟨top, hset⟩ := setTemp_eq (s.elapse dt) temp
  refine ⟨top, congrArg Host.Outcome.next ((if_neg hon).trans ((if_pos hcool).trans ?_))⟩
  rw [hset, setB_eq_written, written_written]
  rfl

theorem cooled (s : State) (dt : Nat) (hw : s.regsWf = true) (temp : Int) (hon : s.lcs.phase ≠ .off) (hcool : temp < 850) :
    ∃ t, exec (.tempwarnClear dt temp) s = .next t ∧
        t.bit Fld.PWR_STATUS_TEMPWARN = false ∧
        t.getF Fld.PWR_TEMP_TEMP = i16 temp ∧
        Leaves dt [Reg.PWR_TEMP, Reg.PWR_STATUS] s t { t with pwr := { t.pwr with tempSeen := s.pwr.tempSeen } } := by
  obtain ⟨top, hexec⟩ := exec_tempwarnClear (dt := dt) hon hcool
  have hu : (s.elapse dt).regsWf = true := hw
  have hr := warmed_regs (s.elapse dt) top temp [.bit Fld.PWR_STATUS_TEMPWARN false]
  have hlow : ∀ o ∈ [RegOp.bit Fld.PWR_STATUS_TEMPWARN false], Reg.PWR_TEMP ∉ o.words := by simp [RegOp.words]
  refine ⟨_, hexec, ?_, temp_warmed hu top temp _ hlow,
    regsKept_warmed (s.elapse dt) top temp (ws := [Reg.PWR_STATUS]) (by simp [RegOp.words]), fun _ => rfl, rfl⟩
  refine (bit_of_regs hu hr _).trans ?_
  cases top <;> simp (disch := decide) [tempWrites, RegOp.see]

/-! ### Over-temperature (R574) -/

/-- The reading, its flag and its event, before the module acts as at NV_STOP. -/
def overheated (s : State) (top : Bool) (temp : Int) : State :=
  offer (warmed s top temp [.bit Fld.PWR_STATUS_OVERTEMP true]) 0x16 ⟨0x17, 0x1707, 5, 59, s.time.mt, p4 [i32 temp]⟩

/-- The module is held until it has cooled. -/
def hot (s : State) : State := s.modPwr fun p => { p with heldHot := true }

theorem exec_pwrOvertemp {s : State} {dt : Nat} {temp : Int} (hon : s.lcs.phase ≠ .off) (hhot : 1050 < temp)
    (hclear : s.bit Fld.PWR_STATUS_OVERTEMP = false) (hroom : PortRoom s 0x16) :
    ∃ top, exec (.pwrOvertemp dt temp) s =
      .next (hot ((overheated (s.elapse dt) top temp).nvStop ((overheated (s.elapse dt) top temp).getF Fld.PWR_VHOLD_VHOLD))) := by
  obtain ⟨top, hset⟩ := setTemp_eq (s.elapse dt) temp
  have hacts : ¬ (temp ≤ 1050 ∨ ((s.elapse dt).setTemp temp).bit Fld.PWR_STATUS_OVERTEMP) := by
    rw [tempRead temp (by decide) (by decide), bit_elapse, hclear]
    simpa using hhot
  have hflag : ((s.elapse dt).setTemp temp).setB Fld.PWR_STATUS_OVERTEMP true =
      warmed (s.elapse dt) top temp [.bit Fld.PWR_STATUS_OVERTEMP true] := by
    rw [hset, setB_eq_written, written_written]
    rfl
  have hevent : (((s.elapse dt).setTemp temp).setB Fld.PWR_STATUS_OVERTEMP true).emit 0x16 0x1707 5 59 (p4 [i32 temp]) =
      overheated (s.elapse dt) top temp := by
    rw [hflag]
    exact emit_eq_offer (s := warmed (s.elapse dt) top temp [.bit Fld.PWR_STATUS_OVERTEMP true]) hroom ..
  refine ⟨top, congrArg Host.Outcome.next ((if_neg hon).trans ((if_neg hacts).trans ?_))⟩
  exact congrArg (fun u : State => hot (u.nvStop (u.getF Fld.PWR_VHOLD_VHOLD))) hevent

theorem overtemperature (s : State) (dt : Nat) (hw : s.regsWf = true) (temp : Int) (hon : s.lcs.phase ≠ .off) (hhot : 1050 < temp)
    (hclear : s.bit Fld.PWR_STATUS_OVERTEMP = false) (hnv : s.bit Fld.PWR_STATUS_NV_STOP = false)
    (hroom : (tget s.arc.ports 0x16).length < 31) :
    ∃ t, exec (.pwrOvertemp dt temp) s = .next t ∧
        t.bit Fld.PWR_STATUS_OVERTEMP = true ∧
        t.bit Fld.PWR_STATUS_NV_STOP = true ∧
        t.pwr.heldHot = true ∧
        t.getF Fld.PWR_TEMP_TEMP = i16 temp ∧
        t.pwr.nvStopAt = some (s.elapse dt).time.clock ∧
        (t.role = (if s.holdsCustody then 5 else s.role)) ∧
        Leaves dt (([Reg.PWR_TEMP, Reg.PWR_STATUS, Reg.ARC_STATUS, Reg.PRV_STATUS] ++ two Reg.PWR_LASTNVSTOP ++
          [Reg.RPL_STATUS] ++ two Reg.RPL_RELEASES ++ custodyWords)) s t
          { t with pwr := { t.pwr with nvStopAt := s.pwr.nvStopAt, heldHot := s.pwr.heldHot, tempSeen := s.pwr.tempSeen }, triad := { t.triad with loanLost := s.triad.loanLost }, fio := s.fio, eth := { t.eth with queues := s.eth.queues }, bus := { t.bus with queue := s.bus.queue }, rpl := { t.rpl with driving := s.rpl.driving, claim := s.rpl.claim }, arc := { t.arc with ports := s.arc.ports } } := by
  obtain ⟨top, hexec⟩ := exec_pwrOvertemp (dt := dt) hon hhot hclear (Nat.lt_succ_of_lt hroom)
  have hu : (s.elapse dt).regsWf = true := hw
  have hr : (overheated (s.elapse dt) top temp).regs =
      (runAll (s.elapse dt) (tempWrites top temp ++ [.bit Fld.PWR_STATUS_OVERTEMP true])).regs := warmed_regs ..
  have hread : RegsKept ([Reg.PWR_TEMP] ++ [Reg.PWR_STATUS]) (s.elapse dt) (overheated (s.elapse dt) top temp) :=
    regsKept_warmed (s.elapse dt) top temp (by simp [RegOp.words])
  have hrole : (overheated (s.elapse dt) top temp).role = s.role :=
    getF_of_regsKept hread (f := Fld.RPL_STATUS_ROLE) (by decide) (by decide)
  have hflag : (overheated (s.elapse dt) top temp).bit Fld.PWR_STATUS_OVERTEMP = true := by
    rw [bit_of_regs hu hr]
    cases top <;> simp (disch := decide) [tempWrites, RegOp.see]
  have hstill : (overheated (s.elapse dt) top temp).bit Fld.PWR_STATUS_NV_STOP = false := by
    rw [bit_of_regs hu hr]
    cases top <;> simpa (disch := decide) [tempWrites, RegOp.see, State.bit] using hnv
  have hport : PortRoom (overheated (s.elapse dt) top temp) 0x16 := by
    show (tget (portsWith _ 0x16 _) 0x16).length < 32
    rw [tget_portsWith_self, List.length_append]
    exact Nat.succ_lt_succ hroom
  have hlow : ∀ o ∈ [RegOp.bit Fld.PWR_STATUS_OVERTEMP true], Reg.PWR_TEMP ∉ o.words := by simp [RegOp.words]
  have htemp : (overheated (s.elapse dt) top temp).getF Fld.PWR_TEMP_TEMP = i16 temp := temp_warmed hu top temp _ hlow
  have hstop := stopFrom_nvStop (regsWf_of_regs hu hr) hstill hport ((overheated (s.elapse dt) top temp).getF Fld.PWR_VHOLD_VHOLD)
  generalize (overheated (s.elapse dt) top temp).nvStop ((overheated (s.elapse dt) top temp).getF Fld.PWR_VHOLD_VHOLD) = t
    at hstop hexec
  refine ⟨hot t, hexec, hstop.hot.trans hflag, hstop.flag, rfl,
    (getF_of_regsKept hstop.regs (by decide) (by decide)).trans htemp, congrArg PwrSt.nvStopAt hstop.supply, ?_, ?_, hstop.mem, ?_⟩
  · show t.role = _
    rw [hstop.role, holdsCustody_of_role hrole, hrole]
  · refine regsKept_mono (regsKept_trans hread hstop.regs) fun a ha => ?_
    simp only [List.mem_append, List.mem_cons] at ha ⊢
    tauto
  · exact (congrArg (fun u : State => { u with
      regs := s.regs, resp := s.resp, pwr := { u.pwr with heldHot := s.pwr.heldHot, tempSeen := s.pwr.tempSeen }
      arc := { u.arc with ports := s.arc.ports } }) hstop.rest :)

/-! ### The coding plug and the tamper latch (R502, R568) -/

theorem plugFault (s : State) (dt : Nat) (hw : s.regsWf = true) (hon : s.lcs.phase ≠ .off) (hroom : PortRoom s 0x00) :
    ∃ t, exec (.sysPlugFault dt) s = .next t ∧
        t.bit Fld.SYS_PLUG_CHANGED = true ∧
        Offered 0x00 0x0101 5 60 [] s t ∧
        Leaves dt [Reg.SYS_PLUG] s t { t with arc := { t.arc with ports := s.arc.ports } } := by
  have hu : (s.elapse dt).regsWf = true := hw
  have hr : (written (s.elapse dt) [.bit Fld.SYS_PLUG_CHANGED true]).regs =
      (runAll (s.elapse dt) [.bit Fld.SYS_PLUG_CHANGED true]).regs := regs_written ..
  have hexec : exec (.sysPlugFault dt) s = .next (offer (written (s.elapse dt) [.bit Fld.SYS_PLUG_CHANGED true]) 0x00
      ⟨0x01, 0x0101, 5, 60, (s.elapse dt).time.mt, []⟩) := by
    have hset : (s.elapse dt).setB Fld.SYS_PLUG_CHANGED true = written (s.elapse dt) [.bit Fld.SYS_PLUG_CHANGED true] :=
      setB_eq_written ..
    refine congrArg Host.Outcome.next ((if_neg hon).trans ((congrArg (fun u : State => u.emit 0x00 0x0101 5 60 []) hset).trans ?_))
    exact emit_eq_offer (s := written (s.elapse dt) [.bit Fld.SYS_PLUG_CHANGED true]) hroom ..
  refine ⟨_, hexec, ?_, offered_of_ports rfl, regsKept_of_regs (s := s.elapse dt) hr (by simp [RegOp.words]), fun _ => rfl, rfl⟩
  refine (bit_of_regs hu hr _).trans ?_
  simp (disch := decide) [RegOp.see]

theorem tampered (s : State) (dt : Nat) (hw : s.regsWf = true) :
    ∃ t, exec (.tamperLatchSet dt) s = .next t ∧
        t.bit Fld.LCS_STATE_TAMPER = true ∧
        t.lcs.tamperLatch = true ∧
        Leaves dt [Reg.LCS_STATE] s t { t with lcs := { t.lcs with tamperLatch := s.lcs.tamperLatch } } := by
  have hset : (s.elapse dt).setB Fld.LCS_STATE_TAMPER true = written (s.elapse dt) [.bit Fld.LCS_STATE_TAMPER true] := setB_eq_written ..
  have hr : (written (s.elapse dt) [.bit Fld.LCS_STATE_TAMPER true]).regs =
      (runAll (s.elapse dt) [.bit Fld.LCS_STATE_TAMPER true]).regs := regs_written ..
  refine ⟨_, congrArg (fun u : State => Host.Outcome.next (u.modLcs fun l => { l with tamperLatch := true })) hset, ?_, rfl,
    regsKept_of_regs (s := s.elapse dt) hr (by simp [RegOp.words]), fun _ => rfl, rfl⟩
  refine (bit_of_regs (s := s.elapse dt) hw hr _).trans ?_
  simp (disch := decide) [RegOp.see]

end Sys2Proof.Proofs.PowerReadings

/-! A module reset: what every block is left with (R45, R165, R555). -/

namespace Sys2Proof.Proofs.ClearedBlocks

open Sys2Proof Sys2Proof.Machine Sys2Proof.Laws Sys2Proof.Proofs.Time Sys2Proof.Proofs.Power Sys2Proof.Proofs.RegOps
open Sys2Proof.Proofs.GarnetFrames Sys2Proof.Proofs.GarnetSessions Sys2Proof.Proofs.GarnetFaults
set_option Elab.async false

/-! ### The register file after a reset -/

/-- What a reset makes of an entry of the register file. -/
def resetEntry (x : Nat × Word) : Option (Nat × Word) :=
  if (x.2 &&& keepMask x.1) ||| (Config.resetWord x.1 &&& ~~~keepMask x.1) = Config.resetWord x.1 then none
  else some (x.1, (x.2 &&& keepMask x.1) ||| (Config.resetWord x.1 &&& ~~~keepMask x.1))

theorem resetRegs_eq (l : List (Nat × Word)) : resetRegs l = l.filterMap resetEntry := rfl

/-- An entry of which no bit survives goes. -/
theorem resetEntry_none {x : Nat × Word} (h : keepMask x.1 = 0) : resetEntry x = none := if_pos (by
  rw [h]
  exact (congrArg₂ (· ||| ·) BitVec.and_zero BitVec.and_allOnes).trans BitVec.zero_or)

theorem fst_of_resetEntry {x y : Nat × Word} (h : resetEntry x = some y) : y.1 = x.1 := by
  unfold resetEntry at h
  split at h
  · exact absurd h (by simp)
  · rw [← Option.some.inj h]

/-- A word of which no bit survives stands at its reset value. -/
theorem sget_resetRegs {a : Nat} (h : keepMask a = 0) (l : List (Nat × Word)) :
    sget Config.resetWord (resetRegs l) a = Config.resetWord a := by
  rw [resetRegs_eq]
  induction l with
  | nil => rfl
  | cons x l ih =>
    cases hx : resetEntry x with
    | none => rwa [List.filterMap_cons_none hx]
    | some y =>
      have hne : y.1 ≠ a := fun hy => by
        rw [resetEntry_none ((fst_of_resetEntry hx ▸ hy) ▸ h)] at hx
        exact absurd hx (by simp)
      rw [List.filterMap_cons_some hx, sget, if_neg hne]
      exact ih

theorem keepMask_pwrStatus : keepMask Reg.PWR_STATUS = 0 := by decide +kernel
theorem keepMask_rplStatus : keepMask Reg.RPL_STATUS = 0 := by decide +kernel
theorem resetWord_pwrStatus : Config.resetWord Reg.PWR_STATUS = 4096 := by decide +kernel
theorem resetWord_rplStatus : Config.resetWord Reg.RPL_STATUS = 0 := by decide +kernel

/-! ### Every block at its reset values -/

/-- The blocks at their reset values, before what shows the Archive, the count of starts and Garnet's interface. -/
def resetBase (s : State) : State := {
  pending := s.pending
  regs := resetRegs s.regs
  mem := s.mem
  freeCtr := s.freeCtr
  time := { clock := s.time.clock, mt := s.time.mt, edgeAt := s.time.edgeAt }
  arc := { seqs := s.arc.seqs, store := s.arc.store, freed := s.arc.freed, units := s.arc.units.map fun u => { u with placed := 0 }
           held := s.arc.held ++ s.arc.releasing.map fun x => (s.arc.nextUnit, x.2)
           nextUnit := s.arc.nextUnit, carry := true }
  prv := { staged := s.prv.staged, stored := s.prv.stored }
  gar := s.gar
  rts := { endedForces := s.rts.forces ++ s.rts.endedForces.filter fun x => !(s.rts.forces.any fun y => y.1 == x.1) }
  fio := fioReset s.stopRefresh.fio
  csc := { membersNext := s.csc.membersNext, sent := s.csc.sent }
  lcs := { s.lcs with phase := .lbist, startOnlyFail := false, classMismatch := false, running := none, busy := none
                      transition := [], started := false } }

/-- The starts in a row that did not complete (R511). -/
def failedStarts (s : State) : Nat :=
  min 3 (s.getF Fld.LCS_BOOTINFO_FAILSTARTS + if s.lcs.started || s.lcs.phase == .off then 0 else 1)

/-- What the blocks show before Garnet's interface is reset. -/
def blocksShown (s : State) : State :=
  ((resetBase s).setB Fld.FIO_CLASS_CLASS ((resetBase s).getF Fld.SYS_IDENT_CODE == 1)).showArc.setF Fld.LCS_BOOTINFO_FAILSTARTS
    (failedStarts s)

theorem clearBlocks_eq (s : State) : s.clearBlocks = (blocksShown s).garModuleReset := rfl

/-- Fields that a reset of the blocks shows: of field I/O, the Archive, the boot information and Garnet. -/
def Resetting (g : Field) : Prop := g.addr / 65536 ∈ [0x05, 0x07, 0x12] ∨ g = Fld.LCS_BOOTINFO_FAILSTARTS

theorem works_blocksShown (s : State) : Works Resetting bare (resetBase s) (blocksShown s) := by
  have hfio (u : State) (b : Bool) : Works Resetting bare u (u.setB Fld.FIO_CLASS_CLASS b) :=
    works_setB (by decide) (.inl (by decide)) b
  have harc (u : State) : Works Resetting bare u u.showArc := by
    have hunits (n : Nat) : Works Resetting bare u (u.setF Fld.ARC_STATUS_FREEUNITS n) := works_setF (by decide) (.inl (by decide)) n
    exact (hunits _).trans (works_setB (by decide) (.inl (by decide)) _)
  have hstarts (u : State) (n : Nat) : Works Resetting bare u (u.setF Fld.LCS_BOOTINFO_FAILSTARTS n) :=
    works_setF (by decide) (.inr rfl) n
  exact ((hfio _ _).trans (harc _)).trans (hstarts _ _)

/-! Garnet's interface (R156, R167, R173). -/

theorem garnet_resetting {g : Field} (h : Garnet g) : Resetting g := .inl (by
  rcases List.mem_cons.mp h with h | h
  · rw [h]
    decide
  · rw [List.mem_singleton.mp h]
    decide)

theorem works_reqFall (s : State) {x : Nat} (hx : x < 4) : Works Resetting beside s (s.reqFall x) := by
  have hline (u : State) : Works Resetting beside u (u.setB (Fld.GAR_OUTPUTS_REQ x) false) :=
    works_setB (by show 4 * x + 2 + 1 ≤ 32; omega) (.inl (by show Reg.GAR_OUTPUTS / 65536 ∈ _; decide)) false
  have hpermit (u : State) : Works Resetting beside u (u.setF (Fld.GAR_PERMSTAT_PSTATE x) 0) :=
    works_setF (by show 4 * x + 0 + 2 ≤ 32; omega) (.inl (by show Reg.GAR_PERMSTAT / 65536 ∈ _; decide)) 0
  have hpair (u : State) (f : GarPair → GarPair) : Works Resetting beside u (u.modPair x f) := (works_modPair _ f).beside_of_calm
  exact ((hline _).trans (hpermit _)).trans (hpair _ _)

theorem works_showStaged (s : State) : Works Resetting beside s s.showStaged := by
  refine works_foldl _ fun u x hx => ?_
  have hx : x < 4 := List.mem_range.mp hx
  exact works_setB (by show 4 * x + 2 + 1 ≤ 32; omega) (.inl (by show Reg.GAR_PERMSTAT / 65536 ∈ _; decide)) _

theorem works_garModuleReset (s : State) : Works Resetting beside s s.garModuleReset := by
  have hpairs : Works Resetting beside s ((List.range 4).foldl (fun s x => (s.endHold x 4).reqFall x) s) := by
    refine works_foldl _ fun u x hx => ?_
    have hhold : Works Resetting beside u (u.endHold x 4) :=
      ((works_endHold u x 4).mono fun _ h => garnet_resetting (garnet_of_archive h)).beside_of_calm
    exact hhold.trans (works_reqFall _ (List.mem_range.mp hx))
  have hsession (u : State) : Works Resetting beside u (if u.gar.session.isSome then u.endSession else u) := by
    refine works_ite ((works_endSession u).mono fun g h => ?_) (.refl u)
    rcases h with rfl | h
    · exact .inl (by decide)
    · exact garnet_resetting (garnet_of_archive h)
  have hclear (u : State) : Works Resetting beside u (u.modGar fun g => { g with staged := [], brkReq := [], toggled := 0, busy := none }) :=
    works_modGar _
  have hshow (u : State) : Works Resetting beside u u.garShow :=
    ((works_garShow_own u).mono fun g h => .inl (by rw [List.mem_singleton.mp h]; decide)).beside_of_bare
  exact ((hpairs.trans (hsession _)).trans ((hclear _).trans (hshow _))).trans (works_showStaged _)

/-- A reset of the blocks differs from their reset values in what they show. -/
theorem works_clearBlocks (s : State) : Works Resetting beside (resetBase s) s.clearBlocks :=
  (works_blocksShown s).beside_of_bare.trans (works_garModuleReset _)

theorem spared_resetting {f : Field} (hf : 0 < f.len ∧ f.lo + f.len ≤ 32) (hblk : f.addr / 65536 ∉ [0x05, 0x07, 0x12])
    (ha : f.addr ≠ Reg.LCS_BOOTINFO) : Spared Resetting f := ⟨hf, fun g hg => .inl fun h => by
  rcases hg with hg | rfl
  · exact hblk (h ▸ hg)
  · exact ha h⟩

section
variable {s : State} (hs : s.regsWf = true)
include hs

theorem wf_resetBase : (resetBase s).regsWf = true := regsWf_resetRegs hs

theorem wf_clearBlocks : s.clearBlocks.regsWf = true := (works_clearBlocks s).wf (wf_resetBase hs)

/-- A word of which no bit survives, and which nothing shows, stands at its reset value. -/
theorem rdw_clearBlocks {a : Nat} (hkeep : keepMask a = 0) (hblk : a / 65536 ∉ [0x05, 0x07, 0x12]) (ha : a ≠ Reg.LCS_BOOTINFO) :
    s.clearBlocks.rdw a = Config.resetWord a :=
  ((works_clearBlocks s).rdw (wf_resetBase hs) (spared_resetting ⟨Nat.zero_lt_succ _, Nat.le_refl 32⟩ hblk ha)).trans
    (sget_resetRegs hkeep s.regs)

end

/-- What a reset of the blocks leaves beside what it clears. -/
theorem beside_clearBlocks (s : State) : beside s.clearBlocks = beside (resetBase s) := (works_clearBlocks s).rest

/-! ### The ports of the Cascade switch go down (R427, R555) -/

/-- The words of the switch. -/
def Cascade (g : Field) : Prop := g.addr / 65536 = 0x11

/-- All but the registers and the switch. -/
def besideCsc (s : State) : State := { s with regs := [], csc := {} }

theorem works_cscPortsDown (s : State) : Works Cascade besideCsc s s.cscPortsDown := by
  have hlinks (u : State) : Works Cascade besideCsc u (u.setF ⟨Reg.CSC_STATUS, 8, 6⟩ 0) := works_setF (by decide) (by show Reg.CSC_STATUS / 65536 = 17; decide) 0
  have hmembers (u : State) : Works Cascade besideCsc u (u.wr Reg.CSC_MEMBERS 0) := works_wr (a := Reg.CSC_MEMBERS) (by show Reg.CSC_MEMBERS / 65536 = 17; decide) 0
  have hcsc (u : State) (f : CscSt → CscSt) : Works Cascade besideCsc u (u.modCsc f) := ⟨id, fun _ _ _ => rfl, rfl⟩
  refine (((hlinks s).trans (hmembers _)).trans (hcsc _ _)).trans (works_foldl _ fun u d hd => ?_)
  have hd : d < 2 := List.mem_range.mp hd
  exact works_wr (a := Reg.CSC_LINK d) (by show (0x110100 + d * 0x200) / 65536 = 17; omega) 0

theorem spared_cascade {f : Field} (hf : 0 < f.len ∧ f.lo + f.len ≤ 32) (hblk : f.addr / 65536 ≠ 0x11) : Spared Cascade f :=
  ⟨hf, fun _ hg => .inl fun h => hblk (h ▸ hg)⟩

/-! ### The orderly reset (R555) -/

/-- Every block is held in reset. -/
def heldInReset (s : State) : State :=
  (s.clearBlocks.cscPortsDown.modLcs fun l => { l with phase := .off }).modPwr fun p => { p with heldHot := s.pwr.heldHot }

theorem exec_orderlyReset {s : State} {dt since : Nat} (hat : s.pwr.nvStopAt = some since)
    (hdue : since + 4000000 ≤ (s.elapse dt).time.clock) : exec (.orderlyReset dt) s = .next (heldInReset (s.elapse dt)) := by
  have hlets : (s.elapse dt).pwr.nvStopAt = some since := hat
  refine congrArg Host.Outcome.next ?_
  dsimp only
  rw [hlets]
  exact if_neg (Nat.not_lt.mpr hdue)

/-- All but the registers, the switch, the Archive and Garnet. -/
def besideInterfaces (s : State) : State := { s with regs := [], csc := {}, arc := {}, gar := {} }

theorem works_portsDown (s : State) : Works (fun g => Resetting g ∨ Cascade g) besideInterfaces (resetBase s) s.clearBlocks.cscPortsDown := by
  have hclear : Works (fun g => Resetting g ∨ Cascade g) besideInterfaces (resetBase s) s.clearBlocks :=
    ((works_clearBlocks s).mono fun _ => .inl).coarsen fun _ => rfl
  have hdown (u : State) : Works (fun g => Resetting g ∨ Cascade g) besideInterfaces u u.cscPortsDown :=
    ((works_cscPortsDown u).mono fun _ => .inr).coarsen fun _ => rfl
  exact hclear.trans (hdown _)

theorem rdw_portsDown {s : State} (hs : s.regsWf = true) {a : Nat} (hkeep : keepMask a = 0) (hblk : a / 65536 ∉ [0x05, 0x07, 0x11, 0x12])
    (ha : a ≠ Reg.LCS_BOOTINFO) : s.clearBlocks.cscPortsDown.rdw a = Config.resetWord a := by
  have hout : a / 65536 ∉ [0x05, 0x07, 0x12] ∧ a / 65536 ≠ 0x11 := by
    simp only [List.mem_cons, List.not_mem_nil, or_false, not_or] at hblk ⊢
    tauto
  rw [(works_cscPortsDown _).rdw (wf_clearBlocks hs) (spared_cascade ⟨Nat.zero_lt_succ _, Nat.le_refl 32⟩ hout.2)]
  exact rdw_clearBlocks hs hkeep hout.1 ha

/-- A one-bit field of a word. -/
theorem bit_of_rdw {s : State} {f : Field} {v : Word} (h : s.rdw f.addr = v) (hf : f.lo + f.len ≤ 32) :
    s.bit f = (v.toNat / 2 ^ f.lo % 2 ^ f.len != 0) := by
  rw [State.bit, State.getF, if_pos hf, State.rd, h]

theorem orderlyReset (s : State) (dt : Nat) (hw : s.regsWf = true) (since : Nat) (hat : s.pwr.nvStopAt = some since)
    (hdue : since + 4000000 ≤ (s.elapse dt).time.clock) :
    ∃ t, exec (.orderlyReset dt) s = .next t ∧
        t.lcs.phase = .off ∧
        t.pwr.heldHot = s.pwr.heldHot ∧
        t.pwr.nvStopAt = none ∧
        t.triad = {} ∧
        t.bit Fld.PWR_STATUS_NV_STOP = false ∧
        t.custodyOn = false ∧
        MemKept s t ∧
        t.pending = s.pending := by
  have hworks := works_portsDown (s.elapse dt)
  have hstatus := rdw_portsDown (s := s.elapse dt) hw keepMask_pwrStatus (by decide) (by decide)
  have hrole := rdw_portsDown (s := s.elapse dt) hw keepMask_rplStatus (by decide) (by decide)
  have hexec := exec_orderlyReset (dt := dt) hat hdue
  unfold heldInReset at hexec
  generalize (s.elapse dt).clearBlocks.cscPortsDown = u at hworks hstatus hrole hexec
  refine ⟨_, hexec, rfl, rfl, ?_, ?_, ?_, ?_, ?_, ?_⟩
  · exact (congrArg (fun v : State => v.pwr.nvStopAt) hworks.rest :)
  · exact (congrArg State.triad hworks.rest :)
  · exact (bit_of_rdw (f := Fld.PWR_STATUS_NV_STOP) hstatus (by decide)).trans (by rw [resetWord_pwrStatus]; decide)
  · exact (bit_of_rdw (f := Fld.RPL_STATUS_ENABLE) hrole (by decide)).trans (by rw [resetWord_rplStatus]; decide)
  · exact fun a => (congrArg (fun v : State => v.memGet a) hworks.rest :)
  · exact (congrArg State.pending hworks.rest :)

/-- Settles O17: NV_STOP and over-temperature from what `nvStop` makes of a state, the orderly reset from what a reset of the blocks
leaves, and the readings from the words that they write. -/
theorem powerStop : Obligations.PowerStop := by
  intro s dt hs
  have hw : s.regsWf = true := (Bool.and_eq_true_iff.mp hs).1
  exact ⟨PowerReadings.nvStopped s dt hw, PowerReadings.overtemperature s dt hw, orderlyReset s dt hw, PowerReadings.warned s dt hw,
    PowerReadings.cooled s dt hw, PowerReadings.plugFault s dt hw, PowerReadings.tampered s dt hw⟩

end Sys2Proof.Proofs.ClearedBlocks

/-! Module resets: the start from the blocks at their reset values (R45, R52, R498, R500, R502, R547, R555, R574, R579). -/

namespace Sys2Proof.Proofs.ModuleResets

open Sys2Proof Sys2Proof.Machine Sys2Proof.Laws Sys2Proof.Proofs.Time Sys2Proof.Proofs.Power Sys2Proof.Proofs.RegOps
open Sys2Proof.Proofs.GarnetFrames Sys2Proof.Proofs.ClearedBlocks

/-! ### The steps of a reset -/

/-- A supply that was absent has lost DDR and the Vault (assumption 4). -/
def remembered (s : State) (cause : Nat) : State :=
  if cause = 0 then { s with mem := s.mem.filter fun x => decide (0x1001000000 ≤ x.1) } else s

/-- The blocks start, with module time from the backup clock. -/
def started (s : State) (cause : Nat) (env : ResetEnv) : State :=
  if cause = 0 then (s.clearBlocks.startTime env).cscPortsDown else s.clearBlocks.startTime env

/-- The reset shows its cause, and is reported. -/
def announced (s : State) (cause : Nat) : State :=
  (s.setF Fld.SYS_RESET_CAUSE cause).emit 0x00 0x0102 2 60 (p4 [cause] ++ p8 [s.rd64 Reg.PWR_LASTNVSTOP])

/-- The nonce, the life-cycle state and the backup supply. -/
def identified (s : State) (env : ResetEnv) (tamper : Bool) : State :=
  let s := (s.wr64 Reg.LCS_NONCE_LO env.nonceLo.toNat).wr64 Reg.LCS_NONCE_HI env.nonceHi.toNat
  let s := (s.setF Fld.LCS_STATE_STATE s.startState).setB Fld.LCS_STATE_TAMPER tamper
  let s := s.modLcs fun l => { l with tamperLatch := tamper }
  let s := (s.setF Fld.PWR_VBK_VCAP env.vcap).setF Fld.PWR_VBK_VBAK env.vbak
  let s := s.setB Fld.PWR_STATUS_VBAK_OK (decide (2500 ≤ env.vbak ∧ env.vbak ≤ 3600))
  s.setB Fld.PWR_STATUS_BKLOST (!env.bkKept)

/-- What was lost, and a tamper that is latched, are reported. -/
def reported (s : State) (env : ResetEnv) (tamper : Bool) : State :=
  let s := if env.bkKept then s else s.emit 0x16 0x1708 3 59 (p4 [env.vcap])
  if tamper then s.emit 0x15 0x1609 5 60 [] else s

theorem moduleReset_eq (s : State) (cause : Nat) (env : ResetEnv) : s.moduleReset cause env =
    ((reported (identified (announced (started (remembered s cause) cause env) cause) env (s.lcs.tamperLatch && env.bkKept)) env
      (s.lcs.tamperLatch && env.bkKept)).readPlug env.plug).reenableCats := rfl

/-! ### What the later steps write -/

/-- All that a statement of a reset looks at beside the registers. -/
def course (s : State) : State := { pending := s.pending, mem := s.mem, time := s.time, triad := s.triad, lcs := { phase := s.lcs.phase } }

/-- Fields of other words than those of module time, the life-cycle, the supply and the cause of the reset. -/
def Outer (g : Field) : Prop := g.addr / 65536 ∉ [0x01, 0x15, 0x16] ∧ g.addr ≠ Reg.SYS_RESET

theorem spared_outer {f : Field} (hf : 0 < f.len ∧ f.lo + f.len ≤ 32)
    (h : f.addr / 65536 ∈ [0x01, 0x15, 0x16] ∨ f.addr = Reg.SYS_RESET) : Spared Outer f := ⟨hf, fun _ ⟨hblk, ha⟩ => .inl fun heq =>
  h.elim (fun k => hblk (heq ▸ k)) fun k => ha (heq ▸ k)⟩

theorem outer_of_block {g : Field} {b : Nat} (h : g.addr / 65536 = b) (hb : b ∉ [0x00, 0x01, 0x15, 0x16]) : Outer g := by
  refine ⟨fun k => hb (List.mem_cons_of_mem _ (h ▸ k)), fun k => hb ?_⟩
  rw [← h, k]
  decide

theorem outer_archive {g : Field} (h : Archive g) : Outer g := outer_of_block h (by decide)

/-- A word of SYS from the coding plug on. -/
theorem outer_plug {g : Field} (h : 0x1C ≤ g.addr) (h' : g.addr < 0x10000) : Outer g := by
  refine ⟨fun k => ?_, by show g.addr ≠ 0x18; omega⟩
  rw [show g.addr / 65536 = 0 by omega] at k
  exact absurd k (by decide)

theorem outer_emit (s : State) {coll : Nat} (hcoll : coll < 64) (blk code sev : Nat) (payload : List Byte) :
    Works Outer course s (s.emit blk code sev coll payload) := works_emit (fun _ => outer_archive) hcoll ..

theorem outer_reported (s : State) (env : ResetEnv) (tamper : Bool) : Works Outer course s (reported s env tamper) := by
  have hlost : Works Outer course s (if env.bkKept then s else s.emit 0x16 0x1708 3 59 (p4 [env.vcap])) :=
    works_ite (.refl s) (outer_emit s (by decide) ..)
  exact works_ite (hlost.trans (outer_emit _ (by decide) ..)) hlost

theorem outer_cscPortsDown (s : State) : Works Outer course s s.cscPortsDown :=
  ((works_cscPortsDown s).mono fun _ h => outer_of_block h (by decide)).coarsen fun _ => rfl

section
variable {s : State}

theorem outer_setF {f : Field} (hf : f.lo + f.len ≤ 32) (h : Outer f) (v : Nat) : Works Outer course s (s.setF f v) := works_setF hf h v
theorem outer_wr {a : Nat} (h : Outer (word a)) (v : Nat) : Works Outer course s (s.wr a v) := works_wr h v

end

theorem outer_showPlug (s : State) (m : List Byte) : Works Outer course s (s.showPlug m) := by
  refine works_foldl _ fun u j hj => ?_
  have hj : j < 64 := List.mem_range.mp hj
  exact outer_wr (a := Reg.SYS_PLUGMEM + 4 * j)
    (outer_plug (by show 0x1C ≤ 0x100 + 4 * j; omega) (by show 0x100 + 4 * j < 0x10000; omega)) _

/-- The identity that a good plug tells. -/
def plugTold (s : State) (m : List Byte) (side pos node : Nat) : State :=
  let s := (((s.setF Fld.SYS_PLUG_SIDE side).setF Fld.SYS_PLUG_POS pos).wr Reg.SYS_NODE node).setF Fld.RPL_STATUS_SIDE side
  let s := ((s.setF Fld.CSC_STATUS_POS pos).setB Fld.CSC_STATUS_MASTER (pos == 0)).setF Fld.CSC_MEMBERS_VEC
    (s.getF Fld.CSC_MEMBERS_VEC ||| 2 ^ pos)
  (List.range 4).foldl (fun s j => s.wr (Reg.SYS_VEHICLE j) (leNat ((m.drop (12 + 4 * j)).take 4))) s

/-- A faulty plug. -/
def plugFaulty (s : State) : State :=
  (((s.cscPortsDown.setB Fld.CSC_STATUS_MASTER true).setF Fld.CSC_MEMBERS_VEC 1).setB Fld.SYS_PLUG_FAULT true).emit 0x00 0x0101 5 60 []

theorem readPlug_eq (s : State) (p : PlugRead) : s.readPlug p = match plugIdentity p with
    | some (side, pos, node) => plugTold (s.showPlug (p.memory.getD [])) (p.memory.getD []) side pos node
    | none => plugFaulty (s.showPlug (p.memory.getD [])) := rfl

theorem outer_plugTold (s : State) (m : List Byte) (side pos node : Nat) : Works Outer course s (plugTold s m side pos node) := by
  have hside (u : State) : Works Outer course u (u.setF Fld.SYS_PLUG_SIDE side) := outer_setF (by decide) (outer_plug (by decide) (by decide)) _
  have hpos (u : State) : Works Outer course u (u.setF Fld.SYS_PLUG_POS pos) := outer_setF (by decide) (outer_plug (by decide) (by decide)) _
  have hnode (u : State) : Works Outer course u (u.wr Reg.SYS_NODE node) := outer_wr (outer_plug (by decide) (by decide)) _
  have hrole (u : State) : Works Outer course u (u.setF Fld.RPL_STATUS_SIDE side) :=
    outer_setF (by decide) (outer_of_block (b := 0x13) (by decide) (by decide)) _
  have hcsc {f : Field} (hf : f.lo + f.len ≤ 32) (ha : f.addr / 65536 = 0x11) (u : State) (v : Nat) : Works Outer course u (u.setF f v) :=
    outer_setF hf (outer_of_block ha (by decide)) v
  have hmaster (u : State) : Works Outer course u (u.setB Fld.CSC_STATUS_MASTER (pos == 0)) := hcsc (by decide) (by decide) u _
  refine Works.trans (((hside _).trans (hpos _)).trans ((hnode _).trans (hrole _))) ?_
  refine (((hcsc (f := Fld.CSC_STATUS_POS) (by decide) (by decide) _ _).trans (hmaster _)).trans
    (hcsc (f := Fld.CSC_MEMBERS_VEC) (by decide) (by decide) _ _)).trans (works_foldl _ fun u j hj => ?_)
  have hj : j < 4 := List.mem_range.mp hj
  exact outer_wr (a := Reg.SYS_VEHICLE j)
    (outer_plug (by show 0x1C ≤ 0x30 + j * 4; omega) (by show 0x30 + j * 4 < 0x10000; omega)) _

theorem outer_plugFaulty (s : State) : Works Outer course s (plugFaulty s) := by
  have hcsc {f : Field} (hf : f.lo + f.len ≤ 32) (ha : f.addr / 65536 = 0x11) (u : State) (v : Nat) : Works Outer course u (u.setF f v) :=
    outer_setF hf (outer_of_block ha (by decide)) v
  have hmaster (u : State) : Works Outer course u (u.setB Fld.CSC_STATUS_MASTER true) := hcsc (by decide) (by decide) u _
  have hfault (u : State) : Works Outer course u (u.setB Fld.SYS_PLUG_FAULT true) :=
    outer_setF (by decide) (outer_plug (by decide) (by decide)) _
  exact ((((outer_cscPortsDown s).trans (hmaster _)).trans (hcsc (f := Fld.CSC_MEMBERS_VEC) (by decide) (by decide) _ 1)).trans
    (hfault _)).trans (outer_emit _ (by decide) ..)

theorem outer_readPlug (s : State) (p : PlugRead) : Works Outer course s (s.readPlug p) := by
  rw [readPlug_eq]
  split
  · exact (outer_showPlug s _).trans (outer_plugTold ..)
  · exact (outer_showPlug s _).trans (outer_plugFaulty _)

/-- A word of a catalogue's block. -/
theorem outer_catReg (b : CatBlk) (ofs : Nat) (h : ofs < 65536) : Outer (word (catReg b ofs)) := by
  refine outer_of_block (b := catIndex b) ?_ (by cases b <;> decide)
  show (catIndex b * 65536 + ofs) / 65536 = catIndex b
  omega

theorem outer_catEnable (s : State) (b : CatBlk) : Works Outer course s (s.catEnable b) := by
  have hen (u : State) : Works Outer course u (u.wr (catReg b 0x2C) 1) := outer_wr (outer_catReg b 0x2C (by decide)) 1
  have hcat (u : State) (f : CatSt → CatSt) : Works Outer course u (u.modCat b f) := ⟨id, fun _ _ _ => rfl, rfl⟩
  have hcount (u : State) (n : Nat) : Works Outer course u (u.add64 (catReg b 0x40) n) :=
    works_wr64 (outer_catReg b 0x40 (by decide)) (outer_catReg b 0x44 (by decide)) _
  exact works_ite (.refl s) (works_ite (hen s) ((hen s).trans ((hcat _ _).trans (hcount _ _))))

theorem outer_reenableCats (s : State) : Works Outer course s s.reenableCats := by
  refine works_foldl _ fun u b _ => works_ite ?_ (.refl u)
  have hclear : Works Outer course u (u.wr (catReg b 0x2C) 0) := outer_wr (outer_catReg b 0x2C (by decide)) 0
  exact hclear.trans (outer_catEnable _ b)

/-! ### The start of module time (R52, R556) -/

/-- Module time at the start. -/
def startMt (env : ResetEnv) : Nat := if env.bkKept then env.rtc % 18446744073709551616 else 0

def timeWrites (env : ResetEnv) : List RegOp :=
  [.bit Fld.TIM_STATUS_RTC_VALID env.bkKept, .pair Reg.PWR_BKCOUNT (if env.bkKept then env.bkCount else 0)]

/-- The clocks at the start. -/
def clocked (s : State) (env : ResetEnv) : State :=
  { s with
    time := { s.time with mt := startMt env, beat := startMt env / 250000, edgeAt := (startMt env / 250000 + 1) * 250000 }
    pwr := { s.pwr with bkAt := s.time.clock } }

theorem startTime_eq (s : State) (env : ResetEnv) : s.startTime env = written (clocked s env) (timeWrites env) := by
  have hset : s.startTime env = ((clocked s env).setB Fld.TIM_STATUS_RTC_VALID env.bkKept).wr64 Reg.PWR_BKCOUNT
      (if env.bkKept then env.bkCount else 0) := rfl
  rw [hset, setB_eq_written, wr64_eq_written, written_written]
  rfl

theorem regs_startTime (s : State) (env : ResetEnv) : (s.startTime env).regs = (runAll s (timeWrites env)).regs := by
  rw [startTime_eq]
  exact regs_written_of (s := s) (u := clocked s env) rfl _

theorem course_startTime (s : State) (env : ResetEnv) : course (s.startTime env) = course (clocked s env) := by
  rw [startTime_eq]
  rfl

theorem course_clocked {t u : State} (h : beside t = beside u) (env : ResetEnv) : course (clocked t env) = course (clocked u env) :=
  (congrArg (fun v : State => course (clocked v env)) h :)

section
variable {s : State} (hs : s.regsWf = true) (cause : Nat) (env : ResetEnv)

theorem course_started : course (started s cause env) = course (clocked (resetBase s) env) := by
  have hblocks : course (clocked s.clearBlocks env) = course (clocked (resetBase s) env) :=
    course_clocked (beside_clearBlocks s) env
  have htime := (course_startTime s.clearBlocks env).trans hblocks
  unfold started
  split
  · exact (outer_cscPortsDown _).rest.trans htime
  · exact htime

include hs

theorem started_facts : (started s cause env).regsWf = true ∧
    (started s cause env).bit Fld.TIM_STATUS_RTC_VALID = env.bkKept := by
  have hblocks := wf_clearBlocks hs
  have hwf : (s.clearBlocks.startTime env).regsWf = true := regsWf_of_regs hblocks (regs_startTime ..)
  have hbit : (s.clearBlocks.startTime env).bit Fld.TIM_STATUS_RTC_VALID = env.bkKept := by
    rw [bit_of_regs hblocks (regs_startTime ..)]
    simp (disch := decide) [timeWrites, RegOp.see]
  unfold started
  split
  · exact ⟨(outer_cscPortsDown _).wf hwf,
      ((outer_cscPortsDown _).bit hwf (spared_outer (by decide) (.inl (by decide)))).trans hbit⟩
  · exact ⟨hwf, hbit⟩

end

/-! ### The cause, the nonce, the life-cycle state and the backup supply -/

section
variable {s : State} (hs : s.regsWf = true) (cause : Nat) (env : ResetEnv) (tamper : Bool)

theorem works_announced (s : State) : Works Outer course (s.setF Fld.SYS_RESET_CAUSE cause) (announced s cause) :=
  outer_emit _ (by decide) ..

theorem course_announced (s : State) : course (announced s cause) = course s := by
  rw [(works_announced cause s).rest, setF_eq_written]
  rfl

/-- What a reset writes of its environment; `v` is the life-cycle state. -/
def envWrites (v : Nat) : List RegOp := [
  .pair Reg.LCS_NONCE_LO env.nonceLo.toNat, .pair Reg.LCS_NONCE_HI env.nonceHi.toNat, .field Fld.LCS_STATE_STATE v,
  .bit Fld.LCS_STATE_TAMPER tamper, .field Fld.PWR_VBK_VCAP env.vcap, .field Fld.PWR_VBK_VBAK env.vbak,
  .bit Fld.PWR_STATUS_VBAK_OK (decide (2500 ≤ env.vbak ∧ env.vbak ≤ 3600)), .bit Fld.PWR_STATUS_BKLOST (!env.bkKept)]

/-- Another state of the life-cycle. -/
def withLcs (s : State) (x : LcsSt) : State := { s with lcs := x }

theorem written_withLcs (s : State) (x : LcsSt) (l : List RegOp) : written (withLcs s x) l = withLcs (written s l) x :=
  written_of_regs (s := s) (u := withLcs s x) rfl l

theorem modLcs_written (s : State) (f : LcsSt → LcsSt) (l : List RegOp) :
    (written s l).modLcs f = withLcs (written s l) (f s.lcs) := rfl

theorem identified_eq (s : State) : ∃ v, identified s env tamper =
    withLcs (written s (envWrites env tamper v)) { s.lcs with tamperLatch := tamper } := by
  refine ⟨((s.wr64 Reg.LCS_NONCE_LO env.nonceLo.toNat).wr64 Reg.LCS_NONCE_HI env.nonceHi.toNat).startState, ?_⟩
  unfold identified
  simp only [wr64_eq_written, setF_eq_written, setB_eq_written, written_written, modLcs_written, written_withLcs]
  rfl

end

/-! ### What a reset leaves -/

/-- What a reset with a cause leaves, but for the memory. -/
structure ResetLeft (s : State) (cause : Nat) (env : ResetEnv) (t : State) : Prop where
  cause : t.getF Fld.SYS_RESET_CAUSE = cause
  phase : t.lcs.phase = .lbist
  mt : t.time.mt = if env.bkKept then env.rtc % 18446744073709551616 else 0
  rtc : t.bit Fld.TIM_STATUS_RTC_VALID = env.bkKept
  lost : t.bit Fld.PWR_STATUS_BKLOST = !env.bkKept
  backup : t.bit Fld.PWR_STATUS_VBAK_OK = decide (2500 ≤ env.vbak ∧ env.vbak ≤ 3600)
  vbak : t.getF Fld.PWR_VBK_VBAK = env.vbak % 65536
  nonceLo : t.rd64 Reg.LCS_NONCE_LO = env.nonceLo.toNat
  nonceHi : t.rd64 Reg.LCS_NONCE_HI = env.nonceHi.toNat
  tamper : t.bit Fld.LCS_STATE_TAMPER = (s.lcs.tamperLatch && env.bkKept)
  triad : t.triad = {}
  pending : t.pending = s.pending
  wf : t.regsWf = true

theorem ResetLeft.of_elapse {s t : State} {dt cause : Nat} {env : ResetEnv} (h : ResetLeft (s.elapse dt) cause env t) :
    ResetLeft s cause env t :=
  ⟨h.cause, h.phase, h.mt, h.rtc, h.lost, h.backup, h.vbak, h.nonceLo, h.nonceHi, h.tamper, h.triad, h.pending, h.wf⟩

section
variable {s : State} (hs : s.regsWf = true) (env : ResetEnv) (tamper : Bool)

/-- The state before what was lost is reported. -/
def identity (s : State) (cause : Nat) (env : ResetEnv) : State :=
  identified (announced (started (remembered s cause) cause env) cause) env (s.lcs.tamperLatch && env.bkKept)

theorem regs_identified (s : State) : ∃ v, (identified s env tamper).regs = (runAll s (envWrites env tamper v)).regs := by
  obtain ⟨v, heq⟩ := identified_eq env tamper s
  exact ⟨v, by rw [heq]; exact regs_written ..⟩

theorem course_identified (s : State) : course (identified s env tamper) = course s := by
  obtain ⟨v, heq⟩ := identified_eq env tamper s
  rw [heq]
  rfl

theorem works_moduleReset (s : State) (cause : Nat) : Works Outer course (identity s cause env) (s.moduleReset cause env) := by
  rw [moduleReset_eq]
  exact ((outer_reported _ env _).trans (outer_readPlug _ env.plug)).trans (outer_reenableCats _)

theorem course_identity (s : State) (cause : Nat) :
    course (identity s cause env) = course (clocked (resetBase (remembered s cause)) env) :=
  (course_identified env _ _).trans ((course_announced cause _).trans (course_started cause env))

theorem course_moduleReset (s : State) (cause : Nat) :
    course (s.moduleReset cause env) = course (clocked (resetBase (remembered s cause)) env) :=
  (works_moduleReset env s cause).rest.trans (course_identity env s cause)

theorem mem_of_course {t b : State} (h : course t = course (clocked (resetBase b) env)) : t.mem = b.mem := (congrArg State.mem h :)

theorem mem_moduleReset (s : State) (cause : Nat) : (s.moduleReset cause env).mem = (remembered s cause).mem :=
  mem_of_course env (course_moduleReset env s cause)

theorem regsWf_remembered (cause : Nat) (hs : s.regsWf = true) : (remembered s cause).regsWf = true := by
  unfold remembered
  split <;> exact hs

theorem pending_remembered (s : State) (cause : Nat) : (remembered s cause).pending = s.pending := by
  unfold remembered
  split <;> rfl

/-- The words of module time and of the cause, once the reset has been reported. -/
theorem announced_facts (hs : s.regsWf = true) {cause : Nat} (hcause : cause < 16) : (announced s cause).regsWf = true ∧
    (announced s cause).getF Fld.SYS_RESET_CAUSE = cause ∧
    (announced s cause).bit Fld.TIM_STATUS_RTC_VALID = s.bit Fld.TIM_STATUS_RTC_VALID := by
  have hset : (s.setF Fld.SYS_RESET_CAUSE cause).regsWf = true := regsWf_setF _ _ hs
  have hworks := works_announced cause s
  refine ⟨hworks.wf hset, ?_, ?_⟩
  · rw [hworks.reads hset _ (spared_outer (by decide) (.inr rfl)), getF_setF_self (by decide) _ hs]
    exact Nat.mod_eq_of_lt hcause
  · rw [hworks.bit hset (spared_outer (by decide) (.inl (by decide)))]
    exact congrArg (· != 0) (getF_setF_ne (by decide) (by decide) (by decide) _ hs)

/-- The steps after the announcement, over any state that has been announced. -/
theorem resetLeft_of {w u t b : State} {v cause : Nat} (hw : w.regsWf = true) (hcause : w.getF Fld.SYS_RESET_CAUSE = cause)
    (hrtc : w.bit Fld.TIM_STATUS_RTC_VALID = env.bkKept)
    (hr : u.regs = (runAll w (envWrites env (s.lcs.tamperLatch && env.bkKept) v)).regs) (hworks : Works Outer course u t)
    (hcourse : course t = course (clocked (resetBase b) env)) (hpending : b.pending = s.pending) : ResetLeft s cause env t := by
  have hu : u.regsWf = true := regsWf_of_regs hw hr
  have hbit {f : Field} (hf : 0 < f.len ∧ f.lo + f.len ≤ 32) (h : f.addr / 65536 ∈ [0x01, 0x15, 0x16]) : t.bit f = u.bit f :=
    hworks.bit hu (spared_outer hf (.inl h))
  have hword {a : Nat} (h : a / 65536 ∈ [0x01, 0x15, 0x16] ∧ (a + 4) / 65536 ∈ [0x01, 0x15, 0x16]) : t.rd64 a = u.rd64 a :=
    hworks.rd64 hu (spared_outer ⟨Nat.zero_lt_succ _, Nat.le_refl 32⟩ (.inl h.1))
      (spared_outer ⟨Nat.zero_lt_succ _, Nat.le_refl 32⟩ (.inl h.2))
  exact {
    cause := by
      rw [hworks.reads hu _ (spared_outer (by decide) (.inr rfl)), getF_of_regs hw hr]
      simp (disch := decide) [envWrites, RegOp.see]
      exact hcause
    phase := (congrArg (fun u : State => u.lcs.phase) hcourse :)
    mt := (congrArg (fun u : State => u.time.mt) hcourse :)
    rtc := by
      rw [hbit (by decide) (by decide), bit_of_regs hw hr]
      simp (disch := decide) [envWrites, RegOp.see]
      exact hrtc
    lost := by
      rw [hbit (by decide) (by decide), bit_of_regs hw hr]
      simp (disch := decide) [envWrites, RegOp.see]
    backup := by
      rw [hbit (by decide) (by decide), bit_of_regs hw hr]
      simp (disch := decide) [envWrites, RegOp.see]
    vbak := by
      rw [hworks.reads hu _ (spared_outer (by decide) (.inl (by decide))), getF_of_regs hw hr]
      simp (disch := decide) [envWrites, RegOp.see]
    nonceLo := by
      rw [hword (by decide), rd64_of_regs hw hr]
      simp (disch := decide) [envWrites, RegOp.see]
      exact env.nonceLo.isLt
    nonceHi := by
      rw [hword (by decide), rd64_of_regs hw hr]
      simp (disch := decide) [envWrites, RegOp.see]
      exact env.nonceHi.isLt
    tamper := by
      rw [hbit (by decide) (by decide), bit_of_regs hw hr]
      simp (disch := decide) [envWrites, RegOp.see]
    triad := (congrArg State.triad hcourse :)
    pending := (congrArg State.pending hcourse :).trans hpending
    wf := hworks.wf hu }

theorem resetLeft_moduleReset (hs : s.regsWf = true) {cause : Nat} (hcause : cause < 16) :
    ResetLeft s cause env (s.moduleReset cause env) := by
  obtain ⟨hstart, hrtc⟩ := started_facts (regsWf_remembered cause hs) cause env
  obtain ⟨hwf, hshown, hvalid⟩ := announced_facts hstart hcause
  obtain ⟨v, hr⟩ := regs_identified env (s.lcs.tamperLatch && env.bkKept)
    (announced (started (remembered s cause) cause env) cause)
  exact resetLeft_of env hwf hshown (hvalid.trans hrtc) hr (works_moduleReset env s cause) (course_moduleReset env s cause)
    (pending_remembered s cause)

end

/-- The readings of the supply and of the temperature leave what the reset has left. -/
theorem ResetLeft.kept {s t u : State} {cause : Nat} {env : ResetEnv} (h : ResetLeft s cause env t)
    (hwf : u.regsWf = true) (hregs : RegsKept [Reg.PWR_VIN, Reg.PWR_TEMP] t u) (hcourse : course u = course t) :
    ResetLeft s cause env u where
  wf := hwf
  cause := (getF_of_regsKept hregs (by decide) (by decide)).trans h.cause
  phase := (congrArg (fun u : State => u.lcs.phase) hcourse :).trans h.phase
  mt := (congrArg (fun u : State => u.time.mt) hcourse :).trans h.mt
  rtc := (bit_of_regsKept hregs (by decide) (by decide)).trans h.rtc
  lost := (bit_of_regsKept hregs (by decide) (by decide)).trans h.lost
  backup := (bit_of_regsKept hregs (by decide) (by decide)).trans h.backup
  vbak := (getF_of_regsKept hregs (by decide) (by decide)).trans h.vbak
  nonceLo := (rd64_of_regsKept hregs (by decide) (by decide)).trans h.nonceLo
  nonceHi := (rd64_of_regsKept hregs (by decide) (by decide)).trans h.nonceHi
  tamper := (bit_of_regsKept hregs (by decide) (by decide)).trans h.tamper
  triad := (congrArg State.triad hcourse :).trans h.triad
  pending := (congrArg State.pending hcourse :).trans h.pending

/-! ### The memory (R45, assumption 4) -/

theorem sget_filter_key {α : Type} (d : Nat → α) (p : Nat → Bool) (l : List (Nat × α)) (a : Nat) :
    sget d (l.filter fun x => p x.1) a = if p a = true then sget d l a else d a := by
  induction l with
  | nil => simp [sget]
  | cons x l ih =>
    obtain ⟨k, v⟩ := x
    by_cases hk : k = a
    · subst hk
      cases hp : p k with
      | true => simp [hp, sget]
      | false => simpa [hp] using ih
    · cases hp : p k with
      | true => simpa [hp, sget, hk] using ih
      | false => simpa [hp, sget, hk] using ih

section
variable {s t : State} {cause : Nat}

theorem memKept_of_cause (h : cause ≠ 0) (hmem : t.mem = (remembered s cause).mem) : MemKept s t := fun a => by
  rw [State.memGet, hmem, remembered, if_neg h, State.memGet]

theorem memGet_lost (hmem : t.mem = (remembered s 0).mem) (a : Nat) :
    t.memGet a = if 0x1001000000 ≤ a then s.memGet a else 0 := by
  rw [State.memGet, hmem, remembered, if_pos rfl]
  refine (sget_filter_key _ (fun a => decide (0x1001000000 ≤ a)) s.mem a).trans ?_
  simp only [decide_eq_true_eq]
  rfl

end

/-! ### The commands -/

section
variable (s : State) (dt : Nat) (hw : s.regsWf = true) (env : ResetEnv)

/-- A module reset whose cause may act. -/
theorem exec_moduleReset_powerApplied (h : s.pwr.heldHot = false) :
    exec (.moduleReset dt .powerApplied env) s = .next ((s.elapse dt).moduleReset 0 env) :=
  congrArg Host.Outcome.next (if_pos (by rw [show (s.elapse dt).pwr.heldHot = false from h]; rfl))

theorem exec_moduleReset_overTemp (h : s.pwr.heldHot = true) (hoff : s.lcs.phase = .off) :
    exec (.moduleReset dt .overTemp env) s = .next ((s.elapse dt).moduleReset 4 env) :=
  congrArg Host.Outcome.next (if_pos (by
    rw [show (s.elapse dt).pwr.heldHot = true from h, show (s.elapse dt).lcs.phase = .off from hoff]
    rfl))

theorem exec_moduleReset_conservator (h : s.cv.resetDue = true) :
    exec (.moduleReset dt .conservator env) s = .next ((s.elapse dt).moduleReset 3 env) := congrArg Host.Outcome.next (if_pos h)

theorem exec_moduleReset_orderly (h : s.pwr.heldHot = false) (hoff : s.lcs.phase = .off) :
    exec (.moduleReset dt .orderly env) s = .next ((s.elapse dt).moduleReset 1 env) :=
  congrArg Host.Outcome.next (if_pos (by
    rw [show (s.elapse dt).pwr.heldHot = false from h, show (s.elapse dt).lcs.phase = .off from hoff]
    rfl))

theorem exec_moduleReset_restart {busy : LcsBusy} (hbusy : s.lcs.busy = some busy) (hact : busy.act = .restart)
    (hresult : busy.result = 0) : exec (.moduleReset dt .restart env) s = .next ((s.elapse dt).moduleReset 2 env) :=
  congrArg Host.Outcome.next (if_pos (by
    dsimp only
    rw [show (s.elapse dt).lcs.busy = some busy from hbusy]
    dsimp only
    rw [hact, hresult]
    rfl))

theorem exec_powerApplied {vin : Nat} (hvin : 1600 ≤ vin) (h : s.pwr.heldHot = false) : exec (.powerApplied dt vin env) s =
    .next (((s.elapse dt).moduleReset (if s.lcs.phase = .off then 1 else 0) env).setF Fld.PWR_VIN_VIN vin) :=
  congrArg Host.Outcome.next (if_neg (by
    rw [show (s.elapse dt).pwr.heldHot = false from h]
    simpa using hvin))

theorem exec_overtempRelease {temp : Int} (htemp : temp < 900) (h : s.pwr.heldHot = true) (hoff : s.lcs.phase = .off) :
    exec (.overtempRelease dt temp env) s = .next (((s.elapse dt).moduleReset 4 env).setTemp temp) :=
  congrArg Host.Outcome.next (if_pos (by
    rw [show (s.elapse dt).pwr.heldHot = true from h, show (s.elapse dt).lcs.phase = .off from hoff]
    simpa using htemp))

/-- The reading of the temperature after a reset. -/
theorem setTemp_frame (s : State) (temp : Int) : RegsKept [Reg.PWR_VIN, Reg.PWR_TEMP] s (s.setTemp temp) ∧
    (s.regsWf = true → (s.setTemp temp).regsWf = true) ∧ course (s.setTemp temp) = course s ∧ (s.setTemp temp).mem = s.mem := by
  obtain ⟨top, hset⟩ := PowerReadings.setTemp_eq s temp
  rw [hset]
  exact ⟨regsKept_of_regs (regs_written_of (s := s) (u := PowerReadings.tempSeen s) rfl _)
    fun a ha => List.mem_cons_of_mem _ (PowerReadings.tempWrites_words top temp ha),
    fun hs => regsWf_of_regs hs (regs_written_of (s := s) (u := PowerReadings.tempSeen s) rfl _), rfl, rfl⟩

theorem setVin_frame (s : State) (vin : Nat) : RegsKept [Reg.PWR_VIN, Reg.PWR_TEMP] s (s.setF Fld.PWR_VIN_VIN vin) ∧
    course (s.setF Fld.PWR_VIN_VIN vin) = course s ∧ (s.setF Fld.PWR_VIN_VIN vin).mem = s.mem := by
  rw [setF_eq_written]
  exact ⟨regsKept_of_regs (regs_written s _) (by simp [RegOp.words]), rfl, rfl⟩

include hw

theorem powerApplied (vin : Nat) (hvin : 1600 ≤ vin) (hheld : s.pwr.heldHot = false) :
    ∃ t, exec (.powerApplied dt vin env) s = .next t ∧ ResetLeft s (if s.lcs.phase = .off then 1 else 0) env t ∧
      t.getF Fld.PWR_VIN_VIN = vin % 65536 ∧
      (∀ a, 0x1001000000 ≤ a → t.memGet a = s.memGet a) ∧
      (s.lcs.phase ≠ .off → ∀ a, a < 0x1001000000 → t.memGet a = 0) ∧
      (s.lcs.phase = .off → MemKept s t) := by
  have hcause : (if s.lcs.phase = .off then 1 else 0) < 16 := by split <;> decide
  have hleft := (resetLeft_moduleReset (s := s.elapse dt) env hw hcause).of_elapse
  have hmem := mem_moduleReset env (s.elapse dt) (if s.lcs.phase = .off then 1 else 0)
  have hexec := exec_powerApplied s dt env hvin hheld
  generalize (s.elapse dt).moduleReset (if s.lcs.phase = .off then 1 else 0) env = u at hleft hmem hexec
  obtain ⟨hregs, hcourse, hread⟩ := setVin_frame u vin
  have hreset := hleft.kept (regsWf_setF _ _ hleft.wf) hregs hcourse
  have hvalue : (u.setF Fld.PWR_VIN_VIN vin).getF Fld.PWR_VIN_VIN = vin % 65536 := getF_setF_self (by decide) _ hleft.wf
  by_cases hoff : s.lcs.phase = .off
  · rw [if_pos hoff] at hmem
    have hkept : MemKept s (u.setF Fld.PWR_VIN_VIN vin) := memKept_of_cause (cause := 1) (s := s.elapse dt) (by decide) (hread.trans hmem)
    exact ⟨_, hexec, hreset, hvalue, fun a _ => hkept a, fun h => absurd hoff h, fun _ => hkept⟩
  · rw [if_neg hoff] at hmem
    have hlost := memGet_lost (s := s.elapse dt) (hread.trans hmem)
    exact ⟨_, hexec, hreset, hvalue, fun a ha => (hlost a).trans (if_pos ha),
      fun _ a ha => (hlost a).trans (if_neg (Nat.not_le.mpr ha)), fun h => absurd h hoff⟩

theorem supplyLost (hheld : s.pwr.heldHot = false) :
    ∃ t, exec (.moduleReset dt .powerApplied env) s = .next t ∧ ResetLeft s 0 env t ∧
      (∀ a, 0x1001000000 ≤ a → t.memGet a = s.memGet a) ∧ (∀ a, a < 0x1001000000 → t.memGet a = 0) := by
  have hlost := memGet_lost (s := s.elapse dt) (mem_moduleReset env (s.elapse dt) 0)
  exact ⟨_, exec_moduleReset_powerApplied s dt env hheld, (resetLeft_moduleReset (s := s.elapse dt) env hw (by decide)).of_elapse,
    fun a ha => (hlost a).trans (if_pos ha), fun a ha => (hlost a).trans (if_neg (Nat.not_le.mpr ha))⟩

/-- Every other cause keeps the memory. -/
theorem resetKept {cause : Nat} (hne : cause ≠ 0) (hlt : cause < 16) :
    ResetLeft s cause env ((s.elapse dt).moduleReset cause env) ∧ MemKept s ((s.elapse dt).moduleReset cause env) :=
  ⟨(resetLeft_moduleReset (s := s.elapse dt) env hw hlt).of_elapse,
    memKept_of_cause (s := s.elapse dt) hne (mem_moduleReset env (s.elapse dt) cause)⟩

theorem released (temp : Int) (htemp : temp < 900) (hheld : s.pwr.heldHot = true) (hoff : s.lcs.phase = .off) :
    ∃ t, exec (.overtempRelease dt temp env) s = .next t ∧ ResetLeft s 4 env t ∧ MemKept s t := by
  obtain ⟨hleft, hkept⟩ := resetKept s dt hw env (cause := 4) (by decide) (by decide)
  have hexec := exec_overtempRelease s dt env htemp hheld hoff
  generalize (s.elapse dt).moduleReset 4 env = u at hleft hkept hexec
  obtain ⟨hregs, hwf, hcourse, hread⟩ := setTemp_frame u temp
  refine ⟨_, hexec, hleft.kept (hwf hleft.wf) hregs hcourse, fun a => ?_⟩
  rw [State.memGet, hread]
  exact hkept a

end

/-- Settles O18: each reset is the start of the blocks at their reset values, with its cause. -/
theorem moduleResets : Obligations.ModuleResets := by
  intro s dt hs
  have hw : s.regsWf = true := (Bool.and_eq_true_iff.mp hs).1
  have hkept (env : ResetEnv) {cause : Nat} (hne : cause ≠ 0) (hlt : cause < 16) := resetKept s dt hw env hne hlt
  refine ⟨fun vin env hvin hheld => ?_, fun env hheld => ?_, fun env hheld hoff => ?_, fun env hdue => ?_,
    fun env ⟨hoff, hheld⟩ => ?_, fun env busy hbusy hact hresult => ?_, fun temp env htemp hheld hoff => ?_⟩
  · obtain ⟨t, hexec, h, hvalue, hmem⟩ := powerApplied s dt hw env vin hvin hheld
    exact ⟨t, hexec, h.cause, h.phase, h.mt, h.rtc, h.lost, h.backup, h.vbak, h.nonceLo, h.nonceHi, h.tamper, h.triad, h.pending,
      hvalue, hmem⟩
  · obtain ⟨t, hexec, h, hmem⟩ := supplyLost s dt hw env hheld
    exact ⟨t, hexec, h.cause, h.phase, h.mt, h.rtc, h.lost, h.backup, h.vbak, h.nonceLo, h.nonceHi, h.tamper, h.triad, h.pending, hmem⟩
  · obtain ⟨h, hmem⟩ := hkept env (cause := 4) (by decide) (by decide)
    exact ⟨_, exec_moduleReset_overTemp s dt env hheld hoff, h.cause, h.phase, h.mt, h.rtc, h.lost, h.backup, h.vbak, h.nonceLo,
      h.nonceHi, h.tamper, h.triad, h.pending, hmem⟩
  · obtain ⟨h, hmem⟩ := hkept env (cause := 3) (by decide) (by decide)
    exact ⟨_, exec_moduleReset_conservator s dt env hdue, h.cause, h.phase, h.mt, h.rtc, h.lost, h.backup, h.vbak, h.nonceLo,
      h.nonceHi, h.tamper, h.triad, h.pending, hmem⟩
  · obtain ⟨h, hmem⟩ := hkept env (cause := 1) (by decide) (by decide)
    exact ⟨_, exec_moduleReset_orderly s dt env hheld hoff, h.cause, h.phase, h.mt, h.rtc, h.lost, h.backup, h.vbak, h.nonceLo,
      h.nonceHi, h.tamper, h.triad, h.pending, hmem⟩
  · obtain ⟨h, hmem⟩ := hkept env (cause := 2) (by decide) (by decide)
    exact ⟨_, exec_moduleReset_restart s dt env hbusy hact hresult, h.cause, h.phase, h.mt, h.rtc, h.lost, h.backup, h.vbak, h.nonceLo,
      h.nonceHi, h.tamper, h.triad, h.pending, hmem⟩
  · obtain ⟨t, hexec, h, hmem⟩ := released s dt hw env temp htemp hheld hoff
    exact ⟨t, hexec, h.cause, h.phase, h.mt, h.rtc, h.lost, h.backup, h.vbak, h.nonceLo, h.nonceHi, h.tamper, h.triad, h.pending, hmem⟩

end Sys2Proof.Proofs.ModuleResets

/-! Doorbell stores and the Loupe units that watch them (R37, R231, R232, R246, R419). -/

namespace Sys2Proof.Proofs.Doorbells

open Sys2Proof Sys2Proof.Machine Sys2Proof.Laws Sys2Proof.Proofs.Time Sys2Proof.Proofs.Power Sys2Proof.Proofs.RegOps

/-! ### What the Loupe units that watch a store fold (R419, R420) -/

/-- The words of a Loupe unit's running result. -/
def unitWords (u : Nat) : List Nat := two (Reg.LPE_RES u) ++ two (Reg.LPE_BYTES u)

/-- `t` differs from `s` in words of `ws` and in what the Loupe units hold; a unit that runs in `s` runs in `t`. -/
structure Watched (ws : List Nat) (s t : State) : Prop where
  regs : RegsKept ws s t
  wf : s.regsWf = true → t.regsWf = true
  runs : ∀ u, (tget s.lpe u).isSome = true → (tget t.lpe u).isSome = true
  rest : { t with regs := s.regs, lpe := s.lpe, lpeUnits := s.lpeUnits } = s

section
variable {ws : List Nat} {s t u : State}

theorem Watched.refl (ws : List Nat) (s : State) : Watched ws s s := ⟨fun _ _ => rfl, id, fun _ h => h, rfl⟩

theorem Watched.trans (h : Watched ws s t) (k : Watched ws t u) : Watched ws s u where
  regs a ha := (k.regs a ha).trans (h.regs a ha)
  wf hs := k.wf (h.wf hs)
  runs v hv := k.runs v (h.runs v hv)
  rest := by
    have hrest : { u with regs := s.regs, lpe := s.lpe, lpeUnits := s.lpeUnits } =
        { t with regs := s.regs, lpe := s.lpe, lpeUnits := s.lpeUnits } :=
      (congrArg (fun v : State => { v with regs := s.regs, lpe := s.lpe, lpeUnits := s.lpeUnits }) k.rest :)
    exact hrest.trans h.rest

theorem Watched.mem (h : Watched ws s t) : MemKept s t := fun a => (congrArg (fun v : State => v.memGet a) h.rest :)

/-- The state that watches, as a change of `s`. -/
theorem Watched.shape (h : Watched ws s t) : t = { s with regs := t.regs, lpe := t.lpe, lpeUnits := t.lpeUnits } :=
  (congrArg (fun v : State => { v with regs := t.regs, lpe := t.lpe, lpeUnits := t.lpeUnits }) h.rest :)

end

theorem isSome_tset {t : Tab (Option Nat)} {u v r : Nat} (h : (tget t v).isSome = true) : (tget (tset t u (some r)) v).isSome = true := by
  by_cases huv : u = v
  · rw [huv, tget_tset_self]
    rfl
  · rwa [tget_tset_ne _ huv]

/-- A running value of a unit. -/
def withValue (s : State) (u r : Nat) : State := { s with lpe := tset s.lpe u (some r) }

theorem lpeFold_eq (s : State) (u r : Nat) (bs : List Byte) : s.lpeFold u r bs =
    written (withValue s u (chkFold (s.lpeParam u) r bs))
      [.pair (Reg.LPE_RES u) (chkResult (s.lpeParam u) (chkFold (s.lpeParam u) r bs)), .count (Reg.LPE_BYTES u) bs.length] := by
  unfold State.lpeFold
  dsimp only
  rw [wr64_eq_written, add64_eq_written, written_written]
  rfl

theorem watched_lpeFold (s : State) (u r : Nat) (bs : List Byte) : Watched (unitWords u) s (s.lpeFold u r bs) := by
  rw [lpeFold_eq]
  generalize chkFold (s.lpeParam u) r bs = r'
  have hr := regs_written_of (s := s) (u := withValue s u r') rfl
    [.pair (Reg.LPE_RES u) (chkResult (s.lpeParam u) r'), .count (Reg.LPE_BYTES u) bs.length]
  exact ⟨regsKept_of_regs hr (by simp [unitWords, RegOp.words]), fun hs => regsWf_of_regs hs hr, fun _ h => isSome_tset h, rfl⟩

theorem watched_lpeMeet (s : State) (u r : Nat) (bs : List Byte) : Watched (unitWords u) s (s.lpeMeet u r bs) := by
  unfold State.lpeMeet
  split
  · exact watched_lpeFold s u r bs
  · exact ⟨fun _ _ => rfl, id, fun _ h => h, rfl⟩

/-- The words that a store may change through the units that watch it. -/
def watchWords (l : Tab (Option Nat)) : List Nat := l.flatMap fun x => unitWords x.1

theorem Watched.mono {ws vs : List Nat} {s t : State} (h : Watched ws s t) (hsub : ws ⊆ vs) : Watched vs s t :=
  ⟨regsKept_mono h.regs hsub, h.wf, h.runs, h.rest⟩

/-- One unit that watches a store. -/
def watchStep (a : Nat) (bs : List Byte) (s : State) (x : Nat × Option Nat) : State := match x.2 with
  | some r =>
    if s.getF (Fld.LPE_CFG_SRC x.1) = 0 ∧ !s.unitTested 0x10 x.1 then
      let lo := s.getF (Fld.LPE_WINBASE_BASE x.1)
      let hi := lo + s.getF (Fld.LPE_WINLEN_LEN x.1)
      let inside := (bs.zipIdx.filter fun b => decide (lo ≤ a + b.2 ∧ a + b.2 < hi)).map fun b => b.1
      if inside.isEmpty then s else s.lpeMeet x.1 r inside
    else s
  | none => s

theorem lpeWrite_eq (s : State) (a : Nat) (bs : List Byte) : s.lpeWrite a bs = s.lpe.foldl (watchStep a bs) s := rfl

theorem watched_watchStep (a : Nat) (bs : List Byte) (s : State) (x : Nat × Option Nat) :
    Watched (unitWords x.1) s (watchStep a bs s x) := by
  unfold watchStep
  split
  · split
    · dsimp only
      split
      · exact .refl _ s
      · exact watched_lpeMeet ..
    · exact .refl _ s
  · exact .refl _ s

theorem watched_foldl (a : Nat) (bs : List Byte) (l : Tab (Option Nat)) (s : State) :
    Watched (watchWords l) s (l.foldl (watchStep a bs) s) := by
  induction l generalizing s with
  | nil => exact .refl _ s
  | cons x l ih =>
    have hstep : Watched (watchWords (x :: l)) s (watchStep a bs s x) :=
      (watched_watchStep a bs s x).mono (List.subset_append_left ..)
    exact hstep.trans ((ih _).mono (List.subset_append_right ..))

theorem watched_lpeWrite (s : State) (a : Nat) (bs : List Byte) : Watched (watchWords s.lpe) s (s.lpeWrite a bs) :=
  watched_foldl a bs s.lpe s

theorem watchWords_subset (s : State) : watchWords s.lpe ⊆ storeWords s := fun _ ha => List.mem_append_right _ ha

theorem mem_unitWords {a u : Nat} (h : a ∈ unitWords u) : a = 0x100130 + u * 0x80 ∨ a = 0x100130 + u * 0x80 + 4 ∨
    a = 0x100148 + u * 0x80 ∨ a = 0x100148 + u * 0x80 + 4 := by
  simpa only [unitWords, List.mem_append, List.mem_cons, List.not_mem_nil, or_false, or_assoc] using h

/-- A word at another place of its 128 bytes than the results and the counts of Loupe units. -/
theorem notMem_watchWords {a : Nat} (h : a % 128 ∉ [0x30, 0x34, 0x48, 0x4C]) (l : Tab (Option Nat)) : a ∉ watchWords l := by
  intro ha
  obtain ⟨x, -, hx⟩ := List.mem_flatMap.mp ha
  have hplace := mem_unitWords hx
  simp only [List.mem_cons, List.not_mem_nil, or_false, not_or] at h
  omega

/-- A word below the block of the Loupe units. -/
theorem notMem_watchWords_of_lt {a : Nat} (h : a < 0x100130) (l : Tab (Option Nat)) : a ∉ watchWords l := by
  intro ha
  obtain ⟨x, -, hx⟩ := List.mem_flatMap.mp ha
  have hplace := mem_unitWords hx
  omega

section
variable {l : Tab (Option Nat)} {s t : State} (h : Watched (watchWords l) s t)
include h

theorem Watched.rdw {a : Nat} (ha : a < 0x100130 ∨ a % 128 ∉ [0x30, 0x34, 0x48, 0x4C]) : t.rdw a = s.rdw a :=
  h.regs a (ha.elim (notMem_watchWords_of_lt · l) (notMem_watchWords · l))

theorem Watched.rd {a : Nat} (ha : a < 0x100130 ∨ a % 128 ∉ [0x30, 0x34, 0x48, 0x4C]) : t.rd a = s.rd a :=
  congrArg BitVec.toNat (h.rdw ha)

theorem Watched.getF {f : Field} (hf : f.lo + f.len ≤ 32) (ha : f.addr < 0x100130 ∨ f.addr % 128 ∉ [0x30, 0x34, 0x48, 0x4C]) :
    t.getF f = s.getF f := by
  rw [State.getF, State.getF, if_pos hf, if_pos hf, h.rd ha]

theorem Watched.rd64 {a : Nat} (ha : a < 0x100130 ∨ a % 128 ∉ [0x30, 0x34, 0x48, 0x4C])
    (ha' : a + 4 < 0x100130 ∨ (a + 4) % 128 ∉ [0x30, 0x34, 0x48, 0x4C]) : t.rd64 a = s.rd64 a := by
  rw [State.rd64, State.rd64, h.rd ha, h.rd ha']

/-- A self-test is known by words that no unit folds into. -/
theorem Watched.unitTested (blk unit : Nat) : t.unitTested blk unit = s.unitTested blk unit := by
  unfold State.unitTested
  rw [h.getF (by decide) (.inr (by decide)), h.getF (by decide) (.inr (by decide)), h.getF (by decide) (.inr (by decide))]

end

/-! ### A store to a doorbell (R37, R231, R232, R246) -/

theorem leNat_leBytes_four {v : Nat} (h : v < 4294967296) : leNat (leBytes 4 v) = v := by
  simp only [leBytes, leNat, BitVec.toNat_ofNat]
  omega

theorem doorbell_slot {blk ofs : Nat} (hblk : blk < 27) (hofs : ofs < 256) :
    doorbell blk ofs / 0x10000 = 0x19 ∧ doorbell blk ofs % 0x10000 / 0x100 = blk ∧ doorbell blk ofs % 0x100 = ofs := by
  unfold doorbell
  omega

theorem wordsOf_doorbell {blk ofs : Nat} (hofs : ofs % 4 = 0) : State.wordsOf (doorbell blk ofs) 4 = [doorbell blk ofs] := by
  have hlast : (doorbell blk ofs + 4 - 1) / 4 - doorbell blk ofs / 4 + 1 = 1 := by
    unfold doorbell
    omega
  rw [State.wordsOf, hlast]
  show [(doorbell blk ofs / 4 + 0) * 4] = _
  rw [Nat.add_zero, Nat.div_mul_cancel]
  unfold doorbell
  omega

theorem regionOf_doorbell {blk ofs : Nat} (hblk : blk < 27) (hofs : ofs < 256) :
    ∃ b, regionOf (regPhys (doorbell blk ofs)) = some (.block b) := by
  have hlow : 0xF000000000 ≤ regPhys (doorbell blk ofs) := Nat.le_add_right ..
  have hhigh : regPhys (doorbell blk ofs) < 0xF0001B0000 := by
    show 0xF000000000 + (0x190000 + blk * 0x100 + ofs) < 0xF0001B0000
    omega
  unfold regionOf
  generalize regPhys (doorbell blk ofs) = a at hlow hhigh
  refine ⟨(a - 0xF000000000) / 0x10000, ?_⟩
  iterate 12 rw [if_neg (by omega)]
  exact if_pos hhigh

theorem parked_of_storesNow {s : State} {req : Requester} (h : StoresNow s req) (a : Nat) :
    (State.isApp req && s.mustPark (s.hartOf req.core) a) = false := by
  cases happ : State.isApp req with
  | false => rfl
  | true =>
    obtain ⟨-, hload, hparked⟩ := h.2 happ
    have hbehind : s.behindParked (s.hartOf req.core) = false := by
      rw [State.behindParked, List.any_eq_false]
      intro x hx
      simpa using List.all_eq_true.mp hparked x hx
    rw [State.mustPark, hbehind, hload, Bool.and_false]
    rfl

theorem prior_of_storesNow {s : State} {req : Requester} (h : StoresNow s req) : s.prior req = s := by
  unfold State.prior
  split
  case isTrue happ =>
    unfold State.drain
    rw [(h.2 happ).1]
  case isFalse => rfl

/-- A 32-bit store to a doorbell that the firewall lets pass. -/
theorem anyStore_doorbell {s : State} {req : Requester} (h : StoresNow s req) {blk ofs v : Nat} (hblk : blk < 27) (hofs : ofs < 256)
    (hfour : ofs % 4 = 0) (hfw : s.fwWrite req.cls (doorbell blk ofs) = true) (hv : v < 4294967296) :
    s.anyStore req (regPhys (doorbell blk ofs)) (leBytes 4 v) =
      ((s.lpeWrite (regPhys (doorbell blk ofs)) (leBytes 4 v)).dblEffect req.cls (doorbell blk ofs) v).respond 0 0 := by
  obtain ⟨b, hregion⟩ := regionOf_doorbell hblk hofs
  have hback : regPhys (doorbell blk ofs) - 0xF000000000 = doorbell blk ofs := Nat.add_sub_cancel_left ..
  have hany : ¬ ((State.wordsOf (doorbell blk ofs) (leBytes 4 v).length).any fun w => !s.fwWrite req.cls w) = true := by
    rw [show (leBytes 4 v).length = 4 from rfl, wordsOf_doorbell hfour]
    simp [hfw]
  have hdbl (u : State) : u.dblStore req.cls (doorbell blk ofs) (leBytes 4 v) = u.dblEffect req.cls (doorbell blk ofs) v := by
    rw [State.dblStore, if_pos (show (leBytes 4 v).length = 4 from rfl), leNat_leBytes_four hv]
  have hreg : s.regStore req (doorbell blk ofs) (leBytes 4 v) =
      ((s.lpeWrite (regPhys (doorbell blk ofs)) (leBytes 4 v)).dblEffect req.cls (doorbell blk ofs) v).respond 0 0 := by
    unfold State.regStore
    dsimp only
    rw [if_neg hany, if_pos (doorbell_slot hblk hofs).1, hdbl]
  have hbus : s.busWrite req (regPhys (doorbell blk ofs)) (leBytes 4 v) = s.regStore req (doorbell blk ofs) (leBytes 4 v) := by
    unfold State.busWrite
    rw [hregion]
    dsimp only
    rw [if_pos (show (leBytes 4 v).length ≤ 8 from Nat.le_add_right 4 4), hback]
  unfold State.anyStore
  rw [if_neg (by rw [h.1]; decide), if_neg (by rw [parked_of_storesNow h]; decide)]
  unfold State.storeNow
  rw [hregion]
  dsimp only
  rw [prior_of_storesNow h, hbus, hreg]

end Sys2Proof.Proofs.Doorbells

/-! Loupe units: enable, restart, a unit of data, disable (R419, R420, R421, R422, R426). -/

namespace Sys2Proof.Proofs.Loupe

open Sys2Proof Sys2Proof.Machine Sys2Proof.Laws Sys2Proof.Proofs.Time Sys2Proof.Proofs.Measurement Sys2Proof.Proofs.Power
open Sys2Proof.Proofs.RegOps Sys2Proof.Proofs.Doorbells

/-- A state with other running values and other units of data under way. -/
def withLoupe (s : State) (lpe : Tab (Option Nat)) (units : Tab LpeUnit) : State := { s with lpe, lpeUnits := units }

theorem written_withLoupe (s : State) (lpe : Tab (Option Nat)) (units : Tab LpeUnit) (l : List RegOp) :
    written (withLoupe s lpe units) l = withLoupe (written s l) lpe units := written_of_regs (s := s) (u := withLoupe s lpe units) rfl l

/-- The frame of a command that changes words of `ws` and what the Loupe units hold. -/
theorem leaves_withLoupe {s t : State} {dt : Nat} {l : List RegOp} {ws : List Nat} (hr : t.regs = (runAll s l).regs)
    (hsub : l.flatMap RegOp.words ⊆ ws) (hmem : MemKept s t)
    (hrest : { t with regs := s.regs, resp := s.resp, lpe := s.lpe, lpeUnits := s.lpeUnits } = s.elapse dt) :
    Leaves dt ws s t { t with lpe := s.lpe, lpeUnits := s.lpeUnits } := ⟨regsKept_of_regs hr hsub, hmem, hrest⟩

/-! ### The initial value is loaded (R421) -/

/-- The shown result of a running value. -/
def shownResult (s : State) (u r : Nat) : List RegOp := [.pair (Reg.LPE_RES u) (chkResult (s.lpeParam u) r)]

theorem lpeSet_eq (s : State) (u r : Nat) :
    s.lpeSet u r = written (withLoupe s (tset s.lpe u (some r)) s.lpeUnits) (shownResult s u r) := wr64_eq_written ..

/-- The unit takes only data that begins from now on. -/
def fresh (s : State) (u : Nat) : Tab LpeUnit := tset s.lpeUnits u { from_ := s.time.clock }

/-- A unit loads its initial value. -/
def loaded (s : State) (u : Nat) : State := (s.lpeSet u (s.lpeParam u).init).lpeFresh u

theorem loaded_eq (s : State) (u : Nat) : loaded s u = withLoupe (written s (shownResult s u (s.lpeParam u).init))
    (tset s.lpe u (some (s.lpeParam u).init)) (fresh s u) := by
  rw [loaded, lpeSet_eq, written_withLoupe]
  rfl

theorem loaded_regs (s : State) (u : Nat) : (loaded s u).regs = (runAll s (shownResult s u (s.lpeParam u).init)).regs := by
  rw [loaded_eq]
  exact regs_written ..

theorem lpe_loaded (s : State) (u : Nat) : tget (loaded s u).lpe u = some (s.lpeParam u).init := by
  rw [loaded_eq]
  exact tget_tset_self ..

/-- The parameters of a unit are known by words that a result leaves. -/
theorem lpeParam_of_regsKept {s t : State} {ws : List Nat} {u : Nat} (h : RegsKept ws s t)
    (hout : ∀ a ∈ [Reg.LPE_CFG u, Reg.LPE_POLY u, Reg.LPE_POLY u + 4, Reg.LPE_INIT u, Reg.LPE_INIT u + 4], a ∉ ws) :
    t.lpeParam u = s.lpeParam u := by
  simp only [List.mem_cons, List.not_mem_nil, or_false, forall_eq_or_imp, forall_eq] at hout
  obtain ⟨hcfg, hpoly, hpoly', hinit, hinit'⟩ := hout
  have hrd {a : Nat} (ha : a ∉ ws) : t.rd a = s.rd a := congrArg BitVec.toNat (h a ha)
  simp only [State.lpeParam, State.rd64, hrd hcfg, hrd hpoly, hrd hpoly', hrd hinit, hrd hinit']

/-- The words of the results of a unit are not those of its parameters. -/
theorem paramWords_out (u : Nat) {ws : List Nat} (hws : ∀ a ∈ ws, 0x100130 + u * 0x80 ≤ a) :
    ∀ a ∈ [Reg.LPE_CFG u, Reg.LPE_POLY u, Reg.LPE_POLY u + 4, Reg.LPE_INIT u, Reg.LPE_INIT u + 4], a ∉ ws := by
  intro a ha hmem
  have hlow := hws a hmem
  have hplace : a = 0x100100 + u * 0x80 ∨ a = 0x100108 + u * 0x80 ∨ a = 0x100108 + u * 0x80 + 4 ∨ a = 0x100110 + u * 0x80 ∨
      a = 0x100110 + u * 0x80 + 4 := by
    simpa only [List.mem_cons, List.not_mem_nil, or_false] using ha
  omega

theorem regsKept_loaded (s : State) (u : Nat) : RegsKept (two (Reg.LPE_RES u)) s (loaded s u) :=
  regsKept_of_regs (loaded_regs s u) (by simp [shownResult, RegOp.words])

theorem lpeParam_loaded (s : State) (u : Nat) : (loaded s u).lpeParam u = s.lpeParam u :=
  lpeParam_of_regsKept (regsKept_loaded s u) (paramWords_out u fun a ha => by
    have hplace : a = 0x100130 + u * 0x80 ∨ a = 0x100130 + u * 0x80 + 4 := by
      simpa only [List.mem_cons, List.not_mem_nil, or_false] using ha
    omega)

theorem result_loaded {s : State} (hs : s.regsWf = true) (u : Nat) : (loaded s u).rd64 (Reg.LPE_RES u) =
    chkResult (s.lpeParam u) (s.lpeParam u).init % 18446744073709551616 := by
  rw [rd64_of_regs hs (loaded_regs s u)]
  simp (disch := decide) [shownResult, RegOp.see]

/-! ### Enable (R421) -/

/-- The bits of LPE_CFG that a write takes. -/
def cfgTaken (value : Word) : Nat := value.toNat &&& 0xC7FF777F

theorem cfgTaken_lt (value : Word) : cfgTaken value < 4294967296 := Nat.lt_of_le_of_lt Nat.and_le_left value.isLt

theorem testBit_cfgTaken {value : Word} (h : value.toNat.testBit 31 = true) : (cfgTaken value).testBit 31 = true := by
  rw [cfgTaken, Nat.testBit_and, h]
  decide

/-- The configuration is written. -/
def configured (s : State) (u : Nat) (value : Word) : State := written s [.word (Reg.LPE_CFG u) (cfgTaken value)]

theorem configured_regs (s : State) (u : Nat) (value : Word) :
    (configured s u value).regs = (runAll s [.word (Reg.LPE_CFG u) (cfgTaken value)]).regs := regs_written ..

theorem exec_lpeEnable {s : State} {req : Requester} {u : Fin 8} {value : Word} (h : Lets s req (Reg.LPE_CFG u.val))
    (hidle : tget s.lpe u.val = none) (hen : value.toNat.testBit 31 = true) (hheld : s.heldDisabled 0x10 u.val = false) (dt : Nat) :
    exec (.lpeEnable dt req u value) s = .next ((loaded (configured (s.elapse dt) u.val value) u.val).respond 0 0) := by
  refine congrArg Host.Outcome.next ((regCmd_of_lets (lets_elapse h dt) fun s => s.lpeWriteCfg u.val value.toNat).trans ?_)
  refine congrArg (fun v : State => v.respond 0 0) ?_
  have hoff : ¬ (tget (s.elapse dt).lpe u.val).isSome = true := by
    rw [show (s.elapse dt).lpe = s.lpe from rfl, hidle]
    exact Bool.false_ne_true
  have hacts : (value.toNat &&& 0xC7FF777F).testBit 31 = true ∧ (!(s.elapse dt).heldDisabled 0x10 u.val) = true :=
    ⟨testBit_cfgTaken hen, by rw [show (s.elapse dt).heldDisabled 0x10 u.val = s.heldDisabled 0x10 u.val from rfl, hheld]; rfl⟩
  have hcfg : (s.elapse dt).wr (Reg.LPE_CFG u.val) (value.toNat &&& 0xC7FF777F) = configured (s.elapse dt) u.val value :=
    wr_eq_written ..
  unfold State.lpeWriteCfg
  dsimp only
  rw [if_neg hoff, if_pos hacts, hcfg]
  rfl

theorem enable (s : State) (dt : Nat) (hw : s.regsWf = true) (req : Requester) (u : Fin 8) (value : Word)
    (h : Lets s req (Reg.LPE_CFG u.val)) (hidle : tget s.lpe u.val = none) (hen : value.toNat.testBit 31 = true)
    (hheld : s.heldDisabled 0x10 u.val = false) :
    ∃ t, exec (.lpeEnable dt req u value) s = .next t ∧
        Answered t 0 0 ∧
        t.rd (Reg.LPE_CFG u.val) = value.toNat &&& 0xC7FF777F ∧
        tget t.lpe u.val = some (chkParam (value.toNat &&& 0xC7FF777F) (s.rd64 (Reg.LPE_POLY u.val)) (s.rd64 (Reg.LPE_INIT
          u.val))).init ∧
        t.rd64 (Reg.LPE_RES u.val) = chkResult (t.lpeParam u.val) (t.lpeParam u.val).init % 18446744073709551616 ∧
        Leaves dt (([Reg.LPE_CFG u.val] ++ two (Reg.LPE_RES u.val))) s t { t with lpe := s.lpe, lpeUnits := s.lpeUnits } := by
  have hu : (s.elapse dt).regsWf = true := hw
  have hcr := configured_regs (s.elapse dt) u.val value
  have hcw : (configured (s.elapse dt) u.val value).regsWf = true := regsWf_of_regs hu hcr
  have hcfg : (configured (s.elapse dt) u.val value).rd (Reg.LPE_CFG u.val) = cfgTaken value := by
    rw [rd_of_regs hu hcr]
    simpa (disch := decide) [RegOp.see] using cfgTaken_lt value
  have hkept : RegsKept [Reg.LPE_CFG u.val] s (configured (s.elapse dt) u.val value) :=
    regsKept_of_regs (s := s.elapse dt) hcr (by simp [RegOp.words])
  have hparam : (configured (s.elapse dt) u.val value).lpeParam u.val =
      chkParam (cfgTaken value) (s.rd64 (Reg.LPE_POLY u.val)) (s.rd64 (Reg.LPE_INIT u.val)) := by
    rw [State.lpeParam, hcfg, rd64_of_regsKept hkept (by grind) (by grind), rd64_of_regsKept hkept (by grind) (by grind)]
  have hload := regsKept_loaded (configured (s.elapse dt) u.val value) u.val
  refine ⟨_, exec_lpeEnable h hidle hen hheld dt, rfl, ?_, ?_, ?_, regsKept_trans hkept hload, ?_, ?_⟩
  · exact (congrArg BitVec.toNat (hload (Reg.LPE_CFG u.val) (by grind))).trans hcfg
  · exact (lpe_loaded ..).trans (by rw [hparam]; rfl)
  · have hp := lpeParam_loaded (configured (s.elapse dt) u.val value) u.val
    refine (result_loaded hcw u.val).trans ?_
    rw [← hp]
    rfl
  · rw [loaded_eq]
    exact fun _ => rfl
  · rw [loaded_eq]
    rfl

/-! ### Restart (R421, R426) -/

theorem bitsOf_single : ∀ u : Fin 8, bitsOf 8 (2 ^ u.val) = [u.val] ∧ (2 ^ u.val : Word).toNat = 2 ^ u.val := by decide

theorem loupeRestart_single {s : State} (u : Fin 8) (hrun : (tget s.lpe u.val).isSome = true)
    (htest : s.unitTested 0x10 u.val = false) : s.loupeRestart (2 ^ u.val) = loaded s u.val := by
  have hidle : [u.val].filter (fun u => s.unitTested 0x10 u) = [] := by simp [htest]
  unfold State.loupeRestart
  dsimp only
  rw [(bitsOf_single u).1, hidle]
  show s.lpeRestart (([u.val].filter fun _ => true).map (2 ^ ·)).sum = _
  have hsum : (([u.val].filter fun _ => true).map (2 ^ ·)).sum = 2 ^ u.val := by simp
  rw [hsum]
  unfold State.lpeRestart
  rw [(bitsOf_single u).1]
  exact if_pos hrun

theorem dblEffect_restart (s : State) (k : Cls) (v : Nat) : s.dblEffect k (doorbell 0x10 0x10) v = s.loupeRestart (v % 256) := rfl

theorem exec_lpeRestart {s : State} {req : Requester} {mask : Word} {u : Fin 8} (dt : Nat)
    (hfw : s.fwWrite req.cls (doorbell 0x10 0x10) = true) (hnow : StoresNow s req) (hidle : s.getF Fld.STE_STATUS_STATE = 0)
    (hmask : mask = 2 ^ u.val) (hrun : (tget s.lpe u.val).isSome = true) :
    exec (.lpeRestart dt req mask) s =
      .next ((loaded ((s.elapse dt).lpeWrite (regPhys (doorbell 0x10 0x10)) (leBytes 4 mask.toNat)) u.val).respond 0 0) := by
  have hstore : (s.elapse dt).anyStore req (regPhys (doorbell 0x10 0x10)) (leBytes 4 mask.toNat) = _ :=
    anyStore_doorbell (s := s.elapse dt) hnow (by decide) (by decide) (by decide) hfw mask.isLt
  have hwatch := watched_lpeWrite (s.elapse dt) (regPhys (doorbell 0x10 0x10)) (leBytes 4 mask.toNat)
  refine congrArg Host.Outcome.next (hstore.trans ?_)
  generalize (s.elapse dt).lpeWrite (regPhys (doorbell 0x10 0x10)) (leBytes 4 mask.toNat) = w at hwatch
  have htest : w.unitTested 0x10 u.val = false := by
    rw [hwatch.unitTested, State.unitTested, getF_elapse, hidle]
    rfl
  have hlow : mask.toNat % 256 = 2 ^ u.val := by
    rw [hmask, (bitsOf_single u).2]
    exact Nat.mod_eq_of_lt (Nat.pow_lt_pow_right (by decide) u.isLt)
  rw [dblEffect_restart, hlow, loupeRestart_single u (hwatch.runs u.val hrun) htest]

theorem restart (s : State) (dt : Nat) (hw : s.regsWf = true) (req : Requester) (mask : Word) (u : Fin 8)
    (hfw : s.fwWrite req.cls (doorbell 0x10 0x10) = true) (hnow : StoresNow s req) (hidle : s.getF Fld.STE_STATUS_STATE = 0)
    (hmask : mask = 2 ^ u.val) (hrun : (tget s.lpe u.val).isSome = true) :
    ∃ t, exec (.lpeRestart dt req mask) s = .next t ∧
        Answered t 0 0 ∧
        tget t.lpe u.val = some (s.lpeParam u.val).init ∧
        t.rd64 (Reg.LPE_RES u.val) = chkResult (s.lpeParam u.val) (s.lpeParam u.val).init % 18446744073709551616 ∧
        Leaves dt ((two (Reg.LPE_RES u.val) ++ storeWords s)) s t { t with lpe := s.lpe, lpeUnits := s.lpeUnits } := by
  have hexec := exec_lpeRestart dt hfw hnow hidle hmask hrun
  have hwatch := watched_lpeWrite (s.elapse dt) (regPhys (doorbell 0x10 0x10)) (leBytes 4 mask.toNat)
  generalize (s.elapse dt).lpeWrite (regPhys (doorbell 0x10 0x10)) (leBytes 4 mask.toNat) = w at hexec hwatch
  have hparam : w.lpeParam u.val = s.lpeParam u.val := lpeParam_of_regsKept (s := s.elapse dt) hwatch.regs fun a ha =>
    notMem_watchWords (by
      have hplace : a = 0x100100 + u.val * 0x80 ∨ a = 0x100108 + u.val * 0x80 ∨ a = 0x100108 + u.val * 0x80 + 4 ∨
          a = 0x100110 + u.val * 0x80 ∨ a = 0x100110 + u.val * 0x80 + 4 := by
        simpa only [List.mem_cons, List.not_mem_nil, or_false] using ha
      simp only [List.mem_cons, List.not_mem_nil, or_false, not_or]
      omega) _
  refine ⟨_, hexec, rfl, (lpe_loaded w u.val).trans (by rw [hparam]), (result_loaded (hwatch.wf hw) u.val).trans (by rw [hparam]),
    ?_, ?_, ?_⟩
  · refine regsKept_mono (regsKept_trans (s := s.elapse dt) hwatch.regs (regsKept_loaded w u.val)) fun a ha => ?_
    rcases List.mem_append.mp ha with ha | ha
    · exact List.mem_append_right _ (watchWords_subset s ha)
    · exact List.mem_append_left _ ha
  · rw [loaded_eq]
    exact hwatch.mem
  · rw [loaded_eq]
    exact (congrArg (fun v : State => { v with resp := s.resp }) hwatch.rest :)

/-! ### The end of a unit of data (R420) -/

/-- The bytes of a unit of data that its window takes. -/
def taken (s : State) (u : Nat) (unit : List Byte) : List Byte :=
  let rest := unit.drop (s.getF (Fld.LPE_SKIPSPAN_SKIP u))
  let span := s.getF (Fld.LPE_SKIPSPAN_SPAN u)
  if span = 0 then rest else rest.take span

/-- The result and the count of bytes. -/
def foldWrites (s : State) (u r n : Nat) : List RegOp := shownResult s u r ++ [.count (Reg.LPE_BYTES u) n]

/-- The result is kept, and the unit of data counted. -/
def keepWrites (w : State) (u : Nat) : List RegOp := [.pair (Reg.LPE_LAST u) (w.rd64 (Reg.LPE_RES u)), .count (Reg.LPE_UNITS u) 1]

/-- The value after the unit of data. -/
def unitValue (s : State) (u : Nat) (unit : List Byte) : Nat := chkFold (s.lpeParam u) (s.lpeParam u).init (taken s u unit)

def folded (s : State) (u : Nat) (unit : List Byte) : State := written s (foldWrites s u (unitValue s u unit) (taken s u unit).length)

def unitEnded (s : State) (u : Nat) (unit : List Byte) (units : Tab LpeUnit) : State :=
  withLoupe (written (folded s u unit) (keepWrites (folded s u unit) u)) (tset s.lpe u (some (unitValue s u unit))) units

theorem lpeUnit_eq (s : State) (u : Nat) (unit : List Byte) (units : Tab LpeUnit) :
    (withLoupe s s.lpe units).lpeUnit u unit = unitEnded s u unit units := by
  have hset : ((withLoupe s s.lpe units).lpeSet u (unitValue s u unit)).add64 (Reg.LPE_BYTES u) (taken s u unit).length =
      withLoupe (folded s u unit) (tset s.lpe u (some (unitValue s u unit))) units := by
    simp only [lpeSet_eq, add64_eq_written, written_withLoupe, written_written]
    rfl
  unfold State.lpeUnit
  refine (congrArg (fun v : State => (v.wr64 (Reg.LPE_LAST u) (v.rd64 (Reg.LPE_RES u))).inc64 (Reg.LPE_UNITS u)) hset).trans ?_
  rw [wr64_eq_written, inc64_eq_written, written_written, written_withLoupe]
  rfl

/-- The units of data under way once the first has ended. -/
def afterFirst (s : State) (u : Nat) (rest : List (List Byte)) : Tab LpeUnit := tmod s.lpeUnits u fun x => { x with passed := rest }

theorem exec_lpeUnitEnd {s : State} {u : Fin 8} {unit : List Byte} {rest : List (List Byte)} (dt : Nat)
    (hpassed : (tget s.lpeUnits u.val).passed = unit :: rest) (hrun : (tget s.lpe u.val).isSome = true) :
    exec (.lpeUnitEnd dt u unit) s = .next (unitEnded (s.elapse dt) u.val unit (afterFirst s u.val rest)) := by
  have hfirst : (tget (s.elapse dt).lpeUnits u.val).passed = unit :: rest := hpassed
  refine congrArg Host.Outcome.next ((if_pos (congrArg List.head? hfirst)).trans ?_)
  unfold State.lpeNext
  rw [hfirst]
  dsimp only
  refine (if_pos ?_).trans (lpeUnit_eq (s.elapse dt) u.val unit (afterFirst s u.val rest))
  exact hrun

theorem unitEnd (s : State) (dt : Nat) (hw : s.regsWf = true) (u : Fin 8) (unit part : List Byte) (rest : List (List Byte))
    (hpassed : (tget s.lpeUnits u.val).passed = unit :: rest) (hrun : (tget s.lpe u.val).isSome = true)
    (hpart : part = (if s.getF (Fld.LPE_SKIPSPAN_SPAN u.val) = 0 then unit.drop (s.getF (Fld.LPE_SKIPSPAN_SKIP u.val)) else
        (unit.drop (s.getF (Fld.LPE_SKIPSPAN_SKIP u.val))).take (s.getF (Fld.LPE_SKIPSPAN_SPAN u.val)))) :
    ∃ t, exec (.lpeUnitEnd dt u unit) s = .next t ∧
        t.rd64 (Reg.LPE_RES u.val) = chkResult (s.lpeParam u.val) (chkFold (s.lpeParam u.val) (s.lpeParam u.val).init part) %
          18446744073709551616 ∧
        t.rd64 (Reg.LPE_LAST u.val) = t.rd64 (Reg.LPE_RES u.val) ∧
        Counted (Reg.LPE_BYTES u.val) part.length s t ∧
        Counted (Reg.LPE_UNITS u.val) 1 s t ∧
        (tget t.lpeUnits u.val).passed = rest ∧
        Leaves dt ((two (Reg.LPE_RES u.val) ++ two (Reg.LPE_LAST u.val) ++ two (Reg.LPE_BYTES u.val) ++ two (Reg.LPE_UNITS
          u.val))) s t { t with lpe := s.lpe, lpeUnits := s.lpeUnits } := by
  obtain rfl : part = taken (s.elapse dt) u.val unit := hpart
  have hu : (s.elapse dt).regsWf = true := hw
  have hfr : (folded (s.elapse dt) u.val unit).regs = (runAll (s.elapse dt) (foldWrites (s.elapse dt) u.val
      (unitValue (s.elapse dt) u.val unit) (taken (s.elapse dt) u.val unit).length)).regs := regs_written ..
  have hr : (unitEnded (s.elapse dt) u.val unit (afterFirst s u.val rest)).regs = (runAll (s.elapse dt) (foldWrites (s.elapse dt) u.val
      (unitValue (s.elapse dt) u.val unit) (taken (s.elapse dt) u.val unit).length ++
      keepWrites (folded (s.elapse dt) u.val unit) u.val)).regs := by
    rw [← regs_written, ← written_written]
    rfl
  have hres : (folded (s.elapse dt) u.val unit).rd64 (Reg.LPE_RES u.val) =
      chkResult ((s.elapse dt).lpeParam u.val) (unitValue (s.elapse dt) u.val unit) % 18446744073709551616 := by
    rw [rd64_of_regs hu hfr]
    simp (disch := grind) [foldWrites, shownResult, RegOp.see]
  have hend : (unitEnded (s.elapse dt) u.val unit (afterFirst s u.val rest)).rd64 (Reg.LPE_RES u.val) =
      chkResult ((s.elapse dt).lpeParam u.val) (unitValue (s.elapse dt) u.val unit) % 18446744073709551616 := by
    rw [rd64_of_regs hu hr]
    simp (disch := grind) [foldWrites, keepWrites, shownResult, RegOp.see]
  refine ⟨_, exec_lpeUnitEnd dt hpassed hrun, hend, ?_, ?_, ?_, ?_, regsKept_of_regs (s := s.elapse dt) hr ?_, fun _ => rfl, rfl⟩
  · rw [hend, rd64_of_regs hu hr]
    simp (disch := grind) [foldWrites, keepWrites, shownResult, RegOp.see, hres]
  · rw [Counted, rd64_of_regs hu hr]
    simp (disch := grind) [foldWrites, keepWrites, shownResult, RegOp.see]
  · rw [Counted, rd64_of_regs hu hr]
    simp (disch := grind) [foldWrites, keepWrites, shownResult, RegOp.see]
  · exact (congrArg LpeUnit.passed (tget_tmod_self s.lpeUnits u.val fun x => { x with passed := rest }) :)
  · simp [foldWrites, keepWrites, shownResult, RegOp.words]

/-! ### Disable (R421) -/

/-- A unit is disabled. -/
def disabled (s : State) (u : Nat) : State :=
  withLoupe (written s [.bit (Fld.LPE_CFG_EN u) false]) (tset s.lpe u none) (fresh s u)

theorem exec_lpeDisable {s : State} {req : Requester} {u : Fin 8} (h : Lets s req (Reg.LPE_CFG u.val))
    (hrun : (tget s.lpe u.val).isSome = true) (dt : Nat) :
    exec (.lpeDisable dt req u) s = .next ((disabled (s.elapse dt) u.val).respond 0 0) := by
  refine congrArg Host.Outcome.next ((regCmd_of_lets (lets_elapse h dt) fun s =>
    if (tget s.lpe u.val).isSome then s.lpeWriteCfg u.val 0 else s).trans ?_)
  refine congrArg (fun v : State => v.respond 0 0) ((if_pos hrun).trans ?_)
  unfold State.lpeWriteCfg
  rw [if_pos (show (tget (s.elapse dt).lpe u.val).isSome = true from hrun), if_neg (by decide)]
  have hset : (withLoupe (s.elapse dt) (tset (s.elapse dt).lpe u.val none) (s.elapse dt).lpeUnits).setB (Fld.LPE_CFG_EN u.val) false =
      withLoupe (written (s.elapse dt) [.bit (Fld.LPE_CFG_EN u.val) false]) (tset (s.elapse dt).lpe u.val none)
        (s.elapse dt).lpeUnits := by
    rw [setB_eq_written, written_withLoupe]
  exact congrArg (fun v : State => v.lpeFresh u.val) hset

theorem disable (s : State) (dt : Nat) (hw : s.regsWf = true) (req : Requester) (u : Fin 8) (h : Lets s req (Reg.LPE_CFG u.val))
    (hrun : (tget s.lpe u.val).isSome = true) :
    ∃ t, exec (.lpeDisable dt req u) s = .next t ∧
        Answered t 0 0 ∧
        tget t.lpe u.val = none ∧
        t.bit (Fld.LPE_CFG_EN u.val) = false ∧
        Leaves dt [Reg.LPE_CFG u.val] s t { t with lpe := s.lpe, lpeUnits := s.lpeUnits } := by
  have hr : (written (s.elapse dt) [.bit (Fld.LPE_CFG_EN u.val) false]).regs =
      (runAll (s.elapse dt) [.bit (Fld.LPE_CFG_EN u.val) false]).regs := regs_written ..
  refine ⟨_, exec_lpeDisable h hrun dt, rfl, tget_tset_self .., ?_, regsKept_of_regs (s := s.elapse dt) hr (by simp [RegOp.words]),
    fun _ => rfl, rfl⟩
  refine (bit_of_regs (s := s.elapse dt) hw hr _).trans ?_
  simp (disch := simp) [RegOp.see]

/-- Settles O33: each clause from the register program of its command, and the restart through the store to the doorbell. -/
theorem loupe : Obligations.Loupe := by
  intro s dt hs
  have hw : s.regsWf = true := (Bool.and_eq_true_iff.mp hs).1
  exact ⟨enable s dt hw, restart s dt hw, unitEnd s dt hw, disable s dt hw⟩

end Sys2Proof.Proofs.Loupe

/-! Catalogues: enable, invalidate, and the reads of their entries (R32 to R36). -/

namespace Sys2Proof.Proofs.Catalogues

open Sys2Proof Sys2Proof.Machine Sys2Proof.Laws Sys2Proof.Proofs.Time Sys2Proof.Proofs.Measurement Sys2Proof.Proofs.Power
open Sys2Proof.Proofs.RegOps Sys2Proof.Proofs.Doorbells

/-- A state with other catalogues. -/
def withCats (s : State) (cats : Tab CatSt) : State := { s with cats }

theorem written_withCats (s : State) (cats : Tab CatSt) (l : List RegOp) : written (withCats s cats) l = withCats (written s l) cats :=
  written_of_regs (s := s) (u := withCats s cats) rfl l

/-- A catalogue changes. -/
def catsWith (s : State) (b : CatBlk) (f : CatSt → CatSt) : Tab CatSt := tmod s.cats (catIndex b) f

theorem cat_withCats (s u : State) (b : CatBlk) (f : CatSt → CatSt) : (withCats u (catsWith s b f)).cat b = f (s.cat b) :=
  tget_tmod_self ..

/-- The words of a catalogue's block that a change of another leaves. -/
theorem catReg_lt (b : CatBlk) {ofs : Nat} (h : ofs < 65536) : catReg b ofs < 0x100130 := by
  have hidx : catIndex b ≤ 0x0E := by cases b <;> decide
  unfold catReg
  omega

/-! ### What the reads of entries depend on -/

/-- Where a catalogue lies and how many entries it has. -/
theorem cat_of_rd {s t : State} {b : CatBlk} (hmem : t.mem = s.mem)
    (hrd : ∀ ofs ∈ [0x20, 0x24, 0x28], t.rd (catReg b ofs) = s.rd (catReg b ofs)) :
    t.catCount b = s.catCount b ∧ t.catInDdr b = s.catInDdr b ∧ t.catRead b = s.catRead b ∧ t.catAddr b = s.catAddr b := by
  have haddr : t.catAddr b = s.catAddr b := funext fun i => by
    rw [State.catAddr, State.catAddr, hrd 0x20 (by decide), hrd 0x24 (by decide)]
  refine ⟨?_, ?_, ?_, haddr⟩
  · rw [State.catCount, State.catCount, hrd 0x28 (by decide)]
  · funext i
    rw [State.catInDdr, State.catInDdr, haddr]
  · funext i
    rw [State.catRead, State.catRead, haddr]
    simp only [State.memRead, State.memGet, hmem]

/-- A doorbell of a catalogue is refused by words that no Loupe unit folds into. -/
theorem Watched.catRefuses {l : Tab (Option Nat)} {s t : State} (h : Watched (watchWords l) s t) (k : Cls) (b : CatBlk) (i : Nat) :
    t.catRefuses k b i = s.catRefuses k b i := by
  obtain ⟨r, lpe, units, rfl⟩ : ∃ r lpe units, t = { s with regs := r, lpe := lpe, lpeUnits := units } := ⟨_, _, _, h.shape⟩
  have hcat (b : CatBlk) := cat_of_rd (s := s) (t := { s with regs := r, lpe := lpe, lpeUnits := units }) (b := b) rfl fun ofs hofs =>
    h.rd (.inl (catReg_lt b (by
      simp only [List.mem_cons, List.not_mem_nil, or_false] at hofs
      omega)))
  generalize ht : ({ s with regs := r, lpe := lpe, lpeUnits := units } : State) = t at *
  have hnew (b : CatBlk) : t.catNew b = s.catNew b := funext fun i => by
    rw [State.catNew, State.catNew, (hcat b).2.1, (hcat b).2.2.1]
  have hstate (c : Nat) : t.getF (Fld.WAL_STATUS_STATE c) = s.getF (Fld.WAL_STATUS_STATE c) := by
    have hlow : Reg.WAL_STATUS < 0x100130 ∧ Reg.WAL_STATUS + 4 < 0x100130 := by decide
    rw [State.getF, State.getF, h.rd (a := Reg.WAL_STATUS) (.inl hlow.1), h.rd64 (a := Reg.WAL_STATUS) (.inl hlow.1) (.inl hlow.2)]
  have hentry (b : CatBlk) : t.catEntry b = s.catEntry b := by
    rw [← ht]
    rfl
  have hstaged (b : CatBlk) : t.cat b = s.cat b := by
    rw [← ht]
    rfl
  have hseq : t.effectSeq = s.effectSeq := by
    rw [← ht]
    rfl
  have hplanned : t.trdpPlanned = s.trdpPlanned := funext fun j => by
    rw [State.trdpPlanned, State.trdpPlanned, hstaged, hnew, hentry]
  have hwal : t.walRefuses i = s.walRefuses i := by rw [State.walRefuses, State.walRefuses, hstate, hnew, hentry]
  have hhost : t.trdpHost1 i = s.trdpHost1 i := by rw [State.trdpHost1, State.trdpHost1, hnew, hentry]
  have hmany : t.trdpTooMany i = s.trdpTooMany i := by
    rw [State.trdpTooMany, State.trdpTooMany, hnew, hstaged, hplanned]
  rw [State.catRefuses, State.catRefuses, (hcat b).1, hstaged, hseq, hwal, hhost, hmany]

/-! ### Enable (R17, R32) -/

/-- The entries read at an enable. -/
theorem tget_foldl_tset {α : Type} [Inhabited α] [DecidableEq α] (f : Nat → α) (l : List Nat) (g : Tab α) {i : Nat}
    (h : i ∈ l ∨ tget g i = f i) : tget (l.foldl (fun g i => tset g i (f i)) g) i = f i := by
  induction l generalizing g with
  | nil => exact h.resolve_left List.not_mem_nil
  | cons j l ih =>
    refine ih _ ?_
    by_cases hij : j = i
    · subst hij
      exact .inr (tget_tset_self ..)
    · rcases h with h | h
      · exact .inl ((List.mem_cons.mp h).resolve_left (Ne.symm hij))
      · exact .inr ((tget_tset_ne g hij _).trans h)

/-- What an enable writes, and the reads that it starts. -/
def enableWrites (s : State) (b : CatBlk) : List RegOp :=
  [.word (catReg b 0x2C) 1, .count (catReg b 0x40) ((List.range (s.catCount b)).filter fun i => !s.catInDdr b i).length]

def reading (s : State) (b : CatBlk) : CatSt → CatSt := fun c => { c with
  enabling := some s.effectSeq
  toRead := (List.range (s.catCount b)).filter (s.catInDdr b)
  gotten := ((List.range (s.catCount b)).filter (s.catInDdr b)).foldl (fun g i => tset g i (s.catRead b i)) [] }

def enabled (s : State) (b : CatBlk) : State := withCats (written s (enableWrites s b)) (catsWith s b (reading s b))

theorem catEnable_of_idle {s : State} {b : CatBlk} (hoff : s.rd (catReg b 0x2C) % 2 = 0) (hheld : s.heldDisabled (catIndex b) 0 = false)
    (hcount : s.catCount b ≠ 0) : s.catEnable b = enabled s b := by
  have hacts : ¬ (s.rd (catReg b 0x2C) % 2 = 1 ∨ s.heldDisabled (catIndex b) 0 = true) := by
    rw [hoff, hheld]
    decide
  have hrd : ∀ ofs ∈ [0x20, 0x24, 0x28], (written s [.word (catReg b 0x2C) 1]).rd (catReg b ofs) = s.rd (catReg b ofs) := fun ofs hofs => by
    rw [← wr_eq_written, rd_wr_ne]
    unfold catReg
    simp only [List.mem_cons, List.not_mem_nil, or_false] at hofs
    omega
  obtain ⟨hcount', hddr, hread, -⟩ := cat_of_rd (s := s) (t := written s [.word (catReg b 0x2C) 1]) rfl hrd
  have hfound : (s.wr (catReg b 0x2C) 1) = written s [.word (catReg b 0x2C) 1] := wr_eq_written ..
  unfold State.catEnable
  rw [if_neg hacts]
  dsimp only
  rw [hfound, hcount', if_neg hcount, List.partition_eq_filter_filter, hddr, hread, add64_eq_written]
  refine (written_withCats (written s [.word (catReg b 0x2C) 1]) (catsWith s b (reading s b)) _).trans ?_
  rw [written_written]
  rfl

theorem enabled_regs (s : State) (b : CatBlk) : (enabled s b).regs = (runAll s (enableWrites s b)).regs := regs_written ..

theorem enable (s : State) (dt : Nat) (hw : s.regsWf = true) (req : Requester) (blk : CatBlk) (h : Lets s req (catReg blk 0x2C))
    (hopen : s.sealedCfg = false) (hoff : s.rd (catReg blk 0x2C) % 2 = 0) (hheld : s.heldDisabled (catIndex blk) 0 = false)
    (hcount : s.catCount blk ≠ 0) :
    ∃ t, exec (.catalogueEnableWrite dt req blk) s = .next t ∧
        Answered t 0 0 ∧
        t.rd (catReg blk 0x2C) = 1 ∧
        (t.cat blk).enabling = some (s.elapse dt).effectSeq ∧
        (t.cat blk).toRead = (List.range (s.catCount blk)).filter (s.catInDdr blk) ∧
        (∀ i, i < s.catCount blk → s.catInDdr blk i = true → tget (t.cat blk).gotten i = s.catRead blk i) ∧
        (Counted (catReg blk 0x40) ((List.range (s.catCount blk)).filter fun i => !s.catInDdr blk i).length s t) ∧
        Leaves dt (([catReg blk 0x2C] ++ two (catReg blk 0x40))) s t { t with cats := s.cats } := by
  have hexec : exec (.catalogueEnableWrite dt req blk) s = .next ((enabled (s.elapse dt) blk).respond 0 0) := by
    refine congrArg Host.Outcome.next ((regCmd_of_lets (lets_elapse h dt) fun s => if s.sealedCfg then s else s.catEnable blk).trans ?_)
    refine congrArg (fun v : State => v.respond 0 0) ((if_neg ?_).trans (catEnable_of_idle (s := s.elapse dt) hoff hheld hcount))
    rw [show (s.elapse dt).sealedCfg = s.sealedCfg from rfl, hopen]
    decide
  have hr := enabled_regs (s.elapse dt) blk
  have hcat : ((enabled (s.elapse dt) blk).respond 0 0).cat blk = reading (s.elapse dt) blk (s.cat blk) :=
    cat_withCats (s.elapse dt) (written (s.elapse dt) (enableWrites (s.elapse dt) blk)) blk _
  refine ⟨_, hexec, rfl, ?_, ?_, ?_, fun i hi hin => ?_, ?_, regsKept_of_regs (s := s.elapse dt) hr (by simp [enableWrites, RegOp.words]),
    fun _ => rfl, rfl⟩
  · refine (rd_of_regs (s := s.elapse dt) hw hr _).trans ?_
    simp (disch := (unfold catReg; omega)) [enableWrites, RegOp.see]
  · rw [hcat]
    rfl
  · rw [hcat]
    rfl
  · rw [hcat]
    exact tget_foldl_tset (s.catRead blk) _ [] (.inl (List.mem_filter.mpr ⟨List.mem_range.mpr hi, hin⟩))
  · refine (rd64_of_regs (s := s.elapse dt) hw hr _).trans ?_
    simp (disch := (unfold catReg; omega)) [enableWrites, RegOp.see]
    rfl

/-! ### The doorbell of a catalogue (R33 to R37) -/

theorem find_catIndex (b : CatBlk) : catBlks.find? (fun c => catIndex c == catIndex b) = some b := by
  cases b <;> rfl

theorem catIndex_lt (b : CatBlk) : catIndex b < 27 := by cases b <;> decide

theorem dblEffect_catalogue (s : State) (k : Cls) (b : CatBlk) (v : Nat) :
    s.dblEffect k (doorbell (catIndex b) 0) v = s.ringInvalidate k b (v % 65536) := by
  obtain ⟨-, hslot, hofs⟩ := doorbell_slot (catIndex_lt b) (ofs := 0) (by decide)
  unfold State.dblEffect
  dsimp only
  rw [hslot, hofs, if_neg (Nat.not_le.mpr (catIndex_lt b)), if_pos rfl, find_catIndex]

/-- The state in which a doorbell's store has passed the units that watch it. -/
def passed (s : State) (blk ofs v : Nat) : State := s.lpeWrite (regPhys (doorbell blk ofs)) (leBytes 4 v)

theorem watched_passed (s : State) (blk ofs v : Nat) : Watched (watchWords s.lpe) s (passed s blk ofs v) := watched_lpeWrite ..

theorem exec_catalogueInvalidate {s : State} {req : Requester} {blk : CatBlk} {index : BitVec 16} (dt : Nat)
    (hfw : s.fwWrite req.cls (doorbell (catIndex blk) 0) = true) (htest : s.unitTested (catIndex blk) 0 = false)
    (hnow : StoresNow s req) : exec (.catalogueInvalidate dt req blk index) s =
      .next (((passed (s.elapse dt) (catIndex blk) 0 index.toNat).catInvalidate req.cls blk index.toNat).respond 0 0) := by
  have hlt : index.toNat < 4294967296 := Nat.lt_trans index.isLt (by decide)
  have hstore : (s.elapse dt).anyStore req (regPhys (doorbell (catIndex blk) 0)) (leBytes 4 index.toNat) = _ :=
    anyStore_doorbell (s := s.elapse dt) hnow (catIndex_lt blk) (by decide) (by decide) hfw hlt
  have hwatch := watched_passed (s.elapse dt) (catIndex blk) 0 index.toNat
  refine congrArg Host.Outcome.next (hstore.trans (congrArg (fun v : State => v.respond 0 0) ?_))
  rw [dblEffect_catalogue, Nat.mod_eq_of_lt index.isLt]
  refine if_neg ?_
  rw [show State.lpeWrite _ _ _ = passed (s.elapse dt) (catIndex blk) 0 index.toNat from rfl, hwatch.unitTested]
  exact fun h => Bool.false_ne_true (htest.symm.trans h)

/-- A newer doorbell in place of an older one. -/
def restaged (index seq : Nat) : CatSt → CatSt := fun c => { c with staged := (c.staged.filter fun x => x.idx != index) ++ [⟨index, seq, none⟩] }

theorem catInvalidate_accepted {s : State} {k : Cls} {b : CatBlk} {i : Nat} (h : s.catRefuses k b i = false) (hin : s.catInDdr b i = true) :
    s.catInvalidate k b i = withCats s (catsWith s b (restaged i s.effectSeq)) := by
  unfold State.catInvalidate
  rw [if_neg (by rw [h]; decide)]
  exact if_pos hin

theorem invalidate (s : State) (dt : Nat) (req : Requester) (blk : CatBlk) (index : BitVec 16)
    (hfw : s.fwWrite req.cls (doorbell (catIndex blk) 0) = true) (htest : s.unitTested (catIndex blk) 0 = false)
    (hnow : StoresNow s req) (hrefuse : (s.elapse dt).catRefuses req.cls blk index.toNat = false)
    (hin : s.catInDdr blk index.toNat = true) :
    ∃ t, exec (.catalogueInvalidate dt req blk index) s = .next t ∧
        Answered t 0 0 ∧
        ((t.cat blk).staged = ((s.cat blk).staged.filter fun x => x.idx != index.toNat) ++ [⟨index.toNat, (s.elapse
          dt).effectSeq, none⟩]) ∧
        Leaves dt ((storeWords s)) s t { t with cats := s.cats, lpe := s.lpe, lpeUnits := s.lpeUnits } := by
  have hexec := exec_catalogueInvalidate (index := index) dt hfw htest hnow
  have hwatch := watched_passed (s.elapse dt) (catIndex blk) 0 index.toNat
  generalize passed (s.elapse dt) (catIndex blk) 0 index.toNat = w at hexec hwatch
  have hmem : w.mem = s.mem := (congrArg State.mem hwatch.rest :)
  have hcat : w.cat blk = s.cat blk := (congrArg (fun v : State => v.cat blk) hwatch.rest :)
  have hseq : w.effectSeq = (s.elapse dt).effectSeq := (congrArg State.effectSeq hwatch.rest :)
  have hddr : w.catInDdr blk index.toNat = true := by
    rw [(cat_of_rd (s := s) hmem fun ofs hofs => hwatch.rd (.inl (catReg_lt blk (by
      simp only [List.mem_cons, List.not_mem_nil, or_false] at hofs
      omega)))).2.1, hin]
  rw [catInvalidate_accepted ((Watched.catRefuses hwatch ..).trans hrefuse) hddr] at hexec
  refine ⟨_, hexec, rfl, ?_, regsKept_mono (s := s.elapse dt) hwatch.regs (watchWords_subset s), hwatch.mem, ?_⟩
  · refine (congrArg CatSt.staged (cat_withCats w w blk _)).trans ?_
    rw [hcat, hseq]
    rfl
  · exact (congrArg (fun v : State => { v with resp := s.resp, cats := s.cats }) hwatch.rest :)

theorem invalidateRefused (s : State) (dt : Nat) (hw : s.regsWf = true) (req : Requester) (blk : CatBlk) (index : BitVec 16)
    (hfw : s.fwWrite req.cls (doorbell (catIndex blk) 0) = true) (htest : s.unitTested (catIndex blk) 0 = false)
    (hnow : StoresNow s req) (hbeyond : s.catCount blk ≤ index.toNat) :
    ∃ t, exec (.catalogueInvalidate dt req blk index) s = .next t ∧
        Answered t 0 0 ∧
        Counted (catReg blk 0x38) 1 s t ∧
        Leaves dt ((two (catReg blk 0x38) ++ storeWords s)) s t { t with lpe := s.lpe, lpeUnits := s.lpeUnits } := by
  have hexec := exec_catalogueInvalidate (index := index) dt hfw htest hnow
  have hwatch := watched_passed (s.elapse dt) (catIndex blk) 0 index.toNat
  generalize passed (s.elapse dt) (catIndex blk) 0 index.toNat = w at hexec hwatch
  have hcount : w.catCount blk = s.catCount blk := by
    rw [State.catCount, hwatch.rd (.inl (catReg_lt blk (by decide)))]
    rfl
  have hrefuses : w.catRefuses req.cls blk index.toNat = true := by
    rw [State.catRefuses, hcount, decide_eq_true hbeyond]
    rfl
  have hcounted : w.catInvalidate req.cls blk index.toNat = written w [.count (catReg blk 0x38) 1] :=
    (if_pos hrefuses).trans (inc64_eq_written ..)
  have hr : (written w [.count (catReg blk 0x38) 1]).regs = (runAll w [.count (catReg blk 0x38) 1]).regs := regs_written ..
  rw [hcounted] at hexec
  refine ⟨_, hexec, rfl, ?_, ?_, hwatch.mem, ?_⟩
  · refine (rd64_of_regs (hwatch.wf hw) hr _).trans ?_
    simp (disch := decide) [RegOp.see]
    rw [hwatch.rd64 (.inl (catReg_lt blk (by decide))) (.inl (catReg_lt blk (ofs := 0x3C) (by decide)))]
    rfl
  · refine regsKept_mono (regsKept_trans (s := s.elapse dt) hwatch.regs (regsKept_of_regs hr fun _ h => h)) fun a ha => ?_
    rcases List.mem_append.mp ha with ha | ha
    · exact List.mem_append_right _ (watchWords_subset s ha)
    · exact List.mem_append_left _ (by simpa [RegOp.words] using ha)
  · exact (congrArg (fun v : State => { v with resp := s.resp }) hwatch.rest :)

/-! ### The reads of entries (R34, R36) -/

theorem readDone (s : State) (dt : Nat) (blk : CatBlk) (index : Nat) (x : CatStage) (hread : (s.cat blk).toRead.contains index = false)
    (hx : x ∈ (s.cat blk).staged) (hidx : x.idx = index) (hdata : x.data = none)
    (hok : s.readStatus .ok .d (s.catAddr blk index) (catBytes blk) = 0) :
    ∃ t, exec (.catalogueStagingReadDone dt blk index .ok) s = .next t ∧
        ((t.cat blk).staged = (s.cat blk).staged.map fun x => if x.idx = index then
          { x with data := some (s.catRead blk index) } else x) ∧
        Leaves dt [] s t { t with cats := s.cats } := by
  have hany : ((s.cat blk).staged.any fun x => x.idx == index && x.data.isNone) = true :=
    List.any_eq_true.mpr ⟨x, hx, by rw [hidx, hdata]; simp⟩
  have hstatus : (s.elapse dt).readStatus .ok .d ((s.elapse dt).catAddr blk index) (catBytes blk) = 0 := hok
  have hcat : (s.elapse dt).cat blk = s.cat blk := rfl
  have hexec : exec (.catalogueStagingReadDone dt blk index .ok) s = .next (withCats (s.elapse dt) (catsWith (s.elapse dt) blk
      fun c => { c with staged := c.staged.map fun x => if x.idx = index then
        { x with data := some ((s.elapse dt).catRead blk index) } else x })) := by
    refine congrArg Host.Outcome.next ?_
    unfold State.catReadDone
    dsimp only
    rw [hstatus, hcat, if_neg (by rw [hread]; decide), if_pos hany, if_pos rfl]
    rfl
  exact ⟨_, hexec, congrArg CatSt.staged (cat_withCats (s.elapse dt) (s.elapse dt) blk _), fun _ _ => rfl, fun _ => rfl, rfl⟩

/-- A read that ends with an uncorrectable error is counted, and in a bad line also there. -/
def failedWrites (s : State) (b : CatBlk) (i : Nat) : List RegOp :=
  (if s.lineBad (s.catAddr b i) (catBytes b) then [.count Reg.APC_ECCUNCORR 1] else []) ++ [.count (catReg b 0x40) 1]

/-- The entry reads as zero. -/
def zeroed (i : Nat) : CatSt → CatSt := fun c => { c with toRead := c.toRead.filter (· != i), gotten := tset c.gotten i [] }

def readFailed (s : State) (b : CatBlk) (i : Nat) : State := withCats (written s (failedWrites s b i)) (catsWith s b (zeroed i))

theorem catReadDone_ecc {s : State} {b : CatBlk} {i : Nat} (hread : (s.cat b).toRead.contains i = true)
    (hstatus : s.readStatus .ecc .d (s.catAddr b i) (catBytes b) = 0x12) : s.catReadDone b i .ecc = readFailed s b i := by
  have hcounted : (s.eccRead (s.catAddr b i) (catBytes b)).inc64 (catReg b 0x40) = written s (failedWrites s b i) := by
    unfold State.eccRead failedWrites
    split
    · rw [inc64_eq_written, inc64_eq_written, written_written]
    · exact inc64_eq_written ..
  unfold State.catReadDone
  dsimp only
  rw [hstatus, if_pos hread, if_pos (.inr rfl), State.readLeaves, if_neg (by decide), if_pos rfl]
  exact congrArg (fun u : State => u.modCat b (zeroed i)) hcounted

theorem readError (s : State) (dt : Nat) (hw : s.regsWf = true) (blk : CatBlk) (index : Nat)
    (hread : (s.cat blk).toRead.contains index = true)
    (hstatus : s.readStatus .ecc .d (s.catAddr blk index) (catBytes blk) = 0x12) :
    ∃ t, exec (.catalogueStagingReadDone dt blk index .ecc) s = .next t ∧
        Counted (catReg blk 0x40) 1 s t ∧
        (t.cat blk).toRead = (s.cat blk).toRead.filter (· != index) ∧
        tget (t.cat blk).gotten index = [] ∧
        Counted Reg.APC_ECCUNCORR (b2n (s.lineBad (s.catAddr blk index) (catBytes blk))) s t ∧
        Leaves dt ((two (catReg blk 0x40) ++ two Reg.APC_ECCUNCORR)) s t { t with cats := s.cats } := by
  have hexec : exec (.catalogueStagingReadDone dt blk index .ecc) s = .next (readFailed (s.elapse dt) blk index) :=
    congrArg Host.Outcome.next (catReadDone_ecc (s := s.elapse dt) hread hstatus)
  have hr : (readFailed (s.elapse dt) blk index).regs = (runAll (s.elapse dt) (failedWrites (s.elapse dt) blk index)).regs :=
    regs_written ..
  have hcat : (readFailed (s.elapse dt) blk index).cat blk = zeroed index (s.cat blk) :=
    cat_withCats (s.elapse dt) (written (s.elapse dt) (failedWrites (s.elapse dt) blk index)) blk _
  have hidx : 7 ≤ catIndex blk := by cases blk <;> decide
  have hapart : Reg.APC_ECCUNCORR + 4 < catReg blk 0x40 := by
    have hlow : Reg.APC_ECCUNCORR + 4 < 7 * 65536 := by decide
    unfold catReg
    omega
  have hbad : (s.elapse dt).lineBad ((s.elapse dt).catAddr blk index) (catBytes blk) = s.lineBad (s.catAddr blk index) (catBytes blk) := rfl
  refine ⟨_, hexec, ?_, congrArg CatSt.toRead hcat, ?_, ?_, ?_, fun _ => rfl, rfl⟩
  · refine (rd64_of_regs (s := s.elapse dt) hw hr _).trans ?_
    unfold failedWrites
    split <;> simp (disch := omega) [RegOp.see]
  · rw [hcat]
    exact tget_tset_self ..
  · refine (rd64_of_regs (s := s.elapse dt) hw hr _).trans ?_
    unfold failedWrites
    rw [hbad]
    cases s.lineBad (s.catAddr blk index) (catBytes blk) <;> simp (disch := omega) [RegOp.see, b2n]
  · refine regsKept_of_regs (s := s.elapse dt) hr ?_
    unfold failedWrites
    split <;> simp [RegOp.words]

end Sys2Proof.Proofs.Catalogues

/-! Descriptor rings: enables and doorbells (R37 to R42, R580). -/

namespace Sys2Proof.Proofs.Rings

open Sys2Proof Sys2Proof.Machine Sys2Proof.Laws Sys2Proof.Proofs.Time Sys2Proof.Proofs.Measurement Sys2Proof.Proofs.Power
open Sys2Proof.Proofs.RegOps Sys2Proof.Proofs.Doorbells Sys2Proof.Proofs.Catalogues

/-- A state with other rings. -/
def withRings (s : State) (rings : Tab RingSt) : State := { s with rings }

theorem written_withRings (s : State) (rings : Tab RingSt) (l : List RegOp) :
    written (withRings s rings) l = withRings (written s l) rings := written_of_regs (s := s) (u := withRings s rings) rfl l

/-- A ring changes. -/
def ringsWith (s : State) (b : RingBlk) (q : Nat) (f : RingSt → RingSt) : Tab RingSt := tmod s.rings (State.ringKey b q) f

theorem ring_withRings (s u : State) (b : RingBlk) (q : Nat) (f : RingSt → RingSt) :
    (withRings u (ringsWith s b q f)).ring b q = f (s.ring b q) := tget_tmod_self ..

/-- The control word and the counts of posted slots of a ring lie where no Loupe unit folds. -/
theorem ringRegs_out {b : RingBlk} {q : Nat} (hq : q < ringCount b) :
    ((ringRegs b q).ctl < 0x100130 ∨ (ringRegs b q).ctl % 128 ∉ [0x30, 0x34, 0x48, 0x4C]) ∧
    ((ringRegs b q).posted < 0x100130 ∨ (ringRegs b q).posted % 128 ∉ [0x30, 0x34, 0x48, 0x4C]) ∧
    ((ringRegs b q).posted + 4 < 0x100130 ∨ ((ringRegs b q).posted + 4) % 128 ∉ [0x30, 0x34, 0x48, 0x4C]) := by
  revert q
  cases b <;> decide

/-! ### Enable (R38) -/

/-- The control word of an enabled ring. -/
def ctlWord (b : RingBlk) (value : Word) : Nat :=
  value.toNat % 32 + (if b = .crr then value.toNat / 256 % 2 * 256 else 0) + 2147483648

theorem ctlWord_facts (b : RingBlk) (value : Word) : ctlWord b value < 4294967296 ∧ (ctlWord b value).testBit 31 = true ∧
    ctlWord b value % 32 = value.toNat % 32 := by
  have hsum : ∃ k, k < 512 ∧ k % 32 = value.toNat % 32 ∧ ctlWord b value = k + 2147483648 := by
    refine ⟨value.toNat % 32 + (if b = .crr then value.toNat / 256 % 2 * 256 else 0), ?_, ?_, rfl⟩ <;> split <;> omega
  obtain ⟨k, hk, hmod, heq⟩ := hsum
  refine ⟨by omega, ?_, by omega⟩
  rw [heq, Nat.testBit_eq_decide_div_mod_eq]
  simp only [decide_eq_true_eq]
  omega

/-- What an enable writes: the control word, and the state of Courier's channel. -/
def startWrites (b : RingBlk) (q : Nat) (value : Word) : List RegOp :=
  .word (ringRegs b q).ctl (ctlWord b value) :: if b = .crr then [.field (Fld.CRR_CHSTAT_STATE q) 1] else []

/-- The ring stands at slot 0 with phase 1. -/
def restarted : RingSt → RingSt := fun r => { head := 0, tail := 0, cidx := 0, cphase := true, pend := r.pend }

def ringStarted (s : State) (b : RingBlk) (q : Nat) (value : Word) : State :=
  withRings (written s (startWrites b q value)) (ringsWith s b q restarted)

theorem ringEnable_of_off {s : State} {b : RingBlk} {q : Nat} {value : Word} (hq : q < ringCount b) (hen : value.toNat.testBit 31 = true)
    (hoff : s.ringOn b q = false) (hheld : s.heldDisabled (ringIndex b) (State.ringUnit b q) = false) (hlow : 4 ≤ value.toNat % 32)
    (hhigh : value.toNat % 32 ≤ 16) : s.ringEnable b q value.toNat = ringStarted s b q value := by
  have hacts : ¬ (ringCount b ≤ q ∨ (!value.toNat.testBit 31) = true ∨ s.ringOn b q = true ∨
      s.heldDisabled (ringIndex b) (State.ringUnit b q) = true) := by
    rw [hen, hoff, hheld]
    simpa using hq
  have hok : 4 ≤ value.toNat % 32 ∧ value.toNat % 32 ≤ 16 := ⟨hlow, hhigh⟩
  have hctl : value.toNat % 32 + (if b = .crr then value.toNat / 256 % 2 * 256 else 0) + 2147483648 = ctlWord b value := rfl
  unfold State.ringEnable ringStarted startWrites
  rw [if_neg hacts]
  dsimp only
  rw [if_pos hok, if_pos hok, hctl]
  generalize ctlWord b value = v
  have hword : (s.wr (ringRegs b q).ctl v).modRing b q restarted =
      withRings (written s [.word (ringRegs b q).ctl v]) (ringsWith s b q restarted) := by
    rw [wr_eq_written]
    rfl
  by_cases hcrr : b = .crr
  · rw [if_pos hcrr, if_pos hcrr]
    refine (congrArg (fun u : State => u.setF (Fld.CRR_CHSTAT_STATE q) 1) hword).trans ?_
    rw [setF_eq_written, written_withRings, written_written]
    rfl
  · rw [if_neg hcrr, if_neg hcrr]
    exact hword

theorem ringStarted_regs (s : State) (b : RingBlk) (q : Nat) (value : Word) :
    (ringStarted s b q value).regs = (runAll s (startWrites b q value)).regs := regs_written ..

theorem enable (s : State) (dt : Nat) (hw : s.regsWf = true) (req : Requester) (blk : RingBlk) (ring : Nat) (value : Word)
    (hring : ring < ringCount blk) (h : Lets s req (ringRegs blk ring).ctl) (hen : value.toNat.testBit 31 = true)
    (hoff : s.ringOn blk ring = false) (hheld : s.heldDisabled (ringIndex blk) (State.ringUnit blk ring) = false)
    (hlow : 4 ≤ value.toNat % 32) (hhigh : value.toNat % 32 ≤ 16) :
    ∃ t, exec (.ringEnableWrite dt req blk ring value) s = .next t ∧
        Answered t 0 0 ∧
        t.ringOn blk ring = true ∧
        t.ringSize blk ring = 2 ^ (value.toNat % 32) ∧
        t.ring blk ring = { head := 0, tail := 0, cidx := 0, cphase := true, pend := (s.ring blk ring).pend } ∧
        t.ringWaiting blk ring = 0 ∧
        (blk = .crr → t.getF (Fld.CRR_CHSTAT_STATE ring) = 1) ∧
        Leaves dt [(ringRegs blk ring).ctl, Reg.CRR_CHSTAT ring] s t { t with rings := s.rings } := by
  have hexec : exec (.ringEnableWrite dt req blk ring value) s = .next ((ringStarted (s.elapse dt) blk ring value).respond 0 0) := by
    refine (if_neg (Nat.not_le.mpr hring)).trans (congrArg Host.Outcome.next ?_)
    refine (regCmd_of_lets (lets_elapse h dt) fun s => s.ringEnable blk ring value.toNat).trans ?_
    exact congrArg (fun v : State => v.respond 0 0) (ringEnable_of_off (s := s.elapse dt) hring hen hoff hheld hlow hhigh)
  have hr := ringStarted_regs (s.elapse dt) blk ring value
  obtain ⟨hlt, hbit, hmod⟩ := ctlWord_facts blk value
  have hctl : (ringStarted (s.elapse dt) blk ring value).rd (ringRegs blk ring).ctl = ctlWord blk value := by
    rw [rd_of_regs (s := s.elapse dt) hw hr]
    unfold startWrites
    split
    case isTrue hcrr =>
      subst hcrr
      have hapart : (ringRegs .crr ring).ctl ≠ (Fld.CRR_CHSTAT_STATE ring).addr := by
        show 0xF0110 + ring * 0x40 ≠ 0xF0118 + ring * 0x40
        omega
      exact (View.rd_setF_ne _ (by simp) hapart 1).trans ((View.rd_wr_self ..).trans (Nat.mod_eq_of_lt hlt))
    case isFalse => simp (disch := decide) [RegOp.see, hlt]
  have hstate : ((ringStarted (s.elapse dt) blk ring value).respond 0 0).ring blk ring = restarted (s.ring blk ring) :=
    ring_withRings (s.elapse dt) (written (s.elapse dt) (startWrites blk ring value)) blk ring _
  refine ⟨_, hexec, rfl, ?_, ?_, hstate, ?_, fun hcrr => ?_, regsKept_of_regs (s := s.elapse dt) hr ?_, fun _ => rfl, rfl⟩
  · exact (congrArg (·.testBit 31) hctl).trans hbit
  · exact congrArg (2 ^ ·) ((congrArg (· % 32) hctl).trans hmod)
  · unfold State.ringWaiting
    rw [hstate]
    simp [restarted]
  · subst hcrr
    refine (getF_of_regs (s := s.elapse dt) hw hr _).trans ?_
    simp (disch := simp) [startWrites, RegOp.see]
  · unfold startWrites
    split <;> simp [RegOp.words]

/-! ### The producer doorbell (R37, R39, R42) -/

theorem ringIndex_lt (b : RingBlk) : ringIndex b < 27 := by cases b <;> decide

theorem dblEffect_ring (s : State) (k : Cls) (b : RingBlk) (v : Nat) :
    s.dblEffect k (doorbell (ringIndex b) 8) v = s.ringProduce b (v / 65536) (v % 65536) := by
  obtain ⟨-, hslot, hofs⟩ := doorbell_slot (ringIndex_lt b) (ofs := 8) (by decide)
  have hblk : ringBlkOf (ringIndex b) = some b := by cases b <;> rfl
  unfold State.dblEffect
  dsimp only
  rw [hslot, hofs, if_neg (Nat.not_le.mpr (ringIndex_lt b)), if_neg (by decide), if_pos rfl, hblk]

/-- The value of a producer doorbell. -/
def producerWord (ring tail : BitVec 16) : Nat := ring.toNat * 65536 + tail.toNat

theorem producerWord_facts (ring tail : BitVec 16) : producerWord ring tail < 4294967296 ∧
    producerWord ring tail / 65536 = ring.toNat ∧ producerWord ring tail % 65536 = tail.toNat := by
  have hring := ring.isLt
  have htail := tail.isLt
  unfold producerWord
  omega

theorem producer_eq {s : State} {b : RingBlk} {q : Nat} (h : serOfRing b = none ∨ q % 2 = 1) (tail : Nat) :
    s.producer b q tail = s.ringDoorbell b q tail := by
  unfold State.producer
  dsimp only
  split
  case h_1 x hx =>
    have hodd : q % 2 = 1 := h.resolve_left (by rw [hx]; simp)
    exact if_neg (by omega)
  case h_2 => rfl

theorem exec_ringProducer {s : State} {req : Requester} {blk : RingBlk} {ring tail : BitVec 16} (dt : Nat)
    (hfw : s.fwWrite req.cls (doorbell (ringIndex blk) 8) = true)
    (htest : s.unitTested (ringIndex blk) (State.ringUnit blk ring.toNat) = false) (hnow : StoresNow s req)
    (hodd : serOfRing blk = none ∨ ring.toNat % 2 = 1) : exec (.ringProducer dt req blk ring tail) s =
      .next (((passed (s.elapse dt) (ringIndex blk) 8 (producerWord ring tail)).ringDoorbell blk ring.toNat tail.toNat).respond 0 0) := by
  obtain ⟨hlt, hdiv, hmod⟩ := producerWord_facts ring tail
  have hstore : (s.elapse dt).anyStore req (regPhys (doorbell (ringIndex blk) 8)) (leBytes 4 (producerWord ring tail)) = _ :=
    anyStore_doorbell (s := s.elapse dt) hnow (ringIndex_lt blk) (by decide) (by decide) hfw hlt
  have hwatch := watched_passed (s.elapse dt) (ringIndex blk) 8 (producerWord ring tail)
  refine congrArg Host.Outcome.next (hstore.trans (congrArg (fun v : State => v.respond 0 0) ?_))
  rw [dblEffect_ring, hdiv, hmod]
  refine (if_neg ?_).trans (producer_eq hodd _)
  rw [show State.lpeWrite _ _ _ = passed (s.elapse dt) (ringIndex blk) 8 (producerWord ring tail) from rfl, hwatch.unitTested]
  exact fun h => Bool.false_ne_true (htest.symm.trans h)

/-- The slots that a tail posts. -/
def posted (s : State) (b : RingBlk) (q tail : Nat) : Nat := (tail + s.ringSize b q - (s.ring b q).tail) % s.ringSize b q

theorem ringDoorbell_accepted {s : State} {b : RingBlk} {q tail : Nat} (hq : q < ringCount b) (hon : s.ringOn b q = true)
    (hslot : tail < s.ringSize b q) : s.ringDoorbell b q tail =
      withRings (written s [.count (ringRegs b q).posted (posted s b q tail)]) (ringsWith s b q fun r => { r with tail := tail }) := by
  have hacts : ¬ (ringCount b ≤ q ∨ (!s.ringOn b q) = true ∨ s.ringSize b q ≤ tail) := by
    rw [hon]
    simp only [Bool.not_true, Bool.false_eq_true, false_or, not_or]
    omega
  unfold State.ringDoorbell
  rw [if_neg hacts]
  dsimp only
  rw [add64_eq_written]
  rfl

section
variable (s : State) (dt : Nat) (hw : s.regsWf = true) (req : Requester) (blk : RingBlk) (ring tail : BitVec 16)
  (hfw : s.fwWrite req.cls (doorbell (ringIndex blk) 8) = true)
  (htest : s.unitTested (ringIndex blk) (State.ringUnit blk ring.toNat) = false) (hnow : StoresNow s req)
include hw hfw htest hnow

theorem producer (hring : ring.toNat < ringCount blk) (hon : s.ringOn blk ring.toNat = true)
    (hslot : tail.toNat < s.ringSize blk ring.toNat) (hodd : serOfRing blk = none ∨ ring.toNat % 2 = 1) :
    ∃ t, exec (.ringProducer dt req blk ring tail) s = .next t ∧
        Answered t 0 0 ∧
        (t.ring blk ring.toNat).tail = tail.toNat ∧
        (t.ring blk ring.toNat).head = (s.ring blk ring.toNat).head ∧
        Counted (ringRegs blk ring.toNat).posted ((tail.toNat + s.ringSize blk ring.toNat - (s.ring blk ring.toNat).tail) %
          s.ringSize blk ring.toNat) s t ∧
        Leaves dt ((two (ringRegs blk ring.toNat).posted ++ storeWords s)) s t
          { t with rings := s.rings, lpe := s.lpe, lpeUnits := s.lpeUnits } := by
  have hexec := exec_ringProducer (tail := tail) dt hfw htest hnow hodd
  have hwatch := watched_passed (s.elapse dt) (ringIndex blk) 8 (producerWord ring tail)
  generalize passed (s.elapse dt) (ringIndex blk) 8 (producerWord ring tail) = w at hexec hwatch
  obtain ⟨hctl, hposted, hposted'⟩ := ringRegs_out hring
  have hword : w.rd (ringRegs blk ring.toNat).ctl = s.rd (ringRegs blk ring.toNat).ctl := hwatch.rd hctl
  have hsize : w.ringSize blk ring.toNat = s.ringSize blk ring.toNat := by rw [State.ringSize, hword, State.ringSize]
  have hstate : w.ring blk ring.toNat = s.ring blk ring.toNat := (congrArg (fun v : State => v.ring blk ring.toNat) hwatch.rest :)
  have hcount : posted w blk ring.toNat tail.toNat = posted s blk ring.toNat tail.toNat := by rw [posted, hsize, hstate, posted]
  rw [ringDoorbell_accepted hring (by rw [State.ringOn, hword]; exact hon) (by rw [hsize]; exact hslot), hcount] at hexec
  have hr : (written w [.count (ringRegs blk ring.toNat).posted (posted s blk ring.toNat tail.toNat)]).regs =
      (runAll w [.count (ringRegs blk ring.toNat).posted (posted s blk ring.toNat tail.toNat)]).regs := regs_written ..
  have hring' := ring_withRings w (written w [.count (ringRegs blk ring.toNat).posted (posted s blk ring.toNat tail.toNat)]) blk
    ring.toNat fun r => { r with tail := tail.toNat }
  refine ⟨_, hexec, rfl, congrArg RingSt.tail hring', ?_, ?_, ?_, hwatch.mem, ?_⟩
  · refine (congrArg RingSt.head hring').trans ?_
    show (w.ring blk ring.toNat).head = _
    rw [hstate]
  · refine (rd64_of_regs (hwatch.wf hw) hr _).trans ?_
    simp (disch := decide) [RegOp.see]
    rw [hwatch.rd64 hposted hposted']
    rfl
  · refine regsKept_mono (regsKept_trans (s := s.elapse dt) hwatch.regs (regsKept_of_regs hr fun _ h => h)) fun a ha => ?_
    rcases List.mem_append.mp ha with ha | ha
    · exact List.mem_append_right _ (watchWords_subset s ha)
    · exact List.mem_append_left _ (by simpa [RegOp.words] using ha)
  · exact (congrArg (fun v : State => { v with resp := s.resp, rings := s.rings }) hwatch.rest :)

theorem producerIgnored
    (hbad : ringCount blk ≤ ring.toNat ∨ s.ringOn blk ring.toNat = false ∨ s.ringSize blk ring.toNat ≤ tail.toNat)
    (hodd : serOfRing blk = none ∨ ring.toNat % 2 = 1) :
    ∃ t, exec (.ringProducer dt req blk ring tail) s = .next t ∧
        Answered t 0 0 ∧
        Counted (Reg.SYS_DBERR (ringIndex blk)) 1 s t ∧
        Leaves dt ((two (Reg.SYS_DBERR (ringIndex blk)) ++ storeWords s)) s t
          { t with lpe := s.lpe, lpeUnits := s.lpeUnits } := by
  have hexec := exec_ringProducer (tail := tail) dt hfw htest hnow hodd
  have hwatch := watched_passed (s.elapse dt) (ringIndex blk) 8 (producerWord ring tail)
  generalize passed (s.elapse dt) (ringIndex blk) 8 (producerWord ring tail) = w at hexec hwatch
  have hignored : ringCount blk ≤ ring.toNat ∨ (!w.ringOn blk ring.toNat) = true ∨ w.ringSize blk ring.toNat ≤ tail.toNat := by
    by_cases hring : ringCount blk ≤ ring.toNat
    · exact .inl hring
    · have hword : w.rd (ringRegs blk ring.toNat).ctl = s.rd (ringRegs blk ring.toNat).ctl :=
        hwatch.rd (ringRegs_out (Nat.lt_of_not_le hring)).1
      refine .inr ((hbad.resolve_left hring).imp (fun h => ?_) fun h => ?_)
      · rw [State.ringOn, hword, show (s.rd (ringRegs blk ring.toNat).ctl).testBit 31 = false from h]
        rfl
      · rwa [State.ringSize, hword]
  have hcounted : w.ringDoorbell blk ring.toNat tail.toNat = written w [.count (Reg.SYS_DBERR (ringIndex blk)) 1] :=
    (if_pos hignored).trans (inc64_eq_written ..)
  have hr : (written w [.count (Reg.SYS_DBERR (ringIndex blk)) 1]).regs = (runAll w [.count (Reg.SYS_DBERR (ringIndex blk)) 1]).regs :=
    regs_written ..
  have hlow : 0x400 + ringIndex blk * 8 + 4 < 0x100130 := by
    have hidx := ringIndex_lt blk
    omega
  rw [hcounted] at hexec
  refine ⟨_, hexec, rfl, ?_, ?_, hwatch.mem, ?_⟩
  · refine (rd64_of_regs (hwatch.wf hw) hr _).trans ?_
    simp (disch := decide) [RegOp.see]
    rw [hwatch.rd64 (.inl (Nat.lt_of_add_right_lt hlow)) (.inl hlow)]
    rfl
  · refine regsKept_mono (regsKept_trans (s := s.elapse dt) hwatch.regs (regsKept_of_regs hr fun _ h => h)) fun a ha => ?_
    rcases List.mem_append.mp ha with ha | ha
    · exact List.mem_append_right _ (watchWords_subset s ha)
    · exact List.mem_append_left _ (by simpa [RegOp.words] using ha)
  · exact (congrArg (fun v : State => { v with resp := s.resp }) hwatch.rest :)

end

/-- Settles O32: the enables and reads from the words that they write, and the doorbells through the store to the doorbell page. -/
theorem cataloguesAndRings : Obligations.CataloguesAndRings := by
  intro s dt hs
  have hw : s.regsWf = true := (Bool.and_eq_true_iff.mp hs).1
  exact ⟨Catalogues.enable s dt hw, Catalogues.invalidate s dt, Catalogues.invalidateRefused s dt hw, Catalogues.readDone s dt,
    Catalogues.readError s dt hw, enable s dt hw, producer s dt hw, producerIgnored s dt hw⟩

end Sys2Proof.Proofs.Rings

/-! What the operations of field groups change: a table of channels, and the words that show them (R252 to R277). -/

namespace Sys2Proof.Proofs.FieldGroups

open Sys2Proof Sys2Proof.Machine Sys2Proof.Laws Sys2Proof.Proofs.Time Sys2Proof.Proofs.Power Sys2Proof.Proofs.RegOps
  Sys2Proof.Proofs.FieldOutputStates Sys2Proof.Proofs.GarnetFrames

theorem mem_fioChans {g c : Nat} : c ∈ fioChans g ↔ c / 16 = g := by
  simp only [fioChans, List.mem_map, List.mem_range]
  constructor
  · rintro ⟨i, hi, rfl⟩
    omega
  · rintro rfl
    exact ⟨c % 16, Nat.mod_lt _ (by decide), Nat.div_add_mod c 16⟩

theorem nodup_fioChans (g : Nat) : (fioChans g).Nodup :=
  List.nodup_range.map fun i j (h : 16 * g + i = 16 * g + j) => by omega

/-! ### Changes of channels alone -/

/-- A state with another table of channels. -/
def withCh (s : State) (m : Tab FioCh) : State := { s with fio := { s.fio with ch := m } }

/-- `t` differs from `s` in its channels only. -/
def OnlyCh (s t : State) : Prop := t = withCh s t.fio.ch

section
variable {s t u : State}

theorem OnlyCh.refl (s : State) : OnlyCh s s := rfl

theorem OnlyCh.trans (h : OnlyCh s t) (k : OnlyCh t u) : OnlyCh s u :=
  Eq.trans k (congrArg (fun v : State => withCh v u.fio.ch) h :)

theorem onlyCh_modCh (s : State) (c : Nat) (f : FioCh → FioCh) : OnlyCh s (s.modCh c f) := rfl

theorem onlyCh_foldl {step : State → Nat → State} (h : ∀ u c, OnlyCh u (step u c)) (l : List Nat) (s : State) :
    OnlyCh s (l.foldl step s) := by
  induction l generalizing s with
  | nil => exact .refl s
  | cons c l ih => exact (h s c).trans (ih _)

theorem OnlyCh.regs (h : OnlyCh s t) : t.regs = s.regs := (congrArg State.regs h :)
theorem OnlyCh.rdw (h : OnlyCh s t) (a : Nat) : t.rdw a = s.rdw a := (congrArg (fun v : State => v.rdw a) h :)
theorem OnlyCh.regsWf (h : OnlyCh s t) : t.regsWf = s.regsWf := (congrArg State.regsWf h :)
theorem OnlyCh.arc (h : OnlyCh s t) : t.arc = s.arc := (congrArg State.arc h :)
theorem OnlyCh.time (h : OnlyCh s t) : t.time = s.time := (congrArg State.time h :)
theorem OnlyCh.grp (h : OnlyCh s t) : t.fio.grp = s.fio.grp := (congrArg (fun v : State => v.fio.grp) h :)
theorem OnlyCh.fioGrp (h : OnlyCh s t) (g : Nat) : t.fioGrp g = s.fioGrp g := congrArg (tget · g) h.grp

/-- The channels after a step for each channel of a list, where a step changes its own channel as `F` says. -/
theorem fioCh_foldl {P : State → Prop} {step : State → Nat → State} {F : Nat → FioCh → FioCh}
    (hkeep : ∀ u c, P u → P (step u c)) (hself : ∀ u c, P u → (step u c).fioCh c = F c (u.fioCh c))
    (hne : ∀ u c k, P u → k ≠ c → (step u c).fioCh k = u.fioCh k) (l : List Nat) (hl : l.Nodup) (hs : P s) (k : Nat) :
    (l.foldl step s).fioCh k = if k ∈ l then F k (s.fioCh k) else s.fioCh k := by
  induction l generalizing s with
  | nil => simp
  | cons c l ih =>
    obtain ⟨hout, hnodup⟩ := List.nodup_cons.mp hl
    rw [List.foldl_cons, ih hnodup (hkeep s c hs)]
    by_cases hk : k = c
    · subst hk
      simp [hout, hself s k hs]
    · simp [hk, hne s c k hs hk]

/-- Steps of which only one acts. -/
theorem foldl_single {step : State → Nat → State} {c : Nat} (l : List Nat) (hl : l.Nodup) (hc : c ∈ l) (s : State)
    (hbefore : ∀ k ∈ l, k ≠ c → step s k = s) (hafter : ∀ k ∈ l, k ≠ c → step (step s c) k = step s c) :
    l.foldl step s = step s c := by
  induction l with
  | nil => exact absurd hc List.not_mem_nil
  | cons k l ih =>
    obtain ⟨hout, hnodup⟩ := List.nodup_cons.mp hl
    rw [List.foldl_cons]
    rcases List.mem_cons.mp hc with rfl | hc
    · refine List.foldlRecOn (motive := (· = step s c)) l step rfl fun u hu x hx => ?_
      rw [hu]
      exact hafter x (List.mem_cons_of_mem _ hx) fun h => hout (h ▸ hx)
    · rw [hbefore k List.mem_cons_self fun h => hout (h ▸ hc)]
      exact ih hnodup hc (fun x hx => hbefore x (List.mem_cons_of_mem _ hx)) fun x hx => hafter x (List.mem_cons_of_mem _ hx)

theorem foldl_idle {step : State → Nat → State} (l : List Nat) (s : State) (h : ∀ k ∈ l, step s k = s) :
    l.foldl step s = s :=
  List.foldlRecOn (motive := (· = s)) l step rfl fun _ hu x hx => hu ▸ h x hx

end

/-! ### The words that show the channels of a group -/

/-- FIO_CHSTAT of the channels of a group. -/
def chWords (g : Nat) : List Nat := (fioChans g).map Reg.FIO_CHSTAT

/-- All but the registers and the channels. -/
def besideCh (s : State) : State := { s with regs := [], fio := { s.fio with ch := [] } }

/-- Fields of the words `ws`. -/
def inWords (ws : List Nat) (f : Field) : Prop := f.addr ∈ ws

theorem spared_word {ws : List Nat} {f : Field} (hlen : 0 < f.len) (hfit : f.lo + f.len ≤ 32) (h : f.addr ∉ ws) :
    Spared (inWords ws) f := ⟨⟨hlen, hfit⟩, fun _ hg => .inl fun heq => h (heq ▸ hg)⟩

theorem notMem_chWords {g a : Nat} (h : ∀ c, c / 16 = g → a ≠ 0x70100 + c * 4) : a ∉ chWords g := by
  simp only [chWords, List.mem_map, not_exists, not_and, mem_fioChans]
  exact fun c hc heq => h c hc heq.symm

section
variable {g : Nat}

theorem notMem_chWords_of_range {a : Nat} (hg : g < 2) (h : a < 0x70100 ∨ 0x70180 ≤ a) : a ∉ chWords g :=
  notMem_chWords fun c hc heq => by omega

/-- The word of a group, and the counts of groups and channels, are no such words. -/
theorem spared_gstat {lo len : Nat} (hg : g < 2) (hlen : 0 < len) (hfit : lo + len ≤ 32) :
    Spared (inWords (chWords g)) ⟨Reg.FIO_GSTAT g, lo, len⟩ :=
  spared_word hlen hfit (notMem_chWords_of_range hg (.inl (by show 0x70008 + g * 0x4 < 0x70100; omega)))

theorem spared_count {a : Nat} (hg : g < 2) (ha : 0x70180 ≤ a) : Spared (inWords (chWords g)) (word a) :=
  spared_word (Nat.zero_lt_succ _) (Nat.le_refl 32) (notMem_chWords_of_range hg (.inr ha))

end

section
variable {s t u : State} {g : Nat}

theorem regsKept_of_works {ws : List Nat} {K : State → State} (h : Works (inWords ws) K s t) (hs : s.regsWf = true) :
    RegsKept ws s t := fun _ ha => h.rdw hs (spared_word (Nat.zero_lt_succ _) (Nat.le_refl 32) ha)

theorem works_fioShowGroup (s : State) (g : Nat) : Works (inWords (chWords g)) bare s (s.fioShowGroup g) :=
  works_foldl _ fun _ c hc => works_wr (List.mem_map_of_mem hc : Reg.FIO_CHSTAT c ∈ chWords g) _

theorem fioShowGroup_eq (s : State) (g : Nat) : s.fioShowGroup g = { s with regs := (s.fioShowGroup g).regs } :=
  onlyRegs_of_bare (works_fioShowGroup s g)

theorem fio_fioShowGroup (s : State) (g : Nat) : (s.fioShowGroup g).fio = s.fio := (congrArg State.fio (fioShowGroup_eq s g) :)

theorem fioCh_fioShowGroup (s : State) (g c : Nat) : (s.fioShowGroup g).fioCh c = s.fioCh c :=
  congrArg (fun x : FioSt => tget x.ch c) (fio_fioShowGroup s g)

theorem fioGrp_fioShowGroup (s : State) (g k : Nat) : (s.fioShowGroup g).fioGrp k = s.fioGrp k :=
  congrArg (fun x : FioSt => tget x.grp k) (fio_fioShowGroup s g)

theorem ports_fioShowGroup (s : State) (g : Nat) : (s.fioShowGroup g).arc.ports = s.arc.ports :=
  (congrArg (fun v : State => v.arc.ports) (fioShowGroup_eq s g) :)

theorem works_onlyCh {T : Field → Prop} (h : OnlyCh s t) : Works T besideCh s t where
  wf hs := h.regsWf.trans hs
  reads _ f _ := by simp only [State.getF, State.rd64, State.rd, h.rdw]
  rest := (congrArg besideCh h :)

theorem works_showGroup (s : State) (g : Nat) : Works (inWords (chWords g)) besideCh s (s.fioShowGroup g) :=
  (works_fioShowGroup s g).coarsen fun _ => rfl

theorem ports_of_works {T : Field → Prop} (h : Works T besideCh s t) : t.arc.ports = s.arc.ports :=
  (congrArg (fun v : State => v.arc.ports) h.rest :)

theorem fioGrp_of_works {T : Field → Prop} (h : Works T besideCh s t) (k : Nat) : t.fioGrp k = s.fioGrp k :=
  (congrArg (fun v : State => tget v.fio.grp k) h.rest :)

theorem mt_of_works {T : Field → Prop} (h : Works T besideCh s t) : t.time.mt = s.time.mt :=
  (congrArg (fun v : State => v.time.mt) h.rest :)

/-- Words of block 7 that a program writes, and then words that show channels: every register of another block is kept. -/
theorem regs_shown {l : List RegOp} {o : State} (hs : s.regsWf = true) (ho : o.regs = (runAll s l).regs)
    (hl : ∀ a ∈ l.flatMap RegOp.words, a / 65536 = 7) (hg : g < 2) (h : Works (inWords (chWords g)) besideCh o t)
    (a : Nat) (ha : a / 65536 ∉ [7]) : t.rdw a = s.rdw a := by
  have hne : a / 65536 ≠ 7 := fun h => ha (List.mem_singleton.mpr h)
  have hout : a ∉ chWords g := notMem_chWords fun c hc heq => hne (by omega)
  rw [h.rdw (regsWf_of_regs hs ho) (spared_word (Nat.zero_lt_succ _) (Nat.le_refl 32) hout)]
  exact regsKept_of_regs ho (fun _ h => h) a fun hmem => hne (hl a hmem)

/-- The same, with the words that may change. -/
theorem regsKept_shown {l : List RegOp} {o : State} (hs : s.regsWf = true) (ho : o.regs = (runAll s l).regs)
    (h : Works (inWords (chWords g)) besideCh o t) : RegsKept (l.flatMap RegOp.words ++ chWords g) s t := by
  intro a ha
  obtain ⟨hl, hout⟩ := not_or.mp fun h => ha (List.mem_append.mpr h)
  rw [h.rdw (regsWf_of_regs hs ho) (spared_word (Nat.zero_lt_succ _) (Nat.le_refl 32) hout)]
  exact regsKept_of_regs ho (fun _ h => h) a hl

end

end Sys2Proof.Proofs.FieldGroups

/-! Group overloads, the fallback path and its frames (R263, R266 to R269). -/

namespace Sys2Proof.Proofs.FieldPaths

open Sys2Proof Sys2Proof.Machine Sys2Proof.Laws Sys2Proof.Proofs.Time Sys2Proof.Proofs.Power Sys2Proof.Proofs.RegOps
  Sys2Proof.Proofs.FieldOutputStates Sys2Proof.Proofs.GarnetFrames Sys2Proof.Proofs.FieldGroups

/-! ### Frames -/

/-- All but the registers and field I/O. -/
def besideFio (s : State) : State := { s with regs := [], fio := {} }

/-- All but the registers, field I/O and the Archive's ports. -/
def outer (s : State) : State := { s with regs := [], fio := {}, arc := { s.arc with ports := [] } }

section
variable {s t u : State} {dt g : Nat}

theorem outer_of_besideFio (h : besideFio t = besideFio u) : outer t = outer u := (congrArg outer h :)

theorem besideFio_of_works {T : Field → Prop} (h : Works T besideCh u t) : besideFio t = besideFio u := (congrArg besideFio h.rest :)

theorem besideFio_of_onlyCh (h : OnlyCh u t) : besideFio t = besideFio u := (congrArg besideFio h :)

theorem besideFio_fioShowGroup (s : State) (g : Nat) : besideFio (s.fioShowGroup g) = besideFio s :=
  besideFio_of_works (works_showGroup s g)

theorem memKept_of_outer (h : outer t = outer (s.elapse dt)) : MemKept s t :=
  fun a => (congrArg (fun v : State => v.memGet a) h :)

theorem rest_of_outer (h : outer t = outer (s.elapse dt)) :
    { t with fio := s.fio, arc := { t.arc with ports := s.arc.ports }, regs := s.regs, resp := s.resp } = s.elapse dt :=
  (congrArg (fun v : State => { v with fio := s.fio, arc := { v.arc with ports := s.arc.ports }, regs := s.regs, resp := s.resp }) h :)

theorem rest_of_besideFio (h : besideFio t = besideFio (s.elapse dt)) :
    { t with fio := s.fio, regs := s.regs, resp := s.resp } = s.elapse dt :=
  (congrArg (fun v : State => { v with fio := s.fio, regs := s.regs, resp := s.resp }) h :)

theorem leavesOut_of_outer (hregs : ∀ a, a / 65536 ∉ [7] → t.rdw a = s.rdw a) (h : outer t = outer (s.elapse dt)) :
    LeavesOut dt [7] s t { t with fio := s.fio, arc := { t.arc with ports := s.arc.ports } } :=
  ⟨hregs, memKept_of_outer h, rest_of_outer h⟩

theorem leavesOut_of_besideFio (hregs : ∀ a, a / 65536 ∉ [7] → t.rdw a = s.rdw a) (h : besideFio t = besideFio (s.elapse dt)) :
    LeavesOut dt [7] s t { t with fio := s.fio } :=
  ⟨hregs, memKept_of_outer (outer_of_besideFio h), rest_of_besideFio h⟩

theorem leaves_of_outer {ws : List Nat} (hregs : RegsKept ws s t) (h : outer t = outer (s.elapse dt)) :
    Leaves dt ws s t { t with fio := s.fio, arc := { t.arc with ports := s.arc.ports } } :=
  ⟨hregs, memKept_of_outer h, rest_of_outer h⟩

theorem leaves_of_besideFio {ws : List Nat} (hregs : RegsKept ws s t) (h : besideFio t = besideFio (s.elapse dt)) :
    Leaves dt ws s t { t with fio := s.fio } :=
  ⟨hregs, memKept_of_outer (outer_of_besideFio h), rest_of_besideFio h⟩

/-- Field I/O reads its commands from the channels and from the tasks' outputs. -/
theorem fioCmds_congr (hch : t.fio.ch = s.fio.ch) (hrts : t.rts = s.rts) : t.fioCmds g = s.fioCmds g := by
  simp only [State.fioCmds, State.fioCh, State.fioCmd, hch, hrts]

theorem fioFilts_congr (hch : t.fio.ch = s.fio.ch) : t.fioFilts g = s.fioFilts g := by
  simp only [State.fioFilts, State.fioCh, hch]

/-- The ordering code, and with it the levels of the supply, stand in a word of SYS. -/
theorem hv_of_regs {l : List RegOp} (ht : t.regs = (runAll s l).regs) (hl : ∀ a ∈ l.flatMap RegOp.words, a / 65536 = 7) :
    t.hv = s.hv := by
  have hout : Reg.SYS_IDENT ∉ l.flatMap RegOp.words := fun h => absurd (hl _ h) (by decide)
  simp only [State.hv, getF_of_regsKept (regsKept_of_regs ht fun _ h => h) (f := Fld.SYS_IDENT_CODE) (by decide) hout]

theorem fioPowered_of_regs {l : List RegOp} (ht : t.regs = (runAll s l).regs) (hl : ∀ a ∈ l.flatMap RegOp.words, a / 65536 = 7)
    (hvf : (t.fioGrp g).vf = (s.fioGrp g).vf) : t.fioPowered g = s.fioPowered g := by
  have hlevel : t.vfUnsupplied = s.vfUnsupplied := congrArg (fun b : Bool => if b = true then (400 : Int) else 100) (hv_of_regs ht hl)
  rw [State.fioPowered, State.fioPowered, hlevel, hvf]

theorem fioGrp_modGrp_self (s : State) (g : Nat) (f : FioGrp → FioGrp) : (s.modGrp g f).fioGrp g = f (s.fioGrp g) :=
  tget_tmod_self ..

end

/-! ### Overload of a group (R263) -/

def coolStep (u : State) (c : Nat) : State := if (u.fioCh c).curlim then u.modCh c fun x => { x with curlim := false } else u

def cooled (x : FioCh) : FioCh := { x with curlim := false }

theorem onlyCh_coolStep (u : State) (c : Nat) : OnlyCh u (coolStep u c) := by
  unfold coolStep
  split
  · exact onlyCh_modCh ..
  · exact .refl u

theorem fioCh_coolStep_self (u : State) (c : Nat) : (coolStep u c).fioCh c = cooled (u.fioCh c) := by
  unfold coolStep
  split
  case isTrue => exact fioCh_modCh_self ..
  case isFalse h =>
    rw [Bool.not_eq_true] at h
    rw [cooled, ← h]

theorem fioCh_coolStep_ne (u : State) {c k : Nat} (h : k ≠ c) : (coolStep u c).fioCh k = u.fioCh k := by
  unfold coolStep
  split
  · exact fioCh_modCh_ne u h _
  · rfl

/-- The outputs of a group are switched off. -/
def cutOff (s : State) (g : Nat) : State :=
  (fioChans g).foldl coolStep (s.modGrp g fun x => { x with ovlOff := true, ovlAt := s.time.clock })

section
variable {s : State} {dt g : Nat}

theorem onlyCh_cutOff (s : State) (g : Nat) :
    OnlyCh (s.modGrp g fun x => { x with ovlOff := true, ovlAt := s.time.clock }) (cutOff s g) := onlyCh_foldl onlyCh_coolStep _ _

theorem fioGrp_cutOff (s : State) (g : Nat) :
    (cutOff s g).fioGrp g = { s.fioGrp g with ovlOff := true, ovlAt := s.time.clock } :=
  ((onlyCh_cutOff s g).fioGrp g).trans (fioGrp_modGrp_self ..)

theorem fioCh_cutOff (s : State) (g k : Nat) :
    (cutOff s g).fioCh k = if k ∈ fioChans g then cooled (s.fioCh k) else s.fioCh k :=
  fioCh_foldl (P := fun _ => True) (F := fun _ => cooled) (fun _ _ h => h) (fun u c _ => fioCh_coolStep_self u c)
    (fun u _ _ _ h => fioCh_coolStep_ne u h) _ (nodup_fioChans g) trivial k

theorem besideFio_cutOff (s : State) (g : Nat) : besideFio (cutOff s g) = besideFio s :=
  (besideFio_of_onlyCh (onlyCh_cutOff s g) :)

theorem regs_cutOff (s : State) (g : Nat) : (cutOff s g).regs = s.regs := (onlyCh_cutOff s g).regs

/-- An output of a group that is switched off does not drive. -/
theorem fioDriven_cutOff {t : State} {c : Nat} (h : (t.fioGrp (fioGroupOf c)).ovlOff = true) : t.fioDriven c = false := by
  simp [State.fioDriven, h]

/-- An event of field I/O after writes that spare FIO_EVCOLL. -/
theorem fioEvent_after {u : State} {l : List RegOp} (hr : u.regs = (runAll s l).regs) (hout : Reg.FIO_EVCOLL ∉ l.flatMap RegOp.words)
    (hmt : u.time.mt = s.time.mt) (hroom : PortRoom u 0x07) (code sev : Nat) (payload : List Byte) :
    u.fioEvent code sev payload = offer u 0x07 ⟨0x08, code, sev, coll s, s.time.mt, payload⟩ := by
  rw [fioEvent_of_room hroom, coll_of_regs hr hout, hmt]

theorem regs_offer (s : State) (blk : Nat) (o : Occurrence) : (offer s blk o).regs = s.regs := rfl

/-- The logic side counts and reports. -/
def overload (s : State) (g : Nat) : State :=
  offer (written (cutOff s g) [.bit (Fld.FIO_GSTAT_OVL g) true, .count (Reg.FIO_OVLTRIP g) 1]) 0x07
    ⟨0x08, 0x0607, 4, coll s, s.time.mt, p4 [g]⟩

theorem regs_overload (s : State) (g : Nat) :
    (overload s g).regs = (runAll s [.bit (Fld.FIO_GSTAT_OVL g) true, .count (Reg.FIO_OVLTRIP g) 1]).regs :=
  (regs_offer ..).trans (regs_written_of (regs_cutOff s g) _)

theorem portRoom_of_besideFio {t u : State} (h : besideFio t = besideFio u) (hroom : PortRoom u 0x07) : PortRoom t 0x07 :=
  (congrArg (fun v : State => PortRoom v 0x07) h :).mpr hroom

theorem logicAlive_of_besideFio {t u : State} (h : besideFio t = besideFio u) : t.logicAlive = u.logicAlive :=
  (congrArg State.logicAlive h :)

theorem mt_of_besideFio {t u : State} (h : besideFio t = besideFio u) : t.time.mt = u.time.mt :=
  (congrArg (fun v : State => v.time.mt) h :)

variable {group : Fin 2}

theorem exec_fioGroupOverload_alive (hdriven : (fioChans group.val).any s.fioDriven = true) (halive : s.logicAlive = true)
    (hroom : PortRoom s 0x07) :
    exec (.fioGroupOverload dt group) s = .next ((overload (s.elapse dt) group.val).fioShowGroup group.val) := by
  have hg := group.isLt
  have hacts : ¬ (!(fioChans group.val).any (s.elapse dt).fioDriven) = true := by
    rw [show (fioChans group.val).any (s.elapse dt).fioDriven = true from hdriven]
    decide
  have hbeside := besideFio_cutOff (s.elapse dt) group.val
  have halive' : ¬ (!(cutOff (s.elapse dt) group.val).logicAlive) = true := by
    rw [show (cutOff (s.elapse dt) group.val).logicAlive = true from
      (logicAlive_of_besideFio hbeside).trans halive]
    decide
  refine congrArg Host.Outcome.next ((if_neg hacts).trans ((if_neg halive').trans ?_))
  show ((((cutOff (s.elapse dt) group.val).setB (Fld.FIO_GSTAT_OVL group.val) true).inc64 (Reg.FIO_OVLTRIP group.val)).fioEvent
    0x0607 4 (p4 [group.val])).fioShowGroup group.val = _
  have hregs := regs_cutOff (s.elapse dt) group.val
  have htime := mt_of_besideFio hbeside
  have hroom' : PortRoom (cutOff (s.elapse dt) group.val) 0x07 := portRoom_of_besideFio hbeside hroom
  rw [overload]
  generalize cutOff (s.elapse dt) group.val = u at *
  rw [setB_eq_written, inc64_eq_written, written_written]
  have hr := regs_written_of hregs [.bit (Fld.FIO_GSTAT_OVL group.val) true, .count (Reg.FIO_OVLTRIP group.val) 1]
  exact congrArg (fun v : State => v.fioShowGroup group.val)
    (fioEvent_after hr (by simp [RegOp.words]; grind) htime hroom' 0x0607 4 (p4 [group.val]))

theorem exec_fioGroupOverload_dead (hdriven : (fioChans group.val).any s.fioDriven = true) (hdead : s.logicAlive = false) :
    exec (.fioGroupOverload dt group) s = .next (cutOff (s.elapse dt) group.val) := by
  have hacts : ¬ (!(fioChans group.val).any (s.elapse dt).fioDriven) = true := by
    rw [show (fioChans group.val).any (s.elapse dt).fioDriven = true from hdriven]
    decide
  have hdead' : (!(cutOff (s.elapse dt) group.val).logicAlive) = true := by
    rw [show (cutOff (s.elapse dt) group.val).logicAlive = false from
      (logicAlive_of_besideFio (besideFio_cutOff (s.elapse dt) group.val)).trans hdead]
    rfl
  exact congrArg Host.Outcome.next ((if_neg hacts).trans (if_pos hdead'))

theorem exec_groupOverloadEnd (hdue : (s.fioGrp group.val).ovlAt + 100000000 ≤ (s.elapse dt).time.clock) :
    exec (.groupOverloadEnd dt group) s = .next ((s.elapse dt).modGrp group.val fun x => { x with ovlOff := false }) :=
  congrArg Host.Outcome.next (if_pos hdue)

theorem exec_ovlClear (hoff : (s.fioGrp group.val).ovlOff = false)
    (hdue : (s.fioGrp group.val).ovlAt + 1000000000 ≤ (s.elapse dt).time.clock) :
    exec (.ovlClear dt group) s = .next (written (s.elapse dt) [.bit (Fld.FIO_GSTAT_OVL group.val) false]) := by
  have hacts : (!((s.elapse dt).fioGrp group.val).ovlOff) = true ∧
      ((s.elapse dt).fioGrp group.val).ovlAt + 1000000000 ≤ (s.elapse dt).time.clock := ⟨congrArg (!·) hoff, hdue⟩
  exact congrArg Host.Outcome.next ((if_pos hacts).trans (setB_eq_written ..))

end

/-! ### What the overload of a group leaves -/

section
variable {s : State} {dt : Nat} {group : Fin 2}

theorem words_group (g : Nat) (hg : g < 2) :
    ∀ a ∈ [RegOp.bit (Fld.FIO_GSTAT_OVL g) true, .count (Reg.FIO_OVLTRIP g) 1].flatMap RegOp.words, a / 65536 = 7 := by
  simp only [RegOp.words, show (7 + 1 ≤ 32) = True from eq_true (by decide), if_true, List.flatMap_cons, List.flatMap_nil,
    List.mem_append, List.mem_cons, List.not_mem_nil, or_false]
  rintro a (rfl | rfl | rfl)
  · show (0x70008 + g * 0x4) / 65536 = 7
    omega
  · show (0x70830 + g * 0x40) / 65536 = 7
    omega
  · show (0x70830 + g * 0x40 + 4) / 65536 = 7
    omega

theorem fio_reported (u : State) (l : List RegOp) (o : Occurrence) : (offer (written u l) 0x07 o).fio = u.fio := rfl

theorem fio_overload (s : State) (g : Nat) : (overload s g).fio = (cutOff s g).fio := fio_reported ..

theorem fioGrp_overload (s : State) (g : Nat) :
    (overload s g).fioGrp g = { s.fioGrp g with ovlOff := true, ovlAt := s.time.clock } := by
  rw [State.fioGrp, fio_overload]
  exact fioGrp_cutOff s g

theorem fioCh_overload (s : State) (g k : Nat) :
    (overload s g).fioCh k = if k ∈ fioChans g then cooled (s.fioCh k) else s.fioCh k := by
  rw [State.fioCh, fio_overload]
  exact fioCh_cutOff s g k

theorem ports_offer_of_arc {u : State} {o : Occurrence} (h : u.arc = s.arc) :
    (offer u 0x07 o).arc.ports = portsWith s 0x07 o :=
  congrArg (fun a : ArcSt => tset a.ports 0x07 (tget a.ports 0x07 ++ [o])) h

theorem arc_written (u : State) (l : List RegOp) : (written u l).arc = u.arc := rfl

theorem ports_overload (s : State) (g : Nat) :
    (overload s g).arc.ports = portsWith s 0x07 ⟨0x08, 0x0607, 4, coll s, s.time.mt, p4 [g]⟩ :=
  ports_offer_of_arc (s := s) ((arc_written ..).trans (onlyCh_cutOff s g).arc)

theorem outer_offer (s : State) (o : Occurrence) : outer (offer s 0x07 o) = outer s := rfl
theorem besideFio_written (s : State) (l : List RegOp) : besideFio (written s l) = besideFio s := rfl

theorem outer_overload (s : State) (g : Nat) : outer (overload s g) = outer s :=
  (outer_offer ..).trans (outer_of_besideFio ((besideFio_written ..).trans (besideFio_cutOff s g)))

theorem mt_of_outer {t u : State} (h : outer t = outer u) : t.time.mt = u.time.mt := (congrArg (fun v : State => v.time.mt) h :)

theorem outer_fioShowGroup (s : State) (g : Nat) : outer (s.fioShowGroup g) = outer s := outer_of_besideFio (besideFio_fioShowGroup s g)

/-- The overload of a group that drives, seen by the logic side. -/
theorem overloadSeen (hs : s.regsWf = true) (hdriven : (fioChans group.val).any s.fioDriven = true) (halive : s.logicAlive = true)
    (hroom : PortRoom s 0x07) :
    ∃ t, exec (.fioGroupOverload dt group) s = .next t ∧
      t.bit (Fld.FIO_GSTAT_OVL group.val) = true ∧
      (t.fioGrp group.val).ovlOff = true ∧
      Counted (Reg.FIO_OVLTRIP group.val) 1 s t ∧
      (∀ c, c / 16 = group.val → t.fioDriven c = false) ∧
      (∀ c, t.fioCh c = if c < 32 ∧ c / 16 = group.val then { s.fioCh c with curlim := false } else s.fioCh c) ∧
      (Offered 0x07 0x0607 4 (if 55 < s.getF Fld.FIO_EVCOLL_COLL then 0 else s.getF Fld.FIO_EVCOLL_COLL) (p4 [group.val]) s t) ∧
      Leaves dt (([Reg.FIO_GSTAT group.val] ++ two (Reg.FIO_OVLTRIP group.val) ++ (fioChans group.val).map Reg.FIO_CHSTAT))
        s t { t with fio := s.fio, arc := { t.arc with ports := s.arc.ports } } := by
  have hlt := group.isLt
  have hu : (s.elapse dt).regsWf = true := hs
  have hexec := exec_fioGroupOverload_alive (dt := dt) hdriven halive hroom
  have hr := regs_overload (s.elapse dt) group.val
  have hgrp := fioGrp_overload (s.elapse dt) group.val
  have hch := fioCh_overload (s.elapse dt) group.val
  have hports := ports_overload (s.elapse dt) group.val
  have houter := outer_overload (s.elapse dt) group.val
  generalize overload (s.elapse dt) group.val = o at *
  have hshow := works_showGroup o group.val
  have howf := regsWf_of_regs hu hr
  have hgrp' := (fioGrp_of_works hshow group.val).trans hgrp
  refine ⟨_, hexec, ?_, congrArg FioGrp.ovlOff hgrp', ?_, ?_, ?_, ?_, ?_⟩
  · rw [hshow.bit howf (spared_gstat hlt (by decide) (by decide)), bit_of_regs hu hr]
    simp (disch := grind) [RegOp.see]
  · have hcount : 0x70180 ≤ Reg.FIO_OVLTRIP group.val := by show 0x70180 ≤ 0x70830 + group.val * 0x40; omega
    rw [Counted, hshow.rd64 howf (spared_count hlt hcount) (spared_count hlt (by omega)), rd64_of_regs hu hr]
    simp (disch := grind) [RegOp.see]
  · intro c hc
    exact fioDriven_cutOff (by rw [fioGroupOf, hc]; exact congrArg FioGrp.ovlOff hgrp')
  · intro c
    rw [fioCh_fioShowGroup, hch]
    simp only [mem_fioChans, cooled, show (c < 32 ∧ c / 16 = group.val) = (c / 16 = group.val) from by
      rw [eq_iff_iff]; omega]
    rfl
  · refine offered_of_ports ((ports_fioShowGroup ..).trans (hports.trans ?_))
    rw [mt_of_outer ((outer_fioShowGroup ..).trans houter)]
    rfl
  · refine leaves_of_outer (regsKept_mono (regsKept_shown (s := s.elapse dt) hu hr hshow) ?_) ((outer_fioShowGroup ..).trans houter)
    simp [RegOp.words, chWords]

theorem overloadUnseen (hdriven : (fioChans group.val).any s.fioDriven = true) (hdead : s.logicAlive = false) :
    ∃ t, exec (.fioGroupOverload dt group) s = .next t ∧
      (t.fioGrp group.val).ovlOff = true ∧
      (t.fioGrp group.val).ovlAt = (s.elapse dt).time.clock ∧
      (∀ c, c / 16 = group.val → t.fioDriven c = false) ∧
      Leaves dt [] s t { t with fio := s.fio } := by
  have hexec := exec_fioGroupOverload_dead (dt := dt) hdriven hdead
  have hgrp := fioGrp_cutOff (s.elapse dt) group.val
  have hbeside := besideFio_cutOff (s.elapse dt) group.val
  have hrdw := (onlyCh_cutOff (s.elapse dt) group.val).rdw
  generalize cutOff (s.elapse dt) group.val = t at *
  refine ⟨t, hexec, congrArg FioGrp.ovlOff hgrp, congrArg FioGrp.ovlAt hgrp, fun c hc => ?_, leaves_of_besideFio (fun a _ => hrdw a) hbeside⟩
  exact fioDriven_cutOff (by rw [fioGroupOf, hc]; exact congrArg FioGrp.ovlOff hgrp)

end

end Sys2Proof.Proofs.FieldPaths

/-! The refresh instants of the fallback path (R266, R267). -/

namespace Sys2Proof.Proofs.FallbackRefreshes

open Sys2Proof Sys2Proof.Machine Sys2Proof.Laws Sys2Proof.Proofs.Time Sys2Proof.Proofs.Power Sys2Proof.Proofs.RegOps
  Sys2Proof.Proofs.FieldOutputStates Sys2Proof.Proofs.GarnetFrames Sys2Proof.Proofs.FieldGroups Sys2Proof.Proofs.FieldPaths

/-- The counts of bad and good refreshes in a row, after the refresh that `x` remembers. -/
def judged (x y : FioGrp) : FioGrp :=
  { y with
    badIn := min 3 (if x.gotIn then 0 else x.badIn + 1), badOut := min 3 (if x.gotOut then 0 else x.badOut + 1)
    good := min 3 (if x.gotIn && x.gotOut then x.good + 1 else 0) }

/-- A refresh begins with what its two frames carry. -/
def begun (atEdge : Bool) (out : Nat) (inp : Option Nat) (x : FioGrp) : FioGrp :=
  { x with
    started := true, index := (x.index + 1) % 16, atEdge := atEdge, outStates := some out, inStates := inp, gotIn := false
    gotOut := false }

/-- The states that an edge at this instant kept for the frames. -/
def edgeStates (mt : Nat) : Option (Nat × Nat × Nat) → Option (Nat × Nat)
  | some (m, o, i) => if m = mt then some (o, i) else none
  | none => none

/-- The start of the next refresh, with the states that its frames carry. -/
def nextRefresh (s : State) (g : Nat) (atEdge : Bool) (states : Nat × Nat) : State :=
  s.modGrp g (begun atEdge states.1 (if s.fioPowered g then some states.2 else none))

/-- The third bad refresh in a row takes the path away. -/
def pathLost (s : State) (g : Nat) : State :=
  offer (written (s.modGrp g (judged (s.fioGrp g))) [.bit (Fld.FIO_GSTAT_SERLINK_OK g) false, .count (Reg.FIO_SERLOSS g) 1]) 0x07
    ⟨0x08, 0x0602, 4, coll s, s.time.mt, p4 [g]⟩

section
variable {s v : State} {dt g : Nat}

theorem regs_pathLost (s : State) (g : Nat) :
    (pathLost s g).regs = (runAll s [.bit (Fld.FIO_GSTAT_SERLINK_OK g) false, .count (Reg.FIO_SERLOSS g) 1]).regs :=
  regs_written_of (s := s) (u := s.modGrp g (judged (s.fioGrp g))) rfl _

theorem fioGrp_pathLost (s : State) (g : Nat) : (pathLost s g).fioGrp g = judged (s.fioGrp g) (s.fioGrp g) :=
  fioGrp_modGrp_self ..

theorem ch_pathLost (s : State) (g : Nat) : (pathLost s g).fio.ch = s.fio.ch := rfl
theorem rts_pathLost (s : State) (g : Nat) : (pathLost s g).rts = s.rts := rfl
theorem outer_pathLost (s : State) (g : Nat) : outer (pathLost s g) = outer s := rfl

theorem ports_pathLost (s : State) (g : Nat) :
    (pathLost s g).arc.ports = portsWith s 0x07 ⟨0x08, 0x0602, 4, coll s, s.time.mt, p4 [g]⟩ := rfl

theorem serJudge_lost (hstarted : (s.fioGrp g).started = true) (hok : s.serOk g = true) (hbad : 2 ≤ (s.fioGrp g).badIn)
    (hgot : (s.fioGrp g).gotIn = false) (hroom : PortRoom s 0x07) : s.serJudge g = pathLost s g := by
  have hstarted' : ¬ (!(s.fioGrp g).started) = true := by rw [hstarted]; decide
  have hlost : (s.modGrp g (judged (s.fioGrp g))).serOk g = true ∧
      (3 ≤ (if (s.fioGrp g).gotIn then 0 else (s.fioGrp g).badIn + 1) ∨
        3 ≤ (if (s.fioGrp g).gotOut then 0 else (s.fioGrp g).badOut + 1)) := ⟨hok, .inl (by rw [hgot]; simp; omega)⟩
  refine (if_neg hstarted').trans ((if_pos hlost).trans ?_)
  show (((s.modGrp g (judged (s.fioGrp g))).setB (Fld.FIO_GSTAT_SERLINK_OK g) false).inc64 (Reg.FIO_SERLOSS g)).fioEvent 0x0602 4
    (p4 [g]) = _
  rw [setB_eq_written, inc64_eq_written, written_written]
  exact fioEvent_after (regs_written_of (s := s) (u := s.modGrp g (judged (s.fioGrp g))) rfl
    [.bit (Fld.FIO_GSTAT_SERLINK_OK g) false, .count (Reg.FIO_SERLOSS g) 1]) (by simp [RegOp.words]; grind) rfl hroom 0x0602 4 (p4 [g])

theorem serJudge_first (hstarted : (s.fioGrp g).started = false) : s.serJudge g = s :=
  if_pos (by rw [hstarted]; rfl)

/-- An output whose pattern is as it was last. -/
theorem couplerPattern_idle {c : Nat} {silent : Option Nat}
    (h : (s.fioCh c).mode = 3 → (s.fioCh c).cplOk = silent.isNone) : s.couplerPattern c silent = s := by
  unfold State.couplerPattern
  by_cases hmode : (s.fioCh c).mode = 3
  case neg => exact if_pos hmode
  case pos =>
    refine (if_neg (not_not.mpr hmode)).trans ?_
    cases silent with
    | none => exact if_pos (h hmode)
    | some ns => exact if_pos (.inl (by rw [h hmode]; rfl))

/-- What a refresh shows of the couplers of a group. -/
abbrev silence (silent : List (Fin 16 × Nat)) (c : Nat) : Option Nat :=
  (silent.find? fun x => x.1.val == c % 16).map fun x => x.2

theorem silence_isNone (silent : List (Fin 16 × Nat)) (c : Nat) :
    (silence silent c).isNone = silent.all fun x => x.1.val != c % 16 := by
  rw [Option.isNone_map, Bool.eq_iff_iff, Option.isNone_iff_eq_none, List.find?_eq_none, List.all_eq_true]
  simp

theorem patterns_idle {silent : List (Fin 16 × Nat)}
    (h : ((fioChans g).all fun c => (s.fioCh c).mode != 3 || (s.fioCh c).cplOk == silent.all fun x => x.1.val != c % 16) = true)
    (hch : v.fio.ch = s.fio.ch) :
    (fioChans g).foldl (fun s c => s.couplerPattern c (silence silent c)) v = v := by
  refine foldl_idle _ v fun c hc => couplerPattern_idle ?_
  have hsame : v.fioCh c = s.fioCh c := congrArg (tget · c) hch
  have hone := List.all_eq_true.mp h c hc
  rw [hsame, silence_isNone]
  intro hmode
  simpa [hmode] using hone

variable {group : Fin 2} {silent : List (Fin 16 × Nat)}

/-- The refresh of a module that judges the one before it as `v`. -/
theorem exec_fallbackRefresh (hinstant : (s.elapse dt).time.mt % 10000 = 0) (hup : s.logicUp = true)
    (hidle : ((fioChans group.val).all fun c => (s.fioCh c).mode != 3 || (s.fioCh c).cplOk == silent.all fun x => x.1.val != c % 16) = true)
    (hjudge : (s.elapse dt).serJudge group.val = v) (hch : v.fio.ch = s.fio.ch) {edge : Option (Nat × Nat)}
    (hedge : edgeStates v.time.mt (v.fioGrp group.val).edgeFrame = edge) :
    exec (.fallbackRefresh dt ⟨group, silent⟩) s =
      .next ((nextRefresh v group.val edge.isSome (edge.getD (v.fioCmds group.val, v.fioFilts group.val))).fioShowGroup group.val) := by
  have hacts : ¬ ((s.elapse dt).time.mt % 10000 ≠ 0 ∨ (!(s.elapse dt).logicUp) = true) := by
    rw [not_or, not_not]
    exact ⟨hinstant, by rw [show (s.elapse dt).logicUp = true from hup]; decide⟩
  refine congrArg Host.Outcome.next ((if_neg hacts).trans ?_)
  rw [hjudge]
  subst hedge
  refine congrArg (fun w : State => w.fioShowGroup group.val) ?_
  exact patterns_idle (v := v.modGrp group.val _) hidle hch

theorem lostWords (hg : g < 2) :
    ∀ a ∈ [RegOp.bit (Fld.FIO_GSTAT_SERLINK_OK g) false, .count (Reg.FIO_SERLOSS g) 1].flatMap RegOp.words, a / 65536 = 7 := by
  simp only [RegOp.words, show (6 + 1 ≤ 32) = True from eq_true (by decide), if_true, List.flatMap_cons, List.flatMap_nil,
    List.mem_append, List.mem_cons, List.not_mem_nil, or_false]
  rintro a (rfl | rfl | rfl)
  · show (0x70008 + g * 0x4) / 65536 = 7
    omega
  · show (0x70828 + g * 0x40) / 65536 = 7
    omega
  · show (0x70828 + g * 0x40 + 4) / 65536 = 7
    omega

section
variable (v : State) (g : Nat) (atEdge : Bool) (states : Nat × Nat)

theorem fioGrp_nextRefresh : (nextRefresh v g atEdge states).fioGrp g =
    begun atEdge states.1 (if v.fioPowered g then some states.2 else none) (v.fioGrp g) := fioGrp_modGrp_self ..

theorem regs_nextRefresh : (nextRefresh v g atEdge states).regs = v.regs := rfl
theorem ch_nextRefresh : (nextRefresh v g atEdge states).fio.ch = v.fio.ch := rfl
theorem ports_nextRefresh : (nextRefresh v g atEdge states).arc.ports = v.arc.ports := rfl
theorem besideFio_nextRefresh : besideFio (nextRefresh v g atEdge states) = besideFio v := rfl
theorem outer_nextRefresh : outer (nextRefresh v g atEdge states) = outer v := rfl

end

/-- A refresh that takes the path away. -/
theorem refreshLost (hs : s.regsWf = true) (hinstant : (s.elapse dt).time.mt % 10000 = 0) (hup : s.logicUp = true)
    (hstarted : (s.fioGrp group.val).started = true) (hok : s.serOk group.val = true) (hbad : 2 ≤ (s.fioGrp group.val).badIn)
    (hgot : (s.fioGrp group.val).gotIn = false)
    (hidle : ((fioChans group.val).all fun c => (s.fioCh c).mode != 3 || (s.fioCh c).cplOk == silent.all fun x => x.1.val != c % 16) = true)
    (hframe : (s.fioGrp group.val).edgeFrame = none) (hroom : PortRoom s 0x07) :
    ∃ t, exec (.fallbackRefresh dt ⟨group, silent⟩) s = .next t ∧
      t.serOk group.val = false ∧
      Counted (Reg.FIO_SERLOSS group.val) 1 s t ∧
      (t.fioGrp group.val).index = ((s.fioGrp group.val).index + 1) % 16 ∧
      (t.fioGrp group.val).outStates = some (s.fioCmds group.val) ∧
      ((t.fioGrp group.val).inStates = (if s.fioPowered group.val then some (s.fioFilts group.val) else none)) ∧
      (t.fioGrp group.val).gotIn = false ∧
      (t.fioGrp group.val).gotOut = false ∧
      t.fio.ch = s.fio.ch ∧
      (Offered 0x07 0x0602 4 (if 55 < s.getF Fld.FIO_EVCOLL_COLL then 0 else s.getF Fld.FIO_EVCOLL_COLL) (p4 [group.val]) s t) ∧
      LeavesOut dt [7] s t { t with fio := s.fio, arc := { t.arc with ports := s.arc.ports } } := by
  have hlt := group.isLt
  have hu : (s.elapse dt).regsWf = true := hs
  have hjudge := serJudge_lost (s := s.elapse dt) (g := group.val) hstarted hok hbad hgot hroom
  have hr := regs_pathLost (s.elapse dt) group.val
  have hgrp := fioGrp_pathLost (s.elapse dt) group.val
  have hch := ch_pathLost (s.elapse dt) group.val
  have hrts := rts_pathLost (s.elapse dt) group.val
  have houter := outer_pathLost (s.elapse dt) group.val
  have hports := ports_pathLost (s.elapse dt) group.val
  generalize pathLost (s.elapse dt) group.val = v at *
  have hframe' : (v.fioGrp group.val).edgeFrame = none := (congrArg FioGrp.edgeFrame hgrp).trans hframe
  have hexec := exec_fallbackRefresh (silent := silent) hinstant hup hidle hjudge hch (congrArg (edgeStates v.time.mt) hframe')
  have hcmds : v.fioCmds group.val = s.fioCmds group.val := fioCmds_congr hch hrts
  have hfilts : v.fioFilts group.val = s.fioFilts group.val := fioFilts_congr hch
  have hpowered : v.fioPowered group.val = s.fioPowered group.val :=
    fioPowered_of_regs (s := s.elapse dt) hr (lostWords hlt) (congrArg FioGrp.vf hgrp :)
  rw [edgeStates, Option.getD_none, hcmds, hfilts] at hexec
  have hnew := fioGrp_nextRefresh v group.val (none : Option (Nat × Nat)).isSome (s.fioCmds group.val, s.fioFilts group.val)
  rw [hgrp, hpowered] at hnew
  have hw := regs_nextRefresh v group.val (none : Option (Nat × Nat)).isSome (s.fioCmds group.val, s.fioFilts group.val)
  have hwbeside := outer_nextRefresh v group.val (none : Option (Nat × Nat)).isSome (s.fioCmds group.val, s.fioFilts group.val)
  have hwch := ch_nextRefresh v group.val (none : Option (Nat × Nat)).isSome (s.fioCmds group.val, s.fioFilts group.val)
  have hwports := ports_nextRefresh v group.val (none : Option (Nat × Nat)).isSome (s.fioCmds group.val, s.fioFilts group.val)
  generalize nextRefresh v group.val (none : Option (Nat × Nat)).isSome (s.fioCmds group.val, s.fioFilts group.val) = w at *
  have hr' := hw.trans hr
  have hwwf := regsWf_of_regs hu hr'
  have hshow := works_showGroup w group.val
  have hnew' := (fioGrp_of_works hshow group.val).trans hnew
  have houter' := (outer_fioShowGroup w group.val).trans (hwbeside.trans houter)
  refine ⟨_, hexec, ?_, ?_, congrArg FioGrp.index hnew', congrArg FioGrp.outStates hnew', congrArg FioGrp.inStates hnew',
    congrArg FioGrp.gotIn hnew', congrArg FioGrp.gotOut hnew', ?_, ?_, ?_⟩
  · rw [State.serOk, hshow.bit hwwf (spared_gstat hlt (by decide) (by decide)), bit_of_regs hu hr']
    simp (disch := grind) [RegOp.see]
  · have hcount : 0x70180 ≤ Reg.FIO_SERLOSS group.val := by show 0x70180 ≤ 0x70828 + group.val * 0x40; omega
    rw [Counted, hshow.rd64 hwwf (spared_count hlt hcount) (spared_count hlt (by omega)), rd64_of_regs hu hr']
    simp (disch := grind) [RegOp.see]
  · rw [fio_fioShowGroup, hwch, hch]
    rfl
  · refine offered_of_ports ((ports_fioShowGroup ..).trans (hwports.trans (hports.trans ?_)))
    rw [mt_of_outer houter']
    rfl
  · exact leavesOut_of_outer (regs_shown (s := s.elapse dt) hu hr' (lostWords hlt) hlt hshow) houter'

/-- The first refresh, at a beat edge. -/
theorem refreshFirst {o i : Nat} (hs : s.regsWf = true) (hinstant : (s.elapse dt).time.mt % 10000 = 0) (hup : s.logicUp = true)
    (hstarted : (s.fioGrp group.val).started = false)
    (hidle : ((fioChans group.val).all fun c => (s.fioCh c).mode != 3 || (s.fioCh c).cplOk == silent.all fun x => x.1.val != c % 16) = true)
    (hframe : (s.fioGrp group.val).edgeFrame = some ((s.elapse dt).time.mt, o, i)) :
    ∃ t, exec (.fallbackRefresh dt ⟨group, silent⟩) s = .next t ∧
      (t.fioGrp group.val).started = true ∧
      (t.fioGrp group.val).atEdge = true ∧
      (t.fioGrp group.val).outStates = some o ∧
      t.fio.ch = s.fio.ch ∧
      LeavesOut dt [7] s t { t with fio := s.fio } := by
  have hedge : edgeStates (s.elapse dt).time.mt ((s.elapse dt).fioGrp group.val).edgeFrame = some (o, i) :=
    (congrArg (edgeStates (s.elapse dt).time.mt) hframe).trans (if_pos rfl)
  have hexec := exec_fallbackRefresh (silent := silent) hinstant hup hidle (serJudge_first (s := s.elapse dt) hstarted) rfl hedge
  have hnew := fioGrp_nextRefresh (s.elapse dt) group.val true (o, i)
  have hr := regs_nextRefresh (s.elapse dt) group.val true (o, i)
  have hch := ch_nextRefresh (s.elapse dt) group.val true (o, i)
  have hbeside := besideFio_nextRefresh (s.elapse dt) group.val true (o, i)
  change exec _ s = .next ((nextRefresh (s.elapse dt) group.val true (o, i)).fioShowGroup group.val) at hexec
  generalize nextRefresh (s.elapse dt) group.val true (o, i) = w at *
  have hnew' := (fioGrp_fioShowGroup w group.val group.val).trans hnew
  exact ⟨_, hexec, congrArg FioGrp.started hnew', congrArg FioGrp.atEdge hnew', congrArg FioGrp.outStates hnew',
    ((congrArg FioSt.ch (fio_fioShowGroup w group.val)).trans hch :),
    leavesOut_of_besideFio (regs_shown (s := s.elapse dt) (l := []) hs hr (by simp) group.isLt (works_showGroup ..))
      ((besideFio_fioShowGroup ..).trans hbeside)⟩

end

end Sys2Proof.Proofs.FallbackRefreshes

/-! The frames of the fallback path: the inbound one with the compare of the couplers, the outbound one with the refresh of the
latches (R267 to R269). -/

namespace Sys2Proof.Proofs.FallbackFrames

open Sys2Proof Sys2Proof.Machine Sys2Proof.Laws Sys2Proof.Proofs.Time Sys2Proof.Proofs.Power Sys2Proof.Proofs.RegOps
  Sys2Proof.Proofs.FieldOutputStates Sys2Proof.Proofs.GarnetFrames Sys2Proof.Proofs.FieldGroups Sys2Proof.Proofs.FieldPaths

/-! ### The inbound frame -/

/-- The inbound frame of a refresh has arrived, and counts under `why`. -/
def arrived (s : State) (g why : Nat) : State :=
  written (s.modGrp g fun x => { x with inStates := none }) [.count (Reg.FIO_SERRX g) 1, .count why 1]

/-- It is a good one. -/
def accepted (s : State) (g : Nat) : State := (arrived s g (Reg.FIO_SEROK g)).modGrp g fun x => { x with gotIn := true }

/-- The state that a frame shows a coupler holding, against that of its channel. -/
def heldBy (states : Nat) (frame : FallbackFrame) (c : Nat) : Option Bool :=
  if frame.couplersValid.toNat.testBit (c % 16) && states.testBit (c % 16) != frame.couplers.toNat.testBit (c % 16) then
    some (frame.couplers.toNat.testBit (c % 16))
  else none

/-- The compare of one channel with its coupler. -/
def compareStep (g states : Nat) (frame : FallbackFrame) (u : State) (c : Nat) : State :=
  if ((u.fioCh c).mode = 1 ∨ (u.fioCh c).mode = 2) ∧ u.fioSampling g then
    (u.fioCompare c (states.testBit (c % 16) != frame.couplers.toNat.testBit (c % 16) ||
      !frame.couplersValid.toNat.testBit (c % 16))).modCh c fun ch => { ch with cplHeld := heldBy states frame c }
  else u

section
variable {s : State} {dt states : Nat} {group : Fin 2} {frame : FallbackFrame}

theorem regs_arrived (s : State) (g why : Nat) :
    (arrived s g why).regs = (runAll s [.count (Reg.FIO_SERRX g) 1, .count why 1]).regs :=
  regs_written_of (s := s) (u := s.modGrp g fun x => { x with inStates := none }) rfl _

theorem fioGrp_arrived (s : State) (g why : Nat) : (arrived s g why).fioGrp g = { s.fioGrp g with inStates := none } :=
  fioGrp_modGrp_self ..

/-- A frame that counts as arrived, and under one more word of its group. -/
theorem arrived_facts {g why : Nat} (hs : s.regsWf = true) (hwhy : Reg.FIO_SERRX g + 8 ≤ why) :
    Counted (Reg.FIO_SERRX g) 1 s (arrived (s.elapse dt) g why) ∧ Counted why 1 s (arrived (s.elapse dt) g why) ∧
      ((arrived (s.elapse dt) g why).fioGrp g).inStates = none ∧
      ((arrived (s.elapse dt) g why).fioGrp g).gotIn = (s.fioGrp g).gotIn ∧
      Leaves dt (two (Reg.FIO_SERRX g) ++ two why) s (arrived (s.elapse dt) g why)
        { arrived (s.elapse dt) g why with fio := { (arrived (s.elapse dt) g why).fio with grp := s.fio.grp } } := by
  have hu : (s.elapse dt).regsWf = true := hs
  have hr := regs_arrived (s.elapse dt) g why
  have hgrp := fioGrp_arrived (s.elapse dt) g why
  refine ⟨?_, ?_, congrArg FioGrp.inStates hgrp, (congrArg FioGrp.gotIn hgrp :), regsKept_of_regs (s := s.elapse dt) hr
    (by simp [RegOp.words]), fun _ => rfl, rfl⟩
  · rw [Counted, rd64_of_regs hu hr]
    simp (disch := grind) [RegOp.see]
  · rw [Counted, rd64_of_regs hu hr]
    simp (disch := grind) [RegOp.see]

theorem exec_inboundFrameRx_crc (hup : s.logicUp = true) (hstates : (s.fioGrp group.val).inStates = some states)
    (hcrc : frame.crcOk = false) :
    exec (.inboundFrameRx dt group frame) s =
      .next (arrived (s.elapse dt) group.val (Reg.FIO_SERCRC group.val)) := by
  have hup' : ¬ (!(s.elapse dt).logicUp) = true := by rw [show (s.elapse dt).logicUp = true from hup]; decide
  show execInboundFrameRx dt group frame s = _
  simp only [execInboundFrameRx, show (s.elapse dt).fioGrp group.val = s.fioGrp group.val from rfl, hstates]
  refine congrArg Host.Outcome.next ((if_neg hup').trans ((if_pos (by rw [hcrc]; rfl)).trans ?_))
  rw [inc64_eq_written, inc64_eq_written, written_written]
  rfl

theorem exec_inboundFrameRx_index (hup : s.logicUp = true) (hstates : (s.fioGrp group.val).inStates = some states)
    (hcrc : frame.crcOk = true) (hindex : frame.index.val ≠ (s.fioGrp group.val).index) :
    exec (.inboundFrameRx dt group frame) s =
      .next (arrived (s.elapse dt) group.val (Reg.FIO_SERSEQ group.val)) := by
  have hup' : ¬ (!(s.elapse dt).logicUp) = true := by rw [show (s.elapse dt).logicUp = true from hup]; decide
  show execInboundFrameRx dt group frame s = _
  simp only [execInboundFrameRx, show (s.elapse dt).fioGrp group.val = s.fioGrp group.val from rfl, hstates]
  refine congrArg Host.Outcome.next ((if_neg hup').trans ((if_neg (by rw [hcrc]; decide)).trans ((if_pos hindex).trans ?_)))
  rw [inc64_eq_written, inc64_eq_written, written_written]
  rfl

theorem exec_inboundFrameRx_good (hup : s.logicUp = true) (hstates : (s.fioGrp group.val).inStates = some states)
    (hcrc : frame.crcOk = true) (hindex : frame.index.val = (s.fioGrp group.val).index) :
    exec (.inboundFrameRx dt group frame) s = .next
      (((fioChans group.val).foldl (compareStep group.val states frame) (accepted (s.elapse dt) group.val)).fioShowGroup group.val) := by
  have hup' : ¬ (!(s.elapse dt).logicUp) = true := by rw [show (s.elapse dt).logicUp = true from hup]; decide
  show execInboundFrameRx dt group frame s = _
  simp only [execInboundFrameRx, show (s.elapse dt).fioGrp group.val = s.fioGrp group.val from rfl, hstates]
  refine congrArg Host.Outcome.next ((if_neg hup').trans ((if_neg (by rw [hcrc]; decide)).trans ((if_neg (not_not.mpr hindex)).trans ?_)))
  rw [inc64_eq_written, inc64_eq_written, written_written]
  rfl

/-- A frame with a bad check. -/
theorem inboundBadCheck (hs : s.regsWf = true) (hup : s.logicUp = true) (hstates : (s.fioGrp group.val).inStates = some states)
    (hcrc : frame.crcOk = false) :
    ∃ t, exec (.inboundFrameRx dt group frame) s = .next t ∧
      Counted (Reg.FIO_SERRX group.val) 1 s t ∧
      Counted (Reg.FIO_SERCRC group.val) 1 s t ∧
      (t.fioGrp group.val).inStates = none ∧
      (t.fioGrp group.val).gotIn = (s.fioGrp group.val).gotIn ∧
      Leaves dt ((two (Reg.FIO_SERRX group.val) ++ two (Reg.FIO_SERCRC group.val))) s t
        { t with fio := { t.fio with grp := s.fio.grp } } := by
  obtain ⟨hrx, hbad, hstates', hgot, hleaves⟩ := arrived_facts (dt := dt) (g := group.val) (why := Reg.FIO_SERCRC group.val) hs
    (by show 0x70800 + group.val * 0x40 + 8 ≤ 0x70810 + group.val * 0x40; omega)
  exact ⟨_, exec_inboundFrameRx_crc hup hstates hcrc, hrx, hbad, hstates', hgot, hleaves⟩

/-- A frame of another refresh. -/
theorem inboundBadIndex (hs : s.regsWf = true) (hup : s.logicUp = true) (hstates : (s.fioGrp group.val).inStates = some states)
    (hcrc : frame.crcOk = true) (hindex : frame.index.val ≠ (s.fioGrp group.val).index) :
    ∃ t, exec (.inboundFrameRx dt group frame) s = .next t ∧
      Counted (Reg.FIO_SERRX group.val) 1 s t ∧
      Counted (Reg.FIO_SERSEQ group.val) 1 s t ∧
      (t.fioGrp group.val).gotIn = (s.fioGrp group.val).gotIn ∧
      Leaves dt ((two (Reg.FIO_SERRX group.val) ++ two (Reg.FIO_SERSEQ group.val))) s t
        { t with fio := { t.fio with grp := s.fio.grp } } := by
  obtain ⟨hrx, hbad, -, hgot, hleaves⟩ := arrived_facts (dt := dt) (g := group.val) (why := Reg.FIO_SERSEQ group.val) hs
    (by show 0x70800 + group.val * 0x40 + 8 ≤ 0x70818 + group.val * 0x40; omega)
  exact ⟨_, exec_inboundFrameRx_index hup hstates hcrc hindex, hrx, hbad, hgot, hleaves⟩

end

/-! ### A coupler that disagrees for the third time (R268) -/

/-- A disagreement of a channel with its coupler. -/
def differing (x : FioCh) : FioCh := { x with dis := min 3 (x.dis + 1), xchk := true }

/-- The coupler of a channel is declared faulty, and seen holding `held`. -/
def faulted (s : State) (c : Nat) (held : Option Bool) : State :=
  (offer (((written s [.count (Reg.FIO_XDIS c) 1]).modCh c differing).modCh c fun x => { x with cplFault := true }) 0x07
    ⟨0x08, 0x0601, 4, coll s, s.time.mt, p4 [c, 0]⟩).modCh c fun x => { x with cplHeld := held }

section
variable {s u : State} {c : Nat}

theorem regs_faulted (s : State) (c : Nat) (held : Option Bool) :
    (faulted s c held).regs = (written s [.count (Reg.FIO_XDIS c) 1]).regs := rfl

theorem outer_faulted (s : State) (c : Nat) (held : Option Bool) : outer (faulted s c held) = outer s := rfl

theorem fioGrp_faulted (s : State) (c g : Nat) (held : Option Bool) : (faulted s c held).fioGrp g = s.fioGrp g := rfl

theorem ports_faulted (s : State) (c : Nat) (held : Option Bool) :
    (faulted s c held).arc.ports = portsWith s 0x07 ⟨0x08, 0x0601, 4, coll s, s.time.mt, p4 [c, 0]⟩ := rfl

theorem fioCh_faulted_self (s : State) (c : Nat) (held : Option Bool) :
    (faulted s c held).fioCh c = { differing (s.fioCh c) with cplFault := true, cplHeld := held } := by
  have hinner : ((written s [.count (Reg.FIO_XDIS c) 1]).modCh c differing).fioCh c = differing (s.fioCh c) := fioCh_modCh_self ..
  have hmid := fioCh_modCh_self ((written s [.count (Reg.FIO_XDIS c) 1]).modCh c differing) c fun x => { x with cplFault := true }
  have hlast := fioCh_modCh_self (offer (((written s [.count (Reg.FIO_XDIS c) 1]).modCh c differing).modCh c fun x =>
    { x with cplFault := true }) 0x07 ⟨0x08, 0x0601, 4, coll s, s.time.mt, p4 [c, 0]⟩) c fun x => { x with cplHeld := held }
  rw [hinner] at hmid
  exact hlast.trans (congrArg (fun x : FioCh => { x with cplHeld := held }) hmid)

theorem fioCh_faulted_ne (s : State) {c k : Nat} (h : k ≠ c) (held : Option Bool) : (faulted s c held).fioCh k = s.fioCh k :=
  (fioCh_modCh_ne _ h _).trans ((fioCh_modCh_ne _ h _).trans (fioCh_modCh_ne _ h _))

theorem fioCompare_faulty (hmode : (s.fioCh c).mode = 1) (hdis : (s.fioCh c).dis = 2) (hgood : (s.fioCh c).cplFault = false)
    (hroom : PortRoom s 0x07) (hout : Reg.FIO_EVCOLL ∉ two (Reg.FIO_XDIS c)) (held : Option Bool) :
    ((s.fioCompare c true).modCh c fun x => { x with cplHeld := held }) = faulted s c held := by
  have hch : ((written s [.count (Reg.FIO_XDIS c) 1]).modCh c differing).fioCh c = differing (s.fioCh c) := fioCh_modCh_self ..
  have hfault : 3 ≤ (differing (s.fioCh c)).dis ∧ (!(differing (s.fioCh c)).cplFault) = true := by
    rw [differing, hdis, hgood]
    exact ⟨Nat.le_refl 3, rfl⟩
  have hevent := fioEvent_after (s := s) (u := ((written s [.count (Reg.FIO_XDIS c) 1]).modCh c differing).modCh c fun x =>
    { x with cplFault := true }) (regs_written s [.count (Reg.FIO_XDIS c) 1]) (by simpa [RegOp.words] using hout) rfl hroom 0x0601 4
    (p4 [c, 0])
  refine congrArg (fun v : State => v.modCh c fun x => { x with cplHeld := held }) ?_
  unfold State.fioCompare
  rw [Bool.not_true, if_neg Bool.false_ne_true, inc64_eq_written]
  show (if 3 ≤ (((written s [.count (Reg.FIO_XDIS c) 1]).modCh c differing).fioCh c).dis ∧
    (!(((written s [.count (Reg.FIO_XDIS c) 1]).modCh c differing).fioCh c).cplFault) = true then
      (((written s [.count (Reg.FIO_XDIS c) 1]).modCh c differing).modCh c fun x => { x with cplFault := true }).fioEvent 0x0601 4
        (p4 [c, b2n ((((written s [.count (Reg.FIO_XDIS c) 1]).modCh c differing).fioCh c).mode == 3)])
    else (written s [.count (Reg.FIO_XDIS c) 1]).modCh c differing) = _
  rw [hch, if_pos hfault, show (differing (s.fioCh c)).mode = 1 from hmode]
  exact hevent

end

section
variable {s : State} {dt states c : Nat} {group : Fin 2} {frame : FallbackFrame}

theorem regs_accepted (s : State) (g : Nat) :
    (accepted s g).regs = (runAll s [.count (Reg.FIO_SERRX g) 1, .count (Reg.FIO_SEROK g) 1]).regs := regs_arrived ..

theorem fioGrp_accepted (s : State) (g : Nat) :
    (accepted s g).fioGrp g = { s.fioGrp g with inStates := none, gotIn := true } :=
  (fioGrp_modGrp_self ..).trans (congrArg (fun x : FioGrp => { x with gotIn := true }) (fioGrp_arrived ..))

theorem fioCh_accepted (s : State) (g k : Nat) : (accepted s g).fioCh k = s.fioCh k := rfl
theorem outer_accepted (s : State) (g : Nat) : outer (accepted s g) = outer s := rfl
theorem arc_accepted (s : State) (g : Nat) : (accepted s g).arc = s.arc := rfl

theorem fioSampling_accepted {g : Nat} (hg : g < 2) : (accepted s g).fioSampling g = s.fioSampling g := by
  have hout : Reg.FIO_GSTAT g ∉ two (Reg.FIO_SERRX g) ++ two (Reg.FIO_SEROK g) := by
    simp only [List.mem_append, List.mem_cons, List.not_mem_nil, or_false]
    show ¬ ((0x70008 + g * 0x4 = 0x70800 + g * 0x40 ∨ 0x70008 + g * 0x4 = 0x70800 + g * 0x40 + 4) ∨
      0x70008 + g * 0x4 = 0x70808 + g * 0x40 ∨ 0x70008 + g * 0x4 = 0x70808 + g * 0x40 + 4)
    omega
  have hstate : (accepted s g).fioState g = s.fioState g :=
    getF_of_regsKept (regsKept_of_regs (regs_accepted s g) (ws := two (Reg.FIO_SERRX g) ++ two (Reg.FIO_SEROK g))
      (by simp [RegOp.words])) (f := Fld.FIO_GSTAT_STATE g) (by simp) hout
  rw [State.fioSampling, State.fioSampling, hstate]

/-- A channel that is off is not compared. -/
theorem compareStep_off {g : Nat} {u : State} {k : Nat} (h : (u.fioCh k).mode = 0) : compareStep g states frame u k = u :=
  if_neg fun ⟨hmode, _⟩ => by omega

theorem compareStep_faulty {g : Nat} {u : State} (hmode : (u.fioCh c).mode = 1) (hdis : (u.fioCh c).dis = 2)
    (hgood : (u.fioCh c).cplFault = false) (hsampling : u.fioSampling g = true) (hroom : PortRoom u 0x07)
    (hdiffer : states.testBit (c % 16) ≠ frame.couplers.toNat.testBit (c % 16)) (hout : Reg.FIO_EVCOLL ∉ two (Reg.FIO_XDIS c)) :
    compareStep g states frame u c = faulted u c (heldBy states frame c) := by
  refine (if_pos ⟨.inl hmode, hsampling⟩).trans ?_
  rw [show (states.testBit (c % 16) != frame.couplers.toNat.testBit (c % 16)) = true from bne_iff_ne.mpr hdiffer, Bool.true_or]
  exact fioCompare_faulty hmode hdis hgood hroom hout _

/-- The compare of a group of which one channel is in use. -/
theorem compare_single {g : Nat} {u : State} (hc : c / 16 = g)
    (halone : ((fioChans g).all fun k => k == c || (u.fioCh k).mode == 0) = true) (hmode : (u.fioCh c).mode = 1)
    (hdis : (u.fioCh c).dis = 2) (hgood : (u.fioCh c).cplFault = false) (hsampling : u.fioSampling g = true) (hroom : PortRoom u 0x07)
    (hdiffer : states.testBit (c % 16) ≠ frame.couplers.toNat.testBit (c % 16)) (hout : Reg.FIO_EVCOLL ∉ two (Reg.FIO_XDIS c)) :
    (fioChans g).foldl (compareStep g states frame) u = faulted u c (heldBy states frame c) := by
  have hstep := compareStep_faulty hmode hdis hgood hsampling hroom hdiffer hout
  have hoff (k : Nat) (hk : k ∈ fioChans g) (hne : k ≠ c) : (u.fioCh k).mode = 0 := by
    have hone := List.all_eq_true.mp halone k hk
    simpa [hne] using hone
  refine (foldl_single _ (nodup_fioChans g) (mem_fioChans.mpr hc) u (fun k hk hne => compareStep_off (hoff k hk hne))
    fun k hk hne => compareStep_off ?_).trans hstep
  rw [hstep, fioCh_faulted_ne u hne]
  exact hoff k hk hne

theorem words_compare {g : Nat} (hg : g < 2) (hc : c < 32) :
    ∀ a ∈ ([RegOp.count (Reg.FIO_SERRX g) 1, .count (Reg.FIO_SEROK g) 1] ++ [RegOp.count (Reg.FIO_XDIS c) 1]).flatMap RegOp.words,
      a / 65536 = 7 := by
  simp only [RegOp.words, List.cons_append, List.nil_append, List.flatMap_cons, List.flatMap_nil, List.mem_cons, List.not_mem_nil,
    or_false]
  rintro a (rfl | rfl | rfl | rfl | rfl | rfl)
  · show (0x70800 + g * 0x40) / 65536 = 7
    omega
  · show (0x70800 + g * 0x40 + 4) / 65536 = 7
    omega
  · show (0x70808 + g * 0x40) / 65536 = 7
    omega
  · show (0x70808 + g * 0x40 + 4) / 65536 = 7
    omega
  · show (0x70208 + c * 0x20) / 65536 = 7
    omega
  · show (0x70208 + c * 0x20 + 4) / 65536 = 7
    omega

/-- The third disagreement in a row. -/
theorem inboundThird (hs : s.regsWf = true) (hup : s.logicUp = true) (hstates : (s.fioGrp group.val).inStates = some states)
    (hsampling : s.fioSampling group.val = true) (hcrc : frame.crcOk = true) (hindex : frame.index.val = (s.fioGrp group.val).index)
    (hc : c / 16 = group.val) (halone : ((fioChans group.val).all fun k => k == c || (s.fioCh k).mode == 0) = true)
    (hmode : (s.fioCh c).mode = 1) (hdis : (s.fioCh c).dis = 2) (hgood : (s.fioCh c).cplFault = false)
    (hdiffer : states.testBit (c % 16) ≠ frame.couplers.toNat.testBit (c % 16)) (hroom : PortRoom s 0x07) :
    ∃ t, exec (.inboundFrameRx dt group frame) s = .next t ∧
      Counted (Reg.FIO_SERRX group.val) 1 s t ∧
      Counted (Reg.FIO_SEROK group.val) 1 s t ∧
      Counted (Reg.FIO_XDIS c) 1 s t ∧
      (t.fioCh c).cplFault = true ∧
      (t.fioCh c).xchk = true ∧
      (t.fioGrp group.val).gotIn = true ∧
      (Offered 0x07 0x0601 4 (if 55 < s.getF Fld.FIO_EVCOLL_COLL then 0 else s.getF Fld.FIO_EVCOLL_COLL) (p4 [c, 0]) s t) ∧
      LeavesOut dt [7] s t { t with fio := s.fio, arc := { t.arc with ports := s.arc.ports } } := by
  have hlt := group.isLt
  have hu : (s.elapse dt).regsWf = true := hs
  have hout : Reg.FIO_EVCOLL ∉ two (Reg.FIO_XDIS c) := by
    simp only [List.mem_cons, List.not_mem_nil, or_false]
    show ¬ (0x70004 = 0x70208 + c * 0x20 ∨ 0x70004 = 0x70208 + c * 0x20 + 4)
    omega
  have hexec := exec_inboundFrameRx_good (dt := dt) hup hstates hcrc hindex
  have hr := regs_accepted (s.elapse dt) group.val
  have hgrp := fioGrp_accepted (s.elapse dt) group.val
  have hch := fioCh_accepted (s.elapse dt) group.val
  have houter := outer_accepted (s.elapse dt) group.val
  have harc := arc_accepted (s.elapse dt) group.val
  have hsampling' : (accepted (s.elapse dt) group.val).fioSampling group.val = true := (fioSampling_accepted hlt).trans hsampling
  generalize accepted (s.elapse dt) group.val = w at *
  have hroom' : PortRoom w 0x07 := by
    show _ < _
    rw [harc]
    exact hroom
  have hfold := compare_single (u := w) (states := states) (frame := frame) hc (by simp only [hch]; exact halone)
    (by rw [hch]; exact hmode) (by rw [hch]; exact hdis) (by rw [hch]; exact hgood) hsampling' hroom' hdiffer hout
  rw [hfold] at hexec
  generalize heldBy states frame c = held at hexec
  have hrv := (regs_faulted w c held).trans (regs_written_append hr [.count (Reg.FIO_XDIS c) 1])
  have hchv := fioCh_faulted_self w c held
  have hgrpv := (fioGrp_faulted w c group.val held).trans hgrp
  have hportsv := ports_faulted w c held
  have houterv := (outer_faulted w c held).trans houter
  generalize faulted w c held = v at *
  have hvwf := regsWf_of_regs hu hrv
  have hshow := works_showGroup v group.val
  have hgrpt := (fioGrp_fioShowGroup v group.val group.val).trans hgrpv
  have hcht := (fioCh_fioShowGroup v group.val c).trans hchv
  have houtert := (outer_fioShowGroup v group.val).trans houterv
  have hserrx : 0x70800 ≤ Reg.FIO_SERRX group.val := by show 0x70800 ≤ 0x70800 + group.val * 0x40; omega
  have hserok : Reg.FIO_SEROK group.val = Reg.FIO_SERRX group.val + 8 := by
    show 0x70808 + group.val * 0x40 = 0x70800 + group.val * 0x40 + 8
    omega
  have hxdis : 0x70208 ≤ Reg.FIO_XDIS c ∧ Reg.FIO_XDIS c + 8 < 0x70800 := by
    show 0x70208 ≤ 0x70208 + c * 0x20 ∧ 0x70208 + c * 0x20 + 8 < 0x70800
    omega
  have hevcoll : Reg.FIO_EVCOLL = 0x70004 := rfl
  have hcounted (a : Nat) (ha : a = Reg.FIO_SERRX group.val ∨ a = Reg.FIO_SEROK group.val ∨ a = Reg.FIO_XDIS c) :
      Counted a 1 s (v.fioShowGroup group.val) := by
    rw [Counted, hshow.rd64 hvwf (spared_count hlt (by omega)) (spared_count hlt (by omega)), rd64_of_regs hu hrv]
    rcases ha with rfl | rfl | rfl
    · simp (disch := grind) [RegOp.see]
    · simp (disch := grind) [RegOp.see]
    · simp (disch := grind) [RegOp.see]
  refine ⟨_, hexec, hcounted _ (.inl rfl), hcounted _ (.inr (.inl rfl)), hcounted _ (.inr (.inr rfl)), congrArg FioCh.cplFault hcht,
    congrArg FioCh.xchk hcht, congrArg FioGrp.gotIn hgrpt, ?_, ?_⟩
  · refine offered_of_ports ((ports_fioShowGroup ..).trans (hportsv.trans ?_))
    rw [mt_of_outer houtert, portsWith, portsWith, harc, coll_of_regs hr (by simp [RegOp.words]; omega), mt_of_outer houter]
    rfl
  · exact leavesOut_of_outer (regs_shown (s := s.elapse dt) hu hrv (words_compare hlt (by omega)) hlt hshow) houtert

end

/-! ### The outbound frame (R268, R269) -/

/-- What an outbound frame leaves of a channel, where its coupler shows what the frame says. -/
def fed (now states c : Nat) (x : FioCh) : FioCh :=
  if x.mode ≠ 3 then x
  else if x.cplFault then ({ x with dis := 0 } : FioCh).refresh now (states.testBit (c % 16))
  else ({ x with dis := 0, cplHeld := none } : FioCh).refresh now (states.testBit (c % 16))

/-- A compare without disagreement. -/
def agreed (x : FioCh) : FioCh := { x with dis := 0 }

/-- What the frame does to a channel after its compare. -/
def latchRule (u : State) (g states : Nat) (frame : FallbackFrame) (atEdge : Bool) (c : Nat) (ch : FioCh) : FioCh :=
  if ch.cplFault then (if u.serOk g then ch.refresh u.time.clock (states.testBit (c % 16)) else ch)
  else if atEdge || !frame.couplersValid.toNat.testBit (c % 16) then ch
  else ({ ch with
      cplHeld :=
        if states.testBit (c % 16) != frame.couplers.toNat.testBit (c % 16) then some (frame.couplers.toNat.testBit (c % 16))
        else none } : FioCh).refresh u.time.clock (frame.couplers.toNat.testBit (c % 16))

/-- The compare of an output with its coupler, and the refresh of its latch. -/
def latchStep (g states : Nat) (frame : FallbackFrame) (atEdge : Bool) (s : State) (c : Nat) : State :=
  if (s.fioCh c).mode ≠ 3 then s
  else
    let u := s.fioCompare c (states.testBit (c % 16) != frame.couplers.toNat.testBit (c % 16) ||
      !frame.couplersValid.toNat.testBit (c % 16))
    u.modCh c (latchRule u g states frame atEdge c)

/-- The outbound frame of a refresh has arrived and is a good one. -/
def taken (s : State) (g : Nat) : State :=
  (s.modGrp g fun x => { x with outStates := none }).modGrp g fun x => { x with gotOut := true }

section
variable {s u : State} {dt states g now : Nat} {group : Fin 2} {frame : FallbackFrame}

theorem exec_outboundFrameRx (hpowered : s.fioPowered group.val = true) (hcrc : frame.crcOk = true)
    (hindex : frame.index.val = (s.fioGrp group.val).index) (hstates : (s.fioGrp group.val).outStates = some states)
    (hrefreshes : s.refreshes group.val = true) :
    exec (.outboundFrameRx dt group frame) s = .next (((fioChans group.val).foldl
      (latchStep group.val states frame (s.fioGrp group.val).atEdge) (taken (s.elapse dt) group.val)).fioShowGroup group.val) := by
  have hpowered' : ¬ (!(s.elapse dt).fioPowered group.val) = true := by
    rw [show (s.elapse dt).fioPowered group.val = true from hpowered]
    decide
  have hgood : ¬ ((!frame.crcOk) = true ∨ frame.index.val ≠ (s.fioGrp group.val).index) := by
    rw [not_or, not_not]
    exact ⟨by rw [hcrc]; decide, hindex⟩
  have hrefreshes' : ¬ (!(taken (s.elapse dt) group.val).refreshes group.val) = true := by
    rw [show (taken (s.elapse dt) group.val).refreshes group.val = true from hrefreshes]
    decide
  show execOutboundFrameRx dt group frame s = _
  simp only [execOutboundFrameRx, show (s.elapse dt).fioGrp group.val = s.fioGrp group.val from rfl, hstates]
  refine congrArg Host.Outcome.next ((if_neg hpowered').trans ((if_neg hgood).trans ?_))
  exact congrArg (fun v : State => v.fioShowGroup group.val) (if_neg hrefreshes')

theorem valid_testBit (hvalid : frame.couplersValid = 0xFFFF) (c : Nat) : frame.couplersValid.toNat.testBit (c % 16) = true := by
  rw [hvalid]
  show (2 ^ 16 - 1).testBit (c % 16) = true
  rw [Nat.testBit_two_pow_sub_one]
  exact decide_eq_true (Nat.mod_lt _ (by decide))

/-- A coupler that shows a valid pattern with the state of the frame agrees. -/
theorem latchStep_agrees (hcouplers : frame.couplers.toNat = states) (hvalid : frame.couplersValid = 0xFFFF) {c : Nat}
    (hmode : (u.fioCh c).mode = 3) :
    latchStep g states frame false u c = (u.modCh c agreed).modCh c (latchRule (u.modCh c agreed) g states frame false c) := by
  have hsame : u.fioCompare c (states.testBit (c % 16) != frame.couplers.toNat.testBit (c % 16) ||
      !frame.couplersValid.toNat.testBit (c % 16)) = u.modCh c agreed := by
    rw [hcouplers, valid_testBit hvalid, bne_self_eq_false]
    rfl
  refine (if_neg (not_not.mpr hmode)).trans ?_
  rw [hsame]

theorem latchRule_fed (hcouplers : frame.couplers.toNat = states) (hvalid : frame.couplersValid = 0xFFFF) (hok : u.serOk g = true)
    (hclock : u.time.clock = now) {c : Nat} {x : FioCh} (hmode : x.mode = 3) :
    latchRule u g states frame false c (agreed x) = fed now states c x := by
  rw [latchRule, fed, if_neg (not_not.mpr hmode), hok, hclock, valid_testBit hvalid, hcouplers, bne_self_eq_false]
  rfl

theorem onlyCh_latchStep (hcouplers : frame.couplers.toNat = states) (hvalid : frame.couplersValid = 0xFFFF) (u : State) (c : Nat) :
    OnlyCh u (latchStep g states frame false u c) := by
  by_cases hmode : (u.fioCh c).mode = 3
  case pos =>
    rw [latchStep_agrees hcouplers hvalid hmode]
    exact (onlyCh_modCh ..).trans (onlyCh_modCh ..)
  case neg =>
    rw [latchStep, if_pos hmode]
    exact .refl u

theorem fioCh_latchStep_self (hcouplers : frame.couplers.toNat = states) (hvalid : frame.couplersValid = 0xFFFF)
    (hok : u.serOk g = true) (hclock : u.time.clock = now) (c : Nat) :
    (latchStep g states frame false u c).fioCh c = fed now states c (u.fioCh c) := by
  by_cases hmode : (u.fioCh c).mode = 3
  case pos =>
    rw [latchStep_agrees hcouplers hvalid hmode, fioCh_modCh_self, fioCh_modCh_self]
    exact latchRule_fed (u := u.modCh c agreed) hcouplers hvalid hok hclock hmode
  case neg => rw [latchStep, fed, if_pos hmode, if_pos hmode]

theorem fioCh_latchStep_ne (hcouplers : frame.couplers.toNat = states) (hvalid : frame.couplersValid = 0xFFFF) {c k : Nat}
    (h : k ≠ c) : (latchStep g states frame false u c).fioCh k = u.fioCh k := by
  by_cases hmode : (u.fioCh c).mode = 3
  case pos =>
    rw [latchStep_agrees hcouplers hvalid hmode, fioCh_modCh_ne _ h, fioCh_modCh_ne _ h]
  case neg => rw [latchStep, if_pos hmode]

/-- The latches of a group after a good outbound frame. -/
theorem fioCh_latched (hcouplers : frame.couplers.toNat = states) (hvalid : frame.couplersValid = 0xFFFF) (hok : u.serOk g = true)
    (k : Nat) : ((fioChans g).foldl (latchStep g states frame false) u).fioCh k =
      if k ∈ fioChans g then fed u.time.clock states k (u.fioCh k) else u.fioCh k := by
  refine fioCh_foldl (P := fun v => v.serOk g = true ∧ v.time.clock = u.time.clock) (F := fed u.time.clock states) ?_ ?_ ?_ _
    (nodup_fioChans g) ⟨hok, rfl⟩ k
  · rintro v c ⟨hvok, hvclock⟩
    have honly := onlyCh_latchStep (g := g) hcouplers hvalid v c
    have hbit : (latchStep g states frame false v c).serOk g = v.serOk g := (congrArg (fun x : State => x.serOk g) honly :)
    exact ⟨hbit.trans hvok, (congrArg TimeSt.clock honly.time).trans hvclock⟩
  · rintro v c ⟨hvok, hvclock⟩
    exact fioCh_latchStep_self hcouplers hvalid hvok hvclock c
  · intro v c k _ hne
    exact fioCh_latchStep_ne hcouplers hvalid hne

theorem fioGrp_taken (s : State) (g : Nat) : (taken s g).fioGrp g = { s.fioGrp g with outStates := none, gotOut := true } :=
  (fioGrp_modGrp_self ..).trans (congrArg (fun x : FioGrp => { x with gotOut := true }) (fioGrp_modGrp_self ..))

theorem fioCh_taken (s : State) (g k : Nat) : (taken s g).fioCh k = s.fioCh k := rfl
theorem regs_taken (s : State) (g : Nat) : (taken s g).regs = s.regs := rfl
theorem time_taken (s : State) (g : Nat) : (taken s g).time = s.time := rfl
theorem besideFio_taken (s : State) (g : Nat) : besideFio (taken s g) = besideFio s := rfl
theorem serOk_taken (s : State) (g : Nat) : (taken s g).serOk g = s.serOk g := rfl

/-- What a fed output holds. -/
theorem fed_output {c : Nat} {x : FioCh} (hmode : x.mode = 3) :
    (fed now states c x).latch = states.testBit (c % 16) ∧ (fed now states c x).refAt = some now ∧
      (fed now states c x).failAt = none ∧ (fed now states c x).dis = 0 := by
  rw [fed, if_neg (not_not.mpr hmode)]
  split
  · exact ⟨rfl, rfl, rfl, rfl⟩
  · exact ⟨rfl, rfl, rfl, rfl⟩

/-- A good outbound frame, within a beat. -/
theorem outboundGood (hs : s.regsWf = true) (hpowered : s.fioPowered group.val = true) (hcrc : frame.crcOk = true)
    (hindex : frame.index.val = (s.fioGrp group.val).index) (hstates : (s.fioGrp group.val).outStates = some states)
    (hedge : (s.fioGrp group.val).atEdge = false) (hrefreshes : s.refreshes group.val = true) (hok : s.serOk group.val = true)
    (hcouplers : frame.couplers.toNat = states) (hvalid : frame.couplersValid = 0xFFFF) :
    ∃ t, exec (.outboundFrameRx dt group frame) s = .next t ∧
      (∀ c, c / 16 = group.val → (s.fioCh c).mode = 3 → (t.fioCh c).latch = states.testBit (c % 16) ∧ (t.fioCh c).refAt =
        some (s.elapse dt).time.clock ∧ (t.fioCh c).failAt = none ∧ (t.fioCh c).dis = 0) ∧
      (∀ c, c / 16 ≠ group.val ∨ (s.fioCh c).mode ≠ 3 → t.fioCh c = s.fioCh c) ∧
      (t.fioGrp group.val).gotOut = true ∧
      LeavesOut dt [7] s t { t with fio := s.fio } := by
  have hexec := exec_outboundFrameRx (dt := dt) hpowered hcrc hindex hstates hrefreshes
  rw [hedge] at hexec
  have honly : OnlyCh (taken (s.elapse dt) group.val) ((fioChans group.val).foldl (latchStep group.val states frame false)
    (taken (s.elapse dt) group.val)) := onlyCh_foldl (onlyCh_latchStep hcouplers hvalid) _ _
  have hch := fioCh_latched (g := group.val) (u := taken (s.elapse dt) group.val) hcouplers hvalid ((serOk_taken ..).trans hok)
  have hgrp := (honly.fioGrp group.val).trans (fioGrp_taken (s.elapse dt) group.val)
  have hr := honly.regs.trans (regs_taken (s.elapse dt) group.val)
  have hbeside := (besideFio_of_onlyCh honly).trans (besideFio_taken (s.elapse dt) group.val)
  simp only [time_taken, fioCh_taken] at hch
  clear honly
  generalize (fioChans group.val).foldl (latchStep group.val states frame false) (taken (s.elapse dt) group.val) = v at *
  refine ⟨_, hexec, fun c hc hmode => ?_, fun c hout => ?_, congrArg FioGrp.gotOut ((fioGrp_fioShowGroup ..).trans hgrp),
    leavesOut_of_besideFio (regs_shown (s := s.elapse dt) (l := []) hs hr (by simp) group.isLt (works_showGroup ..))
      ((besideFio_fioShowGroup ..).trans hbeside)⟩
  · rw [fioCh_fioShowGroup, hch, if_pos (mem_fioChans.mpr hc)]
    exact fed_output hmode
  · rw [fioCh_fioShowGroup, hch]
    rcases hout with hc | hmode
    · exact if_neg (mt mem_fioChans.mp hc)
    · refine ite_eq_right_iff.mpr fun _ => ?_
      exact if_pos hmode

end

end Sys2Proof.Proofs.FallbackFrames

/-! Field groups whose supply changes (R253, R255, R256, R271). -/

namespace Sys2Proof.Proofs.FieldSupplies

open Sys2Proof Sys2Proof.Machine Sys2Proof.Laws Sys2Proof.Proofs.Time Sys2Proof.Proofs.Power Sys2Proof.Proofs.RegOps
  Sys2Proof.Proofs.FieldOutputStates Sys2Proof.Proofs.GarnetFrames Sys2Proof.Proofs.FieldGroups Sys2Proof.Proofs.FieldPaths

/-! ### The state of a group -/

/-- The end of the refreshes of a group that samples no more. -/
def halted (s : State) (g new : Nat) : State :=
  if s.fioState g ≠ new ∧ (s.fioState g = 2 ∨ s.fioState g = 4) ∧ new ≠ 2 ∧ new ≠ 4 then s.stopRefresh else s

/-- What the status of a group shows of its supply. -/
def supplyWrites (s : State) (g new : Nat) : List RegOp :=
  [.field (Fld.FIO_GSTAT_VF g) (min 65535 (s.fioGrp g).vf.toNat), .bit (Fld.FIO_GSTAT_REVERSED g) (decide ((s.fioGrp g).vf < 0)),
    .bit (Fld.FIO_GSTAT_VF_LOW g) (decide ((s.fioGrp g).vf < s.vfMin)), .field (Fld.FIO_GSTAT_STATE g) new] ++
  if new = 3 then [.count (Reg.FIO_REVERSALS g) 1] else []

/-- A group takes another state, and reports it. -/
def reported (s : State) (g new : Nat) : State :=
  offer (written (halted s g new) (supplyWrites s g new)) 0x07 ⟨0x08, 0x0604, 3, coll s, s.time.mt, p4 [g, s.fioState g, new]⟩

/-- A channel whose isolated side starts or stops. -/
def restarted (now : Nat) (x : FioCh) : FioCh :=
  { x with
    latch := false, refAt := none, failAt := none, opened := false, level := false, net := 4, filt := fioOff x.mode
    since := now, supgap := false, therm := false, curlim := false }

section
variable {s t u : State} {dt g new : Nat}

theorem mode_map {F : Nat × FioCh → FioCh} (hF : ∀ x, (F x).mode = x.2.mode) (m : Tab FioCh) (k : Nat) :
    (tget (m.map fun x => (x.1, F x)) k).mode = (tget m k).mode := by
  induction m with
  | nil => rfl
  | cons x m ih =>
    by_cases hk : x.1 = k
    · simp [tget, sget, hk, hF]
    · simpa [tget, sget, hk] using ih

theorem mode_stopRefresh (s : State) (k : Nat) : (s.stopRefresh.fioCh k).mode = (s.fioCh k).mode := by
  refine mode_map (F := fun x => _) (fun x => ?_) s.fio.ch k
  dsimp only
  split
  · split
    · rfl
    · rfl
  · rfl

theorem onlyCh_halted (s : State) (g new : Nat) : OnlyCh s (halted s g new) := by
  unfold halted
  split
  · rfl
  · exact .refl s

theorem mode_halted (s : State) (g new k : Nat) : ((halted s g new).fioCh k).mode = (s.fioCh k).mode := by
  unfold halted
  split
  · exact mode_stopRefresh s k
  · rfl

theorem words_supplyWrites (s : State) (g new : Nat) :
    (supplyWrites s g new).flatMap RegOp.words ⊆ Reg.FIO_GSTAT g :: two (Reg.FIO_REVERSALS g) := by
  unfold supplyWrites
  split
  · simp [RegOp.words]
  · simp [RegOp.words]

theorem words_group {a : Nat} (hg : g < 2) (ha : a ∈ Reg.FIO_GSTAT g :: two (Reg.FIO_REVERSALS g)) :
    a / 65536 = 7 ∧ a ≠ Reg.FIO_EVCOLL := by
  simp only [List.mem_cons, List.not_mem_nil, or_false] at ha
  show a / 65536 = 7 ∧ a ≠ 0x70004
  change a = 0x70008 + g * 0x4 ∨ a = 0x70838 + g * 0x40 ∨ a = 0x70838 + g * 0x40 + 4 at ha
  omega

theorem regs_reported (s : State) (g new : Nat) : (reported s g new).regs = (runAll s (supplyWrites s g new)).regs :=
  (regs_offer ..).trans (regs_written_of (onlyCh_halted s g new).regs _)

theorem fio_reported (s : State) (g new : Nat) : (reported s g new).fio = (halted s g new).fio := FieldPaths.fio_reported ..

theorem mode_reported (s : State) (g new k : Nat) : ((reported s g new).fioCh k).mode = (s.fioCh k).mode := by
  rw [State.fioCh, fio_reported]
  exact mode_halted s g new k

theorem fioGrp_reported (s : State) (g new k : Nat) : (reported s g new).fioGrp k = s.fioGrp k := by
  rw [State.fioGrp, fio_reported]
  exact (onlyCh_halted s g new).fioGrp k

theorem ports_reported (s : State) (g new : Nat) :
    (reported s g new).arc.ports = portsWith s 0x07 ⟨0x08, 0x0604, 3, coll s, s.time.mt, p4 [g, s.fioState g, new]⟩ :=
  ports_offer_of_arc (s := s) ((arc_written ..).trans (onlyCh_halted s g new).arc)

theorem outer_reported (s : State) (g new : Nat) : outer (reported s g new) = outer s :=
  (outer_offer ..).trans (outer_of_besideFio ((besideFio_written ..).trans (besideFio_of_onlyCh (onlyCh_halted s g new))))

/-- A group that does not sample, or a module without custody, refreshes nothing. -/
theorem refreshes_false (h : s.custodyOn = false ∨ s.fioState g = 3) : s.refreshes g = false := by
  rcases h with h | h
  · rw [State.refreshes, h]
    rfl
  · rw [State.refreshes, State.fioSampling, h, Bool.and_assoc, Bool.and_assoc]
    simp

theorem fioCouple_idle (h : s.refreshes g = false) : s.fioCouple g = s := if_pos (by rw [h]; rfl)

theorem custodyOn_of_regs {l : List RegOp} (ht : t.regs = (runAll s l).regs) (hl : ∀ a ∈ l.flatMap RegOp.words, a / 65536 = 7) :
    t.custodyOn = s.custodyOn :=
  bit_of_regsKept (regsKept_of_regs ht fun _ h => h) (f := Fld.RPL_STATUS_ENABLE) (by decide)
    fun h => absurd (hl _ h) (by decide)

theorem fioState_reported (hs : s.regsWf = true) (hnew : new < 8) : (reported s g new).fioState g = new := by
  rw [State.fioState, getF_of_regs hs (regs_reported s g new), supplyWrites]
  split
  · simp (disch := grind) [RegOp.see]
    omega
  · simp (disch := grind) [RegOp.see]
    omega

end

/-! ### The change of a supply -/

section
variable {s t u : State} {dt g new : Nat}

theorem refreshes_reported (hs : s.regsWf = true) (hg : g < 2) (hidle : s.custodyOn = false ∨ new = 3) :
    (reported s g new).custodyOn = false ∨ (reported s g new).fioState g = 3 := by
  refine hidle.imp (fun h => ?_) fun h => ?_
  · exact (custodyOn_of_regs (regs_reported s g new) fun a ha => (words_group hg (words_supplyWrites s g new ha)).1).trans h
  · subst h
    exact fioState_reported hs (by decide)

/-- A group whose state changes, while none of its latches is being refreshed. -/
theorem fioGroup_changed (hs : s.regsWf = true) (hg : g < 2) (hroom : PortRoom s 0x07) (hnew : s.fioStateNow g = new)
    (hold : s.fioState g ≠ new) (hidle : s.custodyOn = false ∨ new = 3) :
    s.fioGroup g = (reported s g new).fioShowGroup g := by
  have honly := onlyCh_halted s g new
  have hidle' := refreshes_reported (s := s) hs hg hidle
  have hout : Reg.FIO_EVCOLL ∉ (supplyWrites s g new).flatMap RegOp.words := fun h =>
    (words_group hg (words_supplyWrites s g new h)).2 rfl
  have hevent : (written (halted s g new) (supplyWrites s g new)).fioEvent 0x0604 3 (p4 [g, s.fioState g, new]) = reported s g new :=
    fioEvent_after (regs_written_of honly.regs _) hout (congrArg TimeSt.mt honly.time)
      (portRoom_of_besideFio ((besideFio_written ..).trans (besideFio_of_onlyCh honly)) hroom) _ _ _
  have hmin : ((halted s g new).setF (Fld.FIO_GSTAT_VF g) (min 65535 (s.fioGrp g).vf.toNat)).vfMin = s.vfMin := by
    have hhv : ((halted s g new).setF (Fld.FIO_GSTAT_VF g) (min 65535 (s.fioGrp g).vf.toNat)).hv = s.hv := by
      rw [setF_eq_written]
      refine hv_of_regs (regs_written_of honly.regs _) fun a ha => ?_
      have ha : a = Reg.FIO_GSTAT g := by simpa [RegOp.words] using ha
      exact (words_group hg (ha ▸ List.mem_cons_self)).1
    exact congrArg (fun b : Bool => if b = true then (770 : Int) else 168) hhv
  unfold State.fioGroup
  rw [hnew]
  show (if s.fioState g = new then _ else _) = _
  rw [if_neg hold]
  change (((if new = 3 then _ else _ : State).fioEvent 0x0604 3 (p4 [g, s.fioState g, new])).fioCouple g).fioShowGroup g = _
  refine congrArg (fun v : State => v.fioShowGroup g) ?_
  refine Eq.trans (congrArg (fun v : State => (v.fioEvent 0x0604 3 (p4 [g, s.fioState g, new])).fioCouple g) ?_)
    ((congrArg (fun v : State => v.fioCouple g) hevent).trans (fioCouple_idle (refreshes_false hidle')))
  show (if new = 3 then (((((halted s g new).setF (Fld.FIO_GSTAT_VF g) (min 65535 (s.fioGrp g).vf.toNat)).setB
      (Fld.FIO_GSTAT_REVERSED g) (decide ((s.fioGrp g).vf < 0))).setB (Fld.FIO_GSTAT_VF_LOW g) (decide ((s.fioGrp g).vf <
      ((halted s g new).setF (Fld.FIO_GSTAT_VF g) (min 65535 (s.fioGrp g).vf.toNat)).vfMin))).setF (Fld.FIO_GSTAT_STATE g)
        new).inc64 (Reg.FIO_REVERSALS g)
    else ((((halted s g new).setF (Fld.FIO_GSTAT_VF g) (min 65535 (s.fioGrp g).vf.toNat)).setB
      (Fld.FIO_GSTAT_REVERSED g) (decide ((s.fioGrp g).vf < 0))).setB (Fld.FIO_GSTAT_VF_LOW g) (decide ((s.fioGrp g).vf <
      ((halted s g new).setF (Fld.FIO_GSTAT_VF g) (min 65535 (s.fioGrp g).vf.toNat)).vfMin))).setF (Fld.FIO_GSTAT_STATE g) new) = _
  rw [hmin, supplyWrites]
  split
  · rw [setF_eq_written, setB_eq_written, setB_eq_written, setF_eq_written, inc64_eq_written, written_written, written_written,
      written_written, written_written]
    rfl
  · rw [setF_eq_written, setB_eq_written, setB_eq_written, setF_eq_written, written_written, written_written, written_written]
    rfl

/-- One channel whose isolated side starts or stops. -/
def powerStep (u : State) (c : Nat) : State := u.modCh c (restarted u.time.clock)

theorem fioPowerChange_eq (s : State) (g : Nat) : s.fioPowerChange g = (fioChans g).foldl powerStep s := rfl

theorem fioCh_powerChange (s : State) (g k : Nat) :
    (s.fioPowerChange g).fioCh k = if k ∈ fioChans g then restarted s.time.clock (s.fioCh k) else s.fioCh k :=
  fioCh_foldl (step := powerStep) (P := fun v => v.time.clock = s.time.clock) (F := fun _ => restarted s.time.clock) (fun _ _ h => h)
    (fun u c h => (fioCh_modCh_self u c _).trans (congrArg (fun now => restarted now (u.fioCh c)) h))
    (fun u _ _ _ h => fioCh_modCh_ne u h _) _ (nodup_fioChans g) rfl k

theorem onlyCh_powerChange (s : State) (g : Nat) : OnlyCh s (s.fioPowerChange g) := 
  onlyCh_foldl (step := powerStep) (fun u c => onlyCh_modCh u c _) _ _

/-- The isolated side of a group starts or stops, and its channels are shown. -/
def repowered (s : State) (g : Nat) : State := ((s.fioShowGroup g).fioPowerChange g).fioShowGroup g

theorem works_repowered (s : State) (g : Nat) : Works (inWords (chWords g)) besideCh s (repowered s g) :=
  ((works_showGroup s g).trans (works_onlyCh (onlyCh_powerChange _ g))).trans (works_showGroup _ g)

theorem clock_fioShowGroup (s : State) (g : Nat) : (s.fioShowGroup g).time = s.time := (congrArg State.time (fioShowGroup_eq s g) :)

theorem fioCh_repowered (s : State) (g k : Nat) :
    (repowered s g).fioCh k = if k ∈ fioChans g then restarted s.time.clock (s.fioCh k) else s.fioCh k := by
  rw [repowered, fioCh_fioShowGroup, fioCh_powerChange, fioCh_fioShowGroup, clock_fioShowGroup]

/-- After the change the couplers refresh nothing either. -/
theorem fioCouple_powerChange (hs : s.regsWf = true) (hg : g < 2) (h : s.custodyOn = false ∨ s.fioState g = 3) :
    (((s.fioShowGroup g).fioPowerChange g).fioCouple g).fioShowGroup g = repowered s g := by
  have hworks := (works_showGroup s g).trans (works_onlyCh (onlyCh_powerChange (s.fioShowGroup g) g))
  refine congrArg (fun v : State => v.fioShowGroup g) (fioCouple_idle (refreshes_false (h.imp (fun h => ?_) fun h => ?_)))
  · exact (hworks.bit hs (spared_word (f := Fld.RPL_STATUS_ENABLE) (by decide) (by decide)
      (notMem_chWords_of_range hg (.inr (by decide))))).trans h
  · exact (hworks.reads hs _ (spared_gstat hg (by decide) (by decide))).trans h

variable {group : Fin 2} {vf : Int}

/-- A group with another supply. -/
def supplied (s : State) (g : Nat) (vf : Int) : State := s.modGrp g fun x => { x with vf := vf }

theorem exec_fieldSupplyChange (hs : s.regsWf = true) (hroom : PortRoom s 0x07)
    (hpower : s.fioPowered group.val ≠ (supplied (s.elapse dt) group.val vf).fioPowered group.val)
    (hnew : (supplied (s.elapse dt) group.val vf).fioStateNow group.val = new) (hold : s.fioState group.val ≠ new)
    (hidle : s.custodyOn = false ∨ new = 3) :
    exec (.fieldSupplyChange dt group vf) s =
      .next (repowered (reported (supplied (s.elapse dt) group.val vf) group.val new) group.val) := by
  have hpower' : (s.fioPowered group.val != (supplied (s.elapse dt) group.val vf).fioPowered group.val) = true := bne_iff_ne.mpr hpower
  have hv : (supplied (s.elapse dt) group.val vf).regsWf = true := hs
  have hgroup := fioGroup_changed (s := supplied (s.elapse dt) group.val vf) hv group.isLt hroom hnew hold hidle
  have hcouple := fioCouple_powerChange (s := reported (supplied (s.elapse dt) group.val vf) group.val new)
    (regsWf_of_regs hv (regs_reported ..)) group.isLt (refreshes_reported hv group.isLt hidle)
  refine congrArg Host.Outcome.next ((if_pos hpower').trans ?_)
  show ((((supplied (s.elapse dt) group.val vf).fioGroup group.val).fioPowerChange group.val).fioCouple group.val).fioShowGroup
    group.val = _
  rw [hgroup]
  exact hcouple

end

/-! ### What the change of a supply leaves -/

section
variable {s : State} {dt new : Nat} {group : Fin 2} {vf : Int}

/-- What the change leaves of the status, the counts, the channels and the rest. -/
structure SupplyChanged (s : State) (dt g new : Nat) (vf : Int) (t : State) : Prop where
  state : t.fioState g = new
  reversed : t.bit (Fld.FIO_GSTAT_REVERSED g) = decide (vf < 0)
  low : t.bit (Fld.FIO_GSTAT_VF_LOW g) = decide (vf < s.vfMin)
  voltage : t.getF (Fld.FIO_GSTAT_VF g) = min 65535 vf.toNat
  reversals : new = 3 → Counted (Reg.FIO_REVERSALS g) 1 s t
  latches : ∀ c, c / 16 = g → c < 32 → (t.fioCh c).latch = false
  filters : ∀ c, c / 16 = g → c < 32 → (t.fioCh c).filt = fioOff (s.fioCh c).mode
  supply : (t.fioGrp g).vf = vf
  event : Offered 0x07 0x0604 3 (if 55 < s.getF Fld.FIO_EVCOLL_COLL then 0 else s.getF Fld.FIO_EVCOLL_COLL)
    (p4 [g, s.fioState g, new]) s t
  frame : LeavesOut dt [7] s t { t with fio := s.fio, arc := { t.arc with ports := s.arc.ports } }

theorem fioGrp_supplied (s : State) (g : Nat) (vf : Int) : (supplied s g vf).fioGrp g = { s.fioGrp g with vf := vf } :=
  fioGrp_modGrp_self ..

/-- The status words after the change. -/
theorem status_reported {v : State} {g : Nat} (hv : v.regsWf = true) :
    (reported v g new).bit (Fld.FIO_GSTAT_REVERSED g) = decide ((v.fioGrp g).vf < 0) ∧
      (reported v g new).bit (Fld.FIO_GSTAT_VF_LOW g) = decide ((v.fioGrp g).vf < v.vfMin) ∧
      (reported v g new).getF (Fld.FIO_GSTAT_VF g) = min 65535 (v.fioGrp g).vf.toNat := by
  have hr := regs_reported v g new
  refine ⟨?_, ?_, ?_⟩
  · rw [bit_of_regs hv hr, supplyWrites]
    split
    · simp (disch := grind) [RegOp.see]
    · simp (disch := grind) [RegOp.see]
  · rw [bit_of_regs hv hr, supplyWrites]
    split
    · simp (disch := grind) [RegOp.see]
    · simp (disch := grind) [RegOp.see]
  · rw [getF_of_regs hv hr, supplyWrites]
    split
    · simp (disch := grind) [RegOp.see]
    · simp (disch := grind) [RegOp.see]

theorem reversals_reported {v : State} {g : Nat} (hv : v.regsWf = true) :
    Counted (Reg.FIO_REVERSALS g) 1 v (reported v g 3) := by
  rw [Counted, rd64_of_regs hv (regs_reported v g 3), supplyWrites, if_pos rfl]
  simp (disch := grind) [RegOp.see]

theorem supplyChanged (hs : s.regsWf = true) (hlt : new < 8) :
    SupplyChanged s dt group.val new vf
      (repowered (reported (supplied (s.elapse dt) group.val vf) group.val new) group.val) := by
  have hg := group.isLt
  have hv : (supplied (s.elapse dt) group.val vf).regsWf = true := hs
  have hvgrp := fioGrp_supplied (s.elapse dt) group.val vf
  have hvrest : (supplied (s.elapse dt) group.val vf) = { s.elapse dt with fio := (supplied (s.elapse dt) group.val vf).fio } := rfl
  have hvch (k : Nat) : (supplied (s.elapse dt) group.val vf).fioCh k = s.fioCh k := rfl
  generalize supplied (s.elapse dt) group.val vf = v at *
  have hvf : (v.fioGrp group.val).vf = vf := congrArg FioGrp.vf hvgrp
  obtain ⟨hreversed, hlow, hvoltage⟩ := status_reported (new := new) (g := group.val) hv
  have hstate := fioState_reported (g := group.val) hv hlt
  have hr := regs_reported v group.val new
  have hmode := mode_reported v group.val new
  have hgrp := fioGrp_reported v group.val new group.val
  have hports := ports_reported v group.val new
  have houter := outer_reported v group.val new
  have hreversals (h : new = 3) : Counted (Reg.FIO_REVERSALS group.val) 1 v (reported v group.val new) := by
    subst h
    exact reversals_reported hv
  generalize reported v group.val new = o at *
  have howf := regsWf_of_regs hv hr
  have hworks := works_repowered o group.val
  have hch := fioCh_repowered o group.val
  generalize repowered o group.val = t at *
  have hcount : 0x70180 ≤ Reg.FIO_REVERSALS group.val := by show 0x70180 ≤ 0x70838 + group.val * 0x40; omega
  have houtert : outer t = outer (s.elapse dt) := (outer_of_besideFio (besideFio_of_works hworks)).trans (houter.trans
    (congrArg outer hvrest :))
  have hwords (a : Nat) (ha : a ∈ (supplyWrites v group.val new).flatMap RegOp.words) : a / 65536 = 7 :=
    (words_group hg (words_supplyWrites v group.val new ha)).1
  have hcold (c : Nat) (hc : c / 16 = group.val) : t.fioCh c = restarted o.time.clock (o.fioCh c) :=
    (hch c).trans (if_pos (mem_fioChans.mpr hc))
  have hmin : v.vfMin = s.vfMin := (congrArg State.vfMin hvrest :)
  constructor
  case state => exact (hworks.reads howf _ (spared_gstat hg (by decide) (by decide))).trans hstate
  case reversed => exact (hworks.bit howf (spared_gstat hg (by decide) (by decide))).trans (by rw [hreversed, hvf])
  case low => exact (hworks.bit howf (spared_gstat hg (by decide) (by decide))).trans (by rw [hlow, hvf, hmin])
  case voltage => exact (hworks.reads howf _ (spared_gstat hg (by decide) (by decide))).trans (by rw [hvoltage, hvf])
  case reversals =>
    intro h
    have hvcount : v.rd64 (Reg.FIO_REVERSALS group.val) = s.rd64 (Reg.FIO_REVERSALS group.val) :=
      (congrArg (fun u : State => u.rd64 (Reg.FIO_REVERSALS group.val)) hvrest :)
    rw [Counted, hworks.rd64 howf (spared_count hg hcount) (spared_count hg (by omega)), hreversals h, hvcount]
  case latches => exact fun c hc _ => congrArg FioCh.latch (hcold c hc)
  case filters =>
    intro c hc _
    have hmodec : (o.fioCh c).mode = (s.fioCh c).mode := (hmode c).trans (congrArg FioCh.mode (hvch c))
    exact (congrArg FioCh.filt (hcold c hc)).trans (congrArg fioOff hmodec)
  case supply => exact (congrArg FioGrp.vf (fioGrp_of_works hworks group.val)).trans ((congrArg FioGrp.vf hgrp).trans hvf)
  case event =>
    refine offered_of_ports ((ports_of_works hworks).trans (hports.trans ?_))
    rw [mt_of_outer houtert, hvrest]
    rfl
  case frame =>
    have hrs : o.regs = (runAll (s.elapse dt) (supplyWrites v group.val new)).regs :=
      hr.trans (runAll_regs_congr (u := s.elapse dt) (congrArg State.regs hvrest :) _)
    exact leavesOut_of_outer (regs_shown (s := s.elapse dt) hs hrs hwords hg hworks) houtert

end

/-! ### The two changes -/

section
variable {s : State} {dt g : Nat} {vf : Int}

theorem fioStateNow_reversed (hclass : s.bit Fld.FIO_CLASS_MISMATCH = false) (hvf : (s.fioGrp g).vf < -30) : s.fioStateNow g = 3 := by
  simp [State.fioStateNow, hclass, hvf]

/-- The operating minimum is above the level of a group without supply. -/
theorem vfUnsupplied_lt (s : State) : -30 < s.vfUnsupplied ∧ s.vfUnsupplied < s.vfMin := by
  unfold State.vfUnsupplied State.vfMin
  split
  · decide
  · decide

theorem fioStateNow_restored (hclass : s.bit Fld.FIO_CLASS_MISMATCH = false) (hvf : s.vfMin ≤ (s.fioGrp g).vf)
    (hused : ((fioChans g).all fun c => (s.fioCh c).mode == 0 || (s.fioCh c).lost) = false) : s.fioStateNow g = 2 := by
  obtain ⟨hlow, hmin⟩ := vfUnsupplied_lt s
  have hreversed : ¬ (s.fioGrp g).vf < -30 := by omega
  have hunsupplied : ¬ (s.fioGrp g).vf < s.vfUnsupplied := by omega
  have hbelow : ¬ (s.fioGrp g).vf < s.vfMin := by omega
  simp only [State.fioStateNow, hclass, hreversed, hunsupplied, hused, hbelow, if_false, Bool.false_eq_true]

theorem fioPowered_supplied (s : State) (dt g : Nat) (vf : Int) :
    (supplied (s.elapse dt) g vf).fioPowered g = decide (s.vfUnsupplied ≤ vf) := by
  rw [State.fioPowered, fioGrp_supplied]
  rfl

variable {group : Fin 2}

/-- A supply that is reversed. -/
theorem supplyReversed (hs : s.regsWf = true) (hvf : vf < -30) (hclass : s.bit Fld.FIO_CLASS_MISMATCH = false)
    (hstate : s.fioState group.val ≠ 3) (hpowered : s.fioPowered group.val = true) (hroom : PortRoom s 0x07) :
    ∃ t, exec (.fieldSupplyChange dt group vf) s = .next t ∧ SupplyChanged s dt group.val 3 vf t := by
  have hlow := (vfUnsupplied_lt s).1
  have hgrp := congrArg FioGrp.vf (fioGrp_supplied (s.elapse dt) group.val vf)
  refine ⟨_, exec_fieldSupplyChange hs hroom ?_ (fioStateNow_reversed hclass (by rw [hgrp]; exact hvf)) hstate (.inr rfl),
    supplyChanged hs (by decide)⟩
  rw [hpowered, fioPowered_supplied, decide_eq_false (by omega)]
  decide

/-- A supply that returns, of a module without custody. -/
theorem supplyRestored (hs : s.regsWf = true) (hvf : s.vfMin ≤ vf) (hclass : s.bit Fld.FIO_CLASS_MISMATCH = false)
    (hstate : s.fioState group.val = 1) (hpowered : s.fioPowered group.val = false) (hcustody : s.custodyOn = false)
    (hused : ((fioChans group.val).all fun c => (s.fioCh c).mode == 0 || (s.fioCh c).lost) = false) (hroom : PortRoom s 0x07) :
    ∃ t, exec (.fieldSupplyChange dt group vf) s = .next t ∧ SupplyChanged s dt group.val 2 vf t := by
  have hmin := (vfUnsupplied_lt s).2
  have hgrp := congrArg FioGrp.vf (fioGrp_supplied (s.elapse dt) group.val vf)
  refine ⟨_, exec_fieldSupplyChange hs hroom ?_ (fioStateNow_restored hclass (by rw [hgrp]; exact hvf) hused) ?_ (.inl hcustody),
    supplyChanged hs (by decide)⟩
  · rw [hpowered, fioPowered_supplied, decide_eq_true (by omega)]
    decide
  · rw [hstate]
    decide

/-- Settles O41: each clause is the lemma of its command. -/
theorem fieldSupplyAndPaths : Obligations.FieldSupplyAndPaths := by
  intro s dt hs
  have hw : s.regsWf = true := (Bool.and_eq_true_iff.mp hs).1
  refine ⟨?reversed, ?restored, ?overload, ?unseen, ?overloadEnd, ?clear, ?lost, ?first, ?crc, ?index, ?third, ?outbound⟩
  case reversed =>
    intro group vf hvf hclass hstate hpowered hroom
    obtain ⟨t, hexec, h⟩ := supplyReversed (dt := dt) hw hvf hclass hstate hpowered hroom
    have hmin := vfUnsupplied_lt s
    exact ⟨t, hexec, h.state, h.reversed.trans (decide_eq_true (by omega)), h.low.trans (decide_eq_true (by omega)),
      h.voltage.trans (by omega), h.reversals rfl, h.latches, h.filters, h.supply, h.event, h.frame⟩
  case restored =>
    intro group vf hvf hclass hstate hpowered hcustody hused hroom
    obtain ⟨t, hexec, h⟩ := supplyRestored (dt := dt) hw hvf hclass hstate hpowered hcustody hused hroom
    have hmin := vfUnsupplied_lt s
    have hpos : 0 ≤ s.vfMin := by
      unfold State.vfMin
      split
      · decide
      · decide
    exact ⟨t, hexec, h.state, h.reversed.trans (decide_eq_false (by omega)), h.low.trans (decide_eq_false (by omega)),
      h.voltage, h.latches, h.filters, hstate ▸ h.event, h.frame⟩
  case overload =>
    intro group hdriven halive hroom
    exact overloadSeen hw hdriven halive hroom
  case unseen =>
    intro group hdriven hdead
    exact overloadUnseen hdriven hdead
  case overloadEnd =>
    intro group _ hdue
    exact ⟨_, exec_groupOverloadEnd hdue, congrArg FioGrp.ovlOff (fioGrp_modGrp_self ..), fun _ _ => rfl, fun _ => rfl, rfl⟩
  case clear =>
    intro group hoff hdue
    have hr := regs_written (s.elapse dt) [.bit (Fld.FIO_GSTAT_OVL group.val) false]
    refine ⟨_, exec_ovlClear hoff hdue, ?_, regsKept_of_regs (s := s.elapse dt) hr (by simp [RegOp.words]), fun _ => rfl, rfl⟩
    rw [bit_of_regs (s := s.elapse dt) hw hr]
    simp (disch := grind) [RegOp.see]
  case lost =>
    intro group silent hinstant hup hstarted hok hbad hgot hidle hframe hroom
    exact FallbackRefreshes.refreshLost hw hinstant hup hstarted hok hbad hgot hidle hframe hroom
  case first =>
    intro group silent o i hinstant hup hstarted hidle hframe
    exact FallbackRefreshes.refreshFirst hw hinstant hup hstarted hidle hframe
  case crc =>
    intro group frame states hup hstates hcrc
    exact FallbackFrames.inboundBadCheck hw hup hstates hcrc
  case index =>
    intro group frame states hup hstates hcrc hindex
    exact FallbackFrames.inboundBadIndex hw hup hstates hcrc hindex
  case third =>
    intro group frame states c hup hstates hsampling hcrc hindex hc halone hmode hdis hgood hdiffer hroom
    exact FallbackFrames.inboundThird hw hup hstates hsampling hcrc hindex hc halone hmode hdis hgood hdiffer hroom
  case outbound =>
    intro group frame states hpowered hcrc hindex hstates hedge hrefreshes hok hcouplers hvalid
    exact FallbackFrames.outboundGood hw hpowered hcrc hindex hstates hedge hrefreshes hok hcouplers hvalid

end

end Sys2Proof.Proofs.FieldSupplies

/-! Side-band messages of the Cascade bridge: membership, instants of SYNC, announcements, and an audit that agrees (R439, R440,
R441, R444). -/

namespace Sys2Proof.Proofs.SideBand

open Sys2Proof Sys2Proof.Machine Sys2Proof.Laws Sys2Proof.Proofs.Time Sys2Proof.Proofs.Power Sys2Proof.Proofs.RegOps

/-- A posted header arrives at a port, and its credit is returned and issued again. -/
def headerOps (d : Nat) : List RegOp :=
  [.count (Reg.CSC_RXPW d) 1, .count (Reg.CSC_CREDRET d 0) 1, .count (Reg.CSC_CREDISS d 0) 1]

theorem sideBandIn_eq (s : State) (d : Nat) : s.sideBandIn d = written s (headerOps d) := by
  show ((s.inc64 (Reg.CSC_RXPW d)).add64 (Reg.CSC_CREDRET d 0) 1).add64 (Reg.CSC_CREDISS d 0) 1 = _
  rw [inc64_eq_written, add64_eq_written, add64_eq_written, written_written, written_written]
  rfl

section
variable {s t : State} {dt d : Nat}

theorem words_headerOps (d : Nat) : (headerOps d).flatMap RegOp.words =
    two (Reg.CSC_RXPW d) ++ two (Reg.CSC_CREDRET d 0) ++ two (Reg.CSC_CREDISS d 0) := by
  simp [headerOps, RegOp.words]

/-- What a program that begins with a header counts. -/
theorem header_counted (hs : s.regsWf = true) (ht : t.regs = (runAll s (headerOps d)).regs) :
    Counted (Reg.CSC_RXPW d) 1 s t ∧ Counted (Reg.CSC_CREDRET d 0) 1 s t ∧ Counted (Reg.CSC_CREDISS d 0) 1 s t := by
  refine ⟨?_, ?_, ?_⟩
  · rw [Counted, rd64_of_regs hs ht, headerOps]
    simp (disch := grind) [RegOp.see]
  · rw [Counted, rd64_of_regs hs ht, headerOps]
    simp (disch := grind) [RegOp.see]
  · rw [Counted, rd64_of_regs hs ht, headerOps]
    simp (disch := grind) [RegOp.see]

theorem exec_cscMemberRx {vec : BitVec 8} (hheard : s.heard 0 = true) :
    exec (.cscMemberRx dt vec) s = .next (written ((s.elapse dt).modCsc fun c => { c with membersNext := some (vec.toNat ||| 2 ^ s.stackPos) })
      (headerOps 0)) := by
  refine congrArg Host.Outcome.next ((if_pos hheard).trans ?_)
  rw [sideBandIn_eq, written_of_regs (s := s.elapse dt) (u := (s.elapse dt).modCsc fun c =>
    { c with membersNext := some (vec.toNat ||| 2 ^ s.stackPos) }) rfl]
  rfl

/-- A membership that arrives from above. -/
theorem memberTaken (hs : s.regsWf = true) {vec : BitVec 8} (hheard : s.heard 0 = true) :
    ∃ t, exec (.cscMemberRx dt vec) s = .next t ∧
      t.csc.membersNext = some (vec.toNat ||| 2 ^ s.stackPos) ∧
      Counted (Reg.CSC_RXPW 0) 1 s t ∧
      Counted (Reg.CSC_CREDRET 0 0) 1 s t ∧
      Counted (Reg.CSC_CREDISS 0 0) 1 s t ∧
      Leaves dt ((two (Reg.CSC_RXPW 0) ++ two (Reg.CSC_CREDRET 0 0) ++ two (Reg.CSC_CREDISS 0 0))) s t
        { t with csc := { t.csc with membersNext := s.csc.membersNext } } := by
  have hr := regs_written_of (s := s.elapse dt) (u := (s.elapse dt).modCsc fun c =>
    { c with membersNext := some (vec.toNat ||| 2 ^ s.stackPos) }) rfl (headerOps 0)
  obtain ⟨hrx, hret, hiss⟩ := header_counted (s := s.elapse dt) hs hr
  exact ⟨_, exec_cscMemberRx hheard, rfl, hrx, hret, hiss,
    regsKept_of_regs (s := s.elapse dt) hr (words_headerOps 0 ▸ List.Subset.refl _), fun _ => rfl, rfl⟩

/-! ### An instant of SYNC (R305, R440) -/

theorem exec_cscSyncAtRx {instant : Nat} (hmember : s.measMember = true) (hheard : s.heard 0 = true)
    (hahead : (s.elapse dt).time.mt + 2000 ≤ instant) :
    exec (.cscSyncAtRx dt instant) s = .next (written ((s.elapse dt).modMeas fun x => { x with syncs := x.syncs ++ [(instant, 4)] })
      (headerOps 0)) := by
  have hacts : (s.elapse dt).measMember = true ∧ (s.elapse dt).heard 0 = true := ⟨hmember, hheard⟩
  refine congrArg Host.Outcome.next ((if_pos hacts).trans ?_)
  rw [sideBandIn_eq, written_of_regs (s := s.elapse dt) (u := (s.elapse dt).modMeas fun x =>
    { x with syncs := x.syncs ++ [(instant, 4)] }) rfl]
  exact if_neg (show ¬ instant < (written (s.elapse dt) (headerOps 0)).time.mt + 2000 from Nat.not_lt.mpr hahead)

theorem syncTaken (hs : s.regsWf = true) {instant : Nat} (hmember : s.measMember = true) (hheard : s.heard 0 = true)
    (hahead : (s.elapse dt).time.mt + 2000 ≤ instant) :
    ∃ t, exec (.cscSyncAtRx dt instant) s = .next t ∧
      t.meas.syncs = s.meas.syncs ++ [(instant, 4)] ∧
      Counted (Reg.CSC_RXPW 0) 1 s t ∧
      Counted (Reg.CSC_CREDRET 0 0) 1 s t ∧
      Counted (Reg.CSC_CREDISS 0 0) 1 s t ∧
      Leaves dt ((two (Reg.CSC_RXPW 0) ++ two (Reg.CSC_CREDRET 0 0) ++ two (Reg.CSC_CREDISS 0 0))) s t
        { t with meas := { t.meas with syncs := s.meas.syncs } } := by
  have hr := regs_written_of (s := s.elapse dt) (u := (s.elapse dt).modMeas fun x => { x with syncs := x.syncs ++ [(instant, 4)] }) rfl
    (headerOps 0)
  obtain ⟨hrx, hret, hiss⟩ := header_counted (s := s.elapse dt) hs hr
  exact ⟨_, exec_cscSyncAtRx hmember hheard hahead, rfl, hrx, hret, hiss,
    regsKept_of_regs (s := s.elapse dt) hr (words_headerOps 0 ▸ List.Subset.refl _), fun _ => rfl, rfl⟩

/-! ### An audit that agrees (R444) -/

theorem exec_cscAuditRx_agrees {d : Fin 2} {consumed : List Nat} (hheard : s.heard d.val = true)
    (hagrees : ((List.range 6).all fun k => consumed.getD k 0 == s.rd64 (Reg.CSC_CREDRET d.val k) + s.rd64 (Reg.CSC_CREDHELD d.val k)) = true) :
    exec (.cscAuditRx dt d consumed) s = .next (written (s.elapse dt) (headerOps d.val)) := by
  have hnone : ((List.range 6).filter fun k => consumed.getD k 0 != (s.elapse dt).rd64 (Reg.CSC_CREDRET d.val k) +
      (s.elapse dt).rd64 (Reg.CSC_CREDHELD d.val k)) = [] := by
    refine List.filter_eq_nil_iff.mpr fun k hk => ?_
    have hone := List.all_eq_true.mp hagrees k hk
    rw [beq_iff_eq] at hone
    simpa using hone
  refine congrArg Host.Outcome.next ((if_pos hheard).trans ?_)
  unfold State.audit
  rw [hnone]
  exact sideBandIn_eq ..

theorem auditAgrees (hs : s.regsWf = true) {d : Fin 2} {consumed : List Nat} (hheard : s.heard d.val = true)
    (hagrees : ((List.range 6).all fun k => consumed.getD k 0 == s.rd64 (Reg.CSC_CREDRET d.val k) + s.rd64 (Reg.CSC_CREDHELD d.val k)) = true) :
    ∃ t, exec (.cscAuditRx dt d consumed) s = .next t ∧
      Counted (Reg.CSC_RXPW d.val) 1 s t ∧
      t.linkState d.val = 2 ∧
      t.csc = s.csc ∧
      Leaves dt ((two (Reg.CSC_RXPW d.val) ++ two (Reg.CSC_CREDRET d.val 0) ++ two (Reg.CSC_CREDISS d.val 0))) s t t := by
  have hr := regs_written (s.elapse dt) (headerOps d.val)
  have hkept := regsKept_of_regs (s := s.elapse dt) hr (List.Subset.refl _)
  rw [words_headerOps] at hkept
  have hup : s.linkState d.val = 2 := by
    have h := (Bool.and_eq_true_iff.mp hheard).1
    exact beq_iff_eq.mp h
  have hfield : (State.linkField d.val).addr = Reg.CSC_STATUS ∧ (State.linkField d.val).lo + (State.linkField d.val).len ≤ 32 := by
    unfold State.linkField
    split
    · decide
    · decide
  refine ⟨_, exec_cscAuditRx_agrees hheard hagrees, (header_counted (s := s.elapse dt) hs hr).1, ?_, rfl, hkept, fun _ => rfl, rfl⟩
  refine (getF_of_regsKept (s := s) hkept hfield.2 ?_).trans hup
  rw [hfield.1]
  simp only [List.mem_append, List.mem_cons, List.not_mem_nil, or_false]
  show ¬ (((0x110000 = 0x110110 + d.val * 0x200 ∨ 0x110000 = 0x110110 + d.val * 0x200 + 4) ∨
    0x110000 = 0x110188 + d.val * 0x200 + 0 * 0x18 ∨ 0x110000 = 0x110188 + d.val * 0x200 + 0 * 0x18 + 4) ∨
    0x110000 = 0x110180 + d.val * 0x200 + 0 * 0x18 ∨ 0x110000 = 0x110180 + d.val * 0x200 + 0 * 0x18 + 4)
  omega

/-! ### An announcement (R82, R441) -/

variable {a : Announce}

theorem annCheck_accept (hversion : a.version = 1) (hid : a.snapId ≠ 0) (hgrid : a.instant % 250000 = 0)
    (hearly : s.time.mt + 500000 ≤ a.instant) (hlate : a.instant ≤ s.time.mt + 60000000000)
    (hfresh : (s.inv.pending.all fun p => p.1 != a.snapId && p.2 != a.instant) = true) (hroom : s.inv.pending.length < 4) :
    s.annCheck a = .accept := by
  have hone (p : Nat × Nat) (hp : p ∈ s.inv.pending) : p.1 ≠ a.snapId ∧ p.2 ≠ a.instant := by
    simpa using List.all_eq_true.mp hfresh p hp
  have hcontains : s.inv.pending.contains (a.snapId, a.instant) = false := by
    rw [Bool.eq_false_iff, ne_eq, List.contains_iff_mem]
    exact fun h => (hone _ h).1 rfl
  have hids : (s.inv.pending.any fun p => p.1 == a.snapId) = false := by
    rw [List.any_eq_false]
    exact fun p hp => by simpa using (hone p hp).1
  have hinstants : (s.inv.pending.any fun p => p.2 == a.instant) = false := by
    rw [List.any_eq_false]
    exact fun p hp => by simpa using (hone p hp).2
  have hnotEarly : ¬ a.instant < s.time.mt + 500000 := by omega
  have hnotLate : ¬ s.time.mt + 60000000000 < a.instant := by omega
  have hnotFull : ¬ 4 ≤ s.inv.pending.length := by omega
  simp only [State.annCheck, hversion, hid, hgrid, hcontains, hids, hinstants, hnotEarly, hnotLate, hnotFull, ne_eq,
    not_true_eq_false, or_self, if_false, Bool.false_eq_true]

theorem unitOff_of_regs {l : List RegOp} (blk : Nat) (ht : t.regs = (runAll s l).regs)
    (hout : Reg.STE_STATUS ∉ l.flatMap RegOp.words ∧ Reg.STE_FAILMAP blk ∉ l.flatMap RegOp.words) :
    t.unitOff blk 0 = s.unitOff blk 0 := by
  have hkept := regsKept_of_regs ht fun _ h => h
  have hmap : t.rd (Reg.STE_FAILMAP blk) = s.rd (Reg.STE_FAILMAP blk) := congrArg BitVec.toNat (hkept _ hout.2)
  simp only [State.unitOff, State.unitTested, State.heldDisabled, hmap,
    getF_of_regsKept hkept (f := Fld.STE_STATUS_STATE) (by decide) hout.1,
    getF_of_regsKept hkept (f := Fld.STE_STATUS_BLOCK) (by decide) hout.1,
    getF_of_regsKept hkept (f := Fld.STE_STATUS_UNIT) (by decide) hout.1]

/-- Another table of pending announcements. -/
def withPending (s : State) (l : List (Nat × Nat)) : State := { s with inv := { s.inv with pending := l } }

theorem withPending_written (u : State) (m : List (Nat × Nat)) (l : List RegOp) : withPending (written u l) m = written (withPending u m) l :=
  (written_of_regs (s := u) (u := withPending u m) rfl l).symm

/-- What an accepted announcement writes. -/
def acceptOps (n : Nat) : List RegOp :=
  [.count Reg.INV_ANNRX 1, .field Fld.INV_STATUS_PENDING n, .count Reg.INV_ANNACCEPT 1]

theorem words_acceptOps (n : Nat) : (acceptOps n).flatMap RegOp.words =
    two Reg.INV_ANNRX ++ [Reg.INV_STATUS] ++ two Reg.INV_ANNACCEPT := rfl

theorem announce_accept {u : State} (hoff : u.unitOff 0x18 0 = false) (hcheck : u.annCheck a = .accept)
    (hmaster : u.bit Fld.CSC_STATUS_MASTER = false) :
    u.announce a = written (withPending u (u.inv.pending ++ [(a.snapId, a.instant)])) (acceptOps (u.inv.pending.length + 1)) := by
  have hpending : ((u.inc64 Reg.INV_ANNRX).setPending (u.inv.pending ++ [(a.snapId, a.instant)])).inc64 Reg.INV_ANNACCEPT =
      written (withPending u (u.inv.pending ++ [(a.snapId, a.instant)])) (acceptOps (u.inv.pending.length + 1)) := by
    rw [inc64_eq_written u]
    show ((withPending (written u [.count Reg.INV_ANNRX 1]) (u.inv.pending ++ [(a.snapId, a.instant)])).setF Fld.INV_STATUS_PENDING
      (u.inv.pending ++ [(a.snapId, a.instant)]).length).inc64 Reg.INV_ANNACCEPT = _
    rw [withPending_written, setF_eq_written, inc64_eq_written, written_written, written_written, List.length_append]
    rfl
  have hr := regs_written_of (s := u) (u := withPending u (u.inv.pending ++ [(a.snapId, a.instant)])) rfl
    (acceptOps (u.inv.pending.length + 1))
  have hmaster' : ¬ (written (withPending u (u.inv.pending ++ [(a.snapId, a.instant)])) (acceptOps (u.inv.pending.length + 1))).bit
      Fld.CSC_STATUS_MASTER = true := by
    rw [bit_of_regsKept (s := u) (regsKept_of_regs hr fun _ h => h) (f := Fld.CSC_STATUS_MASTER) (by decide)
      (words_acceptOps _ ▸ by decide), hmaster]
    decide
  unfold State.announce
  rw [hoff, if_neg Bool.false_ne_true, hcheck]
  show (((u.inc64 Reg.INV_ANNRX).setPending (u.inv.pending ++ [(a.snapId, a.instant)])).inc64 Reg.INV_ANNACCEPT).forwardAnnounce = _
  rw [hpending]
  exact if_neg hmaster'

/-- An announcement that passes every check joins the table. -/
def announced (s : State) (a : Announce) : State :=
  written (withPending s (s.inv.pending ++ [(a.snapId, a.instant)])) (headerOps 0 ++ acceptOps (s.inv.pending.length + 1))

theorem regs_announced (s : State) (a : Announce) :
    (announced s a).regs = (runAll s (headerOps 0 ++ acceptOps (s.inv.pending.length + 1))).regs :=
  regs_written_of (s := s) (u := withPending s (s.inv.pending ++ [(a.snapId, a.instant)])) rfl _

theorem exec_cscAnnounceRx (hversion : a.version = 1) (hid : a.snapId ≠ 0) (hgrid : a.instant % 250000 = 0)
    (hearly : (s.elapse dt).time.mt + 500000 ≤ a.instant) (hlate : a.instant ≤ (s.elapse dt).time.mt + 60000000000)
    (hfresh : (s.inv.pending.all fun p => p.1 != a.snapId && p.2 != a.instant) = true) (hroom : s.inv.pending.length < 4)
    (hoff : s.unitOff 0x18 0 = false) (hheard : s.heard 0 = true) (hmaster : s.bit Fld.CSC_STATUS_MASTER = false) :
    exec (.cscAnnounceRx dt a) s = .next (announced (s.elapse dt) a) := by
  have hr := regs_written (s.elapse dt) (headerOps 0)
  have hoff' : (written (s.elapse dt) (headerOps 0)).unitOff 0x18 0 = false :=
    (unitOff_of_regs (s := s.elapse dt) 0x18 hr (by decide)).trans hoff
  have hmaster' : (written (s.elapse dt) (headerOps 0)).bit Fld.CSC_STATUS_MASTER = false :=
    (bit_of_regsKept (s := s) (regsKept_of_regs (s := s.elapse dt) hr fun _ h => h) (f := Fld.CSC_STATUS_MASTER) (by decide)
      (by decide)).trans hmaster
  have hcheck : (written (s.elapse dt) (headerOps 0)).annCheck a = .accept :=
    annCheck_accept hversion hid hgrid hearly hlate hfresh hroom
  refine congrArg Host.Outcome.next ((if_pos hheard).trans ?_)
  rw [sideBandIn_eq, announce_accept hoff' hcheck hmaster']
  show written (withPending (written (s.elapse dt) (headerOps 0)) (s.inv.pending ++ [(a.snapId, a.instant)]))
    (acceptOps (s.inv.pending.length + 1)) = _
  rw [withPending_written, written_written]
  rfl

theorem announceTaken (hs : s.regsWf = true) (hversion : a.version = 1) (hid : a.snapId ≠ 0) (hgrid : a.instant % 250000 = 0)
    (hearly : (s.elapse dt).time.mt + 500000 ≤ a.instant) (hlate : a.instant ≤ (s.elapse dt).time.mt + 60000000000)
    (hfresh : (s.inv.pending.all fun p => p.1 != a.snapId && p.2 != a.instant) = true) (hroom : s.inv.pending.length < 4)
    (hoff : s.unitOff 0x18 0 = false) (hheard : s.heard 0 = true) (hmaster : s.bit Fld.CSC_STATUS_MASTER = false) :
    ∃ t, exec (.cscAnnounceRx dt a) s = .next t ∧
      t.inv.pending = s.inv.pending ++ [(a.snapId, a.instant)] ∧
      t.getF Fld.INV_STATUS_PENDING = s.inv.pending.length + 1 ∧
      Counted Reg.INV_ANNRX 1 s t ∧
      Counted Reg.INV_ANNACCEPT 1 s t ∧
      Counted (Reg.CSC_RXPW 0) 1 s t ∧
      Counted (Reg.CSC_CREDRET 0 0) 1 s t ∧
      Counted (Reg.CSC_CREDISS 0 0) 1 s t ∧
      Leaves dt (([Reg.INV_STATUS] ++ two Reg.INV_ANNRX ++ two Reg.INV_ANNACCEPT ++ two (Reg.CSC_RXPW 0) ++ two
        (Reg.CSC_CREDRET 0 0) ++ two (Reg.CSC_CREDISS 0 0))) s t { t with inv := { t.inv with pending := s.inv.pending } } := by
  have hu : (s.elapse dt).regsWf = true := hs
  have hr := regs_announced (s.elapse dt) a
  refine ⟨_, exec_cscAnnounceRx hversion hid hgrid hearly hlate hfresh hroom hoff hheard hmaster, rfl, ?_, ?_, ?_, ?_, ?_, ?_,
    regsKept_of_regs (s := s.elapse dt) hr ?_, fun _ => rfl, rfl⟩
  · rw [getF_of_regs hu hr]
    have hlen : (s.elapse dt).inv.pending.length < 4 := hroom
    simp (disch := decide) [headerOps, acceptOps, RegOp.see]
    omega
  · rw [Counted, rd64_of_regs hu hr]
    simp (disch := decide) [headerOps, acceptOps, RegOp.see]
  · rw [Counted, rd64_of_regs hu hr]
    simp (disch := decide) [headerOps, acceptOps, RegOp.see]
  · rw [Counted, rd64_of_regs hu hr]
    simp (disch := decide) [headerOps, acceptOps, RegOp.see]
  · rw [Counted, rd64_of_regs hu hr]
    simp (disch := decide) [headerOps, acceptOps, RegOp.see]
  · rw [Counted, rd64_of_regs hu hr]
    simp (disch := decide) [headerOps, acceptOps, RegOp.see]
  · simp [headerOps, acceptOps, RegOp.words]

end

end Sys2Proof.Proofs.SideBand

/-! Cascade links that come up, train, or reach other positions (R427 to R429). -/

namespace Sys2Proof.Proofs.CascadeLinksUp

open Sys2Proof Sys2Proof.Machine Sys2Proof.Laws Sys2Proof.Proofs.Time Sys2Proof.Proofs.Power Sys2Proof.Proofs.RegOps
  Sys2Proof.Proofs.GarnetFrames Sys2Proof.Proofs.FieldGroups

/-! ### The membership that the master sends, and what MEMBER and NOMASTER show -/

/-- The words that count what leaves at the down port. -/
def sendWords : List Nat := two (Reg.CSC_TXPW 1) ++ two (Reg.CSC_PWLOST 1)

/-- All but the registers, and what leaves at the ports and its credits. -/
def quiet (s : State) : State := { s with regs := [], csc := { s.csc with sent := [], used := [] } }

/-- All but these and the membership that the next edge brings. -/
def unstaged (s : State) : State := { s with regs := [], csc := { s.csc with membersNext := none, sent := [], used := [] } }

/-- MEMBER and NOMASTER. -/
def Standing (f : Field) : Prop := f = Fld.CSC_STATUS_MEMBER ∨ f = Fld.CSC_STATUS_NOMASTER

/-- What the end of a change of membership writes. -/
def Showing (f : Field) : Prop := Standing f ∨ inWords sendWords f

section
variable {s t u : State} {d : Nat}

theorem works_count {T : Field → Prop} {K : State → State} {a : Nat} (n : Nat) (hT : T (word a)) (hT' : T (word (a + 4)))
    (hK : ∀ u r, K { u with regs := r } = K u) : Works T K s (s.add64 a n) := works_wr64 hT hT' _ hK

theorem works_postedOut (s : State) (n : Nat) : Works (inWords sendWords) quiet s (s.postedOut 1 n) := by
  have hsent (u : State) : Works (inWords sendWords) quiet u (u.add64 (Reg.CSC_TXPW 1) n) :=
    works_count n (show Reg.CSC_TXPW 1 ∈ sendWords by decide) (show Reg.CSC_TXPW 1 + 4 ∈ sendWords by decide) fun _ _ => rfl
  have hlost (u : State) : Works (inWords sendWords) quiet u (u.add64 (Reg.CSC_PWLOST 1) n) :=
    works_count n (show Reg.CSC_PWLOST 1 ∈ sendWords by decide) (show Reg.CSC_PWLOST 1 + 4 ∈ sendWords by decide) fun _ _ => rfl
  have hcredit (u : State) : Works (inWords sendWords) quiet u
      ((u.modCsc fun c => { c with sent := tmod c.sent 1 fun k => k + n }).consume 1 0 n) := ⟨id, fun _ _ _ => rfl, rfl⟩
  exact works_ite ((hsent s).trans (hcredit _)) ((hsent s).trans (hlost _))

theorem works_sendMembers (s : State) : Works (inWords sendWords) quiet s s.sendMembers :=
  works_ite (works_postedOut ..) (.refl s)

theorem works_stageMembers (s : State) (v : Nat) : Works (inWords sendWords) unstaged s (s.stageMembers v) := by
  have hstage : Works (inWords sendWords) unstaged s (s.modCsc fun c => { c with membersNext := some v }) := ⟨id, fun _ _ _ => rfl, rfl⟩
  exact hstage.trans ((works_sendMembers _).coarsen fun _ => rfl)

theorem csc_of_quiet (h : quiet t = quiet s) : { t.csc with sent := s.csc.sent, used := s.csc.used } = s.csc :=
  (congrArg (fun v : State => { v.csc with sent := s.csc.sent, used := s.csc.used }) h :)

theorem csc_stageMembers (s : State) (v : Nat) :
    { (s.stageMembers v).csc with sent := s.csc.sent, used := s.csc.used } = { s.csc with membersNext := some v } :=
  csc_of_quiet (s := s.modCsc fun c => { c with membersNext := some v }) (works_sendMembers _).rest

/-- `n` headers that leave at the down port, on a link that is up. -/
def postedUp (s : State) (n : Nat) : State := (s.modCsc fun c => { c with sent := tmod c.sent 1 fun k => k + n }).consume 1 0 n

theorem postedOut_eq (s : State) (n : Nat) : s.postedOut 1 n =
    if (s.add64 (Reg.CSC_TXPW 1) n).linkState 1 = 2 then postedUp (s.add64 (Reg.CSC_TXPW 1) n) n
    else (s.add64 (Reg.CSC_TXPW 1) n).add64 (Reg.CSC_PWLOST 1) n := rfl

/-- Posted headers that leave take no other credits. -/
theorem used_postedOut {k : Nat} (hk : k ≠ 6) (s : State) (n : Nat) : tget (s.postedOut 1 n).csc.used k = tget s.csc.used k := by
  rw [postedOut_eq]
  split
  · exact tget_tmod_ne (β := Nat) s.csc.used (Ne.symm hk) fun x => x + n
  · rfl

theorem used_sendMembers {k : Nat} (hk : k ≠ 6) (s : State) : tget s.sendMembers.csc.used k = tget s.csc.used k := by
  unfold State.sendMembers
  split
  · exact used_postedOut hk s _
  · rfl

theorem works_showMember (s : State) : Works Standing bare s s.showMember := by
  have hmember (u : State) (b : Bool) : Works Standing bare u (u.setB Fld.CSC_STATUS_MEMBER b) := works_setB (by decide) (.inl rfl) b
  have hmaster (u : State) : Works Standing bare u (u.setB Fld.CSC_STATUS_NOMASTER false) := works_setB (by decide) (.inr rfl) false
  exact works_ite (hmember ..) ((hmember ..).trans (hmaster _))

theorem spared_showing {f : Field} (hlen : 0 < f.len) (hfit : f.lo + f.len ≤ 32)
    (hbits : f.addr ≠ Reg.CSC_STATUS ∨ f.lo + f.len ≤ 5 ∨ 7 ≤ f.lo) (hout : f.addr ∉ sendWords) : Spared Showing f := by
  refine ⟨⟨hlen, hfit⟩, fun g hg => ?_⟩
  rcases hg with (rfl | rfl) | hg
  · exact hbits.imp id fun h => h.imp id fun h => by show 5 + 1 ≤ f.lo; omega
  · exact hbits.imp id fun h => h.imp (fun h => by show f.lo + f.len ≤ 6; omega) fun h => by show 6 + 1 ≤ f.lo; omega
  · exact .inl fun heq => hout (heq ▸ hg)

/-- The end of a change of membership: MEMBER and NOMASTER are shown, and the membership is staged. -/
theorem works_shownStage (s : State) (v : Nat) : Works Showing unstaged s (s.showMember.stageMembers v) :=
  (((works_showMember s).mono fun _ => Or.inl).coarsen fun _ => rfl).trans ((works_stageMembers _ v).mono fun _ => Or.inr)

/-! ### What a port shows -/

theorem linkField_status (d : Nat) : (State.linkField d).addr = Reg.CSC_STATUS ∧ 8 ≤ (State.linkField d).lo ∧
    (State.linkField d).len = 2 ∧ (State.linkField d).lo + 2 ≤ 32 := by
  unfold State.linkField
  split
  · decide
  · decide

theorem degradedField_status (d : Nat) : (State.degradedField d).addr = Reg.CSC_STATUS ∧ 12 ≤ (State.degradedField d).lo ∧
    (State.degradedField d).len = 1 ∧ (State.degradedField d).lo + 1 ≤ 32 := by
  unfold State.degradedField
  split
  · decide
  · decide

theorem spared_linkField (d : Nat) : Spared Showing (State.linkField d) := by
  obtain ⟨haddr, hlo, hlen, hfit⟩ := linkField_status d
  exact spared_showing (by omega) (by omega) (.inr (.inr (by omega))) (by rw [haddr]; decide)

theorem spared_degradedField (d : Nat) : Spared Showing (State.degradedField d) := by
  obtain ⟨haddr, hlo, hlen, hfit⟩ := degradedField_status d
  exact spared_showing (by omega) (by omega) (.inr (.inr (by omega))) (by rw [haddr]; decide)

theorem withBehind_congr (hpos : t.stackPos = s.stackPos) (hnext : t.nextMembers = s.nextMembers) (d reach : Nat) :
    t.withBehind d reach = s.withBehind d reach := by
  simp only [State.withBehind, State.behind, hpos, hnext]

/-- Pop queues for which no one waits. -/
theorem popsFreed_idle (h : (s.pops.all fun x => x.2.waiting.isEmpty) = true) : s.popsFreed = s := by
  have hnone : (s.pops.filter fun x => x.2.inFlight.isNone && !x.2.waiting.isEmpty) = [] := by
    refine List.filter_eq_nil_iff.mpr fun x hx => ?_
    simp [List.all_eq_true.mp h x hx]
  unfold State.popsFreed
  rw [hnone]
  rfl

/-! ### A link that trains, and one beyond the partner -/

variable {dt : Nat} {port : Fin 2}

theorem exec_cscLink_trains (hon : s.portOn port.val = true) (hdown : s.linkState port.val ≠ 2) :
    exec (.cscLink dt port .trains) s = .next (written (s.elapse dt) [.field (State.linkField port.val) 1]) := by
  have hacts : (s.elapse dt).portOn port.val = true ∧ (s.elapse dt).linkState port.val ≠ 2 := ⟨hon, hdown⟩
  exact congrArg Host.Outcome.next ((if_pos hacts).trans (setF_eq_written ..))

theorem linkTrains (hs : s.regsWf = true) (hon : s.portOn port.val = true) (hdown : s.linkState port.val ≠ 2) :
    ∃ t, exec (.cscLink dt port .trains) s = .next t ∧ t.linkState port.val = 1 ∧ Leaves dt [Reg.CSC_STATUS] s t t := by
  obtain ⟨haddr, hlo, hlen, hfit⟩ := linkField_status port.val
  have hr := regs_written (s.elapse dt) [.field (State.linkField port.val) 1]
  refine ⟨_, exec_cscLink_trains hon hdown, ?_, regsKept_of_regs (s := s.elapse dt) hr ?_, fun _ => rfl, rfl⟩
  · rw [State.linkState, getF_of_regs (s := s.elapse dt) hs hr]
    simp (disch := omega) [RegOp.see, hlen]
  · simp [RegOp.words, haddr, hlen, hfit]

/-- Registers of other blocks are kept. -/
theorem rdw_out {T : Field → Prop} {K : State → State} (h : Works T K s t) (hs : s.regsWf = true)
    (hT : ∀ g, T g → g.addr / 65536 = 0x11) (a : Nat) (ha : a / 65536 ∉ [0x11]) : t.rdw a = s.rdw a :=
  h.rdw hs ⟨⟨Nat.zero_lt_succ _, Nat.le_refl 32⟩, fun g hg => .inl fun (heq : a = g.addr) =>
    ha (List.mem_singleton.mpr (heq ▸ hT g hg))⟩

theorem showing_cascade {g : Field} (hg : Showing g) : g.addr / 65536 = 0x11 := by
  rcases hg with (rfl | rfl) | hg
  · decide
  · decide
  · have hall : ∀ a ∈ sendWords, a / 65536 = 0x11 := by decide
    exact hall _ hg

/-- The frame of a membership that is staged. -/
theorem leavesOut_of_unstaged (hs : s.regsWf = true) (h : Works Showing unstaged (s.elapse dt) t) : LeavesOut dt [0x11] s t
      { t with csc := { t.csc with membersNext := s.csc.membersNext, sent := s.csc.sent, used := s.csc.used } } :=
  ⟨rdw_out (s := s.elapse dt) h hs fun _ => showing_cascade, fun a => (congrArg (fun v : State => v.memGet a) h.rest :),
    (congrArg (fun v : State => { v with regs := s.regs, resp := s.resp, csc := { v.csc with
      membersNext := s.csc.membersNext, sent := s.csc.sent, used := s.csc.used } }) h.rest :)⟩

theorem linkBeyond (hs : s.regsWf = true) {reach : BitVec 8} (hup : s.linkState port.val = 2) :
    ∃ t, exec (.cscLink dt port (.beyond reach)) s = .next t ∧
      (t.csc.membersNext = (if s.nextMembers = s.withBehind port.val reach.toNat then s.csc.membersNext else some
        (s.withBehind port.val reach.toNat))) ∧
      t.linkState port.val = 2 ∧
      LeavesOut dt [0x11] s t
        { t with csc := { t.csc with membersNext := s.csc.membersNext, sent := s.csc.sent, used := s.csc.used } } := by
  by_cases hsame : s.nextMembers = s.withBehind port.val reach.toNat
  case pos =>
    have hexec : exec (.cscLink dt port (.beyond reach)) s = .next (s.elapse dt) :=
      congrArg Host.Outcome.next (if_neg fun h => h.2 hsame)
    exact ⟨_, hexec, (if_pos hsame).symm, hup, fun _ _ => rfl, fun _ => rfl, rfl⟩
  case neg =>
    have hexec : exec (.cscLink dt port (.beyond reach)) s = .next ((s.elapse dt).stageMembers (s.withBehind port.val reach.toNat)) :=
      congrArg Host.Outcome.next (if_pos ⟨hup, hsame⟩)
    have hcsc := csc_stageMembers (s.elapse dt) (s.withBehind port.val reach.toNat)
    have hworks := (works_stageMembers (s.elapse dt) (s.withBehind port.val reach.toNat)).mono fun _ => (Or.inr : _ → Showing _)
    generalize (s.elapse dt).stageMembers (s.withBehind port.val reach.toNat) = t at *
    exact ⟨t, hexec, (congrArg CscSt.membersNext hcsc :).trans (if_neg hsame).symm,
      (hworks.reads hs _ (spared_linkField _)).trans hup, leavesOut_of_unstaged hs hworks⟩

end

/-! ### A link that comes up -/

/-- The collection of Cascade's events: that of CSC_EVCOLL, or 0 where it names none. -/
def cscColl (s : State) : Nat := if 55 < s.getF Fld.CSC_EVCOLL_COLL then 0 else s.getF Fld.CSC_EVCOLL_COLL

/-- What a link that comes up shows of itself. -/
def upOps (d gen width : Nat) : List RegOp :=
  [.field (State.linkField d) 2, .bit (State.degradedField d) (gen != 4 || width != 4), .field (Fld.CSC_LINK_GEN d) gen,
    .field (Fld.CSC_LINK_WIDTH d) width]

/-- The credits of one type at the start of a link. -/
def creditOps (d k : Nat) : List RegOp :=
  [.pair (Reg.CSC_CREDISS d k) (Config.cscCredits d k), .pair (Reg.CSC_CREDRET d k) 0, .pair (Reg.CSC_CREDHELD d k) 0]

/-- No credit of a port has been consumed. -/
def freshUsed (d : Nat) (used : Tab Nat) : Tab Nat := (List.range 6).foldl (fun u k => tset u (d * 6 + k) 0) used

/-- A link has come up, and reports it. -/
def joined (s : State) (d gen width : Nat) : State :=
  offer ((written s (upOps d gen width ++ (List.range 6).flatMap (creditOps d))).modCsc fun c => { c with used := freshUsed d c.used })
    0x11 ⟨0x12, 0x1001, 2, cscColl s, s.time.mt, p4 [d, 1, gen, width]⟩

section
variable {s t u : State} {d dt n gen w reach : Nat} {port : Fin 2}

theorem cscEvent_of_room (hroom : PortRoom u 0x11) (hcoll : u.getF Fld.CSC_EVCOLL_COLL = s.getF Fld.CSC_EVCOLL_COLL)
    (hmt : u.time.mt = s.time.mt) (code sev : Nat) (payload : List Byte) :
    u.cscEvent code sev payload = offer u 0x11 ⟨0x12, code, sev, cscColl s, s.time.mt, payload⟩ := by
  rw [State.cscEvent, hcoll]
  exact (emit_eq_offer hroom ..).trans (congrArg (fun m => offer u 0x11 ⟨0x12, code, sev, cscColl s, m, payload⟩) hmt)

theorem foldl_written {α : Type} {f : State → α → State} {ops : α → List RegOp} (h : ∀ u x, f u x = written u (ops x)) (l : List α)
    (s : State) : l.foldl f s = written s (l.flatMap ops) := by
  induction l generalizing s with
  | nil => exact (written_nil s).symm
  | cons x l ih => rw [List.foldl_cons, ih, h, written_written, List.flatMap_cons]

/-- The credits of a type have 24 bytes of their own. -/
theorem words_credits {a : Nat} {l : List Nat} (ha : a ∈ (l.flatMap (creditOps d)).flatMap RegOp.words) :
    ∃ k ∈ l, 0x110180 + d * 0x200 + k * 0x18 ≤ a ∧ a < 0x110180 + d * 0x200 + k * 0x18 + 0x18 := by
  obtain ⟨op, hop, ha⟩ := List.mem_flatMap.mp ha
  obtain ⟨k, hk, hop⟩ := List.mem_flatMap.mp hop
  refine ⟨k, hk, ?_⟩
  simp only [creditOps, List.mem_cons, List.not_mem_nil, or_false] at hop
  rcases hop with rfl | rfl | rfl
  · change a ∈ two (0x110180 + d * 0x200 + k * 0x18) at ha
    simp only [List.mem_cons, List.not_mem_nil, or_false] at ha
    omega
  · change a ∈ two (0x110188 + d * 0x200 + k * 0x18) at ha
    simp only [List.mem_cons, List.not_mem_nil, or_false] at ha
    omega
  · change a ∈ two (0x110190 + d * 0x200 + k * 0x18) at ha
    simp only [List.mem_cons, List.not_mem_nil, or_false] at ha
    omega

/-- Every word that the start of a link writes stands in CSC_STATUS or among those of its port. -/
theorem words_up (hd : d < 2) (a : Nat) (ha : a ∈ (upOps d gen w ++ (List.range 6).flatMap (creditOps d)).flatMap RegOp.words) :
    a = Reg.CSC_STATUS ∨ 0x110100 ≤ a ∧ a < 0x110500 := by
  obtain ⟨hlink, -, hlen, hfit⟩ := linkField_status d
  obtain ⟨hdeg, -, hdlen, hdfit⟩ := degradedField_status d
  rw [List.flatMap_append, List.mem_append] at ha
  rcases ha with ha | ha
  · simp only [upOps, RegOp.words, hlink, hdeg, hlen, hdlen, hfit, hdfit, if_true, List.flatMap_cons, List.flatMap_nil, List.mem_append,
      List.mem_cons, List.not_mem_nil, or_false, show (0 + 3 ≤ 32) = True from eq_true (by decide),
      show (4 + 4 ≤ 32) = True from eq_true (by decide)] at ha
    rcases ha with rfl | rfl | rfl | rfl
    · exact .inl rfl
    · exact .inl rfl
    · exact .inr (by show 0x110100 ≤ 0x110100 + d * 0x200 ∧ 0x110100 + d * 0x200 < 0x110500; omega)
    · exact .inr (by show 0x110100 ≤ 0x110100 + d * 0x200 ∧ 0x110100 + d * 0x200 < 0x110500; omega)
  · obtain ⟨k, hk, hlow, hhigh⟩ := words_credits ha
    have hk : k < 6 := List.mem_range.mp hk
    exact .inr (by omega)

theorem regs_joined (s : State) (d gen w : Nat) :
    (joined s d gen w).regs = (runAll s (upOps d gen w ++ (List.range 6).flatMap (creditOps d))).regs := regs_written ..

/-- Cascade's own words, the position and the membership are no words of a port. -/
theorem getF_joined (hd : d < 2) {f : Field} (hfit : f.lo + f.len ≤ 32) (hne : f.addr ≠ Reg.CSC_STATUS)
    (hlow : f.addr < 0x110100) : (joined s d gen w).getF f = s.getF f :=
  getF_of_regsKept (regsKept_of_regs (regs_joined s d gen w) fun _ h => h) hfit fun h => by
    rcases words_up hd f.addr h with h | h
    · exact hne h
    · omega

theorem joined_eq (hd : d < 2) (hroom : PortRoom s 0x11) :
    (((List.range 6).foldl (fun s k => ((s.wr64 (Reg.CSC_CREDISS d k) (Config.cscCredits d k)).wr64 (Reg.CSC_CREDRET d k) 0).wr64
        (Reg.CSC_CREDHELD d k) 0) ((((s.setF (State.linkField d) 2).setB (State.degradedField d) (gen != 4 || w != 4)).setF
          (Fld.CSC_LINK_GEN d) gen).setF (Fld.CSC_LINK_WIDTH d) w)).modCsc fun c => { c with used := freshUsed d c.used }).cscEvent
            0x1001 2 (p4 [d, 1, gen, w]) = joined s d gen w := by
  have hcredits := foldl_written (f := fun (s : State) k => ((s.wr64 (Reg.CSC_CREDISS d k) (Config.cscCredits d k)).wr64
    (Reg.CSC_CREDRET d k) 0).wr64 (Reg.CSC_CREDHELD d k) 0) (ops := creditOps d) (fun u k => by
      rw [wr64_eq_written, wr64_eq_written, wr64_eq_written, written_written, written_written]
      rfl) (List.range 6)
  have hup : (((s.setF (State.linkField d) 2).setB (State.degradedField d) (gen != 4 || w != 4)).setF (Fld.CSC_LINK_GEN d) gen).setF
      (Fld.CSC_LINK_WIDTH d) w = written s (upOps d gen w) := by
    rw [setF_eq_written, setB_eq_written, setF_eq_written, setF_eq_written, written_written, written_written, written_written]
    rfl
  rw [hup, hcredits, written_written]
  have hcoll : ((written s (upOps d gen w ++ (List.range 6).flatMap (creditOps d))).modCsc fun c =>
      { c with used := freshUsed d c.used }).getF Fld.CSC_EVCOLL_COLL = s.getF Fld.CSC_EVCOLL_COLL :=
    getF_joined hd (by decide) (by decide) (by decide)
  exact cscEvent_of_room (u := (written s (upOps d gen w ++ (List.range 6).flatMap (creditOps d))).modCsc fun c =>
    { c with used := freshUsed d c.used }) hroom hcoll rfl 0x1001 2 (p4 [d, 1, gen, w])

theorem linkUpEvent_eq (hs : s.regsWf = true) (hd : d < 2) (hdown : s.linkState d ≠ 2) (hplace : if d = 0 then n < s.stackPos else s.stackPos < n)
    (hn : n < 8) (hroom : PortRoom s 0x11) : s.linkUpEvent d n w gen reach =
      (joined s d gen w).showMember.stageMembers (s.withBehind d (reach ||| 2 ^ n)) := by
  have hok : (if d = 0 then decide (n < s.stackPos) else decide (s.stackPos < n)) = true := by
    split
    case isTrue h => exact decide_eq_true (by rwa [if_pos h] at hplace)
    case isFalse h => exact decide_eq_true (by rwa [if_neg h] at hplace)
  have hshow := works_showMember (joined s d gen w)
  have hwf : (joined s d gen w).regsWf = true := regsWf_of_regs hs (regs_joined ..)
  have hspared {f : Field} (hlen : 0 < f.len) (hfit : f.lo + f.len ≤ 32) (hne : f.addr ≠ Reg.CSC_STATUS) : Spared Standing f :=
    ⟨⟨hlen, hfit⟩, fun g hg => .inl fun heq => hne (by
      rcases hg with rfl | rfl
      · exact heq
      · exact heq)⟩
  have hpos : (joined s d gen w).showMember.stackPos = s.stackPos :=
    (hshow.reads hwf _ (hspared (by decide) (by decide) (by decide))).trans
      (getF_joined hd (f := Fld.SYS_PLUG_POS) (by decide) (by decide) (by decide))
  have hvec : (joined s d gen w).showMember.getF Fld.CSC_MEMBERS_VEC = s.getF Fld.CSC_MEMBERS_VEC :=
    (hshow.reads hwf _ (hspared (by decide) (by decide) (by decide))).trans
      (getF_joined hd (f := Fld.CSC_MEMBERS_VEC) (by decide) (by decide) (by decide))
  have hstaged : (joined s d gen w).showMember.csc.membersNext = s.csc.membersNext :=
    (congrArg (fun v : State => v.csc.membersNext) hshow.rest :)
  have hmembers : (joined s d gen w).showMember.withBehind d (reach ||| 2 ^ n) = s.withBehind d (reach ||| 2 ^ n) :=
    withBehind_congr hpos (by rw [State.nextMembers, State.nextMembers, hstaged, hvec]) d _
  unfold State.linkUpEvent
  dsimp only
  rw [hok, if_neg hdown, if_neg (by decide)]
  refine (congrArg (fun v : State => v.showMember.membersBehind d (reach ||| 2 ^ (n % 8))) (joined_eq hd hroom)).trans ?_
  rw [Nat.mod_eq_of_lt hn, State.membersBehind, hmembers]

end

/-! ### What a link that comes up leaves -/

section
variable {s t : State} {d dt n gen w : Nat} {port : Fin 2} {reach : BitVec 8}

theorem regs_joined_credits (s : State) (d gen w : Nat) :
    (joined s d gen w).regs = (runAll (written s (upOps d gen w)) ((List.range 6).flatMap (creditOps d))).regs := by
  rw [regs_joined, runAll, List.foldl_append]
  exact runAll_regs_congr (regs_written s (upOps d gen w)).symm _

/-- The credits do not touch what the link shows of itself. -/
theorem getF_joined_up {f : Field} (hfit : f.lo + f.len ≤ 32) (hlow : f.addr < 0x110180 + d * 0x200) :
    (joined s d gen w).getF f = (written s (upOps d gen w)).getF f :=
  getF_of_regsKept (regsKept_of_regs (regs_joined_credits s d gen w) fun _ h => h) hfit fun h => by
    obtain ⟨k, -, hlow, -⟩ := words_credits h
    omega

theorem shown_joined (hs : s.regsWf = true) (hd : d < 2) (hgen : gen < 8) (hwidth : w < 16) :
    (joined s d gen w).linkState d = 2 ∧ (joined s d gen w).bit (State.degradedField d) = (gen != 4 || w != 4) ∧
      (joined s d gen w).getF (Fld.CSC_LINK_GEN d) = gen ∧ (joined s d gen w).getF (Fld.CSC_LINK_WIDTH d) = w := by
  have hr := regs_written s (upOps d gen w)
  obtain rfl | rfl : d = 0 ∨ d = 1 := by omega
  · refine ⟨?_, ?_, ?_, ?_⟩
    · rw [State.linkState, getF_joined_up (by decide) (by decide), getF_of_regs hs hr]
      simp (disch := decide) [upOps, State.linkField, State.degradedField, RegOp.see]
    · rw [State.bit, getF_joined_up (by decide) (by decide), getF_of_regs hs hr]
      simp (disch := decide) [upOps, State.linkField, State.degradedField, RegOp.see]
    · rw [getF_joined_up (by simp) (by decide), getF_of_regs hs hr]
      simp (disch := decide) [upOps, State.linkField, State.degradedField, RegOp.see]
      omega
    · rw [getF_joined_up (by simp) (by decide), getF_of_regs hs hr]
      simp (disch := decide) [upOps, State.linkField, State.degradedField, RegOp.see]
      omega
  · refine ⟨?_, ?_, ?_, ?_⟩
    · rw [State.linkState, getF_joined_up (by decide) (by decide), getF_of_regs hs hr]
      simp (disch := decide) [upOps, State.linkField, State.degradedField, RegOp.see]
    · rw [State.bit, getF_joined_up (by decide) (by decide), getF_of_regs hs hr]
      simp (disch := decide) [upOps, State.linkField, State.degradedField, RegOp.see]
    · rw [getF_joined_up (by simp) (by decide), getF_of_regs hs hr]
      simp (disch := decide) [upOps, State.linkField, State.degradedField, RegOp.see]
      omega
    · rw [getF_joined_up (by simp) (by decide), getF_of_regs hs hr]
      simp (disch := decide) [upOps, State.linkField, State.degradedField, RegOp.see]
      omega

/-- The credits of one type after the start of every type of a list. -/
theorem credits_run {u : State} (hu : u.regsWf = true) (l : List Nat) (hl : l.Nodup) {k : Nat} (hk : k ∈ l) :
    (runAll u (l.flatMap (creditOps d))).rd64 (Reg.CSC_CREDISS d k) = Config.cscCredits d k % 18446744073709551616 ∧
      (runAll u (l.flatMap (creditOps d))).rd64 (Reg.CSC_CREDRET d k) = 0 ∧
      (runAll u (l.flatMap (creditOps d))).rd64 (Reg.CSC_CREDHELD d k) = 0 := by
  induction l generalizing u with
  | nil => exact absurd hk List.not_mem_nil
  | cons j l ih =>
    obtain ⟨hout, hnodup⟩ := List.nodup_cons.mp hl
    have hu' : (runAll u (creditOps d j)).regsWf = true := regsWf_of_regs hu rfl
    rw [List.flatMap_cons, runAll, List.foldl_append]
    by_cases hkl : k ∈ l
    case pos => exact ih hu' hnodup hkl
    case neg =>
      obtain rfl := (List.mem_cons.mp hk).resolve_right hkl
      have hkept (a : Nat) (ha : 0x110180 + d * 0x200 + k * 0x18 ≤ a ∧ a + 8 ≤ 0x110180 + d * 0x200 + k * 0x18 + 0x18) :
          (runAll (runAll u (creditOps d k)) (l.flatMap (creditOps d))).rd64 a = (runAll u (creditOps d k)).rd64 a := by
        have hfar (b : Nat) (hb : 0x110180 + d * 0x200 + k * 0x18 ≤ b ∧ b < 0x110180 + d * 0x200 + k * 0x18 + 0x18) :
            b ∉ (l.flatMap (creditOps d)).flatMap RegOp.words := fun h => by
          obtain ⟨j, hj, hlow, hhigh⟩ := words_credits h
          have hne : j ≠ k := fun h => hout (h ▸ hj)
          omega
        exact rd64_of_regsKept (regsKept_of_regs (s := runAll u (creditOps d k)) (l := l.flatMap (creditOps d)) rfl fun _ h => h)
          (hfar a (by omega)) (hfar (a + 4) (by omega))
      refine ⟨?_, ?_, ?_⟩
      · refine (hkept (Reg.CSC_CREDISS d k) ?_).trans ?_
        · show _ ≤ 0x110180 + d * 0x200 + k * 0x18 ∧ 0x110180 + d * 0x200 + k * 0x18 + 8 ≤ _
          omega
        · rw [rd64_of_regs hu (t := runAll u (creditOps d k)) rfl]
          simp (disch := grind) [creditOps, RegOp.see]
      · refine (hkept (Reg.CSC_CREDRET d k) ?_).trans ?_
        · show _ ≤ 0x110188 + d * 0x200 + k * 0x18 ∧ 0x110188 + d * 0x200 + k * 0x18 + 8 ≤ _
          omega
        · rw [rd64_of_regs hu (t := runAll u (creditOps d k)) rfl]
          simp (disch := grind) [creditOps, RegOp.see]
      · refine (hkept (Reg.CSC_CREDHELD d k) ?_).trans ?_
        · show _ ≤ 0x110190 + d * 0x200 + k * 0x18 ∧ 0x110190 + d * 0x200 + k * 0x18 + 8 ≤ _
          omega
        · rw [rd64_of_regs hu (t := runAll u (creditOps d k)) rfl]
          simp (disch := grind) [creditOps, RegOp.see]

end

section
variable {s t : State} {d dt n gen w : Nat} {port : Fin 2} {reach : BitVec 8}

theorem rd64_of_regs_eq {t u : State} (h : t.regs = u.regs) (a : Nat) : t.rd64 a = u.rd64 a := by
  simp only [State.rd64, State.rd, State.rdw, h]

theorem credits_joined (hs : s.regsWf = true) {k : Nat} (hk : k < 6) :
    (joined s d gen w).rd64 (Reg.CSC_CREDISS d k) = Config.cscCredits d k % 18446744073709551616 ∧
      (joined s d gen w).rd64 (Reg.CSC_CREDRET d k) = 0 ∧ (joined s d gen w).rd64 (Reg.CSC_CREDHELD d k) = 0 := by
  have hregs := rd64_of_regs_eq (regs_joined_credits s d gen w)
  rw [hregs, hregs, hregs]
  exact credits_run (regsWf_of_regs hs (regs_written ..)) _ List.nodup_range (List.mem_range.mpr hk)

/-- The credits of a port are no words of what the master sends. -/
theorem spared_credits (hd : d < 2) {a k : Nat} (hk : k < 6)
    (ha : 0x110180 + d * 0x200 + k * 0x18 ≤ a ∧ a < 0x110180 + d * 0x200 + k * 0x18 + 0x18) : Spared Showing (word a) := by
  refine spared_showing (Nat.zero_lt_succ _) (Nat.le_refl 32) (.inl ?_) ?_
  · show a ≠ 0x110000
    omega
  · show a ∉ [0x110308, 0x11030C, 0x110348, 0x11034C]
    simp only [List.mem_cons, List.not_mem_nil, or_false]
    obtain rfl | rfl : d = 0 ∨ d = 1 := by omega
    · omega
    · omega

theorem freshUsed_get (d : Nat) (used : Tab Nat) {k : Nat} (hk : k < 6) : tget (freshUsed d used) (d * 6 + k) = 0 := by
  have hset (l : List Nat) (u : Tab Nat) : k ∈ l ∨ tget u (d * 6 + k) = 0 → tget (l.foldl (fun u k => tset u (d * 6 + k) 0) u) (d * 6 + k) = 0 := by
    induction l generalizing u with
    | nil => exact fun h => h.resolve_left List.not_mem_nil
    | cons j l ih =>
      intro h
      refine ih _ ?_
      by_cases hj : j = k
      · subst hj
        exact .inr (tget_tset_self ..)
      · refine h.imp (fun h => (List.mem_cons.mp h).resolve_left (Ne.symm hj)) fun h => ?_
        rw [tget_tset_ne u (by omega)]
        exact h
  exact hset _ _ (.inl (List.mem_range.mpr hk))

/-- All but the registers, what the master sends and the Archive's ports. -/
def unheard (s : State) : State :=
  { s with regs := [], csc := { s.csc with membersNext := none, sent := [], used := [] }, arc := { s.arc with ports := [] } }

theorem unheard_joined (s : State) (d gen w : Nat) : unheard (joined s d gen w) = unheard s := rfl

theorem used_shownStage (s : State) (v : Nat) {k : Nat} (hk : k ≠ 6) :
    tget (s.showMember.stageMembers v).csc.used k = tget s.csc.used k :=
  (used_sendMembers hk _).trans (congrArg (fun u : State => tget u.csc.used k) (works_showMember s).rest :)

theorem membersNext_shownStage (s : State) (v : Nat) : (s.showMember.stageMembers v).csc.membersNext = some v :=
  (congrArg CscSt.membersNext (csc_stageMembers s.showMember v) :)

theorem exec_cscLink_comesUp (hs : s.regsWf = true) (hon : s.portOn port.val = true) (hdown : s.linkState port.val ≠ 2)
    (hplace : if port.val = 0 then n < s.stackPos else s.stackPos < n) (hn : n < 8) (hroom : PortRoom s 0x11)
    (hwaiting : (s.pops.all fun x => x.2.waiting.isEmpty) = true) :
    exec (.cscLink dt port (.comesUp n w gen reach)) s = .next
      ((joined (s.elapse dt) port.val gen w).showMember.stageMembers (s.withBehind port.val (reach.toNat ||| 2 ^ n))) := by
  have hup := linkUpEvent_eq (s := s.elapse dt) (gen := gen) (w := w) (reach := reach.toNat) hs port.isLt hdown hplace hn hroom
  have hworks := works_shownStage (joined (s.elapse dt) port.val gen w) (s.withBehind port.val (reach.toNat ||| 2 ^ n))
  refine congrArg Host.Outcome.next ((if_pos hon).trans ?_)
  refine (congrArg State.popsFreed hup).trans (popsFreed_idle ?_)
  exact (congrArg (fun u : State => u.pops.all fun x => x.2.waiting.isEmpty) hworks.rest :).trans hwaiting

theorem linkComesUp (hs : s.regsWf = true) (hon : s.portOn port.val = true) (hdown : s.linkState port.val ≠ 2)
    (hplace : if port = 0 then n < s.stackPos else s.stackPos < n) (hn : n < 8) (hw : w < 16) (hgen : gen < 8)
    (hroom : PortRoom s 0x11) (hwaiting : (s.pops.all fun x => x.2.waiting.isEmpty) = true) :
    ∃ t, exec (.cscLink dt port (.comesUp n w gen reach)) s = .next t ∧
      t.linkState port.val = 2 ∧
      t.bit (State.degradedField port.val) = (gen != 4 || w != 4) ∧
      t.getF (Fld.CSC_LINK_GEN port.val) = gen ∧
      t.getF (Fld.CSC_LINK_WIDTH port.val) = w ∧
      (∀ k, k < 6 → t.rd64 (Reg.CSC_CREDISS port.val k) = Config.cscCredits port.val k % 18446744073709551616 ∧ t.rd64
        (Reg.CSC_CREDRET port.val k) = 0 ∧ t.rd64 (Reg.CSC_CREDHELD port.val k) = 0) ∧
      (∀ k, 0 < k → k < 6 → tget t.csc.used (port.val * 6 + k) = 0) ∧
      t.csc.membersNext = some (s.withBehind port.val (reach.toNat ||| 2 ^ n)) ∧
      (Offered 0x11 0x1001 2 (if 55 < s.getF Fld.CSC_EVCOLL_COLL then 0 else s.getF Fld.CSC_EVCOLL_COLL) (p4 [port.val, 1,
        gen, w]) s t) ∧
      LeavesOut dt [0x11] s t
        { t with csc := { t.csc with membersNext := s.csc.membersNext, sent := s.csc.sent, used := s.csc.used }, arc := { t.arc with ports := s.arc.ports } } := by
  have hd := port.isLt
  have hu : (s.elapse dt).regsWf = true := hs
  have hplace' : if port.val = 0 then n < s.stackPos else s.stackPos < n := by
    rcases port with ⟨_ | _, _⟩
    · exact hplace
    · exact hplace
  have hexec := exec_cscLink_comesUp (dt := dt) (gen := gen) (w := w) (reach := reach) hs hon hdown hplace' hn hroom hwaiting
  obtain ⟨hlink, hdegraded, hgen', hwidth⟩ := shown_joined (s := s.elapse dt) (d := port.val) hu hd hgen hw
  have hcredits (k : Nat) (hk : k < 6) := credits_joined (s := s.elapse dt) (d := port.val) (gen := gen) (w := w) hu hk
  have hused : (joined (s.elapse dt) port.val gen w).csc.used = freshUsed port.val s.csc.used := rfl
  have hports : (joined (s.elapse dt) port.val gen w).arc.ports = portsWith (s.elapse dt) 0x11
    ⟨0x12, 0x1001, 2, cscColl (s.elapse dt), (s.elapse dt).time.mt, p4 [port.val, 1, gen, w]⟩ := rfl
  have hrest := unheard_joined (s.elapse dt) port.val gen w
  have hr := regs_joined (s.elapse dt) port.val gen w
  generalize joined (s.elapse dt) port.val gen w = o at *
  have howf := regsWf_of_regs hu hr
  have hworks := works_shownStage o (s.withBehind port.val (reach.toNat ||| 2 ^ n))
  have hmembers := membersNext_shownStage o (s.withBehind port.val (reach.toNat ||| 2 ^ n))
  have husedt (k : Nat) (hk : k ≠ 6) := used_shownStage o (s.withBehind port.val (reach.toNat ||| 2 ^ n)) hk
  generalize o.showMember.stageMembers (s.withBehind port.val (reach.toNat ||| 2 ^ n)) = t at *
  have hrestt : unheard t = unheard (s.elapse dt) := (congrArg unheard hworks.rest :).trans hrest
  have hkept {f : Field} (hlen : 0 < f.len) (hfit : f.lo + f.len ≤ 32) (haddr : f.addr = Reg.CSC_LINK port.val) : t.getF f = o.getF f :=
    hworks.reads howf f (spared_showing hlen hfit (.inl (by rw [haddr]; show 0x110100 + port.val * 0x200 ≠ 0x110000; omega)) (by
      rw [haddr]
      show 0x110100 + port.val * 0x200 ∉ [0x110308, 0x11030C, 0x110348, 0x11034C]
      simp only [List.mem_cons, List.not_mem_nil, or_false]
      omega))
  refine ⟨t, hexec, (hworks.reads howf _ (spared_linkField _)).trans hlink, (hworks.bit howf (spared_degradedField _)).trans hdegraded,
    (hkept (by simp) (by simp) rfl).trans hgen', (hkept (by simp) (by simp) rfl).trans hwidth, fun k hk => ?_, fun k hpos hk => ?_, hmembers, ?_, ?_⟩
  · have hrd (a : Nat) (ha : 0x110180 + port.val * 0x200 + k * 0x18 ≤ a ∧ a + 8 ≤ 0x110180 + port.val * 0x200 + k * 0x18 + 0x18) :
        t.rd64 a = o.rd64 a := hworks.rd64 howf (spared_credits hd hk (by omega)) (spared_credits hd hk (by omega))
    obtain ⟨hiss, hret, hheld⟩ := hcredits k hk
    refine ⟨(hrd _ ?_).trans hiss, (hrd _ ?_).trans hret, (hrd _ ?_).trans hheld⟩
    · show _ ≤ 0x110180 + port.val * 0x200 + k * 0x18 ∧ 0x110180 + port.val * 0x200 + k * 0x18 + 8 ≤ _
      omega
    · show _ ≤ 0x110188 + port.val * 0x200 + k * 0x18 ∧ 0x110188 + port.val * 0x200 + k * 0x18 + 8 ≤ _
      omega
    · show _ ≤ 0x110190 + port.val * 0x200 + k * 0x18 ∧ 0x110190 + port.val * 0x200 + k * 0x18 + 8 ≤ _
      omega
  · rw [husedt _ (by omega), hused]
    exact freshUsed_get _ _ hk
  · refine offered_of_ports ((congrArg (fun v : State => v.arc.ports) hworks.rest :).trans (hports.trans ?_))
    have hmt : t.time.mt = (s.elapse dt).time.mt := (congrArg (fun v : State => v.time.mt) hrestt :)
    rw [hmt]
    rfl
  · refine ⟨fun a ha => (rdw_out hworks howf (fun _ => showing_cascade) a ha).trans ?_, fun a => (congrArg (fun v : State => v.memGet a) hrestt :),
      (congrArg (fun v : State => { v with regs := s.regs, resp := s.resp, csc := { v.csc with membersNext := s.csc.membersNext, sent := s.csc.sent, used := s.csc.used }, arc := { v.arc with ports := s.arc.ports } }) hrestt :)⟩
    refine regsKept_of_regs (s := s.elapse dt) hr (fun _ h => h) a fun h => ha (List.mem_singleton.mpr ?_)
    rcases words_up hd a h with rfl | h
    · decide
    · omega

end

end Sys2Proof.Proofs.CascadeLinksUp

/-! Cascade links that go down, and audits that differ (R437, R444). -/

namespace Sys2Proof.Proofs.CascadeLinksDown

open Sys2Proof Sys2Proof.Machine Sys2Proof.Laws Sys2Proof.Proofs.Time Sys2Proof.Proofs.Power Sys2Proof.Proofs.RegOps
  Sys2Proof.Proofs.GarnetFrames Sys2Proof.Proofs.FieldGroups Sys2Proof.Proofs.CascadeLinksUp

/-! ### What the link's port shows -/

/-- What a link that goes down shows of itself. -/
def dimOps (d next : Nat) : List RegOp :=
  [.field (State.linkField d) next, .bit (State.degradedField d) false, .word (Reg.CSC_LINK d) 0]

/-- A link is down, and reports it. -/
def dimmed (s : State) (d next : Nat) : State :=
  offer (written s (dimOps d next)).showMember 0x11 ⟨0x12, 0x1001, 2, cscColl s, s.time.mt, p4 [d, 0, 0, 0]⟩

section
variable {s t u : State} {d next : Nat}

theorem spared_of_notMem {ws : List Nat} {f : Field} (hlen : 0 < f.len) (hfit : f.lo + f.len ≤ 32) (h : f.addr ∉ ws) :
    Spared (inWords ws) f := spared_word hlen hfit h

theorem words_dimOps (d next : Nat) : (dimOps d next).flatMap RegOp.words ⊆ [Reg.CSC_STATUS, Reg.CSC_LINK d] := by
  obtain ⟨hlink, -, hlen, hfit⟩ := linkField_status d
  obtain ⟨hdeg, -, hdlen, hdfit⟩ := degradedField_status d
  simp [dimOps, RegOp.words, hlink, hdeg, hlen, hdlen, hfit, hdfit]

/-- All but the registers and the Archive's ports. -/
def unported (s : State) : State := { s with regs := [], arc := { s.arc with ports := [] } }

/-- A program as an operation. -/
theorem works_written {ws : List Nat} {K : State → State} {l : List RegOp} (hl : l.flatMap RegOp.words ⊆ ws)
    (hK : ∀ u r, K { u with regs := r } = K u) : Works (inWords ws) K s (written s l) where
  wf hs := regsWf_of_regs hs (regs_written s l)
  reads hs f hf := by
    refine getF_of_regsKept (regsKept_of_regs (regs_written s l) hl) hf.1.2 fun h => ?_
    have hapart := hf.2 (⟨f.addr, f.lo, f.len⟩ : Field) h
    have hlen := hf.1.1
    rcases hapart with hne | hle | hle
    · exact hne rfl
    · exact absurd hle (by show ¬ f.lo + f.len ≤ f.lo; omega)
    · exact absurd hle (by show ¬ f.lo + f.len ≤ f.lo; omega)
  rest := hK ..

theorem standing_status {g : Field} (h : Standing g) : inWords [Reg.CSC_STATUS, Reg.CSC_LINK d] g := by
  rcases h with rfl | rfl
  · exact List.mem_cons_self
  · exact List.mem_cons_self

theorem works_dimmed (s : State) (d next : Nat) :
    Works (inWords [Reg.CSC_STATUS, Reg.CSC_LINK d]) unported s (dimmed s d next) := by
  have hoffer (u : State) (o : Occurrence) : Works (inWords [Reg.CSC_STATUS, Reg.CSC_LINK d]) unported u (offer u 0x11 o) :=
    ⟨id, fun _ _ _ => rfl, rfl⟩
  have hshow (u : State) : Works (inWords [Reg.CSC_STATUS, Reg.CSC_LINK d]) unported u u.showMember :=
    ((works_showMember u).mono fun _ => standing_status).coarsen fun _ => rfl
  exact ((works_written (words_dimOps d next) fun _ _ => rfl).trans (hshow _)).trans (hoffer _ _)

theorem ports_dimmed (s : State) (d next : Nat) :
    (dimmed s d next).arc.ports = portsWith s 0x11 ⟨0x12, 0x1001, 2, cscColl s, s.time.mt, p4 [d, 0, 0, 0]⟩ := by
  have harc : (written s (dimOps d next)).showMember.arc = s.arc :=
    (congrArg State.arc (works_showMember (written s (dimOps d next))).rest :)
  exact congrArg (fun a : ArcSt => tset a.ports 0x11 (tget a.ports 0x11 ++ [_])) harc

theorem shown_dimmed (hs : s.regsWf = true) (hd : d < 2) (hnext : next < 4) :
    (dimmed s d next).linkState d = next ∧ (dimmed s d next).rd (Reg.CSC_LINK d) = 0 := by
  have hr := regs_written s (dimOps d next)
  have hwf := regsWf_of_regs hs hr
  have hshow := works_showMember (written s (dimOps d next))
  have hlink : (dimmed s d next).linkState d = (written s (dimOps d next)).linkState d :=
    hshow.reads hwf _ ⟨(spared_linkField d).1, fun g hg => (spared_linkField d).2 g (.inl hg)⟩
  have hword : (dimmed s d next).rd (Reg.CSC_LINK d) = (written s (dimOps d next)).rd (Reg.CSC_LINK d) := by
    refine hshow.rd hwf ⟨⟨Nat.zero_lt_succ _, Nat.le_refl 32⟩, fun g hg => .inl ?_⟩
    have hne : Reg.CSC_LINK d ≠ Reg.CSC_STATUS := by show 0x110100 + d * 0x200 ≠ 0x110000; omega
    rcases hg with rfl | rfl
    · exact hne
    · exact hne
  rw [hlink, hword, State.linkState, getF_of_regs hs hr, rd_of_regs hs hr]
  obtain rfl | rfl : d = 0 ∨ d = 1 := by omega
  · constructor
    · simp (disch := decide) [dimOps, State.linkField, State.degradedField, RegOp.see]
      omega
    · simp (disch := decide) [dimOps, State.linkField, State.degradedField, RegOp.see]
  · constructor
    · simp (disch := decide) [dimOps, State.linkField, State.degradedField, RegOp.see]
      omega
    · simp (disch := decide) [dimOps, State.linkField, State.degradedField, RegOp.see]

theorem dimmed_eq (hs : s.regsWf = true) (hroom : PortRoom s 0x11) :
    (((((s.setF (State.linkField d) next).setB (State.degradedField d) false).wr (Reg.CSC_LINK d) 0).showMember).cscEvent 0x1001 2
      (p4 [d, 0, 0, 0])) = dimmed s d next := by
  have hops : ((s.setF (State.linkField d) next).setB (State.degradedField d) false).wr (Reg.CSC_LINK d) 0 = written s (dimOps d next) := by
    rw [setF_eq_written, setB_eq_written, wr_eq_written, written_written, written_written]
    rfl
  have hshow := works_showMember (written s (dimOps d next))
  have hwf := regsWf_of_regs hs (regs_written s (dimOps d next))
  have hcoll : (written s (dimOps d next)).showMember.getF Fld.CSC_EVCOLL_COLL = s.getF Fld.CSC_EVCOLL_COLL := by
    have hkept : (written s (dimOps d next)).getF Fld.CSC_EVCOLL_COLL = s.getF Fld.CSC_EVCOLL_COLL :=
      getF_of_regsKept (regsKept_of_regs (regs_written s (dimOps d next)) (words_dimOps d next)) (by decide) (by
        show (0x11001C : Nat) ∉ [0x110000, 0x110100 + d * 0x200]
        simp only [List.mem_cons, List.not_mem_nil, or_false]
        omega)
    refine (hshow.reads hwf _ ⟨⟨by decide, by decide⟩, fun g hg => .inl ?_⟩).trans hkept
    rcases hg with rfl | rfl
    · decide
    · decide
  have hmt : (written s (dimOps d next)).showMember.time.mt = s.time.mt := (congrArg (fun v : State => v.time.mt) hshow.rest :)
  have hroom' : PortRoom (written s (dimOps d next)).showMember 0x11 :=
    (congrArg (fun v : State => (tget v.arc.ports 0x11).length < 32) hshow.rest :).mpr hroom
  rw [hops]
  exact cscEvent_of_room hroom' hcoll hmt 0x1001 2 _

end

/-! ### The requests that were open towards the link -/

/-- The far lock that a link that goes down leaves. -/
def lockLeft (s : State) (d : Nat) : Option Nat :=
  if (s.csc.lockHeld.map fun p => (s.behind d).contains p).getD false then none else s.csc.lockHeld

/-- A bridge of which no read and no AMO is open or waits. -/
def Idle (s : State) : Prop := s.csc.tags = [] ∧ s.csc.readQ = [] ∧ s.csc.amoQ = []

section
variable {s t u : State} {d next : Nat}

theorem nextAmo_idle (h : s.csc.amoQ = []) : s.nextAmo = s.modCsc fun c => { c with lockHeld := none } := by
  unfold State.nextAmo
  have hnone : (s.modCsc fun c => { c with lockHeld := none }).csc.amoQ = [] := h
  simp only [hnone]

theorem filtered_idle {c : CscSt} (htags : c.tags = []) (hreads : c.readQ = []) (hamos : c.amoQ = []) (f : CscTag → Bool)
    (g : CscAsk → Bool) (h : Nat × Requester × Nat × Nat → Bool) :
    { c with tags := c.tags.filter f, readQ := c.readQ.filter g, amoQ := c.amoQ.filter h } = c := by
  cases c
  dsimp only at htags hreads hamos
  subst htags hreads hamos
  rfl

theorem dropOpen_idle (h : Idle s) : s.dropOpen d =
    written (s.modCsc fun c => { c with lockHeld := lockLeft s d }) [.count (Reg.CSC_RDTO d) 0] := by
  obtain ⟨htags, hreads, hamos⟩ := h
  have hsame : (s.modCsc fun c => { c with
      tags := c.tags.filter fun t => t.ask.port != d, readQ := c.readQ.filter fun x => x.port != d
      amoQ := c.amoQ.filter fun x => !(s.behind d).contains x.1 }) = s :=
    congrArg (fun c : CscSt => { s with csc := c }) (filtered_idle htags hreads hamos ..)
  unfold State.dropOpen
  dsimp only
  rw [hsame, htags, hreads, hamos]
  simp only [List.filter_nil, List.length_nil, List.map_nil, List.append_nil, List.foldl_nil, List.isEmpty_nil, if_true,
    List.head?_nil, Option.map_none]
  have horElse : (s.csc.lockHeld.orElse fun _ => none) = s.csc.lockHeld := by
    cases s.csc.lockHeld
    · rfl
    · rfl
  rw [horElse, add64_eq_written, written_of_regs (s := s) (u := s.modCsc fun c => { c with lockHeld := lockLeft s d }) rfl, lockLeft]
  split
  case isTrue => exact nextAmo_idle (s := written s [.count (Reg.CSC_RDTO d) 0]) hamos
  case isFalse => rfl

/-! ### The positions behind the link -/

/-- The membership without the positions behind a port. -/
def membersLeft (s : State) (d : Nat) : Nat := (((bitsOf 8 s.nextMembers).filter fun p => !(s.behind d).contains p).map (2 ^ ·)).sum

/-- What a port forgets of the positions `far` behind it. -/
def forgets (far : List Nat) (d : Nat) (c : CscSt) : CscSt :=
  { c with
    sent := tset c.sent d 0, waiting := c.waiting.filter fun p => !far.contains p
    inWait := (c.inWait.filter fun x => x.1 != some d || x.2.write).map fun x => if x.1 = some d then (none, x.2) else x }

/-- The posted writes that the partner had not acknowledged are lost, and the requests of the positions behind end. -/
def forgotten (s : State) (d : Nat) : State :=
  ((((s.dropReads fun r => r.cls == .x && (s.behind d).contains r.core).add64 (Reg.CSC_PWLOST d)
    (Config.cscUnacked s.freeCtr % (tget s.csc.sent d + 1))).freshCtr).modCsc (forgets (s.behind d) d))

/-- All but the registers, and what a link takes away that goes down. -/
def settled (s : State) : State :=
  { s with
    regs := [], freeCtr := 0, pops := [], arc := { s.arc with ports := [] }
    csc := { s.csc with membersNext := none, sent := [], used := [], lockHeld := none, waiting := [], inWait := [] } }

/-- A link is down, and what was open towards it has ended. -/
def silenced (s : State) (d next : Nat) : State :=
  written ((dimmed s d next).modCsc fun c => { c with lockHeld := lockLeft (dimmed s d next) d }) [.count (Reg.CSC_RDTO d) 0]

/-- The words of a port that a link writes as it goes down. -/
def portWords (d : Nat) : List Nat := [Reg.CSC_STATUS, Reg.CSC_LINK d] ++ two (Reg.CSC_RDTO d)

theorem works_silenced (s : State) (d next : Nat) : Works (inWords (portWords d)) settled s (silenced s d next) := by
  have hlock (u : State) (k : Option Nat) : Works (inWords (portWords d)) settled u (u.modCsc fun c => { c with lockHeld := k }) :=
    ⟨id, fun _ _ _ => rfl, rfl⟩
  have hdim := ((works_dimmed s d next).mono fun g hg => (List.mem_append_left _ hg : inWords (portWords d) g)).coarsen (L := settled)
    fun _ => rfl
  exact (hdim.trans (hlock _ _)).trans (works_written (by simp [RegOp.words]) fun _ _ => rfl)

theorem works_forgotten (s : State) (d : Nat) : Works (inWords (two (Reg.CSC_PWLOST d))) settled s (forgotten s d) := by
  have hdrop (of : Requester → Bool) : Works (inWords (two (Reg.CSC_PWLOST d))) settled s (s.dropReads of) := ⟨id, fun _ _ _ => rfl, rfl⟩
  have hcount (u : State) (n : Nat) : Works (inWords (two (Reg.CSC_PWLOST d))) settled u (u.add64 (Reg.CSC_PWLOST d) n) :=
    works_count n (show Reg.CSC_PWLOST d ∈ two (Reg.CSC_PWLOST d) from List.mem_cons_self)
      (show Reg.CSC_PWLOST d + 4 ∈ two (Reg.CSC_PWLOST d) from List.mem_cons_of_mem _ List.mem_cons_self) fun _ _ => rfl
  have hforget (u : State) (far : List Nat) : Works (inWords (two (Reg.CSC_PWLOST d))) settled u (u.freshCtr.modCsc (forgets far d)) :=
    ⟨id, fun _ _ _ => rfl, rfl⟩
  exact ((hdrop _).trans (hcount _ _)).trans (hforget _ _)

/-- The position and the membership stand in words that no link writes. -/
theorem spared_port {f : Field} (hd : d < 2) (hlen : 0 < f.len) (hfit : f.lo + f.len ≤ 32)
    (haddr : f.addr ≠ Reg.CSC_STATUS ∧ (f.addr < 0x110100 ∨ 0x110130 + d * 0x200 ≤ f.addr)) : Spared (inWords (portWords d)) f := by
  refine spared_word hlen hfit ?_
  obtain ⟨hne, hrange⟩ := haddr
  show f.addr ∉ [0x110000, 0x110100 + d * 0x200, 0x110128 + d * 0x200, 0x110128 + d * 0x200 + 4]
  simp only [List.mem_cons, List.not_mem_nil, or_false]
  change f.addr ≠ 0x110000 at hne
  omega

theorem spared_lost {f : Field} (hlen : 0 < f.len) (hfit : f.lo + f.len ≤ 32)
    (haddr : f.addr < 0x110148 + d * 0x200 ∨ 0x110150 + d * 0x200 ≤ f.addr) : Spared (inWords (two (Reg.CSC_PWLOST d))) f := by
  refine spared_word hlen hfit ?_
  show f.addr ∉ [0x110148 + d * 0x200, 0x110148 + d * 0x200 + 4]
  simp only [List.mem_cons, List.not_mem_nil, or_false]
  omega

theorem behind_congr (h : t.stackPos = s.stackPos) : t.behind d = s.behind d := by simp only [State.behind, h]

theorem behind_dimmed (hs : s.regsWf = true) (hd : d < 2) : (dimmed s d next).behind d = s.behind d :=
  behind_congr ((works_dimmed s d next).reads hs Fld.SYS_PLUG_POS
    ⟨⟨by decide, by decide⟩, fun g hg => (spared_port (d := d) hd (f := Fld.SYS_PLUG_POS) (by decide) (by decide)
      ⟨by decide, .inl (by decide)⟩).2 g (List.mem_append_left _ hg)⟩)

theorem behind_silenced (hs : s.regsWf = true) (hd : d < 2) : (silenced s d next).behind d = s.behind d :=
  behind_congr ((works_silenced s d next).reads hs Fld.SYS_PLUG_POS (spared_port hd (by decide) (by decide) ⟨by decide, .inl (by decide)⟩))

theorem csc_dimmed (s : State) (d next : Nat) : (dimmed s d next).csc = s.csc := (congrArg State.csc (works_dimmed s d next).rest :)

theorem csc_silenced (hs : s.regsWf = true) (hd : d < 2) : (silenced s d next).csc = { s.csc with lockHeld := lockLeft s d } := by
  have hlock : lockLeft (dimmed s d next) d = lockLeft s d := by rw [lockLeft, lockLeft, csc_dimmed, behind_dimmed hs hd]
  have hcsc : (silenced s d next).csc = { (dimmed s d next).csc with lockHeld := lockLeft (dimmed s d next) d } := rfl
  rw [hcsc, hlock, csc_dimmed]

theorem csc_forgotten (s : State) (d : Nat) : (forgotten s d).csc = forgets (s.behind d) d s.csc := rfl

/-- A link that was up takes away what was open and waited towards it, and the positions behind it. -/
theorem linkDown_eq (hs : s.regsWf = true) (hd : d < 2) (hup : s.linkState d = 2) (hidle : Idle s) (hroom : PortRoom s 0x11) :
    s.linkDown d next = (forgotten (silenced s d next) d).stageMembers (membersLeft s d) := by
  have hidle' : Idle (dimmed s d next) := by
    rw [Idle, csc_dimmed]
    exact hidle
  have hdrop := (congrArg (fun v : State => v.dropOpen d) (dimmed_eq (d := d) (next := next) hs hroom)).trans (dropOpen_idle hidle')
  have hwf : (silenced s d next).regsWf = true := (works_silenced s d next).wf hs
  have hvec : (forgotten (silenced s d next) d).getF Fld.CSC_MEMBERS_VEC = s.getF Fld.CSC_MEMBERS_VEC :=
    ((works_forgotten (silenced s d next) d).reads hwf _ (spared_lost (by decide) (by decide) (.inl (by
      show 0x110004 < 0x110148 + d * 0x200
      omega)))).trans ((works_silenced s d next).reads hs _ (spared_port hd (by decide) (by decide) ⟨by decide, .inl (by decide)⟩))
  have hmembers : (forgotten (silenced s d next) d).nextMembers = s.nextMembers := by
    rw [State.nextMembers, State.nextMembers, hvec, csc_forgotten, csc_silenced hs hd]
    rfl
  refine (if_neg (not_not.mpr hup)).trans ?_
  refine (congrArg (fun e : State => (forgotten e d).stageMembers (((bitsOf 8 (forgotten e d).nextMembers).filter fun p =>
    !(e.behind d).contains p).map (2 ^ ·)).sum) hdrop).trans ?_
  show (forgotten (silenced s d next) d).stageMembers (((bitsOf 8 (forgotten (silenced s d next) d).nextMembers).filter fun p =>
    !((silenced s d next).behind d).contains p).map (2 ^ ·)).sum = _
  rw [hmembers, behind_silenced hs hd]
  rfl

end

end Sys2Proof.Proofs.CascadeLinksDown

/-! What a Cascade link takes away that goes down, and audits that differ (R437, R444). -/

namespace Sys2Proof.Proofs.CascadeLinks

open Sys2Proof Sys2Proof.Machine Sys2Proof.Laws Sys2Proof.Proofs.Time Sys2Proof.Proofs.Power Sys2Proof.Proofs.RegOps
  Sys2Proof.Proofs.GarnetFrames Sys2Proof.Proofs.FieldGroups Sys2Proof.Proofs.CascadeLinksUp Sys2Proof.Proofs.CascadeLinksDown

section
variable {s t u : State} {d next : Nat}

/-! ### Posted writes that are lost -/

/-- The membership that the master sends over a link that is down is lost. -/
theorem pwlost_sendMembers (hs : s.regsWf = true) (hd : d < 2) (hdown : s.linkState d ≠ 2) :
    s.sendMembers.rd64 (Reg.CSC_PWLOST d) = (s.rd64 (Reg.CSC_PWLOST d) + if s.bit Fld.CSC_STATUS_MASTER = true ∧ d = 1 then
      ((bitsOf 8 s.nextMembers).filter (· != s.stackPos)).length else 0) % 18446744073709551616 := by
  obtain rfl | rfl : d = 0 ∨ d = 1 := by omega
  · rw [(works_sendMembers s).rd64 hs (spared_word (by decide) (by decide) (by decide)) (spared_word (by decide) (by decide) (by decide)),
      if_neg (by simp), Nat.add_zero, rd64_mod]
  · unfold State.sendMembers
    split
    case isFalse h => rw [if_neg fun hmaster => h hmaster.1, Nat.add_zero, rd64_mod]
    case isTrue h =>
      rw [if_pos ⟨h, rfl⟩]
      generalize ((bitsOf 8 s.nextMembers).filter (· != s.stackPos)).length = n
      have hlink : (s.add64 (Reg.CSC_TXPW 1) n).linkState 1 ≠ 2 := by
        have hcount : Works (inWords (two (Reg.CSC_TXPW 1))) bare s (s.add64 (Reg.CSC_TXPW 1) n) :=
          works_count n (show Reg.CSC_TXPW 1 ∈ two (Reg.CSC_TXPW 1) by decide) (show Reg.CSC_TXPW 1 + 4 ∈ two (Reg.CSC_TXPW 1) by decide)
            fun _ _ => rfl
        rwa [State.linkState, hcount.reads hs _ (spared_word (by decide) (by decide) (by decide))]
      rw [postedOut_eq, if_neg hlink, add64_eq_written, add64_eq_written, written_written, rd64_of_regs hs (regs_written ..)]
      simp (disch := decide) [RegOp.see]

/-- MASTER stays as a link goes down. -/
theorem master_dimmed (hs : s.regsWf = true) (hd : d < 2) :
    (dimmed s d next).getF Fld.CSC_STATUS_MASTER = s.getF Fld.CSC_STATUS_MASTER := by
  have hr := regs_written s (dimOps d next)
  have hspared : Spared Showing Fld.CSC_STATUS_MASTER := spared_showing (by decide) (by decide) (.inr (.inl (by decide))) (by decide)
  have hshow : (dimmed s d next).getF Fld.CSC_STATUS_MASTER = (written s (dimOps d next)).getF Fld.CSC_STATUS_MASTER :=
    (works_showMember (written s (dimOps d next))).reads (regsWf_of_regs hs hr) _ ⟨hspared.1, fun g hg => hspared.2 g (.inl hg)⟩
  rw [hshow, getF_of_regs hs hr]
  obtain rfl | rfl : d = 0 ∨ d = 1 := by omega
  · simp (disch := decide) [dimOps, State.linkField, State.degradedField, RegOp.see]
  · simp (disch := decide) [dimOps, State.linkField, State.degradedField, RegOp.see]

theorem regs_silenced (s : State) (d next : Nat) :
    (silenced s d next).regs = (runAll (dimmed s d next) [.count (Reg.CSC_RDTO d) 0]).regs :=
  regs_written_of (s := dimmed s d next) (u := (dimmed s d next).modCsc fun c => { c with lockHeld := lockLeft (dimmed s d next) d }) rfl _

/-- The counts of open reads and of lost writes spare what a link shows of itself. -/
theorem status_forgotten (hs : s.regsWf = true) (hd : d < 2) {f : Field} (hlen : 0 < f.len) (hfit : f.lo + f.len ≤ 32)
    (haddr : f.addr = Reg.CSC_STATUS ∨ f.addr = Reg.CSC_LINK d) :
    (forgotten (silenced s d next) d).getF f = (dimmed s d next).getF f := by
  have haddr' : f.addr = 0x110000 ∨ f.addr = 0x110100 + d * 0x200 := haddr
  have hwf : (dimmed s d next).regsWf = true := (works_dimmed s d next).wf hs
  have hcount : (silenced s d next).getF f = (dimmed s d next).getF f :=
    getF_of_regsKept (regsKept_of_regs (regs_silenced s d next)
      (ws := two (Reg.CSC_RDTO d)) (by simp [RegOp.words])) hfit (by
        show f.addr ∉ [0x110128 + d * 0x200, 0x110128 + d * 0x200 + 4]
        simp only [List.mem_cons, List.not_mem_nil, or_false]
        omega)
  exact ((works_forgotten (silenced s d next) d).reads ((works_silenced s d next).wf hs) f
    (spared_lost hlen hfit (.inl (by omega)))).trans hcount

/-! ### What a link takes away -/

/-- The words that a link writes as it goes down. -/
def fallWords (d : Nat) : List Nat := portWords d ++ two (Reg.CSC_PWLOST d) ++ sendWords

/-- What the fall of a link leaves of its port, of the requests and of the rest. -/
structure Fallen (s : State) (d next : Nat) (t : State) : Prop where
  link : t.linkState d = next
  word : t.rd (Reg.CSC_LINK d) = 0
  members : t.csc.membersNext = some (membersLeft s d)
  lost : Counted (Reg.CSC_PWLOST d) (Config.cscUnacked s.freeCtr % (tget s.csc.sent d + 1) +
    if s.bit Fld.CSC_STATUS_MASTER = true ∧ d = 1 then ((bitsOf 8 (membersLeft s d)).filter (· != s.stackPos)).length else 0) s t
  lock : t.csc.lockHeld = lockLeft s d
  waiting : t.csc.waiting = s.csc.waiting.filter fun p => !(s.behind d).contains p
  inWait : t.csc.inWait = (s.csc.inWait.filter fun x => x.1 != some d || x.2.write).map fun x => if x.1 = some d then (none, x.2) else x
  pops : t.pops = (s.dropReads fun q => q.cls == .x && (s.behind d).contains q.core).pops
  ports : t.arc.ports = portsWith s 0x11 ⟨0x12, 0x1001, 2, cscColl s, s.time.mt, p4 [d, 0, 0, 0]⟩
  works : Works (inWords (fallWords d)) settled s t

theorem pops_silenced (s : State) (d next : Nat) : (silenced s d next).pops = s.pops :=
  (congrArg State.pops (works_dimmed s d next).rest :)

theorem freeCtr_silenced (s : State) (d next : Nat) : (silenced s d next).freeCtr = s.freeCtr :=
  (congrArg State.freeCtr (works_dimmed s d next).rest :)

theorem ports_silenced (s : State) (d next : Nat) : (silenced s d next).arc.ports = (dimmed s d next).arc.ports := rfl

theorem pops_forgotten (s : State) (d : Nat) :
    (forgotten s d).pops = (s.dropReads fun q => q.cls == .x && (s.behind d).contains q.core).pops := rfl

theorem pwlost_forgotten (hs : s.regsWf = true) : (forgotten s d).rd64 (Reg.CSC_PWLOST d) =
    (s.rd64 (Reg.CSC_PWLOST d) + Config.cscUnacked s.freeCtr % (tget s.csc.sent d + 1)) % 18446744073709551616 := by
  have hr : (forgotten s d).regs = (runAll s [.count (Reg.CSC_PWLOST d) (Config.cscUnacked s.freeCtr % (tget s.csc.sent d + 1))]).regs :=
    (congrArg State.regs (add64_eq_written (s.dropReads _) _ _)).trans (regs_written_of rfl _)
  rw [rd64_of_regs hs hr]
  simp [RegOp.see]

/-- Of what is staged only the membership, what left at the ports and its credits are new. -/
theorem csc_staged (s : State) (v : Nat) : (s.stageMembers v).csc.membersNext = some v ∧
    (s.stageMembers v).csc.lockHeld = s.csc.lockHeld ∧ (s.stageMembers v).csc.waiting = s.csc.waiting ∧
    (s.stageMembers v).csc.inWait = s.csc.inWait := by
  have h := csc_stageMembers s v
  exact ⟨(congrArg CscSt.membersNext h :), (congrArg CscSt.lockHeld h :), (congrArg CscSt.waiting h :), (congrArg CscSt.inWait h :)⟩

theorem linkDown_fallen (hs : s.regsWf = true) (hd : d < 2) (hnext : next < 4) (hnot : next ≠ 2) (hup : s.linkState d = 2)
    (hidle : Idle s) (hroom : PortRoom s 0x11) : Fallen s d next (s.linkDown d next) := by
  rw [linkDown_eq hs hd hup hidle hroom]
  have hewf := (works_silenced s d next).wf hs
  have hf := works_forgotten (silenced s d next) d
  have hfwf := hf.wf hewf
  have hstage := works_stageMembers (forgotten (silenced s d next) d) (membersLeft s d)
  obtain ⟨hlink, hword⟩ := shown_dimmed (next := next) hs hd hnext
  obtain ⟨hmembers, hlock, hwaiting, hinWait⟩ := csc_staged (forgotten (silenced s d next) d) (membersLeft s d)
  have hbehind := behind_silenced (next := next) hs hd
  have hcsc := csc_silenced (next := next) hs hd
  have hstatus {f : Field} (hlen : 0 < f.len) (hfit : f.lo + f.len ≤ 32) (haddr : f.addr = Reg.CSC_STATUS ∨ f.addr = Reg.CSC_LINK d) :=
    status_forgotten (next := next) hs hd hlen hfit haddr
  have hlinkf : (forgotten (silenced s d next) d).linkState d = next := by
    obtain ⟨haddr, hlo, hlen, hfit⟩ := linkField_status d
    exact (hstatus (by omega) (by omega) (.inl haddr)).trans hlink
  have hwordf : (forgotten (silenced s d next) d).rd (Reg.CSC_LINK d) = 0 := by
    rw [rd_eq_getF, hstatus (f := word (Reg.CSC_LINK d)) (Nat.zero_lt_succ _) (Nat.le_refl 32) (.inr rfl), ← rd_eq_getF]
    exact hword
  have hmaster : (forgotten (silenced s d next) d).bit Fld.CSC_STATUS_MASTER = s.bit Fld.CSC_STATUS_MASTER :=
    congrArg (· != 0) ((hstatus (by decide) (by decide) (.inl rfl)).trans (master_dimmed hs hd))
  have hpos : (forgotten (silenced s d next) d).stackPos = s.stackPos :=
    (hf.reads hewf Fld.SYS_PLUG_POS (spared_lost (by decide) (by decide) (.inl (by
      show Reg.SYS_PLUG < 0x110148 + d * 0x200
      have hplug : Reg.SYS_PLUG < 0x110148 := by decide
      omega)))).trans ((works_silenced s d next).reads hs _ (spared_port hd (by decide) (by decide) ⟨by decide, .inl (by decide)⟩))
  have hlost : (silenced s d next).rd64 (Reg.CSC_PWLOST d) = s.rd64 (Reg.CSC_PWLOST d) := by
    have hspared (a : Nat) (ha : 0x110148 + d * 0x200 ≤ a) : Spared (inWords (portWords d)) (word a) :=
      spared_port hd (Nat.zero_lt_succ _) (Nat.le_refl 32) ⟨by show a ≠ 0x110000; omega, .inr (by show _ ≤ a; omega)⟩
    exact (works_silenced s d next).rd64 hs (hspared _ (Nat.le_refl _)) (hspared _ (Nat.le_add_right _ 4))
  have hout : Spared (inWords sendWords) (State.linkField d) ∧ Spared (inWords sendWords) (word (Reg.CSC_LINK d)) := by
    obtain ⟨haddr, hlo, hlen, hfit⟩ := linkField_status d
    refine ⟨spared_word (by omega) (by omega) (by rw [haddr]; decide), spared_word (Nat.zero_lt_succ _) (Nat.le_refl 32) ?_⟩
    show 0x110100 + d * 0x200 ∉ [0x110308, 0x11030C, 0x110348, 0x11034C]
    simp only [List.mem_cons, List.not_mem_nil, or_false]
    omega
  constructor
  case link => exact (hstage.reads hfwf _ hout.1).trans hlinkf
  case word => exact (hstage.rd hfwf hout.2).trans hwordf
  case members => exact hmembers
  case lost =>
    have hsend := pwlost_sendMembers (s := (forgotten (silenced s d next) d).modCsc fun c => { c with membersNext := some (membersLeft s d) })
      (d := d) hfwf hd (by
        show (forgotten (silenced s d next) d).linkState d ≠ 2
        rwa [hlinkf])
    have hforgot := pwlost_forgotten (s := silenced s d next) (d := d) hewf
    rw [hlost, freeCtr_silenced, hcsc] at hforgot
    refine hsend.trans ?_
    show ((forgotten (silenced s d next) d).rd64 (Reg.CSC_PWLOST d) + if (forgotten (silenced s d next) d).bit Fld.CSC_STATUS_MASTER = true ∧ d = 1
      then ((bitsOf 8 (membersLeft s d)).filter (· != (forgotten (silenced s d next) d).stackPos)).length else 0) % 18446744073709551616 = _
    rw [hforgot, hmaster, hpos, Nat.mod_add_mod, Nat.add_assoc]
  case lock => exact hlock.trans (by rw [csc_forgotten, hcsc]; rfl)
  case waiting => exact hwaiting.trans (by rw [csc_forgotten, hcsc, hbehind]; rfl)
  case inWait => exact hinWait.trans (by rw [csc_forgotten, hcsc, hbehind]; rfl)
  case pops =>
    refine (congrArg State.pops hstage.rest :).trans ((pops_forgotten ..).trans ?_)
    rw [State.dropReads, State.dropReads, hbehind, pops_silenced]
  case ports =>
    exact (congrArg (fun u : State => u.arc.ports) hstage.rest :).trans ((ports_silenced s d next).trans (ports_dimmed s d next))
  case works =>
    have hfirst := (works_silenced s d next).mono fun g hg =>
      (List.mem_append_left _ (List.mem_append_left _ hg) : inWords (fallWords d) g)
    have hsecond := hf.mono fun g hg => (List.mem_append_left _ (List.mem_append_right _ hg) : inWords (fallWords d) g)
    have hthird := (hstage.mono fun g hg => (List.mem_append_right _ hg : inWords (fallWords d) g)).coarsen (L := settled) fun _ => rfl
    exact (hfirst.trans hsecond).trans hthird

/-- Discarded reads leave no one waiting who was not. -/
theorem waiting_dropReads (of : Requester → Bool) (h : (s.pops.all fun x => x.2.waiting.isEmpty) = true) :
    ((s.dropReads of).pops.all fun x => x.2.waiting.isEmpty) = true := by
  refine List.all_eq_true.mpr fun x hx => ?_
  obtain ⟨y, hy, hxy⟩ := List.mem_filterMap.mp hx
  have hnone := List.all_eq_true.mp h y hy
  rw [List.isEmpty_iff] at hnone
  obtain ⟨-, hxy⟩ := Option.ite_none_left_eq_some.mp hxy
  rw [← Option.some.inj hxy]
  show (y.2.waiting.filter fun r => !of r).isEmpty = true
  rw [hnone]
  rfl

/-- A link that falls, where no pop read waits. -/
theorem linkFalls_fallen (hs : s.regsWf = true) (hd : d < 2) (hnext : next < 4) (hnot : next ≠ 2) (hup : s.linkState d = 2)
    (hidle : Idle s) (hroom : PortRoom s 0x11) (hwaiting : (s.pops.all fun x => x.2.waiting.isEmpty) = true) :
    Fallen s d next (s.linkFalls d next) := by
  have hfallen := linkDown_fallen hs hd hnext hnot hup hidle hroom
  have hidle' : (s.linkDown d next).popsFreed = s.linkDown d next := popsFreed_idle (by
    rw [hfallen.pops]
    exact waiting_dropReads _ hwaiting)
  rw [State.linkFalls, hidle']
  exact hfallen

end

end Sys2Proof.Proofs.CascadeLinks

/-! The fall of a Cascade link, and an audit that differs, as commands (R437, R444). -/

namespace Sys2Proof.Proofs.CascadeAudits

open Sys2Proof Sys2Proof.Machine Sys2Proof.Laws Sys2Proof.Proofs.Time Sys2Proof.Proofs.Power Sys2Proof.Proofs.RegOps
  Sys2Proof.Proofs.GarnetFrames Sys2Proof.Proofs.FieldGroups Sys2Proof.Proofs.CascadeLinksUp Sys2Proof.Proofs.CascadeLinksDown
  Sys2Proof.Proofs.CascadeLinks Sys2Proof.Proofs.SideBand

section
variable {s t u : State} {dt next : Nat} {port : Fin 2}

theorem fallWords_cascade {d a : Nat} (hd : d < 2) (ha : a ∈ fallWords d) : a / 65536 = 0x11 := by
  obtain rfl | rfl : d = 0 ∨ d = 1 := by omega
  · have hall : ∀ a ∈ fallWords 0, a / 65536 = 0x11 := by decide
    exact hall a ha
  · have hall : ∀ a ∈ fallWords 1, a / 65536 = 0x11 := by decide
    exact hall a ha

/-- The frame of a link that falls, from a state that differs from the one before in Cascade's words and the ports. -/
theorem frame_of_fallen {d : Nat} (h : Fallen u d next t) (hd : d < 2) (hu : u.regsWf = true)
    (hregs : ∀ a, a / 65536 ∉ [0x11] → u.rdw a = s.rdw a) (hrest : settled u = settled (s.elapse dt)) : LeavesOut dt [0x11] s t
      { t with freeCtr := s.freeCtr, pops := s.pops, csc := { t.csc with membersNext := s.csc.membersNext, sent := s.csc.sent, used := s.csc.used, lockHeld := s.csc.lockHeld, waiting := s.csc.waiting, inWait := s.csc.inWait }, arc := { t.arc with ports := s.arc.ports } } := by
  have hsettled := h.works.rest.trans hrest
  exact ⟨fun a ha => (rdw_out h.works hu (fun _ => fallWords_cascade hd) a ha).trans (hregs a ha),
    fun a => (congrArg (fun v : State => v.memGet a) hsettled :),
    (congrArg (fun v : State => { v with regs := s.regs, resp := s.resp, freeCtr := s.freeCtr, pops := s.pops, csc := { v.csc with membersNext := s.csc.membersNext, sent := s.csc.sent, used := s.csc.used, lockHeld := s.csc.lockHeld, waiting := s.csc.waiting, inWait := s.csc.inWait }, arc := { v.arc with ports := s.arc.ports } }) hsettled :)⟩

theorem linkGoesDown (hs : s.regsWf = true) (hup : s.linkState port.val = 2) (hidle : Idle s) (hroom : PortRoom s 0x11)
    (hwaiting : (s.pops.all fun x => x.2.waiting.isEmpty) = true) :
    ∃ t, exec (.cscLink dt port .goesDown) s = .next t ∧
      t.linkState port.val = 0 ∧
      t.rd (Reg.CSC_LINK port.val) = 0 ∧
      (t.csc.membersNext = some (((bitsOf 8 s.nextMembers).filter fun p => !(s.behind port.val).contains p).map (2 ^ ·)).sum) ∧
      (Counted (Reg.CSC_PWLOST port.val) (Config.cscUnacked s.freeCtr % (tget s.csc.sent port.val + 1) + if s.bit
        Fld.CSC_STATUS_MASTER = true ∧ port.val = 1 then ((bitsOf 8 t.nextMembers).filter (· != s.stackPos)).length else 0) s t) ∧
      (t.csc.lockHeld = (if (s.csc.lockHeld.map fun p => (s.behind port.val).contains p).getD false then none else
        s.csc.lockHeld)) ∧
      (t.csc.waiting = s.csc.waiting.filter fun p => !(s.behind port.val).contains p) ∧
      (t.csc.inWait = (s.csc.inWait.filter fun x => x.1 != some port.val || x.2.write).map fun x => if x.1 = some port.val then
        (none, x.2) else x) ∧
      (t.pops = (s.dropReads fun q => q.cls == .x && (s.behind port.val).contains q.core).pops) ∧
      (Offered 0x11 0x1001 2 (if 55 < s.getF Fld.CSC_EVCOLL_COLL then 0 else s.getF Fld.CSC_EVCOLL_COLL) (p4 [port.val, 0, 0,
        0]) s t) ∧
      LeavesOut dt [0x11] s t
        { t with freeCtr := s.freeCtr, pops := s.pops, csc := { t.csc with membersNext := s.csc.membersNext, sent := s.csc.sent, used := s.csc.used, lockHeld := s.csc.lockHeld, waiting := s.csc.waiting, inWait := s.csc.inWait }, arc := { t.arc with ports := s.arc.ports } } := by
  have h := linkFalls_fallen (s := s.elapse dt) (next := 0) hs port.isLt (by decide) (by decide) hup hidle hroom hwaiting
  have hexec : exec (.cscLink dt port .goesDown) s = .next ((s.elapse dt).linkFalls port.val 0) := rfl
  generalize (s.elapse dt).linkFalls port.val 0 = t at *
  have hmt : t.time.mt = (s.elapse dt).time.mt := (congrArg (fun v : State => v.time.mt) h.works.rest :)
  have hnext : t.nextMembers = membersLeft (s.elapse dt) port.val := by rw [State.nextMembers, h.members]; rfl
  refine ⟨t, hexec, h.link, h.word, h.members, ?_, h.lock, h.waiting, h.inWait, h.pops, offered_of_ports (h.ports.trans ?_),
    frame_of_fallen (s := s) h port.isLt hs (fun _ _ => rfl) rfl⟩
  · rw [hnext]
    exact h.lost
  · rw [hmt]
    rfl

/-! ### An audit that differs -/

/-- What an audit that differs counts. -/
def auditOps (d n : Nat) : List RegOp := [.count (Reg.CSC_RXPW d) 1, .count (Reg.CSC_CREDERR d) n, .count (Reg.CSC_RETRAIN d) 1]

/-- An audit that differs is counted and reported. -/
def flagged (s : State) (d n k : Nat) : State :=
  offer (written s (auditOps d n)) 0x11 ⟨0x12, 0x1003, 3, cscColl s, s.time.mt, p4 [d, k]⟩

theorem regs_flagged (s : State) (d n k : Nat) : (flagged s d n k).regs = (runAll s (auditOps d n)).regs := regs_written ..

theorem words_auditOps {d n a : Nat} (ha : a ∈ (auditOps d n).flatMap RegOp.words) :
    0x110110 + d * 0x200 ≤ a ∧ a < 0x110148 + d * 0x200 := by
  simp only [auditOps, RegOp.words, List.flatMap_cons, List.flatMap_nil, List.mem_append, List.mem_cons, List.not_mem_nil, or_false] at ha
  change ((a = 0x110110 + d * 0x200 ∨ a = 0x110110 + d * 0x200 + 4) ∨ (a = 0x110140 + d * 0x200 ∨ a = 0x110140 + d * 0x200 + 4) ∨
    a = 0x110138 + d * 0x200 ∨ a = 0x110138 + d * 0x200 + 4) at ha
  omega

theorem getF_flagged (s : State) (d n k : Nat) {f : Field} (hfit : f.lo + f.len ≤ 32) (hlow : f.addr < 0x110110) :
    (flagged s d n k).getF f = s.getF f :=
  getF_of_regsKept (regsKept_of_regs (regs_flagged s d n k) fun _ h => h) hfit fun h => by
    have := (words_auditOps h).1
    omega

theorem linkState_flagged (s : State) (d n k : Nat) : (flagged s d n k).linkState d = s.linkState d := by
  obtain ⟨haddr, hlo, hlen, hfit⟩ := linkField_status d
  exact getF_flagged s d n k (by omega) (by rw [haddr]; decide)

theorem behind_flagged (s : State) (d n k : Nat) : (flagged s d n k).behind d = s.behind d :=
  behind_congr (getF_flagged s d n k (f := Fld.SYS_PLUG_POS) (by decide) (by decide))

theorem exec_cscAuditRx_differs {consumed rest : List Nat} {k : Nat} (hheard : s.heard port.val = true)
    (hbad : ((List.range 6).filter fun k => consumed.getD k 0 != s.rd64 (Reg.CSC_CREDRET port.val k) +
      s.rd64 (Reg.CSC_CREDHELD port.val k)) = k :: rest) (hroom : PortRoom s 0x11) :
    exec (.cscAuditRx dt port consumed) s =
      .next ((flagged (s.elapse dt) port.val (k :: rest).length k).linkFalls port.val 1) := by
  have hbad' : ((List.range 6).filter fun k => consumed.getD k 0 != (s.elapse dt).rd64 (Reg.CSC_CREDRET port.val k) +
      (s.elapse dt).rd64 (Reg.CSC_CREDHELD port.val k)) = k :: rest := hbad
  have hcounts : (((s.elapse dt).inc64 (Reg.CSC_RXPW port.val)).add64 (Reg.CSC_CREDERR port.val) (k :: rest).length).inc64
      (Reg.CSC_RETRAIN port.val) = written (s.elapse dt) (auditOps port.val (k :: rest).length) := by
    rw [inc64_eq_written, add64_eq_written, inc64_eq_written, written_written, written_written]
    rfl
  have hcoll : (written (s.elapse dt) (auditOps port.val (k :: rest).length)).getF Fld.CSC_EVCOLL_COLL =
      (s.elapse dt).getF Fld.CSC_EVCOLL_COLL := getF_flagged (s.elapse dt) port.val (k :: rest).length k (by decide) (by decide)
  refine congrArg Host.Outcome.next ((if_pos hheard).trans ?_)
  unfold State.audit
  rw [hbad']
  show (((((s.elapse dt).inc64 (Reg.CSC_RXPW port.val)).add64 (Reg.CSC_CREDERR port.val) (k :: rest).length).inc64
    (Reg.CSC_RETRAIN port.val)).cscEvent 0x1003 3 (p4 [port.val, k])).linkFalls port.val 1 = _
  rw [hcounts]
  exact congrArg (fun v : State => v.linkFalls port.val 1)
    (cscEvent_of_room (u := written (s.elapse dt) (auditOps port.val (k :: rest).length)) hroom hcoll rfl 0x1003 3 _)

end

section
variable {s t : State} {dt k : Nat} {port : Fin 2} {consumed rest : List Nat}

/-- The counts of an audit that differs are no words of a link that falls. -/
theorem spared_auditCount {d a : Nat} (hd : d < 2) (ha : 0x110138 + d * 0x200 ≤ a ∧ a < 0x110148 + d * 0x200) :
    Spared (inWords (fallWords d)) (word a) := by
  refine spared_word (Nat.zero_lt_succ _) (Nat.le_refl 32) ?_
  show a ∉ [0x110000, 0x110100 + d * 0x200, 0x110128 + d * 0x200, 0x110128 + d * 0x200 + 4, 0x110148 + d * 0x200,
    0x110148 + d * 0x200 + 4, 0x110308, 0x11030C, 0x110348, 0x11034C]
  simp only [List.mem_cons, List.not_mem_nil, or_false]
  obtain rfl | rfl : d = 0 ∨ d = 1 := by omega
  · omega
  · omega

theorem counted_flagged (hs : s.regsWf = true) (d n k : Nat) :
    Counted (Reg.CSC_CREDERR d) n s (flagged s d n k) ∧ Counted (Reg.CSC_RETRAIN d) 1 s (flagged s d n k) := by
  constructor
  · rw [Counted, rd64_of_regs hs (regs_flagged s d n k), auditOps]
    simp (disch := grind) [RegOp.see]
  · rw [Counted, rd64_of_regs hs (regs_flagged s d n k), auditOps]
    simp (disch := grind) [RegOp.see]

theorem auditDiffers (hs : s.regsWf = true) (hheard : s.heard port.val = true)
    (hwaiting : (s.pops.all fun x => x.2.waiting.isEmpty) = true)
    (hbad : ((List.range 6).filter fun k => consumed.getD k 0 != s.rd64 (Reg.CSC_CREDRET port.val k) +
      s.rd64 (Reg.CSC_CREDHELD port.val k)) = k :: rest)
    (hidle : Idle s) (hroom : (tget s.arc.ports 0x11).length < 31) :
    ∃ t, exec (.cscAuditRx dt port consumed) s = .next t ∧
      Counted (Reg.CSC_CREDERR port.val) (k :: rest).length s t ∧
      Counted (Reg.CSC_RETRAIN port.val) 1 s t ∧
      t.linkState port.val = 1 ∧
      (tget t.arc.ports 0x11 = tget s.arc.ports 0x11 ++ [⟨0x12, 0x1003, 3, (if 55 < s.getF Fld.CSC_EVCOLL_COLL then 0 else
        s.getF Fld.CSC_EVCOLL_COLL), t.time.mt, p4 [port.val, k]⟩, ⟨0x12, 0x1001, 2, (if 55 < s.getF Fld.CSC_EVCOLL_COLL then
        0 else s.getF Fld.CSC_EVCOLL_COLL), t.time.mt, p4 [port.val, 0, 0, 0]⟩]) ∧
      (t.csc.lockHeld = (if (s.csc.lockHeld.map fun p => (s.behind port.val).contains p).getD false then none else
        s.csc.lockHeld)) ∧
      (t.csc.waiting = s.csc.waiting.filter fun p => !(s.behind port.val).contains p) ∧
      (t.csc.inWait = (s.csc.inWait.filter fun x => x.1 != some port.val || x.2.write).map fun x => if x.1 = some port.val then
        (none, x.2) else x) ∧
      (t.pops = (s.dropReads fun q => q.cls == .x && (s.behind port.val).contains q.core).pops) ∧
      LeavesOut dt [0x11] s t
        { t with freeCtr := s.freeCtr, pops := s.pops, csc := { t.csc with membersNext := s.csc.membersNext, sent := s.csc.sent, used := s.csc.used, lockHeld := s.csc.lockHeld, waiting := s.csc.waiting, inWait := s.csc.inWait }, arc := { t.arc with ports := s.arc.ports } } := by
  have hd := port.isLt
  have hu : (s.elapse dt).regsWf = true := hs
  have hup : s.linkState port.val = 2 := beq_iff_eq.mp (Bool.and_eq_true_iff.mp hheard).1
  have hexec := exec_cscAuditRx_differs (dt := dt) hheard hbad (by omega)
  obtain ⟨herr, hretrain⟩ := counted_flagged hu port.val (k :: rest).length k
  have hr := regs_flagged (s.elapse dt) port.val (k :: rest).length k
  have hlink := (linkState_flagged (s.elapse dt) port.val (k :: rest).length k).trans hup
  have hbehind := behind_flagged (s.elapse dt) port.val (k :: rest).length k
  have hcoll : cscColl (flagged (s.elapse dt) port.val (k :: rest).length k) = cscColl (s.elapse dt) := by
    rw [cscColl, cscColl, getF_flagged _ _ _ _ (f := Fld.CSC_EVCOLL_COLL) (by decide) (by decide)]
  have hports : (flagged (s.elapse dt) port.val (k :: rest).length k).arc.ports = portsWith (s.elapse dt) 0x11
    ⟨0x12, 0x1003, 3, cscColl (s.elapse dt), (s.elapse dt).time.mt, p4 [port.val, k]⟩ := rfl
  have hpops : (flagged (s.elapse dt) port.val (k :: rest).length k).pops = s.pops := rfl
  have hcsc : (flagged (s.elapse dt) port.val (k :: rest).length k).csc = s.csc := rfl
  have hmt : (flagged (s.elapse dt) port.val (k :: rest).length k).time.mt = (s.elapse dt).time.mt := rfl
  have hrest : settled (flagged (s.elapse dt) port.val (k :: rest).length k) = settled (s.elapse dt) := rfl
  generalize flagged (s.elapse dt) port.val (k :: rest).length k = u at *
  have huwf := regsWf_of_regs hu hr
  have hqueue : tget u.arc.ports 0x11 = tget s.arc.ports 0x11 ++
      [⟨0x12, 0x1003, 3, cscColl (s.elapse dt), (s.elapse dt).time.mt, p4 [port.val, k]⟩] :=
    (congrArg (fun m => tget m 0x11) hports).trans (tget_portsWith_self ..)
  have hfallen := linkFalls_fallen (s := u) (next := 1) huwf hd (by decide) (by decide) hlink (by rw [Idle, hcsc]; exact hidle)
    (by rw [PortRoom, hqueue, List.length_append]; exact Nat.succ_lt_succ hroom) (by rw [hpops]; exact hwaiting)
  generalize u.linkFalls port.val 1 = t at *
  have hmtt : t.time.mt = u.time.mt := (congrArg (fun v : State => v.time.mt) hfallen.works.rest :)
  have hcount (a : Nat) (ha : 0x110138 + port.val * 0x200 ≤ a ∧ a + 8 ≤ 0x110148 + port.val * 0x200) : t.rd64 a = u.rd64 a :=
    hfallen.works.rd64 huwf (spared_auditCount hd (by omega)) (spared_auditCount hd (by omega))
  have hlock := hfallen.lock
  have hwaits := hfallen.waiting
  have hinWait := hfallen.inWait
  have hdropped := hfallen.pops
  rw [lockLeft, hbehind, hcsc] at hlock
  rw [hbehind, hcsc] at hwaits
  rw [hcsc] at hinWait
  rw [State.dropReads, hbehind, hpops] at hdropped
  refine ⟨t, hexec, (hcount _ ?_).trans herr, (hcount _ ?_).trans hretrain, hfallen.link, ?_, hlock, hwaits, hinWait, hdropped,
    frame_of_fallen (s := s) hfallen hd huwf (fun a ha => ?_) hrest⟩
  · show _ ≤ 0x110140 + port.val * 0x200 ∧ 0x110140 + port.val * 0x200 + 8 ≤ _
    omega
  · show _ ≤ 0x110138 + port.val * 0x200 ∧ 0x110138 + port.val * 0x200 + 8 ≤ _
    omega
  · rw [hfallen.ports, tget_portsWith_self, hqueue, hcoll, hmtt, hmt, List.append_assoc]
    rfl
  · refine regsKept_of_regs (s := s.elapse dt) hr (fun _ h => h) a fun h => ha (List.mem_singleton.mpr ?_)
    have := words_auditOps h
    omega

/-- Settles O53: each clause is the lemma of its command. -/
theorem cascadeLinks : Obligations.CascadeLinks := by
  intro s dt hs
  have hw : s.regsWf = true := (Bool.and_eq_true_iff.mp hs).1
  refine ⟨?up, ?beyond, ?trains, ?down, ?member, ?sync, ?announcement, ?agrees, ?differs⟩
  case up =>
    intro d n w gen reach hon _ hdown hplace hn hwidth hgen hroom hwaiting
    exact linkComesUp hw hon hdown hplace hn hwidth hgen hroom hwaiting
  case beyond =>
    intro d reach hup
    exact linkBeyond hw hup
  case trains =>
    intro d hon _ hdown
    exact linkTrains hw hon hdown
  case down =>
    intro d hup htags hreads hamos hroom hwaiting
    exact linkGoesDown hw hup ⟨htags, hreads, hamos⟩ hroom hwaiting
  case member =>
    intro vec hheard
    exact memberTaken hw hheard
  case sync =>
    intro instant hmember hheard hahead
    exact syncTaken hw hmember hheard hahead
  case announcement =>
    intro a hversion hid hgrid hearly hlate hfresh hroom hoff hheard hmaster
    exact announceTaken hw hversion hid hgrid hearly hlate hfresh hroom hoff hheard hmaster
  case agrees =>
    intro d consumed hheard hagrees
    exact auditAgrees hw hheard hagrees
  case differs =>
    intro d consumed bad k rest hheard hwaiting hbad hcons htags hreads hamos hroom
    subst hcons
    exact auditDiffers hw hheard hwaiting hbad.symm ⟨htags, hreads, hamos⟩ hroom

end

end Sys2Proof.Proofs.CascadeAudits
